-- ==== Sys2Proof/Word.lean ====
section
/-! DEFINITION. Words: the register width of R16, 64-bit quantities (R21) and bytes (R13). -/

namespace Sys2Proof

/-- A register value (R16). -/
abbrev Word := BitVec 32

/-- A 64-bit quantity: a register pair, a dowel value, a word of a descriptor (R21). -/
abbrev Dword := BitVec 64

/-- One byte of memory. -/
abbrev Byte := BitVec 8

/-- An owner ID: world [12], partition [11:8], instance [7:0] (R3). -/
abbrev Owner := BitVec 13

end Sys2Proof
end

