-- ==== Sys2Proof/Kinds.lean ====
section
/-! DEFINITION. The small kinds of thing that commands and state are made of: halves, classes, initiators, command
identifiers. -/

namespace Sys2Proof

/-- The two mirrored halves of the package (R26). -/
inductive Half where
  /-- Headstock, 0 in every record. -/
  | H
  /-- Tailstock, 1 in every record. -/
  | T
deriving DecidableEq, Repr, Inhabited

/-- Number of a half in records and register indices. -/
def Half.idx : Half → Nat
  | .H => 0
  | .T => 1

/-- The other half. -/
def Half.other : Half → Half
  | .H => .T
  | .T => .H

/-- The half with a number: 0 Headstock, anything else Tailstock. -/
def Half.ofIdx (n : Nat) : Half := if n = 0 then .H else .T

/-- One thing per half (R10). -/
structure Pair (α : Type) where
  h : α
  t : α
deriving DecidableEq, Repr, Inhabited

/-- The copy of a half. -/
def Pair.get {α : Type} (p : Pair α) : Half → α
  | .H => p.h
  | .T => p.t

/-- The pair with one half's copy replaced. -/
def Pair.set {α : Type} (p : Pair α) (x : Half) (v : α) : Pair α :=
  match x with
  | .H => { p with h := v }
  | .T => { p with t := v }

/-- The kinds of initiator that reach the bus. -/
inductive Via where
  /-- An application core. -/
  | core
  /-- A Carriage or other engine on behalf of a party. -/
  | engine
  /-- A PCIe port (R306). -/
  | pcie
  /-- A peer link (R505). -/
  | peer
  /-- The telemetry mirror's reader (R540). -/
  | mirror
  /-- The security core of a half. -/
  | secCore
  /-- The JTAG debug port (R471). -/
  | debugPort
deriving DecidableEq, Repr, Inhabited

/-- An initiator of a register or memory access: the owner ID it acts under, its bus port (R21), its half. -/
structure Initiator where
  owner : Owner
  port : Nat
  half : Half
  via : Via
deriving DecidableEq, Repr, Inhabited

/-- Firmware is the party with owner ID 0x0000 (R2). -/
def Initiator.isFirmware (i : Initiator) : Bool := i.owner == 0

/-- A command in flight is named by its submission ring and its sequence number (R249). -/
structure CmdId where
  ring : Fin 65536
  seq : Word
  /-- Tells it from commands of the same index that the ring fetched before it was enabled anew, while these are in flight (R240). -/
  era : Nat := 0
deriving DecidableEq, Repr, Inhabited

end Sys2Proof
end

