-- ==== Sys2Proof/Machine/Bits.lean ====
section
/-! DEFINITION. Bit fields, byte order, signed readings (R3, R13): the helpers that every meaning uses. -/

namespace Sys2Proof

/-- The world of an owner ID: true for Heartwood (R3). -/
def Owner.world (o : Owner) : Bool := o.toNat / 4096 % 2 == 1
/-- The partition of an owner ID (R3). -/
def Owner.part (o : Owner) : Nat := o.toNat / 256 % 16
/-- The instance of an owner ID (R3). -/
def Owner.inst (o : Owner) : Nat := o.toNat % 256

/-- Little-endian value of bytes (R13). -/
def leNat : List Byte → Nat
  | [] => 0
  | b :: bs => b.toNat + 256 * leNat bs

/-- The low `n` bytes of a value, little-endian (R13). -/
def toLE : Nat → Nat → List Byte
  | 0, _ => []
  | n + 1, v => BitVec.ofNat 8 v :: toLE n (v / 256)

/-- Bits `[lo + wid - 1 : lo]` of a number. -/
def bits (v lo wid : Nat) : Nat := v / 2 ^ lo % 2 ^ wid

/-- Bit `n` of a number. -/
def bit (v n : Nat) : Bool := v / 2 ^ n % 2 == 1

/-- 1 for true. -/
def b2n (b : Bool) : Nat := if b then 1 else 0

/-- The number read as a signed quantity of `w` bits. -/
def sgn (w v : Nat) : Int := if v % 2 ^ w < 2 ^ (w - 1) then (v % 2 ^ w : Nat) else (v % 2 ^ w : Nat) - (2 ^ w : Nat)

/-- A signed quantity as `w` bits. -/
def unsgn (w : Nat) (v : Int) : Nat := (v % (2 ^ w : Nat)).toNat

/-- A number with its bits below `n` taken as zero (R566). -/
def alignDown (v n : Nat) : Nat := v / n * n

end Sys2Proof
end

