-- ==== Sys2Proof/Machine/Float.lean ====
section
/-! DEFINITION. The arithmetic contract (R46–R74): number formats, exact values, roundings and conversions. A finite
value is held exactly, as a sign, a natural number and a power of two. -/

namespace Sys2Proof.Machine

/-- A value of a floating-point computation: NaN, an infinity, or (−1)^neg × m × 2^e exactly. -/
inductive FV where
  | nan
  | inf (neg : Bool)
  | fin (neg : Bool) (m : Nat) (e : Int)
deriving DecidableEq, Repr

/-- Positive zero. -/
def FV.zero : FV := .fin false 0 0
/-- One. -/
def FV.one : FV := .fin false 1 0

/-- How a format codes infinities and NaNs (R49). -/
inductive Special where
  /-- All-ones exponent: infinity at M = 0, NaN otherwise. -/
  | ieee
  /-- No infinity; NaN at all ones (FP8 E4M3). -/
  | nanOnly
  /-- Neither. -/
  | none
deriving DecidableEq, Repr

/-- A binary floating-point format (R49). -/
structure Fmt where
  ebits : Nat
  mbits : Nat
  bias : Int
  special : Special
deriving DecidableEq, Repr

def fp64 : Fmt := ⟨11, 52, 1023, .ieee⟩
def fp32 : Fmt := ⟨8, 23, 127, .ieee⟩
def fp16 : Fmt := ⟨5, 10, 15, .ieee⟩
def bf16 : Fmt := ⟨8, 7, 127, .ieee⟩
def e4m3 : Fmt := ⟨4, 3, 7, .nanOnly⟩
def e5m2 : Fmt := ⟨5, 2, 15, .ieee⟩
def e3m2 : Fmt := ⟨3, 2, 3, .none⟩
def e2m3 : Fmt := ⟨2, 3, 1, .none⟩
def e2m1 : Fmt := ⟨2, 1, 1, .none⟩

/-- Width in bits. -/
def Fmt.width (f : Fmt) : Nat := f.ebits + f.mbits + 1

/-- The value of a bit pattern (R49). -/
def Fmt.decode (f : Fmt) (v : Nat) : FV :=
  let s := bit v (f.ebits + f.mbits)
  let e := bits v f.mbits f.ebits
  let m := bits v 0 f.mbits
  let ones := e == 2 ^ f.ebits - 1
  if f.special = .ieee ∧ ones then (if m = 0 then .inf s else .nan)
  else if f.special = .nanOnly ∧ ones ∧ m = 2 ^ f.mbits - 1 then .nan
  else if e = 0 then .fin s m (1 - f.bias - f.mbits)
  else .fin s (2 ^ f.mbits + m) (e - f.bias - f.mbits)

/-- The canonical NaN (R51); formats without one give zero. -/
def Fmt.canonNan (f : Fmt) : Nat :=
  match f.special with
  | .ieee => (2 ^ f.ebits - 1) * 2 ^ f.mbits + 2 ^ (f.mbits - 1)
  | .nanOnly => (2 ^ f.ebits - 1) * 2 ^ f.mbits + (2 ^ f.mbits - 1)
  | .none => 0

/-- The pattern of the largest finite magnitude. -/
def Fmt.maxPat (f : Fmt) : Nat :=
  match f.special with
  | .ieee => (2 ^ f.ebits - 2) * 2 ^ f.mbits + (2 ^ f.mbits - 1)
  | .nanOnly => (2 ^ f.ebits - 1) * 2 ^ f.mbits + (2 ^ f.mbits - 2)
  | .none => (2 ^ f.ebits - 1) * 2 ^ f.mbits + (2 ^ f.mbits - 1)

/-- The pattern with a sign. -/
def Fmt.withSign (f : Fmt) (neg : Bool) (v : Nat) : Nat := v + 2 ^ (f.ebits + f.mbits) * b2n neg

/-- Rounding modes: R56's four, and the two directed modes of the RISC-V specification. -/
inductive Rm where
  | rne | rtz | rna
  /-- Stochastic, with the 16 bits drawn (R57). -/
  | sr (r : Nat)
  | rdn | rup
deriving DecidableEq, Repr

/-- Whether a quotient `k` with remainder `rem` of `2^sh` is rounded away from zero. -/
def roundsUp (mode : Rm) (neg : Bool) (k rem sh : Nat) : Bool :=
  match mode with
  | .rne => decide (2 ^ sh < 2 * rem ∨ (2 * rem = 2 ^ sh ∧ k % 2 = 1))
  | .rtz => false
  | .rna => decide (2 ^ sh ≤ 2 * rem ∧ 0 < rem)
  | .sr r => decide (if neg then 0 < rem ∧ ¬ r < (2 ^ 16 * (2 ^ sh - rem)) / 2 ^ sh else r < 2 ^ 16 * rem / 2 ^ sh)
  | .rdn => neg && decide (0 < rem)
  | .rup => !neg && decide (0 < rem)

/-- A magnitude `m × 2^e` rounded to a multiple of `2^q`: the multiple, and whether it is inexact. -/
def roundAt (mode : Rm) (neg : Bool) (m : Nat) (e q : Int) : Nat × Bool :=
  if q ≤ e then (m * 2 ^ (e - q).toNat, false)
  else
    let sh := (q - e).toNat
    let k := m / 2 ^ sh
    let rem := m % 2 ^ sh
    (if roundsUp mode neg k rem sh then k + 1 else k, decide (rem ≠ 0))

/-- A rounded value in a format: its pattern, and whether it overflowed, was inexact, was tiny. -/
structure Rounded where
  pat : Nat
  ovf : Bool
  inexact : Bool
  tiny : Bool
deriving DecidableEq, Repr

/-- Exponent of the most significant bit of a non-zero magnitude. -/
def msbExp (m : Nat) (e : Int) : Int := e + (Nat.log2 m : Int)

/-- A finite magnitude rounded to a format as if the exponent were unbounded above; `ovf` if it exceeds the largest
finite value, in which case the pattern is that of the largest finite value (R57, R58). -/
def Fmt.roundFin (f : Fmt) (mode : Rm) (neg : Bool) (m : Nat) (e : Int) : Rounded :=
  if m = 0 then ⟨f.withSign neg 0, false, false, false⟩
  else
    let emin := 1 - f.bias - f.mbits
    let q := max (msbExp m e - f.mbits) emin
    let (k0, inex) := roundAt mode neg m e q
    let (k, q) := if k0 = 2 ^ (f.mbits + 1) then (2 ^ f.mbits, q + 1) else (k0, q)
    let pat := if k < 2 ^ f.mbits then k else (q + f.mbits + f.bias).toNat * 2 ^ f.mbits + (k - 2 ^ f.mbits)
    -- tininess after rounding, as the RISC-V specification has it
    let k1 := (roundAt mode neg m e (msbExp m e - f.mbits)).1
    let tiny := inex && decide ((if k1 < 2 ^ (f.mbits + 1) then msbExp m e else msbExp m e + 1) < 1 - f.bias)
    if f.maxPat < pat then ⟨f.withSign neg f.maxPat, true, true, false⟩ else ⟨f.withSign neg pat, false, inex, tiny⟩

/-- A value rounded to an IEEE format under a RISC-V or IEEE mode, overflow as IEEE 754-2019 has it. -/
def Fmt.roundIeee (f : Fmt) (mode : Rm) (v : FV) : Rounded :=
  match v with
  | .nan => ⟨f.canonNan, false, false, false⟩
  | .inf s => ⟨f.withSign s ((2 ^ f.ebits - 1) * 2 ^ f.mbits), false, false, false⟩
  | .fin s m e =>
    let r := f.roundFin mode s m e
    let toMax : Bool := match mode with
      | .rtz => true
      | .rdn => !s
      | .rup => s
      | _ => false
    if r.ovf ∧ ¬ toMax then { r with pat := f.withSign s ((2 ^ f.ebits - 1) * 2 ^ f.mbits) } else r

/-- A value rounded to FP32, to nearest, ties to even. -/
def toFp32 (v : FV) : Nat := (fp32.roundIeee .rne v).pat

/-! ### Exact arithmetic -/

/-- Sign change. -/
def FV.neg : FV → FV
  | .nan => .nan
  | .inf s => .inf (!s)
  | .fin s m e => .fin (!s) m e

/-- Magnitude. -/
def FV.abs : FV → FV
  | .nan => .nan
  | .inf _ => .inf false
  | .fin _ m e => .fin false m e

/-- The signed integer of a finite value at a scale not above its own exponent. -/
def finAt (neg : Bool) (m : Nat) (e q : Int) : Int := (if neg then -1 else 1) * (m * 2 ^ (e - q).toNat : Nat)

/-- The exact sum; a zero sum of unlike signs is negative only where `down` (rounding towards minus infinity). -/
def FV.addD (down : Bool) : FV → FV → FV
  | .nan, _ => .nan
  | _, .nan => .nan
  | .inf a, .inf b => if a = b then .inf a else .nan
  | .inf a, .fin _ _ _ => .inf a
  | .fin _ _ _, .inf b => .inf b
  | .fin a m e, .fin b n g =>
    let q := min e g
    let s := finAt a m e q + finAt b n g q
    if s = 0 then (if a = b then .fin a 0 0 else .fin down 0 0) else .fin (decide (s < 0)) s.natAbs q

/-- The exact sum, zero sums of unlike signs positive. -/
def FV.add (a b : FV) : FV := FV.addD false a b

/-- The exact product; 0 × ∞ is NaN (R70). -/
def FV.mul : FV → FV → FV
  | .nan, _ => .nan
  | _, .nan => .nan
  | .inf a, .inf b => .inf (a != b)
  | .inf a, .fin b n _ => if n = 0 then .nan else .inf (a != b)
  | .fin a m _, .inf b => if m = 0 then .nan else .inf (a != b)
  | .fin a m e, .fin b n g => .fin (a != b) (m * n) (e + g)

/-- A finite value times a power of two. -/
def FV.scale (k : Int) : FV → FV
  | .fin s m e => .fin s m (e + k)
  | v => v

/-- The exact sum of a list, its signed zeros as IEEE 754-2019 has them (R50); +0 for the empty list. -/
def FV.sum : List FV → FV
  | [] => FV.zero
  | x :: l => l.foldl FV.add x

/-- Comparison of two values that are not NaN: their order. -/
def FV.cmp : FV → FV → Option Ordering
  | .nan, _ => none
  | _, .nan => none
  | .inf a, .inf b => some (if a = b then .eq else if a then .lt else .gt)
  | .inf a, .fin _ _ _ => some (if a then .lt else .gt)
  | .fin _ _ _, .inf b => some (if b then .gt else .lt)
  | .fin a m e, .fin b n g =>
    let q := min e g
    some (compare (finAt a m e q) (finAt b n g q))

/-- Less than, equal, at most. -/
def FV.lt (a b : FV) : Bool := FV.cmp a b == some .lt
def FV.eq (a b : FV) : Bool := FV.cmp a b == some .eq
def FV.le (a b : FV) : Bool := FV.lt a b || FV.eq a b

/-- The larger of two values, the other where one is NaN. -/
def FV.max (a b : FV) : FV := if a = .nan then b else if FV.lt a b then b else a
/-- The smaller of two values, the other where one is NaN. -/
def FV.min (a b : FV) : FV := if a = .nan then b else if FV.lt b a then b else a

/-- A value is NaN, infinite, zero. -/
def FV.isNan : FV → Bool
  | .nan => true
  | _ => false
def FV.isInf : FV → Bool
  | .inf _ => true
  | _ => false
def FV.isZero : FV → Bool
  | .fin _ m _ => m == 0
  | _ => false
/-- The sign bit of a value. -/
def FV.sign : FV → Bool
  | .nan => false
  | .inf s => s
  | .fin s _ _ => s

/-- An integer as a value. -/
def FV.ofInt (i : Int) : FV := .fin (decide (i < 0)) i.natAbs 0

/-- A value that lies within 2⁻⁶⁰ relative of a quotient, with the exact sign of its error in its lowest bit: enough for
any rounding to a format of at most 54 bits. -/
def FV.div : FV → FV → FV
  | .nan, _ => .nan
  | _, .nan => .nan
  | .inf _, .inf _ => .nan
  | .inf a, .fin b _ _ => .inf (a != b)
  | .fin a _ _, .inf b => .fin (a != b) 0 0
  | .fin a m e, .fin b n g =>
    if n = 0 then (if m = 0 then .nan else .inf (a != b))
    else
      let sh := 120 + Nat.log2 n
      let q := m * 2 ^ sh / n
      .fin (a != b) (2 * q + (if m * 2 ^ sh % n = 0 then 0 else 1)) (e - g - sh - 1)

/-- Integer square root by bisection: the largest `r` below `lo + 2^k` with `r² ≤ n`. -/
def isqrt (n : Nat) : Nat → Nat → Nat
  | 0, lo => lo
  | k + 1, lo => if (lo + 2 ^ k) * (lo + 2 ^ k) ≤ n then isqrt n k (lo + 2 ^ k) else isqrt n k lo

/-- The square root, with the sign of the error in its lowest bit, for roundings to at most 54 bits. -/
def FV.sqrt : FV → FV
  | .nan => .nan
  | .inf s => if s then .nan else .inf false
  | .fin s m e =>
    if m = 0 then .fin s 0 0
    else if s then .nan
    else
      let up : Nat := if e % 2 = 0 then 140 else 141
      let n := m * 2 ^ up
      let r := isqrt n ((Nat.log2 n) / 2 + 1) 0
      .fin false (2 * r + (if r * r = n then 0 else 1)) ((e - up) / 2 - 1)

/-- A value rounded to an integer under a mode; NaN and infinities give none. -/
def FV.toInt (mode : Rm) : FV → Option Int
  | .fin s m e => some ((if s then -1 else 1) * ((roundAt mode s m e 0).1 : Int))
  | _ => none

/-! ### The format codes of R47 -/

/-- The floating-point format of an element code; none for the integer codes and MXINT8. -/
def codeFmt (code : Nat) : Option Fmt :=
  match code with
  | 0x2 | 0x8 => some e4m3
  | 0x3 | 0x9 => some e5m2
  | 0x4 => some fp16
  | 0x5 => some bf16
  | 0x6 => some fp32
  | 0xA => some e3m2
  | 0xB => some e2m3
  | 0xC => some e2m1
  | _ => none

/-- Bits per element of a format code (R47–R49). -/
def codeWidth (code : Nat) : Nat :=
  match code with
  | 0x1 | 0xC => 4
  | 0xA | 0xB => 6
  | 0x4 | 0x5 => 16
  | 0x6 | 0x7 => 32
  | _ => 8

/-- An MX format (R53). -/
def codeMx (code : Nat) : Bool := decide (8 ≤ code ∧ code ≤ 13)
/-- An integer format (R48). -/
def codeInt (code : Nat) : Bool := code == 0 || code == 1 || code == 7
/-- A format the arrays accept as operand, and one they accept as output (R47). -/
def codeOperand (code : Nat) : Bool := decide (code ≤ 5 ∨ (8 ≤ code ∧ code ≤ 13))
def codeOutput (code : Nat) : Bool := decide (code ≤ 13)

/-- The value of an element pattern of a format code, before any block scale (R48, R49, R53). -/
def codeValue (code pat : Nat) : FV :=
  match codeFmt code with
  | some f => f.decode pat
  | none =>
    if code = 0xD then (FV.ofInt (sgn 8 pat)).scale (-6) else FV.ofInt (sgn (codeWidth code) pat)

/-- Bytes that `n` elements of a format occupy, padded as R52 says. -/
def codeBytes (code n : Nat) : Nat :=
  match codeWidth code with
  | 4 => (n + 1) / 2
  | 6 => (n + 3) / 4 * 3
  | w => n * (w / 8)

/-- Element `k` of a packed row whose byte `i` is `f i` (R52). -/
def unpack (code : Nat) (f : Nat → Nat) (k : Nat) : Nat :=
  match codeWidth code with
  | 4 => bits (f (k / 2)) (4 * (k % 2)) 4
  | 6 => bits (f (k / 4 * 3) + f (k / 4 * 3 + 1) * 2 ^ 8 + f (k / 4 * 3 + 2) * 2 ^ 16) (6 * (k % 4)) 6
  | 8 => f k
  | 16 => f (2 * k) + f (2 * k + 1) * 2 ^ 8
  | _ => f (4 * k) + f (4 * k + 1) * 2 ^ 8 + f (4 * k + 2) * 2 ^ 16 + f (4 * k + 3) * 2 ^ 24

/-- Groups of two 4-bit elements as bytes. -/
def pack4 : List Nat → List Nat
  | [] => []
  | [a] => [a % 16]
  | a :: b :: t => (a % 16 + b % 16 * 16) :: pack4 t

/-- Groups of four 6-bit elements as three bytes. -/
def pack6 : List Nat → List Nat
  | [] => []
  | a :: t =>
    let b := t.getD 0 0
    let c := t.getD 1 0
    let d := t.getD 2 0
    let w := a % 64 + b % 64 * 2 ^ 6 + c % 64 * 2 ^ 12 + d % 64 * 2 ^ 18
    match t with
    | _ :: _ :: _ :: rest => w % 256 :: w / 256 % 256 :: w / 65536 :: pack6 rest
    | _ => [w % 256, w / 256 % 256, w / 65536]

/-- Elements packed into bytes (R52). -/
def packElems (code : Nat) (l : List Nat) : List Byte :=
  match codeWidth code with
  | 4 => (pack4 l).map (BitVec.ofNat 8)
  | 6 => (pack6 l).map (BitVec.ofNat 8)
  | w => l.flatMap fun v => toLE (w / 8) v

/-! ### Conversion (R56–R61) -/

/-- The fields of a conversion control (R56). -/
def cvtFmt (cvt : Nat) : Nat := bits cvt 4 4
def cvtSat (cvt : Nat) : Bool := bit cvt 2
/-- The rounding mode: SR only for classes C and D outside partition 0, RNE otherwise (R57); `r` is the draw. -/
def cvtRm (cvt : Nat) (srAllowed : Bool) (r : Nat) : Rm :=
  match cvt % 4 with
  | 0 => .rne
  | 1 => .rtz
  | 2 => .rna
  | _ => if srAllowed then .sr (r % 2 ^ 16) else .rne

/-- One value converted to a format that is not MX: its pattern and whether it counts as saturated (R57–R59, R61). -/
def convert (code : Nat) (sat : Bool) (mode : Rm) (v : FV) : Nat × Bool :=
  match codeFmt code with
  | none =>
    let w := codeWidth code
    let hi : Int := 2 ^ (w - 1) - 1
    let lo : Int := -(2 ^ (w - 1))
    match v with
    | .nan => (0, true)
    | .inf s => (unsgn w (if s then lo else hi), true)
    | .fin s m e =>
      let i := (if s then -1 else 1) * ((roundAt mode s m e 0).1 : Int)
      if hi < i then (unsgn w hi, true) else if i < lo then (unsgn w lo, true) else (unsgn w i, false)
  | some f =>
    let overflow (s : Bool) (toMax : Bool) : Nat :=
      if ¬ sat ∨ toMax then f.withSign s f.maxPat
      else match f.special with
        | .ieee => f.withSign s ((2 ^ f.ebits - 1) * 2 ^ f.mbits)
        | _ => f.canonNan
    match v with
    | .nan => (f.canonNan, false)
    | .inf s => if f.special = .ieee then (f.withSign s ((2 ^ f.ebits - 1) * 2 ^ f.mbits), false) else (overflow s (mode = .rtz), true)
    | .fin s m e =>
      let r := f.roundFin mode s m e
      if r.ovf then (overflow s (mode = .rtz), true) else (r.pat, false)

/-- The exponent of the largest power of two of an MX element format (R60). -/
def mxEmax (code : Nat) : Int :=
  match code with
  | 0x8 => 8
  | 0x9 => 15
  | 0xA => 4
  | 0xB => 2
  | 0xC => 2
  | _ => 0

/-- One value of an MX block converted to its element pattern, clipped (R60). -/
def mxElem (code : Nat) (mode : Rm) (v : FV) : Nat :=
  match codeFmt code with
  | some f => match v with
    | .fin s m e => (f.roundFin mode s m e).pat
    | _ => 0
  | none => match v.scale 6 with
    | .fin s m e =>
      let k := (roundAt mode s m e 0).1
      unsgn 8 (if s then -(min k 127 : Nat) else (min k 127 : Nat))
    | _ => 0

/-- One MX block: scale byte, element patterns, and whether the scale overflowed (R60); `modes` gives each element's mode. -/
def mxConvert (code : Nat) (modes : Nat → Rm) (xs : List FV) : Nat × List Nat × Bool :=
  if xs.any fun x => x.isNan || x.isInf then (0xFF, xs.map fun _ => 0, false)
  else
    match xs.foldl (fun a x => FV.max a x.abs) FV.zero with
    | .fin _ m e =>
      if m = 0 then (0, xs.map fun _ => 0, false)
      else
        let x0 := msbExp m e - mxEmax code
        let ovf := decide (127 < x0)
        let x := if x0 < -127 then -127 else if 127 < x0 then 127 else x0
        ((x + 127).toNat, xs.zipIdx.map fun p => mxElem code (modes p.2) (p.1.scale (-x)), ovf)
    | _ => (0, xs.map fun _ => 0, false)

/-- The value of an MX element under a scale byte (R53). -/
def mxValue (code scale pat : Nat) : FV :=
  if scale = 0xFF then .nan else (codeValue code pat).scale ((scale : Int) - 127)

/-- The value rounded to FP32, as a value. -/
def f32 (v : FV) : FV := fp32.decode (toFp32 v)
/-- FP32 sum, difference, product and quotient, each rounded to nearest, ties to even. -/
def add32 (a b : FV) : FV := f32 (a.add b)
def sub32 (a b : FV) : FV := f32 (a.add b.neg)
def mul32 (a b : FV) : FV := f32 (a.mul b)
def div32 (a b : FV) : FV := f32 (a.div b)

/-- The value as a whole number of 2⁻⁹⁶, towards minus infinity; 0 for what is not finite. -/
def FV.fixed96 : FV → Int
  | .fin s m e => if e < -4000 then 0 else finAt s m e (-4096) / 2 ^ 4000
  | _ => 0

/-- Terms of the series of e^x at `x = t / 2^96`, `n` of them left, from term `k` on, in units of 2⁻⁹⁶. -/
def expSeries (t : Int) : Nat → Nat → Int → Int
  | 0, _, _ => 0
  | n + 1, k, term => term + expSeries t n (k + 1) (term * t / 2 ^ 96 / (k + 1 : Nat))

/-- ln 2 in units of 2⁻⁹⁶. -/
def ln2fix : Int := 54916777467707473351141471128

/-- e^x within 2⁻⁶⁰ relative, for a finite `x` of magnitude below 1,000; beyond it, a value past every range in use. -/
def FV.exp : FV → FV
  | .nan => .nan
  | .inf s => if s then FV.zero else .inf false
  | v =>
    if FV.lt (FV.ofInt 1000) v then .fin false 1 2000
    else if FV.lt v (FV.ofInt (-1000)) then .fin false 1 (-2000)
    else
      let x := v.fixed96
      let k := x / ln2fix
      let r := x - k * ln2fix
      .fin false (expSeries r 30 0 (2 ^ 96)).toNat (k - 96)

/-- A value times 1 + δ, |δ| ≤ 2^(−k), δ from a free draw: how a result stands whose relative error alone is bounded. -/
def freeRel (draw k : Nat) (v : FV) : FV := v.add ((v.mul (FV.ofInt (sgn 32 draw))).scale (-31 - (k : Int)))

/-- A value plus δ × `scale`, |δ| ≤ 2^(−k), δ from a free draw. -/
def freeAbs (draw k : Nat) (v bound : FV) : FV := v.add ((bound.mul (FV.ofInt (sgn 32 draw))).scale (-31 - (k : Int)))

/-- A sum `s` delivered as s·(1 + δ) + η with |δ| ≤ 2⁻²³ and |η| ≤ 2⁻¹⁵⁰, δ and η taken from a free draw (R64). -/
def freeSum (draw : Nat) (s : FV) : FV :=
  match s with
  | .fin _ _ _ =>
    let d := FV.ofInt (sgn 32 (bits draw 0 32))
    let n := FV.ofInt (sgn 32 (bits draw 32 32))
    (s.add ((s.mul d).scale (-54))).add (n.scale (-181))
  | v => v

end Sys2Proof.Machine
end

