-- ==== Sys2Proof/Machine/Env.lean ====
section
/-! DEFINITION. The data that commands bring from outside the block: frames, messages, samples, line names. -/

namespace Sys2Proof

/-- A CAN or Ethernet frame as the gateway handles it (R407): format (0 Classical, 1 FD, 2 XL, with BRS [2] and ESI [3]),
identifier word, the CAN XL fields, and the payload, for Ethernet from the destination address to the end of the data. -/
structure GFrame where
  fmt : Nat
  ident : BitVec 32
  af : BitVec 32
  sdt : Byte
  vcid : Byte
  data : List Byte
deriving DecidableEq, Repr

/-- Who waits on a dowel (R254). -/
inductive Waiter where
  /-- A dowel-wait command. -/
  | cmd (id : CmdId)
  /-- A gouge core in `gc.dwait`: bench and logical core. -/
  | core (bench : Fin 32) (core : Fin 60)
  /-- The notify of the dowel (R258). -/
  | notify
deriving DecidableEq, Repr

/-- How accesses through a peer or PCIe window ended (R506, R507, R513). -/
inductive Far where
  | answered
  /-- The far device refused a read (R505). -/
  | refused
  | timedOut
  | lost
deriving DecidableEq, Repr

/-- An engine whose contexts the scheduler switches (R279). -/
inductive Engine where
  | array (a : Fin 8)
  | bench (b : Fin 32)
  /-- The attention engine that runs a command. -/
  | attention (id : CmdId)
deriving DecidableEq, Repr

/-- How a hidden pass of the Calliper came out (R322). -/
inductive Pass where
  | passes
  | fails
  | unchecked
deriving DecidableEq, Repr

/-- What the passes of a diagnosis showed (R322): the rerun, the pass on the diagnosis array, the data columns in which
they differ, whether c and t differ, and the data rows in which the unit-vector pass mismatches. -/
structure DiagObs where
  rerun : Pass
  other : Pass
  cols : List (Fin 512)
  cDiffers : Bool
  tDiffers : Bool
  rows : List (Fin 128)
deriving DecidableEq, Repr

/-- What the comparison of a golden blank showed (R325, R328). -/
inductive Blank where
  | equal
  /-- The differences lie on one physical line: row, or column (512 and 513 are the check columns); `again` if the repeat
  blank passes, `line` where it differs if it does not, as event 0x070A gives it. -/
  | line (isRow : Bool) (n : Nat) (again : Bool) (line : Nat := 0xFFFFFFFF)
  | scattered
deriving DecidableEq, Repr

/-- What a debugger halts (R473). -/
inductive DebugTarget where
  /-- An application core. -/
  | app (k : Fin 16)
  /-- An array, a bench or an attention engine. -/
  | engine (e : Engine)
  /-- A gouge core: bench and logical core. -/
  | gouge (b : Fin 32) (k : Fin 60)
deriving DecidableEq, Repr

/-- A copy in flash as it is read (R480): its signature record, and its object unless the read fails. -/
structure FlashCopy where
  sig : List Byte
  obj : Option (List Byte)
deriving DecidableEq, Repr

/-- What the boot ROM of a half reads (R465): whether the seed recovered from the PUF gives the identity of the half's
certificate, the root public key and the `KIND` 1 certificates in flash, whether the RPMB can be read, firmware copies A, B. -/
structure RomRead where
  idOk : Bool
  root : List Byte
  certs : List (List Byte)
  rpmbOk : Bool
  a : FlashCopy
  b : FlashCopy
deriving DecidableEq, Repr

/-- How the bank in force of a flash reads at start (R536): its records but those named (half, sequence number), whose `CRC`
fails; a bank of another device; no bank. -/
inductive BankRead where
  | reads (bad : List (Nat × Nat))
  | otherDevice
  | unreadable
deriving DecidableEq, Repr

/-- What the error correction of a store of `n` bytes shows in what a step reads (R106, R132): no error; a single-bit error in
the 64-bit word at an offset, or a double-bit error there, with the SRAM row that holds the word. -/
inductive StoreObs (n : Nat) where
  | clean
  | corrected (off : Fin n) (row : BitVec 16)
  | uncorrectable (off : Fin n) (row : BitVec 16)
deriving DecidableEq, Repr

/-- What a read of a unit of a DRAM stack showed (R208, R209): no error; symbols of one die corrected; one choice of an erased die
gave a valid code word in the retry, with the symbols of it corrected; uncorrectable; an error outside a marked die that is not
detected. A read of an array or bench store shows a single-bit or a double-bit error, with its SRAM row (R106, R132). -/
inductive EccObs where
  | clean
  | corrected (die : Fin 6) (n : Fin 9)
  | retried (die : Fin 6) (n : Fin 9)
  | uncorrectable
  | undetected
  | storeCorrected (row : BitVec 16)
  | storeUncorrectable (row : BitVec 16)
deriving DecidableEq, Repr

/-- What the reads of a step show: addresses that it reads, each with what its code word or its store word shows; every other read of
the step shows no error. -/
abbrev Seen := List (Nat × EccObs)

/-- An access that waits for an answer through a window: a transaction, or the copy of a gouge core by bench, core and tag. -/
inductive FarRef where
  | txn (t : Nat)
  | copy (b : Fin 32) (k : Fin 60) (tag : Fin 8)
deriving DecidableEq, Repr

/-- Where an inbound PCIe request goes (R511, R512): a bus address below a root port, or a BAR of an endpoint function. -/
inductive PciTarget where
  | bus (a : BitVec 64)
  | bar (n : Fin 6) (off : BitVec 43)
deriving DecidableEq, Repr

/-- An inbound PCIe request: requester ID, VF (0 the physical function), PASID, target, bytes written or the number read. -/
structure PciReq where
  rid : BitVec 16
  vf : BitVec 8
  pasid : Option (BitVec 20)
  target : PciTarget
  write : Bool
  len : Fin 4097
  data : List Byte
deriving DecidableEq, Repr

/-- The kinds of access of an application core. -/
inductive AppAccess where
  | load
  | store
  | fetch
deriving DecidableEq, Repr

end Sys2Proof
end

