-- ==== Sys2Proof/Syntax.lean ====
section
/-! DEFINITION. The commands of the block: one constructor per row of the opcode table, with the row's operands. An
operand is what the outside supplies: which instance, which initiator, the word written, the datum received. An operand with a
default tells of an error or a refusal that a step may meet; the default is that it meets none. -/

namespace Sys2Proof

/-- The commands (opcode_table.json). -/
inductive Instr where
  /-- REGISTER_WRITE (R19). A register write of `width` bytes. -/
  | registerWrite (i : Initiator) (width : Nat) (addr : BitVec 48) (val : Dword)
  /-- LOCK (R19). The initiator, the lock register, and its other bits. -/
  | lock (i : Initiator) (addr : BitVec 48) (v : BitVec 31)
  /-- LO_READ_LATCH (R21). The reader, and the low word of a pair. -/
  | loReadLatch (i : Initiator) (addr : BitVec 48)
  /-- ARRAY_COMMAND (R91). The array that takes the dispatched command. -/
  | arrayCommand (a : Fin 8) (id : CmdId)
  /-- WINDOW_COMMAND (R141). The array that takes the dispatched command. -/
  | windowCommand (a : Fin 8) (id : CmdId)
  /-- SWAP (R91). The array whose load has finished, and what the store reads of the load showed. -/
  | swap (a : Fin 8) (o : StoreObs 0xC00000 := .clean)
  /-- VECTOR_ENTRY (R77). The array whose next vector enters, and what its store reads show. -/
  | vectorEntry (a : Fin 8) (o : StoreObs 0xC00000)
  /-- DRAIN_ROW (R93). The array whose next row is drained, and what its store reads show. -/
  | drainRow (a : Fin 8) (o : StoreObs 0xC00000)
  /-- ARRAY_COMPLETION (R101). The array and the finished command. -/
  | arrayCompletion (a : Fin 8) (id : CmdId)
  /-- REMAP (R104). The array whose faulty line is moved, and what the rebuild from the tile mirror showed. -/
  | remap (a : Fin 8) (e : StoreObs 0x40000 := .clean)
  /-- ARRAY_RETIRE (R108). The initiator that writes 1. -/
  | arrayRetire (i : Initiator) (a : Fin 8)
  /-- GOUGE_TASK (R126). The dispatched command that starts, and how its reads through a window end; and what they show. -/
  | gougeTask (id : CmdId) (far : Far := .answered) (o : Seen := [])
  /-- GOUGE_TASK_COMPLETION (R127). The task whose cores have ended. -/
  | gougeTaskCompletion (id : CmdId)
  /-- GOUGE_INSTRUCTION (R112). The bench and the logical core that executes, and what its store reads show: the bench store from 0, the core's own store window from 0x200000. -/
  | gougeInstruction (b : Fin 32) (k : Fin 60) (o : StoreObs 0x210000)
  /-- GC_SLD (R117). The bench and the logical core that executes, and what its store reads show. -/
  | gcSld (b : Fin 32) (k : Fin 60) (o : StoreObs 0x210000 := .clean)
  /-- GC_COPY (R119). The bench and the logical core that executes, and what its store reads show. -/
  | gcCopy (b : Fin 32) (k : Fin 60) (o : StoreObs 0x210000 := .clean)
  /-- COPY_COMPLETION (R119). The copy by its core and tag; through a window, whether the far side grants it and the data it answers; what its reads showed. -/
  | copyCompletion (b : Fin 32) (k : Fin 60) (tag : Fin 8) (ok : Bool) (data : List Byte) (o : Seen := [])
  /-- GC_CWAIT (R117). The bench and the logical core that executes, and what its store reads show. -/
  | gcCwait (b : Fin 32) (k : Fin 60) (o : StoreObs 0x210000 := .clean)
  /-- GC_DWAIT (R123). The bench and the logical core that executes, and what its store reads show. -/
  | gcDwait (b : Fin 32) (k : Fin 60) (o : StoreObs 0x210000 := .clean)
  /-- GC_DSIG (R121). The bench and the logical core that executes, and what its store reads show. -/
  | gcDsig (b : Fin 32) (k : Fin 60) (o : StoreObs 0x210000 := .clean)
  /-- GC_DSIG_ADD (R121). The bench and the logical core that executes, and what its store reads show. -/
  | gcDsigAdd (b : Fin 32) (k : Fin 60) (o : StoreObs 0x210000 := .clean)
  /-- GC_DONE (R117). The bench and the logical core that executes, and what its store reads show. -/
  | gcDone (b : Fin 32) (k : Fin 60) (o : StoreObs 0x210000 := .clean)
  /-- GC_VCVT_N (R117). The bench and the logical core that executes, and what its store reads show. -/
  | gcVcvtN (b : Fin 32) (k : Fin 60) (o : StoreObs 0x210000 := .clean)
  /-- GC_VCVT_W (R117). The bench and the logical core that executes, and what its store reads show. -/
  | gcVcvtW (b : Fin 32) (k : Fin 60) (o : StoreObs 0x210000 := .clean)
  /-- GC_VCVT_MXN (R117). The bench and the logical core that executes, and what its store reads show. -/
  | gcVcvtMxn (b : Fin 32) (k : Fin 60) (o : StoreObs 0x210000 := .clean)
  /-- GC_VCVT_MXW (R117). The bench and the logical core that executes, and what its store reads show. -/
  | gcVcvtMxw (b : Fin 32) (k : Fin 60) (o : StoreObs 0x210000 := .clean)
  /-- CORE_TEST (R129). The bench, the physical core, and whether it passes. -/
  | coreTest (b : Fin 32) (p : Fin 64) (ok : Bool)
  /-- BENCH_RETIRE (R134). The initiator that writes 1. -/
  | benchRetire (i : Initiator) (b : Fin 32)
  /-- DECODE_AND_SUPPRESS (R159). The dispatched command that its unit runs, how its accesses through a window end, and what its reads show. -/
  | decodeAndSuppress (id : CmdId) (far : Far := .answered) (o : Seen := [])
  /-- CROP_AND_RESIZE (R163). The dispatched command that its unit runs, how its accesses through a window end, and what its reads show. -/
  | cropAndResize (id : CmdId) (far : Far := .answered) (o : Seen := [])
  /-- PARTING_COMPLETION (R160). The command that has run. -/
  | partingCompletion (id : CmdId)
  /-- ATTENTION_COMMAND (R181). The dispatched command that starts or goes on, how its accesses through a window end, and what its reads show. -/
  | attentionCommand (id : CmdId) (far : Far := .answered) (o : Seen := [])
  /-- ATTENTION_COMPLETION (R183). The command that has run. -/
  | attentionCompletion (id : CmdId)
  /-- BACKWARD_PASS (R197). The dispatched command that runs, how its accesses through a window end, and what its reads show. -/
  | backwardPass (id : CmdId) (far : Far := .answered) (o : Seen := [])
  /-- LEDGER_BATCH (R188). The dispatched batch that starts. -/
  | ledgerBatch (id : CmdId)
  /-- ALLOC (R189). The batch whose next record is performed; and what the read of its record shows. -/
  | alloc (id : CmdId) (o : Seen := [])
  /-- ACQUIRE (R189). The batch whose next record is performed; and what the read of its record shows. -/
  | acquire (id : CmdId) (o : Seen := [])
  /-- RELEASE (R189). The batch whose next record is performed; and what the read of its record shows. -/
  | release (id : CmdId) (o : Seen := [])
  /-- COW (R190). The batch whose next record starts; and what the read of its record shows. -/
  | cow (id : CmdId) (o : Seen := [])
  /-- COW_COPY_COMPLETION (R190). The batch whose COW copy ends, and what its reads showed. -/
  | cowCopyCompletion (id : CmdId) (o : Seen := [])
  /-- QUERY (R188). The batch whose next record is performed; and what the read of its record shows. -/
  | query (id : CmdId) (o : Seen := [])
  /-- PIN (R186). The pinning command, and the frame. -/
  | pin (id : CmdId) (f : Fin 262144)
  /-- PIN_ADMISSION (R186). The half whose first waiting operation is admitted. -/
  | pinAdmission (h : Half)
  /-- UNPIN (R189). The pinning command, and the frame. -/
  | unpin (id : CmdId) (f : Fin 262144)
  /-- ZEROING_DONE (R191). The frame whose zeroing ends. -/
  | zeroingDone (f : Fin 262144)
  /-- STRIDED_MOVE (R222). The dispatched command and its Carriage, on which it starts, or goes on where its requests wait. -/
  | stridedMove (id : CmdId) (k : Fin 16)
  /-- GATHER_MOVE (R223). The dispatched command and its Carriage, on which it starts, or goes on where its requests wait; and how a read of its list through a window ends; and what its reads show. -/
  | gatherMove (id : CmdId) (k : Fin 16) (far : Far := .answered) (o : Seen := [])
  /-- PAGE_LIST_MOVE (R224). The dispatched command and its Carriage, on which it starts, or goes on where its requests wait; and how a read of its list through a window ends; and what its reads show. -/
  | pageListMove (id : CmdId) (k : Fin 16) (far : Far := .answered) (o : Seen := [])
  /-- FILL_MOVE (R225). The dispatched command and its Carriage, on which it starts, or goes on where its requests wait. -/
  | fillMove (id : CmdId) (k : Fin 16)
  /-- MOVE_COMPLETION (R227). The move whose last write is visible. -/
  | moveCompletion (id : CmdId)
  /-- TRANSACTION_RETURN (R229). The number of the transaction; through a window, whether the far side grants it and the data it answers; what the reads of the step show. -/
  | transactionReturn (t : Nat) (ok : Bool) (data : List Byte) (o : Seen)
  /-- REBUILD_COMPLETE (R211). The stack whose rebuild ends. -/
  | rebuildComplete (x : Fin 4)
  /-- PATROL_SCRUB (R212). The stack, its 64-byte unit, and what the read showed. -/
  | patrolScrub (x : Fin 4) (u : BitVec 28) (o : EccObs)
  /-- DOORBELL (R238). An initiator writes `RING_DB` of a ring. -/
  | doorbell (i : Initiator) (r : Fin 65536) (v : Word)
  /-- RING_ENABLE (R236). `RING_CFG` is written with bit 31 set; `cfg` is the other bits. -/
  | ringEnable (i : Initiator) (r : Fin 65536) (cfg : BitVec 31)
  /-- RING_DISABLE (R236). `RING_CFG` is written with bit 31 clear; `cfg` is the other bits. -/
  | ringDisable (i : Initiator) (r : Fin 65536) (cfg : BitVec 31)
  /-- RING_CLOSE (R236). The ring whose held clear is examined. -/
  | ringClose (r : Fin 65536)
  /-- DESCRIPTOR_FETCH (R240). The ring whose controller fetches; and what its reads show. -/
  | descriptorFetch (r : Fin 65536) (o : Seen := [])
  /-- DISPATCH (R241). The ring whose controller dispatches. -/
  | dispatch (r : Fin 65536)
  /-- NO_OP (R246). The dispatched command that acts. -/
  | noOp (id : CmdId)
  /-- DOWEL_WAIT (R247). The dispatched command that acts. -/
  | dowelWait (id : CmdId)
  /-- DOWEL_SIGNAL (R247). The dispatched command that acts. -/
  | dowelSignal (id : CmdId)
  /-- WAIT_SATISFIED (R254). The dowel, and the waiter that resumes. -/
  | waitSatisfied (d : Fin 16384) (who : Waiter)
  /-- DOWEL_POLL (R254). The dowel, and the waiter that polls. -/
  | dowelPoll (d : Fin 16384) (who : Waiter)
  /-- DOWEL_ARG_LO (R257). The word written. -/
  | dowelArgLo (i : Initiator) (d : Fin 16384) (v : Word)
  /-- DOWEL_MAX_HI (R257). The word written. -/
  | dowelMaxHi (i : Initiator) (d : Fin 16384) (v : Word)
  /-- DOWEL_ADD_HI (R257). The word written. -/
  | dowelAddHi (i : Initiator) (d : Fin 16384) (v : Word)
  /-- DOWEL_ADD32 (R257). The word written. -/
  | dowelAdd32 (i : Initiator) (d : Fin 16384) (v : Word)
  /-- DOWEL_NOTIFY_LO (R258). The word written. -/
  | dowelNotifyLo (i : Initiator) (d : Fin 16384) (v : Word)
  /-- DOWEL_NOTIFY_HI (R258). The word written. -/
  | dowelNotifyHi (i : Initiator) (d : Fin 16384) (v : Word)
  /-- DOWEL_ATTR (R256). The word written. -/
  | dowelAttr (i : Initiator) (d : Fin 16384) (v : Word)
  /-- SLOT_PUBLISH (R260). The command, how its accesses through a window end, and what its reads of the result show. -/
  | slotPublish (id : CmdId) (far : Far) (o : Seen := [])
  /-- SLOT_BUMP (R260). The publication whose copy is visible. -/
  | slotBump (id : CmdId)
  /-- SLOT_READ (R263). The dispatched command that acts. -/
  | slotRead (id : CmdId)
  /-- SLOT_READ_COPY_DONE (R263). The read whose copy ends, how its accesses through a window end, and what its reads of the buffer show. -/
  | slotReadCopyDone (id : CmdId) (far : Far) (o : Seen := [])
  /-- BOUNDARY_MARK (R281). The dispatched command that acts. -/
  | boundaryMark (id : CmdId)
  /-- QUANTUM_END (R273). The engine whose quantum ends. -/
  | quantumEnd (e : Engine)
  /-- MARK_WAIT_EXPIRY (R282). The engine whose mark was not reached. -/
  | markWaitExpiry (e : Engine)
  /-- STRICT_SLOT_GUARD (R275). The array whose next slot is guarded. -/
  | strictSlotGuard (a : Fin 8)
  /-- SLOT_TABLE_ENTRY_START (R274). The array whose slot table moves on. -/
  | slotTableEntryStart (a : Fin 8)
  /-- PREEMPTION (R282). The engine, and the ring whose work displaces its context. -/
  | preemption (e : Engine) (byRing : Fin 65536)
  /-- CONTEXT_SAVE_COMPLETE (R284). The engine, and the cause of an error the save met in memory; what its reads of the stores showed. -/
  | contextSaveComplete (e : Engine) (err : Option Word) (seen : StoreObs 0xC40000 := .clean)
  /-- CONTEXT_RESTORE_COMPLETE (R284). The engine, the ring whose context it takes, and the cause of an error; what an array's reads of its tile mirror showed. -/
  | contextRestoreComplete (e : Engine) (r : Fin 65536) (err : Option Word) (mirror : StoreObs 0x40000 := .clean)
  /-- EVICT (R287). The engine, and the runnable ring; and how far into a cycle of the time domain, in 1/64 ns, the eviction comes and blocked contexts became blocked. -/
  | evict (e : Engine) (byRing : Fin 65536) (into : Fin 256) (began : List (Engine × Fin 256) := [])
  /-- MODEL_LOAD (R290). The command, and the SHA-384 of what the loader reads; and what its reads show. -/
  | modelLoad (id : CmdId) (digest : BitVec 384) (o : Seen := [])
  /-- MODEL_UNLOAD (R288). The dispatched command that acts. -/
  | modelUnload (id : CmdId)
  /-- CREATE (R301). The initiator of the `VI_CMD` write, and the record. -/
  | create (i : Initiator) (n : Fin 256)
  /-- RESET (R309). The initiator of the `VI_CMD` write, and the record. -/
  | reset (i : Initiator) (n : Fin 256)
  /-- DESTROY (R312). The initiator of the `VI_CMD` write, and the record. -/
  | destroy (i : Initiator) (n : Fin 256)
  /-- SHARE (R307). The initiator of the `VI_CMD` write, and the record. -/
  | share (i : Initiator) (n : Fin 256)
  /-- FUNCTION_LEVEL_RESET (R309). The port, and the VF reset. -/
  | functionLevelReset (port : Half) (vf : BitVec 8)
  /-- RESET_COMPLETION (R310). The record whose reset is examined. -/
  | resetCompletion (n : Fin 256)
  /-- INSTANCE_ZEROING_COMPLETE (R311). The record whose last granule is zero. -/
  | instanceZeroingComplete (n : Fin 256)
  /-- VI_RCFG (R303). The initiator, the register of the window, the word. -/
  | viRcfg (i : Initiator) (k : Fin 5) (v : Word)
  /-- VI_SELF (R303). The initiator, the register of the window, the word. -/
  | viSelf (i : Initiator) (k : Fin 5) (v : Word)
  /-- PCIE_INBOUND_REQUEST (R306). The port, and the request; and what its reads show. -/
  | pcieInboundRequest (p : Half) (r : PciReq) (o : Seen := [])
  /-- CALLIPER_COMPARISON (R318). The array, and by how much a fault in it has moved the column sums: zero on a fault-free array. -/
  | calliperComparison (a : Fin 8) (err : Machine.FV)
  /-- DIAGNOSIS (R322). The array whose captured mismatch is rerun. -/
  | diagnosis (a : Fin 8)
  /-- DIAGNOSIS_VERDICT (R323). The array, and what the passes showed. -/
  | diagnosisVerdict (a : Fin 8) (o : DiagObs)
  /-- FRAME_START (R326). The half whose frame clock reaches the next frame. -/
  | frameStart (h : Half)
  /-- GOLDEN_BLANK (R325). The array, and what the comparison and the rebuild from the tile mirror showed. -/
  | goldenBlank (a : Fin 8) (o : Blank) (e : StoreObs 0x40000 := .clean)
  /-- AGE_EVALUATION (R329). The half whose monitor evaluates, and the slot. -/
  | ageEvaluation (h : Half) (n : Fin 512)
  /-- AUTHORITY_MESSAGE_SEND (R347). The half that sends. -/
  | authorityMessageSend (h : Half)
  /-- AUTHORITY_MESSAGE (R350). The half that receives, the path (0 half link, 1 sideband), and whether the CRC-16 is right. -/
  | authorityMessage (h : Half) (path : Fin 2) (good : Bool)
  /-- PATH_LOSS (R347). The half that misses messages, and the path. -/
  | pathLoss (h : Half) (path : Fin 2)
  /-- PEER_SILENT (R348). The half that hears nothing. -/
  | peerSilent (h : Half)
  /-- PEER_DOWN (R348). The half whose monitors sense its peer. -/
  | peerDown (h : Half)
  /-- WATCHDOG_RESET (R348). The half whose watchdog expires. -/
  | watchdogReset (h : Half)
  /-- CLAIM (R349). The half that claims. -/
  | claim (h : Half)
  /-- FITNESS_CHANGE (R346). The half, the condition (0 LOCKSTEP to 5 THERMAL), and whether it holds. -/
  | fitnessChange (h : Half) (k : Fin 6) (ok : Bool)
  /-- UNFIT_MAX_EXPIRY (R346). The half in charge whose hold ends. -/
  | unfitMaxExpiry (h : Half)
  /-- TIE_HOLD_OFF_EXPIRY (R350). The hold-off of Headstock ends. -/
  | tieHoldOffExpiry
  /-- HANDOVER (R358). The initiator of the `AUTH_REQ` write, and the half. -/
  | handover (i : Initiator) (h : Half)
  /-- CLEAR_OBS (R349). The initiator of the `AUTH_REQ` write, and the half. -/
  | clearObs (i : Initiator) (h : Half)
  /-- ARB_SEL_CHANGE (R352). The half that reads, and the levels of its pair, P and N. -/
  | arbSelChange (h : Half) (view : Bool × Bool)
  /-- OUT_EN_RISE (R353). The half whose OUT_EN rises. -/
  | outEnRise (h : Half)
  /-- SAFE_STOP_ASSERT (R360). The half that asserts its ball. -/
  | safeStopAssert (h : Half)
  /-- HALF_LOSS (R362). The half that goes DOWN. -/
  | halfLoss (h : Half)
  /-- STEADY_UPDATE (R370). The engine, the slots whose update overruns, and the coefficients found uncorrectable; and what its reads show. -/
  | steadyUpdate (h : Half) (late : List (Fin 16)) (bad : List (Fin 16 × Fin 2048)) (o : Seen := [])
  /-- ARM (R377). The initiator of the `STEADY_CMD` write, the engine, the slot. -/
  | arm (i : Initiator) (h : Half) (n : Fin 16)
  /-- CLOSE (R377). The initiator of the `STEADY_CMD` write, the engine, the slot. -/
  | close (i : Initiator) (h : Half) (n : Fin 16)
  /-- OPEN (R377). The initiator of the `STEADY_CMD` write, the engine, the slot. -/
  | openSlot (i : Initiator) (h : Half) (n : Fin 16)
  /-- MODE_HANDOVER (R379). The initiator of the `STEADY_CMD` write, the engine, the outgoing and the incoming slot. -/
  | modeHandover (i : Initiator) (h : Half) (a b : Fin 16)
  /-- STEADY_COMMAND_APPLY (R378). The engine whose command applies; and what its reads show. -/
  | steadyCommandApply (h : Half) (o : Seen := [])
  /-- COEFFICIENT_WRITE (R367). The initiator, the engine, the slot, the word of the page, the word written. -/
  | coefficientWrite (i : Initiator) (h : Half) (n : Fin 16) (k : Fin 2048) (v : Word)
  /-- PWM_PERIOD_START (R383). The half, and its PWM output. -/
  | pwmPeriodStart (h : Half) (n : Fin 16)
  /-- READBACK_MISMATCH (R384). The half, and its digital output. -/
  | readbackMismatch (h : Half) (n : Fin 16)
  /-- ADC_CONVERSION (R385). The half, and the code converted. -/
  | adcConversion (h : Half) (code : BitVec 12)
  /-- ENCODER_TRANSITION (R386). The half, its encoder, and the new filtered levels of A and B. -/
  | encoderTransition (h : Half) (n : Fin 8) (a b : Bool)
  /-- INPUT_EDGE (R387). The half, its input, and the level accepted. -/
  | inputEdge (h : Half) (n : Fin 32) (level : Bool)
  /-- CHATTER_WINDOW_END (R387). The half, and its input. -/
  | chatterWindowEnd (h : Half) (n : Fin 32)
  /-- STUCK_TIMEOUT (R387). The half, and its input. -/
  | stuckTimeout (h : Half) (n : Fin 32)
  /-- EDGE_NOTIFY (R388). The half whose notification path serves. -/
  | edgeNotify (h : Half)
  /-- FRAME_RECEIVED (R402). The controller code, and the frame. -/
  | frameReceived (p : Fin 32) (f : GFrame)
  /-- SOURCE_POLL (R401). The route, and the present level of its side-band line where it names one; and what its reads show. -/
  | sourcePoll (r : Fin 4096) (level : Bool) (o : Seen := [])
  /-- OUTBOUND_FRAME_INSTANT (R404). The outbound frame. -/
  | outboundFrameInstant (f : Fin 1024)
  /-- FRAME_TRANSMITTED (R408). The controller code, the traffic class on a MAC, and whether the frame went out. -/
  | frameTransmitted (p : Fin 32) (tc : Fin 8) (ok : Bool)
  /-- SEND (R408). The dispatched command, or one that waits for an entry; how its reads through a window end, and what its reads show. -/
  | send (id : CmdId) (far : Far := .answered) (o : Seen := [])
  /-- REQUEST (R408). The dispatched command, or one that waits for an entry; how its reads through a window end, and what its reads show. -/
  | request (id : CmdId) (far : Far := .answered) (o : Seen := [])
  /-- BRIDGE_FENCE (R410). The dispatched command, or one that waits for earlier sends. -/
  | bridgeFence (id : CmdId)
  /-- LIFE_MS_EXPIRY (R408). The send whose frame has waited. -/
  | lifeMsExpiry (id : CmdId)
  /-- TIMEOUT_US_EXPIRY (R408). The request that has waited. -/
  | timeoutUsExpiry (id : CmdId)
  /-- BUS_OFF (R396). The CAN controller. -/
  | busOff (n : Fin 12)
  /-- BUS_OFF_RECOVERY (R396). The CAN controller. -/
  | busOffRecovery (n : Fin 12)
  /-- ETHERNET_LINK_CHANGE (R398). The MAC, and whether its link is up. -/
  | ethernetLinkChange (m : Fin 8) (up : Bool)
  /-- GCL_ARM (R399). The initiator of the `GW_ETH_BASE_HI` write, the MAC, the word. -/
  | gclArm (i : Initiator) (m : Fin 8) (v : Word)
  /-- GCL_REPLACE (R399). The MAC. -/
  | gclReplace (m : Fin 8)
  /-- GATE_ENTRY_END (R397). The MAC. -/
  | gateEntryEnd (m : Fin 8)
  /-- SIDE_BAND_PULSE (R412). The line: 0 to 7 Headstock's, 8 to 15 Tailstock's. -/
  | sideBandPulse (n : Fin 16)
  /-- CSI_FRAME_START (R138). The port, and the packet's virtual channel. -/
  | csiFrameStart (n : Fin 16) (vc : Fin 16)
  /-- CSI_LINE (R137). The port, the packet's virtual channel, data type and samples, and whether its header and CRC are right. -/
  | csiLine (n : Fin 16) (vc : Fin 16) (dt : Fin 64) (l : List (BitVec 16)) (hdrOk crcOk : Bool)
  /-- CSI_FRAME_END (R138). The port, and the packet's virtual channel. -/
  | csiFrameEnd (n : Fin 16) (vc : Fin 16)
  /-- FRAME_END_TIMEOUT (R417). The port. -/
  | frameEndTimeout (n : Fin 16)
  /-- VBLANK_START (R421). The display output; and what its reads show. -/
  | vblankStart (d : Fin 4) (o : Seen := [])
  /-- SAFETY_BUFFER_SWAP (R422). The display output. -/
  | safetyBufferSwap (d : Fin 4)
  /-- HOT_PLUG (R419). The display output, and whether its link is up. -/
  | hotPlug (d : Fin 4) (up : Bool)
  /-- CVU_CTL (R425). The initiator, the unit, the word written. -/
  | cvuCtl (i : Initiator) (n : Fin 32) (v : Word)
  /-- CVU_DATA (R426). The initiator, the unit, the word written. -/
  | cvuData (i : Initiator) (n : Fin 32) (v : Word)
  /-- CVU_DATA8 (R426). The initiator, the unit, the word written. -/
  | cvuData8 (i : Initiator) (n : Fin 32) (v : Word)
  /-- CVU_VAL_LO (R425). The initiator, the unit, the word written. -/
  | cvuValLo (i : Initiator) (n : Fin 32) (v : Word)
  /-- CVU_VAL_HI (R425). The initiator, the unit, the word written. -/
  | cvuValHi (i : Initiator) (n : Fin 32) (v : Word)
  /-- TB_RATE (R438). The half whose register of the base is written, and the word. -/
  | tbRate (i : Initiator) (h : Half) (n : Fin 8) (v : Word)
  /-- TB_STEP_LO (R438). The half whose register of the base is written, and the word. -/
  | tbStepLo (i : Initiator) (h : Half) (n : Fin 8) (v : Word)
  /-- TB_STEP_HI (R438). The half whose register of the base is written, and the word. -/
  | tbStepHi (i : Initiator) (h : Half) (n : Fin 8) (v : Word)
  /-- TB_REBASE (R440). The half whose register of the base is written, and the word. -/
  | tbRebase (i : Initiator) (h : Half) (n : Fin 8) (v : Word)
  /-- TIME_WRITE_APPLY (R438). The oldest write whose 2 µs have passed. -/
  | timeWriteApply
  /-- TIME_PULSE_SEND (R441). The lead that sends. -/
  | timePulseSend (h : Half)
  /-- TIME_PULSE (R441). The half that hears it, and whether its trim would have to pass ±200 ppm. -/
  | timePulse (h : Half) (strained : Bool)
  /-- LISTENING_WINDOW_EXPIRY (R441). The half that has heard no pulse. -/
  | listeningWindowExpiry (h : Half)
  /-- PULSE_LOSS (R442). The follower that hears no pulse. -/
  | pulseLoss (h : Half)
  /-- PPS_EDGE (R444). The half whose input has an edge, and its direction. -/
  | ppsEdge (h : Half) (falling : Bool)
  /-- PPS_MISSING (R444). The half whose input had no accepted edge. -/
  | ppsMissing (h : Half)
  /-- TXTS_INFO_READ (R446). The reader and the MAC. -/
  | txtsInfoRead (i : Initiator) (m : Fin 8)
  /-- RXTS_INFO_READ (R446). The reader and the MAC. -/
  | rxtsInfoRead (i : Initiator) (m : Fin 8)
  /-- RETYPE (R453). The initiator that writes `OWN_CHG_CMD`. -/
  | retype (i : Initiator)
  /-- REASSIGN (R453). The initiator that writes `OWN_CHG_CMD`, and its `ZERO` bit. -/
  | reassign (i : Initiator) (zero : Bool)
  /-- FLAGS (R453). The initiator that writes `OWN_CHG_CMD`. -/
  | flags (i : Initiator)
  /-- OWNERSHIP_CHANGE_COMPLETE (R455). The change in progress. -/
  | ownershipChangeComplete
  /-- WORLD_SWITCH (R457). The application core, and the owner ID written. -/
  | worldSwitch (k : Fin 16) (o : Owner)
  /-- PARTITION_SWITCH (R457). The application core, and the owner ID written. -/
  | partitionSwitch (k : Fin 16) (o : Owner)
  /-- SCRUB (R458). The application core that executes `mret`. -/
  | scrub (k : Fin 16)
  /-- SEC_CLAIM (R459). The initiator, the register written, and the word. -/
  | secClaim (i : Initiator) (h : Half) (k : Fin 4) (v : Word)
  /-- FORCED_ERASE (R461). The half, and the rail in the order of R516. -/
  | forcedErase (h : Half) (rail : Fin 11)
  /-- ROM_START (R465). The half, and what its ROM reads. -/
  | romStart (h : Half) (r : RomRead)
  /-- ATTESTATION_REQUEST (R470). The dispatched command that acts. -/
  | attestationRequest (id : CmdId)
  /-- OWNER_BINDING (R468). The half whose firmware takes the record, the record, and its object. -/
  | ownerBinding (h : Half) (record object : List Byte)
  /-- CHALLENGE (R472). The initiator, and the mailbox's half. -/
  | challenge (i : Initiator) (h : Half)
  /-- CHALLENGE_EXPIRY (R472). The mailbox's half. -/
  | challengeExpiry (h : Half)
  /-- DEBUG_OPEN (R471). The initiator, and the mailbox's half. -/
  | debugOpen (i : Initiator) (h : Half)
  /-- DEBUG_CLOSE (R471). The initiator, and the mailbox's half. -/
  | debugClose (i : Initiator) (h : Half)
  /-- TOKEN (R474). The initiator, and the mailbox's half. -/
  | token (i : Initiator) (h : Half)
  /-- IMAGE_ACCEPT (R484). The half, its image copies A and B, its roughing copies A and B. -/
  | imageAccept (h : Half) (a b ra rb : FlashCopy)
  /-- IMAGE_AGREEMENT (R485). The half whose image is chosen. -/
  | imageAgreement (h : Half)
  /-- IMAGE_APPLY (R490). The half whose firmware applies the image. -/
  | imageApply (h : Half)
  /-- START_ZEROING_COMPLETE (R490). The granule. -/
  | startZeroingComplete (n : Fin 1048576)
  /-- ROM_RECOVERY (R494). The half, and what the host has written. -/
  | romRecovery (h : Half) (record object : List Byte)
  /-- SYS_RESET_DEVICE (R497). The initiator, and the key written. -/
  | sysResetDevice (i : Initiator) (key : Byte)
  /-- SYS_RESET_HALF (R497). The initiator, the key written, and the half. -/
  | sysResetHalf (i : Initiator) (key : Byte) (h : Half)
  /-- FLIT_REPLAY (R499). The receiving half, its link, and whether a succession of replays begins. -/
  | flitReplay (h : Half) (l : Fin 8) (first : Bool)
  /-- LINK_TRAINING (R503). The half, its link, and the fabric number, device ID and incarnation received. -/
  | linkTraining (h : Half) (l : Fin 8) (far : Fin 64) (dev : BitVec 128) (inc : Word)
  /-- LANE_FAILURE (R501). The half, its link, and the lane. -/
  | laneFailure (h : Half) (l : Fin 8) (lane : Fin 5)
  /-- LINK_IDLE (R502). The half, and its link. -/
  | linkIdle (h : Half) (l : Fin 8)
  /-- PACKET_FORWARD (R504). The receiving half, source and destination, the forwards made so far, the address. -/
  | packetForward (h : Half) (src dst : Fin 64) (hops : Fin 4) (addr : BitVec 48)
  /-- PEER_REQUEST (R505). The half it arrives on, its source, and the request; and what its reads show. -/
  | peerRequest (h : Half) (src : Fin 64) (write : Bool) (addr : BitVec 37) (len : Fin 257) (data : List Byte) (o : Seen := [])
  /-- DEVICE_LOST (R506). The device. -/
  | deviceLost (n : Fin 64)
  /-- PEER_ACCESS_TIMEOUT (R507). The access that has waited. -/
  | peerAccessTimeout (r : FarRef)
  /-- PCIE_COMPLETION_TIMEOUT (R513). The access that has waited. -/
  | pcieCompletionTimeout (r : FarRef)
  /-- PCIE_LINK_CHANGE (R513). The port, whether its link is up, and its rate and width. -/
  | pcieLinkChange (p : Half) (up : Bool) (speed width : Fin 4)
  /-- POWER_STATE_REQ (R517). The initiator, the half, and the state requested. -/
  | powerStateReq (i : Initiator) (h : Half) (t : Fin 4)
  /-- BLOCK_ACTIVE (R519). The initiator, the half, and the claim bit of the unit. -/
  | blockActive (i : Initiator) (h : Half) (b : Fin 128)
  /-- CLOCK_GATED (R519). The initiator, the half, the claim bit of the unit, and, of an application core, whether firmware has parked it. -/
  | clockGated (i : Initiator) (h : Half) (b : Fin 128) (parked : Bool := true)
  /-- POWER_GATED (R519). The initiator, the half, the claim bit of the unit, and, of an application core, whether firmware has parked it. -/
  | powerGated (i : Initiator) (h : Half) (b : Fin 128) (parked : Bool := true)
  /-- POWER_EVALUATION (R522). The half, its power and array power in 0.1 W, mV and 10 mA of each rail. -/
  | powerEvaluation (h : Half) (now arr : BitVec 16) (rails : List (BitVec 16 × BitVec 16))
  /-- FAST_CURRENT_LIMITER (R523). The half, and the current in 10 mA. -/
  | fastCurrentLimiter (h : Half) (current : BitVec 16)
  /-- LIMITER_RELEASE (R523). The half. -/
  | limiterRelease (h : Half)
  /-- TEMPERATURE_READ (R526). The half, and its sensors in 1/16 °C. -/
  | temperatureRead (h : Half) (temps : List (BitVec 16))
  /-- POWER_GOOD (R516). The half, and its `ARB_EN` strap. -/
  | powerGood (h : Half) (strap : Bool)
  /-- RESET_ASSERT (R561). The half held in reset. -/
  | resetAssert (h : Half)
  /-- BANK_COMPACTION (R535). The half whose flash is compacted, and whether the write fails. -/
  | bankCompaction (h : Half) (fails : Bool)
  /-- LEDGER_LOAD (R536). The half that starts, and how its flash and its peer's read. -/
  | ledgerLoad (h : Half) (own peer : BankRead)
  /-- HOUR_MARK (R537). The flashes to which the record cannot be written. -/
  | hourMark (fails : List Half)
  /-- MIRROR_READ (R541). The reader, and the address of the register shown. -/
  | mirrorRead (i : Initiator) (addr : BitVec 25)
  /-- REGISTER_READ (R16). A register read of `width` bytes. -/
  | registerRead (i : Initiator) (width : Nat) (addr : BitVec 48)
  /-- APPLICATION_CORE_ACCESS (R456). The core, whether it runs in M-mode, the access, its address and width, the integer register, and what a window answers; and what its reads show. -/
  | applicationCoreAccess (k : Fin 16) (mmode : Bool) (op : AppAccess) (addr : BitVec 48) (width : Fin 9) (reg : Fin 32) (data : Dword) (o : Seen := [])
  /-- CREATION_COMPLETE (R301). The creation in progress reaches its last step. -/
  | creationComplete
  /-- VENDOR_RETURN_ERASE_END (R474). The erase in progress. -/
  | vendorReturnEraseEnd
  /-- LEAD_HOLD_EXPIRY (R441). The half that has led for 1 ms. -/
  | leadHoldExpiry (h : Half)
  /-- URGENT_HALF_DOWN (R538). The half that is DOWN. -/
  | urgentHalfDown (h : Half)
  /-- ACTIVE_LINE (R421). The display output, the line, and whether the main layer could not be read in time; and what its reads show. -/
  | activeLine (d : Fin 4) (y : Fin 65536) (late : Bool) (o : Seen := [])
  /-- CAMERA_PHY_LOCK_CHANGE (R430). The port, and whether its PHY has lock. -/
  | cameraPhyLockChange (n : Fin 16) (locked : Bool)
  /-- CAN_ERROR_STATE_CHANGE (R413). The CAN controller, and its transmit and receive error counts. -/
  | canErrorStateChange (n : Fin 12) (tec rec_ : Fin 256)
  /-- DEBUGGER_HALT (R473). What is halted or resumed. -/
  | debuggerHalt (t : DebugTarget) (halt : Bool)
  /-- RESET_RELEASE (R561). The half, and its `ARB_EN` strap. -/
  | resetRelease (h : Half) (strap : Bool)
deriving DecidableEq, Repr

end Sys2Proof
end

