-- ==== Sys2Proof/WellFormed.lean ====
section
/-! DEFINITION. Commands that make sense: the relations among the operands of a command that their types do not say. A
command that is not well formed still has a meaning; nothing outside sends one. -/

namespace Sys2Proof

/-- No two entries are equal. -/
def distinct {α : Type} [BEq α] : List α → Bool
  | [] => true
  | a :: t => !t.contains a && distinct t

/-- The width of one access in bytes (R16, R456). -/
def accessWidth (n : Nat) : Bool := n == 1 || n == 2 || n == 4 || n == 8

/-- A CAN or Ethernet frame (R407): a known format, a payload that such a frame can carry. -/
def GFrame.wf (f : GFrame) : Bool := decide (f.fmt % 4 ≤ 2 ∧ f.fmt < 16 ∧ f.data.length ≤ 2048)

/-- A request from outside carries as many bytes as it writes, and none where it reads. -/
def carries (write : Bool) (len : Nat) (data : List Byte) : Bool := decide (0 < len) && data.length == (if write then len else 0)

/-- A differing line of a golden blank lies in the array: rows, or data and check columns (R325). -/
def Blank.wf : Blank → Bool
  | .line isRow n _ _ => decide (n < if isRow then 128 else 514)
  | .equal => true
  | .scattered => true

/-- A signature record is 224 bytes long (R462). -/
def signed (record : List Byte) : Bool := record.length == 224

/-- A command is well formed. -/
def Instr.wf : Instr → Bool
  | .registerWrite _ width _ _ => accessWidth width
  | .registerRead _ width _ => accessWidth width
  | .copyCompletion _ _ _ _ data _ => decide (data.length ≤ 2 ^ 24)
  | .transactionReturn _ _ data _ => decide (data.length ≤ 64)
  | .pcieInboundRequest _ r _ => carries r.write r.len r.data
  | .peerRequest _ _ write _ len data _ => carries write len data
  | .diagnosisVerdict _ o => distinct o.cols && distinct o.rows
  | .goldenBlank _ o _ => o.wf
  | .steadyUpdate _ late bad _ => distinct late && distinct bad
  | .frameReceived _ f => f.wf
  | .csiLine _ _ _ l _ _ => decide (l.length ≤ 8192)
  | .romStart _ r => signed r.a.sig && signed r.b.sig && r.certs.all fun x => x.length == 272
  | .ownerBinding _ record _ => signed record
  | .romRecovery _ record _ => signed record
  | .powerEvaluation _ _ _ rails => rails.length == 11
  | .temperatureRead _ temps => temps.length == 18
  | .hourMark fails => distinct fails
  | .applicationCoreAccess _ _ _ addr width _ _ _ => accessWidth width && addr.toNat % width.val == 0
  | .lock _ _ _ => true
  | .loReadLatch _ _ => true
  | .arrayCommand _ _ => true
  | .windowCommand _ _ => true
  | .swap _ _ => true
  | .vectorEntry _ _ => true
  | .drainRow _ _ => true
  | .arrayCompletion _ _ => true
  | .remap _ _ => true
  | .arrayRetire _ _ => true
  | .gougeTask _ _ _ => true
  | .gougeTaskCompletion _ => true
  | .gougeInstruction _ _ _ => true
  | .gcSld _ _ _ => true
  | .gcCopy _ _ _ => true
  | .gcCwait _ _ _ => true
  | .gcDwait _ _ _ => true
  | .gcDsig _ _ _ => true
  | .gcDsigAdd _ _ _ => true
  | .gcDone _ _ _ => true
  | .gcVcvtN _ _ _ => true
  | .gcVcvtW _ _ _ => true
  | .gcVcvtMxn _ _ _ => true
  | .gcVcvtMxw _ _ _ => true
  | .coreTest _ _ _ => true
  | .benchRetire _ _ => true
  | .decodeAndSuppress _ _ _ => true
  | .cropAndResize _ _ _ => true
  | .partingCompletion _ => true
  | .attentionCommand _ _ _ => true
  | .attentionCompletion _ => true
  | .backwardPass _ _ _ => true
  | .ledgerBatch _ => true
  | .alloc _ _ => true
  | .acquire _ _ => true
  | .release _ _ => true
  | .cow _ _ => true
  | .cowCopyCompletion _ _ => true
  | .query _ _ => true
  | .pin _ _ => true
  | .pinAdmission _ => true
  | .unpin _ _ => true
  | .zeroingDone _ => true
  | .stridedMove _ _ => true
  | .gatherMove _ _ _ _ => true
  | .pageListMove _ _ _ _ => true
  | .fillMove _ _ => true
  | .moveCompletion _ => true
  | .rebuildComplete _ => true
  | .patrolScrub _ _ _ => true
  | .doorbell _ _ _ => true
  | .ringEnable _ _ _ => true
  | .ringDisable _ _ _ => true
  | .ringClose _ => true
  | .descriptorFetch _ _ => true
  | .dispatch _ => true
  | .noOp _ => true
  | .dowelWait _ => true
  | .dowelSignal _ => true
  | .waitSatisfied _ _ => true
  | .dowelPoll _ _ => true
  | .dowelArgLo _ _ _ => true
  | .dowelMaxHi _ _ _ => true
  | .dowelAddHi _ _ _ => true
  | .dowelAdd32 _ _ _ => true
  | .dowelNotifyLo _ _ _ => true
  | .dowelNotifyHi _ _ _ => true
  | .dowelAttr _ _ _ => true
  | .slotPublish _ _ _ => true
  | .slotBump _ => true
  | .slotRead _ => true
  | .slotReadCopyDone _ _ _ => true
  | .boundaryMark _ => true
  | .quantumEnd _ => true
  | .markWaitExpiry _ => true
  | .strictSlotGuard _ => true
  | .slotTableEntryStart _ => true
  | .preemption _ _ => true
  | .contextSaveComplete _ _ _ => true
  | .contextRestoreComplete _ _ _ _ => true
  | .evict _ _ _ _ => true
  | .modelLoad _ _ _ => true
  | .modelUnload _ => true
  | .create _ _ => true
  | .reset _ _ => true
  | .destroy _ _ => true
  | .share _ _ => true
  | .functionLevelReset _ _ => true
  | .resetCompletion _ => true
  | .instanceZeroingComplete _ => true
  | .viRcfg _ _ _ => true
  | .viSelf _ _ _ => true
  | .calliperComparison _ _ => true
  | .diagnosis _ => true
  | .frameStart _ => true
  | .ageEvaluation _ _ => true
  | .authorityMessageSend _ => true
  | .authorityMessage _ _ _ => true
  | .pathLoss _ _ => true
  | .peerSilent _ => true
  | .peerDown _ => true
  | .watchdogReset _ => true
  | .claim _ => true
  | .fitnessChange _ _ _ => true
  | .unfitMaxExpiry _ => true
  | .tieHoldOffExpiry => true
  | .handover _ _ => true
  | .clearObs _ _ => true
  | .arbSelChange _ _ => true
  | .outEnRise _ => true
  | .safeStopAssert _ => true
  | .halfLoss _ => true
  | .arm _ _ _ => true
  | .close _ _ _ => true
  | .openSlot _ _ _ => true
  | .modeHandover _ _ _ _ => true
  | .steadyCommandApply _ _ => true
  | .coefficientWrite _ _ _ _ _ => true
  | .pwmPeriodStart _ _ => true
  | .readbackMismatch _ _ => true
  | .adcConversion _ _ => true
  | .encoderTransition _ _ _ _ => true
  | .inputEdge _ _ _ => true
  | .chatterWindowEnd _ _ => true
  | .stuckTimeout _ _ => true
  | .edgeNotify _ => true
  | .sourcePoll _ _ _ => true
  | .outboundFrameInstant _ => true
  | .frameTransmitted _ _ _ => true
  | .send _ _ _ => true
  | .request _ _ _ => true
  | .bridgeFence _ => true
  | .lifeMsExpiry _ => true
  | .timeoutUsExpiry _ => true
  | .busOff _ => true
  | .busOffRecovery _ => true
  | .ethernetLinkChange _ _ => true
  | .gclArm _ _ _ => true
  | .gclReplace _ => true
  | .gateEntryEnd _ => true
  | .sideBandPulse _ => true
  | .csiFrameStart _ _ => true
  | .csiFrameEnd _ _ => true
  | .frameEndTimeout _ => true
  | .vblankStart _ _ => true
  | .safetyBufferSwap _ => true
  | .hotPlug _ _ => true
  | .cvuCtl _ _ _ => true
  | .cvuData _ _ _ => true
  | .cvuData8 _ _ _ => true
  | .cvuValLo _ _ _ => true
  | .cvuValHi _ _ _ => true
  | .tbRate _ _ _ _ => true
  | .tbStepLo _ _ _ _ => true
  | .tbStepHi _ _ _ _ => true
  | .tbRebase _ _ _ _ => true
  | .timeWriteApply => true
  | .timePulseSend _ => true
  | .timePulse _ _ => true
  | .listeningWindowExpiry _ => true
  | .pulseLoss _ => true
  | .ppsEdge _ _ => true
  | .ppsMissing _ => true
  | .txtsInfoRead _ _ => true
  | .rxtsInfoRead _ _ => true
  | .retype _ => true
  | .reassign _ _ => true
  | .flags _ => true
  | .ownershipChangeComplete => true
  | .worldSwitch _ _ => true
  | .partitionSwitch _ _ => true
  | .scrub _ => true
  | .secClaim _ _ _ _ => true
  | .forcedErase _ _ => true
  | .attestationRequest _ => true
  | .challenge _ _ => true
  | .challengeExpiry _ => true
  | .debugOpen _ _ => true
  | .debugClose _ _ => true
  | .token _ _ => true
  | .imageAccept _ _ _ _ _ => true
  | .imageAgreement _ => true
  | .imageApply _ => true
  | .startZeroingComplete _ => true
  | .sysResetDevice _ _ => true
  | .sysResetHalf _ _ _ => true
  | .flitReplay _ _ _ => true
  | .linkTraining _ _ _ _ _ => true
  | .laneFailure _ _ _ => true
  | .linkIdle _ _ => true
  | .packetForward _ _ _ _ _ => true
  | .deviceLost _ => true
  | .peerAccessTimeout _ => true
  | .pcieCompletionTimeout _ => true
  | .pcieLinkChange _ _ _ _ => true
  | .powerStateReq _ _ _ => true
  | .blockActive _ _ _ => true
  | .clockGated _ _ _ _ => true
  | .powerGated _ _ _ _ => true
  | .fastCurrentLimiter _ _ => true
  | .limiterRelease _ => true
  | .powerGood _ _ => true
  | .resetAssert _ => true
  | .bankCompaction _ _ => true
  | .ledgerLoad _ _ _ => true
  | .mirrorRead _ _ => true
  | .creationComplete => true
  | .vendorReturnEraseEnd => true
  | .leadHoldExpiry _ => true
  | .urgentHalfDown _ => true
  | .activeLine _ _ _ _ => true
  | .cameraPhyLockChange _ _ => true
  | .canErrorStateChange _ _ _ => true
  | .debuggerHalt _ _ => true
  | .resetRelease _ _ => true

end Sys2Proof
end

