-- ==== Sys2Proof/Decode.lean ====
section
/-! DEFINITION. The decoder of the opcode table. The block fetches no instruction words, and the table gives none of its
rows any bits: no word spells a command. -/

namespace Sys2Proof

/-- The bits that the table gives a row: its mask and pattern, and the command it spells. The table gives no row any. -/
def rowBits : List (Nat × Nat × Nat × Instr) := []

/-- The command that a word of `nbits` bits spells: that of the first row whose bits it has. -/
def decodeTableWord (nbits w : Nat) : Option Instr :=
  (rowBits.find? fun r => r.1 == nbits && Nat.land w r.2.1 == r.2.2.1).map fun r => r.2.2.2

end Sys2Proof
end

