-- ==== Sys2Proof/Config.lean ====
section
/-! DEFINITION. The values the specification leaves open. Each is an opaque constant with no body, so nothing proved
about the machine can rest on one of its values. `State.chip.freeCnt` counts the draws (assumption 2). -/

namespace Sys2Proof.Config

/-- Draw number `n` of a value that the specification leaves open (R4, and every "undefined" or unstated value). -/
opaque freeValue : Nat → Dword

/-- The bytes an unpredictable access gives under R4, by draw and position. -/
opaque freeByte : Nat → Nat → Byte

/-- Whether an ECDSA P-384 signature over a SHA-384 digest verifies under a key (R462): key digest, signed bytes, signature. -/
opaque ecdsaVerifies : List Byte → List Byte → List Byte → Bool

/-- The signature the security core of a half makes over bytes (R470): half (0 or 1) and the signed bytes. -/
opaque ecdsaSign : Nat → List Byte → List Byte

/-- The digest of the root public key that the boot ROM of a half holds (R465), and the ROM's own measurement (R470). -/
opaque romRoot : Nat → List Byte
opaque romDigest : Nat → List Byte

/-- The public identity key of a half, in uncompressed form (R464). -/
opaque idKey : Nat → List Byte

/-- An output of the security core's entropy source (R472), by draw and position. -/
opaque entropyByte : Nat → Nat → Byte

/-- A result whose rounding the specification bounds without fixing it (R64, R72, R370): draw and exactly rounded bits. -/
opaque freeRound : Nat → Nat → Nat

/-- A value that the specification leaves open, by draw and by its place in what the draw is for. -/
opaque freeAt : Nat → List Nat → Dword

/-- A colour component of one width in bits shown at another (R420 states no conversion): source bits, target bits, value. -/
opaque component : Nat → Nat → Nat → Nat

/-- The fixed hash that chooses among links (R504): address bits [47:12]. -/
opaque linkHash : Nat → Nat

/-- The `vl` that `vsetvl` chooses where the vector specification leaves a range (R112): requested length, `VLMAX`. -/
opaque vlChoice : Nat → Nat → Nat

end Sys2Proof.Config
end

