-- ==== Sys2Proof/Machine/RegMap.lean ====
section
/-! DEFINITION. The register map: every register table of the specification (R18, R201 and the register tables of
every chapter), as data: the address of each register, its fields with their access codes (R19) and reset
values, and the ranges to which R487 clamps the fields that the image sets.
An "img" field resets here to its default of R487 (assumption 4). -/

namespace Sys2Proof.Machine

/-- The access codes of R19. A bit in no field is RSV. -/
inductive Acc where
  | ro | rw | w1c | w1s | wo | rwl
deriving DecidableEq, Repr

/-- How a field's reset value depends on the indices of its register. -/
inductive Rst where
  /-- The same value for every index. -/
  | const (v : Nat)
  /-- Index number `k` divided by `d`. -/
  | index (k d : Nat)
  /-- `a` at index 0, `b` elsewhere. -/
  | zeroth (a b : Nat)
  /-- One value per index. -/
  | tab (l : List Nat)
deriving DecidableEq, Repr

/-- The reset value of a field at the indices `ix` of its register. -/
def Rst.at (r : Rst) (ix : List Nat) : Nat :=
  match r with
  | .const v => v
  | .index k d => ix.getD k 0 / d
  | .zeroth a b => if ix.getD 0 0 = 0 then a else b
  | .tab l => l.getD (ix.getD 0 0) 0

/-- One field of a register table. -/
structure FieldRow where
  /-- Bit numbers, inclusive. -/
  hi : Nat
  lo : Nat
  /-- Access code. -/
  acc : Acc
  /-- Reset value, for an "img" field its default. -/
  rst : Rst
  /-- Whether the image sets it. -/
  img : Bool
  /-- The range the field's table gives (R487). -/
  least : Nat
  most : Nat
deriving DecidableEq, Repr

/-- A register: its offset in the block instance, its index counts and strides, its fields. -/
structure RegRow where
  off : Nat
  dims : List (Nat × Nat)
  fields : List FieldRow
deriving DecidableEq, Repr

/-- Which half homes an instance of a block (R10, R16). -/
inductive Home where
  /-- Device-wide, in one copy on each half. -/
  | device
  /-- Per half, `n` instances on each half. -/
  | per (n : Nat)
deriving DecidableEq, Repr

/-- A register block of R201. -/
structure Block where
  base : Nat
  dims : List (Nat × Nat)
  /-- Address offset, from the instance, of the register whose bit 31 locks the block, and of its lock-violation counter. -/
  lock : Option Nat
  viol : Option Nat
  /-- The event that R16 raises for a rejected access. -/
  evt : Nat
  home : Home
  regs : List RegRow
deriving DecidableEq, Repr

/-- A field at its address: register address, lowest bit and width. -/
structure RF where
  addr : Nat
  lo : Nat
  wid : Nat
deriving DecidableEq, Repr

/-- A field whose reset value is fixed. -/
def fld (hi lo : Nat) (acc : Acc) (v : Nat) : FieldRow := ⟨hi, lo, acc, .const v, false, 0, 2 ^ (hi - lo + 1) - 1⟩
/-- A field whose reset value depends on the index. -/
def fldAt (hi lo : Nat) (acc : Acc) (v : Rst) : FieldRow := ⟨hi, lo, acc, v, false, 0, 2 ^ (hi - lo + 1) - 1⟩
/-- A field the image sets, with no narrower range than its width. -/
def img (hi lo : Nat) (acc : Acc) (v : Nat) : FieldRow := ⟨hi, lo, acc, .const v, true, 0, 2 ^ (hi - lo + 1) - 1⟩
/-- A field the image sets, with its range. -/
def imgIn (hi lo : Nat) (acc : Acc) (v least most : Nat) : FieldRow := ⟨hi, lo, acc, .const v, true, least, most⟩

/-- Registers of the SYS block, part 0. -/
def rowsSYS0 : List RegRow := [
  -- SYS_ID
  ⟨0x0, [], [fld 31 16 .ro 0x4896, fld 15 8 .ro 0]⟩,
  -- SYS_START
  ⟨0x10, [(2, 0x4)], [fld 31 28 .ro 0, fld 27 27 .ro 0, fld 26 26 .ro 0, fld 25 25 .ro 0, fld 24 24 .ro 0, fld 23 20 .ro 0, fld 19 0 .ro 0]⟩,
  -- SYS_IMG_VER
  ⟨0x20, [], [fld 31 0 .ro 0]⟩,
  -- SYS_IMG_DIGEST
  ⟨0x40, [(12, 0x4)], [fld 31 0 .ro 0]⟩,
  -- SYS_CLAMP_CNT
  ⟨0x80, [], [fld 31 31 .ro 0, fld 30 20 .ro 0, fld 19 0 .ro 0]⟩,
  -- SYS_RESET
  ⟨0x90, [], [fld 15 8 .wo 0, fld 2 2 .wo 0, fld 1 1 .wo 0, fld 0 0 .wo 0]⟩,
  -- SYS_LOCKVIOL
  ⟨0x94, [], [fld 15 0 .ro 0]⟩,
  -- SYS_CLAMP
  ⟨0x8000, [(1024, 0x20), (8, 0x4)], [fld 31 0 .ro 0]⟩]

/-- The SYS block. -/
def blkSYS : Block :=
  ⟨0x0, [], none, (some 0x94), 0x0E20, .device, rowsSYS0⟩

/-- Registers of the OWN block, part 0. -/
def rowsOWN0 : List RegRow := [
  -- OWN_CTL
  ⟨0x0, [], [fld 31 31 .w1s 0, img 0 0 .rwl 0]⟩,
  -- OWN_SEL
  ⟨0x4, [], [fld 20 0 .rw 0]⟩,
  -- OWN_ENTRY
  ⟨0x8, [], [fld 31 0 .ro 0]⟩,
  -- OWN_CHG_FIRST
  ⟨0x10, [], [fld 20 0 .rw 0]⟩,
  -- OWN_CHG_COUNT
  ⟨0x14, [], [fld 20 0 .rw 0]⟩,
  -- OWN_CHG_NEW
  ⟨0x18, [], [fld 23 0 .rw 0]⟩,
  -- OWN_CHG_CMD
  ⟨0x1c, [], [fld 31 28 .wo 0, fld 27 27 .wo 0]⟩,
  -- OWN_CHG_STATUS
  ⟨0x20, [], [fld 31 31 .ro 0, fld 7 0 .ro 0]⟩,
  -- OWN_CHG_CNT
  ⟨0x24, [], [fld 31 0 .ro 0]⟩,
  -- OWN_REFUSED
  ⟨0x28, [], [fld 31 0 .ro 0]⟩,
  -- OWN_ECC
  ⟨0x2c, [], [fld 31 0 .ro 0]⟩,
  -- OWN_LOCKVIOL
  ⟨0x30, [], [fld 31 0 .ro 0]⟩]

/-- The OWN block. -/
def blkOWN : Block :=
  ⟨0x100000, [], (some 0x0), (some 0x30), 0x0D30, .device, rowsOWN0⟩

/-- Registers of the SCHED block, part 0. -/
def rowsSCHED0 : List RegRow := [
  -- SCHED_CTL
  ⟨0x0, [], [fld 31 31 .w1s 0, img 16 16 .rwl 1, imgIn 15 8 .rwl 20 0 100]⟩,
  -- SCHED_QUANTUM
  ⟨0x4, [], [imgIn 15 0 .rwl 1000 50 5000]⟩,
  -- SCHED_ROUGH
  ⟨0x8, [], [imgIn 31 27 .rwl 16 16 31, imgIn 26 22 .rwl 0 0 15, imgIn 21 19 .rwl 4 4 7, imgIn 18 16 .rwl 0 0 3, img 3 0 .rwl 0]⟩,
  -- SCHED_SAVE_FULL_LO
  ⟨0x10, [], [fld 31 0 .ro 0]⟩,
  -- SCHED_SAVE_FULL_HI
  ⟨0x14, [], [fld 31 0 .ro 0]⟩,
  -- SCHED_SAVE_CMD_LO
  ⟨0x18, [], [fld 31 0 .ro 0]⟩,
  -- SCHED_SAVE_CMD_HI
  ⟨0x1c, [], [fld 31 0 .ro 0]⟩,
  -- SCHED_EVICT_CNT
  ⟨0x20, [], [fld 31 0 .ro 0]⟩,
  -- SCHED_SLOT_LATE
  ⟨0x24, [], [fld 31 0 .ro 0]⟩,
  -- SCHED_NOROOM_CNT
  ⟨0x28, [], [fld 31 0 .ro 0]⟩,
  -- SCHED_LOCKVIOL
  ⟨0x2c, [], [fld 15 0 .ro 0]⟩,
  -- SCHED_PART_CFG
  ⟨0x100, [(16, 0x20)], [⟨31, 31, .rwl, .zeroth 1 0, true, 0, 1⟩, img 30 30 .rwl 0, img 29 29 .rwl 0, img 28 28 .rwl 0, img 27 26 .rwl 0, imgIn 25 18 .rwl 1 1 255, img 17 10 .rwl 0, imgIn 9 4 .rwl 0 0 63]⟩,
  -- SCHED_PART_BW
  ⟨0x104, [(16, 0x20)], [img 31 24 .rwl 0, img 23 16 .rwl 0, img 15 8 .rwl 0, img 7 0 .rwl 0]⟩,
  -- SCHED_PART_RSV
  ⟨0x108, [(16, 0x20)], [imgIn 31 20 .rwl 0 0 4095, imgIn 19 6 .rwl 0 0 16383]⟩,
  -- SCHED_PART_BENCH
  ⟨0x10c, [(16, 0x20)], [img 31 0 .rwl 0]⟩,
  -- SCHED_PART_MEM_H
  ⟨0x110, [(16, 0x20)], [imgIn 18 0 .rwl 0 0 524287]⟩]

/-- Registers of the SCHED block, part 1. -/
def rowsSCHED1 : List RegRow := [
  -- SCHED_PART_MEM_T
  ⟨0x114, [(16, 0x20)], [imgIn 18 0 .rwl 0 0 524287]⟩,
  -- SCHED_PART_SAVE
  ⟨0x118, [(16, 0x20)], [imgIn 15 8 .rwl 0 0 64, imgIn 3 0 .rwl 0 0 8]⟩,
  -- SCHED_SLOT
  ⟨0x1000, [(8, 0x100), (64, 0x4)], [img 31 31 .rwl 0, img 30 30 .rwl 0, img 24 24 .rwl 0, img 23 20 .rwl 0, imgIn 11 0 .rwl 1 1 4095]⟩]

/-- The SCHED block. -/
def blkSCHED : Block :=
  ⟨0x200000, [], (some 0x0), (some 0x2c), 0x0520, .device, rowsSCHED0 ++ rowsSCHED1⟩

/-- Registers of the ARRAY block, part 0. -/
def rowsARRAY0 : List RegRow := [
  -- ARRAY_ID
  ⟨0x0, [], [fld 31 22 .ro 0x208, fld 21 14 .ro 0x84, fldAt 3 3 .ro (.index 0 4), fldAt 2 0 .ro (.index 0 1)]⟩,
  -- ARRAY_CTL
  ⟨0x4, [], [fld 31 31 .w1s 0, img 1 1 .rwl 0, img 0 0 .rwl 1]⟩,
  -- ARRAY_STATUS
  ⟨0x8, [], [fld 31 19 .ro 0, fld 6 6 .ro 0, fld 5 5 .ro 0, fld 4 4 .ro 0, fld 3 3 .ro 0, fld 2 2 .ro 0, fld 1 1 .ro 0, fld 0 0 .ro 0]⟩,
  -- ARRAY_ROWMAP
  ⟨0x10, [(4, 0x4)], [fld 31 31 .ro 0, fld 6 0 .ro 0]⟩,
  -- ARRAY_COLMAP
  ⟨0x20, [(6, 0x4)], [fld 31 31 .ro 0, fld 9 0 .ro 0]⟩,
  -- ARRAY_SPARES
  ⟨0x40, [], [fld 24 16 .ro 0x180, fld 11 8 .ro 6, fld 2 0 .ro 4]⟩,
  -- ARRAY_CMD_CNT_LO
  ⟨0x48, [], [fld 31 0 .ro 0]⟩,
  -- ARRAY_CMD_CNT_HI
  ⟨0x4c, [], [fld 31 0 .ro 0]⟩,
  -- ARRAY_BUSY_LO
  ⟨0x50, [], [fld 31 0 .ro 0]⟩,
  -- ARRAY_BUSY_HI
  ⟨0x54, [], [fld 31 0 .ro 0]⟩,
  -- ARRAY_SAT_CNT
  ⟨0x58, [], [fld 31 0 .ro 0]⟩,
  -- ARRAY_ECC
  ⟨0x5c, [], [fld 31 16 .ro 0, fld 15 0 .ro 0]⟩,
  -- ARRAY_LOCKVIOL
  ⟨0x60, [], [fld 15 0 .ro 0]⟩,
  -- ARRAY_RETIRE
  ⟨0x64, [], [fld 0 0 .w1s 0]⟩]

/-- The ARRAY block. -/
def blkARRAY : Block :=
  ⟨0x300000, [(8, 0x10000)], (some 0x4), (some 0x60), 0x0120, .per 4, rowsARRAY0⟩

/-- Registers of the BENCH block, part 0. -/
def rowsBENCH0 : List RegRow := [
  -- BENCH_ID
  ⟨0x0, [], [fld 22 16 .ro 0x40, fldAt 5 5 .ro (.index 0 16), fldAt 4 0 .ro (.index 0 1)]⟩,
  -- BENCH_CTL
  ⟨0x4, [], [fld 31 31 .w1s 0, img 2 2 .rwl 1, img 1 1 .rwl 0, img 0 0 .rwl 1]⟩,
  -- BENCH_STATUS
  ⟨0x8, [], [fld 31 19 .ro 0, fld 3 3 .ro 0, fld 2 2 .ro 0, fld 1 1 .ro 0, fld 0 0 .ro 0]⟩,
  -- BENCH_CORES
  ⟨0xc, [], [fld 31 24 .ro 0x40, fld 22 16 .ro 0x40, fld 10 8 .ro 4, fld 6 0 .ro 0x3C]⟩,
  -- BENCH_TASK_CNT_LO
  ⟨0x10, [], [fld 31 0 .ro 0]⟩,
  -- BENCH_TASK_CNT_HI
  ⟨0x14, [], [fld 31 0 .ro 0]⟩,
  -- BENCH_BUSY_LO
  ⟨0x18, [], [fld 31 0 .ro 0]⟩,
  -- BENCH_BUSY_HI
  ⟨0x1c, [], [fld 31 0 .ro 0]⟩,
  -- BENCH_CLAMP_CNT
  ⟨0x20, [], [fld 31 0 .ro 0]⟩,
  -- BENCH_ECC
  ⟨0x24, [], [fld 31 16 .ro 0, fld 15 0 .ro 0]⟩,
  -- BENCH_LOCKVIOL
  ⟨0x28, [], [fld 15 0 .ro 0]⟩,
  -- BENCH_RETIRE
  ⟨0x2c, [], [fld 0 0 .w1s 0]⟩,
  -- BENCH_MAP
  ⟨0x100, [(60, 0x4)], [fld 31 31 .ro 1, fldAt 5 0 .ro (.index 1 1)]⟩]

/-- The BENCH block. -/
def blkBENCH : Block :=
  ⟨0x400000, [(32, 0x8000)], (some 0x4), (some 0x28), 0x0220, .per 16, rowsBENCH0⟩

/-- Registers of the CARRIAGE block, part 0. -/
def rowsCARRIAGE0 : List RegRow := [
  -- CARRIAGE_ID
  ⟨0x0, [], [fldAt 4 4 .ro (.index 0 8), fldAt 3 0 .ro (.index 0 1)]⟩,
  -- CARRIAGE_CTL
  ⟨0x4, [], [fld 31 31 .w1s 0, img 1 1 .rwl 1, img 0 0 .rwl 1]⟩,
  -- CARRIAGE_STATUS
  ⟨0x8, [], [fld 31 19 .ro 0, fld 7 7 .ro 0, fld 5 0 .ro 0]⟩,
  -- CARRIAGE_TXN
  ⟨0xc, [], [fld 30 16 .ro 0, fld 12 0 .ro 0]⟩,
  -- CARRIAGE_TXN_MAX
  ⟨0x10, [], [fld 30 16 .ro 0, fld 12 0 .ro 0]⟩,
  -- CARRIAGE_MOVE_CNT_LO
  ⟨0x18, [], [fld 31 0 .ro 0]⟩,
  -- CARRIAGE_MOVE_CNT_HI
  ⟨0x1c, [], [fld 31 0 .ro 0]⟩,
  -- CARRIAGE_BYTES_LO
  ⟨0x20, [], [fld 31 0 .ro 0]⟩,
  -- CARRIAGE_BYTES_HI
  ⟨0x24, [], [fld 31 0 .ro 0]⟩,
  -- CARRIAGE_REFUSED
  ⟨0x28, [], [fld 31 0 .ro 0]⟩,
  -- CARRIAGE_LOCKVIOL
  ⟨0x2c, [], [fld 15 0 .ro 0]⟩]

/-- The CARRIAGE block. -/
def blkCARRIAGE : Block :=
  ⟨0x500000, [(16, 0x10000)], (some 0x4), (some 0x2c), 0x0320, .per 8, rowsCARRIAGE0⟩

/-- Registers of the MEM block, part 0. -/
def rowsMEM0 : List RegRow := [
  -- MEM_ID
  ⟨0x0, [], [fldAt 2 2 .ro (.index 0 2), fldAt 1 0 .ro (.index 0 1)]⟩,
  -- MEM_CTL
  ⟨0x4, [], [fld 31 31 .w1s 0, imgIn 11 8 .rwl 2 1 10, img 1 1 .rwl 1, img 0 0 .rwl 0]⟩,
  -- MEM_STATUS
  ⟨0x8, [], [fld 31 24 .ro 0, fld 15 13 .ro 5, fld 12 10 .ro 4, fld 9 7 .ro 0, fld 2 2 .ro 0, fld 1 1 .ro 0, fld 0 0 .ro 0]⟩,
  -- MEM_CORR
  ⟨0xc, [], [fld 31 0 .ro 0]⟩,
  -- MEM_UNCORR
  ⟨0x10, [], [fld 31 0 .ro 0]⟩,
  -- MEM_POISON_LO
  ⟨0x14, [], [fld 31 0 .ro 0]⟩,
  -- MEM_POISON_HI
  ⟨0x18, [], [fld 15 0 .ro 0]⟩,
  -- MEM_LOCKVIOL
  ⟨0x1c, [], [fld 15 0 .ro 0]⟩,
  -- MEM_DIE_CORR
  ⟨0x20, [(6, 0x4)], [fld 31 16 .ro 0, fld 15 0 .ro 0]⟩]

/-- The MEM block. -/
def blkMEM : Block :=
  ⟨0x508000, [(4, 0x40000)], (some 0x4), (some 0x1c), 0x0320, .per 2, rowsMEM0⟩

/-- Registers of the KVL block, part 0. -/
def rowsKVL0 : List RegRow := [
  -- KVL_ID
  ⟨0x0, [], [fldAt 0 0 .ro (.index 0 1)]⟩,
  -- KVL_CTL
  ⟨0x4, [], [fld 31 31 .w1s 0, img 1 1 .rwl 1, img 0 0 .rwl 0]⟩,
  -- KVL_POOL_LO
  ⟨0x10, [], [img 31 16 .rwl 0]⟩,
  -- KVL_POOL_HI
  ⟨0x14, [], [img 15 0 .rwl 0]⟩,
  -- KVL_POOL_CFG
  ⟨0x18, [], [imgIn 30 24 .rwl 1 1 64, imgIn 17 0 .rwl 0 0 131072]⟩,
  -- KVL_FREE
  ⟨0x20, [], [fld 17 0 .ro 0]⟩,
  -- KVL_ZEROING
  ⟨0x24, [], [fld 17 0 .ro 0]⟩,
  -- KVL_DRAIN
  ⟨0x28, [], [fld 17 0 .ro 0]⟩,
  -- KVL_QUOTA
  ⟨0x40, [(16, 0x4)], [img 17 0 .rwl 0]⟩,
  -- KVL_USED
  ⟨0x80, [(16, 0x4)], [fld 17 0 .ro 0]⟩,
  -- KVL_OPS_LO
  ⟨0xc0, [], [fld 31 0 .ro 0]⟩,
  -- KVL_OPS_HI
  ⟨0xc4, [], [fld 31 0 .ro 0]⟩,
  -- KVL_COW_CNT
  ⟨0xc8, [], [fld 31 0 .ro 0]⟩,
  -- KVL_REFUSED
  ⟨0xcc, [], [fld 31 0 .ro 0]⟩,
  -- KVL_PIN_MAX
  ⟨0xd0, [], [fld 7 0 .ro 0]⟩,
  -- KVL_LOCKVIOL
  ⟨0xd4, [], [fld 15 0 .ro 0]⟩]

/-- Registers of the KVL block, part 1. -/
def rowsKVL1 : List RegRow := [
  -- KVL_ENTRY_SEL
  ⟨0xe0, [], [fld 17 0 .rw 0]⟩,
  -- KVL_ENTRY_LO
  ⟨0xe4, [], [fld 31 16 .ro 0, fld 15 8 .ro 0, fld 1 0 .ro 0]⟩,
  -- KVL_ENTRY_HI
  ⟨0xe8, [], [fld 12 0 .ro 0]⟩,
  -- ATTN_STATUS
  ⟨0x100, [], [fld 31 19 .ro 0, fld 6 0 .ro 0]⟩,
  -- ATTN_CMD_CNT_LO
  ⟨0x108, [], [fld 31 0 .ro 0]⟩,
  -- ATTN_CMD_CNT_HI
  ⟨0x10c, [], [fld 31 0 .ro 0]⟩,
  -- ATTN_CLAMP_CNT
  ⟨0x110, [], [fld 31 0 .ro 0]⟩]

/-- The KVL block. -/
def blkKVL : Block :=
  ⟨0x600000, [(2, 0x80000)], (some 0x4), (some 0xd4), 0x0320, .per 1, rowsKVL0 ++ rowsKVL1⟩

/-- Registers of the PARTING block, part 0. -/
def rowsPARTING0 : List RegRow := [
  -- PARTING_ID
  ⟨0x0, [], [fldAt 0 0 .ro (.index 0 1)]⟩,
  -- PARTING_CTL
  ⟨0x4, [], [fld 31 31 .w1s 0, img 0 0 .rwl 1]⟩,
  -- PARTING_STATUS
  ⟨0x8, [], [fld 31 19 .ro 0, fld 1 1 .ro 0, fld 0 0 .ro 0]⟩,
  -- PARTING_CMD_CNT_LO
  ⟨0x10, [], [fld 31 0 .ro 0]⟩,
  -- PARTING_CMD_CNT_HI
  ⟨0x14, [], [fld 31 0 .ro 0]⟩,
  -- PARTING_CLAMP_CNT
  ⟨0x18, [], [fld 31 0 .ro 0]⟩,
  -- PARTING_LOCKVIOL
  ⟨0x1c, [], [fld 15 0 .ro 0]⟩]

/-- The PARTING block. -/
def blkPARTING : Block :=
  ⟨0x700000, [(2, 0x80000)], (some 0x4), (some 0x1c), 0x0121, .per 1, rowsPARTING0⟩

/-- Registers of the CALLIPER block, part 0. -/
def rowsCALLIPER0 : List RegRow := [
  -- CALLIPER_ID
  ⟨0x0, [], [fldAt 0 0 .ro (.index 0 1)]⟩,
  -- CALLIPER_CTL
  ⟨0x4, [], [fld 31 31 .w1s 0, imgIn 11 8 .rwl 4 1 8, img 2 2 .rwl 0, img 1 1 .rwl 0, img 0 0 .rwl 0]⟩,
  -- CALLIPER_FRAME
  ⟨0x8, [], [imgIn 16 0 .rwl 40000 500 100000]⟩,
  -- CALLIPER_FRAME_NO
  ⟨0xc, [], [fld 31 0 .ro 0]⟩,
  -- CALLIPER_STATUS
  ⟨0x10, [], [fld 31 31 .ro 1, fld 30 30 .ro 0, fld 29 29 .ro 1, fld 9 0 .ro 0]⟩,
  -- CALLIPER_CHECKED_LO
  ⟨0x18, [], [fld 31 0 .ro 0]⟩,
  -- CALLIPER_CHECKED_HI
  ⟨0x1c, [], [fld 31 0 .ro 0]⟩,
  -- CALLIPER_MISMATCH
  ⟨0x20, [], [fld 31 0 .ro 0]⟩,
  -- CALLIPER_UNCHECKED
  ⟨0x24, [], [fld 31 0 .ro 0]⟩,
  -- CALLIPER_BLANK_RUN
  ⟨0x28, [], [fld 31 0 .ro 0]⟩,
  -- CALLIPER_BLANK_FORCED
  ⟨0x2c, [], [fld 31 0 .ro 0]⟩,
  -- CALLIPER_BLANK_FAIL
  ⟨0x30, [], [fld 31 0 .ro 0]⟩,
  -- CALLIPER_LOCKVIOL
  ⟨0x34, [], [fld 15 0 .ro 0]⟩,
  -- CALLIPER_ARR_STAT
  ⟨0x100, [(4, 0x10)], [fld 31 28 .ro 0, fld 17 16 .ro 0, fld 1 0 .ro 0]⟩,
  -- CALLIPER_ARR_BLANK
  ⟨0x104, [(4, 0x10)], [fld 31 0 .ro 0]⟩]

/-- The CALLIPER block. -/
def blkCALLIPER : Block :=
  ⟨0x800000, [(2, 0x80000)], (some 0x4), (some 0x34), 0x0720, .per 1, rowsCALLIPER0⟩

/-- Registers of the SLOT block, part 0. -/
def rowsSLOT0 : List RegRow := [
  -- SLOT_CFG
  ⟨0x0, [], [img 31 31 .rwl 0, img 30 30 .rwl 0, img 29 29 .rwl 0, img 28 28 .rwl 0, img 27 27 .rwl 0, imgIn 26 23 .rwl 1 1 15, imgIn 14 0 .rwl 1 1 16384]⟩,
  -- SLOT_OWNER
  ⟨0x4, [], [img 31 16 .rwl 0, img 12 0 .rwl 0]⟩,
  -- SLOT_AGE
  ⟨0x8, [], [imgIn 19 0 .rwl 100 100 1000000]⟩,
  -- SLOT_WARN
  ⟨0xc, [], [img 19 0 .rwl 0]⟩,
  -- SLOT_ALT
  ⟨0x10, [], [img 31 31 .rwl 0, img 24 16 .rwl 0, img 15 15 .rwl 0, img 8 0 .rwl 0]⟩,
  -- SLOT_DOWEL
  ⟨0x14, [], [img 31 31 .rwl 0, img 13 0 .rwl 0]⟩,
  -- SLOT_GEN
  ⟨0x18, [], [fld 31 0 .ro 0]⟩,
  -- SLOT_STATE
  ⟨0x1c, [], [fld 31 31 .ro 1, fld 30 30 .ro 0, fld 29 29 .ro 0, fld 28 28 .ro 0, fld 27 27 .ro 0, fld 26 23 .ro 0, fld 17 16 .ro 0]⟩]

/-- The SLOT block. -/
def blkSLOT : Block :=
  ⟨0x840000, [(512, 0x20)], none, none, 0x0720, .device, rowsSLOT0⟩

/-- Registers of the AUTH block, part 0. -/
def rowsAUTH0 : List RegRow := [
  -- AUTH_ID
  ⟨0x0, [], [fld 1 1 .ro 0, fldAt 0 0 .ro (.index 0 1)]⟩,
  -- AUTH_CTL
  ⟨0x4, [], [fld 31 31 .w1s 0, imgIn 25 16 .rwl 100 1 1000, imgIn 15 8 .rwl 16 1 255]⟩,
  -- AUTH_REQ
  ⟨0x8, [], [fld 1 1 .w1s 0, fld 0 0 .w1s 0]⟩,
  -- AUTH_STATUS
  ⟨0xc, [], [fld 31 30 .ro 0, fld 29 29 .ro 0, fld 28 28 .ro 1, fld 27 27 .ro 0, fld 26 25 .ro 0, fld 24 23 .ro 0, fld 22 22 .ro 0, fld 21 21 .ro 0, fld 20 20 .ro 0, fld 19 19 .ro 0, fld 18 18 .ro 0, fld 17 17 .ro 0, fld 16 13 .ro 1, fld 12 7 .ro 0x3F]⟩,
  -- AUTH_EPOCH
  ⟨0x10, [], [fld 31 0 .ro 0]⟩,
  -- AUTH_PEER_EPOCH
  ⟨0x14, [], [fld 31 0 .ro 0]⟩,
  -- AUTH_HANDOVER_CNT
  ⟨0x18, [], [fld 31 0 .ro 0]⟩,
  -- AUTH_LAST_GAP
  ⟨0x1c, [], [fld 15 0 .ro 0]⟩,
  -- AUTH_MAX_GAP
  ⟨0x20, [], [fld 15 0 .ro 0]⟩,
  -- AUTH_PATH_ERR
  ⟨0x24, [], [fld 31 16 .ro 0, fld 15 0 .ro 0]⟩,
  -- AUTH_LOCKVIOL
  ⟨0x28, [], [fld 15 0 .ro 0]⟩]

/-- The AUTH block. -/
def blkAUTH : Block :=
  ⟨0x900000, [(2, 0x80000)], (some 0x4), (some 0x28), 0x0828, .per 1, rowsAUTH0⟩

/-- Registers of the STEADY block, part 0. -/
def rowsSTEADY0 : List RegRow := [
  -- STEADY_ID
  ⟨0x0, [], [fldAt 0 0 .ro (.index 0 1)]⟩,
  -- STEADY_CTL
  ⟨0x4, [], [fld 31 31 .w1s 0, img 18 16 .rwl 0, img 0 0 .rwl 0]⟩,
  -- STEADY_ENV
  ⟨0x8, [], [imgIn 31 16 .rwl 0 0 10000, imgIn 15 0 .rwl 0 0 10000]⟩,
  -- STEADY_CMD
  ⟨0x10, [], [fld 31 28 .wo 0, fld 11 8 .wo 0, fld 3 0 .wo 0]⟩,
  -- STEADY_CMD_RESULT
  ⟨0x14, [], [fld 31 31 .ro 0, fld 27 24 .ro 0, fld 23 20 .ro 0, fld 7 0 .ro 0]⟩,
  -- STEADY_STATUS
  ⟨0x18, [], [fld 19 8 .ro 0, fld 7 0 .ro 0]⟩,
  -- STEADY_UPD_LO
  ⟨0x20, [], [fld 31 0 .ro 0]⟩,
  -- STEADY_UPD_HI
  ⟨0x24, [], [fld 31 0 .ro 0]⟩,
  -- STEADY_OVERRUN
  ⟨0x28, [], [fld 31 0 .ro 0]⟩,
  -- STEADY_COEF_REJ
  ⟨0x2c, [], [fld 15 0 .ro 0]⟩,
  -- STEADY_LOCKVIOL
  ⟨0x30, [], [fld 15 0 .ro 0]⟩,
  -- LOOP_CFG
  ⟨0x1000, [(16, 0x100)], [imgIn 31 27 .rw 1 1 16, imgIn 26 23 .rw 0 0 8, imgIn 22 19 .rw 0 0 8, imgIn 18 15 .rw 1 1 8, img 14 14 .rw 0, img 13 10 .rw 0, imgIn 7 0 .rw 1 1 255]⟩,
  -- LOOP_TIMING
  ⟨0x1004, [(16, 0x100)], [imgIn 31 18 .rw 20 20 10000, img 17 4 .rw 0]⟩,
  -- LOOP_RAMP
  ⟨0x1008, [(16, 0x100)], [imgIn 11 0 .rw 0 0 4095]⟩,
  -- LOOP_STATE
  ⟨0x100c, [(16, 0x100)], [fld 31 29 .ro 0, fld 28 28 .ro 0, fld 27 27 .ro 0, fld 15 8 .ro 0]⟩,
  -- LOOP_CRC
  ⟨0x1010, [(16, 0x100)], [fld 31 0 .ro 0]⟩]

/-- Registers of the STEADY block, part 1. -/
def rowsSTEADY1 : List RegRow := [
  -- LOOP_Y_SRC
  ⟨0x1020, [(16, 0x100), (8, 0x4)], [img 31 28 .rw 0, img 24 16 .rw 0, img 15 0 .rw 0]⟩,
  -- LOOP_R_SRC
  ⟨0x1040, [(16, 0x100), (8, 0x4)], [img 31 28 .rw 0, img 24 16 .rw 0, img 15 0 .rw 0]⟩,
  -- LOOP_U_DST
  ⟨0x1060, [(16, 0x100), (8, 0x4)], [img 31 28 .rw 0, img 3 0 .rw 0]⟩,
  -- LOOP_OUT
  ⟨0x1080, [(16, 0x100), (8, 0x4)], [fld 31 0 .ro 0]⟩]

/-- The STEADY block. -/
def blkSTEADY : Block :=
  ⟨0xa00000, [(2, 0x80000)], (some 0x4), (some 0x30), 0x0938, .per 1, rowsSTEADY0 ++ rowsSTEADY1⟩

/-- Registers of the GW block, part 0. -/
def rowsGW0 : List RegRow := [
  -- GW_ID
  ⟨0x0, [], [fld 15 0 .ro 1]⟩,
  -- GW_CTL
  ⟨0x4, [], [fld 31 31 .w1s 0, img 18 16 .rwl 0, img 0 0 .rwl 0]⟩,
  -- GW_LOCKVIOL
  ⟨0x8, [], [fld 31 0 .ro 0]⟩,
  -- GW_LATE_CNT
  ⟨0xc, [], [fld 31 0 .ro 0]⟩,
  -- GW_STALE_CNT
  ⟨0x10, [], [fld 31 0 .ro 0]⟩,
  -- GW_DROP_CNT
  ⟨0x14, [], [fld 31 0 .ro 0]⟩,
  -- GW_CLAMP_CNT
  ⟨0x18, [], [fld 31 0 .ro 0]⟩,
  -- GW_SB_CFG
  ⟨0x20, [(2, 0x4)], [img 15 8 .rwl 0, img 7 0 .rwl 0]⟩,
  -- GW_CAN_CFG
  ⟨0x100, [(12, 0x20)], [img 31 31 .rwl 0, img 30 28 .rwl 0, img 27 27 .rwl 0, img 26 26 .rwl 0, img 25 25 .rwl 0, img 24 24 .rwl 0, imgIn 23 16 .rwl 0 0 255, img 15 0 .rwl 0]⟩,
  -- GW_CAN_NBT
  ⟨0x104, [(12, 0x20)], [img 31 24 .rwl 0, img 23 16 .rwl 0, img 14 8 .rwl 0, img 6 0 .rwl 0]⟩,
  -- GW_CAN_DBT
  ⟨0x108, [(12, 0x20)], [img 31 24 .rwl 0, img 23 16 .rwl 0, img 14 8 .rwl 0, img 6 0 .rwl 0]⟩,
  -- GW_CAN_STAT
  ⟨0x10c, [(12, 0x20)], [fld 31 30 .ro 3, fld 23 16 .ro 0, fld 15 8 .ro 0, fld 7 0 .ro 0]⟩,
  -- GW_CAN_SA
  ⟨0x110, [(12, 0x20)], [imgIn 23 16 .rwl 1 1 32, fld 8 8 .rw 0, fld 7 0 .rw 0xFE]⟩,
  -- GW_ETH_CFG
  ⟨0x400, [(8, 0x20)], [img 31 31 .rwl 0, img 30 28 .rwl 0, img 27 26 .rwl 0, img 25 25 .rwl 0, imgIn 24 22 .rwl 1 1 7, img 15 0 .rwl 0]⟩,
  -- GW_ETH_CYCLE
  ⟨0x404, [(8, 0x20)], [fld 31 0 .rw 0]⟩,
  -- GW_ETH_BASE_LO
  ⟨0x408, [(8, 0x20)], [fld 31 0 .rw 0]⟩]

/-- Registers of the GW block, part 1. -/
def rowsGW1 : List RegRow := [
  -- GW_ETH_BASE_HI
  ⟨0x40c, [(8, 0x20)], [fld 31 0 .rw 0]⟩,
  -- GW_ETH_CBS
  ⟨0x410, [(8, 0x20)], [fld 31 0 .rw 0]⟩,
  -- GW_ETH_STAT
  ⟨0x414, [(8, 0x20)], [fld 31 31 .ro 0, fld 30 30 .ro 0]⟩,
  -- GW_TXF_CFG
  ⟨0x10000, [(1024, 0x20)], [img 31 31 .rwl 0, img 30 26 .rwl 0, img 25 21 .rwl 0, img 20 20 .rwl 0, img 19 16 .rwl 0, imgIn 11 0 .rwl 1 1 2048]⟩,
  -- GW_TXF_ID
  ⟨0x10004, [(1024, 0x20)], [img 31 0 .rwl 0]⟩,
  -- GW_TXF_PERIOD
  ⟨0x10008, [(1024, 0x20)], [imgIn 31 12 .rwl 50 50 1000000]⟩,
  -- GW_GCL_INT
  ⟨0x20000, [(8, 0x800), (256, 0x8)], [fld 31 0 .rw 0]⟩,
  -- GW_GCL_GATES
  ⟨0x20004, [(8, 0x800), (256, 0x8)], [fld 31 31 .rw 0, fld 7 0 .rw 0]⟩,
  -- GW_ROUTE_CFG
  ⟨0x40000, [(4096, 0x20)], [img 31 31 .rwl 0, img 30 30 .rwl 0, img 29 29 .rwl 0, img 28 25 .rwl 0, img 24 20 .rwl 0, img 19 15 .rwl 0, img 14 14 .rwl 0, img 13 10 .rwl 0, imgIn 9 0 .rwl 0 0 1023]⟩,
  -- GW_ROUTE_MATCH
  ⟨0x40004, [(4096, 0x20)], [img 31 0 .rwl 0]⟩,
  -- GW_ROUTE_MASK
  ⟨0x40008, [(4096, 0x20)], [img 31 0 .rwl 0]⟩,
  -- GW_ROUTE_IN
  ⟨0x4000c, [(4096, 0x20)], [imgIn 31 18 .rwl 0 0 16383, imgIn 17 12 .rwl 0 0 63, img 11 11 .rwl 0, img 10 10 .rwl 0, img 9 9 .rwl 0, img 8 8 .rwl 0]⟩,
  -- GW_ROUTE_OUT
  ⟨0x40010, [(4096, 0x20)], [imgIn 31 18 .rwl 0 0 16383, imgIn 17 12 .rwl 0 0 63, img 11 11 .rwl 0, img 10 10 .rwl 0]⟩,
  -- GW_ROUTE_PERIOD
  ⟨0x40014, [(4096, 0x20)], [imgIn 31 12 .rwl 50 50 1000000]⟩,
  -- GW_ROUTE_FACTOR
  ⟨0x40018, [(4096, 0x20)], [img 31 0 .rwl 0]⟩,
  -- GW_ROUTE_OFFSET
  ⟨0x4001c, [(4096, 0x20)], [img 31 0 .rwl 0]⟩]

/-- Registers of the GW block, part 2. -/
def rowsGW2 : List RegRow := [
  -- GW_CHAN_CFG
  ⟨0x60000, [(256, 0x20)], [img 31 31 .rwl 0, img 30 26 .rwl 0, imgIn 25 22 .rwl 0 0 14, imgIn 21 13 .rwl 1 1 145, img 12 0 .rwl 0]⟩,
  -- GW_CHAN_ID
  ⟨0x60004, [(256, 0x20)], [img 31 0 .rwl 0]⟩,
  -- GW_CHAN_MASK
  ⟨0x60008, [(256, 0x20)], [img 31 0 .rwl 0]⟩,
  -- GW_CHAN_BUF_LO
  ⟨0x6000c, [(256, 0x20)], [img 31 6 .rwl 0]⟩,
  -- GW_CHAN_BUF_HI
  ⟨0x60010, [(256, 0x20)], [img 15 0 .rwl 0]⟩,
  -- GW_CHAN_DOWELS
  ⟨0x60014, [(256, 0x20)], [img 29 16 .rwl 0, img 13 0 .rwl 0]⟩]

/-- The GW block. -/
def blkGW : Block :=
  ⟨0xb00000, [], (some 0x4), (some 0x8), 0x0A30, .device, rowsGW0 ++ rowsGW1 ++ rowsGW2⟩

/-- Registers of the INTAKE block, part 0. -/
def rowsINTAKE0 : List RegRow := [
  -- INTAKE_CTL
  ⟨0x0, [], [fld 31 31 .w1s 0, img 0 0 .rwl 0]⟩,
  -- INTAKE_FMT
  ⟨0x4, [], [img 31 28 .rwl 0, imgIn 27 24 .rwl 0 0 15, imgIn 23 22 .rwl 0 0 2, img 21 20 .rwl 0, img 19 19 .rwl 0, img 18 18 .rwl 0, img 17 15 .rwl 0, imgIn 14 11 .rwl 0 0 14, img 10 8 .rwl 0, img 7 0 .rwl 0]⟩,
  -- INTAKE_SIZE
  ⟨0x8, [], [imgIn 31 16 .rwl 64 64 8192, imgIn 15 0 .rwl 1 1 8192]⟩,
  -- INTAKE_RATE
  ⟨0xc, [], [imgIn 31 16 .rwl 1 1 1000, imgIn 12 0 .rwl 80 80 4500]⟩,
  -- INTAKE_BUF_LO
  ⟨0x10, [], [img 31 6 .rwl 0]⟩,
  -- INTAKE_BUF_HI
  ⟨0x14, [], [img 15 0 .rwl 0]⟩,
  -- INTAKE_BUF_STRIDE
  ⟨0x18, [], [img 31 6 .rwl 0]⟩,
  -- INTAKE_PLANE
  ⟨0x1c, [], [img 31 6 .rwl 0]⟩,
  -- INTAKE_ROW
  ⟨0x20, [], [img 17 0 .rwl 0]⟩,
  -- INTAKE_DOWELS
  ⟨0x24, [], [img 29 16 .rwl 0, img 13 0 .rwl 0]⟩,
  -- INTAKE_OWNER
  ⟨0x28, [], [img 12 0 .rwl 0]⟩,
  -- INTAKE_OFFSET
  ⟨0x40, [(4, 0x8)], [img 31 0 .rwl 0]⟩,
  -- INTAKE_SCALE
  ⟨0x44, [(4, 0x8)], [img 31 0 .rwl 0]⟩,
  -- INTAKE_SEQ
  ⟨0x80, [], [fld 31 0 .ro 0]⟩,
  -- INTAKE_WRITTEN
  ⟨0x84, [], [fld 31 0 .ro 0]⟩,
  -- INTAKE_DROPPED
  ⟨0x88, [], [fld 31 0 .ro 0]⟩]

/-- Registers of the INTAKE block, part 1. -/
def rowsINTAKE1 : List RegRow := [
  -- INTAKE_TRUNC
  ⟨0x8c, [], [fld 31 0 .ro 0]⟩,
  -- INTAKE_CRC_ERR
  ⟨0x90, [], [fld 31 0 .ro 0]⟩,
  -- INTAKE_ERR
  ⟨0x94, [], [fld 31 0 .ro 0]⟩,
  -- INTAKE_CLAMP_CNT
  ⟨0x98, [], [fld 31 0 .ro 0]⟩,
  -- INTAKE_LOCKVIOL
  ⟨0x9c, [], [fld 31 0 .ro 0]⟩]

/-- The INTAKE block. -/
def blkINTAKE : Block :=
  ⟨0xc00000, [(16, 0x1000)], (some 0x0), (some 0x9c), 0x0B28, .per 8, rowsINTAKE0 ++ rowsINTAKE1⟩

/-- Registers of the SCAN block, part 0. -/
def rowsSCAN0 : List RegRow := [
  -- SCAN_CTL
  ⟨0x0, [], [fld 31 31 .w1s 0, img 0 0 .rwl 0]⟩,
  -- SCAN_LINK
  ⟨0x4, [], [img 31 31 .rwl 0, imgIn 30 29 .rwl 0 0 2, img 28 26 .rwl 0, img 25 25 .rwl 0, imgIn 19 0 .rwl 25000 25000 600000]⟩,
  -- SCAN_H
  ⟨0x8, [], [img 31 16 .rwl 0, img 15 0 .rwl 0]⟩,
  -- SCAN_V
  ⟨0xc, [], [img 31 16 .rwl 0, img 15 0 .rwl 0]⟩,
  -- SCAN_HSYNC
  ⟨0x10, [], [img 31 16 .rwl 0, img 15 0 .rwl 0]⟩,
  -- SCAN_VSYNC
  ⟨0x14, [], [img 31 16 .rwl 0, img 15 0 .rwl 0]⟩,
  -- SCAN_MAIN_CFG
  ⟨0x20, [], [imgIn 31 30 .rwl 0 0 2, imgIn 29 28 .rwl 0 0 2, img 12 0 .rwl 0]⟩,
  -- SCAN_MAIN_BUF_LO
  ⟨0x24, [], [img 31 6 .rwl 0]⟩,
  -- SCAN_MAIN_BUF_HI
  ⟨0x28, [], [img 15 0 .rwl 0]⟩,
  -- SCAN_MAIN_STRIDE
  ⟨0x2c, [], [img 31 6 .rwl 0]⟩,
  -- SCAN_MAIN_PITCH
  ⟨0x30, [], [img 31 6 .rwl 0]⟩,
  -- SCAN_MAIN_DOWELS
  ⟨0x34, [], [img 29 16 .rwl 0, img 13 0 .rwl 0]⟩,
  -- SCAN_BG
  ⟨0x38, [], [img 23 0 .rwl 0]⟩,
  -- SCAN_SAFE_POS
  ⟨0x40, [], [img 31 16 .rwl 0, img 15 0 .rwl 0]⟩,
  -- SCAN_SAFE_SIZE
  ⟨0x44, [], [img 31 16 .rwl 0, img 15 0 .rwl 0]⟩,
  -- SCAN_SAFE_CFG
  ⟨0x48, [], [img 31 31 .rwl 0, imgIn 27 24 .rwl 1 1 15, img 8 0 .rwl 0]⟩]

/-- Registers of the SCAN block, part 1. -/
def rowsSCAN1 : List RegRow := [
  -- SCAN_SAFE_FAIL
  ⟨0x4c, [], [img 31 0 .rwl 0]⟩,
  -- SCAN_FRAME
  ⟨0x80, [], [fld 31 0 .ro 0]⟩,
  -- SCAN_UNDERRUN
  ⟨0x84, [], [fld 31 0 .ro 0]⟩,
  -- SCAN_SAFE_HELD
  ⟨0x88, [], [fld 31 0 .ro 0]⟩,
  -- SCAN_LOCKVIOL
  ⟨0x8c, [], [fld 31 0 .ro 0]⟩]

/-- The SCAN block. -/
def blkSCAN : Block :=
  ⟨0xc80000, [(4, 0x1000)], (some 0x0), (some 0x8c), 0x0B28, .per 2, rowsSCAN0 ++ rowsSCAN1⟩

/-- Registers of the CVU block, part 0. -/
def rowsCVU0 : List RegRow := [
  -- CVU_CTL
  ⟨0x0, [], [fld 31 31 .w1s 0, fld 2 0 .rw 2]⟩,
  -- CVU_DATA
  ⟨0x4, [], [fld 31 0 .wo 0]⟩,
  -- CVU_DATA8
  ⟨0x8, [], [fld 31 0 .wo 0]⟩,
  -- CVU_VAL_LO
  ⟨0x10, [], [fld 31 0 .rw 0]⟩,
  -- CVU_VAL_HI
  ⟨0x14, [], [fld 31 0 .rw 0]⟩,
  -- CVU_RESULT_LO
  ⟨0x18, [], [fld 31 0 .ro 0]⟩,
  -- CVU_RESULT_HI
  ⟨0x1c, [], [fld 31 0 .ro 0]⟩,
  -- CVU_LAST_LO
  ⟨0x20, [], [fld 31 0 .ro 0]⟩,
  -- CVU_LAST_HI
  ⟨0x24, [], [fld 31 0 .ro 0]⟩,
  -- CVU_FRAMES
  ⟨0x28, [], [fld 31 0 .ro 0]⟩,
  -- CVU_EXPECT_LO
  ⟨0x2c, [], [fld 31 0 .rw 0]⟩,
  -- CVU_EXPECT_HI
  ⟨0x30, [], [fld 31 0 .rw 0]⟩,
  -- CVU_CMP_CTL
  ⟨0x34, [], [fld 31 31 .rw 0, fld 3 0 .rw 0]⟩,
  -- CVU_MISMATCH
  ⟨0x38, [], [fld 31 0 .ro 0]⟩,
  -- CVU_STATUS
  ⟨0x3c, [], [fld 31 31 .ro 0, fld 30 30 .ro 0]⟩,
  -- CVU_ID
  ⟨0x800, [], [fldAt 5 5 .ro (.index 0 16), fldAt 4 0 .ro (.index 0 1)]⟩]

/-- Registers of the CVU block, part 1. -/
def rowsCVU1 : List RegRow := [
  -- CVU_CFG
  ⟨0x804, [], [fld 31 31 .w1s 0, img 30 28 .rwl 0, img 27 27 .rwl 0, imgIn 25 16 .rwl 0 0 1023, img 13 0 .rwl 0]⟩,
  -- CVU_LOCKVIOL
  ⟨0x808, [], [fld 15 0 .ro 0]⟩]

/-- The CVU block. -/
def blkCVU : Block :=
  ⟨0xd00000, [(32, 0x1000)], (some 0x804), (some 0x808), 0x0B28, .per 16, rowsCVU0 ++ rowsCVU1⟩

/-- Registers of the TIME block, part 0. -/
def rowsTIME0 : List RegRow := [
  -- TIME_ID
  ⟨0x0, [], [fld 1 1 .ro 0, fldAt 0 0 .ro (.index 0 1)]⟩,
  -- TIME_CTL
  ⟨0x4, [], [fld 31 31 .w1s 0, imgIn 30 16 .rwl 200 50 10000]⟩,
  -- TIME_STATUS
  ⟨0x8, [], [fld 31 31 .ro 0, fld 30 30 .ro 0, fld 29 29 .ro 0]⟩,
  -- TIME_OFFSET
  ⟨0xc, [], [fld 31 0 .ro 0]⟩,
  -- TIME_XCHK_CNT
  ⟨0x10, [], [fld 31 0 .ro 0]⟩,
  -- TIME_LOCKVIOL
  ⟨0x14, [], [fld 31 0 .ro 0]⟩,
  -- TIME_PPS_CFG
  ⟨0x20, [], [img 31 31 .rwl 0, img 30 30 .rwl 0, imgIn 19 0 .rwl 1 1 100000]⟩,
  -- TIME_PPS_CNT
  ⟨0x24, [], [fld 31 0 .ro 0]⟩,
  -- TIME_PPS_REJ
  ⟨0x28, [], [fld 31 0 .ro 0]⟩,
  -- TB_CFG
  ⟨0x100, [(8, 0x40)], [img 30 30 .rwl 0]⟩,
  -- TB_NOW_LO
  ⟨0x104, [(8, 0x40)], [fld 31 0 .ro 0]⟩,
  -- TB_NOW_HI
  ⟨0x108, [(8, 0x40)], [fld 31 0 .ro 0]⟩,
  -- TB_RATE
  ⟨0x10c, [(8, 0x40)], [fld 31 0 .rw 0]⟩,
  -- TB_STEP_LO
  ⟨0x110, [(8, 0x40)], [fld 31 0 .wo 0]⟩,
  -- TB_STEP_HI
  ⟨0x114, [(8, 0x40)], [fld 31 0 .wo 0]⟩,
  -- TB_EPOCH_LO
  ⟨0x118, [(8, 0x40)], [fld 31 0 .rw 0]⟩]

/-- Registers of the TIME block, part 1. -/
def rowsTIME1 : List RegRow := [
  -- TB_EPOCH_HI
  ⟨0x11c, [(8, 0x40)], [fld 15 0 .rw 0]⟩,
  -- TB_REBASE
  ⟨0x120, [(8, 0x40)], [fld 31 0 .wo 0]⟩,
  -- TB_PPS_LO
  ⟨0x124, [(8, 0x40)], [fld 31 0 .ro 0]⟩,
  -- TB_PPS_HI
  ⟨0x128, [(8, 0x40)], [fld 31 0 .ro 0]⟩,
  -- TB_STEP_CNT
  ⟨0x12c, [(8, 0x40)], [fld 31 0 .ro 0]⟩,
  -- TIME_MAC_ADJ
  ⟨0x400, [(4, 0x100)], [img 31 16 .rwl 0, img 15 0 .rwl 0]⟩,
  -- TIME_PTP_DOM
  ⟨0x410, [(4, 0x100), (8, 0x4)], [img 31 31 .rwl 0, img 30 30 .rwl 0, img 18 16 .rwl 0, img 7 0 .rwl 0]⟩,
  -- TIME_TXTS_INFO
  ⟨0x440, [(4, 0x100)], [fld 31 31 .ro 0, fld 27 24 .ro 0, fld 23 16 .ro 0, fld 15 0 .ro 0]⟩,
  -- TIME_TXTS_LO
  ⟨0x444, [(4, 0x100)], [fld 31 0 .ro 0]⟩,
  -- TIME_TXTS_HI
  ⟨0x448, [(4, 0x100)], [fld 31 0 .ro 0]⟩,
  -- TIME_RXTS_INFO
  ⟨0x450, [(4, 0x100)], [fld 31 31 .ro 0, fld 27 24 .ro 0, fld 23 16 .ro 0, fld 15 0 .ro 0]⟩,
  -- TIME_RXTS_LO
  ⟨0x454, [(4, 0x100)], [fld 31 0 .ro 0]⟩,
  -- TIME_RXTS_HI
  ⟨0x458, [(4, 0x100)], [fld 31 0 .ro 0]⟩,
  -- TIME_TS_LOST
  ⟨0x460, [(4, 0x100)], [fld 31 16 .ro 0, fld 15 0 .ro 0]⟩,
  -- TIME_NOW_LO
  ⟨0x1000, [(8, 0x8)], [fld 31 0 .ro 0]⟩,
  -- TIME_NOW_HI
  ⟨0x1004, [(8, 0x8)], [fld 31 0 .ro 0]⟩]

/-- The TIME block. -/
def blkTIME : Block :=
  ⟨0xe00000, [(2, 0x80000)], (some 0x4), (some 0x14), 0x0C20, .per 1, rowsTIME0 ++ rowsTIME1⟩

/-- Registers of the SEC block, part 0. -/
def rowsSEC0 : List RegRow := [
  -- SEC_ID
  ⟨0x0, [], [fld 1 1 .ro 0, fldAt 0 0 .ro (.index 0 1)]⟩,
  -- SEC_CTL
  ⟨0x4, [], [fld 31 31 .w1s 0, imgIn 9 0 .rwl 60 1 600]⟩,
  -- SEC_STATUS
  ⟨0x8, [], [fld 31 30 .ro 0, fld 29 29 .ro 0, fld 28 28 .ro 0, fld 27 27 .ro 0, fld 26 24 .ro 0]⟩,
  -- SEC_DEVID
  ⟨0x10, [(4, 0x4)], [fld 31 0 .ro 0]⟩,
  -- SEC_FW_VER
  ⟨0x20, [], [fld 31 0 .ro 0]⟩,
  -- SEC_CTR
  ⟨0x40, [(16, 0x4)], [fld 31 0 .ro 0]⟩,
  -- SEC_CLAIM
  ⟨0x80, [(4, 0x4)], [fld 31 0 .rw 0]⟩,
  -- SEC_DBG_SCOPE
  ⟨0x90, [], [fld 15 0 .ro 0]⟩,
  -- SEC_REFUSED_CNT
  ⟨0xa0, [], [fld 31 0 .ro 0]⟩,
  -- SEC_SIG_FAIL
  ⟨0xa4, [], [fld 31 0 .ro 0]⟩,
  -- SEC_ATTEST_CNT
  ⟨0xa8, [], [fld 31 0 .ro 0]⟩,
  -- SEC_LOCKVIOL
  ⟨0xac, [], [fld 31 0 .ro 0]⟩,
  -- SEC_DBG_CHAL
  ⟨0x1000, [(8, 0x4)], [fld 31 0 .ro 0]⟩,
  -- SEC_DBG_MBOX
  ⟨0x1040, [(56, 0x4)], [fld 31 0 .wo 0]⟩,
  -- SEC_DBG_CMD
  ⟨0x1120, [], [fld 31 28 .wo 0]⟩,
  -- SEC_DBG_RESULT
  ⟨0x1124, [], [fld 31 31 .ro 0, fld 7 0 .ro 0]⟩]

/-- The SEC block. -/
def blkSEC : Block :=
  ⟨0xf00000, [(2, 0x80000)], (some 0x4), (some 0xac), 0x0D30, .per 1, rowsSEC0⟩

/-- Registers of the POWER block, part 0. -/
def rowsPOWER0 : List RegRow := [
  -- POWER_ID
  ⟨0x0, [], [fldAt 0 0 .ro (.index 0 1)]⟩,
  -- POWER_CTL
  ⟨0x4, [], [fld 31 31 .w1s 0, img 30 30 .rwl 0, imgIn 29 24 .rwl 5 0 20, imgIn 10 8 .rwl 0 0 5]⟩,
  -- POWER_CAP
  ⟨0x8, [], [fld 15 0 .rw 1150]⟩,
  -- POWER_NOW
  ⟨0xc, [], [fld 15 0 .ro 0]⟩,
  -- POWER_PEAK
  ⟨0x10, [], [fld 15 0 .ro 0]⟩,
  -- POWER_STATE_REQ
  ⟨0x14, [], [fld 1 0 .wo 0]⟩,
  -- POWER_STATUS
  ⟨0x18, [], [fld 31 30 .ro 0, fld 29 27 .ro 0, fld 26 25 .ro 0, fld 24 20 .ro 0, fld 19 16 .ro 0, fld 15 8 .ro 0]⟩,
  -- POWER_RAIL
  ⟨0x40, [(11, 0x4)], [fld 31 16 .ro 0, fld 15 0 .ro 0]⟩,
  -- POWER_TEMP
  ⟨0x80, [(18, 0x4)], [fld 15 0 .ro 0]⟩,
  -- POWER_THERM
  ⟨0xd0, [], [imgIn 7 0 .rwl 100 70 110]⟩,
  -- POWER_BLK_REQ
  ⟨0x100, [], [fld 31 28 .wo 0, fld 6 0 .wo 0]⟩,
  -- POWER_BLK_RESULT
  ⟨0x104, [], [fld 31 31 .ro 0, fld 15 8 .ro 0, fld 6 0 .ro 0]⟩,
  -- POWER_BLK_STATE
  ⟨0x110, [(8, 0x4)], [fld 31 0 .ro 0]⟩,
  -- POWER_SLEW
  ⟨0x140, [], [img 5 4 .rwl 2, img 3 2 .rwl 1, img 1 0 .rwl 2]⟩,
  -- POWER_LIMIT_CNT
  ⟨0x180, [], [fld 31 0 .ro 0]⟩,
  -- POWER_CAP_CNT
  ⟨0x184, [], [fld 31 0 .ro 0]⟩]

/-- Registers of the POWER block, part 1. -/
def rowsPOWER1 : List RegRow := [
  -- POWER_TRIP_CNT
  ⟨0x188, [], [fld 31 0 .ro 0]⟩,
  -- POWER_LOCKVIOL
  ⟨0x18c, [], [fld 31 0 .ro 0]⟩]

/-- The POWER block. -/
def blkPOWER : Block :=
  ⟨0x1000000, [(2, 0x80000)], (some 0x4), (some 0x18c), 0x1020, .per 1, rowsPOWER0 ++ rowsPOWER1⟩

/-- Registers of the WEAR block, part 0. -/
def rowsWEAR0 : List RegRow := [
  -- WEAR_ID
  ⟨0x0, [], [fld 15 0 .ro 1]⟩,
  -- WEAR_CTL
  ⟨0x4, [], [fld 31 31 .w1s 0, imgIn 7 0 .rwl 50 25 100]⟩,
  -- WEAR_STATUS
  ⟨0x8, [], [fld 31 30 .ro 0, fld 29 29 .ro 0, fld 28 28 .ro 0, fld 27 27 .ro 0, fld 10 0 .ro 0]⟩,
  -- WEAR_HOURS
  ⟨0xc, [], [fld 31 0 .ro 0]⟩,
  -- WEAR_STARTS
  ⟨0x10, [], [fld 31 0 .ro 0]⟩,
  -- WEAR_LOG_CNT
  ⟨0x14, [], [fld 31 0 .ro 0]⟩,
  -- WEAR_LOCKVIOL
  ⟨0x18, [], [fld 31 0 .ro 0]⟩,
  -- WEAR_RES
  ⟨0x40, [(10, 0x4)], [fld 31 16 .ro 0, fldAt 15 0 .ro (.tab [32, 48, 3072, 128, 2048, 16384, 4, 16, 8, 32])]⟩,
  -- WEAR_LOG_SEL
  ⟨0x80, [], [fld 8 0 .rw 0]⟩,
  -- WEAR_LOG
  ⟨0x84, [(16, 0x4)], [fld 31 0 .ro 0]⟩,
  -- WEAR_MIRROR
  ⟨0x100, [(21, 0x4)], [img 15 0 .rwl 0]⟩]

/-- The WEAR block. -/
def blkWEAR : Block :=
  ⟨0x1100000, [], (some 0x4), (some 0x18), 0x1120, .device, rowsWEAR0⟩

/-- Registers of the PEER block, part 0. -/
def rowsPEER0 : List RegRow := [
  -- PEER_ID
  ⟨0x0, [], [fldAt 0 0 .ro (.index 0 1)]⟩,
  -- PEER_CTL
  ⟨0x4, [], [fld 31 31 .w1s 0, img 29 24 .rwl 0, imgIn 23 16 .rwl 2 2 200, img 15 8 .rwl 0, img 7 0 .rwl 0]⟩,
  -- PEER_TIMEOUT_CNT
  ⟨0x10, [], [fld 31 0 .ro 0]⟩,
  -- PEER_REFUSED_CNT
  ⟨0x14, [], [fld 31 0 .ro 0]⟩,
  -- PEER_LOST_CNT
  ⟨0x18, [], [fld 31 0 .ro 0]⟩,
  -- PEER_LOCKVIOL
  ⟨0x1c, [], [fld 31 0 .ro 0]⟩,
  -- PEER_ROUTE
  ⟨0x100, [(64, 0x4)], [img 8 8 .rwl 0, img 7 0 .rwl 0]⟩,
  -- PEER_MAP
  ⟨0x200, [(64, 0x4)], [img 31 31 .rwl 0, img 12 0 .rwl 0]⟩,
  -- PEER_DEV
  ⟨0x300, [(64, 0x4)], [fld 31 31 .ro 0, fld 30 30 .ro 0]⟩,
  -- PEER_LINK_CFG
  ⟨0x1000, [(8, 0x40)], [imgIn 31 0 .rwl 1 1 4294967295]⟩,
  -- PEER_LINK_STATUS
  ⟨0x1004, [(8, 0x40)], [fld 31 29 .ro 0, fld 28 27 .ro 0, fld 26 26 .ro 0, fld 21 16 .ro 0, fld 4 0 .ro 0]⟩,
  -- PEER_LINK_CORR
  ⟨0x1008, [(8, 0x40)], [fld 31 0 .ro 0]⟩,
  -- PEER_LINK_REPLAY
  ⟨0x100c, [(8, 0x40)], [fld 31 0 .ro 0]⟩,
  -- PEER_LINK_TX_LO
  ⟨0x1010, [(8, 0x40)], [fld 31 0 .ro 0]⟩,
  -- PEER_LINK_TX_HI
  ⟨0x1014, [(8, 0x40)], [fld 31 0 .ro 0]⟩]

/-- The PEER block. -/
def blkPEER : Block :=
  ⟨0x1200000, [(2, 0x80000)], (some 0x4), (some 0x1c), 0x0F30, .per 1, rowsPEER0⟩

/-- Registers of the PCIE block, part 0. -/
def rowsPCIE0 : List RegRow := [
  -- PCIE_CTL
  ⟨0x0, [], [fld 31 31 .w1s 0, img 30 30 .rwl 0, img 29 28 .rwl 0, img 27 26 .rwl 0, img 25 25 .rwl 0, img 24 24 .rwl 0, imgIn 15 0 .rwl 50 50 50000]⟩,
  -- PCIE_OWNER
  ⟨0x4, [], [img 12 0 .rwl 0]⟩,
  -- PCIE_STATUS
  ⟨0x8, [], [fld 31 31 .ro 0, fld 29 28 .ro 0, fld 27 26 .ro 0]⟩,
  -- PCIE_CPL_TO_CNT
  ⟨0x10, [], [fld 31 0 .ro 0]⟩,
  -- PCIE_UR_CNT
  ⟨0x14, [], [fld 31 0 .ro 0]⟩,
  -- PCIE_AER_CNT
  ⟨0x18, [], [fld 31 0 .ro 0]⟩,
  -- PCIE_OB_MAP_LO
  ⟨0x100, [(16, 0x8)], [fld 31 26 .rw 0, fld 0 0 .rw 0]⟩,
  -- PCIE_OB_MAP_HI
  ⟨0x104, [(16, 0x8)], [fld 31 0 .rw 0]⟩]

/-- The PCIE block. -/
def blkPCIE : Block :=
  ⟨0x1204000, [(2, 0x80000)], (some 0x0), none, 0x0F30, .per 1, rowsPCIE0⟩

/-- Registers of the HIO block, part 0. -/
def rowsHIO0 : List RegRow := [
  -- HIO_ID
  ⟨0x0, [], [fldAt 0 0 .ro (.index 0 1)]⟩,
  -- HIO_CTL
  ⟨0x4, [], [fld 31 31 .w1s 0]⟩,
  -- HIO_LOCKVIOL
  ⟨0x8, [], [fld 15 0 .ro 0]⟩,
  -- HIO_PWM_CFG
  ⟨0x100, [(16, 0x10)], [img 31 31 .rwl 0, imgIn 23 0 .rwl 2500 2500 12500000]⟩,
  -- HIO_PWM_DUTY
  ⟨0x104, [(16, 0x10)], [fld 16 0 .rw 0]⟩,
  -- HIO_DO_CFG
  ⟨0x200, [(16, 0x4)], [fld 1 1 .rw 0, img 0 0 .rwl 0]⟩,
  -- HIO_ADC_SEQ
  ⟨0x300, [], [img 15 0 .rwl 0]⟩,
  -- HIO_ENC_CFG
  ⟨0x400, [(8, 0x10)], [imgIn 31 16 .rwl 1 1 65535, imgIn 7 0 .rwl 1 1 255]⟩,
  -- HIO_DI_CFG
  ⟨0x500, [(32, 0x10)], [img 31 31 .rwl 0, img 30 30 .rwl 0, img 29 28 .rwl 0, imgIn 16 0 .rwl 1 1 100000]⟩,
  -- HIO_DI_RATE
  ⟨0x504, [(32, 0x10)], [imgIn 31 24 .rwl 1 1 255, imgIn 23 14 .rwl 1 1 1000]⟩,
  -- HIO_DI_STUCK
  ⟨0x508, [(32, 0x10)], [img 15 0 .rwl 0]⟩,
  -- HIO_DI_NOTIFY
  ⟨0x50c, [(32, 0x10)], [img 31 31 .rwl 0, img 29 16 .rwl 0, img 12 0 .rwl 0]⟩,
  -- HIO_ADC_GAIN
  ⟨0x700, [(16, 0x10)], [img 31 0 .rwl 0]⟩,
  -- HIO_ADC_OFF
  ⟨0x704, [(16, 0x10)], [img 11 0 .rwl 0]⟩,
  -- HIO_ADC_WIN
  ⟨0x708, [(16, 0x10)], [img 27 16 .rwl 0, img 11 0 .rwl 0]⟩,
  -- HIO_DI_LEVEL
  ⟨0x1000, [], [fld 31 0 .ro 0]⟩]

/-- Registers of the HIO block, part 1. -/
def rowsHIO1 : List RegRow := [
  -- HIO_DI_CHATTER
  ⟨0x1004, [], [fld 31 0 .ro 0]⟩,
  -- HIO_DI_STUCK_ST
  ⟨0x1008, [], [fld 31 0 .ro 0]⟩,
  -- HIO_DO_STATE
  ⟨0x100c, [], [fld 31 16 .ro 0, fld 15 0 .ro 0]⟩,
  -- HIO_ADC_VAL
  ⟨0x1100, [(16, 0x4)], [fld 31 0 .ro 0]⟩,
  -- HIO_ENC_POS
  ⟨0x1200, [(8, 0x10)], [fld 31 0 .ro 0]⟩,
  -- HIO_ENC_VEL
  ⟨0x1204, [(8, 0x10)], [fld 31 0 .ro 0]⟩,
  -- HIO_ENC_ERR
  ⟨0x1208, [(8, 0x10)], [fld 15 0 .ro 0]⟩,
  -- HIO_DI_CNT
  ⟨0x1300, [(32, 0x4)], [fld 31 0 .ro 0]⟩]

/-- The HIO block. -/
def blkHIO : Block :=
  ⟨0x1300000, [(2, 0x80000)], (some 0x4), (some 0x8), 0x0938, .per 1, rowsHIO0 ++ rowsHIO1⟩

/-- Registers of the VI block, part 0. -/
def rowsVI0 : List RegRow := [
  -- VI_CTL
  ⟨0x0, [], [fld 31 31 .w1s 0, img 0 0 .rwl 0]⟩,
  -- VI_MGR
  ⟨0x4, [], [img 12 0 .rwl 0]⟩,
  -- VI_STATUS
  ⟨0x8, [], [fld 8 0 .ro 256]⟩,
  -- VI_CMD
  ⟨0x10, [], [fld 31 28 .wo 0, fld 7 0 .wo 0]⟩,
  -- VI_CMD_RESULT
  ⟨0x14, [], [fld 31 31 .ro 0, fld 27 24 .ro 0, fld 23 16 .ro 0, fld 7 0 .ro 0]⟩,
  -- VI_ARG
  ⟨0x20, [(8, 0x4)], [fld 31 0 .rw 0]⟩,
  -- VI_RCFG_SEL
  ⟨0x40, [], [fld 15 0 .rw 0]⟩,
  -- VI_RCFG
  ⟨0x44, [(5, 0x4)], [fld 31 0 .rw 0]⟩,
  -- VI_LOCKVIOL
  ⟨0x60, [], [fld 15 0 .ro 0]⟩,
  -- VI_SELF_SEL
  ⟨0x1000, [], [fld 15 0 .rw 0]⟩,
  -- VI_SELF
  ⟨0x1004, [(5, 0x4)], [fld 31 0 .rw 0]⟩,
  -- VI_INST_STATE
  ⟨0x4000, [(256, 0x20)], [fld 31 29 .ro 0, fld 28 28 .ro 0, fld 27 27 .ro 0, fld 24 24 .rw 0, fld 23 20 .rw 0, fld 15 8 .rw 0]⟩,
  -- VI_INST_RINGS
  ⟨0x4004, [(256, 0x20)], [fld 31 16 .rw 0, fld 8 0 .rw 0]⟩,
  -- VI_INST_DOWELS
  ⟨0x4008, [(256, 0x20)], [fld 29 16 .rw 0, fld 8 0 .rw 0]⟩,
  -- VI_INST_PCI
  ⟨0x400c, [(256, 0x20)], [fld 31 31 .rw 0, fld 30 30 .rw 0, fld 27 20 .rw 0, fld 19 0 .rw 0]⟩,
  -- VI_INST_MEM_H_FIRST
  ⟨0x4010, [(256, 0x20)], [fld 19 0 .rw 0]⟩]

/-- Registers of the VI block, part 1. -/
def rowsVI1 : List RegRow := [
  -- VI_INST_MEM_H_N
  ⟨0x4014, [(256, 0x20)], [fld 19 0 .rw 0]⟩,
  -- VI_INST_MEM_T_FIRST
  ⟨0x4018, [(256, 0x20)], [fld 19 0 .rw 0]⟩,
  -- VI_INST_MEM_T_N
  ⟨0x401c, [(256, 0x20)], [fld 19 0 .rw 0]⟩]

/-- The VI block. -/
def blkVI : Block :=
  ⟨0x1400000, [], (some 0x0), (some 0x60), 0x0620, .device, rowsVI0 ++ rowsVI1⟩

/-- Registers of the RING block, part 0. -/
def rowsRING0 : List RegRow := [
  -- RING_DB
  ⟨0x0, [], [fld 31 0 .wo 0]⟩,
  -- RING_TAIL
  ⟨0x4, [], [fld 31 0 .ro 0]⟩,
  -- RING_HEAD
  ⟨0x8, [], [fld 31 0 .ro 0]⟩,
  -- RING_STATUS
  ⟨0xc, [], [fld 31 31 .ro 0, fld 30 30 .ro 1, fld 29 29 .ro 0, fld 28 28 .ro 0, fld 27 27 .ro 0, fld 26 26 .ro 0, fld 15 0 .ro 0]⟩,
  -- RING_DONE_LO
  ⟨0x10, [], [fld 31 0 .ro 0]⟩,
  -- RING_DONE_HI
  ⟨0x14, [], [fld 31 0 .ro 0]⟩,
  -- RING_BAD_DB
  ⟨0x18, [], [fld 15 0 .ro 0]⟩,
  -- RING_CFG
  ⟨0x800, [], [fld 31 31 .rw 0, fld 30 30 .rw 0, fld 29 29 .rw 0, fld 20 16 .rw 0, fld 1 0 .rw 0]⟩,
  -- RING_BASE_LO
  ⟨0x804, [], [fld 31 12 .rw 0]⟩,
  -- RING_BASE_HI
  ⟨0x808, [], [fld 15 0 .rw 0]⟩,
  -- RING_LINK
  ⟨0x80c, [], [fld 31 16 .rw 0, fld 15 0 .rw 0]⟩,
  -- RING_IRQ
  ⟨0x810, [], [fld 31 31 .rw 0, fld 9 0 .rw 0]⟩]

/-- The RING block. -/
def blkRING : Block :=
  ⟨0x10000000, [(65536, 0x1000)], none, none, 0x0428, (.per 32768), rowsRING0⟩

/-- Registers of the DOWEL block, part 0. -/
def rowsDOWEL0 : List RegRow := [
  -- DOWEL_VAL_LO
  ⟨0x0, [], [fld 31 0 .ro 0]⟩,
  -- DOWEL_VAL_HI
  ⟨0x4, [], [fld 31 0 .ro 0]⟩,
  -- DOWEL_ARG_LO
  ⟨0x8, [], [fld 31 0 .wo 0]⟩,
  -- DOWEL_MAX_HI
  ⟨0xc, [], [fld 31 0 .wo 0]⟩,
  -- DOWEL_ADD_HI
  ⟨0x10, [], [fld 31 0 .wo 0]⟩,
  -- DOWEL_ADD32
  ⟨0x14, [], [fld 31 0 .wo 0]⟩,
  -- DOWEL_NOTIFY_LO
  ⟨0x18, [], [fld 31 0 .wo 0]⟩,
  -- DOWEL_NOTIFY_HI
  ⟨0x1c, [], [fld 31 0 .wo 0]⟩,
  -- DOWEL_ATTR
  ⟨0x80, [], [fld 31 31 .ro 0, fld 17 16 .rw 0, fld 12 0 .rw 0]⟩,
  -- DOWEL_READER
  ⟨0x84, [], [fld 12 0 .rw 0]⟩,
  -- DOWEL_WAITS
  ⟨0x88, [], [fld 31 16 .ro 0x2000, fld 13 0 .ro 0]⟩]

/-- The DOWEL block. -/
def blkDOWEL : Block :=
  ⟨0x20000000, [(16384, 0x100)], none, none, 0x0428, (.per 8192), rowsDOWEL0⟩

/-- Every register block, in the order of R201. -/
def blocks : List Block :=
  [blkSYS, blkOWN, blkSCHED, blkARRAY, blkBENCH, blkCARRIAGE, blkMEM, blkKVL, blkPARTING, blkCALLIPER, blkSLOT, blkAUTH] ++
  [blkSTEADY, blkGW, blkINTAKE, blkSCAN, blkCVU, blkTIME, blkSEC, blkPOWER, blkWEAR, blkPEER, blkPCIE, blkHIO, blkVI, blkRING, blkDOWEL]

end Sys2Proof.Machine
end

