-- ==== Sys2Proof/Machine/Regs.lean ====
section
/-! DEFINITION. The names of the registers and of their fields: `Reg.<NAME>` is the address of a register at its
indices, `F.<REGISTER>_<FIELD>` the place of a field (the register tables of every chapter). -/

namespace Sys2Proof.Machine

/-- `SYS_ID`. -/
def Reg.SYS_ID : Nat := 0x0
def F.SYS_ID_PART : RF := ⟨Reg.SYS_ID, 16, 16⟩
def F.SYS_ID_STEPPING : RF := ⟨Reg.SYS_ID, 8, 8⟩
/-- `SYS_START`. -/
def Reg.SYS_START (i : Nat) : Nat := 0x10 + i * 0x4
def F.SYS_START_PHASE (i : Nat) : RF := ⟨(Reg.SYS_START i), 28, 4⟩
def F.SYS_START_IMG_COPY (i : Nat) : RF := ⟨(Reg.SYS_START i), 27, 1⟩
def F.SYS_START_IMG_PEER (i : Nat) : RF := ⟨(Reg.SYS_START i), 26, 1⟩
def F.SYS_START_A_REJ (i : Nat) : RF := ⟨(Reg.SYS_START i), 25, 1⟩
def F.SYS_START_B_REJ (i : Nat) : RF := ⟨(Reg.SYS_START i), 24, 1⟩
def F.SYS_START_CAUSE (i : Nat) : RF := ⟨(Reg.SYS_START i), 20, 4⟩
def F.SYS_START_MS (i : Nat) : RF := ⟨(Reg.SYS_START i), 0, 20⟩
/-- `SYS_IMG_VER`. -/
def Reg.SYS_IMG_VER : Nat := 0x20
def F.SYS_IMG_VER_VALUE : RF := ⟨Reg.SYS_IMG_VER, 0, 32⟩
/-- `SYS_IMG_DIGEST`. -/
def Reg.SYS_IMG_DIGEST (i : Nat) : Nat := 0x40 + i * 0x4
def F.SYS_IMG_DIGEST_VALUE (i : Nat) : RF := ⟨(Reg.SYS_IMG_DIGEST i), 0, 32⟩
/-- `SYS_CLAMP_CNT`. -/
def Reg.SYS_CLAMP_CNT : Nat := 0x80
def F.SYS_CLAMP_CNT_OVERFLOW : RF := ⟨Reg.SYS_CLAMP_CNT, 31, 1⟩
def F.SYS_CLAMP_CNT_ENTRIES : RF := ⟨Reg.SYS_CLAMP_CNT, 20, 11⟩
def F.SYS_CLAMP_CNT_COUNT : RF := ⟨Reg.SYS_CLAMP_CNT, 0, 20⟩
/-- `SYS_RESET`. -/
def Reg.SYS_RESET : Nat := 0x90
def F.SYS_RESET_KEY : RF := ⟨Reg.SYS_RESET, 8, 8⟩
def F.SYS_RESET_DEVICE : RF := ⟨Reg.SYS_RESET, 2, 1⟩
def F.SYS_RESET_HALF_T : RF := ⟨Reg.SYS_RESET, 1, 1⟩
def F.SYS_RESET_HALF_H : RF := ⟨Reg.SYS_RESET, 0, 1⟩
/-- `SYS_LOCKVIOL`. -/
def Reg.SYS_LOCKVIOL : Nat := 0x94
def F.SYS_LOCKVIOL_COUNT : RF := ⟨Reg.SYS_LOCKVIOL, 0, 16⟩
/-- `SYS_CLAMP`. -/
def Reg.SYS_CLAMP (i j : Nat) : Nat := 0x8000 + i * 0x20 + j * 0x4
def F.SYS_CLAMP_DATA (i j : Nat) : RF := ⟨(Reg.SYS_CLAMP i j), 0, 32⟩
/-- `OWN_CTL`. -/
def Reg.OWN_CTL : Nat := 0x100000
def F.OWN_CTL_LOCK : RF := ⟨Reg.OWN_CTL, 31, 1⟩
def F.OWN_CTL_EVT_CHG_EN : RF := ⟨Reg.OWN_CTL, 0, 1⟩
/-- `OWN_SEL`. -/
def Reg.OWN_SEL : Nat := 0x100004
def F.OWN_SEL_INDEX : RF := ⟨Reg.OWN_SEL, 0, 21⟩
/-- `OWN_ENTRY`. -/
def Reg.OWN_ENTRY : Nat := 0x100008
def F.OWN_ENTRY_ENTRY : RF := ⟨Reg.OWN_ENTRY, 0, 32⟩
/-- `OWN_CHG_FIRST`. -/
def Reg.OWN_CHG_FIRST : Nat := 0x100010
def F.OWN_CHG_FIRST_INDEX : RF := ⟨Reg.OWN_CHG_FIRST, 0, 21⟩
/-- `OWN_CHG_COUNT`. -/
def Reg.OWN_CHG_COUNT : Nat := 0x100014
def F.OWN_CHG_COUNT_INDEX : RF := ⟨Reg.OWN_CHG_COUNT, 0, 21⟩
/-- `OWN_CHG_NEW`. -/
def Reg.OWN_CHG_NEW : Nat := 0x100018
def F.OWN_CHG_NEW_VALUE : RF := ⟨Reg.OWN_CHG_NEW, 0, 24⟩
/-- `OWN_CHG_CMD`. -/
def Reg.OWN_CHG_CMD : Nat := 0x10001c
def F.OWN_CHG_CMD_OP : RF := ⟨Reg.OWN_CHG_CMD, 28, 4⟩
def F.OWN_CHG_CMD_ZERO : RF := ⟨Reg.OWN_CHG_CMD, 27, 1⟩
/-- `OWN_CHG_STATUS`. -/
def Reg.OWN_CHG_STATUS : Nat := 0x100020
def F.OWN_CHG_STATUS_BUSY : RF := ⟨Reg.OWN_CHG_STATUS, 31, 1⟩
def F.OWN_CHG_STATUS_RESULT : RF := ⟨Reg.OWN_CHG_STATUS, 0, 8⟩
/-- `OWN_CHG_CNT`. -/
def Reg.OWN_CHG_CNT : Nat := 0x100024
def F.OWN_CHG_CNT_COUNT : RF := ⟨Reg.OWN_CHG_CNT, 0, 32⟩
/-- `OWN_REFUSED`. -/
def Reg.OWN_REFUSED : Nat := 0x100028
def F.OWN_REFUSED_COUNT : RF := ⟨Reg.OWN_REFUSED, 0, 32⟩
/-- `OWN_ECC`. -/
def Reg.OWN_ECC : Nat := 0x10002c
def F.OWN_ECC_COUNT : RF := ⟨Reg.OWN_ECC, 0, 32⟩
/-- `OWN_LOCKVIOL`. -/
def Reg.OWN_LOCKVIOL : Nat := 0x100030
def F.OWN_LOCKVIOL_COUNT : RF := ⟨Reg.OWN_LOCKVIOL, 0, 32⟩
/-- `SCHED_CTL`. -/
def Reg.SCHED_CTL : Nat := 0x200000
def F.SCHED_CTL_LOCK : RF := ⟨Reg.SCHED_CTL, 31, 1⟩
def F.SCHED_CTL_BOOST_EN : RF := ⟨Reg.SCHED_CTL, 16, 1⟩
def F.SCHED_CTL_MARK_WAIT : RF := ⟨Reg.SCHED_CTL, 8, 8⟩
/-- `SCHED_QUANTUM`. -/
def Reg.SCHED_QUANTUM : Nat := 0x200004
def F.SCHED_QUANTUM_QUANTUM_US : RF := ⟨Reg.SCHED_QUANTUM, 0, 16⟩
/-- `SCHED_ROUGH`. -/
def Reg.SCHED_ROUGH : Nat := 0x200008
def F.SCHED_ROUGH_BENCH_T : RF := ⟨Reg.SCHED_ROUGH, 27, 5⟩
def F.SCHED_ROUGH_BENCH_H : RF := ⟨Reg.SCHED_ROUGH, 22, 5⟩
def F.SCHED_ROUGH_ARR_T : RF := ⟨Reg.SCHED_ROUGH, 19, 3⟩
def F.SCHED_ROUGH_ARR_H : RF := ⟨Reg.SCHED_ROUGH, 16, 3⟩
def F.SCHED_ROUGH_PART : RF := ⟨Reg.SCHED_ROUGH, 0, 4⟩
/-- `SCHED_SAVE_FULL_LO`. -/
def Reg.SCHED_SAVE_FULL_LO : Nat := 0x200010
def F.SCHED_SAVE_FULL_LO_COUNT : RF := ⟨Reg.SCHED_SAVE_FULL_LO, 0, 32⟩
/-- `SCHED_SAVE_FULL_HI`. -/
def Reg.SCHED_SAVE_FULL_HI : Nat := 0x200014
def F.SCHED_SAVE_FULL_HI_COUNT : RF := ⟨Reg.SCHED_SAVE_FULL_HI, 0, 32⟩
/-- `SCHED_SAVE_CMD_LO`. -/
def Reg.SCHED_SAVE_CMD_LO : Nat := 0x200018
def F.SCHED_SAVE_CMD_LO_COUNT : RF := ⟨Reg.SCHED_SAVE_CMD_LO, 0, 32⟩
/-- `SCHED_SAVE_CMD_HI`. -/
def Reg.SCHED_SAVE_CMD_HI : Nat := 0x20001c
def F.SCHED_SAVE_CMD_HI_COUNT : RF := ⟨Reg.SCHED_SAVE_CMD_HI, 0, 32⟩
/-- `SCHED_EVICT_CNT`. -/
def Reg.SCHED_EVICT_CNT : Nat := 0x200020
def F.SCHED_EVICT_CNT_COUNT : RF := ⟨Reg.SCHED_EVICT_CNT, 0, 32⟩
/-- `SCHED_SLOT_LATE`. -/
def Reg.SCHED_SLOT_LATE : Nat := 0x200024
def F.SCHED_SLOT_LATE_COUNT : RF := ⟨Reg.SCHED_SLOT_LATE, 0, 32⟩
/-- `SCHED_NOROOM_CNT`. -/
def Reg.SCHED_NOROOM_CNT : Nat := 0x200028
def F.SCHED_NOROOM_CNT_COUNT : RF := ⟨Reg.SCHED_NOROOM_CNT, 0, 32⟩
/-- `SCHED_LOCKVIOL`. -/
def Reg.SCHED_LOCKVIOL : Nat := 0x20002c
def F.SCHED_LOCKVIOL_COUNT : RF := ⟨Reg.SCHED_LOCKVIOL, 0, 16⟩
/-- `SCHED_PART_CFG`. -/
def Reg.SCHED_PART_CFG (i : Nat) : Nat := 0x200100 + i * 0x20
def F.SCHED_PART_CFG_VALID (i : Nat) : RF := ⟨(Reg.SCHED_PART_CFG i), 31, 1⟩
def F.SCHED_PART_CFG_STRICT_H (i : Nat) : RF := ⟨(Reg.SCHED_PART_CFG i), 30, 1⟩
def F.SCHED_PART_CFG_STRICT_S (i : Nat) : RF := ⟨(Reg.SCHED_PART_CFG i), 29, 1⟩
def F.SCHED_PART_CFG_LEND (i : Nat) : RF := ⟨(Reg.SCHED_PART_CFG i), 28, 1⟩
def F.SCHED_PART_CFG_CLASS (i : Nat) : RF := ⟨(Reg.SCHED_PART_CFG i), 26, 2⟩
def F.SCHED_PART_CFG_WEIGHT (i : Nat) : RF := ⟨(Reg.SCHED_PART_CFG i), 18, 8⟩
def F.SCHED_PART_CFG_ARRAYS (i : Nat) : RF := ⟨(Reg.SCHED_PART_CFG i), 10, 8⟩
def F.SCHED_PART_CFG_SLOWDOWN (i : Nat) : RF := ⟨(Reg.SCHED_PART_CFG i), 4, 6⟩
/-- `SCHED_PART_BW`. -/
def Reg.SCHED_PART_BW (i : Nat) : Nat := 0x200104 + i * 0x20
def F.SCHED_PART_BW_DRAM_H (i : Nat) : RF := ⟨(Reg.SCHED_PART_BW i), 24, 8⟩
def F.SCHED_PART_BW_DRAM_T (i : Nat) : RF := ⟨(Reg.SCHED_PART_BW i), 16, 8⟩
def F.SCHED_PART_BW_LINK_HT (i : Nat) : RF := ⟨(Reg.SCHED_PART_BW i), 8, 8⟩
def F.SCHED_PART_BW_LINK_TH (i : Nat) : RF := ⟨(Reg.SCHED_PART_BW i), 0, 8⟩
/-- `SCHED_PART_RSV`. -/
def Reg.SCHED_PART_RSV (i : Nat) : Nat := 0x200108 + i * 0x20
def F.SCHED_PART_RSV_WAIT_RSV (i : Nat) : RF := ⟨(Reg.SCHED_PART_RSV i), 20, 12⟩
def F.SCHED_PART_RSV_TXN_RSV (i : Nat) : RF := ⟨(Reg.SCHED_PART_RSV i), 6, 14⟩
/-- `SCHED_PART_BENCH`. -/
def Reg.SCHED_PART_BENCH (i : Nat) : Nat := 0x20010c + i * 0x20
def F.SCHED_PART_BENCH_BENCHES (i : Nat) : RF := ⟨(Reg.SCHED_PART_BENCH i), 0, 32⟩
/-- `SCHED_PART_MEM_H`. -/
def Reg.SCHED_PART_MEM_H (i : Nat) : Nat := 0x200110 + i * 0x20
def F.SCHED_PART_MEM_H_GRANULES (i : Nat) : RF := ⟨(Reg.SCHED_PART_MEM_H i), 0, 19⟩
/-- `SCHED_PART_MEM_T`. -/
def Reg.SCHED_PART_MEM_T (i : Nat) : Nat := 0x200114 + i * 0x20
def F.SCHED_PART_MEM_T_GRANULES (i : Nat) : RF := ⟨(Reg.SCHED_PART_MEM_T i), 0, 19⟩
/-- `SCHED_PART_SAVE`. -/
def Reg.SCHED_PART_SAVE (i : Nat) : Nat := 0x200118 + i * 0x20
def F.SCHED_PART_SAVE_SAVE_BENCH (i : Nat) : RF := ⟨(Reg.SCHED_PART_SAVE i), 8, 8⟩
def F.SCHED_PART_SAVE_SAVE_ARR (i : Nat) : RF := ⟨(Reg.SCHED_PART_SAVE i), 0, 4⟩
/-- `SCHED_SLOT`. -/
def Reg.SCHED_SLOT (i j : Nat) : Nat := 0x201000 + i * 0x100 + j * 0x4
def F.SCHED_SLOT_VALID (i j : Nat) : RF := ⟨(Reg.SCHED_SLOT i j), 31, 1⟩
def F.SCHED_SLOT_OPEN (i j : Nat) : RF := ⟨(Reg.SCHED_SLOT i j), 30, 1⟩
def F.SCHED_SLOT_WORLD (i j : Nat) : RF := ⟨(Reg.SCHED_SLOT i j), 24, 1⟩
def F.SCHED_SLOT_PART (i j : Nat) : RF := ⟨(Reg.SCHED_SLOT i j), 20, 4⟩
def F.SCHED_SLOT_LEN_US (i j : Nat) : RF := ⟨(Reg.SCHED_SLOT i j), 0, 12⟩
/-- `ARRAY_ID`. -/
def Reg.ARRAY_ID (i : Nat) : Nat := 0x300000 + i * 0x10000
def F.ARRAY_ID_PHYS_COLS (i : Nat) : RF := ⟨(Reg.ARRAY_ID i), 22, 10⟩
def F.ARRAY_ID_PHYS_ROWS (i : Nat) : RF := ⟨(Reg.ARRAY_ID i), 14, 8⟩
def F.ARRAY_ID_HALF (i : Nat) : RF := ⟨(Reg.ARRAY_ID i), 3, 1⟩
def F.ARRAY_ID_INDEX (i : Nat) : RF := ⟨(Reg.ARRAY_ID i), 0, 3⟩
/-- `ARRAY_CTL`. -/
def Reg.ARRAY_CTL (i : Nat) : Nat := 0x300004 + i * 0x10000
def F.ARRAY_CTL_LOCK (i : Nat) : RF := ⟨(Reg.ARRAY_CTL i), 31, 1⟩
def F.ARRAY_CTL_EVT_CORR_EN (i : Nat) : RF := ⟨(Reg.ARRAY_CTL i), 1, 1⟩
def F.ARRAY_CTL_ENABLE (i : Nat) : RF := ⟨(Reg.ARRAY_CTL i), 0, 1⟩
/-- `ARRAY_STATUS`. -/
def Reg.ARRAY_STATUS (i : Nat) : Nat := 0x300008 + i * 0x10000
def F.ARRAY_STATUS_OWNER (i : Nat) : RF := ⟨(Reg.ARRAY_STATUS i), 19, 13⟩
def F.ARRAY_STATUS_SAVE_RESTORE (i : Nat) : RF := ⟨(Reg.ARRAY_STATUS i), 6, 1⟩
def F.ARRAY_STATUS_REMAP (i : Nat) : RF := ⟨(Reg.ARRAY_STATUS i), 5, 1⟩
def F.ARRAY_STATUS_BLANK (i : Nat) : RF := ⟨(Reg.ARRAY_STATUS i), 4, 1⟩
def F.ARRAY_STATUS_DRAIN (i : Nat) : RF := ⟨(Reg.ARRAY_STATUS i), 3, 1⟩
def F.ARRAY_STATUS_STREAM (i : Nat) : RF := ⟨(Reg.ARRAY_STATUS i), 2, 1⟩
def F.ARRAY_STATUS_LOAD (i : Nat) : RF := ⟨(Reg.ARRAY_STATUS i), 1, 1⟩
def F.ARRAY_STATUS_RETIRED (i : Nat) : RF := ⟨(Reg.ARRAY_STATUS i), 0, 1⟩
/-- `ARRAY_ROWMAP`. -/
def Reg.ARRAY_ROWMAP (i j : Nat) : Nat := 0x300010 + i * 0x10000 + j * 0x4
def F.ARRAY_ROWMAP_VALID (i j : Nat) : RF := ⟨(Reg.ARRAY_ROWMAP i j), 31, 1⟩
def F.ARRAY_ROWMAP_ROW (i j : Nat) : RF := ⟨(Reg.ARRAY_ROWMAP i j), 0, 7⟩
/-- `ARRAY_COLMAP`. -/
def Reg.ARRAY_COLMAP (i j : Nat) : Nat := 0x300020 + i * 0x10000 + j * 0x4
def F.ARRAY_COLMAP_VALID (i j : Nat) : RF := ⟨(Reg.ARRAY_COLMAP i j), 31, 1⟩
def F.ARRAY_COLMAP_COL (i j : Nat) : RF := ⟨(Reg.ARRAY_COLMAP i j), 0, 10⟩
/-- `ARRAY_SPARES`. -/
def Reg.ARRAY_SPARES (i : Nat) : Nat := 0x300040 + i * 0x10000
def F.ARRAY_SPARES_STORE_ROWS_FREE (i : Nat) : RF := ⟨(Reg.ARRAY_SPARES i), 16, 9⟩
def F.ARRAY_SPARES_COLS_FREE (i : Nat) : RF := ⟨(Reg.ARRAY_SPARES i), 8, 4⟩
def F.ARRAY_SPARES_ROWS_FREE (i : Nat) : RF := ⟨(Reg.ARRAY_SPARES i), 0, 3⟩
/-- `ARRAY_CMD_CNT_LO`. -/
def Reg.ARRAY_CMD_CNT_LO (i : Nat) : Nat := 0x300048 + i * 0x10000
def F.ARRAY_CMD_CNT_LO_COUNT (i : Nat) : RF := ⟨(Reg.ARRAY_CMD_CNT_LO i), 0, 32⟩
/-- `ARRAY_CMD_CNT_HI`. -/
def Reg.ARRAY_CMD_CNT_HI (i : Nat) : Nat := 0x30004c + i * 0x10000
def F.ARRAY_CMD_CNT_HI_COUNT (i : Nat) : RF := ⟨(Reg.ARRAY_CMD_CNT_HI i), 0, 32⟩
/-- `ARRAY_BUSY_LO`. -/
def Reg.ARRAY_BUSY_LO (i : Nat) : Nat := 0x300050 + i * 0x10000
def F.ARRAY_BUSY_LO_CYCLES (i : Nat) : RF := ⟨(Reg.ARRAY_BUSY_LO i), 0, 32⟩
/-- `ARRAY_BUSY_HI`. -/
def Reg.ARRAY_BUSY_HI (i : Nat) : Nat := 0x300054 + i * 0x10000
def F.ARRAY_BUSY_HI_CYCLES (i : Nat) : RF := ⟨(Reg.ARRAY_BUSY_HI i), 0, 32⟩
/-- `ARRAY_SAT_CNT`. -/
def Reg.ARRAY_SAT_CNT (i : Nat) : Nat := 0x300058 + i * 0x10000
def F.ARRAY_SAT_CNT_COUNT (i : Nat) : RF := ⟨(Reg.ARRAY_SAT_CNT i), 0, 32⟩
/-- `ARRAY_ECC`. -/
def Reg.ARRAY_ECC (i : Nat) : Nat := 0x30005c + i * 0x10000
def F.ARRAY_ECC_UNCORR (i : Nat) : RF := ⟨(Reg.ARRAY_ECC i), 16, 16⟩
def F.ARRAY_ECC_CORR (i : Nat) : RF := ⟨(Reg.ARRAY_ECC i), 0, 16⟩
/-- `ARRAY_LOCKVIOL`. -/
def Reg.ARRAY_LOCKVIOL (i : Nat) : Nat := 0x300060 + i * 0x10000
def F.ARRAY_LOCKVIOL_COUNT (i : Nat) : RF := ⟨(Reg.ARRAY_LOCKVIOL i), 0, 16⟩
/-- `ARRAY_RETIRE`. -/
def Reg.ARRAY_RETIRE (i : Nat) : Nat := 0x300064 + i * 0x10000
def F.ARRAY_RETIRE_RETIRE (i : Nat) : RF := ⟨(Reg.ARRAY_RETIRE i), 0, 1⟩
/-- `BENCH_ID`. -/
def Reg.BENCH_ID (i : Nat) : Nat := 0x400000 + i * 0x8000
def F.BENCH_ID_PHYS_CORES (i : Nat) : RF := ⟨(Reg.BENCH_ID i), 16, 7⟩
def F.BENCH_ID_HALF (i : Nat) : RF := ⟨(Reg.BENCH_ID i), 5, 1⟩
def F.BENCH_ID_INDEX (i : Nat) : RF := ⟨(Reg.BENCH_ID i), 0, 5⟩
/-- `BENCH_CTL`. -/
def Reg.BENCH_CTL (i : Nat) : Nat := 0x400004 + i * 0x8000
def F.BENCH_CTL_LOCK (i : Nat) : RF := ⟨(Reg.BENCH_CTL i), 31, 1⟩
def F.BENCH_CTL_TEST_EN (i : Nat) : RF := ⟨(Reg.BENCH_CTL i), 2, 1⟩
def F.BENCH_CTL_EVT_CORR_EN (i : Nat) : RF := ⟨(Reg.BENCH_CTL i), 1, 1⟩
def F.BENCH_CTL_ENABLE (i : Nat) : RF := ⟨(Reg.BENCH_CTL i), 0, 1⟩
/-- `BENCH_STATUS`. -/
def Reg.BENCH_STATUS (i : Nat) : Nat := 0x400008 + i * 0x8000
def F.BENCH_STATUS_OWNER (i : Nat) : RF := ⟨(Reg.BENCH_STATUS i), 19, 13⟩
def F.BENCH_STATUS_SAVE_RESTORE (i : Nat) : RF := ⟨(Reg.BENCH_STATUS i), 3, 1⟩
def F.BENCH_STATUS_TEST (i : Nat) : RF := ⟨(Reg.BENCH_STATUS i), 2, 1⟩
def F.BENCH_STATUS_BUSY (i : Nat) : RF := ⟨(Reg.BENCH_STATUS i), 1, 1⟩
def F.BENCH_STATUS_RETIRED (i : Nat) : RF := ⟨(Reg.BENCH_STATUS i), 0, 1⟩
/-- `BENCH_CORES`. -/
def Reg.BENCH_CORES (i : Nat) : Nat := 0x40000c + i * 0x8000
def F.BENCH_CORES_ROWS_FREE (i : Nat) : RF := ⟨(Reg.BENCH_CORES i), 24, 8⟩
def F.BENCH_CORES_HEALTHY (i : Nat) : RF := ⟨(Reg.BENCH_CORES i), 16, 7⟩
def F.BENCH_CORES_SPARES_FREE (i : Nat) : RF := ⟨(Reg.BENCH_CORES i), 8, 3⟩
def F.BENCH_CORES_IN_SERVICE (i : Nat) : RF := ⟨(Reg.BENCH_CORES i), 0, 7⟩
/-- `BENCH_TASK_CNT_LO`. -/
def Reg.BENCH_TASK_CNT_LO (i : Nat) : Nat := 0x400010 + i * 0x8000
def F.BENCH_TASK_CNT_LO_COUNT (i : Nat) : RF := ⟨(Reg.BENCH_TASK_CNT_LO i), 0, 32⟩
/-- `BENCH_TASK_CNT_HI`. -/
def Reg.BENCH_TASK_CNT_HI (i : Nat) : Nat := 0x400014 + i * 0x8000
def F.BENCH_TASK_CNT_HI_COUNT (i : Nat) : RF := ⟨(Reg.BENCH_TASK_CNT_HI i), 0, 32⟩
/-- `BENCH_BUSY_LO`. -/
def Reg.BENCH_BUSY_LO (i : Nat) : Nat := 0x400018 + i * 0x8000
def F.BENCH_BUSY_LO_CYCLES (i : Nat) : RF := ⟨(Reg.BENCH_BUSY_LO i), 0, 32⟩
/-- `BENCH_BUSY_HI`. -/
def Reg.BENCH_BUSY_HI (i : Nat) : Nat := 0x40001c + i * 0x8000
def F.BENCH_BUSY_HI_CYCLES (i : Nat) : RF := ⟨(Reg.BENCH_BUSY_HI i), 0, 32⟩
/-- `BENCH_CLAMP_CNT`. -/
def Reg.BENCH_CLAMP_CNT (i : Nat) : Nat := 0x400020 + i * 0x8000
def F.BENCH_CLAMP_CNT_COUNT (i : Nat) : RF := ⟨(Reg.BENCH_CLAMP_CNT i), 0, 32⟩
/-- `BENCH_ECC`. -/
def Reg.BENCH_ECC (i : Nat) : Nat := 0x400024 + i * 0x8000
def F.BENCH_ECC_UNCORR (i : Nat) : RF := ⟨(Reg.BENCH_ECC i), 16, 16⟩
def F.BENCH_ECC_CORR (i : Nat) : RF := ⟨(Reg.BENCH_ECC i), 0, 16⟩
/-- `BENCH_LOCKVIOL`. -/
def Reg.BENCH_LOCKVIOL (i : Nat) : Nat := 0x400028 + i * 0x8000
def F.BENCH_LOCKVIOL_COUNT (i : Nat) : RF := ⟨(Reg.BENCH_LOCKVIOL i), 0, 16⟩
/-- `BENCH_RETIRE`. -/
def Reg.BENCH_RETIRE (i : Nat) : Nat := 0x40002c + i * 0x8000
def F.BENCH_RETIRE_RETIRE (i : Nat) : RF := ⟨(Reg.BENCH_RETIRE i), 0, 1⟩
/-- `BENCH_MAP`. -/
def Reg.BENCH_MAP (i j : Nat) : Nat := 0x400100 + i * 0x8000 + j * 0x4
def F.BENCH_MAP_VALID (i j : Nat) : RF := ⟨(Reg.BENCH_MAP i j), 31, 1⟩
def F.BENCH_MAP_PHYS (i j : Nat) : RF := ⟨(Reg.BENCH_MAP i j), 0, 6⟩
/-- `CARRIAGE_ID`. -/
def Reg.CARRIAGE_ID (i : Nat) : Nat := 0x500000 + i * 0x10000
def F.CARRIAGE_ID_HALF (i : Nat) : RF := ⟨(Reg.CARRIAGE_ID i), 4, 1⟩
def F.CARRIAGE_ID_INDEX (i : Nat) : RF := ⟨(Reg.CARRIAGE_ID i), 0, 4⟩
/-- `CARRIAGE_CTL`. -/
def Reg.CARRIAGE_CTL (i : Nat) : Nat := 0x500004 + i * 0x10000
def F.CARRIAGE_CTL_LOCK (i : Nat) : RF := ⟨(Reg.CARRIAGE_CTL i), 31, 1⟩
def F.CARRIAGE_CTL_PREFETCH_EN (i : Nat) : RF := ⟨(Reg.CARRIAGE_CTL i), 1, 1⟩
def F.CARRIAGE_CTL_ENABLE (i : Nat) : RF := ⟨(Reg.CARRIAGE_CTL i), 0, 1⟩
/-- `CARRIAGE_STATUS`. -/
def Reg.CARRIAGE_STATUS (i : Nat) : Nat := 0x500008 + i * 0x10000
def F.CARRIAGE_STATUS_OWNER (i : Nat) : RF := ⟨(Reg.CARRIAGE_STATUS i), 19, 13⟩
def F.CARRIAGE_STATUS_SAVE_RESTORE (i : Nat) : RF := ⟨(Reg.CARRIAGE_STATUS i), 7, 1⟩
def F.CARRIAGE_STATUS_ACTIVE (i : Nat) : RF := ⟨(Reg.CARRIAGE_STATUS i), 0, 6⟩
/-- `CARRIAGE_TXN`. -/
def Reg.CARRIAGE_TXN (i : Nat) : Nat := 0x50000c + i * 0x10000
def F.CARRIAGE_TXN_HALF_INUSE (i : Nat) : RF := ⟨(Reg.CARRIAGE_TXN i), 16, 15⟩
def F.CARRIAGE_TXN_OWN_INUSE (i : Nat) : RF := ⟨(Reg.CARRIAGE_TXN i), 0, 13⟩
/-- `CARRIAGE_TXN_MAX`. -/
def Reg.CARRIAGE_TXN_MAX (i : Nat) : Nat := 0x500010 + i * 0x10000
def F.CARRIAGE_TXN_MAX_HALF_MAX (i : Nat) : RF := ⟨(Reg.CARRIAGE_TXN_MAX i), 16, 15⟩
def F.CARRIAGE_TXN_MAX_OWN_MAX (i : Nat) : RF := ⟨(Reg.CARRIAGE_TXN_MAX i), 0, 13⟩
/-- `CARRIAGE_MOVE_CNT_LO`. -/
def Reg.CARRIAGE_MOVE_CNT_LO (i : Nat) : Nat := 0x500018 + i * 0x10000
def F.CARRIAGE_MOVE_CNT_LO_COUNT (i : Nat) : RF := ⟨(Reg.CARRIAGE_MOVE_CNT_LO i), 0, 32⟩
/-- `CARRIAGE_MOVE_CNT_HI`. -/
def Reg.CARRIAGE_MOVE_CNT_HI (i : Nat) : Nat := 0x50001c + i * 0x10000
def F.CARRIAGE_MOVE_CNT_HI_COUNT (i : Nat) : RF := ⟨(Reg.CARRIAGE_MOVE_CNT_HI i), 0, 32⟩
/-- `CARRIAGE_BYTES_LO`. -/
def Reg.CARRIAGE_BYTES_LO (i : Nat) : Nat := 0x500020 + i * 0x10000
def F.CARRIAGE_BYTES_LO_BYTES (i : Nat) : RF := ⟨(Reg.CARRIAGE_BYTES_LO i), 0, 32⟩
/-- `CARRIAGE_BYTES_HI`. -/
def Reg.CARRIAGE_BYTES_HI (i : Nat) : Nat := 0x500024 + i * 0x10000
def F.CARRIAGE_BYTES_HI_BYTES (i : Nat) : RF := ⟨(Reg.CARRIAGE_BYTES_HI i), 0, 32⟩
/-- `CARRIAGE_REFUSED`. -/
def Reg.CARRIAGE_REFUSED (i : Nat) : Nat := 0x500028 + i * 0x10000
def F.CARRIAGE_REFUSED_COUNT (i : Nat) : RF := ⟨(Reg.CARRIAGE_REFUSED i), 0, 32⟩
/-- `CARRIAGE_LOCKVIOL`. -/
def Reg.CARRIAGE_LOCKVIOL (i : Nat) : Nat := 0x50002c + i * 0x10000
def F.CARRIAGE_LOCKVIOL_COUNT (i : Nat) : RF := ⟨(Reg.CARRIAGE_LOCKVIOL i), 0, 16⟩
/-- `MEM_ID`. -/
def Reg.MEM_ID (i : Nat) : Nat := 0x508000 + i * 0x40000
def F.MEM_ID_HALF (i : Nat) : RF := ⟨(Reg.MEM_ID i), 2, 1⟩
def F.MEM_ID_INDEX (i : Nat) : RF := ⟨(Reg.MEM_ID i), 0, 2⟩
/-- `MEM_CTL`. -/
def Reg.MEM_CTL (i : Nat) : Nat := 0x508004 + i * 0x40000
def F.MEM_CTL_LOCK (i : Nat) : RF := ⟨(Reg.MEM_CTL i), 31, 1⟩
def F.MEM_CTL_REBUILD_PCT (i : Nat) : RF := ⟨(Reg.MEM_CTL i), 8, 4⟩
def F.MEM_CTL_SCRUB_EN (i : Nat) : RF := ⟨(Reg.MEM_CTL i), 1, 1⟩
def F.MEM_CTL_EVT_CORR_EN (i : Nat) : RF := ⟨(Reg.MEM_CTL i), 0, 1⟩
/-- `MEM_STATUS`. -/
def Reg.MEM_STATUS (i : Nat) : Nat := 0x508008 + i * 0x40000
def F.MEM_STATUS_PROGRESS (i : Nat) : RF := ⟨(Reg.MEM_STATUS i), 24, 8⟩
def F.MEM_STATUS_SPARE_DIE (i : Nat) : RF := ⟨(Reg.MEM_STATUS i), 13, 3⟩
def F.MEM_STATUS_CHECK_DIE (i : Nat) : RF := ⟨(Reg.MEM_STATUS i), 10, 3⟩
def F.MEM_STATUS_MARKED_DIE (i : Nat) : RF := ⟨(Reg.MEM_STATUS i), 7, 3⟩
def F.MEM_STATUS_SPARE_USED (i : Nat) : RF := ⟨(Reg.MEM_STATUS i), 2, 1⟩
def F.MEM_STATUS_REBUILDING (i : Nat) : RF := ⟨(Reg.MEM_STATUS i), 1, 1⟩
def F.MEM_STATUS_MARKED (i : Nat) : RF := ⟨(Reg.MEM_STATUS i), 0, 1⟩
/-- `MEM_CORR`. -/
def Reg.MEM_CORR (i : Nat) : Nat := 0x50800c + i * 0x40000
def F.MEM_CORR_COUNT (i : Nat) : RF := ⟨(Reg.MEM_CORR i), 0, 32⟩
/-- `MEM_UNCORR`. -/
def Reg.MEM_UNCORR (i : Nat) : Nat := 0x508010 + i * 0x40000
def F.MEM_UNCORR_COUNT (i : Nat) : RF := ⟨(Reg.MEM_UNCORR i), 0, 32⟩
/-- `MEM_POISON_LO`. -/
def Reg.MEM_POISON_LO (i : Nat) : Nat := 0x508014 + i * 0x40000
def F.MEM_POISON_LO_ADDR (i : Nat) : RF := ⟨(Reg.MEM_POISON_LO i), 0, 32⟩
/-- `MEM_POISON_HI`. -/
def Reg.MEM_POISON_HI (i : Nat) : Nat := 0x508018 + i * 0x40000
def F.MEM_POISON_HI_ADDR (i : Nat) : RF := ⟨(Reg.MEM_POISON_HI i), 0, 16⟩
/-- `MEM_LOCKVIOL`. -/
def Reg.MEM_LOCKVIOL (i : Nat) : Nat := 0x50801c + i * 0x40000
def F.MEM_LOCKVIOL_COUNT (i : Nat) : RF := ⟨(Reg.MEM_LOCKVIOL i), 0, 16⟩
/-- `MEM_DIE_CORR`. -/
def Reg.MEM_DIE_CORR (i j : Nat) : Nat := 0x508020 + i * 0x40000 + j * 0x4
def F.MEM_DIE_CORR_HOUR (i j : Nat) : RF := ⟨(Reg.MEM_DIE_CORR i j), 16, 16⟩
def F.MEM_DIE_CORR_TOTAL (i j : Nat) : RF := ⟨(Reg.MEM_DIE_CORR i j), 0, 16⟩
/-- `KVL_ID`. -/
def Reg.KVL_ID (i : Nat) : Nat := 0x600000 + i * 0x80000
def F.KVL_ID_HALF (i : Nat) : RF := ⟨(Reg.KVL_ID i), 0, 1⟩
/-- `KVL_CTL`. -/
def Reg.KVL_CTL (i : Nat) : Nat := 0x600004 + i * 0x80000
def F.KVL_CTL_LOCK (i : Nat) : RF := ⟨(Reg.KVL_CTL i), 31, 1⟩
def F.KVL_CTL_ATTN_ENABLE (i : Nat) : RF := ⟨(Reg.KVL_CTL i), 1, 1⟩
def F.KVL_CTL_ENABLE (i : Nat) : RF := ⟨(Reg.KVL_CTL i), 0, 1⟩
/-- `KVL_POOL_LO`. -/
def Reg.KVL_POOL_LO (i : Nat) : Nat := 0x600010 + i * 0x80000
def F.KVL_POOL_LO_BASE_LO (i : Nat) : RF := ⟨(Reg.KVL_POOL_LO i), 16, 16⟩
/-- `KVL_POOL_HI`. -/
def Reg.KVL_POOL_HI (i : Nat) : Nat := 0x600014 + i * 0x80000
def F.KVL_POOL_HI_BASE_HI (i : Nat) : RF := ⟨(Reg.KVL_POOL_HI i), 0, 16⟩
/-- `KVL_POOL_CFG`. -/
def Reg.KVL_POOL_CFG (i : Nat) : Nat := 0x600018 + i * 0x80000
def F.KVL_POOL_CFG_FRAME_GR (i : Nat) : RF := ⟨(Reg.KVL_POOL_CFG i), 24, 7⟩
def F.KVL_POOL_CFG_FRAMES (i : Nat) : RF := ⟨(Reg.KVL_POOL_CFG i), 0, 18⟩
/-- `KVL_FREE`. -/
def Reg.KVL_FREE (i : Nat) : Nat := 0x600020 + i * 0x80000
def F.KVL_FREE_COUNT (i : Nat) : RF := ⟨(Reg.KVL_FREE i), 0, 18⟩
/-- `KVL_ZEROING`. -/
def Reg.KVL_ZEROING (i : Nat) : Nat := 0x600024 + i * 0x80000
def F.KVL_ZEROING_COUNT (i : Nat) : RF := ⟨(Reg.KVL_ZEROING i), 0, 18⟩
/-- `KVL_DRAIN`. -/
def Reg.KVL_DRAIN (i : Nat) : Nat := 0x600028 + i * 0x80000
def F.KVL_DRAIN_COUNT (i : Nat) : RF := ⟨(Reg.KVL_DRAIN i), 0, 18⟩
/-- `KVL_QUOTA`. -/
def Reg.KVL_QUOTA (i j : Nat) : Nat := 0x600040 + i * 0x80000 + j * 0x4
def F.KVL_QUOTA_FRAMES (i j : Nat) : RF := ⟨(Reg.KVL_QUOTA i j), 0, 18⟩
/-- `KVL_USED`. -/
def Reg.KVL_USED (i j : Nat) : Nat := 0x600080 + i * 0x80000 + j * 0x4
def F.KVL_USED_FRAMES (i j : Nat) : RF := ⟨(Reg.KVL_USED i j), 0, 18⟩
/-- `KVL_OPS_LO`. -/
def Reg.KVL_OPS_LO (i : Nat) : Nat := 0x6000c0 + i * 0x80000
def F.KVL_OPS_LO_COUNT (i : Nat) : RF := ⟨(Reg.KVL_OPS_LO i), 0, 32⟩
/-- `KVL_OPS_HI`. -/
def Reg.KVL_OPS_HI (i : Nat) : Nat := 0x6000c4 + i * 0x80000
def F.KVL_OPS_HI_COUNT (i : Nat) : RF := ⟨(Reg.KVL_OPS_HI i), 0, 32⟩
/-- `KVL_COW_CNT`. -/
def Reg.KVL_COW_CNT (i : Nat) : Nat := 0x6000c8 + i * 0x80000
def F.KVL_COW_CNT_COUNT (i : Nat) : RF := ⟨(Reg.KVL_COW_CNT i), 0, 32⟩
/-- `KVL_REFUSED`. -/
def Reg.KVL_REFUSED (i : Nat) : Nat := 0x6000cc + i * 0x80000
def F.KVL_REFUSED_COUNT (i : Nat) : RF := ⟨(Reg.KVL_REFUSED i), 0, 32⟩
/-- `KVL_PIN_MAX`. -/
def Reg.KVL_PIN_MAX (i : Nat) : Nat := 0x6000d0 + i * 0x80000
def F.KVL_PIN_MAX_PIN (i : Nat) : RF := ⟨(Reg.KVL_PIN_MAX i), 0, 8⟩
/-- `KVL_LOCKVIOL`. -/
def Reg.KVL_LOCKVIOL (i : Nat) : Nat := 0x6000d4 + i * 0x80000
def F.KVL_LOCKVIOL_COUNT (i : Nat) : RF := ⟨(Reg.KVL_LOCKVIOL i), 0, 16⟩
/-- `KVL_ENTRY_SEL`. -/
def Reg.KVL_ENTRY_SEL (i : Nat) : Nat := 0x6000e0 + i * 0x80000
def F.KVL_ENTRY_SEL_FRAME (i : Nat) : RF := ⟨(Reg.KVL_ENTRY_SEL i), 0, 18⟩
/-- `KVL_ENTRY_LO`. -/
def Reg.KVL_ENTRY_LO (i : Nat) : Nat := 0x6000e4 + i * 0x80000
def F.KVL_ENTRY_LO_REF (i : Nat) : RF := ⟨(Reg.KVL_ENTRY_LO i), 16, 16⟩
def F.KVL_ENTRY_LO_PIN (i : Nat) : RF := ⟨(Reg.KVL_ENTRY_LO i), 8, 8⟩
def F.KVL_ENTRY_LO_STATE (i : Nat) : RF := ⟨(Reg.KVL_ENTRY_LO i), 0, 2⟩
/-- `KVL_ENTRY_HI`. -/
def Reg.KVL_ENTRY_HI (i : Nat) : Nat := 0x6000e8 + i * 0x80000
def F.KVL_ENTRY_HI_OWNER (i : Nat) : RF := ⟨(Reg.KVL_ENTRY_HI i), 0, 13⟩
/-- `ATTN_STATUS`. -/
def Reg.ATTN_STATUS (i : Nat) : Nat := 0x600100 + i * 0x80000
def F.ATTN_STATUS_OWNER (i : Nat) : RF := ⟨(Reg.ATTN_STATUS i), 19, 13⟩
def F.ATTN_STATUS_IN_FLIGHT (i : Nat) : RF := ⟨(Reg.ATTN_STATUS i), 0, 7⟩
/-- `ATTN_CMD_CNT_LO`. -/
def Reg.ATTN_CMD_CNT_LO (i : Nat) : Nat := 0x600108 + i * 0x80000
def F.ATTN_CMD_CNT_LO_COUNT (i : Nat) : RF := ⟨(Reg.ATTN_CMD_CNT_LO i), 0, 32⟩
/-- `ATTN_CMD_CNT_HI`. -/
def Reg.ATTN_CMD_CNT_HI (i : Nat) : Nat := 0x60010c + i * 0x80000
def F.ATTN_CMD_CNT_HI_COUNT (i : Nat) : RF := ⟨(Reg.ATTN_CMD_CNT_HI i), 0, 32⟩
/-- `ATTN_CLAMP_CNT`. -/
def Reg.ATTN_CLAMP_CNT (i : Nat) : Nat := 0x600110 + i * 0x80000
def F.ATTN_CLAMP_CNT_COUNT (i : Nat) : RF := ⟨(Reg.ATTN_CLAMP_CNT i), 0, 32⟩
/-- `PARTING_ID`. -/
def Reg.PARTING_ID (i : Nat) : Nat := 0x700000 + i * 0x80000
def F.PARTING_ID_HALF (i : Nat) : RF := ⟨(Reg.PARTING_ID i), 0, 1⟩
/-- `PARTING_CTL`. -/
def Reg.PARTING_CTL (i : Nat) : Nat := 0x700004 + i * 0x80000
def F.PARTING_CTL_LOCK (i : Nat) : RF := ⟨(Reg.PARTING_CTL i), 31, 1⟩
def F.PARTING_CTL_ENABLE (i : Nat) : RF := ⟨(Reg.PARTING_CTL i), 0, 1⟩
/-- `PARTING_STATUS`. -/
def Reg.PARTING_STATUS (i : Nat) : Nat := 0x700008 + i * 0x80000
def F.PARTING_STATUS_OWNER (i : Nat) : RF := ⟨(Reg.PARTING_STATUS i), 19, 13⟩
def F.PARTING_STATUS_CROP (i : Nat) : RF := ⟨(Reg.PARTING_STATUS i), 1, 1⟩
def F.PARTING_STATUS_SUPPRESS (i : Nat) : RF := ⟨(Reg.PARTING_STATUS i), 0, 1⟩
/-- `PARTING_CMD_CNT_LO`. -/
def Reg.PARTING_CMD_CNT_LO (i : Nat) : Nat := 0x700010 + i * 0x80000
def F.PARTING_CMD_CNT_LO_COUNT (i : Nat) : RF := ⟨(Reg.PARTING_CMD_CNT_LO i), 0, 32⟩
/-- `PARTING_CMD_CNT_HI`. -/
def Reg.PARTING_CMD_CNT_HI (i : Nat) : Nat := 0x700014 + i * 0x80000
def F.PARTING_CMD_CNT_HI_COUNT (i : Nat) : RF := ⟨(Reg.PARTING_CMD_CNT_HI i), 0, 32⟩
/-- `PARTING_CLAMP_CNT`. -/
def Reg.PARTING_CLAMP_CNT (i : Nat) : Nat := 0x700018 + i * 0x80000
def F.PARTING_CLAMP_CNT_COUNT (i : Nat) : RF := ⟨(Reg.PARTING_CLAMP_CNT i), 0, 32⟩
/-- `PARTING_LOCKVIOL`. -/
def Reg.PARTING_LOCKVIOL (i : Nat) : Nat := 0x70001c + i * 0x80000
def F.PARTING_LOCKVIOL_COUNT (i : Nat) : RF := ⟨(Reg.PARTING_LOCKVIOL i), 0, 16⟩
/-- `CALLIPER_ID`. -/
def Reg.CALLIPER_ID (i : Nat) : Nat := 0x800000 + i * 0x80000
def F.CALLIPER_ID_HALF (i : Nat) : RF := ⟨(Reg.CALLIPER_ID i), 0, 1⟩
/-- `CALLIPER_CTL`. -/
def Reg.CALLIPER_CTL (i : Nat) : Nat := 0x800004 + i * 0x80000
def F.CALLIPER_CTL_LOCK (i : Nat) : RF := ⟨(Reg.CALLIPER_CTL i), 31, 1⟩
def F.CALLIPER_CTL_DEFER_MAX (i : Nat) : RF := ⟨(Reg.CALLIPER_CTL i), 8, 4⟩
def F.CALLIPER_CTL_C_CHECK_EN (i : Nat) : RF := ⟨(Reg.CALLIPER_CTL i), 2, 1⟩
def F.CALLIPER_CTL_UNCHECKED_DOUBT (i : Nat) : RF := ⟨(Reg.CALLIPER_CTL i), 1, 1⟩
def F.CALLIPER_CTL_EVT_UNCHECKED_EN (i : Nat) : RF := ⟨(Reg.CALLIPER_CTL i), 0, 1⟩
/-- `CALLIPER_FRAME`. -/
def Reg.CALLIPER_FRAME (i : Nat) : Nat := 0x800008 + i * 0x80000
def F.CALLIPER_FRAME_PERIOD_US (i : Nat) : RF := ⟨(Reg.CALLIPER_FRAME i), 0, 17⟩
/-- `CALLIPER_FRAME_NO`. -/
def Reg.CALLIPER_FRAME_NO (i : Nat) : Nat := 0x80000c + i * 0x80000
def F.CALLIPER_FRAME_NO_FRAME (i : Nat) : RF := ⟨(Reg.CALLIPER_FRAME_NO i), 0, 32⟩
/-- `CALLIPER_STATUS`. -/
def Reg.CALLIPER_STATUS (i : Nat) : Nat := 0x800010 + i * 0x80000
def F.CALLIPER_STATUS_DEGRADED (i : Nat) : RF := ⟨(Reg.CALLIPER_STATUS i), 31, 1⟩
def F.CALLIPER_STATUS_DIAG_BUSY (i : Nat) : RF := ⟨(Reg.CALLIPER_STATUS i), 30, 1⟩
def F.CALLIPER_STATUS_ROUGH_LOST (i : Nat) : RF := ⟨(Reg.CALLIPER_STATUS i), 29, 1⟩
def F.CALLIPER_STATUS_SWITCHED (i : Nat) : RF := ⟨(Reg.CALLIPER_STATUS i), 0, 10⟩
/-- `CALLIPER_CHECKED_LO`. -/
def Reg.CALLIPER_CHECKED_LO (i : Nat) : Nat := 0x800018 + i * 0x80000
def F.CALLIPER_CHECKED_LO_COUNT (i : Nat) : RF := ⟨(Reg.CALLIPER_CHECKED_LO i), 0, 32⟩
/-- `CALLIPER_CHECKED_HI`. -/
def Reg.CALLIPER_CHECKED_HI (i : Nat) : Nat := 0x80001c + i * 0x80000
def F.CALLIPER_CHECKED_HI_COUNT (i : Nat) : RF := ⟨(Reg.CALLIPER_CHECKED_HI i), 0, 32⟩
/-- `CALLIPER_MISMATCH`. -/
def Reg.CALLIPER_MISMATCH (i : Nat) : Nat := 0x800020 + i * 0x80000
def F.CALLIPER_MISMATCH_COUNT (i : Nat) : RF := ⟨(Reg.CALLIPER_MISMATCH i), 0, 32⟩
/-- `CALLIPER_UNCHECKED`. -/
def Reg.CALLIPER_UNCHECKED (i : Nat) : Nat := 0x800024 + i * 0x80000
def F.CALLIPER_UNCHECKED_COUNT (i : Nat) : RF := ⟨(Reg.CALLIPER_UNCHECKED i), 0, 32⟩
/-- `CALLIPER_BLANK_RUN`. -/
def Reg.CALLIPER_BLANK_RUN (i : Nat) : Nat := 0x800028 + i * 0x80000
def F.CALLIPER_BLANK_RUN_COUNT (i : Nat) : RF := ⟨(Reg.CALLIPER_BLANK_RUN i), 0, 32⟩
/-- `CALLIPER_BLANK_FORCED`. -/
def Reg.CALLIPER_BLANK_FORCED (i : Nat) : Nat := 0x80002c + i * 0x80000
def F.CALLIPER_BLANK_FORCED_COUNT (i : Nat) : RF := ⟨(Reg.CALLIPER_BLANK_FORCED i), 0, 32⟩
/-- `CALLIPER_BLANK_FAIL`. -/
def Reg.CALLIPER_BLANK_FAIL (i : Nat) : Nat := 0x800030 + i * 0x80000
def F.CALLIPER_BLANK_FAIL_COUNT (i : Nat) : RF := ⟨(Reg.CALLIPER_BLANK_FAIL i), 0, 32⟩
/-- `CALLIPER_LOCKVIOL`. -/
def Reg.CALLIPER_LOCKVIOL (i : Nat) : Nat := 0x800034 + i * 0x80000
def F.CALLIPER_LOCKVIOL_COUNT (i : Nat) : RF := ⟨(Reg.CALLIPER_LOCKVIOL i), 0, 16⟩
/-- `CALLIPER_ARR_STAT`. -/
def Reg.CALLIPER_ARR_STAT (i j : Nat) : Nat := 0x800100 + i * 0x80000 + j * 0x10
def F.CALLIPER_ARR_STAT_DEFERRED (i j : Nat) : RF := ⟨(Reg.CALLIPER_ARR_STAT i j), 28, 4⟩
def F.CALLIPER_ARR_STAT_LAST_DIAG (i j : Nat) : RF := ⟨(Reg.CALLIPER_ARR_STAT i j), 16, 2⟩
def F.CALLIPER_ARR_STAT_TRANSIENT_WIN (i j : Nat) : RF := ⟨(Reg.CALLIPER_ARR_STAT i j), 0, 2⟩
/-- `CALLIPER_ARR_BLANK`. -/
def Reg.CALLIPER_ARR_BLANK (i j : Nat) : Nat := 0x800104 + i * 0x80000 + j * 0x10
def F.CALLIPER_ARR_BLANK_FRAME (i j : Nat) : RF := ⟨(Reg.CALLIPER_ARR_BLANK i j), 0, 32⟩
/-- `SLOT_CFG`. -/
def Reg.SLOT_CFG (i : Nat) : Nat := 0x840000 + i * 0x20
def F.SLOT_CFG_VALID (i : Nat) : RF := ⟨(Reg.SLOT_CFG i), 31, 1⟩
def F.SLOT_CFG_MIRROR (i : Nat) : RF := ⟨(Reg.SLOT_CFG i), 30, 1⟩
def F.SLOT_CFG_HALF (i : Nat) : RF := ⟨(Reg.SLOT_CFG i), 29, 1⟩
def F.SLOT_CFG_AUTODOUBT (i : Nat) : RF := ⟨(Reg.SLOT_CFG i), 28, 1⟩
def F.SLOT_CFG_DEGRADE (i : Nat) : RF := ⟨(Reg.SLOT_CFG i), 27, 1⟩
def F.SLOT_CFG_RESTORE_N (i : Nat) : RF := ⟨(Reg.SLOT_CFG i), 23, 4⟩
def F.SLOT_CFG_SIZE (i : Nat) : RF := ⟨(Reg.SLOT_CFG i), 0, 15⟩
/-- `SLOT_OWNER`. -/
def Reg.SLOT_OWNER (i : Nat) : Nat := 0x840004 + i * 0x20
def F.SLOT_OWNER_READERS (i : Nat) : RF := ⟨(Reg.SLOT_OWNER i), 16, 16⟩
def F.SLOT_OWNER_PRODUCER (i : Nat) : RF := ⟨(Reg.SLOT_OWNER i), 0, 13⟩
/-- `SLOT_AGE`. -/
def Reg.SLOT_AGE (i : Nat) : Nat := 0x840008 + i * 0x20
def F.SLOT_AGE_LIMIT_US (i : Nat) : RF := ⟨(Reg.SLOT_AGE i), 0, 20⟩
/-- `SLOT_WARN`. -/
def Reg.SLOT_WARN (i : Nat) : Nat := 0x84000c + i * 0x20
def F.SLOT_WARN_WARN_US (i : Nat) : RF := ⟨(Reg.SLOT_WARN i), 0, 20⟩
/-- `SLOT_ALT`. -/
def Reg.SLOT_ALT (i : Nat) : Nat := 0x840010 + i * 0x20
def F.SLOT_ALT_ALT2_VALID (i : Nat) : RF := ⟨(Reg.SLOT_ALT i), 31, 1⟩
def F.SLOT_ALT_ALT2 (i : Nat) : RF := ⟨(Reg.SLOT_ALT i), 16, 9⟩
def F.SLOT_ALT_ALT_VALID (i : Nat) : RF := ⟨(Reg.SLOT_ALT i), 15, 1⟩
def F.SLOT_ALT_ALT (i : Nat) : RF := ⟨(Reg.SLOT_ALT i), 0, 9⟩
/-- `SLOT_DOWEL`. -/
def Reg.SLOT_DOWEL (i : Nat) : Nat := 0x840014 + i * 0x20
def F.SLOT_DOWEL_VALID (i : Nat) : RF := ⟨(Reg.SLOT_DOWEL i), 31, 1⟩
def F.SLOT_DOWEL_DOWEL (i : Nat) : RF := ⟨(Reg.SLOT_DOWEL i), 0, 14⟩
/-- `SLOT_GEN`. -/
def Reg.SLOT_GEN (i : Nat) : Nat := 0x840018 + i * 0x20
def F.SLOT_GEN_GENERATION (i : Nat) : RF := ⟨(Reg.SLOT_GEN i), 0, 32⟩
/-- `SLOT_STATE`. -/
def Reg.SLOT_STATE (i : Nat) : Nat := 0x84001c + i * 0x20
def F.SLOT_STATE_SWITCHED (i : Nat) : RF := ⟨(Reg.SLOT_STATE i), 31, 1⟩
def F.SLOT_STATE_SERVING_ALT2 (i : Nat) : RF := ⟨(Reg.SLOT_STATE i), 30, 1⟩
def F.SLOT_STATE_DOUBT_LATCH (i : Nat) : RF := ⟨(Reg.SLOT_STATE i), 29, 1⟩
def F.SLOT_STATE_CUR_DOUBTFUL (i : Nat) : RF := ⟨(Reg.SLOT_STATE i), 28, 1⟩
def F.SLOT_STATE_CUR_LATE (i : Nat) : RF := ⟨(Reg.SLOT_STATE i), 27, 1⟩
def F.SLOT_STATE_GOOD (i : Nat) : RF := ⟨(Reg.SLOT_STATE i), 23, 4⟩
def F.SLOT_STATE_CURBUF (i : Nat) : RF := ⟨(Reg.SLOT_STATE i), 16, 2⟩
/-- `AUTH_ID`. -/
def Reg.AUTH_ID (i : Nat) : Nat := 0x900000 + i * 0x80000
def F.AUTH_ID_ARB_EN (i : Nat) : RF := ⟨(Reg.AUTH_ID i), 1, 1⟩
def F.AUTH_ID_HALF (i : Nat) : RF := ⟨(Reg.AUTH_ID i), 0, 1⟩
/-- `AUTH_CTL`. -/
def Reg.AUTH_CTL (i : Nat) : Nat := 0x900004 + i * 0x80000
def F.AUTH_CTL_LOCK (i : Nat) : RF := ⟨(Reg.AUTH_CTL i), 31, 1⟩
def F.AUTH_CTL_UNFIT_MAX_MS (i : Nat) : RF := ⟨(Reg.AUTH_CTL i), 16, 10⟩
def F.AUTH_CTL_STANDBY_SAMPLES (i : Nat) : RF := ⟨(Reg.AUTH_CTL i), 8, 8⟩
/-- `AUTH_REQ`. -/
def Reg.AUTH_REQ (i : Nat) : Nat := 0x900008 + i * 0x80000
def F.AUTH_REQ_CLEAR_OBS (i : Nat) : RF := ⟨(Reg.AUTH_REQ i), 1, 1⟩
def F.AUTH_REQ_HANDOVER (i : Nat) : RF := ⟨(Reg.AUTH_REQ i), 0, 1⟩
/-- `AUTH_STATUS`. -/
def Reg.AUTH_STATUS (i : Nat) : Nat := 0x90000c + i * 0x80000
def F.AUTH_STATUS_STATE (i : Nat) : RF := ⟨(Reg.AUTH_STATUS i), 30, 2⟩
def F.AUTH_STATUS_OUT_EN (i : Nat) : RF := ⟨(Reg.AUTH_STATUS i), 29, 1⟩
def F.AUTH_STATUS_SAFE_STOP (i : Nat) : RF := ⟨(Reg.AUTH_STATUS i), 28, 1⟩
def F.AUTH_STATUS_ARB_PRESENT (i : Nat) : RF := ⟨(Reg.AUTH_STATUS i), 27, 1⟩
def F.AUTH_STATUS_ARB_VIEW (i : Nat) : RF := ⟨(Reg.AUTH_STATUS i), 25, 2⟩
def F.AUTH_STATUS_PEER_STATE (i : Nat) : RF := ⟨(Reg.AUTH_STATUS i), 23, 2⟩
def F.AUTH_STATUS_PEER_SILENT (i : Nat) : RF := ⟨(Reg.AUTH_STATUS i), 22, 1⟩
def F.AUTH_STATUS_PEER_DOWN (i : Nat) : RF := ⟨(Reg.AUTH_STATUS i), 21, 1⟩
def F.AUTH_STATUS_PATH_HL (i : Nat) : RF := ⟨(Reg.AUTH_STATUS i), 20, 1⟩
def F.AUTH_STATUS_PATH_SB (i : Nat) : RF := ⟨(Reg.AUTH_STATUS i), 19, 1⟩
def F.AUTH_STATUS_SENSE_OK (i : Nat) : RF := ⟨(Reg.AUTH_STATUS i), 18, 1⟩
def F.AUTH_STATUS_SHADOW_OK (i : Nat) : RF := ⟨(Reg.AUTH_STATUS i), 17, 1⟩
def F.AUTH_STATUS_DEG_SRC (i : Nat) : RF := ⟨(Reg.AUTH_STATUS i), 13, 4⟩
def F.AUTH_STATUS_UNFIT (i : Nat) : RF := ⟨(Reg.AUTH_STATUS i), 7, 6⟩
/-- `AUTH_EPOCH`. -/
def Reg.AUTH_EPOCH (i : Nat) : Nat := 0x900010 + i * 0x80000
def F.AUTH_EPOCH_EPOCH (i : Nat) : RF := ⟨(Reg.AUTH_EPOCH i), 0, 32⟩
/-- `AUTH_PEER_EPOCH`. -/
def Reg.AUTH_PEER_EPOCH (i : Nat) : Nat := 0x900014 + i * 0x80000
def F.AUTH_PEER_EPOCH_EPOCH (i : Nat) : RF := ⟨(Reg.AUTH_PEER_EPOCH i), 0, 32⟩
/-- `AUTH_HANDOVER_CNT`. -/
def Reg.AUTH_HANDOVER_CNT (i : Nat) : Nat := 0x900018 + i * 0x80000
def F.AUTH_HANDOVER_CNT_COUNT (i : Nat) : RF := ⟨(Reg.AUTH_HANDOVER_CNT i), 0, 32⟩
/-- `AUTH_LAST_GAP`. -/
def Reg.AUTH_LAST_GAP (i : Nat) : Nat := 0x90001c + i * 0x80000
def F.AUTH_LAST_GAP_GAP_US (i : Nat) : RF := ⟨(Reg.AUTH_LAST_GAP i), 0, 16⟩
/-- `AUTH_MAX_GAP`. -/
def Reg.AUTH_MAX_GAP (i : Nat) : Nat := 0x900020 + i * 0x80000
def F.AUTH_MAX_GAP_GAP_US (i : Nat) : RF := ⟨(Reg.AUTH_MAX_GAP i), 0, 16⟩
/-- `AUTH_PATH_ERR`. -/
def Reg.AUTH_PATH_ERR (i : Nat) : Nat := 0x900024 + i * 0x80000
def F.AUTH_PATH_ERR_SB_LOST (i : Nat) : RF := ⟨(Reg.AUTH_PATH_ERR i), 16, 16⟩
def F.AUTH_PATH_ERR_HL_LOST (i : Nat) : RF := ⟨(Reg.AUTH_PATH_ERR i), 0, 16⟩
/-- `AUTH_LOCKVIOL`. -/
def Reg.AUTH_LOCKVIOL (i : Nat) : Nat := 0x900028 + i * 0x80000
def F.AUTH_LOCKVIOL_COUNT (i : Nat) : RF := ⟨(Reg.AUTH_LOCKVIOL i), 0, 16⟩
/-- `STEADY_ID`. -/
def Reg.STEADY_ID (i : Nat) : Nat := 0xa00000 + i * 0x80000
def F.STEADY_ID_HALF (i : Nat) : RF := ⟨(Reg.STEADY_ID i), 0, 1⟩
/-- `STEADY_CTL`. -/
def Reg.STEADY_CTL (i : Nat) : Nat := 0xa00004 + i * 0x80000
def F.STEADY_CTL_LOCK (i : Nat) : RF := ⟨(Reg.STEADY_CTL i), 31, 1⟩
def F.STEADY_CTL_TB (i : Nat) : RF := ⟨(Reg.STEADY_CTL i), 16, 3⟩
def F.STEADY_CTL_ENABLE (i : Nat) : RF := ⟨(Reg.STEADY_CTL i), 0, 1⟩
/-- `STEADY_ENV`. -/
def Reg.STEADY_ENV (i : Nat) : Nat := 0xa00008 + i * 0x80000
def F.STEADY_ENV_ENV_IN_MS (i : Nat) : RF := ⟨(Reg.STEADY_ENV i), 16, 16⟩
def F.STEADY_ENV_ENV_OUT_MS (i : Nat) : RF := ⟨(Reg.STEADY_ENV i), 0, 16⟩
/-- `STEADY_CMD`. -/
def Reg.STEADY_CMD (i : Nat) : Nat := 0xa00010 + i * 0x80000
def F.STEADY_CMD_OP (i : Nat) : RF := ⟨(Reg.STEADY_CMD i), 28, 4⟩
def F.STEADY_CMD_TO (i : Nat) : RF := ⟨(Reg.STEADY_CMD i), 8, 4⟩
def F.STEADY_CMD_SLOT (i : Nat) : RF := ⟨(Reg.STEADY_CMD i), 0, 4⟩
/-- `STEADY_CMD_RESULT`. -/
def Reg.STEADY_CMD_RESULT (i : Nat) : Nat := 0xa00014 + i * 0x80000
def F.STEADY_CMD_RESULT_BUSY (i : Nat) : RF := ⟨(Reg.STEADY_CMD_RESULT i), 31, 1⟩
def F.STEADY_CMD_RESULT_OP (i : Nat) : RF := ⟨(Reg.STEADY_CMD_RESULT i), 24, 4⟩
def F.STEADY_CMD_RESULT_SLOT (i : Nat) : RF := ⟨(Reg.STEADY_CMD_RESULT i), 20, 4⟩
def F.STEADY_CMD_RESULT_RESULT (i : Nat) : RF := ⟨(Reg.STEADY_CMD_RESULT i), 0, 8⟩
/-- `STEADY_STATUS`. -/
def Reg.STEADY_STATUS (i : Nat) : Nat := 0xa00018 + i * 0x80000
def F.STEADY_STATUS_LOAD (i : Nat) : RF := ⟨(Reg.STEADY_STATUS i), 8, 12⟩
def F.STEADY_STATUS_ENV_LEVEL (i : Nat) : RF := ⟨(Reg.STEADY_STATUS i), 0, 8⟩
/-- `STEADY_UPD_LO`. -/
def Reg.STEADY_UPD_LO (i : Nat) : Nat := 0xa00020 + i * 0x80000
def F.STEADY_UPD_LO_COUNT (i : Nat) : RF := ⟨(Reg.STEADY_UPD_LO i), 0, 32⟩
/-- `STEADY_UPD_HI`. -/
def Reg.STEADY_UPD_HI (i : Nat) : Nat := 0xa00024 + i * 0x80000
def F.STEADY_UPD_HI_COUNT (i : Nat) : RF := ⟨(Reg.STEADY_UPD_HI i), 0, 32⟩
/-- `STEADY_OVERRUN`. -/
def Reg.STEADY_OVERRUN (i : Nat) : Nat := 0xa00028 + i * 0x80000
def F.STEADY_OVERRUN_COUNT (i : Nat) : RF := ⟨(Reg.STEADY_OVERRUN i), 0, 32⟩
/-- `STEADY_COEF_REJ`. -/
def Reg.STEADY_COEF_REJ (i : Nat) : Nat := 0xa0002c + i * 0x80000
def F.STEADY_COEF_REJ_COUNT (i : Nat) : RF := ⟨(Reg.STEADY_COEF_REJ i), 0, 16⟩
/-- `STEADY_LOCKVIOL`. -/
def Reg.STEADY_LOCKVIOL (i : Nat) : Nat := 0xa00030 + i * 0x80000
def F.STEADY_LOCKVIOL_COUNT (i : Nat) : RF := ⟨(Reg.STEADY_LOCKVIOL i), 0, 16⟩
/-- `LOOP_CFG`. -/
def Reg.LOOP_CFG (i j : Nat) : Nat := 0xa01000 + i * 0x80000 + j * 0x100
def F.LOOP_CFG_N_X (i j : Nat) : RF := ⟨(Reg.LOOP_CFG i j), 27, 5⟩
def F.LOOP_CFG_N_Y (i j : Nat) : RF := ⟨(Reg.LOOP_CFG i j), 23, 4⟩
def F.LOOP_CFG_N_R (i j : Nat) : RF := ⟨(Reg.LOOP_CFG i j), 19, 4⟩
def F.LOOP_CFG_N_U (i j : Nat) : RF := ⟨(Reg.LOOP_CFG i j), 15, 4⟩
def F.LOOP_CFG_FB_VALID (i j : Nat) : RF := ⟨(Reg.LOOP_CFG i j), 14, 1⟩
def F.LOOP_CFG_FALLBACK (i j : Nat) : RF := ⟨(Reg.LOOP_CFG i j), 10, 4⟩
def F.LOOP_CFG_PLAUS_N (i j : Nat) : RF := ⟨(Reg.LOOP_CFG i j), 0, 8⟩
/-- `LOOP_TIMING`. -/
def Reg.LOOP_TIMING (i j : Nat) : Nat := 0xa01004 + i * 0x80000 + j * 0x100
def F.LOOP_TIMING_PERIOD_US (i j : Nat) : RF := ⟨(Reg.LOOP_TIMING i j), 18, 14⟩
def F.LOOP_TIMING_PHASE_US (i j : Nat) : RF := ⟨(Reg.LOOP_TIMING i j), 4, 14⟩
/-- `LOOP_RAMP`. -/
def Reg.LOOP_RAMP (i j : Nat) : Nat := 0xa01008 + i * 0x80000 + j * 0x100
def F.LOOP_RAMP_RAMP_N (i j : Nat) : RF := ⟨(Reg.LOOP_RAMP i j), 0, 12⟩
/-- `LOOP_STATE`. -/
def Reg.LOOP_STATE (i j : Nat) : Nat := 0xa0100c + i * 0x80000 + j * 0x100
def F.LOOP_STATE_STATE (i j : Nat) : RF := ⟨(Reg.LOOP_STATE i j), 29, 3⟩
def F.LOOP_STATE_SAFE_ENV (i j : Nat) : RF := ⟨(Reg.LOOP_STATE i j), 28, 1⟩
def F.LOOP_STATE_ESTABLISHED (i j : Nat) : RF := ⟨(Reg.LOOP_STATE i j), 27, 1⟩
def F.LOOP_STATE_PLAUS_RUN (i j : Nat) : RF := ⟨(Reg.LOOP_STATE i j), 8, 8⟩
/-- `LOOP_CRC`. -/
def Reg.LOOP_CRC (i j : Nat) : Nat := 0xa01010 + i * 0x80000 + j * 0x100
def F.LOOP_CRC_CRC (i j : Nat) : RF := ⟨(Reg.LOOP_CRC i j), 0, 32⟩
/-- `LOOP_Y_SRC`. -/
def Reg.LOOP_Y_SRC (i j k : Nat) : Nat := 0xa01020 + i * 0x80000 + j * 0x100 + k * 0x4
def F.LOOP_Y_SRC_KIND (i j k : Nat) : RF := ⟨(Reg.LOOP_Y_SRC i j k), 28, 4⟩
def F.LOOP_Y_SRC_RSLOT (i j k : Nat) : RF := ⟨(Reg.LOOP_Y_SRC i j k), 16, 9⟩
def F.LOOP_Y_SRC_INDEX (i j k : Nat) : RF := ⟨(Reg.LOOP_Y_SRC i j k), 0, 16⟩
/-- `LOOP_R_SRC`. -/
def Reg.LOOP_R_SRC (i j k : Nat) : Nat := 0xa01040 + i * 0x80000 + j * 0x100 + k * 0x4
def F.LOOP_R_SRC_KIND (i j k : Nat) : RF := ⟨(Reg.LOOP_R_SRC i j k), 28, 4⟩
def F.LOOP_R_SRC_RSLOT (i j k : Nat) : RF := ⟨(Reg.LOOP_R_SRC i j k), 16, 9⟩
def F.LOOP_R_SRC_INDEX (i j k : Nat) : RF := ⟨(Reg.LOOP_R_SRC i j k), 0, 16⟩
/-- `LOOP_U_DST`. -/
def Reg.LOOP_U_DST (i j k : Nat) : Nat := 0xa01060 + i * 0x80000 + j * 0x100 + k * 0x4
def F.LOOP_U_DST_KIND (i j k : Nat) : RF := ⟨(Reg.LOOP_U_DST i j k), 28, 4⟩
def F.LOOP_U_DST_INDEX (i j k : Nat) : RF := ⟨(Reg.LOOP_U_DST i j k), 0, 4⟩
/-- `LOOP_OUT`. -/
def Reg.LOOP_OUT (i j k : Nat) : Nat := 0xa01080 + i * 0x80000 + j * 0x100 + k * 0x4
def F.LOOP_OUT_VALUE (i j k : Nat) : RF := ⟨(Reg.LOOP_OUT i j k), 0, 32⟩
/-- `GW_ID`. -/
def Reg.GW_ID : Nat := 0xb00000
def F.GW_ID_VERSION : RF := ⟨Reg.GW_ID, 0, 16⟩
/-- `GW_CTL`. -/
def Reg.GW_CTL : Nat := 0xb00004
def F.GW_CTL_LOCK : RF := ⟨Reg.GW_CTL, 31, 1⟩
def F.GW_CTL_TB : RF := ⟨Reg.GW_CTL, 16, 3⟩
def F.GW_CTL_ENABLE : RF := ⟨Reg.GW_CTL, 0, 1⟩
/-- `GW_LOCKVIOL`. -/
def Reg.GW_LOCKVIOL : Nat := 0xb00008
def F.GW_LOCKVIOL_COUNT : RF := ⟨Reg.GW_LOCKVIOL, 0, 32⟩
/-- `GW_LATE_CNT`. -/
def Reg.GW_LATE_CNT : Nat := 0xb0000c
def F.GW_LATE_CNT_COUNT : RF := ⟨Reg.GW_LATE_CNT, 0, 32⟩
/-- `GW_STALE_CNT`. -/
def Reg.GW_STALE_CNT : Nat := 0xb00010
def F.GW_STALE_CNT_COUNT : RF := ⟨Reg.GW_STALE_CNT, 0, 32⟩
/-- `GW_DROP_CNT`. -/
def Reg.GW_DROP_CNT : Nat := 0xb00014
def F.GW_DROP_CNT_COUNT : RF := ⟨Reg.GW_DROP_CNT, 0, 32⟩
/-- `GW_CLAMP_CNT`. -/
def Reg.GW_CLAMP_CNT : Nat := 0xb00018
def F.GW_CLAMP_CNT_COUNT : RF := ⟨Reg.GW_CLAMP_CNT, 0, 32⟩
/-- `GW_SB_CFG`. -/
def Reg.GW_SB_CFG (i : Nat) : Nat := 0xb00020 + i * 0x4
def F.GW_SB_CFG_POL (i : Nat) : RF := ⟨(Reg.GW_SB_CFG i), 8, 8⟩
def F.GW_SB_CFG_LATCH (i : Nat) : RF := ⟨(Reg.GW_SB_CFG i), 0, 8⟩
/-- `GW_CAN_CFG`. -/
def Reg.GW_CAN_CFG (i : Nat) : Nat := 0xb00100 + i * 0x20
def F.GW_CAN_CFG_ENABLE (i : Nat) : RF := ⟨(Reg.GW_CAN_CFG i), 31, 1⟩
def F.GW_CAN_CFG_MODE (i : Nat) : RF := ⟨(Reg.GW_CAN_CFG i), 28, 3⟩
def F.GW_CAN_CFG_PWM (i : Nat) : RF := ⟨(Reg.GW_CAN_CFG i), 27, 1⟩
def F.GW_CAN_CFG_BO_AUTO (i : Nat) : RF := ⟨(Reg.GW_CAN_CFG i), 26, 1⟩
def F.GW_CAN_CFG_RESTRICTED (i : Nat) : RF := ⟨(Reg.GW_CAN_CFG i), 25, 1⟩
def F.GW_CAN_CFG_MONITOR (i : Nat) : RF := ⟨(Reg.GW_CAN_CFG i), 24, 1⟩
def F.GW_CAN_CFG_RETRY_MAX (i : Nat) : RF := ⟨(Reg.GW_CAN_CFG i), 16, 8⟩
def F.GW_CAN_CFG_TX_PARTS (i : Nat) : RF := ⟨(Reg.GW_CAN_CFG i), 0, 16⟩
/-- `GW_CAN_NBT`. -/
def Reg.GW_CAN_NBT (i : Nat) : Nat := 0xb00104 + i * 0x20
def F.GW_CAN_NBT_BRP_M1 (i : Nat) : RF := ⟨(Reg.GW_CAN_NBT i), 24, 8⟩
def F.GW_CAN_NBT_TSEG1_M1 (i : Nat) : RF := ⟨(Reg.GW_CAN_NBT i), 16, 8⟩
def F.GW_CAN_NBT_TSEG2_M1 (i : Nat) : RF := ⟨(Reg.GW_CAN_NBT i), 8, 7⟩
def F.GW_CAN_NBT_SJW_M1 (i : Nat) : RF := ⟨(Reg.GW_CAN_NBT i), 0, 7⟩
/-- `GW_CAN_DBT`. -/
def Reg.GW_CAN_DBT (i : Nat) : Nat := 0xb00108 + i * 0x20
def F.GW_CAN_DBT_BRP_M1 (i : Nat) : RF := ⟨(Reg.GW_CAN_DBT i), 24, 8⟩
def F.GW_CAN_DBT_TSEG1_M1 (i : Nat) : RF := ⟨(Reg.GW_CAN_DBT i), 16, 8⟩
def F.GW_CAN_DBT_TSEG2_M1 (i : Nat) : RF := ⟨(Reg.GW_CAN_DBT i), 8, 7⟩
def F.GW_CAN_DBT_SJW_M1 (i : Nat) : RF := ⟨(Reg.GW_CAN_DBT i), 0, 7⟩
/-- `GW_CAN_STAT`. -/
def Reg.GW_CAN_STAT (i : Nat) : Nat := 0xb0010c + i * 0x20
def F.GW_CAN_STAT_STATE (i : Nat) : RF := ⟨(Reg.GW_CAN_STAT i), 30, 2⟩
def F.GW_CAN_STAT_TEC (i : Nat) : RF := ⟨(Reg.GW_CAN_STAT i), 16, 8⟩
def F.GW_CAN_STAT_REC (i : Nat) : RF := ⟨(Reg.GW_CAN_STAT i), 8, 8⟩
def F.GW_CAN_STAT_QUEUED (i : Nat) : RF := ⟨(Reg.GW_CAN_STAT i), 0, 8⟩
/-- `GW_CAN_SA`. -/
def Reg.GW_CAN_SA (i : Nat) : Nat := 0xb00110 + i * 0x20
def F.GW_CAN_SA_TX_QUOTA (i : Nat) : RF := ⟨(Reg.GW_CAN_SA i), 16, 8⟩
def F.GW_CAN_SA_SA_VALID (i : Nat) : RF := ⟨(Reg.GW_CAN_SA i), 8, 1⟩
def F.GW_CAN_SA_SA (i : Nat) : RF := ⟨(Reg.GW_CAN_SA i), 0, 8⟩
/-- `GW_ETH_CFG`. -/
def Reg.GW_ETH_CFG (i : Nat) : Nat := 0xb00400 + i * 0x20
def F.GW_ETH_CFG_ENABLE (i : Nat) : RF := ⟨(Reg.GW_ETH_CFG i), 31, 1⟩
def F.GW_ETH_CFG_SPEED (i : Nat) : RF := ⟨(Reg.GW_ETH_CFG i), 28, 3⟩
def F.GW_ETH_CFG_IF (i : Nat) : RF := ⟨(Reg.GW_ETH_CFG i), 26, 2⟩
def F.GW_ETH_CFG_QBV_EN (i : Nat) : RF := ⟨(Reg.GW_ETH_CFG i), 25, 1⟩
def F.GW_ETH_CFG_TX_QUOTA (i : Nat) : RF := ⟨(Reg.GW_ETH_CFG i), 22, 3⟩
def F.GW_ETH_CFG_TX_PARTS (i : Nat) : RF := ⟨(Reg.GW_ETH_CFG i), 0, 16⟩
/-- `GW_ETH_CYCLE`. -/
def Reg.GW_ETH_CYCLE (i : Nat) : Nat := 0xb00404 + i * 0x20
def F.GW_ETH_CYCLE_VALUE (i : Nat) : RF := ⟨(Reg.GW_ETH_CYCLE i), 0, 32⟩
/-- `GW_ETH_BASE_LO`. -/
def Reg.GW_ETH_BASE_LO (i : Nat) : Nat := 0xb00408 + i * 0x20
def F.GW_ETH_BASE_LO_VALUE (i : Nat) : RF := ⟨(Reg.GW_ETH_BASE_LO i), 0, 32⟩
/-- `GW_ETH_BASE_HI`. -/
def Reg.GW_ETH_BASE_HI (i : Nat) : Nat := 0xb0040c + i * 0x20
def F.GW_ETH_BASE_HI_VALUE (i : Nat) : RF := ⟨(Reg.GW_ETH_BASE_HI i), 0, 32⟩
/-- `GW_ETH_CBS`. -/
def Reg.GW_ETH_CBS (i : Nat) : Nat := 0xb00410 + i * 0x20
def F.GW_ETH_CBS_VALUE (i : Nat) : RF := ⟨(Reg.GW_ETH_CBS i), 0, 32⟩
/-- `GW_ETH_STAT`. -/
def Reg.GW_ETH_STAT (i : Nat) : Nat := 0xb00414 + i * 0x20
def F.GW_ETH_STAT_LINK (i : Nat) : RF := ⟨(Reg.GW_ETH_STAT i), 31, 1⟩
def F.GW_ETH_STAT_GCL_PENDING (i : Nat) : RF := ⟨(Reg.GW_ETH_STAT i), 30, 1⟩
/-- `GW_TXF_CFG`. -/
def Reg.GW_TXF_CFG (i : Nat) : Nat := 0xb10000 + i * 0x20
def F.GW_TXF_CFG_VALID (i : Nat) : RF := ⟨(Reg.GW_TXF_CFG i), 31, 1⟩
def F.GW_TXF_CFG_TX0 (i : Nat) : RF := ⟨(Reg.GW_TXF_CFG i), 26, 5⟩
def F.GW_TXF_CFG_TX1 (i : Nat) : RF := ⟨(Reg.GW_TXF_CFG i), 21, 5⟩
def F.GW_TXF_CFG_J1939 (i : Nat) : RF := ⟨(Reg.GW_TXF_CFG i), 20, 1⟩
def F.GW_TXF_CFG_FMT (i : Nat) : RF := ⟨(Reg.GW_TXF_CFG i), 16, 4⟩
def F.GW_TXF_CFG_LEN (i : Nat) : RF := ⟨(Reg.GW_TXF_CFG i), 0, 12⟩
/-- `GW_TXF_ID`. -/
def Reg.GW_TXF_ID (i : Nat) : Nat := 0xb10004 + i * 0x20
def F.GW_TXF_ID_ID (i : Nat) : RF := ⟨(Reg.GW_TXF_ID i), 0, 32⟩
/-- `GW_TXF_PERIOD`. -/
def Reg.GW_TXF_PERIOD (i : Nat) : Nat := 0xb10008 + i * 0x20
def F.GW_TXF_PERIOD_PERIOD_US (i : Nat) : RF := ⟨(Reg.GW_TXF_PERIOD i), 12, 20⟩
/-- `GW_GCL_INT`. -/
def Reg.GW_GCL_INT (i j : Nat) : Nat := 0xb20000 + i * 0x800 + j * 0x8
def F.GW_GCL_INT_INTERVAL_NS (i j : Nat) : RF := ⟨(Reg.GW_GCL_INT i j), 0, 32⟩
/-- `GW_GCL_GATES`. -/
def Reg.GW_GCL_GATES (i j : Nat) : Nat := 0xb20004 + i * 0x800 + j * 0x8
def F.GW_GCL_GATES_VALID (i j : Nat) : RF := ⟨(Reg.GW_GCL_GATES i j), 31, 1⟩
def F.GW_GCL_GATES_GATES (i j : Nat) : RF := ⟨(Reg.GW_GCL_GATES i j), 0, 8⟩
/-- `GW_ROUTE_CFG`. -/
def Reg.GW_ROUTE_CFG (i : Nat) : Nat := 0xb40000 + i * 0x20
def F.GW_ROUTE_CFG_VALID (i : Nat) : RF := ⟨(Reg.GW_ROUTE_CFG i), 31, 1⟩
def F.GW_ROUTE_CFG_KIND (i : Nat) : RF := ⟨(Reg.GW_ROUTE_CFG i), 30, 1⟩
def F.GW_ROUTE_CFG_GATED (i : Nat) : RF := ⟨(Reg.GW_ROUTE_CFG i), 29, 1⟩
def F.GW_ROUTE_CFG_SRC_KIND (i : Nat) : RF := ⟨(Reg.GW_ROUTE_CFG i), 25, 4⟩
def F.GW_ROUTE_CFG_SRC0 (i : Nat) : RF := ⟨(Reg.GW_ROUTE_CFG i), 20, 5⟩
def F.GW_ROUTE_CFG_SRC1 (i : Nat) : RF := ⟨(Reg.GW_ROUTE_CFG i), 15, 5⟩
def F.GW_ROUTE_CFG_XLATE (i : Nat) : RF := ⟨(Reg.GW_ROUTE_CFG i), 14, 1⟩
def F.GW_ROUTE_CFG_PART (i : Nat) : RF := ⟨(Reg.GW_ROUTE_CFG i), 10, 4⟩
def F.GW_ROUTE_CFG_TXF (i : Nat) : RF := ⟨(Reg.GW_ROUTE_CFG i), 0, 10⟩
/-- `GW_ROUTE_MATCH`. -/
def Reg.GW_ROUTE_MATCH (i : Nat) : Nat := 0xb40004 + i * 0x20
def F.GW_ROUTE_MATCH_MATCH (i : Nat) : RF := ⟨(Reg.GW_ROUTE_MATCH i), 0, 32⟩
/-- `GW_ROUTE_MASK`. -/
def Reg.GW_ROUTE_MASK (i : Nat) : Nat := 0xb40008 + i * 0x20
def F.GW_ROUTE_MASK_MASK (i : Nat) : RF := ⟨(Reg.GW_ROUTE_MASK i), 0, 32⟩
/-- `GW_ROUTE_IN`. -/
def Reg.GW_ROUTE_IN (i : Nat) : Nat := 0xb4000c + i * 0x20
def F.GW_ROUTE_IN_IN_START (i : Nat) : RF := ⟨(Reg.GW_ROUTE_IN i), 18, 14⟩
def F.GW_ROUTE_IN_IN_LEN (i : Nat) : RF := ⟨(Reg.GW_ROUTE_IN i), 12, 6⟩
def F.GW_ROUTE_IN_IN_SGN (i : Nat) : RF := ⟨(Reg.GW_ROUTE_IN i), 11, 1⟩
def F.GW_ROUTE_IN_IN_BE (i : Nat) : RF := ⟨(Reg.GW_ROUTE_IN i), 10, 1⟩
def F.GW_ROUTE_IN_RAW (i : Nat) : RF := ⟨(Reg.GW_ROUTE_IN i), 9, 1⟩
def F.GW_ROUTE_IN_SUBST (i : Nat) : RF := ⟨(Reg.GW_ROUTE_IN i), 8, 1⟩
/-- `GW_ROUTE_OUT`. -/
def Reg.GW_ROUTE_OUT (i : Nat) : Nat := 0xb40010 + i * 0x20
def F.GW_ROUTE_OUT_OUT_START (i : Nat) : RF := ⟨(Reg.GW_ROUTE_OUT i), 18, 14⟩
def F.GW_ROUTE_OUT_OUT_LEN (i : Nat) : RF := ⟨(Reg.GW_ROUTE_OUT i), 12, 6⟩
def F.GW_ROUTE_OUT_OUT_SGN (i : Nat) : RF := ⟨(Reg.GW_ROUTE_OUT i), 11, 1⟩
def F.GW_ROUTE_OUT_OUT_BE (i : Nat) : RF := ⟨(Reg.GW_ROUTE_OUT i), 10, 1⟩
/-- `GW_ROUTE_PERIOD`. -/
def Reg.GW_ROUTE_PERIOD (i : Nat) : Nat := 0xb40014 + i * 0x20
def F.GW_ROUTE_PERIOD_SRC_PERIOD_US (i : Nat) : RF := ⟨(Reg.GW_ROUTE_PERIOD i), 12, 20⟩
/-- `GW_ROUTE_FACTOR`. -/
def Reg.GW_ROUTE_FACTOR (i : Nat) : Nat := 0xb40018 + i * 0x20
def F.GW_ROUTE_FACTOR_FACTOR (i : Nat) : RF := ⟨(Reg.GW_ROUTE_FACTOR i), 0, 32⟩
/-- `GW_ROUTE_OFFSET`. -/
def Reg.GW_ROUTE_OFFSET (i : Nat) : Nat := 0xb4001c + i * 0x20
def F.GW_ROUTE_OFFSET_OFFSET (i : Nat) : RF := ⟨(Reg.GW_ROUTE_OFFSET i), 0, 32⟩
/-- `GW_CHAN_CFG`. -/
def Reg.GW_CHAN_CFG (i : Nat) : Nat := 0xb60000 + i * 0x20
def F.GW_CHAN_CFG_VALID (i : Nat) : RF := ⟨(Reg.GW_CHAN_CFG i), 31, 1⟩
def F.GW_CHAN_CFG_CTRL (i : Nat) : RF := ⟨(Reg.GW_CHAN_CFG i), 26, 5⟩
def F.GW_CHAN_CFG_BUFS_M2 (i : Nat) : RF := ⟨(Reg.GW_CHAN_CFG i), 22, 4⟩
def F.GW_CHAN_CFG_REC_SIZE (i : Nat) : RF := ⟨(Reg.GW_CHAN_CFG i), 13, 9⟩
def F.GW_CHAN_CFG_OWNER (i : Nat) : RF := ⟨(Reg.GW_CHAN_CFG i), 0, 13⟩
/-- `GW_CHAN_ID`. -/
def Reg.GW_CHAN_ID (i : Nat) : Nat := 0xb60004 + i * 0x20
def F.GW_CHAN_ID_ID (i : Nat) : RF := ⟨(Reg.GW_CHAN_ID i), 0, 32⟩
/-- `GW_CHAN_MASK`. -/
def Reg.GW_CHAN_MASK (i : Nat) : Nat := 0xb60008 + i * 0x20
def F.GW_CHAN_MASK_MASK (i : Nat) : RF := ⟨(Reg.GW_CHAN_MASK i), 0, 32⟩
/-- `GW_CHAN_BUF_LO`. -/
def Reg.GW_CHAN_BUF_LO (i : Nat) : Nat := 0xb6000c + i * 0x20
def F.GW_CHAN_BUF_LO_BUF (i : Nat) : RF := ⟨(Reg.GW_CHAN_BUF_LO i), 6, 26⟩
/-- `GW_CHAN_BUF_HI`. -/
def Reg.GW_CHAN_BUF_HI (i : Nat) : Nat := 0xb60010 + i * 0x20
def F.GW_CHAN_BUF_HI_BUF (i : Nat) : RF := ⟨(Reg.GW_CHAN_BUF_HI i), 0, 16⟩
/-- `GW_CHAN_DOWELS`. -/
def Reg.GW_CHAN_DOWELS (i : Nat) : Nat := 0xb60014 + i * 0x20
def F.GW_CHAN_DOWELS_FRAME_DOWEL (i : Nat) : RF := ⟨(Reg.GW_CHAN_DOWELS i), 16, 14⟩
def F.GW_CHAN_DOWELS_RELEASE_DOWEL (i : Nat) : RF := ⟨(Reg.GW_CHAN_DOWELS i), 0, 14⟩
/-- `INTAKE_CTL`. -/
def Reg.INTAKE_CTL (i : Nat) : Nat := 0xc00000 + i * 0x1000
def F.INTAKE_CTL_LOCK (i : Nat) : RF := ⟨(Reg.INTAKE_CTL i), 31, 1⟩
def F.INTAKE_CTL_ENABLE (i : Nat) : RF := ⟨(Reg.INTAKE_CTL i), 0, 1⟩
/-- `INTAKE_FMT`. -/
def Reg.INTAKE_FMT (i : Nat) : Nat := 0xc00004 + i * 0x1000
def F.INTAKE_FMT_PIXFMT (i : Nat) : RF := ⟨(Reg.INTAKE_FMT i), 28, 4⟩
def F.INTAKE_FMT_VC (i : Nat) : RF := ⟨(Reg.INTAKE_FMT i), 24, 4⟩
def F.INTAKE_FMT_LANES (i : Nat) : RF := ⟨(Reg.INTAKE_FMT i), 22, 2⟩
def F.INTAKE_FMT_CFA (i : Nat) : RF := ⟨(Reg.INTAKE_FMT i), 20, 2⟩
def F.INTAKE_FMT_PHASE (i : Nat) : RF := ⟨(Reg.INTAKE_FMT i), 19, 1⟩
def F.INTAKE_FMT_SIGNED (i : Nat) : RF := ⟨(Reg.INTAKE_FMT i), 18, 1⟩
def F.INTAKE_FMT_TB (i : Nat) : RF := ⟨(Reg.INTAKE_FMT i), 15, 3⟩
def F.INTAKE_FMT_BUFS_M2 (i : Nat) : RF := ⟨(Reg.INTAKE_FMT i), 11, 4⟩
def F.INTAKE_FMT_UDT (i : Nat) : RF := ⟨(Reg.INTAKE_FMT i), 8, 3⟩
def F.INTAKE_FMT_CVT (i : Nat) : RF := ⟨(Reg.INTAKE_FMT i), 0, 8⟩
/-- `INTAKE_SIZE`. -/
def Reg.INTAKE_SIZE (i : Nat) : Nat := 0xc00008 + i * 0x1000
def F.INTAKE_SIZE_W (i : Nat) : RF := ⟨(Reg.INTAKE_SIZE i), 16, 16⟩
def F.INTAKE_SIZE_H (i : Nat) : RF := ⟨(Reg.INTAKE_SIZE i), 0, 16⟩
/-- `INTAKE_RATE`. -/
def Reg.INTAKE_RATE (i : Nat) : Nat := 0xc0000c + i * 0x1000
def F.INTAKE_RATE_TIMEOUT_MS (i : Nat) : RF := ⟨(Reg.INTAKE_RATE i), 16, 16⟩
def F.INTAKE_RATE_LANE_MBPS (i : Nat) : RF := ⟨(Reg.INTAKE_RATE i), 0, 13⟩
/-- `INTAKE_BUF_LO`. -/
def Reg.INTAKE_BUF_LO (i : Nat) : Nat := 0xc00010 + i * 0x1000
def F.INTAKE_BUF_LO_BUF (i : Nat) : RF := ⟨(Reg.INTAKE_BUF_LO i), 6, 26⟩
/-- `INTAKE_BUF_HI`. -/
def Reg.INTAKE_BUF_HI (i : Nat) : Nat := 0xc00014 + i * 0x1000
def F.INTAKE_BUF_HI_BUF (i : Nat) : RF := ⟨(Reg.INTAKE_BUF_HI i), 0, 16⟩
/-- `INTAKE_BUF_STRIDE`. -/
def Reg.INTAKE_BUF_STRIDE (i : Nat) : Nat := 0xc00018 + i * 0x1000
def F.INTAKE_BUF_STRIDE_BUF_STRIDE (i : Nat) : RF := ⟨(Reg.INTAKE_BUF_STRIDE i), 6, 26⟩
/-- `INTAKE_PLANE`. -/
def Reg.INTAKE_PLANE (i : Nat) : Nat := 0xc0001c + i * 0x1000
def F.INTAKE_PLANE_PLANE (i : Nat) : RF := ⟨(Reg.INTAKE_PLANE i), 6, 26⟩
/-- `INTAKE_ROW`. -/
def Reg.INTAKE_ROW (i : Nat) : Nat := 0xc00020 + i * 0x1000
def F.INTAKE_ROW_ROW (i : Nat) : RF := ⟨(Reg.INTAKE_ROW i), 0, 18⟩
/-- `INTAKE_DOWELS`. -/
def Reg.INTAKE_DOWELS (i : Nat) : Nat := 0xc00024 + i * 0x1000
def F.INTAKE_DOWELS_FRAME_DOWEL (i : Nat) : RF := ⟨(Reg.INTAKE_DOWELS i), 16, 14⟩
def F.INTAKE_DOWELS_RELEASE_DOWEL (i : Nat) : RF := ⟨(Reg.INTAKE_DOWELS i), 0, 14⟩
/-- `INTAKE_OWNER`. -/
def Reg.INTAKE_OWNER (i : Nat) : Nat := 0xc00028 + i * 0x1000
def F.INTAKE_OWNER_OWNER (i : Nat) : RF := ⟨(Reg.INTAKE_OWNER i), 0, 13⟩
/-- `INTAKE_OFFSET`. -/
def Reg.INTAKE_OFFSET (i j : Nat) : Nat := 0xc00040 + i * 0x1000 + j * 0x8
def F.INTAKE_OFFSET_VALUE (i j : Nat) : RF := ⟨(Reg.INTAKE_OFFSET i j), 0, 32⟩
/-- `INTAKE_SCALE`. -/
def Reg.INTAKE_SCALE (i j : Nat) : Nat := 0xc00044 + i * 0x1000 + j * 0x8
def F.INTAKE_SCALE_VALUE (i j : Nat) : RF := ⟨(Reg.INTAKE_SCALE i j), 0, 32⟩
/-- `INTAKE_SEQ`. -/
def Reg.INTAKE_SEQ (i : Nat) : Nat := 0xc00080 + i * 0x1000
def F.INTAKE_SEQ_COUNT (i : Nat) : RF := ⟨(Reg.INTAKE_SEQ i), 0, 32⟩
/-- `INTAKE_WRITTEN`. -/
def Reg.INTAKE_WRITTEN (i : Nat) : Nat := 0xc00084 + i * 0x1000
def F.INTAKE_WRITTEN_COUNT (i : Nat) : RF := ⟨(Reg.INTAKE_WRITTEN i), 0, 32⟩
/-- `INTAKE_DROPPED`. -/
def Reg.INTAKE_DROPPED (i : Nat) : Nat := 0xc00088 + i * 0x1000
def F.INTAKE_DROPPED_COUNT (i : Nat) : RF := ⟨(Reg.INTAKE_DROPPED i), 0, 32⟩
/-- `INTAKE_TRUNC`. -/
def Reg.INTAKE_TRUNC (i : Nat) : Nat := 0xc0008c + i * 0x1000
def F.INTAKE_TRUNC_COUNT (i : Nat) : RF := ⟨(Reg.INTAKE_TRUNC i), 0, 32⟩
/-- `INTAKE_CRC_ERR`. -/
def Reg.INTAKE_CRC_ERR (i : Nat) : Nat := 0xc00090 + i * 0x1000
def F.INTAKE_CRC_ERR_COUNT (i : Nat) : RF := ⟨(Reg.INTAKE_CRC_ERR i), 0, 32⟩
/-- `INTAKE_ERR`. -/
def Reg.INTAKE_ERR (i : Nat) : Nat := 0xc00094 + i * 0x1000
def F.INTAKE_ERR_COUNT (i : Nat) : RF := ⟨(Reg.INTAKE_ERR i), 0, 32⟩
/-- `INTAKE_CLAMP_CNT`. -/
def Reg.INTAKE_CLAMP_CNT (i : Nat) : Nat := 0xc00098 + i * 0x1000
def F.INTAKE_CLAMP_CNT_COUNT (i : Nat) : RF := ⟨(Reg.INTAKE_CLAMP_CNT i), 0, 32⟩
/-- `INTAKE_LOCKVIOL`. -/
def Reg.INTAKE_LOCKVIOL (i : Nat) : Nat := 0xc0009c + i * 0x1000
def F.INTAKE_LOCKVIOL_COUNT (i : Nat) : RF := ⟨(Reg.INTAKE_LOCKVIOL i), 0, 32⟩
/-- `SCAN_CTL`. -/
def Reg.SCAN_CTL (i : Nat) : Nat := 0xc80000 + i * 0x1000
def F.SCAN_CTL_LOCK (i : Nat) : RF := ⟨(Reg.SCAN_CTL i), 31, 1⟩
def F.SCAN_CTL_ENABLE (i : Nat) : RF := ⟨(Reg.SCAN_CTL i), 0, 1⟩
/-- `SCAN_LINK`. -/
def Reg.SCAN_LINK (i : Nat) : Nat := 0xc80004 + i * 0x1000
def F.SCAN_LINK_IF (i : Nat) : RF := ⟨(Reg.SCAN_LINK i), 31, 1⟩
def F.SCAN_LINK_LANES (i : Nat) : RF := ⟨(Reg.SCAN_LINK i), 29, 2⟩
def F.SCAN_LINK_RATE (i : Nat) : RF := ⟨(Reg.SCAN_LINK i), 26, 3⟩
def F.SCAN_LINK_BPC (i : Nat) : RF := ⟨(Reg.SCAN_LINK i), 25, 1⟩
def F.SCAN_LINK_PCLK_KHZ (i : Nat) : RF := ⟨(Reg.SCAN_LINK i), 0, 20⟩
/-- `SCAN_H`. -/
def Reg.SCAN_H (i : Nat) : Nat := 0xc80008 + i * 0x1000
def F.SCAN_H_ACTIVE (i : Nat) : RF := ⟨(Reg.SCAN_H i), 16, 16⟩
def F.SCAN_H_TOTAL (i : Nat) : RF := ⟨(Reg.SCAN_H i), 0, 16⟩
/-- `SCAN_V`. -/
def Reg.SCAN_V (i : Nat) : Nat := 0xc8000c + i * 0x1000
def F.SCAN_V_ACTIVE (i : Nat) : RF := ⟨(Reg.SCAN_V i), 16, 16⟩
def F.SCAN_V_TOTAL (i : Nat) : RF := ⟨(Reg.SCAN_V i), 0, 16⟩
/-- `SCAN_HSYNC`. -/
def Reg.SCAN_HSYNC (i : Nat) : Nat := 0xc80010 + i * 0x1000
def F.SCAN_HSYNC_START (i : Nat) : RF := ⟨(Reg.SCAN_HSYNC i), 16, 16⟩
def F.SCAN_HSYNC_END (i : Nat) : RF := ⟨(Reg.SCAN_HSYNC i), 0, 16⟩
/-- `SCAN_VSYNC`. -/
def Reg.SCAN_VSYNC (i : Nat) : Nat := 0xc80014 + i * 0x1000
def F.SCAN_VSYNC_START (i : Nat) : RF := ⟨(Reg.SCAN_VSYNC i), 16, 16⟩
def F.SCAN_VSYNC_END (i : Nat) : RF := ⟨(Reg.SCAN_VSYNC i), 0, 16⟩
/-- `SCAN_MAIN_CFG`. -/
def Reg.SCAN_MAIN_CFG (i : Nat) : Nat := 0xc80020 + i * 0x1000
def F.SCAN_MAIN_CFG_FMT (i : Nat) : RF := ⟨(Reg.SCAN_MAIN_CFG i), 30, 2⟩
def F.SCAN_MAIN_CFG_BUFS_M2 (i : Nat) : RF := ⟨(Reg.SCAN_MAIN_CFG i), 28, 2⟩
def F.SCAN_MAIN_CFG_OWNER (i : Nat) : RF := ⟨(Reg.SCAN_MAIN_CFG i), 0, 13⟩
/-- `SCAN_MAIN_BUF_LO`. -/
def Reg.SCAN_MAIN_BUF_LO (i : Nat) : Nat := 0xc80024 + i * 0x1000
def F.SCAN_MAIN_BUF_LO_BUF (i : Nat) : RF := ⟨(Reg.SCAN_MAIN_BUF_LO i), 6, 26⟩
/-- `SCAN_MAIN_BUF_HI`. -/
def Reg.SCAN_MAIN_BUF_HI (i : Nat) : Nat := 0xc80028 + i * 0x1000
def F.SCAN_MAIN_BUF_HI_BUF (i : Nat) : RF := ⟨(Reg.SCAN_MAIN_BUF_HI i), 0, 16⟩
/-- `SCAN_MAIN_STRIDE`. -/
def Reg.SCAN_MAIN_STRIDE (i : Nat) : Nat := 0xc8002c + i * 0x1000
def F.SCAN_MAIN_STRIDE_STRIDE (i : Nat) : RF := ⟨(Reg.SCAN_MAIN_STRIDE i), 6, 26⟩
/-- `SCAN_MAIN_PITCH`. -/
def Reg.SCAN_MAIN_PITCH (i : Nat) : Nat := 0xc80030 + i * 0x1000
def F.SCAN_MAIN_PITCH_PITCH (i : Nat) : RF := ⟨(Reg.SCAN_MAIN_PITCH i), 6, 26⟩
/-- `SCAN_MAIN_DOWELS`. -/
def Reg.SCAN_MAIN_DOWELS (i : Nat) : Nat := 0xc80034 + i * 0x1000
def F.SCAN_MAIN_DOWELS_PRESENT (i : Nat) : RF := ⟨(Reg.SCAN_MAIN_DOWELS i), 16, 14⟩
def F.SCAN_MAIN_DOWELS_RELEASE (i : Nat) : RF := ⟨(Reg.SCAN_MAIN_DOWELS i), 0, 14⟩
/-- `SCAN_BG`. -/
def Reg.SCAN_BG (i : Nat) : Nat := 0xc80038 + i * 0x1000
def F.SCAN_BG_RGB (i : Nat) : RF := ⟨(Reg.SCAN_BG i), 0, 24⟩
/-- `SCAN_SAFE_POS`. -/
def Reg.SCAN_SAFE_POS (i : Nat) : Nat := 0xc80040 + i * 0x1000
def F.SCAN_SAFE_POS_SAFE_X (i : Nat) : RF := ⟨(Reg.SCAN_SAFE_POS i), 16, 16⟩
def F.SCAN_SAFE_POS_SAFE_Y (i : Nat) : RF := ⟨(Reg.SCAN_SAFE_POS i), 0, 16⟩
/-- `SCAN_SAFE_SIZE`. -/
def Reg.SCAN_SAFE_SIZE (i : Nat) : Nat := 0xc80044 + i * 0x1000
def F.SCAN_SAFE_SIZE_SAFE_W (i : Nat) : RF := ⟨(Reg.SCAN_SAFE_SIZE i), 16, 16⟩
def F.SCAN_SAFE_SIZE_SAFE_H (i : Nat) : RF := ⟨(Reg.SCAN_SAFE_SIZE i), 0, 16⟩
/-- `SCAN_SAFE_CFG`. -/
def Reg.SCAN_SAFE_CFG (i : Nat) : Nat := 0xc80048 + i * 0x1000
def F.SCAN_SAFE_CFG_ENABLE (i : Nat) : RF := ⟨(Reg.SCAN_SAFE_CFG i), 31, 1⟩
def F.SCAN_SAFE_CFG_SAFE_HOLD (i : Nat) : RF := ⟨(Reg.SCAN_SAFE_CFG i), 24, 4⟩
def F.SCAN_SAFE_CFG_SAFE_SLOT (i : Nat) : RF := ⟨(Reg.SCAN_SAFE_CFG i), 0, 9⟩
/-- `SCAN_SAFE_FAIL`. -/
def Reg.SCAN_SAFE_FAIL (i : Nat) : Nat := 0xc8004c + i * 0x1000
def F.SCAN_SAFE_FAIL_ARGB (i : Nat) : RF := ⟨(Reg.SCAN_SAFE_FAIL i), 0, 32⟩
/-- `SCAN_FRAME`. -/
def Reg.SCAN_FRAME (i : Nat) : Nat := 0xc80080 + i * 0x1000
def F.SCAN_FRAME_COUNT (i : Nat) : RF := ⟨(Reg.SCAN_FRAME i), 0, 32⟩
/-- `SCAN_UNDERRUN`. -/
def Reg.SCAN_UNDERRUN (i : Nat) : Nat := 0xc80084 + i * 0x1000
def F.SCAN_UNDERRUN_COUNT (i : Nat) : RF := ⟨(Reg.SCAN_UNDERRUN i), 0, 32⟩
/-- `SCAN_SAFE_HELD`. -/
def Reg.SCAN_SAFE_HELD (i : Nat) : Nat := 0xc80088 + i * 0x1000
def F.SCAN_SAFE_HELD_COUNT (i : Nat) : RF := ⟨(Reg.SCAN_SAFE_HELD i), 0, 32⟩
/-- `SCAN_LOCKVIOL`. -/
def Reg.SCAN_LOCKVIOL (i : Nat) : Nat := 0xc8008c + i * 0x1000
def F.SCAN_LOCKVIOL_COUNT (i : Nat) : RF := ⟨(Reg.SCAN_LOCKVIOL i), 0, 32⟩
/-- `CVU_CTL`. -/
def Reg.CVU_CTL (i : Nat) : Nat := 0xd00000 + i * 0x1000
def F.CVU_CTL_RESET (i : Nat) : RF := ⟨(Reg.CVU_CTL i), 31, 1⟩
def F.CVU_CTL_POLY (i : Nat) : RF := ⟨(Reg.CVU_CTL i), 0, 3⟩
/-- `CVU_DATA`. -/
def Reg.CVU_DATA (i : Nat) : Nat := 0xd00004 + i * 0x1000
def F.CVU_DATA_DATA (i : Nat) : RF := ⟨(Reg.CVU_DATA i), 0, 32⟩
/-- `CVU_DATA8`. -/
def Reg.CVU_DATA8 (i : Nat) : Nat := 0xd00008 + i * 0x1000
def F.CVU_DATA8_DATA (i : Nat) : RF := ⟨(Reg.CVU_DATA8 i), 0, 32⟩
/-- `CVU_VAL_LO`. -/
def Reg.CVU_VAL_LO (i : Nat) : Nat := 0xd00010 + i * 0x1000
def F.CVU_VAL_LO_VALUE (i : Nat) : RF := ⟨(Reg.CVU_VAL_LO i), 0, 32⟩
/-- `CVU_VAL_HI`. -/
def Reg.CVU_VAL_HI (i : Nat) : Nat := 0xd00014 + i * 0x1000
def F.CVU_VAL_HI_VALUE (i : Nat) : RF := ⟨(Reg.CVU_VAL_HI i), 0, 32⟩
/-- `CVU_RESULT_LO`. -/
def Reg.CVU_RESULT_LO (i : Nat) : Nat := 0xd00018 + i * 0x1000
def F.CVU_RESULT_LO_VALUE (i : Nat) : RF := ⟨(Reg.CVU_RESULT_LO i), 0, 32⟩
/-- `CVU_RESULT_HI`. -/
def Reg.CVU_RESULT_HI (i : Nat) : Nat := 0xd0001c + i * 0x1000
def F.CVU_RESULT_HI_VALUE (i : Nat) : RF := ⟨(Reg.CVU_RESULT_HI i), 0, 32⟩
/-- `CVU_LAST_LO`. -/
def Reg.CVU_LAST_LO (i : Nat) : Nat := 0xd00020 + i * 0x1000
def F.CVU_LAST_LO_VALUE (i : Nat) : RF := ⟨(Reg.CVU_LAST_LO i), 0, 32⟩
/-- `CVU_LAST_HI`. -/
def Reg.CVU_LAST_HI (i : Nat) : Nat := 0xd00024 + i * 0x1000
def F.CVU_LAST_HI_VALUE (i : Nat) : RF := ⟨(Reg.CVU_LAST_HI i), 0, 32⟩
/-- `CVU_FRAMES`. -/
def Reg.CVU_FRAMES (i : Nat) : Nat := 0xd00028 + i * 0x1000
def F.CVU_FRAMES_VALUE (i : Nat) : RF := ⟨(Reg.CVU_FRAMES i), 0, 32⟩
/-- `CVU_EXPECT_LO`. -/
def Reg.CVU_EXPECT_LO (i : Nat) : Nat := 0xd0002c + i * 0x1000
def F.CVU_EXPECT_LO_VALUE (i : Nat) : RF := ⟨(Reg.CVU_EXPECT_LO i), 0, 32⟩
/-- `CVU_EXPECT_HI`. -/
def Reg.CVU_EXPECT_HI (i : Nat) : Nat := 0xd00030 + i * 0x1000
def F.CVU_EXPECT_HI_VALUE (i : Nat) : RF := ⟨(Reg.CVU_EXPECT_HI i), 0, 32⟩
/-- `CVU_CMP_CTL`. -/
def Reg.CVU_CMP_CTL (i : Nat) : Nat := 0xd00034 + i * 0x1000
def F.CVU_CMP_CTL_CMP_EN (i : Nat) : RF := ⟨(Reg.CVU_CMP_CTL i), 31, 1⟩
def F.CVU_CMP_CTL_CMP_N (i : Nat) : RF := ⟨(Reg.CVU_CMP_CTL i), 0, 4⟩
/-- `CVU_MISMATCH`. -/
def Reg.CVU_MISMATCH (i : Nat) : Nat := 0xd00038 + i * 0x1000
def F.CVU_MISMATCH_COUNT (i : Nat) : RF := ⟨(Reg.CVU_MISMATCH i), 0, 32⟩
/-- `CVU_STATUS`. -/
def Reg.CVU_STATUS (i : Nat) : Nat := 0xd0003c + i * 0x1000
def F.CVU_STATUS_BUSY (i : Nat) : RF := ⟨(Reg.CVU_STATUS i), 31, 1⟩
def F.CVU_STATUS_LAST_OK (i : Nat) : RF := ⟨(Reg.CVU_STATUS i), 30, 1⟩
/-- `CVU_ID`. -/
def Reg.CVU_ID (i : Nat) : Nat := 0xd00800 + i * 0x1000
def F.CVU_ID_HALF (i : Nat) : RF := ⟨(Reg.CVU_ID i), 5, 1⟩
def F.CVU_ID_INDEX (i : Nat) : RF := ⟨(Reg.CVU_ID i), 0, 5⟩
/-- `CVU_CFG`. -/
def Reg.CVU_CFG (i : Nat) : Nat := 0xd00804 + i * 0x1000
def F.CVU_CFG_LOCK (i : Nat) : RF := ⟨(Reg.CVU_CFG i), 31, 1⟩
def F.CVU_CFG_SRC (i : Nat) : RF := ⟨(Reg.CVU_CFG i), 28, 3⟩
def F.CVU_CFG_INSERT (i : Nat) : RF := ⟨(Reg.CVU_CFG i), 27, 1⟩
def F.CVU_CFG_INDEX (i : Nat) : RF := ⟨(Reg.CVU_CFG i), 16, 10⟩
def F.CVU_CFG_INS_START (i : Nat) : RF := ⟨(Reg.CVU_CFG i), 0, 14⟩
/-- `CVU_LOCKVIOL`. -/
def Reg.CVU_LOCKVIOL (i : Nat) : Nat := 0xd00808 + i * 0x1000
def F.CVU_LOCKVIOL_COUNT (i : Nat) : RF := ⟨(Reg.CVU_LOCKVIOL i), 0, 16⟩
/-- `TIME_ID`. -/
def Reg.TIME_ID (i : Nat) : Nat := 0xe00000 + i * 0x80000
def F.TIME_ID_LEAD (i : Nat) : RF := ⟨(Reg.TIME_ID i), 1, 1⟩
def F.TIME_ID_HALF (i : Nat) : RF := ⟨(Reg.TIME_ID i), 0, 1⟩
/-- `TIME_CTL`. -/
def Reg.TIME_CTL (i : Nat) : Nat := 0xe00004 + i * 0x80000
def F.TIME_CTL_LOCK (i : Nat) : RF := ⟨(Reg.TIME_CTL i), 31, 1⟩
def F.TIME_CTL_XCHK_NS (i : Nat) : RF := ⟨(Reg.TIME_CTL i), 16, 15⟩
/-- `TIME_STATUS`. -/
def Reg.TIME_STATUS (i : Nat) : Nat := 0xe00008 + i * 0x80000
def F.TIME_STATUS_LOCKED (i : Nat) : RF := ⟨(Reg.TIME_STATUS i), 31, 1⟩
def F.TIME_STATUS_XCHK_ERR (i : Nat) : RF := ⟨(Reg.TIME_STATUS i), 30, 1⟩
def F.TIME_STATUS_PULSE_OK (i : Nat) : RF := ⟨(Reg.TIME_STATUS i), 29, 1⟩
/-- `TIME_OFFSET`. -/
def Reg.TIME_OFFSET (i : Nat) : Nat := 0xe0000c + i * 0x80000
def F.TIME_OFFSET_VALUE (i : Nat) : RF := ⟨(Reg.TIME_OFFSET i), 0, 32⟩
/-- `TIME_XCHK_CNT`. -/
def Reg.TIME_XCHK_CNT (i : Nat) : Nat := 0xe00010 + i * 0x80000
def F.TIME_XCHK_CNT_VALUE (i : Nat) : RF := ⟨(Reg.TIME_XCHK_CNT i), 0, 32⟩
/-- `TIME_LOCKVIOL`. -/
def Reg.TIME_LOCKVIOL (i : Nat) : Nat := 0xe00014 + i * 0x80000
def F.TIME_LOCKVIOL_VALUE (i : Nat) : RF := ⟨(Reg.TIME_LOCKVIOL i), 0, 32⟩
/-- `TIME_PPS_CFG`. -/
def Reg.TIME_PPS_CFG (i : Nat) : Nat := 0xe00020 + i * 0x80000
def F.TIME_PPS_CFG_ENABLE (i : Nat) : RF := ⟨(Reg.TIME_PPS_CFG i), 31, 1⟩
def F.TIME_PPS_CFG_POL (i : Nat) : RF := ⟨(Reg.TIME_PPS_CFG i), 30, 1⟩
def F.TIME_PPS_CFG_WIN_US (i : Nat) : RF := ⟨(Reg.TIME_PPS_CFG i), 0, 20⟩
/-- `TIME_PPS_CNT`. -/
def Reg.TIME_PPS_CNT (i : Nat) : Nat := 0xe00024 + i * 0x80000
def F.TIME_PPS_CNT_COUNT (i : Nat) : RF := ⟨(Reg.TIME_PPS_CNT i), 0, 32⟩
/-- `TIME_PPS_REJ`. -/
def Reg.TIME_PPS_REJ (i : Nat) : Nat := 0xe00028 + i * 0x80000
def F.TIME_PPS_REJ_COUNT (i : Nat) : RF := ⟨(Reg.TIME_PPS_REJ i), 0, 32⟩
/-- `TB_CFG`. -/
def Reg.TB_CFG (i j : Nat) : Nat := 0xe00100 + i * 0x80000 + j * 0x40
def F.TB_CFG_STEP_EN (i j : Nat) : RF := ⟨(Reg.TB_CFG i j), 30, 1⟩
/-- `TB_NOW_LO`. -/
def Reg.TB_NOW_LO (i j : Nat) : Nat := 0xe00104 + i * 0x80000 + j * 0x40
def F.TB_NOW_LO_VALUE (i j : Nat) : RF := ⟨(Reg.TB_NOW_LO i j), 0, 32⟩
/-- `TB_NOW_HI`. -/
def Reg.TB_NOW_HI (i j : Nat) : Nat := 0xe00108 + i * 0x80000 + j * 0x40
def F.TB_NOW_HI_VALUE (i j : Nat) : RF := ⟨(Reg.TB_NOW_HI i j), 0, 32⟩
/-- `TB_RATE`. -/
def Reg.TB_RATE (i j : Nat) : Nat := 0xe0010c + i * 0x80000 + j * 0x40
def F.TB_RATE_RATE (i j : Nat) : RF := ⟨(Reg.TB_RATE i j), 0, 32⟩
/-- `TB_STEP_LO`. -/
def Reg.TB_STEP_LO (i j : Nat) : Nat := 0xe00110 + i * 0x80000 + j * 0x40
def F.TB_STEP_LO_STEP (i j : Nat) : RF := ⟨(Reg.TB_STEP_LO i j), 0, 32⟩
/-- `TB_STEP_HI`. -/
def Reg.TB_STEP_HI (i j : Nat) : Nat := 0xe00114 + i * 0x80000 + j * 0x40
def F.TB_STEP_HI_STEP (i j : Nat) : RF := ⟨(Reg.TB_STEP_HI i j), 0, 32⟩
/-- `TB_EPOCH_LO`. -/
def Reg.TB_EPOCH_LO (i j : Nat) : Nat := 0xe00118 + i * 0x80000 + j * 0x40
def F.TB_EPOCH_LO_EPOCH (i j : Nat) : RF := ⟨(Reg.TB_EPOCH_LO i j), 0, 32⟩
/-- `TB_EPOCH_HI`. -/
def Reg.TB_EPOCH_HI (i j : Nat) : Nat := 0xe0011c + i * 0x80000 + j * 0x40
def F.TB_EPOCH_HI_EPOCH (i j : Nat) : RF := ⟨(Reg.TB_EPOCH_HI i j), 0, 16⟩
/-- `TB_REBASE`. -/
def Reg.TB_REBASE (i j : Nat) : Nat := 0xe00120 + i * 0x80000 + j * 0x40
def F.TB_REBASE_N (i j : Nat) : RF := ⟨(Reg.TB_REBASE i j), 0, 32⟩
/-- `TB_PPS_LO`. -/
def Reg.TB_PPS_LO (i j : Nat) : Nat := 0xe00124 + i * 0x80000 + j * 0x40
def F.TB_PPS_LO_VALUE (i j : Nat) : RF := ⟨(Reg.TB_PPS_LO i j), 0, 32⟩
/-- `TB_PPS_HI`. -/
def Reg.TB_PPS_HI (i j : Nat) : Nat := 0xe00128 + i * 0x80000 + j * 0x40
def F.TB_PPS_HI_VALUE (i j : Nat) : RF := ⟨(Reg.TB_PPS_HI i j), 0, 32⟩
/-- `TB_STEP_CNT`. -/
def Reg.TB_STEP_CNT (i j : Nat) : Nat := 0xe0012c + i * 0x80000 + j * 0x40
def F.TB_STEP_CNT_COUNT (i j : Nat) : RF := ⟨(Reg.TB_STEP_CNT i j), 0, 32⟩
/-- `TIME_MAC_ADJ`. -/
def Reg.TIME_MAC_ADJ (i j : Nat) : Nat := 0xe00400 + i * 0x80000 + j * 0x100
def F.TIME_MAC_ADJ_EGRESS (i j : Nat) : RF := ⟨(Reg.TIME_MAC_ADJ i j), 16, 16⟩
def F.TIME_MAC_ADJ_INGRESS (i j : Nat) : RF := ⟨(Reg.TIME_MAC_ADJ i j), 0, 16⟩
/-- `TIME_PTP_DOM`. -/
def Reg.TIME_PTP_DOM (i j k : Nat) : Nat := 0xe00410 + i * 0x80000 + j * 0x100 + k * 0x4
def F.TIME_PTP_DOM_VALID (i j k : Nat) : RF := ⟨(Reg.TIME_PTP_DOM i j k), 31, 1⟩
def F.TIME_PTP_DOM_ONE_STEP (i j k : Nat) : RF := ⟨(Reg.TIME_PTP_DOM i j k), 30, 1⟩
def F.TIME_PTP_DOM_TB (i j k : Nat) : RF := ⟨(Reg.TIME_PTP_DOM i j k), 16, 3⟩
def F.TIME_PTP_DOM_DOMAIN (i j k : Nat) : RF := ⟨(Reg.TIME_PTP_DOM i j k), 0, 8⟩
/-- `TIME_TXTS_INFO`. -/
def Reg.TIME_TXTS_INFO (i j : Nat) : Nat := 0xe00440 + i * 0x80000 + j * 0x100
def F.TIME_TXTS_INFO_VALID (i j : Nat) : RF := ⟨(Reg.TIME_TXTS_INFO i j), 31, 1⟩
def F.TIME_TXTS_INFO_MSG_TYPE (i j : Nat) : RF := ⟨(Reg.TIME_TXTS_INFO i j), 24, 4⟩
def F.TIME_TXTS_INFO_DOMAIN (i j : Nat) : RF := ⟨(Reg.TIME_TXTS_INFO i j), 16, 8⟩
def F.TIME_TXTS_INFO_SEQ_ID (i j : Nat) : RF := ⟨(Reg.TIME_TXTS_INFO i j), 0, 16⟩
/-- `TIME_TXTS_LO`. -/
def Reg.TIME_TXTS_LO (i j : Nat) : Nat := 0xe00444 + i * 0x80000 + j * 0x100
def F.TIME_TXTS_LO_STAMP (i j : Nat) : RF := ⟨(Reg.TIME_TXTS_LO i j), 0, 32⟩
/-- `TIME_TXTS_HI`. -/
def Reg.TIME_TXTS_HI (i j : Nat) : Nat := 0xe00448 + i * 0x80000 + j * 0x100
def F.TIME_TXTS_HI_STAMP (i j : Nat) : RF := ⟨(Reg.TIME_TXTS_HI i j), 0, 32⟩
/-- `TIME_RXTS_INFO`. -/
def Reg.TIME_RXTS_INFO (i j : Nat) : Nat := 0xe00450 + i * 0x80000 + j * 0x100
def F.TIME_RXTS_INFO_VALID (i j : Nat) : RF := ⟨(Reg.TIME_RXTS_INFO i j), 31, 1⟩
def F.TIME_RXTS_INFO_MSG_TYPE (i j : Nat) : RF := ⟨(Reg.TIME_RXTS_INFO i j), 24, 4⟩
def F.TIME_RXTS_INFO_DOMAIN (i j : Nat) : RF := ⟨(Reg.TIME_RXTS_INFO i j), 16, 8⟩
def F.TIME_RXTS_INFO_SEQ_ID (i j : Nat) : RF := ⟨(Reg.TIME_RXTS_INFO i j), 0, 16⟩
/-- `TIME_RXTS_LO`. -/
def Reg.TIME_RXTS_LO (i j : Nat) : Nat := 0xe00454 + i * 0x80000 + j * 0x100
def F.TIME_RXTS_LO_STAMP (i j : Nat) : RF := ⟨(Reg.TIME_RXTS_LO i j), 0, 32⟩
/-- `TIME_RXTS_HI`. -/
def Reg.TIME_RXTS_HI (i j : Nat) : Nat := 0xe00458 + i * 0x80000 + j * 0x100
def F.TIME_RXTS_HI_STAMP (i j : Nat) : RF := ⟨(Reg.TIME_RXTS_HI i j), 0, 32⟩
/-- `TIME_TS_LOST`. -/
def Reg.TIME_TS_LOST (i j : Nat) : Nat := 0xe00460 + i * 0x80000 + j * 0x100
def F.TIME_TS_LOST_TX_LOST (i j : Nat) : RF := ⟨(Reg.TIME_TS_LOST i j), 16, 16⟩
def F.TIME_TS_LOST_RX_LOST (i j : Nat) : RF := ⟨(Reg.TIME_TS_LOST i j), 0, 16⟩
/-- `TIME_NOW_LO`. -/
def Reg.TIME_NOW_LO (i j : Nat) : Nat := 0xe01000 + i * 0x80000 + j * 0x8
def F.TIME_NOW_LO_VALUE (i j : Nat) : RF := ⟨(Reg.TIME_NOW_LO i j), 0, 32⟩
/-- `TIME_NOW_HI`. -/
def Reg.TIME_NOW_HI (i j : Nat) : Nat := 0xe01004 + i * 0x80000 + j * 0x8
def F.TIME_NOW_HI_VALUE (i j : Nat) : RF := ⟨(Reg.TIME_NOW_HI i j), 0, 32⟩
/-- `SEC_ID`. -/
def Reg.SEC_ID (i : Nat) : Nat := 0xf00000 + i * 0x80000
def F.SEC_ID_ID_OK (i : Nat) : RF := ⟨(Reg.SEC_ID i), 1, 1⟩
def F.SEC_ID_HALF (i : Nat) : RF := ⟨(Reg.SEC_ID i), 0, 1⟩
/-- `SEC_CTL`. -/
def Reg.SEC_CTL (i : Nat) : Nat := 0xf00004 + i * 0x80000
def F.SEC_CTL_LOCK (i : Nat) : RF := ⟨(Reg.SEC_CTL i), 31, 1⟩
def F.SEC_CTL_CHAL_S (i : Nat) : RF := ⟨(Reg.SEC_CTL i), 0, 10⟩
/-- `SEC_STATUS`. -/
def Reg.SEC_STATUS (i : Nat) : Nat := 0xf00008 + i * 0x80000
def F.SEC_STATUS_DEBUG (i : Nat) : RF := ⟨(Reg.SEC_STATUS i), 30, 2⟩
def F.SEC_STATUS_BOUND (i : Nat) : RF := ⟨(Reg.SEC_STATUS i), 29, 1⟩
def F.SEC_STATUS_RPMB_FRESH (i : Nat) : RF := ⟨(Reg.SEC_STATUS i), 28, 1⟩
def F.SEC_STATUS_FW_COPY (i : Nat) : RF := ⟨(Reg.SEC_STATUS i), 27, 1⟩
def F.SEC_STATUS_BOOT_ERR (i : Nat) : RF := ⟨(Reg.SEC_STATUS i), 24, 3⟩
/-- `SEC_DEVID`. -/
def Reg.SEC_DEVID (i j : Nat) : Nat := 0xf00010 + i * 0x80000 + j * 0x4
def F.SEC_DEVID_VALUE (i j : Nat) : RF := ⟨(Reg.SEC_DEVID i j), 0, 32⟩
/-- `SEC_FW_VER`. -/
def Reg.SEC_FW_VER (i : Nat) : Nat := 0xf00020 + i * 0x80000
def F.SEC_FW_VER_VALUE (i : Nat) : RF := ⟨(Reg.SEC_FW_VER i), 0, 32⟩
/-- `SEC_CTR`. -/
def Reg.SEC_CTR (i j : Nat) : Nat := 0xf00040 + i * 0x80000 + j * 0x4
def F.SEC_CTR_VALUE (i j : Nat) : RF := ⟨(Reg.SEC_CTR i j), 0, 32⟩
/-- `SEC_CLAIM`. -/
def Reg.SEC_CLAIM (i j : Nat) : Nat := 0xf00080 + i * 0x80000 + j * 0x4
def F.SEC_CLAIM_CLAIM (i j : Nat) : RF := ⟨(Reg.SEC_CLAIM i j), 0, 32⟩
/-- `SEC_DBG_SCOPE`. -/
def Reg.SEC_DBG_SCOPE (i : Nat) : Nat := 0xf00090 + i * 0x80000
def F.SEC_DBG_SCOPE_SCOPE (i : Nat) : RF := ⟨(Reg.SEC_DBG_SCOPE i), 0, 16⟩
/-- `SEC_REFUSED_CNT`. -/
def Reg.SEC_REFUSED_CNT (i : Nat) : Nat := 0xf000a0 + i * 0x80000
def F.SEC_REFUSED_CNT_COUNT (i : Nat) : RF := ⟨(Reg.SEC_REFUSED_CNT i), 0, 32⟩
/-- `SEC_SIG_FAIL`. -/
def Reg.SEC_SIG_FAIL (i : Nat) : Nat := 0xf000a4 + i * 0x80000
def F.SEC_SIG_FAIL_COUNT (i : Nat) : RF := ⟨(Reg.SEC_SIG_FAIL i), 0, 32⟩
/-- `SEC_ATTEST_CNT`. -/
def Reg.SEC_ATTEST_CNT (i : Nat) : Nat := 0xf000a8 + i * 0x80000
def F.SEC_ATTEST_CNT_COUNT (i : Nat) : RF := ⟨(Reg.SEC_ATTEST_CNT i), 0, 32⟩
/-- `SEC_LOCKVIOL`. -/
def Reg.SEC_LOCKVIOL (i : Nat) : Nat := 0xf000ac + i * 0x80000
def F.SEC_LOCKVIOL_COUNT (i : Nat) : RF := ⟨(Reg.SEC_LOCKVIOL i), 0, 32⟩
/-- `SEC_DBG_CHAL`. -/
def Reg.SEC_DBG_CHAL (i j : Nat) : Nat := 0xf01000 + i * 0x80000 + j * 0x4
def F.SEC_DBG_CHAL_DATA (i j : Nat) : RF := ⟨(Reg.SEC_DBG_CHAL i j), 0, 32⟩
/-- `SEC_DBG_MBOX`. -/
def Reg.SEC_DBG_MBOX (i j : Nat) : Nat := 0xf01040 + i * 0x80000 + j * 0x4
def F.SEC_DBG_MBOX_DATA (i j : Nat) : RF := ⟨(Reg.SEC_DBG_MBOX i j), 0, 32⟩
/-- `SEC_DBG_CMD`. -/
def Reg.SEC_DBG_CMD (i : Nat) : Nat := 0xf01120 + i * 0x80000
def F.SEC_DBG_CMD_OP (i : Nat) : RF := ⟨(Reg.SEC_DBG_CMD i), 28, 4⟩
/-- `SEC_DBG_RESULT`. -/
def Reg.SEC_DBG_RESULT (i : Nat) : Nat := 0xf01124 + i * 0x80000
def F.SEC_DBG_RESULT_BUSY (i : Nat) : RF := ⟨(Reg.SEC_DBG_RESULT i), 31, 1⟩
def F.SEC_DBG_RESULT_RESULT (i : Nat) : RF := ⟨(Reg.SEC_DBG_RESULT i), 0, 8⟩
/-- `POWER_ID`. -/
def Reg.POWER_ID (i : Nat) : Nat := 0x1000000 + i * 0x80000
def F.POWER_ID_HALF (i : Nat) : RF := ⟨(Reg.POWER_ID i), 0, 1⟩
/-- `POWER_CTL`. -/
def Reg.POWER_CTL (i : Nat) : Nat := 0x1000004 + i * 0x80000
def F.POWER_CTL_LOCK (i : Nat) : RF := ⟨(Reg.POWER_CTL i), 31, 1⟩
def F.POWER_CTL_SPREAD_MODE (i : Nat) : RF := ⟨(Reg.POWER_CTL i), 30, 1⟩
def F.POWER_CTL_SPREAD_DEPTH (i : Nat) : RF := ⟨(Reg.POWER_CTL i), 24, 6⟩
def F.POWER_CTL_LOW_STEP (i : Nat) : RF := ⟨(Reg.POWER_CTL i), 8, 3⟩
/-- `POWER_CAP`. -/
def Reg.POWER_CAP (i : Nat) : Nat := 0x1000008 + i * 0x80000
def F.POWER_CAP_DW (i : Nat) : RF := ⟨(Reg.POWER_CAP i), 0, 16⟩
/-- `POWER_NOW`. -/
def Reg.POWER_NOW (i : Nat) : Nat := 0x100000c + i * 0x80000
def F.POWER_NOW_DW (i : Nat) : RF := ⟨(Reg.POWER_NOW i), 0, 16⟩
/-- `POWER_PEAK`. -/
def Reg.POWER_PEAK (i : Nat) : Nat := 0x1000010 + i * 0x80000
def F.POWER_PEAK_DW (i : Nat) : RF := ⟨(Reg.POWER_PEAK i), 0, 16⟩
/-- `POWER_STATE_REQ`. -/
def Reg.POWER_STATE_REQ (i : Nat) : Nat := 0x1000014 + i * 0x80000
def F.POWER_STATE_REQ_TARGET (i : Nat) : RF := ⟨(Reg.POWER_STATE_REQ i), 0, 2⟩
/-- `POWER_STATUS`. -/
def Reg.POWER_STATUS (i : Nat) : Nat := 0x1000018 + i * 0x80000
def F.POWER_STATUS_STATE (i : Nat) : RF := ⟨(Reg.POWER_STATUS i), 30, 2⟩
def F.POWER_STATUS_ARR_STEP (i : Nat) : RF := ⟨(Reg.POWER_STATUS i), 27, 3⟩
def F.POWER_STATUS_GOUGE_STEP (i : Nat) : RF := ⟨(Reg.POWER_STATUS i), 25, 2⟩
def F.POWER_STATUS_THROTTLE (i : Nat) : RF := ⟨(Reg.POWER_STATUS i), 20, 5⟩
def F.POWER_STATUS_PEER_STATE (i : Nat) : RF := ⟨(Reg.POWER_STATUS i), 16, 4⟩
def F.POWER_STATUS_RESULT (i : Nat) : RF := ⟨(Reg.POWER_STATUS i), 8, 8⟩
/-- `POWER_RAIL`. -/
def Reg.POWER_RAIL (i j : Nat) : Nat := 0x1000040 + i * 0x80000 + j * 0x4
def F.POWER_RAIL_MV (i j : Nat) : RF := ⟨(Reg.POWER_RAIL i j), 16, 16⟩
def F.POWER_RAIL_CURRENT (i j : Nat) : RF := ⟨(Reg.POWER_RAIL i j), 0, 16⟩
/-- `POWER_TEMP`. -/
def Reg.POWER_TEMP (i j : Nat) : Nat := 0x1000080 + i * 0x80000 + j * 0x4
def F.POWER_TEMP_TEMP (i j : Nat) : RF := ⟨(Reg.POWER_TEMP i j), 0, 16⟩
/-- `POWER_THERM`. -/
def Reg.POWER_THERM (i : Nat) : Nat := 0x10000d0 + i * 0x80000
def F.POWER_THERM_WARN_C (i : Nat) : RF := ⟨(Reg.POWER_THERM i), 0, 8⟩
/-- `POWER_BLK_REQ`. -/
def Reg.POWER_BLK_REQ (i : Nat) : Nat := 0x1000100 + i * 0x80000
def F.POWER_BLK_REQ_OP (i : Nat) : RF := ⟨(Reg.POWER_BLK_REQ i), 28, 4⟩
def F.POWER_BLK_REQ_UNIT (i : Nat) : RF := ⟨(Reg.POWER_BLK_REQ i), 0, 7⟩
/-- `POWER_BLK_RESULT`. -/
def Reg.POWER_BLK_RESULT (i : Nat) : Nat := 0x1000104 + i * 0x80000
def F.POWER_BLK_RESULT_BUSY (i : Nat) : RF := ⟨(Reg.POWER_BLK_RESULT i), 31, 1⟩
def F.POWER_BLK_RESULT_RESULT (i : Nat) : RF := ⟨(Reg.POWER_BLK_RESULT i), 8, 8⟩
def F.POWER_BLK_RESULT_UNIT (i : Nat) : RF := ⟨(Reg.POWER_BLK_RESULT i), 0, 7⟩
/-- `POWER_BLK_STATE`. -/
def Reg.POWER_BLK_STATE (i j : Nat) : Nat := 0x1000110 + i * 0x80000 + j * 0x4
def F.POWER_BLK_STATE_STATE (i j : Nat) : RF := ⟨(Reg.POWER_BLK_STATE i j), 0, 32⟩
/-- `POWER_SLEW`. -/
def Reg.POWER_SLEW (i : Nat) : Nat := 0x1000140 + i * 0x80000
def F.POWER_SLEW_SB_SLEW (i : Nat) : RF := ⟨(Reg.POWER_SLEW i), 4, 2⟩
def F.POWER_SLEW_MEM_SLEW (i : Nat) : RF := ⟨(Reg.POWER_SLEW i), 2, 2⟩
def F.POWER_SLEW_HIO_SLEW (i : Nat) : RF := ⟨(Reg.POWER_SLEW i), 0, 2⟩
/-- `POWER_LIMIT_CNT`. -/
def Reg.POWER_LIMIT_CNT (i : Nat) : Nat := 0x1000180 + i * 0x80000
def F.POWER_LIMIT_CNT_COUNT (i : Nat) : RF := ⟨(Reg.POWER_LIMIT_CNT i), 0, 32⟩
/-- `POWER_CAP_CNT`. -/
def Reg.POWER_CAP_CNT (i : Nat) : Nat := 0x1000184 + i * 0x80000
def F.POWER_CAP_CNT_COUNT (i : Nat) : RF := ⟨(Reg.POWER_CAP_CNT i), 0, 32⟩
/-- `POWER_TRIP_CNT`. -/
def Reg.POWER_TRIP_CNT (i : Nat) : Nat := 0x1000188 + i * 0x80000
def F.POWER_TRIP_CNT_COUNT (i : Nat) : RF := ⟨(Reg.POWER_TRIP_CNT i), 0, 32⟩
/-- `POWER_LOCKVIOL`. -/
def Reg.POWER_LOCKVIOL (i : Nat) : Nat := 0x100018c + i * 0x80000
def F.POWER_LOCKVIOL_COUNT (i : Nat) : RF := ⟨(Reg.POWER_LOCKVIOL i), 0, 32⟩
/-- `WEAR_ID`. -/
def Reg.WEAR_ID : Nat := 0x1100000
def F.WEAR_ID_VERSION : RF := ⟨Reg.WEAR_ID, 0, 16⟩
/-- `WEAR_CTL`. -/
def Reg.WEAR_CTL : Nat := 0x1100004
def F.WEAR_CTL_LOCK : RF := ⟨Reg.WEAR_CTL, 31, 1⟩
def F.WEAR_CTL_WATCH_PCT : RF := ⟨Reg.WEAR_CTL, 0, 8⟩
/-- `WEAR_STATUS`. -/
def Reg.WEAR_STATUS : Nat := 0x1100008
def F.WEAR_STATUS_LEVEL : RF := ⟨Reg.WEAR_STATUS, 30, 2⟩
def F.WEAR_STATUS_FRESH : RF := ⟨Reg.WEAR_STATUS, 29, 1⟩
def F.WEAR_STATUS_WRITE_ERR : RF := ⟨Reg.WEAR_STATUS, 28, 1⟩
def F.WEAR_STATUS_BANK : RF := ⟨Reg.WEAR_STATUS, 27, 1⟩
def F.WEAR_STATUS_CAUSE : RF := ⟨Reg.WEAR_STATUS, 0, 11⟩
/-- `WEAR_HOURS`. -/
def Reg.WEAR_HOURS : Nat := 0x110000c
def F.WEAR_HOURS_COUNT : RF := ⟨Reg.WEAR_HOURS, 0, 32⟩
/-- `WEAR_STARTS`. -/
def Reg.WEAR_STARTS : Nat := 0x1100010
def F.WEAR_STARTS_COUNT : RF := ⟨Reg.WEAR_STARTS, 0, 32⟩
/-- `WEAR_LOG_CNT`. -/
def Reg.WEAR_LOG_CNT : Nat := 0x1100014
def F.WEAR_LOG_CNT_COUNT : RF := ⟨Reg.WEAR_LOG_CNT, 0, 32⟩
/-- `WEAR_LOCKVIOL`. -/
def Reg.WEAR_LOCKVIOL : Nat := 0x1100018
def F.WEAR_LOCKVIOL_COUNT : RF := ⟨Reg.WEAR_LOCKVIOL, 0, 32⟩
/-- `WEAR_RES`. -/
def Reg.WEAR_RES (i : Nat) : Nat := 0x1100040 + i * 0x4
def F.WEAR_RES_USED (i : Nat) : RF := ⟨(Reg.WEAR_RES i), 16, 16⟩
def F.WEAR_RES_TOTAL (i : Nat) : RF := ⟨(Reg.WEAR_RES i), 0, 16⟩
/-- `WEAR_LOG_SEL`. -/
def Reg.WEAR_LOG_SEL : Nat := 0x1100080
def F.WEAR_LOG_SEL_INDEX : RF := ⟨Reg.WEAR_LOG_SEL, 0, 9⟩
/-- `WEAR_LOG`. -/
def Reg.WEAR_LOG (i : Nat) : Nat := 0x1100084 + i * 0x4
def F.WEAR_LOG_DATA (i : Nat) : RF := ⟨(Reg.WEAR_LOG i), 0, 32⟩
/-- `WEAR_MIRROR`. -/
def Reg.WEAR_MIRROR (i : Nat) : Nat := 0x1100100 + i * 0x4
def F.WEAR_MIRROR_PARTS (i : Nat) : RF := ⟨(Reg.WEAR_MIRROR i), 0, 16⟩
/-- `PEER_ID`. -/
def Reg.PEER_ID (i : Nat) : Nat := 0x1200000 + i * 0x80000
def F.PEER_ID_HALF (i : Nat) : RF := ⟨(Reg.PEER_ID i), 0, 1⟩
/-- `PEER_CTL`. -/
def Reg.PEER_CTL (i : Nat) : Nat := 0x1200004 + i * 0x80000
def F.PEER_CTL_LOCK (i : Nat) : RF := ⟨(Reg.PEER_CTL i), 31, 1⟩
def F.PEER_CTL_FABRIC_NO (i : Nat) : RF := ⟨(Reg.PEER_CTL i), 24, 6⟩
def F.PEER_CTL_TIMEOUT_US (i : Nat) : RF := ⟨(Reg.PEER_CTL i), 16, 8⟩
def F.PEER_CTL_IDLE_10US (i : Nat) : RF := ⟨(Reg.PEER_CTL i), 8, 8⟩
def F.PEER_CTL_LINK_EN (i : Nat) : RF := ⟨(Reg.PEER_CTL i), 0, 8⟩
/-- `PEER_TIMEOUT_CNT`. -/
def Reg.PEER_TIMEOUT_CNT (i : Nat) : Nat := 0x1200010 + i * 0x80000
def F.PEER_TIMEOUT_CNT_COUNT (i : Nat) : RF := ⟨(Reg.PEER_TIMEOUT_CNT i), 0, 32⟩
/-- `PEER_REFUSED_CNT`. -/
def Reg.PEER_REFUSED_CNT (i : Nat) : Nat := 0x1200014 + i * 0x80000
def F.PEER_REFUSED_CNT_COUNT (i : Nat) : RF := ⟨(Reg.PEER_REFUSED_CNT i), 0, 32⟩
/-- `PEER_LOST_CNT`. -/
def Reg.PEER_LOST_CNT (i : Nat) : Nat := 0x1200018 + i * 0x80000
def F.PEER_LOST_CNT_COUNT (i : Nat) : RF := ⟨(Reg.PEER_LOST_CNT i), 0, 32⟩
/-- `PEER_LOCKVIOL`. -/
def Reg.PEER_LOCKVIOL (i : Nat) : Nat := 0x120001c + i * 0x80000
def F.PEER_LOCKVIOL_COUNT (i : Nat) : RF := ⟨(Reg.PEER_LOCKVIOL i), 0, 32⟩
/-- `PEER_ROUTE`. -/
def Reg.PEER_ROUTE (i j : Nat) : Nat := 0x1200100 + i * 0x80000 + j * 0x4
def F.PEER_ROUTE_VIA_PEER (i j : Nat) : RF := ⟨(Reg.PEER_ROUTE i j), 8, 1⟩
def F.PEER_ROUTE_LINKS (i j : Nat) : RF := ⟨(Reg.PEER_ROUTE i j), 0, 8⟩
/-- `PEER_MAP`. -/
def Reg.PEER_MAP (i j : Nat) : Nat := 0x1200200 + i * 0x80000 + j * 0x4
def F.PEER_MAP_VALID (i j : Nat) : RF := ⟨(Reg.PEER_MAP i j), 31, 1⟩
def F.PEER_MAP_OWNER (i j : Nat) : RF := ⟨(Reg.PEER_MAP i j), 0, 13⟩
/-- `PEER_DEV`. -/
def Reg.PEER_DEV (i j : Nat) : Nat := 0x1200300 + i * 0x80000 + j * 0x4
def F.PEER_DEV_LOST (i j : Nat) : RF := ⟨(Reg.PEER_DEV i j), 31, 1⟩
def F.PEER_DEV_FOUND (i j : Nat) : RF := ⟨(Reg.PEER_DEV i j), 30, 1⟩
/-- `PEER_LINK_CFG`. -/
def Reg.PEER_LINK_CFG (i j : Nat) : Nat := 0x1201000 + i * 0x80000 + j * 0x40
def F.PEER_LINK_CFG_LANE_ERR_MAX (i j : Nat) : RF := ⟨(Reg.PEER_LINK_CFG i j), 0, 32⟩
/-- `PEER_LINK_STATUS`. -/
def Reg.PEER_LINK_STATUS (i j : Nat) : Nat := 0x1201004 + i * 0x80000 + j * 0x40
def F.PEER_LINK_STATUS_STATE (i j : Nat) : RF := ⟨(Reg.PEER_LINK_STATUS i j), 29, 3⟩
def F.PEER_LINK_STATUS_WIDTH (i j : Nat) : RF := ⟨(Reg.PEER_LINK_STATUS i j), 27, 2⟩
def F.PEER_LINK_STATUS_SPARE_USED (i j : Nat) : RF := ⟨(Reg.PEER_LINK_STATUS i j), 26, 1⟩
def F.PEER_LINK_STATUS_FAR_NO (i j : Nat) : RF := ⟨(Reg.PEER_LINK_STATUS i j), 16, 6⟩
def F.PEER_LINK_STATUS_LANE_FAIL (i j : Nat) : RF := ⟨(Reg.PEER_LINK_STATUS i j), 0, 5⟩
/-- `PEER_LINK_CORR`. -/
def Reg.PEER_LINK_CORR (i j : Nat) : Nat := 0x1201008 + i * 0x80000 + j * 0x40
def F.PEER_LINK_CORR_COUNT (i j : Nat) : RF := ⟨(Reg.PEER_LINK_CORR i j), 0, 32⟩
/-- `PEER_LINK_REPLAY`. -/
def Reg.PEER_LINK_REPLAY (i j : Nat) : Nat := 0x120100c + i * 0x80000 + j * 0x40
def F.PEER_LINK_REPLAY_COUNT (i j : Nat) : RF := ⟨(Reg.PEER_LINK_REPLAY i j), 0, 32⟩
/-- `PEER_LINK_TX_LO`. -/
def Reg.PEER_LINK_TX_LO (i j : Nat) : Nat := 0x1201010 + i * 0x80000 + j * 0x40
def F.PEER_LINK_TX_LO_COUNT (i j : Nat) : RF := ⟨(Reg.PEER_LINK_TX_LO i j), 0, 32⟩
/-- `PEER_LINK_TX_HI`. -/
def Reg.PEER_LINK_TX_HI (i j : Nat) : Nat := 0x1201014 + i * 0x80000 + j * 0x40
def F.PEER_LINK_TX_HI_COUNT (i j : Nat) : RF := ⟨(Reg.PEER_LINK_TX_HI i j), 0, 32⟩
/-- `PCIE_CTL`. -/
def Reg.PCIE_CTL (i : Nat) : Nat := 0x1204000 + i * 0x80000
def F.PCIE_CTL_LOCK (i : Nat) : RF := ⟨(Reg.PCIE_CTL i), 31, 1⟩
def F.PCIE_CTL_MODE (i : Nat) : RF := ⟨(Reg.PCIE_CTL i), 30, 1⟩
def F.PCIE_CTL_MAX_GEN (i : Nat) : RF := ⟨(Reg.PCIE_CTL i), 28, 2⟩
def F.PCIE_CTL_MAX_WIDTH (i : Nat) : RF := ⟨(Reg.PCIE_CTL i), 26, 2⟩
def F.PCIE_CTL_BAR4_EN (i : Nat) : RF := ⟨(Reg.PCIE_CTL i), 25, 1⟩
def F.PCIE_CTL_ASPM_L1 (i : Nat) : RF := ⟨(Reg.PCIE_CTL i), 24, 1⟩
def F.PCIE_CTL_CPL_TO_US (i : Nat) : RF := ⟨(Reg.PCIE_CTL i), 0, 16⟩
/-- `PCIE_OWNER`. -/
def Reg.PCIE_OWNER (i : Nat) : Nat := 0x1204004 + i * 0x80000
def F.PCIE_OWNER_OWNER (i : Nat) : RF := ⟨(Reg.PCIE_OWNER i), 0, 13⟩
/-- `PCIE_STATUS`. -/
def Reg.PCIE_STATUS (i : Nat) : Nat := 0x1204008 + i * 0x80000
def F.PCIE_STATUS_LINK_UP (i : Nat) : RF := ⟨(Reg.PCIE_STATUS i), 31, 1⟩
def F.PCIE_STATUS_SPEED (i : Nat) : RF := ⟨(Reg.PCIE_STATUS i), 28, 2⟩
def F.PCIE_STATUS_WIDTH (i : Nat) : RF := ⟨(Reg.PCIE_STATUS i), 26, 2⟩
/-- `PCIE_CPL_TO_CNT`. -/
def Reg.PCIE_CPL_TO_CNT (i : Nat) : Nat := 0x1204010 + i * 0x80000
def F.PCIE_CPL_TO_CNT_COUNT (i : Nat) : RF := ⟨(Reg.PCIE_CPL_TO_CNT i), 0, 32⟩
/-- `PCIE_UR_CNT`. -/
def Reg.PCIE_UR_CNT (i : Nat) : Nat := 0x1204014 + i * 0x80000
def F.PCIE_UR_CNT_COUNT (i : Nat) : RF := ⟨(Reg.PCIE_UR_CNT i), 0, 32⟩
/-- `PCIE_AER_CNT`. -/
def Reg.PCIE_AER_CNT (i : Nat) : Nat := 0x1204018 + i * 0x80000
def F.PCIE_AER_CNT_COUNT (i : Nat) : RF := ⟨(Reg.PCIE_AER_CNT i), 0, 32⟩
/-- `PCIE_OB_MAP_LO`. -/
def Reg.PCIE_OB_MAP_LO (i j : Nat) : Nat := 0x1204100 + i * 0x80000 + j * 0x8
def F.PCIE_OB_MAP_LO_BUS_LO (i j : Nat) : RF := ⟨(Reg.PCIE_OB_MAP_LO i j), 26, 6⟩
def F.PCIE_OB_MAP_LO_VALID (i j : Nat) : RF := ⟨(Reg.PCIE_OB_MAP_LO i j), 0, 1⟩
/-- `PCIE_OB_MAP_HI`. -/
def Reg.PCIE_OB_MAP_HI (i j : Nat) : Nat := 0x1204104 + i * 0x80000 + j * 0x8
def F.PCIE_OB_MAP_HI_BUS_HI (i j : Nat) : RF := ⟨(Reg.PCIE_OB_MAP_HI i j), 0, 32⟩
/-- `HIO_ID`. -/
def Reg.HIO_ID (i : Nat) : Nat := 0x1300000 + i * 0x80000
def F.HIO_ID_HALF (i : Nat) : RF := ⟨(Reg.HIO_ID i), 0, 1⟩
/-- `HIO_CTL`. -/
def Reg.HIO_CTL (i : Nat) : Nat := 0x1300004 + i * 0x80000
def F.HIO_CTL_LOCK (i : Nat) : RF := ⟨(Reg.HIO_CTL i), 31, 1⟩
/-- `HIO_LOCKVIOL`. -/
def Reg.HIO_LOCKVIOL (i : Nat) : Nat := 0x1300008 + i * 0x80000
def F.HIO_LOCKVIOL_COUNT (i : Nat) : RF := ⟨(Reg.HIO_LOCKVIOL i), 0, 16⟩
/-- `HIO_PWM_CFG`. -/
def Reg.HIO_PWM_CFG (i j : Nat) : Nat := 0x1300100 + i * 0x80000 + j * 0x10
def F.HIO_PWM_CFG_ALIGN (i j : Nat) : RF := ⟨(Reg.HIO_PWM_CFG i j), 31, 1⟩
def F.HIO_PWM_CFG_PERIOD (i j : Nat) : RF := ⟨(Reg.HIO_PWM_CFG i j), 0, 24⟩
/-- `HIO_PWM_DUTY`. -/
def Reg.HIO_PWM_DUTY (i j : Nat) : Nat := 0x1300104 + i * 0x80000 + j * 0x10
def F.HIO_PWM_DUTY_DUTY (i j : Nat) : RF := ⟨(Reg.HIO_PWM_DUTY i j), 0, 17⟩
/-- `HIO_DO_CFG`. -/
def Reg.HIO_DO_CFG (i j : Nat) : Nat := 0x1300200 + i * 0x80000 + j * 0x4
def F.HIO_DO_CFG_LEVEL (i j : Nat) : RF := ⟨(Reg.HIO_DO_CFG i j), 1, 1⟩
def F.HIO_DO_CFG_RB_EN (i j : Nat) : RF := ⟨(Reg.HIO_DO_CFG i j), 0, 1⟩
/-- `HIO_ADC_SEQ`. -/
def Reg.HIO_ADC_SEQ (i : Nat) : Nat := 0x1300300 + i * 0x80000
def F.HIO_ADC_SEQ_SEQ (i : Nat) : RF := ⟨(Reg.HIO_ADC_SEQ i), 0, 16⟩
/-- `HIO_ENC_CFG`. -/
def Reg.HIO_ENC_CFG (i j : Nat) : Nat := 0x1300400 + i * 0x80000 + j * 0x10
def F.HIO_ENC_CFG_VEL_WIN_US (i j : Nat) : RF := ⟨(Reg.HIO_ENC_CFG i j), 16, 16⟩
def F.HIO_ENC_CFG_ENC_FILT (i j : Nat) : RF := ⟨(Reg.HIO_ENC_CFG i j), 0, 8⟩
/-- `HIO_DI_CFG`. -/
def Reg.HIO_DI_CFG (i j : Nat) : Nat := 0x1300500 + i * 0x80000 + j * 0x10
def F.HIO_DI_CFG_POL (i j : Nat) : RF := ⟨(Reg.HIO_DI_CFG i j), 31, 1⟩
def F.HIO_DI_CFG_SAFE (i j : Nat) : RF := ⟨(Reg.HIO_DI_CFG i j), 30, 1⟩
def F.HIO_DI_CFG_EDGE (i j : Nat) : RF := ⟨(Reg.HIO_DI_CFG i j), 28, 2⟩
def F.HIO_DI_CFG_FILT (i j : Nat) : RF := ⟨(Reg.HIO_DI_CFG i j), 0, 17⟩
/-- `HIO_DI_RATE`. -/
def Reg.HIO_DI_RATE (i j : Nat) : Nat := 0x1300504 + i * 0x80000 + j * 0x10
def F.HIO_DI_RATE_CHAT_MAX (i j : Nat) : RF := ⟨(Reg.HIO_DI_RATE i j), 24, 8⟩
def F.HIO_DI_RATE_CHAT_WIN_MS (i j : Nat) : RF := ⟨(Reg.HIO_DI_RATE i j), 14, 10⟩
/-- `HIO_DI_STUCK`. -/
def Reg.HIO_DI_STUCK (i j : Nat) : Nat := 0x1300508 + i * 0x80000 + j * 0x10
def F.HIO_DI_STUCK_STUCK (i j : Nat) : RF := ⟨(Reg.HIO_DI_STUCK i j), 0, 16⟩
/-- `HIO_DI_NOTIFY`. -/
def Reg.HIO_DI_NOTIFY (i j : Nat) : Nat := 0x130050c + i * 0x80000 + j * 0x10
def F.HIO_DI_NOTIFY_DOWEL_VALID (i j : Nat) : RF := ⟨(Reg.HIO_DI_NOTIFY i j), 31, 1⟩
def F.HIO_DI_NOTIFY_DOWEL (i j : Nat) : RF := ⟨(Reg.HIO_DI_NOTIFY i j), 16, 14⟩
def F.HIO_DI_NOTIFY_NOTIFY_OWNER (i j : Nat) : RF := ⟨(Reg.HIO_DI_NOTIFY i j), 0, 13⟩
/-- `HIO_ADC_GAIN`. -/
def Reg.HIO_ADC_GAIN (i j : Nat) : Nat := 0x1300700 + i * 0x80000 + j * 0x10
def F.HIO_ADC_GAIN_GAIN (i j : Nat) : RF := ⟨(Reg.HIO_ADC_GAIN i j), 0, 32⟩
/-- `HIO_ADC_OFF`. -/
def Reg.HIO_ADC_OFF (i j : Nat) : Nat := 0x1300704 + i * 0x80000 + j * 0x10
def F.HIO_ADC_OFF_OFF (i j : Nat) : RF := ⟨(Reg.HIO_ADC_OFF i j), 0, 12⟩
/-- `HIO_ADC_WIN`. -/
def Reg.HIO_ADC_WIN (i j : Nat) : Nat := 0x1300708 + i * 0x80000 + j * 0x10
def F.HIO_ADC_WIN_MAX (i j : Nat) : RF := ⟨(Reg.HIO_ADC_WIN i j), 16, 12⟩
def F.HIO_ADC_WIN_MIN (i j : Nat) : RF := ⟨(Reg.HIO_ADC_WIN i j), 0, 12⟩
/-- `HIO_DI_LEVEL`. -/
def Reg.HIO_DI_LEVEL (i : Nat) : Nat := 0x1301000 + i * 0x80000
def F.HIO_DI_LEVEL_INPUT (i : Nat) : RF := ⟨(Reg.HIO_DI_LEVEL i), 0, 32⟩
/-- `HIO_DI_CHATTER`. -/
def Reg.HIO_DI_CHATTER (i : Nat) : Nat := 0x1301004 + i * 0x80000
def F.HIO_DI_CHATTER_INPUT (i : Nat) : RF := ⟨(Reg.HIO_DI_CHATTER i), 0, 32⟩
/-- `HIO_DI_STUCK_ST`. -/
def Reg.HIO_DI_STUCK_ST (i : Nat) : Nat := 0x1301008 + i * 0x80000
def F.HIO_DI_STUCK_ST_INPUT (i : Nat) : RF := ⟨(Reg.HIO_DI_STUCK_ST i), 0, 32⟩
/-- `HIO_DO_STATE`. -/
def Reg.HIO_DO_STATE (i : Nat) : Nat := 0x130100c + i * 0x80000
def F.HIO_DO_STATE_DO_FAULT (i : Nat) : RF := ⟨(Reg.HIO_DO_STATE i), 16, 16⟩
def F.HIO_DO_STATE_LEVEL (i : Nat) : RF := ⟨(Reg.HIO_DO_STATE i), 0, 16⟩
/-- `HIO_ADC_VAL`. -/
def Reg.HIO_ADC_VAL (i j : Nat) : Nat := 0x1301100 + i * 0x80000 + j * 0x4
def F.HIO_ADC_VAL_VALUE (i j : Nat) : RF := ⟨(Reg.HIO_ADC_VAL i j), 0, 32⟩
/-- `HIO_ENC_POS`. -/
def Reg.HIO_ENC_POS (i j : Nat) : Nat := 0x1301200 + i * 0x80000 + j * 0x10
def F.HIO_ENC_POS_VALUE (i j : Nat) : RF := ⟨(Reg.HIO_ENC_POS i j), 0, 32⟩
/-- `HIO_ENC_VEL`. -/
def Reg.HIO_ENC_VEL (i j : Nat) : Nat := 0x1301204 + i * 0x80000 + j * 0x10
def F.HIO_ENC_VEL_VALUE (i j : Nat) : RF := ⟨(Reg.HIO_ENC_VEL i j), 0, 32⟩
/-- `HIO_ENC_ERR`. -/
def Reg.HIO_ENC_ERR (i j : Nat) : Nat := 0x1301208 + i * 0x80000 + j * 0x10
def F.HIO_ENC_ERR_VALUE (i j : Nat) : RF := ⟨(Reg.HIO_ENC_ERR i j), 0, 16⟩
/-- `HIO_DI_CNT`. -/
def Reg.HIO_DI_CNT (i j : Nat) : Nat := 0x1301300 + i * 0x80000 + j * 0x4
def F.HIO_DI_CNT_COUNT (i j : Nat) : RF := ⟨(Reg.HIO_DI_CNT i j), 0, 32⟩
/-- `VI_CTL`. -/
def Reg.VI_CTL : Nat := 0x1400000
def F.VI_CTL_LOCK : RF := ⟨Reg.VI_CTL, 31, 1⟩
def F.VI_CTL_MODE : RF := ⟨Reg.VI_CTL, 0, 1⟩
/-- `VI_MGR`. -/
def Reg.VI_MGR : Nat := 0x1400004
def F.VI_MGR_OWNER : RF := ⟨Reg.VI_MGR, 0, 13⟩
/-- `VI_STATUS`. -/
def Reg.VI_STATUS : Nat := 0x1400008
def F.VI_STATUS_FREE : RF := ⟨Reg.VI_STATUS, 0, 9⟩
/-- `VI_CMD`. -/
def Reg.VI_CMD : Nat := 0x1400010
def F.VI_CMD_OP : RF := ⟨Reg.VI_CMD, 28, 4⟩
def F.VI_CMD_RECORD : RF := ⟨Reg.VI_CMD, 0, 8⟩
/-- `VI_CMD_RESULT`. -/
def Reg.VI_CMD_RESULT : Nat := 0x1400014
def F.VI_CMD_RESULT_BUSY : RF := ⟨Reg.VI_CMD_RESULT, 31, 1⟩
def F.VI_CMD_RESULT_OP : RF := ⟨Reg.VI_CMD_RESULT, 24, 4⟩
def F.VI_CMD_RESULT_RECORD : RF := ⟨Reg.VI_CMD_RESULT, 16, 8⟩
def F.VI_CMD_RESULT_RESULT : RF := ⟨Reg.VI_CMD_RESULT, 0, 8⟩
/-- `VI_ARG`. -/
def Reg.VI_ARG (i : Nat) : Nat := 0x1400020 + i * 0x4
def F.VI_ARG_ARG (i : Nat) : RF := ⟨(Reg.VI_ARG i), 0, 32⟩
/-- `VI_RCFG_SEL`. -/
def Reg.VI_RCFG_SEL : Nat := 0x1400040
def F.VI_RCFG_SEL_RING : RF := ⟨Reg.VI_RCFG_SEL, 0, 16⟩
/-- `VI_RCFG`. -/
def Reg.VI_RCFG (i : Nat) : Nat := 0x1400044 + i * 0x4
def F.VI_RCFG_DATA (i : Nat) : RF := ⟨(Reg.VI_RCFG i), 0, 32⟩
/-- `VI_LOCKVIOL`. -/
def Reg.VI_LOCKVIOL : Nat := 0x1400060
def F.VI_LOCKVIOL_COUNT : RF := ⟨Reg.VI_LOCKVIOL, 0, 16⟩
/-- `VI_SELF_SEL`. -/
def Reg.VI_SELF_SEL : Nat := 0x1401000
def F.VI_SELF_SEL_RING : RF := ⟨Reg.VI_SELF_SEL, 0, 16⟩
/-- `VI_SELF`. -/
def Reg.VI_SELF (i : Nat) : Nat := 0x1401004 + i * 0x4
def F.VI_SELF_DATA (i : Nat) : RF := ⟨(Reg.VI_SELF i), 0, 32⟩
/-- `VI_INST_STATE`. -/
def Reg.VI_INST_STATE (i : Nat) : Nat := 0x1404000 + i * 0x20
def F.VI_INST_STATE_STATE (i : Nat) : RF := ⟨(Reg.VI_INST_STATE i), 29, 3⟩
def F.VI_INST_STATE_STATIC (i : Nat) : RF := ⟨(Reg.VI_INST_STATE i), 28, 1⟩
def F.VI_INST_STATE_MGR (i : Nat) : RF := ⟨(Reg.VI_INST_STATE i), 27, 1⟩
def F.VI_INST_STATE_WORLD (i : Nat) : RF := ⟨(Reg.VI_INST_STATE i), 24, 1⟩
def F.VI_INST_STATE_PART (i : Nat) : RF := ⟨(Reg.VI_INST_STATE i), 20, 4⟩
def F.VI_INST_STATE_SHARE (i : Nat) : RF := ⟨(Reg.VI_INST_STATE i), 8, 8⟩
/-- `VI_INST_RINGS`. -/
def Reg.VI_INST_RINGS (i : Nat) : Nat := 0x1404004 + i * 0x20
def F.VI_INST_RINGS_RING_FIRST (i : Nat) : RF := ⟨(Reg.VI_INST_RINGS i), 16, 16⟩
def F.VI_INST_RINGS_RING_N (i : Nat) : RF := ⟨(Reg.VI_INST_RINGS i), 0, 9⟩
/-- `VI_INST_DOWELS`. -/
def Reg.VI_INST_DOWELS (i : Nat) : Nat := 0x1404008 + i * 0x20
def F.VI_INST_DOWELS_DOWEL_FIRST (i : Nat) : RF := ⟨(Reg.VI_INST_DOWELS i), 16, 14⟩
def F.VI_INST_DOWELS_DOWEL_N (i : Nat) : RF := ⟨(Reg.VI_INST_DOWELS i), 0, 9⟩
/-- `VI_INST_PCI`. -/
def Reg.VI_INST_PCI (i : Nat) : Nat := 0x140400c + i * 0x20
def F.VI_INST_PCI_PASID_VALID (i : Nat) : RF := ⟨(Reg.VI_INST_PCI i), 31, 1⟩
def F.VI_INST_PCI_PORT (i : Nat) : RF := ⟨(Reg.VI_INST_PCI i), 30, 1⟩
def F.VI_INST_PCI_VF (i : Nat) : RF := ⟨(Reg.VI_INST_PCI i), 20, 8⟩
def F.VI_INST_PCI_PASID (i : Nat) : RF := ⟨(Reg.VI_INST_PCI i), 0, 20⟩
/-- `VI_INST_MEM_H_FIRST`. -/
def Reg.VI_INST_MEM_H_FIRST (i : Nat) : Nat := 0x1404010 + i * 0x20
def F.VI_INST_MEM_H_FIRST_GRANULE (i : Nat) : RF := ⟨(Reg.VI_INST_MEM_H_FIRST i), 0, 20⟩
/-- `VI_INST_MEM_H_N`. -/
def Reg.VI_INST_MEM_H_N (i : Nat) : Nat := 0x1404014 + i * 0x20
def F.VI_INST_MEM_H_N_GRANULE (i : Nat) : RF := ⟨(Reg.VI_INST_MEM_H_N i), 0, 20⟩
/-- `VI_INST_MEM_T_FIRST`. -/
def Reg.VI_INST_MEM_T_FIRST (i : Nat) : Nat := 0x1404018 + i * 0x20
def F.VI_INST_MEM_T_FIRST_GRANULE (i : Nat) : RF := ⟨(Reg.VI_INST_MEM_T_FIRST i), 0, 20⟩
/-- `VI_INST_MEM_T_N`. -/
def Reg.VI_INST_MEM_T_N (i : Nat) : Nat := 0x140401c + i * 0x20
def F.VI_INST_MEM_T_N_GRANULE (i : Nat) : RF := ⟨(Reg.VI_INST_MEM_T_N i), 0, 20⟩
/-- `RING_DB`. -/
def Reg.RING_DB (i : Nat) : Nat := 0x10000000 + i * 0x1000
def F.RING_DB_INDEX (i : Nat) : RF := ⟨(Reg.RING_DB i), 0, 32⟩
/-- `RING_TAIL`. -/
def Reg.RING_TAIL (i : Nat) : Nat := 0x10000004 + i * 0x1000
def F.RING_TAIL_INDEX (i : Nat) : RF := ⟨(Reg.RING_TAIL i), 0, 32⟩
/-- `RING_HEAD`. -/
def Reg.RING_HEAD (i : Nat) : Nat := 0x10000008 + i * 0x1000
def F.RING_HEAD_INDEX (i : Nat) : RF := ⟨(Reg.RING_HEAD i), 0, 32⟩
/-- `RING_STATUS`. -/
def Reg.RING_STATUS (i : Nat) : Nat := 0x1000000c + i * 0x1000
def F.RING_STATUS_ENABLED (i : Nat) : RF := ⟨(Reg.RING_STATUS i), 31, 1⟩
def F.RING_STATUS_IDLE (i : Nat) : RF := ⟨(Reg.RING_STATUS i), 30, 1⟩
def F.RING_STATUS_FETCH_ERR (i : Nat) : RF := ⟨(Reg.RING_STATUS i), 29, 1⟩
def F.RING_STATUS_CFG_ERR (i : Nat) : RF := ⟨(Reg.RING_STATUS i), 28, 1⟩
def F.RING_STATUS_CQ_STALL (i : Nat) : RF := ⟨(Reg.RING_STATUS i), 27, 1⟩
def F.RING_STATUS_WRITE_ERR (i : Nat) : RF := ⟨(Reg.RING_STATUS i), 26, 1⟩
def F.RING_STATUS_IN_FLIGHT (i : Nat) : RF := ⟨(Reg.RING_STATUS i), 0, 16⟩
/-- `RING_DONE_LO`. -/
def Reg.RING_DONE_LO (i : Nat) : Nat := 0x10000010 + i * 0x1000
def F.RING_DONE_LO_COUNT (i : Nat) : RF := ⟨(Reg.RING_DONE_LO i), 0, 32⟩
/-- `RING_DONE_HI`. -/
def Reg.RING_DONE_HI (i : Nat) : Nat := 0x10000014 + i * 0x1000
def F.RING_DONE_HI_COUNT (i : Nat) : RF := ⟨(Reg.RING_DONE_HI i), 0, 32⟩
/-- `RING_BAD_DB`. -/
def Reg.RING_BAD_DB (i : Nat) : Nat := 0x10000018 + i * 0x1000
def F.RING_BAD_DB_COUNT (i : Nat) : RF := ⟨(Reg.RING_BAD_DB i), 0, 16⟩
/-- `RING_CFG`. -/
def Reg.RING_CFG (i : Nat) : Nat := 0x10000800 + i * 0x1000
def F.RING_CFG_ENABLE (i : Nat) : RF := ⟨(Reg.RING_CFG i), 31, 1⟩
def F.RING_CFG_DEFAULT_EQ (i : Nat) : RF := ⟨(Reg.RING_CFG i), 30, 1⟩
def F.RING_CFG_IRQ_EN (i : Nat) : RF := ⟨(Reg.RING_CFG i), 29, 1⟩
def F.RING_CFG_SIZE_LOG2 (i : Nat) : RF := ⟨(Reg.RING_CFG i), 16, 5⟩
def F.RING_CFG_KIND (i : Nat) : RF := ⟨(Reg.RING_CFG i), 0, 2⟩
/-- `RING_BASE_LO`. -/
def Reg.RING_BASE_LO (i : Nat) : Nat := 0x10000804 + i * 0x1000
def F.RING_BASE_LO_BASE (i : Nat) : RF := ⟨(Reg.RING_BASE_LO i), 12, 20⟩
/-- `RING_BASE_HI`. -/
def Reg.RING_BASE_HI (i : Nat) : Nat := 0x10000808 + i * 0x1000
def F.RING_BASE_HI_BASE (i : Nat) : RF := ⟨(Reg.RING_BASE_HI i), 0, 16⟩
/-- `RING_LINK`. -/
def Reg.RING_LINK (i : Nat) : Nat := 0x1000080c + i * 0x1000
def F.RING_LINK_EQ (i : Nat) : RF := ⟨(Reg.RING_LINK i), 16, 16⟩
def F.RING_LINK_CQ (i : Nat) : RF := ⟨(Reg.RING_LINK i), 0, 16⟩
/-- `RING_IRQ`. -/
def Reg.RING_IRQ (i : Nat) : Nat := 0x10000810 + i * 0x1000
def F.RING_IRQ_PCIE (i : Nat) : RF := ⟨(Reg.RING_IRQ i), 31, 1⟩
def F.RING_IRQ_VECTOR (i : Nat) : RF := ⟨(Reg.RING_IRQ i), 0, 10⟩
/-- `DOWEL_VAL_LO`. -/
def Reg.DOWEL_VAL_LO (i : Nat) : Nat := 0x20000000 + i * 0x100
def F.DOWEL_VAL_LO_VALUE (i : Nat) : RF := ⟨(Reg.DOWEL_VAL_LO i), 0, 32⟩
/-- `DOWEL_VAL_HI`. -/
def Reg.DOWEL_VAL_HI (i : Nat) : Nat := 0x20000004 + i * 0x100
def F.DOWEL_VAL_HI_VALUE (i : Nat) : RF := ⟨(Reg.DOWEL_VAL_HI i), 0, 32⟩
/-- `DOWEL_ARG_LO`. -/
def Reg.DOWEL_ARG_LO (i : Nat) : Nat := 0x20000008 + i * 0x100
def F.DOWEL_ARG_LO_ARG (i : Nat) : RF := ⟨(Reg.DOWEL_ARG_LO i), 0, 32⟩
/-- `DOWEL_MAX_HI`. -/
def Reg.DOWEL_MAX_HI (i : Nat) : Nat := 0x2000000c + i * 0x100
def F.DOWEL_MAX_HI_ARG (i : Nat) : RF := ⟨(Reg.DOWEL_MAX_HI i), 0, 32⟩
/-- `DOWEL_ADD_HI`. -/
def Reg.DOWEL_ADD_HI (i : Nat) : Nat := 0x20000010 + i * 0x100
def F.DOWEL_ADD_HI_ARG (i : Nat) : RF := ⟨(Reg.DOWEL_ADD_HI i), 0, 32⟩
/-- `DOWEL_ADD32`. -/
def Reg.DOWEL_ADD32 (i : Nat) : Nat := 0x20000014 + i * 0x100
def F.DOWEL_ADD32_ARG (i : Nat) : RF := ⟨(Reg.DOWEL_ADD32 i), 0, 32⟩
/-- `DOWEL_NOTIFY_LO`. -/
def Reg.DOWEL_NOTIFY_LO (i : Nat) : Nat := 0x20000018 + i * 0x100
def F.DOWEL_NOTIFY_LO_TARGET (i : Nat) : RF := ⟨(Reg.DOWEL_NOTIFY_LO i), 0, 32⟩
/-- `DOWEL_NOTIFY_HI`. -/
def Reg.DOWEL_NOTIFY_HI (i : Nat) : Nat := 0x2000001c + i * 0x100
def F.DOWEL_NOTIFY_HI_TARGET (i : Nat) : RF := ⟨(Reg.DOWEL_NOTIFY_HI i), 0, 32⟩
/-- `DOWEL_ATTR`. -/
def Reg.DOWEL_ATTR (i : Nat) : Nat := 0x20000080 + i * 0x100
def F.DOWEL_ATTR_NOTIFY_ARMED (i : Nat) : RF := ⟨(Reg.DOWEL_ATTR i), 31, 1⟩
def F.DOWEL_ATTR_SCOPE (i : Nat) : RF := ⟨(Reg.DOWEL_ATTR i), 16, 2⟩
def F.DOWEL_ATTR_OWNER (i : Nat) : RF := ⟨(Reg.DOWEL_ATTR i), 0, 13⟩
/-- `DOWEL_READER`. -/
def Reg.DOWEL_READER (i : Nat) : Nat := 0x20000084 + i * 0x100
def F.DOWEL_READER_READER (i : Nat) : RF := ⟨(Reg.DOWEL_READER i), 0, 13⟩
/-- `DOWEL_WAITS`. -/
def Reg.DOWEL_WAITS (i : Nat) : Nat := 0x20000088 + i * 0x100
def F.DOWEL_WAITS_HALF_FREE (i : Nat) : RF := ⟨(Reg.DOWEL_WAITS i), 16, 16⟩
def F.DOWEL_WAITS_HELD (i : Nat) : RF := ⟨(Reg.DOWEL_WAITS i), 0, 14⟩

end Sys2Proof.Machine
end

