-- ==== Sys2Proof/Machine/State.lean ====
section
/-! DEFINITION. The state of the CGB-4896: every register (`Chip.regs`, by physical address), every memory, and the
state the specification gives its engines beside their registers. The queue of waiting commands is beside the chip. -/

namespace Sys2Proof.Machine

/-- Reasons a step can stop with a fault. -/
inductive Fault where
  /-- Raised by no meaning: every command of the specification has an effect. Kept so that the type is inhabited. Safe. -/
  | unreachable
deriving DecidableEq, Repr

/-- Reasons a step can be refused. -/
inductive Refusal where
  /-- Raised by an arm of `exec` whose command has no meaning yet, with its mnemonic. Safe. -/
  | notModelled (mnemonic : String)
deriving DecidableEq, Repr

/-- A holding register of an initiator (owner ID and bus port): the one for reads, or one for low words written (R21, R257),
with the half of the register that filled it. -/
structure HoldCell where
  owner : Owner
  port : Nat
  key : Nat
  home : Half
  val : Word
deriving DecidableEq, Repr

/-- What the ring controller keeps of a ring in service beside its registers. -/
structure RingSt where
  /-- Owner ID latched at enable (R235). -/
  owner : Owner
  /-- A write of `RING_CFG` that clears `ENABLE` is held, and what it wrote (R236). -/
  heldClear : Bool
  heldCfg : Nat := 0
  /-- A record write was refused; the ring takes no record (R565). -/
  deaf : Bool
  /-- Entries reserved for commands in flight (R241). -/
  resv : Nat
  /-- Events dropped since the record before (R251). -/
  lost : Nat
  /-- The present run of drops has raised event 0x0418 (R251). -/
  lostRun : Bool
  /-- Records written since enable, giving the phase bit (R249). -/
  written : Nat
  /-- Address and cause of the refused write that made it deaf, which every record dropped later repeats (R565). -/
  deafAt : Nat × Nat
deriving DecidableEq, Repr

/-- The stages of a command in flight. -/
inductive Stage where
  /-- Copied from ring memory, not dispatched (R240). -/
  | fetched
  /-- Dispatched, waiting at its engine (R241). -/
  | queued
  /-- Taken by its engine. -/
  | running
  /-- Waiting on a dowel, a pin, a buffer or a far answer. -/
  | waiting
  /-- Stopped at its engine, its context saved or being saved (R284). -/
  | preempted
  /-- All its work is done, its completion not yet written. -/
  | done
  /-- Withdrawn by a reset; transactions of it are still outstanding (R309). -/
  | withdrawn
deriving DecidableEq, Repr

/-- A command in flight. -/
structure Cmd where
  id : CmdId
  /-- The eight words of its descriptor (R243). -/
  words : List Dword
  owner : Owner
  /-- Effective class, 0 A to 3 D (R244). -/
  cls : Nat
  /-- The class was lowered (R244). -/
  lowered : Bool
  /-- Completion ring reserved at dispatch. -/
  cq : Nat
  /-- Half whose engine runs it, and the engine's number. -/
  half : Half
  unit : Nat
  stage : Stage
  /-- Statuses that apply so far (R24). -/
  clamped : Bool
  late : Bool
  spare : Bool
  doubt : Bool
  empty : Bool
  /-- The cause that ended it first: status code and detail (R24). -/
  ended : Option (Nat × Nat)
  /-- Progress, laid down by the engine. -/
  n : Nat
  bytes : Nat
  aux : List Nat
  /-- Its place in the order of dispatch (R285). -/
  order : Nat := 0
deriving DecidableEq, Repr

/-- A wait on a dowel (R254). -/
structure Wait where
  dowel : Nat
  target : Nat
  who : Waiter
  /-- The party that waits. -/
  owner : Owner
  /-- It holds a hardware wait; otherwise it polls. -/
  hw : Bool
deriving DecidableEq, Repr

/-- A time base: its value in 1/64 ns, and the carried fraction in units of 2⁻³² (R434). -/
structure TimeBase where
  val : Nat
  frac : Nat
deriving DecidableEq, Repr

/-- The latest answer of the block to a read or to a request from outside: who asks, through which port, the address, the
first 64 bits of the data, all its bytes where the request asks for bytes, and whether it is an error response. -/
structure Answer where
  owner : Owner
  port : Nat
  addr : Nat
  val : Dword
  data : List Byte
  err : Bool
deriving DecidableEq, Repr

/-- A frame of the KV page ledger (R185): state 0 FREE, 1 LIVE, 2 DRAIN, 3 ZEROING. -/
structure Frame where
  state : Nat
  ref : Nat
  pin : Nat
  owner : Owner
deriving DecidableEq, Repr

/-- An entry of the error log (R539): bytes 0 to 43 of the event record, with start number and hours (R534). -/
structure LogEntry where
  half : Nat
  seq : Nat
  start : Nat
  hours : Nat
  body : List Byte
deriving DecidableEq, Repr

/-- An interrupt line or MSI-X vector with the count of interrupts raised on it (`RING_IRQ`). -/
structure IrqCell where
  half : Half
  pcie : Bool
  vector : Nat
  count : Nat
deriving DecidableEq, Repr

/-- A weight tile as loaded: weight format, active data rows and columns, the non-zero bytes of the tile and of its scale
plane by offset (R81–R83). -/
structure Tile where
  fmt : Nat
  rows : Nat
  cols : Nat
  bytes : Tbl Byte
  scales : Tbl Byte
  /-- Loaded by a command whose outcome is unpredictable: what streams through it is free (R90). -/
  wild : Bool
deriving DecidableEq, Repr

/-- A command that an array has taken (R91, R96). -/
structure ArrJob where
  id : CmdId
  /-- Its LOAD is not yet swapped in. -/
  loading : Bool
  /-- Vectors to stream and rows to drain, and how many are done. -/
  vecs : Nat
  streamed : Nat
  rows : Nat
  drained : Nat
  /-- Values that saturated. -/
  sat : Nat
  /-- The command's outcome is unpredictable (R90, R142, R144, R145). -/
  wild : Bool
  /-- A vector of the command has mismatched already (R322). -/
  mism : Bool
deriving DecidableEq, Repr

/-- The check values of one vector, on their way to the Calliper (R98, R99). -/
structure Check where
  id : CmdId
  vec : Nat
  /-- Sum of the 512 column outputs, check value, magnitude sum. -/
  y : FV
  c : FV
  t : FV
  /-- Integer pair. -/
  int : Bool
  /-- The input vector: the pattern of each element and the scale byte of its block (R322). -/
  inp : List (Nat × Nat)
  /-- The tile it went through. -/
  tile : Tile
deriving DecidableEq, Repr

/-- The diagnosis buffer: a mismatching vector, its formats, the tile, and the diagnosis array once it runs (R322). -/
structure Diag where
  id : CmdId
  vec : Nat
  inp : List (Nat × Nat)
  fmtA : Nat
  fmtB : Nat
  tile : Tile
  running : Bool
  other : Option Nat
deriving DecidableEq, Repr

/-- How far a switch of an engine's context has come (R273, R275, R282). -/
structure Switch where
  /-- A switch is asked for; a boundary mark already fetched is waited for. -/
  want : Bool
  /-- Quanta ended since another ready context of the class began to wait. -/
  quanta : Nat
  /-- A save is under way: full level, or command level. -/
  saving : Option Bool
  /-- The stamp at which the wait for a boundary mark began (R282). -/
  since : Nat := 0
deriving DecidableEq, Repr

/-- No switch under way. -/
def Switch.none : Switch := ⟨false, 0, Option.none, 0⟩

/-- A faulty physical line that waits for a remap between two commands (R104). -/
structure Remap where
  isRow : Bool
  /-- The data row, or the column: 512 and 513 for the check columns. -/
  line : Nat
  /-- For a line that a golden blank found: whether the repeat blank after the remap passes, and where it fails (R328). -/
  again : Option (Bool × Nat)
deriving DecidableEq, Repr

/-- What an array holds beside its registers and its store. -/
structure ArrSt where
  /-- Submission ring whose context is resident (R279). -/
  resident : Option Nat
  active : Tile
  /-- The shadow tile, with the command it was loaded for. -/
  shadow : Option (CmdId × Tile)
  jobs : List ArrJob
  checks : List Check
  /-- The array retires once the command in progress ends, with the cause that its event 0x0103 gives (R107, R108, R323). -/
  retiring : Option Nat
  /-- Faulty lines found (R104). -/
  remaps : List Remap
  /-- Entry of the slot table that has begun (R274). -/
  entry : Option Nat
  /-- The strict slot that has begun had ready work of its holder, none of which has started yet (R275). -/
  awaited : Bool
  sw : Switch
  /-- A boundary mark was reached and no later command has started (R282). -/
  marked : Bool
  /-- Diagnosis captured or running (R322). -/
  diag : Option Diag
  /-- Frames of the half's frame clock counted as transient, newest first (R323). -/
  transients : List Nat
  /-- The present frame's golden blank has still to run; it is forced (R326). -/
  owed : Bool
  forced : Bool
deriving DecidableEq, Repr

/-- The all-zero tile (R91). -/
def Tile.zero : Tile := ⟨0, 0, 0, [], [], false⟩
/-- An array with no context. -/
def ArrSt.zero : ArrSt := ⟨none, Tile.zero, none, [], [], none, [], none, false, Switch.none, false, none, [], false, false⟩

/-- A copy of a gouge core: its two sliver descriptors, and whether it has ended, in error or not (R119, R120). -/
structure GCopy where
  src : List Dword
  dst : List Dword
  /-- It has ended; `err` if in error. -/
  ended : Bool
  err : Bool
  /-- It was pending in a saved context and is issued again (R286). -/
  replay : Bool
  /-- Stamp at which an access of it left the device, if it waits for an answer from a window (R507). -/
  sent : Option Nat
  /-- A load or store of its core has touched its bytes: what it leaves is unpredictable (R121). -/
  wild : Bool
  /-- The party at whose reset it was withdrawn: what its far side answers is dropped (R309). -/
  drop : Option Owner := none
  /-- The PASID that its requests through an outbound window carry (R306). -/
  pasid : Option Nat := none
  /-- Tracker entries that it holds (R120, R229). -/
  held : Nat := 0
deriving DecidableEq, Repr

/-- What stops a core from executing its next instruction. -/
inductive Stall where
  /-- Nothing. -/
  | none
  /-- Waits on a dowel in `gc.dwait` for a value (R123). -/
  | dowel (d target : Nat)
  /-- Waits in `gc.copy` for a free tag, or in `gc.cwait` for copies (R117, R119). -/
  | copies
  /-- Its context is saved (R284). -/
  | saved
  /-- It has executed `gc.done`, or its task was stopped. -/
  | ended
deriving DecidableEq, Repr

/-- A logical gouge core: its registers and CSRs (R112, R117, R128). Its stores lie in memory at their windows (R202). -/
structure Core where
  /-- The task it runs. -/
  task : Option CmdId
  stall : Stall
  pc : Nat
  /-- Integer registers x1–x31, floating-point registers f0–f31, vector registers v0–v31 of 256 bits. -/
  x : Tbl Dword
  f : Tbl Dword
  v : Tbl (BitVec 256)
  fcsr : Nat
  vl : Nat
  vtype : Nat
  vstart : Nat
  /-- `vxrm` [2:1] and `vxsat` [0]. -/
  vcsr : Nat
  gcmxs : Nat
  gcclamp : Nat
  cycle : Nat
  instret : Nat
  /-- The reservation of a load-reserved. -/
  resv : Option (Nat × Nat)
  /-- Sliver slots 0–7 (R117), and the latest copy under each tag (R119). -/
  slots : Tbl (List Dword)
  copies : Tbl GCopy
  /-- Exit code of `gc.done`. -/
  exit : Nat
deriving DecidableEq, Repr

/-- What a bench holds beside its registers. -/
structure BenchSt where
  /-- The task it runs (R125). -/
  task : Option CmdId
  /-- The next task completed carries DONE_ON_SPARE (R130). -/
  spareNext : Bool
  /-- Physical cores retired. -/
  retired : List Nat
  /-- A write of 1 to `BENCH_RETIRE` waits for the task's end (R134). -/
  retiring : Bool
  /-- Party of the previous task: its instruction store is kept for `PROG_LEN` = 0 (R125, R126). -/
  last : Option Owner
  /-- Submission ring whose context is resident (R279). -/
  resident : Option Nat
  sw : Switch
  /-- A boundary mark was reached and no later command has started (R282). -/
  marked : Bool
deriving DecidableEq, Repr

/-- A core at power-on. -/
def Core.zero : Core :=
  ⟨Option.none, Stall.ended, 0, [], [], [], 0, 0, 2 ^ 63, 0, 0, 0, 0, 0, 0, Option.none, [], [], 0⟩

/-- A bench at power-on. -/
def BenchSt.zero : BenchSt := ⟨none, false, [], false, none, none, Switch.none, false⟩

/-- A saved array context (R102, R284): its party, the bytes of its store by offset, its tiles and commands. -/
structure ArrCtx where
  owner : Owner
  store : Tbl Byte
  st : ArrSt
deriving DecidableEq, Repr

/-- A saved bench context (R128, R284): its party, the bytes of bench store (from 0) and of the stores of core k (from
0x200000 + k × 0x10000), its cores, its task. -/
structure BenchCtx where
  owner : Owner
  store : Tbl Byte
  cores : Tbl Core
  st : BenchSt
deriving DecidableEq, Repr

/-- A loaded model (R288, R290): its party, the bytes it takes on each half, whether it is streamed, and its counter
index, version and digest (R470), and the half whose loss took its bytes there (R362). -/
structure Model where
  owner : Owner
  bytesH : Nat
  bytesT : Nat
  streamed : Bool
  ctr : Nat
  version : Nat
  digest : List Byte
  gone : Option Half := none
deriving DecidableEq, Repr

/-- A pin of a slot's buffer (R263, R265): the slot, the half of the set, the buffer, and the command that pins it. -/
structure Pin where
  slot : Nat
  half : Half
  buf : Nat
  id : CmdId
deriving DecidableEq, Repr

/-- What a result slot holds beside its registers (R259–R262). -/
structure SlotSt where
  /-- Length and origin of the current result. -/
  len : Nat
  origin : Nat
  /-- The current buffer of the set on each half. -/
  cur : Pair Nat
  /-- The set on each half holds the current result: a set that was lost with its half does not until the next publication, and a
  slot of which no set does reads as unpublished (R262). -/
  held : Pair Bool
  /-- Publications in the order in which they reached the slot (R261). -/
  queue : List CmdId
  /-- Buffers that the publication in progress writes, by half. -/
  writing : Pair (Option Nat)
  /-- The warning of R335 has been sent for the current result. -/
  warned : Bool
deriving DecidableEq, Repr

/-- A slot that nothing has published to. -/
def SlotSt.zero : SlotSt := ⟨0, 0, ⟨0, 0⟩, ⟨false, false⟩, [], ⟨none, none⟩, false⟩

/-- An authority message (R347): the sender's epoch, state, failed conditions, handoff flag and sequence number, and the
applied outputs of its driving slots, each with the number of the sample instant (R356). -/
structure AuthMsg where
  epoch : Nat
  state : Nat
  unfit : Nat
  handoff : Bool
  seq : Nat
  applied : List (Nat × Nat × List Nat)
deriving DecidableEq, Repr

/-- What the authority logic of a half holds beside its registers. -/
structure AuthSt where
  /-- Sequence number of its next message, and the last received on each path. -/
  seq : Nat
  hlSeq : Option Nat
  sbSeq : Option Nat
  /-- Consecutive valid messages on the half-link path and on the sideband (R347). -/
  hlGood : Nat
  sbGood : Nat
  /-- Its messages carry the handoff flag (R358). -/
  handoff : Bool
  /-- Its peer's messages carry the handoff flag: sample instants of its fastest enabled slot, counted at the first one. -/
  offered : Option Nat
  /-- The last message received showed a tie. -/
  tied : Bool
  /-- Stamps of the last valid message received and of the last message sent. -/
  lastValid : Nat
  lastSent : Nat
  /-- It has not been in CHARGE, nor seen its peer in CHARGE, since it left reset (R349). -/
  atStart : Bool
  /-- Stamps: since when it is fit; since when it holds CHARGE under a soft failure; of a tie whose hold-off runs; since
  when it has read its peer's OUT_EN as off or its peer as down. -/
  fitSince : Option Nat
  softSince : Option Nat
  tieHold : Option Nat
  offSince : Option Nat
  /-- Latest applied outputs received for a slot, with their sample instant (R356). -/
  fed : Tbl (Nat × List Nat)
  /-- Levels of its ARB_SEL pair, P and N, once stable (R352). -/
  arbSel : Bool × Bool := (false, false)
deriving DecidableEq, Repr

/-- The authority logic of a half that leaves reset. -/
def AuthSt.zero : AuthSt := ⟨0, none, none, 0, 0, false, none, false, 0, 0, true, none, none, none, some 0, [], (false, false)⟩

/-- What a loop slot holds beside its registers (R365). -/
structure LoopSt where
  /-- x̂ and the outputs last applied, FP32 patterns. -/
  xh : List Nat
  prev : List Nat
  /-- Number of the sample instant last updated (R369). -/
  last : Option Nat
  /-- Blending with a partner: the partner, whether this slot is the incoming one, and the next j (R379). -/
  blend : Option (Nat × Bool × Nat)
  /-- Closing ramp: the values it starts from, and the next j (R377). -/
  ramp : Option (List Nat × Nat)
  /-- It drives its outputs. -/
  drives : Bool
  /-- Consecutive samples within OUT_PLAUS (R356). -/
  est : Nat
  /-- Values held for result-slot sources, y from 0 and r from 8, and the sources whose run of failed reads is on (R371). -/
  held : Tbl Nat
  heldRun : List Nat
  /-- Its latest update overran; its coefficient page has an uncorrectable error (R374). -/
  late : Bool
  badCoef : Bool
deriving DecidableEq, Repr

/-- A loop slot at reset. -/
def LoopSt.zero : LoopSt := ⟨[], [], none, none, none, false, 0, [], [], false, false⟩

/-- An output of an opened slot on its way to SAFE_U (R377): the output (PWM from 0, digital from 16), its present value,
SAFE_U, the slew per sample, period and phase in µs, the latest sample. -/
structure Fade where
  key : Nat
  cur : Nat
  safe : Nat
  du : Nat
  period : Nat
  phase : Nat
  last : Nat
deriving DecidableEq, Repr

/-- A command that waits for its applying instant (R378): operation, slot, incoming slot, instant. -/
structure SteadyCmd where
  op : Nat
  slot : Nat
  into : Nat
  instant : Nat
deriving DecidableEq, Repr

/-- The envelope level of an engine (R372): its value in units of 2⁻³² at a stamp, and whether it rises. -/
structure Envelope where
  level : Nat
  since : Nat
  rising : Bool
deriving DecidableEq, Repr

/-- What the machine I/O of a half holds beside its registers. -/
structure HioSt where
  /-- Value last applied by a slot to an output, PWM from 0, digital from 16 (R383, R384). -/
  drv : Tbl Nat
  fades : List Fade
  /-- The period that each PWM output has begun: its counts, the first for which it is high, and for how many it is. -/
  pwm : Tbl (Nat × Nat × Nat)
  /-- Channel converted last; channels whose out-of-window run is on. -/
  adcLast : Nat
  adcRun : Nat
  /-- Filtered A [1] and B [0] of each encoder; positions by stamp, newest first; encoders whose illegal run is on. -/
  encAB : Tbl Nat
  encHist : Tbl (List (Nat × Nat))
  encRun : Nat
  /-- Filtered levels of the hardened inputs, and since when each has it. -/
  diLevel : Nat
  diSince : Tbl Nat
  /-- Edges accepted in the present window; edges not yet added to the dowel (R388). -/
  diEdges : Tbl Nat
  diPend : Tbl Nat
  /-- Input served last by the notification path; inputs whose run of refused adds is on. -/
  diLast : Nat
  diRun : Nat
deriving DecidableEq, Repr

/-- The machine I/O of a half at reset. -/
def HioSt.zero : HioSt := ⟨[], [], [], 15, 0, [], [], 0, 0, [], [], [], 31, 0⟩

/-- Where a queued frame comes from (R400, R408). -/
inductive GSource where
  /-- An outbound frame. -/
  | txf (f : Nat)
  /-- A frame route. -/
  | route (r : Nat)
  /-- A send or request, by its command. -/
  | cmd (id : CmdId)
deriving DecidableEq, Repr

/-- A frame in the transmit queue of a controller (R396, R398). -/
structure GQueued where
  port : Nat
  /-- Traffic class on a MAC. -/
  tc : Nat
  frame : GFrame
  part : Nat
  rank : Nat
  /-- R395 applies and the address has not been put in yet. -/
  needSa : Bool
  src : GSource
  /-- Stamp of its queueing; for a frame of a route, of its reception. -/
  since : Nat
deriving DecidableEq, Repr

/-- A response that a request awaits (R408). -/
structure GResp where
  cap : Nat
  addr : Nat
  mask : Nat
  ident : Nat
  neg : Option Nat
  timeoutUs : Nat
deriving DecidableEq, Repr

/-- A bridge send or request from its queueing until nothing of it is left to know (R408, R409). -/
structure GSend where
  id : CmdId
  owner : Owner
  tag : Nat
  port : Nat
  /-- The identifier word, or bits [31:0] of the destination MAC. -/
  addr : Nat
  /-- Its command has not completed. -/
  live : Bool
  /-- Stamp of its queueing, its lifetime in µs, and the stamp of its transmission. -/
  since : Nat
  lifeUs : Nat
  sentAt : Option Nat
  /-- Watch window in ms (R408). -/
  watchMs : Option Nat
  resp : Option GResp
  /-- Its command's place in the order of dispatch (R410). -/
  order : Nat
deriving DecidableEq, Repr

/-- What a route holds beside its registers (R401–R405). -/
structure RouteSt where
  /-- Raw field of the latest value, its origin, and whether it has yet to be sent. -/
  val : Nat
  origin : Option Nat
  fresh : Bool
  /-- Its substitute has been sent in the present run. -/
  stale : Bool
  /-- Result slot and generation taken last; stamp of the latest poll instant served. -/
  taken : Option (Nat × Nat)
  poll : Option Nat
  /-- Frames of a frame route with the stamps of their reception, oldest first. -/
  queue : List (GFrame × Nat)
  /-- A run of drops is on. -/
  dropping : Bool
deriving DecidableEq, Repr

/-- A route that has received nothing. -/
def RouteSt.zero : RouteSt := ⟨0, none, false, false, none, none, [], false⟩

/-- The transmitter that an outbound frame (by its number) or frame route (1,024 + its number) used last, and whether a run
without a transmitter is on (R406). -/
structure TxSt where
  last : Option Nat
  without : Bool
deriving DecidableEq, Repr

/-- Gate control of a MAC (R397, R399): the operating list, the entry in force, the stamps of its start and of its cycle,
and the cycle start at which the admin list replaces it. -/
structure GateSt where
  list : List (Nat × Nat)
  pos : Nat
  cycleStart : Nat
  due : Nat
deriving DecidableEq, Repr

/-- A receive channel's frame number and whether a run of drops is on (R411). -/
structure ChanSt where
  no : Nat
  dropping : Bool
deriving DecidableEq, Repr

/-- A frame in progress at a camera port (R138, R417): its number, the stamp of its start, lines received, whether it is
dropped, its `STATUS` bits, and the stamp of its latest line. -/
structure CamFrame where
  no : Nat
  sof : Nat
  lines : Nat
  dropped : Bool
  truncated : Bool
  crcErr : Bool
  saturated : Bool
  lastAt : Nat
deriving DecidableEq, Repr

/-- What a camera port holds beside its registers. -/
structure CamSt where
  /-- Number of the latest frame since the port was enabled. -/
  no : Nat
  cur : Option CamFrame
  /-- A run of dropped frames is on. -/
  dropRun : Bool
  /-- Its D-PHY has lost lock. -/
  phyLost : Bool
deriving DecidableEq, Repr

/-- A camera port at reset. -/
def CamSt.zero : CamSt := ⟨0, none, false, false⟩

/-- What a display output holds beside its registers (R420–R422). -/
structure ScanSt where
  /-- The frame shown, and the one to be shown from the next active line on. -/
  shown : Nat
  next : Option Nat
  /-- The present dowel read 0 at the latest vertical blanking (R421). -/
  blank : Bool
  /-- The output is stopped (R419). -/
  stopped : Bool
  /-- Content of the safety buffer on display, and the outcome of the read into the other one: status and bytes. -/
  safe : Option (List Byte)
  read : Option (Nat × List Byte)
  /-- Failure count, a run of held frames is on, the rectangle shows `SAFE_FAIL`. -/
  fails : Nat
  heldRun : Bool
  failing : Bool
  /-- Lines of the present frame not read in time. -/
  missed : Nat
  /-- The latest line composited: red, green, blue of each pixel. -/
  out : List (Nat × Nat × Nat)
deriving DecidableEq, Repr

/-- A display output at reset. -/
def ScanSt.zero : ScanSt := ⟨0, none, false, false, none, none, 0, false, false, 0, []⟩

/-- How a half takes part in the time of the device (R441). -/
inductive TimeRole where
  /-- It listens for a pulse. -/
  | listening
  /-- It became the lead at a cycle, less than 1 ms ago. -/
  | leading (since : Nat)
  /-- It has held the lead for 1 ms, or taken it from a lead that went down. -/
  | lead
  /-- It is the follower. -/
  | follower
deriving DecidableEq, Repr

/-- What the time logic of a half holds beside its registers. -/
structure TimeSt where
  /-- Cycles of the 250 MHz time domain since the half left reset. -/
  cycles : Nat
  role : TimeRole
  /-- The follower has been locked since it joined: its engines use the bases (R441). -/
  joined : Bool
  /-- The trim in units of 2⁻⁸ ppb (R441). -/
  trim : Int
  /-- Cycles at which it last sent and last received a pulse; a pulse of it is on its way. -/
  sentAt : Nat
  heardAt : Nat
  onWay : Bool
  /-- Consecutive pulses with an offset beyond the limit, and within it (R442). -/
  far : Nat
  near : Nat
  /-- TB_0 at the last accepted PPS edge (R444). -/
  pps : Option Nat
deriving DecidableEq, Repr

/-- The time logic of a half that leaves reset. -/
def TimeSt.zero : TimeSt := ⟨0, .listening, false, 0, 0, 0, false, 0, 0, none⟩

/-- A write to a base that waits for its 2 µs (R438): kind 0 rate, 1 step, 2 rebase, 3 and 4 the words of the epoch. -/
structure TimeWrite where
  base : Nat
  kind : Nat
  val : Nat
  half : Half
  /-- Cycle of the accepting half at which it takes effect. -/
  due : Nat
deriving DecidableEq, Repr

/-- A PTP stamp in a FIFO (R446). -/
structure PtpStamp where
  msgType : Nat
  domain : Nat
  seqId : Nat
  stamp : Nat
deriving DecidableEq, Repr

/-- An object measured by the security core (R470): its type (0 ROM, 1 to 4 as R462), half, counter index, version, digest. -/
structure Measure where
  typ : Nat
  half : Nat
  ctr : Nat
  version : Nat
  digest : List Byte
deriving DecidableEq, Repr

/-- An RPMB record (R466): owner key digest (48 zeros while unbound), `BIND_SEQ`, the sixteen counters, the Vendor-return
state. -/
structure Rpmb where
  owner : List Byte
  bindSeq : Nat
  ctrs : List Nat
  vendor : Bool
deriving DecidableEq, Repr

/-- The record of zero values. -/
def Rpmb.zero : Rpmb := ⟨List.replicate 48 0, 0, List.replicate 16 0, false⟩

/-- What the security core of a half holds beside its registers. -/
structure SecSt where
  /-- The firmware of the half runs (R465). -/
  booted : Bool
  /-- Digests of the Darienor keys with a `KIND` 1 certificate of the root key, and of the owner's delegated keys of the
  accepted image (R463). -/
  darienor : List (List Byte)
  delegated : List (List Byte)
  /-- Measurements of ROM, firmware, image and roughing model (R470). -/
  measures : List Measure
  /-- Stamp at which the challenge in force was issued (R472). -/
  chal : Option Nat
  /-- The key store holds the keys derived from the seed, its seal key for this `BIND_SEQ` (R464). -/
  sealFor : Option Nat
  /-- The keys of R215 are drawn. -/
  memKeys : Bool
  /-- Rail whose fall forced an erase that is yet to be written to the wear ledger (R461). -/
  erased : Option Nat
deriving DecidableEq, Repr

/-- A security core before its half starts. -/
def SecSt.zero : SecSt := ⟨false, [], [], [], none, none, false, none⟩

/-- A change of the ownership table in progress (R453, R455): operation, first entry, count, new flags, type and owner;
whether its granules are being zeroed before the new entries take effect, and the number of the first transaction issued
after it was accepted. -/
structure OwnChange where
  op : Nat
  first : Nat
  count : Nat
  new : Nat
  zero : Bool
  upTo : Nat
deriving DecidableEq, Repr

/-- An application core (R456–R458): `cgbowner`, its registers, the scrub armed, whether its buffers and predictors hold
state of the present context, whether its counters count, and the fault of its latest access. -/
structure AppCore where
  owner : Owner
  x : Tbl Dword
  f : Tbl Dword
  v : Tbl Nat
  fcsr : Nat
  vstart : Nat
  vxsat : Nat
  vxrm : Nat
  vl : Nat
  vtype : Nat
  armed : Bool
  buffered : Bool
  counting : Bool
  fault : Option Nat
deriving DecidableEq, Repr

/-- An application core at reset. -/
def AppCore.zero : AppCore := ⟨0, [], [], [], 0, 0, 0, 0, 0, 2 ^ 63, false, false, true, none⟩

/-- An image or roughing model that a half has accepted (R484): its signature record and object, which copy it was. -/
structure Img where
  sig : List Byte
  obj : List Byte
  copy : Nat
deriving DecidableEq, Repr

/-- How far the start of a half has come (R491) beside its registers. -/
structure StartSt where
  /-- The half's own choice is made; the image it accepted (R484). -/
  decided : Bool
  own : Option Img
  /-- The image in force on the half (R485), and whether it is applied (R490). -/
  chosen : Option Img
  applied : Bool
  /-- Microseconds that rejected copies add to the milestones (R492), and the stamp of power-good in cycles. -/
  slackUs : Nat
  /-- DRAM of the half is being zeroed; entries whose granule is zeroed (R490). -/
  zeroing : Bool
  zeroed : Tbl Bool
  /-- A host may load firmware into the recovery BAR (R494). -/
  recovery : Bool
deriving DecidableEq, Repr

/-- A start that has not begun. -/
def StartSt.zero : StartSt := ⟨false, none, none, false, 0, false, [], false⟩

/-- A transaction in flight (R229): the move, its party, its Carriage and half, whether it writes, its address and length, the bytes it writes, for
a read the address its bytes go to, the stamp at which it left the device (none while it waits for a link),
and the link by which it left, as 8 × half + local link. -/
structure Txn where
  id : CmdId
  owner : Owner
  unit : Nat
  half : Half
  write : Bool
  addr : Nat
  len : Nat
  data : List Byte
  dst : Nat
  sent : Option Nat
  via : Option Nat
  /-- The PASID that its request through an outbound window carries (R306). -/
  pasid : Option Nat := none
  /-- Its place in the order in which transactions leave (R213). -/
  seq : Nat := 0
deriving DecidableEq, Repr

/-- What a peer link keeps beside its registers: replays in succession (R499), the stamp of its last flit (R502), the device
ID and incarnation received in training (R503). -/
structure LinkSt where
  replays : Nat
  lastFlit : Nat
  farId : Nat
  farInc : Nat
deriving DecidableEq, Repr

/-- A link that has not trained. -/
def LinkSt.zero : LinkSt := ⟨0, 0, 0, 0⟩

/-- What the power logic of a half holds beside its registers: the steps chosen by R522 and the evaluations in succession
in which the next higher step fitted; the step the current limiter demands; the warning of R526 is on; the half is held
down by its temperature; units whose gating waits for a context to be saved (claim
bit and state); rails outside their limits at the last reading; the sensor and temperature of a critical reset that the
next start is to report (R526). -/
structure PowerSt where
  arr : Nat
  gouge : Nat
  fits : Nat
  lim : Nat
  warned : Bool
  critical : Bool
  gating : Option (Nat × Nat)
  railsBad : List Nat
  report : Option (Nat × Nat)
deriving DecidableEq, Repr

/-- The power logic at reset. -/
def PowerSt.zero : PowerSt := ⟨0, 0, 0, 0, false, false, none, [], none⟩

/-- A record of the wear ledger (R534), with the register values that it describes and that a start takes over (R536). -/
structure WearRec where
  kind : Nat
  half : Nat
  seq : Nat
  start : Nat
  hours : Nat
  body : List Byte
  sets : List (Nat × Nat)
deriving DecidableEq, Repr

/-- The ledger area in the flash of a half (R534, R535): the bank in force and its sequence, whether it holds a ledger of
this device, its snapshot (register values and log entries), its records newest first, records whose write failed, and the number of
the newest record of each half that the snapshot covers. -/
structure FlashLedger where
  bank : Nat
  bankSeq : Nat
  valid : Bool
  snap : List (Nat × Nat)
  snapLog : List LogEntry
  recs : List WearRec
  held : List WearRec
  snapSeq : Pair Nat
deriving DecidableEq, Repr

/-- A flash in which no bank has been written. -/
def FlashLedger.blank : FlashLedger := ⟨0, 0, false, [], [], [], [], ⟨0, 0⟩⟩


/-- The chip: all state but the queue of waiting commands. -/
structure Chip where
  /-- Every register that differs from its reset value, by physical address (R199, R201). -/
  regs : Tbl Word
  /-- Every byte of DRAM and of the SRAM windows that differs from what it reads as unlisted. -/
  mem : Tbl Byte
  /-- DRAM granules whose contents no one can read any more, with the draw of the values they read as (R215). -/
  garbled : Tbl Nat
  /-- Poisoned 64-byte units (R210). -/
  poison : List Nat
  /-- Ownership entries that differ from their power-on value (R451, R490). -/
  own : Tbl Word
  /-- Holding registers that differ from their reset state (R21, R257). -/
  holds : List HoldCell
  /-- Rings in service (R233). -/
  rings : Tbl RingSt
  /-- Commands in flight, in the order of their fetch. -/
  cmds : List Cmd
  /-- Commands dispatched since the start, by which their order of arrival at the engines is told (R285). -/
  dispatched : Nat
  /-- Waits and armed notifies, in the order they were made (R254). -/
  waits : List Wait
  /-- A run of waits without a hardware entry is on, on each half (R254). -/
  pollRun : Pair Bool
  /-- TB_0 to TB_7 of each half (R433). -/
  tb : Pair (List TimeBase)
  /-- The KV page ledgers (R185). -/
  kv : Pair (Tbl Frame)
  /-- Halves that are DOWN (R343, R348). -/
  down : Pair Bool
  /-- The error log, newest first (R539). -/
  log : List LogEntry
  /-- Interrupts raised (R267). -/
  irqs : List IrqCell
  /-- MODEL'S OWN: draws made of the values the specification leaves open (assumption 2). -/
  freeCnt : Nat
  /-- The latest answer to a read (R16). -/
  answer : Option Answer
  /-- The slot registers were locked by the `CALLIPER_CTL` of a half that has since gone DOWN: their lock is device-wide (R19, R338). -/
  slotLock : Bool
  /-- Matrix arrays (R75). -/
  arrays : Tbl ArrSt
  /-- Logical gouge cores, by 64 × bench + core (R110, R128). -/
  cores : Tbl Core
  /-- Benches (R109). -/
  benches : Tbl BenchSt
  /-- Frames of each pool below which every frame has left the free list once; the rest head the list in order (R189). -/
  kvFresh : Pair Nat
  /-- Frames appended to each free list, in order (R189). -/
  kvBack : Pair (List Nat)
  /-- Pins held: the pinning command and the device-wide frame number (R186). -/
  kvPins : List (CmdId × Nat)
  /-- Pinning operations admitted on each half; a command that copies for a COW counts again (R186). -/
  pinOps : Pair (List CmdId)
  /-- Pinning operations that wait for admission, in issue order (R186). -/
  pinWait : Pair (List CmdId)
  /-- Saved array contexts, by submission ring (R279). -/
  actx : Tbl ArrCtx
  /-- Saved bench contexts, by 32 × submission ring + bench (R279). -/
  bctx : Tbl BenchCtx
  /-- Loaded models, by `MODEL` number (R290). -/
  models : Tbl Model
  /-- The next `MODEL` number; its form is not stated (assumption 6). -/
  modelNext : Nat
  /-- Slots whose age warning boosts their producer partition (R293). -/
  boosts : List Nat
  /-- Quanta of an engine that each partition has had in the present contention for it, by 16 × engine + partition (R272). -/
  partTurns : Tbl Nat
  /-- Quanta of an engine that each party has had in it, by 8192 × engine + owner ID (R271, R272, R307). -/
  partyTurns : Tbl Nat
  /-- 1 + the stamp at which the context on each array or bench became blocked, by engine number (R287). -/
  blockedAt : Tbl Nat
  /-- Quanta ended since another ready context of its class began to wait for an attention command's engine (R273). -/
  attnQuanta : List (CmdId × Nat)
  /-- Shares still in force on an engine until its next quantum boundary, by 256 × engine + record (R307). -/
  sharePend : Tbl Nat
  /-- `SHARE` and `MGR` of the record that a creation is building (R301). -/
  viNew : Nat × Bool
  /-- Records whose reset is to end in destruction (R312). -/
  viDestroy : List Nat
  /-- Stamp at which each reset in progress began (R310). -/
  viStart : Tbl Nat
  /-- `VI_SELF_SEL` of each initiator (R303). -/
  viSelf : List HoldCell
  /-- Function Level Resets that wait for a creation to end (R313). -/
  viFlr : List Nat
  /-- Result slots (R259). -/
  slots : Tbl SlotSt
  /-- Address of the first granule of each slot's set of buffers on each half, as the image names it (R342). -/
  slotBase : Pair (Tbl Nat)
  /-- Pinned buffers (R264). -/
  pins : List Pin
  /-- The frame of each half's frame clock that has begun (R326). -/
  frames : Pair (Option Nat)
  /-- Array to which the roughing reservation moved when its own retired (R324). -/
  roughMoved : Pair (Option Nat)
  /-- The authority logic of each half (R343–R361). -/
  auth : Pair AuthSt
  /-- The latest message sent by each half, on the half link and on the sideband (R347). -/
  authWire : Pair (Option AuthMsg × Option AuthMsg)
  /-- Stamps of both halves at which the outputs of the half that drove last stopped (R359). -/
  gapFrom : Option (Pair Nat)
  /-- The half that drove last. -/
  lastDriver : Option Half
  /-- Loop slots of each Steady engine (R365). -/
  loops : Pair (Tbl LoopSt)
  /-- The command that waits at each Steady engine (R378). -/
  steadyCmd : Pair (Option SteadyCmd)
  /-- The envelope level of each Steady engine (R372). -/
  env : Pair Envelope
  /-- The machine I/O of each half (R382–R388). -/
  hio : Pair HioSt
  /-- Frames queued at the controllers of the gateway, in order of arrival (R396, R398). -/
  gwQueue : List GQueued
  /-- Bridge sends and requests with something left to know (R408, R409). -/
  gwSends : List GSend
  /-- Owner IDs whose late flag is set (R409). -/
  gwLate : List Owner
  /-- Routes (R400). -/
  gwRoutes : Tbl RouteSt
  /-- Transmitters used last (R406). -/
  gwTx : Tbl TxSt
  /-- Stamp of the latest instant served of each outbound frame (R404, R439). -/
  gwInstant : Tbl Nat
  /-- Credit of each shaped traffic class, by 8 × MAC + class, in bits × 64,000, with its stamp (R397). -/
  gwCredit : Tbl (Int × Nat)
  /-- Gated outbound frames that were due while neither OUT_EN was on (R406). -/
  gwHeld : List Nat
  /-- Gate control of each MAC (R397). -/
  gwGates : Tbl GateSt
  /-- Side-band lines whose pulse is held (R412). -/
  gwPulse : Nat
  /-- Receive channels (R411). -/
  gwChans : Tbl ChanSt
  /-- Camera ports (R415–R418). -/
  cams : Tbl CamSt
  /-- Display outputs (R419–R422). -/
  scans : Tbl ScanSt
  /-- Moves that feed a check-value unit, in the order in which they start (R427). -/
  cvuOrder : List CmdId
  /-- Consecutive mismatches of each check-value unit (R428). -/
  cvuRun : Tbl Nat
  /-- The time logic of each half (R441–R444). -/
  time : Pair TimeSt
  /-- Writes to bases on their way, in order (R438). -/
  timeWrites : List TimeWrite
  /-- Transmit stamp FIFO of each MAC, oldest first (R446). -/
  ptpTx : Tbl (List PtpStamp)
  /-- Receive stamp FIFO of each MAC, oldest first (R446). -/
  ptpRx : Tbl (List PtpStamp)
  /-- FIFOs whose run of lost stamps is on: a MAC, or 8 + a MAC for the receive side. -/
  ptpRun : List Nat
  /-- The frame that left each port last. -/
  gwOut : Tbl GFrame
  /-- The security core of each half (R459–R474). -/
  sec : Pair SecSt
  /-- The RPMB record of each half; none where the eMMC has no key programmed (R466). -/
  rpmb : Pair (Option Rpmb)
  /-- The owner, `BIND_SEQ`, counters and Vendor-return state in force (R466). -/
  bind : Rpmb
  /-- The change of the ownership table in progress (R455). -/
  ownChg : Option OwnChange
  /-- Application cores, 0 to 7 on Headstock (R456). -/
  apps : Tbl AppCore
  /-- The erase of Vendor-return is in progress (R474). -/
  erasing : Bool
  /-- The start of each half (R491). -/
  start : Pair StartSt
  /-- Entries that take effect when the start-up zeroing of their granule ends (R490). -/
  startOwn : Tbl Nat
  /-- Rings that the image enables once the granules of their party are in effect: the words of a RING record. -/
  startRings : List (Nat × List Nat)
  /-- Static instances to be created once their granules are in effect: the words of an INST record. -/
  startInst : List (Nat × List Nat)
  /-- First granule of each partition's save area on each half, as the image names it (R482). -/
  saveArea : Pair (Tbl Nat)
  /-- What a debugger holds halted (R473). -/
  halted : List DebugTarget
  /-- Transactions in flight, in the order of their issue (R229). -/
  txns : Tbl Txn
  /-- Number of the next transaction. -/
  txnNext : Nat
  /-- Transactions that have left so far, by which the order of their sending is told (R213). -/
  txnSent : Nat
  /-- Peer links, by 8 × half + local link (R498). -/
  links : Tbl LinkSt
  /-- Device ID and incarnation of each device of the fabric that has been reached, by fabric number (R503). -/
  farDevs : Tbl (Nat × Nat)
  /-- The device's own incarnation, once drawn (R503). -/
  incarnation : Option Nat
  /-- Stamp since which a device has had no up link (R506). -/
  linkless : Tbl Nat
  /-- Devices whose run of timeouts is on (R507). -/
  peerRuns : List Nat
  /-- Granules that a running fill of zeros covers and no other write has reached since it began (R454). -/
  filling : List Nat
  /-- MSI-X tables and pending-bit arrays of each port, by 0x10000 × VF + offset (R305, R512). -/
  msix : Pair (Tbl Byte)
  /-- VFs without a record whose run of accesses is on, by 256 × port + VF (R304). -/
  vfRuns : List Nat
  /-- Address and PASID of the request that left each port last through its outbound windows (R306). -/
  pcieOut : Pair (Option (Nat × Option Nat))
  /-- The power logic of each half (R516–R526). -/
  power : Pair PowerSt
  /-- The ledger area of each flash (R534). -/
  flash : Pair FlashLedger
  /-- Sequence number of the last ledger record of each half (R534). -/
  ledgerSeq : Pair Nat
  /-- The half has read the ledger at this start (R536). -/
  ledgerRead : Pair Bool
  /-- Time in operation since the last hour mark, in 1/64 ns of TB_0 (R537). -/
  opTime : Nat
  /-- Owner IDs whose run of refused mirror reads is on (R541). -/
  mirrorRuns : List Owner
  /-- Stamp of the other half since which a half has been DOWN (R538). -/
  downSince : Pair (Option Nat)
  /-- Store rows that have given one corrected error in this hour of operation (R106, R132, R537). -/
  storeErrs : List (Nat × Nat)
  /-- Redundant data-store rows in use, by 64 × bench + physical core (R132, R532). -/
  dataRows : Tbl Nat
  /-- 1 + the die of each stack whose role its spare has taken, 0 where none (R211). -/
  dieOut : Tbl Nat
deriving DecidableEq, Repr

/-- The state of the machine: the chip, and the commands that wait, first in, first out. -/
structure State where
  chip : Chip
  pending : List Instr
deriving DecidableEq, Repr

/-- The chip right after power-on reset (R18, R490): registers at their reset values, memory and stores unlisted. -/
def Chip.reset : Chip where
  regs := []
  mem := []
  garbled := []
  poison := []
  own := []
  holds := []
  rings := []
  cmds := []
  dispatched := 0
  waits := []
  pollRun := ⟨false, false⟩
  tb := ⟨List.replicate 8 ⟨0, 0⟩, List.replicate 8 ⟨0, 0⟩⟩
  kv := ⟨[], []⟩
  down := ⟨false, false⟩
  log := []
  irqs := []
  freeCnt := 0
  answer := none
  slotLock := false
  arrays := []
  cores := []
  benches := []
  kvFresh := ⟨0, 0⟩
  kvBack := ⟨[], []⟩
  kvPins := []
  pinOps := ⟨[], []⟩
  pinWait := ⟨[], []⟩
  actx := []
  bctx := []
  models := []
  modelNext := 1
  boosts := []
  partTurns := []
  partyTurns := []
  blockedAt := []
  attnQuanta := []
  sharePend := []
  viNew := (0, false)
  viDestroy := []
  viStart := []
  viSelf := []
  viFlr := []
  slots := []
  slotBase := ⟨[], []⟩
  pins := []
  frames := ⟨none, none⟩
  roughMoved := ⟨none, none⟩
  auth := ⟨AuthSt.zero, AuthSt.zero⟩
  authWire := ⟨(none, none), (none, none)⟩
  gapFrom := none
  lastDriver := none
  loops := ⟨[], []⟩
  steadyCmd := ⟨none, none⟩
  env := ⟨⟨2 ^ 32, 0, true⟩, ⟨2 ^ 32, 0, true⟩⟩
  hio := ⟨HioSt.zero, HioSt.zero⟩
  gwQueue := []
  gwSends := []
  gwLate := []
  gwRoutes := []
  gwTx := []
  gwInstant := []
  gwCredit := []
  gwHeld := []
  gwGates := []
  gwPulse := 0
  gwChans := []
  cams := []
  scans := []
  cvuOrder := []
  cvuRun := []
  time := ⟨TimeSt.zero, TimeSt.zero⟩
  timeWrites := []
  ptpTx := []
  ptpRx := []
  ptpRun := []
  gwOut := []
  sec := ⟨SecSt.zero, SecSt.zero⟩
  rpmb := ⟨none, none⟩
  bind := Rpmb.zero
  ownChg := none
  apps := []
  erasing := false
  start := ⟨StartSt.zero, StartSt.zero⟩
  startOwn := []
  startRings := []
  startInst := []
  saveArea := ⟨[], []⟩
  halted := []
  txns := []
  txnNext := 0
  txnSent := 0
  links := []
  farDevs := []
  incarnation := none
  linkless := []
  peerRuns := []
  filling := []
  msix := ⟨[], []⟩
  vfRuns := []
  pcieOut := ⟨none, none⟩
  power := ⟨PowerSt.zero, PowerSt.zero⟩
  flash := ⟨FlashLedger.blank, FlashLedger.blank⟩
  ledgerSeq := ⟨0, 0⟩
  ledgerRead := ⟨false, false⟩
  opTime := 0
  mirrorRuns := []
  downSince := ⟨none, none⟩
  storeErrs := []
  dataRows := []
  dieOut := []

/-- The machine right after reset, with no command waiting. -/
def State.reset : State := { chip := Chip.reset, pending := [] }

/-- The state with another chip, as the answer of a command. -/
def State.go (s : State) (c : Chip) : Host.Outcome State Fault Refusal := .next { s with chip := c }

end Sys2Proof.Machine
end

