-- ==== Sys2Proof/Machine/Cells.lean ====
section
/-! DEFINITION. Registers, time bases, the ownership table and memory: the primitive reads and writes of the chip. -/

namespace Sys2Proof.Machine

/-! ### Finding a register in the map -/

/-- Splits an offset by counts and strides, outermost first; the rest must be exhausted by `rest`. -/
def splitDims : List (Nat × Nat) → Nat → Option (List Nat × Nat)
  | [], off => some ([], off)
  | (n, s) :: ds, off =>
    if off / s < n then (splitDims ds (off % s)).map fun p => (off / s :: p.1, p.2)
    else (splitDims ds (off - (n - 1) * s)).map fun p => ((n - 1) :: p.1, p.2)

/-- The indices of a register row at an offset inside its block instance, if the offset names it. -/
def RegRow.indices (r : RegRow) (off : Nat) : Option (List Nat) :=
  if off < r.off then none
  else match splitDims r.dims (off - r.off) with
    | some (ix, 0) => some ix
    | _ => none

/-- The row of a block that an offset names, with its indices. -/
def findRow : List RegRow → Nat → Option (RegRow × List Nat)
  | [], _ => none
  | r :: rs, off =>
    match r.indices off with
    | some ix => some (r, ix)
    | none => findRow rs off

/-- A register found: its block, the block's indices, its row, the row's own indices. -/
structure Found where
  blk : Block
  bix : List Nat
  row : RegRow
  rix : List Nat
deriving Repr

/-- The region of the control space that holds a page: 1 MiB each, the doorbell pages, the dowel slots (R201). -/
def regionOf (a : Nat) : Nat := if a < 0x10000000 then a / 0x100000 else 256 + a / 0x10000000

/-- The register of a block at an address; every block lies in one region. -/
def Block.find (b : Block) (a : Nat) : Option Found :=
  if a < b.base ∨ regionOf a ≠ regionOf b.base then none
  else match splitDims b.dims (a - b.base) with
    | none => none
    | some (bix, off) => (findRow b.regs off).map fun p => ⟨b, bix, p.1, p.2⟩

/-- The register at an address, among blocks. -/
def findIn : List Block → Nat → Option Found
  | [], _ => none
  | b :: bs, a =>
    match b.find a with
    | some f => some f
    | none => findIn bs a

/-- The register at a physical address (R201). -/
def findReg (a : Nat) : Option Found := findIn blocks a

/-- Address of the block instance that holds a found register. -/
def Found.inst (f : Found) : Nat := f.blk.base + ((f.bix.zip f.blk.dims).map fun p => p.1 * p.2.2).sum

/-- The half that homes a found register; `i` serves device-wide blocks (R16). -/
def Found.half (f : Found) (i : Half) : Half :=
  match f.blk.home with
  | .device => i
  | .per n => if f.bix.getD 0 0 < n then .H else .T

/-- The value of the fields of a row at indices. -/
def rowReset (ix : List Nat) : List FieldRow → Nat
  | [] => 0
  | f :: fs => (f.rst.at ix % 2 ^ (f.hi - f.lo + 1)) * 2 ^ f.lo + rowReset ix fs

/-- The reset value of the register at an address; 0 where there is none. -/
def regReset (a : Nat) : Word :=
  match findReg a with
  | none => 0
  | some f => BitVec.ofNat 32 (rowReset (f.bix ++ f.rix) f.row.fields)

/-- Mask of the bits of a row with an access code. -/
def accMask (p : Acc → Bool) : List FieldRow → Nat
  | [] => 0
  | f :: fs => (if p f.acc then (2 ^ (f.hi - f.lo + 1) - 1) * 2 ^ f.lo else 0) + accMask p fs

/-! ### Registers -/

/-- The register at an address. -/
def Chip.reg (c : Chip) (a : Nat) : Nat := (Tbl.look (regReset a) c.regs a).toNat

/-- The chip after hardware sets a register. -/
def Chip.setReg (c : Chip) (a v : Nat) : Chip := { c with regs := Tbl.put (regReset a) c.regs a (BitVec.ofNat 32 v) }

/-- A field. -/
def Chip.q (c : Chip) (f : RF) : Nat := bits (c.reg f.addr) f.lo f.wid

/-- A single-bit field. -/
def Chip.on (c : Chip) (f : RF) : Bool := c.q f != 0

/-- The chip after hardware sets a field. -/
def Chip.put (c : Chip) (f : RF) (v : Nat) : Chip :=
  c.setReg f.addr (c.reg f.addr - c.q f * 2 ^ f.lo + (v % 2 ^ f.wid) * 2 ^ f.lo)

/-- The chip after a counter counts `n`, held at its largest value. -/
def Chip.count (c : Chip) (f : RF) (n : Nat) : Chip := c.put f (min (c.q f + n) (2 ^ f.wid - 1))

/-- The chip after a counter counts one. -/
def Chip.inc (c : Chip) (f : RF) : Chip := c.count f 1

/-- The chip after a counter falls by one, not below 0. -/
def Chip.dec (c : Chip) (f : RF) : Chip := c.put f (c.q f - 1)

/-- A register pair as one quantity (R21). -/
def Chip.pair (c : Chip) (lo hi : Nat) : Nat := c.reg lo + c.reg hi * 2 ^ 32

/-- The chip after hardware sets a register pair. -/
def Chip.setPair (c : Chip) (lo hi v : Nat) : Chip := (c.setReg lo (v % 2 ^ 32)).setReg hi (v / 2 ^ 32 % 2 ^ 32)

/-- The chip after a 64-bit counter counts `n`, held at its largest value. -/
def Chip.countPair (c : Chip) (lo hi n : Nat) : Chip := c.setPair lo hi (min (c.pair lo hi + n) (2 ^ 64 - 1))

/-- A draw of a value that the specification leaves open. -/
def Chip.draw (c : Chip) : Nat × Chip := ((Config.freeValue c.freeCnt).toNat, { c with freeCnt := c.freeCnt + 1 })

/-! ### Time (R433, R435) -/

/-- A base of a half. -/
def Chip.base (c : Chip) (h : Half) (n : Nat) : TimeBase := (c.tb.get h).getD n ⟨0, 0⟩

/-- The chip with a base of a half replaced. -/
def Chip.setBase (c : Chip) (h : Half) (n : Nat) (b : TimeBase) : Chip := { c with tb := c.tb.set h ((c.tb.get h).set n b) }

/-- A full time-stamp of a base. -/
def Chip.stamp (c : Chip) (h : Half) (n : Nat) : Nat := (c.base h n).val

/-- The engines of a half may use its bases: it has held the lead for 1 ms, or is a follower that has locked (R441). -/
def Chip.timeReady (c : Chip) (h : Half) : Bool :=
  match (c.time.get h).role with
  | .lead => true
  | .follower => (c.time.get h).joined
  | _ => false

/-- A compact time-stamp: bits [47:16] of a full stamp (R435). -/
def compact (full : Nat) : Nat := bits full 16 32

/-- The interval from a full stamp to a later one of the same base, as a signed 64-bit difference (R436). -/
def elapsed (now since : Nat) : Int := sgn 64 (now + 2 ^ 64 - since % 2 ^ 64)

/-- Units of 1/64 ns in a microsecond. -/
def usUnits : Nat := 64000

/-- Whole microseconds from a stamp to now, 0 if it lies ahead. -/
def ageUs (now since : Nat) : Nat := (elapsed now since).toNat / usUnits

/-! ### The ownership table (R451, R452) -/

/-- One step of CRC-8/AUTOSAR. -/
def crc8bit (n : Nat) (v : Nat) : Nat :=
  match n with
  | 0 => v
  | n + 1 => crc8bit n (if v / 128 % 2 = 1 then Nat.xor (v * 2 % 256) 0x2F else v * 2 % 256)

/-- CRC-8/AUTOSAR over bytes: polynomial 0x2F, initial value 0xFF, final XOR 0xFF (R452). -/
def crc8 (bs : List Nat) : Nat := Nat.xor (bs.foldl (fun a b => crc8bit 8 (Nat.xor a b)) 0xFF) 0xFF

/-- An entry with its check byte, from owner ID, type and flags. -/
def mkOwn (owner typ flags : Nat) : Nat :=
  let low := owner % 8192 + (typ % 8) * 2 ^ 13 + (flags % 256) * 2 ^ 16
  low + crc8 [low % 256, low / 256 % 256, low / 65536 % 256] * 2 ^ 24

/-- The number of entries. -/
def ownEntries : Nat := 1867776

/-- First DRAM address, first control-space entry and so on: the index of the entry of an address (R451). -/
def ownIndex (a : Nat) : Option Nat :=
  if 0x1000000000 ≤ a ∧ a < 0x2000000000 then some ((a - 0x1000000000) / 65536)
  else if a < 0x40000000 then some (1048576 + a / 4096)
  else if 0x100000000 ≤ a ∧ a < 0x180000000 then some (1310720 + (a - 0x100000000) / 4096)
  else if 0x180000000 ≤ a ∧ a < 0x200000000 then some (1835008 + (a - 0x180000000) / 65536)
  else none

/-- An entry at power-on: owner 0x0000, type 7 with `CLEAN` = 0 in DRAM, type 1 elsewhere (R490). -/
def ownReset (i : Nat) : Word := BitVec.ofNat 32 (if i < 1048576 then mkOwn 0 7 0 else mkOwn 0 1 0)

/-- The ownership entry of an index. -/
def Chip.ownAt (c : Chip) (i : Nat) : Nat := (Tbl.look (ownReset i) c.own i).toNat

/-- The chip with an entry replaced. -/
def Chip.setOwn (c : Chip) (i e : Nat) : Chip := { c with own := Tbl.put (ownReset i) c.own i (BitVec.ofNat 32 e) }

/-- The granule of an entry is being zeroed before its new entry takes effect: nobody reaches it (R453). -/
def Chip.ownHeld (c : Chip) (i : Nat) : Bool :=
  match c.ownChg with
  | some g => g.zero && decide (g.first ≤ i ∧ i < g.first + g.count)
  | none => false

/-- Fields of an entry. -/
def ownOwner (e : Nat) : Nat := e % 8192
def ownType (e : Nat) : Nat := bits e 13 3
def ownFlags (e : Nat) : Nat := bits e 16 8
/-- The check byte matches (R217, R452). -/
def ownGood (e : Nat) : Bool := bits e 24 8 == crc8 [e % 256, e / 256 % 256, e / 65536 % 256]

/-- The chip with the `CLEAN` flag of a DRAM entry set or cleared (R454). -/
def Chip.setClean (c : Chip) (i : Nat) (v : Bool) : Chip :=
  let e := c.ownAt i
  c.setOwn i (mkOwn (ownOwner e) (ownType e) (ownFlags e / 2 * 2 + b2n v))

/-! ### Memory -/

/-- What a byte that nothing has written reads as: zero, or an unknowable value in a granule whose key is gone
(R215; assumptions 3 and 5). -/
def memReset (garbled : Tbl Nat) (a : Nat) : Byte :=
  match Tbl.find? garbled (a / 65536) with
  | none => 0
  | some n => Config.freeByte n a

/-- The canonical form of memory. -/
def Chip.memWf (c : Chip) : Bool := Tbl.wf (memReset c.garbled) c.mem

/-- The canonical form of the registers. -/
def Chip.regsWf (c : Chip) : Bool := Tbl.wf regReset c.regs

/-- The canonical form of the ownership table. -/
def Chip.ownWf (c : Chip) : Bool := Tbl.wf ownReset c.own

/-- An address lies in a PCIe outbound window or a peer window: what it holds lies outside the block (R204, R205). -/
def inWindow (a : Nat) : Bool :=
  decide (0x180000000 ≤ a ∧ a < 0x200000000) || decide (0x4000000000 ≤ a ∧ a < 0x84000000000)

/-- One byte as an engine reads it: a register page answers 0 to any access but a 32-bit one (R16), and what a window
answers comes from outside the block and is free (assumption 2). -/
def Chip.byte (c : Chip) (a : Nat) : Byte :=
  if inWindow a then Config.freeByte c.freeCnt a else if a < 0x40000000 then 0 else Tbl.look (memReset c.garbled a) c.mem a

/-- The chip after one byte is written; a write through a window leaves the block. -/
def Chip.setByte (c : Chip) (a : Nat) (v : Byte) : Chip :=
  if inWindow a ∨ a < 0x40000000 then c else { c with mem := Tbl.put (memReset c.garbled a) c.mem a v }

/-- The `n` bytes from an address. -/
def Chip.load (c : Chip) (a n : Nat) : List Byte := (List.range n).map fun k => c.byte (a + k)

/-- The `n`-byte little-endian number at an address. -/
def Chip.loadN (c : Chip) (a n : Nat) : Nat := leNat (c.load a n)

/-- The chip after raw bytes are written from an address. -/
def Chip.storeRaw (c : Chip) : Nat → List Byte → Chip
  | _, [] => c
  | a, b :: bs => (c.setByte a b).storeRaw (a + 1) bs

/-- An address lies in DRAM. -/
def inDram (a : Nat) : Bool := decide (0x1000000000 ≤ a ∧ a < 0x2000000000)

/-- The half of a DRAM address. -/
def dramHalf (a : Nat) : Half := if a < 0x1800000000 then .H else .T

/-- The DRAM stack of an address, 0–3 (R207). -/
def stackOf (a : Nat) : Nat := if a < 0x1800000000 then bits a 8 1 else 2 + bits a 8 1

/-- Clears the `CLEAN` flags of the granules that a write of `n` bytes touches, and ends what a running fill of zeros made of
them (R454). -/
def Chip.dirty (c : Chip) (a n : Nat) : Chip :=
  if n = 0 ∨ ¬ inDram a then c
  else
    let g := (a - 0x1000000000) / 65536
    let k := (a + n - 1) / 65536 - a / 65536 + 1
    (List.range k).foldl (fun c k => c.setClean (g + k) false)
      { c with filling := c.filling.filter fun x => ¬ (g ≤ x ∧ x < g + k) }

/-- The chip after the reservations of gouge cores on bytes of a range of the stores are lost. -/
def Chip.breakResv (c : Chip) (a n : Nat) : Chip :=
  if 0x40000000 ≤ a ∧ a < 0x80000000 then
    { c with cores := c.cores.map fun e => match e.2.resv with
      | some (r, k) => if r < a + n ∧ a < r + k then (e.1, { e.2 with resv := none }) else e
      | none => e }
  else c

/-- The chip after a write that was granted: bytes stored, poisoned units that are fully overwritten healed (R210),
`CLEAN` flags cleared (R454), reservations on the bytes lost. -/
def Chip.store (c : Chip) (a : Nat) (bs : List Byte) : Chip :=
  let c := ((c.storeRaw a bs).dirty a bs.length).breakResv a bs.length
  { c with poison := c.poison.filter fun u => ¬ (a ≤ u ∧ u + 64 ≤ a + bs.length) }

/-- A byte of a poisoned unit lies in the range. -/
def Chip.poisoned (c : Chip) (a n : Nat) : Option Nat := c.poison.find? fun u => decide (u < a + n ∧ a < u + 64)

end Sys2Proof.Machine
end

