-- ==== Sys2Proof/Machine/Flags.lean ====
section
/-! DEFINITION. Completion statuses and the flags of completion records (R23, R24, R249). -/

namespace Sys2Proof.Machine

/-- The status codes of R23. -/
inductive Status where
  | done | doneEmpty | doneClamped | doneDoubtful | doneLate | abandoned | remoteTimeout | remoteLost
  | noRoom | refusedClaimed | farError | farErrorLate | doneOnSpare | fault
deriving DecidableEq, Repr

/-- The code of a status (R23). -/
def Status.code : Status → Nat
  | .done => 0x00
  | .doneEmpty => 0x01
  | .doneClamped => 0x02
  | .doneDoubtful => 0x08
  | .doneLate => 0x09
  | .abandoned => 0x10
  | .remoteTimeout => 0x18
  | .remoteLost => 0x19
  | .noRoom => 0x20
  | .refusedClaimed => 0x21
  | .farError => 0x28
  | .farErrorLate => 0x29
  | .doneOnSpare => 0x30
  | .fault => 0xF0

/-- The status a completed command carries, of those that applied to it (R24). -/
def Cmd.status (m : Cmd) : Nat :=
  match m.ended with
  | some (st, _) => st
  | none =>
    if m.doubt then Status.doneDoubtful.code
    else if m.late then Status.doneLate.code
    else if m.clamped then Status.doneClamped.code
    else if m.spare then Status.doneOnSpare.code
    else if m.empty then Status.doneEmpty.code
    else Status.done.code

/-- The `flags` byte of the completion record but for the phase: what applied and was outranked [3:1], served from the
alternate [4], class lowered [5] (R24, R249). -/
def Cmd.flagBits (m : Cmd) (alt : Bool) : Nat :=
  2 * b2n (m.clamped && m.status != Status.doneClamped.code) + 4 * b2n (m.late && m.status != Status.doneLate.code) +
    8 * b2n (m.spare && m.status != Status.doneOnSpare.code) + 16 * b2n alt + 32 * b2n m.lowered

/-- The first cause that ends a command stands; at one step the lowest code of 0x10 to 0x29 stands, and FAULT ranks
above them (R24). -/
def Cmd.endWith (m : Cmd) (st : Status) (detail : Nat) : Cmd :=
  match m.ended with
  | none => { m with ended := some (st.code, detail) }
  | some (old, _) => if st = .fault ∧ old ≠ Status.fault.code then { m with ended := some (st.code, detail) } else m

end Sys2Proof.Machine
end

