-- ==== Sys2Proof/Machine/Ops.lean ====
section
/-! DEFINITION. The shared operations: checking an access (R199–R205, R216), raising an event (R250, R251, R539),
writing a completion record (R249, R565), signalling and reading dowels (R252–R258), commands in flight. -/

namespace Sys2Proof.Machine

/-! ### Checking an access -/

/-- Base, frame size in bytes and number of frames of a half's KV pool (R166). -/
def Chip.kvPool (c : Chip) (h : Half) : Nat × Nat × Nat :=
  (c.q (F.KVL_POOL_LO_BASE_LO h.idx) * 2 ^ 16 + c.q (F.KVL_POOL_HI_BASE_HI h.idx) * 2 ^ 32,
    c.q (F.KVL_POOL_CFG_FRAME_GR h.idx) * 65536, c.q (F.KVL_POOL_CFG_FRAMES h.idx))

/-- The half and frame that hold an address, if a pool covers it. -/
def Chip.frameOf (c : Chip) (a : Nat) : Option (Half × Nat) :=
  let at' (h : Half) : Option (Half × Nat) :=
    let (b, sz, n) := c.kvPool h
    if c.on (F.KVL_CTL_ENABLE h.idx) ∧ b ≤ a ∧ 0 < sz ∧ (a - b) / sz < n then some (h, (a - b) / sz) else none
  match at' .H with
  | some r => some r
  | none => at' .T

/-- A frame of a half's ledger; unlisted frames are FREE. -/
def Chip.frame (c : Chip) (h : Half) (n : Nat) : Frame := Tbl.look ⟨0, 0, 0, 0⟩ (c.kv.get h) n

/-- The chip with a frame of a half's ledger replaced. -/
def Chip.setFrame (c : Chip) (h : Half) (n : Nat) (f : Frame) : Chip :=
  { c with kv := c.kv.set h (Tbl.put ⟨0, 0, 0, 0⟩ (c.kv.get h) n f) }

/-- A creation is building the instance of an owner ID: until it ends, no initiator reaches it as a party (R301). -/
def Chip.building (c : Chip) (o : Owner) : Bool :=
  let i := c.q F.VI_CMD_RESULT_RECORD
  c.on F.VI_CMD_RESULT_BUSY && c.q F.VI_CMD_RESULT_OP == 1 && o.inst == i && o.part == c.q (F.VI_INST_STATE_PART i) &&
    b2n o.world == c.q (F.VI_INST_STATE_WORLD i)

/-- A party may reach a KV page frame: it is LIVE or DRAIN and the party is its recorded owner (R173). -/
def Chip.kvGrants (c : Chip) (o : Owner) (a : Nat) : Bool :=
  match c.frameOf a with
  | none => false
  | some (h, n) => let f := c.frame h n; (f.state == 1 || f.state == 2) && f.owner == o

/-- The region types of R216: whether a party may read or write under an entry. -/
def Chip.typeGrants (c : Chip) (o : Owner) (write : Bool) (a e : Nat) : Bool :=
  let same := ownOwner e == o.toNat
  let samePart := ownOwner e / 256 == o.toNat / 256
  match ownType e with
  | 0 | 1 => same
  | 2 => c.kvGrants o a
  | 3 | 4 => samePart && !write
  | 6 => same && o.world
  | _ => false

/-- The slot and word of a coefficient page that an address names (R367). -/
def coefWord (a : Nat) : Option (Half × Fin 16 × Fin 2048) :=
  if 0xA00000 ≤ a ∧ a < 0xB00000 ∧ 0x20000 ≤ a % 0x80000 ∧ a % 0x80000 < 0x40000 then
    let o := a % 0x80000 - 0x20000
    some (if bit a 19 then .T else .H, Fin.ofNat 16 (o / 0x2000), Fin.ofNat 2048 (o % 0x2000 / 4))
  else none

/-- An address of the control space that is not reserved: it lies in a register, a coefficient page or the gateway's map, in a block,
page or area of R201, or the telemetry mirror shows such a one (R200, R201, R540). -/
def controlUsed (a : Nat) : Bool :=
  decide (0x01600000 ≤ a ∧ a < 0x01800000) ||
    ((decide (a < 0x01500000) || decide (0x10000000 ≤ a ∧ a < 0x20400000) || decide (0x30000000 ≤ a ∧ a < 0x31500000)) &&
      (let b := if 0x30000000 ≤ a then a - 0x30000000 else a
       (coefWord b).isSome || (findReg (b / 4 * 4)).isSome))

/-- The SRAM window of an address (R202): `inl` an array, `inr` a bench; none where the window is reserved. -/
def sramUnit (a : Nat) : Option (Nat ⊕ Nat) :=
  if 0x40000000 ≤ a ∧ a < 0x48000000 then
    if (a - 0x40000000) % 0x1000000 < 0xC00000 then some (.inl ((a - 0x40000000) / 0x1000000)) else none
  else if 0x50000000 ≤ a ∧ a < 0x54000000 then some (.inr ((a - 0x50000000) / 0x200000))
  else if 0x60000000 ≤ a ∧ a < 0x68000000 then
    if (a - 0x60000000) % 0x400000 / 0x10000 < 60 then some (.inr ((a - 0x60000000) / 0x400000)) else none
  else none

/-- An array. -/
def Chip.arr (c : Chip) (a : Nat) : ArrSt := Tbl.look ArrSt.zero c.arrays a
/-- The chip with an array replaced. -/
def Chip.setArr (c : Chip) (a : Nat) (x : ArrSt) : Chip := { c with arrays := Tbl.put ArrSt.zero c.arrays a x }

/-- A remap of an array is in progress: it begins once the command in progress has ended (R104). -/
def Chip.remapping (c : Chip) (a : Nat) : Bool :=
  !(c.arr a).remaps.isEmpty && (c.arr a).jobs.isEmpty && !c.on (F.ARRAY_STATUS_RETIRED a)

/-- A window of an array or bench store is reachable by a party (R203). -/
def Chip.sramGrants (c : Chip) (o : Owner) (u : Nat ⊕ Nat) : Bool :=
  match u with
  | .inl n => (o == 0 || c.q (F.ARRAY_STATUS_OWNER n) == o.toNat) && !c.on (F.ARRAY_STATUS_RETIRED n) &&
      c.on (F.ARRAY_CTL_ENABLE n) && !c.on (F.ARRAY_STATUS_SAVE_RESTORE n) && !c.remapping n
  | .inr b => (o == 0 || c.q (F.BENCH_STATUS_OWNER b) == o.toNat) && !c.on (F.BENCH_STATUS_RETIRED b) &&
      c.on (F.BENCH_CTL_ENABLE b) && !c.on (F.BENCH_STATUS_SAVE_RESTORE b)

/-- Pages that decide access themselves: the VI block, the dowel pages and the telemetry mirror (R255, R303, R315, R541). -/
def selfDeciding (a : Nat) : Bool :=
  decide (0x1400000 ≤ a ∧ a < 0x1500000) || decide (0x20000000 ≤ a ∧ a < 0x20400000) ||
    decide (0x30000000 ≤ a ∧ a < 0x31500000)

/-- The half whose stores or DRAM hold an address, or whose PCIe port carries it (R199, R202). -/
def addrHalf (a : Nat) : Option Half :=
  if inDram a then some (dramHalf a)
  else if 0x180000000 ≤ a ∧ a < 0x200000000 then some (if a < 0x1C0000000 then .H else .T)
  else match sramUnit a with
    | some (.inl n) => some (if n < 4 then .H else .T)
    | some (.inr b) => some (if b < 16 then .H else .T)
    | none => none

/-- An address lies in the stores or the DRAM of a half that is DOWN (R362). -/
def Chip.addrLost (c : Chip) (a : Nat) : Bool :=
  match addrHalf a with
  | some h => c.down.get h && !(decide (0x180000000 ≤ a) && decide (a < 0x200000000))
  | none => false

/-- The cause that stands for an access to a half that is DOWN: its command completes with ABANDONED (R362). -/
def causeLost : Nat := 12

/-- The segment of a PCIe outbound window that holds an address is mapped (R513). -/
def Chip.segmentMapped (c : Chip) (a : Nat) : Bool :=
  c.on (F.PCIE_OB_MAP_LO_VALID (if a < 0x1C0000000 then 0 else 1) ((a - 0x180000000) % 0x40000000 / 0x4000000))

/-- The half that is up, Headstock where both are. -/
def Chip.firstUp (c : Chip) : Half := if c.down.h then .T else .H

/-- Why an access to one address is refused, coded as R226 codes it; 0 where it is granted (R199–R205, R216, R217,
R513). -/
def Chip.cause (c : Chip) (o : Owner) (write : Bool) (a : Nat) : Nat :=
  if c.addrLost a then causeLost
  else if c.building o then 1
  else if a < 0x40000000 then
    if ¬ controlUsed a then 3
    else if selfDeciding a then 0
    else match ownIndex a with
      | none => 3
      | some i => if o == 0 then 0 else if ¬ ownGood (c.ownAt i) then 2
        else if ownOwner (c.ownAt i) = o.toNat ∧ ownType (c.ownAt i) ≠ 7 then 0 else 1
  else if a < 0x80000000 then
    match sramUnit a with
    | none => 3
    | some u => if c.sramGrants o u then 0 else 1
  else
    match ownIndex a with
    | some i =>
      if 0x180000000 ≤ a ∧ a < 0x200000000 ∧ ¬ c.segmentMapped a then 3
      else if c.ownHeld i && inDram a then 1
      else if o == 0 then b2n (ownGood (c.ownAt i) && ownType (c.ownAt i) == 2 && (c.frameOf a).isSome && !c.kvGrants o a)
      else if ¬ ownGood (c.ownAt i) then 2
      else if a < 0x180000000 then (if ownOwner (c.ownAt i) = o.toNat ∧ ownType (c.ownAt i) ≠ 7 then 0 else 1)
      else if c.typeGrants o write a (c.ownAt i) then 0 else 1
    | none =>
      if 0x4000000000 ≤ a ∧ a < 0x84000000000 then
        (if (a - 0x4000000000) / 0x2000000000 = c.q (F.PEER_CTL_FABRIC_NO c.firstUp.idx) then 3 else 0)
      else 3

/-- The debugger reaches an entry: in Owner-open, one that names a party of a Sapwood partition in `SEC_DBG_SCOPE` (R473). -/
def Chip.debugReaches (c : Chip) (o : Owner) : Bool :=
  c.q (F.SEC_STATUS_DEBUG c.firstUp.idx) == 1 && !o.world && o.part != 0 && bit (c.q (F.SEC_DBG_SCOPE_SCOPE c.firstUp.idx)) o.part

/-- Why an initiator's access to one address is refused, coded as R226 codes it; 0 where it is granted. The debug port acts for the
parties that it may debug, whatever owner it names (R473, R475). -/
def Chip.portCause (c : Chip) (i : Initiator) (write : Bool) (a : Nat) : Nat :=
  if i.via ≠ .debugPort then c.cause i.owner write a
  else match ownIndex a with
    | none => 1
    | some n =>
      let o : Owner := BitVec.ofNat 13 (ownOwner (c.ownAt n))
      if c.debugReaches o then c.cause o write a else 1

/-- The addresses of a range at which a new granule begins, the first address among them. -/
def granuleStarts (a n : Nat) : List Nat :=
  if n = 0 then [] else a :: (List.range ((a + n - 1) / 4096 - a / 4096)).map fun k => (a / 4096 + k + 1) * 4096

/-- The first address of a range that is refused, with the cause; poison in DRAM counts for a read (R210, R226). -/
def Chip.rangeCause (c : Chip) (o : Owner) (write : Bool) (a n : Nat) : Option (Nat × Nat) :=
  match (granuleStarts a n).find? fun x => c.cause o write x != 0 with
  | some x => some (x, c.cause o write x)
  | none => if write then none else (c.poisoned a n).map fun u => (u, 4)

/-- Bytes read under a party's rights; the first refused address and its cause otherwise (R216, R226). -/
def Chip.tryLoad (c : Chip) (o : Owner) (a n : Nat) : Except (Nat × Nat) (List Byte) :=
  match c.rangeCause o false a n with
  | some e => .error e
  | none => .ok (c.load a n)

/-- The chip after bytes are written under a party's rights; the first refused address and its cause otherwise, and then
no byte of the range is written. -/
def Chip.tryStore (c : Chip) (o : Owner) (a : Nat) (bs : List Byte) : Except (Nat × Nat) Chip :=
  match c.rangeCause o true a bs.length with
  | some e => .error e
  | none => .ok (c.store a bs)

/-- Free bytes for an unpredictable result. -/
def Chip.freeBytes (c : Chip) (n : Nat) : List Byte := (List.range n).map (Config.freeByte c.freeCnt)

/-- The Carriage of a half that does the hardware's own work: the first in service (R220). -/
def Chip.carriageOf (c : Chip) (h : Half) : Option Nat := ((List.range 8).map (· + 8 * h.idx)).find? fun k => c.on (F.CARRIAGE_CTL_ENABLE k)

/-- The chip after the Carriage that does a half's own work has written bytes, which it counts (R220, R231). -/
def Chip.carriageWrote (c : Chip) (h : Half) (n : Nat) : Chip :=
  match c.carriageOf h with
  | some k => c.countPair (Reg.CARRIAGE_BYTES_LO k) (Reg.CARRIAGE_BYTES_HI k) n
  | none => c

/-- The chip after a Carriage of a half ends a piece of work of the hardware's own (a COW, a zeroing, a save or restore):
the first Carriage in service does it, and counts it with the bytes written (R220, R231). -/
def Chip.carriageDid (c : Chip) (h : Half) (n : Nat) : Chip :=
  match c.carriageOf h with
  | some k => (c.carriageWrote h n).countPair (Reg.CARRIAGE_MOVE_CNT_LO k) (Reg.CARRIAGE_MOVE_CNT_HI k) 1
  | none => c

/-! ### Commands in flight -/

/-- A word of a command's descriptor, as a number. -/
def Cmd.word (m : Cmd) (k : Nat) : Nat := (m.words.getD k 0).toNat
/-- Bits of a word of a command's descriptor. -/
def Cmd.fld (m : Cmd) (k lo wid : Nat) : Nat := bits (m.word k) lo wid
/-- The opcode (R243). -/
def Cmd.opcode (m : Cmd) : Nat := m.fld 0 0 8
/-- The fence bit (R243). -/
def Cmd.fence (m : Cmd) : Bool := bit (m.word 0) 10

/-- An attention or backward command. -/
def Cmd.isAttn (m : Cmd) : Bool := m.opcode == 0x40 || m.opcode == 0x41

/-- The command of an identifier. -/
def Chip.cmd? (c : Chip) (i : CmdId) : Option Cmd := c.cmds.find? fun m => m.id == i

/-- The chip with a command replaced. -/
def Chip.setCmd (c : Chip) (m : Cmd) : Chip := { c with cmds := c.cmds.map fun x => if x.id = m.id then m else x }

/-- The chip after values of a command saturate, which marks it however it ends (R24, R61). -/
def Chip.clampCmd (c : Chip) (id : CmdId) (sat : Bool) : Chip :=
  if sat then { c with cmds := c.cmds.map fun m => if m.id = id then { m with clamped := true } else m } else c

/-- The chip without a command. -/
def Chip.dropCmd (c : Chip) (i : CmdId) : Chip := { c with cmds := c.cmds.filter fun m => m.id != i }

/-- Commands of a ring fetched before a command. -/
def Chip.earlier (c : Chip) (i : CmdId) : List Cmd := (c.cmds.takeWhile fun m => m.id != i).filter fun m => m.id.ring = i.ring

/-- The fence of a command lets it start: every earlier command of its ring has completed (R243). -/
def Chip.fenceOpen (c : Chip) (m : Cmd) : Bool := !m.fence || (c.earlier m.id).isEmpty

/-- Every earlier dispatched command of the same ring with an opcode of the given group has started (R242). -/
def Chip.inOrder (c : Chip) (m : Cmd) (grp : Nat → Bool) : Bool :=
  (c.earlier m.id).all fun e => !(grp e.opcode) || e.stage != .queued

/-- A half is clocked: it is not in RETAIN (R517). -/
def Chip.awake (c : Chip) (h : Half) : Bool := c.q (F.POWER_STATUS_STATE h.idx) != 2

/-- A dispatched command that its engine may take: its opcode, its stage, its fence, its turn. -/
def Chip.takeable (c : Chip) (i : CmdId) (grp : Nat → Bool) : Option Cmd :=
  match c.cmd? i with
  | none => none
  | some m => if c.awake m.half ∧ m.stage = .queued ∧ grp m.opcode ∧ c.fenceOpen m ∧ c.inOrder m grp then some m else none

/-- The class of a partition: 0 A to 3 D (R5). -/
def Chip.partClass (c : Chip) (p : Nat) : Nat := c.q (F.SCHED_PART_CFG_CLASS p)

/-- The rank at which a command is scheduled: 0 for partition 0, then A to D as 1 to 4; lower is served first (R31, R244). -/
def Cmd.rank (m : Cmd) : Nat := if m.owner.part = 0 then 0 else m.cls + 1

/-- Another command that waits for the same engine, one that is never pre-empted, is of a higher class, or of the same and came
first: it is served first (R285). -/
def Chip.behind (c : Chip) (m : Cmd) (grp : Nat → Bool) (same : Cmd → Bool) : Bool :=
  c.cmds.any fun e => (decide (e.rank < m.rank) || (e.rank == m.rank && decide (e.order < m.order))) && same e && (c.takeable e.id grp).isSome

/-! ### Events (R250, R251, R539) -/

/-- An event: the half that raises it, its code, the submission ring and the party it names, its detail words. -/
structure Event where
  half : Half
  code : Nat
  ring : Option Nat
  owner : Option Owner
  detail : List Nat
deriving DecidableEq, Repr

/-- The ring controller's state of a ring in service; rings are numbered below 65,536 (R233). -/
def Chip.ringSt? (c : Chip) (r : Nat) : Option RingSt := if r < 65536 then Tbl.find? c.rings r else none

/-- The chip with the state of a ring in service replaced. -/
def Chip.setRingSt (c : Chip) (r : Nat) (x : RingSt) : Chip := { c with rings := Tbl.ins c.rings r x }

/-- The half that homes a ring (R233). -/
def ringHalf (r : Nat) : Half := if r < 32768 then .H else .T

/-- The half that homes a dowel. -/
def dowelHalf (d : Nat) : Half := if d < 8192 then .H else .T

/-- The half that homes a page of the control space; `i` serves the device-wide ones (R16, R201). -/
def homeHalf (i : Half) (a : Nat) : Half :=
  let by19 : Half := if bit a 19 then .T else .H
  if 0x10000000 ≤ a ∧ a < 0x20000000 then ringHalf ((a - 0x10000000) / 0x1000)
  else if 0x20000000 ≤ a ∧ a < 0x20400000 then dowelHalf ((a - 0x20000000) / 0x100)
  else match a / 0x100000 with
    | 3 => if a % 0x100000 < 0x40000 then .H else .T
    | 8 => if 0x840000 ≤ a ∧ a < 0x844000 then i else by19
    | 0xC => if a < 0xC80000 then (if a < 0xC08000 then .H else .T) else if a < 0xC82000 then .H else .T
    | 0xD => if a < 0xD10000 then .H else .T
    | n => if [4, 5, 6, 7, 9, 0xA, 0xE, 0xF, 0x10, 0x12, 0x13].contains n then by19 else i

/-- The event of an access that R16 rejects at an address of the control space, by the chapter of the block addressed. -/
def widthEvent (a : Nat) : Nat :=
  if 0x1600000 ≤ a ∧ a < 0x1800000 then 0x0A30
  else if 0x30000000 ≤ a then 0x1120
  else if 0x10000000 ≤ a then 0x0428
  else match blocks.find? fun b => b.base / 0x100000 == a / 0x100000 with
    | some b => b.evt
    | none => 0x0320

/-- The default event ring of a party (R236). -/
def Chip.defaultEq (c : Chip) (o : Owner) : Option Nat :=
  (List.find? (fun e : Nat × RingSt => e.2.owner == o && c.q (F.RING_CFG_KIND e.1) == 3 && c.on (F.RING_CFG_DEFAULT_EQ e.1)) c.rings).map (·.1)

/-- The memory address of an entry of a ring (R234). -/
def Chip.ringEntry (c : Chip) (r idx size : Nat) : Nat :=
  c.q (F.RING_BASE_LO_BASE r) * 4096 + c.q (F.RING_BASE_HI_BASE r) * 2 ^ 32 +
    idx % 2 ^ c.q (F.RING_CFG_SIZE_LOG2 r) * size

/-- A ring has no free entry, `extra` of them being reserved (R234, R241). -/
def Chip.ringFull (c : Chip) (r extra : Nat) : Bool :=
  decide (2 ^ c.q (F.RING_CFG_SIZE_LOG2 r) ≤
    (c.reg (Reg.RING_TAIL r) + 2 ^ 32 - c.reg (Reg.RING_HEAD r)) % 2 ^ 32 + extra)

/-- The chip after an interrupt is raised on a line of a half's application cores, or as an MSI-X vector of its port (R267,
R511). -/
def Chip.raiseIrq (c : Chip) (h : Half) (p : Bool) (v : Nat) : Chip :=
  if c.irqs.any fun x => x.half = h ∧ x.pcie = p ∧ x.vector = v then
    { c with irqs := c.irqs.map fun x => if x.half = h ∧ x.pcie = p ∧ x.vector = v then { x with count := x.count + 1 } else x }
  else { c with irqs := IrqCell.mk h p v 1 :: c.irqs }

/-- The chip after an interrupt of a completion or event ring (`RING_CFG.IRQ_EN`, `RING_IRQ`). -/
def Chip.interrupt (c : Chip) (r : Nat) : Chip :=
  if c.on (F.RING_CFG_IRQ_EN r) then c.raiseIrq (ringHalf r) (c.on (F.RING_IRQ_PCIE r)) (c.q (F.RING_IRQ_VECTOR r)) else c

/-- What became of a record. -/
inductive Wrote where
  | written
  /-- The ring is absent, disabled, or takes no record. -/
  | nothing
  | full
  | refused (addr cause : Nat)
deriving DecidableEq, Repr

/-- Writes a record of `size` bytes at the tail of a completion or event ring in service; `mk` gives its bytes for a
phase bit, its free-running index and the count of lost events (R249, R250, R565); the ring counts it (`RING_DONE`). -/
def Chip.writeRecord (c : Chip) (r size : Nat) (mk : Nat → Nat → Nat → List Byte) (reserved : Bool) : Wrote × Chip :=
  match c.ringSt? r with
  | none => (.nothing, c)
  | some x =>
    if x.deaf then (.refused x.deafAt.1 x.deafAt.2, c)
    else if !reserved && c.ringFull r 0 then (.full, c.setRingSt r { x with lost := min (x.lost + 1) 0xFFFFFFFF })
    else
      let tail := c.reg (Reg.RING_TAIL r)
      let a := c.ringEntry r tail size
      match c.rangeCause x.owner true a size with
      | some (ad, cs) =>
        (.refused ad cs, (c.put (F.RING_STATUS_WRITE_ERR r) 1).setRingSt r { x with deaf := true, deafAt := (ad, cs) })
      | none =>
        let phase := (x.written / 2 ^ c.q (F.RING_CFG_SIZE_LOG2 r) + 1) % 2
        let c := c.store a (mk phase tail x.lost)
        let c := c.setReg (Reg.RING_TAIL r) ((tail + 1) % 2 ^ 32)
        let c := c.countPair (Reg.RING_DONE_LO r) (Reg.RING_DONE_HI r) 1
        (.written, (c.setRingSt r { x with lost := 0, lostRun := false, written := x.written + 1 }).interrupt r)

/-- The bytes of an event record (R250). -/
def Event.bytes (e : Event) (stamp phase seq lost : Nat) : List Byte :=
  toLE 2 e.code ++ toLE 2 (e.ring.getD 0xFFFF) ++ toLE 2 (e.owner.getD 0).toNat ++ toLE 1 e.half.idx ++ toLE 1 phase ++
    toLE 8 stamp ++ toLE 4 seq ++ toLE 4 lost ++
    ((e.detail ++ [0, 0, 0, 0, 0]).take 5).flatMap fun d => toLE 8 d

/-- The codes that the error log keeps (R539). -/
def logged (code : Nat) : Bool :=
  [0x0103, 0x0111, 0x0202, 0x0211, 0x0311, 0x0312, 0x0315, 0x0705, 0x070A, 0x080A, 0x0810, 0x0820, 0x0904, 0x0D02,
    0x0D0A, 0x0D10, 0x0F00, 0x1013, 0x1018].contains code || (code / 256 == 0x11 && code != 0x1118)

/-- The chip after a half writes a ledger record: to every flash whose half is up; what a full bank cannot take is kept
for the next compaction (R534, R535). -/
def Chip.ledger (c : Chip) (h : Half) (kind : Nat) (body : List Byte) (sets : List (Nat × Nat)) : Chip :=
  let seq := c.ledgerSeq.get h + 1
  let r : WearRec := ⟨kind, h.idx, seq, c.reg Reg.WEAR_STARTS, c.reg Reg.WEAR_HOURS, body, sets⟩
  let add (f : FlashLedger) : FlashLedger :=
    if f.recs.length < 3584 then { f with recs := r :: f.recs } else { f with held := r :: f.held }
  [Half.H, Half.T].foldl (fun (c : Chip) x => if c.down.get x ∧ x ≠ h then c else { c with flash := c.flash.set x (add (c.flash.get x)) })
    { c with ledgerSeq := c.ledgerSeq.set h seq }

/-- The chip after an event enters the error log (R539). -/
def Chip.logEvent (c : Chip) (e : Event) : Chip :=
  if ¬ logged e.code then c
  else
    let body := (e.bytes (c.stamp e.half 0) 0 0 0).take 44
    let c := { c with log := (LogEntry.mk e.half.idx (c.ledgerSeq.get e.half + 1) (c.reg Reg.WEAR_STARTS) (c.reg Reg.WEAR_HOURS) body :: c.log).take 512 }
    let c := c.inc F.WEAR_LOG_CNT_COUNT
    c.ledger e.half 0x0010 body [(Reg.WEAR_LOG_CNT, c.reg Reg.WEAR_LOG_CNT)]

/-- An event written to firmware's default event ring alone; what cannot be written is counted in `lost` (R251, R565). -/
def Chip.raiseFw (c : Chip) (e : Event) : Chip :=
  match c.defaultEq 0 with
  | none => c
  | some r =>
    match c.writeRecord r 64 (fun p s l => e.bytes (c.stamp e.half 0) p s l) false with
    | (.refused _ _, c') => match c'.ringSt? r with
      | some x => c'.setRingSt r { x with lost := min (x.lost + 1) 0xFFFFFFFF }
      | none => c'
    | (_, c') => c'

/-- The event ring of the party that an event names: the one linked to the ring that caused it, or the party's default. -/
def Chip.partyEq (c : Chip) (e : Event) : Option Nat :=
  match e.ring, e.owner with
  | some r, _ => some (c.q (F.RING_LINK_EQ r))
  | none, some o => c.defaultEq o
  | none, none => none

/-- The chip after the write of a record of a ring is refused: event 0x0405, and 0x0303 where the write, which a ring that is deaf
already does not make, was to a reserved address (R200, R565). Engine 0 stands for the ring controller. -/
def Chip.recordRefused (c : Chip) (deaf : Bool) (r a cause : Nat) : Chip :=
  let c := c.raiseFw ⟨ringHalf r, 0x0405, none, none, [r, a, cause]⟩
  if cause = 3 ∧ ¬ deaf then
    let o := (c.ringSt? r).map (·.owner)
    c.raiseFw ⟨ringHalf r, 0x0303, none, o, [a, (o.getD 0).toNat, 0]⟩
  else c

/-- A ring takes no record (R565). -/
def Chip.isDeaf (c : Chip) (r : Nat) : Bool := match c.ringSt? r with | some x => x.deaf | none => false

/-- The chip after an event: its record in firmware's default event ring and in the event ring of the party it names,
and its entry in the error log (R250, R251, R565, R539). -/
def Chip.raise (c : Chip) (e : Event) : Chip :=
  let c := (c.logEvent e).raiseFw e
  match c.partyEq e with
  | none => c
  | some r =>
    if c.defaultEq 0 = some r ∨ c.q (F.RING_CFG_KIND r) ≠ 3 then c
    else
      match c.writeRecord r 64 (fun p s l => e.bytes (c.stamp e.half 0) p s l) false with
      | (.full, c') =>
        match c'.ringSt? r with
        | some x =>
          if x.lostRun then c'
          else (c'.setRingSt r { x with lostRun := true }).raiseFw ⟨ringHalf r, 0x0418, none, some x.owner, [r, x.owner.toNat]⟩
        | none => c'
      | (.refused a k, c') => c'.recordRefused (c.isDeaf r) r a k
      | (_, c') => c'

/-- An event of a half that names no party and no ring. -/
def Chip.ev (c : Chip) (h : Half) (code : Nat) (detail : List Nat) : Chip := c.raise ⟨h, code, none, none, detail⟩
/-- An event of a half that names a party. -/
def Chip.evOf (c : Chip) (h : Half) (code : Nat) (o : Owner) (detail : List Nat) : Chip := c.raise ⟨h, code, none, some o, detail⟩
/-- An event of a half that names a party, caused by a command of a ring or by none. -/
def Chip.evBy (c : Chip) (h : Half) (code : Nat) (r : Option Nat) (o : Owner) (detail : List Nat) : Chip := c.raise ⟨h, code, r, some o, detail⟩
/-- An event that a command caused. -/
def Chip.evCmd (c : Chip) (h : Half) (code : Nat) (m : Cmd) (detail : List Nat) : Chip :=
  c.raise ⟨h, code, some m.id.ring.val, some m.owner, detail⟩

/-- Latest time of a milestone, in µs from power-good (R491). -/
def milestoneUs (step : Nat) : Nat := [0, 0, 30000, 45000, 50000, 60000, 150000, 200000, 400000, 3000000, 8000000].getD step 8000000

/-- The chip after a half reaches a milestone of its start: `SYS_START`, event 0x0E10, and 0x0E11 if it is late (R491, R492). -/
def Chip.milestone (c : Chip) (h : Half) (step : Nat) : Chip :=
  if step ≤ c.q (F.SYS_START_PHASE h.idx) then c
  else
    let t := (c.time.get h).cycles
    let ms := t / 250000
    let c := ((c.put (F.SYS_START_PHASE h.idx) step).put (F.SYS_START_MS h.idx) (min ms (2 ^ 20 - 1))).ev h 0x0E10 [h.idx, step, ms]
    if milestoneUs step + (c.start.get h).slackUs < t / 250 then c.ev h 0x0E11 [h.idx, step, ms] else c

/-- The region type of an address (R216): device for register pages and I/O die buffers, that of the entry for what an entry
covers, unowned where its check byte is wrong (R217), plain for the stores and the peer windows. -/
def Chip.regionType (c : Chip) (a : Nat) : Nat :=
  if a < 0x40000000 ∨ (0x100000000 ≤ a ∧ a < 0x180000000) then 1
  else match ownIndex a with
    | some i => if ownGood (c.ownAt i) then ownType (c.ownAt i) else 7
    | none => 0

/-- The event of a refused access, by its cause: 0x0300, 0x0301, 0x0303 or 0x0318, or 0x0302 in a KV frame (R230). -/
def Chip.refusalEvent (c : Chip) (h : Half) (m : Option Cmd) (o : Owner) (a cause engine : Nat) : Chip :=
  let i := (ownIndex a).getD 0
  let typ := c.regionType a
  let mk (code : Nat) (d : List Nat) : Chip :=
    match m with
    | some m => c.evCmd h code m d
    | none => c.evOf h code o d
  match cause with
  | 1 => if typ = 2 ∧ inDram a then
      match c.frameOf a with
      | some (hh, n) => mk 0x0302 [hh.idx * 131072 + n, o.toNat, (c.frame hh n).state]
      | none => mk 0x0302 [0x3FFFF, o.toNat, 0]
    else mk 0x0300 [a, o.toNat, typ, engine]
  | 2 => mk 0x0301 [i, engine]
  | 3 => mk 0x0303 [a, o.toNat, engine]
  | 4 => mk 0x0318 [stackOf a, a, o.toNat]
  | _ => c

/-- The chip after firmware's access goes on through entries with a bad check byte, since it may access what is unowned: each
raises its event (R216, R217). -/
def Chip.badEntries (c : Chip) (h : Half) (m : Option Cmd) (o : Owner) (a n engine : Nat) : Chip :=
  if o ≠ 0 then c
  else (granuleStarts a n).foldl (fun c x => match ownIndex x with
    | some i => if selfDeciding x ∨ ownGood (c.ownAt i) then c else c.refusalEvent h m o x 2 engine
    | none => c) c

/-- The state of the instance of an owner ID: the code of R297, 0 where its record is not held by that world and partition. -/
def Chip.instState (c : Chip) (o : Owner) : Nat :=
  let i := o.inst
  if c.q (F.VI_INST_STATE_WORLD i) = b2n o.world ∧ c.q (F.VI_INST_STATE_PART i) = o.part then c.q (F.VI_INST_STATE_STATE i) else 0

/-- An address of a peer window, of a PCIe window (R199). -/
def isPeer (a : Nat) : Bool := decide (0x4000000000 ≤ a ∧ a < 0x84000000000)
def isPcie (a : Nat) : Bool := decide (0x180000000 ≤ a ∧ a < 0x200000000)
/-- The half of the port of a PCIe window address. -/
def pcieHalf (a : Nat) : Half := if a < 0x1C0000000 then .H else .T

/-- The PASID that a request of a party through a port's outbound window carries: its record's, while it is valid and bound to that
port (R306). -/
def Chip.outPasid (c : Chip) (o : Owner) (a : Nat) : Option Nat :=
  let i := o.inst
  if isPcie a ∧ o.part ≠ 0 ∧ c.instState o ≠ 0 ∧ c.on (F.VI_INST_PCI_PASID_VALID i) ∧ c.q (F.VI_INST_PCI_PORT i) = (pcieHalf a).idx then
    some (c.q (F.VI_INST_PCI_PASID i))
  else none

/-- The chip after a request of a party leaves through an outbound window of a PCIe port, with the PASID that it carries (R306). -/
def Chip.pcieSent (c : Chip) (o : Owner) (a : Nat) : Chip :=
  if isPcie a then { c with pcieOut := c.pcieOut.set (pcieHalf a) (some (a, c.outPasid o a)) } else c

/-- The chip after an admitted access of an engine of a half to `n` bytes raises what it raises without being refused: one of
another width than a register's has no effect but its event (R16), and bad check bytes that firmware meets raise theirs; one that
leaves through a PCIe port carries its PASID (R306). -/
def Chip.touched (c : Chip) (h : Half) (m : Option Cmd) (o : Owner) (a n engine : Nat) : Chip :=
  let c := if n = 0 then c else c.pcieSent o a
  (if n = 0 ∨ 0x40000000 ≤ a ∨ (n = 4 ∧ a % 4 = 0) then c
    else c.evBy (homeHalf h a) (widthEvent a) (m.map (·.id.ring.val)) o [a, o.toNat]).badEntries h m o a n engine

/-- The chip after a command's accesses to some ranges, each an address and a length, raise what they raise without being
refused. -/
def Chip.touches (c : Chip) (m : Cmd) (l : List (Nat × Nat)) : Chip :=
  l.foldl (fun (c : Chip) r => c.touched m.half (some m) m.owner r.1 r.2 m.opcode) c

/-- The slot registers are locked by the `CALLIPER_CTL` of either half (R338); the lock outlives a half's reset (R19). -/
def Chip.slotLocked (c : Chip) : Bool := c.slotLock || c.on (F.CALLIPER_CTL_LOCK 0) || c.on (F.CALLIPER_CTL_LOCK 1)

/-! ### Instances (R296, R297) -/

/-- An owner ID stands for firmware, partition 0 or an instance that exists (R296, R297). -/
def Chip.partyExists (c : Chip) (o : Owner) : Bool := o.part == 0 || c.instState o != 0

/-- A partition exists (R269). -/
def Chip.partValid (c : Chip) (p : Nat) : Bool := p == 0 || c.on (F.SCHED_PART_CFG_VALID p)

/-- Work of a party may be fetched: its instance is ACTIVE or SUSPENDED (R308, R309), or its partition does not exist, and then
each descriptor ends with FAULT (R269). -/
def Chip.mayFetch (c : Chip) (o : Owner) : Bool := !c.partValid o.part || o.part == 0 || c.instState o == 1 || c.instState o == 2

/-- Work of a party may be dispatched: its instance is ACTIVE (R297), or its partition does not exist (R269). -/
def Chip.mayDispatch (c : Chip) (o : Owner) : Bool := !c.partValid o.part || o.part == 0 || c.instState o == 1

/-- The share of a party in force on an engine (0 to 7 arrays, 8 to 39 benches, 40 and 41 the halves' attention engines), 0 suspending it there (R307, R308). -/
def Chip.shareOn (c : Chip) (e : Nat) (o : Owner) : Nat :=
  if o.part = 0 then 1 else (Tbl.find? c.sharePend (256 * e + o.inst)).getD (c.q (F.VI_INST_STATE_SHARE o.inst))

/-! ### Dowels (R252–R258) -/

/-- The value of a dowel. -/
def Chip.dowel (c : Chip) (d : Nat) : Nat := c.pair (Reg.DOWEL_VAL_LO d) (Reg.DOWEL_VAL_HI d)

/-- A party may read a dowel, wait on it or arm its notify (R255, R297). -/
def Chip.dowelRead (c : Chip) (o : Owner) (d : Nat) : Bool :=
  let own := c.q (F.DOWEL_ATTR_OWNER d)
  o == 0 || (c.partyExists o && (own == o.toNat ||
    match c.q (F.DOWEL_ATTR_SCOPE d) with
    | 1 => own / 256 == o.toNat / 256
    | 2 => own / 4096 == o.toNat / 4096
    | 3 => c.q (F.DOWEL_READER_READER d) == o.toNat
    | _ => false))

/-- A party may signal a dowel (R255, R297). -/
def Chip.dowelSignal (c : Chip) (o : Owner) (d : Nat) : Bool :=
  o == 0 || (c.partyExists o && c.q (F.DOWEL_ATTR_OWNER d) == o.toNat)

/-- Set-to-maximum (R252). -/
def Chip.dowelMax (c : Chip) (d v : Nat) : Chip :=
  c.setPair (Reg.DOWEL_VAL_LO d) (Reg.DOWEL_VAL_HI d) (max (c.dowel d) (v % 2 ^ 64))

/-- Add, held at the largest value with event 0x0408 (R252). -/
def Chip.dowelAdd (c : Chip) (o : Owner) (d v : Nat) (ring : Option Nat := none) : Chip :=
  let s := c.dowel d + v % 2 ^ 64
  if s < 2 ^ 64 then c.setPair (Reg.DOWEL_VAL_LO d) (Reg.DOWEL_VAL_HI d) s
  else (c.setPair (Reg.DOWEL_VAL_LO d) (Reg.DOWEL_VAL_HI d) (2 ^ 64 - 1)).evBy (dowelHalf d) 0x0408 ring o [d, o.toNat]

/-- A refused dowel access raises event 0x0409; right 0 read, 1 wait, 2 notify, 3 signal, 4 configure. -/
def Chip.dowelRefused (c : Chip) (o : Owner) (d right : Nat) (ring : Option Nat := none) : Chip :=
  c.evBy (dowelHalf d) 0x0409 ring o [d, o.toNat, right]

/-- The right that an access to a register of a dowel's page asks for: reads 0, `DOWEL_NOTIFY` 2, `DOWEL_ATTR` and `DOWEL_READER`
4, the signal registers 3 (R255, R266, R268). -/
def rightAsked (write : Bool) (off : Nat) : Nat :=
  if ¬ write then 0 else if off = 0x18 ∨ off = 0x1C then 2 else if 0x08 ≤ off ∧ off ≤ 0x14 then 3 else 4

/-- A signal with the rights of a party: operation 0 set-to-maximum, 1 add; `ring` is that of the command that signals, if one
does. It takes effect at the dowel's home half, and none where that is DOWN (R245, R250, R253, R255, R362). -/
def Chip.signal (c : Chip) (o : Owner) (d op v : Nat) (ring : Option Nat := none) : Chip :=
  if c.down.get (dowelHalf d) then c
  else if ¬ c.dowelSignal o d then c.dowelRefused o d 3 ring
  else if op = 0 then c.dowelMax d v else if op = 1 then c.dowelAdd o d v ring else c

/-- A party is strict (R6, `SCHED_PART_CFG`). -/
def Chip.strict (c : Chip) (o : Owner) : Bool :=
  if o.world then c.on (F.SCHED_PART_CFG_STRICT_H o.part) else c.on (F.SCHED_PART_CFG_STRICT_S o.part)

/-- A partition is strict in a world; the reservations of one that is not have no effect (R270). -/
def Chip.strictPart (c : Chip) (p : Nat) : Bool := c.partValid p && (c.on (F.SCHED_PART_CFG_STRICT_H p) || c.on (F.SCHED_PART_CFG_STRICT_S p))

/-- Hardware waits held in a half. -/
def Chip.waitsHeld (c : Chip) (h : Half) : Nat := (c.waits.filter fun w => w.hw && dowelHalf w.dowel == h).length

/-- Hardware waits held in a half by the strict parties of a partition. -/
def Chip.strictWaits (c : Chip) (h : Half) (p : Nat) : Nat :=
  (c.waits.filter fun w => w.hw && dowelHalf w.dowel == h && c.strict w.owner && w.owner.part == p).length

/-- A half has a hardware wait for a party: its reserved entries first, then free unreserved ones (R254, R278). -/
def Chip.waitLeft (c : Chip) (h : Half) (o : Owner) : Bool :=
  let rsv (p : Nat) := if c.strictPart p then c.q (F.SCHED_PART_RSV_WAIT_RSV p) else 0
  let kept := ((List.range 16).map fun p => rsv p - c.strictWaits h p).sum
  (c.strict o && decide (c.strictWaits h o.part < rsv o.part)) || decide (c.waitsHeld h + kept < 8192)

/-- The chip after a wait is made: it holds a hardware wait of the dowel's home half, or polls with event 0x040A once
for each run (R254). -/
def Chip.makeWait (c : Chip) (o : Owner) (d target : Nat) (who : Waiter) (ring : Option Nat := none) : Chip :=
  let h := dowelHalf d
  if c.waitLeft h o then
    { c with waits := c.waits ++ [Wait.mk d target who o true], pollRun := c.pollRun.set h false }
  else
    let c' := { c with waits := c.waits ++ [Wait.mk d target who o false], pollRun := c.pollRun.set h true }
    if c.pollRun.get h then c' else c'.evBy h 0x040A ring o [h.idx, o.toNat]

/-- The wait of a waiter on a dowel. -/
def Chip.wait? (c : Chip) (d : Nat) (who : Waiter) : Option Wait := c.waits.find? fun w => w.dowel == d && w.who == who

/-- The chip without the wait of a waiter on a dowel. -/
def Chip.dropWait (c : Chip) (d : Nat) (who : Waiter) : Chip :=
  { c with waits := c.waits.filter fun w => !(w.dowel == d && w.who == who) }

/-! ### Completion (R248, R249, R565) -/

/-- The bytes of a completion record (R249). -/
def Cmd.record (m : Cmd) (alt : Bool) (stamp gen detail phase : Nat) : List Byte :=
  toLE 4 m.id.seq.toNat ++ toLE 1 m.status ++ toLE 1 (phase + m.flagBits alt) ++ toLE 2 m.id.ring.val ++ toLE 4 stamp ++
    toLE 4 gen ++ toLE 8 detail ++ List.replicate 8 0

/-- Releases a command's reservation in its completion ring. -/
def Chip.release (c : Chip) (m : Cmd) : Chip :=
  match c.ringSt? m.cq with
  | none => c
  | some x => c.setRingSt m.cq { x with resv := x.resv - 1 }

/-- The chip after a command that a Parting unit has run lets its unit go, however it leaves flight (R155, R165). -/
def Chip.partingIdle (c : Chip) (m : Cmd) : Chip :=
  if (m.opcode = 0x30 ∨ m.opcode = 0x31) ∧ m.stage = .done then
    ((c.put (F.PARTING_STATUS_SUPPRESS m.unit) 0).put (F.PARTING_STATUS_CROP m.unit) 0).put (F.PARTING_STATUS_OWNER m.unit) 0
  else c

/-- The chip after a command leaves flight, without a record. -/
def Chip.leave (c : Chip) (m : Cmd) : Chip :=
  let r := m.id.ring.val
  let c := (((c.partingIdle m).release m).dropCmd m.id).dec (F.RING_STATUS_IN_FLIGHT r)
  c.put (F.RING_STATUS_IDLE r) (b2n (c.q (F.RING_STATUS_IN_FLIGHT r) == 0))

/-- A command that completes, with the flags that it gathered in flight (R24, R130). -/
def Chip.latest (c : Chip) (m : Cmd) : Cmd :=
  match c.cmd? m.id with
  | some y => { m with clamped := m.clamped || y.clamped, spare := m.spare || y.spare }
  | none => m

/-- The chip after a command completes: its record is written at the tail of its completion ring, its reservation is
released, and the dowel of word 7 is signalled when the record was written (R248, R249, R565); its attention engine counts it (R198). -/
def Chip.completeWith (c : Chip) (m : Cmd) (alt : Bool) (gen detail : Nat) : Chip :=
  let m := c.latest m
  let detail := match m.ended with | some (_, d) => d | none => detail
  let st := compact (c.stamp (ringHalf m.id.ring.val) 0)
  let c := if m.isAttn then c.countPair (Reg.ATTN_CMD_CNT_LO m.half.idx) (Reg.ATTN_CMD_CNT_HI m.half.idx) 1 else c
  let c := c.leave m
  match c.writeRecord m.cq 32 (fun p _ _ => m.record alt st gen detail p) true with
  | (.written, c) =>
    let c := c.countPair (Reg.RING_DONE_LO m.id.ring.val) (Reg.RING_DONE_HI m.id.ring.val) 1
    if bit (m.word 0) 11 then c.signal m.owner (m.fld 7 48 14) (m.fld 7 62 2) (m.fld 7 0 48) (some m.id.ring.val) else c
  | (.refused a k, c') => c'.recordRefused (c.isDeaf m.cq) m.cq a k
  | (_, c) => c

/-- Completion of a command that is no slot publish or read: generation 0. -/
def Chip.complete (c : Chip) (m : Cmd) (detail : Nat) : Chip := c.completeWith m false 0 detail

/-- Completion with FAULT, or with ABANDONED where the cause is the loss of a half (R362). -/
def Chip.failCmd (c : Chip) (m : Cmd) (detail : Nat) : Chip :=
  if bits detail 48 8 = causeLost then c.complete (m.endWith .abandoned 0) 0 else c.complete (m.endWith .fault detail) detail

/-- The `detail` of a refused access (R226). -/
def accessDetail (a cause : Nat) : Nat := a % 2 ^ 48 + cause * 2 ^ 48

/-- The status with which an access that cannot be made ends its command (R226, R362). -/
def causeStatus (cause : Nat) : Status :=
  if cause = 9 then .remoteTimeout else if cause = 10 then .remoteLost else if cause = causeLost then .abandoned else .fault

/-- A command that an access which cannot be made ends. -/
def Cmd.endAt (m : Cmd) (a cause : Nat) : Cmd := m.endWith (causeStatus cause) (if cause = causeLost then 0 else accessDetail a cause)

/-- The chip after a command ends at an access that cannot be made, with the access's event. -/
def Chip.failReach (c : Chip) (m : Cmd) (e : Nat × Nat) : Chip :=
  (c.complete (m.endAt e.1 e.2) 0).refusalEvent m.half (some m) m.owner e.1 e.2 m.opcode

/-! ### Windows and peer links (R199, R502, R504, R506, R513) -/

/-- Fabric number that a window address names. -/
def fabricOf (a : Nat) : Nat := (a - 0x4000000000) / 0x2000000000

/-- A device is lost, as a half records it (R506). -/
def Chip.farLost (c : Chip) (h : Half) (a : Nat) : Bool := c.on (F.PEER_DEV_LOST h.idx (fabricOf a))

/-- An access through a window cannot be made: its device is lost, or its port's link is down (R506, R513). -/
def Chip.windowGone (c : Chip) (h : Half) (a : Nat) : Bool :=
  (isPeer a && c.farLost h a) || (isPcie a && !c.on (F.PCIE_STATUS_LINK_UP (pcieHalf a).idx))

/-- The first address of a range that an engine of a half cannot reach for a party, with the cause: refused here, or through a
window as `far` says (R216, R226). -/
def Chip.reachCause (c : Chip) (h : Half) (o : Owner) (write : Bool) (a n : Nat) (far : Far) : Option (Nat × Nat) :=
  match c.rangeCause o write a n with
  | some e => some e
  | none =>
    if n = 0 ∨ ¬ inWindow a then none
    else if c.windowGone h a then some (a, 10)
    else match far with
      | .answered => none
      | .refused => some (a, 1)
      | .timedOut => some (a, 9)
      | .lost => some (a, 10)

/-- Bytes that an engine reads for a command, or where and why it cannot. -/
def Chip.reach (c : Chip) (m : Cmd) (a n : Nat) (far : Far) : Except (Nat × Nat) (List Byte) :=
  match c.reachCause m.half m.owner false a n far with
  | some e => .error e
  | none => .ok (c.load a n)

/-- The chip after an engine writes bytes for a command, or where and why it cannot. -/
def Chip.place (c : Chip) (m : Cmd) (a : Nat) (bs : List Byte) (far : Far) : Except (Nat × Nat) Chip :=
  match c.reachCause m.half m.owner true a bs.length far with
  | some e => .error e
  | none => .ok (c.store a bs)


/-- A link, as 8 × half + local link, is up: active or in LOW. -/
def Chip.linkUp (c : Chip) (l : Nat) : Bool :=
  let s := c.q (F.PEER_LINK_STATUS_STATE (l / 8) (l % 8))
  s == 2 || s == 3

/-- The up links of a half's route entry of a device. -/
def Chip.entryLinks (c : Chip) (h : Half) (n : Nat) : List Nat :=
  if c.down.get h then []
  else ((List.range 8).filter fun l => bit (c.q (F.PEER_ROUTE_LINKS h.idx n)) l && c.linkUp (8 * h.idx + l)).map (8 * h.idx + ·)

/-- Neither half holds an up link in its entry of a device. -/
def Chip.noLink (c : Chip) (n : Nat) : Bool := c.entryLinks .H n == [] && c.entryLinks .T n == []

/-- TB_0 as the half that is up shows it, Headstock's where both are. -/
def Chip.now (c : Chip) : Nat := c.stamp (if c.down.h then .T else .H) 0

/-- The chip with a field of both halves that are up replaced. -/
def Chip.putBoth (c : Chip) (f : Nat → RF) (v : Nat) : Chip :=
  ([Half.H, Half.T].filter fun h => !c.down.get h).foldl (fun (c : Chip) h => c.put (f h.idx) v) c

/-- The chip after a link reaches a device that is lost, or that none has reached since the start: it is found, with event
0x0F08 (R506). What a device that is reached by forwarding alone would give in training is free. -/
def Chip.deviceFound (c : Chip) (h : Half) (n : Nat) : Chip :=
  if c.on (F.PEER_DEV_FOUND h.idx n) ∧ ¬ c.on (F.PEER_DEV_LOST h.idx n) then c
  else
    let c := (c.putBoth (fun k => F.PEER_DEV_FOUND k n) 1).putBoth (fun k => F.PEER_DEV_LOST k n) 0
    match Tbl.find? c.farDevs n with
    | some d => c.ev h 0x0F08 [n, d.1 % 2 ^ 64, d.1 / 2 ^ 64, d.2]
    | none =>
      let (x, c) := c.draw
      let (y, c) := c.draw
      let (z, c) := c.draw
      c.ev h 0x0F08 [n, x % 2 ^ 64, y % 2 ^ 64, z % 2 ^ 32]

/-- The chip with the stamps since which devices have had no up link, after a change of links or routes from `old`; a device
of whose entries one is up is found (R506). -/
def Chip.syncLinks (c old : Chip) : Chip :=
  (List.range 64).foldl (fun (c : Chip) n =>
    if ¬ c.noLink n then
      let c : Chip := { c with linkless := Tbl.del c.linkless n }
      if n = c.q (F.PEER_CTL_FABRIC_NO c.firstUp.idx) then c else c.deviceFound c.firstUp n
    else if old.noLink n then c else { c with linkless := Tbl.ins c.linkless n c.now }) c

end Sys2Proof.Machine
end

