-- ==== Sys2Proof/Machine/Wear.lean ====
section
/-! DEFINITION. Reserves, service levels and the records of the wear ledger that other units write (R532–R538). -/

namespace Sys2Proof.Machine

/-- The half of the unit of a claim bit (R459). -/
def claimHalf (b : Nat) : Half :=
  let first (lo mid : Nat) : Half := if b < lo + mid then .H else .T
  if b < 8 then first 0 4
  else if b < 40 then first 8 16
  else if b < 56 then first 40 8
  else if b < 88 then first 56 16
  else if b < 100 then first 88 6
  else if b < 108 then first 100 4
  else if b < 110 then first 108 1
  else first 110 8

/-- The power state of a unit: 0 ACTIVE, 1 CLOCK_GATED, 2 POWER_GATED (R519, `POWER_BLK_STATE`). -/
def Chip.unitState (c : Chip) (b : Nat) : Nat := bits (c.q (F.POWER_BLK_STATE_STATE (claimHalf b).idx (b / 16))) (2 * (b % 16)) 2

/-- A unit is clocked: it is ACTIVE, and its half is not in RETAIN (R517, R519). -/
def Chip.unitOn (c : Chip) (b : Nat) : Bool := c.unitState b == 0 && c.awake (claimHalf b)

/-- The chip after a unit changes its power state, with event 0x1001 (R519, R530). -/
def Chip.setUnitState (c : Chip) (b st : Nat) : Chip :=
  let h := claimHalf b
  let f := F.POWER_BLK_STATE_STATE h.idx (b / 16)
  let old := c.unitState b
  if old = st then c
  else (c.put f (c.q f - old * 4 ^ (b % 16) + st * 4 ^ (b % 16))).ev h 0x1001 [b, old, st]

/-- The moves in flight on a Carriage, oldest first (R220). -/
def Chip.movesOn (c : Chip) (k : Nat) : List Cmd :=
  c.cmds.filter fun m => decide (0x50 ≤ m.opcode ∧ m.opcode ≤ 0x53) && m.unit == k && (m.stage == .running || m.stage == .withdrawn)

/-- The 44 body bytes of a record that carries an event's detail words (R534). -/
def wearBody (d : List Nat) : List Byte := ((d ++ [0, 0, 0, 0, 0]).take 5).flatMap (toLE 8 ·) ++ List.replicate 4 0

/-- The registers of the WEAR block that the ledger holds. -/
def wearWords : List Nat := [Reg.WEAR_STATUS, Reg.WEAR_HOURS, Reg.WEAR_STARTS, Reg.WEAR_LOG_CNT] ++ (List.range 10).map Reg.WEAR_RES

/-- The registers of a unit that its records describe: an array (kinds 0 to 2, 8), a bench (3 to 5, 9), a stack (6); none
of a link, whose lanes return at every start (R533). The unit of kind 5 is 64 × bench + physical core. -/
def unitWords (kind unit : Nat) : List Nat :=
  match kind with
  | 0 | 1 | 2 | 8 => (List.range 4).map (Reg.ARRAY_ROWMAP unit) ++ (List.range 6).map (Reg.ARRAY_COLMAP unit) ++
      [Reg.ARRAY_SPARES unit, Reg.ARRAY_RETIRE unit]
  | 3 | 4 | 9 => (List.range 60).map (Reg.BENCH_MAP unit) ++ [Reg.BENCH_CORES unit, Reg.BENCH_RETIRE unit]
  | 5 => [Reg.BENCH_CORES (unit / 64)]
  | 6 => [Reg.MEM_STATUS unit]
  | _ => []

/-- Registers with their present values. -/
def Chip.wearSets (c : Chip) (l : List Nat) : List (Nat × Nat) := l.map fun a => (a, c.reg a)

/-- The level of a cause bit (R538). -/
def causeLevel (cause : Nat) : Nat := if cause = 0 then 1 else if cause ≤ 7 then 2 else 3

/-- The chip after the condition with a cause bit holds: the level never falls; a rise writes a record and raises 0x1108
(R538). -/
def Chip.wearCause (c : Chip) (h : Half) (cause : Nat) : Chip :=
  let c := if bit (c.q F.WEAR_STATUS_CAUSE) cause then c else c.put F.WEAR_STATUS_CAUSE (c.q F.WEAR_STATUS_CAUSE + 2 ^ cause)
  let old := c.q F.WEAR_STATUS_LEVEL
  let new := causeLevel cause
  if new ≤ old then c
  else
    let c := (c.put F.WEAR_STATUS_LEVEL new).ev h 0x1108 [old, new, cause]
    c.ledger h 6 (wearBody [old, new, cause]) (c.wearSets wearWords)

/-- Reserve of one unit of a kind (R532). -/
def perUnit (kind : Nat) : Nat := [4, 6, 384, 4, 64, 8, 1, 1].getD kind 0

/-- The cause bit of a unit whose reserve of a kind is used up (R538); lanes have none of their own. -/
def usedUpCause : Nat → Option Nat
  | 0 | 1 => some 2
  | 3 => some 3
  | 2 | 4 | 5 => some 4
  | 6 => some 5
  | _ => none

/-- The chip after a spare of a unit is taken, `used` of the unit's reserve being in use then (R532–R535, R538). -/
def Chip.spareTaken (c : Chip) (h : Half) (kind unit spare used : Nat) : Chip :=
  let c := (c.inc (F.WEAR_RES_USED kind)).ev h 0x1100 [kind, unit, spare]
  let c := c.ledger h 1 (wearBody [kind, unit, spare]) (c.wearSets (wearWords ++ unitWords kind unit))
  let c := match usedUpCause kind with
    | some k => if perUnit kind ≤ used then c.wearCause h k else c
    | none => c
  if c.q F.WEAR_CTL_WATCH_PCT * perUnit kind ≤ used * 100 then c.wearCause h 0 else c

/-- Whether a row of a store has given an error in this hour already, and the chip with that noted; the error that replaces
the row forgets it (R106, R132, R537). Stores: 0–7 arrays, 8–39 benches, 4,096 + 64 × bench + physical core data stores. -/
def Chip.rowWorn (c : Chip) (store row : Nat) : Bool × Chip :=
  if c.storeErrs.contains (store, row) then (true, { c with storeErrs := c.storeErrs.erase (store, row) })
  else (false, { c with storeErrs := (store, row) :: c.storeErrs })

/-- The roughing partition holds fewer than two arrays in service on a half (R538, cause 10). -/
def Chip.roughShort (c : Chip) (h : Half) : Bool :=
  let p := c.q F.SCHED_ROUGH_PART
  let m := c.q (F.SCHED_PART_CFG_ARRAYS p)
  p != 0 && c.on (F.SCHED_PART_CFG_VALID p) && decide (((List.range 4).filter fun k =>
    let a := 4 * h.idx + k
    bit m a && c.on (F.ARRAY_CTL_ENABLE a) && !c.on (F.ARRAY_STATUS_RETIRED a)).length < 2)

/-- The chip after a whole array (kind 8) or bench (kind 9) is retired (R532, R534, R538). -/
def Chip.unitRetired (c : Chip) (h : Half) (kind unit cause : Nat) : Chip :=
  let c := (c.inc (F.WEAR_RES_USED kind)).ev h 0x1101 [kind, unit, cause]
  let c := c.ledger h 2 (wearBody [kind, unit, cause]) (c.wearSets (wearWords ++ unitWords kind unit))
  let c := c.wearCause h (if kind = 8 then 1 else 3)
  if kind = 8 ∧ c.roughShort h then c.wearCause h 10 else c

end Sys2Proof.Machine
end

