-- ==== Sys2Proof/Machine/Cores.lean ====
section
/-! DEFINITION. Gouge cores as state: their registers, their stores, how a core stops, resumes and traps (R109–R116). -/

namespace Sys2Proof.Machine

/-- A logical core. -/
def Chip.core (c : Chip) (b k : Nat) : Core := Tbl.look Core.zero c.cores (64 * b + k)
/-- The chip with a logical core replaced. -/
def Chip.setCore (c : Chip) (b k : Nat) (x : Core) : Chip := { c with cores := Tbl.put Core.zero c.cores (64 * b + k) x }
/-- A bench. -/
def Chip.bench (c : Chip) (b : Nat) : BenchSt := Tbl.look BenchSt.zero c.benches b
/-- The chip with a bench replaced. -/
def Chip.setBench (c : Chip) (b : Nat) (x : BenchSt) : Chip := { c with benches := Tbl.put BenchSt.zero c.benches b x }

/-- The half of a bench (R109). -/
def benchHalf (b : Nat) : Half := if b < 16 then .H else .T

/-- Window address of a core's data store (R202). -/
def dataStore (b k : Nat) : Nat := 0x60000000 + b * 0x400000 + k * 0x10000
/-- Window address of a core's instruction store. -/
def instStore (b k : Nat) : Nat := dataStore b k + 0xC000
/-- Window address of a bench store. -/
def benchStore (b : Nat) : Nat := 0x50000000 + b * 0x200000

/-- The benches a gouge task selects, and its cores per bench (R125). -/
def Cmd.taskBenches (m : Cmd) : List Nat := (List.range 32).filter fun b => bit (m.word 3) b
def Cmd.taskCores (m : Cmd) : Nat := m.fld 3 32 6 + 1

/-- The logical cores of a task: (bench, core) in the order of their sliver index (R126). -/
def Cmd.taskUnits (m : Cmd) : List (Nat × Nat) := m.taskBenches.flatMap fun b => (List.range m.taskCores).map fun k => (b, k)

/-- The chip after a bench retires (R131, R134): cause 0 a write of `BENCH_RETIRE`, 1 fewer than 30 healthy cores. -/
def Chip.retireBench (c : Chip) (b cause : Nat) : Chip :=
  if c.on (F.BENCH_STATUS_RETIRED b) then c
  else
    let c := ((c.put (F.BENCH_STATUS_RETIRED b) 1).put (F.BENCH_RETIRE_RETIRE b) 1).ev (benchHalf b) 0x0202 [b, cause]
    c.unitRetired (benchHalf b) 9 b cause

/-- The chip after a bench's task has left it: the bench idles, and a retirement that waited takes effect (R134). -/
def Chip.freeBench (c : Chip) (b : Nat) : Chip :=
  let x := c.bench b
  let c := c.setBench b { x with task := none, retiring := false }
  let c := c.put (F.BENCH_STATUS_BUSY b) 0
  if x.retiring then c.retireBench b 0 else c

/-- A saved context of a bench without a task that has ended: its cores have stopped (R116). -/
def BenchCtx.without (x : BenchCtx) (id : CmdId) : BenchCtx :=
  if x.st.task ≠ some id then x
  else { x with
    st := { x.st with task := none }
    cores := x.cores.map fun e => (e.1, if e.2.task = some id then { e.2 with stall := .ended, task := none } else e.2) }

/-- The chip after what the record of a task that started tells is noted, however the task ends: values saturated on a core
(R61, R127), the first task on a bench after a spare core was swapped in (R130); its benches count it (R134). -/
def Chip.noteTask (c : Chip) (m : Cmd) : Chip :=
  let clamped (x : Core) : Bool := x.task == some m.id && x.gcclamp != 0
  let sat := (m.taskUnits.any fun u => clamped (c.core u.1 u.2)) || c.bctx.any fun e => e.2.cores.any fun k => clamped k.2
  let spare := m.taskBenches.any fun b => (c.bench b).spareNext
  let c : Chip := { c with cmds := c.cmds.map fun y => if y.id = m.id then { y with clamped := y.clamped || sat, spare := y.spare || spare } else y }
  m.taskBenches.foldl (fun (c : Chip) b =>
    (c.setBench b { c.bench b with spareNext := false }).countPair (Reg.BENCH_TASK_CNT_LO b) (Reg.BENCH_TASK_CNT_HI b) 1) c

/-- The chip after every core of a task that has started stops, in saved contexts too, and its benches are free; copies already
accepted remain (R116). -/
def Chip.stopTask (c : Chip) (m : Cmd) : Chip :=
  if m.stage = .fetched ∨ m.stage = .queued then c else
  let c := c.noteTask m
  let c := m.taskUnits.foldl (fun c u =>
    let x := c.core u.1 u.2
    if x.task = some m.id then c.setCore u.1 u.2 { x with stall := .ended, task := none } else c) c
  let c := { c with waits := c.waits.filter fun w =>
    match w.who with
    | .core b k => !(m.taskUnits.contains (b.val, k.val))
    | _ => true }
  let c := { c with bctx := c.bctx.map fun e => (e.1, e.2.without m.id) }
  m.taskBenches.foldl (fun c b => if (c.bench b).task = some m.id then c.freeBench b else c) c

/-- The chip after a trap in user mode: the task stops on every core and completes with FAULT (R116, event 0x0218). -/
def Chip.trap (c : Chip) (b k cause : Nat) : Chip :=
  let x := c.core b k
  match x.task.bind c.cmd? with
  | none => c.setCore b k { x with stall := .ended }
  | some m =>
    let d := cause % 256 + (k % 64) * 2 ^ 8 + (x.pc % 2 ^ 32) * 2 ^ 16
    ((c.stopTask m).evCmd (benchHalf b) 0x0218 m [b, k, cause, m.owner.toNat]).failCmd m d

/-- The chip after a core's wait ends: it goes on past `gc.dwait` (R123). -/
def Chip.resumeCore (c : Chip) (b k : Nat) : Chip :=
  let x := c.core b k
  match x.stall with
  | .dowel _ _ => Chip.setCore { c with blockedAt := Tbl.del c.blockedAt (8 + b) } b k { x with stall := .none, pc := (x.pc + 4) % 2 ^ 64, instret := (x.instret + 1) % 2 ^ 64 }
  | _ => c

/-- The chip after the wait of a core was taken away: its task completes with ABANDONED (R256). -/
def Chip.abandonCore (c : Chip) (b k : Nat) : Chip :=
  match (c.core b k).task.bind c.cmd? with
  | none => c
  | some m => (c.stopTask m).complete (m.endWith .abandoned 0) 0

/-! ### Copies (R118, R119, R286, R507) -/

/-- Fields of a sliver descriptor. -/
def slSpace (d : List Dword) : Nat := bits (d.getD 0 0).toNat 48 4
def slEsize (d : List Dword) : Nat := bits (d.getD 0 0).toNat 52 4
def slBase (d : List Dword) : Nat := bits (d.getD 0 0).toNat 0 48
def slExt (d : List Dword) (n : Nat) : Nat := bits (d.getD 1 0).toNat (16 * n) 16
def slRowLo (d : List Dword) : Nat := bits (d.getD 3 0).toNat 0 16
def slRowHi (d : List Dword) : Nat := bits (d.getD 3 0).toNat 16 16
/-- The end of a copy that lies in a window, by its base address (R507, R513). -/
def GCopy.window (g : GCopy) : Option Nat :=
  let far (d : List Dword) : Option Nat := if slSpace d = 0 ∧ inWindow (slBase d) then some (slBase d) else none
  match far g.src with
  | some a => some a
  | none => far g.dst

/-- The chip after a copy ends: its tag is free, and a core that waits on copies looks again; one that a reset has withdrawn leaves no
trace (R309). -/
def Chip.endCopy (c : Chip) (b k tag : Nat) (err : Bool) : Chip :=
  let x := c.core b k
  match Tbl.find? x.copies tag with
  | none => c
  | some g => if g.drop.isSome then c.setCore b k { x with copies := Tbl.del x.copies tag } else c.setCore b k { x with
      copies := Tbl.ins x.copies tag { g with ended := true, err := err }
      stall := if x.stall = .copies then .none else x.stall }

/-- The chip after a copy meets a timeout or the loss of a device: it ends in error, and a replayed one ends its task with
that status (R286, R507). -/
def Chip.copyGone (c : Chip) (b k tag : Nat) (st : Status) : Chip :=
  let x := c.core b k
  match Tbl.find? x.copies tag with
  | none => c
  | some g =>
    if g.ended then c
    else
      let c := c.endCopy b k tag true
      match x.task.bind c.cmd? with
      | some m => if g.replay then (c.stopTask m).complete (m.endWith st 0) 0 else c
      | none => c

end Sys2Proof.Machine
end

