-- ==== Sys2Proof/Machine/Contexts.lean ====
section
/-! DEFINITION. Contexts of the schedulable engines (R102, R128, R269–R286): which engine may serve which ring, where a
context lies, how it is saved and restored. -/

namespace Sys2Proof.Machine

/-! ### Arrays and their stores -/

/-- An array with its context gone: what belongs to the array itself stays, namely the entry of its slot table, faulty lines
found, a retirement asked for, a captured diagnosis, its transient frames and the blank it owes (R104, R108, R274, R322,
R323, R326). -/
def ArrSt.emptied (x : ArrSt) : ArrSt :=
  { ArrSt.zero with
    entry := x.entry, awaited := x.awaited, remaps := x.remaps, retiring := x.retiring, diag := x.diag, transients := x.transients, owed := x.owed, forced := x.forced }

/-- A saved context of a ring on an array: what belongs to the array itself stays. -/
def ArrSt.holding (x saved : ArrSt) (r : Nat) : ArrSt :=
  { x.emptied with
    resident := some r, active := saved.active, shadow := saved.shadow, jobs := saved.jobs, checks := saved.checks, marked := saved.marked }

/-- The half of an array (R75). -/
def arrayHalf (a : Nat) : Half := if a < 4 then .H else .T
/-- An array is in service: enabled, clocked and not retired. -/
def Chip.arrayInService (c : Chip) (a : Nat) : Bool := c.on (F.ARRAY_CTL_ENABLE a) && c.unitOn a && !c.on (F.ARRAY_STATUS_RETIRED a)
/-- Address of an array store (R202). -/
def arrayStore (a : Nat) : Nat := 0x40000000 + a * 0x1000000

/-- The half of an engine by its number: arrays 0 to 7, benches 8 to 39, the halves' attention engines 40 and 41. -/
def engineHalf (n : Nat) : Half := if n < 8 then arrayHalf n else if n < 40 then benchHalf (n - 8) else Half.ofIdx (n - 40)

/-- A debugger holds an engine halted (R473). -/
def Chip.engineHalted (c : Chip) (e : Engine) : Bool := c.halted.contains (.engine e)

/-- The chip with every byte of a range zero, its granules readable, its poison gone (R210, R215). -/
def Chip.zeroRange (c : Chip) (a n : Nat) : Chip :=
  { c with
    mem := c.mem.filter fun e => ¬ (a ≤ e.1 ∧ e.1 < a + n)
    garbled := c.garbled.filter fun g => ¬ (a ≤ g.1 * 65536 ∧ g.1 * 65536 + 65536 ≤ a + n)
    poison := c.poison.filter fun u => ¬ (a ≤ u ∧ u + 64 ≤ a + n) }

/-- The bytes of a range that are not zero, by offset. -/
def Chip.copyOut (c : Chip) (a n : Nat) : Tbl Byte :=
  (c.mem.filter fun e => decide (a ≤ e.1 ∧ e.1 < a + n)).map fun e => (e.1 - a, e.2)

/-- The chip with the bytes of a table written from an address. -/
def Chip.copyIn (c : Chip) (a : Nat) (t : Tbl Byte) : Chip := t.foldl (fun c e => c.setByte (a + e.1) e.2) c

/-- The opcodes that arrays take: array and window commands. -/
def arrayOp (op : Nat) : Bool := op == 0x10 || op == 0x11

/-! ### Partitions and grants (R269, R271, R280) -/

/-- The roughing partition, none where `PART` is 0 or names a partition that is not valid (R292). -/
def Chip.roughPart (c : Chip) : Option Nat :=
  let p := c.q F.SCHED_ROUGH_PART
  if p = 0 ∨ ¬ c.partValid p then none else some p
/-- The roughing reservation's array or bench (R292, R324). -/
def Chip.roughArray (c : Chip) (a : Nat) : Bool :=
  c.roughPart.isSome && (a == c.roughMoved.h.getD (c.q F.SCHED_ROUGH_ARR_H) || a == c.roughMoved.t.getD (c.q F.SCHED_ROUGH_ARR_T))
def Chip.roughBench (c : Chip) (b : Nat) : Bool := c.roughPart.isSome && (b == c.q F.SCHED_ROUGH_BENCH_H || b == c.q F.SCHED_ROUGH_BENCH_T)

/-- The partitions to which an array, or a bench, is granted (R271, `SCHED_PART_CFG.ARRAYS`, `SCHED_PART_BENCH`). -/
def Chip.arrayParts (c : Chip) (a : Nat) : List Nat :=
  (List.range 16).filter fun p => p != 0 && c.partValid p && bit (c.q (F.SCHED_PART_CFG_ARRAYS p)) a
def Chip.benchParts (c : Chip) (b : Nat) : List Nat :=
  (List.range 16).filter fun p => p != 0 && c.partValid p && bit (c.q (F.SCHED_PART_BENCH_BENCHES p)) b

/-- A party may run on an array: partition 0 on every one, another on those of its partition's grant, the roughing partition on
the reservation's where that is granted to none (R271, R292). -/
def Chip.arrayGranted (c : Chip) (o : Owner) (a : Nat) : Bool :=
  o.part == 0 || (c.arrayParts a).contains o.part || (c.roughArray a && c.roughPart == some o.part && (c.arrayParts a).isEmpty)

/-- A party may run on a bench: partition 0 on every one, another on those of its partition's grant; the bench of the roughing
reservation is the roughing partition's alone (R271, R292). -/
def Chip.benchGranted (c : Chip) (o : Owner) (b : Nat) : Bool :=
  if c.roughBench b then c.roughPart == some o.part else o.part == 0 || (c.benchParts b).contains o.part

/-! ### Slot tables (R274–R276) -/

/-- An entry of a slot table, with its start in microseconds from the table's. -/
structure SlotEntry where
  idx : Nat
  start : Nat
  len : Nat
  isOpen : Bool
  world : Bool
  part : Nat
deriving DecidableEq, Repr

/-- The entries of an array's slot table, up to the first that is not valid. -/
def Chip.slotEntries (c : Chip) (a : Nat) : Nat → Nat → Nat → List SlotEntry
  | 0, _, _ => []
  | n + 1, e, start =>
    if ¬ c.on (F.SCHED_SLOT_VALID a e) then []
    else ⟨e, start, c.q (F.SCHED_SLOT_LEN_US a e), c.on (F.SCHED_SLOT_OPEN a e), c.on (F.SCHED_SLOT_WORLD a e),
      c.q (F.SCHED_SLOT_PART a e)⟩ :: c.slotEntries a n (e + 1) (start + c.q (F.SCHED_SLOT_LEN_US a e))

/-- The slot table of an array and its period. -/
def Chip.slotTable (c : Chip) (a : Nat) : List SlotEntry := c.slotEntries a 64 0 0
def Chip.slotPeriod (c : Chip) (a : Nat) : Nat := ((c.slotTable a).map (·.len)).sum

/-- The half's local monotonic time base in units of 1/64 ns within the period of an array's table. -/
def Chip.slotTime (c : Chip) (a : Nat) : Nat := c.stamp (arrayHalf a) 0 % max (c.slotPeriod a * usUnits) 1

/-- The entry whose time it is. -/
def Chip.slotNow (c : Chip) (a : Nat) : Option SlotEntry :=
  (c.slotTable a).find? fun e => decide (e.start * usUnits ≤ c.slotTime a ∧ c.slotTime a < (e.start + e.len) * usUnits)

/-- The entry that has begun on an array, none on open time. -/
def Chip.strictSlot (c : Chip) (a : Nat) : Option SlotEntry :=
  match (c.arr a).entry with
  | none => none
  | some e => (c.slotTable a).find? fun x => x.idx == e && !x.isOpen

/-- A party holds a strict slot of an array; one whose share there is 0 does not (R274, R307). -/
def SlotEntry.heldBy (e : SlotEntry) (c : Chip) (a : Nat) (o : Owner) : Bool :=
  o.part == e.part && o.world == e.world && c.strict o && c.shareOn a o != 0

/-- The entry that follows the one whose time it is, with the tenths of a microsecond left until it starts. -/
def Chip.nextEntry (c : Chip) (a : Nat) : Option (SlotEntry × Nat) :=
  match c.slotNow a with
  | none => none
  | some e =>
    let nxt := match (c.slotTable a).find? fun x => x.idx == e.idx + 1 with
      | some x => some x
      | none => (c.slotTable a).head?
    nxt.map fun x => (x, ((e.start + e.len) * usUnits - c.slotTime a) * 10 / usUnits)

/-- Guard time in tenths of a microsecond: `MARK_WAIT` + 42.6 µs (R275). -/
def Chip.guardTenths (c : Chip) : Nat := c.q F.SCHED_CTL_MARK_WAIT * 10 + 426

/-! ### Rings' contexts -/

/-- Commands of a ring that are dispatched and not completed. -/
def Chip.ringCmds (c : Chip) (r : Nat) : List Cmd := c.cmds.filter fun m => m.id.ring.val == r && m.stage != .fetched

/-- The rank of a ring's context: the most urgent of its commands (R272); 5 if it has none. -/
def Chip.ringRank (c : Chip) (r : Nat) : Nat := ((c.ringCmds r).map Cmd.rank).foldl min 5

/-- The order in which contexts are served on open time: the class of the context first, then a boost of its partition (R272,
R293). -/
def Chip.ringKey (c : Chip) (r part : Nat) : Nat :=
  2 * c.ringRank r + b2n (!(c.boosts.any fun s => bits (c.q (F.SLOT_OWNER_PRODUCER s)) 8 4 == part))
def Chip.serveKey (c : Chip) (m : Cmd) : Nat := c.ringKey m.id.ring.val m.owner.part

/-- Array contexts that a partition holds on a half, resident and saved (R279). -/
def Chip.arrCtxCount (c : Chip) (h : Half) (p : Nat) : Nat :=
  let res := (List.range 8).filter fun a => arrayHalf a == h && match (c.arr a).resident with
    | some r => (match c.ringSt? r with | some x => x.owner.part == p | none => false)
    | none => false
  res.length + (c.actx.filter fun e => ringHalf e.1 == h && e.2.owner.part == p).length

/-- Bench contexts that a partition holds on a half, resident and saved (R279). -/
def Chip.benchCtxCount (c : Chip) (h : Half) (p : Nat) : Nat :=
  let res := (List.range 32).filter fun b => benchHalf b == h && match (c.bench b).resident with
    | some r => (match c.ringSt? r with | some x => x.owner.part == p | none => false)
    | none => false
  res.length + (c.bctx.filter fun e => benchHalf (e.1 % 32) == h && e.2.owner.part == p).length

/-- The array on which a ring's context is resident. -/
def Chip.arrayOfRing (c : Chip) (r : Nat) : Option Nat := (List.range 8).find? fun a => (c.arr a).resident == some r

/-- A ring's array context exists. -/
def Chip.hasArrCtx (c : Chip) (r : Nat) : Bool := (c.arrayOfRing r).isSome || (Tbl.find? c.actx r).isSome

/-- A ring's bench context on a bench exists. -/
def Chip.hasBenchCtx (c : Chip) (r b : Nat) : Bool := (c.bench b).resident == some r || (Tbl.find? c.bctx (32 * r + b)).isSome

/-- Engine numbers in the events of the scheduler: arrays from 0, benches from 0x100, attention engines from 0x200. -/
def engineArray (a : Nat) : Nat := a
def engineBench (b : Nat) : Nat := 0x100 + b
def engineAttn (h : Half) : Nat := 0x200 + h.idx

/-- The chip after a command that would create a context beyond the save capacity completes (R279). -/
def Chip.noCapacity (c : Chip) (m : Cmd) (kind : Nat) : Chip :=
  ((c.complete (m.endWith .noRoom 0) 0).inc F.SCHED_NOROOM_CNT_COUNT).evCmd m.half 0x0510 m [m.id.ring.val, m.owner.toNat, kind]

/-! ### Saving and restoring an array's context (R102, R282, R284) -/

/-- The chip after the context on an array is saved, at full or command level. -/
def Chip.saveArray (c : Chip) (a : Nat) (full : Bool) : Chip :=
  let x := c.arr a
  match x.resident with
  | none => c
  | some r =>
    let o : Owner := match c.ringSt? r with | some y => y.owner | none => BitVec.ofNat 13 (c.q (F.ARRAY_STATUS_OWNER a))
    let ids := x.jobs.map (·.id)
    let ctx : ArrCtx := ⟨o, if full || x.marked then c.copyOut (arrayStore a) 0xC00000 else [], x⟩
    let c := { c with cmds := c.cmds.map fun m : Cmd => if ids.contains m.id then { m with stage := .preempted } else m }
    let c := { c with actx := if full || !x.jobs.isEmpty || x.marked then Tbl.ins c.actx r ctx else Tbl.del c.actx r }
    let c := c.zeroRange (arrayStore a) 0xC00000
    let c := c.setArr a x.emptied
    let c := (c.put (F.ARRAY_STATUS_OWNER a) 0).put (F.ARRAY_STATUS_SAVE_RESTORE a) 0
    if full then c.countPair Reg.SCHED_SAVE_FULL_LO Reg.SCHED_SAVE_FULL_HI 1
    else c.countPair Reg.SCHED_SAVE_CMD_LO Reg.SCHED_SAVE_CMD_HI 1

/-- The chip after a saved context is restored on an array: every byte as it was, its commands go on where they stopped. -/
def Chip.restoreArray (c : Chip) (a r : Nat) : Chip :=
  match Tbl.find? c.actx r with
  | none => c
  | some ctx =>
    let x := c.arr a
    let ids := ctx.st.jobs.map (·.id)
    let c := { c with actx := Tbl.del c.actx r, blockedAt := Tbl.del c.blockedAt a }
    let c := (c.zeroRange (arrayStore a) 0xC00000).copyIn (arrayStore a) ctx.store
    let c := c.setArr a (x.holding ctx.st r)
    let c := { c with cmds := c.cmds.map fun m : Cmd => if ids.contains m.id then { m with stage := .running, unit := a } else m }
    c.put (F.ARRAY_STATUS_OWNER a) ctx.owner.toNat

/-- The chip after commands are ended with ABANDONED (R284). -/
def Chip.abandonAll (c : Chip) (ids : List CmdId) : Chip :=
  ids.foldl (fun c i => match c.cmd? i with
    | some m => c.complete (m.endWith .abandoned 0) 0
    | none => c) c

/-- The chip after the context on an array is discarded: all its commands are abandoned and its next command finds an
all-zero context (R284). -/
def Chip.discardArray (c : Chip) (a cause : Nat) : Chip :=
  let x := c.arr a
  match x.resident with
  | none => c
  | some r =>
    let ids := ((c.ringCmds r).filter fun m => arrayOp m.opcode).map (·.id)
    let o := c.q (F.ARRAY_STATUS_OWNER a)
    let c := c.zeroRange (arrayStore a) 0xC00000
    let c := c.setArr a x.emptied
    let c := (c.put (F.ARRAY_STATUS_OWNER a) 0).put (F.ARRAY_STATUS_SAVE_RESTORE a) 0
    (c.abandonAll ids).evOf (arrayHalf a) 0x0503 (BitVec.ofNat 13 o) [engineArray a, o, cause]

/-! ### Saving and restoring a bench's context (R128, R284, R286) -/

/-- The stores of a bench as one table: the bench store, then the 64 KiB window of each logical core. -/
def Chip.benchOut (c : Chip) (b : Nat) : Tbl Byte :=
  c.copyOut (benchStore b) 0x200000 ++ (c.copyOut (dataStore b 0) (60 * 0x10000)).map fun e => (0x200000 + e.1, e.2)

/-- The chip with the stores of a bench written from such a table. -/
def Chip.benchIn (c : Chip) (b : Nat) (t : Tbl Byte) : Chip :=
  t.foldl (fun c e => if e.1 < 0x200000 then c.setByte (benchStore b + e.1) e.2 else c.setByte (dataStore b 0 + (e.1 - 0x200000)) e.2) c

/-- The chip with the stores of a bench zero. -/
def Chip.benchClear (c : Chip) (b : Nat) : Chip :=
  let c := (c.zeroRange (benchStore b) 0x200000).zeroRange (dataStore b 0) (60 * 0x10000)
  { c with cores := c.cores.filter fun e => e.1 / 64 != b }

/-- The chip after the context on a bench is saved. Waits of its cores are disarmed; the restore arms them again (R123). -/
def Chip.saveBench (c : Chip) (b : Nat) (full : Bool) : Chip :=
  let x := c.bench b
  match x.resident with
  | none => c
  | some r =>
    let o : Owner := match c.ringSt? r with | some y => y.owner | none => BitVec.ofNat 13 (c.q (F.BENCH_STATUS_OWNER b))
    let keep := full || x.task.isSome || x.marked
    let ctx : BenchCtx := ⟨o, if full || x.marked then c.benchOut b else [],
      (c.cores.filter fun e => e.1 / 64 == b).map fun e => (e.1 % 64, e.2), x⟩
    let c := { c with cmds := c.cmds.map fun m : Cmd => if x.task = some m.id then { m with stage := .preempted } else m }
    let c := { c with waits := c.waits.filter fun w => match w.who with | .core bb _ => bb.val != b | _ => true }
    let c := { c with bctx := if keep then Tbl.ins c.bctx (32 * r + b) ctx else Tbl.del c.bctx (32 * r + b) }
    let c := (c.benchClear b).setBench b { BenchSt.zero with retired := x.retired, retiring := x.retiring, spareNext := x.spareNext }
    let c := ((c.put (F.BENCH_STATUS_OWNER b) 0).put (F.BENCH_STATUS_SAVE_RESTORE b) 0).put (F.BENCH_STATUS_BUSY b) 0
    if full then c.countPair Reg.SCHED_SAVE_FULL_LO Reg.SCHED_SAVE_FULL_HI 1
    else c.countPair Reg.SCHED_SAVE_CMD_LO Reg.SCHED_SAVE_CMD_HI 1

/-- The chip after a saved bench context is restored; cores that waited on a dowel arm their wait again. A task runs again as a whole
once no bench of it is saved. -/
def Chip.restoreBench (c : Chip) (b r : Nat) : Chip :=
  match Tbl.find? c.bctx (32 * r + b) with
  | none => c
  | some ctx =>
    let x := c.bench b
    let c := { c with bctx := Tbl.del c.bctx (32 * r + b), blockedAt := Tbl.del c.blockedAt (8 + b) }
    let c := (c.benchClear b).benchIn b ctx.store
    let c := c.setBench b { ctx.st with resident := some r, retired := x.retired, retiring := x.retiring, spareNext := x.spareNext, sw := Switch.none }
    let again (k : GCopy) : GCopy := if k.ended then k else { k with replay := true, sent := k.sent.map fun _ => c.stamp (benchHalf b) 0 }
    let c := ctx.cores.foldl (fun c e => c.setCore b e.1 { e.2 with copies := e.2.copies.map fun y => (y.1, again y.2) }) c
    let c := ctx.cores.foldl (fun c e => match e.2.stall with
      | .dowel d t => c.makeWait ctx.owner d t (.core (Fin.ofNat 32 b) (Fin.ofNat 60 e.1)) (some r)
      | _ => c) c
    let c := { c with cmds := c.cmds.map fun m : Cmd => if ctx.st.task = some m.id ∧ c.bctx.all (fun e => e.2.st.task != some m.id) then { m with stage := .running } else m }
    (c.put (F.BENCH_STATUS_OWNER b) ctx.owner.toNat).put (F.BENCH_STATUS_BUSY b) (b2n ctx.st.task.isSome)

/-- The chip after the context on a bench is discarded (R284). -/
def Chip.discardBench (c : Chip) (b cause : Nat) : Chip :=
  let x := c.bench b
  match x.resident with
  | none => c
  | some r =>
    let o := c.q (F.BENCH_STATUS_OWNER b)
    let ids := ((c.ringCmds r).filter fun m => m.opcode == 0x20 && bit (m.word 3) b).map (·.id)
    let c := ids.foldl (fun c i => match c.cmd? i with | some m => c.stopTask m | none => c) c
    let c := { c with waits := c.waits.filter fun w => match w.who with | .core bb _ => bb.val != b | _ => true }
    let c := (c.benchClear b).setBench b { BenchSt.zero with retired := x.retired, retiring := x.retiring, spareNext := x.spareNext }
    let c := ((c.put (F.BENCH_STATUS_OWNER b) 0).put (F.BENCH_STATUS_SAVE_RESTORE b) 0).put (F.BENCH_STATUS_BUSY b) 0
    (c.abandonAll ids).evOf (benchHalf b) 0x0503 (BitVec.ofNat 13 o) [engineBench b, o, cause]

end Sys2Proof.Machine
end

