-- ==== Sys2Proof/Machine/Numeric.lean ====
section
/-! DEFINITION. Logarithm, sine and cosine, rotation, and results that lie within a stated bound (R66, R72, R179). -/

namespace Sys2Proof.Machine

/-- A number of 2⁻⁹⁶ as a value. -/
def fixFV (t : Int) : FV := .fin (decide (t < 0)) t.natAbs (-96)

/-- Terms of the series of artanh at `y` in units of 2⁻⁹⁶, from y^(2i+1) on; `sq` is y². -/
def artanhSeries (sq : Int) : Nat → Nat → Int → Int
  | 0, _, _ => 0
  | n + 1, i, pw => pw / (2 * i + 1 : Nat) + artanhSeries sq n (i + 1) (pw * sq / 2 ^ 96)

/-- The natural logarithm of a finite value above 0, in units of 2⁻⁹⁶. -/
def FV.lnFix : FV → Int
  | .fin _ m e =>
    if m = 0 then 0
    else
      let k := Nat.log2 m
      let y : Int := ((m - 2 ^ k) * 2 ^ 96 / (m + 2 ^ k) : Nat)
      (e + k) * ln2fix + 2 * artanhSeries (y * y / 2 ^ 96) 40 0 y
  | _ => 0

/-- 2π in units of 2⁻⁹⁶. -/
def twoPiFix : Int := 497805226624462170461043889244

/-- Terms of the series of cosine and sine at `t` in units of 2⁻⁹⁶, from term `k` on. -/
def trigSeries (t : Int) : Nat → Nat → Int → Int × Int
  | 0, _, _ => (0, 0)
  | n + 1, k, term =>
    let r := trigSeries t n (k + 1) (term * t / 2 ^ 96 / (k + 1 : Nat))
    match k % 4 with
    | 0 => (r.1 + term, r.2)
    | 1 => (r.1, r.2 + term)
    | 2 => (r.1 - term, r.2)
    | _ => (r.1, r.2 - term)

/-- Cosine and sine of an angle in units of 2⁻⁹⁶. -/
def cosSin (t : Int) : FV × FV :=
  let r := t % twoPiFix
  let r := if twoPiFix < 2 * r then r - twoPiFix else r
  let x := trigSeries r 60 0 (2 ^ 96)
  (fixFV x.1, fixFV x.2)

/-- An FP32 value within `bound` of an exact one: the drawn pattern where it lies there, else the exact value rounded to
nearest, ties to even; an exact zero delivered as a zero keeps its sign (R50). -/
def within (draw : Dword) (x bound : FV) : FV :=
  let v := fp32.decode (draw.toNat % 2 ^ 32)
  match x, v with
  | .fin _ _ _, .fin _ _ _ => if FV.le (v.add x.neg).abs bound ∧ ¬ (x.isZero ∧ v.isZero) then v else f32 x
  | _, _ => f32 x

/-- A power of two. -/
def pow2 (k : Int) : FV := .fin false 1 k

/-- The bound of R66 on a sum of products: `k` the reduction length, `s` the sum of their magnitudes. -/
def dotBound (k : Nat) (s : FV) : FV :=
  let p : Int := ((k + 127) / 128 : Nat)
  (((FV.ofInt (p + 2)).mul (FV.ofInt 1025)).mul s).scale (-34) |>.add ((FV.ofInt (2 * p + 1)).scale (-150))

/-- Sum of products, and sum of their magnitudes. -/
def dot (a b : List FV) : FV := FV.sum (List.zipWith FV.mul a b)
def dotAbs (a b : List FV) : FV := FV.sum (List.zipWith (fun x y => (x.mul y).abs) a b)

/-- A sum of FP32 terms in an order that nothing states: within (n − 1) × 2⁻²³ of the sum of their magnitudes (R73). -/
def sumFree (draw : Dword) (l : List FV) : FV :=
  within draw (FV.sum l) (((FV.sum (l.map FV.abs)).mul (FV.ofInt (l.length - 1 : Nat))).scale (-23))

/-- e^x within a relative error of 2⁻²¹ (R72). -/
def expFree (draw : Dword) (x : FV) : FV := within draw x.exp (x.exp.scale (-21))

/-- The angle of pair `i` of `r` at a position, in units of 2⁻⁹⁶: p × θ^(−i/r) (R179). -/
def ropeAngle (theta : FV) (r i p : Nat) : Int :=
  ((fixFV (-(theta.lnFix * (i : Nat) / (r : Nat)))).exp.mul (FV.ofInt (p : Nat))).fixed96

/-- A vector with its first `r` pairs rotated at a position, forth or back; each pair lies within 2⁻²⁰ of its length of
the exact rotation (R179). -/
def rotate (draw : Nat → Dword) (theta : FV) (r : Nat) (split back : Bool) (p : Nat) (v : List FV) : List FV :=
  (List.range r).foldl (fun (v : List FV) i =>
    let d := v.length
    let (j, k) := if split then (i, i + d / 2) else (2 * i, 2 * i + 1)
    let (x, y) := (v.getD j FV.zero, v.getD k FV.zero)
    let a := ropeAngle theta r i p
    let (c, s) := cosSin (if back then -a else a)
    let (u, w) := ((x.mul c).add (y.mul s).neg, (x.mul s).add (y.mul c))
    let len := ((x.mul x).add (y.mul y)).sqrt
    let (e, f) := (within (draw (2 * i)) u (len.scale (-20)), within (draw (2 * i + 1)) w (len.scale (-20)))
    let du := e.add u.neg
    let dw := f.add w.neg
    let ok := FV.le ((du.mul du).add (dw.mul dw)) (((x.mul x).add (y.mul y)).scale (-40))
    (v.set j (if ok then e else f32 u)).set k (if ok then f else f32 w)) v

end Sys2Proof.Machine
end

