-- ==== Sys2Proof/Machine/Operands.lean ====
section
/-! DEFINITION. The operands of attention and backward commands: descriptor fields, the parameter block, token records,
segment entries, tensors (R174–R177, R196). Each other engine's operands stand beside its meaning. -/

namespace Sys2Proof.Machine

/-! ### Descriptor fields (R174) -/

def Cmd.nTok (m : Cmd) : Nat := m.fld 1 48 16
def Cmd.nSeg (m : Cmd) : Nat := m.fld 2 48 16
def Cmd.qAddr (m : Cmd) : Nat := alignDown (m.fld 1 0 48) 64
def Cmd.tokAddr (m : Cmd) : Nat := alignDown (m.fld 2 0 48) 8
def Cmd.segAddr (m : Cmd) : Nat := alignDown (m.fld 3 0 48) 32
/-- Output conversion; in a backward command that of dQ. -/
def Cmd.attnCvt (m : Cmd) : Nat := m.fld 4 56 8
/-- The output tensor; in a backward command the output gradient (R196). -/
def Cmd.oAddr (m : Cmd) : Nat := alignDown (m.fld 4 0 48) 64
/-- New keys and values; in a backward command dQ (R196). -/
def Cmd.kvNew (m : Cmd) : Nat := alignDown (m.fld 5 0 48) 64
def Cmd.paramAddr (m : Cmd) : Nat := alignDown (m.fld 6 0 48) 64

/-! ### What a command keeps -/

/-- Progress of an attention or backward command: its phase (0 reads its parameter block, 1 prepare, 2 write, 3 pin, 4 attend,
5 an outcome that nothing states), page reads, the COW in progress (old frame, new frame, entry), the parameter block, and the
page-list entries it has changed, each with the old value and the frame taken. -/
structure AttnSt where
  phase : Nat
  reads : Nat
  cow : Nat × Nat × Nat
  par : List Nat
  changed : List (Nat × Nat × Nat)
deriving DecidableEq, Repr

/-- Entries in threes. -/
def triples : List Nat → List (Nat × Nat × Nat)
  | a :: b :: d :: t => (a, b, d) :: triples t
  | _ => []

def Cmd.attn (m : Cmd) : AttnSt :=
  ⟨m.aux.getD 0 0, m.aux.getD 1 0, (m.aux.getD 2 0, m.aux.getD 3 0, m.aux.getD 4 0), (m.aux.drop 5).take 4, triples (m.aux.drop 9)⟩

def Cmd.withAttn (m : Cmd) (x : AttnSt) : Cmd :=
  { m with aux := [x.phase, x.reads, x.cow.1, x.cow.2.1, x.cow.2.2] ++ (x.par ++ [0, 0, 0, 0]).take 4 ++
      x.changed.flatMap fun t => [t.1, t.2.1, t.2.2] }

/-- The entry that names no frame (R172). -/
def noFrame : Nat := 0xFFFFFFFF

/-- The `detail` of an attention or backward command's record, however it ends: query tokens processed, frames allocated, frames
copied, page reads (R183). -/
def Cmd.attnDetail (m : Cmd) : Nat :=
  let l := m.attn.changed
  (if m.stage = .done then m.nTok else 0) % 2 ^ 16 + (l.filter fun t => t.2.1 == noFrame).length % 2 ^ 16 * 2 ^ 16 +
    (l.filter fun t => t.2.1 != noFrame).length % 2 ^ 12 * 2 ^ 32 + min m.attn.reads 0xFFFFF * 2 ^ 44

/-- The `detail` of a command that ends early: the counts of R183, or what its cause gives. -/
def Cmd.endDetail (m : Cmd) (d : Nat) : Nat := if m.isAttn then m.attnDetail else d

/-- The chip after a command ends early for a cause of R226 at an address; an attention command's record keeps its counts. -/
def Chip.failAt (c : Chip) (m : Cmd) (a cause : Nat) : Chip :=
  if m.isAttn then c.complete (m.endWith (causeStatus cause) m.attnDetail) m.attnDetail
  else c.complete (m.endAt a cause) 0

/-! ### The parameter block (R175) -/

/-- What the parameter block says: σ, θ, addresses, format codes, H, G, d, rotated pairs, flags, layer. -/
structure AttnPar where
  sigma : FV
  theta : FV
  stats : Nat
  out2 : Nat
  fmtQ : Nat
  fmtKv : Nat
  kvHeads : Nat
  group : Nat
  dim : Nat
  pairs : Nat
  causal : Bool
  append : Bool
  split : Bool
  saveStats : Bool
  gradAcc : Bool
  layer : Nat
deriving DecidableEq, Repr

/-- The block from its first four 64-bit words. -/
def AttnPar.ofWords (w : Nat → Nat) : AttnPar :=
  let f := w 3
  ⟨fp32.decode (bits (w 0) 0 32), fp32.decode (bits (w 0) 32 32), alignDown (bits (w 1) 0 48) 8, alignDown (bits (w 2) 0 48) 64,
    bits f 0 4, bits f 4 4, bits f 8 5 + 1, bits f 16 4 + 1, 32 * (bits f 24 3 + 1), bits f 32 8,
    bit f 40, bit f 41, bit f 42, bit f 43, bit f 44, bits f 48 16⟩

/-- Query heads. -/
def AttnPar.heads (p : AttnPar) : Nat := p.kvHeads * p.group

/-- Bytes of a row of one head of queries. -/
def AttnPar.qRow (p : AttnPar) : Nat := codeBytes p.fmtQ p.dim

/-- The format pairs that the engine accepts (R168). -/
def AttnPar.pairOk (p : AttnPar) : Bool :=
  ((p.fmtQ == 4 || p.fmtQ == 5) && [2, 3, 4, 5, 8, 9, 0xC].contains p.fmtKv) ||
    ((p.fmtQ == 2 || p.fmtQ == 3) && [2, 3, 8, 9, 0xC].contains p.fmtKv)

/-! ### Token records and segment entries (R177) -/

/-- A token record: position, segment. -/
structure Tok where
  pos : Nat
  seg : Nat
deriving DecidableEq, Repr

/-- A segment entry. -/
structure Seg where
  plist : Nat
  kvLen : Nat
  maxPages : Nat
  newHalf : Half
  grad : Nat
deriving DecidableEq, Repr

/-- Token record `i` of a table, segment entry `i` of a table. -/
def tokAt (bs : List Byte) (i : Nat) : Tok :=
  let r := (bs.drop (8 * i)).take 8
  ⟨leNat (r.take 4), leNat ((r.drop 4).take 2)⟩
def segAt (bs : List Byte) (i : Nat) : Seg :=
  let r := (bs.drop (32 * i)).take 32
  ⟨alignDown (leNat (r.take 6)) 4, leNat ((r.drop 8).take 4), leNat ((r.drop 12).take 2),
    Half.ofIdx (leNat ((r.drop 14).take 1) % 2), alignDown (leNat ((r.drop 16).take 6)) 64⟩

/-- The operands of a command in the tables it names. -/
structure AttnOps where
  par : AttnPar
  toks : List Tok
  segs : List Seg
deriving DecidableEq, Repr

/-- Address of the page-list entry of page `i` of a segment (R172). -/
def AttnOps.entryAddr (x : AttnOps) (s i : Nat) : Nat :=
  match x.segs[s]? with
  | some g => g.plist + (x.par.layer * g.maxPages + i) * 4
  | none => 0

/-- Tokens of a segment in the command. -/
def AttnOps.tokensOf (x : AttnOps) (s : Nat) : Nat := (x.toks.filter fun t => t.seg == s).length

/-- Length of a segment after appending (R178); a backward command appends nothing (R197). -/
def AttnOps.segLen (x : AttnOps) (s : Nat) (append : Bool) : Nat :=
  (match x.segs[s]? with | some g => g.kvLen | none => 0) + (if append then x.tokensOf s else 0)

/-- Cache positions that a token attends: the first so many (R178). -/
def AttnOps.attended (x : AttnOps) (t : Tok) (append : Bool) : Nat :=
  let l := x.segLen t.seg append
  if x.par.causal then min (t.pos + 1) l else l

/-- Cache positions of a segment that some token of it attends. -/
def AttnOps.reach (x : AttnOps) (s : Nat) (append : Bool) : Nat :=
  (x.toks.filter fun t => t.seg == s).foldl (fun a t => max a (x.attended t append)) 0

/-- Segments that have tokens in the command. -/
def AttnOps.liveSegs (x : AttnOps) : List Nat := (List.range x.segs.length).filter fun s => x.tokensOf s != 0

/-- The pages that the command walks: segment and page (R184). -/
def AttnOps.pages (x : AttnOps) (append : Bool) : List (Nat × Nat) :=
  x.liveSegs.flatMap fun s => (List.range ((x.reach s append + 255) / 256)).map fun i => (s, i)

/-- The pages that an appended position falls in, in token-array order (R181). -/
def AttnOps.newPages (x : AttnOps) : List (Nat × Nat) :=
  x.toks.foldl (fun (l : List (Nat × Nat)) t => if l.contains (t.seg, t.pos / 256) then l else l ++ [(t.seg, t.pos / 256)]) []

/-- The appended positions of a segment are `KV_LEN`, `KV_LEN` + 1, and so on (R181). -/
def AttnOps.inOrder (x : AttnOps) : Bool :=
  x.liveSegs.all fun s => (x.toks.filter fun t => t.seg == s).map (·.pos) ==
    (List.range (x.tokensOf s)).map ((match x.segs[s]? with | some g => g.kvLen | none => 0) + ·)

/-- Sizes of the K area and of its scales in a frame (R170). -/
def AttnPar.areaK (p : AttnPar) : Nat := p.kvHeads * 256 * codeBytes p.fmtKv p.dim
def AttnPar.areaScale (p : AttnPar) : Nat := if codeMx p.fmtKv then p.kvHeads * 256 * (p.dim / 32) else 0

/-- Offset in a frame of the row of head `h`, slot `t`: keys or values, and their scales. -/
def AttnPar.rowOff (p : AttnPar) (v : Bool) (h t : Nat) : Nat := (if v then p.areaK else 0) + (h * 256 + t) * codeBytes p.fmtKv p.dim
def AttnPar.scaleOff (p : AttnPar) (v : Bool) (h t : Nat) : Nat := 2 * p.areaK + (if v then p.areaScale else 0) + (h * 256 + t) * (p.dim / 32)

/-- Offset of the new values from the new keys (R176). -/
def Cmd.newValues (m : Cmd) (p : AttnPar) : Nat := (m.nTok * p.kvHeads * p.dim * codeWidth p.fmtQ + 511) / 512 * 64

end Sys2Proof.Machine
end

