-- ==== Sys2Proof/Machine/Choice.lean ====
section
/-! DEFINITION. What the scheduler chooses by (R269–R282, R292, R307, R324): which command is ready, to whom the time of an array
belongs, which context stands on an engine, when it may be displaced and how a switch begins. -/

namespace Sys2Proof.Machine

/-! ### Ready commands -/

/-- A saved context of a bench can go on: one of its cores waits for no dowel, or every core has ended. A read from a peer device is
issued again on the restore (R272, R286, R287). -/
def BenchCtx.runnable (x : BenchCtx) (c : Chip) : Bool :=
  let mine := x.cores.filter fun e => e.2.task == x.st.task
  (mine.all fun e => e.2.stall == .ended) || mine.any fun e => match e.2.stall with
    | .ended => false
    | .dowel d t => decide (t ≤ c.dowel d)
    | _ => true

/-- A command for the arrays is ready: it can start, or go on once its saved context is restored. -/
def Chip.readyArray (c : Chip) (m : Cmd) : Bool :=
  arrayOp m.opcode && ((c.takeable m.id arrayOp).isSome || (m.stage == .preempted && (Tbl.find? c.actx m.id.ring.val).isSome))

/-- A task is ready on a bench that it names: it can start, or go on there once its saved context is restored. -/
def Chip.readyBench (c : Chip) (b : Nat) (m : Cmd) : Bool :=
  m.opcode == 0x20 && bit (m.word 3) b && ((c.takeable m.id (· == 0x20)).isSome ||
    match Tbl.find? c.bctx (32 * m.id.ring.val + b) with
    | some x => x.st.task == some m.id && x.runnable c
    | none => false)

/-! ### To whom the time of an array belongs (R271, R274–R276, R324) -/

/-- A party is the roughing reservation's: a strict one of the roughing partition (R292). -/
def Chip.roughOwner (c : Chip) (o : Owner) : Bool := c.roughPart == some o.part && c.strict o

/-- The roughing reservation has moved to an array, where it is served ahead of every party for the total length of its former
slots in each period (R324). Which time of the period that is, is not stated: the model takes the first of each period of the table
in which the slots stood (DESIGN CHOICE, assumption 123). -/
def Chip.roughServed (c : Chip) (a : Nat) : Bool :=
  let h := arrayHalf a
  let from' := if h = .H then c.q F.SCHED_ROUGH_ARR_H else c.q F.SCHED_ROUGH_ARR_T
  let mine := (c.slotTable from').filter fun e => !e.isOpen && c.roughPart == some e.part
  c.roughPart.isSome && c.roughMoved.get h == some a && decide (c.slotTime from' < (mine.map (·.len)).sum * usUnits)

/-- A ready command whose context could come to an array. -/
def Chip.readyFor (c : Chip) (a : Nat) (m : Cmd) : Bool :=
  c.readyArray m && m.half == arrayHalf a && c.arrayGranted m.owner a && c.shareOn a m.owner != 0 &&
    ((c.arrayOfRing m.id.ring.val).getD a == a)

/-- The party of a strict slot of an array has ready work for it. -/
def Chip.holderReady (c : Chip) (a : Nat) (e : SlotEntry) : Bool := c.cmds.any fun m => e.heldBy c a m.owner && c.readyFor a m

/-- The guard of a strict slot that a party holds has begun on an array: the switch to it may end there (R275). -/
def Chip.inOwnGuard (c : Chip) (a : Nat) (o : Owner) : Bool :=
  match c.nextEntry a with
  | some (e, left) => !e.isOpen && decide (left ≤ c.guardTenths) && e.heldBy c a o
  | none => false

/-- The guard of the strict slot that comes next leaves an array to a party: it holds that slot, or the guard has not begun, or the
context resident is on its way to a boundary mark (R275, R282). -/
def Chip.guardAdmits (c : Chip) (a : Nat) (o : Owner) : Bool :=
  match c.nextEntry a with
  | some (e, left) => e.isOpen || decide (c.guardTenths < left) || e.heldBy c a o || (c.arr a).sw.want
  | none => true

/-- Time on an array is open to a party: its own strict slot and the guard before it, or open time, or a lent slot, outside the guard
of another's (R271, R274–R276); the time of a moved roughing reservation is its own as far as it has ready work (R324). -/
def Chip.slotAdmits (c : Chip) (a : Nat) (o : Owner) : Bool :=
  if c.roughServed a then c.roughOwner o || !(c.cmds.any fun m => c.roughOwner m.owner && c.readyFor a m)
  else c.inOwnGuard a o || c.guardAdmits a o && match c.strictSlot a with
    | none => true
    | some e => e.heldBy c a o || (c.on (F.SCHED_PART_CFG_LEND e.part) && !c.holderReady a e)

/-- An array can serve a party of a half now, as far as its own state goes: enabled, clocked, in service, its repairs reloaded and no
line waiting to be remapped, not moving a context, not halted, granted, its time open, its share not 0 (R96, R104, R106, R271,
R274, R307, R473). -/
def Chip.arrayFits (c : Chip) (a : Nat) (h : Half) (o : Owner) : Bool :=
  let x := c.arr a
  c.arrayInService a && !c.on (F.ARRAY_STATUS_SAVE_RESTORE a) && x.retiring.isNone &&
    x.remaps.isEmpty && c.ledgerRead.get (arrayHalf a) &&
    (if h : a < 8 then !c.engineHalted (.array ⟨a, h⟩) else true) &&
    c.arrayGranted o a && h == arrayHalf a && c.slotAdmits a o && c.shareOn a o != 0

/-- The chip after a command of a party starts or goes on in a strict slot: where its holder was ready when the slot began and
nothing of it had started until more than 2 µs later, the slot is counted and reported as late (R275, R294). -/
def Chip.slotServed (c : Chip) (a : Nat) (o : Owner) : Chip :=
  match c.strictSlot a with
  | some e =>
    if (c.arr a).awaited ∧ e.heldBy c a o then
      let p := c.slotPeriod a * usUnits
      let late := (c.slotTime a + p - e.start * usUnits) % max p 1
      let c := c.setArr a { c.arr a with awaited := false }
      if 2 * usUnits < late then
        (c.inc F.SCHED_SLOT_LATE_COUNT).ev (arrayHalf a) 0x0500 [a, e.part + 16 * b2n e.world, late / usUnits]
      else c
    else c
  | none => c

/-! ### Contexts that wait (R286, R287) -/

/-- A copy of a core reads from a peer device: the only kind that may still be pending when a save ends (R286). -/
def remoteCopy (k : GCopy) : Bool := slSpace k.src == 0 && isPeer (slBase k.src)

/-- Every command that a ring's context holds on its engine waits on a dowel, a fence, completion space or a remote read. -/
def Chip.blocked (c : Chip) (e : Engine) (r : Nat) : Bool :=
  match e with
  | .array a => (c.arr a.val).jobs.isEmpty && !(c.cmds.any fun m => m.id.ring.val == r && (c.takeable m.id arrayOp).isSome)
  | .bench b =>
    let x := c.bench b.val
    match x.task with
    | none => !(c.cmds.any fun m => m.id.ring.val == r && (c.takeable m.id (· == 0x20)).isSome)
    | some id => ((c.cores.filter fun k => k.1 / 64 == b.val && k.2.task == some id).all fun k => match k.2.stall with
      | .dowel _ _ => true
      | .copies => k.2.copies.all fun y => y.2.ended || remoteCopy y.2
      | .ended => true
      | _ => false)
  | .attention _ => false

/-! ### Benches (R271, R292) -/

/-- Ready work of strict parties stands before a bench that is exclusive to their partition, or runs there unblocked: partition 0
gives way (R271). -/
def Chip.strictWaiting (c : Chip) (b : Nat) : Bool :=
  match c.benchParts b with
  | [p] => c.strictPart p && c.cmds.any fun e => e.owner.part == p && c.strict e.owner && c.shareOn (8 + b) e.owner != 0 &&
      (c.readyBench b e || ((c.bench b).task == some e.id && if h : b < 32 then !c.blocked (.bench ⟨b, h⟩) e.id.ring.val else false))
  | _ => false

/-! ### The context on an engine -/

/-- The number of an engine for shares: arrays 0 to 7, benches 8 to 39, the halves' attention engines 40 and 41. -/
def Chip.engineNo (c : Chip) : Engine → Nat
  | .array a => a.val
  | .bench b => 8 + b.val
  | .attention id => 40 + (((c.cmd? id).map (·.half)).getD (ringHalf id.ring.val)).idx

/-- The ring whose context is resident on an engine. -/
def Chip.residentOn (c : Chip) : Engine → Option Nat
  | .array a => (c.arr a.val).resident
  | .bench b => (c.bench b.val).resident
  | .attention id => some id.ring.val

/-- The party of a ring in service. -/
def Chip.ringOwner (c : Chip) (r : Nat) : Option Owner := (c.ringSt? r).map (·.owner)

/-- The switch of an engine. -/
def Chip.switchOf (c : Chip) : Engine → Switch
  | .array a => (c.arr a.val).sw
  | .bench b => (c.bench b.val).sw
  | .attention id => ⟨false, ((c.attnQuanta.find? fun p => p.1 == id).map (·.2)).getD 0, none, 0⟩

/-- The chip with the switch of an engine replaced. -/
def Chip.setSwitch (c : Chip) (e : Engine) (w : Switch) : Chip :=
  match e with
  | .array a => c.setArr a.val { c.arr a.val with sw := w }
  | .bench b => c.setBench b.val { c.bench b.val with sw := w }
  | .attention id => { c with attnQuanta := (id, w.quanta) :: c.attnQuanta.filter fun p => p.1 != id && (c.cmd? p.1).isSome }

/-- A reset has withdrawn the commands on an array, which has still to stop (R241, R309). -/
def Chip.stopping (c : Chip) : Engine → Bool
  | .array a => (c.arr a.val).jobs.any fun j => match c.cmd? j.id with
    | some m => m.stage == .withdrawn
    | none => false
  | _ => false

/-- The chip after a save of an engine's context begins, at full or command level; a command of the attention engine stops between
pages (R282). -/
def Chip.beginSave (c : Chip) (e : Engine) (full : Bool) : Chip :=
  if c.stopping e then c else
  let c := c.setSwitch e ⟨false, 0, some full, 0⟩
  match e with
  | .array a => c.put (F.ARRAY_STATUS_SAVE_RESTORE a) 1
  | .bench b => c.put (F.BENCH_STATUS_SAVE_RESTORE b) 1
  | .attention id => match c.cmd? id with
    | some m => if m.stage = .running then c.setCmd { m with stage := .preempted, unit := 0 } else c
    | none => c

/-- The commands that a ring's context holds on an engine: dispatched, neither completed nor withdrawn (R272, R282). -/
def Chip.heldOn (c : Chip) (e : Engine) (r : Nat) : List Cmd :=
  (c.ringCmds r).filter fun m => m.stage != .withdrawn && match e with
    | .array _ => arrayOp m.opcode
    | .bench b => m.opcode == 0x20 && bit (m.word 3) b.val
    | .attention id => m.id == id

/-- The context on an engine, if any, holds no command there: the engine is idle (R280, R282). -/
def Chip.engineIdle (c : Chip) (e : Engine) : Bool :=
  let none' : Bool := match c.residentOn e with
    | some r => (c.heldOn e r).isEmpty
    | none => true
  match e with
  | .array a => (c.arr a.val).jobs.isEmpty && none'
  | .bench b => (c.bench b.val).task.isNone && none'
  | .attention _ => false

/-- The context on an engine can be pre-empted at command level: it holds no command there, or stands at a mark (R282). -/
def Chip.commandLevel (c : Chip) (e : Engine) : Bool :=
  c.engineIdle e || match e with
    | .array a => (c.arr a.val).marked
    | .bench b => (c.bench b.val).marked
    | .attention _ => false

/-- The attention engine that takes a command: its home half's, or the other where that one is off or DOWN (R166, R198). -/
def Chip.attnEngine (c : Chip) (m : Cmd) : Option Half :=
  let h := ringHalf m.id.ring.val
  [h, h.other].find? fun k => c.on (F.KVL_CTL_ATTN_ENABLE k.idx) && !c.down.get k && c.awake k

/-- A command of the attention engine of a half is ready: it can start, go on once admitted, or be restored (R195, R272, R307). -/
def Chip.attnReady (c : Chip) (h : Half) (m : Cmd) : Bool :=
  m.isAttn && (if m.stage = .queued then c.attnEngine m == some h else m.half == h) && c.shareOn (40 + h.idx) m.owner != 0 &&
    !c.engineHalted (.attention m.id) &&
    ((c.takeable m.id fun o => o == 0x40 || o == 0x41).isSome || (m.stage == .preempted && m.unit == 1) ||
      (m.stage == .running && (m.attn.phase == 0 || m.attn.phase == 5 || (c.pinOps.get h).contains m.id)))

/-- A boundary mark covers an engine (R281). -/
def Cmd.covers (m : Cmd) : Engine → Bool
  | .array _ => bit (m.word 1) 0
  | .bench _ => bit (m.word 1) 1
  | .attention _ => false

/-- A boundary mark of a ring that covers an engine has been fetched and has not yet taken effect (R282). -/
def Chip.markAhead (c : Chip) (e : Engine) (r : Nat) : Bool := c.cmds.any fun m => m.id.ring.val == r && m.opcode == 0x03 && m.covers e

/-- A ring's context on an engine is the roughing reservation's, which no party pre-empts (R292). -/
def Chip.isRough (c : Chip) (e : Engine) (r : Nat) : Bool :=
  (match e with | .array a => c.roughArray a.val | .bench b => c.roughBench b.val | .attention _ => false) &&
    c.roughPart.isSome && (c.ringOwner r).map Owner.part == c.roughPart

/-- A command could run on an engine if the engine were free of its present context. -/
def Chip.wants (c : Chip) (e : Engine) (m : Cmd) : Bool :=
  match e with
  | .array a => c.readyFor a.val m && c.slotAdmits a.val m.owner && (c.arrayOfRing m.id.ring.val).isNone
  | .bench b => c.readyBench b.val m && c.benchGranted m.owner b.val && c.shareOn (8 + b.val) m.owner != 0 &&
      (c.bench b.val).resident != some m.id.ring.val && !(m.owner.part == 0 && (benchHalf b.val != m.half || c.strictWaiting b.val))
  | .attention id => match c.cmd? id with
    | some x => m.id != id && c.attnReady x.half m
    | none => false

/-- Rank of the context resident on an engine. -/
def Chip.rankOn (c : Chip) (e : Engine) : Nat :=
  match e with
  | .attention id => match c.cmd? id with | some m => m.rank | none => 5
  | _ => match c.residentOn e with | some r => c.ringRank r | none => 5

/-- The rank at which a command asks for an engine: its context's, an attention command's own. -/
def Chip.rankFor (c : Chip) (e : Engine) (m : Cmd) : Nat := match e with | .attention _ => m.rank | _ => c.ringRank m.id.ring.val

/-- The time of an array belongs to the party of a ring: the strict slot that has begun, or that of the moved roughing
reservation. -/
def Chip.inOwnSlot (c : Chip) (e : Engine) (r : Nat) : Bool :=
  match e, c.ringOwner r with
  | .array a, some o => (match c.strictSlot a with | some s => s.heldBy c a o | none => false) || (c.roughServed a && c.roughOwner o)
  | _, _ => false

/-- Another ready context of the same class waits for an engine, or another of the parties that share the strict slot in equal
turns (R271, R273). -/
def Chip.rival (c : Chip) (e : Engine) : Bool :=
  c.cmds.any fun m => c.wants e m && (c.rankFor e m == c.rankOn e || c.inOwnSlot e m.id.ring.val)

/-! ### Turns (R271, R272, R307) -/

/-- The time of an engine is divided in equal turns among the parties of its holder, whatever their shares: a strict slot, or an engine
exclusive to a partition with a strict world (R271, R307). -/
def Chip.equalTurns (c : Chip) (n : Nat) : Bool :=
  if n < 8 then (c.strictSlot n).isSome || (match c.arrayParts n with | [p] => c.strictPart p | _ => false)
  else if n < 40 then (match c.benchParts (n - 8) with | [p] => c.strictPart p | _ => false)
  else false

/-- The weights by which partitions, and the parties of one, have the open time of an engine. -/
def Chip.partWeight (c : Chip) (p : Nat) : Nat := if p = 0 then 1 else max 1 (c.q (F.SCHED_PART_CFG_WEIGHT p))
def Chip.partyWeight (c : Chip) (n : Nat) (o : Owner) : Nat := if c.equalTurns n then 1 else max 1 (c.shareOn n o)

/-- What one of several that contend has had by its weight: its quanta, or where it has only begun to contend the least that another has
had for its weight. An entry is quanta and weight. -/
def hadBy (had : Option Nat) (weight : Nat) (others : List (Nat × Nat)) : Nat :=
  match had with
  | some n => n
  | none => match others with
    | [] => 0
    | e :: es => let y := es.foldl (fun a b => if b.1 * a.2 < a.1 * b.2 then b else a) e; y.1 * weight / y.2

/-- Quanta that a partition, and a party among those of its partition, have had of an engine in the present contention. -/
def Chip.partHad (c : Chip) (n p : Nat) : Nat :=
  hadBy (Tbl.find? c.partTurns (16 * n + p)) (c.partWeight p) ((c.partTurns.filter fun e => e.1 / 16 == n).map fun e => (e.2, c.partWeight (e.1 % 16)))
def Chip.partyHad (c : Chip) (n : Nat) (o : Owner) : Nat :=
  hadBy (Tbl.find? c.partyTurns (8192 * n + o.toNat)) (c.partyWeight n o)
    ((c.partyTurns.filter fun e => e.1 / 8192 == n && e.1 % 8192 / 256 % 16 == o.part).map fun e => (e.2, c.partyWeight n (BitVec.ofNat 13 (e.1 % 8192))))

/-- Of two ready contexts of one class a party's comes first on an engine: its partition, or within a partition the party, has had
less of it by its weight. -/
def Chip.turnBefore (c : Chip) (n : Nat) (x y : Owner) : Bool :=
  if x.part ≠ y.part then decide (c.partHad n x.part * c.partWeight y.part < c.partHad n y.part * c.partWeight x.part)
  else decide (c.partyHad n x * c.partyWeight n y < c.partyHad n y * c.partyWeight n x)

/-- The chip after a quantum of an engine is noted for the context on it, while others of its class wait; with none the count begins
anew. -/
def Chip.noteTurn (c : Chip) (e : Engine) : Chip :=
  let n := c.engineNo e
  let rest (c : Chip) : Chip := { c with partTurns := c.partTurns.filter fun x => x.1 / 16 != n, partyTurns := c.partyTurns.filter fun x => x.1 / 8192 != n }
  match (c.residentOn e).bind c.ringOwner with
  | none => rest c
  | some o =>
    let ds := (o :: (c.cmds.filter fun m => c.wants e m && (c.rankFor e m == c.rankOn e || c.inOwnSlot e m.id.ring.val)).map (·.owner)).eraseDups
    if ds.length ≤ 1 then rest c
    else
      let ps := (ds.map Owner.part).eraseDups
      { rest c with
        partTurns := ps.foldl (fun t p => Tbl.ins t (16 * n + p) (c.partHad n p + b2n (p == o.part))) (c.partTurns.filter fun x => x.1 / 16 != n)
        partyTurns := ds.foldl (fun t d => Tbl.ins t (8192 * n + d.toNat) (c.partyHad n d + b2n (d == o))) (c.partyTurns.filter fun x => x.1 / 8192 != n) }

/-- An engine whose context is to be switched at its next boundary mark stands at one: no further command starts on it (R273,
R282). -/
def Chip.atSwitch (c : Chip) (e : Engine) : Bool :=
  let w := c.switchOf e
  (match e with | .array a => (c.arr a.val).marked | .bench b => (c.bench b.val).marked | .attention _ => false) &&
    (w.want || (decide (0 < w.quanta) && c.rival e))

/-! ### Pre-emption (R272, R276, R280, R282) -/

/-- Partition 0 gives a bench up to a strict party to whose partition the bench is exclusive (R271). -/
def Chip.yields (c : Chip) (e : Engine) (r byRing : Nat) : Bool :=
  match e, c.ringOwner r, c.ringOwner byRing with
  | .bench b, some o, some y => o.part == 0 && c.strict y && c.benchParts b == [y.part]
  | _, _, _ => false

/-- A ring has a claim to an engine on which another context stands: a command of higher class, the strict slot, or a
command for an engine whose context holds none there (R271, R272, R276, R280). -/
def Chip.claims (c : Chip) (e : Engine) (byRing : Nat) : Bool :=
  match c.residentOn e with
  | none => false
  | some r =>
    let claim := match e with
      | .attention id => match c.cmd? id with
        | some m => c.cmds.any fun k => k.id.ring.val == byRing && k.stage != .running && c.wants e k && decide (k.rank < m.rank)
        | none => false
      | _ => (c.cmds.any fun m => m.id.ring.val == byRing && c.wants e m) &&
          (c.engineIdle e || c.inOwnSlot e byRing || c.yields e r byRing || decide (c.ringRank byRing < c.rankOn e))
    r != byRing && claim && !c.isRough e r && (c.inOwnSlot e byRing || !c.inOwnSlot e r)

/-- The order in which the scheduler takes the arrays on which another context stands: idle ones first, then the context of
the lowest class, then the lowest-numbered array (R272, R280). -/
def Chip.victimKey (c : Chip) (a : Nat) : Nat :=
  if (if h : a < 8 then c.engineIdle (.array ⟨a, h⟩) else false) then a else 8 * (6 - match (c.arr a).resident with | some r => min (c.ringRank r) 5 | none => 5) + a

/-- A switch of the context on an array is under way. -/
def Chip.arraySwitching (c : Chip) (a : Nat) : Bool := (c.arr a).sw.saving.isSome || (c.arr a).sw.want

/-- The rings, at least as urgent as a rank, whose array commands wait for an array like this one. -/
def Chip.waitingRings (c : Chip) (a : Fin 8) (rank : Nat) : List Nat :=
  ((c.cmds.filter fun m => c.wants (.array a) m && decide (c.ringRank m.id.ring.val ≤ rank)).map fun m => m.id.ring.val).eraseDups

/-- The scheduler takes an array for a ring: no array of its half stands empty for it, the switches under way on the half do
not serve all that wait, and of the arrays it has a claim to none comes before in the scheduler's order (R272, R280). -/
def Chip.arrayChosen (c : Chip) (a : Fin 8) (byRing : Nat) : Bool :=
  decide (((List.range 8).filter fun b => arrayHalf b == arrayHalf a && c.arraySwitching b).length < (c.waitingRings a (c.ringRank byRing)).length) &&
  (List.finRange 8).all fun b =>
    !((c.arr b.val).resident.isNone && c.arrayInService b.val && c.cmds.any fun m => m.id.ring.val == byRing && c.wants (.array b) m) &&
    (b == a || c.arraySwitching b.val || !c.claims (.array b) byRing || decide (c.victimKey a.val < c.victimKey b.val))

/-- A context may be pre-empted on an engine for a ring (R272, R276, R280). -/
def Chip.mayPreempt (c : Chip) (e : Engine) (byRing : Nat) : Bool :=
  c.claims e byRing && match e with
    | .array a => c.inOwnSlot e byRing || c.arrayChosen a byRing
    | .attention id => match c.cmd? id with
      | some m => !(c.cmds.any fun k => k.isAttn && k.stage == .running && k.half == m.half && decide (m.rank < k.rank))
      | none => false
    | .bench _ => true

/-! ### Who is served first (R271, R272, R280, R293) -/

/-- A ready context that an array could serve comes before one with a key and an owner: on open time the more urgent, in a strict slot and
within a class the one whose turn it is. Where another context stands on the array it comes first only if that is to be pre-empted
for it (R271, R272). -/
def Chip.outrankedKey (c : Chip) (a key : Nat) (o : Owner) : Bool :=
  c.cmds.any fun e =>
    c.readyFor a e && c.arrayFits a e.half e.owner &&
      let less := (c.strictSlot a).isNone && decide (c.serveKey e < key)
      match (c.arr a).resident with
      | none => less || (((c.strictSlot a).isSome || c.serveKey e == key) && e.owner != o && c.turnBefore a e.owner o)
      | some r => less && (r == e.id.ring.val || if h : a < 8 then c.mayPreempt (.array ⟨a, h⟩) e.id.ring.val else false)

/-- An array can take the saved context of a ring: it stands empty and can serve its party (R280). -/
def Chip.restorable (c : Chip) (a r : Nat) (o : Owner) : Bool := (c.arr a).resident.isNone && c.arrayFits a (ringHalf r) o

/-- The array on which the scheduler restores the context of a ring: the lowest-numbered that can take it, no context that comes before
waiting for it (R272, R280). -/
def Chip.restorePlace (c : Chip) (a r : Nat) (o : Owner) : Bool :=
  c.restorable a r o && !((List.range a).any fun b => c.restorable b r o) && !c.outrankedKey a (c.ringKey r o.part) o

/-- Another ready command of an attention engine comes before one of it (R272). -/
def Chip.attnOutranked (c : Chip) (h : Half) (m : Cmd) : Bool :=
  c.cmds.any fun e => e.id != m.id && c.attnReady h e &&
    (decide (e.rank < m.rank) || (e.rank == m.rank && e.owner != m.owner && c.turnBefore (40 + h.idx) e.owner m.owner))

/-- The chip after a switch of an engine is decided: at a mark it is saved at once at command level, with a mark fetched
ahead it waits for that mark, and otherwise, or where no mark is waited for, it is saved at full level (R276, R282). -/
def Chip.decideSwitch (c : Chip) (e : Engine) (r : Nat) (noWait : Bool) : Chip :=
  if (c.switchOf e).saving.isSome then c
  else if c.commandLevel e then c.beginSave e false
  else if noWait then c.beginSave e true
  else if (c.switchOf e).want then c
  else if c.markAhead e r then c.setSwitch e { c.switchOf e with want := true, since := c.stamp (engineHalf (c.engineNo e)) 0 }
  else c.beginSave e true

end Sys2Proof.Machine
end

