-- ==== Sys2Proof/Machine/Memory.lean ====
section
/-! DEFINITION. The DRAM stacks: corrected and uncorrectable reads, the patrol scrub, marks, rebuilds (R206–R212). -/

namespace Sys2Proof.Machine

/-- The half of a DRAM stack. -/
def stackHalf (x : Nat) : Half := if x < 2 then .H else .T

/-- The address of a 64-byte unit of a stack: 256-byte units alternate between the two stacks of a half (R207). -/
def unitAddr (x u : Nat) : Nat :=
  (match stackHalf x with | .H => 0x1000000000 | .T => 0x1800000000) + u / 4 * 512 + x % 2 * 256 + u % 4 * 64

/-- The chip after a unit is found uncorrectable and poisoned (R210). -/
def Chip.poisonUnit (c : Chip) (x a : Nat) : Chip :=
  let c := ((c.inc (F.MEM_UNCORR_COUNT x)).setReg (Reg.MEM_POISON_LO x) (a % 2 ^ 32)).setReg (Reg.MEM_POISON_HI x) (a / 2 ^ 32)
  let c : Chip := if c.poison.contains a then c else { c with poison := a :: c.poison }
  let o := ownOwner (c.ownAt ((ownIndex a).getD 0))
  (c.dirty a 64).evOf (stackHalf x) 0x0311 (BitVec.ofNat 13 o) [x, a, o]

/-- The chip after symbols of a die are corrected (R209, R212). -/
def Chip.corrected (c : Chip) (x d n a : Nat) : Chip :=
  let c := ((c.count (F.MEM_CORR_COUNT x) n).count (F.MEM_DIE_CORR_HOUR x d) n).count (F.MEM_DIE_CORR_TOTAL x d) n
  if ¬ c.on (F.MEM_CTL_EVT_CORR_EN x) then c
  else (List.range n).foldl (fun (c : Chip) _ => c.ev (stackHalf x) 0x0310 [x, d, a]) c

/-- The chip after the rebuild of the marked die of a stack starts (R211). -/
def Chip.startRebuild (c : Chip) (x : Nat) : Chip :=
  let c := (c.put (F.MEM_STATUS_REBUILDING x) 1).put (F.MEM_STATUS_PROGRESS x) 0
  c.ev (stackHalf x) 0x0313 [x, c.q (F.MEM_STATUS_MARKED_DIE x)]

/-- The chip after a die is marked, cause 0 by the retry, 1 by its count; the rebuild into a free spare starts (R209, R211,
R538). -/
def Chip.markDie (c : Chip) (x d cause : Nat) : Chip :=
  let h := stackHalf x
  let c := (((c.put (F.MEM_STATUS_MARKED x) 1).put (F.MEM_STATUS_MARKED_DIE x) d).ev h 0x0312 [x, d, cause])
  let c := if c.on (F.MEM_STATUS_SPARE_USED x) then (c.ev h 0x0315 [x, d]).wearCause h 9 else c.startRebuild x
  c.ledger h 3 (wearBody [x, d, cause]) (c.wearSets (wearWords ++ unitWords 6 x))

/-- A die holds symbols of the stack's code words: the spare holds none before it has taken a role, the die whose role it took none
afterwards (R206, R211). -/
def Chip.dieInUse (c : Chip) (x d : Nat) : Bool :=
  if c.on (F.MEM_STATUS_SPARE_USED x) then Tbl.look 0 c.dieOut x != d + 1
  else c.on (F.MEM_STATUS_REBUILDING x) || d != c.q (F.MEM_STATUS_SPARE_DIE x)

/-- The code of a stack corrects `n` symbols of a die: one symbol of any with no die marked; up to the eight of a marked die, and of no
other until its rebuild has ended (R208). -/
def Chip.correctable (c : Chip) (x d n : Nat) : Bool :=
  c.dieInUse x d && if c.on (F.MEM_STATUS_MARKED x) then decide (1 ≤ n) && c.q (F.MEM_STATUS_MARKED_DIE x) == d else n == 1

/-- The chip after a read of a unit shows errors in one die; `retried` where only the retry found the die (R209). -/
def Chip.dieErrors (c : Chip) (x d n a : Nat) (retried : Bool) : Chip :=
  let other := c.on (F.MEM_STATUS_MARKED x) && c.q (F.MEM_STATUS_MARKED_DIE x) != d
  let many := decide (256 < c.q (F.MEM_DIE_CORR_HOUR x d) + n)
  if other ∧ (retried ∨ many) then c.poisonUnit x a
  else
    let c := c.corrected x d n a
    if c.on (F.MEM_STATUS_MARKED x) then c
    else if retried then c.markDie x d 0 else if many then c.markDie x d 1 else c

/-- The chip after a read of the unit at an address of a stack, by what its code word showed (R208–R210). -/
def Chip.eccRead (c : Chip) (x a : Nat) (o : EccObs) : Chip :=
  match o with
  | .clean => c
  | .corrected d n => if c.correctable x d.val n.val then c.dieErrors x d.val n.val a false else c
  | .retried d n => if ¬ c.dieInUse x d.val then c else c.dieErrors x d.val n.val a true
  | .uncorrectable => c.poisonUnit x a
  | .undetected | .storeCorrected _ | .storeUncorrectable _ => c

/-- The chip after an engine's read of the unit at an address shows `o`, and whether the read finds it uncorrectable (R208–R210). -/
def Chip.firstRead (c : Chip) (a : Nat) (o : EccObs) : Bool × Chip :=
  if inDram a ∧ c.poisoned a 1 = none then
    let d := c.eccRead (stackOf a) (alignDown a 64) o
    ((d.poisoned a 1).isSome, d)
  else (false, c)

/-- PATROL_SCRUB (R212): a stack's scrub reads a unit, and writes back a corrected one. -/
def execPatrolScrub (x : Fin 4) (u : BitVec 28) (o : EccObs) (s : State) : Host.Outcome State Fault Refusal :=
  let c := s.chip
  let a := unitAddr x.val u.toNat
  if c.down.get (stackHalf x.val) ∨ ¬ c.awake (stackHalf x.val) ∨ ¬ c.on (F.MEM_CTL_SCRUB_EN x.val) then s.go c
  else s.go (c.eccRead x.val a o)

/-- REBUILD_COMPLETE (R211): the spare takes the role of the marked die of a stack. -/
def execRebuildComplete (x : Fin 4) (s : State) : Host.Outcome State Fault Refusal :=
  let c := s.chip
  let h := stackHalf x.val
  if c.down.get h ∨ ¬ c.awake h ∨ ¬ c.on (F.MEM_STATUS_REBUILDING x.val) then s.go c
  else
    let d := c.q (F.MEM_STATUS_MARKED_DIE x.val)
    let sp := c.q (F.MEM_STATUS_SPARE_DIE x.val)
    let c := if c.q (F.MEM_STATUS_CHECK_DIE x.val) = d then c.put (F.MEM_STATUS_CHECK_DIE x.val) sp else c
    let c := (((c.put (F.MEM_STATUS_MARKED x.val) 0).put (F.MEM_STATUS_REBUILDING x.val) 0).put (F.MEM_STATUS_PROGRESS x.val) 100).put
      (F.MEM_STATUS_SPARE_USED x.val) 1
    let c : Chip := { c with dieOut := Tbl.put 0 c.dieOut x.val (d + 1) }
    let c := (c.ev h 0x0314 [x.val, d, sp]).ledger h 3 (wearBody [x.val, d, sp]) (c.wearSets (wearWords ++ unitWords 6 x.val))
    s.go (c.spareTaken h 6 x.val sp 1)

end Sys2Proof.Machine
end

