-- ==== Sys2Proof/Machine/Stores.lean ====
section
/-! DEFINITION. Benches' spare cores, the errors of the array stores and of the bench, data and instruction stores (R106, R129–R132),
and what the reads of a step show, of DRAM and of the stores through their windows (R106, R202, R208–R210). -/

namespace Sys2Proof.Machine

/-! ### Errors of the array stores (R106) -/

/-- Area and offset in it of a byte of an array store, as its error events give them: 0 operands, 1 accumulators, 2 the tile
mirror, which no address reaches (R80, R107). -/
def storeArea (off : Nat) : List Nat :=
  if off < 0x800000 then [0, off] else if off < 0xC00000 then [1, off - 0x800000] else [2, off - 0xC00000]

/-- The chip after a store read of an array corrects an error: counted, and a row that gives its second within an hour is
replaced while the store has a redundant one (R106, R532). -/
def Chip.arrayCorrected (c : Chip) (a off row : Nat) : Chip :=
  let h := arrayHalf a
  let c := c.inc (F.ARRAY_ECC_CORR a)
  let c := if c.on (F.ARRAY_CTL_EVT_CORR_EN a) then c.ev h 0x0110 (a :: storeArea off) else c
  let (worn, c) := c.rowWorn a row
  let free := c.q (F.ARRAY_SPARES_STORE_ROWS_FREE a)
  if worn ∧ 0 < free then ((c.dec (F.ARRAY_SPARES_STORE_ROWS_FREE a)).ev h 0x0112 [a, row]).spareTaken h 2 a (384 - free) (385 - free) else c

/-- A tile with a 64-bit word of its copy in the mirror zero: the tile first, then its scale plane. -/
def Tile.zeroWord (t : Tile) (o : Nat) : Tile :=
  let n := codeBytes t.fmt 512 * 128
  { t with bytes := t.bytes.filter fun e => !decide (o ≤ e.1 ∧ e.1 < o + 8), scales := t.scales.filter fun e => !decide (o ≤ n + e.1 ∧ n + e.1 < o + 8) }

/-- The chip after a double-bit error in an array's store or tile mirror is found: counted, reported, the word zeroed before any
further read (R106). The mirror's first half holds the active tile, its second half the shadow tile (R80). -/
def Chip.arrayLost (c : Chip) (a off : Nat) (m : Option Cmd) : Chip :=
  let o : Owner := BitVec.ofNat 13 (c.q (F.ARRAY_STATUS_OWNER a))
  let c := (c.inc (F.ARRAY_ECC_UNCORR a)).evBy (arrayHalf a) 0x0111 (m.map (·.id.ring.val)) o (a :: storeArea off ++ [o.toNat])
  let w := alignDown off 8
  if off < 0xC00000 then c.storeRaw (arrayStore a + w) (List.replicate 8 0)
  else
    let x := c.arr a
    if w < 0xC20000 then c.setArr a { x with active := x.active.zeroWord (w - 0xC00000) }
    else c.setArr a { x with shadow := x.shadow.map fun t => (t.1, t.2.zeroWord (w - 0xC20000)) }

/-! ### Spare cores (R130, R131) -/

/-- The physical core of a logical core, if it has one of its own. -/
def Chip.physOf (c : Chip) (b k : Nat) : Option Nat :=
  if c.on (F.BENCH_MAP_VALID b k) then some (c.q (F.BENCH_MAP_PHYS b k)) else none

/-- The logical core that a physical core carries as its own. -/
def Chip.logicalOf (c : Chip) (b p : Nat) : Option Nat := (List.range 60).find? fun k => c.physOf b k == some p

/-- The free spare with the lowest index. -/
def Chip.freeSpare (c : Chip) (b : Nat) : Option Nat :=
  (List.range 64).find? fun p => (c.logicalOf b p).isNone && !(c.bench b).retired.contains p

/-- The chip with the logical cores that have no core of their own shown on the core that carries the logical core whose
index is theirs less the count of healthy cores (R131). -/
def Chip.doubleUp (c : Chip) (b : Nat) : Chip :=
  (List.range 60).foldl (fun (c : Chip) k =>
    if c.on (F.BENCH_MAP_VALID b k) then c
    else c.put (F.BENCH_MAP_PHYS b k) (c.q (F.BENCH_MAP_PHYS b (k - c.q (F.BENCH_CORES_HEALTHY b))))) c

/-- The chip after a physical core is retired (R130, R131, R532). Stores are the logical core's, so where its context is resident and
was never saved the spare shows the stores as the failed core had them. DESIGN CHOICE, unsafe: log 151. -/
def Chip.retireCore (c : Chip) (b p : Nat) : Chip :=
  let h := benchHalf b
  let x := c.bench b
  let c := (c.setBench b { x with retired := p :: x.retired }).dec (F.BENCH_CORES_HEALTHY b)
  match c.logicalOf b p with
  | none =>
    let c := c.dec (F.BENCH_CORES_SPARES_FREE b)
    let c := if c.q (F.BENCH_CORES_SPARES_FREE b) = 0 then c.wearCause h 3 else c
    c.ledger h 1 (wearBody [3, b, p]) (c.wearSets (wearWords ++ unitWords 3 b))
  | some k =>
    match c.freeSpare b with
    | some sp =>
      let c := (c.put (F.BENCH_MAP_PHYS b k) sp).dec (F.BENCH_CORES_SPARES_FREE b)
      let c := (c.setBench b { c.bench b with spareNext := true }).ev h 0x0200 [b, k, p, sp]
      c.spareTaken h 3 b sp (4 - c.q (F.BENCH_CORES_SPARES_FREE b))
    | none =>
      let last := ((List.range 60).filter fun j => c.on (F.BENCH_MAP_VALID b j)).foldl max 0
      let c := (c.put (F.BENCH_MAP_PHYS b k) (c.q (F.BENCH_MAP_PHYS b last))).put (F.BENCH_MAP_VALID b last) 0
      let c := (c.dec (F.BENCH_CORES_IN_SERVICE b)).doubleUp b
      let c := c.ev h 0x0201 [b, p, c.q (F.BENCH_CORES_HEALTHY b)]
      let c := c.ledger h 1 (wearBody [3, b, p]) (c.wearSets (wearWords ++ unitWords 3 b))
      if c.q (F.BENCH_CORES_HEALTHY b) < 30 then c.retireBench b 1 else c

/-! ### Store errors (R129, R132) -/

/-- A bench's stores as one step of a core reads them: the bench store, then the core's own data store window. -/
def benchAt (b k off : Nat) : Nat := if off < 0x200000 then benchStore b + off else dataStore b k + (off - 0x200000)
/-- The store and the offset in it, as its error events give them: 0 the bench store, 1 + k the data store of core k (R133). -/
def benchArea (k off : Nat) : List Nat := if off < 0x200000 then [0, off] else [1 + k, off - 0x200000]

/-- A core's own store window: its data store below 0xC000, its instruction store above (R114). -/
def inInst (off : Nat) : Bool := decide (0x20C000 ≤ off)

/-- The chip after a row of the data store of a core's physical core is replaced by a redundant one (R132, R532). -/
def Chip.takeDataRow (c : Chip) (b k row : Nat) : Chip :=
  let u := 64 * b + c.q (F.BENCH_MAP_PHYS b k)
  let used := Tbl.look 0 c.dataRows u
  (Chip.ev { c with dataRows := Tbl.put 0 c.dataRows u (used + 1) } (benchHalf b) 0x0212 [b, 1 + k, row]).spareTaken (benchHalf b) 5 u used (used + 1)

/-- The data store of a core's physical core has a redundant row left. -/
def Chip.dataRowLeft (c : Chip) (b k : Nat) : Bool := decide (Tbl.look 0 c.dataRows (64 * b + c.q (F.BENCH_MAP_PHYS b k)) < 8)

/-- The chip after a read of a bench's stores corrects an error (R132, as R106); an instruction store has no redundant rows. -/
def Chip.benchCorrected (c : Chip) (b k off row : Nat) : Chip :=
  let h := benchHalf b
  let c := c.inc (F.BENCH_ECC_CORR b)
  let c := if c.on (F.BENCH_CTL_EVT_CORR_EN b) then c.ev h 0x0210 (b :: benchArea k off) else c
  let own := decide (0x200000 ≤ off)
  if inInst off then c else
  let (worn, c) := c.rowWorn (if own then 4096 + 64 * b + c.q (F.BENCH_MAP_PHYS b k) else 8 + b) row
  let free := c.q (F.BENCH_CORES_ROWS_FREE b)
  if ¬ worn then c
  else if own then (if c.dataRowLeft b k then c.takeDataRow b k row else c)
  else if 0 < free then ((c.dec (F.BENCH_CORES_ROWS_FREE b)).ev h 0x0212 [b, 0, row]).spareTaken h 4 b (64 - free) (65 - free) else c

/-- The `detail` of a FAULT under R116 but for the cause, which no rule gives for a store error: a draw (assumption 2). -/
def Chip.coreDetail (c : Chip) (b k draw : Nat) : Nat := draw % 256 + k % 64 * 2 ^ 8 + (c.core b k).pc % 2 ^ 32 * 2 ^ 16

/-- The error is one that no redundant row removes: it is in a core's own store, whose core is retired (R129, R132). -/
def Chip.coreGone (c : Chip) (b k off : Nat) : Bool := decide (0x200000 ≤ off) && (inInst off || !c.dataRowLeft b k)

/-- The chip after the word of a double-bit error of a bench's stores is zeroed, and its row replaced or its core retired (R129, R130,
R132). -/
def Chip.benchMend (c : Chip) (b k off row : Nat) : Chip :=
  let retire := c.coreGone b k off
  let c := c.storeRaw (benchAt b k (alignDown off 8)) (List.replicate 8 0)
  if off < 0x200000 then c
  else if retire then c.retireCore b (c.q (F.BENCH_MAP_PHYS b k))
  else c.takeDataRow b k row

/-- The detail of event 0x0211. -/
def Chip.benchLostAt (c : Chip) (b k off : Nat) : List Nat := b :: benchArea k off ++ [c.q (F.BENCH_STATUS_OWNER b)]

/-- The chip after a read of a bench's stores meets a double-bit error: the task that the bench runs ends with FAULT, the word is
zeroed. An error in a core's own store that no redundant row removes retires that core, and the `detail` is then that of R116;
it is not stated otherwise (R129, R130, R132; assumption 2). -/
def Chip.benchUncorrectable (c : Chip) (b k off row : Nat) : Chip :=
  let h := benchHalf b
  let c := c.inc (F.BENCH_ECC_UNCORR b)
  let d := c.benchLostAt b k off
  let retire := c.coreGone b k off
  let c := match (c.bench b).task.bind c.cmd? with
    | some m =>
      let (v, c) := (c.evCmd h 0x0211 m d).draw
      let v := if retire then c.coreDetail b k v else v
      (c.stopTask m).complete (m.endWith .fault v) v
    | none => c.ev h 0x0211 d
  c.benchMend b k off row

/-- The chip after a step of a core reads its stores, which show `o`; `act` is the step. -/
def Chip.coreStep (c : Chip) (b k : Nat) (o : StoreObs 0x210000) (act : Chip → Chip) : Chip :=
  match o with
  | .clean => act c
  | .corrected off row => act (c.benchCorrected b k off.val row.toNat)
  | .uncorrectable off row => c.benchUncorrectable b k off.val row.toNat

/-- The chip after a read of an array or bench store at a window address shows an error of its SRAM row, corrected or not, and
whether the read has no data (R106, R132). -/
def Chip.windowRead (c : Chip) (a : Nat) (o : EccObs) : Bool × Chip :=
  match sramUnit a, o with
  | some (.inl n), .storeCorrected row => (false, c.arrayCorrected n (a - arrayStore n) row.toNat)
  | some (.inl n), .storeUncorrectable _ => (true, c.arrayLost n (a - arrayStore n) none)
  | some (.inr b), o =>
    let (k, off) := if a < 0x60000000 then (0, a - benchStore b) else ((a - dataStore b 0) / 0x10000, 0x200000 + (a - dataStore b 0) % 0x10000)
    match o with
    | .storeCorrected row => (false, c.benchCorrected b k off row.toNat)
    | .storeUncorrectable row => (true, c.benchUncorrectable b k off row.toNat)
    | _ => (false, c)
  | _, _ => (false, c)

/-! ### What the reads of a step show -/

/-- What the reads of a step showed: the address whose data is lost, and whether an error of DRAM went undetected. -/
structure Sight where
  lost : Option Nat
  wrong : Bool
deriving DecidableEq, Repr

/-- The chip after reads of some ranges, each an address and a length, show what `o` lists for addresses in them, and what that was;
the first whose data is lost ends it. -/
def Chip.sight (c : Chip) (rs : List (Nat × Nat)) (o : Seen) : Sight × Chip :=
  o.foldl (fun x e =>
    if x.1.lost.isNone ∧ rs.any (fun r => decide (r.1 ≤ e.1 ∧ e.1 < r.1 + r.2)) then
      let (l, c) := if inDram e.1 then x.2.firstRead e.1 e.2 else x.2.windowRead e.1 e.2
      (⟨if l then some (alignDown e.1 (if inDram e.1 then 64 else 8)) else none, x.1.wrong || (e.2 == .undetected && inDram e.1)⟩, c)
    else x) (⟨none, false⟩, c)

/-- Bytes that an engine reads for a command while its reads show `o`; or where and why it has none, and whether this read has
found the data lost (R208–R210, R216, R226). -/
def Chip.readSeen (c : Chip) (m : Cmd) (a n : Nat) (far : Far) (o : Seen) : Except (Bool × Nat × Nat) (List Byte) × Chip :=
  match c.reachCause m.half m.owner false a n far with
  | some e => (.error (false, e), c)
  | none =>
    let (e, d) := c.sight [(a, n)] o
    match e.lost with
    | some x => (.error (true, x, 4), d)
    | none => if e.wrong then (.ok (d.freeBytes n), { d with freeCnt := d.freeCnt + 1 }) else (.ok (d.load a n), d)

/-- The chip after a command ends at a read that gave it no data. -/
def Chip.failRead (c : Chip) (m : Cmd) (e : Bool × Nat × Nat) : Chip :=
  if e.1 then c.complete (m.endAt e.2.1 e.2.2) 0 else c.failReach m e.2

/-- The ranges that an engine may read for a command. -/
def Chip.mayRead (c : Chip) (m : Cmd) (far : Far) (rs : List (Nat × Nat)) : List (Nat × Nat) :=
  rs.filter fun r => (c.reachCause m.half m.owner false r.1 r.2 far).isNone

end Sys2Proof.Machine
end

