-- ==== Sys2Proof/Machine/Slots.lean ====
section
/-! DEFINITION. Result slots: publishing and reading (R259–R265, R331–R334, R567), and the state DEGRADED (R338). -/

namespace Sys2Proof.Machine

/-- A result slot. -/
def Chip.slot (c : Chip) (s : Nat) : SlotSt := Tbl.look SlotSt.zero c.slots s
/-- The chip with a result slot replaced. -/
def Chip.setSlot (c : Chip) (s : Nat) (x : SlotSt) : Chip := { c with slots := Tbl.put SlotSt.zero c.slots s x }

/-- The half of a slot's first set. -/
def Chip.slotHome (c : Chip) (s : Nat) : Half := if c.on (F.SLOT_CFG_HALF s) then .T else .H
/-- A slot keeps a set of buffers on a half (R259). -/
def Chip.slotSet (c : Chip) (s : Nat) (h : Half) : Bool :=
  c.on (F.SLOT_CFG_VALID s) && (c.slotHome s == h || c.on (F.SLOT_CFG_MIRROR s))
/-- Payload size of a slot in bytes. -/
def Chip.slotBytes (c : Chip) (s : Nat) : Nat := c.q (F.SLOT_CFG_SIZE s) * 64
/-- Address of a buffer (R342), none where no image has placed the set. -/
def Chip.slotBuf (c : Chip) (s : Nat) (h : Half) (k : Nat) : Option Nat :=
  (Tbl.find? (c.slotBase.get h) s).map fun b => b + k * c.slotBytes s
/-- The slot reads as if nothing had been published (R259, R262). -/
def Chip.slotEmpty (c : Chip) (s : Nat) : Bool := c.reg (Reg.SLOT_GEN s) == 0 || (!(c.slot s).held.h && !(c.slot s).held.t)
/-- The age of the current result exceeds its limit, on the clock of a half; a late publication counts so (R330, R333). -/
def Chip.slotOld (c : Chip) (h : Half) (s : Nat) : Bool :=
  c.on (F.SLOT_STATE_CUR_LATE s) || decide ((c.q (F.SLOT_AGE_LIMIT_US s) * usUnits : Nat) < elapsed (c.stamp h 0) (c.slot s).origin)
/-- A half in service holds a set of the slot with its current result. -/
def Chip.slotHolds (c : Chip) (s : Nat) (h : Half) : Bool := c.slotSet s h && !c.down.get h && (c.slot s).held.get h
/-- Some half in service holds a set of the slot with its current result. -/
def Chip.slotReadable (c : Chip) (s : Nat) : Bool := c.slotHolds s .H || c.slotHolds s .T
/-- State of an alternate: 0 absent, 1 usable, 2 unpublished, 3 doubtful, 4 too old, 5 not readable (R331). -/
def Chip.altState (c : Chip) (h : Half) (valid : Bool) (s : Nat) : Nat :=
  if ¬ valid then 0 else if c.slotEmpty s then 2 else if c.on (F.SLOT_STATE_CUR_DOUBTFUL s) then 3
  else if c.slotOld h s then 4 else if ¬ c.slotReadable s then 5 else 1

/-- The slot that serves a read of a slot: itself, or an alternate; `0x0712` if none is usable (R331). -/
structure Served where
  slot : Nat
  alt : Bool
  alt2 : Bool
  none : Bool
deriving DecidableEq, Repr

/-- The slot that a read of slot `s` is served from (R331). -/
def Chip.serve (c : Chip) (h : Half) (s : Nat) : Served :=
  if ¬ c.on (F.SLOT_STATE_SWITCHED s) then ⟨s, false, false, false⟩
  else
    let v1 := c.on (F.SLOT_ALT_ALT_VALID s)
    let a1 := c.q (F.SLOT_ALT_ALT s)
    let a2 := c.q (F.SLOT_ALT_ALT2 s)
    if c.altState h v1 a1 = 1 then ⟨a1, true, false, false⟩
    else if c.altState h (c.on (F.SLOT_ALT_ALT2_VALID s)) a2 = 1 then ⟨a2, true, true, false⟩
    else if v1 then ⟨a1, true, false, true⟩ else ⟨s, false, false, true⟩

/-- The chip after event 0x0712. -/
def Chip.noAlternate (c : Chip) (h : Half) (s : Nat) : Chip :=
  c.ev h 0x0712 [s, c.altState h (c.on (F.SLOT_ALT_ALT_VALID s)) (c.q (F.SLOT_ALT_ALT s)) +
    16 * c.altState h (c.on (F.SLOT_ALT_ALT2_VALID s)) (c.q (F.SLOT_ALT_ALT2 s))]

/-- The half from whose set a read on a half is served: the nearer one that holds the current result (R263). -/
def Chip.slotSide (c : Chip) (h : Half) (s : Nat) : Option Half := [h, h.other].find? fun k => c.slotHolds s k

/-! ### DEGRADED (R338) -/

/-- The sources of DEGRADED: a switched slot with `DEGRADE` = 1, as its number, or an authority source, as 0x200 + bit. -/
def Chip.degradedBy (c : Chip) : Option Nat :=
  match (List.range 512).find? fun s => c.on (F.SLOT_CFG_VALID s) && c.on (F.SLOT_CFG_DEGRADE s) && c.on (F.SLOT_STATE_SWITCHED s) with
  | some s => some s
  | none => (List.range 4).find? (fun k => bit (c.q (F.AUTH_STATUS_DEG_SRC 0)) k || bit (c.q (F.AUTH_STATUS_DEG_SRC 1)) k) |>.map (0x200 + ·)

/-- The envelope level of an engine now, in units of 2⁻³² (R372). -/
def Chip.envLevel (c : Chip) (h : Half) : Nat :=
  let e := c.env.get h
  let ms := if e.rising then c.q (F.STEADY_ENV_ENV_IN_MS h.idx) else c.q (F.STEADY_ENV_ENV_OUT_MS h.idx)
  let dt := (elapsed (c.stamp h (c.q (F.STEADY_CTL_TB h.idx))) e.since).toNat
  let moved := dt * 2 ^ 32 / max (ms * 1000 * usUnits) 1
  if e.rising then (if ms = 0 then 2 ^ 32 else min (2 ^ 32) (e.level + moved)) else if ms = 0 then 0 else e.level - moved

/-- The chip after the envelope level of an engine turns to rise or fall (R372). -/
def Chip.envTurn (c : Chip) (h : Half) (rising : Bool) : Chip :=
  { c with env := c.env.set h ⟨c.envLevel h, c.stamp h (c.q (F.STEADY_CTL_TB h.idx)), rising⟩ }

/-- The chip with DEGRADED as its sources have it, in both halves, its event where it changed, and the envelope of both
Steady engines following it (R338, R372). -/
def Chip.syncDegraded (c : Chip) : Chip :=
  let n := ((List.range 512).filter fun s => c.on (F.SLOT_CFG_VALID s) && c.on (F.SLOT_STATE_SWITCHED s)).length
  let was := c.on (F.CALLIPER_STATUS_DEGRADED 0)
  let set (v : Nat) (c : Chip) :=
    (((c.put (F.CALLIPER_STATUS_DEGRADED 0) v).put (F.CALLIPER_STATUS_DEGRADED 1) v).envTurn .H (v == 1)).envTurn .T (v == 1)
  let c := (c.put (F.CALLIPER_STATUS_SWITCHED 0) n).put (F.CALLIPER_STATUS_SWITCHED 1) n
  match c.degradedBy, was with
  | some k, false => (set 1 c).ev c.firstUp 0x0718 [k]
  | none, true => (set 0 c).ev c.firstUp 0x0719 []
  | _, _ => c

/-! ### Publishing (R260, R261) -/

def Cmd.slotNo (m : Cmd) : Nat := m.fld 1 48 9
def Cmd.slotAddr (m : Cmd) : Nat := alignDown (m.fld 1 0 48) 64

/-- The lowest-numbered buffer of a half's set that is neither current nor pinned. -/
def Chip.freeBuf (c : Chip) (s : Nat) (h : Half) : Option Nat :=
  (List.range 3).find? fun k => !(c.reg (Reg.SLOT_GEN s) != 0 && (c.slot s).cur.get h == k) &&
    !(c.pins.any fun p => p.slot == s && p.half == h && p.buf == k)

/-- The chip after a publication leaves its slot: the place in the order passes on. -/
def Chip.leaveSlot (c : Chip) (s : Nat) (id : CmdId) : Chip :=
  let x := c.slot s
  c.setSlot s { x with
    queue := x.queue.filter (· != id), writing := if x.queue.head? = some id then ⟨none, none⟩ else x.writing }

/-- Bytes that a publication copies: its `LEN`, read as a multiple of 64 (R260, R566). -/
def Cmd.slotLen (m : Cmd) : Nat := alignDown (m.fld 2 0 32) 64

/-- The chip after a publication stops before its bump: its place in the order passes on, and it ends at an access that cannot be
made (R567). -/
def Chip.stopPublish (c : Chip) (m : Cmd) (e : Nat × Nat) : Chip := (c.leaveSlot m.slotNo m.id).failReach m e

/-- The halves in service that hold a set of a slot's buffers (R259, R260). -/
def Chip.slotSides (c : Chip) (s : Nat) : List Half :=
  [Half.H, Half.T].filter fun h => c.slotSet s h && !c.down.get h && (c.slotBuf s h 0).isSome

/-- The chip after the publication at the head of its slot's order chooses its buffers and copies the result into them, each with a
Carriage of its half; where no buffer is free, or no Carriage in service, it waits (R260, R261, R264, R567). Without a half in
service that holds a set it ends ABANDONED (R362, R567). -/
def Chip.copyResult (c : Chip) (m : Cmd) (far : Far) (o : Seen) : Chip :=
  let s := m.slotNo
  let sides := c.slotSides s
  let bufs := sides.filterMap fun h => (c.freeBuf s h).map fun k => (h, k)
  if sides = [] then c.stopPublish m (0, causeLost)
  else if bufs.length ≠ sides.length ∨ sides.any (fun h => (c.carriageOf h).isNone) then c.setCmd { m with stage := .waiting }
  else
    let (e, c) := c.sight (c.mayRead m far [(m.slotAddr, m.slotLen)]) o
    match e.lost with
    | some a => (c.leaveSlot s m.id).complete (m.endAt a 4) 0
    | none => match c.reach m m.slotAddr m.slotLen far with
    | .error e => c.stopPublish m e
    | .ok bs =>
      let bs := if e.wrong then c.freeBytes m.slotLen else bs
      let c := c.touches m [(m.slotAddr, m.slotLen)]
      let c := bufs.foldl (fun c p => match c.slotBuf s p.1 p.2 with
        | some b => (c.store b bs).carriageWrote p.1 bs.length
        | none => c) { c with freeCnt := c.freeCnt + b2n (e.wrong || inWindow m.slotAddr) }
      let at' (h : Half) := (bufs.find? fun p => p.1 == h).map (·.2)
      (c.setSlot s { c.slot s with writing := ⟨at' .H, at' .T⟩ }).setCmd { m with stage := .running, bytes := m.slotLen }

/-- The chip after a publication reaches its slot (R260, R261). -/
def Chip.publish (c : Chip) (m : Cmd) (far : Far) (o : Seen) : Chip :=
  let s := m.slotNo
  if ¬ c.on (F.SLOT_CFG_VALID s) ∨ c.q (F.SLOT_OWNER_PRODUCER s) ≠ m.owner.toNat then
    (c.failCmd m 0).evCmd m.half 0x0420 m [s, m.owner.toNat, 1]
  else if m.slotLen = 0 ∨ c.slotBytes s < m.slotLen then c.failCmd m 0
  else
    let x := c.slot s
    let c := if x.queue.contains m.id then c else c.setSlot s { x with queue := x.queue ++ [m.id] }
    if (c.slot s).queue.head? = some m.id then c.copyResult m far o else c.setCmd { m with stage := .waiting }

/-- A slot command that may act: dispatched and free to start, or waiting at its slot. -/
def Chip.slotCmd (c : Chip) (id : CmdId) (op : Nat) : Option Cmd :=
  match c.takeable id (· == op) with
  | some m => some m
  | none => c.cmds.find? fun m => m.id == id && m.opcode == op && m.stage == .waiting

/-- SLOT_PUBLISH (R260, steps 1 and 2): a publication reaches its slot, or goes on there once the slot is free; `o` is what
its reads of the result show. -/
def execSlotPublish (id : CmdId) (far : Far) (s : State) (o : Seen := []) : Host.Outcome State Fault Refusal :=
  match s.chip.slotCmd id 0x60 with
  | some m => s.go (s.chip.publish m far o)
  | none => s.go s.chip

/-- The roughing slot of a half: homed there, mirrored, published by the roughing partition (R337). -/
def Chip.roughSlot (c : Chip) (h : Half) : Option Nat :=
  match c.roughPart with
  | none => none
  | some p => (List.range 512).find? fun s => c.on (F.SLOT_CFG_VALID s) && c.on (F.SLOT_CFG_MIRROR s) && c.slotHome s == h &&
      bits (c.q (F.SLOT_OWNER_PRODUCER s)) 8 4 == p

/-- The half whose clock a slot's ages and publications are told by: its first set's while that is in service, else the other (R262,
R330, R333). -/
def Chip.slotClock (c : Chip) (s : Nat) : Half := if c.down.get (c.slotHome s) then (c.slotHome s).other else c.slotHome s

/-- The chip after a publication bumps its slot (R260 steps 3 to 6, R321, R333, R334). -/
def Chip.bump (c : Chip) (m : Cmd) : Chip :=
  let s := m.slotNo
  let h := c.slotClock s
  let x := c.slot s
  let now := c.stamp h 0
  let origin := if m.word 3 = 0 then now else m.word 3
  let late := decide ((c.q (F.SLOT_AGE_LIMIT_US s) * usUnits : Nat) < elapsed now origin)
  let doubtful := bit (m.word 2) 40 || c.on (F.SLOT_STATE_DOUBT_LATCH s)
  let g := c.reg (Reg.SLOT_GEN s)
  let gen := if g = 0xFFFFFFFF then 1 else g + 1
  let cur : Pair Nat := ⟨x.writing.h.getD x.cur.h, x.writing.t.getD x.cur.t⟩
  let c := c.setSlot s ⟨m.slotLen, origin, cur, ⟨x.writing.h.isSome, x.writing.t.isSome⟩, x.queue.tail, ⟨none, none⟩, false⟩
  let c := (c.setReg (Reg.SLOT_GEN s) gen).put (F.SLOT_STATE_CURBUF s) (cur.get (c.slotHome s))
  let c := (c.put (F.SLOT_STATE_CUR_DOUBTFUL s) (b2n doubtful)).put (F.SLOT_STATE_CUR_LATE s) (b2n late)
  let c := c.put (F.SLOT_STATE_DOUBT_LATCH s) 0
  let c := if c.on (F.SLOT_STATE_SWITCHED s) then (if doubtful || late then c.put (F.SLOT_STATE_GOOD s) 0 else c.inc (F.SLOT_STATE_GOOD s)) else c
  let c := { c with boosts := c.boosts.filter (· != s) }
  let c := if late then c.evCmd h 0x0713 m [s, gen, (elapsed now origin).toNat / usUnits] else c
  let c := if c.on (F.SLOT_DOWEL_VALID s) then c.signal 0 (c.q (F.SLOT_DOWEL_DOWEL s)) 1 1 else c
  c.completeWith { m with late := m.late || late } false gen 0

/-- SLOT_BUMP (R260, steps 3 to 6): the copied result becomes current and the publication completes. The first
roughing publication of a half is a milestone of its start (R491). -/
def execSlotBump (id : CmdId) (s : State) : Host.Outcome State Fault Refusal :=
  match s.chip.cmd? id with
  | some m => if m.opcode = 0x60 ∧ m.stage = .running then
      let h := s.chip.slotHome m.slotNo
      let c := s.chip.bump m
      s.go (if c.roughSlot h = some m.slotNo then c.milestone h 8 else c)
    else s.go s.chip
  | none => s.go s.chip

/-! ### Reading (R263, R264, R332) -/

/-- A party may read a slot: firmware, or a reader partition of the producer's world. -/
def Chip.slotReader (c : Chip) (o : Owner) (s : Nat) : Bool :=
  c.on (F.SLOT_CFG_VALID s) && (o == 0 || (bit (c.q (F.SLOT_OWNER_READERS s)) o.part && bit (c.q (F.SLOT_OWNER_PRODUCER s)) 12 == o.world))

/-- The `detail` of a slot read. -/
def slotDetail (n s origin : Nat) : Nat := n % 2 ^ 32 + s % 512 * 2 ^ 32 + compact origin % 2 ^ 23 * 2 ^ 41

/-- The chip after a read takes and pins the current buffer of the slot that serves it, or completes empty (R263, R331). -/
def Chip.slotRead (c : Chip) (m : Cmd) : Chip :=
  let s := m.slotNo
  if ¬ c.slotReader m.owner s then (c.failCmd m 0).evCmd m.half 0x0421 m [s, m.owner.toNat]
  else
    let v := c.serve m.half s
    let c := if c.on (F.SLOT_STATE_SWITCHED s) then c.put (F.SLOT_STATE_SERVING_ALT2 s) (b2n v.alt2) else c
    let c := if v.none then c.noAlternate m.half s else c
    let x := c.slot v.slot
    match c.slotEmpty v.slot, c.slotSide m.half v.slot with
    | false, some h =>
      let n := min x.len (alignDown (m.fld 2 0 32) 64)
      let m := { m with
        stage := .running, doubt := m.doubt || c.on (F.SLOT_STATE_CUR_DOUBTFUL v.slot), late := m.late || c.slotOld m.half v.slot,
        n := n, aux := [v.slot, h.idx, x.cur.get h, c.reg (Reg.SLOT_GEN v.slot), x.origin, b2n v.alt] }
      ({ c with pins := Pin.mk v.slot h (x.cur.get h) m.id :: c.pins }).setCmd m
    | _, _ => c.completeWith { m with empty := true } v.alt 0 (slotDetail 0 v.slot (if c.slotEmpty v.slot then 0 else x.origin))

/-- SLOT_READ (R263, step 1), in its turn (R285). -/
def execSlotRead (id : CmdId) (s : State) : Host.Outcome State Fault Refusal :=
  match s.chip.takeable id (· == 0x61) with
  | some m => s.go (if s.chip.behind m (· == 0x61) (fun e => e.half == m.half) then s.chip else s.chip.slotRead m)
  | none => s.go s.chip

/-- The bytes of a copy before the first that may not be written: they stay written (R226, R567). -/
def Chip.placeUpTo (c : Chip) (a : Nat) (bs : List Byte) (e : Nat × Nat) : Chip :=
  if inWindow a ∨ e.1 ≤ a then c else c.store a (bs.take (e.1 - a))

/-- The chip after a read copies its result out with a Carriage of the half that holds the buffer, unpins the buffer and completes
(R263 steps 2 to 4, R567); where no such Carriage is in service it waits. -/
def Chip.slotReadDone (c : Chip) (m : Cmd) (far : Far) (o : Seen) : Chip :=
  let k (i : Nat) := m.aux.getD i 0
  let h := Half.ofIdx (k 1)
  if (c.carriageOf h).isNone then c
  else
    let c := { c with pins := c.pins.filter fun p => p.id != m.id }
    match c.slotBuf (k 0) h (k 2) with
    | none => c.failReach m (0, causeLost)
    | some a =>
      let old := c.poisoned a m.n
      let (e, c) := c.sight (if old.isSome then [] else [(a, m.n)]) o
      match e.lost, old with
      | some u, _ => c.complete (m.endAt u 4) 0
      | none, some u => c.failReach m (u, 4)
      | none, none =>
        let bs := if e.wrong then c.freeBytes m.n else c.load a m.n
        let c := { c with freeCnt := c.freeCnt + b2n e.wrong }
        match c.place m m.slotAddr bs far with
        | .error e => (c.placeUpTo m.slotAddr bs e).failReach m e
        | .ok c => ((c.carriageWrote h m.n).touches m [(m.slotAddr, m.n)]).completeWith m (k 5 == 1) (k 3) (slotDetail m.n (k 0) (k 4))

/-- SLOT_READ_COPY_DONE (R263, steps 2 to 4); `o` is what the reads of the buffer show. -/
def execSlotReadCopyDone (id : CmdId) (far : Far) (s : State) (o : Seen := []) : Host.Outcome State Fault Refusal :=
  match s.chip.cmd? id with
  | some m => if m.opcode = 0x61 ∧ m.stage = .running then s.go (s.chip.slotReadDone m far o) else s.go s.chip
  | none => s.go s.chip

/-- The chip after the doubt latches of a producer are set: a compared command of it completed with DONE_DOUBTFUL (R321). -/
def Chip.latchDoubt (c : Chip) (o : Owner) : Chip :=
  (List.range 512).foldl (fun c s =>
    if c.on (F.SLOT_CFG_VALID s) ∧ c.on (F.SLOT_CFG_AUTODOUBT s) ∧ c.q (F.SLOT_OWNER_PRODUCER s) = o.toNat
    then c.put (F.SLOT_STATE_DOUBT_LATCH s) 1 else c) c

/-- What an engine finds when it reads a slot: nothing published; a result whose data cannot be corrected; or the slot that served, its
generation and the bytes. -/
inductive SlotGot where
  | empty
  | lost
  | bytes (slot gen : Nat) (bs : List Byte)
deriving Repr

/-- The buffer that an engine of a half reads of a slot, and its length: of the slot that serves it (R265, R331). -/
def Chip.engineBuf (c : Chip) (h : Half) (s n : Nat) : Option (Nat × Nat × Nat) :=
  let v := (c.serve h s).slot
  match c.slotEmpty v, c.slotSide h v with
  | false, some side =>
    let x := c.slot v
    (c.slotBuf v side (x.cur.get side)).map fun b => (v, b, min n x.len)
  | _, _ => none

/-- What an engine of a half reads from a slot in one step, and the chip after it: 0x0712 where no alternate is usable, what the reads
of the buffer show, the event of a poisoned unit (R210, R230, R265, R331). -/
def Chip.engineRead (c : Chip) (h : Half) (s n : Nat) (o : Seen := []) : SlotGot × Chip :=
  let c := if (c.serve h s).none then c.noAlternate h s else c
  match c.engineBuf h s n with
  | none => (.empty, c)
  | some (v, a, len) => match c.poisoned a len with
    | some u => (.lost, c.refusalEvent h none 0 u 4 0x60)
    | none =>
      let (e, c) := c.sight [(a, len)] o
      if e.lost.isSome then (.lost, c)
      else (.bytes v (c.reg (Reg.SLOT_GEN v)) (if e.wrong then c.freeBytes len else c.load a len), { c with freeCnt := c.freeCnt + b2n e.wrong })

/-- A half's roughing slot is usable (R331, R345). -/
def Chip.roughOk (c : Chip) (h : Half) : Bool :=
  match c.roughSlot h with
  | some s => c.altState h true s == 1
  | none => false

end Sys2Proof.Machine
end

