-- ==== Sys2Proof/Machine/Array.lean ====
section
/-! DEFINITION. Matrix arrays (R75–R108) and the window command (R141–R148): taking a command, loading a tile, streaming
vectors, draining rows, completing, remapping and retiring. -/

namespace Sys2Proof.Machine

/-- Address of an operand-area offset; offsets wrap at 8 MiB (R79). -/
def operand (a off : Nat) : Nat := arrayStore a + off % 0x800000
/-- Address of an accumulator; row indices wrap modulo 2,048 (R79). -/
def accAddr (a row j : Nat) : Nat := arrayStore a + 0x800000 + row % 2048 * 2048 + 4 * j

/-! ### Fields of the descriptors (R88, R89, R141, R142) -/

def Cmd.hasLoad (m : Cmd) : Bool := bit (m.word 1) 0
def Cmd.hasStream (m : Cmd) : Bool := bit (m.word 1) 1
def Cmd.hasDrain (m : Cmd) : Bool := bit (m.word 1) 2
def Cmd.pcs (m : Cmd) : Bool := bit (m.word 1) 3
def Cmd.accMode (m : Cmd) : Nat := m.fld 1 4 2
def Cmd.act (m : Cmd) : Nat := m.fld 1 6 2
def Cmd.kRows (m : Cmd) : Nat := m.fld 1 8 7 + 1
def Cmd.nCols (m : Cmd) : Nat := m.fld 1 16 9 + 1
def Cmd.accRow (m : Cmd) : Nat := m.fld 1 48 11
def Cmd.fmtA (m : Cmd) : Nat := m.fld 2 56 4
def Cmd.fmtB (m : Cmd) : Nat := m.fld 2 60 4
def Cmd.aPitch (m : Cmd) : Nat := m.fld 2 23 9
def Cmd.aOff (m : Cmd) : Nat := alignDown (m.fld 2 0 23) 64
def Cmd.aScaleOff (m : Cmd) : Nat := alignDown (m.fld 2 32 23) 16
def Cmd.bOff (m : Cmd) : Nat := alignDown (m.fld 3 0 23) 64
def Cmd.bScaleOff (m : Cmd) : Nat := alignDown (m.fld 3 32 23) 16
def Cmd.outOff (m : Cmd) : Nat := alignDown (m.fld 4 32 23) 64
def Cmd.colvOff (m : Cmd) : Nat := alignDown (m.fld 4 0 23) 64
def Cmd.outScaleOff (m : Cmd) : Nat := alignDown (m.fld 5 32 23) 16
def Cmd.cvt (m : Cmd) : Nat := m.fld 5 24 8
def Cmd.outPitch (m : Cmd) : Nat := m.fld 5 0 9
/-- Both operands integer (R62). -/
def Cmd.intPair (m : Cmd) : Bool := codeInt m.fmtA && codeInt m.fmtB
/-- Elements of an output row: whole blocks in an MX format (R86, R94). -/
def Cmd.outCols (m : Cmd) : Nat := if codeMx (cvtFmt m.cvt) then (m.nCols + 31) / 32 * 32 else m.nCols
/-- SR is carried out: class C or D, outside partition 0 (R57). -/
def Cmd.srAllowed (m : Cmd) : Bool := m.owner.part != 0 && decide (2 ≤ m.cls)

/-- The window record of a window command: its sixteen words (R142). -/
def Chip.winRec (c : Chip) (a : Nat) (m : Cmd) : List Nat :=
  (List.range 16).map fun k => c.loadN (operand a (alignDown (m.fld 2 32 23) 64 + 4 * k)) 4

/-- A window record's fields as the gather uses them. -/
structure Win where
  inH : Nat
  inW : Nat
  rowsHeld : Nat
  inY0 : Nat
  inPlane : Nat
  inRow : Nat
  kh : Nat
  kw : Nat
  sh : Nat
  sw : Nat
  dh : Nat
  dw : Nat
  padT : Nat
  padB : Nat
  padL : Nat
  padR : Nat
  subY0 : Nat
  subX0 : Nat
  subH : Nat
  subW : Nat
  t0 : Nat
  oy0 : Nat
  ox0 : Nat
  oyN : Nat
  oxN : Nat
  outPlane : Nat
  outRow : Nat
  padVal : Nat
deriving DecidableEq, Repr

/-- Reads the fields of a window record for elements of `e` bytes; bits below a stated multiple are ignored (R142, R566). -/
def Win.ofWords (e : Nat) (w : List Nat) : Win :=
  let g (k lo n : Nat) := bits (w.getD k 0) lo n
  { inH := g 0 16 16, inW := g 0 0 16, rowsHeld := g 1 16 16, inY0 := g 1 0 16, inPlane := alignDown (g 2 0 23) 64,
    inRow := alignDown (g 3 0 23) (max e 1), kh := g 4 27 5, kw := g 4 22 5, sh := g 4 18 4, sw := g 4 14 4, dh := g 4 10 4, dw := g 4 6 4,
    padT := g 5 24 8, padB := g 5 16 8, padL := g 5 8 8, padR := g 5 0 8, subY0 := g 6 27 5, subX0 := g 6 22 5,
    subH := g 6 18 4, subW := g 6 14 4, t0 := g 7 0 20, oy0 := g 8 16 16, ox0 := g 8 0 16, oyN := g 9 16 16,
    oxN := g 9 0 16, outPlane := alignDown (g 10 0 23) 64, outRow := g 11 0 23, padVal := g 12 0 16 }

/-- The fields lie in their stated ranges (R142). -/
def Win.inRange (w : Win) : Bool :=
  let one8 (v : Nat) := decide (1 ≤ v ∧ v ≤ 8)
  decide (1 ≤ w.inH ∧ 1 ≤ w.inW ∧ 1 ≤ w.kh ∧ 1 ≤ w.kw) && one8 w.sh && one8 w.sw && one8 w.dh && one8 w.dw &&
    decide (w.subY0 ≤ 30 ∧ w.subX0 ≤ 30 ∧ 1 ≤ w.subH ∧ w.subH ≤ 11 ∧ 1 ≤ w.subW ∧ w.subW ≤ 11 ∧
      w.subY0 + w.subH ≤ w.kh ∧ w.subX0 + w.subW ≤ w.kw)

/-- One dimension of the output size (R144). -/
def outSize (inN p0 p1 d k s : Nat) : Nat :=
  if inN + p0 + p1 < d * (k - 1) + 1 then 0 else (inN + p0 + p1 - d * (k - 1) - 1) / max s 1 + 1

/-- Rows and columns of the clipped output region (R144). -/
def Win.region (w : Win) : Nat × Nat :=
  let ho := outSize w.inH w.padT w.padB w.dh w.kh w.sh
  let wo := outSize w.inW w.padL w.padR w.dw w.kw w.sw
  (min (w.oy0 + w.oyN) ho - w.oy0, min (w.ox0 + w.oxN) wo - w.ox0)

/-- The output position of vector `v`, in row-major order. -/
def Win.position (w : Win) (v : Nat) : Nat × Nat := (w.oy0 + v / max w.region.2 1, w.ox0 + v % max w.region.2 1)

/-- The operand-area offset of element `k` of the vector at an output position, none where it is padding (R143). -/
def Win.tap (w : Win) (xOff e k oy ox : Nat) : Option Nat :=
  let t := w.t0 + k
  let per := max (w.subH * w.subW) 1
  let ch := t / per
  let r := t % per
  let y : Int := oy * w.sh + (w.subY0 + r / max w.subW 1) * w.dh - w.padT
  let x : Int := ox * w.sw + (w.subX0 + r % max w.subW 1) * w.dw - w.padL
  if 0 ≤ y ∧ y < w.inH ∧ 0 ≤ x ∧ x < w.inW then
    some ((xOff + ch * w.inPlane + x.toNat * e + unsgn 23 ((y - w.inY0) * w.inRow)) % 0x800000)
  else none

/-- The image rows that the gather reads for `rows` active taps are all held (R142, R143). -/
def Win.rowsCovered (w : Win) (rows : Nat) : Bool :=
  let per := max (w.subH * w.subW) 1
  let kys := ((List.range rows).map fun k => (w.t0 + k) % per / max w.subW 1).dedup
  let ys : List Int := (List.range w.region.1).flatMap fun i => kys.map fun r =>
    ((w.oy0 + i) * w.sh + (w.subY0 + r) * w.dh : Nat) - (w.padT : Int)
  ys.all fun y => decide (y < 0 ∨ (w.inH : Int) ≤ y ∨ ((w.inY0 : Int) ≤ y ∧ y < w.inY0 + w.rowsHeld))

/-- Bytes of one output row's window-buffer fill: L × s (R147). -/
def Win.fillBytes (w : Win) (e rows : Nat) : Nat :=
  let pairs := ((List.range rows).map fun k => (w.t0 + k) / max w.subW 1).dedup
  let lo := max 0 ((w.ox0 * w.sw + w.subX0 * w.dw : Nat) - (w.padL : Int))
  let hi := min ((w.inW : Int) - 1) (((w.ox0 + w.region.2 - 1) * w.sw + (w.subX0 + w.subW - 1) * w.dw : Nat) - (w.padL : Int))
  pairs.length * ((hi - lo + 1).toNat * e)

/-- The window command's record, read anew by each step that uses it: at the taking, at each vector and at each drained row, so an
output that overlaps it moves later positions. DESIGN CHOICE, unsafe: log 152. -/
def Chip.win (c : Chip) (a : Nat) (m : Cmd) : Win := Win.ofWords (codeWidth m.fmtA / 8) (c.winRec a m)

/-- Vectors of a command: `N_VEC`, or the clipped count of a window command (R88, R144). -/
def Chip.vecs (c : Chip) (a : Nat) (m : Cmd) : Nat :=
  if m.opcode = 0x11 then let r := (c.win a m).region; r.1 * r.2 else m.fld 1 32 12

/-- Formats, fields or pitches give the command an unpredictable outcome (R90, R142, R144, R145, R147). -/
def Chip.isWild (c : Chip) (a : Nat) (m : Cmd) : Bool :=
  let n := c.vecs a m
  let pairOk := codeOperand m.fmtA && codeOperand m.fmtB && (codeInt m.fmtA == codeInt m.fmtB)
  let modesOk := decide (m.accMode ≠ 3 ∧ m.act < 2 ∧ n ≤ 2048)
  if m.opcode = 0x11 then
    let w := c.win a m
    !(pairOk && modesOk && w.inRange && [0, 2, 3, 4, 5].contains m.fmtA && [0, 2, 3, 4, 5, 6, 7].contains (cvtFmt m.cvt) &&
      !(m.hasStream && !(w.rowsCovered m.kRows && decide (w.fillBytes (codeWidth m.fmtA / 8) m.kRows ≤ 65536))))
  else
    !(pairOk && modesOk && codeOutput (cvtFmt m.cvt) &&
      !(m.hasStream && decide (2 ≤ n ∧ m.aPitch * 16 < codeBytes m.fmtA 128)) &&
      !(m.hasDrain && decide (2 ≤ n ∧ m.outPitch * 16 < codeBytes (cvtFmt m.cvt) m.outCols)))

/-! ### Taking a command and loading its tile -/

/-- The non-zero bytes of a range of the operand area, by offset in the range. -/
def Chip.snapshot (c : Chip) (a off n : Nat) : Tbl Byte :=
  c.mem.foldl (fun t e =>
    if arrayStore a ≤ e.1 ∧ e.1 < arrayStore a + 0x800000 then
      let o := (e.1 - arrayStore a + 0x800000 - off % 0x800000) % 0x800000
      if o < n then Tbl.ins t o e.2 else t
    else t) []

/-- The tile that a command loads (R81–R83). -/
def Chip.readTile (c : Chip) (a : Nat) (m : Cmd) : Tile :=
  { fmt := m.fmtB, rows := m.kRows, cols := m.nCols, bytes := c.snapshot a m.bOff (codeBytes m.fmtB 512 * 128),
    scales := if codeMx m.fmtB then c.snapshot a m.bScaleOff 2048 else [], wild := c.isWild a m }

/-- The array may take a command: it can serve its party, stands at no mark at which its context is to be switched, and holds the
ring's context, or none where the ring has no saved one (R102, R280, R282). -/
def Chip.arrayOpen (c : Chip) (a : Nat) (m : Cmd) : Bool :=
  let x := c.arr a
  let r := m.id.ring.val
  c.arrayFits a m.half m.owner && (if h : a < 8 then !c.atSwitch (.array ⟨a, h⟩) else true) &&
    (x.resident == some r || (x.resident == none && !c.hasArrCtx r)) && !(m.hasLoad && x.shadow.isSome)

/-- Another ready context that this array could serve comes before a command's: it is served first on open time (R272). -/
def Chip.outranked (c : Chip) (a : Nat) (m : Cmd) : Bool := c.outrankedKey a (c.serveKey m) m.owner

/-- A command without an array of its own is placed on a lower-numbered array that is open to it (R280). -/
def Chip.lowerOpen (c : Chip) (a : Nat) (m : Cmd) : Bool := (c.arr a).resident.isNone && (List.range a).any fun b => c.arrayOpen b m

/-- The chip after an array takes a command: its context becomes resident, a new one with an all-zero store (R102), its LOAD
fills the shadow tile, its other phases wait their turn (R91, R96). The load sees the operand area as it stands now, before the
drains of earlier commands that are still to come. DESIGN CHOICE, unsafe: log 150. -/
def Chip.takeArray (c : Chip) (a : Nat) (m : Cmd) : Chip :=
  let c := if (c.arr a).resident.isNone then c.zeroRange (arrayStore a) 0xC00000 else c
  let c := { c with blockedAt := Tbl.del c.blockedAt a }
  let n := c.vecs a m
  let empty := (!m.hasLoad && !m.hasStream && !m.hasDrain) || (decide (n = 0) && (m.opcode == 0x11 || m.hasStream || m.hasDrain))
  let job : ArrJob := ⟨m.id, m.hasLoad, if m.hasStream then n else 0, 0, if m.hasDrain then n else 0, 0, 0, c.isWild a m, false⟩
  let x := c.arr a
  let x := { x with
    resident := some m.id.ring.val, jobs := x.jobs ++ [job], marked := false,
    shadow := if m.hasLoad then some (m.id, c.readTile a m) else x.shadow }
  let c := (c.setArr a x).setCmd { m with stage := .running, unit := a, empty := m.empty || empty }
  (c.put (F.ARRAY_STATUS_OWNER a) m.owner.toNat).slotServed a m.owner

/-- A command would create a context beyond the save capacity of its partition (R279). -/
def Chip.arrayOver (c : Chip) (m : Cmd) : Bool :=
  !c.hasArrCtx m.id.ring.val && decide (c.q (F.SCHED_PART_SAVE_SAVE_ARR m.owner.part) ≤ c.arrCtxCount m.half m.owner.part)

/-- The chip after an array is offered a command: one beyond the save capacity completes, busy array or not (R279); another is
taken by an array open to it. -/
def Chip.offerArray (c : Chip) (a : Nat) (m : Cmd) : Chip :=
  if c.arrayOver m then (if c.arrayGranted m.owner a ∧ m.half = arrayHalf a then c.noCapacity m 0 else c)
  else if ¬ c.arrayOpen a m ∨ c.outranked a m ∨ c.lowerOpen a m then c else c.takeArray a m

/-- ARRAY_COMMAND (R91): an array takes a dispatched array command. -/
def execArrayCommand (a : Fin 8) (id : CmdId) (s : State) : Host.Outcome State Fault Refusal :=
  match s.chip.takeable id arrayOp with
  | some m => if m.opcode = 0x10 then s.go (s.chip.offerArray a.val m) else s.go s.chip
  | none => s.go s.chip

/-- WINDOW_COMMAND (R141): an array takes a dispatched window command. -/
def execWindowCommand (a : Fin 8) (id : CmdId) (s : State) : Host.Outcome State Fault Refusal :=
  match s.chip.takeable id arrayOp with
  | some m => if m.opcode = 0x11 then s.go (s.chip.offerArray a.val m) else s.go s.chip
  | none => s.go s.chip

/-! ### Accesses that nothing orders (R97) -/

/-- Two ranges of an area of `n` bytes that wraps meet; each is an offset and a length. -/
def wrapMeets (n : Nat) (x y : Nat × Nat) : Bool :=
  decide (0 < x.2 ∧ 0 < y.2 ∧ ((y.1 % n + n - x.1 % n) % n < x.2 ∨ (x.1 % n + n - y.1 % n) % n < y.2))

/-- Ranges of the operand area that the rest of a command reads on its array: its tile, its vectors, its column vectors (R81–R83, R92,
R93, R143). -/
def Chip.jobReads (c : Chip) (a : Nat) (j : ArrJob) (m : Cmd) : List (Nat × Nat) :=
  let vs := (List.range (j.vecs - j.streamed)).map (· + j.streamed)
  let tile := if j.loading then [(m.bOff, codeBytes m.fmtB 512 * m.kRows), (m.bScaleOff, if codeMx m.fmtB then 2048 else 0)] else []
  let e := codeWidth m.fmtA / 8
  let ins := if m.opcode = 0x11 then
      let w := c.win a m
      vs.flatMap fun v => (List.range m.kRows).filterMap fun k => (w.tap m.aOff e k (w.position v).1 (w.position v).2).map fun o => (o, e)
    else vs.flatMap fun v => [(m.aOff + v * m.aPitch * 16, codeBytes m.fmtA m.kRows), (m.aScaleOff + 4 * v, if codeMx m.fmtA then 4 else 0)]
  tile ++ ins ++ [(m.colvOff, if vs ≠ [] ∧ m.accMode = 2 then 2048 else 0), (m.colvOff + 2048, if j.drained < j.rows ∧ m.pcs then 2048 else 0)]

/-- Ranges of the operand area that the rest of a command writes on its array (R94, R146). -/
def Chip.jobWrites (c : Chip) (a : Nat) (j : ArrJob) (m : Cmd) : List (Nat × Nat) :=
  let ds := (List.range (j.rows - j.drained)).map (· + j.drained)
  let code := cvtFmt m.cvt
  if m.opcode = 0x11 then
    let w := c.win a m
    let e := codeWidth code / 8
    ds.flatMap fun v => (List.range m.nCols).map fun q =>
      (m.outOff + q * w.outPlane + ((w.position v).1 - w.oy0) * w.outRow + ((w.position v).2 - w.ox0) * e, e)
  else ds.flatMap fun v => [(m.outOff + v * m.outPitch * 16, codeBytes code m.outCols), (m.outScaleOff + 16 * v, if codeMx code then 16 else 0)]

/-- A transfer of `len` bytes at an offset of an array's store meets what is left of a command there, and one of the two writes. -/
def Chip.raceWith (c : Chip) (a : Nat) (write : Bool) (off len : Nat) (j : ArrJob) : Bool :=
  match c.cmd? j.id with
  | none => false
  | some m =>
    let op (r : Nat × Nat) := wrapMeets 0x800000 (off, len) r
    let acc (n : Nat) := wrapMeets 0x400000 (off - 0x800000, len) ((m.accRow + n) % 2048 * 2048, 2048)
    if off < 0x800000 then (c.jobWrites a j m).any op || (write && (c.jobReads a j m).any op)
    else (List.range (j.vecs - j.streamed)).any (fun n => acc (j.streamed + n)) || (write && (List.range (j.rows - j.drained)).any fun n => acc (j.drained + n))

/-- The chip after a Carriage's transfer of some bytes of an array's store, and whether it meets a command in progress there: no order is
kept between the two, and the outcome of both is unpredictable (R97; assumption 133). -/
def Chip.arrayRace (c : Chip) (write : Bool) (addr len : Nat) : Bool × Chip :=
  match sramUnit addr with
  | some (.inl a) =>
    let x := c.arr a
    let hit := c.raceWith a write (addr - arrayStore a) len
    (x.jobs.any hit, if x.jobs.any hit then c.setArr a { x with jobs := x.jobs.map fun j => if hit j then { j with wild := true } else j } else c)
  | _ => (false, c)

/-- The chip, at a step of an array, after its commands that a transfer in flight meets are marked unpredictable (R97). -/
def Chip.noteRaces (c : Chip) (a : Nat) : Chip :=
  c.txns.foldl (fun (c : Chip) (e : Nat × Txn) =>
    let at' (write : Bool) (addr : Nat) (c : Chip) : Chip := if sramUnit addr = some (.inl a) then (c.arrayRace write addr e.2.len).2 else c
    if e.2.write then at' true e.2.addr c else at' true e.2.dst (at' false e.2.addr c)) c

/-! ### Streaming (R77, R82–R84, R92, R98) -/

/-- The value of weight B[k][j] of a tile; inactive rows and columns hold zero (R82). -/
def Tile.weight (t : Tile) (k j : Nat) : FV :=
  if k < t.rows ∧ j < t.cols then
    let pat := unpack t.fmt (fun i => (Tbl.look 0 t.bytes (codeBytes t.fmt 512 * k + i)).toNat) j
    if codeMx t.fmt then mxValue t.fmt (Tbl.look 0 t.scales (512 * (k / 32) + j)).toNat pat else codeValue t.fmt pat
  else FV.zero

/-- The pattern of element k of vector v and the scale byte of its block (R82, R83, R143). -/
def Chip.vecPat (c : Chip) (a : Nat) (m : Cmd) (v k : Nat) : Nat × Nat :=
  if m.opcode = 0x11 then
    let w := c.win a m
    let e := codeWidth m.fmtA / 8
    let p := w.position v
    match w.tap m.aOff e k p.1 p.2 with
    | some off => (leNat ((List.range e).map fun i => c.byte (operand a (off + i))), 0)
    | none => (w.padVal % 2 ^ codeWidth m.fmtA, 0)
  else
    let base := m.aOff + v * m.aPitch * 16
    (unpack m.fmtA (fun i => (c.byte (operand a (base + i))).toNat) k,
      if codeMx m.fmtA then (c.byte (operand a (m.aScaleOff + 4 * v + k / 32))).toNat else 0)

/-- The value of an input element: its pattern under the scale of its block (R83). -/
def Cmd.element (m : Cmd) (p : Nat × Nat) : FV := if codeMx m.fmtA then mxValue m.fmtA p.2 p.1 else codeValue m.fmtA p.1

/-- The patterns of vector v: those of the active rows, for no other element enters a product (R82). -/
def Chip.vector (c : Chip) (a : Nat) (m : Cmd) (v : Nat) : List (Nat × Nat) := (List.range m.kRows).map (c.vecPat a m v)

/-- The sum Σₖ a[k]·B[k][j] over the active rows, exact. R65 has the result of an MX block exact unless it leaves the FP32
range, for which it states no value: `blockOver` tells, and the sum is then free. -/
def colSum (av : List FV) (t : Tile) (j : Nat) : FV := FV.sum (av.zipIdx.map fun p => p.1.mul (t.weight p.2 j))

/-- An accumulator's initial value c₀ (R92): for an integer pair the INT32 value, otherwise the FP32 value. -/
def Chip.accInit (c : Chip) (a : Nat) (m : Cmd) (row j : Nat) : Nat :=
  match m.accMode with
  | 0 => 0
  | 2 => c.loadN (operand a (m.colvOff + 4 * j)) 4
  | _ => c.loadN (accAddr a row j) 4

/-- A block of an MX pair gives a result outside the FP32 range (R65). -/
def blockOver (mx : Bool) (av : List FV) (t : Tile) (j : Nat) : Bool :=
  mx && (List.range 4).any fun b =>
    match FV.sum ((av.zipIdx.filter fun p => p.2 / 32 == b).map fun p => p.1.mul (t.weight p.2 j)) with
    | .fin _ m e => !FV.le (.fin false m e) (.fin false (2 ^ 24 - 1) 104)
    | _ => false

/-- What a column delivers for the exact sum `s`: itself for an integer pair, else the sum within the bound of R64. Where an MX
block of a finite sum leaves the FP32 range it is free, but no NaN, which R70 gives to sums that are NaN alone (R63–R65). -/
def delivered (int free : Bool) (draw : Nat) (s : FV) : FV :=
  if int then s
  else match free, s with
    | true, .fin _ _ _ => let v := fp32.decode (draw % 2 ^ 32); if v.isNan then f32 s else v
    | _, _ => freeSum draw s

/-- One accumulation of what a column delivers: the new pattern, and whether an INT32 accumulator saturated (R63, R64). Where
accumulator and exact sum `s` are both zero the result is their IEEE sum (R50). -/
def accumulate (int : Bool) (c0 : Nat) (s sum : FV) : Nat × Bool :=
  if int then
    let v := sgn 32 c0 + (sum.toInt .rtz).getD 0
    if 2 ^ 31 - 1 < v then (2 ^ 31 - 1, true) else if v < -(2 ^ 31) then (2 ^ 31, true) else (unsgn 32 v, false)
  else (toFp32 ((fp32.decode c0).add (if s.isZero && (fp32.decode c0).isZero then s else sum)), false)

/-- The job of an array whose next vector may enter: the first that has vectors left, once its own load is swapped in and
no earlier drain has still to read the row it writes (R91, R96). -/
def Chip.nextVector (c : Chip) (a : Nat) : Option (ArrJob × Cmd) :=
  let x := c.arr a
  if ¬ c.unitOn a then none else
  match x.jobs.find? fun j => j.streamed != j.vecs with
  | none => none
  | some j =>
    match c.cmd? j.id with
    | none => none
    | some m =>
      let row := (m.accRow + j.streamed) % 2048
      let before := x.jobs.takeWhile fun k => k.id != j.id
      let undrained := before.any fun k => match c.cmd? k.id with
        | some e => decide (k.drained < k.rows) && (List.range (k.rows - k.drained)).any fun i => (e.accRow + k.drained + i) % 2048 == row
        | none => false
      if j.loading || before.any (fun k => k.loading) || undrained then none else some (j, m)

/-- The chip with a job of an array replaced. -/
def Chip.setJob (c : Chip) (a : Nat) (j : ArrJob) : Chip :=
  c.setArr a { c.arr a with jobs := (c.arr a).jobs.map fun k => if k.id = j.id then j else k }

/-- A vector of a command through a tile has an unpredictable outcome: the command's, or that of the command that loaded the tile
(R90), or a tile loaded in another format than the command names, for which the spec states no result. -/
def ArrJob.wildThrough (j : ArrJob) (m : Cmd) (t : Tile) : Bool := j.wild || t.wild || (t.rows != 0 && t.fmt != m.fmtB)

/-- The chip after values of an array's command saturated: counted as they do (R61, R108). -/
def Chip.satCount (c : Chip) (a : Nat) (m : Cmd) (n : Nat) : Chip := (c.count (F.ARRAY_SAT_CNT_COUNT a) n).clampCmd m.id (decide (0 < n))

/-- The chip after the next vector of an array enters and its accumulator row is written; its check values, each the exact sum
rounded once to FP32 for a floating pair, go to the Calliper (R77, R84, R98, R99). What an unpredictable command writes, counts and
sends there is free (R90). -/
def Chip.enterVector (c : Chip) (a : Nat) : Chip :=
  match c.nextVector a with
  | none => c
  | some (j, m) =>
    let v := j.streamed
    let row := (m.accRow + v) % 2048
    let t := (c.arr a).active
    let inp := c.vector a m v
    let av := inp.map m.element
    let int := m.intPair
    let wild := j.wildThrough m t
    let draw (k : Nat) : Nat := (Config.freeValue (c.freeCnt + k)).toNat
    let open' (k : Nat) (x : FV) : FV := if ¬ wild then x else if int then FV.ofInt (sgn 32 (draw k % 2 ^ 32)) else fp32.decode (draw k % 2 ^ 32)
    let sums := (List.range 512).map fun k =>
      let s := colSum av t k
      (s, delivered int (blockOver (codeMx m.fmtA || codeMx t.fmt) av t k) (draw k) s)
    let accs := sums.zipIdx.map fun p =>
      if wild then (draw p.2 % 2 ^ 32, bit (draw p.2) 32) else accumulate int (c.accInit a m row p.2) p.1.1 p.1.2
    let sat := (accs.filter fun p => p.2).length
    let check (f : FV → FV) : FV :=
      let r (x : FV) : FV := if int then x else f32 x
      r (FV.sum (av.zipIdx.map fun p => (f p.1).mul (r (FV.sum ((List.range 512).map fun k => f (t.weight p.2 k))))))
    let k : Check := ⟨m.id, v, open' 512 (FV.sum (sums.map (·.2))), open' 513 (check id), open' 514 (check FV.abs), int, inp, t⟩
    let c := { c with freeCnt := if wild then c.freeCnt + 515 else if int then c.freeCnt else c.freeCnt + 512 }
    let c := c.storeRaw (accAddr a row 0) (accs.flatMap fun p => toLE 4 p.1)
    let c := (c.setJob a { j with streamed := v + 1, sat := j.sat + sat, wild := wild }).satCount a m sat
    let x := c.arr a
    c.setArr a { x with checks := x.checks ++ [k] }

/-- The `detail` of an array or window command (R95). -/
def jobDetail (a sat streamed : Nat) : Nat := min sat 0xFFFFFFFF + streamed % 4096 * 2 ^ 32 + a % 8 * 2 ^ 48

/-- The chip after a store read of an array's command meets a double-bit error: the command ends with FAULT (R106). -/
def Chip.arrayUncorrectable (c : Chip) (a off : Nat) (j : ArrJob) (m : Cmd) : Chip :=
  let c := c.arrayLost a off (some m)
  let x := c.arr a
  (c.setArr a { x with
    shadow := x.shadow.filter fun t => t.1 != j.id
    jobs := x.jobs.map fun k => if k.id = j.id then { j with loading := false, streamed := j.vecs, drained := j.rows } else k }).setCmd
    (m.endWith .fault (jobDetail a j.sat j.streamed))

/-- The chip after a step of an array reads its store: `next` is the job and the command whose step it is, `act` the step (R97, R106). -/
def Chip.storeRead (c : Chip) (a : Nat) (o : StoreObs 0xC00000) (next : Option (ArrJob × Cmd)) (act : Chip → Chip) : Chip :=
  match next, o with
  | none, _ => c
  | some _, .clean => act (c.noteRaces a)
  | some _, .corrected off row => act ((c.noteRaces a).arrayCorrected a off.val row.toNat)
  | some (j, m), .uncorrectable off _ => c.arrayUncorrectable a off.val j m

/-- The load that may be swapped in: every vector of the earlier commands has entered (R91, R96, R101). -/
def Chip.nextSwap (c : Chip) (a : Nat) : Option (ArrJob × Cmd) :=
  let x := c.arr a
  if ¬ c.unitOn a then none else
  match x.shadow with
  | none => none
  | some (id, _) =>
    if (x.jobs.takeWhile fun j => j.id != id).all fun j => j.streamed == j.vecs then
      match x.jobs.find? fun j => j.id == id, c.cmd? id with
      | some j, some m => some (j, m)
      | _, _ => none
    else none

/-- The chip after the shadow tile of an array becomes active (R91); one that an unpredictable command loaded is free (R90, R97). -/
def Chip.swap (c : Chip) (a : Nat) : Chip :=
  let x := c.arr a
  match x.shadow with
  | none => c
  | some (id, t) => c.setArr a { x with
      active := { t with wild := t.wild || x.jobs.any fun j => j.id == id && j.wild }, shadow := none,
      jobs := x.jobs.map fun j => if j.id = id then { j with loading := false } else j }

/-- SWAP (R91, R106): a finished load's tile becomes active; `o` is what the store reads of the load showed. -/
def execSwap (a : Fin 8) (s : State) (o : StoreObs 0xC00000 := .clean) : Host.Outcome State Fault Refusal :=
  if s.chip.engineHalted (.array a) then s.go s.chip
  else s.go (s.chip.storeRead a.val o (s.chip.nextSwap a.val) fun c => c.swap a.val)

/-- VECTOR_ENTRY (R77, R106): the next input vector of an array enters; `o` is what its store reads show. -/
def execVectorEntry (a : Fin 8) (o : StoreObs 0xC00000) (s : State) : Host.Outcome State Fault Refusal :=
  if s.chip.engineHalted (.array a) then s.go s.chip
  else s.go (s.chip.storeRead a.val o (s.chip.nextVector a.val) fun c => c.enterVector a.val)

/-! ### Draining (R86, R93, R94, R146) -/

/-- The value x of a drained accumulator before conversion (R93). -/
def drainValue (int pcs : Bool) (scale acc act : Nat) : FV :=
  let v := if int then FV.ofInt (sgn 32 acc) else fp32.decode acc
  let x :=
    if int && !pcs && scale == 0x3F800000 then v
    else fp32.decode (toFp32 ((fp32.decode (toFp32 v)).mul (fp32.decode scale)))
  if act = 1 ∧ FV.lt x FV.zero then FV.zero else x

/-- The job of an array whose next row may be drained: the first with rows left, once every vector of its own and of
every earlier command has been written (R101). -/
def Chip.nextDrain (c : Chip) (a : Nat) : Option (ArrJob × Cmd) :=
  let x := c.arr a
  if ¬ c.unitOn a then none else
  match x.jobs.find? fun j => j.drained != j.rows with
  | none => none
  | some j =>
    let upTo := (x.jobs.takeWhile fun k => k.id != j.id) ++ [j]
    if upTo.all fun k => k.streamed == k.vecs && !k.loading then (c.cmd? j.id).map fun m => (j, m) else none

/-- The output of a drained row that is not MX: patterns, saturated count (R93). -/
def Chip.drainRow (c : Chip) (a : Nat) (m : Cmd) (row n : Nat) : List FV :=
  (List.range n).map fun k =>
    if m.nCols ≤ k then FV.zero
    else drainValue m.intPair m.pcs (if m.pcs then c.loadN (operand a (m.colvOff + 2048 + 4 * k)) 4 else m.fld 6 0 32)
      (c.loadN (accAddr a row k) 4) m.act

/-- Stores bytes in the operand area, wrapping at its end (R79). -/
def Chip.storeOperand (c : Chip) (a off : Nat) (bs : List Byte) : Chip :=
  bs.zipIdx.foldl (fun c p => c.setByte (operand a (off + p.2)) p.1) c

/-- The chip after the next accumulator row of an array is converted and written (R86, R93, R94, R146). -/
def Chip.drain (c : Chip) (a : Nat) : Chip :=
  match c.nextDrain a with
  | none => c
  | some (j, m) =>
    let v := j.drained
    let row := (m.accRow + v) % 2048
    let code := cvtFmt m.cvt
    let mode (k : Nat) := cvtRm m.cvt m.srAllowed (Config.freeValue (c.freeCnt + k)).toNat
    let draws := if j.wild || m.cvt % 4 == 3 then 512 else 0
    let wildPat (k : Nat) := (Config.freeValue (c.freeCnt + k)).toNat
    let mxBlocks := (List.range ((m.nCols + 31) / 32)).map fun b =>
      if j.wild then (wildPat b % 256, (List.range 32).map fun i => wildPat (32 * b + i) % 2 ^ codeWidth code, bit (wildPat b) 32) else mxConvert code (fun i => mode (32 * b + i)) (((c.drainRow a m row 512).drop (32 * b)).take 32)
    let plain := (c.drainRow a m row m.nCols).zipIdx.map fun p =>
      if j.wild then (wildPat p.2 % 2 ^ codeWidth code, bit (wildPat p.2) 32) else convert code (cvtSat m.cvt) (mode p.2) p.1
    let sat := if codeMx code then (mxBlocks.filter fun b => b.2.2).length else (plain.filter fun p => p.2).length
    let c' :=
      if m.opcode = 0x11 then
        let w := c.win a m
        let p := w.position v
        let e := codeWidth code / 8
        plain.zipIdx.foldl (fun c q =>
          c.storeOperand a (m.outOff + q.2 * w.outPlane + (p.1 - w.oy0) * w.outRow + (p.2 - w.ox0) * e) (toLE e q.1.1)) c
      else
        let off := m.outOff + v * m.outPitch * 16
        if codeMx code then
          let c := c.storeOperand a off (packElems code (mxBlocks.flatMap fun b => b.2.1))
          c.storeOperand a (m.outScaleOff + 16 * v) (mxBlocks.map fun b => BitVec.ofNat 8 b.1)
        else c.storeOperand a off (packElems code (plain.map (·.1)))
    let c' := { c' with freeCnt := c'.freeCnt + draws }
    (c'.setJob a { j with drained := v + 1, sat := j.sat + sat }).satCount a m sat

/-- DRAIN_ROW (R93, R106): the drain of an array converts one accumulator row; `o` is what its store reads show. -/
def execDrainRow (a : Fin 8) (o : StoreObs 0xC00000) (s : State) : Host.Outcome State Fault Refusal :=
  if s.chip.engineHalted (.array a) then s.go s.chip
  else s.go (s.chip.storeRead a.val o (s.chip.nextDrain a.val) fun c => c.drain a.val)

/-- The phases that are active on an array: load, stream, drain (R91, R108, `ARRAY_STATUS`). -/
def ArrSt.phases (x : ArrSt) : Bool × Bool × Bool :=
  let upTo (j : ArrJob) := (x.jobs.takeWhile fun k => k.id != j.id) ++ [j]
  (x.jobs.any fun j => j.loading,
    match x.jobs.find? fun j => j.streamed != j.vecs with
    | some j => !(upTo j).any fun k => k.loading
    | none => false,
    match x.jobs.find? fun j => j.drained != j.rows with
    | some j => (upTo j).all fun k => k.streamed == k.vecs && !k.loading
    | none => false)

/-! ### Completion, retirement, remap (R95, R101, R104, R105, R108) -/

/-- The job of a command is finished: loaded, streamed, drained, and its check values compared (R101). -/
def Chip.jobDone (c : Chip) (a : Nat) (id : CmdId) : Option (ArrJob × Cmd) :=
  let x := c.arr a
  match x.jobs.find? fun j => j.id == id, c.cmd? id with
  | some j, some m =>
    if !j.loading && j.streamed == j.vecs && j.drained == j.rows && !(x.checks.any fun k => k.id == id) then some (j, m) else none
  | _, _ => none

/-- The chip with the roughing reservation of a retired array moved to the lowest-numbered other array of its half that is granted
to the roughing partition (R324). -/
def Chip.moveRough (c : Chip) (a : Nat) : Chip :=
  let h := arrayHalf a
  match c.roughPart with
  | some p => if c.roughArray a then
      { c with roughMoved := c.roughMoved.set h ((List.range 8).find? fun b => b != a && arrayHalf b == h && c.arrayInService b && bit (c.q (F.SCHED_PART_CFG_ARRAYS p)) b) }
    else c
  | none => c

/-- The chip after an array retires: out of service, its reserve counted, the event raised (R105, R323; cause 0 a write
of `ARRAY_RETIRE`, 1 spare rows or 2 spare columns used up, 3 the Calliper). A context resident on it is saved at full
level (R324). -/
def Chip.retireArray (c : Chip) (a cause : Nat) : Chip :=
  if c.on (F.ARRAY_STATUS_RETIRED a) then c
  else
    let c := c.setArr a { c.arr a with retiring := none }
    let c := ((c.put (F.ARRAY_STATUS_RETIRED a) 1).put (F.ARRAY_RETIRE_RETIRE a) 1).ev (arrayHalf a) 0x0103 [a, cause]
    let c := (c.unitRetired (arrayHalf a) 8 a cause).moveRough a
    let x := c.arr a
    if x.resident.isSome then (c.setArr a { x with sw := ⟨false, 0, some true, 0⟩ }).put (F.ARRAY_STATUS_SAVE_RESTORE a) 1 else c

/-- The chip after an array that is to retire does so, once no command is in progress on it (R108, R323). -/
def Chip.retireDue (c : Chip) (a : Nat) : Chip :=
  match (c.arr a).retiring with
  | some k => if (c.arr a).jobs.isEmpty then c.retireArray a k else c
  | none => c

/-- The chip after an array or window command completes (R95, R101); the status and the `detail` of an unpredictable one are free
(R90). `ARRAY_CMD_CNT` counts the commands that end here, among them those ended with FAULT, and none that leaves the array ABANDONED
or is turned away with NO_ROOM. DESIGN CHOICE, unsafe: log 149. -/
def Chip.finishArray (c : Chip) (a : Nat) (j : ArrJob) (m : Cmd) : Chip :=
  let x := c.arr a
  let c := c.setArr a { x with jobs := x.jobs.filter fun k => k.id != j.id }
  let c := c.countPair (Reg.ARRAY_CMD_CNT_LO a) (Reg.ARRAY_CMD_CNT_HI a) 1
  let (m, c) :=
    if j.wild then
      let (st, c) := c.draw
      let (d, c) := c.draw
      ({ m with ended := some (st % 256, d), clamped := bit st 8 }, c)
    else ({ m with clamped := m.clamped || decide (0 < j.sat) }, c)
  let doubtful := decide (m.status = Status.doneDoubtful.code)
  let c := c.complete m (jobDetail a j.sat j.streamed)
  (if doubtful then c.latchDoubt m.owner else c).retireDue a

/-- The chip after the context resident on an array is gone, its store zero; a retirement that waited for its commands takes effect
(R102, R108, R309). -/
def Chip.dropArray (c : Chip) (a : Nat) : Chip :=
  let c := (c.zeroRange (arrayStore a) 0xC00000).setArr a (c.arr a).emptied
  ((c.put (F.ARRAY_STATUS_OWNER a) 0).put (F.ARRAY_STATUS_SAVE_RESTORE a) 0).retireDue a

/-- The chip after a withdrawn command has stopped on its array: it leaves flight, and the last takes the context with it (R241). -/
def Chip.leaveArray (c : Chip) (a : Nat) (m : Cmd) : Chip :=
  let x := c.arr a
  let c := (c.setArr a { x with jobs := x.jobs.filter fun j => j.id != m.id }).leave m
  if (c.arr a).jobs.isEmpty then c.dropArray a else c

/-- ARRAY_COMPLETION (R101): a finished command of an array posts its completion; one that a reset has withdrawn and that has stopped
leaves flight without (R241). -/
def execArrayCompletion (a : Fin 8) (id : CmdId) (s : State) : Host.Outcome State Fault Refusal :=
  match s.chip.jobDone a.val id with
  | some (j, m) => s.go (if m.stage = .withdrawn then s.chip.leaveArray a.val m else s.chip.finishArray a.val j m)
  | none => s.go s.chip

/-- ARRAY_RETIRE (R108): a write of 1 to `ARRAY_RETIRE` by an initiator that reaches the page. -/
def execArrayRetire (i : Initiator) (a : Fin 8) (s : State) : Host.Outcome State Fault Refusal :=
  let c := s.chip
  match c.portCause i true (Reg.ARRAY_RETIRE a.val) with
  | 0 =>
    if c.on (F.ARRAY_STATUS_RETIRED a.val) ∨ c.down.get (arrayHalf a.val) then s.go c
    else
      let c := c.put (F.ARRAY_RETIRE_RETIRE a.val) 1
      if (c.arr a.val).jobs = [] then s.go (c.retireArray a.val 0)
      else s.go (c.setArr a.val { c.arr a.val with retiring := some ((c.arr a.val).retiring.getD 0) })
  | k => s.go (c.refusalEvent (arrayHalf a.val) none i.owner (Reg.ARRAY_RETIRE a.val) k i.port)

/-- The lowest free spare row or column of an array, by its place in the map registers (R104, R532). -/
def Chip.freeRow (c : Chip) (a : Nat) : Option Nat := (List.range 4).find? fun n => !c.on (F.ARRAY_ROWMAP_VALID a n)
def Chip.freeCol (c : Chip) (a : Nat) : Option Nat := (List.range 6).find? fun n => !c.on (F.ARRAY_COLMAP_VALID a n)

/-- A spare row or column of an array is free beside those that the remaps still to be made will take (R104, R323). -/
def Chip.lineLeft (c : Chip) (a : Nat) (isRow : Bool) : Bool :=
  let free := if isRow then (List.range 4).filter fun n => !c.on (F.ARRAY_ROWMAP_VALID a n) else (List.range 6).filter fun n => !c.on (F.ARRAY_COLMAP_VALID a n)
  decide (((c.arr a).remaps.filter fun r => r.isRow == isRow).length < free.length)

/-- The chip after a lasting fault of a data row, data column or check column is moved to a spare, or retires the array
when no spare is free (R104, R105, R107). Event 0x0102 gives 0 for rows and 1 for columns, for which R107 has no code (DESIGN
CHOICE, unsafe: log 148). Where the line stood on a spare that failed, the next spare takes it and the entry of
the failed one stays as it is (DESIGN CHOICE, assumption 125: R105 and R108 do not say what becomes of that entry). -/
def Chip.remapLine (c : Chip) (a : Nat) (isRow : Bool) (line : Nat) : Chip :=
  let h := arrayHalf a
  if isRow then
    match c.freeRow a with
    | none => c.retireArray a 1
    | some n =>
      let c := c.setReg (Reg.ARRAY_ROWMAP a n) (2 ^ 31 + line % 128)
      let c := (c.dec (F.ARRAY_SPARES_ROWS_FREE a)).ev h 0x0100 [a, line % 128, n]
      let c := c.spareTaken h 0 a n (n + 1)
      if n = 3 then c.ev h 0x0102 [a, 0] else c
  else
    match c.freeCol a with
    | none => c.retireArray a 2
    | some n =>
      let c := c.setReg (Reg.ARRAY_COLMAP a n) (2 ^ 31 + line % 1024)
      let c := (c.dec (F.ARRAY_SPARES_COLS_FREE a)).ev h 0x0101 [a, line % 1024, n]
      let c := c.spareTaken h 1 a n (n + 1)
      if n = 5 then c.ev h 0x0102 [a, 1] else c

end Sys2Proof.Machine
end

