-- ==== Sys2Proof/Machine/Dowels.lean ====
section
/-! DEFINITION. Dowels: waiting, signalling and the dowel slot's registers (R247, R252–R258). -/

namespace Sys2Proof.Machine

/-- DOWEL_WAIT (R247): the command completes, or holds its ring with a wait; on a dowel of a half that is DOWN it is abandoned (R362). -/
def execDowelWait (id : CmdId) (s : State) : Host.Outcome State Fault Refusal :=
  match s.chip.takeable id (· == 0x01) with
  | none => s.go s.chip
  | some m =>
    let d := m.fld 1 0 14
    let target := m.word 2
    if s.chip.down.get (dowelHalf d) then s.go (s.chip.complete (m.endWith .abandoned 0) 0)
    else if ¬ s.chip.dowelRead m.owner d then s.go ((s.chip.failCmd m d).dowelRefused m.owner d 1 (some m.id.ring.val))
    else if target ≤ s.chip.dowel d then s.go (s.chip.complete m 0)
    else s.go ((s.chip.setCmd { m with stage := .waiting }).makeWait m.owner d target (.cmd id) (some m.id.ring.val))

/-- DOWEL_SIGNAL (R247); on a dowel of a half that is DOWN it is abandoned (R362). -/
def execDowelSignal (id : CmdId) (s : State) : Host.Outcome State Fault Refusal :=
  match s.chip.takeable id (· == 0x02) with
  | none => s.go s.chip
  | some m =>
    let d := m.fld 1 0 14
    let op := m.fld 1 62 2
    if 2 ≤ op then s.go (s.chip.failCmd m d)
    else if s.chip.down.get (dowelHalf d) then s.go (s.chip.complete (m.endWith .abandoned 0) 0)
    else if ¬ s.chip.dowelSignal m.owner d then s.go ((s.chip.failCmd m d).dowelRefused m.owner d 3 (some m.id.ring.val))
    else s.go ((s.chip.signal m.owner d op (m.word 2) (some m.id.ring.val)).complete m 0)

/-- The chip after a satisfied wait resumes its waiter (R254, R258). -/
def Chip.resume (c : Chip) (w : Wait) : Chip :=
  let c := c.dropWait w.dowel w.who
  match w.who with
  | .cmd id => match c.cmd? id with
    | some m => c.complete m 0
    | none => c
  | .core b k => c.resumeCore b.val k.val
  | .notify => (c.put (F.DOWEL_ATTR_NOTIFY_ARMED w.dowel) 0).evOf (dowelHalf w.dowel) 0x0410 w.owner [w.dowel, c.dowel w.dowel]

/-- WAIT_SATISFIED (R254): a waiter that holds a hardware wait resumes once its dowel holds at least its target. -/
def execWaitSatisfied (d : Fin 16384) (who : Waiter) (s : State) : Host.Outcome State Fault Refusal :=
  match s.chip.wait? d.val who with
  | some w => if w.hw ∧ w.target ≤ s.chip.dowel d.val then s.go (s.chip.resume w) else s.go s.chip
  | none => s.go s.chip

/-- DOWEL_POLL (R254): a wait without a hardware entry re-reads its dowel. -/
def execDowelPoll (d : Fin 16384) (who : Waiter) (s : State) : Host.Outcome State Fault Refusal :=
  match s.chip.wait? d.val who with
  | some w => if ¬ w.hw ∧ w.target ≤ s.chip.dowel d.val then s.go (s.chip.resume w) else s.go s.chip
  | none => s.go s.chip

/-! ### Holding registers (R21, R257) -/

/-- Which of an initiator's holding registers serves a register: one for all reads (R21); for low words written, one for each
kind of pair in each half (R257, R258, R425, R438); the pair of a stamp FIFO has its own (R446). -/
def holdKey (a : Nat) : Nat :=
  let half := (homeHalf .H a).idx
  if 0x20000000 ≤ a ∧ a < 0x20400000 ∧ a % 0x100 = 0x08 then Reg.DOWEL_ARG_LO (8192 * half)
  else if 0x20000000 ≤ a ∧ a < 0x20400000 ∧ a % 0x100 = 0x18 then Reg.DOWEL_NOTIFY_LO (8192 * half)
  else match a / 0x100000 with
    | 0xD => if a % 0x1000 = 0x10 then Reg.CVU_VAL_LO (16 * half) else 0
    | 0xE => if a % 0x80000 < 0x400 ∧ a % 0x40 = 0x10 then Reg.TB_STEP_LO half 0
      else if 0x440 ≤ a % 0x80000 ∧ a % 0x80000 < 0x800 ∧ 0x40 ≤ a % 0x100 ∧ a % 0x100 < 0x60 then a else 0
    | _ => 0

/-- The holding register of an initiator for a register; none while it has not been written since reset. -/
def Chip.held? (c : Chip) (i : Initiator) (a : Nat) : Option Nat :=
  (c.holds.find? fun h => h.owner == i.owner && h.port == i.port && h.key == holdKey a).map (·.val.toNat)

/-- The held low word; zero while the initiator has written none since reset (R257). -/
def Chip.held (c : Chip) (i : Initiator) (a : Nat) : Nat := (c.held? i a).getD 0

/-- The chip after a holding register takes a word. -/
def Chip.hold (c : Chip) (i : Initiator) (a v : Nat) : Chip :=
  { c with holds := HoldCell.mk i.owner i.port (holdKey a) (homeHalf i.half a) (BitVec.ofNat 32 v) ::
      c.holds.filter fun h => !(h.owner == i.owner && h.port == i.port && h.key == holdKey a) }

/-- DOWEL_ARG_LO (R257). -/
def execDowelArgLo (i : Initiator) (d : Fin 16384) (v : Word) (s : State) : Host.Outcome State Fault Refusal :=
  if s.chip.down.get (dowelHalf d.val) then s.go s.chip
  else if s.chip.dowelSignal i.owner d.val then s.go (s.chip.hold i (Reg.DOWEL_ARG_LO d.val) v.toNat)
  else s.go (s.chip.dowelRefused i.owner d.val 3)

/-- The 64-bit operand of a high-word write: the held low word and the word written. -/
def Chip.dowelArg (c : Chip) (i : Initiator) (d : Nat) (v : Word) : Nat := c.held i (Reg.DOWEL_ARG_LO d) + v.toNat * 2 ^ 32

/-- DOWEL_MAX_HI (R257). -/
def execDowelMaxHi (i : Initiator) (d : Fin 16384) (v : Word) (s : State) : Host.Outcome State Fault Refusal :=
  if s.chip.down.get (dowelHalf d.val) then s.go s.chip else s.go (s.chip.signal i.owner d.val 0 (s.chip.dowelArg i d.val v))

/-- DOWEL_ADD_HI (R257). -/
def execDowelAddHi (i : Initiator) (d : Fin 16384) (v : Word) (s : State) : Host.Outcome State Fault Refusal :=
  if s.chip.down.get (dowelHalf d.val) then s.go s.chip else s.go (s.chip.signal i.owner d.val 1 (s.chip.dowelArg i d.val v))

/-- DOWEL_ADD32 (R257). -/
def execDowelAdd32 (i : Initiator) (d : Fin 16384) (v : Word) (s : State) : Host.Outcome State Fault Refusal :=
  if s.chip.down.get (dowelHalf d.val) then s.go s.chip else s.go (s.chip.signal i.owner d.val 1 v.toNat)

/-- DOWEL_NOTIFY_LO (R258). -/
def execDowelNotifyLo (i : Initiator) (d : Fin 16384) (v : Word) (s : State) : Host.Outcome State Fault Refusal :=
  if s.chip.down.get (dowelHalf d.val) then s.go s.chip
  else if s.chip.dowelRead i.owner d.val then s.go (s.chip.hold i (Reg.DOWEL_NOTIFY_LO d.val) v.toNat)
  else s.go (s.chip.dowelRefused i.owner d.val 2)

/-- The chip after a notify is armed, replacing any earlier one (R258). -/
def Chip.armNotify (c : Chip) (o : Owner) (d target : Nat) : Chip :=
  ((c.dropWait d .notify).makeWait o d target .notify).put (F.DOWEL_ATTR_NOTIFY_ARMED d) 1

/-- DOWEL_NOTIFY_HI (R258). -/
def execDowelNotifyHi (i : Initiator) (d : Fin 16384) (v : Word) (s : State) : Host.Outcome State Fault Refusal :=
  if s.chip.down.get (dowelHalf d.val) then s.go s.chip
  else if s.chip.dowelRead i.owner d.val then
    s.go (s.chip.armNotify i.owner d.val (s.chip.held i (Reg.DOWEL_NOTIFY_LO d.val) + v.toNat * 2 ^ 32))
  else s.go (s.chip.dowelRefused i.owner d.val 2)

/-- Releases the waiter of a wait whose dowel was reassigned: a command completes with ABANDONED (R256). -/
def Chip.abandonWait (c : Chip) (w : Wait) : Chip :=
  let c := c.dropWait w.dowel w.who
  match w.who with
  | .cmd id => match c.cmd? id with
    | some m => c.complete (m.endWith .abandoned 0) 0
    | none => c
  | .core b k => c.abandonCore b.val k.val
  | .notify => c.put (F.DOWEL_ATTR_NOTIFY_ARMED w.dowel) 0

/-- The chip after a dowel is assigned: a change of owner zeroes it, releases its waits and disarms its notify; a change
of scope alone keeps them (R256). -/
def Chip.assignDowel (c : Chip) (d : Nat) (owner scope : Nat) : Chip :=
  let old := c.q (F.DOWEL_ATTR_OWNER d)
  let c := (c.put (F.DOWEL_ATTR_SCOPE d) scope).put (F.DOWEL_ATTR_OWNER d) owner
  if old = owner then c
  else (c.waits.filter fun w => w.dowel == d).foldl Chip.abandonWait (c.setPair (Reg.DOWEL_VAL_LO d) (Reg.DOWEL_VAL_HI d) 0)

/-- DOWEL_ATTR (R256): firmware assigns a dowel; a write of any other initiator is ignored (R268). -/
def execDowelAttr (i : Initiator) (d : Fin 16384) (v : Word) (s : State) : Host.Outcome State Fault Refusal :=
  if s.chip.down.get (dowelHalf d.val) then s.go s.chip
  else if i.isFirmware then s.go (s.chip.assignDowel d.val (bits v.toNat 0 13) (bits v.toNat 16 2))
  else s.go (s.chip.dowelRefused i.owner d.val 4)

end Sys2Proof.Machine
end

