-- ==== Sys2Proof/Machine/Cvu.lean ====
section
/-! DEFINITION. The check-value units (R423–R429). -/

namespace Sys2Proof.Machine

/-- A polynomial of R424: width, polynomial, initial value, whether input bytes and the result are reflected, final XOR. -/
structure CrcPoly where
  width : Nat
  poly : Nat
  init : Nat
  refl : Bool
  fin : Nat
deriving DecidableEq, Repr

/-- The polynomials of R424; codes 6 and 7 compute nothing. -/
def crcPoly (code : Nat) : Option CrcPoly :=
  match code with
  | 0 => some ⟨8, 0x1D, 0xFF, false, 0xFF⟩
  | 1 => some ⟨16, 0x1021, 0xFFFF, false, 0⟩
  | 2 => some ⟨32, 0x04C11DB7, 0xFFFFFFFF, true, 0xFFFFFFFF⟩
  | 3 => some ⟨32, 0x1EDC6F41, 0xFFFFFFFF, true, 0xFFFFFFFF⟩
  | 4 => some ⟨32, 0xF4ACFB13, 0xFFFFFFFF, true, 0xFFFFFFFF⟩
  | 5 => some ⟨64, 0x42F0E1EBA9EA3693, 0, false, 0⟩
  | _ => none

/-- The low `n` bits of a number in reverse order. -/
def reflect : Nat → Nat → Nat
  | 0, _ => 0
  | n + 1, v => v % 2 * 2 ^ n + reflect n (v / 2)

/-- `n` shifts of the CRC register, most significant bit first. -/
def CrcPoly.shift (p : CrcPoly) : Nat → Nat → Nat
  | 0, v => v
  | n + 1, v => p.shift n (if bit v (p.width - 1) then Nat.xor (v * 2 % 2 ^ p.width) p.poly else v * 2 % 2 ^ p.width)

/-- The running value after one byte. -/
def CrcPoly.byte (p : CrcPoly) (v : Nat) (b : Byte) : Nat :=
  p.shift 8 (Nat.xor (v % 2 ^ p.width) ((if p.refl then reflect 8 b.toNat else b.toNat) * 2 ^ (p.width - 8)))

/-- The running value after bytes. -/
def CrcPoly.bytes (p : CrcPoly) (v : Nat) (bs : List Byte) : Nat := bs.foldl p.byte v

/-- The finished value. -/
def CrcPoly.finish (p : CrcPoly) (v : Nat) : Nat := Nat.xor (if p.refl then reflect p.width v else v % 2 ^ p.width) p.fin

/-- The polynomial of a unit. -/
def Chip.cvuPoly (c : Chip) (n : Nat) : Option CrcPoly := crcPoly (c.q (F.CVU_CTL_POLY n))

/-- The chip with the running value of a unit replaced; `CVU_RESULT` follows it (R425). -/
def Chip.cvuSet (c : Chip) (n v : Nat) : Chip :=
  let c := c.setPair (Reg.CVU_VAL_LO n) (Reg.CVU_VAL_HI n) v
  match c.cvuPoly n with
  | some p => c.setPair (Reg.CVU_RESULT_LO n) (Reg.CVU_RESULT_HI n) (p.finish v)
  | none => c

/-- The chip with a unit's running value at the initial value of its polynomial. -/
def Chip.cvuInit (c : Chip) (n : Nat) : Chip :=
  match c.cvuPoly n with
  | some p => c.cvuSet n p.init
  | none => c

/-- The chip after bytes are fed to a unit. -/
def Chip.cvuFeed (c : Chip) (n : Nat) (bs : List Byte) : Chip :=
  match c.cvuPoly n with
  | some p => c.cvuSet n (p.bytes (c.pair (Reg.CVU_VAL_LO n) (Reg.CVU_VAL_HI n)) bs)
  | none => c

/-- The holder of a unit (R423). -/
def Chip.cvuHolder (c : Chip) (n : Nat) : Owner := BitVec.ofNat 13 (ownOwner (c.ownAt (1048576 + (0x00D00000 + n * 0x1000) / 4096)))

/-- The half of a unit. -/
def cvuHalf (n : Nat) : Half := if n < 16 then .H else .T

/-- The chip after a frame of a framed source ends at a unit: the result is latched and compared (R426, R428). -/
def Chip.cvuLatch (c : Chip) (n : Nat) : Chip :=
  let r := c.pair (Reg.CVU_RESULT_LO n) (Reg.CVU_RESULT_HI n)
  let c := (c.setPair (Reg.CVU_LAST_LO n) (Reg.CVU_LAST_HI n) r).inc (F.CVU_FRAMES_VALUE n)
  if ¬ c.on (F.CVU_CMP_CTL_CMP_EN n) then c
  else
    let e := c.pair (Reg.CVU_EXPECT_LO n) (Reg.CVU_EXPECT_HI n)
    if r = e then { c.put (F.CVU_STATUS_LAST_OK n) 1 with cvuRun := Tbl.del c.cvuRun n }
    else
      let k := Tbl.look 0 c.cvuRun n + 1
      let c := { (c.put (F.CVU_STATUS_LAST_OK n) 0).inc (F.CVU_MISMATCH_COUNT n) with cvuRun := Tbl.ins c.cvuRun n k }
      if k = c.q (F.CVU_CMP_CTL_CMP_N n) then c.evOf (cvuHalf n) 0x0B20 (c.cvuHolder n) [n, r, e] else c

/-- The units of a half that a framed source feeds: `src` 1 a display, 2 an outbound frame, by local number (R426). -/
def Chip.cvusOf (c : Chip) (h : Half) (src idx : Nat) : List Nat :=
  ((List.range 16).map (· + 16 * h.idx)).filter fun n => c.q (F.CVU_CFG_SRC n) == src && c.q (F.CVU_CFG_INDEX n) == idx

/-- The chip after a whole frame is fed to a unit. -/
def Chip.cvuFrame (c : Chip) (n : Nat) (bs : List Byte) : Chip := ((c.cvuInit n).cvuFeed n bs).cvuLatch n

/-- A move feeds a unit now (R427). -/
def Chip.cvuBusy (c : Chip) (n : Nat) : Bool :=
  c.cmds.any fun m => decide (0x50 ≤ m.opcode ∧ m.opcode ≤ 0x53) && bit (m.word 6) 6 && m.fld 6 0 6 == n && m.aux.getD 3 0 == 1 &&
    (m.stage == .running || m.stage == .withdrawn)

/-- The chip after a write of a unit's register by an initiator that its page admits and no move is feeding; else the
refusal's event, or 0x0B21 (R216, R423, R427). -/
def Chip.cvuWrite (c : Chip) (i : Initiator) (n off : Nat) (f : Chip → Chip) : Chip :=
  let a := 0x00D00000 + n * 0x1000 + off
  match c.portCause i true a with
  | 0 =>
    if c.down.get (cvuHalf n) then c
    else if c.cvuBusy n then c.evOf (cvuHalf n) 0x0B21 i.owner [n, off, i.owner.toNat] else f c
  | k => c.refusalEvent (cvuHalf n) none i.owner a k i.port

/-- The chip after `CVU_CTL` is written: the polynomial selected, the running value at its initial value (R425). -/
def Chip.cvuCtl (c : Chip) (n v : Nat) : Chip := (c.put (F.CVU_CTL_POLY n) v).cvuInit n

/-- The chip after a holder feeds bytes through a register; a unit with another source takes none (R426). -/
def Chip.cvuData (c : Chip) (n : Nat) (bs : List Byte) : Chip := if c.q (F.CVU_CFG_SRC n) = 0 then c.cvuFeed n bs else c

/-- CVU_CTL (R425). -/
def execCvuCtl (i : Initiator) (n : Fin 32) (v : Word) (s : State) : Host.Outcome State Fault Refusal :=
  s.go (s.chip.cvuWrite i n.val 0x000 fun c => c.cvuCtl n.val v.toNat)
/-- CVU_DATA (R426): four bytes, byte 0 first. -/
def execCvuData (i : Initiator) (n : Fin 32) (v : Word) (s : State) : Host.Outcome State Fault Refusal :=
  s.go (s.chip.cvuWrite i n.val 0x004 fun c => c.cvuData n.val (toLE 4 v.toNat))
/-- CVU_DATA8 (R426): one byte. -/
def execCvuData8 (i : Initiator) (n : Fin 32) (v : Word) (s : State) : Host.Outcome State Fault Refusal :=
  s.go (s.chip.cvuWrite i n.val 0x008 fun c => c.cvuData n.val (toLE 1 v.toNat))
/-- CVU_VAL_LO (R425): the low word of a new running value is held for the writer. -/
def execCvuValLo (i : Initiator) (n : Fin 32) (v : Word) (s : State) : Host.Outcome State Fault Refusal :=
  s.go (s.chip.cvuWrite i n.val 0x010 fun c => c.hold i (Reg.CVU_VAL_LO n.val) v.toNat)
/-- CVU_VAL_HI (R425): the running value is replaced with the held low word and this high word. -/
def execCvuValHi (i : Initiator) (n : Fin 32) (v : Word) (s : State) : Host.Outcome State Fault Refusal :=
  s.go (s.chip.cvuWrite i n.val 0x014 fun c => c.cvuSet n.val (c.held i (Reg.CVU_VAL_LO n.val) + v.toNat * 2 ^ 32))

end Sys2Proof.Machine
end

