-- ==== Sys2Proof/Machine/Hio.lean ====
section
/-! DEFINITION. The machine I/O of a half (R382–R388): PWM and digital outputs, the ADC, the encoders, the hardened
inputs and their notification path. -/

namespace Sys2Proof.Machine

/-- The half drives its outputs: OUT_EN (R353, R354). -/
def Chip.outEn (c : Chip) (h : Half) : Bool := c.on (F.AUTH_STATUS_OUT_EN h.idx)

/-- The chip with the machine I/O of a half replaced. -/
def Chip.setHio (c : Chip) (h : Half) (x : HioSt) : Chip := { c with hio := c.hio.set h x }

/-- Bit `n` of a mask set or cleared. -/
def setBit (mask n : Nat) (v : Bool) : Nat := mask - 2 ^ n * b2n (bit mask n) + 2 ^ n * b2n v

/-- FP32 value of a pattern. -/
def v32 (p : Nat) : FV := fp32.decode p

/-! ### Outputs (R383, R384) -/

/-- Level of a digital output: from the slot that drives it or last drove it, else from `HIO_DO_CFG`. -/
def Chip.doLevel (c : Chip) (h : Half) (n : Nat) : Bool :=
  match Tbl.find? (c.hio.get h).drv (16 + n) with
  | some p => FV.le (.fin false 1 (-1)) (v32 p)
  | none => c.on (F.HIO_DO_CFG_LEVEL h.idx n)

/-- The chip with `HIO_DO_STATE.LEVEL` as the outputs have it. -/
def Chip.syncDo (c : Chip) (h : Half) (n : Nat) : Chip :=
  c.put (F.HIO_DO_STATE_LEVEL h.idx) (setBit (c.q (F.HIO_DO_STATE_LEVEL h.idx)) n (c.doLevel h n))

/-- The chip after a slot applies a value to an output (PWM from 0, digital from 16). -/
def Chip.drive (c : Chip) (h : Half) (key p : Nat) : Chip :=
  let x := c.hio.get h
  let c := c.setHio h { x with drv := Tbl.ins x.drv key p }
  if 16 ≤ key then c.syncDo h (key - 16) else c

/-- The duty of a PWM output as a value from 0 to 1. -/
def Chip.duty (c : Chip) (h : Half) (n : Nat) : FV :=
  match Tbl.find? (c.hio.get h).drv n with
  | some p => let v := v32 p; if v.isNan then FV.zero else FV.max FV.zero (FV.min FV.one v)
  | none => FV.min FV.one (FV.fin false (c.q (F.HIO_PWM_DUTY_DUTY h.idx n)) (-16))

/-- round(d × PERIOD), a tie of half a count upward. -/
def dutyCounts (d : FV) (period : Nat) : Nat :=
  ((FV.toInt .rdn ((d.mul (FV.ofInt period)).add (.fin false 1 (-1)))).getD 0).toNat

/-- The chip after a PWM output begins a period with its latest duty: its counts, the first count for which it is high, and for how many
it is, left-aligned or centred. An odd rest of a centred period stands after the high part. DESIGN CHOICE, unsafe: log 157. -/
def Chip.pwmStart (c : Chip) (h : Half) (n : Nat) : Chip :=
  let p := c.q (F.HIO_PWM_CFG_PERIOD h.idx n)
  let k := dutyCounts (c.duty h n) p
  let x := c.hio.get h
  c.setHio h { x with pwm := Tbl.ins x.pwm n (p, if c.on (F.HIO_PWM_CFG_ALIGN h.idx n) then (p - k) / 2 else 0, k) }

/-- The waveform on the ball of a PWM output: counts of the period, first high count, high counts; at high impedance while OUT_EN is
off (R373, R383). -/
def Chip.pwmPin (c : Chip) (h : Half) (n : Nat) : Option (Nat × Nat × Nat) := if c.outEn h then Tbl.find? (c.hio.get h).pwm n else none

/-- The level on the ball of a digital output; at high impedance while OUT_EN is off (R373, R384). -/
def Chip.doPin (c : Chip) (h : Half) (n : Nat) : Option Bool := if c.outEn h then some (c.doLevel h n) else none

/-- PWM_PERIOD_START (R383): a PWM period begins and the latest duty takes effect. -/
def execPwmPeriodStart (h : Half) (n : Fin 16) (s : State) : Host.Outcome State Fault Refusal :=
  s.go (if s.chip.down.get h then s.chip else s.chip.pwmStart h n.val)

/-- READBACK_MISMATCH (R384): a digital output's readback has differed from its driven level for 50 µs. -/
def execReadbackMismatch (h : Half) (n : Fin 16) (s : State) : Host.Outcome State Fault Refusal :=
  let c := s.chip
  match c.on (F.HIO_DO_CFG_RB_EN h.idx n.val), c.doPin h n.val with
  | true, some v =>
    s.go ((c.put (F.HIO_DO_STATE_DO_FAULT h.idx) (setBit (c.q (F.HIO_DO_STATE_DO_FAULT h.idx)) n.val true)).ev h 0x0930
      [n.val + 16 * h.idx, b2n v])
  | _, _ => s.go c

/-- The chip after firmware writes the duty of a PWM output or the level of a digital one: an output that no slot drives
any more follows the register again (R383, R384). -/
def Chip.outputWritten (c : Chip) (h : Half) (key : Nat) (driven : Bool) : Chip :=
  let x := c.hio.get h
  let c := if driven then c else c.setHio h { x with drv := Tbl.del x.drv key }
  if 16 ≤ key then c.syncDo h (key - 16) else c

/-! ### The ADC (R385) -/

/-- The next channel of the sequence after one, in ascending order. -/
def nextChannel (seq last : Nat) : Option Nat :=
  match (List.range 16).find? fun n => last < n && bit seq n with
  | some n => some n
  | none => (List.range 16).find? fun n => bit seq n

/-- ADC_CONVERSION (R385): the ADC converts the next channel of its sequence to a 12-bit code. -/
def execAdcConversion (h : Half) (code : BitVec 12) (s : State) : Host.Outcome State Fault Refusal :=
  let c := s.chip
  let x := c.hio.get h
  match nextChannel (c.q (F.HIO_ADC_SEQ_SEQ h.idx)) x.adcLast with
  | none => s.go c
  | some n =>
    let k := code.toNat
    let good := decide (c.q (F.HIO_ADC_WIN_MIN h.idx n) ≤ k ∧ k ≤ c.q (F.HIO_ADC_WIN_MAX h.idx n))
    let v := (FV.ofInt ((k : Int) - c.q (F.HIO_ADC_OFF_OFF h.idx n))).mul (v32 (c.q (F.HIO_ADC_GAIN_GAIN h.idx n)))
    let first := !good && !bit x.adcRun n
    let c := (c.setHio h { x with adcLast := n, adcRun := setBit x.adcRun n (!good) }).put (F.HIO_ADC_VAL_VALUE h.idx n)
      (if good then toFp32 v else fp32.canonNan)
    s.go (if first then c.ev h 0x0928 [n + 16 * h.idx, k] else c)

/-! ### Encoders (R386) -/

/-- The place of the levels (A, B) in the four-fold cycle, A leading B counting up. -/
def quadPhase (ab : Nat) : Nat :=
  match ab with
  | 0 => 0
  | 2 => 1
  | 3 => 2
  | _ => 3

/-- The position of an encoder `back` units before now. -/
def Chip.encAt (c : Chip) (h : Half) (n back : Nat) : Nat :=
  let now := c.stamp h 0
  match (Tbl.look [] (c.hio.get h).encHist n).find? fun p => decide ((back : Int) ≤ elapsed now p.1) with
  | some p => p.2
  | none => 0

/-- The velocity of an encoder in counts per second, as FP32 (R386). -/
def Chip.encVel (c : Chip) (h : Half) (n : Nat) : Nat :=
  let win := c.q (F.HIO_ENC_CFG_VEL_WIN_US h.idx n)
  let d := sgn 32 (c.q (F.HIO_ENC_POS_VALUE h.idx n)) - sgn 32 (c.encAt h n (win * usUnits))
  toFp32 ((FV.ofInt (d * 1000000)).div (FV.ofInt (max win 1)))

/-- The chip after the filtered levels of an encoder become `ab`; its positions are kept for the longest window that `VEL_WIN_US` can
name (R386). -/
def Chip.encMove (c : Chip) (h : Half) (n ab : Nat) : Chip :=
  let x := c.hio.get h
  let old := Tbl.look 0 x.encAB n
  let x1 := { x with encAB := Tbl.put 0 x.encAB n ab }
  let pos := c.q (F.HIO_ENC_POS_VALUE h.idx n)
  let d := (quadPhase ab + 4 - quadPhase old) % 4
  if d = 0 then c
  else if d = 2 then
    let c := ((c.setHio h { x1 with encRun := setBit x.encRun n true }).put (F.HIO_ENC_ERR_VALUE h.idx n)
      (min (c.q (F.HIO_ENC_ERR_VALUE h.idx n) + 1) 0xFFFF))
    if bit x.encRun n then c else c.ev h 0x0929 [n + 8 * h.idx, pos]
  else
    let p := if d = 1 then (pos + 1) % 2 ^ 32 else (pos + 2 ^ 32 - 1) % 2 ^ 32
    let now := c.stamp h 0
    let win := 0x10000 * usUnits
    let l := Tbl.look [] x.encHist n
    let fresh := l.takeWhile fun q => decide (elapsed now q.1 < win)
    let kept := (now, p) :: fresh ++ (l.drop fresh.length).take 1
    (c.setHio h { x1 with encHist := Tbl.ins x.encHist n kept, encRun := setBit x.encRun n false }).put (F.HIO_ENC_POS_VALUE h.idx n) p

/-- ENCODER_TRANSITION (R386): the filtered levels of an encoder's A and B become new ones. -/
def execEncoderTransition (h : Half) (n : Fin 8) (a b : Bool) (s : State) : Host.Outcome State Fault Refusal :=
  s.go (if s.chip.down.get h then s.chip else s.chip.encMove h n.val (2 * b2n a + b2n b))

/-! ### Hardened inputs (R387, R388) -/

/-- The filtered level of an input is active. -/
def Chip.diActive (c : Chip) (h : Half) (n : Nat) : Bool := bit (c.hio.get h).diLevel n != c.on (F.HIO_DI_CFG_POL h.idx n)

/-- The chip with the value of an input as R387 has it. -/
def Chip.syncDi (c : Chip) (h : Half) (n : Nat) : Chip :=
  let held := bit (c.q (F.HIO_DI_CHATTER_INPUT h.idx)) n || bit (c.q (F.HIO_DI_STUCK_ST_INPUT h.idx)) n
  let v := if held then c.on (F.HIO_DI_CFG_SAFE h.idx n) else c.diActive h n
  c.put (F.HIO_DI_LEVEL_INPUT h.idx) (setBit (c.q (F.HIO_DI_LEVEL_INPUT h.idx)) n v)

/-- The chip with the values of a half's inputs as its configuration has them now (R387). -/
def Chip.syncInputs (c : Chip) (h : Half) : Chip := (List.range 32).foldl (fun (c : Chip) n => c.syncDi h n) c

/-- The chip after an input enters or leaves chatter; in chatter no add is made, not one that was pending either (R388). -/
def Chip.setChatter (c : Chip) (h : Half) (n : Nat) (on : Bool) (edges : Nat) : Chip :=
  let x := c.hio.get h
  let c := if on then c.setHio h { x with diPend := Tbl.put 0 x.diPend n 0 } else c
  ((c.put (F.HIO_DI_CHATTER_INPUT h.idx) (setBit (c.q (F.HIO_DI_CHATTER_INPUT h.idx)) n on)).ev h 0x0921
    [n + 32 * h.idx, b2n on, edges]).syncDi h n

/-- The chip after an input enters or leaves stuck. -/
def Chip.setStuck (c : Chip) (h : Half) (n : Nat) (on : Bool) : Chip :=
  ((c.put (F.HIO_DI_STUCK_ST_INPUT h.idx) (setBit (c.q (F.HIO_DI_STUCK_ST_INPUT h.idx)) n on)).ev h 0x0922
    [n + 32 * h.idx, b2n on]).syncDi h n

/-- The chip after an input's glitch filter accepts a level (R387, R388). -/
def Chip.diEdge (c : Chip) (h : Half) (n : Nat) (level : Bool) : Chip :=
  let x := c.hio.get h
  if bit x.diLevel n = level then c
  else
    let edges := Tbl.look 0 x.diEdges n + 1
    let c := c.setHio h { x with
      diLevel := setBit x.diLevel n level, diSince := Tbl.ins x.diSince n (c.stamp h 0), diEdges := Tbl.put 0 x.diEdges n edges }
    let c := (c.inc (F.HIO_DI_CNT_COUNT h.idx n)).syncDi h n
    let active := c.diActive h n
    let c := if ¬ active ∧ bit (c.q (F.HIO_DI_STUCK_ST_INPUT h.idx)) n then c.setStuck h n false else c
    let was := bit (c.q (F.HIO_DI_CHATTER_INPUT h.idx)) n
    let c := if ¬ was ∧ c.q (F.HIO_DI_RATE_CHAT_MAX h.idx n) < edges then c.setChatter h n true edges else c
    let e := c.q (F.HIO_DI_CFG_EDGE h.idx n)
    let wanted := if active then e % 2 == 1 else decide (2 ≤ e)
    if wanted ∧ c.on (F.HIO_DI_NOTIFY_DOWEL_VALID h.idx n) ∧ ¬ bit (c.q (F.HIO_DI_CHATTER_INPUT h.idx)) n then
      let x := c.hio.get h
      c.setHio h { x with diPend := Tbl.put 0 x.diPend n (Tbl.look 0 x.diPend n + 1) }
    else c

/-- INPUT_EDGE (R387): a hardened input's level change is accepted after its glitch filter. -/
def execInputEdge (h : Half) (n : Fin 32) (level : Bool) (s : State) : Host.Outcome State Fault Refusal :=
  s.go (if s.chip.down.get h then s.chip else s.chip.diEdge h n.val level)

/-- CHATTER_WINDOW_END (R387): a window of an input ends. -/
def execChatterWindowEnd (h : Half) (n : Fin 32) (s : State) : Host.Outcome State Fault Refusal :=
  let c := s.chip
  let x := c.hio.get h
  let edges := Tbl.look 0 x.diEdges n.val
  let c := c.setHio h { x with diEdges := Tbl.put 0 x.diEdges n.val 0 }
  if bit (c.q (F.HIO_DI_CHATTER_INPUT h.idx)) n.val ∧ edges ≤ c.q (F.HIO_DI_RATE_CHAT_MAX h.idx n.val) / 2
  then s.go (c.setChatter h n.val false edges) else s.go c

/-- STUCK_TIMEOUT (R387): an input that has stayed active for `STUCK` × 10 ms becomes stuck. -/
def execStuckTimeout (h : Half) (n : Fin 32) (s : State) : Host.Outcome State Fault Refusal :=
  let c := s.chip
  let t := c.q (F.HIO_DI_STUCK_STUCK h.idx n.val)
  let since := Tbl.look 0 (c.hio.get h).diSince n.val
  if 0 < t ∧ c.diActive h n.val ∧ ¬ bit (c.q (F.HIO_DI_STUCK_ST_INPUT h.idx)) n.val ∧
      ((t * 10000 * usUnits : Nat) : Int) ≤ elapsed (c.stamp h 0) since
  then s.go (c.setStuck h n.val true) else s.go c

/-- The input that the notification path serves next, in turn. -/
def HioSt.nextPend (x : HioSt) : Option Nat :=
  match (List.range 32).find? fun n => x.diLast < n && Tbl.look 0 x.diPend n != 0 with
  | some n => some n
  | none => (List.range 32).find? fun n => Tbl.look 0 x.diPend n != 0

/-- EDGE_NOTIFY (R388): the notification path serves the next input with edges pending and adds them to its dowel. -/
def execEdgeNotify (h : Half) (s : State) : Host.Outcome State Fault Refusal :=
  let c := s.chip
  let x := c.hio.get h
  match x.nextPend with
  | none => s.go c
  | some n =>
    let d := c.q (F.HIO_DI_NOTIFY_DOWEL h.idx n)
    let o : Owner := BitVec.ofNat 13 (c.q (F.HIO_DI_NOTIFY_NOTIFY_OWNER h.idx n))
    let x1 := { x with diPend := Tbl.put 0 x.diPend n 0, diLast := n }
    if c.q (F.DOWEL_ATTR_OWNER d) = o.toNat then
      s.go ((c.setHio h { x1 with diRun := setBit x.diRun n false }).signal 0 d 1 (Tbl.look 0 x.diPend n))
    else
      let c := c.setHio h { x1 with diRun := setBit x.diRun n true }
      s.go (if bit x.diRun n then c else c.dowelRefused o d 3)

end Sys2Proof.Machine
end

