-- ==== Sys2Proof/Machine/Rings.lean ====
section
/-! DEFINITION. Rings (R233–R248): doorbells, enabling and disabling, fetching and dispatching descriptors, the no-op. -/

namespace Sys2Proof.Machine

/-- Index of the ownership entry of a ring's doorbell page (R235, R451). -/
def doorbellEntry (r : Nat) : Nat := 1048576 + (0x10000000 + r * 0x1000) / 4096

/-- A submission ring in service links to a ring (R236). -/
def Chip.linked (c : Chip) (r : Nat) : Bool :=
  c.rings.any fun e => c.q (F.RING_CFG_KIND e.1) == 1 && (c.q (F.RING_LINK_CQ e.1) == r || c.q (F.RING_LINK_EQ e.1) == r)

/-- The links and size of a ring meet R234 and R236 for an owner ID. -/
def Chip.linksGood (c : Chip) (r : Nat) (o : Owner) : Bool :=
  let size := c.q (F.RING_CFG_SIZE_LOG2 r)
  let names (x kind : Nat) : Bool :=
    match c.ringSt? x with
    | some y => c.q (F.RING_CFG_KIND x) == kind && y.owner == o
    | none => false
  decide (4 ≤ size ∧ size ≤ 16) &&
    match c.q (F.RING_CFG_KIND r) with
    | 1 => names (c.q (F.RING_LINK_CQ r)) 2 && names (c.q (F.RING_LINK_EQ r)) 3
    | 2 => true
    | 3 => !c.on (F.RING_CFG_DEFAULT_EQ r) || (c.defaultEq o).isNone
    | _ => false

/-- The chip after a ring is put in service: indices and counters at 0, the owner latched (R235, R267). -/
def Chip.openRing (c : Chip) (r : Nat) (o : Owner) : Chip :=
  let c := [Reg.RING_TAIL r, Reg.RING_HEAD r, Reg.RING_DONE_LO r, Reg.RING_DONE_HI r, Reg.RING_BAD_DB r].foldl (fun c a => c.setReg a 0) c
  let c := c.setReg (Reg.RING_STATUS r) (2 ^ 31 + 2 ^ 30 * b2n (c.q (F.RING_STATUS_IN_FLIGHT r) == 0) + c.q (F.RING_STATUS_IN_FLIGHT r))
  c.setRingSt r ⟨o, false, 0, false, 0, 0, false, 0, (0, 0)⟩

/-- The chip after `ENABLE` is written 1 with the other fields of `RING_CFG` (R236, R267). -/
def Chip.enableRing (c : Chip) (r cfg : Nat) : Chip :=
  match c.ringSt? r with
  | some x => if x.heldClear then c.setRingSt r { x with heldClear := false } else c
  | none =>
    let c := c.setReg (Reg.RING_CFG r) (cfg % 2 ^ 32 / 2 ^ 29 * 2 ^ 29 + bits cfg 16 5 * 2 ^ 16 + bits cfg 0 2)
    let o : Owner := BitVec.ofNat 13 (ownOwner (c.ownAt (doorbellEntry r)))
    if c.linksGood r o then c.openRing r o
    else (c.put (F.RING_STATUS_CFG_ERR r) 1).put (F.RING_STATUS_ENABLED r) 0

/-- The chip with what a write of `RING_CFG` with `ENABLE` = 0 wrote (R267). -/
def Chip.clearCfg (c : Chip) (r cfg : Nat) : Chip := c.setReg (Reg.RING_CFG r) (bits cfg 29 2 * 2 ^ 29 + bits cfg 16 5 * 2 ^ 16 + bits cfg 0 2)

/-- A ring is to stay in service: a submission ring links to it, or a command holds a reservation in it; an event ring stays also
while a withdrawn command of its owner is in flight (R236). -/
def Chip.ringNeeded (c : Chip) (r : Nat) (x : RingSt) : Bool :=
  c.q (F.RING_CFG_KIND r) != 1 && (c.linked r || decide (0 < x.resv) ||
    (c.q (F.RING_CFG_KIND r) == 3 && c.cmds.any fun m => m.owner == x.owner && m.stage == .withdrawn))

/-- The chip after a ring leaves service. -/
def Chip.closeRing (c : Chip) (r : Nat) : Chip :=
  ({ c with rings := Tbl.del c.rings r }).put (F.RING_STATUS_ENABLED r) 0

/-- The chip after `ENABLE` is written 0 with the other fields of `RING_CFG` (R236): the write to a completion or event ring that is
needed is held whole until the ring closes. -/
def Chip.disableRing (c : Chip) (r cfg : Nat) : Chip :=
  match c.ringSt? r with
  | none => c.clearCfg r cfg
  | some x =>
    if c.ringNeeded r x then c.setRingSt r { x with heldClear := true, heldCfg := cfg }
    else (c.closeRing r).clearCfg r cfg

/-- A configuration write from an initiator other than firmware is ignored, with event 0x0422 (R237). -/
def Chip.ringCfgRefused (c : Chip) (i : Initiator) (r off : Nat) : Chip := c.evOf (ringHalf r) 0x0422 i.owner [r, off, i.owner.toNat]

/-- The chip after a doorbell write by an initiator that the ownership entry admits (R238). -/
def Chip.doorbell (c : Chip) (r v : Nat) : Chip :=
  if c.ringSt? r = none ∨ c.q (F.RING_CFG_KIND r) = 0 then c
  else
    let head := c.reg (Reg.RING_HEAD r)
    let tail := c.reg (Reg.RING_TAIL r)
    let used := (tail + 2 ^ 32 - head) % 2 ^ 32
    let dist := (v + 2 ^ 32 - head) % 2 ^ 32
    let bad := (c.inc (F.RING_BAD_DB_COUNT r)).raise ⟨ringHalf r, 0x0400, if c.q (F.RING_CFG_KIND r) = 1 then some r else none, (c.ringSt? r).map (·.owner), [r, v, head, tail]⟩
    if c.q (F.RING_CFG_KIND r) = 1 then
      if used ≤ dist ∧ dist ≤ 2 ^ c.q (F.RING_CFG_SIZE_LOG2 r) then c.setReg (Reg.RING_TAIL r) v else bad
    else if dist ≤ used then c.setReg (Reg.RING_HEAD r) v else bad

/-- The opcodes that some chapter assigns (R246). -/
def assigned (op : Nat) : Bool :=
  [0x00, 0x01, 0x02, 0x03, 0x10, 0x11, 0x20, 0x30, 0x31, 0x40, 0x41, 0x48, 0x50, 0x51, 0x52, 0x53, 0x60, 0x61, 0x70,
    0x71, 0x80, 0x81, 0x82, 0x90].contains op

/-- Fetching stops at the present entry (R240, R245). -/
def Chip.fetchStop (c : Chip) (r : Nat) (o : Owner) (code : Nat) (d : List Nat) : Chip :=
  (c.put (F.RING_STATUS_FETCH_ERR r) 1).raise ⟨ringHalf r, code, some r, some o, d⟩

/-- A ring from which the controller may fetch: a submission ring in service, not stopped, with a descriptor visible. -/
def Chip.fetchable (c : Chip) (r : Nat) : Option RingSt :=
  match c.ringSt? r with
  | none => none
  | some x =>
    if c.awake (ringHalf r) ∧ c.q (F.RING_CFG_KIND r) = 1 ∧ ¬ c.on (F.RING_STATUS_FETCH_ERR r) ∧ c.reg (Reg.RING_HEAD r) ≠ c.reg (Reg.RING_TAIL r)
    ∧ c.mayFetch x.owner
    then some x else none

/-- The name of the command that a ring fetches at an index: told from one of that index that is still in flight (R240). -/
def Chip.newId (c : Chip) (r head : Nat) : CmdId :=
  let i : CmdId := { ring := Fin.ofNat 65536 r, seq := BitVec.ofNat 32 head }
  { i with era := ((List.range (c.cmds.length + 1)).find? fun e => (c.cmd? { i with era := e }).isNone).getD 0 }

/-- The chip after the ring controller copies one descriptor, whose reads show `o`, and advances head (R209, R239, R240, R243–R245). -/
def Chip.fetch (c : Chip) (r : Nat) (o : Seen) : Chip :=
  match c.fetchable r with
  | none => c
  | some x =>
    let head := c.reg (Reg.RING_HEAD r)
    let a := c.ringEntry r head 64
    match c.rangeCause x.owner false a 64 with
    | some (ad, cs) =>
      let c := c.fetchStop r x.owner 0x0401 [r, ad, cs]
      if cs = 3 ∨ cs = 4 then c.evBy (ringHalf r) (if cs = 3 then 0x0303 else 0x0318) (some r) x.owner (if cs = 3 then [ad, x.owner.toNat, 0] else [stackOf ad, ad, x.owner.toNat]) else c
    | none =>
      let c := (c.touched (ringHalf r) none x.owner a 64 0)
      let (e, c) := c.sight [(a, 64)] o
      let wrong := c.freeBytes 64
      let words : List Dword := (List.range 8).map fun k =>
        BitVec.ofNat 64 (if e.wrong then leNat ((wrong.drop (8 * k)).take 8) else c.loadN (a + 8 * k) 8)
      let c := { c with freeCnt := c.freeCnt + b2n e.wrong }
      if e.lost.isSome then c.fetchStop r x.owner 0x0401 [r, e.lost.getD 0, 4] else
      let w0 := (words.getD 0 0).toNat
      let w7 := (words.getD 7 0).toNat
      if bit w0 11 ∧ 2 ≤ bits w7 62 2 then c.fetchStop r x.owner 0x0404 [r, head]
      else
        let cl := bits w0 8 2
        let pc := c.partClass x.owner.part
        let own0 := x.owner.part == 0
        let m : Cmd := {
          id := c.newId r head, words := words, owner := x.owner,
          cls := if own0 then 0 else max cl pc, lowered := !own0 && decide (cl < pc), cq := c.q (F.RING_LINK_CQ r),
          half := ringHalf r, unit := 0, stage := .fetched, clamped := false, late := false, spare := false, doubt := false,
          empty := false, ended := none, n := 0, bytes := 0, aux := [] }
        { (c.setReg (Reg.RING_HEAD r) ((head + 1) % 2 ^ 32)) with cmds := c.cmds ++ [m] }

/-- A command holds its ring: a dowel wait, or a bridge send whose quota is full (R247, R396). -/
def Cmd.holds (m : Cmd) : Bool :=
  (m.opcode == 1 && m.stage != .fetched) || ((m.opcode == 0x80 || m.opcode == 0x81) && m.stage == .waiting)

/-- The next command of a ring to dispatch: the first fetched one, unless a command of the ring holds it (R242, R247). -/
def Chip.nextDispatch (c : Chip) (r : Nat) : Option Cmd :=
  let mine := c.cmds.filter fun m => m.id.ring.val == r && c.mayDispatch m.owner
  if mine.any Cmd.holds || !c.awake (ringHalf r) then none else mine.find? fun m => m.stage == .fetched

/-- The chip after a command with an opcode that no chapter assigns completes (R246). -/
def Chip.badOpcode (c : Chip) (m : Cmd) : Chip :=
  (c.failCmd m m.opcode).evCmd m.half 0x0402 m [m.id.ring.val, m.id.seq.toNat, m.opcode]

/-- A submission ring in service stands still for want of completion space: the ring that it links to has no free entry or
takes no record (R241, R565); `RING_STATUS.CQ_STALL` shows it. -/
def Chip.cqStalled (c : Chip) (r : Nat) : Bool :=
  (c.ringSt? r).isSome && c.q (F.RING_CFG_KIND r) == 1 && match c.ringSt? (c.q (F.RING_LINK_CQ r)) with
    | some x => x.deaf || c.ringFull (c.q (F.RING_LINK_CQ r)) x.resv
    | none => true

/-- The chip after the ring controller dispatches the ring's next command, or leaves it for want of completion space
(R241, R244); a command of a partition that does not exist ends at once, and no engine sees it (R269). -/
def Chip.dispatch (c : Chip) (r : Nat) : Chip :=
  match c.nextDispatch r with
  | none => c
  | some m =>
    match c.ringSt? m.cq with
    | none => c
    | some x =>
      if x.deaf ∨ c.ringFull m.cq x.resv then c
      else
        let c := c.setRingSt m.cq { x with resv := x.resv + 1 }
        let c := (c.inc (F.RING_STATUS_IN_FLIGHT r)).put (F.RING_STATUS_IDLE r) 0
        let m := { m with stage := .queued, order := c.dispatched }
        let c := Chip.setCmd { c with dispatched := c.dispatched + 1 } m
        let c := if m.lowered then c.evCmd m.half 0x0403 m [r, m.id.seq.toNat, m.fld 0 8 2, m.cls] else c
        if ¬ c.partValid m.owner.part then c.failCmd m 0
        else if assigned m.opcode then c else c.badOpcode m

/-- DOORBELL (R238): a 32-bit write of `RING_DB`; refused to a party that does not exist, ignored while its instance is
being reset (R297, R309). -/
def execDoorbell (i : Initiator) (r : Fin 65536) (v : Word) (s : State) : Host.Outcome State Fault Refusal :=
  let a := Reg.RING_DB r.val
  match s.chip.portCause i true a with
  | 0 =>
    if ¬ s.chip.partyExists i.owner then s.go (s.chip.refusalEvent (ringHalf r.val) none i.owner a 1 i.port)
    else if ¬ s.chip.mayFetch i.owner ∨ s.chip.down.get (ringHalf r.val) then s.go s.chip
    else s.go (s.chip.doorbell r.val v.toNat)
  | k => s.go (s.chip.refusalEvent (ringHalf r.val) none i.owner a k i.port)

/-- RING_ENABLE (R236): a write of `RING_CFG` with `ENABLE` = 1. -/
def execRingEnable (i : Initiator) (r : Fin 65536) (cfg : BitVec 31) (s : State) : Host.Outcome State Fault Refusal :=
  if s.chip.down.get (ringHalf r.val) then s.go s.chip
  else if i.isFirmware then s.go (s.chip.enableRing r.val (2 ^ 31 + cfg.toNat)) else s.go (s.chip.ringCfgRefused i r.val 0x800)

/-- RING_DISABLE (R236): a write of `RING_CFG` with `ENABLE` = 0. -/
def execRingDisable (i : Initiator) (r : Fin 65536) (cfg : BitVec 31) (s : State) : Host.Outcome State Fault Refusal :=
  if s.chip.down.get (ringHalf r.val) then s.go s.chip
  else if i.isFirmware then s.go (s.chip.disableRing r.val cfg.toNat) else s.go (s.chip.ringCfgRefused i r.val 0x800)

/-- RING_CLOSE (R236): a held ring closes once its last link and reservation are gone, and takes what the held write wrote. -/
def execRingClose (r : Fin 65536) (s : State) : Host.Outcome State Fault Refusal :=
  match s.chip.ringSt? r.val with
  | some x => if x.heldClear ∧ ¬ s.chip.ringNeeded r.val x then s.go ((s.chip.closeRing r.val).clearCfg r.val x.heldCfg) else s.go s.chip
  | none => s.go s.chip

/-- DESCRIPTOR_FETCH (R240). -/
def execDescriptorFetch (r : Fin 65536) (s : State) (o : Seen := []) : Host.Outcome State Fault Refusal := s.go (s.chip.fetch r.val o)

/-- DISPATCH (R241). -/
def execDispatch (r : Fin 65536) (s : State) : Host.Outcome State Fault Refusal := s.go (s.chip.dispatch r.val)

/-- NO_OP (R246): a dispatched no-op completes with DONE. -/
def execNoOp (id : CmdId) (s : State) : Host.Outcome State Fault Refusal :=
  match s.chip.takeable id (· == 0x00) with
  | some m => s.go (s.chip.complete m 0)
  | none => s.go s.chip

end Sys2Proof.Machine
end

