-- ==== Sys2Proof/Machine/Time.lean ====
section
/-! DEFINITION. Time bases (R433–R450): the tick, steering, lead and follower, PPS capture, PTP stamps. -/

namespace Sys2Proof.Machine

/-! ### Steps of the clock (R434) -/

/-- The time logic of a half. -/
def Chip.timeOf (c : Chip) (h : Half) : TimeSt := c.time.get h
/-- The chip with the time logic of a half replaced. -/
def Chip.setTime (c : Chip) (h : Half) (x : TimeSt) : Chip := { c with time := c.time.set h x }

/-- A base after one cycle at a rate offset in units of 2⁻⁸ ppb; the fraction is carried to 2⁻³² of a unit (R434). -/
def TimeBase.step (b : TimeBase) (rate : Int) : TimeBase :=
  let f := (b.frac : Int) + 256 * (2 ^ 32 : Nat) + rate * (2 ^ 32 : Nat) / 1000000000
  ⟨(b.val + (f / (2 ^ 32 : Nat)).toNat) % 2 ^ 64, (f % (2 ^ 32 : Nat)).toNat⟩

/-- The chip after one cycle of a half's 250 MHz time domain: its cycles are counted, and its bases run once a lead has
been chosen (R433, R434, R441). -/
def Chip.tickHalf (c : Chip) (h : Half) : Chip :=
  if c.down.get h then c
  else
    let x := c.timeOf h
    let run := (c.tb.get h).zipIdx.map fun p => p.1.step (sgn 32 (c.reg (Reg.TB_RATE h.idx p.2)) + x.trim)
    { c with time := c.time.set h { x with cycles := x.cycles + 1 },
             tb := if x.role = .listening then c.tb else c.tb.set h run }

/-- The chip after one cycle of both halves. -/
def Chip.tick (c : Chip) : Chip :=
  let runs (h : Half) : Bool := !c.down.get h && decide (c.q (F.POWER_STATUS_STATE h.idx) ≤ 1)
  let k := if c.down.h then Half.T else Half.H
  let c' := (c.tickHalf .H).tickHalf .T
  if runs .H || runs .T then { c' with opTime := c.opTime + (c'.stamp k 0 + 2 ^ 64 - c.stamp k 0) % 2 ^ 64 } else c'

/-- A stamp of a base, off by an error of at most `err` units that is free (R443). -/
def Chip.captured (c : Chip) (h : Half) (n err : Nat) : Nat × Chip :=
  let (d, c) := c.draw
  ((c.stamp h n + 2 ^ 64 - err + d % (2 * err + 1)) % 2 ^ 64, c)

/-! ### Steering (R438–R440) -/

/-- The chip after a write to a base is accepted; it takes effect 500 cycles later (R438). -/
def Chip.steer (c : Chip) (h : Half) (n kind v : Nat) : Chip :=
  { c with timeWrites := c.timeWrites ++ [⟨n, kind, v, h, (c.timeOf h).cycles + 500⟩] }

/-- Why a step or rebase of a base is refused: 0 `STEP_EN` = 0, 1 a Steady engine with an enabled loop slot names it (R438). -/
def Chip.stepRefused (c : Chip) (h : Half) (n : Nat) : Option Nat :=
  if ¬ c.on (F.TB_CFG_STEP_EN h.idx n) then some 0
  else if [Half.H, Half.T].any fun k => c.q (F.STEADY_CTL_TB k.idx) == n && (List.range 16).any fun s => c.q (F.LOOP_STATE_STATE k.idx s) != 0
  then some 1 else none

/-- The chip after a register of a base is written by an initiator with the right (R450). -/
def Chip.timeWrite (c : Chip) (i : Initiator) (a : Nat) (h : Half) (n : Nat) (f : Chip → Chip) : Chip :=
  match c.portCause i true a with
  | 0 => if n = 0 ∨ c.down.get h then c else f c
  | k => c.refusalEvent h none i.owner a k i.port

/-- `TB_RATE` clamped to ±1,000 ppm, with event 0x0C01 (R438). -/
def Chip.writeRate (c : Chip) (h : Half) (n v : Nat) : Chip :=
  let r := sgn 32 v
  let lim : Int := 256000000
  if r < -lim ∨ lim < r then (c.ev h 0x0C01 [n, v]).steer h n 0 (unsgn 32 (if r < 0 then -lim else lim)) else c.steer h n 0 (v % 2 ^ 32)

/-- A step or rebase, or its refusal with event 0x0C02 (R438, R440). -/
def Chip.writeStep (c : Chip) (h : Half) (n kind v : Nat) : Chip :=
  match c.stepRefused h n with
  | some k => c.ev h 0x0C02 [n, k]
  | none => c.steer h n kind v

/-- TB_RATE (R438). -/
def execTbRate (i : Initiator) (h : Half) (n : Fin 8) (v : Word) (s : State) : Host.Outcome State Fault Refusal :=
  s.go (s.chip.timeWrite i (Reg.TB_RATE h.idx n.val) h n.val fun c => c.writeRate h n.val v.toNat)

/-- TB_STEP_LO (R438): the low word is held as R257 holds it. -/
def execTbStepLo (i : Initiator) (h : Half) (n : Fin 8) (v : Word) (s : State) : Host.Outcome State Fault Refusal :=
  s.go (s.chip.timeWrite i (Reg.TB_STEP_LO h.idx n.val) h n.val fun c => c.hold i (Reg.TB_STEP_LO h.idx n.val) v.toNat)

/-- TB_STEP_HI (R438). -/
def execTbStepHi (i : Initiator) (h : Half) (n : Fin 8) (v : Word) (s : State) : Host.Outcome State Fault Refusal :=
  s.go (s.chip.timeWrite i (Reg.TB_STEP_HI h.idx n.val) h n.val fun c =>
    c.writeStep h n.val 1 (c.held i (Reg.TB_STEP_LO h.idx n.val) + v.toNat * 2 ^ 32))

/-- TB_REBASE (R440). -/
def execTbRebase (i : Initiator) (h : Half) (n : Fin 8) (v : Word) (s : State) : Host.Outcome State Fault Refusal :=
  s.go (s.chip.timeWrite i (Reg.TB_REBASE h.idx n.val) h n.val fun c => c.writeStep h n.val 2 v.toNat)

/-- The epoch of a base as a half keeps it (R440). -/
def Chip.epoch (c : Chip) (h n : Nat) : Nat := c.q (F.TB_EPOCH_LO_EPOCH h n) + c.q (F.TB_EPOCH_HI_EPOCH h n) * 2 ^ 32

/-- The gateway time base as a half keeps it. -/
def Chip.gwNow (c : Chip) (h : Half) : Nat := c.stamp h (c.q F.GW_CTL_TB)
/-- The half whose gateway time base the device's instants follow: one in service. -/
def Chip.gwHalf (c : Chip) : Half := if c.down.h then .T else .H

/-- The stamp of the latest multiple of a period in µs on the gateway time base (R401, R404). -/
def Chip.gwLatest (c : Chip) (us : Nat) : Nat := let t := c.gwNow c.gwHalf; t - t % (max us 1 * usUnits)

/-- An instant has been served: it does not lie after the last one served (R436, R439). -/
def servedAt (last : Option Nat) (t : Nat) : Bool :=
  match last with
  | some l => decide (elapsed t l ≤ 0)
  | none => false

/-- The chip after a forward step of the gateway time base: the instants of outbound frames and polls that it stepped over count as
served (R439). -/
def Chip.skipInstants (c : Chip) : Chip :=
  let later (old : Option Nat) (t : Nat) : Option Nat := if servedAt old t then old else some t
  let frames := (c.regs.filter fun e => decide (0x00B10000 ≤ e.1 ∧ e.1 < 0x00B18000 ∧ e.1 % 0x20 = 0)).map fun e => (e.1 - 0x00B10000) / 0x20
  let c := frames.foldl (fun (c : Chip) f =>
    match later (Tbl.find? c.gwInstant f) (c.gwLatest (c.q (F.GW_TXF_PERIOD_PERIOD_US f))) with
    | some t => { c with gwInstant := Tbl.ins c.gwInstant f t }
    | none => c) c
  { c with gwRoutes := c.gwRoutes.map fun e => (e.1, { e.2 with poll := later e.2.poll (c.gwLatest (c.q (F.GW_ROUTE_PERIOD_SRC_PERIOD_US e.1))) }) }

/-- The chip with the base of one half moved by a signed number of units, and counted (R438, R439). -/
def Chip.moveBase (c : Chip) (n : Nat) (d : Int) (h : Half) : Chip :=
  let b := c.base h n
  let c := (c.setBase h n { b with val := unsgn 64 (b.val + d) }).inc (F.TB_STEP_CNT_COUNT h.idx n)
  if 0 < d ∧ h = c.gwHalf ∧ n = c.q F.GW_CTL_TB then c.skipInstants else c

/-- The chip after a write takes effect on one half's copy. -/
def Chip.steerHalf (c : Chip) (w : TimeWrite) (h : Half) : Chip :=
  if c.down.get h then c
  else match w.kind with
  | 0 => c.setReg (Reg.TB_RATE h.idx w.base) w.val
  | 1 => c.moveBase w.base (sgn 64 w.val) h
  | 2 =>
    let e := (c.epoch h.idx w.base + w.val) % 2 ^ 48
    ((c.moveBase w.base (-((w.val * 64000000000 : Nat) : Int)) h).setReg (Reg.TB_EPOCH_LO h.idx w.base) (e % 2 ^ 32)).setReg
      (Reg.TB_EPOCH_HI h.idx w.base) (e / 2 ^ 32)
  | 3 => c.setReg (Reg.TB_EPOCH_LO h.idx w.base) w.val
  | _ => c.setReg (Reg.TB_EPOCH_HI h.idx w.base) (w.val % 65536)

/-- TIME_WRITE_APPLY (R438, R440): the oldest write that is due takes effect in both halves at the same instant. -/
def execTimeWriteApply (s : State) : Host.Outcome State Fault Refusal :=
  let c := s.chip
  match c.timeWrites.find? fun w => decide (w.due ≤ (c.timeOf w.half).cycles) with
  | none => s.go c
  | some w =>
    let c := (Chip.steerHalf { c with timeWrites := c.timeWrites.erase w } w .H).steerHalf w .T
    s.go (match w.kind with
      | 1 => c.ev w.half 0x0C00 [w.base, w.val]
      | 2 => c.ev w.half 0x0C03 [w.base, w.val, c.epoch w.half.idx w.base]
      | _ => c)

/-- PTP time of a base value: seconds, nanoseconds, units of 1/64 ns (R440). -/
def ptpTime (epoch v : Nat) : Nat × Nat × Nat := (epoch + v / 64000000000, v % 64000000000 / 64, v % 64)

/-! ### Lead and follower (R441, R442) -/

/-- A half is the lead, or has become it less than 1 ms ago. -/
def Chip.leads (c : Chip) (h : Half) : Bool :=
  match (c.timeOf h).role with
  | .lead | .leading _ => true
  | _ => false

/-- The chip after a half becomes the lead, which no pulse reaches. -/
def Chip.takeLead (c : Chip) (h : Half) (r : TimeRole) : Chip :=
  (((c.setTime h { c.timeOf h with role := r }).put (F.TIME_ID_LEAD h.idx) 1).put (F.TIME_STATUS_LOCKED h.idx) 1).put
    (F.TIME_STATUS_PULSE_OK h.idx) 0

/-- LISTENING_WINDOW_EXPIRY (R441): no pulse came within the half's window, 300 µs on Headstock and 2 ms on Tailstock. -/
def execListeningWindowExpiry (h : Half) (s : State) : Host.Outcome State Fault Refusal :=
  let c := s.chip
  let x := c.timeOf h
  if x.role ≠ .listening ∨ c.down.get h ∨ x.cycles < (if h = .H then 75000 else 500000) then s.go c
  else s.go (Chip.takeLead { c with tb := c.tb.set h (List.replicate 8 ⟨0, 0⟩) } h (.leading x.cycles))

/-- LEAD_HOLD_EXPIRY (R441): a half has held the lead for 1 ms. -/
def execLeadHoldExpiry (h : Half) (s : State) : Host.Outcome State Fault Refusal :=
  let c := s.chip
  match (c.timeOf h).role with
  | .leading t => if t + 250000 ≤ (c.timeOf h).cycles ∧ ¬ c.down.get h then s.go (c.setTime h { c.timeOf h with role := .lead }) else s.go c
  | _ => s.go c

/-- TIME_PULSE_SEND (R441): every 100 µs the lead sends a pulse. -/
def execTimePulseSend (h : Half) (s : State) : Host.Outcome State Fault Refusal :=
  let c := s.chip
  let x := c.timeOf h
  if c.leads h ∧ ¬ c.down.get h ∧ x.sentAt + 25000 ≤ x.cycles then
    s.go (c.setTime h { x with sentAt := x.cycles, onWay := true })
  else s.go c

/-- The chip after a cross-check error is raised in both halves: cause 0 offset, 1 trim, 2 pulse lost (R442). -/
def Chip.xchkError (c : Chip) (h : Half) (k off : Nat) : Chip :=
  if c.on (F.TIME_STATUS_XCHK_ERR h.idx) then c
  else [h, h.other].foldl (fun (c : Chip) x =>
    ((c.put (F.TIME_STATUS_XCHK_ERR x.idx) 1).inc (F.TIME_XCHK_CNT_VALUE x.idx)).ev x 0x0C08 [x.idx, k, off]) c

/-- The chip after a cross-check error clears in both halves (R442). -/
def Chip.xchkClear (c : Chip) : Chip :=
  [Half.H, Half.T].foldl (fun (c : Chip) x =>
    if c.on (F.TIME_STATUS_XCHK_ERR x.idx) then (c.put (F.TIME_STATUS_XCHK_ERR x.idx) 0).ev x 0x0C09 [x.idx] else c) c

/-- The chip after a half that hears a pulse becomes the follower: it takes all eight values, rates and epochs from the
lead (R441). -/
def Chip.follow (c : Chip) (h : Half) : Chip :=
  let k := h.other
  let copy (a : Nat → Nat → Nat) (c : Chip) : Chip := (List.range 8).foldl (fun c n => c.setReg (a h.idx n) (c.reg (a k.idx n))) c
  let c := copy Reg.TB_EPOCH_HI (copy Reg.TB_EPOCH_LO (copy Reg.TB_RATE { c with tb := c.tb.set h (c.tb.get k) }))
  let x := c.timeOf h
  ((c.setTime h { x with role := .follower, joined := false, trim := 0, heardAt := x.cycles, far := 0, near := 0 }).put
    (F.TIME_ID_LEAD h.idx) 0).put (F.TIME_STATUS_LOCKED h.idx) 0

/-- The chip after a follower measures its offset at a pulse and trims; `strained` when it needs more than ±200 ppm. -/
def Chip.measure (c : Chip) (h : Half) (strained : Bool) : Chip :=
  let (e, c) := c.draw
  let off : Int := elapsed (c.stamp h 0) (c.stamp h.other 0) + ((e % 257 : Nat) : Int) - 128
  let lim : Int := ((c.q (F.TIME_CTL_XCHK_NS h.idx) * 64 : Nat) : Int)
  let out := decide (off < -lim ∨ lim < off)
  let lock := decide (-1280 ≤ off ∧ off ≤ 1280)
  let x := c.timeOf h
  let x := { x with heardAt := x.cycles, far := if out then x.far + 1 else 0, near := if out ∨ strained then 0 else x.near + 1, joined := x.joined || lock }
  let c := (((c.setTime h x).setReg (Reg.TIME_OFFSET h.idx) (unsgn 32 off)).put (F.TIME_STATUS_PULSE_OK h.idx) 1).put (F.TIME_STATUS_LOCKED h.idx) (b2n lock)
  let c := if strained then c.xchkError h 1 (unsgn 64 off) else if 3 ≤ x.far then c.xchkError h 0 (unsgn 64 off) else c
  let c := if 10 ≤ x.near then c.xchkClear else c
  if c.on (F.TIME_STATUS_XCHK_ERR h.idx) then c
  else
    let (d, c) := c.draw
    let m : Int := ((d % 51200001 : Nat) : Int)
    c.setTime h { c.timeOf h with trim := if 0 < off then -m else if off < 0 then m else 0 }

/-- TIME_PULSE (R441): a pulse of the other half arrives. A half that listens, and a Tailstock that has led for less than
1 ms, becomes the follower; a follower measures. -/
def execTimePulse (h : Half) (strained : Bool) (s : State) : Host.Outcome State Fault Refusal :=
  let c := s.chip
  let y := c.timeOf h.other
  if ¬ y.onWay ∨ c.down.get h then s.go c
  else
    let c := c.setTime h.other { y with onWay := false }
    match (c.timeOf h).role with
    | .listening => s.go ((c.follow h).put (F.TIME_STATUS_PULSE_OK h.idx) 1)
    | .leading t => if h = .T ∧ (c.timeOf h).cycles < t + 250000 then s.go ((c.follow h).put (F.TIME_STATUS_PULSE_OK h.idx) 1) else s.go c
    | .follower => s.go (c.measure h strained)
    | .lead => s.go c

/-- PULSE_LOSS (R442): no pulse has arrived for 300 µs. -/
def execPulseLoss (h : Half) (s : State) : Host.Outcome State Fault Refusal :=
  let c := s.chip
  let x := c.timeOf h
  if x.role = .follower ∧ ¬ c.down.get h ∧ x.heardAt + 75000 ≤ x.cycles then
    let c := ((c.setTime h { x with near := 0 }).put (F.TIME_STATUS_PULSE_OK h.idx) 0).put (F.TIME_STATUS_LOCKED h.idx) 0
    s.go (c.xchkError h 2 (unsgn 64 (sgn 32 (c.reg (Reg.TIME_OFFSET h.idx)))))
  else s.go c

/-- The chip after the lead has gone down: the follower becomes the lead with its last trim held (R442). -/
def Chip.leadLost (c : Chip) (h : Half) : Chip :=
  if c.leads h ∧ (c.timeOf h.other).role = .follower then (c.takeLead h.other .lead).ev h.other 0x0C0A [h.other.idx] else c

/-! ### PPS (R444) -/

/-- The chip after an accepted edge: the value of every base is captured. -/
def Chip.capturePps (c : Chip) (h : Half) : Chip :=
  let (d, c) := c.draw
  let c := (List.range 8).foldl (fun (c : Chip) n =>
    c.setPair (Reg.TB_PPS_LO h.idx n) (Reg.TB_PPS_HI h.idx n) ((c.stamp h n + 2 ^ 64 - 128 + d % 257) % 2 ^ 64)) c
  (c.setTime h { c.timeOf h with pps := some (c.stamp h 0) }).inc (F.TIME_PPS_CNT_COUNT h.idx)

/-- PPS_EDGE (R444): an edge at a half's PPS input is accepted, or rejected with event 0x0C10. -/
def execPpsEdge (h : Half) (falling : Bool) (s : State) : Host.Outcome State Fault Refusal :=
  let c := s.chip
  if ¬ c.on (F.TIME_PPS_CFG_ENABLE h.idx) ∨ c.on (F.TIME_PPS_CFG_POL h.idx) ≠ falling ∨ c.down.get h ∨ ¬ c.timeReady h then s.go c
  else match (c.timeOf h).pps with
    | none => s.go (c.capturePps h)
    | some t =>
      let d := elapsed (c.stamp h 0) t
      let win : Int := ((c.q (F.TIME_PPS_CFG_WIN_US h.idx) * usUnits : Nat) : Int)
      if 64000000000 - win ≤ d ∧ d ≤ 64000000000 + win then s.go (c.capturePps h)
      else s.go ((c.inc (F.TIME_PPS_REJ_COUNT h.idx)).ev h 0x0C10 [h.idx, unsgn 64 d])

/-- PPS_MISSING (R444): no edge was accepted within 1 s + `WIN_US`; the next edge is treated as the first. -/
def execPpsMissing (h : Half) (s : State) : Host.Outcome State Fault Refusal :=
  let c := s.chip
  match (c.timeOf h).pps with
  | none => s.go c
  | some t =>
    if c.on (F.TIME_PPS_CFG_ENABLE h.idx) ∧ ¬ c.down.get h ∧
        ((64000000000 + c.q (F.TIME_PPS_CFG_WIN_US h.idx) * usUnits : Nat) : Int) < elapsed (c.stamp h 0) t
    then s.go ((c.setTime h { c.timeOf h with pps := none }).ev h 0x0C11 [h.idx]) else s.go c

/-! ### PTP stamps (R445–R447) -/

/-- A PTP message in an Ethernet frame: the offset of its header, the offset of its UDP checksum and whether that is an IPv4
one, and the count of VLAN tags. -/
structure PtpAt where
  off : Nat
  sum : Option (Nat × Bool)
  tags : Nat
deriving DecidableEq, Repr

/-- A big-endian 16-bit word of a frame. -/
def be16 (d : List Byte) (k : Nat) : Nat := (d.getD k 0).toNat * 256 + (d.getD (k + 1) 0).toNat

/-- Where a frame carries a PTP event message: over Ethernet, or over UDP to port 319 on IPv4 without options or IPv6
without extension headers (R445); `k` is the offset of the EtherType. -/
def ptpFind (d : List Byte) : Nat → Nat → Nat → Option PtpAt
  | 0, _, _ => none
  | n + 1, k, tags =>
    let t := be16 d k
    let b (j : Nat) : Nat := (d.getD (k + 2 + j) 0).toNat
    if t = 0x8100 ∨ t = 0x88A8 then ptpFind d n (k + 4) (tags + 1)
    else if t = 0x88F7 then some ⟨k + 2, none, tags⟩
    else if t = 0x0800 ∧ b 0 = 0x45 ∧ b 9 = 17 ∧ be16 d (k + 24) = 319 then some ⟨k + 30, some (k + 28, true), tags⟩
    else if t = 0x86DD ∧ b 0 / 16 = 6 ∧ b 6 = 17 ∧ be16 d (k + 44) = 319 then some ⟨k + 50, some (k + 48, false), tags⟩
    else none

/-- An event message of versionPTP 2 in a frame (R445). -/
def ptpOf (d : List Byte) : Option PtpAt :=
  match ptpFind d 8 12 0 with
  | some p =>
    let b (j : Nat) : Nat := (d.getD (p.off + j) 0).toNat
    if b 0 % 16 ≤ 3 ∧ b 1 % 16 = 2 ∧ b 1 / 16 ≤ 1 then some p else none
  | none => none

/-- The domain entry of a MAC that a domainNumber matches. -/
def Chip.ptpDomain (c : Chip) (mac dom : Nat) : Option Nat :=
  (List.range 8).find? fun k => c.on (F.TIME_PTP_DOM_VALID (mac / 4) (mac % 4) k) && c.q (F.TIME_PTP_DOM_DOMAIN (mac / 4) (mac % 4) k) == dom

/-- Accuracy of a stamp at a MAC, in units of 1/64 ns, by `SPEED` (R443). -/
def Chip.ptpError (c : Chip) (mac : Nat) : Nat :=
  match c.q (F.GW_ETH_CFG_SPEED mac) with
  | 0 => 2560
  | 1 => 512
  | _ => 128

/-- The chip after a stamp reaches a FIFO of a MAC, or is lost (R446). -/
def Chip.ptpPush (c : Chip) (mac : Nat) (rx : Bool) (x : PtpStamp) : Chip :=
  let l := (Tbl.find? (if rx then c.ptpRx else c.ptpTx) mac).getD []
  let key := mac + 8 * b2n rx
  if 64 ≤ l.length then
    let c' := (if rx then c.inc (F.TIME_TS_LOST_RX_LOST (mac / 4) (mac % 4)) else c.inc (F.TIME_TS_LOST_TX_LOST (mac / 4) (mac % 4)))
    if c.ptpRun.contains key then c'
    else Chip.ev { c' with ptpRun := key :: c'.ptpRun } (Half.ofIdx (mac / 4)) 0x0C18 [mac, b2n rx]
  else
    let c := { c with ptpRun := c.ptpRun.filter (· != key) }
    if rx then { c with ptpRx := Tbl.ins c.ptpRx mac (l ++ [x]) } else { c with ptpTx := Tbl.ins c.ptpTx mac (l ++ [x]) }

/-- The FIFO entry of a message with its stamp. -/
def ptpEntry (d : List Byte) (p : PtpAt) (stamp : Nat) : PtpStamp :=
  ⟨(d.getD p.off 0).toNat % 16, (d.getD (p.off + 4) 0).toNat, be16 d (p.off + 30), stamp⟩

/-- The frame with bytes replaced from an offset, most significant first. -/
def putBe (d : List Byte) (off n v : Nat) : List Byte :=
  (List.range n).foldl (fun d k => d.set (off + k) (BitVec.ofNat 8 (v / 256 ^ (n - 1 - k)))) d

/-- A one's-complement sum folded to 16 bits. -/
def fold16 (v : Nat) : Nat := let w := v % 65536 + v / 65536; let w := w % 65536 + w / 65536; w % 65536 + w / 65536

/-- A checksum updated for changed 16-bit words, by RFC 1624. -/
def rfc1624 (sum : Nat) (old new : List Nat) : Nat :=
  65535 - fold16 ((65535 - sum) + (old.map fun m => 65535 - m).sum + new.sum)

/-- The frame of a one-step Sync completed at its egress stamp `t` (R447). -/
def oneStep (d : List Byte) (p : PtpAt) (epoch t : Nat) : List Byte :=
  let (sec, ns, sub) := ptpTime epoch t
  let cf := (List.range 8).foldl (fun v k => v * 256 + (d.getD (p.off + 8 + k) 0).toNat) 0
  let d' := putBe (putBe (putBe d (p.off + 34) 6 sec) (p.off + 40) 4 ns) (p.off + 8) 8 ((cf + sub * 1024) % 2 ^ 64)
  match p.sum with
  | none => d'
  | some (at', v4) =>
    let hc := be16 d at'
    if v4 ∧ hc = 0 then d'
    else
      let ws := ((List.range 4).map fun k => p.off + 8 + 2 * k) ++ (List.range 5).map fun k => p.off + 34 + 2 * k
      putBe d' at' 2 (rfc1624 hc (ws.map (be16 d)) (ws.map (be16 d')))

/-- The frame as it leaves a MAC, and the chip after its stamp (R445–R447). -/
def Chip.ptpEgress (c : Chip) (mac : Nat) (d : List Byte) : List Byte × Chip :=
  let h := Half.ofIdx (mac / 4)
  match if c.timeReady h then ptpOf d else none with
  | none => (d, c)
  | some p =>
    let dom := (d.getD (p.off + 4) 0).toNat
    match c.ptpDomain mac dom with
    | none => (d, c)
    | some k =>
      let n := c.q (F.TIME_PTP_DOM_TB h.idx (mac % 4) k)
      let sync := c.on (F.TIME_PTP_DOM_ONE_STEP h.idx (mac % 4) k) && (d.getD p.off 0).toNat % 16 == 0 && !bit (d.getD (p.off + 6) 0).toNat 1
      if sync && decide (1 < p.tags) then (d, c.ev h 0x0C19 [mac, dom, be16 d (p.off + 30)])
      else if 1 < p.tags then (d, c)
      else
        let (t0, c) := c.captured h n (c.ptpError mac)
        let t := unsgn 64 (t0 + sgn 16 (c.q (F.TIME_MAC_ADJ_EGRESS h.idx (mac % 4))))
        let c := c.ptpPush mac false (ptpEntry d p t)
        if ¬ sync then (d, c)
        else if d.length < p.off + 44 then (d, c.ev h 0x0C19 [mac, dom, be16 d (p.off + 30)])
        else (oneStep d p (c.epoch h.idx n) t, c)

/-- The chip after a frame arrives at a MAC: the stamp of a PTP event message enters the receive FIFO (R445, R446). -/
def Chip.ptpIngress (c : Chip) (mac : Nat) (d : List Byte) : Chip :=
  let h := Half.ofIdx (mac / 4)
  match if c.timeReady h then ptpOf d else none with
  | none => c
  | some p =>
    match c.ptpDomain mac (d.getD (p.off + 4) 0).toNat with
    | none => c
    | some k =>
      if 1 < p.tags then c
      else
        let (t, c) := c.captured h (c.q (F.TIME_PTP_DOM_TB h.idx (mac % 4) k)) (c.ptpError mac)
        c.ptpPush mac true (ptpEntry d p (unsgn 64 (t + sgn 16 (c.q (F.TIME_MAC_ADJ_INGRESS h.idx (mac % 4))))))

/-- The chip with the answer to a read. -/
def Chip.answering (c : Chip) (i : Initiator) (a v : Nat) : Chip := { c with answer := some ⟨i.owner, i.port, a, BitVec.ofNat 64 v, [], false⟩ }

/-- The chip after a read of an INFO register: the head entry is answered and removed, and its stamp held (R446). -/
def Chip.ptpPop (c : Chip) (i : Initiator) (a lo hi : Nat) (l : List PtpStamp) (f : List PtpStamp → Chip → Chip) : Chip :=
  match l with
  | [] => c.answering i a 0
  | x :: rest =>
    (((f rest c).hold i lo (x.stamp % 2 ^ 32)).hold i hi (x.stamp / 2 ^ 32)).answering i a
      (2 ^ 31 + x.msgType % 16 * 2 ^ 24 + x.domain % 256 * 2 ^ 16 + x.seqId % 65536)

/-- TXTS_INFO_READ (R446). -/
def execTxtsInfoRead (i : Initiator) (m : Fin 8) (s : State) : Host.Outcome State Fault Refusal :=
  let c := s.chip
  let (h, k) := (m.val / 4, m.val % 4)
  let a := Reg.TIME_TXTS_INFO h k
  match c.portCause i false a with
  | 0 => s.go (if c.down.get (Half.ofIdx h) then c.answering i a 0 else c.ptpPop i a (Reg.TIME_TXTS_LO h k) (Reg.TIME_TXTS_HI h k) ((Tbl.find? c.ptpTx m.val).getD [])
      fun l c => { c with ptpTx := Tbl.ins c.ptpTx m.val l })
  | e => s.go ((c.refusalEvent (Half.ofIdx h) none i.owner a e i.port).answering i a 0)

/-- RXTS_INFO_READ (R446). -/
def execRxtsInfoRead (i : Initiator) (m : Fin 8) (s : State) : Host.Outcome State Fault Refusal :=
  let c := s.chip
  let (h, k) := (m.val / 4, m.val % 4)
  let a := Reg.TIME_RXTS_INFO h k
  match c.portCause i false a with
  | 0 => s.go (if c.down.get (Half.ofIdx h) then c.answering i a 0 else c.ptpPop i a (Reg.TIME_RXTS_LO h k) (Reg.TIME_RXTS_HI h k) ((Tbl.find? c.ptpRx m.val).getD [])
      fun l c => { c with ptpRx := Tbl.ins c.ptpRx m.val l })
  | e => s.go ((c.refusalEvent (Half.ofIdx h) none i.owner a e i.port).answering i a 0)

end Sys2Proof.Machine
end

