-- ==== Sys2Proof/Machine/Gateway.lean ====
section
/-! DEFINITION. The gateway bridge (R393–R412): controllers and their queues, routes and outbound frames, sends, requests
and fences, receive channels, gate control, side-band lines. -/

namespace Sys2Proof.Machine

/-! ### Controllers (R393–R398) -/

/-- A controller code names a CAN controller. -/
def isCan (p : Nat) : Bool := decide (p < 12)
/-- A controller code names a MAC. -/
def isMac (p : Nat) : Bool := decide (16 ≤ p ∧ p < 24)
/-- The half of a port. -/
def portHalf (p : Nat) : Half := if p < 6 ∨ (16 ≤ p ∧ p < 20) then .H else .T

/-- Error state of a CAN controller: 0 active, 1 passive, 2 bus-off, 3 disabled. -/
def Chip.canState (c : Chip) (n : Nat) : Nat := c.q (F.GW_CAN_STAT_STATE n)

/-- A port is enabled, on a half in service, not gated, with link on a MAC and not bus-off on a CAN controller (R406, R519). -/
def Chip.portUp (c : Chip) (p : Nat) : Bool :=
  !c.down.get (portHalf p) && c.unitOn (if isCan p then 88 + p else 84 + p) &&
    if isCan p then decide (c.canState p ≤ 1)
    else isMac p && c.on (F.GW_ETH_CFG_ENABLE (p - 16)) && c.on (F.GW_ETH_STAT_LINK (p - 16))

/-- A controller carries frames of a format, the code of R407: every MAC its own, a CAN controller what its `MODE` names (R394). -/
def Chip.carries (c : Chip) (p fmt : Nat) : Bool :=
  isMac p || match fmt % 4 with
    | 0 => true
    | 1 => c.q (F.GW_CAN_CFG_MODE p) % 2 == 1
    | 2 => decide (2 ≤ c.q (F.GW_CAN_CFG_MODE p))
    | _ => false

/-- A controller sends frames of its own: not in bus monitoring or restricted operation mode (R394; what these modes stop is that of
ISO 11898-1, PRESUMED: log 159). -/
def Chip.mayDrive (c : Chip) (p : Nat) : Bool := !(isCan p && (c.on (F.GW_CAN_CFG_MONITOR p) || c.on (F.GW_CAN_CFG_RESTRICTED p)))

/-- The traffic class of an Ethernet frame: its PCP where it is tagged (R397). -/
def frameClass (f : GFrame) : Nat :=
  if (f.data.getD 12 0).toNat = 0x81 ∧ (f.data.getD 13 0).toNat = 0 then (f.data.getD 14 0).toNat / 32 else 0

/-- Bits per second of a bit-timing register at 80 MHz (R394). -/
def bitRate (w : Nat) : Nat := 80000000 / ((bits w 24 8 + 1) * (1 + (bits w 16 8 + 1) + (bits w 8 7 + 1)))

/-- The configuration of a CAN controller lies within the limits of R394. -/
def Chip.canGood (c : Chip) (n : Nat) : Bool :=
  let nom := bitRate (c.reg (Reg.GW_CAN_NBT n))
  let dat := bitRate (c.reg (Reg.GW_CAN_DBT n))
  match c.q (F.GW_CAN_CFG_MODE n) with
  | 0 => decide (10000 ≤ nom ∧ nom ≤ 1000000)
  | 1 | 3 => decide (10000 ≤ nom ∧ nom ≤ 1000000 ∧ dat ≤ 8000000)
  | 2 => decide (10000 ≤ nom ∧ nom ≤ 1000000 ∧ dat ≤ 20000000)
  | _ => false

/-- The chip with a CAN controller in service or disabled as its configuration has it (R394). -/
def Chip.syncCan (c : Chip) (n : Nat) : Chip :=
  if ¬ (c.on (F.GW_CAN_CFG_ENABLE n) ∧ c.canGood n) then c.put (F.GW_CAN_STAT_STATE n) 3
  else if c.canState n = 3 then c.put (F.GW_CAN_STAT_STATE n) 0 else c

/-- The queued frames of a port, of one traffic class on a MAC. -/
def Chip.queueOf (c : Chip) (p tc : Nat) : List GQueued := c.gwQueue.filter fun q => q.port == p && (isCan p || q.tc == tc)

/-- A frame in a queue comes from a party's command. -/
def GQueued.byParty (q : GQueued) : Bool :=
  match q.src with
  | .cmd _ => true
  | _ => false

/-- A queue has room for a frame of a partition, or for one of a route, whose sixteen entries no other takes (R396, R398). -/
def Chip.queueRoom (c : Chip) (p tc part : Nat) (byParty : Bool) : Bool :=
  let l := c.queueOf p tc
  let mine := l.filter GQueued.byParty
  let quota := if isCan p then c.q (F.GW_CAN_SA_TX_QUOTA p) else 16 * c.q (F.GW_ETH_CFG_TX_QUOTA (p - 16))
  if byParty then decide ((mine.filter (·.part == part)).length < quota ∧ mine.length < (if isCan p then 48 else 112))
  else decide (l.length - mine.length < 16)

/-- The chip with `GW_CAN_STAT.QUEUED` as the queue has it. -/
def Chip.syncQueued (c : Chip) (p : Nat) : Chip :=
  if isCan p then c.put (F.GW_CAN_STAT_QUEUED p) (c.queueOf p 0).length else c

/-- The identifier with the claimed address in bits [7:0] (R395). -/
def withSa (ident : BitVec 32) (sa : Nat) : BitVec 32 := BitVec.ofNat 32 (ident.toNat / 256 * 256 + sa % 256)

/-- Bits per microsecond of a MAC by its `SPEED` (R397, R414). -/
def Chip.macRate (c : Chip) (m : Nat) : Nat := [10, 100, 1000, 2500, 5000, 10000].getD (c.q (F.GW_ETH_CFG_SPEED m)) 10

/-- The idle slope in bits per microsecond with which a MAC shapes a traffic class: that of `GW_ETH_CBS` for the first class, one that
is not stated for the second (R397, R414; log 160). -/
def Chip.idleSlope (c : Chip) (m tc : Nat) : Option Nat :=
  let w := c.reg (Reg.GW_ETH_CBS m)
  if bit w 25 ∧ bits w 29 3 = tc then some (bits w 0 24)
  else if bit w 24 ∧ bits w 26 3 = tc then some ((Config.freeAt 8 [m]).toNat % 2 ^ 24) else none

/-- The credit of a shaped class at a stamp, in bits × 64,000: it rises with the idle slope (R397). -/
def Chip.creditAt (c : Chip) (m tc slope t : Nat) : Int :=
  match Tbl.find? c.gwCredit (8 * m + tc) with
  | some (v, since) => v + slope * max 0 (elapsed t since)
  | none => 0

/-- The chip before a frame enters a class's queue: an empty queue has kept no credit above 0 (R397). -/
def Chip.settleCredit (c : Chip) (p tc : Nat) : Chip :=
  match if isMac p ∧ c.queueOf p tc = [] then c.idleSlope (p - 16) tc else none with
  | some k =>
    let now := c.stamp (portHalf p) 0
    { c with gwCredit := Tbl.ins c.gwCredit (8 * (p - 16) + tc) (min 0 (c.creditAt (p - 16) tc k now), now) }
  | none => c

/-- The chip after a frame enters a queue; R395 is applied, or the frame withheld with event 0x0A20. -/
def Chip.enqueue (c : Chip) (q : GQueued) (j1939 : Bool) : Chip :=
  let c := c.settleCredit q.port q.tc
  if j1939 ∧ isCan q.port then
    if c.on (F.GW_CAN_SA_SA_VALID q.port) then
      { c with gwQueue := c.gwQueue ++ [{ q with frame := { q.frame with ident := withSa q.frame.ident (c.q (F.GW_CAN_SA_SA q.port)) } }] }.syncQueued q.port
    else ({ c with gwQueue := c.gwQueue ++ [{ q with needSa := true }] }.ev (portHalf q.port) 0x0A20 [q.port]).syncQueued q.port
  else { c with gwQueue := c.gwQueue ++ [q] }.syncQueued q.port

/-! ### Outcomes of sends (R408, R409) -/

/-- The chip with a send replaced. -/
def Chip.setSend (c : Chip) (x : GSend) : Chip := { c with gwSends := c.gwSends.map fun y : GSend => if y.id = x.id then x else y }
/-- The chip without a send. -/
def Chip.dropSend (c : Chip) (i : CmdId) : Chip := { c with gwSends := c.gwSends.filter fun y => y.id != i }
/-- A send. -/
def Chip.send? (c : Chip) (i : CmdId) : Option GSend := c.gwSends.find? fun y => y.id == i

/-- The `detail` of a bridge command (R408). -/
def GSend.detail (x : GSend) (cause bytes : Nat) : Nat :=
  cause + x.port * 256 + bytes % 65536 * 65536 + (match x.sentAt with | some t => compact t | none => 0) * 2 ^ 32

/-- The chip after a late error is registered (R409). -/
def Chip.lateError (c : Chip) (x : GSend) (cause : Nat) : Chip :=
  let h := portHalf x.port
  let c := (c.inc F.GW_LATE_CNT_COUNT).evOf h 0x0A10 x.owner
    [x.tag + x.id.seq.toNat * 2 ^ 32, x.addr + x.port * 2 ^ 56 + 2 ^ 63 * b2n (isMac x.port), c.stamp h 0, cause + x.id.ring.val * 65536, 0]
  if c.gwLate.contains x.owner then c else { c with gwLate := x.owner :: c.gwLate }

/-- The chip after a live command of a send completes; a failure with FAR_ERROR. -/
def Chip.endSend (c : Chip) (x : GSend) (cause bytes : Nat) : Chip :=
  let c := c.setSend { x with live := false }
  match c.cmd? x.id with
  | some m =>
    if m.stage ≠ .running then c
    else if cause = 0 then c.complete m (x.detail 0 bytes) else c.complete (m.endWith .farError (x.detail cause bytes)) 0
  | none => c

/-- The chip after a send fails: its command completes with FAR_ERROR, or a late error is registered. -/
def Chip.failSend (c : Chip) (x : GSend) (cause bytes : Nat) : Chip :=
  let c := if x.live then c.endSend x cause bytes else c.lateError x cause
  if cause = 8 ∨ cause = 9 then c else c.dropSend x.id

/-- The chip after a queued frame is discarded with a cause. -/
def Chip.failQueued (c : Chip) (q : GQueued) (cause : Nat) : Chip :=
  match q.src with
  | .cmd id => match c.send? id with
    | some x => c.failSend x cause 0
    | none => c
  | _ => c

/-- The chip after every queued frame of a port is discarded with a cause. -/
def Chip.failPort (c : Chip) (p cause : Nat) : Chip :=
  let l := c.gwQueue.filter fun q => q.port == p
  let c := { c with gwQueue := c.gwQueue.filter fun q => q.port != p }.syncQueued p
  l.foldl (fun c q => c.failQueued q cause) c

/-- The chip after a half is lost with which open sends had transmitted: they fail, and of the others nothing is left to know (R408). -/
def Chip.failSent (c : Chip) (h : Half) : Chip :=
  (c.gwSends.filter fun x => portHalf x.port == h).foldl (fun c x =>
    if x.live then c.failSend { x with resp := none } 10 0 else c.dropSend x.id) c

/-! ### Fields of payloads (R403) -/

/-- Payload bit `b`; a bit past the end is free. -/
def payloadBit (draw : Nat) (d : List Byte) (b : Nat) : Bool := bit ((d.getD (b / 8) (Config.freeByte draw (b / 8))).toNat) (b % 8)

/-- The payload bit after `b`, from the start bit on, in a byte order. -/
def nextBit (be : Bool) (b : Nat) : Nat := if be then (if b % 8 = 0 then b + 15 else b - 1) else b + 1

/-- The `n` payload bits of a field from its start bit. -/
def fieldBits (be : Bool) : Nat → Nat → List Nat
  | 0, _ => []
  | n + 1, b => b :: fieldBits be n (nextBit be b)

/-- The raw field of `n` bits at a start bit. -/
def readField (draw : Nat) (d : List Byte) (start n : Nat) (be : Bool) : Nat :=
  let l := fieldBits be n start
  ((if be then l.reverse else l).zipIdx.map fun p => 2 ^ p.2 * b2n (payloadBit draw d p.1)).sum

/-- The payload with a field of `n` bits packed at a start bit; bits past its end are dropped. -/
def packField (d : List Byte) (start n : Nat) (be : Bool) (v : Nat) : List Byte :=
  let l := fieldBits be n start
  (if be then l.reverse else l).zipIdx.foldl (fun d p =>
    match d[p.1 / 8]? with
    | some x => d.set (p.1 / 8) (BitVec.ofNat 8 (setBit x.toNat (p.1 % 8) (bit v p.2)))
    | none => d) d

/-- The output field of a value: with its saturation, and whether a free draw was used (R403). -/
def Chip.outField (c : Chip) (r raw : Nat) : Nat × Bool :=
  let n := c.q (F.GW_ROUTE_OUT_OUT_LEN r) + 1
  if c.on (F.GW_ROUTE_IN_RAW r) then (raw % 2 ^ n, false)
  else
    let w := c.q (F.GW_ROUTE_IN_IN_LEN r) + 1
    let x := if c.q (F.GW_ROUTE_CFG_SRC_KIND r) = 4 then v32 raw
      else FV.ofInt (if c.on (F.GW_ROUTE_IN_IN_SGN r) then sgn w raw else (raw % 2 ^ w : Nat))
    let v := add32 (mul32 (f32 x) (v32 (c.q (F.GW_ROUTE_FACTOR_FACTOR r)))) (v32 (c.q (F.GW_ROUTE_OFFSET_OFFSET r)))
    let signed := c.on (F.GW_ROUTE_OUT_OUT_SGN r)
    let lo : Int := if signed then -(2 ^ (n - 1) : Nat) else 0
    let hi : Int := if signed then ((2 ^ (n - 1) : Nat) : Int) - 1 else ((2 ^ n : Nat) : Int) - 1
    match v with
    | .nan => ((Config.freeValue c.freeCnt).toNat % 2 ^ n, false)
    | .inf s => (unsgn n (if s then lo else hi), true)
    | _ =>
      let i := (FV.toInt .rne v).getD 0
      if i < lo then (unsgn n lo, true) else if hi < i then (unsgn n hi, true) else (unsgn n i, false)

/-! ### Routes (R400–R405) -/

/-- The routes that exist: those whose `GW_ROUTE_CFG` has been written with `VALID` = 1. -/
def Chip.routes (c : Chip) : List Nat :=
  (c.regs.filter fun e => decide (0x00B40000 ≤ e.1 ∧ e.1 < 0x00B60000 ∧ e.1 % 0x20 = 0) && bit e.2.toNat 31).map fun e => (e.1 - 0x00B40000) / 0x20

/-- The outbound frames whose `GW_TXF_CFG` has been written with `VALID` = 1. -/
def Chip.txFrames (c : Chip) : List Nat :=
  (c.regs.filter fun e => decide (0x00B10000 ≤ e.1 ∧ e.1 < 0x00B18000 ∧ e.1 % 0x20 = 0) && bit e.2.toNat 31).map fun e => (e.1 - 0x00B10000) / 0x20

/-- The receive channels that exist. -/
def Chip.channels (c : Chip) : List Nat :=
  (c.regs.filter fun e => decide (0x00B60000 ≤ e.1 ∧ e.1 < 0x00B62000 ∧ e.1 % 0x20 = 0) && bit e.2.toNat 31).map fun e => (e.1 - 0x00B60000) / 0x20

/-- A route. -/
def Chip.route (c : Chip) (r : Nat) : RouteSt := Tbl.look RouteSt.zero c.gwRoutes r
/-- The chip with a route replaced. -/
def Chip.setRoute (c : Chip) (r : Nat) (x : RouteSt) : Chip := { c with gwRoutes := Tbl.put RouteSt.zero c.gwRoutes r x }

/-- What a match of R401 compares: the identifier word of a CAN frame; EtherType [31:16] and VLAN ID [11:0] of an Ethernet
frame. -/
def frameKey (f : GFrame) (p : Nat) : Nat :=
  if isCan p then f.ident.toNat
  else
    let w (k : Nat) := (f.data.getD k 0).toNat * 256 + (f.data.getD (k + 1) 0).toNat
    if w 12 = 0x8100 then w 16 * 65536 + w 14 % 4096 else w 12 * 65536

/-- A key matches under a mask. -/
def matchKey (key m mask : Nat) : Bool := Nat.land key mask == Nat.land m mask

/-- The signal routes into an outbound frame. -/
def Chip.routesInto (c : Chip) (f : Nat) : List Nat :=
  c.routes.filter fun r => c.q (F.GW_ROUTE_CFG_KIND r) == 0 && c.q (F.GW_ROUTE_CFG_TXF r) == f

/-- The chip after a route takes a value. -/
def Chip.routeTakes (c : Chip) (r v origin : Nat) : Chip :=
  let x := c.route r
  c.setRoute r { x with val := v, origin := some origin, fresh := true, stale := false }

/-- The age of a route's value in units of 1/64 ns at an instant; none where it holds no value (R402). -/
def Chip.routeAge (c : Chip) (r now : Nat) : Option Nat := (c.route r).origin.map fun t => (elapsed now t).toNat

/-- The value of a route is at most 2P old (R404). -/
def Chip.routeYoung (c : Chip) (r f now : Nat) : Bool :=
  let p := max (c.q (F.GW_ROUTE_PERIOD_SRC_PERIOD_US r)) (c.q (F.GW_TXF_PERIOD_PERIOD_US f))
  match c.routeAge r now with
  | some a => decide (a ≤ 2 * p * usUnits)
  | none => false

/-! ### Transmitters (R406) -/

/-- The transmitter that sends for a pair of controller codes. -/
def Chip.chooseTx (c : Chip) (gated : Bool) (t0 t1 : Nat) : Option Nat :=
  let can (p : Nat) : Bool := p != 31 && c.portUp p && (!gated || c.outEn (portHalf p))
  if can t0 then some t0 else if can t1 then some t1 else none

/-- The chip after a transmitter, or none, is chosen for an outbound frame or frame route: event 0x0A1A at a change,
0x0A1B once for each run without one. -/
def Chip.noteTx (c : Chip) (key : Nat) (t : Option Nat) (t0 t1 : Nat) : Chip :=
  let x := Tbl.look ⟨none, false⟩ c.gwTx key
  let no := if key < 1024 then key else key - 1024
  match t with
  | some p =>
    let c := { c with gwTx := Tbl.ins c.gwTx key ⟨some p, false⟩ }
    match x.last with
    | some o => if o = p then c else c.ev (portHalf p) 0x0A1A [no, o, p]
    | none => c
  | none =>
    let c := { c with gwTx := Tbl.ins c.gwTx key { x with without := true } }
    if x.without then c else c.ev c.gwHalf 0x0A1B [no, t0, t1]

/-- Neither half drives. -/
def Chip.noOutEn (c : Chip) : Bool := !c.outEn .H && !c.outEn .T

/-- The rank at which a partition's frames are handed over (R396). -/
def Chip.gwRank (c : Chip) (part : Nat) : Nat := if part = 0 then 0 else c.partClass part + 1

/-! ### Outbound frames (R404) -/

/-- The template of an outbound frame: its payload bytes (R414). -/
def Chip.template (c : Chip) (f n : Nat) : List Byte :=
  (List.range n).map fun k => BitVec.ofNat 8 (c.reg (0x01600000 + f * 0x800 + k / 4 * 4) / 256 ^ (k % 4))

/-- The chip, and the payload, after one route is packed: its latest value, or its substitute with event 0x0A18. -/
def Chip.packRoute (c : Chip) (f now r : Nat) (d : List Byte) : List Byte × Chip :=
  let x := c.route r
  let n := c.q (F.GW_ROUTE_OUT_OUT_LEN r) + 1
  let put (v : Nat) : List Byte := packField d (c.q (F.GW_ROUTE_OUT_OUT_START r)) n (c.on (F.GW_ROUTE_OUT_OUT_BE r)) v
  if c.routeYoung r f now then
    let (v, sat) := c.outField r x.val
    let c := { c with freeCnt := c.freeCnt + 1 }.setRoute r { x with fresh := false }
    (put v, if sat then c.inc F.GW_CLAMP_CNT_COUNT else c)
  else
    let v := if c.q (F.GW_ROUTE_IN_SUBST r) = 0 then 2 ^ n - 1 else 0
    let c := c.setRoute r { x with fresh := false, stale := true }
    (put v, if x.stale then c else (c.inc F.GW_STALE_CNT_COUNT).ev c.gwHalf 0x0A18
      [r, (match c.routeAge r now with | some a => a | none => 2 ^ 64 - 1)])

/-- The chip and the payload after the check-value units of a half take an assembled frame: the inserting ones first, over
the payload with their field zero, then the others (R426, R429). -/
def Chip.cvuOutbound (c : Chip) (h : Half) (f : Nat) (d : List Byte) : List Byte × Chip :=
  let l := c.cvusOf h 2 f
  let (d, c) := (l.filter fun n => c.on (F.CVU_CFG_INSERT n)).foldl (fun (a : List Byte × Chip) n =>
    match a.2.cvuPoly n with
    | none => a
    | some p =>
      let at0 := a.2.q (F.CVU_CFG_INS_START n)
      let z := packField a.1 at0 p.width false 0
      (packField z at0 p.width false (p.finish (p.bytes p.init z)), a.2.cvuFrame n z)) (d, c)
  (d, (l.filter fun n => !c.on (F.CVU_CFG_INSERT n)).foldl (fun c n => c.cvuFrame n d) c)

/-- The chip after an outbound frame is assembled and queued at a transmitter. -/
def Chip.assemble (c : Chip) (f p now : Nat) (rs : List Nat) : Chip :=
  let (d, c) := rs.foldl (fun (a : List Byte × Chip) r => a.2.packRoute f now r a.1) (c.template f (c.q (F.GW_TXF_CFG_LEN f)), c)
  let h := portHalf p
  let two := [c.q (F.GW_TXF_CFG_TX0 f), c.q (F.GW_TXF_CFG_TX1 f)].any fun t => t != 31 && portHalf t == h.other && !c.down.get h.other
  let c := if two then (c.cvuOutbound h.other f d).2 else c
  let (d, c) := c.cvuOutbound h f d
  let ident := c.reg (Reg.GW_TXF_ID f)
  let part := rs.foldl (fun a r => let b := c.q (F.GW_ROUTE_CFG_PART r); if c.gwRank b < c.gwRank a then b else a) (c.q (F.GW_ROUTE_CFG_PART (rs.headD 0)))
  let tc := if isMac p then ident % 8 else 0
  if c.queueRoom p tc part false then
    c.enqueue ⟨p, tc, ⟨c.q (F.GW_TXF_CFG_FMT f), BitVec.ofNat 32 ident, 0, 0, 0, d⟩, part, c.gwRank part, false, .txf f, now⟩
      (c.on (F.GW_TXF_CFG_J1939 f))
  else (c.inc F.GW_DROP_CNT_COUNT).ev (portHalf p) 0x0A19 [f, c.q F.GW_DROP_CNT_COUNT + 1]

/-- The chip after an outbound frame is examined: `again` when OUT_EN has just risen (R404, R406). -/
def Chip.frameInstant (c : Chip) (f : Nat) (again : Bool) : Chip :=
  let now := c.stamp c.gwHalf 0
  let rs := c.routesInto f
  let gated := rs.any fun r => c.on (F.GW_ROUTE_CFG_GATED r)
  let due := if again then rs.any fun r => c.routeYoung r f now
    else rs.any fun r => let x := c.route r; (x.fresh && c.routeYoung r f now) || (!c.routeYoung r f now && !x.stale)
  if ¬ due then c
  else
    let t0 := c.q (F.GW_TXF_CFG_TX0 f)
    let t1 := c.q (F.GW_TXF_CFG_TX1 f)
    if gated ∧ c.noOutEn then (if c.gwHeld.contains f then c else { c with gwHeld := c.gwHeld ++ [f] })
    else
      let t := c.chooseTx gated t0 t1
      let c := c.noteTx f t t0 t1
      match t with
      | some p => c.assemble f p now rs
      | none => c

/-- OUTBOUND_FRAME_INSTANT (R404): an instant of an outbound frame has come; each is served at most once (R439). -/
def execOutboundFrameInstant (f : Fin 1024) (s : State) : Host.Outcome State Fault Refusal :=
  let c := s.chip
  let k := c.gwLatest (c.q (F.GW_TXF_PERIOD_PERIOD_US f.val))
  let served := servedAt (Tbl.find? c.gwInstant f.val) k
  if ¬ (c.on F.GW_CTL_ENABLE ∧ c.on (F.GW_TXF_CFG_VALID f.val) ∧ c.timeReady c.gwHalf) ∨ served then s.go c
  else s.go (Chip.frameInstant { c with gwInstant := Tbl.ins c.gwInstant f.val k } f.val false)

/-! ### Frame routes (R405) -/

/-- The chip after a run of drops on a route begins or goes on. -/
def Chip.routeDrops (c : Chip) (r n : Nat) : Chip :=
  if n = 0 then c
  else
    let x := c.route r
    let c := (c.count F.GW_DROP_CNT_COUNT n).setRoute r { x with dropping := true }
    if x.dropping then c else c.ev c.gwHalf 0x0A19 [r, n]

/-- The chip after a frame route discards frames too old to send. -/
def Chip.ageRoute (c : Chip) (r : Nat) : Chip :=
  let x := c.route r
  let now := c.stamp c.gwHalf 0
  let keep := x.queue.filter fun e => decide (elapsed now e.2 ≤ ((2 * c.q (F.GW_ROUTE_PERIOD_SRC_PERIOD_US r) * usUnits : Nat) : Int))
  (c.setRoute r { x with queue := keep }).routeDrops r (x.queue.length - keep.length)

/-- The chip after a frame route hands its oldest frames to its transmitter, `n` of them at most. `TX_ID` stands in the first of its
two registers, and R395 is applied to a translated frame with an extended identifier (DEDUCED: log 50). -/
def Chip.forward (c : Chip) (r : Nat) : Nat → Chip
  | 0 => c
  | n + 1 =>
    let out := c.reg (Reg.GW_ROUTE_OUT r)
    let t0 := bits out 27 5
    let t1 := bits out 22 5
    match (c.route r).queue with
    | [] => c
    | (f, t) :: rest =>
      let gated := c.on (F.GW_ROUTE_CFG_GATED r)
      let tx := c.chooseTx gated t0 t1
      let c := if gated ∧ c.noOutEn then c else c.noteTx (1024 + r) tx t0 t1
      let part := c.q (F.GW_ROUTE_CFG_PART r)
      match tx with
      | none => c
      | some p =>
        let tc := if isMac p then frameClass f else 0
        if ¬ c.queueRoom p tc part false then c
        else
          let ident := if c.on (F.GW_ROUTE_CFG_XLATE r) then BitVec.ofNat 32 (c.q (F.GW_ROUTE_FACTOR_FACTOR r)) else f.ident
          let c := (c.setRoute r { c.route r with queue := rest, dropping := false }).enqueue
            ⟨p, tc, { f with ident := ident }, part, c.gwRank part, false, .route r, t⟩ (c.on (F.GW_ROUTE_CFG_XLATE r) && bit ident.toNat 29)
          c.forward r n

/-- The chip after every frame route ages and forwards what it holds. -/
def Chip.forwardAll (c : Chip) : Chip :=
  if ¬ c.on F.GW_CTL_ENABLE then c
  else (c.routes.filter fun r => c.on (F.GW_ROUTE_CFG_KIND r)).foldl (fun c r => (c.ageRoute r).forward r 8) c

/-- A queued frame is one that only a half with OUT_EN on may send (R354, R406). -/
def Chip.gatedFrame (c : Chip) (q : GQueued) : Bool :=
  match q.src with
  | .txf f => (c.routesInto f).any fun r => c.on (F.GW_ROUTE_CFG_GATED r)
  | .route r => c.on (F.GW_ROUTE_CFG_GATED r)
  | .cmd _ => false

/-- The chip after the OUT_EN of a half has fallen: the gated frames in its queues are taken back, to be assembled or forwarded again when
an OUT_EN rises (R354, R406). -/
def Chip.recallGated (c : Chip) (h : Half) : Chip :=
  let l := c.gwQueue.filter fun q => portHalf q.port == h && c.gatedFrame q
  let c := { c with gwQueue := c.gwQueue.filter fun q => !(portHalf q.port == h && c.gatedFrame q) }
  l.reverse.foldl (fun (c : Chip) q =>
    let c := c.syncQueued q.port
    match q.src with
    | .txf f => if c.gwHeld.contains f then c else { c with gwHeld := f :: c.gwHeld }
    | .route r => let x := c.route r; c.setRoute r { x with queue := (q.frame, q.since) :: x.queue }
    | .cmd _ => c) c

/-- The chip after OUT_EN has risen: gated frames that were due are assembled again, frame routes forward (R406). -/
def Chip.gwOutEn (c : Chip) : Chip := (c.gwHeld.foldl (fun (c : Chip) f => c.frameInstant f true) { c with gwHeld := [] }).forwardAll

/-- The chip after a frame is offered to one route (R401, R405). -/
def Chip.offerRoute (c : Chip) (p now : Nat) (f : GFrame) (r : Nat) : Chip :=
  let named := c.q (F.GW_ROUTE_CFG_SRC0 r) == p || c.q (F.GW_ROUTE_CFG_SRC1 r) == p
  let kind := if isCan p then 0 else 1
  if ¬ named ∨ c.q (F.GW_ROUTE_CFG_SRC_KIND r) ≠ kind ∨ ¬ matchKey (frameKey f p) (c.reg (Reg.GW_ROUTE_MATCH r)) (c.reg (Reg.GW_ROUTE_MASK r)) then c
  else if c.on (F.GW_ROUTE_CFG_KIND r) then
    let x := c.route r
    if 8 ≤ x.queue.length then c.routeDrops r 1 else c.setRoute r { x with queue := x.queue ++ [(f, now)] }
  else
    let v := readField c.freeCnt f.data (c.q (F.GW_ROUTE_IN_IN_START r)) (c.q (F.GW_ROUTE_IN_IN_LEN r) + 1) (c.on (F.GW_ROUTE_IN_IN_BE r))
    { c with freeCnt := c.freeCnt + 1 }.routeTakes r v now

/-- SOURCE_POLL (R401): a polled source is read at a multiple of `SRC_PERIOD_US`; `level` is the present level of the
side-band line of a route of kind 3, and `o` what the reads of a result slot show. Each multiple is served at most once (R439). -/
def execSourcePoll (r : Fin 4096) (level : Bool) (s : State) (o : Seen := []) : Host.Outcome State Fault Refusal :=
  let c := s.chip
  let h := c.gwHalf
  let now := c.stamp h 0
  let k := c.gwLatest (c.q (F.GW_ROUTE_PERIOD_SRC_PERIOD_US r.val))
  let x := c.route r.val
  let served := servedAt x.poll k
  if ¬ (c.on F.GW_CTL_ENABLE ∧ c.on (F.GW_ROUTE_CFG_VALID r.val) ∧ c.q (F.GW_ROUTE_CFG_KIND r.val) = 0 ∧ c.timeReady h) ∨ served then s.go c
  else
    let c := c.setRoute r.val { x with poll := some k }
    let m := c.reg (Reg.GW_ROUTE_MATCH r.val)
    match c.q (F.GW_ROUTE_CFG_SRC_KIND r.val) with
    | 2 => if c.down.get (Half.ofIdx (bits m 5 1)) then s.go c
      else s.go (c.routeTakes r.val (b2n (bit (c.q (F.HIO_DI_LEVEL_INPUT (bits m 5 1))) (m % 32))) now)
    | 3 =>
      let n := m % 16
      let on := level != bit (c.q (F.GW_SB_CFG_POL (n / 8))) (n % 8)
      if c.down.get (Half.ofIdx (n / 8)) then s.go c
      else s.go ({ c with gwPulse := setBit c.gwPulse n false }.routeTakes r.val (b2n (on || bit c.gwPulse n)) now)
    | 4 => if c.down.get (Half.ofIdx (bits m 8 1)) then s.go c
      else s.go (c.routeTakes r.val (c.q (F.LOOP_OUT_VALUE (bits m 8 1) (bits m 4 4) (bits m 0 3))) now)
    | 5 =>
      match c.engineRead h (bits m 16 9) (2 ^ 32) o with
      | (.bytes v g bs, c) =>
        if c.on (F.SLOT_STATE_CUR_DOUBTFUL v) ∨ x.taken = some (v, g) then s.go c
        else
          let age := (elapsed (c.stamp h 0) (c.slot v).origin).toNat
          let raw := readField c.freeCnt bs (c.q (F.GW_ROUTE_IN_IN_START r.val)) (c.q (F.GW_ROUTE_IN_IN_LEN r.val) + 1) (c.on (F.GW_ROUTE_IN_IN_BE r.val))
          let c := c.setRoute r.val { c.route r.val with taken := some (v, g) }
          s.go ({ c with freeCnt := c.freeCnt + 1 }.routeTakes r.val raw ((now + 2 ^ 64 - age % 2 ^ 64) % 2 ^ 64))
      | (_, c) => s.go c
    | _ => s.go c

/-- SIDE_BAND_PULSE (R412): an active pulse on a side-band line, 0 to 7 Headstock's and 8 to 15 Tailstock's. -/
def execSideBandPulse (n : Fin 16) (s : State) : Host.Outcome State Fault Refusal :=
  let c := s.chip
  if bit (c.q (F.GW_SB_CFG_LATCH (n.val / 8))) (n.val % 8) ∧ ¬ c.down.get (Half.ofIdx (n.val / 8)) then
    s.go { c with gwPulse := setBit c.gwPulse n.val true }
  else s.go c

/-! ### Frame records (R407) and receive channels (R411) -/

/-- A port is the second transmitter of an outbound frame or frame route, on a network that another port reaches too (R406). -/
def Chip.isTx1 (c : Chip) (p : Nat) : Bool :=
  (c.txFrames.any fun f => c.on (F.GW_TXF_CFG_VALID f) && c.q (F.GW_TXF_CFG_TX1 f) == p) ||
    c.routes.any fun r => c.on (F.GW_ROUTE_CFG_KIND r) && bits (c.reg (Reg.GW_ROUTE_OUT r)) 22 5 == p

/-- A frame record of at most `cap` bytes: the header, then the payload padded to a multiple of 64 as far as the capacity goes; and its
length before padding. `second` where the port is one of `TX1` (DEDUCED: log 52). -/
def frameRecord (f : GFrame) (p stamp cap : Nat) (second : Bool) : List Byte × Nat :=
  let n := min f.data.length (cap - 32)
  let cut := decide (n < f.data.length)
  let body := toLE 2 n ++ toLE 1 p ++ toLE 1 f.fmt ++ toLE 4 f.ident.toNat ++ toLE 8 stamp ++ toLE 4 f.af.toNat ++ [f.sdt, f.vcid] ++
    toLE 2 (b2n cut + 2 * b2n second) ++ List.replicate 8 0 ++ f.data.take n
  ((body ++ List.replicate ((64 - n % 64) % 64) 0).take cap, body.length)

/-- A party's frame record read back: its frame and `J1939` bit; none where its length is not one of R407. -/
def parseRecord (p : Nat) (hdr data : List Byte) : Option (GFrame × Bool) :=
  let n := leNat (hdr.take 2)
  let fmt := (hdr.getD 3 0).toNat
  let most := if isMac p then 9216 else match fmt % 4 with | 0 => 8 | 1 => 64 | 2 => 2048 | _ => 0
  if most < n ∨ (isCan p ∧ fmt % 4 = 3) then none
  else some (⟨if isCan p then fmt % 16 else 0, BitVec.ofNat 32 (leNat ((hdr.drop 4).take 4)), BitVec.ofNat 32 (leNat ((hdr.drop 16).take 4)),
    hdr.getD 20 0, hdr.getD 21 0, data⟩, isCan p && bit fmt 4)

/-- The chip after a receive channel drops frames. -/
def Chip.chanDrops (c : Chip) (k no : Nat) : Chip :=
  let x := Tbl.look ⟨0, false⟩ c.gwChans k
  let c := ({ c with gwChans := Tbl.ins c.gwChans k ⟨no, true⟩ }).inc F.GW_DROP_CNT_COUNT
  if x.dropping then c else c.evOf c.gwHalf 0x0A19 (BitVec.ofNat 13 (c.q (F.GW_CHAN_CFG_OWNER k))) [k, 1]

/-- The chip after a frame is offered to one receive channel (R138, R411). -/
def Chip.offerChannel (c : Chip) (p stamp : Nat) (f : GFrame) (k : Nat) : Chip :=
  if c.q (F.GW_CHAN_CFG_CTRL k) ≠ p ∨ ¬ matchKey (frameKey f p) (c.reg (Reg.GW_CHAN_ID k)) (c.reg (Reg.GW_CHAN_MASK k)) then c
  else
    let no := (Tbl.look ⟨0, false⟩ c.gwChans k).no + 1
    let bufs := c.q (F.GW_CHAN_CFG_BUFS_M2 k) + 2
    let o : Owner := BitVec.ofNat 13 (c.q (F.GW_CHAN_CFG_OWNER k))
    let size := c.q (F.GW_CHAN_CFG_REC_SIZE k) * 64
    let a := c.q (F.GW_CHAN_BUF_LO_BUF k) * 64 + c.q (F.GW_CHAN_BUF_HI_BUF k) % 65536 * 2 ^ 32 + no % bufs * size
    if c.dowel (c.q (F.GW_CHAN_DOWELS_RELEASE_DOWEL k)) + bufs < no then c.chanDrops k no
    else
      let rec_ := (frameRecord f p stamp size (c.isTx1 p)).1
      match c.tryStore o a rec_ with
      | .error e => (c.chanDrops k no).refusalEvent (portHalf p) none o e.1 e.2 0x80
      | .ok c => Chip.signal { (c.touched (portHalf p) none o a rec_.length 0x80) with gwChans := Tbl.ins c.gwChans k ⟨no, false⟩ } o (c.q (F.GW_CHAN_DOWELS_FRAME_DOWEL k)) 0 no

/-! ### Watches and responses (R408, R409) -/

/-- The parameter group number of a J1939 identifier. -/
def pgnOf (ident : Nat) : Nat :=
  let pf := bits ident 16 8
  bits ident 24 2 * 65536 + pf * 256 + (if pf < 240 then 0 else bits ident 8 8)

/-- The control byte of an Acknowledgement, and the group it names. -/
def frameAck (f : GFrame) : Option (Nat × Nat) :=
  if bit f.ident.toNat 29 ∧ pgnOf f.ident.toNat = 0xE800 then some ((f.data.getD 0 0).toNat, leNat ((f.data.drop 5).take 3)) else none

/-- A send watches for Acknowledgements at a stamp. -/
def GSend.watching (x : GSend) (now : Nat) : Bool :=
  match x.sentAt, x.watchMs with
  | some t, some ms => decide (elapsed now t ≤ ((ms * 1000 * usUnits : Nat) : Int))
  | _, _ => false

/-- The chip after a negative acknowledgement reaches a send. -/
def Chip.ackSend (c : Chip) (p now : Nat) (f : GFrame) (x : GSend) : Chip :=
  match frameAck f with
  | some (ctl, pgn) =>
    if x.port = p ∧ x.watching now ∧ 1 ≤ ctl ∧ ctl ≤ 3 ∧ pgn = pgnOf x.addr then c.failSend x (4 + ctl) 0 else c
  | none => c

/-- The chip after a matching response reaches a request. -/
def Chip.respond (c : Chip) (p stamp : Nat) (f : GFrame) (x : GSend) : Chip :=
  match x.resp with
  | none => c
  | some r =>
    if x.port ≠ p ∨ ¬ x.live ∨ x.sentAt.isNone ∨ ¬ matchKey (frameKey f p) r.ident r.mask then c
    else
      let (bs, n) := frameRecord f p stamp r.cap (c.isTx1 p)
      match c.tryStore x.owner r.addr bs with
      | .error e => match c.cmd? x.id with
        | some m => ((c.dropSend x.id).failCmd m (accessDetail e.1 e.2)).refusalEvent (portHalf p) (some m) x.owner e.1 e.2 0x81
        | none => c.dropSend x.id
      | .ok c =>
        let c := c.touched (portHalf p) none x.owner r.addr (min bs.length r.cap) 0x81
        let neg := match r.neg with | some v => f.data.head? == some (BitVec.ofNat 8 v) | none => false
        let x := { x with resp := none }
        if neg then c.failSend x 8 n else (c.setSend x).endSend x 0 n

/-- The chip without sends of which nothing is left to know. -/
def Chip.pruneSends (c : Chip) (now : Nat) : Chip :=
  { c with gwSends := c.gwSends.filter fun x => x.live || x.sentAt.isNone || x.watching now }

/-- FRAME_RECEIVED (R402): a frame is received at a port and offered to routes, channels, watches and requests. -/
def execFrameReceived (p : Fin 32) (f : GFrame) (s : State) : Host.Outcome State Fault Refusal :=
  let c := s.chip
  if ¬ c.portUp p.val ∨ ¬ c.timeReady (portHalf p.val) ∨ ¬ c.carries p.val f.fmt then s.go c
  else
    let h := portHalf p.val
    let now := c.stamp h 0
    let c := if isMac p.val then c.ptpIngress (p.val - 16) f.data else c
    let (stamp, c) := c.captured h (c.q F.GW_CTL_TB) (if isMac p.val then 512 else 2560)
    let c := if c.on F.GW_CTL_ENABLE then c.routes.foldl (fun c r => c.offerRoute p.val now f r) c else c
    let c := c.forwardAll
    let c := c.channels.foldl (fun c k => c.offerChannel p.val stamp f k) c
    let c := c.gwSends.foldl (fun c x => match c.send? x.id with | some x => c.ackSend p.val now f x | none => c) c
    let c := c.gwSends.foldl (fun c x => match c.send? x.id with | some x => c.respond p.val stamp f x | none => c) c
    s.go (c.pruneSends now)

/-! ### Commands (R396, R408, R410) -/

/-- A partition may send at a port. -/
def Chip.mayTransmit (c : Chip) (p part : Nat) : Bool :=
  if isCan p then bit (c.q (F.GW_CAN_CFG_TX_PARTS p)) part else isMac p && bit (c.q (F.GW_ETH_CFG_TX_PARTS (p - 16))) part

/-- A bridge command that may act: dispatched and free to start, or waiting for an entry. -/
def Chip.bridgeCmd (c : Chip) (id : CmdId) (op : Nat) : Option Cmd :=
  match c.takeable id (· == op) with
  | some m => some m
  | none => c.cmds.find? fun m => m.id == id && m.opcode == op && m.stage == .waiting

/-- The chip after a send or request queues its frame, waits for an entry, or completes with FAULT (R396, R408); `far` and `o` are how
its reads of the record come out. A record in a format that the controller's `MODE` leaves out gives FAULT (DESIGN CHOICE: log 159). -/
def Chip.bridgeSend (c : Chip) (m : Cmd) (far : Far) (o : Seen) : Chip :=
  let p := m.fld 1 48 5
  let a := alignDown (m.fld 1 0 48) 64
  if ¬ c.mayTransmit p m.owner.part then c.failCmd m 0
  else match c.readSeen m a 32 far o with
    | (.error e, c) => c.failRead m e
    | (.ok hdr, c) =>
      match c.readSeen m (a + 32) (leNat (hdr.take 2)) far o with
      | (.error e, c) => c.failRead m e
      | (.ok data, c) =>
        let c := if m.stage = .waiting then c else c.touches m [(a, 32 + data.length)]
        match parseRecord p hdr data with
        | none => c.failCmd m 0
        | some (f, j) =>
          let tc := if isMac p then frameClass f else 0
          if ¬ c.carries p f.fmt then c.failCmd m 0
          else if ¬ c.queueRoom p tc m.owner.part true then c.setCmd { m with stage := .waiting }
          else
            let now := c.stamp (portHalf p) 0
            let isReq := m.opcode == 0x81
            let opn := isReq || bit (m.word 1) 63
            let resp : Option GResp := if isReq then some ⟨m.fld 3 48 16, m.fld 3 0 48 / 64 * 64, m.fld 4 32 32, m.fld 4 0 32,
              if bit (m.word 5) 63 then some (m.fld 5 48 8) else none, m.fld 5 0 32⟩ else none
            let addr := if isMac p then leNat ((f.data.drop 2).take 4).reverse else f.ident.toNat
            let x : GSend := ⟨m.id, m.owner, m.fld 0 32 32, p, addr, opn, now, m.fld 2 0 16 * 1000, none,
              if bit (m.word 1) 62 then some (m.fld 2 16 16) else none, resp, m.order⟩
            let c := { c with gwSends := c.gwSends ++ [x] }.enqueue ⟨p, tc, f, m.owner.part, m.rank, false, .cmd m.id, now⟩ j
            let c := if opn then c.setCmd { m with stage := .running } else c.complete m (x.detail 0 0)
            if c.down.get (portHalf p) then c.failPort p 10
            else if isCan p ∧ c.canState p = 2 then c.failPort p 2
            else if isMac p ∧ ¬ c.on (F.GW_ETH_STAT_LINK (p - 16)) then c.failPort p 3 else c

/-- SEND (R408), opcode 0x80. -/
def execSend (id : CmdId) (s : State) (far : Far := .answered) (o : Seen := []) : Host.Outcome State Fault Refusal :=
  match s.chip.bridgeCmd id 0x80 with
  | some m => s.go (s.chip.bridgeSend m far o)
  | none => s.go s.chip

/-- REQUEST (R408), opcode 0x81. -/
def execRequest (id : CmdId) (s : State) (far : Far := .answered) (o : Seen := []) : Host.Outcome State Fault Refusal :=
  match s.chip.bridgeCmd id 0x81 with
  | some m => s.go (s.chip.bridgeSend m far o)
  | none => s.go s.chip

/-- Every bridge send and request that the owner of a command issued earlier, in the order of dispatch, has been transmitted or has
failed (R285, R410). -/
def Chip.sendsResolved (c : Chip) (m : Cmd) : Bool :=
  let before := c.cmds.filter fun x => x.stage != .fetched && decide (x.order < m.order) && x.owner == m.owner && (x.opcode == 0x80 || x.opcode == 0x81)
  (before.all fun x => (c.send? x.id).isSome) && !(c.gwSends.any fun x => x.owner == m.owner && decide (x.order < m.order) && x.sentAt.isNone &&
    (c.gwQueue.any fun q => q.src == .cmd x.id))

/-- BRIDGE_FENCE (R410), opcode 0x82: it completes once every earlier send is resolved, testing and clearing the late flag. -/
def execBridgeFence (id : CmdId) (s : State) : Host.Outcome State Fault Refusal :=
  match s.chip.bridgeCmd id 0x82 with
  | none => s.go s.chip
  | some m =>
    let c := s.chip
    if ¬ c.sendsResolved m then s.go (c.setCmd { m with stage := .waiting })
    else if c.gwLate.contains m.owner then
      s.go ({ c with gwLate := c.gwLate.filter (· != m.owner) }.complete (m.endWith .farErrorLate 0) 0)
    else s.go (c.complete m 0)

/-! ### Transmission (R396, R397, R408) -/

/-- A MAC's gate control. -/
def Chip.gates (c : Chip) (m : Nat) : GateSt := Tbl.look ⟨[], 0, 0, 0⟩ c.gwGates m

/-- Units of 1/64 ns in a MAC's gate cycle. -/
def Chip.gateCycle (c : Chip) (m : Nat) : Nat := max (c.reg (Reg.GW_ETH_CYCLE m)) 1 * 64

/-- The entry in force at an offset into the cycle, from entry `pos` on, which begins at `start`: the last one lasts to the
end of the cycle. -/
def gateSeek (off : Nat) : List (Nat × Nat) → Nat → Nat → Nat
  | e :: f :: rest, pos, start =>
    if off < start + e.1 * 64 then pos else gateSeek off (f :: rest) (pos + 1) (start + e.1 * 64)
  | _, pos, _ => pos

/-- The gate of a traffic class of a MAC has been open for the last `dur` units: a frame that ends now has started with it open, and
ends before it closes (R397). -/
def Chip.gateOpen (c : Chip) (mac tc dur : Nat) : Bool :=
  let g := c.gates mac
  let cyc : Int := (c.gateCycle mac : Nat)
  let now := elapsed (c.gwNow (portHalf (mac + 16))) g.cycleStart
  let p := gateSeek ((now - dur) % cyc).toNat g.list 0 0
  let is (e : Nat × Nat) : Bool := bit e.2 tc
  !c.on (F.GW_ETH_CFG_QBV_EN mac) || g.list == [] ||
    (decide ((dur : Int) < cyc) &&
      if p ≤ g.pos then ((g.list.take (g.pos + 1)).drop p).all is else (g.list.drop p).all is && (g.list.take (g.pos + 1)).all is)

/-- The time that a frame takes on a MAC's line, in units of 1/64 ns: preamble, data and FCS. -/
def Chip.wireTime (c : Chip) (mac n : Nat) : Nat := (n + 12) * 8 * usUnits / c.macRate mac

/-- The credit with which a shaped class stands after a frame of `n` bytes that ends now; none where it had less than 0 as the frame
started, or the class is not shaped (R397; the credit is that of IEEE 802.1Qav, PRESUMED: log 160). -/
def Chip.creditAfter (c : Chip) (mac tc n : Nat) : Option (Option Int) :=
  match c.idleSlope mac tc with
  | none => some none
  | some k =>
    let now := c.stamp (portHalf (mac + 16)) 0
    let dur := c.wireTime mac n
    let v := c.creditAt mac tc k ((now + 2 ^ 64 - dur % 2 ^ 64) % 2 ^ 64)
    if v < 0 then none else some (some (v + ((k * dur : Nat) : Int) - (((n + 12) * 8 * usUnits : Nat) : Int)))

/-- The frame of a port that is handed over next: by class, then in order of arrival. Passed by are withheld frames, gated ones where
OUT_EN is off, and those that the controller does not carry (R354, R394–R396). -/
def Chip.nextFrame (c : Chip) (p tc : Nat) : Option GQueued :=
  let l := (c.queueOf p tc).filter fun q =>
    (!q.needSa || c.on (F.GW_CAN_SA_SA_VALID p)) && c.carries p q.frame.fmt && (!c.gatedFrame q || c.outEn (portHalf p))
  match (List.range 5).find? fun k => l.any fun q => q.rank == k with
  | some k => l.find? fun q => q.rank == k
  | none => none

/-- The chip without the first queued frame equal to one. -/
def Chip.unqueue (c : Chip) (q : GQueued) : Chip := { c with gwQueue := c.gwQueue.erase q }.syncQueued q.port

/-- The chip after a frame of a command has been transmitted. -/
def Chip.sent (c : Chip) (id : CmdId) (now : Nat) : Chip :=
  match c.send? id with
  | none => c
  | some x =>
    let x := { x with sentAt := some now }
    let c := c.setSend x
    if x.live ∧ x.resp.isNone then c.endSend x 0 0 else c

/-- The chip after the frames of routes that have grown too old in a port's queue are discarded (R405). -/
def Chip.ageQueued (c : Chip) (p : Nat) : Chip :=
  let now := c.stamp c.gwHalf 0
  let old (q : GQueued) : Bool := q.port == p && match q.src with
    | .route r => decide (((2 * c.q (F.GW_ROUTE_PERIOD_SRC_PERIOD_US r) * usUnits : Nat) : Int) < elapsed now q.since)
    | _ => false
  (c.gwQueue.filter old).foldl (fun c q => match q.src with | .route r => c.routeDrops r 1 | _ => c)
    ({ c with gwQueue := c.gwQueue.filter fun q => !old q }.syncQueued p)

/-- The chip after the next frame of a port (of a traffic class on a MAC) is transmitted, or fails at the retry limit; a frame
that was withheld takes the address claimed since (R395). -/
def Chip.transmit (c : Chip) (p tc : Nat) (ok : Bool) : Chip :=
  let now := c.stamp (portHalf p) 0
  let c := c.ageQueued p
  if ¬ c.portUp p ∨ ¬ c.mayDrive p ∨ (isMac p ∧ ¬ ok) then c
  else match c.nextFrame p tc with
    | none => c
    | some q =>
      let n := q.frame.data.length
      let credit := if isMac p then c.creditAfter (p - 16) tc n else some none
      if credit = none ∨ (isMac p ∧ ¬ c.gateOpen (p - 16) tc (c.wireTime (p - 16) n)) then c else
      let c := c.unqueue q
      let c := match credit with
        | some (some v) => { c with gwCredit := Tbl.ins c.gwCredit (8 * (p - 16) + tc) (if c.queueOf p tc = [] then min 0 v else v, now) }
        | _ => c
      let q := if q.needSa then { q with frame := { q.frame with ident := withSa q.frame.ident (c.q (F.GW_CAN_SA_SA p)) } } else q
      let (d, c) := if isMac p then c.ptpEgress (p - 16) q.frame.data else (q.frame.data, c)
      let c := if ok then { c with gwOut := Tbl.ins c.gwOut p { q.frame with data := d } } else c
      let c := match q.src with
        | .cmd id => if ok then c.sent id now else c.failQueued q 1
        | _ => c
      (c.forwardAll).pruneSends now

/-- FRAME_TRANSMITTED (R408): the next frame of a port, of traffic class `tc` on a MAC, is transmitted, or on a CAN
controller reaches its retry limit. -/
def execFrameTransmitted (p : Fin 32) (tc : Fin 8) (ok : Bool) (s : State) : Host.Outcome State Fault Refusal :=
  s.go (s.chip.transmit p.val tc.val ok)

/-- LIFE_MS_EXPIRY (R408): the queued frame of a send has outlived `LIFE_MS`. -/
def execLifeMsExpiry (id : CmdId) (s : State) : Host.Outcome State Fault Refusal :=
  let c := s.chip
  match c.send? id, c.gwQueue.find? fun q => q.src == .cmd id with
  | some x, some q =>
    if ((x.lifeUs * usUnits : Nat) : Int) ≤ elapsed (c.stamp (portHalf x.port) 0) x.since then s.go ((c.unqueue q).failSend x 4 0) else s.go c
  | _, _ => s.go c

/-- TIMEOUT_US_EXPIRY (R408): a request has had no response for `TIMEOUT_US`. -/
def execTimeoutUsExpiry (id : CmdId) (s : State) : Host.Outcome State Fault Refusal :=
  let c := s.chip
  match c.send? id with
  | some x => match x.resp, x.sentAt with
    | some r, some t =>
      if x.live ∧ ((r.timeoutUs * usUnits : Nat) : Int) ≤ elapsed (c.stamp (portHalf x.port) 0) t
      then s.go (c.failSend { x with resp := none } 9 0) else s.go c
    | _, _ => s.go c
  | none => s.go c

/-! ### Bus and link states (R396, R398) -/

/-- BUS_OFF (R396, R408): a CAN controller goes bus-off and its queued frames fail. -/
def execBusOff (n : Fin 12) (s : State) : Host.Outcome State Fault Refusal :=
  let c := s.chip
  if 2 ≤ c.canState n.val ∨ c.down.get (portHalf n.val) then s.go c
  else s.go (((c.put (F.GW_CAN_STAT_STATE n.val) 2).ev (portHalf n.val) 0x0A01 [n.val, 2]).failPort n.val 2)

/-- BUS_OFF_RECOVERY (R396): after 128 occurrences of 11 recessive bits a controller with `BO_AUTO` recovers. -/
def execBusOffRecovery (n : Fin 12) (s : State) : Host.Outcome State Fault Refusal :=
  let c := s.chip
  if c.canState n.val = 2 ∧ c.on (F.GW_CAN_CFG_BO_AUTO n.val) then
    let c := ((c.put (F.GW_CAN_STAT_STATE n.val) 0).put (F.GW_CAN_STAT_TEC n.val) 0).put (F.GW_CAN_STAT_REC n.val) 0
    s.go ((c.ev (portHalf n.val) 0x0A01 [n.val, 0]).forwardAll)
  else s.go c

/-- CAN_ERROR_STATE_CHANGE (R413): the error counters of a controller move it between error active and error passive. -/
def execCanErrorStateChange (n : Fin 12) (tec rec_ : Fin 256) (s : State) : Host.Outcome State Fault Refusal :=
  let c := s.chip
  let old := c.canState n.val
  if 2 ≤ old ∨ c.down.get (portHalf n.val) then s.go c
  else
    let new := if 128 ≤ tec.val ∨ 128 ≤ rec_.val then 1 else 0
    let c := ((c.put (F.GW_CAN_STAT_TEC n.val) tec.val).put (F.GW_CAN_STAT_REC n.val) rec_.val).put (F.GW_CAN_STAT_STATE n.val) new
    s.go (if old = new then c else c.ev (portHalf n.val) 0x0A00 [n.val, new, tec.val, rec_.val])

/-- ETHERNET_LINK_CHANGE (R398): the link of a MAC goes down or up. -/
def execEthernetLinkChange (m : Fin 8) (up : Bool) (s : State) : Host.Outcome State Fault Refusal :=
  let c := s.chip
  let p := m.val + 16
  if c.on (F.GW_ETH_STAT_LINK m.val) = up ∨ c.down.get (portHalf p) then s.go c
  else
    let c := (c.put (F.GW_ETH_STAT_LINK m.val) (b2n up)).ev (portHalf p) 0x0A08 [m.val, b2n up, c.q (F.GW_ETH_CFG_SPEED m.val)]
    s.go (if up then c.forwardAll else c.failPort p 3)

/-! ### Gate control lists (R397, R399) -/

/-- The chip after `GW_ETH_BASE_HI` is written: the admin list is armed (R399). -/
def Chip.armGates (c : Chip) (m v : Nat) : Chip :=
  let c := c.setReg (Reg.GW_ETH_BASE_HI m) v
  let base := c.pair (Reg.GW_ETH_BASE_LO m) (Reg.GW_ETH_BASE_HI m)
  let now := c.gwNow (portHalf (m + 16))
  let cyc := c.gateCycle m
  let gone := elapsed now base
  let due := if gone ≤ 0 then base else (base + (gone.toNat + cyc - 1) / cyc * cyc) % 2 ^ 64
  { c.put (F.GW_ETH_STAT_GCL_PENDING m) 1 with gwGates := Tbl.ins c.gwGates m { c.gates m with due := due } }

/-- GCL_ARM (R399): an initiator writes `GW_ETH_BASE_HI` of a MAC. -/
def execGclArm (i : Initiator) (m : Fin 8) (v : Word) (s : State) : Host.Outcome State Fault Refusal :=
  let c := s.chip
  let a := Reg.GW_ETH_BASE_HI m.val
  match c.portCause i true a with
  | 0 => s.go (if c.down.get (portHalf (m.val + 16)) then c else c.armGates m.val v.toNat)
  | k => s.go (c.refusalEvent (portHalf (m.val + 16)) none i.owner a k i.port)

/-- The admin list of a MAC: its entries up to the first invalid one. -/
def Chip.adminList (c : Chip) (m : Nat) : List (Nat × Nat) :=
  ((List.range 256).takeWhile fun e => c.on (F.GW_GCL_GATES_VALID m e)).map fun e =>
    (c.q (F.GW_GCL_INT_INTERVAL_NS m e), c.q (F.GW_GCL_GATES_GATES m e))

/-- GCL_REPLACE (R399): the cycle start has come at which the admin list replaces the operating list. -/
def execGclReplace (m : Fin 8) (s : State) : Host.Outcome State Fault Refusal :=
  let c := s.chip
  let g := c.gates m.val
  let h := portHalf (m.val + 16)
  if c.on (F.GW_ETH_STAT_GCL_PENDING m.val) ∧ c.timeReady h ∧ 0 ≤ elapsed (c.gwNow h) g.due then
    let c := { c.put (F.GW_ETH_STAT_GCL_PENDING m.val) 0 with gwGates := Tbl.ins c.gwGates m.val ⟨c.adminList m.val, 0, g.due, 0⟩ }
    s.go (c.ev (portHalf (m.val + 16)) 0x0A09 [m.val, c.pair (Reg.GW_ETH_BASE_LO m.val) (Reg.GW_ETH_BASE_HI m.val)])
  else s.go c

/-- GATE_ENTRY_END (R397, R439): the entry in force of a MAC's operating list ends, and the one that its cycle gives at the
present time opens its gates. -/
def execGateEntryEnd (m : Fin 8) (s : State) : Host.Outcome State Fault Refusal :=
  let c := s.chip
  let g := c.gates m.val
  let cyc : Int := (c.gateCycle m.val : Nat)
  let t := elapsed (c.gwNow (portHalf (m.val + 16))) g.cycleStart
  let begun := unsgn 64 (g.cycleStart + t / cyc * cyc)
  let at' := gateSeek (t % cyc).toNat g.list 0 0
  if g.list = [] ∨ c.down.get (portHalf (m.val + 16)) ∨ ¬ c.timeReady (portHalf (m.val + 16)) then s.go c
  else s.go { c with gwGates := Tbl.ins c.gwGates m.val { g with pos := at', cycleStart := begun } }

end Sys2Proof.Machine
end

