-- ==== Sys2Proof/Machine/Steady.lean ====
section
/-! DEFINITION. The Steady engines (R365–R381): sources and destinations, one update, limits, plausibility and faults,
commands, handover between control modes. -/

namespace Sys2Proof.Machine

/-! ### Slots and coefficient pages (R366, R367) -/

/-- A loop slot of a half. -/
def Chip.loop (c : Chip) (h : Half) (s : Nat) : LoopSt := Tbl.look LoopSt.zero (c.loops.get h) s
/-- The chip with a loop slot replaced. -/
def Chip.setLoop (c : Chip) (h : Half) (s : Nat) (x : LoopSt) : Chip :=
  { c with loops := c.loops.set h (Tbl.put LoopSt.zero (c.loops.get h) s x) }

/-- State of a loop slot: 0 OPEN, 1 ARMED, 2 CLOSED, 3 BLEND, 4 FAULT (R366). -/
def Chip.loopState (c : Chip) (h : Half) (s : Nat) : Nat := c.q (F.LOOP_STATE_STATE h.idx s)

/-- The chip after a loop slot changes state, with event 0x0900. -/
def Chip.setLoopState (c : Chip) (h : Half) (s n : Nat) : Chip :=
  (c.put (F.LOOP_STATE_STATE h.idx s) n).ev h 0x0900 [h.idx, s, c.loopState h s, n]

/-- Address of the coefficient page of a loop slot (R367). -/
def coefPage (h : Half) (s : Nat) : Nat := 0x00A00000 + h.idx * 0x80000 + 0x20000 + s * 0x2000

/-- Coefficient `k` of the array at an offset of the page. -/
def Chip.coef (c : Chip) (h : Half) (s off k : Nat) : FV := v32 (c.reg (coefPage h s + off + 4 * k))

/-- Dimensions of a slot (R365). -/
def Chip.nX (c : Chip) (h : Half) (s : Nat) : Nat := min (c.q (F.LOOP_CFG_N_X h.idx s)) 16
def Chip.nY (c : Chip) (h : Half) (s : Nat) : Nat := min (c.q (F.LOOP_CFG_N_Y h.idx s)) 8
def Chip.nR (c : Chip) (h : Half) (s : Nat) : Nat := min (c.q (F.LOOP_CFG_N_R h.idx s)) 8
def Chip.nU (c : Chip) (h : Half) (s : Nat) : Nat := min (c.q (F.LOOP_CFG_N_U h.idx s)) 8

/-- Period and phase in µs. -/
def Chip.loopPeriod (c : Chip) (h : Half) (s : Nat) : Nat := c.q (F.LOOP_TIMING_PERIOD_US h.idx s)
def Chip.loopPhase (c : Chip) (h : Half) (s : Nat) : Nat := c.q (F.LOOP_TIMING_PHASE_US h.idx s)

/-- The output that destination word `i` of a slot names: PWM from 0, digital from 16 (R368). -/
def Chip.destKey (c : Chip) (h : Half) (s i : Nat) : Option Nat :=
  match c.q (F.LOOP_U_DST_KIND h.idx s i) with
  | 1 => some (c.q (F.LOOP_U_DST_INDEX h.idx s i))
  | 2 => some (16 + c.q (F.LOOP_U_DST_INDEX h.idx s i))
  | _ => none

/-- The outputs that a slot names. -/
def Chip.destKeys (c : Chip) (h : Half) (s : Nat) : List Nat := (List.range (c.nU h s)).filterMap (c.destKey h s)

/-- Two slots have the same period and identical destination words: handover partners (R373). -/
def Chip.partners (c : Chip) (h : Half) (a b : Nat) : Bool :=
  c.loopPeriod h a == c.loopPeriod h b && c.nU h a == c.nU h b &&
    (List.range (c.nU h a)).all fun i => c.reg (Reg.LOOP_U_DST h.idx a i) == c.reg (Reg.LOOP_U_DST h.idx b i)

/-- Number of the latest sample instant of a slot, if one has come (R369). -/
def Chip.instantNo (c : Chip) (h : Half) (s : Nat) : Option Nat :=
  let t := c.stamp h (c.q (F.STEADY_CTL_TB h.idx)) / usUnits
  if t < c.loopPhase h s then none else some ((t - c.loopPhase h s) / max (c.loopPeriod h s) 1)

/-! ### Sources (R368, R371) -/

/-- The value of source `i` of a slot (y from 0, r from 8), with the chip after it is read. -/
def Chip.readSource (c : Chip) (o : Seen) (h : Half) (s i : Nat) : FV × Chip :=
  let w := c.reg (if i < 8 then Reg.LOOP_Y_SRC h.idx s i else Reg.LOOP_R_SRC h.idx s (i - 8))
  let k := bits w 0 16
  match bits w 28 4 with
  | 1 => (v32 (c.q (F.HIO_ADC_VAL_VALUE h.idx (k % 16))), c)
  | 2 => (f32 (FV.ofInt (sgn 32 (c.q (F.HIO_ENC_POS_VALUE h.idx (k % 8))))), c)
  | 3 => (v32 (c.encVel h (k % 8)), c)
  | 4 => (if bit (c.q (F.HIO_DI_LEVEL_INPUT h.idx)) (k % 32) then FV.one else FV.zero, c)
  | 5 =>
    let n := bits w 16 9
    let (got, c) := c.engineRead h n (2 ^ 32) o
    let x := c.loop h s
    let hold (st : Nat) : FV × Chip :=
      let c' := c.setLoop h s { x with heldRun := if x.heldRun.contains i then x.heldRun else i :: x.heldRun }
      (v32 (Tbl.look 0 x.held i), if x.heldRun.contains i then c' else c'.ev h 0x0908 [h.idx, s, i, st])
    match got with
    | .empty => hold Status.doneEmpty.code
    | .lost => hold Status.fault.code
    | .bytes v _ bs =>
      if c.on (F.SLOT_STATE_CUR_DOUBTFUL v) then hold Status.doneDoubtful.code
      else if c.slotOld h v then hold Status.doneLate.code
      else if bs.length < k + 4 then hold Status.done.code
      else
        let p := leNat ((bs.drop k).take 4)
        (v32 p, c.setLoop h s { x with held := Tbl.put 0 x.held i p, heldRun := x.heldRun.filter (· != i) })
  | 6 => (v32 (c.q (F.LOOP_OUT_VALUE h.idx (bits k 4 4) (k % 8))), c)
  | _ => (FV.zero, c)

/-- The values of a list of sources. -/
def Chip.readSources (c : Chip) (o : Seen) (h : Half) (s : Nat) : List Nat → List FV × Chip
  | [] => ([], c)
  | i :: is =>
    let (v, c) := c.readSource o h s i
    let (vs, c) := c.readSources o h s is
    (v :: vs, c)

/-! ### Arithmetic (R370) -/

/-- A dot product of length n formed in FP32 with an error of at most (n + 1) × 2⁻²⁴ times the sum of the magnitudes of its
`n` terms; where in that bound it lies is a free draw. -/
def dotSum (draw : Nat) (terms : List FV) : FV :=
  let s := FV.sum terms
  let b := FV.sum (terms.map FV.abs)
  if s.isNan || s.isInf || b.isInf then f32 s else f32 (freeAbs draw 24 s (b.mul (FV.ofInt terms.length)))

/-- The FP32 sum of three values, in an order that nothing states and a free draw takes (R370, R73). -/
def sum3 (draw : Nat) (x y z : FV) : FV :=
  match draw % 3 with
  | 0 => add32 (add32 x y) z
  | 1 => add32 (add32 x z) y
  | _ => add32 x (add32 y z)

/-- A free draw `k` places ahead. -/
def Chip.ahead (c : Chip) (k : Nat) : Nat := (Config.freeValue (c.freeCnt + k)).toNat

/-- The terms of row `i` of a matrix at an offset, `w` columns stored to a row, with a vector. -/
def Chip.rowTerms (c : Chip) (h : Half) (s off w i : Nat) (v : List FV) : List FV :=
  (List.range v.length).map fun j => (c.coef h s off (w * i + j)).mul (v.getD j FV.zero)

/-- What an update computes before its outputs are limited: ν, u, and the events of the faults it meets. -/
structure Calc where
  nu : List FV
  u : List FV
  faults : List (Nat × List Nat)

/-- The first value of a list that is not finite. -/
def notFinite (l : List FV) : Option Nat := (List.range l.length).find? fun i => (l.getD i FV.zero).isNan || (l.getD i FV.zero).isInf

/-- u₀ + F r − K x̂ of a slot, each dot product within its own bound (R370); it takes the draws from `d` on. -/
def Chip.control (c : Chip) (h : Half) (s d : Nat) (r xh : List FV) : List FV :=
  (List.range (c.nU h s)).map fun i =>
    sum3 (c.ahead (d + 3 * i)) (c.coef h s 0xD00 i) (dotSum (c.ahead (d + 3 * i + 1)) (c.rowTerms h s 0xC00 8 i r))
      (dotSum (c.ahead (d + 3 * i + 2)) (c.rowTerms h s 0xA00 16 i xh)).neg

/-- The first part of `update` (R370, R375). -/
def Chip.calc (c : Chip) (o : Seen) (h : Half) (s : Nat) : Calc × Chip :=
  let (y, c) := c.readSources o h s (List.range (c.nY h s))
  let (r, c) := c.readSources o h s ((List.range (c.nR h s)).map (8 + ·))
  let xh := (List.range (c.nX h s)).map fun i => v32 ((c.loop h s).xh.getD i 0)
  let nu := (List.range y.length).map fun i => sub32 (y.getD i FV.zero) (dotSum (c.ahead i) (c.rowTerms h s 0x800 16 i xh))
  let u := c.control h s 8 r xh
  let c := { c with freeCnt := c.freeCnt + 32 }
  let bad := (List.range nu.length).find? fun i =>
    let lim := c.coef h s 0xD20 i
    !lim.isZero && FV.lt lim (nu.getD i FV.zero).abs
  let run := if bad.isSome then min (c.q (F.LOOP_STATE_PLAUS_RUN h.idx s) + 1) 255 else 0
  let wrong : Option Nat :=
    match notFinite y, notFinite r, notFinite u with
    | some i, _, _ => some i
    | _, some i, _ => some (8 + i)
    | _, _, some i => some (16 + i)
    | _, _, _ => none
  let count := match bad with
    | some i => if c.q (F.LOOP_CFG_PLAUS_N h.idx s) ≤ run then [(0x0901, [h.idx, s, i, toFp32 (nu.getD i FV.zero)])] else []
    | none => []
  (⟨nu, u, count ++ wrong.toList.map fun i => (0x0902, [h.idx, s, i])⟩, c.put (F.LOOP_STATE_PLAUS_RUN h.idx s) run)

/-- The faults of an update whose u became `u` under a ramp or a blend: one that is not finite is a fault (R370, R375). -/
def Calc.withU (w : Calc) (h : Half) (s : Nat) (u : List FV) : List (Nat × List Nat) :=
  w.faults ++ if w.faults.any (fun f => f.1 == 0x0902) then [] else (notFinite u).toList.map fun i => (0x0902, [h.idx, s, 16 + i])

/-! ### Limits (R372) -/

/-- λ for a slot. -/
def Chip.lambda (c : Chip) (h : Half) (s : Nat) : FV :=
  if c.on (F.LOOP_STATE_SAFE_ENV h.idx s) then FV.one else f32 (.fin false (c.envLevel h) (-32))

/-- Bounds of an output of a slot. -/
def Chip.outBounds (c : Chip) (h : Half) (s i : Nat) : FV × FV :=
  let l := c.lambda h s
  let lo := c.coef h s 0xD40 i
  let hi := c.coef h s 0xD60 i
  (add32 lo (mul32 l (sub32 (FV.max (c.coef h s 0xDA0 i) lo) lo)), add32 hi (mul32 l (sub32 (FV.min (c.coef h s 0xDC0 i) hi) hi)))

/-- A value clipped to bounds. -/
def clipTo (lo hi v : FV) : FV := if v.isNan then lo else FV.max lo (FV.min hi v)

/-- A value moved from a previous one by at most a slew. -/
def slewFrom (prev slew v : FV) : FV := clipTo (sub32 prev slew) (add32 prev slew) v

/-- `limit(u)`: bound first, slew second. -/
def Chip.limit (c : Chip) (h : Half) (s : Nat) (prev : List Nat) (u : List FV) : List FV :=
  (List.range (c.nU h s)).map fun i =>
    let b := c.outBounds h s i
    let du := c.coef h s 0xD80 i
    let slew := if (c.lambda h s).isZero then du else FV.min du (c.coef h s 0xDE0 i)
    slewFrom (v32 (prev.getD i 0)) slew (clipTo b.1 b.2 (u.getD i FV.zero))

/-- Each output moved from its applied value towards SAFE_U by at most DEG_DU (R376). -/
def Chip.towardsSafe (c : Chip) (h : Half) (s : Nat) (prev : List Nat) : List FV :=
  (List.range (c.nU h s)).map fun i => slewFrom (v32 (prev.getD i 0)) (c.coef h s 0xDE0 i) (c.coef h s 0xE00 i)

/-! ### The end of an update (R356, R370, R373) -/

/-- The applied outputs that the half in charge sent for an instant of a slot (R356). -/
def Chip.fedOutputs (c : Chip) (h : Half) (s k : Nat) : Option (List Nat) :=
  if c.q (F.AUTH_STATUS_STATE h.idx) ≠ 1 then none
  else match Tbl.find? (c.auth.get h).fed s with
    | some (k', us) => if k' = k then some us else none
    | none => none

/-- The two engines hold a slot in different states, and neither has a command for it still to apply (R378). -/
def Chip.diverged (c : Chip) (s : Nat) : Bool :=
  !c.down.h && !c.down.t && (c.steadyCmd.get .H).isNone && (c.steadyCmd.get .T).isNone && c.loopState .H s != c.loopState .T s

/-- The chip with a loop slot of a half not established (R356). -/
def Chip.unestablish (c : Chip) (h : Half) (s : Nat) : Chip :=
  (c.setLoop h s { c.loop h s with est := 0 }).put (F.LOOP_STATE_ESTABLISHED h.idx s) 0

/-- The chip after a standby compares its outputs with the applied ones (R356); a slot in FAULT, or whose state differs between the
engines, is not established (R376, R378). -/
def Chip.establish (c : Chip) (h : Half) (s : Nat) (ua : List Nat) (fed : Option (List Nat)) : Chip :=
  if c.loopState h s = 4 ∨ c.diverged s then c.unestablish h s else
  match fed with
  | none => c
  | some us =>
    let diff (i : Nat) := sub32 (v32 (ua.getD i 0)) (v32 (us.getD i 0))
    let off := (List.range (c.nU h s)).find? fun i => !FV.le (diff i).abs (c.coef h s 0xE60 i)
    let x := c.loop h s
    match off with
    | some i => (c.unestablish h s).ev h 0x0818 [s, i, toFp32 (diff i)]
    | none =>
      let n := x.est + 1
      let c := c.setLoop h s { x with est := min n 255 }
      if c.q (F.AUTH_CTL_STANDBY_SAMPLES h.idx) ≤ n then c.put (F.LOOP_STATE_ESTABLISHED h.idx s) 1 else c

/-- The last part of `update`: outputs applied, the observer fed (R370); `LOOP_OUT` follows once the updates of the instant are done. -/
def Chip.finishUpdate (c : Chip) (h : Half) (s k : Nat) (nu ua : List FV) : Chip :=
  let pats := ua.map toFp32
  let x := c.loop h s
  let c := if x.drives then
      (List.range pats.length).foldl (fun c i => match c.destKey h s i with | some key => c.drive h key (pats.getD i 0) | none => c) c
    else c
  let fed := c.fedOutputs h s k
  let v := match fed with | some us => (List.range ua.length).map fun i => v32 (us.getD i 0) | none => ua
  let xh := (List.range (c.nX h s)).map fun i => v32 (x.xh.getD i 0)
  let xh' := (List.range (c.nX h s)).map fun i => toFp32 (sum3 (c.ahead (4 * i)) (dotSum (c.ahead (4 * i + 1)) (c.rowTerms h s 0x0 16 i xh))
    (dotSum (c.ahead (4 * i + 2)) (c.rowTerms h s 0x400 8 i v)) (dotSum (c.ahead (4 * i + 3)) (c.rowTerms h s 0x600 8 i nu)))
  let c := { c with freeCnt := c.freeCnt + 64 }
  let c := c.setLoop h s { c.loop h s with xh := xh', prev := pats, last := some k }
  (c.establish h s pats fed).countPair (Reg.STEADY_UPD_LO h.idx) (Reg.STEADY_UPD_HI h.idx) 1

/-! ### Handover (R379, R380) -/

/-- x̂ of an incoming slot seeded from an outgoing one. -/
def Chip.seed (c : Chip) (h : Half) (a b : Nat) : List Nat :=
  let xa := (List.range (c.nX h a)).map fun i => v32 ((c.loop h a).xh.getD i 0)
  (List.range (c.nX h b)).map fun i => toFp32 (dotSum (c.ahead i) (c.rowTerms h b 0x1000 16 i xa))

/-- The chip without fades of the outputs that a slot names. -/
def Chip.stopFades (c : Chip) (h : Half) (s : Nat) : Chip :=
  let x := c.hio.get h
  let ks := c.destKeys h s
  c.setHio h { x with fades := x.fades.filter fun f => !ks.contains f.key }

/-- The chip after slot `b` takes the outputs of the faulty slot `a` at once (R380). -/
def Chip.takeFromFault (c : Chip) (h : Half) (a b : Nat) : Chip :=
  let x := c.loop h b
  let prev := (c.loop h a).prev
  let c := c.setLoop h b { x with xh := c.seed h a b, prev := prev, blend := none, ramp := none, drives := true }
  let c := { c with freeCnt := c.freeCnt + 16 }
  let c := c.setLoop h a { c.loop h a with drives := false, blend := none, ramp := none }
  ((c.put (F.LOOP_STATE_SAFE_ENV h.idx b) 1).setLoopState h b 2).ev h 0x0912 [h.idx, a, b]

/-- The fallback of a slot, if it may take over (R376). -/
def Chip.fallback (c : Chip) (h : Half) (s : Nat) : Option Nat :=
  let b := c.q (F.LOOP_CFG_FALLBACK h.idx s)
  if c.on (F.LOOP_CFG_FB_VALID h.idx s) ∧ b ≠ s ∧ c.loopState h b = 1 ∧ c.partners h s b then some b else none

/-! ### One update (R370, R376, R381) -/

/-- Values moved from `x` towards `y` by j / n (R377, R379). -/
def mix (j n : Nat) (x y : List FV) : List FV :=
  let share := div32 (FV.ofInt j) (FV.ofInt (max n 1))
  (List.range y.length).map fun i => let v := x.getD i FV.zero; add32 v (mul32 share (sub32 (y.getD i FV.zero) v))

/-- u of a CLOSED slot: on its closing ramp, between the values it starts from and the computed ones (R377). -/
def Chip.closedU (c : Chip) (h : Half) (s : Nat) (w : Calc) : List FV :=
  match (c.loop h s).ramp with
  | none => w.u
  | some (start, j) => mix j (c.q (F.LOOP_RAMP_RAMP_N h.idx s)) (start.map v32) w.u

/-- The chip after a CLOSED slot runs its update without a fault: its closing ramp is one step on (R377). -/
def Chip.runClosed (c : Chip) (h : Half) (s k : Nat) (w : Calc) : Chip :=
  let x := c.loop h s
  let n := c.q (F.LOOP_RAMP_RAMP_N h.idx s)
  let u := c.closedU h s w
  let c := match x.ramp with
    | none => c
    | some (start, j) => c.setLoop h s { x with ramp := if j < n then some (start, j + 1) else none }
  c.finishUpdate h s k w.nu (c.limit h s x.prev u)

/-- The chip after a slot enters FAULT, with the events that say why; it is not established (R375, R376). -/
def Chip.enterFault (c : Chip) (h : Half) (s : Nat) (why : List (Nat × List Nat)) : Chip :=
  why.foldl (fun c e => c.ev h e.1 e.2) ((c.setLoopState h s 4).unestablish h s)

/-- The chip after a slot that has taken over at instant `k` runs its update there: where it meets a fault itself, its own
fallback takes over, or its outputs move to SAFE_U (R376); `fuel` bounds the slots that may follow one another. -/
def Chip.runTaken (fuel : Nat) (c : Chip) (o : Seen) (h : Half) (b k : Nat) : Chip :=
  match fuel with
  | 0 => c
  | fuel + 1 =>
    let (w, c) := c.calc o h b
    match w.withU h b (c.closedU h b w) with
    | [] => c.runClosed h b k w
    | why =>
      let c := c.enterFault h b why
      let prev := (c.loop h b).prev
      match c.fallback h b with
      | some d =>
        let c := (c.takeFromFault h b d).runTaken fuel o h d k
        c.finishUpdate h b k w.nu (c.limit h b prev w.u)
      | none => (c.ev h 0x0913 [h.idx, b]).finishUpdate h b k w.nu (c.towardsSafe h b prev)

/-- The chip after a slot that drove alone enters FAULT: its fallback takes over, or its outputs move to SAFE_U (R376). -/
def Chip.faultClosed (c : Chip) (o : Seen) (h : Half) (s k : Nat) (w : Calc) (why : List (Nat × List Nat)) : Chip :=
  let c := c.enterFault h s why
  let prev := (c.loop h s).prev
  match c.fallback h s with
  | some b =>
    let c := (c.takeFromFault h s b).runTaken 16 o h b k
    c.finishUpdate h s k w.nu (c.limit h s prev w.u)
  | none => (c.ev h 0x0913 [h.idx, s]).finishUpdate h s k w.nu (c.towardsSafe h s prev)

/-- The chip after the update of a slot that computes alone. -/
def Chip.updateAlone (c : Chip) (o : Seen) (h : Half) (s k : Nat) : Chip :=
  let (w, c) := c.calc o h s
  let x := c.loop h s
  if c.loopState h s = 4 then
    c.finishUpdate h s k w.nu (if x.drives then c.towardsSafe h s x.prev else c.limit h s x.prev w.u)
  else match w.withU h s (c.closedU h s w) with
    | [] => c.runClosed h s k w
    | why => c.faultClosed o h s k w why

/-- The chip after one sample of a blend from slot `a` to slot `b` (R379, R381). Slot `b` computes anew where it takes over from a fault
of `a`, from the state it is seeded with. -/
def Chip.updateBlend (c : Chip) (o : Seen) (h : Half) (a b j k : Nat) : Chip :=
  let (wa, c1) := c.calc o h a
  let (wb, c) := c1.calc o h b
  let prev := (c.loop h a).prev
  let n := c.q (F.LOOP_RAMP_RAMP_N h.idx b)
  let u := mix j n wa.u wb.u
  let alone (s : Nat) (c : Chip) : Chip := c.setLoop h s { c.loop h s with blend := none }
  match wb.withU h b u, wa.withU h a u with
  | [], [] =>
    let ua := c.limit h b prev u
    let c := (c.finishUpdate h a k wa.nu ua).finishUpdate h b k wb.nu ua
    if j < n then
      let c := c.setLoop h a { c.loop h a with blend := some (b, false, j + 1) }
      c.setLoop h b { c.loop h b with blend := some (a, true, j + 1) }
    else
      let c := c.setLoop h a { c.loop h a with blend := none, drives := false }
      let c := c.setLoop h b { c.loop h b with blend := none }
      (((c.put (F.LOOP_STATE_ESTABLISHED h.idx a) 0).setLoopState h a 1).setLoopState h b 2).ev h 0x0910 [h.idx, a, b]
  | [], why =>
    let c := (alone a (alone b c1)).enterFault h a why
    let c := (c.takeFromFault h a b).runTaken 16 o h b k
    c.finishUpdate h a k wa.nu (c.limit h a prev wa.u)
  | why, fa =>
    let c := ((alone a (alone b c)).enterFault h b why).setLoopState h a 2
    let c := c.setLoop h b { c.loop h b with drives := false }
    let c := match fa with
      | [] => c.finishUpdate h a k wa.nu (c.limit h a prev wa.u)
      | wy => c.faultClosed o h a k wa wy
    c.finishUpdate h b k wb.nu (c.limit h b prev wb.u)

/-- A slot computes and has an instant to run: its number. -/
def Chip.dueAt (c : Chip) (h : Half) (s : Nat) : Option Nat :=
  let st := c.loopState h s
  let incoming : Bool := match (c.loop h s).blend with | some (_, inc, _) => inc | none => false
  if st < 2 ∨ incoming then none
  else match c.instantNo h s with
    | some k => if (match (c.loop h s).last with | some j => decide (k ≤ j) | none => false) = true then none else some k
    | none => none

/-- The chip after a slot runs the update that is due. -/
def Chip.updateSlot (c : Chip) (o : Seen) (h : Half) (s : Nat) : Chip :=
  match c.dueAt h s with
  | none => c
  | some k =>
    match c.loopState h s, (c.loop h s).blend with
    | 3, some (b, _, j) => c.updateBlend o h s b j k
    | _, _ => c.updateAlone o h s k

/-- Inserts a slot by period, then by number. -/
def insertSlot (key : Nat → Nat) (s : Nat) : List Nat → List Nat
  | [] => [s]
  | t :: ts => if key s < key t ∨ (key s = key t ∧ s < t) then s :: t :: ts else t :: insertSlot key s ts

/-- The slots of an engine, fastest first, then by number (R374). -/
def Chip.slotOrder (c : Chip) (h : Half) : List Nat := (List.range 16).foldl (fun l s => insertSlot (c.loopPeriod h) s l) []

/-- The chip after the outputs of opened slots move one sample towards SAFE_U (R377). -/
def Chip.stepFades (c : Chip) (h : Half) : Chip :=
  let t := c.stamp h (c.q (F.STEADY_CTL_TB h.idx)) / usUnits
  let now (f : Fade) : Nat := (t - f.phase) / max f.period 1
  let go (f : Fade) : Fade :=
    if now f = f.last then f else { f with cur := toFp32 (slewFrom (v32 f.cur) (v32 f.du) (v32 f.safe)), last := now f }
  let x := c.hio.get h
  let fs := x.fades.map go
  let moved := fs.filter fun f => (x.fades.find? fun g => g.key == f.key) != some f
  let c := c.setHio h { x with fades := fs.filter fun f => !FV.eq (v32 f.cur) (v32 f.safe) }
  moved.foldl (fun c f => c.drive h f.key f.cur) c

/-- The `STEADY` condition of R345 holds for a half (R374); in RETAIN it does not (R518). -/
def Chip.steadyOk (c : Chip) (h : Half) : Bool := c.awake h &&
  (c.on (F.STEADY_CTL_ENABLE h.idx) || (List.range 16).all fun s => c.loopState h s == 0) &&
    (List.range 16).all fun s => c.loopState h s == 0 || !((c.loop h s).late || (c.loop h s).badCoef)

/-- The chip after the updates of an instant: what each slot that ran has applied shows in `LOOP_OUT`, which a source read at the instant
does not see yet (R370, R371). -/
def Chip.showOutputs (c : Chip) (h : Half) (ran : List Nat) : Chip :=
  ran.foldl (fun c s => (c.loop h s).prev.zipIdx.foldl (fun c e => c.put (F.LOOP_OUT_VALUE h.idx s e.2) e.1) c) c

/-- The chip after the engine of a half runs the updates of a sample instant: every enabled slot whose instant it is. `late` are the
slots whose update does not finish by their next instant, `bad` the coefficients found uncorrectable (R370, R374). -/
def Chip.steadyInstant (c : Chip) (o : Seen) (h : Half) (late : List (Fin 16)) (bad : List (Fin 16 × Fin 2048)) : Chip :=
  let c := bad.foldl (fun c p =>
    if c.loopState h p.1.val < 2 then c
    else
      let (v, c) := c.draw
      let c := (c.setReg (coefPage h p.1.val + 4 * p.2.val) v).setLoop h p.1.val { c.loop h p.1.val with badCoef := true }
      (c.inc (F.STEADY_OVERRUN_COUNT h.idx)).ev h 0x0904 [h.idx, p.1.val]) c
  let due := (c.slotOrder h).filter fun n => (c.dueAt h n).isSome
  let d := due.foldl (fun c n => c.updateSlot o h n) c
  let ran := (List.range 16).filter fun n => (d.loop h n).last != (c.loop h n).last
  let c := ran.foldl (fun c n =>
    let l := late.any fun m => m.val == n
    let c := c.setLoop h n { c.loop h n with late := l }
    if l then (c.inc (F.STEADY_OVERRUN_COUNT h.idx)).ev h 0x0903 [h.idx, n] else c) (d.showOutputs h ran)
  c.stepFades h

/-! ### Commands (R373, R374, R377, R378) -/

/-- A source word is valid (R368). -/
def sourceGood (w : Nat) : Bool := decide (bits w 28 4 ≤ 6) && !(bits w 28 4 == 5 && bits w 0 16 % 4 != 0)

/-- The dimensions, the timing, the source words and the destination words of a slot are valid. -/
def Chip.loopValid (c : Chip) (h : Half) (s : Nat) : Bool :=
  let nx := c.q (F.LOOP_CFG_N_X h.idx s)
  let ny := c.q (F.LOOP_CFG_N_Y h.idx s)
  let nr := c.q (F.LOOP_CFG_N_R h.idx s)
  let nu := c.q (F.LOOP_CFG_N_U h.idx s)
  let p := c.loopPeriod h s
  decide (1 ≤ nx ∧ nx ≤ 16 ∧ ny ≤ 8 ∧ nr ≤ 8 ∧ 1 ≤ nu ∧ nu ≤ 8 ∧ 20 ≤ p ∧ p ≤ 10000 ∧ c.loopPhase h s < p) &&
    ((List.range ny).all fun i => sourceGood (c.reg (Reg.LOOP_Y_SRC h.idx s i))) &&
    ((List.range nr).all fun i => sourceGood (c.reg (Reg.LOOP_R_SRC h.idx s i))) &&
    ((List.range nu).all fun i => decide (c.q (F.LOOP_U_DST_KIND h.idx s i) ≤ 2))

/-- The load of slots as a fraction: numerator and denominator, in updates per second (R374). -/
def Chip.loadOf (c : Chip) (h : Half) (l : List Nat) : Nat × Nat :=
  l.foldl (fun a s => (a.1 * max (c.loopPeriod h s) 1 + 1000000 * a.2, a.2 * max (c.loopPeriod h s) 1)) (0, 1)

/-- The enabled slots of an engine. -/
def Chip.enabledSlots (c : Chip) (h : Half) : List Nat := (List.range 16).filter fun s => c.loopState h s != 0

/-- The chip with `STEADY_STATUS.LOAD` as the slots have it. -/
def Chip.syncLoad (c : Chip) (h : Half) : Chip :=
  let l := c.loadOf h (c.enabledSlots h)
  c.put (F.STEADY_STATUS_LOAD h.idx) (l.1 / (l.2 * 100))

/-- Two slots name a common destination. -/
def Chip.shareDest (c : Chip) (h : Half) (a b : Nat) : Bool := (c.destKeys h a).any fun k => (c.destKeys h b).contains k

/-- The result of checking a command against an engine's own slots; 0 where it may go on (R377). -/
def Chip.steadyCheck (c : Chip) (h : Half) (op s b : Nat) : Nat :=
  let st := c.loopState h s
  match op with
  | 1 =>
    let l := c.loadOf h (s :: c.enabledSlots h)
    if st ≠ 0 then 0x40 else if ¬ c.loopValid h s then 0x41 else if 400000 * l.2 < l.1 then 0x42
    else if (c.enabledSlots h).any (fun t => c.shareDest h s t && !c.partners h s t) then 0x43 else 0
  | 2 =>
    if st ≠ 1 then 0x40
    else if (List.range 16).any (fun t => t != s && decide (2 ≤ c.loopState h t) && c.shareDest h s t) then 0x43 else 0
  | 3 => if st = 3 then 0x40 else 0
  | 4 => if ¬ ((st = 2 ∨ st = 4) ∧ c.loopState h b = 1) then 0x40 else if ¬ c.partners h s b then 0x41 else 0
  | _ => 0x41

/-- One step of the CRC-32 of IEEE 802.3, on its reflected register. -/
def crc32bit : Nat → Nat → Nat
  | 0, v => v
  | n + 1, v => crc32bit n (if v % 2 = 1 then Nat.xor (v / 2) 0xEDB88320 else v / 2)

/-- The CRC-32 of IEEE 802.3 over bytes. -/
def crc32 (bs : List Byte) : Nat := Nat.xor (bs.foldl (fun a b => crc32bit 8 (Nat.xor a b.toNat)) 0xFFFFFFFF) 0xFFFFFFFF

/-- The CRC-32 over a slot's configuration registers, in ascending address, and its coefficient page (R377). -/
def Chip.loopCrc (c : Chip) (h : Half) (s : Nat) : Nat :=
  let base := Reg.LOOP_CFG h.idx s
  let cfg := [base, base + 4, base + 8] ++ (List.range 24).map fun i => base + 0x20 + 4 * i
  crc32 ((cfg ++ (List.range 2048).map fun i => coefPage h s + 4 * i).flatMap fun a => toLE 4 (c.reg a))

/-- The chip with a result in `STEADY_CMD_RESULT`; a refusal raises event 0x0919. -/
def Chip.steadyResult (c : Chip) (h : Half) (op s res : Nat) : Chip :=
  let c := ((c.put (F.STEADY_CMD_RESULT_OP h.idx) op).put (F.STEADY_CMD_RESULT_SLOT h.idx) s).put (F.STEADY_CMD_RESULT_RESULT h.idx) res
  if res = 0 then c else c.ev h 0x0919 [h.idx, op, s, res]

/-- The chip with a command waiting at an engine. -/
def Chip.steadyPend (c : Chip) (h : Half) (k : SteadyCmd) : Chip :=
  (({ c with steadyCmd := c.steadyCmd.set h (some k) }).steadyResult h k.op k.slot 0).put (F.STEADY_CMD_RESULT_BUSY h.idx) 1

/-- The chip after firmware writes `STEADY_CMD` of a half: each engine checks the command against its own slots, the peer the one that is
forwarded to it; one that refuses it has its own result (R377, R378). DEDUCED, unsafe: log 156. -/
def Chip.steadyCommand (c : Chip) (h : Half) (op s b : Nat) : Chip :=
  let alone := c.down.get h.other
  let busy (x : Half) := c.on (F.STEADY_CMD_RESULT_BUSY x.idx)
  let chk := c.steadyCheck h op s b
  let res :=
    if busy h ∨ (¬ alone ∧ busy h.other) then 0x47
    else if ¬ alone ∧ ¬ c.on (F.AUTH_STATUS_PATH_HL h.idx) then 0x45
    else if chk ≠ 0 then chk
    else if op = 1 ∧ ¬ alone ∧ c.loopCrc h s ≠ c.loopCrc h.other s then 0x44 else 0
  if res ≠ 0 then c.steadyResult h op s res
  else
    let p := max (c.loopPeriod h s) 1
    let t := c.stamp h (c.q (F.STEADY_CTL_TB h.idx)) + 20 * usUnits
    let ph := c.loopPhase h s * usUnits
    let k : SteadyCmd := ⟨op, s, b, ph + (t - ph + p * usUnits - 1) / (p * usUnits) * (p * usUnits)⟩
    let far := c.steadyCheck h.other op s b
    let c := c.steadyPend h k
    if alone then c else if far ≠ 0 then c.steadyResult h.other op s far else c.steadyPend h.other k

/-- Present applied value of an output of a slot: what a slot last applied to it, else SAFE_U (R377). -/
def Chip.presentOutput (c : Chip) (h : Half) (s i : Nat) : Nat :=
  let d := toFp32 (c.coef h s 0xE00 i)
  match c.destKey h s i with
  | some key => (Tbl.find? (c.hio.get h).drv key).getD d
  | none => d

/-- The chip after ARM applies. -/
def Chip.armSlot (c : Chip) (h : Half) (s : Nat) : Chip :=
  ((c.setReg (Reg.LOOP_CRC h.idx s) (c.loopCrc h s)).setLoopState h s 1).syncLoad h

/-- The chip after CLOSE applies. -/
def Chip.closeSlot (c : Chip) (h : Half) (s : Nat) : Chip :=
  let start := (List.range (c.nU h s)).map (c.presentOutput h s)
  let x := c.loop h s
  let c := c.setLoop h s { x with
    xh := (List.range (c.nX h s)).map (fun i => toFp32 (c.coef h s 0xE20 i)), prev := start, drives := true, blend := none,
    ramp := if c.q (F.LOOP_RAMP_RAMP_N h.idx s) = 0 then none else some (start, 1), est := 0 }
  ((c.put (F.LOOP_STATE_PLAUS_RUN h.idx s) 0).stopFades h s).setLoopState h s 2

/-- The chip after OPEN applies. -/
def Chip.openSlot (c : Chip) (h : Half) (s : Nat) : Chip :=
  let x := c.loop h s
  let fades := if x.drives then (List.range (c.nU h s)).filterMap fun i => (c.destKey h s i).map fun key =>
      Fade.mk key (x.prev.getD i 0) (toFp32 (c.coef h s 0xE00 i)) (toFp32 (c.coef h s 0xDE0 i)) (c.loopPeriod h s)
        (c.loopPhase h s) ((c.instantNo h s).getD 0)
    else []
  let y := c.hio.get h
  let c := (c.setHio h { y with fades := y.fades ++ fades }).setLoop h s LoopSt.zero
  let c := ((c.put (F.LOOP_STATE_SAFE_ENV h.idx s) 0).put (F.LOOP_STATE_ESTABLISHED h.idx s) 0).put (F.LOOP_STATE_PLAUS_RUN h.idx s) 0
  let c := if c.loopState h s = 0 then c else c.setLoopState h s 0
  c.syncLoad h

/-- The chip after HANDOVER applies, with its result (R379, R380). -/
def Chip.handoverSlots (c : Chip) (o : Seen) (h : Half) (a b : Nat) : Nat × Chip :=
  if c.loopState h a = 4 then (0, (c.takeFromFault h a b).stopFades h b)
  else
    let xb := c.seed h a b
    let c := { c with freeCnt := c.freeCnt + 16 }
    let prev := (c.loop h a).prev
    let (r, c) := c.readSources o h b ((List.range (c.nR h b)).map (8 + ·))
    let w := c.control h b 0 r (xb.map v32)
    let u := (List.range (c.nU h b)).map fun i =>
      let l := c.outBounds h b i
      clipTo l.1 l.2 (w.getD i FV.zero)
    let c := { c with freeCnt := c.freeCnt + 24 }
    let diff (i : Nat) := sub32 (u.getD i FV.zero) (v32 (prev.getD i 0))
    match (List.range u.length).find? fun i => FV.lt (c.coef h b 0xE60 i) (diff i).abs with
    | some i => (0x46, c.ev h 0x0911 [h.idx, a, b, i, toFp32 (diff i)])
    | none =>
      let c := c.setLoop h b { c.loop h b with xh := xb, prev := prev, drives := true, ramp := none, last := (c.loop h a).last }
      if c.q (F.LOOP_RAMP_RAMP_N h.idx b) = 0 then
        let c := c.setLoop h a { c.loop h a with drives := false, ramp := none }
        (0, (((c.put (F.LOOP_STATE_ESTABLISHED h.idx a) 0).setLoopState h a 1).setLoopState h b 2).ev h 0x0910 [h.idx, a, b])
      else
        let c := c.setLoop h a { c.loop h a with blend := some (b, false, 1), ramp := none }
        let c := c.setLoop h b { c.loop h b with blend := some (a, true, 1) }
        (0, (c.setLoopState h a 3).setLoopState h b 3)

/-- The chip after the command that waits at an engine applies, or is refused there (R378). -/
def Chip.steadyApply (c : Chip) (o : Seen) (h : Half) (k : SteadyCmd) : Chip :=
  let c := { c with steadyCmd := c.steadyCmd.set h none }
  let c := c.put (F.STEADY_CMD_RESULT_BUSY h.idx) 0
  let c :=
    if c.steadyCheck h k.op k.slot k.into ≠ 0 then c.steadyResult h k.op k.slot 0x40
    else
      let (res, c) : Nat × Chip := match k.op with
        | 1 => (0, c.armSlot h k.slot)
        | 2 => (0, c.closeSlot h k.slot)
        | 3 => (0, c.openSlot h k.slot)
        | _ => c.handoverSlots o h k.slot k.into
      c.steadyResult h k.op k.slot res
  [k.slot, k.into].foldl (fun c s => if c.diverged s then (c.unestablish .H s).unestablish .T s else c) c

/-- The chip after an initiator writes `STEADY_CMD`: only an admitted one commands slots (R216, R390). -/
def Chip.steadyWrite (c : Chip) (i : Initiator) (h : Half) (op s b : Nat) : Chip :=
  let a := Reg.STEADY_CMD h.idx
  match c.portCause i true a with
  | 0 => if c.down.get h then c else c.steadyCommand h op s b
  | k => c.refusalEvent h none i.owner a k i.port

/-- ARM (R377). -/
def execArm (i : Initiator) (h : Half) (n : Fin 16) (s : State) : Host.Outcome State Fault Refusal := s.go (s.chip.steadyWrite i h 1 n.val 0)
/-- CLOSE (R377). -/
def execClose (i : Initiator) (h : Half) (n : Fin 16) (s : State) : Host.Outcome State Fault Refusal := s.go (s.chip.steadyWrite i h 2 n.val 0)
/-- OPEN (R377). -/
def execOpenSlot (i : Initiator) (h : Half) (n : Fin 16) (s : State) : Host.Outcome State Fault Refusal := s.go (s.chip.steadyWrite i h 3 n.val 0)
/-- MODE_HANDOVER (R379). -/
def execModeHandover (i : Initiator) (h : Half) (a b : Fin 16) (s : State) : Host.Outcome State Fault Refusal :=
  s.go (s.chip.steadyWrite i h 4 a.val b.val)

/-! ### Coefficients and configuration (R367, R391) -/

/-- The chip after a word of a slot's page or configuration is written: taken while the slot is OPEN, else counted. -/
def Chip.loopWrite (c : Chip) (h : Half) (s off a v : Nat) : Chip :=
  if c.loopState h s = 0 then c.setReg a v else (c.inc (F.STEADY_COEF_REJ_COUNT h.idx)).ev h 0x0918 [h.idx, s, off]

/-- COEFFICIENT_WRITE (R367): a 32-bit write of word `k` of the coefficient page of a slot; reserved words keep no value. -/
def execCoefficientWrite (i : Initiator) (h : Half) (n : Fin 16) (k : Fin 2048) (v : Word) (s : State) : Host.Outcome State Fault Refusal :=
  let c := s.chip
  let a := coefPage h n.val + 4 * k.val
  match c.portCause i true a with
  | 0 =>
    let v := if 0x1400 ≤ 4 * k.val ∨ (0xE80 ≤ 4 * k.val ∧ 4 * k.val < 0x1000) then 0 else v.toNat
    s.go (if c.down.get h then c else c.loopWrite h n.val (4 * k.val) a v)
  | e => s.go (c.refusalEvent h none i.owner a e i.port)

end Sys2Proof.Machine
end

