-- ==== Sys2Proof/Machine/Authority.lean ====
section
/-! DEFINITION. The authority logic of the two halves (R343–R361): fitness, messages, claims, ties, the output interlock,
handover, SAFE_STOP, the authority sources of DEGRADED. -/

namespace Sys2Proof.Machine

/-! ### States and conditions (R343–R346) -/

/-- Authority state of a half: 0 DOWN, 1 STANDBY, 2 CHARGE, 3 OBSERVER. -/
def Chip.authState (c : Chip) (h : Half) : Nat := c.q (F.AUTH_STATUS_STATE h.idx)
/-- The chip with the authority logic of a half replaced. -/
def Chip.setAuthSt (c : Chip) (h : Half) (x : AuthSt) : Chip := { c with auth := c.auth.set h x }
/-- The debug state of a half is Vendor-return (R44). -/
def Chip.vendorReturn (c : Chip) (h : Half) : Bool := c.q (F.SEC_STATUS_DEBUG h.idx) == 2
/-- Every condition of R345 holds. -/
def Chip.fit (c : Chip) (h : Half) : Bool := c.q (F.AUTH_STATUS_UNFIT h.idx) == 0 && !c.vendorReturn h
/-- A half is the one in charge. -/
def Chip.inCharge (c : Chip) (h : Half) : Bool := c.authState h == 2

/-- The slots that R356 requires of a fit standby, those CLOSED or in BLEND on the other half, are established on a half, and
none of its own is in FAULT. -/
def Chip.shadowOk (c : Chip) (h : Half) : Bool :=
  (List.range 16).all fun s =>
    let st := c.loopState h.other s
    c.loopState h s != 4 && ((st != 2 && st != 3) || c.on (F.LOOP_STATE_ESTABLISHED h.idx s))

/-- The class A models that a half lost when it went DOWN have been loaded there again: the same weights for the same party
(R291, R362; DEDUCED: log 158). -/
def Chip.reloaded (c : Chip) (h : Half) : Bool :=
  c.models.all fun e =>
    let m := e.2
    m.gone != some h || m.owner.part == 0 || c.partClass m.owner.part != 0 ||
      c.models.any fun f => f.2.owner == m.owner && f.2.digest == m.digest && f.2.gone != some h &&
        (match h with | .H => f.2.bytesH | .T => f.2.bytesT) != 0

/-- A half is a fit standby (R356, R362). -/
def Chip.fitStandby (c : Chip) (h : Half) : Bool :=
  c.authState h == 1 && c.fit h && c.shadowOk h && c.reloaded h && !c.down.get h

/-- The levels P and N of the in-charge pair of a half: P is high exactly while it holds the token. N is high while a half
in service does not; that of a DOWN half is low where it is unpowered, and is not modelled otherwise (R348, R352). -/
def Chip.chgPair (c : Chip) (h : Half) : Bool × Option Bool :=
  (!c.down.get h && c.inCharge h, if c.down.get h then none else some (!c.inCharge h))

/-- What a half reads from the levels P and N of an ARB_SEL pair: 0 neither, 1 Headstock, 2 Tailstock (R352). -/
def arbView : Bool × Bool → Nat
  | (true, false) => 1
  | (false, true) => 2
  | _ => 0

/-- The half of what a debugger halts. -/
def targetHalf (c : Chip) (t : DebugTarget) : Half :=
  match t with
  | .app k => if k.val < 8 then .H else .T
  | .engine (.array a) => arrayHalf a.val
  | .engine (.bench b) => benchHalf b.val
  | .engine (.attention id) => match c.cmd? id with | some m => m.half | none => .H
  | .gouge b _ => benchHalf b.val

/-- A debugger holds an engine of the half halted, or the debug state is Vendor-return (R345). -/
def Chip.debugBad (c : Chip) (h : Half) : Bool :=
  c.vendorReturn h || c.halted.any fun t => targetHalf c t == h

/-- The junction temperature of a half, in 1/16 °C: the highest of sensors 0 to 13 (R525). -/
def Chip.junction (c : Chip) (h : Half) : Int :=
  (List.range 14).foldl (fun t k => max t (sgn 16 (c.q (F.POWER_TEMP_TEMP h.idx k)))) (-32768)

/-- What the machine itself shows of a condition of R345 (0 `LOCKSTEP` to 5 `THERMAL`); none where it comes from outside. -/
def Chip.conditionNow (c : Chip) (h : Half) (k : Nat) : Option Bool :=
  match k with
  | 1 => some (c.steadyOk h)
  | 3 => some (!c.debugBad h)
  | 4 => some (c.roughOk h)
  | 5 => some (decide (c.junction h < 110 * 16))
  | _ => none

/-! ### OUT_EN and the sources of DEGRADED (R353, R360, R361) -/

/-- The chip after the OUT_EN of a half falls. -/
def Chip.dropOut (c : Chip) (h : Half) : Chip :=
  if c.outEn h then
    Chip.recallGated { (c.put (F.AUTH_STATUS_OUT_EN h.idx) 0) with gapFrom := some ⟨c.stamp .H 0, c.stamp .T 0⟩, lastDriver := some h } h
  else c

/-- A half has sensed its peer as down (R348); the reading falls as the peer leaves reset. -/
def Chip.peerDown (c : Chip) (h : Half) : Bool := c.on (F.AUTH_STATUS_PEER_DOWN h.idx) && c.down.get h.other

/-- A half's sense lines show its peer's OUT_EN as off: the lines of a peer that is DOWN hold no valid combination, which
reads as on (R353). -/
def Chip.senseOff (c : Chip) (h : Half) : Bool := !c.down.get h.other && !c.outEn h.other

/-- A half has read its peer's OUT_EN as off, or its peer as down. -/
def Chip.peerOff (c : Chip) (h : Half) : Bool := c.peerDown h || c.senseOff h

/-- The time for which a half has read its peer's OUT_EN as off is at least `us` microseconds. -/
def Chip.peerOffFor (c : Chip) (h : Half) (us : Nat) : Bool :=
  match (c.auth.get h).offSince with
  | some t => decide (((us * usUnits : Nat) : Int) ≤ elapsed (c.stamp h 0) t)
  | none => false

/-- Why a half whose OUT_EN is off asserts SAFE_STOP: 0 not fit, 1 no half drives (R360). -/
def Chip.safeStopCause (c : Chip) (h : Half) : Option Nat :=
  if c.outEn h then none else if ¬ c.fit h then some 0 else if c.peerOffFor h 1000 then some 1 else none

/-- `DEG_SRC` of a half (R361). -/
def Chip.degSrc (c : Chip) : Nat :=
  let ch := if c.inCharge .H then some Half.H else if c.inCharge .T then some Half.T else none
  let standby := match ch with | some h => c.fitStandby h.other | none => true
  let soft := match ch with | some h => c.q (F.AUTH_STATUS_UNFIT h.idx) / 16 != 0 | none => false
  b2n ch.isNone + 2 * b2n (!standby) + 4 * b2n (c.authState .H == 3 || c.authState .T == 3) + 8 * b2n soft

/-- The chip after a half enters OBSERVER: cause 0 silent peer, 1 tie. -/
def Chip.observe (c : Chip) (h : Half) (cause : Nat) : Chip := (c.put (F.AUTH_STATUS_STATE h.idx) 3).ev h 0x0804 [h.idx, cause]

/-- A half in STANDBY, without an arbiter, whose peer is silent but not down: it enters OBSERVER (R349). -/
def Chip.lone (c : Chip) (h : Half) : Bool :=
  c.authState h == 1 && !c.on (F.AUTH_STATUS_ARB_PRESENT h.idx) && c.on (F.AUTH_STATUS_PEER_SILENT h.idx) &&
    !c.on (F.AUTH_STATUS_PEER_DOWN h.idx)

/-- The chip with what one half's authority logic derives from its inputs. A half in charge with a failed soft condition
begins a planned handover as soon as its peer is a fit standby, and holds for `UNFIT_MAX_MS` where it is not (R346). -/
def Chip.syncAuthHalf (c : Chip) (h : Half) : Chip :=
  if c.down.get h ∨ c.authState h = 0 then c
  else
    let c := if c.lone h then c.observe h 0 else c
    let x := c.auth.get h
    let off := if c.peerOff h then some (x.offSince.getD (c.stamp h 0)) else none
    let soft := c.inCharge h && c.q (F.AUTH_STATUS_UNFIT h.idx) / 16 != 0
    let ready := c.fitStandby h.other
    let c := c.setAuthSt h { x with
      offSince := off
      handoff := x.handoff || (soft && ready)
      softSince := if ¬ soft then none else if ready then x.softSince else some (x.softSince.getD (c.stamp h 0)) }
    let c := c.put (F.AUTH_STATUS_SHADOW_OK h.idx) (b2n (c.shadowOk h))
    let ok := !c.down.get h.other
    let c := if c.on (F.AUTH_STATUS_SENSE_OK h.idx) = ok then c
      else (c.put (F.AUTH_STATUS_SENSE_OK h.idx) (b2n ok)).ev h (if ok then 0x0809 else 0x0808) [h.idx, 2]
    let c := c.put (F.AUTH_STATUS_DEG_SRC h.idx) c.degSrc
    if c.on (F.AUTH_STATUS_SAFE_STOP h.idx) ∧ (c.safeStopCause h).isNone then
      (c.put (F.AUTH_STATUS_SAFE_STOP h.idx) 0).ev h 0x0821 [h.idx]
    else if ¬ c.on (F.AUTH_STATUS_SAFE_STOP h.idx) ∧ c.vendorReturn h ∧ ¬ c.outEn h then
      (c.put (F.AUTH_STATUS_SAFE_STOP h.idx) 1).ev h 0x0820 [h.idx, 0]
    else c

/-- The chip with all that follows at once from the authority state of the halves. -/
def Chip.syncAuth (c : Chip) : Chip := ((c.syncAuthHalf .H).syncAuthHalf .T).syncDegraded

/-! ### Taking and leaving charge -/

/-- Whether an epoch is higher than another, as signed 32-bit numbers (R344). -/
def epochAbove (a b : Nat) : Bool := decide (0 < sgn 32 (a + 2 ^ 32 - b % 2 ^ 32))

/-- The chip after a half claims: cause 0 start, 1 handoff, 2 peer down, 3 peer silent (R344). -/
def Chip.claim (c : Chip) (h : Half) (cause : Nat) : Chip :=
  let own := c.reg (Reg.AUTH_EPOCH h.idx)
  let peer := c.reg (Reg.AUTH_PEER_EPOCH h.idx)
  let e := ((if epochAbove peer own then peer else own) + 1) % 2 ^ 32
  let c := c.setAuthSt h { c.auth.get h with atStart := false, offered := none, handoff := false }
  let c := if c.authState h = 3 then c.ev h 0x0805 [h.idx] else c
  (((c.setReg (Reg.AUTH_EPOCH h.idx) e).put (F.AUTH_STATUS_STATE h.idx) 2).ev h 0x0800 [h.idx, e, cause]).syncAuth

/-- The chip after a half leaves CHARGE for a state: cause 0 unfit, 1 soft-unfit hold over, 2 higher epoch, 3 tie (R346,
R350). OUT_EN falls with it. -/
def Chip.leaveCharge (c : Chip) (h : Half) (state cause : Nat) : Chip :=
  if ¬ c.inCharge h then c
  else
    let c := (c.put (F.AUTH_STATUS_STATE h.idx) state).dropOut h
    let c := c.setAuthSt h { c.auth.get h with handoff := false, softSince := none, tieHold := none }
    c.ev h 0x0801 [h.idx, c.reg (Reg.AUTH_EPOCH h.idx), cause]

/-- Sample instants of the fastest enabled slot of a half so far; none where no slot is enabled (R358). -/
def Chip.fastInstant (c : Chip) (h : Half) : Option Nat :=
  match (c.slotOrder h).find? fun s => c.loopState h s != 0 with
  | some s => c.instantNo h s
  | none => none

/-! ### Messages (R347, R350) -/

/-- The message that a half sends; `slow` keeps applied outputs to slots of at most 2 kHz (R356). -/
def Chip.authMsg (c : Chip) (h : Half) (slow : Bool) : AuthMsg :=
  let applied := if c.inCharge h then (List.range 16).filterMap fun s =>
      if c.loopState h s < 2 ∨ (slow ∧ c.loopPeriod h s < 500) then none
      else (c.loop h s).last.map fun k => (s, k, (c.loop h s).prev)
    else []
  ⟨c.reg (Reg.AUTH_EPOCH h.idx), c.authState h, c.q (F.AUTH_STATUS_UNFIT h.idx), (c.auth.get h).handoff, (c.auth.get h).seq, applied⟩

/-- AUTHORITY_MESSAGE_SEND (R347): a half sends its message on both paths. -/
def execAuthorityMessageSend (h : Half) (s : State) : Host.Outcome State Fault Refusal :=
  let c := s.chip
  if c.down.get h then s.go c
  else
    let x := c.auth.get h
    let c := { c with authWire := c.authWire.set h (some (c.authMsg h false), some (c.authMsg h true)) }
    s.go (c.setAuthSt h { x with seq := (x.seq + 1) % 2 ^ 32, lastSent := c.stamp h 0 })

/-- The chip after a tie is seen by a half (R350). -/
def Chip.tie (c : Chip) (h : Half) : Chip :=
  let arb := c.on (F.AUTH_STATUS_ARB_PRESENT h.idx)
  let x := c.auth.get h
  let first := !x.tied
  let c := c.setAuthSt h { x with tied := true }
  let c := if first then c.ev h 0x0803 [c.reg (Reg.AUTH_EPOCH h.idx), b2n (!arb)] else c
  if arb then (if c.q (F.AUTH_STATUS_ARB_VIEW h.idx) = h.idx + 1 then c else c.leaveCharge h 1 3)
  else match h with
    | .T => (c.leaveCharge h 3 3).ev h 0x0804 [h.idx, 1]
    | .H => if c.outEn h ∨ ¬ first then c else c.setAuthSt h { c.auth.get h with tieHold := some (c.stamp h 0) }

/-- The chip after the epoch and state of a valid message take effect (R344, R349, R350). -/
def Chip.messageActs (c : Chip) (h : Half) (m : AuthMsg) : Chip :=
  let own := c.reg (Reg.AUTH_EPOCH h.idx)
  let x := c.auth.get h
  let isTie := m.epoch == own && m.state == 2 && c.inCharge h
  let c := if isTie then c else c.setAuthSt h { x with tied := false }
  let c :=
    if x.atStart ∧ m.state = 2 ∧ ¬ c.inCharge h then
      (c.setAuthSt h { c.auth.get h with atStart := false }).setReg (Reg.AUTH_EPOCH h.idx) m.epoch
    else if epochAbove m.epoch own then (c.setReg (Reg.AUTH_EPOCH h.idx) m.epoch).leaveCharge h 1 2
    else if isTie then c.tie h else c
  if m.handoff ∧ c.authState h = 1 then
    match (c.auth.get h).offered with
    | none => c.setAuthSt h { c.auth.get h with offered := some ((c.fastInstant h).getD 0) }
    | some k =>
      let go : Bool := match c.fastInstant h with | some n => n != k | none => true
      if go ∧ c.fit h then c.claim h 1 else c
  else if m.handoff then c else c.setAuthSt h { c.auth.get h with offered := none }

/-- The chip after a valid message of a path counts towards restoring it (R347): path 0 half link, 1 sideband. `next` where
it follows the last message received on the path, none being missing between them. -/
def Chip.pathGood (c : Chip) (h : Half) (path : Nat) (next : Bool) : Chip :=
  let x := c.auth.get h
  let n := (if ¬ next then 0 else if path = 0 then x.hlGood else x.sbGood) + 1
  let c := c.setAuthSt h (if path = 0 then { x with hlGood := min n 3 } else { x with sbGood := min n 3 })
  let f := if path = 0 then F.AUTH_STATUS_PATH_HL h.idx else F.AUTH_STATUS_PATH_SB h.idx
  if 3 ≤ n ∧ ¬ c.on f then (c.put f 1).ev h 0x0809 [h.idx, path] else c

/-- The chip after a half receives its peer's latest message on a path. -/
def Chip.receiveAuth (c : Chip) (h : Half) (path : Nat) (good : Bool) : Chip :=
  let w := c.authWire.get h.other
  let x := c.auth.get h
  match (if path = 0 then w.1 else w.2) with
  | none => c
  | some m =>
    if ¬ good then c.setAuthSt h (if path = 0 then { x with hlGood := 0 } else { x with sbGood := 0 })
    else if (if path = 0 then x.hlSeq else x.sbSeq) = some m.seq then c
    else
      let next := (if path = 0 then x.hlSeq else x.sbSeq).map (fun k => (k + 1) % 2 ^ 32) == some m.seq
      let x := if path = 0 then { x with hlSeq := some m.seq } else { x with sbSeq := some m.seq }
      let fed := m.applied.foldl (fun t e => Tbl.ins t e.1 e.2) x.fed
      let c := (c.setAuthSt h { x with lastValid := c.stamp h 0, fed := fed }).pathGood h path next
      let c := ((c.put (F.AUTH_STATUS_PEER_STATE h.idx) m.state).put (F.AUTH_STATUS_PEER_SILENT h.idx) 0).setReg
        (Reg.AUTH_PEER_EPOCH h.idx) m.epoch
      (c.messageActs h m).syncAuth

/-- AUTHORITY_MESSAGE (R347, R350): a half receives its peer's latest message on a path, 0 the half link and 1 the
sideband; `good` if its CRC-16 is right. -/
def execAuthorityMessage (h : Half) (path : Fin 2) (good : Bool) (s : State) : Host.Outcome State Fault Refusal :=
  if s.chip.down.get h then s.go s.chip else s.go (s.chip.receiveAuth h path.val good)

/-- PATH_LOSS (R347): three consecutive messages are missing on a path of a half; on a path already lost, the count of
valid messages that would restore it starts anew. -/
def execPathLoss (h : Half) (path : Fin 2) (s : State) : Host.Outcome State Fault Refusal :=
  let c := s.chip
  let f := if path.val = 0 then F.AUTH_STATUS_PATH_HL h.idx else F.AUTH_STATUS_PATH_SB h.idx
  let n := if path.val = 0 then F.AUTH_PATH_ERR_HL_LOST h.idx else F.AUTH_PATH_ERR_SB_LOST h.idx
  let x := c.auth.get h
  let c := c.setAuthSt h (if path.val = 0 then { x with hlGood := 0 } else { x with sbGood := 0 })
  if c.down.get h then s.go s.chip
  else if c.on f then s.go (((c.put f 0).inc n).ev h 0x0808 [h.idx, path.val]).syncAuth
  else s.go c

/-- PEER_SILENT (R348, R349): no valid message has reached a half for 50 µs; what follows is in `Chip.syncAuthHalf`. -/
def execPeerSilent (h : Half) (s : State) : Host.Outcome State Fault Refusal :=
  let c := s.chip
  let late := decide (((50 * usUnits : Nat) : Int) ≤ elapsed (c.stamp h 0) (c.auth.get h).lastValid)
  if c.down.get h ∨ c.on (F.AUTH_STATUS_PEER_SILENT h.idx) ∨ ¬ late then s.go c
  else
    s.go ((c.put (F.AUTH_STATUS_PEER_SILENT h.idx) 1).ev h 0x080A [h.idx, 0]).syncAuth

/-- PEER_DOWN (R348): a half's monitors have sensed for 2 µs that its peer is held in reset or its core rail is low. -/
def execPeerDown (h : Half) (s : State) : Host.Outcome State Fault Refusal :=
  let c := s.chip
  if c.down.get h ∨ c.on (F.AUTH_STATUS_PEER_DOWN h.idx) ∨ ¬ c.down.get h.other then s.go c
  else s.go ((c.put (F.AUTH_STATUS_PEER_DOWN h.idx) 1).ev h 0x080A [h.idx, 1]).syncAuth

/-! ### Claims (R349) -/

/-- Why a half may claim now: 0 start, 1 handoff, 2 peer down, 3 peer silent with an arbiter. -/
def Chip.mayClaim (c : Chip) (h : Half) : Option Nat :=
  let x := c.auth.get h
  let st := c.authState h
  let handed : Bool := match x.offered with
    | none => false
    | some k => match c.fastInstant h with | some n => n != k | none => true
  let fitLong : Bool := match x.fitSince with
    | some t => decide (((50000 * usUnits : Nat) : Int) ≤ elapsed (c.stamp h 0) t)
    | none => false
  if c.down.get h ∨ ¬ c.fit h then none
  else if (st = 1 ∨ st = 3) ∧ c.on (F.AUTH_STATUS_PEER_DOWN h.idx) then some 2
  else if st = 1 ∧ handed then some 1
  else if st = 1 ∧ c.on (F.AUTH_STATUS_ARB_PRESENT h.idx) ∧ c.on (F.AUTH_STATUS_PEER_SILENT h.idx) then some 3
  else if st = 1 ∧ x.atStart ∧ (h = .H ∨ fitLong) then some 0
  else none

/-- CLAIM (R349): a fit half claims the token in one of the cases of R349. -/
def execClaim (h : Half) (s : State) : Host.Outcome State Fault Refusal :=
  match s.chip.mayClaim h with
  | some k => s.go (s.chip.claim h k)
  | none => s.go s.chip

/-! ### Fitness (R345, R346) -/

/-- The chip after a condition of a half fails, or holds again; a soft one takes effect in `Chip.syncAuth`. -/
def Chip.fitness (c : Chip) (h : Half) (k : Nat) (ok : Bool) : Chip :=
  let old := c.q (F.AUTH_STATUS_UNFIT h.idx)
  let new := setBit old k (!ok)
  let x := c.auth.get h
  let c := c.put (F.AUTH_STATUS_UNFIT h.idx) new
  if new = old then c
  else if new = 0 then
    (c.setAuthSt h { x with fitSince := some (c.stamp h 0), softSince := none }).ev h 0x0811 [h.idx]
  else
    let c := c.setAuthSt h { x with fitSince := none }
    let c := if ok then c else c.ev h 0x0810 [h.idx, new]
    if ok ∨ ¬ c.inCharge h then c
    else if k < 4 then c.leaveCharge h 1 0 else c

/-- The chip after the debug state or what a debugger halts has changed: where the `DEBUG` condition of a half follows, it
fails or holds again at once (R44, R345). -/
def Chip.syncDebug (c old : Chip) : Chip :=
  ([Half.H, Half.T].foldl (fun (c : Chip) h =>
    if c.down.get h ∨ c.debugBad h = old.debugBad h then c else c.fitness h 3 (!c.debugBad h)) c).syncAuth

/-- FITNESS_CHANGE (R345, R346): a condition of a half (0 `LOCKSTEP` to 5 `THERMAL`) fails or holds again; where the
machine itself shows the condition, the event agrees with it. -/
def execFitnessChange (h : Half) (k : Fin 6) (ok : Bool) (s : State) : Host.Outcome State Fault Refusal :=
  let c := s.chip
  if c.down.get h ∨ c.conditionNow h k.val = some (!ok) then s.go c else s.go (c.fitness h k.val ok).syncAuth

/-- UNFIT_MAX_EXPIRY (R346): a soft-unfit half in charge has held for `UNFIT_MAX_MS`. -/
def execUnfitMaxExpiry (h : Half) (s : State) : Host.Outcome State Fault Refusal :=
  let c := s.chip
  match (c.auth.get h).softSince with
  | some t =>
    if c.inCharge h ∧ ¬ c.fit h ∧
        ((c.q (F.AUTH_CTL_UNFIT_MAX_MS h.idx) * 1000 * usUnits : Nat) : Int) ≤ elapsed (c.stamp h 0) t
    then s.go (c.leaveCharge h 1 1).syncAuth else s.go c
  | none => s.go c

/-! ### Ties, handovers and requests (R349, R350, R358) -/

/-- TIE_HOLD_OFF_EXPIRY (R350): 50 ms after a tie without an arbiter, Headstock may enable its outputs. -/
def execTieHoldOffExpiry (s : State) : Host.Outcome State Fault Refusal :=
  let c := s.chip
  let x := c.auth.get .H
  match x.tieHold with
  | some t =>
    if ((50000 * usUnits : Nat) : Int) ≤ elapsed (c.stamp .H 0) t then s.go (c.setAuthSt .H { x with tieHold := none }) else s.go c
  | none => s.go c

/-- The chip after `AUTH_REQ.HANDOVER` is written 1 on a half: refusal causes 0x10 not in charge, 0x11 no fit standby. -/
def Chip.requestHandover (c : Chip) (h : Half) : Chip :=
  let no (k : Nat) := c.ev h 0x0801 [h.idx, c.reg (Reg.AUTH_EPOCH h.idx), k]
  if ¬ c.inCharge h then no 0x10 else if ¬ c.fitStandby h.other then no 0x11
  else c.setAuthSt h { c.auth.get h with handoff := true }

/-- The chip after `AUTH_REQ.CLEAR_OBS` is written 1 on a half (R349). -/
def Chip.clearObserver (c : Chip) (h : Half) : Chip :=
  if c.authState h = 3 ∧ c.on (F.AUTH_STATUS_PATH_HL h.idx) ∧ c.on (F.AUTH_STATUS_PATH_SB h.idx) then
    ((c.put (F.AUTH_STATUS_STATE h.idx) 1).ev h 0x0805 [h.idx]).syncAuth
  else c

/-- The chip after a write of 1 sets a bit of `AUTH_REQ` and makes its request (R19, R364). -/
def Chip.askHandover (c : Chip) (h : Half) : Chip := (c.put (F.AUTH_REQ_HANDOVER h.idx) 1).requestHandover h
def Chip.askClearObs (c : Chip) (h : Half) : Chip := (c.put (F.AUTH_REQ_CLEAR_OBS h.idx) 1).clearObserver h

/-- The chip after an initiator writes a request of `AUTH_REQ` (R216, R364). -/
def Chip.authWrite (c : Chip) (i : Initiator) (h : Half) (f : Chip → Chip) : Chip :=
  let a := Reg.AUTH_REQ h.idx
  match c.portCause i true a with
  | 0 => if c.down.get h then c else f c
  | k => c.refusalEvent h none i.owner a k i.port

/-- HANDOVER (R358). -/
def execHandover (i : Initiator) (h : Half) (s : State) : Host.Outcome State Fault Refusal :=
  s.go (s.chip.authWrite i h fun c => c.askHandover h)

/-- CLEAR_OBS (R349). -/
def execClearObs (i : Initiator) (h : Half) (s : State) : Host.Outcome State Fault Refusal :=
  s.go (s.chip.authWrite i h fun c => c.askClearObs h)

/-- ARB_SEL_CHANGE (R352, R353): the levels P and N of a half's ARB_SEL pair have changed and been stable for 2 µs. -/
def execArbSelChange (h : Half) (view : Bool × Bool) (s : State) : Host.Outcome State Fault Refusal :=
  let c := s.chip
  let old := c.q (F.AUTH_STATUS_ARB_VIEW h.idx)
  let new := arbView view
  if c.down.get h then s.go c
  else
    let c := c.setAuthSt h { c.auth.get h with arbSel := view }
    if old = new then s.go c
    else
      let c := (c.put (F.AUTH_STATUS_ARB_VIEW h.idx) new).ev h 0x0812 [h.idx, old, new]
      s.go (if c.on (F.AUTH_STATUS_ARB_PRESENT h.idx) ∧ new ≠ h.idx + 1 then c.dropOut h else c).syncAuth

/-- A half meets the conditions of R353 for a rise of OUT_EN. -/
def Chip.mayRise (c : Chip) (h : Half) : Bool :=
  !c.down.get h && c.inCharge h && !c.outEn h && !c.vendorReturn h && (c.auth.get h).tieHold.isNone &&
    (!c.on (F.AUTH_STATUS_ARB_PRESENT h.idx) || c.q (F.AUTH_STATUS_ARB_VIEW h.idx) == h.idx + 1) &&
    (c.peerDown h || (c.senseOff h && c.peerOffFor h 2))

/-- The chip after the OUT_EN of a half rises: its PWM outputs begin new periods, the gap is recorded (R353, R357, R359). -/
def Chip.riseOut (c : Chip) (h : Half) : Chip :=
  let c := c.put (F.AUTH_STATUS_OUT_EN h.idx) 1
  let c := (List.range 16).foldl (fun c n => c.pwmStart h n) c
  match c.lastDriver, c.gapFrom with
  | some d, some t =>
    let gap := min (ageUs (c.stamp h 0) (t.get h)) 0xFFFF
    if d = h then c
    else
      let c := (c.inc (F.AUTH_HANDOVER_CNT_COUNT h.idx)).put (F.AUTH_LAST_GAP_GAP_US h.idx) gap
      let c := c.put (F.AUTH_MAX_GAP_GAP_US h.idx) (max gap (c.q (F.AUTH_MAX_GAP_GAP_US h.idx)))
      { c with gapFrom := none }.ev h 0x0802 [d.idx, h.idx, c.reg (Reg.AUTH_EPOCH h.idx), gap]
  | _, _ => c

/-- OUT_EN_RISE (R353): a half that meets every condition raises OUT_EN; where both do, only Headstock's rises.
Gated frames that were due go out (R406). -/
def execOutEnRise (h : Half) (s : State) : Host.Outcome State Fault Refusal :=
  let c := s.chip
  if c.mayRise h ∧ ¬ (h = .T ∧ c.mayRise .H) then s.go (c.riseOut h).gwOutEn.syncAuth else s.go c

/-- SAFE_STOP_ASSERT (R360): a half asserts its SAFE_STOP ball. -/
def execSafeStopAssert (h : Half) (s : State) : Host.Outcome State Fault Refusal :=
  let c := s.chip
  match c.safeStopCause h with
  | some k => if c.on (F.AUTH_STATUS_SAFE_STOP h.idx) then s.go c
    else s.go ((c.put (F.AUTH_STATUS_SAFE_STOP h.idx) 1).ev h 0x0820 [h.idx, k]).syncAuth
  | none => s.go c

/-! ### Control updates and commands, whose results the authority logic follows (R356, R361, R364) -/

/-- STEADY_UPDATE (R369, R370): a sample instant of the Steady engine of a half; `late` are the slots whose update overran,
`bad` the words of coefficient pages with an uncorrectable error. -/
def execSteadyUpdate (h : Half) (late : List (Fin 16)) (bad : List (Fin 16 × Fin 2048)) (s : State) (o : Seen := []) :
    Host.Outcome State Fault Refusal :=
  let c := s.chip
  if c.on (F.STEADY_CTL_ENABLE h.idx) ∧ c.timeReady h ∧ c.awake h then s.go (c.steadyInstant o h late bad).syncAuth else s.go c

/-- STEADY_COMMAND_APPLY (R378): the command that waits at an engine takes effect at its applying instant. -/
def execSteadyCommandApply (h : Half) (s : State) (o : Seen := []) : Host.Outcome State Fault Refusal :=
  let c := s.chip
  match c.steadyCmd.get h with
  | some k =>
    if 0 ≤ elapsed (c.stamp h (c.q (F.STEADY_CTL_TB h.idx))) k.instant then s.go (c.steadyApply o h k).syncAuth else s.go c
  | none => s.go c

end Sys2Proof.Machine
end

