-- ==== Sys2Proof/Machine/Cameras.lean ====
section
/-! DEFINITION. Camera ports (R136, R415, R416) and the display scan-out (R419–R422). -/

namespace Sys2Proof.Machine

/-! ### Camera ports -/

/-- A camera port. -/
def Chip.cam (c : Chip) (n : Nat) : CamSt := Tbl.look CamSt.zero c.cams n
/-- The chip with a camera port replaced. -/
def Chip.setCam (c : Chip) (n : Nat) (x : CamSt) : Chip := { c with cams := Tbl.put CamSt.zero c.cams n x }
/-- The half of a port. -/
def camHalf (n : Nat) : Half := if n < 8 then .H else .T

/-- The format of a port is one of R416, and phase mode goes with a RAW format and even sizes. -/
def Chip.camGood (c : Chip) (n : Nat) : Bool :=
  let f := c.q (F.INTAKE_FMT_PIXFMT n)
  decide (f ≤ 8) && (!c.on (F.INTAKE_FMT_PHASE n) || (decide (f ≤ 4) && c.q (F.INTAKE_SIZE_W n) % 2 == 0 && c.q (F.INTAKE_SIZE_H n) % 2 == 0))

/-- The port is in service. -/
def Chip.camOn (c : Chip) (n : Nat) : Bool := c.on (F.INTAKE_CTL_ENABLE n) && c.camGood n && !c.down.get (camHalf n)

/-- The CSI-2 data type of a port's format (R416). -/
def Chip.camType (c : Chip) (n : Nat) : Nat :=
  match c.q (F.INTAKE_FMT_PIXFMT n) with
  | 0 => 0x2A
  | 1 => 0x2B
  | 2 => 0x2C
  | 3 => 0x2D
  | 4 => 0x2E
  | 5 => 0x1E
  | 6 => 0x1F
  | 7 => 0x18
  | _ => 0x30 + c.q (F.INTAKE_FMT_UDT n)

/-- A stamp of a port's time base, off by at most 12 ns (R443). -/
def Chip.camStamp (c : Chip) (n : Nat) : Nat × Chip := c.captured (camHalf n) (c.q (F.INTAKE_FMT_TB n)) 768

/-- Bytes of an element of the port's format. -/
def Chip.camElem (c : Chip) (n : Nat) : Nat := codeWidth (cvtFmt (c.q (F.INTAKE_FMT_CVT n))) / 8

/-- The rows of a plane and their length: planes with their widths and heights, by source kind (R136). -/
def Chip.camPlanes (c : Chip) (n : Nat) : List (Nat × Nat) :=
  let w := c.q (F.INTAKE_SIZE_W n)
  let h := c.q (F.INTAKE_SIZE_H n)
  match c.q (F.INTAKE_FMT_PIXFMT n) with
  | 5 | 6 => [(w, h), (w / 2, h), (w / 2, h)]
  | 7 => [(w, h), (w / 2, h / 2), (w / 2, h / 2)]
  | _ => if c.on (F.INTAKE_FMT_PHASE n) then List.replicate 4 (w / 2, h / 2) else [(w, h)]

/-- The plane of a RAW sample in phase mode: 0 red, 1 green on red rows, 2 green on blue rows, 3 blue (R136, R416). -/
def phasePlane (cfa x y : Nat) : Nat :=
  let px := Nat.xor (x % 2) (cfa % 2)
  let py := Nat.xor (y % 2) (cfa / 2)
  2 * py + px

/-- Where sample `k` of line `y` of a frame goes: plane, row, column; none past the width (R136, R416). -/
def Chip.camPlace (c : Chip) (n y k : Nat) : Option (Nat × Nat × Nat) :=
  let w := c.q (F.INTAKE_SIZE_W n)
  let yuv (row : Nat) : Option (Nat × Nat × Nat) :=
    if 2 * w ≤ k then none
    else match k % 4 with
      | 0 => some (1, row, k / 4)
      | 1 => some (0, y, k / 4 * 2)
      | 2 => some (2, row, k / 4)
      | _ => some (0, y, k / 4 * 2 + 1)
  match c.q (F.INTAKE_FMT_PIXFMT n) with
  | 5 | 6 => yuv y
  | 7 => if y % 2 = 0 then (if k < w then some (0, y, k) else none) else yuv (y / 2)
  | _ =>
    if w ≤ k then none
    else if c.on (F.INTAKE_FMT_PHASE n) then some (phasePlane (c.q (F.INTAKE_FMT_CFA n)) k y, y / 2, k / 2)
    else some (0, y, k)

/-- The value of a received sample (R416). -/
def Chip.camSample (c : Chip) (n : Nat) (v : BitVec 16) : FV :=
  let f := c.q (F.INTAKE_FMT_PIXFMT n)
  FV.ofInt (if c.on (F.INTAKE_FMT_SIGNED n) ∧ (f = 4 ∨ f = 8) then v.toInt else v.toNat)

/-- A sample converted for a plane: its pattern, and whether it saturated (R137); SR only for classes C and D (R57): a port runs no command, and its
class is that of its owner's partition (DESIGN CHOICE, unsafe: log 146). A format that
R137 does not list writes free values (R4, R47). -/
def Chip.camConvert (c : Chip) (n plane k : Nat) (v : FV) : Nat × Bool :=
  let x := mul32 (sub32 v (fp32.decode (c.q (F.INTAKE_OFFSET_VALUE n plane)))) (fp32.decode (c.q (F.INTAKE_SCALE_VALUE n plane)))
  let cvt := c.q (F.INTAKE_FMT_CVT n)
  let part := c.q (F.INTAKE_OWNER_OWNER n) / 256 % 16
  if ¬ [0, 2, 3, 4, 5, 6].contains (cvtFmt cvt) then ((Config.freeValue (c.freeCnt + k)).toNat, false)
  else convert (cvtFmt cvt) (cvtSat cvt) (cvtRm cvt (part != 0 && decide (2 ≤ c.partClass part)) (Config.freeValue (c.freeCnt + k)).toNat) x

/-- Address of the buffer of a frame (R138, R418). -/
def Chip.camBuf (c : Chip) (n no : Nat) : Nat :=
  c.q (F.INTAKE_BUF_LO_BUF n) * 64 + c.q (F.INTAKE_BUF_HI_BUF n) % 65536 * 2 ^ 32 +
    no % (c.q (F.INTAKE_FMT_BUFS_M2 n) + 2) * (c.q (F.INTAKE_BUF_STRIDE_BUF_STRIDE n) * 64)

/-- Address of an element of a frame (R135, R138, R418). -/
def Chip.camElemAt (c : Chip) (n no plane y x : Nat) : Nat :=
  c.camBuf n no + 64 + plane * (c.q (F.INTAKE_PLANE_PLANE n) * 64) + y * c.q (F.INTAKE_ROW_ROW n) + x * c.camElem n

/-- The party whose writes the port's are. -/
def Chip.camOwner (c : Chip) (n : Nat) : Owner := BitVec.ofNat 13 (c.q (F.INTAKE_OWNER_OWNER n))

/-- The chip after the frame in progress is dropped (R138, R418). -/
def Chip.camDrop (c : Chip) (n : Nat) : Chip :=
  let x := c.cam n
  match x.cur with
  | some f => if f.dropped then c else (c.setCam n { x with cur := some { f with dropped := true } }).inc (F.INTAKE_DROPPED_COUNT n)
  | none => c

/-- CAMERA_PHY_LOCK_CHANGE (R430): a port's D-PHY loses or regains lock. -/
def execCameraPhyLockChange (n : Fin 16) (locked : Bool) (s : State) : Host.Outcome State Fault Refusal :=
  let c := s.chip
  let x := c.cam n.val
  if x.phyLost = !locked ∨ c.down.get (camHalf n.val) then s.go c
  else s.go ((c.setCam n.val { x with phyLost := !locked }).ev (camHalf n.val) 0x0B04 [n.val, if locked then 2 else 1])

/-- The chip after firmware or the image writes a port's configuration: a port that is not in service holds no frame, and
one disabled by its configuration says so (R416, R418). -/
def Chip.syncCam (c : Chip) (n : Nat) : Chip :=
  if c.camOn n then c
  else
    let c := (c.camDrop n).setCam n { (c.camDrop n).cam n with cur := none, no := 0 }
    if c.on (F.INTAKE_CTL_ENABLE n) ∧ ¬ c.camGood n then c.ev (camHalf n) 0x0B04 [n, 0] else c

/-! ### Display outputs -/

/-- A display output. -/
def Chip.scan (c : Chip) (d : Nat) : ScanSt := Tbl.look ScanSt.zero c.scans d
/-- The chip with a display output replaced. -/
def Chip.setScan (c : Chip) (d : Nat) (x : ScanSt) : Chip := { c with scans := Tbl.put ScanSt.zero c.scans d x }
/-- The half of an output. -/
def scanHalf (d : Nat) : Half := if d < 2 then .H else .T
/-- An output runs. -/
def Chip.scanOn (c : Chip) (d : Nat) : Bool := c.on (F.SCAN_CTL_ENABLE d) && !(c.scan d).stopped && !c.down.get (scanHalf d)

/-- Bytes that the safety rectangle takes. -/
def Chip.safeBytes (c : Chip) (d : Nat) : Nat := c.q (F.SCAN_SAFE_SIZE_SAFE_W d) * c.q (F.SCAN_SAFE_SIZE_SAFE_H d) * 4

/-- The status and bytes of a read of the safety slot, whose reads show `o`, and the chip after it (R265, R331, R332, R422). -/
def Chip.safeRead (c : Chip) (d : Nat) (o : Seen) : (Nat × List Byte) × Chip :=
  let h := scanHalf d
  match c.engineRead h (c.q (F.SCAN_SAFE_CFG_SAFE_SLOT d)) (c.safeBytes d) o with
  | (.empty, c) => ((Status.doneEmpty.code, []), c)
  | (.lost, c) => ((Status.fault.code, []), c)
  | (.bytes v _ bs, c) =>
    ((if c.on (F.SLOT_STATE_CUR_DOUBTFUL v) then Status.doneDoubtful.code else if c.slotOld h v then Status.doneLate.code else Status.done.code, bs), c)

/-- VBLANK_START (R421, R422): vertical blanking begins at an output: the present dowel is read, and the safety slot is
read into the buffer not on display; `o` is what that read shows. -/
def execVblankStart (d : Fin 4) (s : State) (o : Seen := []) : Host.Outcome State Fault Refusal :=
  let c := s.chip
  if ¬ c.scanOn d.val then s.go c
  else
    let c := c.inc (F.SCAN_FRAME_COUNT d.val)
    let p := c.dowel (c.q (F.SCAN_MAIN_DOWELS_PRESENT d.val))
    let (got, c) := if c.on (F.SCAN_SAFE_CFG_ENABLE d.val) then (let r := c.safeRead d.val o; (some r.1, r.2)) else (none, c)
    let x := c.scan d.val
    let c := c.setScan d.val { x with next := if x.shown < p then some p else none, blank := p == 0, missed := 0, read := got }
    s.go (if x.shown < p then c.signal 0 (c.q (F.SCAN_MAIN_DOWELS_RELEASE d.val)) 0 (p - 1) else c)

/-- SAFETY_BUFFER_SWAP (R422): the read of the safety slot has completed, and at the next active line the buffers swap or
the layer is held. -/
def execSafetyBufferSwap (d : Fin 4) (s : State) : Host.Outcome State Fault Refusal :=
  let c := s.chip
  let x := c.scan d.val
  match x.read with
  | none => s.go c
  | some (st, bs) =>
    if st = Status.done.code ∧ c.safeBytes d.val ≤ bs.length then
      s.go (c.setScan d.val { x with safe := some bs, read := none, fails := 0, heldRun := false, failing := false })
    else
      let n := min (x.fails + 1) 15
      let fail := decide (c.q (F.SCAN_SAFE_CFG_SAFE_HOLD d.val) ≤ n) || x.safe.isNone
      let c := (c.setScan d.val { x with read := none, fails := n, heldRun := true, failing := x.failing || fail }).inc (F.SCAN_SAFE_HELD_COUNT d.val)
      let c := if x.heldRun then c else c.ev (scanHalf d.val) 0x0B12 [d.val, st]
      s.go (if fail ∧ ¬ x.failing then c.ev (scanHalf d.val) 0x0B13 [d.val] else c)

/-- HOT_PLUG (R419): a hot-plug or link-training failure stops an output, or its link comes up again. -/
def execHotPlug (d : Fin 4) (up : Bool) (s : State) : Host.Outcome State Fault Refusal :=
  let c := s.chip
  let x := c.scan d.val
  if x.stopped = !up ∨ c.down.get (scanHalf d.val) then s.go c
  else s.go ((c.setScan d.val { x with stopped := !up }).ev (scanHalf d.val) 0x0B10 [d.val, b2n up, c.q (F.SCAN_LINK_RATE d.val)])

/-- A component of one width shown at another; equal widths keep it, and other conversions are not stated (R420). -/
def component (src dst v : Nat) : Nat := if src = dst then v else Config.component src dst v % 2 ^ dst

/-- A pixel of three components of given widths at the output's width. -/
def widen (dst wr wg wb r g b : Nat) : Nat × Nat × Nat := (component wr dst r, component wg dst g, component wb dst b)

/-- Bits per component of an output. -/
def Chip.scanBits (c : Chip) (d : Nat) : Nat := if c.on (F.SCAN_LINK_BPC d) then 10 else 8

/-- The background pixel (R421). -/
def Chip.background (c : Chip) (d : Nat) : Nat × Nat × Nat :=
  let v := c.q (F.SCAN_BG_RGB d)
  widen (c.scanBits d) 8 8 8 (bits v 16 8) (bits v 8 8) (bits v 0 8)

/-- Bytes of a main-layer pixel. -/
def Chip.mainBytes (c : Chip) (d : Nat) : Nat := if c.q (F.SCAN_MAIN_CFG_FMT d) = 1 then 2 else 4

/-- A pixel of the main layer from its number (R420). -/
def Chip.mainPixel (c : Chip) (d v : Nat) : Nat × Nat × Nat :=
  match c.q (F.SCAN_MAIN_CFG_FMT d) with
  | 0 => widen (c.scanBits d) 8 8 8 (bits v 16 8) (bits v 8 8) (bits v 0 8)
  | 1 => widen (c.scanBits d) 5 6 5 (bits v 11 5) (bits v 5 6) (bits v 0 5)
  | 2 => widen (c.scanBits d) 10 10 10 (bits v 20 10) (bits v 10 10) (bits v 0 10)
  | _ => c.background d

/-- Address of a line of the frame shown (R420, R421). -/
def Chip.mainLine (c : Chip) (d frame y : Nat) : Nat :=
  c.q (F.SCAN_MAIN_BUF_LO_BUF d) * 64 + c.q (F.SCAN_MAIN_BUF_HI_BUF d) % 65536 * 2 ^ 32 +
    frame % (c.q (F.SCAN_MAIN_CFG_BUFS_M2 d) + 2) * (c.q (F.SCAN_MAIN_STRIDE_STRIDE d) * 64) + y * (c.q (F.SCAN_MAIN_PITCH_PITCH d) * 64)

/-- round_rne(a × s + (1 − a) × m), a = A/255 (R420). -/
def blend (a s m : Nat) : Nat := (2 * (a * s + (255 - a) * m) + 255) / 510

/-- The safety pixel at a place of the rectangle: alpha and components (R420, R422). -/
def Chip.safePixel (c : Chip) (d k : Nat) : Nat × (Nat × Nat × Nat) :=
  let x := c.scan d
  let at' (v : Nat) := widen (c.scanBits d) 8 8 8 (bits v 16 8) (bits v 8 8) (bits v 0 8)
  match x.failing, x.safe with
  | false, some bs => let v := leNat ((bs.drop (4 * k)).take 4); (bits v 24 8, at' v)
  | _, _ => (255, at' (c.q (F.SCAN_SAFE_FAIL_ARGB d)))

/-- A composited pixel as a check-value unit takes it (R426). -/
def Chip.pixelBytes (c : Chip) (d : Nat) (p : Nat × Nat × Nat) : List Byte :=
  let n := if c.on (F.SCAN_LINK_BPC d) then 2 else 1
  toLE n p.1 ++ toLE n p.2.1 ++ toLE n p.2.2

/-- The chip after the part of a line that lies in the safety rectangle is fed to the units that watch the output: the
running value starts at the rectangle's first shown line and is latched after its last (R420, R426). -/
def Chip.feedScanout (c : Chip) (d y : Nat) (px : List (Nat × Nat × Nat)) : Chip :=
  let y0 := c.q (F.SCAN_SAFE_POS_SAFE_Y d)
  let last := min (y0 + c.q (F.SCAN_SAFE_SIZE_SAFE_H d)) (c.q (F.SCAN_V_ACTIVE d)) - 1
  (c.cvusOf (scanHalf d) 1 (d % 2)).foldl (fun c n =>
    let c := if y = y0 then c.cvuInit n else c
    let c := c.cvuFeed n (px.flatMap (c.pixelBytes d))
    if y = last then c.cvuLatch n else c) c

/-- ACTIVE_LINE (R420, R421): an output composites an active line; `late` if the main layer could not be read in time, and `o` what its
read shows. Event 0x0B11 stands at the first line of a frame that fails, and counts the lines so far (DEDUCED, unsafe: log 161). -/
def execActiveLine (d : Fin 4) (y : Fin 65536) (late : Bool) (s : State) (o : Seen := []) : Host.Outcome State Fault Refusal :=
  let c := s.chip
  if ¬ c.scanOn d.val ∨ c.q (F.SCAN_V_ACTIVE d.val) ≤ y.val then s.go c
  else
    let x := c.scan d.val
    let x := match x.next with | some p => { x with shown := p, next := none } | none => x
    let c := c.setScan d.val x
    let w := c.q (F.SCAN_H_ACTIVE d.val)
    let n := c.mainBytes d.val
    let blank := x.blank || x.shown == 0
    let own : Owner := BitVec.ofNat 13 (c.q (F.SCAN_MAIN_CFG_OWNER d.val))
    let a := c.mainLine d.val x.shown y.val
    let wanted := !blank && !late
    let why := if wanted then c.rangeCause own false a (w * n) else none
    let (e, c) := c.sight (if wanted ∧ why.isNone then [(a, w * n)] else []) o
    let got : Option (List Byte) := if wanted ∧ why.isNone ∧ e.lost.isNone then some (if e.wrong then c.freeBytes (w * n) else c.load a (w * n)) else none
    let c := { c with freeCnt := c.freeCnt + b2n e.wrong }
    let main : List (Nat × Nat × Nat) := match blank, got with
      | false, some bs => (List.range w).map fun k => c.mainPixel d.val (leNat ((bs.drop (n * k)).take n))
      | _, _ => List.replicate w (c.background d.val)
    let c := match why with
      | some e => c.refusalEvent (scanHalf d.val) none own e.1 e.2 0x32
      | none => if wanted then c.touched (scanHalf d.val) none own a (w * n) 0x32 else c
    let c := if blank ∨ got.isSome then c
      else
        let c := (c.setScan d.val { x with missed := x.missed + 1 }).inc (F.SCAN_UNDERRUN_COUNT d.val)
        if x.missed = 0 then c.evOf (scanHalf d.val) 0x0B11 (BitVec.ofNat 13 (c.q (F.SCAN_MAIN_CFG_OWNER d.val))) [d.val, x.shown, x.missed + 1] else c
    let sx := c.q (F.SCAN_SAFE_POS_SAFE_X d.val)
    let sy := c.q (F.SCAN_SAFE_POS_SAFE_Y d.val)
    let sw := c.q (F.SCAN_SAFE_SIZE_SAFE_W d.val)
    let inRect := c.on (F.SCAN_SAFE_CFG_ENABLE d.val) && decide (sy ≤ y.val ∧ y.val < sy + c.q (F.SCAN_SAFE_SIZE_SAFE_H d.val))
    let px (k : Nat) : Nat × Nat × Nat :=
      let m := main.getD k (0, 0, 0)
      if inRect ∧ sx ≤ k ∧ k < sx + sw then
        let p := c.safePixel d.val ((y.val - sy) * sw + (k - sx))
        (blend p.1 p.2.1 m.1, blend p.1 p.2.2.1 m.2.1, blend p.1 p.2.2.2 m.2.2)
      else m
    let line := (List.range w).map px
    let c := c.setScan d.val { c.scan d.val with out := line }
    s.go (if inRect then c.feedScanout d.val y.val ((line.drop sx).take sw) else c)

end Sys2Proof.Machine
end

