-- ==== Sys2Proof/Machine/Ledger.lean ====
section
/-! DEFINITION. The KV page ledger (R185–R194): its operations on frames, pins and their admission. -/

namespace Sys2Proof.Machine

/-! ### Frames -/

/-- The ledger of a device-wide frame number and the frame's index there, if the number names a frame: a disabled ledger has no pool
(R166, R171, R198). -/
def Chip.frameNo (c : Chip) (f : Nat) : Option (Half × Nat) :=
  let h := Half.ofIdx (f / 131072)
  if f < 262144 ∧ f % 131072 < c.q (F.KVL_POOL_CFG_FRAMES h.idx) ∧ c.on (F.KVL_CTL_ENABLE h.idx) ∧ ¬ c.down.get h then some (h, f % 131072) else none

/-- Why an entry that names no frame of a ledger in service ends the command that reads it: a frame of a lost half is lost with its
ledger (R172, R194). -/
def Chip.frameCause (c : Chip) (f : Nat) : Nat := if f < 262144 ∧ c.down.get (Half.ofIdx (f / 131072)) then causeLost else 5

/-- Device-wide number of a frame. -/
def frameId (h : Half) (n : Nat) : Nat := 131072 * h.idx + n

/-- Address of a frame (R171). -/
def Chip.frameAddr (c : Chip) (h : Half) (n : Nat) : Nat := (c.kvPool h).1 + n * (c.kvPool h).2.1

/-- Frames that one ledger holds for a partition, LIVE and DRAIN (R192). -/
def Chip.kvUsed (c : Chip) (h : Half) (p : Nat) : Nat :=
  ((c.kv.get h).filter fun e => (e.2.state == 1 || e.2.state == 2) && e.2.owner.part == p).length

/-- Frames of a ledger in a state. -/
def Chip.kvCount (c : Chip) (h : Half) (st : Nat) : Nat := ((c.kv.get h).filter fun e => e.2.state == st).length

/-- Frames on a ledger's free list: none before the start-up zeroing of its half has ended, and none of a disabled ledger (R191, R198). -/
def Chip.kvFreeCount (c : Chip) (h : Half) : Nat :=
  if (c.start.get h).zeroing ∨ ¬ c.on (F.KVL_CTL_ENABLE h.idx) then 0
  else c.q (F.KVL_POOL_CFG_FRAMES h.idx) - c.kvFresh.get h + (c.kvBack.get h).length

/-- The chip with the head of a ledger's free list taken, and that frame. At the start, before any frame has been returned, the list is
in the order of the frames' numbers, ahead of every returned frame. DESIGN CHOICE, unsafe: log 154. -/
def Chip.popFree (c : Chip) (h : Half) : Option (Nat × Chip) :=
  if c.kvFresh.get h < c.q (F.KVL_POOL_CFG_FRAMES h.idx) then
    some (c.kvFresh.get h, { c with kvFresh := c.kvFresh.set h (c.kvFresh.get h + 1) })
  else match c.kvBack.get h with
    | [] => none
    | n :: t => some (n, { c with kvBack := c.kvBack.set h t })

/-- The chip after an operation of a ledger is counted (`KVL_OPS`, `KVL_REFUSED`); the ledger of a half that is DOWN is lost. -/
def Chip.countOp (c : Chip) (h : Half) (refused : Bool) : Chip :=
  if c.down.get h then c else
  let c := c.countPair (Reg.KVL_OPS_LO h.idx) (Reg.KVL_OPS_HI h.idx) 1
  if refused then c.inc (F.KVL_REFUSED_COUNT h.idx) else c

/-- How an operation came out: the chip, a result code of R188, or a wait. -/
inductive LedgerRes where
  | done (c : Chip) (frame : Nat)
  | refused (code : Nat)
  | waits
deriving Repr

/-- ALLOC at a ledger for a requester (R173, R189, R192); it waits for the start-up zeroing of its half (R191). -/
def Chip.kvAlloc (c : Chip) (h : Half) (o : Owner) : LedgerRes :=
  if o.world then .refused 0x44
  else if ¬ c.on (F.KVL_CTL_ENABLE h.idx) ∨ c.down.get h then .refused 0x20
  else if c.q (F.KVL_QUOTA_FRAMES h.idx o.part) ≤ c.kvUsed h o.part then .refused 0x20
  else if (c.start.get h).zeroing then .waits
  else match c.popFree h with
    | some (n, c) => .done (c.setFrame h n ⟨1, 1, 0, o⟩) (frameId h n)
    | none => if 0 < c.kvCount h 3 then .waits else .refused 0x20

/-- The chip with a frame whose last reference and pin may have gone (R189). -/
def Chip.settle (c : Chip) (h : Half) (n : Nat) (f : Frame) : Chip :=
  c.setFrame h n { f with state := if 0 < f.ref then 1 else if 0 < f.pin then 2 else 3 }

/-- A frame that a requester may act on: LIVE and its own (R189). Where both rows of R189 fit, another owner's frame that is FREE or
ZEROING gives 0x41 and one that is DRAIN 0x40. DESIGN CHOICE, unsafe: log 153. -/
def Chip.kvLive (c : Chip) (o : Owner) (f : Nat) : Except Nat (Half × Nat × Frame) :=
  match c.frameNo f with
  | none => .error 0x42
  | some (h, n) =>
    let e := c.frame h n
    if e.state = 0 ∨ e.state = 3 then .error 0x41
    else if e.owner ≠ o then .error 0x40
    else if e.state ≠ 1 then .error 0x41 else .ok (h, n, e)

/-- ACQUIRE (R189). -/
def Chip.kvAcquire (c : Chip) (o : Owner) (f : Nat) : LedgerRes :=
  match c.kvLive o f with
  | .error k => .refused k
  | .ok (h, n, e) => if e.ref < 65535 then .done (c.setFrame h n { e with ref := e.ref + 1 }) f else .refused 0x43

/-- RELEASE (R189). -/
def Chip.kvRelease (c : Chip) (o : Owner) (f : Nat) : LedgerRes :=
  match c.kvLive o f with
  | .error k => .refused k
  | .ok (h, n, e) => .done (c.settle h n { e with ref := e.ref - 1 }) f

/-- The chip after a command's own ACQUIRE or RELEASE of a frame, counted where it is done (R181, R189, R190, R198). -/
def LedgerRes.counted (x : LedgerRes) (c : Chip) (f : Nat) : Chip :=
  match x with
  | .done c _ => c.countOp (Half.ofIdx (f / 131072)) false
  | _ => c
def Chip.kvTake (c : Chip) (o : Owner) (f : Nat) : Chip := (c.kvAcquire o f).counted c f
def Chip.kvGive (c : Chip) (o : Owner) (f : Nat) : Chip := (c.kvRelease o f).counted c f

/-- The chip after a command pins a frame of its party; the refusal's code otherwise (R186, R189). -/
def Chip.kvPin (c : Chip) (m : Cmd) (f : Nat) : Except Nat Chip :=
  if c.kvPins.contains (m.id, f) then .ok c
  else match c.kvLive m.owner f with
    | .error k => .error k
    | .ok (h, n, e) =>
      let c := (c.setFrame h n { e with pin := e.pin + 1 }).countOp h false
      let c := { c with kvPins := (m.id, f) :: c.kvPins }
      .ok (if c.q (F.KVL_PIN_MAX_PIN h.idx) < e.pin + 1 then c.put (F.KVL_PIN_MAX_PIN h.idx) (e.pin + 1) else c)

/-- The chip after a command drops one pin; zeroing begins on a DRAIN frame whose last pin it was (R189). -/
def Chip.kvUnpin (c : Chip) (id : CmdId) (f : Nat) : Chip :=
  if ¬ c.kvPins.contains (id, f) then c
  else
    let c := { c with kvPins := c.kvPins.erase (id, f) }
    match c.frameNo f with
    | none => c
    | some (h, n) => let e := c.frame h n; (c.settle h n { e with pin := e.pin - 1 }).countOp h false

/-- The chip after a command drops all its pins and its place among the pinning operations. -/
def Chip.kvUnpinAll (c : Chip) (id : CmdId) : Chip :=
  let c := (c.kvPins.filter fun p => p.1 == id).foldl (fun c p => c.kvUnpin id p.2) c
  { c with pinOps := ⟨c.pinOps.h.filter (· != id), c.pinOps.t.filter (· != id)⟩, pinWait := ⟨c.pinWait.h.filter (· != id), c.pinWait.t.filter (· != id)⟩ }

/-- A list of waiting operations with another in its place: after those that were issued before it (R186). -/
def Chip.queuePin (c : Chip) (l : List CmdId) (id : CmdId) : List CmdId :=
  let at' (i : CmdId) : Nat := match c.cmd? i with | some m => m.order | none => 0
  l.takeWhile (fun i => decide (at' i ≤ at' id)) ++ id :: l.dropWhile fun i => decide (at' i ≤ at' id)

/-- The chip after a pinning operation of a half asks for admission, with `n` places: admitted, or waiting in issue order
behind those that wait (R186). -/
def Chip.askPin (c : Chip) (h : Half) (id : CmdId) (n : Nat) : Bool × Chip :=
  if (c.pinOps.get h).contains id then (true, c)
  else if (c.pinWait.get h).isEmpty ∧ (c.pinOps.get h).length + n ≤ 127 then
    (true, { c with pinOps := c.pinOps.set h (List.replicate n id ++ c.pinOps.get h) })
  else if (c.pinWait.get h).contains id then (false, c)
  else (false, { c with pinWait := c.pinWait.set h (c.queuePin (c.pinWait.get h) id) })

/-- Places a pinning operation takes: an attention command with a prepare phase takes one more for its COWs (R186). -/
def Cmd.pinPlaces (m : Cmd) : Nat := if m.opcode = 0x40 ∧ m.attn.phase = 1 then 2 else 1

/-- PIN_ADMISSION (R186): the first pinning operation that waits on a half is admitted. -/
def execPinAdmission (h : Half) (s : State) : Host.Outcome State Fault Refusal :=
  let c := s.chip
  match c.pinWait.get h with
  | [] => s.go c
  | id :: rest =>
    let n := match c.cmd? id with | some m => m.pinPlaces | none => 0
    if (c.pinOps.get h).length + n ≤ 127 then
      s.go { c with pinWait := c.pinWait.set h rest, pinOps := c.pinOps.set h (List.replicate n id ++ c.pinOps.get h) }
    else s.go c

/-- Opcodes whose commands pin frames for themselves (R186). -/
def pinningOp (op : Nat) : Bool := op == 0x40 || op == 0x41 || op == 0x52

/-- The half whose count a pinning operation belongs to. -/
def Cmd.pinHalf (m : Cmd) : Half := m.half

/-- PIN (R186): a pinning operation in flight takes a pin on a frame; where it is refused the command ends with FAULT,
or with ABANDONED where the frame is lost with its half (R194). -/
def execPin (id : CmdId) (f : Fin 262144) (s : State) : Host.Outcome State Fault Refusal :=
  let c := s.chip
  match c.cmd? id with
  | some m =>
    if pinningOp m.opcode ∧ (c.pinOps.get m.pinHalf).contains id ∧ m.stage ≠ .withdrawn then
      match c.kvPin m f.val with
      | .ok c => s.go c
      | .error _ =>
        let c := c.refusalEvent m.half (some m) m.owner (match c.frameNo f.val with | some (h, n) => c.frameAddr h n | none => 0) 1 0x40
        s.go (((c.kvUnpinAll id).failAt m f.val (if (c.frameNo f.val).isNone then c.frameCause f.val else 1)).countOp (Half.ofIdx (f.val / 131072)) true)
    else s.go c
  | none => s.go c

/-- UNPIN (R189): a pinning operation that has completed its reads drops its pin on a frame. -/
def execUnpin (id : CmdId) (f : Fin 262144) (s : State) : Host.Outcome State Fault Refusal :=
  match s.chip.cmd? id with
  | some m => if m.stage = .done then s.go (s.chip.kvUnpin id f.val) else s.go s.chip
  | none => s.go (s.chip.kvUnpin id f.val)

/-- ZEROING_DONE (R191): the frame is zero and goes to the end of the free list. -/
def execZeroingDone (f : Fin 262144) (s : State) : Host.Outcome State Fault Refusal :=
  let c := s.chip
  match c.frameNo f.val with
  | none => s.go c
  | some (h, n) =>
    if (c.frame h n).state = 3 then
      let c := (c.zeroRange (c.frameAddr h n) (c.kvPool h).2.1).carriageDid h (c.kvPool h).2.1
      s.go { (c.setFrame h n ⟨0, 0, 0, 0⟩) with kvBack := c.kvBack.set h (c.kvBack.get h ++ [n]) }
    else s.go c

/-- The chip after a party's frames lose every reference (R193). -/
def Chip.kvReset (c : Chip) (o : Owner) : Chip :=
  [Half.H, Half.T].foldl (fun c h =>
    ((c.kv.get h).filter fun e => e.2.owner == o && (e.2.state == 1 || e.2.state == 2)).foldl
      (fun c e => c.settle h e.1 { e.2 with ref := 0 }) c) c

end Sys2Proof.Machine
end

