-- ==== Sys2Proof/Machine/Calliper.lean ====
section
/-! DEFINITION. The Calliper, golden blanks and the age monitor (R316–R335): comparing check values, diagnosing, the frame
clock, switching and restoring slots. -/

namespace Sys2Proof.Machine

/-! ### Comparison (R316–R321) -/

/-- Vectors of a command are compared (R316). -/
def Chip.compared (c : Chip) (h : Half) (m : Cmd) : Bool :=
  m.owner.part == 0 || decide (m.cls ≤ 1) || (m.cls == 2 && bit (m.word 0) 12 && c.on (F.CALLIPER_CTL_C_CHECK_EN h.idx))

/-- The verdict on a vector whose column sums are off by `err` (R317, R318). -/
def Check.verdict (k : Check) (err : FV) : Pass :=
  let y := k.y.add err
  if k.int then (if FV.eq y k.c then .passes else .fails)
  else if k.t.isNan || k.t.isInf || !FV.lt k.t (.fin false 1 127) then .unchecked
  else
    let up (v : FV) : FV := fp32.decode (fp32.roundIeee .rup v).pat
    let tol := up ((up (k.t.scale (-19))).add (.fin false 1 (-140)))
    let d := fp32.decode (fp32.roundIeee .rtz (y.add k.c.neg)).pat
    if !y.isNan && !y.isInf && !k.c.isNan && !k.c.isInf && FV.le d.abs tol then .passes else .fails

/-- The chip after a vector mismatches: it counts, marks its command, and the first one of a command is captured, unless a
diagnosis of the array is under way (R320, R322). -/
def Chip.mismatch (c : Chip) (a : Nat) (k : Check) (m : Cmd) : Chip :=
  let h := arrayHalf a
  let x := c.arr a
  let c := (c.inc (F.CALLIPER_MISMATCH_COUNT h.idx)).setCmd { m with doubt := true }
  let c := c.evCmd h 0x0700 m [a, m.owner.toNat, m.id.ring.val, m.id.seq.toNat, k.vec + m.rank * 2 ^ 32]
  let again := x.jobs.any fun j => j.id == m.id && j.mism
  let y := c.arr a
  c.setArr a { y with
    jobs := y.jobs.map fun j => if j.id = m.id then { j with mism := true } else j
    diag := if x.diag.isSome ∨ again then x.diag else some ⟨m.id, k.vec, k.inp, m.fmtA, m.fmtB, k.tile, false, none⟩ }

/-- The chip after a vector is unchecked (R318, R320). -/
def Chip.uncheckedVec (c : Chip) (a : Nat) (k : Check) (m : Cmd) : Chip :=
  let h := arrayHalf a
  let c := c.inc (F.CALLIPER_UNCHECKED_COUNT h.idx)
  let c := if c.on (F.CALLIPER_CTL_UNCHECKED_DOUBT h.idx) ∧ m.owner.part ≠ 0 ∧ m.cls ≤ 1 then c.setCmd { m with doubt := true } else c
  if c.on (F.CALLIPER_CTL_EVT_UNCHECKED_EN h.idx) then c.evCmd h 0x0701 m [a, m.owner.toNat, m.id.ring.val, m.id.seq.toNat, k.vec] else c

/-- The chip after the Calliper reaches the oldest check values of an array, which differ by `err` from what a fault-free
array delivers. -/
def Chip.compareNext (c : Chip) (a : Nat) (err : FV) : Chip :=
  let x := c.arr a
  match x.checks with
  | [] => c
  | k :: rest =>
    let c := c.setArr a { x with checks := rest }
    match c.cmd? k.id with
    | none => c
    | some m =>
      let h := arrayHalf a
      if ¬ c.compared h m then c
      else match k.verdict err with
        | .unchecked => c.uncheckedVec a k m
        | .passes => c.countPair (Reg.CALLIPER_CHECKED_LO h.idx) (Reg.CALLIPER_CHECKED_HI h.idx) 1
        | .fails => (c.countPair (Reg.CALLIPER_CHECKED_LO h.idx) (Reg.CALLIPER_CHECKED_HI h.idx) 1).mismatch a k m

/-- CALLIPER_COMPARISON (R318): the next vector of an array is compared; `err` is by how much a fault in the array has
moved its column sums, zero on a fault-free array (R319). -/
def execCalliperComparison (a : Fin 8) (err : FV) (s : State) : Host.Outcome State Fault Refusal := s.go (s.chip.compareNext a.val err)

/-! ### Diagnosis (R322, R323) -/

/-- The diagnosis array: the lowest-numbered other array in service of the same half, else of the other half (R322). -/
def Chip.diagArray (c : Chip) (a : Nat) : Option Nat :=
  let ok (b : Nat) := b != a && c.arrayInService b
  match (List.range 8).find? fun b => ok b && arrayHalf b == arrayHalf a with
  | some b => some b
  | none => (List.range 8).find? ok

/-- DIAGNOSIS (R322): a captured mismatch of an array is rerun there and on a diagnosis array. -/
def execDiagnosis (a : Fin 8) (s : State) : Host.Outcome State Fault Refusal :=
  let c := s.chip
  let x := c.arr a.val
  match x.diag with
  | some d =>
    if d.running then s.go c
    else s.go ((c.setArr a.val { x with diag := some { d with running := true, other := c.diagArray a.val } }).put
      (F.CALLIPER_STATUS_DIAG_BUSY (arrayHalf a.val).idx) 1)
  | none => s.go c

/-- A verdict of the Calliper (R322): line from 0, columns 512 and 513 being the check columns. -/
inductive Verdict where
  | transient
  | undecided
  | lastingRow (k : Nat)
  | lastingCol (j : Nat)
  | lastingUnplaced
deriving DecidableEq, Repr

/-- The verdict of a diagnosis (R322). -/
def verdict (hasOther : Bool) (o : DiagObs) : Verdict :=
  let byUnits : Verdict := match o.rows with
    | [k] => .lastingRow k.val
    | _ => .lastingUnplaced
  if ¬ hasOther then
    match o.rerun with
    | .passes => .transient
    | .fails => .lastingUnplaced
    | .unchecked => .undecided
  else
    match o.rerun, o.other with
    | .unchecked, _ | _, .unchecked | _, .fails => .undecided
    | .passes, .passes => .transient
    | .fails, .passes =>
      match o.cols with
      | [j] => .lastingCol j.val
      | [] =>
        if o.cDiffers && o.tDiffers then byUnits
        else if o.cDiffers then .lastingCol 512 else if o.tDiffers then .lastingCol 513 else .undecided
      | _ => byUnits

/-- The strict slots that are lost with an array, as a map of the entries of its table: those of the roughing reservation move with
it (R324). -/
def Chip.strictSlots (c : Chip) (a : Nat) : Nat :=
  ((c.slotTable a).filter fun e => !e.isOpen && !(c.roughArray a && c.roughPart == some e.part)).foldl (fun n e => n + 2 ^ e.idx) 0

/-- The chip after the Calliper retires an array: cause 0 lasting and not localised, 1 no spare, 2 a third transient frame,
3 a golden blank (R323, R324). An array already on its way out is not retired again. -/
def Chip.calliperRetire (c : Chip) (a cause : Nat) : Chip :=
  if c.on (F.ARRAY_STATUS_RETIRED a) ∨ (c.arr a).retiring.isSome then c
  else
    let c := (c.put (F.ARRAY_RETIRE_RETIRE a) 1).ev (arrayHalf a) 0x0705 [a, cause, c.strictSlots a]
    (c.setArr a { c.arr a with retiring := some 3 }).retireDue a

/-- The chip after a transient or undecided verdict is counted, at most once a frame; the third within 1,000 frames
retires the array (R323). -/
def Chip.countTransient (c : Chip) (a : Nat) : Chip :=
  let h := arrayHalf a
  let f := (c.frames.get h).getD 0
  let x := c.arr a
  if x.transients.contains f then c
  else
    let l := f :: x.transients.filter fun g => decide (f < g + 1000)
    let c := (c.setArr a { x with transients := l }).put (F.CALLIPER_ARR_STAT_TRANSIENT_WIN h.idx (a % 4)) (min l.length 2)
    if 3 ≤ l.length then c.calliperRetire a 2 else c

/-- The chip after a fault of an array is placed on a line: a remap between two commands, or retirement (R104, R323). -/
def Chip.placeFault (c : Chip) (a : Nat) (isRow : Bool) (n cause : Nat) : Chip :=
  if c.lineLeft a isRow then
    let x := c.arr a
    (c.setArr a { x with remaps := x.remaps ++ [⟨isRow, n, none⟩], transients := [] }).put (F.CALLIPER_ARR_STAT_TRANSIENT_WIN (arrayHalf a).idx (a % 4)) 0
  else c.calliperRetire a cause

/-- The chip after a verdict (R323). -/
def Chip.actOn (c : Chip) (a : Nat) (other : Option Nat) (v : Verdict) : Chip :=
  let h := arrayHalf a
  let last (n : Nat) (c : Chip) := c.put (F.CALLIPER_ARR_STAT_LAST_DIAG h.idx (a % 4)) n
  match v with
  | .transient =>
    let c := (last 1 c).countTransient a
    c.ev h 0x0702 [a, c.q (F.CALLIPER_ARR_STAT_TRANSIENT_WIN h.idx (a % 4))]
  | .undecided => ((last 1 c).countTransient a).ev h 0x0706 [a, other.getD 0xFF]
  | .lastingRow k => ((last 2 c).ev h 0x0703 [a, 0, k]).placeFault a true k 1
  | .lastingCol j => ((last 2 c).ev h 0x0703 [a, if j < 512 then 1 else 2, j]).placeFault a false j 1
  | .lastingUnplaced => ((last 3 c).ev h 0x0704 [a]).calliperRetire a 0

/-- DIAGNOSIS_VERDICT (R323): the diagnosis of an array ends with what its passes showed. -/
def execDiagnosisVerdict (a : Fin 8) (o : DiagObs) (s : State) : Host.Outcome State Fault Refusal :=
  let c := s.chip
  let x := c.arr a.val
  match x.diag with
  | some d =>
    if d.running then
      let c := (c.setArr a.val { x with diag := none }).actOn a.val d.other (verdict d.other.isSome o)
      let busy := (List.range 8).any fun b => arrayHalf b == arrayHalf a.val && match (c.arr b).diag with | some e => e.running | none => false
      s.go (c.put (F.CALLIPER_STATUS_DIAG_BUSY (arrayHalf a.val).idx) (b2n busy))
    else s.go c
  | none => s.go c

/-! ### The frame clock and golden blanks (R325–R328) -/

/-- Number of the frame whose time it is on a half (R326). -/
def Chip.frameNow (c : Chip) (h : Half) : Nat := c.stamp h 0 / usUnits / max (c.q (F.CALLIPER_FRAME_PERIOD_US h.idx)) 1

/-- The chip after a frame begins for one array: a blank not run is deferred, or becomes forced; a new one is owed. `DEFERRED` counts
to 8, the largest value that R335's table gives it. -/
def Chip.frameArray (c : Chip) (h : Half) (a f : Nat) : Chip :=
  let x := c.arr a
  if ¬ c.arrayInService a then c.setArr a { x with owed := false, forced := false }
  else
    let i := a % 4
    let d := c.q (F.CALLIPER_ARR_STAT_DEFERRED h.idx i)
    let dmax := max (c.q (F.CALLIPER_CTL_DEFER_MAX h.idx)) 1
    let d' := if x.owed then min (d + 1) 8 else d
    let c := c.put (F.CALLIPER_ARR_STAT_DEFERRED h.idx i) d'
    let c := if x.owed ∧ d = 0 then c.ev h 0x0708 [a, d'] else c
    let l := x.transients.filter fun g => decide (f < g + 1000)
    (c.setArr a { x with owed := true, forced := decide (dmax ≤ d'), transients := l }).put
      (F.CALLIPER_ARR_STAT_TRANSIENT_WIN h.idx i) (min l.length 2)

/-- FRAME_START (R326): a frame of a half's frame clock begins, once its time has come. -/
def execFrameStart (h : Half) (s : State) : Host.Outcome State Fault Refusal :=
  let c := s.chip
  let f := c.frameNow h
  if ¬ c.timeReady h then s.go c
  else if (match c.frames.get h with | some g => decide (f ≤ g) | none => false) then s.go c
  else
    let c := ({ c with frames := c.frames.set h (some f) }).setReg (Reg.CALLIPER_FRAME_NO h.idx) (f % 2 ^ 32)
    s.go (((List.range 8).filter fun a => arrayHalf a == h).foldl (fun c a => c.frameArray h a f) c)

/-- An array has no ready command: none in progress, and none that it could take now (R326). -/
def Chip.noReady (c : Chip) (a : Nat) : Bool :=
  (c.arr a).jobs.isEmpty && !(c.cmds.any fun m => (c.takeable m.id arrayOp).isSome && c.arrayOpen a m)

/-- An array is idle: no ready command, no save, restore or remap in progress (R326). -/
def Chip.arrayIdle (c : Chip) (a : Nat) : Bool :=
  c.noReady a && !c.on (F.ARRAY_STATUS_SAVE_RESTORE a) && (c.arr a).remaps.isEmpty

/-- The chip after the active and shadow tiles are rebuilt from the tile mirror, whose reads show `e` (R80, R103, R104, R106): an
error that cannot be corrected ends the command whose vector enters next, be the lost word of the active tile or of the shadow tile,
for R80 and R106 do not say which command a lost word of the mirror ends. DESIGN CHOICE, unsafe: log 147. -/
def Chip.rebuildTiles (c : Chip) (a : Nat) (e : StoreObs 0x40000) : Chip :=
  match e with
  | .clean => c
  | .corrected off row => c.arrayCorrected a (0xC00000 + off.val) row.toNat
  | .uncorrectable off _ => match c.nextVector a with
    | some (j, m) => c.arrayUncorrectable a (0xC00000 + off.val) j m
    | none => c.arrayLost a (0xC00000 + off.val) none

/-- The chip after a golden blank of the present frame passes on an array. -/
def Chip.blankPassed (c : Chip) (a : Nat) : Chip :=
  c.setReg (Reg.CALLIPER_ARR_BLANK (arrayHalf a).idx (a % 4)) ((c.frames.get (arrayHalf a)).getD 0 % 2 ^ 32)

/-- The chip after a golden blank of the present frame fails on an array, at a line or at none. -/
def Chip.blankFailed (c : Chip) (a line : Nat) : Chip :=
  let h := arrayHalf a
  (c.inc (F.CALLIPER_BLANK_FAIL_COUNT h.idx)).ev h 0x070A [a, (c.frames.get h).getD 0 % 2, line]

/-- The chip after a line of an array is moved, the tiles are rebuilt, and, for a line that a golden blank found, the repeat blank
has run, a blank like any other (R104, R328). -/
def Chip.remapDone (c : Chip) (a : Nat) (r : Remap) (e : StoreObs 0x40000) : Chip :=
  let c := (c.remapLine a r.isRow r.line).rebuildTiles a e
  let ran (c : Chip) := c.inc (F.CALLIPER_BLANK_RUN_COUNT (arrayHalf a).idx)
  match r.again with
  | some (true, _) => (ran c).blankPassed a
  | some (false, line) => ((ran c).blankFailed a line).calliperRetire a 3
  | none => c

/-- REMAP (R104): between two commands, a faulty line that a diagnosis or a blank found is moved to a spare. -/
def execRemap (a : Fin 8) (s : State) (e : StoreObs 0x40000 := .clean) : Host.Outcome State Fault Refusal :=
  let x := s.chip.arr a.val
  match x.remaps with
  | [] => s.go s.chip
  | r :: rest =>
    if s.chip.remapping a.val then s.go ((s.chip.setArr a.val { x with remaps := rest }).remapDone a.val r e) else s.go s.chip

/-- The chip after a golden blank has run on an array (R325–R328). A line that it finds in the midst of a command is moved once
that command has ended (R104). -/
def Chip.blank (c : Chip) (a : Nat) (o : Blank) : Chip :=
  let h := arrayHalf a
  let x := c.arr a
  let idle := c.noReady a
  let c := (c.setArr a { x with owed := false, forced := false }).put (F.CALLIPER_ARR_STAT_DEFERRED h.idx (a % 4)) 0
  let c := c.inc (F.CALLIPER_BLANK_RUN_COUNT h.idx)
  let c :=
    if x.forced then
      let (d, c) := if idle then (0, c) else c.draw
      (c.inc (F.CALLIPER_BLANK_FORCED_COUNT h.idx)).ev h 0x0709 [a, d]
    else c
  match o with
  | .equal => c.blankPassed a
  | .line isRow n again line =>
    let c := c.blankFailed a (n + 2 ^ 16 * b2n isRow)
    if ¬ c.lineLeft a isRow then c.calliperRetire a 3
    else if x.jobs.isEmpty then c.remapDone a ⟨isRow, n, some (again, line)⟩ .clean
    else c.setArr a { c.arr a with remaps := (c.arr a).remaps ++ [⟨isRow, n, some (again, line)⟩] }
  | .scattered => (c.blankFailed a 0xFFFFFFFF).calliperRetire a 3

/-- GOLDEN_BLANK (R325): the blank that an array owes runs, the array being idle or the blank forced. -/
def execGoldenBlank (a : Fin 8) (o : Blank) (s : State) (e : StoreObs 0x40000 := .clean) : Host.Outcome State Fault Refusal :=
  let x := s.chip.arr a.val
  if x.owed ∧ s.chip.arrayInService a.val ∧ (x.forced ∨ s.chip.arrayIdle a.val) then s.go ((s.chip.blank a.val o).rebuildTiles a.val e)
  else s.go s.chip

/-! ### The age monitor (R329–R335) -/

/-- Why a slot's consumer side is to be switched: 0 age, 1 doubtful, 2 unpublished (R330). -/
def Chip.switchCause (c : Chip) (h : Half) (s : Nat) : Option Nat :=
  if c.slotEmpty s then some 2 else if c.on (F.SLOT_STATE_CUR_DOUBTFUL s) then some 1 else if c.slotOld h s then some 0 else none

/-- The chip after a half's age monitor evaluates a slot (R329–R335, R338). -/
def Chip.ageEval (c : Chip) (h : Half) (s : Nat) : Chip :=
  if ¬ c.on (F.SLOT_CFG_VALID s) then c
  else
    let c :=
      if ¬ c.on (F.SLOT_STATE_SWITCHED s) then
        match c.switchCause h s with
        | some k =>
          let c := (c.put (F.SLOT_STATE_SWITCHED s) 1).put (F.SLOT_STATE_GOOD s) 0
          let v := c.serve h s
          (c.put (F.SLOT_STATE_SERVING_ALT2 s) (b2n v.alt2)).ev h 0x0710 [s, k, v.slot]
        | none => c
      else if c.q (F.SLOT_CFG_RESTORE_N s) ≤ c.q (F.SLOT_STATE_GOOD s) ∧ ¬ c.slotEmpty s ∧ ¬ c.slotOld h s then
        ((c.put (F.SLOT_STATE_SWITCHED s) 0).put (F.SLOT_STATE_GOOD s) 0).put (F.SLOT_STATE_SERVING_ALT2 s) 0
          |>.ev h 0x0711 [s, c.reg (Reg.SLOT_GEN s)]
      else c.put (F.SLOT_STATE_SERVING_ALT2 s) (b2n (c.serve h s).alt2)
    let x := c.slot s
    let w := c.q (F.SLOT_WARN_WARN_US s)
    let c :=
      if 0 < w ∧ w < c.q (F.SLOT_AGE_LIMIT_US s) ∧ ¬ c.slotEmpty s ∧ ¬ x.warned ∧ ((w * usUnits : Nat) : Int) ≤ elapsed (c.stamp h 0) x.origin then
        let c := c.setSlot s { x with warned := true }
        if c.on F.SCHED_CTL_BOOST_EN then ({ c with boosts := s :: c.boosts }).ev h 0x0511 [s, bits (c.q (F.SLOT_OWNER_PRODUCER s)) 8 4] else c
      else c
    c.syncDegraded

/-- AGE_EVALUATION (R329): a half's age monitor evaluates a slot. -/
def execAgeEvaluation (h : Half) (n : Fin 512) (s : State) : Host.Outcome State Fault Refusal :=
  if s.chip.timeReady h then s.go (s.chip.ageEval h n.val) else s.go s.chip

end Sys2Proof.Machine
end

