-- ==== Sys2Proof/Machine/Sched.lean ====
section
/-! DEFINITION. The scheduler's events (R272–R287): boundary marks, quanta, slot tables, pre-emption, saves and restores,
eviction. -/

namespace Sys2Proof.Machine

/-! ### Boundary marks (R281) -/

/-- The chip with the stores of a ring's context dead: they hold their contents or zero throughout, as a draw has it. An engine on
which a command that follows the mark has already started does not stand at the mark (R282). -/
def Chip.markDead (c : Chip) (r : Nat) (arr bench : Bool) : Chip :=
  let (d, c) := c.draw
  let zero := d % 2 == 1
  let c := if ¬ arr then c else match c.arrayOfRing r with
    | none => c
    | some a =>
      let c := if zero then c.zeroRange (arrayStore a) 0xC00000 else c
      let x := c.arr a
      c.setArr a { x with
        marked := x.marked || x.jobs.isEmpty
        active := if zero then Tile.zero else x.active
        shadow := if zero then x.shadow.map fun t => (t.1, Tile.zero) else x.shadow }
  if ¬ bench then c
  else (List.range 32).foldl (fun c b =>
    if (c.bench b).resident = some r then
      let c := if zero then (c.zeroRange (benchStore b) 0x200000).zeroRange (dataStore b 0) (60 * 0x10000) else c
      let x := c.bench b
      c.setBench b { x with marked := x.marked || x.task.isNone }
    else c) c

/-- The arrays and benches. -/
def storeEngines : List Engine := (List.finRange 8).map Engine.array ++ (List.finRange 32).map Engine.bench

/-- The chip after a ring's context is saved from the engines on which it was to be switched at the boundary mark that it now
stands at (R273, R282). -/
def Chip.switchAtMark (c : Chip) (r : Nat) : Chip :=
  storeEngines.foldl (fun (c : Chip) e =>
    if (c.switchOf e).saving.isNone ∧ c.residentOn e = some r ∧ c.atSwitch e then c.beginSave e false else c) c

/-- BOUNDARY_MARK (R281): once every earlier command of its ring has completed, the mark declares stores dead and completes. -/
def execBoundaryMark (id : CmdId) (s : State) : Host.Outcome State Fault Refusal :=
  match s.chip.takeable id (· == 0x03) with
  | some m =>
    if (s.chip.earlier id).isEmpty then
      s.go (((s.chip.markDead id.ring.val (bit (m.word 1) 0) (bit (m.word 1) 1)).complete m 0).switchAtMark id.ring.val)
    else s.go s.chip
  | none => s.go s.chip

/-! ### Quanta, marks and slots (R273–R276, R282, R307, R308) -/

/-- The chip after an engine's share changes take effect; a record whose share rose from 0 returns to ACTIVE (R307, R308). -/
def Chip.applyShares (c : Chip) (e : Engine) : Chip :=
  let mine := c.sharePend.filter fun p => p.1 / 256 == c.engineNo e
  let c := { c with sharePend := c.sharePend.filter fun p => p.1 / 256 != c.engineNo e }
  mine.foldl (fun c p =>
    let i := p.1 % 256
    if c.q (F.VI_INST_STATE_STATE i) = 2 ∧ 0 < c.q (F.VI_INST_STATE_SHARE i) then c.put (F.VI_INST_STATE_STATE i) 1 else c) c

/-- The context on an engine is of an instance suspended there (R308). -/
def Chip.suspendedOn (c : Chip) (e : Engine) : Bool :=
  match c.residentOn e with
  | none => false
  | some r => match c.ringSt? r with
    | some x => c.shareOn (c.engineNo e) x.owner == 0
    | none => false

/-- The chip after a quantum ends on an engine (R271, R273, R308). -/
def Chip.quantumEnd (c : Chip) (e : Engine) : Chip :=
  let c := (c.applyShares e).noteTurn e
  match c.residentOn e with
  | none => c
  | some r =>
    let w := c.switchOf e
    if w.saving.isSome then c
    else if c.suspendedOn e then c.decideSwitch e r false
    else if c.isRough e r then c
    else if c.rival e then
      if c.commandLevel e then c.beginSave e false
      else if 4 ≤ w.quanta then c.beginSave e true
      else c.setSwitch e { w with quanta := w.quanta + 1 }
    else c.setSwitch e { w with quanta := 0 }

/-- QUANTUM_END (R273): a quantum ends on an engine. -/
def execQuantumEnd (e : Engine) (s : State) : Host.Outcome State Fault Refusal := s.go (s.chip.quantumEnd e)

/-- MARK_WAIT_EXPIRY (R282, R437): no mark was reached within `MARK_WAIT` microseconds of the local monotonic base; a full-level save
begins. -/
def execMarkWaitExpiry (e : Engine) (s : State) : Host.Outcome State Fault Refusal :=
  let c := s.chip
  let now := c.stamp (engineHalf (c.engineNo e)) 0
  if (c.switchOf e).want ∧ ((c.q F.SCHED_CTL_MARK_WAIT * usUnits : Nat) : Int) ≤ elapsed now (c.switchOf e).since then
    s.go (c.beginSave e (!c.commandLevel e))
  else s.go c

/-- STRICT_SLOT_GUARD (R275): within the guard before a strict slot, the scheduler starts switching an array to its holder; for the
roughing reservation it waits for no mark (R282). A half's base is used once it may be (R441). -/
def execStrictSlotGuard (a : Fin 8) (s : State) : Host.Outcome State Fault Refusal :=
  let c := s.chip
  if ¬ c.timeReady (arrayHalf a.val) then s.go c else
  match c.nextEntry a.val, (c.arr a.val).resident with
  | some (e, left), some r =>
    let held : Bool := match c.ringOwner r with | some o => e.heldBy c a.val o | none => false
    if ¬ e.isOpen ∧ left ≤ c.guardTenths ∧ held = false ∧ ¬ c.isRough (.array a) r then
      s.go (c.decideSwitch (.array a) r (c.roughArray a.val && c.roughPart == some e.part))
    else s.go c
  | _, _ => s.go c

/-- The chip after a strict slot ends in which the holder, ready since its start, never came to start: it is counted and reported as late
by its own length, for no rule gives the lateness of a start that did not come (R275, R294; assumption 166). -/
def Chip.slotMissed (c : Chip) (a : Nat) : Chip :=
  match c.strictSlot a with
  | some e =>
    if (c.arr a).awaited ∧ c.holderReady a e then
      (c.inc F.SCHED_SLOT_LATE_COUNT).ev (arrayHalf a) 0x0500 [a, e.part + 16 * b2n e.world, e.len]
    else c
  | none => c

/-- SLOT_TABLE_ENTRY_START (R274): the entry whose time it is begins on an array. A strict slot that itself begins more than 2 µs
late is counted and reported at once; of another one whose holder is ready and does not run yet, the start is awaited (R275). -/
def execSlotTableEntryStart (a : Fin 8) (s : State) : Host.Outcome State Fault Refusal :=
  let c := s.chip
  if ¬ c.timeReady (arrayHalf a.val) then s.go c else
  let now := c.slotNow a.val
  let c := match (c.arr a.val).entry with
    | some k => if now.map SlotEntry.idx = some k then c else c.slotMissed a.val
    | none => c
  match now with
  | none => s.go (c.setArr a.val { c.arr a.val with entry := none, awaited := false })
  | some e =>
    let late := s.chip.slotTime a.val - e.start * usUnits
    let c := c.setArr a.val { c.arr a.val with entry := some e.idx, awaited := false }
    let runs := !(c.arr a.val).jobs.isEmpty && match (c.arr a.val).resident.bind c.ringOwner with
      | some o => e.heldBy c a.val o
      | none => false
    if e.isOpen then s.go c
    else if 2 * usUnits < late then
      s.go ((c.inc F.SCHED_SLOT_LATE_COUNT).ev (arrayHalf a.val) 0x0500 [a.val, e.part + 16 * b2n e.world, late / usUnits])
    else s.go (c.setArr a.val { c.arr a.val with awaited := c.holderReady a.val e && !runs })

/-! ### Pre-emption (R272, R276, R280, R282) -/

/-- PREEMPTION (R282): the context on an engine is pre-empted for the work of a ring. The holder of a strict slot in its time, and
the roughing reservation, wait for no mark (R276, R282). -/
def execPreemption (e : Engine) (byRing : Fin 65536) (s : State) : Host.Outcome State Fault Refusal :=
  let c := s.chip
  match c.residentOn e with
  | some r =>
    if c.mayPreempt e byRing.val then s.go (c.decideSwitch e r (c.inOwnSlot e byRing.val || c.isRough e byRing.val)) else s.go c
  | none => s.go c

/-! ### Saves and restores (R284, R286) -/

/-- The copies of a bench's cores in flight. -/
def Chip.copiesOut (c : Chip) (b : Nat) : List GCopy :=
  (c.cores.filter fun e => e.1 / 64 == b).flatMap fun e => (e.2.copies.filter fun k => !k.2.ended).map (·.2)

/-- The chip after a unit loses its power: its contents are gone, its stores read as zero (R102, R519). -/
def Chip.losePower (c : Chip) (b : Nat) : Chip :=
  if b < 8 then (c.zeroRange (arrayStore b) 0x1000000).setArr b (c.arr b).emptied
  else if b < 40 then
    let n := b - 8
    let x := c.bench n
    let c := ((c.zeroRange (benchStore n) 0x200000).zeroRange (dataStore n 0) 0x400000).setBench n { BenchSt.zero with retired := x.retired, spareNext := x.spareNext }
    { c with cores := c.cores.filter fun e => e.1 / 64 != n }
  else if 56 ≤ b ∧ b < 88 then { c with cvuRun := Tbl.del c.cvuRun (b - 56) }
  else if 110 ≤ b then { c with apps := Tbl.del c.apps (b - 110) }
  else c

/-- The chip after a unit enters a gated state (R519): 1 CLOCK_GATED, 2 POWER_GATED. -/
def Chip.gateUnit (c : Chip) (b st : Nat) : Chip := (if st = 2 then c.losePower b else c).setUnitState b st

/-- The chip after the save for which the gating of a unit waited has ended (R519). -/
def Chip.finishGating (c : Chip) (b : Nat) : Chip :=
  let h := claimHalf b
  let p := c.power.get h
  match p.gating with
  | some (u, st) =>
    if u = b then
      let c := { c with power := c.power.set h { p with gating := none } }
      ((c.put (F.POWER_BLK_RESULT_BUSY h.idx) 0).put (F.POWER_BLK_RESULT_RESULT h.idx) 0).gateUnit b st
    else c
  | none => c

/-- The chip after a context of an owner ID is written to its partition's save area on a half. Where in the area a context
lies is not given, so every byte of the area is free (R279; assumption 19). -/
def Chip.savedTo (c : Chip) (h : Half) (owner : Nat) : Chip :=
  let p := owner / 256 % 16
  match Tbl.find? (c.saveArea.get h) p with
  | none => c
  | some g =>
    let n := 197 * c.q (F.SCHED_PART_SAVE_SAVE_ARR p) + 94 * c.q (F.SCHED_PART_SAVE_SAVE_BENCH p)
    { c with
      mem := c.mem.filter fun e => ¬ (0x100000 + g ≤ e.1 / 65536 ∧ e.1 / 65536 < 0x100000 + g + n)
      garbled := (List.range n).foldl (fun t k => Tbl.ins t (0x100000 + g + k) c.freeCnt) c.garbled
      freeCnt := c.freeCnt + 1 }

/-- The chip after a save ends. Copies in flight have completed, but for reads from a peer device that the context carries
as pending; event 0x0502 tells of those (R286). -/
def Chip.endSave (c : Chip) (e : Engine) (full : Bool) : Chip :=
  match e with
  | .array a => ((c.saveArray a.val full).finishGating a.val).savedTo (arrayHalf a.val) (c.q (F.ARRAY_STATUS_OWNER a.val))
  | .bench b =>
    let o := c.q (F.BENCH_STATUS_OWNER b.val)
    let d := ((c.saveBench b.val full).finishGating (8 + b.val)).savedTo (benchHalf b.val) o
    match (c.copiesOut b.val).head? with
    | some k => d.evOf (benchHalf b.val) 0x0502 (BitVec.ofNat 13 o) [engineBench b.val, o, fabricOf (slBase k.src)]
    | none => d
  | .attention _ => c

/-- The chip after the replayed reads of a restored bench whose device is lost by then end their task with REMOTE_LOST (R286). -/
def Chip.replayLost (c : Chip) (b : Nat) : Chip :=
  (c.cores.filter fun e => e.1 / 64 == b).foldl (fun (c : Chip) e => e.2.copies.foldl (fun (c : Chip) y =>
    if y.2.replay ∧ ¬ y.2.ended ∧ c.windowGone (benchHalf b) (y.2.window.getD 0) then c.copyGone b (e.1 % 64) y.1 .remoteLost else c) c) c

/-- The chip after a context has moved through a Carriage of a half, which counts it with a number of bytes that is not
stated (R220, R231; assumption 2). -/
def Chip.contextMoved (c : Chip) (h : Half) : Chip :=
  let (n, c) := c.draw
  c.carriageDid h n

/-- The half of the engine of a context. -/
def Chip.contextHalf (c : Chip) (e : Engine) : Half :=
  match e with
  | .array a => arrayHalf a.val
  | .bench b => benchHalf b.val
  | .attention id => ((c.cmd? id).map (·.half)).getD .H

/-- The chip after a bench that was to retire once its task left it has none (R134). -/
def Chip.benchDue (c : Chip) (b : Nat) : Chip :=
  let x := c.bench b
  if x.retiring ∧ x.task.isNone then (c.setBench b { x with retiring := false }).retireBench b 0 else c

/-- The chip after an attention command's context is discarded: its pins and its place among the pinning operations go with it, and
it completes with ABANDONED (R195, R284). -/
def Chip.discardAttn (c : Chip) (m : Cmd) (cause : Nat) : Chip :=
  ((c.kvUnpinAll m.id).complete (m.endWith .abandoned m.attnDetail) m.attnDetail).evCmd m.half 0x0503 m [engineAttn m.half, m.owner.toNat, cause]

/-- What a save shows of an engine's stores is one of its own offsets, which it reads: an array's store and tile mirror, or a bench's
store and then the window of each core. -/
def savedLogical (off : Nat) : Nat × Nat :=
  if off < 0x200000 then (0, off) else ((off - 0x200000) / 0x10000 % 64, 0x200000 + (off - 0x200000) % 0x10000)

/-- The chip after the reads of a save or restore show `o` of an engine's stores: a corrected error is counted, an uncorrectable one
counted, reported and its word zeroed, and its cause, which no rule gives a code, is a draw (R80, R106, R107, R129, R132, R284). -/
def Chip.contextSeen (c : Chip) (e : Engine) {n : Nat} (o : StoreObs n) (base : Nat) : Option Nat × Chip :=
  match e, o with
  | .array a, .corrected off row => (none, c.arrayCorrected a.val (base + off.val) row.toNat)
  | .array a, .uncorrectable off _ => let (k, c) := (c.arrayLost a.val (base + off.val) none).draw; (some k, c)
  | .bench b, .corrected off row => let u := savedLogical off.val; (none, c.benchCorrected b.val u.1 u.2 row.toNat)
  | .bench b, .uncorrectable off row =>
    let u := savedLogical off.val
    let d := c.benchLostAt b.val u.1 u.2
    let (k, c) := (((c.inc (F.BENCH_ECC_UNCORR b.val)).ev (benchHalf b.val) 0x0211 d).benchMend b.val u.1 u.2 row.toNat).draw
    (some k, c)
  | _, _ => (none, c)

/-- CONTEXT_SAVE_COMPLETE (R284): the save of an engine's context ends; `err` is the cause if it met an uncorrectable error
or a refused access in memory, and `seen` what its reads of the stores and of the tile mirror show; an error that is not corrected
discards the context. An array's save ends after the verdicts on its vectors (R320), a bench's after its copies but reads from peer
devices (R286). -/
def execContextSaveComplete (e : Engine) (err : Option Word) (s : State) (seen : StoreObs 0xC40000 := .clean) :
    Host.Outcome State Fault Refusal :=
  let ready : Bool := (s.chip.switchOf e).saving.isSome && match e with
    | .array a => (s.chip.arr a.val).checks.isEmpty
    | .bench b => (s.chip.copiesOut b.val).all remoteCopy
    | .attention _ => false
  let (lost, c) := if ready then s.chip.contextSeen e seen 0 else (none, s.chip)
  let err : Option Nat := if err.isSome then err.map BitVec.toNat else lost
  match (s.chip.switchOf e).saving with
  | none =>
    match e with
    | .attention id => match c.cmd? id with
      | some m => if m.stage = .preempted ∧ m.unit = 0 then
          (match err with
          | none => s.go (((c.setCmd { m with unit := 1 }).countPair Reg.SCHED_SAVE_FULL_LO Reg.SCHED_SAVE_FULL_HI 1).contextMoved m.half)
          | some k => s.go (c.discardAttn m k))
        else s.go c
      | none => s.go c
    | _ => s.go c
  | some full =>
    match e, err with
    | .array a, some k => s.go (((c.discardArray a.val k).finishGating a.val).retireDue a.val)
    | .bench b, some k => s.go (((c.discardBench b.val k).finishGating (8 + b.val)).benchDue b.val)
    | .array a, none =>
      if ready then
        s.go (((c.endSave e full).contextMoved (c.contextHalf e)).retireDue a.val)
      else s.go c
    | .bench b, none =>
      if ready then
        s.go (((c.endSave e full).contextMoved (c.contextHalf e)).benchDue b.val)
      else s.go c
    | .attention _, _ => s.go c

/-- A bench can take the saved context of a ring now: empty, in service, not moving a context, not halted, granted, the party's share
there not 0, and no more urgent task ready for it (R128, R271, R272, R308, R473). -/
def Chip.benchRestorable (c : Chip) (b : Fin 32) (r : Nat) (o : Owner) : Bool :=
  (c.bench b.val).resident.isNone && (c.copiesOut b.val).isEmpty && !(c.bench b.val).retiring && !c.down.get (benchHalf b.val) && !c.on (F.BENCH_STATUS_RETIRED b.val) &&
    c.on (F.BENCH_CTL_ENABLE b.val) && c.unitOn (8 + b.val) && !c.on (F.BENCH_STATUS_SAVE_RESTORE b.val) && !c.engineHalted (.bench b) &&
    c.benchGranted o b.val && c.shareOn (8 + b.val) o != 0 && !(o.part == 0 && c.strictWaiting b.val) &&
    !(c.cmds.any fun m => c.wants (.bench b) m &&
      (decide (c.serveKey m < c.ringKey r o.part) || (c.serveKey m == c.ringKey r o.part && m.owner != o && c.turnBefore (8 + b.val) m.owner o)))

/-- CONTEXT_RESTORE_COMPLETE (R280, R284): the saved context of a ring is restored where the scheduler places it, or is discarded
where the restore met an error; `mirror` is what an array's reads of its tile mirror show (R80, R106). -/
def execContextRestoreComplete (e : Engine) (r : Fin 65536) (err : Option Word) (s : State) (mirror : StoreObs 0x40000 := .clean) :
    Host.Outcome State Fault Refusal :=
  let c := s.chip
  match e with
  | .array a =>
    match Tbl.find? c.actx r.val with
    | none => s.go c
    | some x =>
      if ¬ c.restorePlace a.val r.val x.owner then s.go c
      else
        let (lost, d) := (c.restoreArray a.val r.val).contextSeen e mirror 0xC00000
        match (if err.isSome then err.map BitVec.toNat else lost) with
        | none =>
          let d := d.contextMoved (arrayHalf a.val)
          s.go (if x.st.jobs.isEmpty then d else d.slotServed a.val x.owner)
        | some k => s.go (d.discardArray a.val k)
  | .bench b =>
    match Tbl.find? c.bctx (32 * r.val + b.val) with
    | none => s.go c
    | some x =>
      if ¬ c.benchRestorable b r.val x.owner then s.go c
      else match err with
        | none => s.go (((c.restoreBench b.val r.val).replayLost b.val).contextMoved (benchHalf b.val))
        | some k => s.go ((c.restoreBench b.val r.val).discardBench b.val k.toNat)
  | .attention id =>
    match c.cmd? id with
    | some m => if m.stage = .preempted ∧ m.unit = 1 ∧ (m.opcode = 0x40 ∨ m.opcode = 0x41) ∧ c.shareOn (c.engineNo e) m.owner ≠ 0 ∧
        ¬ c.attnOutranked m.half m then
        (match err with
        | none => s.go ((c.setCmd { m with stage := .running }).contextMoved m.half)
        | some k => s.go (c.discardAttn m k.toNat))
      else s.go c
    | none => s.go c

/-! ### Eviction (R287) -/

/-- Swap time of an engine's kind in tenths of a microsecond (R287). -/
def swapTenths : Engine → Nat
  | .array _ => 426
  | .bench _ => 198
  | .attention _ => 86

/-- The engines of the kind of an engine that are granted to a command's party in its ring's half (R287). -/
def Chip.kindOf (c : Chip) (e : Engine) (m : Cmd) : List Engine :=
  match e with
  | .array _ => ((List.finRange 8).filter fun a => arrayHalf a.val == m.half && c.arrayGranted m.owner a.val).map Engine.array
  | .bench _ => ((List.finRange 32).filter fun b => benchHalf b.val == m.half && c.benchGranted m.owner b.val).map Engine.bench
  | .attention _ => []

/-- For how long the context on an engine has been blocked, in 1/64 ns of the half's local monotonic base (R287, R437). That base
steps once a cycle; `into` is how far the present cycle has come, `began` how far its cycle had come as a context became blocked. -/
def Chip.blockedFor (c : Chip) (e : Engine) (into : Nat) (began : List (Engine × Fin 256)) : Nat :=
  match Tbl.look 0 c.blockedAt (c.engineNo e) with
  | 0 => 0
  | t + 1 => (elapsed (c.stamp (engineHalf (c.engineNo e)) 0) t).toNat + into - (((began.find? fun x => x.1 == e).map fun x => x.2.val).getD 0)

/-- The chip after the contexts that are blocked now, and those that are not, are noted (R287). -/
def Chip.noteBlocked (c : Chip) : Chip :=
  storeEngines.foldl (fun (c : Chip) e =>
    let n := c.engineNo e
    match c.residentOn e with
    | some r =>
      if ¬ c.blocked e r then { c with blockedAt := Tbl.del c.blockedAt n }
      else if Tbl.look 0 c.blockedAt n = 0 then { c with blockedAt := Tbl.ins c.blockedAt n (c.stamp (engineHalf n) 0 + 1) } else c
    | none => { c with blockedAt := Tbl.del c.blockedAt n }) c

/-- The chip after one cycle of the time domain in which nothing is commanded: contexts blocked in it count it as blocked time
(R287, R434; assumption 1). -/
def Chip.pass (c : Chip) : Chip := c.noteBlocked.tick

/-- EVICT (R287): the blocked context of an engine is evicted for the runnable context of a ring, by which every engine of the kind open
to it is held by a blocked context. Among the contexts that may be evicted it is of the lowest class, then the longest blocked, then
of the lowest owner ID. -/
def execEvict (e : Engine) (byRing : Fin 65536) (into : Fin 256) (s : State) (began : List (Engine × Fin 256) := []) :
    Host.Outcome State Fault Refusal :=
  let c := s.chip
  let since (x : Engine) : Nat := c.blockedFor x into.val began
  match c.residentOn e, c.cmds.find? fun m => m.id.ring.val == byRing.val && c.wants e m with
  | some r, some m =>
    let kind := c.kindOf e m
    let owner (x : Engine) : Nat := (((c.residentOn x).bind c.ringOwner).map BitVec.toNat).getD 0
    let cand (x : Engine) : Bool := match c.residentOn x with
      | some q => c.wants x m && decide (c.ringRank byRing.val ≤ c.rankOn x) && decide (swapTenths x * usUnits < since x * 10) &&
          !c.isRough x q && !c.inOwnSlot x q
      | none => false
    let before (x : Engine) : Bool := decide (c.rankOn x < c.rankOn e ∨ (c.rankOn x = c.rankOn e ∧
      (since x < since e ∨ (since x = since e ∧ owner e ≤ owner x))))
    if (kind.all fun x => match c.residentOn x with | some q => c.blocked x q | none => !c.wants x m) ∧ cand e ∧
        (kind.all fun x => !cand x || before x) ∧ (c.switchOf e).saving.isNone then
      let o : Owner := (c.ringOwner r).getD 0
      let (h, n) := match e with
        | .array a => (arrayHalf a.val, engineArray a.val)
        | .bench b => (benchHalf b.val, engineBench b.val)
        | .attention i => (ringHalf i.ring.val, engineAttn (ringHalf i.ring.val))
      s.go (((c.beginSave e (!c.commandLevel e)).inc F.SCHED_EVICT_CNT_COUNT).evOf h 0x0501 o [n, o.toNat, m.owner.toNat, since e / usUnits])
    else s.go c
  | _, _ => s.go c

end Sys2Proof.Machine
end

