-- ==== Sys2Proof/Machine/Instances.lean ====
section
/-! DEFINITION. Virtual instances (R296–R315): creation, shares, reset, destruction, and the ring windows of the VI block. -/

namespace Sys2Proof.Machine

/-! ### Grants -/

/-- A grant as the eight words of a record lay it out. -/
structure Grant where
  world : Bool
  part : Nat
  share : Nat
  ringFirst : Nat
  ringN : Nat
  dowelFirst : Nat
  dowelN : Nat
  pasidValid : Bool
  port : Nat
  vf : Nat
  pasid : Nat
  memHFirst : Nat
  memHN : Nat
  memTFirst : Nat
  memTN : Nat
deriving DecidableEq, Repr

/-- Reads a grant from eight words (R300). -/
def Grant.ofWords (w : Nat → Nat) : Grant :=
  ⟨bit (w 0) 24, bits (w 0) 20 4, bits (w 0) 8 8, bits (w 1) 16 16, bits (w 1) 0 9, bits (w 2) 16 14, bits (w 2) 0 9,
    bit (w 3) 31, bits (w 3) 30 1, bits (w 3) 20 8, bits (w 3) 0 20, bits (w 4) 0 20, bits (w 5) 0 20, bits (w 6) 0 20, bits (w 7) 0 20⟩

/-- The registers of a record, in the order of `VI_ARG`. -/
def viWords (i : Nat) : List Nat :=
  [Reg.VI_INST_STATE i, Reg.VI_INST_RINGS i, Reg.VI_INST_DOWELS i, Reg.VI_INST_PCI i, Reg.VI_INST_MEM_H_FIRST i, Reg.VI_INST_MEM_H_N i,
    Reg.VI_INST_MEM_T_FIRST i, Reg.VI_INST_MEM_T_N i]

/-- The grant that `VI_ARG` holds, and the grant of a record. -/
def Chip.viArg (c : Chip) : Grant := Grant.ofWords fun k => c.reg (Reg.VI_ARG k)
def Chip.viGrant (c : Chip) (i : Nat) : Grant := Grant.ofWords fun k => c.reg ((viWords i).getD k 0)

/-- The state of a record (R297). -/
def Chip.viState (c : Chip) (i : Nat) : Nat := c.q (F.VI_INST_STATE_STATE i)
/-- The owner ID of a record's instance (R296). -/
def Chip.viOwner (c : Chip) (i : Nat) : Owner :=
  BitVec.ofNat 13 (4096 * c.q (F.VI_INST_STATE_WORLD i) + 256 * c.q (F.VI_INST_STATE_PART i) + i)

/-- Ownership entries of a grant's granules. -/
def Grant.granules (g : Grant) : List Nat :=
  (List.range g.memHN).map (g.memHFirst + ·) ++ (List.range g.memTN).map (524288 + g.memTFirst + ·)
def Grant.rings (g : Grant) : List Nat := (List.range g.ringN).map (g.ringFirst + ·)
def Grant.dowels (g : Grant) : List Nat := (List.range g.dowelN).map (g.dowelFirst + ·)

/-- An entry belongs to a partition's reserve in a world (R299). -/
def inReserve (e : Nat) (world : Bool) (part : Nat) : Bool :=
  ownType e == 7 && ownOwner e / 256 == 16 * b2n world + part

/-! ### Commands of the VI block (R300, R301, R313) -/

/-- The initiator reaches page 0 of the VI block: firmware or the manager (R315). -/
def Chip.viAdmits (c : Chip) (o : Owner) : Bool := o == 0 || c.q F.VI_MGR_OWNER == o.toNat

/-- The initiator may act on a record: firmware on every one, the manager on those it created (R298). -/
def Chip.viMayAct (c : Chip) (o : Owner) (i : Nat) : Bool := o == 0 || (c.q F.VI_MGR_OWNER == o.toNat && c.on (F.VI_INST_STATE_MGR i))

/-- The first refusal among the checks of a creation, in their order; none if it is accepted (R300). In Vendor-return no
Heartwood party can be created (R474). -/
def Chip.createCheck (c : Chip) (o : Owner) (i : Nat) (g : Grant) : Option Nat :=
  if g.world ∧ (o ≠ 0 ∨ c.q (F.SEC_STATUS_DEBUG 0) = 2 ∨ c.q (F.SEC_STATUS_DEBUG 1) = 2) then some 0x40
  else if c.viState i ≠ 0 then some 0x41
  else if g.part = 0 ∨ ¬ c.on (F.SCHED_PART_CFG_VALID g.part) then some 0x40
  else if g.ringN = 0 ∨ 256 < g.ringN ∨ (g.ringFirst < 32768 ∧ 32768 < g.ringFirst + g.ringN) ∨ 65536 < g.ringFirst + g.ringN then some 0x40
  else if 256 < g.dowelN ∨ (g.dowelFirst < 8192 ∧ 8192 < g.dowelFirst + g.dowelN) ∨ 16384 < g.dowelFirst + g.dowelN then some 0x40
  else if g.rings.any fun r => !inReserve (c.ownAt (doorbellEntry r)) g.world g.part || (c.ringSt? r).isSome || !c.on (F.RING_STATUS_IDLE r) then some 0x20
  else if g.dowels.any fun d => c.q (F.DOWEL_ATTR_OWNER d) != 0 || c.waits.any fun w => w.dowel == d then some 0x20
  else if 524288 < g.memHFirst + g.memHN ∨ 524288 < g.memTFirst + g.memTN ∨ (g.granules.any fun n => !inReserve (c.ownAt n) g.world g.part) then some 0x20
  else if (List.range 256).any fun j => j != i && c.viState j != 0 &&
      (let x := c.viGrant j; (g.vf != 0 && x.vf == g.vf && x.port == g.port) || (g.pasidValid && x.pasidValid && x.port == g.port && x.pasid == g.pasid)) then some 0x40
  else none

/-- The chip with the result of a VI command. -/
def Chip.viResult (c : Chip) (op i res : Nat) : Chip :=
  ((c.put F.VI_CMD_RESULT_OP op).put F.VI_CMD_RESULT_RECORD i).put F.VI_CMD_RESULT_RESULT res

/-- The chip after a VI command is refused. -/
def Chip.viRefused (c : Chip) (w : Initiator) (op i res : Nat) : Chip :=
  (c.viResult op i res).evOf w.half 0x0601 w.owner [i, op, res, w.owner.toNat]

/-- The chip after a VI command that the block may take: page 0 admits its initiator, and no other is in progress, which
gets result 0x42 and changes nothing (R313, R315). -/
def Chip.viCommand (c : Chip) (w : Initiator) (op i : Nat) (f : Chip → Chip) : Chip :=
  if ¬ c.viAdmits w.owner then c
  else if c.on F.VI_CMD_RESULT_BUSY then (c.put F.VI_CMD_RESULT_RESULT 0x42).evOf w.half 0x0601 w.owner [i, op, 0x42, w.owner.toNat]
  else f c

/-- The chip with the entries of a list set to an owner and a type; EXEC and REMOTE kept, `CLEAN` cleared by any type but
7 (R454). -/
def Chip.setOwners (c : Chip) (l : List Nat) (o typ : Nat) : Chip :=
  l.foldl (fun c n => let f := ownFlags (c.ownAt n); c.setOwn n (mkOwn o typ (if typ = 7 then f else f / 2 * 2))) c

/-- The fields of a record's words that `VI_ARG` gives (R315). -/
def viFields (k v : Nat) : Nat :=
  Nat.land v ([0x01F0FF00, 0xFFFF01FF, 0x3FFF01FF, 0xCFFFFFFF, 0xFFFFF, 0xFFFFF, 0xFFFFF, 0xFFFFF].getD k 0)

/-- The chip after steps 1 to 4 of a creation with a grant's words; its `SHARE` and `MGR` wait for step 5 (R301). -/
def Chip.viMake (c : Chip) (i : Nat) (w : Nat → Nat) (mgr : Bool) : Chip :=
  let g := Grant.ofWords w
  let o : Nat := 4096 * b2n g.world + 256 * g.part + i
  let c := c.setOwners (g.rings.map doorbellEntry) o 1
  let c := c.setOwners g.granules o 0
  let c := g.dowels.foldl (fun c d => c.assignDowel d o 0) c
  let c := (viWords i).zipIdx.foldl (fun c p => if p.2 = 0 then c else c.setReg p.1 (viFields p.2 (w p.2))) c
  { (c.setReg (Reg.VI_INST_STATE i) (2 ^ 24 * b2n g.world + 2 ^ 20 * g.part)) with viNew := (g.share, mgr) }

/-- The chip after step 5 of a creation: the record becomes ACTIVE, with its `SHARE` and `MGR` (R301), and a share of 0 suspends it
(R308). -/
def Chip.viActivate (c : Chip) (i : Nat) (static : Bool) : Chip :=
  let c := ((c.put (F.VI_INST_STATE_SHARE i) c.viNew.1).put (F.VI_INST_STATE_MGR i) (b2n c.viNew.2)).put (F.VI_INST_STATE_STATIC i) (b2n static)
  ((Chip.put { c with viNew := (0, false) } (F.VI_INST_STATE_STATE i) (if c.viNew.1 = 0 then 2 else 1))).dec F.VI_STATUS_FREE

/-- The chip after CREATE is accepted or refused (R300, R301). -/
def Chip.viCreate (c : Chip) (w : Initiator) (i : Nat) : Chip :=
  match c.createCheck w.owner i c.viArg with
  | some k => c.viRefused w 1 i k
  | none => ((c.viResult 1 i 0).put F.VI_CMD_RESULT_BUSY 1).viMake i (fun k => c.reg (Reg.VI_ARG k)) (w.owner != 0)

/-- CREATE (R301): `VI_CMD` with `OP` = 1. -/
def execCreate (i : Initiator) (n : Fin 256) (s : State) : Host.Outcome State Fault Refusal :=
  s.go (s.chip.viCommand i 1 n.val fun c => c.viCreate i n.val)

/-! ### Withdrawing an instance's work (R309) -/

/-- The rings whose latched owner is a party. -/
def Chip.ringsOf (c : Chip) (o : Owner) : List Nat := (c.rings.filter fun e => e.2.owner == o).map (·.1)

/-- The chip after the commands of a party are withdrawn, without records: moves with transactions that have left remain, with their
pins, until those return, and a command on an array until the array has stopped; what had not left is dropped. The party's late flag
is cleared (R186, R241, R309, R410). -/
def Chip.withdrawCmds (c : Chip) (o : Owner) : Chip :=
  let c := { c with gwLate := c.gwLate.filter (· != o) }
  (c.cmds.filter fun m => m.owner == o).foldl (fun c m =>
    let c := { c with pins := c.pins.filter fun p => p.id != m.id, txns := c.txns.filter fun t => t.2.id != m.id || t.2.sent.isSome }
    let c := if m.opcode = 0x60 then c.leaveSlot m.slotNo m.id else c
    if (0x50 ≤ m.opcode ∧ m.opcode ≤ 0x53 ∧ (c.txns.any fun t => t.2.id == m.id)) ∨ (arrayOp m.opcode ∧ m.stage = .running) then
      c.setCmd { m with stage := .withdrawn }
    else if m.stage = .fetched then c.dropCmd m.id else (c.kvUnpinAll m.id).leave m) c

/-- The context resident on an array, on a bench, is a party's. -/
def Chip.arrayHolds (c : Chip) (o : Owner) (a : Nat) : Bool := (c.arr a).resident.isSome && c.q (F.ARRAY_STATUS_OWNER a) == o.toNat
def Chip.benchHolds (c : Chip) (o : Owner) (b : Nat) : Bool := (c.bench b).resident.isSome && c.q (F.BENCH_STATUS_OWNER b) == o.toNat

/-- The chip with the contexts of a bench gone; of its cores' copies those that have left through a window stay until the far side
answers, for nothing (R309). -/
def Chip.benchReset (c : Chip) (b : Nat) (o : Owner) : Chip :=
  let left := (c.cores.filter fun e => e.1 / 64 == b).filterMap fun e =>
    let l := (e.2.copies.filter fun k => !k.2.ended && k.2.window.isSome && k.2.sent.isSome).map fun k => (k.1, { k.2 with drop := some o })
    if l.isEmpty then none else some (e.1, { Core.zero with stall := .ended, copies := l })
  left.foldl (fun (c : Chip) e => { c with cores := Tbl.ins c.cores e.1 e.2 }) (c.benchClear b)

/-- The chip after an array is stopped at its next vector boundary for a reset: nothing more of its commands starts, and its context is
gone once each has stopped (R241, R309). -/
def Chip.stopArray (c : Chip) (a : Nat) : Chip :=
  let x := c.arr a
  if x.jobs.isEmpty then c.dropArray a
  else (c.setArr a { x with
    shadow := none, checks := [], sw := Switch.none
    jobs := x.jobs.map fun j => { j with loading := false, vecs := j.streamed, rows := j.drained } }).put (F.ARRAY_STATUS_SAVE_RESTORE a) 0

/-- The chip after every engine context of a party is discarded and its stores are zero (R102, R309), that of an array once it has
stopped. A retirement that waited for a command's end takes effect (R134). -/
def Chip.discardContexts (c : Chip) (o : Owner) : Chip :=
  let c := { c with actx := c.actx.filter fun e => e.2.owner != o, bctx := c.bctx.filter fun e => e.2.owner != o }
  let c := (List.range 8).foldl (fun c a => if c.arrayHolds o a then c.stopArray a else c) c
  (List.range 32).foldl (fun c b =>
    let x := c.bench b
    if c.benchHolds o b then
      let c := (c.benchReset b o).setBench b { BenchSt.zero with retired := x.retired, retiring := x.retiring, spareNext := x.spareNext }
      (((c.put (F.BENCH_STATUS_OWNER b) 0).put (F.BENCH_STATUS_SAVE_RESTORE b) 0).put (F.BENCH_STATUS_BUSY b) 0).benchDue b
    else c) c

/-- The chip after the work of a party is withdrawn: contexts and commands, waits and notifies, frames, rings (R309). A completion or
event ring closes once the last withdrawn command has released its reservation in it (R236, R241). -/
def Chip.withdraw (c : Chip) (o : Owner) : Chip :=
  let rs := c.ringsOf o
  let armed := (c.waits.filter fun w => w.owner == o && w.who == .notify).map (·.dowel)
  let c := c.discardContexts o
  let c := c.withdrawCmds o
  let c := armed.foldl (fun c d => c.put (F.DOWEL_ATTR_NOTIFY_ARMED d) 0) { c with waits := c.waits.filter fun w => w.owner != o }
  let c := c.kvReset o
  let (sub, rest) := rs.partition fun r => c.q (F.RING_CFG_KIND r) == 1
  let c := sub.foldl (fun c r => (c.closeRing r).put (F.RING_CFG_ENABLE r) 0) c
  rest.foldl (fun (c : Chip) r =>
    let c := c.put (F.RING_CFG_ENABLE r) 0
    match c.ringSt? r with
    | some x => if c.ringNeeded r x then c.setRingSt r { x with heldClear := true, heldCfg := c.reg (Reg.RING_CFG r) } else c.closeRing r
    | none => c) c

/-- The dowels whose owner is a party other than firmware (R252). -/
def Chip.dowelsOf (c : Chip) (o : Owner) : List Nat :=
  c.regs.filterMap fun e =>
    let d := (e.1 - 0x20000000) / 0x100
    if d < 16384 ∧ e.1 = Reg.DOWEL_ATTR d ∧ c.q (F.DOWEL_ATTR_OWNER d) = o.toNat then some d else none

/-- The chip after a reset of a record begins; cause 0 command, 1 Function Level Reset, 2 removal, 3 destroy. A reset of a
record that is already being reset merges with it (R309). -/
def Chip.viReset (c : Chip) (h : Half) (i cause : Nat) : Chip :=
  if c.viState i = 3 ∨ c.viState i = 4 then c
  else
    let o := c.viOwner i
    let w := ((c.put (F.VI_INST_STATE_STATE i) 3).ev h 0x0602 [i, cause]).withdraw o
    let w := (c.viGrant i).rings.foldl (fun (w : Chip) r => w.put (F.RING_CFG_ENABLE r) 0) w
    let w := (w.dowelsOf o).foldl (fun (w : Chip) d => w.setPair (Reg.DOWEL_VAL_LO d) (Reg.DOWEL_VAL_HI d) 0) w
    { w with viStart := Tbl.ins w.viStart i c.now, models := w.models.filter fun m => m.2.owner != o }

/-- CREATION_COMPLETE (R301, step 5): the record becomes ACTIVE; a Function Level Reset that waited takes effect (R313). -/
def execCreationComplete (s : State) : Host.Outcome State Fault Refusal :=
  let c := s.chip
  if c.on F.VI_CMD_RESULT_BUSY ∧ c.q F.VI_CMD_RESULT_OP = 1 then
    let i := c.q F.VI_CMD_RESULT_RECORD
    let g := c.viGrant i
    let c := c.viActivate i false
    let c := (c.put F.VI_CMD_RESULT_BUSY 0).put F.VI_CMD_RESULT_RESULT 0
    let c := c.evOf c.firstUp 0x0600 (c.viOwner i) [i, (c.viOwner i).toNat, g.ringN, g.dowelN, g.memHN + g.memTN]
    if c.viFlr.contains i then s.go (({ c with viFlr := c.viFlr.filter (· != i) }).viReset c.firstUp i 1) else s.go c
  else s.go c

/-- The chip after a reset or a destruction by command (R298, R309, R312). -/
def Chip.viResetCmd (c : Chip) (w : Initiator) (i : Nat) (destroy : Bool) : Chip :=
  let op := if destroy then 3 else 2
  if ¬ c.viMayAct w.owner i ∨ (w.owner ≠ 0 ∧ c.on (F.VI_INST_STATE_STATIC i)) then c.viRefused w op i 0x40
  else if c.viState i = 0 then c.viRefused w op i 0x41
  else
    let c := if destroy then { c with viDestroy := if c.viDestroy.contains i then c.viDestroy else i :: c.viDestroy } else c
    (c.viReset w.half i (if destroy then 3 else 0)).viResult op i 1

/-- RESET (R309): `VI_CMD` with `OP` = 2. -/
def execReset (i : Initiator) (n : Fin 256) (s : State) : Host.Outcome State Fault Refusal :=
  s.go (s.chip.viCommand i 2 n.val fun c => c.viResetCmd i n.val false)

/-- DESTROY (R312): `VI_CMD` with `OP` = 3. -/
def execDestroy (i : Initiator) (n : Fin 256) (s : State) : Host.Outcome State Fault Refusal :=
  s.go (s.chip.viCommand i 3 n.val fun c => c.viResetCmd i n.val true)

/-- The chip after a share is recorded; engines apply it from their next quantum boundary, and a share of 0 suspends the
record (R307, R308). The manager may share the records that it created, and the static ones (R298). -/
def Chip.viShare (c : Chip) (w : Initiator) (i : Nat) : Chip :=
  if ¬ c.viMayAct w.owner i ∧ ¬ c.on (F.VI_INST_STATE_STATIC i) then c.viRefused w 4 i 0x40
  else if c.viState i = 0 then c.viRefused w 4 i 0x41
  else
    let old := c.q (F.VI_INST_STATE_SHARE i)
    let new := bits (c.reg (Reg.VI_ARG 0)) 8 8
    let pend := if 3 ≤ c.viState i then c.sharePend else (List.range 42).foldl (fun t e => if (Tbl.find? t (256 * e + i)).isSome then t else Tbl.ins t (256 * e + i) old) c.sharePend
    let c := ({ c with sharePend := pend }).put (F.VI_INST_STATE_SHARE i) new
    let c := if new = 0 ∧ c.viState i = 1 then c.put (F.VI_INST_STATE_STATE i) 2 else c
    (c.viResult 4 i 0).evOf w.half 0x0608 w.owner [i, old, new]

/-- SHARE (R307): `VI_CMD` with `OP` = 4. -/
def execShare (i : Initiator) (n : Fin 256) (s : State) : Host.Outcome State Fault Refusal :=
  s.go (s.chip.viCommand i 4 n.val fun c => c.viShare i n.val)

/-- The record to which a VF of a port is bound (R304). -/
def Chip.vfRecord (c : Chip) (port : Half) (vf : Nat) : Option Nat :=
  (List.range 256).find? fun i => vf != 0 && (c.viGrant i).vf == vf && (c.viGrant i).port == port.idx &&
    (c.viState i != 0 || (c.on F.VI_CMD_RESULT_BUSY && c.q F.VI_CMD_RESULT_RECORD == i))

/-- FUNCTION_LEVEL_RESET (R309): the instance of a VF is reset; on a record that a creation is building it takes effect
after the creation (R313). A port in root-port mode exposes no VF (R304). -/
def execFunctionLevelReset (port : Half) (vf : BitVec 8) (s : State) : Host.Outcome State Fault Refusal :=
  let c := s.chip
  if ¬ c.on (F.PCIE_CTL_MODE port.idx) ∨ ¬ c.on (F.PCIE_STATUS_LINK_UP port.idx) ∨ c.down.get port then s.go c
  else match c.vfRecord port vf.toNat with
  | none => s.go c
  | some i => if c.viState i = 0 then s.go { c with viFlr := if c.viFlr.contains i then c.viFlr else i :: c.viFlr } else s.go (c.viReset port i 1)

/-! ### Completion of a reset, zeroing (R310–R312) -/

/-- Nothing of a party remains in flight: no context, no command, no copy that waits for its far side, no LIVE or DRAIN frame (R310). -/
def Chip.withdrawn (c : Chip) (o : Owner) : Bool :=
  !(c.cmds.any fun m => m.owner == o) && !(c.actx.any fun e => e.2.owner == o) && !(c.bctx.any fun e => e.2.owner == o) &&
    !(c.cores.any fun e => e.2.copies.any fun k => k.2.drop == some o) && !((List.range 8).any (c.arrayHolds o)) && !((List.range 32).any (c.benchHolds o)) &&
    !((c.kv.h ++ c.kv.t).any fun e => e.2.owner == o && (e.2.state == 1 || e.2.state == 2))

/-- RESET_COMPLETION (R310, R311): once nothing of the instance remains, its granules take type 7 and the record enters
ZEROING. -/
def execResetCompletion (n : Fin 256) (s : State) : Host.Outcome State Fault Refusal :=
  let c := s.chip
  let i := n.val
  if c.viState i = 3 ∧ c.withdrawn (c.viOwner i) then
    let t := elapsed c.now (Tbl.look 0 c.viStart i)
    let d := ({ c with viStart := Tbl.del c.viStart i }).ev c.firstUp 0x0603 [i, t.toNat / usUnits]
    s.go ((d.setOwners (c.viGrant i).granules (c.viOwner i).toNat 7).put (F.VI_INST_STATE_STATE i) 4)
  else s.go c

/-- Address of the granule of a DRAM entry. -/
def granuleAddr (n : Nat) : Nat := 0x1000000000 + n * 65536

/-- The half of a DRAM entry. -/
def granuleHalf (n : Nat) : Half := if n < 524288 then .H else .T

/-- The chip with a DRAM granule zero and clean (R454). -/
def Chip.zeroGranule (c : Chip) (n : Nat) : Chip := (c.zeroRange (granuleAddr n) 65536).setClean n true

/-- A move that checked a granule of a grant before its retyping has not yet ended (R311). -/
def Chip.movesInto (c : Chip) (g : Grant) : Bool :=
  c.txns.any fun t => [t.2.addr, t.2.dst].any fun a => inDram a && g.granules.contains ((a - 0x1000000000) / 65536)

/-- Each half that is up and has granules of a grant has a Carriage to zero them (R220, R311). -/
def Grant.zeroers (g : Grant) (c : Chip) : Bool :=
  let ok (h : Half) (n : Nat) : Bool := n == 0 || c.down.get h || (c.carriageOf h).isSome
  ok .H g.memHN && ok .T g.memTN

/-- The chip after the granules of a grant are zeroed by fill moves of their own half, which its Carriage counts: one for each range of
granules (R231, R311; how many it takes is not stated, assumption 165). -/
def Chip.zeroedBy (c : Chip) (g : Grant) : Chip :=
  let fill (h : Half) (n : Nat) (c : Chip) : Chip := if n = 0 then c else c.carriageDid h (65536 * n)
  fill .T g.memTN (fill .H g.memHN c)

/-- INSTANCE_ZEROING_COMPLETE (R311): the last granule is zero; after a reset the record is ACTIVE again, or suspended where its
share became 0 meanwhile (R308), after a destruction everything returns to the reserve. -/
def execInstanceZeroingComplete (n : Fin 256) (s : State) : Host.Outcome State Fault Refusal :=
  let c := s.chip
  let i := n.val
  let g := c.viGrant i
  if c.viState i = 4 ∧ ¬ c.movesInto g ∧ g.zeroers c then
    let o := (c.viOwner i).toNat
    let z := (g.granules.foldl Chip.zeroGranule c).zeroedBy g
    if c.viDestroy.contains i then
      let r := o / 256 * 256
      let d := (z.setOwners g.granules r 7).setOwners (g.rings.map doorbellEntry) r 7
      let d := g.dowels.foldl (fun (d : Chip) k => d.assignDowel k 0 0) d
      let d := (d.setReg (Reg.VI_INST_PCI i) 0).setReg (Reg.VI_INST_STATE i) 0
      s.go ((({ d with viDestroy := c.viDestroy.filter (· != i) }).inc F.VI_STATUS_FREE).ev c.firstUp 0x0605 [i])
    else s.go (((z.setOwners g.granules o 0).put (F.VI_INST_STATE_STATE i) (if c.q (F.VI_INST_STATE_SHARE i) = 0 then 2 else 1)).ev c.firstUp 0x0604 [i])
  else s.go c

/-! ### Ring windows (R302, R303) -/

/-- The chip after firmware writes register `k` of a ring's configuration, in the order of `VI_RCFG` (R236, R267). -/
def Chip.ringCfgWrite (c : Chip) (r k v : Nat) : Chip :=
  if c.down.get (ringHalf r) then c
  else match k with
  | 0 => if bit v 31 then c.enableRing r v else c.disableRing r v
  | 1 => c.setReg (Reg.RING_BASE_LO r) (v / 4096 * 4096)
  | 2 => c.setReg (Reg.RING_BASE_HI r) (v % 65536)
  | 3 => c.setReg (Reg.RING_LINK r) v
  | _ => c.setReg (Reg.RING_IRQ r) (bits v 31 1 * 2 ^ 31 + bits v 0 10)

/-- The record whose grant holds a ring. -/
def Chip.ringRecord (c : Chip) (r : Nat) : Option Nat :=
  (List.range 256).find? fun i => c.viState i != 0 && (c.viGrant i).rings.contains r

/-- VI_RCFG (R303): the window of the manager and firmware onto the selected ring. -/
def execViRcfg (i : Initiator) (k : Fin 5) (v : Word) (s : State) : Host.Outcome State Fault Refusal :=
  let c := s.chip
  let r := c.q F.VI_RCFG_SEL_RING
  if ¬ c.viAdmits i.owner then s.go c
  else match c.ringRecord r with
    | some n => if c.viMayAct i.owner n then s.go (c.ringCfgWrite r k.val v.toNat) else s.go (c.ringCfgRefused i r (0x800 + 4 * k.val))
    | none => s.go (c.ringCfgRefused i r (0x800 + 4 * k.val))

/-- The ring that an initiator has selected in `VI_SELF_SEL` (R303). -/
def Chip.selfSel (c : Chip) (i : Initiator) : Nat :=
  match c.viSelf.find? fun h => h.owner == i.owner && h.port == i.port with
  | some h => h.val.toNat % 65536
  | none => 0

/-- A ring belongs to a party: its doorbell page's entry names it and is none of a reserve (R299, R303). -/
def Chip.ownsRing (c : Chip) (o : Owner) (r : Nat) : Bool :=
  let e := c.ownAt (doorbellEntry r)
  ownOwner e == o.toNat && ownType e != 7

/-- VI_SELF (R303): in sliced mode, the window of an ACTIVE instance onto a ring of its own; any other such write is ignored, with
event 0x0422. -/
def execViSelf (i : Initiator) (k : Fin 5) (v : Word) (s : State) : Host.Outcome State Fault Refusal :=
  let c := s.chip
  let r := c.selfSel i
  if i.owner.part ≠ 0 ∧ c.instState i.owner = 1 ∧ c.on F.VI_CTL_MODE ∧ c.ownsRing i.owner r then s.go (c.ringCfgWrite r k.val v.toNat)
  else s.go (c.ringCfgRefused i r (0x800 + 4 * k.val))

end Sys2Proof.Machine
end

