-- ==== Sys2Proof/Machine/Sha.lean ====
section
/-! DEFINITION. SHA-384 (R462), as FIPS 180-4 specifies it. -/

namespace Sys2Proof.Machine

/-- The primes below a bound, rising. -/
def primesBelow (n : Nat) : List Nat := (List.range n).filter fun p => decide (2 ≤ p) && (List.range p).all fun d => decide (d < 2) || p % d != 0

/-- The largest number whose `k`-th power is at most `x`, one bit at a time from bit `n - 1` down, above the bits found. -/
def rootBits (k x : Nat) : Nat → Nat → Nat
  | 0, found => found
  | n + 1, found => rootBits k x n (if (found + 2 ^ n) ^ k ≤ x then found + 2 ^ n else found)

/-- The first 64 bits of the fractional part of the `k`-th root of a number below 512. -/
def rootFraction (k p : Nat) : Nat := rootBits k (p * 2 ^ (64 * k)) 69 0 % 2 ^ 64

/-- The round constants: the fractions of the cube roots of the first 80 primes. -/
def shaRounds : List Nat := (primesBelow 410).map (rootFraction 3)

/-- The initial hash value of SHA-384: the fractions of the square roots of the ninth to sixteenth primes. -/
def shaStart : List Nat := ((primesBelow 54).drop 8).map (rootFraction 2)

/-- A 64-bit word rotated right. -/
def rotr (n x : Nat) : Nat := x / 2 ^ n + x % 2 ^ n * 2 ^ (64 - n)

/-- The message schedule: `w` holds the latest sixteen words, oldest first; `n` more are produced. -/
def shaSchedule : Nat → List Nat → List Nat
  | 0, w => w
  | n + 1, w =>
    let g (k : Nat) : Nat := w.getD k 0
    let s0 := Nat.xor (Nat.xor (rotr 1 (g 1)) (rotr 8 (g 1))) (g 1 / 2 ^ 7)
    let s1 := Nat.xor (Nat.xor (rotr 19 (g 14)) (rotr 61 (g 14))) (g 14 / 2 ^ 6)
    g 0 :: shaSchedule n (w.drop 1 ++ [(g 0 + s0 + g 9 + s1) % 2 ^ 64])

/-- One round, with its constant and schedule word. -/
def shaRound (v : List Nat) (k w : Nat) : List Nat :=
  match v with
  | [a, b, c, d, e, f, g, h] =>
    let s1 := Nat.xor (Nat.xor (rotr 14 e) (rotr 18 e)) (rotr 41 e)
    let ch := Nat.xor (Nat.land e f) (Nat.land (2 ^ 64 - 1 - e) g)
    let t1 := (h + s1 + ch + k + w) % 2 ^ 64
    let s0 := Nat.xor (Nat.xor (rotr 28 a) (rotr 34 a)) (rotr 39 a)
    let maj := Nat.xor (Nat.xor (Nat.land a b) (Nat.land a c)) (Nat.land b c)
    [(t1 + s0 + maj) % 2 ^ 64, a, b, c, (d + t1) % 2 ^ 64, e, f, g]
  | _ => v

/-- The hash value after one block of sixteen words. -/
def shaBlock (h : List Nat) (w : List Nat) : List Nat :=
  let v := (shaRounds.zip (shaSchedule 64 w)).foldl (fun v p => shaRound v p.1 p.2) h
  List.zipWith (fun a b => (a + b) % 2 ^ 64) h v

/-- Big-endian value of bytes. -/
def beNat (l : List Byte) : Nat := l.foldl (fun a b => a * 256 + b.toNat) 0

/-- The low `n` bytes of a value, big-endian. -/
def toBE (n v : Nat) : List Byte := (toLE n v).reverse

/-- The hash value after the first `n` blocks of padded bytes. -/
def shaBlocks : Nat → List Byte → List Nat → List Nat
  | 0, _, h => h
  | n + 1, l, h => shaBlocks n (l.drop 128) (shaBlock h ((List.range 16).map fun k => beNat ((l.drop (8 * k)).take 8)))

/-- SHA-384 of bytes. -/
def sha384 (m : List Byte) : List Byte :=
  let p := m ++ [0x80] ++ List.replicate ((239 - m.length % 128) % 128) 0 ++ toBE 16 (8 * m.length)
  ((shaBlocks (p.length / 128) p shaStart).take 6).flatMap (toBE 8)

end Sys2Proof.Machine
end

