-- ==== Sys2Proof/Machine/Security.lean ====
section
/-! DEFINITION. The ownership table's changes, application cores, claims, signed objects, binding, attestation, debug
states (R451–R478) and the loader of models (R288–R291). -/

namespace Sys2Proof.Machine

/-- The security core of a half. -/
def Chip.secOf (c : Chip) (h : Half) : SecSt := c.sec.get h
/-- The chip with the security core of a half replaced. -/
def Chip.setSec (c : Chip) (h : Half) (x : SecSt) : Chip := { c with sec := c.sec.set h x }
/-- The halves that are not down. -/
def Chip.upHalves (c : Chip) : List Half := [Half.H, Half.T].filter fun h => !c.down.get h
/-- A half is in service: its firmware has applied an image. -/
def Chip.inService (c : Chip) (h : Half) : Bool := !c.down.get h && (c.start.get h).applied
/-- The chip with a field of every half that is up set. -/
def Chip.putUp (c : Chip) (f : Nat → RF) (v : Nat) : Chip := c.upHalves.foldl (fun c h => c.put (f h.idx) v) c

/-! ### Changes of the ownership table (R453–R455) -/

/-- The row of R451 that an entry lies in; 4 for none. -/
def ownRow (i : Nat) : Nat :=
  if i < 1048576 then 0 else if i < 1310720 then 1 else if i < 1835008 then 2 else if i < 1867776 then 3 else 4

/-- The entries of a change. -/
def OwnChange.entries (g : OwnChange) : List Nat := (List.range g.count).map (g.first + ·)
/-- Owner, type and flags of the new value. -/
def OwnChange.owner (g : OwnChange) : Nat := g.new % 8192
def OwnChange.typ (g : OwnChange) : Nat := bits g.new 13 3
def OwnChange.flags (g : OwnChange) : Nat := bits g.new 16 8

/-- A REASSIGN breaks its rule at a DRAM entry: not of type 7, or not clean where it must be (R453). -/
def notClean (e : Nat) (g : OwnChange) (zero : Bool) : Bool :=
  ownType e != 7 || (ownFlags e % 2 == 0 && !zero && ownOwner e / 4096 == g.owner / 4096)

/-- A new type and owner break the RETYPE rules (R453). -/
def badType (typ owner : Nat) : Bool := (typ == 6 && owner / 4096 == 0) || (typ == 2 && owner != 0)

/-- The result of the first rule that a change breaks; none if it is accepted (R453). In Vendor-return no Heartwood party
can be created (R474). -/
def Chip.changeCheck (c : Chip) (g : OwnChange) (zero : Bool) : Option Nat :=
  if c.ownChg.isSome then some 0x42
  else if ¬ (1 ≤ g.op ∧ g.op ≤ 3) ∨ g.flags / 8 ≠ 0 then some 0x41
  else if g.count = 0 ∨ 1048576 < g.count ∨ ownRow g.first = 4 ∨ ownRow (g.first + g.count - 1) ≠ ownRow g.first then some 0x44
  else if g.op = 2 ∧ ownRow g.first = 0 ∧ (g.entries.any fun i => notClean (c.ownAt i) g zero) then some 0x43
  else if g.op = 2 ∧ (badType g.typ g.owner ∨ (g.owner / 4096 = 1 ∧ (c.q (F.SEC_STATUS_DEBUG 0) = 2 ∨ c.q (F.SEC_STATUS_DEBUG 1) = 2))) then some 0x40
  else if g.op = 1 ∧ (g.entries.any fun i => badType g.typ (ownOwner (c.ownAt i))) then some 0x40
  else none

/-- The chip with one entry changed; `CLEAN` survives type 7 alone (R453, R454). -/
def Chip.changeEntry (c : Chip) (g : OwnChange) (i : Nat) : Chip :=
  let e := c.ownAt i
  let f := ownFlags e
  match g.op with
  | 1 => c.setOwn i (mkOwn (ownOwner e) g.typ (g.flags / 2 * 2 + (if g.typ = 7 then f % 2 else 0)))
  | 2 => c.setOwn i (mkOwn g.owner g.typ (g.flags / 2 * 2 + (if g.typ = 7 then f % 2 else 0)))
  | _ => c.setOwn i (mkOwn (ownOwner e) (ownType e) (g.flags / 2 * 2 + f % 2))

/-- The chip after a change is asked for through the OWN block: it is refused, or begins. Without zeroing every checker
holds the new entries at once; with it they take effect when it ends (R453, R455). -/
def Chip.ownChange (c : Chip) (h : Half) (op : Nat) (zero : Bool) : Chip :=
  let first := c.q F.OWN_CHG_FIRST_INDEX
  let count := c.q F.OWN_CHG_COUNT_INDEX
  let g : OwnChange := ⟨op, first, count, c.q F.OWN_CHG_NEW_VALUE, false, c.txnNext⟩
  match c.changeCheck g zero with
  | some k => ((c.put F.OWN_CHG_STATUS_RESULT k).inc F.OWN_REFUSED_COUNT).ev h 0x0D01 [op, first, k]
  | none =>
    let world := g.entries.any fun i => ownOwner (c.ownAt i) / 4096 != g.owner / 4096
    let g := { g with zero := decide (op = 2) && decide (ownRow first = 0) && (zero || world) }
    let c := { c.put F.OWN_CHG_STATUS_BUSY 1 with ownChg := some g }
    if g.zero then c else g.entries.foldl (fun c i => c.changeEntry g i) c

/-- The chip after `OWN_CHG_CMD` is written by an initiator. -/
def Chip.ownCmd (c : Chip) (i : Initiator) (op : Nat) (zero : Bool) : Chip :=
  match c.portCause i true Reg.OWN_CHG_CMD with
  | 0 => c.ownChange i.half op zero
  | k => c.refusalEvent i.half none i.owner Reg.OWN_CHG_CMD k i.port

/-- RETYPE (R453). -/
def execRetype (i : Initiator) (s : State) : Host.Outcome State Fault Refusal := s.go (s.chip.ownCmd i 1 false)
/-- REASSIGN (R453). -/
def execReassign (i : Initiator) (zero : Bool) (s : State) : Host.Outcome State Fault Refusal := s.go (s.chip.ownCmd i 2 zero)
/-- FLAGS (R453). -/
def execFlags (i : Initiator) (s : State) : Host.Outcome State Fault Refusal := s.go (s.chip.ownCmd i 3 false)

/-- A transaction issued under an old entry of a change is still in flight (R455). -/
def Chip.oldAccess (c : Chip) (g : OwnChange) : Bool :=
  let inside (a : Nat) : Bool :=
    match ownIndex a with
    | some i => decide (g.first ≤ i ∧ i < g.first + g.count)
    | none => false
  c.txns.any fun (e : Nat × Txn) => decide (e.1 < g.upTo) && (inside e.2.addr || inside e.2.dst)

/-- The DRAM entries of a change on a half. -/
def OwnChange.granules (g : OwnChange) (h : Half) : List Nat := g.entries.filter fun i => dramHalf (granuleAddr i) == h

/-- The zeroing of a change has a Carriage in service in each half that is up and has granules of it (R220, R453). -/
def Chip.changeZeroers (c : Chip) (g : OwnChange) : Bool :=
  !g.zero || [Half.H, Half.T].all fun h => (g.granules h).isEmpty || c.down.get h || (c.carriageOf h).isSome

/-- The chip after the granules of a change are zeroed by fill moves of Carriages of their halves, counted as one move for each half
(R231, R453; assumption 165), and their entries take the new value. -/
def Chip.zeroChange (c : Chip) (g : OwnChange) : Chip :=
  let c := g.entries.foldl (fun c i => (c.zeroGranule i).changeEntry g i) c
  [Half.H, Half.T].foldl (fun (c : Chip) h => if (g.granules h).isEmpty then c else c.carriageDid h (65536 * (g.granules h).length)) c

/-- OWNERSHIP_CHANGE_COMPLETE (R455): old accesses and zeroing have ended. -/
def execOwnershipChangeComplete (s : State) : Host.Outcome State Fault Refusal :=
  let c := s.chip
  match c.ownChg with
  | none => s.go c
  | some g =>
    if c.oldAccess g ∨ ¬ c.changeZeroers g then s.go c
    else
    let c := if g.zero then c.zeroChange g else c
    let c := { ((c.put F.OWN_CHG_STATUS_BUSY 0).put F.OWN_CHG_STATUS_RESULT 0).inc F.OWN_CHG_CNT_COUNT with ownChg := none }
    s.go (if c.on F.OWN_CTL_EVT_CHG_EN then c.ev c.firstUp 0x0D00 [g.op, g.first, g.count] else c)

/-! ### Application cores (R456–R458) -/

/-- An application core. -/
def Chip.app (c : Chip) (k : Nat) : AppCore := Tbl.look AppCore.zero c.apps k
/-- The chip with an application core replaced. -/
def Chip.setApp (c : Chip) (k : Nat) (x : AppCore) : Chip := { c with apps := Tbl.put AppCore.zero c.apps k x }
/-- The half of an application core (R459). -/
def appHalf (k : Nat) : Half := if k < 8 then .H else .T

/-- An application core executes: its half is up and clocked, the core is ACTIVE, and no debugger holds it halted (R473, R475, R519). -/
def Chip.appRuns (c : Chip) (k : Fin 16) : Bool :=
  !c.down.get (appHalf k.val) && c.unitOn (110 + k.val) && !c.halted.contains (.app k)

/-- The core after a write to `cgbowner`: drained and cleared when the world or the partition changes, its counters
stopped in Heartwood, the scrub armed when it leaves it (R457, R458). -/
def AppCore.writeOwner (x : AppCore) (o : Owner) : AppCore :=
  let cleared := x.owner.world != o.world || x.owner.part != o.part
  { x with owner := o, buffered := x.buffered && !cleared, counting := !o.world, armed := x.armed || (x.owner.world && !o.world) }

/-- WORLD_SWITCH (R457): a write to `cgbowner` that changes the world. -/
def execWorldSwitch (k : Fin 16) (o : Owner) (s : State) : Host.Outcome State Fault Refusal :=
  let x := s.chip.app k.val
  if x.owner.world = o.world ∨ ¬ s.chip.appRuns k then s.go s.chip else s.go (s.chip.setApp k.val (x.writeOwner o))

/-- PARTITION_SWITCH (R457): a write to `cgbowner` that keeps the world. -/
def execPartitionSwitch (k : Fin 16) (o : Owner) (s : State) : Host.Outcome State Fault Refusal :=
  let x := s.chip.app k.val
  if x.owner.world ≠ o.world ∨ ¬ s.chip.appRuns k then s.go s.chip else s.go (s.chip.setApp k.val (x.writeOwner o))

/-- The core after its scrub: every integer register but x10 to x17, every floating-point and vector register and the
vector state are cleared (R458). -/
def AppCore.scrub (x : AppCore) : AppCore :=
  { x with
    x := x.x.filter fun e => decide (10 ≤ e.1 ∧ e.1 ≤ 17)
    f := [], v := [], fcsr := 0, vstart := 0, vxsat := 0, vxrm := 0, vl := 0, vtype := 2 ^ 63, armed := false }

/-- SCRUB (R458): the next `mret` carries out the armed scrub. -/
def execScrub (k : Fin 16) (s : State) : Host.Outcome State Fault Refusal :=
  let x := s.chip.app k.val
  if x.armed ∧ s.chip.appRuns k then s.go (s.chip.setApp k.val x.scrub) else s.go s.chip

/-! ### Claims and the forced erase (R459–R461) -/

/-- A unit is claimed, as a half holds the claims. -/
def Chip.claimed (c : Chip) (h : Half) (b : Nat) : Bool := bit (c.q (F.SEC_CLAIM_CLAIM h.idx (b / 32))) (b % 32)

/-- The chip after the security core writes a word of claims: both halves take it (R459). -/
def Chip.writeClaim (c : Chip) (h : Half) (k v : Nat) : Chip :=
  let v := if k = 3 then v % 2 ^ 30 else v % 2 ^ 32
  let old := c.q (F.SEC_CLAIM_CLAIM h.idx k)
  let c := c.upHalves.foldl (fun c x => c.setReg (Reg.SEC_CLAIM x.idx k) v) c
  ((List.range 32).filter fun b => bit old b != bit v b).foldl (fun c b => c.ev h 0x0D08 [32 * k + b, b2n (bit v b)]) c

/-- SEC_CLAIM (R459, R478): writes of the security core alone act. -/
def execSecClaim (i : Initiator) (h : Half) (k : Fin 4) (v : Word) (s : State) : Host.Outcome State Fault Refusal :=
  if i.via = .secCore ∧ ¬ s.chip.down.get h then s.go (s.chip.writeClaim h k.val v.toNat) else s.go s.chip

/-- The chip after a request about a unit is refused because it is claimed (R460). -/
def Chip.refusedClaimed (c : Chip) (h : Half) (b : Nat) (o : Owner) : Chip :=
  (c.inc (F.SEC_REFUSED_CNT_COUNT h.idx)).evOf h 0x0D09 o [b, o.toNat]

/-- The chip with the registers of an address range at their reset values. -/
def Chip.clearRegs (c : Chip) (a n : Nat) : Chip := { c with regs := c.regs.filter fun e => ¬ (a ≤ e.1 ∧ e.1 < a + n) }

/-- The chip with the stores, tiles, accumulators and registers of a claimed unit erased (R461). -/
def Chip.eraseUnit (c : Chip) (b : Nat) : Chip :=
  if b < 8 then { (c.zeroRange (arrayStore b) 0x1000000).clearRegs (0x300000 + b * 0x10000) 0x10000 with arrays := Tbl.del c.arrays b }
  else if b < 40 then
    let n := b - 8
    { ((c.zeroRange (benchStore n) 0x200000).zeroRange (dataStore n 0) 0x400000).clearRegs (0x400000 + n * 0x8000) 0x8000 with
      benches := Tbl.del c.benches n
      cores := c.cores.filter fun e => e.1 / 64 != n }
  else if b < 56 then c.clearRegs (0x500000 + (b - 40) * 0x10000) 0x8000
  else if b < 88 then { c.clearRegs (0xD00000 + (b - 56) * 0x1000) 0x1000 with cvuRun := Tbl.del c.cvuRun (b - 56) }
  else if b < 100 then c.clearRegs (0xB00100 + (b - 88) * 0x20) 0x20
  else if b < 108 then (c.clearRegs (0xB00400 + (b - 100) * 0x20) 0x20).clearRegs (0xB20000 + (b - 100) * 0x800) 0x800
  else if b < 110 then c.clearRegs (0x1204000 + (b - 108) * 0x80000) 0x1000
  else { c with apps := Tbl.del c.apps (b - 110) }

/-- The Heartwood granules of a half's DRAM. -/
def Chip.heartwood (c : Chip) (h : Half) : List Nat :=
  (c.own.filter fun e => decide (e.1 < 1048576) && dramHalf (granuleAddr e.1) == h && bit e.2.toNat 12).map (·.1)

/-- The chip after the keys of R215 of a half are gone: its Heartwood granules cannot be read by anyone. -/
def Chip.loseKeys (c : Chip) (h : Half) : Chip :=
  let l := c.heartwood h
  let c := (c.setSec h { c.secOf h with memKeys := false })
  { c with
    mem := c.mem.filter fun e => ¬ (inDram e.1 ∧ l.contains ((e.1 - 0x1000000000) / 65536))
    garbled := l.foldl (fun g n => Tbl.ins g (granuleAddr n / 65536) c.freeCnt) c.garbled
    freeCnt := c.freeCnt + 1 }

/-! ### Signed objects (R462, R463, R467) -/

/-- A signature record read (R462). -/
structure Sig where
  typ : Nat
  ctr : Nat
  version : Nat
  arg : Nat
  length : Nat
  digest : List Byte
  signer : List Byte
  signed : List Byte
  sig : List Byte
deriving DecidableEq, Repr

/-- The bytes `k` to `k + n` of a record as a number. -/
def fieldAt (l : List Byte) (k n : Nat) : Nat := leNat ((l.drop k).take n)

/-- A signature record of a type; none where its `MAGIC`, length or type is another. -/
def readSig (typ : Nat) (l : List Byte) : Option Sig :=
  if l.length = 224 ∧ fieldAt l 0 4 = 0xD1A50001 ∧ fieldAt l 4 1 = typ then
    some ⟨typ, fieldAt l 5 1 % 16, fieldAt l 8 4, fieldAt l 12 4, fieldAt l 16 8, (l.drop 24).take 48, (l.drop 72).take 48, l.take 128, l.drop 128⟩
  else none

/-- An owner is bound (R466). -/
def Chip.bound (c : Chip) : Bool := c.bind.owner != List.replicate 48 0

/-- The key digests that R463 admits for a type on a half; `extra` are keys carried with the object. -/
def Chip.admitted (c : Chip) (h : Half) (typ : Nat) (extra : List (List Byte)) : List (List Byte) :=
  let owner := if c.bound then c.bind.owner :: ((c.secOf h).delegated ++ extra) else []
  match typ with
  | 1 | 7 => (c.secOf h).darienor
  | 5 => if c.bound then [c.bind.owner] else (c.secOf h).darienor
  | _ => owner

/-- Why a record does not verify over an object of a digest: 0 digest, 1 signer, 2 signature; none if it does (R462). -/
def Chip.sigFault (c : Chip) (h : Half) (x : Sig) (digest : List Byte) (extra : List (List Byte)) : Option Nat :=
  if x.digest ≠ digest then some 0
  else if ¬ (c.admitted h x.typ extra).contains x.signer then some 1
  else if ¬ Config.ecdsaVerifies x.signer x.signed x.sig then some 2 else none

/-- The chip after a verification fails. -/
def Chip.sigFailed (c : Chip) (h : Half) (typ : Nat) (signer : List Byte) (k : Nat) : Chip :=
  (c.inc (F.SEC_SIG_FAIL_COUNT h.idx)).ev h 0x0D10 [typ, leNat (signer.take 8), k]

/-- An anti-rollback counter in force. -/
def Chip.ctrOf (c : Chip) (k : Nat) : Nat := c.bind.ctrs.getD k 0

/-- The chip with the values in force replaced, in the registers and in the record of each half that is up, which writes its own
(R466). -/
def Chip.setBind (c : Chip) (b : Rpmb) : Chip :=
  let own (h : Half) : Option Rpmb := if c.down.get h then c.rpmb.get h else (c.rpmb.get h).map fun _ => b
  let c := { c with bind := b, rpmb := ⟨own .H, own .T⟩ }
  let c := b.ctrs.zipIdx.foldl (fun c p => c.putUp (fun i => F.SEC_CTR_VALUE i p.2) p.1) c
  c.putUp F.SEC_STATUS_BOUND (b2n (b.owner != List.replicate 48 0))

/-- The chip after an accepted object with `COMMIT` raises its counter, with event 0x0D12 (R467). -/
def Chip.commit (c : Chip) (h : Half) (x : Sig) : Chip :=
  let old := c.ctrOf x.ctr
  if bit x.arg 0 ∧ old < x.version then
    (c.setBind { c.bind with ctrs := c.bind.ctrs.set x.ctr x.version }).ev h 0x0D12 [x.ctr, old, x.version]
  else c

/-- The chip after an object is refused for its version (R467). -/
def Chip.oldVersion (c : Chip) (h : Half) (x : Sig) : Chip := c.ev h 0x0D11 [x.typ, x.ctr, x.version, c.ctrOf x.ctr]

/-! ### The start of a half's firmware (R464–R466) -/

/-- The device ID (R464). -/
def deviceId : List Byte := (sha384 (Config.idKey 0 ++ Config.idKey 1)).take 16

/-- The key digest of a certificate of a kind that an issuer has signed (R463). -/
def certKey (kind : Nat) (issuer cert : List Byte) : Option (List Byte) :=
  if cert.length = 272 ∧ fieldAt cert 0 4 = 1 ∧ fieldAt cert 4 4 = kind ∧ (cert.drop 128).take 48 = issuer ∧
      Config.ecdsaVerifies issuer (cert.take 176) (cert.drop 176) then some (sha384 ((cert.drop 28).take 97)) else none

/-- The larger of two records, counter by counter and of `BIND_SEQ`; the second component tells of a conflict (R466). -/
def Rpmb.merge (a b : Rpmb) : Rpmb × Bool :=
  let clash := a.bindSeq == b.bindSeq && a.owner != b.owner
  let owner := if clash then List.replicate 48 0 else if a.bindSeq < b.bindSeq then b.owner else a.owner
  (⟨owner, max a.bindSeq b.bindSeq, List.zipWith max a.ctrs b.ctrs, a.vendor || b.vendor⟩, clash)

/-- The chip after a half reads its RPMB record: an unprogrammed one is programmed, and both halves' records take the
values in force (R466). -/
def Chip.readRpmb (c : Chip) (h : Half) : Chip :=
  let k := h.other
  let peer := if c.down.get k then none else c.rpmb.get k
  let c := match c.rpmb.get h with
    | some _ => c
    | none =>
      let c := { c with rpmb := c.rpmb.set h (some (peer.getD Rpmb.zero)) }
      (c.put (F.SEC_STATUS_RPMB_FRESH h.idx) 1).ev h 0x0D13 [h.idx, b2n peer.isSome]
  let own := (c.rpmb.get h).getD Rpmb.zero
  let (b, clash) := match peer with | some p => own.merge p | none => (own, false)
  let c := if clash then c.ev h 0x0D13 [h.idx, 2] else c
  c.setBind b

/-- The chip after a half's start stops, with the cause in `BOOT_ERR` (R465). -/
def Chip.bootStop (c : Chip) (h : Half) (k : Nat) : Chip := c.put (F.SEC_STATUS_BOOT_ERR h.idx) k

/-- The chip after firmware of a signature record and digest starts on a half. -/
def Chip.startFirmware (c : Chip) (h : Half) (x : Sig) (copy : Nat) : Chip :=
  let c := c.commit h x
  let c := ((c.put (F.SEC_FW_VER_VALUE h.idx) x.version).put (F.SEC_STATUS_FW_COPY h.idx) copy).put (F.SEC_STATUS_BOOT_ERR h.idx) 0
  let c := c.setSec h { c.secOf h with
    booted := true
    memKeys := true
    measures := [⟨0, h.idx, 0, 0, Config.romDigest h.idx⟩, ⟨1, h.idx, x.ctr, x.version, x.digest⟩] }
  c.milestone h 2

/-- The first firmware copy that is verified, fits its area and is not too old starts; each one passed by raises its event. Counter 0
serves firmware, whatever its record names (R465, R467, R480). -/
def Chip.tryFirmware (c : Chip) (h : Half) : List (FlashCopy × Nat) → Chip
  | [] =>
    (({ c.bootStop h 3 with start := c.start.set h { c.start.get h with recovery := true } }).put (F.SYS_START_PHASE h.idx) 14).ev h 0x0E08 [h.idx, 1]
  | (f, k) :: l =>
    match readSig 1 f.sig, f.obj with
    | some x, some o =>
      match c.sigFault h x (sha384 o) [] with
      | some e => (c.sigFailed h 1 x.signer e).tryFirmware h l
      | none =>
        if 0xFFF000 < x.length then (c.sigFailed h 1 x.signer 3).tryFirmware h l
        else if x.version < c.ctrOf 0 then (c.oldVersion h { x with ctr := 0 }).tryFirmware h l
        else c.startFirmware h { x with ctr := 0 } k
    | _, _ => (c.sigFailed h 1 [] 3).tryFirmware h l

/-- ROM_START (R465): the security core of a half runs the boot ROM and starts a verified firmware copy. -/
def execRomStart (h : Half) (r : RomRead) (s : State) : Host.Outcome State Fault Refusal :=
  let c := s.chip
  if c.down.get h ∨ (c.secOf h).booted ∨ c.q (F.SEC_STATUS_BOOT_ERR h.idx) ≠ 0 then s.go c
  else if ¬ r.idOk then s.go ((c.bootStop h 2).ev h 0x0D18 [h.idx])
  else
    let c := (deviceId.zipIdx.foldl (fun c p => c.setReg (Reg.SEC_DEVID h.idx (p.2 / 4))
      (c.reg (Reg.SEC_DEVID h.idx (p.2 / 4)) % 256 ^ (p.2 % 4) + p.1.toNat * 256 ^ (p.2 % 4))) c).put (F.SEC_ID_ID_OK h.idx) 1
    if sha384 r.root ≠ Config.romRoot h.idx then s.go (c.bootStop h 1)
    else if ¬ r.rpmbOk then s.go (c.bootStop h 4)
    else
      let c := c.setSec h { c.secOf h with darienor := r.certs.filterMap (certKey 1 (sha384 r.root)) }
      let c := c.readRpmb h
      let c := c.setSec h { c.secOf h with sealFor := some c.bind.bindSeq }
      let c := (c.put (F.SEC_STATUS_DEBUG h.idx) (if c.bind.vendor then 2 else 0)).syncDebug c
      let ver (f : FlashCopy) : Nat := fieldAt f.sig 8 4
      s.go (c.tryFirmware h (if ver r.a < ver r.b then [(r.b, 1), (r.a, 0)] else [(r.a, 0), (r.b, 1)]))

/-- OWNER_BINDING (R468): firmware of a half takes an owner binding record, type 5, with its object; one that names another device is
not accepted. -/
def execOwnerBinding (h : Half) (record object : List Byte) (s : State) : Host.Outcome State Fault Refusal :=
  let c := s.chip
  if ¬ (c.secOf h).booted ∨ c.down.get h then s.go c
  else match readSig 5 record with
    | none => s.go (c.sigFailed h 5 [] 3)
    | some x =>
      match c.sigFault h x (sha384 object) [] with
      | some k => s.go (c.sigFailed h 5 x.signer k)
      | none =>
        if object.length = 64 ∧ object.take 16 = deviceId then
          let c := c.setBind { c.bind with owner := object.drop 16, bindSeq := (c.bind.bindSeq + 1) % 2 ^ 32 }
          s.go (c.upHalves.foldl (fun c k => c.setSec k { c.secOf k with sealFor := some c.bind.bindSeq }) c)
        else s.go c

/-! ### Models (R288–R291, R469) -/

/-- How a model fits a half: the bytes it takes, whether it is streamed, and ⌈16 s⌉; or the ⌈16 s⌉ with which it does not
fit, 0 where it does not come to s (R290). -/
def fitHalf (w a lmax wmin rate tb f slow : Nat) (classA backed : Bool) : Except Nat (Nat × Bool × Nat) :=
  if w + a ≤ f then .ok (w + a, false, 16)
  else if classA ∨ ¬ backed ∨ slow = 0 then .error 0
  else if f < a + 2 * lmax ∨ f - a - 2 * lmax < wmin then .error 0
  else
    let e := w - (f - a - 2 * lmax)
    let d := rate * tb
    if d = 0 then .error 0
    else
      let s16 := (16 * (d + e) + d - 1) / d
      if slow * d < 16 * (d + e) then .error s16 else .ok (f, true, s16)

/-- F of R290: a partition's budget on a half less what its models hold there. -/
def Chip.modelRoom (c : Chip) (p : Nat) (h : Half) : Nat :=
  let g := match h with | .H => c.q (F.SCHED_PART_MEM_H_GRANULES p) | .T => c.q (F.SCHED_PART_MEM_T_GRANULES p)
  g * 65536 - ((c.models.filter fun m => m.2.owner.part == p).map fun m => match h with | .H => m.2.bytesH | .T => m.2.bytesT).sum

/-- The chip after a verified model is fitted on the halves named (R290, R291, R295). -/
def Chip.fitModel (c : Chip) (m : Cmd) (man : List Byte) (halves : Nat) (x : Sig) : Chip :=
  let p := m.owner.part
  let fld (k n : Nat) : Nat := fieldAt man k n
  let classA := decide (p ≠ 0) && c.partClass p == 0
  let fit (h : Half) : Except Nat (Nat × Bool × Nat) :=
    if bit halves h.idx then
      fitHalf (fld 0 8) (fld 8 8) (fld 16 8) (fld 24 8) (fld 36 4) (fld 32 4) (c.modelRoom p h) (c.q (F.SCHED_PART_CFG_SLOWDOWN p)) classA (m.fld 2 0 48 != 0)
    else .ok (0, false, 0)
  let refuse (h : Half) (k : Nat) : Chip :=
    ((c.complete (m.endWith .noRoom 0) 0).inc F.SCHED_NOROOM_CNT_COUNT).evCmd m.half 0x050A m [p, h.idx, fld 0 8 + fld 8 8, c.modelRoom p h, k]
  if classA ∧ halves ≠ 3 then refuse (if bit halves 0 then .T else .H) 0
  else match fit .H, fit .T with
    | .error k, _ => refuse .H k
    | _, .error k => refuse .T k
    | .ok (bh, sh, kh), .ok (bt, st, kt) =>
      let gr := (bh + 65535) / 65536 + (bt + 65535) / 65536
      let c := c.commit m.half x
      let no := c.modelNext % 65536
      let c := { c with
        models := Tbl.ins c.models no ⟨m.owner, bh, bt, sh || st, x.ctr, x.version, x.digest, none⟩
        modelNext := c.modelNext + 1 }
      let k := max kh kt
      let c := if sh || st then c.evCmd m.half 0x0509 m [p, halves, k] else c.evCmd m.half 0x0508 m [p, halves, gr]
      c.complete m (k % 256 + 256 * b2n (sh || st) + no * 2 ^ 16 + gr % 2 ^ 32 * 2 ^ 32)

/-- Why the backing of a model cannot stream its weights: it is no page of a window, or the party does not reach it (R288). -/
def Chip.backingFault (c : Chip) (m : Cmd) : Option (Nat × Nat) :=
  let b := m.fld 2 0 48
  if b = 0 then none
  else if ¬ isPcie b ∧ ¬ isPeer b then some (b, 1)
  else match c.cause m.owner false b with
    | 0 => none
    | k => some (b, k)

/-- MODEL_LOAD (R288–R291, R469), opcode 0x70; `digest` is the SHA-384 of the manifest and the weight bytes in the order in
which the loader reads them. A `BACKING` that is no page of a window, or none that the party reaches, ends it with FAULT (DESIGN
CHOICE, assumption 124). `o` is what its reads show. -/
def execModelLoad (id : CmdId) (digest : BitVec 384) (s : State) (o : Seen := []) : Host.Outcome State Fault Refusal :=
  let c := s.chip
  match c.takeable id (· == 0x70) with
  | none => s.go c
  | some m =>
    let a := alignDown (m.fld 1 0 48) 64
    let halves := m.fld 2 48 2
    if halves = 0 then s.go (c.failCmd m 0)
    else match c.backingFault m with
    | some e => s.go (c.failReach m e)
    | none => match c.readSeen m a 64 .answered o with
      | (.error e, c) => s.go (c.failRead m e)
      | (.ok man, c) =>
        match c.readSeen m (fieldAt man 40 6) 224 .answered o with
        | (.error e, c) => s.go (c.failRead m e)
        | (.ok rec, c) =>
          let c := c.touches m [(a, 64), (fieldAt man 40 6, 224)]
          match readSig 4 rec with
          | none => s.go ((c.failCmd m 0).sigFailed m.half 4 [] 3)
          | some x =>
            match c.sigFault m.half x (toBE 48 digest.toNat) [] with
            | some k => s.go ((c.failCmd m 0).sigFailed m.half 4 x.signer k)
            | none => if x.version < c.ctrOf x.ctr then s.go ((c.failCmd m 0).oldVersion m.half x) else s.go (c.fitModel m man halves x)

/-- A command that has started and not ended may use its party's models: one that runs, is pre-empted, or waits in its engine. -/
def Cmd.mayUse (m : Cmd) : Bool := m.stage == .running || m.stage == .preempted || (m.stage == .waiting && decide (0x10 ≤ m.opcode ∧ m.opcode < 0x70))

/-- MODEL_UNLOAD (R288), opcode 0x71: the model's granules return to the budget once no other command of the party that has started is
left. -/
def execModelUnload (id : CmdId) (s : State) : Host.Outcome State Fault Refusal :=
  let c := s.chip
  let ready : Option Cmd := match c.takeable id (· == 0x71) with
    | some m => some m
    | none => c.cmds.find? fun m => m.id == id && m.opcode == 0x71 && m.stage == .waiting
  match ready with
  | none => s.go c
  | some m =>
    match Tbl.find? c.models (m.fld 1 0 32) with
    | none => s.go (c.failCmd m 0)
    | some x =>
      if x.owner ≠ m.owner then s.go (c.failCmd m 0)
      else if c.cmds.any fun k => k.owner == m.owner && k.id != id && k.mayUse then s.go (c.setCmd { m with stage := .waiting })
      else s.go (Chip.complete { c with models := Tbl.del c.models (m.fld 1 0 32) } m 0)

/-! ### Attestation (R470) -/

/-- Bytes cut or filled with zeros to a length. -/
def padTo (n : Nat) (l : List Byte) : List Byte := (l ++ List.replicate n 0).take n

/-- The entry of a measurement in a report. -/
def Measure.bytes (x : Measure) : List Byte :=
  toLE 1 x.typ ++ toLE 1 x.half ++ toLE 1 x.ctr ++ toLE 1 0 ++ toLE 4 x.version ++ toLE 8 0 ++ padTo 48 x.digest

/-- The measurements that a requester is shown: those of each half in service, then its partition's models in load order. -/
def Chip.measureList (c : Chip) (o : Owner) : List Measure :=
  ([Half.H, Half.T].filter fun h => !c.down.get h).flatMap (fun h => (c.secOf h).measures) ++
    ((c.models.filter fun m => m.2.owner.part == o.part && m.2.owner.world == o.world).map fun m => ⟨4, 0, m.2.ctr, m.2.version, m.2.digest⟩)

/-- The attestation report of a half for a requester, and N (R470). -/
def Chip.report (c : Chip) (h : Half) (o : Owner) (nonce : List Byte) : List Byte × Nat :=
  let all := c.measureList o
  let l := all.take 32
  let flags := b2n (c.on (F.SEC_STATUS_RPMB_FRESH 0) || c.on (F.SEC_STATUS_RPMB_FRESH 1)) + 2 * b2n c.bound + 4 * b2n (c.inService h.other) +
    8 * b2n c.degradedBy.isSome + 16 * b2n (decide (32 < all.length))
  let body := toLE 4 0xD1A50002 ++ toLE 2 1 ++ toLE 1 h.idx ++ toLE 1 (c.q (F.SEC_STATUS_DEBUG h.idx)) ++ padTo 16 deviceId ++ padTo 16 nonce ++
    toLE 8 (c.stamp h 0) ++ toLE 4 c.bind.bindSeq ++ toLE 4 flags ++ ((List.range 16).flatMap fun k => toLE 4 (c.ctrOf k)) ++
    padTo 48 c.bind.owner ++ toLE 2 o.toNat ++ toLE 2 0 ++ toLE 4 l.length ++ l.flatMap Measure.bytes
  (body ++ padTo 96 (Config.ecdsaSign h.idx body), l.length)

/-- ATTESTATION_REQUEST (R470), opcode 0x90. -/
def execAttestationRequest (id : CmdId) (s : State) : Host.Outcome State Fault Refusal :=
  let c := s.chip
  match c.takeable id (· == 0x90) with
  | none => s.go c
  | some m =>
    let h := ringHalf m.id.ring.val
    if ¬ c.on (F.SEC_ID_ID_OK h.idx) then s.go (c.failCmd m 0)
    else
      let (r, n) := c.report h m.owner (toLE 8 (m.word 2) ++ toLE 8 (m.word 3))
      match c.place m (alignDown (m.fld 1 0 48) 64) r .answered with
      | .error e => s.go (c.failReach m e)
      | .ok c => s.go ((((c.touches m [(alignDown (m.fld 1 0 48) 64, r.length)]).inc (F.SEC_ATTEST_CNT_COUNT h.idx)).evCmd h 0x0D28 m [m.owner.toNat, n]).complete m (r.length % 65536 + n * 65536))

/-! ### Debug states (R471–R474) -/

/-- The chip after a debug command ends: a result other than 0 raises event 0x0D21. -/
def Chip.dbgResult (c : Chip) (h : Half) (op k : Nat) : Chip :=
  let c := c.put (F.SEC_DBG_RESULT_RESULT h.idx) k
  if k = 0 then c else c.ev h 0x0D21 [op, k]

/-- The chip after the debug state changes, in every half that is up (R471). -/
def Chip.setDebug (c : Chip) (h : Half) (v scope : Nat) : Chip :=
  let st := c.q (F.SEC_STATUS_DEBUG h.idx)
  let old := c
  let c := (c.putUp F.SEC_STATUS_DEBUG v).putUp F.SEC_DBG_SCOPE_SCOPE (scope % 65536 / 2 * 2)
  (Chip.ev { c with halted := if v = 1 then c.halted else [] } h 0x0D20 [st, v, scope % 65536 / 2 * 2]).syncDebug old

/-- The chip after a write of `SEC_DBG_CMD`: the mailbox is reached from the debug port and by firmware alone (R478). -/
def Chip.mailbox (c : Chip) (i : Initiator) (h : Half) (f : Chip → Chip) : Chip :=
  if c.down.get h then c
  else if i.via = .debugPort ∨ i.isFirmware then f c
  else c.refusalEvent h none i.owner (Reg.SEC_DBG_CMD h.idx) 1 i.port

/-- CHALLENGE (R472): a challenge of 32 bytes is issued. -/
def execChallenge (i : Initiator) (h : Half) (s : State) : Host.Outcome State Fault Refusal :=
  s.go (s.chip.mailbox i h fun c =>
    let n := c.freeCnt
    let c := (List.range 8).foldl (fun (c : Chip) k =>
      c.setReg (Reg.SEC_DBG_CHAL h.idx k) (leNat ((List.range 4).map fun j => Config.entropyByte n (4 * k + j)))) { c with freeCnt := n + 1 }
    (c.setSec h { c.secOf h with chal := some (c.stamp h 0) }).dbgResult h 1 0)

/-- CHALLENGE_EXPIRY (R472): `CHAL_S` seconds have passed since the challenge was issued. -/
def execChallengeExpiry (h : Half) (s : State) : Host.Outcome State Fault Refusal :=
  let c := s.chip
  match (c.secOf h).chal with
  | none => s.go c
  | some t =>
    if ((c.q (F.SEC_CTL_CHAL_S h.idx) * 64000000000 : Nat) : Int) ≤ elapsed (c.stamp h 0) t then s.go (c.setSec h { c.secOf h with chal := none })
    else s.go c

/-- The mailbox's record. -/
def Chip.mboxRecord (c : Chip) (h : Half) : List Byte := (List.range 56).flatMap fun k => toLE 4 (c.reg (Reg.SEC_DBG_MBOX h.idx k))

/-- The digest that a type 6 or type 7 record must hold (R472). -/
def Chip.challengeDigest (c : Chip) (h : Half) : List Byte :=
  sha384 (((List.range 8).flatMap fun k => toLE 4 (c.reg (Reg.SEC_DBG_CHAL h.idx k))) ++ deviceId)

/-- A record of a type that verifies against the challenge, or the chip and the result of its refusal; the challenge is
used. -/
def Chip.dbgVerify (c : Chip) (h : Half) (typ : Nat) : (Except Nat Sig) × Chip :=
  match (c.secOf h).chal with
  | none => (.error 0x47, c)
  | some t =>
    let c := c.setSec h { c.secOf h with chal := none }
    if ((c.q (F.SEC_CTL_CHAL_S h.idx) * 64000000000 : Nat) : Int) ≤ elapsed (c.stamp h 0) t then (.error 0x47, c)
    else match readSig typ (c.mboxRecord h) with
      | none => (.error 0x46, c.sigFailed h typ [] 3)
      | some x => match c.sigFault h x (c.challengeDigest h) [] with
        | some k => (.error 0x46, c.sigFailed h typ x.signer k)
        | none => (.ok x, c)

/-- DEBUG_OPEN (R471, R472): a verified type 6 record opens the device to its owner. -/
def execDebugOpen (i : Initiator) (h : Half) (s : State) : Host.Outcome State Fault Refusal :=
  s.go (s.chip.mailbox i h fun c =>
    if c.q (F.SEC_STATUS_DEBUG h.idx) ≠ 0 then c.dbgResult h 2 0x40
    else if ¬ c.bound then c.dbgResult h 2 0x48
    else match c.dbgVerify h 6 with
      | (.error k, c) => c.dbgResult h 2 k
      | (.ok x, c) => (c.setDebug h 1 x.arg).dbgResult h 2 0)

/-- DEBUG_CLOSE (R471). -/
def execDebugClose (i : Initiator) (h : Half) (s : State) : Host.Outcome State Fault Refusal :=
  s.go (s.chip.mailbox i h fun c =>
    if c.q (F.SEC_STATUS_DEBUG h.idx) ≠ 1 then c.dbgResult h 3 0x40 else (c.setDebug h 0 0).dbgResult h 3 0)

/-- TOKEN (R471, R474): a verified type 7 token enters Vendor-return, recording it in both RPMB records and beginning the
erase, or leaves it. -/
def execToken (i : Initiator) (h : Half) (s : State) : Host.Outcome State Fault Refusal :=
  s.go (s.chip.mailbox i h fun c =>
    match c.dbgVerify h 7 with
    | (.error k, c) => c.dbgResult h 4 k
    | (.ok x, c) =>
      let st := c.q (F.SEC_STATUS_DEBUG h.idx)
      if x.arg = 1 ∧ st ≠ 2 then
        let c := c.setBind ⟨List.replicate 48 0, (c.bind.bindSeq + 1) % 2 ^ 32, (c.ctrOf 0) :: List.replicate 15 0, true⟩
        Chip.dbgResult { c.setDebug h 2 0 with erasing := true } h 4 0
      else if x.arg = 2 ∧ st = 2 then
        (Chip.setDebug (c.setBind { c.bind with owner := List.replicate 48 0, vendor := false }) h 0 0).dbgResult h 4 0
      else c.dbgResult h 4 0x40)

/-- The owner on whose behalf a target runs. -/
def Chip.targetOwner (c : Chip) (t : DebugTarget) : Option Owner :=
  match t with
  | .app k => some (c.app k.val).owner
  | .engine (.array a) => some (BitVec.ofNat 13 (c.q (F.ARRAY_STATUS_OWNER a.val)))
  | .engine (.bench b) => some (BitVec.ofNat 13 (c.q (F.BENCH_STATUS_OWNER b.val)))
  | .engine (.attention id) => (c.cmd? id).map (·.owner)
  | .gouge b _ => some (BitVec.ofNat 13 (c.q (F.BENCH_STATUS_OWNER b.val)))

/-- DEBUGGER_HALT (R473): in Owner-open a debugger halts or resumes what runs a Sapwood party of a partition in scope; it
never reaches Heartwood or partition 0. -/
def execDebuggerHalt (t : DebugTarget) (halt : Bool) (s : State) : Host.Outcome State Fault Refusal :=
  let c := s.chip
  match c.targetOwner t with
  | none => s.go c
  | some o =>
    let scope := max (c.q (F.SEC_DBG_SCOPE_SCOPE 0)) (c.q (F.SEC_DBG_SCOPE_SCOPE 1))
    let open' := c.q (F.SEC_STATUS_DEBUG 0) == 1 || c.q (F.SEC_STATUS_DEBUG 1) == 1
    if ¬ open' ∨ o.world ∨ o.part = 0 ∨ ¬ bit scope o.part then s.go c
    else s.go (Chip.syncDebug { c with halted := if halt then t :: c.halted.filter (· != t) else c.halted.filter (· != t) } c)

end Sys2Proof.Machine
end

