-- ==== Sys2Proof/Machine/Start.lean ====
section
/-! DEFINITION. The Liteiq image and the start of the device (R479–R497): reading and choosing an image, clamping it,
applying it, the start-up zeroing, ROM recovery. -/

namespace Sys2Proof.Machine

/-- The start of a half. -/
def Chip.startOf (c : Chip) (h : Half) : StartSt := c.start.get h
/-- The chip with the start of a half replaced. -/
def Chip.setStart (c : Chip) (h : Half) (x : StartSt) : Chip := { c with start := c.start.set h x }

/-! ### The image (R481, R482) -/

/-- A record of an image: its index, type and body. -/
structure ImgRec where
  idx : Nat
  typ : Nat
  body : List Nat
deriving DecidableEq, Repr

/-- A word of a record's body. -/
def ImgRec.w (r : ImgRec) (k : Nat) : Nat := r.body.getD k 0

/-- The 32-bit words of bytes, `n` of them. -/
def words32 (n : Nat) (l : List Byte) : List Nat := (List.range n).map fun k => fieldAt l (4 * k) 4

/-- The records of an image's words; none where they do not fill it, or are too many (R481). -/
def parseImg : Nat → Nat → List Nat → Option (List ImgRec)
  | _, _, [] => some []
  | 0, _, _ :: _ => none
  | n + 1, k, w :: rest =>
    let len := w / 65536
    if 16383 < len ∨ rest.head? ≠ some 0 ∨ rest.length < len + 1 then none
    else (parseImg n (k + 1) (rest.drop (len + 1))).map fun l => ⟨k, w % 65536, (rest.drop 1).take len⟩ :: l

/-- The records of an image object (R481). -/
def imgRecords (obj : List Byte) : Option (List ImgRec) :=
  if obj.length % 4 = 0 then parseImg 262144 0 (words32 (obj.length / 4) obj) else none

/-- The first record of an object is a well-formed HEADER (R482). -/
def headerGood (obj : List Byte) : Bool :=
  fieldAt obj 0 2 == 1 && decide (7 ≤ fieldAt obj 2 2) && fieldAt obj 4 4 == 0 && fieldAt obj 8 4 == 0xD1A50010 && fieldAt obj 12 4 == 1

/-- The certificates of the KEY records of an object, as far as it can be read. -/
def keyCerts (obj : List Byte) : List (List Byte) :=
  match imgRecords obj with
  | some l => ((l.filter fun r => r.typ == 2 && decide (68 ≤ r.body.length)).take 8).map fun r => (r.body.take 68).flatMap (toLE 4)
  | none => []

/-- The owner's delegated keys that an object carries (R463). -/
def Chip.keysOf (c : Chip) (obj : List Byte) : List (List Byte) := (keyCerts obj).filterMap (certKey 3 c.bind.owner)

/-- Why a copy is rejected, by the cause of R484; none if it is not. `typ` 2 with counter 1 and an area of 4 MiB is the
image, 3 with counter 2 and 48 MiB the roughing model. -/
def Chip.copyFault (c : Chip) (h : Half) (typ : Nat) (f : FlashCopy) : Option Nat :=
  let area := if typ = 2 then 0x400000 else 0x3000000
  match readSig typ f.sig with
  | none => some 1
  | some x =>
    if x.version < c.ctrOf (typ - 1) then some 2
    else match f.obj with
      | none => some 6
      | some o =>
        if (c.sigFault h x (sha384 o) (c.keysOf o)).isSome then some 1
        else if area - 0x1000 < x.length then some 3
        else if typ ≠ 2 then none
        else if ¬ headerGood o then some 3
        else if (o.drop 16).take 16 ≠ List.replicate 16 0 ∧ (o.drop 16).take 16 ≠ deviceId then some 4
        else if (imgRecords o).isNone then some 5 else none

/-- The version of a copy or an accepted image. -/
def sigVersion (l : List Byte) : Nat := fieldAt l 8 4

/-- Microseconds by which a rejected copy delays the milestones (R492). -/
def copyDelay (f : FlashCopy) (k : Nat) : Nat := if k = 2 then 100 else fieldAt f.sig 16 8 / 400

/-- The chip after a copy of an object of a type is rejected with a cause, if it is: the milestones are delayed, and what refused it is
reported (R467, R476, R492). -/
def Chip.noteFault (c : Chip) (h : Half) (typ : Nat) (f : FlashCopy) (k : Option Nat) : Chip :=
  match k with
  | none => c
  | some k =>
    let c := c.setStart h { c.startOf h with slackUs := (c.startOf h).slackUs + copyDelay f k }
    let o := f.obj.getD []
    match k, readSig typ f.sig with
    | 1, none => c.sigFailed h typ [] 3
    | 1, some x => c.sigFailed h typ x.signer ((c.sigFault h x (sha384 o) (c.keysOf o)).getD 3)
    | 2, some x => c.oldVersion h { x with ctr := typ - 1 }
    | _, _ => c

/-- The chip after an image copy is rejected with a cause, if it is. -/
def Chip.noteCopy (c : Chip) (h : Half) (no : Nat) (f : FlashCopy) (k : Option Nat) : Chip :=
  let c := c.noteFault h 2 f k
  match k with
  | none => c
  | some k =>
    let c := (c.put (if no = 0 then F.SYS_START_A_REJ h.idx else F.SYS_START_B_REJ h.idx) 1).put (F.SYS_START_CAUSE h.idx) k
    c.ev h 0x0E00 [h.idx, no, k]

/-- The copy that is accepted of two: the highest version not rejected, A on a tie (R484). -/
def chooseCopy (a b : FlashCopy) (ka kb : Option Nat) : Option (FlashCopy × Nat) :=
  match ka, kb with
  | none, none => if sigVersion a.sig < sigVersion b.sig then some (b, 1) else some (a, 0)
  | none, some _ => some (a, 0)
  | some _, none => some (b, 1)
  | some _, some _ => none

/-- The chip after the roughing model copies of a half are chosen (R484); none accepted raises event 0x0E18 (R492). -/
def Chip.acceptRough (c : Chip) (h : Half) (a b : FlashCopy) : Chip :=
  let ka := c.copyFault h 3 a
  let kb := c.copyFault h 3 b
  let c := (c.noteFault h 3 a ka).noteFault h 3 b kb
  match chooseCopy a b ka kb with
  | none => c.ev h 0x0E18 [h.idx, ka.getD 0, kb.getD 0]
  | some (f, _) =>
    match readSig 3 f.sig with
    | none => c
    | some x =>
      let x := { x with ctr := 2 }
      let c := c.commit h x
      c.setSec h { c.secOf h with measures := (c.secOf h).measures ++ [⟨3, h.idx, x.ctr, x.version, x.digest⟩] }

/-- IMAGE_ACCEPT (R484): firmware of a half reads the image copies and the roughing copies of its flash and accepts the
best of each. A half that starts while its peer is in service reads no image copy (R493). -/
def execImageAccept (h : Half) (a b ra rb : FlashCopy) (s : State) : Host.Outcome State Fault Refusal :=
  let c := s.chip
  if ¬ (c.secOf h).booted ∨ c.down.get h ∨ (c.startOf h).decided then s.go c
  else
    let c := c.acceptRough h ra rb
    if c.inService h.other then s.go (c.setStart h { c.startOf h with decided := true })
    else
      let ka := c.copyFault h 2 a
      let kb := c.copyFault h 2 b
      let c := (c.noteCopy h 0 a ka).noteCopy h 1 b kb
      let c := c.setStart h { c.startOf h with decided := true }
      match chooseCopy a b ka kb with
      | none => s.go c
      | some (f, no) =>
        match readSig 2 f.sig with
        | none => s.go c
        | some x =>
          let c := (c.commit h { x with ctr := 1 }).setStart h { c.startOf h with own := some ⟨f.sig, f.obj.getD [], no⟩ }
          s.go (((c.put (F.SYS_START_IMG_COPY h.idx) no).ev h 0x0E01 [h.idx, no, x.version, 0]).milestone h 3)

/-- The chip after a half takes an image as the one in force; its delegated keys and its measurement come with it. -/
def Chip.useImage (c : Chip) (h : Half) (g : Img) : Chip :=
  let x := c.secOf h
  let c := c.setSec h { x with
    delegated := c.keysOf g.obj
    measures := x.measures ++ [⟨2, h.idx, 1, sigVersion g.sig, (g.sig.drop 24).take 48⟩] }
  (c.setStart h { c.startOf h with chosen := some g }).milestone h 4

/-- The chip after a half enters the provisioning state (R495). -/
def Chip.provision (c : Chip) (h : Half) : Chip := (c.put (F.SYS_START_PHASE h.idx) 15).ev h 0x0E08 [h.idx, 0]

/-- The chip after a half takes the image of its peer, which it verifies itself (R485). -/
def Chip.peerImage (c : Chip) (h : Half) (g : Img) : Chip :=
  let f : FlashCopy := ⟨g.sig, some g.obj⟩
  if (c.copyFault h 2 f).isSome then (c.noteFault h 2 f (c.copyFault h 2 f)).provision h
  else ((c.useImage h g).put (F.SYS_START_IMG_PEER h.idx) 1).ev h 0x0E01 [h.idx, g.copy, sigVersion g.sig, 1]

/-- IMAGE_AGREEMENT (R485, R493): the halves have exchanged digests, or the 50 ms are over, and a half's image is chosen. -/
def execImageAgreement (h : Half) (s : State) : Host.Outcome State Fault Refusal :=
  let c := s.chip
  let x := c.startOf h
  let y := c.startOf h.other
  if ¬ x.decided ∨ c.down.get h ∨ x.chosen.isSome ∨ c.q (F.SYS_START_PHASE h.idx) = 15 then s.go c
  else if c.inService h.other then
    s.go (match y.chosen with | some g => c.peerImage h g | none => c.provision h)
  else
    match x.own, (if c.down.get h.other then none else y.own) with
    | none, none => s.go (c.provision h)
    | some g, none => s.go (c.useImage h g)
    | none, some g => s.go (c.peerImage h g)
    | some g, some k =>
      let d (i : Img) : List Byte := (i.sig.drop 24).take 48
      if d g = d k then s.go (c.useImage h g)
      else
        let vg := sigVersion g.sig
        let vk := sigVersion k.sig
        let mine := decide (vk < vg) || (vg == vk && h == .H)
        let c := c.ev h 0x0E02 [if h = .H then vg else vk, if h = .H then vk else vg, if mine then h.idx else h.other.idx]
        s.go (if mine then c.useImage h g else c.peerImage h k)

/-! ### Clamping (R483, R487, R488) -/

/-- A field that the image sets: address, lowest bit, width, the value given, the record that set it last; its range and
default. -/
structure Staged where
  addr : Nat
  lo : Nat
  wid : Nat
  given : Nat
  recd : Nat
  typ : Nat
  least : Nat
  most : Nat
  dflt : Nat
  /-- Its codes are not all assigned, and this one is not. -/
  bad : Bool
deriving DecidableEq, Repr

/-- An entry of the clamp report (R489). -/
structure Clamp where
  recd : Nat
  typ : Nat
  cause : Nat
  wid : Nat
  addr : Nat
  lo : Nat
  given : Nat
  applied : Nat
deriving DecidableEq, Repr

/-- An image on its way to the registers: the registers it sets, as a chip of its own, its fields, its report. -/
structure Draft where
  chip : Chip
  fields : List Staged
  rep : List Clamp

/-- A controller code (R406). -/
def ctrlCode (v : Nat) : Bool := decide (v < 12 ∨ (16 ≤ v ∧ v < 24) ∨ v = 31)

/-- The codes of a field that are assigned, by block, offset and lowest bit; none for a field without reserved codes. -/
def codesOf (base off lo : Nat) : Option (Nat → Bool) :=
  match base, off, lo with
  | 0xB00000, 0x100, 28 => some fun v => decide (v ≤ 3)
  | 0xB00000, 0x400, 28 => some fun v => decide (v ≤ 5)
  | 0xB00000, 0x400, 26 => some fun v => decide (v ≤ 2)
  | 0xB00000, 0x10000, 16 => some fun v => v % 4 != 3
  | 0xB00000, 0x10000, 26 | 0xB00000, 0x10000, 21 => some ctrlCode
  | 0xB00000, 0x40000, 20 | 0xB00000, 0x40000, 15 => some ctrlCode
  | 0xB00000, 0x40000, 25 => some fun v => decide (v ≤ 5)
  | 0xB00000, 0x60000, 26 => some ctrlCode
  | 0xC00000, 0x4, 28 => some fun v => decide (v ≤ 8)
  | 0xC00000, 0x4, 22 => some fun v => decide (v ≤ 2)
  | 0xC80000, 0x4, 29 => some fun v => decide (v ≤ 2)
  | 0xC80000, 0x20, 30 => some fun v => decide (v ≤ 2)
  | 0xD00000, 0x804, 28 => some fun v => decide (v ≤ 2)
  | 0xA00000, 0x1020, 28 | 0xA00000, 0x1040, 28 => some fun v => decide (v ≤ 6)
  | 0xA00000, 0x1060, 28 => some fun v => decide (v ≤ 2)
  | _, _, _ => none

/-- A word of a Steady coefficient page, a gateway frame template or a gate control list (R483). -/
def imageWord (a : Nat) : Bool :=
  decide (0x01600000 ≤ a ∧ a < 0x01800000) || decide (0xB20000 ≤ a ∧ a < 0xB24000) ||
    decide (0xA20000 ≤ a ∧ a < 0xA40000) || decide (0xAA0000 ≤ a ∧ a < 0xAC0000)

/-- Adds a report entry. -/
def Draft.report (t : Draft) (k : Clamp) : Draft := { t with rep := t.rep ++ [k] }

/-- The stage after a record is skipped. -/
def Draft.skip (t : Draft) (r : ImgRec) : Draft := t.report ⟨r.idx, r.typ, 6, 0, 0, 0, 0, 0⟩

/-- The stage after a record gives a word: every image-writable field of it takes its bits; the last record wins (R483). -/
def Draft.give (t : Draft) (r : ImgRec) (a v : Nat) : Draft :=
  let put (t : Draft) (x : Staged) : Draft := { t with fields := (t.fields.filter fun y => !(y.addr == x.addr && y.lo == x.lo)) ++ [x] }
  if a % 4 = 0 ∧ imageWord a then put t ⟨a, 0, 32, v, r.idx, r.typ, 0, 2 ^ 32 - 1, 0, false⟩
  else match findReg a with
    | none => t.report ⟨r.idx, r.typ, 5, 32, a, 0, v, 0⟩
    | some f =>
      let fs := f.row.fields.filter fun x => x.img && x.acc != .ro
      if fs.isEmpty then t.report ⟨r.idx, r.typ, 5, 32, a, 0, v, 0⟩
      else fs.foldl (fun t x =>
        let g := bits v x.lo (x.hi - x.lo + 1)
        let bad := match codesOf f.blk.base f.row.off x.lo with | some p => !p g | none => false
        put t ⟨a, x.lo, x.hi - x.lo + 1, g, r.idx, r.typ, x.least, x.most, x.rst.at (f.bix ++ f.rix), bad⟩) t

/-- The record types with the words that each needs and the count to which each is limited (R482). -/
def recLimit (typ : Nat) : Option (Nat × Nat) :=
  match typ with
  | 1 => some (7, 1)
  | 2 => some (68, 8)
  | 3 => some (3, 16384)
  | 4 => some (12, 15)
  | 5 => some (2, 8)
  | 6 => some (9, 512)
  | 7 => some (9, 255)
  | 8 => some (3, 16384)
  | 9 => some (6, 65536)
  | 10 => some (2, 262144)
  | 11 => some (0, 64)
  | _ => none

/-- A record that is not skipped under R482, `n` of its type having come before. -/
def recGood (r : ImgRec) (n : Nat) : Bool :=
  match recLimit r.typ with
  | none => false
  | some (len, most) => decide (len ≤ r.body.length ∧ n < most) && (r.typ != 5 || decide (1 ≤ r.w 1 ∧ r.w 1 ≤ 64 ∧ r.w 1 + 2 ≤ r.body.length ∧ r.w 0 < 8)) &&
      (r.typ != 6 || decide (r.w 0 < 512)) && (r.typ != 7 || decide (r.w 0 < 256)) && (r.typ != 8 || decide (r.w 0 < 16384)) &&
      (r.typ != 9 || decide (r.w 0 < 65536)) && (r.typ != 4 || decide (1 ≤ r.w 0 ∧ r.w 0 ≤ 15))

/-- The records of an image that are not skipped, and the stage with the skipped ones reported. -/
def goodRecords (l : List ImgRec) (t : Draft) : List ImgRec × Draft :=
  let (good, t, _) := l.foldl (fun (a : List ImgRec × Draft × List (Nat × Nat)) r =>
    let n := ((a.2.2.find? fun e => e.1 == r.typ).map (·.2)).getD 0
    let seen := (r.typ, n + 1) :: a.2.2.filter fun e => e.1 != r.typ
    if recGood r n then (r :: a.1, a.2.1, seen) else (a.1, a.2.1.skip r, seen)) ([], t, [])
  (good.reverse, t)

/-- The words that a record gives: address and value (R482, R483). -/
def ImgRec.gives (r : ImgRec) : List (Nat × Nat) :=
  let i := r.w 0
  match r.typ with
  | 4 => ([Reg.SCHED_PART_CFG i, Reg.SCHED_PART_BW i, Reg.SCHED_PART_RSV i, Reg.SCHED_PART_BENCH i, Reg.SCHED_PART_MEM_H i,
      Reg.SCHED_PART_MEM_T i, Reg.SCHED_PART_SAVE i, Reg.KVL_QUOTA 0 i, Reg.KVL_QUOTA 1 i]).zip ((r.body.drop 1).take 9)
  | 5 => ((List.range (r.w 1)).map fun e => Reg.SCHED_SLOT i e).zip (r.body.drop 2)
  | 6 => ([Reg.SLOT_CFG i, Reg.SLOT_OWNER i, Reg.SLOT_AGE i, Reg.SLOT_WARN i, Reg.SLOT_ALT i, Reg.SLOT_DOWEL i]).zip ((r.body.drop 1).take 6)
  | 10 => (List.range (r.body.length / 2)).map fun k => (r.w (2 * k), r.w (2 * k + 1))
  | _ => []

/-- The least value of a field, in its register's table: `SLOWDOWN` is 0 or at least 16, the length of an outbound Ethernet
frame at least 60 (R414, R487). -/
def Draft.least (t : Draft) (x : Staged) : Nat :=
  let mac (lo : Nat) : Bool := t.fields.any fun y => y.addr == x.addr && y.lo == lo && decide (16 ≤ y.given ∧ y.given < 24)
  if 0x200100 ≤ x.addr ∧ x.addr < 0x200300 ∧ x.addr % 32 = 0 ∧ x.lo = 4 ∧ 0 < x.given then 16
  else if 0xB10000 ≤ x.addr ∧ x.addr < 0xB18000 ∧ x.addr % 32 = 0 ∧ x.lo = 0 ∧ (mac 26 ∨ mac 21) then 60
  else x.least

/-- The stage after one field is checked alone against its range and codes (R487). -/
def Draft.clampField (t : Draft) (x : Staged) : Draft :=
  let least := t.least x
  let (v, k) := if x.bad then (x.dflt, 3) else if x.given < least then (least, 1) else if x.most < x.given then (x.most, 2) else (x.given, 0)
  let t := { t with chip := t.chip.put ⟨x.addr, x.lo, x.wid⟩ v }
  if k = 0 then t else t.report ⟨x.recd, x.typ, k, x.wid, x.addr, x.lo, x.given, v⟩

/-- The stage after a rule of R488 sets a field, with its cause. -/
def Draft.fix (t : Draft) (f : RF) (v cause : Nat) : Draft :=
  let old := t.chip.q f
  if old = v then t
  else
    let src := match t.fields.find? fun x => x.addr == f.addr && x.lo == f.lo with | some x => (x.recd, x.typ) | none => (0xFFFFFFFF, 0)
    { t with chip := t.chip.put f v }.report ⟨src.1, src.2, cause, f.wid, f.addr, f.lo, old, v⟩

/-- Rules 2 and 3: values whose sum passes a limit are scaled (R488). -/
def Draft.scale (t : Draft) (f : Nat → RF) (limit : Nat) : Draft :=
  let v (p : Nat) : Nat := t.chip.q (f p)
  let sum := ((List.range 16).map v).sum
  if sum ≤ limit then t else (List.range 16).foldl (fun s p => s.fix (f p) (v p * limit / sum) 8) t

/-- Arrays of a half among those that a partition holds. -/
def partArrays (mask : Nat) (h : Half) : List Nat := (List.range 8).filter fun a => arrayHalf a == h && bit mask a

/-- Rule 5: the roughing partition is class A, strict, holds the named arrays and two arrays on each half (R488). -/
def Draft.rough (t : Draft) : Draft :=
  let c := t.chip
  let p := c.q F.SCHED_ROUGH_PART
  if p = 0 ∨ ¬ c.on (F.SCHED_PART_CFG_VALID p) then t
  else
    let m := c.q (F.SCHED_PART_CFG_ARRAYS p)
    let named (h : Half) : Nat := match h with | .H => c.q F.SCHED_ROUGH_ARR_H % 8 | .T => c.q F.SCHED_ROUGH_ARR_T % 8
    let strict := c.on (F.SCHED_PART_CFG_STRICT_H p) || c.on (F.SCHED_PART_CFG_STRICT_S p)
    let short (h : Half) (m : Nat) : Bool := decide ((partArrays m h).length < 2)
    if c.q (F.SCHED_PART_CFG_CLASS p) = 0 ∧ strict ∧ bit m (named .H) ∧ bit m (named .T) ∧ ¬ short .H m ∧ ¬ short .T m then t
    else
      let t := t.fix (F.SCHED_PART_CFG_CLASS p) 0 4
      let t := if strict then t else t.fix (F.SCHED_PART_CFG_STRICT_S p) 1 4
      let m := setBit (setBit m (named .H) true) (named .T) true
      let add (h : Half) (m : Nat) : Nat := if short h m then
          match (List.range 8).find? fun a => arrayHalf a == h && !bit m a with | some a => setBit m a true | none => m
        else m
      let t := t.fix (F.SCHED_PART_CFG_ARRAYS p) (add .T (add .H m)) 4
      let bench (h : Half) : Nat := match h with | .H => c.q F.SCHED_ROUGH_BENCH_H | .T => c.q F.SCHED_ROUGH_BENCH_T
      [Half.H, Half.T].foldl (fun t h => (t.fix (F.ARRAY_CTL_ENABLE (named h)) 1 4).fix (F.BENCH_CTL_ENABLE (bench h)) 1 4) t

/-- Rule 6: the benches of the roughing reservation belong to no other partition (R488). -/
def Draft.roughBench (t : Draft) : Draft :=
  let p := t.chip.q F.SCHED_ROUGH_PART
  if p = 0 ∨ ¬ t.chip.on (F.SCHED_PART_CFG_VALID p) then t
  else (List.range 16).foldl (fun t q =>
    if q = p then t
    else t.fix (F.SCHED_PART_BENCH_BENCHES q)
      (setBit (setBit (t.chip.q (F.SCHED_PART_BENCH_BENCHES q)) (t.chip.q F.SCHED_ROUGH_BENCH_H) false) (t.chip.q F.SCHED_ROUGH_BENCH_T) false) 4) t

/-- Entries of an array's slot table, up to the first that is not valid (R274). -/
def Draft.tableLen (t : Draft) (a : Nat) : Nat := (t.chip.slotTable a).length

/-- Rules 7 to 9 on the slot table of an array, which repeats: the first entry follows the last (R274, R488). -/
def Draft.slotTable (t : Draft) (a : Nat) : Draft :=
  let n := t.tableLen a
  let isStrict (t : Draft) (e : Nat) : Bool := !t.chip.on (F.SCHED_SLOT_OPEN a e)
  let t := (List.range n).foldl (fun t e =>
    let p := t.chip.q (F.SCHED_SLOT_PART a e)
    let ok := t.chip.on (F.SCHED_PART_CFG_VALID p) && bit (t.chip.q (F.SCHED_PART_CFG_ARRAYS p)) a &&
      (if t.chip.on (F.SCHED_SLOT_WORLD a e) then t.chip.on (F.SCHED_PART_CFG_STRICT_H p) else t.chip.on (F.SCHED_PART_CFG_STRICT_S p))
    if isStrict t e && !ok then t.fix (F.SCHED_SLOT_OPEN a e) 1 4 else t) t
  let g := (t.chip.guardTenths + 9) / 10
  let t := (List.range n).foldl (fun t e =>
    if decide (1 < n) && isStrict t e && isStrict t ((e + 1) % n) && decide (t.chip.q (F.SCHED_SLOT_LEN_US a e) * 10 ≤ t.chip.guardTenths)
    then t.fix (F.SCHED_SLOT_LEN_US a e) (g + 1) 4 else t) t
  ((List.range n).foldl (fun (x : Draft × Nat) e =>
    let sum := x.2 + x.1.chip.q (F.SCHED_SLOT_LEN_US a e)
    if 100000 < sum then (x.1.fix (F.SCHED_SLOT_VALID a e) 0 4, 100001) else (x.1, sum)) (t, 0)).1

/-- An alternate meets R336: a valid slot other than its own, of its world, whose readers include its own. -/
def Chip.altGood (c : Chip) (s a : Nat) : Bool :=
  a != s && c.on (F.SLOT_CFG_VALID a) && c.q (F.SLOT_OWNER_PRODUCER a) / 4096 == c.q (F.SLOT_OWNER_PRODUCER s) / 4096 &&
    Nat.land (c.q (F.SLOT_OWNER_READERS a)) (c.q (F.SLOT_OWNER_READERS s)) == c.q (F.SLOT_OWNER_READERS s)

/-- Rules 1 to 15 of R488. -/
def Draft.rules (t : Draft) : Draft :=
  let t := t.fix (F.SCHED_PART_CFG_VALID 0) 1 4
  let t := (t.scale F.SCHED_PART_RSV_TXN_RSV 16384).scale F.SCHED_PART_RSV_WAIT_RSV 4096
  let t := ((((t.scale F.SCHED_PART_BW_DRAM_H 192).scale F.SCHED_PART_BW_DRAM_T 192).scale F.SCHED_PART_BW_LINK_HT 192).scale F.SCHED_PART_BW_LINK_TH 192)
  let t := t.rough.roughBench
  let t := (List.range 8).foldl Draft.slotTable t
  let t := [0, 1].foldl (fun (t : Draft) h => (List.range 16).foldl (fun t s =>
    let p := t.chip.q (F.LOOP_TIMING_PERIOD_US h s)
    if p ≤ t.chip.q (F.LOOP_TIMING_PHASE_US h s) then t.fix (F.LOOP_TIMING_PHASE_US h s) (p - 1) 4 else t) t) t
  let t := t.fix (F.STEADY_CTL_TB 1) (t.chip.q (F.STEADY_CTL_TB 0)) 4
  let t := (List.range 512).foldl (fun t s =>
    if t.chip.q (F.SLOT_AGE_LIMIT_US s) ≤ t.chip.q (F.SLOT_WARN_WARN_US s) then t.fix (F.SLOT_WARN_WARN_US s) 0 4 else t) t
  let t := (List.range 512).foldl (fun t s =>
    let t := if t.chip.on (F.SLOT_ALT_ALT_VALID s) && !t.chip.altGood s (t.chip.q (F.SLOT_ALT_ALT s)) then t.fix (F.SLOT_ALT_ALT_VALID s) 0 4 else t
    if t.chip.on (F.SLOT_ALT_ALT2_VALID s) && !t.chip.altGood s (t.chip.q (F.SLOT_ALT_ALT2 s)) then t.fix (F.SLOT_ALT_ALT2_VALID s) 0 4 else t) t
  let t := [Half.H, Half.T].foldl (fun (t : Draft) h =>
    let (b, sz, n) := t.chip.kvPool h
    let stop := match h with | .H => 0x1800000000 | .T => 0x2000000000
    if 0 < sz ∧ stop < b + n * sz then t.fix (F.KVL_POOL_CFG_FRAMES h.idx) ((stop - b) / sz) 4 else t) t
  (List.range 4).foldl (fun t d =>
    let w := t.chip.q (F.SCAN_SAFE_SIZE_SAFE_W d)
    if 262144 < w * t.chip.q (F.SCAN_SAFE_SIZE_SAFE_H d) then t.fix (F.SCAN_SAFE_SIZE_SAFE_H d) (262144 / w) 4 else t) t

/-- The OWN record as a change: a REASSIGN applied at start (R482). -/
def ImgRec.own (r : ImgRec) : OwnChange := ⟨2, r.w 0, r.w 1, r.w 2 % 2 ^ 24, false, 0⟩

/-- Rule 16 and what it leaves: the OWN, INST, DOWEL and RING records that hold, tried in turn on a chip at power-on. -/
structure Tried where
  chip : Chip
  stage : Draft
  own : List ImgRec
  inst : List ImgRec
  dowel : List ImgRec
  ring : List ImgRec

/-- A ring's configuration as a record gives it, with the ring put in service. -/
def Chip.ringFromImage (c : Chip) (r : ImgRec) : Chip :=
  let n := r.w 0
  let c := ((c.setReg (Reg.RING_BASE_LO n) (r.w 2 / 4096 * 4096)).setReg (Reg.RING_BASE_HI n) (r.w 3 % 65536)).setReg (Reg.RING_LINK n) (r.w 4)
  let c := c.setReg (Reg.RING_IRQ n) (r.w 5 / 2 ^ 31 * 2 ^ 31 + r.w 5 % 1024)
  if bit (r.w 1) 31 then c.enableRing n (r.w 1) else c.setReg (Reg.RING_CFG n) (bits (r.w 1) 29 2 * 2 ^ 29 + bits (r.w 1) 16 5 * 2 ^ 16 + r.w 1 % 4)

/-- Tries the records of rule 16 (R488): completion and event rings before submission rings. -/
def tryRecords (l : List ImgRec) (t : Draft) : Tried :=
  let x : Tried := ⟨t.chip, t, [], [], [], []⟩
  let x := (l.filter fun r => r.typ == 3).foldl (fun (x : Tried) r =>
    let g := r.own
    if (x.chip.changeCheck g true).isSome then { x with stage := x.stage.skip r }
    else { x with chip := g.entries.foldl (fun c i => c.changeEntry g i) x.chip, own := x.own ++ [r] }) x
  let x := (l.filter fun r => r.typ == 8).foldl (fun (x : Tried) r =>
    { x with chip := (x.chip.assignDowel (r.w 0) (r.w 1 % 8192) (bits (r.w 1) 16 2)), dowel := x.dowel ++ [r] }) x
  let x := (l.filter fun r => r.typ == 7).foldl (fun (x : Tried) r =>
    if (x.chip.createCheck 0 (r.w 0) (Grant.ofWords fun k => r.w (k + 1))).isSome then { x with stage := x.stage.skip r }
    else { x with chip := (x.chip.viMake (r.w 0) (fun k => r.w (k + 1)) false).put (F.VI_INST_STATE_STATE (r.w 0)) 1, inst := x.inst ++ [r] }) x
  let rings := l.filter fun r => r.typ == 9
  ((rings.filter fun r => r.w 1 % 4 != 1) ++ rings.filter fun r => r.w 1 % 4 == 1).foldl (fun (x : Tried) r =>
    let c := x.chip.ringFromImage r
    if bit (r.w 1) 31 ∧ (c.ringSt? (r.w 0)).isNone then { x with stage := x.stage.skip r }
    else { x with chip := c, ring := x.ring ++ [r] }) x

/-- Rules 17 and 18 of R488. -/
def Draft.lastRules (t : Draft) : Draft :=
  let t := (List.range 12).foldl (fun t n =>
    if t.chip.on (F.GW_CAN_CFG_ENABLE n) && !t.chip.canGood n then t.fix (F.GW_CAN_CFG_ENABLE n) 0 4 else t) t
  let t := (List.range 16).foldl (fun t n =>
    if t.chip.on (F.INTAKE_CTL_ENABLE n) && !t.chip.camGood n then t.fix (F.INTAKE_CTL_ENABLE n) 0 4 else t) t
  (t.fix (F.POWER_CTL_SPREAD_MODE 1) (t.chip.q (F.POWER_CTL_SPREAD_MODE 0)) 4).fix (F.POWER_CTL_SPREAD_DEPTH 1) (t.chip.q (F.POWER_CTL_SPREAD_DEPTH 0)) 4

/-- An image object clamped: the registers it sets with the whole report, and the structural records that hold. -/
def clampImage (obj : List Byte) : Draft × Tried × List ImgRec :=
  let t : Draft := ⟨Chip.reset, [], []⟩
  let (l, t) := goodRecords ((imgRecords obj).getD []) t
  let t := l.foldl (fun t r => r.gives.foldl (fun t p => t.give r p.1 p.2) t) t
  let t := (t.fields.foldl Draft.clampField t).rules
  let y := tryRecords l t
  (y.stage.lastRules, y, l)

/-! ### Applying the image (R489, R490) -/

/-- The bytes of a report entry (R489). -/
def Clamp.bytes (k : Clamp) : List Byte :=
  toLE 4 k.recd ++ toLE 2 k.typ ++ toLE 1 k.cause ++ toLE 1 k.wid ++ toLE 6 k.addr ++ toLE 1 k.lo ++ toLE 1 0 ++ toLE 8 k.given ++ toLE 8 k.applied

/-- The chip with the clamp report in its registers; complete with event 0x0E03 (R489). -/
def Chip.writeReport (c : Chip) (h : Half) (l : List Clamp) : Chip :=
  let c := (l.take 1024).zipIdx.foldl (fun c p =>
    (List.range 8).foldl (fun c k => c.setReg (Reg.SYS_CLAMP p.2 k) (fieldAt p.1.bytes (4 * k) 4)) c) c
  let more := decide (1024 < l.length)
  let c := ((c.put F.SYS_CLAMP_CNT_OVERFLOW (b2n more)).put F.SYS_CLAMP_CNT_ENTRIES (min l.length 1024)).put F.SYS_CLAMP_CNT_COUNT (min l.length (2 ^ 20 - 1))
  c.ev h 0x0E03 [min l.length 1024, b2n more]

/-- The half that homes an address of the control space; none for a device-wide block. -/
def homeOf (a : Nat) : Option Half :=
  if 0xA20000 ≤ a ∧ a < 0xA40000 then some .H
  else if 0xAA0000 ≤ a ∧ a < 0xAC0000 then some .T
  else match findReg a with
    | some f => match f.blk.home with | .device => none | .per _ => some (f.half .H)
    | none => none

/-- Offsets of the instances of a block. -/
def instOffsets : List (Nat × Nat) → List Nat
  | [] => [0]
  | (n, s) :: l => (List.range n).flatMap fun k => (instOffsets l).map (k * s + ·)

/-- The lock registers of the blocks that a half homes, and of the device-wide ones if `dev` (R490). -/
def lockRegs (h : Half) (dev : Bool) : List Nat :=
  blocks.flatMap fun b => match b.lock with
    | none => []
    | some o => ((instOffsets b.dims).map fun k => b.base + k + o).filter fun a => match homeOf a with | some x => x == h | none => dev

/-- A DRAM entry of a half waits for its start-up zeroing. -/
def Chip.startPending (c : Chip) (p : Nat → Bool) : Bool := c.startOwn.any fun e => p e.1

/-- The chip after a static instance is created (R298, R301). -/
def Chip.makeStatic (c : Chip) (w : List Nat) : Chip :=
  let i := w.getD 0 0
  let c := c.viMake i (fun k => w.getD (k + 1) 0) false
  let g := c.viGrant i
  let c := c.viActivate i true
  c.ev c.firstUp 0x0600 [i, (c.viOwner i).toNat, g.ringN, g.dowelN, g.memHN + g.memTN]

/-- A static instance that is still to be created keeps a ring from being enabled: every one does (R298), but one of other rings that
waits for granules of a half that is DOWN. -/
def Chip.instBlocks (c : Chip) (r : Nat) (i : Nat × List Nat) : Bool :=
  let g := Grant.ofWords fun k => i.2.getD (k + 1) 0
  g.rings.contains r || !(g.granules.any fun n => (Tbl.find? c.startOwn n).isSome && c.down.get (granuleHalf n))

/-- The chip after the instances and rings whose granules are in effect come into being, rings in the order of their list
(R490). -/
def Chip.startReady (c : Chip) : Chip :=
  let c := c.startInst.foldl (fun (c : Chip) e =>
    let g := Grant.ofWords fun k => e.2.getD (k + 1) 0
    if g.granules.any fun n => (Tbl.find? c.startOwn n).isSome then c
    else { c with startInst := c.startInst.filter (· != e) }.makeStatic e.2) c
  c.startRings.foldl (fun (c : Chip) e =>
    let o := ownOwner (c.ownAt (doorbellEntry e.1))
    let waits := c.startOwn.any (fun x => ownOwner x.2 == o) || c.startInst.any (c.instBlocks e.1)
    if waits then c
    else { c with startRings := c.startRings.filter (· != e) }.ringFromImage ⟨0, 9, e.2⟩) c

/-- The chip after the granules of a set of slot buffers take region type 7 (R342). -/
def Chip.typeSet (c : Chip) (b n : Nat) : Chip :=
  (List.range ((n + 65535) / 65536)).foldl (fun (c : Chip) k =>
    let g := (b - 0x1000000000) / 65536 + k
    let c := { c with startOwn := Tbl.del c.startOwn g }
    if ownType (c.ownAt g) = 7 ∧ ownOwner (c.ownAt g) = 0 then c else c.setOwn g (mkOwn 0 7 0)) c

/-- The chip after firmware of a half writes what the image sets: the registers of its own blocks, and, unless the peer is in
service, of the device-wide ones, with ownership, dowels, rings and static instances (R490, R493). The roughing reservation leaves an
array that the ledger has retired (R324). -/
def Chip.applyImage (c : Chip) (h : Half) (g : Img) : Chip :=
  let dev := !c.inService h.other
  let (t, y, l) := clampImage g.obj
  let mine (a : Nat) : Bool := match homeOf a with | some x => x == h | none => dev
  let c := (t.chip.regs.filter fun e => mine e.1).foldl (fun c e => c.setReg e.1 e.2.toNat) c
  let c := if dev then
      let c := (c.setReg Reg.SYS_IMG_VER (sigVersion g.sig)).writeReport h t.rep
      let c := (List.range 12).foldl (fun c k => c.setReg (Reg.SYS_IMG_DIGEST k) (fieldAt g.sig (24 + 4 * k) 4)) c
      let own := y.own.foldl (fun c r => (r.own).entries.foldl (fun c i => c.changeEntry r.own i) c) c
      { c with
        own := own.own.filter fun e => decide (1048576 ≤ e.1)
        startOwn := (own.own.filter fun e => decide (e.1 < 1048576)).map fun e => (e.1, e.2.toNat)
        startInst := y.inst.map fun r => (r.w 0, r.body) }
    else c
  let place (j : Nat) (f : ImgRec → Nat) (b : Tbl Nat) : Tbl Nat := (l.filter fun r => r.typ == j).foldl (fun b r => Tbl.ins b (r.w 0) (f r)) b
  let c := { c with
    slotBase := c.slotBase.set h (place 6 (fun r => 0x1000000000 + r.w (if c.slotHome (r.w 0) = h then 7 else 8) * 65536) (c.slotBase.get h))
    saveArea := c.saveArea.set h (place 4 (fun r => r.w (10 + h.idx)) (c.saveArea.get h)) }
  let c := (c.slotBase.get h).foldl (fun (c : Chip) e => if c.slotSet e.1 h then c.typeSet e.2 (3 * c.slotBytes e.1) else c) c
  let c := (y.dowel.filter fun r => dowelHalf (r.w 0) == h).foldl (fun c r =>
    (c.assignDowel (r.w 0) (r.w 1 % 8192) (bits (r.w 1) 16 2)).setReg (Reg.DOWEL_READER (r.w 0)) (r.w 2 % 8192)) c
  let c := { c with startRings := c.startRings ++ (y.ring.filter fun r => ringHalf (r.w 0) == h).map fun r => (r.w 0, r.body) }
  let c := ((List.range 12).filter fun n => portHalf n == h).foldl (fun (c : Chip) n => c.syncCan n) c
  let c := ((List.range 16).filter fun n => camHalf n == h).foldl (fun (c : Chip) n =>
    if t.rep.any fun k => k.addr == Reg.INTAKE_CTL n && k.cause == 4 then (c.syncCam n).ev h 0x0B04 [n, 0] else c.syncCam n) c
  let c := if dev then c else { c with env := c.env.set h (c.env.get h.other) }
  let c := c.syncInputs h
  let c := ((List.range 8).filter fun a => arrayHalf a == h && c.on (F.ARRAY_STATUS_RETIRED a)).foldl (fun (c : Chip) a => c.moveRough a) c
  let c := if c.roughShort h then c.wearCause h 10 else c
  (lockRegs h dev).foldl (fun c a => c.setReg a (c.reg a % 2 ^ 31 + 2 ^ 31)) c

/-- The chip after firmware arms and closes, in slot order, the loop slots of a half for which the image writes `LOOP_CFG`
(R490). -/
def Chip.startLoops (c : Chip) (h : Half) (obj : List Byte) : Chip :=
  let fs := (clampImage obj).1.fields
  ((List.range 16).filter fun s => fs.any fun x => x.addr == Reg.LOOP_CFG h.idx s).foldl (fun (c : Chip) s =>
    if c.steadyCheck h 1 s 0 ≠ 0 then c.steadyResult h 1 s (c.steadyCheck h 1 s 0)
    else
      let c := c.armSlot h s
      if c.steadyCheck h 2 s 0 ≠ 0 then c.steadyResult h 2 s (c.steadyCheck h 2 s 0) else c.closeSlot h s) c

/-- IMAGE_APPLY (R490): firmware of a half writes the chosen image's values, locks the blocks, and the zeroing begins; the
half is ready as STANDBY (R343, R491). -/
def execImageApply (h : Half) (s : State) : Host.Outcome State Fault Refusal :=
  let c := s.chip
  let x := c.startOf h
  match x.chosen with
  | none => s.go c
  | some g =>
    if x.applied ∨ c.down.get h then s.go c
    else
      let c := c.applyImage h g
      let c := c.setStart h { c.startOf h with applied := true, zeroing := true, zeroed := [] }
      let c := (c.milestone h 5).startLoops h g.obj
      let c := c.put (F.AUTH_STATUS_STATE h.idx) 1
      s.go ((c.syncAuth).milestone h 6)


/-- The place in the order of the start-up zeroing of a granule that an OWN record names: partition 0, the roughing partition, classes A
to D; granules that none names come last (R490). -/
def Chip.zeroRank (c : Chip) (n : Nat) : Nat :=
  match Tbl.find? c.startOwn n with
  | none => 6
  | some e =>
    let p := ownOwner e / 256 % 16
    if p = 0 then 0 else if c.roughPart = some p then 1 else 2 + c.partClass p

/-- A granule of the half is still to be zeroed before this one (R490). -/
def Chip.zeroWaits (c : Chip) (n : Nat) : Bool :=
  c.startOwn.any fun e => granuleHalf e.1 == granuleHalf n && decide (c.zeroRank e.1 < c.zeroRank n)

/-- START_ZEROING_COMPLETE (R490): the start-up zeroing of a granule ends and its new entry takes effect, in the order of the rule. A
Carriage of the half zeroes the granules that OWN records name, which counts as the zeroing of R453. -/
def execStartZeroingComplete (n : Fin 1048576) (s : State) : Host.Outcome State Fault Refusal :=
  let c := s.chip
  let h := granuleHalf n.val
  let x := c.startOf h
  if ¬ x.zeroing ∨ c.down.get h ∨ (Tbl.find? x.zeroed n.val).isSome ∨ c.zeroWaits n.val then s.go c
  else
    let c := c.zeroGranule n.val
    let c := if (Tbl.find? c.startOwn n.val).isSome then c.carriageDid h 65536 else c
    let c := match Tbl.find? c.startOwn n.val with
      | some e => { c with own := Tbl.put (ownReset n.val) c.own n.val (BitVec.ofNat 32 e), startOwn := Tbl.del c.startOwn n.val }
      | none => if ownType (c.ownAt n.val) = 7 then c else c.setClean n.val false
    let z := Tbl.ins x.zeroed n.val true
    let all := decide (524288 ≤ z.length)
    let c := (c.setStart h { c.startOf h with zeroed := if all then [] else z, zeroing := !all }).startReady
    s.go (if all then c.milestone h 7 else c)

/-! ### ROM recovery (R494) -/

/-- ROM_RECOVERY (R494): a host has written a firmware object and its signature record into the recovery BAR and writes 1 to
its last word; the ROM verifies the object and runs it. -/
def execRomRecovery (h : Half) (record object : List Byte) (s : State) : Host.Outcome State Fault Refusal :=
  let c := s.chip
  if ¬ (c.startOf h).recovery ∨ c.down.get h then s.go c
  else match readSig 1 record with
    | none => s.go (c.sigFailed h 1 [] 3)
    | some x =>
      match c.sigFault h x (sha384 object) [] with
      | some k => s.go (c.sigFailed h 1 x.signer k)
      | none =>
        let x := { x with ctr := 0 }
        if x.version < c.ctrOf 0 then s.go (c.oldVersion h x)
        else
          let c := (c.setStart h { c.startOf h with recovery := false }).put (F.SYS_START_PHASE h.idx) 1
          s.go (c.startFirmware h x 0)

end Sys2Proof.Machine
end

