-- ==== Sys2Proof/Machine/Halves.lean ====
section
/-! DEFINITION. The loss, the reset and the return of a half (R194, R262, R348, R362, R441, R493, R497, R516, R561), and the
end of the Vendor-return erase (R474). -/

namespace Sys2Proof.Machine

/-! ### Commands that a loss ends -/

/-- The chip after everything that a command holds is let go: pins, its place in a slot's queue, its waits, its sends, its
transactions, its cores. -/
def Chip.letGo (c : Chip) (m : Cmd) : Chip :=
  let c := c.kvUnpinAll m.id
  let c := if m.opcode = 0x60 then c.leaveSlot m.slotNo m.id else c
  let c := if m.opcode = 0x20 then c.stopTask m else c
  { c with
    pins := c.pins.filter fun p => p.id != m.id
    waits := c.waits.filter fun w => w.who != .cmd m.id
    gwSends := c.gwSends.filter fun y => y.id != m.id
    txns := c.txns.filter fun t => t.2.id != m.id
    pinOps := ⟨c.pinOps.h.filter (· != m.id), c.pinOps.t.filter (· != m.id)⟩
    pinWait := ⟨c.pinWait.h.filter (· != m.id), c.pinWait.t.filter (· != m.id)⟩ }

/-- The chip after a command is withdrawn with ABANDONED (R362). -/
def Chip.abandon (c : Chip) (m : Cmd) : Chip :=
  if m.stage = .withdrawn then (c.letGo m).leave m else (c.letGo m).complete (m.endWith .abandoned (m.endDetail 0)) (m.endDetail 0)

/-- A gouge copy touches the stores or DRAM of a half. -/
def GCopy.touches (k : GCopy) (h : Half) : Bool :=
  !k.ended && (addrHalf (bits (k.src.getD 0 0).toNat 0 48) == some h || addrHalf (bits (k.dst.getD 0 0).toNat 0 48) == some h)

/-- A command of a surviving half depends on a half that goes DOWN (R194, R262, R362). -/
def Chip.dependsOn (c : Chip) (h : Half) (m : Cmd) : Bool :=
  (c.kvPins.any fun p => p.1 == m.id && Half.ofIdx (p.2 / 131072) == h) ||
    (c.pins.any fun p => p.id == m.id && p.half == h) ||
    (c.txns.any fun t => t.2.id == m.id && (addrHalf t.2.addr == some h || addrHalf t.2.dst == some h)) ||
    (m.opcode == 0x60 && m.stage != .fetched && c.slotSet m.slotNo h && !c.slotSet m.slotNo h.other) ||
    (m.opcode == 0x60 && m.stage == .running && ((((c.slot m.slotNo).writing.get h).isSome) || addrHalf m.slotAddr == some h)) ||
    (m.opcode == 0x61 && m.stage == .running && addrHalf m.slotAddr == some h) ||
    (m.opcode == 0x20 && c.cores.any fun e => e.2.task == some m.id && e.2.copies.any fun k => k.2.touches h)

/-! ### A half goes DOWN -/

/-- The ports of a half: CAN controllers 0 to 11, Ethernet MACs 16 to 23. -/
def portsOf (h : Half) : List Nat := ((List.range 12) ++ (List.range 8).map (· + 16)).filter fun p => portHalf p == h

/-- A result slot after the buffers of a half are gone (R262). -/
def slotAfterLoss (h : Half) (x : SlotSt) : SlotSt :=
  { x with
    held := x.held.set h false
    writing := x.writing.set h none
    queue := x.queue.filter fun i => ringHalf i.ring.val != h }

/-- A loaded model after the loss of a half: what another half still holds; none where nothing is left (R362). -/
def modelAfterLoss (h : Half) (x : Model) : Option Model :=
  let rest := match h with | .H => x.bytesT | .T => x.bytesH
  if rest = 0 ∨ x.gone = some h.other then none
  else if (match h with | .H => x.bytesH | .T => x.bytesT) = 0 then some x
  else some (match h with | .H => { x with bytesH := 0, gone := some h } | .T => { x with bytesT := 0, gone := some h })

/-- The chip after the state that a half holds is gone: its registers at their reset values, its engines, rings, dowels,
frames and ports without state, its stores zero; what its always-on domain and its flash hold stays. -/
def Chip.wipeHalf (c : Chip) (h : Half) : Chip :=
  let mine (a : Nat) : Bool := (!inDram a) && addrHalf a == some h
  let p := c.power.get h
  { c with
    regs := c.regs.filter fun e => homeOf e.1 != some h
    holds := c.holds.filter fun x => x.home != h
    slotLock := c.slotLocked
    mem := c.mem.filter fun e => !mine e.1
    rings := c.rings.filter fun e => ringHalf e.1 != h
    waits := c.waits.filter fun w => dowelHalf w.dowel != h
    pollRun := c.pollRun.set h false
    tb := c.tb.set h (List.replicate 8 ⟨0, 0⟩)
    kv := c.kv.set h []
    kvFresh := c.kvFresh.set h 0
    kvBack := c.kvBack.set h []
    kvPins := c.kvPins.filter fun p => Half.ofIdx (p.2 / 131072) != h
    pinOps := c.pinOps.set h []
    pinWait := c.pinWait.set h []
    irqs := c.irqs.filter fun x => x.half != h
    arrays := c.arrays.filter fun e => arrayHalf e.1 != h
    cores := c.cores.filter fun e => benchHalf (e.1 / 64) != h
    benches := c.benches.map fun e => if benchHalf e.1 = h then (e.1, { BenchSt.zero with retired := e.2.retired }) else e
    actx := c.actx.filter fun e => ringHalf e.1 != h
    bctx := c.bctx.filter fun e => ringHalf (e.1 / 32) != h
    slots := c.slots.map fun e => (e.1, slotAfterLoss h e.2)
    slotBase := c.slotBase.set h []
    pins := c.pins.filter fun p => p.half != h
    frames := c.frames.set h none
    roughMoved := c.roughMoved.set h none
    auth := c.auth.set h AuthSt.zero
    authWire := c.authWire.set h (none, none)
    loops := c.loops.set h []
    steadyCmd := c.steadyCmd.set h none
    env := c.env.set h ⟨2 ^ 32, 0, true⟩
    partTurns := c.partTurns.filter fun e => engineHalf (e.1 / 16) != h
    partyTurns := c.partyTurns.filter fun e => engineHalf (e.1 / 8192) != h
    blockedAt := c.blockedAt.filter fun e => engineHalf e.1 != h
    models := c.models.filterMap fun e => (modelAfterLoss h e.2).map fun x => (e.1, x)
    hio := c.hio.set h HioSt.zero
    cams := c.cams.filter fun e => camHalf e.1 != h
    scans := c.scans.filter fun e => scanHalf e.1 != h
    cvuRun := c.cvuRun.filter fun e => cvuHalf e.1 != h
    time := c.time.set h TimeSt.zero
    timeWrites := c.timeWrites.filter fun w => w.half != h
    sec := c.sec.set h { SecSt.zero with erased := (c.sec.get h).erased }
    apps := c.apps.filter fun e => appHalf e.1 != h
    start := c.start.set h StartSt.zero
    startOwn := c.startOwn.filter fun e => granuleHalf e.1 != h
    startRings := c.startRings.filter fun e => ringHalf e.1 != h
    saveArea := c.saveArea.set h []
    halted := c.halted.filter fun t => targetHalf c t != h
    txns := c.txns.filter fun t => t.2.half != h
    links := c.links.filter fun e => e.1 / 8 != h.idx
    msix := c.msix.set h []
    power := c.power.set h { PowerSt.zero with critical := p.critical, report := p.report }
    ledgerRead := c.ledgerRead.set h false }

/-- The chip after a half's state is gone, its failed lanes staying failed: they return only after reset of the device (R501). -/
def Chip.keepLanes (c old : Chip) (h : Half) : Chip :=
  (List.range 8).foldl (fun (c : Chip) l =>
    let a := Reg.PEER_LINK_STATUS h.idx l
    if old.reg a % 32 = 0 then c else c.setReg a (old.reg a % 32)) c

/-- The chip after reset of the device: both halves are DOWN. What DRAM, flash, the RPMB and the always-on domains hold
stays; every device-wide block is at its reset values, but for what the wear ledger keeps (R19, R490, R544). -/
def Chip.deviceReset (c : Chip) : Chip :=
  { Chip.reset with
    regs := c.regs.filter fun e => wearWords.contains e.1
    mem := c.mem.filter fun e => inDram e.1
    garbled := c.garbled
    poison := c.poison
    down := c.down
    downSince := c.downSince
    log := c.log
    freeCnt := c.freeCnt
    answer := c.answer
    rpmb := c.rpmb
    erasing := c.erasing
    sec := ⟨{ SecSt.zero with erased := c.sec.h.erased }, { SecSt.zero with erased := c.sec.t.erased }⟩
    benches := c.benches.map fun e => (e.1, { BenchSt.zero with retired := e.2.retired })
    dataRows := c.dataRows
    dieOut := c.dieOut
    power := c.power
    flash := c.flash
    ledgerSeq := c.ledgerSeq
    opTime := c.opTime }

/-- The chip after a half goes DOWN (R194, R262, R359, R362, R442, R466, R471, R531); Owner-open becomes Closed (R471). -/
def Chip.loseHalf (c : Chip) (h : Half) : Chip :=
  if c.down.get h then c
  else
    let k := h.other
    let since := c.stamp k 0
    let old := c
    let c := (c.loseKeys h).dropOut h
    let c := c.leadLost h
    let c := ((portsOf h).foldl (fun c p => c.failPort p 10) c).failSent h
    let c := (c.cmds.filter fun m => ringHalf m.id.ring.val == h).foldl (fun c m => ((c.letGo m).release m).dropCmd m.id) c
    let c := (c.cmds.filter fun m => c.dependsOn h m).foldl Chip.abandon c
    let c := (c.waits.filter fun w => dowelHalf w.dowel == h).foldl Chip.abandonWait c
    let c := (c.wipeHalf h).keepLanes c h
    let c := { c with down := c.down.set h true, downSince := c.downSince.set h (if c.down.get k then none else some since) }
    if c.down.get k then c.deviceReset
    else
      let c := if c.q (F.SEC_STATUS_DEBUG k.idx) = 1 then c.setDebug k 0 0 else c
      let c := c.put (F.CALLIPER_STATUS_DEGRADED h.idx) (c.q (F.CALLIPER_STATUS_DEGRADED k.idx))
      ((c.put (F.POWER_STATUS_PEER_STATE k.idx) 15).syncLinks old).syncAuth

/-- HALF_LOSS (R362): a half goes DOWN. -/
def execHalfLoss (h : Half) (s : State) : Host.Outcome State Fault Refusal := s.go (s.chip.loseHalf h)

/-- RESET_ASSERT (R561): a half's `PWRGD` or `RST_N` ball is low. -/
def execResetAssert (h : Half) (s : State) : Host.Outcome State Fault Refusal := s.go (s.chip.loseHalf h)

/-- FORCED_ERASE (R461): a core rail of a half (1 VDD_SAFE, 2 VDD_CORE, 4 VDD_ARRAY, 5 VDD_APP, R554) has fallen below its
erase threshold: the half erases what it claims and its keys, and is DOWN (R516). -/
def execForcedErase (h : Half) (rail : Fin 11) (s : State) : Host.Outcome State Fault Refusal :=
  if ¬ ([1, 2, 4, 5] : List Nat).contains rail.val then s.go s.chip
  else
    let c := s.chip
    let c := ((List.range 126).filter fun b => claimHalf b == h && c.claimed h b).foldl Chip.eraseUnit c
    let c := c.loseKeys h
    s.go ((c.setSec h { c.secOf h with sealFor := none, erased := some rail.val }).loseHalf h)

/-- WATCHDOG_RESET (R348): the safety island of a half has sent no authority message for 40 µs. -/
def execWatchdogReset (h : Half) (s : State) : Host.Outcome State Fault Refusal :=
  let c := s.chip
  if ((40 * usUnits : Nat) : Int) ≤ elapsed (c.stamp h 0) (c.auth.get h).lastSent then s.go (c.loseHalf h) else s.go c

/-! ### A half leaves reset -/

/-- The chip with `ARB_PRESENT` as the samples of both straps have it (R352). -/
def Chip.syncStraps (c : Chip) : Chip :=
  let s (h : Half) : Bool := !c.down.get h && c.on (F.AUTH_ID_ARB_EN h.idx)
  c.putUp F.AUTH_STATUS_ARB_PRESENT (b2n (s .H || s .T))

/-- The chip after a half that is DOWN leaves reset, its `ARB_EN` strap sampled (R352, R516, R561). A half held by its
temperature stays DOWN (R526). -/
def Chip.leaveReset (c : Chip) (h : Half) (strap : Bool) : Chip :=
  if ¬ c.down.get h ∨ (c.power.get h).critical then c
  else
    let k := h.other
    let c := { c with down := c.down.set h false, downSince := c.downSince.set h none }
    let c := c.put (F.AUTH_ID_ARB_EN h.idx) (b2n strap)
    if c.down.get k then
      ({ c with downSince := c.downSince.set k (some (c.stamp h 0)) }.put (F.POWER_STATUS_PEER_STATE h.idx) 15).syncStraps
    else
      let c := ((c.put (F.AUTH_STATUS_PEER_DOWN k.idx) 0).put (F.POWER_STATUS_PEER_STATE k.idx) 0).put (F.POWER_STATUS_PEER_STATE h.idx)
        (c.q (F.POWER_STATUS_STATE k.idx))
      let c := c.syncStraps
      let d := [c.q (F.AUTH_ID_ARB_EN 0), c.q (F.AUTH_ID_ARB_EN 1)]
      let c := if d.getD 0 0 = d.getD 1 0 then c else (c.ev h 0x0813 d).ev k 0x0813 d
      c.syncAuth

/-- POWER_GOOD (R516): 1 ms after the `PWRGD` ball of a half rose, every rail having stayed within its limits. -/
def execPowerGood (h : Half) (strap : Bool) (s : State) : Host.Outcome State Fault Refusal := s.go (s.chip.leaveReset h strap)

/-- RESET_RELEASE (R561): `RST_N` rises while `PWRGD` is high, or a reset caused inside ends. -/
def execResetRelease (h : Half) (strap : Bool) (s : State) : Host.Outcome State Fault Refusal := s.go (s.chip.leaveReset h strap)

/-! ### Resets by register (R497) and the end of the Vendor-return erase (R474) -/

/-- The chip after `SYS_RESET` is written by an initiator with a key and the fields named. -/
def Chip.sysReset (c : Chip) (i : Initiator) (key : Nat) (l : List Half) : Chip :=
  match c.portCause i true Reg.SYS_RESET with
  | 0 => if key = 0xA5 then l.foldl Chip.loseHalf c else c
  | k => c.refusalEvent i.half none i.owner Reg.SYS_RESET k i.port

/-- SYS_RESET_DEVICE (R497). -/
def execSysResetDevice (i : Initiator) (key : Byte) (s : State) : Host.Outcome State Fault Refusal :=
  s.go (s.chip.sysReset i key.toNat [.H, .T])

/-- SYS_RESET_HALF (R497). -/
def execSysResetHalf (i : Initiator) (key : Byte) (h : Half) (s : State) : Host.Outcome State Fault Refusal :=
  s.go (s.chip.sysReset i key.toNat [h])

/-- VENDOR_RETURN_ERASE_END (R474): every granule of an entry with world bit 1 is zeroed and the entry of type 7, the keys
are dropped, and both halves are reset. -/
def execVendorReturnEraseEnd (s : State) : Host.Outcome State Fault Refusal :=
  let c := s.chip
  if ¬ c.erasing then s.go c
  else
    let l := c.own.filter fun e => bit e.2.toNat 12
    let c := l.foldl (fun (c : Chip) e =>
      let c := if e.1 < 1048576 then c.zeroGranule e.1 else c
      c.setOwn e.1 (mkOwn (ownOwner e.2.toNat) 7 (if e.1 < 1048576 then 1 else 0))) c
    let c := { c with
      sec := ⟨{ c.sec.h with memKeys := false }, { c.sec.t with memKeys := false }⟩
      erasing := false }
    s.go ((c.loseHalf .H).loseHalf .T)

end Sys2Proof.Machine
end

