-- ==== Sys2Proof/Machine/Power.lean ====
section
/-! DEFINITION. Power states, gating of units, the power limit, the current limiter and the thermal trips (R516–R526). -/

namespace Sys2Proof.Machine

/-- The power logic of a half. -/
def Chip.powerOf (c : Chip) (h : Half) : PowerSt := c.power.get h
/-- The chip with the power logic of a half replaced. -/
def Chip.setPower (c : Chip) (h : Half) (x : PowerSt) : Chip := { c with power := c.power.set h x }

/-! ### The clock steps (R521, R524) -/

/-- Array clock of a step in units of 100 MHz (R521). -/
def arrayClock (step : Nat) : Nat := 6 - min step 5

/-- A bit of `POWER_STATUS.THROTTLE`: 0 limiter, 1 hard limit, 2 cap, 3 trip 1, 4 trip 2. -/
def Chip.throttled (c : Chip) (h : Half) (k : Nat) : Bool := bit (c.q (F.POWER_STATUS_THROTTLE h.idx)) k

/-- The chip with one bit of `THROTTLE` set or cleared. -/
def Chip.setThrottle (c : Chip) (h : Half) (k : Nat) (v : Bool) : Chip :=
  c.put (F.POWER_STATUS_THROTTLE h.idx) (setBit (c.q (F.POWER_STATUS_THROTTLE h.idx)) k v)

/-- The lowest array clock that any action demands, as a step (R517, R522–R526). -/
def Chip.arrayStep (c : Chip) (h : Half) : Nat :=
  let x := c.powerOf h
  let low := if c.q (F.POWER_STATUS_STATE h.idx) = 1 then min (c.q (F.POWER_CTL_LOW_STEP h.idx)) 5 else 0
  max (max x.arr x.lim) (max (if c.throttled h 4 then 5 else if c.throttled h 3 then 2 else 0) low)

/-- The lowest gouge clock that any action demands, as a step. -/
def Chip.gougeStep (c : Chip) (h : Half) : Nat :=
  let low := if c.q (F.POWER_STATUS_STATE h.idx) = 1 then 1 else 0
  max (c.powerOf h).gouge (max (if c.throttled h 4 then 3 else if c.throttled h 3 then 1 else 0) low)

/-- The chip with the steps of a half shown as the actions in force demand them (R524). -/
def Chip.syncSteps (c : Chip) (h : Half) : Chip :=
  (c.put (F.POWER_STATUS_ARR_STEP h.idx) (c.arrayStep h)).put (F.POWER_STATUS_GOUGE_STEP h.idx) (c.gougeStep h)

/-! ### Power states (R517, R518) -/

/-- Some array or bench of a half is claimed. -/
def Chip.clocksClaimed (c : Chip) (h : Half) : Option Nat := (List.range 40).find? fun b => claimHalf b == h && c.claimed h b

/-- The chip after a request for a power state is answered. -/
def Chip.stateResult (c : Chip) (h : Half) (target res : Nat) : Chip :=
  let c := c.put (F.POWER_STATUS_RESULT h.idx) res
  if res = 0 then c else c.ev h 0x1002 [target, res]

/-- The chip after a half enters a power state; the other half shows it (R517). -/
def Chip.enterPower (c : Chip) (h : Half) (st : Nat) : Chip :=
  let old := c.q (F.POWER_STATUS_STATE h.idx)
  if old = st then c
  else
    let c := c.put (F.POWER_STATUS_STATE h.idx) st
    let c := if c.down.get h.other then c else c.put (F.POWER_STATUS_PEER_STATE h.other.idx) st
    (c.syncSteps h).ev h 0x1000 [h.idx, old, st]

/-- The chip after an access from outside reaches a half in RETAIN: it returns to RUN (R518). -/
def Chip.wake (c : Chip) (h : Half) : Chip := if c.awake h then c else c.enterPower h 0

/-- The chip after a power state is requested of a half: RETAIN is refused in CHARGE, LOW while an array or bench is
claimed by a party other than the initiator's security core (R460, R517). -/
def Chip.powerState (c : Chip) (i : Initiator) (h : Half) (t : Nat) : Chip :=
  match (if t = 1 ∧ i.via ≠ .secCore then c.clocksClaimed h else none) with
  | some b => (c.refusedClaimed h b i.owner).stateResult h t 0x21
  | none =>
    if t = 3 then c.stateResult h t 0x40
    else if t = 2 ∧ c.inCharge h then c.stateResult h t 0x41
    else (c.enterPower h t).stateResult h t 0

/-- POWER_STATE_REQ (R517): a write of the register. -/
def execPowerStateReq (i : Initiator) (h : Half) (t : Fin 4) (s : State) : Host.Outcome State Fault Refusal :=
  let c := s.chip
  let a := Reg.POWER_STATE_REQ h.idx
  match c.portCause i true a with
  | 0 => if c.down.get h then s.go c else s.go (c.powerState i h t.val)
  | k => s.go (c.refusalEvent h none i.owner a k i.port)

/-! ### Gating of units (R519, R460) -/

/-- A unit cannot be gated now: a Carriage with moves in flight, or an application core that firmware has not parked (R519). -/
def Chip.unitBusy (c : Chip) (b : Nat) (parked : Bool) : Bool :=
  if 40 ≤ b ∧ b < 56 then !(c.movesOn (b - 40)).isEmpty
  else decide (110 ≤ b ∧ b < 126) && !parked

/-- The engine whose resident context is saved before the unit is gated. -/
def Chip.gateEngine (c : Chip) (b : Nat) : Option Engine :=
  if b < 8 then (if (c.arr b).resident.isSome then some (.array (Fin.ofNat 8 b)) else none)
  else if b < 40 then (if (c.bench (b - 8)).resident.isSome then some (.bench (Fin.ofNat 32 (b - 8))) else none)
  else none

/-- The chip after a request of a unit's state is answered. -/
def Chip.unitResult (c : Chip) (h : Half) (st b res : Nat) : Chip :=
  let c := (c.put (F.POWER_BLK_RESULT_UNIT h.idx) b).put (F.POWER_BLK_RESULT_RESULT h.idx) res
  if res = 0 then c else c.ev h 0x1002 [(st + 1) % 16 * 2 ^ 28 + b, res]

/-- The chip after a state (0 ACTIVE, 1 CLOCK_GATED, 2 POWER_GATED) is requested of a unit, which is an application core that firmware
has `parked` or is none. -/
def Chip.unitRequest (c : Chip) (i : Initiator) (h : Half) (st b : Nat) (parked : Bool) : Chip :=
  if c.on (F.POWER_BLK_RESULT_BUSY h.idx) then c.unitResult h st b 0x42
  else if 126 ≤ b ∨ claimHalf b ≠ h ∨ 3 ≤ st then c.unitResult h st b 0x40
  else if st ≠ 0 ∧ i.via ≠ .secCore ∧ c.claimed h b then (c.refusedClaimed h b i.owner).unitResult h st b 0x21
  else if st ≠ 0 ∧ c.unitBusy b parked then c.unitResult h st b 0x41
  else if st = 0 then (c.setUnitState b 0).unitResult h st b 0
  else match c.gateEngine b with
    | none => (c.gateUnit b st).unitResult h st b 0
    | some e =>
      let c := (c.put (F.POWER_BLK_RESULT_BUSY h.idx) 1).put (F.POWER_BLK_RESULT_UNIT h.idx) b
      (c.setPower h { c.powerOf h with gating := some (b, st) }).beginSave e true

/-- The chip after `POWER_BLK_REQ` is written. -/
def Chip.unitWrite (c : Chip) (i : Initiator) (h : Half) (st b : Nat) (parked : Bool) : Chip :=
  let a := Reg.POWER_BLK_REQ h.idx
  match c.portCause i true a with
  | 0 => if c.down.get h then c else c.unitRequest i h st b parked
  | k => c.refusalEvent h none i.owner a k i.port

/-- BLOCK_ACTIVE (R519). -/
def execBlockActive (i : Initiator) (h : Half) (b : Fin 128) (s : State) : Host.Outcome State Fault Refusal :=
  s.go (s.chip.unitWrite i h 0 b.val true)
/-- CLOCK_GATED (R519); `parked` says of an application core whether firmware has parked it. -/
def execClockGated (i : Initiator) (h : Half) (b : Fin 128) (s : State) (parked : Bool := true) : Host.Outcome State Fault Refusal :=
  s.go (s.chip.unitWrite i h 1 b.val parked)
/-- POWER_GATED (R519); `parked` says of an application core whether firmware has parked it. -/
def execPowerGated (i : Initiator) (h : Half) (b : Fin 128) (s : State) (parked : Bool := true) : Host.Outcome State Fault Refusal :=
  s.go (s.chip.unitWrite i h 2 b.val parked)

/-! ### The power limit (R520, R522) -/

/-- Limits of R554 of each rail in the order of R516, in mV. -/
def railRange (k : Nat) : Nat × Nat :=
  [(720, 780), (720, 780), (720, 780), (720, 780), (672, 728), (768, 832), (1067, 1133), (485, 515), (873, 927), (1710, 1890),
    (3135, 3465)].getD k (0, 65535)

/-- The predicted power at an array step does not exceed a limit, in 0.1 W (R522). -/
def predictFits (now arr stepNow step limit : Nat) : Bool :=
  let f := (arrayClock step : Int)
  let g := (arrayClock stepNow : Int)
  decide ((now : Int) * g - arr * (g - f) ≤ limit * g)

/-- The chip after the readings of the rails are taken, with event 0x1018 at each departure from the limits of R554. -/
def Chip.readRails (c : Chip) (h : Half) (l : List (BitVec 16 × BitVec 16)) : Chip :=
  (l.take 11).zipIdx.foldl (fun c p =>
    let k := p.2
    let mv := p.1.1.toNat
    let c := (c.put (F.POWER_RAIL_MV h.idx k) mv).put (F.POWER_RAIL_CURRENT h.idx k) p.1.2.toNat
    let x := c.powerOf h
    let bad := decide (mv < (railRange k).1 ∨ (railRange k).2 < mv)
    let was := x.railsBad.contains k
    let c := c.setPower h { x with railsBad := if bad then (if was then x.railsBad else k :: x.railsBad) else x.railsBad.filter (· != k) }
    if bad ∧ ¬ was then c.ev h 0x1018 [h.idx, k, mv] else c) c

/-- The chip after a half chooses its steps: at once lower where the prediction demands it, one step higher after ten
evaluations in which the higher step fitted, gouges before arrays (R522). -/
def Chip.chooseSteps (c : Chip) (h : Half) (now arr : Nat) : Chip :=
  let x := c.powerOf h
  let cur := c.q (F.POWER_STATUS_ARR_STEP h.idx)
  let cap := c.q (F.POWER_CAP_DW h.idx)
  let limit := min 1150 cap
  let fits (st : Nat) : Bool := predictFits now arr cur st limit
  let best := (List.range 6).find? fits
  let cause := b2n (decide (cap < 1150))
  let lowered (c : Chip) : Chip :=
    (((c.setThrottle h 1 (decide (cause = 0))).setThrottle h 2 (decide (cause = 1))).inc (F.POWER_CAP_CNT_COUNT h.idx)).syncSteps h
  let tell (c : Chip) : Chip := c.ev h 0x1009 [h.idx, cause, c.q (F.POWER_STATUS_ARR_STEP h.idx), c.q (F.POWER_STATUS_GOUGE_STEP h.idx)]
  match best with
  | none =>
    if x.arr < 5 then tell (lowered (c.setPower h { x with arr := 5, fits := 0 }))
    else if x.gouge < 3 then tell (lowered (c.setPower h { x with gouge := x.gouge + 1, fits := 0 }))
    else c.setPower h { x with fits := 0 }
  | some b =>
    if x.arr < b then tell (lowered (c.setPower h { x with arr := b, fits := 0 }))
    else if x.arr = 0 ∧ x.gouge = 0 then c.setPower h { x with fits := 0 }
    else
      let up := if 0 < x.gouge then fits x.arr else fits (x.arr - 1)
      let n := if up then x.fits + 1 else 0
      if n < 10 then c.setPower h { x with fits := n }
      else
        let x := if 0 < x.gouge then { x with gouge := x.gouge - 1, fits := 0 } else { x with arr := x.arr - 1, fits := 0 }
        let c := c.setPower h x
        let c := if x.arr = 0 ∧ x.gouge = 0 then (c.setThrottle h 1 false).setThrottle h 2 false else c
        c.syncSteps h

/-- POWER_EVALUATION (R520, R522): every 10 µs, with the power of the half and its VDD_ARRAY share over the last 10 µs in
0.1 W, and voltage (mV) and current (10 mA) of each rail in the order of R516. -/
def execPowerEvaluation (h : Half) (now arr : BitVec 16) (rails : List (BitVec 16 × BitVec 16)) (s : State) :
    Host.Outcome State Fault Refusal :=
  let c := s.chip
  if c.down.get h then s.go c
  else
    let c := c.readRails h rails
    let c := (c.put (F.POWER_NOW_DW h.idx) now.toNat).put (F.POWER_PEAK_DW h.idx) (max (c.q (F.POWER_PEAK_DW h.idx)) now.toNat)
    s.go (c.chooseSteps h now.toNat arr.toNat)

/-- FAST_CURRENT_LIMITER (R523): the VDD_ARRAY current, in 10 mA, exceeds its limit. -/
def execFastCurrentLimiter (h : Half) (current : BitVec 16) (s : State) : Host.Outcome State Fault Refusal :=
  let c := s.chip
  if c.down.get h then s.go c
  else
    let x := c.powerOf h
    let c' := ((c.setPower h { x with lim := max x.lim 3 }).setThrottle h 0 true).syncSteps h
    if x.lim = 0 then s.go ((c'.inc (F.POWER_LIMIT_CNT_COUNT h.idx)).ev h 0x1008 [h.idx, current.toNat]) else s.go c'

/-- LIMITER_RELEASE (R523): 50 µs have passed with the current below the limit. -/
def execLimiterRelease (h : Half) (s : State) : Host.Outcome State Fault Refusal :=
  let c := s.chip
  let x := c.powerOf h
  if c.down.get h ∨ x.lim = 0 then s.go c
  else
    let n := if x.lim - 1 ≤ x.arr then 0 else x.lim - 1
    s.go (((c.setPower h { x with lim := n }).setThrottle h 0 (decide (0 < n))).syncSteps h)

/-! ### Temperatures (R525, R526) -/

/-- The hottest of sensors 0 to 13, and its temperature. -/
def Chip.hottest (c : Chip) (h : Half) : Nat × Int :=
  (List.range 14).foldl (fun p k => let t := sgn 16 (c.q (F.POWER_TEMP_TEMP h.idx k)); if p.2 < t then (k, t) else p)
    (0, sgn 16 (c.q (F.POWER_TEMP_TEMP h.idx 0)))

/-- A level with a threshold in °C holds after a reading: entered at the threshold, left 5 °C below it (R526). -/
def levelHolds (was : Bool) (t : Int) (thr : Nat) : Bool := decide ((thr : Int) * 16 ≤ t) || (was && decide (((thr : Int) - 5) * 16 ≤ t))

/-- The chip after one trip is entered or left, with its event. -/
def Chip.trip (c : Chip) (h : Half) (bitNo thr code : Nat) : Chip :=
  let (k, t) := c.hottest h
  let was := c.throttled h bitNo
  let now := levelHolds was t thr
  if was = now then c
  else
    let c := c.setThrottle h bitNo now
    let c := if now then c.inc (F.POWER_TRIP_CNT_COUNT h.idx) else c
    c.ev h code [h.idx, k, unsgn 16 t]

/-- TEMPERATURE_READ (R525, R526): every 50 µs the sensors of a half are read, in 1/16 °C. A half held DOWN by its
temperature is released below 100 °C. -/
def execTemperatureRead (h : Half) (temps : List (BitVec 16)) (s : State) : Host.Outcome State Fault Refusal :=
  let c := s.chip
  let x := c.powerOf h
  if c.down.get h then
    let t := ((temps.take 14).map fun v => v.toInt).foldl max (-32768)
    if x.critical ∧ temps ≠ [] ∧ t < 1600 then s.go (c.setPower h { x with critical := false }) else s.go c
  else
    let c := (temps.take 18).zipIdx.foldl (fun c p => c.put (F.POWER_TEMP_TEMP h.idx p.2) p.1.toNat) c
    let (k, t) := c.hottest h
    let warn := levelHolds x.warned t (c.q (F.POWER_THERM_WARN_C h.idx))
    let c := c.setPower h { x with warned := warn }
    let c := if warn = x.warned then c else c.ev h 0x1010 [h.idx, k, unsgn 16 t]
    let c := ((c.trip h 3 110 0x1011).trip h 4 115 0x1012).syncSteps h
    if t < 2000 then s.go c
    else s.go ((c.setPower h { c.powerOf h with critical := true, report := some (k, unsgn 16 t) }).loseHalf h)

end Sys2Proof.Machine
end

