-- ==== Sys2Proof/Machine/Service.lean ====
section
/-! DEFINITION. The wear ledger at start and in flash, hours of operation, the urgent service level (R534–R538). -/

namespace Sys2Proof.Machine

/-! ### Banks (R535) -/

/-- The more worn of two values of a word of the WEAR block that the ledger holds (R536, R538). -/
def moreWorn (a x y : Nat) : Nat :=
  if a = Reg.WEAR_STATUS then max (x / 2 ^ 30) (y / 2 ^ 30) * 2 ^ 30 + bits x 11 19 * 2 ^ 11 + Nat.lor (bits x 0 11) (bits y 0 11) else max x y

/-- Register values with later ones put over earlier ones; of the WEAR block's words the more worn stays. -/
def overlay (old new : List (Nat × Nat)) : List (Nat × Nat) :=
  (old.filter fun e => !(new.any fun n => n.1 == e.1)) ++ new.map fun n =>
    match old.find? fun e => e.1 == n.1 with
    | some e => if wearWords.contains n.1 then (n.1, moreWorn n.1 e.2 n.2) else n
    | none => n

/-- Register values that a ledger describes: its snapshot, then its records from the oldest. -/
def FlashLedger.sets (f : FlashLedger) : List (Nat × Nat) := f.recs.reverse.foldl (fun l r => overlay l r.sets) f.snap

/-- The present state as a half knows it: what its flash holds, then the records that wait (R535). -/
def FlashLedger.present (f : FlashLedger) : List (Nat × Nat) := f.held.reverse.foldl (fun l r => overlay l r.sets) f.sets

/-- The snapshot of a flash covers a record. -/
def FlashLedger.covers (f : FlashLedger) (r : WearRec) : Bool := decide (r.seq ≤ f.snapSeq.get (Half.ofIdx r.half))

/-- The newest record of a half in a flash's snapshot, in its records or waiting. -/
def FlashLedger.lastSeq (f : FlashLedger) (h : Half) : Nat :=
  (f.held ++ f.recs).foldl (fun n r => if r.half = h.idx then max n r.seq else n) (f.snapSeq.get h)

/-- The chip after the ledger of one flash is replaced. -/
def Chip.setFlash (c : Chip) (h : Half) (f : FlashLedger) : Chip := { c with flash := c.flash.set h f }

/-- The chip with `WRITE_ERR` as the records that wait have it. -/
def Chip.syncWriteErr (c : Chip) : Chip := c.put F.WEAR_STATUS_WRITE_ERR (b2n (!c.flash.h.held.isEmpty || !c.flash.t.held.isEmpty))

/-- BANK_COMPACTION (R535): the full bank of a half's flash is written as a snapshot into the other bank, or the write fails. -/
def execBankCompaction (h : Half) (fails : Bool) (s : State) : Host.Outcome State Fault Refusal :=
  let c := s.chip
  let f := c.flash.get h
  if c.down.get h ∨ f.recs.length < 3584 then s.go c
  else if fails then s.go ((c.put F.WEAR_STATUS_WRITE_ERR 1).ev h 0x1110 [h.idx, f.bank])
  else
    let g : FlashLedger := {
      bank := 1 - f.bank, bankSeq := f.bankSeq + 1, valid := true, snap := f.present, snapLog := c.log.take 128,
      recs := f.held.drop (f.held.length - 3584), held := f.held.take (f.held.length - 3584)
      snapSeq := ⟨f.lastSeq .H, f.lastSeq .T⟩ }
    let c := ((c.setFlash h g).put F.WEAR_STATUS_BANK g.bank).syncWriteErr
    s.go (c.ev h 0x1111 [h.idx, g.bankSeq])

/-! ### The start (R536) -/

/-- The ledger that reads from a flash; its records without those discarded, or the cause (0 device ID, 1 unreadable). -/
def FlashLedger.read (f : FlashLedger) : BankRead → Except Nat FlashLedger
  | .reads bad => if f.valid then .ok { f with recs := f.recs.filter fun r => !bad.contains (r.half, r.seq) } else .error 1
  | .otherDevice => .error 0
  | .unreadable => .error 1

/-- A list of records names a record. -/
def named (l : List WearRec) (r : WearRec) : Bool := l.any fun x => x.half == r.half && x.seq == r.seq

/-- Inserts a record into a list, newest first. -/
def insertRec (r : WearRec) : List WearRec → List WearRec
  | [] => [r]
  | x :: l => if x.start * 2 ^ 64 + x.hours * 2 ^ 32 + x.seq ≤ r.start * 2 ^ 64 + r.hours * 2 ^ 32 + r.seq then r :: x :: l else x :: insertRec r l

/-- The union of two ledgers, keyed by half and sequence number. A half's own units are as the snapshot that covers more of its records
has them, and a record that a snapshot covers says nothing more, so the more worn state is taken (R536). -/
def FlashLedger.union (a b : FlashLedger) : FlashLedger :=
  let newer (h : Half) : Bool := decide (a.snapSeq.get h < b.snapSeq.get h)
  let fromB (e : Nat × Nat) : Bool := wearWords.contains e.1 || match homeOf e.1 with | some h => newer h | none => false
  let onlyB (e : Nat × Nat) : Bool := !(a.snap.any fun x => x.1 == e.1)
  let recs := (b.recs.filter fun r => !named a.recs r).foldl (fun l r => insertRec r l) a.recs
  { a with
    snap := overlay a.snap (b.snap.filter fun e => fromB e || onlyB e)
    recs := recs.filter fun r => !a.covers r && !b.covers r
    snapSeq := ⟨max a.snapSeq.h b.snapSeq.h, max a.snapSeq.t b.snapSeq.t⟩ }

/-- The chip after the ledger's word of the WEAR block is taken over: the more worn of it and the present one (R536). -/
def Chip.takeWear (c : Chip) (a v : Nat) : Chip :=
  c.setReg a (moreWorn a (c.reg a) v)

/-- The chip after a half takes over what a ledger describes of its own units, and of the device. -/
def Chip.takeLedger (c : Chip) (h : Half) (l : List (Nat × Nat)) : Chip :=
  let c := l.foldl (fun (c : Chip) (e : Nat × Nat) =>
    if wearWords.contains e.1 then c.takeWear e.1 e.2 else if homeOf e.1 = some h then c.setReg e.1 e.2 else c) c
  let c := (List.range 8).foldl (fun (c : Chip) a => if arrayHalf a = h then c.put (F.ARRAY_STATUS_RETIRED a) (c.q (F.ARRAY_RETIRE_RETIRE a)) else c) c
  (List.range 32).foldl (fun (c : Chip) b => if benchHalf b = h then c.put (F.BENCH_STATUS_RETIRED b) (c.q (F.BENCH_RETIRE_RETIRE b)) else c) c

/-- The chip after a half finds no ledger: it starts a new one (R536). -/
def Chip.freshLedger (c : Chip) (h : Half) (cause : Nat) : Chip :=
  let f : FlashLedger := { FlashLedger.blank with bankSeq := 1, valid := true }
  let c := (c.setFlash h f).setFlash h.other (if (c.flash.get h.other).valid && c.ledgerRead.get h.other then c.flash.get h.other else f)
  let c : Chip := if c.ledgerRead.get h.other then c
    else { c with regs := c.regs.filter fun e => !wearWords.contains e.1, log := [], ledgerSeq := ⟨0, 0⟩ }
  let c : Chip := { c with benches := c.benches.map fun (e : Nat × BenchSt) => if benchHalf e.1 = h then (e.1, { e.2 with retired := [] }) else e, dataRows := c.dataRows.filter fun (e : Nat × Nat) => benchHalf (e.1 / 64) ≠ h }
  (c.put F.WEAR_STATUS_FRESH 1).ev h 0x1112 [h.idx, cause]

/-- LEDGER_LOAD (R536): a half reads the bank in force of its own flash and of its peer's before any unit takes work; a
half that returns alone takes the ledger's state from its peer. What befell the half while its rail fell is logged now, with this start's
number (R461, R539). -/
def execLedgerLoad (h : Half) (own peer : BankRead) (s : State) : Host.Outcome State Fault Refusal :=
  let c := s.chip
  let k := h.other
  if c.down.get h ∨ c.ledgerRead.get h then s.go c
  else
    let first := !c.ledgerRead.get k
    let c :=
      if ¬ first ∧ ¬ c.down.get k then (c.setFlash h (c.flash.get k)).takeLedger h (c.flash.get k).sets
      else match (c.flash.get h).read own, (c.flash.get k).read peer with
        | .ok a, .ok b =>
          let u := a.union b
          let na := (a.recs.filter fun r => !named b.recs r).length
          let nb := (b.recs.filter fun r => !named a.recs r).length
          let c := (((c.setFlash h { u with held := a.held }).setFlash k { u with bank := b.bank, bankSeq := b.bankSeq, held := b.held }).takeLedger h u.sets)
          if 0 < na + nb then c.ev h 0x1113 (if h = .H then [na, nb] else [nb, na]) else c
        | .ok a, .error _ => (c.setFlash h a).takeLedger h a.sets
        | .error _, .ok b => (c.setFlash h { b with held := (c.flash.get h).held }).takeLedger h b.sets
        | .error e, .error _ => c.freshLedger h e
    let c := if first then c.inc ⟨Reg.WEAR_STARTS, 0, 32⟩ else c
    let c := { c with ledgerRead := c.ledgerRead.set h true }
    let c := (List.range 4).foldl (fun (c : Chip) x =>
      if (if x < 2 then Half.H else Half.T) = h ∧ c.on (F.MEM_STATUS_REBUILDING x) then
        (c.put (F.MEM_STATUS_PROGRESS x) 0).ev h 0x0313 [x, c.q (F.MEM_STATUS_MARKED_DIE x)]
      else c) c
    let c := match (c.secOf h).erased with
      | some r => (c.setSec h { c.secOf h with erased := none }).ev h 0x0D0A [h.idx, r]
      | none => c
    let p := c.powerOf h
    match p.report with
    | some (k, t) => s.go (((c.setPower h { p with report := none }).ev h 0x1013 [h.idx, k, t]).wearCause h 7)
    | none => s.go c

/-! ### Hours of operation and the urgent level (R537, R538) -/

/-- An hour of TB_0 in 1/64 ns. -/
def hourUnits : Nat := 3600 * 1000000 * usUnits

/-- HOUR_MARK (R537): an hour of operation has ended. `fails` are the flashes to which the mark cannot be written (R535). -/
def execHourMark (fails : List Half) (s : State) : Host.Outcome State Fault Refusal :=
  let c := s.chip
  if c.opTime < hourUnits ∨ c.upHalves = [] then s.go c
  else
    let h := if c.down.h then Half.T else Half.H
    let c := { c with opTime := c.opTime - hourUnits }.inc ⟨Reg.WEAR_HOURS, 0, 32⟩
    let c : Chip := { c with storeErrs := [] }
    let c := (List.range 4).foldl (fun (c : Chip) x => (List.range 6).foldl (fun (c : Chip) d => c.put (F.MEM_DIE_CORR_HOUR x d) 0) c) c
    let c := c.ledger h 5 (List.replicate 44 0) [(Reg.WEAR_HOURS, c.reg Reg.WEAR_HOURS)]
    s.go (fails.foldl (fun (c : Chip) x =>
      if c.down.get x then c
      else
        let f := c.flash.get x
        match f.recs with
        | r :: l => ((c.setFlash x { f with recs := l, held := r :: f.held }).put F.WEAR_STATUS_WRITE_ERR 1).ev h 0x1110 [x.idx, f.bank]
        | [] => c) c)

/-- URGENT_HALF_DOWN (R538): a half has been DOWN for more than 1 s while the other runs. -/
def execUrgentHalfDown (h : Half) (s : State) : Host.Outcome State Fault Refusal :=
  let c := s.chip
  let k := h.other
  match c.downSince.get h with
  | some t =>
    if c.down.get h ∧ ¬ c.down.get k ∧ ((1000000 * usUnits : Nat) : Int) < elapsed (c.stamp k 0) t then s.go (c.wearCause k 8) else s.go c
  | none => s.go c

end Sys2Proof.Machine
end

