-- ==== Sys2Proof/Machine/RegWrite.lean ====
section
/-! DEFINITION. Register writes: the width and reserved-address rules, the access codes, and the effects of the registers
that do more than hold what is written (R16–R21, R200, R201). -/

namespace Sys2Proof.Machine

/-- The chip after a command's meaning runs on it. -/
def Chip.runOn (c : Chip) (f : State → Host.Outcome State Fault Refusal) : Chip :=
  match f ⟨c, []⟩ with
  | .next s => s.chip
  | _ => c

/-- Why an initiator's access to a register page is refused: the debug mailbox is reached from the debug port and by
firmware alone (R478), every other page as R216 has it. -/
def Chip.pageCause (c : Chip) (i : Initiator) (write : Bool) (a : Nat) : Nat :=
  if (0xF01000 ≤ a ∧ a < 0xF02000) ∨ (0xF81000 ≤ a ∧ a < 0xF82000) then (if i.via = .debugPort ∨ i.isFirmware then 0 else 1)
  else c.portCause i write a

/-- The chip after a refused register access. -/
def Chip.regRefused (c : Chip) (i : Initiator) (a k : Nat) : Chip := c.refusalEvent (homeHalf i.half a) none i.owner a k i.port

/-! ### The access codes (R19, R20) -/

/-- The RWL fields of a register are locked; the slot registers lock with the `CALLIPER_CTL` of either half (R338). -/
def Chip.locked (c : Chip) (f : Found) : Bool :=
  if f.blk.base = blkSLOT.base then c.slotLocked
  else match f.blk.lock with
    | some o => bit (c.reg (f.inst + o)) 31
    | none => false

/-- The chip with one more lock violation of a register's block counted: of the slots in the initiator's half, of a PCIe
port with the peer links of its half. -/
def Chip.lockViolation (c : Chip) (i : Initiator) (f : Found) : Chip :=
  if f.blk.base = blkSLOT.base then c.inc (F.CALLIPER_LOCKVIOL_COUNT i.half.idx)
  else if f.blk.base = blkPCIE.base then c.inc (F.PEER_LOCKVIOL_COUNT (f.half i.half).idx)
  else match f.blk.viol with
    | some o => c.inc ⟨f.inst + o, 0, match findRow f.blk.regs o with
      | some (r, _) => r.fields.foldl (fun w x => max w (x.hi + 1)) 0
      | none => 32⟩
    | none => c

/-- The chip after a register takes a write under the access codes of its fields (R19, R20). -/
def Chip.rawWrite (c : Chip) (i : Initiator) (f : Found) (a v : Nat) : Chip :=
  let old := c.reg a
  let rwl := accMask (· == .rwl) f.row.fields
  let set := accMask (· == .w1s) f.row.fields
  let lock := c.locked f
  let take := accMask (· == .rw) f.row.fields + (if lock then 0 else rwl)
  let c := if lock ∧ Nat.land (Nat.xor old v) rwl ≠ 0 then c.lockViolation i f else c
  c.setReg a (Nat.lor (old - Nat.land old take + Nat.land v take) (Nat.land v set))

/-! ### The registers that act -/

/-- The SYS block: `SYS_RESET` (R497). -/
def Chip.writeSys (c : Chip) (i : Initiator) (off v : Nat) : Chip :=
  if off ≠ 0x90 then c
  else if bit v 2 then c.sysReset i (bits v 8 8) [.H, .T]
  else c.sysReset i (bits v 8 8) ((if bit v 0 then [.H] else []) ++ (if bit v 1 then [.T] else []))

/-- The AUTH block: `AUTH_REQ` (R349, R358). -/
def Chip.writeReq (c : Chip) (h : Half) (v : Nat) : Chip :=
  let c := if bit v 0 then c.askHandover h else c
  if bit v 1 then c.askClearObs h else c

/-- The STEADY block: `STEADY_CMD`, and the configuration of a slot, taken while it is OPEN (R377, R391). -/
def Chip.writeSteady (c : Chip) (i : Initiator) (f : Found) (h : Half) (a v : Nat) : Chip :=
  let off := a % 0x80000
  if off = 0x10 then c.steadyCommand h (bits v 28 4) (bits v 0 4) (bits v 8 4)
  else if 0x1000 ≤ off ∧ off < 0x2000 then
    let take := accMask (· == .rw) f.row.fields
    if take = 0 then c
    else c.loopWrite h ((off - 0x1000) / 0x100) off a (c.reg a - Nat.land (c.reg a) take + Nat.land v take)
  else c.rawWrite i f a v

/-- The GATEWAY block: the gate lists take writes while unlocked and not pending (R399, R414), `GW_ETH_BASE_HI` arms them,
and a CAN controller follows its configuration. -/
def Chip.writeGw (c : Chip) (i : Initiator) (f : Found) (a v : Nat) : Chip :=
  let n := f.rix.getD 0 0
  if f.row.off = 0x40C then c.armGates n v
  else if f.row.off = 0x20000 ∨ f.row.off = 0x20004 then
    if c.on F.GW_CTL_LOCK ∨ c.on (F.GW_ETH_STAT_GCL_PENDING n) then c else c.rawWrite i f a v
  else if 0x100 ≤ f.row.off ∧ f.row.off ≤ 0x110 then (c.rawWrite i f a v).syncCan n
  else c.rawWrite i f a v

/-- The SCHED block: a partition whose `VALID` firmware clears is removed, and with it its parties, whose instances are reset
(R269, R309; assumption 164). -/
def Chip.writeSched (c : Chip) (i : Initiator) (f : Found) (a v : Nat) : Chip :=
  let c' := c.rawWrite i f a v
  let p := f.rix.getD 0 0
  if f.row.off = 0x100 ∧ c.partValid p ∧ ¬ c'.partValid p then
    ((List.range 256).filter fun n => decide (1 ≤ c.viState n ∧ c.viState n ≤ 2) && c.q (F.VI_INST_STATE_PART n) == p).foldl
      (fun (c : Chip) n => c.viReset i.half n 2) c'
  else c'

/-- A check-value unit: the running value's registers act; offsets 0x800 and above take firmware's writes alone (R423–R427). -/
def Chip.writeCvu (c : Chip) (i : Initiator) (f : Found) (a v : Nat) : Chip :=
  let n := Fin.ofNat 32 (f.bix.getD 0 0)
  let w : Word := BitVec.ofNat 32 v
  match f.row.off with
  | 0x0 => c.runOn (execCvuCtl i n w)
  | 0x4 => c.runOn (execCvuData i n w)
  | 0x8 => c.runOn (execCvuData8 i n w)
  | 0x10 => c.runOn (execCvuValLo i n w)
  | 0x14 => c.runOn (execCvuValHi i n w)
  | off => if 0x800 ≤ off ∧ ¬ i.isFirmware then c else c.rawWrite i f a v

/-- The TIME block: a write to a base takes effect 2 µs later (R438, R440); PPS capture out of service forgets its edge (R444). -/
def Chip.writeTime (c : Chip) (i : Initiator) (f : Found) (h : Half) (a v : Nat) : Chip :=
  let n := Fin.ofNat 8 (f.rix.getD 0 0)
  let w : Word := BitVec.ofNat 32 v
  match f.row.off with
  | 0x10C => c.runOn (execTbRate i h n w)
  | 0x110 => c.runOn (execTbStepLo i h n w)
  | 0x114 => c.runOn (execTbStepHi i h n w)
  | 0x118 => c.timeWrite i a h n.val fun c => c.steer h n.val 3 v
  | 0x11C => c.timeWrite i a h n.val fun c => c.steer h n.val 4 (v % 65536)
  | 0x120 => c.runOn (execTbRebase i h n w)
  | 0x100 => if n.val = 0 then c else c.rawWrite i f a v
  | 0x20 =>
    let c := c.rawWrite i f a v
    if c.on (F.TIME_PPS_CFG_ENABLE h.idx) then c else { c with time := c.time.set h { c.time.get h with pps := none } }
  | _ => c.rawWrite i f a v

/-- The SEC block: claims of the security core, the debug mailbox and its commands (R459, R471–R474, R478). -/
def Chip.writeSec (c : Chip) (i : Initiator) (f : Found) (h : Half) (a v : Nat) : Chip :=
  match f.row.off with
  | 0x1040 => c.setReg a v
  | 0x1120 =>
    match bits v 28 4 with
    | 1 => c.runOn (execChallenge i h)
    | 2 => c.runOn (execDebugOpen i h)
    | 3 => c.runOn (execDebugClose i h)
    | 4 => c.runOn (execToken i h)
    | _ => c
  | _ => c.rawWrite i f a v

/-- The POWER block: requests of states, and the clock steps that the limits and caps ask for (R517, R519, R522). Whether firmware has
parked an application core that the write names is not in the block, so it is free (assumption 167). -/
def Chip.writePower (c : Chip) (i : Initiator) (f : Found) (h : Half) (a v : Nat) : Chip :=
  match f.row.off with
  | 0x14 => c.powerState i h (v % 4)
  | 0x100 => let (d, c) := c.draw; c.unitRequest i h ((bits v 28 4 + 15) % 16) (bits v 0 7) (bit d 0)
  | 0x4 | 0x8 => (c.rawWrite i f a v).syncSteps h
  | _ => c.rawWrite i f a v

/-- The chip after a peer link goes down: the event names the link, state 0 and the far fabric number (R501, R514). -/
def Chip.linkDown (c : Chip) (h : Half) (l : Nat) : Chip :=
  let st := Reg.PEER_LINK_STATUS h.idx l
  let far := c.q (F.PEER_LINK_STATUS_FAR_NO h.idx l)
  let c' := (c.setReg st (c.reg st % 2 ^ 5)).syncLinks c
  if c.linkUp (8 * h.idx + l) then c'.ev h 0x0F00 [8 * h.idx + l, 0, far] else c'

/-- The PEER block: a link taken out of `LINK_EN` goes down. -/
def Chip.writePeer (c : Chip) (i : Initiator) (f : Found) (h : Half) (a v : Nat) : Chip :=
  let c := (c.rawWrite i f a v).syncLinks c
  if f.row.off ≠ 4 then c
  else (List.range 8).foldl (fun (c : Chip) l =>
    if bit (c.q (F.PEER_CTL_LINK_EN h.idx)) l ∨ c.q (F.PEER_LINK_STATUS_STATE h.idx l) = 0 then c else c.linkDown h l) c

/-- A loop slot of a half in charge of an output drives it, or an opened one still moves it to SAFE_U (R377, R383, R384). -/
def Chip.outputDriven (c : Chip) (h : Half) (key : Nat) : Bool :=
  ((c.hio.get h).fades.any fun x => x.key == key) || (List.range 16).any fun s => (c.loop h s).drives && (c.destKeys h s).contains key

/-- The HIO block: an output follows its register where no slot drives it (R383, R384), and an input its configuration (R387); page 1 ignores writes (R392). -/
def Chip.writeHio (c : Chip) (i : Initiator) (f : Found) (h : Half) (a v : Nat) : Chip :=
  let c' := c.rawWrite i f a v
  let n := f.rix.getD 0 0
  if f.row.off = 0x104 then c'.outputWritten h n (c'.outputDriven h n)
  else if f.row.off = 0x200 then c'.outputWritten h (16 + n) (c'.outputDriven h (16 + n))
  else if f.row.off = 0x500 then c'.syncDi h n
  else c'

/-- The owner IDs of ACTIVE records, which page 1 of the VI block admits (R303). -/
def Chip.selfAdmits (c : Chip) (i : Initiator) : Bool := i.owner.part != 0 && c.instState i.owner == 1

/-- The chip after an initiator selects a ring in its own `VI_SELF_SEL` (R303). -/
def Chip.selectSelf (c : Chip) (i : Initiator) (v : Nat) : Chip :=
  { c with viSelf := HoldCell.mk i.owner i.port Reg.VI_SELF_SEL i.half (BitVec.ofNat 32 (v % 65536)) ::
      c.viSelf.filter fun h => !(h.owner == i.owner && h.port == i.port) }

/-- The VI block, which admits as R303 and R315 lay down. -/
def Chip.writeVi (c : Chip) (i : Initiator) (f : Found) (a v : Nat) : Chip :=
  let w : Word := BitVec.ofNat 32 v
  let k := Fin.ofNat 5 (f.rix.getD 0 0)
  if 0x4000 ≤ f.row.off then (if i.isFirmware then c.rawWrite i f a v else c)
  else if f.row.off = 0x1000 then (if c.selfAdmits i then c.selectSelf i v else c)
  else if f.row.off = 0x1004 then c.runOn (execViSelf i k w)
  else if ¬ c.viAdmits i.owner then c
  else if f.row.off = 0x44 then c.runOn (execViRcfg i k w)
  else if f.row.off = 0x10 then
    let n := bits v 0 8
    match bits v 28 4 with
    | 1 => c.runOn (execCreate i (Fin.ofNat 256 n))
    | 2 => c.runOn (execReset i (Fin.ofNat 256 n))
    | 3 => c.runOn (execDestroy i (Fin.ofNat 256 n))
    | 4 => c.runOn (execShare i (Fin.ofNat 256 n))
    | op => c.viCommand i op n fun c => c.viRefused i op n 0x40
  else c.rawWrite i f a v

/-- The registers of a ring's doorbell page (R235, R238, R267); only firmware's writes of its configuration come here (R237). -/
def Chip.writeRing (c : Chip) (i : Initiator) (f : Found) (v : Nat) : Chip :=
  let r := f.bix.getD 0 0
  if f.row.off = 0 then c.runOn (execDoorbell i (Fin.ofNat 65536 r) (BitVec.ofNat 32 v))
  else if f.row.off < 0x800 then c
  else c.ringCfgWrite r ((f.row.off - 0x800) / 4) v

/-- The registers of a dowel slot (R256–R258, R268). -/
def Chip.writeDowel (c : Chip) (i : Initiator) (f : Found) (a v : Nat) : Chip :=
  let d := Fin.ofNat 16384 (f.bix.getD 0 0)
  let w : Word := BitVec.ofNat 32 v
  match f.row.off with
  | 0x08 => c.runOn (execDowelArgLo i d w)
  | 0x0C => c.runOn (execDowelMaxHi i d w)
  | 0x10 => c.runOn (execDowelAddHi i d w)
  | 0x14 => c.runOn (execDowelAdd32 i d w)
  | 0x18 => c.runOn (execDowelNotifyLo i d w)
  | 0x1C => c.runOn (execDowelNotifyHi i d w)
  | 0x80 => c.runOn (execDowelAttr i d w)
  | 0x84 => if i.isFirmware then c.rawWrite i f a v else c.dowelRefused i.owner d.val 4
  | _ => c

/-- The chip after a write of 1 to `BENCH_RETIRE`: the bench retires once the task in progress ends (R134). -/
def Chip.askRetireBench (c : Chip) (b : Nat) : Chip :=
  if c.on (F.BENCH_STATUS_RETIRED b) then c
  else
    let c := c.put (F.BENCH_RETIRE_RETIRE b) 1
    if (c.bench b).task.isNone then c.retireBench b 0 else c.setBench b { c.bench b with retiring := true }

/-- BENCH_RETIRE (R134): a write of 1 to the register by an initiator that reaches the page. -/
def execBenchRetire (i : Initiator) (b : Fin 32) (s : State) : Host.Outcome State Fault Refusal :=
  let c := s.chip
  let a := Reg.BENCH_RETIRE b.val
  match c.portCause i true a with
  | 0 => s.go (if c.down.get (benchHalf b.val) then c else c.askRetireBench b.val)
  | k => s.go (c.regRefused i a k)

/-- The chip after an admitted 32-bit write of a register (R19, R201). -/
def Chip.takeWrite (c : Chip) (i : Initiator) (f : Found) (a v : Nat) : Chip :=
  let h := f.half i.half
  let b := f.blk.base
  if b = blkSYS.base then c.writeSys i f.row.off v
  else if b = blkOWN.base ∧ f.row.off = 0x1C then c.ownCmd i (bits v 28 4) (bit v 27)
  else if b = blkARRAY.base ∧ f.row.off = 0x64 then
    (if bit v 0 then c.runOn (execArrayRetire i (Fin.ofNat 8 (f.bix.getD 0 0))) else c)
  else if b = blkBENCH.base ∧ f.row.off = 0x2C then (if bit v 0 then c.askRetireBench (f.bix.getD 0 0) else c)
  else if b = blkAUTH.base ∧ f.row.off = 0x8 then c.writeReq h v
  else if b = blkSTEADY.base then c.writeSteady i f h a v
  else if b = blkSCHED.base then c.writeSched i f a v
  else if b = blkGW.base then c.writeGw i f a v
  else if b = blkINTAKE.base then (c.rawWrite i f a v).syncCam (f.bix.getD 0 0)
  else if b = blkCVU.base then c.writeCvu i f a v
  else if b = blkTIME.base then c.writeTime i f h a v
  else if b = blkSEC.base then c.writeSec i f h a v
  else if b = blkPOWER.base then c.writePower i f h a v
  else if b = blkPEER.base then c.writePeer i f h a v
  else if b = blkHIO.base then c.writeHio i f h a v
  else if b = blkVI.base then c.writeVi i f a v
  else if b = blkRING.base then c.writeRing i f v
  else if b = blkDOWEL.base then c.writeDowel i f a v
  else c.rawWrite i f a v

/-- The chip after an access reaches a page of a half: in RETAIN it wakes for one from outside (R518). -/
def Chip.reached (c : Chip) (i : Initiator) (a : Nat) : Chip :=
  let h := homeHalf i.half a
  if h ≠ i.half ∨ i.via = .pcie ∨ i.via = .peer then c.wake h else c

/-- The chip after an initiator writes `v` at an address of the control space with an access of `width` bytes. -/
def Chip.regWrite (c : Chip) (i : Initiator) (width a v : Nat) : Chip :=
  let h := homeHalf i.half a
  if ¬ controlUsed a then c.regRefused i a 3
  else if width ≠ 4 ∨ a % 4 ≠ 0 then c.evOf h (widthEvent a) i.owner [a, i.owner.toNat]
  else if 0x30000000 ≤ a then c
  else if c.down.get h then c
  else if 0x1600000 ≤ a ∧ a < 0x1800000 then
    match c.portCause i true a with
    | 0 => if c.on F.GW_CTL_LOCK then c else c.setReg a v
    | k => c.regRefused i a k
  else match coefWord a with
    | some (h, n, k) => (c.reached i a).runOn (execCoefficientWrite i h n k (BitVec.ofNat 32 v))
    | none => match findReg a with
      | none => c.regRefused i a 3
      | some f =>
        let c := c.reached i a
        if f.blk.base = blkSEC.base ∧ f.row.off = 0x80 then c.runOn (execSecClaim i h (Fin.ofNat 4 (f.rix.getD 0 0)) (BitVec.ofNat 32 v))
        else if f.blk.base = blkRING.base ∧ 0x800 ≤ f.row.off ∧ ¬ i.isFirmware then c.ringCfgRefused i (f.bix.getD 0 0) f.row.off
        else match c.pageCause i true a with
          | 0 => c.takeWrite i f a v
          | k => c.regRefused i a k

/-- REGISTER_WRITE (R16, R19, R20, R200): a write of `width` bytes at an address of the control space. -/
def execRegisterWrite (i : Initiator) (width : Nat) (addr : BitVec 48) (val : Dword) (s : State) : Host.Outcome State Fault Refusal :=
  if addr.toNat < 0x40000000 then s.go (s.chip.regWrite i width addr.toNat (val.toNat % 2 ^ 32)) else s.go s.chip

/-- LOCK (R19, R20): a write of 1 to bit 31 of a block's lock register; `v` is its other bits. -/
def execLock (i : Initiator) (addr : BitVec 48) (v : BitVec 31) (s : State) : Host.Outcome State Fault Refusal :=
  let a := addr.toNat
  match findReg a with
  | some f => if f.row.fields.any fun x => x.hi == 31 && x.acc == .w1s && f.blk.lock.isSome then
      s.go (s.chip.regWrite i 4 a (2 ^ 31 + v.toNat)) else s.go s.chip
  | none => s.go s.chip

end Sys2Proof.Machine
end

