-- ==== Sys2Proof/Machine/RegRead.lean ====
section
/-! DEFINITION. Register reads: live registers, the holding registers of 64-bit pairs, the telemetry mirror (R16–R21, R200,
R201, R268, R540, R541). -/

namespace Sys2Proof.Machine

/-! ### Registers whose value follows the state -/

/-- The commands in flight at an attention engine, oldest first (R198). -/
def Chip.attnCmds (c : Chip) (h : Half) : List Cmd :=
  c.cmds.filter fun m => (m.opcode == 0x40 || m.opcode == 0x41) && m.half == h && m.stage != .fetched && m.stage != .queued && m.stage != .withdrawn

/-- The owner ID of the oldest of some commands in an OWNER field at bit 19. -/
def oldestOwner (l : List Cmd) : Nat :=
  match l.head? with
  | some m => m.owner.toNat * 2 ^ 19
  | none => 0

/-- Registers of the KVL block that follow the ledger and the engine (R198). -/
def Chip.liveKvl (c : Chip) (f : Found) (a : Nat) : Nat :=
  let h := Half.ofIdx (f.bix.getD 0 0)
  let e := c.frame h (c.q (F.KVL_ENTRY_SEL_FRAME h.idx))
  match f.row.off with
  | 0x20 => c.kvFreeCount h
  | 0x24 => c.kvCount h 3
  | 0x28 => c.kvCount h 2
  | 0x80 => c.kvUsed h (f.rix.getD 0 0)
  | 0xE4 => e.ref * 2 ^ 16 + e.pin * 2 ^ 8 + e.state
  | 0xE8 => e.owner.toNat
  | 0x100 => oldestOwner (c.attnCmds h) + (c.attnCmds h).length
  | _ => c.reg a

/-- A word of the error-log entry that `WEAR_LOG_SEL` shows, in the layout of R534. -/
def Chip.liveLog (c : Chip) (k : Nat) : Nat :=
  match c.log[c.q F.WEAR_LOG_SEL_INDEX]? with
  | none => 0
  | some e =>
    let r := toLE 2 0x10 ++ toLE 1 e.half ++ toLE 1 0 ++ toLE 4 e.seq ++ toLE 4 e.start ++ toLE 4 e.hours ++ e.body
    let crc := match crcPoly 3 with
      | some p => p.finish (p.bytes p.init r)
      | none => 0
    leNat (((r ++ toLE 4 crc).drop (4 * k)).take 4)

/-- Registers of the TIME block that follow the bases; the registers of TB_0 that steer read as zero (R449, R450). -/
def Chip.liveTime (c : Chip) (f : Found) (a : Nat) : Nat :=
  let h := Half.ofIdx (f.bix.getD 0 0)
  let n := f.rix.getD 0 0
  let t := c.stamp h n
  match f.row.off with
  | 0x104 | 0x1000 => t % 2 ^ 32
  | 0x108 | 0x1004 => t / 2 ^ 32
  | 0x10C | 0x118 | 0x11C | 0x100 => if n = 0 then 0 else c.reg a
  | _ => c.reg a

/-- States of the units of a half; the units of the other half read 3 (R519). -/
def Chip.liveUnits (c : Chip) (h : Half) (k a : Nat) : Nat :=
  (List.range 16).foldl (fun v j =>
    let b := 16 * k + j
    v + 4 ^ j * (if 126 ≤ b then bits (c.reg a) (2 * j) 2 else if claimHalf b = h then c.unitState b else 3)) 0

/-! Steps that begin and end at once leave no state between: a restore, a core test, a golden blank. Where one of them may be under way
a status bit for it reads as a free bit, number `k` of the next draw (R108, R134, R231; assumption 163). -/

/-- A free bit of a status register as it reads now. -/
def Chip.openBit (c : Chip) (k : Nat) : Bool := bit (Config.freeValue c.freeCnt).toNat k

/-- A saved context may be on its way back to an array, to a bench. -/
def Chip.mayRestoreArray (c : Chip) (a : Nat) : Bool :=
  (c.arr a).resident.isNone && c.arrayInService a && c.actx.any fun e => ringHalf e.1 == arrayHalf a
def Chip.mayRestoreBench (c : Chip) (b : Nat) : Bool :=
  (c.bench b).resident.isNone && c.on (F.BENCH_CTL_ENABLE b) && c.unitOn (8 + b) && !c.on (F.BENCH_STATUS_RETIRED b) &&
    c.bctx.any fun e => e.1 % 32 == b

/-- A core of a bench may be running its built-in test: at start, or between tasks (R129). -/
def Chip.mayTest (c : Chip) (b : Nat) : Bool :=
  (c.on (F.BENCH_CTL_TEST_EN b) || decide (c.q (F.SYS_START_PHASE (benchHalf b).idx) < 7)) && (c.bench b).task.isNone && c.unitOn (8 + b) &&
    !c.on (F.BENCH_STATUS_RETIRED b)

/-- An array may be running the golden blank that it owes (R325, R326). -/
def Chip.mayBlank (c : Chip) (a : Nat) : Bool := (c.arr a).owed && c.arrayInService a && ((c.arr a).forced || (c.arr a).jobs.isEmpty)

/-- A context of a half moves, and a Carriage is the one of its half that moves it (R220). -/
def Chip.switching (c : Chip) (k : Nat) : Bool :=
  let h := Half.ofIdx (k / 8)
  (((List.range 8).map (· + 8 * h.idx)).find? fun j => c.on (F.CARRIAGE_CTL_ENABLE j)) == some k &&
    (((List.range 8).any fun a => arrayHalf a == h && (c.on (F.ARRAY_STATUS_SAVE_RESTORE a) || (c.mayRestoreArray a && c.openBit 0))) ||
      ((List.range 32).any fun b => benchHalf b == h && (c.on (F.BENCH_STATUS_SAVE_RESTORE b) || (c.mayRestoreBench b && c.openBit 0))))

/-! ### The tracker (R229, R278) -/

/-- Entries that the gouge copies on a half hold, which a Carriage carries (R120). -/
def Chip.copiesHeld (c : Chip) (h : Half) (p : Nat → Bool) : Nat :=
  ((c.cores.filter fun e => benchHalf (e.1 / 64) == h).map fun e => ((e.2.copies.filter fun k =>
    !k.2.ended && p ((k.2.drop.map BitVec.toNat).getD (c.q (F.BENCH_STATUS_OWNER (e.1 / 64))))).map fun k => k.2.held).sum).sum

/-- A move waits for the answer to the read of its list through a window, which holds an entry (R229). -/
def Cmd.listOut (m : Cmd) : Bool := decide (0x50 ≤ m.opcode ∧ m.opcode ≤ 0x53) && m.stage == .running && m.aux.getD 6 0 == 1

/-- Tracker entries of a half in use by parties that a test admits. -/
def Chip.entriesUsed (c : Chip) (h : Half) (p : Owner → Bool) : Nat :=
  (c.txns.filter fun (e : Nat × Txn) => e.2.half == h && p e.2.owner).length + (c.copiesHeld h fun o => p (BitVec.ofNat 13 o)) +
    (c.cmds.filter fun m => m.listOut && m.half == h && p m.owner).length

/-- Tracker entries that a Carriage holds: the first in service of a half carries the gouge copies (R120, R231). -/
def Chip.ownUsed (c : Chip) (k : Nat) : Nat :=
  let h := Half.ofIdx (k / 8)
  (c.txns.filter fun (e : Nat × Txn) => e.2.unit == k).length + (c.cmds.filter fun m => m.listOut && m.unit == k).length +
    (if c.carriageOf h = some k then c.copiesHeld h fun _ => true else 0)

/-- `ARRAY_STATUS` (R108). -/
def Chip.liveArray (c : Chip) (n a : Nat) : Nat :=
  let (l, s, d) := (c.arr n).phases
  c.reg a + 2 ^ 6 * b2n (c.mayRestoreArray n && c.openBit 0) + 2 ^ 5 * b2n (c.remapping n) + 2 ^ 4 * b2n (c.mayBlank n && c.openBit 1) + 2 ^ 3 * b2n d + 2 ^ 2 * b2n s + 2 * b2n l

/-- `BENCH_STATUS` (R134). -/
def Chip.liveBench (c : Chip) (n a : Nat) : Nat :=
  c.reg a + 2 ^ 3 * b2n (c.mayRestoreBench n && c.openBit 0) + 2 ^ 2 * b2n (c.mayTest n && c.openBit 1)

/-- What a register holds at this moment. -/
def Chip.live (c : Chip) (f : Found) (a : Nat) : Nat :=
  let b := f.blk.base
  let n := f.bix.getD 0 0
  if b = blkKVL.base then c.liveKvl f a
  else if b = blkARRAY.base ∧ f.row.off = 0x8 then c.liveArray n a
  else if b = blkBENCH.base ∧ f.row.off = 0x8 then c.liveBench n a
  else if b = blkMEM.base ∧ a = (F.MEM_STATUS_PROGRESS n).addr then
    let x := F.MEM_STATUS_PROGRESS n
    if c.on (F.MEM_STATUS_REBUILDING n) then c.reg a - c.q x * 2 ^ x.lo + (Config.freeValue c.freeCnt).toNat % 100 * 2 ^ x.lo else c.reg a
  else if b = blkOWN.base ∧ f.row.off = 0x8 then c.ownAt (c.q F.OWN_SEL_INDEX)
  else if b = blkSEC.base ∧ f.row.off = 0x1040 then 0
  else if b = blkWEAR.base ∧ f.row.off = 0x84 then c.liveLog (f.rix.getD 0 0)
  else if b = blkWEAR.base ∧ f.row.off = 0x100 then Nat.lor (c.reg a) 1
  else if b = blkTIME.base then c.liveTime f a
  else if b = blkCALLIPER.base ∧ a = (F.CALLIPER_STATUS_ROUGH_LOST n).addr then
    let x := F.CALLIPER_STATUS_ROUGH_LOST n
    c.reg a - c.q x * 2 ^ x.lo + b2n (!c.roughOk (Half.ofIdx n)) * 2 ^ x.lo
  else if b = blkSTEADY.base ∧ a = (F.STEADY_STATUS_ENV_LEVEL n).addr then
    let x := F.STEADY_STATUS_ENV_LEVEL n
    c.reg a - c.q x * 2 ^ x.lo + c.envLevel (Half.ofIdx n) * 255 / 2 ^ 32 % 256 * 2 ^ x.lo
  else if b = blkHIO.base ∧ f.row.off = 0x1204 then c.encVel (Half.ofIdx n) (f.rix.getD 0 0)
  else if b = blkPOWER.base ∧ f.row.off = 0x110 then c.liveUnits (Half.ofIdx n) (f.rix.getD 0 0) a
  else if b = blkCVU.base ∧ a = (F.CVU_STATUS_BUSY n).addr then
    let x := F.CVU_STATUS_BUSY n
    c.reg a - c.q x * 2 ^ x.lo + b2n (c.cvuBusy n) * 2 ^ x.lo
  else if b = blkCARRIAGE.base ∧ f.row.off = 0x8 then
    oldestOwner (c.movesOn n) + (c.movesOn n).length + 2 ^ 7 * b2n (c.switching n)
  else if b = blkCARRIAGE.base ∧ f.row.off = 0xC then
    c.entriesUsed (f.half .H) (fun _ => true) * 2 ^ 16 + c.ownUsed n
  else if b = blkDOWEL.base ∧ f.row.off = 0x88 then
    (8192 - c.waitsHeld (dowelHalf n)) * 2 ^ 16 + (c.waits.filter fun w => w.hw && w.dowel == n).length
  else if b = blkRING.base ∧ a = (F.RING_STATUS_CQ_STALL n).addr then
    let x := F.RING_STATUS_CQ_STALL n
    c.reg a - c.q x * 2 ^ x.lo + b2n (c.cqStalled n) * 2 ^ x.lo
  else c.reg a

/-! ### Pairs and holding registers (R21) -/

/-- The `_LO` registers of the 64-bit pairs: block base and offset; the high word lies 4 bytes above. -/
def pairRows : List (Nat × Nat) :=
  [(0x200000, 0x10), (0x200000, 0x18), (0x300000, 0x48), (0x300000, 0x50), (0x400000, 0x10), (0x400000, 0x18),
    (0x500000, 0x18), (0x500000, 0x20), (0x508000, 0x14), (0x600000, 0x10), (0x600000, 0xC0), (0x600000, 0xE4)] ++
  [(0x600000, 0x108), (0x700000, 0x10), (0x800000, 0x18), (0xA00000, 0x20), (0xB00000, 0x408), (0xB00000, 0x6000C),
    (0xC00000, 0x10), (0xC80000, 0x24), (0xD00000, 0x10), (0xD00000, 0x18), (0xD00000, 0x20), (0xD00000, 0x2C)] ++
  [(0xE00000, 0x104), (0xE00000, 0x118), (0xE00000, 0x124), (0xE00000, 0x1000), (0x1200000, 0x1010), (0x1204000, 0x100),
    (0x10000000, 0x10), (0x10000000, 0x804), (0x20000000, 0x0)]

/-- A register is the low or the high word of a pair. -/
def isLo (f : Found) : Bool := pairRows.contains (f.blk.base, f.row.off)
def isHi (f : Found) : Bool := decide (4 ≤ f.row.off) && pairRows.contains (f.blk.base, f.row.off - 4)

/-- The stamp FIFOs' pairs, which an INFO read fills (R446). -/
def isStamp (f : Found) : Bool := f.blk.base == blkTIME.base && [0x444, 0x448, 0x454, 0x458].contains f.row.off

/-- A register has a field that may read as a free value. -/
def isOpen (f : Found) : Bool :=
  let b := f.blk.base
  ((b == blkARRAY.base || b == blkBENCH.base || b == blkCARRIAGE.base) && f.row.off == 0x8) || b == blkMEM.base

/-- The chip after an admitted read of a register that only shows, answered to `i`: a low word latches the high one in the
holding register of `j`, a high word answers what that holds, or the live one while it holds nothing (R21). -/
def Chip.showReg (c : Chip) (i j : Initiator) (f : Found) (a answerAt : Nat) : Chip :=
  if isStamp f then c.answering i answerAt (c.held j a)
  else if isLo f then
    let hi := match findReg (a + 4) with
      | some g => c.live g (a + 4)
      | none => 0
    (c.hold j (a + 4) hi).answering i answerAt (c.live f a)
  else if isHi f then c.answering i answerAt ((c.held? j a).getD (c.live f a))
  else { c.answering i answerAt (c.live f a) with freeCnt := c.freeCnt + b2n (isOpen f) }

/-! ### Reads -/

/-- What a read of the VI block answers, which admits as R303 and R315 lay down; a window shows the selected ring. -/
def Chip.viValue (c : Chip) (i : Initiator) (f : Found) (a : Nat) : Nat :=
  let k := f.rix.getD 0 0
  let ringReg (r : Nat) : Nat := c.reg ([Reg.RING_CFG r, Reg.RING_BASE_LO r, Reg.RING_BASE_HI r, Reg.RING_LINK r, Reg.RING_IRQ r].getD k 0)
  if f.row.off = 0x1000 then (if c.selfAdmits i then c.selfSel i else 0)
  else if f.row.off = 0x1004 then
    let r := c.selfSel i
    if c.selfAdmits i ∧ c.on F.VI_CTL_MODE ∧ c.ownsRing i.owner r then ringReg r else 0
  else if ¬ c.viAdmits i.owner then 0
  else if f.row.off = 0x44 then
    let r := c.q F.VI_RCFG_SEL_RING
    let may := match c.ringRecord r with
      | some n => c.viMayAct i.owner n
      | none => false
    if may then ringReg r else 0
  else c.live f a

/-- The chip after an admitted 32-bit read of a register. -/
def Chip.takeRead (c : Chip) (i : Initiator) (f : Found) (a : Nat) : Chip :=
  let b := f.blk.base
  if b = blkTIME.base ∧ f.row.off = 0x440 then
    c.runOn (execTxtsInfoRead i (Fin.ofNat 8 (4 * f.bix.getD 0 0 + f.rix.getD 0 0)))
  else if b = blkTIME.base ∧ f.row.off = 0x450 then
    c.runOn (execRxtsInfoRead i (Fin.ofNat 8 (4 * f.bix.getD 0 0 + f.rix.getD 0 0)))
  else if b = blkVI.base then c.answering i a (c.viValue i f a)
  else if b = blkDOWEL.base ∧ ¬ c.dowelRead i.owner (f.bix.getD 0 0) then
    (c.dowelRefused i.owner (f.bix.getD 0 0) 0).answering i a 0
  else c.showReg i i f a a

/-- Fields that the mirror shows as zero: whole registers, or the owner field of a status register (R540). -/
def mirrorMask (f : Found) : Nat :=
  let b := f.blk.base
  let o := f.row.off
  if (b = blkARRAY.base ∨ b = blkBENCH.base ∨ b = blkCARRIAGE.base ∨ b = blkPARTING.base) ∧ o = 8 then 2 ^ 19
  else if b = blkKVL.base ∧ o = 0x100 then 2 ^ 19
  else if (b = blkKVL.base ∧ o = 0xE8) ∨ (b = blkOWN.base ∧ o = 8) ∨ (b = blkSEC.base ∧ 0x1000 ≤ o) then 1
  else if b = blkTIME.base ∧ 0x440 ≤ o ∧ o ≤ 0x458 then 1
  else 2 ^ 32

/-- The chip after a read through the telemetry mirror of the register at `a`; the mirror holds high words for each reader
in registers of its own (R540, R541). -/
def Chip.mirrorRead (c : Chip) (i : Initiator) (a : Nat) : Chip :=
  let at' := a + 0x30000000
  let h := homeHalf i.half a
  let g := a / 0x100000
  if ¬ (i.isFirmware ∨ bit (Nat.lor (c.reg (Reg.WEAR_MIRROR g)) 1) i.owner.part) then
    let c := c.answering i at' 0
    if c.mirrorRuns.contains i.owner then c
    else { c.evOf i.half 0x1118 i.owner [g, i.owner.toNat] with mirrorRuns := i.owner :: c.mirrorRuns }
  else
    let c := { c with mirrorRuns := c.mirrorRuns.filter (· != i.owner) }
    if c.down.get h then c.answering i at' 0
    else if (coefWord a).isSome then c.answering i at' (c.reg a)
    else match findReg a with
    | none => (c.regRefused i at' 3).answering i at' 0
    | some f =>
      let c := if f.blk.base = blkVI.base then c.answering i at' (c.viValue { i with owner := 0 } f a)
        else c.showReg i { i with port := i.port + 2 ^ 32 } f a at'
      match c.answer with
      | some x => { c with answer := some { x with val := BitVec.ofNat 64 (x.val.toNat % mirrorMask f) } }
      | none => c

/-- The chip after an initiator reads an address of the control space with an access of `width` bytes. -/
def Chip.regRead (c : Chip) (i : Initiator) (width a : Nat) : Chip :=
  let h := homeHalf i.half a
  if ¬ controlUsed a then (c.regRefused i a 3).answering i a 0
  else if width ≠ 4 ∨ a % 4 ≠ 0 then (c.evOf h (widthEvent a) i.owner [a, i.owner.toNat]).answering i a 0
  else if 0x30000000 ≤ a then c.mirrorRead i (a - 0x30000000)
  else if c.down.get h then c.answering i a 0
  else if (0x1600000 ≤ a ∧ a < 0x1800000) ∨ (coefWord a).isSome then
    let c := c.reached i a
    match c.portCause i false a with
    | 0 => c.answering i a (c.reg a)
    | k => (c.regRefused i a k).answering i a 0
  else match findReg a with
    | none => (c.regRefused i a 3).answering i a 0
    | some f =>
      let c := c.reached i a
      match c.pageCause i false a with
      | 0 => c.takeRead i f a
      | k => (c.regRefused i a k).answering i a 0

/-- REGISTER_READ (R16, R200): a read of `width` bytes at an address of the control space. -/
def execRegisterRead (i : Initiator) (width : Nat) (addr : BitVec 48) (s : State) : Host.Outcome State Fault Refusal :=
  if addr.toNat < 0x40000000 then s.go (s.chip.regRead i width addr.toNat) else s.go s.chip

/-- LO_READ_LATCH (R21): a read of the low word of a pair. -/
def execLoReadLatch (i : Initiator) (addr : BitVec 48) (s : State) : Host.Outcome State Fault Refusal :=
  match findReg addr.toNat with
  | some f => if isLo f then s.go (s.chip.regRead i 4 addr.toNat) else s.go s.chip
  | none => s.go s.chip

/-- MIRROR_READ (R540, R541): a read of the telemetry mirror; `addr` is the address of the register shown. -/
def execMirrorRead (i : Initiator) (addr : BitVec 25) (s : State) : Host.Outcome State Fault Refusal :=
  s.go (s.chip.regRead i 4 (0x30000000 + addr.toNat))

end Sys2Proof.Machine
end

