-- ==== Sys2Proof/Machine/Carriage.lean ====
section
/-! DEFINITION. The Carriages: moves, their pieces and transactions, accesses through windows (R216–R229, R504–R508, R513). -/

namespace Sys2Proof.Machine

/-! ### Addresses -/

/-- An address lies in a granule of device type (R22, R204, R216). -/
def Chip.isDevice (c : Chip) (a : Nat) : Bool :=
  decide (a < 0x40000000) || decide (0x100000000 ≤ a ∧ a < 0x180000000) ||
    ((inDram a || isPcie a) && match ownIndex a with
      | some i => ownGood (c.ownAt i) && ownType (c.ownAt i) == 1
      | none => false)

/-- A range touches a granule of device type. -/
def Chip.touchesDevice (c : Chip) (a n : Nat) : Bool := (granuleStarts a n).any c.isDevice

/-- An engine that acts for a party on the register bus. -/
def engineBus (o : Owner) (h : Half) (port : Nat) : Initiator := ⟨o, port, h, .engine⟩

/-- Why an access to one address is refused, register pages and dowel slots included (R216, R255, R268); 0 where it is
granted. -/
def Chip.busCause (c : Chip) (i : Initiator) (write : Bool) (a : Nat) : Nat :=
  match c.portCause i write a with
  | 0 =>
    if 0x40000000 ≤ a ∨ 0x30000000 ≤ a ∨ (0x1600000 ≤ a ∧ a < 0x1800000) ∨ (coefWord a).isSome then 0
    else match findReg (a / 4 * 4) with
      | none => 3
      | some f =>
        if f.blk.base = blkDOWEL.base then
          let d := f.bix.getD 0 0
          let ok := if ¬ write ∨ f.row.off = 0x18 ∨ f.row.off = 0x1C then c.dowelRead i.owner d
            else if 0x08 ≤ f.row.off ∧ f.row.off ≤ 0x14 then c.dowelSignal i.owner d else i.isFirmware
          if ok then 0 else 1
        else c.pageCause i write a
  | k => k

/-- The first address of a range whose access is refused, with the cause: every granule that it touches is checked (R216). -/
def Chip.busRange (c : Chip) (i : Initiator) (write : Bool) (a n : Nat) : Option (Nat × Nat) :=
  ((granuleStarts a n).find? fun x => c.busCause i write x != 0).map fun x => (x, c.busCause i write x)

/-- The chip after a refused access of an engine: its event, or the dowel's own (R230, R255). -/
def Chip.busRefused (c : Chip) (m : Option Cmd) (i : Initiator) (write : Bool) (a k engine : Nat) : Chip :=
  if 0x20000000 ≤ a ∧ a < 0x20400000 ∧ k = 1 then
    c.dowelRefused i.owner ((a - 0x20000000) / 0x100) (rightAsked write (a % 0x100)) (m.map (·.id.ring.val))
  else c.refusalEvent i.half m i.owner a k engine

/-- Bytes read on the register bus; the answer goes to the engine, not to an outside initiator. -/
def Chip.busRead (c : Chip) (i : Initiator) (a n : Nat) : List Byte × Chip :=
  let c' := c.regRead i n a
  let v := match c'.answer with
    | some x => x.val.toNat
    | none => 0
  (toLE n v, { c' with answer := c.answer })

/-- The first address of a range that an engine of a half cannot reach on the bus for a party, with the cause: refused there, or
through a window as `far` says (R16, R200, R216, R226, R255). -/
def Chip.engineCause (c : Chip) (i : Initiator) (write : Bool) (a n : Nat) (far : Far) : Option (Nat × Nat) :=
  match c.busRange i write a n with
  | some e => some e
  | none => c.reachCause i.half i.owner write a n far

/-- Bytes that an engine reads where nothing refuses it: a register's through the bus, where another width than 32 bits gives 0 and its
event (R16); bad check bytes that firmware meets raise theirs. -/
def Chip.engineGet (c : Chip) (m : Option Cmd) (i : Initiator) (a n engine : Nat) : List Byte × Chip :=
  let c := (c.badEntries i.half m i.owner a n engine).pcieSent i.owner a
  if a < 0x40000000 then c.busRead i a n else (c.load a n, c)

/-- The chip after an engine writes bytes where nothing refuses it, to a register through the bus (R16). -/
def Chip.enginePut (c : Chip) (m : Option Cmd) (i : Initiator) (a : Nat) (bs : List Byte) (engine : Nat) : Chip :=
  let c := (c.badEntries i.half m i.owner a bs.length engine).pcieSent i.owner a
  if a < 0x40000000 then c.regWrite i bs.length a (leNat bs) else c.store a bs

/-- An engine that runs a command, on the bus. -/
def Cmd.bus (m : Cmd) : Initiator := engineBus m.owner m.half (0x100 + m.unit)

/-- Bytes that an engine reads for a command, as the reads of its step show them; or where and why it has none, and whether this read has
found the data lost (R16, R106, R208–R210, R216, R226). -/
def Chip.engineSee (c : Chip) (m : Cmd) (i : Initiator) (a n engine : Nat) (far : Far) (o : Seen) :
    Except (Bool × Nat × Nat) (List Byte) × Chip :=
  match c.engineCause i false a n far with
  | some e => (.error (false, e), c)
  | none =>
    let (e, c) := c.sight [(a, n)] o
    match e.lost with
    | some u => (.error (true, u, 4), c)
    | none =>
      let (bs, c) := c.engineGet (some m) i a n engine
      (.ok (if e.wrong then c.freeBytes n else bs), { c with freeCnt := c.freeCnt + b2n e.wrong })

/-! ### Routes and links (R502, R504) -/

/-- The link by which an access of a half to a peer-window address leaves: an up link of the half's own entry, else of the
other half's where `VIA_PEER` allows it, chosen by a fixed hash of address bits [47:12]. -/
def Chip.routeOf (c : Chip) (h : Half) (a : Nat) : Option Nat :=
  let n := fabricOf a
  let own := c.entryLinks h n
  let l := if own ≠ [] then own else if c.on (F.PEER_ROUTE_VIA_PEER h.idx n) then c.entryLinks h.other n else []
  l[Config.linkHash (bits a 12 36) % max l.length 1]?

/-- The chip after a flit leaves on a link: counted, and a link in LOW is active again. -/
def Chip.flitOut (c : Chip) (l : Nat) : Chip :=
  let (h, k) := (l / 8, l % 8)
  let c := c.countPair (Reg.PEER_LINK_TX_LO h k) (Reg.PEER_LINK_TX_HI h k) 1
  let c := if c.q (F.PEER_LINK_STATUS_STATE h k) = 3 then c.put (F.PEER_LINK_STATUS_STATE h k) 2 else c
  let x := Tbl.look LinkSt.zero c.links l
  { c with links := Tbl.put LinkSt.zero c.links l { x with lastFlit := c.stamp (Half.ofIdx h) 0 } }

/-- A page's accesses in flight left by another link: a page whose link changes takes no new access until they are
answered (R504). -/
def Chip.pageHeld (c : Chip) (a l : Nat) : Bool :=
  c.txns.any fun (e : Nat × Txn) => e.2.sent.isSome && e.2.via.isSome && e.2.via != some l && e.2.addr / 4096 == a / 4096

/-- The chip after a transaction that waits leaves, where a link takes it. -/
def Chip.sendTxn (c : Chip) (t : Nat) : Chip :=
  match Tbl.find? c.txns t with
  | none => c
  | some x =>
    if x.sent.isSome then c
    else
      let now := c.stamp x.half 0
      let c := if isPeer x.addr then c else c.pcieSent x.owner x.addr
      if ¬ isPeer x.addr then
        let c : Chip := { c with txns := Tbl.ins c.txns t { x with sent := some now, pasid := c.outPasid x.owner x.addr, seq := c.txnSent }, txnSent := c.txnSent + 1 }
        match addrHalf x.addr with
        | some k => if k = x.half then c else c.wake k
        | none => c
      else match c.routeOf x.half x.addr with
        | none => c
        | some l => if c.pageHeld x.addr l then c
          else Chip.flitOut { c with txns := Tbl.ins c.txns t { x with sent := some now, via := some l, seq := c.txnSent }, txnSent := c.txnSent + 1 } l

/-! ### The tracker (R229, R278) -/

/-- Entries of a half's tracker that are free for a party: its reserve first, then what no other reserve keeps (R278). -/
def Chip.entriesLeft (c : Chip) (h : Half) (o : Owner) : Nat :=
  let left (p : Nat) := (if c.strictPart p then c.q (F.SCHED_PART_RSV_TXN_RSV p) else 0) - c.entriesUsed h fun x => x.part == p && c.strict x
  let kept := ((List.range 16).map left).sum
  (if c.strict o then left o.part else 0) + (24576 - (c.entriesUsed h (fun _ => true) + kept))

/-- Entries that a party's work on a Carriage of a half can take now (R229, R278). -/
def Chip.roomOn (c : Chip) (h : Half) (k : Nat) (o : Owner) : Nat := min (c.entriesLeft h o) (4096 - c.ownUsed k)

/-- The chip with the largest counts of a half's entries in use, and of those that a Carriage of it holds, noted (R231). -/
def Chip.noteMax (c : Chip) (h : Half) (k : Nat) : Chip :=
  let all := c.entriesUsed h fun _ => true
  ((List.range 8).map (· + 8 * h.idx)).foldl (fun (c : Chip) k =>
    c.put (F.CARRIAGE_TXN_MAX_HALF_MAX k) (max (c.q (F.CARRIAGE_TXN_MAX_HALF_MAX k)) all))
    (c.put (F.CARRIAGE_TXN_MAX_OWN_MAX k) (max (c.q (F.CARRIAGE_TXN_MAX_OWN_MAX k)) (c.ownUsed k)))

/-- The chip after a transaction is issued, the largest counts of entries held noted. -/
def Chip.newTxn (c : Chip) (x : Txn) : Chip :=
  let t := c.txnNext
  (Chip.noteMax { c with txns := c.txns ++ [(t, x)], txnNext := t + 1 } x.half x.unit).sendTxn t

/-! ### Descriptors (R221–R225) -/

/-- The bytes written are fed to a check-value unit, and which. -/
def Cmd.feeds (m : Cmd) : Bool := bit (m.word 6) 6
def Cmd.cvu (m : Cmd) : Nat := m.fld 6 0 6

/-- Extents and element size of a strided move: bytes of a row, rows, planes. -/
def Cmd.esize (m : Cmd) : Nat := 2 ^ m.fld 1 48 4
def Cmd.rowBytes (m : Cmd) : Nat := m.fld 3 0 24 * m.esize
def Cmd.rows (m : Cmd) : Nat := m.fld 3 24 24
def Cmd.planes (m : Cmd) : Nat := m.fld 3 48 16

/-- Source and destination address of byte `x` of a row of a strided move (R222). -/
def Cmd.strided (m : Cmd) (row x : Nat) : Nat × Nat :=
  let (i, j) := (row % max m.rows 1, row / max m.rows 1)
  let at' (base s1 s2 : Nat) : Nat := unsgn 48 ((alignDown base m.esize + x : Nat) + i * sgn 32 s1 + j * sgn 32 s2)
  (at' (m.fld 1 0 48) (m.fld 4 0 32) (m.fld 4 32 32), at' (m.fld 2 0 48) (m.fld 5 0 32) (m.fld 5 32 32))

/-- An entry of a gather list: source, destination, length, and whether its fields are in range (R223). -/
def Cmd.gatherEntry (m : Cmd) (e : List Byte) : Nat × Nat × Nat × Bool :=
  let addr := leNat (e.take 6)
  let len := leNat ((e.drop 8).take 4)
  let side := (m.fld 2 0 48 + leNat ((e.drop 12).take 4)) % 2 ^ 48
  let ok := leNat ((e.drop 6).take 2) == 0 && decide (0 < len ∧ len ≤ 16777216)
  if bit (m.word 3) 32 then (side, addr, len, ok) else (addr, side, len, ok)

/-- Address of entry `n` of a gather list, of page-list entry `n` of the pages moved. -/
def Cmd.listAddr (m : Cmd) (n : Nat) : Nat :=
  if m.opcode = 0x51 then alignDown (m.fld 1 0 48) 16 + 16 * n else alignDown (m.fld 1 0 48) 4 + 4 * (m.fld 4 0 16 + n)

/-- Entries or pages of a move. -/
def Cmd.moveEntries (m : Cmd) : Nat := if m.opcode = 0x51 then m.fld 3 0 24 else m.fld 4 16 16

/-- Bytes per page of a page-list move, and the buffer of page `n` (R224). -/
def Cmd.pageLen (m : Cmd) : Nat := m.fld 3 32 32
def Cmd.pageBuf (m : Cmd) (n : Nat) : Nat := (m.fld 2 0 48 + n * m.pageLen) % 2 ^ 48
/-- Frames are written from the buffer. -/
def Cmd.toFrames (m : Cmd) : Bool := bit (m.word 4) 32

/-- The move has nothing to do (R222–R225). -/
def Cmd.moveEmpty (m : Cmd) : Bool :=
  match m.opcode with
  | 0x50 => m.rowBytes == 0 || m.rows == 0 || m.planes == 0
  | 0x53 => m.fld 3 0 40 / 8 == 0
  | _ => m.moveEntries == 0

/-- The address and the cause of what ends a move before it makes any access (R221, R222, R224, R226). -/
def Chip.badMove (c : Chip) (m : Cmd) : Option (Nat × Nat) :=
  if m.feeds ∧ 32 ≤ m.cvu then some (0, 8)
  else if m.feeds ∧ c.cvuHolder m.cvu ≠ m.owner then some (0x00D00000 + m.cvu * 0x1000, 7)
  else if m.opcode = 0x50 ∧ 3 < m.fld 1 48 4 then some (0, 8)
  else if m.opcode = 0x52 ∧ (m.pageLen = 0 ∨ max (c.kvPool .H).2.1 (c.kvPool .T).2.1 < m.fld 3 0 32 + m.pageLen ∨ 4096 < m.moveEntries) then some (0, 8)
  else none

/-- The spans of a move as they stand: source, destination, length. -/
def Chip.moveSpans (c : Chip) (m : Cmd) : List (Nat × Nat × Nat) :=
  match m.opcode with
  | 0x50 => (List.range (m.rows * m.planes)).map fun r => ((m.strided r 0).1, (m.strided r 0).2, m.rowBytes)
  | 0x51 => (List.range m.moveEntries).map fun n => let e := m.gatherEntry (c.load (m.listAddr n) 16); (e.1, e.2.1, e.2.2.1)
  | 0x52 => (List.range m.moveEntries).filterMap fun n =>
      (c.frameNo (c.loadN (m.listAddr n) 4)).map fun f =>
        let a := c.frameAddr f.1 f.2 + m.fld 3 0 32
        if m.toFrames then (m.pageBuf n, a, m.pageLen) else (a, m.pageBuf n, m.pageLen)
  | _ => []

/-- Source bytes of a move overlap its own destination bytes (R228). -/
def Chip.overlapping (c : Chip) (m : Cmd) : Bool :=
  let l := c.moveSpans m
  l.any fun x => l.any fun y => decide (x.1 < y.2.1 + y.2.2 ∧ y.2.1 < x.1 + x.2.2)

/-! ### Pieces -/

/-- What a move does next. -/
inductive NextPiece where
  | finished
  /-- Its list lies behind a window, and the answer to its read has not come. -/
  | wait
  /-- It ends at an address with a cause; `found` if it is its own read that has just found the data lost (R210). -/
  | fault (addr cause : Nat) (found : Bool)
  /-- One request: its source, or the bytes it writes; its destination; its length; the command afterwards. -/
  | piece (src : Option Nat) (dst len : Nat) (data : List Byte) (m : Cmd)

/-- Progress of a move: entry `n`, byte `x` in it. -/
def Cmd.at' (m : Cmd) (n x : Nat) : Cmd := { m with n := n, aux := x :: m.aux.drop 1 }

/-- The length of the next piece of a span: one access of `unit` bytes where it touches a device granule, else what lies in
one 64-byte unit at both ends (R227, R229). -/
def Chip.pieceLen (c : Chip) (src : Option Nat) (dst left unit : Nat) : Nat :=
  let s := src.getD dst
  if c.isDevice s || c.isDevice dst then min unit left else min left (min (64 - s % 64) (64 - dst % 64))

/-- An entry of a move's list is read once, when its turn comes: its bytes, or what ends the move and whether this read has found the
data lost; none where it lies behind a window and has no answer or no tracker entry yet. `far` is how the read ends and what it
shows (R208–R210, R223, R224, R226, R229). -/
def Chip.listRead (c : Chip) (m : Cmd) (a n : Nat) (far : Option (Far × Seen)) : Except (Option (Bool × Nat × Nat)) (List Byte) × Chip :=
  if m.aux.getD 4 0 = m.n + 1 then (.ok (toLE n (m.aux.getD 5 0)), c)
  else
    let (f, o) := far.getD (.answered, [])
    let granted := (c.engineCause m.bus false a n .answered).isNone
    if granted ∧ inWindow a ∧ (far.isNone ∨ (m.listOut = false ∧ c.roomOn m.half m.unit m.owner = 0)) then (.error none, c)
    else match c.engineSee m m.bus a n m.opcode f o with
      | (.error e, c) => (.error (some e), c)
      | (.ok bs, c) => (.ok bs, { c with freeCnt := c.freeCnt + b2n (inWindow a) })

/-- A move that holds the list entry whose turn it is. -/
def Cmd.keep (m : Cmd) (bs : List Byte) : Cmd :=
  { m with aux := [m.aux.getD 0 0, m.aux.getD 1 0, m.aux.getD 2 0, m.aux.getD 3 0, m.n + 1, leNat bs] }

/-- A piece of a span of `len` bytes at byte `x`. -/
def Chip.spanPiece (c : Chip) (m : Cmd) (src : Option Nat) (dst len unit : Nat) (data : List Byte) : NextPiece :=
  let x := m.aux.getD 0 0
  let n := c.pieceLen (src.map (· + x)) (dst + x) (len - x) unit
  .piece (src.map (· + x)) (dst + x) n (data.take n) (if x + n < len then m.at' m.n (x + n) else m.at' (m.n + 1) 0)

/-- Both ends of a piece in units of 4 bytes, as device granules need it where a move has no element size (R227). -/
def Chip.unitsOk (c : Chip) (src dst len : Nat) : Bool :=
  !(c.touchesDevice src len || c.touchesDevice dst len) || (src % 4 == 0 && dst % 4 == 0 && len % 4 == 0)

/-- The next piece of a strided move, row by row. -/
def Chip.nextStrided (c : Chip) (m : Cmd) : NextPiece :=
  if m.rows * m.planes ≤ m.n then .finished
  else c.spanPiece m (some (m.strided m.n 0).1) (m.strided m.n 0).2 m.rowBytes m.esize []

/-- The next piece of a gather move, entry by entry. -/
def Chip.nextGather (c : Chip) (m : Cmd) (far : Option (Far × Seen)) : NextPiece × Chip :=
  if m.moveEntries ≤ m.n then (.finished, c)
  else
    let a := m.listAddr m.n
    match c.listRead m a 16 far with
    | (.error none, c) => (.wait, c)
    | (.error (some e), c) => (.fault e.2.1 e.2.2 e.1, c)
    | (.ok bs, c) =>
      let (src, dst, len, ok) := m.gatherEntry bs
      if ¬ ok ∨ ¬ c.unitsOk src dst len then (.fault a 8 false, c) else (c.spanPiece (m.keep bs) (some src) dst len 4 [], c)

/-- The next piece of a page-list move, page by page; its frame is pinned before (R224). -/
def Chip.nextPage (c : Chip) (m : Cmd) (far : Option (Far × Seen)) : NextPiece × Chip :=
  if m.moveEntries ≤ m.n then (.finished, c)
  else
    let a := m.listAddr m.n
    let buf := m.pageBuf m.n
    let bufOk := !c.touchesDevice buf m.pageLen || (buf % 4 == 0 && m.pageLen % 4 == 0)
    match c.listRead m a 4 far with
    | (.error none, c) => (.wait, c)
    | (.error (some e), c) => (.fault e.2.1 e.2.2 e.1, c)
    | (.ok bs, c) =>
      let e := leNat bs
      let m := m.keep bs
      if ¬ bufOk then (.fault a 8 false, c)
      else if e = 0xFFFFFFFF then
        (if m.toFrames then .fault a 5 false else c.spanPiece m none buf m.pageLen 4 (List.replicate 64 0), c)
      else match c.frameNo e with
        | none => (.fault a (c.frameCause e) false, c)
        | some (h, n) =>
          let p := c.frameAddr h n + m.fld 3 0 32
          if (c.kvPool h).2.1 < m.fld 3 0 32 + m.pageLen then (.fault a 8 false, c)
          else match c.kvPin m e with
            | .error _ => (.fault p 1 false, c.countOp h true)
            | .ok c =>
              if m.toFrames then (if 1 < (c.frame h n).ref then .fault p 6 false else c.spanPiece m (some buf) p m.pageLen 4 [], c)
              else (c.spanPiece m (some p) buf m.pageLen 4 [], c)

/-- The next piece of a fill move (R225). -/
def Chip.nextFill (c : Chip) (m : Cmd) : NextPiece :=
  let len := m.fld 3 0 40 / 8 * 8
  if 0 < m.n ∨ len = 0 then .finished
  else c.spanPiece m none (alignDown (m.fld 1 0 48) 8) len 8 ((List.replicate 8 (toLE 8 (m.word 2))).flatten)

/-- What a move does next, and the chip once a frame is pinned for it. -/
def Chip.nextPiece (c : Chip) (m : Cmd) (far : Option (Far × Seen)) : NextPiece × Chip :=
  match m.opcode with
  | 0x50 => (c.nextStrided m, c)
  | 0x51 => c.nextGather m far
  | 0x52 => c.nextPage m far
  | _ => (c.nextFill m, c)

/-! ### Issuing (R218, R220, R227) -/

/-- A move that issues no more. -/
def Cmd.noMore (m : Cmd) : Cmd := { m with aux := [m.aux.getD 0 0, m.aux.getD 1 0, 1, m.aux.getD 3 0] }
def Cmd.issued (m : Cmd) : Bool := m.aux.getD 2 0 == 1

/-- The chip after a move ends at an address with a cause of R226; an uncorrectable read that has just been found has had its
event 0x0311 and is no read of a poisoned unit (R210, R230). -/
def Chip.moveFault (c : Chip) (m : Cmd) (write : Bool) (a k : Nat) (found : Bool := false) : Chip :=
  let c := c.setCmd (m.endAt a k).noMore
  if 1 ≤ k ∧ k ≤ 4 ∧ ¬ found then
    let c := if k = 4 then c else c.inc (F.CARRIAGE_REFUSED_COUNT m.unit)
    c.busRefused (some m) (engineBus m.owner m.half (0x100 + m.unit)) write a k m.opcode
  else c

/-- Where a piece's access is refused or cannot be made, and why. -/
def Chip.pieceCause (c : Chip) (m : Cmd) (write : Bool) (a n : Nat) : Option (Nat × Nat) :=
  match c.busRange (engineBus m.owner m.half (0x100 + m.unit)) write a n with
  | some e => some e
  | none => if c.windowGone m.half a then some (a, 10) else none

/-- The transactions of a move that are in flight. -/
def Chip.txnsOf (c : Chip) (id : CmdId) : List Txn := (c.txns.filter fun (e : Nat × Txn) => e.2.id == id).map (·.2)

/-- A command is a move that has started and has not left flight. -/
def Cmd.moving (m : Cmd) : Bool := decide (0x50 ≤ m.opcode ∧ m.opcode ≤ 0x53) && (m.stage == .running || m.stage == .withdrawn)

/-- A move that started earlier feeds the check-value unit that a move names (R427). -/
def Chip.cvuTaken (c : Chip) (m : Cmd) : Bool :=
  m.feeds && (c.cvuOrder.takeWhile (· != m.id)).any fun i => match c.cmd? i with
    | some e => e.moving && e.feeds && e.cvu == m.cvu
    | none => false

/-- The chip after a move that feeds a check-value unit starts: it comes last in their order (R427). -/
def Chip.cvuQueue (c : Chip) (m : Cmd) : Chip :=
  if ¬ m.feeds then c
  else
    let live := c.cvuOrder.filter fun i => i != m.id && match c.cmd? i with
      | some e => e.moving
      | none => false
    { c with cvuOrder := live ++ [m.id] }

/-- The chip after a move issues its next request, if it can issue one now. -/
def Chip.issueOne (c : Chip) (id : CmdId) (far : Option (Far × Seen)) : Option Chip :=
  match c.cmd? id with
  | none => none
  | some m =>
    if m.stage ≠ .running ∨ m.issued ∨ c.cvuTaken m ∨ ¬ c.awake m.half then none
    else if m.opcode = 0x52 ∧ ¬ (c.pinOps.get m.half).contains id then none
    else
      let out := c.txnsOf id
      let m := if m.feeds then { m with aux := m.aux.take 3 ++ 1 :: m.aux.drop 4 } else m
      match c.nextPiece m far with
      | (.wait, _) =>
        if m.listOut ∨ c.roomOn m.half m.unit m.owner = 0 then none
        else some ((c.setCmd { m with aux := [m.aux.getD 0 0, m.aux.getD 1 0, m.aux.getD 2 0, m.aux.getD 3 0, 0, 0, 1] }).noteMax m.half m.unit)
      | (.finished, c) => some (c.setCmd m.noMore)
      | (.fault a k found, c) => some (c.moveFault m m.toFrames a k found)
      | (.piece src dst len data m', c) =>
        let dev := c.isDevice dst || (match src with | some a => c.isDevice a | none => false)
        let devOut := out.any fun x => c.isDevice x.addr || c.isDevice x.dst
        if (m.feeds ∨ dev ∨ devOut) ∧ out ≠ [] then none
        else match src.bind fun a => c.pieceCause m false a len, c.pieceCause m true dst len with
        | some e, _ => some (c.moveFault m false e.1 e.2)
        | none, some e => some (c.moveFault m true e.1 e.2)
        | none, none =>
        if c.roomOn m.half m.unit m.owner = 0 then none
        else
          let x : Txn := match src with
            | some a => ⟨id, m.owner, m.unit, m.half, false, a, len, [], dst, none, none, none, 0⟩
            | none => ⟨id, m.owner, m.unit, m.half, true, dst, len, data, dst, none, none, none, 0⟩
          some ((((src.toList ++ [dst]).foldl (fun (c : Chip) a => c.badEntries m.half (some m) m.owner a len m.opcode) c).setCmd m').newTxn x)

/-- The chip after a move issues all it can. -/
def Chip.issueAll : Nat → Chip → CmdId → Option (Far × Seen) → Chip
  | 0, c, _, _ => c
  | n + 1, c, id, far => match c.issueOne id far with
    | some c => c.issueAll n id far
    | none => c

/-- The chip after the requests of a half that wait are issued, and those that wait for a link leave, in order (R229, R504); `far`
names a move that reads its list, how a read of it through a window ends, and what its reads show. -/
def Chip.pump (c : Chip) (h : Half) (far : Option (CmdId × Far × Seen) := none) : Chip :=
  let c := (c.txns.filter fun (e : Nat × Txn) => e.2.sent.isNone).foldl (fun c e => c.sendTxn e.1) c
  (c.cmds.filter fun m => decide (0x50 ≤ m.opcode ∧ m.opcode ≤ 0x53) && m.half == h && m.stage == .running).foldl
    (fun c m => c.issueAll 4100 m.id ((far.filter fun f => f.1 == m.id).map (·.2))) c

/-- The granules that lie wholly in a range of DRAM. -/
def wholeGranules (a n : Nat) : List Nat :=
  if ¬ inDram a then []
  else
    let first := (a - 0x1000000000 + 65535) / 65536
    (List.range ((a - 0x1000000000 + n) / 65536 - first)).map (· + first)

/-- A fill of zeros. -/
def Cmd.zeroFill (m : Cmd) : Bool := m.opcode == 0x53 && m.word 2 == 0

/-- The granules that a fill move covers. -/
def Cmd.fillGranules (m : Cmd) : List Nat := wholeGranules (alignDown (m.fld 1 0 48) 8) (m.fld 3 0 40 / 8 * 8)

/-- The opcodes of moves. -/
def moveOp (op : Nat) : Bool := decide (0x50 ≤ op ∧ op ≤ 0x53)

/-- The chip after a dispatched move starts on a Carriage of its half that is in service and has room, in its turn (R220,
R285); a running one goes on where its requests wait. -/
def Chip.moveRow (c : Chip) (op : Nat) (id : CmdId) (k : Nat) (far : Far) (o : Seen) : Chip :=
  match c.takeable id moveOp with
  | some m =>
    if m.opcode ≠ op ∨ Half.ofIdx (k / 8) ≠ m.half ∨ ¬ c.on (F.CARRIAGE_CTL_ENABLE k) ∨ ¬ c.unitOn (40 + k) ∨ 32 ≤ (c.movesOn k).length ∨
        c.behind m moveOp (fun e => e.half == m.half) then c
    else
      let m := { m with stage := .running, unit := k, n := 0, aux := [0, 0, 0, 0] }
      match c.badMove m with
      | some e => c.moveFault m false e.1 e.2
      | none =>
        if m.moveEmpty then c.setCmd { m.noMore with empty := true }
        else
          let m := { m with aux := [0, b2n (c.overlapping m), 0, 0] }
          let c := if m.zeroFill then { c with filling := m.fillGranules ++ c.filling } else c
          let c := (c.setCmd m).cvuQueue m
          let c := if op = 0x52 then (c.askPin m.half id 1).2 else c
          c.pump m.half (some (id, far, o))
  | none =>
    match c.cmd? id with
    | some m => if m.opcode = op ∧ m.stage = .running ∧ m.unit = k then c.pump m.half (some (id, far, o)) else c
    | none => c

/-- STRIDED_MOVE (R222). -/
def execStridedMove (id : CmdId) (k : Fin 16) (s : State) : Host.Outcome State Fault Refusal := s.go (s.chip.moveRow 0x50 id k.val .answered [])
/-- GATHER_MOVE (R223); `far` is how reads of its list through a window end, `o` what its reads show. -/
def execGatherMove (id : CmdId) (k : Fin 16) (s : State) (far : Far := .answered) (o : Seen := []) : Host.Outcome State Fault Refusal :=
  s.go (s.chip.moveRow 0x51 id k.val far o)
/-- PAGE_LIST_MOVE (R224); `far` is how reads of its list through a window end, `o` what its reads show. -/
def execPageListMove (id : CmdId) (k : Fin 16) (s : State) (far : Far := .answered) (o : Seen := []) : Host.Outcome State Fault Refusal :=
  s.go (s.chip.moveRow 0x52 id k.val far o)
/-- FILL_MOVE (R225). -/
def execFillMove (id : CmdId) (k : Fin 16) (s : State) : Host.Outcome State Fault Refusal := s.go (s.chip.moveRow 0x53 id k.val .answered [])

/-! ### Returns and completion (R226, R227, R229) -/

/-- The data that a read transaction returns, or the address and cause of its failure. -/
def Chip.txnRead (c : Chip) (x : Txn) (ok : Bool) (data : List Byte) : Except (Nat × Nat) (List Byte) × Chip :=
  if inWindow x.addr then ((if ok then .ok ((data ++ List.replicate x.len 0).take x.len) else .error (x.addr, 1)), c)
  else if x.addr < 0x40000000 then
    let (d, c) := c.busRead (engineBus x.owner x.half (0x100 + x.unit)) x.addr x.len
    (.ok d, c)
  else match c.poisoned x.addr x.len with
    | some u => (.error (u, 4), c)
    | none => (.ok (c.load x.addr x.len), c)

/-- The chip after the bytes of a write transaction reach their place; where it meets a command in progress in an array's store, they are
free (R97). -/
def Chip.txnWrite (c : Chip) (x : Txn) (zero : Bool) : Chip :=
  if inWindow x.addr then c
  else if x.addr < 0x40000000 then c.regWrite (engineBus x.owner x.half (0x100 + x.unit)) x.len x.addr (leNat x.data)
  else
    let (race, c) := c.arrayRace true x.addr x.data.length
    let c := { c with freeCnt := c.freeCnt + b2n race }
    let c' := c.store x.addr (if race then (List.range x.data.length).map (Config.freeByte (c.freeCnt - 1)) else x.data)
    if zero then { c' with filling := c.filling } else c'

/-- What an address names as a destination of half-link traffic: a DRAM stack, or an array's or bench's stores. -/
def destOf (a : Nat) : Nat :=
  if inDram a then stackOf a else match sramUnit a with
    | some (.inl n) => 8 + n
    | some (.inr b) => 16 + b
    | none => 64

/-- A transaction across the half link was sent before this one of its Carriage to the same destination: it arrives first (R213). -/
def Chip.arrivesLater (c : Chip) (x : Txn) : Bool :=
  (addrHalf x.addr).isSome && addrHalf x.addr != some x.half && c.txns.any fun (e : Nat × Txn) =>
    e.2.unit == x.unit && !inWindow e.2.addr && destOf e.2.addr == destOf x.addr && e.2.sent.isSome && x.sent.isSome && decide (e.2.seq < x.seq)

/-- The chip after the far side of a window answers: a run of timeouts of its device ends (R507). -/
def Chip.farAnswered (c : Chip) (a : Nat) : Chip := if isPeer a then { c with peerRuns := c.peerRuns.erase (fabricOf a) } else c

/-- The chip after the moves of both halves issue what they can: those of the other half may wait for a unit (R427). -/
def Chip.pumpBoth (c : Chip) (h : Half) : Chip := (c.pump h).pump h.other

/-- The chip without a transaction; a withdrawn move whose last one this was lets its pins go and leaves flight (R186, R309). -/
def Chip.endTxn (c : Chip) (t : Nat) (id : CmdId) : Chip :=
  let c := { c with txns := Tbl.del c.txns t }
  match c.cmd? id with
  | some m => if m.stage = .withdrawn ∧ c.txnsOf id = [] then (c.kvUnpinAll id).leave m else c
  | none => c

/-- The chip after a write of a move is done: its bytes counted and fed to the check-value unit it names. -/
def Chip.wrote (c : Chip) (m : Cmd) (x : Txn) : Chip :=
  let c := c.countPair (Reg.CARRIAGE_BYTES_LO x.unit) (Reg.CARRIAGE_BYTES_HI x.unit) x.len
  let c := match c.cmd? m.id with
    | some m => c.setCmd { m with bytes := m.bytes + x.len }
    | none => c
  if m.feeds then c.cvuData m.cvu x.data else c

/-- The chip after the data or acknowledgement of a transaction returns. A read's data is written on in the same tracker
entry; where the move's source and destination overlap, what it writes is unpredictable (R228), and so is data whose error was
not detected (R208) and data that an array's command in progress writes (R97). What returns for a withdrawn move is dropped, and what it would write is squashed (R309). -/
def Chip.txnReturn (c : Chip) (t : Nat) (ok : Bool) (data : List Byte) (o : Seen) : Chip :=
  match Tbl.find? c.txns t with
  | none => c
  | some x =>
    let c := c.farAnswered x.addr
    match c.cmd? x.id with
    | none => c.endTxn t x.id
    | some m =>
      let far : Option (CmdId × Far × Seen) := some (x.id, .answered, o)
      let pump (c : Chip) : Chip := if inWindow (m.listAddr m.n) then c.pump x.half else c.pump x.half far
      if x.sent.isNone ∨ c.arrivesLater x then c
      else if m.stage = .withdrawn then (c.endTxn t x.id).pumpBoth x.half
      else if x.write then
        if inWindow x.addr ∧ ¬ ok then ((c.endTxn t x.id).moveFault m true x.addr 1).pump x.half
        else pump (((c.txnWrite x m.zeroFill).wrote m x).endTxn t x.id)
      else
        let (e, c) := c.sight [(x.addr, x.len)] o
        let (r, c) := c.txnRead x ok data
        let (race, c) := c.arrayRace false x.addr x.len
        let r : Except (Nat × Nat) (List Byte) := match e.lost with
          | some u => .error (u, 4)
          | none => r
        match r with
        | .error q => ((c.endTxn t x.id).moveFault m false q.1 q.2 e.lost.isSome).pump x.half
        | .ok d =>
          if c.windowGone x.half x.dst then ((c.endTxn t x.id).moveFault m true x.dst 10).pump x.half
          else
            let (d, c) := if m.aux.getD 1 0 = 1 ∨ e.wrong ∨ race then
                ((List.range x.len).map (Config.freeByte c.freeCnt), { c with freeCnt := c.freeCnt + 1 })
              else (d, c)
            let c : Chip := { c with txns := Tbl.ins c.txns t { x with write := true, addr := x.dst, data := d, sent := none, via := none } }
            pump (c.sendTxn t)

/-- TRANSACTION_RETURN (R229): the data or acknowledgement of a transaction returns. Through a window, `ok` says whether
the far side granted it and `data` is what it answers; `o` is what the reads of the step show, the next read of the move's list among
them (R106, R208–R210). -/
def execTransactionReturn (t : Nat) (ok : Bool) (data : List Byte) (o : Seen) (s : State) : Host.Outcome State Fault Refusal :=
  s.go (s.chip.txnReturn t ok data o)

/-- The chip after the granules that a fill of zeros has covered are marked clean: of type 7, and reached by no other write
since it began (R454). -/
def Chip.markClean (c : Chip) (m : Cmd) : Chip :=
  if ¬ m.zeroFill then c
  else
    let l := m.fillGranules
    let good := if m.ended.isSome then [] else l.filter fun g => c.filling.contains g && ownType (c.ownAt g) == 7
    good.foldl (fun c g => c.setClean g true) { c with filling := l.foldl List.erase c.filling }

/-- The chip after a move completes: every write visible, its pins dropped, its record written, its dowel signalled (R226,
R227). -/
def Chip.finishMove (c : Chip) (m : Cmd) : Chip :=
  let c := (c.kvUnpinAll m.id).markClean m
  let c := c.countPair (Reg.CARRIAGE_MOVE_CNT_LO m.unit) (Reg.CARRIAGE_MOVE_CNT_HI m.unit) 1
  let ents := if m.opcode = 0x51 ∨ m.opcode = 0x52 then m.moveEntries else 0
  (c.complete m (m.bytes % 2 ^ 40 + ents % 2 ^ 24 * 2 ^ 40)).pumpBoth m.half

/-- MOVE_COMPLETION (R227): a move has issued all it will, and none of its transactions is in flight. -/
def execMoveCompletion (id : CmdId) (s : State) : Host.Outcome State Fault Refusal :=
  let c := s.chip
  match c.cmd? id with
  | some m => if 0x50 ≤ m.opcode ∧ m.opcode ≤ 0x53 ∧ m.stage = .running ∧ m.issued ∧ c.txnsOf id = [] then s.go (c.finishMove m) else s.go c
  | none => s.go c

end Sys2Proof.Machine
end

