-- ==== Sys2Proof/Machine/Batch.lean ====
section
/-! DEFINITION. Ledger batches and copies of shared frames (R188–R190). -/

namespace Sys2Proof.Machine

/-! ### Ledger batches (R188, R190) -/

def Cmd.batchOps (m : Cmd) : Nat := m.fld 1 48 16
def Cmd.batchAddr (m : Cmd) (k : Nat) : Nat := alignDown (m.fld 1 0 48) 16 + 16 * k

/-- A batch's record as read: operation, half, frame, entry address, and its sixteen bytes. -/
structure OpRec where
  op : Nat
  half : Half
  frame : Nat
  entry : Nat
  w0 : Nat
  w1 : Nat
deriving DecidableEq, Repr

/-- Splits the sixteen bytes of a record. -/
def OpRec.ofBytes (bs : List Byte) : OpRec :=
  let w0 := leNat (bs.take 8)
  let w1 := leNat (bs.drop 8)
  ⟨bits w0 52 4, Half.ofIdx (bits w0 51 1), bits w0 0 32, bits w1 0 48, w0, w1⟩

/-- The bytes of a record after the ledger wrote its fields. -/
def OpRec.bytes (r : OpRec) (result frame : Nat) (q : Option Frame) : List Byte :=
  let base := match q with
    | none => bits r.w0 32 24 * 2 ^ 32
    | some f => bits r.w0 51 5 * 2 ^ 51 + f.state % 8 * 2 ^ 48 + f.pin % 256 * 2 ^ 40 + bits r.w0 32 8 * 2 ^ 32
  let w1 := match q with
    | none => r.w1
    | some f => bits r.w1 0 48 + f.ref % 65536 * 2 ^ 48
  toLE 8 (frame % 2 ^ 32 + base + result * 2 ^ 56) ++ toLE 8 w1

/-- What a batch keeps: records done, refused, first refused, whether any got 0x20. -/
structure BatchSt where
  done : Nat
  refused : Nat
  first : Nat
  noRoom : Bool
deriving DecidableEq, Repr

def Cmd.batch (m : Cmd) : BatchSt := ⟨m.aux.getD 0 0, m.aux.getD 1 0, m.aux.getD 2 0, m.aux.getD 3 0 == 1⟩

/-- The command after a record came out with a result. -/
def Cmd.noteRecord (m : Cmd) (result : Nat) : Cmd :=
  let b := m.batch
  if result ≤ 1 then { m with n := m.n + 1, stage := .running, aux := [b.done + 1, b.refused, b.first, b2n b.noRoom] }
  else { m with
    n := m.n + 1, stage := .running,
    aux := [b.done, b.refused + 1, if b.refused = 0 then m.n else b.first, b2n (b.noRoom || result == 0x20)] }

/-- The chip after a batch completes (R188). -/
def Chip.endBatch (c : Chip) (m : Cmd) : Chip :=
  let b := m.batch
  let d := b.done % 65536 + b.refused % 65536 * 2 ^ 16 + b.first % 65536 * 2 ^ 32
  let c := c.kvUnpinAll m.id
  if b.noRoom then c.complete (m.endWith .noRoom d) d else c.complete m d

/-- The chip after a batch stops at an access that is refused, or at data that its read has just found lost (R188, R210). -/
def Chip.stopBatch (c : Chip) (m : Cmd) (e : Nat × Nat) (found : Bool := false) : Chip :=
  let c := c.kvUnpinAll m.id
  if found then c.complete (m.endAt e.1 e.2) 0 else c.failReach m e

/-- The next record of a batch, or the refused access that stops it. -/
def Chip.nextRecord (c : Chip) (m : Cmd) : Except (Nat × Nat) OpRec :=
  let a := m.batchAddr m.n
  match c.tryLoad m.owner a 16 with
  | .error e => .error e
  | .ok bs => match c.rangeCause m.owner true a 16 with
    | some e => .error e
    | none => .ok (OpRec.ofBytes bs)

/-- The ledger that performs a record: of the half that ALLOC names, or the home of the frame it names; of the batch's own half
where it names none. -/
def OpRec.home (r : OpRec) (m : Cmd) : Half :=
  if r.op = 1 then r.half else if r.op ≠ 4 ∧ r.frame < 262144 then Half.ofIdx (r.frame / 131072) else m.half

/-- The chip after a record of a batch came out at a ledger: its fields are written, and the batch completes after its last. -/
def Chip.recordDone (c : Chip) (m : Cmd) (r : OpRec) (h : Half) (result frame : Nat) (q : Option Frame) : Chip :=
  let c := (c.touches m [(m.batchAddr m.n, 16), (m.batchAddr m.n, 16)]).store (m.batchAddr m.n) (r.bytes result frame q)
  let c := c.countOp h (decide (1 < result))
  let m := m.noteRecord result
  if m.n = m.batchOps then c.endBatch m else c.setCmd m

/-- The chip after the reserved operations that come next in a batch are refused with 0x41; `n` bounds the records. -/
def Chip.skipReserved (c : Chip) (id : CmdId) : Nat → Chip
  | 0 => c
  | n + 1 =>
    match c.cmd? id with
    | none => c
    | some m => match c.nextRecord m with
      | .error e => c.stopBatch m e
      | .ok r => if 1 ≤ r.op ∧ r.op ≤ 5 then c else (c.recordDone m r (r.home m) 0x41 r.frame none).skipReserved id n

/-- A record whose bytes are misread without notice: what the ledger takes from it, but for the operation that comes out (R208). -/
def OpRec.misread (r : OpRec) (bs : List Byte) : OpRec :=
  let x := OpRec.ofBytes bs
  { r with half := x.half, frame := x.frame, entry := x.entry }

/-- The next record of a batch as its read shows it, with the chip after the read: its data is lost (`inl`), or what it spells; a misread
one spells the operation asked (R188, R208–R210). -/
def Chip.seeRecord (c : Chip) (m : Cmd) (op : Nat) (o : Seen) : Except (Nat × Bool × Nat) OpRec × Chip :=
  match c.nextRecord m with
  | .error e => (.error (e.1, false, e.2), c)
  | .ok r =>
    let (e, d) := c.sight [(m.batchAddr m.n, 16)] o
    if e.wrong then (.ok { r.misread (d.freeBytes 16) with op := op }, { d with freeCnt := d.freeCnt + 1 })
    else if r.op ≠ op then (.ok r, c)
    else match e.lost with
      | some a => (.error (a, true, 4), d)
      | none => (.ok r, d)

/-- LEDGER_BATCH (R188): a dispatched batch starts in its turn (R285). -/
def execLedgerBatch (id : CmdId) (s : State) : Host.Outcome State Fault Refusal :=
  match s.chip.takeable id (· == 0x48) with
  | some m =>
    if s.chip.behind m (· == 0x48) (fun e => e.half == m.half) then s.go s.chip
    else if m.batchOps = 0 then s.go (s.chip.complete m 0)
    else s.go ((s.chip.setCmd { m with stage := .running, n := 0, aux := [0, 0, 0, 0] }).skipReserved id m.batchOps)
  | none => s.go s.chip

/-- The chip after a step of a batch: the record that comes next is of the operation asked, and is performed by `f`, which
gives the chip, the result and the frame and query fields, or none while it waits; `o` is what its read shows. -/
def Chip.batchStep (c : Chip) (id : CmdId) (op : Nat) (o : Seen) (f : Chip → Cmd → OpRec → Option (Chip × Nat × Nat × Option Frame)) : Chip :=
  match c.cmd? id with
  | none => c
  | some m =>
    if m.opcode ≠ 0x48 ∨ m.stage ≠ .running then c
    else match c.seeRecord m op o with
      | (.error (a, found, k), c) => c.stopBatch m (a, k) found
      | (.ok r, c) =>
        if r.op ≠ op then c
        else match f c m r with
          | none => c
          | some (c, result, frame, q) => (c.recordDone m r (r.home m) result frame q).skipReserved id m.batchOps

/-- What a plain operation makes of a record. -/
def LedgerRes.answer (x : LedgerRes) (c : Chip) (r : OpRec) : Option (Chip × Nat × Nat × Option Frame) :=
  match x with
  | .done c f => some (c, 0, f, none)
  | .refused k => some (c, k, r.frame, none)
  | .waits => none

/-- A page-list entry that a command may read and write (R190). -/
def Chip.entryOk (c : Chip) (m : Cmd) (a : Nat) : Bool :=
  (c.engineCause m.bus false a 4 .answered).isNone && (c.engineCause m.bus true a 4 .answered).isNone

/-- The chip after a page-list entry is written for a command. -/
def Chip.putEntry (c : Chip) (m : Cmd) (a f : Nat) : Chip := c.enginePut (some m) m.bus a (toLE 4 f) m.opcode

/-- ALLOC (R189, R190): the next record of a batch takes a frame, waits for a zeroing, or is refused; `o` is what its read shows. An
entry that is not accessible gives 0x45 before any ground against the frame. DESIGN CHOICE, unsafe: log 155. -/
def execAlloc (id : CmdId) (s : State) (o : Seen := []) : Host.Outcome State Fault Refusal :=
  s.go (s.chip.batchStep id 1 o fun c m r =>
    if r.entry ≠ 0 ∧ ¬ c.entryOk m r.entry then some (c, 0x45, r.frame, none)
    else match c.kvAlloc r.half m.owner with
      | .done c f => some (if r.entry ≠ 0 then c.putEntry m r.entry f else c, 0, f, none)
      | x => x.answer c r)

/-- ACQUIRE (R189); `o` is what the read of its record shows. -/
def execAcquire (id : CmdId) (s : State) (o : Seen := []) : Host.Outcome State Fault Refusal :=
  s.go (s.chip.batchStep id 2 o fun c m r => (c.kvAcquire m.owner r.frame).answer c r)

/-- RELEASE (R189); `o` is what the read of its record shows. -/
def execRelease (id : CmdId) (s : State) (o : Seen := []) : Host.Outcome State Fault Refusal :=
  s.go (s.chip.batchStep id 3 o fun c m r => (c.kvRelease m.owner r.frame).answer c r)

/-- QUERY (R188, R189); `o` is what the read of its record shows. -/
def execQuery (id : CmdId) (s : State) (o : Seen := []) : Host.Outcome State Fault Refusal :=
  s.go (s.chip.batchStep id 5 o fun c m r =>
    match c.frameNo r.frame with
    | none => some (c, 0x42, r.frame, none)
    | some (h, n) => let f := c.frame h n
      if f.owner = m.owner then some (c, 0, r.frame, some f) else some (c, 0x40, r.frame, none))

/-- What a page-list entry holds, as a command reads it (R172). -/
def Chip.entryFrame (c : Chip) (m : Cmd) (a : Nat) : Nat := leNat (c.engineGet (some m) m.bus a 4 m.opcode).1

/-- The chip after a command reads a page-list entry. -/
def Chip.tookEntry (c : Chip) (m : Cmd) (a : Nat) : Chip := (c.engineGet (some m) m.bus a 4 m.opcode).2

/-- How a COW at an entry goes: it ends with a result at a ledger; its source is pinned while its ALLOC waits; its source is pinned,
a new frame taken, and the copy runs; or the entry ends the command. -/
inductive CowRes where
  | ended (c : Chip) (h : Half) (result frame : Nat)
  | held (c : Chip) (old : Nat)
  | copying (c : Chip) (old new : Nat)
  | bad (a cause : Nat)
deriving Repr

/-- A COW with its source pinned allocates as ALLOC does on the source's ledger, which counts; where that fails the source is unpinned (R190). -/
def Chip.cowAlloc (c : Chip) (m : Cmd) (old : Nat) : CowRes :=
  let h := Half.ofIdx (old / 131072)
  match c.kvAlloc h m.owner with
  | .done c new => .copying (c.countOp h false) old new
  | .refused k => .ended (c.kvUnpin m.id old) h k old
  | .waits => .held c old

/-- A COW at an entry that its command may read and write: already private (0x01), refused, or its source pinned and a new frame
asked for (R190). An entry with a value that names no frame ends the command (R172); one of a lost half gives 0x42 (R194). -/
def Chip.cowStart (c : Chip) (m : Cmd) (entry : Nat) : CowRes :=
  if ¬ c.entryOk m entry then .ended c m.half 0x45 0
  else
    let f := c.entryFrame m entry
    let c := c.tookEntry m entry
    if c.frameNo f = none ∧ f ≠ noFrame ∧ c.frameCause f = 5 then .bad entry 5
    else
      let g := if f < 262144 then Half.ofIdx (f / 131072) else m.half
      match c.kvLive m.owner f with
      | .error k => .ended c g k f
      | .ok (_, _, e) =>
        if e.ref = 1 then .ended c g 1 f
        else match c.kvPin m f with
          | .error k => .ended c g k f
          | .ok c => c.cowAlloc m f

/-- The frame that a batch's COW has pinned while its ALLOC waits. -/
def Cmd.cowHeld (m : Cmd) : Option Nat := if m.aux.getD 5 0 = noFrame then some (m.aux.getD 4 0) else none

/-- The chip after the COW of a batch's next record goes as `x` has it. -/
def Chip.cowStep (c : Chip) (m : Cmd) (r : OpRec) (x : CowRes) : Chip :=
  match x with
  | .held c old => c.setCmd { m with aux := m.aux.take 4 ++ [old, noFrame, r.entry] }
  | .copying c old new => c.setCmd { m with stage := .waiting, aux := m.aux.take 4 ++ [old, new, r.entry] }
  | .bad a k => c.stopBatch m (a, k)
  | .ended c h k f =>
    let c := { c with pinOps := c.pinOps.set m.half ((c.pinOps.get m.half).erase m.id) }
    (c.recordDone m r h k (if k = 1 then f else r.frame) none).skipReserved m.id m.batchOps

/-- COW (R190): the next record of a batch starts to make a frame private, once it is admitted as a pinning operation; while its
ALLOC waits or the copy runs the batch waits. `o` is what the read of its record shows. -/
def execCow (id : CmdId) (s : State) (o : Seen := []) : Host.Outcome State Fault Refusal :=
  let c := s.chip
  match c.cmd? id with
  | none => s.go c
  | some m =>
    if m.opcode ≠ 0x48 ∨ m.stage ≠ .running then s.go c
    else match c.seeRecord m 4 o with
      | (.error (a, found, k), c) => s.go (c.stopBatch m (a, k) found)
      | (.ok r, c) =>
        if r.op ≠ 4 then s.go c
        else match m.cowHeld with
          | some old => s.go (c.cowStep m r (c.cowAlloc m old))
          | none =>
            let a := c.askPin m.half id 1
            s.go (if a.1 then a.2.cowStep m r (a.2.cowStart m r.entry) else a.2)

/-- The chip after a COW's copy of a whole frame by a Carriage of its half; the address that a read of the source is refused at
because its data cannot be corrected, otherwise, and whether it was poisoned before (R190, R210). `o` is what its reads show. -/
def Chip.cowCopy (c : Chip) (old new : Nat) (o : Seen) : Except (Nat × Bool × Chip) Chip :=
  match c.frameNo old, c.frameNo new with
  | some (h, n), some (g, k) =>
    let a := c.frameAddr h n
    let sz := (c.kvPool h).2.1
    match c.poisoned a sz with
    | some u => .error (u, true, c)
    | none =>
      let (e, c) := c.sight [(a, sz)] o
      match e.lost with
      | some u => .error (u, false, c)
      | none =>
        let bs := if e.wrong then c.freeBytes sz else c.load a sz
        .ok ((({ c with freeCnt := c.freeCnt + b2n e.wrong }).store (c.frameAddr g k) bs).carriageDid h sz)
  | _, _ => .ok c

/-- The chip after a COW gives its new frame back and unpins its source. -/
def Chip.cowGiveUp (c : Chip) (m : Cmd) (old new : Nat) : Chip :=
  (c.kvGive m.owner new).kvUnpin m.id old

/-- The chip after a COW's copy has ended: the entry names the new frame, the old one is released and unpinned (R190). -/
def Chip.cowFinish (c : Chip) (m : Cmd) (old new entry : Nat) : Chip :=
  (((c.putEntry m entry new).kvGive m.owner old).kvUnpin m.id old).inc (F.KVL_COW_CNT_COUNT (Half.ofIdx (old / 131072)).idx)

/-- The chip after the copy of a batch's COW ends (R190); a source that cannot be read ends the batch with FAULT (R210). -/
def Chip.batchCopied (c : Chip) (id : CmdId) (o : Seen) : Chip :=
  match c.cmd? id with
  | some m =>
    if m.opcode = 0x48 ∧ m.stage = .waiting then
      let old := m.aux.getD 4 0
      let new := m.aux.getD 5 0
      let entry := m.aux.getD 6 0
      match c.cowCopy old new o with
      | .error (a, found, c) =>
        let c := (c.cowGiveUp m old new).kvUnpinAll id
        let c := if found then c.refusalEvent m.half (some m) m.owner a 4 0x48 else c
        c.failCmd m (accessDetail a 4)
      | .ok c =>
        let ok := c.entryOk m entry
        let c := if ok then c.cowFinish m old new entry else c.cowGiveUp m old new
        let c := { c with pinOps := c.pinOps.set m.half ((c.pinOps.get m.half).erase id) }
        match c.nextRecord m with
        | .error e => c.stopBatch m e
        | .ok r => (c.recordDone m r (Half.ofIdx (old / 131072)) (if ok then 0 else 0x45) (if ok then new else r.frame) none).skipReserved id m.batchOps
    else c
  | none => c

end Sys2Proof.Machine
end

