-- ==== Sys2Proof/Machine/Attention.lean ====
section
/-! DEFINITION. The attention engines: attention commands in their phases, and the backward pass (R166–R184, R195–R197). -/

namespace Sys2Proof.Machine

/-- The parameter block that a command read at its start. -/
def Cmd.attnPar (m : Cmd) : AttnPar := AttnPar.ofWords fun k => m.attn.par.getD k 0

/-! ### Ends (R181, R183) -/

/-- The chip after an attention or backward command lets its pins go. -/
def Chip.attnOver (c : Chip) (m : Cmd) : Chip := c.kvUnpinAll m.id

/-- The chip after a command ends for a cause of R226; its record keeps the counts of R183, its flag that values saturated. -/
def Chip.attnEnd (c : Chip) (m : Cmd) (a cause : Nat) : Chip := (c.attnOver m).failAt m a cause

/-- The chip after a command meets a refused access (R226). -/
def Chip.attnFault (c : Chip) (m : Cmd) (e : Nat × Nat) (write : Bool := false) : Chip :=
  (c.busRefused (some m) m.bus write e.1 e.2 m.opcode).attnEnd m e.1 e.2

/-- The chip after a command is refused a pin on a frame (R186), or meets a frame that is lost (R194). -/
def Chip.attnNoPin (c : Chip) (m : Cmd) (f : Nat) : Chip :=
  match c.frameNo f with
  | none => c.attnEnd m 0 (c.frameCause f)
  | some (h, n) => (c.countOp h true).attnFault m (c.frameAddr h n, 1)

/-- The chip after the page-list entries that a command changed are restored, where it may still write them, and the frames it took
are released (R39, R181); an old frame takes back its reference where it is still LIVE. -/
def Chip.attnUndo (c : Chip) (m : Cmd) : Chip :=
  m.attn.changed.reverse.foldl (fun (c : Chip) t =>
    let c := if (c.engineCause m.bus true t.1 4 .answered).isNone then c.putEntry m t.1 t.2.1 else c
    let c := c.kvGive m.owner t.2.2
    if t.2.1 = noFrame then c else c.kvTake m.owner t.2.1) c

/-- The chip after a command finds no frame or quota: NO_ROOM, everything undone (R181). -/
def Chip.attnNoRoom (c : Chip) (m : Cmd) : Chip :=
  let c := (c.attnUndo m).attnOver m
  c.complete (m.endWith .noRoom m.attnDetail) m.attnDetail

/-! ### Operands -/

/-- The token records and segment entries of a command, or the refused access. -/
def Chip.attnOps (c : Chip) (m : Cmd) (far : Far) : Except (Nat × Nat) AttnOps :=
  match c.reach m m.tokAddr (8 * m.nTok) far with
  | .error e => .error e
  | .ok t => match c.reach m m.segAddr (32 * m.nSeg) far with
    | .error e => .error e
    | .ok g => .ok ⟨m.attnPar, (List.range m.nTok).map (tokAt t), (List.range m.nSeg).map (segAt g)⟩

/-- The command appends (R175); a backward one never does (R196). -/
def Cmd.appends (m : Cmd) (x : AttnOps) : Bool := x.par.append && m.opcode == 0x40

/-- The frame of a page is as large as the pool that it lies in, or that its new frame comes from, needs to be (R170); a page
without a frame ends its command elsewhere. -/
def Chip.pageRoom (c : Chip) (m : Cmd) (x : AttnOps) (q : Nat × Nat) : Bool :=
  let a := x.entryAddr q.1 q.2
  let h := if (c.engineCause m.bus false a 4 .answered).isSome then none
    else match c.frameNo (c.entryFrame m a) with
      | some (h, _) => some h
      | none => if c.entryFrame m a = noFrame ∧ m.appends x ∧ x.newPages.contains q then (x.segs[q.1]?).map (·.newHalf) else none
  match h with
  | some h => decide (2 * x.par.areaK + 2 * x.par.areaScale ≤ (c.kvPool h).2.1)
  | none => true

/-- What a field, a format or a frame size that the chapter allows nothing for leaves unpredictable (R4, R168, R170, R175, R177,
R181). -/
def Chip.attnWild (c : Chip) (m : Cmd) (x : AttnOps) : Bool :=
  let p := x.par
  !(p.pairOk && [4, 5, 6].contains (cvtFmt m.attnCvt) && decide (2 * p.pairs ≤ p.dim) && (p.pairs == 0 || FV.lt FV.one p.theta) &&
    decide (m.nSeg ≠ 0) && (x.toks.all fun t => decide (t.seg < m.nSeg)) &&
    (x.liveSegs.all fun s => match x.segs[s]? with
      | some g => decide (g.kvLen ≤ 1048576 ∧ 1 ≤ g.maxPages ∧ g.maxPages ≤ 4096)
      | none => false) &&
    (!m.appends x || x.inOrder) && (x.pages (m.appends x)).all (c.pageRoom m x) && (!m.appends x || x.newPages.all (c.pageRoom m x)))

/-- A segment would hold more than its page list or the engine allows (R181). -/
def AttnOps.tooLong (x : AttnOps) (append : Bool) : Bool :=
  append && x.liveSegs.any fun s => decide ((match x.segs[s]? with | some g => min (g.maxPages * 256) 1048576 | none => 0) < x.segLen s append)

/-! ### Admission (R167, R183, R186) -/

/-- The chip after a dispatched command is taken by an engine with room for it, on which its party has a share (R307). Training
of a class A party is refused (R33). -/
def Chip.attnStart (c : Chip) (m : Cmd) : Chip :=
  if m.opcode = 0x41 ∧ m.owner.part ≠ 0 ∧ c.partClass m.owner.part = 0 then c.failCmd m 0
  else match c.attnEngine m with
  | none => c
  | some h =>
    if 64 ≤ (c.attnCmds h).length ∨ c.shareOn (40 + h.idx) m.owner = 0 ∨ c.attnOutranked h m then c
    else c.setCmd { m with half := h, unit := 0, n := 0, aux := [], stage := if m.nTok = 0 then .done else .running, empty := m.empty || m.nTok == 0 }

/-- The address of the frame of page `i` of a segment. -/
def Chip.pageFrame (c : Chip) (m : Cmd) (x : AttnOps) (s i : Nat) : Nat :=
  match c.frameNo (c.entryFrame m (x.entryAddr s i)) with
  | some (h, n) => c.frameAddr h n
  | none => 0

/-- What a backward command reads beside frames: addresses and lengths. -/
def Cmd.backReads (m : Cmd) (x : AttnOps) : List (Nat × Nat) :=
  let n := m.nTok * x.par.heads
  [(m.qAddr, n * x.par.qRow), (m.oAddr, n * x.par.qRow), (x.par.out2, n * codeBytes (cvtFmt m.attnCvt) x.par.dim), (x.par.stats, 8 * n)] ++
    (if x.par.gradAcc then x.liveSegs.filterMap fun s => (x.segs[s]?).map fun g => (g.grad, 8 * x.segLen s false * x.par.kvHeads * x.par.dim) else [])

/-- What the engine reads in the next step of a command: its block and tables at first, then the page-list entries and the new keys
and values that the phase takes, and in the last its operands and the frames (R175–R177, R181, R197). -/
def Chip.attnReads (c : Chip) (m : Cmd) (x : AttnOps) : List (Nat × Nat) :=
  let tables := [(m.tokAddr, 8 * m.nTok), (m.segAddr, 32 * m.nSeg)]
  let pages := x.pages (m.appends x)
  match m.attn.phase with
  | 0 => (m.paramAddr, 64) :: tables
  | 1 => match x.newPages[m.n]? with
    | some (s, i) => [(x.entryAddr s i, 4)]
    | none => []
  | 2 => (m.kvNew, m.newValues x.par + m.nTok * x.par.kvHeads * codeBytes x.par.fmtQ x.par.dim) :: x.newPages.map fun q => (x.entryAddr q.1 q.2, 4)
  | 3 => pages.map fun q => (x.entryAddr q.1 q.2, 4)
  | _ => (if m.opcode = 0x41 then m.backReads x else [(m.qAddr, m.nTok * x.par.heads * x.par.qRow)]) ++
      pages.map fun q => (c.pageFrame m x q.1 q.2, 2 * x.par.areaK + 2 * x.par.areaScale)

/-- The chip after a command reads its parameter block and tables, which show `o`: data is lost; what nothing states for the block, or
for one misread without notice, comes out; or it enters its first phase and asks for its place among the pinning operations (R175,
R186, R208–R210). -/
def Chip.attnRead (c : Chip) (m : Cmd) (far : Far) (o : Seen) : Chip :=
  let (e, c) := c.sight (c.mayRead m far (c.attnReads m ⟨m.attnPar, [], []⟩)) o
  match e.lost, c.reach m m.paramAddr 64 far with
  | some u, _ => c.attnEnd m u 4
  | none, .error e => c.attnFault m e
  | none, .ok bs =>
    let m := m.withAttn { m.attn with par := (List.range 4).map fun k => leNat ((bs.drop (8 * k)).take 8) }
    match c.attnOps m far with
    | .error e => c.attnFault m e
    | .ok x =>
      let c := c.touches m [(m.paramAddr, 64), (m.tokAddr, 8 * m.nTok), (m.segAddr, 32 * m.nSeg)]
      if e.wrong ∨ c.attnWild m x then c.setCmd (m.withAttn { m.attn with phase := 5 })
      else if x.tooLong (m.appends x) then c.attnNoRoom m
      else
        let m := m.withAttn { m.attn with phase := if m.appends x then 1 else 3 }
        ((c.setCmd m).askPin m.half m.id m.pinPlaces).2

/-! ### Prepare (R181) -/

/-- The command after an entry of a page is ready: on to the next page. -/
def Cmd.pageReady (m : Cmd) (t : Option (Nat × Nat × Nat)) : Cmd :=
  { (m.withAttn { m.attn with cow := (0, 0, 0), changed := m.attn.changed ++ t.toList }) with n := m.n + 1 }

/-- The chip after an ALLOC of a command is refused: a Heartwood party's with FAULT, another with NO_ROOM, either undone (R173,
R181). -/
def Chip.attnNoFrame (c : Chip) (m : Cmd) (h : Half) (a k : Nat) : Chip :=
  let c := c.countOp h true
  if k = 0x44 then (c.attnUndo m).attnEnd m a 1 else c.attnNoRoom m

/-- The chip after a COW of a command, its source pinned, takes a new frame and begins to copy, or waits for one (R190). -/
def Chip.attnCow (c : Chip) (m : Cmd) (old a : Nat) : Chip :=
  match c.cowAlloc m old with
  | .copying c f g => c.setCmd { (m.withAttn { m.attn with cow := (f, g, a) }) with stage := .waiting }
  | .held c f => c.setCmd (m.withAttn { m.attn with cow := (f, noFrame, a) })
  | .ended c h k _ => c.attnNoFrame m h a k
  | .bad a k => c.attnEnd m a k

/-- The chip after the engine acts on the entry of the next page that an appended position falls in: a frame allocated,
a shared frame's COW begun, a private frame left; or the command ends, or waits for a frame that is being zeroed. -/
def Chip.attnPrepare (c : Chip) (m : Cmd) (far : Far) (x : AttnOps) : Chip :=
  match x.newPages[m.n]? with
  | none =>
    let c := { c with pinOps := c.pinOps.set m.half ((c.pinOps.get m.half).erase m.id) }
    c.setCmd { (m.withAttn { m.attn with phase := 2 }) with n := 0 }
  | some (s, i) =>
    let a := x.entryAddr s i
    if m.attn.cow.2.1 = noFrame then c.attnCow m m.attn.cow.1 m.attn.cow.2.2
    else match c.engineCause m.bus false a 4 far, c.engineCause m.bus true a 4 far with
    | some e, _ => c.attnFault m e
    | none, wr =>
      let f := c.entryFrame m a
      let c := c.tookEntry m a
      if f = noFrame then
        match wr with
        | some e => c.attnFault m e true
        | none =>
          let h := match x.segs[s]? with | some g => g.newHalf | none => .H
          match c.kvAlloc h m.owner with
          | .done c g => ((c.countOp h false).putEntry m a g).setCmd (m.pageReady (some (a, noFrame, g)))
          | .refused k => c.attnNoFrame m h a k
          | .waits => c
      else match c.kvLive m.owner f, wr with
        | .error 0x42, _ => c.attnEnd m a (c.frameCause f)
        | .error _, _ => c.attnNoPin m f
        | .ok (_, _, e), wr =>
          if e.ref = 1 then c.setCmd (m.pageReady none)
          else match wr, c.kvPin m f with
            | some e, _ => c.attnFault m e true
            | _, .error _ => c.attnNoPin m f
            | none, .ok c => c.attnCow m f a

/-- The chip after the copy of a COW of the prepare phase ends: the entry names the new frame, or the command ends with FAULT
where the source cannot be read (R210) or the entry can no longer be written. The COW counts at the ledger of its source. -/
def Chip.attnCopied (c : Chip) (m : Cmd) (o : Seen) : Chip :=
  let (old, new, a) := m.attn.cow
  match c.cowCopy old new o with
  | .error (u, found, c) =>
    let c := c.cowGiveUp m old new
    if found then c.attnFault m (u, 4) else c.attnEnd m u 4
  | .ok c => match c.engineCause m.bus true a 4 .answered with
    | some e => (c.cowGiveUp m old new).attnFault m e true
    | none => ((c.cowFinish m old new a).countOp (Half.ofIdx (old / 131072)) false).setCmd { (m.pageReady (some (a, old, new))) with stage := .running }

/-- COW_COPY_COMPLETION (R190): the copy of a COW ends, of a batch or of the prepare phase of an attention command; a Carriage of the
frame's half makes it, and without one in service it waits. `o` is what its reads showed. -/
def execCowCopyCompletion (id : CmdId) (s : State) (o : Seen := []) : Host.Outcome State Fault Refusal :=
  let c := s.chip
  match c.cmd? id with
  | some m =>
    let attn := m.opcode == 0x40 && m.stage == .waiting
    let old := if attn then m.attn.cow.1 else m.aux.getD 4 0
    if (c.carriageOf (Half.ofIdx (old / 131072))).isNone then s.go c
    else if attn then s.go (c.attnCopied m o) else s.go (c.batchCopied id o)
  | none => s.go c

/-! ### Frames: writing, pinning, loading (R169, R170, R181, R186) -/

/-- The element vectors of a tensor in the query's format: vector `k` of `d` elements from an address. -/
def Chip.vecAt (c : Chip) (code a k d : Nat) : List FV :=
  let row := a + k * codeBytes code d
  (List.range d).map fun e => codeValue code (unpack code (fun i => (c.byte (row + i)).toNat) e)

/-- A row of keys or values converted to the page format: its bytes, its scale bytes, saturated values (R60, R181). -/
def kvRow (code : Nat) (v : List FV) : List Byte × List Byte × Nat :=
  if codeMx code then
    let bs := (List.range (v.length / 32)).map fun b => mxConvert code (fun _ => .rne) ((v.drop (32 * b)).take 32)
    (packElems code (bs.flatMap fun b => b.2.1), bs.map fun b => BitVec.ofNat 8 b.1, (bs.filter fun b => b.2.2).length)
  else
    let l := v.map (convert code false .rne)
    (packElems code (l.map (·.1)), [], (l.filter (·.2)).length)

/-- The chip after the new keys and values of a token are written into their slots. -/
def Chip.writeToken (c : Chip) (m : Cmd) (x : AttnOps) (draw : Nat) (i : Nat) (t : Tok) : Chip × Nat :=
  let p := x.par
  let fr := c.pageFrame m x t.seg (t.pos / 256)
  (List.range p.kvHeads).foldl (fun (r : Chip × Nat) h =>
    let key := rotate (fun k => Config.freeAt draw [0, i, h, k]) p.theta p.pairs p.split false t.pos (c.vecAt p.fmtQ m.kvNew (i * p.kvHeads + h) p.dim)
    let val := c.vecAt p.fmtQ (m.kvNew + m.newValues p) (i * p.kvHeads + h) p.dim
    [(false, key), (true, val)].foldl (fun (r : Chip × Nat) (e : Bool × List FV) =>
      let (bs, sc, sat) := kvRow p.fmtKv e.2
      ((r.1.store (fr + p.rowOff e.1 h (t.pos % 256)) bs).store (fr + p.scaleOff e.1 h (t.pos % 256)) sc, r.2 + sat)) r) (c, 0)

/-- What refuses a command its writes to a frame: another party owns it or it is neither LIVE nor DRAIN (`inl`), or no frame has the
number (`inr`) (R172, R173). -/
def Chip.frameRefused (c : Chip) (m : Cmd) (f : Nat) : Option (Nat ⊕ Nat) :=
  match c.frameNo f with
  | none => some (.inr f)
  | some (h, n) => let e := c.frame h n; if (e.state = 1 ∨ e.state = 2) ∧ e.owner = m.owner then none else some (.inl f)

/-- Saturated values are counted at their engine and mark the command, however it ends (R61, R183). -/
def Chip.attnSat (c : Chip) (m : Cmd) (n : Nat) : Cmd × Chip :=
  ({ m with clamped := m.clamped || decide (0 < n) }, c.count (F.ATTN_CLAMP_CNT_COUNT m.half.idx) n)

/-- The chip after the write phase (R181). -/
def Chip.attnWrite (c : Chip) (m : Cmd) (far : Far) (x : AttnOps) : Chip :=
  let bytes := m.newValues x.par + m.nTok * x.par.kvHeads * codeBytes x.par.fmtQ x.par.dim
  match c.reach m m.kvNew bytes far with
  | .error e => c.attnFault m e
  | .ok _ =>
    match x.newPages.findSome? fun q => c.frameRefused m (c.entryFrame m (x.entryAddr q.1 q.2)) with
    | some (.inl f) => c.attnNoPin m f
    | some (.inr f) => c.attnEnd m 0 (c.frameCause f)
    | none =>
      let c := c.touches m [(m.kvNew, bytes)]
      let r := x.toks.zipIdx.foldl (fun (r : Chip × Nat) (e : Tok × Nat) =>
        let y := r.1.writeToken m x c.freeCnt e.2 e.1
        (y.1, r.2 + y.2)) (c, 0)
      let (m, c) := { r.1 with freeCnt := c.freeCnt + 1 }.attnSat m r.2
      c.setCmd (m.withAttn { m.attn with phase := 3 })

/-- The chip after a pin is taken on every frame that the command reads, or the end of the command where one is refused. -/
def Chip.attnPinAll (c : Chip) (m : Cmd) (far : Far) (x : AttnOps) : List (Nat × Nat) → Except Chip Chip
  | [] => .ok c
  | (s, i) :: rest =>
    let a := x.entryAddr s i
    match c.engineCause m.bus false a 4 far with
    | some e => .error (c.attnFault m e)
    | none =>
      let f := c.entryFrame m a
      let c := c.tookEntry m a
      match c.frameNo f with
      | none => .error (c.attnEnd m a (c.frameCause f))
      | some _ => match c.kvPin m f with
        | .error _ => .error (c.attnNoPin m f)
        | .ok c => c.attnPinAll m far x rest

/-- The chip after the pin phase. -/
def Chip.attnPin (c : Chip) (m : Cmd) (far : Far) (x : AttnOps) : Chip :=
  match c.attnPinAll m far x (x.pages (m.appends x)) with
  | .error c => c
  | .ok c => c.setCmd (m.withAttn { m.attn with phase := 4, reads := (x.pages (m.appends x)).length })

/-- A key or value as stored, and as converted to the query's format (R169, R71). -/
def Chip.kvStored (c : Chip) (m : Cmd) (x : AttnOps) (v : Bool) (s j h : Nat) : List FV :=
  let p := x.par
  let fr := c.pageFrame m x s (j / 256)
  let row := fr + p.rowOff v h (j % 256)
  let sc := fr + p.scaleOff v h (j % 256)
  (List.range p.dim).map fun e =>
    let pat := unpack p.fmtKv (fun i => (c.byte (row + i)).toNat) e
    if codeMx p.fmtKv then mxValue p.fmtKv (c.byte (sc + e / 32)).toNat pat else codeValue p.fmtKv pat
def toQuery (code : Nat) (v : FV) : FV := codeValue code (convert code false .rne v).1
def Chip.kvVec (c : Chip) (m : Cmd) (x : AttnOps) (v : Bool) (s j h : Nat) : List FV := (c.kvStored m x v s j h).map (toQuery x.par.fmtQ)

/-- What the engine multiplies with: values that overflow the query's format saturated, the others converted to it where `rounded`
is set, else as exactly decoded (R71, R169, R72). DEDUCED, unsafe: log 114. -/
def Chip.kvShown (c : Chip) (m : Cmd) (x : AttnOps) (rounded v : Bool) (s j h : Nat) : List FV :=
  (c.kvStored m x v s j h).map fun e =>
    let r := convert x.par.fmtQ false .rne e
    if r.2 ∨ rounded then codeValue x.par.fmtQ r.1 else e

/-- Keys and values of a segment's attended positions that saturate on conversion (R71, R183). -/
def Chip.kvSat (c : Chip) (m : Cmd) (x : AttnOps) (append : Bool) : Nat :=
  (x.liveSegs.map fun s => ((List.range (x.reach s append)).map fun j => ((List.range x.par.kvHeads).map fun h =>
    ((c.kvStored m x false s j h ++ c.kvStored m x true s j h).filter fun v => (convert x.par.fmtQ false .rne v).2).length).sum).sum).sum

/-- The first poisoned unit of the frames that the command reads (R210). -/
def Chip.kvPoison (c : Chip) (m : Cmd) (x : AttnOps) (append : Bool) : Option Nat :=
  (x.pages append).findSome? fun q => c.poisoned (c.pageFrame m x q.1 q.2) (2 * x.par.areaK + 2 * x.par.areaScale)

/-- The query of a token and head, rotated (R179). -/
def Chip.query (c : Chip) (m : Cmd) (x : AttnOps) (draw i q : Nat) (t : Tok) : List FV :=
  let p := x.par
  rotate (fun k => Config.freeAt draw [1, i, q, k]) p.theta p.pairs p.split false t.pos (c.vecAt p.fmtQ m.qAddr (i * p.heads + q) p.dim)

/-! ### Attend (R178, R180, R72) -/

/-- A score and the largest error it may carry: R66's with K = d, and 2⁻²⁴|s| for the scaling
(R71, R72). -/
def score (p : AttnPar) (q k : List FV) : FV × FV :=
  let s := p.sigma.mul (dot q k)
  (s, (dotBound p.dim (dotAbs q k)).add (s.abs.scale (-24)))

/-- One query row: row maximum, log-sum-exp, outputs (R72, R180); without positions, −∞, −∞ and +0. -/
def attnRow (p : AttnPar) (draw : Nat → Dword) (q : List FV) (ks vs : List (List FV)) : FV × FV × List FV :=
  if ks.isEmpty then (.inf true, .inf true, List.replicate p.dim FV.zero)
  else
    let sc := ks.map (score p q)
    let delta := sc.foldl (fun a s => FV.max a s.2) FV.zero
    let mx := sc.foldl (fun a s => if s.1.isNan then .nan else if a = .nan then a else FV.max a s.1) (.inf true)
    let w := sc.map fun s => (s.1.add mx.neg).exp
    let total := FV.sum w
    let pages : Int := ((ks.length + 255) / 256 : Nat)
    let ep := (((delta.scale 1).exp.add FV.one.neg).add (pow2 (-19))).add ((FV.ofInt (8 + pages)).scale (-24))
    let outs := (List.range p.dim).map fun e =>
      let col := vs.map fun v => v.getD e FV.zero
      let exact := (FV.sum (List.zipWith FV.mul w col)).div total
      let size := (FV.sum (List.zipWith (fun a b => (a.mul b).abs) w col)).div total
      within (draw (e + 2)) exact ((ep.add ((FV.ofInt (9 + pages)).scale (-24))).mul size)
    let ln := if total.isNan ∨ total.isInf then total else mx.add (fixFV total.lnFix)
    (within (draw 0) mx delta, within (draw 1) ln (delta.add ep), outs)

/-- The row statistics and outputs of a command, and the saturated outputs. -/
def Chip.attnResults (c : Chip) (m : Cmd) (x : AttnOps) : List Byte × List Byte × Nat :=
  let p := x.par
  let code := cvtFmt m.attnCvt
  let rows := x.toks.zipIdx.flatMap fun e => (List.range p.heads).map fun q =>
    let (t, i) := e
    let n := x.attended t (m.appends x)
    let rounded := Config.freeAt c.freeCnt [6, i, q] % 2 == 1
    let kv (v : Bool) := (List.range n).map fun j => c.kvShown m x rounded v t.seg j (q / p.group)
    let r := attnRow p (fun k => Config.freeAt c.freeCnt [2, i, q, k]) (c.query m x c.freeCnt i q t) (kv false) (kv true)
    let out := r.2.2.zipIdx.map fun (o : FV × Nat) => convert code (cvtSat m.attnCvt) (cvtRm m.attnCvt m.srAllowed (Config.freeAt c.freeCnt [3, i, q, o.2]).toNat) o.1
    (toLE 4 (toFp32 r.1) ++ toLE 4 (toFp32 r.2.1), out)
  (rows.flatMap (·.1), packElems code (rows.flatMap fun (r : List Byte × List (Nat × Bool)) => r.2.map (·.1)),
    (rows.map fun (r : List Byte × List (Nat × Bool)) => (r.2.filter (·.2)).length).sum)

/-- The chip after results are written at addresses in order, or after the first refused access. -/
def Chip.attnStore (c : Chip) (m : Cmd) (far : Far) : List (Nat × List Byte) → Except (Nat × Nat) Chip
  | [] => .ok c
  | (a, bs) :: rest => match c.place m a bs far with
    | .error e => .error e
    | .ok c => c.attnStore m far rest

/-- The chip after a command has done its work with its results to write: the command is done but for its completion. -/
def Chip.attnDone (c : Chip) (m : Cmd) (far : Far) (sat : Nat) (l : List (Nat × List Byte)) : Chip :=
  let (m, c) := { c with freeCnt := c.freeCnt + 1 }.attnSat m sat
  match c.attnStore m far l with
  | .error e => c.attnFault m e
  | .ok c => (c.touches m (l.map fun r => (r.1, r.2.length))).setCmd { m with stage := .done }

/-- The chip after a command whose outcome nothing states writes free bytes where its outputs go. -/
def Chip.attnFree (c : Chip) (m : Cmd) (far : Far) (x : AttnOps) : Chip :=
  c.attnDone m far 0 [(if m.opcode = 0x41 then m.kvNew else m.oAddr, c.freeBytes (m.nTok * x.par.heads * codeBytes (cvtFmt m.attnCvt) x.par.dim))]

/-- The chip after the attend phase (R181). -/
def Chip.attend (c : Chip) (m : Cmd) (far : Far) (x : AttnOps) : Chip :=
  match c.attnPinAll m far x (x.pages (m.appends x)) with
  | .error c => c
  | .ok c =>
    match c.reach m m.qAddr (m.nTok * x.par.heads * x.par.qRow) far, c.kvPoison m x (m.appends x) with
    | .error e, _ => c.attnFault m e
    | _, some u => c.attnFault m (u, 4)
    | .ok _, none =>
      let c := c.touches m [(m.qAddr, m.nTok * x.par.heads * x.par.qRow)]
      let (stats, outs, sat) := c.attnResults m x
      c.attnDone m far (sat + c.kvSat m x (m.appends x))
        ((if x.par.saveStats then [(x.par.stats, stats)] else []) ++ [(m.oAddr, outs)])

/-! ### The backward pass (R196, R197) -/

/-- What one token and query head gives: the attended positions' s, p and ds. -/
structure BackRow where
  tok : Tok
  q : List FV
  dout : List FV
  /-- Attended position, p, and σ × ds. -/
  terms : List (Nat × FV × FV)

/-- The row of a token and head from the saved statistics. -/
def Chip.backRow (c : Chip) (m : Cmd) (x : AttnOps) (i q : Nat) (t : Tok) : BackRow :=
  let p := x.par
  let d (l : List Nat) := Config.freeAt c.freeCnt (4 :: i :: q :: l)
  let stat := p.stats + (i * p.heads + q) * 8
  let (mx, ln) := (fp32.decode (c.loadN stat 4), fp32.decode (c.loadN (stat + 4) 4))
  let qv := c.query m x c.freeCnt i q t
  let dout := c.vecAt p.fmtQ m.oAddr (i * p.heads + q) p.dim
  let o := c.vecAt (cvtFmt m.attnCvt) p.out2 (i * p.heads + q) p.dim
  let di := sumFree (d [0]) (List.zipWith mul32 dout o)
  let e2 := expFree (d [1]) (sub32 mx ln)
  let terms := if ln = .inf true then []
    else (List.range (x.attended t false)).map fun j =>
      let k := c.kvVec m x false t.seg j (q / p.group)
      let v := c.kvVec m x true t.seg j (q / p.group)
      let s := mul32 p.sigma (within (d [2, j]) (dot qv k) (dotBound p.dim (dotAbs qv k)))
      let pr := mul32 (expFree (d [3, j]) (sub32 s mx)) e2
      let dp := within (d [4, j]) (dot dout v) (dotBound p.dim (dotAbs dout v))
      (j, pr, mul32 p.sigma (mul32 pr (sub32 dp di)))
  ⟨t, qv, dout, terms⟩

/-- The bytes of dQ, saturated values among them; and for each segment the bytes of dK then dV (R197). -/
def Chip.backResults (c : Chip) (m : Cmd) (x : AttnOps) : List Byte × Nat × List (Nat × List Byte) :=
  let p := x.par
  let code := cvtFmt m.attnCvt
  let rows := x.toks.zipIdx.flatMap fun e => (List.range p.heads).map fun q => (e.2, q, c.backRow m x e.2 q e.1)
  let free (l : List Nat) := Config.freeAt c.freeCnt (5 :: l)
  let dq := rows.map fun ((i, q, r) : Nat × Nat × BackRow) =>
    let sums := (List.range p.dim).map fun e => sumFree (free [0, i, q, e]) (r.terms.map fun (y : Nat × FV × FV) =>
      mul32 y.2.2 ((c.kvVec m x false r.tok.seg y.1 (q / p.group)).getD e FV.zero))
    let back := rotate (fun k => free [1, i, q, k]) p.theta p.pairs p.split true r.tok.pos sums
    back.zipIdx.map fun (o : FV × Nat) => convert code (cvtSat m.attnCvt) (cvtRm m.attnCvt m.srAllowed (free [2, i, q, o.2]).toNat) o.1
  let grads := x.liveSegs.filterMap fun s => (x.segs[s]?).map fun g =>
    let len := x.segLen s false
    let old (k : Nat) : FV := fp32.decode (c.loadN (g.grad + 4 * k) 4)
    let put (k : Nat) (v : FV) : List Byte := toLE 4 (toFp32 (if p.gradAcc then (old k).add v else v))
    let sum (vals : Bool) (j h : Nat) : List FV :=
      let mine := rows.filter fun ((_, q, r) : Nat × Nat × BackRow) => r.tok.seg == s && q / p.group == h
      let hits := mine.flatMap fun ((_, _, r) : Nat × Nat × BackRow) => (r.terms.filter fun y => y.1 == j).map fun y => (if vals then y.2.1 else y.2.2, if vals then r.dout else r.q)
      (List.range p.dim).map fun e => sumFree (free [3, s, b2n vals, j, h, e]) (hits.map fun (z : FV × List FV) => mul32 z.1 (z.2.getD e FV.zero))
    let area (vals : Bool) := (List.range len).flatMap fun j => (List.range p.kvHeads).flatMap fun h =>
      let v := sum vals j h
      let v := if vals then v else rotate (fun k => free [4, s, j, h, k]) p.theta p.pairs p.split true j v
      v.zipIdx.flatMap fun o => put (((if vals then len else 0) + j) * p.kvHeads * p.dim + h * p.dim + o.2) o.1
    (g.grad, area false ++ area true)
  (packElems code (dq.flatMap fun (r : List (Nat × Bool)) => r.map (·.1)), (dq.map fun (r : List (Nat × Bool)) => (r.filter (·.2)).length).sum, grads)

/-- The chip after a backward command has computed its gradients. -/
def Chip.backward (c : Chip) (m : Cmd) (far : Far) (x : AttnOps) : Chip :=
  match c.attnPinAll m far x (x.pages false) with
  | .error c => c
  | .ok c =>
    match (m.backReads x).findSome? fun r => c.reachCause m.half m.owner false r.1 r.2 far, c.kvPoison m x false with
    | some e, _ => c.attnFault m e
    | _, some u => c.attnFault m (u, 4)
    | none, none =>
      let c := c.touches m (m.backReads x)
      let (dq, sat, grads) := c.backResults m x
      c.attnDone m far (sat + c.kvSat m x false) ((m.kvNew, dq) :: grads)

/-! ### The rows -/

/-- The chip after a command in flight takes its next step: its parameter block is read, or, once it is admitted, its phase goes
on. `o` is what its reads show (R106, R208–R210): data that cannot be corrected ends the command, and data whose error was not
detected gives it any outcome. -/
def Chip.attnStep (c : Chip) (m : Cmd) (far : Far) (o : Seen) : Chip :=
  if c.engineHalted (.attention m.id) ∨ ¬ c.awake m.half then c
  else if m.attn.phase = 0 then c.attnRead m far o
  else match c.attnOps m far with
    | .error e => c.attnFault m e
    | .ok x =>
      if m.attn.phase = 5 then c.attnFree m far x
      else if ¬ (c.pinOps.get m.half).contains m.id then c
      else if c.attnWild m x then c.attnFree m far x
      else
        let (e, c) := c.sight (c.mayRead m far (c.attnReads m x)) o
        match e.lost with
        | some u => c.attnEnd m u 4
        | none =>
          if e.wrong then c.attnFree m far x
          else match m.attn.phase with
          | 1 => c.attnPrepare m far x
          | 2 => c.attnWrite m far x
          | 3 => c.attnPin m far x
          | _ => if m.opcode = 0x41 then c.backward m far x else c.attend m far x

/-- The chip after a dispatched attention or backward command starts, or one that runs goes on. -/
def Chip.attnTurn (c : Chip) (op : Nat) (id : CmdId) (far : Far) (o : Seen) : Chip :=
  match c.takeable id fun o => o == 0x40 || o == 0x41 with
  | some m => if m.opcode = op ∧ ¬ c.engineHalted (.attention id) then c.attnStart m else c
  | none =>
    match c.cmd? id with
    | some m => if m.opcode = op ∧ m.stage = .running ∧ ¬ c.attnOutranked m.half m then c.attnStep m far o else c
    | none => c

/-- ATTENTION_COMMAND (R174–R181): a dispatched attention command starts, or takes its next step; `far` says how its
accesses through windows end, `o` what its reads show. -/
def execAttentionCommand (id : CmdId) (s : State) (far : Far := .answered) (o : Seen := []) : Host.Outcome State Fault Refusal :=
  s.go (s.chip.attnTurn 0x40 id far o)

/-- BACKWARD_PASS (R196, R197): a dispatched backward command starts, or takes its next step; `far` says how its
accesses through windows end, `o` what its reads show. -/
def execBackwardPass (id : CmdId) (s : State) (far : Far := .answered) (o : Seen := []) : Host.Outcome State Fault Refusal :=
  s.go (s.chip.attnTurn 0x41 id far o)

/-- ATTENTION_COMPLETION (R183, R186): an attention or backward command that has done its work drops its pins and
completes. -/
def execAttentionCompletion (id : CmdId) (s : State) : Host.Outcome State Fault Refusal :=
  let c := s.chip
  match c.cmd? id with
  | some m =>
    if m.isAttn ∧ m.stage = .done then s.go ((c.attnOver m).complete m m.attnDetail) else s.go c
  | none => s.go c

end Sys2Proof.Machine
end

