-- ==== Sys2Proof/Machine/Gouge.lean ====
section
/-! DEFINITION. Gouge tasks, copies and Darienor's instructions (R109–R131): starting and completing a task, the slivers, the
copies, dowel waits and signals of the cores, the narrow-format conversions, the core tests. -/

namespace Sys2Proof.Machine

/-! ### Registers of a core -/

/-- An integer register; x0 reads as zero. -/
def Core.xr (x : Core) (i : Nat) : Nat := if i = 0 then 0 else (Tbl.look 0 x.x i).toNat
/-- The core with an integer register written; x0 discards writes. -/
def Core.xw (x : Core) (i v : Nat) : Core := if i = 0 then x else { x with x := Tbl.put 0 x.x i (BitVec.ofNat 64 v) }

/-- An element of `w` bits of the vector register group from `r` on; a group runs on across registers. -/
def Core.vget (x : Core) (r w i : Nat) : Nat := bits (Tbl.look 0 x.v (r + i * w / 256)).toNat (i * w % 256) w
/-- The core with such an element written. -/
def Core.vset (x : Core) (r w i v : Nat) : Core :=
  let g := r + i * w / 256
  let old := (Tbl.look 0 x.v g).toNat
  let sh := i * w % 256
  { x with v := Tbl.put 0 x.v g (BitVec.ofNat 256 (old - bits old sh w * 2 ^ sh + v % 2 ^ w * 2 ^ sh)) }

/-- The core after an instruction of `n` bytes is done. -/
def Core.past (x : Core) (n : Nat) : Core := { x with pc := (x.pc + n) % 2 ^ 64, instret := (x.instret + 1) % 2 ^ 64 }

/-- How an instruction ends: the chip and the core afterwards, an exception with its cause, or with what it needs on a half that is
DOWN, so that its task is abandoned (R362). -/
inductive Ran where
  | ok (chip : Chip) (x : Core)
  | trap (chip : Chip) (cause : Nat)
  | gone (chip : Chip)

/-- The chip after an instruction of a core has ended so. -/
def Ran.apply (b k : Nat) : Ran → Chip
  | .ok c x => c.setCore b k x
  | .trap c cause => c.trap b k cause
  | .gone c => c.abandonCore b k

/-- Exception causes of the privileged architecture that user mode can meet (R113, R116). -/
def causeFetchFault : Nat := 1
def causeIllegal : Nat := 2
def causeBreak : Nat := 3
def causeLoadAlign : Nat := 4
def causeLoadFault : Nat := 5
def causeStoreAlign : Nat := 6
def causeStoreFault : Nat := 7
def causeEcall : Nat := 8

/-! ### The core-local address space (R114) -/

/-- The window address of `n` bytes at a local address that loads, stores and AMOs reach. -/
def localAddr (b k a n : Nat) : Option Nat :=
  if a + n ≤ 0xC000 then some (dataStore b k + a)
  else if 0x200000 ≤ a ∧ a + n ≤ 0x400000 then some (benchStore b + (a - 0x200000))
  else none

/-- The instruction at a local address: its word and its length in bytes; none is an access fault. -/
def Chip.fetchAt (c : Chip) (b k pc : Nat) : Option (Nat × Nat) :=
  if pc < 0x10000 ∨ 0x14000 < pc + 2 then none
  else
    let a := instStore b k + (pc - 0x10000)
    let lo := c.loadN a 2
    if lo % 4 ≠ 3 then some (lo, 2)
    else if 0x14000 < pc + 4 then none
    else some (c.loadN a 4, 4)

/-- The sliver of a logical core comes first on the physical core that carries it: one without a core of its own runs after the
sliver of the core that carries it (R131). -/
def Chip.coreTurn (c : Chip) (b k : Nat) : Bool :=
  c.on (F.BENCH_MAP_VALID b k) || let y := c.core b (k - c.q (F.BENCH_CORES_HEALTHY b)); y.stall == .ended || y.task != (c.core b k).task

/-- A logical core executes instructions now: its task runs, it is its turn, nothing stalls it, its bench is clocked, in service
and not moving its context, and no debugger halts it; the same task's contexts on other benches may be saved (R128, R131, R473,
R519). -/
def Chip.coreRuns (c : Chip) (b : Fin 32) (k : Fin 60) : Bool :=
  let x := c.core b k
  x.stall == .none && c.coreTurn b k && c.unitOn (8 + b) && !c.down.get (benchHalf b) && !c.on (F.BENCH_STATUS_SAVE_RESTORE b) &&
    !c.engineHalted (.bench b) && !c.halted.contains (.gouge b k) &&
    match x.task.bind c.cmd? with
    | some m => (c.bench b).task == some m.id && (m.stage == .running || m.stage == .preempted)
    | none => false

/-! ### Slivers (R118, R119) -/

/-- Byte `n` of the fill pattern, repeated over an element. -/
def slFill (d : List Dword) (n : Nat) : Byte := BitVec.ofNat 8 (bits (d.getD 3 0).toNat (32 + 8 * (n % 4)) 8)

/-- Index `i` of dimension 1 lies in the valid band. -/
def slRow (d : List Dword) (i : Nat) : Bool := decide (slRowLo d ≤ i ∧ i ≤ slRowHi d)

/-- Offset of element (x, i, j) of a sliver from the start of its space; a dimension of extent 1 ignores its stride. -/
def slOffset (d : List Dword) (x i j : Nat) : Int :=
  let base : Nat := if slSpace d = 3 then slBase d % 2 ^ 16 else slBase d
  let s1 := if slExt d 1 = 1 then 0 else sgn 32 (bits (d.getD 2 0).toNat 0 32)
  let s2 := if slExt d 2 = 1 then 0 else sgn 32 (bits (d.getD 2 0).toNat 32 32)
  (base + x * 2 ^ slEsize d : Nat) + i * s1 + j * s2

/-- Physical address of an element; none where it lies outside the store that its space names, or where `SPACE` 3 names logical
core 60 to 63, of which there is none: the copy then ends in error (DEDUCED, assumption 100). -/
def slAddr (b k : Nat) (d : List Dword) (x i j : Nat) : Option Nat :=
  let o := slOffset d x i j
  let inside (n base : Nat) : Option Nat := if 0 ≤ o ∧ o + (2 ^ slEsize d : Nat) ≤ (n : Int) then some (base + o.toNat) else none
  match slSpace d with
  | 0 => some (unsgn 48 o)
  | 1 => inside 0x200000 (benchStore b)
  | 2 => inside 0xC000 (dataStore b k)
  | 3 => if bits (slBase d) 16 6 < 60 then inside 0xC000 (dataStore b (bits (slBase d) 16 6)) else none
  | _ => none

/-- Elements of a sliver, and the indices of element `n` in the order of dimension 0, then 1, then 2 (R119). -/
def slCount (d : List Dword) : Nat := slExt d 0 * slExt d 1 * slExt d 2
def slIndex (d : List Dword) (n : Nat) : Nat × Nat × Nat :=
  (n % max (slExt d 0) 1, n / max (slExt d 0) 1 % max (slExt d 1) 1, n / max (slExt d 0) 1 / max (slExt d 1) 1)

/-- Source and destination fit one another, in spaces and element sizes that exist (R119). -/
def copyFits (s d : List Dword) : Bool :=
  decide (slExt s 0 = slExt d 0 ∧ slExt s 1 = slExt d 1 ∧ slExt s 2 = slExt d 2 ∧ slEsize s = slEsize d ∧ slEsize s ≤ 3 ∧
    slSpace s ≤ 3 ∧ slSpace d ≤ 3)

/-- The copy has an end in physical memory and is carried by a Carriage (R120). -/
def copyOutside (s d : List Dword) : Bool := slSpace s == 0 || slSpace d == 0

/-- A sliver reaches one of the bytes of a range; rows outside its band are not reached (R118). -/
def slTouches (b k : Nat) (d : List Dword) (a n : Nat) : Bool :=
  (List.range (slExt d 1 * slExt d 2)).any fun r =>
    let (i, j) := (r % max (slExt d 1) 1, r / max (slExt d 1) 1)
    slRow d i && match slAddr b k d 0 i j with
      | some p => decide (p < a + n ∧ a < p + slExt d 0 * 2 ^ slEsize d)
      | none => false

/-- A copy in flight of a core touches one of the bytes of a range (R121). -/
def GCopy.near (g : GCopy) (b k a n : Nat) : Bool := !g.ended && (slTouches b k g.src a n || slTouches b k g.dst a n)

/-- A core with its copies in flight that touch a range marked unpredictable. -/
def Core.marked (x : Core) (b k a n : Nat) : Core :=
  { x with copies := x.copies.map fun e => if e.2.near b k a n then (e.1, { e.2 with wild := true }) else e }

/-- The chip, with core `x` that accesses a range, after the copies in flight of any core that touch it are marked unpredictable, and
whether there are any (R121). -/
def Chip.crossing (c : Chip) (x : Core) (b k a n : Nat) : Chip × Core × Bool :=
  let near (y : Core) (j : Nat) : Bool := y.copies.any fun e => e.2.near (j / 64) (j % 64) a n
  let others := c.cores.any fun e => e.1 != 64 * b + k && near e.2 e.1
  ({ c with cores := if others then c.cores.map fun e => (e.1, e.2.marked (e.1 / 64) (e.1 % 64) a n) else c.cores }, x.marked b k a n,
    others || near x (64 * b + k))

/-! ### Copies (R119–R121) -/

/-- What stops a copy: an address and a cause, whether a write met it, and whether the read there has just found its data lost (R210,
R226). -/
structure CopyStop where
  addr : Nat
  cause : Nat
  write : Bool
  found : Bool
deriving DecidableEq, Repr

/-- The bus initiator of the copies of a bench. -/
def copyBus (o : Owner) (b : Nat) : Initiator := engineBus o (benchHalf b) (0x140 + b)

/-- The command whose task a core runs. -/
def Chip.taskOf (c : Chip) (b k : Nat) : Option Cmd := (c.core b k).task.bind c.cmd?

/-- One element read from its source, where the reads show `see`; `data` is what the far side answers, of which the rest is given
(R119, R120, R208–R210, R217). -/
def Chip.copyRead (c : Chip) (o : Owner) (b k : Nat) (s : List Dword) (n : Nat) (ok : Bool) (data : List Byte) (see : Seen) :
    Except (Chip × CopyStop) (Chip × List Byte × List Byte) :=
  let (x, i, j) := slIndex s n
  let e := 2 ^ slEsize s
  if ¬ slRow s i then .ok (c, (List.range e).map (slFill s), data)
  else match slAddr b k s x i j with
    | none => .error (c, ⟨0, 8, false, false⟩)
    | some a =>
      match (if slSpace s = 0 then c.busRange (copyBus o b) false a e else none) with
      | some (y, q) => .error (c, ⟨y, q, false, false⟩)
      | none =>
        let c := if slSpace s = 0 then c.badEntries (benchHalf b) (c.taskOf b k) o a e (engineBench b) else c
        if inWindow a then
          if ok then .ok (c, (data.take e ++ List.replicate (e - data.length) 0), data.drop e) else .error (c, ⟨a, 1, false, false⟩)
        else if a < 0x40000000 then
          let (v, c) := c.busRead (copyBus o b) a e
          .ok (c, v, data)
        else match c.poisoned a e with
          | some u => .error (c, ⟨u, 4, false, false⟩)
          | none =>
            let (g, c) := c.sight [(a, e)] see
            match g.lost with
            | some u => .error (c, ⟨u, 4, false, true⟩)
            | none =>
              let (race, c) := c.arrayRace false a e
              let wild := g.wrong || race
              .ok ({ c with freeCnt := c.freeCnt + b2n wild }, if wild then c.freeBytes e else c.load a e, data)

/-- One element written to its destination. -/
def Chip.copyWrite (c : Chip) (o : Owner) (b k : Nat) (d : List Dword) (n : Nat) (ok : Bool) (v : List Byte) : Except (Chip × CopyStop) Chip :=
  let (x, i, j) := slIndex d n
  if ¬ slRow d i then .ok c
  else match slAddr b k d x i j with
    | none => .error (c, ⟨0, 8, true, false⟩)
    | some a =>
      if slSpace d ≠ 0 then .ok (c.store a v)
      else match c.busRange (copyBus o b) true a v.length with
        | none =>
          let c := c.badEntries (benchHalf b) (c.taskOf b k) o a v.length (engineBench b)
          if inWindow a then (if ok then .ok c else .error (c, ⟨a, 1, true, false⟩))
          else if a < 0x40000000 then .ok (c.regWrite (copyBus o b) v.length a (leNat v))
          else
            let (race, c) := c.arrayRace true a v.length
            .ok ({ c with freeCnt := c.freeCnt + b2n race }.store a (if race then c.freeBytes v.length else v))
        | some (y, q) => .error (c, ⟨y, q, true, false⟩)

/-- `n` elements of a copy from element `i` on, in order; bytes written before an error stay written (R120). What stops it comes with
the element at which it does. -/
def Chip.copyElems (c : Chip) (o : Owner) (b k : Nat) (g : GCopy) (ok : Bool) (see : Seen) :
    Nat → Nat → List Byte → Except (Chip × CopyStop × Nat) Chip
  | 0, _, _ => .ok c
  | n + 1, i, data =>
    match c.copyRead o b k g.src i ok data see with
    | .error (c, e) => .error (c, e, i)
    | .ok (c', v, data) =>
      let v := if g.wild then (List.range v.length).map fun q => Config.freeByte c.freeCnt (8 * i + q) else v
      match c'.copyWrite o b k g.dst i ok v with
      | .error (c, e) => .error (c, e, i)
      | .ok c'' => c''.copyElems o b k g ok see n (i + 1) data

/-- The chip after a copy that waits for a link leaves for its window, where a link takes it; the flits of a copy are
counted for each 64 bytes. -/
def Chip.sendCopy (c : Chip) (b k tag : Nat) : Chip :=
  let x := c.core b k
  match Tbl.find? x.copies tag with
  | none => c
  | some g =>
    match g.window with
    | none => c
    | some a =>
      let h := benchHalf b
      let p : Owner := BitVec.ofNat 13 (c.q (F.BENCH_STATUS_OWNER b))
      if g.ended ∨ g.sent.isSome then c
      else if c.windowGone h a then c.copyGone b k tag .remoteLost
      else
        let go (c : Chip) : Chip := c.setCore b k { x with copies := Tbl.ins x.copies tag { g with sent := some (c.stamp h 0), pasid := c.outPasid p a } }
        if ¬ isPeer a then (go c).pcieSent p a
        else match c.routeOf h a with
          | none => c
          | some l => (List.range ((slCount g.src * 2 ^ slEsize g.src + 63) / 64)).foldl (fun (c : Chip) _ => c.flitOut l) (go c)

/-- The chip after the copies that wait for a link leave. -/
def Chip.sendCopies (c : Chip) : Chip :=
  c.cores.foldl (fun (c : Chip) (e : Nat × Core) => e.2.copies.foldl (fun (c : Chip) (y : Nat × GCopy) => c.sendCopy (e.1 / 64) (e.1 % 64) y.1) c) c

/-- A Carriage of a half is in service. -/
def Chip.carriageUp (c : Chip) (h : Half) : Bool := (List.range 8).any fun j => c.on (F.CARRIAGE_CTL_ENABLE (8 * h.idx + j))

/-- Bytes that a copy has written with its first `n` elements: rows outside the destination's band are not written (R118). -/
def GCopy.wrote (g : GCopy) (n : Nat) : Nat := ((List.range n).filter fun i => slRow g.dst (slIndex g.dst i).2.1).length * 2 ^ slEsize g.dst

/-- The chip after a copy is carried out: all its elements moved, or its error met (R119–R121, R226, R230); a Carriage counts the bytes
that it wrote (R231). Data that cannot be corrected ends it in error, data whose error was not detected is free (R208–R210). -/
def Chip.carryCopy (c : Chip) (b k tag : Nat) (g : GCopy) (ok : Bool) (data : List Byte) (see : Seen) : Chip :=
  let o : Owner := BitVec.ofNat 13 (c.q (F.BENCH_STATUS_OWNER b))
  let h := benchHalf b
  let n := slCount g.src
  let out := copyOutside g.src g.dst
  if ¬ copyFits g.src g.dst then c.endCopy b k tag true
  else match c.copyElems o b k g ok see n 0 data with
    | .ok c' =>
      let c' := { c' with freeCnt := c'.freeCnt + b2n g.wild }
      (if out then c'.carriageDid h (g.wrote n) else c').endCopy b k tag false
    | .error (c', e, i) =>
      let c' := if out then c'.carriageWrote h (g.wrote i) else c'
      let c' := if e.cause = causeLost ∨ e.cause = 8 ∨ e.found then c' else c'.busRefused (c.taskOf b k) (copyBus o b) e.write e.addr e.cause (engineBench b)
      let c' := match c'.carriageOf h with
        | some j => if 1 ≤ e.cause ∧ e.cause ≤ 3 then c'.inc (F.CARRIAGE_REFUSED_COUNT j) else c'
        | none => c'
      ({ c' with freeCnt := c'.freeCnt + b2n g.wild }).endCopy b k tag true

/-- COPY_COMPLETION (R119): a copy of a core ends on the bench copy port or on a Carriage. Through a window, `ok` says
whether the far side granted it, and `data` is what it answered; `o` is what its reads showed. -/
def execCopyCompletion (b : Fin 32) (k : Fin 60) (tag : Fin 8) (ok : Bool) (data : List Byte) (s : State) (o : Seen := []) : Host.Outcome State Fault Refusal :=
  let c := s.chip
  match Tbl.find? (c.core b k).copies tag.val with
  | none => s.go c
  | some g =>
    if g.ended ∨ (g.window.isSome ∧ g.sent.isNone) ∨ c.down.get (benchHalf b) ∨ ¬ c.awake (benchHalf b) ∨
        (copyOutside g.src g.dst ∧ ¬ c.carriageUp (benchHalf b)) then s.go c
    else if g.drop.isSome then s.go ((c.farAnswered (g.window.getD 0)).endCopy b k tag false)
    else s.go ((c.farAnswered (g.window.getD 0)).carryCopy b k tag g ok data o)

/-! ### Tasks (R125–R127) -/

/-- Fields of a task's descriptor. -/
def Cmd.progLen (m : Cmd) : Nat := min (m.fld 1 48 9) 256 * 64
def Cmd.progAddr (m : Cmd) : Nat := alignDown (m.fld 1 0 48) 64
def Cmd.argLen (m : Cmd) : Nat := m.fld 2 48 8 * 64
def Cmd.argAddr (m : Cmd) : Nat := alignDown (m.fld 2 0 48) 64
def Cmd.train (m : Cmd) : Bool := bit (m.word 4) 14
def Cmd.entry (m : Cmd) : Nat := alignDown (m.fld 4 0 14) 4

/-- A bench is absent for the scheduler: retired, disabled, or of a half that is DOWN. -/
def Chip.benchAbsent (c : Chip) (b : Nat) : Bool :=
  c.down.get (benchHalf b) || c.on (F.BENCH_STATUS_RETIRED b) || !c.on (F.BENCH_CTL_ENABLE b)

/-- A bench is not granted to a command's party; partition 0 runs on the benches of its ring's half (R126, R271). -/
def Chip.benchRefused (c : Chip) (m : Cmd) (b : Nat) : Bool :=
  c.benchAbsent b || !c.benchGranted m.owner b || (m.owner.part == 0 && benchHalf b != m.half)

/-- A bench can start a task of a command's ring now (R102, R128, R308, R473). -/
def Chip.benchFree (c : Chip) (m : Cmd) (b : Nat) : Bool :=
  let x := c.bench b
  let r := m.id.ring.val
  !(if h : b < 32 then c.atSwitch (.bench ⟨b, h⟩) else false) &&
  c.unitOn (8 + b) && !c.on (F.BENCH_STATUS_SAVE_RESTORE b) && x.task.isNone && !x.retiring && (c.copiesOut b).isEmpty &&
    (if h : b < 32 then !c.engineHalted (.bench ⟨b, h⟩) else false) && c.shareOn (8 + b) m.owner != 0 &&
    (x.resident == some r || (x.resident == none && (Tbl.find? c.bctx (32 * r + b)).isNone))

/-- Another ready task comes before this one on a bench of it, or a strict party's to which partition 0 gives way (R271, R272, R293). -/
def Chip.taskOutranked (c : Chip) (m : Cmd) : Bool :=
  (m.owner.part == 0 && m.taskBenches.any c.strictWaiting) || c.cmds.any fun e =>
    e.taskBenches.any fun b => m.taskBenches.contains b && c.readyBench b e && !c.benchRefused e b && c.shareOn (8 + b) e.owner != 0 &&
      (decide (c.serveKey e < c.serveKey m) || (c.serveKey e == c.serveKey m && e.owner != m.owner && (c.bench b).resident.isNone &&
        c.turnBefore (8 + b) e.owner m.owner))

/-- The task's context would go beyond the save capacity of its partition on a half (R279). -/
def Chip.taskOver (c : Chip) (m : Cmd) (h : Half) : Bool :=
  let new := (m.taskBenches.filter fun b => benchHalf b == h && !c.hasBenchCtx m.id.ring.val b).length
  decide (0 < new ∧ c.q (F.SCHED_PART_SAVE_SAVE_BENCH m.owner.part) < c.benchCtxCount h m.owner.part + new)

/-- The chip after one logical core of a task is started: program image, argument block, registers (R126). -/
def Chip.startCore (c : Chip) (m : Cmd) (prog arg : List Byte) (b k idx total : Nat) : Chip :=
  let c := (c.store (instStore b k) prog).store (dataStore b k) arg
  let x : Core := { Core.zero with task := some m.id, stall := .none, pc := 0x10000 + m.entry, vtype := 0 }
  c.setCore b k (((x.xw 10 idx).xw 11 total).xw 12 (m.fld 0 32 32))

/-- The chip after a task starts on every bench that it selects. -/
def Chip.startTask (c : Chip) (m : Cmd) (prog arg : List Byte) : Chip :=
  let us := m.taskUnits
  let c := m.taskBenches.foldl (fun (c : Chip) b =>
    let c := c.setBench b { c.bench b with task := some m.id, resident := some m.id.ring.val, last := some m.owner, marked := false }
    (c.put (F.BENCH_STATUS_OWNER b) m.owner.toNat).put (F.BENCH_STATUS_BUSY b) 1) c
  let c := us.zipIdx.foldl (fun (c : Chip) u => c.startCore m prog arg u.1.1 u.1.2 u.2 us.length) c
  c.setCmd { m with stage := .running, unit := m.taskBenches.headD 0 }

/-- Cores of a task per bench: logical cores 60 and above do not exist. -/
def Cmd.cores60 (m : Cmd) : Cmd := if 60 < m.taskCores then { m with words := m.words.set 3 (BitVec.ofNat 64 (m.fld 3 0 32 + 59 * 2 ^ 32)) } else m

/-- GOUGE_TASK (R125, R126): a dispatched task is refused, or starts once every bench it selects can run it; `far` says how its
reads through windows end, `o` what its reads show. -/
def execGougeTask (id : CmdId) (s : State) (far : Far := .answered) (o : Seen := []) : Host.Outcome State Fault Refusal :=
  let c := s.chip
  match c.takeable id (· == 0x20) with
  | none => s.go c
  | some m =>
    let m := m.cores60
    if m.train ∧ m.owner.part ≠ 0 ∧ c.partClass m.owner.part = 0 then s.go (c.failCmd m 0)
    else if m.taskBenches.any (c.benchRefused m) then s.go (c.complete (m.endWith .noRoom 0) 0)
    else if c.taskOver m .H ∨ c.taskOver m .T then s.go (c.noCapacity m 1)
    else if ¬ m.taskBenches.all (c.benchFree m) ∨ c.taskOutranked m then s.go c
    else
      match c.readSeen m m.progAddr m.progLen far o with
      | (.error e, c) => s.go (c.failRead m e)
      | (.ok p, c) => match c.readSeen m m.argAddr m.argLen far o with
        | (.error e, c) => s.go (c.failRead m e)
        | (.ok a, c) =>
          let c := c.touches m [(m.progAddr, m.progLen), (m.argAddr, m.argLen)]
          s.go (Chip.startTask { c with freeCnt := c.freeCnt + b2n (inWindow m.progAddr || inWindow m.argAddr) } m p a)

/-- Every selected core has executed `gc.done`, and its copies have ended (R127). A task whose `BENCH_MASK` selects no bench has no
core to wait for: it starts, and completes at once (DEDUCED, assumption 99: R125 and R126 do not name the case). -/
def Chip.taskOver? (c : Chip) (m : Cmd) : Bool :=
  m.taskUnits.all fun u => let x := c.core u.1 u.2; x.stall == .ended && x.task == some m.id && x.copies.all fun e => e.2.ended

/-- The `detail` of a task: cores with a non-zero exit code, the lowest such code, the lowest sliver index that gave it
(R127). -/
def Chip.exitDetail (c : Chip) (m : Cmd) : Nat :=
  let bad := (m.taskUnits.zipIdx.map fun u => ((c.core u.1.1 u.1.2).exit, u.2)).filter fun e => e.1 != 0
  match bad with
  | [] => 0
  | e :: es =>
    let low := es.foldl (fun a y => if y.1 < a.1 then y else a) e
    bad.length % 2 ^ 16 + low.1 * 2 ^ 16 + low.2 % 2 ^ 16 * 2 ^ 32

/-- GOUGE_TASK_COMPLETION (R127, R130): a task whose cores have all ended completes. -/
def execGougeTaskCompletion (id : CmdId) (s : State) : Host.Outcome State Fault Refusal :=
  let c := s.chip
  match c.cmd? id with
  | none => s.go c
  | some m =>
    if m.opcode ≠ 0x20 ∨ m.stage ≠ .running ∨ ¬ c.taskOver? m then s.go c
    else
      s.go ((c.stopTask m).complete m (c.exitDetail m))

/-! ### Darienor's instructions (R117–R123) -/

/-- The word of the next instruction of a core, if it is one of 32 bits and the core runs. -/
def Chip.nextWord (c : Chip) (b : Fin 32) (k : Fin 60) : Option Nat :=
  if ¬ c.coreRuns b k then none
  else match c.fetchAt b k (c.core b k).pc with
    | some (w, 4) => some w
    | _ => none

/-- Fields of an R-type or I-type word. -/
def insRd (w : Nat) : Nat := bits w 7 5
def insRs1 (w : Nat) : Nat := bits w 15 5
def insRs2 (w : Nat) : Nat := bits w 20 5
def insF3 (w : Nat) : Nat := bits w 12 3
def insF7 (w : Nat) : Nat := bits w 25 7

/-- A word is the instruction of custom-0 with a funct3 and a funct7. -/
def isGc (w f3 f7 : Nat) : Bool := w % 128 == 0x0B && insF3 w == f3 && insF7 w == f7

/-- The chip after a core executes its next instruction by `f`, if that is one of Darienor's that `is` tells; `o` is what its store
reads show (R132). -/
def Chip.gc (c : Chip) (b : Fin 32) (k : Fin 60) (o : StoreObs 0x210000) (is : Nat → Bool) (f : Chip → Nat → Core → Cmd → Ran) : Chip :=
  match c.nextWord b k with
  | none => c
  | some w =>
    let x := c.core b k
    match x.task.bind c.cmd? with
    | none => c
    | some m => if is w then c.coreStep b k o fun c => (f c w x m).apply b k else c

/-- GC_SLD (R117): a sliver slot takes the descriptor at a data-store address. -/
def execGcSld (b : Fin 32) (k : Fin 60) (s : State) (o : StoreObs 0x210000 := .clean) : Host.Outcome State Fault Refusal :=
  s.go (s.chip.gc b k o (fun w => w % 128 == 0x0B && insF3 w == 0 && bits w 23 9 == 0) fun c w x _ =>
    let a := x.xr (insRs1 w)
    if 0xC000 < a + 32 then .trap c causeLoadFault
    else
      let (c, x, wild) := c.crossing x b k (dataStore b k + a) 32
      let d := (List.range 4).map fun n => if wild then Config.freeValue (c.freeCnt + n) else BitVec.ofNat 64 (c.loadN (dataStore b k + a + 8 * n) 8)
      .ok { c with freeCnt := c.freeCnt + 4 * b2n wild } ({ x with slots := Tbl.ins x.slots (bits w 20 3) d }.past 4))

/-- The tags of a core under which no copy is in flight. -/
def Core.freeTags (x : Core) : List Nat :=
  (List.range 8).filter fun t => match Tbl.find? x.copies t with
    | some g => g.ended
    | none => true

/-- The core stalls as it stands until a copy ends. -/
def Core.stalled (x : Core) : Core := { x with stall := .copies }

/-- Entries that a copy of a party on a half can take now, of the tracker and of the Carriage that carries it (R120, R229). -/
def Chip.copyRoom (c : Chip) (h : Half) (o : Owner) : Nat :=
  match c.carriageOf h with
  | some j => c.roomOn h j o
  | none => c.entriesLeft h o

/-- The chip after a copy of a core is accepted under a free tag, which one the specification does not say (R117, R119, R120). It holds an
entry for each 64 bytes, as far as there are entries; what is beyond waits in the copy's order (R229). -/
def Chip.startCopy (c : Chip) (b k : Nat) (x : Core) (rd : Nat) (src dst : List Dword) : Chip :=
  let (n, c) := c.draw
  let tag := x.freeTags.getD (n % x.freeTags.length) 0
  let x := (x.xw rd tag).past 4
  let h := benchHalf b
  let p : Owner := BitVec.ofNat 13 (c.q (F.BENCH_STATUS_OWNER b))
  let held := if copyOutside src dst then max 1 (min ((slCount src * 2 ^ slEsize src + 63) / 64) (c.copyRoom h p)) else 0
  let c := c.setCore b k { x with copies := Tbl.ins x.copies tag ⟨src, dst, false, false, false, none, false, none, none, held⟩ }
  (match c.carriageOf h with
  | some j => if copyOutside src dst then c.noteMax h j else c
  | none => c).sendCopy b k tag

/-- GC_COPY (R117, R119, R120): a copy starts; with eight copies in flight the core stalls, and one that finds no tracker entry
free waits for one. -/
def execGcCopy (b : Fin 32) (k : Fin 60) (s : State) (o : StoreObs 0x210000 := .clean) : Host.Outcome State Fault Refusal :=
  let c := s.chip
  match c.nextWord b k with
  | none => s.go c
  | some w =>
    if ¬ isGc w 1 0 then s.go c
    else s.go (c.coreStep b k o fun c =>
      let x := c.core b k
      if x.freeTags = [] then c.setCore b k x.stalled
      else
        let slot (r : Nat) : List Dword := (Tbl.find? x.slots (x.xr r % 8)).getD [0, 0, 0, 0]
        let p : Owner := BitVec.ofNat 13 (c.q (F.BENCH_STATUS_OWNER b))
        if copyOutside (slot (insRs1 w)) (slot (insRs2 w)) ∧ c.copyRoom (benchHalf b) p = 0 then c
        else c.startCopy b k x (insRd w) (slot (insRs1 w)) (slot (insRs2 w)))

/-- GC_CWAIT (R117): waits until the copies named have ended, and gives those that ended in error. -/
def execGcCwait (b : Fin 32) (k : Fin 60) (s : State) (o : StoreObs 0x210000 := .clean) : Host.Outcome State Fault Refusal :=
  s.go (s.chip.gc b k o (isGc · 2 0) fun c w x _ =>
    let mine := x.copies.filter fun e => bit (x.xr (insRs1 w)) e.1
    if mine.all fun e => e.2.ended then
      .ok c ((x.xw (insRd w) ((mine.filter fun e => e.2.err).map fun e => 2 ^ e.1).sum).past 4)
    else .ok c { x with stall := .copies })

/-- GC_DWAIT (R117, R122, R123): waits until a dowel holds a value of at least rs2. -/
def execGcDwait (b : Fin 32) (k : Fin 60) (s : State) (o : StoreObs 0x210000 := .clean) : Host.Outcome State Fault Refusal :=
  s.go (s.chip.gc b k o (isGc · 3 0) fun c w x m =>
    let d := x.xr (insRs1 w) % 16384
    let t := x.xr (insRs2 w)
    if c.down.get (dowelHalf d) then .gone c
    else if ¬ c.dowelRead m.owner d then .trap (c.dowelRefused m.owner d 1 (some m.id.ring.val)) causeLoadFault
    else if t ≤ c.dowel d then .ok c (x.past 4)
    else .ok (c.makeWait m.owner d t (.core b k) (some m.id.ring.val)) { x with stall := .dowel d t })

/-- A signal of a core: after every earlier copy, with the party's rights (R121, R122). -/
def Chip.gcSignal (c : Chip) (op w : Nat) (x : Core) (m : Cmd) : Ran :=
  let d := x.xr (insRs1 w) % 16384
  if c.down.get (dowelHalf d) then .gone c
  else if ¬ c.dowelSignal m.owner d then .trap (c.dowelRefused m.owner d 3 (some m.id.ring.val)) causeStoreFault
  else if ¬ x.copies.all fun e => e.2.ended then .ok c { x with stall := .copies }
  else .ok (c.signal m.owner d op (x.xr (insRs2 w)) (some m.id.ring.val)) (x.past 4)

/-- GC_DSIG (R117): sets a dowel to the larger of its value and rs2. -/
def execGcDsig (b : Fin 32) (k : Fin 60) (s : State) (o : StoreObs 0x210000 := .clean) : Host.Outcome State Fault Refusal :=
  s.go (s.chip.gc b k o (isGc · 4 0) fun c w x m => c.gcSignal 0 w x m)

/-- GC_DSIG_ADD (R117): adds rs2 to a dowel. -/
def execGcDsigAdd (b : Fin 32) (k : Fin 60) (s : State) (o : StoreObs 0x210000 := .clean) : Host.Outcome State Fault Refusal :=
  s.go (s.chip.gc b k o (isGc · 4 1) fun c w x m => c.gcSignal 1 w x m)

/-- GC_DONE (R117): ends the core's part of its task. -/
def execGcDone (b : Fin 32) (k : Fin 60) (s : State) (o : StoreObs 0x210000 := .clean) : Host.Outcome State Fault Refusal :=
  s.go (s.chip.gc b k o (isGc · 5 0) fun c w x _ => .ok c { x.past 4 with stall := .ended, exit := x.xr (insRs1 w) % 2 ^ 16 })

/-! ### Conversions to and from the narrow formats (R56–R61, R117) -/

/-- The core after bytes are written from byte 0 of a vector register on; false where they run past v31. -/
def Core.vbytes (x : Core) (r : Nat) (bs : List Byte) : Core := bs.zipIdx.foldl (fun (x : Core) e => x.vset r 8 e.2 e.1.toNat) x

/-- Registers that `n` bytes from a vector register on take exist. -/
def vFits (r n : Nat) : Bool := decide (32 * r + n ≤ 1024)

/-- The chip after values of a task saturated on a core (R61, R127). -/
def Chip.saturated (c : Chip) (b n : Nat) : Chip := c.count (F.BENCH_CLAMP_CNT_COUNT b) n

/-- `vl` must be 32, with SEW = 32 and LMUL at least 4, for the MX conversions. -/
def Core.mxReady (x : Core) : Bool :=
  x.vtype < 256 && x.vl == 32 && bits x.vtype 3 3 == 2 && (bits x.vtype 0 3 == 2 || bits x.vtype 0 3 == 3)

/-- GC_VCVT_N (R117): FP32 elements converted under CVT and packed; a format that is MX or reserved gives an unpredictable
result (R47). -/
def execGcVcvtN (b : Fin 32) (k : Fin 60) (s : State) (o : StoreObs 0x210000 := .clean) : Host.Outcome State Fault Refusal :=
  s.go (s.chip.gc b k o (isGc · 6 0) fun c w x m =>
    let cvt := x.xr (insRs1 w) % 256
    let code := cvtFmt cvt
    if ¬ vFits (insRs2 w) (4 * x.vl) ∨ ¬ vFits (insRd w) (codeBytes code x.vl) then .trap c causeIllegal
    else if 8 ≤ code then .ok { c with freeCnt := c.freeCnt + 1 } ((x.vbytes (insRd w) (c.freeBytes (codeBytes code x.vl))).past 4)
    else
      let r := (List.range x.vl).map fun i =>
        convert code (cvtSat cvt) (cvtRm cvt m.srAllowed (Config.freeValue (c.freeCnt + i)).toNat) (fp32.decode (x.vget (insRs2 w) 32 i))
      let sat := (r.filter (·.2)).length
      let c : Chip := { c with freeCnt := c.freeCnt + x.vl }
      let y := x.vbytes (insRd w) (packElems code (r.map (·.1)))
      .ok ((c.saturated b sat).clampCmd m.id (decide (0 < sat))) ({ y with gcclamp := (y.gcclamp + sat) % 2 ^ 64, vstart := 0 }.past 4))

/-- GC_VCVT_W (R117): packed elements widened to FP32; a reserved format gives an unpredictable result (R47). An INT32 element
that FP32 does not hold rounds to nearest, ties to even: only bits [7:4] of rs1 are given, and no `RND`. DESIGN CHOICE, unsafe:
log 145. -/
def execGcVcvtW (b : Fin 32) (k : Fin 60) (s : State) (o : StoreObs 0x210000 := .clean) : Host.Outcome State Fault Refusal :=
  s.go (s.chip.gc b k o (isGc · 6 1) fun c w x _ =>
    let code := bits (x.xr (insRs1 w)) 4 4
    if ¬ vFits (insRd w) (4 * x.vl) ∨ ¬ vFits (insRs2 w) (codeBytes code x.vl) then .trap c causeIllegal
    else if 8 ≤ code then .ok { c with freeCnt := c.freeCnt + 1 } ((x.vbytes (insRd w) (c.freeBytes (4 * x.vl))).past 4)
    else
      let vs := (List.range x.vl).map fun i => toFp32 (codeValue code (unpack code (fun q => x.vget (insRs2 w) 8 q) i))
      .ok c ({ vs.zipIdx.foldl (fun (y : Core) (e : Nat × Nat) => y.vset (insRd w) 32 e.2 e.1) x with vstart := 0 }.past 4))

/-- GC_VCVT_MXN (R60, R117): 32 FP32 elements into one MX block; the scale byte goes to `gcmxs`. -/
def execGcVcvtMxn (b : Fin 32) (k : Fin 60) (s : State) (o : StoreObs 0x210000 := .clean) : Host.Outcome State Fault Refusal :=
  s.go (s.chip.gc b k o (isGc · 6 2) fun c w x m =>
    let cvt := x.xr (insRs1 w) % 256
    let code := cvtFmt cvt
    if ¬ x.mxReady ∨ ¬ vFits (insRs2 w) 128 ∨ ¬ vFits (insRd w) (codeBytes code 32) then .trap c causeIllegal
    else if ¬ codeMx code then
      .ok { c with freeCnt := c.freeCnt + 1 }
        ({ x.vbytes (insRd w) (c.freeBytes (codeBytes code 32)) with gcmxs := (Config.freeByte c.freeCnt 1024).toNat }.past 4)
    else
      let vs := (List.range 32).map fun i => fp32.decode (x.vget (insRs2 w) 32 i)
      let (scale, es, ovf) := mxConvert code (fun i => cvtRm cvt m.srAllowed (Config.freeValue (c.freeCnt + i)).toNat) vs
      let c : Chip := { c with freeCnt := c.freeCnt + 32 }
      let y := x.vbytes (insRd w) (packElems code es)
      .ok ((c.saturated b (b2n ovf)).clampCmd m.id ovf) ({ y with gcmxs := scale, gcclamp := (y.gcclamp + b2n ovf) % 2 ^ 64, vstart := 0 }.past 4))

/-- GC_VCVT_MXW (R53, R58, R61, R117): one MX block decoded, with the scale in `gcmxs`, into 32 FP32 elements. A finite element
beyond FP32 overflows and is counted; rs1 is read as the CVT byte that the other conversions have there, whose `SAT` and `RND`
choose the value. DESIGN CHOICE, unsafe: log 145. -/
def execGcVcvtMxw (b : Fin 32) (k : Fin 60) (s : State) (o : StoreObs 0x210000 := .clean) : Host.Outcome State Fault Refusal :=
  s.go (s.chip.gc b k o (isGc · 6 3) fun c w x m =>
    let cvt := x.xr (insRs1 w) % 256
    let code := cvtFmt cvt
    if ¬ x.mxReady ∨ ¬ vFits (insRd w) 128 ∨ ¬ vFits (insRs2 w) (codeBytes code 32) then .trap c causeIllegal
    else if ¬ codeMx code then .ok { c with freeCnt := c.freeCnt + 1 } ((x.vbytes (insRd w) (c.freeBytes 128)).past 4)
    else
      let r := (List.range 32).map fun i =>
        convert 6 (cvtSat cvt) (cvtRm cvt false 0) (mxValue code (x.gcmxs % 256) (unpack code (fun q => x.vget (insRs2 w) 8 q) i))
      let sat := (r.filter (·.2)).length
      let y := (r.map (·.1)).zipIdx.foldl (fun (y : Core) (e : Nat × Nat) => y.vset (insRd w) 32 e.2 e.1) x
      .ok ((c.saturated b sat).clampCmd m.id (decide (0 < sat))) ({ y with gcclamp := (y.gcclamp + sat) % 2 ^ 64, vstart := 0 }.past 4))

/-! ### Core tests (R129) -/

/-- CORE_TEST (R129): a physical core of a bench runs its built-in test, at start or between tasks; one that fails is
retired. -/
def execCoreTest (b : Fin 32) (p : Fin 64) (ok : Bool) (s : State) : Host.Outcome State Fault Refusal :=
  let c := s.chip
  let h := benchHalf b
  let due := c.on (F.BENCH_CTL_TEST_EN b) || decide (c.q (F.SYS_START_PHASE h.idx) < 7)
  if ok ∨ ¬ due ∨ c.down.get h ∨ ¬ c.unitOn (8 + b) ∨ (c.bench b).task.isSome ∨ (c.bench b).retired.contains p.val ∨
      c.on (F.BENCH_STATUS_RETIRED b) then s.go c
  else s.go (c.retireCore b p)

end Sys2Proof.Machine
end

