-- ==== Sys2Proof/Machine/GougeInt.lean ====
section
/-! DEFINITION. The integer instructions of the gouge cores: RV64IMAC with Zicsr, Zifencei and Zicntr, and the expansion of
compressed words (R112, R113, R116). -/

namespace Sys2Proof.Machine

/-! ### Fields and arithmetic -/

/-- A `w`-bit value sign-extended to 64 bits. -/
def sx (w v : Nat) : Nat := unsgn 64 (sgn w v)
/-- 64-bit sums and differences. -/
def add64 (a b : Nat) : Nat := (a + b) % 2 ^ 64
def sub64 (a b : Nat) : Nat := (a + 2 ^ 64 - b % 2 ^ 64) % 2 ^ 64

/-- Immediates of the base formats, sign-extended. -/
def immI (w : Nat) : Nat := sx 12 (bits w 20 12)
def immS (w : Nat) : Nat := sx 12 (bits w 7 5 + bits w 25 7 * 2 ^ 5)
def immB (w : Nat) : Nat := sx 13 (bits w 8 4 * 2 + bits w 25 6 * 2 ^ 5 + bits w 7 1 * 2 ^ 11 + bits w 31 1 * 2 ^ 12)
def immU (w : Nat) : Nat := sx 32 (bits w 12 20 * 2 ^ 12)
def immJ (w : Nat) : Nat := sx 21 (bits w 21 10 * 2 + bits w 20 1 * 2 ^ 11 + bits w 12 8 * 2 ^ 12 + bits w 31 1 * 2 ^ 20)

/-- Signed quotient and remainder of `w`-bit values as the M extension has them: by zero −1 and the dividend; the overflow
gives the dividend and 0. -/
def divS (w a b : Nat) : Nat := if sgn w b = 0 then 2 ^ w - 1 else unsgn w (Int.tdiv (sgn w a) (sgn w b))
def remS (w a b : Nat) : Nat := if sgn w b = 0 then a % 2 ^ w else unsgn w (Int.tmod (sgn w a) (sgn w b))
/-- Unsigned quotient and remainder. -/
def divU (w a b : Nat) : Nat := if b % 2 ^ w = 0 then 2 ^ w - 1 else a % 2 ^ w / (b % 2 ^ w)
def remU (w a b : Nat) : Nat := if b % 2 ^ w = 0 then a % 2 ^ w else a % 2 ^ w % (b % 2 ^ w)

/-- The upper half of a product of `w`-bit values, each read as signed where its flag says so. -/
def mulHigh (w : Nat) (sa sb : Bool) (a b : Nat) : Nat :=
  let rd (s : Bool) (v : Nat) : Int := if s then sgn w v else (v % 2 ^ w : Nat)
  unsgn w ((rd sa a * rd sb b) / 2 ^ w)

/-- An arithmetic right shift of a `w`-bit value. -/
def sar (w a n : Nat) : Nat := unsgn w (sgn w a / 2 ^ n)

/-- The register-register and register-immediate operations that the base names by funct3 (and `alt`, funct7 bit 30), on
64 bits. -/
def alu64 (f3 : Nat) (alt : Bool) (a b : Nat) : Nat :=
  match f3 with
  | 0 => if alt then sub64 a b else add64 a b
  | 1 => a * 2 ^ (b % 64) % 2 ^ 64
  | 2 => b2n (decide (sgn 64 a < sgn 64 b))
  | 3 => b2n (decide (a < b))
  | 4 => Nat.xor a b
  | 5 => if alt then sar 64 a (b % 64) else a / 2 ^ (b % 64)
  | 6 => Nat.lor a b
  | _ => Nat.land a b

/-- The same on 32 bits, the result sign-extended. -/
def alu32 (f3 : Nat) (alt : Bool) (a b : Nat) : Option Nat :=
  match f3 with
  | 0 => some (sx 32 (if alt then sub64 a b else add64 a b))
  | 1 => some (sx 32 (a * 2 ^ (b % 32)))
  | 5 => some (sx 32 (if alt then sar 32 a (b % 32) else a % 2 ^ 32 / 2 ^ (b % 32)))
  | _ => none

/-- The M extension's operations by funct3, on `w` bits. -/
def mulDiv (w f3 a b : Nat) : Nat :=
  match f3 with
  | 0 => a * b % 2 ^ w
  | 1 => mulHigh w true true a b
  | 2 => mulHigh w true false a b
  | 3 => mulHigh w false false a b
  | 4 => divS w a b
  | 5 => divU w a b
  | 6 => remS w a b
  | _ => remU w a b

/-! ### Loads, stores, AMOs (R114, R115, R121) -/

/-- A load of `n` bytes of a core: the chip, the core, the value; none is an access fault. Bytes of a copy in flight read as
a free value (R121). -/
def Chip.coreLoad (c : Chip) (x : Core) (b k a n : Nat) : Option (Chip × Core × Nat) :=
  (localAddr b k a n).map fun p =>
    let (c, x, wild) := c.crossing x b k p n
    if wild then
      let (v, c) := c.draw
      (c, x, v % 2 ^ (8 * n))
    else (c, x, c.loadN p n)

/-- A store of the low `n` bytes of a value of a core. -/
def Chip.coreStore (c : Chip) (x : Core) (b k a n v : Nat) : Option (Chip × Core) :=
  (localAddr b k a n).map fun p =>
    let (c, x, wild) := c.crossing x b k p n
    ({ c with freeCnt := c.freeCnt + b2n wild }.store p (if wild then c.freeBytes n else toLE n v), x)

/-- An integer load (opcode 0x03). -/
def Chip.exLoad (c : Chip) (x : Core) (b k w len : Nat) : Ran :=
  let f3 := insF3 w
  if f3 = 7 then .trap c causeIllegal
  else
    let n := 2 ^ (f3 % 4)
    match c.coreLoad x b k (add64 (x.xr (insRs1 w)) (immI w)) n with
    | none => .trap c causeLoadFault
    | some (c, x, v) => .ok c ((x.xw (insRd w) (if f3 < 4 then sx (8 * n) v else v)).past len)

/-- An integer store (opcode 0x23). -/
def Chip.exStore (c : Chip) (x : Core) (b k w len : Nat) : Ran :=
  let f3 := insF3 w
  if 3 < f3 then .trap c causeIllegal
  else match c.coreStore x b k (add64 (x.xr (insRs1 w)) (immS w)) (2 ^ f3) (x.xr (insRs2 w)) with
    | none => .trap c causeStoreFault
    | some (c, x) => .ok c (x.past len)

/-- The value that an AMO stores, by funct5, on `w` bits. -/
def amoOp (f5 w m v : Nat) : Option Nat :=
  let (m, v) := (m % 2 ^ w, v % 2 ^ w)
  match f5 with
  | 0 => some ((m + v) % 2 ^ w)
  | 1 => some v
  | 4 => some (Nat.xor m v)
  | 8 => some (Nat.lor m v)
  | 12 => some (Nat.land m v)
  | 16 => some (if sgn w m < sgn w v then m else v)
  | 20 => some (if sgn w m < sgn w v then v else m)
  | 24 => some (min m v)
  | 28 => some (max m v)
  | _ => none

/-- The A extension (opcode 0x2F): a misaligned address is an address-misaligned exception; a store-conditional succeeds
while the reservation on its bytes stands. -/
def Chip.exAmo (c : Chip) (x : Core) (b k w len : Nat) : Ran :=
  let f3 := insF3 w
  let f5 := bits w 27 5
  let n := 2 ^ f3
  let a := x.xr (insRs1 w)
  if f3 ≠ 2 ∧ f3 ≠ 3 then .trap c causeIllegal
  else if f5 = 2 then
    if insRs2 w ≠ 0 then .trap c causeIllegal
    else if a % n ≠ 0 then .trap c causeLoadAlign
    else match localAddr b k a n, c.coreLoad x b k a n with
      | some p, some (c, x, v) => .ok c ({ x.xw (insRd w) (sx (8 * n) v) with resv := some (p, n) }.past len)
      | _, _ => .trap c causeLoadFault
  else if f5 = 3 then
    if a % n ≠ 0 then .trap c causeStoreAlign
    else match localAddr b k a n with
      | none => .trap c causeStoreFault
      | some p =>
        if x.resv = some (p, n) then
          match c.coreStore x b k a n (x.xr (insRs2 w)) with
          | some (c, x) => .ok c ({ x.xw (insRd w) 0 with resv := none }.past len)
          | none => .trap c causeStoreFault
        else .ok c ({ x.xw (insRd w) 1 with resv := none }.past len)
  else match amoOp f5 (8 * n) 0 0 with
    | none => .trap c causeIllegal
    | some _ =>
      if a % n ≠ 0 then .trap c causeStoreAlign
      else match c.coreLoad x b k a n with
        | none => .trap c causeStoreFault
        | some (c, y, v) =>
          match c.coreStore y b k a n ((amoOp f5 (8 * n) v (x.xr (insRs2 w))).getD 0) with
          | some (c, y) => .ok c ((y.xw (insRd w) (sx (8 * n) v)).past len)
          | none => .trap c causeStoreFault

/-! ### Control and status registers -/

/-- A user CSR read: the chip, its value, the core. `cycle` counts on by a free amount, its rate being timing; `time` reads
the half's local monotonic base in nanoseconds (R116). -/
def Chip.csrRead (c : Chip) (x : Core) (b csr : Nat) : Option (Chip × Nat × Core) :=
  match csr with
  | 0x001 => some (c, x.fcsr % 32, x)
  | 0x002 => some (c, bits x.fcsr 5 3, x)
  | 0x003 => some (c, x.fcsr % 256, x)
  | 0x008 => some (c, x.vstart, x)
  | 0x009 => some (c, x.vcsr % 2, x)
  | 0x00A => some (c, bits x.vcsr 1 2, x)
  | 0x00F => some (c, x.vcsr % 8, x)
  | 0x800 => some (c, x.gcmxs, x)
  | 0xC00 =>
    let (n, c) := c.draw
    let v := (x.cycle + n % 2 ^ 32 + 1) % 2 ^ 64
    some (c, v, { x with cycle := v })
  | 0xC01 => some (c, c.stamp (benchHalf b) 0 / 64 % 2 ^ 64, x)
  | 0xC02 => some (c, x.instret, x)
  | 0xC20 => some (c, x.vl, x)
  | 0xC21 => some (c, x.vtype, x)
  | 0xC22 => some (c, 32, x)
  | 0xCC0 => some (c, x.gcclamp, x)
  | _ => none

/-- The core after a user CSR is written; a read-only one is not. -/
def Core.csrWrite (x : Core) (csr v : Nat) : Option Core :=
  match csr with
  | 0x001 => some { x with fcsr := x.fcsr / 32 * 32 + v % 32 }
  | 0x002 => some { x with fcsr := x.fcsr % 32 + v % 8 * 32 }
  | 0x003 => some { x with fcsr := v % 256 }
  | 0x008 => some { x with vstart := v % 256 }
  | 0x009 => some { x with vcsr := x.vcsr / 2 * 2 + v % 2 }
  | 0x00A => some { x with vcsr := x.vcsr % 2 + v % 4 * 2 }
  | 0x00F => some { x with vcsr := v % 8 }
  | 0x800 => some { x with gcmxs := v % 256 }
  | _ => none

/-- The CSR instructions. -/
def Chip.exCsr (c : Chip) (x : Core) (b w len : Nat) : Ran :=
  let f3 := insF3 w
  let csr := bits w 20 12
  let src := if f3 < 4 then x.xr (insRs1 w) else insRs1 w
  let writes := f3 % 4 == 1 || insRs1 w != 0
  if f3 % 4 = 0 then .trap c causeIllegal
  else match c.csrRead x b csr with
    | none => .trap c causeIllegal
    | some (c', old, y) =>
      if ¬ writes then .ok c' ((y.xw (insRd w) old).past len)
      else
        let v := match f3 % 4 with
          | 1 => src
          | 2 => Nat.lor old src
          | _ => old - Nat.land old src
        match y.csrWrite csr v with
        | none => .trap c causeIllegal
        | some y => .ok c' ((y.xw (insRd w) old).past len)

/-! ### The base -/

/-- A core after a jump, its link written. -/
def Core.jump (x : Core) (rd link target : Nat) : Core :=
  { x.xw rd link with pc := target, instret := (x.instret + 1) % 2 ^ 64 }

/-- A branch condition by funct3. -/
def branches (f3 a b : Nat) : Option Bool :=
  match f3 with
  | 0 => some (a == b)
  | 1 => some (a != b)
  | 4 => some (decide (sgn 64 a < sgn 64 b))
  | 5 => some (decide (¬ sgn 64 a < sgn 64 b))
  | 6 => some (decide (a < b))
  | 7 => some (decide (¬ a < b))
  | _ => none

/-- Register-register operations on 64 or 32 bits (opcodes 0x33, 0x3B). -/
def exOp (wide : Bool) (w a b : Nat) : Option Nat :=
  let f3 := insF3 w
  match insF7 w with
  | 0 => if wide then some (alu64 f3 false a b) else alu32 f3 false a b
  | 0x20 => if f3 = 0 ∨ f3 = 5 then (if wide then some (alu64 f3 true a b) else alu32 f3 true a b) else none
  | 1 => if wide then some (mulDiv 64 f3 a b) else if f3 = 0 ∨ 4 ≤ f3 then some (sx 32 (mulDiv 32 f3 a b)) else none
  | _ => none

/-- Register-immediate operations (opcodes 0x13, 0x1B). -/
def exOpImm (wide : Bool) (w a : Nat) : Option Nat :=
  let f3 := insF3 w
  if f3 = 1 ∨ f3 = 5 then
    let alt := bit w 30
    let rest := if wide then bits w 26 6 else bits w 25 7
    let known := rest == 0 || (f3 == 5 && rest == (if wide then 0x10 else 0x20))
    if ¬ known then none
    else if wide then some (alu64 f3 alt a (bits w 20 6)) else alu32 f3 alt a (bits w 20 5)
  else if wide then some (alu64 f3 false a (immI w))
  else if f3 = 0 then alu32 0 false a (immI w) else none

/-- One integer instruction of a core; none where the opcode is not of the integer base. -/
def Chip.exInt (c : Chip) (x : Core) (b k w len : Nat) : Option Ran :=
  let rd := insRd w
  let a := x.xr (insRs1 w)
  let set (v : Option Nat) : Ran := match v with
    | some v => .ok c ((x.xw rd v).past len)
    | none => .trap c causeIllegal
  match w % 128 with
  | 0x37 => some (set (some (immU w)))
  | 0x17 => some (set (some (add64 x.pc (immU w))))
  | 0x6F => some (.ok c (x.jump rd (add64 x.pc len) (add64 x.pc (immJ w))))
  | 0x67 => some (if insF3 w ≠ 0 then .trap c causeIllegal
      else .ok c (x.jump rd (add64 x.pc len) (add64 a (immI w) / 2 * 2)))
  | 0x63 => some (match branches (insF3 w) a (x.xr (insRs2 w)) with
      | none => .trap c causeIllegal
      | some t => if t then .ok c (x.jump 0 0 (add64 x.pc (immB w))) else .ok c (x.past len))
  | 0x03 => some (c.exLoad x b k w len)
  | 0x23 => some (c.exStore x b k w len)
  | 0x13 => some (set (exOpImm true w a))
  | 0x1B => some (set (exOpImm false w a))
  | 0x33 => some (set (exOp true w a (x.xr (insRs2 w))))
  | 0x3B => some (set (exOp false w a (x.xr (insRs2 w))))
  | 0x0F => some (if insF3 w < 2 then .ok c (x.past len) else .trap c causeIllegal)
  | 0x2F => some (c.exAmo x b k w len)
  | 0x73 => some (
      if w = 0x00000073 then .trap c causeEcall
      else if w = 0x00100073 then .trap c causeBreak
      else if w = 0x10500073 then .ok c (x.past len)
      else c.exCsr x b w len)
  | _ => none

/-! ### Compressed words -/

/-- Words of the base formats from their fields. -/
def encI (op f3 rd rs1 imm : Nat) : Nat := op + rd * 2 ^ 7 + f3 * 2 ^ 12 + rs1 * 2 ^ 15 + imm % 2 ^ 12 * 2 ^ 20
def encS (op f3 rs1 rs2 imm : Nat) : Nat :=
  op + imm % 32 * 2 ^ 7 + f3 * 2 ^ 12 + rs1 * 2 ^ 15 + rs2 * 2 ^ 20 + bits imm 5 7 * 2 ^ 25
def encR (op f3 f7 rd rs1 rs2 : Nat) : Nat := op + rd * 2 ^ 7 + f3 * 2 ^ 12 + rs1 * 2 ^ 15 + rs2 * 2 ^ 20 + f7 * 2 ^ 25
def encB (f3 rs1 imm : Nat) : Nat :=
  0x63 + bits imm 11 1 * 2 ^ 7 + bits imm 1 4 * 2 ^ 8 + f3 * 2 ^ 12 + rs1 * 2 ^ 15 + bits imm 5 6 * 2 ^ 25 + bits imm 12 1 * 2 ^ 31
def encJ (rd imm : Nat) : Nat :=
  0x6F + rd * 2 ^ 7 + bits imm 12 8 * 2 ^ 12 + bits imm 11 1 * 2 ^ 20 + bits imm 1 10 * 2 ^ 21 + bits imm 20 1 * 2 ^ 31

/-- Immediates of the compressed formats. -/
def cImm6 (w : Nat) : Nat := sx 6 (bits w 2 5 + bits w 12 1 * 32)
def cImmW (w : Nat) : Nat := bits w 10 3 * 8 + bits w 6 1 * 4 + bits w 5 1 * 64
def cImmD (w : Nat) : Nat := bits w 10 3 * 8 + bits w 5 2 * 64
def cSpW (w : Nat) : Nat := bits w 12 1 * 32 + bits w 4 3 * 4 + bits w 2 2 * 64
def cSpD (w : Nat) : Nat := bits w 12 1 * 32 + bits w 5 2 * 8 + bits w 2 3 * 64
def cImm16 (w : Nat) : Nat :=
  sx 10 (bits w 12 1 * 2 ^ 9 + bits w 6 1 * 2 ^ 4 + bits w 5 1 * 2 ^ 6 + bits w 3 2 * 2 ^ 7 + bits w 2 1 * 2 ^ 5)
def cImmJ (w : Nat) : Nat :=
  sx 12 (bits w 12 1 * 2 ^ 11 + bits w 11 1 * 2 ^ 4 + bits w 9 2 * 2 ^ 8 + bits w 8 1 * 2 ^ 10 + bits w 7 1 * 2 ^ 6 +
    bits w 6 1 * 2 ^ 7 + bits w 3 3 * 2 + bits w 2 1 * 2 ^ 5)
def cImmB (w : Nat) : Nat :=
  sx 9 (bits w 12 1 * 2 ^ 8 + bits w 10 2 * 2 ^ 3 + bits w 5 2 * 2 ^ 6 + bits w 3 2 * 2 + bits w 2 1 * 2 ^ 5)

/-- Compressed words of quadrant 0. -/
def expandC0 (w : Nat) : Option Nat :=
  let (rd, rs) := (8 + bits w 2 3, 8 + bits w 7 3)
  match bits w 13 3 with
  | 0 =>
    let imm := bits w 11 2 * 16 + bits w 7 4 * 64 + bits w 6 1 * 4 + bits w 5 1 * 8
    if imm = 0 then none else some (encI 0x13 0 rd 2 imm)
  | 1 => some (encI 0x07 3 rd rs (cImmD w))
  | 2 => some (encI 0x03 2 rd rs (cImmW w))
  | 3 => some (encI 0x03 3 rd rs (cImmD w))
  | 5 => some (encS 0x27 3 rs rd (cImmD w))
  | 6 => some (encS 0x23 2 rs rd (cImmW w))
  | 7 => some (encS 0x23 3 rs rd (cImmD w))
  | _ => none

/-- Compressed words of quadrant 1. -/
def expandC1 (w : Nat) : Option Nat :=
  let rd := bits w 7 5
  let rs := 8 + bits w 7 3
  let rt := 8 + bits w 2 3
  let sh := bits w 2 5 + bits w 12 1 * 32
  match bits w 13 3 with
  | 0 => some (encI 0x13 0 rd rd (cImm6 w))
  | 1 => if rd = 0 then none else some (encI 0x1B 0 rd rd (cImm6 w))
  | 2 => some (encI 0x13 0 rd 0 (cImm6 w))
  | 3 =>
    if sh = 0 then none
    else if rd = 2 then some (encI 0x13 0 2 2 (cImm16 w))
    else some (0x37 + rd * 2 ^ 7 + cImm6 w % 2 ^ 20 * 2 ^ 12)
  | 4 =>
    match bits w 10 2 with
    | 0 => some (encI 0x13 5 rs rs sh)
    | 1 => some (encI 0x13 5 rs rs (sh + 0x400))
    | 2 => some (encI 0x13 7 rs rs (cImm6 w))
    | _ =>
      match bits w 12 1, bits w 5 2 with
      | 0, 0 => some (encR 0x33 0 0x20 rs rs rt)
      | 0, 1 => some (encR 0x33 4 0 rs rs rt)
      | 0, 2 => some (encR 0x33 6 0 rs rs rt)
      | 0, _ => some (encR 0x33 7 0 rs rs rt)
      | _, 0 => some (encR 0x3B 0 0x20 rs rs rt)
      | _, 1 => some (encR 0x3B 0 0 rs rs rt)
      | _, _ => none
  | 5 => some (encJ 0 (cImmJ w))
  | 6 => some (encB 0 rs (cImmB w))
  | _ => some (encB 1 rs (cImmB w))

/-- Compressed words of quadrant 2. -/
def expandC2 (w : Nat) : Option Nat :=
  let rd := bits w 7 5
  let rs2 := bits w 2 5
  let stD := bits w 10 3 * 8 + bits w 7 3 * 64
  match bits w 13 3 with
  | 0 => some (encI 0x13 1 rd rd (bits w 2 5 + bits w 12 1 * 32))
  | 1 => some (encI 0x07 3 rd 2 (cSpD w))
  | 2 => if rd = 0 then none else some (encI 0x03 2 rd 2 (cSpW w))
  | 3 => if rd = 0 then none else some (encI 0x03 3 rd 2 (cSpD w))
  | 4 =>
    if bits w 12 1 = 0 then
      if rs2 = 0 then (if rd = 0 then none else some (encI 0x67 0 0 rd 0)) else some (encR 0x33 0 0 rd 0 rs2)
    else if rs2 = 0 then (if rd = 0 then some 0x00100073 else some (encI 0x67 0 1 rd 0))
    else some (encR 0x33 0 0 rd rd rs2)
  | 5 => some (encS 0x27 3 2 rs2 stD)
  | 6 => some (encS 0x23 2 2 rs2 (bits w 9 4 * 4 + bits w 7 2 * 64))
  | _ => some (encS 0x23 3 2 rs2 stD)

/-- The instruction of 32 bits that a compressed word stands for; none where it is reserved. -/
def expandC (w : Nat) : Option Nat :=
  match w % 4 with
  | 0 => expandC0 w
  | 1 => expandC1 w
  | 2 => expandC2 w
  | _ => some w

end Sys2Proof.Machine
end

