-- ==== Sys2Proof/Machine/GougeFp.lean ====
section
/-! DEFINITION. The scalar floating-point instructions of the gouge cores: F, D and Zfhmin (R46, R112). -/

namespace Sys2Proof.Machine

/-! ### Flags and roundings -/

/-- `fflags`: invalid, divide by zero, overflow, underflow, inexact. -/
def flNV : Nat := 16
def flDZ : Nat := 8
def flOF : Nat := 4
def flUF : Nat := 2
def flNX : Nat := 1

/-- A value and the flags that computing it raises. -/
abbrev Flagged := Nat × Nat

/-- The rounding mode of a code, none where it is reserved. -/
def rmOf (n : Nat) : Option Rm :=
  match n with
  | 0 => some .rne
  | 1 => some .rtz
  | 2 => some .rdn
  | 3 => some .rup
  | 4 => some .rna
  | _ => none

/-- The rounding mode of an instruction: its own, or `frm`. -/
def Core.rm (x : Core) (n : Nat) : Option Rm := rmOf (if n = 7 then bits x.fcsr 5 3 else n)

/-- The core with flags accrued. -/
def Core.flag (x : Core) (n : Nat) : Core := { x with fcsr := Nat.lor x.fcsr (n % 32) }

/-- A pattern is a NaN, a signalling NaN. -/
def Fmt.isNan (f : Fmt) (v : Nat) : Bool := f.decode v == .nan
def Fmt.isSnan (f : Fmt) (v : Nat) : Bool := f.isNan v && !bit v (f.mbits - 1)

/-- An exact value rounded, with its flags. -/
def Fmt.fin (f : Fmt) (rm : Rm) (v : FV) : Flagged :=
  let r := f.roundIeee rm v
  (r.pat, (if r.ovf then flOF + flNX else 0) + (if ¬ r.ovf ∧ r.inexact then flNX else 0) + (if r.tiny ∧ r.inexact then flUF else 0))

/-- Invalid where an operand is a signalling NaN. -/
def Fmt.sn (f : Fmt) (l : List Nat) : Nat := if l.any f.isSnan then flNV else 0

/-- The result of an operation on patterns: `v` exact; a NaN that no operand is makes it invalid. -/
def Fmt.res (f : Fmt) (rm : Rm) (l : List Nat) (v : FV) : Flagged :=
  if v = .nan then (f.canonNan, if l.any f.isNan then f.sn l else flNV) else f.fin rm v

/-- Sum, product, quotient, square root, and fused product-sum of patterns. -/
def Fmt.add (f : Fmt) (rm : Rm) (a b : Nat) : Flagged := f.res rm [a, b] (FV.addD (rm == .rdn) (f.decode a) (f.decode b))
def Fmt.mul (f : Fmt) (rm : Rm) (a b : Nat) : Flagged := f.res rm [a, b] ((f.decode a).mul (f.decode b))
def Fmt.div (f : Fmt) (rm : Rm) (a b : Nat) : Flagged :=
  let (x, y) := (f.decode a, f.decode b)
  let r := f.res rm [a, b] (x.div y)
  if y.isZero ∧ ¬ x.isZero ∧ ¬ x.isNan ∧ ¬ x.isInf then (r.1, flDZ) else r
def Fmt.sqrt (f : Fmt) (rm : Rm) (a : Nat) : Flagged := f.res rm [a] (f.decode a).sqrt
def Fmt.fma (f : Fmt) (rm : Rm) (a b d : Nat) : Flagged :=
  let p := (f.decode a).mul (f.decode b)
  let r := f.res rm [a, b, d] (FV.addD (rm == .rdn) p (f.decode d))
  -- an infinity times zero is invalid even where the addend is a quiet NaN
  if p = .nan ∧ ¬ f.isNan a ∧ ¬ f.isNan b then (r.1, flNV) else r

/-- The pattern with its sign changed, set, or taken from a bit. -/
def Fmt.sign (f : Fmt) (v : Nat) : Bool := bit v (f.width - 1)
def Fmt.signed (f : Fmt) (neg : Bool) (v : Nat) : Nat := v % 2 ^ (f.width - 1) + 2 ^ (f.width - 1) * b2n neg
def Fmt.flip (f : Fmt) (v : Nat) : Nat := f.signed (!f.sign v) v

/-- Sign injection by funct3: copy, negate, exclusive-or. -/
def Fmt.inject (f : Fmt) (op a b : Nat) : Nat :=
  f.signed (match op with | 0 => f.sign b | 1 => !f.sign b | _ => f.sign a != f.sign b) a

/-- Minimum (or maximum) of patterns: a NaN gives way to a number, −0 lies below +0. -/
def Fmt.minmax (f : Fmt) (mx : Bool) (a b : Nat) : Flagged :=
  let fl := f.sn [a, b]
  if f.isNan a ∧ f.isNan b then (f.canonNan, fl)
  else if f.isNan a then (b, fl)
  else if f.isNan b then (a, fl)
  else
    let (x, y) := (f.decode a, f.decode b)
    let below := FV.lt x y || (FV.eq x y && f.sign a)
    (if below != mx then a else b, fl)

/-- Comparisons: equal (quiet), less, at most (signalling). -/
def Fmt.feq (f : Fmt) (a b : Nat) : Flagged := (b2n (FV.eq (f.decode a) (f.decode b)), f.sn [a, b])
def Fmt.flt (f : Fmt) (a b : Nat) : Flagged :=
  (b2n (FV.lt (f.decode a) (f.decode b)), if f.isNan a ∨ f.isNan b then flNV else 0)
def Fmt.fle (f : Fmt) (a b : Nat) : Flagged :=
  (b2n (FV.le (f.decode a) (f.decode b)), if f.isNan a ∨ f.isNan b then flNV else 0)

/-- The class mask. -/
def Fmt.classify (f : Fmt) (v : Nat) : Nat :=
  let s := f.sign v
  let e := bits v f.mbits f.ebits
  match f.decode v with
  | .nan => if f.isSnan v then 2 ^ 8 else 2 ^ 9
  | .inf _ => if s then 1 else 2 ^ 7
  | .fin _ m _ =>
    if m = 0 then (if s then 2 ^ 3 else 2 ^ 4)
    else if e = 0 then (if s then 2 ^ 2 else 2 ^ 5)
    else if s then 2 ^ 1 else 2 ^ 6

/-- A pattern converted to an integer of `w` bits: out of range it saturates and is invalid; a NaN gives the largest. -/
def Fmt.toInteger (f : Fmt) (rm : Rm) (signed : Bool) (w v : Nat) : Flagged :=
  let lo : Int := if signed then -(2 ^ (w - 1)) else 0
  let hi : Int := if signed then 2 ^ (w - 1) - 1 else 2 ^ w - 1
  match f.decode v with
  | .nan => (unsgn w hi, flNV)
  | .inf s => (unsgn w (if s then lo else hi), flNV)
  | .fin s m e =>
    let (k, inexact) := roundAt rm s m e 0
    let i : Int := if s then -(k : Int) else k
    if i < lo then (unsgn w lo, flNV) else if hi < i then (unsgn w hi, flNV) else (unsgn w i, if inexact then flNX else 0)

/-- An integer of `w` bits converted to a format. -/
def Fmt.ofInteger (f : Fmt) (rm : Rm) (signed : Bool) (w v : Nat) : Flagged :=
  f.fin rm (FV.ofInt (if signed then sgn w v else (v % 2 ^ w : Nat)))

/-- A pattern of a format converted to another. -/
def Fmt.convert (f g : Fmt) (rm : Rm) (v : Nat) : Flagged :=
  if f.isNan v then (g.canonNan, f.sn [v]) else g.fin rm (f.decode v)

/-! ### Registers -/

/-- A floating-point register. -/
def Core.fr (x : Core) (i : Nat) : Nat := (Tbl.look 0 x.f i).toNat

/-- The operand of a format in a register: a value that is not NaN-boxed reads as the canonical NaN. -/
def Core.fget (x : Core) (f : Fmt) (i : Nat) : Nat :=
  let v := x.fr i
  if v / 2 ^ f.width = 2 ^ (64 - f.width) - 1 then v % 2 ^ f.width else f.canonNan

/-- The core with a register written, NaN-boxed. -/
def Core.fset (x : Core) (f : Fmt) (i v : Nat) : Core :=
  { x with f := Tbl.put 0 x.f i (BitVec.ofNat 64 (v % 2 ^ f.width + (2 ^ 64 - 2 ^ f.width))) }

/-- The format of a `fmt` field. -/
def fmtOf (n : Nat) : Option Fmt :=
  match n with
  | 0 => some fp32
  | 1 => some fp64
  | 2 => some fp16
  | _ => none

/-! ### Instructions -/

/-- A floating-point load; the vector ones have other widths. -/
def Chip.exFLoad (c : Chip) (x : Core) (b k w len : Nat) : Option Ran :=
  let fmt := match insF3 w with
    | 1 => some fp16
    | 2 => some fp32
    | 3 => some fp64
    | _ => none
  fmt.map fun f => match c.coreLoad x b k (add64 (x.xr (insRs1 w)) (immI w)) (f.width / 8) with
    | none => .trap c causeLoadFault
    | some (c, x, v) => .ok c ((x.fset f (insRd w) v).past len)

/-- A floating-point store. -/
def Chip.exFStore (c : Chip) (x : Core) (b k w len : Nat) : Option Ran :=
  let n := match insF3 w with
    | 1 => some 2
    | 2 => some 4
    | 3 => some 8
    | _ => none
  n.map fun n => match c.coreStore x b k (add64 (x.xr (insRs1 w)) (immS w)) n (x.fr (insRs2 w)) with
    | none => .trap c causeStoreFault
    | some (c, x) => .ok c (x.past len)

/-- The four fused instructions (opcodes 0x43, 0x47, 0x4B, 0x4F). -/
def Chip.exFma (c : Chip) (x : Core) (w len : Nat) : Ran :=
  match fmtOf (bits w 25 2), x.rm (insF3 w) with
  | some f, some rm =>
    if f = fp16 then .trap c causeIllegal
    else
      let (a, b, d) := (x.fget f (insRs1 w), x.fget f (insRs2 w), x.fget f (bits w 27 5))
      let op := bits w 2 2
      let r := f.fma rm (if 2 ≤ op then f.flip a else a) b (if op = 1 ∨ op = 3 then f.flip d else d)
      .ok c (((x.fset f (insRd w) r.1).flag r.2).past len)
  | _, _ => .trap c causeIllegal

/-- Conversions between a format and an integer register: 0 W, 1 WU, 2 L, 3 LU. -/
def intWidth (n : Nat) : Nat := if n < 2 then 32 else 64

/-- The operations on one or two operands (opcode 0x53) whose result is of the format. -/
def Core.fpArith (x : Core) (f : Fmt) (w : Nat) : Option Flagged :=
  let (a, b) := (x.fget f (insRs1 w), x.fget f (insRs2 w))
  let rm := x.rm (insF3 w)
  match bits w 27 5 with
  | 0 => rm.map fun m => f.add m a b
  | 1 => rm.map fun m => f.add m a (f.flip b)
  | 2 => rm.map fun m => f.mul m a b
  | 3 => rm.map fun m => f.div m a b
  | 0x0B => if insRs2 w = 0 then rm.map fun m => f.sqrt m a else none
  | 4 => if insF3 w < 3 then some (f.inject (insF3 w) a b, 0) else none
  | 5 => if insF3 w < 2 then some (f.minmax (insF3 w == 1) a b) else none
  | 0x1A => if insRs2 w < 4 then rm.map fun m => f.ofInteger m (insRs2 w % 2 == 0) (intWidth (insRs2 w)) (x.xr (insRs1 w)) else none
  | _ => none

/-- Those whose result goes to an integer register. -/
def Core.fpToInt (x : Core) (f : Fmt) (w : Nat) : Option Flagged :=
  let (a, b) := (x.fget f (insRs1 w), x.fget f (insRs2 w))
  match bits w 27 5 with
  | 0x14 => match insF3 w with
      | 0 => some (f.fle a b)
      | 1 => some (f.flt a b)
      | 2 => some (f.feq a b)
      | _ => none
  | 0x18 =>
    if 4 ≤ insRs2 w then none
    else (x.rm (insF3 w)).map fun m =>
      let n := intWidth (insRs2 w)
      let r := f.toInteger m (insRs2 w % 2 == 0) n a
      (sx n r.1, r.2)
  | 0x1C => if insRs2 w = 0 ∧ insF3 w = 1 then some (f.classify a, 0) else none
  | _ => none

/-- The moves and conversions that Zfhmin has beside F and D: fmv.x.f, fmv.f.x, fcvt.f.f. -/
def Core.fpMove (x : Core) (f : Fmt) (w : Nat) : Option Core :=
  match bits w 27 5 with
  | 0x1C => if insRs2 w = 0 ∧ insF3 w = 0 then some (x.xw (insRd w) (sx f.width (x.fr (insRs1 w) % 2 ^ f.width))) else none
  | 0x1E => if insRs2 w = 0 ∧ insF3 w = 0 then some (x.fset f (insRd w) (x.xr (insRs1 w))) else none
  | 0x08 =>
    match fmtOf (insRs2 w), x.rm (insF3 w) with
    | some g, some m => if g = f then none
        else let r := g.convert f m (x.fget g (insRs1 w)); some ((x.fset f (insRd w) r.1).flag r.2)
    | _, _ => none
  | _ => none

/-- One scalar floating-point instruction; none where the opcode is not one. -/
def Chip.exFp (c : Chip) (x : Core) (b k w len : Nat) : Option Ran :=
  match w % 128 with
  | 0x07 => c.exFLoad x b k w len
  | 0x27 => c.exFStore x b k w len
  | 0x43 | 0x47 | 0x4B | 0x4F => some (c.exFma x w len)
  | 0x53 => some (
      match fmtOf (bits w 25 2) with
      | none => .trap c causeIllegal
      | some f =>
        match x.fpMove f w with
        | some y => .ok c (y.past len)
        | none =>
          if f = fp16 then .trap c causeIllegal
          else match x.fpArith f w with
            | some r => .ok c (((x.fset f (insRd w) r.1).flag r.2).past len)
            | none => match x.fpToInt f w with
              | some r => .ok c (((x.xw (insRd w) r.1).flag r.2).past len)
              | none => .trap c causeIllegal)
  | _ => none

end Sys2Proof.Machine
end

