-- ==== Sys2Proof/Machine/GougeVec.lean ====
section
/-! DEFINITION. The vector instructions of the gouge cores on integers, masks and memory: the "V" extension 1.0 with
VLEN = 256 and ELEN = 64 (R112). What that specification reserves raises an illegal-instruction exception. -/

namespace Sys2Proof.Machine

/-! ### The configuration in `vtype` -/

/-- SEW in bits, and 8 × LMUL, of a `vtype`. -/
def vtSew (t : Nat) : Nat := 8 * 2 ^ bits t 3 3
def vtLmul (t : Nat) : Nat := let m := bits t 0 3; if m < 4 then 8 * 2 ^ m else 2 ^ (m - 5)
/-- A `vtype` is supported. -/
def vtOk (t : Nat) : Bool := decide (t < 256 ∧ bits t 0 3 ≠ 4 ∧ vtSew t ≤ 64 ∧ vtSew t ≤ 8 * vtLmul t)
/-- VLMAX of a `vtype`. -/
def vtMax (t : Nat) : Nat := 32 * vtLmul t / vtSew t

def Core.vill (x : Core) : Bool := !vtOk x.vtype
def Core.sew (x : Core) : Nat := vtSew x.vtype
def Core.lmul (x : Core) : Nat := vtLmul x.vtype
def Core.vta (x : Core) : Bool := bit x.vtype 6
def Core.vma (x : Core) : Bool := bit x.vtype 7

/-- 8 × EMUL of operands of `w` bits: none where it is not between 1/8 and 8. -/
def Core.emul (x : Core) (w : Nat) : Option Nat :=
  let n := w * x.lmul
  if x.sew ≤ n ∧ n ≤ 64 * x.sew then some (n / x.sew) else none

/-- Registers of a group. -/
def groupRegs (emul : Nat) : Nat := max 1 (emul / 8)

/-- A group of operands of `w` bits may start at a register. -/
def Core.groupOk (x : Core) (r w : Nat) : Bool :=
  match x.emul w with
  | some e => decide (r % groupRegs e = 0 ∧ r + groupRegs e ≤ 32)
  | none => false

/-- Registers of the group of operands of `w` bits. -/
def Core.regsOf (x : Core) (w : Nat) : Nat := groupRegs ((x.emul w).getD 8)

/-- Two ranges of registers share one. -/
def overlap (a n b m : Nat) : Bool := decide (a < b + m ∧ b < a + n)

/-- A destination of `dw`-bit elements may lie over a source of `sw`-bit elements: apart; the same group at one width; the
lowest part of a wider source; or a narrower source, of at least one register, in the highest part. -/
def Core.overOk (x : Core) (d dw s sw : Nat) : Bool :=
  let (n, m) := (x.regsOf dw, x.regsOf sw)
  !overlap d n s m || (if dw = sw then d == s else if dw < sw then d == s
    else decide (8 ≤ (x.emul sw).getD 0) && d + n == s + m)

/-- The mask admits element `i`. -/
def Core.active (x : Core) (vm : Bool) (i : Nat) : Bool := vm || x.vget 0 1 i == 1

/-- Fields of a vector word. -/
def vF6 (w : Nat) : Nat := bits w 26 6
def vVm (w : Nat) : Bool := bit w 25
def vImm (w : Nat) : Nat := insRs1 w
def vSimm (w : Nat) : Nat := sx 5 (insRs1 w)

/-- The next `vtype` and `vl` for a requested length; none of it is supported: `vill` (R112). -/
def newVl (t avl : Nat) : Nat :=
  let m := vtMax t
  if avl ≤ m then avl
  else if 2 * m ≤ avl then m
  else (avl + 1) / 2 + Config.vlChoice avl m % (m - (avl + 1) / 2 + 1)

/-- `vsetvli`, `vsetivli`, `vsetvl`. -/
def Chip.exVset (c : Chip) (x : Core) (w len : Nat) : Ran :=
  let rd := insRd w
  let rs1 := insRs1 w
  let set (t : Nat) (avl : Nat) (keep : Bool) : Ran :=
    let bad := !vtOk t || (keep && (x.vill || decide (vtMax t ≠ vtMax x.vtype)))
    if bad then .ok c ({ x.xw rd 0 with vtype := 2 ^ 63, vl := 0, vstart := 0 }.past len)
    else
      let n := if keep then x.vl else newVl t avl
      .ok c ({ x.xw rd n with vtype := t, vl := n, vstart := 0 }.past len)
  let avl := if rs1 = 0 then 2 ^ 64 - 1 else x.xr rs1
  if ¬ bit w 31 then set (bits w 20 11) avl (rs1 == 0 && rd == 0)
  else if bit w 30 then set (bits w 20 10) rs1 false
  else if bits w 25 6 = 0 then set (x.xr (insRs2 w)) avl (rs1 == 0 && rd == 0)
  else .trap c causeIllegal

/-! ### Writing a destination -/

/-- The value that an agnostic element takes: its own or all ones, as a draw has it. -/
def agnostic (draw i w old : Nat) : Nat := if (Config.freeByte draw i).toNat % 2 = 1 then 2 ^ w - 1 else old

/-- The core after elements of `w` bits of the group at `vd` are written: `f` gives each active body element; `n` elements
in the group's registers, the mask and the tail treated as `vm`, `vma`, `vta` say. -/
def Core.vwrite (x : Core) (draw vd w n vl : Nat) (vm vta : Bool) (f : Nat → Nat) : Core :=
  if vl ≤ x.vstart then x
  else (List.range n).foldl (fun (y : Core) i =>
    let old := x.vget vd w i
    if i < x.vstart then y
    else if i < vl then
      if x.active vm i then y.vset vd w i (f i) else if x.vma then y.vset vd w i (agnostic draw i w old) else y
    else if vta then y.vset vd w i (agnostic draw i w old) else y) x

/-- An instruction that writes a group of `w`-bit elements. -/
def Chip.vdone (c : Chip) (x : Core) (vd w : Nat) (vm : Bool) (len : Nat) (f : Nat → Nat) : Ran :=
  let y := x.vwrite c.freeCnt vd w (x.regsOf w * 256 / w) x.vl vm x.vta f
  .ok { c with freeCnt := c.freeCnt + 1 } ({ y with vstart := 0 }.past len)

/-- An instruction that writes a mask register, whose tail is always agnostic. -/
def Chip.mdone (c : Chip) (x : Core) (vd : Nat) (vm : Bool) (len : Nat) (f : Nat → Bool) : Ran :=
  let y := x.vwrite c.freeCnt vd 1 256 x.vl vm true fun i => b2n (f i)
  .ok { c with freeCnt := c.freeCnt + 1 } ({ y with vstart := 0 }.past len)

/-- An instruction that writes element 0 of a register alone. -/
def Chip.sdone (c : Chip) (x : Core) (vd w : Nat) (len v : Nat) : Ran :=
  let y := if x.vl ≤ x.vstart then x
    else (List.range (256 / w)).foldl (fun (y : Core) i =>
      if i = 0 then y.vset vd w 0 v else if x.vta then y.vset vd w i (agnostic c.freeCnt i w (x.vget vd w i)) else y) x
  .ok { c with freeCnt := c.freeCnt + 1 } ({ y with vstart := 0 }.past len)

/-- A masked instruction does not write over the mask. -/
def maskClear (vm : Bool) (vd : Nat) : Bool := vm || vd != 0

/-! ### Element arithmetic -/

/-- The value shifted right by `n` with the rounding of `vxrm`. -/
def roundShift (vxrm : Nat) (v : Int) (n : Nat) : Int :=
  let q := v / 2 ^ n
  let r := (v % 2 ^ n).toNat
  let half := decide (0 < n) && decide (2 ^ (n - 1) ≤ r)
  let up := match vxrm with
    | 0 => half
    | 1 => half && (decide (r ≠ 2 ^ (n - 1)) || decide (q % 2 = 1))
    | 2 => false
    | _ => decide (q % 2 = 0 ∧ r ≠ 0)
  if up then q + 1 else q

/-- A value held within `w` bits, signed or not, and whether it had to be. -/
def clip (signed : Bool) (w : Nat) (v : Int) : Nat × Bool :=
  let lo : Int := if signed then -(2 ^ (w - 1)) else 0
  let hi : Int := if signed then 2 ^ (w - 1) - 1 else 2 ^ w - 1
  if v < lo then (unsgn w lo, true) else if hi < v then (unsgn w hi, true) else (unsgn w v, false)

/-- The `w`-bit value as an integer. -/
def rdInt (signed : Bool) (w v : Nat) : Int := if signed then sgn w v else (v % 2 ^ w : Nat)

/-- Single-width operations of OPIVV, OPIVX, OPIVI by funct6: of `a` (vs2) and `b`, with `vxrm`; and saturation. -/
def opI (f6 w vxrm a b : Nat) : Option (Nat × Bool) :=
  let s := b % w
  let cut (v : Nat) : Option (Nat × Bool) := some (v % 2 ^ w, false)
  match f6 with
  | 0x00 => cut (a + b)
  | 0x02 => cut (a + 2 ^ w - b)
  | 0x03 => cut (b + 2 ^ w - a)
  | 0x04 => cut (min a b)
  | 0x05 => cut (if sgn w a < sgn w b then a else b)
  | 0x06 => cut (max a b)
  | 0x07 => cut (if sgn w a < sgn w b then b else a)
  | 0x09 => cut (Nat.land a b)
  | 0x0A => cut (Nat.lor a b)
  | 0x0B => cut (Nat.xor a b)
  | 0x20 => some (clip false w (a + b : Nat))
  | 0x21 => some (clip true w (sgn w a + sgn w b))
  | 0x22 => some (clip false w ((a : Int) - b))
  | 0x23 => some (clip true w (sgn w a - sgn w b))
  | 0x25 => cut (a * 2 ^ s)
  | 0x27 => some (clip true w (roundShift vxrm (sgn w a * sgn w b) (w - 1)))
  | 0x28 => cut (a / 2 ^ s)
  | 0x29 => cut (sar w a s)
  | 0x2A => cut (unsgn w (roundShift vxrm (a : Int) s))
  | 0x2B => cut (unsgn w (roundShift vxrm (sgn w a) s))
  | _ => none

/-- Forms of those operations: 0 VV, 3 VI, 4 VX. -/
def opIForm (f6 f3 : Nat) : Bool :=
  match f3 with
  | 0 => f6 != 0x03
  | 3 => !(([0x02, 0x04, 0x05, 0x06, 0x07, 0x22, 0x23, 0x27] : List Nat).contains f6)
  | _ => true

/-- Comparisons by funct6, and their forms. -/
def opCmp (f6 w a b : Nat) : Option Bool :=
  match f6 with
  | 0x18 => some (a == b)
  | 0x19 => some (a != b)
  | 0x1A => some (decide (a < b))
  | 0x1B => some (decide (sgn w a < sgn w b))
  | 0x1C => some (decide (a ≤ b))
  | 0x1D => some (decide (sgn w a ≤ sgn w b))
  | 0x1E => some (decide (b < a))
  | 0x1F => some (decide (sgn w b < sgn w a))
  | _ => none
def opCmpForm (f6 f3 : Nat) : Bool :=
  match f3 with
  | 0 => decide (f6 < 0x1E)
  | 3 => f6 != 0x1A && f6 != 0x1B
  | _ => true

/-- Single-width operations of OPMVV and OPMVX: of `a` (vs2), `b`, and the destination's old value `d`. -/
def opM (f6 w vxrm a b d : Nat) : Option Nat :=
  match f6 with
  | 0x08 => some (unsgn w (roundShift vxrm (a + b : Nat) 1))
  | 0x09 => some (unsgn w (roundShift vxrm (sgn w a + sgn w b) 1))
  | 0x0A => some (unsgn w (roundShift vxrm ((a : Int) - b) 1))
  | 0x0B => some (unsgn w (roundShift vxrm (sgn w a - sgn w b) 1))
  | 0x20 => some (divU w a b)
  | 0x21 => some (divS w a b)
  | 0x22 => some (remU w a b)
  | 0x23 => some (remS w a b)
  | 0x24 => some (mulHigh w false false a b)
  | 0x25 => some (a * b % 2 ^ w)
  | 0x26 => some (mulHigh w true false a b)
  | 0x27 => some (mulHigh w true true a b)
  | 0x29 => some ((b * d + a) % 2 ^ w)
  | 0x2B => some (unsgn w ((a : Int) - (b * d : Nat)))
  | 0x2D => some ((a * b + d) % 2 ^ w)
  | 0x2F => some (unsgn w ((d : Int) - (a * b : Nat)))
  | _ => none

/-- Widening operations of OPMVV and OPMVX: the result of 2w bits, of `a` (vs2; of 2w bits for the `.w` forms), `b` and the
old value `d`. -/
def opW (f6 w a b d : Nat) : Option Nat :=
  let n := 2 * w
  let r (sa sb : Bool) (wa : Nat) (f : Int → Int → Int) : Option Nat := some (unsgn n (f (rdInt sa wa a) (rdInt sb w b)))
  match f6 with
  | 0x30 => r false false w (· + ·)
  | 0x31 => r true true w (· + ·)
  | 0x32 => r false false w (· - ·)
  | 0x33 => r true true w (· - ·)
  | 0x34 => r false false n (· + ·)
  | 0x35 => r true true n (· + ·)
  | 0x36 => r false false n (· - ·)
  | 0x37 => r true true n (· - ·)
  | 0x38 => r false false w (· * ·)
  | 0x3A => r true false w (· * ·)
  | 0x3B => r true true w (· * ·)
  | 0x3C => r false false w fun p q => p * q + d
  | 0x3D => r true true w fun p q => p * q + d
  | 0x3E => r true false w fun p q => p * q + d
  | 0x3F => r false true w fun p q => p * q + d
  | _ => none

/-- One step of an integer reduction. -/
def opRed (f6 w acc e : Nat) : Option Nat :=
  match f6 with
  | 0 => some ((acc + e) % 2 ^ w)
  | 1 => some (Nat.land acc e)
  | 2 => some (Nat.lor acc e)
  | 3 => some (Nat.xor acc e)
  | 4 => some (min acc e)
  | 5 => some (if sgn w acc < sgn w e then acc else e)
  | 6 => some (max acc e)
  | 7 => some (if sgn w acc < sgn w e then e else acc)
  | _ => none

/-- Mask-register operations by funct6. -/
def opMask (f6 : Nat) (a b : Bool) : Option Bool :=
  match f6 with
  | 0x18 => some (a && !b)
  | 0x19 => some (a && b)
  | 0x1A => some (a || b)
  | 0x1B => some (a != b)
  | 0x1C => some (a || !b)
  | 0x1D => some (!(a && b))
  | 0x1E => some (!(a || b))
  | 0x1F => some (a == b)
  | _ => none

/-! ### Integer instructions -/

/-- The second operand of element `i`: vs1, an immediate, or a scalar register, cut to `w` bits. -/
def Core.vopB (x : Core) (w f3 sew imm i : Nat) : Nat :=
  match f3 with
  | 0 | 2 => x.vget (insRs1 w) sew i
  | 3 => imm % 2 ^ sew
  | _ => x.xr (insRs1 w) % 2 ^ sew

/-- The second operand is a vector. -/
def vVector (f3 : Nat) : Bool := f3 == 0 || f3 == 1 || f3 == 2

/-- Operand groups of a single-width instruction are in order: vs2, vs1 if it is a vector, vd. -/
def Core.vsingle (x : Core) (w : Nat) : Bool :=
  let s := x.sew
  x.groupOk (insRs2 w) s && x.groupOk (insRd w) s && (!vVector (insF3 w) || x.groupOk (insRs1 w) s) && maskClear (vVm w) (insRd w)

/-- A source of `sw`-bit elements, and vs1 at SEW if it is a vector, may lie under a mask destination. -/
def Core.maskDest (x : Core) (w : Nat) : Bool :=
  let one (r : Nat) : Bool := x.groupOk r x.sew && (!overlap (insRd w) 1 r (x.regsOf x.sew) || insRd w == r)
  one (insRs2 w) && (!vVector (insF3 w) || one (insRs1 w))

/-- Elements of the body that are active. -/
def Core.body (x : Core) (vm : Bool) : List Nat := (List.range x.vl).filter fun i => decide (x.vstart ≤ i) && x.active vm i

/-- Add and subtract with carry, and the carries they give (0x10 to 0x13). -/
def Chip.exCarry (c : Chip) (x : Core) (w len : Nat) : Ran :=
  let s := x.sew
  let f6 := vF6 w
  let b (i : Nat) := x.vopB w (insF3 w) s (vSimm w) i
  let a (i : Nat) := x.vget (insRs2 w) s i
  let cin (i : Nat) : Nat := if vVm w then 0 else x.vget 0 1 i
  let y := { x with vtype := x.vtype }
  if insF3 w = 3 ∧ 0x12 ≤ f6 then .trap c causeIllegal
  else if f6 = 0x10 ∨ f6 = 0x12 then
    if vVm w ∨ ¬ x.vsingle w then .trap c causeIllegal
    else c.vdone y (insRd w) s true len fun i => if f6 = 0x10 then a i + b i + cin i else a i + 2 ^ (s + 1) - b i - cin i
  else if ¬ x.maskDest w then .trap c causeIllegal
  else c.mdone y (insRd w) true len fun i =>
    if f6 = 0x11 then decide (2 ^ s ≤ a i + b i + cin i) else decide (a i < b i + cin i)

/-- Gathers and slides (0x0C, 0x0E, 0x0F of OPIVV, OPIVX, OPIVI). -/
def Chip.exPermute (c : Chip) (x : Core) (w len : Nat) : Ran :=
  let s := x.sew
  let f3 := insF3 w
  let (vd, v2) := (insRd w, insRs2 w)
  let mx := vtMax x.vtype
  let n := x.regsOf s
  let off := if f3 = 3 then vImm w else x.xr (insRs1 w)
  let src (j : Nat) : Nat := if j < mx then x.vget v2 s j else 0
  let ok := x.groupOk v2 s && x.groupOk vd s && maskClear (vVm w) vd
  match vF6 w, f3 with
  | 0x0C, 0 =>
    if ¬ ok ∨ ¬ x.groupOk (insRs1 w) s ∨ overlap vd n v2 n ∨ overlap vd n (insRs1 w) n then .trap c causeIllegal
    else c.vdone x vd s (vVm w) len fun i => src (x.vget (insRs1 w) s i)
  | 0x0C, _ =>
    if ¬ ok ∨ overlap vd n v2 n then .trap c causeIllegal else c.vdone x vd s (vVm w) len fun _ => src off
  | 0x0E, 0 =>
    if ¬ ok ∨ ¬ x.groupOk (insRs1 w) 16 ∨ overlap vd n v2 n ∨ overlap vd n (insRs1 w) (x.regsOf 16) then .trap c causeIllegal
    else c.vdone x vd s (vVm w) len fun i => src (x.vget (insRs1 w) 16 i)
  | 0x0E, _ =>
    if ¬ ok ∨ overlap vd n v2 n then .trap c causeIllegal
    else c.vdone x vd s (vVm w) len fun i => if i < off then x.vget vd s i else src (i - off)
  | 0x0F, 0 => .trap c causeIllegal
  | _, _ => if ¬ ok then .trap c causeIllegal else c.vdone x vd s (vVm w) len fun i => src (i + off)

/-- Narrowing shifts and clips (0x2C to 0x2F). -/
def Chip.exNarrow (c : Chip) (x : Core) (w len : Nat) : Ran :=
  let s := x.sew
  let f6 := vF6 w
  let (vd, v2) := (insRd w, insRs2 w)
  let ok := decide (s < 64) && x.groupOk v2 (2 * s) && x.groupOk vd s && (!vVector (insF3 w) || (x.groupOk (insRs1 w) s)) &&
    x.overOk vd s v2 (2 * s) && maskClear (vVm w) vd
  let r (i : Nat) : Nat × Bool :=
    let a := x.vget v2 (2 * s) i
    let n := x.vopB w (insF3 w) s (vImm w) i % (2 * s)
    match f6 with
    | 0x2C => (a / 2 ^ n, false)
    | 0x2D => (sar (2 * s) a n, false)
    | 0x2E => clip false s (roundShift (bits x.vcsr 1 2) (a : Int) n)
    | _ => clip true s (roundShift (bits x.vcsr 1 2) (sgn (2 * s) a) n)
  if ¬ ok then .trap c causeIllegal
  else
    let sat := (x.body (vVm w)).any fun i => (r i).2
    c.vdone { x with vcsr := if sat then x.vcsr / 2 * 2 + 1 else x.vcsr } vd s (vVm w) len fun i => (r i).1

/-- A reduction: element 0 of vs1 folded with the active elements of vs2; of `dw` bits. -/
def Chip.exReduce (c : Chip) (x : Core) (w len dw : Nat) (f : Nat → Nat → Nat) : Ran :=
  if ¬ x.groupOk (insRs2 w) x.sew ∨ 0 < x.vstart then .trap c causeIllegal
  else c.sdone x (insRd w) dw len ((x.body (vVm w)).foldl (fun acc i => f acc (x.vget (insRs2 w) x.sew i)) (x.vget (insRs1 w) dw 0))

/-- Whole-register moves (`vmv<nr>r.v`), which `vtype` does not concern. -/
def Chip.exMoveRegs (c : Chip) (x : Core) (w len : Nat) : Ran :=
  let n := insRs1 w + 1
  if ¬ vVm w ∨ ¬ [1, 2, 4, 8].contains n ∨ insRd w % n ≠ 0 ∨ insRs2 w % n ≠ 0 then .trap c causeIllegal
  else
    let s := if x.vill then 8 else x.sew
    let y := (List.range (n * 256 / s)).foldl (fun (y : Core) i =>
      if i < x.vstart then y else y.vset (insRd w) s i (x.vget (insRs2 w) s i)) x
    .ok c ({ y with vstart := 0 }.past len)

/-- OPIVV, OPIVX, OPIVI. -/
def Chip.exVecI (c : Chip) (x : Core) (w len : Nat) : Ran :=
  let s := x.sew
  let f3 := insF3 w
  let f6 := vF6 w
  let (vd, v2, vm) := (insRd w, insRs2 w, vVm w)
  let vxrm := bits x.vcsr 1 2
  let a (i : Nat) := x.vget v2 s i
  if f6 = 0x27 ∧ f3 = 3 then c.exMoveRegs x w len
  else if x.vill then .trap c causeIllegal
  else if 0x10 ≤ f6 ∧ f6 ≤ 0x13 then c.exCarry x w len
  else if f6 = 0x0C ∨ f6 = 0x0E ∨ f6 = 0x0F then c.exPermute x w len
  else if 0x2C ≤ f6 ∧ f6 ≤ 0x2F then c.exNarrow x w len
  else if f6 = 0x17 then
    if ¬ x.vsingle w ∨ (vm ∧ v2 ≠ 0) then .trap c causeIllegal
    else c.vdone x vd s true len fun i => if x.active vm i then x.vopB w f3 s (vSimm w) i else a i
  else if f6 = 0x30 ∨ f6 = 0x31 then
    if f3 ≠ 0 ∨ s = 64 then .trap c causeIllegal
    else c.exReduce x w len (2 * s) fun acc e => unsgn (2 * s) ((acc : Int) + rdInt (f6 == 0x31) s e)
  else
    let imm := if [0x25, 0x28, 0x29, 0x2A, 0x2B].contains f6 then vImm w else vSimm w
    match opCmp f6 s 0 0, opI f6 s vxrm 0 0 with
    | some _, _ =>
      if ¬ opCmpForm f6 f3 ∨ ¬ x.maskDest w then .trap c causeIllegal
      else c.mdone x vd vm len fun i => (opCmp f6 s (a i) (x.vopB w f3 s imm i)).getD false
    | none, some _ =>
      if ¬ opIForm f6 f3 ∨ ¬ x.vsingle w then .trap c causeIllegal
      else
        let r (i : Nat) : Nat × Bool := (opI f6 s vxrm (a i) (x.vopB w f3 s imm i)).getD (0, false)
        let sat := (x.body vm).any fun i => (r i).2
        c.vdone { x with vcsr := if sat then x.vcsr / 2 * 2 + 1 else x.vcsr } vd s vm len fun i => (r i).1
    | none, none => .trap c causeIllegal

/-- The unary forms of OPMVV and OPMVX that move between scalars, vectors and masks (0x10). -/
def Chip.exVecUnary0 (c : Chip) (x : Core) (w len : Nat) : Ran :=
  let s := x.sew
  let (v1, v2, vm) := (insRs1 w, insRs2 w, vVm w)
  let ones := (x.body vm).filter fun i => x.vget v2 1 i == 1
  if insF3 w = 6 then
    if v2 ≠ 0 ∨ ¬ vm then .trap c causeIllegal else c.sdone x (insRd w) s len (x.xr v1)
  else match v1 with
    | 0x00 => if vm then .ok c ({ x.xw (insRd w) (sx s (x.vget v2 s 0)) with vstart := 0 }.past len) else .trap c causeIllegal
    | 0x10 => if 0 < x.vstart then .trap c causeIllegal else .ok c ((x.xw (insRd w) ones.length).past len)
    | 0x11 => if 0 < x.vstart then .trap c causeIllegal else .ok c ((x.xw (insRd w) (ones.headD (2 ^ 64 - 1))).past len)
    | _ => .trap c causeIllegal

/-- Zero and sign extensions (0x12). -/
def Chip.exVecExt (c : Chip) (x : Core) (w len : Nat) : Ran :=
  let s := x.sew
  let (vd, v2) := (insRd w, insRs2 w)
  let k := insRs1 w
  if k < 2 ∨ 7 < k then .trap c causeIllegal
  else
    let f := 2 ^ (4 - k / 2)
    let sw := s / f
    if sw < 8 ∨ ¬ x.groupOk v2 sw ∨ ¬ x.groupOk vd s ∨ ¬ x.overOk vd s v2 sw ∨ ¬ maskClear (vVm w) vd then .trap c causeIllegal
    else c.vdone x vd s (vVm w) len fun i => unsgn s (rdInt (k % 2 == 1) sw (x.vget v2 sw i))

/-- The mask forms (0x14): set-before-first, set-only-first, set-including-first, iota, element index. -/
def Chip.exVecMask (c : Chip) (x : Core) (w len : Nat) : Ran :=
  let s := x.sew
  let (vd, v2, vm) := (insRd w, insRs2 w, vVm w)
  let first := ((x.body vm).filter fun i => x.vget v2 1 i == 1).headD x.vl
  let found := first != x.vl
  let m (f : Nat → Bool) : Ran := if 0 < x.vstart ∨ vd = v2 ∨ ¬ maskClear vm vd then .trap c causeIllegal else c.mdone x vd vm len f
  match insRs1 w with
  | 1 => m fun i => decide (i < first)
  | 2 => m fun i => found && i == first
  | 3 => m fun i => decide (i ≤ first)
  | 0x10 =>
    if 0 < x.vstart ∨ ¬ x.groupOk vd s ∨ overlap vd (x.regsOf s) v2 1 ∨ ¬ maskClear vm vd then .trap c causeIllegal
    else c.vdone x vd s vm len fun i => ((x.body vm).filter fun j => decide (j < i) && x.vget v2 1 j == 1).length
  | 0x11 => if v2 ≠ 0 ∨ ¬ x.groupOk vd s ∨ ¬ maskClear vm vd then .trap c causeIllegal else c.vdone x vd s vm len fun i => i
  | _ => .trap c causeIllegal

/-- `vcompress.vm`. -/
def Chip.exCompress (c : Chip) (x : Core) (w len : Nat) : Ran :=
  let s := x.sew
  let (vd, v1, v2) := (insRd w, insRs1 w, insRs2 w)
  let n := x.regsOf s
  if ¬ vVm w ∨ 0 < x.vstart ∨ ¬ x.groupOk vd s ∨ ¬ x.groupOk v2 s ∨ overlap vd n v2 n ∨ overlap vd n v1 1 then .trap c causeIllegal
  else
    let picked := (List.range x.vl).filter fun i => x.vget v1 1 i == 1
    let y := if x.vl = 0 then x
      else x.vwrite c.freeCnt vd s (n * 256 / s) (max picked.length 1) true x.vta fun i =>
        match picked[i]? with
        | some j => x.vget v2 s j
        | none => if x.vta then agnostic c.freeCnt i s (x.vget vd s i) else x.vget vd s i
    .ok { c with freeCnt := c.freeCnt + 1 } ({ y with vstart := 0 }.past len)

/-- Widening instructions (0x30 to 0x3F of OPMVV and OPMVX). -/
def Chip.exWiden (c : Chip) (x : Core) (w len : Nat) : Ran :=
  let s := x.sew
  let f3 := insF3 w
  let f6 := vF6 w
  let (vd, v2) := (insRd w, insRs2 w)
  let wide := decide (0x34 ≤ f6 ∧ f6 ≤ 0x37)
  let sw := if wide then 2 * s else s
  let ok := decide (s < 64) && x.groupOk vd (2 * s) && x.groupOk v2 sw && x.overOk vd (2 * s) v2 sw &&
    (!vVector f3 || (x.groupOk (insRs1 w) s && x.overOk vd (2 * s) (insRs1 w) s)) && maskClear (vVm w) vd && !(f6 == 0x3E && f3 == 2)
  match opW f6 s 0 0 0 with
  | none => .trap c causeIllegal
  | some _ =>
    if ¬ ok then .trap c causeIllegal
    else c.vdone x vd (2 * s) (vVm w) len fun i =>
      (opW f6 s (x.vget v2 sw i) (x.vopB w f3 s 0 i) (x.vget vd (2 * s) i)).getD 0

/-- OPMVV and OPMVX. -/
def Chip.exVecM (c : Chip) (x : Core) (w len : Nat) : Ran :=
  let s := x.sew
  let f3 := insF3 w
  let f6 := vF6 w
  let (vd, v2, vm) := (insRd w, insRs2 w, vVm w)
  let a (i : Nat) := x.vget v2 s i
  let slide (up : Bool) : Ran :=
    if f3 ≠ 6 ∨ ¬ x.vsingle w ∨ (up ∧ overlap vd (x.regsOf s) v2 (x.regsOf s)) then .trap c causeIllegal
    else c.vdone x vd s vm len fun i =>
      if up then (if i = 0 then x.xr (insRs1 w) else a (i - 1)) else if i + 1 = x.vl then x.xr (insRs1 w) else a (i + 1)
  if x.vill then .trap c causeIllegal
  else match f6 with
    | 0x0E => slide true
    | 0x0F => slide false
    | 0x10 => c.exVecUnary0 x w len
    | 0x12 => if f3 = 2 then c.exVecExt x w len else .trap c causeIllegal
    | 0x14 => if f3 = 2 then c.exVecMask x w len else .trap c causeIllegal
    | 0x17 => if f3 = 2 then c.exCompress x w len else .trap c causeIllegal
    | _ =>
      if f6 < 8 then
        if f3 = 2 then c.exReduce x w len s fun acc e => (opRed f6 s acc e).getD 0 else .trap c causeIllegal
      else if 0x18 ≤ f6 ∧ f6 ≤ 0x1F then
        if f3 ≠ 2 ∨ ¬ vm then .trap c causeIllegal
        else c.mdone x vd true len fun i => (opMask f6 (x.vget v2 1 i == 1) (x.vget (insRs1 w) 1 i == 1)).getD false
      else if 0x30 ≤ f6 then c.exWiden x w len
      else match opM f6 s 0 0 0 0 with
        | none => .trap c causeIllegal
        | some _ =>
          if ¬ x.vsingle w then .trap c causeIllegal
          else c.vdone x vd s vm len fun i => (opM f6 s (bits x.vcsr 1 2) (a i) (x.vopB w f3 s 0 i) (x.vget vd s i)).getD 0

/-! ### Vector loads and stores -/

/-- Element width of a vector load or store by its width field. -/
def vWidth (w : Nat) : Option Nat :=
  match insF3 w with
  | 0 => some 8
  | 5 => some 16
  | 6 => some 32
  | 7 => some 64
  | _ => none

/-- How a vector memory access goes: element width and registers of a field's group, elements, fields, whether the tail is
always agnostic, whether it is fault-only-first, and the address of element `i`. -/
structure VMem where
  ew : Nat
  regs : Nat
  evl : Nat
  fields : Nat
  vm : Bool
  tail : Bool
  first : Bool
  addr : Nat → Nat

/-- The plan of a vector load or store; none where it is reserved. -/
def Core.vmem (x : Core) (w : Nat) (load : Bool) : Option VMem :=
  match vWidth w with
  | none => none
  | some ew =>
    let nf := bits w 29 3 + 1
    let (vd, v2, vm) := (insRd w, insRs2 w, vVm w)
    let base := x.xr (insRs1 w)
    let mop := bits w 26 2
    let dw := if mop % 2 = 1 then x.sew else ew
    let n := x.regsOf dw
    let fits := x.groupOk vd dw && decide (n * nf ≤ 8 ∧ vd + n * nf ≤ 32) && maskClear (vm || !load) vd
    let plan (stride : Nat → Nat) (ff : Bool) : Option VMem :=
      if x.vill ∨ ¬ fits then none else some ⟨dw, n, x.vl, nf, vm, x.vta, ff, fun i => add64 base (stride i)⟩
    if bit w 28 then none
    else match mop with
      | 0 =>
        match v2 with
        | 0 => plan (fun i => i * nf * (ew / 8)) false
        | 0x08 =>
          if ¬ vm ∨ ¬ [1, 2, 4, 8].contains nf ∨ vd % nf ≠ 0 ∨ (¬ load ∧ ew ≠ 8) then none
          else some ⟨ew, nf, nf * 256 / ew, 1, true, false, false, fun i => add64 base (i * (ew / 8))⟩
        | 0x0B =>
          if ¬ vm ∨ nf ≠ 1 ∨ ew ≠ 8 ∨ x.vill then none
          else some ⟨8, 1, (x.vl + 7) / 8, 1, true, true, false, fun i => add64 base i⟩
        | 0x10 => if load then plan (fun i => i * nf * (ew / 8)) true else none
        | _ => none
      | 2 => plan (fun i => i * x.xr v2 % 2 ^ 64) false
      | _ =>
        let idxOk := x.groupOk v2 ew && (!load || (if nf = 1 then x.overOk vd dw v2 ew else !overlap vd (n * nf) v2 (x.regsOf ew)))
        if idxOk then plan (fun i => x.vget v2 ew i) false else none

/-- Loads the fields of elements from `i` on, `n` of them: the values by 8 × element + field, or the element that faults. -/
def Chip.vloadElems (c : Chip) (b k : Nat) (p : VMem) : Nat → Nat → Core → Tbl Nat → Chip × Core × Tbl Nat × Option Nat
  | 0, _, x, t => (c, x, t, none)
  | n + 1, i, x, t =>
    if i < x.vstart ∨ ¬ x.active p.vm i then c.vloadElems b k p n (i + 1) x t
    else
      let r := (List.range p.fields).foldl (fun (a : Option (Chip × Core × Tbl Nat)) f => a.bind fun (c, x, t) =>
        (c.coreLoad x b k (add64 (p.addr i) (f * (p.ew / 8))) (p.ew / 8)).map fun (c, x, v) => (c, x, Tbl.ins t (8 * i + f) v)) (some (c, x, t))
      match r with
      | some (c, x, t) => c.vloadElems b k p n (i + 1) x t
      | none => (c, x, t, some i)

/-- A vector load. -/
def Chip.exVLoad (c : Chip) (x : Core) (b k w len : Nat) : Ran :=
  match x.vmem w true with
  | none => .trap c causeIllegal
  | some p =>
    let (c, y, t, bad) := c.vloadElems b k p p.evl 0 x []
    match bad with
    | some i =>
      if ¬ p.first ∨ i = 0 then .trap c causeLoadFault
      else
        let y := (List.range p.fields).foldl (fun (y : Core) f =>
          { y with vl := i }.vwrite c.freeCnt (insRd w + f * p.regs) p.ew (p.regs * 256 / p.ew) i p.vm p.tail fun j => Tbl.look 0 t (8 * j + f)) y
        .ok { c with freeCnt := c.freeCnt + 1 } ({ y with vl := i, vstart := 0 }.past len)
    | none =>
      let y := (List.range p.fields).foldl (fun (y : Core) f =>
        y.vwrite c.freeCnt (insRd w + f * p.regs) p.ew (p.regs * 256 / p.ew) p.evl p.vm p.tail fun j => Tbl.look 0 t (8 * j + f)) y
      .ok { c with freeCnt := c.freeCnt + 1 } ({ y with vstart := 0 }.past len)

/-- Stores the fields of elements from `i` on, `n` of them; false where one faults, those before it written. -/
def Chip.vstoreElems (c : Chip) (b k vd : Nat) (p : VMem) : Nat → Nat → Core → Chip × Core × Bool
  | 0, _, x => (c, x, true)
  | n + 1, i, x =>
    if i < x.vstart ∨ ¬ x.active p.vm i then c.vstoreElems b k vd p n (i + 1) x
    else
      let r := (List.range p.fields).foldl (fun (a : Chip × Core × Bool) f =>
        if ¬ a.2.2 then a
        else match a.1.coreStore a.2.1 b k (add64 (p.addr i) (f * (p.ew / 8))) (p.ew / 8) (x.vget (vd + f * p.regs) p.ew i) with
          | some (c, x) => (c, x, true)
          | none => (a.1, a.2.1, false)) (c, x, true)
      if r.2.2 then r.1.vstoreElems b k vd p n (i + 1) r.2.1 else r

/-- A vector store. -/
def Chip.exVStore (c : Chip) (x : Core) (b k w len : Nat) : Ran :=
  match x.vmem w false with
  | none => .trap c causeIllegal
  | some p =>
    let r := c.vstoreElems b k (insRd w) p p.evl 0 x
    if r.2.2 then .ok r.1 ({ r.2.1 with vstart := 0 }.past len) else .trap r.1 causeStoreFault

end Sys2Proof.Machine
end

