-- ==== Sys2Proof/Machine/GougeVecFp.lean ====
section
/-! DEFINITION. The vector floating-point instructions of the gouge cores, with Zvfh and Zvfbfmin, and the execution of one
instruction of a core (R46, R112). -/

namespace Sys2Proof.Machine

/-- The format of SEW bits, none where the vector unit has none. -/
def vFmt (w : Nat) : Option Fmt :=
  match w with
  | 16 => some fp16
  | 32 => some fp32
  | 64 => some fp64
  | _ => none

/-! ### Estimates -/

/-- Exponent and significand of a non-zero pattern, a subnormal one normalised: the exponent may be 0 or below. -/
def Fmt.normal (f : Fmt) (v : Nat) : Int × Nat :=
  let e := bits v f.mbits f.ebits
  let m := v % 2 ^ f.mbits
  if e ≠ 0 then (e, m)
  else
    let sh := f.mbits - Nat.log2 m
    (1 - (sh : Int), m * 2 ^ sh % 2 ^ f.mbits)

/-- The 7-bit estimate of a reciprocal (`vfrec7`). -/
def Fmt.rec7 (f : Fmt) (rm : Rm) (v : Nat) : Flagged :=
  let s := f.sign v
  let inf := (2 ^ f.ebits - 1) * 2 ^ f.mbits
  match f.decode v with
  | .nan => (f.canonNan, f.sn [v])
  | .inf s => (f.withSign s 0, 0)
  | .fin _ m _ =>
    if m = 0 then (f.withSign s inf, flDZ)
    else
      let (e, sig) := f.normal v
      let toMax := rm == .rtz || (rm == .rdn && !s) || (rm == .rup && s)
      if e < -1 then (f.withSign s (if toMax then inf - 1 else inf), flOF + flNX)
      else
        let i := sig / 2 ^ (f.mbits - 7)
        let t := (131072 / (257 + 2 * i) + 1) / 2 - 128
        let sg := t * 2 ^ (f.mbits - 7)
        let oe := 2 * f.bias - 1 - e
        if 0 < oe then (f.withSign s (oe.toNat * 2 ^ f.mbits + sg), 0)
        else (f.withSign s ((2 ^ f.mbits + sg) / 2 ^ (1 + (-oe).toNat)), 0)

/-- The 7-bit estimate of a reciprocal square root (`vfrsqrt7`). -/
def Fmt.rsqrt7 (f : Fmt) (v : Nat) : Flagged :=
  let s := f.sign v
  match f.decode v with
  | .nan => (f.canonNan, f.sn [v])
  | .inf neg => if neg then (f.canonNan, flNV) else (0, 0)
  | .fin _ m _ =>
    if m = 0 then (f.withSign s ((2 ^ f.ebits - 1) * 2 ^ f.mbits), flDZ)
    else if s then (f.canonNan, flNV)
    else
      let (e, sig) := f.normal v
      let i := sig / 2 ^ (f.mbits - 6)
      let d := if e % 2 = 0 then 64 else 128
      let q := 262144 * d / (2 * i + 129)
      let t := (isqrt q (Nat.log2 q / 2 + 1) 0 + 1) / 2 - 128
      (((3 * f.bias - 1 - e) / 2).toNat * 2 ^ f.mbits + t * 2 ^ (f.mbits - 7), 0)

/-- A value rounded to odd. -/
def Fmt.toOdd (f g : Fmt) (v : Nat) : Flagged :=
  let r := f.convert g .rtz v
  if bit r.2 0 ∧ r.1 % 2 = 0 then (r.1 + 1, r.2) else r

/-! ### Element operations -/

/-- Single-width operations of OPFVV and OPFVF by funct6: of `a` (vs2), `b`, and the old value `d`. -/
def opF (f : Fmt) (rm : Rm) (f6 a b d : Nat) : Option Flagged :=
  match f6 with
  | 0x00 => some (f.add rm a b)
  | 0x02 => some (f.add rm a (f.flip b))
  | 0x04 => some (f.minmax false a b)
  | 0x06 => some (f.minmax true a b)
  | 0x08 => some (f.inject 0 a b, 0)
  | 0x09 => some (f.inject 1 a b, 0)
  | 0x0A => some (f.inject 2 a b, 0)
  | 0x20 => some (f.div rm a b)
  | 0x21 => some (f.div rm b a)
  | 0x24 => some (f.mul rm a b)
  | 0x27 => some (f.add rm b (f.flip a))
  | 0x28 => some (f.fma rm b d a)
  | 0x29 => some (f.fma rm (f.flip b) d (f.flip a))
  | 0x2A => some (f.fma rm b d (f.flip a))
  | 0x2B => some (f.fma rm (f.flip b) d a)
  | 0x2C => some (f.fma rm b a d)
  | 0x2D => some (f.fma rm (f.flip b) a (f.flip d))
  | 0x2E => some (f.fma rm b a (f.flip d))
  | 0x2F => some (f.fma rm (f.flip b) a d)
  | _ => none

/-- Comparisons by funct6. -/
def opFCmp (f : Fmt) (f6 a b : Nat) : Option Flagged :=
  match f6 with
  | 0x18 => some (f.feq a b)
  | 0x19 => some (f.fle a b)
  | 0x1B => some (f.flt a b)
  | 0x1C => let r := f.feq a b; some (1 - r.1, r.2)
  | 0x1D => some (f.flt b a)
  | 0x1F => some (f.fle b a)
  | _ => none

/-- Widening operations: of `a` (of format `f`, or of `g` for the `.w` forms) and `b` (of `f`), the result and `d` of `g`. -/
def opFW (f g : Fmt) (rm : Rm) (f6 a b d : Nat) : Option Flagged :=
  let up (v : Nat) : Nat := if f.isSnan v then g.canonNan - 2 ^ (g.mbits - 1) + 1 else (f.convert g .rne v).1
  match f6 with
  | 0x30 => some (g.add rm (up a) (up b))
  | 0x32 => some (g.add rm (up a) (g.flip (up b)))
  | 0x34 => some (g.add rm a (up b))
  | 0x36 => some (g.add rm a (g.flip (up b)))
  | 0x38 => some (g.mul rm (up a) (up b))
  | 0x3C => some (g.fma rm (up b) (up a) d)
  | 0x3D => some (g.fma rm (g.flip (up b)) (up a) (g.flip d))
  | 0x3E => some (g.fma rm (up b) (up a) (g.flip d))
  | 0x3F => some (g.fma rm (g.flip (up b)) (up a) d)
  | _ => none

/-! ### Instructions -/

/-- The core with the flags of the active body elements accrued. -/
def Core.vflags (x : Core) (vm : Bool) (f : Nat → Flagged) : Core := (x.body vm).foldl (fun (y : Core) i => y.flag (f i).2) x

/-- An instruction that writes elements of `w` bits with flags. -/
def Chip.fdone (c : Chip) (x : Core) (vd w : Nat) (vm : Bool) (len : Nat) (f : Nat → Flagged) : Ran :=
  c.vdone (x.vflags vm f) vd w vm len fun i => (f i).1

/-- The second operand of element `i`: vs1, or the scalar register. -/
def Core.vopF (x : Core) (f : Fmt) (w i : Nat) : Nat := if insF3 w = 1 then x.vget (insRs1 w) f.width i else x.fget f (insRs1 w)

/-- A sum of patterns in an order and a tree that the vector specification leaves open: two values picked by free draws are
replaced by their rounded sum until one is left. -/
def treeSum (f : Fmt) (rm : Rm) (draw : Nat) : Nat → List Nat → Flagged → Flagged
  | 0, _, acc => acc
  | n + 1, l, acc =>
    match l with
    | [] => acc
    | [v] => (v, acc.2)
    | _ =>
      let i := (Config.freeValue (draw + 2 * n)).toNat % l.length
      let rest := l.eraseIdx i
      let j := (Config.freeValue (draw + 2 * n + 1)).toNat % rest.length
      let r := f.add rm (l.getD i 0) (rest.getD j 0)
      treeSum f rm draw n (rest.eraseIdx j ++ [r.1]) (r.1, Nat.lor acc.2 r.2)

/-- Floating-point reductions: funct6 0x01 and 0x31 in any order, 0x03 and 0x33 in order, 0x05 minimum, 0x07 maximum. -/
def Chip.exFReduce (c : Chip) (x : Core) (f g : Fmt) (rm : Rm) (w len : Nat) : Ran :=
  let f6 := vF6 w
  let up (v : Nat) : Flagged := if f = g then (v, 0) else f.convert g .rne v
  let els := (x.body (vVm w)).map fun i => up (x.vget (insRs2 w) f.width i)
  let fl0 := els.foldl (fun n e => Nat.lor n e.2) 0
  let l := els.map (·.1)
  let first := x.vget (insRs1 w) g.width 0
  if ¬ x.groupOk (insRs2 w) x.sew ∨ 0 < x.vstart then .trap c causeIllegal
  else
    let step (op : Nat → Nat → Flagged) : Flagged := l.foldl (fun a e => let r := op a.1 e; (r.1, Nat.lor a.2 r.2)) (first, 0)
    let r := match f6 with
      | 0x01 | 0x31 => treeSum g rm c.freeCnt (l.length + 1) (first :: l) (first, 0)
      | 0x05 => step (g.minmax false)
      | 0x07 => step (g.minmax true)
      | _ => step (g.add rm)
    let c : Chip := { c with freeCnt := c.freeCnt + 2 * (l.length + 1) }
    c.sdone (if x.vl = 0 then x else (x.flag fl0).flag r.2) (insRd w) g.width len r.1

/-- One conversion of VFUNARY0 by the low bits of vs1: of a value of `sw` bits to one of `dw` bits. -/
def cvtElem (k : Nat) (rm : Rm) (sw dw v : Nat) : Option Flagged :=
  match k % 8, vFmt sw, vFmt dw with
  | 0, some f, _ => some (f.toInteger rm false dw v)
  | 1, some f, _ => some (f.toInteger rm true dw v)
  | 2, _, some g => some (g.ofInteger rm false sw v)
  | 3, _, some g => some (g.ofInteger rm true sw v)
  | 4, some f, some g => if sw = dw then none else some (f.convert g rm v)
  | 5, some f, some g => if 0x10 ≤ k ∧ k < 0x18 then some (f.toOdd g v) else none
  | 6, some f, _ => some (f.toInteger .rtz false dw v)
  | 7, some f, _ => some (f.toInteger .rtz true dw v)
  | _, _, _ => none

/-- VFUNARY0: conversions at one width, widening (vs1 from 0x08) and narrowing (from 0x10), and those of BF16. -/
def Chip.exFCvt (c : Chip) (x : Core) (rm : Rm) (w len : Nat) : Ran :=
  let s := x.sew
  let k := insRs1 w
  let (vd, v2, vm) := (insRd w, insRs2 w, vVm w)
  let (sw, dw) := match k / 8 with
    | 0 => (s, s)
    | 1 => (s, 2 * s)
    | _ => (2 * s, s)
  let bf := (k == 0x0D || k == 0x1D) && s == 16
  let conv (v : Nat) : Option Flagged :=
    if bf then some (if k = 0x0D then bf16.convert fp32 rm v else fp32.convert bf16 rm v)
    else if k = 0x0D ∨ k = 0x05 then none
    else cvtElem k rm sw dw v
  let ok := decide (k < 0x20 ∧ k / 8 ≤ 2 ∧ max sw dw ≤ 64) || bf
  match conv 0 with
  | none => .trap c causeIllegal
  | some _ =>
    if ¬ ok ∨ ¬ x.groupOk vd dw ∨ ¬ x.groupOk v2 sw ∨ ¬ x.overOk vd dw v2 sw ∨ ¬ maskClear vm vd then .trap c causeIllegal
    else c.fdone x vd dw vm len fun i => (conv (x.vget v2 sw i)).getD (0, 0)

/-- Moves between element 0 and a scalar register, merges, slides (0x0E, 0x0F, 0x10, 0x17). -/
def Chip.exFMove (c : Chip) (x : Core) (f : Fmt) (w len : Nat) : Ran :=
  let s := x.sew
  let (vd, v2, vm) := (insRd w, insRs2 w, vVm w)
  let sc := x.fget f (insRs1 w)
  let vf := insF3 w == 5
  let a (i : Nat) := x.vget v2 s i
  match vF6 w with
  | 0x10 =>
    if vf then (if v2 ≠ 0 ∨ ¬ vm then .trap c causeIllegal else c.sdone x vd s len sc)
    else if insRs1 w ≠ 0 ∨ ¬ vm then .trap c causeIllegal
    else .ok c ({ x.fset f (insRd w) (a 0) with vstart := 0 }.past len)
  | 0x17 =>
    if ¬ vf ∨ ¬ x.vsingle w ∨ (vm ∧ v2 ≠ 0) then .trap c causeIllegal
    else c.vdone x vd s true len fun i => if x.active vm i then sc else a i
  | 0x0E =>
    if ¬ vf ∨ ¬ x.vsingle w ∨ overlap vd (x.regsOf s) v2 (x.regsOf s) then .trap c causeIllegal
    else c.vdone x vd s vm len fun i => if i = 0 then sc else a (i - 1)
  | _ =>
    if ¬ vf ∨ ¬ x.vsingle w then .trap c causeIllegal
    else c.vdone x vd s vm len fun i => if i + 1 = x.vl then sc else a (i + 1)

/-- VFUNARY1: square root, the two estimates, the class. -/
def Chip.exFUnary (c : Chip) (x : Core) (f : Fmt) (rm : Rm) (w len : Nat) : Ran :=
  let op : Option (Nat → Flagged) := match insRs1 w with
    | 0x00 => some (f.sqrt rm)
    | 0x04 => some f.rsqrt7
    | 0x05 => some (f.rec7 rm)
    | 0x10 => some fun v => (f.classify v, 0)
    | _ => none
  match op with
  | none => .trap c causeIllegal
  | some g =>
    if ¬ x.groupOk (insRs2 w) x.sew ∨ ¬ x.groupOk (insRd w) x.sew ∨ ¬ maskClear (vVm w) (insRd w) then .trap c causeIllegal
    else c.fdone x (insRd w) x.sew (vVm w) len fun i => g (x.vget (insRs2 w) x.sew i)

/-- Widening floating-point instructions (0x30 to 0x3F). -/
def Chip.exFWiden (c : Chip) (x : Core) (f g : Fmt) (rm : Rm) (w len : Nat) : Ran :=
  let s := x.sew
  let f6 := vF6 w
  let vv := insF3 w == 1
  let (vd, v2) := (insRd w, insRs2 w)
  let sw := if f6 = 0x34 ∨ f6 = 0x36 then 2 * s else s
  if f6 = 0x31 ∨ f6 = 0x33 then (if vv then c.exFReduce x f g rm w len else .trap c causeIllegal)
  else match opFW f g rm f6 0 0 0 with
    | none => .trap c causeIllegal
    | some _ =>
      if ¬ x.groupOk vd (2 * s) ∨ ¬ x.groupOk v2 sw ∨ ¬ x.overOk vd (2 * s) v2 sw ∨
          (vv ∧ ¬ (x.groupOk (insRs1 w) s ∧ x.overOk vd (2 * s) (insRs1 w) s)) ∨ ¬ maskClear (vVm w) vd then .trap c causeIllegal
      else c.fdone x vd (2 * s) (vVm w) len fun i =>
        (opFW f g rm f6 (x.vget v2 sw i) (x.vopF f w i) (x.vget vd (2 * s) i)).getD (0, 0)

/-- Forms of the single-width operations and comparisons: vector-vector, or scalar only. -/
def opFForm (f6 f3 : Nat) : Bool := f3 == 5 || !(([0x21, 0x27, 0x1D, 0x1F] : List Nat).contains f6)

/-- OPFVV and OPFVF. -/
def Chip.exVecF (c : Chip) (x : Core) (w len : Nat) : Ran :=
  let s := x.sew
  let f3 := insF3 w
  let f6 := vF6 w
  let (vd, v2, vm) := (insRd w, insRs2 w, vVm w)
  match x.rm 7 with
  | none => .trap c causeIllegal
  | some rm =>
    if x.vill then .trap c causeIllegal
    else if f6 = 0x12 then (if f3 = 1 then c.exFCvt x rm w len else .trap c causeIllegal)
    else match vFmt s with
      | none => .trap c causeIllegal
      | some f =>
        if f6 = 0x0E ∨ f6 = 0x0F ∨ f6 = 0x10 ∨ f6 = 0x17 then c.exFMove x f w len
        else if f6 = 0x13 then (if f3 = 1 then c.exFUnary x f rm w len else .trap c causeIllegal)
        else if [0x01, 0x03, 0x05, 0x07].contains f6 then (if f3 = 1 then c.exFReduce x f f rm w len else .trap c causeIllegal)
        else if 0x30 ≤ f6 then
          match vFmt (2 * s) with
          | some g => c.exFWiden x f g rm w len
          | none => .trap c causeIllegal
        else if ¬ opFForm f6 f3 then .trap c causeIllegal
        else match opFCmp f f6 0 0, opF f rm f6 0 0 0 with
          | some _, _ =>
            if ¬ x.maskDest w then .trap c causeIllegal
            else
              let r (i : Nat) : Flagged := (opFCmp f f6 (x.vget v2 s i) (x.vopF f w i)).getD (0, 0)
              c.mdone (x.vflags vm r) vd vm len fun i => (r i).1 == 1
          | none, some _ =>
            if ¬ x.vsingle w then .trap c causeIllegal
            else c.fdone x vd s vm len fun i => (opF f rm f6 (x.vget v2 s i) (x.vopF f w i) (x.vget vd s i)).getD (0, 0)
          | none, none => .trap c causeIllegal

/-! ### One instruction -/

/-- One instruction of the standard extensions of a core: the word, its length as fetched. -/
def Chip.exWord (c : Chip) (x : Core) (b k w len : Nat) : Ran :=
  match c.exInt x b k w len with
  | some r => r
  | none => match c.exFp x b k w len with
    | some r => r
    | none =>
      match w % 128 with
      | 0x07 => c.exVLoad x b k w len
      | 0x27 => c.exVStore x b k w len
      | 0x57 =>
        match insF3 w with
        | 7 => c.exVset x w len
        | 0 | 3 | 4 => c.exVecI x w len
        | 2 | 6 => c.exVecM x w len
        | _ => c.exVecF x w len
      | _ => .trap c causeIllegal

/-- A word is one of Darienor's instructions, which have commands of their own. -/
def isDarienor (w : Nat) : Bool :=
  w % 128 == 0x0B &&
    (match insF3 w with
      | 0 => bits w 23 9 == 0
      | 1 | 2 | 3 | 5 => insF7 w == 0
      | 4 => decide (insF7 w < 2)
      | 6 => decide (insF7 w < 4)
      | _ => false)

/-- The chip after a core executes its next instruction, where it is one of the standard extensions or one that none
implements. -/
def Chip.instrStep (c : Chip) (b k : Nat) : Chip :=
  let x := c.core b k
  match c.fetchAt b k x.pc with
  | none => c.trap b k causeFetchFault
  | some (w, len) =>
    if len = 4 ∧ isDarienor w then c
    else match (if len = 2 then expandC w else some w) with
      | none => c.trap b k causeIllegal
      | some w => (c.exWord x b k w len).apply b k

/-- GOUGE_INSTRUCTION (R112–R116, R132): a core executes its next instruction, where it is one of the standard extensions or
one that none implements; `o` is what its store reads show. -/
def execGougeInstruction (b : Fin 32) (k : Fin 60) (o : StoreObs 0x210000) (s : State) : Host.Outcome State Fault Refusal :=
  let c := s.chip
  if ¬ c.coreRuns b k then s.go c
  else s.go (c.coreStep b k o fun c => c.instrStep b k)

end Sys2Proof.Machine
end

