-- ==== Sys2Proof/Machine/Intake.lean ====
section
/-! DEFINITION. The camera intake: frames, their lines and samples (R136–R139, R417, R418). -/

namespace Sys2Proof.Machine

/-- The intake of a port on the bus, for its owner. -/
def Chip.camBus (c : Chip) (n : Nat) : Initiator := engineBus (c.camOwner n) (camHalf n) (0x200 + n)

/-- The chip after bytes are written for the frame in progress; a refused write stops and drops it (R418). -/
def Chip.camWrite (c : Chip) (n a : Nat) (bs : List Byte) : Chip :=
  match (c.cam n).cur with
  | some f =>
    if f.dropped then c
    else match c.engineCause (c.camBus n) true a bs.length .answered with
      | none => c.enginePut none (c.camBus n) a bs 0x31
      | some e =>
        ((c.camDrop n).busRefused none (c.camBus n) true e.1 e.2 0x31).evOf (camHalf n) 0x0B03 (c.camOwner n)
          [n, e.1, (c.camOwner n).toNat]
  | none => c

/-- The chip after the samples of a line are written to their planes (R137, R417). -/
def Chip.camSamples (c : Chip) (n y : Nat) (l : List (BitVec 16)) : Chip :=
  let e := c.camElem n
  let placed := l.zipIdx.filterMap fun p => (c.camPlace n y p.2).map fun q => (q, c.camConvert n q.1 p.2 (c.camSample n p.1))
  let excess := l.length - placed.length
  let sat := (placed.filter fun p => p.2.2).length
  let no := match (c.cam n).cur with | some f => f.no | none => 0
  let c := { c with freeCnt := c.freeCnt + l.length }
  let c := placed.foldl (fun c p => c.camWrite n (c.camElemAt n no p.1.1 p.1.2.1 p.1.2.2) (toLE e p.2.1)) c
  let c := (c.count (F.INTAKE_ERR_COUNT n) excess).count (F.INTAKE_CLAMP_CNT_COUNT n) sat
  match (c.cam n).cur with
  | some f => if sat = 0 then c else c.setCam n { c.cam n with cur := some { f with saturated := true } }
  | none => c

/-- The number of samples of a full line. -/
def Chip.camWidth (c : Chip) (n y : Nat) : Nat :=
  let w := c.q (F.INTAKE_SIZE_W n)
  match c.q (F.INTAKE_FMT_PIXFMT n) with
  | 5 | 6 => 2 * w
  | 7 => if y % 2 = 0 then w else 2 * w
  | _ => w

/-- The chip after the samples of a line that did not arrive are written as input 0 (R139). -/
def Chip.camFill (c : Chip) (n y from_ : Nat) : Chip :=
  let no := match (c.cam n).cur with | some f => f.no | none => 0
  let missing := c.camWidth n y - from_
  (List.range missing).foldl (fun (d : Chip) k =>
    match c.camPlace n y (from_ + k) with
    | some q => d.camWrite n (c.camElemAt n no q.1 q.2.1 q.2.2) (toLE (c.camElem n) (c.camConvert n q.1 k FV.zero).1)
    | none => d) { c with freeCnt := c.freeCnt + missing }

/-- The chip after the frame in progress ends, early or with its Frame End (R138, R139, R417). -/
def Chip.camEnd (c : Chip) (n : Nat) (early : Bool) : Chip :=
  match (c.cam n).cur with
  | none => c
  | some f =>
    let h := c.q (F.INTAKE_SIZE_H n)
    let short := decide (f.lines < h)
    let c := if early then (c.inc (F.INTAKE_TRUNC_COUNT n)).evOf (camHalf n) 0x0B01 (c.camOwner n) [n, f.no, f.lines] else c
    let c := (List.range (h - f.lines)).foldl (fun c k => c.camFill n (f.lines + k) 0) c
    let st := b2n (f.truncated || early || short) + 2 * b2n f.crcErr + 4 * b2n f.saturated
    let (eof, c) := c.camStamp n
    let hdr := toLE 4 f.no ++ toLE 4 st ++ toLE 8 f.sof ++ toLE 8 eof ++ toLE 2 f.lines ++ toLE 2 h ++ List.replicate 36 0
    let c := c.camWrite n (c.camBuf n f.no) hdr
    let dropped := match (c.cam n).cur with | some g => g.dropped | none => true
    let c := c.setCam n { c.cam n with cur := none }
    if dropped then c
    else
      let c := (c.setReg (Reg.INTAKE_SEQ n) f.no).inc (F.INTAKE_WRITTEN_COUNT n)
      (c.setCam n { c.cam n with dropRun := false }).signal 0 (c.q (F.INTAKE_DOWELS_FRAME_DOWEL n)) 0 f.no

/-- CSI_FRAME_START (R138, R417): a Frame Start packet of a virtual channel arrives at a port. -/
def execCsiFrameStart (n : Fin 16) (vc : Fin 16) (s : State) : Host.Outcome State Fault Refusal :=
  let c := s.chip
  if ¬ c.camOn n.val ∨ ¬ c.timeReady (camHalf n.val) then s.go c
  else if c.q (F.INTAKE_FMT_VC n.val) ≠ vc.val then s.go (c.inc (F.INTAKE_ERR_COUNT n.val))
  else
    let c := c.camEnd n.val true
    let x := c.cam n.val
    let no := x.no + 1
    let (t, c) := c.camStamp n.val
    let drop := decide (c.dowel (c.q (F.INTAKE_DOWELS_RELEASE_DOWEL n.val)) + (c.q (F.INTAKE_FMT_BUFS_M2 n.val) + 2) < no)
    let c := c.setCam n.val { x with no := no, cur := some ⟨no, t, 0, drop, false, false, false, c.stamp (camHalf n.val) 0⟩, dropRun := x.dropRun || drop }
    if drop then
      let c := c.inc (F.INTAKE_DROPPED_COUNT n.val)
      s.go (if x.dropRun then c else c.evOf (camHalf n.val) 0x0B00 (c.camOwner n.val) [n.val, no])
    else s.go c

/-- The chip after a long packet of the port's stream is taken as a line of the frame in progress. -/
def Chip.camLine (c : Chip) (n : Nat) (l : List (BitVec 16)) (crcOk : Bool) : Chip :=
  match (c.cam n).cur with
  | none => c.inc (F.INTAKE_ERR_COUNT n)
  | some f =>
    if c.q (F.INTAKE_SIZE_H n) ≤ f.lines then c.inc (F.INTAKE_ERR_COUNT n)
    else
      let y := f.lines
      let short := decide (l.length < c.camWidth n y)
      let c := c.setCam n { c.cam n with
        cur := some { f with lines := y + 1, truncated := f.truncated || short, crcErr := f.crcErr || !crcOk, lastAt := c.stamp (camHalf n) 0 } }
      let c := (c.camSamples n y l).camFill n y l.length
      if crcOk then c else (c.inc (F.INTAKE_CRC_ERR_COUNT n)).evOf (camHalf n) 0x0B02 (c.camOwner n) [n, f.no, y]

/-- CSI_LINE (R137, R417): a long packet arrives with its virtual channel, data type and samples in the order sent;
`hdrOk` if ECC left its header right, `crcOk` if its CRC is right. -/
def execCsiLine (n : Fin 16) (vc : Fin 16) (dt : Fin 64) (l : List (BitVec 16)) (hdrOk crcOk : Bool) (s : State) : Host.Outcome State Fault Refusal :=
  let c := s.chip
  if ¬ c.camOn n.val then s.go c
  else if ¬ hdrOk then s.go ((c.inc (F.INTAKE_ERR_COUNT n.val)).camEnd n.val true)
  else if c.q (F.INTAKE_FMT_VC n.val) ≠ vc.val ∨ c.camType n.val ≠ dt.val then s.go (c.inc (F.INTAKE_ERR_COUNT n.val))
  else s.go (c.camLine n.val l crcOk)

/-- CSI_FRAME_END (R138): a Frame End packet of a virtual channel arrives at a port. -/
def execCsiFrameEnd (n : Fin 16) (vc : Fin 16) (s : State) : Host.Outcome State Fault Refusal :=
  let c := s.chip
  if ¬ c.camOn n.val then s.go c
  else if c.q (F.INTAKE_FMT_VC n.val) ≠ vc.val then s.go (c.inc (F.INTAKE_ERR_COUNT n.val))
  else s.go (c.camEnd n.val false)

/-- FRAME_END_TIMEOUT (R417): no Frame End has arrived within `TIMEOUT_MS` of the last line. -/
def execFrameEndTimeout (n : Fin 16) (s : State) : Host.Outcome State Fault Refusal :=
  let c := s.chip
  match (c.cam n.val).cur with
  | some f =>
    if c.camOn n.val ∧ ((c.q (F.INTAKE_RATE_TIMEOUT_MS n.val) * 1000 * usUnits : Nat) : Int) ≤ elapsed (c.stamp (camHalf n.val) 0) f.lastAt
    then s.go (c.camEnd n.val true) else s.go c
  | none => s.go c

end Sys2Proof.Machine
end

