-- ==== Sys2Proof/Machine/Parting.lean ====
section
/-! DEFINITION. The Parting units (R155–R165): decode-and-suppress, crop-and-resize, completion. -/

namespace Sys2Proof.Machine

/-- The unit that runs a command: the one of the ring's half, or the other half's if that is disabled (R155). -/
def Chip.partingUnit (c : Chip) (m : Cmd) : Option Half :=
  [m.half, m.half.other].find? fun h => c.on (F.PARTING_CTL_ENABLE h.idx) && !c.down.get h && c.awake h

/-- The opcodes of the Parting units. -/
def partingOp (op : Nat) : Bool := op == 0x30 || op == 0x31

/-- A unit is free for a command: it runs none, and none of a higher class waits for it (R155, R285). -/
def Chip.partingFree (c : Chip) (u : Half) (m : Cmd) : Bool :=
  c.q (F.PARTING_STATUS_SUPPRESS u.idx) + c.q (F.PARTING_STATUS_CROP u.idx) == 0 &&
    !c.behind m partingOp fun e => c.partingUnit e == some u

/-- Engine number of a Parting unit in event details. -/
def engineParting : Nat := 0x30

/-- A unit that runs a command, on the bus: it accesses memory as a Carriage does (R155). -/
def Cmd.partingBus (m : Cmd) : Initiator := engineBus m.owner (Half.ofIdx m.unit) (0x160 + m.unit)

/-- The chip after a command of a unit ends at an access that cannot be made: its status, its `detail` in the layout of R226, and
its event, where the read itself has not just found its data uncorrectable. -/
def Chip.endAccess (c : Chip) (m : Cmd) (write : Bool) (e : Bool × Nat × Nat) : Chip :=
  let c := c.setCmd { m.endAt e.2.1 e.2.2 with stage := .done }
  if e.1 then c else c.busRefused (some m) m.partingBus write e.2.1 e.2.2 engineParting

/-- What a unit reads for a command at some addresses, `n` bytes each, in order, or the first that gives none (R155, R208–R210). -/
def Chip.partingReads (c : Chip) (m : Cmd) (far : Far) (o : Seen) (n : Nat) : List Nat → Except (Bool × Nat × Nat) (List (List Byte)) × Chip
  | [] => (.ok [], c)
  | a :: l => match c.engineSee m m.partingBus a n engineParting far o with
    | (.error e, c) => (.error e, c)
    | (.ok bs, c) => match c.partingReads m far o n l with
      | (.error e, c) => (.error e, c)
      | (.ok r, c) => (.ok (bs :: r), c)

/-- The chip after a unit writes bytes for a command, or where and why it cannot (R155). -/
def Chip.partingWrite (c : Chip) (m : Cmd) (far : Far) (a : Nat) (bs : List Byte) : Except (Nat × Nat) Chip :=
  match c.engineCause m.partingBus true a bs.length far with
  | some e => .error e
  | none => .ok (c.enginePut (some m) m.partingBus a bs engineParting)

/-- A decoded candidate: its index, class, score and box. -/
structure Cand where
  idx : Nat
  cls : Nat
  score : FV
  y1 : FV
  x1 : FV
  y2 : FV
  x2 : FV
deriving DecidableEq, Repr

/-- Decodes a candidate in FP32 (R158); `anchor` is its anchor record, `d0` the number of the first free draw. Where one operand of
the minimum is no number the other stands (assumption 126). -/
def decodeCand (m : Cmd) (i : Nat) (cand anchor : List Byte) (d0 : Nat) : Cand :=
  let h16 (k : Nat) := fp16.decode (leNat ((cand.drop (2 * k)).take 2))
  let an (k : Nat) := fp32.decode (leNat ((anchor.drop (4 * k)).take 4))
  let v (k : Nat) := fp16.decode (m.fld 6 (16 * k) 16)
  let score := h16 4
  let cls := leNat ((cand.drop 10).take 2)
  if bit (m.word 2) 63 then
    let s := fp32.decode (m.fld 5 32 32)
    ⟨i, cls, score, mul32 s (h16 0), mul32 s (h16 1), mul32 s (h16 2), mul32 s (h16 3)⟩
  else
    let clip := fp32.decode (m.fld 5 0 32)
    let half := FV.fin false 1 (-1)
    let ex (k draw : Nat) := expFree (Config.freeValue draw) (FV.min (mul32 (h16 k) (v k)) clip)
    let cy := add32 (an 0) (mul32 (mul32 (h16 0) (v 0)) (an 2))
    let cx := add32 (an 1) (mul32 (mul32 (h16 1) (v 1)) (an 3))
    let hh := mul32 (mul32 (an 2) (ex 2 d0)) half
    let ww := mul32 (mul32 (an 3) (ex 3 (d0 + 1))) half
    ⟨i, cls, score, sub32 cy hh, sub32 cx ww, add32 cy hh, add32 cx ww⟩

/-- A candidate is valid (R158). -/
def Cand.valid (c : Cand) : Bool :=
  ([c.y1, c.x1, c.y2, c.x2].all fun v => !v.isNan && !v.isInf) && FV.lt c.y1 c.y2 && FV.lt c.x1 c.x2 && !c.score.isNan

/-- The overlap of two boxes: an FP32 value within 2⁻²¹ of the exact one, relative (R159). -/
def iou (draw : Nat) (a b : Cand) : FV :=
  let area (c : Cand) := (c.y2.add c.y1.neg).mul (c.x2.add c.x1.neg)
  let side (lo lo' hi hi' : FV) := FV.max FV.zero ((FV.min hi hi').add (FV.max lo lo').neg)
  let i := (side a.y1 b.y1 a.y2 b.y2).mul (side a.x1 b.x1 a.x2 b.x2)
  let x := i.div ((area a).add ((area b).add i.neg))
  within (Config.freeValue draw) x (x.scale (-21))

/-- Inserts a candidate in order of score, descending, equal scores by lower index first (R159). -/
def insertCand (c : Cand) : List Cand → List Cand
  | [] => [c]
  | d :: t => if FV.lt d.score c.score || (FV.eq d.score c.score && decide (c.idx < d.idx)) then c :: d :: t else d :: insertCand c t

/-- Greedy suppression over a sorted list (R159); `d0` numbers the free draws. -/
def suppress (maxOut : Nat) (perClass : Bool) (maxPer : Nat) (iouMax : FV) (d0 : Nat) : List Cand → List Cand → List Cand
  | [], keep => keep
  | i :: rest, keep =>
    if maxOut ≤ keep.length then keep
    else if perClass && decide (0 < maxPer) && (keep.filter fun k => k.cls == i.cls).length == maxPer then
      suppress maxOut perClass maxPer iouMax d0 rest keep
    else if keep.any fun k => (!perClass || k.cls == i.cls) && FV.lt iouMax (iou (d0 + 4096 * i.idx + k.idx) i k) then
      suppress maxOut perClass maxPer iouMax d0 rest keep
    else suppress maxOut perClass maxPer iouMax d0 rest (keep ++ [i])

/-- The bytes of a detection record (R160). -/
def Cand.bytes (c : Cand) : List Byte :=
  toLE 4 (toFp32 c.y1) ++ toLE 4 (toFp32 c.x1) ++ toLE 4 (toFp32 c.y2) ++ toLE 4 (toFp32 c.x2) ++ toLE 4 (toFp32 c.score) ++
    toLE 2 c.cls ++ [0, 0] ++ toLE 4 c.idx ++ [0, 0, 0, 0]

/-- Stores records one after another, stopping at the first that cannot be written; those already written stay written. -/
def Chip.storeEach (c : Chip) (m : Cmd) (far : Far) : Nat → List (List Byte) → Chip × Option (Nat × Nat)
  | _, [] => (c, none)
  | a, r :: rs =>
    match c.partingWrite m far a r with
    | .error e => (c, some e)
    | .ok c => c.storeEach m far (a + r.length) rs

/-- Address of a candidate, of its anchor where the encoding has one (R156). -/
def Cmd.candAddr (m : Cmd) (i : Nat) : Nat := alignDown (m.fld 1 0 48) 16 + 16 * i
def Cmd.anchorAddr (m : Cmd) (cand : List Byte) : Nat := m.fld 2 0 48 + 16 * leNat (cand.drop 12)
def Cmd.corners (m : Cmd) : Bool := bit (m.word 2) 63

/-- Reads and decodes candidates in order (R156–R158); `d0` is the number of the first free draw. -/
def Chip.candidates (c : Chip) (m : Cmd) (far : Far) (o : Seen) (d0 : Nat) : List Nat → Except (Bool × Nat × Nat) (List Cand) × Chip
  | [] => (.ok [], c)
  | i :: l => match c.engineSee m m.partingBus (m.candAddr i) 16 engineParting far o with
    | (.error e, c) => (.error e, c)
    | (.ok cand, c) => match c.partingReads m far o 16 (if m.corners then [] else [m.anchorAddr cand]) with
      | (.error e, c) => (.error e, c)
      | (.ok anchor, c) => match c.candidates m far o d0 l with
        | (.error e, c) => (.error e, c)
        | (.ok r, c) => (.ok (decodeCand m i cand (anchor.getD 0 []) (d0 + 2 * i) :: r), c)

/-- The chip while a unit works for a command. -/
def Chip.partingBusy (c : Chip) (u : Half) (m : Cmd) (crop : Bool) : Chip :=
  let c := c.put (F.PARTING_STATUS_OWNER u.idx) m.owner.toNat
  if crop then c.put (F.PARTING_STATUS_CROP u.idx) 1 else c.put (F.PARTING_STATUS_SUPPRESS u.idx) 1

/-- The chip after the kept detections of a command are written in order and its detail is ready (R160). -/
def Chip.writeKept (c : Chip) (m : Cmd) (far : Far) (cands : List Cand) : Chip :=
  let nAll := m.fld 1 48 13
  let maxAll := m.fld 3 48 11
  let good := cands.filter Cand.valid
  let above := good.filter fun k => FV.le (fp32.decode (m.fld 4 0 32)) k.score
  let sorted := above.foldl (fun l k => insertCand k l) []
  let keep := suppress (min maxAll 1024) (bit (m.word 2) 62) (m.fld 2 48 11) (fp32.decode (m.fld 4 32 32)) (c.freeCnt + 8192) sorted []
  let c := { c with freeCnt := c.freeCnt + 8192 + 4096 * 4096 }
  let detail := keep.length + (cands.length - good.length) * 2 ^ 16 + above.length * 2 ^ 32 + b2n (decide (4096 < nAll)) * 2 ^ 48 +
    b2n (decide (1024 < maxAll)) * 2 ^ 49
  match c.storeEach m far (alignDown (m.fld 3 0 48) 32) (keep.map Cand.bytes) with
  | (c, some e) => c.endAccess m true (false, e)
  | (c, none) => c.setCmd { m with n := detail, empty := keep.isEmpty }

/-- The chip after a decode-and-suppress command has run on a unit; its completion is still to be posted (R156–R160). -/
def Chip.decodeSuppress (c : Chip) (u : Half) (m : Cmd) (far : Far) (o : Seen) : Chip :=
  let c := c.partingBusy u m false
  let m := { m with stage := .done, unit := u.idx }
  let n := min (m.fld 1 48 13) 4096
  match c.candidates m far o c.freeCnt (List.range n) with
  | (.error e, c) => c.endAccess m false e
  | (.ok cands, c) => c.writeKept m far cands

/-- DECODE_AND_SUPPRESS (R159): the command runs on its unit while the unit is free. `far` says how its accesses through windows
end, `o` what its reads show. -/
def execDecodeAndSuppress (id : CmdId) (s : State) (far : Far := .answered) (o : Seen := []) : Host.Outcome State Fault Refusal :=
  match s.chip.takeable id partingOp with
  | some m => match s.chip.partingUnit m with
    | some u => if m.opcode = 0x30 ∧ s.chip.partingFree u m = true
      then s.go (s.chip.decodeSuppress u m far o) else s.go s.chip
    | none => s.go s.chip
  | none => s.go s.chip

/-! ### Crop-and-resize (R162, R163) -/

/-- The largest integer not above a finite value. -/
def FV.floor (v : FV) : Int := (FV.toInt .rdn v).getD 0

/-- Input and output formats of a command; address of an input element, of a box, of an output element (R162, R163). -/
def Cmd.cropIn (m : Cmd) : Nat := m.fld 1 60 4
def Cmd.cropFmt (m : Cmd) : Nat := cvtFmt (m.fld 4 48 8)
def Cmd.elemAddr (m : Cmd) (ch y x : Nat) : Nat :=
  alignDown (m.fld 1 0 48) 64 + ch * m.fld 2 0 32 + y * m.fld 5 32 32 + x * (codeWidth m.cropIn / 8)
def Cmd.boxAddr (m : Cmd) (b : Nat) : Nat := alignDown (m.fld 3 0 48) 32 + 32 * b
def Cmd.cropAddr (m : Cmd) (b k i j : Nat) : Nat :=
  alignDown (m.fld 4 0 48) 64 + (((b * (m.fld 1 48 12 + 1) + k) * (m.fld 5 0 8 + 1) + i) * (m.fld 5 8 8 + 1) + j) * (codeWidth m.cropFmt / 8)

/-- A coordinate clamped to 0 … n − 1; to 0 where there is no element (assumption 127). -/
def clampTo (n : Nat) (v : FV) : FV := FV.min (FV.max v FV.zero) (FV.ofInt ((n - 1 : Nat) : Int))

/-- A point within 2⁻¹⁶ of another, from two free draws: taken together the distances stay within that, or are 0 (R163). -/
def nearPoint (d0 : Nat) (p : FV × FV) : FV × FV :=
  let off (k : Nat) : FV := (FV.ofInt (sgn 32 (Config.freeValue (d0 + k)).toNat)).scale (-47)
  let (dy, dx) := (off 0, off 1)
  if FV.le ((dy.mul dy).add (dx.mul dx)) (pow2 (-32)) then (p.1.add dy, p.2.add dx) else p

/-- The point of an output element before its pixel is read (R163). -/
def Cmd.cropPoint (m : Cmd) (box : List FV) (i j d0 : Nat) : FV × FV :=
  let inH := m.fld 2 48 16
  let inW := m.fld 2 32 16
  let half := FV.fin false 1 (-1)
  let pos (lo hi : FV) (k n : Nat) : FV :=
    (lo.add (((FV.ofInt k).add half).mul ((hi.add lo.neg).div (FV.ofInt n)))).add half.neg
  let b (k : Nat) := box.getD k FV.zero
  let p := nearPoint d0 (clampTo inH (pos (b 0) (b 2) i (m.fld 5 0 8 + 1)), clampTo inW (pos (b 1) (b 3) j (m.fld 5 8 8 + 1)))
  (clampTo inH p.1, clampTo inW p.2)

/-- The four neighbours of a point: row, next row, column, next column. -/
def Cmd.neighbours (m : Cmd) (p : FV × FV) : Nat × Nat × Nat × Nat :=
  let y := p.1.floor.toNat
  let x := p.2.floor.toNat
  (y, min (y + 1) (m.fld 2 48 16 - 1), x, min (x + 1) (m.fld 2 32 16 - 1))

/-- One output element of a crop, within the bounds of R163; `d0` numbers its three free draws. -/
def Chip.sample (c : Chip) (m : Cmd) (far : Far) (o : Seen) (box : List FV) (ch i j d0 : Nat) : Except (Bool × Nat × Nat) FV × Chip :=
  let (sy, sx) := m.cropPoint box i j d0
  let (y0, ya, x0, xa) := m.neighbours (sy, sx)
  match c.partingReads m far o (codeWidth m.cropIn / 8) [m.elemAddr ch y0 x0, m.elemAddr ch y0 xa, m.elemAddr ch ya x0, m.elemAddr ch ya xa] with
  | (.error e, c) => (.error e, c)
  | (.ok bs, c) =>
    let v (k : Nat) : FV := codeValue m.cropIn (leNat (bs.getD k []))
    let fy := sy.add (FV.ofInt y0).neg
    let fx := sx.add (FV.ofInt x0).neg
    let top := (v 0).add (fx.mul ((v 1).add (v 0).neg))
    let bot := (v 2).add (fx.mul ((v 3).add (v 2).neg))
    let big := [v 0, v 1, v 2, v 3].foldl (fun a v => FV.max a v.abs) FV.zero
    (.ok (within (Config.freeValue (d0 + 2)) (top.add (fy.mul (bot.add top.neg))) (big.scale (-20))), c)

/-- A box with a coordinate that is not finite. -/
def badBox (box : List FV) : Bool := box.any fun v => v.isNan || v.isInf

/-- One output element with its conversion: pattern and saturation; a non-finite box gives NaN (R163). -/
def Chip.cropOut (c : Chip) (m : Cmd) (far : Far) (o : Seen) (box : List FV) (ch i j d0 : Nat) : Except (Bool × Nat × Nat) (Nat × Bool) × Chip :=
  let cvt := m.fld 4 48 8
  match (if badBox box then (.ok FV.nan, c) else c.sample m far o box ch i j d0) with
  | (.error e, c) => (.error e, c)
  | (.ok v, c) =>
    let sr := m.owner.part != 0 && decide (2 ≤ m.cls)
    (.ok (convert (cvtFmt cvt) (cvtSat cvt) (cvtRm cvt sr (Config.freeValue (d0 + 3)).toNat) v), c)

/-- Every output position of one box: channel, row, column. -/
def cropPositions (ch oh ow : Nat) : List (Nat × Nat × Nat) :=
  (List.range ch).flatMap fun c => (List.range oh).flatMap fun i => (List.range ow).map fun j => (c, i, j)

/-- How far a crop command has come: the chip, the values that saturated, and where it stopped, at a write or a read. -/
structure CropRun where
  chip : Chip
  sat : Nat
  stop : Option (Bool × Bool × Nat × Nat)
deriving Repr

/-- The run after one output element. -/
def CropRun.elem (x : CropRun) (m : Cmd) (far : Far) (o : Seen) (box : List FV) (b : Nat) (p : Nat × Nat × Nat) : CropRun :=
  if x.stop.isSome then x
  else
    let c := x.chip
    let (k, i, j) := p
    match { c with freeCnt := c.freeCnt + 4 }.cropOut m far o box k i j c.freeCnt with
    | (.error e, c) => { x with chip := c, stop := some (false, e) }
    | (.ok (pat, s), c) =>
      match c.partingWrite m far (m.cropAddr b k i j) (toLE (codeWidth m.cropFmt / 8) pat) with
      | .error e => ⟨c, x.sat + b2n s, some (true, false, e)⟩
      | .ok c => ⟨c, x.sat + b2n s, none⟩

/-- The run after one box of a crop command. -/
def CropRun.box (x : CropRun) (m : Cmd) (far : Far) (o : Seen) (b : Nat) : CropRun :=
  if x.stop.isSome then x
  else match x.chip.engineSee m m.partingBus (m.boxAddr b) 16 engineParting far o with
  | (.error e, c) => { x with chip := c, stop := some (false, e) }
  | (.ok bs, c) =>
    let box := (List.range 4).map fun k => fp32.decode (leNat ((bs.drop (4 * k)).take 4))
    (cropPositions (m.fld 1 48 12 + 1) (m.fld 5 0 8 + 1) (m.fld 5 8 8 + 1)).foldl (fun x p => x.elem m far o box b p) { x with chip := c }

/-- The command's outcome is unpredictable: more than 1,024 boxes, or a format outside the lists (R162). -/
def Cmd.cropWild (m : Cmd) : Bool :=
  decide (1024 < m.fld 3 48 11) || !([0, 4, 5, 6].contains m.cropIn) || !([0, 2, 3, 4, 5, 6].contains m.cropFmt)

/-- The chip after a command whose outcome is unpredictable has run: free bytes where its outputs go, as far as they may go there,
and a free `detail` (R4). -/
def Chip.cropFree (c : Chip) (m : Cmd) (far : Far) : Chip :=
  let a := alignDown (m.fld 4 0 48) 64
  let c := match c.place m a (c.freeBytes (m.cropAddr (m.fld 3 48 11) 0 0 0 - a)) far with
    | .error _ => c
    | .ok c => c
  let (d, c) := { c with freeCnt := c.freeCnt + 1 }.draw
  c.setCmd { m with n := d }

/-- The chip after a crop-and-resize command has run on a unit; its completion is still to be posted (R162, R163). -/
def Chip.cropResize (c : Chip) (u : Half) (m : Cmd) (far : Far) (o : Seen) : Chip :=
  let c := c.partingBusy u m true
  let m := { m with stage := .done, unit := u.idx }
  let n := m.fld 3 48 11
  if m.cropWild then c.cropFree m far
  else
    let r := (List.range n).foldl (fun x b => CropRun.box x m far o b) ⟨c, 0, none⟩
    let m := { m with n := n, empty := decide (n = 0), clamped := m.clamped || decide (0 < r.sat) }
    match r.stop with
    | some e => r.chip.endAccess m e.1 e.2
    | none => r.chip.setCmd m

/-- CROP_AND_RESIZE (R163): the command runs on its unit while the unit is free. `far` says how its accesses through windows end,
`o` what its reads show. -/
def execCropAndResize (id : CmdId) (s : State) (far : Far := .answered) (o : Seen := []) : Host.Outcome State Fault Refusal :=
  match s.chip.takeable id partingOp with
  | some m => match s.chip.partingUnit m with
    | some u => if m.opcode = 0x31 ∧ s.chip.partingFree u m = true
      then s.go (s.chip.cropResize u m far o) else s.go s.chip
    | none => s.go s.chip
  | none => s.go s.chip

/-- PARTING_COMPLETION (R160): a command that has run posts its completion with its `detail`; its unit counts it, and counts it
again where values of it saturated (R165). -/
def execPartingCompletion (id : CmdId) (s : State) : Host.Outcome State Fault Refusal :=
  match s.chip.cmd? id with
  | some m =>
    if m.stage = .done ∧ partingOp m.opcode then
      let c := s.chip
      let c := if m.clamped then c.inc (F.PARTING_CLAMP_CNT_COUNT m.unit) else c
      s.go ((c.countPair (Reg.PARTING_CMD_CNT_LO m.unit) (Reg.PARTING_CMD_CNT_HI m.unit) 1).complete m m.n)
    else s.go s.chip
  | none => s.go s.chip

end Sys2Proof.Machine
end

