-- ==== Sys2Proof/Machine/Peer.lean ====
section
/-! DEFINITION. Peer links, the fabric, requests from other devices, and the PCIe ports (R304–R306, R498–R515); accesses of
the application cores (R456, R508). -/

namespace Sys2Proof.Machine

/-! ### Accesses that end without an answer (R506, R507, R513) -/

/-- The chip after a transaction ends without an answer, with a cause of R226; its move goes on to its end. -/
def Chip.txnGone (c : Chip) (t k : Nat) : Chip :=
  match Tbl.find? c.txns t with
  | none => c
  | some x =>
    let c := c.endTxn t x.id
    match c.cmd? x.id with
    | none => c
    | some m => if m.stage = .running then c.moveFault m x.write x.addr k else c

/-- The chip after what waits on links looks again: the transactions of both halves, and the copies. -/
def Chip.pumpAll (c : Chip) : Chip :=
  (([Half.H, Half.T].filter fun h => !c.down.get h).foldl (fun (c : Chip) h => c.pump h) c).sendCopies

/-- The chip after every access through a window that `p` picks is lost: moves and copies complete with REMOTE_LOST
(R506, R513). -/
def Chip.windowLost (c : Chip) (p : Nat → Bool) : Chip :=
  let c := (c.txns.filter fun (e : Nat × Txn) => p e.2.addr).foldl (fun (c : Chip) (e : Nat × Txn) => c.txnGone e.1 10) c
  let c := c.cores.foldl (fun (c : Chip) (e : Nat × Core) => e.2.copies.foldl (fun (c : Chip) (y : Nat × GCopy) =>
    match y.2.window with
    | some a => if p a ∧ ¬ y.2.ended then c.copyGone (e.1 / 64) (e.1 % 64) y.1 .remoteLost else c
    | none => c) c) c
  c.pumpAll

/-- An access that has left the device and waits for an answer: its half, owner ID, address, whether it is a read, the
stamp at which it left. -/
def Chip.farWait (c : Chip) (r : FarRef) : Option (Half × Owner × Nat × Bool × Nat) :=
  match r with
  | .txn t => match Tbl.find? c.txns t with
    | some x => x.sent.map fun s => (x.half, x.owner, x.addr, !x.write, s)
    | none => none
  | .copy b k tag =>
    match Tbl.find? (c.core b k).copies tag.val with
    | some g =>
      match g.window, g.sent with
      | some a, some s => if g.ended then none
        else some (benchHalf b, g.drop.getD (BitVec.ofNat 13 (c.q (F.BENCH_STATUS_OWNER b))), a, slSpace g.src == 0 && slBase g.src == a, s)
      | _, _ => none
    | none => none

/-- The chip after an access that waits ends with REMOTE_TIMEOUT. -/
def Chip.farTimeout (c : Chip) (r : FarRef) : Chip :=
  match r with
  | .txn t => c.txnGone t 9
  | .copy b k tag => c.copyGone b k tag .remoteTimeout

/-- PEER_ACCESS_TIMEOUT (R507): an access to a peer window has had no answer for `TIMEOUT_US`. -/
def execPeerAccessTimeout (r : FarRef) (s : State) : Host.Outcome State Fault Refusal :=
  let c := s.chip
  match c.farWait r with
  | none => s.go c
  | some (h, o, a, _, sent) =>
    if ¬ isPeer a ∨ c.down.get h ∨ ageUs (c.stamp h 0) sent < c.q (F.PEER_CTL_TIMEOUT_US h.idx) then s.go c
    else
      let n := fabricOf a
      let c := c.inc (F.PEER_TIMEOUT_CNT_COUNT h.idx)
      let c := if c.peerRuns.contains n then c else { (c.evOf h 0x0F11 o [n, a, o.toNat]) with peerRuns := n :: c.peerRuns }
      s.go ((c.farTimeout r).pump h)

/-- PCIE_COMPLETION_TIMEOUT (R513): a non-posted request has had no completion for `CPL_TO_US`; a write waits on the
zero-length read that follows the move's last one. -/
def execPcieCompletionTimeout (r : FarRef) (s : State) : Host.Outcome State Fault Refusal :=
  let c := s.chip
  match c.farWait r with
  | none => s.go c
  | some (h, o, a, _, sent) =>
    let p := pcieHalf a
    if ¬ isPcie a ∨ c.down.get h ∨ ageUs (c.stamp h 0) sent < c.q (F.PCIE_CTL_CPL_TO_US p.idx) then s.go c
    else s.go (((((c.inc (F.PCIE_CPL_TO_CNT_COUNT p.idx)).evOf p 0x0F21 o [p.idx, a, o.toNat])).farTimeout r).pump h)

/-- The chip after a device is lost: its pending accesses complete with REMOTE_LOST; cause 0 no link, 1 incarnation (R506). -/
def Chip.deviceLost (c : Chip) (h : Half) (n cause : Nat) : Chip :=
  let c := c.putBoth (fun k => F.PEER_DEV_LOST k n) 1
  let c := ([Half.H, Half.T].filter fun h => !c.down.get h).foldl (fun (c : Chip) h => c.inc (F.PEER_LOST_CNT_COUNT h.idx)) c
  (c.ev h 0x0F09 [n, cause]).windowLost fun a => isPeer a && fabricOf a == n

/-- DEVICE_LOST (R506): no half has held an up link in its entry of a device for 1 ms. -/
def execDeviceLost (n : Fin 64) (s : State) : Host.Outcome State Fault Refusal :=
  let c := s.chip
  let h := c.firstUp
  if ¬ c.noLink n ∨ c.on (F.PEER_DEV_LOST h.idx n) ∨ n.val = c.q (F.PEER_CTL_FABRIC_NO h.idx) ∨ c.down.get h ∨
      ageUs c.now (Tbl.look 0 c.linkless n.val) < 1000 then s.go c
  else s.go (c.deviceLost h n.val 0)

/-! ### Links (R499–R503) -/

/-- What a link keeps beside its registers. -/
def Chip.linkSt (c : Chip) (l : Nat) : LinkSt := Tbl.look LinkSt.zero c.links l
def Chip.setLinkSt (c : Chip) (l : Nat) (x : LinkSt) : Chip := { c with links := Tbl.put LinkSt.zero c.links l x }

/-- FLIT_REPLAY (R499): a flit failed its CRC; more than eight replays in succession retrain the link. -/
def execFlitReplay (h : Half) (l : Fin 8) (first : Bool) (s : State) : Host.Outcome State Fault Refusal :=
  let c := s.chip
  let k := 8 * h.idx + l
  if ¬ c.linkUp k ∨ c.down.get h then s.go c
  else
    let old := c
    let n := if first then 1 else (c.linkSt k).replays + 1
    let c := c.inc (F.PEER_LINK_REPLAY_COUNT h.idx l)
    if n ≤ 8 then s.go (c.setLinkSt k { c.linkSt k with replays := n })
    else
      let c := (c.setLinkSt k { c.linkSt k with replays := 0 }).put (F.PEER_LINK_STATUS_STATE h.idx l) 1
      s.go ((c.syncLinks old).ev h 0x0F00 [k, 1, c.q (F.PEER_LINK_STATUS_FAR_NO h.idx l)])

/-- Lanes of a link that have failed. -/
def Chip.lanesFailed (c : Chip) (h : Half) (l : Nat) : Nat :=
  ((List.range 5).filter fun k => bit (c.q (F.PEER_LINK_STATUS_LANE_FAIL h.idx l)) k).length

/-- The chip after the width and the spare of a link follow its healthy lanes (R501). -/
def Chip.setLanes (c : Chip) (h : Half) (l : Nat) : Chip :=
  let n := c.lanesFailed h l
  let spare := decide (c.q (F.PEER_LINK_STATUS_LANE_FAIL h.idx l) % 16 ≠ 0) && !bit (c.q (F.PEER_LINK_STATUS_LANE_FAIL h.idx l)) 4
  (c.put (F.PEER_LINK_STATUS_WIDTH h.idx l) (if n ≤ 1 then 2 else if n ≤ 3 then 1 else 0)).put (F.PEER_LINK_STATUS_SPARE_USED h.idx l) (b2n spare)

/-- The incarnation of the device, drawn at the first training of a start (R503). -/
def Chip.ownIncarnation (c : Chip) : Chip :=
  match c.incarnation with
  | some _ => c
  | none => let (v, c) := c.draw; { c with incarnation := some (v % 2 ^ 32) }

/-- A fabric number received in training is this device's own, or is that of another device on another link (R503). -/
def Chip.numberClash (c : Chip) (l far dev : Nat) : Bool :=
  c.q (F.PEER_CTL_FABRIC_NO (l / 8)) == far ||
    ((List.range 16).any fun k => k != l && c.linkUp k && c.q (F.PEER_LINK_STATUS_FAR_NO (k / 8) (k % 8)) == far && (c.linkSt k).farId != dev)

/-- LINK_TRAINING (R503, R506): a link trains with a far end that gives its fabric number, device ID and incarnation. -/
def execLinkTraining (h : Half) (l : Fin 8) (far : Fin 64) (dev : BitVec 128) (inc : Word) (s : State) : Host.Outcome State Fault Refusal :=
  let c := s.chip
  let k := 8 * h.idx + l
  if c.down.get h ∨ ¬ bit (c.q (F.PEER_CTL_LINK_EN h.idx)) l ∨ c.linkUp k ∨ 3 < c.lanesFailed h l then s.go c
  else
    let c := c.ownIncarnation
    let d := dev.toNat
    let c := (c.setLinkSt k ⟨0, c.stamp h 0, d, inc.toNat⟩).put (F.PEER_LINK_STATUS_FAR_NO h.idx l) far
    if c.numberClash k far d then
      s.go ((c.put (F.PEER_LINK_STATUS_STATE h.idx l) 4).ev h 0x0F0A [k, far, d % 2 ^ 64, d / 2 ^ 64])
    else
      let c := match Tbl.find? c.farDevs far.val with
        | some e => if e.2 = inc.toNat ∨ c.on (F.PEER_DEV_LOST h.idx far) then c else c.deviceLost h far.val 1
        | none => c
      let old := c
      let c := { ((c.put (F.PEER_LINK_STATUS_STATE h.idx l) 2).setLanes h l) with farDevs := Tbl.ins c.farDevs far.val (d, inc.toNat) }
      let c := c.ev h 0x0F00 [k, 2, far]
      s.go ((c.deviceFound h far.val).syncLinks old).pumpAll

/-- The record of a lane change (R501, R534). -/
def Chip.laneChange (c : Chip) (h : Half) (d : List Nat) : Chip := c.ledger h 4 (wearBody d) (c.wearSets wearWords)

/-- LANE_FAILURE (R501): a lane loses lock, or its error correction corrects too many symbols. -/
def execLaneFailure (h : Half) (l : Fin 8) (lane : Fin 5) (s : State) : Host.Outcome State Fault Refusal :=
  let c := s.chip
  let k := 8 * h.idx + l
  let f := F.PEER_LINK_STATUS_LANE_FAIL h.idx l
  if c.down.get h ∨ bit (c.q f) lane then s.go c
  else
    let c := c.put f (c.q f + 2 ^ lane.val)
    let up := c.linkUp k
    let c := if up then c.setLanes h l else c
    let n := c.lanesFailed h l
    let far := c.q (F.PEER_LINK_STATUS_FAR_NO h.idx l)
    if n = 1 then
      if lane.val = 4 then s.go c
      else s.go (((c.ev h 0x0F01 [k, lane]).laneChange h [k, lane]).spareTaken h 7 k 4 1)
    else if n = 2 then s.go (((c.ev h 0x0F02 [k, c.q f]).laneChange h [k, c.q f]).wearCause h 6)
    else if n = 3 then s.go c
    else if n = 4 then
      let c := if up then c.linkDown h l else c
      s.go ((c.laneChange h [k, 0, far]).wearCause h 6)
    else s.go c

/-- LINK_IDLE (R502, R517): a link that has carried no flit for `IDLE_10US` × 10 µs, or any idle link of a half in LOW,
enters LOW. -/
def execLinkIdle (h : Half) (l : Fin 8) (s : State) : Host.Outcome State Fault Refusal :=
  let c := s.chip
  let st := F.PEER_LINK_STATUS_STATE h.idx l
  let idle := c.q (F.PEER_CTL_IDLE_10US h.idx)
  let quiet := c.q (F.POWER_STATUS_STATE h.idx) = 1 ∨
    (idle ≠ 0 ∧ 10 * idle ≤ ageUs (c.stamp h 0) (c.linkSt (8 * h.idx + l)).lastFlit)
  if c.down.get h ∨ c.q st ≠ 2 ∨ ¬ quiet then s.go c else s.go (c.put st 3)

/-! ### Requests from outside (R216, R452, R505) -/

/-- An address whose ownership entry must have `REMOTE` for a request from outside (R452). -/
def needsRemote (a : Nat) : Bool := inDram a || isPcie a

/-- A flag of the ownership entry of an address: `EXEC` is bit 17, `REMOTE` bit 18 (R452). -/
def Chip.ownFlag (c : Chip) (a k : Nat) : Bool :=
  match ownIndex a with
  | some i => bit (c.ownAt i) k
  | none => false

/-- Why an access of an initiator at one address is refused, `REMOTE` included where the request is from outside. -/
def Chip.outCause (c : Chip) (i : Initiator) (remote write : Bool) (a : Nat) : Nat :=
  match c.busCause i write a with
  | 0 => if remote && needsRemote a && !c.ownFlag a 18 then 1 else 0
  | k => k

/-- Bytes that nothing states. -/
def Chip.freeData (c : Chip) (n : Nat) : List Byte × Chip := (c.freeBytes n, { c with freeCnt := c.freeCnt + 1 })

/-- An access of an initiator to `len` bytes of the device's own addresses: what it answers, or the first refused address
and its cause, with whether the read has just found its data lost; the chip after it. `o` is what its reads show (R208–R210). -/
def Chip.outAccess (c : Chip) (i : Initiator) (remote write : Bool) (a len : Nat) (data : List Byte) (o : Seen) :
    Except (Bool × Nat × Nat) (List Byte) × Chip :=
  if a < 0x40000000 ∧ controlUsed a ∧ (len ≠ 4 ∨ a % 4 ≠ 0) then
    if write then (.ok [], c.regWrite i len a 0) else (.ok (List.replicate len 0), (c.busRead i a len).2)
  else match (granuleStarts a len).find? fun x => c.outCause i remote write x != 0 with
    | some x => (.error (false, x, c.outCause i remote write x), c)
    | none =>
      if a < 0x40000000 then
        if write then (.ok [], c.regWrite i len a (leNat (data.take 4)))
        else let (d, c) := c.busRead i a len; (.ok d, c)
      else
        let c := match addrHalf a with
          | some h => if i.via = Via.core ∧ h = i.half then c else c.wake h
          | none => c
        let c := c.pcieSent i.owner a
        if isPcie a then (if write then (.ok [], c) else let (d, c) := c.freeData len; (.ok d, c))
        else if write then (.ok [], c.store a (data.take len))
        else match c.poisoned a len with
          | some u => (.error (false, u, 4), c)
          | none =>
            let (e, c) := c.sight [(a, len)] o
            match e.lost with
            | some u => (.error (true, u, 4), c)
            | none => (.ok (if e.wrong then c.freeBytes len else c.load a len), { c with freeCnt := c.freeCnt + b2n e.wrong })

/-- The chip after a refused access of an initiator, beside the event of the port that it came through: a reserved address,
a bad check byte, poison that was there before, a dowel without the right (R200, R210, R217, R255). -/
def Chip.outRefused (c : Chip) (i : Initiator) (write : Bool) (e : Bool × Nat × Nat) : Chip :=
  if e.1 then c
  else if e.2.2 ≠ 1 ∨ (0x20000000 ≤ e.2.1 ∧ e.2.1 < 0x20400000) then c.busRefused none i write e.2.1 e.2.2 i.port else c

/-- The chip with an answer to a request from outside. -/
def Chip.answerOut (c : Chip) (i : Initiator) (a : Nat) (data : List Byte) (err : Bool) : Chip :=
  { c with answer := some ⟨i.owner, i.port, a, BitVec.ofNat 64 (leNat (data.take 8)), data, err⟩ }

/-- PEER_REQUEST (R505): a request of another device acts under the owner ID that `PEER_MAP` gives it, or is refused. -/
def execPeerRequest (h : Half) (src : Fin 64) (write : Bool) (addr : BitVec 37) (len : Fin 257) (data : List Byte) (s : State) (o : Seen := []) :
    Host.Outcome State Fault Refusal :=
  let c := s.chip
  let a := addr.toNat
  let valid := c.on (F.PEER_MAP_VALID h.idx src)
  let p : Owner := if valid then BitVec.ofNat 13 (c.q (F.PEER_MAP_OWNER h.idx src)) else 0
  let i : Initiator := ⟨p, 0x300 + h.idx, h, .peer⟩
  let refused (c : Chip) : Chip :=
    ((c.inc (F.PEER_REFUSED_CNT_COUNT h.idx)).evOf h 0x0F10 p [src, a, p.toNat]).answerOut i a [] true
  if c.down.get h then s.go c
  else if ¬ valid then s.go (refused c)
  else match c.outAccess i true write a len data o with
    | (.error e, c) => s.go (refused (c.outRefused i write e))
    | (.ok d, c) => s.go (c.answerOut i a d false)

/-- PACKET_FORWARD (R500, R504): a packet for another device leaves under the receiving half's route table; one that would
be forwarded a fourth time is dropped. -/
def execPacketForward (h : Half) (src dst : Fin 64) (hops : Fin 4) (addr : BitVec 48) (s : State) : Host.Outcome State Fault Refusal :=
  let c := s.chip
  if c.down.get h ∨ dst.val = c.q (F.PEER_CTL_FABRIC_NO h.idx) then s.go c
  else if hops.val = 3 then s.go (c.ev h 0x0F18 [src, dst])
  else match c.routeOf h (0x4000000000 + dst.val * 2 ^ 37 + addr.toNat % 2 ^ 37) with
    | some l => s.go (c.flitOut l)
    | none => s.go c

/-! ### The PCIe ports (R510–R513) -/

/-- PCIE_LINK_CHANGE (R513): the link of a port comes up at a rate and width that the port allows, or goes down; what was
pending completes with REMOTE_LOST then. -/
def execPcieLinkChange (p : Half) (up : Bool) (speed width : Fin 4) (s : State) : Host.Outcome State Fault Refusal :=
  let c := s.chip
  let was := c.on (F.PCIE_STATUS_LINK_UP p.idx)
  let set (c : Chip) (v sp w : Nat) : Chip :=
    ((c.put (F.PCIE_STATUS_LINK_UP p.idx) v).put (F.PCIE_STATUS_SPEED p.idx) sp).put (F.PCIE_STATUS_WIDTH p.idx) w
  if c.down.get p then s.go c
  else if up then
    if c.q (F.PCIE_CTL_MAX_GEN p.idx) < speed ∨ c.q (F.PCIE_CTL_MAX_WIDTH p.idx) < width then s.go c
    else
      let c := set c 1 speed width
      s.go (if was then c else (c.ev p 0x0F20 [p.idx, speed, width]).pumpAll)
  else if ¬ was then s.go c
  else s.go (((set c 0 0 0).ev p 0x0F20 [p.idx, 0, 0]).windowLost fun a => isPcie a && pcieHalf a == p)

/-- The chip after an inbound request is refused: counted, with event 0x0F22 and an Unsupported Request completion (R511). -/
def Chip.unsupported (c : Chip) (p : Half) (r : PciReq) (i : Initiator) (a : Nat) : Chip :=
  ((c.inc (F.PCIE_UR_CNT_COUNT p.idx)).ev p 0x0F22 [p.idx, r.rid.toNat, a]).answerOut i a [] true

/-- The chip after an inbound request reaches an address of the device. -/
def Chip.inbound (c : Chip) (p : Half) (r : PciReq) (i : Initiator) (remote : Bool) (a : Nat) (o : Seen) : Chip :=
  match c.outAccess i remote r.write a r.len r.data o with
  | (.error e, c) => (c.outRefused i r.write e).unsupported p r i a
  | (.ok d, c) => if r.write then c else c.answerOut i a d false

/-- The chip after a request below a root port (R511): memory, an MSI, or nothing that the port supports. -/
def Chip.rootRequest (c : Chip) (p : Half) (r : PciReq) (i : Initiator) (a : Nat) (o : Seen) : Chip :=
  if inDram a ∧ a + r.len ≤ 0x2000000000 then c.inbound p r i false a o
  else if r.write ∧ a / 4096 = 0xFEE00 then c.raiseIrq p false (leNat r.data % 1024)
  else c.unsupported p r i a

/-- What a byte of an MSI-X table reads as before it is written: every vector masked, as PCI Express has it. -/
def msixReset (k : Nat) : Byte := if k % 16 = 12 then 1 else 0

/-- The chip after an access to an MSI-X table or pending-bit array: the first `n` bytes from `base` are the table of
function `vf`; the array reads as zero and takes no write. -/
def Chip.msixAccess (c : Chip) (p : Half) (r : PciReq) (i : Initiator) (a vf off n : Nat) : Chip :=
  let key (k : Nat) : Nat := 0x10000 * vf + off + k
  if r.write then
    (r.data.take r.len).zipIdx.foldl (fun (c : Chip) (e : Byte × Nat) => if off + e.2 < n then
      { c with msix := c.msix.set p (Tbl.put (msixReset (off + e.2)) (c.msix.get p) (key e.2) e.1) } else c) c
  else c.answerOut i a ((List.range r.len).map fun k => if off + k < n then Tbl.look (msixReset (off + k)) (c.msix.get p) (key k) else 0) false

/-- The chip after a request through BAR4 of the physical function, to a peer window (R512). -/
def Chip.windowRequest (c : Chip) (p : Half) (r : PciReq) (i : Initiator) (a : Nat) : Chip :=
  match c.portCause i r.write a with
  | 0 =>
    match (if c.windowGone p a then none else c.routeOf p a) with
    | none => if r.write then c else c.answerOut i a [] true
    | some l =>
      let c := c.flitOut l
      if r.write then c else let (d, c) := c.freeData r.len; c.answerOut i a d false
  | k => (c.outRefused i r.write (false, a, k)).unsupported p r i a

/-- The chip after a request to the physical function of an endpoint port (R306, R512). -/
def Chip.pfRequest (c : Chip) (p : Half) (r : PciReq) (bar off : Nat) (see : Seen) : Chip :=
  let own : Owner := BitVec.ofNat 13 (c.q (F.PCIE_OWNER_OWNER p.idx))
  let i : Initiator := ⟨own, 0x400 + p.idx, p, .pcie⟩
  let who : Option Owner := match r.pasid with
    | none => some own
    | some v =>
      if ¬ c.on F.VI_CTL_MODE then some own
      else ((List.range 256).find? fun n => c.viState n != 0 && (c.viGrant n).pasidValid && (c.viGrant n).port == p.idx &&
        (c.viGrant n).pasid == v.toNat).map c.viOwner
  match who with
  | none => (c.ev p 0x0610 [p.idx, (r.pasid.getD 0).toNat]).answerOut i off [] true
  | some o =>
    let i : Initiator := { i with owner := o }
    match bar with
    | 0 => if off < 0x40000000 then c.inbound p r i true off see else c.unsupported p r i off
    | 2 =>
      if 0x80000000 ≤ off ∧ off < 0x80005000 then c.msixAccess p r i off 0 (off - 0x80000000) 0x4000
      else if off < 2 ^ 37 then c.inbound p r i true off see else c.unsupported p r i off
    | 4 => if c.on (F.PCIE_CTL_BAR4_EN p.idx) then c.windowRequest p r i (0x4000000000 + off) else c.unsupported p r i off
    | _ => c.unsupported p r i off

/-- The address that an offset of a BAR of a VF reaches, under its record's grant (R305). -/
def vfAddr (g : Grant) (sliced : Bool) (bar off : Nat) : Option Nat :=
  match bar with
  | 0 => if off / 0x1000 < min g.ringN 256 then some (0x10000000 + g.ringFirst * 0x1000 + off) else none
  | 2 => if off / 0x100 < min g.dowelN 256 then some (0x20000000 + g.dowelFirst * 0x100 + off) else none
  | 4 => if sliced ∧ off < 0x1000 then some (0x1401000 + off) else none
  | _ => none

/-- The chip after a request to a VF of an endpoint port (R304, R305). -/
def Chip.vfRequest (c : Chip) (p : Half) (r : PciReq) (vf bar off : Nat) (o : Seen) : Chip :=
  let key := 256 * p.idx + vf
  let zero (c : Chip) (i : Initiator) : Chip := if r.write then c else c.answerOut i off (List.replicate r.len 0) false
  match (c.vfRecord p vf).filter fun n => c.viState n != 0 with
  | none =>
    let c := if c.vfRuns.contains key then c else { (c.ev p 0x0610 [p.idx, vf]) with vfRuns := key :: c.vfRuns }
    zero c ⟨0, 0x400 + p.idx, p, .pcie⟩
  | some n =>
    let c : Chip := { c with vfRuns := c.vfRuns.erase key }
    let i : Initiator := ⟨c.viOwner n, 0x400 + p.idx, p, .pcie⟩
    if bar = 4 ∧ 0x2000 ≤ off ∧ off < 0x4000 then c.msixAccess p r i off vf (off - 0x2000) 0x400
    else match vfAddr (c.viGrant n) (c.on F.VI_CTL_MODE) bar off with
      | some a => c.inbound p r i true a o
      | none => zero c i

/-- PCIE_INBOUND_REQUEST (R304–R306, R511, R512): a request acts under the owner ID of its VF, PASID or port, or is refused. -/
def execPcieInboundRequest (p : Half) (r : PciReq) (s : State) (o : Seen := []) : Host.Outcome State Fault Refusal :=
  let c := s.chip
  let endpoint := c.on (F.PCIE_CTL_MODE p.idx) || c.q (F.SYS_START_PHASE p.idx) == 15
  let i : Initiator := ⟨BitVec.ofNat 13 (c.q (F.PCIE_OWNER_OWNER p.idx)), 0x400 + p.idx, p, .pcie⟩
  if c.down.get p ∨ (c.startOf p).recovery ∨ ¬ c.on (F.PCIE_STATUS_LINK_UP p.idx) then s.go c
  else match endpoint, r.target with
    | false, .bus a => s.go (c.rootRequest p r i a.toNat o)
    | true, .bar n off => s.go (if r.vf = 0 then c.pfRequest p r n off.toNat o else c.vfRequest p r r.vf.toNat n off.toNat o)
    | false, .bar _ off => s.go (c.unsupported p r i off.toNat)
    | true, .bus a => s.go (c.unsupported p r i a.toNat)

/-! ### Application cores (R456, R508) -/

/-- The exception of a refused access of an application core. -/
def accessFault : AppAccess → Nat
  | .load => causeLoadFault
  | .store => causeStoreFault
  | .fetch => causeFetchFault

/-- Why an access of an application core is refused: an instruction fetch outside M-mode also needs `EXEC` (R456). -/
def Chip.appCause (c : Chip) (i : Initiator) (mmode : Bool) (op : AppAccess) (a : Nat) : Nat :=
  match c.busCause i (op == .store) a with
  | 0 => if op = .fetch ∧ ¬ mmode ∧ ¬ (needsRemote a ∧ c.ownFlag a 17) then 1 else 0
  | k => k

/-- The core after an access is granted: a load fills its register. -/
def AppCore.loaded (x : AppCore) (op : AppAccess) (reg : Nat) (d : List Byte) : AppCore :=
  { x with
    x := if op = .load ∧ reg ≠ 0 then Tbl.put 0 x.x reg (BitVec.ofNat 64 (leNat d)) else x.x
    buffered := true, fault := none }

/-- The chip after a store of a core leaves for a peer window: where it fails, the store's party is told (R508). `why` is
how it fails: 0 not at all, 1 refused, 9 no answer, 10 its device is lost before a link comes up. -/
def Chip.postedStore (c : Chip) (h : Half) (o : Owner) (a why : Nat) : Chip :=
  let failed (c : Chip) (k : Nat) : Chip := c.evOf h 0x0F12 o [a, k, o.toNat]
  if c.windowGone h a then failed c 10
  else match c.routeOf h a with
    | none => if why = 10 then failed c 10 else c
    | some l =>
      let c := c.flitOut l
      if why = 1 ∨ why = 9 then failed c why else c

/-- APPLICATION_CORE_ACCESS (R456, R508): an access of a core acts under `cgbowner`, or as firmware in M-mode; it is
granted, faulted, or posted to a peer window. -/
def execApplicationCoreAccess (k : Fin 16) (mmode : Bool) (op : AppAccess) (addr : BitVec 48) (width : Fin 9) (reg : Fin 32)
    (data : Dword) (s : State) (o : Seen := []) : Host.Outcome State Fault Refusal :=
  let c := s.chip
  let x := c.app k
  let h := appHalf k
  let a := addr.toNat
  let write := op == .store
  let i : Initiator := ⟨if mmode then 0 else x.owner, k, h, .core⟩
  let bytes := toLE width (if write then (Tbl.look 0 x.x reg.val).toNat else data.toNat)
  if ¬ c.appRuns k ∨ width.val = 0 then s.go c
  else match (granuleStarts a width).find? fun y => c.appCause i mmode op y != 0 with
    | some y => s.go ((c.busRefused none i write y (c.appCause i mmode op y) k).setApp k { x with fault := some (accessFault op) })
    | none =>
      if isPeer a then
        if write then s.go ((c.postedStore h i.owner a (data.toNat % 16)).setApp k (x.loaded op reg []))
        else match (if c.windowGone h a then none else c.routeOf h a) with
          | none => s.go (c.setApp k { x with fault := some (accessFault op) })
          | some l => s.go ((c.flitOut l).setApp k (x.loaded op reg bytes))
      else if isPcie a then
        if c.windowGone h a then s.go (if write then c else c.setApp k { x with fault := some (accessFault op) })
        else s.go ((c.pcieSent i.owner a).setApp k (x.loaded op reg bytes))
      else match c.outAccess i false write a width bytes o with
        | (.error e, c) => s.go ((c.outRefused i write e).setApp k { x with fault := some (accessFault op) })
        | (.ok d, c) => s.go (c.setApp k (x.loaded op reg d))

end Sys2Proof.Machine
end

