-- ==== Sys2Proof/Machine/Dispatch.lean ====
section
/-! DEFINITION. The dispatch: one arm per command, each a direct call of its meaning. -/

namespace Sys2Proof.Machine

def exec (i : Instr) (s : State) : Host.Outcome State Fault Refusal :=
  match i with
  | .registerWrite i0 width addr val => Sys2Proof.Machine.execRegisterWrite i0 width addr val s
  | .lock i0 addr v => Sys2Proof.Machine.execLock i0 addr v s
  | .loReadLatch i0 addr => Sys2Proof.Machine.execLoReadLatch i0 addr s
  | .arrayCommand a id => Sys2Proof.Machine.execArrayCommand a id s
  | .windowCommand a id => Sys2Proof.Machine.execWindowCommand a id s
  | .swap a o => Sys2Proof.Machine.execSwap a s o
  | .vectorEntry a o => Sys2Proof.Machine.execVectorEntry a o s
  | .drainRow a o => Sys2Proof.Machine.execDrainRow a o s
  | .arrayCompletion a id => Sys2Proof.Machine.execArrayCompletion a id s
  | .remap a e => Sys2Proof.Machine.execRemap a s e
  | .arrayRetire i0 a => Sys2Proof.Machine.execArrayRetire i0 a s
  | .gougeTask id far o => Sys2Proof.Machine.execGougeTask id s far o
  | .gougeTaskCompletion id => Sys2Proof.Machine.execGougeTaskCompletion id s
  | .gougeInstruction b k o => Sys2Proof.Machine.execGougeInstruction b k o s
  | .gcSld b k o => Sys2Proof.Machine.execGcSld b k s o
  | .gcCopy b k o => Sys2Proof.Machine.execGcCopy b k s o
  | .copyCompletion b k tag ok data o => Sys2Proof.Machine.execCopyCompletion b k tag ok data s o
  | .gcCwait b k o => Sys2Proof.Machine.execGcCwait b k s o
  | .gcDwait b k o => Sys2Proof.Machine.execGcDwait b k s o
  | .gcDsig b k o => Sys2Proof.Machine.execGcDsig b k s o
  | .gcDsigAdd b k o => Sys2Proof.Machine.execGcDsigAdd b k s o
  | .gcDone b k o => Sys2Proof.Machine.execGcDone b k s o
  | .gcVcvtN b k o => Sys2Proof.Machine.execGcVcvtN b k s o
  | .gcVcvtW b k o => Sys2Proof.Machine.execGcVcvtW b k s o
  | .gcVcvtMxn b k o => Sys2Proof.Machine.execGcVcvtMxn b k s o
  | .gcVcvtMxw b k o => Sys2Proof.Machine.execGcVcvtMxw b k s o
  | .coreTest b p ok => Sys2Proof.Machine.execCoreTest b p ok s
  | .benchRetire i0 b => Sys2Proof.Machine.execBenchRetire i0 b s
  | .decodeAndSuppress id far o => Sys2Proof.Machine.execDecodeAndSuppress id s far o
  | .cropAndResize id far o => Sys2Proof.Machine.execCropAndResize id s far o
  | .partingCompletion id => Sys2Proof.Machine.execPartingCompletion id s
  | .attentionCommand id far o => Sys2Proof.Machine.execAttentionCommand id s far o
  | .attentionCompletion id => Sys2Proof.Machine.execAttentionCompletion id s
  | .backwardPass id far o => Sys2Proof.Machine.execBackwardPass id s far o
  | .ledgerBatch id => Sys2Proof.Machine.execLedgerBatch id s
  | .alloc id o => Sys2Proof.Machine.execAlloc id s o
  | .acquire id o => Sys2Proof.Machine.execAcquire id s o
  | .release id o => Sys2Proof.Machine.execRelease id s o
  | .cow id o => Sys2Proof.Machine.execCow id s o
  | .cowCopyCompletion id o => Sys2Proof.Machine.execCowCopyCompletion id s o
  | .query id o => Sys2Proof.Machine.execQuery id s o
  | .pin id f => Sys2Proof.Machine.execPin id f s
  | .pinAdmission h => Sys2Proof.Machine.execPinAdmission h s
  | .unpin id f => Sys2Proof.Machine.execUnpin id f s
  | .zeroingDone f => Sys2Proof.Machine.execZeroingDone f s
  | .stridedMove id k => Sys2Proof.Machine.execStridedMove id k s
  | .gatherMove id k far o => Sys2Proof.Machine.execGatherMove id k s far o
  | .pageListMove id k far o => Sys2Proof.Machine.execPageListMove id k s far o
  | .fillMove id k => Sys2Proof.Machine.execFillMove id k s
  | .moveCompletion id => Sys2Proof.Machine.execMoveCompletion id s
  | .transactionReturn t ok data o => Sys2Proof.Machine.execTransactionReturn t ok data o s
  | .rebuildComplete x => Sys2Proof.Machine.execRebuildComplete x s
  | .patrolScrub x u o => Sys2Proof.Machine.execPatrolScrub x u o s
  | .doorbell i0 r v => Sys2Proof.Machine.execDoorbell i0 r v s
  | .ringEnable i0 r cfg => Sys2Proof.Machine.execRingEnable i0 r cfg s
  | .ringDisable i0 r cfg => Sys2Proof.Machine.execRingDisable i0 r cfg s
  | .ringClose r => Sys2Proof.Machine.execRingClose r s
  | .descriptorFetch r o => Sys2Proof.Machine.execDescriptorFetch r s o
  | .dispatch r => Sys2Proof.Machine.execDispatch r s
  | .noOp id => Sys2Proof.Machine.execNoOp id s
  | .dowelWait id => Sys2Proof.Machine.execDowelWait id s
  | .dowelSignal id => Sys2Proof.Machine.execDowelSignal id s
  | .waitSatisfied d who => Sys2Proof.Machine.execWaitSatisfied d who s
  | .dowelPoll d who => Sys2Proof.Machine.execDowelPoll d who s
  | .dowelArgLo i0 d v => Sys2Proof.Machine.execDowelArgLo i0 d v s
  | .dowelMaxHi i0 d v => Sys2Proof.Machine.execDowelMaxHi i0 d v s
  | .dowelAddHi i0 d v => Sys2Proof.Machine.execDowelAddHi i0 d v s
  | .dowelAdd32 i0 d v => Sys2Proof.Machine.execDowelAdd32 i0 d v s
  | .dowelNotifyLo i0 d v => Sys2Proof.Machine.execDowelNotifyLo i0 d v s
  | .dowelNotifyHi i0 d v => Sys2Proof.Machine.execDowelNotifyHi i0 d v s
  | .dowelAttr i0 d v => Sys2Proof.Machine.execDowelAttr i0 d v s
  | .slotPublish id far o => Sys2Proof.Machine.execSlotPublish id far s o
  | .slotBump id => Sys2Proof.Machine.execSlotBump id s
  | .slotRead id => Sys2Proof.Machine.execSlotRead id s
  | .slotReadCopyDone id far o => Sys2Proof.Machine.execSlotReadCopyDone id far s o
  | .boundaryMark id => Sys2Proof.Machine.execBoundaryMark id s
  | .quantumEnd e => Sys2Proof.Machine.execQuantumEnd e s
  | .markWaitExpiry e => Sys2Proof.Machine.execMarkWaitExpiry e s
  | .strictSlotGuard a => Sys2Proof.Machine.execStrictSlotGuard a s
  | .slotTableEntryStart a => Sys2Proof.Machine.execSlotTableEntryStart a s
  | .preemption e byRing => Sys2Proof.Machine.execPreemption e byRing s
  | .contextSaveComplete e err seen => Sys2Proof.Machine.execContextSaveComplete e err s seen
  | .contextRestoreComplete e r err mirror => Sys2Proof.Machine.execContextRestoreComplete e r err s mirror
  | .evict e byRing into began => Sys2Proof.Machine.execEvict e byRing into s began
  | .modelLoad id digest o => Sys2Proof.Machine.execModelLoad id digest s o
  | .modelUnload id => Sys2Proof.Machine.execModelUnload id s
  | .create i0 n => Sys2Proof.Machine.execCreate i0 n s
  | .reset i0 n => Sys2Proof.Machine.execReset i0 n s
  | .destroy i0 n => Sys2Proof.Machine.execDestroy i0 n s
  | .share i0 n => Sys2Proof.Machine.execShare i0 n s
  | .functionLevelReset port vf => Sys2Proof.Machine.execFunctionLevelReset port vf s
  | .resetCompletion n => Sys2Proof.Machine.execResetCompletion n s
  | .instanceZeroingComplete n => Sys2Proof.Machine.execInstanceZeroingComplete n s
  | .viRcfg i0 k v => Sys2Proof.Machine.execViRcfg i0 k v s
  | .viSelf i0 k v => Sys2Proof.Machine.execViSelf i0 k v s
  | .pcieInboundRequest p r o => Sys2Proof.Machine.execPcieInboundRequest p r s o
  | .calliperComparison a err => Sys2Proof.Machine.execCalliperComparison a err s
  | .diagnosis a => Sys2Proof.Machine.execDiagnosis a s
  | .diagnosisVerdict a o => Sys2Proof.Machine.execDiagnosisVerdict a o s
  | .frameStart h => Sys2Proof.Machine.execFrameStart h s
  | .goldenBlank a o e => Sys2Proof.Machine.execGoldenBlank a o s e
  | .ageEvaluation h n => Sys2Proof.Machine.execAgeEvaluation h n s
  | .authorityMessageSend h => Sys2Proof.Machine.execAuthorityMessageSend h s
  | .authorityMessage h path good => Sys2Proof.Machine.execAuthorityMessage h path good s
  | .pathLoss h path => Sys2Proof.Machine.execPathLoss h path s
  | .peerSilent h => Sys2Proof.Machine.execPeerSilent h s
  | .peerDown h => Sys2Proof.Machine.execPeerDown h s
  | .watchdogReset h => Sys2Proof.Machine.execWatchdogReset h s
  | .claim h => Sys2Proof.Machine.execClaim h s
  | .fitnessChange h k ok => Sys2Proof.Machine.execFitnessChange h k ok s
  | .unfitMaxExpiry h => Sys2Proof.Machine.execUnfitMaxExpiry h s
  | .tieHoldOffExpiry => Sys2Proof.Machine.execTieHoldOffExpiry s
  | .handover i0 h => Sys2Proof.Machine.execHandover i0 h s
  | .clearObs i0 h => Sys2Proof.Machine.execClearObs i0 h s
  | .arbSelChange h view => Sys2Proof.Machine.execArbSelChange h view s
  | .outEnRise h => Sys2Proof.Machine.execOutEnRise h s
  | .safeStopAssert h => Sys2Proof.Machine.execSafeStopAssert h s
  | .halfLoss h => Sys2Proof.Machine.execHalfLoss h s
  | .steadyUpdate h late bad o => Sys2Proof.Machine.execSteadyUpdate h late bad s o
  | .arm i0 h n => Sys2Proof.Machine.execArm i0 h n s
  | .close i0 h n => Sys2Proof.Machine.execClose i0 h n s
  | .openSlot i0 h n => Sys2Proof.Machine.execOpenSlot i0 h n s
  | .modeHandover i0 h a b => Sys2Proof.Machine.execModeHandover i0 h a b s
  | .steadyCommandApply h o => Sys2Proof.Machine.execSteadyCommandApply h s o
  | .coefficientWrite i0 h n k v => Sys2Proof.Machine.execCoefficientWrite i0 h n k v s
  | .pwmPeriodStart h n => Sys2Proof.Machine.execPwmPeriodStart h n s
  | .readbackMismatch h n => Sys2Proof.Machine.execReadbackMismatch h n s
  | .adcConversion h code => Sys2Proof.Machine.execAdcConversion h code s
  | .encoderTransition h n a b => Sys2Proof.Machine.execEncoderTransition h n a b s
  | .inputEdge h n level => Sys2Proof.Machine.execInputEdge h n level s
  | .chatterWindowEnd h n => Sys2Proof.Machine.execChatterWindowEnd h n s
  | .stuckTimeout h n => Sys2Proof.Machine.execStuckTimeout h n s
  | .edgeNotify h => Sys2Proof.Machine.execEdgeNotify h s
  | .frameReceived p f => Sys2Proof.Machine.execFrameReceived p f s
  | .sourcePoll r level o => Sys2Proof.Machine.execSourcePoll r level s o
  | .outboundFrameInstant f => Sys2Proof.Machine.execOutboundFrameInstant f s
  | .frameTransmitted p tc ok => Sys2Proof.Machine.execFrameTransmitted p tc ok s
  | .send id far o => Sys2Proof.Machine.execSend id s far o
  | .request id far o => Sys2Proof.Machine.execRequest id s far o
  | .bridgeFence id => Sys2Proof.Machine.execBridgeFence id s
  | .lifeMsExpiry id => Sys2Proof.Machine.execLifeMsExpiry id s
  | .timeoutUsExpiry id => Sys2Proof.Machine.execTimeoutUsExpiry id s
  | .busOff n => Sys2Proof.Machine.execBusOff n s
  | .busOffRecovery n => Sys2Proof.Machine.execBusOffRecovery n s
  | .ethernetLinkChange m up => Sys2Proof.Machine.execEthernetLinkChange m up s
  | .gclArm i0 m v => Sys2Proof.Machine.execGclArm i0 m v s
  | .gclReplace m => Sys2Proof.Machine.execGclReplace m s
  | .gateEntryEnd m => Sys2Proof.Machine.execGateEntryEnd m s
  | .sideBandPulse n => Sys2Proof.Machine.execSideBandPulse n s
  | .csiFrameStart n vc => Sys2Proof.Machine.execCsiFrameStart n vc s
  | .csiLine n vc dt l hdrOk crcOk => Sys2Proof.Machine.execCsiLine n vc dt l hdrOk crcOk s
  | .csiFrameEnd n vc => Sys2Proof.Machine.execCsiFrameEnd n vc s
  | .frameEndTimeout n => Sys2Proof.Machine.execFrameEndTimeout n s
  | .vblankStart d o => Sys2Proof.Machine.execVblankStart d s o
  | .safetyBufferSwap d => Sys2Proof.Machine.execSafetyBufferSwap d s
  | .hotPlug d up => Sys2Proof.Machine.execHotPlug d up s
  | .cvuCtl i0 n v => Sys2Proof.Machine.execCvuCtl i0 n v s
  | .cvuData i0 n v => Sys2Proof.Machine.execCvuData i0 n v s
  | .cvuData8 i0 n v => Sys2Proof.Machine.execCvuData8 i0 n v s
  | .cvuValLo i0 n v => Sys2Proof.Machine.execCvuValLo i0 n v s
  | .cvuValHi i0 n v => Sys2Proof.Machine.execCvuValHi i0 n v s
  | .tbRate i0 h n v => Sys2Proof.Machine.execTbRate i0 h n v s
  | .tbStepLo i0 h n v => Sys2Proof.Machine.execTbStepLo i0 h n v s
  | .tbStepHi i0 h n v => Sys2Proof.Machine.execTbStepHi i0 h n v s
  | .tbRebase i0 h n v => Sys2Proof.Machine.execTbRebase i0 h n v s
  | .timeWriteApply => Sys2Proof.Machine.execTimeWriteApply s
  | .timePulseSend h => Sys2Proof.Machine.execTimePulseSend h s
  | .timePulse h strained => Sys2Proof.Machine.execTimePulse h strained s
  | .listeningWindowExpiry h => Sys2Proof.Machine.execListeningWindowExpiry h s
  | .pulseLoss h => Sys2Proof.Machine.execPulseLoss h s
  | .ppsEdge h falling => Sys2Proof.Machine.execPpsEdge h falling s
  | .ppsMissing h => Sys2Proof.Machine.execPpsMissing h s
  | .txtsInfoRead i0 m => Sys2Proof.Machine.execTxtsInfoRead i0 m s
  | .rxtsInfoRead i0 m => Sys2Proof.Machine.execRxtsInfoRead i0 m s
  | .retype i0 => Sys2Proof.Machine.execRetype i0 s
  | .reassign i0 zero => Sys2Proof.Machine.execReassign i0 zero s
  | .flags i0 => Sys2Proof.Machine.execFlags i0 s
  | .ownershipChangeComplete => Sys2Proof.Machine.execOwnershipChangeComplete s
  | .worldSwitch k o => Sys2Proof.Machine.execWorldSwitch k o s
  | .partitionSwitch k o => Sys2Proof.Machine.execPartitionSwitch k o s
  | .scrub k => Sys2Proof.Machine.execScrub k s
  | .secClaim i0 h k v => Sys2Proof.Machine.execSecClaim i0 h k v s
  | .forcedErase h rail => Sys2Proof.Machine.execForcedErase h rail s
  | .romStart h r => Sys2Proof.Machine.execRomStart h r s
  | .attestationRequest id => Sys2Proof.Machine.execAttestationRequest id s
  | .ownerBinding h record object => Sys2Proof.Machine.execOwnerBinding h record object s
  | .challenge i0 h => Sys2Proof.Machine.execChallenge i0 h s
  | .challengeExpiry h => Sys2Proof.Machine.execChallengeExpiry h s
  | .debugOpen i0 h => Sys2Proof.Machine.execDebugOpen i0 h s
  | .debugClose i0 h => Sys2Proof.Machine.execDebugClose i0 h s
  | .token i0 h => Sys2Proof.Machine.execToken i0 h s
  | .imageAccept h a b ra rb => Sys2Proof.Machine.execImageAccept h a b ra rb s
  | .imageAgreement h => Sys2Proof.Machine.execImageAgreement h s
  | .imageApply h => Sys2Proof.Machine.execImageApply h s
  | .startZeroingComplete n => Sys2Proof.Machine.execStartZeroingComplete n s
  | .romRecovery h record object => Sys2Proof.Machine.execRomRecovery h record object s
  | .sysResetDevice i0 key => Sys2Proof.Machine.execSysResetDevice i0 key s
  | .sysResetHalf i0 key h => Sys2Proof.Machine.execSysResetHalf i0 key h s
  | .flitReplay h l first => Sys2Proof.Machine.execFlitReplay h l first s
  | .linkTraining h l far dev inc => Sys2Proof.Machine.execLinkTraining h l far dev inc s
  | .laneFailure h l lane => Sys2Proof.Machine.execLaneFailure h l lane s
  | .linkIdle h l => Sys2Proof.Machine.execLinkIdle h l s
  | .packetForward h src dst hops addr => Sys2Proof.Machine.execPacketForward h src dst hops addr s
  | .peerRequest h src write addr len data o => Sys2Proof.Machine.execPeerRequest h src write addr len data s o
  | .deviceLost n => Sys2Proof.Machine.execDeviceLost n s
  | .peerAccessTimeout r => Sys2Proof.Machine.execPeerAccessTimeout r s
  | .pcieCompletionTimeout r => Sys2Proof.Machine.execPcieCompletionTimeout r s
  | .pcieLinkChange p up speed width => Sys2Proof.Machine.execPcieLinkChange p up speed width s
  | .powerStateReq i0 h t => Sys2Proof.Machine.execPowerStateReq i0 h t s
  | .blockActive i0 h b => Sys2Proof.Machine.execBlockActive i0 h b s
  | .clockGated i0 h b parked => Sys2Proof.Machine.execClockGated i0 h b s parked
  | .powerGated i0 h b parked => Sys2Proof.Machine.execPowerGated i0 h b s parked
  | .powerEvaluation h now arr rails => Sys2Proof.Machine.execPowerEvaluation h now arr rails s
  | .fastCurrentLimiter h current => Sys2Proof.Machine.execFastCurrentLimiter h current s
  | .limiterRelease h => Sys2Proof.Machine.execLimiterRelease h s
  | .temperatureRead h temps => Sys2Proof.Machine.execTemperatureRead h temps s
  | .powerGood h strap => Sys2Proof.Machine.execPowerGood h strap s
  | .resetAssert h => Sys2Proof.Machine.execResetAssert h s
  | .bankCompaction h fails => Sys2Proof.Machine.execBankCompaction h fails s
  | .ledgerLoad h own peer => Sys2Proof.Machine.execLedgerLoad h own peer s
  | .hourMark fails => Sys2Proof.Machine.execHourMark fails s
  | .mirrorRead i0 addr => Sys2Proof.Machine.execMirrorRead i0 addr s
  | .registerRead i0 width addr => Sys2Proof.Machine.execRegisterRead i0 width addr s
  | .applicationCoreAccess k mmode op addr width reg data o => Sys2Proof.Machine.execApplicationCoreAccess k mmode op addr width reg data s o
  | .creationComplete => Sys2Proof.Machine.execCreationComplete s
  | .vendorReturnEraseEnd => Sys2Proof.Machine.execVendorReturnEraseEnd s
  | .leadHoldExpiry h => Sys2Proof.Machine.execLeadHoldExpiry h s
  | .urgentHalfDown h => Sys2Proof.Machine.execUrgentHalfDown h s
  | .activeLine d y late o => Sys2Proof.Machine.execActiveLine d y late s o
  | .cameraPhyLockChange n locked => Sys2Proof.Machine.execCameraPhyLockChange n locked s
  | .canErrorStateChange n tec rec_ => Sys2Proof.Machine.execCanErrorStateChange n tec rec_ s
  | .debuggerHalt t halt => Sys2Proof.Machine.execDebuggerHalt t halt s
  | .resetRelease h strap => Sys2Proof.Machine.execResetRelease h strap s

end Sys2Proof.Machine
end

