-- ==== Sys2Proof/Safety.lean ====
section
/-! DEFINITION. The terms in which claims about the block are made: a safe step, the canonical form of its tables, a queue of
well-formed commands, and what two states of the block have in common. -/

namespace Sys2Proof.Machine

/-- The state with another chip and the same queue. -/
def State.withChip (s : State) (c : Chip) : State := { s with chip := c }

/-- Every command that waits is well formed. -/
def State.queueWf (s : State) : Prop := ∀ i ∈ s.pending, i.wf = true

/-- Memory, registers and ownership entries are in canonical form. -/
def Chip.canonical (c : Chip) : Bool := c.memWf && c.regsWf && c.ownWf

/-- One step of the block is safe: it answers a next state. -/
def StepSafe (s : State) : Prop := ∃ t, step s = .next t

/-- Two chips show the same byte at every address outside the windows, but for those that a test admits. -/
def SameBytesBut (p : Nat → Prop) (c d : Chip) : Prop := ∀ a, ¬ inWindow a → ¬ p a → d.byte a = c.byte a

/-- Two chips show the same byte at every address outside the windows. -/
def SameBytes (c d : Chip) : Prop := SameBytesBut (fun _ => False) c d

/-- Two chips hold the same in every register, but for those that a test admits. -/
def SameRegsBut (p : Nat → Prop) (c d : Chip) : Prop := ∀ a, ¬ p a → d.reg a = c.reg a

/-- The memory of the records of a ring: `size` bytes for each of its entries (R234). -/
def Chip.inRing (c : Chip) (r size a : Nat) : Prop :=
  c.ringEntry r 0 size ≤ a ∧ a < c.ringEntry r 0 size + 2 ^ c.q (F.RING_CFG_SIZE_LOG2 r) * size

/-- An address of a register that an event may write: a ring's own registers, and the count of the error log. -/
def eventReg (a : Nat) : Prop := (0x10000000 ≤ a ∧ a < 0x20000000) ∨ a = Reg.WEAR_LOG_CNT

end Sys2Proof.Machine
end

