-- ==== Sys2Proof/Certificates/Slice0/Obligations.lean ====
section
/-! DEFINITION. The statements for the provers. -/

section
open Sys2Proof Sys2Proof.Machine

/-- For every command, queue and state, one step of the state with the command at the front of its queue is the
command's meaning on the state with the rest of the queue. (That commands wait in a queue is the form of this model,
assumption 1.) -/
def Obligations.StepRunsFront : Prop :=
  ∀ (i : Instr) (rest : List Instr) (s : State), step (s.withPending (i :: rest)) = exec i (s.withPending rest)

/-- On an empty queue a step answers the state in which one cycle of the 250 MHz time domain has passed (assumption 1,
the model's own choice): the queue stays empty, a half that is not down counts one cycle, and no register, byte of
memory, ownership entry, command or ring changes. -/
def Obligations.IdleCycle : Prop :=
  ∀ s : State, s.pending = [] →
    ∃ t, step s = .next (s.withChip t) ∧ (s.withChip t).pending = [] ∧ t.regs = s.chip.regs ∧ t.mem = s.chip.mem ∧ t.own = s.chip.own ∧
      t.cmds = s.chip.cmds ∧ t.rings = s.chip.rings ∧
      ∀ h : Half, (t.timeOf h).cycles = (s.chip.timeOf h).cycles + if s.chip.down.get h then 0 else 1

/-- After reset no command waits; every DRAM entry of the ownership table names owner 0x0000, type 7, not clean, and
every other entry owner 0x0000, type 1; the array identity registers show 520 columns, 132 rows, the half and the index;
no ring is enabled, every dowel is 0, no half is in charge and neither drives its outputs; every byte of DRAM and of the
stores reads 0 (that unwritten memory reads 0 is assumption 3, the model's choice). -/
def Obligations.ResetState : Prop :=
  let c := State.reset.chip
  State.reset.pending = [] ∧
  (∀ n, n < 1048576 → ownOwner (c.ownAt n) = 0 ∧ ownType (c.ownAt n) = 7 ∧ ownFlags (c.ownAt n) = 0 ∧ ownGood (c.ownAt n) = true) ∧
  (∀ n, 1048576 ≤ n → ownOwner (c.ownAt n) = 0 ∧ ownType (c.ownAt n) = 1 ∧ ownGood (c.ownAt n) = true) ∧
  (∀ a : Fin 8, c.q (F.ARRAY_ID_PHYS_COLS a) = 520 ∧ c.q (F.ARRAY_ID_PHYS_ROWS a) = 132 ∧ c.q (F.ARRAY_ID_HALF a) = a.val / 4 ∧
    c.q (F.ARRAY_ID_INDEX a) = a.val) ∧
  (∀ r, c.ringSt? r = none) ∧
  c.dowel 0 = 0 ∧ c.dowel 16383 = 0 ∧
  (∀ h : Half, c.q (F.AUTH_STATUS_STATE h.idx) = 0 ∧ c.outEn h = false) ∧
  (∀ a, 0x40000000 ≤ a → ¬ inWindow a → c.byte a = 0)

/-- The state after reset has its tables in canonical form, and every command of its (empty) queue is well formed. -/
def Obligations.ResetSafe : Prop :=
  State.reset.chip.canonical = true ∧ State.reset.queueWf

/-- From every state whose waiting commands are well formed a step answers a next state, neither a fault nor a refusal;
the queue of that state is the old one without its front command, so it again holds well-formed commands only, in the
same order; and so for any number of steps. (The queue is the form of this model.) -/
def Obligations.QueueKept : Prop :=
  (∀ s : State, s.queueWf → ∃ t, step s = .next t ∧ t.pending = s.pending.tail ∧ t.queueWf) ∧
  (∀ (n : Nat) (s : State), s.queueWf → ∃ t, core.run n s = .next t ∧ t.pending = s.pending.drop n ∧ t.queueWf)

/-- A value converted to INT4, INT8 or INT32 is rounded under RND, to nearest with ties to even or away from zero or
towards zero as the mode has it, and then saturated, which counts; an infinite value saturates, and a NaN converts to 0
and counts as a saturated value. The sum of any integer products is exact, and its accumulation into an INT32
accumulator gives the exact value, or the nearer end of the INT32 range where it leaves that range, which counts as
saturated; the next accumulation continues from the accumulator's value. -/
def Obligations.IntegerNumbers : Prop :=
  (∀ code ∈ [0x0, 0x1, 0x7], ∀ (sat : Bool) (mode : Rm),
    let w := codeWidth code
    let hi : Int := 2 ^ (w - 1) - 1
    let lo : Int := -(2 ^ (w - 1))
    convert code sat mode .nan = (0, true) ∧
    (∀ s, let r := convert code sat mode (.inf s)
      sgn w r.1 = (if s then lo else hi) ∧ r.2 = true) ∧
    (∀ (s : Bool) (m : Nat) (e i : Int), FV.toInt mode (.fin s m e) = some i →
      let r := convert code sat mode (.fin s m e)
      r.1 < 2 ^ w ∧ sgn w r.1 = max lo (min hi i) ∧ (r.2 = true ↔ i < lo ∨ hi < i))) ∧
  (∀ (mode : Rm) (s : Bool) (m : Nat) (e : Int), ∃ i, FV.toInt mode (.fin s m e) = some i ∧
    let k : Int := 2 ^ (-e).toNat
    let y : Int := (if s then -1 else 1) * m * 2 ^ e.toNat
    (mode = .rne → |2 * (i * k - y)| ≤ k ∧ (|2 * (i * k - y)| = k → i % 2 = 0)) ∧
    (mode = .rna → |2 * (i * k - y)| ≤ k ∧ (|2 * (i * k - y)| = k → |y| ≤ |i * k|)) ∧
    (mode = .rtz → |i * k| ≤ |y| ∧ |y| < |i * k| + k ∧ 0 ≤ i * y)) ∧
  (∀ (l : List (Int × Int)) (c0 : Nat),
    let sum := FV.sum (l.map fun p => (FV.ofInt p.1).mul (FV.ofInt p.2))
    let r := accumulate true c0 sum sum
    let exact := sgn 32 c0 + (l.map fun p => p.1 * p.2).sum
    r.1 < 2 ^ 32 ∧ sgn 32 r.1 = max (-(2 ^ 31)) (min (2 ^ 31 - 1) exact) ∧ (r.2 = true ↔ exact < -(2 ^ 31) ∨ 2 ^ 31 - 1 < exact))

/-- A dispatched array command (window command) whose turn has come, on an array open to it, with no other ready context
served first, no lower-numbered array open to a command without an array of its own, and save capacity left where it
makes a new context, is taken: the context of its ring is resident, and a command with LOAD has its tile in the shadow
tile, read from the store, which a new context finds all zero. Where no strict slot of the array waits for its holder,
the register names the owner and no other memory changes. -/
def Obligations.ArraysTakeCommands : Prop :=
  ∀ (a : Fin 8) (id : CmdId) (m : Cmd) (s : State),
    s.chip.takeable id arrayOp = some m → s.chip.arrayOver m = false → s.chip.arrayOpen a m = true → s.chip.outranked a m = false →
    s.chip.lowerOpen a m = false →
    let c := if (s.chip.arr a).resident.isNone then s.chip.zeroRange (arrayStore a) 0xC00000 else s.chip
    let t := s.chip.takeArray a m
    (m.opcode = 0x10 → exec (.arrayCommand a id) s = .next (s.withChip t)) ∧
    (m.opcode = 0x11 → exec (.windowCommand a id) s = .next (s.withChip t)) ∧
    (t.arr a).resident = some m.id.ring.val ∧ (m.hasLoad = true → (t.arr a).shadow = some (m.id, c.readTile a m)) ∧
    ((s.chip.arr a).resident = none → ∀ x, arrayStore a ≤ x → x < arrayStore a + 0xC00000 → c.byte x = 0) ∧
    ((s.chip.arr a).awaited = false → t.q (F.ARRAY_STATUS_OWNER a) = m.owner.toNat ∧ t.mem = c.mem)

/-- On an array that no debugger holds, where the store's reads show no error and no transfer in flight meets what is
left of its commands: a swap makes a loaded shadow tile active once every vector of the earlier commands has entered, of
unpredictable contents where its command is so; the entry of the next vector v writes row (ACC_ROW + v) mod 2,048 of the
accumulators and no other byte, and for an integer pair with predictable outcome accumulator j holds c0 plus the sum of
the products, exact or saturated to INT32; the drain of the next row advances its command by one row and writes only the
operand area of the array. A swap changes no register, the other two none but the array's count of saturated values. -/
def Obligations.ArrayWork : Prop :=
  (∀ (a : Fin 8) (j : ArrJob) (m : Cmd) (id : CmdId) (w : Tile) (s : State),
    s.chip.engineHalted (.array a) = false → s.chip.noteRaces a = s.chip → s.chip.nextSwap a = some (j, m) → (s.chip.arr a).shadow = some (id, w) →
    ∃ t, exec (.swap a .clean) s = .next (s.withChip t) ∧ (t.arr a).shadow = none ∧
      (t.arr a).active = { w with wild := w.wild || (s.chip.arr a).jobs.any fun k => k.id == id && k.wild } ∧
      (∀ k ∈ (t.arr a).jobs, k.id = id → k.loading = false) ∧ t.mem = s.chip.mem ∧ t.regs = s.chip.regs) ∧
  (∀ (a : Fin 8) (j : ArrJob) (m : Cmd) (s : State),
    s.chip.engineHalted (.array a) = false → s.chip.noteRaces a = s.chip → s.chip.nextVector a = some (j, m) →
    let row := (m.accRow + j.streamed) % 2048
    let w := (s.chip.arr a).active
    ∃ t, exec (.vectorEntry a .clean) s = .next (s.withChip t) ∧ (∀ r, r ≠ Reg.ARRAY_SAT_CNT a → t.reg r = s.chip.reg r) ∧
      SameBytesBut (fun x => accAddr a row 0 ≤ x ∧ x < accAddr a row 0 + 2048) s.chip t ∧
      (m.intPair = true → j.wildThrough m w = false → ∀ k, k < 512 →
        let sum := colSum ((s.chip.vector a m j.streamed).map m.element) w k
        t.loadN (accAddr a row k) 4 = (accumulate true (s.chip.accInit a m row k) sum sum).1)) ∧
  (∀ (a : Fin 8) (j : ArrJob) (m : Cmd) (s : State),
    s.chip.engineHalted (.array a) = false → s.chip.noteRaces a = s.chip → s.chip.nextDrain a = some (j, m) →
    ∃ t, exec (.drainRow a .clean) s = .next (s.withChip t) ∧ (∀ r, r ≠ Reg.ARRAY_SAT_CNT a → t.reg r = s.chip.reg r) ∧
      (∃ sat, j.sat ≤ sat ∧ (t.arr a).jobs = (s.chip.arr a).jobs.map fun k => if k.id = j.id then { j with drained := j.drained + 1, sat := sat } else k) ∧
      SameBytesBut (fun x => arrayStore a ≤ x ∧ x < arrayStore a + 0x800000) s.chip t)

/-- A finished command of an array that no reset has withdrawn and whose outcome is predictable is taken off the array,
the counter counts it, it completes with the detail of R95, and an array that is to retire does so once no command is
left on it; a faulty row or column found is moved to the lowest free spare of the array between two commands, in the map
register, the spares register, the events and the wear ledger; a write of 1 to ARRAY_RETIRE by an initiator that reaches
the page retires an idle array, and with a command in progress marks it to retire. -/
def Obligations.ArrayEnds : Prop :=
  (∀ (a : Fin 8) (id : CmdId) (j : ArrJob) (m : Cmd) (s : State),
    s.chip.jobDone a id = some (j, m) → m.stage ≠ .withdrawn → j.wild = false →
    let c := (s.chip.setArr a { s.chip.arr a with jobs := (s.chip.arr a).jobs.filter fun k => k.id != j.id })
    let c := c.countPair (Reg.ARRAY_CMD_CNT_LO a) (Reg.ARRAY_CMD_CNT_HI a) 1
    let m := { m with clamped := m.clamped || decide (0 < j.sat) }
    let c := c.complete m (min j.sat 0xFFFFFFFF + j.streamed % 4096 * 2 ^ 32 + a.val % 8 * 2 ^ 48)
    exec (.arrayCompletion a id) s = .next (s.withChip ((if m.status = Status.doneDoubtful.code then c.latchDoubt m.owner else c).retireDue a))) ∧
  (∀ (a : Fin 8) (line n : Nat) (rest : List Remap) (s : State),
    (s.chip.arr a).remaps = ⟨true, line, none⟩ :: rest → s.chip.remapping a = true → s.chip.freeRow a = some n →
    let c := (s.chip.setArr a { s.chip.arr a with remaps := rest }).setReg (Reg.ARRAY_ROWMAP a n) (2 ^ 31 + line % 128)
    let c := (c.dec (F.ARRAY_SPARES_ROWS_FREE a)).ev (arrayHalf a) 0x0100 [a, line % 128, n]
    let c := c.spareTaken (arrayHalf a) 0 a n (n + 1)
    exec (.remap a .clean) s = .next (s.withChip (if n = 3 then c.ev (arrayHalf a) 0x0102 [a, 0] else c))) ∧
  (∀ (a : Fin 8) (line n : Nat) (rest : List Remap) (s : State),
    (s.chip.arr a).remaps = ⟨false, line, none⟩ :: rest → s.chip.remapping a = true → s.chip.freeCol a = some n →
    let c := (s.chip.setArr a { s.chip.arr a with remaps := rest }).setReg (Reg.ARRAY_COLMAP a n) (2 ^ 31 + line % 1024)
    let c := (c.dec (F.ARRAY_SPARES_COLS_FREE a)).ev (arrayHalf a) 0x0101 [a, line % 1024, n]
    let c := c.spareTaken (arrayHalf a) 1 a n (n + 1)
    exec (.remap a .clean) s = .next (s.withChip (if n = 5 then c.ev (arrayHalf a) 0x0102 [a, 1] else c))) ∧
  (∀ (i : Initiator) (a : Fin 8) (s : State),
    s.chip.portCause i true (Reg.ARRAY_RETIRE a) = 0 → s.chip.down.get (arrayHalf a) = false → s.chip.on (F.ARRAY_STATUS_RETIRED a) = false →
    exec (.arrayRetire i a) s = .next (s.withChip (if (s.chip.arr a).jobs = [] then (s.chip.put (F.ARRAY_RETIRE_RETIRE a) 1).retireArray a 0
      else (s.chip.put (F.ARRAY_RETIRE_RETIRE a) 1).setArr a { s.chip.arr a with retiring := some ((s.chip.arr a).retiring.getD 0) })))

/-- A dispatched gouge task that is granted every bench it selects, with save capacity, all its benches free and no
other task before it, whose program and arguments its party may read and whose reads show no error, starts on its
benches; when every selected core has ended its cores stop, its benches are free and it completes with the exit detail
of R127, its record telling of a core, in a saved context too, whose gcclamp is not zero and of a spare that has just
come in, however the task ends. A core that fails a due test on an idle bench is replaced by the lowest free spare, in
the map register, the events and the ledger. A write of 1 to BENCH_RETIRE by an initiator that reaches the page retires
an idle bench and marks a busy one. -/
def Obligations.GougeTasks : Prop :=
  (∀ (id : CmdId) (m : Cmd) (far : Far) (s : State),
    s.chip.takeable id (· == 0x20) = some m →
    let n := m.cores60
    (n.train && n.owner.part != 0 && s.chip.partClass n.owner.part == 0) = false →
    n.taskBenches.any (s.chip.benchRefused n) = false → s.chip.taskOver n .H = false → s.chip.taskOver n .T = false →
    n.taskBenches.all (s.chip.benchFree n) = true → s.chip.taskOutranked n = false →
    s.chip.reachCause n.half n.owner false n.progAddr n.progLen far = none → s.chip.reachCause n.half n.owner false n.argAddr n.argLen far = none →
    let c := s.chip.touches n [(n.progAddr, n.progLen), (n.argAddr, n.argLen)]
    exec (.gougeTask id far) s = .next (s.withChip
      (Chip.startTask { c with freeCnt := c.freeCnt + b2n (inWindow n.progAddr || inWindow n.argAddr) } n
        (s.chip.load n.progAddr n.progLen) (s.chip.load n.argAddr n.argLen)))) ∧
  (∀ (id : CmdId) (m : Cmd) (s : State),
    s.chip.cmd? id = some m → m.opcode = 0x20 → m.stage = .running → s.chip.taskOver? m = true →
    let n := (s.chip.stopTask m).latest m
    exec (.gougeTaskCompletion id) s = .next (s.withChip ((s.chip.stopTask m).complete m (s.chip.exitDetail m))) ∧
    n.clamped = (m.clamped || (m.taskUnits.any fun u => (s.chip.core u.1 u.2).gcclamp != 0) ||
      s.chip.bctx.any fun e => e.2.cores.any fun k => k.2.task == some m.id && k.2.gcclamp != 0) ∧
    n.spare = (m.spare || m.taskBenches.any fun b => (s.chip.bench b).spareNext)) ∧
  (∀ (b : Fin 32) (p : Fin 64) (k sp : Nat) (s : State),
    s.chip.on (F.BENCH_CTL_TEST_EN b) = true → s.chip.down.get (benchHalf b) = false → s.chip.unitOn (8 + b) = true →
    (s.chip.bench b).task = none → (s.chip.bench b).retired.contains p.val = false → s.chip.on (F.BENCH_STATUS_RETIRED b) = false →
    let c := (s.chip.setBench b { s.chip.bench b with retired := p.val :: (s.chip.bench b).retired }).dec (F.BENCH_CORES_HEALTHY b)
    c.logicalOf b p = some k → c.freeSpare b = some sp →
    let c := (c.put (F.BENCH_MAP_PHYS b k) sp).dec (F.BENCH_CORES_SPARES_FREE b)
    let c := (c.setBench b { c.bench b with spareNext := true }).ev (benchHalf b) 0x0200 [b, k, p, sp]
    exec (.coreTest b p false) s =
      .next (s.withChip (c.spareTaken (benchHalf b) 3 b sp (4 - c.q (F.BENCH_CORES_SPARES_FREE b))))) ∧
  (∀ (i : Initiator) (b : Fin 32) (s : State),
    s.chip.portCause i true (Reg.BENCH_RETIRE b) = 0 → s.chip.down.get (benchHalf b) = false →
    s.chip.on (F.BENCH_STATUS_RETIRED b) = false →
    exec (.benchRetire i b) s = .next (s.withChip (
      if (s.chip.bench b).task = none then (s.chip.put (F.BENCH_RETIRE_RETIRE b) 1).retireBench b 0
      else (s.chip.put (F.BENCH_RETIRE_RETIRE b) 1).setBench b { s.chip.bench b with retiring := true })))

/-- A running core whose next 32-bit word is not one of Darienor's instructions executes it as the standard extensions
say. For the base's register-immediate addition every register and immediate, x0 as destination discarding the sum and
x0 as source reading 0: rd holds the sum modulo 2^64, every other register keeps its value, the pc moves 4 bytes on, and
nothing else of the machine but the count of retired instructions changes. -/
def Obligations.GougeBase : Prop :=
  (∀ (b : Fin 32) (k : Fin 60) (w : Nat) (s : State),
    s.chip.coreRuns b k = true → s.chip.fetchAt b k (s.chip.core b k).pc = some (w, 4) → isDarienor w = false →
    exec (.gougeInstruction b k .clean) s = .next (s.withChip ((s.chip.exWord (s.chip.core b k) b k w 4).apply b k))) ∧
  (∀ (b : Fin 32) (k : Fin 60) (w : Nat) (s : State),
    s.chip.coreRuns b k = true → s.chip.fetchAt b k (s.chip.core b k).pc = some (w, 4) → w % 128 = 0x13 → insF3 w = 0 →
    let x := s.chip.core b k
    ∃ y, exec (.gougeInstruction b k .clean) s = .next (s.withChip (s.chip.setCore b k y)) ∧
      (∀ r, r < 32 → y.xr r = if r = insRd w ∧ r ≠ 0 then (x.xr (insRs1 w) + immI w) % 2 ^ 64 else x.xr r) ∧
      y.pc = (x.pc + 4) % 2 ^ 64 ∧ y.instret = (x.instret + 1) % 2 ^ 64 ∧
      y = { x with x := y.x, pc := y.pc, instret := y.instret })

/-- On a running core: gc.sld with a data-store address in range, no copy in flight of any core on its 32 bytes, puts
the four doublewords there into the slot named; gc.copy between stores of the bench starts a copy of the slots named
under some free tag and writes the tag to rd, and with no free tag stalls the core; a copy between stores that fits ends
with all its elements moved in the order of R119 and no error; gc.cwait, once every copy named has ended, writes the
mask of those in error to rd; gc.done ends the core with exit code rs1 [15:0]. Each moves the pc 4 bytes on. -/
def Obligations.GougeSlivers : Prop :=
  (∀ (b : Fin 32) (k : Fin 60) (w : Nat) (s : State),
    s.chip.nextWord b k = some w → w % 128 = 0x0B → insF3 w = 0 → bits w 23 9 = 0 →
    let x := s.chip.core b k
    let a := x.xr (insRs1 w)
    a + 32 ≤ 0xC000 → (s.chip.crossing x b k (dataStore b k + a) 32).2.2 = false →
    exec (.gcSld b k .clean) s = .next (s.withChip (s.chip.setCore b k
      ({ x with slots := Tbl.ins x.slots (bits w 20 3) ((List.range 4).map fun n => BitVec.ofNat 64 (s.chip.loadN (dataStore b k + a + 8 * n) 8)) }.past 4)))) ∧
  (∀ (b : Fin 32) (k : Fin 60) (w : Nat) (s : State),
    s.chip.nextWord b k = some w → isGc w 1 0 = true →
    let x := s.chip.core b k
    let src := (Tbl.find? x.slots (x.xr (insRs1 w) % 8)).getD [0, 0, 0, 0]
    let dst := (Tbl.find? x.slots (x.xr (insRs2 w) % 8)).getD [0, 0, 0, 0]
    (x.freeTags ≠ [] → copyOutside src dst = false → ∃ tag ∈ x.freeTags,
      exec (.gcCopy b k .clean) s = .next (s.withChip (Chip.setCore { s.chip with freeCnt := s.chip.freeCnt + 1 } b k
        { (x.xw (insRd w) tag).past 4 with copies := Tbl.ins x.copies tag ⟨src, dst, false, false, false, none, false, none, none, 0⟩ }))) ∧
    (x.freeTags = [] → exec (.gcCopy b k .clean) s = .next (s.withChip (s.chip.setCore b k { x with stall := .copies })))) ∧
  (∀ (b : Fin 32) (k : Fin 60) (tag : Fin 8) (g : GCopy) (c d : Chip) (ok : Bool) (data : List Byte) (s : State),
    s.chip = c → Tbl.find? (c.core b k).copies tag.val = some g → g.ended = false → copyOutside g.src g.dst = false → g.wild = false → g.drop = none →
    c.down.get (benchHalf b) = false → c.awake (benchHalf b) = true → copyFits g.src g.dst = true →
    c.copyElems (BitVec.ofNat 13 (c.q (F.BENCH_STATUS_OWNER b))) b k g ok [] (slCount g.src) 0 data = .ok d →
    exec (.copyCompletion b k tag ok data []) s = .next (s.withChip (d.endCopy b k tag false))) ∧
  (∀ (b : Fin 32) (k : Fin 60) (w : Nat) (m : Cmd) (s : State),
    s.chip.nextWord b k = some w → (s.chip.core b k).task.bind s.chip.cmd? = some m → isGc w 2 0 = true →
    let x := s.chip.core b k
    let mine := x.copies.filter fun e => bit (x.xr (insRs1 w)) e.1
    mine.all (fun e => e.2.ended) = true →
    exec (.gcCwait b k .clean) s = .next (s.withChip (s.chip.setCore b k
      ((x.xw (insRd w) ((mine.filter fun e => e.2.err).map fun e => 2 ^ e.1).sum).past 4)))) ∧
  (∀ (b : Fin 32) (k : Fin 60) (w : Nat) (m : Cmd) (s : State),
    s.chip.nextWord b k = some w → (s.chip.core b k).task.bind s.chip.cmd? = some m → isGc w 5 0 = true →
    let x := s.chip.core b k
    exec (.gcDone b k .clean) s = .next (s.withChip (s.chip.setCore b k { x.past 4 with stall := .ended, exit := x.xr (insRs1 w) % 2 ^ 16 })))

/-- On a running core, of a dowel rs1 [13:0] whose half is not DOWN: where its party may read the dowel, gc.dwait goes
on once the dowel holds at least rs2, and otherwise makes a wait and stops the core; a core whose party may signal it,
with every copy ended, sets the dowel to the larger of its value and rs2 (gc.dsig) or adds rs2 (gc.dsig.add) and goes
on; while copies are in flight the signal waits for them. -/
def Obligations.GougeDowels : Prop :=
  (∀ (b : Fin 32) (k : Fin 60) (w : Nat) (m : Cmd) (s : State),
    s.chip.nextWord b k = some w → (s.chip.core b k).task.bind s.chip.cmd? = some m → isGc w 3 0 = true →
    let x := s.chip.core b k
    let d := x.xr (insRs1 w) % 16384
    let v := x.xr (insRs2 w)
    s.chip.down.get (dowelHalf d) = false → s.chip.dowelRead m.owner d = true →
    exec (.gcDwait b k .clean) s = .next (s.withChip (if v ≤ s.chip.dowel d then s.chip.setCore b k (x.past 4)
      else (s.chip.makeWait m.owner d v (.core b k) (some m.id.ring.val)).setCore b k { x with stall := .dowel d v }))) ∧
  (∀ (b : Fin 32) (k : Fin 60) (w : Nat) (m : Cmd) (s : State),
    s.chip.nextWord b k = some w → (s.chip.core b k).task.bind s.chip.cmd? = some m →
    let x := s.chip.core b k
    let d := x.xr (insRs1 w) % 16384
    s.chip.down.get (dowelHalf d) = false → s.chip.dowelSignal m.owner d = true → x.copies.all (fun e => e.2.ended) = true →
    (isGc w 4 0 = true → exec (.gcDsig b k .clean) s = .next (s.withChip ((s.chip.dowelMax d (x.xr (insRs2 w))).setCore b k (x.past 4)))) ∧
    (isGc w 4 1 = true → exec (.gcDsigAdd b k .clean) s = .next (s.withChip ((s.chip.dowelAdd m.owner d (x.xr (insRs2 w)) (some m.id.ring.val)).setCore b k (x.past 4))))) ∧
  (∀ (b : Fin 32) (k : Fin 60) (w : Nat) (m : Cmd) (s : State),
    s.chip.nextWord b k = some w → (s.chip.core b k).task.bind s.chip.cmd? = some m →
    let x := s.chip.core b k
    s.chip.down.get (dowelHalf (x.xr (insRs1 w) % 16384)) = false → s.chip.dowelSignal m.owner (x.xr (insRs1 w) % 16384) = true → x.copies.all (fun e => e.2.ended) = false →
    (isGc w 4 0 = true → exec (.gcDsig b k .clean) s = .next (s.withChip (s.chip.setCore b k { x with stall := .copies }))) ∧
    (isGc w 4 1 = true → exec (.gcDsigAdd b k .clean) s = .next (s.withChip (s.chip.setCore b k { x with stall := .copies }))))

/-- On a running core, with vector registers that hold the elements and a format of the kind the instruction takes:
gc.vcvt.n converts vl FP32 elements under CVT and packs them from byte 0 of vd, counting the values that saturated in
gcclamp and in the bench's register; gc.vcvt.w widens vl packed elements to FP32; gc.vcvt.mxn and gc.vcvt.mxw, at vl =
32 with SEW = 32 and LMUL at least 4, convert 32 elements to one MX block, its scale byte in gcmxs, and back. (How
gc.vcvt.w rounds an INT32 value, and that SAT and RND of rs1 choose what gc.vcvt.mxw gives beyond FP32, are assumption
145.) Only the destination registers, gcclamp, gcmxs, vstart, the pc and the retired count of the core change. -/
def Obligations.GougeConversions : Prop :=
  (∀ (b : Fin 32) (k : Fin 60) (w : Nat) (m : Cmd) (s : State),
    s.chip.nextWord b k = some w → (s.chip.core b k).task.bind s.chip.cmd? = some m → isGc w 6 0 = true →
    let c := s.chip
    let x := c.core b k
    let cvt := x.xr (insRs1 w) % 256
    let code := cvtFmt cvt
    vFits (insRs2 w) (4 * x.vl) = true → vFits (insRd w) (codeBytes code x.vl) = true → code < 8 →
    let r := (List.range x.vl).map fun i =>
      convert code (cvtSat cvt) (cvtRm cvt m.srAllowed (Config.freeValue (c.freeCnt + i)).toNat) (fp32.decode (x.vget (insRs2 w) 32 i))
    let y := x.vbytes (insRd w) (packElems code (r.map (·.1)))
    let n := (r.filter (·.2)).length
    exec (.gcVcvtN b k .clean) s = .next (s.withChip (((Chip.saturated { c with freeCnt := c.freeCnt + x.vl } b n).clampCmd m.id (decide (0 < n))).setCore b k
      ({ y with gcclamp := (y.gcclamp + n) % 2 ^ 64, vstart := 0 }.past 4)))) ∧
  (∀ (b : Fin 32) (k : Fin 60) (w : Nat) (m : Cmd) (s : State),
    s.chip.nextWord b k = some w → (s.chip.core b k).task.bind s.chip.cmd? = some m → isGc w 6 1 = true →
    let x := s.chip.core b k
    let code := bits (x.xr (insRs1 w)) 4 4
    vFits (insRd w) (4 * x.vl) = true → vFits (insRs2 w) (codeBytes code x.vl) = true → code < 8 →
    let vs := (List.range x.vl).map fun i => toFp32 (codeValue code (unpack code (fun q => x.vget (insRs2 w) 8 q) i))
    exec (.gcVcvtW b k .clean) s = .next (s.withChip (s.chip.setCore b k
      ({ vs.zipIdx.foldl (fun (y : Core) (e : Nat × Nat) => y.vset (insRd w) 32 e.2 e.1) x with vstart := 0 }.past 4)))) ∧
  (∀ (b : Fin 32) (k : Fin 60) (w : Nat) (m : Cmd) (s : State),
    s.chip.nextWord b k = some w → (s.chip.core b k).task.bind s.chip.cmd? = some m → isGc w 6 2 = true →
    let c := s.chip
    let x := c.core b k
    let cvt := x.xr (insRs1 w) % 256
    let code := cvtFmt cvt
    x.mxReady = true → vFits (insRs2 w) 128 = true → vFits (insRd w) (codeBytes code 32) = true → codeMx code = true →
    let r := mxConvert code (fun i => cvtRm cvt m.srAllowed (Config.freeValue (c.freeCnt + i)).toNat)
      ((List.range 32).map fun i => fp32.decode (x.vget (insRs2 w) 32 i))
    let y := x.vbytes (insRd w) (packElems code r.2.1)
    exec (.gcVcvtMxn b k .clean) s = .next (s.withChip (((Chip.saturated { c with freeCnt := c.freeCnt + 32 } b (b2n r.2.2)).clampCmd m.id r.2.2).setCore b k
      ({ y with gcmxs := r.1, gcclamp := (y.gcclamp + b2n r.2.2) % 2 ^ 64, vstart := 0 }.past 4)))) ∧
  (∀ (b : Fin 32) (k : Fin 60) (w : Nat) (m : Cmd) (s : State),
    s.chip.nextWord b k = some w → (s.chip.core b k).task.bind s.chip.cmd? = some m → isGc w 6 3 = true →
    let c := s.chip
    let x := c.core b k
    let cvt := x.xr (insRs1 w) % 256
    let code := cvtFmt cvt
    x.mxReady = true → vFits (insRd w) 128 = true → vFits (insRs2 w) (codeBytes code 32) = true → codeMx code = true →
    let r := (List.range 32).map fun i =>
      convert 6 (cvtSat cvt) (cvtRm cvt false 0) (mxValue code (x.gcmxs % 256) (unpack code (fun q => x.vget (insRs2 w) 8 q) i))
    let n := (r.filter (·.2)).length
    let y := (r.map (·.1)).zipIdx.foldl (fun (y : Core) e => y.vset (insRd w) 32 e.2 e.1) x
    exec (.gcVcvtMxw b k .clean) s = .next (s.withChip (((c.saturated b n).clampCmd m.id (decide (0 < n))).setCore b k
      ({ y with gcclamp := (y.gcclamp + n) % 2 ^ 64, vstart := 0 }.past 4))))

/-- At a swap, a vector entry, a drained row or a core's instruction (of an array, where no transfer in flight meets
what is left of its commands): a corrected error is counted, raises its event where enabled, and the step goes on; a
row's second corrected error within an hour takes a redundant row while one is free, with event, spare and ledger. A
double-bit error is counted, raises its event, zeroes the word, and ends the array's command with FAULT, or the task
that the bench runs (the detail of that FAULT is not stated and is free, assumption 2). (The store row of an error is an
operand, the part's own layout.) -/
def Obligations.StoreErrors : Prop :=
  (∀ (a : Fin 8) (off : Fin 0xC00000) (row : BitVec 16) (p : ArrJob × Cmd) (s : State), s.chip.engineHalted (.array a) = false → s.chip.noteRaces a = s.chip →
    let c := s.chip.inc (F.ARRAY_ECC_CORR a)
    let c := if c.on (F.ARRAY_CTL_EVT_CORR_EN a) then c.ev (arrayHalf a) 0x0110 (a.val :: storeArea off) else c
    let free := c.q (F.ARRAY_SPARES_STORE_ROWS_FREE a)
    let t := if c.storeErrs.contains (a.val, row.toNat) then
        (let d : Chip := { c with storeErrs := c.storeErrs.erase (a.val, row.toNat) }
          if 0 < free then ((d.dec (F.ARRAY_SPARES_STORE_ROWS_FREE a)).ev (arrayHalf a) 0x0112 [a.val, row.toNat]).spareTaken (arrayHalf a) 2 a (384 - free) (385 - free) else d)
      else { c with storeErrs := (a.val, row.toNat) :: c.storeErrs }
    (s.chip.nextSwap a = some p → exec (.swap a (.corrected off row)) s = .next (s.withChip (t.swap a))) ∧
    (s.chip.nextVector a = some p → exec (.vectorEntry a (.corrected off row)) s = .next (s.withChip (t.enterVector a))) ∧
    (s.chip.nextDrain a = some p → exec (.drainRow a (.corrected off row)) s = .next (s.withChip (t.drain a)))) ∧
  (∀ (a : Fin 8) (off : Fin 0xC00000) (row : BitVec 16) (j : ArrJob) (m : Cmd) (s : State),
    s.chip.engineHalted (.array a) = false →
    let o : Owner := BitVec.ofNat 13 (s.chip.q (F.ARRAY_STATUS_OWNER a))
    let c := (s.chip.inc (F.ARRAY_ECC_UNCORR a)).evBy (arrayHalf a) 0x0111 (some m.id.ring.val) o (a.val :: storeArea off ++ [o.toNat])
    let c := c.storeRaw (arrayStore a + alignDown off 8) (List.replicate 8 0)
    let x := c.arr a
    let t := (c.setArr a { x with
      shadow := x.shadow.filter fun t => t.1 != j.id
      jobs := x.jobs.map fun k => if k.id = j.id then { j with loading := false, streamed := j.vecs, drained := j.rows } else k }).setCmd
      (m.endWith .fault (jobDetail a j.sat j.streamed))
    (s.chip.nextSwap a = some (j, m) → exec (.swap a (.uncorrectable off row)) s = .next (s.withChip t)) ∧
    (s.chip.nextVector a = some (j, m) → exec (.vectorEntry a (.uncorrectable off row)) s = .next (s.withChip t)) ∧
    (s.chip.nextDrain a = some (j, m) → exec (.drainRow a (.uncorrectable off row)) s = .next (s.withChip t))) ∧
  (∀ (b : Fin 32) (k : Fin 60) (off : Fin 0x210000) (row : BitVec 16) (m : Cmd) (s : State),
    s.chip.coreRuns b k = true →
    exec (.gougeInstruction b k (.corrected off row)) s = .next (s.withChip ((s.chip.benchCorrected b k off row.toNat).instrStep b k)) ∧
    ((s.chip.bench b).task.bind s.chip.cmd? = some m → off.val < 0x200000 →
      let c := s.chip.inc (F.BENCH_ECC_UNCORR b)
      let c := c.evCmd (benchHalf b) 0x0211 m (b.val :: benchArea k off ++ [c.q (F.BENCH_STATUS_OWNER b)])
      let v := (Config.freeValue c.freeCnt).toNat
      exec (.gougeInstruction b k (.uncorrectable off row)) s = .next (s.withChip (((Chip.stopTask { c with freeCnt := c.freeCnt + 1 } m).complete
        (m.endWith .fault v) v).storeRaw (benchStore b + alignDown off 8) (List.replicate 8 0)))))

/-- A dispatched DECODE_AND_SUPPRESS on a free enabled unit, with no command of a higher class waiting for it, whose
candidates and anchors its party can read, the reads showing no error, and whose records it can write: the unit writes
the records of the kept candidates in order and the command is done with the detail of R160. A CROP_AND_RESIZE, on such
a unit too, in the lists of R162 without boxes is done with detail 0 and DONE_EMPTY, writing no byte; outside the lists,
where R162 leaves the outcome open, it is done, and writes no byte but those of its outputs. A done command is counted
and completes, counted once more where values of it saturated, and its unit is free. -/
def Obligations.PartingCommands : Prop :=
  (∀ (id : CmdId) (m : Cmd) (u : Half) (far : Far) (l : List Cand) (e d : Chip) (s : State),
    s.chip.takeable id partingOp = some m → m.opcode = 0x30 → s.chip.partingUnit m = some u → s.chip.partingFree u m = true →
    let c := (s.chip.put (F.PARTING_STATUS_OWNER u.idx) m.owner.toNat).put (F.PARTING_STATUS_SUPPRESS u.idx) 1
    let n := min (m.fld 1 48 13) 4096
    let m := { m with stage := .done, unit := u.idx }
    c.candidates m far [] c.freeCnt (List.range n) = (.ok l, e) →
    let good := l.filter Cand.valid
    let above := good.filter fun k => FV.le (fp32.decode (m.fld 4 0 32)) k.score
    let keep := suppress (min (m.fld 3 48 11) 1024) (bit (m.word 2) 62) (m.fld 2 48 11) (fp32.decode (m.fld 4 32 32))
      (e.freeCnt + 8192) (above.foldl (fun l k => insertCand k l) []) []
    Chip.storeEach { e with freeCnt := e.freeCnt + 8192 + 4096 * 4096 } m far (alignDown (m.fld 3 0 48) 32) (keep.map Cand.bytes) = (d, none) →
    exec (.decodeAndSuppress id far []) s = .next (s.withChip (d.setCmd { m with
      n := keep.length + (l.length - good.length) * 2 ^ 16 + above.length * 2 ^ 32 + b2n (decide (4096 < m.fld 1 48 13)) * 2 ^ 48 +
        b2n (decide (1024 < m.fld 3 48 11)) * 2 ^ 49
      empty := keep.isEmpty }))) ∧
  (∀ (id : CmdId) (m : Cmd) (u : Half) (far : Far) (s : State),
    s.chip.takeable id partingOp = some m → m.opcode = 0x31 → s.chip.partingUnit m = some u → s.chip.partingFree u m = true →
    let c := (s.chip.put (F.PARTING_STATUS_OWNER u.idx) m.owner.toNat).put (F.PARTING_STATUS_CROP u.idx) 1
    let m := { m with stage := .done, unit := u.idx }
    (m.cropWild = true → ∃ t, exec (.cropAndResize id far []) s = .next (s.withChip t) ∧
      SameBytesBut (fun x => alignDown (m.fld 4 0 48) 64 ≤ x ∧ x < m.cropAddr (m.fld 3 48 11) 0 0 0) c t) ∧
    (m.cropWild = false → m.fld 3 48 11 = 0 → exec (.cropAndResize id far []) s = .next (s.withChip (c.setCmd { m with n := 0, empty := true })))) ∧
  (∀ (id : CmdId) (m : Cmd) (s : State),
    s.chip.cmd? id = some m → m.stage = .done → partingOp m.opcode = true →
    let c := if m.clamped then s.chip.inc (F.PARTING_CLAMP_CNT_COUNT m.unit) else s.chip
    exec (.partingCompletion id) s =
      .next (s.withChip ((c.countPair (Reg.PARTING_CMD_CNT_LO m.unit) (Reg.PARTING_CMD_CNT_HI m.unit) 1).complete m m.n))) ∧
  (∀ (c : Chip) (m : Cmd), partingOp m.opcode = true → m.stage = .done →
    let d := c.partingIdle m
    d.q (F.PARTING_STATUS_SUPPRESS m.unit) = 0 ∧ d.q (F.PARTING_STATUS_CROP m.unit) = 0 ∧ d.q (F.PARTING_STATUS_OWNER m.unit) = 0)

/-- A dispatched CROP_AND_RESIZE in the lists of R162 on a free enabled unit, with no command of a higher class waiting
for it, none of whose accesses is refused and whose reads show no error: the boxes are done one after another, each
output element of each in turn; the detail is the number of boxes, and values that saturated mark the command. Every
output element of a box with a coordinate that is not finite is a converted NaN. -/
def Obligations.PartingCrops : Prop :=
  (∀ (id : CmdId) (m : Cmd) (u : Half) (far : Far) (s : State),
    s.chip.takeable id partingOp = some m → m.opcode = 0x31 → s.chip.partingUnit m = some u → s.chip.partingFree u m = true → m.cropWild = false →
    let c := (s.chip.put (F.PARTING_STATUS_OWNER u.idx) m.owner.toNat).put (F.PARTING_STATUS_CROP u.idx) 1
    let m := { m with stage := .done, unit := u.idx }
    let n := m.fld 3 48 11
    let r := (List.range n).foldl (fun x b => CropRun.box x m far [] b) ⟨c, 0, none⟩
    r.stop = none →
    exec (.cropAndResize id far []) s = .next (s.withChip (r.chip.setCmd { m with
      n := n, empty := decide (n = 0), clamped := m.clamped || decide (0 < r.sat) }))) ∧
  (∀ (c : Chip) (m : Cmd) (far : Far) (o : Seen) (box : List FV) (ch i j d0 : Nat), badBox box = true →
    ∃ mode, c.cropOut m far o box ch i j d0 = (.ok (convert (cvtFmt (m.fld 4 48 8)) (cvtSat (m.fld 4 48 8)) mode .nan), c))

/-- A dispatched attention or backward command, on whose engine with room its party has a share, with no other ready
command of the engine before it, is taken: it runs, or without tokens is done with DONE_EMPTY. Its first step, whose
reads show no error, as in the later ones, reads parameter block, token records and segment entries; a command that
states what the rules ask for and whose segments fit enters its first phase and asks for admission as a pinning
operation. In its last phase an admitted attention command whose frames can be pinned and whose operands can be read
writes its statistics if asked and its outputs and counts its saturated values; an admitted backward command writes dQ
and the gradients. A done command drops its pins and completes with the detail of R183. -/
def Obligations.AttentionCommands : Prop :=
  (∀ (op : Nat) (id : CmdId) (m : Cmd) (h : Half) (far : Far) (o : Seen) (s : State),
    (op = 0x40 ∨ op = 0x41) → s.chip.takeable id (fun o => o == 0x40 || o == 0x41) = some m → m.opcode = op →
    s.chip.engineHalted (.attention id) = false → s.chip.attnEngine m = some h → (s.chip.attnCmds h).length < 64 →
    s.chip.shareOn (40 + h.idx) m.owner ≠ 0 → s.chip.attnOutranked h m = false → (op = 0x41 → m.owner.part = 0 ∨ s.chip.partClass m.owner.part ≠ 0) →
    let n := { m with half := h, unit := 0, n := 0, aux := [], stage := if m.nTok = 0 then .done else .running, empty := m.empty || m.nTok == 0 }
    (op = 0x40 → exec (.attentionCommand id far o) s = .next (s.withChip (s.chip.setCmd n))) ∧
    (op = 0x41 → exec (.backwardPass id far o) s = .next (s.withChip (s.chip.setCmd n)))) ∧
  (∀ (id : CmdId) (m : Cmd) (x : AttnOps) (bs : List Byte) (far : Far) (s : State),
    s.chip.cmd? id = some m → m.stage = .running → s.chip.engineHalted (.attention m.id) = false → s.chip.awake m.half = true →
    s.chip.attnOutranked m.half m = false → m.attn.phase = 0 → s.chip.reach m m.paramAddr 64 far = .ok bs →
    let n := m.withAttn { m.attn with par := (List.range 4).map fun k => leNat ((bs.drop (8 * k)).take 8) }
    s.chip.attnOps n far = .ok x →
    let c := s.chip.touches n [(n.paramAddr, 64), (n.tokAddr, 8 * n.nTok), (n.segAddr, 32 * n.nSeg)]
    c.attnWild n x = false → x.tooLong (n.appends x) = false →
    let n := n.withAttn { n.attn with phase := if n.appends x then 1 else 3 }
    let t := ((c.setCmd n).askPin n.half n.id n.pinPlaces).2
    (m.opcode = 0x40 → exec (.attentionCommand id far []) s = .next (s.withChip t)) ∧
    (m.opcode = 0x41 → exec (.backwardPass id far []) s = .next (s.withChip t))) ∧
  (∀ (id : CmdId) (m : Cmd) (x : AttnOps) (far : Far) (c d : Chip) (s : State),
    s.chip.cmd? id = some m → m.stage = .running → (s.chip.pinOps.get m.half).contains m.id = true →
    s.chip.engineHalted (.attention m.id) = false → s.chip.awake m.half = true → s.chip.attnOutranked m.half m = false → m.attn.phase = 4 →
    s.chip.attnOps m far = .ok x → s.chip.attnWild m x = false →
    (m.opcode = 0x40 → s.chip.attnPinAll m far x (x.pages (m.appends x)) = .ok c → c.kvPoison m x (m.appends x) = none →
      c.reachCause m.half m.owner false m.qAddr (m.nTok * x.par.heads * x.par.qRow) far = none →
      let c := c.touches m [(m.qAddr, m.nTok * x.par.heads * x.par.qRow)]
      let r := c.attnResults m x
      let sat := r.2.2 + c.kvSat m x (m.appends x)
      let n := { m with clamped := m.clamped || decide (0 < sat) }
      let l := (if x.par.saveStats then [(x.par.stats, r.1)] else []) ++ [(m.oAddr, r.2.1)]
      (Chip.count { c with freeCnt := c.freeCnt + 1 } (F.ATTN_CLAMP_CNT_COUNT m.half.idx) sat).attnStore n far l = .ok d →
      exec (.attentionCommand id far []) s =
        .next (s.withChip ((d.touches n (l.map fun r => (r.1, r.2.length))).setCmd { n with stage := .done }))) ∧
    (m.opcode = 0x41 → s.chip.attnPinAll m far x (x.pages false) = .ok c → c.kvPoison m x false = none →
      (m.backReads x).findSome? (fun r => c.reachCause m.half m.owner false r.1 r.2 far) = none →
      let c := c.touches m (m.backReads x)
      let r := c.backResults m x
      let sat := r.2.1 + c.kvSat m x false
      let n := { m with clamped := m.clamped || decide (0 < sat) }
      let l := (m.kvNew, r.1) :: r.2.2
      (Chip.count { c with freeCnt := c.freeCnt + 1 } (F.ATTN_CLAMP_CNT_COUNT m.half.idx) sat).attnStore n far l = .ok d →
      exec (.backwardPass id far []) s =
        .next (s.withChip ((d.touches n (l.map fun r => (r.1, r.2.length))).setCmd { n with stage := .done })))) ∧
  (∀ (id : CmdId) (m : Cmd) (s : State),
    s.chip.cmd? id = some m → (m.opcode = 0x40 ∨ m.opcode = 0x41) → m.stage = .done →
    exec (.attentionCompletion id) s = .next (s.withChip ((s.chip.kvUnpinAll id).complete m m.attnDetail)))

/-- A dispatched batch with records starts, with none of a higher class waiting on its half; without records it
completes with detail 0. On the next record of a running batch that its party may read and write, its read showing no
error: ALLOC takes the head of the free list, LIVE with one reference for the requester, and writes its number into the
entry if one is given; ACQUIRE and RELEASE of a LIVE frame of the requester add and remove one reference, and a frame
with no reference and no pin goes to zeroing; QUERY of a frame of the requester gives its state and counts. Each writes
its record, counts at its ledger and moves the batch on. -/
def Obligations.LedgerBatches : Prop :=
  (∀ (id : CmdId) (m : Cmd) (s : State), s.chip.takeable id (· == 0x48) = some m →
    s.chip.behind m (· == 0x48) (fun e => e.half == m.half) = false →
    exec (.ledgerBatch id) s = .next (s.withChip (if m.batchOps = 0 then s.chip.complete m 0
      else (s.chip.setCmd { m with stage := .running, n := 0, aux := [0, 0, 0, 0] }).skipReserved id m.batchOps))) ∧
  (∀ (id : CmdId) (m : Cmd) (r : OpRec) (n : Nat) (c : Chip) (s : State),
    s.chip.cmd? id = some m → m.opcode = 0x48 → m.stage = .running → s.chip.nextRecord m = .ok r → r.op = 1 →
    (r.entry = 0 ∨ s.chip.entryOk m r.entry = true) → m.owner.world = false →
    s.chip.on (F.KVL_CTL_ENABLE r.half.idx) = true → s.chip.down.get r.half = false →
    (s.chip.start.get r.half).zeroing = false → s.chip.kvUsed r.half m.owner.part < s.chip.q (F.KVL_QUOTA_FRAMES r.half.idx m.owner.part) → s.chip.popFree r.half = some (n, c) →
    let d := c.setFrame r.half n ⟨1, 1, 0, m.owner⟩
    let d := if r.entry ≠ 0 then d.putEntry m r.entry (frameId r.half n) else d
    exec (.alloc id []) s = .next (s.withChip ((d.recordDone m r (r.home m) 0 (frameId r.half n) none).skipReserved id m.batchOps))) ∧
  (∀ (id : CmdId) (m : Cmd) (r : OpRec) (h : Half) (n : Nat) (e : Frame) (s : State),
    s.chip.cmd? id = some m → m.opcode = 0x48 → m.stage = .running → s.chip.nextRecord m = .ok r →
    s.chip.kvLive m.owner r.frame = .ok (h, n, e) →
    (r.op = 2 → e.ref < 65535 → exec (.acquire id []) s = .next (s.withChip
      (((s.chip.setFrame h n { e with ref := e.ref + 1 }).recordDone m r (r.home m) 0 r.frame none).skipReserved id m.batchOps))) ∧
    (r.op = 3 → exec (.release id []) s = .next (s.withChip (((s.chip.setFrame h n
      { e with ref := e.ref - 1, state := if 0 < e.ref - 1 then 1 else if 0 < e.pin then 2 else 3 }).recordDone m r (r.home m) 0 r.frame none).skipReserved id m.batchOps)))) ∧
  (∀ (id : CmdId) (m : Cmd) (r : OpRec) (h : Half) (n : Nat) (s : State),
    s.chip.cmd? id = some m → m.opcode = 0x48 → m.stage = .running → s.chip.nextRecord m = .ok r → r.op = 5 →
    s.chip.frameNo r.frame = some (h, n) → (s.chip.frame h n).owner = m.owner →
    exec (.query id []) s = .next (s.withChip ((s.chip.recordDone m r (r.home m) 0 r.frame (some (s.chip.frame h n))).skipReserved id m.batchOps)))

/-- COW of a shared frame of the requester, admitted as a pinning operation, the read of its record showing no error,
pins it, takes a new frame and waits while the copy runs; of a private frame it answers 0x01. When the copy, by a
Carriage of the half, ends and its reads show no error, the whole frame is copied, the entry names the new frame, the
old one loses its reference and its pin, and the ledger counts it. A pinning operation that has its place takes a pin on
a LIVE frame of its party; a finished one drops it; the first that waits is admitted while its places fit in 127. A
zeroed frame is FREE, reads zero and goes to the end of the free list. -/
def Obligations.LedgerCopies : Prop :=
  (∀ (id : CmdId) (m : Cmd) (r : OpRec) (c c1 c2 : Chip) (h : Half) (n g : Nat) (e : Frame) (s : State),
    s.chip.cmd? id = some m → m.opcode = 0x48 → m.stage = .running → s.chip.nextRecord m = .ok r → r.op = 4 → m.cowHeld = none →
    s.chip.askPin m.half id 1 = (true, c) → c.entryOk m r.entry = true →
    let f := c.entryFrame m r.entry
    let d := c.tookEntry m r.entry
    d.kvLive m.owner f = .ok (h, n, e) →
    (e.ref = 1 → exec (.cow id []) s = .next (s.withChip ((Chip.recordDone { d with pinOps := d.pinOps.set m.half ((d.pinOps.get m.half).erase id) }
      m r h 1 f none).skipReserved id m.batchOps))) ∧
    (e.ref ≠ 1 → d.kvPin m f = .ok c1 → c1.kvAlloc h m.owner = .done c2 g → exec (.cow id []) s = .next (s.withChip
      ((c2.countOp h false).setCmd { m with stage := .waiting, aux := m.aux.take 4 ++ [f, g, r.entry] })))) ∧
  (∀ (id : CmdId) (m : Cmd) (h g : Half) (n k : Nat) (r : OpRec) (c : Chip) (e : Frame) (s : State),
    s.chip.cmd? id = some m → m.opcode = 0x48 → m.stage = .waiting →
    let old := m.aux.getD 4 0
    let new := m.aux.getD 5 0
    let entry := m.aux.getD 6 0
    s.chip.frameNo old = some (h, n) → s.chip.frameNo new = some (g, k) → (s.chip.carriageOf h).isSome = true →
    s.chip.poisoned (s.chip.frameAddr h n) (s.chip.kvPool h).2.1 = none →
    let b := (s.chip.store (s.chip.frameAddr g k) (s.chip.load (s.chip.frameAddr h n) (s.chip.kvPool h).2.1)).carriageDid h (s.chip.kvPool h).2.1
    b.entryOk m entry = true →
    let d := b.putEntry m entry new
    d.kvLive m.owner old = .ok (h, n, e) →
    c = (((d.settle h n { e with ref := e.ref - 1 }).countOp h false).kvUnpin id old).inc (F.KVL_COW_CNT_COUNT h.idx) →
    Chip.nextRecord { c with pinOps := c.pinOps.set m.half ((c.pinOps.get m.half).erase id) } m = .ok r →
    exec (.cowCopyCompletion id []) s = .next (s.withChip ((Chip.recordDone { c with pinOps := c.pinOps.set m.half ((c.pinOps.get m.half).erase id) }
      m r h 0 new none).skipReserved id m.batchOps))) ∧
  (∀ (id : CmdId) (m : Cmd) (f : Fin 262144) (h : Half) (n : Nat) (e : Frame) (s : State),
    s.chip.cmd? id = some m → pinningOp m.opcode = true → (s.chip.pinOps.get m.half).contains id = true → m.stage ≠ .withdrawn →
    s.chip.kvPins.contains (m.id, f.val) = false → s.chip.kvLive m.owner f = .ok (h, n, e) →
    ∃ t, exec (.pin id f) s = .next (s.withChip t) ∧ t.frame h n = { e with pin := e.pin + 1 } ∧ t.kvPins = (m.id, f.val) :: s.chip.kvPins ∧
      s.chip.q (F.KVL_PIN_MAX_PIN h.idx) ≤ t.q (F.KVL_PIN_MAX_PIN h.idx) ∧ t.mem = s.chip.mem) ∧
  (∀ (id : CmdId) (f : Fin 262144) (h : Half) (n : Nat) (s : State),
    (∀ m, s.chip.cmd? id = some m → m.stage = .done) → s.chip.kvPins.contains (id, f.val) = true → s.chip.frameNo f = some (h, n) →
    let e := s.chip.frame h n
    ∃ t, exec (.unpin id f) s = .next (s.withChip t) ∧
      t.frame h n = { e with pin := e.pin - 1, state := if 0 < e.ref then 1 else if 0 < e.pin - 1 then 2 else 3 } ∧
      t.kvPins = s.chip.kvPins.erase (id, f.val) ∧ t.mem = s.chip.mem) ∧
  (∀ (h : Half) (id : CmdId) (m : Cmd) (rest : List CmdId) (s : State),
    s.chip.pinWait.get h = id :: rest → s.chip.cmd? id = some m → (s.chip.pinOps.get h).length + m.pinPlaces ≤ 127 →
    exec (.pinAdmission h) s = .next (s.withChip { s.chip with
      pinWait := s.chip.pinWait.set h rest
      pinOps := s.chip.pinOps.set h (List.replicate m.pinPlaces id ++ s.chip.pinOps.get h) })) ∧
  (∀ (f : Fin 262144) (h : Half) (n : Nat) (s : State),
    s.chip.frameNo f = some (h, n) → (s.chip.frame h n).state = 3 →
    ∃ t, exec (.zeroingDone f) s = .next (s.withChip t) ∧ t.frame h n = ⟨0, 0, 0, 0⟩ ∧
      t.kvBack.get h = s.chip.kvBack.get h ++ [n] ∧
      (∀ a, s.chip.frameAddr h n ≤ a → a < s.chip.frameAddr h n + (s.chip.kvPool h).2.1 → ¬ inWindow a → t.byte a = 0) ∧
      SameBytesBut (fun a => s.chip.frameAddr h n ≤ a ∧ a < s.chip.frameAddr h n + (s.chip.kvPool h).2.1) s.chip t)

/-- A dispatched strided, gather, page-list or fill move is taken by a Carriage of its half that is in service and runs
fewer than 32 moves, with no move of a higher class waiting on the half: with nothing to do it is ready to complete with
DONE_EMPTY; otherwise it runs and its requests are issued, their list reads showing no error, after it took its place at
the check-value unit that it names, a page-list move asked for its place among the pinning operations, and the granules
of a fill of zeros are noted. -/
def Obligations.MovesStart : Prop :=
  ∀ (op : Nat) (id : CmdId) (k : Fin 16) (m : Cmd) (far : Far) (s : State),
    s.chip.takeable id moveOp = some m → m.opcode = op → Half.ofIdx (k.val / 8) = m.half →
    s.chip.on (F.CARRIAGE_CTL_ENABLE k) = true → s.chip.unitOn (40 + k.val) = true → (s.chip.movesOn k).length < 32 →
    s.chip.behind m moveOp (fun e => e.half == m.half) = false →
    let m := { m with stage := .running, unit := k.val, n := 0, aux := [0, 0, 0, 0] }
    s.chip.badMove m = none →
    let n := { m with aux := [0, b2n (s.chip.overlapping m), 0, 0] }
    let c := if m.zeroFill then { s.chip with filling := m.fillGranules ++ s.chip.filling } else s.chip
    let t (f : Far) : Chip := if m.moveEmpty then s.chip.setCmd { m with aux := [0, 0, 1, 0], empty := true }
      else (if op = 0x52 then (((c.setCmd n).cvuQueue n).askPin m.half id 1).2 else (c.setCmd n).cvuQueue n).pump m.half (some (id, f, []))
    (op = 0x50 → exec (.stridedMove id k) s = .next (s.withChip (t .answered))) ∧ (op = 0x51 → exec (.gatherMove id k far []) s = .next (s.withChip (t far))) ∧
    (op = 0x52 → exec (.pageListMove id k far []) s = .next (s.withChip (t far))) ∧ (op = 0x53 → exec (.fillMove id k) s = .next (s.withChip (t .answered)))

/-- Where no command in progress on an array meets the transfer and the reads of the step show no error: the
acknowledgement of a write to memory stores its bytes at its address, counts them at the Carriage and for the move, and
frees its tracker entry; the data that a read of memory returns is written on in the same tracker entry; the moves of
the half then issue what they can. A move that has issued all it will and has no transaction in flight drops its pins,
is counted and completes with the bytes written and its entries. -/
def Obligations.MovesWork : Prop :=
  (∀ (t : Nat) (ok : Bool) (data : List Byte) (x : Txn) (m : Cmd) (s : State),
    Tbl.find? s.chip.txns t = some x → s.chip.cmd? x.id = some m → x.sent.isSome = true → x.write = true →
    s.chip.arrivesLater x = false → m.stage ≠ .withdrawn → (s.chip.arrayRace true x.addr x.data.length).1 = false →
    inWindow x.addr = false → 0x40000000 ≤ x.addr → m.zeroFill = false → m.feeds = false →
    let list : Option (CmdId × Far × Seen) := if inWindow (m.listAddr m.n) then none else some (x.id, .answered, [])
    exec (.transactionReturn t ok data []) s = .next (s.withChip
      (((((s.chip.store x.addr x.data).countPair (Reg.CARRIAGE_BYTES_LO x.unit) (Reg.CARRIAGE_BYTES_HI x.unit) x.len).setCmd
        { m with bytes := m.bytes + x.len }).endTxn t x.id).pump x.half list))) ∧
  (∀ (t : Nat) (ok : Bool) (data : List Byte) (x : Txn) (m : Cmd) (s : State),
    Tbl.find? s.chip.txns t = some x → s.chip.cmd? x.id = some m → x.sent.isSome = true → x.write = false → s.chip.arrivesLater x = false → (s.chip.arrayRace false x.addr x.len).1 = false →
    inWindow x.addr = false → 0x40000000 ≤ x.addr → s.chip.poisoned x.addr x.len = none → m.stage ≠ .withdrawn →
    s.chip.windowGone x.half x.dst = false → m.aux.getD 1 0 ≠ 1 →
    let list : Option (CmdId × Far × Seen) := if inWindow (m.listAddr m.n) then none else some (x.id, .answered, [])
    exec (.transactionReturn t ok data []) s = .next (s.withChip ((Chip.sendTxn { s.chip with txns := (Tbl.ins s.chip.txns t
      { x with write := true, addr := x.dst, data := s.chip.load x.addr x.len, sent := none, via := none }) } t).pump x.half list))) ∧
  (∀ (id : CmdId) (m : Cmd) (s : State),
    s.chip.cmd? id = some m → 0x50 ≤ m.opcode → m.opcode ≤ 0x53 → m.stage = .running → m.issued = true → s.chip.txnsOf id = [] →
    let ents := if m.opcode = 0x51 ∨ m.opcode = 0x52 then m.moveEntries else 0
    exec (.moveCompletion id) s = .next (s.withChip (((((s.chip.kvUnpinAll m.id).markClean m).countPair (Reg.CARRIAGE_MOVE_CNT_LO m.unit)
      (Reg.CARRIAGE_MOVE_CNT_HI m.unit) 1).complete m (m.bytes % 2 ^ 40 + ents % 2 ^ 24 * 2 ^ 40)).pumpBoth m.half)))

/-- Where scrub is enabled on a clocked half that is up: a unit read clean changes nothing; a symbol of a used die that
was corrected, with no die marked and the hour's count not past 256, and up to eight symbols of a marked die, count at
the stack and the die and raise the event if enabled; an uncorrectable unit is counted, latched, poisoned, its granule
no longer clean, with event 0x0311. When a rebuild ends the spare has the role of the marked die, which holds no symbols
any more, no die is marked, and the event, the ledger and the spares say so. -/
def Obligations.StacksScrubbed : Prop :=
  (∀ (x : Fin 4) (u : BitVec 28) (s : State),
    s.chip.down.get (stackHalf x) = false → s.chip.awake (stackHalf x) = true → s.chip.on (F.MEM_CTL_SCRUB_EN x) = true →
    let c := s.chip
    let a := unitAddr x u.toNat
    exec (.patrolScrub x u .clean) s = .next (s.withChip c) ∧
    (∀ (d : Fin 6) (n : Fin 9), n.val ≠ 0 → c.dieInUse x d.val = true →
      (n.val = 1 ∧ c.on (F.MEM_STATUS_MARKED x) = false ∧ c.q (F.MEM_DIE_CORR_HOUR x d.val) < 256) ∨
        (c.on (F.MEM_STATUS_MARKED x) = true ∧ c.q (F.MEM_STATUS_MARKED_DIE x) = d.val) →
      let k := ((c.count (F.MEM_CORR_COUNT x) n.val).count (F.MEM_DIE_CORR_HOUR x d.val) n.val).count (F.MEM_DIE_CORR_TOTAL x d.val) n.val
      exec (.patrolScrub x u (.corrected d n)) s = .next (s.withChip (if c.on (F.MEM_CTL_EVT_CORR_EN x) then
        (List.range n.val).foldl (fun (e : Chip) _ => e.ev (stackHalf x) 0x0310 [x.val, d.val, a]) k else k))) ∧
    (let o := ownOwner (c.ownAt ((ownIndex a).getD 0))
      let k := ((c.inc (F.MEM_UNCORR_COUNT x)).setReg (Reg.MEM_POISON_LO x) (a % 2 ^ 32)).setReg (Reg.MEM_POISON_HI x) (a / 2 ^ 32)
      let k := if k.poison.contains a then k else { k with poison := a :: k.poison }
      exec (.patrolScrub x u .uncorrectable) s =
        .next (s.withChip ((k.dirty a 64).evOf (stackHalf x) 0x0311 (BitVec.ofNat 13 o) [x.val, a, o])))) ∧
  (∀ (x : Fin 4) (s : State),
    let c := s.chip
    let h := stackHalf x
    c.down.get h = false → c.awake h = true → c.on (F.MEM_STATUS_REBUILDING x) = true →
    let d := c.q (F.MEM_STATUS_MARKED_DIE x)
    let sp := c.q (F.MEM_STATUS_SPARE_DIE x)
    let c := if c.q (F.MEM_STATUS_CHECK_DIE x) = d then c.put (F.MEM_STATUS_CHECK_DIE x) sp else c
    let c := (((c.put (F.MEM_STATUS_MARKED x) 0).put (F.MEM_STATUS_REBUILDING x) 0).put (F.MEM_STATUS_PROGRESS x) 100).put (F.MEM_STATUS_SPARE_USED x) 1
    let c : Chip := { c with dieOut := Tbl.put 0 c.dieOut x (d + 1) }
    let e := c.ev h 0x0314 [x.val, d, sp]
    exec (.rebuildComplete x) s = .next (s.withChip
      ((e.ledger h 3 (wearBody [x.val, d, sp]) (c.wearSets (wearWords ++ unitWords 6 x))).spareTaken h 6 x sp 1)))

/-- An event changes no register but the tail, the status and the done counter of firmware's default event ring and of
the event ring of the party it names, and the count of the error log; no byte outside the memory of those two rings; and
besides registers and memory only what a store changes, the ring controller's state, interrupts, the error log and the
ledger. An event that names no party, with firmware's default event ring in service, willing, not full and writable,
puts the record of R250 at its tail, moves the tail on by one and counts it. -/
def Obligations.EventsWritten : Prop :=
  (∀ (c : Chip) (e : Event),
    let t := c.raise e
    let mine (r : Nat) : Prop := c.defaultEq 0 = some r ∨ c.partyEq e = some r
    SameRegsBut (fun a => a = Reg.WEAR_LOG_CNT ∨ ∃ r, mine r ∧ (a = Reg.RING_TAIL r ∨ a = Reg.RING_STATUS r ∨ a = Reg.RING_DONE_LO r ∨ a = Reg.RING_DONE_HI r)) c t ∧
    SameBytesBut (fun a => ∃ r, mine r ∧ c.inRing r 64 a) c t ∧
    t = { c with
      regs := t.regs, mem := t.mem, poison := t.poison, own := t.own, filling := t.filling, cores := t.cores, rings := t.rings,
      irqs := t.irqs, log := t.log, ledgerSeq := t.ledgerSeq, flash := t.flash }) ∧
  (∀ (c : Chip) (h : Half) (code r : Nat) (d : List Nat) (x : RingSt),
    c.defaultEq 0 = some r → c.ringSt? r = some x → x.deaf = false → c.ringFull r 0 = false →
    let tail := c.reg (Reg.RING_TAIL r)
    let a := c.ringEntry r tail 64
    c.rangeCause x.owner true a 64 = none → (∀ k, k < 64 → inWindow (a + k) = false) → 0x40000000 ≤ a →
    (c.ev h code d).load a 64 = Event.bytes ⟨h, code, none, none, d⟩ (c.stamp h 0) ((x.written / 2 ^ c.q (F.RING_CFG_SIZE_LOG2 r) + 1) % 2) tail x.lost ∧
    (c.ev h code d).reg (Reg.RING_TAIL r) = (tail + 1) % 2 ^ 32 ∧
    (c.ev h code d).pair (Reg.RING_DONE_LO r) (Reg.RING_DONE_HI r) = min (c.pair (Reg.RING_DONE_LO r) (Reg.RING_DONE_HI r) + 1) (2 ^ 64 - 1))

/-- A completion changes no register but the status and the done counter of the command's ring, the tail, status and
done counter of its completion ring and of firmware's event ring and of the event ring linked to the command's ring, the
value of the dowel it names, the status of the Parting unit that has run it, the command count of its attention engine
and the count of the error log; no byte outside the memory of those rings; and besides only what a store changes, the
commands in flight, ring state, interrupts, the error log and the ledger. On a willing writable completion ring it puts
the record of R249 at the tail, moves the tail on by one, takes the command out of flight and signals the dowel that
word 7 names, where its half is not DOWN. -/
def Obligations.CompletionsWritten : Prop :=
  (∀ (c : Chip) (m : Cmd) (alt : Bool) (gen detail : Nat),
    let t := c.completeWith m alt gen detail
    let events (r : Nat) : Prop := c.defaultEq 0 = some r ∨ c.q (F.RING_LINK_EQ m.id.ring) = r
    let d := m.fld 7 48 14
    SameRegsBut (fun a => a = Reg.WEAR_LOG_CNT ∨ a = Reg.DOWEL_VAL_LO d ∨ a = Reg.DOWEL_VAL_HI d ∨ a = Reg.RING_STATUS m.id.ring ∨
      a = Reg.RING_DONE_LO m.id.ring ∨ a = Reg.RING_DONE_HI m.id.ring ∨ (partingOp m.opcode = true ∧ m.stage = .done ∧ a = Reg.PARTING_STATUS m.unit) ∨
      (m.isAttn = true ∧ (a = Reg.ATTN_CMD_CNT_LO m.half.idx ∨ a = Reg.ATTN_CMD_CNT_HI m.half.idx)) ∨
      ∃ r, (r = m.cq ∨ events r) ∧ (a = Reg.RING_TAIL r ∨ a = Reg.RING_STATUS r ∨ a = Reg.RING_DONE_LO r ∨ a = Reg.RING_DONE_HI r)) c t ∧
    SameBytesBut (fun a => c.inRing m.cq 32 a ∨ ∃ r, events r ∧ c.inRing r 64 a) c t ∧
    t = { c with
      regs := t.regs, mem := t.mem, poison := t.poison, own := t.own, filling := t.filling, cores := t.cores, rings := t.rings,
      irqs := t.irqs, log := t.log, ledgerSeq := t.ledgerSeq, flash := t.flash, cmds := t.cmds }) ∧
  (∀ (c : Chip) (m : Cmd) (alt : Bool) (gen detail : Nat) (x : RingSt),
    c.ringSt? m.cq = some x → c.q (F.RING_CFG_KIND m.cq) = 2 → x.deaf = false → m.ended = none →
    let tail := c.reg (Reg.RING_TAIL m.cq)
    let a := c.ringEntry m.cq tail 32
    c.rangeCause x.owner true a 32 = none → (∀ k, k < 32 → inWindow (a + k) = false) → 0x40000000 ≤ a →
    let t := c.completeWith m alt gen detail
    let d := m.fld 7 48 14
    t.cmds = (c.dropCmd m.id).cmds ∧ t.reg (Reg.RING_TAIL m.cq) = (tail + 1) % 2 ^ 32 ∧
    (bit (m.word 0) 11 = false → t.load a 32 = (c.latest m).record alt (compact (c.stamp (ringHalf m.id.ring) 0)) gen detail
      ((x.written / 2 ^ c.q (F.RING_CFG_SIZE_LOG2 m.cq) + 1) % 2)) ∧
    (bit (m.word 0) 11 = true → c.down.get (dowelHalf d) = false → c.dowelSignal m.owner d = true →
      (m.fld 7 62 2 = 0 → t.dowel d = max (c.dowel d) (m.fld 7 0 48)) ∧
      (m.fld 7 62 2 = 1 → t.dowel d = min (c.dowel d + m.fld 7 0 48) (2 ^ 64 - 1))))

/-- A doorbell write by an initiator that reaches the page, exists and may have work fetched: on a submission ring in
service a value between tail and the ring's end becomes the tail, on a completion or event ring a value between head and
tail becomes the head; any other value counts one in RING_BAD_DB and raises event 0x0400; on a ring that is not in
service nothing changes. -/
def Obligations.RingDoorbells : Prop :=
  ∀ (i : Initiator) (r : Fin 65536) (v : Word) (s : State),
    s.chip.portCause i true (Reg.RING_DB r) = 0 → s.chip.partyExists i.owner = true → s.chip.mayFetch i.owner = true → s.chip.down.get (ringHalf r) = false →
    let c := s.chip
    let head := c.reg (Reg.RING_HEAD r)
    let tail := c.reg (Reg.RING_TAIL r)
    let used := (tail + 2 ^ 32 - head) % 2 ^ 32
    let dist := (v.toNat + 2 ^ 32 - head) % 2 ^ 32
    let kind := c.q (F.RING_CFG_KIND r)
    let bad (x : RingSt) := (c.inc (F.RING_BAD_DB_COUNT r)).raise ⟨ringHalf r, 0x0400, if kind = 1 then some r.val else none, some x.owner, [r.val, v.toNat, head, tail]⟩
    (c.ringSt? r = none ∨ kind = 0 → exec (.doorbell i r v) s = .next (s.withChip c)) ∧
    (∀ x, c.ringSt? r = some x → kind = 1 → exec (.doorbell i r v) s = .next (s.withChip
      (if used ≤ dist ∧ dist ≤ 2 ^ c.q (F.RING_CFG_SIZE_LOG2 r) then c.setReg (Reg.RING_TAIL r) v.toNat else bad x))) ∧
    (∀ x, c.ringSt? r = some x → 2 ≤ kind → exec (.doorbell i r v) s = .next (s.withChip
      (if dist ≤ used then c.setReg (Reg.RING_HEAD r) v.toNat else bad x)))

/-- Firmware's enabling write to a ring out of service stores the fields of RING_CFG; with good links and size the ring
is in service with its indices and counters at 0 and the owner of its doorbell page latched, otherwise CFG_ERR is set;
to a ring whose disabling is held it takes the disabling back, and to any other ring in service it changes nothing. A
disabling write takes a ring that nothing needs out of service with the fields written; to a completion or event ring to
which a submission ring in service links, or with reservations, or to an event ring with a withdrawn command of its
owner in flight, the whole write is held (log entry 16); a held ring closes, with the fields held, once they are gone.
-/
def Obligations.RingService : Prop :=
  (∀ (i : Initiator) (r : Fin 65536) (cfg : BitVec 31) (s : State),
    i.isFirmware = true → s.chip.down.get (ringHalf r) = false → s.chip.ringSt? r = none →
    let c := s.chip.setReg (Reg.RING_CFG r) ((2 ^ 31 + cfg.toNat) / 2 ^ 29 * 2 ^ 29 + bits cfg.toNat 16 5 * 2 ^ 16 + bits cfg.toNat 0 2)
    let o : Owner := BitVec.ofNat 13 (ownOwner (s.chip.ownAt (doorbellEntry r)))
    (c.linksGood r o = true → ∃ t, exec (.ringEnable i r cfg) s = .next (s.withChip t) ∧
      t.ringSt? r = some ⟨o, false, 0, false, 0, 0, false, 0, (0, 0)⟩ ∧ t.reg (Reg.RING_CFG r) = c.reg (Reg.RING_CFG r) ∧
      t.on (F.RING_STATUS_ENABLED r) = true ∧ t.reg (Reg.RING_TAIL r) = 0 ∧ t.reg (Reg.RING_HEAD r) = 0 ∧ t.reg (Reg.RING_BAD_DB r) = 0 ∧
      t.pair (Reg.RING_DONE_LO r) (Reg.RING_DONE_HI r) = 0 ∧ t.mem = s.chip.mem ∧
      SameRegsBut (fun a => 0x10000000 + r.val * 0x1000 ≤ a ∧ a < 0x10001000 + r.val * 0x1000) s.chip t) ∧
    (c.linksGood r o = false → exec (.ringEnable i r cfg) s =
      .next (s.withChip ((c.put (F.RING_STATUS_CFG_ERR r) 1).put (F.RING_STATUS_ENABLED r) 0)))) ∧
  (∀ (i : Initiator) (r : Fin 65536) (cfg : BitVec 31) (x : RingSt) (s : State),
    i.isFirmware = true → s.chip.down.get (ringHalf r) = false → s.chip.ringSt? r = some x →
    exec (.ringDisable i r cfg) s = .next (s.withChip
      (if s.chip.q (F.RING_CFG_KIND r) ≠ 1 ∧ (s.chip.linked r = true ∨ 0 < x.resv ∨
          (s.chip.q (F.RING_CFG_KIND r) = 3 ∧ (s.chip.cmds.any fun m => m.owner == x.owner && m.stage == .withdrawn) = true))
        then s.chip.setRingSt r { x with heldClear := true, heldCfg := cfg.toNat }
       else (Chip.put { s.chip with rings := Tbl.del s.chip.rings r } (F.RING_STATUS_ENABLED r) 0).setReg (Reg.RING_CFG r)
         (bits cfg.toNat 29 2 * 2 ^ 29 + bits cfg.toNat 16 5 * 2 ^ 16 + bits cfg.toNat 0 2))) ∧
    exec (.ringEnable i r cfg) s = .next (s.withChip
      (if x.heldClear then s.chip.setRingSt r { x with heldClear := false } else s.chip))) ∧
  (∀ (i : Initiator) (r : Fin 65536) (cfg : BitVec 31) (s : State),
    i.isFirmware = true → s.chip.down.get (ringHalf r) = false → s.chip.ringSt? r = none →
    exec (.ringDisable i r cfg) s = .next (s.withChip (s.chip.setReg (Reg.RING_CFG r)
      (bits cfg.toNat 29 2 * 2 ^ 29 + bits cfg.toNat 16 5 * 2 ^ 16 + bits cfg.toNat 0 2)))) ∧
  (∀ (r : Fin 65536) (x : RingSt) (s : State),
    s.chip.ringSt? r = some x → x.heldClear = true → s.chip.linked r = false → x.resv = 0 →
    (s.chip.cmds.any fun m => m.owner == x.owner && m.stage == .withdrawn) = false →
    exec (.ringClose r) s = .next (s.withChip ((Chip.put { s.chip with rings := Tbl.del s.chip.rings r } (F.RING_STATUS_ENABLED r) 0).setReg (Reg.RING_CFG r)
      (bits x.heldCfg 29 2 * 2 ^ 29 + bits x.heldCfg 16 5 * 2 ^ 16 + bits x.heldCfg 0 2))))

/-- From a fetchable ring whose next entry its owner may read and that names no reserved signal, its read showing no
error, the controller appends one command with the owner, the class and the links of the ring, named by ring and index
and by no name in use, and advances head. The next command of a ring, with space in its completion ring, of a valid
partition and with an assigned opcode, is dispatched with one reservation; without space nothing is dispatched. A
dispatched no-op completes with detail 0. -/
def Obligations.RingCommands : Prop :=
  (∀ (r : Fin 65536) (x : RingSt) (s : State),
    s.chip.fetchable r = some x →
    let head := s.chip.reg (Reg.RING_HEAD r)
    let a := s.chip.ringEntry r head 64
    let c := s.chip.touched (ringHalf r) none x.owner a 64 0
    let words : List Dword := (List.range 8).map fun k => BitVec.ofNat 64 (c.loadN (a + 8 * k) 8)
    let w0 := (words.getD 0 0).toNat
    s.chip.rangeCause x.owner false a 64 = none → ¬ (bit w0 11 = true ∧ 2 ≤ bits (words.getD 7 0).toNat 62 2) →
    ∃ m : Cmd, m.id.ring = r ∧ m.id.seq = BitVec.ofNat 32 head ∧ c.cmd? m.id = none ∧ m.words = words ∧ m.owner = x.owner ∧ m.stage = .fetched ∧
      m.cls = (if x.owner.part = 0 then 0 else max (bits w0 8 2) (c.partClass x.owner.part)) ∧ m.cq = c.q (F.RING_LINK_CQ r) ∧
      exec (.descriptorFetch r []) s = .next (s.withChip
        { (c.setReg (Reg.RING_HEAD r) ((head + 1) % 2 ^ 32)) with cmds := c.cmds ++ [m] })) ∧
  (∀ (r : Fin 65536) (m : Cmd) (x : RingSt) (s : State),
    s.chip.nextDispatch r = some m → s.chip.ringSt? m.cq = some x →
    (x.deaf = true ∨ s.chip.ringFull m.cq x.resv = true → exec (.dispatch r) s = .next (s.withChip s.chip)) ∧
    (x.deaf = false → s.chip.ringFull m.cq x.resv = false → m.lowered = false → assigned m.opcode = true →
      s.chip.partValid m.owner.part = true →
      let c := ((s.chip.setRingSt m.cq { x with resv := x.resv + 1 }).inc (F.RING_STATUS_IN_FLIGHT r)).put (F.RING_STATUS_IDLE r) 0
      exec (.dispatch r) s = .next (s.withChip (Chip.setCmd { c with dispatched := s.chip.dispatched + 1 }
        { m with stage := .queued, order := s.chip.dispatched })))) ∧
  (∀ (id : CmdId) (m : Cmd) (s : State), s.chip.takeable id (· == 0x00) = some m →
    exec (.noOp id) s = .next (s.withChip (s.chip.complete m 0)))

/-- On a dowel whose half is not DOWN: a dispatched dowel-wait of a party that may read it completes when it holds the
target, and otherwise waits; a dowel-signal of a party that may signal it does the set-to-maximum or the add and
completes. A wait whose dowel holds the target ends: a command completes, a core goes on, an armed notify is disarmed
and raises event 0x0410; with a hardware wait at WAIT_SATISFIED, without one at the poll. -/
def Obligations.DowelCommands : Prop :=
  (∀ (id : CmdId) (m : Cmd) (s : State), s.chip.takeable id (· == 0x01) = some m → s.chip.down.get (dowelHalf (m.fld 1 0 14)) = false → s.chip.dowelRead m.owner (m.fld 1 0 14) = true →
    exec (.dowelWait id) s = .next (s.withChip (if m.word 2 ≤ s.chip.dowel (m.fld 1 0 14) then s.chip.complete m 0
      else (s.chip.setCmd { m with stage := .waiting }).makeWait m.owner (m.fld 1 0 14) (m.word 2) (.cmd id) (some m.id.ring.val)))) ∧
  (∀ (id : CmdId) (m : Cmd) (s : State), s.chip.takeable id (· == 0x02) = some m →
    let d := m.fld 1 0 14
    s.chip.down.get (dowelHalf d) = false → s.chip.dowelSignal m.owner d = true →
    (m.fld 1 62 2 = 0 → exec (.dowelSignal id) s = .next (s.withChip ((s.chip.dowelMax d (m.word 2)).complete m 0))) ∧
    (m.fld 1 62 2 = 1 → exec (.dowelSignal id) s = .next (s.withChip ((s.chip.dowelAdd m.owner d (m.word 2) (some m.id.ring.val)).complete m 0)))) ∧
  (∀ (d : Fin 16384) (who : Waiter) (w : Wait) (s : State), s.chip.wait? d who = some w → w.target ≤ s.chip.dowel d →
    let c := s.chip.dropWait w.dowel w.who
    let t := match w.who with
      | .cmd id => match c.cmd? id with
        | some m => c.complete m 0
        | none => c
      | .core b k => c.resumeCore b k
      | .notify => (c.put (F.DOWEL_ATTR_NOTIFY_ARMED w.dowel) 0).evOf (dowelHalf w.dowel) 0x0410 w.owner [w.dowel, c.dowel w.dowel]
    (w.hw = true → exec (.waitSatisfied d who) s = .next (s.withChip t)) ∧
    (w.hw = false → exec (.dowelPoll d who) s = .next (s.withChip t)))

/-- A low-word write by a party with the right is held for its initiator alone; a high-word write performs
set-to-maximum or add, or arms the notify, with the low word the initiator wrote last, zero if it wrote none;
DOWEL_ADD32 adds its value. Firmware's write of DOWEL_ATTR sets owner and scope; where the owner changes it zeroes the
value and ends every wait on the dowel, and where it does not the value and the waits stay. -/
def Obligations.DowelRegisters : Prop :=
  (∀ (i : Initiator) (d : Fin 16384) (v : Word) (s : State), s.chip.down.get (dowelHalf d) = false → s.chip.dowelSignal i.owner d = true →
    let arg := s.chip.held i (Reg.DOWEL_ARG_LO d) + v.toNat * 2 ^ 32
    exec (.dowelArgLo i d v) s = .next (s.withChip (s.chip.hold i (Reg.DOWEL_ARG_LO d) v.toNat)) ∧
    (s.chip.hold i (Reg.DOWEL_ARG_LO d) v.toNat).held i (Reg.DOWEL_ARG_LO d) = v.toNat ∧
    exec (.dowelMaxHi i d v) s = .next (s.withChip (s.chip.dowelMax d arg)) ∧
    exec (.dowelAddHi i d v) s = .next (s.withChip (s.chip.dowelAdd i.owner d arg)) ∧
    exec (.dowelAdd32 i d v) s = .next (s.withChip (s.chip.dowelAdd i.owner d v.toNat))) ∧
  (∀ (i : Initiator) (d : Fin 16384) (v : Word) (s : State), s.chip.down.get (dowelHalf d) = false → s.chip.dowelRead i.owner d = true →
    exec (.dowelNotifyLo i d v) s = .next (s.withChip (s.chip.hold i (Reg.DOWEL_NOTIFY_LO d) v.toNat)) ∧
    exec (.dowelNotifyHi i d v) s = .next (s.withChip (((s.chip.dropWait d .notify).makeWait i.owner d
      (s.chip.held i (Reg.DOWEL_NOTIFY_LO d) + v.toNat * 2 ^ 32) .notify).put (F.DOWEL_ATTR_NOTIFY_ARMED d) 1))) ∧
  (∀ (i : Initiator) (d : Fin 16384) (v : Word) (s : State), s.chip.down.get (dowelHalf d) = false → i.isFirmware = true →
    let owner := bits v.toNat 0 13
    let c := (s.chip.put (F.DOWEL_ATTR_SCOPE d) (bits v.toNat 16 2)).put (F.DOWEL_ATTR_OWNER d) owner
    (owner = s.chip.q (F.DOWEL_ATTR_OWNER d) → exec (.dowelAttr i d v) s = .next (s.withChip c) ∧ c.dowel d = s.chip.dowel d ∧ c.waits = s.chip.waits) ∧
    (owner ≠ s.chip.q (F.DOWEL_ATTR_OWNER d) → exec (.dowelAttr i d v) s = .next (s.withChip
      ((c.waits.filter fun w => w.dowel == d.val).foldl Chip.abandonWait (c.setPair (Reg.DOWEL_VAL_LO d) (Reg.DOWEL_VAL_HI d) 0)))))

/-- A publication that is first at a valid slot of its own producer, with a length, read as a multiple of 64, that the
slot takes, with a set in service, a free buffer and a Carriage for every such set and a source that can be read, is
copied into those buffers and runs on; bytes that an undetected error leaves wrong are free. When a copied publication
bumps its slot, the generation counts on, 1 after the largest, the written buffers become current, length and origin are
those of the descriptor, the halves written are those that hold the result, the doubt and the lateness of R321 and R333
are recorded, the doubt latch is cleared, and the publication leaves flight. -/
def Obligations.SlotsPublished : Prop :=
  (∀ (id : CmdId) (far : Far) (o : Seen) (g : Sight) (m : Cmd) (bs : List Byte) (d : Chip) (s : State),
    s.chip.slotCmd id 0x60 = some m →
    let n := m.slotNo
    let c := s.chip
    c.on (F.SLOT_CFG_VALID n) = true → c.q (F.SLOT_OWNER_PRODUCER n) = m.owner.toNat →
    m.slotLen ≠ 0 → m.slotLen ≤ c.slotBytes n → (c.slot n).queue.head? = some m.id →
    let sides := [Half.H, Half.T].filter fun h => c.slotSet n h && !c.down.get h && (c.slotBuf n h 0).isSome
    let bufs := sides.filterMap fun h => (c.freeBuf n h).map fun k => (h, k)
    sides ≠ [] → bufs.length = sides.length → (∀ h, h ∈ sides → (c.carriageOf h).isSome = true) →
    c.sight (c.mayRead m far [(m.slotAddr, m.slotLen)]) o = (g, d) → g.lost = none → d.reach m m.slotAddr m.slotLen far = .ok bs →
    let bs := if g.wrong then d.freeBytes m.slotLen else bs
    let e := d.touches m [(m.slotAddr, m.slotLen)]
    let at' (h : Half) : Option Nat := (bufs.find? fun p => p.1 == h).map (·.2)
    let f := bufs.foldl (fun (c : Chip) (p : Half × Nat) => match c.slotBuf n p.1 p.2 with
      | some b => (c.store b bs).carriageWrote p.1 bs.length
      | none => c) { e with freeCnt := e.freeCnt + b2n (g.wrong || inWindow m.slotAddr) }
    exec (.slotPublish id far o) s = .next (s.withChip ((f.setSlot n { f.slot n with writing := ⟨at' .H, at' .T⟩ }).setCmd
      { m with stage := .running, bytes := m.slotLen }))) ∧
  (∀ (id : CmdId) (m : Cmd) (s : State),
    s.chip.cmd? id = some m → m.opcode = 0x60 → m.stage = .running →
    let n := m.slotNo
    let c := s.chip
    let x := c.slot n
    let now := c.stamp (c.slotClock n) 0
    let origin := if m.word 3 = 0 then now else m.word 3
    let late := decide ((c.q (F.SLOT_AGE_LIMIT_US n) * usUnits : Nat) < elapsed now origin)
    let g := c.reg (Reg.SLOT_GEN n)
    let cur : Pair Nat := ⟨x.writing.h.getD x.cur.h, x.writing.t.getD x.cur.t⟩
    ∃ t, exec (.slotBump id) s = .next (s.withChip t) ∧
      t.slot n = ⟨m.slotLen, origin, cur, ⟨x.writing.h.isSome, x.writing.t.isSome⟩, x.queue.tail, ⟨none, none⟩, false⟩ ∧
      t.reg (Reg.SLOT_GEN n) = (if g = 0xFFFFFFFF then 1 else g + 1) ∧ t.q (F.SLOT_STATE_CURBUF n) = cur.get (c.slotHome n) % 4 ∧
      t.on (F.SLOT_STATE_CUR_DOUBTFUL n) = (bit (m.word 2) 40 || c.on (F.SLOT_STATE_DOUBT_LATCH n)) ∧
      t.on (F.SLOT_STATE_CUR_LATE n) = late ∧ t.on (F.SLOT_STATE_DOUBT_LATCH n) = false ∧ t.cmds = (c.dropCmd m.id).cmds)

/-- A dispatched read by a party that may read the slot, with none of a higher class waiting on its half, served by a
slot that is published and has a set in service, pins the current buffer and runs with the length, origin, generation,
doubt and lateness of that result; when its copy, by a Carriage of the buffer's half, ends, the buffer having no
uncorrectable error and the destination being within reach, the buffer is unpinned, the bytes are written, free where an
undetected error left them wrong, and the read completes with the generation and the detail of R263. -/
def Obligations.SlotsRead : Prop :=
  (∀ (id : CmdId) (m : Cmd) (h : Half) (s : State),
    s.chip.takeable id (· == 0x61) = some m → s.chip.behind m (· == 0x61) (fun e => e.half == m.half) = false → s.chip.slotReader m.owner m.slotNo = true →
    let v := s.chip.serve m.half m.slotNo
    let c := if s.chip.on (F.SLOT_STATE_SWITCHED m.slotNo) then s.chip.put (F.SLOT_STATE_SERVING_ALT2 m.slotNo) (b2n v.alt2) else s.chip
    v.none = false → c.slotEmpty v.slot = false → c.slotSide m.half v.slot = some h →
    let x := c.slot v.slot
    exec (.slotRead id) s = .next (s.withChip (Chip.setCmd { c with pins := Pin.mk v.slot h (x.cur.get h) m.id :: c.pins } { m with
      stage := .running
      doubt := m.doubt || c.on (F.SLOT_STATE_CUR_DOUBTFUL v.slot)
      late := m.late || c.slotOld m.half v.slot
      n := min x.len (alignDown (m.fld 2 0 32) 64)
      aux := [v.slot, h.idx, x.cur.get h, c.reg (Reg.SLOT_GEN v.slot), x.origin, b2n v.alt] }))) ∧
  (∀ (id : CmdId) (far : Far) (o : Seen) (g : Sight) (m : Cmd) (slot buf gen origin alt b : Nat) (h : Half) (d e : Chip) (s : State),
    s.chip.cmd? id = some m → m.opcode = 0x61 → m.stage = .running → m.aux = [slot, h.idx, buf, gen, origin, alt] →
    let c : Chip := { s.chip with pins := s.chip.pins.filter fun p => p.id != m.id }
    s.chip.slotBuf slot h buf = some b → (s.chip.carriageOf h).isSome = true → c.poisoned b m.n = none →
    c.sight [(b, m.n)] o = (g, d) → g.lost = none →
    Chip.place { d with freeCnt := d.freeCnt + b2n g.wrong } m m.slotAddr (if g.wrong then d.freeBytes m.n else d.load b m.n) far = .ok e →
    exec (.slotReadCopyDone id far o) s = .next (s.withChip (((e.carriageWrote h m.n).touches m [(m.slotAddr, m.n)]).completeWith m (alt == 1) gen (slotDetail m.n slot origin))))

/-- A boundary mark whose earlier commands have completed declares the stores it covers dead, completes, and lets a
switch that waited for it begin. At the end of a quantum, the context on an engine that no save or reservation holds
begins its switch if it is suspended there; else, when another ready context of its class waits, it is saved at command
level if it holds no command or stands at a mark, at full level when three further quanta have passed since the switch
fell due at one, and otherwise the quantum is counted; with none waiting the count starts anew. A switch begins with a
save at command level where the context is idle or at a mark, with a wait where a mark is fetched ahead, else with a
save at full level. When a mark that was waited for is not reached within MARK_WAIT of the local monotonic base, a save
begins. An array whose context another party's strict slot will displace within the guard begins its switch; where the
half's base may be used, the entry of the slot table whose time it is begins, a strict one that begins more than 2
microseconds late being counted and reported, one whose holder is ready and does not run being awaited, and a strict one
that ends with its holder, ready, still awaited being counted and reported with its length as the lateness, which is the
model's choice (assumption 166); a context that may be pre-empted begins its switch, and a running attention command
that may be is stopped. -/
def Obligations.EnginesShared : Prop :=
  (∀ (id : CmdId) (m : Cmd) (s : State),
    s.chip.takeable id (· == 0x03) = some m → s.chip.earlier id = [] →
    exec (.boundaryMark id) s = .next (s.withChip (((s.chip.markDead id.ring.val (bit (m.word 1) 0) (bit (m.word 1) 1)).complete m 0).switchAtMark id.ring.val))) ∧
  (∀ (e : Engine) (r : Nat) (s : State),
    let c := (s.chip.applyShares e).noteTurn e
    let w := c.switchOf e
    c.residentOn e = some r → w.saving = none →
    let rival := c.cmds.any fun m => c.wants e m && (c.rankFor e m == c.rankOn e || c.inOwnSlot e m.id.ring.val)
    (c.suspendedOn e = true → exec (.quantumEnd e) s = .next (s.withChip (c.decideSwitch e r false))) ∧
    (c.suspendedOn e = false → c.isRough e r = true → exec (.quantumEnd e) s = .next (s.withChip c)) ∧
    (c.suspendedOn e = false → c.isRough e r = false → (rival = false → exec (.quantumEnd e) s = .next (s.withChip (c.setSwitch e { w with quanta := 0 }))) ∧
    (rival = true → c.commandLevel e = true → exec (.quantumEnd e) s = .next (s.withChip (c.beginSave e false))) ∧
    (rival = true → c.commandLevel e = false → 4 ≤ w.quanta → exec (.quantumEnd e) s = .next (s.withChip (c.beginSave e true))) ∧
    (rival = true → c.commandLevel e = false → w.quanta < 4 →
      exec (.quantumEnd e) s = .next (s.withChip (c.setSwitch e { w with quanta := w.quanta + 1 }))))) ∧
  (∀ (e : Engine) (r : Nat) (c : Chip), (c.switchOf e).saving = none →
    (c.commandLevel e = true → ∀ n, c.decideSwitch e r n = c.beginSave e false) ∧
    (c.commandLevel e = false → (c.switchOf e).want = false → c.markAhead e r = true →
      c.decideSwitch e r false = c.setSwitch e { c.switchOf e with want := true, since := c.stamp (engineHalf (c.engineNo e)) 0 }) ∧
    (c.commandLevel e = false → (c.switchOf e).want = false → c.markAhead e r = false → c.decideSwitch e r false = c.beginSave e true) ∧
    (c.commandLevel e = false → c.decideSwitch e r true = c.beginSave e true)) ∧
  (∀ (e : Engine) (s : State), (s.chip.switchOf e).want = true →
    ((s.chip.q F.SCHED_CTL_MARK_WAIT * usUnits : Nat) : Int) ≤ elapsed (s.chip.stamp (engineHalf (s.chip.engineNo e)) 0) (s.chip.switchOf e).since →
    exec (.markWaitExpiry e) s = .next (s.withChip (s.chip.beginSave e (!s.chip.commandLevel e)))) ∧
  (∀ (a : Fin 8) (e : SlotEntry) (left r : Nat) (s : State),
    s.chip.timeReady (arrayHalf a) = true → s.chip.nextEntry a = some (e, left) → (s.chip.arr a).resident = some r →
    e.isOpen = false → left ≤ s.chip.guardTenths → (∀ o, s.chip.ringOwner r = some o → e.heldBy s.chip a o = false) → s.chip.isRough (.array a) r = false →
    exec (.strictSlotGuard a) s = .next (s.withChip (s.chip.decideSwitch (.array a) r (s.chip.roughArray a && s.chip.roughPart == some e.part)))) ∧
  (∀ (a : Fin 8) (e : SlotEntry) (s : State),
    s.chip.timeReady (arrayHalf a) = true → s.chip.slotNow a = some e →
    let late := s.chip.slotTime a - e.start * usUnits
    let missed := (s.chip.strictSlot a).any fun x => x.idx != e.idx && (s.chip.arr a).awaited && s.chip.holderReady a x
    let m := match s.chip.strictSlot a with
      | some x => if missed then (s.chip.inc F.SCHED_SLOT_LATE_COUNT).ev (arrayHalf a) 0x0500 [a.val, x.part + 16 * b2n x.world, x.len] else s.chip
      | none => s.chip
    let c := m.setArr a { m.arr a with entry := some e.idx, awaited := false }
    let runs := !(c.arr a).jobs.isEmpty && ((c.arr a).resident.bind c.ringOwner).any fun o => e.heldBy c a o
    (e.isOpen = true → exec (.slotTableEntryStart a) s = .next (s.withChip c)) ∧
    (e.isOpen = false → 2 * usUnits < late → exec (.slotTableEntryStart a) s = .next (s.withChip
      ((c.inc F.SCHED_SLOT_LATE_COUNT).ev (arrayHalf a) 0x0500 [a.val, e.part + 16 * b2n e.world, late / usUnits]))) ∧
    (e.isOpen = false → late ≤ 2 * usUnits → exec (.slotTableEntryStart a) s = .next (s.withChip
      (c.setArr a { c.arr a with awaited := c.holderReady a e && !runs })))) ∧
  (∀ (a : Fin 8) (by' : Fin 65536) (r : Nat) (s : State),
    s.chip.residentOn (.array a) = some r → s.chip.mayPreempt (.array a) by' = true →
    exec (.preemption (.array a) by') s = .next (s.withChip (s.chip.decideSwitch (.array a) r (s.chip.inOwnSlot (.array a) by'.val || s.chip.isRough (.array a) by'.val)))) ∧
  (∀ (id : CmdId) (by' : Fin 65536) (m : Cmd) (s : State),
    s.chip.cmd? id = some m → m.stage = .running → s.chip.mayPreempt (.attention id) by' = true →
    exec (.preemption (.attention id) by') s =
      .next (s.withChip ((s.chip.setSwitch (.attention id) ⟨false, 0, some true, 0⟩).setCmd { m with stage := .preempted, unit := 0 })))

/-- A save under way that ends without error, on an array after the verdicts on its vectors, on a bench after its copies
but those from a peer device, which event 0x0502 names, puts the context away, leaves the bytes of its save area free
(assumption 19) and frees the engine. What its reads of the stores and of the tile mirror show is counted and repaired
first, as of any read; an uncorrectable error there, like one in memory, discards the context, its code a free value. A
retirement that waited for the save is then carried out. A preempted attention command is saved once. A saved context is
restored where the scheduler places it, and discarded there where the restore meets an error, in the tile mirror too; a
saved attention command whose share is not 0 and before which no other command comes runs again, or is discarded with
ABANDONED. When every engine open to a ring's ready command is held by a blocked context, the lowest in class of those
that may be evicted, then the longest blocked since the half's clock noted it, then of the lowest owner ID, is saved for
it, counted and reported. -/
def Obligations.ContextsMoved : Prop :=
  (∀ (a : Fin 8) (full : Bool) (k : Word) (seen : StoreObs 0xC40000) (s : State),
    (s.chip.switchOf (.array a)).saving = some full → (s.chip.arr a).checks = [] →
    let c := (s.chip.contextSeen (.array a) seen 0).2
    ((∀ off row, seen ≠ .uncorrectable off row) → exec (.contextSaveComplete (.array a) none seen) s =
      .next (s.withChip (((((c.saveArray a full).finishGating a).savedTo (arrayHalf a) (c.q (F.ARRAY_STATUS_OWNER a))).contextMoved (arrayHalf a)).retireDue a))) ∧
    exec (.contextSaveComplete (.array a) (some k) seen) s = .next (s.withChip (((c.discardArray a k.toNat).finishGating a).retireDue a)) ∧
    (∀ off row, seen = .uncorrectable off row → let d := s.chip.arrayLost a off none
      c = d.draw.2 ∧ exec (.contextSaveComplete (.array a) none seen) s = .next (s.withChip (((c.discardArray a d.draw.1).finishGating a).retireDue a)))) ∧
  (∀ (b : Fin 32) (full : Bool) (k : Word) (seen : StoreObs 0xC40000) (s : State),
    (s.chip.switchOf (.bench b)).saving = some full → (∀ y ∈ s.chip.copiesOut b, remoteCopy y = true) →
    let c := (s.chip.contextSeen (.bench b) seen 0).2
    let o := c.q (F.BENCH_STATUS_OWNER b)
    let d := ((c.saveBench b full).finishGating (8 + b)).savedTo (benchHalf b) o
    ((∀ off row, seen ≠ .uncorrectable off row) → exec (.contextSaveComplete (.bench b) none seen) s =
      .next (s.withChip (((match (c.copiesOut b).head? with
        | some y => d.evOf (benchHalf b) 0x0502 (BitVec.ofNat 13 o) [0x100 + b, o, fabricOf (slBase y.src)]
        | none => d).contextMoved (benchHalf b)).benchDue b))) ∧
    exec (.contextSaveComplete (.bench b) (some k) seen) s = .next (s.withChip (((c.discardBench b k.toNat).finishGating (8 + b)).benchDue b)) ∧
    (∀ off row, seen = .uncorrectable off row → let u := savedLogical off
      let d := ((s.chip.inc (F.BENCH_ECC_UNCORR b)).ev (benchHalf b) 0x0211 (s.chip.benchLostAt b u.1 u.2)).benchMend b u.1 u.2 row.toNat
      exec (.contextSaveComplete (.bench b) none seen) s = .next (s.withChip (((d.draw.2.discardBench b d.draw.1).finishGating (8 + b)).benchDue b)))) ∧
  (∀ (id : CmdId) (m : Cmd) (k : Word) (seen : StoreObs 0xC40000) (s : State),
    s.chip.cmd? id = some m → m.stage = .preempted → m.unit = 0 →
    exec (.contextSaveComplete (.attention id) none seen) s = .next (s.withChip
      (((s.chip.setCmd { m with unit := 1 }).countPair Reg.SCHED_SAVE_FULL_LO Reg.SCHED_SAVE_FULL_HI 1).contextMoved m.half)) ∧
    exec (.contextSaveComplete (.attention id) (some k) seen) s = .next (s.withChip (s.chip.discardAttn m k.toNat))) ∧
  (∀ (a : Fin 8) (r : Fin 65536) (x : ArrCtx) (k : Word) (mirror : StoreObs 0x40000) (s : State),
    Tbl.find? s.chip.actx r = some x → s.chip.restorePlace a r x.owner = true →
    let c := ((s.chip.restoreArray a r).contextSeen (.array a) mirror 0xC00000).2
    let d := c.contextMoved (arrayHalf a)
    ((∀ off row, mirror ≠ .uncorrectable off row) →
      exec (.contextRestoreComplete (.array a) r none mirror) s = .next (s.withChip (if x.st.jobs = [] then d else d.slotServed a x.owner))) ∧
    exec (.contextRestoreComplete (.array a) r (some k) mirror) s = .next (s.withChip (c.discardArray a k.toNat)) ∧
    (∀ off row, mirror = .uncorrectable off row → let d := (s.chip.restoreArray a r).arrayLost a (0xC00000 + off) none
      exec (.contextRestoreComplete (.array a) r none mirror) s = .next (s.withChip (d.draw.2.discardArray a d.draw.1)))) ∧
  (∀ (b : Fin 32) (r : Fin 65536) (x : BenchCtx) (k : Word) (mirror : StoreObs 0x40000) (s : State),
    Tbl.find? s.chip.bctx (32 * r + b) = some x → s.chip.benchRestorable b r x.owner = true →
    exec (.contextRestoreComplete (.bench b) r none mirror) s = .next (s.withChip (((s.chip.restoreBench b r).replayLost b).contextMoved (benchHalf b))) ∧
    exec (.contextRestoreComplete (.bench b) r (some k) mirror) s = .next (s.withChip ((s.chip.restoreBench b r).discardBench b k.toNat))) ∧
  (∀ (id : CmdId) (m : Cmd) (r : Fin 65536) (k : Word) (mirror : StoreObs 0x40000) (s : State),
    s.chip.cmd? id = some m → m.stage = .preempted → m.unit = 1 → (m.opcode = 0x40 ∨ m.opcode = 0x41) →
    s.chip.shareOn (40 + m.half.idx) m.owner ≠ 0 → s.chip.attnOutranked m.half m = false →
    exec (.contextRestoreComplete (.attention id) r none mirror) s = .next (s.withChip ((s.chip.setCmd { m with stage := .running }).contextMoved m.half)) ∧
    exec (.contextRestoreComplete (.attention id) r (some k) mirror) s = .next (s.withChip (s.chip.discardAttn m k.toNat))) ∧
  (∀ (e : Engine) (by' : Fin 65536) (into : Fin 256) (began : List (Engine × Fin 256)) (r : Nat) (o : Owner) (m : Cmd) (s : State),
    let c := s.chip
    let kind := c.kindOf e m
    let since (x : Engine) : Nat := c.blockedFor x into began
    let owner (x : Engine) : Nat := (((c.residentOn x).bind c.ringOwner).map BitVec.toNat).getD 0
    let open' (x : Engine) : Bool := (c.residentOn x).any fun q =>
      c.wants x m && decide (c.ringRank by' ≤ c.rankOn x) && decide (swapTenths x * usUnits < since x * 10) && !c.isRough x q && !c.inOwnSlot x q
    c.residentOn e = some r → c.ringOwner r = some o → (c.cmds.find? fun m => m.id.ring.val == by'.val && c.wants e m) = some m →
    (∀ x ∈ kind, match c.residentOn x with | some q => c.blocked x q = true | none => c.wants x m = false) →
    open' e = true → (c.switchOf e).saving = none →
    (∀ x ∈ kind, open' x = true → c.rankOn x < c.rankOn e ∨ (c.rankOn x = c.rankOn e ∧
      (since x < since e ∨ (since x = since e ∧ owner e ≤ owner x)))) →
    let (h, n) := match e with
      | .array a => (arrayHalf a, a.val)
      | .bench b => (benchHalf b, 0x100 + b.val)
      | .attention i => (ringHalf i.ring, 0x200 + (ringHalf i.ring).idx)
    exec (.evict e by' into began) s = .next (s.withChip (((c.beginSave e (!c.commandLevel e)).inc F.SCHED_EVICT_CNT_COUNT).evOf h 0x0501 o
      [n, o.toNat, m.owner.toNat, since e / usUnits])))

/-- For memory in canonical form and no unreadable granule in the store of the array: after a full-level save the 12 MiB
of the store read zero and the array holds no context; after the restore of that context on any array of the half every
byte of the store, the tiles, the commands under way and the verdicts owed are as they were; and no byte outside the two
stores has changed. -/
def Obligations.ContextKept : Prop :=
  ∀ (a b : Fin 8) (r : Nat) (c : Chip),
    c.memWf = true → c.garbled = [] → (c.arr a).resident = some r → (b = a ∨ (c.arr b).resident = none) →
    let d := c.saveArray a true
    let t := d.restoreArray b r
    (∀ k, k < 0xC00000 → d.byte (arrayStore a + k) = 0) ∧ (d.arr a).resident = none ∧
    (∀ k, k < 0xC00000 → t.byte (arrayStore b + k) = c.byte (arrayStore a + k)) ∧
    SameBytesBut (fun x => ∃ y, (y = a ∨ y = b) ∧ arrayStore y ≤ x ∧ x < arrayStore y + 0xC00000) c t ∧
    (t.arr b).resident = some r ∧ (t.arr b).active = (c.arr a).active ∧ (t.arr b).shadow = (c.arr a).shadow ∧
    (t.arr b).jobs = (c.arr a).jobs ∧ (t.arr b).checks = (c.arr a).checks

/-- A dispatched load that names a half, has no backing or one in a window that its party reaches, and whose manifest
and signature record its party may read, what those reads show being counted and repaired first, fails with event 0x0D10
where the record is none of type 4 or does not verify, fails with event 0x0D11 where the version is below its counter,
and otherwise is fitted on the halves named. On each half a model fits resident where w + a does not pass F; otherwise
it is refused for class A, without backing or with SLOWDOWN 0, where the window of F - a - 2 Lmax bytes is below Wmin,
and where the slowdown 1 + e / (rate tb) passes SLOWDOWN / 16; else it is streamed and takes F. An unload by the party
that loaded the model completes and frees it, once no other command of that party that has started is left. -/
def Obligations.ModelsLoaded : Prop :=
  (∀ (id : CmdId) (dg : BitVec 384) (o : Seen) (m : Cmd) (man rec_ : List Byte) (c1 c2 : Chip) (s : State),
    s.chip.takeable id (· == 0x70) = some m → m.fld 2 48 2 ≠ 0 → s.chip.backingFault m = none →
    s.chip.readSeen m (alignDown (m.fld 1 0 48) 64) 64 .answered o = (.ok man, c1) → c1.readSeen m (fieldAt man 40 6) 224 .answered o = (.ok rec_, c2) →
    let c := c2.touches m [(alignDown (m.fld 1 0 48) 64, 64), (fieldAt man 40 6, 224)]
    exec (.modelLoad id dg o) s = .next (s.withChip (match readSig 4 rec_ with
      | none => (c.failCmd m 0).sigFailed m.half 4 [] 3
      | some x => match c.sigFault m.half x (toBE 48 dg.toNat) [] with
        | some k => (c.failCmd m 0).sigFailed m.half 4 x.signer k
        | none => if x.version < c.ctrOf x.ctr then (c.failCmd m 0).oldVersion m.half x else c.fitModel m man (m.fld 2 48 2) x))) ∧
  (∀ (w a lmax wmin rate tb f slow : Nat) (classA backed : Bool),
    let fit := fitHalf w a lmax wmin rate tb f slow classA backed
    let e := w - (f - a - 2 * lmax)
    (w + a ≤ f → fit = .ok (w + a, false, 16)) ∧
    (f < w + a → (classA = true ∨ backed = false ∨ slow = 0 ∨ f < a + 2 * lmax + wmin) → ∃ k, fit = .error k) ∧
    (f < w + a → classA = false → backed = true → 0 < slow → a + 2 * lmax + wmin ≤ f → 0 < rate * tb →
      (16 * (rate * tb + e) ≤ slow * (rate * tb) → ∃ k, fit = .ok (f, true, k) ∧ 16 * (rate * tb + e) ≤ k * (rate * tb) ∧ (k - 1) * (rate * tb) < 16 * (rate * tb + e)) ∧
      (slow * (rate * tb) < 16 * (rate * tb + e) → ∃ k, fit = .error k))) ∧
  (∀ (id : CmdId) (m : Cmd) (x : Model) (s : State),
    (s.chip.takeable id (· == 0x71) = some m ∨ (s.chip.takeable id (· == 0x71) = none ∧
      (s.chip.cmds.find? fun m => m.id == id && m.opcode == 0x71 && m.stage == .waiting) = some m)) → Tbl.find? s.chip.models (m.fld 1 0 32) = some x → x.owner = m.owner →
    (s.chip.cmds.any fun k => k.owner == m.owner && k.id != id && k.mayUse) = false →
    exec (.modelUnload id) s = .next (s.withChip (Chip.complete { s.chip with models := Tbl.del s.chip.models (m.fld 1 0 32) } m 0)))

/-- An admitted aligned 32-bit write of a register of the scheduler, the Carriages, the DRAM, the KV ledger, the Parting
units, the Callipers, the result slots, the display outputs, the wear page or the PCIe ports, on a half that is not
DOWN, gives every read-write bit and, while the block is not locked, every lockable bit the value written, sets every
write-one-to-set bit written as 1, and leaves every other bit; besides that register only the lock-violation counter
changes, and only where a lockable bit of a locked block was to change. A write of a lock register leaves its lock bit
set. A write that is not 32 bits wide and aligned only raises its event, one outside the defined pages is refused, and
one to a half that is DOWN does nothing. -/
def Obligations.RegistersTakeWrites : Prop :=
  (∀ (i : Initiator) (addr : BitVec 48) (f : Found) (v : Dword) (s : State),
    let a := addr.toNat
    findReg a = some f →
    f.blk.base ∈ [blkSCHED.base, blkCARRIAGE.base, blkMEM.base, blkKVL.base, blkPARTING.base, blkCALLIPER.base, blkSLOT.base, blkSCAN.base,
      blkWEAR.base, blkPCIE.base] →
    controlUsed a = true → a % 4 = 0 → a < 0x1600000 → coefWord a = none → s.chip.down.get (homeHalf i.half a) = false →
    let c := s.chip.reached i a
    c.pageCause i true a = 0 →
    let w := v.toNat % 2 ^ 32
    let rwl := accMask (· == .rwl) f.row.fields
    let set := accMask (· == .w1s) f.row.fields
    let take := accMask (· == .rw) f.row.fields + (if c.locked f then 0 else rwl)
    let viol := c.locked f && Nat.land (Nat.xor (c.reg a) w) rwl != 0
    ∃ t, exec (.registerWrite i 4 addr v) s = .next (s.withChip t) ∧ t = (if viol then c.lockViolation i f else c).setReg a (t.reg a) ∧
      ∀ k, k < 32 → bit (t.reg a) k = ((if bit take k then bit w k else bit (c.reg a) k) || (bit set k && bit w k))) ∧
  (∀ (i : Initiator) (addr : BitVec 48) (f : Found) (v : BitVec 31) (s : State),
    let a := addr.toNat
    findReg a = some f → (f.row.fields.any fun x => x.hi == 31 && x.acc == .w1s && f.blk.lock.isSome) = true →
    f.blk.base ∈ [blkSCHED.base, blkCARRIAGE.base, blkMEM.base, blkKVL.base, blkPARTING.base, blkCALLIPER.base, blkSCAN.base, blkWEAR.base] →
    controlUsed a = true → a % 4 = 0 → a < 0x1600000 → coefWord a = none → s.chip.down.get (homeHalf i.half a) = false →
    (s.chip.reached i a).pageCause i true a = 0 →
    ∃ t, exec (.lock i addr v) s = .next (s.withChip t) ∧ bit (t.reg a) 31 = true ∧ t.mem = (s.chip.reached i a).mem) ∧
  (∀ (i : Initiator) (width : Nat) (addr : BitVec 48) (v : Dword) (s : State),
    let a := addr.toNat
    (controlUsed a = true → (width ≠ 4 ∨ a % 4 ≠ 0) → exec (.registerWrite i width addr v) s =
      .next (s.withChip (s.chip.evOf (homeHalf i.half a) (widthEvent a) i.owner [a, i.owner.toNat]))) ∧
    (controlUsed a = false → a < 0x40000000 → exec (.registerWrite i width addr v) s = .next (s.withChip (s.chip.regRefused i a 3))) ∧
    (controlUsed a = true → a % 4 = 0 → a < 0x30000000 → s.chip.down.get (homeHalf i.half a) = true →
      exec (.registerWrite i 4 addr v) s = .next s))

/-- An admitted aligned 32-bit read answers what the register holds at that moment and changes nothing else; a read of
the low word of a pair also latches the high word for its reader, and a read of the high word answers what that reader
latched. The telemetry mirror shows firmware, and the partitions its group admits, the register with the fields that
R540 hides as zero; any other reader is answered zero. -/
def Obligations.RegistersRead : Prop :=
  (∀ (i : Initiator) (addr : BitVec 48) (f : Found) (s : State),
    let a := addr.toNat
    findReg a = some f → f.blk.base ≠ blkTIME.base → f.blk.base ≠ blkVI.base → f.blk.base ≠ blkDOWEL.base → isLo f = false →
    controlUsed a = true → a % 4 = 0 → a < 0x1600000 ∨ 0x10000000 ≤ a → a < 0x30000000 → coefWord a = none → s.chip.down.get (homeHalf i.half a) = false →
    let c := s.chip.reached i a
    c.pageCause i false a = 0 →
    (isHi f = false → exec (.registerRead i 4 addr) s = .next (s.withChip (c.answering i a (c.live f a)))) ∧
    (∀ x, isHi f = true → c.held? i a = some x → exec (.registerRead i 4 addr) s = .next (s.withChip (c.answering i a x)))) ∧
  (∀ (i : Initiator) (addr : BitVec 48) (f g : Found) (s : State),
    let a := addr.toNat
    findReg a = some f → findReg (a + 4) = some g → f.blk.base ≠ blkTIME.base → f.blk.base ≠ blkVI.base → f.blk.base ≠ blkDOWEL.base → isLo f = true →
    controlUsed a = true → a % 4 = 0 → a < 0x1600000 ∨ 0x10000000 ≤ a → a < 0x30000000 → coefWord a = none → s.chip.down.get (homeHalf i.half a) = false →
    let c := s.chip.reached i a
    c.pageCause i false a = 0 →
    exec (.loReadLatch i addr) s = .next (s.withChip ((c.hold i (a + 4) (c.live g (a + 4))).answering i a (c.live f a))) ∧
    (c.hold i (a + 4) (c.live g (a + 4))).held? i (a + 4) = some (c.live g (a + 4) % 2 ^ 32)) ∧
  (∀ (i : Initiator) (addr : BitVec 25) (f : Found) (s : State),
    let a := addr.toNat
    let m := a + 0x30000000
    let c := { s.chip with mirrorRuns := s.chip.mirrorRuns.filter (· != i.owner) }
    (i.isFirmware || bit (Nat.lor (c.reg (Reg.WEAR_MIRROR (a / 0x100000))) 1) i.owner.part) = true →
    findReg a = some f → f.blk.base ≠ blkVI.base → isLo f = false → isHi f = false → isStamp f = false → coefWord a = none →
    a < 0x1500000 → a % 4 = 0 → c.down.get (homeHalf i.half a) = false →
    exec (.mirrorRead i addr) s = .next (s.withChip { c with answer := some ⟨i.owner, i.port, m, BitVec.ofNat 64 (c.live f a % 2 ^ 64 % mirrorMask f), [], false⟩ })) ∧
  (∀ (i : Initiator) (addr : BitVec 25) (s : State),
    (i.isFirmware || bit (Nat.lor (s.chip.reg (Reg.WEAR_MIRROR (addr.toNat / 0x100000))) 1) i.owner.part) = false →
    addr.toNat < 0x1500000 → addr.toNat % 4 = 0 → s.chip.mirrorRuns.contains i.owner = true →
    exec (.mirrorRead i addr) s = .next (s.withChip (s.chip.answering i (addr.toNat + 0x30000000) 0)))

/-- A CREATE that no check refuses, by an initiator that page 0 admits and with no command in progress, gives the record
the grant of VI_ARG, but for its share, which waits for the last step, marks the block busy, and gives every ring,
granule and dowel of the grant to the owner ID of the instance. The last step gives the record its share and its maker
and makes it ACTIVE, or SUSPENDED where its share is 0, counts it, frees the block and raises event 0x0600. A SHARE of a
record in use that the initiator may act on, or of a static one, records the new share, suspends an ACTIVE record whose
share is 0, and raises event 0x0608 with old and new share. The windows of R303 write the selected ring for an initiator
that may. -/
def Obligations.InstancesMade : Prop :=
  (∀ (i : Initiator) (n : Fin 256) (s : State),
    s.chip.viAdmits i.owner = true → s.chip.on F.VI_CMD_RESULT_BUSY = false → s.chip.createCheck i.owner n s.chip.viArg = none →
    let g := s.chip.viArg
    let o := 4096 * b2n g.world + 256 * g.part + n.val
    ∃ t, exec (.create i n) s = .next (s.withChip t) ∧ t.viGrant n = { g with share := 0 } ∧ t.viNew = (g.share, i.owner != 0) ∧ t.on F.VI_CMD_RESULT_BUSY = true ∧ t.q F.VI_CMD_RESULT_RECORD = n ∧
      t.viState n = 0 ∧ (∀ e, e ∈ g.granules ++ g.rings.map doorbellEntry → ownOwner (t.ownAt e) = o) ∧
      (∀ d, d ∈ g.dowels → t.q (F.DOWEL_ATTR_OWNER d) = o) ∧ t.mem = s.chip.mem) ∧
  (∀ (s : State),
    s.chip.on F.VI_CMD_RESULT_BUSY = true → s.chip.q F.VI_CMD_RESULT_OP = 1 →
    let i := s.chip.q F.VI_CMD_RESULT_RECORD
    let g := s.chip.viGrant i
    let c := ((s.chip.put (F.VI_INST_STATE_SHARE i) s.chip.viNew.1).put (F.VI_INST_STATE_MGR i) (b2n s.chip.viNew.2)).put (F.VI_INST_STATE_STATIC i) 0
    let t := (((Chip.put { c with viNew := (0, false) } (F.VI_INST_STATE_STATE i) (if s.chip.viNew.1 = 0 then 2 else 1)).dec F.VI_STATUS_FREE).put F.VI_CMD_RESULT_BUSY 0).put F.VI_CMD_RESULT_RESULT 0
    let u := t.evOf t.firstUp 0x0600 (s.chip.viOwner i) [i, (s.chip.viOwner i).toNat, g.ringN, g.dowelN, g.memHN + g.memTN]
    exec .creationComplete s = .next (s.withChip (if u.viFlr.contains i then Chip.viReset { u with viFlr := u.viFlr.filter (· != i) } u.firstUp i 1 else u))) ∧
  (∀ (i : Initiator) (n : Fin 256) (s : State),
    s.chip.viAdmits i.owner = true → s.chip.on F.VI_CMD_RESULT_BUSY = false → s.chip.viState n ≠ 0 →
    (s.chip.viMayAct i.owner n = true ∨ s.chip.on (F.VI_INST_STATE_STATIC n) = true) →
    let old := s.chip.q (F.VI_INST_STATE_SHARE n)
    let new := bits (s.chip.reg (Reg.VI_ARG 0)) 8 8
    ∃ t : Chip, exec (.share i n) s = .next (s.withChip (t.evOf i.half 0x0608 i.owner [n, old, new])) ∧ t.q (F.VI_INST_STATE_SHARE n) = new ∧
      t.viState n = (if new = 0 ∧ s.chip.viState n = 1 then 2 else s.chip.viState n) ∧ t.q F.VI_CMD_RESULT_RESULT = 0) ∧
  (∀ (i : Initiator) (k : Fin 5) (v : Word) (n : Nat) (s : State),
    s.chip.viAdmits i.owner = true → s.chip.ringRecord (s.chip.q F.VI_RCFG_SEL_RING) = some n → s.chip.viMayAct i.owner n = true →
    exec (.viRcfg i k v) s = .next (s.withChip (s.chip.ringCfgWrite (s.chip.q F.VI_RCFG_SEL_RING) k v.toNat))) ∧
  (∀ (i : Initiator) (k : Fin 5) (v : Word) (s : State),
    i.owner.part ≠ 0 → s.chip.instState i.owner = 1 → s.chip.on F.VI_CTL_MODE = true →
    s.chip.ownsRing i.owner (s.chip.selfSel i) = true →
    exec (.viSelf i k v) s = .next (s.withChip (s.chip.ringCfgWrite (s.chip.selfSel i) k v.toNat)))

/-- A RESET or DESTROY by an initiator that page 0 admits and that may act on a record in use, and a Function Level
Reset of its VF at an endpoint port whose link is up, put a record that is not being reset into RESETTING, raise event
0x0602 with the record and the cause, withdraw all work of its owner ID, disable the rings of its grant, zero the dowels
of its owner ID, note the time and drop its models; a record whose reset is in progress is left as it is. The two
commands answer result 1, and a DESTROY also notes that the record is to be destroyed. Withdrawn work leaves the owner
ID no wait, no saved context and no command but those withdrawn whose transactions or arrays have still to end. While
anything of the instance remains a reset does not complete; then event 0x0603 gives the time it took, every granule of
the grant takes type 7 under its owner ID, and the record enters ZEROING. When no move is left that had checked those
granules and each half that is up has a Carriage for its own, the granules are zeroed by fill moves: a record that was
only reset gets them back, becomes ACTIVE, or SUSPENDED with a share of 0, and event 0x0604 is raised; one to be
destroyed returns its granules, rings and dowels to the reserve of its partition and is FREE, with event 0x0605. -/
def Obligations.InstancesEnded : Prop :=
  (∀ (c : Chip) (h : Half) (i cause : Nat),
    let o := c.viOwner i
    let w := ((c.put (F.VI_INST_STATE_STATE i) 3).ev h 0x0602 [i, cause]).withdraw o
    let e := (c.viGrant i).rings.foldl (fun (e : Chip) r => e.put (F.RING_CFG_ENABLE r) 0) w
    let d := (e.dowelsOf o).foldl (fun (d : Chip) k => d.setPair (Reg.DOWEL_VAL_LO k) (Reg.DOWEL_VAL_HI k) 0) e
    (c.viState i ≠ 3 → c.viState i ≠ 4 →
      c.viReset h i cause = { d with viStart := Tbl.ins d.viStart i c.now, models := d.models.filter fun m => m.2.owner != o }) ∧
    ((c.viState i = 3 ∨ c.viState i = 4) → c.viReset h i cause = c)) ∧
  (∀ (c : Chip) (o : Owner),
    let t := c.withdraw o
    (∀ w, w ∈ t.waits → w.owner ≠ o) ∧ (∀ e, e ∈ t.actx → e.2.owner ≠ o) ∧ (∀ e, e ∈ t.bctx → e.2.owner ≠ o) ∧
    (∀ m, m ∈ t.cmds → m.owner = o → m.stage = .withdrawn) ∧
    (∀ d, o ≠ 0 → d < 16384 → (d ∈ t.dowelsOf o ↔ t.q (F.DOWEL_ATTR_OWNER d) = o.toNat))) ∧
  (∀ (i : Initiator) (n : Fin 256) (s : State),
    s.chip.viAdmits i.owner = true → s.chip.on F.VI_CMD_RESULT_BUSY = false → s.chip.viMayAct i.owner n = true →
    (i.owner = 0 ∨ s.chip.on (F.VI_INST_STATE_STATIC n) = false) → s.chip.viState n ≠ 0 →
    exec (.reset i n) s = .next (s.withChip ((s.chip.viReset i.half n 0).viResult 2 n 1)) ∧
    exec (.destroy i n) s = .next (s.withChip ((Chip.viReset { s.chip with
      viDestroy := if s.chip.viDestroy.contains n.val then s.chip.viDestroy else n.val :: s.chip.viDestroy } i.half n 3).viResult 3 n 1))) ∧
  (∀ (p : Half) (vf : BitVec 8) (i : Nat) (s : State),
    s.chip.on (F.PCIE_CTL_MODE p.idx) = true → s.chip.on (F.PCIE_STATUS_LINK_UP p.idx) = true → s.chip.down.get p = false →
    s.chip.vfRecord p vf.toNat = some i → s.chip.viState i ≠ 0 →
    exec (.functionLevelReset p vf) s = .next (s.withChip (s.chip.viReset p i 1))) ∧
  (∀ (n : Fin 256) (s : State), s.chip.viState n = 3 →
    let g := s.chip.viGrant n
    let o := s.chip.viOwner n
    let took := elapsed s.chip.now (Tbl.look 0 s.chip.viStart n)
    let e := Chip.ev { s.chip with viStart := Tbl.del s.chip.viStart n } s.chip.firstUp 0x0603 [n, took.toNat / usUnits]
    (s.chip.withdrawn o = false → exec (.resetCompletion n) s = .next s) ∧
    (s.chip.withdrawn o = true → ∃ t, exec (.resetCompletion n) s = .next (s.withChip t) ∧
      t = (e.setOwners g.granules o.toNat 7).put (F.VI_INST_STATE_STATE n) 4 ∧ t.viState n = 4 ∧
      (∀ k, k ∈ g.granules → k < 1048576 → ownType (t.ownAt k) = 7 ∧ ownOwner (t.ownAt k) = o.toNat))) ∧
  (∀ (n : Fin 256) (s : State),
    let g := s.chip.viGrant n
    s.chip.viState n = 4 → s.chip.movesInto g = false → g.zeroers s.chip = true →
    let o := (s.chip.viOwner n).toNat
    let z := (g.granules.foldl Chip.zeroGranule s.chip).zeroedBy g
    (s.chip.viDestroy.contains n.val = false → exec (.instanceZeroingComplete n) s =
      .next (s.withChip (((z.setOwners g.granules o 0).put (F.VI_INST_STATE_STATE n) (if s.chip.q (F.VI_INST_STATE_SHARE n) = 0 then 2 else 1)).ev s.chip.firstUp 0x0604 [n]))) ∧
    (s.chip.viDestroy.contains n.val = true →
      let r := o / 256 * 256
      let d := g.dowels.foldl (fun (d : Chip) k => d.assignDowel k 0 0) ((z.setOwners g.granules r 7).setOwners (g.rings.map doorbellEntry) r 7)
      let e := (d.setReg (Reg.VI_INST_PCI n) 0).setReg (Reg.VI_INST_STATE n) 0
      exec (.instanceZeroingComplete n) s =
        .next (s.withChip ((Chip.inc { e with viDestroy := s.chip.viDestroy.filter (· != n.val) } F.VI_STATUS_FREE).ev s.chip.firstUp 0x0605 [n])) ∧
      e.viState n = 0))

/-- The oldest check values of an array whose command is compared either pass, which counts a checked vector; fail,
which counts it and a mismatch, marks the command doubtful, raises event 0x0700 and captures the vector with its tile
for diagnosis if none is captured and it is the command's first mismatch; or stay unchecked. A captured mismatch is
rerun on the array and on the diagnosis array, and its verdict is acted on as R323 lays down: a verdict on one column
with a spare free queues that line for a remap and forgets the transient frames. When the time of a new frame has come
on a half, the frame number is recorded and every array in service owes a blank. A blank that an idle array owes, or a
forced one, runs and is counted; a forced one is told of with its delay, 0 with no ready command and free otherwise. One
that passes records its frame; one that fails is counted and told of, and has its one line moved, at once between two
commands, else when the command has ended, or retires the array where no spare is left or the differences lie on no one
line. The tiles are then rebuilt from the mirror. -/
def Obligations.CalliperWork : Prop :=
  (∀ (a : Fin 8) (err : FV) (k : Check) (rest : List Check) (m : Cmd) (s : State),
    let x := s.chip.arr a
    let c := s.chip.setArr a { x with checks := rest }
    let counted := c.countPair (Reg.CALLIPER_CHECKED_LO (arrayHalf a).idx) (Reg.CALLIPER_CHECKED_HI (arrayHalf a).idx) 1
    x.checks = k :: rest → s.chip.cmd? k.id = some m → s.chip.compared (arrayHalf a) m = true →
    (k.verdict err = .passes → exec (.calliperComparison a err) s = .next (s.withChip counted)) ∧
    (k.verdict err = .unchecked → exec (.calliperComparison a err) s = .next (s.withChip (c.uncheckedVec a k m))) ∧
    (k.verdict err = .fails → ∃ t, exec (.calliperComparison a err) s = .next (s.withChip t) ∧ t = counted.mismatch a k m ∧
      (t.arr a).diag = (if x.diag.isSome ∨ (∃ j ∈ x.jobs, j.id = m.id ∧ j.mism = true) then x.diag
        else some ⟨m.id, k.vec, k.inp, m.fmtA, m.fmtB, k.tile, false, none⟩) ∧ (t.arr a).checks = rest)) ∧
  (∀ (a : Fin 8) (d : Diag) (o : DiagObs) (s : State),
    (s.chip.arr a).diag = some d →
    (d.running = false → exec (.diagnosis a) s = .next (s.withChip
      ((s.chip.setArr a { s.chip.arr a with diag := some { d with running := true, other := s.chip.diagArray a } }).put
        (F.CALLIPER_STATUS_DIAG_BUSY (arrayHalf a).idx) 1))) ∧
    (d.running = true →
      let c := (s.chip.setArr a { s.chip.arr a with diag := none }).actOn a d.other (verdict d.other.isSome o)
      exec (.diagnosisVerdict a o) s = .next (s.withChip (c.put (F.CALLIPER_STATUS_DIAG_BUSY (arrayHalf a).idx)
        (b2n ((List.range 8).any fun b => arrayHalf b == arrayHalf a && match (c.arr b).diag with | some e => e.running | none => false)))) ∧
      (d.other ≠ none → o.rerun = .passes → o.other = .passes → verdict d.other.isSome o = .transient) ∧
      (∀ j, d.other ≠ none → o.rerun = .fails → o.other = .passes → o.cols = [j] → verdict d.other.isSome o = .lastingCol j) ∧
      (o.rerun = .unchecked → verdict d.other.isSome o = .undecided))) ∧
  (∀ (a : Fin 8) (j : Nat) (c : Chip), c.lineLeft a false = true →
    ((c.placeFault a false j 1).arr a).remaps = (c.arr a).remaps ++ [⟨false, j, none⟩] ∧ ((c.placeFault a false j 1).arr a).transients = []) ∧
  (∀ (h : Half) (s : State),
    let f := s.chip.frameNow h
    s.chip.timeReady h = true → (∀ g, s.chip.frames.get h = some g → g < f) →
    ∃ t, exec (.frameStart h) s = .next (s.withChip t) ∧ t.frames.get h = some f ∧ t.reg (Reg.CALLIPER_FRAME_NO h.idx) = f % 2 ^ 32 ∧
      ∀ a : Fin 8, arrayHalf a = h → (t.arr a).owed = s.chip.arrayInService a) ∧
  (∀ (a : Fin 8) (o : Blank) (e : StoreObs 0x40000) (s : State),
    (s.chip.arr a).owed = true → s.chip.arrayInService a = true → ((s.chip.arr a).forced = true ∨ s.chip.arrayIdle a = true) →
    let x := s.chip.arr a
    let h := arrayHalf a
    let c := ((s.chip.setArr a { x with owed := false, forced := false }).put (F.CALLIPER_ARR_STAT_DEFERRED h.idx (a % 4)) 0).inc (F.CALLIPER_BLANK_RUN_COUNT h.idx)
    let told (p : Nat × Chip) : Chip := (p.2.inc (F.CALLIPER_BLANK_FORCED_COUNT h.idx)).ev h 0x0709 [a.val, p.1]
    let b := if x.forced then told (if s.chip.noReady a then (0, c) else c.draw) else c
    let f := (b.frames.get h).getD 0
    let failed (k : Nat) : Chip := (b.inc (F.CALLIPER_BLANK_FAIL_COUNT h.idx)).ev h 0x070A [a.val, f % 2, k]
    ∃ t, exec (.goldenBlank a o e) s = .next (s.withChip (Chip.rebuildTiles t a e)) ∧ (t.arr a).owed = false ∧ (match o with
      | .equal => t = b.setReg (Reg.CALLIPER_ARR_BLANK h.idx (a % 4)) (f % 2 ^ 32)
      | .scattered => t = (failed 0xFFFFFFFF).calliperRetire a 3
      | .line isRow n again line =>
        let d := failed (n + 2 ^ 16 * b2n isRow)
        (d.lineLeft a isRow = false → t = d.calliperRetire a 3) ∧
        (d.lineLeft a isRow = true → x.jobs = [] → t = d.remapDone a ⟨isRow, n, some (again, line)⟩ .clean) ∧
        (d.lineLeft a isRow = true → x.jobs ≠ [] → (t.arr a).remaps = (d.arr a).remaps ++ [⟨isRow, n, some (again, line)⟩])))

/-- On a half whose time bases run, the evaluation of a valid slot that is not switched and is unpublished, doubtful or
as old as its limit switches its consumers, clears the count of good publications and records whether the second
fallback serves; that of a switched slot with enough good publications and a young result switches it back, with too few
leaves it; and an evaluation of a slot that is not valid does nothing. -/
def Obligations.SlotsAged : Prop :=
  (∀ (h : Half) (n : Fin 512) (k : Nat) (s : State),
    s.chip.timeReady h = true → s.chip.on (F.SLOT_CFG_VALID n) = true → s.chip.on (F.SLOT_STATE_SWITCHED n) = false →
    s.chip.switchCause h n = some k →
    let c := (s.chip.put (F.SLOT_STATE_SWITCHED n) 1).put (F.SLOT_STATE_GOOD n) 0
    let v := c.serve h n
    ∃ t, exec (.ageEvaluation h n) s = .next (s.withChip t) ∧ t.on (F.SLOT_STATE_SWITCHED n) = true ∧ t.q (F.SLOT_STATE_GOOD n) = 0 ∧
      t.on (F.SLOT_STATE_SERVING_ALT2 n) = v.alt2) ∧
  (∀ (h : Half) (n : Fin 512) (s : State),
    s.chip.timeReady h = true → s.chip.on (F.SLOT_CFG_VALID n) = true → s.chip.on (F.SLOT_STATE_SWITCHED n) = true →
    s.chip.slotEmpty n = false → s.chip.slotOld h n = false →
    ∃ t, exec (.ageEvaluation h n) s = .next (s.withChip t) ∧
      t.on (F.SLOT_STATE_SWITCHED n) = decide (s.chip.q (F.SLOT_STATE_GOOD n) < s.chip.q (F.SLOT_CFG_RESTORE_N n))) ∧
  (∀ (h : Half) (n : Fin 512) (s : State), s.chip.on (F.SLOT_CFG_VALID n) = false → exec (.ageEvaluation h n) s = .next s)

/-- A half that is not DOWN sends its message on both paths and counts its sequence number. A valid message with a new
sequence number refreshes the half's clock of silence, ends the silence, and records the peer's epoch and state; one
with a higher epoch and no handoff makes that epoch its own and takes a half in CHARGE to STANDBY. A path that works is
lost after three missing messages, a half hears silence after 50 microseconds, which takes a half in STANDBY without an
arbiter whose peer is not down to OBSERVER, and a peer sensed as down for 2 microseconds is recorded; each is counted or
told of by its event. -/
def Obligations.AuthorityMessages : Prop :=
  (∀ (h : Half) (s : State), s.chip.down.get h = false →
    let c := s.chip
    let x := c.auth.get h
    exec (.authorityMessageSend h) s = .next (s.withChip { c with
      authWire := c.authWire.set h (some (c.authMsg h false), some (c.authMsg h true))
      auth := c.auth.set h { x with seq := (x.seq + 1) % 2 ^ 32, lastSent := c.stamp h 0 } })) ∧
  (∀ (h : Half) (path : Fin 2) (m : AuthMsg) (s : State),
    let c := s.chip
    let x := c.auth.get h
    let own := c.reg (Reg.AUTH_EPOCH h.idx)
    c.down.get h = false → (if path = 0 then (c.authWire.get h.other).1 else (c.authWire.get h.other).2) = some m →
    (if path = 0 then x.hlSeq else x.sbSeq) ≠ some m.seq →
    ∃ t, exec (.authorityMessage h path true) s = .next (s.withChip t) ∧ (t.auth.get h).lastValid = c.stamp h 0 ∧
      t.reg (Reg.AUTH_PEER_EPOCH h.idx) = m.epoch % 2 ^ 32 ∧ t.q (F.AUTH_STATUS_PEER_STATE h.idx) = m.state % 4 ∧
      t.on (F.AUTH_STATUS_PEER_SILENT h.idx) = false ∧
      (epochAbove m.epoch own = true → m.handoff = false → (x.atStart = false ∨ m.state ≠ 2 ∨ c.authState h = 2) →
        t.reg (Reg.AUTH_EPOCH h.idx) = m.epoch % 2 ^ 32 ∧ t.authState h = (if c.authState h = 2 then 1 else c.authState h))) ∧
  (∀ (h : Half) (path : Fin 2) (s : State),
    let f := if path = 0 then F.AUTH_STATUS_PATH_HL h.idx else F.AUTH_STATUS_PATH_SB h.idx
    let n := if path = 0 then F.AUTH_PATH_ERR_HL_LOST h.idx else F.AUTH_PATH_ERR_SB_LOST h.idx
    s.chip.on f = true → s.chip.down.get h = false →
    ∃ t, exec (.pathLoss h path) s = .next (s.withChip t) ∧ t.on f = false ∧ t.q n = ((s.chip.put f 0).inc n).q n) ∧
  (∀ (h : Half) (s : State),
    s.chip.down.get h = false → s.chip.on (F.AUTH_STATUS_PEER_SILENT h.idx) = false →
    ((50 * usUnits : Nat) : Int) ≤ elapsed (s.chip.stamp h 0) (s.chip.auth.get h).lastValid →
    let lone := s.chip.authState h == 1 && !s.chip.on (F.AUTH_STATUS_ARB_PRESENT h.idx) && !s.chip.on (F.AUTH_STATUS_PEER_DOWN h.idx)
    ∃ t, exec (.peerSilent h) s = .next (s.withChip t) ∧ t.on (F.AUTH_STATUS_PEER_SILENT h.idx) = true ∧
      t.authState h = (if lone then 3 else s.chip.authState h)) ∧
  (∀ (h : Half) (s : State),
    s.chip.down.get h = false → s.chip.on (F.AUTH_STATUS_PEER_DOWN h.idx) = false → s.chip.down.get h.other = true →
    exec (.peerDown h) s = .next (s.withChip ((s.chip.put (F.AUTH_STATUS_PEER_DOWN h.idx) 1).ev h 0x080A [h.idx, 1]).syncAuth))

/-- A fit half in one of the cases of R349 claims: it enters CHARGE with the epoch one above the higher of its own and
its peer's. A hard condition that fails in CHARGE takes the half to STANDBY at once and its outputs off; a soft failure
in CHARGE does so after UNFIT_MAX_MS; without an arbiter, its peer silent and not sensed as down, a half that comes to
STANDBY goes on to OBSERVER. The hold-off after a tie ends after 50 ms. A handover asked of the half in charge with a
fit standby sets the handoff flag, and the clearing of OBSERVER with both paths working leads to STANDBY. The levels P
and N of ARB_SEL are read as Headstock for P alone, Tailstock for N alone and neither otherwise; a new reading away from
a half with an arbiter turns its outputs off; outputs rise under the conditions of R353 alone; a half that asserts
SAFE_STOP does so once; and a half whose watchdog has expired, or that is lost, is DOWN afterwards. -/
def Obligations.AuthorityChanges : Prop :=
  let standing (h : Half) (c : Chip) : Nat := if !c.on (F.AUTH_STATUS_ARB_PRESENT h.idx) && c.on (F.AUTH_STATUS_PEER_SILENT h.idx) && !c.on (F.AUTH_STATUS_PEER_DOWN h.idx) then 3 else 1
  (∀ (h : Half) (k : Nat) (s : State), s.chip.mayClaim h = some k →
    let own := s.chip.reg (Reg.AUTH_EPOCH h.idx)
    let peer := s.chip.reg (Reg.AUTH_PEER_EPOCH h.idx)
    ∃ t, exec (.claim h) s = .next (s.withChip t) ∧ t.authState h = 2 ∧
      t.reg (Reg.AUTH_EPOCH h.idx) = ((if epochAbove peer own then peer else own) + 1) % 2 ^ 32) ∧
  (∀ (h : Half) (k : Fin 6) (s : State),
    s.chip.down.get h = false → s.chip.conditionNow h k ≠ some true → s.chip.inCharge h = true → k.val < 4 →
    bit (s.chip.q (F.AUTH_STATUS_UNFIT h.idx)) k = false →
    ∃ t, exec (.fitnessChange h k false) s = .next (s.withChip t) ∧ t.authState h = standing h s.chip ∧ t.outEn h = false ∧
      bit (t.q (F.AUTH_STATUS_UNFIT h.idx)) k = true) ∧
  (∀ (h : Half) (b : Nat) (s : State),
    (s.chip.auth.get h).softSince = some b → s.chip.inCharge h = true → s.chip.fit h = false →
    ((s.chip.q (F.AUTH_CTL_UNFIT_MAX_MS h.idx) * 1000 * usUnits : Nat) : Int) ≤ elapsed (s.chip.stamp h 0) b →
    ∃ t, exec (.unfitMaxExpiry h) s = .next (s.withChip t) ∧ t.authState h = standing h s.chip ∧ t.outEn h = false) ∧
  (∀ (b : Nat) (s : State),
    (s.chip.auth.get .H).tieHold = some b → ((50000 * usUnits : Nat) : Int) ≤ elapsed (s.chip.stamp .H 0) b →
    exec .tieHoldOffExpiry s = .next (s.withChip (s.chip.setAuthSt .H { s.chip.auth.get .H with tieHold := none }))) ∧
  (∀ (i : Initiator) (h : Half) (s : State),
    s.chip.portCause i true (Reg.AUTH_REQ h.idx) = 0 → s.chip.down.get h = false →
    (s.chip.inCharge h = true → s.chip.fitStandby h.other = true →
      exec (.handover i h) s = .next (s.withChip ((s.chip.put (F.AUTH_REQ_HANDOVER h.idx) 1).setAuthSt h { s.chip.auth.get h with handoff := true }))) ∧
    (s.chip.authState h = 3 → s.chip.on (F.AUTH_STATUS_PATH_HL h.idx) = true → s.chip.on (F.AUTH_STATUS_PATH_SB h.idx) = true →
      ∃ t, exec (.clearObs i h) s = .next (s.withChip t) ∧ t.authState h = standing h s.chip)) ∧
  (∀ (h : Half) (v : Bool × Bool) (s : State),
    let view := if v = (true, false) then 1 else if v = (false, true) then 2 else 0
    s.chip.down.get h = false → s.chip.q (F.AUTH_STATUS_ARB_VIEW h.idx) ≠ view →
    ∃ t, exec (.arbSelChange h v) s = .next (s.withChip t) ∧ t.q (F.AUTH_STATUS_ARB_VIEW h.idx) = view ∧ (t.auth.get h).arbSel = v ∧
      (s.chip.on (F.AUTH_STATUS_ARB_PRESENT h.idx) = true → view ≠ h.idx + 1 → t.outEn h = false)) ∧
  (∀ (h : Half) (s : State),
    (s.chip.mayRise h = true → (h = .H ∨ s.chip.mayRise .H = false) → ∃ t, exec (.outEnRise h) s = .next (s.withChip t) ∧ t.outEn h = true) ∧
    (s.chip.mayRise h = false → exec (.outEnRise h) s = .next s)) ∧
  (∀ (h : Half) (k : Nat) (s : State),
    s.chip.safeStopCause h = some k → s.chip.on (F.AUTH_STATUS_SAFE_STOP h.idx) = false →
    exec (.safeStopAssert h) s = .next (s.withChip ((s.chip.put (F.AUTH_STATUS_SAFE_STOP h.idx) 1).ev h 0x0820 [h.idx, k]).syncAuth)) ∧
  (∀ (h : Half) (s : State),
    ∃ t, exec (.halfLoss h) s = .next (s.withChip t) ∧ t.down.get h = true ∧
      (((40 * usUnits : Nat) : Int) ≤ elapsed (s.chip.stamp h 0) (s.chip.auth.get h).lastSent → exec (.watchdogReset h) s = .next (s.withChip t)))

/-- If not both halves have their outputs enabled, and a half that is DOWN has not, then the same holds after every
message sent or received, lost path, silence, sensed loss, claim, change of fitness, expiry, request, new reading of
ARB_SEL, rise of outputs and assertion of SAFE_STOP. -/
def Obligations.OneHalfDrives : Prop :=
  ∀ (x : Instr) (s t : State) (i : Initiator) (h : Half) (p : Fin 2) (k : Fin 6) (v : Bool × Bool) (b : Bool),
    x ∈ [.authorityMessageSend h, .authorityMessage h p b, .pathLoss h p, .peerSilent h, .peerDown h, .claim h, .fitnessChange h k b, .unfitMaxExpiry h,
      .tieHoldOffExpiry, .handover i h, .clearObs i h, .arbSelChange h v, .outEnRise h, .safeStopAssert h] →
    let oneDrives (c : Chip) : Prop := (c.outEn .H && c.outEn .T) = false ∧ ∀ k, c.down.get k = true → c.outEn k = false
    oneDrives s.chip → exec x s = .next t → oneDrives t.chip

/-- An ARM, CLOSE, OPEN or HANDOVER that its writer may give, that no check refuses and that finds no command waiting,
waits at the engine with an applying instant that is a sample instant of the slot at least 20 microseconds ahead. Its
peer, unless it is DOWN, checks it against its own slots: there it waits too, or ends with the peer's own result, which
is the model's reading (assumption 156). When that instant has come and the check still passes, ARM leaves the slot
ARMED with its CRC, CLOSE leaves it CLOSED and driving from X0, OPEN leaves it OPEN, and the engine takes commands
again; a command that no longer fits ends with result 0x40, and every slot keeps its state and all it holds but whether
it is established. A word of the coefficient page of an OPEN slot is written, a reserved one as zero; for a slot not
OPEN it is counted and reported. -/
def Obligations.SteadyCommands : Prop :=
  (∀ (i : Initiator) (h : Half) (n b : Fin 16) (s : State),
    let c := s.chip
    let p := max (c.loopPeriod h n) 1 * usUnits
    let ph := c.loopPhase h n * usUnits
    let waits (op into : Nat) (t : Chip) : Prop := t.on (F.STEADY_CMD_RESULT_BUSY h.idx) = true ∧ t.q (F.STEADY_CMD_RESULT_RESULT h.idx) = 0 ∧
      ∃ k, t.steadyCmd.get h = some k ∧ k.op = op ∧ k.slot = n ∧ k.into = into ∧ c.stamp h (c.q (F.STEADY_CTL_TB h.idx)) + 20 * usUnits ≤ k.instant ∧
        (∃ j, k.instant = ph + j * p) ∧
        (c.down.get h.other = false → c.steadyCheck h.other op n into = 0 → t.steadyCmd.get h.other = some k ∧ t.on (F.STEADY_CMD_RESULT_BUSY h.other.idx) = true) ∧
        (c.down.get h.other = false → c.steadyCheck h.other op n into ≠ 0 → t.steadyCmd.get h.other = c.steadyCmd.get h.other ∧
          t.q (F.STEADY_CMD_RESULT_RESULT h.other.idx) = c.steadyCheck h.other op n into)
    c.portCause i true (Reg.STEADY_CMD h.idx) = 0 → c.down.get h = false → c.on (F.STEADY_CMD_RESULT_BUSY h.idx) = false →
    (c.down.get h.other = true ∨ (c.on (F.STEADY_CMD_RESULT_BUSY h.other.idx) = false ∧ c.on (F.AUTH_STATUS_PATH_HL h.idx) = true)) →
    ((c.down.get h.other = true ∨ c.loopCrc h n = c.loopCrc h.other n) → c.steadyCheck h 1 n 0 = 0 → ∃ t, exec (.arm i h n) s = .next (s.withChip t) ∧ waits 1 0 t) ∧
    (c.steadyCheck h 2 n 0 = 0 → ∃ t, exec (.close i h n) s = .next (s.withChip t) ∧ waits 2 0 t) ∧
    (c.steadyCheck h 3 n 0 = 0 → ∃ t, exec (.openSlot i h n) s = .next (s.withChip t) ∧ waits 3 0 t) ∧
    (c.steadyCheck h 4 n b = 0 → ∃ t, exec (.modeHandover i h n b) s = .next (s.withChip t) ∧ waits 4 b t)) ∧
  (∀ (h : Half) (k : SteadyCmd) (o : Seen) (s : State),
    let c := s.chip
    let bare (x : Chip) (g : Half) (n : Nat) : LoopSt := { x.loop g n with est := 0 }
    c.steadyCmd.get h = some k → k.slot < 16 → k.into < 16 → 0 ≤ elapsed (c.stamp h (c.q (F.STEADY_CTL_TB h.idx))) k.instant →
    ∃ t, exec (.steadyCommandApply h o) s = .next (s.withChip t) ∧ t.steadyCmd.get h = none ∧ t.on (F.STEADY_CMD_RESULT_BUSY h.idx) = false ∧
      (c.steadyCheck h k.op k.slot k.into = 0 →
        (k.op = 1 → t.loopState h k.slot = 1) ∧
        (k.op = 2 → t.loopState h k.slot = 2 ∧ (t.loop h k.slot).drives = true ∧
          (t.loop h k.slot).xh = (List.range (c.nX h k.slot)).map fun i => toFp32 (c.coef h k.slot 0xE20 i)) ∧
        (k.op = 3 → t.loopState h k.slot = 0)) ∧
      (c.steadyCheck h k.op k.slot k.into ≠ 0 → t.q (F.STEADY_CMD_RESULT_RESULT h.idx) = 0x40 ∧ (∀ g n, bare t g n = bare c g n) ∧
        ∀ (g : Half) (n : Fin 16), t.loopState g n = c.loopState g n)) ∧
  (∀ (i : Initiator) (h : Half) (n : Fin 16) (k : Fin 2048) (v : Word) (s : State),
    let a := coefPage h n + 4 * k
    s.chip.portCause i true a = 0 → s.chip.down.get h = false →
    (s.chip.loopState h n = 0 → exec (.coefficientWrite i h n k v) s = .next (s.withChip (s.chip.setReg a
      (if 0x1400 ≤ 4 * k.val ∨ (0xE80 ≤ 4 * k.val ∧ 4 * k.val < 0x1000) then 0 else v.toNat)))) ∧
    (s.chip.loopState h n ≠ 0 → exec (.coefficientWrite i h n k v) s =
      .next (s.withChip ((s.chip.inc (F.STEADY_COEF_REJ_COUNT h.idx)).ev h 0x0918 [h.idx, n, 4 * k.val]))))

/-- A value clipped to bounds that are numbers in order lies within them, and a value within them is kept; NaN is taken
to the lower bound. At an instant of an enabled engine whose time base runs, a coefficient of an enabled slot found
uncorrectable is free, counted and reported; every due slot is updated, fastest first, and each slot that ran shows its
applied values once all have run; an update that does not finish in time is counted and reported; the fades of opened
slots step on, and the authority logic follows. An engine that is not enabled does nothing. -/
def Obligations.SteadyUpdates : Prop :=
  (∀ (lo hi v : FV), lo.isNan = false → hi.isNan = false → FV.le lo hi = true →
    FV.le lo (clipTo lo hi v) = true ∧ FV.le (clipTo lo hi v) hi = true ∧ (v.isNan = true → clipTo lo hi v = lo) ∧
    (v.isNan = false → FV.le lo v = true → FV.le v hi = true → FV.eq (clipTo lo hi v) v = true)) ∧
  (∀ (h : Half) (late : List (Fin 16)) (bad : List (Fin 16 × Fin 2048)) (o : Seen) (s : State),
    s.chip.on (F.STEADY_CTL_ENABLE h.idx) = true → s.chip.timeReady h = true → s.chip.awake h = true →
    let b := bad.foldl (fun (c : Chip) p => if c.loopState h p.1.val < 2 then c else
      (((({ c with freeCnt := c.freeCnt + 1 } : Chip).setReg (coefPage h p.1.val + 4 * p.2.val) c.draw.1).setLoop h p.1.val
        { c.loop h p.1.val with badCoef := true }).inc (F.STEADY_OVERRUN_COUNT h.idx)).ev h 0x0904 [h.idx, p.1.val]) s.chip
    let due := (b.slotOrder h).filter fun n => (b.dueAt h n).isSome
    let u := due.foldl (fun (c : Chip) n => c.updateSlot o h n) b
    let ran := (List.range 16).filter fun n => (u.loop h n).last != (b.loop h n).last
    let v := ran.foldl (fun (c : Chip) n => (c.loop h n).prev.zipIdx.foldl (fun (c : Chip) e => c.put (F.LOOP_OUT_VALUE h.idx n e.2) e.1) c) u
    let d := ran.foldl (fun (c : Chip) n =>
      let l := late.any fun m => m.val == n
      let c := c.setLoop h n { c.loop h n with late := l }
      if l then (c.inc (F.STEADY_OVERRUN_COUNT h.idx)).ev h 0x0903 [h.idx, n] else c) v
    exec (.steadyUpdate h late bad o) s = .next (s.withChip (d.stepFades h).syncAuth) ∧
    (s.chip.slotOrder h).Perm (List.range 16) ∧
    (s.chip.slotOrder h).Pairwise fun a b => s.chip.loopPeriod h a ≤ s.chip.loopPeriod h b) ∧
  (∀ (h : Half) (l : List (Fin 16)) (b : List (Fin 16 × Fin 2048)) (o : Seen) (s : State),
    s.chip.on (F.STEADY_CTL_ENABLE h.idx) = false → exec (.steadyUpdate h l b o) s = .next s)

/-- A PWM period starts with the latest period and the duty rounded to whole counts, its high part at the beginning or
centred; that an odd rest stands after a centred high part is the model's choice (assumption 157). A readback that
differs on a driven output with readback enabled latches its fault bit. A conversion takes the next channel of the
sequence, and gives gain times code less offset inside its window and NaN outside it. A step of an encoder counts its
position by one up or down, and a jump of two is counted as an error. An accepted edge of an input turns its filtered
level and counts it; the end of a window whose edges have fallen to half the limit ends chatter; an input active for its
time becomes stuck; and the notification path adds the pending edges of the input it serves to a dowel of the right
owner. -/
def Obligations.MachineIo : Prop :=
  (∀ (h : Half) (n : Fin 16) (s : State), s.chip.down.get h = false →
    let p := s.chip.q (F.HIO_PWM_CFG_PERIOD h.idx n)
    let k := dutyCounts (s.chip.duty h n) p
    let first := if s.chip.on (F.HIO_PWM_CFG_ALIGN h.idx n) then (p - k) / 2 else 0
    ∃ t, exec (.pwmPeriodStart h n) s = .next (s.withChip t) ∧ Tbl.find? (t.hio.get h).pwm n = some (p, first, k) ∧
      t.regs = s.chip.regs ∧ t.hio.get h.other = s.chip.hio.get h.other) ∧
  (∀ (h : Half) (n : Fin 16) (s : State),
    s.chip.outEn h = true → s.chip.on (F.HIO_DO_CFG_RB_EN h.idx n) = true →
    ∃ t, exec (.readbackMismatch h n) s = .next (s.withChip t) ∧
      ∀ k, k < 16 → bit (t.q (F.HIO_DO_STATE_DO_FAULT h.idx)) k = (bit (s.chip.q (F.HIO_DO_STATE_DO_FAULT h.idx)) k || k == n.val)) ∧
  (∀ (h : Half) (code : BitVec 12) (n : Nat) (s : State),
    let c := s.chip
    nextChannel (c.q (F.HIO_ADC_SEQ_SEQ h.idx)) (c.hio.get h).adcLast = some n →
    let inside := c.q (F.HIO_ADC_WIN_MIN h.idx n) ≤ code.toNat ∧ code.toNat ≤ c.q (F.HIO_ADC_WIN_MAX h.idx n)
    ∃ t, exec (.adcConversion h code) s = .next (s.withChip t) ∧ (t.hio.get h).adcLast = n ∧
      (inside → t.q (F.HIO_ADC_VAL_VALUE h.idx n) =
        toFp32 ((FV.ofInt ((code.toNat : Int) - c.q (F.HIO_ADC_OFF_OFF h.idx n))).mul (v32 (c.q (F.HIO_ADC_GAIN_GAIN h.idx n))))) ∧
      (¬ inside → t.q (F.HIO_ADC_VAL_VALUE h.idx n) = 0x7FC00000)) ∧
  (∀ (h : Half) (n : Fin 8) (a b : Bool) (s : State), s.chip.down.get h = false →
    let pos := s.chip.q (F.HIO_ENC_POS_VALUE h.idx n)
    let d := (quadPhase (2 * b2n a + b2n b) + 4 - quadPhase (Tbl.look 0 (s.chip.hio.get h).encAB n)) % 4
    ∃ t, exec (.encoderTransition h n a b) s = .next (s.withChip t) ∧
      t.q (F.HIO_ENC_POS_VALUE h.idx n) = (if d = 1 then (pos + 1) % 2 ^ 32 else if d = 3 then (pos + 2 ^ 32 - 1) % 2 ^ 32 else pos) ∧
      t.q (F.HIO_ENC_ERR_VALUE h.idx n) = (if d = 2 then min (s.chip.q (F.HIO_ENC_ERR_VALUE h.idx n) + 1) 0xFFFF else s.chip.q (F.HIO_ENC_ERR_VALUE h.idx n))) ∧
  (∀ (h : Half) (n : Fin 32) (level : Bool) (s : State),
    s.chip.down.get h = false → bit (s.chip.hio.get h).diLevel n ≠ level →
    ∃ t, exec (.inputEdge h n level) s = .next (s.withChip t) ∧ bit (t.hio.get h).diLevel n = level ∧
      Tbl.find? (t.hio.get h).diSince n = some (s.chip.stamp h 0) ∧ t.q (F.HIO_DI_CNT_COUNT h.idx n) = (s.chip.inc (F.HIO_DI_CNT_COUNT h.idx n)).q (F.HIO_DI_CNT_COUNT h.idx n)) ∧
  (∀ (h : Half) (n : Fin 32) (s : State),
    let x := s.chip.hio.get h
    let edges := Tbl.look 0 x.diEdges n
    let c := s.chip.setHio h { x with diEdges := Tbl.put 0 x.diEdges n 0 }
    exec (.chatterWindowEnd h n) s = .next (s.withChip (if bit (c.q (F.HIO_DI_CHATTER_INPUT h.idx)) n = true ∧ edges ≤ c.q (F.HIO_DI_RATE_CHAT_MAX h.idx n) / 2
      then c.setChatter h n false edges else c))) ∧
  (∀ (h : Half) (n : Fin 32) (s : State),
    let t := s.chip.q (F.HIO_DI_STUCK_STUCK h.idx n)
    0 < t → s.chip.diActive h n = true → bit (s.chip.q (F.HIO_DI_STUCK_ST_INPUT h.idx)) n = false →
    ((t * 10000 * usUnits : Nat) : Int) ≤ elapsed (s.chip.stamp h 0) (Tbl.look 0 (s.chip.hio.get h).diSince n) →
    exec (.stuckTimeout h n) s = .next (s.withChip (s.chip.setStuck h n true))) ∧
  (∀ (h : Half) (n : Nat) (s : State),
    let x := s.chip.hio.get h
    let d := s.chip.q (F.HIO_DI_NOTIFY_DOWEL h.idx n)
    x.nextPend = some n → s.chip.q (F.DOWEL_ATTR_OWNER d) = s.chip.q (F.HIO_DI_NOTIFY_NOTIFY_OWNER h.idx n) →
    let c := s.chip.setHio h { x with diPend := Tbl.put 0 x.diPend n 0, diLast := n, diRun := setBit x.diRun n false }
    exec (.edgeNotify h) s = .next (s.withChip (if s.chip.down.get (dowelHalf d) = true then c else c.dowelAdd 0 d (Tbl.look 0 x.diPend n))))

/-- In either bit order, a field of any width whose bits lie inside the payload reads back, after a value has been
packed into it, as that value modulo two to the width; every payload bit outside the field is as before, and so is the
length of the payload. -/
def Obligations.FieldsPacked : Prop :=
  ∀ (d : List Byte) (start n v draw : Nat) (be : Bool),
    (∀ b ∈ fieldBits be n start, b < 8 * d.length) →
    let e := packField d start n be v
    readField draw e start n be = v % 2 ^ n ∧ e.length = d.length ∧ ∀ b, b ∉ fieldBits be n start → payloadBit draw e b = payloadBit draw d b

/-- A CAN frame, in a format that the controller carries, received at a port that is up and whose half's time may be
used, matching the sole route, a signal route, gives the route the field read from its payload, fresh and with the
instant of receipt. A route of a hardened input takes its level at each of its instants, once. An instant of a valid
outbound frame is served once. A frame of a live send that a CAN controller, neither monitoring nor restricted,
transmits next, once the frames of routes in its queue that have grown too old are gone, leaves the queue for the wire
and completes the command. A change of a controller's error counts, bus-off with the failure of its queued frames,
recovery, a change of a MAC's link, and a pulse on a latching side-band line are recorded. -/
def Obligations.GatewayFrames : Prop :=
  (∀ (p : Fin 32) (f : GFrame) (r : Nat) (s : State),
    let c := s.chip
    c.portUp p = true → isCan p = true → c.timeReady (portHalf p) = true → c.carries p f.fmt = true → c.on F.GW_CTL_ENABLE = true → c.routes = [r] →
    (c.q (F.GW_ROUTE_CFG_SRC0 r) = p ∨ c.q (F.GW_ROUTE_CFG_SRC1 r) = p) → c.q (F.GW_ROUTE_CFG_SRC_KIND r) = 0 → c.on (F.GW_ROUTE_CFG_KIND r) = false →
    matchKey f.ident.toNat (c.reg (Reg.GW_ROUTE_MATCH r)) (c.reg (Reg.GW_ROUTE_MASK r)) = true →
    ∃ t k, exec (.frameReceived p f) s = .next (s.withChip t) ∧
      (t.route r).val = readField k f.data (c.q (F.GW_ROUTE_IN_IN_START r)) (c.q (F.GW_ROUTE_IN_IN_LEN r) + 1) (c.on (F.GW_ROUTE_IN_IN_BE r)) ∧
      (t.route r).origin = some (c.stamp (portHalf p) 0) ∧ (t.route r).fresh = true ∧ (t.route r).stale = false) ∧
  (∀ (r : Fin 4096) (b : Bool) (o : Seen) (s : State),
    let c := s.chip
    let m := c.reg (Reg.GW_ROUTE_MATCH r)
    let p := max (c.q (F.GW_ROUTE_PERIOD_SRC_PERIOD_US r)) 1 * usUnits
    let k := c.gwNow c.gwHalf / p * p
    c.on F.GW_CTL_ENABLE = true → c.on (F.GW_ROUTE_CFG_VALID r) = true → c.q (F.GW_ROUTE_CFG_KIND r) = 0 → c.timeReady c.gwHalf = true →
    (∀ l, (c.route r).poll = some l → 0 < elapsed k l) → c.q (F.GW_ROUTE_CFG_SRC_KIND r) = 2 → c.down.get (Half.ofIdx (bits m 5 1)) = false →
    ∃ t, exec (.sourcePoll r b o) s = .next (s.withChip t) ∧ (t.route r).poll = some k ∧ (t.route r).fresh = true ∧
      (t.route r).val = b2n (bit (c.q (F.HIO_DI_LEVEL_INPUT (bits m 5 1))) (m % 32)) ∧ exec (.sourcePoll r b o) ⟨t, s.pending⟩ = .next ⟨t, s.pending⟩) ∧
  (∀ (f : Fin 1024) (s : State),
    let c := s.chip
    let p := max (c.q (F.GW_TXF_PERIOD_PERIOD_US f)) 1 * usUnits
    let k := c.gwNow c.gwHalf / p * p
    c.on F.GW_CTL_ENABLE = true → c.on (F.GW_TXF_CFG_VALID f) = true → c.timeReady c.gwHalf = true →
    ((∀ l, Tbl.find? c.gwInstant f = some l → 0 < elapsed k l) → exec (.outboundFrameInstant f) s =
      .next (s.withChip (Chip.frameInstant { c with gwInstant := Tbl.ins c.gwInstant f k } f false))) ∧
    (∀ l, Tbl.find? c.gwInstant f = some l → elapsed k l ≤ 0 → exec (.outboundFrameInstant f) s = .next s)) ∧
  (∀ (p : Fin 32) (tc : Fin 8) (q : GQueued) (id : CmdId) (x : GSend) (m : Cmd) (s : State),
    let c := s.chip.ageQueued p
    c.portUp p = true → isCan p = true → c.mayDrive p = true → c.nextFrame p tc = some q → q.src = .cmd id →
    c.send? id = some x → x.live = true → x.resp = none → c.cmd? id = some m → m.stage = .running →
    ∃ t, exec (.frameTransmitted p tc true) s = .next (s.withChip t) ∧ t.cmd? id = none ∧
      Tbl.find? t.gwOut p = some (if q.needSa then { q.frame with ident := withSa q.frame.ident (c.q (F.GW_CAN_SA_SA p)) } else q.frame)) ∧
  (∀ (n : Fin 12) (tec rec_ : Fin 256) (s : State),
    let c := s.chip
    c.canState n ≤ 1 → c.down.get (portHalf n) = false →
    (∃ t, exec (.canErrorStateChange n tec rec_) s = .next (s.withChip t) ∧ t.canState n = (if 128 ≤ tec.val ∨ 128 ≤ rec_.val then 1 else 0) ∧
      t.q (F.GW_CAN_STAT_TEC n) = tec ∧ t.q (F.GW_CAN_STAT_REC n) = rec_) ∧
    exec (.busOff n) s = .next (s.withChip (((c.put (F.GW_CAN_STAT_STATE n) 2).ev (portHalf n) 0x0A01 [n.val, 2]).failPort n 2))) ∧
  (∀ (n : Fin 12) (s : State),
    s.chip.canState n = 2 → s.chip.on (F.GW_CAN_CFG_BO_AUTO n) = true →
    exec (.busOffRecovery n) s = .next (s.withChip (((((s.chip.put (F.GW_CAN_STAT_STATE n) 0).put (F.GW_CAN_STAT_TEC n) 0).put (F.GW_CAN_STAT_REC n) 0).ev
      (portHalf n) 0x0A01 [n.val, 0]).forwardAll))) ∧
  (∀ (m : Fin 8) (up : Bool) (s : State),
    s.chip.on (F.GW_ETH_STAT_LINK m) ≠ up → s.chip.down.get (portHalf (m.val + 16)) = false →
    let c := (s.chip.put (F.GW_ETH_STAT_LINK m) (b2n up)).ev (portHalf (m.val + 16)) 0x0A08 [m.val, b2n up, s.chip.q (F.GW_ETH_CFG_SPEED m)]
    exec (.ethernetLinkChange m up) s = .next (s.withChip (if up then c.forwardAll else c.failPort (m.val + 16) 3))) ∧
  (∀ (n : Fin 16) (s : State),
    bit (s.chip.q (F.GW_SB_CFG_LATCH (n.val / 8))) (n.val % 8) = true → s.chip.down.get (Half.ofIdx (n.val / 8)) = false →
    exec (.sideBandPulse n) s = .next (s.withChip { s.chip with gwPulse := setBit s.chip.gwPulse n true }))

/-- A send or request of a party that may transmit at a port in service, with a readable record of a good length in a
format that the port carries and room in the queue, queues its frame, under the claimed source address where the record
asks for it or withheld until there is one; a request, or a send with its open bit, then runs on, and another send
completes. A fence whose earlier sends are resolved completes, with FAR_ERROR_LATE if a late error was registered for
its owner, which it clears. A queued frame that outlives its LIFE_MS, and a request without response for TIMEOUT_US,
fail. The write that arms a gate list fixes the first cycle start of the admin list that is not past on the gateway time
base, at which it replaces the operating list; where the half's time may be used, the entry in force is then the one
that the cycle gives at the present time. -/
def Obligations.GatewayCommands : Prop :=
  (∀ (id : CmdId) (far : Far) (o : Seen) (m : Cmd) (hdr data : List Byte) (c1 c2 : Chip) (f : GFrame) (j : Bool) (s : State),
    let p := m.fld 1 48 5
    let a := alignDown (m.fld 1 0 48) 64
    s.chip.mayTransmit p m.owner.part = true → s.chip.readSeen m a 32 far o = (.ok hdr, c1) → c1.readSeen m (a + 32) (leNat (hdr.take 2)) far o = (.ok data, c2) →
    let c := if m.stage = .waiting then c2 else c2.touches m [(a, 32 + data.length)]
    let tc := if isMac p then frameClass f else 0
    let q : GQueued := ⟨p, tc, f, m.owner.part, m.rank, false, .cmd m.id, c.stamp (portHalf p) 0⟩
    parseRecord p hdr data = some (f, j) → c.carries p f.fmt = true → c.queueRoom p tc m.owner.part true = true →
    c.down.get (portHalf p) = false → (isCan p = true → c.canState p ≠ 2) → (isMac p = true → c.on (F.GW_ETH_STAT_LINK (p - 16)) = true) →
    let queued (t : Chip) : Prop := t.gwQueue = c.gwQueue ++ [if j = false ∨ isCan p = false then q else if c.on (F.GW_CAN_SA_SA_VALID p) then
      { q with frame := { f with ident := withSa f.ident (c.q (F.GW_CAN_SA_SA p)) } } else { q with needSa := true }]
    (s.chip.bridgeCmd id 0x80 = some m → m.opcode = 0x80 → ∃ t, exec (.send id far o) s = .next (s.withChip t) ∧ queued t ∧
      (bit (m.word 1) 63 = true → t.cmds = (c.setCmd { m with stage := .running }).cmds) ∧ (bit (m.word 1) 63 = false → t.cmd? m.id = none)) ∧
    (s.chip.bridgeCmd id 0x81 = some m → m.opcode = 0x81 → ∃ t, exec (.request id far o) s = .next (s.withChip t) ∧ queued t ∧
      t.cmds = (c.setCmd { m with stage := .running }).cmds)) ∧
  (∀ (id : CmdId) (m : Cmd) (s : State),
    s.chip.bridgeCmd id 0x82 = some m → s.chip.sendsResolved m = true →
    (s.chip.gwLate.contains m.owner = false → exec (.bridgeFence id) s = .next (s.withChip (s.chip.complete m 0))) ∧
    (s.chip.gwLate.contains m.owner = true → exec (.bridgeFence id) s = .next (s.withChip
      (Chip.complete { s.chip with gwLate := s.chip.gwLate.filter (· != m.owner) } (m.endWith .farErrorLate 0) 0)))) ∧
  (∀ (id : CmdId) (x : GSend) (q : GQueued) (s : State),
    s.chip.send? id = some x → (s.chip.gwQueue.find? fun q => q.src == .cmd id) = some q →
    ((x.lifeUs * usUnits : Nat) : Int) ≤ elapsed (s.chip.stamp (portHalf x.port) 0) x.since →
    exec (.lifeMsExpiry id) s = .next (s.withChip ((s.chip.unqueue q).failSend x 4 0))) ∧
  (∀ (id : CmdId) (x : GSend) (r : GResp) (b : Nat) (s : State),
    s.chip.send? id = some x → x.resp = some r → x.sentAt = some b → x.live = true →
    ((r.timeoutUs * usUnits : Nat) : Int) ≤ elapsed (s.chip.stamp (portHalf x.port) 0) b →
    exec (.timeoutUsExpiry id) s = .next (s.withChip (s.chip.failSend { x with resp := none } 9 0))) ∧
  (∀ (i : Initiator) (m : Fin 8) (v : Word) (s : State),
    let h := portHalf (m.val + 16)
    s.chip.portCause i true (Reg.GW_ETH_BASE_HI m) = 0 → s.chip.down.get h = false →
    let c := s.chip.setReg (Reg.GW_ETH_BASE_HI m) v.toNat
    let base := c.pair (Reg.GW_ETH_BASE_LO m) (Reg.GW_ETH_BASE_HI m)
    ∃ t, exec (.gclArm i m v) s = .next (s.withChip t) ∧ t.on (F.GW_ETH_STAT_GCL_PENDING m) = true ∧
      (elapsed (c.gwNow h) base ≤ 0 → (t.gates m).due = base) ∧
      (0 < elapsed (c.gwNow h) base → ∃ k : Nat, (t.gates m).due = (base + k * c.gateCycle m) % 2 ^ 64 ∧
        elapsed (c.gwNow h) base ≤ ((k * c.gateCycle m : Nat) : Int) ∧ ((k * c.gateCycle m : Nat) : Int) < elapsed (c.gwNow h) base + (c.gateCycle m : Nat))) ∧
  (∀ (m : Fin 8) (s : State),
    let h := portHalf (m.val + 16)
    let g := s.chip.gates m
    s.chip.on (F.GW_ETH_STAT_GCL_PENDING m) = true → s.chip.timeReady h = true → 0 ≤ elapsed (s.chip.gwNow h) g.due →
    ∃ t, exec (.gclReplace m) s = .next (s.withChip t) ∧ t.gates m = ⟨s.chip.adminList m, 0, g.due, 0⟩ ∧ t.on (F.GW_ETH_STAT_GCL_PENDING m) = false) ∧
  (∀ (m : Fin 8) (s : State),
    let g := s.chip.gates m
    let cyc : Int := (s.chip.gateCycle m : Nat)
    let t := elapsed (s.chip.gwNow (portHalf (m.val + 16))) g.cycleStart
    g.list ≠ [] → s.chip.down.get (portHalf (m.val + 16)) = false → s.chip.timeReady (portHalf (m.val + 16)) = true →
    let x := { g with pos := gateSeek (t % cyc).toNat g.list 0 0, cycleStart := unsgn 64 (g.cycleStart + t / cyc * cyc) }
    exec (.gateEntryEnd m) s = .next (s.withChip { s.chip with gwGates := Tbl.ins s.chip.gwGates m x }))

/-- At a port in service whose buffers lie above the control space and whose half's time serves the engines, a Frame
Start of its virtual channel begins the next frame, dropped if the release dowel shows no free buffer; a line takes its
place in the frame in progress and marks a wrong CRC and a short line; a Frame End, or a missing one after TIMEOUT_MS,
ends the frame, which is written and counted unless a write of it is refused. Packets of another channel and lines
without a frame count as errors. A change of a D-PHY's lock and of a display's link is recorded and raised. At vertical
blanking an output counts the frame and takes the frame of the present dowel, shown from the next active line on. A good
read of the safety slot becomes the safety buffer; a failed one holds it and counts. An active line is as wide as the
output; with no frame to show, the present dowel having read 0 at the blanking, and no safety layer it is the
background, and inside a failing safety rectangle it is SAFE_FAIL where that colour is opaque; a line whose frame could
not be read in time counts as missed. -/
def Obligations.CamerasAndDisplays : Prop :=
  (∀ (n vc : Fin 16) (s : State),
    let c := s.chip
    let x := c.cam n
    let no := x.no + 1
    let late := decide (c.dowel (c.q (F.INTAKE_DOWELS_RELEASE_DOWEL n)) + (c.q (F.INTAKE_FMT_BUFS_M2 n) + 2) < no)
    c.camOn n = true → c.timeReady (camHalf n) = true → c.q (F.INTAKE_FMT_VC n) = vc → x.cur = none →
    ∃ t, exec (.csiFrameStart n vc) s = .next (s.withChip t) ∧ (t.cam n).no = no ∧
      ∃ f, (t.cam n).cur = some f ∧ f.no = no ∧ f.lines = 0 ∧ f.dropped = late ∧
        t.q (F.INTAKE_DROPPED_COUNT n) = (if late then (c.inc (F.INTAKE_DROPPED_COUNT n)).q (F.INTAKE_DROPPED_COUNT n) else c.q (F.INTAKE_DROPPED_COUNT n))) ∧
  (∀ (n vc : Fin 16) (dt : Fin 64) (l : List (BitVec 16)) (crcOk : Bool) (f : CamFrame) (s : State),
    let c := s.chip
    c.camOn n = true → c.q (F.INTAKE_FMT_VC n) = vc → c.camType n = dt → (c.cam n).cur = some f → f.lines < c.q (F.INTAKE_SIZE_H n) →
    0x40000000 ≤ c.camBuf n f.no →
    ∃ t g, exec (.csiLine n vc dt l true crcOk) s = .next (s.withChip t) ∧ (t.cam n).cur = some g ∧ g.no = f.no ∧ g.lines = f.lines + 1 ∧
      g.crcErr = (f.crcErr || !crcOk) ∧ g.truncated = (f.truncated || decide (l.length < c.camWidth n f.lines)) ∧ t.cmds = c.cmds) ∧
  (∀ (n vc : Fin 16) (f : CamFrame) (s : State),
    let c := s.chip
    c.camOn n = true → c.q (F.INTAKE_FMT_VC n) = vc → (c.cam n).cur = some f → f.lines = c.q (F.INTAKE_SIZE_H n) → f.dropped = false →
    0x40000000 ≤ c.camBuf n f.no → c.engineCause (c.camBus n) true (c.camBuf n f.no) 64 .answered = none →
    ∃ t, exec (.csiFrameEnd n vc) s = .next (s.withChip t) ∧ (t.cam n).cur = none ∧ (t.cam n).no = (c.cam n).no ∧
      t.reg (Reg.INTAKE_SEQ n) = f.no % 2 ^ 32 ∧
      t.q (F.INTAKE_WRITTEN_COUNT n) = min (c.q (F.INTAKE_WRITTEN_COUNT n) + 1) (2 ^ 32 - 1)) ∧
  (∀ (n : Fin 16) (f : CamFrame) (s : State),
    let c := s.chip
    c.camOn n = true → (c.cam n).cur = some f → 0x40000000 ≤ c.camBuf n f.no →
    ((c.q (F.INTAKE_RATE_TIMEOUT_MS n) * 1000 * usUnits : Nat) : Int) ≤ elapsed (c.stamp (camHalf n) 0) f.lastAt →
    ∃ t, exec (.frameEndTimeout n) s = .next (s.withChip t) ∧ (t.cam n).cur = none ∧ (t.cam n).no = (c.cam n).no ∧
      t.q (F.INTAKE_TRUNC_COUNT n) = min (c.q (F.INTAKE_TRUNC_COUNT n) + 1) (2 ^ 32 - 1)) ∧
  (∀ (n vc : Fin 16) (dt : Fin 64) (l : List (BitVec 16)) (ok : Bool) (s : State),
    let c := s.chip
    let e := Host.Outcome.next (s.withChip (c.inc (F.INTAKE_ERR_COUNT n)))
    c.camOn n = true →
    (c.q (F.INTAKE_FMT_VC n) ≠ vc → (c.timeReady (camHalf n) = true → exec (.csiFrameStart n vc) s = e) ∧ exec (.csiFrameEnd n vc) s = e ∧ exec (.csiLine n vc dt l true ok) s = e) ∧
    (c.q (F.INTAKE_FMT_VC n) = vc → (c.cam n).cur = none → exec (.csiLine n vc dt l true ok) s = e ∧ exec (.csiFrameEnd n vc) s = .next s)) ∧
  (∀ (n : Fin 16) (b : Bool) (s : State),
    (s.chip.cam n).phyLost = b → s.chip.down.get (camHalf n) = false →
    exec (.cameraPhyLockChange n b) s = .next (s.withChip ((s.chip.setCam n { s.chip.cam n with phyLost := !b }).ev (camHalf n) 0x0B04 [n.val, if b then 2 else 1]))) ∧
  (∀ (d : Fin 4) (b : Bool) (s : State),
    (s.chip.scan d).stopped = b → s.chip.down.get (scanHalf d) = false →
    exec (.hotPlug d b) s = .next (s.withChip ((s.chip.setScan d { s.chip.scan d with stopped := !b }).ev (scanHalf d) 0x0B10
      [d.val, b2n b, s.chip.q (F.SCAN_LINK_RATE d)]))) ∧
  (∀ (d : Fin 4) (o : Seen) (s : State),
    let c := s.chip
    let p := c.dowel (c.q (F.SCAN_MAIN_DOWELS_PRESENT d))
    c.scanOn d = true →
    ∃ t, exec (.vblankStart d o) s = .next (s.withChip t) ∧ (t.scan d).next = (if (c.scan d).shown < p then some p else none) ∧ (t.scan d).blank = (p == 0) ∧
      (t.scan d).shown = (c.scan d).shown ∧ t.q (F.SCAN_FRAME_COUNT d) = min (c.q (F.SCAN_FRAME_COUNT d) + 1) (2 ^ 32 - 1)) ∧
  (∀ (d : Fin 4) (st : Nat) (bs : List Byte) (s : State),
    let c := s.chip
    (c.scan d).read = some (st, bs) →
    ∃ t, exec (.safetyBufferSwap d) s = .next (s.withChip t) ∧ (t.scan d).read = none ∧
      (st = Status.done.code → c.safeBytes d ≤ bs.length → (t.scan d).safe = some bs ∧ (t.scan d).failing = false) ∧
      (st ≠ Status.done.code ∨ bs.length < c.safeBytes d → (t.scan d).safe = (c.scan d).safe ∧ (t.scan d).fails = min ((c.scan d).fails + 1) 15 ∧
        (c.q (F.SCAN_SAFE_CFG_SAFE_HOLD d) ≤ (t.scan d).fails → (t.scan d).failing = true))) ∧
  (∀ (d : Fin 4) (y : Fin 65536) (late : Bool) (o : Seen) (s : State),
    let c := s.chip
    c.scanOn d = true → y.val < c.q (F.SCAN_V_ACTIVE d) →
    ∃ t, exec (.activeLine d y late o) s = .next (s.withChip t) ∧ (t.scan d).out.length = c.q (F.SCAN_H_ACTIVE d) ∧ (t.scan d).next = none ∧
      (∀ p, (c.scan d).next = some p → (t.scan d).shown = p) ∧
      ((c.scan d).blank = true ∨ (c.scan d).next.getD (c.scan d).shown = 0 → c.on (F.SCAN_SAFE_CFG_ENABLE d) = false →
        (t.scan d).out = List.replicate (c.q (F.SCAN_H_ACTIVE d)) (c.background d)) ∧
      (late = true → (c.scan d).blank = false → (c.scan d).next.getD (c.scan d).shown ≠ 0 → (t.scan d).missed = (c.scan d).missed + 1 ∧
        t.q (F.SCAN_UNDERRUN_COUNT d) = min (c.q (F.SCAN_UNDERRUN_COUNT d) + 1) (2 ^ 32 - 1)) ∧
      (∀ k, c.on (F.SCAN_SAFE_CFG_ENABLE d) = true → (c.scan d).failing = true → k < c.q (F.SCAN_H_ACTIVE d) →
        c.q (F.SCAN_SAFE_POS_SAFE_X d) ≤ k → k < c.q (F.SCAN_SAFE_POS_SAFE_X d) + c.q (F.SCAN_SAFE_SIZE_SAFE_W d) →
        c.q (F.SCAN_SAFE_POS_SAFE_Y d) ≤ y → y < c.q (F.SCAN_SAFE_POS_SAFE_Y d) + c.q (F.SCAN_SAFE_SIZE_SAFE_H d) →
        bits (c.q (F.SCAN_SAFE_FAIL_ARGB d)) 24 8 = 255 →
        (t.scan d).out[k]? = some (widen (c.scanBits d) 8 8 8 (bits (c.q (F.SCAN_SAFE_FAIL_ARGB d)) 16 8) (bits (c.q (F.SCAN_SAFE_FAIL_ARGB d)) 8 8)
          (bits (c.q (F.SCAN_SAFE_FAIL_ARGB d)) 0 8))))

/-- While no move feeds a unit, a party that reaches its page and selects a polynomial by CVU_CTL puts the running value
to the polynomial's initial value; a word written to CVU_DATA of a unit fed by its holder gives the running value and
the result that its four bytes written to CVU_DATA8, byte 0 first, give; a running value written by CVU_VAL_LO and
CVU_VAL_HI is the running value. While a move feeds the unit each such write is ignored and raises event 0x0B21. -/
def Obligations.CheckValueUnits : Prop :=
  ∀ (i : Initiator) (n : Fin 32) (v w : Word) (s : State),
    let c := s.chip
    let page := 0x00D00000 + n.val * 0x1000
    let val (c : Chip) := c.pair (Reg.CVU_VAL_LO n) (Reg.CVU_VAL_HI n)
    let res (c : Chip) := c.pair (Reg.CVU_RESULT_LO n) (Reg.CVU_RESULT_HI n)
    (∀ off ∈ [0x000, 0x004, 0x008, 0x010, 0x014], c.portCause i true (page + off) = 0) → c.down.get (cvuHalf n) = false →
    (c.cvuBusy n = false →
      (∀ p, crcPoly (v.toNat % 8) = some p → ∃ t, exec (.cvuCtl i n v) s = .next (s.withChip t) ∧ t.cvuPoly n = some p ∧ val t = p.init ∧ res t = p.finish p.init) ∧
      (∀ p, c.cvuPoly n = some p → c.q (F.CVU_CFG_SRC n) = 0 →
        ∃ t u1 u2 u3 u : Chip, exec (.cvuData i n v) s = .next (s.withChip t) ∧ val t = p.bytes (val c) (toLE 4 v.toNat) ∧ res t = p.finish (val t) ∧
          exec (.cvuData8 i n v) s = .next (s.withChip u1) ∧ exec (.cvuData8 i n (v >>> 8)) (s.withChip u1) = .next (s.withChip u2) ∧
          exec (.cvuData8 i n (v >>> 16)) (s.withChip u2) = .next (s.withChip u3) ∧ exec (.cvuData8 i n (v >>> 24)) (s.withChip u3) = .next (s.withChip u) ∧
          val t = val u ∧ res t = res u) ∧
      (∃ t u : Chip, exec (.cvuValLo i n v) s = .next (s.withChip t) ∧ exec (.cvuValHi i n w) (s.withChip t) = .next (s.withChip u) ∧
        val t = val c ∧ val u = v.toNat + w.toNat * 2 ^ 32)) ∧
    (c.cvuBusy n = true →
      let e (off : Nat) := Host.Outcome.next (s.withChip (c.evOf (cvuHalf n) 0x0B21 i.owner [n.val, off, i.owner.toNat]))
      exec (.cvuCtl i n v) s = e 0x000 ∧ exec (.cvuData i n v) s = e 0x004 ∧ exec (.cvuData8 i n v) s = e 0x008 ∧
        exec (.cvuValLo i n v) s = e 0x010 ∧ exec (.cvuValHi i n v) s = e 0x014)

/-- Each value of POLY from 0 to 5 selects the polynomial of the table, with its width, initial value, reflection and
final XOR, and its result over the nine ASCII bytes 123456789 is the table's check value; POLY values 6 and 7 compute
nothing: bytes fed leave the unit's value and result. -/
def Obligations.CheckValuePolynomials : Prop :=
  let rows : List (CrcPoly × Nat) :=
    [(⟨8, 0x1D, 0xFF, false, 0xFF⟩, 0x4B), (⟨16, 0x1021, 0xFFFF, false, 0⟩, 0x29B1), (⟨32, 0x04C11DB7, 0xFFFFFFFF, true, 0xFFFFFFFF⟩, 0xCBF43926),
      (⟨32, 0x1EDC6F41, 0xFFFFFFFF, true, 0xFFFFFFFF⟩, 0xE3069283), (⟨32, 0xF4ACFB13, 0xFFFFFFFF, true, 0xFFFFFFFF⟩, 0x1697D06A),
      (⟨64, 0x42F0E1EBA9EA3693, 0, false, 0⟩, 0x6C40DF5F0B497347)]
  (∀ k p x, rows[k]? = some (p, x) → crcPoly k = some p ∧ p.finish (p.bytes p.init [0x31, 0x32, 0x33, 0x34, 0x35, 0x36, 0x37, 0x38, 0x39]) = x) ∧
  (∀ (c : Chip) (n : Nat), c.cvuPoly n = rows[c.q (F.CVU_CTL_POLY n)]?.map (·.1)) ∧
  (∀ (c : Chip) (n : Nat) (bs : List Byte), c.q (F.CVU_CTL_POLY n) = 6 ∨ c.q (F.CVU_CTL_POLY n) = 7 → c.cvuFeed n bs = c)

/-- By a party with the right, a rate written to a base other than TB_0 waits 500 cycles, clamped with an event beyond
the limits; a step of the held low word and the high word, and a rebase, wait likewise or are refused with an event;
writes to TB_0 change nothing. The oldest due write takes effect on both halves' copies: a rate as written, a step by
its signed value and counted, a rebase so that the PTP time of the base is the same. A half that hears no pulse in its
window leads with every base at 0, and holds the lead for good after 1 ms; a lead sends its pulse every 100 µs; a
listening half that hears one, or a Tailstock that has led for less than 1 ms, takes the values and rates of the other
and follows; a follower measures its offset to within 2 ns; 300 µs without a pulse unlock it and raise the cross-check
error. The first PPS edge is captured within 2 ns in all bases, one out of the window is rejected, a missing one
forgotten. The read of an INFO register takes the head stamp into the holding registers. -/
def Obligations.TimeKept : Prop :=
  (∀ (i : Initiator) (h : Half) (n : Fin 8) (v w : Word) (s : State),
    let c := s.chip
    let due := (c.timeOf h).cycles + 500
    let q (c : Chip) (kind x : Nat) : Chip := { c with timeWrites := c.timeWrites ++ [⟨n, kind, x, h, due⟩] }
    (∀ a ∈ [Reg.TB_RATE h.idx n, Reg.TB_STEP_LO h.idx n, Reg.TB_STEP_HI h.idx n, Reg.TB_REBASE h.idx n], c.portCause i true a = 0) → c.down.get h = false →
    (n ≠ 0 →
      (v.toInt ∈ Set.Icc (-256000000) 256000000 → exec (.tbRate i h n v) s = .next (s.withChip (q c 0 v.toNat))) ∧
      (256000000 < v.toInt → exec (.tbRate i h n v) s = .next (s.withChip (q (c.ev h 0x0C01 [n, v.toNat]) 0 256000000))) ∧
      (v.toInt < -256000000 → exec (.tbRate i h n v) s = .next (s.withChip (q (c.ev h 0x0C01 [n, v.toNat]) 0 (2 ^ 32 - 256000000)))) ∧
      (∃ t : Chip, exec (.tbStepLo i h n v) s = .next (s.withChip t) ∧ t.tb = c.tb ∧ t.timeWrites = c.timeWrites ∧
        (c.stepRefused h n = none → exec (.tbStepHi i h n w) (s.withChip t) = .next (s.withChip (q t 1 (v.toNat + w.toNat * 2 ^ 32)))) ∧
        (∀ k, c.stepRefused h n = some k → exec (.tbStepHi i h n w) (s.withChip t) = .next (s.withChip (t.ev h 0x0C02 [n, k])))) ∧
      (c.stepRefused h n = none → exec (.tbRebase i h n v) s = .next (s.withChip (q c 2 v.toNat))) ∧
      (∀ k, c.stepRefused h n = some k → exec (.tbRebase i h n v) s = .next (s.withChip (c.ev h 0x0C02 [n, k])))) ∧
    (n = 0 → exec (.tbRate i h n v) s = .next s ∧ exec (.tbStepLo i h n v) s = .next s ∧ exec (.tbStepHi i h n v) s = .next s ∧ exec (.tbRebase i h n v) s = .next s)) ∧
  (∀ (w : TimeWrite) (r : List TimeWrite) (h : Half) (s : State),
    let c := s.chip
    c.timeWrites = w :: r → c.down.get h = false → w.due ≤ (c.timeOf w.half).cycles → w.base < 8 → (∀ h, (c.tb.get h).length = 8) → w.val < 2 ^ 32 ∨ w.kind = 1 →
    ∃ t, exec .timeWriteApply s = .next (s.withChip t) ∧ t.timeWrites = r ∧
      (w.kind = 0 → t.reg (Reg.TB_RATE h.idx w.base) = w.val ∧ t.base h w.base = c.base h w.base) ∧
      (w.kind = 1 → ((t.base h w.base).val : Int) = (((c.base h w.base).val : Int) + (BitVec.ofNat 64 w.val).toInt) % 2 ^ 64 ∧
        t.q (F.TB_STEP_CNT_COUNT h.idx w.base) = min (c.q (F.TB_STEP_CNT_COUNT h.idx w.base) + 1) (2 ^ (F.TB_STEP_CNT_COUNT h.idx w.base).wid - 1)) ∧
      (w.kind = 2 → w.val * 64000000000 ≤ (c.base h w.base).val → (c.base h w.base).val < 2 ^ 64 → c.epoch h.idx w.base + w.val < 2 ^ 48 →
        ptpTime (t.epoch h.idx w.base) (t.base h w.base).val = ptpTime (c.epoch h.idx w.base) (c.base h w.base).val)) ∧
  (∀ (h : Half) (s : State),
    let c := s.chip
    let x := c.timeOf h
    c.down.get h = false →
    (x.role = .listening → (if h = .H then 75000 else 500000) ≤ x.cycles →
      ∃ t, exec (.listeningWindowExpiry h) s = .next (s.withChip t) ∧ (t.timeOf h).role = .leading x.cycles ∧ t.tb.get h = List.replicate 8 ⟨0, 0⟩ ∧
        t.on (F.TIME_ID_LEAD h.idx) = true ∧ t.tb.get h.other = c.tb.get h.other) ∧
    (∀ k, x.role = .leading k → k + 250000 ≤ x.cycles → exec (.leadHoldExpiry h) s = .next (s.withChip (c.setTime h { x with role := .lead }))) ∧
    (c.leads h = true → x.sentAt + 25000 ≤ x.cycles → exec (.timePulseSend h) s = .next (s.withChip (c.setTime h { x with sentAt := x.cycles, onWay := true })))) ∧
  (∀ (h : Half) (strained : Bool) (n : Fin 8) (s : State),
    let c := s.chip
    c.down.get h = false → (c.timeOf h.other).onWay = true →
    ∃ t, exec (.timePulse h strained) s = .next (s.withChip t) ∧ (t.timeOf h.other).onWay = false ∧
      ((c.timeOf h).role = .listening ∨ (∃ k, (c.timeOf h).role = .leading k ∧ h = .T ∧ (c.timeOf h).cycles < k + 250000) → (t.timeOf h).role = .follower ∧ t.tb.get h = c.tb.get h.other ∧
        t.reg (Reg.TB_RATE h.idx n) = c.reg (Reg.TB_RATE h.other.idx n) ∧ t.epoch h.idx n = c.epoch h.other.idx n) ∧
      (∀ off : Int, (c.timeOf h).role = .follower → elapsed (c.stamp h 0) (c.stamp h.other 0) = off → off ∈ Set.Icc (-2000000000) 2000000000 →
        (t.timeOf h).heardAt = (c.timeOf h).cycles ∧ t.on (F.TIME_STATUS_PULSE_OK h.idx) = true ∧ t.tb = c.tb ∧
        |(BitVec.ofNat 32 (t.reg (Reg.TIME_OFFSET h.idx))).toInt - off| ≤ 128)) ∧
  (∀ (h : Half) (s : State),
    let c := s.chip
    c.down.get h = false → (c.timeOf h).role = .follower → (c.timeOf h).heardAt + 75000 ≤ (c.timeOf h).cycles →
    ∃ t, exec (.pulseLoss h) s = .next (s.withChip t) ∧ t.on (F.TIME_STATUS_LOCKED h.idx) = false ∧ t.on (F.TIME_STATUS_PULSE_OK h.idx) = false ∧
      t.on (F.TIME_STATUS_XCHK_ERR h.idx) = true ∧ t.tb = c.tb) ∧
  (∀ (h : Half) (pol : Bool) (n : Fin 8) (s : State),
    let c := s.chip
    let win : Int := ((c.q (F.TIME_PPS_CFG_WIN_US h.idx) * usUnits : Nat) : Int)
    c.on (F.TIME_PPS_CFG_ENABLE h.idx) = true → c.on (F.TIME_PPS_CFG_POL h.idx) = pol → c.down.get h = false →
    (c.timeReady h = true → (c.timeOf h).pps = none → ∃ t, exec (.ppsEdge h pol) s = .next (s.withChip t) ∧ (t.timeOf h).pps = some (c.stamp h 0) ∧ t.tb = c.tb ∧
      |elapsed (t.pair (Reg.TB_PPS_LO h.idx n) (Reg.TB_PPS_HI h.idx n)) (c.stamp h n)| ≤ 128) ∧
    (∀ b, c.timeReady h = true → (c.timeOf h).pps = some b → elapsed (c.stamp h 0) b < 64000000000 - win → exec (.ppsEdge h pol) s =
      .next (s.withChip ((c.inc (F.TIME_PPS_REJ_COUNT h.idx)).ev h 0x0C10 [h.idx, unsgn 64 (elapsed (c.stamp h 0) b)]))) ∧
    (∀ b, (c.timeOf h).pps = some b → 64000000000 + win < elapsed (c.stamp h 0) b → exec (.ppsMissing h) s =
      .next (s.withChip ((c.setTime h { c.timeOf h with pps := none }).ev h 0x0C11 [h.idx])))) ∧
  (∀ (i : Initiator) (m : Fin 8) (s : State),
    let c := s.chip
    let info (x : PtpStamp) := BitVec.ofNat 64 (2 ^ 31 + x.msgType % 16 * 2 ^ 24 + x.domain % 256 * 2 ^ 16 + x.seqId % 65536)
    c.down.get (Half.ofIdx (m / 4)) = false →
    (c.portCause i false (Reg.TIME_TXTS_INFO (m / 4) (m % 4)) = 0 → ∃ t, exec (.txtsInfoRead i m) s = .next (s.withChip t) ∧
      (∀ x r, Tbl.find? c.ptpTx m = some (x :: r) → Tbl.find? t.ptpTx m = some r ∧ t.answer.map (·.val) = some (info x) ∧
        t.held i (Reg.TIME_TXTS_LO (m / 4) (m % 4)) = x.stamp % 2 ^ 32 ∧ t.held i (Reg.TIME_TXTS_HI (m / 4) (m % 4)) = x.stamp / 2 ^ 32 % 2 ^ 32) ∧
      (Tbl.find? c.ptpTx m = none → t = c.answering i (Reg.TIME_TXTS_INFO (m / 4) (m % 4)) 0)) ∧
    (c.portCause i false (Reg.TIME_RXTS_INFO (m / 4) (m % 4)) = 0 → ∃ t, exec (.rxtsInfoRead i m) s = .next (s.withChip t) ∧
      (∀ x r, Tbl.find? c.ptpRx m = some (x :: r) → Tbl.find? t.ptpRx m = some r ∧ t.answer.map (·.val) = some (info x) ∧
        t.held i (Reg.TIME_RXTS_LO (m / 4) (m % 4)) = x.stamp % 2 ^ 32 ∧ t.held i (Reg.TIME_RXTS_HI (m / 4) (m % 4)) = x.stamp / 2 ^ 32 % 2 ^ 32) ∧
      (Tbl.find? c.ptpRx m = none → t = c.answering i (Reg.TIME_RXTS_INFO (m / 4) (m % 4)) 0)))

/-- Asked by an initiator that reaches the OWN block, a change that breaks a rule is refused with its result, counted
and raised. An accepted RETYPE, REASSIGN without zeroing, or FLAGS gives every entry of the range its new type, owner or
flags at once and leaves every other entry; a REASSIGN with zeroing changes no entry yet. When old accesses have ended,
and each half that is up and has granules to zero has a Carriage in service, the change completes: entries that waited
for zeroing take the new owner and type, and without the completion event their granules read zero; no other entry
changes its owner or type. An application core that runs and writes cgbowner acts under the new owner, its scrub armed
when it leaves Heartwood; an armed scrub clears every integer register but x10 to x17 and all floating-point and vector
state. A granted load of a core from DRAM fills its register; a granted store writes its bytes; a refused access sets
the core's access-fault exception. -/
def Obligations.OwnershipChanges : Prop :=
  (∀ (i : Initiator) (zero : Bool) (s : State),
    let c := s.chip
    let g (op : Nat) : OwnChange := ⟨op, c.q F.OWN_CHG_FIRST_INDEX, c.q F.OWN_CHG_COUNT_INDEX, c.q F.OWN_CHG_NEW_VALUE, false, c.txnNext⟩
    let refused (op k : Nat) := Host.Outcome.next (s.withChip (((c.put F.OWN_CHG_STATUS_RESULT k).inc F.OWN_REFUSED_COUNT).ev i.half 0x0D01 [op, (g op).first, k]))
    let world := (g 2).entries.any fun e => ownOwner (c.ownAt e) / 4096 != (g 2).owner / 4096
    c.portCause i true Reg.OWN_CHG_CMD = 0 →
    (∀ k, c.changeCheck (g 1) false = some k → exec (.retype i) s = refused 1 k) ∧
    (∀ k, c.changeCheck (g 2) zero = some k → exec (.reassign i zero) s = refused 2 k) ∧
    (∀ k, c.changeCheck (g 3) false = some k → exec (.flags i) s = refused 3 k) ∧
    (c.changeCheck (g 1) false = none → ∃ t, exec (.retype i) s = .next (s.withChip t) ∧ t.ownChg = some (g 1) ∧
      ∀ e, (e ∈ (g 1).entries → ownOwner (t.ownAt e) = ownOwner (c.ownAt e) ∧ ownType (t.ownAt e) = (g 1).typ) ∧ (e ∉ (g 1).entries → t.ownAt e = c.ownAt e)) ∧
    (c.changeCheck (g 2) zero = none → ∃ t, exec (.reassign i zero) s = .next (s.withChip t) ∧ t.on F.OWN_CHG_STATUS_BUSY = true ∧
      (ownRow (g 2).first = 0 → zero = true ∨ world = true → t.own = c.own ∧ t.ownChg = some { g 2 with zero := true }) ∧
      (zero = false → world = false → ∀ e, (e ∈ (g 2).entries → ownOwner (t.ownAt e) = (g 2).owner ∧ ownType (t.ownAt e) = (g 2).typ) ∧
        (e ∉ (g 2).entries → t.ownAt e = c.ownAt e))) ∧
    (c.changeCheck (g 3) false = none → ∃ t, exec (.flags i) s = .next (s.withChip t) ∧ t.ownChg = some (g 3) ∧
      ∀ e, (e ∈ (g 3).entries → ownOwner (t.ownAt e) = ownOwner (c.ownAt e) ∧ ownType (t.ownAt e) = ownType (c.ownAt e) ∧
        ownFlags (t.ownAt e) / 2 = (g 3).flags / 2) ∧ (e ∉ (g 3).entries → t.ownAt e = c.ownAt e))) ∧
  (∀ (g : OwnChange) (s : State),
    let c := s.chip
    c.ownChg = some g → c.oldAccess g = false → c.changeZeroers g = true → (g.zero = true → g.op = 2 ∧ ∀ e ∈ g.entries, e < 1048576) →
    ∃ t, exec .ownershipChangeComplete s = .next (s.withChip t) ∧ t.ownChg = none ∧ t.on F.OWN_CHG_STATUS_BUSY = false ∧ t.q F.OWN_CHG_STATUS_RESULT = 0 ∧
      (g.zero = true → ∀ e ∈ g.entries, ownOwner (t.ownAt e) = g.owner ∧ ownType (t.ownAt e) = g.typ ∧
        (c.on F.OWN_CTL_EVT_CHG_EN = false → ∀ k < 65536, t.byte (granuleAddr e + k) = 0)) ∧
      (∀ e, g.zero = false ∨ e ∉ g.entries → ownOwner (t.ownAt e) = ownOwner (c.ownAt e) ∧ ownType (t.ownAt e) = ownType (c.ownAt e))) ∧
  (∀ (k : Fin 16) (o : Owner) (s : State),
    let x := s.chip.app k
    s.chip.appRuns k = true →
    let to_ (t : Chip) : Prop := (t.app k).owner = o ∧ (t.app k).x = x.x ∧ (∀ j, j ≠ k.val → t.app j = s.chip.app j) ∧ t.regs = s.chip.regs ∧ t.mem = s.chip.mem
    (x.owner.world ≠ o.world → ∃ t, exec (.worldSwitch k o) s = .next (s.withChip t) ∧ to_ t ∧ ((t.app k).armed = (x.armed || x.owner.world)) ∧
      (t.app k).counting = !o.world ∧ (t.app k).buffered = false) ∧
    (x.owner.world = o.world → ∃ t, exec (.partitionSwitch k o) s = .next (s.withChip t) ∧ to_ t ∧ (t.app k).armed = x.armed ∧
      (x.owner.part ≠ o.part → (t.app k).buffered = false))) ∧
  (∀ (k : Fin 16) (n : Nat) (s : State),
    (s.chip.app k).armed = true → s.chip.appRuns k = true →
    ∃ t, exec (.scrub k) s = .next (s.withChip t) ∧ (t.app k).armed = false ∧ (t.app k).owner = (s.chip.app k).owner ∧
      Tbl.look 0 (t.app k).x n = (if 10 ≤ n ∧ n ≤ 17 then Tbl.look 0 (s.chip.app k).x n else 0) ∧
      (t.app k).f = [] ∧ (t.app k).v = [] ∧ (t.app k).fcsr = 0 ∧ (t.app k).vl = 0 ∧ t.mem = s.chip.mem) ∧
  (∀ (k : Fin 16) (mmode : Bool) (op : AppAccess) (addr : BitVec 48) (width : Fin 9) (reg : Fin 32) (data : Dword) (o : Seen) (s : State),
    let c := s.chip
    let x := c.app k
    let i : Initiator := ⟨if mmode then 0 else x.owner, k, appHalf k, .core⟩
    c.appRuns k = true → width ≠ 0 →
    (∀ y, ((granuleStarts addr.toNat width).find? fun y => c.appCause i mmode op y != 0) = some y →
      ∃ t, exec (.applicationCoreAccess k mmode op addr width reg data o) s = .next (s.withChip t) ∧ (t.app k).fault = some (accessFault op) ∧ (t.app k).x = x.x) ∧
    (((granuleStarts addr.toNat width).find? fun y => c.appCause i mmode op y != 0) = none → inDram addr.toNat = true →
      (∀ d t, c.outAccess i false (op == .store) addr.toNat width (toLE width (if op = .store then (Tbl.look 0 x.x reg.val).toNat else data.toNat)) o = (.ok d, t) →
        exec (.applicationCoreAccess k mmode op addr width reg data o) s = .next (s.withChip (t.setApp k (x.loaded op reg d))))))

/-- A security core's write of a word of claims is taken by both halves that are up. The fall of a core rail below its
threshold drops the half's memory keys, so that no Heartwood granule of it keeps its content, erases claimed arrays,
takes the half DOWN and is remembered. A half that is up and not started either starts its firmware, measured, or stops
with the cause in BOOT_ERR. An owner binding record that verifies over an object for this device replaces the owner and
raises BIND_SEQ; one for another device has no effect; one that does not verify counts as a failure and binds nothing.
An attestation whose report the party may write completes and counts. By the debug port or firmware, a challenge is
issued and expires after CHAL_S; a type 6 record that verifies against the challenge in force opens a bound device to
its owner, and one that does not leaves it closed; closing ends every halt; a type 7 token enters Vendor-return and
begins the erase, or leaves it, if it verifies. In Owner-open a debugger halts and resumes a Sapwood party of a
partition in scope, and a half with an engine newly halted is unfit. -/
def Obligations.SecurityCores : Prop :=
  (∀ (i : Initiator) (h k : Half) (n : Fin 4) (v : Word) (s : State),
    i.via = .secCore → s.chip.down.get h = false → s.chip.down.get k = false →
    ∃ t, exec (.secClaim i h n v) s = .next (s.withChip t) ∧ t.q (F.SEC_CLAIM_CLAIM k.idx n) = (if n = 3 then v.toNat % 2 ^ 30 else v.toNat)) ∧
  (∀ (h : Half) (rail : Fin 11) (a : Fin 8) (g : Nat) (s : State),
    let c := s.chip
    rail.val ∈ [1, 2, 4, 5] →
    ∃ t, exec (.forcedErase h rail) s = .next (s.withChip t) ∧ (t.secOf h).memKeys = false ∧ (t.secOf h).sealFor = none ∧ (t.secOf h).erased = some rail.val ∧
      t.down.get h = true ∧ (c.down.get h.other = false → t.secOf h.other = c.secOf h.other) ∧ (g ∈ c.heartwood h → (Tbl.find? t.garbled (granuleAddr g / 65536)).isSome = true) ∧
      (arrayHalf a = h → c.claimed h a = true → t.arr a = ArrSt.zero)) ∧
  (∀ (h : Half) (r : RomRead) (s : State),
    let c := s.chip
    c.down.get h = false → (c.secOf h).booted = false → c.q (F.SEC_STATUS_BOOT_ERR h.idx) = 0 →
    ∃ t, exec (.romStart h r) s = .next (s.withChip t) ∧
      (r.idOk = false → t.q (F.SEC_STATUS_BOOT_ERR h.idx) = 2 ∧ (t.secOf h).booted = false) ∧
      (r.idOk = true → t.on (F.SEC_ID_ID_OK h.idx) = true ∧
        (if sha384 r.root ≠ Config.romRoot h.idx then t.q (F.SEC_STATUS_BOOT_ERR h.idx) = 1
        else if r.rpmbOk = false then t.q (F.SEC_STATUS_BOOT_ERR h.idx) = 4
        else if (t.secOf h).booted = true then t.q (F.SEC_STATUS_BOOT_ERR h.idx) = 0 ∧ (t.secOf h).memKeys = true ∧
          ∃ x, (t.secOf h).measures = [⟨0, h.idx, 0, 0, Config.romDigest h.idx⟩, x] ∧ x.typ = 1 ∧
            ∃ f ∈ [r.a, r.b], ∃ y o, readSig 1 f.sig = some y ∧ f.obj = some o ∧ y.digest = sha384 o ∧ x.digest = y.digest ∧ x.version = y.version
        else t.q (F.SEC_STATUS_BOOT_ERR h.idx) = 3 ∧ (t.startOf h).recovery = true))) ∧
  (∀ (h : Half) (record object : List Byte) (s : State),
    let c := s.chip
    let verified : Prop := ∃ x, readSig 5 record = some x ∧ c.sigFault h x (sha384 object) [] = none
    let ours : Prop := object.length = 64 ∧ object.take 16 = deviceId
    (c.secOf h).booted = true → c.down.get h = false →
    ∃ t, exec (.ownerBinding h record object) s = .next (s.withChip t) ∧
      (verified → ours → t.bind.owner = object.drop 16 ∧ t.bind.bindSeq = (c.bind.bindSeq + 1) % 2 ^ 32 ∧ t.bind.ctrs = c.bind.ctrs ∧
        (t.secOf h).sealFor = some t.bind.bindSeq) ∧
      (verified → ¬ ours → t = c) ∧
      (¬ verified → t.bind = c.bind ∧ t.q (F.SEC_SIG_FAIL_COUNT h.idx) = (c.inc (F.SEC_SIG_FAIL_COUNT h.idx)).q (F.SEC_SIG_FAIL_COUNT h.idx))) ∧
  (∀ (id : CmdId) (m : Cmd) (s : State),
    let c := s.chip
    let h := ringHalf m.id.ring.val
    c.takeable id (· == 0x90) = some m → c.on (F.SEC_ID_ID_OK h.idx) = true →
    c.reachCause m.half m.owner true (alignDown (m.fld 1 0 48) 64) (272 + 64 * min 32 (c.measureList m.owner).length) .answered = none →
    ∃ t, exec (.attestationRequest id) s = .next (s.withChip t) ∧ t.cmd? m.id = none ∧
      t.q (F.SEC_ATTEST_CNT_COUNT h.idx) = (c.inc (F.SEC_ATTEST_CNT_COUNT h.idx)).q (F.SEC_ATTEST_CNT_COUNT h.idx)) ∧
  (∀ (i : Initiator) (h : Half) (s : State),
    let c := s.chip
    let fresh (b : Nat) : Prop := elapsed (c.stamp h 0) b < ((c.q (F.SEC_CTL_CHAL_S h.idx) * 64000000000 : Nat) : Int)
    let st (c : Chip) := c.q (F.SEC_STATUS_DEBUG h.idx)
    let verified (typ : Nat) (x : Sig) : Prop := readSig typ (c.mboxRecord h) = some x ∧ c.sigFault h x (c.challengeDigest h) [] = none
    i.via = .debugPort ∨ i.isFirmware = true → c.down.get h = false →
    (∃ t, exec (.challenge i h) s = .next (s.withChip t) ∧ (t.secOf h).chal = some (c.stamp h 0) ∧ t.q (F.SEC_DBG_RESULT_RESULT h.idx) = 0 ∧ st t = st c) ∧
    (∀ b, (c.secOf h).chal = some b → ¬ fresh b → exec (.challengeExpiry h) s = .next (s.withChip (c.setSec h { c.secOf h with chal := none }))) ∧
    (∀ b, st c = 0 → c.bound = true → (c.secOf h).chal = some b → fresh b →
      ∃ t, exec (.debugOpen i h) s = .next (s.withChip t) ∧ (t.secOf h).chal = none ∧
        (∀ x, verified 6 x → st t = 1 ∧ t.q (F.SEC_DBG_SCOPE_SCOPE h.idx) = x.arg % 65536 / 2 * 2 ∧ t.q (F.SEC_DBG_RESULT_RESULT h.idx) = 0) ∧
        ((∀ x, ¬ verified 6 x) → st t = 0 ∧ t.q (F.SEC_DBG_RESULT_RESULT h.idx) = 0x46)) ∧
    (st c = 1 → ∃ t, exec (.debugClose i h) s = .next (s.withChip t) ∧ st t = 0 ∧ t.halted = [] ∧ t.q (F.SEC_DBG_RESULT_RESULT h.idx) = 0) ∧
    (∀ b, (c.secOf h).chal = some b → fresh b →
      ∃ t, exec (.token i h) s = .next (s.withChip t) ∧ (t.secOf h).chal = none ∧
        (∀ x, verified 7 x → x.arg = 1 → st c ≠ 2 → st t = 2 ∧ t.erasing = true ∧ t.bind.vendor = true ∧ t.bind.owner = List.replicate 48 0) ∧
        (∀ x, verified 7 x → x.arg = 2 → st c = 2 → st t = 0 ∧ t.bind.vendor = false ∧ t.bind.owner = List.replicate 48 0) ∧
        ((∀ x, ¬ verified 7 x) → st t = st c ∧ t.bind = c.bind ∧ t.q (F.SEC_DBG_RESULT_RESULT h.idx) = 0x46))) ∧
  (∀ (d : DebugTarget) (halt : Bool) (o : Owner) (s : State),
    let c := s.chip
    c.targetOwner d = some o → c.q (F.SEC_STATUS_DEBUG 0) = 1 ∨ c.q (F.SEC_STATUS_DEBUG 1) = 1 → o.world = false → o.part ≠ 0 →
    bit (max (c.q (F.SEC_DBG_SCOPE_SCOPE 0)) (c.q (F.SEC_DBG_SCOPE_SCOPE 1))) o.part = true →
    ∃ t, exec (.debuggerHalt d halt) s = .next (s.withChip t) ∧ t.halted = (if halt then d :: c.halted.filter (· != d) else c.halted.filter (· != d)) ∧
      t.apps = c.apps ∧ t.cores = c.cores ∧
      (halt = true → c.debugBad (targetHalf c d) = false → c.down.get (targetHalf c d) = false → bit (t.q (F.AUTH_STATUS_UNFIT (targetHalf c d).idx)) 3 = true))

/-- Of two accepted copies the later version is taken, A on a tie. Firmware's reading of the copies decides the half's
own image, one of the two, unless its peer is in service. When the halves agree, an image that one half alone holds, or
that of the later version, is the one in force; with none the half enters the provisioning state. Applying it begins the
zeroing of the half's DRAM; a granule zeroed in its turn reads zero and takes its entry of the image. A recovery image
that verifies and is not too old starts firmware, and any other leaves the half in recovery. A reset by register with
the key 0xA5, a reset ball and the end of the Vendor-return erase take halves DOWN, a device reset leaving no command;
another key does nothing. A half that is DOWN and not held by its temperature leaves reset with its strap sampled. -/
def Obligations.StartAndResets : Prop :=
  (∀ (a b f : FlashCopy) (n : Nat), chooseCopy a b none none = some (f, n) →
    sigVersion a.sig ≤ sigVersion f.sig ∧ sigVersion b.sig ≤ sigVersion f.sig ∧ (sigVersion a.sig = sigVersion b.sig → f = a ∧ n = 0)) ∧
  (∀ (h : Half) (a b ra rb : FlashCopy) (s : State),
    let c := s.chip
    (c.secOf h).booted = true → c.down.get h = false → (c.startOf h).decided = false → (c.startOf h).own = none →
    ∃ t, exec (.imageAccept h a b ra rb) s = .next (s.withChip t) ∧ (t.startOf h).decided = true ∧ t.startOf h.other = c.startOf h.other ∧
      (c.inService h.other = true → (t.startOf h).own = none) ∧
      (∀ g, (t.startOf h).own = some g → (g.sig = a.sig ∧ a.obj = some g.obj ∧ g.copy = 0) ∨ (g.sig = b.sig ∧ b.obj = some g.obj ∧ g.copy = 1))) ∧
  (∀ (h : Half) (g k : Img) (s : State),
    let c := s.chip
    let x := c.startOf h
    let y := c.startOf h.other
    x.decided = true → c.down.get h = false → x.chosen = none → c.q (F.SYS_START_PHASE h.idx) ≠ 15 → c.inService h.other = false →
    ∃ t, exec (.imageAgreement h) s = .next (s.withChip t) ∧
      (x.own = none → y.own = none → t.q (F.SYS_START_PHASE h.idx) = 15 ∧ (t.startOf h).chosen = none) ∧
      (x.own = some g → y.own = none → (t.startOf h).chosen = some g) ∧
      (x.own = some g → y.own = some k → sigVersion k.sig < sigVersion g.sig → (t.startOf h).chosen = some g)) ∧
  (∀ (h : Half) (g : Img) (s : State),
    let c := s.chip
    (c.startOf h).chosen = some g → (c.startOf h).applied = false → c.down.get h = false →
    ∃ t, exec (.imageApply h) s = .next (s.withChip t) ∧ (t.startOf h).applied = true ∧ (t.startOf h).zeroing = true ∧ (t.startOf h).zeroed = [] ∧
      6 ≤ t.q (F.SYS_START_PHASE h.idx)) ∧
  (∀ (n : Fin 1048576) (s : State),
    let c := s.chip
    let x := c.startOf (granuleHalf n)
    x.zeroing = true → c.down.get (granuleHalf n) = false → Tbl.find? x.zeroed n = none → x.zeroed.length < 524287 → c.zeroWaits n = false → c.startInst = [] → c.startRings = [] →
    ∃ t, exec (.startZeroingComplete n) s = .next (s.withChip t) ∧ Tbl.find? (t.startOf (granuleHalf n)).zeroed n = some true ∧
      (∀ k < 65536, t.byte (granuleAddr n + k) = 0) ∧ (∀ e, Tbl.find? c.startOwn n = some e → t.ownAt n = e % 2 ^ 32) ∧
      (∀ j, j ≠ n.val → t.ownAt j = c.ownAt j)) ∧
  (∀ (h : Half) (record object : List Byte) (s : State),
    let c := s.chip
    let good : Prop := ∃ x, readSig 1 record = some x ∧ c.sigFault h x (sha384 object) [] = none ∧ c.ctrOf 0 ≤ x.version
    (c.startOf h).recovery = true → c.down.get h = false → (c.secOf h).booted = false →
    ∃ t, exec (.romRecovery h record object) s = .next (s.withChip t) ∧
      (good → (t.secOf h).booted = true ∧ (t.secOf h).memKeys = true ∧ (t.startOf h).recovery = false) ∧
      (¬ good → (t.secOf h).booted = false ∧ (t.startOf h).recovery = true)) ∧
  (∀ (i : Initiator) (key : Byte) (h : Half) (s : State),
    let c := s.chip
    c.portCause i true Reg.SYS_RESET = 0 →
    (key ≠ 0xA5 → exec (.sysResetDevice i key) s = .next s ∧ exec (.sysResetHalf i key h) s = .next s) ∧
    (key = 0xA5 →
      (∃ t, exec (.sysResetDevice i key) s = .next (s.withChip t) ∧ t.down = ⟨true, true⟩ ∧ (c.down ≠ ⟨true, true⟩ → t.cmds = [] ∧ t.waits = [] ∧ t.time = Chip.reset.time)) ∧
      (∃ t, exec (.sysResetHalf i key h) s = .next (s.withChip t) ∧ t.down.get h = true ∧ t.down.get h.other = c.down.get h.other))) ∧
  (∀ (h : Half) (strap : Bool) (s : State),
    let c := s.chip
    (c.down.get h = false → ∃ t, exec (.resetAssert h) s = .next (s.withChip t) ∧ t.down.get h = true ∧ t.down.get h.other = c.down.get h.other ∧
      (t.secOf h).booted = false ∧ t.startOf h = StartSt.zero ∧ t.timeOf h = TimeSt.zero) ∧
    (c.down.get h = true → (c.power.get h).critical = false →
      ∃ t, exec (.powerGood h strap) s = .next (s.withChip t) ∧ exec (.resetRelease h strap) s = .next (s.withChip t) ∧ t.down.get h = false ∧
        t.down.get h.other = c.down.get h.other ∧ t.on (F.AUTH_ID_ARB_EN h.idx) = strap)) ∧
  (∀ s : State, s.chip.erasing = true → s.chip.down ≠ ⟨true, true⟩ →
    ∃ t, exec .vendorReturnEraseEnd s = .next (s.withChip t) ∧ t.erasing = false ∧ t.down = ⟨true, true⟩ ∧ (t.secOf .H).memKeys = false ∧ (t.secOf .T).memKeys = false)

/-- A failed flit is replayed and counted; more than eight replays in succession retrain the link. A link that trains
without a clash of numbers is up, and its far end found; with a clash it is in conflict. A failed lane is marked and the
width of an up link follows. A quiet link enters LOW. A packet for another device leaves by a route, or is dropped the
fourth time. A request of a mapped device is answered under its owner, and one of an unmapped device refused. A device
without a link for 1 ms is lost. An access through a peer or PCIe window without an answer in its time ends and is
counted. A PCIe link comes up within the port's limits, and goes down. An inbound request to a root port's memory, to
BAR0 of the physical function and to a BAR of a virtual function acts under its owner; an offset in no BAR is
unsupported. -/
def Obligations.LinksAndPorts : Prop :=
  (∀ (h : Half) (l : Fin 8) (first : Bool) (s : State),
    let c := s.chip
    let k := 8 * h.idx + l.val
    let n := if first then 1 else (c.linkSt k).replays + 1
    c.linkUp k = true → c.down.get h = false →
    (n ≤ 8 → exec (.flitReplay h l first) s = .next (s.withChip ((c.inc (F.PEER_LINK_REPLAY_COUNT h.idx l)).setLinkSt k { c.linkSt k with replays := n }))) ∧
    (8 < n → ∃ t, exec (.flitReplay h l first) s = .next (s.withChip t) ∧ t.q (F.PEER_LINK_STATUS_STATE h.idx l) = 1 ∧ (t.linkSt k).replays = 0)) ∧
  (∀ (h : Half) (l : Fin 8) (far : Fin 64) (dev : BitVec 128) (inc : Word) (s : State),
    let c := s.chip
    let k := 8 * h.idx + l.val
    c.down.get h = false → bit (c.q (F.PEER_CTL_LINK_EN h.idx)) l = true → c.linkUp k = false → c.lanesFailed h l ≤ 3 →
    ∃ t, exec (.linkTraining h l far dev inc) s = .next (s.withChip t) ∧ t.q (F.PEER_LINK_STATUS_FAR_NO h.idx l) = far ∧
      (c.numberClash k far dev.toNat = true → t.q (F.PEER_LINK_STATUS_STATE h.idx l) = 4) ∧
      (c.numberClash k far dev.toNat = false → t.q (F.PEER_LINK_STATUS_STATE h.idx l) = 2 ∧ Tbl.find? t.farDevs far = some (dev.toNat, inc.toNat) ∧
        t.on (F.PEER_DEV_FOUND h.idx far) = true ∧ t.on (F.PEER_DEV_LOST h.idx far) = false)) ∧
  (∀ (h : Half) (l : Fin 8) (lane : Fin 5) (s : State),
    let c := s.chip
    let f := F.PEER_LINK_STATUS_LANE_FAIL h.idx l
    c.down.get h = false → bit (c.q f) lane = false →
    ∃ t, exec (.laneFailure h l lane) s = .next (s.withChip t) ∧ t.q f = c.q f + 2 ^ lane.val ∧
      (c.linkUp (8 * h.idx + l) = true → c.lanesFailed h l ≤ 1 → t.q (F.PEER_LINK_STATUS_WIDTH h.idx l) = 2 - c.lanesFailed h l)) ∧
  (∀ (h : Half) (l : Fin 8) (s : State),
    let c := s.chip
    c.down.get h = false → c.q (F.PEER_LINK_STATUS_STATE h.idx l) = 2 →
    c.q (F.POWER_STATUS_STATE h.idx) = 1 ∨ (c.q (F.PEER_CTL_IDLE_10US h.idx) ≠ 0 ∧
      10 * c.q (F.PEER_CTL_IDLE_10US h.idx) ≤ ageUs (c.stamp h 0) (c.linkSt (8 * h.idx + l)).lastFlit) →
    exec (.linkIdle h l) s = .next (s.withChip (c.put (F.PEER_LINK_STATUS_STATE h.idx l) 3))) ∧
  (∀ (h : Half) (src dst : Fin 64) (hops : Fin 4) (addr : BitVec 48) (l : Nat) (s : State),
    let c := s.chip
    c.down.get h = false → dst.val ≠ c.q (F.PEER_CTL_FABRIC_NO h.idx) →
    (hops = 3 → exec (.packetForward h src dst hops addr) s = .next (s.withChip (c.ev h 0x0F18 [src, dst]))) ∧
    (hops ≠ 3 → c.routeOf h (0x4000000000 + dst.val * 2 ^ 37 + addr.toNat % 2 ^ 37) = some l →
      exec (.packetForward h src dst hops addr) s = .next (s.withChip (c.flitOut l)))) ∧
  (∀ (h : Half) (src : Fin 64) (write : Bool) (addr : BitVec 37) (len : Fin 257) (data d : List Byte) (see : Seen) (t : Chip) (s : State),
    let c := s.chip
    let i (o : Owner) : Initiator := ⟨o, 0x300 + h.idx, h, .peer⟩
    let o : Owner := BitVec.ofNat 13 (c.q (F.PEER_MAP_OWNER h.idx src))
    c.down.get h = false →
    (c.on (F.PEER_MAP_VALID h.idx src) = true → c.outAccess (i o) true write addr.toNat len data see = (.ok d, t) →
      exec (.peerRequest h src write addr len data see) s = .next (s.withChip (t.answerOut (i o) addr.toNat d false))) ∧
    (c.on (F.PEER_MAP_VALID h.idx src) = false → exec (.peerRequest h src write addr len data see) s =
      .next (s.withChip (((c.inc (F.PEER_REFUSED_CNT_COUNT h.idx)).evOf h 0x0F10 0 [src, addr.toNat, 0]).answerOut (i 0) addr.toNat [] true)))) ∧
  (∀ (n : Fin 64) (s : State),
    let c := s.chip
    let h := c.firstUp
    c.noLink n = true → c.on (F.PEER_DEV_LOST h.idx n) = false → n.val ≠ c.q (F.PEER_CTL_FABRIC_NO h.idx) → c.down.get h = false →
    1000 ≤ ageUs c.now (Tbl.look 0 c.linkless n) →
    ∃ t, exec (.deviceLost n) s = .next (s.withChip t) ∧ t.on (F.PEER_DEV_LOST h.idx n) = true ∧
      t.q (F.PEER_LOST_CNT_COUNT h.idx) = (c.inc (F.PEER_LOST_CNT_COUNT h.idx)).q (F.PEER_LOST_CNT_COUNT h.idx)) ∧
  (∀ (k : Nat) (h : Half) (o : Owner) (a : Nat) (rd : Bool) (sent : Nat) (s : State),
    let c := s.chip
    c.farWait (.txn k) = some (h, o, a, rd, sent) → c.down.get h = false → k < c.txnNext →
    (isPeer a = true → c.q (F.PEER_CTL_TIMEOUT_US h.idx) ≤ ageUs (c.stamp h 0) sent →
      ∃ t, exec (.peerAccessTimeout (.txn k)) s = .next (s.withChip t) ∧ Tbl.find? t.txns k = none ∧
        t.q (F.PEER_TIMEOUT_CNT_COUNT h.idx) = (c.inc (F.PEER_TIMEOUT_CNT_COUNT h.idx)).q (F.PEER_TIMEOUT_CNT_COUNT h.idx)) ∧
    (isPcie a = true → c.q (F.PCIE_CTL_CPL_TO_US (pcieHalf a).idx) ≤ ageUs (c.stamp h 0) sent →
      ∃ t, exec (.pcieCompletionTimeout (.txn k)) s = .next (s.withChip t) ∧ Tbl.find? t.txns k = none ∧
        t.q (F.PCIE_CPL_TO_CNT_COUNT (pcieHalf a).idx) = (c.inc (F.PCIE_CPL_TO_CNT_COUNT (pcieHalf a).idx)).q (F.PCIE_CPL_TO_CNT_COUNT (pcieHalf a).idx))) ∧
  (∀ (p : Half) (speed width : Fin 4) (s : State),
    let c := s.chip
    c.down.get p = false →
    (speed ≤ c.q (F.PCIE_CTL_MAX_GEN p.idx) → width ≤ c.q (F.PCIE_CTL_MAX_WIDTH p.idx) →
      ∃ t, exec (.pcieLinkChange p true speed width) s = .next (s.withChip t) ∧ t.on (F.PCIE_STATUS_LINK_UP p.idx) = true ∧
        t.q (F.PCIE_STATUS_SPEED p.idx) = speed ∧ t.q (F.PCIE_STATUS_WIDTH p.idx) = width) ∧
    (c.on (F.PCIE_STATUS_LINK_UP p.idx) = true →
      ∃ t, exec (.pcieLinkChange p false speed width) s = .next (s.withChip t) ∧ t.on (F.PCIE_STATUS_LINK_UP p.idx) = false)) ∧
  (∀ (p : Half) (r : PciReq) (off : Nat) (see : Seen) (s : State),
    let c := s.chip
    let own : Owner := BitVec.ofNat 13 (c.q (F.PCIE_OWNER_OWNER p.idx))
    let i (o : Owner) : Initiator := ⟨o, 0x400 + p.idx, p, .pcie⟩
    let endpoint := c.on (F.PCIE_CTL_MODE p.idx) || c.q (F.SYS_START_PHASE p.idx) == 15
    c.down.get p = false → (c.startOf p).recovery = false → c.on (F.PCIE_STATUS_LINK_UP p.idx) = true →
    (∀ a : BitVec 64, endpoint = false → r.target = .bus a → inDram a.toNat = true → a.toNat + r.len ≤ 0x2000000000 →
      exec (.pcieInboundRequest p r see) s = .next (s.withChip (c.inbound p r (i own) false a.toNat see))) ∧
    (∀ o : BitVec 43, endpoint = true → r.target = .bar 0 o → r.vf = 0 → r.pasid = none → o.toNat = off →
      (off < 0x40000000 → exec (.pcieInboundRequest p r see) s = .next (s.withChip (c.inbound p r (i own) true off see))) ∧
      (0x40000000 ≤ off → exec (.pcieInboundRequest p r see) s = .next (s.withChip (c.unsupported p r (i own) off)))) ∧
    (∀ (o : BitVec 43) (bar : Fin 6) (n a : Nat), endpoint = true → r.target = .bar bar o → r.vf ≠ 0 → o.toNat = off →
      c.vfRecord p r.vf.toNat = some n → c.viState n ≠ 0 → bar ≠ 4 → vfAddr (c.viGrant n) (c.on F.VI_CTL_MODE) bar off = some a →
      exec (.pcieInboundRequest p r see) s = .next (s.withChip (Chip.inbound { c with vfRuns := c.vfRuns.erase (256 * p.idx + r.vf.toNat) } p r (i (c.viOwner n)) true a see))))

/-- A request for RUN, for LOW while nothing is claimed, or for RETAIN out of CHARGE puts the half in that state; RETAIN
in CHARGE and a reserved target are refused. A unit that is free, unclaimed and without a resident context takes the
state asked for. A power evaluation shows the power and its peak, and goes to the lowest array clock when no step fits.
The limiter takes the arrays to step 3 and counts, and releases one step at a time. A reading of the sensors is shown,
and one of 125 °C at a die sensor takes the half DOWN. A full bank of the ledger is compacted into the other bank; a
start reads the ledger once and counts the first start; an hour of operation is counted and opens a new hour of store
errors; a half DOWN for over a second raises the service level to urgent. -/
def Obligations.PowerAndWear : Prop :=
  (∀ (i : Initiator) (h : Half) (s : State),
    let c := s.chip
    let st (c : Chip) := c.q (F.POWER_STATUS_STATE h.idx)
    let res (c : Chip) := c.q (F.POWER_STATUS_RESULT h.idx)
    c.portCause i true (Reg.POWER_STATE_REQ h.idx) = 0 → c.down.get h = false →
    (∃ t, exec (.powerStateReq i h 0) s = .next (s.withChip t) ∧ st t = 0 ∧ res t = 0) ∧
    (i.via = .secCore ∨ c.clocksClaimed h = none → ∃ t, exec (.powerStateReq i h 1) s = .next (s.withChip t) ∧ st t = 1 ∧ res t = 0) ∧
    (c.inCharge h = false → ∃ t, exec (.powerStateReq i h 2) s = .next (s.withChip t) ∧ st t = 2 ∧ res t = 0) ∧
    (c.inCharge h = true → ∃ t, exec (.powerStateReq i h 2) s = .next (s.withChip t) ∧ st t = st c ∧ res t = 0x41) ∧
    (∃ t, exec (.powerStateReq i h 3) s = .next (s.withChip t) ∧ st t = st c ∧ res t = 0x40)) ∧
  (∀ (i : Initiator) (h : Half) (b : Fin 128) (parked : Bool) (s : State),
    let c := s.chip
    let done (t : Chip) (st : Nat) : Prop := t.unitState b = st ∧ t.q (F.POWER_BLK_RESULT_UNIT h.idx) = b ∧ t.q (F.POWER_BLK_RESULT_RESULT h.idx) = 0
    c.portCause i true (Reg.POWER_BLK_REQ h.idx) = 0 → c.down.get h = false → c.on (F.POWER_BLK_RESULT_BUSY h.idx) = false → b < 126 → claimHalf b = h →
    (∃ t, exec (.blockActive i h b) s = .next (s.withChip t) ∧ done t 0) ∧
    (c.claimed h b = false → c.unitBusy b parked = false → c.gateEngine b = none →
      (∃ t, exec (.clockGated i h b parked) s = .next (s.withChip t) ∧ done t 1) ∧ (∃ t, exec (.powerGated i h b parked) s = .next (s.withChip t) ∧ done t 2))) ∧
  (∀ (h : Half) (now arr : BitVec 16) (rails : List (BitVec 16 × BitVec 16)) (s : State),
    let c := s.chip
    let cur := c.q (F.POWER_STATUS_ARR_STEP h.idx)
    c.down.get h = false →
    ∃ t, exec (.powerEvaluation h now arr rails) s = .next (s.withChip t) ∧ t.q (F.POWER_NOW_DW h.idx) = now.toNat ∧
      t.q (F.POWER_PEAK_DW h.idx) = max (c.q (F.POWER_PEAK_DW h.idx)) now.toNat ∧
      ((∀ k < 6, predictFits now.toNat arr.toNat cur k (min 1150 (c.q (F.POWER_CAP_DW h.idx))) = false) → (c.powerOf h).arr < 5 →
        (t.powerOf h).arr = 5 ∧ 5 ≤ t.arrayStep h)) ∧
  (∀ (h : Half) (current : BitVec 16) (s : State),
    let c := s.chip
    let x := c.powerOf h
    c.down.get h = false →
    (x.lim = 0 → ∃ t, exec (.fastCurrentLimiter h current) s = .next (s.withChip t) ∧ (t.powerOf h).lim = 3 ∧ 3 ≤ t.arrayStep h ∧
      t.q (F.POWER_LIMIT_CNT_COUNT h.idx) = (c.inc (F.POWER_LIMIT_CNT_COUNT h.idx)).q (F.POWER_LIMIT_CNT_COUNT h.idx)) ∧
    (0 < x.lim → ∃ t, exec (.limiterRelease h) s = .next (s.withChip t) ∧
      (t.powerOf h).lim = (if x.lim - 1 ≤ x.arr then 0 else x.lim - 1) ∧ t.throttled h 0 = decide (0 < (t.powerOf h).lim) ∧ t.own = c.own)) ∧
  (∀ (h : Half) (temps : List (BitVec 16)) (k : Nat) (v : BitVec 16) (s : State),
    s.chip.down.get h = false → 18 ≤ temps.length →
    ∃ t, exec (.temperatureRead h temps) s = .next (s.withChip t) ∧
      ((∀ v ∈ temps.take 14, v.toInt < 2000) → t.down = s.chip.down ∧ (temps[k]? = some v → k < 18 → t.q (F.POWER_TEMP_TEMP h.idx k) = v.toNat)) ∧
      ((∃ v ∈ temps.take 14, 2000 ≤ v.toInt) → t.down.get h = true ∧ (t.powerOf h).critical = true)) ∧
  (∀ (h : Half) (s : State),
    let c := s.chip
    let f := c.flash.get h
    c.down.get h = false → 3584 ≤ f.recs.length →
    ∃ t, exec (.bankCompaction h false) s = .next (s.withChip t) ∧ (t.flash.get h).bank = 1 - f.bank ∧ (t.flash.get h).bankSeq = f.bankSeq + 1 ∧
      (t.flash.get h).snap = f.present ∧ (t.flash.get h).valid = true) ∧
  (∀ (h : Half) (own peer : BankRead) (s : State),
    let c := s.chip
    c.down.get h = false → c.ledgerRead.get h = false →
    ∃ t, exec (.ledgerLoad h own peer) s = .next (s.withChip t) ∧ t.ledgerRead.get h = true ∧ t.ledgerRead.get h.other = c.ledgerRead.get h.other ∧
      (t.powerOf h).report = none ∧ (c.ledgerRead.get h.other = false → own = .unreadable → peer = .unreadable → t.on F.WEAR_STATUS_FRESH = true ∧ t.reg Reg.WEAR_STARTS = 1)) ∧
  (∀ (fails : List Half) (s : State),
    let c := s.chip
    hourUnits ≤ c.opTime → c.upHalves ≠ [] →
    ∃ t, exec (.hourMark fails) s = .next (s.withChip t) ∧ t.opTime = c.opTime - hourUnits ∧ t.storeErrs = [] ∧
      t.reg Reg.WEAR_HOURS = min (c.reg Reg.WEAR_HOURS + 1) (2 ^ 32 - 1)) ∧
  (∀ (h : Half) (b : Nat) (s : State),
    let c := s.chip
    c.downSince.get h = some b → c.down.get h = true → c.down.get h.other = false → ((1000000 * usUnits : Nat) : Int) < elapsed (c.stamp h.other 0) b →
    ∃ t, exec (.urgentHalfDown h) s = .next (s.withChip t) ∧ t.q F.WEAR_STATUS_LEVEL = 3 ∧ bit (t.q F.WEAR_STATUS_CAUSE) 8 = true)

end
end

