-- ==== Sys2Proof/Laws/Tbl.lean ====
section
/-! SUPPORT. Sparse tables: a read after a write, at the key written and at every other, and the canonical form. -/

namespace Sys2Proof

variable {α : Type}

@[simp] theorem Tbl.find?_ins_same (t : Tbl α) (k : Nat) (v : α) : Tbl.find? (Tbl.ins t k v) k = some v := by
  induction t with
  | nil => simp [Tbl.ins, Tbl.find?]
  | cons e t ih =>
    obtain ⟨k', v'⟩ := e
    unfold Tbl.ins
    split
    · simp [Tbl.find?]
    · split
      · simp [Tbl.find?]
      · rename_i h _
        simp [Tbl.find?, h, ih]

theorem Tbl.find?_ins_ne (t : Tbl α) {j k : Nat} (v : α) (h : j ≠ k) : Tbl.find? (Tbl.ins t k v) j = Tbl.find? t j := by
  induction t with
  | nil => simp [Tbl.ins, Tbl.find?, h.symm]
  | cons e t ih =>
    obtain ⟨k', v'⟩ := e
    unfold Tbl.ins
    split
    · rename_i e
      subst e
      simp [Tbl.find?, h.symm]
    · split
      · simp [Tbl.find?, h.symm]
      · simp only [Tbl.find?, ih]

/-- A filter that keeps a key keeps what the table lists there. -/
theorem Tbl.find?_filter (t : Tbl α) (p : Nat → Bool) (k : Nat) (h : p k = true) :
    Tbl.find? (t.filter fun e => p e.1) k = Tbl.find? t k := by
  induction t with
  | nil => rfl
  | cons e t ih =>
    obtain ⟨k', v'⟩ := e
    by_cases hk : k' = k
    · subst hk
      simp [List.filter, h, Tbl.find?]
    · by_cases hp : p k' = true
      · simp [List.filter, hp, Tbl.find?, hk, ih]
      · simp [List.filter, hp, Tbl.find?, hk, ih]

/-- A filter that drops a key lists nothing there. -/
theorem Tbl.find?_filter_none (t : Tbl α) (p : Nat → Bool) (k : Nat) (h : p k = false) :
    Tbl.find? (t.filter fun e => p e.1) k = none := by
  induction t with
  | nil => rfl
  | cons e t ih =>
    obtain ⟨k', v'⟩ := e
    by_cases hp : p k' = true
    · have hk : k' ≠ k := by rintro rfl; simp [h] at hp
      simp [List.filter, hp, Tbl.find?, hk, ih]
    · simp [List.filter, hp, ih]

@[simp] theorem Tbl.find?_del_same (t : Tbl α) (k : Nat) : Tbl.find? (Tbl.del t k) k = none :=
  Tbl.find?_filter_none t (fun j => j != k) k (by simp)

theorem Tbl.find?_del_ne (t : Tbl α) {j k : Nat} (h : j ≠ k) : Tbl.find? (Tbl.del t k) j = Tbl.find? t j :=
  Tbl.find?_filter t (fun i => i != k) j (by simpa using h)

section
variable [DecidableEq α]

@[simp] theorem Tbl.look_put_same (d : α) (t : Tbl α) (k : Nat) (v : α) : Tbl.look d (Tbl.put d t k v) k = v := by
  unfold Tbl.put Tbl.look
  split
  · simp_all
  · simp

theorem Tbl.find?_put_ne (d : α) (t : Tbl α) {j k : Nat} (v : α) (h : j ≠ k) : Tbl.find? (Tbl.put d t k v) j = Tbl.find? t j := by
  unfold Tbl.put
  split
  · exact Tbl.find?_del_ne t h
  · exact Tbl.find?_ins_ne t v h

theorem Tbl.look_put_ne (d e : α) (t : Tbl α) {j k : Nat} (v : α) (h : j ≠ k) : Tbl.look d (Tbl.put e t k v) j = Tbl.look d t j := by
  simp [Tbl.look, Tbl.find?_put_ne e t v h]

theorem Tbl.look_put (d e : α) (t : Tbl α) (j k : Nat) (v : α) (hd : j = k → d = e) :
    Tbl.look d (Tbl.put e t k v) j = if j = k then v else Tbl.look d t j := by
  split
  · rename_i h
    subst h
    rw [hd rfl, Tbl.look_put_same]
  · rename_i h
    exact Tbl.look_put_ne d e t v h

/-! ### The canonical form -/

omit [DecidableEq α] in
theorem Tbl.rising_mono {t : Tbl α} {a b : Nat} (h : a ≤ b) (w : Tbl.rising b t = true) : Tbl.rising a t = true := by
  cases t with
  | nil => rfl
  | cons e t =>
    obtain ⟨k, v⟩ := e
    simp only [Tbl.rising, Bool.and_eq_true, decide_eq_true_eq] at w ⊢
    exact ⟨by omega, w.2⟩

omit [DecidableEq α] in
theorem Tbl.rising_filter {t : Tbl α} (p : Nat × α → Bool) {b : Nat} (w : Tbl.rising b t = true) : Tbl.rising b (t.filter p) = true := by
  induction t generalizing b with
  | nil => rfl
  | cons e t ih =>
    obtain ⟨k, v⟩ := e
    simp only [Tbl.rising, Bool.and_eq_true, decide_eq_true_eq] at w
    have := ih w.2
    by_cases hp : p (k, v) = true
    · simp [List.filter, hp, Tbl.rising, w.1, this]
    · simp only [List.filter, hp]
      exact Tbl.rising_mono (by omega) this

omit [DecidableEq α] in
theorem Tbl.rising_ins {t : Tbl α} {b k : Nat} (v : α) (hk : b ≤ k) (w : Tbl.rising b t = true) : Tbl.rising b (Tbl.ins t k v) = true := by
  induction t generalizing b with
  | nil => simp [Tbl.ins, Tbl.rising, hk]
  | cons e t ih =>
    obtain ⟨k', v'⟩ := e
    simp only [Tbl.rising, Bool.and_eq_true, decide_eq_true_eq] at w
    unfold Tbl.ins
    split
    · rename_i h
      subst h
      simp [Tbl.rising, w.1, w.2]
    · split
      · rename_i h
        simp only [Tbl.rising, Bool.and_eq_true, decide_eq_true_eq]
        exact ⟨hk, by omega, w.2⟩
      · rename_i h1 h2
        simp only [Tbl.rising, Bool.and_eq_true, decide_eq_true_eq]
        exact ⟨w.1, ih (by omega) w.2⟩

omit [DecidableEq α] in
theorem Tbl.mem_ins {t : Tbl α} {k : Nat} {v : α} {e : Nat × α} (h : e ∈ Tbl.ins t k v) : e = (k, v) ∨ e ∈ t := by
  induction t with
  | nil => simpa [Tbl.ins] using h
  | cons x t ih =>
    obtain ⟨k', v'⟩ := x
    unfold Tbl.ins at h
    split at h
    · rcases List.mem_cons.1 h with h | h
      · exact .inl h
      · exact .inr (List.mem_cons_of_mem _ h)
    · split at h
      · rcases List.mem_cons.1 h with h | h
        · exact .inl h
        · exact .inr h
      · rcases List.mem_cons.1 h with h | h
        · exact .inr (by simp [h])
        · exact (ih h).imp_right (List.mem_cons_of_mem _)

/-- A write keeps the canonical form. -/
theorem Tbl.wf_put {d : Nat → α} {t : Tbl α} (k : Nat) (v : α) (w : Tbl.wf d t = true) : Tbl.wf d (Tbl.put (d k) t k v) = true := by
  simp only [Tbl.wf, Bool.and_eq_true, List.all_eq_true] at w ⊢
  unfold Tbl.put
  split
  · exact ⟨Tbl.rising_filter _ w.1, fun e he => w.2 e (List.mem_of_mem_filter he)⟩
  · rename_i h
    refine ⟨Tbl.rising_ins v (Nat.zero_le k) w.1, fun e he => ?_⟩
    rcases Tbl.mem_ins he with rfl | he
    · simpa using h
    · exact w.2 e he

/-- A table that lists fewer entries, under defaults that agree on those that stay, is canonical too. -/
theorem Tbl.wf_filter {d e : Nat → α} {t : Tbl α} (p : Nat × α → Bool) (h : ∀ x ∈ t, p x = true → e x.1 = d x.1)
    (w : Tbl.wf d t = true) : Tbl.wf e (t.filter p) = true := by
  simp only [Tbl.wf, Bool.and_eq_true, List.all_eq_true] at w ⊢
  refine ⟨Tbl.rising_filter _ w.1, fun x hx => ?_⟩
  have hm := List.mem_filter.1 hx
  rw [h x hm.1 hm.2]
  exact w.2 x hm.1

end

end Sys2Proof
end

