-- ==== Sys2Proof/Laws/Memory.lean ====
section
/-! SUPPORT. Memory: a read after a write, at the byte written and at every other, and the canonical form, which every
operation over memory keeps. -/

namespace Sys2Proof.Machine

/-- An address of a byte that the block itself holds: neither a register page nor a window to the outside. -/
def holdsByte (a : Nat) : Bool := !inWindow a && decide (0x40000000 ≤ a)

/-! ### Reads after writes -/

theorem Chip.byte_setByte_same (c : Chip) (a : Nat) (v : Byte) (h : holdsByte a = true) : (c.setByte a v).byte a = v := by
  simp only [holdsByte, Bool.and_eq_true, Bool.not_eq_true', decide_eq_true_eq] at h
  have h2 : ¬ a < 0x40000000 := by omega
  simp [Chip.byte, Chip.setByte, h.1, h2]

theorem Chip.byte_setByte_ne (c : Chip) {a b : Nat} (v : Byte) (h : b ≠ a) : (c.setByte a v).byte b = c.byte b := by
  unfold Chip.setByte
  split
  · rfl
  · unfold Chip.byte
    simp only [Tbl.look_put_ne _ _ _ _ h]

@[simp] theorem Chip.setByte_garbled (c : Chip) (a : Nat) (v : Byte) : (c.setByte a v).garbled = c.garbled := by
  unfold Chip.setByte
  split <;> rfl

@[simp] theorem Chip.storeRaw_garbled (c : Chip) (a : Nat) (bs : List Byte) : (c.storeRaw a bs).garbled = c.garbled := by
  induction bs generalizing c a with
  | nil => rfl
  | cons b bs ih => simp [Chip.storeRaw, ih]

/-- A byte outside the range written reads as before. -/
theorem Chip.byte_storeRaw_other (c : Chip) (a : Nat) (bs : List Byte) (x : Nat) (h : x < a ∨ a + bs.length ≤ x) :
    (c.storeRaw a bs).byte x = c.byte x := by
  induction bs generalizing c a with
  | nil => rfl
  | cons b bs ih =>
    simp only [List.length_cons] at h
    rw [Chip.storeRaw, ih _ _ (by omega), Chip.byte_setByte_ne _ _ (by omega)]

/-- A byte of the range written reads as what was written there. -/
theorem Chip.byte_storeRaw_inside (c : Chip) (a : Nat) (bs : List Byte) (k : Nat) (h : k < bs.length) (g : holdsByte (a + k) = true) :
    (c.storeRaw a bs).byte (a + k) = bs[k] := by
  induction bs generalizing c a k with
  | nil => simp at h
  | cons b bs ih =>
    rw [Chip.storeRaw]
    cases k with
    | zero =>
      rw [Chip.byte_storeRaw_other _ _ _ _ (by omega)]
      simpa using Chip.byte_setByte_same c a b (by simpa using g)
    | succ k =>
      have e : a + (k + 1) = a + 1 + k := by omega
      rw [e] at g ⊢
      simpa using ih (c.setByte a b) (a + 1) k (by simpa using h) g

/-! ### What a granted write leaves alone -/

/-- A fold keeps what each of its steps keeps. -/
theorem foldl_keeps {α β γ : Type} (f : α → γ) (g : α → β → α) (h : ∀ x y, f (g x y) = f x) (l : List β) (a : α) :
    f (l.foldl g a) = f a := by
  induction l generalizing a with
  | nil => rfl
  | cons y l ih => rw [List.foldl_cons, ih, h]

theorem Chip.setClean_keeps {γ : Type} (f : Chip → γ) (hf : ∀ c o, f { c with own := o } = f c) (c : Chip) (i : Nat) (v : Bool) :
    f (c.setClean i v) = f c := hf c _

@[simp] theorem Chip.setClean_mem (c : Chip) (i : Nat) (v : Bool) : (c.setClean i v).mem = c.mem := Chip.setClean_keeps Chip.mem (fun _ _ => rfl) c i v
@[simp] theorem Chip.setClean_garbled (c : Chip) (i : Nat) (v : Bool) : (c.setClean i v).garbled = c.garbled :=
  Chip.setClean_keeps Chip.garbled (fun _ _ => rfl) c i v

/-- Clearing `CLEAN` flags keeps everything but the ownership table and the fills. -/
theorem Chip.dirty_keeps {γ : Type} (f : Chip → γ) (hf : ∀ c o l, f { c with own := o, filling := l } = f c) (c : Chip) (a n : Nat) :
    f (c.dirty a n) = f c := by
  unfold Chip.dirty
  split
  · rfl
  · refine (foldl_keeps f _ (fun x _ => Chip.setClean_keeps f (fun d o => hf d o d.filling) x _ false) _ _).trans (hf c c.own _)

theorem Chip.breakResv_keeps {γ : Type} (f : Chip → γ) (hf : ∀ c k, f { c with cores := k } = f c) (c : Chip) (a n : Nat) :
    f (c.breakResv a n) = f c := by
  unfold Chip.breakResv
  split
  · exact hf c _
  · rfl

theorem Chip.storeRaw_keeps {γ : Type} (f : Chip → γ) (hf : ∀ c m, f { c with mem := m } = f c) (c : Chip) (a : Nat) (bs : List Byte) :
    f (c.storeRaw a bs) = f c := by
  induction bs generalizing c a with
  | nil => rfl
  | cons b bs ih =>
    rw [Chip.storeRaw, ih]
    unfold Chip.setByte
    split
    · rfl
    · exact hf c _

/-- A granted write changes memory, poison, the `CLEAN` flags of the ownership table, fills and reservations alone: any
part of the chip that none of these enters is kept. -/
theorem Chip.store_keeps {γ : Type} (f : Chip → γ) (hf : ∀ c m o l k p, f { c with mem := m, own := o, filling := l, cores := k, poison := p } = f c)
    (c : Chip) (a : Nat) (bs : List Byte) : f (c.store a bs) = f c := by
  unfold Chip.store
  dsimp only
  refine (hf (((c.storeRaw a bs).dirty a bs.length).breakResv a bs.length) _ _ _ _ _).trans ?_
  rw [Chip.breakResv_keeps f fun c k => hf c c.mem c.own c.filling k c.poison,
    Chip.dirty_keeps f fun c o l => hf c c.mem o l c.cores c.poison,
    Chip.storeRaw_keeps f fun c m => hf c m c.own c.filling c.cores c.poison]

@[simp] theorem Chip.store_regs (c : Chip) (a : Nat) (bs : List Byte) : (c.store a bs).regs = c.regs := Chip.store_keeps _ (fun _ _ _ _ _ _ => rfl) c a bs
@[simp] theorem Chip.store_cmds (c : Chip) (a : Nat) (bs : List Byte) : (c.store a bs).cmds = c.cmds := Chip.store_keeps _ (fun _ _ _ _ _ _ => rfl) c a bs
@[simp] theorem Chip.store_rings (c : Chip) (a : Nat) (bs : List Byte) : (c.store a bs).rings = c.rings := Chip.store_keeps _ (fun _ _ _ _ _ _ => rfl) c a bs
@[simp] theorem Chip.store_down (c : Chip) (a : Nat) (bs : List Byte) : (c.store a bs).down = c.down := Chip.store_keeps _ (fun _ _ _ _ _ _ => rfl) c a bs
@[simp] theorem Chip.store_tb (c : Chip) (a : Nat) (bs : List Byte) : (c.store a bs).tb = c.tb := Chip.store_keeps _ (fun _ _ _ _ _ _ => rfl) c a bs
@[simp] theorem Chip.store_garbled (c : Chip) (a : Nat) (bs : List Byte) : (c.store a bs).garbled = c.garbled := Chip.store_keeps _ (fun _ _ _ _ _ _ => rfl) c a bs
@[simp] theorem Chip.store_freeCnt (c : Chip) (a : Nat) (bs : List Byte) : (c.store a bs).freeCnt = c.freeCnt := Chip.store_keeps _ (fun _ _ _ _ _ _ => rfl) c a bs

@[simp] theorem Chip.store_mem (c : Chip) (a : Nat) (bs : List Byte) : (c.store a bs).mem = (c.storeRaw a bs).mem := by
  unfold Chip.store
  dsimp only
  rw [Chip.breakResv_keeps Chip.mem (fun _ _ => rfl), Chip.dirty_keeps Chip.mem (fun _ _ _ => rfl)]

theorem Chip.byte_of_mem {c c' : Chip} (m : c'.mem = c.mem) (g : c'.garbled = c.garbled) (f : c'.freeCnt = c.freeCnt) (a : Nat) :
    c'.byte a = c.byte a := by
  simp [Chip.byte, m, g, f]

/-- A granted write stores the bytes of its range and no other. -/
theorem Chip.byte_store (c : Chip) (a : Nat) (bs : List Byte) (x : Nat) : (c.store a bs).byte x = (c.storeRaw a bs).byte x :=
  Chip.byte_of_mem (by simp) (by simp) (by rw [Chip.store_freeCnt, Chip.storeRaw_keeps Chip.freeCnt (fun _ _ => rfl)]) x

/-! ### The canonical form -/

theorem reset_memWf : Chip.reset.memWf = true := rfl
theorem reset_regsWf : Chip.reset.regsWf = true := rfl
theorem reset_ownWf : Chip.reset.ownWf = true := rfl

theorem Chip.memWf_setByte (c : Chip) (a : Nat) (v : Byte) (w : c.memWf = true) : (c.setByte a v).memWf = true := by
  unfold Chip.setByte
  split
  · exact w
  · exact Tbl.wf_put (d := memReset c.garbled) a v w

theorem Chip.memWf_storeRaw (c : Chip) (a : Nat) (bs : List Byte) (w : c.memWf = true) : (c.storeRaw a bs).memWf = true := by
  induction bs generalizing c a with
  | nil => exact w
  | cons b bs ih => exact ih _ _ (c.memWf_setByte a b w)

theorem Chip.memWf_store (c : Chip) (a : Nat) (bs : List Byte) (w : c.memWf = true) : (c.store a bs).memWf = true := by
  simpa [Chip.memWf] using c.memWf_storeRaw a bs w

theorem Chip.memWf_zeroRange (c : Chip) (a n : Nat) (w : c.memWf = true) : (c.zeroRange a n).memWf = true := by
  unfold Chip.memWf Chip.zeroRange at *
  refine Tbl.wf_filter _ (fun x _ hx => ?_) w
  unfold memReset
  dsimp only
  rw [Tbl.find?_filter c.garbled (fun g => decide ¬ (a ≤ g * 65536 ∧ g * 65536 + 65536 ≤ a + n)) (x.1 / 65536)]
  have hx := of_decide_eq_true hx
  apply decide_eq_true
  intro h
  exact hx (by omega)

theorem Chip.memWf_zeroGranule (c : Chip) (n : Nat) (w : c.memWf = true) : (c.zeroGranule n).memWf = true := by
  simpa [Chip.memWf, Chip.zeroGranule] using c.memWf_zeroRange (granuleAddr n) 65536 w

/-- Granules whose keys are gone lose what was listed in them. -/
theorem garbled_other (l : List Nat) (v k : Nat) (g : Tbl Nat) (h : k ∉ l.map fun n => granuleAddr n / 65536) :
    Tbl.find? (l.foldl (fun g n => Tbl.ins g (granuleAddr n / 65536) v) g) k = Tbl.find? g k := by
  induction l generalizing g with
  | nil => rfl
  | cons n l ih =>
    simp only [List.map_cons, List.mem_cons, not_or] at h
    rw [List.foldl_cons, ih _ h.2, Tbl.find?_ins_ne _ _ h.1]

theorem Chip.memWf_loseKeys (c : Chip) (h : Half) (w : c.memWf = true) : (c.loseKeys h).memWf = true := by
  unfold Chip.memWf Chip.loseKeys at *
  refine Tbl.wf_filter _ (fun x _ hx => ?_) w
  unfold memReset
  dsimp only [Chip.setSec]
  rw [garbled_other]
  simp only [List.mem_map, not_exists, not_and]
  intro n hn e
  have hd : n < 1048576 := by
    simp only [Chip.heartwood, List.mem_map, List.mem_filter, Bool.and_eq_true, decide_eq_true_eq] at hn
    obtain ⟨y, ⟨_, ⟨h1, _⟩, _⟩, rfl⟩ := hn
    exact h1
  unfold granuleAddr at e
  have hx' : inDram x.1 = true ∧ (x.1 - 0x1000000000) / 65536 = n := by
    unfold inDram
    simp only [decide_eq_true_eq]
    omega
  exact of_decide_eq_true hx ⟨hx'.1, by simpa [hx'.2] using hn⟩

/-- Granules that a save has written lose what was listed in them. -/
theorem garbled_beyond (f : Nat → Nat) (l : List Nat) (v k : Nat) (g : Tbl Nat) (h : k ∉ l.map f) :
    Tbl.find? (l.foldl (fun g n => Tbl.ins g (f n) v) g) k = Tbl.find? g k := by
  induction l generalizing g with
  | nil => rfl
  | cons n l ih =>
    simp only [List.map_cons, List.mem_cons, not_or] at h
    rw [List.foldl_cons, ih _ h.2, Tbl.find?_ins_ne _ _ h.1]

theorem Chip.memWf_savedTo (c : Chip) (h : Half) (o : Nat) (w : c.memWf = true) : (c.savedTo h o).memWf = true := by
  unfold Chip.savedTo
  dsimp only
  split
  · exact w
  · rename_i g _
    unfold Chip.memWf at *
    refine Tbl.wf_filter _ (fun x _ hx => ?_) w
    unfold memReset
    rw [garbled_beyond (fun k => 0x100000 + g + k)]
    have hx := of_decide_eq_true hx
    simp only [List.mem_map, List.mem_range, not_exists, not_and]
    intro n hn e
    exact hx ⟨by omega, by omega⟩

theorem Chip.memWf_wipeHalf (c : Chip) (h : Half) (w : c.memWf = true) : (c.wipeHalf h).memWf = true :=
  Tbl.wf_filter _ (fun _ _ _ => rfl) w

theorem Chip.memWf_deviceReset (c : Chip) (w : c.memWf = true) : c.deviceReset.memWf = true :=
  Tbl.wf_filter _ (fun _ _ _ => rfl) w

end Sys2Proof.Machine
end

