-- ==== Sys2Proof/Laws/State.lean ====
section
/-! SUPPORT. The fields of the chip after the updates of the shared operations. `Chip.<update>_keeps` says once what an
update enters: every part of the chip that does not read the field it writes is as before. -/

namespace Sys2Proof.Machine

/-! ### The queue -/

@[simp] theorem State.withChip_chip (s : State) (c : Chip) : (s.withChip c).chip = c := rfl
@[simp] theorem State.withChip_pending (s : State) (c : Chip) : (s.withChip c).pending = s.pending := rfl
@[simp] theorem State.withChip_self (s : State) : s.withChip s.chip = s := rfl

/-! ### What each update keeps -/

theorem Chip.setReg_keeps {γ : Type} (f : Chip → γ) (hf : ∀ c y, f { c with regs := y } = f c) (c : Chip) (a v : Nat) : f (c.setReg a v) = f c := hf c _
theorem Chip.put_keeps {γ : Type} (f : Chip → γ) (hf : ∀ c y, f { c with regs := y } = f c) (c : Chip) (x : RF) (v : Nat) : f (c.put x v) = f c := hf c _
theorem Chip.count_keeps {γ : Type} (f : Chip → γ) (hf : ∀ c y, f { c with regs := y } = f c) (c : Chip) (x : RF) (n : Nat) : f (c.count x n) = f c := hf c _
theorem Chip.inc_keeps {γ : Type} (f : Chip → γ) (hf : ∀ c y, f { c with regs := y } = f c) (c : Chip) (x : RF) : f (c.inc x) = f c := hf c _
theorem Chip.setOwn_keeps {γ : Type} (f : Chip → γ) (hf : ∀ c y, f { c with own := y } = f c) (c : Chip) (i e : Nat) : f (c.setOwn i e) = f c := hf c _
theorem Chip.setBase_keeps {γ : Type} (f : Chip → γ) (hf : ∀ c y, f { c with tb := y } = f c) (c : Chip) (h : Half) (n : Nat) (b : TimeBase) : f (c.setBase h n b) = f c := hf c _
theorem Chip.setCmd_keeps {γ : Type} (f : Chip → γ) (hf : ∀ c y, f { c with cmds := y } = f c) (c : Chip) (m : Cmd) : f (c.setCmd m) = f c := hf c _
theorem Chip.dropCmd_keeps {γ : Type} (f : Chip → γ) (hf : ∀ c y, f { c with cmds := y } = f c) (c : Chip) (i : CmdId) : f (c.dropCmd i) = f c := hf c _
theorem Chip.setRingSt_keeps {γ : Type} (f : Chip → γ) (hf : ∀ c y, f { c with rings := y } = f c) (c : Chip) (r : Nat) (x : RingSt) : f (c.setRingSt r x) = f c := hf c _
theorem Chip.setArr_keeps {γ : Type} (f : Chip → γ) (hf : ∀ c y, f { c with arrays := y } = f c) (c : Chip) (a : Nat) (x : ArrSt) : f (c.setArr a x) = f c := hf c _
theorem Chip.setTime_keeps {γ : Type} (f : Chip → γ) (hf : ∀ c y, f { c with time := y } = f c) (c : Chip) (h : Half) (x : TimeSt) : f (c.setTime h x) = f c := hf c _
theorem Chip.setPower_keeps {γ : Type} (f : Chip → γ) (hf : ∀ c y, f { c with power := y } = f c) (c : Chip) (h : Half) (x : PowerSt) : f (c.setPower h x) = f c := hf c _
theorem Chip.setSec_keeps {γ : Type} (f : Chip → γ) (hf : ∀ c y, f { c with sec := y } = f c) (c : Chip) (h : Half) (x : SecSt) : f (c.setSec h x) = f c := hf c _
theorem Chip.setStart_keeps {γ : Type} (f : Chip → γ) (hf : ∀ c y, f { c with start := y } = f c) (c : Chip) (h : Half) (x : StartSt) : f (c.setStart h x) = f c := hf c _
theorem Chip.setLinkSt_keeps {γ : Type} (f : Chip → γ) (hf : ∀ c y, f { c with links := y } = f c) (c : Chip) (l : Nat) (x : LinkSt) : f (c.setLinkSt l x) = f c := hf c _
theorem Chip.setHio_keeps {γ : Type} (f : Chip → γ) (hf : ∀ c y, f { c with hio := y } = f c) (c : Chip) (h : Half) (x : HioSt) : f (c.setHio h x) = f c := hf c _
theorem Chip.setCam_keeps {γ : Type} (f : Chip → γ) (hf : ∀ c y, f { c with cams := y } = f c) (c : Chip) (n : Nat) (x : CamSt) : f (c.setCam n x) = f c := hf c _
theorem Chip.setScan_keeps {γ : Type} (f : Chip → γ) (hf : ∀ c y, f { c with scans := y } = f c) (c : Chip) (d : Nat) (x : ScanSt) : f (c.setScan d x) = f c := hf c _
theorem Chip.setCore_keeps {γ : Type} (f : Chip → γ) (hf : ∀ c y, f { c with cores := y } = f c) (c : Chip) (b k : Nat) (x : Core) : f (c.setCore b k x) = f c := hf c _
theorem Chip.setBench_keeps {γ : Type} (f : Chip → γ) (hf : ∀ c y, f { c with benches := y } = f c) (c : Chip) (b : Nat) (x : BenchSt) : f (c.setBench b x) = f c := hf c _
theorem Chip.setApp_keeps {γ : Type} (f : Chip → γ) (hf : ∀ c y, f { c with apps := y } = f c) (c : Chip) (k : Nat) (x : AppCore) : f (c.setApp k x) = f c := hf c _
theorem Chip.setSlot_keeps {γ : Type} (f : Chip → γ) (hf : ∀ c y, f { c with slots := y } = f c) (c : Chip) (s : Nat) (x : SlotSt) : f (c.setSlot s x) = f c := hf c _
theorem Chip.setRoute_keeps {γ : Type} (f : Chip → γ) (hf : ∀ c y, f { c with gwRoutes := y } = f c) (c : Chip) (r : Nat) (x : RouteSt) : f (c.setRoute r x) = f c := hf c _
theorem Chip.setAuthSt_keeps {γ : Type} (f : Chip → γ) (hf : ∀ c y, f { c with auth := y } = f c) (c : Chip) (h : Half) (x : AuthSt) : f (c.setAuthSt h x) = f c := hf c _
theorem Chip.setFlash_keeps {γ : Type} (f : Chip → γ) (hf : ∀ c y, f { c with flash := y } = f c) (c : Chip) (h : Half) (x : FlashLedger) : f (c.setFlash h x) = f c := hf c _

/-! ### `setReg` -/

@[simp] theorem Chip.setReg_mem (c : Chip) (a v : Nat) : (c.setReg a v).mem = c.mem := Chip.setReg_keeps Chip.mem (fun _ _ => rfl) c a v
@[simp] theorem Chip.setReg_garbled (c : Chip) (a v : Nat) : (c.setReg a v).garbled = c.garbled := Chip.setReg_keeps Chip.garbled (fun _ _ => rfl) c a v
@[simp] theorem Chip.setReg_poison (c : Chip) (a v : Nat) : (c.setReg a v).poison = c.poison := Chip.setReg_keeps Chip.poison (fun _ _ => rfl) c a v
@[simp] theorem Chip.setReg_own (c : Chip) (a v : Nat) : (c.setReg a v).own = c.own := Chip.setReg_keeps Chip.own (fun _ _ => rfl) c a v
@[simp] theorem Chip.setReg_holds (c : Chip) (a v : Nat) : (c.setReg a v).holds = c.holds := Chip.setReg_keeps Chip.holds (fun _ _ => rfl) c a v
@[simp] theorem Chip.setReg_rings (c : Chip) (a v : Nat) : (c.setReg a v).rings = c.rings := Chip.setReg_keeps Chip.rings (fun _ _ => rfl) c a v
@[simp] theorem Chip.setReg_cmds (c : Chip) (a v : Nat) : (c.setReg a v).cmds = c.cmds := Chip.setReg_keeps Chip.cmds (fun _ _ => rfl) c a v
@[simp] theorem Chip.setReg_dispatched (c : Chip) (a v : Nat) : (c.setReg a v).dispatched = c.dispatched := Chip.setReg_keeps Chip.dispatched (fun _ _ => rfl) c a v
@[simp] theorem Chip.setReg_waits (c : Chip) (a v : Nat) : (c.setReg a v).waits = c.waits := Chip.setReg_keeps Chip.waits (fun _ _ => rfl) c a v
@[simp] theorem Chip.setReg_pollRun (c : Chip) (a v : Nat) : (c.setReg a v).pollRun = c.pollRun := Chip.setReg_keeps Chip.pollRun (fun _ _ => rfl) c a v
@[simp] theorem Chip.setReg_tb (c : Chip) (a v : Nat) : (c.setReg a v).tb = c.tb := Chip.setReg_keeps Chip.tb (fun _ _ => rfl) c a v
@[simp] theorem Chip.setReg_kv (c : Chip) (a v : Nat) : (c.setReg a v).kv = c.kv := Chip.setReg_keeps Chip.kv (fun _ _ => rfl) c a v
@[simp] theorem Chip.setReg_down (c : Chip) (a v : Nat) : (c.setReg a v).down = c.down := Chip.setReg_keeps Chip.down (fun _ _ => rfl) c a v
@[simp] theorem Chip.setReg_log (c : Chip) (a v : Nat) : (c.setReg a v).log = c.log := Chip.setReg_keeps Chip.log (fun _ _ => rfl) c a v
@[simp] theorem Chip.setReg_irqs (c : Chip) (a v : Nat) : (c.setReg a v).irqs = c.irqs := Chip.setReg_keeps Chip.irqs (fun _ _ => rfl) c a v
@[simp] theorem Chip.setReg_freeCnt (c : Chip) (a v : Nat) : (c.setReg a v).freeCnt = c.freeCnt := Chip.setReg_keeps Chip.freeCnt (fun _ _ => rfl) c a v
@[simp] theorem Chip.setReg_answer (c : Chip) (a v : Nat) : (c.setReg a v).answer = c.answer := Chip.setReg_keeps Chip.answer (fun _ _ => rfl) c a v
@[simp] theorem Chip.setReg_slotLock (c : Chip) (a v : Nat) : (c.setReg a v).slotLock = c.slotLock := Chip.setReg_keeps Chip.slotLock (fun _ _ => rfl) c a v
@[simp] theorem Chip.setReg_arrays (c : Chip) (a v : Nat) : (c.setReg a v).arrays = c.arrays := Chip.setReg_keeps Chip.arrays (fun _ _ => rfl) c a v
@[simp] theorem Chip.setReg_cores (c : Chip) (a v : Nat) : (c.setReg a v).cores = c.cores := Chip.setReg_keeps Chip.cores (fun _ _ => rfl) c a v
@[simp] theorem Chip.setReg_benches (c : Chip) (a v : Nat) : (c.setReg a v).benches = c.benches := Chip.setReg_keeps Chip.benches (fun _ _ => rfl) c a v
@[simp] theorem Chip.setReg_kvFresh (c : Chip) (a v : Nat) : (c.setReg a v).kvFresh = c.kvFresh := Chip.setReg_keeps Chip.kvFresh (fun _ _ => rfl) c a v
@[simp] theorem Chip.setReg_kvBack (c : Chip) (a v : Nat) : (c.setReg a v).kvBack = c.kvBack := Chip.setReg_keeps Chip.kvBack (fun _ _ => rfl) c a v
@[simp] theorem Chip.setReg_kvPins (c : Chip) (a v : Nat) : (c.setReg a v).kvPins = c.kvPins := Chip.setReg_keeps Chip.kvPins (fun _ _ => rfl) c a v
@[simp] theorem Chip.setReg_pinOps (c : Chip) (a v : Nat) : (c.setReg a v).pinOps = c.pinOps := Chip.setReg_keeps Chip.pinOps (fun _ _ => rfl) c a v
@[simp] theorem Chip.setReg_pinWait (c : Chip) (a v : Nat) : (c.setReg a v).pinWait = c.pinWait := Chip.setReg_keeps Chip.pinWait (fun _ _ => rfl) c a v
@[simp] theorem Chip.setReg_actx (c : Chip) (a v : Nat) : (c.setReg a v).actx = c.actx := Chip.setReg_keeps Chip.actx (fun _ _ => rfl) c a v
@[simp] theorem Chip.setReg_bctx (c : Chip) (a v : Nat) : (c.setReg a v).bctx = c.bctx := Chip.setReg_keeps Chip.bctx (fun _ _ => rfl) c a v
@[simp] theorem Chip.setReg_models (c : Chip) (a v : Nat) : (c.setReg a v).models = c.models := Chip.setReg_keeps Chip.models (fun _ _ => rfl) c a v
@[simp] theorem Chip.setReg_modelNext (c : Chip) (a v : Nat) : (c.setReg a v).modelNext = c.modelNext := Chip.setReg_keeps Chip.modelNext (fun _ _ => rfl) c a v
@[simp] theorem Chip.setReg_boosts (c : Chip) (a v : Nat) : (c.setReg a v).boosts = c.boosts := Chip.setReg_keeps Chip.boosts (fun _ _ => rfl) c a v
@[simp] theorem Chip.setReg_partTurns (c : Chip) (a v : Nat) : (c.setReg a v).partTurns = c.partTurns := Chip.setReg_keeps Chip.partTurns (fun _ _ => rfl) c a v
@[simp] theorem Chip.setReg_partyTurns (c : Chip) (a v : Nat) : (c.setReg a v).partyTurns = c.partyTurns := Chip.setReg_keeps Chip.partyTurns (fun _ _ => rfl) c a v
@[simp] theorem Chip.setReg_blockedAt (c : Chip) (a v : Nat) : (c.setReg a v).blockedAt = c.blockedAt := Chip.setReg_keeps Chip.blockedAt (fun _ _ => rfl) c a v
@[simp] theorem Chip.setReg_attnQuanta (c : Chip) (a v : Nat) : (c.setReg a v).attnQuanta = c.attnQuanta := Chip.setReg_keeps Chip.attnQuanta (fun _ _ => rfl) c a v
@[simp] theorem Chip.setReg_sharePend (c : Chip) (a v : Nat) : (c.setReg a v).sharePend = c.sharePend := Chip.setReg_keeps Chip.sharePend (fun _ _ => rfl) c a v
@[simp] theorem Chip.setReg_viNew (c : Chip) (a v : Nat) : (c.setReg a v).viNew = c.viNew := Chip.setReg_keeps Chip.viNew (fun _ _ => rfl) c a v
@[simp] theorem Chip.setReg_viDestroy (c : Chip) (a v : Nat) : (c.setReg a v).viDestroy = c.viDestroy := Chip.setReg_keeps Chip.viDestroy (fun _ _ => rfl) c a v
@[simp] theorem Chip.setReg_viStart (c : Chip) (a v : Nat) : (c.setReg a v).viStart = c.viStart := Chip.setReg_keeps Chip.viStart (fun _ _ => rfl) c a v
@[simp] theorem Chip.setReg_viSelf (c : Chip) (a v : Nat) : (c.setReg a v).viSelf = c.viSelf := Chip.setReg_keeps Chip.viSelf (fun _ _ => rfl) c a v
@[simp] theorem Chip.setReg_viFlr (c : Chip) (a v : Nat) : (c.setReg a v).viFlr = c.viFlr := Chip.setReg_keeps Chip.viFlr (fun _ _ => rfl) c a v
@[simp] theorem Chip.setReg_slots (c : Chip) (a v : Nat) : (c.setReg a v).slots = c.slots := Chip.setReg_keeps Chip.slots (fun _ _ => rfl) c a v
@[simp] theorem Chip.setReg_slotBase (c : Chip) (a v : Nat) : (c.setReg a v).slotBase = c.slotBase := Chip.setReg_keeps Chip.slotBase (fun _ _ => rfl) c a v
@[simp] theorem Chip.setReg_pins (c : Chip) (a v : Nat) : (c.setReg a v).pins = c.pins := Chip.setReg_keeps Chip.pins (fun _ _ => rfl) c a v
@[simp] theorem Chip.setReg_frames (c : Chip) (a v : Nat) : (c.setReg a v).frames = c.frames := Chip.setReg_keeps Chip.frames (fun _ _ => rfl) c a v
@[simp] theorem Chip.setReg_roughMoved (c : Chip) (a v : Nat) : (c.setReg a v).roughMoved = c.roughMoved := Chip.setReg_keeps Chip.roughMoved (fun _ _ => rfl) c a v
@[simp] theorem Chip.setReg_auth (c : Chip) (a v : Nat) : (c.setReg a v).auth = c.auth := Chip.setReg_keeps Chip.auth (fun _ _ => rfl) c a v
@[simp] theorem Chip.setReg_authWire (c : Chip) (a v : Nat) : (c.setReg a v).authWire = c.authWire := Chip.setReg_keeps Chip.authWire (fun _ _ => rfl) c a v
@[simp] theorem Chip.setReg_gapFrom (c : Chip) (a v : Nat) : (c.setReg a v).gapFrom = c.gapFrom := Chip.setReg_keeps Chip.gapFrom (fun _ _ => rfl) c a v
@[simp] theorem Chip.setReg_lastDriver (c : Chip) (a v : Nat) : (c.setReg a v).lastDriver = c.lastDriver := Chip.setReg_keeps Chip.lastDriver (fun _ _ => rfl) c a v
@[simp] theorem Chip.setReg_loops (c : Chip) (a v : Nat) : (c.setReg a v).loops = c.loops := Chip.setReg_keeps Chip.loops (fun _ _ => rfl) c a v
@[simp] theorem Chip.setReg_steadyCmd (c : Chip) (a v : Nat) : (c.setReg a v).steadyCmd = c.steadyCmd := Chip.setReg_keeps Chip.steadyCmd (fun _ _ => rfl) c a v
@[simp] theorem Chip.setReg_env (c : Chip) (a v : Nat) : (c.setReg a v).env = c.env := Chip.setReg_keeps Chip.env (fun _ _ => rfl) c a v
@[simp] theorem Chip.setReg_hio (c : Chip) (a v : Nat) : (c.setReg a v).hio = c.hio := Chip.setReg_keeps Chip.hio (fun _ _ => rfl) c a v
@[simp] theorem Chip.setReg_gwQueue (c : Chip) (a v : Nat) : (c.setReg a v).gwQueue = c.gwQueue := Chip.setReg_keeps Chip.gwQueue (fun _ _ => rfl) c a v
@[simp] theorem Chip.setReg_gwSends (c : Chip) (a v : Nat) : (c.setReg a v).gwSends = c.gwSends := Chip.setReg_keeps Chip.gwSends (fun _ _ => rfl) c a v
@[simp] theorem Chip.setReg_gwLate (c : Chip) (a v : Nat) : (c.setReg a v).gwLate = c.gwLate := Chip.setReg_keeps Chip.gwLate (fun _ _ => rfl) c a v
@[simp] theorem Chip.setReg_gwRoutes (c : Chip) (a v : Nat) : (c.setReg a v).gwRoutes = c.gwRoutes := Chip.setReg_keeps Chip.gwRoutes (fun _ _ => rfl) c a v
@[simp] theorem Chip.setReg_gwTx (c : Chip) (a v : Nat) : (c.setReg a v).gwTx = c.gwTx := Chip.setReg_keeps Chip.gwTx (fun _ _ => rfl) c a v
@[simp] theorem Chip.setReg_gwInstant (c : Chip) (a v : Nat) : (c.setReg a v).gwInstant = c.gwInstant := Chip.setReg_keeps Chip.gwInstant (fun _ _ => rfl) c a v
@[simp] theorem Chip.setReg_gwCredit (c : Chip) (a v : Nat) : (c.setReg a v).gwCredit = c.gwCredit := Chip.setReg_keeps Chip.gwCredit (fun _ _ => rfl) c a v
@[simp] theorem Chip.setReg_gwHeld (c : Chip) (a v : Nat) : (c.setReg a v).gwHeld = c.gwHeld := Chip.setReg_keeps Chip.gwHeld (fun _ _ => rfl) c a v
@[simp] theorem Chip.setReg_gwGates (c : Chip) (a v : Nat) : (c.setReg a v).gwGates = c.gwGates := Chip.setReg_keeps Chip.gwGates (fun _ _ => rfl) c a v
@[simp] theorem Chip.setReg_gwPulse (c : Chip) (a v : Nat) : (c.setReg a v).gwPulse = c.gwPulse := Chip.setReg_keeps Chip.gwPulse (fun _ _ => rfl) c a v
@[simp] theorem Chip.setReg_gwChans (c : Chip) (a v : Nat) : (c.setReg a v).gwChans = c.gwChans := Chip.setReg_keeps Chip.gwChans (fun _ _ => rfl) c a v
@[simp] theorem Chip.setReg_cams (c : Chip) (a v : Nat) : (c.setReg a v).cams = c.cams := Chip.setReg_keeps Chip.cams (fun _ _ => rfl) c a v
@[simp] theorem Chip.setReg_scans (c : Chip) (a v : Nat) : (c.setReg a v).scans = c.scans := Chip.setReg_keeps Chip.scans (fun _ _ => rfl) c a v
@[simp] theorem Chip.setReg_cvuOrder (c : Chip) (a v : Nat) : (c.setReg a v).cvuOrder = c.cvuOrder := Chip.setReg_keeps Chip.cvuOrder (fun _ _ => rfl) c a v
@[simp] theorem Chip.setReg_cvuRun (c : Chip) (a v : Nat) : (c.setReg a v).cvuRun = c.cvuRun := Chip.setReg_keeps Chip.cvuRun (fun _ _ => rfl) c a v
@[simp] theorem Chip.setReg_time (c : Chip) (a v : Nat) : (c.setReg a v).time = c.time := Chip.setReg_keeps Chip.time (fun _ _ => rfl) c a v
@[simp] theorem Chip.setReg_timeWrites (c : Chip) (a v : Nat) : (c.setReg a v).timeWrites = c.timeWrites := Chip.setReg_keeps Chip.timeWrites (fun _ _ => rfl) c a v
@[simp] theorem Chip.setReg_ptpTx (c : Chip) (a v : Nat) : (c.setReg a v).ptpTx = c.ptpTx := Chip.setReg_keeps Chip.ptpTx (fun _ _ => rfl) c a v
@[simp] theorem Chip.setReg_ptpRx (c : Chip) (a v : Nat) : (c.setReg a v).ptpRx = c.ptpRx := Chip.setReg_keeps Chip.ptpRx (fun _ _ => rfl) c a v
@[simp] theorem Chip.setReg_ptpRun (c : Chip) (a v : Nat) : (c.setReg a v).ptpRun = c.ptpRun := Chip.setReg_keeps Chip.ptpRun (fun _ _ => rfl) c a v
@[simp] theorem Chip.setReg_gwOut (c : Chip) (a v : Nat) : (c.setReg a v).gwOut = c.gwOut := Chip.setReg_keeps Chip.gwOut (fun _ _ => rfl) c a v
@[simp] theorem Chip.setReg_sec (c : Chip) (a v : Nat) : (c.setReg a v).sec = c.sec := Chip.setReg_keeps Chip.sec (fun _ _ => rfl) c a v
@[simp] theorem Chip.setReg_rpmb (c : Chip) (a v : Nat) : (c.setReg a v).rpmb = c.rpmb := Chip.setReg_keeps Chip.rpmb (fun _ _ => rfl) c a v
@[simp] theorem Chip.setReg_bind (c : Chip) (a v : Nat) : (c.setReg a v).bind = c.bind := Chip.setReg_keeps Chip.bind (fun _ _ => rfl) c a v
@[simp] theorem Chip.setReg_ownChg (c : Chip) (a v : Nat) : (c.setReg a v).ownChg = c.ownChg := Chip.setReg_keeps Chip.ownChg (fun _ _ => rfl) c a v
@[simp] theorem Chip.setReg_apps (c : Chip) (a v : Nat) : (c.setReg a v).apps = c.apps := Chip.setReg_keeps Chip.apps (fun _ _ => rfl) c a v
@[simp] theorem Chip.setReg_erasing (c : Chip) (a v : Nat) : (c.setReg a v).erasing = c.erasing := Chip.setReg_keeps Chip.erasing (fun _ _ => rfl) c a v
@[simp] theorem Chip.setReg_start (c : Chip) (a v : Nat) : (c.setReg a v).start = c.start := Chip.setReg_keeps Chip.start (fun _ _ => rfl) c a v
@[simp] theorem Chip.setReg_startOwn (c : Chip) (a v : Nat) : (c.setReg a v).startOwn = c.startOwn := Chip.setReg_keeps Chip.startOwn (fun _ _ => rfl) c a v
@[simp] theorem Chip.setReg_startRings (c : Chip) (a v : Nat) : (c.setReg a v).startRings = c.startRings := Chip.setReg_keeps Chip.startRings (fun _ _ => rfl) c a v
@[simp] theorem Chip.setReg_startInst (c : Chip) (a v : Nat) : (c.setReg a v).startInst = c.startInst := Chip.setReg_keeps Chip.startInst (fun _ _ => rfl) c a v
@[simp] theorem Chip.setReg_saveArea (c : Chip) (a v : Nat) : (c.setReg a v).saveArea = c.saveArea := Chip.setReg_keeps Chip.saveArea (fun _ _ => rfl) c a v
@[simp] theorem Chip.setReg_halted (c : Chip) (a v : Nat) : (c.setReg a v).halted = c.halted := Chip.setReg_keeps Chip.halted (fun _ _ => rfl) c a v
@[simp] theorem Chip.setReg_txns (c : Chip) (a v : Nat) : (c.setReg a v).txns = c.txns := Chip.setReg_keeps Chip.txns (fun _ _ => rfl) c a v
@[simp] theorem Chip.setReg_txnNext (c : Chip) (a v : Nat) : (c.setReg a v).txnNext = c.txnNext := Chip.setReg_keeps Chip.txnNext (fun _ _ => rfl) c a v
@[simp] theorem Chip.setReg_txnSent (c : Chip) (a v : Nat) : (c.setReg a v).txnSent = c.txnSent := Chip.setReg_keeps Chip.txnSent (fun _ _ => rfl) c a v
@[simp] theorem Chip.setReg_links (c : Chip) (a v : Nat) : (c.setReg a v).links = c.links := Chip.setReg_keeps Chip.links (fun _ _ => rfl) c a v
@[simp] theorem Chip.setReg_farDevs (c : Chip) (a v : Nat) : (c.setReg a v).farDevs = c.farDevs := Chip.setReg_keeps Chip.farDevs (fun _ _ => rfl) c a v
@[simp] theorem Chip.setReg_incarnation (c : Chip) (a v : Nat) : (c.setReg a v).incarnation = c.incarnation := Chip.setReg_keeps Chip.incarnation (fun _ _ => rfl) c a v
@[simp] theorem Chip.setReg_linkless (c : Chip) (a v : Nat) : (c.setReg a v).linkless = c.linkless := Chip.setReg_keeps Chip.linkless (fun _ _ => rfl) c a v
@[simp] theorem Chip.setReg_peerRuns (c : Chip) (a v : Nat) : (c.setReg a v).peerRuns = c.peerRuns := Chip.setReg_keeps Chip.peerRuns (fun _ _ => rfl) c a v
@[simp] theorem Chip.setReg_filling (c : Chip) (a v : Nat) : (c.setReg a v).filling = c.filling := Chip.setReg_keeps Chip.filling (fun _ _ => rfl) c a v
@[simp] theorem Chip.setReg_msix (c : Chip) (a v : Nat) : (c.setReg a v).msix = c.msix := Chip.setReg_keeps Chip.msix (fun _ _ => rfl) c a v
@[simp] theorem Chip.setReg_vfRuns (c : Chip) (a v : Nat) : (c.setReg a v).vfRuns = c.vfRuns := Chip.setReg_keeps Chip.vfRuns (fun _ _ => rfl) c a v
@[simp] theorem Chip.setReg_pcieOut (c : Chip) (a v : Nat) : (c.setReg a v).pcieOut = c.pcieOut := Chip.setReg_keeps Chip.pcieOut (fun _ _ => rfl) c a v
@[simp] theorem Chip.setReg_power (c : Chip) (a v : Nat) : (c.setReg a v).power = c.power := Chip.setReg_keeps Chip.power (fun _ _ => rfl) c a v
@[simp] theorem Chip.setReg_flash (c : Chip) (a v : Nat) : (c.setReg a v).flash = c.flash := Chip.setReg_keeps Chip.flash (fun _ _ => rfl) c a v
@[simp] theorem Chip.setReg_ledgerSeq (c : Chip) (a v : Nat) : (c.setReg a v).ledgerSeq = c.ledgerSeq := Chip.setReg_keeps Chip.ledgerSeq (fun _ _ => rfl) c a v
@[simp] theorem Chip.setReg_ledgerRead (c : Chip) (a v : Nat) : (c.setReg a v).ledgerRead = c.ledgerRead := Chip.setReg_keeps Chip.ledgerRead (fun _ _ => rfl) c a v
@[simp] theorem Chip.setReg_opTime (c : Chip) (a v : Nat) : (c.setReg a v).opTime = c.opTime := Chip.setReg_keeps Chip.opTime (fun _ _ => rfl) c a v
@[simp] theorem Chip.setReg_mirrorRuns (c : Chip) (a v : Nat) : (c.setReg a v).mirrorRuns = c.mirrorRuns := Chip.setReg_keeps Chip.mirrorRuns (fun _ _ => rfl) c a v
@[simp] theorem Chip.setReg_downSince (c : Chip) (a v : Nat) : (c.setReg a v).downSince = c.downSince := Chip.setReg_keeps Chip.downSince (fun _ _ => rfl) c a v
@[simp] theorem Chip.setReg_storeErrs (c : Chip) (a v : Nat) : (c.setReg a v).storeErrs = c.storeErrs := Chip.setReg_keeps Chip.storeErrs (fun _ _ => rfl) c a v
@[simp] theorem Chip.setReg_dataRows (c : Chip) (a v : Nat) : (c.setReg a v).dataRows = c.dataRows := Chip.setReg_keeps Chip.dataRows (fun _ _ => rfl) c a v
@[simp] theorem Chip.setReg_dieOut (c : Chip) (a v : Nat) : (c.setReg a v).dieOut = c.dieOut := Chip.setReg_keeps Chip.dieOut (fun _ _ => rfl) c a v

/-! ### `put` -/

@[simp] theorem Chip.put_mem (c : Chip) (x : RF) (v : Nat) : (c.put x v).mem = c.mem := Chip.put_keeps Chip.mem (fun _ _ => rfl) c x v
@[simp] theorem Chip.put_garbled (c : Chip) (x : RF) (v : Nat) : (c.put x v).garbled = c.garbled := Chip.put_keeps Chip.garbled (fun _ _ => rfl) c x v
@[simp] theorem Chip.put_poison (c : Chip) (x : RF) (v : Nat) : (c.put x v).poison = c.poison := Chip.put_keeps Chip.poison (fun _ _ => rfl) c x v
@[simp] theorem Chip.put_own (c : Chip) (x : RF) (v : Nat) : (c.put x v).own = c.own := Chip.put_keeps Chip.own (fun _ _ => rfl) c x v
@[simp] theorem Chip.put_holds (c : Chip) (x : RF) (v : Nat) : (c.put x v).holds = c.holds := Chip.put_keeps Chip.holds (fun _ _ => rfl) c x v
@[simp] theorem Chip.put_rings (c : Chip) (x : RF) (v : Nat) : (c.put x v).rings = c.rings := Chip.put_keeps Chip.rings (fun _ _ => rfl) c x v
@[simp] theorem Chip.put_cmds (c : Chip) (x : RF) (v : Nat) : (c.put x v).cmds = c.cmds := Chip.put_keeps Chip.cmds (fun _ _ => rfl) c x v
@[simp] theorem Chip.put_dispatched (c : Chip) (x : RF) (v : Nat) : (c.put x v).dispatched = c.dispatched := Chip.put_keeps Chip.dispatched (fun _ _ => rfl) c x v
@[simp] theorem Chip.put_waits (c : Chip) (x : RF) (v : Nat) : (c.put x v).waits = c.waits := Chip.put_keeps Chip.waits (fun _ _ => rfl) c x v
@[simp] theorem Chip.put_pollRun (c : Chip) (x : RF) (v : Nat) : (c.put x v).pollRun = c.pollRun := Chip.put_keeps Chip.pollRun (fun _ _ => rfl) c x v
@[simp] theorem Chip.put_tb (c : Chip) (x : RF) (v : Nat) : (c.put x v).tb = c.tb := Chip.put_keeps Chip.tb (fun _ _ => rfl) c x v
@[simp] theorem Chip.put_kv (c : Chip) (x : RF) (v : Nat) : (c.put x v).kv = c.kv := Chip.put_keeps Chip.kv (fun _ _ => rfl) c x v
@[simp] theorem Chip.put_down (c : Chip) (x : RF) (v : Nat) : (c.put x v).down = c.down := Chip.put_keeps Chip.down (fun _ _ => rfl) c x v
@[simp] theorem Chip.put_log (c : Chip) (x : RF) (v : Nat) : (c.put x v).log = c.log := Chip.put_keeps Chip.log (fun _ _ => rfl) c x v
@[simp] theorem Chip.put_irqs (c : Chip) (x : RF) (v : Nat) : (c.put x v).irqs = c.irqs := Chip.put_keeps Chip.irqs (fun _ _ => rfl) c x v
@[simp] theorem Chip.put_freeCnt (c : Chip) (x : RF) (v : Nat) : (c.put x v).freeCnt = c.freeCnt := Chip.put_keeps Chip.freeCnt (fun _ _ => rfl) c x v
@[simp] theorem Chip.put_answer (c : Chip) (x : RF) (v : Nat) : (c.put x v).answer = c.answer := Chip.put_keeps Chip.answer (fun _ _ => rfl) c x v
@[simp] theorem Chip.put_slotLock (c : Chip) (x : RF) (v : Nat) : (c.put x v).slotLock = c.slotLock := Chip.put_keeps Chip.slotLock (fun _ _ => rfl) c x v
@[simp] theorem Chip.put_arrays (c : Chip) (x : RF) (v : Nat) : (c.put x v).arrays = c.arrays := Chip.put_keeps Chip.arrays (fun _ _ => rfl) c x v
@[simp] theorem Chip.put_cores (c : Chip) (x : RF) (v : Nat) : (c.put x v).cores = c.cores := Chip.put_keeps Chip.cores (fun _ _ => rfl) c x v
@[simp] theorem Chip.put_benches (c : Chip) (x : RF) (v : Nat) : (c.put x v).benches = c.benches := Chip.put_keeps Chip.benches (fun _ _ => rfl) c x v
@[simp] theorem Chip.put_kvFresh (c : Chip) (x : RF) (v : Nat) : (c.put x v).kvFresh = c.kvFresh := Chip.put_keeps Chip.kvFresh (fun _ _ => rfl) c x v
@[simp] theorem Chip.put_kvBack (c : Chip) (x : RF) (v : Nat) : (c.put x v).kvBack = c.kvBack := Chip.put_keeps Chip.kvBack (fun _ _ => rfl) c x v
@[simp] theorem Chip.put_kvPins (c : Chip) (x : RF) (v : Nat) : (c.put x v).kvPins = c.kvPins := Chip.put_keeps Chip.kvPins (fun _ _ => rfl) c x v
@[simp] theorem Chip.put_pinOps (c : Chip) (x : RF) (v : Nat) : (c.put x v).pinOps = c.pinOps := Chip.put_keeps Chip.pinOps (fun _ _ => rfl) c x v
@[simp] theorem Chip.put_pinWait (c : Chip) (x : RF) (v : Nat) : (c.put x v).pinWait = c.pinWait := Chip.put_keeps Chip.pinWait (fun _ _ => rfl) c x v
@[simp] theorem Chip.put_actx (c : Chip) (x : RF) (v : Nat) : (c.put x v).actx = c.actx := Chip.put_keeps Chip.actx (fun _ _ => rfl) c x v
@[simp] theorem Chip.put_bctx (c : Chip) (x : RF) (v : Nat) : (c.put x v).bctx = c.bctx := Chip.put_keeps Chip.bctx (fun _ _ => rfl) c x v
@[simp] theorem Chip.put_models (c : Chip) (x : RF) (v : Nat) : (c.put x v).models = c.models := Chip.put_keeps Chip.models (fun _ _ => rfl) c x v
@[simp] theorem Chip.put_modelNext (c : Chip) (x : RF) (v : Nat) : (c.put x v).modelNext = c.modelNext := Chip.put_keeps Chip.modelNext (fun _ _ => rfl) c x v
@[simp] theorem Chip.put_boosts (c : Chip) (x : RF) (v : Nat) : (c.put x v).boosts = c.boosts := Chip.put_keeps Chip.boosts (fun _ _ => rfl) c x v
@[simp] theorem Chip.put_partTurns (c : Chip) (x : RF) (v : Nat) : (c.put x v).partTurns = c.partTurns := Chip.put_keeps Chip.partTurns (fun _ _ => rfl) c x v
@[simp] theorem Chip.put_partyTurns (c : Chip) (x : RF) (v : Nat) : (c.put x v).partyTurns = c.partyTurns := Chip.put_keeps Chip.partyTurns (fun _ _ => rfl) c x v
@[simp] theorem Chip.put_blockedAt (c : Chip) (x : RF) (v : Nat) : (c.put x v).blockedAt = c.blockedAt := Chip.put_keeps Chip.blockedAt (fun _ _ => rfl) c x v
@[simp] theorem Chip.put_attnQuanta (c : Chip) (x : RF) (v : Nat) : (c.put x v).attnQuanta = c.attnQuanta := Chip.put_keeps Chip.attnQuanta (fun _ _ => rfl) c x v
@[simp] theorem Chip.put_sharePend (c : Chip) (x : RF) (v : Nat) : (c.put x v).sharePend = c.sharePend := Chip.put_keeps Chip.sharePend (fun _ _ => rfl) c x v
@[simp] theorem Chip.put_viNew (c : Chip) (x : RF) (v : Nat) : (c.put x v).viNew = c.viNew := Chip.put_keeps Chip.viNew (fun _ _ => rfl) c x v
@[simp] theorem Chip.put_viDestroy (c : Chip) (x : RF) (v : Nat) : (c.put x v).viDestroy = c.viDestroy := Chip.put_keeps Chip.viDestroy (fun _ _ => rfl) c x v
@[simp] theorem Chip.put_viStart (c : Chip) (x : RF) (v : Nat) : (c.put x v).viStart = c.viStart := Chip.put_keeps Chip.viStart (fun _ _ => rfl) c x v
@[simp] theorem Chip.put_viSelf (c : Chip) (x : RF) (v : Nat) : (c.put x v).viSelf = c.viSelf := Chip.put_keeps Chip.viSelf (fun _ _ => rfl) c x v
@[simp] theorem Chip.put_viFlr (c : Chip) (x : RF) (v : Nat) : (c.put x v).viFlr = c.viFlr := Chip.put_keeps Chip.viFlr (fun _ _ => rfl) c x v
@[simp] theorem Chip.put_slots (c : Chip) (x : RF) (v : Nat) : (c.put x v).slots = c.slots := Chip.put_keeps Chip.slots (fun _ _ => rfl) c x v
@[simp] theorem Chip.put_slotBase (c : Chip) (x : RF) (v : Nat) : (c.put x v).slotBase = c.slotBase := Chip.put_keeps Chip.slotBase (fun _ _ => rfl) c x v
@[simp] theorem Chip.put_pins (c : Chip) (x : RF) (v : Nat) : (c.put x v).pins = c.pins := Chip.put_keeps Chip.pins (fun _ _ => rfl) c x v
@[simp] theorem Chip.put_frames (c : Chip) (x : RF) (v : Nat) : (c.put x v).frames = c.frames := Chip.put_keeps Chip.frames (fun _ _ => rfl) c x v
@[simp] theorem Chip.put_roughMoved (c : Chip) (x : RF) (v : Nat) : (c.put x v).roughMoved = c.roughMoved := Chip.put_keeps Chip.roughMoved (fun _ _ => rfl) c x v
@[simp] theorem Chip.put_auth (c : Chip) (x : RF) (v : Nat) : (c.put x v).auth = c.auth := Chip.put_keeps Chip.auth (fun _ _ => rfl) c x v
@[simp] theorem Chip.put_authWire (c : Chip) (x : RF) (v : Nat) : (c.put x v).authWire = c.authWire := Chip.put_keeps Chip.authWire (fun _ _ => rfl) c x v
@[simp] theorem Chip.put_gapFrom (c : Chip) (x : RF) (v : Nat) : (c.put x v).gapFrom = c.gapFrom := Chip.put_keeps Chip.gapFrom (fun _ _ => rfl) c x v
@[simp] theorem Chip.put_lastDriver (c : Chip) (x : RF) (v : Nat) : (c.put x v).lastDriver = c.lastDriver := Chip.put_keeps Chip.lastDriver (fun _ _ => rfl) c x v
@[simp] theorem Chip.put_loops (c : Chip) (x : RF) (v : Nat) : (c.put x v).loops = c.loops := Chip.put_keeps Chip.loops (fun _ _ => rfl) c x v
@[simp] theorem Chip.put_steadyCmd (c : Chip) (x : RF) (v : Nat) : (c.put x v).steadyCmd = c.steadyCmd := Chip.put_keeps Chip.steadyCmd (fun _ _ => rfl) c x v
@[simp] theorem Chip.put_env (c : Chip) (x : RF) (v : Nat) : (c.put x v).env = c.env := Chip.put_keeps Chip.env (fun _ _ => rfl) c x v
@[simp] theorem Chip.put_hio (c : Chip) (x : RF) (v : Nat) : (c.put x v).hio = c.hio := Chip.put_keeps Chip.hio (fun _ _ => rfl) c x v
@[simp] theorem Chip.put_gwQueue (c : Chip) (x : RF) (v : Nat) : (c.put x v).gwQueue = c.gwQueue := Chip.put_keeps Chip.gwQueue (fun _ _ => rfl) c x v
@[simp] theorem Chip.put_gwSends (c : Chip) (x : RF) (v : Nat) : (c.put x v).gwSends = c.gwSends := Chip.put_keeps Chip.gwSends (fun _ _ => rfl) c x v
@[simp] theorem Chip.put_gwLate (c : Chip) (x : RF) (v : Nat) : (c.put x v).gwLate = c.gwLate := Chip.put_keeps Chip.gwLate (fun _ _ => rfl) c x v
@[simp] theorem Chip.put_gwRoutes (c : Chip) (x : RF) (v : Nat) : (c.put x v).gwRoutes = c.gwRoutes := Chip.put_keeps Chip.gwRoutes (fun _ _ => rfl) c x v
@[simp] theorem Chip.put_gwTx (c : Chip) (x : RF) (v : Nat) : (c.put x v).gwTx = c.gwTx := Chip.put_keeps Chip.gwTx (fun _ _ => rfl) c x v
@[simp] theorem Chip.put_gwInstant (c : Chip) (x : RF) (v : Nat) : (c.put x v).gwInstant = c.gwInstant := Chip.put_keeps Chip.gwInstant (fun _ _ => rfl) c x v
@[simp] theorem Chip.put_gwCredit (c : Chip) (x : RF) (v : Nat) : (c.put x v).gwCredit = c.gwCredit := Chip.put_keeps Chip.gwCredit (fun _ _ => rfl) c x v
@[simp] theorem Chip.put_gwHeld (c : Chip) (x : RF) (v : Nat) : (c.put x v).gwHeld = c.gwHeld := Chip.put_keeps Chip.gwHeld (fun _ _ => rfl) c x v
@[simp] theorem Chip.put_gwGates (c : Chip) (x : RF) (v : Nat) : (c.put x v).gwGates = c.gwGates := Chip.put_keeps Chip.gwGates (fun _ _ => rfl) c x v
@[simp] theorem Chip.put_gwPulse (c : Chip) (x : RF) (v : Nat) : (c.put x v).gwPulse = c.gwPulse := Chip.put_keeps Chip.gwPulse (fun _ _ => rfl) c x v
@[simp] theorem Chip.put_gwChans (c : Chip) (x : RF) (v : Nat) : (c.put x v).gwChans = c.gwChans := Chip.put_keeps Chip.gwChans (fun _ _ => rfl) c x v
@[simp] theorem Chip.put_cams (c : Chip) (x : RF) (v : Nat) : (c.put x v).cams = c.cams := Chip.put_keeps Chip.cams (fun _ _ => rfl) c x v
@[simp] theorem Chip.put_scans (c : Chip) (x : RF) (v : Nat) : (c.put x v).scans = c.scans := Chip.put_keeps Chip.scans (fun _ _ => rfl) c x v
@[simp] theorem Chip.put_cvuOrder (c : Chip) (x : RF) (v : Nat) : (c.put x v).cvuOrder = c.cvuOrder := Chip.put_keeps Chip.cvuOrder (fun _ _ => rfl) c x v
@[simp] theorem Chip.put_cvuRun (c : Chip) (x : RF) (v : Nat) : (c.put x v).cvuRun = c.cvuRun := Chip.put_keeps Chip.cvuRun (fun _ _ => rfl) c x v
@[simp] theorem Chip.put_time (c : Chip) (x : RF) (v : Nat) : (c.put x v).time = c.time := Chip.put_keeps Chip.time (fun _ _ => rfl) c x v
@[simp] theorem Chip.put_timeWrites (c : Chip) (x : RF) (v : Nat) : (c.put x v).timeWrites = c.timeWrites := Chip.put_keeps Chip.timeWrites (fun _ _ => rfl) c x v
@[simp] theorem Chip.put_ptpTx (c : Chip) (x : RF) (v : Nat) : (c.put x v).ptpTx = c.ptpTx := Chip.put_keeps Chip.ptpTx (fun _ _ => rfl) c x v
@[simp] theorem Chip.put_ptpRx (c : Chip) (x : RF) (v : Nat) : (c.put x v).ptpRx = c.ptpRx := Chip.put_keeps Chip.ptpRx (fun _ _ => rfl) c x v
@[simp] theorem Chip.put_ptpRun (c : Chip) (x : RF) (v : Nat) : (c.put x v).ptpRun = c.ptpRun := Chip.put_keeps Chip.ptpRun (fun _ _ => rfl) c x v
@[simp] theorem Chip.put_gwOut (c : Chip) (x : RF) (v : Nat) : (c.put x v).gwOut = c.gwOut := Chip.put_keeps Chip.gwOut (fun _ _ => rfl) c x v
@[simp] theorem Chip.put_sec (c : Chip) (x : RF) (v : Nat) : (c.put x v).sec = c.sec := Chip.put_keeps Chip.sec (fun _ _ => rfl) c x v
@[simp] theorem Chip.put_rpmb (c : Chip) (x : RF) (v : Nat) : (c.put x v).rpmb = c.rpmb := Chip.put_keeps Chip.rpmb (fun _ _ => rfl) c x v
@[simp] theorem Chip.put_bind (c : Chip) (x : RF) (v : Nat) : (c.put x v).bind = c.bind := Chip.put_keeps Chip.bind (fun _ _ => rfl) c x v
@[simp] theorem Chip.put_ownChg (c : Chip) (x : RF) (v : Nat) : (c.put x v).ownChg = c.ownChg := Chip.put_keeps Chip.ownChg (fun _ _ => rfl) c x v
@[simp] theorem Chip.put_apps (c : Chip) (x : RF) (v : Nat) : (c.put x v).apps = c.apps := Chip.put_keeps Chip.apps (fun _ _ => rfl) c x v
@[simp] theorem Chip.put_erasing (c : Chip) (x : RF) (v : Nat) : (c.put x v).erasing = c.erasing := Chip.put_keeps Chip.erasing (fun _ _ => rfl) c x v
@[simp] theorem Chip.put_start (c : Chip) (x : RF) (v : Nat) : (c.put x v).start = c.start := Chip.put_keeps Chip.start (fun _ _ => rfl) c x v
@[simp] theorem Chip.put_startOwn (c : Chip) (x : RF) (v : Nat) : (c.put x v).startOwn = c.startOwn := Chip.put_keeps Chip.startOwn (fun _ _ => rfl) c x v
@[simp] theorem Chip.put_startRings (c : Chip) (x : RF) (v : Nat) : (c.put x v).startRings = c.startRings := Chip.put_keeps Chip.startRings (fun _ _ => rfl) c x v
@[simp] theorem Chip.put_startInst (c : Chip) (x : RF) (v : Nat) : (c.put x v).startInst = c.startInst := Chip.put_keeps Chip.startInst (fun _ _ => rfl) c x v
@[simp] theorem Chip.put_saveArea (c : Chip) (x : RF) (v : Nat) : (c.put x v).saveArea = c.saveArea := Chip.put_keeps Chip.saveArea (fun _ _ => rfl) c x v
@[simp] theorem Chip.put_halted (c : Chip) (x : RF) (v : Nat) : (c.put x v).halted = c.halted := Chip.put_keeps Chip.halted (fun _ _ => rfl) c x v
@[simp] theorem Chip.put_txns (c : Chip) (x : RF) (v : Nat) : (c.put x v).txns = c.txns := Chip.put_keeps Chip.txns (fun _ _ => rfl) c x v
@[simp] theorem Chip.put_txnNext (c : Chip) (x : RF) (v : Nat) : (c.put x v).txnNext = c.txnNext := Chip.put_keeps Chip.txnNext (fun _ _ => rfl) c x v
@[simp] theorem Chip.put_txnSent (c : Chip) (x : RF) (v : Nat) : (c.put x v).txnSent = c.txnSent := Chip.put_keeps Chip.txnSent (fun _ _ => rfl) c x v
@[simp] theorem Chip.put_links (c : Chip) (x : RF) (v : Nat) : (c.put x v).links = c.links := Chip.put_keeps Chip.links (fun _ _ => rfl) c x v
@[simp] theorem Chip.put_farDevs (c : Chip) (x : RF) (v : Nat) : (c.put x v).farDevs = c.farDevs := Chip.put_keeps Chip.farDevs (fun _ _ => rfl) c x v
@[simp] theorem Chip.put_incarnation (c : Chip) (x : RF) (v : Nat) : (c.put x v).incarnation = c.incarnation := Chip.put_keeps Chip.incarnation (fun _ _ => rfl) c x v
@[simp] theorem Chip.put_linkless (c : Chip) (x : RF) (v : Nat) : (c.put x v).linkless = c.linkless := Chip.put_keeps Chip.linkless (fun _ _ => rfl) c x v
@[simp] theorem Chip.put_peerRuns (c : Chip) (x : RF) (v : Nat) : (c.put x v).peerRuns = c.peerRuns := Chip.put_keeps Chip.peerRuns (fun _ _ => rfl) c x v
@[simp] theorem Chip.put_filling (c : Chip) (x : RF) (v : Nat) : (c.put x v).filling = c.filling := Chip.put_keeps Chip.filling (fun _ _ => rfl) c x v
@[simp] theorem Chip.put_msix (c : Chip) (x : RF) (v : Nat) : (c.put x v).msix = c.msix := Chip.put_keeps Chip.msix (fun _ _ => rfl) c x v
@[simp] theorem Chip.put_vfRuns (c : Chip) (x : RF) (v : Nat) : (c.put x v).vfRuns = c.vfRuns := Chip.put_keeps Chip.vfRuns (fun _ _ => rfl) c x v
@[simp] theorem Chip.put_pcieOut (c : Chip) (x : RF) (v : Nat) : (c.put x v).pcieOut = c.pcieOut := Chip.put_keeps Chip.pcieOut (fun _ _ => rfl) c x v
@[simp] theorem Chip.put_power (c : Chip) (x : RF) (v : Nat) : (c.put x v).power = c.power := Chip.put_keeps Chip.power (fun _ _ => rfl) c x v
@[simp] theorem Chip.put_flash (c : Chip) (x : RF) (v : Nat) : (c.put x v).flash = c.flash := Chip.put_keeps Chip.flash (fun _ _ => rfl) c x v
@[simp] theorem Chip.put_ledgerSeq (c : Chip) (x : RF) (v : Nat) : (c.put x v).ledgerSeq = c.ledgerSeq := Chip.put_keeps Chip.ledgerSeq (fun _ _ => rfl) c x v
@[simp] theorem Chip.put_ledgerRead (c : Chip) (x : RF) (v : Nat) : (c.put x v).ledgerRead = c.ledgerRead := Chip.put_keeps Chip.ledgerRead (fun _ _ => rfl) c x v
@[simp] theorem Chip.put_opTime (c : Chip) (x : RF) (v : Nat) : (c.put x v).opTime = c.opTime := Chip.put_keeps Chip.opTime (fun _ _ => rfl) c x v
@[simp] theorem Chip.put_mirrorRuns (c : Chip) (x : RF) (v : Nat) : (c.put x v).mirrorRuns = c.mirrorRuns := Chip.put_keeps Chip.mirrorRuns (fun _ _ => rfl) c x v
@[simp] theorem Chip.put_downSince (c : Chip) (x : RF) (v : Nat) : (c.put x v).downSince = c.downSince := Chip.put_keeps Chip.downSince (fun _ _ => rfl) c x v
@[simp] theorem Chip.put_storeErrs (c : Chip) (x : RF) (v : Nat) : (c.put x v).storeErrs = c.storeErrs := Chip.put_keeps Chip.storeErrs (fun _ _ => rfl) c x v
@[simp] theorem Chip.put_dataRows (c : Chip) (x : RF) (v : Nat) : (c.put x v).dataRows = c.dataRows := Chip.put_keeps Chip.dataRows (fun _ _ => rfl) c x v
@[simp] theorem Chip.put_dieOut (c : Chip) (x : RF) (v : Nat) : (c.put x v).dieOut = c.dieOut := Chip.put_keeps Chip.dieOut (fun _ _ => rfl) c x v

/-! ### `inc` -/

@[simp] theorem Chip.inc_mem (c : Chip) (x : RF) : (c.inc x).mem = c.mem := Chip.inc_keeps Chip.mem (fun _ _ => rfl) c x
@[simp] theorem Chip.inc_garbled (c : Chip) (x : RF) : (c.inc x).garbled = c.garbled := Chip.inc_keeps Chip.garbled (fun _ _ => rfl) c x
@[simp] theorem Chip.inc_poison (c : Chip) (x : RF) : (c.inc x).poison = c.poison := Chip.inc_keeps Chip.poison (fun _ _ => rfl) c x
@[simp] theorem Chip.inc_own (c : Chip) (x : RF) : (c.inc x).own = c.own := Chip.inc_keeps Chip.own (fun _ _ => rfl) c x
@[simp] theorem Chip.inc_holds (c : Chip) (x : RF) : (c.inc x).holds = c.holds := Chip.inc_keeps Chip.holds (fun _ _ => rfl) c x
@[simp] theorem Chip.inc_rings (c : Chip) (x : RF) : (c.inc x).rings = c.rings := Chip.inc_keeps Chip.rings (fun _ _ => rfl) c x
@[simp] theorem Chip.inc_cmds (c : Chip) (x : RF) : (c.inc x).cmds = c.cmds := Chip.inc_keeps Chip.cmds (fun _ _ => rfl) c x
@[simp] theorem Chip.inc_dispatched (c : Chip) (x : RF) : (c.inc x).dispatched = c.dispatched := Chip.inc_keeps Chip.dispatched (fun _ _ => rfl) c x
@[simp] theorem Chip.inc_waits (c : Chip) (x : RF) : (c.inc x).waits = c.waits := Chip.inc_keeps Chip.waits (fun _ _ => rfl) c x
@[simp] theorem Chip.inc_pollRun (c : Chip) (x : RF) : (c.inc x).pollRun = c.pollRun := Chip.inc_keeps Chip.pollRun (fun _ _ => rfl) c x
@[simp] theorem Chip.inc_tb (c : Chip) (x : RF) : (c.inc x).tb = c.tb := Chip.inc_keeps Chip.tb (fun _ _ => rfl) c x
@[simp] theorem Chip.inc_kv (c : Chip) (x : RF) : (c.inc x).kv = c.kv := Chip.inc_keeps Chip.kv (fun _ _ => rfl) c x
@[simp] theorem Chip.inc_down (c : Chip) (x : RF) : (c.inc x).down = c.down := Chip.inc_keeps Chip.down (fun _ _ => rfl) c x
@[simp] theorem Chip.inc_log (c : Chip) (x : RF) : (c.inc x).log = c.log := Chip.inc_keeps Chip.log (fun _ _ => rfl) c x
@[simp] theorem Chip.inc_irqs (c : Chip) (x : RF) : (c.inc x).irqs = c.irqs := Chip.inc_keeps Chip.irqs (fun _ _ => rfl) c x
@[simp] theorem Chip.inc_freeCnt (c : Chip) (x : RF) : (c.inc x).freeCnt = c.freeCnt := Chip.inc_keeps Chip.freeCnt (fun _ _ => rfl) c x
@[simp] theorem Chip.inc_answer (c : Chip) (x : RF) : (c.inc x).answer = c.answer := Chip.inc_keeps Chip.answer (fun _ _ => rfl) c x
@[simp] theorem Chip.inc_slotLock (c : Chip) (x : RF) : (c.inc x).slotLock = c.slotLock := Chip.inc_keeps Chip.slotLock (fun _ _ => rfl) c x
@[simp] theorem Chip.inc_arrays (c : Chip) (x : RF) : (c.inc x).arrays = c.arrays := Chip.inc_keeps Chip.arrays (fun _ _ => rfl) c x
@[simp] theorem Chip.inc_cores (c : Chip) (x : RF) : (c.inc x).cores = c.cores := Chip.inc_keeps Chip.cores (fun _ _ => rfl) c x
@[simp] theorem Chip.inc_benches (c : Chip) (x : RF) : (c.inc x).benches = c.benches := Chip.inc_keeps Chip.benches (fun _ _ => rfl) c x
@[simp] theorem Chip.inc_kvFresh (c : Chip) (x : RF) : (c.inc x).kvFresh = c.kvFresh := Chip.inc_keeps Chip.kvFresh (fun _ _ => rfl) c x
@[simp] theorem Chip.inc_kvBack (c : Chip) (x : RF) : (c.inc x).kvBack = c.kvBack := Chip.inc_keeps Chip.kvBack (fun _ _ => rfl) c x
@[simp] theorem Chip.inc_kvPins (c : Chip) (x : RF) : (c.inc x).kvPins = c.kvPins := Chip.inc_keeps Chip.kvPins (fun _ _ => rfl) c x
@[simp] theorem Chip.inc_pinOps (c : Chip) (x : RF) : (c.inc x).pinOps = c.pinOps := Chip.inc_keeps Chip.pinOps (fun _ _ => rfl) c x
@[simp] theorem Chip.inc_pinWait (c : Chip) (x : RF) : (c.inc x).pinWait = c.pinWait := Chip.inc_keeps Chip.pinWait (fun _ _ => rfl) c x
@[simp] theorem Chip.inc_actx (c : Chip) (x : RF) : (c.inc x).actx = c.actx := Chip.inc_keeps Chip.actx (fun _ _ => rfl) c x
@[simp] theorem Chip.inc_bctx (c : Chip) (x : RF) : (c.inc x).bctx = c.bctx := Chip.inc_keeps Chip.bctx (fun _ _ => rfl) c x
@[simp] theorem Chip.inc_models (c : Chip) (x : RF) : (c.inc x).models = c.models := Chip.inc_keeps Chip.models (fun _ _ => rfl) c x
@[simp] theorem Chip.inc_modelNext (c : Chip) (x : RF) : (c.inc x).modelNext = c.modelNext := Chip.inc_keeps Chip.modelNext (fun _ _ => rfl) c x
@[simp] theorem Chip.inc_boosts (c : Chip) (x : RF) : (c.inc x).boosts = c.boosts := Chip.inc_keeps Chip.boosts (fun _ _ => rfl) c x
@[simp] theorem Chip.inc_partTurns (c : Chip) (x : RF) : (c.inc x).partTurns = c.partTurns := Chip.inc_keeps Chip.partTurns (fun _ _ => rfl) c x
@[simp] theorem Chip.inc_partyTurns (c : Chip) (x : RF) : (c.inc x).partyTurns = c.partyTurns := Chip.inc_keeps Chip.partyTurns (fun _ _ => rfl) c x
@[simp] theorem Chip.inc_blockedAt (c : Chip) (x : RF) : (c.inc x).blockedAt = c.blockedAt := Chip.inc_keeps Chip.blockedAt (fun _ _ => rfl) c x
@[simp] theorem Chip.inc_attnQuanta (c : Chip) (x : RF) : (c.inc x).attnQuanta = c.attnQuanta := Chip.inc_keeps Chip.attnQuanta (fun _ _ => rfl) c x
@[simp] theorem Chip.inc_sharePend (c : Chip) (x : RF) : (c.inc x).sharePend = c.sharePend := Chip.inc_keeps Chip.sharePend (fun _ _ => rfl) c x
@[simp] theorem Chip.inc_viNew (c : Chip) (x : RF) : (c.inc x).viNew = c.viNew := Chip.inc_keeps Chip.viNew (fun _ _ => rfl) c x
@[simp] theorem Chip.inc_viDestroy (c : Chip) (x : RF) : (c.inc x).viDestroy = c.viDestroy := Chip.inc_keeps Chip.viDestroy (fun _ _ => rfl) c x
@[simp] theorem Chip.inc_viStart (c : Chip) (x : RF) : (c.inc x).viStart = c.viStart := Chip.inc_keeps Chip.viStart (fun _ _ => rfl) c x
@[simp] theorem Chip.inc_viSelf (c : Chip) (x : RF) : (c.inc x).viSelf = c.viSelf := Chip.inc_keeps Chip.viSelf (fun _ _ => rfl) c x
@[simp] theorem Chip.inc_viFlr (c : Chip) (x : RF) : (c.inc x).viFlr = c.viFlr := Chip.inc_keeps Chip.viFlr (fun _ _ => rfl) c x
@[simp] theorem Chip.inc_slots (c : Chip) (x : RF) : (c.inc x).slots = c.slots := Chip.inc_keeps Chip.slots (fun _ _ => rfl) c x
@[simp] theorem Chip.inc_slotBase (c : Chip) (x : RF) : (c.inc x).slotBase = c.slotBase := Chip.inc_keeps Chip.slotBase (fun _ _ => rfl) c x
@[simp] theorem Chip.inc_pins (c : Chip) (x : RF) : (c.inc x).pins = c.pins := Chip.inc_keeps Chip.pins (fun _ _ => rfl) c x
@[simp] theorem Chip.inc_frames (c : Chip) (x : RF) : (c.inc x).frames = c.frames := Chip.inc_keeps Chip.frames (fun _ _ => rfl) c x
@[simp] theorem Chip.inc_roughMoved (c : Chip) (x : RF) : (c.inc x).roughMoved = c.roughMoved := Chip.inc_keeps Chip.roughMoved (fun _ _ => rfl) c x
@[simp] theorem Chip.inc_auth (c : Chip) (x : RF) : (c.inc x).auth = c.auth := Chip.inc_keeps Chip.auth (fun _ _ => rfl) c x
@[simp] theorem Chip.inc_authWire (c : Chip) (x : RF) : (c.inc x).authWire = c.authWire := Chip.inc_keeps Chip.authWire (fun _ _ => rfl) c x
@[simp] theorem Chip.inc_gapFrom (c : Chip) (x : RF) : (c.inc x).gapFrom = c.gapFrom := Chip.inc_keeps Chip.gapFrom (fun _ _ => rfl) c x
@[simp] theorem Chip.inc_lastDriver (c : Chip) (x : RF) : (c.inc x).lastDriver = c.lastDriver := Chip.inc_keeps Chip.lastDriver (fun _ _ => rfl) c x
@[simp] theorem Chip.inc_loops (c : Chip) (x : RF) : (c.inc x).loops = c.loops := Chip.inc_keeps Chip.loops (fun _ _ => rfl) c x
@[simp] theorem Chip.inc_steadyCmd (c : Chip) (x : RF) : (c.inc x).steadyCmd = c.steadyCmd := Chip.inc_keeps Chip.steadyCmd (fun _ _ => rfl) c x
@[simp] theorem Chip.inc_env (c : Chip) (x : RF) : (c.inc x).env = c.env := Chip.inc_keeps Chip.env (fun _ _ => rfl) c x
@[simp] theorem Chip.inc_hio (c : Chip) (x : RF) : (c.inc x).hio = c.hio := Chip.inc_keeps Chip.hio (fun _ _ => rfl) c x
@[simp] theorem Chip.inc_gwQueue (c : Chip) (x : RF) : (c.inc x).gwQueue = c.gwQueue := Chip.inc_keeps Chip.gwQueue (fun _ _ => rfl) c x
@[simp] theorem Chip.inc_gwSends (c : Chip) (x : RF) : (c.inc x).gwSends = c.gwSends := Chip.inc_keeps Chip.gwSends (fun _ _ => rfl) c x
@[simp] theorem Chip.inc_gwLate (c : Chip) (x : RF) : (c.inc x).gwLate = c.gwLate := Chip.inc_keeps Chip.gwLate (fun _ _ => rfl) c x
@[simp] theorem Chip.inc_gwRoutes (c : Chip) (x : RF) : (c.inc x).gwRoutes = c.gwRoutes := Chip.inc_keeps Chip.gwRoutes (fun _ _ => rfl) c x
@[simp] theorem Chip.inc_gwTx (c : Chip) (x : RF) : (c.inc x).gwTx = c.gwTx := Chip.inc_keeps Chip.gwTx (fun _ _ => rfl) c x
@[simp] theorem Chip.inc_gwInstant (c : Chip) (x : RF) : (c.inc x).gwInstant = c.gwInstant := Chip.inc_keeps Chip.gwInstant (fun _ _ => rfl) c x
@[simp] theorem Chip.inc_gwCredit (c : Chip) (x : RF) : (c.inc x).gwCredit = c.gwCredit := Chip.inc_keeps Chip.gwCredit (fun _ _ => rfl) c x
@[simp] theorem Chip.inc_gwHeld (c : Chip) (x : RF) : (c.inc x).gwHeld = c.gwHeld := Chip.inc_keeps Chip.gwHeld (fun _ _ => rfl) c x
@[simp] theorem Chip.inc_gwGates (c : Chip) (x : RF) : (c.inc x).gwGates = c.gwGates := Chip.inc_keeps Chip.gwGates (fun _ _ => rfl) c x
@[simp] theorem Chip.inc_gwPulse (c : Chip) (x : RF) : (c.inc x).gwPulse = c.gwPulse := Chip.inc_keeps Chip.gwPulse (fun _ _ => rfl) c x
@[simp] theorem Chip.inc_gwChans (c : Chip) (x : RF) : (c.inc x).gwChans = c.gwChans := Chip.inc_keeps Chip.gwChans (fun _ _ => rfl) c x
@[simp] theorem Chip.inc_cams (c : Chip) (x : RF) : (c.inc x).cams = c.cams := Chip.inc_keeps Chip.cams (fun _ _ => rfl) c x
@[simp] theorem Chip.inc_scans (c : Chip) (x : RF) : (c.inc x).scans = c.scans := Chip.inc_keeps Chip.scans (fun _ _ => rfl) c x
@[simp] theorem Chip.inc_cvuOrder (c : Chip) (x : RF) : (c.inc x).cvuOrder = c.cvuOrder := Chip.inc_keeps Chip.cvuOrder (fun _ _ => rfl) c x
@[simp] theorem Chip.inc_cvuRun (c : Chip) (x : RF) : (c.inc x).cvuRun = c.cvuRun := Chip.inc_keeps Chip.cvuRun (fun _ _ => rfl) c x
@[simp] theorem Chip.inc_time (c : Chip) (x : RF) : (c.inc x).time = c.time := Chip.inc_keeps Chip.time (fun _ _ => rfl) c x
@[simp] theorem Chip.inc_timeWrites (c : Chip) (x : RF) : (c.inc x).timeWrites = c.timeWrites := Chip.inc_keeps Chip.timeWrites (fun _ _ => rfl) c x
@[simp] theorem Chip.inc_ptpTx (c : Chip) (x : RF) : (c.inc x).ptpTx = c.ptpTx := Chip.inc_keeps Chip.ptpTx (fun _ _ => rfl) c x
@[simp] theorem Chip.inc_ptpRx (c : Chip) (x : RF) : (c.inc x).ptpRx = c.ptpRx := Chip.inc_keeps Chip.ptpRx (fun _ _ => rfl) c x
@[simp] theorem Chip.inc_ptpRun (c : Chip) (x : RF) : (c.inc x).ptpRun = c.ptpRun := Chip.inc_keeps Chip.ptpRun (fun _ _ => rfl) c x
@[simp] theorem Chip.inc_gwOut (c : Chip) (x : RF) : (c.inc x).gwOut = c.gwOut := Chip.inc_keeps Chip.gwOut (fun _ _ => rfl) c x
@[simp] theorem Chip.inc_sec (c : Chip) (x : RF) : (c.inc x).sec = c.sec := Chip.inc_keeps Chip.sec (fun _ _ => rfl) c x
@[simp] theorem Chip.inc_rpmb (c : Chip) (x : RF) : (c.inc x).rpmb = c.rpmb := Chip.inc_keeps Chip.rpmb (fun _ _ => rfl) c x
@[simp] theorem Chip.inc_bind (c : Chip) (x : RF) : (c.inc x).bind = c.bind := Chip.inc_keeps Chip.bind (fun _ _ => rfl) c x
@[simp] theorem Chip.inc_ownChg (c : Chip) (x : RF) : (c.inc x).ownChg = c.ownChg := Chip.inc_keeps Chip.ownChg (fun _ _ => rfl) c x
@[simp] theorem Chip.inc_apps (c : Chip) (x : RF) : (c.inc x).apps = c.apps := Chip.inc_keeps Chip.apps (fun _ _ => rfl) c x
@[simp] theorem Chip.inc_erasing (c : Chip) (x : RF) : (c.inc x).erasing = c.erasing := Chip.inc_keeps Chip.erasing (fun _ _ => rfl) c x
@[simp] theorem Chip.inc_start (c : Chip) (x : RF) : (c.inc x).start = c.start := Chip.inc_keeps Chip.start (fun _ _ => rfl) c x
@[simp] theorem Chip.inc_startOwn (c : Chip) (x : RF) : (c.inc x).startOwn = c.startOwn := Chip.inc_keeps Chip.startOwn (fun _ _ => rfl) c x
@[simp] theorem Chip.inc_startRings (c : Chip) (x : RF) : (c.inc x).startRings = c.startRings := Chip.inc_keeps Chip.startRings (fun _ _ => rfl) c x
@[simp] theorem Chip.inc_startInst (c : Chip) (x : RF) : (c.inc x).startInst = c.startInst := Chip.inc_keeps Chip.startInst (fun _ _ => rfl) c x
@[simp] theorem Chip.inc_saveArea (c : Chip) (x : RF) : (c.inc x).saveArea = c.saveArea := Chip.inc_keeps Chip.saveArea (fun _ _ => rfl) c x
@[simp] theorem Chip.inc_halted (c : Chip) (x : RF) : (c.inc x).halted = c.halted := Chip.inc_keeps Chip.halted (fun _ _ => rfl) c x
@[simp] theorem Chip.inc_txns (c : Chip) (x : RF) : (c.inc x).txns = c.txns := Chip.inc_keeps Chip.txns (fun _ _ => rfl) c x
@[simp] theorem Chip.inc_txnNext (c : Chip) (x : RF) : (c.inc x).txnNext = c.txnNext := Chip.inc_keeps Chip.txnNext (fun _ _ => rfl) c x
@[simp] theorem Chip.inc_txnSent (c : Chip) (x : RF) : (c.inc x).txnSent = c.txnSent := Chip.inc_keeps Chip.txnSent (fun _ _ => rfl) c x
@[simp] theorem Chip.inc_links (c : Chip) (x : RF) : (c.inc x).links = c.links := Chip.inc_keeps Chip.links (fun _ _ => rfl) c x
@[simp] theorem Chip.inc_farDevs (c : Chip) (x : RF) : (c.inc x).farDevs = c.farDevs := Chip.inc_keeps Chip.farDevs (fun _ _ => rfl) c x
@[simp] theorem Chip.inc_incarnation (c : Chip) (x : RF) : (c.inc x).incarnation = c.incarnation := Chip.inc_keeps Chip.incarnation (fun _ _ => rfl) c x
@[simp] theorem Chip.inc_linkless (c : Chip) (x : RF) : (c.inc x).linkless = c.linkless := Chip.inc_keeps Chip.linkless (fun _ _ => rfl) c x
@[simp] theorem Chip.inc_peerRuns (c : Chip) (x : RF) : (c.inc x).peerRuns = c.peerRuns := Chip.inc_keeps Chip.peerRuns (fun _ _ => rfl) c x
@[simp] theorem Chip.inc_filling (c : Chip) (x : RF) : (c.inc x).filling = c.filling := Chip.inc_keeps Chip.filling (fun _ _ => rfl) c x
@[simp] theorem Chip.inc_msix (c : Chip) (x : RF) : (c.inc x).msix = c.msix := Chip.inc_keeps Chip.msix (fun _ _ => rfl) c x
@[simp] theorem Chip.inc_vfRuns (c : Chip) (x : RF) : (c.inc x).vfRuns = c.vfRuns := Chip.inc_keeps Chip.vfRuns (fun _ _ => rfl) c x
@[simp] theorem Chip.inc_pcieOut (c : Chip) (x : RF) : (c.inc x).pcieOut = c.pcieOut := Chip.inc_keeps Chip.pcieOut (fun _ _ => rfl) c x
@[simp] theorem Chip.inc_power (c : Chip) (x : RF) : (c.inc x).power = c.power := Chip.inc_keeps Chip.power (fun _ _ => rfl) c x
@[simp] theorem Chip.inc_flash (c : Chip) (x : RF) : (c.inc x).flash = c.flash := Chip.inc_keeps Chip.flash (fun _ _ => rfl) c x
@[simp] theorem Chip.inc_ledgerSeq (c : Chip) (x : RF) : (c.inc x).ledgerSeq = c.ledgerSeq := Chip.inc_keeps Chip.ledgerSeq (fun _ _ => rfl) c x
@[simp] theorem Chip.inc_ledgerRead (c : Chip) (x : RF) : (c.inc x).ledgerRead = c.ledgerRead := Chip.inc_keeps Chip.ledgerRead (fun _ _ => rfl) c x
@[simp] theorem Chip.inc_opTime (c : Chip) (x : RF) : (c.inc x).opTime = c.opTime := Chip.inc_keeps Chip.opTime (fun _ _ => rfl) c x
@[simp] theorem Chip.inc_mirrorRuns (c : Chip) (x : RF) : (c.inc x).mirrorRuns = c.mirrorRuns := Chip.inc_keeps Chip.mirrorRuns (fun _ _ => rfl) c x
@[simp] theorem Chip.inc_downSince (c : Chip) (x : RF) : (c.inc x).downSince = c.downSince := Chip.inc_keeps Chip.downSince (fun _ _ => rfl) c x
@[simp] theorem Chip.inc_storeErrs (c : Chip) (x : RF) : (c.inc x).storeErrs = c.storeErrs := Chip.inc_keeps Chip.storeErrs (fun _ _ => rfl) c x
@[simp] theorem Chip.inc_dataRows (c : Chip) (x : RF) : (c.inc x).dataRows = c.dataRows := Chip.inc_keeps Chip.dataRows (fun _ _ => rfl) c x
@[simp] theorem Chip.inc_dieOut (c : Chip) (x : RF) : (c.inc x).dieOut = c.dieOut := Chip.inc_keeps Chip.dieOut (fun _ _ => rfl) c x

/-! ### `setOwn` -/

@[simp] theorem Chip.setOwn_regs (c : Chip) (i e : Nat) : (c.setOwn i e).regs = c.regs := Chip.setOwn_keeps Chip.regs (fun _ _ => rfl) c i e
@[simp] theorem Chip.setOwn_mem (c : Chip) (i e : Nat) : (c.setOwn i e).mem = c.mem := Chip.setOwn_keeps Chip.mem (fun _ _ => rfl) c i e
@[simp] theorem Chip.setOwn_garbled (c : Chip) (i e : Nat) : (c.setOwn i e).garbled = c.garbled := Chip.setOwn_keeps Chip.garbled (fun _ _ => rfl) c i e
@[simp] theorem Chip.setOwn_poison (c : Chip) (i e : Nat) : (c.setOwn i e).poison = c.poison := Chip.setOwn_keeps Chip.poison (fun _ _ => rfl) c i e
@[simp] theorem Chip.setOwn_holds (c : Chip) (i e : Nat) : (c.setOwn i e).holds = c.holds := Chip.setOwn_keeps Chip.holds (fun _ _ => rfl) c i e
@[simp] theorem Chip.setOwn_rings (c : Chip) (i e : Nat) : (c.setOwn i e).rings = c.rings := Chip.setOwn_keeps Chip.rings (fun _ _ => rfl) c i e
@[simp] theorem Chip.setOwn_cmds (c : Chip) (i e : Nat) : (c.setOwn i e).cmds = c.cmds := Chip.setOwn_keeps Chip.cmds (fun _ _ => rfl) c i e
@[simp] theorem Chip.setOwn_dispatched (c : Chip) (i e : Nat) : (c.setOwn i e).dispatched = c.dispatched := Chip.setOwn_keeps Chip.dispatched (fun _ _ => rfl) c i e
@[simp] theorem Chip.setOwn_waits (c : Chip) (i e : Nat) : (c.setOwn i e).waits = c.waits := Chip.setOwn_keeps Chip.waits (fun _ _ => rfl) c i e
@[simp] theorem Chip.setOwn_pollRun (c : Chip) (i e : Nat) : (c.setOwn i e).pollRun = c.pollRun := Chip.setOwn_keeps Chip.pollRun (fun _ _ => rfl) c i e
@[simp] theorem Chip.setOwn_tb (c : Chip) (i e : Nat) : (c.setOwn i e).tb = c.tb := Chip.setOwn_keeps Chip.tb (fun _ _ => rfl) c i e
@[simp] theorem Chip.setOwn_kv (c : Chip) (i e : Nat) : (c.setOwn i e).kv = c.kv := Chip.setOwn_keeps Chip.kv (fun _ _ => rfl) c i e
@[simp] theorem Chip.setOwn_down (c : Chip) (i e : Nat) : (c.setOwn i e).down = c.down := Chip.setOwn_keeps Chip.down (fun _ _ => rfl) c i e
@[simp] theorem Chip.setOwn_log (c : Chip) (i e : Nat) : (c.setOwn i e).log = c.log := Chip.setOwn_keeps Chip.log (fun _ _ => rfl) c i e
@[simp] theorem Chip.setOwn_irqs (c : Chip) (i e : Nat) : (c.setOwn i e).irqs = c.irqs := Chip.setOwn_keeps Chip.irqs (fun _ _ => rfl) c i e
@[simp] theorem Chip.setOwn_freeCnt (c : Chip) (i e : Nat) : (c.setOwn i e).freeCnt = c.freeCnt := Chip.setOwn_keeps Chip.freeCnt (fun _ _ => rfl) c i e
@[simp] theorem Chip.setOwn_answer (c : Chip) (i e : Nat) : (c.setOwn i e).answer = c.answer := Chip.setOwn_keeps Chip.answer (fun _ _ => rfl) c i e
@[simp] theorem Chip.setOwn_slotLock (c : Chip) (i e : Nat) : (c.setOwn i e).slotLock = c.slotLock := Chip.setOwn_keeps Chip.slotLock (fun _ _ => rfl) c i e
@[simp] theorem Chip.setOwn_arrays (c : Chip) (i e : Nat) : (c.setOwn i e).arrays = c.arrays := Chip.setOwn_keeps Chip.arrays (fun _ _ => rfl) c i e
@[simp] theorem Chip.setOwn_cores (c : Chip) (i e : Nat) : (c.setOwn i e).cores = c.cores := Chip.setOwn_keeps Chip.cores (fun _ _ => rfl) c i e
@[simp] theorem Chip.setOwn_benches (c : Chip) (i e : Nat) : (c.setOwn i e).benches = c.benches := Chip.setOwn_keeps Chip.benches (fun _ _ => rfl) c i e
@[simp] theorem Chip.setOwn_kvFresh (c : Chip) (i e : Nat) : (c.setOwn i e).kvFresh = c.kvFresh := Chip.setOwn_keeps Chip.kvFresh (fun _ _ => rfl) c i e
@[simp] theorem Chip.setOwn_kvBack (c : Chip) (i e : Nat) : (c.setOwn i e).kvBack = c.kvBack := Chip.setOwn_keeps Chip.kvBack (fun _ _ => rfl) c i e
@[simp] theorem Chip.setOwn_kvPins (c : Chip) (i e : Nat) : (c.setOwn i e).kvPins = c.kvPins := Chip.setOwn_keeps Chip.kvPins (fun _ _ => rfl) c i e
@[simp] theorem Chip.setOwn_pinOps (c : Chip) (i e : Nat) : (c.setOwn i e).pinOps = c.pinOps := Chip.setOwn_keeps Chip.pinOps (fun _ _ => rfl) c i e
@[simp] theorem Chip.setOwn_pinWait (c : Chip) (i e : Nat) : (c.setOwn i e).pinWait = c.pinWait := Chip.setOwn_keeps Chip.pinWait (fun _ _ => rfl) c i e
@[simp] theorem Chip.setOwn_actx (c : Chip) (i e : Nat) : (c.setOwn i e).actx = c.actx := Chip.setOwn_keeps Chip.actx (fun _ _ => rfl) c i e
@[simp] theorem Chip.setOwn_bctx (c : Chip) (i e : Nat) : (c.setOwn i e).bctx = c.bctx := Chip.setOwn_keeps Chip.bctx (fun _ _ => rfl) c i e
@[simp] theorem Chip.setOwn_models (c : Chip) (i e : Nat) : (c.setOwn i e).models = c.models := Chip.setOwn_keeps Chip.models (fun _ _ => rfl) c i e
@[simp] theorem Chip.setOwn_modelNext (c : Chip) (i e : Nat) : (c.setOwn i e).modelNext = c.modelNext := Chip.setOwn_keeps Chip.modelNext (fun _ _ => rfl) c i e
@[simp] theorem Chip.setOwn_boosts (c : Chip) (i e : Nat) : (c.setOwn i e).boosts = c.boosts := Chip.setOwn_keeps Chip.boosts (fun _ _ => rfl) c i e
@[simp] theorem Chip.setOwn_partTurns (c : Chip) (i e : Nat) : (c.setOwn i e).partTurns = c.partTurns := Chip.setOwn_keeps Chip.partTurns (fun _ _ => rfl) c i e
@[simp] theorem Chip.setOwn_partyTurns (c : Chip) (i e : Nat) : (c.setOwn i e).partyTurns = c.partyTurns := Chip.setOwn_keeps Chip.partyTurns (fun _ _ => rfl) c i e
@[simp] theorem Chip.setOwn_blockedAt (c : Chip) (i e : Nat) : (c.setOwn i e).blockedAt = c.blockedAt := Chip.setOwn_keeps Chip.blockedAt (fun _ _ => rfl) c i e
@[simp] theorem Chip.setOwn_attnQuanta (c : Chip) (i e : Nat) : (c.setOwn i e).attnQuanta = c.attnQuanta := Chip.setOwn_keeps Chip.attnQuanta (fun _ _ => rfl) c i e
@[simp] theorem Chip.setOwn_sharePend (c : Chip) (i e : Nat) : (c.setOwn i e).sharePend = c.sharePend := Chip.setOwn_keeps Chip.sharePend (fun _ _ => rfl) c i e
@[simp] theorem Chip.setOwn_viNew (c : Chip) (i e : Nat) : (c.setOwn i e).viNew = c.viNew := Chip.setOwn_keeps Chip.viNew (fun _ _ => rfl) c i e
@[simp] theorem Chip.setOwn_viDestroy (c : Chip) (i e : Nat) : (c.setOwn i e).viDestroy = c.viDestroy := Chip.setOwn_keeps Chip.viDestroy (fun _ _ => rfl) c i e
@[simp] theorem Chip.setOwn_viStart (c : Chip) (i e : Nat) : (c.setOwn i e).viStart = c.viStart := Chip.setOwn_keeps Chip.viStart (fun _ _ => rfl) c i e
@[simp] theorem Chip.setOwn_viSelf (c : Chip) (i e : Nat) : (c.setOwn i e).viSelf = c.viSelf := Chip.setOwn_keeps Chip.viSelf (fun _ _ => rfl) c i e
@[simp] theorem Chip.setOwn_viFlr (c : Chip) (i e : Nat) : (c.setOwn i e).viFlr = c.viFlr := Chip.setOwn_keeps Chip.viFlr (fun _ _ => rfl) c i e
@[simp] theorem Chip.setOwn_slots (c : Chip) (i e : Nat) : (c.setOwn i e).slots = c.slots := Chip.setOwn_keeps Chip.slots (fun _ _ => rfl) c i e
@[simp] theorem Chip.setOwn_slotBase (c : Chip) (i e : Nat) : (c.setOwn i e).slotBase = c.slotBase := Chip.setOwn_keeps Chip.slotBase (fun _ _ => rfl) c i e
@[simp] theorem Chip.setOwn_pins (c : Chip) (i e : Nat) : (c.setOwn i e).pins = c.pins := Chip.setOwn_keeps Chip.pins (fun _ _ => rfl) c i e
@[simp] theorem Chip.setOwn_frames (c : Chip) (i e : Nat) : (c.setOwn i e).frames = c.frames := Chip.setOwn_keeps Chip.frames (fun _ _ => rfl) c i e
@[simp] theorem Chip.setOwn_roughMoved (c : Chip) (i e : Nat) : (c.setOwn i e).roughMoved = c.roughMoved := Chip.setOwn_keeps Chip.roughMoved (fun _ _ => rfl) c i e
@[simp] theorem Chip.setOwn_auth (c : Chip) (i e : Nat) : (c.setOwn i e).auth = c.auth := Chip.setOwn_keeps Chip.auth (fun _ _ => rfl) c i e
@[simp] theorem Chip.setOwn_authWire (c : Chip) (i e : Nat) : (c.setOwn i e).authWire = c.authWire := Chip.setOwn_keeps Chip.authWire (fun _ _ => rfl) c i e
@[simp] theorem Chip.setOwn_gapFrom (c : Chip) (i e : Nat) : (c.setOwn i e).gapFrom = c.gapFrom := Chip.setOwn_keeps Chip.gapFrom (fun _ _ => rfl) c i e
@[simp] theorem Chip.setOwn_lastDriver (c : Chip) (i e : Nat) : (c.setOwn i e).lastDriver = c.lastDriver := Chip.setOwn_keeps Chip.lastDriver (fun _ _ => rfl) c i e
@[simp] theorem Chip.setOwn_loops (c : Chip) (i e : Nat) : (c.setOwn i e).loops = c.loops := Chip.setOwn_keeps Chip.loops (fun _ _ => rfl) c i e
@[simp] theorem Chip.setOwn_steadyCmd (c : Chip) (i e : Nat) : (c.setOwn i e).steadyCmd = c.steadyCmd := Chip.setOwn_keeps Chip.steadyCmd (fun _ _ => rfl) c i e
@[simp] theorem Chip.setOwn_env (c : Chip) (i e : Nat) : (c.setOwn i e).env = c.env := Chip.setOwn_keeps Chip.env (fun _ _ => rfl) c i e
@[simp] theorem Chip.setOwn_hio (c : Chip) (i e : Nat) : (c.setOwn i e).hio = c.hio := Chip.setOwn_keeps Chip.hio (fun _ _ => rfl) c i e
@[simp] theorem Chip.setOwn_gwQueue (c : Chip) (i e : Nat) : (c.setOwn i e).gwQueue = c.gwQueue := Chip.setOwn_keeps Chip.gwQueue (fun _ _ => rfl) c i e
@[simp] theorem Chip.setOwn_gwSends (c : Chip) (i e : Nat) : (c.setOwn i e).gwSends = c.gwSends := Chip.setOwn_keeps Chip.gwSends (fun _ _ => rfl) c i e
@[simp] theorem Chip.setOwn_gwLate (c : Chip) (i e : Nat) : (c.setOwn i e).gwLate = c.gwLate := Chip.setOwn_keeps Chip.gwLate (fun _ _ => rfl) c i e
@[simp] theorem Chip.setOwn_gwRoutes (c : Chip) (i e : Nat) : (c.setOwn i e).gwRoutes = c.gwRoutes := Chip.setOwn_keeps Chip.gwRoutes (fun _ _ => rfl) c i e
@[simp] theorem Chip.setOwn_gwTx (c : Chip) (i e : Nat) : (c.setOwn i e).gwTx = c.gwTx := Chip.setOwn_keeps Chip.gwTx (fun _ _ => rfl) c i e
@[simp] theorem Chip.setOwn_gwInstant (c : Chip) (i e : Nat) : (c.setOwn i e).gwInstant = c.gwInstant := Chip.setOwn_keeps Chip.gwInstant (fun _ _ => rfl) c i e
@[simp] theorem Chip.setOwn_gwCredit (c : Chip) (i e : Nat) : (c.setOwn i e).gwCredit = c.gwCredit := Chip.setOwn_keeps Chip.gwCredit (fun _ _ => rfl) c i e
@[simp] theorem Chip.setOwn_gwHeld (c : Chip) (i e : Nat) : (c.setOwn i e).gwHeld = c.gwHeld := Chip.setOwn_keeps Chip.gwHeld (fun _ _ => rfl) c i e
@[simp] theorem Chip.setOwn_gwGates (c : Chip) (i e : Nat) : (c.setOwn i e).gwGates = c.gwGates := Chip.setOwn_keeps Chip.gwGates (fun _ _ => rfl) c i e
@[simp] theorem Chip.setOwn_gwPulse (c : Chip) (i e : Nat) : (c.setOwn i e).gwPulse = c.gwPulse := Chip.setOwn_keeps Chip.gwPulse (fun _ _ => rfl) c i e
@[simp] theorem Chip.setOwn_gwChans (c : Chip) (i e : Nat) : (c.setOwn i e).gwChans = c.gwChans := Chip.setOwn_keeps Chip.gwChans (fun _ _ => rfl) c i e
@[simp] theorem Chip.setOwn_cams (c : Chip) (i e : Nat) : (c.setOwn i e).cams = c.cams := Chip.setOwn_keeps Chip.cams (fun _ _ => rfl) c i e
@[simp] theorem Chip.setOwn_scans (c : Chip) (i e : Nat) : (c.setOwn i e).scans = c.scans := Chip.setOwn_keeps Chip.scans (fun _ _ => rfl) c i e
@[simp] theorem Chip.setOwn_cvuOrder (c : Chip) (i e : Nat) : (c.setOwn i e).cvuOrder = c.cvuOrder := Chip.setOwn_keeps Chip.cvuOrder (fun _ _ => rfl) c i e
@[simp] theorem Chip.setOwn_cvuRun (c : Chip) (i e : Nat) : (c.setOwn i e).cvuRun = c.cvuRun := Chip.setOwn_keeps Chip.cvuRun (fun _ _ => rfl) c i e
@[simp] theorem Chip.setOwn_time (c : Chip) (i e : Nat) : (c.setOwn i e).time = c.time := Chip.setOwn_keeps Chip.time (fun _ _ => rfl) c i e
@[simp] theorem Chip.setOwn_timeWrites (c : Chip) (i e : Nat) : (c.setOwn i e).timeWrites = c.timeWrites := Chip.setOwn_keeps Chip.timeWrites (fun _ _ => rfl) c i e
@[simp] theorem Chip.setOwn_ptpTx (c : Chip) (i e : Nat) : (c.setOwn i e).ptpTx = c.ptpTx := Chip.setOwn_keeps Chip.ptpTx (fun _ _ => rfl) c i e
@[simp] theorem Chip.setOwn_ptpRx (c : Chip) (i e : Nat) : (c.setOwn i e).ptpRx = c.ptpRx := Chip.setOwn_keeps Chip.ptpRx (fun _ _ => rfl) c i e
@[simp] theorem Chip.setOwn_ptpRun (c : Chip) (i e : Nat) : (c.setOwn i e).ptpRun = c.ptpRun := Chip.setOwn_keeps Chip.ptpRun (fun _ _ => rfl) c i e
@[simp] theorem Chip.setOwn_gwOut (c : Chip) (i e : Nat) : (c.setOwn i e).gwOut = c.gwOut := Chip.setOwn_keeps Chip.gwOut (fun _ _ => rfl) c i e
@[simp] theorem Chip.setOwn_sec (c : Chip) (i e : Nat) : (c.setOwn i e).sec = c.sec := Chip.setOwn_keeps Chip.sec (fun _ _ => rfl) c i e
@[simp] theorem Chip.setOwn_rpmb (c : Chip) (i e : Nat) : (c.setOwn i e).rpmb = c.rpmb := Chip.setOwn_keeps Chip.rpmb (fun _ _ => rfl) c i e
@[simp] theorem Chip.setOwn_bind (c : Chip) (i e : Nat) : (c.setOwn i e).bind = c.bind := Chip.setOwn_keeps Chip.bind (fun _ _ => rfl) c i e
@[simp] theorem Chip.setOwn_ownChg (c : Chip) (i e : Nat) : (c.setOwn i e).ownChg = c.ownChg := Chip.setOwn_keeps Chip.ownChg (fun _ _ => rfl) c i e
@[simp] theorem Chip.setOwn_apps (c : Chip) (i e : Nat) : (c.setOwn i e).apps = c.apps := Chip.setOwn_keeps Chip.apps (fun _ _ => rfl) c i e
@[simp] theorem Chip.setOwn_erasing (c : Chip) (i e : Nat) : (c.setOwn i e).erasing = c.erasing := Chip.setOwn_keeps Chip.erasing (fun _ _ => rfl) c i e
@[simp] theorem Chip.setOwn_start (c : Chip) (i e : Nat) : (c.setOwn i e).start = c.start := Chip.setOwn_keeps Chip.start (fun _ _ => rfl) c i e
@[simp] theorem Chip.setOwn_startOwn (c : Chip) (i e : Nat) : (c.setOwn i e).startOwn = c.startOwn := Chip.setOwn_keeps Chip.startOwn (fun _ _ => rfl) c i e
@[simp] theorem Chip.setOwn_startRings (c : Chip) (i e : Nat) : (c.setOwn i e).startRings = c.startRings := Chip.setOwn_keeps Chip.startRings (fun _ _ => rfl) c i e
@[simp] theorem Chip.setOwn_startInst (c : Chip) (i e : Nat) : (c.setOwn i e).startInst = c.startInst := Chip.setOwn_keeps Chip.startInst (fun _ _ => rfl) c i e
@[simp] theorem Chip.setOwn_saveArea (c : Chip) (i e : Nat) : (c.setOwn i e).saveArea = c.saveArea := Chip.setOwn_keeps Chip.saveArea (fun _ _ => rfl) c i e
@[simp] theorem Chip.setOwn_halted (c : Chip) (i e : Nat) : (c.setOwn i e).halted = c.halted := Chip.setOwn_keeps Chip.halted (fun _ _ => rfl) c i e
@[simp] theorem Chip.setOwn_txns (c : Chip) (i e : Nat) : (c.setOwn i e).txns = c.txns := Chip.setOwn_keeps Chip.txns (fun _ _ => rfl) c i e
@[simp] theorem Chip.setOwn_txnNext (c : Chip) (i e : Nat) : (c.setOwn i e).txnNext = c.txnNext := Chip.setOwn_keeps Chip.txnNext (fun _ _ => rfl) c i e
@[simp] theorem Chip.setOwn_txnSent (c : Chip) (i e : Nat) : (c.setOwn i e).txnSent = c.txnSent := Chip.setOwn_keeps Chip.txnSent (fun _ _ => rfl) c i e
@[simp] theorem Chip.setOwn_links (c : Chip) (i e : Nat) : (c.setOwn i e).links = c.links := Chip.setOwn_keeps Chip.links (fun _ _ => rfl) c i e
@[simp] theorem Chip.setOwn_farDevs (c : Chip) (i e : Nat) : (c.setOwn i e).farDevs = c.farDevs := Chip.setOwn_keeps Chip.farDevs (fun _ _ => rfl) c i e
@[simp] theorem Chip.setOwn_incarnation (c : Chip) (i e : Nat) : (c.setOwn i e).incarnation = c.incarnation := Chip.setOwn_keeps Chip.incarnation (fun _ _ => rfl) c i e
@[simp] theorem Chip.setOwn_linkless (c : Chip) (i e : Nat) : (c.setOwn i e).linkless = c.linkless := Chip.setOwn_keeps Chip.linkless (fun _ _ => rfl) c i e
@[simp] theorem Chip.setOwn_peerRuns (c : Chip) (i e : Nat) : (c.setOwn i e).peerRuns = c.peerRuns := Chip.setOwn_keeps Chip.peerRuns (fun _ _ => rfl) c i e
@[simp] theorem Chip.setOwn_filling (c : Chip) (i e : Nat) : (c.setOwn i e).filling = c.filling := Chip.setOwn_keeps Chip.filling (fun _ _ => rfl) c i e
@[simp] theorem Chip.setOwn_msix (c : Chip) (i e : Nat) : (c.setOwn i e).msix = c.msix := Chip.setOwn_keeps Chip.msix (fun _ _ => rfl) c i e
@[simp] theorem Chip.setOwn_vfRuns (c : Chip) (i e : Nat) : (c.setOwn i e).vfRuns = c.vfRuns := Chip.setOwn_keeps Chip.vfRuns (fun _ _ => rfl) c i e
@[simp] theorem Chip.setOwn_pcieOut (c : Chip) (i e : Nat) : (c.setOwn i e).pcieOut = c.pcieOut := Chip.setOwn_keeps Chip.pcieOut (fun _ _ => rfl) c i e
@[simp] theorem Chip.setOwn_power (c : Chip) (i e : Nat) : (c.setOwn i e).power = c.power := Chip.setOwn_keeps Chip.power (fun _ _ => rfl) c i e
@[simp] theorem Chip.setOwn_flash (c : Chip) (i e : Nat) : (c.setOwn i e).flash = c.flash := Chip.setOwn_keeps Chip.flash (fun _ _ => rfl) c i e
@[simp] theorem Chip.setOwn_ledgerSeq (c : Chip) (i e : Nat) : (c.setOwn i e).ledgerSeq = c.ledgerSeq := Chip.setOwn_keeps Chip.ledgerSeq (fun _ _ => rfl) c i e
@[simp] theorem Chip.setOwn_ledgerRead (c : Chip) (i e : Nat) : (c.setOwn i e).ledgerRead = c.ledgerRead := Chip.setOwn_keeps Chip.ledgerRead (fun _ _ => rfl) c i e
@[simp] theorem Chip.setOwn_opTime (c : Chip) (i e : Nat) : (c.setOwn i e).opTime = c.opTime := Chip.setOwn_keeps Chip.opTime (fun _ _ => rfl) c i e
@[simp] theorem Chip.setOwn_mirrorRuns (c : Chip) (i e : Nat) : (c.setOwn i e).mirrorRuns = c.mirrorRuns := Chip.setOwn_keeps Chip.mirrorRuns (fun _ _ => rfl) c i e
@[simp] theorem Chip.setOwn_downSince (c : Chip) (i e : Nat) : (c.setOwn i e).downSince = c.downSince := Chip.setOwn_keeps Chip.downSince (fun _ _ => rfl) c i e
@[simp] theorem Chip.setOwn_storeErrs (c : Chip) (i e : Nat) : (c.setOwn i e).storeErrs = c.storeErrs := Chip.setOwn_keeps Chip.storeErrs (fun _ _ => rfl) c i e
@[simp] theorem Chip.setOwn_dataRows (c : Chip) (i e : Nat) : (c.setOwn i e).dataRows = c.dataRows := Chip.setOwn_keeps Chip.dataRows (fun _ _ => rfl) c i e
@[simp] theorem Chip.setOwn_dieOut (c : Chip) (i e : Nat) : (c.setOwn i e).dieOut = c.dieOut := Chip.setOwn_keeps Chip.dieOut (fun _ _ => rfl) c i e

/-! ### `setCmd` -/

@[simp] theorem Chip.setCmd_regs (c : Chip) (m : Cmd) : (c.setCmd m).regs = c.regs := Chip.setCmd_keeps Chip.regs (fun _ _ => rfl) c m
@[simp] theorem Chip.setCmd_mem (c : Chip) (m : Cmd) : (c.setCmd m).mem = c.mem := Chip.setCmd_keeps Chip.mem (fun _ _ => rfl) c m
@[simp] theorem Chip.setCmd_garbled (c : Chip) (m : Cmd) : (c.setCmd m).garbled = c.garbled := Chip.setCmd_keeps Chip.garbled (fun _ _ => rfl) c m
@[simp] theorem Chip.setCmd_poison (c : Chip) (m : Cmd) : (c.setCmd m).poison = c.poison := Chip.setCmd_keeps Chip.poison (fun _ _ => rfl) c m
@[simp] theorem Chip.setCmd_own (c : Chip) (m : Cmd) : (c.setCmd m).own = c.own := Chip.setCmd_keeps Chip.own (fun _ _ => rfl) c m
@[simp] theorem Chip.setCmd_holds (c : Chip) (m : Cmd) : (c.setCmd m).holds = c.holds := Chip.setCmd_keeps Chip.holds (fun _ _ => rfl) c m
@[simp] theorem Chip.setCmd_rings (c : Chip) (m : Cmd) : (c.setCmd m).rings = c.rings := Chip.setCmd_keeps Chip.rings (fun _ _ => rfl) c m
@[simp] theorem Chip.setCmd_dispatched (c : Chip) (m : Cmd) : (c.setCmd m).dispatched = c.dispatched := Chip.setCmd_keeps Chip.dispatched (fun _ _ => rfl) c m
@[simp] theorem Chip.setCmd_waits (c : Chip) (m : Cmd) : (c.setCmd m).waits = c.waits := Chip.setCmd_keeps Chip.waits (fun _ _ => rfl) c m
@[simp] theorem Chip.setCmd_pollRun (c : Chip) (m : Cmd) : (c.setCmd m).pollRun = c.pollRun := Chip.setCmd_keeps Chip.pollRun (fun _ _ => rfl) c m
@[simp] theorem Chip.setCmd_tb (c : Chip) (m : Cmd) : (c.setCmd m).tb = c.tb := Chip.setCmd_keeps Chip.tb (fun _ _ => rfl) c m
@[simp] theorem Chip.setCmd_kv (c : Chip) (m : Cmd) : (c.setCmd m).kv = c.kv := Chip.setCmd_keeps Chip.kv (fun _ _ => rfl) c m
@[simp] theorem Chip.setCmd_down (c : Chip) (m : Cmd) : (c.setCmd m).down = c.down := Chip.setCmd_keeps Chip.down (fun _ _ => rfl) c m
@[simp] theorem Chip.setCmd_log (c : Chip) (m : Cmd) : (c.setCmd m).log = c.log := Chip.setCmd_keeps Chip.log (fun _ _ => rfl) c m
@[simp] theorem Chip.setCmd_irqs (c : Chip) (m : Cmd) : (c.setCmd m).irqs = c.irqs := Chip.setCmd_keeps Chip.irqs (fun _ _ => rfl) c m
@[simp] theorem Chip.setCmd_freeCnt (c : Chip) (m : Cmd) : (c.setCmd m).freeCnt = c.freeCnt := Chip.setCmd_keeps Chip.freeCnt (fun _ _ => rfl) c m
@[simp] theorem Chip.setCmd_answer (c : Chip) (m : Cmd) : (c.setCmd m).answer = c.answer := Chip.setCmd_keeps Chip.answer (fun _ _ => rfl) c m
@[simp] theorem Chip.setCmd_slotLock (c : Chip) (m : Cmd) : (c.setCmd m).slotLock = c.slotLock := Chip.setCmd_keeps Chip.slotLock (fun _ _ => rfl) c m
@[simp] theorem Chip.setCmd_arrays (c : Chip) (m : Cmd) : (c.setCmd m).arrays = c.arrays := Chip.setCmd_keeps Chip.arrays (fun _ _ => rfl) c m
@[simp] theorem Chip.setCmd_cores (c : Chip) (m : Cmd) : (c.setCmd m).cores = c.cores := Chip.setCmd_keeps Chip.cores (fun _ _ => rfl) c m
@[simp] theorem Chip.setCmd_benches (c : Chip) (m : Cmd) : (c.setCmd m).benches = c.benches := Chip.setCmd_keeps Chip.benches (fun _ _ => rfl) c m
@[simp] theorem Chip.setCmd_kvFresh (c : Chip) (m : Cmd) : (c.setCmd m).kvFresh = c.kvFresh := Chip.setCmd_keeps Chip.kvFresh (fun _ _ => rfl) c m
@[simp] theorem Chip.setCmd_kvBack (c : Chip) (m : Cmd) : (c.setCmd m).kvBack = c.kvBack := Chip.setCmd_keeps Chip.kvBack (fun _ _ => rfl) c m
@[simp] theorem Chip.setCmd_kvPins (c : Chip) (m : Cmd) : (c.setCmd m).kvPins = c.kvPins := Chip.setCmd_keeps Chip.kvPins (fun _ _ => rfl) c m
@[simp] theorem Chip.setCmd_pinOps (c : Chip) (m : Cmd) : (c.setCmd m).pinOps = c.pinOps := Chip.setCmd_keeps Chip.pinOps (fun _ _ => rfl) c m
@[simp] theorem Chip.setCmd_pinWait (c : Chip) (m : Cmd) : (c.setCmd m).pinWait = c.pinWait := Chip.setCmd_keeps Chip.pinWait (fun _ _ => rfl) c m
@[simp] theorem Chip.setCmd_actx (c : Chip) (m : Cmd) : (c.setCmd m).actx = c.actx := Chip.setCmd_keeps Chip.actx (fun _ _ => rfl) c m
@[simp] theorem Chip.setCmd_bctx (c : Chip) (m : Cmd) : (c.setCmd m).bctx = c.bctx := Chip.setCmd_keeps Chip.bctx (fun _ _ => rfl) c m
@[simp] theorem Chip.setCmd_models (c : Chip) (m : Cmd) : (c.setCmd m).models = c.models := Chip.setCmd_keeps Chip.models (fun _ _ => rfl) c m
@[simp] theorem Chip.setCmd_modelNext (c : Chip) (m : Cmd) : (c.setCmd m).modelNext = c.modelNext := Chip.setCmd_keeps Chip.modelNext (fun _ _ => rfl) c m
@[simp] theorem Chip.setCmd_boosts (c : Chip) (m : Cmd) : (c.setCmd m).boosts = c.boosts := Chip.setCmd_keeps Chip.boosts (fun _ _ => rfl) c m
@[simp] theorem Chip.setCmd_partTurns (c : Chip) (m : Cmd) : (c.setCmd m).partTurns = c.partTurns := Chip.setCmd_keeps Chip.partTurns (fun _ _ => rfl) c m
@[simp] theorem Chip.setCmd_partyTurns (c : Chip) (m : Cmd) : (c.setCmd m).partyTurns = c.partyTurns := Chip.setCmd_keeps Chip.partyTurns (fun _ _ => rfl) c m
@[simp] theorem Chip.setCmd_blockedAt (c : Chip) (m : Cmd) : (c.setCmd m).blockedAt = c.blockedAt := Chip.setCmd_keeps Chip.blockedAt (fun _ _ => rfl) c m
@[simp] theorem Chip.setCmd_attnQuanta (c : Chip) (m : Cmd) : (c.setCmd m).attnQuanta = c.attnQuanta := Chip.setCmd_keeps Chip.attnQuanta (fun _ _ => rfl) c m
@[simp] theorem Chip.setCmd_sharePend (c : Chip) (m : Cmd) : (c.setCmd m).sharePend = c.sharePend := Chip.setCmd_keeps Chip.sharePend (fun _ _ => rfl) c m
@[simp] theorem Chip.setCmd_viNew (c : Chip) (m : Cmd) : (c.setCmd m).viNew = c.viNew := Chip.setCmd_keeps Chip.viNew (fun _ _ => rfl) c m
@[simp] theorem Chip.setCmd_viDestroy (c : Chip) (m : Cmd) : (c.setCmd m).viDestroy = c.viDestroy := Chip.setCmd_keeps Chip.viDestroy (fun _ _ => rfl) c m
@[simp] theorem Chip.setCmd_viStart (c : Chip) (m : Cmd) : (c.setCmd m).viStart = c.viStart := Chip.setCmd_keeps Chip.viStart (fun _ _ => rfl) c m
@[simp] theorem Chip.setCmd_viSelf (c : Chip) (m : Cmd) : (c.setCmd m).viSelf = c.viSelf := Chip.setCmd_keeps Chip.viSelf (fun _ _ => rfl) c m
@[simp] theorem Chip.setCmd_viFlr (c : Chip) (m : Cmd) : (c.setCmd m).viFlr = c.viFlr := Chip.setCmd_keeps Chip.viFlr (fun _ _ => rfl) c m
@[simp] theorem Chip.setCmd_slots (c : Chip) (m : Cmd) : (c.setCmd m).slots = c.slots := Chip.setCmd_keeps Chip.slots (fun _ _ => rfl) c m
@[simp] theorem Chip.setCmd_slotBase (c : Chip) (m : Cmd) : (c.setCmd m).slotBase = c.slotBase := Chip.setCmd_keeps Chip.slotBase (fun _ _ => rfl) c m
@[simp] theorem Chip.setCmd_pins (c : Chip) (m : Cmd) : (c.setCmd m).pins = c.pins := Chip.setCmd_keeps Chip.pins (fun _ _ => rfl) c m
@[simp] theorem Chip.setCmd_frames (c : Chip) (m : Cmd) : (c.setCmd m).frames = c.frames := Chip.setCmd_keeps Chip.frames (fun _ _ => rfl) c m
@[simp] theorem Chip.setCmd_roughMoved (c : Chip) (m : Cmd) : (c.setCmd m).roughMoved = c.roughMoved := Chip.setCmd_keeps Chip.roughMoved (fun _ _ => rfl) c m
@[simp] theorem Chip.setCmd_auth (c : Chip) (m : Cmd) : (c.setCmd m).auth = c.auth := Chip.setCmd_keeps Chip.auth (fun _ _ => rfl) c m
@[simp] theorem Chip.setCmd_authWire (c : Chip) (m : Cmd) : (c.setCmd m).authWire = c.authWire := Chip.setCmd_keeps Chip.authWire (fun _ _ => rfl) c m
@[simp] theorem Chip.setCmd_gapFrom (c : Chip) (m : Cmd) : (c.setCmd m).gapFrom = c.gapFrom := Chip.setCmd_keeps Chip.gapFrom (fun _ _ => rfl) c m
@[simp] theorem Chip.setCmd_lastDriver (c : Chip) (m : Cmd) : (c.setCmd m).lastDriver = c.lastDriver := Chip.setCmd_keeps Chip.lastDriver (fun _ _ => rfl) c m
@[simp] theorem Chip.setCmd_loops (c : Chip) (m : Cmd) : (c.setCmd m).loops = c.loops := Chip.setCmd_keeps Chip.loops (fun _ _ => rfl) c m
@[simp] theorem Chip.setCmd_steadyCmd (c : Chip) (m : Cmd) : (c.setCmd m).steadyCmd = c.steadyCmd := Chip.setCmd_keeps Chip.steadyCmd (fun _ _ => rfl) c m
@[simp] theorem Chip.setCmd_env (c : Chip) (m : Cmd) : (c.setCmd m).env = c.env := Chip.setCmd_keeps Chip.env (fun _ _ => rfl) c m
@[simp] theorem Chip.setCmd_hio (c : Chip) (m : Cmd) : (c.setCmd m).hio = c.hio := Chip.setCmd_keeps Chip.hio (fun _ _ => rfl) c m
@[simp] theorem Chip.setCmd_gwQueue (c : Chip) (m : Cmd) : (c.setCmd m).gwQueue = c.gwQueue := Chip.setCmd_keeps Chip.gwQueue (fun _ _ => rfl) c m
@[simp] theorem Chip.setCmd_gwSends (c : Chip) (m : Cmd) : (c.setCmd m).gwSends = c.gwSends := Chip.setCmd_keeps Chip.gwSends (fun _ _ => rfl) c m
@[simp] theorem Chip.setCmd_gwLate (c : Chip) (m : Cmd) : (c.setCmd m).gwLate = c.gwLate := Chip.setCmd_keeps Chip.gwLate (fun _ _ => rfl) c m
@[simp] theorem Chip.setCmd_gwRoutes (c : Chip) (m : Cmd) : (c.setCmd m).gwRoutes = c.gwRoutes := Chip.setCmd_keeps Chip.gwRoutes (fun _ _ => rfl) c m
@[simp] theorem Chip.setCmd_gwTx (c : Chip) (m : Cmd) : (c.setCmd m).gwTx = c.gwTx := Chip.setCmd_keeps Chip.gwTx (fun _ _ => rfl) c m
@[simp] theorem Chip.setCmd_gwInstant (c : Chip) (m : Cmd) : (c.setCmd m).gwInstant = c.gwInstant := Chip.setCmd_keeps Chip.gwInstant (fun _ _ => rfl) c m
@[simp] theorem Chip.setCmd_gwCredit (c : Chip) (m : Cmd) : (c.setCmd m).gwCredit = c.gwCredit := Chip.setCmd_keeps Chip.gwCredit (fun _ _ => rfl) c m
@[simp] theorem Chip.setCmd_gwHeld (c : Chip) (m : Cmd) : (c.setCmd m).gwHeld = c.gwHeld := Chip.setCmd_keeps Chip.gwHeld (fun _ _ => rfl) c m
@[simp] theorem Chip.setCmd_gwGates (c : Chip) (m : Cmd) : (c.setCmd m).gwGates = c.gwGates := Chip.setCmd_keeps Chip.gwGates (fun _ _ => rfl) c m
@[simp] theorem Chip.setCmd_gwPulse (c : Chip) (m : Cmd) : (c.setCmd m).gwPulse = c.gwPulse := Chip.setCmd_keeps Chip.gwPulse (fun _ _ => rfl) c m
@[simp] theorem Chip.setCmd_gwChans (c : Chip) (m : Cmd) : (c.setCmd m).gwChans = c.gwChans := Chip.setCmd_keeps Chip.gwChans (fun _ _ => rfl) c m
@[simp] theorem Chip.setCmd_cams (c : Chip) (m : Cmd) : (c.setCmd m).cams = c.cams := Chip.setCmd_keeps Chip.cams (fun _ _ => rfl) c m
@[simp] theorem Chip.setCmd_scans (c : Chip) (m : Cmd) : (c.setCmd m).scans = c.scans := Chip.setCmd_keeps Chip.scans (fun _ _ => rfl) c m
@[simp] theorem Chip.setCmd_cvuOrder (c : Chip) (m : Cmd) : (c.setCmd m).cvuOrder = c.cvuOrder := Chip.setCmd_keeps Chip.cvuOrder (fun _ _ => rfl) c m
@[simp] theorem Chip.setCmd_cvuRun (c : Chip) (m : Cmd) : (c.setCmd m).cvuRun = c.cvuRun := Chip.setCmd_keeps Chip.cvuRun (fun _ _ => rfl) c m
@[simp] theorem Chip.setCmd_time (c : Chip) (m : Cmd) : (c.setCmd m).time = c.time := Chip.setCmd_keeps Chip.time (fun _ _ => rfl) c m
@[simp] theorem Chip.setCmd_timeWrites (c : Chip) (m : Cmd) : (c.setCmd m).timeWrites = c.timeWrites := Chip.setCmd_keeps Chip.timeWrites (fun _ _ => rfl) c m
@[simp] theorem Chip.setCmd_ptpTx (c : Chip) (m : Cmd) : (c.setCmd m).ptpTx = c.ptpTx := Chip.setCmd_keeps Chip.ptpTx (fun _ _ => rfl) c m
@[simp] theorem Chip.setCmd_ptpRx (c : Chip) (m : Cmd) : (c.setCmd m).ptpRx = c.ptpRx := Chip.setCmd_keeps Chip.ptpRx (fun _ _ => rfl) c m
@[simp] theorem Chip.setCmd_ptpRun (c : Chip) (m : Cmd) : (c.setCmd m).ptpRun = c.ptpRun := Chip.setCmd_keeps Chip.ptpRun (fun _ _ => rfl) c m
@[simp] theorem Chip.setCmd_gwOut (c : Chip) (m : Cmd) : (c.setCmd m).gwOut = c.gwOut := Chip.setCmd_keeps Chip.gwOut (fun _ _ => rfl) c m
@[simp] theorem Chip.setCmd_sec (c : Chip) (m : Cmd) : (c.setCmd m).sec = c.sec := Chip.setCmd_keeps Chip.sec (fun _ _ => rfl) c m
@[simp] theorem Chip.setCmd_rpmb (c : Chip) (m : Cmd) : (c.setCmd m).rpmb = c.rpmb := Chip.setCmd_keeps Chip.rpmb (fun _ _ => rfl) c m
@[simp] theorem Chip.setCmd_bind (c : Chip) (m : Cmd) : (c.setCmd m).bind = c.bind := Chip.setCmd_keeps Chip.bind (fun _ _ => rfl) c m
@[simp] theorem Chip.setCmd_ownChg (c : Chip) (m : Cmd) : (c.setCmd m).ownChg = c.ownChg := Chip.setCmd_keeps Chip.ownChg (fun _ _ => rfl) c m
@[simp] theorem Chip.setCmd_apps (c : Chip) (m : Cmd) : (c.setCmd m).apps = c.apps := Chip.setCmd_keeps Chip.apps (fun _ _ => rfl) c m
@[simp] theorem Chip.setCmd_erasing (c : Chip) (m : Cmd) : (c.setCmd m).erasing = c.erasing := Chip.setCmd_keeps Chip.erasing (fun _ _ => rfl) c m
@[simp] theorem Chip.setCmd_start (c : Chip) (m : Cmd) : (c.setCmd m).start = c.start := Chip.setCmd_keeps Chip.start (fun _ _ => rfl) c m
@[simp] theorem Chip.setCmd_startOwn (c : Chip) (m : Cmd) : (c.setCmd m).startOwn = c.startOwn := Chip.setCmd_keeps Chip.startOwn (fun _ _ => rfl) c m
@[simp] theorem Chip.setCmd_startRings (c : Chip) (m : Cmd) : (c.setCmd m).startRings = c.startRings := Chip.setCmd_keeps Chip.startRings (fun _ _ => rfl) c m
@[simp] theorem Chip.setCmd_startInst (c : Chip) (m : Cmd) : (c.setCmd m).startInst = c.startInst := Chip.setCmd_keeps Chip.startInst (fun _ _ => rfl) c m
@[simp] theorem Chip.setCmd_saveArea (c : Chip) (m : Cmd) : (c.setCmd m).saveArea = c.saveArea := Chip.setCmd_keeps Chip.saveArea (fun _ _ => rfl) c m
@[simp] theorem Chip.setCmd_halted (c : Chip) (m : Cmd) : (c.setCmd m).halted = c.halted := Chip.setCmd_keeps Chip.halted (fun _ _ => rfl) c m
@[simp] theorem Chip.setCmd_txns (c : Chip) (m : Cmd) : (c.setCmd m).txns = c.txns := Chip.setCmd_keeps Chip.txns (fun _ _ => rfl) c m
@[simp] theorem Chip.setCmd_txnNext (c : Chip) (m : Cmd) : (c.setCmd m).txnNext = c.txnNext := Chip.setCmd_keeps Chip.txnNext (fun _ _ => rfl) c m
@[simp] theorem Chip.setCmd_txnSent (c : Chip) (m : Cmd) : (c.setCmd m).txnSent = c.txnSent := Chip.setCmd_keeps Chip.txnSent (fun _ _ => rfl) c m
@[simp] theorem Chip.setCmd_links (c : Chip) (m : Cmd) : (c.setCmd m).links = c.links := Chip.setCmd_keeps Chip.links (fun _ _ => rfl) c m
@[simp] theorem Chip.setCmd_farDevs (c : Chip) (m : Cmd) : (c.setCmd m).farDevs = c.farDevs := Chip.setCmd_keeps Chip.farDevs (fun _ _ => rfl) c m
@[simp] theorem Chip.setCmd_incarnation (c : Chip) (m : Cmd) : (c.setCmd m).incarnation = c.incarnation := Chip.setCmd_keeps Chip.incarnation (fun _ _ => rfl) c m
@[simp] theorem Chip.setCmd_linkless (c : Chip) (m : Cmd) : (c.setCmd m).linkless = c.linkless := Chip.setCmd_keeps Chip.linkless (fun _ _ => rfl) c m
@[simp] theorem Chip.setCmd_peerRuns (c : Chip) (m : Cmd) : (c.setCmd m).peerRuns = c.peerRuns := Chip.setCmd_keeps Chip.peerRuns (fun _ _ => rfl) c m
@[simp] theorem Chip.setCmd_filling (c : Chip) (m : Cmd) : (c.setCmd m).filling = c.filling := Chip.setCmd_keeps Chip.filling (fun _ _ => rfl) c m
@[simp] theorem Chip.setCmd_msix (c : Chip) (m : Cmd) : (c.setCmd m).msix = c.msix := Chip.setCmd_keeps Chip.msix (fun _ _ => rfl) c m
@[simp] theorem Chip.setCmd_vfRuns (c : Chip) (m : Cmd) : (c.setCmd m).vfRuns = c.vfRuns := Chip.setCmd_keeps Chip.vfRuns (fun _ _ => rfl) c m
@[simp] theorem Chip.setCmd_pcieOut (c : Chip) (m : Cmd) : (c.setCmd m).pcieOut = c.pcieOut := Chip.setCmd_keeps Chip.pcieOut (fun _ _ => rfl) c m
@[simp] theorem Chip.setCmd_power (c : Chip) (m : Cmd) : (c.setCmd m).power = c.power := Chip.setCmd_keeps Chip.power (fun _ _ => rfl) c m
@[simp] theorem Chip.setCmd_flash (c : Chip) (m : Cmd) : (c.setCmd m).flash = c.flash := Chip.setCmd_keeps Chip.flash (fun _ _ => rfl) c m
@[simp] theorem Chip.setCmd_ledgerSeq (c : Chip) (m : Cmd) : (c.setCmd m).ledgerSeq = c.ledgerSeq := Chip.setCmd_keeps Chip.ledgerSeq (fun _ _ => rfl) c m
@[simp] theorem Chip.setCmd_ledgerRead (c : Chip) (m : Cmd) : (c.setCmd m).ledgerRead = c.ledgerRead := Chip.setCmd_keeps Chip.ledgerRead (fun _ _ => rfl) c m
@[simp] theorem Chip.setCmd_opTime (c : Chip) (m : Cmd) : (c.setCmd m).opTime = c.opTime := Chip.setCmd_keeps Chip.opTime (fun _ _ => rfl) c m
@[simp] theorem Chip.setCmd_mirrorRuns (c : Chip) (m : Cmd) : (c.setCmd m).mirrorRuns = c.mirrorRuns := Chip.setCmd_keeps Chip.mirrorRuns (fun _ _ => rfl) c m
@[simp] theorem Chip.setCmd_downSince (c : Chip) (m : Cmd) : (c.setCmd m).downSince = c.downSince := Chip.setCmd_keeps Chip.downSince (fun _ _ => rfl) c m
@[simp] theorem Chip.setCmd_storeErrs (c : Chip) (m : Cmd) : (c.setCmd m).storeErrs = c.storeErrs := Chip.setCmd_keeps Chip.storeErrs (fun _ _ => rfl) c m
@[simp] theorem Chip.setCmd_dataRows (c : Chip) (m : Cmd) : (c.setCmd m).dataRows = c.dataRows := Chip.setCmd_keeps Chip.dataRows (fun _ _ => rfl) c m
@[simp] theorem Chip.setCmd_dieOut (c : Chip) (m : Cmd) : (c.setCmd m).dieOut = c.dieOut := Chip.setCmd_keeps Chip.dieOut (fun _ _ => rfl) c m

/-! ### `setRingSt` -/

@[simp] theorem Chip.setRingSt_regs (c : Chip) (r : Nat) (x : RingSt) : (c.setRingSt r x).regs = c.regs := Chip.setRingSt_keeps Chip.regs (fun _ _ => rfl) c r x
@[simp] theorem Chip.setRingSt_mem (c : Chip) (r : Nat) (x : RingSt) : (c.setRingSt r x).mem = c.mem := Chip.setRingSt_keeps Chip.mem (fun _ _ => rfl) c r x
@[simp] theorem Chip.setRingSt_garbled (c : Chip) (r : Nat) (x : RingSt) : (c.setRingSt r x).garbled = c.garbled := Chip.setRingSt_keeps Chip.garbled (fun _ _ => rfl) c r x
@[simp] theorem Chip.setRingSt_poison (c : Chip) (r : Nat) (x : RingSt) : (c.setRingSt r x).poison = c.poison := Chip.setRingSt_keeps Chip.poison (fun _ _ => rfl) c r x
@[simp] theorem Chip.setRingSt_own (c : Chip) (r : Nat) (x : RingSt) : (c.setRingSt r x).own = c.own := Chip.setRingSt_keeps Chip.own (fun _ _ => rfl) c r x
@[simp] theorem Chip.setRingSt_holds (c : Chip) (r : Nat) (x : RingSt) : (c.setRingSt r x).holds = c.holds := Chip.setRingSt_keeps Chip.holds (fun _ _ => rfl) c r x
@[simp] theorem Chip.setRingSt_cmds (c : Chip) (r : Nat) (x : RingSt) : (c.setRingSt r x).cmds = c.cmds := Chip.setRingSt_keeps Chip.cmds (fun _ _ => rfl) c r x
@[simp] theorem Chip.setRingSt_dispatched (c : Chip) (r : Nat) (x : RingSt) : (c.setRingSt r x).dispatched = c.dispatched := Chip.setRingSt_keeps Chip.dispatched (fun _ _ => rfl) c r x
@[simp] theorem Chip.setRingSt_waits (c : Chip) (r : Nat) (x : RingSt) : (c.setRingSt r x).waits = c.waits := Chip.setRingSt_keeps Chip.waits (fun _ _ => rfl) c r x
@[simp] theorem Chip.setRingSt_pollRun (c : Chip) (r : Nat) (x : RingSt) : (c.setRingSt r x).pollRun = c.pollRun := Chip.setRingSt_keeps Chip.pollRun (fun _ _ => rfl) c r x
@[simp] theorem Chip.setRingSt_tb (c : Chip) (r : Nat) (x : RingSt) : (c.setRingSt r x).tb = c.tb := Chip.setRingSt_keeps Chip.tb (fun _ _ => rfl) c r x
@[simp] theorem Chip.setRingSt_kv (c : Chip) (r : Nat) (x : RingSt) : (c.setRingSt r x).kv = c.kv := Chip.setRingSt_keeps Chip.kv (fun _ _ => rfl) c r x
@[simp] theorem Chip.setRingSt_down (c : Chip) (r : Nat) (x : RingSt) : (c.setRingSt r x).down = c.down := Chip.setRingSt_keeps Chip.down (fun _ _ => rfl) c r x
@[simp] theorem Chip.setRingSt_log (c : Chip) (r : Nat) (x : RingSt) : (c.setRingSt r x).log = c.log := Chip.setRingSt_keeps Chip.log (fun _ _ => rfl) c r x
@[simp] theorem Chip.setRingSt_irqs (c : Chip) (r : Nat) (x : RingSt) : (c.setRingSt r x).irqs = c.irqs := Chip.setRingSt_keeps Chip.irqs (fun _ _ => rfl) c r x
@[simp] theorem Chip.setRingSt_freeCnt (c : Chip) (r : Nat) (x : RingSt) : (c.setRingSt r x).freeCnt = c.freeCnt := Chip.setRingSt_keeps Chip.freeCnt (fun _ _ => rfl) c r x
@[simp] theorem Chip.setRingSt_answer (c : Chip) (r : Nat) (x : RingSt) : (c.setRingSt r x).answer = c.answer := Chip.setRingSt_keeps Chip.answer (fun _ _ => rfl) c r x
@[simp] theorem Chip.setRingSt_slotLock (c : Chip) (r : Nat) (x : RingSt) : (c.setRingSt r x).slotLock = c.slotLock := Chip.setRingSt_keeps Chip.slotLock (fun _ _ => rfl) c r x
@[simp] theorem Chip.setRingSt_arrays (c : Chip) (r : Nat) (x : RingSt) : (c.setRingSt r x).arrays = c.arrays := Chip.setRingSt_keeps Chip.arrays (fun _ _ => rfl) c r x
@[simp] theorem Chip.setRingSt_cores (c : Chip) (r : Nat) (x : RingSt) : (c.setRingSt r x).cores = c.cores := Chip.setRingSt_keeps Chip.cores (fun _ _ => rfl) c r x
@[simp] theorem Chip.setRingSt_benches (c : Chip) (r : Nat) (x : RingSt) : (c.setRingSt r x).benches = c.benches := Chip.setRingSt_keeps Chip.benches (fun _ _ => rfl) c r x
@[simp] theorem Chip.setRingSt_kvFresh (c : Chip) (r : Nat) (x : RingSt) : (c.setRingSt r x).kvFresh = c.kvFresh := Chip.setRingSt_keeps Chip.kvFresh (fun _ _ => rfl) c r x
@[simp] theorem Chip.setRingSt_kvBack (c : Chip) (r : Nat) (x : RingSt) : (c.setRingSt r x).kvBack = c.kvBack := Chip.setRingSt_keeps Chip.kvBack (fun _ _ => rfl) c r x
@[simp] theorem Chip.setRingSt_kvPins (c : Chip) (r : Nat) (x : RingSt) : (c.setRingSt r x).kvPins = c.kvPins := Chip.setRingSt_keeps Chip.kvPins (fun _ _ => rfl) c r x
@[simp] theorem Chip.setRingSt_pinOps (c : Chip) (r : Nat) (x : RingSt) : (c.setRingSt r x).pinOps = c.pinOps := Chip.setRingSt_keeps Chip.pinOps (fun _ _ => rfl) c r x
@[simp] theorem Chip.setRingSt_pinWait (c : Chip) (r : Nat) (x : RingSt) : (c.setRingSt r x).pinWait = c.pinWait := Chip.setRingSt_keeps Chip.pinWait (fun _ _ => rfl) c r x
@[simp] theorem Chip.setRingSt_actx (c : Chip) (r : Nat) (x : RingSt) : (c.setRingSt r x).actx = c.actx := Chip.setRingSt_keeps Chip.actx (fun _ _ => rfl) c r x
@[simp] theorem Chip.setRingSt_bctx (c : Chip) (r : Nat) (x : RingSt) : (c.setRingSt r x).bctx = c.bctx := Chip.setRingSt_keeps Chip.bctx (fun _ _ => rfl) c r x
@[simp] theorem Chip.setRingSt_models (c : Chip) (r : Nat) (x : RingSt) : (c.setRingSt r x).models = c.models := Chip.setRingSt_keeps Chip.models (fun _ _ => rfl) c r x
@[simp] theorem Chip.setRingSt_modelNext (c : Chip) (r : Nat) (x : RingSt) : (c.setRingSt r x).modelNext = c.modelNext := Chip.setRingSt_keeps Chip.modelNext (fun _ _ => rfl) c r x
@[simp] theorem Chip.setRingSt_boosts (c : Chip) (r : Nat) (x : RingSt) : (c.setRingSt r x).boosts = c.boosts := Chip.setRingSt_keeps Chip.boosts (fun _ _ => rfl) c r x
@[simp] theorem Chip.setRingSt_partTurns (c : Chip) (r : Nat) (x : RingSt) : (c.setRingSt r x).partTurns = c.partTurns := Chip.setRingSt_keeps Chip.partTurns (fun _ _ => rfl) c r x
@[simp] theorem Chip.setRingSt_partyTurns (c : Chip) (r : Nat) (x : RingSt) : (c.setRingSt r x).partyTurns = c.partyTurns := Chip.setRingSt_keeps Chip.partyTurns (fun _ _ => rfl) c r x
@[simp] theorem Chip.setRingSt_blockedAt (c : Chip) (r : Nat) (x : RingSt) : (c.setRingSt r x).blockedAt = c.blockedAt := Chip.setRingSt_keeps Chip.blockedAt (fun _ _ => rfl) c r x
@[simp] theorem Chip.setRingSt_attnQuanta (c : Chip) (r : Nat) (x : RingSt) : (c.setRingSt r x).attnQuanta = c.attnQuanta := Chip.setRingSt_keeps Chip.attnQuanta (fun _ _ => rfl) c r x
@[simp] theorem Chip.setRingSt_sharePend (c : Chip) (r : Nat) (x : RingSt) : (c.setRingSt r x).sharePend = c.sharePend := Chip.setRingSt_keeps Chip.sharePend (fun _ _ => rfl) c r x
@[simp] theorem Chip.setRingSt_viNew (c : Chip) (r : Nat) (x : RingSt) : (c.setRingSt r x).viNew = c.viNew := Chip.setRingSt_keeps Chip.viNew (fun _ _ => rfl) c r x
@[simp] theorem Chip.setRingSt_viDestroy (c : Chip) (r : Nat) (x : RingSt) : (c.setRingSt r x).viDestroy = c.viDestroy := Chip.setRingSt_keeps Chip.viDestroy (fun _ _ => rfl) c r x
@[simp] theorem Chip.setRingSt_viStart (c : Chip) (r : Nat) (x : RingSt) : (c.setRingSt r x).viStart = c.viStart := Chip.setRingSt_keeps Chip.viStart (fun _ _ => rfl) c r x
@[simp] theorem Chip.setRingSt_viSelf (c : Chip) (r : Nat) (x : RingSt) : (c.setRingSt r x).viSelf = c.viSelf := Chip.setRingSt_keeps Chip.viSelf (fun _ _ => rfl) c r x
@[simp] theorem Chip.setRingSt_viFlr (c : Chip) (r : Nat) (x : RingSt) : (c.setRingSt r x).viFlr = c.viFlr := Chip.setRingSt_keeps Chip.viFlr (fun _ _ => rfl) c r x
@[simp] theorem Chip.setRingSt_slots (c : Chip) (r : Nat) (x : RingSt) : (c.setRingSt r x).slots = c.slots := Chip.setRingSt_keeps Chip.slots (fun _ _ => rfl) c r x
@[simp] theorem Chip.setRingSt_slotBase (c : Chip) (r : Nat) (x : RingSt) : (c.setRingSt r x).slotBase = c.slotBase := Chip.setRingSt_keeps Chip.slotBase (fun _ _ => rfl) c r x
@[simp] theorem Chip.setRingSt_pins (c : Chip) (r : Nat) (x : RingSt) : (c.setRingSt r x).pins = c.pins := Chip.setRingSt_keeps Chip.pins (fun _ _ => rfl) c r x
@[simp] theorem Chip.setRingSt_frames (c : Chip) (r : Nat) (x : RingSt) : (c.setRingSt r x).frames = c.frames := Chip.setRingSt_keeps Chip.frames (fun _ _ => rfl) c r x
@[simp] theorem Chip.setRingSt_roughMoved (c : Chip) (r : Nat) (x : RingSt) : (c.setRingSt r x).roughMoved = c.roughMoved := Chip.setRingSt_keeps Chip.roughMoved (fun _ _ => rfl) c r x
@[simp] theorem Chip.setRingSt_auth (c : Chip) (r : Nat) (x : RingSt) : (c.setRingSt r x).auth = c.auth := Chip.setRingSt_keeps Chip.auth (fun _ _ => rfl) c r x
@[simp] theorem Chip.setRingSt_authWire (c : Chip) (r : Nat) (x : RingSt) : (c.setRingSt r x).authWire = c.authWire := Chip.setRingSt_keeps Chip.authWire (fun _ _ => rfl) c r x
@[simp] theorem Chip.setRingSt_gapFrom (c : Chip) (r : Nat) (x : RingSt) : (c.setRingSt r x).gapFrom = c.gapFrom := Chip.setRingSt_keeps Chip.gapFrom (fun _ _ => rfl) c r x
@[simp] theorem Chip.setRingSt_lastDriver (c : Chip) (r : Nat) (x : RingSt) : (c.setRingSt r x).lastDriver = c.lastDriver := Chip.setRingSt_keeps Chip.lastDriver (fun _ _ => rfl) c r x
@[simp] theorem Chip.setRingSt_loops (c : Chip) (r : Nat) (x : RingSt) : (c.setRingSt r x).loops = c.loops := Chip.setRingSt_keeps Chip.loops (fun _ _ => rfl) c r x
@[simp] theorem Chip.setRingSt_steadyCmd (c : Chip) (r : Nat) (x : RingSt) : (c.setRingSt r x).steadyCmd = c.steadyCmd := Chip.setRingSt_keeps Chip.steadyCmd (fun _ _ => rfl) c r x
@[simp] theorem Chip.setRingSt_env (c : Chip) (r : Nat) (x : RingSt) : (c.setRingSt r x).env = c.env := Chip.setRingSt_keeps Chip.env (fun _ _ => rfl) c r x
@[simp] theorem Chip.setRingSt_hio (c : Chip) (r : Nat) (x : RingSt) : (c.setRingSt r x).hio = c.hio := Chip.setRingSt_keeps Chip.hio (fun _ _ => rfl) c r x
@[simp] theorem Chip.setRingSt_gwQueue (c : Chip) (r : Nat) (x : RingSt) : (c.setRingSt r x).gwQueue = c.gwQueue := Chip.setRingSt_keeps Chip.gwQueue (fun _ _ => rfl) c r x
@[simp] theorem Chip.setRingSt_gwSends (c : Chip) (r : Nat) (x : RingSt) : (c.setRingSt r x).gwSends = c.gwSends := Chip.setRingSt_keeps Chip.gwSends (fun _ _ => rfl) c r x
@[simp] theorem Chip.setRingSt_gwLate (c : Chip) (r : Nat) (x : RingSt) : (c.setRingSt r x).gwLate = c.gwLate := Chip.setRingSt_keeps Chip.gwLate (fun _ _ => rfl) c r x
@[simp] theorem Chip.setRingSt_gwRoutes (c : Chip) (r : Nat) (x : RingSt) : (c.setRingSt r x).gwRoutes = c.gwRoutes := Chip.setRingSt_keeps Chip.gwRoutes (fun _ _ => rfl) c r x
@[simp] theorem Chip.setRingSt_gwTx (c : Chip) (r : Nat) (x : RingSt) : (c.setRingSt r x).gwTx = c.gwTx := Chip.setRingSt_keeps Chip.gwTx (fun _ _ => rfl) c r x
@[simp] theorem Chip.setRingSt_gwInstant (c : Chip) (r : Nat) (x : RingSt) : (c.setRingSt r x).gwInstant = c.gwInstant := Chip.setRingSt_keeps Chip.gwInstant (fun _ _ => rfl) c r x
@[simp] theorem Chip.setRingSt_gwCredit (c : Chip) (r : Nat) (x : RingSt) : (c.setRingSt r x).gwCredit = c.gwCredit := Chip.setRingSt_keeps Chip.gwCredit (fun _ _ => rfl) c r x
@[simp] theorem Chip.setRingSt_gwHeld (c : Chip) (r : Nat) (x : RingSt) : (c.setRingSt r x).gwHeld = c.gwHeld := Chip.setRingSt_keeps Chip.gwHeld (fun _ _ => rfl) c r x
@[simp] theorem Chip.setRingSt_gwGates (c : Chip) (r : Nat) (x : RingSt) : (c.setRingSt r x).gwGates = c.gwGates := Chip.setRingSt_keeps Chip.gwGates (fun _ _ => rfl) c r x
@[simp] theorem Chip.setRingSt_gwPulse (c : Chip) (r : Nat) (x : RingSt) : (c.setRingSt r x).gwPulse = c.gwPulse := Chip.setRingSt_keeps Chip.gwPulse (fun _ _ => rfl) c r x
@[simp] theorem Chip.setRingSt_gwChans (c : Chip) (r : Nat) (x : RingSt) : (c.setRingSt r x).gwChans = c.gwChans := Chip.setRingSt_keeps Chip.gwChans (fun _ _ => rfl) c r x
@[simp] theorem Chip.setRingSt_cams (c : Chip) (r : Nat) (x : RingSt) : (c.setRingSt r x).cams = c.cams := Chip.setRingSt_keeps Chip.cams (fun _ _ => rfl) c r x
@[simp] theorem Chip.setRingSt_scans (c : Chip) (r : Nat) (x : RingSt) : (c.setRingSt r x).scans = c.scans := Chip.setRingSt_keeps Chip.scans (fun _ _ => rfl) c r x
@[simp] theorem Chip.setRingSt_cvuOrder (c : Chip) (r : Nat) (x : RingSt) : (c.setRingSt r x).cvuOrder = c.cvuOrder := Chip.setRingSt_keeps Chip.cvuOrder (fun _ _ => rfl) c r x
@[simp] theorem Chip.setRingSt_cvuRun (c : Chip) (r : Nat) (x : RingSt) : (c.setRingSt r x).cvuRun = c.cvuRun := Chip.setRingSt_keeps Chip.cvuRun (fun _ _ => rfl) c r x
@[simp] theorem Chip.setRingSt_time (c : Chip) (r : Nat) (x : RingSt) : (c.setRingSt r x).time = c.time := Chip.setRingSt_keeps Chip.time (fun _ _ => rfl) c r x
@[simp] theorem Chip.setRingSt_timeWrites (c : Chip) (r : Nat) (x : RingSt) : (c.setRingSt r x).timeWrites = c.timeWrites := Chip.setRingSt_keeps Chip.timeWrites (fun _ _ => rfl) c r x
@[simp] theorem Chip.setRingSt_ptpTx (c : Chip) (r : Nat) (x : RingSt) : (c.setRingSt r x).ptpTx = c.ptpTx := Chip.setRingSt_keeps Chip.ptpTx (fun _ _ => rfl) c r x
@[simp] theorem Chip.setRingSt_ptpRx (c : Chip) (r : Nat) (x : RingSt) : (c.setRingSt r x).ptpRx = c.ptpRx := Chip.setRingSt_keeps Chip.ptpRx (fun _ _ => rfl) c r x
@[simp] theorem Chip.setRingSt_ptpRun (c : Chip) (r : Nat) (x : RingSt) : (c.setRingSt r x).ptpRun = c.ptpRun := Chip.setRingSt_keeps Chip.ptpRun (fun _ _ => rfl) c r x
@[simp] theorem Chip.setRingSt_gwOut (c : Chip) (r : Nat) (x : RingSt) : (c.setRingSt r x).gwOut = c.gwOut := Chip.setRingSt_keeps Chip.gwOut (fun _ _ => rfl) c r x
@[simp] theorem Chip.setRingSt_sec (c : Chip) (r : Nat) (x : RingSt) : (c.setRingSt r x).sec = c.sec := Chip.setRingSt_keeps Chip.sec (fun _ _ => rfl) c r x
@[simp] theorem Chip.setRingSt_rpmb (c : Chip) (r : Nat) (x : RingSt) : (c.setRingSt r x).rpmb = c.rpmb := Chip.setRingSt_keeps Chip.rpmb (fun _ _ => rfl) c r x
@[simp] theorem Chip.setRingSt_bind (c : Chip) (r : Nat) (x : RingSt) : (c.setRingSt r x).bind = c.bind := Chip.setRingSt_keeps Chip.bind (fun _ _ => rfl) c r x
@[simp] theorem Chip.setRingSt_ownChg (c : Chip) (r : Nat) (x : RingSt) : (c.setRingSt r x).ownChg = c.ownChg := Chip.setRingSt_keeps Chip.ownChg (fun _ _ => rfl) c r x
@[simp] theorem Chip.setRingSt_apps (c : Chip) (r : Nat) (x : RingSt) : (c.setRingSt r x).apps = c.apps := Chip.setRingSt_keeps Chip.apps (fun _ _ => rfl) c r x
@[simp] theorem Chip.setRingSt_erasing (c : Chip) (r : Nat) (x : RingSt) : (c.setRingSt r x).erasing = c.erasing := Chip.setRingSt_keeps Chip.erasing (fun _ _ => rfl) c r x
@[simp] theorem Chip.setRingSt_start (c : Chip) (r : Nat) (x : RingSt) : (c.setRingSt r x).start = c.start := Chip.setRingSt_keeps Chip.start (fun _ _ => rfl) c r x
@[simp] theorem Chip.setRingSt_startOwn (c : Chip) (r : Nat) (x : RingSt) : (c.setRingSt r x).startOwn = c.startOwn := Chip.setRingSt_keeps Chip.startOwn (fun _ _ => rfl) c r x
@[simp] theorem Chip.setRingSt_startRings (c : Chip) (r : Nat) (x : RingSt) : (c.setRingSt r x).startRings = c.startRings := Chip.setRingSt_keeps Chip.startRings (fun _ _ => rfl) c r x
@[simp] theorem Chip.setRingSt_startInst (c : Chip) (r : Nat) (x : RingSt) : (c.setRingSt r x).startInst = c.startInst := Chip.setRingSt_keeps Chip.startInst (fun _ _ => rfl) c r x
@[simp] theorem Chip.setRingSt_saveArea (c : Chip) (r : Nat) (x : RingSt) : (c.setRingSt r x).saveArea = c.saveArea := Chip.setRingSt_keeps Chip.saveArea (fun _ _ => rfl) c r x
@[simp] theorem Chip.setRingSt_halted (c : Chip) (r : Nat) (x : RingSt) : (c.setRingSt r x).halted = c.halted := Chip.setRingSt_keeps Chip.halted (fun _ _ => rfl) c r x
@[simp] theorem Chip.setRingSt_txns (c : Chip) (r : Nat) (x : RingSt) : (c.setRingSt r x).txns = c.txns := Chip.setRingSt_keeps Chip.txns (fun _ _ => rfl) c r x
@[simp] theorem Chip.setRingSt_txnNext (c : Chip) (r : Nat) (x : RingSt) : (c.setRingSt r x).txnNext = c.txnNext := Chip.setRingSt_keeps Chip.txnNext (fun _ _ => rfl) c r x
@[simp] theorem Chip.setRingSt_txnSent (c : Chip) (r : Nat) (x : RingSt) : (c.setRingSt r x).txnSent = c.txnSent := Chip.setRingSt_keeps Chip.txnSent (fun _ _ => rfl) c r x
@[simp] theorem Chip.setRingSt_links (c : Chip) (r : Nat) (x : RingSt) : (c.setRingSt r x).links = c.links := Chip.setRingSt_keeps Chip.links (fun _ _ => rfl) c r x
@[simp] theorem Chip.setRingSt_farDevs (c : Chip) (r : Nat) (x : RingSt) : (c.setRingSt r x).farDevs = c.farDevs := Chip.setRingSt_keeps Chip.farDevs (fun _ _ => rfl) c r x
@[simp] theorem Chip.setRingSt_incarnation (c : Chip) (r : Nat) (x : RingSt) : (c.setRingSt r x).incarnation = c.incarnation := Chip.setRingSt_keeps Chip.incarnation (fun _ _ => rfl) c r x
@[simp] theorem Chip.setRingSt_linkless (c : Chip) (r : Nat) (x : RingSt) : (c.setRingSt r x).linkless = c.linkless := Chip.setRingSt_keeps Chip.linkless (fun _ _ => rfl) c r x
@[simp] theorem Chip.setRingSt_peerRuns (c : Chip) (r : Nat) (x : RingSt) : (c.setRingSt r x).peerRuns = c.peerRuns := Chip.setRingSt_keeps Chip.peerRuns (fun _ _ => rfl) c r x
@[simp] theorem Chip.setRingSt_filling (c : Chip) (r : Nat) (x : RingSt) : (c.setRingSt r x).filling = c.filling := Chip.setRingSt_keeps Chip.filling (fun _ _ => rfl) c r x
@[simp] theorem Chip.setRingSt_msix (c : Chip) (r : Nat) (x : RingSt) : (c.setRingSt r x).msix = c.msix := Chip.setRingSt_keeps Chip.msix (fun _ _ => rfl) c r x
@[simp] theorem Chip.setRingSt_vfRuns (c : Chip) (r : Nat) (x : RingSt) : (c.setRingSt r x).vfRuns = c.vfRuns := Chip.setRingSt_keeps Chip.vfRuns (fun _ _ => rfl) c r x
@[simp] theorem Chip.setRingSt_pcieOut (c : Chip) (r : Nat) (x : RingSt) : (c.setRingSt r x).pcieOut = c.pcieOut := Chip.setRingSt_keeps Chip.pcieOut (fun _ _ => rfl) c r x
@[simp] theorem Chip.setRingSt_power (c : Chip) (r : Nat) (x : RingSt) : (c.setRingSt r x).power = c.power := Chip.setRingSt_keeps Chip.power (fun _ _ => rfl) c r x
@[simp] theorem Chip.setRingSt_flash (c : Chip) (r : Nat) (x : RingSt) : (c.setRingSt r x).flash = c.flash := Chip.setRingSt_keeps Chip.flash (fun _ _ => rfl) c r x
@[simp] theorem Chip.setRingSt_ledgerSeq (c : Chip) (r : Nat) (x : RingSt) : (c.setRingSt r x).ledgerSeq = c.ledgerSeq := Chip.setRingSt_keeps Chip.ledgerSeq (fun _ _ => rfl) c r x
@[simp] theorem Chip.setRingSt_ledgerRead (c : Chip) (r : Nat) (x : RingSt) : (c.setRingSt r x).ledgerRead = c.ledgerRead := Chip.setRingSt_keeps Chip.ledgerRead (fun _ _ => rfl) c r x
@[simp] theorem Chip.setRingSt_opTime (c : Chip) (r : Nat) (x : RingSt) : (c.setRingSt r x).opTime = c.opTime := Chip.setRingSt_keeps Chip.opTime (fun _ _ => rfl) c r x
@[simp] theorem Chip.setRingSt_mirrorRuns (c : Chip) (r : Nat) (x : RingSt) : (c.setRingSt r x).mirrorRuns = c.mirrorRuns := Chip.setRingSt_keeps Chip.mirrorRuns (fun _ _ => rfl) c r x
@[simp] theorem Chip.setRingSt_downSince (c : Chip) (r : Nat) (x : RingSt) : (c.setRingSt r x).downSince = c.downSince := Chip.setRingSt_keeps Chip.downSince (fun _ _ => rfl) c r x
@[simp] theorem Chip.setRingSt_storeErrs (c : Chip) (r : Nat) (x : RingSt) : (c.setRingSt r x).storeErrs = c.storeErrs := Chip.setRingSt_keeps Chip.storeErrs (fun _ _ => rfl) c r x
@[simp] theorem Chip.setRingSt_dataRows (c : Chip) (r : Nat) (x : RingSt) : (c.setRingSt r x).dataRows = c.dataRows := Chip.setRingSt_keeps Chip.dataRows (fun _ _ => rfl) c r x
@[simp] theorem Chip.setRingSt_dieOut (c : Chip) (r : Nat) (x : RingSt) : (c.setRingSt r x).dieOut = c.dieOut := Chip.setRingSt_keeps Chip.dieOut (fun _ _ => rfl) c r x

/-! ### `setArr` -/

@[simp] theorem Chip.setArr_regs (c : Chip) (a : Nat) (x : ArrSt) : (c.setArr a x).regs = c.regs := Chip.setArr_keeps Chip.regs (fun _ _ => rfl) c a x
@[simp] theorem Chip.setArr_mem (c : Chip) (a : Nat) (x : ArrSt) : (c.setArr a x).mem = c.mem := Chip.setArr_keeps Chip.mem (fun _ _ => rfl) c a x
@[simp] theorem Chip.setArr_garbled (c : Chip) (a : Nat) (x : ArrSt) : (c.setArr a x).garbled = c.garbled := Chip.setArr_keeps Chip.garbled (fun _ _ => rfl) c a x
@[simp] theorem Chip.setArr_poison (c : Chip) (a : Nat) (x : ArrSt) : (c.setArr a x).poison = c.poison := Chip.setArr_keeps Chip.poison (fun _ _ => rfl) c a x
@[simp] theorem Chip.setArr_own (c : Chip) (a : Nat) (x : ArrSt) : (c.setArr a x).own = c.own := Chip.setArr_keeps Chip.own (fun _ _ => rfl) c a x
@[simp] theorem Chip.setArr_holds (c : Chip) (a : Nat) (x : ArrSt) : (c.setArr a x).holds = c.holds := Chip.setArr_keeps Chip.holds (fun _ _ => rfl) c a x
@[simp] theorem Chip.setArr_rings (c : Chip) (a : Nat) (x : ArrSt) : (c.setArr a x).rings = c.rings := Chip.setArr_keeps Chip.rings (fun _ _ => rfl) c a x
@[simp] theorem Chip.setArr_cmds (c : Chip) (a : Nat) (x : ArrSt) : (c.setArr a x).cmds = c.cmds := Chip.setArr_keeps Chip.cmds (fun _ _ => rfl) c a x
@[simp] theorem Chip.setArr_dispatched (c : Chip) (a : Nat) (x : ArrSt) : (c.setArr a x).dispatched = c.dispatched := Chip.setArr_keeps Chip.dispatched (fun _ _ => rfl) c a x
@[simp] theorem Chip.setArr_waits (c : Chip) (a : Nat) (x : ArrSt) : (c.setArr a x).waits = c.waits := Chip.setArr_keeps Chip.waits (fun _ _ => rfl) c a x
@[simp] theorem Chip.setArr_pollRun (c : Chip) (a : Nat) (x : ArrSt) : (c.setArr a x).pollRun = c.pollRun := Chip.setArr_keeps Chip.pollRun (fun _ _ => rfl) c a x
@[simp] theorem Chip.setArr_tb (c : Chip) (a : Nat) (x : ArrSt) : (c.setArr a x).tb = c.tb := Chip.setArr_keeps Chip.tb (fun _ _ => rfl) c a x
@[simp] theorem Chip.setArr_kv (c : Chip) (a : Nat) (x : ArrSt) : (c.setArr a x).kv = c.kv := Chip.setArr_keeps Chip.kv (fun _ _ => rfl) c a x
@[simp] theorem Chip.setArr_down (c : Chip) (a : Nat) (x : ArrSt) : (c.setArr a x).down = c.down := Chip.setArr_keeps Chip.down (fun _ _ => rfl) c a x
@[simp] theorem Chip.setArr_log (c : Chip) (a : Nat) (x : ArrSt) : (c.setArr a x).log = c.log := Chip.setArr_keeps Chip.log (fun _ _ => rfl) c a x
@[simp] theorem Chip.setArr_irqs (c : Chip) (a : Nat) (x : ArrSt) : (c.setArr a x).irqs = c.irqs := Chip.setArr_keeps Chip.irqs (fun _ _ => rfl) c a x
@[simp] theorem Chip.setArr_freeCnt (c : Chip) (a : Nat) (x : ArrSt) : (c.setArr a x).freeCnt = c.freeCnt := Chip.setArr_keeps Chip.freeCnt (fun _ _ => rfl) c a x
@[simp] theorem Chip.setArr_answer (c : Chip) (a : Nat) (x : ArrSt) : (c.setArr a x).answer = c.answer := Chip.setArr_keeps Chip.answer (fun _ _ => rfl) c a x
@[simp] theorem Chip.setArr_slotLock (c : Chip) (a : Nat) (x : ArrSt) : (c.setArr a x).slotLock = c.slotLock := Chip.setArr_keeps Chip.slotLock (fun _ _ => rfl) c a x
@[simp] theorem Chip.setArr_cores (c : Chip) (a : Nat) (x : ArrSt) : (c.setArr a x).cores = c.cores := Chip.setArr_keeps Chip.cores (fun _ _ => rfl) c a x
@[simp] theorem Chip.setArr_benches (c : Chip) (a : Nat) (x : ArrSt) : (c.setArr a x).benches = c.benches := Chip.setArr_keeps Chip.benches (fun _ _ => rfl) c a x
@[simp] theorem Chip.setArr_kvFresh (c : Chip) (a : Nat) (x : ArrSt) : (c.setArr a x).kvFresh = c.kvFresh := Chip.setArr_keeps Chip.kvFresh (fun _ _ => rfl) c a x
@[simp] theorem Chip.setArr_kvBack (c : Chip) (a : Nat) (x : ArrSt) : (c.setArr a x).kvBack = c.kvBack := Chip.setArr_keeps Chip.kvBack (fun _ _ => rfl) c a x
@[simp] theorem Chip.setArr_kvPins (c : Chip) (a : Nat) (x : ArrSt) : (c.setArr a x).kvPins = c.kvPins := Chip.setArr_keeps Chip.kvPins (fun _ _ => rfl) c a x
@[simp] theorem Chip.setArr_pinOps (c : Chip) (a : Nat) (x : ArrSt) : (c.setArr a x).pinOps = c.pinOps := Chip.setArr_keeps Chip.pinOps (fun _ _ => rfl) c a x
@[simp] theorem Chip.setArr_pinWait (c : Chip) (a : Nat) (x : ArrSt) : (c.setArr a x).pinWait = c.pinWait := Chip.setArr_keeps Chip.pinWait (fun _ _ => rfl) c a x
@[simp] theorem Chip.setArr_actx (c : Chip) (a : Nat) (x : ArrSt) : (c.setArr a x).actx = c.actx := Chip.setArr_keeps Chip.actx (fun _ _ => rfl) c a x
@[simp] theorem Chip.setArr_bctx (c : Chip) (a : Nat) (x : ArrSt) : (c.setArr a x).bctx = c.bctx := Chip.setArr_keeps Chip.bctx (fun _ _ => rfl) c a x
@[simp] theorem Chip.setArr_models (c : Chip) (a : Nat) (x : ArrSt) : (c.setArr a x).models = c.models := Chip.setArr_keeps Chip.models (fun _ _ => rfl) c a x
@[simp] theorem Chip.setArr_modelNext (c : Chip) (a : Nat) (x : ArrSt) : (c.setArr a x).modelNext = c.modelNext := Chip.setArr_keeps Chip.modelNext (fun _ _ => rfl) c a x
@[simp] theorem Chip.setArr_boosts (c : Chip) (a : Nat) (x : ArrSt) : (c.setArr a x).boosts = c.boosts := Chip.setArr_keeps Chip.boosts (fun _ _ => rfl) c a x
@[simp] theorem Chip.setArr_partTurns (c : Chip) (a : Nat) (x : ArrSt) : (c.setArr a x).partTurns = c.partTurns := Chip.setArr_keeps Chip.partTurns (fun _ _ => rfl) c a x
@[simp] theorem Chip.setArr_partyTurns (c : Chip) (a : Nat) (x : ArrSt) : (c.setArr a x).partyTurns = c.partyTurns := Chip.setArr_keeps Chip.partyTurns (fun _ _ => rfl) c a x
@[simp] theorem Chip.setArr_blockedAt (c : Chip) (a : Nat) (x : ArrSt) : (c.setArr a x).blockedAt = c.blockedAt := Chip.setArr_keeps Chip.blockedAt (fun _ _ => rfl) c a x
@[simp] theorem Chip.setArr_attnQuanta (c : Chip) (a : Nat) (x : ArrSt) : (c.setArr a x).attnQuanta = c.attnQuanta := Chip.setArr_keeps Chip.attnQuanta (fun _ _ => rfl) c a x
@[simp] theorem Chip.setArr_sharePend (c : Chip) (a : Nat) (x : ArrSt) : (c.setArr a x).sharePend = c.sharePend := Chip.setArr_keeps Chip.sharePend (fun _ _ => rfl) c a x
@[simp] theorem Chip.setArr_viNew (c : Chip) (a : Nat) (x : ArrSt) : (c.setArr a x).viNew = c.viNew := Chip.setArr_keeps Chip.viNew (fun _ _ => rfl) c a x
@[simp] theorem Chip.setArr_viDestroy (c : Chip) (a : Nat) (x : ArrSt) : (c.setArr a x).viDestroy = c.viDestroy := Chip.setArr_keeps Chip.viDestroy (fun _ _ => rfl) c a x
@[simp] theorem Chip.setArr_viStart (c : Chip) (a : Nat) (x : ArrSt) : (c.setArr a x).viStart = c.viStart := Chip.setArr_keeps Chip.viStart (fun _ _ => rfl) c a x
@[simp] theorem Chip.setArr_viSelf (c : Chip) (a : Nat) (x : ArrSt) : (c.setArr a x).viSelf = c.viSelf := Chip.setArr_keeps Chip.viSelf (fun _ _ => rfl) c a x
@[simp] theorem Chip.setArr_viFlr (c : Chip) (a : Nat) (x : ArrSt) : (c.setArr a x).viFlr = c.viFlr := Chip.setArr_keeps Chip.viFlr (fun _ _ => rfl) c a x
@[simp] theorem Chip.setArr_slots (c : Chip) (a : Nat) (x : ArrSt) : (c.setArr a x).slots = c.slots := Chip.setArr_keeps Chip.slots (fun _ _ => rfl) c a x
@[simp] theorem Chip.setArr_slotBase (c : Chip) (a : Nat) (x : ArrSt) : (c.setArr a x).slotBase = c.slotBase := Chip.setArr_keeps Chip.slotBase (fun _ _ => rfl) c a x
@[simp] theorem Chip.setArr_pins (c : Chip) (a : Nat) (x : ArrSt) : (c.setArr a x).pins = c.pins := Chip.setArr_keeps Chip.pins (fun _ _ => rfl) c a x
@[simp] theorem Chip.setArr_frames (c : Chip) (a : Nat) (x : ArrSt) : (c.setArr a x).frames = c.frames := Chip.setArr_keeps Chip.frames (fun _ _ => rfl) c a x
@[simp] theorem Chip.setArr_roughMoved (c : Chip) (a : Nat) (x : ArrSt) : (c.setArr a x).roughMoved = c.roughMoved := Chip.setArr_keeps Chip.roughMoved (fun _ _ => rfl) c a x
@[simp] theorem Chip.setArr_auth (c : Chip) (a : Nat) (x : ArrSt) : (c.setArr a x).auth = c.auth := Chip.setArr_keeps Chip.auth (fun _ _ => rfl) c a x
@[simp] theorem Chip.setArr_authWire (c : Chip) (a : Nat) (x : ArrSt) : (c.setArr a x).authWire = c.authWire := Chip.setArr_keeps Chip.authWire (fun _ _ => rfl) c a x
@[simp] theorem Chip.setArr_gapFrom (c : Chip) (a : Nat) (x : ArrSt) : (c.setArr a x).gapFrom = c.gapFrom := Chip.setArr_keeps Chip.gapFrom (fun _ _ => rfl) c a x
@[simp] theorem Chip.setArr_lastDriver (c : Chip) (a : Nat) (x : ArrSt) : (c.setArr a x).lastDriver = c.lastDriver := Chip.setArr_keeps Chip.lastDriver (fun _ _ => rfl) c a x
@[simp] theorem Chip.setArr_loops (c : Chip) (a : Nat) (x : ArrSt) : (c.setArr a x).loops = c.loops := Chip.setArr_keeps Chip.loops (fun _ _ => rfl) c a x
@[simp] theorem Chip.setArr_steadyCmd (c : Chip) (a : Nat) (x : ArrSt) : (c.setArr a x).steadyCmd = c.steadyCmd := Chip.setArr_keeps Chip.steadyCmd (fun _ _ => rfl) c a x
@[simp] theorem Chip.setArr_env (c : Chip) (a : Nat) (x : ArrSt) : (c.setArr a x).env = c.env := Chip.setArr_keeps Chip.env (fun _ _ => rfl) c a x
@[simp] theorem Chip.setArr_hio (c : Chip) (a : Nat) (x : ArrSt) : (c.setArr a x).hio = c.hio := Chip.setArr_keeps Chip.hio (fun _ _ => rfl) c a x
@[simp] theorem Chip.setArr_gwQueue (c : Chip) (a : Nat) (x : ArrSt) : (c.setArr a x).gwQueue = c.gwQueue := Chip.setArr_keeps Chip.gwQueue (fun _ _ => rfl) c a x
@[simp] theorem Chip.setArr_gwSends (c : Chip) (a : Nat) (x : ArrSt) : (c.setArr a x).gwSends = c.gwSends := Chip.setArr_keeps Chip.gwSends (fun _ _ => rfl) c a x
@[simp] theorem Chip.setArr_gwLate (c : Chip) (a : Nat) (x : ArrSt) : (c.setArr a x).gwLate = c.gwLate := Chip.setArr_keeps Chip.gwLate (fun _ _ => rfl) c a x
@[simp] theorem Chip.setArr_gwRoutes (c : Chip) (a : Nat) (x : ArrSt) : (c.setArr a x).gwRoutes = c.gwRoutes := Chip.setArr_keeps Chip.gwRoutes (fun _ _ => rfl) c a x
@[simp] theorem Chip.setArr_gwTx (c : Chip) (a : Nat) (x : ArrSt) : (c.setArr a x).gwTx = c.gwTx := Chip.setArr_keeps Chip.gwTx (fun _ _ => rfl) c a x
@[simp] theorem Chip.setArr_gwInstant (c : Chip) (a : Nat) (x : ArrSt) : (c.setArr a x).gwInstant = c.gwInstant := Chip.setArr_keeps Chip.gwInstant (fun _ _ => rfl) c a x
@[simp] theorem Chip.setArr_gwCredit (c : Chip) (a : Nat) (x : ArrSt) : (c.setArr a x).gwCredit = c.gwCredit := Chip.setArr_keeps Chip.gwCredit (fun _ _ => rfl) c a x
@[simp] theorem Chip.setArr_gwHeld (c : Chip) (a : Nat) (x : ArrSt) : (c.setArr a x).gwHeld = c.gwHeld := Chip.setArr_keeps Chip.gwHeld (fun _ _ => rfl) c a x
@[simp] theorem Chip.setArr_gwGates (c : Chip) (a : Nat) (x : ArrSt) : (c.setArr a x).gwGates = c.gwGates := Chip.setArr_keeps Chip.gwGates (fun _ _ => rfl) c a x
@[simp] theorem Chip.setArr_gwPulse (c : Chip) (a : Nat) (x : ArrSt) : (c.setArr a x).gwPulse = c.gwPulse := Chip.setArr_keeps Chip.gwPulse (fun _ _ => rfl) c a x
@[simp] theorem Chip.setArr_gwChans (c : Chip) (a : Nat) (x : ArrSt) : (c.setArr a x).gwChans = c.gwChans := Chip.setArr_keeps Chip.gwChans (fun _ _ => rfl) c a x
@[simp] theorem Chip.setArr_cams (c : Chip) (a : Nat) (x : ArrSt) : (c.setArr a x).cams = c.cams := Chip.setArr_keeps Chip.cams (fun _ _ => rfl) c a x
@[simp] theorem Chip.setArr_scans (c : Chip) (a : Nat) (x : ArrSt) : (c.setArr a x).scans = c.scans := Chip.setArr_keeps Chip.scans (fun _ _ => rfl) c a x
@[simp] theorem Chip.setArr_cvuOrder (c : Chip) (a : Nat) (x : ArrSt) : (c.setArr a x).cvuOrder = c.cvuOrder := Chip.setArr_keeps Chip.cvuOrder (fun _ _ => rfl) c a x
@[simp] theorem Chip.setArr_cvuRun (c : Chip) (a : Nat) (x : ArrSt) : (c.setArr a x).cvuRun = c.cvuRun := Chip.setArr_keeps Chip.cvuRun (fun _ _ => rfl) c a x
@[simp] theorem Chip.setArr_time (c : Chip) (a : Nat) (x : ArrSt) : (c.setArr a x).time = c.time := Chip.setArr_keeps Chip.time (fun _ _ => rfl) c a x
@[simp] theorem Chip.setArr_timeWrites (c : Chip) (a : Nat) (x : ArrSt) : (c.setArr a x).timeWrites = c.timeWrites := Chip.setArr_keeps Chip.timeWrites (fun _ _ => rfl) c a x
@[simp] theorem Chip.setArr_ptpTx (c : Chip) (a : Nat) (x : ArrSt) : (c.setArr a x).ptpTx = c.ptpTx := Chip.setArr_keeps Chip.ptpTx (fun _ _ => rfl) c a x
@[simp] theorem Chip.setArr_ptpRx (c : Chip) (a : Nat) (x : ArrSt) : (c.setArr a x).ptpRx = c.ptpRx := Chip.setArr_keeps Chip.ptpRx (fun _ _ => rfl) c a x
@[simp] theorem Chip.setArr_ptpRun (c : Chip) (a : Nat) (x : ArrSt) : (c.setArr a x).ptpRun = c.ptpRun := Chip.setArr_keeps Chip.ptpRun (fun _ _ => rfl) c a x
@[simp] theorem Chip.setArr_gwOut (c : Chip) (a : Nat) (x : ArrSt) : (c.setArr a x).gwOut = c.gwOut := Chip.setArr_keeps Chip.gwOut (fun _ _ => rfl) c a x
@[simp] theorem Chip.setArr_sec (c : Chip) (a : Nat) (x : ArrSt) : (c.setArr a x).sec = c.sec := Chip.setArr_keeps Chip.sec (fun _ _ => rfl) c a x
@[simp] theorem Chip.setArr_rpmb (c : Chip) (a : Nat) (x : ArrSt) : (c.setArr a x).rpmb = c.rpmb := Chip.setArr_keeps Chip.rpmb (fun _ _ => rfl) c a x
@[simp] theorem Chip.setArr_bind (c : Chip) (a : Nat) (x : ArrSt) : (c.setArr a x).bind = c.bind := Chip.setArr_keeps Chip.bind (fun _ _ => rfl) c a x
@[simp] theorem Chip.setArr_ownChg (c : Chip) (a : Nat) (x : ArrSt) : (c.setArr a x).ownChg = c.ownChg := Chip.setArr_keeps Chip.ownChg (fun _ _ => rfl) c a x
@[simp] theorem Chip.setArr_apps (c : Chip) (a : Nat) (x : ArrSt) : (c.setArr a x).apps = c.apps := Chip.setArr_keeps Chip.apps (fun _ _ => rfl) c a x
@[simp] theorem Chip.setArr_erasing (c : Chip) (a : Nat) (x : ArrSt) : (c.setArr a x).erasing = c.erasing := Chip.setArr_keeps Chip.erasing (fun _ _ => rfl) c a x
@[simp] theorem Chip.setArr_start (c : Chip) (a : Nat) (x : ArrSt) : (c.setArr a x).start = c.start := Chip.setArr_keeps Chip.start (fun _ _ => rfl) c a x
@[simp] theorem Chip.setArr_startOwn (c : Chip) (a : Nat) (x : ArrSt) : (c.setArr a x).startOwn = c.startOwn := Chip.setArr_keeps Chip.startOwn (fun _ _ => rfl) c a x
@[simp] theorem Chip.setArr_startRings (c : Chip) (a : Nat) (x : ArrSt) : (c.setArr a x).startRings = c.startRings := Chip.setArr_keeps Chip.startRings (fun _ _ => rfl) c a x
@[simp] theorem Chip.setArr_startInst (c : Chip) (a : Nat) (x : ArrSt) : (c.setArr a x).startInst = c.startInst := Chip.setArr_keeps Chip.startInst (fun _ _ => rfl) c a x
@[simp] theorem Chip.setArr_saveArea (c : Chip) (a : Nat) (x : ArrSt) : (c.setArr a x).saveArea = c.saveArea := Chip.setArr_keeps Chip.saveArea (fun _ _ => rfl) c a x
@[simp] theorem Chip.setArr_halted (c : Chip) (a : Nat) (x : ArrSt) : (c.setArr a x).halted = c.halted := Chip.setArr_keeps Chip.halted (fun _ _ => rfl) c a x
@[simp] theorem Chip.setArr_txns (c : Chip) (a : Nat) (x : ArrSt) : (c.setArr a x).txns = c.txns := Chip.setArr_keeps Chip.txns (fun _ _ => rfl) c a x
@[simp] theorem Chip.setArr_txnNext (c : Chip) (a : Nat) (x : ArrSt) : (c.setArr a x).txnNext = c.txnNext := Chip.setArr_keeps Chip.txnNext (fun _ _ => rfl) c a x
@[simp] theorem Chip.setArr_txnSent (c : Chip) (a : Nat) (x : ArrSt) : (c.setArr a x).txnSent = c.txnSent := Chip.setArr_keeps Chip.txnSent (fun _ _ => rfl) c a x
@[simp] theorem Chip.setArr_links (c : Chip) (a : Nat) (x : ArrSt) : (c.setArr a x).links = c.links := Chip.setArr_keeps Chip.links (fun _ _ => rfl) c a x
@[simp] theorem Chip.setArr_farDevs (c : Chip) (a : Nat) (x : ArrSt) : (c.setArr a x).farDevs = c.farDevs := Chip.setArr_keeps Chip.farDevs (fun _ _ => rfl) c a x
@[simp] theorem Chip.setArr_incarnation (c : Chip) (a : Nat) (x : ArrSt) : (c.setArr a x).incarnation = c.incarnation := Chip.setArr_keeps Chip.incarnation (fun _ _ => rfl) c a x
@[simp] theorem Chip.setArr_linkless (c : Chip) (a : Nat) (x : ArrSt) : (c.setArr a x).linkless = c.linkless := Chip.setArr_keeps Chip.linkless (fun _ _ => rfl) c a x
@[simp] theorem Chip.setArr_peerRuns (c : Chip) (a : Nat) (x : ArrSt) : (c.setArr a x).peerRuns = c.peerRuns := Chip.setArr_keeps Chip.peerRuns (fun _ _ => rfl) c a x
@[simp] theorem Chip.setArr_filling (c : Chip) (a : Nat) (x : ArrSt) : (c.setArr a x).filling = c.filling := Chip.setArr_keeps Chip.filling (fun _ _ => rfl) c a x
@[simp] theorem Chip.setArr_msix (c : Chip) (a : Nat) (x : ArrSt) : (c.setArr a x).msix = c.msix := Chip.setArr_keeps Chip.msix (fun _ _ => rfl) c a x
@[simp] theorem Chip.setArr_vfRuns (c : Chip) (a : Nat) (x : ArrSt) : (c.setArr a x).vfRuns = c.vfRuns := Chip.setArr_keeps Chip.vfRuns (fun _ _ => rfl) c a x
@[simp] theorem Chip.setArr_pcieOut (c : Chip) (a : Nat) (x : ArrSt) : (c.setArr a x).pcieOut = c.pcieOut := Chip.setArr_keeps Chip.pcieOut (fun _ _ => rfl) c a x
@[simp] theorem Chip.setArr_power (c : Chip) (a : Nat) (x : ArrSt) : (c.setArr a x).power = c.power := Chip.setArr_keeps Chip.power (fun _ _ => rfl) c a x
@[simp] theorem Chip.setArr_flash (c : Chip) (a : Nat) (x : ArrSt) : (c.setArr a x).flash = c.flash := Chip.setArr_keeps Chip.flash (fun _ _ => rfl) c a x
@[simp] theorem Chip.setArr_ledgerSeq (c : Chip) (a : Nat) (x : ArrSt) : (c.setArr a x).ledgerSeq = c.ledgerSeq := Chip.setArr_keeps Chip.ledgerSeq (fun _ _ => rfl) c a x
@[simp] theorem Chip.setArr_ledgerRead (c : Chip) (a : Nat) (x : ArrSt) : (c.setArr a x).ledgerRead = c.ledgerRead := Chip.setArr_keeps Chip.ledgerRead (fun _ _ => rfl) c a x
@[simp] theorem Chip.setArr_opTime (c : Chip) (a : Nat) (x : ArrSt) : (c.setArr a x).opTime = c.opTime := Chip.setArr_keeps Chip.opTime (fun _ _ => rfl) c a x
@[simp] theorem Chip.setArr_mirrorRuns (c : Chip) (a : Nat) (x : ArrSt) : (c.setArr a x).mirrorRuns = c.mirrorRuns := Chip.setArr_keeps Chip.mirrorRuns (fun _ _ => rfl) c a x
@[simp] theorem Chip.setArr_downSince (c : Chip) (a : Nat) (x : ArrSt) : (c.setArr a x).downSince = c.downSince := Chip.setArr_keeps Chip.downSince (fun _ _ => rfl) c a x
@[simp] theorem Chip.setArr_storeErrs (c : Chip) (a : Nat) (x : ArrSt) : (c.setArr a x).storeErrs = c.storeErrs := Chip.setArr_keeps Chip.storeErrs (fun _ _ => rfl) c a x
@[simp] theorem Chip.setArr_dataRows (c : Chip) (a : Nat) (x : ArrSt) : (c.setArr a x).dataRows = c.dataRows := Chip.setArr_keeps Chip.dataRows (fun _ _ => rfl) c a x
@[simp] theorem Chip.setArr_dieOut (c : Chip) (a : Nat) (x : ArrSt) : (c.setArr a x).dieOut = c.dieOut := Chip.setArr_keeps Chip.dieOut (fun _ _ => rfl) c a x

/-! ### `setTime` -/

@[simp] theorem Chip.setTime_regs (c : Chip) (h : Half) (x : TimeSt) : (c.setTime h x).regs = c.regs := Chip.setTime_keeps Chip.regs (fun _ _ => rfl) c h x
@[simp] theorem Chip.setTime_mem (c : Chip) (h : Half) (x : TimeSt) : (c.setTime h x).mem = c.mem := Chip.setTime_keeps Chip.mem (fun _ _ => rfl) c h x
@[simp] theorem Chip.setTime_garbled (c : Chip) (h : Half) (x : TimeSt) : (c.setTime h x).garbled = c.garbled := Chip.setTime_keeps Chip.garbled (fun _ _ => rfl) c h x
@[simp] theorem Chip.setTime_poison (c : Chip) (h : Half) (x : TimeSt) : (c.setTime h x).poison = c.poison := Chip.setTime_keeps Chip.poison (fun _ _ => rfl) c h x
@[simp] theorem Chip.setTime_own (c : Chip) (h : Half) (x : TimeSt) : (c.setTime h x).own = c.own := Chip.setTime_keeps Chip.own (fun _ _ => rfl) c h x
@[simp] theorem Chip.setTime_holds (c : Chip) (h : Half) (x : TimeSt) : (c.setTime h x).holds = c.holds := Chip.setTime_keeps Chip.holds (fun _ _ => rfl) c h x
@[simp] theorem Chip.setTime_rings (c : Chip) (h : Half) (x : TimeSt) : (c.setTime h x).rings = c.rings := Chip.setTime_keeps Chip.rings (fun _ _ => rfl) c h x
@[simp] theorem Chip.setTime_cmds (c : Chip) (h : Half) (x : TimeSt) : (c.setTime h x).cmds = c.cmds := Chip.setTime_keeps Chip.cmds (fun _ _ => rfl) c h x
@[simp] theorem Chip.setTime_dispatched (c : Chip) (h : Half) (x : TimeSt) : (c.setTime h x).dispatched = c.dispatched := Chip.setTime_keeps Chip.dispatched (fun _ _ => rfl) c h x
@[simp] theorem Chip.setTime_waits (c : Chip) (h : Half) (x : TimeSt) : (c.setTime h x).waits = c.waits := Chip.setTime_keeps Chip.waits (fun _ _ => rfl) c h x
@[simp] theorem Chip.setTime_pollRun (c : Chip) (h : Half) (x : TimeSt) : (c.setTime h x).pollRun = c.pollRun := Chip.setTime_keeps Chip.pollRun (fun _ _ => rfl) c h x
@[simp] theorem Chip.setTime_tb (c : Chip) (h : Half) (x : TimeSt) : (c.setTime h x).tb = c.tb := Chip.setTime_keeps Chip.tb (fun _ _ => rfl) c h x
@[simp] theorem Chip.setTime_kv (c : Chip) (h : Half) (x : TimeSt) : (c.setTime h x).kv = c.kv := Chip.setTime_keeps Chip.kv (fun _ _ => rfl) c h x
@[simp] theorem Chip.setTime_down (c : Chip) (h : Half) (x : TimeSt) : (c.setTime h x).down = c.down := Chip.setTime_keeps Chip.down (fun _ _ => rfl) c h x
@[simp] theorem Chip.setTime_log (c : Chip) (h : Half) (x : TimeSt) : (c.setTime h x).log = c.log := Chip.setTime_keeps Chip.log (fun _ _ => rfl) c h x
@[simp] theorem Chip.setTime_irqs (c : Chip) (h : Half) (x : TimeSt) : (c.setTime h x).irqs = c.irqs := Chip.setTime_keeps Chip.irqs (fun _ _ => rfl) c h x
@[simp] theorem Chip.setTime_freeCnt (c : Chip) (h : Half) (x : TimeSt) : (c.setTime h x).freeCnt = c.freeCnt := Chip.setTime_keeps Chip.freeCnt (fun _ _ => rfl) c h x
@[simp] theorem Chip.setTime_answer (c : Chip) (h : Half) (x : TimeSt) : (c.setTime h x).answer = c.answer := Chip.setTime_keeps Chip.answer (fun _ _ => rfl) c h x
@[simp] theorem Chip.setTime_slotLock (c : Chip) (h : Half) (x : TimeSt) : (c.setTime h x).slotLock = c.slotLock := Chip.setTime_keeps Chip.slotLock (fun _ _ => rfl) c h x
@[simp] theorem Chip.setTime_arrays (c : Chip) (h : Half) (x : TimeSt) : (c.setTime h x).arrays = c.arrays := Chip.setTime_keeps Chip.arrays (fun _ _ => rfl) c h x
@[simp] theorem Chip.setTime_cores (c : Chip) (h : Half) (x : TimeSt) : (c.setTime h x).cores = c.cores := Chip.setTime_keeps Chip.cores (fun _ _ => rfl) c h x
@[simp] theorem Chip.setTime_benches (c : Chip) (h : Half) (x : TimeSt) : (c.setTime h x).benches = c.benches := Chip.setTime_keeps Chip.benches (fun _ _ => rfl) c h x
@[simp] theorem Chip.setTime_kvFresh (c : Chip) (h : Half) (x : TimeSt) : (c.setTime h x).kvFresh = c.kvFresh := Chip.setTime_keeps Chip.kvFresh (fun _ _ => rfl) c h x
@[simp] theorem Chip.setTime_kvBack (c : Chip) (h : Half) (x : TimeSt) : (c.setTime h x).kvBack = c.kvBack := Chip.setTime_keeps Chip.kvBack (fun _ _ => rfl) c h x
@[simp] theorem Chip.setTime_kvPins (c : Chip) (h : Half) (x : TimeSt) : (c.setTime h x).kvPins = c.kvPins := Chip.setTime_keeps Chip.kvPins (fun _ _ => rfl) c h x
@[simp] theorem Chip.setTime_pinOps (c : Chip) (h : Half) (x : TimeSt) : (c.setTime h x).pinOps = c.pinOps := Chip.setTime_keeps Chip.pinOps (fun _ _ => rfl) c h x
@[simp] theorem Chip.setTime_pinWait (c : Chip) (h : Half) (x : TimeSt) : (c.setTime h x).pinWait = c.pinWait := Chip.setTime_keeps Chip.pinWait (fun _ _ => rfl) c h x
@[simp] theorem Chip.setTime_actx (c : Chip) (h : Half) (x : TimeSt) : (c.setTime h x).actx = c.actx := Chip.setTime_keeps Chip.actx (fun _ _ => rfl) c h x
@[simp] theorem Chip.setTime_bctx (c : Chip) (h : Half) (x : TimeSt) : (c.setTime h x).bctx = c.bctx := Chip.setTime_keeps Chip.bctx (fun _ _ => rfl) c h x
@[simp] theorem Chip.setTime_models (c : Chip) (h : Half) (x : TimeSt) : (c.setTime h x).models = c.models := Chip.setTime_keeps Chip.models (fun _ _ => rfl) c h x
@[simp] theorem Chip.setTime_modelNext (c : Chip) (h : Half) (x : TimeSt) : (c.setTime h x).modelNext = c.modelNext := Chip.setTime_keeps Chip.modelNext (fun _ _ => rfl) c h x
@[simp] theorem Chip.setTime_boosts (c : Chip) (h : Half) (x : TimeSt) : (c.setTime h x).boosts = c.boosts := Chip.setTime_keeps Chip.boosts (fun _ _ => rfl) c h x
@[simp] theorem Chip.setTime_partTurns (c : Chip) (h : Half) (x : TimeSt) : (c.setTime h x).partTurns = c.partTurns := Chip.setTime_keeps Chip.partTurns (fun _ _ => rfl) c h x
@[simp] theorem Chip.setTime_partyTurns (c : Chip) (h : Half) (x : TimeSt) : (c.setTime h x).partyTurns = c.partyTurns := Chip.setTime_keeps Chip.partyTurns (fun _ _ => rfl) c h x
@[simp] theorem Chip.setTime_blockedAt (c : Chip) (h : Half) (x : TimeSt) : (c.setTime h x).blockedAt = c.blockedAt := Chip.setTime_keeps Chip.blockedAt (fun _ _ => rfl) c h x
@[simp] theorem Chip.setTime_attnQuanta (c : Chip) (h : Half) (x : TimeSt) : (c.setTime h x).attnQuanta = c.attnQuanta := Chip.setTime_keeps Chip.attnQuanta (fun _ _ => rfl) c h x
@[simp] theorem Chip.setTime_sharePend (c : Chip) (h : Half) (x : TimeSt) : (c.setTime h x).sharePend = c.sharePend := Chip.setTime_keeps Chip.sharePend (fun _ _ => rfl) c h x
@[simp] theorem Chip.setTime_viNew (c : Chip) (h : Half) (x : TimeSt) : (c.setTime h x).viNew = c.viNew := Chip.setTime_keeps Chip.viNew (fun _ _ => rfl) c h x
@[simp] theorem Chip.setTime_viDestroy (c : Chip) (h : Half) (x : TimeSt) : (c.setTime h x).viDestroy = c.viDestroy := Chip.setTime_keeps Chip.viDestroy (fun _ _ => rfl) c h x
@[simp] theorem Chip.setTime_viStart (c : Chip) (h : Half) (x : TimeSt) : (c.setTime h x).viStart = c.viStart := Chip.setTime_keeps Chip.viStart (fun _ _ => rfl) c h x
@[simp] theorem Chip.setTime_viSelf (c : Chip) (h : Half) (x : TimeSt) : (c.setTime h x).viSelf = c.viSelf := Chip.setTime_keeps Chip.viSelf (fun _ _ => rfl) c h x
@[simp] theorem Chip.setTime_viFlr (c : Chip) (h : Half) (x : TimeSt) : (c.setTime h x).viFlr = c.viFlr := Chip.setTime_keeps Chip.viFlr (fun _ _ => rfl) c h x
@[simp] theorem Chip.setTime_slots (c : Chip) (h : Half) (x : TimeSt) : (c.setTime h x).slots = c.slots := Chip.setTime_keeps Chip.slots (fun _ _ => rfl) c h x
@[simp] theorem Chip.setTime_slotBase (c : Chip) (h : Half) (x : TimeSt) : (c.setTime h x).slotBase = c.slotBase := Chip.setTime_keeps Chip.slotBase (fun _ _ => rfl) c h x
@[simp] theorem Chip.setTime_pins (c : Chip) (h : Half) (x : TimeSt) : (c.setTime h x).pins = c.pins := Chip.setTime_keeps Chip.pins (fun _ _ => rfl) c h x
@[simp] theorem Chip.setTime_frames (c : Chip) (h : Half) (x : TimeSt) : (c.setTime h x).frames = c.frames := Chip.setTime_keeps Chip.frames (fun _ _ => rfl) c h x
@[simp] theorem Chip.setTime_roughMoved (c : Chip) (h : Half) (x : TimeSt) : (c.setTime h x).roughMoved = c.roughMoved := Chip.setTime_keeps Chip.roughMoved (fun _ _ => rfl) c h x
@[simp] theorem Chip.setTime_auth (c : Chip) (h : Half) (x : TimeSt) : (c.setTime h x).auth = c.auth := Chip.setTime_keeps Chip.auth (fun _ _ => rfl) c h x
@[simp] theorem Chip.setTime_authWire (c : Chip) (h : Half) (x : TimeSt) : (c.setTime h x).authWire = c.authWire := Chip.setTime_keeps Chip.authWire (fun _ _ => rfl) c h x
@[simp] theorem Chip.setTime_gapFrom (c : Chip) (h : Half) (x : TimeSt) : (c.setTime h x).gapFrom = c.gapFrom := Chip.setTime_keeps Chip.gapFrom (fun _ _ => rfl) c h x
@[simp] theorem Chip.setTime_lastDriver (c : Chip) (h : Half) (x : TimeSt) : (c.setTime h x).lastDriver = c.lastDriver := Chip.setTime_keeps Chip.lastDriver (fun _ _ => rfl) c h x
@[simp] theorem Chip.setTime_loops (c : Chip) (h : Half) (x : TimeSt) : (c.setTime h x).loops = c.loops := Chip.setTime_keeps Chip.loops (fun _ _ => rfl) c h x
@[simp] theorem Chip.setTime_steadyCmd (c : Chip) (h : Half) (x : TimeSt) : (c.setTime h x).steadyCmd = c.steadyCmd := Chip.setTime_keeps Chip.steadyCmd (fun _ _ => rfl) c h x
@[simp] theorem Chip.setTime_env (c : Chip) (h : Half) (x : TimeSt) : (c.setTime h x).env = c.env := Chip.setTime_keeps Chip.env (fun _ _ => rfl) c h x
@[simp] theorem Chip.setTime_hio (c : Chip) (h : Half) (x : TimeSt) : (c.setTime h x).hio = c.hio := Chip.setTime_keeps Chip.hio (fun _ _ => rfl) c h x
@[simp] theorem Chip.setTime_gwQueue (c : Chip) (h : Half) (x : TimeSt) : (c.setTime h x).gwQueue = c.gwQueue := Chip.setTime_keeps Chip.gwQueue (fun _ _ => rfl) c h x
@[simp] theorem Chip.setTime_gwSends (c : Chip) (h : Half) (x : TimeSt) : (c.setTime h x).gwSends = c.gwSends := Chip.setTime_keeps Chip.gwSends (fun _ _ => rfl) c h x
@[simp] theorem Chip.setTime_gwLate (c : Chip) (h : Half) (x : TimeSt) : (c.setTime h x).gwLate = c.gwLate := Chip.setTime_keeps Chip.gwLate (fun _ _ => rfl) c h x
@[simp] theorem Chip.setTime_gwRoutes (c : Chip) (h : Half) (x : TimeSt) : (c.setTime h x).gwRoutes = c.gwRoutes := Chip.setTime_keeps Chip.gwRoutes (fun _ _ => rfl) c h x
@[simp] theorem Chip.setTime_gwTx (c : Chip) (h : Half) (x : TimeSt) : (c.setTime h x).gwTx = c.gwTx := Chip.setTime_keeps Chip.gwTx (fun _ _ => rfl) c h x
@[simp] theorem Chip.setTime_gwInstant (c : Chip) (h : Half) (x : TimeSt) : (c.setTime h x).gwInstant = c.gwInstant := Chip.setTime_keeps Chip.gwInstant (fun _ _ => rfl) c h x
@[simp] theorem Chip.setTime_gwCredit (c : Chip) (h : Half) (x : TimeSt) : (c.setTime h x).gwCredit = c.gwCredit := Chip.setTime_keeps Chip.gwCredit (fun _ _ => rfl) c h x
@[simp] theorem Chip.setTime_gwHeld (c : Chip) (h : Half) (x : TimeSt) : (c.setTime h x).gwHeld = c.gwHeld := Chip.setTime_keeps Chip.gwHeld (fun _ _ => rfl) c h x
@[simp] theorem Chip.setTime_gwGates (c : Chip) (h : Half) (x : TimeSt) : (c.setTime h x).gwGates = c.gwGates := Chip.setTime_keeps Chip.gwGates (fun _ _ => rfl) c h x
@[simp] theorem Chip.setTime_gwPulse (c : Chip) (h : Half) (x : TimeSt) : (c.setTime h x).gwPulse = c.gwPulse := Chip.setTime_keeps Chip.gwPulse (fun _ _ => rfl) c h x
@[simp] theorem Chip.setTime_gwChans (c : Chip) (h : Half) (x : TimeSt) : (c.setTime h x).gwChans = c.gwChans := Chip.setTime_keeps Chip.gwChans (fun _ _ => rfl) c h x
@[simp] theorem Chip.setTime_cams (c : Chip) (h : Half) (x : TimeSt) : (c.setTime h x).cams = c.cams := Chip.setTime_keeps Chip.cams (fun _ _ => rfl) c h x
@[simp] theorem Chip.setTime_scans (c : Chip) (h : Half) (x : TimeSt) : (c.setTime h x).scans = c.scans := Chip.setTime_keeps Chip.scans (fun _ _ => rfl) c h x
@[simp] theorem Chip.setTime_cvuOrder (c : Chip) (h : Half) (x : TimeSt) : (c.setTime h x).cvuOrder = c.cvuOrder := Chip.setTime_keeps Chip.cvuOrder (fun _ _ => rfl) c h x
@[simp] theorem Chip.setTime_cvuRun (c : Chip) (h : Half) (x : TimeSt) : (c.setTime h x).cvuRun = c.cvuRun := Chip.setTime_keeps Chip.cvuRun (fun _ _ => rfl) c h x
@[simp] theorem Chip.setTime_timeWrites (c : Chip) (h : Half) (x : TimeSt) : (c.setTime h x).timeWrites = c.timeWrites := Chip.setTime_keeps Chip.timeWrites (fun _ _ => rfl) c h x
@[simp] theorem Chip.setTime_ptpTx (c : Chip) (h : Half) (x : TimeSt) : (c.setTime h x).ptpTx = c.ptpTx := Chip.setTime_keeps Chip.ptpTx (fun _ _ => rfl) c h x
@[simp] theorem Chip.setTime_ptpRx (c : Chip) (h : Half) (x : TimeSt) : (c.setTime h x).ptpRx = c.ptpRx := Chip.setTime_keeps Chip.ptpRx (fun _ _ => rfl) c h x
@[simp] theorem Chip.setTime_ptpRun (c : Chip) (h : Half) (x : TimeSt) : (c.setTime h x).ptpRun = c.ptpRun := Chip.setTime_keeps Chip.ptpRun (fun _ _ => rfl) c h x
@[simp] theorem Chip.setTime_gwOut (c : Chip) (h : Half) (x : TimeSt) : (c.setTime h x).gwOut = c.gwOut := Chip.setTime_keeps Chip.gwOut (fun _ _ => rfl) c h x
@[simp] theorem Chip.setTime_sec (c : Chip) (h : Half) (x : TimeSt) : (c.setTime h x).sec = c.sec := Chip.setTime_keeps Chip.sec (fun _ _ => rfl) c h x
@[simp] theorem Chip.setTime_rpmb (c : Chip) (h : Half) (x : TimeSt) : (c.setTime h x).rpmb = c.rpmb := Chip.setTime_keeps Chip.rpmb (fun _ _ => rfl) c h x
@[simp] theorem Chip.setTime_bind (c : Chip) (h : Half) (x : TimeSt) : (c.setTime h x).bind = c.bind := Chip.setTime_keeps Chip.bind (fun _ _ => rfl) c h x
@[simp] theorem Chip.setTime_ownChg (c : Chip) (h : Half) (x : TimeSt) : (c.setTime h x).ownChg = c.ownChg := Chip.setTime_keeps Chip.ownChg (fun _ _ => rfl) c h x
@[simp] theorem Chip.setTime_apps (c : Chip) (h : Half) (x : TimeSt) : (c.setTime h x).apps = c.apps := Chip.setTime_keeps Chip.apps (fun _ _ => rfl) c h x
@[simp] theorem Chip.setTime_erasing (c : Chip) (h : Half) (x : TimeSt) : (c.setTime h x).erasing = c.erasing := Chip.setTime_keeps Chip.erasing (fun _ _ => rfl) c h x
@[simp] theorem Chip.setTime_start (c : Chip) (h : Half) (x : TimeSt) : (c.setTime h x).start = c.start := Chip.setTime_keeps Chip.start (fun _ _ => rfl) c h x
@[simp] theorem Chip.setTime_startOwn (c : Chip) (h : Half) (x : TimeSt) : (c.setTime h x).startOwn = c.startOwn := Chip.setTime_keeps Chip.startOwn (fun _ _ => rfl) c h x
@[simp] theorem Chip.setTime_startRings (c : Chip) (h : Half) (x : TimeSt) : (c.setTime h x).startRings = c.startRings := Chip.setTime_keeps Chip.startRings (fun _ _ => rfl) c h x
@[simp] theorem Chip.setTime_startInst (c : Chip) (h : Half) (x : TimeSt) : (c.setTime h x).startInst = c.startInst := Chip.setTime_keeps Chip.startInst (fun _ _ => rfl) c h x
@[simp] theorem Chip.setTime_saveArea (c : Chip) (h : Half) (x : TimeSt) : (c.setTime h x).saveArea = c.saveArea := Chip.setTime_keeps Chip.saveArea (fun _ _ => rfl) c h x
@[simp] theorem Chip.setTime_halted (c : Chip) (h : Half) (x : TimeSt) : (c.setTime h x).halted = c.halted := Chip.setTime_keeps Chip.halted (fun _ _ => rfl) c h x
@[simp] theorem Chip.setTime_txns (c : Chip) (h : Half) (x : TimeSt) : (c.setTime h x).txns = c.txns := Chip.setTime_keeps Chip.txns (fun _ _ => rfl) c h x
@[simp] theorem Chip.setTime_txnNext (c : Chip) (h : Half) (x : TimeSt) : (c.setTime h x).txnNext = c.txnNext := Chip.setTime_keeps Chip.txnNext (fun _ _ => rfl) c h x
@[simp] theorem Chip.setTime_txnSent (c : Chip) (h : Half) (x : TimeSt) : (c.setTime h x).txnSent = c.txnSent := Chip.setTime_keeps Chip.txnSent (fun _ _ => rfl) c h x
@[simp] theorem Chip.setTime_links (c : Chip) (h : Half) (x : TimeSt) : (c.setTime h x).links = c.links := Chip.setTime_keeps Chip.links (fun _ _ => rfl) c h x
@[simp] theorem Chip.setTime_farDevs (c : Chip) (h : Half) (x : TimeSt) : (c.setTime h x).farDevs = c.farDevs := Chip.setTime_keeps Chip.farDevs (fun _ _ => rfl) c h x
@[simp] theorem Chip.setTime_incarnation (c : Chip) (h : Half) (x : TimeSt) : (c.setTime h x).incarnation = c.incarnation := Chip.setTime_keeps Chip.incarnation (fun _ _ => rfl) c h x
@[simp] theorem Chip.setTime_linkless (c : Chip) (h : Half) (x : TimeSt) : (c.setTime h x).linkless = c.linkless := Chip.setTime_keeps Chip.linkless (fun _ _ => rfl) c h x
@[simp] theorem Chip.setTime_peerRuns (c : Chip) (h : Half) (x : TimeSt) : (c.setTime h x).peerRuns = c.peerRuns := Chip.setTime_keeps Chip.peerRuns (fun _ _ => rfl) c h x
@[simp] theorem Chip.setTime_filling (c : Chip) (h : Half) (x : TimeSt) : (c.setTime h x).filling = c.filling := Chip.setTime_keeps Chip.filling (fun _ _ => rfl) c h x
@[simp] theorem Chip.setTime_msix (c : Chip) (h : Half) (x : TimeSt) : (c.setTime h x).msix = c.msix := Chip.setTime_keeps Chip.msix (fun _ _ => rfl) c h x
@[simp] theorem Chip.setTime_vfRuns (c : Chip) (h : Half) (x : TimeSt) : (c.setTime h x).vfRuns = c.vfRuns := Chip.setTime_keeps Chip.vfRuns (fun _ _ => rfl) c h x
@[simp] theorem Chip.setTime_pcieOut (c : Chip) (h : Half) (x : TimeSt) : (c.setTime h x).pcieOut = c.pcieOut := Chip.setTime_keeps Chip.pcieOut (fun _ _ => rfl) c h x
@[simp] theorem Chip.setTime_power (c : Chip) (h : Half) (x : TimeSt) : (c.setTime h x).power = c.power := Chip.setTime_keeps Chip.power (fun _ _ => rfl) c h x
@[simp] theorem Chip.setTime_flash (c : Chip) (h : Half) (x : TimeSt) : (c.setTime h x).flash = c.flash := Chip.setTime_keeps Chip.flash (fun _ _ => rfl) c h x
@[simp] theorem Chip.setTime_ledgerSeq (c : Chip) (h : Half) (x : TimeSt) : (c.setTime h x).ledgerSeq = c.ledgerSeq := Chip.setTime_keeps Chip.ledgerSeq (fun _ _ => rfl) c h x
@[simp] theorem Chip.setTime_ledgerRead (c : Chip) (h : Half) (x : TimeSt) : (c.setTime h x).ledgerRead = c.ledgerRead := Chip.setTime_keeps Chip.ledgerRead (fun _ _ => rfl) c h x
@[simp] theorem Chip.setTime_opTime (c : Chip) (h : Half) (x : TimeSt) : (c.setTime h x).opTime = c.opTime := Chip.setTime_keeps Chip.opTime (fun _ _ => rfl) c h x
@[simp] theorem Chip.setTime_mirrorRuns (c : Chip) (h : Half) (x : TimeSt) : (c.setTime h x).mirrorRuns = c.mirrorRuns := Chip.setTime_keeps Chip.mirrorRuns (fun _ _ => rfl) c h x
@[simp] theorem Chip.setTime_downSince (c : Chip) (h : Half) (x : TimeSt) : (c.setTime h x).downSince = c.downSince := Chip.setTime_keeps Chip.downSince (fun _ _ => rfl) c h x
@[simp] theorem Chip.setTime_storeErrs (c : Chip) (h : Half) (x : TimeSt) : (c.setTime h x).storeErrs = c.storeErrs := Chip.setTime_keeps Chip.storeErrs (fun _ _ => rfl) c h x
@[simp] theorem Chip.setTime_dataRows (c : Chip) (h : Half) (x : TimeSt) : (c.setTime h x).dataRows = c.dataRows := Chip.setTime_keeps Chip.dataRows (fun _ _ => rfl) c h x
@[simp] theorem Chip.setTime_dieOut (c : Chip) (h : Half) (x : TimeSt) : (c.setTime h x).dieOut = c.dieOut := Chip.setTime_keeps Chip.dieOut (fun _ _ => rfl) c h x

/-! ### `setPower` -/

@[simp] theorem Chip.setPower_regs (c : Chip) (h : Half) (x : PowerSt) : (c.setPower h x).regs = c.regs := Chip.setPower_keeps Chip.regs (fun _ _ => rfl) c h x
@[simp] theorem Chip.setPower_mem (c : Chip) (h : Half) (x : PowerSt) : (c.setPower h x).mem = c.mem := Chip.setPower_keeps Chip.mem (fun _ _ => rfl) c h x
@[simp] theorem Chip.setPower_garbled (c : Chip) (h : Half) (x : PowerSt) : (c.setPower h x).garbled = c.garbled := Chip.setPower_keeps Chip.garbled (fun _ _ => rfl) c h x
@[simp] theorem Chip.setPower_poison (c : Chip) (h : Half) (x : PowerSt) : (c.setPower h x).poison = c.poison := Chip.setPower_keeps Chip.poison (fun _ _ => rfl) c h x
@[simp] theorem Chip.setPower_own (c : Chip) (h : Half) (x : PowerSt) : (c.setPower h x).own = c.own := Chip.setPower_keeps Chip.own (fun _ _ => rfl) c h x
@[simp] theorem Chip.setPower_holds (c : Chip) (h : Half) (x : PowerSt) : (c.setPower h x).holds = c.holds := Chip.setPower_keeps Chip.holds (fun _ _ => rfl) c h x
@[simp] theorem Chip.setPower_rings (c : Chip) (h : Half) (x : PowerSt) : (c.setPower h x).rings = c.rings := Chip.setPower_keeps Chip.rings (fun _ _ => rfl) c h x
@[simp] theorem Chip.setPower_cmds (c : Chip) (h : Half) (x : PowerSt) : (c.setPower h x).cmds = c.cmds := Chip.setPower_keeps Chip.cmds (fun _ _ => rfl) c h x
@[simp] theorem Chip.setPower_dispatched (c : Chip) (h : Half) (x : PowerSt) : (c.setPower h x).dispatched = c.dispatched := Chip.setPower_keeps Chip.dispatched (fun _ _ => rfl) c h x
@[simp] theorem Chip.setPower_waits (c : Chip) (h : Half) (x : PowerSt) : (c.setPower h x).waits = c.waits := Chip.setPower_keeps Chip.waits (fun _ _ => rfl) c h x
@[simp] theorem Chip.setPower_pollRun (c : Chip) (h : Half) (x : PowerSt) : (c.setPower h x).pollRun = c.pollRun := Chip.setPower_keeps Chip.pollRun (fun _ _ => rfl) c h x
@[simp] theorem Chip.setPower_tb (c : Chip) (h : Half) (x : PowerSt) : (c.setPower h x).tb = c.tb := Chip.setPower_keeps Chip.tb (fun _ _ => rfl) c h x
@[simp] theorem Chip.setPower_kv (c : Chip) (h : Half) (x : PowerSt) : (c.setPower h x).kv = c.kv := Chip.setPower_keeps Chip.kv (fun _ _ => rfl) c h x
@[simp] theorem Chip.setPower_down (c : Chip) (h : Half) (x : PowerSt) : (c.setPower h x).down = c.down := Chip.setPower_keeps Chip.down (fun _ _ => rfl) c h x
@[simp] theorem Chip.setPower_log (c : Chip) (h : Half) (x : PowerSt) : (c.setPower h x).log = c.log := Chip.setPower_keeps Chip.log (fun _ _ => rfl) c h x
@[simp] theorem Chip.setPower_irqs (c : Chip) (h : Half) (x : PowerSt) : (c.setPower h x).irqs = c.irqs := Chip.setPower_keeps Chip.irqs (fun _ _ => rfl) c h x
@[simp] theorem Chip.setPower_freeCnt (c : Chip) (h : Half) (x : PowerSt) : (c.setPower h x).freeCnt = c.freeCnt := Chip.setPower_keeps Chip.freeCnt (fun _ _ => rfl) c h x
@[simp] theorem Chip.setPower_answer (c : Chip) (h : Half) (x : PowerSt) : (c.setPower h x).answer = c.answer := Chip.setPower_keeps Chip.answer (fun _ _ => rfl) c h x
@[simp] theorem Chip.setPower_slotLock (c : Chip) (h : Half) (x : PowerSt) : (c.setPower h x).slotLock = c.slotLock := Chip.setPower_keeps Chip.slotLock (fun _ _ => rfl) c h x
@[simp] theorem Chip.setPower_arrays (c : Chip) (h : Half) (x : PowerSt) : (c.setPower h x).arrays = c.arrays := Chip.setPower_keeps Chip.arrays (fun _ _ => rfl) c h x
@[simp] theorem Chip.setPower_cores (c : Chip) (h : Half) (x : PowerSt) : (c.setPower h x).cores = c.cores := Chip.setPower_keeps Chip.cores (fun _ _ => rfl) c h x
@[simp] theorem Chip.setPower_benches (c : Chip) (h : Half) (x : PowerSt) : (c.setPower h x).benches = c.benches := Chip.setPower_keeps Chip.benches (fun _ _ => rfl) c h x
@[simp] theorem Chip.setPower_kvFresh (c : Chip) (h : Half) (x : PowerSt) : (c.setPower h x).kvFresh = c.kvFresh := Chip.setPower_keeps Chip.kvFresh (fun _ _ => rfl) c h x
@[simp] theorem Chip.setPower_kvBack (c : Chip) (h : Half) (x : PowerSt) : (c.setPower h x).kvBack = c.kvBack := Chip.setPower_keeps Chip.kvBack (fun _ _ => rfl) c h x
@[simp] theorem Chip.setPower_kvPins (c : Chip) (h : Half) (x : PowerSt) : (c.setPower h x).kvPins = c.kvPins := Chip.setPower_keeps Chip.kvPins (fun _ _ => rfl) c h x
@[simp] theorem Chip.setPower_pinOps (c : Chip) (h : Half) (x : PowerSt) : (c.setPower h x).pinOps = c.pinOps := Chip.setPower_keeps Chip.pinOps (fun _ _ => rfl) c h x
@[simp] theorem Chip.setPower_pinWait (c : Chip) (h : Half) (x : PowerSt) : (c.setPower h x).pinWait = c.pinWait := Chip.setPower_keeps Chip.pinWait (fun _ _ => rfl) c h x
@[simp] theorem Chip.setPower_actx (c : Chip) (h : Half) (x : PowerSt) : (c.setPower h x).actx = c.actx := Chip.setPower_keeps Chip.actx (fun _ _ => rfl) c h x
@[simp] theorem Chip.setPower_bctx (c : Chip) (h : Half) (x : PowerSt) : (c.setPower h x).bctx = c.bctx := Chip.setPower_keeps Chip.bctx (fun _ _ => rfl) c h x
@[simp] theorem Chip.setPower_models (c : Chip) (h : Half) (x : PowerSt) : (c.setPower h x).models = c.models := Chip.setPower_keeps Chip.models (fun _ _ => rfl) c h x
@[simp] theorem Chip.setPower_modelNext (c : Chip) (h : Half) (x : PowerSt) : (c.setPower h x).modelNext = c.modelNext := Chip.setPower_keeps Chip.modelNext (fun _ _ => rfl) c h x
@[simp] theorem Chip.setPower_boosts (c : Chip) (h : Half) (x : PowerSt) : (c.setPower h x).boosts = c.boosts := Chip.setPower_keeps Chip.boosts (fun _ _ => rfl) c h x
@[simp] theorem Chip.setPower_partTurns (c : Chip) (h : Half) (x : PowerSt) : (c.setPower h x).partTurns = c.partTurns := Chip.setPower_keeps Chip.partTurns (fun _ _ => rfl) c h x
@[simp] theorem Chip.setPower_partyTurns (c : Chip) (h : Half) (x : PowerSt) : (c.setPower h x).partyTurns = c.partyTurns := Chip.setPower_keeps Chip.partyTurns (fun _ _ => rfl) c h x
@[simp] theorem Chip.setPower_blockedAt (c : Chip) (h : Half) (x : PowerSt) : (c.setPower h x).blockedAt = c.blockedAt := Chip.setPower_keeps Chip.blockedAt (fun _ _ => rfl) c h x
@[simp] theorem Chip.setPower_attnQuanta (c : Chip) (h : Half) (x : PowerSt) : (c.setPower h x).attnQuanta = c.attnQuanta := Chip.setPower_keeps Chip.attnQuanta (fun _ _ => rfl) c h x
@[simp] theorem Chip.setPower_sharePend (c : Chip) (h : Half) (x : PowerSt) : (c.setPower h x).sharePend = c.sharePend := Chip.setPower_keeps Chip.sharePend (fun _ _ => rfl) c h x
@[simp] theorem Chip.setPower_viNew (c : Chip) (h : Half) (x : PowerSt) : (c.setPower h x).viNew = c.viNew := Chip.setPower_keeps Chip.viNew (fun _ _ => rfl) c h x
@[simp] theorem Chip.setPower_viDestroy (c : Chip) (h : Half) (x : PowerSt) : (c.setPower h x).viDestroy = c.viDestroy := Chip.setPower_keeps Chip.viDestroy (fun _ _ => rfl) c h x
@[simp] theorem Chip.setPower_viStart (c : Chip) (h : Half) (x : PowerSt) : (c.setPower h x).viStart = c.viStart := Chip.setPower_keeps Chip.viStart (fun _ _ => rfl) c h x
@[simp] theorem Chip.setPower_viSelf (c : Chip) (h : Half) (x : PowerSt) : (c.setPower h x).viSelf = c.viSelf := Chip.setPower_keeps Chip.viSelf (fun _ _ => rfl) c h x
@[simp] theorem Chip.setPower_viFlr (c : Chip) (h : Half) (x : PowerSt) : (c.setPower h x).viFlr = c.viFlr := Chip.setPower_keeps Chip.viFlr (fun _ _ => rfl) c h x
@[simp] theorem Chip.setPower_slots (c : Chip) (h : Half) (x : PowerSt) : (c.setPower h x).slots = c.slots := Chip.setPower_keeps Chip.slots (fun _ _ => rfl) c h x
@[simp] theorem Chip.setPower_slotBase (c : Chip) (h : Half) (x : PowerSt) : (c.setPower h x).slotBase = c.slotBase := Chip.setPower_keeps Chip.slotBase (fun _ _ => rfl) c h x
@[simp] theorem Chip.setPower_pins (c : Chip) (h : Half) (x : PowerSt) : (c.setPower h x).pins = c.pins := Chip.setPower_keeps Chip.pins (fun _ _ => rfl) c h x
@[simp] theorem Chip.setPower_frames (c : Chip) (h : Half) (x : PowerSt) : (c.setPower h x).frames = c.frames := Chip.setPower_keeps Chip.frames (fun _ _ => rfl) c h x
@[simp] theorem Chip.setPower_roughMoved (c : Chip) (h : Half) (x : PowerSt) : (c.setPower h x).roughMoved = c.roughMoved := Chip.setPower_keeps Chip.roughMoved (fun _ _ => rfl) c h x
@[simp] theorem Chip.setPower_auth (c : Chip) (h : Half) (x : PowerSt) : (c.setPower h x).auth = c.auth := Chip.setPower_keeps Chip.auth (fun _ _ => rfl) c h x
@[simp] theorem Chip.setPower_authWire (c : Chip) (h : Half) (x : PowerSt) : (c.setPower h x).authWire = c.authWire := Chip.setPower_keeps Chip.authWire (fun _ _ => rfl) c h x
@[simp] theorem Chip.setPower_gapFrom (c : Chip) (h : Half) (x : PowerSt) : (c.setPower h x).gapFrom = c.gapFrom := Chip.setPower_keeps Chip.gapFrom (fun _ _ => rfl) c h x
@[simp] theorem Chip.setPower_lastDriver (c : Chip) (h : Half) (x : PowerSt) : (c.setPower h x).lastDriver = c.lastDriver := Chip.setPower_keeps Chip.lastDriver (fun _ _ => rfl) c h x
@[simp] theorem Chip.setPower_loops (c : Chip) (h : Half) (x : PowerSt) : (c.setPower h x).loops = c.loops := Chip.setPower_keeps Chip.loops (fun _ _ => rfl) c h x
@[simp] theorem Chip.setPower_steadyCmd (c : Chip) (h : Half) (x : PowerSt) : (c.setPower h x).steadyCmd = c.steadyCmd := Chip.setPower_keeps Chip.steadyCmd (fun _ _ => rfl) c h x
@[simp] theorem Chip.setPower_env (c : Chip) (h : Half) (x : PowerSt) : (c.setPower h x).env = c.env := Chip.setPower_keeps Chip.env (fun _ _ => rfl) c h x
@[simp] theorem Chip.setPower_hio (c : Chip) (h : Half) (x : PowerSt) : (c.setPower h x).hio = c.hio := Chip.setPower_keeps Chip.hio (fun _ _ => rfl) c h x
@[simp] theorem Chip.setPower_gwQueue (c : Chip) (h : Half) (x : PowerSt) : (c.setPower h x).gwQueue = c.gwQueue := Chip.setPower_keeps Chip.gwQueue (fun _ _ => rfl) c h x
@[simp] theorem Chip.setPower_gwSends (c : Chip) (h : Half) (x : PowerSt) : (c.setPower h x).gwSends = c.gwSends := Chip.setPower_keeps Chip.gwSends (fun _ _ => rfl) c h x
@[simp] theorem Chip.setPower_gwLate (c : Chip) (h : Half) (x : PowerSt) : (c.setPower h x).gwLate = c.gwLate := Chip.setPower_keeps Chip.gwLate (fun _ _ => rfl) c h x
@[simp] theorem Chip.setPower_gwRoutes (c : Chip) (h : Half) (x : PowerSt) : (c.setPower h x).gwRoutes = c.gwRoutes := Chip.setPower_keeps Chip.gwRoutes (fun _ _ => rfl) c h x
@[simp] theorem Chip.setPower_gwTx (c : Chip) (h : Half) (x : PowerSt) : (c.setPower h x).gwTx = c.gwTx := Chip.setPower_keeps Chip.gwTx (fun _ _ => rfl) c h x
@[simp] theorem Chip.setPower_gwInstant (c : Chip) (h : Half) (x : PowerSt) : (c.setPower h x).gwInstant = c.gwInstant := Chip.setPower_keeps Chip.gwInstant (fun _ _ => rfl) c h x
@[simp] theorem Chip.setPower_gwCredit (c : Chip) (h : Half) (x : PowerSt) : (c.setPower h x).gwCredit = c.gwCredit := Chip.setPower_keeps Chip.gwCredit (fun _ _ => rfl) c h x
@[simp] theorem Chip.setPower_gwHeld (c : Chip) (h : Half) (x : PowerSt) : (c.setPower h x).gwHeld = c.gwHeld := Chip.setPower_keeps Chip.gwHeld (fun _ _ => rfl) c h x
@[simp] theorem Chip.setPower_gwGates (c : Chip) (h : Half) (x : PowerSt) : (c.setPower h x).gwGates = c.gwGates := Chip.setPower_keeps Chip.gwGates (fun _ _ => rfl) c h x
@[simp] theorem Chip.setPower_gwPulse (c : Chip) (h : Half) (x : PowerSt) : (c.setPower h x).gwPulse = c.gwPulse := Chip.setPower_keeps Chip.gwPulse (fun _ _ => rfl) c h x
@[simp] theorem Chip.setPower_gwChans (c : Chip) (h : Half) (x : PowerSt) : (c.setPower h x).gwChans = c.gwChans := Chip.setPower_keeps Chip.gwChans (fun _ _ => rfl) c h x
@[simp] theorem Chip.setPower_cams (c : Chip) (h : Half) (x : PowerSt) : (c.setPower h x).cams = c.cams := Chip.setPower_keeps Chip.cams (fun _ _ => rfl) c h x
@[simp] theorem Chip.setPower_scans (c : Chip) (h : Half) (x : PowerSt) : (c.setPower h x).scans = c.scans := Chip.setPower_keeps Chip.scans (fun _ _ => rfl) c h x
@[simp] theorem Chip.setPower_cvuOrder (c : Chip) (h : Half) (x : PowerSt) : (c.setPower h x).cvuOrder = c.cvuOrder := Chip.setPower_keeps Chip.cvuOrder (fun _ _ => rfl) c h x
@[simp] theorem Chip.setPower_cvuRun (c : Chip) (h : Half) (x : PowerSt) : (c.setPower h x).cvuRun = c.cvuRun := Chip.setPower_keeps Chip.cvuRun (fun _ _ => rfl) c h x
@[simp] theorem Chip.setPower_time (c : Chip) (h : Half) (x : PowerSt) : (c.setPower h x).time = c.time := Chip.setPower_keeps Chip.time (fun _ _ => rfl) c h x
@[simp] theorem Chip.setPower_timeWrites (c : Chip) (h : Half) (x : PowerSt) : (c.setPower h x).timeWrites = c.timeWrites := Chip.setPower_keeps Chip.timeWrites (fun _ _ => rfl) c h x
@[simp] theorem Chip.setPower_ptpTx (c : Chip) (h : Half) (x : PowerSt) : (c.setPower h x).ptpTx = c.ptpTx := Chip.setPower_keeps Chip.ptpTx (fun _ _ => rfl) c h x
@[simp] theorem Chip.setPower_ptpRx (c : Chip) (h : Half) (x : PowerSt) : (c.setPower h x).ptpRx = c.ptpRx := Chip.setPower_keeps Chip.ptpRx (fun _ _ => rfl) c h x
@[simp] theorem Chip.setPower_ptpRun (c : Chip) (h : Half) (x : PowerSt) : (c.setPower h x).ptpRun = c.ptpRun := Chip.setPower_keeps Chip.ptpRun (fun _ _ => rfl) c h x
@[simp] theorem Chip.setPower_gwOut (c : Chip) (h : Half) (x : PowerSt) : (c.setPower h x).gwOut = c.gwOut := Chip.setPower_keeps Chip.gwOut (fun _ _ => rfl) c h x
@[simp] theorem Chip.setPower_sec (c : Chip) (h : Half) (x : PowerSt) : (c.setPower h x).sec = c.sec := Chip.setPower_keeps Chip.sec (fun _ _ => rfl) c h x
@[simp] theorem Chip.setPower_rpmb (c : Chip) (h : Half) (x : PowerSt) : (c.setPower h x).rpmb = c.rpmb := Chip.setPower_keeps Chip.rpmb (fun _ _ => rfl) c h x
@[simp] theorem Chip.setPower_bind (c : Chip) (h : Half) (x : PowerSt) : (c.setPower h x).bind = c.bind := Chip.setPower_keeps Chip.bind (fun _ _ => rfl) c h x
@[simp] theorem Chip.setPower_ownChg (c : Chip) (h : Half) (x : PowerSt) : (c.setPower h x).ownChg = c.ownChg := Chip.setPower_keeps Chip.ownChg (fun _ _ => rfl) c h x
@[simp] theorem Chip.setPower_apps (c : Chip) (h : Half) (x : PowerSt) : (c.setPower h x).apps = c.apps := Chip.setPower_keeps Chip.apps (fun _ _ => rfl) c h x
@[simp] theorem Chip.setPower_erasing (c : Chip) (h : Half) (x : PowerSt) : (c.setPower h x).erasing = c.erasing := Chip.setPower_keeps Chip.erasing (fun _ _ => rfl) c h x
@[simp] theorem Chip.setPower_start (c : Chip) (h : Half) (x : PowerSt) : (c.setPower h x).start = c.start := Chip.setPower_keeps Chip.start (fun _ _ => rfl) c h x
@[simp] theorem Chip.setPower_startOwn (c : Chip) (h : Half) (x : PowerSt) : (c.setPower h x).startOwn = c.startOwn := Chip.setPower_keeps Chip.startOwn (fun _ _ => rfl) c h x
@[simp] theorem Chip.setPower_startRings (c : Chip) (h : Half) (x : PowerSt) : (c.setPower h x).startRings = c.startRings := Chip.setPower_keeps Chip.startRings (fun _ _ => rfl) c h x
@[simp] theorem Chip.setPower_startInst (c : Chip) (h : Half) (x : PowerSt) : (c.setPower h x).startInst = c.startInst := Chip.setPower_keeps Chip.startInst (fun _ _ => rfl) c h x
@[simp] theorem Chip.setPower_saveArea (c : Chip) (h : Half) (x : PowerSt) : (c.setPower h x).saveArea = c.saveArea := Chip.setPower_keeps Chip.saveArea (fun _ _ => rfl) c h x
@[simp] theorem Chip.setPower_halted (c : Chip) (h : Half) (x : PowerSt) : (c.setPower h x).halted = c.halted := Chip.setPower_keeps Chip.halted (fun _ _ => rfl) c h x
@[simp] theorem Chip.setPower_txns (c : Chip) (h : Half) (x : PowerSt) : (c.setPower h x).txns = c.txns := Chip.setPower_keeps Chip.txns (fun _ _ => rfl) c h x
@[simp] theorem Chip.setPower_txnNext (c : Chip) (h : Half) (x : PowerSt) : (c.setPower h x).txnNext = c.txnNext := Chip.setPower_keeps Chip.txnNext (fun _ _ => rfl) c h x
@[simp] theorem Chip.setPower_txnSent (c : Chip) (h : Half) (x : PowerSt) : (c.setPower h x).txnSent = c.txnSent := Chip.setPower_keeps Chip.txnSent (fun _ _ => rfl) c h x
@[simp] theorem Chip.setPower_links (c : Chip) (h : Half) (x : PowerSt) : (c.setPower h x).links = c.links := Chip.setPower_keeps Chip.links (fun _ _ => rfl) c h x
@[simp] theorem Chip.setPower_farDevs (c : Chip) (h : Half) (x : PowerSt) : (c.setPower h x).farDevs = c.farDevs := Chip.setPower_keeps Chip.farDevs (fun _ _ => rfl) c h x
@[simp] theorem Chip.setPower_incarnation (c : Chip) (h : Half) (x : PowerSt) : (c.setPower h x).incarnation = c.incarnation := Chip.setPower_keeps Chip.incarnation (fun _ _ => rfl) c h x
@[simp] theorem Chip.setPower_linkless (c : Chip) (h : Half) (x : PowerSt) : (c.setPower h x).linkless = c.linkless := Chip.setPower_keeps Chip.linkless (fun _ _ => rfl) c h x
@[simp] theorem Chip.setPower_peerRuns (c : Chip) (h : Half) (x : PowerSt) : (c.setPower h x).peerRuns = c.peerRuns := Chip.setPower_keeps Chip.peerRuns (fun _ _ => rfl) c h x
@[simp] theorem Chip.setPower_filling (c : Chip) (h : Half) (x : PowerSt) : (c.setPower h x).filling = c.filling := Chip.setPower_keeps Chip.filling (fun _ _ => rfl) c h x
@[simp] theorem Chip.setPower_msix (c : Chip) (h : Half) (x : PowerSt) : (c.setPower h x).msix = c.msix := Chip.setPower_keeps Chip.msix (fun _ _ => rfl) c h x
@[simp] theorem Chip.setPower_vfRuns (c : Chip) (h : Half) (x : PowerSt) : (c.setPower h x).vfRuns = c.vfRuns := Chip.setPower_keeps Chip.vfRuns (fun _ _ => rfl) c h x
@[simp] theorem Chip.setPower_pcieOut (c : Chip) (h : Half) (x : PowerSt) : (c.setPower h x).pcieOut = c.pcieOut := Chip.setPower_keeps Chip.pcieOut (fun _ _ => rfl) c h x
@[simp] theorem Chip.setPower_flash (c : Chip) (h : Half) (x : PowerSt) : (c.setPower h x).flash = c.flash := Chip.setPower_keeps Chip.flash (fun _ _ => rfl) c h x
@[simp] theorem Chip.setPower_ledgerSeq (c : Chip) (h : Half) (x : PowerSt) : (c.setPower h x).ledgerSeq = c.ledgerSeq := Chip.setPower_keeps Chip.ledgerSeq (fun _ _ => rfl) c h x
@[simp] theorem Chip.setPower_ledgerRead (c : Chip) (h : Half) (x : PowerSt) : (c.setPower h x).ledgerRead = c.ledgerRead := Chip.setPower_keeps Chip.ledgerRead (fun _ _ => rfl) c h x
@[simp] theorem Chip.setPower_opTime (c : Chip) (h : Half) (x : PowerSt) : (c.setPower h x).opTime = c.opTime := Chip.setPower_keeps Chip.opTime (fun _ _ => rfl) c h x
@[simp] theorem Chip.setPower_mirrorRuns (c : Chip) (h : Half) (x : PowerSt) : (c.setPower h x).mirrorRuns = c.mirrorRuns := Chip.setPower_keeps Chip.mirrorRuns (fun _ _ => rfl) c h x
@[simp] theorem Chip.setPower_downSince (c : Chip) (h : Half) (x : PowerSt) : (c.setPower h x).downSince = c.downSince := Chip.setPower_keeps Chip.downSince (fun _ _ => rfl) c h x
@[simp] theorem Chip.setPower_storeErrs (c : Chip) (h : Half) (x : PowerSt) : (c.setPower h x).storeErrs = c.storeErrs := Chip.setPower_keeps Chip.storeErrs (fun _ _ => rfl) c h x
@[simp] theorem Chip.setPower_dataRows (c : Chip) (h : Half) (x : PowerSt) : (c.setPower h x).dataRows = c.dataRows := Chip.setPower_keeps Chip.dataRows (fun _ _ => rfl) c h x
@[simp] theorem Chip.setPower_dieOut (c : Chip) (h : Half) (x : PowerSt) : (c.setPower h x).dieOut = c.dieOut := Chip.setPower_keeps Chip.dieOut (fun _ _ => rfl) c h x

/-! ### `setSec` -/

@[simp] theorem Chip.setSec_regs (c : Chip) (h : Half) (x : SecSt) : (c.setSec h x).regs = c.regs := Chip.setSec_keeps Chip.regs (fun _ _ => rfl) c h x
@[simp] theorem Chip.setSec_mem (c : Chip) (h : Half) (x : SecSt) : (c.setSec h x).mem = c.mem := Chip.setSec_keeps Chip.mem (fun _ _ => rfl) c h x
@[simp] theorem Chip.setSec_garbled (c : Chip) (h : Half) (x : SecSt) : (c.setSec h x).garbled = c.garbled := Chip.setSec_keeps Chip.garbled (fun _ _ => rfl) c h x
@[simp] theorem Chip.setSec_poison (c : Chip) (h : Half) (x : SecSt) : (c.setSec h x).poison = c.poison := Chip.setSec_keeps Chip.poison (fun _ _ => rfl) c h x
@[simp] theorem Chip.setSec_own (c : Chip) (h : Half) (x : SecSt) : (c.setSec h x).own = c.own := Chip.setSec_keeps Chip.own (fun _ _ => rfl) c h x
@[simp] theorem Chip.setSec_holds (c : Chip) (h : Half) (x : SecSt) : (c.setSec h x).holds = c.holds := Chip.setSec_keeps Chip.holds (fun _ _ => rfl) c h x
@[simp] theorem Chip.setSec_rings (c : Chip) (h : Half) (x : SecSt) : (c.setSec h x).rings = c.rings := Chip.setSec_keeps Chip.rings (fun _ _ => rfl) c h x
@[simp] theorem Chip.setSec_cmds (c : Chip) (h : Half) (x : SecSt) : (c.setSec h x).cmds = c.cmds := Chip.setSec_keeps Chip.cmds (fun _ _ => rfl) c h x
@[simp] theorem Chip.setSec_dispatched (c : Chip) (h : Half) (x : SecSt) : (c.setSec h x).dispatched = c.dispatched := Chip.setSec_keeps Chip.dispatched (fun _ _ => rfl) c h x
@[simp] theorem Chip.setSec_waits (c : Chip) (h : Half) (x : SecSt) : (c.setSec h x).waits = c.waits := Chip.setSec_keeps Chip.waits (fun _ _ => rfl) c h x
@[simp] theorem Chip.setSec_pollRun (c : Chip) (h : Half) (x : SecSt) : (c.setSec h x).pollRun = c.pollRun := Chip.setSec_keeps Chip.pollRun (fun _ _ => rfl) c h x
@[simp] theorem Chip.setSec_tb (c : Chip) (h : Half) (x : SecSt) : (c.setSec h x).tb = c.tb := Chip.setSec_keeps Chip.tb (fun _ _ => rfl) c h x
@[simp] theorem Chip.setSec_kv (c : Chip) (h : Half) (x : SecSt) : (c.setSec h x).kv = c.kv := Chip.setSec_keeps Chip.kv (fun _ _ => rfl) c h x
@[simp] theorem Chip.setSec_down (c : Chip) (h : Half) (x : SecSt) : (c.setSec h x).down = c.down := Chip.setSec_keeps Chip.down (fun _ _ => rfl) c h x
@[simp] theorem Chip.setSec_log (c : Chip) (h : Half) (x : SecSt) : (c.setSec h x).log = c.log := Chip.setSec_keeps Chip.log (fun _ _ => rfl) c h x
@[simp] theorem Chip.setSec_irqs (c : Chip) (h : Half) (x : SecSt) : (c.setSec h x).irqs = c.irqs := Chip.setSec_keeps Chip.irqs (fun _ _ => rfl) c h x
@[simp] theorem Chip.setSec_freeCnt (c : Chip) (h : Half) (x : SecSt) : (c.setSec h x).freeCnt = c.freeCnt := Chip.setSec_keeps Chip.freeCnt (fun _ _ => rfl) c h x
@[simp] theorem Chip.setSec_answer (c : Chip) (h : Half) (x : SecSt) : (c.setSec h x).answer = c.answer := Chip.setSec_keeps Chip.answer (fun _ _ => rfl) c h x
@[simp] theorem Chip.setSec_slotLock (c : Chip) (h : Half) (x : SecSt) : (c.setSec h x).slotLock = c.slotLock := Chip.setSec_keeps Chip.slotLock (fun _ _ => rfl) c h x
@[simp] theorem Chip.setSec_arrays (c : Chip) (h : Half) (x : SecSt) : (c.setSec h x).arrays = c.arrays := Chip.setSec_keeps Chip.arrays (fun _ _ => rfl) c h x
@[simp] theorem Chip.setSec_cores (c : Chip) (h : Half) (x : SecSt) : (c.setSec h x).cores = c.cores := Chip.setSec_keeps Chip.cores (fun _ _ => rfl) c h x
@[simp] theorem Chip.setSec_benches (c : Chip) (h : Half) (x : SecSt) : (c.setSec h x).benches = c.benches := Chip.setSec_keeps Chip.benches (fun _ _ => rfl) c h x
@[simp] theorem Chip.setSec_kvFresh (c : Chip) (h : Half) (x : SecSt) : (c.setSec h x).kvFresh = c.kvFresh := Chip.setSec_keeps Chip.kvFresh (fun _ _ => rfl) c h x
@[simp] theorem Chip.setSec_kvBack (c : Chip) (h : Half) (x : SecSt) : (c.setSec h x).kvBack = c.kvBack := Chip.setSec_keeps Chip.kvBack (fun _ _ => rfl) c h x
@[simp] theorem Chip.setSec_kvPins (c : Chip) (h : Half) (x : SecSt) : (c.setSec h x).kvPins = c.kvPins := Chip.setSec_keeps Chip.kvPins (fun _ _ => rfl) c h x
@[simp] theorem Chip.setSec_pinOps (c : Chip) (h : Half) (x : SecSt) : (c.setSec h x).pinOps = c.pinOps := Chip.setSec_keeps Chip.pinOps (fun _ _ => rfl) c h x
@[simp] theorem Chip.setSec_pinWait (c : Chip) (h : Half) (x : SecSt) : (c.setSec h x).pinWait = c.pinWait := Chip.setSec_keeps Chip.pinWait (fun _ _ => rfl) c h x
@[simp] theorem Chip.setSec_actx (c : Chip) (h : Half) (x : SecSt) : (c.setSec h x).actx = c.actx := Chip.setSec_keeps Chip.actx (fun _ _ => rfl) c h x
@[simp] theorem Chip.setSec_bctx (c : Chip) (h : Half) (x : SecSt) : (c.setSec h x).bctx = c.bctx := Chip.setSec_keeps Chip.bctx (fun _ _ => rfl) c h x
@[simp] theorem Chip.setSec_models (c : Chip) (h : Half) (x : SecSt) : (c.setSec h x).models = c.models := Chip.setSec_keeps Chip.models (fun _ _ => rfl) c h x
@[simp] theorem Chip.setSec_modelNext (c : Chip) (h : Half) (x : SecSt) : (c.setSec h x).modelNext = c.modelNext := Chip.setSec_keeps Chip.modelNext (fun _ _ => rfl) c h x
@[simp] theorem Chip.setSec_boosts (c : Chip) (h : Half) (x : SecSt) : (c.setSec h x).boosts = c.boosts := Chip.setSec_keeps Chip.boosts (fun _ _ => rfl) c h x
@[simp] theorem Chip.setSec_partTurns (c : Chip) (h : Half) (x : SecSt) : (c.setSec h x).partTurns = c.partTurns := Chip.setSec_keeps Chip.partTurns (fun _ _ => rfl) c h x
@[simp] theorem Chip.setSec_partyTurns (c : Chip) (h : Half) (x : SecSt) : (c.setSec h x).partyTurns = c.partyTurns := Chip.setSec_keeps Chip.partyTurns (fun _ _ => rfl) c h x
@[simp] theorem Chip.setSec_blockedAt (c : Chip) (h : Half) (x : SecSt) : (c.setSec h x).blockedAt = c.blockedAt := Chip.setSec_keeps Chip.blockedAt (fun _ _ => rfl) c h x
@[simp] theorem Chip.setSec_attnQuanta (c : Chip) (h : Half) (x : SecSt) : (c.setSec h x).attnQuanta = c.attnQuanta := Chip.setSec_keeps Chip.attnQuanta (fun _ _ => rfl) c h x
@[simp] theorem Chip.setSec_sharePend (c : Chip) (h : Half) (x : SecSt) : (c.setSec h x).sharePend = c.sharePend := Chip.setSec_keeps Chip.sharePend (fun _ _ => rfl) c h x
@[simp] theorem Chip.setSec_viNew (c : Chip) (h : Half) (x : SecSt) : (c.setSec h x).viNew = c.viNew := Chip.setSec_keeps Chip.viNew (fun _ _ => rfl) c h x
@[simp] theorem Chip.setSec_viDestroy (c : Chip) (h : Half) (x : SecSt) : (c.setSec h x).viDestroy = c.viDestroy := Chip.setSec_keeps Chip.viDestroy (fun _ _ => rfl) c h x
@[simp] theorem Chip.setSec_viStart (c : Chip) (h : Half) (x : SecSt) : (c.setSec h x).viStart = c.viStart := Chip.setSec_keeps Chip.viStart (fun _ _ => rfl) c h x
@[simp] theorem Chip.setSec_viSelf (c : Chip) (h : Half) (x : SecSt) : (c.setSec h x).viSelf = c.viSelf := Chip.setSec_keeps Chip.viSelf (fun _ _ => rfl) c h x
@[simp] theorem Chip.setSec_viFlr (c : Chip) (h : Half) (x : SecSt) : (c.setSec h x).viFlr = c.viFlr := Chip.setSec_keeps Chip.viFlr (fun _ _ => rfl) c h x
@[simp] theorem Chip.setSec_slots (c : Chip) (h : Half) (x : SecSt) : (c.setSec h x).slots = c.slots := Chip.setSec_keeps Chip.slots (fun _ _ => rfl) c h x
@[simp] theorem Chip.setSec_slotBase (c : Chip) (h : Half) (x : SecSt) : (c.setSec h x).slotBase = c.slotBase := Chip.setSec_keeps Chip.slotBase (fun _ _ => rfl) c h x
@[simp] theorem Chip.setSec_pins (c : Chip) (h : Half) (x : SecSt) : (c.setSec h x).pins = c.pins := Chip.setSec_keeps Chip.pins (fun _ _ => rfl) c h x
@[simp] theorem Chip.setSec_frames (c : Chip) (h : Half) (x : SecSt) : (c.setSec h x).frames = c.frames := Chip.setSec_keeps Chip.frames (fun _ _ => rfl) c h x
@[simp] theorem Chip.setSec_roughMoved (c : Chip) (h : Half) (x : SecSt) : (c.setSec h x).roughMoved = c.roughMoved := Chip.setSec_keeps Chip.roughMoved (fun _ _ => rfl) c h x
@[simp] theorem Chip.setSec_auth (c : Chip) (h : Half) (x : SecSt) : (c.setSec h x).auth = c.auth := Chip.setSec_keeps Chip.auth (fun _ _ => rfl) c h x
@[simp] theorem Chip.setSec_authWire (c : Chip) (h : Half) (x : SecSt) : (c.setSec h x).authWire = c.authWire := Chip.setSec_keeps Chip.authWire (fun _ _ => rfl) c h x
@[simp] theorem Chip.setSec_gapFrom (c : Chip) (h : Half) (x : SecSt) : (c.setSec h x).gapFrom = c.gapFrom := Chip.setSec_keeps Chip.gapFrom (fun _ _ => rfl) c h x
@[simp] theorem Chip.setSec_lastDriver (c : Chip) (h : Half) (x : SecSt) : (c.setSec h x).lastDriver = c.lastDriver := Chip.setSec_keeps Chip.lastDriver (fun _ _ => rfl) c h x
@[simp] theorem Chip.setSec_loops (c : Chip) (h : Half) (x : SecSt) : (c.setSec h x).loops = c.loops := Chip.setSec_keeps Chip.loops (fun _ _ => rfl) c h x
@[simp] theorem Chip.setSec_steadyCmd (c : Chip) (h : Half) (x : SecSt) : (c.setSec h x).steadyCmd = c.steadyCmd := Chip.setSec_keeps Chip.steadyCmd (fun _ _ => rfl) c h x
@[simp] theorem Chip.setSec_env (c : Chip) (h : Half) (x : SecSt) : (c.setSec h x).env = c.env := Chip.setSec_keeps Chip.env (fun _ _ => rfl) c h x
@[simp] theorem Chip.setSec_hio (c : Chip) (h : Half) (x : SecSt) : (c.setSec h x).hio = c.hio := Chip.setSec_keeps Chip.hio (fun _ _ => rfl) c h x
@[simp] theorem Chip.setSec_gwQueue (c : Chip) (h : Half) (x : SecSt) : (c.setSec h x).gwQueue = c.gwQueue := Chip.setSec_keeps Chip.gwQueue (fun _ _ => rfl) c h x
@[simp] theorem Chip.setSec_gwSends (c : Chip) (h : Half) (x : SecSt) : (c.setSec h x).gwSends = c.gwSends := Chip.setSec_keeps Chip.gwSends (fun _ _ => rfl) c h x
@[simp] theorem Chip.setSec_gwLate (c : Chip) (h : Half) (x : SecSt) : (c.setSec h x).gwLate = c.gwLate := Chip.setSec_keeps Chip.gwLate (fun _ _ => rfl) c h x
@[simp] theorem Chip.setSec_gwRoutes (c : Chip) (h : Half) (x : SecSt) : (c.setSec h x).gwRoutes = c.gwRoutes := Chip.setSec_keeps Chip.gwRoutes (fun _ _ => rfl) c h x
@[simp] theorem Chip.setSec_gwTx (c : Chip) (h : Half) (x : SecSt) : (c.setSec h x).gwTx = c.gwTx := Chip.setSec_keeps Chip.gwTx (fun _ _ => rfl) c h x
@[simp] theorem Chip.setSec_gwInstant (c : Chip) (h : Half) (x : SecSt) : (c.setSec h x).gwInstant = c.gwInstant := Chip.setSec_keeps Chip.gwInstant (fun _ _ => rfl) c h x
@[simp] theorem Chip.setSec_gwCredit (c : Chip) (h : Half) (x : SecSt) : (c.setSec h x).gwCredit = c.gwCredit := Chip.setSec_keeps Chip.gwCredit (fun _ _ => rfl) c h x
@[simp] theorem Chip.setSec_gwHeld (c : Chip) (h : Half) (x : SecSt) : (c.setSec h x).gwHeld = c.gwHeld := Chip.setSec_keeps Chip.gwHeld (fun _ _ => rfl) c h x
@[simp] theorem Chip.setSec_gwGates (c : Chip) (h : Half) (x : SecSt) : (c.setSec h x).gwGates = c.gwGates := Chip.setSec_keeps Chip.gwGates (fun _ _ => rfl) c h x
@[simp] theorem Chip.setSec_gwPulse (c : Chip) (h : Half) (x : SecSt) : (c.setSec h x).gwPulse = c.gwPulse := Chip.setSec_keeps Chip.gwPulse (fun _ _ => rfl) c h x
@[simp] theorem Chip.setSec_gwChans (c : Chip) (h : Half) (x : SecSt) : (c.setSec h x).gwChans = c.gwChans := Chip.setSec_keeps Chip.gwChans (fun _ _ => rfl) c h x
@[simp] theorem Chip.setSec_cams (c : Chip) (h : Half) (x : SecSt) : (c.setSec h x).cams = c.cams := Chip.setSec_keeps Chip.cams (fun _ _ => rfl) c h x
@[simp] theorem Chip.setSec_scans (c : Chip) (h : Half) (x : SecSt) : (c.setSec h x).scans = c.scans := Chip.setSec_keeps Chip.scans (fun _ _ => rfl) c h x
@[simp] theorem Chip.setSec_cvuOrder (c : Chip) (h : Half) (x : SecSt) : (c.setSec h x).cvuOrder = c.cvuOrder := Chip.setSec_keeps Chip.cvuOrder (fun _ _ => rfl) c h x
@[simp] theorem Chip.setSec_cvuRun (c : Chip) (h : Half) (x : SecSt) : (c.setSec h x).cvuRun = c.cvuRun := Chip.setSec_keeps Chip.cvuRun (fun _ _ => rfl) c h x
@[simp] theorem Chip.setSec_time (c : Chip) (h : Half) (x : SecSt) : (c.setSec h x).time = c.time := Chip.setSec_keeps Chip.time (fun _ _ => rfl) c h x
@[simp] theorem Chip.setSec_timeWrites (c : Chip) (h : Half) (x : SecSt) : (c.setSec h x).timeWrites = c.timeWrites := Chip.setSec_keeps Chip.timeWrites (fun _ _ => rfl) c h x
@[simp] theorem Chip.setSec_ptpTx (c : Chip) (h : Half) (x : SecSt) : (c.setSec h x).ptpTx = c.ptpTx := Chip.setSec_keeps Chip.ptpTx (fun _ _ => rfl) c h x
@[simp] theorem Chip.setSec_ptpRx (c : Chip) (h : Half) (x : SecSt) : (c.setSec h x).ptpRx = c.ptpRx := Chip.setSec_keeps Chip.ptpRx (fun _ _ => rfl) c h x
@[simp] theorem Chip.setSec_ptpRun (c : Chip) (h : Half) (x : SecSt) : (c.setSec h x).ptpRun = c.ptpRun := Chip.setSec_keeps Chip.ptpRun (fun _ _ => rfl) c h x
@[simp] theorem Chip.setSec_gwOut (c : Chip) (h : Half) (x : SecSt) : (c.setSec h x).gwOut = c.gwOut := Chip.setSec_keeps Chip.gwOut (fun _ _ => rfl) c h x
@[simp] theorem Chip.setSec_rpmb (c : Chip) (h : Half) (x : SecSt) : (c.setSec h x).rpmb = c.rpmb := Chip.setSec_keeps Chip.rpmb (fun _ _ => rfl) c h x
@[simp] theorem Chip.setSec_bind (c : Chip) (h : Half) (x : SecSt) : (c.setSec h x).bind = c.bind := Chip.setSec_keeps Chip.bind (fun _ _ => rfl) c h x
@[simp] theorem Chip.setSec_ownChg (c : Chip) (h : Half) (x : SecSt) : (c.setSec h x).ownChg = c.ownChg := Chip.setSec_keeps Chip.ownChg (fun _ _ => rfl) c h x
@[simp] theorem Chip.setSec_apps (c : Chip) (h : Half) (x : SecSt) : (c.setSec h x).apps = c.apps := Chip.setSec_keeps Chip.apps (fun _ _ => rfl) c h x
@[simp] theorem Chip.setSec_erasing (c : Chip) (h : Half) (x : SecSt) : (c.setSec h x).erasing = c.erasing := Chip.setSec_keeps Chip.erasing (fun _ _ => rfl) c h x
@[simp] theorem Chip.setSec_start (c : Chip) (h : Half) (x : SecSt) : (c.setSec h x).start = c.start := Chip.setSec_keeps Chip.start (fun _ _ => rfl) c h x
@[simp] theorem Chip.setSec_startOwn (c : Chip) (h : Half) (x : SecSt) : (c.setSec h x).startOwn = c.startOwn := Chip.setSec_keeps Chip.startOwn (fun _ _ => rfl) c h x
@[simp] theorem Chip.setSec_startRings (c : Chip) (h : Half) (x : SecSt) : (c.setSec h x).startRings = c.startRings := Chip.setSec_keeps Chip.startRings (fun _ _ => rfl) c h x
@[simp] theorem Chip.setSec_startInst (c : Chip) (h : Half) (x : SecSt) : (c.setSec h x).startInst = c.startInst := Chip.setSec_keeps Chip.startInst (fun _ _ => rfl) c h x
@[simp] theorem Chip.setSec_saveArea (c : Chip) (h : Half) (x : SecSt) : (c.setSec h x).saveArea = c.saveArea := Chip.setSec_keeps Chip.saveArea (fun _ _ => rfl) c h x
@[simp] theorem Chip.setSec_halted (c : Chip) (h : Half) (x : SecSt) : (c.setSec h x).halted = c.halted := Chip.setSec_keeps Chip.halted (fun _ _ => rfl) c h x
@[simp] theorem Chip.setSec_txns (c : Chip) (h : Half) (x : SecSt) : (c.setSec h x).txns = c.txns := Chip.setSec_keeps Chip.txns (fun _ _ => rfl) c h x
@[simp] theorem Chip.setSec_txnNext (c : Chip) (h : Half) (x : SecSt) : (c.setSec h x).txnNext = c.txnNext := Chip.setSec_keeps Chip.txnNext (fun _ _ => rfl) c h x
@[simp] theorem Chip.setSec_txnSent (c : Chip) (h : Half) (x : SecSt) : (c.setSec h x).txnSent = c.txnSent := Chip.setSec_keeps Chip.txnSent (fun _ _ => rfl) c h x
@[simp] theorem Chip.setSec_links (c : Chip) (h : Half) (x : SecSt) : (c.setSec h x).links = c.links := Chip.setSec_keeps Chip.links (fun _ _ => rfl) c h x
@[simp] theorem Chip.setSec_farDevs (c : Chip) (h : Half) (x : SecSt) : (c.setSec h x).farDevs = c.farDevs := Chip.setSec_keeps Chip.farDevs (fun _ _ => rfl) c h x
@[simp] theorem Chip.setSec_incarnation (c : Chip) (h : Half) (x : SecSt) : (c.setSec h x).incarnation = c.incarnation := Chip.setSec_keeps Chip.incarnation (fun _ _ => rfl) c h x
@[simp] theorem Chip.setSec_linkless (c : Chip) (h : Half) (x : SecSt) : (c.setSec h x).linkless = c.linkless := Chip.setSec_keeps Chip.linkless (fun _ _ => rfl) c h x
@[simp] theorem Chip.setSec_peerRuns (c : Chip) (h : Half) (x : SecSt) : (c.setSec h x).peerRuns = c.peerRuns := Chip.setSec_keeps Chip.peerRuns (fun _ _ => rfl) c h x
@[simp] theorem Chip.setSec_filling (c : Chip) (h : Half) (x : SecSt) : (c.setSec h x).filling = c.filling := Chip.setSec_keeps Chip.filling (fun _ _ => rfl) c h x
@[simp] theorem Chip.setSec_msix (c : Chip) (h : Half) (x : SecSt) : (c.setSec h x).msix = c.msix := Chip.setSec_keeps Chip.msix (fun _ _ => rfl) c h x
@[simp] theorem Chip.setSec_vfRuns (c : Chip) (h : Half) (x : SecSt) : (c.setSec h x).vfRuns = c.vfRuns := Chip.setSec_keeps Chip.vfRuns (fun _ _ => rfl) c h x
@[simp] theorem Chip.setSec_pcieOut (c : Chip) (h : Half) (x : SecSt) : (c.setSec h x).pcieOut = c.pcieOut := Chip.setSec_keeps Chip.pcieOut (fun _ _ => rfl) c h x
@[simp] theorem Chip.setSec_power (c : Chip) (h : Half) (x : SecSt) : (c.setSec h x).power = c.power := Chip.setSec_keeps Chip.power (fun _ _ => rfl) c h x
@[simp] theorem Chip.setSec_flash (c : Chip) (h : Half) (x : SecSt) : (c.setSec h x).flash = c.flash := Chip.setSec_keeps Chip.flash (fun _ _ => rfl) c h x
@[simp] theorem Chip.setSec_ledgerSeq (c : Chip) (h : Half) (x : SecSt) : (c.setSec h x).ledgerSeq = c.ledgerSeq := Chip.setSec_keeps Chip.ledgerSeq (fun _ _ => rfl) c h x
@[simp] theorem Chip.setSec_ledgerRead (c : Chip) (h : Half) (x : SecSt) : (c.setSec h x).ledgerRead = c.ledgerRead := Chip.setSec_keeps Chip.ledgerRead (fun _ _ => rfl) c h x
@[simp] theorem Chip.setSec_opTime (c : Chip) (h : Half) (x : SecSt) : (c.setSec h x).opTime = c.opTime := Chip.setSec_keeps Chip.opTime (fun _ _ => rfl) c h x
@[simp] theorem Chip.setSec_mirrorRuns (c : Chip) (h : Half) (x : SecSt) : (c.setSec h x).mirrorRuns = c.mirrorRuns := Chip.setSec_keeps Chip.mirrorRuns (fun _ _ => rfl) c h x
@[simp] theorem Chip.setSec_downSince (c : Chip) (h : Half) (x : SecSt) : (c.setSec h x).downSince = c.downSince := Chip.setSec_keeps Chip.downSince (fun _ _ => rfl) c h x
@[simp] theorem Chip.setSec_storeErrs (c : Chip) (h : Half) (x : SecSt) : (c.setSec h x).storeErrs = c.storeErrs := Chip.setSec_keeps Chip.storeErrs (fun _ _ => rfl) c h x
@[simp] theorem Chip.setSec_dataRows (c : Chip) (h : Half) (x : SecSt) : (c.setSec h x).dataRows = c.dataRows := Chip.setSec_keeps Chip.dataRows (fun _ _ => rfl) c h x
@[simp] theorem Chip.setSec_dieOut (c : Chip) (h : Half) (x : SecSt) : (c.setSec h x).dieOut = c.dieOut := Chip.setSec_keeps Chip.dieOut (fun _ _ => rfl) c h x

/-! ### What is read back -/

theorem Pair.get_set_same {α : Type} (p : Pair α) (h : Half) (x : α) : (p.set h x).get h = x := by cases h <;> rfl
theorem Pair.get_set_other {α : Type} (p : Pair α) (h : Half) (x : α) : (p.set h x).get h.other = p.get h.other := by cases h <;> rfl
@[simp] theorem Chip.timeOf_setTime (c : Chip) (h : Half) (x : TimeSt) : (c.setTime h x).timeOf h = x := Pair.get_set_same c.time h x
@[simp] theorem Chip.timeOf_setTime_other (c : Chip) (h : Half) (x : TimeSt) : (c.setTime h x).timeOf h.other = c.timeOf h.other := Pair.get_set_other c.time h x
@[simp] theorem Chip.powerOf_setPower (c : Chip) (h : Half) (x : PowerSt) : (c.setPower h x).powerOf h = x := Pair.get_set_same c.power h x
@[simp] theorem Chip.powerOf_setPower_other (c : Chip) (h : Half) (x : PowerSt) : (c.setPower h x).powerOf h.other = c.powerOf h.other := Pair.get_set_other c.power h x
@[simp] theorem Chip.secOf_setSec (c : Chip) (h : Half) (x : SecSt) : (c.setSec h x).secOf h = x := Pair.get_set_same c.sec h x
@[simp] theorem Chip.secOf_setSec_other (c : Chip) (h : Half) (x : SecSt) : (c.setSec h x).secOf h.other = c.secOf h.other := Pair.get_set_other c.sec h x
@[simp] theorem Chip.startOf_setStart (c : Chip) (h : Half) (x : StartSt) : (c.setStart h x).startOf h = x := Pair.get_set_same c.start h x
@[simp] theorem Chip.startOf_setStart_other (c : Chip) (h : Half) (x : StartSt) : (c.setStart h x).startOf h.other = c.startOf h.other := Pair.get_set_other c.start h x
@[simp] theorem Chip.arr_setArr (c : Chip) (k : Nat) (x : ArrSt) : (c.setArr k x).arr k = x := Tbl.look_put_same _ _ _ _
theorem Chip.arr_setArr_ne (c : Chip) {j k : Nat} (x : ArrSt) (h : j ≠ k) : (c.setArr k x).arr j = c.arr j := Tbl.look_put_ne _ _ _ _ h
@[simp] theorem Chip.cam_setCam (c : Chip) (k : Nat) (x : CamSt) : (c.setCam k x).cam k = x := Tbl.look_put_same _ _ _ _
theorem Chip.cam_setCam_ne (c : Chip) {j k : Nat} (x : CamSt) (h : j ≠ k) : (c.setCam k x).cam j = c.cam j := Tbl.look_put_ne _ _ _ _ h
@[simp] theorem Chip.scan_setScan (c : Chip) (k : Nat) (x : ScanSt) : (c.setScan k x).scan k = x := Tbl.look_put_same _ _ _ _
theorem Chip.scan_setScan_ne (c : Chip) {j k : Nat} (x : ScanSt) (h : j ≠ k) : (c.setScan k x).scan j = c.scan j := Tbl.look_put_ne _ _ _ _ h
@[simp] theorem Chip.app_setApp (c : Chip) (k : Nat) (x : AppCore) : (c.setApp k x).app k = x := Tbl.look_put_same _ _ _ _
theorem Chip.app_setApp_ne (c : Chip) {j k : Nat} (x : AppCore) (h : j ≠ k) : (c.setApp k x).app j = c.app j := Tbl.look_put_ne _ _ _ _ h
@[simp] theorem Chip.bench_setBench (c : Chip) (k : Nat) (x : BenchSt) : (c.setBench k x).bench k = x := Tbl.look_put_same _ _ _ _
theorem Chip.bench_setBench_ne (c : Chip) {j k : Nat} (x : BenchSt) (h : j ≠ k) : (c.setBench k x).bench j = c.bench j := Tbl.look_put_ne _ _ _ _ h
@[simp] theorem Chip.linkSt_setLinkSt (c : Chip) (k : Nat) (x : LinkSt) : (c.setLinkSt k x).linkSt k = x := Tbl.look_put_same _ _ _ _
theorem Chip.linkSt_setLinkSt_ne (c : Chip) {j k : Nat} (x : LinkSt) (h : j ≠ k) : (c.setLinkSt k x).linkSt j = c.linkSt j := Tbl.look_put_ne _ _ _ _ h

end Sys2Proof.Machine
end

