-- ==== Sys2Proof/Laws/Events.lean ====
section
/-! SUPPORT. Events, records and completions: what they can change. `EventPart f` says that a part `f` of the chip reads
nothing that an event writes; such a part is kept by every event, and `cmds` besides by every completion. -/

namespace Sys2Proof.Machine

/-- A part of the chip that reads nothing that an event writes: registers, memory, what a granted write touches, rings, log,
ledger, interrupts. -/
def EventPart {γ : Type} (f : Chip → γ) : Prop :=
  ∀ c m o l k p r g w s i x, f { c with mem := m, own := o, filling := l, cores := k, poison := p, rings := r, log := g, flash := w, ledgerSeq := s, irqs := i, regs := x } = f c

section
variable {γ : Type} {f : Chip → γ}

theorem EventPart.store (h : EventPart f) (c : Chip) (a : Nat) (bs : List Byte) : f (c.store a bs) = f c :=
  Chip.store_keeps f (fun c m o l k p => h c m o l k p c.rings c.log c.flash c.ledgerSeq c.irqs c.regs) c a bs

theorem EventPart.setReg (h : EventPart f) (c : Chip) (a v : Nat) : f (c.setReg a v) = f c :=
  Chip.setReg_keeps f (fun c x => h c c.mem c.own c.filling c.cores c.poison c.rings c.log c.flash c.ledgerSeq c.irqs x) c a v

theorem EventPart.put (h : EventPart f) (c : Chip) (x : RF) (v : Nat) : f (c.put x v) = f c := h.setReg c _ _
theorem EventPart.inc (h : EventPart f) (c : Chip) (x : RF) : f (c.inc x) = f c := h.setReg c _ _

theorem EventPart.setRingSt (h : EventPart f) (c : Chip) (r : Nat) (x : RingSt) : f (c.setRingSt r x) = f c :=
  Chip.setRingSt_keeps f (fun c y => h c c.mem c.own c.filling c.cores c.poison y c.log c.flash c.ledgerSeq c.irqs c.regs) c r x

theorem EventPart.irqs (h : EventPart f) (c : Chip) (y : List IrqCell) : f { c with irqs := y } = f c :=
  h c c.mem c.own c.filling c.cores c.poison c.rings c.log c.flash c.ledgerSeq y c.regs

theorem EventPart.raiseIrq (h : EventPart f) (c : Chip) (k : Half) (p : Bool) (v : Nat) : f (c.raiseIrq k p v) = f c := by
  unfold Chip.raiseIrq
  split <;> exact h.irqs c _

theorem EventPart.interrupt (h : EventPart f) (c : Chip) (r : Nat) : f (c.interrupt r) = f c := by
  unfold Chip.interrupt
  split
  · exact h.raiseIrq c _ _ _
  · rfl

theorem EventPart.writeRecord (h : EventPart f) (c : Chip) (r size : Nat) (mk : Nat → Nat → Nat → List Byte) (reserved : Bool) :
    f (c.writeRecord r size mk reserved).2 = f c := by
  unfold Chip.writeRecord
  split
  · rfl
  · split
    · rfl
    · split
      · exact h.setRingSt c _ _
      · dsimp only
        split
        · exact (h.setRingSt _ _ _).trans (h.put c _ _)
        · exact (h.interrupt _ _).trans ((h.setRingSt _ _ _).trans (((h.setReg _ _ _).trans (h.setReg _ _ _)).trans ((h.setReg _ _ _).trans (h.store c _ _))))

theorem EventPart.flash (h : EventPart f) (c : Chip) (w : Pair FlashLedger) (s : Pair Nat) : f { c with flash := w, ledgerSeq := s } = f c :=
  h c c.mem c.own c.filling c.cores c.poison c.rings c.log w s c.irqs c.regs

theorem EventPart.ledger (h : EventPart f) (c : Chip) (k : Half) (kind : Nat) (body : List Byte) (sets : List (Nat × Nat)) :
    f (c.ledger k kind body sets) = f c := by
  unfold Chip.ledger
  dsimp only
  refine (foldl_keeps f _ (fun x y => ?_) _ _).trans (h.flash c c.flash _)
  split
  · rfl
  · exact h.flash x _ x.ledgerSeq

theorem EventPart.log (h : EventPart f) (c : Chip) (y : List LogEntry) : f { c with log := y } = f c :=
  h c c.mem c.own c.filling c.cores c.poison c.rings y c.flash c.ledgerSeq c.irqs c.regs

theorem EventPart.logEvent (h : EventPart f) (c : Chip) (e : Event) : f (c.logEvent e) = f c := by
  unfold Chip.logEvent
  split
  · rfl
  · exact (h.ledger _ _ _ _ _).trans ((h.inc _ _).trans (h.log c _))

theorem EventPart.raiseFw (h : EventPart f) (c : Chip) (e : Event) : f (c.raiseFw e) = f c := by
  unfold Chip.raiseFw
  split
  · rfl
  · rename_i r _
    have w := h.writeRecord c r 64 (fun p s l => e.bytes (c.stamp e.half 0) p s l) false
    split
    · rename_i he
      rw [he] at w
      split
      · exact (h.setRingSt _ _ _).trans w
      · exact w
    · rename_i he
      rw [he] at w
      exact w

theorem EventPart.recordRefused (h : EventPart f) (c : Chip) (d : Bool) (r a k : Nat) : f (c.recordRefused d r a k) = f c := by
  unfold Chip.recordRefused
  dsimp only
  split
  · exact (h.raiseFw _ _).trans (h.raiseFw c _)
  · exact h.raiseFw c _

theorem EventPart.raise (h : EventPart f) (c : Chip) (e : Event) : f (c.raise e) = f c := by
  have b : f ((c.logEvent e).raiseFw e) = f c := (h.raiseFw _ e).trans (h.logEvent c e)
  unfold Chip.raise
  dsimp only
  split
  · exact b
  · rename_i r _
    split
    · exact b
    · have w := (h.writeRecord ((c.logEvent e).raiseFw e) r 64
        (fun p s l => e.bytes (((c.logEvent e).raiseFw e).stamp e.half 0) p s l) false).trans b
      split
      · rename_i he
        rw [he] at w
        split
        · split
          · exact w
          · exact (h.raiseFw _ _).trans ((h.setRingSt _ _ _).trans w)
        · exact w
      · rename_i he
        rw [he] at w
        exact (h.recordRefused _ _ _ _ _).trans w
      · rename_i he
        rw [he] at w
        exact w

theorem EventPart.ev (h : EventPart f) (c : Chip) (k : Half) (code : Nat) (d : List Nat) : f (c.ev k code d) = f c := h.raise c _
theorem EventPart.evOf (h : EventPart f) (c : Chip) (k : Half) (code : Nat) (o : Owner) (d : List Nat) : f (c.evOf k code o d) = f c := h.raise c _
theorem EventPart.evCmd (h : EventPart f) (c : Chip) (k : Half) (code : Nat) (m : Cmd) (d : List Nat) : f (c.evCmd k code m d) = f c := h.raise c _

theorem EventPart.evBy (h : EventPart f) (c : Chip) (k : Half) (code : Nat) (r : Option Nat) (o : Owner) (d : List Nat) :
    f (c.evBy k code r o d) = f c := h.raise c _

theorem EventPart.setPair (h : EventPart f) (c : Chip) (lo hi v : Nat) : f (c.setPair lo hi v) = f c := (h.setReg _ _ _).trans (h.setReg c _ _)

theorem EventPart.signal (h : EventPart f) (c : Chip) (o : Owner) (d op v : Nat) (r : Option Nat) : f (c.signal o d op v r) = f c := by
  unfold Chip.signal
  split
  · rfl
  · split
    · exact h.evBy c _ _ _ _ _
    · split
      · exact h.setPair c _ _ _
      · split
        · unfold Chip.dowelAdd
          dsimp only
          split
          · exact h.setPair c _ _ _
          · exact (h.evBy _ _ _ _ _ _).trans (h.setPair c _ _ _)
        · rfl

end

/-! ### Completions -/

theorem Chip.latest_id (c : Chip) (m : Cmd) : (c.latest m).id = m.id := by
  unfold Chip.latest
  split <;> rfl

/-- A write of a register changes registers alone, also after other such changes. -/
theorem Chip.setReg_regs (c : Chip) (y : Tbl Word) (a v : Nat) : ∃ x, Chip.setReg { c with regs := y } a v = { c with regs := x } := ⟨_, rfl⟩

/-- The counting of a pair of registers changes registers alone. -/
theorem Chip.countPair_regs (c : Chip) (lo hi n : Nat) : ∃ x, c.countPair lo hi n = { c with regs := x } := by
  unfold Chip.countPair Chip.setPair
  obtain ⟨x, hx⟩ := Chip.setReg_regs c c.regs lo _
  exact hx ▸ Chip.setReg_regs c x hi _

theorem Chip.partingIdle_regs (c : Chip) (m : Cmd) : ∃ x, c.partingIdle m = { c with regs := x } := by
  unfold Chip.partingIdle
  split
  · unfold Chip.put
    obtain ⟨x, hx⟩ := Chip.setReg_regs c c.regs _ _
    obtain ⟨y, hy⟩ := Chip.setReg_regs c x _ _
    rw [hx, hy]
    exact Chip.setReg_regs c y _ _
  · exact ⟨c.regs, rfl⟩

/-- A command that leaves takes itself out of flight; every other part of the chip that no event writes is kept, registers changed
before that included. -/
theorem Chip.leave_keeps {γ : Type} {f : Chip → γ} (h : EventPart f) (c : Chip) (m : Cmd) (y : Tbl Word) :
    f (Chip.leave { c with regs := y } m) = f { c with cmds := c.cmds.filter fun x => x.id != m.id } := by
  obtain ⟨x, hx⟩ := Chip.partingIdle_regs { c with regs := y } m
  have hr := h { c with cmds := c.cmds.filter fun x => x.id != m.id } c.mem c.own c.filling c.cores c.poison c.rings c.log c.flash c.ledgerSeq c.irqs x
  unfold Chip.leave
  refine (h.put _ _ _).trans ((h.put _ _ _).trans ?_)
  rw [hx]
  unfold Chip.release
  split
  · exact hr
  · exact (h.setRingSt { c with regs := x, cmds := c.cmds.filter fun x => x.id != m.id } m.cq _).trans hr

/-- A completion takes the command out of flight; every other part of the chip that no event writes is kept. -/
theorem Chip.complete_keeps {γ : Type} {f : Chip → γ} (h : EventPart f) (c : Chip) (m : Cmd) (detail : Nat) :
    f (c.complete m detail) = f { c with cmds := c.cmds.filter fun x => x.id != m.id } := by
  unfold Chip.complete Chip.completeWith
  dsimp only
  rw [← Chip.latest_id c m]
  generalize c.latest m = m
  have ha : ∃ y, (if m.isAttn then c.countPair (Reg.ATTN_CMD_CNT_LO m.half.idx) (Reg.ATTN_CMD_CNT_HI m.half.idx) 1 else c) = { c with regs := y } := by
    split
    · exact Chip.countPair_regs c _ _ _
    · exact ⟨c.regs, rfl⟩
  obtain ⟨y, hy⟩ := ha
  rw [hy]
  have w := fun mk => (h.writeRecord (Chip.leave { c with regs := y } m) m.cq 32 mk true).trans (Chip.leave_keeps h c m y)
  split
  · rename_i he
    replace w := (congrArg (fun x => f x.2) he).symm.trans (w _)
    split
    · exact (h.signal _ _ _ _ _ _).trans ((h.setPair _ _ _ _).trans w)
    · exact (h.setPair _ _ _ _).trans w
  · rename_i he
    exact (h.recordRefused _ _ _ _ _).trans ((congrArg (fun x => f x.2) he).symm.trans (w _))
  · rename_i he
    exact (congrArg (fun x => f x.2) he).symm.trans (w _)

theorem eventPart_cmds : EventPart Chip.cmds := fun _ _ _ _ _ _ _ _ _ _ _ _ => rfl
theorem eventPart_down : EventPart Chip.down := fun _ _ _ _ _ _ _ _ _ _ _ _ => rfl
theorem eventPart_kv : EventPart Chip.kv := fun _ _ _ _ _ _ _ _ _ _ _ _ => rfl
theorem eventPart_slots : EventPart Chip.slots := fun _ _ _ _ _ _ _ _ _ _ _ _ => rfl
theorem eventPart_arrays : EventPart Chip.arrays := fun _ _ _ _ _ _ _ _ _ _ _ _ => rfl
theorem eventPart_time : EventPart Chip.time := fun _ _ _ _ _ _ _ _ _ _ _ _ => rfl
theorem eventPart_tb : EventPart Chip.tb := fun _ _ _ _ _ _ _ _ _ _ _ _ => rfl
theorem eventPart_sec : EventPart Chip.sec := fun _ _ _ _ _ _ _ _ _ _ _ _ => rfl
theorem eventPart_power : EventPart Chip.power := fun _ _ _ _ _ _ _ _ _ _ _ _ => rfl
theorem eventPart_txns : EventPart Chip.txns := fun _ _ _ _ _ _ _ _ _ _ _ _ => rfl
theorem eventPart_waits : EventPart Chip.waits := fun _ _ _ _ _ _ _ _ _ _ _ _ => rfl
theorem eventPart_freeCnt : EventPart Chip.freeCnt := fun _ _ _ _ _ _ _ _ _ _ _ _ => rfl

/-- A command that has completed is no longer in flight. -/
theorem Chip.cmd?_complete (c : Chip) (m : Cmd) (detail : Nat) : (c.complete m detail).cmd? m.id = none := by
  unfold Chip.cmd?
  rw [Chip.complete_keeps eventPart_cmds]
  simp

end Sys2Proof.Machine
end

