-- ==== Sys2Proof/Laws/Registers.lean ====
section
/-! SUPPORT. Registers and their fields: a read after a write, of the register or field written and of every other. -/

namespace Sys2Proof.Machine

theorem Chip.reg_setReg_same (c : Chip) (a v : Nat) : (c.setReg a v).reg a = v % 2 ^ 32 := by
  have h : Tbl.look (regReset a) (c.setReg a v).regs a = BitVec.ofNat 32 v := Tbl.look_put_same _ _ _ _
  unfold Chip.reg
  rw [h, BitVec.toNat_ofNat]

theorem Chip.reg_setReg_ne (c : Chip) {a b : Nat} (v : Nat) (h : b ≠ a) : (c.setReg a v).reg b = c.reg b := by
  have h : Tbl.look (regReset b) (c.setReg a v).regs b = Tbl.look (regReset b) c.regs b := Tbl.look_put_ne _ _ _ _ h
  unfold Chip.reg
  rw [h]

theorem Chip.reg_lt (c : Chip) (a : Nat) : c.reg a < 2 ^ 32 := (Tbl.look (regReset a) c.regs a).isLt

/-- A part of the chip that reads the same registers reads the same value. -/
theorem Chip.reg_of_regs {c d : Chip} (h : d.regs = c.regs) (a : Nat) : d.reg a = c.reg a := by
  unfold Chip.reg
  rw [h]

theorem Chip.q_of_regs {c d : Chip} (h : d.regs = c.regs) (f : RF) : d.q f = c.q f := by
  unfold Chip.q
  rw [Chip.reg_of_regs h]

theorem Chip.q_setReg_ne (c : Chip) {a : Nat} (v : Nat) {f : RF} (h : f.addr ≠ a) : (c.setReg a v).q f = c.q f := by
  unfold Chip.q
  rw [Chip.reg_setReg_ne _ _ h]

theorem Chip.q_put_ne (c : Chip) {f g : RF} (v : Nat) (h : g.addr ≠ f.addr) : (c.put f v).q g = c.q g := c.q_setReg_ne _ h

theorem Chip.reg_put_ne (c : Chip) {f : RF} {a : Nat} (v : Nat) (h : a ≠ f.addr) : (c.put f v).reg a = c.reg a := c.reg_setReg_ne _ h

/-- A word split at a field, and put together with another value in it. -/
theorem field_split (r lo wid : Nat) : r = r / 2 ^ (lo + wid) * 2 ^ (lo + wid) + bits r lo wid * 2 ^ lo + r % 2 ^ lo := by
  have h1 := Nat.div_add_mod r (2 ^ lo)
  have h2 := Nat.div_add_mod (r / 2 ^ lo) (2 ^ wid)
  have h3 : r / 2 ^ (lo + wid) = r / 2 ^ lo / 2 ^ wid := by rw [pow_add, Nat.div_div_eq_div_mul]
  unfold bits
  rw [h3, pow_add]
  have e : r / 2 ^ lo / 2 ^ wid * (2 ^ lo * 2 ^ wid) + r / 2 ^ lo % 2 ^ wid * 2 ^ lo =
      2 ^ lo * (2 ^ wid * (r / 2 ^ lo / 2 ^ wid) + r / 2 ^ lo % 2 ^ wid) := by ring
  rw [e, h2, h1]

theorem field_put (r lo wid v : Nat) :
    r - bits r lo wid * 2 ^ lo + v % 2 ^ wid * 2 ^ lo = r / 2 ^ (lo + wid) * 2 ^ (lo + wid) + v % 2 ^ wid * 2 ^ lo + r % 2 ^ lo := by
  have := field_split r lo wid
  omega

theorem bits_of_sum (hi v low lo wid : Nat) (hl : low < 2 ^ lo) : bits (hi * 2 ^ (lo + wid) + v % 2 ^ wid * 2 ^ lo + low) lo wid = v % 2 ^ wid := by
  have e : hi * 2 ^ (lo + wid) + v % 2 ^ wid * 2 ^ lo + low = low + 2 ^ lo * (v % 2 ^ wid + 2 ^ wid * hi) := by rw [pow_add]; ring
  unfold bits
  rw [e, Nat.add_mul_div_left _ _ (Nat.two_pow_pos lo), Nat.div_eq_of_lt hl, Nat.zero_add, Nat.add_mul_mod_self_left, Nat.mod_mod]

/-- A field reads as the value last put into it. -/
theorem Chip.q_put_same (c : Chip) (f : RF) (v : Nat) (h : f.lo + f.wid ≤ 32) : (c.put f v).q f = v % 2 ^ f.wid := by
  have e : (c.put f v).reg f.addr = (c.reg f.addr - c.q f * 2 ^ f.lo + v % 2 ^ f.wid * 2 ^ f.lo) % 2 ^ 32 := c.reg_setReg_same _ _
  have b : c.reg f.addr - c.q f * 2 ^ f.lo + v % 2 ^ f.wid * 2 ^ f.lo < 2 ^ 32 := by
    have hq : c.q f = bits (c.reg f.addr) f.lo f.wid := rfl
    rw [hq, field_put]
    have hv : v % 2 ^ f.wid < 2 ^ f.wid := Nat.mod_lt _ (Nat.two_pow_pos _)
    have hm : c.reg f.addr % 2 ^ f.lo < 2 ^ f.lo := Nat.mod_lt _ (Nat.two_pow_pos _)
    have hd : c.reg f.addr / 2 ^ (f.lo + f.wid) < 2 ^ (32 - (f.lo + f.wid)) := by
      rw [Nat.div_lt_iff_lt_mul (Nat.two_pow_pos _), ← pow_add]
      have : 32 - (f.lo + f.wid) + (f.lo + f.wid) = 32 := by omega
      rw [this]
      exact c.reg_lt _
    have p1 : (v % 2 ^ f.wid + 1) * 2 ^ f.lo ≤ 2 ^ (f.lo + f.wid) := by
      rw [pow_add, mul_comm (2 ^ f.lo)]
      exact Nat.mul_le_mul_right _ hv
    have p2 : (c.reg f.addr / 2 ^ (f.lo + f.wid) + 1) * 2 ^ (f.lo + f.wid) ≤ 2 ^ 32 := by
      have : 2 ^ 32 = 2 ^ (32 - (f.lo + f.wid)) * 2 ^ (f.lo + f.wid) := by
        rw [← pow_add]
        congr 1
        omega
      rw [this]
      exact Nat.mul_le_mul_right _ hd
    rw [Nat.add_mul, Nat.one_mul] at p1 p2
    omega
  unfold Chip.q
  rw [e, Nat.mod_eq_of_lt b]
  have hq : c.q f = bits (c.reg f.addr) f.lo f.wid := rfl
  rw [hq, field_put]
  exact bits_of_sum _ _ _ _ _ (Nat.mod_lt _ (Nat.two_pow_pos _))

theorem Chip.on_put_same (c : Chip) (f : RF) (v : Nat) (h : f.lo + f.wid ≤ 32) : (c.put f v).on f = (v % 2 ^ f.wid != 0) := by
  unfold Chip.on
  rw [c.q_put_same f v h]

/-- A counter that counts one holds at its largest value. -/
theorem Chip.q_inc_same (c : Chip) (f : RF) (h : f.lo + f.wid ≤ 32) : (c.inc f).q f = min (c.q f + 1) (2 ^ f.wid - 1) := by
  have hp := Nat.two_pow_pos f.wid
  have e := c.q_put_same f (min (c.q f + 1) (2 ^ f.wid - 1)) h
  rw [Nat.mod_eq_of_lt (by omega)] at e
  exact e

/-! ### The canonical form of registers and ownership entries -/

theorem Chip.regsWf_setReg (c : Chip) (a v : Nat) (w : c.regsWf = true) : (c.setReg a v).regsWf = true := Tbl.wf_put (d := regReset) a _ w
theorem Chip.regsWf_put (c : Chip) (f : RF) (v : Nat) (w : c.regsWf = true) : (c.put f v).regsWf = true := c.regsWf_setReg _ _ w
theorem Chip.ownWf_setOwn (c : Chip) (i e : Nat) (w : c.ownWf = true) : (c.setOwn i e).ownWf = true := Tbl.wf_put (d := ownReset) i _ w

theorem Chip.ownAt_setOwn_same (c : Chip) (i e : Nat) : (c.setOwn i e).ownAt i = e % 2 ^ 32 := by
  have h : Tbl.look (ownReset i) (c.setOwn i e).own i = BitVec.ofNat 32 e := Tbl.look_put_same _ _ _ _
  unfold Chip.ownAt
  rw [h, BitVec.toNat_ofNat]

theorem Chip.ownAt_setOwn_ne (c : Chip) {i j : Nat} (e : Nat) (h : j ≠ i) : (c.setOwn i e).ownAt j = c.ownAt j := by
  have h : Tbl.look (ownReset j) (c.setOwn i e).own j = Tbl.look (ownReset j) c.own j := Tbl.look_put_ne _ _ _ _ h
  unfold Chip.ownAt
  rw [h]

end Sys2Proof.Machine
end

