-- ==== Sys2Proof/Tests/Slice0.lean ====
section
/-! SUPPORT. Tests: ill-formed commands, one step of single commands with results taken from the spec, and for each
statement with hypotheses a state and operands that meet them. -/

namespace Sys2Proof.Tests

set_option Elab.async false

open Sys2Proof.Machine

/-! ### Small states -/

/-- The chip after reset. -/
def c0 : Chip := State.reset.chip

/-- A state with this chip and no other command waiting. -/
def st (c : Chip) : State := ⟨c, []⟩

/-- A dispatched command of firmware on ring 0, number 0, for Headstock: opcode and descriptor words 1 on. -/
def mk (op : Nat) (ws : List Dword) : Cmd :=
  { id := ⟨0, 0, 0⟩, words := BitVec.ofNat 64 op :: ws, owner := 0, cls := 0, lowered := false, cq := 1, half := .H, unit := 0,
    stage := .queued, clamped := false, late := false, spare := false, doubt := false, empty := false, ended := none,
    n := 0, bytes := 0, aux := [] }

/-- The identifier of that command. -/
def id0 : CmdId := ⟨0, 0, 0⟩

/-- The chip with one command in flight. -/
def withCmd (c : Chip) (m : Cmd) : Chip := { c with cmds := [m] }

/-- Firmware, on an application core of Headstock. -/
def fw : Initiator := ⟨0, 0, .H, .core⟩

/-- A party of partition 1 in Sapwood. -/
def user : Initiator := ⟨0x100, 1, .H, .core⟩


/-! ### Ill-formed commands: one for each check -/

theorem test_ill_widths : (Instr.registerWrite fw 3 0 0).wf = false ∧ (Instr.registerRead fw 16 0).wf = false ∧
    (Instr.applicationCoreAccess 0 true .load 4 8 1 0).wf = false ∧ (Instr.applicationCoreAccess 0 true .load 8 0 1 0).wf = false := by decide
theorem test_ill_lengths : (Instr.transactionReturn 0 true (List.replicate 65 0) []).wf = false ∧
    (Instr.peerRequest .H 0 true 0 8 [1, 2]).wf = false ∧ (Instr.peerRequest .H 0 false 0 0 []).wf = false ∧
    (Instr.pcieInboundRequest .H ⟨0, 0, none, .bus 0, false, 4, [0]⟩).wf = false ∧ (Instr.temperatureRead .H [0]).wf = false ∧
    (Instr.powerEvaluation .H 0 0 []).wf = false ∧ (Instr.ownerBinding .H [] []).wf = false ∧ (Instr.romRecovery .T [0] []).wf = false ∧
    (Instr.romStart .H ⟨true, [], [], true, ⟨[], none⟩, ⟨[], none⟩⟩).wf = false := by decide +kernel
theorem test_ill_copy (l : List Byte) (h : 2 ^ 24 < l.length) : (Instr.copyCompletion 0 0 0 true l []).wf = false := by
  simpa [Instr.wf] using h
theorem test_ill_line (l : List (BitVec 16)) (h : 8192 < l.length) : (Instr.csiLine 0 0 0x2A l true true).wf = false := by
  simpa [Instr.wf] using h
theorem test_ill_frames : (Instr.frameReceived 0 ⟨3, 0, 0, 0, 0, []⟩).wf = false ∧ (Instr.frameReceived 0 ⟨16, 0, 0, 0, 0, []⟩).wf = false := by decide
theorem test_ill_lists : (Instr.diagnosisVerdict 0 ⟨.fails, .fails, [3, 3], false, false, []⟩).wf = false ∧
    (Instr.diagnosisVerdict 0 ⟨.fails, .fails, [], false, false, [5, 5]⟩).wf = false ∧ (Instr.goldenBlank 0 (.line true 128 false) .clean).wf = false ∧
    (Instr.goldenBlank 0 (.line false 514 false) .clean).wf = false ∧ (Instr.steadyUpdate .H [1, 1] []).wf = false ∧
    (Instr.steadyUpdate .H [] [(1, 2), (1, 2)]).wf = false ∧ (Instr.hourMark [.H, .H]).wf = false := by decide
/-- And well-formed ones that the checks admit. -/
theorem test_well_formed : (Instr.registerWrite fw 4 0 0).wf = true ∧ (Instr.peerRequest .H 0 true 0 2 [1, 2]).wf = true ∧
    (Instr.goldenBlank 0 (.line false 513 false) .clean).wf = true ∧ (Instr.frameReceived 0 ⟨0, 0x123, 0, 0, 0, [1, 2]⟩).wf = true ∧ (Instr.hourMark [.H, .T]).wf = true := by decide
/-- The table gives no row any bits: no word spells a command, and a word put in front changes nothing. -/
theorem test_no_words (n w : Nat) (s : State) : decodeTableWord n w = none ∧ s.withFetchWord n w = s := ⟨rfl, rfl⟩
/-- A command in front acts on the rest of the queue; on an empty queue a cycle passes. -/
theorem test_step : step ⟨c0, [.scrub 3]⟩ = exec (.scrub 3) (st c0) ∧ step (st c0) = .next (st c0.pass) := ⟨rfl, rfl⟩

/-! Witnesses of `IdleCycle`. -/

theorem witness_IdleCycle : State.reset.pending = [] := by decide

/-! Witnesses of `QueueKept`. -/

theorem witness_QueueKept : (State.reset.withPending [.tieHoldOffExpiry]).queueWf := by
  intro i h; cases h with
  | head => rfl
  | tail _ h => cases h

/-! Witnesses of `IntegerNumbers`. -/

theorem witness_IntegerNumbers : FV.toInt .rne (.fin true 5 (-1)) = some (-2) ∧ FV.toInt .rna (.fin true 5 (-1)) = some (-3) ∧ FV.toInt .rtz (.fin true 5 (-1)) = some (-2) := by decide +kernel
theorem test_int_conversion : convert 0x0 false .rne (.fin false 1000 0) = (127, true) ∧ convert 0x1 false .rtz (.fin true 17 (-1)) = (8, false) ∧ convert 0x7 true .rne .nan = (0, true) ∧
    accumulate true 0x7FFFFFFF (FV.ofInt 1) (FV.sum [(FV.ofInt 1).mul (FV.ofInt 1)]) = (0x7FFFFFFF, true) := by decide +kernel

/-! Witnesses of `ArraysTakeCommands`. -/

/-- Of the arrays of Headstock, only array 3 is enabled; the ledger has been read. -/
def arrChip (op : Nat) : Chip := withCmd (((({ c0 with ledgerRead := ⟨true, true⟩ }.put (F.ARRAY_CTL_ENABLE 0) 0).put (F.ARRAY_CTL_ENABLE 1) 0).put (F.ARRAY_CTL_ENABLE 2) 0).put (F.SCHED_PART_SAVE_SAVE_ARR 0) 1) (mk op [1])
theorem witness_ArraysTakeCommands_array : (arrChip 0x10).takeable id0 arrayOp = some (mk 0x10 [1]) ∧ (mk 0x10 [1]).opcode = 0x10 ∧ (arrChip 0x10).arrayOver (mk 0x10 [1]) = false ∧
    (arrChip 0x10).arrayOpen 3 (mk 0x10 [1]) = true ∧ (arrChip 0x10).outranked 3 (mk 0x10 [1]) = false ∧ (arrChip 0x10).lowerOpen 3 (mk 0x10 [1]) = false ∧
    ((arrChip 0x10).arr 3).resident = none ∧ ((arrChip 0x10).arr 3).awaited = false := by decide
theorem witness_ArraysTakeCommands_window : (arrChip 0x11).takeable id0 arrayOp = some (mk 0x11 [1]) ∧ (mk 0x11 [1]).opcode = 0x11 ∧ (arrChip 0x11).arrayOver (mk 0x11 [1]) = false ∧
    (arrChip 0x11).arrayOpen 3 (mk 0x11 [1]) = true ∧ (arrChip 0x11).outranked 3 (mk 0x11 [1]) = false ∧ (arrChip 0x11).lowerOpen 3 (mk 0x11 [1]) = false := by decide

/-! Witnesses of `ArrayWork`. -/

def jobOf (loading : Bool) (n k : Nat) : ArrJob := ⟨id0, loading, n, k, n, 0, 0, false, false⟩
def workChip (j : ArrJob) (sh : Option (CmdId × Tile)) : Chip :=
  (withCmd c0 { mk 0x10 [BitVec.ofNat 64 (2047 * 2 ^ 48 + 6)] with stage := .running }).setArr 7 { ArrSt.zero with jobs := [j], shadow := sh }
theorem witness_ArrayWork_swap : (workChip (jobOf true 1 0) (some (id0, Tile.zero))).engineHalted (.array 7) = false ∧
    (workChip (jobOf true 1 0) (some (id0, Tile.zero))).noteRaces 7 = workChip (jobOf true 1 0) (some (id0, Tile.zero)) ∧
    ((workChip (jobOf true 1 0) (some (id0, Tile.zero))).nextSwap 7).map (·.1) = some (jobOf true 1 0) ∧
    ((workChip (jobOf true 1 0) (some (id0, Tile.zero))).arr 7).shadow = some (id0, Tile.zero) := by decide
theorem witness_ArrayWork_vector : (workChip (jobOf false 2 1) none).engineHalted (.array 7) = false ∧ (workChip (jobOf false 2 1) none).noteRaces 7 = workChip (jobOf false 2 1) none ∧
    (workChip (jobOf false 2 1) none).nextVector 7 = some (jobOf false 2 1, { mk 0x10 [BitVec.ofNat 64 (2047 * 2 ^ 48 + 6)] with stage := .running }) ∧
    ({ mk 0x10 [BitVec.ofNat 64 (2047 * 2 ^ 48 + 6)] with stage := .running } : Cmd).intPair = true ∧
    (jobOf false 2 1).wildThrough { mk 0x10 [BitVec.ofNat 64 (2047 * 2 ^ 48 + 6)] with stage := .running } ((workChip (jobOf false 2 1) none).arr 7).active = false := by decide
theorem witness_ArrayWork_drain : (workChip (jobOf false 2 2) none).engineHalted (.array 7) = false ∧ (workChip (jobOf false 2 2) none).noteRaces 7 = workChip (jobOf false 2 2) none ∧
    (workChip (jobOf false 2 2) none).nextDrain 7 = some (jobOf false 2 2, { mk 0x10 [BitVec.ofNat 64 (2047 * 2 ^ 48 + 6)] with stage := .running }) := by decide

/-! Witnesses of `ArrayEnds`. -/

theorem witness_ArrayEnds_completion : (workChip { jobOf false 2 2 with drained := 2 } none).jobDone 7 id0 =
      some ({ jobOf false 2 2 with drained := 2 }, { mk 0x10 [BitVec.ofNat 64 (2047 * 2 ^ 48 + 6)] with stage := .running }) := by decide
def mapChip (isRow : Bool) : Chip := c0.setArr 7 { ArrSt.zero with remaps := [⟨isRow, 127, none⟩] }
theorem witness_ArrayEnds_row : ((mapChip true).arr 7).remaps = [⟨true, 127, none⟩] ∧ (mapChip true).remapping 7 = true ∧ (mapChip true).freeRow 7 = some 0 := by decide
theorem witness_ArrayEnds_column : ((mapChip false).arr 7).remaps = [⟨false, 127, none⟩] ∧ (mapChip false).remapping 7 = true ∧ (mapChip false).freeCol 7 = some 0 := by decide
theorem witness_ArrayEnds_retire : c0.portCause fw true (Reg.ARRAY_RETIRE 7) = 0 ∧ c0.down.get (arrayHalf 7) = false ∧ c0.on (F.ARRAY_STATUS_RETIRED 7) = false := by decide

/-! Witnesses of `GougeTasks`. -/

def taskCmd : Cmd := mk 0x20 [BitVec.ofNat 64 (0x1000000000 + 2 ^ 48), BitVec.ofNat 64 0x1000000000, BitVec.ofNat 64 (2 ^ 15), 0]
def taskChip : Chip := withCmd ((c0.put (F.BENCH_CTL_ENABLE 15) 1).put (F.SCHED_PART_SAVE_SAVE_BENCH 0) 1) taskCmd
theorem witness_GougeTasks_start : taskChip.takeable id0 (· == 0x20) = some taskCmd ∧
    (taskCmd.cores60.train && taskCmd.cores60.owner.part != 0 && taskChip.partClass taskCmd.cores60.owner.part == 0) = false ∧
    taskCmd.cores60.taskBenches.any (taskChip.benchRefused taskCmd.cores60) = false ∧ taskChip.taskOver taskCmd.cores60 .H = false ∧
    taskChip.taskOver taskCmd.cores60 .T = false ∧ taskCmd.cores60.taskBenches.all (taskChip.benchFree taskCmd.cores60) = true ∧
    taskChip.taskOutranked taskCmd.cores60 = false ∧ taskChip.reachCause taskCmd.cores60.half taskCmd.cores60.owner false taskCmd.cores60.progAddr taskCmd.cores60.progLen .answered = none ∧
    taskChip.reachCause taskCmd.cores60.half taskCmd.cores60.owner false taskCmd.cores60.argAddr taskCmd.cores60.argLen .answered = none := by decide
def ranCmd : Cmd := { taskCmd with stage := .running }
def ranChip : Chip := (withCmd c0 ranCmd).setCore 15 0 { Core.zero with task := some id0, exit := 3 }
theorem witness_GougeTasks_completion : ranChip.cmd? id0 = some ranCmd ∧ ranCmd.opcode = 0x20 ∧ ranCmd.stage = .running ∧
    ranChip.taskOver? ranCmd = true := by decide
def testChip : Chip := c0.put (F.BENCH_CTL_TEST_EN 31) 1
theorem witness_GougeTasks_coreTest : testChip.on (F.BENCH_CTL_TEST_EN 31) = true ∧ testChip.down.get (benchHalf 31) = false ∧
    testChip.unitOn (8 + 31) = true ∧ (testChip.bench 31).task = none ∧ (testChip.bench 31).retired.contains 59 = false ∧
    testChip.on (F.BENCH_STATUS_RETIRED 31) = false ∧
    ((testChip.setBench 31 { testChip.bench 31 with retired := [59] }).dec (F.BENCH_CORES_HEALTHY 31)).logicalOf 31 59 = some 59 ∧
    ((testChip.setBench 31 { testChip.bench 31 with retired := [59] }).dec (F.BENCH_CORES_HEALTHY 31)).freeSpare 31 = some 60 := by decide
theorem witness_GougeTasks_retire : c0.portCause fw true (Reg.BENCH_RETIRE 31) = 0 ∧ c0.down.get (benchHalf 31) = false ∧
    c0.on (F.BENCH_STATUS_RETIRED 31) = false := by decide

/-! Witnesses of `GougeBase`. -/

/-- The chip with a core of a running task whose next instruction is `w`. -/
def coreChip (w : Nat) (x : Core) : Chip :=
  (((withCmd c0 ranCmd).setBench 15 { BenchSt.zero with task := some id0 }).setCore 15 59 { x with task := some id0, stall := .none, pc := 0x13FFC }).store (instStore 15 59 + 0x3FFC) (toLE 4 w)
theorem witness_GougeBase : (coreChip 0xFFF00093 Core.zero).coreRuns 15 59 = true ∧
    (coreChip 0xFFF00093 Core.zero).fetchAt 15 59 ((coreChip 0xFFF00093 Core.zero).core 15 59).pc = some (0xFFF00093, 4) ∧
    isDarienor 0xFFF00093 = false ∧ 0xFFF00093 % 128 = 0x13 ∧ insF3 0xFFF00093 = 0 := by decide
/-- addi x1, x0, -1 gives all ones. -/
theorem test_addi : (match exec (.gougeInstruction 15 59 .clean) (st (coreChip 0xFFF00093 Core.zero)) with
    | .next t => (t.chip.core 15 59).xr 1
    | _ => 0) = 2 ^ 64 - 1 := by decide

/-! Witnesses of `GougeSlivers`. -/

/-- A copy of one byte inside the data store, or still in flight. -/
def sliver (a : Nat) : List Dword := [BitVec.ofNat 64 (a + 2 * 2 ^ 48), BitVec.ofNat 64 (1 + 2 ^ 16 + 2 ^ 32), 0, BitVec.ofNat 64 (2 ^ 16)]
def flying : GCopy := ⟨sliver 0, sliver 8, false, false, false, none, false, none, none, 0⟩
theorem witness_GougeSlivers_sld : (coreChip 0x0000800B ((Core.zero).xw 1 0xBFE0)).nextWord 15 59 = some 0x0000800B ∧
    0x0000800B % 128 = 0x0B ∧ insF3 0x0000800B = 0 ∧ bits 0x0000800B 23 9 = 0 ∧
    ((coreChip 0x0000800B ((Core.zero).xw 1 0xBFE0)).core 15 59).xr 1 + 32 ≤ 0xC000 ∧
    ((coreChip 0x0000800B ((Core.zero).xw 1 0xBFE0)).crossing ((coreChip 0x0000800B ((Core.zero).xw 1 0xBFE0)).core 15 59) 15 59 (dataStore 15 59 + 0xBFE0) 32).2.2 = false := by decide
def slotted : Core := { Core.zero with slots := [(0, sliver 0), (7, sliver 8)] }
theorem witness_GougeSlivers_copy : (coreChip 0x00A0918B (slotted.xw 10 7)).nextWord 15 59 = some 0x00A0918B ∧ isGc 0x00A0918B 1 0 = true ∧
    ((coreChip 0x00A0918B (slotted.xw 10 7)).core 15 59).freeTags ≠ [] ∧ copyOutside (sliver 0) (sliver 8) = false := by decide
theorem witness_GougeSlivers_full : (coreChip 0x00A0918B { slotted with copies := (List.range 8).map fun t => (t, flying) }).nextWord 15 59 = some 0x00A0918B ∧
    ((coreChip 0x00A0918B { slotted with copies := (List.range 8).map fun t => (t, flying) }).core 15 59).freeTags = [] := by decide
theorem witness_GougeSlivers_completion :
    let c := coreChip 0x00A0918B { slotted with copies := [(7, flying)] }
    Tbl.find? (c.core 15 59).copies 7 = some flying ∧ flying.ended = false ∧ copyOutside flying.src flying.dst = false ∧ flying.wild = false ∧ flying.drop = none ∧
    c.down.get (benchHalf 15) = false ∧ c.awake (benchHalf 15) = true ∧ copyFits flying.src flying.dst = true ∧
    (match c.copyElems 0 15 59 flying true [] (slCount flying.src) 0 [] with | .ok _ => true | .error _ => false) = true := by decide
theorem witness_GougeSlivers_cwait : (coreChip 0x0000A18B slotted).nextWord 15 59 = some 0x0000A18B ∧ isGc 0x0000A18B 2 0 = true ∧
    ((coreChip 0x0000A18B slotted).core 15 59).task.bind (coreChip 0x0000A18B slotted).cmd? = some ranCmd ∧
    (((coreChip 0x0000A18B slotted).core 15 59).copies.filter fun e => bit 0 e.1).all (fun e => e.2.ended) = true := by decide
theorem witness_GougeSlivers_done : (coreChip 0x0000D00B Core.zero).nextWord 15 59 = some 0x0000D00B ∧ isGc 0x0000D00B 5 0 = true ∧
    ((coreChip 0x0000D00B Core.zero).core 15 59).task.bind (coreChip 0x0000D00B Core.zero).cmd? = some ranCmd := by decide
/-- gc.cwait gives the tag bit of a copy that ended in error (R117). -/
theorem test_cwait : (match exec (.gcCwait 15 59 .clean) (st (coreChip 0x0000A18B { Core.zero.xw 1 0xFF with copies := [(3, { flying with ended := true, err := true })] })) with
    | .next t => (t.chip.core 15 59).xr 3
    | _ => 0) = 8 := by decide

/-! Witnesses of `GougeDowels`. -/

def dwChip (w : Nat) (l : Tbl GCopy) : Chip := coreChip w { (Core.zero.xw 1 16383).xw 2 5 with copies := l }
theorem witness_GougeDowels_dwait : (dwChip 0x0020B00B []).nextWord 15 59 = some 0x0020B00B ∧ isGc 0x0020B00B 3 0 = true ∧
    ((dwChip 0x0020B00B []).core 15 59).task.bind (dwChip 0x0020B00B []).cmd? = some ranCmd ∧
    (dwChip 0x0020B00B []).down.get (dowelHalf 16383) = false ∧ (dwChip 0x0020B00B []).dowelRead ranCmd.owner 16383 = true := by decide
theorem witness_GougeDowels_dsig : (dwChip 0x0020C00B []).nextWord 15 59 = some 0x0020C00B ∧ isGc 0x0020C00B 4 0 = true ∧
    ((dwChip 0x0020C00B []).core 15 59).task.bind (dwChip 0x0020C00B []).cmd? = some ranCmd ∧
    (dwChip 0x0020C00B []).down.get (dowelHalf 16383) = false ∧ (dwChip 0x0020C00B []).dowelSignal ranCmd.owner 16383 = true ∧ ((dwChip 0x0020C00B []).core 15 59).copies.all (fun e => e.2.ended) = true := by decide
theorem witness_GougeDowels_dsigAdd : (dwChip 0x0220C00B []).nextWord 15 59 = some 0x0220C00B ∧ isGc 0x0220C00B 4 1 = true ∧
    ((dwChip 0x0220C00B []).core 15 59).task.bind (dwChip 0x0220C00B []).cmd? = some ranCmd := by decide
theorem witness_GougeDowels_held : (dwChip 0x0020C00B [(0, flying)]).nextWord 15 59 = some 0x0020C00B ∧
    ((dwChip 0x0020C00B [(0, flying)]).core 15 59).copies.all (fun e => e.2.ended) = false ∧
    (dwChip 0x0220C00B [(0, flying)]).nextWord 15 59 = some 0x0220C00B := by decide
/-- gc.dsig sets dowel 16383 to 5 (R117). -/
theorem test_dsig : (match exec (.gcDsig 15 59 .clean) (st (dwChip 0x0020C00B [])) with | .next t => t.chip.dowel 16383 | _ => 0) = 5 := by decide

/-! Witnesses of `GougeConversions`. -/

/-- A core with a format in x1, ready for the MX conversions. -/
def vecCore (code : Nat) : Core := { Core.zero.xw 1 (16 * code) with vl := 32, vtype := 0x12 }
theorem witness_GougeConversions_n : (coreChip 0x0180E40B (vecCore 0)).nextWord 15 59 = some 0x0180E40B ∧ isGc 0x0180E40B 6 0 = true ∧
    ((coreChip 0x0180E40B (vecCore 0)).core 15 59).task.bind (coreChip 0x0180E40B (vecCore 0)).cmd? = some ranCmd ∧
    cvtFmt ((vecCore 0).xr 1 % 256) < 8 ∧ vFits 24 128 = true ∧ vFits 8 (codeBytes 0 32) = true := by decide
theorem witness_GougeConversions_w : (coreChip 0x0380E40B (vecCore 0)).nextWord 15 59 = some 0x0380E40B ∧ isGc 0x0380E40B 6 1 = true ∧
    ((coreChip 0x0380E40B (vecCore 0)).core 15 59).task.bind (coreChip 0x0380E40B (vecCore 0)).cmd? = some ranCmd ∧
    bits ((vecCore 0).xr 1) 4 4 < 8 ∧ vFits 8 128 = true := by decide
theorem witness_GougeConversions_mxn : (coreChip 0x0580E40B (vecCore 8)).nextWord 15 59 = some 0x0580E40B ∧ isGc 0x0580E40B 6 2 = true ∧
    ((coreChip 0x0580E40B (vecCore 8)).core 15 59).task.bind (coreChip 0x0580E40B (vecCore 8)).cmd? = some ranCmd ∧
    (vecCore 8).mxReady = true ∧ codeMx (cvtFmt ((vecCore 8).xr 1 % 256)) = true ∧ vFits 24 128 = true ∧ vFits 8 (codeBytes 8 32) = true := by decide
theorem witness_GougeConversions_mxw : (coreChip 0x0780E40B (vecCore 8)).nextWord 15 59 = some 0x0780E40B ∧ isGc 0x0780E40B 6 3 = true ∧
    ((coreChip 0x0780E40B (vecCore 8)).core 15 59).task.bind (coreChip 0x0780E40B (vecCore 8)).cmd? = some ranCmd ∧
    codeMx (cvtFmt ((vecCore 8).xr 1 % 256)) = true := by decide

/-! Witnesses of `StoreErrors`. -/

theorem witness_StoreErrors_array : (workChip (jobOf false 2 1) none).engineHalted (.array 7) = false ∧ (workChip (jobOf false 2 1) none).noteRaces 7 = workChip (jobOf false 2 1) none ∧
    ((workChip (jobOf true 1 0) (some (id0, Tile.zero))).nextSwap 7).isSome = true ∧
    ((workChip (jobOf false 2 1) none).nextVector 7).isSome = true ∧ ((workChip (jobOf false 2 2) none).nextDrain 7).isSome = true := by decide
theorem witness_StoreErrors_bench : let c := (coreChip 0xFFF00093 Core.zero).setBench 15 { BenchSt.zero with task := some id0 }
    c.coreRuns 15 59 = true ∧ (c.bench 15).task.bind c.cmd? = some ranCmd := by decide
/-- A double-bit error ends the command of the vector with FAULT (R106). -/
theorem test_store_double : (match exec (.vectorEntry 7 (.uncorrectable 8 0)) (st (workChip (jobOf false 2 1) none)) with
    | .next t => (t.chip.cmd? id0).map (·.ended.isSome) | _ => none) = some true := by decide

/-! Witnesses of `PartingCommands`. -/

def partChip (m : Cmd) : Chip := withCmd (c0.put (F.PARTING_CTL_ENABLE 0) 1) m
theorem witness_PartingCommands_suppress : (partChip (mk 0x30 [0x1000000000, 0, 0x1000000000])).takeable id0 partingOp = some (mk 0x30 [0x1000000000, 0, 0x1000000000]) ∧
    (mk 0x30 [0x1000000000, 0, 0x1000000000]).opcode = 0x30 ∧ (partChip (mk 0x30 [0x1000000000, 0, 0x1000000000])).partingUnit (mk 0x30 [0x1000000000, 0, 0x1000000000]) = some .H ∧
    (partChip (mk 0x30 [0x1000000000, 0, 0x1000000000])).partingFree .H (mk 0x30 [0x1000000000, 0, 0x1000000000]) = true ∧
    (partChip (mk 0x30 [0x1000000000, 0, 0x1000000000])).candidates (mk 0x30 [0x1000000000, 0, 0x1000000000]) .answered [] 0 (List.range 0) = (.ok [], partChip (mk 0x30 [0x1000000000, 0, 0x1000000000])) ∧
    (∀ c : Chip, c.storeEach (mk 0x30 []) .answered (alignDown 0x1000000000 32) [] = (c, none)) :=
  ⟨by decide, by decide, by decide, by decide, by decide, fun _ => rfl⟩
theorem witness_PartingCommands_crop : (partChip (mk 0x31 [])).takeable id0 partingOp = some (mk 0x31 []) ∧ (mk 0x31 []).opcode = 0x31 ∧
    (partChip (mk 0x31 [])).partingUnit (mk 0x31 []) = some .H ∧ (partChip (mk 0x31 [])).partingFree .H (mk 0x31 []) = true ∧ (mk 0x31 []).cropWild = false ∧ (mk 0x31 []).fld 3 48 11 = 0 ∧
    (mk 0x31 [0, 0, BitVec.ofNat 64 (1025 * 2 ^ 48)]).cropWild = true ∧
    (partChip (mk 0x31 [0, 0, BitVec.ofNat 64 (1025 * 2 ^ 48)])).takeable id0 partingOp = some (mk 0x31 [0, 0, BitVec.ofNat 64 (1025 * 2 ^ 48)]) ∧
    (partChip (mk 0x31 [0, 0, BitVec.ofNat 64 (1025 * 2 ^ 48)])).partingFree .H (mk 0x31 [0, 0, BitVec.ofNat 64 (1025 * 2 ^ 48)]) = true := by decide
theorem witness_PartingCommands_completion : (partChip { mk 0x31 [] with stage := .done }).cmd? id0 = some { mk 0x31 [] with stage := .done } ∧
    ({ mk 0x31 [] with stage := .done } : Cmd).stage = .done ∧ partingOp ({ mk 0x31 [] with stage := .done } : Cmd).opcode = true := by decide

/-! Witnesses of `PartingCrops`. -/

def cropCmd : Cmd := mk 0x31 [0x1000000000, BitVec.ofNat 64 (2 ^ 48 + 2 ^ 32 + 1), BitVec.ofNat 64 (2 ^ 48 + 0x1000001000), BitVec.ofNat 64 (0x1000002000), 0]
/-- One box, whose first number is a NaN. -/
def cropChip : Chip := (partChip cropCmd).store 0x1000001000 (toLE 4 0x7FC00000)
theorem witness_PartingCrops : cropChip.takeable id0 partingOp = some cropCmd ∧ cropCmd.opcode = 0x31 ∧
    cropChip.partingUnit cropCmd = some .H ∧ cropChip.partingFree .H cropCmd = true ∧ cropCmd.cropWild = false ∧ cropCmd.fld 3 48 11 = 1 := by decide
theorem witness_PartingCrops_box : let c := (cropChip.put (F.PARTING_STATUS_OWNER 0) 0).put (F.PARTING_STATUS_CROP 0) 1
    ((List.range 1).foldl (fun x b => CropRun.box x { cropCmd with stage := .done, unit := 0 } .answered [] b) ⟨c, 0, none⟩).stop = none := by decide
theorem witness_PartingCrops_bad : badBox [.nan, .zero, .zero, .zero] = true := by decide

/-! Witnesses of `AttentionCommands`. -/

def attnChip (m : Cmd) : Chip := withCmd (c0.put (F.KVL_CTL_ATTN_ENABLE 0) 1) m
theorem witness_AttentionCommands_start : ∀ op ∈ [0x40, 0x41], (attnChip (mk op [2 ^ 48])).takeable id0 (fun o => o == 0x40 || o == 0x41) = some (mk op [2 ^ 48]) ∧
    (mk op [2 ^ 48]).opcode = op ∧ (attnChip (mk op [2 ^ 48])).engineHalted (.attention id0) = false ∧
    (attnChip (mk op [2 ^ 48])).attnEngine (mk op [2 ^ 48]) = some .H ∧ ((attnChip (mk op [2 ^ 48])).attnCmds .H).length < 64 ∧
    (attnChip (mk op [2 ^ 48])).shareOn 40 0 ≠ 0 ∧ (attnChip (mk op [2 ^ 48])).attnOutranked .H (mk op [2 ^ 48]) = false ∧
    (mk op [2 ^ 48]).nTok = 1 ∧ (mk op []).nTok = 0 ∧ (mk op [2 ^ 48]).owner.part = 0 := by decide
/-- A command of one token over one empty segment, with its phase and what it keeps: BF16 throughout, one head, d = 32, causal, BF16 outputs. -/
def inPhase (op : Nat) (aux : List Nat) : Cmd := { mk op [BitVec.ofNat 64 (2 ^ 48 + 0x1000000000), BitVec.ofNat 64 (2 ^ 48 + 0x1000000000),
    BitVec.ofNat 64 0x1000001000, BitVec.ofNat 64 (0x40 * 2 ^ 56 + 0x1000002000), BitVec.ofNat 64 0x1000003000, BitVec.ofNat 64 0x1000004000] with
  stage := .running, aux := aux }
def lastPhase (op : Nat) : Cmd := inPhase op [4, 0, 0, 0, 0, 0, 0, 0x1000005000, 0x44 + 2 ^ 40]
def lastChip (op : Nat) : Chip := { (attnChip (lastPhase op)).store 0x100000100C (toLE 2 1) with pinOps := ⟨[id0], []⟩ }
theorem witness_AttentionCommands_first : ∀ op ∈ [0x40, 0x41], (attnChip (inPhase op [])).cmd? id0 = some (inPhase op []) ∧
    (attnChip (inPhase op [])).attnOutranked .H (inPhase op []) = false ∧ (inPhase op []).attn.phase = 0 ∧ (inPhase op []).stage = .running ∧ (attnChip (inPhase op [])).awake .H = true ∧
    ((attnChip (inPhase op [])).reach (inPhase op []) (inPhase op []).paramAddr 64 .answered).toOption.isSome = true ∧
    ((attnChip (inPhase op [])).attnOps (inPhase op []) .answered).toOption.isSome = true := by decide
theorem witness_AttentionCommands_admitted : ∀ op ∈ [0x40, 0x41], (lastChip op).cmd? id0 = some (lastPhase op) ∧
    (lastChip op).attnOutranked .H (lastPhase op) = false ∧ ((lastChip op).pinOps.get .H).contains id0 = true ∧ (lastPhase op).attn.phase = 4 ∧ (lastPhase op).opcode = op := by decide
def lastOps (op : Nat) : AttnOps := match (lastChip op).attnOps (lastPhase op) .answered with | .ok x => x | .error _ => ⟨AttnPar.ofWords fun _ => 0, [], []⟩
theorem witness_AttentionCommands_attend :
    ((lastChip 0x40).attnOps (lastPhase 0x40) .answered).toOption.isSome = true ∧
    (lastOps 0x40).toks = [⟨0, 0⟩] ∧ (lastOps 0x40).par.fmtQ = 4 ∧ (lastChip 0x40).attnWild (lastPhase 0x40) (lastOps 0x40) = false := by decide +kernel
theorem witness_AttentionCommands_completion : (attnChip { mk 0x40 [] with stage := .done }).cmd? id0 = some { mk 0x40 [] with stage := .done } := by decide

/-! Witnesses of `LedgerBatches`. -/

/-- A running batch of one record at 1000000000H, with the record's first and second word; partition 0 of Heartwood. -/
def batchCmd : Cmd := { mk 0x48 [BitVec.ofNat 64 (2 ^ 48 + 0x1000000000)] with stage := .running, aux := [0, 0, 0, 0] }
def batchChip (w0 w1 : Nat) : Chip :=
  ((((withCmd c0 batchCmd).store 0x1000000000 (toLE 8 w0 ++ toLE 8 w1)).put (F.KVL_CTL_ENABLE 0) 1).put (F.KVL_POOL_CFG_FRAMES 0) 8).put (F.KVL_QUOTA_FRAMES 0 0) 4
def heldChip (w0 w1 ref : Nat) : Chip := (batchChip w0 w1).setFrame .H 5 ⟨1, ref, 0, 0⟩
theorem witness_LedgerBatches_start : (withCmd c0 (mk 0x48 [2 ^ 48])).takeable id0 (· == 0x48) = some (mk 0x48 [2 ^ 48]) := by decide
theorem witness_LedgerBatches_alloc : (batchChip (2 ^ 52) 0x1000001000).cmd? id0 = some batchCmd ∧ batchCmd.opcode = 0x48 ∧
    (batchChip (2 ^ 52) 0x1000001000).nextRecord batchCmd = .ok ⟨1, .H, 0, 0x1000001000, 2 ^ 52, 0x1000001000⟩ ∧
    (batchChip (2 ^ 52) 0x1000001000).entryOk batchCmd 0x1000001000 = true ∧
    (batchChip (2 ^ 52) 0x1000001000).kvUsed .H 0 < (batchChip (2 ^ 52) 0x1000001000).q (F.KVL_QUOTA_FRAMES 0 0) ∧
    ((batchChip (2 ^ 52) 0x1000001000).popFree .H).map (·.1) = some 0 ∧ (batchChip (2 ^ 52) 0x1000001000).down.get .H = false := by decide
theorem witness_LedgerBatches_acquire : (heldChip (2 * 2 ^ 52 + 5) 0 65534).cmd? id0 = some batchCmd ∧
    (heldChip (2 * 2 ^ 52 + 5) 0 65534).nextRecord batchCmd = .ok ⟨2, .H, 5, 0, 2 * 2 ^ 52 + 5, 0⟩ ∧
    (heldChip (2 * 2 ^ 52 + 5) 0 65534).kvLive 0 5 = .ok (.H, 5, ⟨1, 65534, 0, 0⟩) := by decide
theorem witness_LedgerBatches_release : (heldChip (3 * 2 ^ 52 + 5) 0 1).nextRecord batchCmd = .ok ⟨3, .H, 5, 0, 3 * 2 ^ 52 + 5, 0⟩ ∧
    (heldChip (3 * 2 ^ 52 + 5) 0 1).kvLive 0 5 = .ok (.H, 5, ⟨1, 1, 0, 0⟩) := by decide
theorem witness_LedgerBatches_query : (heldChip (5 * 2 ^ 52 + 5) 0 1).nextRecord batchCmd = .ok ⟨5, .H, 5, 0, 5 * 2 ^ 52 + 5, 0⟩ ∧
    (heldChip (5 * 2 ^ 52 + 5) 0 1).frameNo 5 = some (.H, 5) ∧ ((heldChip (5 * 2 ^ 52 + 5) 0 1).frame .H 5).owner = batchCmd.owner := by decide
/-- RELEASE of the last reference of a frame without pins begins its zeroing (R189). -/
theorem test_release_last : (match exec (.release id0 []) (st (heldChip (3 * 2 ^ 52 + 5) 0 1)) with | .next t => (t.chip.frame .H 5).state | _ => 9) = 3 := by decide +kernel

/-! Witnesses of `LedgerCopies`. -/

def cowChip (ref : Nat) : Chip := (heldChip (4 * 2 ^ 52) 0x1000001000 ref).store 0x1000001000 (toLE 4 5)
theorem witness_LedgerCopies_cow : (cowChip 2).cmd? id0 = some batchCmd ∧ ((cowChip 2).askPin .H id0 1).1 = true ∧
    ((cowChip 2).askPin .H id0 1).2.nextRecord batchCmd = .ok ⟨4, .H, 0, 0x1000001000, 4 * 2 ^ 52, 0x1000001000⟩ ∧
    ((cowChip 2).askPin .H id0 1).2.entryOk batchCmd 0x1000001000 = true ∧
    (((cowChip 2).askPin .H id0 1).2.tookEntry batchCmd 0x1000001000).kvLive 0 (((cowChip 2).askPin .H id0 1).2.entryFrame batchCmd 0x1000001000) = .ok (.H, 5, ⟨1, 2, 0, 0⟩) ∧
    (match (((cowChip 2).askPin .H id0 1).2.tookEntry batchCmd 0x1000001000).kvPin batchCmd 5 with
      | .ok c1 => (match c1.kvAlloc .H 0 with | .done _ g => g | _ => 9)
      | .error _ => 9) = 0 := by decide +kernel
theorem witness_LedgerCopies_private : (((cowChip 1).askPin .H id0 1).2.tookEntry batchCmd 0x1000001000).kvLive 0 (((cowChip 1).askPin .H id0 1).2.entryFrame batchCmd 0x1000001000) = .ok (.H, 5, ⟨1, 1, 0, 0⟩) := by decide +kernel
def copyChip : Chip := (((cowChip 2).put (F.CARRIAGE_CTL_ENABLE 0) 1).setFrame .H 7 ⟨1, 1, 0, 0⟩).setCmd { batchCmd with stage := .waiting, aux := [0, 0, 0, 0, 5, 7, 0x1000001000] }
theorem witness_LedgerCopies_copied : copyChip.cmd? id0 = some { batchCmd with stage := .waiting, aux := [0, 0, 0, 0, 5, 7, 0x1000001000] } ∧
    copyChip.frameNo 5 = some (.H, 5) ∧ copyChip.frameNo 7 = some (.H, 7) ∧ (copyChip.carriageOf .H).isSome = true ∧
    copyChip.poisoned (copyChip.frameAddr .H 5) (copyChip.kvPool .H).2.1 = none ∧ copyChip.entryOk batchCmd 0x1000001000 = true ∧
    copyChip.kvLive 0 5 = .ok (.H, 5, ⟨1, 2, 0, 0⟩) := by decide +kernel
theorem witness_LedgerCopies_pin : Chip.cmd? { cowChip 1 with cmds := [{ mk 0x52 [] with stage := .running }], pinOps := ⟨[id0], []⟩ } id0 = some { mk 0x52 [] with stage := .running } ∧
    pinningOp ({ mk 0x52 [] with stage := .running } : Cmd).opcode = true ∧
    Chip.kvLive { cowChip 1 with cmds := [{ mk 0x52 [] with stage := .running }], pinOps := ⟨[id0], []⟩ } 0 5 = .ok (.H, 5, ⟨1, 1, 0, 0⟩) := by decide
theorem witness_LedgerCopies_unpin : Chip.cmd? { cowChip 1 with cmds := [], kvPins := [(id0, 5)] } id0 = none ∧
    Chip.frameNo { cowChip 1 with cmds := [], kvPins := [(id0, 5)] } 5 = some (.H, 5) := by decide
theorem witness_LedgerCopies_admission : Chip.cmd? { cowChip 1 with pinWait := ⟨[id0], []⟩ } id0 = some batchCmd ∧ batchCmd.pinPlaces = 1 := by decide
theorem witness_LedgerCopies_zeroing : Chip.frameNo ((cowChip 1).setFrame .H 5 ⟨3, 0, 0, 0⟩) 5 = some (.H, 5) ∧
    (((cowChip 1).setFrame .H 5 ⟨3, 0, 0, 0⟩).frame .H 5).state = 3 := by decide

/-! Witnesses of `MovesStart`. -/

def moveChip (m : Cmd) : Chip := withCmd (c0.put (F.CARRIAGE_CTL_ENABLE 7) 1) m
/-- One move of each kind from 1000000000H: one row of 64 bytes, one entry, one page, 8 bytes of zeros. -/
def moveOf : Nat → Cmd
  | 0x50 => mk 0x50 [0x1000000000, 0x1000001000, BitVec.ofNat 64 (64 + 2 ^ 24 + 2 ^ 48), 0, 0, 0]
  | 0x51 => mk 0x51 [0x1000000000, 0x1000001000, 1, 0, 0, 0]
  | 0x52 => mk 0x52 [0x1000000000, 0x1000001000, BitVec.ofNat 64 (2 ^ 32), BitVec.ofNat 64 (2 ^ 16), 0, 0]
  | _ => mk 0x53 [0x1000000000, 0, 8, 0, 0, 0]
def poolChip (m : Cmd) : Chip := (moveChip m).put (F.KVL_POOL_CFG_FRAME_GR 0) 1
theorem witness_MovesStart : ∀ op ∈ [0x50, 0x51, 0x52, 0x53],
    (poolChip (moveOf op)).takeable id0 moveOp = some (moveOf op) ∧ (moveOf op).opcode = op ∧
    (poolChip (moveOf op)).on (F.CARRIAGE_CTL_ENABLE 7) = true ∧ (poolChip (moveOf op)).unitOn 47 = true ∧
    ((poolChip (moveOf op)).movesOn 7).length < 32 ∧ (poolChip (moveOf op)).behind (moveOf op) moveOp (fun e => e.half == .H) = false ∧
    (poolChip (moveOf op)).badMove { moveOf op with stage := .running, unit := 7, n := 0, aux := [0, 0, 0, 0] } = none ∧
    (moveOf op).moveEmpty = false := by decide
theorem witness_MovesStart_empty : ∀ op ∈ [0x50, 0x51, 0x53], (mk op []).moveEmpty = true ∧
    (poolChip (mk op [])).takeable id0 moveOp = some (mk op []) ∧
    (poolChip (mk op [])).badMove { mk op [] with stage := .running, unit := 7, n := 0, aux := [0, 0, 0, 0] } = none := by decide

/-! Witnesses of `MovesWork`. -/

def runMove : Cmd := { moveOf 0x50 with stage := .running, unit := 7, n := 1, aux := [0, 0, 1, 0] }
def txnChip (w : Bool) : Chip := { moveChip runMove with
  txns := [(0, ⟨id0, 0, 7, .H, w, if w then 0x1000001000 else 0x1000000000, 2, if w then [1, 2] else [], 0x1000001000, some 0, none, none, 0⟩)], txnNext := 1 }
theorem witness_MovesWork_write : ((Tbl.find? (txnChip true).txns 0).map (·.write)) = some true ∧ (txnChip true).cmd? id0 = some runMove ∧
    runMove.zeroFill = false ∧ runMove.feeds = false ∧ ((Tbl.find? (txnChip true).txns 0).map (txnChip true).arrivesLater) = some false ∧ ((txnChip true).arrayRace true 0x1000001000 2).1 = false ∧ inWindow 0x1000001000 = false := by decide
theorem witness_MovesWork_read : ((Tbl.find? (txnChip false).txns 0).map (·.write)) = some false ∧ (txnChip false).cmd? id0 = some runMove ∧
    (txnChip false).poisoned 0x1000000000 2 = none ∧ ((Tbl.find? (txnChip false).txns 0).map (txnChip false).arrivesLater) = some false ∧ ((txnChip false).arrayRace false 0x1000000000 2).1 = false ∧ (txnChip false).windowGone .H 0x1000001000 = false ∧
    runMove.aux.getD 1 0 ≠ 1 := by decide
theorem witness_MovesWork_completion : (moveChip runMove).cmd? id0 = some runMove ∧ runMove.opcode = 0x50 ∧ runMove.stage = .running ∧
    runMove.issued = true ∧ (moveChip runMove).txnsOf id0 = [] := by decide
/-- The acknowledged write has stored its bytes. -/
theorem test_move_write : (match exec (.transactionReturn 0 true [] []) (st (txnChip true)) with | .next t => t.chip.byte 0x1000001001 | _ => 0) = 2 := by decide

/-! Witnesses of `StacksScrubbed`. -/

theorem witness_StacksScrubbed_scrub : c0.down.get (stackHalf 3) = false ∧ c0.awake (stackHalf 3) = true ∧
    (c0.put (F.MEM_CTL_SCRUB_EN 3) 1).on (F.MEM_CTL_SCRUB_EN 3) = true ∧ c0.dieInUse 3 4 = true ∧
    c0.on (F.MEM_STATUS_MARKED 3) = false ∧ c0.q (F.MEM_DIE_CORR_HOUR 3 4) < 256 ∧
    ((c0.put (F.MEM_STATUS_MARKED 3) 1).put (F.MEM_STATUS_MARKED_DIE 3) 4).on (F.MEM_STATUS_MARKED 3) = true ∧
    ((c0.put (F.MEM_STATUS_MARKED 3) 1).put (F.MEM_STATUS_MARKED_DIE 3) 4).q (F.MEM_STATUS_MARKED_DIE 3) = 4 := by decide
theorem witness_StacksScrubbed_rebuild : c0.awake (stackHalf 0) = true ∧ (c0.put (F.MEM_STATUS_REBUILDING 0) 1).on (F.MEM_STATUS_REBUILDING 0) = true := by decide
/-- After the rebuild the spare has taken the role of the marked die. -/
theorem test_rebuild : (match exec (.rebuildComplete 0) (st ((c0.put (F.MEM_STATUS_REBUILDING 0) 1).put (F.MEM_STATUS_MARKED 0) 1)) with
    | .next t => (t.chip.q (F.MEM_STATUS_MARKED 0), t.chip.q (F.MEM_STATUS_SPARE_USED 0)) | _ => (9, 9)) = (0, 1) := by decide

/-! Witnesses of `EventsWritten`. -/

/-- Rings 1 (completion) and 2 (event, the default) of firmware in service, sixteen entries each. -/
def ringChip : Chip :=
  { ((((((c0.setReg (Reg.RING_CFG 1) (2 ^ 31 + 4 * 2 ^ 16 + 2)).setReg (Reg.RING_CFG 2) (2 ^ 31 + 2 ^ 30 + 4 * 2 ^ 16 + 3)).setReg (Reg.RING_BASE_HI 1) 0x10).setReg
      (Reg.RING_BASE_HI 2) 0x10).setReg (Reg.RING_BASE_LO 2) 0x1000).setReg (Reg.RING_LINK 0) (1 + 2 * 2 ^ 16)) with
    rings := [(1, ⟨0, false, 0, false, 0, 0, false, 0, (0, 0)⟩), (2, ⟨0, false, 0, false, 0, 0, false, 0, (0, 0)⟩)] }
theorem witness_EventsWritten : ringChip.defaultEq 0 = some 2 ∧ ringChip.ringSt? 2 = some ⟨0, false, 0, false, 0, 0, false, 0, (0, 0)⟩ ∧
    ringChip.ringFull 2 0 = false ∧ ringChip.ringEntry 2 (ringChip.reg (Reg.RING_TAIL 2)) 64 = 0x1000001000 ∧
    ringChip.rangeCause 0 true 0x1000001000 64 = none := by decide
theorem witness_EventsWritten_bytes : ∀ k, k < 64 → inWindow (0x1000001000 + k) = false := by
  intro k hk
  simp only [inWindow, Bool.or_eq_false_iff, decide_eq_false_iff_not]
  omega
/-- The first event record of a ring starts with the code and has phase 1 (R250). -/
theorem test_event : (ringChip.ev .T 0x0400 [7]).load 0x1000001000 8 = [0, 4, 0xFF, 0xFF, 0, 0, 1, 1] := by decide

/-! Witnesses of `CompletionsWritten`. -/

def doneCmd : Cmd := mk 0 []
theorem witness_CompletionsWritten : ringChip.ringSt? doneCmd.cq = some ⟨0, false, 0, false, 0, 0, false, 0, (0, 0)⟩ ∧ ringChip.q (F.RING_CFG_KIND doneCmd.cq) = 2 ∧ doneCmd.ended = none ∧
    ringChip.ringEntry 1 (ringChip.reg (Reg.RING_TAIL 1)) 32 = 0x1000000000 ∧ ringChip.rangeCause 0 true 0x1000000000 32 = none ∧
    bit (doneCmd.word 0) 11 = false ∧
    ringChip.down.get (dowelHalf 0) = false ∧ bit ((mk 0x800 []).word 0) 11 = true ∧ ringChip.dowelSignal 0 0 = true := by decide
theorem witness_CompletionsWritten_bytes : ∀ k, k < 32 → inWindow (0x1000000000 + k) = false := by
  intro k hk
  simp only [inWindow, Bool.or_eq_false_iff, decide_eq_false_iff_not]
  omega
/-- The completion record of command 0 of ring 0, done: sequence, status, phase, ring (R249). -/
theorem test_completion : ((withCmd ringChip doneCmd).complete doneCmd 5).load 0x1000000000 20 =
    [0, 0, 0, 0, 0, 1, 0, 0, 0, 0, 0, 0, 0, 0, 0, 0, 5, 0, 0, 0] := by decide

/-! Witnesses of `RingDoorbells`. -/

/-- Ring 0, a submission ring of sixteen entries, in service too. -/
def subChip : Chip := { ringChip.setReg (Reg.RING_CFG 0) (2 ^ 31 + 4 * 2 ^ 16 + 1) with rings := (0, ⟨0, false, 0, false, 0, 0, false, 0, (0, 0)⟩) :: ringChip.rings }
theorem witness_RingDoorbells : subChip.down.get (ringHalf 0) = false ∧ subChip.down.get (ringHalf 65535) = false ∧ subChip.portCause fw true (Reg.RING_DB 0) = 0 ∧ subChip.partyExists fw.owner = true ∧ subChip.mayFetch fw.owner = true ∧
    subChip.ringSt? 0 = some ⟨0, false, 0, false, 0, 0, false, 0, (0, 0)⟩ ∧ subChip.q (F.RING_CFG_KIND 0) = 1 ∧ subChip.q (F.RING_CFG_KIND 1) = 2 ∧
    subChip.ringSt? 65535 = none := by decide
/-- A full ring of sixteen entries is the largest distance taken (R238). -/
theorem test_doorbell : (subChip.doorbell 0 16).reg (Reg.RING_TAIL 0) = 16 := by decide
theorem test_doorbell_bad : (subChip.doorbell 0 17).q (F.RING_BAD_DB_COUNT 0) = 1 := by decide

/-! Witnesses of `RingService`. -/

theorem witness_RingService_enable : fw.isFirmware = true ∧ ringChip.down.get (ringHalf 0) = false ∧ ringChip.ringSt? 0 = none ∧
    (ringChip.setReg (Reg.RING_CFG 0) (2 ^ 31 + 4 * 2 ^ 16 + 1)).linksGood 0 0 = true ∧
    (ringChip.setReg (Reg.RING_CFG 0) (2 ^ 31 + 3 * 2 ^ 16 + 1)).linksGood 0 0 = false ∧
    ownOwner (ringChip.ownAt (doorbellEntry 0)) = 0 := by decide
theorem witness_RingService_disable : subChip.ringSt? 1 = some ⟨0, false, 0, false, 0, 0, false, 0, (0, 0)⟩ ∧ subChip.linked 1 = true ∧ ringChip.linked 1 = false := by decide
theorem witness_RingService_close : (ringChip.setRingSt 1 ⟨0, true, 0, false, 0, 0, false, 0, (0, 0)⟩).ringSt? 1 = some ⟨0, true, 0, false, 0, 0, false, 0, (0, 0)⟩ ∧
    (ringChip.setRingSt 1 ⟨0, true, 0, false, 0, 0, false, 0, (0, 0)⟩).linked 1 = false := by decide

/-! Witnesses of `RingCommands`. -/

theorem witness_RingCommands_fetch : (subChip.setReg (Reg.RING_TAIL 0) 1).fetchable 0 = some ⟨0, false, 0, false, 0, 0, false, 0, (0, 0)⟩ ∧
    (subChip.setReg (Reg.RING_TAIL 0) 1).ringEntry 0 0 64 = 0 ∧
    ((subChip.setReg (Reg.RING_TAIL 0) 1).setReg (Reg.RING_BASE_HI 0) 0x10).rangeCause 0 false 0x1000000000 64 = none := by decide
def fetchedChip : Chip := withCmd subChip { mk 0 [] with stage := .fetched }
theorem witness_RingCommands_dispatch : fetchedChip.nextDispatch 0 = some { mk 0 [] with stage := .fetched } ∧
    fetchedChip.ringSt? 1 = some ⟨0, false, 0, false, 0, 0, false, 0, (0, 0)⟩ ∧ fetchedChip.ringFull 1 0 = false ∧ assigned 0 = true ∧
    (fetchedChip.setReg (Reg.RING_TAIL 1) 16).ringFull 1 0 = true := by decide
theorem witness_RingCommands_noOp : (withCmd subChip (mk 0 [])).takeable id0 (· == 0x00) = some (mk 0 []) := by decide

/-! Witnesses of `DowelCommands`. -/

theorem witness_DowelCommands_wait : (withCmd c0 (mk 1 [16383, 1])).takeable id0 (· == 0x01) = some (mk 1 [16383, 1]) ∧
    c0.down.get (dowelHalf 16383) = false ∧ (withCmd c0 (mk 1 [16383, 1])).dowelRead 0 ((mk 1 [16383, 1]).fld 1 0 14) = true := by decide
theorem witness_DowelCommands_signal : (withCmd c0 (mk 2 [BitVec.ofNat 64 (2 ^ 62 + 16383), 1])).takeable id0 (· == 0x02) = some (mk 2 [BitVec.ofNat 64 (2 ^ 62 + 16383), 1]) ∧
    (withCmd c0 (mk 2 [16383, 1])).takeable id0 (· == 0x02) = some (mk 2 [16383, 1]) ∧
    (mk 2 [16383, 1]).fld 1 62 2 = 0 ∧ (mk 2 [BitVec.ofNat 64 (2 ^ 62 + 16383), 1]).fld 1 62 2 = 1 ∧ c0.dowelSignal 0 16383 = true := by decide
theorem witness_DowelCommands_end : Chip.wait? { c0 with waits := [⟨16383, 0, .notify, 0, true⟩, ⟨0, 0, .cmd id0, 0, false⟩] } 16383 .notify = some ⟨16383, 0, .notify, 0, true⟩ ∧
    Chip.wait? { c0 with waits := [⟨16383, 0, .notify, 0, true⟩, ⟨0, 0, .cmd id0, 0, false⟩] } 0 (.cmd id0) = some ⟨0, 0, .cmd id0, 0, false⟩ := by decide

/-! Witnesses of `DowelRegisters`. -/

theorem witness_DowelRegisters : c0.down.get (dowelHalf 16383) = false ∧ c0.dowelSignal fw.owner 16383 = true ∧ c0.dowelRead fw.owner 16383 = true ∧ fw.isFirmware = true ∧
    bits (0x1234#32).toNat 0 13 ≠ c0.q (F.DOWEL_ATTR_OWNER 16383) ∧ bits (0#32).toNat 0 13 = c0.q (F.DOWEL_ATTR_OWNER 16383) := by decide
/-- An add beyond the largest value is held there (R252). -/
theorem test_add_held : (match exec (.dowelAdd32 fw 3 2) (st ((c0.setReg (Reg.DOWEL_VAL_LO 3) 0xFFFFFFFF).setReg (Reg.DOWEL_VAL_HI 3) 0xFFFFFFFF)) with
    | .next t => t.chip.dowel 3 | _ => 0) = 2 ^ 64 - 1 := by decide

/-! Witnesses of `SlotsPublished`. -/

def slotChip (m : Cmd) : Chip :=
  { (((withCmd ringChip m).setReg (Reg.SLOT_CFG 7) (2 ^ 31 + 64)).put (F.CARRIAGE_CTL_ENABLE 0) 1).setSlot 7 { SlotSt.zero with queue := [id0] } with slotBase := ⟨[(7, 0x1000004000)], []⟩ }
def pubCmd : Cmd := mk 0x60 [BitVec.ofNat 64 (7 * 2 ^ 48 + 0x1000002000), 64]
theorem witness_SlotsPublished_publish : (slotChip pubCmd).slotCmd id0 0x60 = some pubCmd ∧ pubCmd.slotNo = 7 ∧
    (slotChip pubCmd).on (F.SLOT_CFG_VALID 7) = true ∧ (slotChip pubCmd).q (F.SLOT_OWNER_PRODUCER 7) = 0 ∧ pubCmd.slotLen = 64 ∧
    64 ≤ (slotChip pubCmd).slotBytes 7 ∧ ((slotChip pubCmd).slot 7).queue.head? = some id0 ∧ (slotChip pubCmd).freeBuf 7 .H = some 0 ∧
    (slotChip pubCmd).slotSet 7 .T = false ∧ (slotChip pubCmd).slotSet 7 .H = true ∧ ((slotChip pubCmd).slotBuf 7 .H 0).isSome = true ∧ ((slotChip pubCmd).carriageOf .H).isSome = true ∧ ((slotChip pubCmd).sight [(0x1000002000, 64)] []).1.lost = none ∧
    (slotChip pubCmd).reachCause .H 0 false 0x1000002000 64 .answered = none ∧
    (slotChip pubCmd).rangeCause 0 false 0x1000002000 64 = none := by decide
theorem witness_SlotsPublished_bump : (slotChip { pubCmd with stage := .running }).cmd? id0 = some { pubCmd with stage := .running } ∧
    ({ pubCmd with stage := .running } : Cmd).opcode = 0x60 := by decide

/-! Witnesses of `SlotsRead`. -/

def readCmd : Cmd := mk 0x61 [BitVec.ofNat 64 (7 * 2 ^ 48 + 0x1000002000), 64]
def readChip (m : Cmd) : Chip := { (((slotChip m).setSlot 7 { SlotSt.zero with held := ⟨true, false⟩ }).setReg (Reg.SLOT_GEN 7) 1).put (F.SLOT_STATE_SWITCHED 7) 0 with slotBase := ⟨[(7, 0x1000004000)], []⟩ }
theorem witness_SlotsRead_read : (readChip readCmd).takeable id0 (· == 0x61) = some readCmd ∧ (readChip readCmd).behind readCmd (· == 0x61) (fun e => e.half == .H) = false ∧ (readChip readCmd).slotReader 0 7 = true ∧
    (readChip readCmd).serve .H 7 = ⟨7, false, false, false⟩ ∧ (readChip readCmd).on (F.SLOT_STATE_SWITCHED 7) = false ∧
    (readChip readCmd).slotEmpty 7 = false ∧ (readChip readCmd).slotSide .H 7 = some .H := by decide
def readRun : Cmd := { readCmd with stage := .running, n := 64, aux := [7, 0, 0, 1, 0, 0] }
theorem witness_SlotsRead_done : (readChip readRun).cmd? id0 = some readRun ∧ readRun.opcode = 0x61 ∧ readRun.aux = [7, Half.H.idx, 0, 1, 0, 0] ∧
    (readChip readRun).slotBuf 7 .H 0 = some 0x1000004000 ∧ ((readChip readRun).carriageOf .H).isSome = true ∧ (readChip readRun).poisoned 0x1000004000 64 = none ∧ ((readChip readRun).sight [(0x1000004000, 64)] []).1.lost = none ∧
    (readChip readRun).reachCause .H 0 true readRun.slotAddr 64 .answered = none := by decide

/-! Witnesses of `EnginesShared`. -/

/-- A ring in service of a party, as its enabling leaves it. -/
def ringOf (o : Owner) : RingSt := ⟨o, false, 0, false, 0, 0, false, 0, (0, 0)⟩
/-- Array 0 in the hands of the context of ring 0, firmware's; another array command of ring 2 waits for it. -/
def sharedChip (w : Switch) (ring : Fin 65536) : Chip :=
  { (((c0.put (F.ARRAY_CTL_ENABLE 0) 1).put (F.SCHED_PART_SAVE_SAVE_ARR 0) 2).setArr 0
      { ArrSt.zero with resident := some 0, jobs := [⟨id0, false, 4, 1, 4, 0, 0, false, false⟩], sw := w }) with
    time := ⟨{ c0.time.h with role := .lead }, { c0.time.t with role := .lead }⟩
    rings := [(0, ringOf 0), (ring, ringOf 0)]
    cmds := [{ mk 0x10 [] with stage := .running }, { mk 0x10 [] with id := ⟨ring, 0, 0⟩ }] }
theorem witness_EnginesShared_mark : (withCmd c0 (mk 3 [3])).takeable id0 (· == 0x03) = some (mk 3 [3]) ∧
    (withCmd c0 (mk 3 [3])).earlier id0 = [] := by decide
theorem witness_EnginesShared_first : let c := ((sharedChip ⟨false, 0, none, 0⟩ 2).applyShares (.array 0)).noteTurn (.array 0)
    c.residentOn (.array 0) = some 0 ∧ (c.switchOf (.array 0)).saving = none ∧ c.suspendedOn (.array 0) = false ∧
    c.isRough (.array 0) 0 = false ∧ (c.switchOf (.array 0)).quanta = 0 ∧
    c.rival (.array 0) = true ∧ c.commandLevel (.array 0) = false := by decide
theorem witness_EnginesShared_fourth : let c := ((sharedChip ⟨false, 4, none, 0⟩ 2).applyShares (.array 0)).noteTurn (.array 0)
    c.residentOn (.array 0) = some 0 ∧ (c.switchOf (.array 0)).saving = none ∧ c.suspendedOn (.array 0) = false ∧
    c.isRough (.array 0) 0 = false ∧ (c.switchOf (.array 0)).quanta = 4 ∧
    c.rival (.array 0) = true ∧ c.commandLevel (.array 0) = false := by decide
theorem witness_EnginesShared_alone : let c := ((sharedChip Switch.none 0).applyShares (.array 0)).noteTurn (.array 0)
    c.residentOn (.array 0) = some 0 ∧ (c.switchOf (.array 0)).saving = none ∧ c.suspendedOn (.array 0) = false ∧
    c.isRough (.array 0) 0 = false ∧
    c.rival (.array 0) = false := by decide
theorem witness_EnginesShared_marked : let c := (((sharedChip ⟨true, 0, none, 0⟩ 2).setArr 0 { (sharedChip ⟨true, 0, none, 0⟩ 2).arr 0 with marked := true }).applyShares (.array 0)).noteTurn (.array 0)
    c.residentOn (.array 0) = some 0 ∧ (c.switchOf (.array 0)).saving = none ∧ c.suspendedOn (.array 0) = false ∧
    c.isRough (.array 0) 0 = false ∧ (c.switchOf (.array 0)).want = true ∧
    c.rival (.array 0) = true ∧ c.commandLevel (.array 0) = true := by decide
/-- A table of one strict slot of partition 2, 40 µs long, whose time has begun; the ring of partition 0 is resident. -/
def tableChip : Chip := (sharedChip Switch.none 2).setReg (Reg.SCHED_SLOT 0 0) (2 ^ 31 + 2 * 2 ^ 24 + 40)
theorem witness_EnginesShared_slots : ((tableChip.nextEntry 0).any fun p => !p.1.isOpen && decide (p.2 ≤ tableChip.guardTenths) && !p.1.heldBy tableChip 0 0) = true ∧ (tableChip.slotNow 0).isSome = true ∧ tableChip.timeReady .H = true ∧ tableChip.ringOwner 0 = some 0 ∧
    (tableChip.arr 0).resident = some 0 ∧ tableChip.isRough (.array 0) 0 = false := by decide
theorem witness_EnginesShared_preempt : let c := { (((sharedChip Switch.none 2).put (F.ARRAY_CTL_ENABLE 1) 0).put (F.ARRAY_CTL_ENABLE 2) 0).put (F.ARRAY_CTL_ENABLE 3) 0 with cmds := [{ mk 0x10 [] with stage := .running, owner := 0x100, cls := 3 }, { mk 0x10 [] with id := ⟨2, 0, 0⟩ }] }
    c.residentOn (.array 0) = some 0 ∧ c.mayPreempt (.array 0) 2 = true := by decide
theorem witness_EnginesShared_attention : let m := { mk 0x40 [] with stage := .running, owner := 0x100, cls := 3 }
    let c := { c0 with cmds := [m, { mk 0x40 [] with id := ⟨2, 0, 0⟩ }] }
    c.cmd? id0 = some m ∧ m.stage = .running ∧ c.mayPreempt (.attention id0) 2 = true := by decide

/-! Witnesses of `ContextsMoved`. -/

def savingChip : Chip := (sharedChip ⟨false, 0, some true, 0⟩ 2).setBench 5 { BenchSt.zero with resident := some 0, sw := ⟨false, 0, some true, 0⟩ }
theorem witness_ContextsMoved_save : (savingChip.switchOf (.array 0)).saving = some true ∧ (savingChip.arr 0).checks = [] ∧
    (savingChip.switchOf (.bench 5)).saving = some true ∧ savingChip.copiesOut 5 = [] := by decide
theorem witness_ContextsMoved_attention : let m := { mk 0x40 [] with stage := .preempted }
    (withCmd c0 m).cmd? id0 = some m ∧ m.stage = .preempted ∧ m.unit = 0 ∧ m.opcode = 0x40 ∧
    (withCmd c0 { m with unit := 1 }).cmd? id0 = some { m with unit := 1 } ∧ c0.shareOn 40 0 ≠ 0 ∧
    (withCmd c0 { m with unit := 1 }).attnOutranked .H { m with unit := 1 } = false := by decide
def awayChip : Chip :=
  { (c0.put (F.ARRAY_CTL_ENABLE 0) 1) with
    ledgerRead := ⟨true, true⟩
    actx := [(7, ⟨0, [(5, 9)], { ArrSt.zero with resident := some 7 }⟩)]
    bctx := [(32 * 7 + 5, ⟨0, [(5, 9)], [], { BenchSt.zero with resident := some 7 }⟩)] }
theorem witness_ContextsMoved_restore : (Tbl.find? awayChip.actx 7).isSome = true ∧ awayChip.restorePlace 0 7 0 = true ∧
    (Tbl.find? awayChip.bctx (32 * 7 + 5)).isSome = true ∧ awayChip.benchRestorable 5 7 0 = true := by decide
theorem witness_ContextsMoved_evict : let m := { mk 0x20 [0, 0, 1] with id := ⟨2, 0, 0⟩ }
    let c := Chip.setBench { c0.put (F.BENCH_CTL_ENABLE 0) 1 with
      rings := [(0, ringOf 0), (2, ringOf 0)], cmds := [m], blockedAt := [(8, 1)]
      tb := ⟨[⟨20 * usUnits, 0⟩], c0.tb.t⟩ } 0 { BenchSt.zero with resident := some 0 }
    c.residentOn (.bench 0) = some 0 ∧ c.ringOwner 0 = some 0 ∧ (c.cmds.find? fun m => m.id.ring.val == 2 && c.wants (.bench 0) m) = some m ∧
    ((c.kindOf (.bench 0) m).all fun x => match c.residentOn x with | some q => c.blocked x q | none => !c.wants x m) = true ∧
    c.wants (.bench 0) m = true ∧ swapTenths (.bench 0) * usUnits < c.blockedFor (.bench 0) 255 [(.bench 0, 3)] * 10 ∧ c.ringRank 2 ≤ c.rankOn (.bench 0) ∧ c.isRough (.bench 0) 0 = false ∧ c.inOwnSlot (.bench 0) 0 = false ∧ (c.switchOf (.bench 0)).saving = none ∧
    ((c.kindOf (.bench 0) m).filter fun x => (c.residentOn x).isSome) = [.bench 0] := by decide

/-! Witnesses of `ContextKept`. -/

theorem witness_ContextKept : awayChip.memWf = true ∧ awayChip.garbled = [] ∧ ((awayChip.restoreArray 3 7).arr 3).resident = some 7 ∧
    (awayChip.restoreArray 3 7).memWf = true ∧ (awayChip.restoreArray 3 7).garbled = [] ∧ ((awayChip.restoreArray 3 7).arr 0).resident = none := by decide

/-! Witnesses of `ModelsLoaded`. -/

def loadCmd : Cmd := mk 0x70 [0x1000000000, BitVec.ofNat 64 (3 * 2 ^ 48)]
theorem witness_ModelsLoaded_load : (withCmd c0 loadCmd).takeable id0 (· == 0x70) = some loadCmd ∧ loadCmd.fld 2 48 2 = 3 ∧
    (withCmd c0 loadCmd).backingFault loadCmd = none ∧
    ((withCmd c0 loadCmd).readSeen loadCmd 0x1000000000 64 .answered []).1.toOption = some (List.replicate 64 0) ∧
    ((withCmd c0 loadCmd).readSeen loadCmd (fieldAt (List.replicate 64 0) 40 6) 224 .answered []).1.toOption = some (List.replicate 224 0) := by decide +kernel
theorem witness_ModelsLoaded_unload : let c := { withCmd c0 (mk 0x71 [5]) with models := [(5, ⟨0, 4096, 0, false, 1, 1, [], none⟩)] }
    c.takeable id0 (· == 0x71) = some (mk 0x71 [5]) ∧ Tbl.find? c.models 5 = some ⟨0, 4096, 0, false, 1, 1, [], none⟩ ∧
    (c.cmds.any fun k => k.owner == 0 && k.id != id0 && k.mayUse) = false := by decide
/-- A resident model, a refused class A model, and one streamed at exactly the slowdown allowed (R290). -/
theorem test_fit : fitHalf 60 40 5 1 10 1 100 0 true false = .ok (100, false, 16) ∧ fitHalf 61 40 5 1 10 1 100 32 true true = .error 0 ∧
    fitHalf 60 40 5 1 10 1 100 32 false true = .ok (60 + 40, false, 16) ∧ fitHalf 60 50 5 1 20 1 100 32 false true = .ok (100, true, 32) ∧
    fitHalf 60 50 5 1 20 1 100 31 false true = .error 32 := by decide

/-! Witnesses of `RegistersTakeWrites`. -/

theorem witness_RegistersTakeWrites : ∃ f, findReg Reg.SCHED_CTL = some f ∧
    f.blk.base ∈ [blkSCHED.base, blkCARRIAGE.base, blkMEM.base, blkKVL.base, blkPARTING.base, blkCALLIPER.base, blkSLOT.base, blkSCAN.base, blkWEAR.base, blkPCIE.base] ∧
    (f.row.fields.any fun x => x.hi == 31 && x.acc == .w1s && f.blk.lock.isSome) = true ∧
    controlUsed Reg.SCHED_CTL = true ∧ Reg.SCHED_CTL % 4 = 0 ∧ coefWord Reg.SCHED_CTL = none ∧ c0.down.get (homeHalf .H Reg.SCHED_CTL) = false ∧
    (c0.reached fw Reg.SCHED_CTL).pageCause fw true Reg.SCHED_CTL = 0 := ⟨_, rfl, by decide⟩
theorem witness_RegistersTakeWrites_refused : controlUsed 0x1500000 = false ∧ controlUsed (Reg.SCHED_CTL + 2) = true ∧
    ({ c0 with down := ⟨false, true⟩ } : Chip).down.get (homeHalf fw.half (Reg.CALLIPER_CTL 1)) = true ∧ controlUsed (Reg.CALLIPER_CTL 1) = true := by decide

/-! Witnesses of `RegistersRead`. -/

theorem witness_RegistersRead : ∃ f, findReg Reg.SCHED_CTL = some f ∧ f.blk.base ≠ blkTIME.base ∧ f.blk.base ≠ blkVI.base ∧ f.blk.base ≠ blkDOWEL.base ∧
    isLo f = false ∧ isHi f = false ∧ isStamp f = false ∧ controlUsed Reg.SCHED_CTL = true ∧ coefWord Reg.SCHED_CTL = none ∧
    c0.down.get (homeHalf .H Reg.SCHED_CTL) = false ∧ (c0.reached fw Reg.SCHED_CTL).pageCause fw false Reg.SCHED_CTL = 0 := ⟨_, rfl, by decide⟩
theorem witness_RegistersRead_pair : ∃ f g, findReg Reg.SCHED_SAVE_FULL_LO = some f ∧ findReg (Reg.SCHED_SAVE_FULL_LO + 4) = some g ∧
    f.blk.base ≠ blkTIME.base ∧ f.blk.base ≠ blkVI.base ∧ f.blk.base ≠ blkDOWEL.base ∧ isLo f = true ∧ isHi g = true ∧ isLo g = false ∧
    coefWord Reg.SCHED_SAVE_FULL_LO = none ∧ (c0.reached fw Reg.SCHED_SAVE_FULL_LO).pageCause fw false Reg.SCHED_SAVE_FULL_LO = 0 ∧
    (c0.hold fw (Reg.SCHED_SAVE_FULL_LO + 4) 9).held? fw (Reg.SCHED_SAVE_FULL_LO + 4) = some 9 := ⟨_, _, rfl, rfl, by decide⟩
theorem witness_RegistersRead_mirror : let c := { c0 with mirrorRuns := [(0x100 : Owner)] }
    (fw.isFirmware || bit (Nat.lor (c.reg (Reg.WEAR_MIRROR (Reg.SCHED_CTL / 0x100000))) 1) fw.owner.part) = true ∧
    (user.isFirmware || bit (Nat.lor (c.reg (Reg.WEAR_MIRROR (Reg.SCHED_CTL / 0x100000))) 1) user.owner.part) = false ∧
    c.mirrorRuns.contains user.owner = true := by decide

/-! Witnesses of `InstancesMade`. -/

/-- All records free; partition 2 with a reserve of one ring, one dowel and one granule on each half, all asked for in `VI_ARG`. -/
def viChip : Chip :=
  (((((((((({ c0 with regs := (List.range 256).map fun j => (Reg.VI_INST_STATE j, 0x100#32) }.put (F.SCHED_PART_CFG_VALID 2) 1).setOwn (doorbellEntry 4096) (mkOwn 0x200 7 0)).setOwn 100 (mkOwn 0x200 7 0)).setOwn (524288 + 101) (mkOwn 0x200 7 0)).setReg
    (Reg.VI_ARG 0) (2 * 2 ^ 20 + 5 * 2 ^ 8)).setReg (Reg.VI_ARG 1) (4096 * 2 ^ 16 + 1)).setReg (Reg.VI_ARG 2) (77 * 2 ^ 16 + 1)).setReg
    (Reg.VI_ARG 4) 100).setReg (Reg.VI_ARG 5) 1).setReg (Reg.VI_ARG 6) 101).setReg (Reg.VI_ARG 7) 1
theorem witness_InstancesMade_create : viChip.viAdmits fw.owner = true ∧ viChip.on F.VI_CMD_RESULT_BUSY = false ∧
    viChip.createCheck fw.owner 9 viChip.viArg = none ∧ viChip.viArg.granules = [100, 524389] := by decide +kernel
def bornChip : Chip := ((viChip.viResult 1 9 0).put F.VI_CMD_RESULT_BUSY 1).viMake 9 (fun k => viChip.reg (Reg.VI_ARG k)) false
theorem witness_InstancesMade_complete : bornChip.on F.VI_CMD_RESULT_BUSY = true ∧ bornChip.q F.VI_CMD_RESULT_OP = 1 ∧ bornChip.q F.VI_CMD_RESULT_RECORD = 9 := by decide +kernel
def aliveChip : Chip := (bornChip.put (F.VI_INST_STATE_STATE 9) 1).put F.VI_CMD_RESULT_BUSY 0
/-- The instance of record 9 in Sapwood. -/
def inst9 : Initiator := ⟨0x209, 2, .H, .core⟩
theorem witness_InstancesMade_share : aliveChip.viAdmits fw.owner = true ∧ aliveChip.on F.VI_CMD_RESULT_BUSY = false ∧ aliveChip.viState 9 = 1 ∧ aliveChip.viMayAct fw.owner 9 = true := by decide +kernel
theorem witness_InstancesMade_windows : let c := (aliveChip.put F.VI_RCFG_SEL_RING 4096).put F.VI_CTL_MODE 1
    let d := c.selectSelf inst9 4096
    c.ringRecord (c.q F.VI_RCFG_SEL_RING) = some 9 ∧ c.viMayAct fw.owner 9 = true ∧ inst9.owner.part ≠ 0 ∧ d.instState inst9.owner = 1 ∧
    d.on F.VI_CTL_MODE = true ∧ d.ownsRing inst9.owner (d.selfSel inst9) = true := by decide +kernel

/-! Witnesses of `InstancesEnded`. -/

theorem witness_InstancesEnded_reset : aliveChip.viAdmits fw.owner = true ∧ aliveChip.on F.VI_CMD_RESULT_BUSY = false ∧
    aliveChip.viMayAct fw.owner 9 = true ∧ aliveChip.viState 9 ≠ 0 ∧ aliveChip.viState 9 ≠ 3 ∧ aliveChip.viState 9 ≠ 4 ∧
    ((aliveChip.put (F.VI_INST_STATE_STATE 9) 3).viState 9 = 3) ∧ aliveChip.dowelsOf 0x209 = [77] := by decide +kernel
theorem witness_InstancesEnded_withdraw : let c := withCmd c0 { mk 0x50 [] with owner := 0x209, stage := .running }
    (Chip.withdraw { c with txns := [(1, ⟨id0, 0x209, 0, .H, false, 0, 64, [], 0, some 0, none, none, 0⟩)] } 0x209).cmds.map Cmd.stage = [.withdrawn] := by decide +kernel
theorem witness_InstancesEnded_flr : let c := ((aliveChip.setReg (Reg.VI_INST_PCI 9) (3 * 2 ^ 20)).put (F.PCIE_CTL_MODE 0) 1).put (F.PCIE_STATUS_LINK_UP 0) 1
    c.on (F.PCIE_CTL_MODE Half.H.idx) = true ∧ c.on (F.PCIE_STATUS_LINK_UP Half.H.idx) = true ∧ c.down.get .H = false ∧ c.vfRecord .H 3 = some 9 ∧ c.viState 9 ≠ 0 := by decide +kernel
theorem witness_InstancesEnded_completion : let c := aliveChip.put (F.VI_INST_STATE_STATE 9) 3
    c.viState 9 = 3 ∧ c.withdrawn (c.viOwner 9) = true ∧ (c.viGrant 9).granules = [100, 524389] ∧
    (withCmd c { mk 0x50 [] with owner := 0x209 }).withdrawn (c.viOwner 9) = false := by decide +kernel
theorem witness_InstancesEnded_zeroing : let c := (aliveChip.put (F.VI_INST_STATE_STATE 9) 4).put (F.CARRIAGE_CTL_ENABLE 0) 1
    let c := c.put (F.CARRIAGE_CTL_ENABLE 8) 1
    c.viState 9 = 4 ∧ c.movesInto (c.viGrant 9) = false ∧ (c.viGrant 9).zeroers c = true ∧ c.viDestroy.contains 9 = false ∧
    ({ c with viDestroy := [9] } : Chip).viDestroy.contains 9 = true := by decide +kernel

/-! Witnesses of `CalliperWork`. -/

/-- Headstock's time bases run. -/
def leadChip : Chip := { c0 with time := ⟨{ c0.time.h with role := .lead }, c0.time.t⟩ }
def checkOf (c : FV) : Check := ⟨id0, 3, .fin false 5 0, c, .fin false 5 0, true, [], Tile.zero⟩
def checkChip (d : Option Diag) (n : Nat) : Chip :=
  ((withCmd c0 { mk 0x10 [] with stage := .running }).put (F.ARRAY_CTL_ENABLE 2) 1).setArr 2
    { ArrSt.zero with checks := [checkOf (.fin false n 0)], diag := d, owed := true }
theorem witness_CalliperWork_compare (n : Nat) : ((checkChip none n).arr 2).checks = [checkOf (.fin false n 0)] ∧
    (checkChip none n).cmd? id0 = some { mk 0x10 [] with stage := .running } ∧ (checkChip none n).compared .H { mk 0x10 [] with stage := .running } = true :=
  ⟨rfl, rfl, rfl⟩
theorem witness_CalliperWork_verdicts : (checkOf (.fin false 5 0)).verdict (.fin false 0 0) = .passes ∧
    (checkOf (.fin false 4 0)).verdict (.fin false 0 0) = .fails ∧
    Check.verdict { checkOf (.fin false 5 0) with int := false, t := .inf false } (.fin false 0 0) = .unchecked := by decide +kernel
theorem witness_CalliperWork_diag : ((checkChip (some ⟨id0, 3, [], 0, 0, Tile.zero, true, some 1⟩) 5).arr 2).diag = some ⟨id0, 3, [], 0, 0, Tile.zero, true, some 1⟩ ∧
    ((checkChip (some ⟨id0, 3, [], 0, 0, Tile.zero, false, none⟩) 5).arr 2).diag = some ⟨id0, 3, [], 0, 0, Tile.zero, false, none⟩ ∧ c0.lineLeft 2 false = true := by decide +kernel
theorem witness_CalliperWork_blank : ((checkChip none 5).arr 2).owed = true ∧ (checkChip none 5).arrayInService 2 = true ∧
    (checkChip none 5).arrayIdle 2 = true := by decide +kernel
theorem witness_CalliperWork_frame : let c := leadChip
    c.timeReady .H = true ∧ c.frames.get .H = none := by decide +kernel

/-! Witnesses of `SlotsAged`. -/

def agedChip : Chip := ((leadChip.put (F.SLOT_STATE_SWITCHED 4) 0).put (F.SLOT_CFG_VALID 4) 1).put (F.SLOT_CFG_RESTORE_N 4) 2
theorem witness_SlotsAged_switch : agedChip.timeReady .H = true ∧ agedChip.on (F.SLOT_CFG_VALID 4) = true ∧
    agedChip.on (F.SLOT_STATE_SWITCHED 4) = false ∧ agedChip.switchCause .H 4 = some 2 ∧ agedChip.on (F.SLOT_CFG_VALID 5) = false := by decide +kernel
theorem witness_SlotsAged_restore : let c := (((agedChip.setSlot 4 { SlotSt.zero with held := ⟨true, false⟩ }).put (F.SLOT_STATE_SWITCHED 4) 1).put (F.SLOT_STATE_GOOD 4) 2).setReg (Reg.SLOT_GEN 4) 1
    let d := c.put (F.SLOT_AGE_LIMIT_US 4) 1000
    c.timeReady .H = true ∧ c.on (F.SLOT_CFG_VALID 4) = true ∧ c.on (F.SLOT_STATE_SWITCHED 4) = true ∧ d.slotEmpty 4 = false ∧
    d.slotOld .H 4 = false := by decide +kernel

/-! Witnesses of `AuthorityMessages`. -/

/-- Headstock in STANDBY with both paths up, Tailstock in CHARGE; Tailstock's message with epoch 9 is on the wire. -/
def pairChip : Chip :=
  { ((((((c0.put (F.AUTH_STATUS_UNFIT 0) 0).put (F.AUTH_STATUS_UNFIT 1) 0).put (F.AUTH_STATUS_STATE 0) 1).put (F.AUTH_STATUS_STATE 1) 2).put (F.AUTH_STATUS_PATH_HL 0) 1).put (F.AUTH_STATUS_PATH_SB 0) 1).put (F.AUTH_STATUS_PEER_SILENT 1) 1 with
    authWire := ⟨(some ⟨9, 1, 0, false, 5, []⟩, some ⟨9, 1, 0, false, 5, []⟩), (some ⟨9, 2, 0, false, 5, []⟩, some ⟨9, 2, 0, false, 5, []⟩)⟩ }
theorem witness_AuthorityMessages : pairChip.down.get .H = false ∧ (pairChip.authWire.get Half.H.other).1 = some ⟨9, 2, 0, false, 5, []⟩ ∧
    (pairChip.auth.get .H).hlSeq ≠ some 5 ∧ epochAbove 9 (pairChip.reg (Reg.AUTH_EPOCH 0)) = true ∧
    (pairChip.authWire.get Half.T.other).2 = some ⟨9, 1, 0, false, 5, []⟩ ∧ (pairChip.auth.get .T).sbSeq ≠ some 5 ∧ pairChip.authState .T = 2 := by decide +kernel
theorem witness_AuthorityMessages_loss : pairChip.on (F.AUTH_STATUS_PATH_HL 0) = true ∧ pairChip.on (F.AUTH_STATUS_PATH_SB 0) = true ∧
    pairChip.on (F.AUTH_STATUS_PEER_SILENT 0) = false ∧
    (let c := { pairChip with tb := ⟨[⟨50 * usUnits, 0⟩], []⟩ }; ((50 * usUnits : Nat) : Int) ≤ elapsed (c.stamp .H 0) (c.auth.get .H).lastValid) ∧
    (let c := { pairChip with down := ⟨false, true⟩ }; c.on (F.AUTH_STATUS_PEER_DOWN 0) = false ∧ c.down.get Half.H.other = true) := by decide +kernel

/-! Witnesses of `AuthorityChanges`. -/

/-- Tailstock in charge and driving; Headstock a fit standby. -/
def drivingChip : Chip := (pairChip.put (F.AUTH_STATUS_OUT_EN 1) 1).put (F.AUTH_STATUS_ARB_PRESENT 1) 1
theorem witness_AuthorityChanges_claim : let c := { (c0.put (F.AUTH_STATUS_UNFIT 0) 0).put (F.AUTH_STATUS_STATE 0) 1 with down := ⟨false, true⟩ }
    (c.put (F.AUTH_STATUS_PEER_DOWN 0) 1).mayClaim .H = some 2 := by decide +kernel
theorem witness_AuthorityChanges_unfit : drivingChip.down.get .T = false ∧ drivingChip.conditionNow .T 0 ≠ some true ∧
    drivingChip.inCharge .T = true ∧ bit (drivingChip.q (F.AUTH_STATUS_UNFIT 1)) 0 = false ∧
    (let c := { drivingChip.put (F.AUTH_STATUS_UNFIT 1) 16 with auth := drivingChip.auth.set .T { drivingChip.auth.t with softSince := some 0 } }
     let d := { c with tb := ⟨[], [⟨2 ^ 60, 0⟩]⟩ }
     (d.auth.get .T).softSince = some 0 ∧ d.inCharge .T = true ∧ d.fit .T = false ∧
     ((d.q (F.AUTH_CTL_UNFIT_MAX_MS 1) * 1000 * usUnits : Nat) : Int) ≤ elapsed (d.stamp .T 0) 0) := by decide +kernel
theorem witness_AuthorityChanges_tie : let c := { c0 with auth := ⟨{ c0.auth.h with tieHold := some 0 }, c0.auth.t⟩, tb := ⟨[⟨50000 * usUnits, 0⟩], []⟩ }
    (c.auth.get .H).tieHold = some 0 ∧ ((50000 * usUnits : Nat) : Int) ≤ elapsed (c.stamp .H 0) 0 := by decide +kernel
theorem witness_AuthorityChanges_requests : drivingChip.portCause fw true (Reg.AUTH_REQ 1) = 0 ∧ drivingChip.fitStandby Half.T.other = true ∧
    drivingChip.portCause fw true (Reg.AUTH_REQ 0) = 0 ∧
    (let c := drivingChip.put (F.AUTH_STATUS_STATE 0) 3; c.authState .H = 3 ∧ c.on (F.AUTH_STATUS_PATH_HL 0) = true ∧ c.on (F.AUTH_STATUS_PATH_SB 0) = true) := by decide +kernel
theorem witness_AuthorityChanges_outputs : drivingChip.q (F.AUTH_STATUS_ARB_VIEW 1) ≠ 1 ∧ drivingChip.on (F.AUTH_STATUS_ARB_PRESENT 1) = true ∧
    (let c := { pairChip.put (F.AUTH_STATUS_PEER_DOWN 1) 1 with down := ⟨true, false⟩ }; c.mayRise .T = true ∧ c.mayRise .H = false) ∧
    (let c := (pairChip.put (F.AUTH_STATUS_UNFIT 0) 1).put (F.AUTH_STATUS_SAFE_STOP 0) 0; c.safeStopCause .H = some 0 ∧ c.on (F.AUTH_STATUS_SAFE_STOP 0) = false) ∧
    (let c := { pairChip with tb := ⟨[⟨40 * usUnits, 0⟩], []⟩ }; ((40 * usUnits : Nat) : Int) ≤ elapsed (c.stamp .H 0) (c.auth.get .H).lastSent) := by decide +kernel

/-! Witnesses of `OneHalfDrives`. -/

theorem witness_OneHalfDrives : (drivingChip.outEn .H && drivingChip.outEn .T) = false ∧ (∀ k, drivingChip.down.get k = true → drivingChip.outEn k = false) := by
  refine ⟨by decide +kernel, fun k h => ?_⟩
  cases k <;> exact absurd h (by decide +kernel)

/-! Witnesses of `SteadyCommands`. -/

/-- Headstock alone, its slot 3 configured by its reset values and ARMED. -/
def armedChip : Chip := { c0.put (F.LOOP_STATE_STATE 0 3) 1 with down := ⟨false, true⟩ }
theorem witness_SteadyCommands : armedChip.portCause fw true (Reg.STEADY_CMD 0) = 0 ∧ armedChip.down.get .H = false ∧ armedChip.down.get Half.H.other = true ∧
    armedChip.on (F.STEADY_CMD_RESULT_BUSY 0) = false ∧ armedChip.steadyCheck .H 2 3 0 = 0 ∧ armedChip.steadyCheck .H 3 3 0 = 0 := by decide +kernel
/-- Slot 5 CLOSED, slot 6 ARMED, with the same period and destinations. -/
theorem witness_SteadyCommands_handover : let c := (armedChip.put (F.LOOP_STATE_STATE 0 5) 2).put (F.LOOP_STATE_STATE 0 6) 1
    c.steadyCheck .H 4 5 6 = 0 := by decide +kernel
def slotReady : Chip := (((armedChip.put (F.LOOP_TIMING_PERIOD_US 0 4) 1000).put (F.LOOP_CFG_N_X 0 4) 1).put (F.LOOP_CFG_N_Y 0 4) 1).put (F.LOOP_CFG_N_U 0 4) 1
theorem witness_SteadyCommands_arm : (slotReady.put (F.LOOP_STATE_STATE 0 3) 0).steadyCheck .H 1 4 0 = 0 := by decide +kernel
theorem witness_SteadyCommands_apply : let c := { armedChip with steadyCmd := ⟨some ⟨2, 3, 0, 0⟩, none⟩ }
    c.steadyCmd.get .H = some ⟨2, 3, 0, 0⟩ ∧ c.steadyCheck .H 2 3 0 = 0 ∧ c.steadyCheck .H 1 3 0 ≠ 0 ∧ c.loopState .H 4 = 0 ∧ c.loopState .H 3 ≠ 0 ∧
    c.portCause fw true (coefPage .H 3 + 4 * 2047) = 0 := by decide +kernel

/-! Witnesses of `SteadyUpdates`. -/

theorem witness_SteadyUpdates_clip : (FV.fin true 1 0).isNan = false ∧ (FV.inf false).isNan = false ∧ FV.le (.fin true 1 0) (.inf false) = true ∧
    FV.nan.isNan = true ∧ FV.le (.fin true 1 0) FV.zero = true := by decide +kernel
theorem witness_SteadyUpdates_step : let c := leadChip.put (F.STEADY_CTL_ENABLE 0) 1
    c.on (F.STEADY_CTL_ENABLE 0) = true ∧ c.timeReady .H = true ∧ c.awake .H = true ∧ c.on (F.STEADY_CTL_ENABLE 1) = false := by decide +kernel

/-! Witnesses of `MachineIo`. -/

theorem witness_MachineIo_outputs : let c := (c0.put (F.AUTH_STATUS_OUT_EN 0) 1).put (F.HIO_DO_CFG_RB_EN 0 15) 1
    c.outEn .H = true ∧ c.on (F.HIO_DO_CFG_RB_EN 0 15) = true := by decide +kernel
theorem witness_MachineIo_adc : let c := ((c0.put (F.HIO_ADC_SEQ_SEQ 0) 0x8001).put (F.HIO_ADC_WIN_MAX 0 0) 4095).put (F.HIO_ADC_WIN_MIN 0 0) 0
    nextChannel (c.q (F.HIO_ADC_SEQ_SEQ 0)) (c.hio.get .H).adcLast = some 0 ∧ c.q (F.HIO_ADC_WIN_MIN 0 0) ≤ 7 ∧ 7 ≤ c.q (F.HIO_ADC_WIN_MAX 0 0) := by decide +kernel
theorem witness_MachineIo_inputs : c0.down.get .H = false ∧ bit (c0.hio.get .H).diLevel 31 ≠ true ∧
    (let c := { c0.put (F.HIO_DI_STUCK_STUCK 0 31) 1 with tb := ⟨[⟨10000 * usUnits, 0⟩], []⟩, hio := ⟨{ c0.hio.h with diLevel := 2 ^ 31 }, c0.hio.t⟩ }
     0 < c.q (F.HIO_DI_STUCK_STUCK 0 31) ∧ c.diActive .H 31 = true ∧ bit (c.q (F.HIO_DI_STUCK_ST_INPUT 0)) 31 = false ∧
     ((1 * 10000 * usUnits : Nat) : Int) ≤ elapsed (c.stamp .H 0) (Tbl.look 0 (c.hio.get .H).diSince 31)) ∧
    (let x := { c0.hio.h with diPend := [(31, 2)] }; x.nextPend = some 31) ∧ c0.q (F.DOWEL_ATTR_OWNER 0) = c0.q (F.HIO_DI_NOTIFY_NOTIFY_OWNER 0 31) ∧
    c0.down.get (dowelHalf 0) = false ∧ ({ c0 with down := ⟨true, false⟩ } : Chip).down.get (dowelHalf 0) = true := by decide +kernel
/-- Half a count is rounded up (R383). -/
theorem test_duty : dutyCounts (.fin false 1 (-1)) 2501 = 1251 ∧ dutyCounts (.fin false 1 (-1)) 2500 = 1250 := by decide +kernel

/-! Witnesses of `FieldsPacked`. -/

theorem witness_FieldsPacked : ∀ b ∈ fieldBits true 12 3, b < 8 * (List.replicate 8 (0 : Byte)).length := by decide +kernel
/-- Big-endian, twelve bits from bit 3: bits 3 to 0 of byte 0, then byte 1 (R403). -/
theorem test_pack : packField [0, 0] 3 12 true 0xABC = [0x0A, 0xBC] ∧ packField [0, 0] 4 12 false 0xABC = [0xC0, 0xAB] := by decide +kernel

/-! Witnesses of `GatewayFrames`. -/

/-- CAN controller 1 active; route 9 a signal route from it, matching identifier 0x123; time bases running. -/
def gwChip : Chip :=
  (((((leadChip.put (F.GW_CAN_STAT_STATE 1) 0).put F.GW_CTL_ENABLE 1).put (F.GW_ROUTE_CFG_VALID 9) 1).put (F.GW_ROUTE_CFG_SRC0 9) 1).setReg
    (Reg.GW_ROUTE_MATCH 9) 0x123).setReg (Reg.GW_ROUTE_MASK 9) 0x1FFFFFFF
theorem witness_GatewayFrames_receive : gwChip.portUp 1 = true ∧ isCan 1 = true ∧ gwChip.timeReady (portHalf 1) = true ∧ gwChip.carries 1 0 = true ∧ gwChip.on F.GW_CTL_ENABLE = true ∧ gwChip.routes = [9] ∧
    gwChip.q (F.GW_ROUTE_CFG_SRC0 9) = 1 ∧ gwChip.q (F.GW_ROUTE_CFG_SRC_KIND 9) = 0 ∧ gwChip.on (F.GW_ROUTE_CFG_KIND 9) = false ∧
    matchKey 0x123 (gwChip.reg (Reg.GW_ROUTE_MATCH 9)) (gwChip.reg (Reg.GW_ROUTE_MASK 9)) = true := by decide +kernel
theorem witness_GatewayFrames_poll : let c := gwChip.put (F.GW_ROUTE_CFG_SRC_KIND 9) 2
    c.on F.GW_CTL_ENABLE = true ∧ c.on (F.GW_ROUTE_CFG_VALID 9) = true ∧ c.q (F.GW_ROUTE_CFG_KIND 9) = 0 ∧ c.timeReady c.gwHalf = true ∧
    (c.route 9).poll = none ∧ c.q (F.GW_ROUTE_CFG_SRC_KIND 9) = 2 ∧ c.down.get (Half.ofIdx (bits (c.reg (Reg.GW_ROUTE_MATCH 9)) 5 1)) = false := by decide +kernel
theorem witness_GatewayFrames_instant : let c := gwChip.put (F.GW_TXF_CFG_VALID 1023) 1
    c.on (F.GW_TXF_CFG_VALID 1023) = true ∧ Tbl.find? c.gwInstant 1023 = none ∧ Tbl.find? ({ c with gwInstant := [(1023, 0)] } : Chip).gwInstant 1023 = some 0 ∧
    c.gwNow c.gwHalf = 0 := by decide +kernel
def frame123 : GFrame := ⟨0, 0x123, 0, 0, 0, [1, 2]⟩
def sendSt : GSend := ⟨id0, 0, 0, 1, 0x123, true, 0, 1000, none, none, none, 0⟩
def sendingChip : Chip := { withCmd gwChip { mk 0x80 [] with stage := .running } with
  gwQueue := [⟨1, 0, frame123, 0, 0, false, .cmd id0, 0⟩], gwSends := [sendSt] }
theorem witness_GatewayFrames_transmit : sendingChip.ageQueued 1 = sendingChip.syncQueued 1 ∧ (sendingChip.ageQueued 1).portUp 1 = true ∧ (sendingChip.ageQueued 1).mayDrive 1 = true ∧ (sendingChip.ageQueued 1).nextFrame 1 0 = some ⟨1, 0, frame123, 0, 0, false, .cmd id0, 0⟩ ∧
    sendingChip.send? id0 = some sendSt ∧ sendSt.live = true ∧ sendSt.resp = none ∧ sendingChip.cmd? id0 = some { mk 0x80 [] with stage := .running } := by decide +kernel
theorem witness_GatewayFrames_states : gwChip.canState 1 = 0 ∧ gwChip.down.get (portHalf 1) = false ∧
    (let c := (gwChip.put (F.GW_CAN_STAT_STATE 1) 2).put (F.GW_CAN_CFG_BO_AUTO 1) 1; c.canState 1 = 2 ∧ c.on (F.GW_CAN_CFG_BO_AUTO 1) = true) ∧
    gwChip.on (F.GW_ETH_STAT_LINK 7) = false ∧ gwChip.down.get (portHalf (7 + 16)) = false ∧
    (let c := gwChip.put (F.GW_SB_CFG_LATCH 1) 128; bit (c.q (F.GW_SB_CFG_LATCH (15 / 8))) (15 % 8) = true ∧ c.down.get (Half.ofIdx (15 / 8)) = false) := by decide +kernel

/-! Witnesses of `GatewayCommands`. -/

def sendCmd (op : Nat) : Cmd := mk op [BitVec.ofNat 64 (0x1000000000 + 2 ^ 48)]
def sendChip (op : Nat) : Chip := withCmd ((gwChip.put (F.GW_CAN_CFG_TX_PARTS 1) 1).put (F.GW_CAN_SA_TX_QUOTA 1) 4) (sendCmd op)
theorem witness_GatewayCommands_send : (sendCmd 0x80).fld 1 48 5 = 1 ∧ (sendChip 0x80).mayTransmit 1 0 = true ∧
    (let r := (sendChip 0x80).readSeen (sendCmd 0x80) 0x1000000000 32 .answered []
     let r' := r.2.readSeen (sendCmd 0x80) 0x1000000020 0 .answered []
     let c := r'.2.touches (sendCmd 0x80) [(0x1000000000, 32)]
     r.1.toOption = some (List.replicate 32 0) ∧ r'.1.toOption = some [] ∧ c.carries 1 0 = true ∧ c.queueRoom 1 0 0 true = true ∧ c.down.get (portHalf 1) = false ∧
     c.canState 1 ≠ 2) ∧ parseRecord 1 (List.replicate 32 0) [] = some (⟨0, 0, 0, 0, 0, []⟩, false) ∧
    (sendChip 0x80).bridgeCmd id0 0x80 = some (sendCmd 0x80) ∧ (sendChip 0x81).bridgeCmd id0 0x81 = some (sendCmd 0x81) := by decide +kernel
theorem witness_GatewayCommands_fence : let c := withCmd c0 (mk 0x82 [])
    c.bridgeCmd id0 0x82 = some (mk 0x82 []) ∧ c.sendsResolved (mk 0x82 []) = true ∧ c.gwLate.contains 0 = false ∧
    ({ c with gwLate := [(0 : Owner)] } : Chip).gwLate.contains (0 : Owner) = true := by decide +kernel
theorem witness_GatewayCommands_expiry : let c := { sendingChip with tb := ⟨[⟨1000 * usUnits, 0⟩], []⟩ }
    let x : GSend := { sendSt with resp := some ⟨64, 0, 0, 0, none, 5⟩, sentAt := some 0 }
    let d := { c with gwSends := [x] }
    c.send? id0 = some sendSt ∧ (c.gwQueue.find? fun q => q.src == .cmd id0).isSome = true ∧
    ((1000 * usUnits : Nat) : Int) ≤ elapsed (c.stamp .H 0) 0 ∧ d.send? id0 = some x ∧ x.live = true := by decide +kernel
theorem witness_GatewayCommands_gates : c0.portCause fw true (Reg.GW_ETH_BASE_HI 7) = 0 ∧ c0.down.get (portHalf (7 + 16)) = false ∧
    (let c := { c0.put (F.GW_ETH_STAT_GCL_PENDING 7) 1 with gwGates := [(7, ⟨[(0, 1), (5, 2)], 0, 0, 0⟩)], time := ⟨c0.time.h, { c0.time.t with role := .lead }⟩ }
     c.on (F.GW_ETH_STAT_GCL_PENDING 7) = true ∧ c.timeReady .T = true ∧ 0 ≤ elapsed (c.gwNow .T) (c.gates 7).due ∧ (c.gates 7).list ≠ []) := by decide +kernel

/-! Witnesses of `CamerasAndDisplays`. -/

/-- Port 15: RAW8, virtual channel 0, 4 × 2 samples; written by partition 0. -/
def camChip (f : Option CamFrame) : Chip :=
  ((({ c0 with time := c0.time.set .T { c0.time.get .T with role := .lead } }.put (F.INTAKE_CTL_ENABLE 15) 1).put (F.INTAKE_SIZE_W 15) 4).put (F.INTAKE_SIZE_H 15) 2).setCam 15 { CamSt.zero with cur := f }
def frame7 (n : Nat) : CamFrame := ⟨7, 0, n, false, false, false, false, 0⟩
theorem witness_CamerasAndDisplays_start : (camChip none).camOn 15 = true ∧ (camChip none).timeReady (camHalf 15) = true ∧ (camChip none).q (F.INTAKE_FMT_VC 15) = 0 ∧ ((camChip none).cam 15).cur = none := by decide +kernel
theorem witness_CamerasAndDisplays_line : (camChip (some (frame7 1))).camOn 15 = true ∧ (camChip (some (frame7 1))).camType 15 = 0x2A ∧
    ((camChip (some (frame7 1))).cam 15).cur = some (frame7 1) ∧ 1 < (camChip (some (frame7 1))).q (F.INTAKE_SIZE_H 15) ∧
    0x40000000 ≤ ((camChip (some (frame7 1))).put (F.INTAKE_BUF_HI_BUF 15) 0x10).camBuf 15 7 := by decide +kernel
theorem witness_CamerasAndDisplays_end : let c := ((camChip (some (frame7 2))).put (F.INTAKE_BUF_HI_BUF 15) 0x10).put (F.INTAKE_RATE_TIMEOUT_MS 15) 0
    c.camOn 15 = true ∧ (c.cam 15).cur = some (frame7 2) ∧ c.q (F.INTAKE_SIZE_H 15) = 2 ∧ 0x40000000 ≤ c.camBuf 15 7 ∧ c.engineCause (c.camBus 15) true (c.camBuf 15 7) 64 .answered = none ∧
    ((c.q (F.INTAKE_RATE_TIMEOUT_MS 15) * 1000 * usUnits : Nat) : Int) ≤ elapsed (c.stamp (camHalf 15) 0) (frame7 2).lastAt := by decide +kernel
theorem witness_CamerasAndDisplays_channel : (camChip none).q (F.INTAKE_FMT_VC 15) ≠ 3 ∧ ((camChip none).cam 15).phyLost = false ∧
    (camChip none).down.get (camHalf 15) = false := by decide +kernel
/-- Output 3: 8 × 4 pixels, safety rectangle 2 × 1 at (1, 2) failing in opaque red. -/
def scanChip : Chip :=
  ((((((((c0.put (F.SCAN_CTL_ENABLE 3) 1).put (F.SCAN_H_ACTIVE 3) 8).put (F.SCAN_V_ACTIVE 3) 4).put (F.SCAN_SAFE_CFG_ENABLE 3) 1).put (F.SCAN_SAFE_POS_SAFE_X 3) 1).put
    (F.SCAN_SAFE_POS_SAFE_Y 3) 2).put (F.SCAN_SAFE_SIZE_SAFE_W 3) 2).put (F.SCAN_SAFE_SIZE_SAFE_H 3) 1).put (F.SCAN_SAFE_FAIL_ARGB 3) 0xFFFF0000
theorem witness_CamerasAndDisplays_outputs : scanChip.scanOn 3 = true ∧ (scanChip.scan 3).stopped = false ∧ scanChip.down.get (scanHalf 3) = false ∧
    ((scanChip.setScan 3 { ScanSt.zero with read := some (0, []) }).scan 3).read = some (0, []) ∧ (c0.scan 0).next.getD (c0.scan 0).shown = 0 ∧
    (c0.put (F.SCAN_CTL_ENABLE 0) 1).scanOn 0 = true ∧ c0.on (F.SCAN_SAFE_CFG_ENABLE 0) = false := by decide +kernel
theorem witness_CamerasAndDisplays_rectangle : let c := scanChip.setScan 3 { ScanSt.zero with failing := true, shown := 5 }
    c.scanOn 3 = true ∧ c.on (F.SCAN_SAFE_CFG_ENABLE 3) = true ∧ (c.scan 3).failing = true ∧ (c.scan 3).blank = false ∧ (c.scan 3).next.getD (c.scan 3).shown ≠ 0 ∧ 2 < c.q (F.SCAN_H_ACTIVE 3) ∧ c.q (F.SCAN_SAFE_POS_SAFE_X 3) ≤ 2 ∧
    2 < c.q (F.SCAN_SAFE_POS_SAFE_X 3) + c.q (F.SCAN_SAFE_SIZE_SAFE_W 3) ∧ c.q (F.SCAN_SAFE_POS_SAFE_Y 3) = 2 ∧ c.q (F.SCAN_SAFE_SIZE_SAFE_H 3) = 1 ∧
    2 < c.q (F.SCAN_V_ACTIVE 3) ∧ bits (c.q (F.SCAN_SAFE_FAIL_ARGB 3)) 24 8 = 255 := by decide +kernel
/-- A half-transparent white over black is 128 of 255, rounded to nearest (R420). -/
theorem test_blend : blend 128 255 0 = 128 ∧ blend 255 7 99 = 7 ∧ blend 0 7 99 = 99 := by decide

/-! Witnesses of `CheckValueUnits`. -/

theorem witness_CheckValueUnits : c0.down.get (cvuHalf 31) = false ∧ c0.cvuBusy 31 = false ∧ c0.q (F.CVU_CFG_SRC 31) = 0 ∧ (c0.cvuPoly 31).isSome = true := by decide +kernel
theorem witness_CheckValueUnits_page : ∀ off ∈ [0x000, 0x004, 0x008, 0x010, 0x014], c0.portCause fw true (0x00D00000 + (31 : Fin 32).val * 0x1000 + off) = 0 := by
  decide +kernel
theorem witness_CheckValueUnits_busy : (withCmd c0 { mk 0x50 [0, 0, 0, 0, 0, BitVec.ofNat 64 (64 + 31)] with stage := .running, aux := [0, 0, 0, 1] }).cvuBusy 31 = true := by decide +kernel

/-! Witnesses of `CheckValuePolynomials`. -/

theorem witness_CheckValuePolynomials : (c0.put (F.CVU_CTL_POLY 0) 6).q (F.CVU_CTL_POLY 0) = 6 ∧ (c0.put (F.CVU_CTL_POLY 31) 7).q (F.CVU_CTL_POLY 31) = 7 := by decide +kernel
theorem test_crc : (crcPoly 0).map (fun p => p.finish (p.bytes p.init [0x31, 0x32, 0x33, 0x34, 0x35, 0x36, 0x37, 0x38, 0x39])) = some 0x4B ∧
    (crcPoly 2).map (fun p => p.finish (p.bytes p.init [0x31, 0x32, 0x33, 0x34, 0x35, 0x36, 0x37, 0x38, 0x39])) = some 0xCBF43926 ∧
    (crcPoly 5).map (fun p => p.finish (p.bytes p.init [0x31, 0x32, 0x33, 0x34, 0x35, 0x36, 0x37, 0x38, 0x39])) = some 0x6C40DF5F0B497347 := by decide +kernel

/-! Witnesses of `TimeKept`. -/

theorem witness_TimeKept_writes : (∀ a ∈ [Reg.TB_RATE 1 7, Reg.TB_STEP_LO 1 7, Reg.TB_STEP_HI 1 7, Reg.TB_REBASE 1 7], c0.portCause fw true a = 0) ∧
    (∀ a ∈ [Reg.TB_RATE 0 0, Reg.TB_STEP_LO 0 0, Reg.TB_STEP_HI 0 0, Reg.TB_REBASE 0 0], c0.portCause fw true a = 0) ∧
    c0.down.get .T = false ∧ c0.stepRefused .T 7 = some 0 ∧ (c0.put (F.TB_CFG_STEP_EN 1 7) 1).stepRefused .T 7 = none := by decide +kernel
def writesChip (k v : Nat) : Chip := { (c0.setBase .H 7 ⟨640000000000, 0⟩).setBase .T 7 ⟨640000000000, 0⟩ with timeWrites := [⟨7, k, v, .H, 0⟩] }
theorem witness_TimeKept_apply : (writesChip 2 10).timeWrites = [⟨7, 2, 10, .H, 0⟩] ∧ 0 ≤ ((writesChip 2 10).timeOf .H).cycles ∧
    (writesChip 2 10).down.get .T = false ∧ (∀ h ∈ [Half.H, Half.T], ((writesChip 2 10).tb.get h).length = 8) ∧ 10 * 64000000000 ≤ ((writesChip 2 10).base .T 7).val ∧
    (writesChip 2 10).epoch 1 7 + 10 < 2 ^ 48 := by decide +kernel
def roleChip (r : TimeRole) (n : Nat) : Chip := c0.setTime .T { TimeSt.zero with role := r, cycles := n }
theorem witness_TimeKept_lead : ((roleChip .listening 500000).timeOf .T).role = .listening ∧ (roleChip .listening 500000).down.get .T = false ∧
    ((roleChip (.leading 500000) 750000).timeOf .T).role = .leading 500000 ∧ (roleChip .lead 25000).leads .T = true ∧
    ((roleChip .follower 75000).timeOf .T).heardAt + 75000 = ((roleChip .follower 75000).timeOf .T).cycles := by decide +kernel
theorem witness_TimeKept_pulse : let c (r : TimeRole) := (roleChip r 5).setTime .H { TimeSt.zero with onWay := true }
    ((c .listening).timeOf .H).onWay = true ∧ ((c .listening).timeOf .T).role = .listening ∧ ((c .follower).timeOf .T).role = .follower ∧ ((c (.leading 0)).timeOf .T).role = .leading 0 ∧ ((c (.leading 0)).timeOf .T).cycles < 250000 ∧
    elapsed ((c .follower).stamp .T 0) ((c .follower).stamp .H 0) = 0 := by decide +kernel
theorem witness_TimeKept_pps : let c := (leadChip.put (F.TIME_PPS_CFG_ENABLE 0) 1).setBase .H 0 ⟨200000000000, 0⟩
    let d (b : Nat) := c.setTime .H { c.timeOf .H with pps := some b }
    c.on (F.TIME_PPS_CFG_ENABLE 0) = true ∧ c.on (F.TIME_PPS_CFG_POL 0) = false ∧ c.timeReady .H = true ∧ (c.timeOf .H).pps = none ∧
    ((d 190000000000).timeOf .H).pps = some 190000000000 ∧ elapsed ((d 190000000000).stamp .H 0) 190000000000 = 10000000000 ∧ (d 190000000000).timeReady .H = true ∧
    elapsed ((d 1).stamp .H 0) 1 = 199999999999 ∧ c.q (F.TIME_PPS_CFG_WIN_US 0) * usUnits < 10000000000 := by decide +kernel
theorem witness_TimeKept_stamps : let x : PtpStamp := ⟨0, 1, 2, 2 ^ 33 + 5⟩
    let c : Chip := { c0 with ptpTx := [(7, [x])], ptpRx := [(7, [x, x])] }
    c.down.get (Half.ofIdx ((7 : Fin 8).val / 4)) = false ∧ c.portCause fw false (Reg.TIME_TXTS_INFO 1 3) = 0 ∧ c.portCause fw false (Reg.TIME_RXTS_INFO 1 3) = 0 ∧
    Tbl.find? c.ptpTx 7 = some [x] ∧ Tbl.find? c.ptpRx 7 = some [x, x] ∧ Tbl.find? c0.ptpTx 7 = none ∧ Tbl.find? c0.ptpRx 7 = none := by decide +kernel
/-- One cycle at the nominal rate is 4 ns, 256 units (R434); 1,000 ppm make a thousandth more: 4 × 256.256 = 1025.024 units in four cycles. -/
theorem test_cycle : (TimeBase.step ⟨5, 0⟩ 0).val = 261 ∧ ((List.range 4).foldl (fun b (_ : Nat) => b.step 256000000) (⟨0, 0⟩ : TimeBase)).val = 1025 := by decide +kernel

/-! Witnesses of `OwnershipChanges`. -/

/-- A change of two granules to partition 1's Sapwood, type 5; entry 9 is of type 7 and clean. -/
def changeChip (new n : Nat) : Chip := (((c0.put F.OWN_CHG_FIRST_INDEX 9).put F.OWN_CHG_COUNT_INDEX n).put F.OWN_CHG_NEW_VALUE new).setOwn 9 (mkOwn 0 7 1)
def changeOf (c : Chip) (op : Nat) : OwnChange := ⟨op, c.q F.OWN_CHG_FIRST_INDEX, c.q F.OWN_CHG_COUNT_INDEX, c.q F.OWN_CHG_NEW_VALUE, false, c.txnNext⟩
theorem witness_OwnershipChanges : let c := changeChip (0x100 + 5 * 2 ^ 13) 1
    c.portCause fw true Reg.OWN_CHG_CMD = 0 ∧ c.changeCheck (changeOf c 1) false = none ∧ c.changeCheck (changeOf c 2) false = none ∧
    c.changeCheck (changeOf c 2) true = none ∧ c.changeCheck (changeOf c 3) false = none ∧ ownRow (changeOf c 2).first = 0 ∧
    ((changeOf c 2).entries.any fun e => ownOwner (c.ownAt e) / 4096 != (changeOf c 2).owner / 4096) = false ∧
    (let d := changeChip (0x100 + 5 * 2 ^ 13) 0;
      d.changeCheck (changeOf d 1) false = some 0x44 ∧ d.changeCheck (changeOf d 2) false = some 0x44 ∧ d.changeCheck (changeOf d 3) false = some 0x44) ∧
    (let d := changeChip (0x1100 + 5 * 2 ^ 13) 1;
      d.changeCheck (changeOf d 2) false = none ∧ ((changeOf d 2).entries.any fun e => ownOwner (d.ownAt e) / 4096 != (changeOf d 2).owner / 4096) = true) := by decide +kernel
theorem witness_OwnershipChanges_complete : let g : OwnChange := ⟨2, 9, 1, 0x100, true, 0⟩
    let c : Chip := { c0 with ownChg := some g }
    c.ownChg = some g ∧ c.oldAccess g = false ∧ c.changeZeroers g = true ∧ (∀ e ∈ g.entries, e < 1048576) ∧ c.on F.OWN_CTL_EVT_CHG_EN = false := by decide +kernel
theorem witness_OwnershipChanges_cores : let c := c0.setApp 15 { AppCore.zero with owner := 0x1100, armed := true }
    (c.app 15).owner.world ≠ (0x100 : Owner).world ∧ (c.app 15).owner.world = (0x1200 : Owner).world ∧ c.appRuns 15 = true ∧ (c.app 15).armed = true := by
  decide +kernel
theorem witness_OwnershipChanges_access : let i : Initiator := ⟨0, 15, .T, .core⟩
    c0.appRuns 15 = true ∧ inDram (0x1000000000 : BitVec 48).toNat = true ∧
    ((granuleStarts 0x1000000000 8).find? fun y => c0.appCause i true .load y != 0) = none ∧
    (c0.outAccess i false false 0x1000000000 8 (toLE 8 0) []).1.isOk = true ∧
    ((granuleStarts 0x2000000000 8).find? fun y => c0.appCause i true .store y != 0) = some 0x2000000000 := by decide +kernel

/-! Witnesses of `SecurityCores`. -/

/-- Headstock's firmware runs; the mailbox holds the head of a record of a type; a challenge was issued at 0. -/
def secChip (typ debug : Nat) : Chip :=
  (({ c0 with bind := { Rpmb.zero with owner := List.replicate 48 1 } } : Chip).setSec .H { SecSt.zero with booted := true, chal := some 0 }
    |>.setReg (Reg.SEC_DBG_MBOX 0 0) 0xD1A50001 |>.setReg (Reg.SEC_DBG_MBOX 0 1) typ |>.put (F.SEC_STATUS_DEBUG 0) debug)
theorem witness_SecurityCores_debug : (secChip 6 0).down.get .H = false ∧ fw.isFirmware = true ∧ (secChip 6 0).q (F.SEC_STATUS_DEBUG 0) = 0 ∧ (secChip 6 0).bound = true ∧
    ((secChip 6 0).secOf .H).chal = some 0 ∧ elapsed ((secChip 6 0).stamp .H 0) 0 < (((secChip 6 0).q (F.SEC_CTL_CHAL_S 0) * 64000000000 : Nat) : Int) ∧
    (readSig 6 ((secChip 6 0).mboxRecord .H)).isSome = true ∧ (readSig 7 ((secChip 7 2).mboxRecord .H)).isSome = true ∧ (secChip 7 2).q (F.SEC_STATUS_DEBUG 0) = 2 ∧
    (secChip 6 1).q (F.SEC_STATUS_DEBUG 0) = 1 := by decide +kernel
theorem witness_SecurityCores_expiry : let c := (secChip 6 0).put (F.SEC_CTL_CHAL_S 0) 0
    (c.secOf .H).chal = some 0 ∧ ¬ elapsed (c.stamp .H 0) 0 < ((c.q (F.SEC_CTL_CHAL_S 0) * 64000000000 : Nat) : Int) := by decide +kernel
theorem witness_SecurityCores_start : c0.down.get .T = false ∧ (c0.secOf .T).booted = false ∧ c0.q (F.SEC_STATUS_BOOT_ERR 1) = 0 ∧
    ((secChip 6 0).secOf .H).booted = true ∧ ({ fw with via := .secCore } : Initiator).via = .secCore := by decide +kernel
theorem witness_SecurityCores_erase : let c := (c0.setOwn 3 (mkOwn 0x1100 5 0)).put (F.SEC_CLAIM_CLAIM 0 0) 1
    3 ∈ c.heartwood .H ∧ arrayHalf 0 = .H ∧ c.claimed .H 0 = true := by decide +kernel
theorem witness_SecurityCores_attest : let m := mk 0x90 [BitVec.ofNat 64 0x1000000000]
    let c := withCmd (c0.put (F.SEC_ID_ID_OK 0) 1) m
    c.takeable id0 (· == 0x90) = some m ∧ c.on (F.SEC_ID_ID_OK 0) = true ∧ c.reachCause .H 0 true 0x1000000000 (272 + 64 * min 32 (c.measureList 0).length) .answered = none := by decide +kernel
theorem witness_SecurityCores_halt : let c := ((c0.setApp 3 { AppCore.zero with owner := 0x100 }).put (F.SEC_STATUS_DEBUG 0) 1).put (F.SEC_DBG_SCOPE_SCOPE 0) 2
    c.targetOwner (.app 3) = some 0x100 ∧ c.q (F.SEC_STATUS_DEBUG 0) = 1 ∧ (0x100 : Owner).world = false ∧ (0x100 : Owner).part = 1 ∧
    bit (max (c.q (F.SEC_DBG_SCOPE_SCOPE 0)) (c.q (F.SEC_DBG_SCOPE_SCOPE 1))) 1 = true := by decide +kernel

/-! Witnesses of `StartAndResets`. -/

def img (v : Nat) : Img := ⟨List.replicate 8 0 ++ toLE 4 v ++ List.replicate 212 0, [], 0⟩
def startChip (x : StartSt) : Chip := (c0.setSec .H { SecSt.zero with booted := true }).setStart .H x
theorem witness_StartAndResets_choose : chooseCopy ⟨[], none⟩ ⟨(img 2).sig, none⟩ none none = some (⟨(img 2).sig, none⟩, 1) := by decide +kernel
theorem witness_StartAndResets_accept : let c := startChip StartSt.zero
    (c.secOf .H).booted = true ∧ c.down.get .H = false ∧ (c.startOf .H).decided = false ∧ (c.startOf .H).own = none ∧ c.inService .T = false ∧
    (c.setStart .T { StartSt.zero with applied := true }).inService .T = true := by decide +kernel
theorem witness_StartAndResets_agree : let c (g k : Option Img) := (startChip { StartSt.zero with decided := true, own := g }).setStart .T { StartSt.zero with own := k }
    ((c (some (img 3)) (some (img 2))).startOf .H).own = some (img 3) ∧ ((c (some (img 3)) (some (img 2))).startOf .T).own = some (img 2) ∧
    sigVersion (img 2).sig < sigVersion (img 3).sig ∧ ((c none none).startOf .H).decided = true ∧ (c none none).q (F.SYS_START_PHASE 0) ≠ 15 ∧
    (c none none).inService .T = false ∧ ((c none none).startOf .H).chosen = none := by decide +kernel
theorem witness_StartAndResets_apply : ((startChip { StartSt.zero with chosen := some (img 3) }).startOf .H).chosen = some (img 3) ∧
    (let c : Chip := { startChip { StartSt.zero with zeroing := true } with startOwn := [(5, 7)] };
      (c.startOf (granuleHalf 5)).zeroing = true ∧ Tbl.find? (c.startOf (granuleHalf 5)).zeroed 5 = none ∧ c.zeroWaits 5 = false ∧ c.startInst = [] ∧ c.startRings = [] ∧ Tbl.find? c.startOwn 5 = some 7) := by
  decide +kernel
theorem witness_StartAndResets_recovery : let c := (startChip { StartSt.zero with recovery := true }).setSec .H SecSt.zero
    (c.startOf .H).recovery = true ∧ (c.secOf .H).booted = false ∧ c.down.get .H = false := by decide +kernel
theorem witness_StartAndResets_reset : c0.portCause fw true Reg.SYS_RESET = 0 ∧ c0.down ≠ ⟨true, true⟩ ∧ c0.down.get .T = false ∧
    (let c : Chip := { c0 with down := ⟨false, true⟩ }; c.down.get .T = true ∧ (c.power.get .T).critical = false) ∧
    ({ c0 with erasing := true } : Chip).erasing = true := by decide +kernel

/-! Witnesses of `LinksAndPorts`. -/

/-- Link 3 of Headstock in a state, with a far end of fabric number 5 that the route table names. -/
def linkChip (st : Nat) : Chip :=
  (((c0.put (F.PEER_CTL_LINK_EN 0) 0xFF).put (F.PEER_LINK_STATUS_STATE 0 3) st).put (F.PEER_LINK_STATUS_FAR_NO 0 3) 5).put (F.PEER_ROUTE_LINKS 0 5) 8
theorem witness_LinksAndPorts_replay : (linkChip 2).linkUp (8 * 0 + 3) = true ∧ (linkChip 2).down.get .H = false ∧ ((linkChip 2).linkSt 3).replays + 1 ≤ 8 ∧
    8 < (((linkChip 2).setLinkSt 3 { LinkSt.zero with replays := 8 }).linkSt 3).replays + 1 ∧ (linkChip 2).lanesFailed .H 3 = 0 ∧
    bit ((linkChip 2).q (F.PEER_LINK_STATUS_LANE_FAIL 0 3)) 4 = false := by decide +kernel
theorem witness_LinksAndPorts_training : bit ((linkChip 1).q (F.PEER_CTL_LINK_EN 0)) 3 = true ∧ (linkChip 1).linkUp 3 = false ∧ (linkChip 1).lanesFailed .H 3 ≤ 3 ∧
    (linkChip 1).numberClash 3 (5 : Fin 64) 77 = false ∧ ((linkChip 1).put (F.PEER_CTL_FABRIC_NO 0) 5).numberClash 3 (5 : Fin 64) 77 = true := by decide +kernel
theorem witness_LinksAndPorts_idle : let c := (linkChip 2).put (F.POWER_STATUS_STATE 0) 1
    c.q (F.PEER_LINK_STATUS_STATE 0 3) = 2 ∧ c.q (F.POWER_STATUS_STATE 0) = 1 := by decide +kernel
theorem witness_LinksAndPorts_forward : (5 : Nat) ≠ (linkChip 2).q (F.PEER_CTL_FABRIC_NO 0) ∧
    (linkChip 2).routeOf .H (0x4000000000 + (5 : Fin 64).val * 2 ^ 37 + (0 : BitVec 48).toNat % 2 ^ 37) = some 3 := by
  have h : (linkChip 2).entryLinks .H 5 = [3] := by decide +kernel
  refine ⟨by decide +kernel, ?_⟩
  simp [Chip.routeOf, fabricOf, h, Nat.mod_one]
theorem witness_LinksAndPorts_request : let c := (c0.put (F.PEER_MAP_VALID 0 5) 1).setOwn 3 (mkOwn 0 5 4)
    c.on (F.PEER_MAP_VALID 0 5) = true ∧ c0.on (F.PEER_MAP_VALID 0 5) = false ∧
    (c.outAccess ⟨BitVec.ofNat 13 (c.q (F.PEER_MAP_OWNER 0 5)), 0x300, .H, .peer⟩ true false 0x1000030000 8 [] []).1.isOk = true := by decide +kernel
theorem witness_LinksAndPorts_lost : let c := c0.setBase .H 0 ⟨1000 * 64000, 0⟩
    c.noLink 63 = true ∧ c.on (F.PEER_DEV_LOST 0 63) = false ∧ c.firstUp = .H ∧ (63 : Nat) ≠ c.q (F.PEER_CTL_FABRIC_NO 0) ∧ c.down.get c.firstUp = false ∧
    1000 ≤ ageUs c.now (Tbl.look 0 c.linkless 63) := by decide +kernel
def farChip (a : Nat) : Chip :=
  let c := ((c0.put (F.PEER_CTL_TIMEOUT_US 0) 5).put (F.PCIE_CTL_CPL_TO_US 0) 5).setBase .H 0 ⟨1000 * 64000, 0⟩
  { c with txns := [(7, ⟨id0, 0, 0, .H, false, a, 64, [], 0, some 0, none, none, 0⟩)], txnNext := 8 }
theorem witness_LinksAndPorts_timeouts : (farChip 0x4000000000).farWait (.txn 7) = some (.H, 0, 0x4000000000, true, 0) ∧ isPeer 0x4000000000 = true ∧
    (farChip 0x4000000000).q (F.PEER_CTL_TIMEOUT_US 0) ≤ ageUs ((farChip 0x4000000000).stamp .H 0) 0 ∧ 7 < (farChip 0).txnNext ∧
    (farChip 0x180000000).farWait (.txn 7) = some (.H, 0, 0x180000000, true, 0) ∧ isPcie 0x180000000 = true ∧
    (farChip 0x180000000).q (F.PCIE_CTL_CPL_TO_US (pcieHalf 0x180000000).idx) ≤ ageUs ((farChip 0x180000000).stamp .H 0) 0 := by decide +kernel
def portChip (mode : Nat) : Chip := (c0.put (F.PCIE_STATUS_LINK_UP 0) 1).put (F.PCIE_CTL_MODE 0) mode
theorem witness_LinksAndPorts_port : (portChip 0).down.get .H = false ∧ ((portChip 0).startOf .H).recovery = false ∧ (portChip 0).on (F.PCIE_STATUS_LINK_UP 0) = true ∧
    ((portChip 0).on (F.PCIE_CTL_MODE 0) || (portChip 0).q (F.SYS_START_PHASE 0) == 15) = false ∧ (portChip 1).on (F.PCIE_CTL_MODE 0) = true ∧
    inDram (0x1000000000 : BitVec 64).toNat = true := by decide +kernel
theorem witness_LinksAndPorts_function : let c := (((portChip 1).put (F.VI_INST_STATE_STATE 9) 1).setReg (Reg.VI_INST_RINGS 9) (4096 * 2 ^ 16 + 1)).setReg (Reg.VI_INST_PCI 9) (3 * 2 ^ 20)
    c.vfRecord .H 3 = some 9 ∧ c.viState 9 ≠ 0 ∧ vfAddr (c.viGrant 9) (c.on F.VI_CTL_MODE) 0 0x40 = some 0x11000040 := by decide +kernel

/-! Witnesses of `PowerAndWear`. -/

theorem witness_PowerAndWear_states : c0.portCause fw true (Reg.POWER_STATE_REQ 1) = 0 ∧ c0.down.get .T = false ∧ c0.clocksClaimed .T = none ∧ c0.inCharge .T = false ∧
    (c0.put (F.AUTH_STATUS_STATE 1) 2).inCharge .T = true := by decide +kernel
theorem witness_PowerAndWear_units : c0.portCause fw true (Reg.POWER_BLK_REQ 1) = 0 ∧ c0.on (F.POWER_BLK_RESULT_BUSY 1) = false ∧ claimHalf (125 : Fin 128) = .T ∧ claimHalf (7 : Fin 128) = .T ∧
    c0.claimed .T 7 = false ∧ c0.unitBusy 7 false = false ∧ c0.gateEngine 7 = none ∧ c0.unitBusy 125 true = false ∧
    c0.claimed .T 125 = false ∧ c0.gateEngine 125 = none := by decide +kernel
theorem witness_PowerAndWear_limits : (∀ k < 6, predictFits 5000 0 0 k (min 1150 (c0.q (F.POWER_CAP_DW 0))) = false) ∧ (c0.powerOf .H).arr < 5 ∧ c0.q (F.POWER_STATUS_ARR_STEP 0) = 0 ∧
    (c0.powerOf .H).lim = 0 ∧ 0 < ((c0.setPower .H { PowerSt.zero with lim := 3 }).powerOf .H).lim := by decide +kernel
theorem witness_PowerAndWear_temperature : c0.down.get .H = false ∧ 18 ≤ (List.replicate 18 (400 : BitVec 16)).length ∧
    (∀ v ∈ (List.replicate 18 (400 : BitVec 16)).take 14, v.toInt < 2000) ∧ (∃ v ∈ (List.replicate 18 (2000 : BitVec 16)).take 14, 2000 ≤ v.toInt) := by
  refine ⟨rfl, by simp, fun v h => ?_, 2000, by simp, by decide⟩
  simp at h
  subst h
  decide
def fullFlash : FlashLedger := { FlashLedger.blank with recs := List.replicate 3584 ⟨5, 0, 0, 0, 0, [], []⟩ }
theorem witness_PowerAndWear_bank : let c : Chip := { c0 with flash := c0.flash.set .H fullFlash }
    c.down.get .H = false ∧ c.flash.get .H = fullFlash ∧ 3584 ≤ fullFlash.recs.length := ⟨rfl, rfl, (List.length_replicate ..).symm.le⟩
theorem witness_PowerAndWear_ledger : c0.ledgerRead.get .H = false ∧ c0.ledgerRead.get .T = false ∧
    hourUnits ≤ ({ c0 with opTime := hourUnits } : Chip).opTime ∧ c0.upHalves ≠ [] := by decide +kernel
theorem witness_PowerAndWear_urgent : let c : Chip := { c0.setBase .H 0 ⟨1000001 * 64000, 0⟩ with down := ⟨false, true⟩, downSince := ⟨none, some 0⟩ }
    c.downSince.get .T = some 0 ∧ c.down.get .T = true ∧ c.down.get Half.T.other = false ∧ ((1000000 * usUnits : Nat) : Int) < elapsed (c.stamp Half.T.other 0) 0 := by decide +kernel

end Sys2Proof.Tests
end

/-! PROOF. Integer conversion and INT32 accumulation (R58, R59, R61, R63). Three layers: two's complement readings and
the clamp to a signed range, which `convert` and `accumulate` share; rounding to an integer, read off two
equations for its error, one up and one down; and exact integer sums, carried as values `±m × 2^0`. -/

namespace Sys2Proof

/-! ### Two's complement readings -/

theorem unsgn_lt (w : Nat) (i : Int) : unsgn w i < 2 ^ w := by
  have hpos : 0 < 2 ^ w := Nat.two_pow_pos w
  have hlt := Int.emod_lt_of_pos i (Int.natCast_pos.2 hpos)
  unfold unsgn
  omega

/-- A signed quantity within the range of `w` bits is read back from its pattern. -/
theorem sgn_unsgn {w : Nat} (hw : 0 < w) {i : Int} (hlo : -(2 ^ (w - 1)) ≤ i) (hhi : i ≤ 2 ^ (w - 1) - 1) :
    sgn w (unsgn w i) = i := by
  have hdouble := Nat.two_pow_pred_mul_two hw
  have hcast : ((2 ^ (w - 1) : Nat) : Int) = 2 ^ (w - 1) := by norm_cast
  have hmod : unsgn w i % 2 ^ w = unsgn w i := Nat.mod_eq_of_lt (unsgn_lt w i)
  have hval : (unsgn w i : Int) = i % (2 ^ w : Nat) :=
    Int.toNat_of_nonneg (Int.emod_nonneg _ (by positivity))
  unfold sgn
  rw [hmod]
  rcases lt_or_ge i 0 with hneg | hnonneg
  · have : i % (2 ^ w : Nat) = i + (2 ^ w : Nat) := by
      rw [← Int.add_emod_right, Int.emod_eq_of_lt] <;> omega
    split <;> omega
  · have : i % (2 ^ w : Nat) = i := Int.emod_eq_of_lt hnonneg (by omega)
    split <;> omega

namespace Machine

/-! ### Saturation to a signed range -/

/-- An integer brought into the range of `w` signed bits: its pattern, and whether it saturated (R58). -/
def clampInt (w : Nat) (i : Int) : Nat × Bool :=
  if 2 ^ (w - 1) - 1 < i then (unsgn w (2 ^ (w - 1) - 1), true)
  else if i < -(2 ^ (w - 1)) then (unsgn w (-(2 ^ (w - 1))), true)
  else (unsgn w i, false)

theorem clampInt_lt (w : Nat) (i : Int) : (clampInt w i).1 < 2 ^ w := by
  unfold clampInt
  split_ifs <;> exact unsgn_lt ..

theorem sgn_clampInt {w : Nat} (hw : 0 < w) (i : Int) :
    sgn w (clampInt w i).1 = max (-(2 ^ (w - 1))) (min (2 ^ (w - 1) - 1) i) := by
  have hpos : (0 : Int) < 2 ^ (w - 1) := by positivity
  unfold clampInt
  split_ifs <;> rw [sgn_unsgn hw (by omega) (by omega)] <;> omega

theorem clampInt_saturated_iff (w : Nat) (i : Int) :
    (clampInt w i).2 = true ↔ i < -(2 ^ (w - 1)) ∨ 2 ^ (w - 1) - 1 < i := by
  unfold clampInt
  split_ifs <;> simp [*]

/-! ### The conversion to the integer formats -/

theorem codeFmt_of_int : ∀ code ∈ [0x0, 0x1, 0x7], codeFmt code = none := by decide

theorem codeWidth_of_int_pos : ∀ code ∈ [0x0, 0x1, 0x7], 0 < codeWidth code := by decide

section
variable {code : Nat} (sat : Bool) (mode : Rm) (hcode : codeFmt code = none)
include hcode

theorem convert_nan_of_int : convert code sat mode .nan = (0, true) := by
  simp [convert, hcode]

theorem convert_inf_of_int (s : Bool) : convert code sat mode (.inf s) =
    (unsgn (codeWidth code) (if s then -(2 ^ (codeWidth code - 1)) else 2 ^ (codeWidth code - 1) - 1), true) := by
  simp [convert, hcode]

/-- The conversion of a finite value clamps the integer it rounds to (R59). -/
theorem convert_fin_of_int {s : Bool} {m : Nat} {e i : Int} (hi : FV.toInt mode (.fin s m e) = some i) :
    convert code sat mode (.fin s m e) = clampInt (codeWidth code) i := by
  obtain rfl := Option.some.inj hi
  simp only [convert, hcode]
  rfl

end

/-! ### Rounding to an integer -/

theorem roundsUp_of_exact (mode : Rm) (s : Bool) (k sh : Nat) : roundsUp mode s k 0 sh = false := by
  have hpos : 2 ^ sh ≠ 0 := (Nat.two_pow_pos sh).ne'
  cases mode <;> simp [roundsUp, hpos.symm]

section
variable (s : Bool) (y sh : Nat)

/-- A magnitude `y` over `2^sh` rounded to a whole number. -/
def roundQuot (mode : Rm) : Nat := y / 2 ^ sh + b2n (roundsUp mode s (y / 2 ^ sh) (y % 2 ^ sh) sh)

/-- The error of a rounding up is what the remainder lacked of a whole unit. -/
theorem roundQuot_error_up {mode : Rm} (hup : roundsUp mode s (y / 2 ^ sh) (y % 2 ^ sh) sh = true) :
    ((roundQuot s y sh mode * 2 ^ sh : Nat) : Int) - y = (2 ^ sh : Nat) - (y % 2 ^ sh : Nat) := by
  have hdiv := Nat.div_add_mod' y (2 ^ sh)
  have hone : roundQuot s y sh mode * 2 ^ sh = y / 2 ^ sh * 2 ^ sh + 2 ^ sh := by simp [roundQuot, hup, b2n, Nat.add_mul]
  omega

/-- The error of a rounding down is the remainder dropped. -/
theorem roundQuot_error_down {mode : Rm} (hup : roundsUp mode s (y / 2 ^ sh) (y % 2 ^ sh) sh = false) :
    ((roundQuot s y sh mode * 2 ^ sh : Nat) : Int) - y = -(y % 2 ^ sh : Nat) := by
  have hdiv := Nat.div_add_mod' y (2 ^ sh)
  have hzero : roundQuot s y sh mode * 2 ^ sh = y / 2 ^ sh * 2 ^ sh := by simp [roundQuot, hup, b2n]
  omega

theorem roundQuot_rne :
    |2 * (((roundQuot s y sh .rne * 2 ^ sh : Nat) : Int) - y)| ≤ (2 ^ sh : Nat) ∧
    (|2 * (((roundQuot s y sh .rne * 2 ^ sh : Nat) : Int) - y)| = (2 ^ sh : Nat) → roundQuot s y sh .rne % 2 = 0) := by
  have hrem : y % 2 ^ sh < 2 ^ sh := Nat.mod_lt _ (Nat.two_pow_pos sh)
  rw [abs_le, abs_eq (Int.natCast_nonneg _)]
  cases hup : roundsUp .rne s (y / 2 ^ sh) (y % 2 ^ sh) sh with
  | true =>
    rw [roundQuot_error_up s y sh hup, roundQuot, hup, b2n, if_pos rfl]
    simp only [roundsUp, decide_eq_true_eq] at hup
    omega
  | false =>
    rw [roundQuot_error_down s y sh hup, roundQuot, hup, b2n, if_neg Bool.false_ne_true]
    simp only [roundsUp, decide_eq_false_iff_not] at hup
    omega

theorem roundQuot_rna :
    |2 * (((roundQuot s y sh .rna * 2 ^ sh : Nat) : Int) - y)| ≤ (2 ^ sh : Nat) ∧
    (|2 * (((roundQuot s y sh .rna * 2 ^ sh : Nat) : Int) - y)| = (2 ^ sh : Nat) → y ≤ roundQuot s y sh .rna * 2 ^ sh) := by
  have hrem : y % 2 ^ sh < 2 ^ sh := Nat.mod_lt _ (Nat.two_pow_pos sh)
  rw [abs_le, abs_eq (Int.natCast_nonneg _)]
  cases hup : roundsUp .rna s (y / 2 ^ sh) (y % 2 ^ sh) sh with
  | true =>
    have herr := roundQuot_error_up s y sh hup
    simp only [roundsUp, decide_eq_true_eq] at hup
    omega
  | false =>
    have herr := roundQuot_error_down s y sh hup
    simp only [roundsUp, decide_eq_false_iff_not] at hup
    omega

theorem roundQuot_rtz : roundQuot s y sh .rtz * 2 ^ sh ≤ y ∧ y < roundQuot s y sh .rtz * 2 ^ sh + 2 ^ sh := by
  have hrem : y % 2 ^ sh < 2 ^ sh := Nat.mod_lt _ (Nat.two_pow_pos sh)
  have herr := roundQuot_error_down s y sh (mode := .rtz) rfl
  omega

end

/-- The magnitude of `m × 2^e` rounded to an integer is that of a numerator over `2^(-e)`, which is 1 where `e` is not
negative. -/
theorem roundAt_zero (mode : Rm) (s : Bool) (m : Nat) (e : Int) :
    (roundAt mode s m e 0).1 = roundQuot s (m * 2 ^ e.toNat) (-e).toNat mode := by
  rcases lt_or_ge e 0 with hneg | hnonneg
  · have hexp : e.toNat = 0 := Int.toNat_of_nonpos hneg.le
    rw [roundAt, if_neg (by omega), hexp, Int.zero_sub, pow_zero, mul_one, roundQuot]
    cases hup : roundsUp mode s (m / 2 ^ (-e).toNat) (m % 2 ^ (-e).toNat) (-e).toNat <;> simp [hup, b2n]
  · have hsh : (-e).toNat = 0 := by omega
    simp [roundAt, roundQuot, hnonneg, hsh, Nat.mod_one, roundsUp_of_exact, b2n]

/-- The factor of a sign bit. -/
def signOf (s : Bool) : Int := if s then -1 else 1

theorem toInt_fin (mode : Rm) (s : Bool) (m : Nat) (e : Int) :
    FV.toInt mode (.fin s m e) = some (signOf s * (roundQuot s (m * 2 ^ e.toNat) (-e).toNat mode : Int)) := by
  rw [FV.toInt, roundAt_zero]
  rfl

theorem signOf_mul_mul_two_pow (s : Bool) (n t : Nat) :
    signOf s * (n : Int) * 2 ^ t = signOf s * ((n * 2 ^ t : Nat) : Int) := by
  push_cast
  ring

theorem abs_signOf_mul (s : Bool) (i : Int) : |signOf s * i| = |i| := by
  cases s <;> simp [signOf]

theorem abs_two_mul_signOf_sub (s : Bool) (i j : Int) : |2 * (signOf s * i - signOf s * j)| = |2 * (i - j)| := by
  rw [← mul_sub, mul_left_comm, abs_signOf_mul]

theorem signOf_mul_mul_signOf_mul (s : Bool) (i j : Int) : signOf s * i * (signOf s * j) = i * j := by
  cases s <;> simp [signOf]

theorem signOf_mul_emod_two (s : Bool) {n : Nat} (h : n % 2 = 0) : signOf s * (n : Int) % 2 = 0 :=
  Int.emod_eq_zero_of_dvd (Dvd.dvd.mul_left (by omega) _)

/-! ### Exact integer sums -/

/-- A finite value with exponent 0 that stands for an integer. -/
def FV.IsInt (v : FV) (i : Int) : Prop := ∃ s m, v = .fin s m 0 ∧ i = finAt s m 0 0

theorem finAt_decide_lt_natAbs (i : Int) : finAt (decide (i < 0)) i.natAbs 0 0 = i := by
  by_cases h : i < 0
  · simp [finAt, h, abs_of_neg h]
  · simp [finAt, h, abs_of_nonneg (not_lt.1 h)]

theorem FV.isInt_ofInt (i : Int) : (FV.ofInt i).IsInt i := ⟨_, _, rfl, (finAt_decide_lt_natAbs i).symm⟩

theorem FV.IsInt.mul {v u : FV} {i j : Int} (hv : v.IsInt i) (hu : u.IsInt j) : (v.mul u).IsInt (i * j) := by
  obtain ⟨a, m, rfl, rfl⟩ := hv
  obtain ⟨b, n, rfl, rfl⟩ := hu
  refine ⟨a != b, m * n, rfl, ?_⟩
  cases a <;> cases b <;> simp [finAt]

theorem FV.IsInt.add {v u : FV} {i j : Int} (hv : v.IsInt i) (hu : u.IsInt j) : (v.add u).IsInt (i + j) := by
  obtain ⟨a, m, rfl, rfl⟩ := hv
  obtain ⟨b, n, rfl, rfl⟩ := hu
  simp only [FV.add, FV.addD, min_self]
  split
  · next hzero =>
    rw [hzero]
    split
    · exact ⟨_, _, rfl, by simp [finAt]⟩
    · exact ⟨_, _, rfl, by simp [finAt]⟩
  · exact ⟨_, _, rfl, (finAt_decide_lt_natAbs _).symm⟩

/-- Adding a list of integer values, in order, to one adds the integers. -/
theorem FV.IsInt.foldl_add {α : Type} (f : α → FV) (g : α → Int) (hfg : ∀ x, (f x).IsInt (g x)) (l : List α) :
    ∀ {v : FV} {i : Int}, v.IsInt i → ((l.map f).foldl FV.add v).IsInt (i + (l.map g).sum) := by
  induction l with
  | nil => intro v i hv; simpa using hv
  | cons x l ih =>
    intro v i hv
    simpa [add_assoc] using ih (hv.add (hfg x))

theorem FV.IsInt.sum {α : Type} (f : α → FV) (g : α → Int) (hfg : ∀ x, (f x).IsInt (g x)) (l : List α) :
    (FV.sum (l.map f)).IsInt (l.map g).sum := by
  cases l with
  | nil => exact ⟨false, 0, rfl, rfl⟩
  | cons x l => simpa [FV.sum] using FV.IsInt.foldl_add f g hfg l (hfg x)

theorem FV.IsInt.toInt {v : FV} {i : Int} (hv : v.IsInt i) (mode : Rm) : v.toInt mode = some i := by
  obtain ⟨s, m, rfl, rfl⟩ := hv
  simp [FV.toInt, roundAt, finAt]

/-- An INT32 accumulator takes the clamped exact sum (R63). -/
theorem accumulate_int {sum : FV} {i : Int} (hsum : sum.IsInt i) (c0 : Nat) (s : FV) :
    accumulate true c0 s sum = clampInt 32 (sgn 32 c0 + i) := by
  have hhi : unsgn 32 (2 ^ (32 - 1) - 1) = 2 ^ 31 - 1 := by decide
  have hlo : unsgn 32 (-(2 ^ (32 - 1))) = 2 ^ 31 := by decide
  simp only [accumulate, clampInt, hsum.toInt, hhi, hlo, Option.getD_some, if_true]

/-! ### The statement -/

/-- Settles O6: a conversion clamps the rounded integer, the error of a rounding is the dropped remainder or its
complement, and an accumulation clamps the exact sum. -/
theorem integerNumbers : Obligations.IntegerNumbers := by
  unfold Obligations.IntegerNumbers
  refine ⟨fun code hmem sat mode => ?_, fun mode s m e => ?_, fun l c0 => ?_⟩
  · have hcode := codeFmt_of_int code hmem
    have hw := codeWidth_of_int_pos code hmem
    have hpos : (0 : Int) < 2 ^ (codeWidth code - 1) := by positivity
    refine ⟨convert_nan_of_int sat mode hcode, fun s => ?_, fun s m e i hi => ?_⟩
    · rw [convert_inf_of_int sat mode hcode]
      exact ⟨sgn_unsgn hw (by split <;> omega) (by split <;> omega), rfl⟩
    · rw [convert_fin_of_int sat mode hcode hi]
      exact ⟨clampInt_lt .., sgn_clampInt hw i, clampInt_saturated_iff ..⟩
  · have hsign : (if s then -1 else 1 : Int) = signOf s := rfl
    refine ⟨_, toInt_fin mode s m e, ?_⟩
    simp only [hsign, signOf_mul_mul_two_pow, abs_two_mul_signOf_sub, abs_signOf_mul, Nat.abs_cast]
    refine ⟨?_, ?_, ?_⟩
    · rintro rfl
      obtain ⟨herr, htie⟩ := roundQuot_rne s (m * 2 ^ e.toNat) (-e).toNat
      exact ⟨mod_cast herr, fun h => signOf_mul_emod_two s (htie (mod_cast h))⟩
    · rintro rfl
      obtain ⟨herr, htie⟩ := roundQuot_rna s (m * 2 ^ e.toNat) (-e).toNat
      exact ⟨mod_cast herr, fun h => mod_cast htie (mod_cast h)⟩
    · rintro rfl
      obtain ⟨hle, hlt⟩ := roundQuot_rtz s (m * 2 ^ e.toNat) (-e).toNat
      refine ⟨mod_cast hle, mod_cast hlt, ?_⟩
      rw [signOf_mul_mul_signOf_mul]
      positivity
  · have hsum := FV.IsInt.sum _ (fun p : Int × Int => p.1 * p.2)
      (fun p => (FV.isInt_ofInt p.1).mul (FV.isInt_ofInt p.2)) l
    simp only [accumulate_int hsum]
    exact ⟨clampInt_lt .., sgn_clampInt (by decide) _, clampInt_saturated_iff ..⟩

end Machine

end Sys2Proof

/-! PROOF. The polynomials of the check-value units (R424): the table as data, the code that selects a row of it,
the check value of each row, and the codes outside it, which compute nothing. -/

namespace Sys2Proof

namespace Machine

/-! ### The table of polynomials -/

/-- The rows of R424 in the order of `POLY`, each with its check value. -/
def crcTable : List (CrcPoly × Nat) :=
  [(⟨8, 0x1D, 0xFF, false, 0xFF⟩, 0x4B),
   (⟨16, 0x1021, 0xFFFF, false, 0⟩, 0x29B1),
   (⟨32, 0x04C11DB7, 0xFFFFFFFF, true, 0xFFFFFFFF⟩, 0xCBF43926),
   (⟨32, 0x1EDC6F41, 0xFFFFFFFF, true, 0xFFFFFFFF⟩, 0xE3069283),
   (⟨32, 0xF4ACFB13, 0xFFFFFFFF, true, 0xFFFFFFFF⟩, 0x1697D06A),
   (⟨64, 0x42F0E1EBA9EA3693, 0, false, 0⟩, 0x6C40DF5F0B497347)]

/-- A polynomial's result over the nine ASCII bytes 123456789, fed from its initial value. -/
def CrcPoly.checkValue (p : CrcPoly) : Nat :=
  p.finish (p.bytes p.init [0x31, 0x32, 0x33, 0x34, 0x35, 0x36, 0x37, 0x38, 0x39])

theorem crcPoly_eq_none_of_le {code : Nat} (h : 6 ≤ code) : crcPoly code = none := by
  obtain ⟨k, rfl⟩ := Nat.exists_eq_add_of_le' h
  rfl

/-- `POLY` selects by its value the row of the table, and past the table's end nothing. -/
theorem crcPoly_eq_getElem?_crcTable (code : Nat) : crcPoly code = crcTable[code]?.map (·.1) := by
  rcases Nat.lt_or_ge code 6 with hrow | hpast
  · interval_cases code <;> rfl
  · rw [crcPoly_eq_none_of_le hpast, List.getElem?_eq_none hpast, Option.map_none]

theorem checkValue_of_mem_crcTable : ∀ row ∈ crcTable, row.1.checkValue = row.2 := by
  decide +kernel

/-! ### A unit without a polynomial -/

theorem Chip.cvuFeed_of_cvuPoly_eq_none {c : Chip} {n : Nat} (h : c.cvuPoly n = none) (bs : List Byte) :
    c.cvuFeed n bs = c := by
  simp only [Chip.cvuFeed, h]

/-! ### The statement -/

/-- Settles O54: the code of a unit indexes the table of R424, every row of which gives its check value; the
reserved codes lie past the table's end, and a unit without a polynomial takes no bytes. -/
theorem checkValuePolynomials : Obligations.CheckValuePolynomials := by
  unfold Obligations.CheckValuePolynomials
  refine ⟨fun code p x hrow => ?_, fun c n => crcPoly_eq_getElem?_crcTable _, fun c n bs hreserved => ?_⟩
  · have hrow : crcTable[code]? = some (p, x) := hrow
    refine ⟨?_, checkValue_of_mem_crcTable _ (List.mem_of_getElem? hrow)⟩
    rw [crcPoly_eq_getElem?_crcTable, hrow, Option.map_some]
  · have hnone : c.cvuPoly n = none := crcPoly_eq_none_of_le (by omega)
    exact Chip.cvuFeed_of_cvuPoly_eq_none hnone bs

end Machine

end Sys2Proof

/-! PROOF. No command stops the block or touches the queue: every meaning answers a next state with the queue as it was.
Each meaning is taken once, by its guards; the step and any number of steps follow. -/

namespace Sys2Proof

namespace Machine

/-- An outcome is a next state with some chip and the queue of this state. -/
def State.Goes (s : State) (o : Host.Outcome State Fault Refusal) : Prop := ∃ c, o = s.go c

theorem State.Goes.ite {s : State} {p : Prop} [Decidable p] {a b : Host.Outcome State Fault Refusal} (ha : s.Goes a) (hb : s.Goes b) :
    s.Goes (if p then a else b) := by
  split
  · exact ha
  · exact hb

/-! ### The meanings that look something up -/

/-! #### Result slots -/

theorem execSlotPublish_goes (id : CmdId) (far : Far) (s : State) (o : Seen) : s.Goes (execSlotPublish id far s o) := by
  unfold execSlotPublish
  split <;> exact ⟨_, rfl⟩

theorem execSlotBump_goes (id : CmdId) (s : State) : s.Goes (execSlotBump id s) := by
  unfold execSlotBump
  (repeat' split) <;> exact ⟨_, rfl⟩

theorem execSlotRead_goes (id : CmdId) (s : State) : s.Goes (execSlotRead id s) := by
  unfold execSlotRead
  split <;> exact ⟨_, rfl⟩

theorem execSlotReadCopyDone_goes (id : CmdId) (far : Far) (s : State) (o : Seen) : s.Goes (execSlotReadCopyDone id far s o) := by
  unfold execSlotReadCopyDone
  (repeat' split) <;> exact ⟨_, rfl⟩

/-! #### Arrays -/

theorem execArrayCommand_goes (a : Fin 8) (id : CmdId) (s : State) : s.Goes (execArrayCommand a id s) := by
  unfold execArrayCommand
  (repeat' split) <;> exact ⟨_, rfl⟩

theorem execWindowCommand_goes (a : Fin 8) (id : CmdId) (s : State) : s.Goes (execWindowCommand a id s) := by
  unfold execWindowCommand
  (repeat' split) <;> exact ⟨_, rfl⟩

theorem execArrayCompletion_goes (a : Fin 8) (id : CmdId) (s : State) : s.Goes (execArrayCompletion a id s) := by
  unfold execArrayCompletion
  split <;> exact ⟨_, rfl⟩

theorem execArrayRetire_goes (i : Initiator) (a : Fin 8) (s : State) : s.Goes (execArrayRetire i a s) := by
  unfold execArrayRetire
  dsimp only
  (repeat' split) <;> exact ⟨_, rfl⟩

/-! #### Dowels -/

theorem execDowelWait_goes (id : CmdId) (s : State) : s.Goes (execDowelWait id s) := by
  unfold execDowelWait
  dsimp only
  (repeat' split) <;> exact ⟨_, rfl⟩

theorem execDowelSignal_goes (id : CmdId) (s : State) : s.Goes (execDowelSignal id s) := by
  unfold execDowelSignal
  dsimp only
  (repeat' split) <;> exact ⟨_, rfl⟩

theorem execWaitSatisfied_goes (d : Fin 16384) (who : Waiter) (s : State) : s.Goes (execWaitSatisfied d who s) := by
  unfold execWaitSatisfied
  (repeat' split) <;> exact ⟨_, rfl⟩

theorem execDowelPoll_goes (d : Fin 16384) (who : Waiter) (s : State) : s.Goes (execDowelPoll d who s) := by
  unfold execDowelPoll
  (repeat' split) <;> exact ⟨_, rfl⟩

/-! #### Machine I/O -/

theorem execReadbackMismatch_goes (h : Half) (n : Fin 16) (s : State) : s.Goes (execReadbackMismatch h n s) := by
  unfold execReadbackMismatch
  dsimp only
  split <;> exact ⟨_, rfl⟩

theorem execAdcConversion_goes (h : Half) (code : BitVec 12) (s : State) : s.Goes (execAdcConversion h code s) := by
  unfold execAdcConversion
  dsimp only
  split <;> exact ⟨_, rfl⟩

theorem execEdgeNotify_goes (h : Half) (s : State) : s.Goes (execEdgeNotify h s) := by
  unfold execEdgeNotify
  dsimp only
  (repeat' split) <;> exact ⟨_, rfl⟩

/-! #### Rings -/

theorem execDoorbell_goes (i : Initiator) (r : Fin 65536) (v : Word) (s : State) : s.Goes (execDoorbell i r v s) := by
  unfold execDoorbell
  dsimp only
  (repeat' split) <;> exact ⟨_, rfl⟩

theorem execRingClose_goes (r : Fin 65536) (s : State) : s.Goes (execRingClose r s) := by
  unfold execRingClose
  (repeat' split) <;> exact ⟨_, rfl⟩

theorem execNoOp_goes (id : CmdId) (s : State) : s.Goes (execNoOp id s) := by
  unfold execNoOp
  split <;> exact ⟨_, rfl⟩

/-! #### Time bases -/

theorem execTimeWriteApply_goes (s : State) : s.Goes (execTimeWriteApply s) := by
  unfold execTimeWriteApply
  dsimp only
  split <;> exact ⟨_, rfl⟩

theorem execLeadHoldExpiry_goes (h : Half) (s : State) : s.Goes (execLeadHoldExpiry h s) := by
  unfold execLeadHoldExpiry
  dsimp only
  (repeat' split) <;> exact ⟨_, rfl⟩

theorem execTimePulse_goes (h : Half) (strained : Bool) (s : State) : s.Goes (execTimePulse h strained s) := by
  unfold execTimePulse
  dsimp only
  (repeat' split) <;> exact ⟨_, rfl⟩

theorem execPpsEdge_goes (h : Half) (falling : Bool) (s : State) : s.Goes (execPpsEdge h falling s) := by
  unfold execPpsEdge
  dsimp only
  (repeat' split) <;> exact ⟨_, rfl⟩

theorem execPpsMissing_goes (h : Half) (s : State) : s.Goes (execPpsMissing h s) := by
  unfold execPpsMissing
  dsimp only
  (repeat' split) <;> exact ⟨_, rfl⟩

theorem execTxtsInfoRead_goes (i : Initiator) (m : Fin 8) (s : State) : s.Goes (execTxtsInfoRead i m s) := by
  unfold execTxtsInfoRead
  dsimp only
  split <;> exact ⟨_, rfl⟩

theorem execRxtsInfoRead_goes (i : Initiator) (m : Fin 8) (s : State) : s.Goes (execRxtsInfoRead i m s) := by
  unfold execRxtsInfoRead
  dsimp only
  split <;> exact ⟨_, rfl⟩

/-! #### Gateway bridge -/

theorem execSourcePoll_goes (r : Fin 4096) (level : Bool) (s : State) (o : Seen) : s.Goes (execSourcePoll r level s o) := by
  unfold execSourcePoll
  dsimp only
  (repeat' split) <;> exact ⟨_, rfl⟩

theorem execSend_goes (id : CmdId) (s : State) (far : Far) (o : Seen) : s.Goes (execSend id s far o) := by
  unfold execSend
  split <;> exact ⟨_, rfl⟩

theorem execRequest_goes (id : CmdId) (s : State) (far : Far) (o : Seen) : s.Goes (execRequest id s far o) := by
  unfold execRequest
  split <;> exact ⟨_, rfl⟩

theorem execBridgeFence_goes (id : CmdId) (s : State) : s.Goes (execBridgeFence id s) := by
  unfold execBridgeFence
  dsimp only
  (repeat' split) <;> exact ⟨_, rfl⟩

theorem execLifeMsExpiry_goes (id : CmdId) (s : State) : s.Goes (execLifeMsExpiry id s) := by
  unfold execLifeMsExpiry
  dsimp only
  (repeat' split) <;> exact ⟨_, rfl⟩

theorem execTimeoutUsExpiry_goes (id : CmdId) (s : State) : s.Goes (execTimeoutUsExpiry id s) := by
  unfold execTimeoutUsExpiry
  dsimp only
  (repeat' split) <;> exact ⟨_, rfl⟩

theorem execGclArm_goes (i : Initiator) (m : Fin 8) (v : Word) (s : State) : s.Goes (execGclArm i m v s) := by
  unfold execGclArm
  dsimp only
  split <;> exact ⟨_, rfl⟩

/-! #### Steady engines -/

theorem execCoefficientWrite_goes (i : Initiator) (h : Half) (n : Fin 16) (k : Fin 2048) (v : Word) (s : State) :
    s.Goes (execCoefficientWrite i h n k v s) := by
  unfold execCoefficientWrite
  dsimp only
  split <;> exact ⟨_, rfl⟩

/-! #### Authority -/

theorem execClaim_goes (h : Half) (s : State) : s.Goes (execClaim h s) := by
  unfold execClaim
  split <;> exact ⟨_, rfl⟩

theorem execUnfitMaxExpiry_goes (h : Half) (s : State) : s.Goes (execUnfitMaxExpiry h s) := by
  unfold execUnfitMaxExpiry
  dsimp only
  (repeat' split) <;> exact ⟨_, rfl⟩

theorem execTieHoldOffExpiry_goes (s : State) : s.Goes (execTieHoldOffExpiry s) := by
  unfold execTieHoldOffExpiry
  dsimp only
  (repeat' split) <;> exact ⟨_, rfl⟩

theorem execSafeStopAssert_goes (h : Half) (s : State) : s.Goes (execSafeStopAssert h s) := by
  unfold execSafeStopAssert
  dsimp only
  (repeat' split) <;> exact ⟨_, rfl⟩

theorem execSteadyCommandApply_goes (h : Half) (s : State) (o : Seen) : s.Goes (execSteadyCommandApply h s o) := by
  unfold execSteadyCommandApply
  dsimp only
  (repeat' split) <;> exact ⟨_, rfl⟩

/-! #### Cameras and displays -/

theorem execSafetyBufferSwap_goes (d : Fin 4) (s : State) : s.Goes (execSafetyBufferSwap d s) := by
  unfold execSafetyBufferSwap
  dsimp only
  (repeat' split) <;> exact ⟨_, rfl⟩

/-! #### KV ledger -/

theorem execPinAdmission_goes (h : Half) (s : State) : s.Goes (execPinAdmission h s) := by
  unfold execPinAdmission
  dsimp only
  (repeat' split) <;> exact ⟨_, rfl⟩

theorem execPin_goes (id : CmdId) (f : Fin 262144) (s : State) : s.Goes (execPin id f s) := by
  unfold execPin
  dsimp only
  (repeat' split) <;> exact ⟨_, rfl⟩

theorem execUnpin_goes (id : CmdId) (f : Fin 262144) (s : State) : s.Goes (execUnpin id f s) := by
  unfold execUnpin
  (repeat' split) <;> exact ⟨_, rfl⟩

theorem execZeroingDone_goes (f : Fin 262144) (s : State) : s.Goes (execZeroingDone f s) := by
  unfold execZeroingDone
  dsimp only
  (repeat' split) <;> exact ⟨_, rfl⟩

/-! #### Calliper -/

theorem execDiagnosis_goes (a : Fin 8) (s : State) : s.Goes (execDiagnosis a s) := by
  unfold execDiagnosis
  dsimp only
  (repeat' split) <;> exact ⟨_, rfl⟩

theorem execDiagnosisVerdict_goes (a : Fin 8) (o : DiagObs) (s : State) : s.Goes (execDiagnosisVerdict a o s) := by
  unfold execDiagnosisVerdict
  dsimp only
  (repeat' split) <;> exact ⟨_, rfl⟩

theorem execRemap_goes (a : Fin 8) (s : State) (e : StoreObs 0x40000) : s.Goes (execRemap a s e) := by
  unfold execRemap
  dsimp only
  (repeat' split) <;> exact ⟨_, rfl⟩

/-! #### Scheduler -/

theorem execBoundaryMark_goes (id : CmdId) (s : State) : s.Goes (execBoundaryMark id s) := by
  unfold execBoundaryMark
  (repeat' split) <;> exact ⟨_, rfl⟩

theorem execStrictSlotGuard_goes (a : Fin 8) (s : State) : s.Goes (execStrictSlotGuard a s) := by
  unfold execStrictSlotGuard
  dsimp only
  (repeat' split) <;> exact ⟨_, rfl⟩

theorem execSlotTableEntryStart_goes (a : Fin 8) (s : State) : s.Goes (execSlotTableEntryStart a s) := by
  unfold execSlotTableEntryStart
  dsimp only
  (repeat' split) <;> exact ⟨_, rfl⟩

theorem execPreemption_goes (e : Engine) (byRing : Fin 65536) (s : State) : s.Goes (execPreemption e byRing s) := by
  unfold execPreemption
  dsimp only
  (repeat' split) <;> exact ⟨_, rfl⟩

theorem execContextSaveComplete_goes (e : Engine) (err : Option Word) (s : State) (seen : StoreObs 0xC40000) :
    s.Goes (execContextSaveComplete e err s seen) := by
  unfold execContextSaveComplete
  dsimp only
  (repeat' split) <;> exact ⟨_, rfl⟩

theorem execContextRestoreComplete_goes (e : Engine) (r : Fin 65536) (err : Option Word) (s : State) (mirror : StoreObs 0x40000) :
    s.Goes (execContextRestoreComplete e r err s mirror) := by
  unfold execContextRestoreComplete
  dsimp only
  (repeat' split) <;> exact ⟨_, rfl⟩

theorem execEvict_goes (e : Engine) (byRing : Fin 65536) (into : Fin 256) (s : State) (began : List (Engine × Fin 256)) :
    s.Goes (execEvict e byRing into s began) := by
  unfold execEvict
  extract_lets c since
  split
  · exact .ite ⟨_, rfl⟩ ⟨_, rfl⟩
  · exact ⟨_, rfl⟩

/-! #### VI records -/

theorem execFunctionLevelReset_goes (port : Half) (vf : BitVec 8) (s : State) : s.Goes (execFunctionLevelReset port vf s) := by
  unfold execFunctionLevelReset
  dsimp only
  (repeat' split) <;> exact ⟨_, rfl⟩

theorem execViRcfg_goes (i : Initiator) (k : Fin 5) (v : Word) (s : State) : s.Goes (execViRcfg i k v s) := by
  unfold execViRcfg
  dsimp only
  (repeat' split) <;> exact ⟨_, rfl⟩

/-! #### Security -/

theorem execOwnershipChangeComplete_goes (s : State) : s.Goes (execOwnershipChangeComplete s) := by
  unfold execOwnershipChangeComplete
  dsimp only
  (repeat' split) <;> exact ⟨_, rfl⟩

theorem execOwnerBinding_goes (h : Half) (record object : List Byte) (s : State) :
    s.Goes (execOwnerBinding h record object s) := by
  unfold execOwnerBinding
  dsimp only
  (repeat' split) <;> exact ⟨_, rfl⟩

theorem execModelLoad_goes (id : CmdId) (digest : BitVec 384) (s : State) (o : Seen) : s.Goes (execModelLoad id digest s o) := by
  unfold execModelLoad
  dsimp only
  (repeat' split) <;> exact ⟨_, rfl⟩

theorem execModelUnload_goes (id : CmdId) (s : State) : s.Goes (execModelUnload id s) := by
  unfold execModelUnload
  dsimp only
  (repeat' split) <;> exact ⟨_, rfl⟩

theorem execAttestationRequest_goes (id : CmdId) (s : State) : s.Goes (execAttestationRequest id s) := by
  unfold execAttestationRequest
  dsimp only
  (repeat' split) <;> exact ⟨_, rfl⟩

theorem execChallengeExpiry_goes (h : Half) (s : State) : s.Goes (execChallengeExpiry h s) := by
  unfold execChallengeExpiry
  dsimp only
  (repeat' split) <;> exact ⟨_, rfl⟩

theorem execDebuggerHalt_goes (t : DebugTarget) (halt : Bool) (s : State) : s.Goes (execDebuggerHalt t halt s) := by
  unfold execDebuggerHalt
  dsimp only
  (repeat' split) <;> exact ⟨_, rfl⟩

/-! #### Start -/

theorem execImageAccept_goes (h : Half) (a b ra rb : FlashCopy) (s : State) : s.Goes (execImageAccept h a b ra rb s) := by
  unfold execImageAccept
  dsimp only
  (repeat' split) <;> exact ⟨_, rfl⟩

theorem execImageAgreement_goes (h : Half) (s : State) : s.Goes (execImageAgreement h s) := by
  unfold execImageAgreement
  dsimp only
  (repeat' split) <;> exact ⟨_, rfl⟩

theorem execImageApply_goes (h : Half) (s : State) : s.Goes (execImageApply h s) := by
  unfold execImageApply
  dsimp only
  (repeat' split) <;> exact ⟨_, rfl⟩

theorem execRomRecovery_goes (h : Half) (record object : List Byte) (s : State) : s.Goes (execRomRecovery h record object s) := by
  unfold execRomRecovery
  dsimp only
  (repeat' split) <;> exact ⟨_, rfl⟩

/-! #### Power -/

theorem execPowerStateReq_goes (i : Initiator) (h : Half) (t : Fin 4) (s : State) : s.Goes (execPowerStateReq i h t s) := by
  unfold execPowerStateReq
  dsimp only
  (repeat' split) <;> exact ⟨_, rfl⟩

/-! #### Service -/

theorem execLedgerLoad_goes (h : Half) (own peer : BankRead) (s : State) : s.Goes (execLedgerLoad h own peer s) := by
  unfold execLedgerLoad
  dsimp only
  (repeat' split) <;> exact ⟨_, rfl⟩

theorem execUrgentHalfDown_goes (h : Half) (s : State) : s.Goes (execUrgentHalfDown h s) := by
  unfold execUrgentHalfDown
  dsimp only
  (repeat' split) <;> exact ⟨_, rfl⟩

/-! #### Register writes -/

theorem execBenchRetire_goes (i : Initiator) (b : Fin 32) (s : State) : s.Goes (execBenchRetire i b s) := by
  unfold execBenchRetire
  dsimp only
  split <;> exact ⟨_, rfl⟩

theorem execLock_goes (i : Initiator) (addr : BitVec 48) (v : BitVec 31) (s : State) : s.Goes (execLock i addr v s) := by
  unfold execLock
  dsimp only
  (repeat' split) <;> exact ⟨_, rfl⟩

/-! #### Register reads -/

theorem execLoReadLatch_goes (i : Initiator) (addr : BitVec 48) (s : State) : s.Goes (execLoReadLatch i addr s) := by
  unfold execLoReadLatch
  (repeat' split) <;> exact ⟨_, rfl⟩

/-! #### Carriage -/

theorem execMoveCompletion_goes (id : CmdId) (s : State) : s.Goes (execMoveCompletion id s) := by
  unfold execMoveCompletion
  dsimp only
  (repeat' split) <;> exact ⟨_, rfl⟩

/-! #### Ledger batches -/

theorem execLedgerBatch_goes (id : CmdId) (s : State) : s.Goes (execLedgerBatch id s) := by
  unfold execLedgerBatch
  (repeat' split) <;> exact ⟨_, rfl⟩

theorem execCow_goes (id : CmdId) (s : State) (o : Seen) : s.Goes (execCow id s o) := by
  unfold execCow
  dsimp only
  (repeat' split) <;> exact ⟨_, rfl⟩

/-! #### Attention -/

theorem execCowCopyCompletion_goes (id : CmdId) (s : State) (o : Seen) : s.Goes (execCowCopyCompletion id s o) := by
  unfold execCowCopyCompletion
  dsimp only
  (repeat' split) <;> exact ⟨_, rfl⟩

theorem execAttentionCompletion_goes (id : CmdId) (s : State) : s.Goes (execAttentionCompletion id s) := by
  unfold execAttentionCompletion
  dsimp only
  (repeat' split) <;> exact ⟨_, rfl⟩

/-! #### Gouge cores -/

theorem execCopyCompletion_goes (b : Fin 32) (k : Fin 60) (tag : Fin 8) (ok : Bool) (data : List Byte) (s : State) (o : Seen) :
    s.Goes (execCopyCompletion b k tag ok data s o) := by
  unfold execCopyCompletion
  dsimp only
  (repeat' split) <;> exact ⟨_, rfl⟩

theorem execGougeTask_goes (id : CmdId) (s : State) (far : Far) (o : Seen) : s.Goes (execGougeTask id s far o) := by
  unfold execGougeTask
  dsimp only
  (repeat' split) <;> exact ⟨_, rfl⟩

theorem execGougeTaskCompletion_goes (id : CmdId) (s : State) : s.Goes (execGougeTaskCompletion id s) := by
  unfold execGougeTaskCompletion
  dsimp only
  (repeat' split) <;> exact ⟨_, rfl⟩

theorem execGcCopy_goes (b : Fin 32) (k : Fin 60) (s : State) (o : StoreObs 0x210000) : s.Goes (execGcCopy b k s o) := by
  unfold execGcCopy
  dsimp only
  (repeat' split) <;> exact ⟨_, rfl⟩

/-! #### Intake -/

theorem execFrameEndTimeout_goes (n : Fin 16) (s : State) : s.Goes (execFrameEndTimeout n s) := by
  unfold execFrameEndTimeout
  dsimp only
  (repeat' split) <;> exact ⟨_, rfl⟩

/-! #### Parting units -/

theorem execDecodeAndSuppress_goes (id : CmdId) (s : State) (far : Far) (o : Seen) :
    s.Goes (execDecodeAndSuppress id s far o) := by
  unfold execDecodeAndSuppress
  (repeat' split) <;> exact ⟨_, rfl⟩

theorem execCropAndResize_goes (id : CmdId) (s : State) (far : Far) (o : Seen) : s.Goes (execCropAndResize id s far o) := by
  unfold execCropAndResize
  (repeat' split) <;> exact ⟨_, rfl⟩

theorem execPartingCompletion_goes (id : CmdId) (s : State) : s.Goes (execPartingCompletion id s) := by
  unfold execPartingCompletion
  (repeat' split) <;> exact ⟨_, rfl⟩

/-! #### Peer links and host ports -/

theorem execPeerAccessTimeout_goes (r : FarRef) (s : State) : s.Goes (execPeerAccessTimeout r s) := by
  unfold execPeerAccessTimeout
  dsimp only
  (repeat' split) <;> exact ⟨_, rfl⟩

theorem execPcieCompletionTimeout_goes (r : FarRef) (s : State) : s.Goes (execPcieCompletionTimeout r s) := by
  unfold execPcieCompletionTimeout
  dsimp only
  (repeat' split) <;> exact ⟨_, rfl⟩

theorem execLaneFailure_goes (h : Half) (l : Fin 8) (lane : Fin 5) (s : State) : s.Goes (execLaneFailure h l lane s) := by
  unfold execLaneFailure
  dsimp only
  (repeat' split) <;> exact ⟨_, rfl⟩

theorem execPeerRequest_goes (h : Half) (src : Fin 64) (write : Bool) (addr : BitVec 37) (len : Fin 257) (data : List Byte) (s : State) (o : Seen) :
    s.Goes (execPeerRequest h src write addr len data s o) := by
  unfold execPeerRequest
  dsimp only
  (repeat' split) <;> exact ⟨_, rfl⟩

theorem execPacketForward_goes (h : Half) (src dst : Fin 64) (hops : Fin 4) (addr : BitVec 48) (s : State) :
    s.Goes (execPacketForward h src dst hops addr s) := by
  unfold execPacketForward
  dsimp only
  (repeat' split) <;> exact ⟨_, rfl⟩

theorem execPcieLinkChange_goes (p : Half) (up : Bool) (speed width : Fin 4) (s : State) :
    s.Goes (execPcieLinkChange p up speed width s) := by
  unfold execPcieLinkChange
  dsimp only
  (repeat' split) <;> exact ⟨_, rfl⟩

theorem execPcieInboundRequest_goes (p : Half) (r : PciReq) (s : State) (o : Seen) : s.Goes (execPcieInboundRequest p r s o) := by
  unfold execPcieInboundRequest
  dsimp only
  (repeat' split) <;> exact ⟨_, rfl⟩

theorem execApplicationCoreAccess_goes (k : Fin 16) (mmode : Bool) (op : AppAccess) (addr : BitVec 48) (width : Fin 9) (reg : Fin 32) (data : Dword) (s : State) (o : Seen) :
    s.Goes (execApplicationCoreAccess k mmode op addr width reg data s o) := by
  unfold execApplicationCoreAccess
  dsimp only
  (repeat' split) <;> exact ⟨_, rfl⟩

/-- The meaning of every command answers a next state with the queue as it was: directly, in each branch of its guards,
or by its lemma above. -/
theorem exec_goes (i : Instr) (s : State) : s.Goes (exec i s) :=
  match i with
  | .gcSld .. | .gcCwait .. | .gcDwait .. | .gcDsig .. | .gcDsigAdd .. | .gcDone .. | .gcVcvtN .. | .gcVcvtW ..
  | .gcVcvtMxn .. | .gcVcvtMxw .. | .attentionCommand .. | .backwardPass .. | .alloc .. | .acquire ..
  | .release .. | .query .. | .stridedMove .. | .gatherMove .. | .pageListMove .. | .fillMove ..
  | .transactionReturn .. | .descriptorFetch .. | .dispatch .. | .quantumEnd .. | .create .. | .reset ..
  | .destroy .. | .share .. | .calliperComparison .. | .handover .. | .clearObs .. | .halfLoss .. | .arm ..
  | .close .. | .openSlot .. | .modeHandover .. | .pwmPeriodStart .. | .encoderTransition .. | .inputEdge ..
  | .frameTransmitted .. | .cvuCtl .. | .cvuData .. | .cvuData8 .. | .cvuValLo .. | .cvuValHi .. | .tbRate ..
  | .tbStepLo .. | .tbStepHi .. | .tbRebase .. | .retype .. | .reassign .. | .flags .. | .challenge ..
  | .debugOpen .. | .debugClose .. | .token .. | .sysResetDevice .. | .sysResetHalf .. | .blockActive ..
  | .clockGated .. | .powerGated .. | .powerGood .. | .resetAssert .. | .mirrorRead .. | .resetRelease .. => ⟨_, rfl⟩
  | .registerWrite .. | .swap .. | .vectorEntry .. | .drainRow .. | .gougeInstruction .. | .coreTest ..
  | .rebuildComplete .. | .patrolScrub .. | .dowelMaxHi .. | .dowelAddHi .. | .dowelAdd32 .. | .markWaitExpiry ..
  | .resetCompletion .. | .viSelf .. | .goldenBlank .. | .ageEvaluation .. | .authorityMessageSend ..
  | .authorityMessage .. | .peerSilent .. | .peerDown .. | .watchdogReset .. | .fitnessChange .. | .outEnRise ..
  | .steadyUpdate .. | .chatterWindowEnd .. | .stuckTimeout .. | .frameReceived .. | .outboundFrameInstant ..
  | .busOff .. | .busOffRecovery .. | .ethernetLinkChange .. | .gclReplace .. | .gateEntryEnd ..
  | .sideBandPulse .. | .vblankStart .. | .hotPlug .. | .timePulseSend .. | .listeningWindowExpiry ..
  | .pulseLoss .. | .worldSwitch .. | .partitionSwitch .. | .scrub .. | .secClaim .. | .forcedErase ..
  | .startZeroingComplete .. | .linkIdle .. | .deviceLost .. | .powerEvaluation .. | .limiterRelease ..
  | .hourMark .. | .registerRead .. | .vendorReturnEraseEnd .. | .activeLine .. | .cameraPhyLockChange ..
  | .canErrorStateChange .. => .ite ⟨_, rfl⟩ ⟨_, rfl⟩
  | .ringEnable .. | .ringDisable .. | .dowelArgLo .. | .dowelNotifyLo .. | .dowelNotifyHi .. | .dowelAttr ..
  | .frameStart .. | .pathLoss .. | .arbSelChange .. | .csiFrameEnd .. | .flitReplay .. | .linkTraining ..
  | .fastCurrentLimiter .. | .bankCompaction .. => .ite ⟨_, rfl⟩ (.ite ⟨_, rfl⟩ ⟨_, rfl⟩)
  | .instanceZeroingComplete .. | .creationComplete .. => .ite (.ite ⟨_, rfl⟩ ⟨_, rfl⟩) ⟨_, rfl⟩
  | .csiFrameStart .. | .csiLine .. => .ite ⟨_, rfl⟩ (.ite ⟨_, rfl⟩ (.ite ⟨_, rfl⟩ ⟨_, rfl⟩))
  | .temperatureRead .. => .ite (.ite ⟨_, rfl⟩ ⟨_, rfl⟩) (.ite ⟨_, rfl⟩ ⟨_, rfl⟩)
  | .romStart .. => .ite ⟨_, rfl⟩ (.ite ⟨_, rfl⟩ (.ite ⟨_, rfl⟩ (.ite ⟨_, rfl⟩ ⟨_, rfl⟩)))
  | .lock i0 addr v => execLock_goes i0 addr v s
  | .loReadLatch i0 addr => execLoReadLatch_goes i0 addr s
  | .arrayCommand a id => execArrayCommand_goes a id s
  | .windowCommand a id => execWindowCommand_goes a id s
  | .arrayCompletion a id => execArrayCompletion_goes a id s
  | .remap a e => execRemap_goes a s e
  | .arrayRetire i0 a => execArrayRetire_goes i0 a s
  | .gougeTask id far o => execGougeTask_goes id s far o
  | .gougeTaskCompletion id => execGougeTaskCompletion_goes id s
  | .gcCopy b k o => execGcCopy_goes b k s o
  | .copyCompletion b k tag ok data o => execCopyCompletion_goes b k tag ok data s o
  | .benchRetire i0 b => execBenchRetire_goes i0 b s
  | .decodeAndSuppress id far o => execDecodeAndSuppress_goes id s far o
  | .cropAndResize id far o => execCropAndResize_goes id s far o
  | .partingCompletion id => execPartingCompletion_goes id s
  | .attentionCompletion id => execAttentionCompletion_goes id s
  | .ledgerBatch id => execLedgerBatch_goes id s
  | .cow id o => execCow_goes id s o
  | .cowCopyCompletion id o => execCowCopyCompletion_goes id s o
  | .pin id f => execPin_goes id f s
  | .pinAdmission h => execPinAdmission_goes h s
  | .unpin id f => execUnpin_goes id f s
  | .zeroingDone f => execZeroingDone_goes f s
  | .moveCompletion id => execMoveCompletion_goes id s
  | .doorbell i0 r v => execDoorbell_goes i0 r v s
  | .ringClose r => execRingClose_goes r s
  | .noOp id => execNoOp_goes id s
  | .dowelWait id => execDowelWait_goes id s
  | .dowelSignal id => execDowelSignal_goes id s
  | .waitSatisfied d who => execWaitSatisfied_goes d who s
  | .dowelPoll d who => execDowelPoll_goes d who s
  | .slotPublish id far o => execSlotPublish_goes id far s o
  | .slotBump id => execSlotBump_goes id s
  | .slotRead id => execSlotRead_goes id s
  | .slotReadCopyDone id far o => execSlotReadCopyDone_goes id far s o
  | .boundaryMark id => execBoundaryMark_goes id s
  | .strictSlotGuard a => execStrictSlotGuard_goes a s
  | .slotTableEntryStart a => execSlotTableEntryStart_goes a s
  | .preemption e byRing => execPreemption_goes e byRing s
  | .contextSaveComplete e err seen => execContextSaveComplete_goes e err s seen
  | .contextRestoreComplete e r err mirror => execContextRestoreComplete_goes e r err s mirror
  | .evict e byRing into began => execEvict_goes e byRing into s began
  | .modelLoad id digest o => execModelLoad_goes id digest s o
  | .modelUnload id => execModelUnload_goes id s
  | .functionLevelReset port vf => execFunctionLevelReset_goes port vf s
  | .viRcfg i0 k v => execViRcfg_goes i0 k v s
  | .pcieInboundRequest p r o => execPcieInboundRequest_goes p r s o
  | .diagnosis a => execDiagnosis_goes a s
  | .diagnosisVerdict a o => execDiagnosisVerdict_goes a o s
  | .claim h => execClaim_goes h s
  | .unfitMaxExpiry h => execUnfitMaxExpiry_goes h s
  | .tieHoldOffExpiry => execTieHoldOffExpiry_goes s
  | .safeStopAssert h => execSafeStopAssert_goes h s
  | .steadyCommandApply h o => execSteadyCommandApply_goes h s o
  | .coefficientWrite i0 h n k v => execCoefficientWrite_goes i0 h n k v s
  | .readbackMismatch h n => execReadbackMismatch_goes h n s
  | .adcConversion h code => execAdcConversion_goes h code s
  | .edgeNotify h => execEdgeNotify_goes h s
  | .sourcePoll r level o => execSourcePoll_goes r level s o
  | .send id far o => execSend_goes id s far o
  | .request id far o => execRequest_goes id s far o
  | .bridgeFence id => execBridgeFence_goes id s
  | .lifeMsExpiry id => execLifeMsExpiry_goes id s
  | .timeoutUsExpiry id => execTimeoutUsExpiry_goes id s
  | .gclArm i0 m v => execGclArm_goes i0 m v s
  | .frameEndTimeout n => execFrameEndTimeout_goes n s
  | .safetyBufferSwap d => execSafetyBufferSwap_goes d s
  | .timeWriteApply => execTimeWriteApply_goes s
  | .timePulse h strained => execTimePulse_goes h strained s
  | .ppsEdge h falling => execPpsEdge_goes h falling s
  | .ppsMissing h => execPpsMissing_goes h s
  | .txtsInfoRead i0 m => execTxtsInfoRead_goes i0 m s
  | .rxtsInfoRead i0 m => execRxtsInfoRead_goes i0 m s
  | .ownershipChangeComplete => execOwnershipChangeComplete_goes s
  | .attestationRequest id => execAttestationRequest_goes id s
  | .ownerBinding h record object => execOwnerBinding_goes h record object s
  | .challengeExpiry h => execChallengeExpiry_goes h s
  | .imageAccept h a b ra rb => execImageAccept_goes h a b ra rb s
  | .imageAgreement h => execImageAgreement_goes h s
  | .imageApply h => execImageApply_goes h s
  | .romRecovery h record object => execRomRecovery_goes h record object s
  | .laneFailure h l lane => execLaneFailure_goes h l lane s
  | .packetForward h src dst hops addr => execPacketForward_goes h src dst hops addr s
  | .peerRequest h src write addr len data o => execPeerRequest_goes h src write addr len data s o
  | .peerAccessTimeout r => execPeerAccessTimeout_goes r s
  | .pcieCompletionTimeout r => execPcieCompletionTimeout_goes r s
  | .pcieLinkChange p up speed width => execPcieLinkChange_goes p up speed width s
  | .powerStateReq i0 h t => execPowerStateReq_goes i0 h t s
  | .ledgerLoad h own peer => execLedgerLoad_goes h own peer s
  | .applicationCoreAccess k mmode op addr width reg data o => execApplicationCoreAccess_goes k mmode op addr width reg data s o
  | .leadHoldExpiry h => execLeadHoldExpiry_goes h s
  | .urgentHalfDown h => execUrgentHalfDown_goes h s
  | .debuggerHalt t halt => execDebuggerHalt_goes t halt s

/-! ### One step and any number of steps -/

/-- A step answers a next state whose queue is the old one without its front command. -/
theorem step_next (s : State) : ∃ t, step s = .next t ∧ t.pending = s.pending.tail := by
  unfold step
  split
  · rename_i i rest hqueue
    obtain ⟨c, hc⟩ := exec_goes i (s.withPending rest)
    exact ⟨_, hc, by rw [hqueue]; rfl⟩
  · rename_i hempty
    exact ⟨_, rfl, by simp [hempty]⟩

theorem State.queueWf_of_pending_sublist {s t : State} (h : s.queueWf) (hsub : t.pending.Sublist s.pending) : t.queueWf :=
  fun i hi => h i (hsub.subset hi)

/-- Any number of steps answers a next state; each takes one command off the queue. -/
theorem run_next (n : Nat) (s : State) : ∃ t : State, core.run n s = .next t ∧ t.pending = s.pending.drop n := by
  induction n generalizing s with
  | zero => exact ⟨s, rfl, rfl⟩
  | succ n ih =>
    obtain ⟨t, hstep, htail⟩ := step_next s
    obtain ⟨u, hrun, hdrop⟩ := ih t
    refine ⟨u, ?_, by rw [hdrop, htail, List.drop_tail]⟩
    simpa only [Host.Core.run, show core.step s = .next t from hstep] using hrun

/-- Settles O5: no meaning of a command ends in a fault or a refusal, and none changes the queue. -/
theorem queueKept : Obligations.QueueKept := by
  unfold Obligations.QueueKept
  refine ⟨fun s hs => ?_, fun n s hs => ?_⟩
  · obtain ⟨t, hstep, htail⟩ := step_next s
    exact ⟨t, hstep, htail, State.queueWf_of_pending_sublist hs (htail ▸ List.tail_sublist _)⟩
  · obtain ⟨t, hrun, hdrop⟩ := run_next n s
    exact ⟨t, hrun, hdrop, State.queueWf_of_pending_sublist hs (hdrop ▸ List.drop_sublist _ _)⟩

end Machine

end Sys2Proof

/-! PROOF. Events: the registers and the bytes that raising one can write (R250, R251, R565), followed through the ring
records that `Chip.raise` is made of. -/

namespace Sys2Proof

namespace Machine

/-! ### Chips that differ in few registers and bytes -/

/-- An interrupt changes the counts of interrupts alone. -/
theorem Chip.interrupt_keeps {γ : Type} (c : Chip) (f : Chip → γ) (hf : ∀ c y, f { c with irqs := y } = f c) (r : Nat) :
    f (c.interrupt r) = f c := by
  unfold Chip.interrupt Chip.raiseIrq
  split
  · split <;> exact hf c _
  · rfl

/-- Two chips differ at most in the registers that `R` admits and in the bytes that `B` admits. -/
structure WritesIn (R B : Nat → Prop) (c d : Chip) : Prop where
  regs : SameRegsBut R c d
  bytes : SameBytesBut B c d

namespace WritesIn

variable {R B R' B' : Nat → Prop} {c d e : Chip}

theorem refl (c : Chip) : WritesIn R B c c := ⟨fun _ _ => rfl, fun _ _ _ => rfl⟩

theorem trans (h : WritesIn R B c d) (g : WritesIn R B d e) : WritesIn R B c e :=
  ⟨fun a ha => (g.regs a ha).trans (h.regs a ha), fun a hw ha => (g.bytes a hw ha).trans (h.bytes a hw ha)⟩

theorem mono (h : WritesIn R B c d) (hR : ∀ a, R a → R' a) (hB : ∀ a, B a → B' a) : WritesIn R' B' c d :=
  ⟨fun a ha => h.regs a fun hr => ha (hR a hr), fun a hw ha => h.bytes a hw fun hb => ha (hB a hb)⟩

/-- A change of neither registers nor memory writes nothing. -/
theorem of_eq (hr : d.regs = c.regs) (hm : d.mem = c.mem) (hg : d.garbled = c.garbled) (hf : d.freeCnt = c.freeCnt) : WritesIn R B c d :=
  ⟨fun a _ => Chip.reg_of_regs hr a, fun a _ _ => Chip.byte_of_mem hm hg hf a⟩

theorem setReg {a : Nat} (ha : R a) (v : Nat) : WritesIn R B c (c.setReg a v) :=
  ⟨fun _ hb => c.reg_setReg_ne v fun e => hb (e ▸ ha), fun _ _ _ => Chip.byte_of_mem rfl rfl rfl _⟩

theorem put {f : RF} (ha : R f.addr) (v : Nat) : WritesIn R B c (c.put f v) := setReg ha _

theorem inc {f : RF} (ha : R f.addr) : WritesIn R B c (c.inc f) := setReg ha _

theorem setPair {lo hi : Nat} (hlo : R lo) (hhi : R hi) (v : Nat) : WritesIn R B c (c.setPair lo hi v) :=
  (setReg hlo _).trans (setReg hhi _)

theorem setRingSt (r : Nat) (x : RingSt) : WritesIn R B c (c.setRingSt r x) := of_eq rfl rfl rfl rfl

theorem store {a : Nat} {bs : List Byte} (h : ∀ x, a ≤ x → x < a + bs.length → B x) : WritesIn R B c (c.store a bs) := by
  refine ⟨fun x _ => Chip.reg_of_regs (c.store_regs a bs) x, fun x _ hx => ?_⟩
  rw [Chip.byte_store, Chip.byte_storeRaw_other]
  by_contra hin
  exact hx (h x (by omega) (by omega))

theorem interrupt (r : Nat) : WritesIn R B c (c.interrupt r) :=
  of_eq (c.interrupt_keeps Chip.regs (fun _ _ => rfl) r) (c.interrupt_keeps Chip.mem (fun _ _ => rfl) r)
    (c.interrupt_keeps Chip.garbled (fun _ _ => rfl) r) (c.interrupt_keeps Chip.freeCnt (fun _ _ => rfl) r)

/-- A register field outside `R` reads as before. -/
theorem q_eq (h : WritesIn R B c d) {f : RF} (hf : ¬ R f.addr) : d.q f = c.q f := by
  unfold Chip.q
  rw [h.regs _ hf]

end WritesIn

/-! ### The registers of a ring that a record writes -/

/-- The tail, the status and the done counter of a ring. -/
def recordReg (r a : Nat) : Prop :=
  r < 65536 ∧ (a = Reg.RING_TAIL r ∨ a = Reg.RING_STATUS r ∨ a = Reg.RING_DONE_LO r ∨ a = Reg.RING_DONE_HI r)

/-- Such a register lies in the first words of a ring page. -/
theorem recordReg.range {r a : Nat} (h : recordReg r a) : 0x10000000 ≤ a ∧ a < 0x20000000 ∧ a % 0x1000 < 0x18 := by
  obtain ⟨hr, h⟩ := h
  simp only [Reg.RING_TAIL, Reg.RING_STATUS, Reg.RING_DONE_LO, Reg.RING_DONE_HI] at h
  omega

theorem Chip.ringSt?_lt {c : Chip} {r : Nat} {x : RingSt} (h : c.ringSt? r = some x) : r < 65536 := by
  unfold Chip.ringSt? at h
  split at h
  · assumption
  · cases h

theorem Chip.find?_rings_of_ringSt? {c : Chip} {r : Nat} {x : RingSt} (h : c.ringSt? r = some x) : Tbl.find? c.rings r = some x := by
  have hr := Chip.ringSt?_lt h
  simpa only [Chip.ringSt?, hr, if_true] using h

theorem Chip.ringSt?_setRingSt_same (c : Chip) {r : Nat} (x : RingSt) (h : r < 65536) : (c.setRingSt r x).ringSt? r = some x := by
  simp only [Chip.ringSt?, h, if_true, Chip.setRingSt, Tbl.find?_ins_same]

theorem Chip.ringEntry_eq (c : Chip) (r idx size : Nat) :
    c.ringEntry r idx size = c.ringEntry r 0 size + idx % 2 ^ c.q (F.RING_CFG_SIZE_LOG2 r) * size := by
  unfold Chip.ringEntry
  rw [Nat.zero_mod, Nat.zero_mul, Nat.add_zero]

/-- An entry lies in its ring's memory. -/
theorem Chip.inRing_of_entry (c : Chip) (r idx size a : Nat) (hlo : c.ringEntry r idx size ≤ a) (hhi : a < c.ringEntry r idx size + size) :
    c.inRing r size a := by
  have hidx : idx % 2 ^ c.q (F.RING_CFG_SIZE_LOG2 r) < 2 ^ c.q (F.RING_CFG_SIZE_LOG2 r) := Nat.mod_lt _ (Nat.two_pow_pos _)
  have hmul := Nat.mul_le_mul_right size (Nat.succ_le_of_lt hidx)
  rw [Nat.succ_mul] at hmul
  rw [Chip.ringEntry_eq] at hlo hhi
  exact ⟨Nat.le_trans (Nat.le_add_right _ _) hlo, by omega⟩

/-- A record writes its ring's registers and an entry of its memory. -/
theorem Chip.writeRecord_writesIn (c : Chip) (r size : Nat) (mk : Nat → Nat → Nat → List Byte) (reserved : Bool)
    (hmk : ∀ p s l, (mk p s l).length = size) : WritesIn (recordReg r) (c.inRing r size) c (c.writeRecord r size mk reserved).2 := by
  unfold Chip.writeRecord
  split
  · exact .refl c
  · rename_i x hx
    have hr := Chip.ringSt?_lt hx
    split
    · exact .refl c
    · split
      · exact .setRingSt r _
      · dsimp only
        split
        · exact (WritesIn.put ⟨hr, .inr (.inl rfl)⟩ _).trans (.setRingSt r _)
        · refine WritesIn.trans (.store fun a hlo hhi => ?_) (.trans (.setReg ⟨hr, .inl rfl⟩ _) (.trans
            (.setPair ⟨hr, .inr (.inr (.inl rfl))⟩ ⟨hr, .inr (.inr (.inr rfl))⟩ _) (.trans (.setRingSt r _) (.interrupt r))))
          rw [hmk] at hhi
          exact c.inRing_of_entry r _ size a hlo hhi

/-- What a record leaves of a ring's state: its owner. -/
theorem Chip.writeRecord_rings (c : Chip) (r size : Nat) (mk : Nat → Nat → Nat → List Byte) (reserved : Bool) :
    (c.writeRecord r size mk reserved).2.rings = c.rings ∨
      ∃ x y, c.ringSt? r = some x ∧ y.owner = x.owner ∧ (c.writeRecord r size mk reserved).2.rings = Tbl.ins c.rings r y := by
  unfold Chip.writeRecord
  split
  · exact .inl rfl
  · rename_i x hx
    split
    · exact .inl rfl
    · split
      · exact .inr ⟨x, { x with lost := min (x.lost + 1) 0xFFFFFFFF }, hx, rfl, rfl⟩
      · dsimp only
        split
        · rename_i ad cs _
          exact .inr ⟨x, { x with deaf := true, deafAt := (ad, cs) }, hx, rfl,
            congrArg (Tbl.ins · r _) (Chip.setReg_rings _ _ _)⟩
        · refine .inr ⟨x, { x with lost := 0, lostRun := false, written := x.written + 1 }, hx, rfl, ?_⟩
          rw [Chip.interrupt_keeps _ Chip.rings fun _ _ => rfl]
          refine congrArg (Tbl.ins · r _) ?_
          exact (Chip.setReg_rings _ _ _).trans ((Chip.setReg_rings _ _ _).trans ((Chip.setReg_rings _ _ _).trans (Chip.store_rings _ _ _)))

/-! ### The default event ring after a ring's state changes -/

/-- A ring's new state, of the same owner, can make that ring a party's first default event ring, and no other. -/
theorem Tbl.find?_ins_key {α : Type} (p : Nat × α → Bool) (t : Tbl α) (k : Nat) (x y : α) (hx : Tbl.find? t k = some x)
    (hp : p (k, y) = p (k, x)) :
    (List.find? p (Tbl.ins t k y)).map (·.1) = (List.find? p t).map (·.1) ∨ (List.find? p (Tbl.ins t k y)).map (·.1) = some k := by
  induction t with
  | nil => cases hx
  | cons e t ih =>
    obtain ⟨k', v⟩ := e
    unfold Tbl.ins
    unfold Tbl.find? at hx
    split
    · rename_i hk
      subst hk
      simp only [if_true, Option.some.injEq] at hx
      subst hx
      simp only [List.find?_cons, hp]
      cases p (k', v) <;> simp
    · rename_i hk
      simp only [hk, if_false] at hx
      split
      · by_cases hy : p (k, y) = true
        · simp [List.find?_cons, hy]
        · simp [List.find?_cons, hy]
      · simp only [List.find?_cons]
        cases p (k', v)
        · exact ih hx
        · exact .inl rfl

/-! ### An event as a whole -/

/-- The registers that events written to the rings of `M` can change. -/
def eventRegs (M : Nat → Prop) (a : Nat) : Prop := a = Reg.WEAR_LOG_CNT ∨ ∃ r, M r ∧ recordReg r a

/-- Such a register is neither the configuration nor the base nor the link of a ring. -/
theorem not_eventRegs {M : Nat → Prop} {a : Nat} (h : 0x18 ≤ a % 0x1000) : ¬ eventRegs M a := by
  rintro (rfl | ⟨r, -, hr⟩)
  · exact absurd h (by decide)
  · have := hr.range
    omega

theorem not_eventRegs_ring {M : Nat → Prop} {off r : Nat} (h : 0x18 ≤ off % 0x1000) : ¬ eventRegs M (off + r * 0x1000) :=
  not_eventRegs (by omega)

theorem eventRegs.eventReg {M : Nat → Prop} {a : Nat} (h : eventRegs M a) : eventReg a := by
  rcases h with h | ⟨r, -, hr⟩
  · exact .inr h
  · exact .inl ⟨hr.range.1, hr.range.2.1⟩

/-- What events written to the rings of `M` do: registers and memory of these rings, and every default event ring is the
old one or one of `M`. -/
structure EventFrame (M : Nat → Prop) (c d : Chip) : Prop where
  writes : WritesIn (eventRegs M) (fun a => ∃ r, M r ∧ c.inRing r 64 a) c d
  eqs : ∀ o r, d.defaultEq o = some r → c.defaultEq o = some r ∨ M r

namespace EventFrame

variable {M : Nat → Prop} {c d e : Chip}

theorem refl (c : Chip) : EventFrame M c c := ⟨.refl c, fun _ _ h => .inl h⟩

theorem cfg_eq (h : EventFrame M c d) (r lo wid : Nat) : d.q ⟨Reg.RING_CFG r, lo, wid⟩ = c.q ⟨Reg.RING_CFG r, lo, wid⟩ :=
  h.writes.q_eq (not_eventRegs_ring (by decide))

theorem inRing_iff (h : EventFrame M c d) (r size a : Nat) : d.inRing r size a ↔ c.inRing r size a := by
  have hlo : d.q (F.RING_BASE_LO_BASE r) = c.q (F.RING_BASE_LO_BASE r) := h.writes.q_eq (not_eventRegs_ring (by decide))
  have hhi : d.q (F.RING_BASE_HI_BASE r) = c.q (F.RING_BASE_HI_BASE r) := h.writes.q_eq (not_eventRegs_ring (by decide))
  have hsize : d.q (F.RING_CFG_SIZE_LOG2 r) = c.q (F.RING_CFG_SIZE_LOG2 r) := h.cfg_eq r 16 5
  unfold Chip.inRing Chip.ringEntry
  rw [hlo, hhi, hsize]

theorem trans (h : EventFrame M c d) (g : EventFrame M d e) : EventFrame M c e where
  writes := h.writes.trans (g.writes.mono (fun _ => id) fun a ⟨r, hr, ha⟩ => ⟨r, hr, (h.inRing_iff r 64 a).1 ha⟩)
  eqs o r hr := (g.eqs o r hr).elim (h.eqs o r) .inr

theorem partyEq (h : EventFrame M c d) {v : Event} {r : Nat} (hr : d.partyEq v = some r) : c.partyEq v = some r ∨ M r := by
  obtain ⟨half, code, ring, owner, detail⟩ := v
  cases ring with
  | some q =>
    have hlink : d.q (F.RING_LINK_EQ q) = c.q (F.RING_LINK_EQ q) := h.writes.q_eq (not_eventRegs_ring (by decide))
    exact .inl ((congrArg some hlink).symm.trans hr)
  | none =>
    cases owner with
    | some o => exact h.eqs o r hr
    | none => cases hr

/-- Rings of `M` change their state but not their owner. -/
theorem of_writes (hw : WritesIn (eventRegs M) (fun a => ∃ r, M r ∧ c.inRing r 64 a) c d)
    (hr : d.rings = c.rings ∨ ∃ r x y, M r ∧ c.ringSt? r = some x ∧ y.owner = x.owner ∧ d.rings = Tbl.ins c.rings r y) : EventFrame M c d where
  writes := hw
  eqs o q hq := by
    have hcfg (k lo wid : Nat) : d.q ⟨Reg.RING_CFG k, lo, wid⟩ = c.q ⟨Reg.RING_CFG k, lo, wid⟩ :=
      hw.q_eq (not_eventRegs_ring (by decide))
    have hkind (k : Nat) : d.q (F.RING_CFG_KIND k) = c.q (F.RING_CFG_KIND k) := hcfg k 0 2
    have hdef (k : Nat) : d.on (F.RING_CFG_DEFAULT_EQ k) = c.on (F.RING_CFG_DEFAULT_EQ k) :=
      congrArg (· != 0) (hcfg k 30 1)
    unfold Chip.defaultEq at hq ⊢
    simp only [hkind, hdef] at hq
    rcases hr with hr | ⟨r, x, y, hM, hx, hy, hr⟩
    · exact .inl (hr ▸ hq)
    · have hown := Tbl.find?_ins_key
        (fun e : Nat × RingSt => e.2.owner == o && c.q (F.RING_CFG_KIND e.1) == 3 && c.on (F.RING_CFG_DEFAULT_EQ e.1))
        c.rings r x y (Chip.find?_rings_of_ringSt? hx) (by simp only [hy])
      rw [hr] at hq
      rcases hown with hsame | hown
      · exact .inl (hsame ▸ hq)
      · rw [hown, Option.some.injEq] at hq
        exact .inr (hq ▸ hM)

theorem setRingSt {r : Nat} {x y : RingSt} (hM : M r) (hx : c.ringSt? r = some x) (hy : y.owner = x.owner) :
    EventFrame M c (c.setRingSt r y) :=
  of_writes (.setRingSt r y) (.inr ⟨r, x, y, hM, hx, hy, rfl⟩)

theorem writeRecord {r : Nat} (hM : M r) (c : Chip) (mk : Nat → Nat → Nat → List Byte) (hmk : ∀ p s l, (mk p s l).length = 64)
    (reserved : Bool) : EventFrame M c (c.writeRecord r 64 mk reserved).2 :=
  of_writes ((c.writeRecord_writesIn r 64 mk reserved hmk).mono (fun _ h => .inr ⟨r, hM, h⟩) fun _ h => ⟨r, hM, h⟩)
    ((c.writeRecord_rings r 64 mk reserved).imp_right fun ⟨x, y, hx, hy, h⟩ => ⟨r, x, y, hM, hx, hy, h⟩)

end EventFrame

theorem toLE_length (n v : Nat) : (toLE n v).length = n := by
  induction n generalizing v with
  | zero => rfl
  | succ n ih => simp only [toLE, List.length_cons, ih]

/-- An event record has 64 bytes (R250). -/
theorem Event.bytes_length (e : Event) (stamp phase seq lost : Nat) : (e.bytes stamp phase seq lost).length = 64 := by
  have hdetail : ((e.detail ++ [0, 0, 0, 0, 0]).take 5).length = 5 := by
    simp only [List.length_take, List.length_append, List.length_cons, List.length_nil]
    omega
  simp only [Event.bytes, List.length_append, List.length_flatMap, toLE_length, List.map_const', List.sum_replicate, hdetail]
  rfl

section
variable {M : Nat → Prop}

theorem Chip.ledger_eventFrame (c : Chip) (h : Half) (kind : Nat) (body : List Byte) (sets : List (Nat × Nat)) :
    EventFrame M c (c.ledger h kind body sets) := by
  have keep {γ : Type} (f : Chip → γ) (hf : ∀ c w s, f { c with flash := w, ledgerSeq := s } = f c) : f (c.ledger h kind body sets) = f c := by
    unfold Chip.ledger
    dsimp only
    refine (foldl_keeps f _ (fun x y => ?_) _ _).trans (hf c c.flash _)
    split
    · rfl
    · exact hf x _ x.ledgerSeq
  exact ⟨.of_eq (keep Chip.regs fun _ _ _ => rfl) (keep Chip.mem fun _ _ _ => rfl) (keep Chip.garbled fun _ _ _ => rfl)
    (keep Chip.freeCnt fun _ _ _ => rfl), fun o r hr => .inl ((keep (fun x => x.defaultEq o) fun _ _ _ => rfl) ▸ hr)⟩

theorem Chip.log_eventFrame (c : Chip) (l : List LogEntry) : EventFrame M c { c with log := l } :=
  .of_writes (.of_eq rfl rfl rfl rfl) (.inl rfl)

theorem Chip.logCount_eventFrame (c : Chip) : EventFrame M c (c.inc F.WEAR_LOG_CNT_COUNT) :=
  .of_writes (.inc (.inl rfl)) (.inl rfl)

theorem Chip.logEvent_eventFrame (c : Chip) (e : Event) : EventFrame M c (c.logEvent e) := by
  unfold Chip.logEvent
  split
  · exact .refl c
  · exact (c.log_eventFrame _).trans ((Chip.logCount_eventFrame _).trans (Chip.ledger_eventFrame _ _ _ _ _))

/-- An event written to firmware's default event ring alone writes to that ring. -/
theorem Chip.raiseFw_eventFrame (c : Chip) (e : Event) (h : ∀ r, c.defaultEq 0 = some r → M r) : EventFrame M c (c.raiseFw e) := by
  unfold Chip.raiseFw
  split
  · exact .refl c
  · rename_i r hr
    have hw := EventFrame.writeRecord (h r hr) c (fun p s l => e.bytes (c.stamp e.half 0) p s l) (fun _ _ _ => e.bytes_length ..) false
    split
    · rename_i he
      rw [he] at hw
      split
      · rename_i x hx
        exact hw.trans (.setRingSt (h r hr) hx rfl)
      · exact hw
    · rename_i he
      rw [he] at hw
      exact hw

theorem EventFrame.raiseFw {c d : Chip} (hd : EventFrame M c d) (e : Event) (h : ∀ r, c.defaultEq 0 = some r → M r) :
    EventFrame M c (d.raiseFw e) :=
  hd.trans (d.raiseFw_eventFrame e fun r hr => (hd.eqs 0 r hr).elim (h r) id)

theorem EventFrame.recordRefused {c d : Chip} (hd : EventFrame M c d) (deaf : Bool) (r a cause : Nat)
    (h : ∀ r, c.defaultEq 0 = some r → M r) : EventFrame M c (d.recordRefused deaf r a cause) := by
  unfold Chip.recordRefused
  dsimp only
  split
  · exact (hd.raiseFw _ h).raiseFw _ h
  · exact hd.raiseFw _ h

/-- An event writes to firmware's default event ring and to the event ring of the party it names. -/
theorem Chip.raise_eventFrame (c : Chip) (e : Event) (hfw : ∀ r, c.defaultEq 0 = some r → M r) (hparty : ∀ r, c.partyEq e = some r → M r) :
    EventFrame M c (c.raise e) := by
  have hd : EventFrame M c ((c.logEvent e).raiseFw e) := (c.logEvent_eventFrame e).raiseFw e hfw
  unfold Chip.raise
  dsimp only
  generalize (c.logEvent e).raiseFw e = d at hd
  split
  · exact hd
  · rename_i r hr
    have hM : M r := (hd.partyEq hr).elim (hparty r) id
    split
    · exact hd
    · have hw := hd.trans (.writeRecord hM d (fun p s l => e.bytes (d.stamp e.half 0) p s l) (fun _ _ _ => e.bytes_length ..) false)
      split
      · rename_i he
        rw [he] at hw
        split
        · rename_i x hx
          split
          · exact hw
          · exact (hw.trans (.setRingSt (y := { x with lostRun := true }) hM hx rfl)).raiseFw _ hfw
        · exact hw
      · rename_i he
        rw [he] at hw
        exact hw.recordRefused _ _ _ _ hfw
      · rename_i he
        rw [he] at hw
        exact hw

end

/-- No event changes a register outside the rings' pages and the count of the error log. -/
theorem Chip.reg_raise (c : Chip) (e : Event) {a : Nat} (h : ¬ eventReg a) : (c.raise e).reg a = c.reg a :=
  (c.raise_eventFrame (M := fun _ => True) e (fun _ _ => trivial) fun _ _ => trivial).writes.regs a fun ha => h ha.eventReg

theorem Chip.q_raise (c : Chip) (e : Event) {f : RF} (h : ¬ eventReg f.addr) : (c.raise e).q f = c.q f :=
  congrArg (fun v => bits v f.lo f.wid) (c.reg_raise e h)

/-! ### The statement -/

/-- The chip without what an event writes. -/
def Chip.bare (c : Chip) : Chip :=
  { c with regs := [], mem := [], poison := [], own := [], filling := [], cores := [], rings := [], irqs := [], log := [], ledgerSeq := ⟨0, 0⟩, flash := Chip.reset.flash }

theorem eventPart_bare : EventPart Chip.bare := fun _ _ _ _ _ _ _ _ _ _ _ _ => rfl

theorem Chip.eq_of_bare {c d : Chip} (h : d.bare = c.bare) : d = { c with
    regs := d.regs, mem := d.mem, poison := d.poison, own := d.own, filling := d.filling, cores := d.cores, rings := d.rings,
    irqs := d.irqs, log := d.log, ledgerSeq := d.ledgerSeq, flash := d.flash } :=
  congrArg (fun x : Chip => { x with
    regs := d.regs, mem := d.mem, poison := d.poison, own := d.own, filling := d.filling, cores := d.cores, rings := d.rings,
    irqs := d.irqs, log := d.log, ledgerSeq := d.ledgerSeq, flash := d.flash }) h

/-- The bytes of a granted write are read back. -/
theorem Chip.load_store_same (c : Chip) (a : Nat) (bs : List Byte) (h : ∀ k, k < bs.length → holdsByte (a + k) = true) :
    (c.store a bs).load a bs.length = bs := by
  refine List.ext_getElem (by simp [Chip.load]) fun k _ hk => ?_
  simp only [Chip.load, List.getElem_map, List.getElem_range]
  rw [Chip.byte_store]
  exact c.byte_storeRaw_inside a bs k hk (h k hk)

/-! ### What an access check reads -/

/-- The registers that decide whether an access is granted: of the VI block the result and the records, of arrays,
benches and KV ledgers the first words, of the ports the fabric number and the outbound segments, of the security blocks
the debug state and its scope. -/
def accessReg (a : Nat) : Prop :=
  a = 0x1400014 ∨ (0x1404000 ≤ a ∧ a < 0x1406000) ∨ (0x300000 ≤ a ∧ a < 0x380000 ∧ a % 0x10000 < 0x20) ∨
    (0x400000 ≤ a ∧ a < 0x500000 ∧ a % 0x8000 < 0x20) ∨ (0x600000 ≤ a ∧ a < 0x700000 ∧ a % 0x80000 < 0x20) ∨
    (0x1200000 ≤ a ∧ a < 0x1300000 ∧ (a % 0x80000 = 4 ∨ (0x4100 ≤ a % 0x80000 ∧ a % 0x80000 < 0x4200))) ∨
    (0xF00000 ≤ a ∧ a < 0x1000000 ∧ (a % 0x80000 = 8 ∨ a % 0x80000 = 0x90))

/-- Two chips grant the same accesses: what decides on them is the same in both. -/
structure SameAccess (c d : Chip) : Prop where
  down : d.down = c.down
  own : d.own = c.own
  chg : d.ownChg = c.ownChg
  kv : d.kv = c.kv
  arrays : d.arrays = c.arrays
  regs : ∀ a, accessReg a → d.reg a = c.reg a

namespace SameAccess

variable {c d : Chip} (h : SameAccess c d)
include h

theorem q_eq {f : RF} (hf : accessReg f.addr) : d.q f = c.q f := congrArg (fun v => bits v f.lo f.wid) (h.regs _ hf)

theorem ownAt (i : Nat) : d.ownAt i = c.ownAt i := by
  unfold Chip.ownAt
  rw [h.own]

theorem building (o : Owner) : d.building o = c.building o := by
  have hi : o.inst < 256 := Nat.mod_lt _ (by decide)
  have hcmd (lo wid : Nat) : d.q ⟨Reg.VI_CMD_RESULT, lo, wid⟩ = c.q ⟨Reg.VI_CMD_RESULT, lo, wid⟩ :=
    h.q_eq (.inl rfl)
  have hrec : d.q F.VI_CMD_RESULT_RECORD = c.q F.VI_CMD_RESULT_RECORD := hcmd _ _
  have hop : d.q F.VI_CMD_RESULT_OP = c.q F.VI_CMD_RESULT_OP := hcmd _ _
  have hbusy : d.on F.VI_CMD_RESULT_BUSY = c.on F.VI_CMD_RESULT_BUSY := congrArg (· != 0) (hcmd _ _)
  unfold Chip.building
  dsimp only
  rw [hrec, hop, hbusy]
  by_cases heq : o.inst = c.q F.VI_CMD_RESULT_RECORD
  · have hst (lo wid : Nat) : d.q ⟨Reg.VI_INST_STATE o.inst, lo, wid⟩ = c.q ⟨Reg.VI_INST_STATE o.inst, lo, wid⟩ :=
      h.q_eq (by simp only [accessReg, Reg.VI_INST_STATE]; omega)
    rw [← heq]
    have hpart : d.q (F.VI_INST_STATE_PART o.inst) = c.q (F.VI_INST_STATE_PART o.inst) := hst _ _
    have hworld : d.q (F.VI_INST_STATE_WORLD o.inst) = c.q (F.VI_INST_STATE_WORLD o.inst) := hst _ _
    rw [hpart, hworld]
  · have hne : (o.inst == c.q F.VI_CMD_RESULT_RECORD) = false := by simpa using heq
    simp only [hne, Bool.and_false, Bool.false_and]

theorem kvReg (k : Half) (off lo wid : Nat) (hoff : off < 0x20) :
    d.q ⟨0x600000 + off + k.idx * 0x80000, lo, wid⟩ = c.q ⟨0x600000 + off + k.idx * 0x80000, lo, wid⟩ :=
  h.q_eq (by cases k <;> simp only [accessReg, Half.idx] <;> omega)

theorem kvPool (k : Half) : d.kvPool k = c.kvPool k := by
  have hlo : d.q (F.KVL_POOL_LO_BASE_LO k.idx) = c.q (F.KVL_POOL_LO_BASE_LO k.idx) := h.kvReg k 0x10 _ _ (by decide)
  have hhi : d.q (F.KVL_POOL_HI_BASE_HI k.idx) = c.q (F.KVL_POOL_HI_BASE_HI k.idx) := h.kvReg k 0x14 _ _ (by decide)
  have hgr : d.q (F.KVL_POOL_CFG_FRAME_GR k.idx) = c.q (F.KVL_POOL_CFG_FRAME_GR k.idx) := h.kvReg k 0x18 _ _ (by decide)
  have hn : d.q (F.KVL_POOL_CFG_FRAMES k.idx) = c.q (F.KVL_POOL_CFG_FRAMES k.idx) := h.kvReg k 0x18 _ _ (by decide)
  unfold Chip.kvPool
  rw [hlo, hhi, hgr, hn]

theorem frameOf (a : Nat) : d.frameOf a = c.frameOf a := by
  have hon (k : Half) : d.on (F.KVL_CTL_ENABLE k.idx) = c.on (F.KVL_CTL_ENABLE k.idx) :=
    congrArg (· != 0) (h.kvReg k 0x4 _ _ (by decide))
  simp only [Chip.frameOf, h.kvPool, hon]

theorem frame (k : Half) (n : Nat) : d.frame k n = c.frame k n := by
  unfold Chip.frame
  rw [h.kv]

theorem kvGrants (o : Owner) (a : Nat) : d.kvGrants o a = c.kvGrants o a := by
  simp only [Chip.kvGrants, h.frameOf, h.frame]

theorem typeGrants (o : Owner) (w : Bool) (a e : Nat) : d.typeGrants o w a e = c.typeGrants o w a e := by
  simp only [Chip.typeGrants, h.kvGrants]

theorem arrayReg {n : Nat} (hn : n < 8) (off lo wid : Nat) (hoff : off < 0x20) :
    d.q ⟨0x300000 + off + n * 0x10000, lo, wid⟩ = c.q ⟨0x300000 + off + n * 0x10000, lo, wid⟩ :=
  h.q_eq (by simp only [accessReg]; omega)

theorem benchReg {b : Nat} (hb : b < 32) (off lo wid : Nat) (hoff : off < 0x20) :
    d.q ⟨0x400000 + off + b * 0x8000, lo, wid⟩ = c.q ⟨0x400000 + off + b * 0x8000, lo, wid⟩ :=
  h.q_eq (by simp only [accessReg]; omega)

theorem sramGrants (o : Owner) {a : Nat} {u : Nat ⊕ Nat} (hu : sramUnit a = some u) : d.sramGrants o u = c.sramGrants o u := by
  have harr (n : Nat) : d.arr n = c.arr n := by
    unfold Chip.arr
    rw [h.arrays]
  unfold sramUnit at hu
  rcases u with n | b
  · have hn : n < 8 := by
      repeat' split at hu
      all_goals simp only [Option.some.injEq, Sum.inl.injEq, reduceCtorEq] at hu
      omega
    have hstat (lo wid : Nat) : d.q ⟨Reg.ARRAY_STATUS n, lo, wid⟩ = c.q ⟨Reg.ARRAY_STATUS n, lo, wid⟩ := h.arrayReg hn 0x8 lo wid (by decide)
    have hctl (lo wid : Nat) : d.q ⟨Reg.ARRAY_CTL n, lo, wid⟩ = c.q ⟨Reg.ARRAY_CTL n, lo, wid⟩ := h.arrayReg hn 0x4 lo wid (by decide)
    simp only [Chip.sramGrants, Chip.remapping, harr, Chip.on, F.ARRAY_STATUS_OWNER, F.ARRAY_STATUS_RETIRED, F.ARRAY_CTL_ENABLE,
      F.ARRAY_STATUS_SAVE_RESTORE, hstat, hctl]
  · have hb : b < 32 := by
      repeat' split at hu
      all_goals simp only [Option.some.injEq, Sum.inr.injEq, reduceCtorEq] at hu
      all_goals omega
    have hstat (lo wid : Nat) : d.q ⟨Reg.BENCH_STATUS b, lo, wid⟩ = c.q ⟨Reg.BENCH_STATUS b, lo, wid⟩ := h.benchReg hb 0x8 lo wid (by decide)
    have hctl (lo wid : Nat) : d.q ⟨Reg.BENCH_CTL b, lo, wid⟩ = c.q ⟨Reg.BENCH_CTL b, lo, wid⟩ := h.benchReg hb 0x4 lo wid (by decide)
    simp only [Chip.sramGrants, Chip.on, F.BENCH_STATUS_OWNER, F.BENCH_STATUS_RETIRED, F.BENCH_CTL_ENABLE,
      F.BENCH_STATUS_SAVE_RESTORE, hstat, hctl]

theorem segmentMapped (a : Nat) : d.segmentMapped a = c.segmentMapped a := by
  unfold Chip.segmentMapped
  refine congrArg (· != 0) (h.q_eq ?_)
  simp only [accessReg, F.PCIE_OB_MAP_LO_VALID, Reg.PCIE_OB_MAP_LO]
  split <;> omega

theorem cause (o : Owner) (w : Bool) (a : Nat) : d.cause o w a = c.cause o w a := by
  have hlost : d.addrLost a = c.addrLost a := by
    unfold Chip.addrLost
    rw [h.down]
  have hheld (i : Nat) : d.ownHeld i = c.ownHeld i := by
    unfold Chip.ownHeld
    rw [h.chg]
  have hup : d.firstUp = c.firstUp := by
    unfold Chip.firstUp
    rw [h.down]
  have hfabric (k : Half) : d.q (F.PEER_CTL_FABRIC_NO k.idx) = c.q (F.PEER_CTL_FABRIC_NO k.idx) :=
    h.q_eq (by cases k <;> (unfold accessReg; decide))
  unfold Chip.cause
  simp only [hlost, hheld, hup, hfabric, h.building, h.ownAt, h.frameOf, h.kvGrants, h.typeGrants, h.segmentMapped]
  cases hu : sramUnit a with
  | none => rfl
  | some u => simp only [h.sramGrants o hu]

theorem rangeCause_write (o : Owner) (a n : Nat) : d.rangeCause o true a n = c.rangeCause o true a n := by
  simp only [Chip.rangeCause, h.cause, if_true]

theorem portCause (i : Initiator) (w : Bool) (a : Nat) : d.portCause i w a = c.portCause i w a := by
  have hup : d.firstUp = c.firstUp := by
    unfold Chip.firstUp
    rw [h.down]
  have hdebug (k : Half) : d.q (F.SEC_STATUS_DEBUG k.idx) = c.q (F.SEC_STATUS_DEBUG k.idx) :=
    h.q_eq (by cases k <;> (unfold accessReg; decide))
  have hscope (k : Half) : d.q (F.SEC_DBG_SCOPE_SCOPE k.idx) = c.q (F.SEC_DBG_SCOPE_SCOPE k.idx) :=
    h.q_eq (by cases k <;> (unfold accessReg; decide))
  simp only [Chip.portCause, Chip.debugReaches, hup, hdebug, hscope, h.cause, h.ownAt]
  rfl

end SameAccess

/-- The writing of registers that no access check reads. -/
theorem SameAccess.of_regs {c d : Chip} {R B : Nat → Prop} (hd : d = { c with regs := d.regs }) (hw : WritesIn R B c d) (hR : ∀ a, accessReg a → ¬ R a) :
    SameAccess c d := by
  refine ⟨?_, ?_, ?_, ?_, ?_, fun a ha => hw.regs a (hR a ha)⟩ <;> rw [hd]

/-! ### A record that is written -/

/-- A pair of registers reads as the value last put into it. -/
theorem Chip.pair_setPair_same (c : Chip) {lo hi : Nat} (h : lo ≠ hi) (v : Nat) : (c.setPair lo hi v).pair lo hi = v % 2 ^ 64 := by
  have hlo : (c.setPair lo hi v).reg lo = v % 2 ^ 32 := by
    unfold Chip.setPair
    rw [Chip.reg_setReg_ne _ _ h, Chip.reg_setReg_same, Nat.mod_mod]
  have hhi : (c.setPair lo hi v).reg hi = v / 2 ^ 32 % 2 ^ 32 := by
    unfold Chip.setPair
    rw [Chip.reg_setReg_same, Nat.mod_mod]
  unfold Chip.pair
  rw [hlo, hhi]
  omega

theorem Chip.reg_setPair_ne (c : Chip) {lo hi a : Nat} (v : Nat) (hlo : a ≠ lo) (hhi : a ≠ hi) : (c.setPair lo hi v).reg a = c.reg a := by
  unfold Chip.setPair
  rw [Chip.reg_setReg_ne _ _ hhi, Chip.reg_setReg_ne _ _ hlo]

/-- The chip after a record's bytes are written at the tail of a ring with the given state (R249, R250). -/
def Chip.recorded (c : Chip) (r size : Nat) (x : RingSt) (bs : List Byte) : Chip :=
  (((((c.store (c.ringEntry r (c.reg (Reg.RING_TAIL r)) size) bs).setReg (Reg.RING_TAIL r) ((c.reg (Reg.RING_TAIL r) + 1) % 2 ^ 32)).countPair
    (Reg.RING_DONE_LO r) (Reg.RING_DONE_HI r) 1).setRingSt r { x with lost := 0, lostRun := false, written := x.written + 1 }).interrupt r)

/-- A willing, writable ring with room takes a record. -/
theorem Chip.writeRecord_written {c : Chip} {r size : Nat} {x : RingSt} {reserved : Bool} (mk : Nat → Nat → Nat → List Byte)
    (hx : c.ringSt? r = some x) (hdeaf : x.deaf = false) (hroom : (!reserved && c.ringFull r 0) = false)
    (hcause : c.rangeCause x.owner true (c.ringEntry r (c.reg (Reg.RING_TAIL r)) size) size = none) :
    c.writeRecord r size mk reserved = (.written, c.recorded r size x
      (mk ((x.written / 2 ^ c.q (F.RING_CFG_SIZE_LOG2 r) + 1) % 2) (c.reg (Reg.RING_TAIL r)) x.lost)) := by
  unfold Chip.writeRecord
  rw [hx]
  dsimp only
  rw [if_neg (by simp [hdeaf]), if_neg (by simp [hroom])]
  simp only [hcause]
  rfl

section
variable (c : Chip) (r size : Nat) (x : RingSt) (bs : List Byte)

theorem Chip.recorded_byte (a : Nat) :
    (c.recorded r size x bs).byte a = (c.store (c.ringEntry r (c.reg (Reg.RING_TAIL r)) size) bs).byte a := by
  have keep {γ : Type} (f : Chip → γ) (hf : ∀ c i x s, f { c with irqs := i, regs := x, rings := s } = f c) :
      f (c.recorded r size x bs) = f (c.store (c.ringEntry r (c.reg (Reg.RING_TAIL r)) size) bs) := by
    unfold Chip.recorded
    refine (Chip.interrupt_keeps _ f (fun c y => hf c y c.regs c.rings) r).trans ?_
    refine (Chip.setRingSt_keeps f (fun c y => hf c c.irqs c.regs y) _ _ _).trans ?_
    have hreg := Chip.setReg_keeps f (fun c y => hf c c.irqs y c.rings)
    exact (hreg _ _ _).trans ((hreg _ _ _).trans (hreg _ _ _))
  exact Chip.byte_of_mem (keep Chip.mem fun _ _ _ _ => rfl) (keep Chip.garbled fun _ _ _ _ => rfl) (keep Chip.freeCnt fun _ _ _ _ => rfl) a

/-- The record's bytes are read back. -/
theorem Chip.recorded_load (hlen : bs.length = size)
    (h : ∀ k, k < size → holdsByte (c.ringEntry r (c.reg (Reg.RING_TAIL r)) size + k) = true) :
    (c.recorded r size x bs).load (c.ringEntry r (c.reg (Reg.RING_TAIL r)) size) size = bs := by
  subst hlen
  have hload : (c.recorded r bs.length x bs).load (c.ringEntry r (c.reg (Reg.RING_TAIL r)) bs.length) bs.length =
      (c.store (c.ringEntry r (c.reg (Reg.RING_TAIL r)) bs.length) bs).load (c.ringEntry r (c.reg (Reg.RING_TAIL r)) bs.length) bs.length := by
    simp only [Chip.load, Chip.recorded_byte]
  rw [hload]
  exact Chip.load_store_same c _ bs h

theorem Chip.recorded_reg (a : Nat) : (c.recorded r size x bs).reg a =
    (((c.store (c.ringEntry r (c.reg (Reg.RING_TAIL r)) size) bs).setReg (Reg.RING_TAIL r) ((c.reg (Reg.RING_TAIL r) + 1) % 2 ^ 32)).countPair
      (Reg.RING_DONE_LO r) (Reg.RING_DONE_HI r) 1).reg a :=
  Chip.reg_of_regs ((Chip.interrupt_keeps _ Chip.regs (fun _ _ => rfl) r).trans (Chip.setRingSt_regs _ _ _)) a

theorem Chip.recorded_tail : (c.recorded r size x bs).reg (Reg.RING_TAIL r) = (c.reg (Reg.RING_TAIL r) + 1) % 2 ^ 32 := by
  rw [Chip.recorded_reg, Chip.countPair, Chip.reg_setPair_ne, Chip.reg_setReg_same, Nat.mod_mod]
  · simp only [Reg.RING_TAIL, Reg.RING_DONE_LO]
    omega
  · simp only [Reg.RING_TAIL, Reg.RING_DONE_HI]
    omega

theorem Chip.recorded_done : (c.recorded r size x bs).pair (Reg.RING_DONE_LO r) (Reg.RING_DONE_HI r) =
    min (c.pair (Reg.RING_DONE_LO r) (Reg.RING_DONE_HI r) + 1) (2 ^ 64 - 1) := by
  have hlo : Reg.RING_DONE_LO r ≠ Reg.RING_TAIL r := by simp only [Reg.RING_TAIL, Reg.RING_DONE_LO]; omega
  have hhi : Reg.RING_DONE_HI r ≠ Reg.RING_TAIL r := by simp only [Reg.RING_TAIL, Reg.RING_DONE_HI]; omega
  have hne : Reg.RING_DONE_LO r ≠ Reg.RING_DONE_HI r := by simp only [Reg.RING_DONE_LO, Reg.RING_DONE_HI]; omega
  have hpair : (c.recorded r size x bs).pair (Reg.RING_DONE_LO r) (Reg.RING_DONE_HI r) = _ :=
    congrArg₂ (fun u v => u + v * 2 ^ 32) (c.recorded_reg r size x bs _) (c.recorded_reg r size x bs _)
  refine hpair.trans ((Chip.pair_setPair_same _ hne _).trans ?_)
  unfold Chip.pair
  rw [Chip.reg_setReg_ne _ _ hlo, Chip.reg_setReg_ne _ _ hhi, Chip.reg_of_regs (c.store_regs _ bs), Chip.reg_of_regs (c.store_regs _ bs)]
  omega

end

/-! ### What the error log leaves alone -/

theorem Chip.logEvent_keeps {γ : Type} (f : Chip → γ) (hf : ∀ c l w s x, f { c with log := l, flash := w, ledgerSeq := s, regs := x } = f c)
    (c : Chip) (e : Event) : f (c.logEvent e) = f c := by
  have hledger (c : Chip) (h : Half) (k : Nat) (b : List Byte) (s : List (Nat × Nat)) : f (c.ledger h k b s) = f c := by
    unfold Chip.ledger
    dsimp only
    refine (foldl_keeps f _ (fun x y => ?_) _ _).trans (hf c c.log c.flash _ c.regs)
    split
    · rfl
    · exact hf x x.log _ x.ledgerSeq x.regs
  unfold Chip.logEvent
  split
  · rfl
  · exact (hledger _ _ _ _ _).trans ((Chip.inc_keeps f (fun c y => hf c c.log c.flash c.ledgerSeq y) _ _).trans
      (hf c _ c.flash c.ledgerSeq c.regs))

/-- Only the count of the error log changes among the registers. -/
theorem Chip.reg_logEvent (c : Chip) (e : Event) {a : Nat} (h : a ≠ Reg.WEAR_LOG_CNT) : (c.logEvent e).reg a = c.reg a :=
  (Chip.logEvent_eventFrame (M := fun _ => False) c e).writes.regs a fun ha => ha.elim h fun ⟨_, hr, _⟩ => hr

theorem Chip.q_logEvent (c : Chip) (e : Event) {f : RF} (h : f.addr ≠ Reg.WEAR_LOG_CNT) : (c.logEvent e).q f = c.q f :=
  congrArg (fun v => bits v f.lo f.wid) (c.reg_logEvent e h)

theorem Chip.logEvent_sameAccess (c : Chip) (e : Event) : SameAccess c (c.logEvent e) where
  down := Chip.logEvent_keeps Chip.down (fun _ _ _ _ _ => rfl) c e
  own := Chip.logEvent_keeps Chip.own (fun _ _ _ _ _ => rfl) c e
  chg := Chip.logEvent_keeps Chip.ownChg (fun _ _ _ _ _ => rfl) c e
  kv := Chip.logEvent_keeps Chip.kv (fun _ _ _ _ _ => rfl) c e
  arrays := Chip.logEvent_keeps Chip.arrays (fun _ _ _ _ _ => rfl) c e
  regs _ ha := c.reg_logEvent e (by simp only [accessReg, Reg.WEAR_LOG_CNT] at *; omega)

theorem Chip.defaultEq_logEvent (c : Chip) (e : Event) (o : Owner) : (c.logEvent e).defaultEq o = c.defaultEq o := by
  have hcfg (r lo wid : Nat) : (c.logEvent e).q ⟨Reg.RING_CFG r, lo, wid⟩ = c.q ⟨Reg.RING_CFG r, lo, wid⟩ :=
    c.q_logEvent e (by simp only [Reg.RING_CFG, Reg.WEAR_LOG_CNT]; omega)
  unfold Chip.defaultEq
  simp only [Chip.on, F.RING_CFG_KIND, F.RING_CFG_DEFAULT_EQ, hcfg, Chip.logEvent_keeps Chip.rings (fun _ _ _ _ _ => rfl) c e]

theorem Chip.ringSt?_logEvent (c : Chip) (e : Event) (r : Nat) : (c.logEvent e).ringSt? r = c.ringSt? r :=
  Chip.logEvent_keeps (fun x => x.ringSt? r) (fun _ _ _ _ _ => rfl) c e

theorem Chip.q_ring_logEvent (c : Chip) (e : Event) {f : RF} (h : 0x10000000 ≤ f.addr) : (c.logEvent e).q f = c.q f :=
  c.q_logEvent e fun heq => absurd (heq ▸ h) (by decide)

theorem Chip.ringEntry_logEvent (c : Chip) (e : Event) (r idx size : Nat) : (c.logEvent e).ringEntry r idx size = c.ringEntry r idx size := by
  have hlo := c.q_ring_logEvent e (f := F.RING_BASE_LO_BASE r) (Nat.le_add_right_of_le (by decide))
  have hhi := c.q_ring_logEvent e (f := F.RING_BASE_HI_BASE r) (Nat.le_add_right_of_le (by decide))
  have hsize := c.q_ring_logEvent e (f := F.RING_CFG_SIZE_LOG2 r) (Nat.le_add_right_of_le (by decide))
  unfold Chip.ringEntry
  rw [hlo, hhi, hsize]

theorem Chip.ringFull_logEvent (c : Chip) (e : Event) (r n : Nat) : (c.logEvent e).ringFull r n = c.ringFull r n := by
  have hsize := c.q_ring_logEvent e (f := F.RING_CFG_SIZE_LOG2 r) (Nat.le_add_right_of_le (by decide))
  have htail : (c.logEvent e).reg (Reg.RING_TAIL r) = c.reg (Reg.RING_TAIL r) :=
    c.reg_logEvent e (by simp only [Reg.RING_TAIL, Reg.WEAR_LOG_CNT]; omega)
  have hhead : (c.logEvent e).reg (Reg.RING_HEAD r) = c.reg (Reg.RING_HEAD r) :=
    c.reg_logEvent e (by simp only [Reg.RING_HEAD, Reg.WEAR_LOG_CNT]; omega)
  simp only [Chip.ringFull, hsize, htail, hhead]

/-! ### The statement -/

theorem holdsByte_of {a : Nat} (hw : inWindow a = false) (ha : 0x40000000 ≤ a) : holdsByte a = true := by
  simp only [holdsByte, hw, ha, Bool.not_false, Bool.true_and, decide_true]

theorem Chip.ev_eq_raiseFw (c : Chip) (h : Half) (code : Nat) (d : List Nat) :
    c.ev h code d = (c.logEvent ⟨h, code, none, none, d⟩).raiseFw ⟨h, code, none, none, d⟩ := by
  unfold Chip.ev Chip.raise
  have hparty (x : Chip) : x.partyEq ⟨h, code, none, none, d⟩ = none := rfl
  simp only [hparty]

/-- Firmware's default event ring, willing, with room and writable, takes the record of an event. -/
theorem Chip.raiseFw_recorded {c : Chip} {r : Nat} {x : RingSt} (e : Event) (hr : c.defaultEq 0 = some r)
    (hx : c.ringSt? r = some x) (hdeaf : x.deaf = false) (hroom : c.ringFull r 0 = false)
    (hcause : c.rangeCause x.owner true (c.ringEntry r (c.reg (Reg.RING_TAIL r)) 64) 64 = none) :
    c.raiseFw e = c.recorded r 64 x (e.bytes (c.stamp e.half 0)
      ((x.written / 2 ^ c.q (F.RING_CFG_SIZE_LOG2 r) + 1) % 2) (c.reg (Reg.RING_TAIL r)) x.lost) := by
  have hw := Chip.writeRecord_written (reserved := false) (fun p s l => e.bytes (c.stamp e.half 0) p s l) hx hdeaf
    (by rw [hroom]; rfl) hcause
  unfold Chip.raiseFw
  simp only [hr, hw]

/-- Settles O24: an event writes records to firmware's default event ring and to the ring of the party it names, and its
entry to the error log; firmware's ring takes the record of an event without a party. -/
theorem eventsWritten : Obligations.EventsWritten := by
  unfold Obligations.EventsWritten
  refine ⟨fun c e => ?_, fun c h code r d x hr hx hdeaf hroom => ?_⟩
  · have hframe := c.raise_eventFrame (M := fun r => c.defaultEq 0 = some r ∨ c.partyEq e = some r) e (fun _ => .inl) fun _ => .inr
    have hw := hframe.writes.mono (R' := fun a => a = Reg.WEAR_LOG_CNT ∨ ∃ r, (c.defaultEq 0 = some r ∨ c.partyEq e = some r) ∧
        (a = Reg.RING_TAIL r ∨ a = Reg.RING_STATUS r ∨ a = Reg.RING_DONE_LO r ∨ a = Reg.RING_DONE_HI r))
      (fun a ha => ha.imp_right fun ⟨r, hr, ha⟩ => ⟨r, hr, ha.2⟩) fun _ => id
    exact ⟨hw.regs, hw.bytes, Chip.eq_of_bare (eventPart_bare.raise c e)⟩
  · intro tail a hcause hwin hlow
    rw [c.ev_eq_raiseFw]
    generalize he : (⟨h, code, none, none, d⟩ : Event) = e
    have hhalf : e.half = h := he ▸ rfl
    have htail : (c.logEvent e).reg (Reg.RING_TAIL r) = tail := c.reg_logEvent e (by simp only [Reg.RING_TAIL, Reg.WEAR_LOG_CNT]; omega)
    have hsize : (c.logEvent e).q (F.RING_CFG_SIZE_LOG2 r) = c.q (F.RING_CFG_SIZE_LOG2 r) :=
      c.q_ring_logEvent e (Nat.le_add_right_of_le (by decide))
    have hstamp : (c.logEvent e).stamp e.half 0 = c.stamp h 0 :=
      hhalf ▸ Chip.logEvent_keeps (fun x => x.stamp e.half 0) (fun _ _ _ _ _ => rfl) c e
    have hentry : (c.logEvent e).ringEntry r ((c.logEvent e).reg (Reg.RING_TAIL r)) 64 = a := by
      rw [htail, Chip.ringEntry_logEvent]
    rw [Chip.raiseFw_recorded e ((c.defaultEq_logEvent e 0).trans hr) ((c.ringSt?_logEvent e r).trans hx) hdeaf
      ((c.ringFull_logEvent e r 0).trans hroom) (by rw [hentry, (c.logEvent_sameAccess e).rangeCause_write, hcause])]
    refine ⟨?_, ?_, ?_⟩
    · have hload := (c.logEvent e).recorded_load r 64 x _ (e.bytes_length ((c.logEvent e).stamp e.half 0)
        ((x.written / 2 ^ (c.logEvent e).q (F.RING_CFG_SIZE_LOG2 r) + 1) % 2) ((c.logEvent e).reg (Reg.RING_TAIL r)) x.lost)
        (fun k hk => by rw [hentry]; exact holdsByte_of (hwin k hk) (by omega))
      rw [hentry] at hload
      rw [hload, htail, hsize, hstamp]
    · rw [Chip.recorded_tail, htail]
    · rw [Chip.recorded_done]
      unfold Chip.pair
      rw [c.reg_logEvent e (by simp only [Reg.RING_DONE_LO, Reg.WEAR_LOG_CNT]; omega),
        c.reg_logEvent e (by simp only [Reg.RING_DONE_HI, Reg.WEAR_LOG_CNT]; omega)]

end Machine

end Sys2Proof

/-! PROOF. Completions (R249): the frame stated for them fails where the table of ring states is not in the order of its
keys. Releasing the completion ring's reservation lists that ring anew, ahead of firmware's default event ring, and the
event that the refused signal raises goes to the completion ring's memory. -/

namespace Sys2Proof

namespace Machine

/-- The state of a ring of firmware's that has one entry reserved. -/
def reservedRing : RingSt :=
  { owner := 0, heldClear := false, deaf := false, resv := 1, lost := 0, lostRun := false, written := 0, deafAt := (0, 0) }

/-- Two rings that could each be firmware's default event ring, listed against the order of their numbers: ring 5 of one
entry, ring 3 of two entries at the start of DRAM. -/
def unorderedRings : Chip :=
  { Chip.reset with
    rings := [(5, reservedRing), (3, reservedRing)]
    regs := [(Reg.RING_CFG 3, BitVec.ofNat 32 (2 ^ 30 + 2 ^ 16 + 3)), (Reg.RING_BASE_HI 3, 0x10), (Reg.RING_CFG 5, BitVec.ofNat 32 (2 ^ 30 + 3))] }

/-- A command of ring 0 that completes to ring 3 and signals dowel 0, for which its party has no right. -/
def signallingCmd : Cmd :=
  { id := { ring := 0, seq := 0 }, words := [0x800], owner := 1, cls := 0, lowered := false, cq := 3, half := .H, unit := 0, stage := .queued,
    clamped := false, late := false, spare := false, doubt := false, empty := false, ended := none, n := 0, bytes := 0, aux := [] }

/-- The first byte of the second event record that ring 3 would hold, beyond its two completion records. -/
def strayByte : Nat := 0x1000000040

theorem defaultEq_unorderedRings : unorderedRings.defaultEq 0 = some 5 := by decide +kernel

theorem linkEq_unorderedRings : unorderedRings.q (F.RING_LINK_EQ signallingCmd.id.ring) = 0 := by decide +kernel

theorem byte_complete_unorderedRings : (unorderedRings.completeWith signallingCmd false 0 0).byte strayByte = 9 := by decide +kernel

theorem byte_unorderedRings : unorderedRings.byte strayByte = 0 := by decide +kernel

/-- The byte lies in no memory that the statement admits. -/
theorem strayByte_outside : ¬ (unorderedRings.inRing signallingCmd.cq 32 strayByte ∨
    ∃ r, (unorderedRings.defaultEq 0 = some r ∨ unorderedRings.q (F.RING_LINK_EQ signallingCmd.id.ring) = r) ∧ unorderedRings.inRing r 64 strayByte) := by
  rintro (hcq | ⟨r, hr, hin⟩)
  · unfold Chip.inRing at hcq
    revert hcq
    decide +kernel
  · rw [defaultEq_unorderedRings, linkEq_unorderedRings, Option.some.injEq] at hr
    unfold Chip.inRing at hin
    rcases hr with rfl | rfl
    · revert hin
      decide +kernel
    · revert hin
      decide +kernel

/-- Refutes O25: the statement asks nothing of the table of ring states, and out of order it lets an event of the
completion be written beyond the completion ring's records, in no ring that the statement admits. -/
theorem not_completionsWritten : ¬ Obligations.CompletionsWritten := by
  unfold Obligations.CompletionsWritten
  intro h
  obtain ⟨-, hbytes, -⟩ := h.1 unorderedRings signallingCmd false 0 0
  have hsame := hbytes strayByte (by decide) strayByte_outside
  rw [byte_complete_unorderedRings, byte_unorderedRings] at hsame
  exact absurd hsame (by decide)

end Machine

end Sys2Proof

/-! PROOF. Steps, idle cycles and reset. -/

namespace Sys2Proof

namespace Machine

/-- Settles O1, by the definition of a step. -/
theorem stepRunsFront : Obligations.StepRunsFront := by
  unfold Obligations.StepRunsFront
  intro i rest s
  rfl

/-- Settles O4: the tables after reset list nothing, and no command waits. -/
theorem resetSafe : Obligations.ResetSafe := by
  unfold Obligations.ResetSafe
  refine ⟨?_, fun i hi => absurd hi List.not_mem_nil⟩
  unfold Chip.canonical
  rw [show State.reset.chip = Chip.reset from rfl, reset_memWf, reset_regsWf, reset_ownWf]
  rfl

/-! ### A cycle of the time domain -/

theorem Chip.noteBlocked_keeps {γ : Type} (f : Chip → γ) (hf : ∀ c y, f { c with blockedAt := y } = f c) (c : Chip) :
    f c.noteBlocked = f c := by
  unfold Chip.noteBlocked
  refine foldl_keeps f _ (fun x e => ?_) _ _
  dsimp only
  split
  · split
    · exact hf x _
    · split
      · exact hf x _
      · rfl
  · exact hf x _

theorem Chip.tickHalf_keeps {γ : Type} (f : Chip → γ) (hf : ∀ c x y, f { c with time := x, tb := y } = f c) (c : Chip) (h : Half) :
    f (c.tickHalf h) = f c := by
  unfold Chip.tickHalf
  split
  · rfl
  · exact hf c _ _

/-- Besides the cycles of the halves a cycle counts the time in operation. -/
theorem Chip.tick_halves {γ : Type} (f : Chip → γ) (hf : ∀ c n, f { c with opTime := n } = f c) (c : Chip) :
    f c.tick = f ((c.tickHalf .H).tickHalf .T) := by
  unfold Chip.tick
  dsimp only
  split
  · exact hf _ _
  · rfl

theorem Chip.tick_keeps {γ : Type} (f : Chip → γ) (hf : ∀ c x y n, f { c with time := x, tb := y, opTime := n } = f c) (c : Chip) :
    f c.tick = f c :=
  (Chip.tick_halves f (fun c n => hf c c.time c.tb n) c).trans
    ((Chip.tickHalf_keeps f (fun c x y => hf c x y c.opTime) _ _).trans (Chip.tickHalf_keeps f (fun c x y => hf c x y c.opTime) _ _))

/-- A cycle changes notes of blocked contexts, time bases and the time in operation alone. -/
theorem Chip.pass_keeps {γ : Type} (f : Chip → γ) (hf : ∀ c b x y n, f { c with blockedAt := b, time := x, tb := y, opTime := n } = f c) (c : Chip) :
    f c.pass = f c :=
  (Chip.tick_keeps f (fun c x y n => hf c c.blockedAt x y n) _).trans
    (Chip.noteBlocked_keeps f (fun c b => hf c b c.time c.tb c.opTime) c)

/-- A half that is not down counts its cycle, and the other half's count stays. -/
theorem Chip.cycles_tickHalf (c : Chip) (h k : Half) :
    ((c.tickHalf h).timeOf k).cycles = (c.timeOf k).cycles + if h = k ∧ c.down.get k = false then 1 else 0 := by
  unfold Chip.tickHalf
  by_cases hdown : c.down.get h = true
  · rw [if_pos hdown, if_neg (by rintro ⟨rfl, hk⟩; simp [hdown] at hk), Nat.add_zero]
  · rw [if_neg hdown]
    change ((c.time.set h { c.timeOf h with cycles := (c.timeOf h).cycles + 1 }).get k).cycles = _
    by_cases hk : h = k
    · subst hk
      rw [Pair.get_set_same, if_pos ⟨rfl, by simpa using hdown⟩]
    · obtain rfl : k = h.other := by cases h <;> cases k <;> simp_all [Half.other]
      rw [Pair.get_set_other, if_neg fun hk' => hk hk'.1]
      rfl

theorem Chip.cycles_pass (c : Chip) (h : Half) : (c.pass.timeOf h).cycles = (c.timeOf h).cycles + if c.down.get h then 0 else 1 := by
  have htick (x : Chip) : x.tick.timeOf h = ((x.tickHalf .H).tickHalf .T).timeOf h :=
    Chip.tick_halves (fun x => x.timeOf h) (fun _ _ => rfl) x
  have hdown (x : Chip) (k : Half) : (x.tickHalf k).down = x.down := Chip.tickHalf_keeps Chip.down (fun _ _ _ => rfl) x k
  have htime : c.noteBlocked.timeOf h = c.timeOf h := Chip.noteBlocked_keeps (fun x => x.timeOf h) (fun _ _ => rfl) c
  have hdown' : c.noteBlocked.down = c.down := Chip.noteBlocked_keeps Chip.down (fun _ _ => rfl) c
  unfold Chip.pass
  rw [htick, Chip.cycles_tickHalf, Chip.cycles_tickHalf, hdown, hdown', htime]
  cases h <;> cases c.down.get _ <;> simp

/-- Settles O2: a cycle with no command waiting steps the time bases. -/
theorem idleCycle : Obligations.IdleCycle := by
  unfold Obligations.IdleCycle
  intro s hempty
  refine ⟨s.chip.pass, ?_, (s.withChip_pending _).trans hempty, Chip.pass_keeps Chip.regs (fun _ _ _ _ _ => rfl) _, Chip.pass_keeps Chip.mem (fun _ _ _ _ _ => rfl) _,
    Chip.pass_keeps Chip.own (fun _ _ _ _ _ => rfl) _, Chip.pass_keeps Chip.cmds (fun _ _ _ _ _ => rfl) _,
    Chip.pass_keeps Chip.rings (fun _ _ _ _ _ => rfl) _, s.chip.cycles_pass⟩
  unfold step State.withChip
  rw [hempty]

end Machine

end Sys2Proof

/-! PROOF. A gouge core runs an instruction of the standard extensions. -/

namespace Sys2Proof

namespace Machine

theorem State.go_eq (s : State) (c : Chip) : s.go c = .next (s.withChip c) := rfl

/-! ### The registers of a core -/

theorem Core.xr_past (x : Core) (n r : Nat) : (x.past n).xr r = x.xr r := rfl

/-- A register reads as the 64 bits last written to it, x0 as 0. -/
theorem Core.xr_xw (x : Core) (i v r : Nat) : (x.xw i v).xr r = if r = i ∧ r ≠ 0 then v % 2 ^ 64 else x.xr r := by
  by_cases hi : i = 0
  · subst hi
    rw [Core.xw, if_pos rfl, if_neg (by omega)]
  · unfold Core.xw Core.xr
    rw [if_neg hi]
    by_cases hr : r = 0
    · rw [if_pos hr, if_neg (by omega)]
      simp [hr]
    · rw [if_neg hr]
      by_cases hri : r = i
      · subst hri
        rw [Tbl.look_put_same, BitVec.toNat_ofNat, if_pos ⟨rfl, hr⟩]
      · rw [Tbl.look_put_ne _ _ _ _ hri, if_neg (by omega), if_neg hr]

theorem Core.xw_frame (x : Core) (i v : Nat) : x.xw i v = { x with x := (x.xw i v).x } := by
  unfold Core.xw
  split <;> rfl

/-! ### One instruction -/

/-- A word that is none of Darienor's instructions executes as the standard extensions say. -/
theorem Chip.instrStep_of_word {c : Chip} {b k w : Nat} (hfetch : c.fetchAt b k (c.core b k).pc = some (w, 4)) (hd : isDarienor w = false) :
    c.instrStep b k = (c.exWord (c.core b k) b k w 4).apply b k := by
  unfold Chip.instrStep
  simp only [hfetch, hd, Bool.false_eq_true, and_false, if_false]
  rfl

theorem exec_gougeInstruction_of_word {b : Fin 32} {k : Fin 60} {w : Nat} {s : State} (hruns : s.chip.coreRuns b k = true)
    (hfetch : s.chip.fetchAt b k (s.chip.core b k).pc = some (w, 4)) (hd : isDarienor w = false) :
    exec (.gougeInstruction b k .clean) s = .next (s.withChip ((s.chip.exWord (s.chip.core b k) b k w 4).apply b k)) := by
  change execGougeInstruction b k .clean s = _
  unfold execGougeInstruction
  rw [if_neg (by simp [hruns])]
  exact congrArg s.go (Chip.instrStep_of_word hfetch hd)

/-- The register-immediate addition (opcode 0x13, function 0). -/
theorem Chip.exWord_addi (c : Chip) (x : Core) (b k : Nat) {w : Nat} (hop : w % 128 = 0x13) (hf : insF3 w = 0) :
    c.exWord x b k w 4 = .ok c ((x.xw (insRd w) (add64 (x.xr (insRs1 w)) (immI w))).past 4) := by
  have himm (a : Nat) : exOpImm true w a = some (add64 a (immI w)) := by
    unfold exOpImm
    simp only [hf]
    rfl
  unfold Chip.exWord Chip.exInt
  simp only [hop, himm]

/-- Settles O11: any other word executes as `exWord` says; the register-immediate addition writes one register and
moves on. -/
theorem gougeBase : Obligations.GougeBase := by
  unfold Obligations.GougeBase
  refine ⟨fun b k w s hruns hfetch hd => exec_gougeInstruction_of_word hruns hfetch hd, fun b k w s hruns hfetch hop hf => ?_⟩
  intro x
  have hd : isDarienor w = false := by simp [isDarienor, hop]
  refine ⟨(x.xw (insRd w) (add64 (x.xr (insRs1 w)) (immI w))).past 4, ?_, fun r _ => ?_, ?_, ?_, ?_⟩
  · rw [exec_gougeInstruction_of_word hruns hfetch hd, Chip.exWord_addi _ _ _ _ hop hf]
    rfl
  · rw [Core.xr_past, Core.xr_xw, add64, Nat.mod_mod]
  all_goals
    unfold Core.past
    rw [Core.xw_frame]

end Machine

end Sys2Proof

/-! PROOF. Fields of a payload (R400): the bits of a field are distinct in either bit order, and a bit that is put is read
back and disturbs no other; so is a field. -/

namespace Sys2Proof

namespace Machine

/-! ### One bit of a number -/

theorem bit_eq_testBit (m n : Nat) : bit m n = m.testBit n := by
  rw [Nat.testBit_eq_decide_div_mod_eq]
  rfl

theorem bits_one (m n : Nat) : bits m n 1 = b2n (bit m n) := by
  unfold bits bit b2n
  rcases Nat.mod_two_eq_zero_or_one (m / 2 ^ n) with h | h <;> simp [h]

/-- The number around the bit that is set. -/
theorem setBit_eq (m n : Nat) (v : Bool) : setBit m n v = 2 ^ n * (2 * (m / 2 ^ (n + 1)) + b2n v) + m % 2 ^ n := by
  have hv : b2n v % 2 ^ 1 = b2n v := by cases v <;> rfl
  have hput := field_put m n 1 (b2n v)
  rw [bits_one, hv] at hput
  unfold setBit
  rw [Nat.mul_comm (2 ^ n) (b2n (bit m n)), Nat.mul_comm (2 ^ n) (b2n v), hput, pow_succ]
  ring

theorem testBit_setBit (m n k : Nat) (v : Bool) : (setBit m n v).testBit k = if k = n then v else m.testBit k := by
  rw [setBit_eq, Nat.testBit_two_pow_mul_add _ (Nat.mod_lt _ (Nat.two_pow_pos n))]
  rcases Nat.lt_trichotomy k n with hlt | rfl | hgt
  · rw [if_pos hlt, if_neg (Nat.ne_of_lt hlt), Nat.testBit_mod_two_pow]
    simp [hlt]
  · rw [if_neg (Nat.lt_irrefl k), if_pos rfl, Nat.sub_self, Nat.testBit_zero]
    cases v <;> simp [b2n]
  · obtain ⟨j, rfl⟩ := Nat.exists_eq_add_of_lt hgt
    have hhalf : (2 * (m / 2 ^ (n + 1)) + b2n v) / 2 = m / 2 ^ (n + 1) := by
      have hv : b2n v < 2 := by cases v <;> decide
      omega
    rw [if_neg (by omega), if_neg (by omega), show n + j + 1 - n = j + 1 by omega, Nat.testBit_succ, hhalf, Nat.testBit_div_two_pow]
    congr 1
    omega

/-- The bits of a number, weighted, give it modulo two to their count. -/
theorem sum_bits (v n : Nat) : ((List.range n).map fun i => 2 ^ i * b2n (bit v i)).sum = v % 2 ^ n := by
  induction n with
  | zero => simp [Nat.mod_one]
  | succ n ih =>
    rw [List.range_succ, List.map_append, List.sum_append, ih, Nat.mod_pow_succ]
    simp [← bits_one, bits]

/-! ### One bit of a payload -/

/-- The payload with a bit put. -/
def putBit (d : List Byte) (b : Nat) (v : Bool) : List Byte :=
  match d[b / 8]? with
  | some x => d.set (b / 8) (BitVec.ofNat 8 (setBit x.toNat (b % 8) v))
  | none => d

theorem packField_eq (d : List Byte) (start n : Nat) (be : Bool) (v : Nat) : packField d start n be v =
    (if be then (fieldBits be n start).reverse else fieldBits be n start).zipIdx.foldl (fun d p => putBit d p.1 (bit v p.2)) d := rfl

@[simp] theorem putBit_length (d : List Byte) (b : Nat) (v : Bool) : (putBit d b v).length = d.length := by
  unfold putBit
  split
  · exact List.length_set
  · rfl

theorem payloadBit_putBit (draw : Nat) (d : List Byte) (b k : Nat) (v : Bool) (hb : b < 8 * d.length) :
    payloadBit draw (putBit d b v) k = if k = b then v else payloadBit draw d k := by
  have hlt : b / 8 < d.length := by omega
  have hput : putBit d b v = d.set (b / 8) (BitVec.ofNat 8 (setBit d[b / 8].toNat (b % 8) v)) := by
    unfold putBit
    simp only [List.getElem?_eq_getElem hlt]
  unfold payloadBit
  rw [hput, bit_eq_testBit, bit_eq_testBit]
  by_cases hbyte : k / 8 = b / 8
  · rw [hbyte, List.getD_eq_getElem _ _ (by simpa using hlt), List.getD_eq_getElem _ _ hlt, List.getElem_set_self, BitVec.toNat_ofNat,
      Nat.testBit_mod_two_pow, testBit_setBit]
    have hk : k % 8 < 8 := Nat.mod_lt _ (by decide)
    have hiff : k % 8 = b % 8 ↔ k = b := by omega
    simp only [hk, decide_true, Bool.true_and, hiff]
  · have hne : k ≠ b := fun h => hbyte (h ▸ rfl)
    rw [if_neg hne, List.getD_eq_getElem?_getD, List.getElem?_set_ne (Ne.symm hbyte), ← List.getD_eq_getElem?_getD]

/-! ### Several bits of a payload -/

/-- Distinct bits put one after another are read back, and no other bit is disturbed. -/
theorem payloadBit_putBits (draw v : Nat) (l : List (Nat × Nat)) (d : List Byte) (hnodup : (l.map (·.1)).Nodup)
    (hin : ∀ p ∈ l, p.1 < 8 * d.length) :
    let e := l.foldl (fun d p => putBit d p.1 (bit v p.2)) d
    e.length = d.length ∧ (∀ p ∈ l, payloadBit draw e p.1 = bit v p.2) ∧
      ∀ k, k ∉ l.map (·.1) → payloadBit draw e k = payloadBit draw d k := by
  induction l generalizing d with
  | nil => simp
  | cons p l ih =>
    rw [List.map_cons, List.nodup_cons] at hnodup
    obtain ⟨hp, hl⟩ := hnodup
    have hbit := hin p List.mem_cons_self
    obtain ⟨hlen, hsame, hother⟩ := ih (putBit d p.1 (bit v p.2)) hl fun q hq => by
      rw [putBit_length]
      exact hin q (List.mem_cons_of_mem _ hq)
    refine ⟨hlen.trans (putBit_length ..), fun q hq => ?_, fun k hk => ?_⟩
    · rcases List.mem_cons.1 hq with rfl | hq
      · exact (hother _ hp).trans (by rw [payloadBit_putBit _ _ _ _ _ hbit, if_pos rfl])
      · exact hsame q hq
    · rw [List.map_cons, List.mem_cons, not_or] at hk
      exact (hother k hk.2).trans (by rw [payloadBit_putBit _ _ _ _ _ hbit, if_neg hk.1])

/-! ### The bits of a field -/

/-- The place of a payload bit in the order of a byte order. -/
def bitPlace (be : Bool) (b : Nat) : Nat := if be then 8 * (b / 8) + (7 - b % 8) else b

theorem bitPlace_nextBit (be : Bool) (b : Nat) : bitPlace be (nextBit be b) = bitPlace be b + 1 := by
  unfold bitPlace nextBit
  cases be
  · rfl
  · simp only [if_true]
    split <;> omega

theorem map_bitPlace_fieldBits (be : Bool) (n b : Nat) : (fieldBits be n b).map (bitPlace be) = List.range' (bitPlace be b) n := by
  induction n generalizing b with
  | zero => rfl
  | succ n ih => rw [fieldBits, List.map_cons, ih, bitPlace_nextBit, List.range'_succ]

theorem fieldBits_nodup (be : Bool) (n b : Nat) : (fieldBits be n b).Nodup := by
  refine List.Nodup.of_map (bitPlace be) ?_
  rw [map_bitPlace_fieldBits]
  exact List.nodup_range' ..

theorem fieldBits_length (be : Bool) (n b : Nat) : (fieldBits be n b).length = n := by
  have h := congrArg List.length (map_bitPlace_fieldBits be n b)
  rwa [List.length_map, List.length_range'] at h

/-- Settles O49: the bits of a field are distinct, so each is read back as it was put. -/
theorem fieldsPacked : Obligations.FieldsPacked := by
  unfold Obligations.FieldsPacked
  intro d start n v draw be hin e
  obtain ⟨l, hl, hnodup, hmem, hlen⟩ : ∃ l, (if be then (fieldBits be n start).reverse else fieldBits be n start) = l ∧
      l.Nodup ∧ (∀ b, b ∈ l ↔ b ∈ fieldBits be n start) ∧ l.length = n := by
    cases be
    · exact ⟨_, rfl, fieldBits_nodup .., fun _ => Iff.rfl, fieldBits_length ..⟩
    · exact ⟨_, rfl, List.nodup_reverse.2 (fieldBits_nodup ..), fun _ => List.mem_reverse, List.length_reverse.trans (fieldBits_length ..)⟩
  have hpairs : (l.zipIdx.map (·.1)) = l := List.zipIdx_map_fst 0 l
  have hput := payloadBit_putBits draw v l.zipIdx d (hpairs.symm ▸ hnodup) fun p hp =>
    hin _ ((hmem _).1 (hpairs ▸ List.mem_map_of_mem hp))
  rw [← hl, ← packField_eq, hl] at hput
  obtain ⟨hsize, hsame, hother⟩ := hput
  refine ⟨?_, hsize, fun b hb => hother b (by rwa [hpairs, hmem])⟩
  have hindices : (l.zipIdx.map (·.2)) = List.range n := by rw [List.range_eq_range', ← hlen]; exact List.zipIdx_map_snd 0 l
  have hread : readField draw e start n be = (l.zipIdx.map fun p => 2 ^ p.2 * b2n (payloadBit draw e p.1)).sum := hl ▸ rfl
  calc readField draw e start n be
      = (l.zipIdx.map fun p => 2 ^ p.2 * b2n (bit v p.2)).sum := by
        rw [hread]
        exact congrArg List.sum (List.map_congr_left fun p hp => by rw [hsame p hp])
    _ = ((l.zipIdx.map (·.2)).map fun i => 2 ^ i * b2n (bit v i)).sum := by rw [List.map_map]; rfl
    _ = v % 2 ^ n := by rw [hindices, sum_bits]

end Machine

end Sys2Proof

/-! PROOF. The registers of a check-value unit (R424 to R427): what feeding bytes and setting the running value leave in
them, and what stays open to the next write. -/

namespace Sys2Proof

namespace Machine

/-! ### Values of a polynomial fit its width -/

theorem reflect_lt (n v : Nat) : reflect n v < 2 ^ n := by
  induction n generalizing v with
  | zero => exact Nat.one_pos
  | succ n ih =>
    have hrest := ih (v / 2)
    have hbit : v % 2 * 2 ^ n ≤ 1 * 2 ^ n := Nat.mul_le_mul_right _ (by omega)
    rw [reflect, pow_succ]
    omega

/-- A polynomial whose constants fit its width of at most 64 bits. -/
def CrcPoly.Fits (p : CrcPoly) : Prop := p.width ≤ 64 ∧ p.poly < 2 ^ p.width ∧ p.init < 2 ^ 64 ∧ p.fin < 2 ^ 64

theorem crcPoly_fits {code : Nat} {p : CrcPoly} (h : crcPoly code = some p) : p.Fits := by
  have htable : ∀ row ∈ crcTable, row.1.width ≤ 64 ∧ row.1.poly < 2 ^ row.1.width ∧ row.1.init < 2 ^ 64 ∧ row.1.fin < 2 ^ 64 := by decide +kernel
  rw [crcPoly_eq_getElem?_crcTable, Option.map_eq_some_iff] at h
  obtain ⟨row, hrow, rfl⟩ := h
  exact htable row (List.mem_of_getElem? hrow)

namespace CrcPoly.Fits

variable {p : CrcPoly} (h : p.Fits)
include h

theorem shift_lt {n v : Nat} (hv : v < 2 ^ 64) : p.shift n v < 2 ^ 64 := by
  obtain ⟨hwidth, hpoly, -, -⟩ := h
  have hle : 2 ^ p.width ≤ 2 ^ 64 := Nat.pow_le_pow_right (by decide) hwidth
  induction n generalizing v with
  | zero => exact hv
  | succ n ih =>
    have hmod : v * 2 % 2 ^ p.width < 2 ^ p.width := Nat.mod_lt _ (Nat.two_pow_pos _)
    rw [CrcPoly.shift]
    refine ih ?_
    split
    · exact Nat.lt_of_lt_of_le (Nat.xor_lt_two_pow hmod hpoly) hle
    · omega

theorem bytes_lt {v : Nat} (hv : v < 2 ^ 64) (bs : List Byte) : p.bytes v bs < 2 ^ 64 := by
  induction bs generalizing v with
  | nil => exact hv
  | cons b bs ih =>
    refine ih (h.shift_lt (Nat.xor_lt_two_pow ?_ ?_))
    · exact Nat.lt_of_lt_of_le (Nat.mod_lt _ (Nat.two_pow_pos _)) (Nat.pow_le_pow_right (by decide) h.1)
    · have hb : (if p.refl then reflect 8 b.toNat else b.toNat) < 2 ^ 8 := by
        split
        · exact reflect_lt 8 _
        · exact b.isLt
      calc (if p.refl then reflect 8 b.toNat else b.toNat) * 2 ^ (p.width - 8)
          < 2 ^ 8 * 2 ^ (p.width - 8) := Nat.mul_lt_mul_of_pos_right hb (Nat.two_pow_pos _)
        _ = 2 ^ (8 + (p.width - 8)) := (pow_add 2 8 _).symm
        _ ≤ 2 ^ 64 := Nat.pow_le_pow_right (by decide) (by have := h.1; omega)

theorem finish_lt (v : Nat) : p.finish v < 2 ^ 64 := by
  have hle : 2 ^ p.width ≤ 2 ^ 64 := Nat.pow_le_pow_right (by decide) h.1
  have hmod : v % 2 ^ p.width < 2 ^ p.width := Nat.mod_lt _ (Nat.two_pow_pos _)
  refine Nat.xor_lt_two_pow ?_ h.2.2.2
  split
  · exact Nat.lt_of_lt_of_le (reflect_lt _ _) hle
  · omega

end CrcPoly.Fits

/-! ### A unit's registers -/

/-- The running value and the result of a unit. -/
def Chip.cvuVal (c : Chip) (n : Nat) : Nat := c.pair (Reg.CVU_VAL_LO n) (Reg.CVU_VAL_HI n)
def Chip.cvuRes (c : Chip) (n : Nat) : Nat := c.pair (Reg.CVU_RESULT_LO n) (Reg.CVU_RESULT_HI n)

/-- The registers of the running value and the result. -/
def cvuReg (n a : Nat) : Prop := 0xD00010 + n * 0x1000 ≤ a ∧ a < 0xD00020 + n * 0x1000

theorem Chip.pair_lt (c : Chip) (lo hi : Nat) : c.pair lo hi < 2 ^ 64 := by
  have hlo := c.reg_lt lo
  have hhi := c.reg_lt hi
  unfold Chip.pair
  omega

/-- A chip after the registers of a unit's running value and result alone have changed. -/
structure CvuChanged (n : Nat) (c d : Chip) : Prop where
  writes : WritesIn (cvuReg n) (fun _ => False) c d
  rest : d = { c with regs := d.regs }

namespace CvuChanged

variable {n : Nat} {c d e : Chip}

theorem refl (c : Chip) : CvuChanged n c c := ⟨.refl c, rfl⟩

theorem trans (h : CvuChanged n c d) (g : CvuChanged n d e) : CvuChanged n c e :=
  ⟨h.writes.trans g.writes, by rw [g.rest, h.rest]⟩

theorem setPair (c : Chip) {lo hi : Nat} (hlo : cvuReg n lo) (hhi : cvuReg n hi) (v : Nat) : CvuChanged n c (c.setPair lo hi v) :=
  ⟨.setPair hlo hhi v, rfl⟩

theorem cfg_eq (h : CvuChanged n c d) {f : RF} (hf : f.addr < 0xD00010 + n * 0x1000 ∨ 0xD00020 + n * 0x1000 ≤ f.addr) : d.q f = c.q f :=
  h.writes.q_eq fun ha => by
    obtain ⟨hlo, hhi⟩ := ha
    omega

theorem poly_eq (h : CvuChanged n c d) : d.cvuPoly n = c.cvuPoly n :=
  congrArg crcPoly (h.cfg_eq (.inl (by simp only [F.CVU_CTL_POLY, Reg.CVU_CTL]; omega)))

theorem busy_eq (h : CvuChanged n c d) : d.cvuBusy n = c.cvuBusy n := by
  unfold Chip.cvuBusy
  rw [h.rest]

theorem down_eq (h : CvuChanged n c d) : d.down = c.down := by rw [h.rest]

theorem portCause_eq (h : CvuChanged n c d) (hn : n < 32) (i : Initiator) (w : Bool) (a : Nat) : d.portCause i w a = c.portCause i w a :=
  (SameAccess.of_regs h.rest h.writes fun a ha => by unfold accessReg at ha; unfold cvuReg; omega).portCause i w a

end CvuChanged

/-- Setting the running value: the value, the result that follows it, and no other register. -/
theorem Chip.cvuSet_changed (c : Chip) (n v : Nat) {p : CrcPoly} (hp : c.cvuPoly n = some p) :
    CvuChanged n c (c.cvuSet n v) ∧ (c.cvuSet n v).cvuVal n = v % 2 ^ 64 ∧ (c.cvuSet n v).cvuRes n = p.finish v := by
  have hval : CvuChanged n c (c.setPair (Reg.CVU_VAL_LO n) (Reg.CVU_VAL_HI n) v) :=
    .setPair c (by simp only [cvuReg, Reg.CVU_VAL_LO]; omega) (by simp only [cvuReg, Reg.CVU_VAL_HI]; omega) v
  have heq : c.cvuSet n v = (c.setPair (Reg.CVU_VAL_LO n) (Reg.CVU_VAL_HI n) v).setPair (Reg.CVU_RESULT_LO n) (Reg.CVU_RESULT_HI n) (p.finish v) := by
    unfold Chip.cvuSet
    simp only [hval.poly_eq, hp]
  have hne : Reg.CVU_VAL_LO n ≠ Reg.CVU_VAL_HI n ∧ Reg.CVU_RESULT_LO n ≠ Reg.CVU_RESULT_HI n ∧ Reg.CVU_VAL_LO n ≠ Reg.CVU_RESULT_LO n ∧
      Reg.CVU_VAL_LO n ≠ Reg.CVU_RESULT_HI n ∧ Reg.CVU_VAL_HI n ≠ Reg.CVU_RESULT_LO n ∧ Reg.CVU_VAL_HI n ≠ Reg.CVU_RESULT_HI n := by
    simp only [Reg.CVU_VAL_LO, Reg.CVU_VAL_HI, Reg.CVU_RESULT_LO, Reg.CVU_RESULT_HI]
    omega
  obtain ⟨hv, hr, hll, hlh, hhl, hhh⟩ := hne
  rw [heq]
  refine ⟨hval.trans (.setPair _ ?_ ?_ _), ?_, ?_⟩
  · simp only [cvuReg, Reg.CVU_RESULT_LO]
    omega
  · simp only [cvuReg, Reg.CVU_RESULT_HI]
    omega
  · refine Eq.trans ?_ (c.pair_setPair_same hv v)
    unfold Chip.cvuVal Chip.pair
    rw [Chip.reg_setPair_ne _ _ hll hlh, Chip.reg_setPair_ne _ _ hhl hhh]
  · exact (Chip.pair_setPair_same _ hr _).trans (Nat.mod_eq_of_lt ((crcPoly_fits hp).finish_lt v))

/-- The running value is set also where the unit has no polynomial. -/
theorem Chip.cvuVal_cvuSet (c : Chip) (n v : Nat) : (c.cvuSet n v).cvuVal n = v % 2 ^ 64 := by
  cases hp : c.cvuPoly n with
  | some p => exact (c.cvuSet_changed n v hp).2.1
  | none =>
    have hval : CvuChanged n c (c.setPair (Reg.CVU_VAL_LO n) (Reg.CVU_VAL_HI n) v) :=
      .setPair c (by simp only [cvuReg, Reg.CVU_VAL_LO]; omega) (by simp only [cvuReg, Reg.CVU_VAL_HI]; omega) v
    unfold Chip.cvuSet
    simp only [hval.poly_eq, hp]
    exact c.pair_setPair_same (by simp only [Reg.CVU_VAL_LO, Reg.CVU_VAL_HI]; omega) v

/-- A unit with a polynomial that takes bytes by its registers: they go on from the running value. -/
theorem Chip.cvuData_changed (c : Chip) (n : Nat) (bs : List Byte) {p : CrcPoly} (hp : c.cvuPoly n = some p) (hsrc : c.q (F.CVU_CFG_SRC n) = 0) :
    CvuChanged n c (c.cvuData n bs) ∧ (c.cvuData n bs).cvuVal n = p.bytes (c.cvuVal n) bs ∧
      (c.cvuData n bs).cvuRes n = p.finish (p.bytes (c.cvuVal n) bs) := by
  have heq : c.cvuData n bs = c.cvuSet n (p.bytes (c.cvuVal n) bs) := by
    unfold Chip.cvuData Chip.cvuFeed
    simp only [hsrc, hp, if_true]
    rfl
  obtain ⟨hchanged, hval, hres⟩ := c.cvuSet_changed n (p.bytes (c.cvuVal n) bs) hp
  rw [heq]
  exact ⟨hchanged, hval.trans (Nat.mod_eq_of_lt ((crcPoly_fits hp).bytes_lt (c.pair_lt _ _) bs)), hres⟩

/-! ### Writes to a unit's page -/

section
variable {c : Chip} {i : Initiator} {n off : Nat} (f : Chip → Chip)

theorem Chip.cvuWrite_open (hport : c.portCause i true (0x00D00000 + n * 0x1000 + off) = 0) (hdown : c.down.get (cvuHalf n) = false)
    (hbusy : c.cvuBusy n = false) : c.cvuWrite i n off f = f c := by
  unfold Chip.cvuWrite
  simp only [hport, hdown, hbusy, Bool.false_eq_true, if_false]

theorem Chip.cvuWrite_busy (hport : c.portCause i true (0x00D00000 + n * 0x1000 + off) = 0) (hdown : c.down.get (cvuHalf n) = false)
    (hbusy : c.cvuBusy n = true) : c.cvuWrite i n off f = c.evOf (cvuHalf n) 0x0B21 i.owner [n, off, i.owner.toNat] := by
  unfold Chip.cvuWrite
  simp only [hport, hdown, hbusy, Bool.false_eq_true, if_false, if_true]

end

theorem CrcPoly.bytes_toLE_one (p : CrcPoly) (x v : Nat) : p.bytes x (toLE 1 v) = p.byte x (BitVec.ofNat 8 v) := rfl

theorem CrcPoly.bytes_four (p : CrcPoly) (x : Nat) (b0 b1 b2 b3 : Byte) :
    p.bytes x [b0, b1, b2, b3] = p.byte (p.byte (p.byte (p.byte x b0) b1) b2) b3 := rfl

/-- A byte written to a unit that its holder feeds goes on from the running value and leaves the unit open. -/
theorem exec_cvuData8_of_changed {s : State} {d : Chip} {i : Initiator} {n : Fin 32} {p : CrcPoly} (v : Word) (h : CvuChanged n s.chip d)
    (hport : s.chip.portCause i true (0x00D00000 + n.val * 0x1000 + 0x008) = 0) (hdown : s.chip.down.get (cvuHalf n) = false)
    (hbusy : s.chip.cvuBusy n = false) (hp : s.chip.cvuPoly n = some p) (hsrc : s.chip.q (F.CVU_CFG_SRC n) = 0) :
    ∃ e, exec (.cvuData8 i n v) (s.withChip d) = .next (s.withChip e) ∧ CvuChanged n s.chip e ∧
      e.cvuVal n = p.byte (d.cvuVal n) (BitVec.ofNat 8 v.toNat) ∧ e.cvuRes n = p.finish (e.cvuVal n) := by
  have hsrc' : d.q (F.CVU_CFG_SRC n) = 0 := (h.cfg_eq (.inr (by simp only [F.CVU_CFG_SRC, Reg.CVU_CFG]; omega))).trans hsrc
  obtain ⟨hchanged, hval, hres⟩ := d.cvuData_changed n (toLE 1 v.toNat) (h.poly_eq.trans hp) hsrc'
  refine ⟨_, ?_, h.trans hchanged, hval.trans (p.bytes_toLE_one _ _), hres.trans (congrArg p.finish hval.symm)⟩
  have hwrite := Chip.cvuWrite_open (fun c => c.cvuData n (toLE 1 v.toNat)) ((h.portCause_eq n.isLt i true _).trans hport)
    (h.down_eq ▸ hdown) (h.busy_eq.trans hbusy)
  exact congrArg (s.withChip d).go hwrite

/-! ### The held low word -/

theorem Chip.hold_keeps {γ : Type} (f : Chip → γ) (hf : ∀ c y, f { c with holds := y } = f c) (c : Chip) (i : Initiator) (a v : Nat) :
    f (c.hold i a v) = f c := hf c _

/-- The low word that an initiator wrote last is held for it. -/
theorem Chip.held_hold (c : Chip) (i : Initiator) (a v : Nat) : (c.hold i a v).held i a = v % 2 ^ 32 := by
  simp only [Chip.held, Chip.held?, Chip.hold, List.find?_cons, beq_self_eq_true, Bool.and_self, Option.map_some, Option.getD_some,
    BitVec.toNat_ofNat]

theorem Chip.hold_portCause (c : Chip) (i j : Initiator) (a b v : Nat) (w : Bool) : (c.hold i a v).portCause j w b = c.portCause j w b :=
  SameAccess.portCause ⟨c.hold_keeps Chip.down (fun _ _ => rfl) i a v, c.hold_keeps Chip.own (fun _ _ => rfl) i a v,
    c.hold_keeps Chip.ownChg (fun _ _ => rfl) i a v, c.hold_keeps Chip.kv (fun _ _ => rfl) i a v,
    c.hold_keeps Chip.arrays (fun _ _ => rfl) i a v,
    fun _ _ => Chip.reg_of_regs (c.hold_keeps Chip.regs (fun _ _ => rfl) i a v) _⟩ j w b

/-! ### The statement -/

section
variable {i : Initiator} {n : Fin 32} {v w : Word} {s : State}

theorem exec_cvuCtl_open (hport : s.chip.portCause i true (0x00D00000 + n.val * 0x1000 + 0x000) = 0)
    (hdown : s.chip.down.get (cvuHalf n) = false) (hbusy : s.chip.cvuBusy n = false) {p : CrcPoly} (hp : crcPoly (v.toNat % 8) = some p) :
    ∃ t, exec (.cvuCtl i n v) s = .next (s.withChip t) ∧ t.cvuPoly n = some p ∧ t.cvuVal n = p.init ∧ t.cvuRes n = p.finish p.init := by
  have hpoly : (s.chip.put (F.CVU_CTL_POLY n) v.toNat).cvuPoly n = some p := by
    unfold Chip.cvuPoly
    rw [Chip.q_put_same _ _ _ (by simp only [F.CVU_CTL_POLY]; decide)]
    exact hp
  obtain ⟨hchanged, hval, hres⟩ := (s.chip.put (F.CVU_CTL_POLY n) v.toNat).cvuSet_changed n p.init hpoly
  have hwrite := Chip.cvuWrite_open (fun c => c.cvuCtl n v.toNat) hport hdown hbusy
  have hset : s.chip.cvuCtl n v.toNat = (s.chip.put (F.CVU_CTL_POLY n) v.toNat).cvuSet n p.init := by
    unfold Chip.cvuCtl Chip.cvuInit
    simp only [hpoly]
  refine ⟨_, congrArg s.go (hwrite.trans hset), hchanged.poly_eq.trans hpoly, hval.trans ?_, hres⟩
  exact Nat.mod_eq_of_lt (crcPoly_fits hp).2.2.1

/-- A word fed at once and its four bytes fed one by one, byte 0 first. -/
theorem exec_cvuData_bytes (hport : s.chip.portCause i true (0x00D00000 + n.val * 0x1000 + 0x004) = 0)
    (hport8 : s.chip.portCause i true (0x00D00000 + n.val * 0x1000 + 0x008) = 0)
    (hdown : s.chip.down.get (cvuHalf n) = false) (hbusy : s.chip.cvuBusy n = false) {p : CrcPoly} (hp : s.chip.cvuPoly n = some p)
    (hsrc : s.chip.q (F.CVU_CFG_SRC n) = 0) :
    ∃ t u1 u2 u3 u : Chip, exec (.cvuData i n v) s = .next (s.withChip t) ∧ t.cvuVal n = p.bytes (s.chip.cvuVal n) (toLE 4 v.toNat) ∧
      t.cvuRes n = p.finish (t.cvuVal n) ∧
      exec (.cvuData8 i n v) s = .next (s.withChip u1) ∧ exec (.cvuData8 i n (v >>> 8)) (s.withChip u1) = .next (s.withChip u2) ∧
      exec (.cvuData8 i n (v >>> 16)) (s.withChip u2) = .next (s.withChip u3) ∧
      exec (.cvuData8 i n (v >>> 24)) (s.withChip u3) = .next (s.withChip u) ∧ t.cvuVal n = u.cvuVal n ∧ t.cvuRes n = u.cvuRes n := by
  obtain ⟨-, hval, hres⟩ := s.chip.cvuData_changed n (toLE 4 v.toNat) hp hsrc
  have hwrite := Chip.cvuWrite_open (fun c => c.cvuData n (toLE 4 v.toNat)) hport hdown hbusy
  obtain ⟨u1, he1, h1, hv1, -⟩ := exec_cvuData8_of_changed v (.refl s.chip) hport8 hdown hbusy hp hsrc
  obtain ⟨u2, he2, h2, hv2, -⟩ := exec_cvuData8_of_changed (v >>> 8) h1 hport8 hdown hbusy hp hsrc
  obtain ⟨u3, he3, h3, hv3, -⟩ := exec_cvuData8_of_changed (v >>> 16) h2 hport8 hdown hbusy hp hsrc
  obtain ⟨u, he, -, hv, hr⟩ := exec_cvuData8_of_changed (v >>> 24) h3 hport8 hdown hbusy hp hsrc
  have hbytes : p.bytes (s.chip.cvuVal n) (toLE 4 v.toNat) = u.cvuVal n := by
    have hword : toLE 4 v.toNat = [BitVec.ofNat 8 v.toNat, BitVec.ofNat 8 (v >>> 8).toNat, BitVec.ofNat 8 (v >>> 16).toNat,
        BitVec.ofNat 8 (v >>> 24).toNat] := by
      simp only [toLE, BitVec.toNat_ushiftRight, Nat.shiftRight_eq_div_pow, Nat.div_div_eq_div_mul]
    rw [hword, p.bytes_four, hv, hv3, hv2, hv1]
  exact ⟨_, u1, u2, u3, u, congrArg s.go hwrite, hval, hres.trans (congrArg p.finish hval.symm), he1, he2, he3, he,
    hval.trans hbytes, hres.trans ((congrArg p.finish hbytes).trans hr.symm)⟩

/-- A running value written in two words. -/
theorem exec_cvuVal (hlo : s.chip.portCause i true (0x00D00000 + n.val * 0x1000 + 0x010) = 0)
    (hhi : s.chip.portCause i true (0x00D00000 + n.val * 0x1000 + 0x014) = 0)
    (hdown : s.chip.down.get (cvuHalf n) = false) (hbusy : s.chip.cvuBusy n = false) :
    ∃ t u : Chip, exec (.cvuValLo i n v) s = .next (s.withChip t) ∧ exec (.cvuValHi i n w) (s.withChip t) = .next (s.withChip u) ∧
      t.cvuVal n = s.chip.cvuVal n ∧ u.cvuVal n = v.toNat + w.toNat * 2 ^ 32 := by
  have hkeep {γ : Type} (f : Chip → γ) (hf : ∀ c y, f { c with holds := y } = f c) :
      f (s.chip.hold i (Reg.CVU_VAL_LO n) v.toNat) = f s.chip := Chip.hold_keeps f hf ..
  have hwlo := Chip.cvuWrite_open (fun c => c.hold i (Reg.CVU_VAL_LO n) v.toNat) hlo hdown hbusy
  have hwhi := Chip.cvuWrite_open (c := s.chip.hold i (Reg.CVU_VAL_LO n) v.toNat)
    (fun c => c.cvuSet n (c.held i (Reg.CVU_VAL_LO n) + w.toNat * 2 ^ 32)) ((Chip.hold_portCause ..).trans hhi)
    ((hkeep (fun c => c.down.get (cvuHalf n)) fun _ _ => rfl).trans hdown) ((hkeep (fun c => c.cvuBusy n) fun _ _ => rfl).trans hbusy)
  refine ⟨_, _, congrArg s.go hwlo, congrArg (s.withChip _).go hwhi, hkeep (fun c => c.cvuVal n) fun _ _ => rfl, ?_⟩
  rw [Chip.cvuVal_cvuSet, Chip.held_hold, Nat.mod_eq_of_lt v.isLt]
  have hv := v.isLt
  have hw := w.isLt
  omega

end

/-- Settles O53: an open unit takes what is written to it, a fed one raises its event. -/
theorem checkValueUnits : Obligations.CheckValueUnits := by
  unfold Obligations.CheckValueUnits
  intro i n v w s c page val res hport hdown
  have hport (off : Nat) (hoff : off ∈ [0x000, 0x004, 0x008, 0x010, 0x014]) : s.chip.portCause i true (0x00D00000 + n.val * 0x1000 + off) = 0 :=
    hport off hoff
  refine ⟨fun hbusy => ⟨fun p hp => ?_, fun p hp hsrc => ?_, ?_⟩, fun hbusy => ?_⟩
  · exact exec_cvuCtl_open (hport _ (by decide)) hdown hbusy hp
  · exact exec_cvuData_bytes (hport _ (by decide)) (hport _ (by decide)) hdown hbusy hp hsrc
  · exact exec_cvuVal (hport _ (by decide)) (hport _ (by decide)) hdown hbusy
  · have hevent (off : Nat) (f : Chip → Chip) (hoff : off ∈ [0x000, 0x004, 0x008, 0x010, 0x014]) :
        s.go (s.chip.cvuWrite i n off f) = .next (s.withChip (s.chip.evOf (cvuHalf n) 0x0B21 i.owner [n.val, off, i.owner.toNat])) :=
      congrArg s.go (Chip.cvuWrite_busy f (hport off hoff) hdown hbusy)
    exact ⟨hevent _ _ (by decide), hevent _ _ (by decide), hevent _ _ (by decide), hevent _ _ (by decide), hevent _ _ (by decide)⟩

end Machine

end Sys2Proof

/-! PROOF. A full-level save and its restore (R282, R284): the store of an array goes out as a table of its bytes and comes
back under the addresses of another array. -/

namespace Sys2Proof

/-! ### Tables whose keys rise -/

section
variable {α : Type}

theorem Tbl.le_key_of_rising {t : Tbl α} {b : Nat} (h : Tbl.rising b t = true) : ∀ e ∈ t, b ≤ e.1 := by
  induction t generalizing b with
  | nil => simp
  | cons e t ih =>
    simp only [Tbl.rising, Bool.and_eq_true, decide_eq_true_eq] at h
    intro x hx
    rcases List.mem_cons.1 hx with rfl | hx
    · exact h.1
    · exact Nat.le_of_succ_le (Nat.le_trans (Nat.succ_le_succ h.1) (ih h.2 x hx))

theorem Tbl.keys_nodup_of_rising {t : Tbl α} {b : Nat} (h : Tbl.rising b t = true) : (t.map (·.1)).Nodup := by
  induction t generalizing b with
  | nil => exact List.nodup_nil
  | cons e t ih =>
    simp only [Tbl.rising, Bool.and_eq_true, decide_eq_true_eq] at h
    rw [List.map_cons, List.nodup_cons]
    refine ⟨fun hmem => ?_, ih h.2⟩
    obtain ⟨x, hx, heq⟩ := List.mem_map.1 hmem
    have := Tbl.le_key_of_rising h.2 x hx
    omega

/-- A table shifted down from a base lists at a key what it listed at the base and that key. -/
theorem Tbl.find?_shift (t : Tbl α) (a k : Nat) (h : ∀ e ∈ t, a ≤ e.1) :
    Tbl.find? (t.map fun e => (e.1 - a, e.2)) k = Tbl.find? t (a + k) := by
  induction t with
  | nil => rfl
  | cons e t ih =>
    have he := h e List.mem_cons_self
    have hiff : e.1 - a = k ↔ e.1 = a + k := by omega
    simp only [List.map_cons, Tbl.find?, hiff, ih fun x hx => h x (List.mem_cons_of_mem _ hx)]

theorem Tbl.find?_eq_none_of_not_mem {t : Tbl α} {k : Nat} (h : k ∉ t.map (·.1)) : Tbl.find? t k = none := by
  induction t with
  | nil => rfl
  | cons e t ih =>
    rw [List.map_cons, List.mem_cons, not_or] at h
    simp only [Tbl.find?, if_neg (Ne.symm h.1), ih h.2]

end

namespace Machine

/-! ### Bytes that go out and come back -/

/-- Without lost keys an unlisted byte of the block reads zero. -/
theorem Chip.byte_eq_look {c : Chip} (hg : c.garbled = []) {x : Nat} (hx : holdsByte x = true) : c.byte x = Tbl.look 0 c.mem x := by
  simp only [holdsByte, Bool.and_eq_true, Bool.not_eq_true', decide_eq_true_eq] at hx
  obtain ⟨hwin, hlow⟩ := hx
  unfold Chip.byte
  rw [hwin, hg, if_neg (by decide), if_neg (by omega)]
  rfl

/-- Bytes outside a zeroed range are as before. -/
theorem Chip.byte_zeroRange_other {c : Chip} (hg : c.garbled = []) {a n x : Nat} (hx : x < a ∨ a + n ≤ x) : (c.zeroRange a n).byte x = c.byte x := by
  have hgarbled : (c.zeroRange a n).garbled = c.garbled := by
    unfold Chip.zeroRange
    simp only [hg, List.filter_nil]
  have hlook (d : Byte) : Tbl.look d (c.zeroRange a n).mem x = Tbl.look d c.mem x :=
    congrArg (·.getD d) (Tbl.find?_filter c.mem (fun k => decide ¬(a ≤ k ∧ k < a + n)) x (decide_eq_true (by omega)))
  unfold Chip.byte
  rw [hgarbled, hlook]
  rfl

/-- A zeroed range reads zero. -/
theorem Chip.byte_zeroRange_inside {c : Chip} (hg : c.garbled = []) {a n x : Nat} (hlo : a ≤ x) (hhi : x < a + n) (hx : holdsByte x = true) :
    (c.zeroRange a n).byte x = 0 := by
  have hgarbled : (c.zeroRange a n).garbled = [] := by
    unfold Chip.zeroRange
    simp only [hg, List.filter_nil]
  rw [Chip.byte_eq_look hgarbled hx]
  exact congrArg (·.getD 0) (Tbl.find?_filter_none c.mem (fun k => decide ¬(a ≤ k ∧ k < a + n)) x (decide_eq_false (by omega)))

/-- An address at which a table lists nothing keeps its byte. -/
theorem Chip.byte_copyIn_other (c : Chip) (a x : Nat) (t : Tbl Byte) (h : ∀ e ∈ t, x ≠ a + e.1) : (c.copyIn a t).byte x = c.byte x := by
  induction t generalizing c with
  | nil => rfl
  | cons e t ih =>
    exact (ih (c.setByte (a + e.1) e.2) fun y hy => h y (List.mem_cons_of_mem _ hy)).trans
      (c.byte_setByte_ne e.2 (h e List.mem_cons_self))

/-- Bytes copied into a zeroed range read as the table lists them. -/
theorem Chip.byte_copyIn (c : Chip) (a k : Nat) (t : Tbl Byte) (hnodup : (t.map (·.1)).Nodup) (hk : holdsByte (a + k) = true)
    (hzero : c.byte (a + k) = 0) : (c.copyIn a t).byte (a + k) = Tbl.look 0 t k := by
  induction t generalizing c with
  | nil => exact hzero
  | cons e t ih =>
    rw [List.map_cons, List.nodup_cons] at hnodup
    by_cases he : e.1 = k
    · subst he
      have hrest : ∀ y ∈ t, a + e.1 ≠ a + y.1 := fun y hy heq =>
        hnodup.1 (List.mem_map.2 ⟨y, hy, by omega⟩)
      have hlook : Tbl.look 0 (e :: t) e.1 = e.2 := by simp only [Tbl.look, Tbl.find?, if_true, Option.getD_some]
      rw [hlook]
      exact (Chip.byte_copyIn_other _ a _ t hrest).trans (c.byte_setByte_same _ _ hk)
    · have hlook : Tbl.look 0 (e :: t) k = Tbl.look 0 t k := by simp only [Tbl.look, Tbl.find?, he, if_false]
      rw [hlook]
      exact ih (c.setByte (a + e.1) e.2) hnodup.2 ((c.byte_setByte_ne e.2 (by omega)).trans hzero)

/-- What a range of the block's memory goes out as. -/
theorem Chip.look_copyOut {c : Chip} (hg : c.garbled = []) {a n k : Nat} (hk : k < n) (hx : holdsByte (a + k) = true) :
    Tbl.look 0 (c.copyOut a n) k = c.byte (a + k) := by
  rw [Chip.byte_eq_look hg hx]
  unfold Tbl.look Chip.copyOut
  rw [Tbl.find?_shift _ _ _ fun e he => (of_decide_eq_true (List.mem_filter.1 he).2).1,
    Tbl.find?_filter c.mem (fun j => decide (a ≤ j ∧ j < a + n)) (a + k) (decide_eq_true (by omega))]

theorem Chip.key_copyOut_lt {c : Chip} {a n : Nat} : ∀ e ∈ c.copyOut a n, e.1 < n := by
  intro e he
  obtain ⟨x, hx, rfl⟩ := List.mem_map.1 he
  have := of_decide_eq_true (List.mem_filter.1 hx).2
  dsimp only
  omega

theorem Chip.keys_copyOut_nodup {c : Chip} (hw : c.memWf = true) (a n : Nat) : ((c.copyOut a n).map (·.1)).Nodup := by
  unfold Chip.memWf Tbl.wf at hw
  rw [Bool.and_eq_true] at hw
  have hkeys := Tbl.keys_nodup_of_rising (Tbl.rising_filter (fun e => decide (a ≤ e.1 ∧ e.1 < a + n)) hw.1)
  unfold Chip.copyOut
  rw [List.map_map]
  refine (List.nodup_map_iff_inj_on (List.Nodup.of_map _ hkeys)).2 fun x hx y hy hxy => ?_
  have hxa := (of_decide_eq_true (List.mem_filter.1 hx).2).1
  have hya := (of_decide_eq_true (List.mem_filter.1 hy).2).1
  have hfst : x.1 = y.1 := by
    simp only [Function.comp_apply] at hxy
    omega
  exact List.inj_on_of_nodup_map hkeys hx hy hfst

/-! ### The save -/

/-- The context that a save puts away. -/
def Chip.arrCtx (c : Chip) (a r : Nat) : ArrCtx :=
  ⟨match c.ringSt? r with | some y => y.owner | none => BitVec.ofNat 13 (c.q (F.ARRAY_STATUS_OWNER a)), c.copyOut (arrayStore a) 0xC00000, c.arr a⟩

section
variable {γ : Type} {c : Chip} {a r : Nat}

/-- What a full-level save leaves of a part of the chip that reads no register and no command. -/
theorem Chip.saveArray_part (f : Chip → γ) (hf : ∀ c x m, f { c with regs := x, cmds := m } = f c) (h : (c.arr a).resident = some r) :
    f (c.saveArray a true) =
      f ((Chip.zeroRange { c with actx := Tbl.ins c.actx r (c.arrCtx a r) } (arrayStore a) 0xC00000).setArr a (c.arr a).emptied) := by
  have hreg := Chip.setReg_keeps f fun c x => hf c x c.cmds
  unfold Chip.saveArray
  simp only [h, Bool.true_or, if_true]
  refine (hreg _ _ _).trans ((hreg _ _ _).trans ((hreg _ _ _).trans ((hreg _ _ _).trans ?_)))
  exact hf ((Chip.zeroRange { c with actx := Tbl.ins c.actx r (c.arrCtx a r) } (arrayStore a) 0xC00000).setArr a (c.arr a).emptied) c.regs _

theorem Chip.garbled_saveArray (hg : c.garbled = []) (h : (c.arr a).resident = some r) : (c.saveArray a true).garbled = [] := by
  rw [Chip.saveArray_part (·.garbled) (fun _ _ _ => rfl) h]
  show c.garbled.filter _ = []
  rw [hg, List.filter_nil]

theorem Chip.actx_saveArray (h : (c.arr a).resident = some r) : Tbl.find? (c.saveArray a true).actx r = some (c.arrCtx a r) := by
  rw [Chip.saveArray_part (·.actx) (fun _ _ _ => rfl) h]
  exact Tbl.find?_ins_same c.actx r (c.arrCtx a r)

theorem Chip.arr_saveArray (h : (c.arr a).resident = some r) : (c.saveArray a true).arr a = (c.arr a).emptied := by
  rw [Chip.saveArray_part (·.arr a) (fun _ _ _ => rfl) h]
  exact Chip.arr_setArr _ a _

theorem Chip.byte_saveArray_inside (hg : c.garbled = []) (h : (c.arr a).resident = some r) {x : Nat} (hlo : arrayStore a ≤ x)
    (hhi : x < arrayStore a + 0xC00000) (hx : holdsByte x = true) : (c.saveArray a true).byte x = 0 := by
  rw [Chip.saveArray_part (·.byte x) (fun _ _ _ => rfl) h]
  exact Chip.byte_zeroRange_inside (c := { c with actx := Tbl.ins c.actx r (c.arrCtx a r) }) hg hlo hhi hx

theorem Chip.byte_saveArray_other (hg : c.garbled = []) (h : (c.arr a).resident = some r) {x : Nat}
    (hx : x < arrayStore a ∨ arrayStore a + 0xC00000 ≤ x) : (c.saveArray a true).byte x = c.byte x := by
  rw [Chip.saveArray_part (·.byte x) (fun _ _ _ => rfl) h]
  exact Chip.byte_zeroRange_other (c := { c with actx := Tbl.ins c.actx r (c.arrCtx a r) }) hg hx

end

/-! ### The restore -/

/-- The chip of which a restore fills the store of the array: the context put away for the ring is gone. -/
def Chip.taken (c : Chip) (a r : Nat) : Chip := { c with actx := Tbl.del c.actx r, blockedAt := Tbl.del c.blockedAt a }

section
variable {γ : Type} {c : Chip} {a r : Nat} {ctx : ArrCtx}

/-- What a restore leaves of a part of the chip that reads no register and no command. -/
theorem Chip.restoreArray_part (f : Chip → γ) (hf : ∀ c x m, f { c with regs := x, cmds := m } = f c) (h : Tbl.find? c.actx r = some ctx) :
    f (c.restoreArray a r) =
      f ((((c.taken a r).zeroRange (arrayStore a) 0xC00000).copyIn (arrayStore a) ctx.store).setArr a ((c.arr a).holding ctx.st r)) := by
  unfold Chip.restoreArray
  simp only [h]
  refine (Chip.setReg_keeps f (fun c x => hf c x c.cmds) _ _ _).trans ?_
  exact hf ((((c.taken a r).zeroRange (arrayStore a) 0xC00000).copyIn (arrayStore a) ctx.store).setArr a ((c.arr a).holding ctx.st r)) _ _

theorem Chip.arr_restoreArray (h : Tbl.find? c.actx r = some ctx) : (c.restoreArray a r).arr a = (c.arr a).holding ctx.st r := by
  rw [Chip.restoreArray_part (·.arr a) (fun _ _ _ => rfl) h]
  exact Chip.arr_setArr _ a _

theorem Chip.byte_restoreArray_inside (hg : c.garbled = []) (h : Tbl.find? c.actx r = some ctx) (hnodup : (ctx.store.map (·.1)).Nodup)
    {k : Nat} (hk : k < 0xC00000) (hx : holdsByte (arrayStore a + k) = true) :
    (c.restoreArray a r).byte (arrayStore a + k) = Tbl.look 0 ctx.store k := by
  rw [Chip.restoreArray_part (·.byte (arrayStore a + k)) (fun _ _ _ => rfl) h]
  exact Chip.byte_copyIn _ _ _ _ hnodup hx
    (Chip.byte_zeroRange_inside (c := c.taken a r) hg (Nat.le_add_right _ _) (Nat.add_lt_add_left hk _) hx)

theorem Chip.byte_restoreArray_other (hg : c.garbled = []) (h : Tbl.find? c.actx r = some ctx) (hkeys : ∀ e ∈ ctx.store, e.1 < 0xC00000)
    {x : Nat} (hx : x < arrayStore a ∨ arrayStore a + 0xC00000 ≤ x) : (c.restoreArray a r).byte x = c.byte x := by
  rw [Chip.restoreArray_part (·.byte x) (fun _ _ _ => rfl) h]
  refine (Chip.byte_copyIn_other _ _ _ _ fun e he => ?_).trans (Chip.byte_zeroRange_other (c := c.taken a r) hg hx)
  have := hkeys e he
  omega

end

/-- The store of an array lies in the block's own memory. -/
theorem holdsByte_arrayStore (a : Fin 8) {k : Nat} (hk : k < 0xC00000) : holdsByte (arrayStore a + k) = true := by
  have hlo : 0x40000000 ≤ arrayStore a + k := by unfold arrayStore; omega
  have hhi : arrayStore a + k < 0x180000000 := by
    have := a.isLt
    unfold arrayStore
    omega
  have hwin : inWindow (arrayStore a + k) = false := by
    unfold inWindow
    rw [decide_eq_false (by omega), decide_eq_false (by omega)]
    rfl
  unfold holdsByte
  rw [hwin, decide_eq_true hlo]
  rfl

/-- Settles O35: the bytes go out under their distance from the store's base and come back under the same distance. -/
theorem contextKept : Obligations.ContextKept := by
  intro a b r c hw hg hres _ d t
  have hctx : Tbl.find? d.actx r = some (c.arrCtx a r) := Chip.actx_saveArray hres
  have hgd : d.garbled = [] := Chip.garbled_saveArray hg hres
  have harr : t.arr b = (d.arr b).holding (c.arr a) r := Chip.arr_restoreArray hctx
  refine ⟨fun k hk => ?_, ?_, fun k hk => ?_, fun x _ hx => ?_, ?_, ?_, ?_, ?_, ?_⟩
  · exact Chip.byte_saveArray_inside hg hres (Nat.le_add_right _ _) (Nat.add_lt_add_left hk _) (holdsByte_arrayStore a hk)
  · exact congrArg (·.resident) (Chip.arr_saveArray hres)
  · calc t.byte (arrayStore b + k) = Tbl.look 0 (c.copyOut (arrayStore a) 0xC00000) k :=
          Chip.byte_restoreArray_inside hgd hctx (Chip.keys_copyOut_nodup hw _ _) hk (holdsByte_arrayStore b hk)
      _ = c.byte (arrayStore a + k) := Chip.look_copyOut hg hk (holdsByte_arrayStore a hk)
  · have houtside (y : Fin 8) (hy : y = a ∨ y = b) : x < arrayStore y ∨ arrayStore y + 0xC00000 ≤ x := by
      by_contra hin
      exact hx ⟨y, hy, by omega, by omega⟩
    exact (Chip.byte_restoreArray_other hgd hctx (fun e he => Chip.key_copyOut_lt e he) (houtside b (.inr rfl))).trans
      (Chip.byte_saveArray_other hg hres (houtside a (.inl rfl)))
  all_goals rw [harr]; rfl

end Machine

end Sys2Proof

/-! PROOF. Fields of registers: a field put into a register leaves every field beside it. -/

namespace Sys2Proof

namespace Machine

/-- Two fields have no bit in common, and the first lies in a word. -/
abbrev RF.Apart (f g : RF) : Prop := f.lo + f.wid ≤ 32 ∧ (g.addr ≠ f.addr ∨ f.lo + f.wid ≤ g.lo ∨ g.lo + g.wid ≤ f.lo)

/-- A value put into a field changes no bit outside the field. -/
theorem testBit_field_put (r lo wid v : Nat) {j : Nat} (h : j < lo ∨ lo + wid ≤ j) :
    (r - bits r lo wid * 2 ^ lo + v % 2 ^ wid * 2 ^ lo).testBit j = r.testBit j := by
  have hlow : r % 2 ^ lo < 2 ^ lo := Nat.mod_lt _ (Nat.two_pow_pos _)
  have hmid : 2 ^ lo * (v % 2 ^ wid) + r % 2 ^ lo < 2 ^ (lo + wid) := by
    have := Nat.mul_le_mul_left (2 ^ lo) (Nat.mod_lt v (Nat.two_pow_pos wid))
    rw [pow_add]
    rw [Nat.mul_succ] at this
    omega
  rw [field_put, Nat.mul_comm _ (2 ^ (lo + wid)), Nat.mul_comm _ (2 ^ lo), Nat.add_assoc, Nat.testBit_two_pow_mul_add _ hmid,
    Nat.testBit_two_pow_mul_add _ hlow]
  rcases h with h | h
  · rw [if_pos (by omega), if_pos h, Nat.testBit_mod_two_pow, decide_eq_true h, Bool.true_and]
  · rw [if_neg (by omega), Nat.testBit_div_two_pow, Nat.sub_add_cancel h]

/-- A value put into a field changes no field beside it. -/
theorem bits_field_put (r v : Nat) {lo wid lo' wid' : Nat} (h : lo + wid ≤ lo' ∨ lo' + wid' ≤ lo) :
    bits (r - bits r lo wid * 2 ^ lo + v % 2 ^ wid * 2 ^ lo) lo' wid' = bits r lo' wid' := by
  refine Nat.eq_of_testBit_eq fun i => ?_
  unfold bits
  rw [Nat.testBit_mod_two_pow, Nat.testBit_mod_two_pow, Nat.testBit_div_two_pow, Nat.testBit_div_two_pow]
  by_cases hi : i < wid'
  · exact congrArg (_ && ·) (testBit_field_put r lo wid v (by omega))
  · simp only [hi, decide_false, Bool.false_and]

theorem field_put_lt {r lo wid : Nat} (v : Nat) (hr : r < 2 ^ 32) (h : lo + wid ≤ 32) :
    r - bits r lo wid * 2 ^ lo + v % 2 ^ wid * 2 ^ lo < 2 ^ 32 := by
  refine Nat.lt_pow_two_of_testBit _ fun j hj => ?_
  rw [testBit_field_put r lo wid v (.inr (Nat.le_trans h hj))]
  exact Nat.testBit_lt_two_pow (Nat.lt_of_lt_of_le hr (Nat.pow_le_pow_right (by decide) hj))

section
variable (c : Chip) {f g : RF} (v : Nat)

/-- A field put leaves every field apart from it. -/
theorem Chip.q_put_apart (h : f.Apart g) : (c.put f v).q g = c.q g := by
  by_cases ha : g.addr = f.addr
  · have hbeside : f.lo + f.wid ≤ g.lo ∨ g.lo + g.wid ≤ f.lo := h.2.resolve_left (not_not_intro ha)
    have hreg : (c.put f v).reg f.addr = (c.reg f.addr - bits (c.reg f.addr) f.lo f.wid * 2 ^ f.lo + v % 2 ^ f.wid * 2 ^ f.lo) % 2 ^ 32 := c.reg_setReg_same _ _
    unfold Chip.q
    rw [ha, hreg, Nat.mod_eq_of_lt (field_put_lt v (c.reg_lt _) h.1)]
    exact bits_field_put _ v hbeside
  · exact c.q_put_ne v ha

theorem Chip.on_put_apart (h : f.Apart g) : (c.put f v).on g = c.on g := congrArg (· != 0) (c.q_put_apart v h)

theorem Chip.q_ev (k : Half) (code : Nat) (d : List Nat) (h : ¬ eventReg g.addr) : (c.ev k code d).q g = c.q g := c.q_raise _ h
theorem Chip.on_ev (k : Half) (code : Nat) (d : List Nat) (h : ¬ eventReg g.addr) : (c.ev k code d).on g = c.on g :=
  congrArg (· != 0) (c.q_ev k code d h)
theorem Chip.on_of_regs {c d : Chip} (h : d.regs = c.regs) (f : RF) : d.on f = c.on f := congrArg (· != 0) (Chip.q_of_regs h f)

end

end Machine

end Sys2Proof

/-! PROOF. The authority logic (R343–R361): which fields its functions leave, and that never both halves drive. -/

namespace Sys2Proof

namespace Machine

/-! ### Chips that agree on a field and on which halves are DOWN -/

/-- Two chips hold the same in a field and have the same halves DOWN. -/
structure SameField (g : RF) (c d : Chip) : Prop where
  q : d.q g = c.q g
  down : d.down = c.down

namespace SameField

variable {g f : RF} {c d e : Chip}

theorem refl (c : Chip) : SameField g c c := ⟨rfl, rfl⟩
theorem trans (h : SameField g c d) (k : SameField g d e) : SameField g c e := ⟨k.q.trans h.q, k.down.trans h.down⟩
theorem of_regs (hr : d.regs = c.regs) (hd : d.down = c.down) : SameField g c d := ⟨Chip.q_of_regs hr g, hd⟩

theorem put (h : SameField g c d) (hf : f.Apart g) (v : Nat) : SameField g c (d.put f v) := h.trans ⟨d.q_put_apart v hf, rfl⟩
theorem inc (h : SameField g c d) (hf : f.Apart g) : SameField g c (d.inc f) := h.put hf _
theorem setReg (h : SameField g c d) {a : Nat} (ha : g.addr ≠ a) (v : Nat) : SameField g c (d.setReg a v) := h.trans ⟨d.q_setReg_ne v ha, rfl⟩
theorem raise (h : SameField g c d) (hg : ¬ eventReg g.addr) (v : Event) : SameField g c (d.raise v) :=
  h.trans ⟨d.q_raise v hg, eventPart_down.raise d v⟩
theorem ev (h : SameField g c d) (hg : ¬ eventReg g.addr) (k : Half) (code : Nat) (l : List Nat) : SameField g c (d.ev k code l) := h.raise hg _
theorem setAuthSt (h : SameField g c d) (k : Half) (x : AuthSt) : SameField g c (d.setAuthSt k x) := h.trans (of_regs rfl rfl)

theorem envTurn (h : SameField g c d) (k : Half) (r : Bool) : SameField g c (d.envTurn k r) := h.trans (of_regs rfl rfl)

theorem ite {p : Prop} [Decidable p] (hd : SameField g c d) (he : SameField g c e) : SameField g c (if p then d else e) := by
  split
  · exact hd
  · exact he

theorem setCvuRun (h : SameField g c d) (l : Tbl Nat) : SameField g c { d with cvuRun := l } := h.trans (of_regs rfl rfl)
theorem setGwTx (h : SameField g c d) (l : Tbl TxSt) : SameField g c { d with gwTx := l } := h.trans (of_regs rfl rfl)
theorem setRoute (h : SameField g c d) (r : Nat) (x : RouteSt) : SameField g c (d.setRoute r x) := h.trans (of_regs rfl rfl)

theorem foldl {α : Type} (l : List α) (s : Chip → α → Chip) (hs : ∀ d x, SameField g d (s d x)) (c : Chip) : SameField g c (l.foldl s c) := by
  induction l generalizing c with
  | nil => exact refl c
  | cons x l ih => exact (hs c x).trans (ih (s c x))

theorem on (h : SameField g c d) : d.on g = c.on g := congrArg (· != 0) h.q

end SameField

/-! ### What follows from the authority state of the halves -/

/-- The fields of a half that its authority logic derives, but for the state itself. -/
def derivedFields (k : Nat) : List RF := [F.AUTH_STATUS_SHADOW_OK k, F.AUTH_STATUS_SENSE_OK k, F.AUTH_STATUS_DEG_SRC k, F.AUTH_STATUS_SAFE_STOP k]

/-- The fields of the Calliper that tell of DEGRADED. -/
def degradedFields : List RF :=
  [F.CALLIPER_STATUS_DEGRADED 0, F.CALLIPER_STATUS_DEGRADED 1, F.CALLIPER_STATUS_SWITCHED 0, F.CALLIPER_STATUS_SWITCHED 1]

section
variable {g : RF} {c d : Chip}

theorem Chip.syncDegraded_same (c : Chip) (hev : ¬ eventReg g.addr) (hg : ∀ f ∈ degradedFields, f.Apart g) : SameField g c c.syncDegraded := by
  simp only [degradedFields, List.forall_mem_cons, List.not_mem_nil, false_imp_iff, implies_true, and_true] at hg
  obtain ⟨hd0, hd1, hs0, hs1⟩ := hg
  unfold Chip.syncDegraded
  extract_lets +onlyGivenNames n was set d
  have hd : SameField g c d := ((SameField.refl c).put hs0 n).put hs1 n
  have hset (v : Nat) : SameField g c (set v d) := ((((hd.put hd0 v).put hd1 v).envTurn _ _).envTurn _ _)
  split
  · exact (hset 1).ev hev _ _ _
  · exact (hset 0).ev hev _ _ _
  · exact hd

theorem Chip.observe_same (c : Chip) (h : Half) (k : Nat) (hev : ¬ eventReg g.addr) (hg : (F.AUTH_STATUS_STATE h.idx).Apart g) :
    SameField g c (c.observe h k) := ((SameField.refl c).put hg 3).ev hev _ _ _

/-- The chip after a half that is left alone has entered OBSERVER (R349). -/
def Chip.loneTurn (c : Chip) (h : Half) : Chip := if c.lone h then c.observe h 0 else c

/-- Besides that turn a half's authority logic writes the fields it derives only. -/
theorem Chip.syncAuthHalf_loneTurn (c : Chip) (h : Half) (hev : ¬ eventReg g.addr) (hg : ∀ f ∈ derivedFields h.idx, f.Apart g)
    (hup : ¬ (c.down.get h = true ∨ c.authState h = 0)) : SameField g (c.loneTurn h) (c.syncAuthHalf h) := by
  simp only [derivedFields, List.forall_mem_cons, List.not_mem_nil, false_imp_iff, implies_true, and_true] at hg
  obtain ⟨hshadow, hsense, hdeg, hstop⟩ := hg
  unfold Chip.syncAuthHalf
  rw [if_neg hup]
  extract_lets +onlyGivenNames c1 x off soft ready c2 c3 ok c4 c5
  have h3 : SameField g c1 c3 := ((SameField.refl c1).setAuthSt h _).put hshadow _
  have h4 : SameField g c1 c4 := .ite h3 ((h3.put hsense _).ev hev _ _ _)
  have h5 : SameField g c1 c5 := h4.put hdeg _
  exact .ite ((h5.put hstop _).ev hev _ _ _) (.ite ((h5.put hstop _).ev hev _ _ _) h5)

theorem Chip.syncAuthHalf_same (c : Chip) (h : Half) (hev : ¬ eventReg g.addr) (hg : ∀ f ∈ derivedFields h.idx, f.Apart g)
    (hstate : c.lone h = false ∨ (F.AUTH_STATUS_STATE h.idx).Apart g) : SameField g c (c.syncAuthHalf h) := by
  by_cases hup : c.down.get h = true ∨ c.authState h = 0
  · exact (congrArg (SameField g c) (if_pos hup)).mpr (.refl c)
  · refine SameField.trans ?_ (c.syncAuthHalf_loneTurn h hev hg hup)
    unfold Chip.loneTurn
    split
    · next hl => exact c.observe_same h 0 hev (hstate.resolve_left (ne_of_eq_of_ne hl (by decide)))
    · exact .refl c

end

/-- A field that neither what follows from the authority state nor an event writes. -/
structure Settled (g : RF) : Prop where
  event : ¬ eventReg g.addr
  derived : ∀ f ∈ derivedFields 0 ++ derivedFields 1 ++ degradedFields, f.Apart g

namespace Settled

variable {g : RF}

theorem half (hg : Settled g) (h : Half) : ∀ f ∈ derivedFields h.idx, f.Apart g := fun f hf =>
  hg.derived f (List.mem_append_left _ (by cases h with
    | H => exact List.mem_append_left _ hf
    | T => exact List.mem_append_right _ hf))

theorem degraded (hg : Settled g) : ∀ f ∈ degradedFields, f.Apart g := fun f hf => hg.derived f (List.mem_append_right _ hf)

theorem state (h : Half) : Settled (F.AUTH_STATUS_STATE h.idx) := by cases h <;> exact ⟨by unfold eventReg; decide, by decide⟩
theorem outEn (h : Half) : Settled (F.AUTH_STATUS_OUT_EN h.idx) := by cases h <;> exact ⟨by unfold eventReg; decide, by decide⟩

end Settled

section
variable {g : RF}

/-- What one half's authority logic derives leaves the status register of the other half. -/
theorem Chip.syncAuthHalf_other (c : Chip) (h : Half) (hg : g.addr = Reg.AUTH_STATUS h.other.idx) : SameField g c (c.syncAuthHalf h) := by
  have hne : g.addr ≠ Reg.AUTH_STATUS h.idx := by
    rw [hg]
    cases h <;> decide
  have hev : ¬ eventReg g.addr := by
    rw [hg]
    cases h <;> (unfold eventReg; decide)
  refine c.syncAuthHalf_same h hev ?_ (.inr ⟨Nat.le_of_ble_eq_true rfl, .inl hne⟩)
  simp only [derivedFields, List.forall_mem_cons, List.not_mem_nil, false_imp_iff, implies_true, and_true]
  exact ⟨⟨Nat.le_of_ble_eq_true rfl, .inl hne⟩, ⟨Nat.le_of_ble_eq_true rfl, .inl hne⟩, ⟨Nat.le_of_ble_eq_true rfl, .inl hne⟩,
    Nat.le_of_ble_eq_true rfl, .inl hne⟩

theorem Chip.lone_of_same {c d : Chip} {h : Half} (hs : ∀ {g : RF}, g.addr = Reg.AUTH_STATUS h.idx → SameField g c d) : d.lone h = c.lone h := by
  unfold Chip.lone Chip.authState
  rw [(hs (g := F.AUTH_STATUS_STATE h.idx) rfl).q, (hs (g := F.AUTH_STATUS_ARB_PRESENT h.idx) rfl).on,
    (hs (g := F.AUTH_STATUS_PEER_SILENT h.idx) rfl).on, (hs (g := F.AUTH_STATUS_PEER_DOWN h.idx) rfl).on]

/-- What follows from the authority state leaves a settled field, but for the state of a half that is left alone. -/
theorem Chip.syncAuth_same (c : Chip) (hg : Settled g) (hstate : ∀ h : Half, c.lone h = false ∨ (F.AUTH_STATUS_STATE h.idx).Apart g) :
    SameField g c c.syncAuth := by
  have hH : SameField g c (c.syncAuthHalf .H) := c.syncAuthHalf_same .H hg.event (hg.half .H) (hstate .H)
  have hlone : (c.syncAuthHalf .H).lone .T = c.lone .T := Chip.lone_of_same fun ha => c.syncAuthHalf_other .H ha
  have hT : SameField g (c.syncAuthHalf .H) ((c.syncAuthHalf .H).syncAuthHalf .T) :=
    Chip.syncAuthHalf_same _ .T hg.event (hg.half .T) (by rw [hlone]; exact hstate .T)
  exact hH.trans (hT.trans (Chip.syncDegraded_same _ hg.event hg.degraded))

end

/-! ### The gateway writes above the authority logic -/

section
variable {g : RF} {c d : Chip}

theorem SameField.setPair (h : SameField g c d) {lo hi : Nat} (hlo : g.addr ≠ lo) (hhi : g.addr ≠ hi) (v : Nat) :
    SameField g c (d.setPair lo hi v) := (h.setReg hlo _).setReg hhi _

theorem SameField.putAbove (h : SameField g c d) {f : RF} (hf : g.addr < f.addr) (v : Nat) : SameField g c (d.put f v) :=
  h.trans ⟨d.q_put_ne v (Nat.ne_of_lt hf), rfl⟩

theorem SameField.foldl_snd {α β : Type} (l : List α) (s : β × Chip → α → β × Chip) (hs : ∀ a x, SameField g a.2 (s a x).2) (a : β × Chip) :
    SameField g a.2 (l.foldl s a).2 := by
  induction l generalizing a with
  | nil => exact .refl a.2
  | cons x l ih => exact (hs a x).trans (ih (s a x))

variable (hev : ¬ eventReg g.addr) (hg : g.addr < 0xB00000)

section
include hg

theorem Chip.cvuSet_same (c : Chip) (n v : Nat) : SameField g c (c.cvuSet n v) := by
  have hval : SameField g c (c.setPair (Reg.CVU_VAL_LO n) (Reg.CVU_VAL_HI n) v) :=
    (SameField.refl c).setPair (by unfold Reg.CVU_VAL_LO; omega) (by unfold Reg.CVU_VAL_HI; omega) v
  unfold Chip.cvuSet
  extract_lets +onlyGivenNames d
  split
  · exact hval.setPair (by unfold Reg.CVU_RESULT_LO; omega) (by unfold Reg.CVU_RESULT_HI; omega) _
  · exact hval

theorem Chip.syncQueued_same (c : Chip) (p : Nat) : SameField g c (c.syncQueued p) := by
  have hstat : g.addr < Reg.GW_CAN_STAT p := by unfold Reg.GW_CAN_STAT; omega
  exact .ite ((SameField.refl c).putAbove hstat _) (.refl c)

end

include hev hg

theorem Chip.cvuLatch_same (c : Chip) (n : Nat) : SameField g c (c.cvuLatch n) := by
  have hframes : g.addr < Reg.CVU_FRAMES n := by unfold Reg.CVU_FRAMES; omega
  have hstatus : g.addr < Reg.CVU_STATUS n := by unfold Reg.CVU_STATUS; omega
  have hmismatch : g.addr < Reg.CVU_MISMATCH n := by unfold Reg.CVU_MISMATCH; omega
  unfold Chip.cvuLatch
  extract_lets +onlyGivenNames r d e d1 k d2
  have hd : SameField g c d :=
    ((SameField.refl c).setPair (by unfold Reg.CVU_LAST_LO; omega) (by unfold Reg.CVU_LAST_HI; omega) r).putAbove hframes _
  have h1 : SameField g c d1 := hd.putAbove hstatus 1
  have h2 : SameField g c d2 := (hd.putAbove hstatus 0).putAbove hmismatch _
  exact .ite hd (.ite (h1.setCvuRun _) (.ite ((h2.setCvuRun _).raise hev _) (h2.setCvuRun _)))

theorem Chip.cvuFrame_same (c : Chip) (n : Nat) (bs : List Byte) : SameField g c (c.cvuFrame n bs) := by
  have hinit : SameField g c (c.cvuInit n) := by
    unfold Chip.cvuInit
    split
    · exact Chip.cvuSet_same hg c n _
    · exact .refl c
  have hfeed (d : Chip) : SameField g d (d.cvuFeed n bs) := by
    unfold Chip.cvuFeed
    split
    · exact Chip.cvuSet_same hg d n _
    · exact .refl d
  exact (hinit.trans (hfeed _)).trans (Chip.cvuLatch_same hev hg _ n)

theorem Chip.cvuOutbound_same (c : Chip) (h : Half) (f : Nat) (d : List Byte) : SameField g c (c.cvuOutbound h f d).2 := by
  unfold Chip.cvuOutbound
  extract_lets +onlyGivenNames l
  refine (SameField.foldl_snd _ _ (fun a n => ?_) (d, c)).trans (SameField.foldl _ _ (fun d n => Chip.cvuFrame_same hev hg d n _) _)
  split
  · exact .refl a.2
  · exact Chip.cvuFrame_same hev hg a.2 n _

theorem Chip.enqueue_same (c : Chip) (q : GQueued) (j : Bool) : SameField g c (c.enqueue q j) := by
  have hcredit : SameField g c (c.settleCredit q.port q.tc) := by
    unfold Chip.settleCredit
    split
    · exact .of_regs rfl rfl
    · exact .refl c
  unfold Chip.enqueue
  extract_lets +onlyGivenNames d
  have hqueue (l : List GQueued) : SameField g c { d with gwQueue := l } := hcredit.trans (.of_regs rfl rfl)
  refine .ite (.ite ?_ ?_) ?_
  · exact (hqueue _).trans (Chip.syncQueued_same hg _ _)
  · exact ((hqueue _).ev hev _ _ _).trans (Chip.syncQueued_same hg _ _)
  · exact (hqueue _).trans (Chip.syncQueued_same hg _ _)

theorem Chip.packRoute_same (c : Chip) (f now r : Nat) (d : List Byte) : SameField g c (c.packRoute f now r d).2 := by
  have hclamp : g.addr < F.GW_CLAMP_CNT_COUNT.addr := Nat.lt_trans hg (by decide)
  have hstale : g.addr < F.GW_STALE_CNT_COUNT.addr := Nat.lt_trans hg (by decide)
  unfold Chip.packRoute
  extract_lets +onlyGivenNames x n put
  split
  · split
    have hfree : SameField g c { c with freeCnt := c.freeCnt + 1 } := .of_regs rfl rfl
    exact .ite ((hfree.setRoute r _).putAbove hclamp _) (hfree.setRoute r _)
  · have hroute := (SameField.refl (g := g) c).setRoute r { x with fresh := false, stale := true }
    exact .ite hroute ((hroute.putAbove hstale _).ev hev _ _ _)

omit hg in
theorem Chip.noteTx_same (c : Chip) (key : Nat) (t : Option Nat) (t0 t1 : Nat) : SameField g c (c.noteTx key t t0 t1) := by
  have htx := fun l => (SameField.refl (g := g) c).setGwTx l
  unfold Chip.noteTx
  extract_lets +onlyGivenNames x no
  split
  · extract_lets +onlyGivenNames e
    split
    · exact .ite (htx _) ((htx _).ev hev _ _ _)
    · exact htx _
  · exact .ite (htx _) ((htx _).ev hev _ _ _)

theorem Chip.assemble_same (c : Chip) (f p now : Nat) (rs : List Nat) : SameField g c (c.assemble f p now rs) := by
  have hdrop : g.addr < F.GW_DROP_CNT_COUNT.addr := Nat.lt_trans hg (by decide)
  unfold Chip.assemble
  split
  next d1 c1 h1 =>
  have hc1 : SameField g c c1 := by
    have := SameField.foldl_snd rs (fun (a : List Byte × Chip) r => a.2.packRoute f now r a.1)
      (fun a r => Chip.packRoute_same hev hg a.2 f now r a.1) (c.template f (c.q (F.GW_TXF_CFG_LEN f)), c)
    rw [h1] at this
    exact this
  extract_lets +onlyGivenNames h two c2
  split
  next d3 c3 h3 =>
  have hc2 : SameField g c c2 := .ite (hc1.trans (Chip.cvuOutbound_same hev hg _ _ _ _)) hc1
  have hc3 : SameField g c c3 := by
    have := Chip.cvuOutbound_same hev hg c2 h f d1
    rw [h3] at this
    exact hc2.trans this
  extract_lets +onlyGivenNames ident part tc
  exact .ite (hc3.trans (Chip.enqueue_same hev hg _ _ _)) ((hc3.putAbove hdrop _).ev hev _ _ _)

theorem Chip.frameInstant_same (c : Chip) (f : Nat) (again : Bool) : SameField g c (c.frameInstant f again) := by
  unfold Chip.frameInstant
  extract_lets +onlyGivenNames now rs gated due t0 t1 t d
  refine .ite (.refl c) (.ite (.ite (.refl c) (.of_regs rfl rfl)) ?_)
  have hd : SameField g c d := Chip.noteTx_same hev c f t t0 t1
  clear_value t
  split
  · exact hd.trans (Chip.assemble_same hev hg d f _ now rs)
  · exact hd

theorem Chip.forward_same (c : Chip) (r n : Nat) : SameField g c (c.forward r n) := by
  induction n generalizing c with
  | zero => exact .refl c
  | succ n ih =>
    unfold Chip.forward
    extract_lets +onlyGivenNames out t0 t1
    split
    · exact .refl c
    · extract_lets +onlyGivenNames gated tx d part
      have hd : SameField g c d := .ite (.refl c) (Chip.noteTx_same hev c _ _ _ _)
      clear_value tx
      split
      · exact hd
      · extract_lets +onlyGivenNames tc ident
        refine .ite hd ?_
        exact ((hd.setRoute r _).trans (Chip.enqueue_same hev hg _ _ _)).trans (ih _)

theorem Chip.ageRoute_same (c : Chip) (r : Nat) : SameField g c (c.ageRoute r) := by
  have hdrop : g.addr < F.GW_DROP_CNT_COUNT.addr := Nat.lt_trans hg (by decide)
  unfold Chip.ageRoute
  extract_lets +onlyGivenNames x now keep
  refine ((SameField.refl c).setRoute r { x with queue := keep }).trans ?_
  generalize c.setRoute r { x with queue := keep } = d
  unfold Chip.routeDrops
  extract_lets +onlyGivenNames y e
  have he : SameField g d e := ((SameField.refl d).putAbove hdrop _).setRoute r _
  exact .ite (.refl d) (.ite he (he.ev hev _ _ _))

theorem Chip.gwOutEn_same (c : Chip) : SameField g c c.gwOutEn := by
  have hheld : SameField g c { c with gwHeld := [] } := .of_regs rfl rfl
  have hframes := SameField.foldl (g := g) c.gwHeld (fun d f => d.frameInstant f true) (fun d f => Chip.frameInstant_same hev hg d f true)
  refine (hheld.trans (hframes _)).trans ?_
  exact .ite (.refl _) (SameField.foldl _ _ (fun d r => (Chip.ageRoute_same hev hg d r).trans (Chip.forward_same hev hg _ r 8)) _)

omit hev in
theorem Chip.recallGated_same (c : Chip) (h : Half) : SameField g c (c.recallGated h) := by
  unfold Chip.recallGated
  extract_lets +onlyGivenNames l d
  have hd : SameField g c d := .of_regs rfl rfl
  refine hd.trans (SameField.foldl _ _ (fun d q => ?_) d)
  extract_lets +onlyGivenNames e
  have he : SameField g d e := Chip.syncQueued_same hg d _
  split
  · exact .ite he (he.trans (.of_regs rfl rfl))
  · exact he.trans (.of_regs rfl rfl)
  · exact he

end

/-! ### At most one half drives -/

/-- The halves that are DOWN are the same, and a half that drives has driven before. -/
structure OutKept (c d : Chip) : Prop where
  down : d.down = c.down
  out : ∀ k, d.outEn k = true → c.outEn k = true

namespace OutKept

variable {c d e : Chip}

theorem refl (c : Chip) : OutKept c c := ⟨rfl, fun _ => id⟩
theorem trans (h : OutKept c d) (k : OutKept d e) : OutKept c e := ⟨k.down.trans h.down, fun x hx => h.out x (k.out x hx)⟩
theorem of_same (h : ∀ k : Half, SameField (F.AUTH_STATUS_OUT_EN k.idx) c d) : OutKept c d := ⟨(h .H).down, fun k hk => (h k).on.symm.trans hk⟩

theorem of_regs (hr : d.regs = c.regs) (hd : d.down = c.down) : OutKept c d := of_same fun _ => .of_regs hr hd

theorem ite {p : Prop} [Decidable p] (hd : OutKept c d) (he : OutKept c e) : OutKept c (if p then d else e) := by
  split
  · exact hd
  · exact he

theorem put (h : OutKept c d) (k : Half) {lo wid : Nat} (hf : lo + wid ≤ 29 ∨ 30 ≤ lo ∧ lo + wid ≤ 32) (v : Nat) :
    OutKept c (d.put ⟨Reg.AUTH_STATUS k.idx, lo, wid⟩ v) := by
  refine h.trans (of_same fun x => (SameField.refl d).put ⟨?_, ?_⟩ v)
  · dsimp only
    omega
  · exact .inr (hf.imp id And.left)
theorem setReg (h : OutKept c d) {a : Nat} (ha : ∀ k : Half, Reg.AUTH_STATUS k.idx ≠ a) (v : Nat) : OutKept c (d.setReg a v) :=
  h.trans (of_same fun k => (SameField.refl d).setReg (ha k) v)
theorem setEpoch (h : OutKept c d) (k : Half) (v : Nat) : OutKept c (d.setReg (Reg.AUTH_EPOCH k.idx) v) :=
  h.setReg (fun x => by cases k <;> cases x <;> decide) v
theorem setPeerEpoch (h : OutKept c d) (k : Half) (v : Nat) : OutKept c (d.setReg (Reg.AUTH_PEER_EPOCH k.idx) v) :=
  h.setReg (fun x => by cases k <;> cases x <;> decide) v
theorem setAuthSt (h : OutKept c d) (k : Half) (x : AuthSt) : OutKept c (d.setAuthSt k x) := h.trans (of_regs rfl rfl)
theorem ev (h : OutKept c d) (k : Half) (code : Nat) (l : List Nat) : OutKept c (d.ev k code l) :=
  h.trans (of_same fun x => (SameField.refl d).ev (Settled.outEn x).event k code l)
theorem syncAuth (h : OutKept c d) : OutKept c d.syncAuth :=
  h.trans (of_same fun x => d.syncAuth_same (Settled.outEn x) fun k => .inr (by cases k <;> cases x <;> decide))

theorem lower (h : OutKept c d) (k : Half) : OutKept c (d.put (F.AUTH_STATUS_OUT_EN k.idx) 0) := by
  refine h.trans ⟨Chip.put_down d _ 0, fun x hx => ?_⟩
  by_cases hxk : x = k
  · subst hxk
    have hoff : (d.put (F.AUTH_STATUS_OUT_EN x.idx) 0).outEn x = false := d.on_put_same (F.AUTH_STATUS_OUT_EN x.idx) 0 (Nat.le_of_ble_eq_true rfl)
    exact absurd (hoff.symm.trans hx) (by decide)
  · have hne : (F.AUTH_STATUS_OUT_EN x.idx).addr ≠ (F.AUTH_STATUS_OUT_EN k.idx).addr := by revert hxk; cases x <;> cases k <;> decide
    have hq : (d.put (F.AUTH_STATUS_OUT_EN k.idx) 0).outEn x = d.outEn x := congrArg (· != 0) (d.q_put_ne 0 hne)
    exact hq.symm.trans hx

theorem recallGated (h : OutKept c d) (k : Half) : OutKept c (d.recallGated k) :=
  h.trans (of_same fun x => d.recallGated_same (by cases x <;> decide) k)

theorem setGap (h : OutKept c d) (p : Option (Pair Nat)) (k : Option Half) : OutKept c { d with gapFrom := p, lastDriver := k } := h.trans (of_regs rfl rfl)

theorem dropOut (h : OutKept c d) (k : Half) : OutKept c (d.dropOut k) := .ite (((h.lower k).setGap _ _).recallGated k) h

theorem leaveCharge (h : OutKept c d) (k : Half) (state cause : Nat) : OutKept c (d.leaveCharge k state cause) := by
  unfold Chip.leaveCharge
  extract_lets +onlyGivenNames e e'
  have he : OutKept c e := (h.put k (by decide) state).dropOut k
  exact .ite h ((he.setAuthSt k _).ev k _ _)

theorem claim (h : OutKept c d) (k : Half) (cause : Nat) : OutKept c (d.claim k cause) := by
  unfold Chip.claim
  extract_lets +onlyGivenNames own peer e src x y
  have hx : OutKept c x := h.setAuthSt k _
  have hy : OutKept c y := .ite (hx.ev k _ _) hx
  exact (((hy.setEpoch k e).put k (by decide) 2).ev k _ _).syncAuth

theorem tie (h : OutKept c d) (k : Half) : OutKept c (d.tie k) := by
  unfold Chip.tie
  extract_lets +onlyGivenNames arb x first e e'
  have he' : OutKept c e' := .ite ((h.setAuthSt k _).ev k _ _) (h.setAuthSt k _)
  refine .ite (.ite he' (he'.leaveCharge k 1 3)) ?_
  cases k with
  | T => exact (he'.leaveCharge .T 3 3).ev .T _ _
  | H => exact .ite he' (he'.setAuthSt .H _)

theorem messageActs (h : OutKept c d) (k : Half) (m : AuthMsg) : OutKept c (d.messageActs k m) := by
  unfold Chip.messageActs
  extract_lets +onlyGivenNames own x isTie e src e'
  have he : OutKept c e := .ite h (h.setAuthSt k _)
  have he' : OutKept c e' := .ite ((he.setAuthSt k _).setEpoch k m.epoch)
    (.ite ((he.setEpoch k m.epoch).leaveCharge k 1 2) (.ite (he.tie k) he))
  clear_value e'
  refine .ite ?_ (.ite he' (he'.setAuthSt k _))
  split
  · exact he'.setAuthSt k _
  · exact .ite (he'.claim k 1) he'

theorem pathGood (h : OutKept c d) (k : Half) (p : Nat) (next : Bool) : OutKept c (d.pathGood k p next) := by
  unfold Chip.pathGood
  extract_lets +onlyGivenNames x n e f
  have he : OutKept c e := h.setAuthSt k _
  have hf : OutKept c (e.put f 1) := by
    by_cases hp : p = 0
    · exact (congrArg (fun f => OutKept c (e.put f 1)) (if_pos hp)).mpr (he.put k (by decide) 1)
    · exact (congrArg (fun f => OutKept c (e.put f 1)) (if_neg hp)).mpr (he.put k (by decide) 1)
  exact .ite (hf.ev k _ _) he

theorem receiveAuth (h : OutKept c d) (k : Half) (p : Nat) (good : Bool) : OutKept c (d.receiveAuth k p good) := by
  unfold Chip.receiveAuth
  extract_lets +onlyGivenNames w x
  split
  · exact h
  · next m _ =>
    extract_lets +onlyGivenNames next x' fed e e'
    refine .ite (h.setAuthSt k _) (.ite h ?_)
    have he : OutKept c e := (h.setAuthSt k _).pathGood k p next
    have he' : OutKept c e' := ((he.put k (by decide) m.state).put k (by decide) 0).setPeerEpoch k m.epoch
    exact (he'.messageActs k m).syncAuth

theorem fitness (h : OutKept c d) (k : Half) (n : Nat) (ok : Bool) : OutKept c (d.fitness k n ok) := by
  unfold Chip.fitness
  extract_lets +onlyGivenNames old new x e e1 e2
  have he : OutKept c e := h.put k (by decide) new
  have he1 : OutKept c e1 := he.setAuthSt k _
  have he2 : OutKept c e2 := .ite he1 (he1.ev k _ _)
  exact .ite he (.ite ((he.setAuthSt k _).ev k _ _) (.ite he2 (.ite (he2.leaveCharge k 1 0) he2)))

theorem requestHandover (h : OutKept c d) (k : Half) : OutKept c (d.requestHandover k) :=
  .ite (h.ev k _ _) (.ite (h.ev k _ _) (h.setAuthSt k _))

theorem clearObserver (h : OutKept c d) (k : Half) : OutKept c (d.clearObserver k) :=
  .ite (((h.put k (by decide) 1).ev k _ _).syncAuth) h

theorem putRequest (h : OutKept c d) (k : Half) (lo wid v : Nat) : OutKept c (d.put ⟨Reg.AUTH_REQ k.idx, lo, wid⟩ v) :=
  h.setReg (a := Reg.AUTH_REQ k.idx) (fun x => by cases k <;> cases x <;> decide) _

theorem refusalEvent (h : OutKept c d) (k : Half) (m : Option Cmd) (o : Owner) (a cause engine : Nat) :
    OutKept c (d.refusalEvent k m o a cause engine) := by
  have hraise (v : Event) : OutKept c (d.raise v) := h.trans (of_same fun x => (SameField.refl d).raise (Settled.outEn x).event v)
  unfold Chip.refusalEvent
  extract_lets +onlyGivenNames i typ mk
  have hmk (code : Nat) (l : List Nat) : OutKept c (mk code l) := by
    cases m with
    | some m => exact hraise _
    | none => exact hraise _
  split
  · refine .ite ?_ (hmk _ _)
    split <;> exact hmk _ _
  · exact hmk _ _
  · exact hmk _ _
  · exact hmk _ _
  · exact h

theorem authWrite (i : Initiator) (k : Half) (f : Chip → Chip) (hf : OutKept c (f c)) : OutKept c (c.authWrite i k f) := by
  unfold Chip.authWrite
  extract_lets +onlyGivenNames a
  split
  · exact .ite (.refl c) hf
  · exact (refl c).refusalEvent k none _ _ _ _

end OutKept

/-- Not both halves drive, and a half that is DOWN does not. -/
def Chip.OneDrives (c : Chip) : Prop := (c.outEn .H && c.outEn .T) = false ∧ ∀ k, c.down.get k = true → c.outEn k = false

theorem OutKept.oneDrives {c d : Chip} (h : OutKept c d) (hc : c.OneDrives) : d.OneDrives := by
  obtain ⟨hboth, hdown⟩ := hc
  refine ⟨Bool.eq_false_iff.2 fun hd => ?_, fun k hk => Bool.eq_false_iff.2 fun hd => ?_⟩
  · obtain ⟨hH, hT⟩ := Bool.and_eq_true_iff.1 hd
    exact Bool.eq_false_iff.1 hboth (Bool.and_eq_true_iff.2 ⟨h.out .H hH, h.out .T hT⟩)
  · exact Bool.eq_false_iff.1 (hdown k (h.down ▸ hk)) (h.out k hd)

/-! #### The rise -/

theorem Chip.peerOff_out {c : Chip} {h : Half} (hc : c.OneDrives) (hr : c.mayRise h = true) : c.outEn h.other = false ∧ c.down.get h = false := by
  unfold Chip.mayRise at hr
  simp only [Bool.and_eq_true, Bool.or_eq_true, Bool.not_eq_true'] at hr
  obtain ⟨⟨⟨⟨⟨⟨hdown, _⟩, _⟩, _⟩, _⟩, _⟩, hpeer⟩ := hr
  refine ⟨?_, hdown⟩
  rcases hpeer with hp | ⟨hs, _⟩
  · exact hc.2 _ (Bool.and_eq_true_iff.1 hp).2
  · exact (Bool.not_eq_true' _).mp (Bool.and_eq_true_iff.1 hs).2

section
variable {g : RF}

theorem SameField.pwmStart {c d : Chip} (h : SameField g c d) (k : Half) (n : Nat) : SameField g c (d.pwmStart k n) := h.trans (.of_regs rfl rfl)
theorem SameField.setGapFrom {c d : Chip} (h : SameField g c d) (p : Option (Pair Nat)) : SameField g c { d with gapFrom := p } := h.trans (.of_regs rfl rfl)

/-- What a rise does besides setting OUT_EN leaves every field but those that tell of the gap. -/
theorem Chip.riseOut_same (c : Chip) (h : Half) (hev : ¬ eventReg g.addr) (hcnt : g.addr ≠ Reg.AUTH_HANDOVER_CNT h.idx)
    (hlast : g.addr ≠ Reg.AUTH_LAST_GAP h.idx) (hmax : g.addr ≠ Reg.AUTH_MAX_GAP h.idx) :
    SameField g (c.put (F.AUTH_STATUS_OUT_EN h.idx) 1) (c.riseOut h) := by
  unfold Chip.riseOut
  extract_lets +onlyGivenNames d e
  have he : SameField g d e := SameField.foldl _ _ (fun x n => (SameField.refl x).pwmStart h n) d
  split
  · extract_lets +onlyGivenNames gap e1 e2
    have h1 : SameField g d e1 := (he.setReg hcnt _).setReg hlast _
    have h2 : SameField g d e2 := h1.setReg hmax _
    exact .ite he ((h2.setGapFrom none).ev hev _ _ _)
  · exact he

end

/-- The rise of a half's outputs leaves those of its peer. -/
theorem Chip.rise_other (c : Chip) (h : Half) : SameField (F.AUTH_STATUS_OUT_EN h.other.idx) c ((c.riseOut h).gwOutEn.syncAuth) := by
  have hset := Settled.outEn h.other
  have hput : SameField (F.AUTH_STATUS_OUT_EN h.other.idx) c (c.put (F.AUTH_STATUS_OUT_EN h.idx) 1) :=
    (SameField.refl c).put (by cases h <;> decide) 1
  have hrise := c.riseOut_same (g := F.AUTH_STATUS_OUT_EN h.other.idx) h hset.event (by cases h <;> decide) (by cases h <;> decide) (by cases h <;> decide)
  exact ((hput.trans hrise).trans (Chip.gwOutEn_same hset.event (by cases h <;> decide) _)).trans
    (Chip.syncAuth_same _ hset fun k => .inr (by cases h <;> cases k <;> decide))

theorem Chip.rise_oneDrives {c : Chip} {h : Half} (hc : c.OneDrives) (hr : c.mayRise h = true) : ((c.riseOut h).gwOutEn.syncAuth).OneDrives := by
  obtain ⟨hpeer, hup⟩ := Chip.peerOff_out hc hr
  have hsame := c.rise_other h
  generalize (c.riseOut h).gwOutEn.syncAuth = t at hsame ⊢
  have hother : t.outEn h.other = false := hsame.on.trans hpeer
  refine ⟨?_, fun k hk => ?_⟩
  · cases h with
    | H => exact Bool.and_eq_false_iff.2 (.inr hother)
    | T => exact Bool.and_eq_false_iff.2 (.inl hother)
  · have hdown : c.down.get k = true := hsame.down ▸ hk
    by_cases hkh : k = h
    · subst hkh
      exact absurd (hdown.symm.trans hup) (by decide)
    · have : k = h.other := by revert hkh; cases k <;> cases h <;> decide
      rw [this]
      exact hother

/-! #### The commands -/

/-- An outcome is a next state with the same halves DOWN in which a half drives only if it has driven before. -/
def State.KeepsOut (s : State) (o : Host.Outcome State Fault Refusal) : Prop := ∃ d, o = s.go d ∧ OutKept s.chip d

theorem State.KeepsOut.ite {s : State} {p : Prop} [Decidable p] {a b : Host.Outcome State Fault Refusal} (ha : s.KeepsOut a) (hb : s.KeepsOut b) :
    s.KeepsOut (if p then a else b) := by
  split
  · exact ha
  · exact hb

theorem State.KeepsOut.go {s : State} {d : Chip} (h : OutKept s.chip d) : s.KeepsOut (s.go d) := ⟨d, rfl, h⟩

section
variable (s : State) (h : Half)

theorem execAuthorityMessageSend_keepsOut : s.KeepsOut (execAuthorityMessageSend h s) :=
  .ite (.go (.refl _)) (.go (.of_regs rfl rfl))

theorem execAuthorityMessage_keepsOut (p : Fin 2) (good : Bool) : s.KeepsOut (execAuthorityMessage h p good s) :=
  .ite (.go (.refl _)) (.go ((OutKept.refl _).receiveAuth h p good))

theorem execPathLoss_keepsOut (p : Fin 2) : s.KeepsOut (execPathLoss h p s) := by
  have hbase := (OutKept.refl s.chip)
  unfold execPathLoss
  extract_lets +onlyGivenNames c f n x d
  have hd : OutKept s.chip d := hbase.setAuthSt h _
  have hf : OutKept s.chip ((d.put f 0).inc n) := by
    have herr : OutKept s.chip (d.put f 0) := by
      by_cases hp : p.val = 0
      · exact (congrArg (fun f => OutKept s.chip (d.put f 0)) (if_pos hp)).mpr (hd.put h (by decide) 0)
      · exact (congrArg (fun f => OutKept s.chip (d.put f 0)) (if_neg hp)).mpr (hd.put h (by decide) 0)
    have hn : n.addr = Reg.AUTH_PATH_ERR h.idx := by
      show (if p.val = 0 then F.AUTH_PATH_ERR_HL_LOST h.idx else F.AUTH_PATH_ERR_SB_LOST h.idx).addr = _
      split <;> rfl
    exact herr.setReg (fun k => by rw [hn]; cases h <;> cases k <;> decide) _
  exact .ite (.go hbase) (.ite (.go (hf.ev h _ _).syncAuth) (.go hd))

theorem execPeerSilent_keepsOut : s.KeepsOut (execPeerSilent h s) :=
  .ite (.go (.refl _)) (.go (((OutKept.refl _).put h (by decide) 1).ev h _ _).syncAuth)

theorem execPeerDown_keepsOut : s.KeepsOut (execPeerDown h s) :=
  .ite (.go (.refl _)) (.go (((OutKept.refl _).put h (by decide) 1).ev h _ _).syncAuth)

theorem execClaim_keepsOut : s.KeepsOut (execClaim h s) := by
  unfold execClaim
  split
  · exact .go ((OutKept.refl _).claim h _)
  · exact .go (.refl _)

theorem execFitnessChange_keepsOut (k : Fin 6) (ok : Bool) : s.KeepsOut (execFitnessChange h k ok s) :=
  .ite (.go (.refl _)) (.go ((OutKept.refl _).fitness h k ok).syncAuth)

theorem execUnfitMaxExpiry_keepsOut : s.KeepsOut (execUnfitMaxExpiry h s) := by
  unfold execUnfitMaxExpiry
  extract_lets +onlyGivenNames c
  split
  · exact .ite (.go ((OutKept.refl _).leaveCharge h 1 1).syncAuth) (.go (.refl _))
  · exact .go (.refl _)

theorem execTieHoldOffExpiry_keepsOut : s.KeepsOut (execTieHoldOffExpiry s) := by
  unfold execTieHoldOffExpiry
  extract_lets +onlyGivenNames c x
  split
  · exact .ite (.go ((OutKept.refl _).setAuthSt .H _)) (.go (.refl _))
  · exact .go (.refl _)

theorem execHandover_keepsOut (i : Initiator) : s.KeepsOut (execHandover i h s) :=
  .go (.authWrite i h _ (((OutKept.refl _).putRequest h _ _ 1).requestHandover h))

theorem execClearObs_keepsOut (i : Initiator) : s.KeepsOut (execClearObs i h s) :=
  .go (.authWrite i h _ (((OutKept.refl _).putRequest h _ _ 1).clearObserver h))

theorem execArbSelChange_keepsOut (v : Bool × Bool) : s.KeepsOut (execArbSelChange h v s) := by
  unfold execArbSelChange
  extract_lets +onlyGivenNames c old new src d e
  have hd : OutKept s.chip d := (OutKept.refl _).setAuthSt h _
  have he : OutKept s.chip e := (hd.put h (by decide) new).ev h _ _
  exact .ite (.go (.refl _)) (.ite (.go hd) (.go (OutKept.ite (he.dropOut h) he).syncAuth))

theorem execSafeStopAssert_keepsOut : s.KeepsOut (execSafeStopAssert h s) := by
  unfold execSafeStopAssert
  extract_lets +onlyGivenNames c
  split
  · exact .ite (.go (.refl _)) (.go (((OutKept.refl _).put h (by decide) 1).ev h _ _).syncAuth)
  · exact .go (.refl _)

end

theorem State.next_of_go {s t : State} {d : Chip} (h : s.go d = .next t) : d = t.chip :=
  congrArg State.chip (Host.Outcome.next.inj ((s.go_eq d).symm.trans h))

theorem State.chip_of_go {s : State} {c d : Chip} (h : s.go d = .next (s.withChip c)) : d = c := State.next_of_go h

/-- Settles O45: every command but a rise of outputs leaves a half that does not drive so, and a rise of one half is admitted only
where the other's OUT_EN has been read as off or the other is DOWN. -/
theorem oneHalfDrives : Obligations.OneHalfDrives := by
  intro x s t i h p k v b hx one hone ht
  have kept {o : Host.Outcome State Fault Refusal} (hk : s.KeepsOut o) (ho : o = .next t) : Chip.OneDrives t.chip := by
    obtain ⟨d, hd, hout⟩ := hk
    exact State.next_of_go (hd.symm.trans ho) ▸ hout.oneDrives hone
  simp only [List.mem_cons, List.not_mem_nil, or_false] at hx
  rcases hx with rfl | rfl | rfl | rfl | rfl | rfl | rfl | rfl | rfl | rfl | rfl | rfl | rfl | rfl
  · exact kept (execAuthorityMessageSend_keepsOut s h) ht
  · exact kept (execAuthorityMessage_keepsOut s h p b) ht
  · exact kept (execPathLoss_keepsOut s h p) ht
  · exact kept (execPeerSilent_keepsOut s h) ht
  · exact kept (execPeerDown_keepsOut s h) ht
  · exact kept (execClaim_keepsOut s h) ht
  · exact kept (execFitnessChange_keepsOut s h k b) ht
  · exact kept (execUnfitMaxExpiry_keepsOut s h) ht
  · exact kept (execTieHoldOffExpiry_keepsOut s) ht
  · exact kept (execHandover_keepsOut s h i) ht
  · exact kept (execClearObs_keepsOut s h i) ht
  · exact kept (execArbSelChange_keepsOut s h v) ht
  · by_cases hr : s.chip.mayRise h = true ∧ ¬ (h = .T ∧ s.chip.mayRise .H = true)
    · have hgo : execOutEnRise h s = s.go ((s.chip.riseOut h).gwOutEn.syncAuth) := if_pos hr
      exact State.next_of_go (hgo.symm.trans ht) ▸ Chip.rise_oneDrives hone hr.1
    · exact kept (show s.KeepsOut (execOutEnRise h s) from ⟨s.chip, if_neg hr, .refl _⟩) ht
  · exact kept (execSafeStopAssert_keepsOut s h) ht

end Machine

end Sys2Proof

/-! PROOF. Messages, claims, fitness and requests of the authority logic (R343–R361): what each leaves in the registers of its half. -/

namespace Sys2Proof

namespace Machine

/-! ### The state register after what follows from it -/

theorem Chip.q_observe (c : Chip) (h : Half) (k : Nat) : (c.observe h k).authState h = 3 :=
  (Chip.q_ev _ h 0x0804 [h.idx, k] (Settled.state h).event).trans (c.q_put_same (F.AUTH_STATUS_STATE h.idx) 3 (Nat.le_of_ble_eq_true rfl))

theorem Chip.authState_syncAuthHalf (c : Chip) (h : Half) (hdown : c.down.get h = false) :
    (c.syncAuthHalf h).authState h = if c.lone h then 3 else c.authState h := by
  by_cases hzero : c.authState h = 0
  · have hlone : c.lone h = false := by
      unfold Chip.lone
      rw [hzero]
      rfl
    rw [hlone]
    exact congrArg (Chip.authState · h) (if_pos (.inr hzero))
  · have hup : ¬ (c.down.get h = true ∨ c.authState h = 0) := by
      rw [hdown]
      exact not_or.2 ⟨by decide, hzero⟩
    refine (c.syncAuthHalf_loneTurn h (Settled.state h).event ((Settled.state h).half h) hup).q.trans ?_
    unfold Chip.loneTurn
    by_cases hlone : c.lone h = true
    · rw [if_pos hlone, if_pos hlone]
      exact c.q_observe h 0
    · rw [if_neg hlone, if_neg hlone]
      rfl

/-- Once everything has followed, a half that is not DOWN is in OBSERVER if it was left alone, and otherwise where it was. -/
theorem Chip.authState_syncAuth (c : Chip) (h : Half) (hdown : c.down.get h = false) :
    c.syncAuth.authState h = if c.lone h then 3 else c.authState h := by
  refine (Chip.syncDegraded_same _ (Settled.state h).event (Settled.state h).degraded).q.trans ?_
  cases h with
  | H => exact (Chip.syncAuthHalf_other (g := F.AUTH_STATUS_STATE Half.H.idx) (c.syncAuthHalf .H) .T rfl).q.trans (c.authState_syncAuthHalf .H hdown)
  | T =>
    have hother {g : RF} (hg : g.addr = Reg.AUTH_STATUS Half.T.idx) : SameField g c (c.syncAuthHalf .H) := c.syncAuthHalf_other .H hg
    have hstate : (c.syncAuthHalf .H).authState .T = c.authState .T := (hother (g := F.AUTH_STATUS_STATE Half.T.idx) rfl).q
    have hd : (c.syncAuthHalf .H).down.get .T = false := by
      rw [(hother (g := F.AUTH_STATUS_STATE Half.T.idx) rfl).down]
      exact hdown
    refine ((c.syncAuthHalf .H).authState_syncAuthHalf .T hd).trans ?_
    rw [Chip.lone_of_same hother, hstate]

/-! ### Chips that agree on a part of a half's authority logic -/

/-- Two chips agree on a part of the authority logic of a half. -/
def SameAuth {α : Type} (π : AuthSt → α) (h : Half) (c d : Chip) : Prop := π (d.auth.get h) = π (c.auth.get h)

/-- A part of the authority logic of a half in which its own conclusions do not stand. -/
structure Outside {α : Type} (π : AuthSt → α) : Prop where
  derived : ∀ x off hand soft, π { x with offSince := off, handoff := hand, softSince := soft } = π x
  dropped : ∀ x, π { x with handoff := false, softSince := none, tieHold := none } = π x

namespace SameAuth

variable {α : Type} {π : AuthSt → α} {h : Half} {c d e : Chip}

theorem refl (c : Chip) : SameAuth π h c c := rfl
theorem trans (hd : SameAuth π h c d) (he : SameAuth π h d e) : SameAuth π h c e := Eq.trans he hd
theorem of_auth (ha : d.auth = c.auth) : SameAuth π h c d := congrArg (fun p : Pair AuthSt => π (p.get h)) ha

theorem ite {p : Prop} [Decidable p] (hd : SameAuth π h c d) (he : SameAuth π h c e) : SameAuth π h c (if p then d else e) := by
  split
  · exact hd
  · exact he

theorem put (hd : SameAuth π h c d) (f : RF) (v : Nat) : SameAuth π h c (d.put f v) := hd.trans (of_auth (d.put_auth f v))
theorem setReg (hd : SameAuth π h c d) (a v : Nat) : SameAuth π h c (d.setReg a v) := hd.trans (of_auth (d.setReg_auth a v))
theorem ev (hd : SameAuth π h c d) (k : Half) (code : Nat) (l : List Nat) : SameAuth π h c (d.ev k code l) :=
  hd.trans (of_auth (EventPart.ev (f := Chip.auth) (fun _ _ _ _ _ _ _ _ _ _ _ _ => rfl) d k code l))

theorem setAuthSt (hd : SameAuth π h c d) (k : Half) (x : AuthSt) (hx : π x = π (d.auth.get k)) : SameAuth π h c (d.setAuthSt k x) := by
  refine hd.trans ?_
  unfold SameAuth Chip.setAuthSt
  by_cases hk : k = h
  · subst hk
    rw [Pair.get_set_same, hx]
  · have : h = k.other := by revert hk; cases k <;> cases h <;> decide
    subst this
    rw [Pair.get_set_other]

theorem foldl {β : Type} (l : List β) (s : Chip → β → Chip) (hs : ∀ d x, SameAuth π h d (s d x)) (c : Chip) : SameAuth π h c (l.foldl s c) := by
  induction l generalizing c with
  | nil => exact refl c
  | cons x l ih => exact (hs c x).trans (ih (s c x))

theorem recallGated (hd : SameAuth π h c d) (k : Half) : SameAuth π h c (d.recallGated k) := by
  refine hd.trans ?_
  unfold Chip.recallGated
  extract_lets +onlyGivenNames l e
  have he : SameAuth π h d e := of_auth rfl
  refine he.trans (foldl _ _ (fun c q => ?_) e)
  extract_lets +onlyGivenNames c1
  have h1 : SameAuth π h c c1 := .ite ((refl c).put _ _) (refl c)
  split
  · exact .ite h1 (h1.trans (of_auth rfl))
  · exact h1.trans (of_auth rfl)
  · exact h1

theorem envTurn (hd : SameAuth π h c d) (k : Half) (r : Bool) : SameAuth π h c (d.envTurn k r) := hd.trans (of_auth rfl)

theorem setGap (hd : SameAuth π h c d) (p : Option (Pair Nat)) (k : Option Half) : SameAuth π h c { d with gapFrom := p, lastDriver := k } :=
  hd.trans (of_auth rfl)

theorem dropOut (hd : SameAuth π h c d) (k : Half) : SameAuth π h c (d.dropOut k) := .ite (((hd.put (F.AUTH_STATUS_OUT_EN k.idx) 0).setGap _ _).recallGated k) hd

theorem syncDegraded (hd : SameAuth π h c d) : SameAuth π h c d.syncDegraded := by
  unfold Chip.syncDegraded
  extract_lets +onlyGivenNames n was set e
  have he : SameAuth π h c e := (hd.put _ n).put _ n
  have hset (v : Nat) : SameAuth π h c (set v e) := ((((he.put _ v).put _ v).envTurn _ _).envTurn _ _)
  split
  · exact (hset 1).ev _ _ _
  · exact (hset 0).ev _ _ _
  · exact he

variable (hπ : Outside π)
include hπ

theorem leaveCharge (hd : SameAuth π h c d) (k : Half) (state cause : Nat) : SameAuth π h c (d.leaveCharge k state cause) := by
  unfold Chip.leaveCharge
  extract_lets +onlyGivenNames e
  have he : SameAuth π h c e := (hd.put _ state).dropOut k
  exact .ite hd ((he.setAuthSt k _ (hπ.dropped _)).ev k _ _)

theorem syncAuthHalf (hd : SameAuth π h c d) (k : Half) : SameAuth π h c (d.syncAuthHalf k) := by
  unfold Chip.syncAuthHalf
  refine .ite hd ?_
  extract_lets +onlyGivenNames c1 x off soft ready c2 c3 ok c4 c5
  have h1 : SameAuth π h c c1 := .ite ((hd.put _ 3).ev _ _ _) hd
  have h3 : SameAuth π h c c3 := (h1.setAuthSt k _ (hπ.derived _ _ _ _)).put _ _
  have h4 : SameAuth π h c c4 := .ite h3 ((h3.put _ _).ev _ _ _)
  have h5 : SameAuth π h c c5 := h4.put _ _
  exact .ite ((h5.put _ _).ev _ _ _) (.ite ((h5.put _ _).ev _ _ _) h5)

theorem syncAuth (hd : SameAuth π h c d) : SameAuth π h c d.syncAuth := ((hd.syncAuthHalf hπ .H).syncAuthHalf hπ .T).syncDegraded

end SameAuth

theorem outside_lastValid : Outside AuthSt.lastValid := ⟨fun _ _ _ _ => rfl, fun _ => rfl⟩

/-! ### Leaving charge -/

/-- A field of a half aside of what its authority logic may turn: its state, its outputs, its epoch. -/
structure Aside (g : RF) (h : Half) : Prop extends Settled g where
  state : ∀ k : Half, (F.AUTH_STATUS_STATE k.idx).Apart g
  out : (F.AUTH_STATUS_OUT_EN h.idx).Apart g
  epoch : g.addr ≠ Reg.AUTH_EPOCH h.idx
  low : g.addr < 0xB00000

section
variable {g : RF} {h : Half}

theorem SameField.setGap {c d : Chip} (hd : SameField g c d) (p : Option (Pair Nat)) (k : Option Half) :
    SameField g c { d with gapFrom := p, lastDriver := k } := hd.trans (.of_regs rfl rfl)

theorem SameField.dropOut {c d : Chip} (hd : SameField g c d) (hout : (F.AUTH_STATUS_OUT_EN h.idx).Apart g) (hlow : g.addr < 0xB00000) :
    SameField g c (d.dropOut h) :=
  .ite (((hd.put hout 0).setGap _ _).trans (Chip.recallGated_same hlow _ h)) hd

theorem SameField.leaveCharge {c d : Chip} (hd : SameField g c d) (hev : ¬ eventReg g.addr) (hstate : (F.AUTH_STATUS_STATE h.idx).Apart g)
    (hout : (F.AUTH_STATUS_OUT_EN h.idx).Apart g) (hlow : g.addr < 0xB00000) (state cause : Nat) : SameField g c (d.leaveCharge h state cause) := by
  unfold Chip.leaveCharge
  extract_lets +onlyGivenNames e
  have he : SameField g c e := (hd.put hstate state).dropOut hout hlow
  exact .ite hd ((he.setAuthSt h _).ev hev h _ _)

theorem Chip.outEn_dropOut (c : Chip) (h : Half) : (c.dropOut h).outEn h = false := by
  unfold Chip.dropOut
  split
  · exact (((SameField.refl (c.put (F.AUTH_STATUS_OUT_EN h.idx) 0)).setGap _ _).trans (Chip.recallGated_same (by cases h <;> decide) _ h)).on.trans
      (c.on_put_same (F.AUTH_STATUS_OUT_EN h.idx) 0 (Nat.le_of_ble_eq_true rfl))
  · next hout => exact Bool.eq_false_iff.2 hout

/-- A half in CHARGE that leaves it takes the state named, and its outputs are off. -/
theorem Chip.leaveCharge_turns (c : Chip) (h : Half) (state cause : Nat) (hc : c.inCharge h = true) :
    (c.leaveCharge h state cause).authState h = state % 4 ∧ (c.leaveCharge h state cause).outEn h = false := by
  unfold Chip.leaveCharge
  rw [if_neg (not_not_intro hc)]
  extract_lets +onlyGivenNames d
  have hrest {g : RF} (hg : ¬ eventReg g.addr) (k : Nat) (x : AuthSt) (l : List Nat) : SameField g d ((d.setAuthSt h x).ev h k l) :=
    ((SameField.refl d).setAuthSt h _).ev hg h _ _
  have hstate : (c.put (F.AUTH_STATUS_STATE h.idx) state).authState h = state % 4 := c.q_put_same _ state (Nat.le_of_ble_eq_true rfl)
  have hdrop := (SameField.refl (g := F.AUTH_STATUS_STATE h.idx) (c.put (F.AUTH_STATUS_STATE h.idx) state)).dropOut
    (h := h) (by cases h <;> decide) (by cases h <;> decide)
  exact ⟨((hrest (Settled.state h).event _ _ _).q.trans hdrop.q).trans hstate, (hrest (Settled.outEn h).event _ _ _).on.trans (Chip.outEn_dropOut _ h)⟩

end

/-! ### Messages -/

theorem Chip.q_word (c : Chip) (a : Nat) : c.q ⟨a, 0, 32⟩ = c.reg a := by
  unfold Chip.q bits
  rw [pow_zero, Nat.div_one, Nat.mod_eq_of_lt (c.reg_lt a)]

section
variable {g : RF} {h : Half} {c d : Chip}

theorem SameField.syncAuth (hd : SameField g c d) (hg : Aside g h) : SameField g c d.syncAuth :=
  hd.trans (d.syncAuth_same hg.toSettled fun k => .inr (hg.state k))

theorem SameField.claim (hd : SameField g c d) (hg : Aside g h) (cause : Nat) : SameField g c (d.claim h cause) := by
  unfold Chip.claim
  extract_lets +onlyGivenNames own peer e src x y
  have hx : SameField g c x := hd.setAuthSt h _
  have hy : SameField g c y := .ite (hx.ev hg.event h _ _) hx
  exact (((hy.setReg hg.epoch e).put (hg.state h) 2).ev hg.event h _ _).syncAuth hg

theorem SameField.tie (hd : SameField g c d) (hg : Aside g h) : SameField g c (d.tie h) := by
  unfold Chip.tie
  extract_lets +onlyGivenNames arb x first e e'
  have he' : SameField g c e' := .ite ((hd.setAuthSt h _).ev hg.event h _ _) (hd.setAuthSt h _)
  refine .ite (.ite he' (he'.leaveCharge hg.event (hg.state h) hg.out hg.low 1 3)) ?_
  cases h with
  | T => exact (he'.leaveCharge hg.event (hg.state .T) hg.out hg.low 3 3).ev hg.event .T _ _
  | H => exact .ite he' (he'.setAuthSt .H _)

theorem SameField.messageActs (hd : SameField g c d) (hg : Aside g h) (m : AuthMsg) : SameField g c (d.messageActs h m) := by
  unfold Chip.messageActs
  extract_lets +onlyGivenNames own x isTie e src e'
  have he : SameField g c e := .ite hd (hd.setAuthSt h _)
  have he' : SameField g c e' := .ite ((he.setAuthSt h _).setReg hg.epoch m.epoch)
    (.ite ((he.setReg hg.epoch m.epoch).leaveCharge hg.event (hg.state h) hg.out hg.low 1 2) (.ite (he.tie hg) he))
  clear_value e'
  refine .ite ?_ (.ite he' (he'.setAuthSt h _))
  split
  · exact he'.setAuthSt h _
  · exact .ite (he'.claim hg 1) he'

theorem SameField.pathGood (hd : SameField g c d) (hev : ¬ eventReg g.addr) (hhl : (F.AUTH_STATUS_PATH_HL h.idx).Apart g)
    (hsb : (F.AUTH_STATUS_PATH_SB h.idx).Apart g) (p : Nat) (next : Bool) : SameField g c (d.pathGood h p next) := by
  unfold Chip.pathGood
  extract_lets +onlyGivenNames x n e f
  have he : SameField g c e := hd.setAuthSt h _
  have hf : f.Apart g := by
    show (if p = 0 then F.AUTH_STATUS_PATH_HL h.idx else F.AUTH_STATUS_PATH_SB h.idx).Apart g
    split
    · exact hhl
    · exact hsb
  exact .ite ((he.put hf 1).ev hev h _ _) he

end

section
variable {h : Half} {c d : Chip}

theorem SameAuth.claim (hd : SameAuth AuthSt.lastValid h c d) (k : Half) (cause : Nat) : SameAuth AuthSt.lastValid h c (d.claim k cause) := by
  unfold Chip.claim
  extract_lets +onlyGivenNames own peer e src x y
  have hx : SameAuth AuthSt.lastValid h c x := hd.setAuthSt k _ (by rfl)
  have hy : SameAuth AuthSt.lastValid h c y := .ite (hx.ev k _ _) hx
  exact (((hy.setReg _ e).put _ 2).ev k _ _).syncAuth outside_lastValid

theorem SameAuth.tie (hd : SameAuth AuthSt.lastValid h c d) (k : Half) : SameAuth AuthSt.lastValid h c (d.tie k) := by
  unfold Chip.tie
  extract_lets +onlyGivenNames arb x first e e'
  have he' : SameAuth AuthSt.lastValid h c e' := .ite ((hd.setAuthSt k _ (by rfl)).ev k _ _) (hd.setAuthSt k _ (by rfl))
  refine .ite (.ite he' (he'.leaveCharge outside_lastValid k 1 3)) ?_
  cases k with
  | T => exact (he'.leaveCharge outside_lastValid .T 3 3).ev .T _ _
  | H => exact .ite he' (he'.setAuthSt .H _ (by rfl))

theorem SameAuth.messageActs (hd : SameAuth AuthSt.lastValid h c d) (k : Half) (m : AuthMsg) : SameAuth AuthSt.lastValid h c (d.messageActs k m) := by
  unfold Chip.messageActs
  extract_lets +onlyGivenNames own x isTie e src e'
  have he : SameAuth AuthSt.lastValid h c e := .ite hd (hd.setAuthSt k _ (by rfl))
  have he' : SameAuth AuthSt.lastValid h c e' := .ite ((he.setAuthSt k _ (by rfl)).setReg _ m.epoch)
    (.ite ((he.setReg _ m.epoch).leaveCharge outside_lastValid k 1 2) (.ite (he.tie k) he))
  clear_value e'
  refine .ite ?_ (.ite he' (he'.setAuthSt k _ (by rfl)))
  split
  · exact he'.setAuthSt k _ (by rfl)
  · exact .ite (he'.claim k 1) he'

theorem SameAuth.pathGood {α : Type} {π : AuthSt → α} (hd : SameAuth π h c d) (hhl : ∀ x n, π { x with hlGood := n } = π x)
    (hsb : ∀ x n, π { x with sbGood := n } = π x) (k : Half) (p : Nat) (next : Bool) : SameAuth π h c (d.pathGood k p next) := by
  unfold Chip.pathGood
  extract_lets +onlyGivenNames x n e f
  have he : SameAuth π h c e := hd.setAuthSt k _ (by
    split
    · exact hhl _ _
    · exact hsb _ _)
  exact .ite ((he.put f 1).ev k _ _) he

end

/-- A message of a higher epoch without the handoff flag: its epoch becomes the half's own, and a half in CHARGE leaves it. -/
theorem Chip.messageActs_higher (c : Chip) (h : Half) (m : AuthMsg) (habove : epochAbove m.epoch (c.reg (Reg.AUTH_EPOCH h.idx)) = true)
    (hhand : m.handoff = false) (hstart : (c.auth.get h).atStart = false ∨ m.state ≠ 2 ∨ c.authState h = 2) :
    (c.messageActs h m).reg (Reg.AUTH_EPOCH h.idx) = m.epoch % 2 ^ 32 ∧
      (c.messageActs h m).authState h = if c.authState h = 2 then 1 else c.authState h := by
  have hev : ¬ eventReg (Reg.AUTH_EPOCH h.idx) := by cases h <;> (unfold eventReg; decide)
  unfold Chip.messageActs
  extract_lets +onlyGivenNames own x isTie e src e'
  have he {g : RF} : SameField g c e := .ite (.refl c) ((SameField.refl c).setAuthSt h _)
  have hcharge : e.inCharge h = c.inCharge h := congrArg (· == 2) he.q
  have hturn : e' = (e.setReg (Reg.AUTH_EPOCH h.idx) m.epoch).leaveCharge h 1 2 := by
    refine (if_neg fun hc => ?_).trans (if_pos habove)
    obtain ⟨hat, hst, hnot⟩ := hc
    rcases hstart with hs | hs | hs
    · exact absurd (hs.symm.trans hat) (by decide)
    · exact hs hst
    · exact hnot (hcharge.trans (beq_iff_eq.2 hs))
  clear_value e'
  subst hturn
  rw [if_neg (fun hc => absurd (hhand.symm.trans hc.1) (by decide)), if_neg (fun hc => absurd (hhand.symm.trans hc) (by decide))]
  have hrest {g : RF} : SameField g ((e.setReg (Reg.AUTH_EPOCH h.idx) m.epoch).leaveCharge h 1 2)
      (((e.setReg (Reg.AUTH_EPOCH h.idx) m.epoch).leaveCharge h 1 2).setAuthSt h
        { ((e.setReg (Reg.AUTH_EPOCH h.idx) m.epoch).leaveCharge h 1 2).auth.get h with offered := none }) := (SameField.refl _).setAuthSt h _
  have hepoch : ((e.setReg (Reg.AUTH_EPOCH h.idx) m.epoch).leaveCharge h 1 2).q (F.AUTH_EPOCH_EPOCH h.idx) = m.epoch % 2 ^ 32 := by
    refine ((SameField.refl _).leaveCharge hev (by cases h <;> decide) (by cases h <;> decide) (by cases h <;> decide) 1 2).q.trans ?_
    exact (Chip.q_word _ _).trans (e.reg_setReg_same _ _)
  refine ⟨(Chip.q_word _ _).symm.trans (hrest.q.trans hepoch), hrest.q.trans ?_⟩
  have hstate : (e.setReg (Reg.AUTH_EPOCH h.idx) m.epoch).authState h = c.authState h :=
    (e.q_setReg_ne m.epoch (by cases h <;> decide)).trans he.q
  by_cases hc : c.authState h = 2
  · rw [if_pos hc]
    exact (Chip.leaveCharge_turns _ h 1 2 (beq_iff_eq.2 (hstate.trans hc))).1
  · rw [if_neg hc, ← hstate]
    exact congrArg (Chip.authState · h) (if_pos fun hin => hc (hstate.symm.trans (beq_iff_eq.1 hin)))

/-- What a half has before it acts on a message: the message is noted, the silence has ended. -/
structure Noted (c : Chip) (h : Half) (m : AuthMsg) (d : Chip) : Prop where
  heard : (d.auth.get h).lastValid = c.stamp h 0
  start : (d.auth.get h).atStart = (c.auth.get h).atStart
  down : d.down = c.down
  state : d.authState h = c.authState h
  epoch : d.reg (Reg.AUTH_EPOCH h.idx) = c.reg (Reg.AUTH_EPOCH h.idx)
  peerEpoch : d.q (F.AUTH_PEER_EPOCH_EPOCH h.idx) = m.epoch % 2 ^ 32
  peerState : d.q (F.AUTH_STATUS_PEER_STATE h.idx) = m.state % 4
  silent : d.on (F.AUTH_STATUS_PEER_SILENT h.idx) = false

theorem Chip.receiveAuth_new (c : Chip) (h : Half) (p : Nat) (m : AuthMsg)
    (hm : (if p = 0 then (c.authWire.get h.other).1 else (c.authWire.get h.other).2) = some m)
    (hseq : (if p = 0 then (c.auth.get h).hlSeq else (c.auth.get h).sbSeq) ≠ some m.seq) :
    ∃ d, c.receiveAuth h p true = (d.messageActs h m).syncAuth ∧ Noted c h m d := by
  unfold Chip.receiveAuth
  extract_lets +onlyGivenNames w x
  split
  · next hn => exact absurd (hn.symm.trans hm) (by simp)
  next m' hm' =>
  obtain rfl : m' = m := Option.some.inj (hm'.symm.trans hm)
  rw [if_neg (by decide), if_neg hseq]
  extract_lets +onlyGivenNames next x' fed e e'
  refine ⟨e', rfl, ?_⟩
  have hx' : x'.lastValid = x.lastValid ∧ x'.atStart = x.atStart := by
    show (if p = 0 then { x with hlSeq := some m'.seq } else { x with sbSeq := some m'.seq } : AuthSt).lastValid = _ ∧
      (if p = 0 then { x with hlSeq := some m'.seq } else { x with sbSeq := some m'.seq } : AuthSt).atStart = _
    split <;> exact ⟨rfl, rfl⟩
  have hget (y : AuthSt) : (c.setAuthSt h y).auth.get h = y := Pair.get_set_same _ _ _
  have hpath {g : RF} (hev : ¬ eventReg g.addr) (hhl : (F.AUTH_STATUS_PATH_HL h.idx).Apart g) (hsb : (F.AUTH_STATUS_PATH_SB h.idx).Apart g) :
      SameField g c e := ((SameField.refl c).setAuthSt h _).pathGood hev hhl hsb p next
  have hputs {g : RF} (hst : (F.AUTH_STATUS_PEER_STATE h.idx).Apart g) (hsi : (F.AUTH_STATUS_PEER_SILENT h.idx).Apart g)
      (hep : g.addr ≠ Reg.AUTH_PEER_EPOCH h.idx) : SameField g e e' :=
    (((SameField.refl e).put hst m'.state).put hsi 0).setReg hep m'.epoch
  have hauth {α : Type} {π : AuthSt → α} : SameAuth π h e e' := (((SameAuth.refl e).put _ _).put _ _).setReg _ _
  have hstate : SameField (F.AUTH_STATUS_STATE h.idx) c e' :=
    (hpath (Settled.state h).event (by cases h <;> decide) (by cases h <;> decide)).trans
      (hputs (by cases h <;> decide) (by cases h <;> decide) (by cases h <;> decide))
  have hepoch : SameField (F.AUTH_EPOCH_EPOCH h.idx) c e' :=
    (hpath (by cases h <;> (unfold eventReg; decide)) (by cases h <;> decide) (by cases h <;> decide)).trans
      (hputs (by cases h <;> decide) (by cases h <;> decide) (by cases h <;> decide))
  constructor
  case heard =>
    have hgood : SameAuth AuthSt.lastValid h _ e := (SameAuth.refl _).pathGood (fun _ _ => rfl) (fun _ _ => rfl) h p next
    exact Eq.trans (hgood.trans hauth) (congrArg AuthSt.lastValid (hget _))
  case start =>
    have hgood : SameAuth AuthSt.atStart h _ e := (SameAuth.refl _).pathGood (fun _ _ => rfl) (fun _ _ => rfl) h p next
    exact (Eq.trans (hgood.trans hauth) (congrArg AuthSt.atStart (hget _))).trans hx'.2
  case down => exact hstate.down
  case state => exact hstate.q
  case epoch => exact (Chip.q_word _ _).symm.trans (hepoch.q.trans (Chip.q_word _ _))
  case peerEpoch => exact (Chip.q_word _ _).trans (Chip.reg_setReg_same _ _ _)
  case peerState =>
    exact ((Chip.q_setReg_ne _ _ (by cases h <;> decide)).trans (Chip.q_put_apart _ 0 (by cases h <;> decide))).trans
      (e.q_put_same (F.AUTH_STATUS_PEER_STATE h.idx) m'.state (Nat.le_of_ble_eq_true rfl))
  case silent =>
    have hoff : e'.q (F.AUTH_STATUS_PEER_SILENT h.idx) = 0 :=
      (Chip.q_setReg_ne _ _ (by cases h <;> decide)).trans (Chip.q_put_same _ (F.AUTH_STATUS_PEER_SILENT h.idx) 0 (Nat.le_of_ble_eq_true rfl))
    exact congrArg (· != 0) hoff

theorem aside_peerEpoch (h : Half) : Aside (F.AUTH_PEER_EPOCH_EPOCH h.idx) h := by
  cases h <;> exact ⟨⟨by unfold eventReg; decide, by decide⟩, fun k => by cases k <;> decide, by decide, by decide, by decide⟩
theorem aside_peerState (h : Half) : Aside (F.AUTH_STATUS_PEER_STATE h.idx) h := by
  cases h <;> exact ⟨⟨by unfold eventReg; decide, by decide⟩, fun k => by cases k <;> decide, by decide, by decide, by decide⟩
theorem aside_peerSilent (h : Half) : Aside (F.AUTH_STATUS_PEER_SILENT h.idx) h := by
  cases h <;> exact ⟨⟨by unfold eventReg; decide, by decide⟩, fun k => by cases k <;> decide, by decide, by decide, by decide⟩

theorem settled_epoch (h : Half) : Settled (F.AUTH_EPOCH_EPOCH h.idx) := by
  cases h <;> exact ⟨by unfold eventReg; decide, by decide⟩

theorem Chip.not_lone_of_heard {c : Chip} {h : Half} (hs : c.on (F.AUTH_STATUS_PEER_SILENT h.idx) = false) : c.lone h = false := by
  unfold Chip.lone
  rw [hs, Bool.and_false, Bool.false_and]

theorem message_clause (h : Half) (p : Fin 2) (m : AuthMsg) (s : State) (hdown : s.chip.down.get h = false)
    (hm : (if p.val = 0 then (s.chip.authWire.get h.other).1 else (s.chip.authWire.get h.other).2) = some m)
    (hseq : (if p.val = 0 then (s.chip.auth.get h).hlSeq else (s.chip.auth.get h).sbSeq) ≠ some m.seq) :
    ∃ t, exec (.authorityMessage h p true) s = .next (s.withChip t) ∧ (t.auth.get h).lastValid = s.chip.stamp h 0 ∧
      t.reg (Reg.AUTH_PEER_EPOCH h.idx) = m.epoch % 2 ^ 32 ∧ t.q (F.AUTH_STATUS_PEER_STATE h.idx) = m.state % 4 ∧
      t.on (F.AUTH_STATUS_PEER_SILENT h.idx) = false ∧
      (epochAbove m.epoch (s.chip.reg (Reg.AUTH_EPOCH h.idx)) = true → m.handoff = false →
        ((s.chip.auth.get h).atStart = false ∨ m.state ≠ 2 ∨ s.chip.authState h = 2) →
        t.reg (Reg.AUTH_EPOCH h.idx) = m.epoch % 2 ^ 32 ∧ t.authState h = (if s.chip.authState h = 2 then 1 else s.chip.authState h)) := by
  obtain ⟨d, hd, hn⟩ := s.chip.receiveAuth_new h p.val m hm hseq
  have hexec : exec (.authorityMessage h p true) s = s.go ((d.messageActs h m).syncAuth) :=
    (if_neg (ne_of_eq_of_ne hdown (by decide))).trans (congrArg s.go hd)
  have hacts {g : RF} (hg : Aside g h) : SameField g d (d.messageActs h m) := (SameField.refl d).messageActs hg m
  have hsync {g : RF} (hg : Aside g h) : SameField g d (d.messageActs h m).syncAuth := (hacts hg).syncAuth hg
  have hlast : SameAuth AuthSt.lastValid h d (d.messageActs h m).syncAuth := ((SameAuth.refl d).messageActs h m).syncAuth outside_lastValid
  refine ⟨_, hexec.trans (s.go_eq _), Eq.trans hlast hn.heard, ?_, (hsync (aside_peerState h)).q.trans hn.peerState,
    (hsync (aside_peerSilent h)).on.trans hn.silent, fun habove hhand hstart => ?_⟩
  · exact (Chip.q_word _ _).symm.trans ((hsync (aside_peerEpoch h)).q.trans hn.peerEpoch)
  · obtain ⟨hepoch, hstate⟩ := d.messageActs_higher h m (hn.epoch ▸ habove) hhand (hn.start ▸ hn.state ▸ hstart)
    have hlone : (d.messageActs h m).lone h = false := Chip.not_lone_of_heard ((hacts (aside_peerSilent h)).on.trans hn.silent)
    have hup : (d.messageActs h m).down.get h = false := by
      rw [(hacts (aside_peerSilent h)).down, hn.down]
      exact hdown
    refine ⟨?_, ?_⟩
    · have hsame := (d.messageActs h m).syncAuth_same (settled_epoch h) fun k => .inr (by cases h <;> cases k <;> decide)
      exact (Chip.q_word _ _).symm.trans (hsame.q.trans ((Chip.q_word _ _).trans hepoch))
    · rw [Chip.authState_syncAuth _ h hup, hlone, hstate, hn.state]
      rfl

/-! ### Lost paths, silence, loss -/

theorem settled_path (h : Half) : Settled (F.AUTH_STATUS_PATH_HL h.idx) ∧ Settled (F.AUTH_STATUS_PATH_SB h.idx) := by
  cases h <;> exact ⟨⟨by unfold eventReg; decide, by decide⟩, by unfold eventReg; decide, by decide⟩
theorem settled_pathErr (h : Half) : Settled (F.AUTH_PATH_ERR_HL_LOST h.idx) ∧ Settled (F.AUTH_PATH_ERR_SB_LOST h.idx) := by
  cases h <;> exact ⟨⟨by unfold eventReg; decide, by decide⟩, by unfold eventReg; decide, by decide⟩
theorem settled_peerSilent (h : Half) : Settled (F.AUTH_STATUS_PEER_SILENT h.idx) := (aside_peerSilent h).toSettled

theorem Chip.lost_setAuthSt (c : Chip) (h : Half) (x : AuthSt) (f n : RF) :
    (((c.setAuthSt h x).put f 0).inc n).regs = ((c.put f 0).inc n).regs := rfl

/-- A path that works is lost: its field reads 0, its counter counts one. -/
theorem pathLoss_clause (h : Half) (p : Fin 2) (f n : RF) (s : State)
    (hf : f = if p.val = 0 then F.AUTH_STATUS_PATH_HL h.idx else F.AUTH_STATUS_PATH_SB h.idx)
    (hn : n = if p.val = 0 then F.AUTH_PATH_ERR_HL_LOST h.idx else F.AUTH_PATH_ERR_SB_LOST h.idx)
    (hsf : Settled f) (hsn : Settled n) (hw : f.lo + f.wid ≤ 32) (hne : f.addr ≠ n.addr)
    (hfs : ∀ k : Half, (F.AUTH_STATUS_STATE k.idx).Apart f) (hns : ∀ k : Half, (F.AUTH_STATUS_STATE k.idx).Apart n)
    (hon : s.chip.on f = true) (hdown : s.chip.down.get h = false) :
    ∃ t, exec (.pathLoss h p) s = .next (s.withChip t) ∧ t.on f = false ∧ t.q n = ((s.chip.put f 0).inc n).q n := by
  have hexec : exec (.pathLoss h p) s = s.go (((((s.chip.setAuthSt h (if p.val = 0 then { s.chip.auth.get h with hlGood := 0 }
      else { s.chip.auth.get h with sbGood := 0 })).put f 0).inc n).ev h 0x0808 [h.idx, p.val]).syncAuth) := by
    subst hf hn
    exact (if_neg (ne_of_eq_of_ne hdown (by decide))).trans (if_pos hon)
  generalize (if p.val = 0 then { s.chip.auth.get h with hlGood := 0 } else { s.chip.auth.get h with sbGood := 0 } : AuthSt) = x at hexec
  have hlost := s.chip.lost_setAuthSt h x f n
  generalize ((s.chip.setAuthSt h x).put f 0).inc n = d at hexec hlost
  have hsame {g : RF} (hg : Settled g) (hst : ∀ k : Half, (F.AUTH_STATUS_STATE k.idx).Apart g) :
      SameField g d ((d.ev h 0x0808 [h.idx, p.val]).syncAuth) :=
    ((SameField.refl d).ev hg.event _ _ _).trans (Chip.syncAuth_same _ hg fun k => .inr (hst k))
  refine ⟨_, hexec.trans (s.go_eq _), (hsame hsf hfs).on.trans ?_, (hsame hsn hns).q.trans (Chip.q_of_regs hlost n)⟩
  have hoff : d.q f = 0 := ((Chip.q_of_regs hlost f).trans (Chip.q_put_ne _ _ hne)).trans
    ((s.chip.q_put_same f 0 hw).trans (Nat.zero_mod _))
  exact congrArg (· != 0) hoff

/-- A half hears silence: the field says so, and a half in STANDBY that is left alone is in OBSERVER. -/
theorem peerSilent_clause (h : Half) (s : State) (hdown : s.chip.down.get h = false)
    (hquiet : s.chip.on (F.AUTH_STATUS_PEER_SILENT h.idx) = false)
    (hlate : ((50 * usUnits : Nat) : Int) ≤ elapsed (s.chip.stamp h 0) (s.chip.auth.get h).lastValid) :
    ∃ t, exec (.peerSilent h) s = .next (s.withChip t) ∧ t.on (F.AUTH_STATUS_PEER_SILENT h.idx) = true ∧
      t.authState h = (if (s.chip.authState h == 1 && !s.chip.on (F.AUTH_STATUS_ARB_PRESENT h.idx) && !s.chip.on (F.AUTH_STATUS_PEER_DOWN h.idx)) = true
        then 3 else s.chip.authState h) := by
  have hexec : exec (.peerSilent h) s =
      s.go (((s.chip.put (F.AUTH_STATUS_PEER_SILENT h.idx) 1).ev h 0x080A [h.idx, 0]).syncAuth) :=
    if_neg (not_or.2 ⟨ne_of_eq_of_ne hdown (by decide), not_or.2 ⟨ne_of_eq_of_ne hquiet (by decide),
      not_not_intro (decide_eq_true hlate)⟩⟩)
  have hput : (s.chip.put (F.AUTH_STATUS_PEER_SILENT h.idx) 1).on (F.AUTH_STATUS_PEER_SILENT h.idx) = true :=
    s.chip.on_put_same (F.AUTH_STATUS_PEER_SILENT h.idx) 1 (Nat.le_of_ble_eq_true rfl)
  have hsame {g : RF} (hev : ¬ eventReg g.addr) (hg : (F.AUTH_STATUS_PEER_SILENT h.idx).Apart g) :
      SameField g s.chip ((s.chip.put (F.AUTH_STATUS_PEER_SILENT h.idx) 1).ev h 0x080A [h.idx, 0]) :=
    ((SameField.refl _).put hg 1).ev hev _ _ _
  have hsilent : ((s.chip.put (F.AUTH_STATUS_PEER_SILENT h.idx) 1).ev h 0x080A [h.idx, 0]).on (F.AUTH_STATUS_PEER_SILENT h.idx) = true :=
    (Chip.on_ev _ _ _ _ (settled_peerSilent h).event).trans hput
  have hstate := hsame (g := F.AUTH_STATUS_STATE h.idx) (Settled.state h).event (by cases h <;> decide)
  have harb := hsame (g := F.AUTH_STATUS_ARB_PRESENT h.idx) (by cases h <;> (unfold eventReg; decide)) (by cases h <;> decide)
  have hpd := hsame (g := F.AUTH_STATUS_PEER_DOWN h.idx) (by cases h <;> (unfold eventReg; decide)) (by cases h <;> decide)
  generalize (s.chip.put (F.AUTH_STATUS_PEER_SILENT h.idx) 1).ev h 0x080A [h.idx, 0] = d at hexec hsilent hstate harb hpd
  have hup : d.down.get h = false := by
    rw [hstate.down]
    exact hdown
  have hlone : d.lone h = (s.chip.authState h == 1 && !s.chip.on (F.AUTH_STATUS_ARB_PRESENT h.idx) && !s.chip.on (F.AUTH_STATUS_PEER_DOWN h.idx)) := by
    unfold Chip.lone Chip.authState
    rw [hstate.q, harb.on, hsilent, hpd.on, Bool.and_true]
  refine ⟨_, hexec.trans (s.go_eq _), ((d.syncAuth_same (settled_peerSilent h) fun k => .inr ((aside_peerSilent h).state k)).on).trans hsilent, ?_⟩
  rw [d.authState_syncAuth h hup, hlone]
  exact congrArg (fun n => ite _ 3 n) hstate.q

/-- Settles O43. -/
theorem authorityMessages : Obligations.AuthorityMessages := by
  refine ⟨?_, ?_, ?_, ?_, ?_⟩
  · intro h s hdown
    exact (if_neg (ne_of_eq_of_ne hdown (by decide))).trans (s.go_eq _)
  · intro h p m s c x own hdown hm hseq
    have hp : p = 0 ∨ p = 1 := by omega
    rcases hp with rfl | rfl
    · exact message_clause h 0 m s hdown hm hseq
    · exact message_clause h 1 m s hdown hm hseq
  · intro h p s f n hon hdown
    have hp : p = 0 ∨ p = 1 := by omega
    rcases hp with rfl | rfl
    · exact pathLoss_clause h 0 (F.AUTH_STATUS_PATH_HL h.idx) (F.AUTH_PATH_ERR_HL_LOST h.idx) s rfl rfl (settled_path h).1 (settled_pathErr h).1
        (Nat.le_of_ble_eq_true rfl) (by cases h <;> decide) (fun k => by cases h <;> cases k <;> decide)
        (fun k => by cases h <;> cases k <;> decide) hon hdown
    · exact pathLoss_clause h 1 (F.AUTH_STATUS_PATH_SB h.idx) (F.AUTH_PATH_ERR_SB_LOST h.idx) s rfl rfl (settled_path h).2 (settled_pathErr h).2
        (Nat.le_of_ble_eq_true rfl) (by cases h <;> decide) (fun k => by cases h <;> cases k <;> decide)
        (fun k => by cases h <;> cases k <;> decide) hon hdown
  · intro h s hdown hquiet hlate lone
    exact peerSilent_clause h s hdown hquiet hlate
  · intro h s hdown hpd hother
    have hguard : ¬ (s.chip.down.get h = true ∨ s.chip.on (F.AUTH_STATUS_PEER_DOWN h.idx) = true ∨ ¬ s.chip.down.get h.other = true) :=
      not_or.2 ⟨ne_of_eq_of_ne hdown (by decide), not_or.2 ⟨ne_of_eq_of_ne hpd (by decide), not_not_intro hother⟩⟩
    exact (if_neg hguard).trans (s.go_eq _)

end Machine

end Sys2Proof

/-! PROOF. A half that is DOWN and yet in CHARGE: what follows from its authority state is not drawn for it. -/

namespace Sys2Proof

namespace Machine

theorem exec_unfitMaxExpiry (h : Half) (b : Nat) (s : State) (hsoft : (s.chip.auth.get h).softSince = some b) (hin : s.chip.inCharge h = true)
    (hfit : s.chip.fit h = false)
    (hlate : ((s.chip.q (F.AUTH_CTL_UNFIT_MAX_MS h.idx) * 1000 * usUnits : Nat) : Int) ≤ elapsed (s.chip.stamp h 0) b) :
    exec (.unfitMaxExpiry h) s = s.go (s.chip.leaveCharge h 1 1).syncAuth := by
  show execUnfitMaxExpiry h s = _
  unfold execUnfitMaxExpiry
  extract_lets c
  rw [hsoft]
  exact if_pos ⟨hin, ne_of_eq_of_ne hfit (by decide), hlate⟩

/-- Headstock is DOWN, yet in CHARGE, unfit, with a peer it hears nothing of, and its soft failure has lasted. -/
def downInCharge : Chip :=
  let c := ((Chip.reset.put (F.AUTH_STATUS_STATE 0) 2).put (F.AUTH_STATUS_UNFIT 0) 1).put (F.AUTH_STATUS_PEER_SILENT 0) 1
  { c.put (F.AUTH_CTL_UNFIT_MAX_MS 0) 0 with
    down := ⟨true, false⟩
    auth := c.auth.set .H { c.auth.get .H with softSince := some 0 } }

/-- Refutes O44: the expiry of a soft failure on `downInCharge` leaves Headstock in STANDBY, where its silent peer, without an arbiter,
asks for OBSERVER; the statement has no premise that the half is up. -/
theorem not_authorityChanges : ¬ Obligations.AuthorityChanges := by
  intro h
  obtain ⟨-, -, hexpiry, -⟩ := h
  have hsoft : (downInCharge.auth.get .H).softSince = some 0 := rfl
  have hin : downInCharge.inCharge .H = true := by decide +kernel
  have hfit : downInCharge.fit .H = false := by decide +kernel
  have hlate : ((downInCharge.q (F.AUTH_CTL_UNFIT_MAX_MS Half.H.idx) * 1000 * usUnits : Nat) : Int) ≤ elapsed (downInCharge.stamp .H 0) 0 := by
    decide +kernel
  obtain ⟨t, ht, hstate, -⟩ := hexpiry .H 0 ⟨downInCharge, []⟩ hsoft hin hfit hlate
  have hexec := exec_unfitMaxExpiry .H 0 ⟨downInCharge, []⟩ hsoft hin hfit hlate
  have htc : (downInCharge.leaveCharge .H 1 1).syncAuth = t := State.chip_of_go (hexec.symm.trans ht)
  have hstay : (downInCharge.leaveCharge .H 1 1).syncAuth.authState .H = 1 := by decide +kernel
  rw [← htc, hstay] at hstate
  revert hstate
  decide +kernel

end Machine

end Sys2Proof

/-! PROOF. Crop-and-resize commands of the Parting units (R161, R162). -/

namespace Sys2Proof

namespace Machine

/-- A command in the lists of R162 whose boxes were all done. -/
theorem Chip.cropResize_done (c : Chip) (u : Half) (m : Cmd) (far : Far) (o : Seen) (r : CropRun) (hwild : m.cropWild = false)
    (hr : (List.range (m.fld 3 48 11)).foldl (fun x b => CropRun.box x { m with stage := .done, unit := u.idx } far o b)
      ⟨c.partingBusy u m true, 0, none⟩ = r) (hstop : r.stop = none) :
    c.cropResize u m far o = r.chip.setCmd { m with
      stage := .done, unit := u.idx, n := m.fld 3 48 11, empty := decide (m.fld 3 48 11 = 0), clamped := m.clamped || decide (0 < r.sat) } := by
  subst hr
  unfold Chip.cropResize
  refine (if_neg (ne_of_eq_of_ne (a := Cmd.cropWild { m with stage := .done, unit := u.idx }) hwild (by decide))).trans ?_
  extract_lets r m'
  split
  · next e he => exact absurd (hstop.symm.trans he) (by simp)
  · rfl

/-- Settles O17. -/
theorem partingCrops : Obligations.PartingCrops := by
  refine ⟨?_, ?_⟩
  · intro id m u far s ht hop hu hfree hwild c m' n r hstop
    have hexec : exec (.cropAndResize id far []) s = s.go (s.chip.cropResize u m far []) := by
      show execCropAndResize id s far [] = _
      unfold execCropAndResize
      simp only [ht, hu]
      exact if_pos ⟨hop, hfree⟩
    rw [hexec, s.go_eq, s.chip.cropResize_done u m far [] r hwild rfl hstop]
    rfl
  · intro c m far o box ch i j d0 hbad
    unfold Chip.cropOut
    simp only [hbad, if_true]
    exact ⟨_, rfl⟩

end Machine

end Sys2Proof

/-! PROOF. What a completion leaves of the registers below those of rings and dowels. -/

namespace Sys2Proof

namespace Machine

theorem Cmd.record_length (m : Cmd) (alt : Bool) (st gen detail phase : Nat) : (m.record alt st gen detail phase).length = 32 := by
  unfold Cmd.record
  simp only [List.length_append, toLE_length, List.length_replicate]

section
variable {g : RF} {c d : Chip}

theorem SameField.dec (h : SameField g c d) {f : RF} (hf : f.Apart g) : SameField g c (d.dec f) := h.put hf _

theorem SameField.countPair (h : SameField g c d) {lo hi : Nat} (hlo : g.addr ≠ lo) (hhi : g.addr ≠ hi) (n : Nat) :
    SameField g c (d.countPair lo hi n) := h.setPair hlo hhi _

theorem SameField.raiseFw (h : SameField g c d) (hg : ¬ eventReg g.addr) (v : Event) : SameField g c (d.raiseFw v) := by
  refine h.trans ⟨?_, eventPart_down.raiseFw d v⟩
  exact (d.raiseFw_eventFrame (M := fun _ => True) v fun _ _ => trivial).writes.q_eq fun ha => hg ha.eventReg

theorem SameField.recordRefused (h : SameField g c d) (hg : ¬ eventReg g.addr) (deaf : Bool) (r a k : Nat) :
    SameField g c (d.recordRefused deaf r a k) := by
  unfold Chip.recordRefused
  extract_lets +onlyGivenNames e
  have he : SameField g c e := h.raiseFw hg _
  exact .ite (he.raiseFw hg _) he

/-- A signal writes the dowel's value. -/
theorem SameField.signal (h : SameField g c d) (hg : g.addr < 0x10000000) (hlog : g.addr ≠ Reg.WEAR_LOG_CNT) (o : Owner) (k op v : Nat)
    (ring : Option Nat) : SameField g c (d.signal o k op v ring) := by
  have hev : ¬ eventReg g.addr := fun he => he.elim (fun h => absurd h.1 (by omega)) hlog
  have hpair (v : Nat) : SameField g c (d.setPair (Reg.DOWEL_VAL_LO k) (Reg.DOWEL_VAL_HI k) v) :=
    h.setPair (by unfold Reg.DOWEL_VAL_LO; omega) (by unfold Reg.DOWEL_VAL_HI; omega) v
  have hadd : SameField g c (d.dowelAdd o k v ring) := by
    unfold Chip.dowelAdd
    extract_lets +onlyGivenNames s
    exact .ite (hpair _) ((hpair _).raise hev _)
  exact .ite h (.ite (h.raise hev _) (.ite (hpair _) (.ite hadd h)))

end

/-- A field below the rings that no completion of a command writes. -/
structure Below (g : RF) (m : Cmd) : Prop where
  low : g.addr < 0x10000000
  log : g.addr ≠ Reg.WEAR_LOG_CNT
  attn : m.isAttn = true → g.addr ≠ Reg.ATTN_CMD_CNT_LO m.half.idx ∧ g.addr ≠ Reg.ATTN_CMD_CNT_HI m.half.idx
  parting : m.opcode = 0x30 ∨ m.opcode = 0x31 → g.addr ≠ Reg.PARTING_STATUS m.unit

namespace Below

variable {g : RF} {m : Cmd}

theorem event (h : Below g m) : ¬ eventReg g.addr := fun he => he.elim (fun k => absurd k.1 (Nat.not_le_of_lt h.low)) h.log

theorem latest (h : Below g m) (c : Chip) : Below g (c.latest m) := by
  unfold Chip.latest
  split
  · exact ⟨h.low, h.log, h.attn, h.parting⟩
  · exact h

end Below

section
variable {g : RF} {m : Cmd} {c d : Chip}

theorem SameField.leave (h : SameField g c d) (hg : Below g m) : SameField g c (d.leave m) := by
  have hring (off : Nat) (hoff : 0x10000000 ≤ off) : g.addr ≠ off + m.id.ring.val * 0x1000 := by
    have := hg.low
    omega
  have hidle : SameField g c (d.partingIdle m) := by
    unfold Chip.partingIdle
    split
    · next hp =>
      have hne := hg.parting hp.1
      exact ((h.put ⟨Nat.le_of_ble_eq_true rfl, .inl hne⟩ 0).put ⟨Nat.le_of_ble_eq_true rfl, .inl hne⟩ 0).put ⟨Nat.le_of_ble_eq_true rfl, .inl hne⟩ 0
    · exact h
  have hrel : SameField g c ((d.partingIdle m).release m) := by
    unfold Chip.release
    split
    · exact hidle
    · exact hidle.trans (.of_regs rfl rfl)
  have hdrop : SameField g c (((d.partingIdle m).release m).dropCmd m.id) := hrel.trans (.of_regs rfl rfl)
  have hst : g.addr ≠ Reg.RING_STATUS m.id.ring.val := by
    have := hg.low
    unfold Reg.RING_STATUS
    omega
  exact (hdrop.dec ⟨Nat.le_of_ble_eq_true rfl, .inl hst⟩).put ⟨Nat.le_of_ble_eq_true rfl, .inl hst⟩ _

theorem SameField.completeWith (h : SameField g c d) (hg : Below g m) (alt : Bool) (gen detail : Nat) : SameField g c (d.completeWith m alt gen detail) := by
  have hm := hg.latest d
  unfold Chip.completeWith
  extract_lets +onlyGivenNames m' detail' st e e'
  have he : SameField g c e := by
    by_cases ha : m'.isAttn = true
    · obtain ⟨hlo, hhi⟩ := hm.attn ha
      exact (congrArg (SameField g c) (if_pos ha)).mpr (h.countPair hlo hhi 1)
    · exact (congrArg (SameField g c) (if_neg ha)).mpr h
  have he' : SameField g c e' := he.leave hm
  have hw : SameField g c (e'.writeRecord m'.cq 32 (fun p _ _ => m'.record alt st gen detail' p) true).2 := by
    refine he'.trans ⟨(Chip.writeRecord_writesIn e' _ _ _ _ fun _ _ _ => Cmd.record_length ..).q_eq fun hr => ?_, eventPart_down.writeRecord e' _ _ _ _⟩
    exact absurd hr.range.1 (Nat.not_le_of_lt hm.low)
  split
  · next hwr =>
    rw [hwr] at hw
    have hdone := hw.countPair (lo := Reg.RING_DONE_LO m'.id.ring.val) (hi := Reg.RING_DONE_HI m'.id.ring.val)
      (by have := hg.low; unfold Reg.RING_DONE_LO; omega) (by have := hg.low; unfold Reg.RING_DONE_HI; omega) 1
    exact .ite (hdone.signal hg.low hg.log _ _ _ _ _) hdone
  · next hwr =>
    rw [hwr] at hw
    exact hw.recordRefused hg.event _ _ _ _
  · next hwr =>
    rw [hwr] at hw
    exact hw

end

/-- A completion takes its command out of flight, and leaves every part that neither it nor an event writes. -/
theorem Chip.completeWith_keeps {γ : Type} {f : Chip → γ} (h : EventPart f) (c : Chip) (m : Cmd) (alt : Bool) (gen detail : Nat) :
    f (c.completeWith m alt gen detail) = f { c with cmds := c.cmds.filter fun x => x.id != m.id } := by
  rw [← Chip.latest_id c m]
  unfold Chip.completeWith
  extract_lets +onlyGivenNames m' detail' st e e'
  have hcount : ∃ y, e = { c with regs := y } := by
    by_cases ha : m'.isAttn = true
    · exact (Chip.countPair_regs c _ _ 1).imp fun y hy => (if_pos ha).trans hy
    · exact ⟨c.regs, if_neg ha⟩
  obtain ⟨y, hy⟩ := hcount
  have he' : f e' = f { c with cmds := c.cmds.filter fun x => x.id != m'.id } := by
    show f (e.leave m') = _
    rw [hy]
    exact Chip.leave_keeps h c m' y
  have hw := (h.writeRecord e' m'.cq 32 (fun p _ _ => m'.record alt st gen detail' p) true).trans he'
  split
  · next hwr =>
    rw [hwr] at hw
    split
    · exact (h.signal _ _ _ _ _ _).trans ((h.setPair _ _ _ _).trans hw)
    · exact (h.setPair _ _ _ _).trans hw
  · next hwr =>
    rw [hwr] at hw
    exact (h.recordRefused _ _ _ _ _).trans hw
  · next hwr =>
    rw [hwr] at hw
    exact hw

/-- A completion leaves every part that neither an event nor the end of a command writes. -/
theorem Chip.completeWith_part {γ : Type} {f : Chip → γ} (h : EventPart f) (hf : ∀ c l, f { c with cmds := l } = f c) (c : Chip) (m : Cmd) (alt : Bool)
    (gen detail : Nat) : f (c.completeWith m alt gen detail) = f c := (c.completeWith_keeps h m alt gen detail).trans (hf _ _)

theorem SameField.complete {g : RF} {m : Cmd} {c d : Chip} (h : SameField g c d) (hg : Below g m) (detail : Nat) : SameField g c (d.complete m detail) :=
  h.completeWith hg false 0 detail

theorem Chip.complete_part {γ : Type} {f : Chip → γ} (h : EventPart f) (hf : ∀ c l, f { c with cmds := l } = f c) (c : Chip) (m : Cmd)
    (detail : Nat) : f (c.complete m detail) = f c := c.completeWith_part h hf m false 0 detail

end Machine

end Sys2Proof

/-! PROOF. Publications into result slots (R255–R261, R321, R333). -/

namespace Sys2Proof

namespace Machine

/-- A publication at the head of its slot's queue, with its parts at hand, copies its source and runs on. -/
theorem Chip.publish_head (c : Chip) (m : Cmd) (far : Far) (o : Seen) (hvalid : c.on (F.SLOT_CFG_VALID m.slotNo) = true)
    (hprod : c.q (F.SLOT_OWNER_PRODUCER m.slotNo) = m.owner.toNat) (hlen : m.slotLen ≠ 0) (hfit : m.slotLen ≤ c.slotBytes m.slotNo)
    (hhead : (c.slot m.slotNo).queue.head? = some m.id) : c.publish m far o = c.copyResult m far o := by
  have hin : (c.slot m.slotNo).queue.contains m.id = true := by
    rw [List.contains_iff_mem]
    exact List.mem_of_mem_head? hhead
  unfold Chip.publish
  extract_lets +onlyGivenNames n x d
  have hd : d = c := if_pos hin
  rw [if_neg (not_or.2 ⟨not_not_intro hvalid, not_not_intro hprod⟩), if_neg (not_or.2 ⟨hlen, Nat.not_lt.2 hfit⟩), hd, if_pos hhead]

/-! ### The bump -/

/-- A field of a slot that a bump has written and nothing after it writes. -/
structure SlotField (g : RF) (n : Nat) : Prop where
  good : (F.SLOT_STATE_GOOD n).Apart g
  low : 0x840000 ≤ g.addr
  high : g.addr < 0x844000

namespace SlotField

variable {g : RF} {n : Nat}

theorem below (h : SlotField g n) {m : Cmd} (hm : m.opcode = 0x60) : Below g m where
  low := Nat.lt_trans h.high (by decide)
  log := ne_of_lt (Nat.lt_trans h.high (by decide))
  attn ha := absurd ha (by unfold Cmd.isAttn; rw [hm]; decide)
  parting hp := absurd hp (by rw [hm]; decide)

theorem event (h : SlotField g n) : ¬ eventReg g.addr :=
  fun he => he.elim (fun k => absurd (Nat.lt_of_le_of_lt k.1 h.high) (by decide)) (fun k => absurd (k ▸ h.high) (by decide))

end SlotField

theorem Chip.milestone_same {g : RF} (c : Chip) (h : Half) (k : Nat) (hev : ¬ eventReg g.addr) (hphase : g.addr ≠ (F.SYS_START_PHASE h.idx).addr)
    (hms : g.addr ≠ (F.SYS_START_MS h.idx).addr) : SameField g c (c.milestone h k) := by
  unfold Chip.milestone
  extract_lets +onlyGivenNames t ms d
  have hd : SameField g c d := (((SameField.refl c).setReg hphase _).setReg hms _).ev hev h _ _
  exact .ite (.refl c) (.ite (hd.ev hev h _ _) hd)

theorem Chip.milestone_keeps {γ : Type} {f : Chip → γ} (hf : EventPart f) (c : Chip) (h : Half) (k : Nat) : f (c.milestone h k) = f c := by
  unfold Chip.milestone
  extract_lets +onlyGivenNames t ms d
  have hd : f d = f c := (hf.ev _ _ _ _).trans ((hf.put _ _ _).trans (hf.put _ _ _))
  split
  · rfl
  · split
    · exact (hf.ev d _ _ _).trans hd
    · exact hd

theorem SameField.setBoosts {g : RF} {c d : Chip} (h : SameField g c d) (l : List Nat) : SameField g c { d with boosts := l } :=
  h.trans (.of_regs rfl rfl)

theorem Chip.slot_setSlot_same (c : Chip) (n : Nat) (x : SlotSt) : (c.setSlot n x).slot n = x := Tbl.look_put_same _ _ _ _

theorem Chip.slot_of_slots {c d : Chip} (h : d.slots = c.slots) (n : Nat) : d.slot n = c.slot n :=
  congrArg (fun t => Tbl.look SlotSt.zero t n) h

theorem ite_keeps {α β : Type} {f : α → β} {p : Prop} [Decidable p] {x y z : α} (hx : f x = f z) (hy : f y = f z) : f (if p then x else y) = f z := by
  split
  · exact hx
  · exact hy

/-- What a bump publishes. -/
structure Bumped (c : Chip) (m : Cmd) (origin : Nat) (cur : Pair Nat) (late : Bool) (d : Chip) : Prop where
  slot : d.slot m.slotNo = ⟨m.slotLen, origin, cur, ⟨(c.slot m.slotNo).writing.h.isSome, (c.slot m.slotNo).writing.t.isSome⟩,
    (c.slot m.slotNo).queue.tail, ⟨none, none⟩, false⟩
  gen : d.q ⟨Reg.SLOT_GEN m.slotNo, 0, 32⟩ = if c.reg (Reg.SLOT_GEN m.slotNo) = 0xFFFFFFFF then 1 else c.reg (Reg.SLOT_GEN m.slotNo) + 1
  buf : d.q (F.SLOT_STATE_CURBUF m.slotNo) = cur.get (c.slotHome m.slotNo) % 4
  doubtful : d.on (F.SLOT_STATE_CUR_DOUBTFUL m.slotNo) = (bit (m.word 2) 40 || c.on (F.SLOT_STATE_DOUBT_LATCH m.slotNo))
  late : d.on (F.SLOT_STATE_CUR_LATE m.slotNo) = late
  latch : d.on (F.SLOT_STATE_DOUBT_LATCH m.slotNo) = false
  cmds : d.cmds = (c.dropCmd m.id).cmds

theorem Chip.bump_bumped (c : Chip) (m : Cmd) (hop : m.opcode = 0x60) (origin : Nat) (cur : Pair Nat) (late : Bool)
    (horigin : origin = if m.word 3 = 0 then c.stamp (c.slotClock m.slotNo) 0 else m.word 3)
    (hcur : cur = ⟨(c.slot m.slotNo).writing.h.getD (c.slot m.slotNo).cur.h, (c.slot m.slotNo).writing.t.getD (c.slot m.slotNo).cur.t⟩)
    (hlate : late = decide ((c.q (F.SLOT_AGE_LIMIT_US m.slotNo) * usUnits : Nat) < elapsed (c.stamp (c.slotClock m.slotNo) 0) origin)) :
    Bumped c m origin cur late (c.bump m) := by
  unfold Chip.bump
  extract_lets +onlyGivenNames n h x now origin' late' doubtful g gen cur' c1 c2 c3 c4 c5 c6 c7 c8
  obtain rfl : origin = origin' := horigin
  obtain rfl : cur = cur' := hcur
  obtain rfl : late = late' := hlate
  have hn : n < 512 := Nat.mod_lt _ (by decide)
  have hafter {g : RF} (hg : SlotField g n) : SameField g c4 (c8.completeWith { m with late := m.late || late' } false gen 0) := by
    have h5 : SameField g c4 c5 := .ite (.ite ((SameField.refl c4).put hg.good 0) ((SameField.refl c4).inc hg.good)) (.refl c4)
    have h6 : SameField g c4 c6 := h5.setBoosts _
    have h7 : SameField g c4 c7 := .ite (h6.raise hg.event _) h6
    have h8 : SameField g c4 c8 := .ite (h7.signal (hg.below hop).low (hg.below hop).log _ _ _ _ _) h7
    exact h8.completeWith (hg.below (m := { m with late := m.late || late' }) hop) _ _ _
  have hstate {lo wid : Nat} (h : lo + wid ≤ 23 ∨ 27 ≤ lo) : SlotField ⟨Reg.SLOT_STATE n, lo, wid⟩ n :=
    ⟨⟨Nat.le_of_ble_eq_true rfl, .inr (h.symm.imp id id)⟩, by dsimp only [Reg.SLOT_STATE]; omega, by dsimp only [Reg.SLOT_STATE]; omega⟩
  have hgen : SlotField ⟨Reg.SLOT_GEN n, 0, 32⟩ n :=
    ⟨⟨Nat.le_of_ble_eq_true rfl, .inl (by dsimp only [Reg.SLOT_GEN, F.SLOT_STATE_GOOD, Reg.SLOT_STATE]; omega)⟩,
      by dsimp only [Reg.SLOT_GEN]; omega, by dsimp only [Reg.SLOT_GEN]; omega⟩
  have hne : Reg.SLOT_GEN n ≠ Reg.SLOT_STATE n := by unfold Reg.SLOT_GEN Reg.SLOT_STATE; omega
  have hkept {γ : Type} {f : Chip → γ} (hf : EventPart f) (hb : ∀ c l, f { c with boosts := l } = f c) : f c8 = f c1 := by
    have hputs : f c4 = f c1 := by
      refine (hf.put _ _ _).trans ((hf.put _ _ _).trans ((hf.put _ _ _).trans ((hf.put _ _ _).trans (hf.setReg c1 _ _))))
    have h5 : f c5 = f c4 := ite_keeps (ite_keeps (hf.put _ _ _) (hf.inc _ _)) rfl
    have h6 : f c6 = f c5 := hb c5 _
    have h7 : f c7 = f c6 := ite_keeps (hf.evCmd _ _ _ _ _) rfl
    have h8 : f c8 = f c7 := ite_keeps (hf.signal _ _ _ _ _ _) rfl
    exact h8.trans (h7.trans (h6.trans (h5.trans hputs)))
  constructor
  case slot =>
    have hslots := (Chip.completeWith_part eventPart_slots (fun _ _ => rfl) c8 { m with late := m.late || late' } false gen 0).trans
      (hkept eventPart_slots fun _ _ => rfl)
    exact (Chip.slot_of_slots hslots n).trans (c.slot_setSlot_same n _)
  case gen =>
    refine (hafter hgen).q.trans ?_
    have h4 : SameField ⟨Reg.SLOT_GEN n, 0, 32⟩ (c1.setReg (Reg.SLOT_GEN n) gen) c4 :=
      ((((SameField.refl _).put ⟨Nat.le_of_ble_eq_true rfl, .inl hne⟩ _).put ⟨Nat.le_of_ble_eq_true rfl, .inl hne⟩ _).put
        ⟨Nat.le_of_ble_eq_true rfl, .inl hne⟩ _).put ⟨Nat.le_of_ble_eq_true rfl, .inl hne⟩ 0
    refine h4.q.trans ((Chip.q_word _ _).trans ((c1.reg_setReg_same _ gen).trans (Nat.mod_eq_of_lt ?_)))
    have hlt := c.reg_lt (Reg.SLOT_GEN n)
    show (if c.reg (Reg.SLOT_GEN n) = 0xFFFFFFFF then 1 else c.reg (Reg.SLOT_GEN n) + 1) < 2 ^ 32
    split <;> omega
  case buf =>
    refine (hafter (hstate (.inl (by decide)))).q.trans ?_
    have h4 : SameField (F.SLOT_STATE_CURBUF n) c2 c4 :=
      (((SameField.refl c2).put ⟨Nat.le_of_ble_eq_true rfl, .inr (.inr (Nat.le_of_ble_eq_true rfl))⟩ _).put
        ⟨Nat.le_of_ble_eq_true rfl, .inr (.inr (Nat.le_of_ble_eq_true rfl))⟩ _).put ⟨Nat.le_of_ble_eq_true rfl, .inr (.inr (Nat.le_of_ble_eq_true rfl))⟩ 0
    exact h4.q.trans (Chip.q_put_same _ (F.SLOT_STATE_CURBUF n) _ (Nat.le_of_ble_eq_true rfl))
  case doubtful =>
    have hb : ∀ b : Bool, (b2n b % 2 ^ 1 != 0) = b := by decide
    refine (hafter (hstate (.inr (by decide)))).on.trans ?_
    have h4 : SameField (F.SLOT_STATE_CUR_DOUBTFUL n) (c2.put (F.SLOT_STATE_CUR_DOUBTFUL n) (b2n doubtful)) c4 :=
      ((SameField.refl _).put ⟨Nat.le_of_ble_eq_true rfl, .inr (.inl (Nat.le_of_ble_eq_true rfl))⟩ _).put
        ⟨Nat.le_of_ble_eq_true rfl, .inr (.inr (Nat.le_of_ble_eq_true rfl))⟩ 0
    exact h4.on.trans ((Chip.on_put_same _ (F.SLOT_STATE_CUR_DOUBTFUL n) _ (Nat.le_of_ble_eq_true rfl)).trans (hb doubtful))
  case late =>
    have hb : ∀ b : Bool, (b2n b % 2 ^ 1 != 0) = b := by decide
    refine (hafter (hstate (.inr (by decide)))).on.trans ?_
    have h4 : SameField (F.SLOT_STATE_CUR_LATE n) c3 c4 :=
      (SameField.refl c3).put ⟨Nat.le_of_ble_eq_true rfl, .inr (.inr (Nat.le_of_ble_eq_true rfl))⟩ 0
    exact h4.on.trans ((Chip.on_put_same _ (F.SLOT_STATE_CUR_LATE n) _ (Nat.le_of_ble_eq_true rfl)).trans (hb late'))
  case latch =>
    refine (hafter (hstate (.inr (by decide)))).on.trans ?_
    exact Chip.on_put_same c3 (F.SLOT_STATE_DOUBT_LATCH n) 0 (Nat.le_of_ble_eq_true rfl)
  case cmds =>
    refine (Chip.completeWith_keeps eventPart_cmds c8 { m with late := m.late || late' } false gen 0).trans ?_
    exact congrArg (List.filter fun y => y.id != m.id) (hkept eventPart_cmds fun _ _ => rfl)

/-- Settles O31. -/
theorem slotsPublished : Obligations.SlotsPublished := by
  refine ⟨?_, ?_⟩
  · intro id far o g m bs d s hm n c hvalid hprod hlen hfit hhead sides bufs hsides hbufs hcar hsight hlost hreach bs' e at' f
    have hexec : exec (.slotPublish id far o) s = s.go (s.chip.copyResult m far o) := by
      show execSlotPublish id far s o = _
      unfold execSlotPublish
      rw [hm]
      exact congrArg s.go (s.chip.publish_head m far o hvalid hprod hlen hfit hhead)
    have hany : (s.chip.slotSides m.slotNo).any (fun h => (s.chip.carriageOf h).isNone) = false := by
      rw [List.any_eq_false]
      intro h hh
      rw [Option.isNone_eq_false_iff.2 (hcar h hh)]
      decide
    have hsides' : s.chip.slotSides m.slotNo ≠ [] := hsides
    have hbufs' : ((s.chip.slotSides m.slotNo).filterMap fun h => (s.chip.freeBuf m.slotNo h).map fun k => (h, k)).length =
      (s.chip.slotSides m.slotNo).length := hbufs
    have hsight' : s.chip.sight (s.chip.mayRead m far [(m.slotAddr, m.slotLen)]) o = (g, d) := hsight
    unfold Chip.copyResult at hexec
    simp only [hsides', hbufs', hany, hsight', hlost, hreach, if_false, ne_eq, not_true_eq_false, Bool.false_eq_true, or_self] at hexec
    exact hexec.trans (s.go_eq _)
  · intro id m s hm hop hst n c x now origin late g cur
    have hexec : exec (.slotBump id) s =
        s.go (if (s.chip.bump m).roughSlot (s.chip.slotHome n) = some n then (s.chip.bump m).milestone (s.chip.slotHome n) 8 else s.chip.bump m) := by
      show execSlotBump id s = _
      unfold execSlotBump
      rw [hm]
      exact if_pos (And.intro hop hst)
    refine ⟨_, hexec.trans (s.go_eq _), ?_⟩
    have hn : n < 512 := Nat.mod_lt _ (by decide)
    have hb := s.chip.bump_bumped m hop origin cur late rfl rfl rfl
    generalize s.chip.bump m = d at hb ⊢
    have hafter {off lo wid : Nat} (hoff : 0x840000 ≤ off ∧ off < 0x840020) :
        SameField ⟨off + n * 0x20, lo, wid⟩ d (if d.roughSlot (s.chip.slotHome n) = some n then d.milestone (s.chip.slotHome n) 8 else d) := by
      refine .ite (Chip.milestone_same _ _ 8 ?_ ?_ ?_) (.refl _)
      · unfold eventReg Reg.WEAR_LOG_CNT
        dsimp only
        omega
      · cases s.chip.slotHome n <;> (dsimp only [F.SYS_START_PHASE, Reg.SYS_START, Half.idx]; omega)
      · cases s.chip.slotHome n <;> (dsimp only [F.SYS_START_MS, Reg.SYS_START, Half.idx]; omega)
    have hstate {lo wid : Nat} := hafter (off := 0x84001c) (lo := lo) (wid := wid) (by decide)
    have hkept {γ : Type} {f : Chip → γ} (hf : EventPart f) :
        f (if d.roughSlot (s.chip.slotHome n) = some n then d.milestone (s.chip.slotHome n) 8 else d) = f d :=
      ite_keeps (Chip.milestone_keeps hf _ _ 8) rfl
    refine ⟨(Chip.slot_of_slots (hkept eventPart_slots) n).trans hb.slot, ?_, hstate.q.trans hb.buf, hstate.on.trans hb.doubtful,
      hstate.on.trans hb.late, hstate.on.trans hb.latch, (hkept eventPart_cmds).trans hb.cmds⟩
    exact (Chip.q_word _ _).symm.trans ((hafter (off := 0x840018) (by decide)).q.trans hb.gen)

end Machine

end Sys2Proof

/-! PROOF. Creation, shares and ring windows of virtual instances (R300–R303, R307). -/

namespace Sys2Proof

namespace Machine

/-! ### Grants and records -/

/-- A field that a mask covers reads the same under it. -/
theorem bits_land_mask (v mask : Nat) {lo wid : Nat} (hw : lo + wid ≤ 32) (hmask : ∀ j < 32, lo ≤ j → j < lo + wid → mask.testBit j = true) :
    bits (Nat.land v mask % 2 ^ 32) lo wid = bits v lo wid := by
  refine Nat.eq_of_testBit_eq fun i => ?_
  unfold bits
  rw [Nat.testBit_mod_two_pow, Nat.testBit_mod_two_pow, Nat.testBit_div_two_pow, Nat.testBit_div_two_pow, Nat.testBit_mod_two_pow]
  by_cases hi : i < wid
  · have hlt : i + lo < 32 := by omega
    have hland : (Nat.land v mask).testBit (i + lo) = v.testBit (i + lo) := by
      refine (Nat.testBit_and v mask (i + lo)).trans ?_
      rw [hmask (i + lo) hlt (by omega) (by omega), Bool.and_true]
    rw [hland, decide_eq_true hlt, Bool.true_and]
  · simp only [hi, decide_false, Bool.false_and]

theorem bit_eq_bits (v n : Nat) : bit v n = (bits v n 1 == 1) := by
  unfold bit bits
  rw [pow_one]

/-- The first word of a new record holds the world and the partition, and no share. -/
theorem made_word (b : Bool) (p : Nat) (hp : p < 16) : bit ((2 ^ 24 * b2n b + 2 ^ 20 * p) % 2 ^ 32) 24 = b ∧
    bits ((2 ^ 24 * b2n b + 2 ^ 20 * p) % 2 ^ 32) 20 4 = p ∧ bits ((2 ^ 24 * b2n b + 2 ^ 20 * p) % 2 ^ 32) 8 8 = 0 := by
  unfold bit bits
  have hf : b2n false = 0 := rfl
  have ht : b2n true = 1 := rfl
  cases b
  · rw [hf]
    refine ⟨beq_eq_false_iff_ne.2 ?_, ?_, ?_⟩ <;> omega
  · rw [ht]
    refine ⟨beq_iff_eq.2 ?_, ?_, ?_⟩ <;> omega

/-- The words of a new record give the grant asked for, without its share. -/
theorem Grant.ofWords_made (w x : Nat → Nat) (h0 : x 0 = (2 ^ 24 * b2n (Grant.ofWords w).world + 2 ^ 20 * (Grant.ofWords w).part) % 2 ^ 32)
    (hk : ∀ k, 0 < k → k < 8 → x k = viFields k (w k) % 2 ^ 32) : Grant.ofWords x = { Grant.ofWords w with share := 0 } := by
  obtain ⟨hworld, hpart, hshare⟩ := made_word (Grant.ofWords w).world (Grant.ofWords w).part (Nat.mod_lt _ (by decide))
  rw [← h0] at hworld hpart hshare
  have hfield (k lo wid : Nat) (h0k : 0 < k) (h8 : k < 8) (hw : lo + wid ≤ 32)
      (hmask : ∀ j < 32, lo ≤ j → j < lo + wid → ([0x01F0FF00, 0xFFFF01FF, 0x3FFF01FF, 0xCFFFFFFF, 0xFFFFF, 0xFFFFF, 0xFFFFF, 0xFFFFF].getD k 0).testBit j = true) :
      bits (x k) lo wid = bits (w k) lo wid := by
    rw [hk k h0k h8]
    exact bits_land_mask _ _ hw hmask
  have hbit : bit (x 3) 31 = bit (w 3) 31 := by
    rw [bit_eq_bits, bit_eq_bits, hfield 3 31 1 (by decide) (by decide) (by decide) (by decide)]
  show (⟨_, _, _, _, _, _, _, _, _, _, _, _, _, _, _⟩ : Grant) = ⟨_, _, _, _, _, _, _, _, _, _, _, _, _, _, _⟩
  rw [hworld, hpart, hshare, hbit, hfield 1 16 16, hfield 1 0 9, hfield 2 16 14, hfield 2 0 9, hfield 3 30 1, hfield 3 20 8, hfield 3 0 20,
    hfield 4 0 20, hfield 5 0 20, hfield 6 0 20, hfield 7 0 20]
  · rfl
  all_goals decide

/-! ### What the steps of a creation write -/

section
variable {γ : Type}

theorem Chip.setOwners_keeps (f : Chip → γ) (hf : ∀ c o, f { c with own := o } = f c) (c : Chip) (l : List Nat) (o typ : Nat) :
    f (c.setOwners l o typ) = f c := foldl_keeps f _ (fun x _ => hf x _) l c

theorem ownOwner_mkOwn (o typ flags : Nat) : ownOwner (mkOwn o typ flags % 2 ^ 32) = o % 8192 := by
  unfold ownOwner mkOwn
  dsimp only
  omega

/-- Every entry of the list takes the owner; an entry that has it keeps it. -/
theorem Chip.ownOwner_setOwners (c : Chip) (l : List Nat) (o typ e : Nat) (h : e ∈ l ∨ ownOwner (c.ownAt e) = o % 8192) :
    ownOwner ((c.setOwners l o typ).ownAt e) = o % 8192 := by
  induction l generalizing c with
  | nil => exact h.resolve_left List.not_mem_nil
  | cons n l ih =>
    refine ih (c.setOwn n (mkOwn o typ (if typ = 7 then ownFlags (c.ownAt n) else ownFlags (c.ownAt n) / 2 * 2))) ?_
    by_cases hn : e = n
    · subst hn
      exact .inr ((congrArg ownOwner (c.ownAt_setOwn_same _ _)).trans (ownOwner_mkOwn _ _ _))
    · exact h.imp (fun hm => (List.mem_cons.1 hm).resolve_left hn) fun ho => (congrArg ownOwner (c.ownAt_setOwn_ne _ hn)).trans ho

end

/-- The registers of a dowel that an assignment writes. -/
def dowelPage (d a : Nat) : Prop := a = Reg.DOWEL_ATTR d ∨ a = Reg.DOWEL_VAL_LO d ∨ a = Reg.DOWEL_VAL_HI d

section
variable {c : Chip} {d : Nat} (owner scope : Nat)

/-- A dowel on which nothing waits is assigned in its own registers. -/
theorem Chip.assignDowel_quiet (hw : (c.waits.any fun w => w.dowel == d) = false) :
    c.assignDowel d owner scope = if c.q (F.DOWEL_ATTR_OWNER d) = owner then (c.put (F.DOWEL_ATTR_SCOPE d) scope).put (F.DOWEL_ATTR_OWNER d) owner
      else ((c.put (F.DOWEL_ATTR_SCOPE d) scope).put (F.DOWEL_ATTR_OWNER d) owner).setPair (Reg.DOWEL_VAL_LO d) (Reg.DOWEL_VAL_HI d) 0 := by
  have hnone : c.waits.filter (fun w => w.dowel == d) = [] := by
    rw [List.filter_eq_nil_iff]
    intro w hm
    exact (List.any_eq_false.1 hw) w hm
  unfold Chip.assignDowel
  extract_lets +onlyGivenNames old e
  have he : e.waits.filter (fun w => w.dowel == d) = [] := hnone
  rw [he]
  rfl

variable {owner scope}

theorem Chip.assignDowel_keeps {γ : Type} {f : Chip → γ} (hf : ∀ c y, f { c with regs := y } = f c) (hw : (c.waits.any fun w => w.dowel == d) = false) :
    f (c.assignDowel d owner scope) = f c := by
  rw [c.assignDowel_quiet owner scope hw]
  have hput : f ((c.put (F.DOWEL_ATTR_SCOPE d) scope).put (F.DOWEL_ATTR_OWNER d) owner) = f c :=
    (Chip.put_keeps f hf _ _ _).trans (Chip.put_keeps f hf _ _ _)
  exact ite_keeps hput ((Chip.setReg_keeps f hf _ _ _).trans ((Chip.setReg_keeps f hf _ _ _).trans hput))

theorem Chip.reg_assignDowel (hw : (c.waits.any fun w => w.dowel == d) = false) {a : Nat} (ha : ¬ dowelPage d a) :
    (c.assignDowel d owner scope).reg a = c.reg a := by
  obtain ⟨hattr, hlo, hhi⟩ := by simpa only [dowelPage, not_or] using ha
  rw [c.assignDowel_quiet owner scope hw]
  have hput : ((c.put (F.DOWEL_ATTR_SCOPE d) scope).put (F.DOWEL_ATTR_OWNER d) owner).reg a = c.reg a :=
    (Chip.reg_put_ne _ _ hattr).trans (Chip.reg_put_ne _ _ hattr)
  exact ite_keeps (f := fun x : Chip => x.reg a) hput ((Chip.reg_setPair_ne _ _ hlo hhi).trans hput)

theorem Chip.owner_assignDowel (hw : (c.waits.any fun w => w.dowel == d) = false) :
    (c.assignDowel d owner scope).q (F.DOWEL_ATTR_OWNER d) = owner % 8192 := by
  rw [c.assignDowel_quiet owner scope hw]
  have hput : ((c.put (F.DOWEL_ATTR_SCOPE d) scope).put (F.DOWEL_ATTR_OWNER d) owner).q (F.DOWEL_ATTR_OWNER d) = owner % 8192 :=
    Chip.q_put_same _ (F.DOWEL_ATTR_OWNER d) owner (Nat.le_of_ble_eq_true rfl)
  split
  · exact hput
  · refine Eq.trans ?_ hput
    exact (Chip.q_setReg_ne _ _ (by simp only [F.DOWEL_ATTR_OWNER, Reg.DOWEL_ATTR, Reg.DOWEL_VAL_HI]; omega)).trans
      (Chip.q_setReg_ne _ _ (by simp only [F.DOWEL_ATTR_OWNER, Reg.DOWEL_ATTR, Reg.DOWEL_VAL_LO]; omega))

end

/-- Nothing waits on a dowel of a list. -/
def Chip.Quiet (c : Chip) (l : List Nat) : Prop := ∀ d ∈ l, (c.waits.any fun w => w.dowel == d) = false

theorem Chip.Quiet.tail {c : Chip} {d o : Nat} {l : List Nat} (h : c.Quiet (d :: l)) : (c.assignDowel d o 0).Quiet l := fun x hx => by
  have hwaits : (c.assignDowel d o 0).waits = c.waits := Chip.assignDowel_keeps (fun _ _ => rfl) (h d List.mem_cons_self)
  rw [hwaits]
  exact h x (List.mem_cons_of_mem d hx)

section
variable {o : Nat} {l : List Nat} {c : Chip}

theorem Chip.assignDowels_keeps {γ : Type} {f : Chip → γ} (hf : ∀ c y, f { c with regs := y } = f c) (h : c.Quiet l) :
    f (l.foldl (fun c d => c.assignDowel d o 0) c) = f c := by
  induction l generalizing c with
  | nil => rfl
  | cons d l ih => exact (ih h.tail).trans (Chip.assignDowel_keeps hf (h d List.mem_cons_self))

theorem Chip.reg_assignDowels (h : c.Quiet l) {a : Nat} (ha : ∀ d ∈ l, ¬ dowelPage d a) :
    (l.foldl (fun c d => c.assignDowel d o 0) c).reg a = c.reg a := by
  induction l generalizing c with
  | nil => rfl
  | cons d l ih =>
    exact (ih h.tail fun x hx => ha x (List.mem_cons_of_mem d hx)).trans (Chip.reg_assignDowel (h d List.mem_cons_self) (ha d List.mem_cons_self))

theorem Chip.owner_assignDowels (h : c.Quiet l) {e : Nat} (he : e ∈ l ∨ c.q (F.DOWEL_ATTR_OWNER e) = o % 8192) :
    (l.foldl (fun c d => c.assignDowel d o 0) c).q (F.DOWEL_ATTR_OWNER e) = o % 8192 := by
  induction l generalizing c with
  | nil => exact he.resolve_left List.not_mem_nil
  | cons d l ih =>
    have hd := h d List.mem_cons_self
    refine ih h.tail ?_
    by_cases hed : e = d
    · subst hed
      exact .inr (Chip.owner_assignDowel hd)
    · refine he.imp (fun hm => (List.mem_cons.1 hm).resolve_left hed) fun ho => ?_
      have hpage : ¬ dowelPage d (Reg.DOWEL_ATTR e) := by
        unfold dowelPage Reg.DOWEL_ATTR Reg.DOWEL_VAL_LO Reg.DOWEL_VAL_HI
        omega
      exact (congrArg (fun v => bits v 0 13) (Chip.reg_assignDowel hd hpage)).trans ho

end

/-! ### The creation -/

/-- The words of a record that a creation writes after its dowels. -/
def Chip.writeWords (c : Chip) (i : Nat) (w : Nat → Nat) : Chip :=
  (viWords i).zipIdx.foldl (fun c p => if p.2 = 0 then c else c.setReg p.1 (viFields p.2 (w p.2))) c

theorem Chip.writeWords_eq (c : Chip) (i : Nat) (w : Nat → Nat) : c.writeWords i w =
    ((((((c.setReg (Reg.VI_INST_RINGS i) (viFields 1 (w 1))).setReg (Reg.VI_INST_DOWELS i) (viFields 2 (w 2))).setReg (Reg.VI_INST_PCI i)
      (viFields 3 (w 3))).setReg (Reg.VI_INST_MEM_H_FIRST i) (viFields 4 (w 4))).setReg (Reg.VI_INST_MEM_H_N i) (viFields 5 (w 5))).setReg
      (Reg.VI_INST_MEM_T_FIRST i) (viFields 6 (w 6))).setReg (Reg.VI_INST_MEM_T_N i) (viFields 7 (w 7)) := rfl

theorem Chip.writeWords_keeps {γ : Type} (f : Chip → γ) (hf : ∀ c y, f { c with regs := y } = f c) (c : Chip) (i : Nat) (w : Nat → Nat) :
    f (c.writeWords i w) = f c := foldl_keeps f _ (fun x _ => ite_keeps rfl (Chip.setReg_keeps f hf x _ _)) _ c

/-- A register outside the record is not written. -/
theorem Chip.reg_writeWords (c : Chip) (i : Nat) (w : Nat → Nat) {a : Nat} (ha : a < 0x1404004 + i * 0x20 ∨ 0x1404020 + i * 0x20 ≤ a) :
    (c.writeWords i w).reg a = c.reg a := by
  rw [c.writeWords_eq i w]
  simp only [Reg.VI_INST_RINGS, Reg.VI_INST_DOWELS, Reg.VI_INST_PCI, Reg.VI_INST_MEM_H_FIRST, Reg.VI_INST_MEM_H_N, Reg.VI_INST_MEM_T_FIRST,
    Reg.VI_INST_MEM_T_N]
  repeat rw [Chip.reg_setReg_ne _ _ (by omega)]

theorem Chip.word_writeWords (c : Chip) (i : Nat) (w : Nat → Nat) (k : Nat) (h0 : 0 < k) (h8 : k < 8) :
    (c.writeWords i w).reg ((viWords i).getD k 0) = viFields k (w k) % 2 ^ 32 := by
  rw [c.writeWords_eq i w]
  have hk : k = 1 ∨ k = 2 ∨ k = 3 ∨ k = 4 ∨ k = 5 ∨ k = 6 ∨ k = 7 := by omega
  rcases hk with rfl | rfl | rfl | rfl | rfl | rfl | rfl <;>
    simp only [viWords, Reg.VI_INST_RINGS, Reg.VI_INST_DOWELS, Reg.VI_INST_PCI, Reg.VI_INST_MEM_H_FIRST, Reg.VI_INST_MEM_H_N,
      Reg.VI_INST_MEM_T_FIRST, Reg.VI_INST_MEM_T_N, List.getD_cons_succ, List.getD_cons_zero] <;>
    (repeat rw [Chip.reg_setReg_ne _ _ (by omega)]) <;> exact Chip.reg_setReg_same _ _ _

section
variable (c : Chip) (i : Nat) (w : Nat → Nat) (mgr : Bool)

/-- The owner ID that a creation gives. -/
def madeOwner : Nat := 4096 * b2n (Grant.ofWords w).world + 256 * (Grant.ofWords w).part + i

theorem madeOwner_lt (hi : i < 256) : madeOwner i w < 8192 := by
  have hpart : (Grant.ofWords w).part < 16 := Nat.mod_lt _ (by decide)
  have hworld : b2n (Grant.ofWords w).world ≤ 1 := by
    cases (Grant.ofWords w).world <;> decide
  unfold madeOwner
  omega

/-- The chip whose granules and doorbell pages have their new owner. -/
def Chip.granted : Chip :=
  (c.setOwners ((Grant.ofWords w).rings.map doorbellEntry) (madeOwner i w) 1).setOwners (Grant.ofWords w).granules (madeOwner i w) 0

/-- The chip whose dowels have it too. -/
def Chip.doweled : Chip := (Grant.ofWords w).dowels.foldl (fun c d => c.assignDowel d (madeOwner i w) 0) (c.granted i w)

/-- The chip whose record is written. -/
def Chip.viRecorded : Chip :=
  ((c.doweled i w).writeWords i w).setReg (Reg.VI_INST_STATE i) (2 ^ 24 * b2n (Grant.ofWords w).world + 2 ^ 20 * (Grant.ofWords w).part)

theorem Chip.viMake_eq : c.viMake i w mgr = { c.viRecorded i w with viNew := ((Grant.ofWords w).share, mgr) } := rfl

variable {c i w}

theorem Chip.viMake_of {γ : Type} (f : Chip → γ) (hn : ∀ c y, f { c with viNew := y } = f c) : f (c.viMake i w mgr) = f (c.viRecorded i w) :=
  (congrArg f (c.viMake_eq i w mgr)).trans (hn _ _)

theorem Chip.reg_viMake_of (a : Nat) : (c.viMake i w mgr).reg a = (c.viRecorded i w).reg a := Chip.viMake_of mgr (fun x => x.reg a) fun _ _ => rfl

theorem Chip.granted_keeps {γ : Type} (f : Chip → γ) (hf : ∀ c o, f { c with own := o } = f c) : f (c.granted i w) = f c :=
  (Chip.setOwners_keeps f hf _ _ _ _).trans (Chip.setOwners_keeps f hf _ _ _ _)

theorem Chip.Quiet.granted {l : List Nat} (h : c.Quiet l) : (c.granted i w).Quiet l := fun d hd => by
  have hwaits : (c.granted i w).waits = c.waits := Chip.granted_keeps (fun x => x.waits) fun _ _ => rfl
  rw [hwaits]
  exact h d hd

theorem Chip.ownOwner_granted {e : Nat} (he : e ∈ (Grant.ofWords w).granules ++ (Grant.ofWords w).rings.map doorbellEntry) :
    ownOwner ((c.granted i w).ownAt e) = madeOwner i w % 8192 := by
  refine Chip.ownOwner_setOwners _ _ _ _ e ?_
  refine (List.mem_append.1 he).imp_right fun hring => ?_
  exact Chip.ownOwner_setOwners _ _ _ _ e (.inl hring)

variable (hq : c.Quiet (Grant.ofWords w).dowels)
include hq

theorem Chip.viMake_keeps {γ : Type} (f : Chip → γ) (hf : ∀ c y, f { c with regs := y } = f c) (hn : ∀ c y, f { c with viNew := y } = f c) :
    f (c.viMake i w mgr) = f (c.granted i w) := by
  have hwords : f ((c.doweled i w).writeWords i w) = f (c.doweled i w) := Chip.writeWords_keeps f hf _ i w
  exact (Chip.viMake_of mgr f hn).trans ((Chip.setReg_keeps f hf _ _ _).trans (hwords.trans (Chip.assignDowels_keeps hf hq.granted)))

/-- A register below the dowels and outside the record is not written. -/
theorem Chip.reg_viMake {a : Nat} (ha : a < 0x1404000 + i * 0x20 ∨ 0x1404020 + i * 0x20 ≤ a) (hlow : a < 0x20000000) :
    (c.viMake i w mgr).reg a = c.reg a := by
  refine (Chip.reg_viMake_of mgr a).trans ?_
  refine (Chip.reg_setReg_ne _ _ (by unfold Reg.VI_INST_STATE; omega)).trans ((Chip.reg_writeWords _ i w (by omega)).trans ?_)
  refine (Chip.reg_assignDowels hq.granted fun d _ => ?_).trans (Chip.granted_keeps (fun x => x.reg a) fun _ _ => rfl)
  unfold dowelPage Reg.DOWEL_ATTR Reg.DOWEL_VAL_LO Reg.DOWEL_VAL_HI
  omega

theorem Chip.viMake_dowel (hi : i < 256) {d : Nat} (hd : d ∈ (Grant.ofWords w).dowels) : (c.viMake i w mgr).q (F.DOWEL_ATTR_OWNER d) = madeOwner i w := by
  have hmade : (c.doweled i w).q (F.DOWEL_ATTR_OWNER d) = madeOwner i w % 8192 := Chip.owner_assignDowels hq.granted (.inl hd)
  rw [Nat.mod_eq_of_lt (madeOwner_lt i w hi)] at hmade
  have hfar : 0x1404020 + i * 0x20 ≤ Reg.DOWEL_ATTR d := by unfold Reg.DOWEL_ATTR; omega
  have hne : Reg.DOWEL_ATTR d ≠ Reg.VI_INST_STATE i := by unfold Reg.VI_INST_STATE; omega
  refine Eq.trans ?_ hmade
  exact congrArg (fun v => bits v 0 13) ((Chip.reg_viMake_of mgr _).trans
    ((Chip.reg_setReg_ne _ _ hne).trans (Chip.reg_writeWords _ i w (.inr hfar))))

omit hq in
/-- The first word of the record. -/
theorem Chip.viMake_first : (c.viMake i w mgr).reg (Reg.VI_INST_STATE i) =
    (2 ^ 24 * b2n (Grant.ofWords w).world + 2 ^ 20 * (Grant.ofWords w).part) % 2 ^ 32 :=
  (Chip.reg_viMake_of mgr _).trans (Chip.reg_setReg_same _ _ _)

omit hq in
theorem Chip.viMake_state : (c.viMake i w mgr).viState i = 0 := by
  have hpart : (Grant.ofWords w).part < 16 := Nat.mod_lt _ (by decide)
  have hworld : b2n (Grant.ofWords w).world ≤ 1 := by
    cases (Grant.ofWords w).world <;> decide
  refine (congrArg (fun v => bits v 29 3) (Chip.viMake_first mgr)).trans ?_
  unfold bits
  omega

omit hq in
theorem Chip.viMake_grant : (c.viMake i w mgr).viGrant i = { Grant.ofWords w with share := 0 } := by
  refine Grant.ofWords_made w _ (Chip.viMake_first mgr) fun k h0 h8 => ?_
  rw [← (c.doweled i w).word_writeWords i w k h0 h8]
  refine (Chip.reg_viMake_of mgr _).trans (Chip.reg_setReg_ne _ _ ?_)
  have hk : k = 1 ∨ k = 2 ∨ k = 3 ∨ k = 4 ∨ k = 5 ∨ k = 6 ∨ k = 7 := by omega
  rcases hk with rfl | rfl | rfl | rfl | rfl | rfl | rfl <;>
    simp only [viWords, Reg.VI_INST_STATE, Reg.VI_INST_RINGS, Reg.VI_INST_DOWELS, Reg.VI_INST_PCI, Reg.VI_INST_MEM_H_FIRST, Reg.VI_INST_MEM_H_N,
      Reg.VI_INST_MEM_T_FIRST, Reg.VI_INST_MEM_T_N, List.getD_cons_succ, List.getD_cons_zero] <;> omega

end

/-- A grant that no check refuses holds dowels on which nothing waits. -/
theorem Chip.quiet_of_createCheck {c : Chip} {o : Owner} {i : Nat} {g : Grant} (h : c.createCheck o i g = none) : c.Quiet g.dowels := by
  intro d hd
  unfold Chip.createCheck at h
  by_cases hany : (g.dowels.any fun d => c.q (F.DOWEL_ATTR_OWNER d) != 0 || c.waits.any fun w => w.dowel == d) = true
  · rw [if_pos hany] at h
    repeat rw [ite_eq_iff] at h
    simp only [reduceCtorEq, and_false, or_self] at h
  · have hd' := (List.any_eq_false.1 (Bool.eq_false_iff.2 hany)) d hd
    exact (Bool.or_eq_false_iff.1 (Bool.eq_false_iff.2 hd')).2

/-- What a command of page 0 does where nothing is in progress. -/
theorem Chip.viCommand_admitted {c : Chip} {w : Initiator} {op i : Nat} {f : Chip → Chip} (ha : c.viAdmits w.owner = true)
    (hb : c.on F.VI_CMD_RESULT_BUSY = false) : c.viCommand w op i f = f c := by
  unfold Chip.viCommand
  rw [if_neg (not_not_intro ha), if_neg (Bool.eq_false_iff.1 hb)]

/-- Putting a result changes only its register. -/
theorem Chip.viResult_keeps {γ : Type} (f : Chip → γ) (hf : ∀ c y, f { c with regs := y } = f c) (c : Chip) (op i res : Nat) :
    f (c.viResult op i res) = f c :=
  (Chip.put_keeps f hf _ _ _).trans ((Chip.put_keeps f hf _ _ _).trans (Chip.put_keeps f hf _ _ _))

theorem Chip.reg_viResult_ne (c : Chip) (op i res : Nat) {a : Nat} (ha : a ≠ Reg.VI_CMD_RESULT) : (c.viResult op i res).reg a = c.reg a :=
  (Chip.reg_put_ne _ _ ha).trans ((Chip.reg_put_ne _ _ ha).trans (Chip.reg_put_ne _ _ ha))

/-- The chip that notes a creation in progress. -/
def Chip.creating (c : Chip) (i : Nat) : Chip := (c.viResult 1 i 0).put F.VI_CMD_RESULT_BUSY 1

theorem Chip.creating_keeps {γ : Type} (f : Chip → γ) (hf : ∀ c y, f { c with regs := y } = f c) (c : Chip) (i : Nat) : f (c.creating i) = f c :=
  (Chip.put_keeps f hf _ _ _).trans (Chip.viResult_keeps f hf _ _ _ _)

theorem Chip.creating_busy (c : Chip) (i : Nat) : (c.creating i).on F.VI_CMD_RESULT_BUSY = true :=
  Chip.on_put_same _ F.VI_CMD_RESULT_BUSY 1 (by decide)

theorem Chip.creating_record (c : Chip) {i : Nat} (hi : i < 256) : (c.creating i).q F.VI_CMD_RESULT_RECORD = i :=
  (Chip.q_put_apart _ _ (by decide)).trans ((Chip.q_put_apart _ _ (by decide)).trans
    ((Chip.q_put_same _ F.VI_CMD_RESULT_RECORD i (by decide)).trans (Nat.mod_eq_of_lt hi)))

theorem SameField.setViNew {g : RF} {c d : Chip} (h : SameField g c d) (v : Nat × Bool) : SameField g c { d with viNew := v } := h.trans (.of_regs rfl rfl)

theorem State.go_ite (s : State) (p : Prop) [Decidable p] (c d : Chip) : (if p then s.go c else s.go d) = .next (s.withChip (if p then c else d)) := by
  split <;> exact s.go_eq _

section
variable (c : Chip) (i : Nat)

/-- The chip whose record has its share and its maker. -/
def Chip.viGiven : Chip := ((c.put (F.VI_INST_STATE_SHARE i) c.viNew.1).put (F.VI_INST_STATE_MGR i) (b2n c.viNew.2)).put (F.VI_INST_STATE_STATIC i) 0

/-- The chip whose record is in its first state too and counted, and whose block is free. -/
def Chip.viStarted : Chip :=
  (((Chip.put { c.viGiven i with viNew := (0, false) } (F.VI_INST_STATE_STATE i) (if c.viNew.1 = 0 then 2 else 1)).dec F.VI_STATUS_FREE).put
    F.VI_CMD_RESULT_BUSY 0).put F.VI_CMD_RESULT_RESULT 0

theorem Chip.viActivate_eq : ((c.viActivate i false).put F.VI_CMD_RESULT_BUSY 0).put F.VI_CMD_RESULT_RESULT 0 = c.viStarted i := by
  have hnew : (c.viGiven i).viNew = c.viNew := (Chip.put_keeps (fun x => x.viNew) (fun _ _ => rfl) _ _ _).trans
    ((Chip.put_keeps (fun x => x.viNew) (fun _ _ => rfl) _ _ _).trans (Chip.put_keeps (fun x => x.viNew) (fun _ _ => rfl) _ _ _))
  unfold Chip.viStarted
  rw [← hnew]
  rfl

/-- The start of a record leaves the fields that name its owner. -/
theorem SameField.viStarted {g : RF} (haddr : g.addr = Reg.VI_INST_STATE i) (hlo : 16 ≤ g.lo) (hhi : g.lo + g.wid ≤ 27) :
    SameField g c (c.viStarted i) := by
  have happart {f : RF} (hf : f.lo + f.wid ≤ 32) (hfield : f.lo + f.wid ≤ 16 ∨ 27 ≤ f.lo) : f.Apart g := ⟨hf, .inr (by omega)⟩
  have hfar {f : RF} (hf : f.lo + f.wid ≤ 32) (hne : f.addr < 0x1404000) : f.Apart g :=
    ⟨hf, .inl (by rw [haddr]; unfold Reg.VI_INST_STATE; omega)⟩
  have hshare := (SameField.refl c).put (happart (f := F.VI_INST_STATE_SHARE i) (Nat.le_of_ble_eq_true rfl) (.inl (Nat.le_of_ble_eq_true rfl))) c.viNew.1
  have hmgr := hshare.put (happart (f := F.VI_INST_STATE_MGR i) (Nat.le_of_ble_eq_true rfl) (.inr (Nat.le_of_ble_eq_true rfl))) (b2n c.viNew.2)
  have hgiven : SameField g c (c.viGiven i) :=
    hmgr.put (happart (f := F.VI_INST_STATE_STATIC i) (Nat.le_of_ble_eq_true rfl) (.inr (Nat.le_of_ble_eq_true rfl))) 0
  have hstate := (hgiven.setViNew (0, false)).put
    (happart (f := F.VI_INST_STATE_STATE i) (Nat.le_of_ble_eq_true rfl) (.inr (Nat.le_of_ble_eq_true rfl))) (if c.viNew.1 = 0 then 2 else 1)
  have hfree := hstate.dec (hfar (f := F.VI_STATUS_FREE) (by decide) (by decide))
  exact (hfree.put (hfar (f := F.VI_CMD_RESULT_BUSY) (by decide) (by decide)) 0).put (hfar (f := F.VI_CMD_RESULT_RESULT) (by decide) (by decide)) 0

theorem Chip.viOwner_viStarted : (c.viStarted i).viOwner i = c.viOwner i := by
  have hworld : (c.viStarted i).q (F.VI_INST_STATE_WORLD i) = c.q (F.VI_INST_STATE_WORLD i) :=
    (SameField.viStarted c i rfl (Nat.le_of_ble_eq_true rfl) (Nat.le_of_ble_eq_true rfl)).q
  have hpart : (c.viStarted i).q (F.VI_INST_STATE_PART i) = c.q (F.VI_INST_STATE_PART i) :=
    (SameField.viStarted c i rfl (Nat.le_of_ble_eq_true rfl) (Nat.le_of_ble_eq_true rfl)).q
  unfold Chip.viOwner
  rw [hworld, hpart]

end

/-- A creation ends from the chip whose record has been started: its event, and a reset that came meanwhile. -/
def Chip.creationEnd (c : Chip) (i : Nat) (o : Owner) (g : Grant) : Chip :=
  let u := c.evOf c.firstUp 0x0600 o [i, o.toNat, g.ringN, g.dowelN, g.memHN + g.memTN]
  if u.viFlr.contains i then Chip.viReset { u with viFlr := u.viFlr.filter (· != i) } u.firstUp i 1 else u

theorem exec_creationComplete {s : State} (hb : s.chip.on F.VI_CMD_RESULT_BUSY = true) (hop : s.chip.q F.VI_CMD_RESULT_OP = 1) :
    exec .creationComplete s = .next (s.withChip ((s.chip.viStarted (s.chip.q F.VI_CMD_RESULT_RECORD)).creationEnd (s.chip.q F.VI_CMD_RESULT_RECORD)
      (s.chip.viOwner (s.chip.q F.VI_CMD_RESULT_RECORD)) (s.chip.viGrant (s.chip.q F.VI_CMD_RESULT_RECORD)))) := by
  have hexec : exec .creationComplete s = execCreationComplete s := rfl
  unfold execCreationComplete at hexec
  have hgo := hexec.trans (if_pos ⟨hb, hop⟩)
  rw [← Chip.viOwner_viStarted, ← Chip.viActivate_eq]
  exact hgo.trans (s.go_ite _ _ _)

/-! ### A new share -/

section
variable (c : Chip) (i : Nat)

/-- The chip that keeps the shares which the engines have yet to take over. -/
def Chip.keepShares : Chip :=
  { c with sharePend := if 3 ≤ c.viState i then c.sharePend else
      (List.range 42).foldl (fun t e => if (Tbl.find? t (256 * e + i)).isSome then t else Tbl.ins t (256 * e + i) (c.q (F.VI_INST_STATE_SHARE i))) c.sharePend }

/-- The chip whose record has the share of VI_ARG. -/
def Chip.reshared : Chip := (c.keepShares i).put (F.VI_INST_STATE_SHARE i) (bits (c.reg (Reg.VI_ARG 0)) 8 8)

/-- The chip whose record is suspended too where that share is 0. -/
def Chip.resharedState : Chip :=
  if bits (c.reg (Reg.VI_ARG 0)) 8 8 = 0 ∧ (c.reshared i).viState i = 1 then (c.reshared i).put (F.VI_INST_STATE_STATE i) 2 else c.reshared i

def Chip.shared : Chip := (c.resharedState i).viResult 4 i 0

theorem Chip.viShare_eq (w : Initiator) (hmay : c.viMayAct w.owner i = true ∨ c.on (F.VI_INST_STATE_STATIC i) = true) (hs : c.viState i ≠ 0) :
    c.viShare w i = (c.shared i).evOf w.half 0x0608 w.owner [i, c.q (F.VI_INST_STATE_SHARE i), bits (c.reg (Reg.VI_ARG 0)) 8 8] := by
  unfold Chip.viShare
  rw [if_neg (fun h => hmay.elim h.1 h.2), if_neg hs]
  rfl

theorem Chip.viState_reshared : (c.reshared i).viState i = c.viState i :=
  ((SameField.refl (c.keepShares i)).put (f := F.VI_INST_STATE_SHARE i) (g := F.VI_INST_STATE_STATE i)
    ⟨Nat.le_of_ble_eq_true rfl, .inr (.inl (Nat.le_of_ble_eq_true rfl))⟩ _).q

theorem Chip.q_shared {g : RF} (hg : g.addr = Reg.VI_INST_STATE i) : (c.shared i).q g = (c.resharedState i).q g := by
  have hne : Reg.VI_INST_STATE i ≠ Reg.VI_CMD_RESULT := by
    unfold Reg.VI_INST_STATE Reg.VI_CMD_RESULT
    omega
  unfold Chip.q
  rw [hg]
  exact congrArg (fun v => bits v g.lo g.wid) (Chip.reg_viResult_ne _ 4 i 0 hne)

theorem Chip.shared_share : (c.shared i).q (F.VI_INST_STATE_SHARE i) = bits (c.reg (Reg.VI_ARG 0)) 8 8 := by
  have hlt : bits (c.reg (Reg.VI_ARG 0)) 8 8 < 2 ^ 8 := Nat.mod_lt _ (by decide)
  have hput : (c.reshared i).q (F.VI_INST_STATE_SHARE i) = bits (c.reg (Reg.VI_ARG 0)) 8 8 :=
    (Chip.q_put_same _ (F.VI_INST_STATE_SHARE i) _ (Nat.le_of_ble_eq_true rfl)).trans (Nat.mod_eq_of_lt hlt)
  have hstate : SameField (F.VI_INST_STATE_SHARE i) (c.reshared i) (c.resharedState i) :=
    .ite ((SameField.refl _).put ⟨Nat.le_of_ble_eq_true rfl, .inr (.inr (Nat.le_of_ble_eq_true rfl))⟩ 2) (.refl _)
  exact (c.q_shared i rfl).trans (hstate.q.trans hput)

theorem Chip.shared_state : (c.shared i).viState i = if bits (c.reg (Reg.VI_ARG 0)) 8 8 = 0 ∧ c.viState i = 1 then 2 else c.viState i := by
  have hsame := c.viState_reshared i
  refine (c.q_shared i rfl).trans ?_
  unfold Chip.resharedState
  rw [hsame]
  split
  · exact Chip.q_put_same _ (F.VI_INST_STATE_STATE i) 2 (Nat.le_of_ble_eq_true rfl)
  · exact hsame

theorem Chip.shared_result : (c.shared i).q F.VI_CMD_RESULT_RESULT = 0 := Chip.q_put_same _ F.VI_CMD_RESULT_RESULT 0 (by decide)

end

/-! ### The statement -/

/-- Settles O39: each command is the model's own step, whose writes to the record, to the table and to the dowels do not meet. -/
theorem instancesMade : Obligations.InstancesMade := by
  unfold Obligations.InstancesMade
  refine ⟨?_, ?_, ?_, ?_, ?_⟩
  · intro i n s ha hb hcheck g o
    have hi : n.val < 256 := n.isLt
    have hwaits : (s.chip.creating n).waits = s.chip.waits := Chip.creating_keeps (fun x => x.waits) (fun _ _ => rfl) _ _
    have hquiet : (s.chip.creating n).Quiet s.chip.viArg.dowels := fun d hd => by
      rw [hwaits]
      exact Chip.quiet_of_createCheck hcheck d hd
    have hresult : ((s.chip.creating n).viMake n (fun k => s.chip.reg (Reg.VI_ARG k)) (i.owner != 0)).reg Reg.VI_CMD_RESULT =
        (s.chip.creating n).reg Reg.VI_CMD_RESULT := Chip.reg_viMake _ hquiet (.inl (by unfold Reg.VI_CMD_RESULT; omega)) (by decide)
    refine ⟨(s.chip.creating n).viMake n (fun k => s.chip.reg (Reg.VI_ARG k)) (i.owner != 0), ?_, Chip.viMake_grant _, rfl,
      (congrArg (fun v => bits v 31 1 != 0) hresult).trans (s.chip.creating_busy n),
      (congrArg (fun v => bits v 16 8) hresult).trans (s.chip.creating_record hi), Chip.viMake_state _, fun e he => ?_,
      fun d hd => Chip.viMake_dowel _ hquiet hi hd, ?_⟩
    · have hexec : exec (.create i n) s = s.go (s.chip.viCommand i 1 n.val fun c => c.viCreate i n.val) := rfl
      rw [hexec, Chip.viCommand_admitted ha hb]
      unfold Chip.viCreate
      rw [hcheck]
      exact s.go_eq _
    · have hown := Chip.viMake_keeps (i := n.val) (w := fun k => s.chip.reg (Reg.VI_ARG k)) (i.owner != 0) hquiet (fun x => x.ownAt e)
        (fun _ _ => rfl) (fun _ _ => rfl)
      have hgrant : ownOwner (((s.chip.creating n).granted n (fun k => s.chip.reg (Reg.VI_ARG k))).ownAt e) =
        madeOwner n (fun k => s.chip.reg (Reg.VI_ARG k)) % 8192 := Chip.ownOwner_granted he
      exact (congrArg ownOwner hown).trans (hgrant.trans (Nat.mod_eq_of_lt (madeOwner_lt _ _ hi)))
    · have hmem := Chip.viMake_keeps (i := n.val) (w := fun k => s.chip.reg (Reg.VI_ARG k)) (i.owner != 0) hquiet (fun x => x.mem)
        (fun _ _ => rfl) (fun _ _ => rfl)
      exact hmem.trans ((Chip.granted_keeps (fun x => x.mem) fun _ _ => rfl).trans (Chip.creating_keeps (fun x => x.mem) (fun _ _ => rfl) _ _))
  · intro s hb hop i g c t u
    exact exec_creationComplete hb hop
  · intro i n s ha hb hstate hmay old new
    have hexec : exec (.share i n) s = s.go (s.chip.viCommand i 4 n.val fun c => c.viShare i n.val) := rfl
    rw [hexec, Chip.viCommand_admitted ha hb]
    have hshare := s.chip.viShare_eq n.val i hmay hstate
    rw [hshare]
    exact ⟨_, s.go_eq _, Chip.shared_share _ _, Chip.shared_state _ _, Chip.shared_result _ _⟩
  · intro i k v n s ha hring hact
    have hexec : exec (.viRcfg i k v) s = execViRcfg i k v s := rfl
    unfold execViRcfg at hexec
    simp only [ha, hring, hact, not_true_eq_false, if_false, if_true] at hexec
    exact hexec.trans (s.go_eq _)
  · intro i k v s hp hact hmode howns
    have hexec : exec (.viSelf i k v) s = execViSelf i k v s := rfl
    unfold execViSelf at hexec
    exact (hexec.trans (if_pos ⟨hp, hact, hmode, howns⟩)).trans (s.go_eq _)

end Machine

end Sys2Proof

/-! PROOF. What an array does with its tile, its vectors and its rows (R80–R98). -/

namespace Sys2Proof

namespace Machine

/-! ### Writes to the store of an array -/

/-- A byte in no window depends on the memory alone. -/
theorem Chip.byte_of_contents {c d : Chip} (hmem : d.mem = c.mem) (hgarbled : d.garbled = c.garbled) {x : Nat} (hx : ¬ inWindow x) : d.byte x = c.byte x := by
  unfold Chip.byte
  rw [if_neg hx, if_neg hx, hmem, hgarbled]

theorem SameBytesBut.trans {p : Nat → Prop} {c d e : Chip} (h : SameBytesBut p c d) (k : SameBytesBut p d e) : SameBytesBut p c e :=
  fun x hw hp => (k x hw hp).trans (h x hw hp)

theorem SameBytesBut.of_contents (p : Nat → Prop) {c d : Chip} (hmem : d.mem = c.mem) (hgarbled : d.garbled = c.garbled) : SameBytesBut p c d :=
  fun _ hw _ => Chip.byte_of_contents hmem hgarbled hw

/-- What a row that is drained does up to its count: it writes the operand area of the array only. -/
structure OperandWrites (a : Nat) (c d : Chip) : Prop where
  regs : d.regs = c.regs
  arrays : d.arrays = c.arrays
  bytes : SameBytesBut (fun x => arrayStore a ≤ x ∧ x < arrayStore a + 0x800000) c d

namespace OperandWrites

variable {a : Nat} {c d e : Chip}

theorem refl (c : Chip) : OperandWrites a c c := ⟨rfl, rfl, fun _ _ _ => rfl⟩

theorem trans (h : OperandWrites a c d) (k : OperandWrites a d e) : OperandWrites a c e :=
  ⟨k.regs.trans h.regs, k.arrays.trans h.arrays, h.bytes.trans k.bytes⟩

theorem foldl {α : Type} (l : List α) (s : Chip → α → Chip) (hs : ∀ d x, OperandWrites a d (s d x)) (c : Chip) : OperandWrites a c (l.foldl s c) := by
  induction l generalizing c with
  | nil => exact refl c
  | cons x l ih => exact (hs c x).trans (ih (s c x))

theorem ite {p : Prop} [Decidable p] (hd : OperandWrites a c d) (he : OperandWrites a c e) : OperandWrites a c (if p then d else e) := by
  split
  · exact hd
  · exact he

theorem setFreeCnt (h : OperandWrites a c d) (n : Nat) : OperandWrites a c { d with freeCnt := n } :=
  ⟨h.regs, h.arrays, h.bytes.trans (.of_contents _ rfl rfl)⟩

/-- An offset that passes the end of the operand area wraps. -/
theorem setByte (off : Nat) (b : Byte) (c : Chip) : OperandWrites a c (c.setByte (operand a off) b) := by
  refine ⟨ite_keeps (f := fun x : Chip => x.regs) rfl rfl, ite_keeps (f := fun x : Chip => x.arrays) rfl rfl,
    fun x _ hp => Chip.byte_setByte_ne c b fun hx => hp ?_⟩
  unfold operand at hx
  have hoff : off % 0x800000 < 0x800000 := Nat.mod_lt off (by decide)
  exact ⟨by omega, by omega⟩

theorem storeOperand (h : OperandWrites a c d) (off : Nat) (bs : List Byte) : OperandWrites a c (d.storeOperand a off bs) :=
  h.trans (foldl bs.zipIdx _ (fun d p => setByte (off + p.2) p.1 d) d)

end OperandWrites

/-! ### The jobs of an array and its count of saturated values -/

section
variable (c : Chip) (a : Nat) (m : Cmd) (n : Nat)

theorem Chip.clampCmd_keeps {γ : Type} (f : Chip → γ) (hf : ∀ c y, f { c with cmds := y } = f c) (id : CmdId) (sat : Bool) :
    f (c.clampCmd id sat) = f c := ite_keeps (hf c _) rfl

theorem Chip.satCount_keeps {γ : Type} (f : Chip → γ) (hr : ∀ c y, f { c with regs := y } = f c) (hf : ∀ c y, f { c with cmds := y } = f c) :
    f (c.satCount a m n) = f c := (Chip.clampCmd_keeps _ f hf _ _).trans (Chip.put_keeps f hr _ _ _)

theorem Chip.reg_satCount {r : Nat} (h : r ≠ Reg.ARRAY_SAT_CNT a) : (c.satCount a m n).reg r = c.reg r :=
  (Chip.clampCmd_keeps _ (fun x => x.reg r) (fun _ _ => rfl) _ _).trans (Chip.reg_put_ne _ _ h)

theorem Chip.arr_satCount (k : Nat) : (c.satCount a m n).arr k = c.arr k :=
  Chip.satCount_keeps c a m n (fun x => x.arr k) (fun _ _ => rfl) fun _ _ => rfl

theorem Chip.satCount_bytes (p : Nat → Prop) : SameBytesBut p c (c.satCount a m n) :=
  .of_contents p (Chip.satCount_keeps c a m n (fun x => x.mem) (fun _ _ => rfl) fun _ _ => rfl)
    (Chip.satCount_keeps c a m n (fun x => x.garbled) (fun _ _ => rfl) fun _ _ => rfl)

theorem Chip.setArr_bytes (p : Nat → Prop) (x : ArrSt) : SameBytesBut p c (c.setArr a x) := .of_contents p rfl rfl

theorem Chip.jobs_setJob (j : ArrJob) : ((c.setJob a j).arr a).jobs = (c.arr a).jobs.map fun k => if k.id = j.id then j else k :=
  congrArg ArrSt.jobs (c.arr_setArr a _)

end

/-! ### The drain of a row -/

/-- The drain of a row stores its values, moves its command on by one row and counts what saturated. -/
theorem Chip.drain_eq {c : Chip} {a : Nat} {j : ArrJob} {m : Cmd} (h : c.nextDrain a = some (j, m)) :
    ∃ d sat, OperandWrites a c d ∧ c.drain a = (d.setJob a { j with drained := j.drained + 1, sat := j.sat + sat }).satCount a m sat := by
  unfold Chip.drain
  rw [h]
  dsimp only
  refine ⟨_, _, ?_, rfl⟩
  refine OperandWrites.setFreeCnt (.ite (.foldl _ _ (fun d q => .storeOperand (.refl d) _ _) c) (.ite ?_ (.storeOperand (.refl c) _ _))) _
  exact .storeOperand (.storeOperand (.refl c) _ _) _ _

/-! ### The entry of a vector -/

theorem leNat_toLE (n v : Nat) : leNat (toLE n v) = v % 256 ^ n := by
  induction n generalizing v with
  | zero => exact (Nat.mod_one v).symm
  | succ n ih =>
    show (BitVec.ofNat 8 v).toNat + 256 * leNat (toLE n (v / 256)) = _
    rw [ih, BitVec.toNat_ofNat]
    refine Eq.trans ?_ (congrArg (v % ·) (pow_succ' 256 n).symm)
    exact Nat.mod_mul.symm

/-- A 32-bit value that is accumulated fits its word. -/
theorem accumulate_lt (c0 : Nat) (s sum : FV) : (accumulate true c0 s sum).1 < 2 ^ 32 := by
  have hun (v : Int) : unsgn 32 v < 2 ^ 32 := by
    unfold unsgn
    have := Int.emod_lt_of_pos v (b := 2 ^ 32) (by decide)
    omega
  unfold accumulate
  rw [if_pos rfl]
  dsimp only
  split
  · decide
  · split
    · decide
    · exact hun _

theorem Chip.storeRaw_append (c : Chip) (a : Nat) (bs cs : List Byte) : c.storeRaw a (bs ++ cs) = (c.storeRaw a bs).storeRaw (a + bs.length) cs := by
  induction bs generalizing c a with
  | nil => rfl
  | cons b bs ih =>
    refine (ih (c.setByte a b) (a + 1)).trans ?_
    rw [List.length_cons, Nat.add_assoc, Nat.add_comm 1]
    rfl

theorem Chip.loadN_storeRaw (c : Chip) (a n v : Nat) (hold : ∀ i < n, holdsByte (a + i) = true) : (c.storeRaw a (toLE n v)).loadN a n = v % 256 ^ n := by
  have hbytes : (c.storeRaw a (toLE n v)).load a n = toLE n v := by
    refine List.ext_getElem ((List.length_map ..).trans ((List.length_range ..).trans (toLE_length n v).symm)) fun i hi hv => ?_
    have hin : i < n := by rwa [toLE_length] at hv
    refine (List.getElem_map ..).trans ?_
    rw [List.getElem_range]
    exact Chip.byte_storeRaw_inside c a _ i hv (hold i hin)
  exact (congrArg leNat hbytes).trans (leNat_toLE n v)

theorem Chip.loadN_congr {c d : Chip} {a n : Nat} (h : ∀ i < n, d.byte (a + i) = c.byte (a + i)) : d.loadN a n = c.loadN a n :=
  congrArg leNat (List.map_congr_left fun i hi => h i (List.mem_range.1 hi))

/-- Words stored one after another read back. -/
theorem Chip.loadN_storeRaw_words {α : Type} (c : Chip) (a : Nat) (l : List α) (f : α → Nat) (k : Nat) (hk : k < l.length)
    (hold : ∀ i < 4 * l.length, holdsByte (a + i) = true) : (c.storeRaw a (l.flatMap fun x => toLE 4 (f x))).loadN (a + 4 * k) 4 = f l[k] % 2 ^ 32 := by
  induction l generalizing c a k with
  | nil => exact absurd hk (Nat.not_lt_zero k)
  | cons x l ih =>
    rw [List.length_cons] at hk hold
    rw [List.flatMap_cons, Chip.storeRaw_append, toLE_length]
    cases k with
    | zero =>
      refine (Chip.loadN_congr fun i hi => Chip.byte_storeRaw_other _ _ _ _ (.inl (by omega))).trans ?_
      exact Chip.loadN_storeRaw c a 4 (f x) fun i hi => hold i (by omega)
    | succ k =>
      have haddr : a + 4 * (k + 1) = a + 4 + 4 * k := by omega
      rw [haddr]
      refine ih _ (a + 4) k (by omega) fun i hi => ?_
      rw [Nat.add_assoc]
      exact hold (4 + i) (by omega)

/-- The chip after a vector has entered: its values in a row of the accumulators, its command moved on and its check values owed. -/
def Chip.entered (c : Chip) (a : Nat) (m : Cmd) (n row sat : Nat) (j : ArrJob) (accs : List (Nat × Bool)) (k : Check) : Chip :=
  let d := (((Chip.storeRaw { c with freeCnt := n } (accAddr a row 0) (accs.flatMap fun p => toLE 4 p.1)).setJob a j).satCount a m sat)
  d.setArr a { d.arr a with checks := (d.arr a).checks ++ [k] }

theorem Chip.enterVector_eq {c : Chip} {a : Nat} {j : ArrJob} {m : Cmd} (h : c.nextVector a = some (j, m)) : ∃ n sat j' accs k,
    c.enterVector a = c.entered a m n ((m.accRow + j.streamed) % 2048) sat j' accs k ∧ accs.length = 512 ∧
    (m.intPair = true → j.wildThrough m (c.arr a).active = false → ∀ (i : Nat) (hi : i < accs.length), accs[i].1 =
      (accumulate true (c.accInit a m ((m.accRow + j.streamed) % 2048) i) (colSum ((c.vector a m j.streamed).map m.element) (c.arr a).active i)
        (colSum ((c.vector a m j.streamed).map m.element) (c.arr a).active i)).1) := by
  generalize hent : c.enterVector a = e
  unfold Chip.enterVector at hent
  split at hent
  case h_1 hnone => exact absurd (h.symm.trans hnone) nofun
  case h_2 j' m' hsome =>
    obtain ⟨rfl, rfl⟩ := Prod.mk.inj (Option.some.inj (h.symm.trans hsome))
    extract_lets +onlyGivenNames v row t inp av int wild draw open' sums accs sat r check k at hent
    refine ⟨_, sat, { j with streamed := v + 1, sat := j.sat + sat, wild := wild }, accs, k, hent.symm, ?_, fun hint hwild i hi => ?_⟩
    · simp only [accs, sums, List.length_map, List.length_zipIdx, List.length_range]
    · have hw : wild = false := hwild
      have hi' : int = true := hint
      simp only [accs, sums, hw, hi', List.getElem_map, List.getElem_zipIdx, List.getElem_range, if_false, Nat.zero_add, Bool.false_eq_true]
      rfl

section
variable (c : Chip) (a : Nat) (m : Cmd) (n row sat : Nat) (j : ArrJob) (accs : List (Nat × Bool)) (k : Check)

/-- The chip in which the values of the row stand. -/
def Chip.rowStored : Chip := Chip.storeRaw { c with freeCnt := n } (accAddr a row 0) (accs.flatMap fun p => toLE 4 p.1)

theorem Chip.entered_keeps {γ : Type} (f : Chip → γ) (hr : ∀ c y, f { c with regs := y } = f c) (ha : ∀ c y, f { c with arrays := y } = f c)
    (hc : ∀ c y, f { c with cmds := y } = f c) : f (c.entered a m n row sat j accs k) = f (c.rowStored a n row accs) :=
  (Chip.setArr_keeps f ha _ _ _).trans ((Chip.satCount_keeps _ a m sat f hr hc).trans (Chip.setArr_keeps f ha _ _ _))

theorem Chip.reg_entered {r : Nat} (h : r ≠ Reg.ARRAY_SAT_CNT a) : (c.entered a m n row sat j accs k).reg r = c.reg r :=
  (Chip.setArr_keeps (fun x => x.reg r) (fun _ _ => rfl) _ _ _).trans ((Chip.reg_satCount _ a m sat h).trans
    ((Chip.setArr_keeps (fun x => x.reg r) (fun _ _ => rfl) _ _ _).trans (Chip.storeRaw_keeps (fun x => x.reg r) (fun _ _ => rfl) _ _ _)))

theorem Chip.byte_entered {x : Nat} (hx : ¬ inWindow x) : (c.entered a m n row sat j accs k).byte x = (c.rowStored a n row accs).byte x :=
  Chip.byte_of_contents (Chip.entered_keeps c a m n row sat j accs k (fun x => x.mem) (fun _ _ => rfl) (fun _ _ => rfl) fun _ _ => rfl)
    (Chip.entered_keeps c a m n row sat j accs k (fun x => x.garbled) (fun _ _ => rfl) (fun _ _ => rfl) fun _ _ => rfl) hx

theorem length_rowBytes : (accs.flatMap fun p => toLE 4 p.1).length = 4 * accs.length := by
  induction accs with
  | nil => rfl
  | cons p l ih =>
    rw [List.flatMap_cons, List.length_append, ih, toLE_length, List.length_cons]
    omega

theorem Chip.entered_bytes (hlen : accs.length = 512) :
    SameBytesBut (fun x => accAddr a row 0 ≤ x ∧ x < accAddr a row 0 + 2048) c (c.entered a m n row sat j accs k) := fun x hw hp => by
  refine (c.byte_entered a m n row sat j accs k hw).trans ((Chip.byte_storeRaw_other _ _ _ _ ?_).trans (Chip.byte_of_contents (c := c) (by rfl) (by rfl) hw))
  rw [length_rowBytes, hlen]
  by_contra hin
  exact hp ⟨by omega, by omega⟩

theorem holdsByte_accAddr (a : Fin 8) (row : Nat) {i : Nat} (hi : i < 2048) : holdsByte (accAddr a row 0 + i) = true := by
  have haddr : accAddr a row 0 + i = arrayStore a + (0x800000 + row % 2048 * 2048 + i) := by
    unfold accAddr
    omega
  rw [haddr]
  exact holdsByte_arrayStore a (by omega)

theorem not_inWindow_of_holdsByte {x : Nat} (h : holdsByte x = true) : ¬ inWindow x := by
  unfold holdsByte at h
  simp_all

theorem Chip.loadN_entered (a : Fin 8) (hlen : accs.length = 512) {i : Nat} (hi : i < 512) :
    (c.entered a m n row sat j accs k).loadN (accAddr a row i) 4 = (accs[i]'(hlen ▸ hi)).1 % 2 ^ 32 := by
  have haddr : accAddr a row i = accAddr a row 0 + 4 * i := rfl
  rw [haddr]
  refine (Chip.loadN_congr (c := c.rowStored a n row accs) fun b hb => ?_).trans
    (Chip.loadN_storeRaw_words _ (accAddr a row 0) accs (fun p => p.1) i (hlen ▸ hi) fun b hb => holdsByte_accAddr a row (by omega))
  rw [Nat.add_assoc]
  exact c.byte_entered a m n row sat j accs k (not_inWindow_of_holdsByte (holdsByte_accAddr a row (by omega)))

end

/-! ### The statement -/

/-- What a read of the store of an array that shows no error and meets no transfer does. -/
theorem Chip.storeRead_clean {c : Chip} {a : Nat} {p : ArrJob × Cmd} {next : Option (ArrJob × Cmd)} {act : Chip → Chip} (hraces : c.noteRaces a = c)
    (hnext : next = some p) : c.storeRead a .clean next act = act c := by
  subst hnext
  exact congrArg act hraces

/-- Settles O8: the three steps are the model's own, and each is the store it makes with the count of its command. -/
theorem arrayWork : Obligations.ArrayWork := by
  unfold Obligations.ArrayWork
  refine ⟨fun a j m id w s hhalt hraces hnext hshadow => ?_, fun a j m s hhalt hraces hnext => ?_, fun a j m s hhalt hraces hnext => ?_⟩
  · have hexec : exec (.swap a .clean) s = s.go (s.chip.swap a) := by
      refine (if_neg (Bool.eq_false_iff.1 hhalt)).trans (congrArg s.go ?_)
      exact Chip.storeRead_clean hraces hnext
    have hswap : s.chip.swap a = s.chip.setArr a { s.chip.arr a with
        active := { w with wild := w.wild || (s.chip.arr a).jobs.any fun k => k.id == id && k.wild }, shadow := none,
        jobs := (s.chip.arr a).jobs.map fun k => if k.id = id then { k with loading := false } else k } := by
      unfold Chip.swap
      extract_lets +onlyGivenNames x
      split
      · next hnone => exact absurd (hshadow.symm.trans hnone) nofun
      · next hsome =>
        obtain ⟨rfl, rfl⟩ := Prod.mk.inj (Option.some.inj (hshadow.symm.trans hsome))
        rfl
    rw [hexec, hswap]
    refine ⟨_, s.go_eq _, ?_, ?_, ?_, rfl, rfl⟩
    · rw [Chip.arr_setArr]
    · rw [Chip.arr_setArr]
    · rw [Chip.arr_setArr]
      intro k hk hid
      obtain ⟨k', -, rfl⟩ := List.mem_map.1 hk
      split
      · rfl
      · next hne => exact absurd (by rwa [if_neg hne] at hid) hne
  · intro row w
    have hexec : exec (.vectorEntry a .clean) s = s.go (s.chip.enterVector a) := by
      refine (if_neg (Bool.eq_false_iff.1 hhalt)).trans (congrArg s.go ?_)
      exact Chip.storeRead_clean hraces hnext
    obtain ⟨n, sat, j', accs, k, hent, hlen, hval⟩ := Chip.enterVector_eq hnext
    rw [hexec, hent]
    refine ⟨_, s.go_eq _, fun r hr => s.chip.reg_entered a m n _ sat j' accs k hr, s.chip.entered_bytes a m n _ sat j' accs k hlen, ?_⟩
    intro hint hwild i hi sum
    rw [s.chip.loadN_entered m n _ sat j' accs k a hlen hi, hval hint hwild i (hlen ▸ hi)]
    exact Nat.mod_eq_of_lt (accumulate_lt _ _ _)
  · have hexec : exec (.drainRow a .clean) s = s.go (s.chip.drain a) := by
      refine (if_neg (Bool.eq_false_iff.1 hhalt)).trans (congrArg s.go ?_)
      exact Chip.storeRead_clean hraces hnext
    obtain ⟨d, sat, hd, hdrain⟩ := Chip.drain_eq hnext
    rw [hexec, hdrain]
    refine ⟨_, s.go_eq _, fun r hr => ?_, ⟨j.sat + sat, Nat.le_add_right _ _, ?_⟩, ?_⟩
    · exact (Chip.reg_satCount _ a m sat hr).trans (Chip.reg_of_regs hd.regs r)
    · have hjobs : (d.arr a).jobs = (s.chip.arr a).jobs := congrArg (fun l => (Tbl.look ArrSt.zero l a.val).jobs) hd.arrays
      rw [Chip.arr_satCount, Chip.jobs_setJob, hjobs]
    · exact hd.bytes.trans ((Chip.setArr_bytes d a _ _).trans (Chip.satCount_bytes _ a m sat _))

end Machine

end Sys2Proof

/-! PROOF. The sampled update and its limits (R365–R378). -/

namespace Sys2Proof

namespace Machine

/-! ### The order of values -/

/-- The significand of a value at a smaller exponent. -/
theorem finAt_lower (s : Bool) (m : Nat) {e q r : Int} (hq : q ≤ e) (hr : r ≤ q) : finAt s m e r = finAt s m e q * 2 ^ (q - r).toNat := by
  have hsplit : (e - r).toNat = (e - q).toNat + (q - r).toNat := by omega
  unfold finAt
  rw [hsplit, pow_add]
  split <;> push_cast <;> ring

/-- Finite values compare as their significands at any exponent that is small enough. -/
theorem cmp_fin (a b : Bool) (m n : Nat) {e g r : Int} (he : r ≤ e) (hg : r ≤ g) :
    FV.cmp (.fin a m e) (.fin b n g) = some (compare (finAt a m e r) (finAt b n g r)) := by
  have hpos : (0 : Int) < 2 ^ (min e g - r).toNat := by positivity
  rw [finAt_lower a m (min_le_left e g) (le_min he hg), finAt_lower b n (min_le_right e g) (le_min he hg)]
  refine congrArg some ?_
  rcases lt_trichotomy (finAt a m e (min e g)) (finAt b n g (min e g)) with h | h | h
  · rw [compare_lt_iff_lt.2 h, compare_lt_iff_lt.2 (Int.mul_lt_mul_of_pos_right h hpos)]
  · rw [h, compare_eq_iff_eq.2 rfl, compare_eq_iff_eq.2 rfl]
  · rw [compare_gt_iff_gt.2 h, compare_gt_iff_gt.2 (Int.mul_lt_mul_of_pos_right h hpos)]

/-- The exponent of a finite value. -/
def FV.low : FV → Int
  | .fin _ _ e => e
  | _ => 0

/-- Where a value stands among the multiples of a power of two and the infinities. -/
def FV.place (q : Int) : FV → WithBot (WithTop Int)
  | .fin s m e => ((finAt s m e q : Int) : WithTop Int)
  | .inf true => ⊥
  | _ => ((⊤ : WithTop Int) : WithBot (WithTop Int))

section
variable {v w : FV} {q : Int} (hv : v.isNan = false) (hw : w.isNan = false) (hlv : q ≤ v.low) (hlw : q ≤ w.low)
include hv hw hlv hlw

/-- Values that are not NaN compare as the places where they stand. -/
theorem FV.cmp_place : FV.cmp v w = some (compare (v.place q) (w.place q)) := by
  have hbelow (i : Int) : ((i : WithTop Int) : WithBot (WithTop Int)) < ((⊤ : WithTop Int) : WithBot (WithTop Int)) :=
    WithBot.coe_lt_coe.2 (WithTop.coe_lt_top i)
  cases v with
  | nan => exact absurd hv (by decide)
  | inf a =>
    cases w with
    | nan => exact absurd hw (by decide)
    | inf b =>
      refine congrArg some ?_
      cases a <;> cases b
      · exact (compare_eq_iff_eq.2 rfl).symm
      · exact (compare_gt_iff_gt.2 (WithBot.bot_lt_coe _)).symm
      · exact (compare_lt_iff_lt.2 (WithBot.bot_lt_coe _)).symm
      · exact (compare_eq_iff_eq.2 rfl).symm
    | fin b n g =>
      refine congrArg some ?_
      cases a
      · exact (compare_gt_iff_gt.2 (hbelow _)).symm
      · exact (compare_lt_iff_lt.2 (WithBot.bot_lt_coe _)).symm
  | fin a m e =>
    cases w with
    | nan => exact absurd hw (by decide)
    | inf b =>
      refine congrArg some ?_
      cases b
      · exact (compare_lt_iff_lt.2 (hbelow _)).symm
      · exact (compare_gt_iff_gt.2 (WithBot.bot_lt_coe _)).symm
    | fin b n g =>
      refine (cmp_fin a b m n (e := e) (g := g) hlv hlw).trans (congrArg some ?_)
      have hlt (i j : Int) : ((i : WithTop Int) : WithBot (WithTop Int)) < ((j : WithTop Int) : WithBot (WithTop Int)) ↔ i < j :=
        WithBot.coe_lt_coe.trans WithTop.coe_lt_coe
      rcases lt_trichotomy (finAt a m e q) (finAt b n g q) with h | h | h
      · rw [compare_lt_iff_lt.2 h, eq_comm, compare_lt_iff_lt]
        exact (hlt _ _).2 h
      · rw [compare_eq_iff_eq.2 h, eq_comm, compare_eq_iff_eq]
        exact congrArg (fun i : Int => ((i : WithTop Int) : WithBot (WithTop Int))) h
      · rw [compare_gt_iff_gt.2 h, eq_comm, compare_gt_iff_gt]
        exact (hlt _ _).2 h

theorem FV.lt_iff : FV.lt v w = true ↔ v.place q < w.place q := by
  unfold FV.lt
  rw [FV.cmp_place hv hw hlv hlw, beq_iff_eq, Option.some_inj, compare_lt_iff_lt]

theorem FV.eq_iff : FV.eq v w = true ↔ v.place q = w.place q := by
  unfold FV.eq
  rw [FV.cmp_place hv hw hlv hlw, beq_iff_eq, Option.some_inj, compare_eq_iff_eq]

theorem FV.le_iff : FV.le v w = true ↔ v.place q ≤ w.place q := by
  unfold FV.le
  rw [Bool.or_eq_true, FV.lt_iff hv hw hlv hlw, FV.eq_iff hv hw hlv hlw, le_iff_lt_or_eq]

end

theorem FV.ne_nan {v : FV} (h : v.isNan = false) : v ≠ .nan := fun hv => by
  rw [hv] at h
  exact absurd h (by decide)

/-- A number clipped to bounds that are numbers is one of the three, and stands where it or the nearer bound does. -/
theorem clipTo_cases {lo hi v : FV} (hlo : lo.isNan = false) (hhi : hi.isNan = false) (hv : v.isNan = false) :
    clipTo lo hi v = if FV.lt v hi then (if FV.lt lo v then v else lo) else if FV.lt lo hi then hi else lo := by
  unfold clipTo FV.max FV.min
  rw [if_neg (Bool.eq_false_iff.1 hv), if_neg (FV.ne_nan hhi), if_neg (FV.ne_nan hlo)]
  split <;> rfl

theorem clipTo_within {lo hi v : FV} (hlo : lo.isNan = false) (hhi : hi.isNan = false) (hle : FV.le lo hi = true) :
    FV.le lo (clipTo lo hi v) = true ∧ FV.le (clipTo lo hi v) hi = true ∧ (v.isNan = true → clipTo lo hi v = lo) ∧
    (v.isNan = false → FV.le lo v = true → FV.le v hi = true → FV.eq (clipTo lo hi v) v = true) := by
  obtain ⟨q, hqlo, hqhi, hqv⟩ : ∃ q : Int, q ≤ lo.low ∧ q ≤ hi.low ∧ q ≤ v.low :=
    ⟨min lo.low (min hi.low v.low), by omega, by omega, by omega⟩
  have hself : FV.le lo lo = true := (FV.le_iff hlo hlo hqlo hqlo).2 le_rfl
  cases hv : v.isNan with
  | true =>
    have hclip : clipTo lo hi v = lo := if_pos hv
    rw [hclip]
    exact ⟨hself, hle, fun _ => rfl, nofun⟩
  | false =>
    have hplaces := (FV.le_iff hlo hhi hqlo hqhi).1 hle
    simp only [clipTo_cases hlo hhi hv, FV.lt_iff hv hhi hqv hqhi, FV.lt_iff hlo hv hqlo hqv, FV.lt_iff hlo hhi hqlo hqhi,
      FV.le_iff hlo hv hqlo hqv, FV.le_iff hv hhi hqv hqhi]
    split
    · next hbelow =>
      split
      · next habove =>
        rw [FV.le_iff hlo hv hqlo hqv, FV.le_iff hv hhi hqv hqhi, FV.eq_iff hv hv hqv hqv]
        exact ⟨habove.le, hbelow.le, nofun, fun _ _ _ => rfl⟩
      · next habove =>
        rw [FV.eq_iff hlo hv hqlo hqv]
        exact ⟨hself, hle, nofun, fun _ h _ => le_antisymm h (not_lt.1 habove)⟩
    · next hbelow =>
      split
      · next habove =>
        rw [FV.le_iff hhi hhi hqhi hqhi, FV.eq_iff hhi hv hqhi hqv]
        exact ⟨hle, le_rfl, nofun, fun _ _ h => le_antisymm (not_lt.1 hbelow) h⟩
      · next habove =>
        rw [FV.eq_iff hlo hv hqlo hqv]
        exact ⟨hself, hle, nofun, fun _ h k => le_antisymm h (k.trans (not_lt.1 habove))⟩

/-! ### The order of the slots -/

theorem insertSlot_perm (key : Nat → Nat) (s : Nat) (l : List Nat) : (insertSlot key s l).Perm (s :: l) := by
  induction l with
  | nil => exact .refl _
  | cons t l ih =>
    unfold insertSlot
    split
    · exact .refl _
    · exact (ih.cons t).trans (.swap s t l)

theorem insertSlot_pairwise (key : Nat → Nat) (s : Nat) {l : List Nat} (h : l.Pairwise fun a b => key a ≤ key b) :
    (insertSlot key s l).Pairwise fun a b => key a ≤ key b := by
  induction l with
  | nil => exact List.pairwise_singleton _ s
  | cons t l ih =>
    obtain ⟨hhead, htail⟩ := List.pairwise_cons.1 h
    unfold insertSlot
    split
    · next hfirst =>
      have hst : key s ≤ key t := by omega
      exact List.pairwise_cons.2 ⟨fun x hx => (List.mem_cons.1 hx).elim (fun e => e ▸ hst) fun hm => hst.trans (hhead x hm), h⟩
    · next hlater =>
      have hts : key t ≤ key s := by omega
      refine List.pairwise_cons.2 ⟨fun x hx => ?_, ih htail⟩
      exact (List.mem_cons.1 ((insertSlot_perm key s l).mem_iff.1 hx)).elim (fun e => e ▸ hts) (hhead x)

theorem foldl_insertSlot (key : Nat → Nat) (l acc : List Nat) (h : acc.Pairwise fun a b => key a ≤ key b) :
    (l.foldl (fun r s => insertSlot key s r) acc).Perm (l ++ acc) ∧ (l.foldl (fun r s => insertSlot key s r) acc).Pairwise fun a b => key a ≤ key b := by
  induction l generalizing acc with
  | nil => exact ⟨.refl _, h⟩
  | cons s l ih =>
    obtain ⟨hperm, hpair⟩ := ih _ (insertSlot_pairwise key s h)
    exact ⟨hperm.trans (((insertSlot_perm key s acc).append_left l).trans List.perm_middle), hpair⟩

/-! ### The statement -/

/-- Settles O47: the clip by the order of the places where values stand, the update as the model makes it. -/
theorem steadyUpdates : Obligations.SteadyUpdates := by
  unfold Obligations.SteadyUpdates
  refine ⟨fun lo hi v hlo hhi hle => clipTo_within hlo hhi hle, ?_, fun h l b o s hoff => ?_⟩
  · intro h late bad o s hon hready hawake b due u ran v d
    obtain ⟨hperm, hpair⟩ := foldl_insertSlot (s.chip.loopPeriod h) (List.range 16) [] .nil
    rw [List.append_nil] at hperm
    refine ⟨?_, hperm, hpair⟩
    have hexec : exec (.steadyUpdate h late bad o) s = s.go (s.chip.steadyInstant o h late bad).syncAuth := if_pos ⟨hon, hready, hawake⟩
    exact hexec.trans (s.go_eq _)
  · exact if_neg fun hc => absurd hc.1 (Bool.eq_false_iff.1 hoff)

end Machine

end Sys2Proof

/-! PROOF. Doorbells, dowel commands and the start of moves (R233–R246, R258, R206–R214). -/

namespace Sys2Proof

namespace Machine

/-! ### Doorbells -/

/-- A doorbell of a party that reaches the page, exists and may have work fetched acts on the ring. -/
theorem exec_doorbell {i : Initiator} {r : Fin 65536} {v : Word} {s : State} (hport : s.chip.portCause i true (Reg.RING_DB r) = 0)
    (hparty : s.chip.partyExists i.owner = true) (hfetch : s.chip.mayFetch i.owner = true) (hdown : s.chip.down.get (ringHalf r) = false) :
    exec (.doorbell i r v) s = .next (s.withChip (s.chip.doorbell r v.toNat)) := by
  have hexec : exec (.doorbell i r v) s = execDoorbell i r v s := rfl
  unfold execDoorbell at hexec
  simp only [hport, hparty, hfetch, hdown, not_true_eq_false, if_false, Bool.false_eq_true, or_self] at hexec
  exact hexec.trans (s.go_eq _)

/-- Settles O26: the branches of a doorbell are those of its ring's kind. -/
theorem ringDoorbells : Obligations.RingDoorbells := by
  unfold Obligations.RingDoorbells
  intro i r v s hport hparty hfetch hdown c head tail used dist kind bad
  rw [exec_doorbell hport hparty hfetch hdown]
  unfold Chip.doorbell
  refine ⟨fun hnone => ?_, fun x hx hkind => ?_, fun x hx hkind => ?_⟩
  · rw [if_pos hnone]
  · have hring : ¬ (s.chip.ringSt? r = none ∨ s.chip.q (F.RING_CFG_KIND r) = 0) := by
      rw [hx, show s.chip.q (F.RING_CFG_KIND r) = 1 from hkind]
      exact not_or.2 ⟨nofun, by decide⟩
    rw [if_neg hring, if_pos hkind, hx]
    rfl
  · have hzero : s.chip.q (F.RING_CFG_KIND r) ≠ 0 := fun h0 => absurd (h0 ▸ hkind : 2 ≤ 0) (by decide)
    have hone : s.chip.q (F.RING_CFG_KIND r) ≠ 1 := fun h1 => absurd (h1 ▸ hkind : 2 ≤ 1) (by decide)
    rw [if_neg (not_or.2 ⟨by rw [hx]; exact nofun, hzero⟩), if_neg hone, hx]
    rfl

/-! ### Dowel commands -/

/-- A signal of a party that may give it, on a dowel whose half is not DOWN, sets the maximum or adds. -/
theorem Chip.signal_eq {c : Chip} {o : Owner} {d op v : Nat} {ring : Option Nat} (hdown : c.down.get (dowelHalf d) = false)
    (hsignal : c.dowelSignal o d = true) : c.signal o d op v ring = if op = 0 then c.dowelMax d v else if op = 1 then c.dowelAdd o d v ring else c :=
  (if_neg (Bool.eq_false_iff.1 hdown)).trans (if_neg (not_not_intro hsignal))

/-- Settles O29: each command does what its branch says, and a wait whose dowel holds the target resumes its waiter. -/
theorem dowelCommands : Obligations.DowelCommands := by
  unfold Obligations.DowelCommands
  refine ⟨fun id m s ht hdown hread => ?_, ?_, ?_⟩
  · have hexec : exec (.dowelWait id) s = execDowelWait id s := rfl
    unfold execDowelWait at hexec
    simp only [ht, hdown, hread, not_true_eq_false, if_false, Bool.false_eq_true] at hexec
    exact hexec.trans (s.go_ite _ _ _)
  · intro id m s ht d hdown hsignal
    have hexec (hop : ¬ 2 ≤ m.fld 1 62 2) : exec (.dowelSignal id) s =
        .next (s.withChip ((s.chip.signal m.owner d (m.fld 1 62 2) (m.word 2) (some m.id.ring.val)).complete m 0)) := by
      have hrow : exec (.dowelSignal id) s = execDowelSignal id s := rfl
      unfold execDowelSignal at hrow
      rw [ht] at hrow
      exact hrow.trans ((if_neg hop).trans ((if_neg (Bool.eq_false_iff.1 hdown)).trans ((if_neg (not_not_intro hsignal)).trans (s.go_eq _))))
    refine ⟨fun hop => ?_, fun hop => ?_⟩
    · rw [hexec (by rw [hop]; decide), Chip.signal_eq hdown hsignal, if_pos hop]
    · have hzero : ¬ m.fld 1 62 2 = 0 := by rw [hop]; decide
      rw [hexec (by rw [hop]; decide), Chip.signal_eq hdown hsignal, if_neg hzero, if_pos hop]
  · intro d who w s hw htarget c t
    refine ⟨fun hhw => ?_, fun hhw => ?_⟩
    · have hexec : exec (.waitSatisfied d who) s = execWaitSatisfied d who s := rfl
      unfold execWaitSatisfied at hexec
      simp only [hw, hhw, htarget, and_self, if_true] at hexec
      exact hexec.trans (s.go_eq _)
    · have hexec : exec (.dowelPoll d who) s = execDowelPoll d who s := rfl
      unfold execDowelPoll at hexec
      simp only [hw, hhw, htarget, Bool.false_eq_true, not_false_eq_true, and_self, if_true] at hexec
      exact hexec.trans (s.go_eq _)

/-! ### Moves -/

/-- Settles O21: the four moves take the same path, which differs by the place among the pinning operations alone. -/
theorem movesStart : Obligations.MovesStart := by
  unfold Obligations.MovesStart
  intro op id k m far s ht hop hhalf hen hunit hroom hbehind m' hbad n c t
  have hrow (f : Far) : s.chip.moveRow op id k f [] = t f := by
    unfold Chip.moveRow
    rw [ht]
    have hguard : ¬ (m.opcode ≠ op ∨ Half.ofIdx (k.val / 8) ≠ m.half ∨ ¬ s.chip.on (F.CARRIAGE_CTL_ENABLE k) ∨ ¬ s.chip.unitOn (40 + k.val) ∨
        32 ≤ (s.chip.movesOn k).length ∨ s.chip.behind m moveOp (fun e => e.half == m.half)) := by
      rw [hbehind]
      simp only [not_or, not_not]
      exact ⟨hop, hhalf, hen, hunit, by omega, nofun⟩
    refine (if_neg hguard).trans ?_
    extract_lets +onlyGivenNames m1
    split
    · next e hsome => exact absurd (hbad.symm.trans hsome) nofun
    · by_cases hempty : m'.moveEmpty = true
      · exact (if_pos hempty).trans (if_pos hempty).symm
      · exact (if_neg hempty).trans (if_neg hempty).symm
  refine ⟨fun h => ?_, fun h => ?_, fun h => ?_, fun h => ?_⟩
  all_goals
    subst h
    exact congrArg s.go (hrow _)

end Machine

end Sys2Proof

/-! PROOF. The age monitor of the result slots (R330–R335), and the commands that an array takes (R84–R88). -/

namespace Sys2Proof

namespace Machine

/-! ### The age monitor -/

theorem slotState_quiet {g : RF} {n : Nat} (hn : n < 512) (hg : g.addr = Reg.SLOT_STATE n) : ¬ eventReg g.addr := by
  rw [hg]
  unfold eventReg Reg.SLOT_STATE Reg.WEAR_LOG_CNT
  omega

theorem slotState_degraded {g : RF} {n : Nat} (hg : g.addr = Reg.SLOT_STATE n) : ∀ f ∈ degradedFields, f.Apart g := by
  have hne (k : Nat) (hk : k < 2) : g.addr ≠ Reg.CALLIPER_STATUS k := by
    rw [hg]
    unfold Reg.SLOT_STATE Reg.CALLIPER_STATUS
    omega
  simp only [degradedFields, List.forall_mem_cons, List.not_mem_nil, false_imp_iff, implies_true, and_true]
  exact ⟨⟨by decide, .inl (hne 0 (by decide))⟩, ⟨by decide, .inl (hne 1 (by decide))⟩, ⟨by decide, .inl (hne 0 (by decide))⟩,
    ⟨by decide, .inl (hne 1 (by decide))⟩⟩

theorem SameField.setSlot {g : RF} {c d : Chip} (h : SameField g c d) (n : Nat) (x : SlotSt) : SameField g c (d.setSlot n x) := h.trans (.of_regs rfl rfl)

section
variable {c : Chip} {h : Half} {n : Nat}

/-- What follows the switch in an evaluation: the warning. -/
def Chip.ageRest (h : Half) (n : Nat) (c : Chip) : Chip :=
  let x := c.slot n
  let w := c.q (F.SLOT_WARN_WARN_US n)
  let c :=
    if 0 < w ∧ w < c.q (F.SLOT_AGE_LIMIT_US n) ∧ ¬ c.slotEmpty n ∧ ¬ x.warned ∧ ((w * usUnits : Nat) : Int) ≤ elapsed (c.stamp h 0) x.origin then
      let c := c.setSlot n { x with warned := true }
      if c.on F.SCHED_CTL_BOOST_EN then ({ c with boosts := n :: c.boosts }).ev h 0x0511 [n, bits (c.q (F.SLOT_OWNER_PRODUCER n)) 8 4] else c
    else c
  c.syncDegraded

/-- It leaves the state of the slot. -/
theorem Chip.ageRest_same (d : Chip) (hn : n < 512) {g : RF} (hg : g.addr = Reg.SLOT_STATE n) : SameField g d (Chip.ageRest h n d) := by
  have hev : ¬ eventReg g.addr := slotState_quiet hn hg
  unfold Chip.ageRest
  extract_lets +onlyGivenNames x w y e
  have he : SameField g d e := by
    refine .ite ?_ (.refl d)
    exact .ite ((((SameField.refl d).setSlot n _).setBoosts _).ev hev _ _ _) ((SameField.refl d).setSlot n _)
  exact he.trans (e.syncDegraded_same hev (slotState_degraded hg))

/-- The chip whose slot has been switched to what serves it, and the one whose slot is switched back. -/
def Chip.slotSwitched (c : Chip) (n : Nat) : Chip := (c.put (F.SLOT_STATE_SWITCHED n) 1).put (F.SLOT_STATE_GOOD n) 0

def Chip.slotReturned (c : Chip) (n : Nat) : Chip :=
  ((c.put (F.SLOT_STATE_SWITCHED n) 0).put (F.SLOT_STATE_GOOD n) 0).put (F.SLOT_STATE_SERVING_ALT2 n) 0

theorem Chip.ageEval_switches (hv : c.on (F.SLOT_CFG_VALID n) = true) (hoff : c.on (F.SLOT_STATE_SWITCHED n) = false) {k : Nat}
    (hk : c.switchCause h n = some k) : c.ageEval h n =
      Chip.ageRest h n (((c.slotSwitched n).put (F.SLOT_STATE_SERVING_ALT2 n) (b2n ((c.slotSwitched n).serve h n).alt2)).ev h 0x0710
        [n, k, ((c.slotSwitched n).serve h n).slot]) := by
  unfold Chip.ageEval
  rw [if_neg (not_not_intro hv), if_pos (Bool.eq_false_iff.1 hoff), hk]
  rfl

theorem Chip.ageEval_returns (hv : c.on (F.SLOT_CFG_VALID n) = true) (hon : c.on (F.SLOT_STATE_SWITCHED n) = true)
    (hgood : c.q (F.SLOT_CFG_RESTORE_N n) ≤ c.q (F.SLOT_STATE_GOOD n)) (hempty : c.slotEmpty n = false) (hold : c.slotOld h n = false) :
    c.ageEval h n = Chip.ageRest h n ((c.slotReturned n).ev h 0x0711 [n, (c.slotReturned n).reg (Reg.SLOT_GEN n)]) := by
  have hgen : (c.slotReturned n).reg (Reg.SLOT_GEN n) = c.reg (Reg.SLOT_GEN n) := by
    have hne : Reg.SLOT_GEN n ≠ Reg.SLOT_STATE n := by unfold Reg.SLOT_GEN Reg.SLOT_STATE; omega
    exact (Chip.reg_put_ne _ _ hne).trans ((Chip.reg_put_ne _ _ hne).trans (Chip.reg_put_ne _ _ hne))
  unfold Chip.ageEval
  rw [if_neg (not_not_intro hv), if_neg (not_not_intro hon),
    if_pos ⟨hgood, Bool.eq_false_iff.1 hempty, Bool.eq_false_iff.1 hold⟩, hgen]
  rfl

theorem Chip.ageEval_stays (hv : c.on (F.SLOT_CFG_VALID n) = true) (hon : c.on (F.SLOT_STATE_SWITCHED n) = true)
    (hgood : ¬ c.q (F.SLOT_CFG_RESTORE_N n) ≤ c.q (F.SLOT_STATE_GOOD n)) :
    c.ageEval h n = Chip.ageRest h n (c.put (F.SLOT_STATE_SERVING_ALT2 n) (b2n (c.serve h n).alt2)) := by
  unfold Chip.ageEval
  rw [if_neg (not_not_intro hv), if_neg (not_not_intro hon), if_neg fun hc => hgood hc.1]
  rfl

/-- The two fields beside the one that tells of the second fallback. -/
theorem SameField.serving {g : RF} {c d : Chip} (h : SameField g c d) (hg : g = F.SLOT_STATE_SWITCHED n ∨ g = F.SLOT_STATE_GOOD n) (v : Nat) :
    SameField g c (d.put (F.SLOT_STATE_SERVING_ALT2 n) v) := by
  rcases hg with rfl | rfl
  · exact h.put ⟨Nat.le_of_ble_eq_true rfl, .inr (.inl (Nat.le_of_ble_eq_true rfl))⟩ v
  · exact h.put ⟨Nat.le_of_ble_eq_true rfl, .inr (.inr (Nat.le_of_ble_eq_true rfl))⟩ v

theorem Chip.on_slotSwitched : (c.slotSwitched n).on (F.SLOT_STATE_SWITCHED n) = true :=
  (Chip.on_put_apart _ (g := F.SLOT_STATE_SWITCHED n) 0 ⟨Nat.le_of_ble_eq_true rfl, .inr (.inl (Nat.le_of_ble_eq_true rfl))⟩).trans
    (Chip.on_put_same _ (F.SLOT_STATE_SWITCHED n) 1 (Nat.le_of_ble_eq_true rfl))

theorem Chip.good_slotSwitched : (c.slotSwitched n).q (F.SLOT_STATE_GOOD n) = 0 := Chip.q_put_same _ (F.SLOT_STATE_GOOD n) 0 (Nat.le_of_ble_eq_true rfl)

theorem Chip.on_slotReturned : (c.slotReturned n).on (F.SLOT_STATE_SWITCHED n) = false :=
  ((SameField.refl _).serving (.inl rfl) 0).on.trans
    ((Chip.on_put_apart _ (g := F.SLOT_STATE_SWITCHED n) 0 ⟨Nat.le_of_ble_eq_true rfl, .inr (.inl (Nat.le_of_ble_eq_true rfl))⟩).trans
      (Chip.on_put_same _ (F.SLOT_STATE_SWITCHED n) 0 (Nat.le_of_ble_eq_true rfl)))

/-- The chip in which it is told whether the second fallback serves. -/
theorem Chip.alt2_told (d : Chip) (b : Bool) (hn : n < 512) (code : Nat) (l : List Nat) :
    ((d.put (F.SLOT_STATE_SERVING_ALT2 n) (b2n b)).ev h code l).on (F.SLOT_STATE_SERVING_ALT2 n) = b := by
  have hev : ¬ eventReg (F.SLOT_STATE_SERVING_ALT2 n).addr := slotState_quiet hn rfl
  refine (Chip.on_ev _ h code l hev).trans ((Chip.on_put_same d (F.SLOT_STATE_SERVING_ALT2 n) (b2n b) (Nat.le_of_ble_eq_true rfl)).trans ?_)
  cases b <;> rfl

end

theorem Chip.ageEval_invalid {c : Chip} {h : Half} {n : Nat} (hv : c.on (F.SLOT_CFG_VALID n) = false) : c.ageEval h n = c := by
  unfold Chip.ageEval
  rw [if_pos (Bool.eq_false_iff.1 hv)]

section
variable {h : Half} {n : Fin 512} {s : State}

theorem exec_ageEvaluation (hready : s.chip.timeReady h = true) : exec (.ageEvaluation h n) s = .next (s.withChip (s.chip.ageEval h n)) :=
  (if_pos hready).trans (s.go_eq _)

theorem Chip.ageEval_switched {c : Chip} {k : Nat} (hv : c.on (F.SLOT_CFG_VALID n) = true) (hoff : c.on (F.SLOT_STATE_SWITCHED n) = false)
    (hk : c.switchCause h n = some k) : (c.ageEval h n).on (F.SLOT_STATE_SWITCHED n) = true ∧ (c.ageEval h n).q (F.SLOT_STATE_GOOD n) = 0 ∧
    (c.ageEval h n).on (F.SLOT_STATE_SERVING_ALT2 n) = (((c.put (F.SLOT_STATE_SWITCHED n) 1).put (F.SLOT_STATE_GOOD n) 0).serve h n).alt2 := by
  have hchip : (c.put (F.SLOT_STATE_SWITCHED n) 1).put (F.SLOT_STATE_GOOD n) 0 = c.slotSwitched n := rfl
  rw [hchip]
  have hev {g : RF} (hg : g.addr = Reg.SLOT_STATE n) : ¬ eventReg g.addr := slotState_quiet n.isLt hg
  rw [Chip.ageEval_switches hv hoff hk]
  refine ⟨?_, ?_, ?_⟩
  · exact (Chip.ageRest_same _ n.isLt rfl).on.trans ((((SameField.refl _).serving (.inl rfl) _).ev (hev rfl) _ _ _).on.trans Chip.on_slotSwitched)
  · exact (Chip.ageRest_same _ n.isLt rfl).q.trans ((((SameField.refl _).serving (.inr rfl) _).ev (hev rfl) _ _ _).q.trans Chip.good_slotSwitched)
  · exact (Chip.ageRest_same _ n.isLt rfl).on.trans (Chip.alt2_told _ _ n.isLt _ _)

theorem Chip.ageEval_young {c : Chip} (hv : c.on (F.SLOT_CFG_VALID n) = true) (hon : c.on (F.SLOT_STATE_SWITCHED n) = true)
    (hempty : c.slotEmpty n = false) (hold : c.slotOld h n = false) :
    (c.ageEval h n).on (F.SLOT_STATE_SWITCHED n) = decide (c.q (F.SLOT_STATE_GOOD n) < c.q (F.SLOT_CFG_RESTORE_N n)) := by
  have hev : ¬ eventReg (F.SLOT_STATE_SWITCHED n).addr := slotState_quiet n.isLt rfl
  by_cases hgood : c.q (F.SLOT_CFG_RESTORE_N n) ≤ c.q (F.SLOT_STATE_GOOD n)
  · rw [Chip.ageEval_returns hv hon hgood hempty hold, decide_eq_false (by omega)]
    exact (Chip.ageRest_same _ n.isLt rfl).on.trans ((Chip.on_ev _ _ _ _ hev).trans Chip.on_slotReturned)
  · rw [Chip.ageEval_stays hv hon hgood, decide_eq_true (by omega)]
    exact (Chip.ageRest_same _ n.isLt rfl).on.trans (((SameField.refl _).serving (.inl rfl) _).on.trans hon)

theorem exec_ageEvaluation_invalid (hv : s.chip.on (F.SLOT_CFG_VALID n) = false) : exec (.ageEvaluation h n) s = .next s := by
  have hage : s.chip.ageEval h n = s.chip := Chip.ageEval_invalid hv
  have hrow : exec (.ageEvaluation h n) s = if s.chip.timeReady h then s.go (s.chip.ageEval h n.val) else s.go s.chip := rfl
  rw [hrow, hage, ite_self]
  exact s.go_eq _

end

/-- Settles O42: the switch decides, and what follows it leaves the state of the slot. -/
theorem slotsAged : Obligations.SlotsAged := by
  unfold Obligations.SlotsAged
  refine ⟨?_, fun h n s hready hv hon hempty hold => ⟨_, exec_ageEvaluation hready, Chip.ageEval_young hv hon hempty hold⟩,
    fun h n s hv => exec_ageEvaluation_invalid hv⟩
  intro h n k s hready hv hoff hk
  exact ⟨_, exec_ageEvaluation hready, Chip.ageEval_switched hv hoff hk⟩

/-! ### Commands that an array takes -/

/-- A zeroed range that begins and ends with granules reads zero, whatever its granules held. -/
theorem Chip.byte_zeroRange_granules (c : Chip) {a n x : Nat} (ha : a % 65536 = 0) (hn : n % 65536 = 0) (hlo : a ≤ x) (hhi : x < a + n)
    (hx : holdsByte x = true) : (c.zeroRange a n).byte x = 0 := by
  simp only [holdsByte, Bool.and_eq_true, Bool.not_eq_true', decide_eq_true_eq] at hx
  obtain ⟨hwin, hlow⟩ := hx
  have hgarbled : Tbl.find? (c.zeroRange a n).garbled (x / 65536) = none :=
    Tbl.find?_filter_none c.garbled (fun k => decide ¬(a ≤ k * 65536 ∧ k * 65536 + 65536 ≤ a + n)) (x / 65536) (decide_eq_false (by omega))
  have hreset : memReset (c.zeroRange a n).garbled x = 0 := by
    unfold memReset
    rw [hgarbled]
  have hmem : Tbl.find? (c.zeroRange a n).mem x = none :=
    Tbl.find?_filter_none c.mem (fun k => decide ¬(a ≤ k ∧ k < a + n)) x (decide_eq_false (by omega))
  unfold Chip.byte Tbl.look
  rw [hwin, if_neg (by decide), if_neg (by omega), hmem, hreset]
  rfl

/-- A strict slot that is served changes no field of the array but what it waits for, and nothing where it waits for nothing. -/
theorem Chip.slotServed_cases (c : Chip) (a : Nat) (o : Owner) : ((c.slotServed a o).arr a).resident = (c.arr a).resident ∧
    ((c.slotServed a o).arr a).shadow = (c.arr a).shadow ∧ ((c.arr a).awaited = false → c.slotServed a o = c) := by
  unfold Chip.slotServed
  split
  · next e _ =>
    split
    · next hawaited =>
      have hset : (c.setArr a { c.arr a with awaited := false }).arr a = { c.arr a with awaited := false } := Chip.arr_setArr _ _ _
      extract_lets +onlyGivenNames p late x d
      have hd : d.arr a = { c.arr a with awaited := false } := hset
      have harr : (if 2 * usUnits < late then (d.inc F.SCHED_SLOT_LATE_COUNT).ev (arrayHalf a) 0x0500 [a, e.part + 16 * b2n e.world, late / usUnits] else d).arr a =
          { c.arr a with awaited := false } := by
        refine (ite_keeps (f := fun x : Chip => x.arr a) (z := d) ?_ rfl).trans hd
        exact congrArg (fun t => Tbl.look ArrSt.zero t a) ((eventPart_arrays.ev _ _ _ _).trans (eventPart_arrays.inc _ _))
      refine ⟨(congrArg ArrSt.resident harr).trans (by rfl), (congrArg ArrSt.shadow harr).trans (by rfl), fun hno => absurd (hno ▸ hawaited.1) (by decide)⟩
    · exact ⟨rfl, rfl, fun _ => rfl⟩
  · exact ⟨rfl, rfl, fun _ => rfl⟩

/-- The chip whose store of the array is fresh where the command makes a new context. -/
def Chip.freshStore (c : Chip) (a : Nat) : Chip := if (c.arr a).resident.isNone then c.zeroRange (arrayStore a) 0xC00000 else c

theorem Chip.freshStore_arr (c : Chip) (a : Nat) : (c.freshStore a).arr a = c.arr a := ite_keeps (f := fun x : Chip => x.arr a) rfl rfl

/-- What taking a command writes: the state of the array, the command, the owner, and the slot that it serves. -/
theorem Chip.takeArray_eq (c : Chip) (a : Nat) (m : Cmd) : ∃ (d : Chip) (x : ArrSt) (n : Cmd), c.takeArray a m = ((d.setArr a x).setCmd n |>.put (F.ARRAY_STATUS_OWNER a) m.owner.toNat).slotServed a m.owner ∧
    d.mem = (c.freshStore a).mem ∧ x.resident = some m.id.ring.val ∧ (m.hasLoad = true → x.shadow = some (m.id, (c.freshStore a).readTile a m)) ∧
    x.awaited = (c.arr a).awaited := by
  generalize ht : c.takeArray a m = t
  unfold Chip.takeArray at ht
  extract_lets +onlyGivenNames d e n empty job x y f at ht
  have hx : x = c.arr a := c.freshStore_arr a
  have hy : y.awaited = x.awaited := rfl
  refine ⟨e, y, _, ht.symm, rfl, rfl, fun hload => ?_, hy.trans (congrArg ArrSt.awaited hx)⟩
  exact if_pos hload

theorem Chip.takeArray_part (c : Chip) (a : Nat) (m : Cmd) : ((c.takeArray a m).arr a).resident = some m.id.ring.val ∧
    (m.hasLoad = true → ((c.takeArray a m).arr a).shadow = some (m.id, (c.freshStore a).readTile a m)) ∧
    ((c.arr a).awaited = false → (c.takeArray a m).q (F.ARRAY_STATUS_OWNER a) = m.owner.toNat ∧ (c.takeArray a m).mem = (c.freshStore a).mem) := by
  obtain ⟨d, x, n, heq, hmem, hres, hshadow, hawaited⟩ := c.takeArray_eq a m
  rw [heq]
  generalize he : ((d.setArr a x).setCmd n).put (F.ARRAY_STATUS_OWNER a) m.owner.toNat = e
  obtain ⟨hr, hs, hidle⟩ := e.slotServed_cases a m.owner
  have harr : e.arr a = x := by
    rw [← he]
    exact (Chip.put_keeps (fun y => y.arr a) (fun _ _ => rfl) _ _ _).trans (d.arr_setArr a x)
  rw [hr, hs, harr]
  refine ⟨hres, hshadow, fun hno => ?_⟩
  rw [hidle (by rw [harr, hawaited, hno]), ← he]
  refine ⟨(Chip.q_put_same _ (F.ARRAY_STATUS_OWNER a) _ (Nat.le_of_ble_eq_true rfl)).trans (Nat.mod_eq_of_lt m.owner.isLt), ?_⟩
  exact (Chip.put_keeps (fun y => y.mem) (fun _ _ => rfl) _ _ _).trans hmem

/-- Settles O7: an array that nothing keeps from the command takes it, after its store has been zeroed for a new context. -/
theorem arraysTakeCommands : Obligations.ArraysTakeCommands := by
  unfold Obligations.ArraysTakeCommands
  intro a id m s ht hover hopen hrank hlow
  have hoffer : s.chip.offerArray a m = s.chip.takeArray a m := by
    unfold Chip.offerArray
    rw [if_neg (Bool.eq_false_iff.1 hover), if_neg]
    rw [hopen, hrank, hlow]
    decide
  obtain ⟨hres, hshadow, hidle⟩ := s.chip.takeArray_part a m
  refine ⟨fun hop => ?_, fun hop => ?_, hres, hshadow, fun hnone x hlo hhi => ?_, hidle⟩
  · have hexec : exec (.arrayCommand a id) s = execArrayCommand a id s := rfl
    unfold execArrayCommand at hexec
    rw [ht] at hexec
    exact hexec.trans ((if_pos hop).trans (congrArg s.go hoffer))
  · have hexec : exec (.windowCommand a id) s = execWindowCommand a id s := rfl
    unfold execWindowCommand at hexec
    rw [ht] at hexec
    exact hexec.trans ((if_pos hop).trans (congrArg s.go hoffer))
  · have hfresh : s.chip.freshStore a = s.chip.zeroRange (arrayStore a) 0xC00000 := by
      unfold Chip.freshStore
      rw [hnone]
      rfl
    have hzero : (s.chip.freshStore a).byte x = 0 := by
      rw [hfresh]
      refine Chip.byte_zeroRange_granules _ ?_ (by decide) hlo hhi ?_
      · unfold arrayStore
        omega
      · have hx : x = arrayStore a + (x - arrayStore a) := by omega
        rw [hx]
        exact holdsByte_arrayStore a (by omega)
    exact hzero

end Machine

end Sys2Proof

/-! PROOF. Result reads, dowel registers, fetch and dispatch (R254–R270, R236–R242). -/

namespace Sys2Proof

namespace Machine

/-! ### The registers of a dowel slot -/

/-- The chip whose dowel has its scope and its owner. -/
def Chip.dowelOwned (c : Chip) (d owner scope : Nat) : Chip := (c.put (F.DOWEL_ATTR_SCOPE d) scope).put (F.DOWEL_ATTR_OWNER d) owner

theorem Chip.dowel_dowelOwned (c : Chip) (d owner scope : Nat) : (c.dowelOwned d owner scope).dowel d = c.dowel d := by
  have hreg {a : Nat} (ha : a ≠ Reg.DOWEL_ATTR d) : (c.dowelOwned d owner scope).reg a = c.reg a := (Chip.reg_put_ne _ _ ha).trans (Chip.reg_put_ne _ _ ha)
  have hlo := hreg (a := Reg.DOWEL_VAL_LO d) (by unfold Reg.DOWEL_VAL_LO Reg.DOWEL_ATTR; omega)
  have hhi := hreg (a := Reg.DOWEL_VAL_HI d) (by unfold Reg.DOWEL_VAL_HI Reg.DOWEL_ATTR; omega)
  unfold Chip.dowel Chip.pair
  rw [hlo, hhi]

theorem Chip.assignDowel_kept {c : Chip} {d owner scope : Nat} (h : owner = c.q (F.DOWEL_ATTR_OWNER d)) : c.assignDowel d owner scope = c.dowelOwned d owner scope :=
  if_pos h.symm

theorem Chip.assignDowel_changed {c : Chip} {d owner scope : Nat} (h : owner ≠ c.q (F.DOWEL_ATTR_OWNER d)) : c.assignDowel d owner scope =
    ((c.dowelOwned d owner scope).waits.filter fun w => w.dowel == d).foldl Chip.abandonWait
      ((c.dowelOwned d owner scope).setPair (Reg.DOWEL_VAL_LO d) (Reg.DOWEL_VAL_HI d) 0) := if_neg fun he => h he.symm

section
variable {i : Initiator} {d : Fin 16384} {v : Word} {s : State} (hdown : s.chip.down.get (dowelHalf d) = false)
include hdown

theorem exec_dowelSignals (hsignal : s.chip.dowelSignal i.owner d = true) :
    exec (.dowelArgLo i d v) s = .next (s.withChip (s.chip.hold i (Reg.DOWEL_ARG_LO d) v.toNat)) ∧
    exec (.dowelMaxHi i d v) s = .next (s.withChip (s.chip.dowelMax d (s.chip.held i (Reg.DOWEL_ARG_LO d) + v.toNat * 2 ^ 32))) ∧
    exec (.dowelAddHi i d v) s = .next (s.withChip (s.chip.dowelAdd i.owner d (s.chip.held i (Reg.DOWEL_ARG_LO d) + v.toNat * 2 ^ 32))) ∧
    exec (.dowelAdd32 i d v) s = .next (s.withChip (s.chip.dowelAdd i.owner d v.toNat)) := by
  have hup := Bool.eq_false_iff.1 hdown
  have hmax (a : Nat) : s.chip.signal i.owner d 0 a = s.chip.dowelMax d a := by rw [Chip.signal_eq hdown hsignal, if_pos rfl]
  have hadd (a : Nat) : s.chip.signal i.owner d 1 a = s.chip.dowelAdd i.owner d a := by rw [Chip.signal_eq hdown hsignal, if_neg (by decide), if_pos rfl]
  exact ⟨(if_neg hup).trans ((if_pos hsignal).trans (s.go_eq _)), (if_neg hup).trans ((congrArg s.go (hmax _)).trans (s.go_eq _)),
    (if_neg hup).trans ((congrArg s.go (hadd _)).trans (s.go_eq _)), (if_neg hup).trans ((congrArg s.go (hadd _)).trans (s.go_eq _))⟩

theorem exec_dowelNotifies (hread : s.chip.dowelRead i.owner d = true) :
    exec (.dowelNotifyLo i d v) s = .next (s.withChip (s.chip.hold i (Reg.DOWEL_NOTIFY_LO d) v.toNat)) ∧
    exec (.dowelNotifyHi i d v) s = .next (s.withChip (((s.chip.dropWait d .notify).makeWait i.owner d
      (s.chip.held i (Reg.DOWEL_NOTIFY_LO d) + v.toNat * 2 ^ 32) .notify).put (F.DOWEL_ATTR_NOTIFY_ARMED d) 1)) := by
  have hup := Bool.eq_false_iff.1 hdown
  exact ⟨(if_neg hup).trans ((if_pos hread).trans (s.go_eq _)), (if_neg hup).trans ((if_pos hread).trans (s.go_eq _))⟩

theorem exec_dowelAttr (hfw : i.isFirmware = true) :
    exec (.dowelAttr i d v) s = .next (s.withChip (s.chip.assignDowel d (bits v.toNat 0 13) (bits v.toNat 16 2))) := by
  have hup := Bool.eq_false_iff.1 hdown
  exact (if_neg hup).trans ((if_pos hfw).trans (s.go_eq _))

end

/-- Settles O30: each write of the page by a party with the right is the operation that it asks for. -/
theorem dowelRegisters : Obligations.DowelRegisters := by
  unfold Obligations.DowelRegisters
  refine ⟨fun i d v s hdown hsignal => ?_, fun i d v s hdown hread => exec_dowelNotifies hdown hread, fun i d v s hdown hfw => ?_⟩
  · obtain ⟨harg, hmax, hadd, hadd32⟩ := exec_dowelSignals (v := v) hdown hsignal
    exact ⟨harg, (Chip.held_hold _ _ _ _).trans (Nat.mod_eq_of_lt v.isLt), hmax, hadd, hadd32⟩
  · exact ⟨fun howner => ⟨(exec_dowelAttr hdown hfw).trans (by rw [Chip.assignDowel_kept howner]; rfl), s.chip.dowel_dowelOwned d _ _, rfl⟩,
      fun howner => (exec_dowelAttr hdown hfw).trans (by rw [Chip.assignDowel_changed howner]; rfl)⟩

/-! ### Reads of a result slot -/

theorem ofIdx_idx (h : Half) : Half.ofIdx h.idx = h := by
  cases h <;> rfl

/-- Settles O32: a read is served and later copied as the model does, each of its checks passing. -/
theorem slotsRead : Obligations.SlotsRead := by
  unfold Obligations.SlotsRead
  refine ⟨?_, ?_⟩
  · intro id m h s ht hbehind hreader v c hnone hempty hside x
    have hexec : exec (.slotRead id) s = execSlotRead id s := rfl
    unfold execSlotRead at hexec
    rw [ht] at hexec
    have hread : exec (.slotRead id) s = s.go (s.chip.slotRead m) := hexec.trans (congrArg s.go (if_neg (Bool.eq_false_iff.1 hbehind)))
    refine (hread.trans (congrArg s.go ?_)).trans (s.go_eq _)
    unfold Chip.slotRead
    extract_lets +onlyGivenNames n
    rw [if_neg (not_not_intro hreader)]
    extract_lets +onlyGivenNames v' c' d x'
    have hd : d = c := if_neg (Bool.eq_false_iff.1 hnone)
    clear_value d
    subst hd
    split
    · next k _ hk =>
      obtain rfl : k = h := Option.some.inj (hk.symm.trans hside)
      rfl
    · next hno => exact absurd hside (hno h hempty)
  · intro id far o g m slot buf gen origin alt b h d e s hcmd hop hstage haux c hbuf hcarriage hpoison hsight hlost hplace
    have hexec : exec (.slotReadCopyDone id far o) s = execSlotReadCopyDone id far s o := rfl
    unfold execSlotReadCopyDone at hexec
    rw [hcmd] at hexec
    refine ((hexec.trans (if_pos ⟨hop, hstage⟩)).trans (congrArg s.go ?_)).trans (s.go_eq _)
    unfold Chip.slotReadDone
    extract_lets +onlyGivenNames k h'
    have hk : k = fun i => [slot, h.idx, buf, gen, origin, alt].getD i 0 := funext fun i => congrArg (·.getD i 0) haux
    have hh : h' = h := (congrArg (fun f : Nat → Nat => Half.ofIdx (f 1)) hk).trans (ofIdx_idx h)
    clear_value h' k
    subst hh hk
    have hnone : ¬ (s.chip.carriageOf h').isNone = true := by
      rw [Option.isNone_eq_false_iff.2 hcarriage]
      exact nofun
    rw [if_neg hnone]
    extract_lets +onlyGivenNames c'
    split
    · next hno => exact absurd (hbuf.symm.trans hno) nofun
    · next a ha =>
      obtain rfl : a = b := Option.some.inj (ha.symm.trans hbuf)
      extract_lets +onlyGivenNames old
      have hold : old = none := hpoison
      clear_value old
      subst hold
      split
      next g' d' hgd =>
      obtain ⟨rfl, rfl⟩ := Prod.mk.inj (hgd.symm.trans hsight)
      split
      · next u hu => exact absurd (hu.symm.trans hlost) nofun
      · next hu => exact absurd hu nofun
      · extract_lets +onlyGivenNames bs e'
        split
        · next r hr => exact absurd (hr.symm.trans hplace) nofun
        · next e'' he =>
          obtain rfl : e'' = e := Except.ok.inj (he.symm.trans hplace)
          rfl

/-! ### Fetch, dispatch and the no-op -/

/-- Among more names than there are commands in flight one is free. -/
theorem Chip.exists_era (c : Chip) (i : CmdId) : ∃ e ∈ List.range (c.cmds.length + 1), c.cmd? { i with era := e } = none := by
  by_contra hall
  push Not at hall
  have hsub : List.range (c.cmds.length + 1) ⊆ c.cmds.map fun m => m.id.era := fun e he => by
    obtain ⟨m, hm⟩ := Option.ne_none_iff_exists'.1 (hall e he)
    have hid : (m.id == { i with era := e }) = true := List.find?_some (p := fun m : Cmd => m.id == { i with era := e }) hm
    exact List.mem_map.2 ⟨m, List.mem_of_find?_eq_some hm, congrArg CmdId.era (beq_iff_eq.1 hid)⟩
  have hlen := (List.nodup_range.subperm hsub).length_le
  rw [List.length_range, List.length_map] at hlen
  omega

/-- A command that is fetched has a name that no command in flight has. -/
theorem Chip.cmd?_newId (c : Chip) (r head : Nat) : c.cmd? (c.newId r head) = none := by
  unfold Chip.newId
  extract_lets +onlyGivenNames i
  obtain ⟨e, he, hfree⟩ := c.exists_era i
  cases hfind : (List.range (c.cmds.length + 1)).find? fun e => (c.cmd? { i with era := e }).isNone with
  | none => exact absurd (List.find?_eq_none.1 hfind e he) (not_not_intro (by rw [hfree]; rfl))
  | some x => exact Option.isNone_iff_eq_none.1 (List.find?_some (p := fun e => (c.cmd? { i with era := e }).isNone) hfind)

theorem Chip.newId_ring (c : Chip) (r : Fin 65536) (head : Nat) : (c.newId r head).ring = r := Fin.ext (Nat.mod_eq_of_lt r.isLt)

/-- The words of an entry that is fetched. -/
def Chip.entryWords (c : Chip) (a : Nat) : List Dword := (List.range 8).map fun k => BitVec.ofNat 64 (c.loadN (a + 8 * k) 8)

/-- The command that an entry makes. -/
def Chip.entryCmd (c : Chip) (r a : Nat) (x : RingSt) (head : Nat) : Cmd where
  id := c.newId r head
  words := c.entryWords a
  owner := x.owner
  cls := if x.owner.part == 0 then 0 else max (bits ((c.entryWords a).getD 0 0).toNat 8 2) (c.partClass x.owner.part)
  lowered := !(x.owner.part == 0) && decide (bits ((c.entryWords a).getD 0 0).toNat 8 2 < c.partClass x.owner.part)
  cq := c.q (F.RING_LINK_CQ r)
  half := ringHalf r
  unit := 0
  stage := .fetched
  clamped := false
  late := false
  spare := false
  doubt := false
  empty := false
  ended := none
  n := 0
  bytes := 0
  aux := []

theorem Chip.sight_nil (c : Chip) (l : List (Nat × Nat)) : c.sight l [] = (⟨none, false⟩, c) := rfl

/-- The fetch of an entry that may be read, names no reserved signal and shows no error. -/
theorem Chip.fetch_eq {c d : Chip} {r a : Nat} {x : RingSt} (hx : c.fetchable r = some x) (ha : a = c.ringEntry r (c.reg (Reg.RING_HEAD r)) 64)
    (hd : d = c.touched (ringHalf r) none x.owner a 64 0) (hcause : c.rangeCause x.owner false a 64 = none)
    (hsignal : ¬ (bit ((d.entryWords a).getD 0 0).toNat 11 = true ∧ 2 ≤ bits ((d.entryWords a).getD 7 0).toNat 62 2)) :
    c.fetch r [] = { (d.setReg (Reg.RING_HEAD r) ((c.reg (Reg.RING_HEAD r) + 1) % 2 ^ 32)) with
      cmds := d.cmds ++ [d.entryCmd r a x (c.reg (Reg.RING_HEAD r))] } := by
  subst ha hd
  fun_cases Chip.fetch c r []
  case case1 hno => exact absurd (hx.symm.trans hno) nofun
  case case2 y hy _ _ _ _ hc _ _ =>
    obtain rfl : y = x := Option.some.inj (hy.symm.trans hx)
    exact absurd (hcause.symm.trans hc) nofun
  case case3 y hy _ _ _ _ hc _ _ =>
    obtain rfl : y = x := Option.some.inj (hy.symm.trans hx)
    exact absurd (hcause.symm.trans hc) nofun
  case case4 hsight _ hlost =>
    obtain ⟨rfl, rfl⟩ := Prod.mk.inj hsight
    exact absurd hlost nofun
  case case5 y hy _ _ _ _ _ _ hsight _ _ _ _ _ _ hbad =>
    obtain rfl : y = x := Option.some.inj (hy.symm.trans hx)
    obtain ⟨rfl, rfl⟩ := Prod.mk.inj hsight
    exact absurd hbad hsignal
  case case6 y hy _ _ _ _ _ d hsight _ _ e _ _ _ _ _ _ _ _ _ =>
    obtain rfl : y = x := Option.some.inj (hy.symm.trans hx)
    obtain ⟨rfl, rfl⟩ := Prod.mk.inj hsight
    have he : e = c.touched (ringHalf r) none y.owner (c.ringEntry r (c.reg (Reg.RING_HEAD r)) 64) 64 0 := rfl
    clear_value e
    subst he
    rfl

/-- A command that is queued takes the number of the dispatches so far. -/
theorem Chip.queue_eq (d : Chip) (m : Cmd) {k : Nat} (h : d.dispatched = k) :
    Chip.setCmd { d with dispatched := d.dispatched + 1 } { m with stage := .queued, order := d.dispatched } =
      Chip.setCmd { d with dispatched := k + 1 } { m with stage := .queued, order := k } := by
  subst h
  rfl

/-- The dispatch of a command that has space and may be carried out. -/
theorem Chip.dispatch_eq {c : Chip} {r : Nat} {m : Cmd} {x : RingSt} (hm : c.nextDispatch r = some m) (hx : c.ringSt? m.cq = some x) (hdeaf : x.deaf = false)
    (hfull : c.ringFull m.cq x.resv = false) (hlow : m.lowered = false) (hop : assigned m.opcode = true) (hpart : c.partValid m.owner.part = true) :
    c.dispatch r = Chip.setCmd { ((c.setRingSt m.cq { x with resv := x.resv + 1 }).inc (F.RING_STATUS_IN_FLIGHT r)).put (F.RING_STATUS_IDLE r) 0 with
      dispatched := c.dispatched + 1 } { m with stage := .queued, order := c.dispatched } := by
  have hlt : m.owner.part < 16 := Nat.mod_lt _ (by decide)
  have hvalid (d : Chip) (hd : ∀ a, a < 0x10000000 → d.reg a = c.reg a) : d.partValid m.owner.part = true := by
    have hreg := hd (Reg.SCHED_PART_CFG m.owner.part) (by unfold Reg.SCHED_PART_CFG; omega)
    rw [← hpart]
    unfold Chip.partValid Chip.on Chip.q
    exact congrArg (fun v => m.owner.part == 0 || bits v 31 1 != 0) hreg
  fun_cases Chip.dispatch c r
  case case1 hno => exact absurd (hm.symm.trans hno) nofun
  case case2 n hn hno =>
    obtain rfl : n = m := Option.some.inj (hn.symm.trans hm)
    exact absurd (hx.symm.trans hno) nofun
  case case3 n hn y hy hfull' =>
    obtain rfl : n = m := Option.some.inj (hn.symm.trans hm)
    obtain rfl : y = x := Option.some.inj (hy.symm.trans hx)
    rw [hdeaf, hfull] at hfull'
    exact absurd hfull' (by decide)
  case case4 n hn y hy _ _ d n' e f hinvalid =>
    obtain rfl : n = m := Option.some.inj (hn.symm.trans hm)
    have hf : f = e := if_neg (Bool.eq_false_iff.1 hlow)
    have hd (a : Nat) (ha : a < 0x10000000) : d.reg a = c.reg a := by
      have hne : a ≠ Reg.RING_STATUS r := by unfold Reg.RING_STATUS; omega
      exact (Chip.reg_put_ne _ _ hne).trans (Chip.reg_put_ne _ _ hne)
    rw [hf] at hinvalid
    clear_value d
    have hregs : e.regs = d.regs := rfl
    exact absurd (hvalid e fun a ha => (Chip.reg_of_regs hregs a).trans (hd a ha)) hinvalid
  case case5 n hn y hy _ _ d n' e f _ _ =>
    obtain rfl : n = m := Option.some.inj (hn.symm.trans hm)
    obtain rfl : y = x := Option.some.inj (hy.symm.trans hx)
    have hf : f = e := if_neg (Bool.eq_false_iff.1 hlow)
    have hd : d.dispatched = c.dispatched := (Chip.put_keeps (fun z => z.dispatched) (fun _ _ => rfl) _ _ _).trans
      (Chip.put_keeps (fun z => z.dispatched) (fun _ _ => rfl) _ _ _)
    have hdef : ((c.setRingSt n.cq { y with resv := y.resv + 1 }).inc (F.RING_STATUS_IN_FLIGHT r)).put (F.RING_STATUS_IDLE r) 0 = d := rfl
    rw [hdef]
    clear_value d
    exact hf.trans (d.queue_eq n hd)
  case case6 n hn _ _ _ _ _ _ _ _ _ hbad =>
    obtain rfl : n = m := Option.some.inj (hn.symm.trans hm)
    exact absurd hop hbad

/-- A dispatch that changes something has found a command with space. -/
theorem Chip.dispatch_stalled {c : Chip} {r : Nat} {m : Cmd} {x : RingSt} (hm : c.nextDispatch r = some m) (hx : c.ringSt? m.cq = some x)
    (hfull : x.deaf = true ∨ c.ringFull m.cq x.resv = true) : c.dispatch r = c := by
  have hcases : c.dispatch r = c ∨ ∃ n y, c.nextDispatch r = some n ∧ c.ringSt? n.cq = some y ∧ ¬ (y.deaf = true ∨ c.ringFull n.cq y.resv = true) := by
    fun_cases Chip.dispatch c r
    case case1 => exact .inl rfl
    case case2 => exact .inl rfl
    case case3 => exact .inl rfl
    case case4 n hn y hy hroom _ _ _ _ _ _ => exact .inr ⟨n, y, hn, hy, hroom⟩
    case case5 n hn y hy hroom _ _ _ _ _ _ _ => exact .inr ⟨n, y, hn, hy, hroom⟩
    case case6 n hn y hy hroom _ _ _ _ _ _ _ => exact .inr ⟨n, y, hn, hy, hroom⟩
  rcases hcases with h | ⟨n, y, hn, hy, hroom⟩
  · exact h
  · obtain rfl : n = m := Option.some.inj (hn.symm.trans hm)
    obtain rfl : y = x := Option.some.inj (hy.symm.trans hx)
    exact absurd hfull hroom

/-- A fetch makes one command with what its entry says. -/
theorem Chip.fetch_made {c d : Chip} {r : Fin 65536} {a : Nat} {x : RingSt} (hx : c.fetchable r = some x)
    (ha : a = c.ringEntry r (c.reg (Reg.RING_HEAD r)) 64) (hd : d = c.touched (ringHalf r) none x.owner a 64 0)
    (hcause : c.rangeCause x.owner false a 64 = none)
    (hsignal : ¬ (bit ((d.entryWords a).getD 0 0).toNat 11 = true ∧ 2 ≤ bits ((d.entryWords a).getD 7 0).toNat 62 2)) :
    ∃ m : Cmd, m.id.ring = r ∧ m.id.seq = BitVec.ofNat 32 (c.reg (Reg.RING_HEAD r)) ∧ d.cmd? m.id = none ∧ m.words = d.entryWords a ∧ m.owner = x.owner ∧
      m.stage = .fetched ∧ m.cls = (if x.owner.part = 0 then 0 else max (bits ((d.entryWords a).getD 0 0).toNat 8 2) (d.partClass x.owner.part)) ∧
      m.cq = d.q (F.RING_LINK_CQ r) ∧
      c.fetch r [] = { (d.setReg (Reg.RING_HEAD r) ((c.reg (Reg.RING_HEAD r) + 1) % 2 ^ 32)) with cmds := d.cmds ++ [m] } := by
  refine ⟨d.entryCmd r a x (c.reg (Reg.RING_HEAD r)), d.newId_ring r _, rfl, d.cmd?_newId r _, rfl, rfl, rfl, ?_, rfl, Chip.fetch_eq hx ha hd hcause hsignal⟩
  exact if_congr beq_iff_eq rfl rfl

/-- Settles O28: the fetch, the dispatch and the no-op take the branches that their statements name. -/
theorem ringCommands : Obligations.RingCommands := by
  unfold Obligations.RingCommands
  refine ⟨fun r x s hx hcause hsignal => ?_, fun r m x s hm hx => ⟨fun hfull => ?_, fun hdeaf hroom hlow hop hpart => ?_⟩, fun id m s ht => ?_⟩
  · obtain ⟨m, hring, hseq, hfree, hwords, howner, hstage, hcls, hcq, hfetch⟩ := Chip.fetch_made hx rfl rfl hcause hsignal
    exact ⟨m, hring, hseq, hfree, hwords, howner, hstage, hcls, hcq, (congrArg s.go hfetch).trans (s.go_eq _)⟩
  · exact (congrArg s.go (Chip.dispatch_stalled hm hx hfull)).trans (s.go_eq _)
  · exact (congrArg s.go (Chip.dispatch_eq hm hx hdeaf hroom hlow hop hpart)).trans (s.go_eq _)
  · have hexec : exec (.noOp id) s = execNoOp id s := rfl
    unfold execNoOp at hexec
    rw [ht] at hexec
    exact hexec.trans (s.go_eq _)

end Machine

end Sys2Proof

/-! PROOF. The instructions of a gouge core that are Darienor's own (R117–R130). -/

namespace Sys2Proof

namespace Machine

/-- A core whose next word is the instruction executes it, where its store reads show no error. -/
theorem Chip.gc_clean {c : Chip} {b : Fin 32} {k : Fin 60} {w : Nat} {m : Cmd} {is : Nat → Bool} {f : Chip → Nat → Core → Cmd → Ran}
    (hw : c.nextWord b k = some w) (hm : (c.core b k).task.bind c.cmd? = some m) (his : is w = true) :
    c.gc b k .clean is f = (f c w (c.core b k) m).apply b k := by
  unfold Chip.gc
  rw [hw]
  dsimp -zeta only
  extract_lets +onlyGivenNames x
  rw [hm]
  exact if_pos his

theorem Ran.apply_of_ok {r : Ran} {c : Chip} {x : Core} {b k : Nat} (h : r = .ok c x) : r.apply b k = c.setCore b k x := by
  rw [h]
  rfl

/-! ### Dowels -/

/-- A signal of a core that may give it: with copies in flight it waits, and without it is done. -/
theorem Chip.gcSignal_eq {c : Chip} {w op : Nat} {x : Core} {m : Cmd} (hdown : c.down.get (dowelHalf (x.xr (insRs1 w) % 16384)) = false)
    (hsignal : c.dowelSignal m.owner (x.xr (insRs1 w) % 16384) = true) : c.gcSignal op w x m =
      if x.copies.all (fun e => e.2.ended) then
        .ok (c.signal m.owner (x.xr (insRs1 w) % 16384) op (x.xr (insRs2 w)) (some m.id.ring.val)) (x.past 4)
      else .ok c { x with stall := .copies } := by
  unfold Chip.gcSignal
  extract_lets +onlyGivenNames d
  rw [if_neg (Bool.eq_false_iff.1 hdown), if_neg (not_not_intro hsignal), ite_not]

section
variable {b : Fin 32} {k : Fin 60} {w : Nat} {m : Cmd} {s : State} (hw : s.chip.nextWord b k = some w)
  (hm : (s.chip.core b k).task.bind s.chip.cmd? = some m)
include hw hm

theorem exec_gcDsig (his : isGc w 4 0 = true) :
    exec (.gcDsig b k .clean) s = .next (s.withChip ((s.chip.gcSignal 0 w (s.chip.core b k) m).apply b k)) :=
  (congrArg s.go (Chip.gc_clean (is := (isGc · 4 0)) hw hm his)).trans (s.go_eq _)

theorem exec_gcDsigAdd (his : isGc w 4 1 = true) :
    exec (.gcDsigAdd b k .clean) s = .next (s.withChip ((s.chip.gcSignal 1 w (s.chip.core b k) m).apply b k)) :=
  (congrArg s.go (Chip.gc_clean (is := (isGc · 4 1)) hw hm his)).trans (s.go_eq _)

theorem exec_gcDwait (his : isGc w 3 0 = true) (hdown : s.chip.down.get (dowelHalf ((s.chip.core b k).xr (insRs1 w) % 16384)) = false)
    (hread : s.chip.dowelRead m.owner ((s.chip.core b k).xr (insRs1 w) % 16384) = true) :
    exec (.gcDwait b k .clean) s = .next (s.withChip (Ran.apply b k
      (if (s.chip.core b k).xr (insRs2 w) ≤ s.chip.dowel ((s.chip.core b k).xr (insRs1 w) % 16384) then .ok s.chip ((s.chip.core b k).past 4)
      else .ok (s.chip.makeWait m.owner ((s.chip.core b k).xr (insRs1 w) % 16384) ((s.chip.core b k).xr (insRs2 w)) (.core b k) (some m.id.ring.val))
        { s.chip.core b k with stall := .dowel ((s.chip.core b k).xr (insRs1 w) % 16384) ((s.chip.core b k).xr (insRs2 w)) }))) := by
  refine (congrArg s.go (Chip.gc_clean (is := (isGc · 3 0)) hw hm his)).trans ((s.go_eq _).trans ?_)
  exact congrArg (fun r : Ran => Host.Outcome.next (s.withChip (r.apply b k)))
    ((if_neg (Bool.eq_false_iff.1 hdown)).trans (if_neg (not_not_intro hread)))

end

/-- Settles O13: each branch of the wait and of the signal is one of the statement's. -/
theorem gougeDowels : Obligations.GougeDowels := by
  unfold Obligations.GougeDowels
  refine ⟨fun b k w m s hw hm his hdown hread => ?_, fun b k w m s hw hm hdown hsignal hended => ⟨fun his => ?_, fun his => ?_⟩,
    fun b k w m s hw hm hdown hsignal hended => ⟨fun his => ?_, fun his => ?_⟩⟩
  · refine (exec_gcDwait hw hm his hdown hread).trans (congrArg (fun c => Host.Outcome.next (s.withChip c)) ?_)
    exact apply_ite (Ran.apply b k) _ _ _
  · rw [exec_gcDsig hw hm his, Chip.gcSignal_eq hdown hsignal, if_pos hended, Chip.signal_eq hdown hsignal, if_pos rfl]
    rfl
  · rw [exec_gcDsigAdd hw hm his, Chip.gcSignal_eq hdown hsignal, if_pos hended, Chip.signal_eq hdown hsignal, if_neg (by decide), if_pos rfl]
    rfl
  · rw [exec_gcDsig hw hm his, Chip.gcSignal_eq hdown hsignal, if_neg (Bool.eq_false_iff.1 hended)]
    rfl
  · rw [exec_gcDsigAdd hw hm his, Chip.gcSignal_eq hdown hsignal, if_neg (Bool.eq_false_iff.1 hended)]
    rfl

/-! ### Conversions -/

/-- Settles O14: a conversion whose groups fit and whose format is of the right kind takes the last branch. -/
theorem gougeConversions : Obligations.GougeConversions := by
  unfold Obligations.GougeConversions
  refine ⟨fun b k w m s hw hm his hsrc hdst hcode => ?_, fun b k w m s hw hm his hdst hsrc hcode => ?_,
    fun b k w m s hw hm his hmx hsrc hdst hcode => ?_, fun b k w m s hw hm his hmx hdst hsrc hcode => ?_⟩
  · refine ((congrArg s.go (Chip.gc_clean (is := (isGc · 6 0)) hw hm his)).trans (s.go_eq _)).trans ?_
    refine congrArg (fun r : Ran => Host.Outcome.next (s.withChip (r.apply b k))) ((if_neg ?_).trans (if_neg (Nat.not_le.2 hcode)))
    exact not_or.2 ⟨not_not_intro hsrc, not_not_intro hdst⟩
  · refine ((congrArg s.go (Chip.gc_clean (is := (isGc · 6 1)) hw hm his)).trans (s.go_eq _)).trans ?_
    refine congrArg (fun r : Ran => Host.Outcome.next (s.withChip (r.apply b k))) ((if_neg ?_).trans (if_neg (Nat.not_le.2 hcode)))
    exact not_or.2 ⟨not_not_intro hdst, not_not_intro hsrc⟩
  · refine ((congrArg s.go (Chip.gc_clean (is := (isGc · 6 2)) hw hm his)).trans (s.go_eq _)).trans ?_
    refine congrArg (fun r : Ran => Host.Outcome.next (s.withChip (r.apply b k))) ((if_neg ?_).trans (if_neg (not_not_intro hcode)))
    exact not_or.2 ⟨not_not_intro hmx, not_or.2 ⟨not_not_intro hsrc, not_not_intro hdst⟩⟩
  · refine ((congrArg s.go (Chip.gc_clean (is := (isGc · 6 3)) hw hm his)).trans (s.go_eq _)).trans ?_
    refine congrArg (fun r : Ran => Host.Outcome.next (s.withChip (r.apply b k))) ((if_neg ?_).trans (if_neg (not_not_intro hcode)))
    exact not_or.2 ⟨not_not_intro hmx, not_or.2 ⟨not_not_intro hdst, not_not_intro hsrc⟩⟩

/-! ### Slivers and copies -/

/-- A core that has a next word runs a task that is in flight. -/
theorem Chip.task_of_nextWord {c : Chip} {b : Fin 32} {k : Fin 60} {w : Nat} (hw : c.nextWord b k = some w) :
    ∃ m, (c.core b k).task.bind c.cmd? = some m := by
  have hruns : c.coreRuns b k = true := by
    by_contra hno
    have hnone : c.nextWord b k = none := if_pos hno
    exact absurd (hw.symm.trans hnone) nofun
  cases hm : (c.core b k).task.bind c.cmd? with
  | some m => exact ⟨m, rfl⟩
  | none =>
    unfold Chip.coreRuns at hruns
    extract_lets +onlyGivenNames x at hruns
    have hx : x.task.bind c.cmd? = none := hm
    rw [hx] at hruns
    exact absurd (Bool.and_eq_true_iff.1 hruns).2 nofun

/-- An access that no copy in flight is near crosses none. -/
theorem Chip.crossing_clear {c : Chip} {x : Core} {b k a n : Nat} (hk : k < 64) (h : (c.crossing x b k a n).2.2 = false) :
    c.crossing x b k a n = (c, x, false) := by
  have hb : (64 * b + k) / 64 = b := by omega
  have hmod : (64 * b + k) % 64 = k := by omega
  generalize hr : c.crossing x b k a n = r at h
  unfold Chip.crossing at hr
  extract_lets +onlyGivenNames near others at hr
  subst hr
  obtain ⟨hothers, hnear⟩ := Bool.or_eq_false_iff.1 h
  have hcopies : x.copies.map (fun e => if e.2.near b k a n then (e.1, { e.2 with wild := true }) else e) = x.copies := by
    refine (List.map_congr_left fun e he => ?_).trans (List.map_id _)
    have hfar := List.any_eq_false.1 hnear e he
    rw [hb, hmod] at hfar
    exact if_neg hfar
  have hmarked : x.marked b k a n = x := by
    unfold Core.marked
    rw [hcopies]
  rw [hmarked, hothers, hnear]
  rfl

section
variable {g : GCopy} (hout : copyOutside g.src g.dst = false)
include hout

theorem GCopy.window_inside : g.window = none := by
  obtain ⟨hsrc, hdst⟩ := Bool.or_eq_false_iff.1 hout
  unfold GCopy.window
  extract_lets +onlyGivenNames far
  have hfar {d : List Dword} (h : (slSpace d == 0) = false) : far d = none := if_neg fun hc => absurd (beq_iff_eq.2 hc.1) (Bool.eq_false_iff.1 h)
  rw [hfar hsrc, hfar hdst]

end

theorem Chip.core_setCore (c : Chip) (b k : Nat) (x : Core) : (c.setCore b k x).core b k = x := Tbl.look_put_same _ _ _ _

/-- A copy inside the bench is sent nowhere. -/
theorem Chip.sendCopy_inside {c : Chip} {b k tag : Nat} {g : GCopy} (hg : Tbl.find? (c.core b k).copies tag = some g) (hwin : g.window = none) :
    c.sendCopy b k tag = c := by
  unfold Chip.sendCopy
  extract_lets +onlyGivenNames x
  rw [hg]
  dsimp -zeta only
  rw [hwin]

theorem Core.copies_xw (x : Core) (i v : Nat) : (x.xw i v).copies = x.copies := ite_keeps (f := Core.copies) rfl rfl

/-- A copy inside the bench starts under a free tag. -/
theorem Chip.startCopy_inside (c : Chip) (b k : Nat) (x : Core) (rd : Nat) {src dst : List Dword} (htags : x.freeTags ≠ [])
    (hout : copyOutside src dst = false) : ∃ tag ∈ x.freeTags, c.startCopy b k x rd src dst =
      Chip.setCore { c with freeCnt := c.freeCnt + 1 } b k
        { (x.xw rd tag).past 4 with copies := Tbl.ins x.copies tag ⟨src, dst, false, false, false, none, false, none, none, 0⟩ } := by
  have hlen : 0 < x.freeTags.length := List.length_pos_iff.2 htags
  generalize hr : c.startCopy b k x rd src dst = r
  unfold Chip.startCopy at hr
  split at hr
  next n d hdraw =>
  obtain ⟨rfl, rfl⟩ := Prod.mk.inj hdraw
  extract_lets +onlyGivenNames tag y h p held e at hr
  have htag : tag ∈ x.freeTags := by
    have hmod : (Config.freeValue c.freeCnt).toNat % x.freeTags.length < x.freeTags.length := Nat.mod_lt _ hlen
    have hget : tag = x.freeTags[(Config.freeValue c.freeCnt).toNat % x.freeTags.length] := List.getD_eq_getElem _ _ hmod
    rw [hget]
    exact List.getElem_mem hmod
  have hheld : held = 0 := if_neg (Bool.eq_false_iff.1 hout)
  have hcopies : y.copies = x.copies := x.copies_xw rd tag
  have hsend : e.sendCopy b k tag = r := by
    refine Eq.trans (congrArg (fun z : Chip => z.sendCopy b k tag) ?_) hr
    split
    · exact (if_neg (Bool.eq_false_iff.1 hout)).symm
    · rfl
  have hcore : e.core b k = { y with copies := Tbl.ins y.copies tag ⟨src, dst, false, false, false, none, false, none, none, held⟩ } :=
    Chip.core_setCore _ b k _
  have hfind : Tbl.find? (e.core b k).copies tag = some ⟨src, dst, false, false, false, none, false, none, none, held⟩ := by
    rw [hcore]
    exact Tbl.find?_ins_same _ _ _
  refine ⟨tag, htag, ?_⟩
  rw [← hsend, Chip.sendCopy_inside hfind (GCopy.window_inside hout)]
  clear_value held
  subst hheld
  have he : e = Chip.setCore { c with freeCnt := c.freeCnt + 1 } b k
      { y with copies := Tbl.ins y.copies tag ⟨src, dst, false, false, false, none, false, none, none, 0⟩ } := rfl
  rw [he, hcopies]

/-- The end of a copy whose elements have all been moved. -/
theorem Chip.carryCopy_done {c d : Chip} {b k tag : Nat} {g : GCopy} {ok : Bool} {data : List Byte} (hout : copyOutside g.src g.dst = false)
    (hwild : g.wild = false) (hfits : copyFits g.src g.dst = true)
    (hcopy : c.copyElems (BitVec.ofNat 13 (c.q (F.BENCH_STATUS_OWNER b))) b k g ok [] (slCount g.src) 0 data = .ok d) :
    c.carryCopy b k tag g ok data [] = d.endCopy b k tag false := by
  unfold Chip.carryCopy
  extract_lets +onlyGivenNames o h n out
  rw [if_neg (not_not_intro hfits)]
  split
  · next e he =>
    obtain rfl : e = d := Except.ok.inj (he.symm.trans hcopy)
    extract_lets +onlyGivenNames f
    have hf : f = e := by
      show Chip.mk .. = e
      rw [hwild]
      rfl
    have hno : out = false := hout
    rw [hno, hf]
    rfl
  · next he => exact absurd (he.symm.trans hcopy) nofun

/-- Settles O12: each instruction takes the branch that its hypotheses name, and an access near no copy crosses none. -/
theorem gougeSlivers : Obligations.GougeSlivers := by
  unfold Obligations.GougeSlivers
  refine ⟨fun b k w s hw hop hf3 hf7 => ?_, fun b k w s hw his => ?_, fun b k tag g c d ok data s hc hg hended hout hwild hdrop hdown hawake hfits hcopy => ?_,
    fun b k w m s hw hm his => ?_, fun b k w m s hw hm his => ?_⟩
  · intro x a hrange hclear
    obtain ⟨m, hm⟩ := Chip.task_of_nextWord hw
    have his : (w % 128 == 0x0B && insF3 w == 0 && bits w 23 9 == 0) = true := by
      rw [hop, hf3, hf7]
      rfl
    refine ((congrArg s.go (Chip.gc_clean (is := fun w => w % 128 == 0x0B && insF3 w == 0 && bits w 23 9 == 0) hw hm his)).trans (s.go_eq _)).trans ?_
    refine congrArg (fun c => Host.Outcome.next (s.withChip c)) (Ran.apply_of_ok ((if_neg (Nat.not_lt.2 hrange)).trans ?_))
    rw [Chip.crossing_clear (by omega) hclear]
    rfl
  · intro x src dst
    have hexec : exec (.gcCopy b k .clean) s = s.go (if x.freeTags = [] then s.chip.setCore b k x.stalled
        else if copyOutside src dst ∧ s.chip.copyRoom (benchHalf b) (BitVec.ofNat 13 (s.chip.q (F.BENCH_STATUS_OWNER b))) = 0 then s.chip
        else s.chip.startCopy b k x (insRd w) src dst) := by
      have hrow : exec (.gcCopy b k .clean) s = execGcCopy b k s .clean := rfl
      unfold execGcCopy at hrow
      extract_lets +onlyGivenNames c at hrow
      have hc : c.nextWord b k = some w := hw
      rw [hc] at hrow
      exact hrow.trans (if_neg (not_not_intro his))
    refine ⟨fun htags hout => ?_, fun htags => ?_⟩
    · obtain ⟨tag, htag, hstart⟩ := s.chip.startCopy_inside b k x (insRd w) htags hout
      refine ⟨tag, htag, ?_⟩
      rw [hexec, if_neg htags, if_neg fun h => absurd h.1 (Bool.eq_false_iff.1 hout), hstart]
      exact s.go_eq _
    · rw [hexec, if_pos htags]
      exact s.go_eq _
  · subst hc
    have hwin := GCopy.window_inside hout
    have hrow : exec (.copyCompletion b k tag ok data []) s = execCopyCompletion b k tag ok data s := rfl
    unfold execCopyCompletion at hrow
    extract_lets +onlyGivenNames c at hrow
    have hc : Tbl.find? (c.core b k).copies tag.val = some g := hg
    rw [hc] at hrow
    have hgo : ¬ (g.ended = true ∨ (g.window.isSome = true ∧ g.sent.isNone = true) ∨ c.down.get (benchHalf b) = true ∨ ¬ c.awake (benchHalf b) = true ∨
        (copyOutside g.src g.dst = true ∧ ¬ c.carriageUp (benchHalf b) = true)) := by
      have hup : c.down.get (benchHalf b) = false := hdown
      have hon : c.awake (benchHalf b) = true := hawake
      rw [hended, hwin, hup, hon, hout]
      simp only [Bool.false_eq_true, Option.isSome_none, false_and, not_true_eq_false, or_self, not_false_eq_true]
    have hkept : ¬ g.drop.isSome = true := by
      rw [hdrop]
      decide
    have hfar : c.farAnswered (g.window.getD 0) = s.chip := by
      rw [hwin]
      rfl
    refine (hrow.trans ((if_neg hgo).trans (if_neg hkept))).trans ?_
    rw [hfar, Chip.carryCopy_done hout hwild hfits hcopy]
    exact s.go_eq _
  · intro x mine hall
    refine ((congrArg s.go (Chip.gc_clean (is := (isGc · 2 0)) hw hm his)).trans (s.go_eq _)).trans ?_
    exact congrArg (fun r : Ran => Host.Outcome.next (s.withChip (r.apply b k))) (if_pos hall)
  · exact (congrArg s.go (Chip.gc_clean (is := (isGc · 5 0)) hw hm his)).trans (s.go_eq _)

end Machine

end Sys2Proof

/-! PROOF. Arrays end their commands (R95, R107), moves end theirs (R215–R222), patrol scrub (R228–R232), and models (R290–R297). -/

namespace Sys2Proof

namespace Machine

/-! ### Loading and unloading a model -/

section
variable {id : CmdId} {m : Cmd} {s : State}

/-- What a load comes to whose manifest and signature record have been read. -/
def Chip.modelRead (c : Chip) (m : Cmd) (dg : BitVec 384) (man rec_ : List Byte) : Chip :=
  match readSig 4 rec_ with
  | none => (c.failCmd m 0).sigFailed m.half 4 [] 3
  | some x => match c.sigFault m.half x (toBE 48 dg.toNat) [] with
    | some k => (c.failCmd m 0).sigFailed m.half 4 x.signer k
    | none => if x.version < c.ctrOf x.ctr then (c.failCmd m 0).oldVersion m.half x else c.fitModel m man (m.fld 2 48 2) x

theorem exec_modelLoad {dg : BitVec 384} {o : Seen} {man rec_ : List Byte} {c1 c2 : Chip} (htake : s.chip.takeable id (· == 0x70) = some m)
    (hhalves : m.fld 2 48 2 ≠ 0) (hback : s.chip.backingFault m = none)
    (hman : s.chip.readSeen m (alignDown (m.fld 1 0 48) 64) 64 .answered o = (.ok man, c1))
    (hrec : c1.readSeen m (fieldAt man 40 6) 224 .answered o = (.ok rec_, c2)) :
    exec (.modelLoad id dg o) s = .next (s.withChip
      ((c2.touches m [(alignDown (m.fld 1 0 48) 64, 64), (fieldAt man 40 6, 224)]).modelRead m dg man rec_)) := by
  have hexec : exec (.modelLoad id dg o) s = execModelLoad id dg s o := rfl
  unfold execModelLoad at hexec
  simp only [htake, if_neg hhalves, hback, hman, hrec] at hexec
  rw [hexec]
  unfold Chip.modelRead
  generalize c2.touches m _ = c
  cases readSig 4 rec_ with
  | none => exact s.go_eq _
  | some x =>
    cases hfault : c.sigFault m.half x (toBE 48 dg.toNat) [] with
    | some k =>
      simp only [hfault]
      exact s.go_eq _
    | none =>
      simp only [hfault]
      exact s.go_ite _ _ _

theorem exec_modelUnload {x : Model} (hready : s.chip.takeable id (· == 0x71) = some m ∨ (s.chip.takeable id (· == 0x71) = none ∧
      (s.chip.cmds.find? fun m => m.id == id && m.opcode == 0x71 && m.stage == .waiting) = some m))
    (hmodel : Tbl.find? s.chip.models (m.fld 1 0 32) = some x) (howner : x.owner = m.owner)
    (hothers : (s.chip.cmds.any fun k => k.owner == m.owner && k.id != id && k.mayUse) = false) :
    exec (.modelUnload id) s = .next (s.withChip (Chip.complete { s.chip with models := Tbl.del s.chip.models (m.fld 1 0 32) } m 0)) := by
  have hexec : exec (.modelUnload id) s = execModelUnload id s := rfl
  unfold execModelUnload at hexec
  extract_lets +onlyGivenNames c ready at hexec
  have hr : ready = some m := by
    rcases hready with htake | ⟨htake, hwaits⟩
    · simp only [ready, c, htake]
    · simp only [ready, c, htake, hwaits]
  clear_value ready
  subst hr
  simp only [c, hmodel] at hexec
  exact hexec.trans ((if_neg (not_not_intro howner)).trans ((if_neg (Bool.eq_false_iff.1 hothers)).trans (s.go_eq _)))

end

/-- The least number of sixteenths that is enough. -/
theorem ceilDiv_bounds {n d : Nat} (hd : 0 < d) (hn : 0 < n) : n ≤ (n + d - 1) / d * d ∧ ((n + d - 1) / d - 1) * d < n := by
  have hsplit : (n + d - 1) / d * d + (n + d - 1) % d = n + d - 1 := Nat.div_add_mod' _ _
  have hrest : (n + d - 1) % d < d := Nat.mod_lt _ hd
  rw [Nat.sub_mul, Nat.one_mul]
  omega

section
variable {w a lmax wmin rate tb f slow : Nat} {classA backed : Bool}

theorem fitHalf_streams (hbig : ¬ w + a ≤ f) (hclass : classA = false) (hbacked : backed = true) (hslow : 0 < slow) (hroom : a + 2 * lmax + wmin ≤ f)
    (hrate : 0 < rate * tb) : fitHalf w a lmax wmin rate tb f slow classA backed =
      (if slow * (rate * tb) < 16 * (rate * tb + (w - (f - a - 2 * lmax))) then
        .error ((16 * (rate * tb + (w - (f - a - 2 * lmax))) + rate * tb - 1) / (rate * tb))
      else .ok (f, true, (16 * (rate * tb + (w - (f - a - 2 * lmax))) + rate * tb - 1) / (rate * tb))) := by
  have hfit : ¬ (classA = true ∨ ¬ backed = true ∨ slow = 0) := by
    rintro (h | h | h)
    · exact Bool.eq_false_iff.1 hclass h
    · exact h hbacked
    · omega
  exact (if_neg hbig).trans ((if_neg hfit).trans ((if_neg (by omega)).trans (if_neg hrate.ne')))

end

/-- Settles O36: the load and the unload take the branches their statements name, and the fit is arithmetic. -/
theorem modelsLoaded : Obligations.ModelsLoaded := by
  unfold Obligations.ModelsLoaded
  refine ⟨fun id dg o m man rec_ c1 c2 s htake hhalves hback hman hrec => exec_modelLoad htake hhalves hback hman hrec, ?_,
    fun id m x s hready hmodel howner hothers => exec_modelUnload hready hmodel howner hothers⟩
  intro w a lmax wmin rate tb f slow classA backed fit e
  refine ⟨fun h => if_pos h, fun hbig hcause => ?_, fun hbig hclass hbacked hslow hroom hrate => ?_⟩
  · have hsmall : ¬ w + a ≤ f := by omega
    have hfit : fit = _ := if_neg hsmall
    by_cases hno : classA = true ∨ ¬ backed = true ∨ slow = 0
    · exact ⟨0, hfit.trans (if_pos hno)⟩
    · have hwindow : f < a + 2 * lmax ∨ f - a - 2 * lmax < wmin := by
        rcases hcause with h | h | h | h
        · exact absurd (.inl h) hno
        · exact absurd (.inr (.inl (Bool.eq_false_iff.1 h))) hno
        · exact absurd (.inr (.inr h)) hno
        · omega
      exact ⟨0, hfit.trans ((if_neg hno).trans (if_pos hwindow))⟩
  · have hfit : fit = _ := fitHalf_streams (by omega) hclass hbacked hslow hroom hrate
    obtain ⟨henough, hleast⟩ := ceilDiv_bounds (n := 16 * (rate * tb + e)) hrate (by omega)
    exact ⟨fun h => ⟨_, hfit.trans (if_neg (Nat.not_lt.2 h)), henough, hleast⟩, fun h => ⟨_, hfit.trans (if_pos h)⟩⟩

/-! ### Patrol scrub and rebuild -/

section
variable {x : Fin 4} {u : BitVec 28} {s : State}

theorem exec_patrolScrub (hup : s.chip.down.get (stackHalf x) = false) (hawake : s.chip.awake (stackHalf x) = true)
    (hon : s.chip.on (F.MEM_CTL_SCRUB_EN x) = true) (o : EccObs) :
    exec (.patrolScrub x u o) s = .next (s.withChip (s.chip.eccRead x (unitAddr x u.toNat) o)) :=
  (if_neg fun h => h.elim (Bool.eq_false_iff.1 hup) fun h => h.elim (fun h => h hawake) fun h => h hon).trans (s.go_eq _)

end

/-- The counts of a corrected symbol. -/
def Chip.symbolsCounted (c : Chip) (x d n : Nat) : Chip :=
  ((c.count (F.MEM_CORR_COUNT x) n).count (F.MEM_DIE_CORR_HOUR x d) n).count (F.MEM_DIE_CORR_TOTAL x d) n

section
variable (c : Chip) {g : RF} {x d : Nat} (n : Nat)

/-- They are in registers of their own. -/
theorem Chip.symbolsCounted_same (hd : d < 6) (hg : g.addr = Reg.MEM_CTL x ∨ g.addr = Reg.MEM_STATUS x) : SameField g c (c.symbolsCounted x d n) := by
  have hcorr : g.addr ≠ Reg.MEM_CORR x := by unfold Reg.MEM_CTL Reg.MEM_STATUS at hg; unfold Reg.MEM_CORR; omega
  have hdie : g.addr ≠ Reg.MEM_DIE_CORR x d := by unfold Reg.MEM_CTL Reg.MEM_STATUS at hg; unfold Reg.MEM_DIE_CORR; omega
  exact (((SameField.refl c).put ⟨Nat.le_of_ble_eq_true rfl, .inl hcorr⟩ _).put ⟨Nat.le_of_ble_eq_true rfl, .inl hdie⟩ _).put
    ⟨Nat.le_of_ble_eq_true rfl, .inl hdie⟩ _

end

section
variable {c : Chip} {x : Fin 4} {d : Fin 6} {n : Fin 9}

/-- Symbols that are counted and tell of no die that fails. -/
theorem Chip.eccRead_corrected (hn : n.val ≠ 0) (huse : c.dieInUse x d = true) (hmark : (n.val = 1 ∧ c.on (F.MEM_STATUS_MARKED x) = false ∧
      c.q (F.MEM_DIE_CORR_HOUR x d) < 256) ∨ (c.on (F.MEM_STATUS_MARKED x) = true ∧ c.q (F.MEM_STATUS_MARKED_DIE x) = d)) (a : Nat) :
    c.eccRead x a (.corrected d n) = if c.on (F.MEM_CTL_EVT_CORR_EN x) then
      (List.range n).foldl (fun (e : Chip) _ => e.ev (stackHalf x) 0x0310 [x, d, a]) (c.symbolsCounted x d n) else c.symbolsCounted x d n := by
  have hcorr : c.correctable x d n = true := by
    unfold Chip.correctable
    rcases hmark with ⟨hone, hoff, _⟩ | ⟨hmarked, hdie⟩
    · rw [huse, hoff, hone]
      rfl
    · rw [huse, hmarked, hdie, if_pos rfl, decide_eq_true (by omega), beq_self_eq_true]
      rfl
  have hother : ¬ ((c.on (F.MEM_STATUS_MARKED x) && c.q (F.MEM_STATUS_MARKED_DIE x) != d) = true) := by
    rcases hmark with ⟨_, hoff, _⟩ | ⟨_, hdie⟩
    · rw [hoff]
      exact nofun
    · rw [hdie, bne_self_eq_false, Bool.and_false]
      exact nofun
  have hcounted : c.corrected x d n a = if c.on (F.MEM_CTL_EVT_CORR_EN x) then
      (List.range n).foldl (fun (e : Chip) _ => e.ev (stackHalf x) 0x0310 [x, d, a]) (c.symbolsCounted x d n) else c.symbolsCounted x d n := by
    have hen := (c.symbolsCounted_same n (g := F.MEM_CTL_EVT_CORR_EN x) d.isLt (.inl rfl)).on
    refine Eq.trans ?_ (ite_not _ _ _)
    exact if_congr (not_congr (Eq.congr_left hen)) rfl rfl
  refine (if_pos hcorr).trans (Eq.trans ?_ hcounted)
  unfold Chip.dieErrors
  extract_lets +onlyGivenNames other many e
  rw [if_neg fun h => hother h.1]
  have he : e = c.corrected x d n a := rfl
  rw [← he]
  rcases hmark with ⟨hone, _, hfew⟩ | ⟨hmarked, _⟩
  · have hmany : ¬ many = true := by
      have hle : ¬ 256 < c.q (F.MEM_DIE_CORR_HOUR x d) + n := by omega
      exact fun h => hle (of_decide_eq_true h)
    rw [if_neg hmany, if_neg (c := false = true) nofun, ite_self]
  · have hsame : SameField (F.MEM_STATUS_MARKED x) c e := by
      rw [he, hcounted]
      have hk := c.symbolsCounted_same n (g := F.MEM_STATUS_MARKED x) d.isLt (.inr rfl)
      refine .ite (hk.trans (.foldl _ _ (fun e _ => (SameField.refl e).ev ?_ _ _ _) _)) hk
      unfold eventReg Reg.WEAR_LOG_CNT
      have haddr : (F.MEM_STATUS_MARKED x).addr = 0x508008 + x * 0x40000 := rfl
      omega
    rw [if_pos (hsame.on.trans hmarked)]

end

theorem Chip.poisonUnit_eq (c : Chip) (x a : Nat) :
    c.poisonUnit x a =
      (let o := ownOwner (c.ownAt ((ownIndex a).getD 0))
       let k := ((c.inc (F.MEM_UNCORR_COUNT x)).setReg (Reg.MEM_POISON_LO x) (a % 2 ^ 32)).setReg (Reg.MEM_POISON_HI x) (a / 2 ^ 32)
       let k := if k.poison.contains a then k else { k with poison := a :: k.poison }
       (k.dirty a 64).evOf (stackHalf x) 0x0311 (BitVec.ofNat 13 o) [x, a, o]) := by
  unfold Chip.poisonUnit
  extract_lets +onlyGivenNames k p o o'
  have hown : p.own = k.own := ite_keeps (f := fun y : Chip => y.own) rfl rfl
  have ho : o = o' := by
    have hk : k.own = c.own := (Chip.setReg_keeps (fun y => y.own) (fun _ _ => rfl) _ _ _).trans
      ((Chip.setReg_keeps (fun y => y.own) (fun _ _ => rfl) _ _ _).trans (Chip.put_keeps (fun y => y.own) (fun _ _ => rfl) _ _ _))
    exact congrArg (fun t => ownOwner (Tbl.look (ownReset ((ownIndex a).getD 0)) t ((ownIndex a).getD 0)).toNat) (hown.trans hk)
  rw [ho]

/-- Settles O23: the unit read takes the branch of its observation, and the rebuild gives the spare its role. -/
theorem stacksScrubbed : Obligations.StacksScrubbed := by
  unfold Obligations.StacksScrubbed
  refine ⟨fun x u s hup hawake hon => ⟨exec_patrolScrub hup hawake hon .clean, fun d n hn huse hmark => ?_, ?_⟩, fun x s hup hawake hon => ?_⟩
  · exact (exec_patrolScrub hup hawake hon _).trans (congrArg (fun k => Host.Outcome.next (s.withChip k)) (Chip.eccRead_corrected hn huse hmark _))
  · exact (exec_patrolScrub hup hawake hon _).trans (congrArg (fun k => Host.Outcome.next (s.withChip k)) (s.chip.poisonUnit_eq x _))
  · exact (if_neg fun h => h.elim (Bool.eq_false_iff.1 hup) fun h => h.elim (fun h => h hawake) fun h => h hon).trans (s.go_eq _)

/-! ### Moves -/

/-- Where no vector of an array meets the transfer, its commands are as they were. -/
theorem Chip.arrayRace_clear {c : Chip} {w : Bool} {a n : Nat} (h : (c.arrayRace w a n).1 = false) : c.arrayRace w a n = (false, c) := by
  fun_cases Chip.arrayRace c w a n
  case case1 k hk x hit =>
    have hclear : ¬ x.jobs.any hit = true := by
      unfold Chip.arrayRace at h
      rw [hk] at h
      exact Bool.eq_false_iff.1 h
    rw [if_neg hclear, Bool.eq_false_iff.2 hclear]
  case case2 => rfl

theorem Chip.id_of_cmd? {c : Chip} {i : CmdId} {m : Cmd} (h : c.cmd? i = some m) : m.id = i :=
  beq_iff_eq.1 (List.find?_some (p := fun m : Cmd => m.id == i) h)

theorem isPeer_of_inWindow {a : Nat} (h : inWindow a = false) : isPeer a = false := (Bool.or_eq_false_iff.1 h).2

theorem Chip.farAnswered_inside {c : Chip} {a : Nat} (h : inWindow a = false) : c.farAnswered a = c := if_neg (Bool.eq_false_iff.1 (isPeer_of_inWindow h))

section
variable {c : Chip} {t : Nat} {x : Txn} {m : Cmd} {ok : Bool} {data : List Byte}

/-- The bytes of a write of memory. -/
theorem Chip.txnWrite_store (hrace : (c.arrayRace true x.addr x.data.length).1 = false) (hin : inWindow x.addr = false) (hmem : 0x40000000 ≤ x.addr) :
    c.txnWrite x false = c.store x.addr x.data := by
  unfold Chip.txnWrite
  rw [if_neg (Bool.eq_false_iff.1 hin), if_neg (Nat.not_lt.2 hmem), Chip.arrayRace_clear hrace]
  rfl

theorem Chip.wrote_eq (d : Chip) (hm : d.cmd? m.id = some m) (hfeeds : m.feeds = false) : d.wrote m x =
    (d.countPair (Reg.CARRIAGE_BYTES_LO x.unit) (Reg.CARRIAGE_BYTES_HI x.unit) x.len).setCmd { m with bytes := m.bytes + x.len } := by
  unfold Chip.wrote
  extract_lets +onlyGivenNames e e'
  have hcmds : e.cmds = d.cmds := (Chip.setReg_keeps (fun y => y.cmds) (fun _ _ => rfl) _ _ _).trans (Chip.setReg_keeps (fun y => y.cmds) (fun _ _ => rfl) _ _ _)
  have hcmd : e.cmd? m.id = some m := (congrArg (List.find? fun k : Cmd => k.id == m.id) hcmds).trans hm
  rw [if_neg (Bool.eq_false_iff.1 hfeeds)]
  have he : e' = match e.cmd? m.id with
    | some m => e.setCmd { m with bytes := m.bytes + x.len }
    | none => e := rfl
  rw [he, hcmd]

theorem Chip.txnRead_memory (hin : inWindow x.addr = false) (hmem : 0x40000000 ≤ x.addr) (hgood : c.poisoned x.addr x.len = none) :
    c.txnRead x ok data = (.ok (c.load x.addr x.len), c) := by
  unfold Chip.txnRead
  rw [if_neg (Bool.eq_false_iff.1 hin), if_neg (Nat.not_lt.2 hmem), hgood]

variable (hx : Tbl.find? c.txns t = some x) (hm : c.cmd? x.id = some m) (hsent : x.sent.isSome = true) (hlater : c.arrivesLater x = false)
  (hstage : m.stage ≠ .withdrawn) (hin : inWindow x.addr = false) (hmem : 0x40000000 ≤ x.addr)
include hx hm hsent hlater hstage hin hmem

theorem Chip.txnReturn_write (hwrite : x.write = true) (hrace : (c.arrayRace true x.addr x.data.length).1 = false) (hzero : m.zeroFill = false)
    (hfeeds : m.feeds = false) : c.txnReturn t ok data [] =
      (((((c.store x.addr x.data).countPair (Reg.CARRIAGE_BYTES_LO x.unit) (Reg.CARRIAGE_BYTES_HI x.unit) x.len).setCmd
        { m with bytes := m.bytes + x.len }).endTxn t x.id).pump x.half (if inWindow (m.listAddr m.n) then none else some (x.id, .answered, []))) := by
  have hcmd : (c.store x.addr x.data).cmd? m.id = some m := by
    have hcmds : (c.store x.addr x.data).cmds = c.cmds := Chip.store_keeps (fun y => y.cmds) (fun _ _ _ _ _ _ => rfl) c _ _
    exact (congrArg (List.find? fun k : Cmd => k.id == m.id) hcmds).trans (by rw [Chip.id_of_cmd? hm]; exact hm)
  have hgoing : ¬ (x.sent.isNone = true ∨ c.arrivesLater x = true) := by
    rw [hlater, Option.isNone_eq_false_iff.2 hsent]
    decide
  have hwin : ¬ (inWindow x.addr = true ∧ ¬ ok = true) := fun h => Bool.eq_false_iff.1 hin h.1
  simp only [Chip.txnReturn, hx, Chip.farAnswered_inside hin, hm, if_neg hgoing, if_neg hstage, if_pos hwrite, if_neg hwin, hzero,
    Chip.txnWrite_store hrace hin hmem, Chip.wrote_eq _ hcmd hfeeds]
  split
  · rfl
  · rfl

theorem Chip.txnReturn_read (hwrite : x.write = false) (hrace : (c.arrayRace false x.addr x.len).1 = false) (hgood : c.poisoned x.addr x.len = none)
    (hdst : c.windowGone x.half x.dst = false) (haux : m.aux.getD 1 0 ≠ 1) : c.txnReturn t ok data [] =
      ((Chip.sendTxn { c with txns := (Tbl.ins c.txns t
      { x with write := true, addr := x.dst, data := c.load x.addr x.len, sent := none, via := none }) } t).pump x.half (if inWindow (m.listAddr m.n) then none else some (x.id, .answered, []))) := by
  have hgoing : ¬ (x.sent.isNone = true ∨ c.arrivesLater x = true) := by
    rw [hlater, Option.isNone_eq_false_iff.2 hsent]
    decide
  have hfree : ¬ (m.aux.getD 1 0 = 1 ∨ false = true ∨ false = true) := by
    rintro (h | h | h)
    · exact haux h
    · exact nomatch h
    · exact nomatch h
  simp only [Chip.txnReturn, hx, Chip.farAnswered_inside hin, hm, if_neg hgoing, if_neg hstage, if_neg (Bool.eq_false_iff.1 hwrite),
    Chip.sight_nil, Chip.txnRead_memory hin hmem hgood, Chip.arrayRace_clear hrace, if_neg (Bool.eq_false_iff.1 hdst), if_neg hfree]
  split
  · rfl
  · rfl

end

section
variable {s : State} {t : Nat} {ok : Bool} {data : List Byte} {x : Txn} {m : Cmd}

/-- A move with nothing left to issue and nothing in flight completes. -/
theorem exec_moveCompletion {id : CmdId} (hm : s.chip.cmd? id = some m) (hdone : 0x50 ≤ m.opcode ∧ m.opcode ≤ 0x53 ∧ m.stage = .running ∧
    m.issued = true ∧ s.chip.txnsOf id = []) : exec (.moveCompletion id) s = .next (s.withChip (s.chip.finishMove m)) := by
  have hexec : exec (.moveCompletion id) s = execMoveCompletion id s := rfl
  unfold execMoveCompletion at hexec
  simp only [hm] at hexec
  exact hexec.trans ((if_pos hdone).trans (s.go_eq _))

end

/-- Settles O22: each return and the completion take the branches that the statement names. -/
theorem movesWork : Obligations.MovesWork := by
  unfold Obligations.MovesWork
  refine ⟨fun t ok data x m s hx hm hsent hwrite hlater hstage hrace hin hmem hzero hfeeds => ?_,
    fun t ok data x m s hx hm hsent hwrite hlater hrace hin hmem hgood hstage hdst haux => ?_, fun id m s hm hlo hhi hstage hissued htxns => ?_⟩
  · exact (congrArg s.go (Chip.txnReturn_write hx hm hsent hlater hstage hin hmem hwrite hrace hzero hfeeds)).trans (s.go_eq _)
  · exact (congrArg s.go (Chip.txnReturn_read hx hm hsent hlater hstage hin hmem hwrite hrace hgood hdst haux)).trans (s.go_eq _)
  · exact exec_moveCompletion hm ⟨hlo, hhi, hstage, hissued, htxns⟩

/-! ### Arrays -/

section
variable {a : Fin 8} {s : State}

theorem exec_arrayCompletion {id : CmdId} {j : ArrJob} {m : Cmd} (hdone : s.chip.jobDone a id = some (j, m)) (hstage : m.stage ≠ .withdrawn) :
    exec (.arrayCompletion a id) s = .next (s.withChip (s.chip.finishArray a j m)) := by
  have hexec : exec (.arrayCompletion a id) s = execArrayCompletion a id s := rfl
  unfold execArrayCompletion at hexec
  simp only [hdone, if_neg hstage] at hexec
  exact hexec.trans (s.go_eq _)

theorem Chip.finishArray_tame {c : Chip} {a : Nat} {j : ArrJob} {m : Cmd} (hwild : j.wild = false) : c.finishArray a j m =
    (let c := c.setArr a { c.arr a with jobs := (c.arr a).jobs.filter fun k => k.id != j.id }
     let c := c.countPair (Reg.ARRAY_CMD_CNT_LO a) (Reg.ARRAY_CMD_CNT_HI a) 1
     let m := { m with clamped := m.clamped || decide (0 < j.sat) }
     let c := c.complete m (min j.sat 0xFFFFFFFF + j.streamed % 4096 * 2 ^ 32 + a % 8 * 2 ^ 48)
     (if m.status = Status.doneDoubtful.code then c.latchDoubt m.owner else c).retireDue a) := by
  unfold Chip.finishArray
  extract_lets +onlyGivenNames x d e
  simp only [hwild, decide_eq_true_iff]
  rfl

theorem exec_remap {r : Remap} {rest : List Remap} (hr : (s.chip.arr a).remaps = r :: rest) (hmove : s.chip.remapping a = true) (o : StoreObs 0x40000) :
    exec (.remap a o) s = .next (s.withChip ((s.chip.setArr a { s.chip.arr a with remaps := rest }).remapDone a r o)) := by
  have hexec : exec (.remap a o) s = execRemap a s o := rfl
  unfold execRemap at hexec
  simp only [hr, if_pos hmove] at hexec
  exact hexec.trans (s.go_eq _)

theorem Chip.remapLine_row {c : Chip} {a n line : Nat} (hn : c.freeRow a = some n) : c.remapLine a true line =
    (let d := c.setReg (Reg.ARRAY_ROWMAP a n) (2 ^ 31 + line % 128)
     let d := (d.dec (F.ARRAY_SPARES_ROWS_FREE a)).ev (arrayHalf a) 0x0100 [a, line % 128, n]
     let d := d.spareTaken (arrayHalf a) 0 a n (n + 1)
     if n = 3 then d.ev (arrayHalf a) 0x0102 [a, 0] else d) := by
  unfold Chip.remapLine
  extract_lets +onlyGivenNames h
  rw [if_pos rfl, hn]

theorem Chip.remapLine_col {c : Chip} {a n line : Nat} (hn : c.freeCol a = some n) : c.remapLine a false line =
    (let d := c.setReg (Reg.ARRAY_COLMAP a n) (2 ^ 31 + line % 1024)
     let d := (d.dec (F.ARRAY_SPARES_COLS_FREE a)).ev (arrayHalf a) 0x0101 [a, line % 1024, n]
     let d := d.spareTaken (arrayHalf a) 1 a n (n + 1)
     if n = 5 then d.ev (arrayHalf a) 0x0102 [a, 1] else d) := by
  unfold Chip.remapLine
  extract_lets +onlyGivenNames h
  rw [if_neg nofun, hn]

theorem exec_arrayRetire {i : Initiator} (hcause : s.chip.portCause i true (Reg.ARRAY_RETIRE a) = 0) (hup : s.chip.down.get (arrayHalf a) = false)
    (hserves : s.chip.on (F.ARRAY_STATUS_RETIRED a) = false) : exec (.arrayRetire i a) s = .next (s.withChip
      (if (s.chip.arr a).jobs = [] then (s.chip.put (F.ARRAY_RETIRE_RETIRE a) 1).retireArray a 0
      else (s.chip.put (F.ARRAY_RETIRE_RETIRE a) 1).setArr a { s.chip.arr a with retiring := some ((s.chip.arr a).retiring.getD 0) })) := by
  have hexec : exec (.arrayRetire i a) s = execArrayRetire i a s := rfl
  unfold execArrayRetire at hexec
  extract_lets +onlyGivenNames c at hexec
  rw [hcause] at hexec
  exact hexec.trans ((if_neg fun h => h.elim (Bool.eq_false_iff.1 hserves) (Bool.eq_false_iff.1 hup)).trans (s.go_ite _ _ _))

end

/-- Settles O9: completion, remap and retirement take the branches that their statements name. -/
theorem arrayEnds : Obligations.ArrayEnds := by
  unfold Obligations.ArrayEnds
  refine ⟨fun a id j m s hdone hstage hwild => ?_, fun a line n rest s hr hmove hn => ?_, fun a line n rest s hr hmove hn => ?_,
    fun i a s hcause hup hserves => exec_arrayRetire hcause hup hserves⟩
  · exact (exec_arrayCompletion hdone hstage).trans (congrArg (fun k => Host.Outcome.next (s.withChip k)) (Chip.finishArray_tame hwild))
  · refine (exec_remap hr hmove .clean).trans (congrArg (fun k => Host.Outcome.next (s.withChip k)) ?_)
    have hfree : (s.chip.setArr a { s.chip.arr a with remaps := rest }).freeRow a = some n := hn
    exact Chip.remapLine_row hfree
  · refine (exec_remap hr hmove .clean).trans (congrArg (fun k => Host.Outcome.next (s.withChip k)) ?_)
    have hfree : (s.chip.setArr a { s.chip.arr a with remaps := rest }).freeCol a = some n := hn
    exact Chip.remapLine_col hfree

end Machine

end Sys2Proof

/-! PROOF. Register reads (R21), the ledger's batches (R189–R196), gouge tasks (R123–R130), ring service (R236–R240) and store errors (R106–R109). -/

namespace Sys2Proof

namespace Machine

/-! ### A read that counts a free value -/

section
variable {i : Initiator} {f : Found} {s : State} {a : BitVec 48}

/-- An admitted read of a register that only shows counts a free value where the register has a field that may read as one. -/
theorem exec_registerRead (hf : findReg a.toNat = some f) (htime : f.blk.base ≠ blkTIME.base) (hvi : f.blk.base ≠ blkVI.base)
    (hdowel : f.blk.base ≠ blkDOWEL.base) (hlo : isLo f = false) (hhi : isHi f = false) (hused : controlUsed a.toNat = true) (halign : a.toNat % 4 = 0)
    (hplace : a.toNat < 0x1600000) (hcoef : coefWord a.toNat = none)
    (hup : s.chip.down.get (homeHalf i.half a.toNat) = false) (hcause : (s.chip.reached i a.toNat).pageCause i false a.toNat = 0) :
    exec (.registerRead i 4 a) s = .next (s.withChip { (s.chip.reached i a.toNat).answering i a.toNat ((s.chip.reached i a.toNat).live f a.toNat) with
      freeCnt := (s.chip.reached i a.toNat).freeCnt + b2n (isOpen f) }) := by
  have hstamp : isStamp f = false := Bool.and_eq_false_imp.2 fun h => absurd (beq_iff_eq.1 h) htime
  have hpage : ¬ ((0x1600000 ≤ a.toNat ∧ a.toNat < 0x1800000) ∨ (coefWord a.toNat).isSome = true) := by
    rw [hcoef]
    exact fun h => h.elim (by omega) nofun
  have hread : s.chip.regRead i 4 a.toNat = (s.chip.reached i a.toNat).takeRead i f a.toNat := by
    unfold Chip.regRead
    rw [if_neg (not_not_intro hused), if_neg (by omega), if_neg (by omega), if_neg (Bool.eq_false_iff.1 hup), if_neg hpage]
    simp only [hf, hcause]
  have hexec : exec (.registerRead i 4 a) s = s.go (s.chip.regRead i 4 a.toNat) := if_pos (by omega)
  refine hexec.trans ((congrArg s.go (hread.trans ?_)).trans (s.go_eq _))
  unfold Chip.takeRead
  rw [if_neg fun h => htime h.1, if_neg fun h => htime h.1, if_neg hvi, if_neg fun h => hdowel h.1]
  unfold Chip.showReg
  rw [if_neg (Bool.eq_false_iff.1 hstamp), if_neg (Bool.eq_false_iff.1 hlo), if_neg (Bool.eq_false_iff.1 hhi)]

end

/-- Firmware, by an application core of Headstock. -/
def firmwareCore : Initiator := ⟨0, 0, .H, .core⟩

/-- Refutes O38: firmware's read of `MEM_CTL` after reset counts a free value, which the statement's next state does not. -/
theorem not_registersRead : ¬ Obligations.RegistersRead := by
  intro h
  obtain ⟨hshow, -⟩ := h
  obtain ⟨f, hf, hopen, htime, hvi, hdowel, hlo, hhi⟩ : ∃ f, findReg 0x508004 = some f ∧ isOpen f = true ∧ f.blk.base ≠ blkTIME.base ∧
      f.blk.base ≠ blkVI.base ∧ f.blk.base ≠ blkDOWEL.base ∧ isLo f = false ∧ isHi f = false := ⟨_, rfl, by decide⟩
  have hused : controlUsed 0x508004 = true := by decide +kernel
  have hcoef : coefWord 0x508004 = none := by decide
  have hup : Chip.reset.down.get (homeHalf .H 0x508004) = false := by decide +kernel
  have hcause : (Chip.reset.reached firmwareCore 0x508004).pageCause firmwareCore false 0x508004 = 0 := by decide +kernel
  obtain ⟨hnext, -⟩ := hshow firmwareCore 0x508004 f ⟨Chip.reset, []⟩ hf htime hvi hdowel hlo hused rfl (.inl (by decide)) (by decide) hcoef hup hcause
  have hexec := exec_registerRead (i := firmwareCore) (a := 0x508004) (s := ⟨Chip.reset, []⟩) hf htime hvi hdowel hlo hhi hused rfl (by decide) hcoef hup hcause
  have hfree := congrArg (fun s : State => s.chip.freeCnt) (Host.Outcome.next.inj (hexec.symm.trans (hnext hhi)))
  rw [hopen] at hfree
  exact Nat.succ_ne_self _ hfree

/-! ### Batches of the frame ledger -/

section
variable {c : Chip} {id : CmdId} {m : Cmd} {r : OpRec} (hm : c.cmd? id = some m) (hop : m.opcode = 0x48) (hstage : m.stage = .running)
  (hrec : c.nextRecord m = .ok r)
include hm hop hstage hrec

/-- The next record of a running batch that shows no error is carried out. -/
theorem Chip.batchStep_eq {op : Nat} {f : Chip → Cmd → OpRec → Option (Chip × Nat × Nat × Option Frame)} (hr : r.op = op)
    {d : Chip} {result frame : Nat} {q : Option Frame} (hf : f c m r = some (d, result, frame, q)) :
    c.batchStep id op [] f = (d.recordDone m r (r.home m) result frame q).skipReserved id m.batchOps := by
  have hsee : c.seeRecord m op [] = (.ok r, c) := by
    unfold Chip.seeRecord
    simp only [hrec, Chip.sight_nil, if_neg (c := false = true) nofun, if_neg (not_not_intro hr)]
  have hrun : ¬ (m.opcode ≠ 0x48 ∨ m.stage ≠ .running) := not_or.2 ⟨not_not_intro hop, not_not_intro hstage⟩
  unfold Chip.batchStep
  simp only [hm, if_neg hrun, hsee, if_neg (not_not_intro hr), hf]

end

/-- An allocation takes the head of the free list. -/
theorem Chip.kvAlloc_eq {c d : Chip} {h : Half} {o : Owner} {n : Nat} (hsap : o.world = false) (hon : c.on (F.KVL_CTL_ENABLE h.idx) = true)
    (hup : c.down.get h = false) (hquota : c.kvUsed h o.part < c.q (F.KVL_QUOTA_FRAMES h.idx o.part)) (hzero : (c.start.get h).zeroing = false)
    (hpop : c.popFree h = some (n, d)) : c.kvAlloc h o = .done (d.setFrame h n ⟨1, 1, 0, o⟩) (frameId h n) := by
  have hclosed : ¬ (¬ c.on (F.KVL_CTL_ENABLE h.idx) = true ∨ c.down.get h = true) := by
    rw [hon, hup]
    decide
  unfold Chip.kvAlloc
  simp only [if_neg (Bool.eq_false_iff.1 hsap), if_neg hclosed, if_neg (Nat.not_le.2 hquota), if_neg (Bool.eq_false_iff.1 hzero), hpop]

section
variable {c : Chip} {o : Owner} {f : Nat} {h : Half} {n : Nat} {e : Frame} (hlive : c.kvLive o f = .ok (h, n, e))
include hlive

theorem Chip.kvAcquire_eq (href : e.ref < 65535) : c.kvAcquire o f = .done (c.setFrame h n { e with ref := e.ref + 1 }) f := by
  unfold Chip.kvAcquire
  simp only [hlive, if_pos href]

theorem Chip.kvRelease_eq : c.kvRelease o f =
    .done (c.setFrame h n { e with ref := e.ref - 1, state := if 0 < e.ref - 1 then 1 else if 0 < e.pin then 2 else 3 }) f := by
  unfold Chip.kvRelease
  simp only [hlive, Chip.settle]

end

/-- Settles O19: a batch is begun, and each record that its statement describes is answered as the ledger answers it. -/
theorem ledgerBatches : Obligations.LedgerBatches := by
  unfold Obligations.LedgerBatches
  refine ⟨fun id m s htake hbehind => ?_, fun id m r n c s hm hop hstage hrec hr hentry hsap hon hup hzero hquota hpop => ?_,
    fun id m r h n e s hm hop hstage hrec hlive => ⟨fun hr href => ?_, fun hr => ?_⟩, fun id m r h n s hm hop hstage hrec hr hno howner => ?_⟩
  · have hexec : exec (.ledgerBatch id) s = execLedgerBatch id s := rfl
    unfold execLedgerBatch at hexec
    simp only [htake, if_neg (Bool.eq_false_iff.1 hbehind)] at hexec
    exact hexec.trans (s.go_ite _ _ _)
  · intro d d'
    refine (congrArg s.go (Chip.batchStep_eq hm hop hstage hrec hr (d := d') (frame := frameId r.half n) (q := none) ?_)).trans (s.go_eq _)
    have hgood : ¬ (r.entry ≠ 0 ∧ ¬ s.chip.entryOk m r.entry = true) := fun h => hentry.elim h.1 h.2
    simp only [if_neg hgood, Chip.kvAlloc_eq hsap hon hup hquota hzero hpop]
    rfl
  · refine (congrArg s.go (Chip.batchStep_eq hm hop hstage hrec hr ?_)).trans (s.go_eq _)
    rw [Chip.kvAcquire_eq hlive href]
    rfl
  · refine (congrArg s.go (Chip.batchStep_eq hm hop hstage hrec hr ?_)).trans (s.go_eq _)
    rw [Chip.kvRelease_eq hlive]
    rfl
  · refine (congrArg s.go (Chip.batchStep_eq hm hop hstage hrec hr ?_)).trans (s.go_eq _)
    simp only [hno, if_pos howner]

/-! ### Service of a ring -/

section
variable {c : Chip} {r : Nat} {o : Owner}

/-- The registers of a ring's counts. -/
def ringCounts (r : Nat) : List Nat := [Reg.RING_TAIL r, Reg.RING_HEAD r, Reg.RING_DONE_LO r, Reg.RING_DONE_HI r, Reg.RING_BAD_DB r]

theorem Chip.reg_zeroed (c : Chip) (l : List Nat) (b : Nat) : (l.foldl (fun c a => c.setReg a 0) c).reg b = if b ∈ l then 0 else c.reg b := by
  induction l generalizing c with
  | nil => rfl
  | cons a l ih =>
    refine (ih (c.setReg a 0)).trans ?_
    by_cases hb : b = a
    · subst hb
      rw [if_pos List.mem_cons_self, c.reg_setReg_same]
      split <;> rfl
    · rw [c.reg_setReg_ne _ hb]
      exact if_congr (by rw [List.mem_cons, or_iff_right hb]) rfl rfl

theorem Chip.mem_zeroed (c : Chip) (l : List Nat) : (l.foldl (fun c a => c.setReg a 0) c).mem = c.mem :=
  foldl_keeps (fun x : Chip => x.mem) _ (fun x a => Chip.setReg_keeps (fun x => x.mem) (fun _ _ => rfl) x a 0) l c

/-- The chip with the counts of a ring at 0. -/
def Chip.countsZeroed (c : Chip) (r : Nat) : Chip := (ringCounts r).foldl (fun c a => c.setReg a 0) c

theorem Chip.mem_countsZeroed (c : Chip) (r : Nat) : (c.countsZeroed r).mem = c.mem := c.mem_zeroed _

theorem Chip.reg_countsZeroed (c : Chip) (r a : Nat) : (c.countsZeroed r).reg a = if a ∈ ringCounts r then 0 else c.reg a := c.reg_zeroed (ringCounts r) a

/-- The word of the status of a ring in service. -/
def ringStatusWord (n : Nat) : Nat := 2 ^ 31 + 2 ^ 30 * b2n (n == 0) + n

theorem ringStatusWord_enabled {n : Nat} (hn : n < 65536) : bits (ringStatusWord n % 2 ^ 32) 31 1 = 1 := by
  have hidle : b2n (n == 0) ≤ 1 := by
    unfold b2n
    split <;> decide
  unfold bits ringStatusWord
  omega

theorem Chip.openRing_eq : c.openRing r o = ((c.countsZeroed r).setReg (Reg.RING_STATUS r) (ringStatusWord ((c.countsZeroed r).q (F.RING_STATUS_IN_FLIGHT r)))).setRingSt r
    ⟨o, false, 0, false, 0, 0, false, 0, (0, 0)⟩ := rfl

theorem Chip.inFlight_lt (d : Chip) (r : Nat) : d.q (F.RING_STATUS_IN_FLIGHT r) < 65536 := Nat.mod_lt _ (Nat.two_pow_pos 16)

section
variable (d : Chip) (r v : Nat) (x : RingSt)

theorem Chip.mem_ringPut : ((d.setReg (Reg.RING_STATUS r) v).setRingSt r x).mem = d.mem :=
  (Chip.setRingSt_keeps (fun y => y.mem) (fun _ _ => rfl) _ r x).trans (Chip.setReg_keeps (fun y => y.mem) (fun _ _ => rfl) d _ v)

theorem Chip.reg_ringPut {a : Nat} (ha : a ≠ Reg.RING_STATUS r) : ((d.setReg (Reg.RING_STATUS r) v).setRingSt r x).reg a = d.reg a :=
  (Chip.setRingSt_keeps (fun y => y.reg a) (fun _ _ => rfl) _ r x).trans (d.reg_setReg_ne v ha)

theorem Chip.enabled_ringPut (hv : bits (v % 2 ^ 32) 31 1 = 1) : ((d.setReg (Reg.RING_STATUS r) v).setRingSt r x).on (F.RING_STATUS_ENABLED r) = true := by
  refine (Chip.on_of_regs (c := d.setReg (Reg.RING_STATUS r) v) rfl _).trans ?_
  exact congrArg (· != 0) ((congrArg (fun w => bits w 31 1) (d.reg_setReg_same (Reg.RING_STATUS r) v)).trans hv)

theorem Chip.ringSt?_ringPut (hr : r < 65536) : ((d.setReg (Reg.RING_STATUS r) v).setRingSt r x).ringSt? r = some x :=
  (if_pos hr).trans (Tbl.find?_ins_same _ _ _)

end

/-- A ring that comes into service has its counts at 0, its status anew, and every other register as it was. -/
theorem Chip.reg_openRing {a : Nat} (ha : a ≠ Reg.RING_STATUS r) : (c.openRing r o).reg a = if a ∈ ringCounts r then 0 else c.reg a := by
  rw [Chip.openRing_eq, ← Chip.reg_countsZeroed]
  exact Chip.reg_ringPut _ r _ _ ha

theorem Chip.mem_openRing : (c.openRing r o).mem = c.mem := by
  rw [Chip.openRing_eq]
  exact (Chip.mem_ringPut _ r _ _).trans (c.mem_countsZeroed r)

theorem Chip.enabled_openRing : (c.openRing r o).on (F.RING_STATUS_ENABLED r) = true := by
  rw [Chip.openRing_eq]
  exact Chip.enabled_ringPut _ r _ _ (ringStatusWord_enabled (Chip.inFlight_lt _ r))

theorem Chip.ringSt?_openRing (hr : r < 65536) : (c.openRing r o).ringSt? r = some ⟨o, false, 0, false, 0, 0, false, 0, (0, 0)⟩ := by
  rw [Chip.openRing_eq]
  exact Chip.ringSt?_ringPut _ r _ _ hr

end

/-- The word that an enabling write leaves in the register of a ring. -/
def ringCfgWord (cfg : Nat) : Nat := (2 ^ 31 + cfg) / 2 ^ 29 * 2 ^ 29 + bits cfg 16 5 * 2 ^ 16 + bits cfg 0 2

theorem ringCfgWord_enabling {cfg : Nat} (hcfg : cfg < 2 ^ 31) :
    (2 ^ 31 + cfg) % 2 ^ 32 / 2 ^ 29 * 2 ^ 29 + bits (2 ^ 31 + cfg) 16 5 * 2 ^ 16 + bits (2 ^ 31 + cfg) 0 2 = ringCfgWord cfg := by
  unfold ringCfgWord bits
  omega

/-- What an enabling write does to a ring that is out of service. -/
theorem Chip.enableRing_out {c d : Chip} {r cfg : Nat} {o : Owner} (hcfg : cfg < 2 ^ 31) (hno : c.ringSt? r = none)
    (hd : d = c.setReg (Reg.RING_CFG r) (ringCfgWord cfg)) (ho : o = BitVec.ofNat 13 (ownOwner (c.ownAt (doorbellEntry r)))) :
    c.enableRing r (2 ^ 31 + cfg) = if d.linksGood r o then d.openRing r o else (d.put (F.RING_STATUS_CFG_ERR r) 1).put (F.RING_STATUS_ENABLED r) 0 := by
  unfold Chip.enableRing
  have hown : d.ownAt (doorbellEntry r) = c.ownAt (doorbellEntry r) := by
    rw [hd]
    exact Chip.setReg_keeps (fun x => x.ownAt (doorbellEntry r)) (fun _ _ => rfl) c _ _
  simp only [hno, ringCfgWord_enabling hcfg, ← hd, hown, ← ho]

section
variable {i : Initiator} {r : Fin 65536} {cfg : BitVec 31} {s : State} (hfw : i.isFirmware = true) (hup : s.chip.down.get (ringHalf r) = false)
include hfw hup

theorem exec_ringEnable : exec (.ringEnable i r cfg) s = .next (s.withChip (s.chip.enableRing r (2 ^ 31 + cfg.toNat))) :=
  (if_neg (Bool.eq_false_iff.1 hup)).trans ((if_pos hfw).trans (s.go_eq _))

theorem exec_ringDisable : exec (.ringDisable i r cfg) s = .next (s.withChip (s.chip.disableRing r cfg.toNat)) :=
  (if_neg (Bool.eq_false_iff.1 hup)).trans ((if_pos hfw).trans (s.go_eq _))

end

/-- A ring that comes into service over registers that differ in those of the ring alone. -/
theorem Chip.openRing_made {b c : Chip} {r : Nat} {o : Owner} (hr : r < 65536) (hout : ∀ {a : Nat}, a ≠ Reg.RING_CFG r → c.reg a = b.reg a)
    (hmem : c.mem = b.mem) :
    let t := c.openRing r o
    t.ringSt? r = some ⟨o, false, 0, false, 0, 0, false, 0, (0, 0)⟩ ∧ t.reg (Reg.RING_CFG r) = c.reg (Reg.RING_CFG r) ∧
      t.on (F.RING_STATUS_ENABLED r) = true ∧ t.reg (Reg.RING_TAIL r) = 0 ∧ t.reg (Reg.RING_HEAD r) = 0 ∧ t.reg (Reg.RING_BAD_DB r) = 0 ∧
      t.pair (Reg.RING_DONE_LO r) (Reg.RING_DONE_HI r) = 0 ∧ t.mem = b.mem ∧
      SameRegsBut (fun a => 0x10000000 + r * 0x1000 ≤ a ∧ a < 0x10001000 + r * 0x1000) b t := by
  intro t
  have hreg (a : Nat) (ha : a ≠ Reg.RING_STATUS r) : t.reg a = if a ∈ ringCounts r then 0 else c.reg a := Chip.reg_openRing ha
  have hzero {a : Nat} (ha : a ∈ ringCounts r) : t.reg a = 0 := by
    have hne : a ≠ Reg.RING_STATUS r := by
      rintro rfl
      simp only [ringCounts, List.mem_cons, List.not_mem_nil, or_false, Reg.RING_TAIL, Reg.RING_HEAD, Reg.RING_DONE_LO, Reg.RING_DONE_HI, Reg.RING_BAD_DB,
        Reg.RING_STATUS] at ha
      omega
    exact (hreg a hne).trans (if_pos ha)
  have hlie {a : Nat} (ha : a ∈ ringCounts r) : 0x10000000 + r * 0x1000 ≤ a ∧ a < 0x10001000 + r * 0x1000 := by
    simp only [ringCounts, List.mem_cons, List.not_mem_nil, or_false, Reg.RING_TAIL, Reg.RING_HEAD, Reg.RING_DONE_LO, Reg.RING_DONE_HI, Reg.RING_BAD_DB] at ha
    omega
  have hcfg : Reg.RING_CFG r ∉ ringCounts r := by
    simp only [ringCounts, List.mem_cons, List.not_mem_nil, or_false, Reg.RING_TAIL, Reg.RING_HEAD, Reg.RING_DONE_LO, Reg.RING_DONE_HI, Reg.RING_BAD_DB, Reg.RING_CFG]
    omega
  refine ⟨Chip.ringSt?_openRing hr, (hreg _ (by unfold Reg.RING_CFG Reg.RING_STATUS; omega)).trans (if_neg hcfg), Chip.enabled_openRing, hzero ?_, hzero ?_, hzero ?_, ?_, Chip.mem_openRing.trans hmem,
    fun a ha => ?_⟩
  · simp only [ringCounts, List.mem_cons, true_or]
  · simp only [ringCounts, List.mem_cons, true_or, or_true]
  · simp only [ringCounts, List.mem_cons, true_or, or_true]
  · unfold Chip.pair
    rw [hzero (a := Reg.RING_DONE_LO r) (by simp only [ringCounts, List.mem_cons, true_or, or_true]),
      hzero (a := Reg.RING_DONE_HI r) (by simp only [ringCounts, List.mem_cons, true_or, or_true]), Nat.zero_mul]
  · refine (hreg a fun h => ha ?_).trans ((if_neg fun h => ha (hlie h)).trans (hout fun h => ha ?_))
    · rw [h]
      unfold Reg.RING_STATUS
      omega
    · rw [h]
      unfold Reg.RING_CFG
      omega

/-- A ring that something still needs. -/
theorem Chip.ringNeeded_iff {c : Chip} {r : Nat} {x : RingSt} : c.ringNeeded r x = true ↔ c.q (F.RING_CFG_KIND r) ≠ 1 ∧ (c.linked r = true ∨ 0 < x.resv ∨
    (c.q (F.RING_CFG_KIND r) = 3 ∧ (c.cmds.any fun m => m.owner == x.owner && m.stage == .withdrawn) = true)) := by
  unfold Chip.ringNeeded
  simp only [Bool.and_eq_true, Bool.or_eq_true, bne_iff_ne, decide_eq_true_eq, beq_iff_eq, or_assoc]

/-- Settles O27: each write and the end of a held disabling take the branch that the state of the ring names. -/
theorem ringService : Obligations.RingService := by
  unfold Obligations.RingService
  refine ⟨fun i r cfg s hfw hup hno => ?_, fun i r cfg x s hfw hup hx => ⟨?_, ?_⟩, fun i r cfg s hfw hup hno => ?_, fun r x s hx hheld hlinked hresv hcmds => ?_⟩
  · intro c o
    have hen := Chip.enableRing_out (d := c) (o := o) cfg.isLt hno rfl rfl
    refine ⟨fun hgood => ⟨c.openRing r o, (exec_ringEnable hfw hup).trans (by rw [hen, if_pos hgood]), ?_⟩, fun hbad =>
      (exec_ringEnable hfw hup).trans (by rw [hen, if_neg (Bool.eq_false_iff.1 hbad)])⟩
    have hout {a : Nat} (ha : a ≠ Reg.RING_CFG r) : c.reg a = s.chip.reg a := s.chip.reg_setReg_ne _ ha
    have hmem : c.mem = s.chip.mem := Chip.setReg_keeps (fun x => x.mem) (fun _ _ => rfl) s.chip _ _
    clear_value c
    exact Chip.openRing_made r.isLt hout hmem
  · refine (exec_ringDisable hfw hup).trans (congrArg (fun k => Host.Outcome.next (s.withChip k)) ?_)
    unfold Chip.disableRing
    simp only [hx]
    exact if_congr Chip.ringNeeded_iff rfl rfl
  · refine (exec_ringEnable hfw hup).trans (congrArg (fun k => Host.Outcome.next (s.withChip k)) ?_)
    unfold Chip.enableRing
    simp only [hx]
  · refine (exec_ringDisable hfw hup).trans (congrArg (fun k => Host.Outcome.next (s.withChip k)) ?_)
    unfold Chip.disableRing
    simp only [hno]
    rfl
  · have hneeded : ¬ s.chip.ringNeeded r x = true := by
      rw [Chip.ringNeeded_iff, hlinked, hresv, hcmds]
      rintro ⟨-, h | h | h⟩
      · exact nomatch h
      · exact absurd h (Nat.lt_irrefl 0)
      · exact nomatch h.2
    have hexec : exec (.ringClose r) s = execRingClose r s := rfl
    unfold execRingClose at hexec
    simp only [hx, if_pos (And.intro hheld hneeded)] at hexec
    exact hexec.trans (s.go_eq _)

/-! ### Gouge tasks -/

/-- A read that shows no error of what a party may read. -/
theorem Chip.readSeen_clean {c : Chip} {m : Cmd} {a n : Nat} {far : Far} (h : c.reachCause m.half m.owner false a n far = none) :
    c.readSeen m a n far [] = (.ok (c.load a n), c) := by
  unfold Chip.readSeen
  simp only [h, Chip.sight_nil, Bool.false_eq_true, if_false]

section
variable {γ : Type} {f : Chip → γ} (h : EventPart f)
include h

theorem EventPart.wearCause (c : Chip) (k : Half) (cause : Nat) : f (c.wearCause k cause) = f c := by
  unfold Chip.wearCause
  extract_lets +onlyGivenNames d old new e
  have hd : f d = f c := ite_keeps rfl (h.put _ _ _)
  exact (ite_keeps rfl ((h.ledger _ _ _ _ _).trans ((h.ev _ _ _ _).trans (h.put _ _ _)))).trans hd

theorem EventPart.unitRetired (c : Chip) (k : Half) (kind unit cause : Nat) : f (c.unitRetired k kind unit cause) = f c := by
  unfold Chip.unitRetired
  extract_lets +onlyGivenNames d e g
  have hd : f d = f c := (h.ev _ _ _ _).trans (h.inc _ _)
  have he : f e = f d := h.ledger _ _ _ _ _
  have hg : f g = f e := h.wearCause _ _ _
  exact (ite_keeps (h.wearCause _ _ _) rfl).trans (hg.trans (he.trans hd))

theorem EventPart.retireBench (c : Chip) (b cause : Nat) : f (c.retireBench b cause) = f c := by
  unfold Chip.retireBench
  refine ite_keeps rfl ?_
  extract_lets +onlyGivenNames d
  have hd : f d = f c := (h.ev _ _ _ _).trans ((h.put _ _ _).trans (h.put _ _ _))
  exact (h.unitRetired _ _ _ _ _).trans hd

theorem EventPart.freeBench (hb : ∀ c y, f { c with benches := y } = f c) (c : Chip) (b : Nat) : f (c.freeBench b) = f c := by
  unfold Chip.freeBench
  extract_lets +onlyGivenNames x d e
  have hd : f d = f c := hb _ _
  have he : f e = f d := h.put _ _ _
  exact (ite_keeps (h.retireBench _ _ _) rfl).trans (he.trans hd)

end

/-- What the end of a task notes of it in the command. -/
def Chip.taskNoted (c : Chip) (m : Cmd) (y : Cmd) : Cmd :=
  if y.id = m.id then { y with
    clamped := y.clamped || ((m.taskUnits.any fun u => (c.core u.1 u.2).task == some m.id && (c.core u.1 u.2).gcclamp != 0) ||
      c.bctx.any fun e => e.2.cores.any fun k => k.2.task == some m.id && k.2.gcclamp != 0)
    spare := y.spare || m.taskBenches.any fun b => (c.bench b).spareNext } else y

theorem Chip.cmds_noteTask (c : Chip) (m : Cmd) : (c.noteTask m).cmds = c.cmds.map (c.taskNoted m) := by
  unfold Chip.noteTask
  extract_lets +onlyGivenNames clamped sat spare d
  refine (foldl_keeps (fun x : Chip => x.cmds) _ (fun x b => ?_) _ _).trans rfl
  exact eventPart_cmds.setPair _ _ _ _

theorem Chip.cmds_stopTask {c : Chip} {m : Cmd} (hstage : m.stage = .running) : (c.stopTask m).cmds = c.cmds.map (c.taskNoted m) := by
  unfold Chip.stopTask
  rw [if_neg (by rw [hstage]; exact fun h => h.elim nofun nofun)]
  extract_lets +onlyGivenNames d e g k
  have hd : d.cmds = c.cmds.map (c.taskNoted m) := c.cmds_noteTask m
  have he : e.cmds = d.cmds := by
    refine foldl_keeps (fun x : Chip => x.cmds) _ (fun x u => ?_) _ _
    exact ite_keeps (f := fun x : Chip => x.cmds) rfl rfl
  have hk : k.cmds = e.cmds := rfl
  refine (foldl_keeps (fun x : Chip => x.cmds) _ (fun x b => ?_) _ _).trans (hk.trans (he.trans hd))
  exact ite_keeps (f := fun x : Chip => x.cmds) (eventPart_cmds.freeBench (fun _ _ => rfl) x b) rfl

/-- The command of a task that has ended, as its record finds it. -/
theorem Chip.cmd?_stopTask {c : Chip} {id : CmdId} {m : Cmd} (hm : c.cmd? id = some m) (hstage : m.stage = .running) :
    (c.stopTask m).cmd? m.id = some (c.taskNoted m m) := by
  have hid (y : Cmd) : (c.taskNoted m y).id = y.id := by
    unfold Chip.taskNoted
    split <;> rfl
  unfold Chip.cmd?
  have hsame : ((fun y : Cmd => y.id == m.id) ∘ c.taskNoted m) = fun y => y.id == m.id := funext fun y => congrArg (· == m.id) (hid y)
  have hfind : c.cmds.find? (fun y => y.id == m.id) = some m := by
    rw [Chip.id_of_cmd? hm]
    exact hm
  rw [Chip.cmds_stopTask hstage, List.find?_map, hsame, hfind]
  rfl

/-- The record of a task whose cores have all ended tells of their clamped values and of spares. -/
theorem Chip.latest_stopTask {c : Chip} {id : CmdId} {m : Cmd} (hm : c.cmd? id = some m) (hstage : m.stage = .running) (hover : c.taskOver? m = true) :
    ((c.stopTask m).latest m).clamped = (m.clamped || (m.taskUnits.any fun u => (c.core u.1 u.2).gcclamp != 0) ||
      c.bctx.any fun e => e.2.cores.any fun k => k.2.task == some m.id && k.2.gcclamp != 0) ∧
    ((c.stopTask m).latest m).spare = (m.spare || m.taskBenches.any fun b => (c.bench b).spareNext) := by
  have hunits : (m.taskUnits.any fun u => (c.core u.1 u.2).task == some m.id && (c.core u.1 u.2).gcclamp != 0) =
      m.taskUnits.any fun u => (c.core u.1 u.2).gcclamp != 0 := by
    unfold Chip.taskOver? at hover
    rw [Bool.eq_iff_iff, List.any_eq_true, List.any_eq_true]
    refine exists_congr fun u => and_congr_right fun hu => ?_
    have hu := List.all_eq_true.1 hover u hu
    simp only [Bool.and_eq_true] at hu
    rw [hu.1.2, Bool.true_and]
  have hlatest : (c.stopTask m).latest m = { m with clamped := m.clamped || (c.taskNoted m m).clamped, spare := m.spare || (c.taskNoted m m).spare } := by
    unfold Chip.latest
    rw [Chip.cmd?_stopTask hm hstage]
  have hnoted : c.taskNoted m m = _ := if_pos rfl
  rw [hlatest, hnoted, hunits]
  simp only [← Bool.or_assoc, Bool.or_self, and_self]

/-- A spare core comes in for one that fails. -/
theorem Chip.retireCore_spare {c : Chip} {b p k sp : Nat} :
    let d := (c.setBench b { c.bench b with retired := p :: (c.bench b).retired }).dec (F.BENCH_CORES_HEALTHY b)
    d.logicalOf b p = some k → d.freeSpare b = some sp → c.retireCore b p =
      (let c := (d.put (F.BENCH_MAP_PHYS b k) sp).dec (F.BENCH_CORES_SPARES_FREE b)
       let c := (c.setBench b { c.bench b with spareNext := true }).ev (benchHalf b) 0x0200 [b, k, p, sp]
       c.spareTaken (benchHalf b) 3 b sp (4 - c.q (F.BENCH_CORES_SPARES_FREE b))) := by
  intro d hlogical hspare
  unfold Chip.retireCore
  extract_lets +onlyGivenNames h x e
  have he : e = d := rfl
  have hh : h = benchHalf b := rfl
  rw [he, hh]
  clear_value d h e x
  rw [hlogical, hspare]

section
variable {s : State}

theorem exec_gougeTask {id : CmdId} {m n : Cmd} {far : Far} (htake : s.chip.takeable id (· == 0x20) = some m) (hn : n = m.cores60)
    (hclass : (n.train && n.owner.part != 0 && s.chip.partClass n.owner.part == 0) = false)
    (hgranted : n.taskBenches.any (s.chip.benchRefused n) = false) (hcapH : s.chip.taskOver n .H = false) (hcapT : s.chip.taskOver n .T = false)
    (hfree : n.taskBenches.all (s.chip.benchFree n) = true) (hfirst : s.chip.taskOutranked n = false)
    (hprog : s.chip.reachCause n.half n.owner false n.progAddr n.progLen far = none)
    (harg : s.chip.reachCause n.half n.owner false n.argAddr n.argLen far = none) :
    exec (.gougeTask id far) s = .next (s.withChip (
      let c := s.chip.touches n [(n.progAddr, n.progLen), (n.argAddr, n.argLen)]
      Chip.startTask { c with freeCnt := c.freeCnt + b2n (inWindow n.progAddr || inWindow n.argAddr) } n
        (s.chip.load n.progAddr n.progLen) (s.chip.load n.argAddr n.argLen))) := by
  have hexec : exec (.gougeTask id far) s = execGougeTask id s far := rfl
  unfold execGougeTask at hexec
  have hclass' : ¬ (n.train = true ∧ n.owner.part ≠ 0 ∧ s.chip.partClass n.owner.part = 0) := by
    rintro ⟨htrain, hpart, hcls⟩
    rw [htrain, bne_iff_ne.2 hpart, hcls] at hclass
    exact nomatch hclass
  have hcap : ¬ (s.chip.taskOver n .H = true ∨ s.chip.taskOver n .T = true) := by
    rw [hcapH, hcapT]
    exact fun h => h.elim nofun nofun
  have hturn : ¬ (¬ n.taskBenches.all (s.chip.benchFree n) = true ∨ s.chip.taskOutranked n = true) := by
    rw [hfree, hfirst]
    exact fun h => h.elim (fun h => h rfl) nofun
  simp only [htake, ← hn, if_neg hclass', if_neg (Bool.eq_false_iff.1 hgranted), if_neg hcap, if_neg hturn, Chip.readSeen_clean hprog,
    Chip.readSeen_clean harg] at hexec
  exact hexec.trans (s.go_eq _)

end

/-- Settles O10: start, completion, replacement and retirement take the branches that their statements name. -/
theorem gougeTasks : Obligations.GougeTasks := by
  unfold Obligations.GougeTasks
  refine ⟨fun id m far s htake hclass hgranted hcapH hcapT hfree hfirst hprog harg =>
      exec_gougeTask htake rfl hclass hgranted hcapH hcapT hfree hfirst hprog harg, fun id m s hm hop hstage hover => ⟨?_, Chip.latest_stopTask hm hstage hover⟩,
    ?_, ?_⟩
  · have hexec : exec (.gougeTaskCompletion id) s = execGougeTaskCompletion id s := rfl
    have hrun : ¬ (m.opcode ≠ 0x20 ∨ m.stage ≠ .running ∨ ¬ s.chip.taskOver? m = true) :=
      fun h => h.elim (fun h => h hop) fun h => h.elim (fun h => h hstage) fun h => h hover
    unfold execGougeTaskCompletion at hexec
    simp only [hm, if_neg hrun] at hexec
    exact hexec.trans (s.go_eq _)
  · intro b p k sp s hdue hup hclocked hidle hin hserves _ hlogical hspare
    have hexec : exec (.coreTest b p false) s = execCoreTest b p false s := rfl
    have hfails : ¬ (false = true ∨ ¬ (s.chip.on (F.BENCH_CTL_TEST_EN b) || decide (s.chip.q (F.SYS_START_PHASE (benchHalf b).idx) < 7)) = true ∨
        s.chip.down.get (benchHalf b) = true ∨ ¬ s.chip.unitOn (8 + b) = true ∨ (s.chip.bench b).task.isSome = true ∨
        (s.chip.bench b).retired.contains p.val = true ∨ s.chip.on (F.BENCH_STATUS_RETIRED b) = true) := by
      rw [hdue, hup, hclocked, hidle, hin, hserves]
      simp only [Bool.true_or, Option.isSome_none, Bool.false_eq_true, not_true_eq_false, or_self, not_false_eq_true]
    exact (hexec.trans (if_neg hfails)).trans ((congrArg s.go (Chip.retireCore_spare hlogical hspare)).trans (s.go_eq _))
  · intro i b s hcause hup hserves
    have hexec : exec (.benchRetire i b) s = execBenchRetire i b s := rfl
    unfold execBenchRetire at hexec
    simp only [hcause, if_neg (Bool.eq_false_iff.1 hup)] at hexec
    refine hexec.trans ((congrArg s.go ?_).trans (s.go_eq _))
    exact (if_neg (Bool.eq_false_iff.1 hserves)).trans (if_congr Option.isNone_iff_eq_none rfl rfl)

/-! ### Errors of the stores -/

section
variable {c : Chip} {a off row : Nat}

/-- What an array's store does with a row that has shown a corrected error: a second one within the hour takes a redundant row. -/
def Chip.rowNoted (c : Chip) (a row : Nat) : Chip :=
  let free := c.q (F.ARRAY_SPARES_STORE_ROWS_FREE a)
  if c.storeErrs.contains (a, row) then
    (let d : Chip := { c with storeErrs := c.storeErrs.erase (a, row) }
     if 0 < free then ((d.dec (F.ARRAY_SPARES_STORE_ROWS_FREE a)).ev (arrayHalf a) 0x0112 [a, row]).spareTaken (arrayHalf a) 2 a (384 - free) (385 - free) else d)
  else { c with storeErrs := (a, row) :: c.storeErrs }

theorem Chip.arrayCorrected_eq (c : Chip) (a off row : Nat) : c.arrayCorrected a off row =
    (let c := c.inc (F.ARRAY_ECC_CORR a)
     (if c.on (F.ARRAY_CTL_EVT_CORR_EN a) then c.ev (arrayHalf a) 0x0110 (a :: storeArea off) else c).rowNoted a row) := by
  unfold Chip.arrayCorrected
  extract_lets +onlyGivenNames h e d
  have hd : (if e.on (F.ARRAY_CTL_EVT_CORR_EN a) then e.ev (arrayHalf a) 0x0110 (a :: storeArea off) else e) = d := rfl
  rw [hd]
  clear_value d
  unfold Chip.rowNoted Chip.rowWorn
  by_cases hworn : d.storeErrs.contains (a, row) = true
  · rw [if_pos hworn, if_pos hworn]
    exact if_congr (and_iff_right rfl) rfl rfl
  · rw [if_neg hworn, if_neg hworn]
    exact if_neg fun h => nomatch h.1

/-- What an uncorrectable error of an array's own store leaves before its command ends. -/
theorem Chip.arrayUncorrectable_lost {c d : Chip} {j : ArrJob} {m : Cmd} (h : c.arrayLost a off (some m) = d) : c.arrayUncorrectable a off j m =
    (let x := d.arr a
     (d.setArr a { x with
       shadow := x.shadow.filter fun t => t.1 != j.id
       jobs := x.jobs.map fun k => if k.id = j.id then { j with loading := false, streamed := j.vecs, drained := j.rows } else k }).setCmd
       (m.endWith .fault (jobDetail a j.sat j.streamed))) := by
  subst h
  rfl

theorem Chip.arrayLost_inside (m : Cmd) (hoff : off < 0xC00000) : c.arrayLost a off (some m) =
    (let o : Owner := BitVec.ofNat 13 (c.q (F.ARRAY_STATUS_OWNER a))
     let c := (c.inc (F.ARRAY_ECC_UNCORR a)).evBy (arrayHalf a) 0x0111 (some m.id.ring.val) o (a :: storeArea off ++ [o.toNat])
     c.storeRaw (arrayStore a + alignDown off 8) (List.replicate 8 0)) := by
  unfold Chip.arrayLost
  extract_lets +onlyGivenNames o d w
  rw [if_pos hoff]
  rfl

end

section
variable {a : Fin 8} {s : State} (hhalt : s.chip.engineHalted (.array a) = false) (o : StoreObs 0xC00000)
include hhalt

theorem exec_storeStep : exec (.swap a o) s = .next (s.withChip (s.chip.storeRead a o (s.chip.nextSwap a) fun c => c.swap a)) ∧
    exec (.vectorEntry a o) s = .next (s.withChip (s.chip.storeRead a o (s.chip.nextVector a) fun c => c.enterVector a)) ∧
    exec (.drainRow a o) s = .next (s.withChip (s.chip.storeRead a o (s.chip.nextDrain a) fun c => c.drain a)) :=
  have hgoes := Bool.eq_false_iff.1 hhalt
  ⟨(if_neg hgoes).trans (s.go_eq _), (if_neg hgoes).trans (s.go_eq _), (if_neg hgoes).trans (s.go_eq _)⟩

end

theorem Chip.storeRead_corrected {c : Chip} {a : Nat} {off : Fin 0xC00000} {row : BitVec 16} {p : ArrJob × Cmd} {next : Option (ArrJob × Cmd)}
    {act : Chip → Chip} (hraces : c.noteRaces a = c) (hnext : next = some p) :
    c.storeRead a (.corrected off row) next act = act (c.arrayCorrected a off row.toNat) := by
  subst hnext
  exact congrArg (fun d : Chip => act (d.arrayCorrected a off row.toNat)) hraces

theorem Chip.storeRead_uncorrectable {c : Chip} {a : Nat} {off : Fin 0xC00000} {row : BitVec 16} {j : ArrJob} {m : Cmd} {next : Option (ArrJob × Cmd)}
    {act : Chip → Chip} (hnext : next = some (j, m)) : c.storeRead a (.uncorrectable off row) next act = c.arrayUncorrectable a off j m := by
  subst hnext
  rfl

theorem exec_gougeInstruction {b : Fin 32} {k : Fin 60} {s : State} (hrun : s.chip.coreRuns b k = true) (o : StoreObs 0x210000) :
    exec (.gougeInstruction b k o) s = .next (s.withChip (s.chip.coreStep b k o fun c => c.instrStep b k)) :=
  (if_neg (not_not_intro hrun)).trans (s.go_eq _)

/-- An uncorrectable error of the store that the cores of a bench share ends the task there. -/
theorem Chip.benchUncorrectable_shared {c : Chip} {b k off : Nat} (row : Nat) {m : Cmd} (htask : (c.bench b).task.bind c.cmd? = some m)
    (hoff : off < 0x200000) : c.benchUncorrectable b k off row =
    (let c := c.inc (F.BENCH_ECC_UNCORR b)
     let c := c.evCmd (benchHalf b) 0x0211 m (b :: benchArea k off ++ [c.q (F.BENCH_STATUS_OWNER b)])
     let v := (Config.freeValue c.freeCnt).toNat
     ((Chip.stopTask { c with freeCnt := c.freeCnt + 1 } m).complete (m.endWith .fault v) v).storeRaw (benchStore b + alignDown off 8)
       (List.replicate 8 0)) := by
  have hgone (d : Chip) : d.coreGone b k off = false := by
    unfold Chip.coreGone
    rw [decide_eq_false (Nat.not_le.2 hoff), Bool.false_and]
  have hplace : benchAt b k (alignDown off 8) = benchStore b + alignDown off 8 := if_pos (Nat.lt_of_le_of_lt (Nat.div_mul_le_self _ _) hoff)
  have hmend (d : Chip) : d.benchMend b k off row = d.storeRaw (benchStore b + alignDown off 8) (List.replicate 8 0) := by
    unfold Chip.benchMend
    extract_lets +onlyGivenNames retire e
    rw [if_pos hoff, ← hplace]
  unfold Chip.benchUncorrectable
  extract_lets +onlyGivenNames h e d retire
  have htask' : (e.bench b).task.bind e.cmd? = some m := htask
  have hretire : retire = false := hgone e
  have hd : d = b :: benchArea k off ++ [e.q (F.BENCH_STATUS_OWNER b)] := rfl
  rw [hmend]
  clear_value e retire d
  subst hretire hd
  rw [htask']
  rfl

/-- Settles O15: each read takes the branch of its observation. -/
theorem storeErrors : Obligations.StoreErrors := by
  unfold Obligations.StoreErrors
  refine ⟨fun a off row p s hhalt hraces => ?_, fun a off row j m s hhalt => ?_, fun b k off row m s hrun => ⟨?_, fun htask hoff => ?_⟩⟩
  · obtain ⟨hswap, hvector, hdrain⟩ := exec_storeStep hhalt (.corrected off row)
    have hstep (t : Chip) (ht : s.chip.arrayCorrected a off row.toNat = t) :
        (s.chip.nextSwap a = some p → exec (.swap a (.corrected off row)) s = .next (s.withChip (t.swap a))) ∧
        (s.chip.nextVector a = some p → exec (.vectorEntry a (.corrected off row)) s = .next (s.withChip (t.enterVector a))) ∧
        (s.chip.nextDrain a = some p → exec (.drainRow a (.corrected off row)) s = .next (s.withChip (t.drain a))) := by
      subst ht
      exact ⟨fun hnext => hswap.trans (by rw [Chip.storeRead_corrected hraces hnext]), fun hnext => hvector.trans (by rw [Chip.storeRead_corrected hraces hnext]),
        fun hnext => hdrain.trans (by rw [Chip.storeRead_corrected hraces hnext])⟩
    exact hstep _ (Chip.arrayCorrected_eq _ _ _ _)
  · obtain ⟨hswap, hvector, hdrain⟩ := exec_storeStep hhalt (.uncorrectable off row)
    have hstep (t : Chip) (ht : s.chip.arrayUncorrectable a off j m = t) :
        (s.chip.nextSwap a = some (j, m) → exec (.swap a (.uncorrectable off row)) s = .next (s.withChip t)) ∧
        (s.chip.nextVector a = some (j, m) → exec (.vectorEntry a (.uncorrectable off row)) s = .next (s.withChip t)) ∧
        (s.chip.nextDrain a = some (j, m) → exec (.drainRow a (.uncorrectable off row)) s = .next (s.withChip t)) := by
      subst ht
      exact ⟨fun hnext => hswap.trans (by rw [Chip.storeRead_uncorrectable hnext]), fun hnext => hvector.trans (by rw [Chip.storeRead_uncorrectable hnext]),
        fun hnext => hdrain.trans (by rw [Chip.storeRead_uncorrectable hnext])⟩
    exact hstep _ (Chip.arrayUncorrectable_lost (Chip.arrayLost_inside m off.isLt))
  · exact exec_gougeInstruction hrun _
  · exact (exec_gougeInstruction hrun _).trans (congrArg (fun k => Host.Outcome.next (s.withChip k)) (Chip.benchUncorrectable_shared row.toNat htask hoff))

end Machine

end Sys2Proof

/-! PROOF. Machine I/O (R381–R394). -/

namespace Sys2Proof

namespace Machine

/-! ### FP32 patterns -/

theorem withSign_lt (s : Bool) {v : Nat} (hv : v < 2 ^ 31) : fp32.withSign s v < 2 ^ 32 := by
  have hs : b2n s ≤ 1 := by cases s <;> decide
  have hw : fp32.withSign s v = v + 2 ^ 31 * b2n s := rfl
  omega

theorem roundFin_pat_lt (mode : Rm) (s : Bool) (m : Nat) (e : Int) : (fp32.roundFin mode s m e).pat < 2 ^ 32 := by
  unfold Fmt.roundFin
  split
  · exact withSign_lt s (by decide)
  · extract_lets +onlyGivenNames emin q
    split
    next k0 inex hround =>
    extract_lets +onlyGivenNames k1 tiny
    split
    next k q' hcarry =>
    extract_lets +onlyGivenNames pat
    split
    · exact withSign_lt s (by decide)
    · next hle => exact withSign_lt s (Nat.lt_of_le_of_lt (Nat.not_lt.1 hle) (by decide))

theorem toFp32_lt (v : FV) : toFp32 v < 2 ^ 32 := by
  unfold toFp32 Fmt.roundIeee
  cases v with
  | nan => decide
  | inf s => exact withSign_lt s (by decide)
  | fin s m e =>
    have hr := roundFin_pat_lt .rne s m e
    dsimp only
    generalize fp32.roundFin .rne s m e = r at hr ⊢
    split
    · exact withSign_lt s (by decide)
    · exact hr

/-! ### Outputs -/

theorem eventPart_hio : EventPart fun c => c.hio := fun _ _ _ _ _ _ _ _ _ _ _ _ => rfl

theorem Chip.hio_setHio (c : Chip) (h : Half) (x : HioSt) : (c.setHio h x).hio.get h = x := Pair.get_set_same _ _ _

/-- A register of the machine's I/O is none that an event writes. -/
theorem hio_quiet {a : Nat} (hlo : 0x1300000 ≤ a) (hhi : a < 0x1400000) : ¬ eventReg a := by
  unfold eventReg Reg.WEAR_LOG_CNT
  omega

theorem idx_le (h : Half) : h.idx ≤ 1 := by
  cases h <;> decide

section
variable {h : Half} {s : State}

theorem exec_pwmPeriodStart (n : Fin 16) (hup : s.chip.down.get h = false) : exec (.pwmPeriodStart h n) s = .next (s.withChip (s.chip.pwmStart h n)) :=
  (congrArg s.go (if_neg (Bool.eq_false_iff.1 hup))).trans (s.go_eq _)

theorem exec_readbackMismatch (n : Fin 16) (hen : s.chip.outEn h = true) (hrb : s.chip.on (F.HIO_DO_CFG_RB_EN h.idx n) = true) :
    exec (.readbackMismatch h n) s = .next (s.withChip ((s.chip.put (F.HIO_DO_STATE_DO_FAULT h.idx)
      (setBit (s.chip.q (F.HIO_DO_STATE_DO_FAULT h.idx)) n true)).ev h 0x0930 [n + 16 * h.idx, b2n (s.chip.doLevel h n)])) := by
  have hexec : exec (.readbackMismatch h n) s = execReadbackMismatch h n s := rfl
  have hpin : s.chip.doPin h n = some (s.chip.doLevel h n) := if_pos hen
  unfold execReadbackMismatch at hexec
  simp only [hrb, hpin] at hexec
  exact hexec.trans (s.go_eq _)

end

/-- The fault bits after one is latched. -/
theorem bit_latched (c : Chip) (h : Half) (n : Fin 16) (code : Nat) (l : List Nat) {k : Nat} (hk : k < 16) :
    bit (((c.put (F.HIO_DO_STATE_DO_FAULT h.idx) (setBit (c.q (F.HIO_DO_STATE_DO_FAULT h.idx)) n true)).ev h code l).q (F.HIO_DO_STATE_DO_FAULT h.idx)) k =
      (bit (c.q (F.HIO_DO_STATE_DO_FAULT h.idx)) k || k == n.val) := by
  have hquiet : ¬ eventReg (F.HIO_DO_STATE_DO_FAULT h.idx).addr := by cases h <;> exact hio_quiet (by decide) (by decide)
  have hq := (Chip.q_ev (c.put (F.HIO_DO_STATE_DO_FAULT h.idx) (setBit (c.q (F.HIO_DO_STATE_DO_FAULT h.idx)) n true)) h code l hquiet).trans
    (c.q_put_same (F.HIO_DO_STATE_DO_FAULT h.idx) _ (Nat.le_of_ble_eq_true rfl))
  have hwid : (F.HIO_DO_STATE_DO_FAULT h.idx).wid = 16 := rfl
  rw [hq, hwid, bit_eq_testBit, bit_eq_testBit, Nat.testBit_mod_two_pow, testBit_setBit, decide_eq_true hk, Bool.true_and]
  by_cases hn : k = n.val
  · rw [if_pos hn, beq_iff_eq.2 hn, Bool.or_true]
  · rw [if_neg hn, beq_eq_false_iff_ne.2 hn, Bool.or_false]

/-! ### The converter -/

theorem nextChannel_lt {seq last n : Nat} (hn : nextChannel seq last = some n) : n < 16 := by
  unfold nextChannel at hn
  split at hn
  · next m hm =>
    obtain rfl := Option.some.inj hn
    exact List.mem_range.1 (List.mem_of_find?_eq_some hm)
  · exact List.mem_range.1 (List.mem_of_find?_eq_some hn)

/-- The conversion of a channel. -/
theorem exec_adcConversion {h : Half} {code : BitVec 12} {n : Nat} {s : State}
    (hn : nextChannel (s.chip.q (F.HIO_ADC_SEQ_SEQ h.idx)) (s.chip.hio.get h).adcLast = some n) :
    ∃ t, exec (.adcConversion h code) s = .next (s.withChip t) ∧ (t.hio.get h).adcLast = n ∧ t.q (F.HIO_ADC_VAL_VALUE h.idx n) =
      if s.chip.q (F.HIO_ADC_WIN_MIN h.idx n) ≤ code.toNat ∧ code.toNat ≤ s.chip.q (F.HIO_ADC_WIN_MAX h.idx n) then
        toFp32 ((FV.ofInt ((code.toNat : Int) - s.chip.q (F.HIO_ADC_OFF_OFF h.idx n))).mul (v32 (s.chip.q (F.HIO_ADC_GAIN_GAIN h.idx n))))
      else 0x7FC00000 := by
  have hexec : exec (.adcConversion h code) s = execAdcConversion h code s := rfl
  unfold execAdcConversion at hexec
  simp only [hn] at hexec
  have haddr : (F.HIO_ADC_VAL_VALUE h.idx n).addr = 0x1301100 + h.idx * 0x80000 + n * 0x4 := rfl
  have hlt := nextChannel_lt hn
  have hidx := idx_le h
  have hquiet : ¬ eventReg (F.HIO_ADC_VAL_VALUE h.idx n).addr := hio_quiet (by omega) (by omega)
  refine ⟨_, hexec.trans (s.go_eq _), ?_, ?_⟩
  · exact congrArg (fun x : Pair HioSt => (x.get h).adcLast) (ite_keeps (f := fun c : Chip => c.hio) (eventPart_hio.ev _ _ _ _) rfl) |>.trans
      (congrArg HioSt.adcLast (Chip.hio_setHio s.chip h _))
  · refine (ite_keeps (f := fun c : Chip => c.q (F.HIO_ADC_VAL_VALUE h.idx n)) (Chip.q_ev _ _ _ _ hquiet) rfl).trans
      ((Chip.q_put_same _ _ _ (Nat.le_of_ble_eq_true rfl)).trans ?_)
    refine (Nat.mod_eq_of_lt ?_).trans (if_congr decide_eq_true_iff rfl rfl)
    split
    · exact toFp32_lt _
    · exact (by decide : (0x7FC00000 : Nat) < 2 ^ 32)

/-! ### Encoders and inputs -/

section
variable {c : Chip} {h : Half} {n : Nat}

/-- A count up or down of a position is one of 32 bits. -/
theorem position_counted {j : Nat} (pos : Nat) (hj : j = 1 ∨ j = 3) :
    (if j = 1 then (pos + 1) % 2 ^ 32 else (pos + 2 ^ 32 - 1) % 2 ^ 32) % 2 ^ 32 =
      if j = 1 then (pos + 1) % 2 ^ 32 else if j = 3 then (pos + 2 ^ 32 - 1) % 2 ^ 32 else pos := by
  rcases hj with rfl | rfl
  · rw [if_pos rfl, if_pos rfl, Nat.mod_mod]
  · rw [if_neg (by decide), if_neg (by decide), if_pos rfl, Nat.mod_mod]

/-- What a step of an encoder comes to, by the jump of its phase. -/
theorem Chip.encMove_reads (hn : n < 8) (ab : Nat) :
    let pos := c.q (F.HIO_ENC_POS_VALUE h.idx n)
    let d := (quadPhase ab + 4 - quadPhase (Tbl.look 0 (c.hio.get h).encAB n)) % 4
    (c.encMove h n ab).q (F.HIO_ENC_POS_VALUE h.idx n) = (if d = 1 then (pos + 1) % 2 ^ 32 else if d = 3 then (pos + 2 ^ 32 - 1) % 2 ^ 32 else pos) ∧
      (c.encMove h n ab).q (F.HIO_ENC_ERR_VALUE h.idx n) =
        (if d = 2 then min (c.q (F.HIO_ENC_ERR_VALUE h.idx n) + 1) 0xFFFF else c.q (F.HIO_ENC_ERR_VALUE h.idx n)) := by
  have hidx := idx_le h
  have hpos : ¬ eventReg (F.HIO_ENC_POS_VALUE h.idx n).addr := by
    have haddr : (F.HIO_ENC_POS_VALUE h.idx n).addr = 0x1301200 + h.idx * 0x80000 + n * 0x10 := rfl
    exact hio_quiet (by omega) (by omega)
  have herr : ¬ eventReg (F.HIO_ENC_ERR_VALUE h.idx n).addr := by
    have haddr : (F.HIO_ENC_ERR_VALUE h.idx n).addr = 0x1301208 + h.idx * 0x80000 + n * 0x10 := rfl
    exact hio_quiet (by omega) (by omega)
  have hne : (F.HIO_ENC_POS_VALUE h.idx n).addr ≠ (F.HIO_ENC_ERR_VALUE h.idx n).addr := by
    have hp : (F.HIO_ENC_POS_VALUE h.idx n).addr = 0x1301200 + h.idx * 0x80000 + n * 0x10 := rfl
    have he : (F.HIO_ENC_ERR_VALUE h.idx n).addr = 0x1301208 + h.idx * 0x80000 + n * 0x10 := rfl
    omega
  intro pos d
  have hd : d < 4 := Nat.mod_lt _ (by decide)
  unfold Chip.encMove
  extract_lets +onlyGivenNames x old x1 d' e
  have hdd : d' = d := rfl
  rw [hdd]
  generalize d = j at hd ⊢
  by_cases h0 : j = 0
  · subst h0
    exact ⟨rfl, rfl⟩
  · rw [if_neg h0]
    by_cases h2 : j = 2
    · subst h2
      rw [if_pos rfl]
      have hq := Chip.q_put_same (c.setHio h { x1 with encRun := setBit x.encRun n true }) (F.HIO_ENC_ERR_VALUE h.idx n)
        (min (c.q (F.HIO_ENC_ERR_VALUE h.idx n) + 1) 0xFFFF) (Nat.le_of_ble_eq_true rfl)
      refine ⟨?_, ?_⟩
      · exact (ite_keeps (f := fun y : Chip => y.q (F.HIO_ENC_POS_VALUE h.idx n)) rfl (Chip.q_ev _ _ _ _ hpos)).trans (Chip.q_put_ne _ _ hne)
      · refine (ite_keeps (f := fun y : Chip => y.q (F.HIO_ENC_ERR_VALUE h.idx n)) rfl (Chip.q_ev _ _ _ _ herr)).trans (hq.trans ?_)
        exact Nat.mod_eq_of_lt (Nat.lt_of_le_of_lt (Nat.min_le_right _ _) (Nat.le_of_ble_eq_true rfl))
    · rw [if_neg h2]
      have h13 : j = 1 ∨ j = 3 := by omega
      have hput (e : Chip) (v : Nat) : (e.put (F.HIO_ENC_POS_VALUE h.idx n) v).q (F.HIO_ENC_POS_VALUE h.idx n) = v % 2 ^ 32 :=
        Chip.q_put_same _ _ _ (Nat.le_of_ble_eq_true rfl)
      refine ⟨?_, ?_⟩
      · exact (hput _ _).trans (position_counted pos h13)
      · rw [if_neg h2]
        exact Chip.q_put_ne _ _ hne.symm

/-- The filtered levels of the inputs of a half, and since when an input has its level. -/
def Chip.inputSeen (c : Chip) (h : Half) (n : Nat) : Nat × Option Nat := ((c.hio.get h).diLevel, Tbl.find? (c.hio.get h).diSince n)

theorem Chip.inputSeen_setHio {x : HioSt} (hlevel : x.diLevel = (c.hio.get h).diLevel) (hsince : x.diSince = (c.hio.get h).diSince) :
    (c.setHio h x).inputSeen h n = c.inputSeen h n := by
  unfold Chip.inputSeen
  rw [Chip.hio_setHio, hlevel, hsince]

theorem Chip.inputSeen_of_hio {d : Chip} (hd : d.hio = c.hio) : d.inputSeen h n = c.inputSeen h n := congrArg (fun p : Pair HioSt => ((p.get h).diLevel, Tbl.find? (p.get h).diSince n)) hd

theorem Chip.hio_syncDi (c : Chip) (h : Half) (n : Nat) : (c.syncDi h n).hio = c.hio := eventPart_hio.put _ _ _

theorem Chip.hio_setStuck (c : Chip) (h : Half) (n : Nat) (on : Bool) : (c.setStuck h n on).hio = c.hio :=
  (Chip.hio_syncDi _ h n).trans ((eventPart_hio.ev _ _ _ _).trans (eventPart_hio.put _ _ _))

theorem Chip.inputSeen_setChatter (on : Bool) (edges : Nat) : (c.setChatter h n on edges).inputSeen h n = c.inputSeen h n := by
  unfold Chip.setChatter
  extract_lets +onlyGivenNames x d
  have hd : d.inputSeen h n = c.inputSeen h n := ite_keeps (f := fun y : Chip => y.inputSeen h n) (Chip.inputSeen_setHio rfl rfl) rfl
  have hio (y : Chip) (v : Nat) : (((y.put (F.HIO_DI_CHATTER_INPUT h.idx) v).ev h 0x0921 [n + 32 * h.idx, b2n on, edges]).syncDi h n).hio = y.hio :=
    (Chip.hio_syncDi _ h n).trans ((eventPart_hio.ev _ _ _ _).trans (eventPart_hio.put _ _ _))
  exact (Chip.inputSeen_of_hio (hio d _)).trans hd

theorem Chip.syncDi_same {g : RF} (hst : g.addr = Reg.HIO_DI_CNT h.idx n) (d : Chip) : SameField g d (d.syncDi h n) := by
  refine (SameField.refl d).put ⟨Nat.le_of_ble_eq_true rfl, .inl ?_⟩ _
  rw [hst]
  have hl : (F.HIO_DI_LEVEL_INPUT h.idx).addr = 0x1301000 + h.idx * 0x80000 := rfl
  unfold Reg.HIO_DI_CNT
  omega

section
variable {g : RF} (hquiet : ¬ eventReg g.addr) (hst : g.addr = Reg.HIO_DI_CNT h.idx n)
include hquiet hst

theorem Chip.setStuck_same (d : Chip) (on : Bool) : SameField g d (d.setStuck h n on) := by
  refine (((SameField.refl d).put ⟨Nat.le_of_ble_eq_true rfl, .inl ?_⟩ _).ev hquiet _ _ _).trans (Chip.syncDi_same hst _)
  rw [hst]
  have hl : (F.HIO_DI_STUCK_ST_INPUT h.idx).addr = 0x1301008 + h.idx * 0x80000 := rfl
  unfold Reg.HIO_DI_CNT
  omega

theorem Chip.setChatter_same (d : Chip) (on : Bool) (edges : Nat) : SameField g d (d.setChatter h n on edges) := by
  unfold Chip.setChatter
  extract_lets +onlyGivenNames x e
  have he : SameField g d e := .ite (.of_regs rfl rfl) (.refl d)
  refine ((he.put ⟨Nat.le_of_ble_eq_true rfl, .inl ?_⟩ _).ev hquiet _ _ _).trans (Chip.syncDi_same hst _)
  rw [hst]
  have hl : (F.HIO_DI_CHATTER_INPUT h.idx).addr = 0x1301004 + h.idx * 0x80000 := rfl
  unfold Reg.HIO_DI_CNT
  omega

end

/-- What an accepted edge leaves of the input. -/
theorem Chip.diEdge_reads {level : Bool} (hn : n < 32) (hne : bit (c.hio.get h).diLevel n ≠ level) :
    (c.diEdge h n level).inputSeen h n = (setBit (c.hio.get h).diLevel n level, some (c.stamp h 0)) ∧
      (c.diEdge h n level).q (F.HIO_DI_CNT_COUNT h.idx n) = (c.inc (F.HIO_DI_CNT_COUNT h.idx n)).q (F.HIO_DI_CNT_COUNT h.idx n) := by
  have hquiet : ¬ eventReg (F.HIO_DI_CNT_COUNT h.idx n).addr := by
    have haddr : (F.HIO_DI_CNT_COUNT h.idx n).addr = 0x1301300 + h.idx * 0x80000 + n * 0x4 := rfl
    have hidx := idx_le h
    exact hio_quiet (by omega) (by omega)
  unfold Chip.diEdge
  extract_lets +onlyGivenNames x edges c1 c2 active c3 was c4 e wanted
  rw [if_neg hne]
  have h1 : c1.inputSeen h n = (setBit (c.hio.get h).diLevel n level, some (c.stamp h 0)) := by
    have hget : c1.hio.get h = _ := Chip.hio_setHio c h _
    unfold Chip.inputSeen
    rw [hget]
    exact Prod.ext rfl (Tbl.find?_ins_same _ _ _)
  have h2 : c2.inputSeen h n = c1.inputSeen h n := Chip.inputSeen_of_hio ((Chip.hio_syncDi _ h n).trans (eventPart_hio.inc _ _))
  have h3 : c3.inputSeen h n = c2.inputSeen h n := ite_keeps (f := fun y : Chip => y.inputSeen h n) (Chip.inputSeen_of_hio (Chip.hio_setStuck _ _ _ _)) rfl
  have h4 : c4.inputSeen h n = c3.inputSeen h n := ite_keeps (f := fun y : Chip => y.inputSeen h n) (Chip.inputSeen_setChatter _ _) rfl
  have q2 : c2.q (F.HIO_DI_CNT_COUNT h.idx n) = (c.inc (F.HIO_DI_CNT_COUNT h.idx n)).q (F.HIO_DI_CNT_COUNT h.idx n) :=
    (Chip.syncDi_same rfl (c1.inc (F.HIO_DI_CNT_COUNT h.idx n))).q
  have q3 : SameField (F.HIO_DI_CNT_COUNT h.idx n) c2 c3 := .ite (Chip.setStuck_same hquiet rfl _ _) (.refl _)
  have q4 : SameField (F.HIO_DI_CNT_COUNT h.idx n) c3 c4 := .ite (Chip.setChatter_same hquiet rfl _ _ _) (.refl _)
  clear_value c1 c2 c3 c4
  refine ⟨?_, ?_⟩
  · refine Eq.trans ?_ (h4.trans (h3.trans (h2.trans h1)))
    split
    · exact Chip.inputSeen_setHio rfl rfl
    · rfl
  · refine Eq.trans ?_ (q4.q.trans (q3.q.trans q2))
    split
    · exact Chip.q_of_regs rfl _
    · rfl

end

section
variable {h : Half} {s : State}

theorem exec_chatterWindowEnd (n : Fin 32) :
    let x := s.chip.hio.get h
    let edges := Tbl.look 0 x.diEdges n
    let c := s.chip.setHio h { x with diEdges := Tbl.put 0 x.diEdges n 0 }
    exec (.chatterWindowEnd h n) s = .next (s.withChip (if bit (c.q (F.HIO_DI_CHATTER_INPUT h.idx)) n = true ∧ edges ≤ c.q (F.HIO_DI_RATE_CHAT_MAX h.idx n) / 2
      then c.setChatter h n false edges else c)) := s.go_ite _ _ _

theorem exec_stuckTimeout {n : Fin 32} (hpos : 0 < s.chip.q (F.HIO_DI_STUCK_STUCK h.idx n)) (hact : s.chip.diActive h n = true)
    (hbit : bit (s.chip.q (F.HIO_DI_STUCK_ST_INPUT h.idx)) n = false)
    (hlong : ((s.chip.q (F.HIO_DI_STUCK_STUCK h.idx n) * 10000 * usUnits : Nat) : Int) ≤ elapsed (s.chip.stamp h 0) (Tbl.look 0 (s.chip.hio.get h).diSince n)) :
    exec (.stuckTimeout h n) s = .next (s.withChip (s.chip.setStuck h n true)) :=
  (if_pos ⟨hpos, hact, Bool.eq_false_iff.1 hbit, hlong⟩).trans (s.go_eq _)

/-- Firmware may signal every dowel. -/
theorem Chip.signal_firmware (c : Chip) (d v : Nat) : c.signal 0 d 1 v = if c.down.get (dowelHalf d) = true then c else c.dowelAdd 0 d v := by
  by_cases hdown : c.down.get (dowelHalf d) = true
  · exact (if_pos hdown).trans (if_pos hdown).symm
  · rw [Chip.signal_eq (Bool.eq_false_iff.2 hdown) rfl, if_neg hdown, if_neg (by decide), if_pos rfl]

theorem exec_edgeNotify {n : Nat} (hpend : (s.chip.hio.get h).nextPend = some n)
    (howner : s.chip.q (F.DOWEL_ATTR_OWNER (s.chip.q (F.HIO_DI_NOTIFY_DOWEL h.idx n))) = s.chip.q (F.HIO_DI_NOTIFY_NOTIFY_OWNER h.idx n)) :
    exec (.edgeNotify h) s = .next (s.withChip (
      let x := s.chip.hio.get h
      let d := s.chip.q (F.HIO_DI_NOTIFY_DOWEL h.idx n)
      let c := s.chip.setHio h { x with diPend := Tbl.put 0 x.diPend n 0, diLast := n, diRun := setBit x.diRun n false }
      if c.down.get (dowelHalf d) = true then c else c.dowelAdd 0 d (Tbl.look 0 x.diPend n))) := by
  have hexec : exec (.edgeNotify h) s = execEdgeNotify h s := rfl
  have hlt : s.chip.q (F.HIO_DI_NOTIFY_NOTIFY_OWNER h.idx n) < 2 ^ 13 := Nat.mod_lt _ (Nat.two_pow_pos 13)
  have howned : s.chip.q (F.DOWEL_ATTR_OWNER (s.chip.q (F.HIO_DI_NOTIFY_DOWEL h.idx n))) =
      (BitVec.ofNat 13 (s.chip.q (F.HIO_DI_NOTIFY_NOTIFY_OWNER h.idx n))).toNat := by
    rw [BitVec.toNat_ofNat, Nat.mod_eq_of_lt hlt]
    exact howner
  unfold execEdgeNotify at hexec
  simp only [hpend, if_pos howned, Chip.signal_firmware] at hexec
  exact hexec.trans (s.go_eq _)

theorem exec_pwmPeriodStart_reads (n : Fin 16) (hup : s.chip.down.get h = false) :
    let p := s.chip.q (F.HIO_PWM_CFG_PERIOD h.idx n)
    let k := dutyCounts (s.chip.duty h n) p
    let first := if s.chip.on (F.HIO_PWM_CFG_ALIGN h.idx n) then (p - k) / 2 else 0
    ∃ t, exec (.pwmPeriodStart h n) s = .next (s.withChip t) ∧ Tbl.find? (t.hio.get h).pwm n = some (p, first, k) ∧
      t.regs = s.chip.regs ∧ t.hio.get h.other = s.chip.hio.get h.other := by
  refine ⟨_, exec_pwmPeriodStart n hup, ?_⟩
  unfold Chip.pwmStart
  exact ⟨(congrArg (fun x : HioSt => Tbl.find? x.pwm n) (Chip.hio_setHio s.chip h _)).trans (Tbl.find?_ins_same _ _ _),
    Chip.setHio_keeps (fun y => y.regs) (fun _ _ => rfl) _ h _, Pair.get_set_other _ _ _⟩

theorem exec_encoderTransition (n : Fin 8) (a b : Bool) (hup : s.chip.down.get h = false) :
    exec (.encoderTransition h n a b) s = .next (s.withChip (s.chip.encMove h n (2 * b2n a + b2n b))) :=
  (congrArg s.go (if_neg (Bool.eq_false_iff.1 hup))).trans (s.go_eq _)

theorem exec_inputEdge (n : Fin 32) (level : Bool) (hup : s.chip.down.get h = false) :
    exec (.inputEdge h n level) s = .next (s.withChip (s.chip.diEdge h n level)) :=
  (congrArg s.go (if_neg (Bool.eq_false_iff.1 hup))).trans (s.go_eq _)

end

/-- Settles O48: each step of the machine's I/O takes the branch its statement names, and the fields it names read so afterwards. -/
theorem machineIo : Obligations.MachineIo := by
  unfold Obligations.MachineIo
  refine ⟨fun h n s hup => exec_pwmPeriodStart_reads n hup, fun h n s hen hrb => ⟨_, exec_readbackMismatch n hen hrb, fun k hk => bit_latched s.chip h n _ _ hk⟩,
    fun h code n s hn => ?_, fun h n a b s hup => ⟨_, exec_encoderTransition n a b hup, s.chip.encMove_reads n.isLt _⟩, fun h n level s hup hne => ?_,
    fun h n s => exec_chatterWindowEnd n, fun h n s hpos hact hbit hlong => exec_stuckTimeout hpos hact hbit hlong,
    fun h n s hpend howner => exec_edgeNotify hpend howner⟩
  · obtain ⟨t, ht, hlast, hval⟩ := exec_adcConversion (code := code) hn
    exact ⟨t, ht, hlast, fun hin => hval.trans (if_pos hin), fun hout => hval.trans (if_neg hout)⟩
  · obtain ⟨hseen, hcount⟩ := Chip.diEdge_reads n.isLt hne
    obtain ⟨hlevel, hsince⟩ := Prod.mk.inj hseen
    refine ⟨_, exec_inputEdge n level hup, ?_, hsince, hcount⟩
    rw [hlevel, bit_eq_testBit, testBit_setBit, if_pos rfl]

end Machine

end Sys2Proof

/-! PROOF. The end of virtual instances (R303–R314): withdrawn work, resets, destruction. -/

namespace Sys2Proof

namespace Machine

/-! ### What the withdrawal of engines leaves -/

/-- A part of the chip that reads nothing of events, of the memory's contents and of the engines. -/
structure WorkPart {γ : Type} (f : Chip → γ) : Prop where
  event : EventPart f
  contents (c : Chip) (m : Tbl Byte) (g : Tbl Nat) (p : List Nat) : f { c with mem := m, garbled := g, poison := p } = f c
  arrays (c : Chip) (y : Tbl ArrSt) : f { c with arrays := y } = f c
  benches (c : Chip) (y : Tbl BenchSt) : f { c with benches := y } = f c
  cores (c : Chip) (y : Tbl Core) : f { c with cores := y } = f c
  rough (c : Chip) (y : Pair (Option Nat)) : f { c with roughMoved := y } = f c

section
variable {γ : Type} {f : Chip → γ}

theorem EventPart.rings (h : EventPart f) (c : Chip) (y : Tbl RingSt) : f { c with rings := y } = f c :=
  h c c.mem c.own c.filling c.cores c.poison y c.log c.flash c.ledgerSeq c.irqs c.regs

theorem EventPart.closeRing (h : EventPart f) (c : Chip) (r : Nat) : f (c.closeRing r) = f c := (h.put _ _ _).trans (h.rings _ _)

section
variable (h : WorkPart f)
include h

theorem WorkPart.zeroRange (c : Chip) (a n : Nat) : f (c.zeroRange a n) = f c := h.contents _ _ _ _

theorem WorkPart.moveRough (c : Chip) (a : Nat) : f (c.moveRough a) = f c := by
  unfold Chip.moveRough
  split
  · exact ite_keeps (h.rough _ _) rfl
  · rfl

theorem WorkPart.retireArray (c : Chip) (a cause : Nat) : f (c.retireArray a cause) = f c := by
  unfold Chip.retireArray
  refine ite_keeps rfl ?_
  extract_lets +onlyGivenNames y d e g x
  have hd : f d = f c := h.arrays _ _
  have he : f e = f d := (h.event.ev _ _ _ _).trans ((h.event.put _ _ _).trans (h.event.put _ _ _))
  have hg : f g = f e := (h.moveRough _ _).trans (h.event.unitRetired _ _ _ _ _)
  exact (ite_keeps ((h.event.put _ _ _).trans (h.arrays _ _)) rfl).trans (hg.trans (he.trans hd))

theorem WorkPart.retireDue (c : Chip) (a : Nat) : f (c.retireDue a) = f c := by
  unfold Chip.retireDue
  split
  · exact ite_keeps (h.retireArray _ _ _) rfl
  · rfl

theorem WorkPart.stopArray (c : Chip) (a : Nat) : f (c.stopArray a) = f c := by
  unfold Chip.stopArray Chip.dropArray
  refine ite_keeps ?_ ?_
  · exact (h.retireDue _ _).trans ((h.event.put _ _ _).trans ((h.event.put _ _ _).trans ((h.arrays _ _).trans (h.zeroRange _ _ _))))
  · exact (h.event.put _ _ _).trans (h.arrays _ _)

theorem WorkPart.benchReset (c : Chip) (b : Nat) (o : Owner) : f (c.benchReset b o) = f c := by
  unfold Chip.benchReset Chip.benchClear
  exact (foldl_keeps f _ (fun x e => h.cores _ _) _ _).trans ((h.cores _ _).trans ((h.zeroRange _ _ _).trans (h.zeroRange _ _ _)))

theorem WorkPart.benchDue (c : Chip) (b : Nat) : f (c.benchDue b) = f c :=
  ite_keeps ((h.event.retireBench _ _ _).trans (h.benches _ _)) rfl

end

end

section
variable {γ : Type} {f : Chip → γ} (h : WorkPart f)
include h

/-- The engines' contexts of a party gone, what is no part of them is as it was but for the saved contexts. -/
theorem WorkPart.discardContexts (c : Chip) (o : Owner) : f (c.discardContexts o) =
    f { c with actx := c.actx.filter fun e => e.2.owner != o, bctx := c.bctx.filter fun e => e.2.owner != o } := by
  unfold Chip.discardContexts
  refine (foldl_keeps f _ (fun x b => ?_) _ _).trans (foldl_keeps f _ (fun x a => ite_keeps (h.stopArray _ _) rfl) _ _)
  refine ite_keeps ?_ rfl
  exact (h.benchDue _ _).trans ((h.event.put _ _ _).trans ((h.event.put _ _ _).trans ((h.event.put _ _ _).trans ((h.benches _ _).trans (h.benchReset _ _ _)))))

end

/-! ### What the withdrawal of commands and frames leaves -/

/-- A part of the chip that reads nothing of the work that a withdrawal takes away. -/
structure FlightPart {γ : Type} (f : Chip → γ) : Prop where
  event : EventPart f
  kv (c : Chip) (y : Pair (Tbl Frame)) : f { c with kv := y } = f c
  pins (c : Chip) (y : List (CmdId × Nat)) (p q : Pair (List CmdId)) : f { c with kvPins := y, pinOps := p, pinWait := q } = f c

section
variable {γ : Type} {f : Chip → γ} (h : FlightPart f)
include h

theorem FlightPart.settle (c : Chip) (k : Half) (n : Nat) (x : Frame) : f (c.settle k n x) = f c := h.kv _ _

theorem FlightPart.countOp (c : Chip) (k : Half) (b : Bool) : f (c.countOp k b) = f c := by
  unfold Chip.countOp
  refine ite_keeps rfl ?_
  extract_lets +onlyGivenNames d
  have hd : f d = f c := h.event.setPair _ _ _ _
  exact (ite_keeps (h.event.inc _ _) rfl).trans hd

theorem FlightPart.kvUnpin (c : Chip) (id : CmdId) (n : Nat) : f (c.kvUnpin id n) = f c := by
  unfold Chip.kvUnpin
  refine ite_keeps rfl ?_
  extract_lets +onlyGivenNames d
  have hd : f d = f c := h.pins _ _ _ _
  clear_value d
  split
  · exact hd
  · exact (h.countOp _ _ _).trans ((h.settle _ _ _ _).trans hd)

theorem FlightPart.kvUnpinAll (c : Chip) (id : CmdId) : f (c.kvUnpinAll id) = f c :=
  (h.pins _ _ _ _).trans (foldl_keeps f _ (fun x (p : CmdId × Nat) => h.kvUnpin x id p.2) _ _)

theorem FlightPart.kvReset (c : Chip) (o : Owner) : f (c.kvReset o) = f c :=
  foldl_keeps f _ (fun _ _ => foldl_keeps f _ (fun _ _ => h.settle _ _ _ _) _ _) _ _

end

/-- The withdrawal of one command. -/
def Chip.withdrawOne (c : Chip) (m : Cmd) : Chip :=
  let c := { c with pins := c.pins.filter fun p => p.id != m.id, txns := c.txns.filter fun t => t.2.id != m.id || t.2.sent.isSome }
  let c := if m.opcode = 0x60 then c.leaveSlot m.slotNo m.id else c
  if (0x50 ≤ m.opcode ∧ m.opcode ≤ 0x53 ∧ (c.txns.any fun t => t.2.id == m.id)) ∨ (arrayOp m.opcode ∧ m.stage = .running) then
    c.setCmd { m with stage := .withdrawn }
  else if m.stage = .fetched then c.dropCmd m.id else (c.kvUnpinAll m.id).leave m

theorem Chip.withdrawCmds_eq (c : Chip) (o : Owner) :
    c.withdrawCmds o = (c.cmds.filter fun m => m.owner == o).foldl Chip.withdrawOne { c with gwLate := c.gwLate.filter (· != o) } := rfl

/-- A command is taken out of flight, or stays there as withdrawn. -/
theorem Chip.cmds_withdrawn (c : Chip) (m : Cmd) :
    ((c.withdrawOne m).cmds = c.cmds.map fun x => if x.id = m.id then { m with stage := .withdrawn } else x) ∨ (c.withdrawOne m).cmds = c.cmds.filter fun x => x.id != m.id := by
  unfold Chip.withdrawOne
  extract_lets +onlyGivenNames d d'
  have hd : d'.cmds = c.cmds := ite_keeps (f := fun y : Chip => y.cmds) rfl rfl
  have hflight : FlightPart fun y : Chip => y.cmds := ⟨eventPart_cmds, fun _ _ => rfl, fun _ _ _ _ => rfl⟩
  split
  · rw [← hd]
    exact .inl rfl
  · refine .inr ?_
    split
    · rw [← hd]
      rfl
    · have hun : (d'.kvUnpinAll m.id).cmds = c.cmds := (hflight.kvUnpinAll _ _).trans hd
      rw [← hun]
      exact Chip.leave_keeps eventPart_cmds (d'.kvUnpinAll m.id) m (d'.kvUnpinAll m.id).regs

section
variable {γ : Type} {f : Chip → γ} (h : FlightPart f)
include h

theorem FlightPart.withdrawCmds (hc : ∀ c y, f { c with cmds := y } = f c) (hs : ∀ c y, f { c with slots := y } = f c)
    (hp : ∀ (c : Chip) p t, f { c with pins := p, txns := t } = f c) (hg : ∀ c y, f { c with gwLate := y } = f c) (c : Chip) (o : Owner) :
    f (c.withdrawCmds o) = f c := by
  rw [Chip.withdrawCmds_eq]
  refine (foldl_keeps f _ (fun x m => ?_) _ _).trans (hg _ _)
  unfold Chip.withdrawOne
  extract_lets +onlyGivenNames d d'
  have hd : f d' = f x := (ite_keeps (hs _ _) rfl).trans (hp x _ _)
  refine ite_keeps ((hc _ _).trans hd) (ite_keeps ((hc _ _).trans hd) ?_)
  exact (Chip.leave_keeps h.event (d'.kvUnpinAll m.id) m (d'.kvUnpinAll m.id).regs).trans ((hc _ _).trans ((h.kvUnpinAll _ _).trans hd))

end

/-- No command of a party is in flight after a withdrawal but as withdrawn. -/
theorem Chip.withdrawn_withdrawCmds (c : Chip) (o : Owner) : ∀ m ∈ (c.withdrawCmds o).cmds, m.owner = o → m.stage = .withdrawn := by
  have hfold (l : List Cmd) : ∀ d : Chip, (∀ k ∈ d.cmds, k.owner = o → k.stage = .withdrawn ∨ k ∈ l) →
      ∀ k ∈ (l.foldl Chip.withdrawOne d).cmds, k.owner = o → k.stage = .withdrawn := by
    induction l with
    | nil => exact fun d hd k hk ho => (hd k hk ho).resolve_right List.not_mem_nil
    | cons m l ih =>
      refine fun d hd => ih (d.withdrawOne m) fun k hk ho => ?_
      have hother (hin : k ∈ d.cmds) (hid : k.id ≠ m.id) : k.stage = .withdrawn ∨ k ∈ l :=
        (hd k hin ho).imp_right fun hm => (List.mem_cons.1 hm).resolve_left fun he => hid (congrArg Cmd.id he)
      rcases d.cmds_withdrawn m with he | he
      · rw [he] at hk
        obtain ⟨x, hx, hxk⟩ := List.mem_map.1 hk
        by_cases hid : x.id = m.id
        · rw [if_pos hid] at hxk
          exact .inl (by rw [← hxk])
        · rw [if_neg hid] at hxk
          subst hxk
          exact hother hx hid
      · rw [he] at hk
        obtain ⟨hin, hid⟩ := List.mem_filter.1 hk
        exact hother hin (bne_iff_ne.1 hid)
  exact hfold _ _ fun k hk ho => .inr (List.mem_filter.2 ⟨hk, beq_iff_eq.2 ho⟩)

/-! ### The withdrawal of a party's work -/

section
variable {γ : Type} {f : Chip → γ} (h : FlightPart f)
include h

/-- After the commands only waits, frames and rings are withdrawn. -/
theorem FlightPart.withdraw (c : Chip) (o : Owner) :
    f (c.withdraw o) = f { (c.discardContexts o).withdrawCmds o with waits := ((c.discardContexts o).withdrawCmds o).waits.filter fun w => w.owner != o } := by
  unfold Chip.withdraw
  extract_lets +onlyGivenNames rs armed c1 c2 c3 c4
  have h3 : f c3 = f { c2 with waits := c2.waits.filter fun w => w.owner != o } := foldl_keeps f _ (fun _ _ => h.event.put _ _ _) _ _
  have h4 : f c4 = f c3 := h.kvReset _ _
  clear_value c4
  split
  next sub rest _ =>
  refine (foldl_keeps f _ (fun x r => ?_) _ _).trans ((foldl_keeps f _ (fun x r => (h.event.put _ _ _).trans (h.event.closeRing _ _)) _ _).trans (h4.trans h3))
  extract_lets +onlyGivenNames y
  have hy : f y = f x := h.event.put _ _ _
  clear_value y
  split
  · exact (ite_keeps (h.event.setRingSt _ _ _) (h.event.closeRing _ _)).trans hy
  · exact hy

end

/-- The work of a party that has been withdrawn. -/
theorem Chip.withdraw_leaves (c : Chip) (o : Owner) :
    (∀ w ∈ (c.withdraw o).waits, w.owner ≠ o) ∧ (∀ e ∈ (c.withdraw o).actx, e.2.owner ≠ o) ∧ (∀ e ∈ (c.withdraw o).bctx, e.2.owner ≠ o) ∧
      ∀ m ∈ (c.withdraw o).cmds, m.owner = o → m.stage = .withdrawn := by
  have hwaits : FlightPart fun y : Chip => y.waits := ⟨eventPart_waits, fun _ _ => rfl, fun _ _ _ _ => rfl⟩
  have hcmds : FlightPart fun y : Chip => y.cmds := ⟨eventPart_cmds, fun _ _ => rfl, fun _ _ _ _ => rfl⟩
  have hctx : FlightPart fun y : Chip => (y.actx, y.bctx) := ⟨fun _ _ _ _ _ _ _ _ _ _ _ _ => rfl, fun _ _ => rfl, fun _ _ _ _ => rfl⟩
  have hwork : WorkPart fun y : Chip => (y.actx, y.bctx) := ⟨fun _ _ _ _ _ _ _ _ _ _ _ _ => rfl, fun _ _ _ _ => rfl, fun _ _ => rfl, fun _ _ => rfl, fun _ _ => rfl, fun _ _ => rfl⟩
  have hctxs : ((c.withdraw o).actx, (c.withdraw o).bctx) = (c.actx.filter fun e => e.2.owner != o, c.bctx.filter fun e => e.2.owner != o) := by
    refine (hctx.withdraw c o).trans ?_
    have hd := hwork.discardContexts c o
    generalize c.discardContexts o = d at hd ⊢
    have hw := hctx.withdrawCmds (fun _ _ => rfl) (fun _ _ => rfl) (fun _ _ _ => rfl) (fun _ _ => rfl) d o
    generalize d.withdrawCmds o = e at hw ⊢
    exact hw.trans hd
  obtain ⟨hactx, hbctx⟩ := Prod.mk.inj hctxs
  refine ⟨fun w hw => ?_, fun e he => ?_, fun e he => ?_, fun m hm => ?_⟩
  · have heq : (c.withdraw o).waits = _ := hwaits.withdraw c o
    generalize (c.discardContexts o).withdrawCmds o = d at heq
    rw [heq] at hw
    exact bne_iff_ne.1 (List.mem_filter.1 hw).2
  · rw [hactx] at he
    exact bne_iff_ne.1 (List.mem_filter.1 he).2
  · rw [hbctx] at he
    exact bne_iff_ne.1 (List.mem_filter.1 he).2
  · have hd := Chip.withdrawn_withdrawCmds (c.discardContexts o) o m
    have heq : (c.withdraw o).cmds = _ := hcmds.withdraw c o
    generalize (c.discardContexts o).withdrawCmds o = d at heq hd
    exact hd (heq ▸ hm)

/-! ### The dowels of a party -/

/-- A block of another region names no register at an address. -/
theorem findIn_skip {bs cs : List Block} {a : Nat} (h : ∀ b ∈ bs, regionOf a ≠ regionOf b.base) : findIn (bs ++ cs) a = findIn cs a := by
  induction bs with
  | nil => rfl
  | cons b bs ih =>
    have hb : b.find a = none := if_pos (.inr (h b List.mem_cons_self))
    rw [List.cons_append, findIn, hb]
    exact ih fun x hx => h x (List.mem_cons_of_mem b hx)

/-- The blocks below the dowels lie in other regions. -/
theorem regionOf_blocks_ne : ∀ b ∈ blocks.dropLast, regionOf b.base ≠ 258 := by decide +kernel

theorem blocks_eq_append_dowels : blocks = blocks.dropLast ++ [blkDOWEL] := rfl

theorem splitDims_dowel {d : Nat} (hd : d < 16384) {off : Nat} (ho : off < 0x100) :
    splitDims [(16384, 0x100)] (d * 0x100 + off) = some ([d], off) := by
  have hdiv : (d * 0x100 + off) / 0x100 = d := by omega
  have hmod : (d * 0x100 + off) % 0x100 = off := by omega
  rw [splitDims, hdiv, hmod, if_pos hd]
  rfl

theorem blkDOWEL_find_attr {d : Nat} (hd : d < 16384) :
    blkDOWEL.find (Reg.DOWEL_ATTR d) = some ⟨blkDOWEL, [d], ⟨0x80, [], [fld 31 31 .ro 0, fld 17 16 .rw 0, fld 12 0 .rw 0]⟩, []⟩ := by
  have hregion : regionOf (Reg.DOWEL_ATTR d) = 258 := by
    unfold regionOf Reg.DOWEL_ATTR
    rw [if_neg (by omega)]
    omega
  have hbase : regionOf blkDOWEL.base = 258 := rfl
  have hoff : Reg.DOWEL_ATTR d - blkDOWEL.base = d * 0x100 + 0x80 := by
    show 0x20000080 + d * 0x100 - 0x20000000 = _
    omega
  have hlow : ¬Reg.DOWEL_ATTR d < blkDOWEL.base := by
    show ¬0x20000080 + d * 0x100 < 0x20000000
    omega
  have hdims : splitDims blkDOWEL.dims (d * 0x100 + 0x80) = some ([d], 0x80) := splitDims_dowel hd (by decide)
  rw [Block.find, hregion, hbase, if_neg (by simp only [hlow, ne_eq, not_true_eq_false, or_false, not_false_eq_true]), hoff, hdims]
  rfl

/-- No dowel has an owner at reset. -/
theorem regReset_dowelAttr {d : Nat} (hd : d < 16384) : bits (regReset (Reg.DOWEL_ATTR d)).toNat 0 13 = 0 := by
  have hregion : regionOf (Reg.DOWEL_ATTR d) = 258 := by
    unfold regionOf Reg.DOWEL_ATTR
    rw [if_neg (by omega)]
    omega
  have hskip : findReg (Reg.DOWEL_ATTR d) = findIn [blkDOWEL] (Reg.DOWEL_ATTR d) := by
    rw [findReg, blocks_eq_append_dowels]
    exact findIn_skip fun b hb => by rw [hregion]; exact (regionOf_blocks_ne b hb).symm
  unfold regReset
  rw [hskip]
  simp only [findIn, blkDOWEL_find_attr hd]
  have hrow : rowReset ([d] ++ []) [fld 31 31 .ro 0, fld 17 16 .rw 0, fld 12 0 .rw 0] = 0 := by
    simp [rowReset, fld, Rst.at]
  rw [hrow]
  rfl

/-- An entry that a table shows is one of its own. -/
theorem Tbl.mem_of_find? {α : Type} {t : Tbl α} {k : Nat} {v : α} (h : Tbl.find? t k = some v) : (k, v) ∈ t := by
  induction t with
  | nil => cases h
  | cons e t ih =>
    obtain ⟨j, w⟩ := e
    rw [Tbl.find?] at h
    split at h
    next hj =>
      rw [hj, Option.some.inj h]
      exact List.mem_cons_self
    next => exact List.mem_cons_of_mem _ (ih h)

/-- The dowels of a party other than firmware are those whose register names it. -/
theorem Chip.mem_dowelsOf (c : Chip) {o : Owner} (ho : o ≠ 0) {d : Nat} (hd : d < 16384) :
    d ∈ c.dowelsOf o ↔ c.q (F.DOWEL_ATTR_OWNER d) = o.toNat := by
  have hpos : o.toNat ≠ 0 := fun h => ho (BitVec.eq_of_toNat_eq h)
  constructor
  · intro hm
    obtain ⟨e, -, he⟩ := List.mem_filterMap.1 hm
    obtain ⟨⟨-, -, hq⟩, hk⟩ := Option.ite_none_right_eq_some.1 he
    rwa [Option.some.inj hk] at hq
  · intro hq
    have hin : ∃ v, (Reg.DOWEL_ATTR d, v) ∈ c.regs := by
      cases hf : Tbl.find? c.regs (Reg.DOWEL_ATTR d) with
      | none =>
        have hreg : c.reg (Reg.DOWEL_ATTR d) = (regReset (Reg.DOWEL_ATTR d)).toNat := by
          rw [Chip.reg, Tbl.look, hf]
          rfl
        have h0 : c.q (F.DOWEL_ATTR_OWNER d) = 0 := (congrArg (fun r => bits r 0 13) hreg).trans (regReset_dowelAttr hd)
        exact absurd (hq.symm.trans h0) hpos
      | some v =>
        exact ⟨v, Tbl.mem_of_find? hf⟩
    obtain ⟨v, hv⟩ := hin
    have hidx : (Reg.DOWEL_ATTR d - 0x20000000) / 0x100 = d := by
      unfold Reg.DOWEL_ATTR
      omega
    refine List.mem_filterMap.2 ⟨_, hv, ?_⟩
    dsimp only
    rw [hidx, if_pos ⟨hd, rfl, hq⟩]

/-! ### The steps of an end -/

section
variable {c : Chip} {h : Half} {i cause : Nat}

/-- A record whose reset is in progress is left as it is. -/
theorem Chip.viReset_under_way (hs : c.viState i = 3 ∨ c.viState i = 4) : c.viReset h i cause = c := if_pos hs

/-- A reset takes the record to RESETTING and the work, rings, dowels and models of its party away. -/
theorem Chip.viReset_begins (h3 : c.viState i ≠ 3) (h4 : c.viState i ≠ 4) :
    let o := c.viOwner i
    let w := ((c.put (F.VI_INST_STATE_STATE i) 3).ev h 0x0602 [i, cause]).withdraw o
    let e := (c.viGrant i).rings.foldl (fun (e : Chip) r => e.put (F.RING_CFG_ENABLE r) 0) w
    let d := (e.dowelsOf o).foldl (fun (d : Chip) k => d.setPair (Reg.DOWEL_VAL_LO k) (Reg.DOWEL_VAL_HI k) 0) e
    c.viReset h i cause = { d with viStart := Tbl.ins d.viStart i c.now, models := d.models.filter fun m => m.2.owner != o } :=
  if_neg (not_or.2 ⟨h3, h4⟩)

end

/-- RESET and DESTROY of a record in use that the initiator may act on. -/
theorem Chip.viResetCmd_accepted {c : Chip} {w : Initiator} {i : Nat} (destroy : Bool) (hact : c.viMayAct w.owner i = true)
    (hstatic : w.owner = 0 ∨ c.on (F.VI_INST_STATE_STATIC i) = false) (hused : c.viState i ≠ 0) :
    c.viResetCmd w i destroy = ((if destroy then { c with viDestroy := if c.viDestroy.contains i then c.viDestroy else i :: c.viDestroy } else c).viReset w.half i
      (if destroy then 3 else 0)).viResult (if destroy then 3 else 2) i 1 := by
  have hmay : ¬(¬c.viMayAct w.owner i = true ∨ (w.owner ≠ 0 ∧ c.on (F.VI_INST_STATE_STATIC i) = true)) := by
    rintro (hn | ⟨ho, hs⟩)
    · exact hn hact
    · exact hstatic.elim ho (Bool.eq_false_iff.1 · hs)
  unfold Chip.viResetCmd
  extract_lets +onlyGivenNames op
  rw [if_neg hmay, if_neg hused]

section
variable {i : Initiator} {n : Fin 256} {s : State}

theorem exec_reset_accepted (ha : s.chip.viAdmits i.owner = true) (hb : s.chip.on F.VI_CMD_RESULT_BUSY = false) (hact : s.chip.viMayAct i.owner n = true)
    (hstatic : i.owner = 0 ∨ s.chip.on (F.VI_INST_STATE_STATIC n) = false) (hused : s.chip.viState n ≠ 0) :
    exec (.reset i n) s = .next (s.withChip ((s.chip.viReset i.half n 0).viResult 2 n 1)) := by
  have hexec : exec (.reset i n) s = execReset i n s := rfl
  unfold execReset at hexec
  rw [hexec, Chip.viCommand_admitted ha hb]
  exact (congrArg s.go (Chip.viResetCmd_accepted false hact hstatic hused)).trans (s.go_eq _)

theorem exec_destroy_accepted (ha : s.chip.viAdmits i.owner = true) (hb : s.chip.on F.VI_CMD_RESULT_BUSY = false) (hact : s.chip.viMayAct i.owner n = true)
    (hstatic : i.owner = 0 ∨ s.chip.on (F.VI_INST_STATE_STATIC n) = false) (hused : s.chip.viState n ≠ 0) :
    exec (.destroy i n) s = .next (s.withChip ((Chip.viReset { s.chip with
      viDestroy := if s.chip.viDestroy.contains n.val then s.chip.viDestroy else n.val :: s.chip.viDestroy } i.half n 3).viResult 3 n 1)) := by
  have hexec : exec (.destroy i n) s = execDestroy i n s := rfl
  unfold execDestroy at hexec
  rw [hexec, Chip.viCommand_admitted ha hb]
  exact (congrArg s.go (Chip.viResetCmd_accepted true hact hstatic hused)).trans (s.go_eq _)

end

/-- A Function Level Reset at a port whose link is up resets the record of the function. -/
theorem exec_functionLevelReset_mapped {p : Half} {vf : BitVec 8} {i : Nat} {s : State} (hmode : s.chip.on (F.PCIE_CTL_MODE p.idx) = true)
    (hlink : s.chip.on (F.PCIE_STATUS_LINK_UP p.idx) = true) (hdown : s.chip.down.get p = false) (hrec : s.chip.vfRecord p vf.toNat = some i)
    (hused : s.chip.viState i ≠ 0) : exec (.functionLevelReset p vf) s = .next (s.withChip (s.chip.viReset p i 1)) := by
  have hexec : exec (.functionLevelReset p vf) s = execFunctionLevelReset p vf s := rfl
  unfold execFunctionLevelReset at hexec
  simp only [hmode, hlink, hdown, hrec, if_neg hused, not_true_eq_false, Bool.false_eq_true, or_self, if_false] at hexec
  exact hexec.trans (s.go_eq _)

theorem ownType_mkOwn (o flags : Nat) : ownType (mkOwn o 7 flags % 2 ^ 32) = 7 := by
  unfold ownType mkOwn bits
  dsimp only
  omega

/-- Every entry of the list takes type 7; an entry that has it keeps it. -/
theorem Chip.ownType_setOwners (c : Chip) (l : List Nat) (o e : Nat) (h : e ∈ l ∨ ownType (c.ownAt e) = 7) : ownType ((c.setOwners l o 7).ownAt e) = 7 := by
  induction l generalizing c with
  | nil => exact h.resolve_left List.not_mem_nil
  | cons n l ih =>
    refine ih (c.setOwn n (mkOwn o 7 (if (7 : Nat) = 7 then ownFlags (c.ownAt n) else ownFlags (c.ownAt n) / 2 * 2))) ?_
    by_cases hn : e = n
    · subst hn
      exact .inr ((congrArg ownType (c.ownAt_setOwn_same _ _)).trans (ownType_mkOwn _ _))
    · exact h.imp (fun hm => (List.mem_cons.1 hm).resolve_left hn) fun ht => (congrArg ownType (c.ownAt_setOwn_ne _ hn)).trans ht

/-- The chip after the completion of a reset: its granules and the state of the record. -/
theorem Chip.reset_completed (c : Chip) (l : List Nat) (o : Owner) (n : Fin 256) :
    let t := (c.setOwners l o.toNat 7).put (F.VI_INST_STATE_STATE n) 4
    t.viState n = 4 ∧ ∀ k, k ∈ l → k < 1048576 → ownType (t.ownAt k) = 7 ∧ ownOwner (t.ownAt k) = o.toNat := by
  refine ⟨Chip.q_put_same _ _ _ (Nat.le_of_ble_eq_true rfl), fun k hk _ => ?_⟩
  have hkeep : ((c.setOwners l o.toNat 7).put (F.VI_INST_STATE_STATE n) 4).ownAt k = (c.setOwners l o.toNat 7).ownAt k :=
    Chip.put_keeps (fun y : Chip => y.ownAt k) (fun _ _ => rfl) _ _ _
  rw [hkeep]
  exact ⟨Chip.ownType_setOwners c l _ k (.inl hk), (Chip.ownOwner_setOwners c l o.toNat 7 k (.inl hk)).trans (Nat.mod_eq_of_lt o.isLt)⟩

section
variable {n : Fin 256} {s : State}

/-- While anything of the party remains a reset does not complete. -/
theorem exec_resetCompletion_waits (hw : s.chip.withdrawn (s.chip.viOwner n) = false) : exec (.resetCompletion n) s = .next s := by
  have hexec : exec (.resetCompletion n) s = execResetCompletion n s := rfl
  unfold execResetCompletion at hexec
  simp only [hw, Bool.false_eq_true, and_false, if_false] at hexec
  exact hexec.trans (s.go_eq _)

theorem exec_resetCompletion_done (hs : s.chip.viState n = 3) (hw : s.chip.withdrawn (s.chip.viOwner n) = true) :
    exec (.resetCompletion n) s = .next (s.withChip ((((Chip.ev { s.chip with viStart := Tbl.del s.chip.viStart n } s.chip.firstUp 0x0603
      [n, (elapsed s.chip.now (Tbl.look 0 s.chip.viStart n)).toNat / usUnits])).setOwners (s.chip.viGrant n).granules (s.chip.viOwner n).toNat 7).put
        (F.VI_INST_STATE_STATE n) 4)) := by
  have hexec : exec (.resetCompletion n) s = execResetCompletion n s := rfl
  unfold execResetCompletion at hexec
  simp only [hs, hw, and_self, if_true] at hexec
  exact hexec.trans (s.go_eq _)

/-- Zeroed granules come back to the record, or go to the reserve with the end of the record. -/
theorem exec_instanceZeroingComplete_done (hs : s.chip.viState n = 4) (hm : s.chip.movesInto (s.chip.viGrant n) = false)
    (hz : (s.chip.viGrant n).zeroers s.chip = true) :
    let g := s.chip.viGrant n
    let o := (s.chip.viOwner n).toNat
    let z := (g.granules.foldl Chip.zeroGranule s.chip).zeroedBy g
    let r := o / 256 * 256
    let d := g.dowels.foldl (fun (d : Chip) k => d.assignDowel k 0 0) ((z.setOwners g.granules r 7).setOwners (g.rings.map doorbellEntry) r 7)
    exec (.instanceZeroingComplete n) s = if s.chip.viDestroy.contains n.val then
      s.go ((Chip.inc { (d.setReg (Reg.VI_INST_PCI n) 0).setReg (Reg.VI_INST_STATE n) 0 with viDestroy := s.chip.viDestroy.filter (· != n.val) }
        F.VI_STATUS_FREE).ev s.chip.firstUp 0x0605 [n])
      else s.go (((z.setOwners g.granules o 0).put (F.VI_INST_STATE_STATE n) (if s.chip.q (F.VI_INST_STATE_SHARE n) = 0 then 2 else 1)).ev s.chip.firstUp 0x0604 [n]) := by
  have hexec : exec (.instanceZeroingComplete n) s = execInstanceZeroingComplete n s := rfl
  unfold execInstanceZeroingComplete at hexec
  extract_lets +onlyGivenNames c i g at hexec
  have hdue : c.viState i = 4 ∧ ¬c.movesInto g = true ∧ g.zeroers c = true := ⟨hs, Bool.eq_false_iff.1 hm, hz⟩
  exact hexec.trans (if_pos hdue)

end

/-- A register written with zero gives every field zero. -/
theorem Chip.q_setReg_zero (c : Chip) (f : RF) : (c.setReg f.addr 0).q f = 0 := by
  have hreg : (c.setReg f.addr 0).reg f.addr = 0 := Chip.reg_setReg_same _ _ _
  rw [Chip.q, hreg, bits, Nat.zero_div, Nat.zero_mod]

/-- Settles O40: each step of a reset or of a destruction leaves the chip that its law gives. -/
theorem instancesEnded : Obligations.InstancesEnded := by
  refine ⟨fun c h i cause => ⟨fun h3 h4 => Chip.viReset_begins h3 h4, Chip.viReset_under_way⟩, fun c o => ?_,
    fun i n s ha hb hact hstatic hused => ⟨exec_reset_accepted ha hb hact hstatic hused, exec_destroy_accepted ha hb hact hstatic hused⟩,
    fun p vf i s hmode hlink hdown hrec hused => exec_functionLevelReset_mapped hmode hlink hdown hrec hused, fun n s hs => ?_, fun n s => ?_⟩
  · obtain ⟨hwaits, hactx, hbctx, hcmds⟩ := c.withdraw_leaves o
    exact ⟨hwaits, hactx, hbctx, hcmds, fun d ho hd => Chip.mem_dowelsOf _ ho hd⟩
  · obtain ⟨hstate, hown⟩ := Chip.reset_completed (Chip.ev { s.chip with viStart := Tbl.del s.chip.viStart n } s.chip.firstUp 0x0603
      [n, (elapsed s.chip.now (Tbl.look 0 s.chip.viStart n)).toNat / usUnits]) (s.chip.viGrant n).granules (s.chip.viOwner n) n
    exact ⟨exec_resetCompletion_waits, fun hw => ⟨_, exec_resetCompletion_done hs hw, rfl, hstate, hown⟩⟩
  · intro g hs hm hz
    have hdone := exec_instanceZeroingComplete_done hs hm hz
    exact ⟨fun hd => hdone.trans ((if_neg (Bool.eq_false_iff.1 hd)).trans (s.go_eq _)),
      fun hd => ⟨hdone.trans ((if_pos hd).trans (s.go_eq _)), Chip.q_setReg_zero _ (F.VI_INST_STATE_STATE n)⟩⟩

end Machine

end Sys2Proof

/-! PROOF. Commands to the loop slots (R376–R380): a command waits at the engines and applies, what their reads find left aside. -/

namespace Sys2Proof

namespace Machine

/-- What every step of a fold over a list keeps, the fold keeps. -/
theorem foldl_keeps_mem {α β γ : Type} (f : α → γ) (g : α → β → α) (l : List β) (h : ∀ x, ∀ y ∈ l, f (g x y) = f x) (a : α) : f (l.foldl g a) = f a := by
  induction l generalizing a with
  | nil => rfl
  | cons y l ih => exact (ih (fun x z hz => h x z (List.mem_cons_of_mem _ hz)) _).trans (h a y List.mem_cons_self)

theorem foldl_max_lt {l : List Nat} {n a : Nat} (ha : a < n) (hl : ∀ x ∈ l, x < n) : l.foldl max a < n := by
  induction l generalizing a with
  | nil => exact ha
  | cons x l ih => exact ih (max_lt ha (hl x List.mem_cons_self)) fun y hy => hl y (List.mem_cons_of_mem _ hy)

/-! ### What errors that reads show leave -/

/-- A register of the block of the STEADY engines. -/
def steadyReg (a : Nat) : Prop := 0xA00000 ≤ a ∧ a < 0xB00000

/-- A register of the blocks of the STEADY engines, the bridge, the cameras and the displays, and the check-value units. -/
def ioReg (a : Nat) : Prop := 0xA00000 ≤ a ∧ a < 0xE00000

theorem steadyReg.ioReg {a : Nat} (h : steadyReg a) : ioReg a := ⟨h.1, Nat.lt_trans h.2 (by decide)⟩

/-- A part of the chip that neither events nor the errors that reads show change. -/
structure ReadPart {γ : Type} (f : Chip → γ) : Prop where
  raise (c : Chip) (e : Event) : f (c.raise e) = f c
  reg (c : Chip) (a v : Nat) (h : ¬ ioReg a) : f (c.setReg a v) = f c
  complete (c : Chip) (m : Cmd) (d : Nat) : f (c.complete m d) = f c
  state (c : Chip) (mem : Tbl Byte) (garbled : Tbl Nat) (poison : List Nat) (own : Tbl Word) (filling : List Nat) (flash : Pair FlashLedger)
    (seq : Pair Nat) (errs : List (Nat × Nat)) (rows : Tbl Nat) (arrays : Tbl ArrSt) (n : Nat) :
    f { c with mem := mem, garbled := garbled, poison := poison, own := own, filling := filling, flash := flash, ledgerSeq := seq,
               storeErrs := errs, dataRows := rows, arrays := arrays, freeCnt := n } = f c
  loops (c : Chip) (y : Pair (Tbl LoopSt)) (z : Pair HioSt) : f { c with loops := y, hio := z } = f c
  work (c : Chip) (benches : Tbl BenchSt) (cores : Tbl Core) (cmds : List Cmd) (waits : List Wait) (bctx : Tbl BenchCtx) :
    f { c with benches := benches, cores := cores, cmds := cmds, waits := waits, bctx := bctx } = f c

namespace ReadPart

variable {γ : Type} {f : Chip → γ} (h : ReadPart f)
include h

theorem ev (c : Chip) (k : Half) (code : Nat) (l : List Nat) : f (c.ev k code l) = f c := h.raise _ _
theorem put (c : Chip) (x : RF) (v : Nat) (hx : ¬ ioReg x.addr) : f (c.put x v) = f c := h.reg _ _ _ hx
theorem inc (c : Chip) (x : RF) (hx : ¬ ioReg x.addr) : f (c.inc x) = f c := h.reg _ _ _ hx
theorem dec (c : Chip) (x : RF) (hx : ¬ ioReg x.addr) : f (c.dec x) = f c := h.reg _ _ _ hx
theorem count (c : Chip) (x : RF) (n : Nat) (hx : ¬ ioReg x.addr) : f (c.count x n) = f c := h.reg _ _ _ hx

theorem refusalEvent (c : Chip) (k : Half) (m : Option Cmd) (o : Owner) (a cause engine : Nat) : f (c.refusalEvent k m o a cause engine) = f c := by
  unfold Chip.refusalEvent
  extract_lets +onlyGivenNames i typ mk
  have hmk (code : Nat) (d : List Nat) : f (mk code d) = f c := by
    cases m with
    | none => exact h.raise _ _
    | some m => exact h.raise _ _
  split
  · refine ite_keeps ?_ (hmk _ _)
    split <;> exact hmk _ _
  · exact hmk _ _
  · exact hmk _ _
  · exact hmk _ _
  · rfl

theorem ledger (c : Chip) (k : Half) (kind : Nat) (body : List Byte) (sets : List (Nat × Nat)) : f (c.ledger k kind body sets) = f c := by
  unfold Chip.ledger
  dsimp only
  refine (foldl_keeps f _ (fun x y => ?_) _ _).trans (h.state c _ _ _ _ _ _ _ _ _ _ _)
  exact ite_keeps rfl (h.state x _ _ _ _ _ _ _ _ _ _ _)

theorem wearCause (c : Chip) (k : Half) (cause : Nat) : f (c.wearCause k cause) = f c := by
  have hne : ¬ ioReg Reg.WEAR_STATUS := by unfold ioReg; decide
  unfold Chip.wearCause
  extract_lets +onlyGivenNames d old new e
  have hd : f d = f c := ite_keeps rfl (h.put _ _ _ hne)
  exact (ite_keeps rfl ((h.ledger _ _ _ _ _).trans ((h.ev _ _ _ _).trans (h.put _ _ _ hne)))).trans hd

theorem unitRetired (c : Chip) (k : Half) (kind unit cause : Nat) : f (c.unitRetired k kind unit cause) = f c := by
  have hne : ¬ ioReg (Reg.WEAR_RES kind) := by unfold ioReg Reg.WEAR_RES; omega
  unfold Chip.unitRetired
  extract_lets +onlyGivenNames d e g
  have hd : f d = f c := (h.ev _ _ _ _).trans (h.inc _ _ hne)
  have he : f e = f d := h.ledger _ _ _ _ _
  have hg : f g = f e := h.wearCause _ _ _
  exact (ite_keeps (h.wearCause _ _ _) rfl).trans (hg.trans (he.trans hd))

theorem spareTaken (c : Chip) (k : Half) (kind unit spare used : Nat) : f (c.spareTaken k kind unit spare used) = f c := by
  have hne : ¬ ioReg (Reg.WEAR_RES kind) := by unfold ioReg Reg.WEAR_RES; omega
  unfold Chip.spareTaken
  extract_lets +onlyGivenNames d e g
  have hd : f d = f c := (h.ev _ _ _ _).trans (h.inc _ _ hne)
  have he : f e = f d := h.ledger _ _ _ _ _
  have hg : f g = f e := by
    unfold g
    split
    · exact ite_keeps (h.wearCause _ _ _) rfl
    · rfl
  exact (ite_keeps (h.wearCause _ _ _) rfl).trans (hg.trans (he.trans hd))

theorem storeRaw (c : Chip) (a : Nat) (bs : List Byte) : f (c.storeRaw a bs) = f c := by
  induction bs generalizing c a with
  | nil => rfl
  | cons b bs ih => exact (ih _ _).trans (ite_keeps rfl (h.state c _ _ _ _ _ _ _ _ _ _ _))

theorem dirty (c : Chip) (a n : Nat) : f (c.dirty a n) = f c := by
  unfold Chip.dirty
  refine ite_keeps rfl ?_
  exact (foldl_keeps f _ (fun x _ => h.state x _ _ _ _ _ _ _ _ _ _ _) _ _).trans (h.state c _ _ _ _ _ _ _ _ _ _ _)

/-! #### Units of a DRAM stack -/

theorem low (c : Chip) (x : RF) (v : Nat) (hx : x.addr < 0xA00000) : f (c.put x v) = f c := h.put _ _ _ fun hs => Nat.not_le_of_lt hx hs.1
theorem lowInc (c : Chip) (x : RF) (hx : x.addr < 0xA00000) : f (c.inc x) = f c := h.low _ _ _ hx
theorem lowDec (c : Chip) (x : RF) (hx : x.addr < 0xA00000) : f (c.dec x) = f c := h.low _ _ _ hx
theorem lowReg (c : Chip) {a : Nat} (v : Nat) (ha : a < 0xA00000) : f (c.setReg a v) = f c := h.reg _ _ _ fun hs => Nat.not_le_of_lt ha hs.1

section
variable {x : Nat} (hx : x < 4)
include hx

theorem poisonUnit (c : Chip) (a : Nat) : f (c.poisonUnit x a) = f c := by
  have hcount : Reg.MEM_UNCORR x < 0xA00000 := by unfold Reg.MEM_UNCORR; omega
  have hlo : Reg.MEM_POISON_LO x < 0xA00000 := by unfold Reg.MEM_POISON_LO; omega
  have hhi : Reg.MEM_POISON_HI x < 0xA00000 := by unfold Reg.MEM_POISON_HI; omega
  unfold Chip.poisonUnit
  extract_lets +onlyGivenNames d e o
  have hd : f d = f c := (h.lowReg _ _ hhi).trans ((h.lowReg _ _ hlo).trans (h.low _ _ _ hcount))
  have he : f e = f d := ite_keeps rfl (h.state d _ _ _ _ _ _ _ _ _ _ _)
  exact (h.raise _ _).trans ((h.dirty _ _ _).trans (he.trans hd))

theorem corrected (c : Chip) {d : Nat} (hd : d < 6) (n a : Nat) : f (c.corrected x d n a) = f c := by
  have hcorr : Reg.MEM_CORR x < 0xA00000 := by unfold Reg.MEM_CORR; omega
  have hdie : Reg.MEM_DIE_CORR x d < 0xA00000 := by unfold Reg.MEM_DIE_CORR; omega
  unfold Chip.corrected
  extract_lets +onlyGivenNames e
  have he : f e = f c := (h.low _ _ _ hdie).trans ((h.low _ _ _ hdie).trans (h.low _ _ _ hcorr))
  exact (ite_keeps rfl (foldl_keeps f _ (fun y _ => h.ev _ _ _ _) _ _)).trans he

theorem startRebuild (c : Chip) : f (c.startRebuild x) = f c := by
  have hst : Reg.MEM_STATUS x < 0xA00000 := by unfold Reg.MEM_STATUS; omega
  unfold Chip.startRebuild
  extract_lets +onlyGivenNames d
  have hd : f d = f c := (h.low _ _ _ hst).trans (h.low _ _ _ hst)
  exact (h.ev _ _ _ _).trans hd

theorem markDie (c : Chip) (d cause : Nat) : f (c.markDie x d cause) = f c := by
  have hst : Reg.MEM_STATUS x < 0xA00000 := by unfold Reg.MEM_STATUS; omega
  unfold Chip.markDie
  extract_lets +onlyGivenNames k e g
  have he : f e = f c := (h.ev _ _ _ _).trans ((h.low _ _ _ hst).trans (h.low _ _ _ hst))
  have hg : f g = f e := ite_keeps ((h.wearCause _ _ _).trans (h.ev _ _ _ _)) (h.startRebuild hx _)
  exact (h.ledger _ _ _ _ _).trans (hg.trans he)

theorem dieErrors (c : Chip) {d : Nat} (hd : d < 6) (n a : Nat) (retried : Bool) : f (c.dieErrors x d n a retried) = f c := by
  unfold Chip.dieErrors
  extract_lets +onlyGivenNames other many e
  have he : f e = f c := h.corrected hx c hd n a
  exact ite_keeps (h.poisonUnit hx _ _) ((ite_keeps rfl (ite_keeps (h.markDie hx _ _ _) (ite_keeps (h.markDie hx _ _ _) rfl))).trans he)

theorem eccRead (c : Chip) (a : Nat) (o : EccObs) : f (c.eccRead x a o) = f c := by
  cases o with
  | clean => rfl
  | corrected d n => exact ite_keeps (h.dieErrors hx _ d.isLt _ _ _) rfl
  | retried d n => exact ite_keeps rfl (h.dieErrors hx _ d.isLt _ _ _)
  | uncorrectable => exact h.poisonUnit hx _ _
  | undetected => rfl
  | storeCorrected row => rfl
  | storeUncorrectable row => rfl

end

theorem firstRead (c : Chip) (a : Nat) (o : EccObs) : f (c.firstRead a o).2 = f c := by
  have hx : stackOf a < 4 := by
    unfold stackOf bits
    split <;> omega
  unfold Chip.firstRead
  split
  · exact h.eccRead hx _ _ _
  · rfl

/-! #### Rows of the stores -/

theorem arrays (c : Chip) (a : Nat) (y : ArrSt) : f (c.setArr a y) = f c := h.state c _ _ _ _ _ _ _ _ _ _ _

theorem rowWorn (c : Chip) (store row : Nat) : f (c.rowWorn store row).2 = f c := by
  unfold Chip.rowWorn
  split
  · exact h.state c _ _ _ _ _ _ _ _ _ _ _
  · exact h.state c _ _ _ _ _ _ _ _ _ _ _

/-- A row that errs again takes a spare. -/
theorem takeSpare (c : Chip) (x : RF) (hx : x.addr < 0xA00000) (k : Half) (code : Nat) (l : List Nat) (kind unit spare used : Nat) :
    f (((c.dec x).ev k code l).spareTaken k kind unit spare used) = f c :=
  (h.spareTaken _ _ _ _ _ _).trans ((h.ev _ _ _ _).trans (h.lowDec _ _ hx))

theorem arrayCorrected (c : Chip) {a : Nat} (ha : a < 8) (off row : Nat) : f (c.arrayCorrected a off row) = f c := by
  have hecc : Reg.ARRAY_ECC a < 0xA00000 := by unfold Reg.ARRAY_ECC; omega
  have hsp : Reg.ARRAY_SPARES a < 0xA00000 := by unfold Reg.ARRAY_SPARES; omega
  unfold Chip.arrayCorrected
  extract_lets +onlyGivenNames k d e
  have hd : f d = f c := h.lowInc _ _ hecc
  clear_value d
  have he : f e = f d := ite_keeps (h.ev _ _ _ _) rfl
  clear_value e
  have hw := h.rowWorn e a row
  split
  next worn g hg =>
  rw [hg] at hw
  have hg' : f g = f c := hw.trans (he.trans hd)
  extract_lets +onlyGivenNames free
  clear_value free
  exact (ite_keeps (h.takeSpare g _ hsp _ _ _ _ _ _ _) rfl).trans hg'

theorem arrayLost (c : Chip) {a : Nat} (ha : a < 8) (off : Nat) (m : Option Cmd) : f (c.arrayLost a off m) = f c := by
  have hecc : Reg.ARRAY_ECC a < 0xA00000 := by unfold Reg.ARRAY_ECC; omega
  unfold Chip.arrayLost
  extract_lets +onlyGivenNames o d w x
  have hd : f d = f c := (h.raise _ _).trans (h.lowInc _ _ hecc)
  exact (ite_keeps (h.storeRaw _ _ _) (ite_keeps (h.arrays _ _ _) (h.arrays _ _ _))).trans hd

theorem setBench (c : Chip) (b : Nat) (y : BenchSt) : f (c.setBench b y) = f c := h.work c _ _ _ _ _

theorem takeDataRow (c : Chip) (b k row : Nat) : f (c.takeDataRow b k row) = f c := by
  unfold Chip.takeDataRow
  extract_lets +onlyGivenNames u used
  exact (h.spareTaken _ _ _ _ _ _).trans ((h.ev _ _ _ _).trans (h.state c _ _ _ _ _ _ _ _ _ _ _))

section
variable {b : Nat} (hb : b < 32)
include hb

theorem retireBench (c : Chip) (cause : Nat) : f (c.retireBench b cause) = f c := by
  have hst : Reg.BENCH_STATUS b < 0xA00000 := by unfold Reg.BENCH_STATUS; omega
  have hret : Reg.BENCH_RETIRE b < 0xA00000 := by unfold Reg.BENCH_RETIRE; omega
  unfold Chip.retireBench
  refine ite_keeps rfl ?_
  extract_lets +onlyGivenNames d
  have hd : f d = f c := (h.ev _ _ _ _).trans ((h.low _ _ _ hret).trans (h.low _ _ _ hst))
  exact (h.unitRetired _ _ _ _ _).trans hd

theorem freeBench (c : Chip) : f (c.freeBench b) = f c := by
  have hst : Reg.BENCH_STATUS b < 0xA00000 := by unfold Reg.BENCH_STATUS; omega
  unfold Chip.freeBench
  extract_lets +onlyGivenNames x d e
  have hd : f d = f c := h.work c _ _ _ _ _
  have he : f e = f d := h.low _ _ _ hst
  exact (ite_keeps (h.retireBench hb _ _) rfl).trans (he.trans hd)

theorem benchCorrected (c : Chip) (k off row : Nat) : f (c.benchCorrected b k off row) = f c := by
  have hecc : Reg.BENCH_ECC b < 0xA00000 := by unfold Reg.BENCH_ECC; omega
  have hcores : Reg.BENCH_CORES b < 0xA00000 := by unfold Reg.BENCH_CORES; omega
  unfold Chip.benchCorrected
  extract_lets +onlyGivenNames hh d e own
  have hd : f d = f c := h.lowInc _ _ hecc
  have he : f e = f c := (ite_keeps (h.ev _ _ _ _) rfl).trans hd
  refine ite_keeps he ?_
  have hw := h.rowWorn e (if own = true then 4096 + 64 * b + e.q (F.BENCH_MAP_PHYS b k) else 8 + b) row
  split
  next worn g hg =>
  rw [hg] at hw
  refine (ite_keeps rfl ?_).trans (hw.trans he)
  exact ite_keeps (ite_keeps (h.takeDataRow _ _ _ _) rfl) (ite_keeps (h.takeSpare g _ hcores _ _ _ _ _ _ _) rfl)

theorem doubleUp (c : Chip) : f (c.doubleUp b) = f c := by
  unfold Chip.doubleUp
  refine foldl_keeps_mem f _ _ (fun y k hk => ?_) _
  have hmap : Reg.BENCH_MAP b k < 0xA00000 := by have := List.mem_range.1 hk; unfold Reg.BENCH_MAP; omega
  exact ite_keeps rfl (h.low _ _ _ hmap)

theorem retireCore (c : Chip) (p : Nat) : f (c.retireCore b p) = f c := by
  have hcores : Reg.BENCH_CORES b < 0xA00000 := by unfold Reg.BENCH_CORES; omega
  have hmap {k : Nat} (hk : k < 60) : Reg.BENCH_MAP b k < 0xA00000 := by unfold Reg.BENCH_MAP; omega
  have hstart (y : BenchSt) : f ((c.setBench b y).dec (F.BENCH_CORES_HEALTHY b)) = f c := (h.lowDec _ _ hcores).trans (h.setBench _ _ _)
  have hfewer {d : Chip} {k last : Nat} {y : BenchSt} (hd : d = (c.setBench b y).dec (F.BENCH_CORES_HEALTHY b)) (hk : k < 60) (hlast : last < 60) (v : Nat) :
      f ((((d.put (F.BENCH_MAP_PHYS b k) v).put (F.BENCH_MAP_VALID b last) 0).dec (F.BENCH_CORES_IN_SERVICE b)).doubleUp b) = f c := by
    rw [hd]
    exact (h.doubleUp hb _).trans ((h.lowDec _ _ hcores).trans ((h.low _ _ _ (hmap hlast)).trans ((h.low _ _ _ (hmap hk)).trans (hstart y))))
  have hlt {d : Chip} {k : Nat} (hk : d.logicalOf b p = some k) : k < 60 := List.mem_range.1 (List.mem_of_find?_eq_some hk)
  fun_cases Chip.retireCore c b p
  case case1 hh x d hk e g =>
    have he : f e = f c := (h.lowDec _ _ hcores).trans (hstart _)
    have hg : f g = f e := ite_keeps (h.wearCause _ _ _) rfl
    exact (h.ledger _ _ _ _ _).trans (hg.trans he)
  case case2 hh x d k hk sp hsp e g =>
    have he : f e = f c := (h.lowDec _ _ hcores).trans ((h.low _ _ _ (hmap (hlt hk))).trans (hstart _))
    have hg : f g = f e := (h.ev _ _ _ _).trans (h.setBench _ _ _)
    exact (h.spareTaken _ _ _ _ _ _).trans (hg.trans he)
  case case3 hh x d k hk hsp last e g i j hfew =>
    have hlast : last < 60 := foldl_max_lt (by decide) fun y hy => List.mem_range.1 (List.mem_filter.1 hy).1
    exact (h.retireBench hb _ _).trans ((h.ledger _ _ _ _ _).trans ((h.ev _ _ _ _).trans (hfewer rfl (hlt hk) hlast _)))
  case case4 hh x d k hk hsp last e g i j hfew =>
    have hlast : last < 60 := foldl_max_lt (by decide) fun y hy => List.mem_range.1 (List.mem_filter.1 hy).1
    exact (h.ledger _ _ _ _ _).trans ((h.ev _ _ _ _).trans (hfewer rfl (hlt hk) hlast _))

theorem benchMend (c : Chip) (k off row : Nat) : f (c.benchMend b k off row) = f c := by
  unfold Chip.benchMend
  extract_lets +onlyGivenNames retire d
  have hd : f d = f c := h.storeRaw _ _ _
  exact (ite_keeps rfl (ite_keeps (h.retireCore hb _ _) (h.takeDataRow _ _ _ _))).trans hd

end

theorem noteTask (c : Chip) (m : Cmd) : f (c.noteTask m) = f c := by
  unfold Chip.noteTask
  extract_lets +onlyGivenNames clamped sat spare d
  have hd : f d = f c := h.work c _ _ _ _ _
  refine (foldl_keeps_mem f _ _ (fun y b hb => ?_) _).trans hd
  have hb32 : b < 32 := List.mem_range.1 (List.mem_filter.1 hb).1
  have hlo : Reg.BENCH_TASK_CNT_LO b < 0xA00000 := by unfold Reg.BENCH_TASK_CNT_LO; omega
  have hhi : Reg.BENCH_TASK_CNT_HI b < 0xA00000 := by unfold Reg.BENCH_TASK_CNT_HI; omega
  exact (h.lowReg _ _ hhi).trans ((h.lowReg _ _ hlo).trans (h.setBench _ _ _))

theorem stopTask (c : Chip) (m : Cmd) : f (c.stopTask m) = f c := by
  unfold Chip.stopTask
  refine ite_keeps rfl ?_
  extract_lets +onlyGivenNames d e g i
  have hd : f d = f c := h.noteTask _ _
  have he : f e = f d := foldl_keeps f _ (fun y u => ite_keeps (h.work y _ _ _ _ _) rfl) _ _
  have hg : f g = f e := h.work e _ _ _ _ _
  have hi : f i = f g := h.work g _ _ _ _ _
  refine (foldl_keeps_mem f _ _ (fun y b hb => ?_) _).trans (hi.trans (hg.trans (he.trans hd)))
  exact ite_keeps (h.freeBench (List.mem_range.1 (List.mem_filter.1 hb).1) _) rfl

theorem benchUncorrectable (c : Chip) {b : Nat} (hb : b < 32) (k off row : Nat) : f (c.benchUncorrectable b k off row) = f c := by
  have hecc : Reg.BENCH_ECC b < 0xA00000 := by unfold Reg.BENCH_ECC; omega
  unfold Chip.benchUncorrectable
  extract_lets +onlyGivenNames hh d l retire e
  have hd : f d = f c := h.lowInc _ _ hecc
  have he : f e = f d := by
    unfold e
    split
    · next m _ => exact (h.complete _ _ _).trans ((h.stopTask _ _).trans ((h.state _ _ _ _ _ _ _ _ _ _ _ _).trans (h.raise _ _)))
    · exact h.ev _ _ _ _
  exact (h.benchMend hb _ _ _ _).trans (he.trans hd)

theorem windowRead (c : Chip) (a : Nat) (o : EccObs) : f (c.windowRead a o).2 = f c := by
  have hunit : (∀ n, sramUnit a = some (.inl n) → n < 8) ∧ ∀ b, sramUnit a = some (.inr b) → b < 32 := by
    unfold sramUnit
    constructor
    all_goals
      intro n hn
      repeat rw [ite_eq_iff] at hn
      simp only [Option.some.injEq, Sum.inl.injEq, Sum.inr.injEq, reduceCtorEq, and_false, or_false, false_or] at hn
      omega
  obtain ⟨harr, hbench⟩ := hunit
  unfold Chip.windowRead
  split
  next n row ha => exact h.arrayCorrected _ (harr n ha) _ _
  next n row ha => exact h.arrayLost _ (harr n ha) _ _
  next o b ha =>
    split
    next k off hk =>
    split
    · exact h.benchCorrected (hbench b ha) _ _ _ _
    · exact h.benchUncorrectable _ (hbench b ha) _ _ _
    · rfl
  next => rfl

theorem sight (c : Chip) (l : List (Nat × Nat)) (o : Seen) : f (c.sight l o).2 = f c := by
  unfold Chip.sight
  refine foldl_keeps (fun y : Sight × Chip => f y.2) _ (fun x e => ?_) _ _
  dsimp only
  split
  · split
    · exact h.firstRead _ _ _
    · exact h.windowRead _ _ _
  · rfl

/-! #### What a slot's inputs read -/

theorem setLoop (c : Chip) (k : Half) (n : Nat) (y : LoopSt) : f (c.setLoop k n y) = f c := h.loops c _ _

theorem engineRead (c : Chip) (k : Half) (s n : Nat) (o : Seen) : f (c.engineRead k s n o).2 = f c := by
  unfold Chip.engineRead
  extract_lets +onlyGivenNames d
  have hd : f d = f c := ite_keeps (h.ev _ _ _ _) rfl
  split
  · exact hd
  next v a len _ =>
  split
  next u _ => exact (h.refusalEvent d k none 0 u 4 0x60).trans hd
  next =>
    have hs := h.sight d [(a, len)] o
    split
    next e g hg =>
    rw [hg] at hs
    split
    · exact hs.trans hd
    · exact (h.state g _ _ _ _ _ _ _ _ _ _ _).trans (hs.trans hd)

theorem readSource (c : Chip) (o : Seen) (k : Half) (s i : Nat) : f (c.readSource o k s i).2 = f c := by
  unfold Chip.readSource
  extract_lets +onlyGivenNames w n
  split
  case h_5 =>
    extract_lets +onlyGivenNames slot
    have hr := h.engineRead c k slot (2 ^ 32) o
    split
    next got d hd =>
    rw [hd] at hr
    extract_lets +onlyGivenNames x c' hold
    have hhold (st : Nat) : f (hold st).2 = f c := by
      unfold hold
      exact (ite_keeps (h.setLoop _ _ _ _) ((h.ev _ _ _ _).trans (h.setLoop _ _ _ _))).trans hr
    split
    · exact hhold _
    · exact hhold _
    · split
      · exact hhold _
      · split
        · exact hhold _
        · split
          · exact hhold _
          · exact (h.setLoop _ _ _ _).trans hr
  all_goals rfl

theorem readSources (c : Chip) (o : Seen) (k : Half) (s : Nat) (l : List Nat) : f (c.readSources o k s l).2 = f c := by
  induction l generalizing c with
  | nil => rfl
  | cons i l ih => exact (ih _).trans (h.readSource c o k s i)

theorem stopFades (c : Chip) (k : Half) (s : Nat) : f (c.stopFades k s) = f c := h.loops c _ _

section
variable (hstate : ∀ (c : Chip) (k : Half) (n v : Nat), f (c.setReg (Reg.LOOP_STATE k.idx n) v) = f c)
include hstate

theorem setLoopState (c : Chip) (k : Half) (s n : Nat) : f (c.setLoopState k s n) = f c := (h.ev _ _ _ _).trans (hstate _ _ _ _)

theorem takeFromFault (c : Chip) (k : Half) (a b : Nat) : f (c.takeFromFault k a b) = f c := by
  unfold Chip.takeFromFault
  extract_lets +onlyGivenNames x prev d e y g
  have hd : f d = f c := h.setLoop _ _ _ _
  have he : f e = f d := h.state d _ _ _ _ _ _ _ _ _ _ _
  have hg : f g = f e := h.setLoop _ _ _ _
  exact (h.ev _ _ _ _).trans ((h.setLoopState hstate _ _ _ _).trans ((hstate _ _ _ _).trans (hg.trans (he.trans hd))))

theorem handoverSlots (c : Chip) (o : Seen) (k : Half) (a b : Nat) : f (c.handoverSlots o k a b).2 = f c := by
  unfold Chip.handoverSlots
  split
  · exact (h.stopFades _ _ _).trans (h.takeFromFault hstate _ _ _ _)
  · extract_lets +onlyGivenNames xb d prev
    have hd : f d = f c := h.state c _ _ _ _ _ _ _ _ _ _ _
    have hr := h.readSources d o k b ((List.range (d.nR k b)).map (8 + ·))
    split
    next r e he =>
    rw [he] at hr
    extract_lets +onlyGivenNames w u g diff
    have hg : f g = f c := (h.state e _ _ _ _ _ _ _ _ _ _ _).trans (hr.trans hd)
    clear_value g
    split
    · exact (h.ev _ _ _ _).trans hg
    · extract_lets +onlyGivenNames y1 g1
      have hg1 : f g1 = f c := (h.setLoop _ _ _ _).trans hg
      clear_value g1
      split
      · extract_lets +onlyGivenNames y2 g2
        have hg2 : f g2 = f c := (h.setLoop _ _ _ _).trans hg1
        exact (h.ev _ _ _ _).trans ((h.setLoopState hstate _ _ _ _).trans ((h.setLoopState hstate _ _ _ _).trans ((hstate _ _ _ _).trans hg2)))
      · extract_lets +onlyGivenNames y2 g2 y3 g3
        have hg2 : f g2 = f c := (h.setLoop _ _ _ _).trans hg1
        have hg3 : f g3 = f g2 := h.setLoop _ _ _ _
        exact (h.setLoopState hstate _ _ _ _).trans ((h.setLoopState hstate _ _ _ _).trans (hg3.trans hg2))

end

end ReadPart

end Machine

end Sys2Proof

/-! PROOF. Commands to the loop slots wait and apply (R376–R380). -/

namespace Sys2Proof

namespace Machine

/-! ### The result register of an engine -/

theorem steadyReg_result (h : Half) : steadyReg (Reg.STEADY_CMD_RESULT h.idx) := by
  unfold steadyReg
  cases h <;> decide

theorem steadyReg_loopState (h : Half) (n : Fin 16) : steadyReg (Reg.LOOP_STATE h.idx n) := by
  have hn := n.isLt
  unfold steadyReg Reg.LOOP_STATE
  have hi := idx_le h
  omega

/-- A field of the engines is aside of what follows from the authority state. -/
theorem Settled.of_steady {g : RF} (hg : steadyReg g.addr) : Settled g ∧ ∀ h : Half, (F.AUTH_STATUS_STATE h.idx).Apart g := by
  have hne {f : RF} (hw : f.lo + f.wid ≤ 32) (hf : f.addr < 0xA00000) : f.Apart g := ⟨hw, .inl (ne_of_gt (Nat.lt_of_lt_of_le hf hg.1))⟩
  have hlow : ∀ f ∈ derivedFields 0 ++ derivedFields 1 ++ degradedFields, f.lo + f.wid ≤ 32 ∧ f.addr < 0xA00000 := by decide
  refine ⟨⟨fun he => ?_, fun f hf => hne (hlow f hf).1 (hlow f hf).2⟩, fun h => ?_⟩
  · obtain ⟨-, hhi⟩ := hg
    rcases he with hring | hlog
    · exact absurd hring.1 (by omega)
    · exact absurd hhi (by rw [hlog]; decide)
  · cases h
    · exact hne (by decide) (by decide)
    · exact hne (by decide) (by decide)

theorem Chip.q_syncAuth_steady (c : Chip) {g : RF} (hg : steadyReg g.addr) : c.syncAuth.q g = c.q g :=
  (c.syncAuth_same (Settled.of_steady hg).1 fun h => .inr ((Settled.of_steady hg).2 h)).q

/-- What follows from the authority state is aside of the commands to the engines and of their slots. -/
theorem EventPart.syncAuth {γ : Type} {f : Chip → γ} (h : EventPart f) (ha : ∀ c y, f { c with auth := y } = f c) (he : ∀ c y, f { c with env := y } = f c)
    (c : Chip) : f c.syncAuth = f c := by
  have hhalf (d : Chip) (k : Half) : f (d.syncAuthHalf k) = f d := by
    unfold Chip.syncAuthHalf
    refine ite_keeps rfl ?_
    extract_lets +onlyGivenNames c1 x off soft ready c2 c3 ok c4 c5
    have h1 : f c1 = f d := ite_keeps ((h.ev _ _ _ _).trans (h.put _ _ _)) rfl
    have h3 : f c3 = f c1 := (h.put _ _ _).trans (ha _ _)
    have h4 : f c4 = f c3 := ite_keeps rfl ((h.ev _ _ _ _).trans (h.put _ _ _))
    have h5 : f c5 = f c4 := h.put _ _ _
    exact (ite_keeps ((h.ev _ _ _ _).trans (h.put _ _ _)) (ite_keeps ((h.ev _ _ _ _).trans (h.put _ _ _)) rfl)).trans (h5.trans (h4.trans (h3.trans h1)))
  have hdeg (d : Chip) : f d.syncDegraded = f d := by
    unfold Chip.syncDegraded
    extract_lets +onlyGivenNames n was set e
    have hset (v : Nat) (y : Chip) : f (set v y) = f y := (he _ _).trans ((he _ _).trans ((h.put _ _ _).trans (h.put _ _ _)))
    have hd : f e = f d := (h.put _ _ _).trans (h.put _ _ _)
    split
    · exact (h.ev _ _ _ _).trans ((hset _ _).trans hd)
    · exact (h.ev _ _ _ _).trans ((hset _ _).trans hd)
    · exact hd
  exact (hdeg _).trans ((hhalf _ _).trans (hhalf _ _))

/-- What the slots are but for the count of samples that establishes them. -/
def Chip.bareLoops (c : Chip) (h : Half) (n : Nat) : LoopSt := { c.loop h n with est := 0 }

theorem eventPart_bareLoops : EventPart fun c : Chip => (c.steadyCmd, c.bareLoops) := fun _ _ _ _ _ _ _ _ _ _ _ _ => rfl

theorem Chip.loop_setLoop (c : Chip) (h k : Half) (s n : Nat) (x : LoopSt) : (c.setLoop h s x).loop k n = if k = h ∧ n = s then x else c.loop k n := by
  unfold Chip.setLoop Chip.loop
  dsimp only
  by_cases hk : k = h
  · subst hk
    rw [Pair.get_set_same]
    by_cases hn : n = s
    · subst hn
      rw [Tbl.look_put_same, if_pos ⟨rfl, rfl⟩]
    · rw [Tbl.look_put_ne _ _ _ _ hn, if_neg fun h => hn h.2]
  · have hother : k = h.other := by revert hk; cases k <;> cases h <;> decide
    rw [if_neg fun h => hk h.1, hother, Pair.get_set_other]

theorem Chip.bareLoops_unestablish (c : Chip) (h : Half) (s : Nat) : (c.unestablish h s).bareLoops = c.bareLoops := by
  funext k n
  have hput : (c.unestablish h s).loop k n = (c.setLoop h s { c.loop h s with est := 0 }).loop k n :=
    Chip.put_keeps (fun y : Chip => y.loop k n) (fun _ _ => rfl) _ _ _
  unfold Chip.bareLoops
  rw [hput, Chip.loop_setLoop]
  split
  next he => rw [he.1, he.2]
  next => rfl

/-! ### The view of the commands and of the slots -/

/-- A command that waits, what the result registers of the engines hold, the states of the slots and what they are but for what establishes them. -/
def Chip.slotsView (c : Chip) : Pair (Option SteadyCmd) × (Half → Nat) × (Half → Nat) × (Half → Fin 16 → Nat) × (Half → Nat → LoopSt) :=
  (c.steadyCmd, fun h => c.q (F.STEADY_CMD_RESULT_BUSY h.idx), fun h => c.q (F.STEADY_CMD_RESULT_RESULT h.idx), fun h n => c.loopState h n, c.bareLoops)

theorem Chip.slotsView_eq {c d : Chip} (hr : (d.steadyCmd, d.bareLoops) = (c.steadyCmd, c.bareLoops)) (hb : ∀ h : Half, d.q (F.STEADY_CMD_RESULT_BUSY h.idx) = c.q (F.STEADY_CMD_RESULT_BUSY h.idx))
    (hs : ∀ h : Half, d.q (F.STEADY_CMD_RESULT_RESULT h.idx) = c.q (F.STEADY_CMD_RESULT_RESULT h.idx)) (hl : ∀ (h : Half) (n : Fin 16), d.loopState h n = c.loopState h n) :
    d.slotsView = c.slotsView := by
  obtain ⟨hcmd, hloops⟩ := Prod.mk.inj hr
  unfold Chip.slotsView
  rw [hcmd, hloops, funext hb, funext hs, funext fun h => funext (hl h)]

theorem Chip.slotsView_syncAuth (c : Chip) : c.syncAuth.slotsView = c.slotsView :=
  Chip.slotsView_eq (eventPart_bareLoops.syncAuth (fun _ _ => rfl) (fun _ _ => rfl) c) (fun h => c.q_syncAuth_steady (steadyReg_result h))
    (fun h => c.q_syncAuth_steady (steadyReg_result h)) fun h n => c.q_syncAuth_steady (steadyReg_loopState h n)

/-- Registers of slots lie apart of the result registers. -/
theorem result_ne_loopState (h k : Half) (n : Nat) : Reg.STEADY_CMD_RESULT h.idx ≠ Reg.LOOP_STATE k.idx n := by
  unfold Reg.STEADY_CMD_RESULT Reg.LOOP_STATE
  omega

theorem Chip.slotsView_unestablish (c : Chip) (k : Half) (s : Nat) : (c.unestablish k s).slotsView = c.slotsView := by
  have hcmd : (c.unestablish k s).steadyCmd = c.steadyCmd := Chip.put_keeps (fun y : Chip => y.steadyCmd) (fun _ _ => rfl) _ _ _
  refine Chip.slotsView_eq (Prod.ext hcmd (c.bareLoops_unestablish k s)) (fun h => ?_) (fun h => ?_) fun h n => ?_
  · exact Chip.q_put_ne _ _ (result_ne_loopState h k s)
  · exact Chip.q_put_ne _ _ (result_ne_loopState h k s)
  · exact Chip.q_put_apart _ _ ⟨Nat.le_of_ble_eq_true rfl, .inr (.inl (Nat.le_of_ble_eq_true rfl))⟩

/-! ### What a check of a command reads -/

theorem list_all_congr {α : Type} {l : List α} {p q : α → Bool} (h : ∀ x ∈ l, p x = q x) : l.all p = l.all q := by
  rw [Bool.eq_iff_iff, List.all_eq_true, List.all_eq_true]
  exact forall₂_congr fun x hx => by rw [h x hx]

/-- Two chips have the same registers but for the result registers of the engines. -/
def SlotRegs (c d : Chip) : Prop := ∀ a, (∀ h : Half, a ≠ Reg.STEADY_CMD_RESULT h.idx) → d.reg a = c.reg a

section
variable {c d : Chip} (hd : SlotRegs c d)
include hd

theorem SlotRegs.q {g : RF} (hg : ∀ h : Half, g.addr ≠ Reg.STEADY_CMD_RESULT h.idx) : d.q g = c.q g := by
  unfold Chip.q
  rw [hd _ hg]

theorem SlotRegs.loopState (h : Half) (n : Nat) : d.loopState h n = c.loopState h n := hd.q fun k => (result_ne_loopState k h n).symm

theorem SlotRegs.timing (h : Half) (n : Nat) : d.loopPeriod h n = c.loopPeriod h n ∧ d.loopPhase h n = c.loopPhase h n := by
  have hne (k : Half) : Reg.LOOP_TIMING h.idx n ≠ Reg.STEADY_CMD_RESULT k.idx := by
    unfold Reg.LOOP_TIMING Reg.STEADY_CMD_RESULT
    omega
  exact ⟨hd.q hne, hd.q hne⟩

theorem SlotRegs.cfg (h : Half) (n : Nat) {g : RF} (hg : g.addr = Reg.LOOP_CFG h.idx n) : d.q g = c.q g := by
  refine hd.q fun k => ?_
  rw [hg]
  unfold Reg.LOOP_CFG Reg.STEADY_CMD_RESULT
  omega

theorem SlotRegs.words (h : Half) (n : Nat) {i : Nat} (hi : i < 16) : d.reg (Reg.LOOP_Y_SRC h.idx n i) = c.reg (Reg.LOOP_Y_SRC h.idx n i) ∧
    d.reg (Reg.LOOP_R_SRC h.idx n i) = c.reg (Reg.LOOP_R_SRC h.idx n i) ∧ d.reg (Reg.LOOP_U_DST h.idx n i) = c.reg (Reg.LOOP_U_DST h.idx n i) := by
  refine ⟨hd _ fun k => ?_, hd _ fun k => ?_, hd _ fun k => ?_⟩
  · unfold Reg.LOOP_Y_SRC Reg.STEADY_CMD_RESULT; omega
  · unfold Reg.LOOP_R_SRC Reg.STEADY_CMD_RESULT; omega
  · unfold Reg.LOOP_U_DST Reg.STEADY_CMD_RESULT; omega

theorem SlotRegs.nU (h : Half) (n : Nat) : d.nU h n = c.nU h n := congrArg (min · 8) (hd.cfg h n rfl)

theorem SlotRegs.destKeys (h : Half) (n : Nat) : d.destKeys h n = c.destKeys h n := by
  unfold Chip.destKeys
  rw [hd.nU]
  refine List.filterMap_congr fun i hi => ?_
  have hi8 : i < 8 := Nat.lt_of_lt_of_le (List.mem_range.1 hi) (min_le_right _ _)
  have hdst := (hd.words h n (Nat.lt_trans hi8 (by decide))).2.2
  have hkind : d.q (F.LOOP_U_DST_KIND h.idx n i) = c.q (F.LOOP_U_DST_KIND h.idx n i) := congrArg (bits · 28 4) hdst
  have hindex : d.q (F.LOOP_U_DST_INDEX h.idx n i) = c.q (F.LOOP_U_DST_INDEX h.idx n i) := congrArg (bits · 0 4) hdst
  unfold Chip.destKey
  rw [hkind, hindex]

theorem SlotRegs.partners (h : Half) (a b : Nat) : d.partners h a b = c.partners h a b := by
  unfold Chip.partners
  rw [(hd.timing h a).1, (hd.timing h b).1, hd.nU, hd.nU]
  congr 1
  refine list_all_congr fun i hi => ?_
  have hi16 : i < 16 := Nat.lt_trans (Nat.lt_of_lt_of_le (List.mem_range.1 hi) (min_le_right _ _)) (by decide)
  rw [(hd.words h a hi16).2.2, (hd.words h b hi16).2.2]

theorem SlotRegs.loopValid (h : Half) (n : Nat) : d.loopValid h n = c.loopValid h n := by
  have hcfg {g : RF} (hg : g.addr = Reg.LOOP_CFG h.idx n) : d.q g = c.q g := hd.cfg h n hg
  have hfield {g : RF} (hg : g.wid = 4) {i : Nat} (hi : i ∈ List.range (c.q g)) : i < 16 := by
    have hlt : c.q g < 2 ^ g.wid := Nat.mod_lt _ (Nat.two_pow_pos _)
    rw [hg] at hlt
    exact Nat.lt_trans (List.mem_range.1 hi) hlt
  unfold Chip.loopValid
  rw [hcfg (g := F.LOOP_CFG_N_X h.idx n) rfl, hcfg (g := F.LOOP_CFG_N_Y h.idx n) rfl, hcfg (g := F.LOOP_CFG_N_R h.idx n) rfl,
    hcfg (g := F.LOOP_CFG_N_U h.idx n) rfl, (hd.timing h n).1, (hd.timing h n).2]
  extract_lets +onlyGivenNames nx ny nr nu p
  have hy : ((List.range ny).all fun i => sourceGood (d.reg (Reg.LOOP_Y_SRC h.idx n i))) = (List.range ny).all fun i => sourceGood (c.reg (Reg.LOOP_Y_SRC h.idx n i)) :=
    list_all_congr fun i hi => by rw [(hd.words h n (hfield rfl hi)).1]
  have hr : ((List.range nr).all fun i => sourceGood (d.reg (Reg.LOOP_R_SRC h.idx n i))) = (List.range nr).all fun i => sourceGood (c.reg (Reg.LOOP_R_SRC h.idx n i)) :=
    list_all_congr fun i hi => by rw [(hd.words h n (hfield rfl hi)).2.1]
  have hu : ((List.range nu).all fun i => decide (d.q (F.LOOP_U_DST_KIND h.idx n i) ≤ 2)) = (List.range nu).all fun i => decide (c.q (F.LOOP_U_DST_KIND h.idx n i) ≤ 2) :=
    list_all_congr fun i hi => by
      have hkind : d.q (F.LOOP_U_DST_KIND h.idx n i) = c.q (F.LOOP_U_DST_KIND h.idx n i) := congrArg (bits · 28 4) (hd.words h n (hfield rfl hi)).2.2
      rw [hkind]
  rw [hy, hr, hu]

theorem SlotRegs.loadOf (h : Half) (l : List Nat) : d.loadOf h l = c.loadOf h l := by
  have hper : d.loopPeriod h = c.loopPeriod h := funext fun n => (hd.timing h n).1
  unfold Chip.loadOf
  rw [hper]

theorem SlotRegs.steadyCheck (h : Half) (op n b : Nat) : d.steadyCheck h op n b = c.steadyCheck h op n b := by
  have hst : d.loopState h = c.loopState h := funext (hd.loopState h)
  have hen : d.enabledSlots h = c.enabledSlots h := by
    unfold Chip.enabledSlots
    rw [hst]
  have hshare : d.shareDest h = c.shareDest h := by
    funext a b
    unfold Chip.shareDest
    rw [hd.destKeys, hd.destKeys]
  have hpart : d.partners h = c.partners h := funext fun a => funext (hd.partners h a)
  unfold Chip.steadyCheck
  rw [hst, hen, hshare, hpart, hd.loadOf, hd.loopValid]

end

/-! ### The result of a command -/

section
variable (c : Chip) (h : Half) (op n res : Nat)

/-- A result is recorded in one register, and a refusal tells of it. -/
theorem Chip.steadyResult_q {g : RF} (hg : steadyReg g.addr) (hne : g.addr ≠ Reg.STEADY_CMD_RESULT h.idx ∨ g = F.STEADY_CMD_RESULT_BUSY h.idx) :
    (c.steadyResult h op n res).q g = c.q g := by
  have hap (f : RF) (hf : f.addr = Reg.STEADY_CMD_RESULT h.idx) (hw : f.lo + f.wid ≤ 31) : f.Apart g := by
    refine ⟨Nat.le_trans hw (by decide), ?_⟩
    rcases hne with hne | hne
    · exact .inl (by rw [hf]; exact hne)
    · exact .inr (.inl (by rw [hne]; exact hw))
  unfold Chip.steadyResult
  extract_lets +onlyGivenNames d
  have hd : d.q g = c.q g := (Chip.q_put_apart _ _ (hap _ rfl (Nat.le_of_ble_eq_true rfl))).trans
    ((Chip.q_put_apart _ _ (hap _ rfl (Nat.le_of_ble_eq_true rfl))).trans (Chip.q_put_apart _ _ (hap _ rfl (Nat.le_of_ble_eq_true rfl))))
  split
  · exact hd
  · exact (Chip.q_raise _ _ (Settled.of_steady hg).1.event).trans hd

theorem Chip.steadyResult_res : (c.steadyResult h op n res).q (F.STEADY_CMD_RESULT_RESULT h.idx) = res % 2 ^ 8 := by
  unfold Chip.steadyResult
  extract_lets +onlyGivenNames d
  have hd : d.q (F.STEADY_CMD_RESULT_RESULT h.idx) = res % 2 ^ 8 := Chip.q_put_same _ _ _ (Nat.le_of_ble_eq_true rfl)
  split
  · exact hd
  · exact (Chip.q_raise _ _ (Settled.of_steady (g := F.STEADY_CMD_RESULT_RESULT h.idx) (steadyReg_result h)).1.event).trans hd

theorem EventPart.steadyResult {γ : Type} {f : Chip → γ} (hf : EventPart f) : f (c.steadyResult h op n res) = f c := by
  unfold Chip.steadyResult
  extract_lets +onlyGivenNames d
  have hd : f d = f c := (hf.put _ _ _).trans ((hf.put _ _ _).trans (hf.put _ _ _))
  exact (ite_keeps rfl (hf.ev _ _ _ _)).trans hd

end

/-! ### A command that waits -/

/-- A result register is not that of the other half. -/
theorem result_ne_other (h : Half) : Reg.STEADY_CMD_RESULT h.idx ≠ Reg.STEADY_CMD_RESULT h.other.idx := by cases h <;> decide

section
variable (c : Chip) (h : Half) (k : SteadyCmd)

theorem Chip.steadyPend_waits : (c.steadyPend h k).on (F.STEADY_CMD_RESULT_BUSY h.idx) = true ∧
    (c.steadyPend h k).q (F.STEADY_CMD_RESULT_RESULT h.idx) = 0 ∧ (c.steadyPend h k).steadyCmd = c.steadyCmd.set h (some k) := by
  have hbusy : (c.steadyPend h k).q (F.STEADY_CMD_RESULT_BUSY h.idx) = 1 := Chip.q_put_same _ _ _ (Nat.le_of_ble_eq_true rfl)
  have hres : (c.steadyPend h k).q (F.STEADY_CMD_RESULT_RESULT h.idx) = 0 :=
    (Chip.q_put_apart _ _ ⟨Nat.le_of_ble_eq_true rfl, .inr (.inr (Nat.le_of_ble_eq_true rfl))⟩).trans (Chip.steadyResult_res _ h k.op k.slot 0)
  refine ⟨?_, hres, ?_⟩
  · rw [Chip.on, hbusy]
    rfl
  · exact (Chip.put_keeps (fun y : Chip => y.steadyCmd) (fun _ _ => rfl) _ _ _).trans
      (EventPart.steadyResult (f := fun y : Chip => y.steadyCmd) _ h k.op k.slot 0 fun _ _ _ _ _ _ _ _ _ _ _ _ => rfl)

theorem Chip.steadyPend_other {g : RF} (hg : g.addr = Reg.STEADY_CMD_RESULT h.other.idx) : (c.steadyPend h k).q g = c.q g := by
  have hne : g.addr ≠ Reg.STEADY_CMD_RESULT h.idx := by
    rw [hg]
    exact (result_ne_other h).symm
  have hst : steadyReg g.addr := by
    rw [hg]
    exact steadyReg_result _
  exact (Chip.q_put_ne _ _ hne).trans (Chip.steadyResult_q _ h k.op k.slot 0 hst (.inl hne))

end

/-- The least sample instant of a slot from an instant on. -/
theorem sampleInstant_bounds (t ph p : Nat) (hp : 0 < p) : t ≤ ph + (t - ph + p - 1) / p * p ∧ ∃ j, ph + (t - ph + p - 1) / p * p = ph + j * p := by
  refine ⟨?_, _, rfl⟩
  have hdiv := Nat.div_add_mod (t - ph + p - 1) p
  have hmod := Nat.mod_lt (t - ph + p - 1) hp
  rw [Nat.mul_comm] at hdiv
  omega

section
variable {c : Chip} {i : Initiator} {h : Half} {op n b : Nat}

/-- A command that no check refuses waits, at the peer too unless that refuses it. -/
theorem Chip.steadyCommand_waits (hbusy : c.on (F.STEADY_CMD_RESULT_BUSY h.idx) = false)
    (hpeer : c.down.get h.other = true ∨ (c.on (F.STEADY_CMD_RESULT_BUSY h.other.idx) = false ∧ c.on (F.AUTH_STATUS_PATH_HL h.idx) = true))
    (hcheck : c.steadyCheck h op n b = 0) (hcrc : op = 1 → c.down.get h.other = true ∨ c.loopCrc h n = c.loopCrc h.other n) :
    ∃ t, c.steadyCommand h op n b = (let k : SteadyCmd := ⟨op, n, b, t⟩
        if c.down.get h.other then c.steadyPend h k
        else if c.steadyCheck h.other op n b ≠ 0 then (c.steadyPend h k).steadyResult h.other op n (c.steadyCheck h.other op n b) else (c.steadyPend h k).steadyPend h.other k) ∧
      c.stamp h (c.q (F.STEADY_CTL_TB h.idx)) + 20 * usUnits ≤ t ∧ ∃ j, t = c.loopPhase h n * usUnits + j * (max (c.loopPeriod h n) 1 * usUnits) := by
  obtain ⟨hle, j, hj⟩ := sampleInstant_bounds (c.stamp h (c.q (F.STEADY_CTL_TB h.idx)) + 20 * usUnits) (c.loopPhase h n * usUnits) (max (c.loopPeriod h n) 1 * usUnits)
    (Nat.mul_pos (Nat.lt_of_lt_of_le Nat.one_pos (le_max_right _ _)) (by decide))
  refine ⟨_, ?_, hle, j, hj⟩
  unfold Chip.steadyCommand
  extract_lets +onlyGivenNames alone busy chk res
  have hres : res = 0 := by
    have h1 : ¬(busy h = true ∨ (¬alone = true ∧ busy h.other = true)) := by
      rintro (hb | ⟨ha, hb⟩)
      · exact Bool.eq_false_iff.1 hbusy hb
      · exact Bool.eq_false_iff.1 (hpeer.resolve_left ha).1 hb
    have h2 : ¬(¬alone = true ∧ ¬c.on (F.AUTH_STATUS_PATH_HL h.idx) = true) := fun hn => hn.2 (hpeer.resolve_left hn.1).2
    have h4 : ¬(op = 1 ∧ ¬alone = true ∧ c.loopCrc h n ≠ c.loopCrc h.other n) := fun hn => (hcrc hn.1).elim hn.2.1 hn.2.2
    exact (if_neg h1).trans ((if_neg h2).trans ((if_neg (not_not_intro hcheck)).trans (if_neg h4)))
  exact if_neg (not_not_intro hres)

/-- What a command that waits has left (R377, R378). -/
def Chip.CommandWaits (c : Chip) (h : Half) (op n b : Nat) (t : Chip) : Prop :=
  t.on (F.STEADY_CMD_RESULT_BUSY h.idx) = true ∧ t.q (F.STEADY_CMD_RESULT_RESULT h.idx) = 0 ∧
    ∃ k, t.steadyCmd.get h = some k ∧ k.op = op ∧ k.slot = n ∧ k.into = b ∧ c.stamp h (c.q (F.STEADY_CTL_TB h.idx)) + 20 * usUnits ≤ k.instant ∧
      (∃ j, k.instant = c.loopPhase h n * usUnits + j * (max (c.loopPeriod h n) 1 * usUnits)) ∧
      (c.down.get h.other = false → c.steadyCheck h.other op n b = 0 → t.steadyCmd.get h.other = some k ∧ t.on (F.STEADY_CMD_RESULT_BUSY h.other.idx) = true) ∧
      (c.down.get h.other = false → c.steadyCheck h.other op n b ≠ 0 → t.steadyCmd.get h.other = c.steadyCmd.get h.other ∧
        t.q (F.STEADY_CMD_RESULT_RESULT h.other.idx) = c.steadyCheck h.other op n b)

theorem Chip.steadyCheck_lt (c : Chip) (h : Half) (op n b : Nat) : c.steadyCheck h op n b < 256 := by
  unfold Chip.steadyCheck
  have hite {p : Prop} [Decidable p] {x y : Nat} (hx : x < 256) (hy : y < 256) : (if p then x else y) < 256 := by
    split
    · exact hx
    · exact hy
  extract_lets +onlyGivenNames st
  split
  · exact hite (by decide) (hite (by decide) (hite (by decide) (hite (by decide) (by decide))))
  · exact hite (by decide) (hite (by decide) (by decide))
  · exact hite (by decide) (by decide)
  · exact hite (by decide) (hite (by decide) (by decide))
  · decide

theorem Chip.steadyCommand_commandWaits (hbusy : c.on (F.STEADY_CMD_RESULT_BUSY h.idx) = false)
    (hpeer : c.down.get h.other = true ∨ (c.on (F.STEADY_CMD_RESULT_BUSY h.other.idx) = false ∧ c.on (F.AUTH_STATUS_PATH_HL h.idx) = true))
    (hcheck : c.steadyCheck h op n b = 0) (hcrc : op = 1 → c.down.get h.other = true ∨ c.loopCrc h n = c.loopCrc h.other n) :
    c.CommandWaits h op n b (c.steadyCommand h op n b) := by
  obtain ⟨t, heq, hle, hinst⟩ := Chip.steadyCommand_waits hbusy hpeer hcheck hcrc
  obtain ⟨hb, hr, hcmd⟩ := c.steadyPend_waits h ⟨op, n, b, t⟩
  have hget : (c.steadyPend h ⟨op, n, b, t⟩).steadyCmd.get h = some ⟨op, n, b, t⟩ := by rw [hcmd, Pair.get_set_same]
  have hoo : h.other.other = h := by cases h <;> rfl
  rw [heq]
  by_cases hd : c.down.get h.other = true
  · dsimp only
    rw [if_pos hd]
    exact ⟨hb, hr, _, hget, rfl, rfl, rfl, hle, hinst, fun hf => absurd hd (Bool.eq_false_iff.1 hf), fun hf => absurd hd (Bool.eq_false_iff.1 hf)⟩
  dsimp only
  rw [if_neg hd]
  by_cases hfar : c.steadyCheck h.other op n b = 0
  · rw [if_neg (not_not_intro hfar)]
    obtain ⟨hb', -, hcmd'⟩ := (c.steadyPend h ⟨op, n, b, t⟩).steadyPend_waits h.other ⟨op, n, b, t⟩
    have hkeep {g : RF} (hg : g.addr = Reg.STEADY_CMD_RESULT h.idx) : ((c.steadyPend h ⟨op, n, b, t⟩).steadyPend h.other ⟨op, n, b, t⟩).q g = (c.steadyPend h ⟨op, n, b, t⟩).q g :=
      Chip.steadyPend_other _ h.other _ (by rw [hoo]; exact hg)
    refine ⟨(congrArg (· != 0) (hkeep (g := F.STEADY_CMD_RESULT_BUSY h.idx) rfl)).trans hb, (hkeep (g := F.STEADY_CMD_RESULT_RESULT h.idx) rfl).trans hr, ⟨op, n, b, t⟩, ?_, rfl, rfl, rfl, hle, hinst,
      fun _ _ => ⟨?_, hb'⟩, fun _ hn => absurd hfar hn⟩
    · rw [hcmd']
      have hother := Pair.get_set_other (c.steadyPend h ⟨op, n, b, t⟩).steadyCmd h.other (some (⟨op, n, b, t⟩ : SteadyCmd))
      rw [hoo] at hother
      exact hother.trans hget
    · rw [hcmd', Pair.get_set_same]
  · rw [if_pos hfar]
    have hkeep {g : RF} (hg : g.addr = Reg.STEADY_CMD_RESULT h.idx) :
        ((c.steadyPend h ⟨op, n, b, t⟩).steadyResult h.other op n (c.steadyCheck h.other op n b)).q g = (c.steadyPend h ⟨op, n, b, t⟩).q g :=
      Chip.steadyResult_q _ h.other _ _ _ (by rw [hg]; exact steadyReg_result h) (.inl (by rw [hg]; exact result_ne_other h))
    have hc : ((c.steadyPend h ⟨op, n, b, t⟩).steadyResult h.other op n (c.steadyCheck h.other op n b)).steadyCmd = (c.steadyPend h ⟨op, n, b, t⟩).steadyCmd :=
      EventPart.steadyResult (f := fun y : Chip => y.steadyCmd) _ _ _ _ _ fun _ _ _ _ _ _ _ _ _ _ _ _ => rfl
    refine ⟨(congrArg (· != 0) (hkeep (g := F.STEADY_CMD_RESULT_BUSY h.idx) rfl)).trans hb, (hkeep (g := F.STEADY_CMD_RESULT_RESULT h.idx) rfl).trans hr, ⟨op, n, b, t⟩, ?_, rfl, rfl, rfl, hle, hinst,
      fun _ hz => absurd hz hfar, fun _ _ => ⟨?_, ?_⟩⟩
    · rw [hc, hget]
    · rw [hc, hcmd, Pair.get_set_other]
    · exact (Chip.steadyResult_res _ _ _ _ _).trans (Nat.mod_eq_of_lt (c.steadyCheck_lt _ _ _ _))

end

/-- A command that its writer may give is checked and waits. -/
theorem Chip.steadyWrite_admitted {c : Chip} {i : Initiator} {h : Half} {op n b : Nat} (hcause : c.portCause i true (Reg.STEADY_CMD h.idx) = 0)
    (hdown : c.down.get h = false) : c.steadyWrite i h op n b = c.steadyCommand h op n b := by
  unfold Chip.steadyWrite
  simp only [hcause, hdown, Bool.false_eq_true, if_false]

/-! ### A command that applies -/

section
variable (c : Chip) (h : Half) (k : SteadyCmd)

/-- The chip whose engine takes commands again. -/
def Chip.commandTaken (c : Chip) (h : Half) : Chip := ({ c with steadyCmd := c.steadyCmd.set h none } : Chip).put (F.STEADY_CMD_RESULT_BUSY h.idx) 0

theorem Chip.commandTaken_regs : SlotRegs c (c.commandTaken h) := fun _ ha => Chip.reg_put_ne (c := ({ c with steadyCmd := c.steadyCmd.set h none } : Chip)) (f := F.STEADY_CMD_RESULT_BUSY h.idx) 0 (ha h)

theorem Chip.commandTaken_free : (c.commandTaken h).steadyCmd.get h = none ∧ (c.commandTaken h).q (F.STEADY_CMD_RESULT_BUSY h.idx) = 0 :=
  ⟨Pair.get_set_same _ _ _, Chip.q_put_same _ _ _ (Nat.le_of_ble_eq_true rfl)⟩

/-- The operation that a command names, with its result. -/
def Chip.commandDone (c : Chip) (o : Seen) (h : Half) (k : SteadyCmd) : Nat × Chip :=
  match k.op with
  | 1 => (0, c.armSlot h k.slot)
  | 2 => (0, c.closeSlot h k.slot)
  | 3 => (0, c.openSlot h k.slot)
  | _ => c.handoverSlots o h k.slot k.into

theorem Chip.slotsView_steadyApply (o : Seen) : (c.steadyApply o h k).slotsView =
    (if (c.commandTaken h).steadyCheck h k.op k.slot k.into ≠ 0 then (c.commandTaken h).steadyResult h k.op k.slot 0x40
      else ((c.commandTaken h).commandDone o h k).2.steadyResult h k.op k.slot ((c.commandTaken h).commandDone o h k).1).slotsView := by
  unfold Chip.steadyApply
  refine (foldl_keeps Chip.slotsView _ (fun x n => ?_) _ _).trans rfl
  exact ite_keeps ((Chip.slotsView_unestablish _ _ _).trans (Chip.slotsView_unestablish _ _ _)) rfl

end

/-- What a command at an engine waits for: the command itself and whether the engine takes another. -/
def Chip.pending (c : Chip) (h : Half) : Pair (Option SteadyCmd) × Nat := (c.steadyCmd, c.q (F.STEADY_CMD_RESULT_BUSY h.idx))

theorem Chip.pending_setReg (c : Chip) {h : Half} {a : Nat} (v : Nat) (ha : a ≠ Reg.STEADY_CMD_RESULT h.idx) : (c.setReg a v).pending h = c.pending h :=
  Prod.ext rfl (Chip.q_setReg_ne c v ha.symm)

theorem readPart_pending (h : Half) : ReadPart fun c : Chip => c.pending h where
  raise c e := Prod.ext (EventPart.raise (f := fun y : Chip => y.steadyCmd) (fun _ _ _ _ _ _ _ _ _ _ _ _ => rfl) c e)
    (Chip.q_raise c e (Settled.of_steady (g := F.STEADY_CMD_RESULT_BUSY h.idx) (steadyReg_result h)).1.event)
  reg c a v ha := c.pending_setReg v fun he => ha (by rw [he]; exact (steadyReg_result h).ioReg)
  complete c m d := by
    refine Prod.ext (Chip.complete_part (f := fun y : Chip => y.steadyCmd) (fun _ _ _ _ _ _ _ _ _ _ _ _ => rfl) (fun _ _ => rfl) c m d) ?_
    refine (SameField.complete (g := F.STEADY_CMD_RESULT_BUSY h.idx) (m := m) (SameField.refl c) ⟨?_, ?_, fun _ => ?_, fun _ => ?_⟩ d).q
    · exact Nat.lt_trans (steadyReg_result h).2 (by decide)
    · exact ne_of_lt (Nat.lt_trans (steadyReg_result h).2 (by decide))
    · unfold Reg.ATTN_CMD_CNT_LO Reg.ATTN_CMD_CNT_HI
      show Reg.STEADY_CMD_RESULT h.idx ≠ _ ∧ Reg.STEADY_CMD_RESULT h.idx ≠ _
      unfold Reg.STEADY_CMD_RESULT
      omega
    · show Reg.STEADY_CMD_RESULT h.idx ≠ _
      unfold Reg.STEADY_CMD_RESULT Reg.PARTING_STATUS
      omega
  state _ _ _ _ _ _ _ _ _ _ _ _ := rfl
  loops _ _ _ := rfl
  work _ _ _ _ _ _ := rfl

section
variable (c : Chip) (h : Half) (n : Nat)

theorem Chip.pending_setLoopState (k : Half) (s : Nat) : (c.setLoopState k n s).pending h = c.pending h :=
  (readPart_pending h).setLoopState (fun d k n v => d.pending_setReg v (result_ne_loopState h k n).symm) c k n s

theorem Chip.pending_putLoop (k : Half) {g : RF} (v : Nat) (hg : g.addr = Reg.LOOP_STATE k.idx n) : (c.put g v).pending h = c.pending h :=
  c.pending_setReg _ (by rw [hg]; exact (result_ne_loopState h k n).symm)

theorem Chip.pending_syncLoad (k : Half) : (c.syncLoad k).pending h = c.pending h := by
  refine Chip.pending_setReg _ _ ?_
  show Reg.STEADY_STATUS k.idx ≠ _
  unfold Reg.STEADY_STATUS Reg.STEADY_CMD_RESULT
  omega

theorem Chip.pending_armSlot : (c.armSlot h n).pending h = c.pending h := by
  refine (Chip.pending_syncLoad _ h h).trans ((Chip.pending_setLoopState _ h n h 1).trans (Chip.pending_setReg _ _ ?_))
  unfold Reg.LOOP_CRC Reg.STEADY_CMD_RESULT
  omega

theorem Chip.pending_closeSlot : (c.closeSlot h n).pending h = c.pending h := by
  unfold Chip.closeSlot
  extract_lets +onlyGivenNames start x d
  have hd : d.pending h = c.pending h := rfl
  exact (Chip.pending_setLoopState _ h n h 2).trans (((readPart_pending h).stopFades _ _ _).trans ((Chip.pending_putLoop _ h n h 0 rfl).trans hd))

theorem Chip.pending_openSlot : (c.openSlot h n).pending h = c.pending h := by
  unfold Chip.openSlot
  extract_lets +onlyGivenNames x fades y d e g
  have hd : d.pending h = c.pending h := rfl
  have he : e.pending h = d.pending h := (Chip.pending_putLoop _ h n h 0 rfl).trans ((Chip.pending_putLoop _ h n h 0 rfl).trans (Chip.pending_putLoop _ h n h 0 rfl))
  have hg : g.pending h = e.pending h := ite_keeps (f := fun y : Chip => y.pending h) rfl (Chip.pending_setLoopState _ h n h 0)
  exact (Chip.pending_syncLoad _ h h).trans (hg.trans (he.trans hd))

theorem Chip.pending_commandDone (o : Seen) (k : SteadyCmd) : (c.commandDone o h k).2.pending h = c.pending h := by
  unfold Chip.commandDone
  split
  · exact c.pending_armSlot h k.slot
  · exact c.pending_closeSlot h k.slot
  · exact c.pending_openSlot h k.slot
  · exact (readPart_pending h).handoverSlots (fun d k n v => d.pending_setReg v (result_ne_loopState h k n).symm) c o h k.slot k.into

/-! ### The slots after a command -/

theorem Chip.loopState_setLoopState {v : Nat} (hv : v < 8) (hn : n < 16) : (c.setLoopState h n v).loopState h n = v := by
  have hput : (c.put (F.LOOP_STATE_STATE h.idx n) v).loopState h n = v % 2 ^ 3 := Chip.q_put_same _ _ _ (Nat.le_of_ble_eq_true rfl)
  exact (Chip.q_raise _ _ (Settled.of_steady (g := F.LOOP_STATE_STATE h.idx n) (steadyReg_loopState h ⟨n, hn⟩)).1.event).trans (hput.trans (Nat.mod_eq_of_lt hv))

theorem Chip.loopState_syncLoad (k : Half) : (c.syncLoad k).loopState h n = c.loopState h n := by
  refine Chip.q_put_ne _ _ ?_
  show Reg.LOOP_STATE h.idx n ≠ Reg.STEADY_STATUS k.idx
  unfold Reg.STEADY_STATUS Reg.LOOP_STATE
  omega

theorem Chip.loopState_armSlot (hn : n < 16) : (c.armSlot h n).loopState h n = 1 :=
  (Chip.loopState_syncLoad _ h n h).trans (Chip.loopState_setLoopState _ h n (by decide) hn)

theorem Chip.loopState_closeSlot (hn : n < 16) : (c.closeSlot h n).loopState h n = 2 := Chip.loopState_setLoopState _ h n (by decide) hn

theorem Chip.loopState_openSlot (hn : n < 16) : (c.openSlot h n).loopState h n = 0 := by
  unfold Chip.openSlot
  extract_lets +onlyGivenNames x fades y d e g
  have hg : g.loopState h n = 0 := by
    unfold g
    split
    next hz => exact hz
    next => exact Chip.loopState_setLoopState _ h n (by decide) hn
  exact (Chip.loopState_syncLoad _ h n h).trans hg

/-- A slot that closes drives from the state that its coefficients give. -/
theorem Chip.bareLoops_closeSlot : ((c.closeSlot h n).bareLoops h n).drives = true ∧
    ((c.closeSlot h n).bareLoops h n).xh = (List.range (c.nX h n)).map fun i => toFp32 (c.coef h n 0xE20 i) := by
  unfold Chip.closeSlot
  extract_lets +onlyGivenNames start x d
  have hkeep (e : Chip) (he : e.loops = d.loops) : ((e.stopFades h n).setLoopState h n 2).bareLoops h n = d.bareLoops h n := by
    have hset : ((e.stopFades h n).setLoopState h n 2).loops = e.loops :=
      (EventPart.ev (f := fun y : Chip => y.loops) (fun _ _ _ _ _ _ _ _ _ _ _ _ => rfl) _ _ _ _).trans (Chip.put_keeps (fun y : Chip => y.loops) (fun _ _ => rfl) _ _ _)
    exact congrArg (fun l : Pair (Tbl LoopSt) => { Tbl.look LoopSt.zero (l.get h) n with est := 0 }) (hset.trans he)
  have hloop : d.loop h n = _ := (c.loop_setLoop h h n n _).trans (if_pos ⟨rfl, rfl⟩)
  rw [hkeep _ (Chip.put_keeps (fun y : Chip => y.loops) (fun _ _ => rfl) _ _ _)]
  unfold Chip.bareLoops
  rw [hloop]
  exact ⟨rfl, rfl⟩

end

section
variable {c d : Chip}

/-- What a view of the slots tells. -/
theorem Chip.of_slotsView (hv : d.slotsView = c.slotsView) (h : Half) : d.pending h = c.pending h ∧
    d.q (F.STEADY_CMD_RESULT_RESULT h.idx) = c.q (F.STEADY_CMD_RESULT_RESULT h.idx) ∧ (∀ n : Fin 16, d.loopState h n = c.loopState h n) ∧ ∀ n, d.bareLoops h n = c.bareLoops h n := by
  obtain ⟨hcmd, hrest⟩ := Prod.mk.inj hv
  obtain ⟨hbusy, hrest⟩ := Prod.mk.inj hrest
  obtain ⟨hres, hrest⟩ := Prod.mk.inj hrest
  obtain ⟨hstate, hloops⟩ := Prod.mk.inj hrest
  exact ⟨Prod.ext hcmd (congrFun hbusy h), congrFun hres h, congrFun (congrFun hstate h), congrFun (congrFun hloops h)⟩

theorem Chip.pending_steadyResult (c : Chip) (h : Half) (op n res : Nat) : (c.steadyResult h op n res).pending h = c.pending h :=
  Prod.ext (EventPart.steadyResult (f := fun y : Chip => y.steadyCmd) _ _ _ _ _ fun _ _ _ _ _ _ _ _ _ _ _ _ => rfl)
    (Chip.steadyResult_q _ _ _ _ _ (steadyReg_result h) (.inr rfl))

theorem Chip.loopState_steadyResult (c : Chip) (h k : Half) (op s res : Nat) (n : Fin 16) : (c.steadyResult h op s res).loopState k n = c.loopState k n :=
  Chip.steadyResult_q _ _ _ _ _ (steadyReg_loopState k n) (.inl (result_ne_loopState h k n).symm)

theorem Chip.bareLoops_steadyResult (c : Chip) (h : Half) (op s res : Nat) : (c.steadyResult h op s res).bareLoops = c.bareLoops :=
  (Prod.mk.inj (eventPart_bareLoops.steadyResult c h op s res)).2

end

section
variable {c t : Chip} {h : Half} {k : SteadyCmd} {o : Seen} (ht : t = (c.steadyApply o h k).syncAuth)
include ht

/-- After its instant a command waits no more. -/
theorem Chip.steadyApply_frees : t.steadyCmd.get h = none ∧ t.on (F.STEADY_CMD_RESULT_BUSY h.idx) = false := by
  obtain ⟨hcmd, hbusy⟩ := c.commandTaken_free h
  have hp : t.pending h = (c.commandTaken h).pending h := by
    rw [ht]
    refine (Chip.of_slotsView ((Chip.slotsView_syncAuth _).trans (c.slotsView_steadyApply h k o)) h).1.trans ?_
    exact ite_keeps (f := fun y : Chip => y.pending h) (Chip.pending_steadyResult _ _ _ _ _) ((Chip.pending_steadyResult _ _ _ _ _).trans (Chip.pending_commandDone _ h o k))
  obtain ⟨hc, hb⟩ := Prod.mk.inj hp
  rw [hc, Chip.on, hb, hbusy]
  exact ⟨hcmd, rfl⟩

/-- A command that no longer fits changes no slot. -/
theorem Chip.steadyApply_refused (hno : c.steadyCheck h k.op k.slot k.into ≠ 0) : t.q (F.STEADY_CMD_RESULT_RESULT h.idx) = 0x40 ∧
    (∀ g n, t.bareLoops g n = c.bareLoops g n) ∧ ∀ (g : Half) (n : Fin 16), t.loopState g n = c.loopState g n := by
  have hview : t.slotsView = ((c.commandTaken h).steadyResult h k.op k.slot 0x40).slotsView := by
    rw [ht, Chip.slotsView_syncAuth, Chip.slotsView_steadyApply, if_pos (ne_of_eq_of_ne ((c.commandTaken_regs h).steadyCheck h k.op k.slot k.into) hno)]
  have hres := Chip.steadyResult_res (c.commandTaken h) h k.op k.slot 0x40
  rw [Nat.mod_eq_of_lt (by decide)] at hres
  have hsame := (Chip.of_slotsView hview h).2.1
  refine ⟨hsame.trans hres, fun g n => ?_, fun g n => ?_⟩
  · have hkeep : (c.commandTaken h).bareLoops = c.bareLoops := Chip.put_keeps (fun y : Chip => y.bareLoops) (fun _ _ => rfl) _ _ _
    rw [(Chip.of_slotsView hview g).2.2.2 n, Chip.bareLoops_steadyResult, hkeep]
  · exact ((Chip.of_slotsView hview g).2.2.1 n).trans ((Chip.loopState_steadyResult _ _ _ _ _ _ n).trans ((c.commandTaken_regs h).loopState g n))

/-- A command that fits leaves its slot as its operation does. -/
theorem Chip.steadyApply_done (hyes : c.steadyCheck h k.op k.slot k.into = 0) (hs : k.slot < 16) :
    t.loopState h k.slot = ((c.commandTaken h).commandDone o h k).2.loopState h k.slot ∧
    t.bareLoops h k.slot = ((c.commandTaken h).commandDone o h k).2.bareLoops h k.slot := by
  have hview : t.slotsView = (((c.commandTaken h).commandDone o h k).2.steadyResult h k.op k.slot ((c.commandTaken h).commandDone o h k).1).slotsView := by
    rw [ht, Chip.slotsView_syncAuth, Chip.slotsView_steadyApply, if_neg (not_not_intro (((c.commandTaken_regs h).steadyCheck h k.op k.slot k.into).trans hyes))]
  obtain ⟨-, -, hstate, hloops⟩ := Chip.of_slotsView hview h
  exact ⟨(hstate ⟨k.slot, hs⟩).trans (Chip.loopState_steadyResult _ _ _ _ _ _ ⟨k.slot, hs⟩),
    (hloops k.slot).trans (congrFun (congrFun (Chip.bareLoops_steadyResult _ _ _ _ _) h) k.slot)⟩

/-- ARM, CLOSE and OPEN leave the slot ARMED, CLOSED and driving, and OPEN. -/
theorem Chip.steadyApply_slots (hyes : c.steadyCheck h k.op k.slot k.into = 0) (hs : k.slot < 16) :
    (k.op = 1 → t.loopState h k.slot = 1) ∧
    (k.op = 2 → t.loopState h k.slot = 2 ∧ (t.loop h k.slot).drives = true ∧
      (t.loop h k.slot).xh = (List.range (c.nX h k.slot)).map fun i => toFp32 (c.coef h k.slot 0xE20 i)) ∧
    (k.op = 3 → t.loopState h k.slot = 0) := by
  obtain ⟨hstate, hloops⟩ := Chip.steadyApply_done ht hyes hs
  refine ⟨fun hop => ?_, fun hop => ?_, fun hop => ?_⟩
  · rw [hstate, Chip.commandDone, hop]
    exact Chip.loopState_armSlot _ h k.slot hs
  · rw [Chip.commandDone, hop] at hstate hloops
    obtain ⟨hdrives, hxh⟩ := (c.commandTaken h).bareLoops_closeSlot h k.slot
    have hnx : (c.commandTaken h).nX h k.slot = c.nX h k.slot := congrArg (min · 16) ((c.commandTaken_regs h).cfg h k.slot rfl)
    refine ⟨hstate.trans (Chip.loopState_closeSlot _ h k.slot hs), (congrArg LoopSt.drives hloops).trans hdrives, (congrArg LoopSt.xh hloops).trans (hxh.trans ?_)⟩
    rw [hnx]
    refine List.map_congr_left fun i hi => ?_
    have hi16 : i < 16 := Nat.lt_of_lt_of_le (List.mem_range.1 hi) (min_le_right _ _)
    have hreg : (c.commandTaken h).reg (coefPage h k.slot + 0xE20 + 4 * i) = c.reg (coefPage h k.slot + 0xE20 + 4 * i) := by
      refine c.commandTaken_regs h _ fun g => ?_
      have hh := idx_le h
      have hg := idx_le g
      unfold coefPage Reg.STEADY_CMD_RESULT
      omega
    unfold Chip.coef
    rw [hreg]
  · rw [hstate, Chip.commandDone, hop]
    exact Chip.loopState_openSlot _ h k.slot hs

end

/-- A word of the coefficient page of a slot. -/
theorem exec_coefficientWrite_up {i : Initiator} {h : Half} {n : Fin 16} {k : Fin 2048} {v : Word} {s : State}
    (hcause : s.chip.portCause i true (coefPage h n + 4 * k) = 0) (hdown : s.chip.down.get h = false) :
    exec (.coefficientWrite i h n k v) s = .next (s.withChip (s.chip.loopWrite h n (4 * k.val) (coefPage h n + 4 * k)
      (if 0x1400 ≤ 4 * k.val ∨ (0xE80 ≤ 4 * k.val ∧ 4 * k.val < 0x1000) then 0 else v.toNat))) := by
  have hexec : exec (.coefficientWrite i h n k v) s = execCoefficientWrite i h n k v s := rfl
  unfold execCoefficientWrite at hexec
  simp only [hcause, hdown, Bool.false_eq_true, if_false] at hexec
  exact hexec.trans (s.go_eq _)

/-- A command whose instant has come applies. -/
theorem exec_steadyCommandApply_due {h : Half} {k : SteadyCmd} {o : Seen} {s : State} (hk : s.chip.steadyCmd.get h = some k)
    (hdue : 0 ≤ elapsed (s.chip.stamp h (s.chip.q (F.STEADY_CTL_TB h.idx))) k.instant) :
    exec (.steadyCommandApply h o) s = .next (s.withChip (s.chip.steadyApply o h k).syncAuth) := by
  have hexec : exec (.steadyCommandApply h o) s = execSteadyCommandApply h s o := rfl
  unfold execSteadyCommandApply at hexec
  simp only [hk, if_pos hdue] at hexec
  exact hexec.trans (s.go_eq _)

/-- Settles O46: a command waits with an instant of its slot, applies or is refused there, and the coefficients of an OPEN slot alone are written. -/
theorem steadyCommands : Obligations.SteadyCommands := by
  refine ⟨fun i h n b s => ?_, fun h k o s => ?_, fun i h n k v s => ?_⟩
  · intro c p ph waits hcause hdown hbusy hpeer
    have hwrite (op x : Nat) (hcheck : c.steadyCheck h op n x = 0) (hcrc : op = 1 → c.down.get h.other = true ∨ c.loopCrc h n = c.loopCrc h.other n) :
        ∃ t, s.go (c.steadyWrite i h op n x) = .next (s.withChip t) ∧ waits op x t :=
      ⟨_, (congrArg s.go (Chip.steadyWrite_admitted hcause hdown)).trans (s.go_eq _), Chip.steadyCommand_commandWaits hbusy hpeer hcheck hcrc⟩
    exact ⟨fun hcrc hcheck => hwrite 1 0 hcheck fun _ => hcrc, fun hcheck => hwrite 2 0 hcheck nofun, fun hcheck => hwrite 3 0 hcheck nofun,
      fun hcheck => hwrite 4 b hcheck nofun⟩
  · intro c bare hk hs _ hdue
    obtain ⟨hcmd, hbusy⟩ := Chip.steadyApply_frees (c := c) (h := h) (k := k) (o := o) rfl
    exact ⟨_, exec_steadyCommandApply_due hk hdue, hcmd, hbusy, fun hyes => Chip.steadyApply_slots rfl hyes hs, fun hno => Chip.steadyApply_refused rfl hno⟩
  · intro a hcause hdown
    have hexec := exec_coefficientWrite_up (v := v) hcause hdown
    exact ⟨fun hopen => hexec.trans (congrArg (fun d => Host.Outcome.next (s.withChip d)) (if_pos hopen)),
      fun hshut => hexec.trans (congrArg (fun d => Host.Outcome.next (s.withChip d)) (if_neg hshut))⟩

end Machine

end Sys2Proof

/-! PROOF. Attention and backward commands (R166–R186, R196, R197). -/

namespace Sys2Proof

namespace Machine

/-- A command that runs is not to be taken again. -/
theorem Chip.takeable_running {c : Chip} {id : CmdId} {m : Cmd} {grp : Nat → Bool} (hm : c.cmd? id = some m) (hs : m.stage = .running) :
    c.takeable id grp = none := by
  unfold Chip.takeable
  simp only [hm]
  exact if_neg fun h => absurd (hs.symm.trans h.2.1) (by decide)

theorem Chip.reach_ok {c : Chip} {m : Cmd} {a n : Nat} {far : Far} (h : c.reachCause m.half m.owner false a n far = none) :
    c.reach m a n far = .ok (c.load a n) := by
  unfold Chip.reach
  simp only [h]

section
variable {c : Chip} {m : Cmd} {far : Far}

/-- A dispatched command is taken by an engine with room, on which its party has a share. -/
theorem Chip.attnStart_taken {h : Half} (heng : c.attnEngine m = some h) (hroom : (c.attnCmds h).length < 64) (hshare : c.shareOn (40 + h.idx) m.owner ≠ 0)
    (hout : c.attnOutranked h m = false) (hclass : m.opcode = 0x41 → m.owner.part = 0 ∨ c.partClass m.owner.part ≠ 0) :
    c.attnStart m = c.setCmd { m with half := h, unit := 0, n := 0, aux := [], stage := if m.nTok = 0 then .done else .running, empty := m.empty || m.nTok == 0 } := by
  have hallowed : ¬(m.opcode = 0x41 ∧ m.owner.part ≠ 0 ∧ c.partClass m.owner.part = 0) := fun hn => (hclass hn.1).elim hn.2.1 fun hc => hc hn.2.2
  have hplace : ¬(64 ≤ (c.attnCmds h).length ∨ c.shareOn (40 + h.idx) m.owner = 0 ∨ c.attnOutranked h m = true) := by
    rintro (hfull | hnone | hless)
    · exact Nat.not_le_of_lt hroom hfull
    · exact hshare hnone
    · exact Bool.eq_false_iff.1 hout hless
  unfold Chip.attnStart
  simp only [if_neg hallowed, heng, if_neg hplace]

theorem Chip.attnTurn_starts {op : Nat} {id : CmdId} {o : Seen} (htake : c.takeable id (fun o => o == 0x40 || o == 0x41) = some m) (hop : m.opcode = op)
    (hhalt : c.engineHalted (.attention id) = false) : c.attnTurn op id far o = c.attnStart m := by
  unfold Chip.attnTurn
  simp only [htake, hop, hhalt, Bool.false_eq_true, not_false_eq_true, and_self, if_true]

theorem Chip.attnTurn_steps {op : Nat} {id : CmdId} {o : Seen} (hm : c.cmd? id = some m) (hs : m.stage = .running) (hop : m.opcode = op)
    (hout : c.attnOutranked m.half m = false) : c.attnTurn op id far o = c.attnStep m far o := by
  unfold Chip.attnTurn
  simp only [Chip.takeable_running hm hs, hm, hop, hs, hout, Bool.false_eq_true, not_false_eq_true, and_self, if_true]

/-- The first step reads the parameter block and the tables, and asks for a place among the pinning operations. -/
theorem Chip.attnRead_clean {x : AttnOps} {bs : List Byte} {n : Cmd} (hreach : c.reach m m.paramAddr 64 far = .ok bs)
    (hn : n = m.withAttn { m.attn with par := (List.range 4).map fun k => leNat ((bs.drop (8 * k)).take 8) }) (hops : c.attnOps n far = .ok x)
    (hwild : (c.touches n [(n.paramAddr, 64), (n.tokAddr, 8 * n.nTok), (n.segAddr, 32 * n.nSeg)]).attnWild n x = false) (hlong : x.tooLong (n.appends x) = false) :
    c.attnRead m far [] = (((c.touches n [(n.paramAddr, 64), (n.tokAddr, 8 * n.nTok), (n.segAddr, 32 * n.nSeg)]).setCmd
      (n.withAttn { n.attn with phase := if n.appends x then 1 else 3 })).askPin (n.withAttn { n.attn with phase := if n.appends x then 1 else 3 }).half
      (n.withAttn { n.attn with phase := if n.appends x then 1 else 3 }).id (n.withAttn { n.attn with phase := if n.appends x then 1 else 3 }).pinPlaces).2 := by
  unfold Chip.attnRead
  simp only [Chip.sight_nil, hreach, ← hn, hops, hwild, hlong, Bool.false_eq_true, or_self, if_false]

/-- Where nothing is amiss a step after the first takes its phase. -/
theorem Chip.attnStep_last {x : AttnOps} (hhalt : c.engineHalted (.attention m.id) = false) (hawake : c.awake m.half = true) (hphase : m.attn.phase = 4)
    (hpin : (c.pinOps.get m.half).contains m.id = true) (hops : c.attnOps m far = .ok x) (hwild : c.attnWild m x = false) :
    c.attnStep m far [] = if m.opcode = 0x41 then c.backward m far x else c.attend m far x := by
  unfold Chip.attnStep
  simp only [hhalt, hawake, hphase, hops, hpin, hwild, Chip.sight_nil, Bool.false_eq_true, not_true_eq_false, or_self, if_false, OfNat.ofNat_ne_zero,
    Nat.reduceEqDiff]

theorem Chip.attnStep_first {o : Seen} (hhalt : c.engineHalted (.attention m.id) = false) (hawake : c.awake m.half = true) (hphase : m.attn.phase = 0) :
    c.attnStep m far o = c.attnRead m far o := by
  unfold Chip.attnStep
  simp only [hhalt, hawake, hphase, Bool.false_eq_true, not_true_eq_false, or_self, if_false, if_true]

/-- A command that has done its work writes its results. -/
theorem Chip.attnDone_stored {sat : Nat} {l : List (Nat × List Byte)} {d : Chip} {n : Cmd} (hn : n = { m with clamped := m.clamped || decide (0 < sat) })
    (hstore : (Chip.count { c with freeCnt := c.freeCnt + 1 } (F.ATTN_CLAMP_CNT_COUNT m.half.idx) sat).attnStore n far l = .ok d) :
    c.attnDone m far sat l = (d.touches n (l.map fun r => (r.1, r.2.length))).setCmd { n with stage := .done } := by
  unfold Chip.attnDone Chip.attnSat
  subst hn
  simp only [hstore]

theorem Chip.attend_reads {x : AttnOps} {d : Chip} (hpin : c.attnPinAll m far x (x.pages (m.appends x)) = .ok d) (hpoison : d.kvPoison m x (m.appends x) = none)
    (hreach : d.reachCause m.half m.owner false m.qAddr (m.nTok * x.par.heads * x.par.qRow) far = none) :
    c.attend m far x =
      (let e := d.touches m [(m.qAddr, m.nTok * x.par.heads * x.par.qRow)]
       let r := e.attnResults m x
       e.attnDone m far (r.2.2 + e.kvSat m x (m.appends x)) ((if x.par.saveStats then [(x.par.stats, r.1)] else []) ++ [(m.oAddr, r.2.1)])) := by
  unfold Chip.attend
  simp only [hpin, Chip.reach_ok hreach, hpoison]

theorem Chip.backward_reads {x : AttnOps} {d : Chip} (hpin : c.attnPinAll m far x (x.pages false) = .ok d) (hpoison : d.kvPoison m x false = none)
    (hreach : (m.backReads x).findSome? (fun r => d.reachCause m.half m.owner false r.1 r.2 far) = none) :
    c.backward m far x =
      (let e := d.touches m (m.backReads x)
       let r := e.backResults m x
       e.attnDone m far (r.2.1 + e.kvSat m x false) ((m.kvNew, r.1) :: r.2.2)) := by
  unfold Chip.backward
  simp only [hpin, hreach, hpoison]

end

/-- A done command drops its pins and completes. -/
theorem exec_attentionCompletion_done {id : CmdId} {m : Cmd} {s : State} (hm : s.chip.cmd? id = some m) (hop : m.opcode = 0x40 ∨ m.opcode = 0x41)
    (hs : m.stage = .done) : exec (.attentionCompletion id) s = .next (s.withChip ((s.chip.kvUnpinAll id).complete m m.attnDetail)) := by
  have hattn : m.isAttn = true := by
    unfold Cmd.isAttn
    rcases hop with h | h <;> rw [h] <;> rfl
  have hexec : exec (.attentionCompletion id) s = execAttentionCompletion id s := rfl
  unfold execAttentionCompletion at hexec
  simp only [hm, hattn, hs, and_self, if_true, Chip.attnOver, Chip.id_of_cmd? hm] at hexec
  exact hexec.trans (s.go_eq _)

/-- Both commands take their turn by one function. -/
theorem exec_attnTurn (id : CmdId) (far : Far) (o : Seen) (s : State) :
    exec (.attentionCommand id far o) s = .next (s.withChip (s.chip.attnTurn 0x40 id far o)) ∧
    exec (.backwardPass id far o) s = .next (s.withChip (s.chip.attnTurn 0x41 id far o)) := ⟨rfl, rfl⟩

/-- Settles O18: the first step, the last step and the completion, each by the equation of its function. -/
theorem attentionCommands : Obligations.AttentionCommands := by
  have hnext {s : State} {c d : Chip} (h : c = d) : Host.Outcome.next (s.withChip c) = (Host.Outcome.next (s.withChip d) : Host.Outcome State Fault Refusal) :=
    congrArg (fun k => Host.Outcome.next (s.withChip k)) h
  refine ⟨fun op id m h far o s hop htake hmop hhalt heng hroom hshare hout hclass => ?_, fun id m x bs far s hm hs hhalt hawake hout hphase hreach => ?_,
    fun id m x far c d s hm hs hpin hhalt hawake hout hphase hops hwild => ?_, fun id m s hm hop hs => exec_attentionCompletion_done hm hop hs⟩
  · have hstart := Chip.attnStart_taken heng hroom hshare hout fun h41 => hclass (hmop ▸ h41)
    obtain ⟨hattn, hback⟩ := exec_attnTurn id far o s
    exact ⟨fun h => hattn.trans (hnext ((Chip.attnTurn_starts htake (hmop.trans h) hhalt).trans hstart)),
      fun h => hback.trans (hnext ((Chip.attnTurn_starts htake (hmop.trans h) hhalt).trans hstart))⟩
  · intro n hops c hwild hlong n' t
    obtain ⟨hattn, hback⟩ := exec_attnTurn id far [] s
    have hstep : s.chip.attnStep m far [] = t := (Chip.attnStep_first hhalt hawake hphase).trans (Chip.attnRead_clean hreach rfl hops hwild hlong)
    exact ⟨fun h => hattn.trans (hnext ((Chip.attnTurn_steps hm hs h hout).trans hstep)), fun h => hback.trans (hnext ((Chip.attnTurn_steps hm hs h hout).trans hstep))⟩
  · obtain ⟨hattn, hback⟩ := exec_attnTurn id far [] s
    have hlast := Chip.attnStep_last hhalt hawake hphase hpin hops hwild
    refine ⟨fun hop hpins hpoison hreach => ?_, fun hop hpins hpoison hreach => ?_⟩
    · intro e r sat n l hstore
      have hne : m.opcode ≠ 0x41 := fun h41 => absurd (hop.symm.trans h41) (by decide)
      exact hattn.trans (hnext ((Chip.attnTurn_steps hm hs hop hout).trans (hlast.trans ((if_neg hne).trans ((Chip.attend_reads hpins hpoison hreach).trans
        (Chip.attnDone_stored rfl hstore))))))
    · intro e r sat n l hstore
      exact hback.trans (hnext ((Chip.attnTurn_steps hm hs hop hout).trans (hlast.trans ((if_pos hop).trans ((Chip.backward_reads hpins hpoison hreach).trans
        (Chip.attnDone_stored rfl hstore))))))

/-! ### Pins -/

/-- A page-list move of firmware on ring 0 that runs. -/
def pinningMove : Cmd :=
  { id := ⟨0, 0, 0⟩, words := [0x52], owner := 0, cls := 0, lowered := false, cq := 1, half := .H, unit := 0, stage := .running, clamped := false,
    late := false, spare := false, doubt := false, empty := false, ended := none, n := 0, bytes := 0, aux := [] }

/-- A pool of eight frames, the fifth of which holds 255 pins; the register of the most pins shows 5. -/
def pinnedChip : Chip :=
  { (((Chip.reset.put (F.KVL_CTL_ENABLE 0) 1).put (F.KVL_POOL_CFG_FRAMES 0) 8).put (F.KVL_PIN_MAX_PIN 0) 5).setFrame .H 5 ⟨1, 1, 255, 0⟩ with
    cmds := [pinningMove], pinOps := ⟨[⟨0, 0, 0⟩], []⟩ }

/-- Refutes O20: the 256th pin on a frame takes the 8-bit register of the most pins from 5 to 0. -/
theorem not_ledgerCopies : ¬ Obligations.LedgerCopies := by
  intro h
  obtain ⟨-, -, hpin, -⟩ := h
  obtain ⟨t, hexec, -, -, hmax, -⟩ := hpin ⟨0, 0, 0⟩ pinningMove 5 .H 5 ⟨1, 1, 255, 0⟩ ⟨pinnedChip, []⟩ (by decide +kernel) (by decide) (by decide) (by decide)
    (by decide +kernel) (by decide +kernel)
  have hbefore : pinnedChip.q (F.KVL_PIN_MAX_PIN 0) = 5 := by decide +kernel
  have hafter : (match exec (.pin ⟨0, 0, 0⟩ 5) ⟨pinnedChip, []⟩ with
      | .next s => s.chip.q (F.KVL_PIN_MAX_PIN 0)
      | _ => 5) = 0 := by decide +kernel
  rw [hexec] at hafter
  have hle : 5 ≤ 0 := hbefore ▸ (Nat.le_trans hmax (Nat.le_of_eq hafter))
  exact absurd hle (by decide)

end Machine

end Sys2Proof

/-! PROOF. Commands and gates of the gateway bridge (R396–R411). -/

namespace Sys2Proof

namespace Machine

/-! ### What a queued frame and the end of a command leave -/

section
variable {γ : Type} {f : Chip → γ} (h : EventPart f)
include h

theorem EventPart.syncQueued (c : Chip) (p : Nat) : f (c.syncQueued p) = f c := ite_keeps (h.put _ _ _) rfl

theorem EventPart.enqueue (hq : ∀ c y, f { c with gwQueue := y } = f c) (hc : ∀ c y, f { c with gwCredit := y } = f c) (c : Chip) (q : GQueued) (j : Bool) :
    f (c.enqueue q j) = f c := by
  unfold Chip.enqueue
  extract_lets +onlyGivenNames d
  have hd : f d = f c := by
    unfold d Chip.settleCredit
    split
    · exact hc _ _
    · rfl
  exact (ite_keeps (ite_keeps ((h.syncQueued _ _).trans (hq _ _)) ((h.syncQueued _ _).trans ((h.ev _ _ _ _).trans (hq _ _)))) ((h.syncQueued _ _).trans (hq _ _))).trans hd

end

/-- A queued frame with the address claimed, or withheld without one (R395). -/
def Chip.asQueued (c : Chip) (q : GQueued) (j : Bool) : GQueued :=
  if j = false ∨ isCan q.port = false then q
  else if c.on (F.GW_CAN_SA_SA_VALID q.port) then { q with frame := { q.frame with ident := withSa q.frame.ident (c.q (F.GW_CAN_SA_SA q.port)) } }
  else { q with needSa := true }

theorem Chip.gwQueue_enqueue (c : Chip) (q : GQueued) (j : Bool) : (c.enqueue q j).gwQueue = c.gwQueue ++ [c.asQueued q j] := by
  have hpart : EventPart fun y : Chip => y.gwQueue := fun _ _ _ _ _ _ _ _ _ _ _ _ => rfl
  have hsettle : (c.settleCredit q.port q.tc).gwQueue = c.gwQueue ∧ (c.settleCredit q.port q.tc).regs = c.regs := by
    unfold Chip.settleCredit
    split
    · exact ⟨rfl, rfl⟩
    · exact ⟨rfl, rfl⟩
  obtain ⟨hqueue, hregs⟩ := hsettle
  unfold Chip.enqueue Chip.asQueued
  extract_lets +onlyGivenNames d
  have hq (g : RF) : d.q g = c.q g := Chip.q_of_regs hregs g
  have hvalid : d.on (F.GW_CAN_SA_SA_VALID q.port) = c.on (F.GW_CAN_SA_SA_VALID q.port) := congrArg (· != 0) (hq _)
  have happ (x : GQueued) : d.gwQueue ++ [x] = c.gwQueue ++ [x] := congrArg (· ++ [x]) hqueue
  rw [hvalid, hq, happ, happ, happ]
  clear_value d
  cases hj : j with
  | false => exact hpart.syncQueued _ _
  | true =>
    cases hcan : isCan q.port with
    | false => exact hpart.syncQueued _ _
    | true =>
      simp only [and_self, if_true, Bool.true_eq_false, or_self, if_false]
      split
      · exact hpart.syncQueued _ _
      · exact (hpart.syncQueued _ _).trans (hpart.ev _ _ _ _)

/-! ### Sends and requests -/

section
variable {c c1 c2 : Chip} {m : Cmd} {far : Far} {o : Seen} {hdr data : List Byte} {f : GFrame} {j : Bool}

/-- What a command sends: its frame, and what is still to be known of it. -/
def Chip.sendOf (c : Chip) (m : Cmd) (f : GFrame) : GSend :=
  let p := m.fld 1 48 5
  let isReq := m.opcode == 0x81
  ⟨m.id, m.owner, m.fld 0 32 32, p, if isMac p then leNat ((f.data.drop 2).take 4).reverse else f.ident.toNat, isReq || bit (m.word 1) 63, c.stamp (portHalf p) 0,
    m.fld 2 0 16 * 1000, none, if bit (m.word 1) 62 then some (m.fld 2 16 16) else none,
    if isReq then some ⟨m.fld 3 48 16, m.fld 3 0 48 / 64 * 64, m.fld 4 32 32, m.fld 4 0 32, if bit (m.word 5) 63 then some (m.fld 5 48 8) else none, m.fld 5 0 32⟩ else none,
    m.order⟩

/-- The chip after a command's frame is queued, on its way to the wire. -/
def Chip.queuedSend (c : Chip) (m : Cmd) (f : GFrame) (j : Bool) : Chip :=
  let p := m.fld 1 48 5
  ({ c with gwSends := c.gwSends ++ [c.sendOf m f] } : Chip).enqueue
    ⟨p, if isMac p then frameClass f else 0, f, m.owner.part, m.rank, false, .cmd m.id, c.stamp (portHalf p) 0⟩ j

theorem Chip.bridgeSend_queues {d : Chip} {p a : Nat} (hp : m.fld 1 48 5 = p) (ha : alignDown (m.fld 1 0 48) 64 = a) (hmay : c.mayTransmit p m.owner.part = true)
    (hhdr : c.readSeen m a 32 far o = (.ok hdr, c1)) (hdata : c1.readSeen m (a + 32) (leNat (hdr.take 2)) far o = (.ok data, c2))
    (hd : (if m.stage = .waiting then c2 else c2.touches m [(a, 32 + data.length)]) = d) (hparse : parseRecord p hdr data = some (f, j))
    (hcarries : d.carries p f.fmt = true) (hroom : d.queueRoom p (if isMac p then frameClass f else 0) m.owner.part true = true) :
    c.bridgeSend m far o =
      (let e := if (m.opcode == 0x81 || bit (m.word 1) 63) = true then (d.queuedSend m f j).setCmd { m with stage := .running }
        else (d.queuedSend m f j).complete m ((d.sendOf m f).detail 0 0)
       if e.down.get (portHalf p) then e.failPort p 10
       else if isCan p ∧ e.canState p = 2 then e.failPort p 2
       else if isMac p ∧ ¬ e.on (F.GW_ETH_STAT_LINK (p - 16)) then e.failPort p 3 else e) := by
  unfold Chip.bridgeSend Chip.queuedSend Chip.sendOf
  simp only [hp, ha, hmay, hhdr, hdata, hd, hparse, hcarries, hroom, not_true_eq_false, if_false]

end

/-- A queued frame changes the count of its controller only. -/
theorem SameField.enqueue {g : RF} {c d : Chip} (h : SameField g c d) (hev : ¬ eventReg g.addr) {q : GQueued} (hg : (F.GW_CAN_STAT_QUEUED q.port).Apart g) (j : Bool) :
    SameField g c (d.enqueue q j) := by
  have hcredit : SameField g c (d.settleCredit q.port q.tc) := by
    unfold Chip.settleCredit
    split
    · exact h.trans (.of_regs rfl rfl)
    · exact h
  unfold Chip.enqueue
  extract_lets +onlyGivenNames e
  have hqueue (l : List GQueued) : SameField g c { e with gwQueue := l } := hcredit.trans (.of_regs rfl rfl)
  have hsync {y : Chip} (hy : SameField g c y) : SameField g c (y.syncQueued q.port) := .ite (hy.put hg _) hy
  exact .ite (.ite (hsync (hqueue _)) (hsync ((hqueue _).ev hev _ _ _))) (hsync (hqueue _))

section
variable {d : Chip} {m : Cmd} {f : GFrame} {j : Bool} {p : Nat} (hp : m.fld 1 48 5 = p)
include hp

theorem portCode_lt : p < 32 := by
  rw [← hp]
  exact Nat.mod_lt _ (by decide)

/-- The state of the port after a frame is queued, and its command goes on or completes. -/
theorem Chip.queuedSend_same {g : RF} (hev : ¬ eventReg g.addr) (hg : (F.GW_CAN_STAT_QUEUED p).Apart g) : SameField g d (d.queuedSend m f j) := by
  have hsends (l : List GSend) : SameField g d ({ d with gwSends := l } : Chip) := .of_regs rfl rfl
  subst hp
  unfold Chip.queuedSend
  extract_lets +onlyGivenNames port
  exact (hsends _).enqueue (q := ⟨port, if isMac port then frameClass f else 0, f, m.owner.part, m.rank, false, .cmd m.id, d.stamp (portHalf port) 0⟩) hev hg j

/-- Where the port is in service its frame stays queued. -/
theorem Chip.port_stays {e : Chip} (hop : m.opcode = 0x80 ∨ m.opcode = 0x81) (hdown : d.down.get (portHalf p) = false) (hcan : isCan p = true → d.canState p ≠ 2)
    (hmac : isMac p = true → d.on (F.GW_ETH_STAT_LINK (p - 16)) = true)
    (he : e = (d.queuedSend m f j).setCmd { m with stage := .running } ∨ ∃ detail, e = (d.queuedSend m f j).complete m detail) :
    (if e.down.get (portHalf p) then e.failPort p 10 else if isCan p ∧ e.canState p = 2 then e.failPort p 2
      else if isMac p ∧ ¬ e.on (F.GW_ETH_STAT_LINK (p - 16)) then e.failPort p 3 else e) = e := by
  have hlt := portCode_lt hp
  have hattn : m.isAttn = false := by
    unfold Cmd.isAttn
    rcases hop with h | h <;> rw [h] <;> rfl
  have hparting : ¬(m.opcode = 0x30 ∨ m.opcode = 0x31) := by
    rcases hop with h | h <;> rw [h] <;> decide
  have hsame {g : RF} (hlo : 0xB00000 ≤ g.addr) (hhi : g.addr < 0xC00000) (hg : (F.GW_CAN_STAT_QUEUED p).Apart g) : SameField g d e := by
    have hev : ¬ eventReg g.addr := by
      rintro (hr | hr)
      · exact absurd hr.1 (by omega)
      · exact absurd hhi (by rw [hr]; decide)
    have hlog : g.addr ≠ Reg.WEAR_LOG_CNT := fun hr => hev (.inr hr)
    have hqueued : SameField g d (d.queuedSend m f j) := Chip.queuedSend_same hp hev hg
    rcases he with he | ⟨detail, he⟩
    · rw [he]
      exact hqueued.trans (.of_regs rfl rfl)
    · rw [he]
      exact hqueued.complete ⟨by omega, hlog, fun h => absurd h (Bool.eq_false_iff.1 hattn), fun h => absurd h hparting⟩ detail
  have hdown' : ¬ e.down.get (portHalf p) = true := by
    have hd := (hsame (g := F.GW_CTL_TB) (by decide) (by decide) ⟨Nat.le_of_ble_eq_true rfl, .inl (by
      show Reg.GW_CTL ≠ Reg.GW_CAN_STAT p
      unfold Reg.GW_CTL Reg.GW_CAN_STAT
      omega)⟩).down
    rw [hd, hdown]
    nofun
  have hcan' : ¬(isCan p = true ∧ e.canState p = 2) := by
    rintro ⟨hc, hs⟩
    have haddr : (F.GW_CAN_STAT_STATE p).addr = Reg.GW_CAN_STAT p := rfl
    have hq := (hsame (g := F.GW_CAN_STAT_STATE p) (by rw [haddr]; unfold Reg.GW_CAN_STAT; omega) (by rw [haddr]; unfold Reg.GW_CAN_STAT; omega)
      ⟨Nat.le_of_ble_eq_true rfl, .inr (.inl (Nat.le_of_ble_eq_true rfl))⟩).q
    exact hcan hc (hq.symm.trans hs)
  have hmac' : ¬(isMac p = true ∧ ¬ e.on (F.GW_ETH_STAT_LINK (p - 16)) = true) := by
    rintro ⟨hm, hs⟩
    have haddr : (F.GW_ETH_STAT_LINK (p - 16)).addr = Reg.GW_ETH_STAT (p - 16) := rfl
    have hq := (hsame (g := F.GW_ETH_STAT_LINK (p - 16)) (by rw [haddr]; unfold Reg.GW_ETH_STAT; omega) (by rw [haddr]; unfold Reg.GW_ETH_STAT; omega)
      ⟨Nat.le_of_ble_eq_true rfl, .inl (by
        show Reg.GW_ETH_STAT (p - 16) ≠ Reg.GW_CAN_STAT p
        unfold Reg.GW_ETH_STAT Reg.GW_CAN_STAT
        omega)⟩).on
    exact hs (hq.trans (hmac hm))
  rw [if_neg hdown', if_neg hcan', if_neg hmac']

end

section
variable {d : Chip} {m : Cmd} {f : GFrame} {j : Bool} {p : Nat} (hp : m.fld 1 48 5 = p)
include hp

theorem Chip.gwQueue_queuedSend : (d.queuedSend m f j).gwQueue =
    d.gwQueue ++ [d.asQueued ⟨p, if isMac p then frameClass f else 0, f, m.owner.part, m.rank, false, .cmd m.id, d.stamp (portHalf p) 0⟩ j] := by
  subst hp
  exact Chip.gwQueue_enqueue _ _ j

omit hp in
theorem Chip.cmds_queuedSend : (d.queuedSend m f j).cmds = d.cmds := by
  unfold Chip.queuedSend
  extract_lets +onlyGivenNames port
  exact EventPart.enqueue (f := fun y : Chip => y.cmds) eventPart_cmds (fun _ _ => rfl) (fun _ _ => rfl) _ _ _

omit hp in
/-- A command that stays in flight with its frame queued. -/
theorem Chip.sending : ((d.queuedSend m f j).setCmd { m with stage := .running }).gwQueue = (d.queuedSend m f j).gwQueue ∧
    ((d.queuedSend m f j).setCmd { m with stage := .running }).cmds = (d.setCmd { m with stage := .running }).cmds := by
  refine ⟨rfl, ?_⟩
  show (d.queuedSend m f j).cmds.map _ = _
  rw [Chip.cmds_queuedSend]
  rfl

omit hp in
/-- A command that completes with its frame queued. -/
theorem Chip.sentOn (e : Chip) (detail : Nat) : (e.complete m detail).gwQueue = e.gwQueue ∧ (e.complete m detail).cmd? m.id = none := by
  refine ⟨Chip.complete_part (f := fun y : Chip => y.gwQueue) (fun _ _ _ _ _ _ _ _ _ _ _ _ => rfl) (fun _ _ => rfl) e m detail, ?_⟩
  have hcmds : (e.complete m detail).cmds = e.cmds.filter fun x => x.id != m.id := Chip.completeWith_keeps eventPart_cmds e m false 0 detail
  unfold Chip.cmd?
  rw [hcmds]
  refine List.find?_eq_none.2 fun x hx => ?_
  exact fun h => bne_iff_ne.1 (List.mem_filter.1 hx).2 (beq_iff_eq.1 h)

end

/-! ### Fences and expiries -/

section
variable {id : CmdId} {x : GSend} {s : State}

theorem exec_bridgeFence_resolved {m : Cmd} (hm : s.chip.bridgeCmd id 0x82 = some m) (hres : s.chip.sendsResolved m = true) :
    exec (.bridgeFence id) s = .next (s.withChip (if s.chip.gwLate.contains m.owner then
      Chip.complete { s.chip with gwLate := s.chip.gwLate.filter (· != m.owner) } (m.endWith .farErrorLate 0) 0 else s.chip.complete m 0)) := by
  have hexec : exec (.bridgeFence id) s = execBridgeFence id s := rfl
  unfold execBridgeFence at hexec
  simp only [hm, hres, not_true_eq_false, if_false] at hexec
  exact hexec.trans (s.go_ite _ _ _)

theorem exec_lifeMsExpiry_queued {q : GQueued} (hx : s.chip.send? id = some x) (hq : (s.chip.gwQueue.find? fun q => q.src == .cmd id) = some q)
    (hold : ((x.lifeUs * usUnits : Nat) : Int) ≤ elapsed (s.chip.stamp (portHalf x.port) 0) x.since) :
    exec (.lifeMsExpiry id) s = .next (s.withChip ((s.chip.unqueue q).failSend x 4 0)) := by
  have hexec : exec (.lifeMsExpiry id) s = execLifeMsExpiry id s := rfl
  unfold execLifeMsExpiry at hexec
  simp only [hx, hq, if_pos hold] at hexec
  exact hexec.trans (s.go_eq _)

theorem exec_timeoutUsExpiry_waiting {r : GResp} {b : Nat} (hx : s.chip.send? id = some x) (hr : x.resp = some r) (hb : x.sentAt = some b) (hlive : x.live = true)
    (hold : ((r.timeoutUs * usUnits : Nat) : Int) ≤ elapsed (s.chip.stamp (portHalf x.port) 0) b) :
    exec (.timeoutUsExpiry id) s = .next (s.withChip (s.chip.failSend { x with resp := none } 9 0)) := by
  have hexec : exec (.timeoutUsExpiry id) s = execTimeoutUsExpiry id s := rfl
  unfold execTimeoutUsExpiry at hexec
  simp only [hx] at hexec
  split at hexec
  next r' b' hr' hb' =>
    obtain rfl : r' = r := Option.some.inj (hr'.symm.trans hr)
    obtain rfl : b' = b := Option.some.inj (hb'.symm.trans hb)
    rw [if_pos ⟨hlive, hold⟩] at hexec
    exact hexec.trans (s.go_eq _)
  next hne => exact absurd hb (hne r b hr)

end

/-! ### Gate lists -/

/-- The first of the multiples of a cycle that is not past. -/
theorem cycleStart_bounds (gone : Int) (cyc : Nat) (hc : 0 < cyc) (hg : 0 < gone) :
    gone ≤ (((gone.toNat + cyc - 1) / cyc * cyc : Nat) : Int) ∧ (((gone.toNat + cyc - 1) / cyc * cyc : Nat) : Int) < gone + cyc := by
  have hdiv := Nat.div_add_mod (gone.toNat + cyc - 1) cyc
  have hmod := Nat.mod_lt (gone.toNat + cyc - 1) hc
  rw [Nat.mul_comm] at hdiv
  omega

/-- The cycle start at which the admin list of a MAC will replace its operating list. -/
def Chip.gateDue (c : Chip) (m : Nat) : Nat :=
  let base := c.pair (Reg.GW_ETH_BASE_LO m) (Reg.GW_ETH_BASE_HI m)
  let gone := elapsed (c.gwNow (portHalf (m + 16))) base
  if gone ≤ 0 then base else (base + (gone.toNat + c.gateCycle m - 1) / c.gateCycle m * c.gateCycle m) % 2 ^ 64

/-- The chip with the gate controls of the MACs replaced. -/
def Chip.withGates (c : Chip) (y : Tbl GateSt) : Chip := { c with gwGates := y }

theorem Chip.gates_withGates (c : Chip) (y : Tbl GateSt) (m : Nat) (x : GateSt) : (c.withGates (Tbl.ins y m x)).gates m = x := by
  unfold Chip.withGates Chip.gates Tbl.look
  rw [Tbl.find?_ins_same]
  rfl

theorem Chip.q_withGates (c : Chip) (y : Tbl GateSt) (g : RF) : (c.withGates y).q g = c.q g := Chip.q_of_regs rfl g

theorem Chip.gateDue_bounds (c : Chip) (m : Nat) :
    let base := c.pair (Reg.GW_ETH_BASE_LO m) (Reg.GW_ETH_BASE_HI m)
    let gone := elapsed (c.gwNow (portHalf (m + 16))) base
    (gone ≤ 0 → c.gateDue m = base) ∧ (0 < gone → ∃ k : Nat, c.gateDue m = (base + k * c.gateCycle m) % 2 ^ 64 ∧
      gone ≤ ((k * c.gateCycle m : Nat) : Int) ∧ ((k * c.gateCycle m : Nat) : Int) < gone + (c.gateCycle m : Nat)) := by
  have hcyc : 0 < c.gateCycle m := Nat.mul_pos (Nat.lt_of_lt_of_le Nat.one_pos (le_max_right _ _)) (by decide)
  intro base gone
  refine ⟨fun h => if_pos h, fun h => ?_⟩
  obtain ⟨hle, hlt⟩ := cycleStart_bounds gone (c.gateCycle m) hcyc h
  exact ⟨_, if_neg (not_le.2 h), hle, hlt⟩

/-- The chip whose MAC takes its admin list, from the start that was due. -/
def Chip.replaceGates (c : Chip) (m : Nat) : Chip :=
  (c.put (F.GW_ETH_STAT_GCL_PENDING m) 0).withGates (Tbl.ins c.gwGates m ⟨c.adminList m, 0, (c.gates m).due, 0⟩)

/-- The chip whose MAC has a start for its admin list. -/
def Chip.armedGates (c : Chip) (m : Nat) : Chip :=
  (c.put (F.GW_ETH_STAT_GCL_PENDING m) 1).withGates (Tbl.ins c.gwGates m { c.gates m with due := c.gateDue m })

theorem Chip.armedGates_due (c : Chip) (m : Nat) : (c.armedGates m).on (F.GW_ETH_STAT_GCL_PENDING m) = true ∧ ((c.armedGates m).gates m).due = c.gateDue m := by
  have hput : (c.put (F.GW_ETH_STAT_GCL_PENDING m) 1).q (F.GW_ETH_STAT_GCL_PENDING m) = 1 := Chip.q_put_same _ _ _ (Nat.le_of_ble_eq_true rfl)
  have hq : (c.armedGates m).q (F.GW_ETH_STAT_GCL_PENDING m) = 1 := (Chip.q_withGates _ _ _).trans hput
  refine ⟨by rw [Chip.on, hq]; rfl, ?_⟩
  exact congrArg GateSt.due (Chip.gates_withGates _ _ m _)

section
variable {m : Fin 8} {s : State}

theorem exec_gclArm_admitted {i : Initiator} {v : Word} (hcause : s.chip.portCause i true (Reg.GW_ETH_BASE_HI m) = 0) (hdown : s.chip.down.get (portHalf (m.val + 16)) = false) :
    exec (.gclArm i m v) s = .next (s.withChip ((s.chip.setReg (Reg.GW_ETH_BASE_HI m) v.toNat).armedGates m)) := by
  have hexec : exec (.gclArm i m v) s = execGclArm i m v s := rfl
  unfold execGclArm at hexec
  simp only [hcause, hdown, Bool.false_eq_true, if_false] at hexec
  exact hexec.trans (s.go_eq _)

theorem exec_gclReplace_due (hpend : s.chip.on (F.GW_ETH_STAT_GCL_PENDING m) = true) (htime : s.chip.timeReady (portHalf (m.val + 16)) = true)
    (hdue : 0 ≤ elapsed (s.chip.gwNow (portHalf (m.val + 16))) (s.chip.gates m).due) :
    ∃ l, exec (.gclReplace m) s = .next (s.withChip ((s.chip.replaceGates m).ev (portHalf (m.val + 16)) 0x0A09 l)) := by
  have hexec : exec (.gclReplace m) s = execGclReplace m s := rfl
  unfold execGclReplace at hexec
  extract_lets +onlyGivenNames c g h at hexec
  rw [if_pos ⟨hpend, htime, hdue⟩] at hexec
  extract_lets +onlyGivenNames y d at hexec
  have hd : d = s.chip.replaceGates m := rfl
  clear_value d
  subst hd
  exact ⟨_, hexec.trans (s.go_eq _)⟩

/-- The chip whose operating list its admin list has replaced. -/
theorem Chip.replaceGates_done (c : Chip) (m : Fin 8) (h : Half) (code : Nat) (l : List Nat) :
    ((c.replaceGates m).ev h code l).gates m = ⟨c.adminList m, 0, (c.gates m).due, 0⟩ ∧ ((c.replaceGates m).ev h code l).on (F.GW_ETH_STAT_GCL_PENDING m) = false := by
  have hgates : (c.replaceGates m).gates m = ⟨c.adminList m, 0, (c.gates m).due, 0⟩ := Chip.gates_withGates _ _ m _
  have hput : (c.put (F.GW_ETH_STAT_GCL_PENDING m) 0).q (F.GW_ETH_STAT_GCL_PENDING m) = 0 := Chip.q_put_same _ _ _ (Nat.le_of_ble_eq_true rfl)
  have hq : (c.replaceGates m).q (F.GW_ETH_STAT_GCL_PENDING m) = 0 := (Chip.q_withGates _ _ _).trans hput
  generalize c.replaceGates m = d at hgates hq
  have hev : ¬ eventReg (F.GW_ETH_STAT_GCL_PENDING m).addr := by
    have hm := m.isLt
    rintro (hr | hr)
    · exact absurd hr.1 (by show ¬_ ≤ Reg.GW_ETH_STAT m; unfold Reg.GW_ETH_STAT; omega)
    · exact absurd hr (by show ¬Reg.GW_ETH_STAT m = _; unfold Reg.GW_ETH_STAT Reg.WEAR_LOG_CNT; omega)
  refine ⟨(EventPart.ev (f := fun y : Chip => y.gates m) (fun _ _ _ _ _ _ _ _ _ _ _ _ => rfl) d h code l).trans hgates, ?_⟩
  rw [Chip.on, Chip.ev, Chip.q_raise _ _ hev, hq]
  rfl

theorem exec_gateEntryEnd_running (hlist : (s.chip.gates m).list ≠ []) (hdown : s.chip.down.get (portHalf (m.val + 16)) = false)
    (htime : s.chip.timeReady (portHalf (m.val + 16)) = true) :
    let g := s.chip.gates m
    let cyc : Int := (s.chip.gateCycle m : Nat)
    let t := elapsed (s.chip.gwNow (portHalf (m.val + 16))) g.cycleStart
    exec (.gateEntryEnd m) s = .next (s.withChip { s.chip with
      gwGates := Tbl.ins s.chip.gwGates m { g with pos := gateSeek (t % cyc).toNat g.list 0 0, cycleStart := unsgn 64 (g.cycleStart + t / cyc * cyc) } }) := by
  intro g cyc t
  have hno : ¬((s.chip.gates m).list = [] ∨ s.chip.down.get (portHalf (m.val + 16)) = true ∨ ¬s.chip.timeReady (portHalf (m.val + 16)) = true) := by
    rintro (hl | hd | ht)
    · exact hlist hl
    · exact Bool.eq_false_iff.1 hdown hd
    · exact ht htime
  have hexec : exec (.gateEntryEnd m) s = execGateEntryEnd m s := rfl
  unfold execGateEntryEnd at hexec
  exact hexec.trans ((if_neg hno).trans (s.go_eq _))

end

/-- Settles O51: what sends, requests and fences leave queued and in flight, and what the gates of a MAC follow. -/
theorem gatewayCommands : Obligations.GatewayCommands := by
  have hnext {s : State} {c d : Chip} (h : c = d) : Host.Outcome.next (s.withChip c) = (Host.Outcome.next (s.withChip d) : Host.Outcome State Fault Refusal) :=
    congrArg (fun k => Host.Outcome.next (s.withChip k)) h
  refine ⟨fun id far o m hdr data c1 c2 f j s => ?_, fun id m s hm hres => ?_, fun id x q s hx hq hold => exec_lifeMsExpiry_queued hx hq hold,
    fun id x r b s hx hr hb hlive hold => exec_timeoutUsExpiry_waiting hx hr hb hlive hold, fun i m v s => ?_,
    fun m s => ?_, fun m s => ?_⟩
  · intro p a hmay hhdr hdata c tc q hparse hcarries hroom hdown hcan hmac queued
    have hsend := Chip.bridgeSend_queues rfl rfl hmay hhdr hdata rfl hparse hcarries hroom
    have hqueue : (c.queuedSend m f j).gwQueue = c.gwQueue ++ [c.asQueued q j] := Chip.gwQueue_queuedSend rfl
    obtain ⟨hrunq, hrunc⟩ := Chip.sending (d := c) (m := m) (f := f) (j := j)
    obtain ⟨hdoneq, hdonec⟩ := Chip.sentOn (m := m) (c.queuedSend m f j) ((c.sendOf m f).detail 0 0)
    have hopen (hop : m.opcode = 0x80 ∨ m.opcode = 0x81) (ho : (m.opcode == 0x81 || bit (m.word 1) 63) = true) :
        s.chip.bridgeSend m far o = (c.queuedSend m f j).setCmd { m with stage := .running } :=
      hsend.trans ((Chip.port_stays rfl hop hdown hcan hmac (by rw [if_pos ho]; exact .inl rfl)).trans (if_pos ho))
    have hshut (hop : m.opcode = 0x80 ∨ m.opcode = 0x81) (ho : ¬(m.opcode == 0x81 || bit (m.word 1) 63) = true) :
        s.chip.bridgeSend m far o = (c.queuedSend m f j).complete m ((c.sendOf m f).detail 0 0) :=
      hsend.trans ((Chip.port_stays rfl hop hdown hcan hmac (by rw [if_neg ho]; exact .inr ⟨_, rfl⟩)).trans (if_neg ho))
    refine ⟨fun hcmd hop => ?_, fun hcmd hop => ?_⟩
    · have hexec : exec (.send id far o) s = execSend id s far o := rfl
      unfold execSend at hexec
      simp only [hcmd] at hexec
      have hne : (m.opcode == 0x81) = false := by rw [hop]; rfl
      by_cases hb : bit (m.word 1) 63 = true
      · exact ⟨_, hexec.trans ((s.go_eq _).trans (hnext (hopen (.inl hop) (by rw [hne]; exact hb)))), hrunq.trans hqueue, fun _ => hrunc, fun hn => absurd hb (Bool.eq_false_iff.1 hn)⟩
      · exact ⟨_, hexec.trans ((s.go_eq _).trans (hnext (hshut (.inl hop) (by rw [hne]; exact hb)))), hdoneq.trans hqueue, fun hy => absurd hy hb, fun _ => hdonec⟩
    · have hexec : exec (.request id far o) s = execRequest id s far o := rfl
      unfold execRequest at hexec
      simp only [hcmd] at hexec
      have ho : (m.opcode == 0x81 || bit (m.word 1) 63) = true := by rw [hop]; rfl
      exact ⟨_, hexec.trans ((s.go_eq _).trans (hnext (hopen (.inr hop) ho))), hrunq.trans hqueue, hrunc⟩
  · have hexec := exec_bridgeFence_resolved hm hres
    exact ⟨fun h => hexec.trans (hnext (if_neg (Bool.eq_false_iff.1 h))), fun h => hexec.trans (hnext (if_pos h))⟩
  · intro h hcause hdown c base
    obtain ⟨hnow, hlater⟩ := c.gateDue_bounds m
    obtain ⟨hon, hdue⟩ := c.armedGates_due m
    exact ⟨_, exec_gclArm_admitted hcause hdown, hon, fun hle => hdue.trans (hnow hle),
      fun hlt => (hlater hlt).imp fun k hk => ⟨hdue.trans hk.1, hk.2⟩⟩
  · intro h g hpend htime hdue
    obtain ⟨l, hexec⟩ := exec_gclReplace_due hpend htime hdue
    exact ⟨_, hexec, s.chip.replaceGates_done m _ _ _⟩
  · exact fun hlist hdown htime => exec_gateEntryEnd_running hlist hdown htime

end Machine

end Sys2Proof

/-! PROOF. Frames in and out at the gateway bridge, and the states of its controllers (R393–R413). -/

namespace Sys2Proof

namespace Machine

/-! ### What the bridge's work leaves -/

/-- A part of the chip aside of events, of commands, of sends and of what their frames reach. -/
structure BridgePart {γ : Type} (f : Chip → γ) : Prop where
  event : EventPart f
  sends (c : Chip) (y : List GSend) (l : List Owner) : f { c with gwSends := y, gwLate := l } = f c
  chans (c : Chip) (y : Tbl ChanSt) : f { c with gwChans := y } = f c
  pcie (c : Chip) (y : Pair (Option (Nat × Option Nat))) : f { c with pcieOut := y } = f c
  cmds (c : Chip) (y : List Cmd) : f { c with cmds := y } = f c

theorem EventPart.refusalEvent {γ : Type} {f : Chip → γ} (h : EventPart f) (c : Chip) (k : Half) (m : Option Cmd) (o : Owner) (a cause engine : Nat) :
    f (c.refusalEvent k m o a cause engine) = f c := by
  unfold Chip.refusalEvent
  extract_lets +onlyGivenNames i typ mk
  have hmk (code : Nat) (d : List Nat) : f (mk code d) = f c := by
    cases m with
    | none => exact h.raise _ _
    | some m => exact h.raise _ _
  split
  · refine ite_keeps ?_ (hmk _ _)
    split <;> exact hmk _ _
  · exact hmk _ _
  · exact hmk _ _
  · exact hmk _ _
  · rfl

namespace BridgePart

variable {γ : Type} {f : Chip → γ} (h : BridgePart f)
include h

theorem complete (c : Chip) (m : Cmd) (d : Nat) : f (c.complete m d) = f c := c.complete_part h.event h.cmds m d

theorem failCmd (c : Chip) (m : Cmd) (d : Nat) : f (c.failCmd m d) = f c := ite_keeps (h.complete _ _ _) (h.complete _ _ _)

theorem setSend (c : Chip) (x : GSend) : f (c.setSend x) = f c := h.sends c _ _
theorem dropSend (c : Chip) (i : CmdId) : f (c.dropSend i) = f c := h.sends c _ _

theorem endSend (c : Chip) (x : GSend) (cause bytes : Nat) : f (c.endSend x cause bytes) = f c := by
  unfold Chip.endSend
  extract_lets +onlyGivenNames d
  have hd : f d = f c := h.setSend _ _
  split
  · exact (ite_keeps rfl (ite_keeps (h.complete _ _ _) (h.complete _ _ _))).trans hd
  · exact hd

theorem failSend (c : Chip) (x : GSend) (cause bytes : Nat) : f (c.failSend x cause bytes) = f c := by
  have hlate : f (c.lateError x cause) = f c := by
    unfold Chip.lateError
    extract_lets +onlyGivenNames k d
    have hd : f d = f c := (h.event.raise _ _).trans (h.event.inc _ _)
    exact (ite_keeps rfl (h.sends d _ _)).trans hd
  unfold Chip.failSend
  extract_lets +onlyGivenNames d
  have hd : f d = f c := ite_keeps (h.endSend _ _ _ _) hlate
  exact (ite_keeps rfl (h.dropSend _ _)).trans hd

theorem touched (c : Chip) (k : Half) (m : Option Cmd) (o : Owner) (a n engine : Nat) : f (c.touched k m o a n engine) = f c := by
  unfold Chip.touched
  extract_lets +onlyGivenNames d
  have hd : f d = f c := ite_keeps rfl (ite_keeps (h.pcie _ _) rfl)
  have hbad (y : Chip) : f (y.badEntries k m o a n engine) = f y := by
    unfold Chip.badEntries
    refine ite_keeps rfl (foldl_keeps f _ (fun x g => ?_) _ _)
    split
    · exact ite_keeps rfl (h.event.refusalEvent _ _ _ _ _ _ _)
    · rfl
  exact (hbad _).trans ((ite_keeps rfl (h.event.raise _ _)).trans hd)

theorem tryStore {c d : Chip} {o : Owner} {a : Nat} {bs : List Byte} (hs : c.tryStore o a bs = .ok d) : f d = f c := by
  unfold Chip.tryStore at hs
  split at hs
  · cases hs
  · rw [← Except.ok.inj hs]
    exact h.event.store _ _ _

theorem offerChannel (c : Chip) (p stamp : Nat) (g : GFrame) (k : Nat) : f (c.offerChannel p stamp g k) = f c := by
  have hdrops (no : Nat) : f (c.chanDrops k no) = f c := by
    unfold Chip.chanDrops
    extract_lets +onlyGivenNames x d
    have hd : f d = f c := (h.event.inc _ _).trans (h.chans _ _)
    exact (ite_keeps rfl (h.event.raise _ _)).trans hd
  unfold Chip.offerChannel
  refine ite_keeps rfl ?_
  extract_lets +onlyGivenNames no bufs o size a rec_
  refine ite_keeps (hdrops _) ?_
  split
  · exact (h.event.refusalEvent _ _ _ _ _ _ _).trans (hdrops _)
  next d hd => exact (h.event.signal _ _ _ _ _ _).trans ((h.chans _ _).trans ((h.touched _ _ _ _ _ _ _).trans (h.tryStore hd)))

theorem ackSend (c : Chip) (p now : Nat) (g : GFrame) (x : GSend) : f (c.ackSend p now g x) = f c := by
  unfold Chip.ackSend
  split
  · exact ite_keeps (h.failSend _ _ _ _) rfl
  · rfl

theorem respond (c : Chip) (p stamp : Nat) (g : GFrame) (x : GSend) : f (c.respond p stamp g x) = f c := by
  unfold Chip.respond
  split
  · rfl
  next r _ =>
  refine ite_keeps rfl ?_
  split
  next bs n _ =>
  split
  next e _ =>
    split
    · exact (h.event.refusalEvent _ _ _ _ _ _ _).trans ((h.failCmd _ _ _).trans (h.dropSend _ _))
    · exact h.dropSend _ _
  next d hd =>
    extract_lets +onlyGivenNames d' neg y
    have hd' : f d' = f c := (h.touched _ _ _ _ _ _ _).trans (h.tryStore hd)
    exact (ite_keeps (h.failSend _ _ _ _) ((h.endSend _ _ _ _).trans (h.setSend _ _))).trans hd'

/-- What a frame reaches besides the routes. -/
theorem received (c : Chip) (p now stamp : Nat) (g : GFrame) (l : List Nat) :
    let d := l.foldl (fun c k => c.offerChannel p stamp g k) c
    let e := d.gwSends.foldl (fun c x => match c.send? x.id with | some x => c.ackSend p now g x | none => c) d
    let e' := e.gwSends.foldl (fun c x => match c.send? x.id with | some x => c.respond p stamp g x | none => c) e
    f (e'.pruneSends now) = f c := by
  intro d e e'
  have hd : f d = f c := foldl_keeps f _ (fun x k => h.offerChannel x p stamp g k) _ _
  have he : f e = f d := foldl_keeps f _ (fun y x => by
    split
    · exact h.ackSend _ _ _ _ _
    · rfl) _ _
  have he' : f e' = f e := foldl_keeps f _ (fun y x => by
    split
    · exact h.respond _ _ _ _ _
    · rfl) _ _
  exact (h.sends e' _ _).trans (he'.trans (he.trans hd))

end BridgePart

/-! ### Routes -/

/-- A route that has taken a value. -/
def RouteSt.took (x : RouteSt) (v origin : Nat) : RouteSt := { x with val := v, origin := some origin, fresh := true, stale := false }

@[simp] theorem Chip.route_setRoute (c : Chip) (r : Nat) (x : RouteSt) : (c.setRoute r x).route r = x := Tbl.look_put_same _ _ _ _

theorem Chip.q_setRoute (c : Chip) (r : Nat) (x : RouteSt) (g : RF) : (c.setRoute r x).q g = c.q g := rfl

theorem Chip.route_routeTakes (c : Chip) (r v origin : Nat) : (c.routeTakes r v origin).route r = (c.route r).took v origin := c.route_setRoute r _

theorem Chip.forwardAll_signals {c : Chip} (h : ∀ r ∈ c.routes, c.on (F.GW_ROUTE_CFG_KIND r) = false) : c.forwardAll = c := by
  unfold Chip.forwardAll
  rw [List.filter_eq_nil_iff.2 fun r hr => by rw [h r hr]; exact Bool.false_ne_true]
  exact ite_self _

section
variable {c : Chip} {p now r : Nat} {g : GFrame}

theorem Chip.offerRoute_signal (hcan : isCan p = true) (hsrc : c.q (F.GW_ROUTE_CFG_SRC0 r) = p ∨ c.q (F.GW_ROUTE_CFG_SRC1 r) = p)
    (hkind : c.q (F.GW_ROUTE_CFG_SRC_KIND r) = 0) (hsig : c.on (F.GW_ROUTE_CFG_KIND r) = false)
    (hkey : matchKey g.ident.toNat (c.reg (Reg.GW_ROUTE_MATCH r)) (c.reg (Reg.GW_ROUTE_MASK r)) = true) :
    c.offerRoute p now g r = { c with freeCnt := c.freeCnt + 1 }.routeTakes r
      (readField c.freeCnt g.data (c.q (F.GW_ROUTE_IN_IN_START r)) (c.q (F.GW_ROUTE_IN_IN_LEN r) + 1) (c.on (F.GW_ROUTE_IN_IN_BE r))) now := by
  have hnamed : (c.q (F.GW_ROUTE_CFG_SRC0 r) == p || c.q (F.GW_ROUTE_CFG_SRC1 r) == p) = true := by
    rw [Bool.or_eq_true, beq_iff_eq, beq_iff_eq]
    exact hsrc
  have hframe : frameKey g p = g.ident.toNat := if_pos hcan
  unfold Chip.offerRoute
  extract_lets named kind
  have hk : kind = 0 := if_pos hcan
  rw [if_neg, if_neg]
  · rw [hsig]
    exact Bool.false_ne_true
  · rw [hk, hframe, hkey, hkind]
    exact fun h => h.elim (fun h => h hnamed) fun h => h.elim (fun h => h rfl) fun h => h rfl

end

/-- The bridge takes no notice of the routes for the rest of a frame. -/
theorem bridgePart_routes : BridgePart fun y : Chip => y.gwRoutes :=
  { event := fun _ _ _ _ _ _ _ _ _ _ _ _ => rfl, sends := fun _ _ _ => rfl, chans := fun _ _ => rfl, pcie := fun _ _ => rfl, cmds := fun _ _ => rfl }

/-- Clause 1: a CAN frame received for the sole route, a signal route (R397). -/
theorem exec_frameReceived_signal {p : Fin 32} {g : GFrame} {r : Nat} {s : State} (hup : s.chip.portUp p = true) (hcan : isCan p = true)
    (htime : s.chip.timeReady (portHalf p) = true) (hfmt : s.chip.carries p g.fmt = true) (hen : s.chip.on F.GW_CTL_ENABLE = true)
    (hroutes : s.chip.routes = [r]) (hsrc : s.chip.q (F.GW_ROUTE_CFG_SRC0 r) = p ∨ s.chip.q (F.GW_ROUTE_CFG_SRC1 r) = p)
    (hkind : s.chip.q (F.GW_ROUTE_CFG_SRC_KIND r) = 0) (hsig : s.chip.on (F.GW_ROUTE_CFG_KIND r) = false)
    (hkey : matchKey g.ident.toNat (s.chip.reg (Reg.GW_ROUTE_MATCH r)) (s.chip.reg (Reg.GW_ROUTE_MASK r)) = true) :
    ∃ t k, exec (.frameReceived p g) s = .next (s.withChip t) ∧
      t.route r = (s.chip.route r).took (readField k g.data (s.chip.q (F.GW_ROUTE_IN_IN_START r)) (s.chip.q (F.GW_ROUTE_IN_IN_LEN r) + 1)
        (s.chip.on (F.GW_ROUTE_IN_IN_BE r))) (s.chip.stamp (portHalf p) 0) := by
  have hmac : isMac p = false := by
    have := of_decide_eq_true hcan
    exact decide_eq_false fun h => by omega
  have hexec : exec (.frameReceived p g) s = execFrameReceived p g s := rfl
  unfold execFrameReceived at hexec
  rw [if_neg (by rw [hup, htime, hfmt]; decide)] at hexec
  rw [hmac] at hexec
  simp only [Bool.false_eq_true, if_false] at hexec
  generalize hd : (s.chip.captured (portHalf p) (s.chip.q F.GW_CTL_TB) 2560).2 = d at hexec
  have hdc : d = { s.chip with freeCnt := s.chip.freeCnt + 1 } := hd.symm
  generalize hv : s.chip.stamp (portHalf p) 0 = now at hexec ⊢
  have hoffer := Chip.offerRoute_signal (c := d) (now := now) hcan (by rw [hdc]; exact hsrc) (by rw [hdc]; exact hkind) (by rw [hdc]; exact hsig) (by rw [hdc]; exact hkey)
  have hfold : d.routes.foldl (fun c r => c.offerRoute p now g r) d = d.offerRoute p now g r := by
    rw [show d.routes = [r] by rw [hdc]; exact hroutes]
    rfl
  rw [if_pos (by rw [hdc]; exact hen), hfold, Chip.forwardAll_signals] at hexec
  · refine ⟨_, d.freeCnt, hexec.trans (s.go_eq _), ?_⟩
    have hroute (y : Chip) (h : y.gwRoutes = (d.offerRoute p now g r).gwRoutes) : y.route r = (d.offerRoute p now g r).route r :=
      congrArg (fun l => Tbl.look RouteSt.zero l r) h
    refine (hroute _ (bridgePart_routes.received _ _ _ _ _ _)).trans ?_
    rw [hoffer, Chip.route_routeTakes, hdc]
    rfl
  · intro k hk
    rw [hoffer, hdc] at hk ⊢
    have hk' : k ∈ s.chip.routes := hk
    rw [hroutes, List.mem_singleton] at hk'
    rw [hk']
    exact hsig

/-- The instant that a poll serves. -/
theorem Chip.gwLatest_eq (c : Chip) (us : Nat) : c.gwLatest us = c.gwNow c.gwHalf / (max us 1 * usUnits) * (max us 1 * usUnits) := by
  unfold Chip.gwLatest
  exact (Nat.div_mul_self_eq_mod_sub_self).symm

theorem servedAt_self (k : Nat) : servedAt (some k) k = true := by
  have h : elapsed k k = 0 := by
    unfold elapsed sgn
    split <;> omega
  exact decide_eq_true (le_of_eq h)

theorem servedAt_later {o : Option Nat} {k : Nat} (h : ∀ l, o = some l → 0 < elapsed k l) : servedAt o k = false := by
  cases o with
  | none => rfl
  | some l => exact decide_eq_false (not_le.2 (h l rfl))

section
variable {r : Fin 4096} {b : Bool} {o : Seen} {s : State}

/-- The route after the poll of a hardened input. -/
def Chip.polled (c : Chip) (r k v : Nat) : Chip := (c.setRoute r { c.route r with poll := some k }).routeTakes r v (c.stamp c.gwHalf 0)

theorem exec_sourcePoll_input (hen : s.chip.on F.GW_CTL_ENABLE = true) (hval : s.chip.on (F.GW_ROUTE_CFG_VALID r) = true)
    (hkind : s.chip.q (F.GW_ROUTE_CFG_KIND r) = 0) (htime : s.chip.timeReady s.chip.gwHalf = true)
    (hpoll : servedAt (s.chip.route r).poll (s.chip.gwLatest (s.chip.q (F.GW_ROUTE_PERIOD_SRC_PERIOD_US r))) = false)
    (hsrc : s.chip.q (F.GW_ROUTE_CFG_SRC_KIND r) = 2) (hdown : s.chip.down.get (Half.ofIdx (bits (s.chip.reg (Reg.GW_ROUTE_MATCH r)) 5 1)) = false) :
    exec (.sourcePoll r b o) s = .next (s.withChip (s.chip.polled r (s.chip.gwLatest (s.chip.q (F.GW_ROUTE_PERIOD_SRC_PERIOD_US r)))
      (b2n (bit (s.chip.q (F.HIO_DI_LEVEL_INPUT (bits (s.chip.reg (Reg.GW_ROUTE_MATCH r)) 5 1))) (s.chip.reg (Reg.GW_ROUTE_MATCH r) % 32))))) := by
  have hexec : exec (.sourcePoll r b o) s = execSourcePoll r b s o := rfl
  unfold execSourcePoll at hexec
  simp only [hpoll, Chip.q_setRoute, hsrc] at hexec
  rw [if_neg (by rw [hen, hval, hkind, htime]; decide)] at hexec
  exact hexec.trans ((if_neg (Bool.eq_false_iff.1 hdown)).trans (s.go_eq _))

/-- A poll at an instant that has been served does nothing. -/
theorem exec_sourcePoll_served (hpoll : servedAt (s.chip.route r).poll (s.chip.gwLatest (s.chip.q (F.GW_ROUTE_PERIOD_SRC_PERIOD_US r))) = true) :
    exec (.sourcePoll r b o) s = .next s := by
  have hexec : exec (.sourcePoll r b o) s = execSourcePoll r b s o := rfl
  unfold execSourcePoll at hexec
  exact hexec.trans ((if_pos (Or.inr hpoll)).trans (s.go_eq _))

end

theorem Chip.route_polled (c : Chip) (r k v : Nat) :
    (c.polled r k v).route r = RouteSt.took { c.route r with poll := some k } v (c.stamp c.gwHalf 0) := by
  refine (Chip.route_routeTakes _ _ _ _).trans ?_
  rw [Chip.route_setRoute]

/-! ### Frames out -/

section
variable {f : Fin 1024} {s : State}

theorem exec_outboundFrameInstant_due (hen : s.chip.on F.GW_CTL_ENABLE = true) (hval : s.chip.on (F.GW_TXF_CFG_VALID f) = true)
    (htime : s.chip.timeReady s.chip.gwHalf = true)
    (hserved : servedAt (Tbl.find? s.chip.gwInstant f) (s.chip.gwLatest (s.chip.q (F.GW_TXF_PERIOD_PERIOD_US f))) = false) :
    exec (.outboundFrameInstant f) s = .next (s.withChip (Chip.frameInstant
      { s.chip with gwInstant := Tbl.ins s.chip.gwInstant f (s.chip.gwLatest (s.chip.q (F.GW_TXF_PERIOD_PERIOD_US f))) } f false)) := by
  have hexec : exec (.outboundFrameInstant f) s = execOutboundFrameInstant f s := rfl
  unfold execOutboundFrameInstant at hexec
  simp only [hserved] at hexec
  exact hexec.trans ((if_neg (by rw [hen, hval, htime]; decide)).trans (s.go_eq _))

theorem exec_outboundFrameInstant_served (hserved : servedAt (Tbl.find? s.chip.gwInstant f) (s.chip.gwLatest (s.chip.q (F.GW_TXF_PERIOD_PERIOD_US f))) = true) :
    exec (.outboundFrameInstant f) s = .next s := by
  have hexec : exec (.outboundFrameInstant f) s = execOutboundFrameInstant f s := rfl
  unfold execOutboundFrameInstant at hexec
  exact hexec.trans ((if_pos (Or.inr hserved)).trans (s.go_eq _))

end

/-- A part of the chip that the forwarding of routed frames leaves (R399). -/
structure ForwardPart {γ : Type} (f : Chip → γ) : Prop where
  event : EventPart f
  routes (c : Chip) (y : Tbl RouteSt) : f { c with gwRoutes := y } = f c
  queue (c : Chip) (y : List GQueued) : f { c with gwQueue := y } = f c
  credit (c : Chip) (y : Tbl (Int × Nat)) : f { c with gwCredit := y } = f c
  tx (c : Chip) (y : Tbl TxSt) : f { c with gwTx := y } = f c

namespace ForwardPart

variable {γ : Type} {f : Chip → γ} (h : ForwardPart f)
include h

theorem setRoute (c : Chip) (r : Nat) (x : RouteSt) : f (c.setRoute r x) = f c := h.routes _ _

theorem noteTx (c : Chip) (key : Nat) (t : Option Nat) (t0 t1 : Nat) : f (c.noteTx key t t0 t1) = f c := by
  unfold Chip.noteTx
  extract_lets +onlyGivenNames x no
  split
  · extract_lets +onlyGivenNames d
    have hd : f d = f c := h.tx _ _
    split
    · exact (ite_keeps rfl (h.event.ev _ _ _ _)).trans hd
    · exact hd
  · extract_lets +onlyGivenNames d
    have hd : f d = f c := h.tx _ _
    exact (ite_keeps rfl (h.event.ev _ _ _ _)).trans hd

theorem forward (r n : Nat) : ∀ c : Chip, f (c.forward r n) = f c := by
  induction n with
  | zero => exact fun c => rfl
  | succ n ih =>
    intro c
    unfold Chip.forward
    extract_lets +onlyGivenNames out t0 t1
    split
    · rfl
    extract_lets +onlyGivenNames gated tx d part
    have hd : f d = f c := ite_keeps rfl (h.noteTx _ _ _ _ _)
    clear_value tx part d
    split
    · exact hd
    · refine (ite_keeps rfl ?_).trans hd
      exact (ih _).trans ((h.event.enqueue h.queue h.credit _ _ _).trans (h.setRoute _ _ _))

theorem routeDrops (c : Chip) (r n : Nat) : f (c.routeDrops r n) = f c := by
  unfold Chip.routeDrops
  refine ite_keeps rfl ?_
  extract_lets +onlyGivenNames x d
  have hd : f d = f c := (h.setRoute _ _ _).trans (h.event.put _ _ _)
  exact (ite_keeps rfl (h.event.ev _ _ _ _)).trans hd

theorem forwardAll (c : Chip) : f c.forwardAll = f c := by
  unfold Chip.forwardAll
  refine ite_keeps rfl (foldl_keeps f _ (fun x r => ?_) _ _)
  exact (h.forward _ _ _).trans ((h.routeDrops _ _ _).trans (h.setRoute _ _ _))

end ForwardPart

/-- The commands are no part of the routes' work. -/
theorem forwardPart_cmds : ForwardPart fun y : Chip => y.cmds :=
  { event := eventPart_cmds, routes := fun _ _ => rfl, queue := fun _ _ => rfl, credit := fun _ _ => rfl, tx := fun _ _ => rfl }

/-- The frames on the wires are no part of the routes' work. -/
theorem forwardPart_gwOut : ForwardPart fun y : Chip => y.gwOut :=
  { event := fun _ _ _ _ _ _ _ _ _ _ _ _ => rfl, routes := fun _ _ => rfl, queue := fun _ _ => rfl, credit := fun _ _ => rfl, tx := fun _ _ => rfl }

theorem Chip.cmd?_of_cmds {c d : Chip} (h : d.cmds = c.cmds) (id : CmdId) : d.cmd? id = c.cmd? id := by
  unfold Chip.cmd?
  rw [h]

/-- A live send without a response ends with its frame on the wire. -/
theorem Chip.sent_completes {c : Chip} {id : CmdId} {x : GSend} {m : Cmd} (now : Nat) (hx : c.send? id = some x) (hlive : x.live = true) (hresp : x.resp = none)
    (hm : c.cmd? id = some m) (hrun : m.stage = .running) : (c.sent id now).gwOut = c.gwOut ∧ (c.sent id now).cmd? id = none := by
  have hid : x.id = id := beq_iff_eq.1 (List.find?_some (p := fun y : GSend => y.id == id) hx)
  have hmid : m.id = id := beq_iff_eq.1 (List.find?_some (p := fun y : Cmd => y.id == id) hm)
  have hsent : c.sent id now = ((c.setSend { x with sentAt := some now }).setSend { x with sentAt := some now, live := false }).complete m
      (GSend.detail { x with sentAt := some now } 0 0) := by
    unfold Chip.sent Chip.endSend
    simp only [hx]
    rw [if_pos ⟨hlive, by rw [hresp]; rfl⟩]
    have hcmd : ((c.setSend { x with sentAt := some now }).setSend { x with sentAt := some now, live := false }).cmd? x.id = some m := by
      rw [hid]
      exact hm
    simp only [hcmd]
    rw [if_neg (fun h => h hrun), if_pos trivial]
  rw [hsent]
  refine ⟨?_, hmid ▸ (Chip.sentOn _ _).2⟩
  exact Chip.complete_part (f := fun y : Chip => y.gwOut) (fun _ _ _ _ _ _ _ _ _ _ _ _ => rfl) (fun _ _ => rfl) _ m _

/-- The frame that a controller sends for a queued one (R395). -/
def Chip.wireFrame (c : Chip) (p : Nat) (q : GQueued) : GFrame :=
  if q.needSa then { q.frame with ident := withSa q.frame.ident (c.q (F.GW_CAN_SA_SA p)) } else q.frame

/-- Clause 4: a CAN controller sends the next frame of a send. -/
theorem Chip.transmit_sends {c : Chip} {p tc : Nat} {q : GQueued} {id : CmdId} {x : GSend} {m : Cmd} (hup : (c.ageQueued p).portUp p = true)
    (hcan : isCan p = true) (hdrive : (c.ageQueued p).mayDrive p = true) (hnext : (c.ageQueued p).nextFrame p tc = some q) (hsrc : q.src = .cmd id)
    (hx : (c.ageQueued p).send? id = some x) (hlive : x.live = true) (hresp : x.resp = none) (hm : (c.ageQueued p).cmd? id = some m) (hrun : m.stage = .running) :
    (c.transmit p tc true).cmd? id = none ∧ Tbl.find? (c.transmit p tc true).gwOut p = some ((c.ageQueued p).wireFrame p q) := by
  have hmac : isMac p = false := by
    have := of_decide_eq_true hcan
    exact decide_eq_false fun h => by omega
  unfold Chip.transmit
  generalize c.ageQueued p = d at *
  have hcmds : (d.unqueue q).cmds = d.cmds := EventPart.syncQueued eventPart_cmds _ _
  have hsends : (d.unqueue q).gwSends = d.gwSends := EventPart.syncQueued (f := fun y : Chip => y.gwSends) (fun _ _ _ _ _ _ _ _ _ _ _ _ => rfl) _ _
  have hsa : (d.unqueue q).q (F.GW_CAN_SA_SA p) = d.q (F.GW_CAN_SA_SA p) :=
    ite_keeps (f := fun y : Chip => y.q (F.GW_CAN_SA_SA p)) (Chip.q_put_apart _ _ ⟨Nat.le_of_ble_eq_true rfl, Or.inl (by show Reg.GW_CAN_SA p ≠ Reg.GW_CAN_STAT q.port; unfold Reg.GW_CAN_SA Reg.GW_CAN_STAT; omega)⟩) rfl
  simp only [hup, hdrive, hmac, hnext, hsrc, Bool.false_eq_true, false_and, if_false, not_true_eq_false, or_self, reduceCtorEq, if_true]
  generalize c.stamp (portHalf p) 0 = now
  have hqk (y : Chip) (hy : y.cmds = d.cmds ∧ y.gwSends = d.gwSends ∧ Tbl.find? y.gwOut p = some (d.wireFrame p q)) :
      (((y.sent id now).forwardAll).pruneSends now).cmd? id = none ∧
        Tbl.find? (((y.sent id now).forwardAll).pruneSends now).gwOut p = some (d.wireFrame p q) := by
    obtain ⟨hcmds, hsends, hout⟩ := hy
    obtain ⟨h1, h2⟩ := Chip.sent_completes (c := y) now (by unfold Chip.send?; rw [hsends]; exact hx) hlive hresp ((Chip.cmd?_of_cmds hcmds id).trans hm) hrun
    refine ⟨?_, ?_⟩
    · exact ((Chip.cmd?_of_cmds (forwardPart_cmds.forwardAll _) id)).trans h2
    · exact (congrArg (fun l => Tbl.find? l p) ((forwardPart_gwOut.forwardAll _).trans h1)).trans hout
  generalize d.unqueue q = u at *
  unfold Chip.wireFrame at hqk ⊢
  rw [← hsa] at hqk ⊢
  cases hneed : q.needSa
  · simp only [hneed, Bool.false_eq_true, if_false, hsrc] at hqk ⊢
    exact hqk _ ⟨hcmds, hsends, Tbl.find?_ins_same _ _ _⟩
  · simp only [hneed, if_true] at hqk ⊢
    exact hqk _ ⟨hcmds, hsends, Tbl.find?_ins_same _ _ _⟩

/-! ### States of the controllers -/

section
variable {n : Fin 12} {s : State}

/-- A controller with its error counts and state. -/
def Chip.canErrors (c : Chip) (n tec rec_ st : Nat) : Chip :=
  ((c.put (F.GW_CAN_STAT_TEC n) tec).put (F.GW_CAN_STAT_REC n) rec_).put (F.GW_CAN_STAT_STATE n) st

theorem Chip.canErrors_reads (c : Chip) (n tec rec_ st : Nat) (htec : tec < 256) (hrec : rec_ < 256) (hst : st < 4) :
    (c.canErrors n tec rec_ st).q (F.GW_CAN_STAT_STATE n) = st ∧ (c.canErrors n tec rec_ st).q (F.GW_CAN_STAT_TEC n) = tec ∧
      (c.canErrors n tec rec_ st).q (F.GW_CAN_STAT_REC n) = rec_ := by
  have below {f g : RF} (h : f.lo + f.wid ≤ 32) (hl : g.lo + g.wid ≤ f.lo) : f.Apart g := ⟨h, Or.inr (Or.inr hl)⟩
  unfold Chip.canErrors
  refine ⟨?_, ?_, ?_⟩
  · exact (Chip.q_put_same _ _ _ (Nat.le_of_ble_eq_true rfl)).trans (Nat.mod_eq_of_lt hst)
  · rw [Chip.q_put_apart _ _ (below (Nat.le_of_ble_eq_true rfl) (Nat.le_of_ble_eq_true rfl)),
      Chip.q_put_apart _ _ (show (F.GW_CAN_STAT_REC n).Apart (F.GW_CAN_STAT_TEC n) from ⟨Nat.le_of_ble_eq_true rfl, Or.inr (Or.inl (Nat.le_of_ble_eq_true rfl))⟩)]
    exact (Chip.q_put_same _ _ _ (Nat.le_of_ble_eq_true rfl)).trans (Nat.mod_eq_of_lt htec)
  · rw [Chip.q_put_apart _ _ (below (Nat.le_of_ble_eq_true rfl) (Nat.le_of_ble_eq_true rfl))]
    exact (Chip.q_put_same _ _ _ (Nat.le_of_ble_eq_true rfl)).trans (Nat.mod_eq_of_lt hrec)

theorem exec_canErrorStateChange_counts {tec rec_ : Fin 256} (hst : s.chip.canState n ≤ 1) (hdown : s.chip.down.get (portHalf n) = false) :
    ∃ t, exec (.canErrorStateChange n tec rec_) s = .next (s.withChip t) ∧ t.canState n = (if 128 ≤ tec.val ∨ 128 ≤ rec_.val then 1 else 0) ∧
      t.q (F.GW_CAN_STAT_TEC n) = tec ∧ t.q (F.GW_CAN_STAT_REC n) = rec_ := by
  have hexec : exec (.canErrorStateChange n tec rec_) s = execCanErrorStateChange n tec rec_ s := rfl
  unfold execCanErrorStateChange at hexec
  rw [if_neg (fun h => h.elim (by omega) (Bool.eq_false_iff.1 hdown))] at hexec
  refine ⟨_, hexec.trans (s.go_eq _), ?_⟩
  generalize hst : (if 128 ≤ tec.val ∨ 128 ≤ rec_.val then 1 else 0) = st
  have hlt : st < 4 := by
    rw [← hst]
    split <;> decide
  obtain ⟨h1, h2, h3⟩ := s.chip.canErrors_reads n tec rec_ st tec.isLt rec_.isLt hlt
  have hev : ¬ eventReg (Reg.GW_CAN_STAT n) := by
    have := n.isLt
    unfold eventReg Reg.GW_CAN_STAT Reg.WEAR_LOG_CNT
    omega
  have keep (g : RF) (hg : g.addr = Reg.GW_CAN_STAT n) (y : Chip) (p : Prop) [Decidable p] (k : Half) (code : Nat) (l : List Nat) :
      (if p then y else y.ev k code l).q g = y.q g :=
    ite_keeps (f := fun y : Chip => y.q g) rfl (((SameField.refl (c := y)).ev (hg ▸ hev) k code l).1)
  exact ⟨(keep _ rfl _ _ _ _ _).trans h1, (keep _ rfl _ _ _ _ _).trans h2, (keep _ rfl _ _ _ _ _).trans h3⟩

theorem exec_busOff_up (hst : s.chip.canState n ≤ 1) (hdown : s.chip.down.get (portHalf n) = false) :
    exec (.busOff n) s = .next (s.withChip (((s.chip.put (F.GW_CAN_STAT_STATE n) 2).ev (portHalf n) 0x0A01 [n.val, 2]).failPort n 2)) := by
  have hexec : exec (.busOff n) s = execBusOff n s := rfl
  unfold execBusOff at hexec
  exact hexec.trans ((if_neg fun h => h.elim (by omega) (Bool.eq_false_iff.1 hdown)).trans (s.go_eq _))

theorem exec_busOffRecovery_auto (hst : s.chip.canState n = 2) (hauto : s.chip.on (F.GW_CAN_CFG_BO_AUTO n) = true) :
    exec (.busOffRecovery n) s = .next (s.withChip (((((s.chip.put (F.GW_CAN_STAT_STATE n) 0).put (F.GW_CAN_STAT_TEC n) 0).put (F.GW_CAN_STAT_REC n) 0).ev
      (portHalf n) 0x0A01 [n.val, 0]).forwardAll)) := by
  have hexec : exec (.busOffRecovery n) s = execBusOffRecovery n s := rfl
  unfold execBusOffRecovery at hexec
  exact hexec.trans ((if_pos ⟨hst, hauto⟩).trans (s.go_eq _))

theorem exec_ethernetLinkChange_turns {m : Fin 8} {up : Bool} (hlink : s.chip.on (F.GW_ETH_STAT_LINK m) ≠ up) (hdown : s.chip.down.get (portHalf (m.val + 16)) = false) :
    exec (.ethernetLinkChange m up) s = .next (s.withChip (if up then
      ((s.chip.put (F.GW_ETH_STAT_LINK m) (b2n up)).ev (portHalf (m.val + 16)) 0x0A08 [m.val, b2n up, s.chip.q (F.GW_ETH_CFG_SPEED m)]).forwardAll
      else ((s.chip.put (F.GW_ETH_STAT_LINK m) (b2n up)).ev (portHalf (m.val + 16)) 0x0A08 [m.val, b2n up, s.chip.q (F.GW_ETH_CFG_SPEED m)]).failPort (m.val + 16) 3)) := by
  have hexec : exec (.ethernetLinkChange m up) s = execEthernetLinkChange m up s := rfl
  unfold execEthernetLinkChange at hexec
  exact hexec.trans ((if_neg fun h => h.elim hlink (Bool.eq_false_iff.1 hdown)).trans (s.go_eq _))

theorem exec_sideBandPulse_latched {k : Fin 16} (hlatch : bit (s.chip.q (F.GW_SB_CFG_LATCH (k.val / 8))) (k.val % 8) = true)
    (hdown : s.chip.down.get (Half.ofIdx (k.val / 8)) = false) :
    exec (.sideBandPulse k) s = .next (s.withChip { s.chip with gwPulse := setBit s.chip.gwPulse k true }) := by
  have hexec : exec (.sideBandPulse k) s = execSideBandPulse k s := rfl
  unfold execSideBandPulse at hexec
  exact hexec.trans ((if_pos ⟨hlatch, Bool.eq_false_iff.1 hdown⟩).trans (s.go_eq _))

end

/-- Settles O50: a frame reaches its routes only through the sole one; the rest of its work leaves routes, commands and wires alone. -/
theorem gatewayFrames : Obligations.GatewayFrames := by
  unfold Obligations.GatewayFrames
  refine ⟨fun p g r s => ?_, fun r b o s => ?_, fun f s => ?_, fun p tc q id x m s => ?_, fun n tec rec_ s => ?_, fun n s => exec_busOffRecovery_auto,
    fun m up s => exec_ethernetLinkChange_turns, fun n s => exec_sideBandPulse_latched⟩
  · intro c hup hcan htime hfmt hen hroutes hsrc hkind hsig hkey
    obtain ⟨t, k, hexec, hroute⟩ := exec_frameReceived_signal hup hcan htime hfmt hen hroutes hsrc hkind hsig hkey
    refine ⟨t, k, hexec, ?_⟩
    rw [hroute]
    exact ⟨rfl, rfl, rfl, rfl⟩
  · intro c m p k hen hval hkind htime hpoll hsrc hdown
    have hk : c.gwLatest (c.q (F.GW_ROUTE_PERIOD_SRC_PERIOD_US r)) = k := c.gwLatest_eq _
    have hroute := c.route_polled r k (b2n (bit (c.q (F.HIO_DI_LEVEL_INPUT (bits m 5 1))) (m % 32)))
    have hserved : servedAt (c.route r).poll (c.gwLatest (c.q (F.GW_ROUTE_PERIOD_SRC_PERIOD_US r))) = false := servedAt_later (hk ▸ hpoll)
    refine ⟨c.polled r k (b2n (bit (c.q (F.HIO_DI_LEVEL_INPUT (bits m 5 1))) (m % 32))), ?_, ?_, ?_, ?_, ?_⟩
    · exact hk ▸ exec_sourcePoll_input hen hval hkind htime hserved hsrc hdown
    · rw [hroute]
      rfl
    · rw [hroute]
      rfl
    · rw [hroute]
      rfl
    · refine exec_sourcePoll_served ?_
      rw [show State.chip ⟨c.polled r k _, s.pending⟩ = c.polled r k _ from rfl, hroute]
      exact (congrArg (servedAt (some k)) hk).trans (servedAt_self k)
  · intro c p k hen hval htime
    have hk : c.gwLatest (c.q (F.GW_TXF_PERIOD_PERIOD_US f)) = k := c.gwLatest_eq _
    refine ⟨fun h => ?_, fun l hl h => ?_⟩
    · exact hk ▸ exec_outboundFrameInstant_due hen hval htime (servedAt_later (hk ▸ h))
    · refine exec_outboundFrameInstant_served ?_
      rw [hl]
      exact decide_eq_true (hk ▸ h)
  · intro c hup hcan hdrive hnext hsrc hx hlive hresp hm hrun
    have hexec : exec (.frameTransmitted p tc true) s = .next (s.withChip (s.chip.transmit p tc true)) := s.go_eq _
    exact ⟨_, hexec, Chip.transmit_sends hup hcan hdrive hnext hsrc hx hlive hresp hm hrun⟩
  · intro c hst hdown
    exact ⟨exec_canErrorStateChange_counts hst hdown, exec_busOff_up hst hdown⟩

end Machine

end Sys2Proof

/-! PROOF. Changes of the ownership table, and the application cores (R452–R458). -/

namespace Sys2Proof

namespace Machine

/-! ### Owner and type of an entry -/

/-- The owner and the type that an entry of the ownership table holds. -/
def Chip.entry (c : Chip) (e : Nat) : Nat × Nat := (ownOwner (c.ownAt e), ownType (c.ownAt e))

theorem ownType_mkOwn_mod (o typ flags : Nat) : ownType (mkOwn o typ flags % 2 ^ 32) = typ % 8 := by
  unfold ownType mkOwn bits
  dsimp only
  omega

theorem ownFlags_mkOwn (o typ flags : Nat) : ownFlags (mkOwn o typ flags % 2 ^ 32) = flags % 256 := by
  unfold ownFlags mkOwn bits
  dsimp only
  omega

theorem ownOwner_lt (e : Nat) : ownOwner e < 8192 := Nat.mod_lt _ (by decide)

theorem ownType_lt (e : Nat) : ownType e < 8 := Nat.mod_lt _ (by decide)

theorem Chip.entry_setOwn_same (c : Chip) (i o typ flags : Nat) : (c.setOwn i (mkOwn o typ flags)).entry i = (o % 8192, typ % 8) := by
  unfold Chip.entry
  rw [Chip.ownAt_setOwn_same, ownOwner_mkOwn, ownType_mkOwn_mod]

theorem Chip.entry_setOwn_ne (c : Chip) {i j : Nat} (v : Nat) (h : j ≠ i) : (c.setOwn i v).entry j = c.entry j := by
  unfold Chip.entry
  rw [Chip.ownAt_setOwn_ne _ _ h]

theorem Chip.entry_setClean (c : Chip) (i : Nat) (v : Bool) : (c.setClean i v).entry = c.entry := by
  funext j
  by_cases h : j = i
  · rw [h]
    exact (Chip.entry_setOwn_same _ _ _ _ _).trans (Prod.ext (Nat.mod_eq_of_lt (ownOwner_lt _)) (Nat.mod_eq_of_lt (ownType_lt _)))
  · exact Chip.entry_setOwn_ne _ _ h

theorem Chip.entry_of_own {c d : Chip} (h : d.own = c.own) : d.entry = c.entry := by
  funext j
  unfold Chip.entry Chip.ownAt
  rw [h]

/-- A part of the chip that granted writes leave, and that reads nothing else that an event writes. -/
structure RecordPart {γ : Type} (f : Chip → γ) : Prop where
  store (c : Chip) (a : Nat) (bs : List Byte) : f (c.store a bs) = f c
  rest (c : Chip) (r : Tbl RingSt) (g : List LogEntry) (w : Pair FlashLedger) (s : Pair Nat) (i : List IrqCell) (x : Tbl Word) :
    f { c with rings := r, log := g, flash := w, ledgerSeq := s, irqs := i, regs := x } = f c

namespace RecordPart

variable {γ : Type} {f : Chip → γ} (h : RecordPart f)
include h

theorem setReg (c : Chip) (a v : Nat) : f (c.setReg a v) = f c := h.rest c c.rings c.log c.flash c.ledgerSeq c.irqs _

theorem setRingSt (c : Chip) (r : Nat) (x : RingSt) : f (c.setRingSt r x) = f c :=
  Chip.setRingSt_keeps f (fun c y => h.rest c y c.log c.flash c.ledgerSeq c.irqs c.regs) c r x

theorem interrupt (c : Chip) (r : Nat) : f (c.interrupt r) = f c :=
  c.interrupt_keeps f (fun c y => h.rest c c.rings c.log c.flash c.ledgerSeq y c.regs) r

theorem writeRecord (c : Chip) (r size : Nat) (mk : Nat → Nat → Nat → List Byte) (reserved : Bool) : f (c.writeRecord r size mk reserved).2 = f c := by
  unfold Chip.writeRecord
  split
  · rfl
  split
  · rfl
  split
  · exact h.setRingSt c _ _
  dsimp only
  split
  · exact (h.setRingSt _ _ _).trans (h.setReg c _ _)
  · exact (h.interrupt _ _).trans ((h.setRingSt _ _ _).trans (((h.setReg _ _ _).trans (h.setReg _ _ _)).trans ((h.setReg _ _ _).trans (h.store c _ _))))

theorem ledger (c : Chip) (k : Half) (kind : Nat) (body : List Byte) (sets : List (Nat × Nat)) : f (c.ledger k kind body sets) = f c := by
  have hflash (y : Chip) (w : Pair FlashLedger) (s : Pair Nat) : f { y with flash := w, ledgerSeq := s } = f y := h.rest y y.rings y.log w s y.irqs y.regs
  unfold Chip.ledger
  dsimp only
  exact (foldl_keeps f _ (fun x y => ite_keeps rfl (hflash x _ x.ledgerSeq)) _ _).trans (hflash c c.flash _)

theorem logEvent (c : Chip) (e : Event) : f (c.logEvent e) = f c := by
  have hlog (y : Chip) (l : List LogEntry) : f { y with log := l } = f y := h.rest y y.rings l y.flash y.ledgerSeq y.irqs y.regs
  unfold Chip.logEvent
  exact ite_keeps rfl ((h.ledger _ _ _ _ _).trans ((h.setReg _ _ _).trans (hlog c _)))

theorem raiseFw (c : Chip) (e : Event) : f (c.raiseFw e) = f c := by
  unfold Chip.raiseFw
  split
  · rfl
  next r _ =>
  have hw := h.writeRecord c r 64 (fun p s l => e.bytes (c.stamp e.half 0) p s l) false
  split
  · next he =>
    rw [he] at hw
    split
    · exact (h.setRingSt _ _ _).trans hw
    · exact hw
  · next he =>
    rw [he] at hw
    exact hw

theorem recordRefused (c : Chip) (d : Bool) (r a k : Nat) : f (c.recordRefused d r a k) = f c := by
  unfold Chip.recordRefused
  exact ite_keeps ((h.raiseFw _ _).trans (h.raiseFw c _)) (h.raiseFw c _)

theorem raise (c : Chip) (e : Event) : f (c.raise e) = f c := by
  have hfw : f ((c.logEvent e).raiseFw e) = f c := (h.raiseFw _ e).trans (h.logEvent c e)
  unfold Chip.raise
  dsimp only
  generalize (c.logEvent e).raiseFw e = d at hfw
  split
  · exact hfw
  next r _ =>
  split
  · exact hfw
  have hw := (h.writeRecord d r 64 (fun p s l => e.bytes (d.stamp e.half 0) p s l) false).trans hfw
  split
  · next he =>
    rw [he] at hw
    split
    · exact ite_keeps hw ((h.raiseFw _ _).trans ((h.setRingSt _ _ _).trans hw))
    · exact hw
  · next he =>
    rw [he] at hw
    exact (h.recordRefused _ _ _ _ _).trans hw
  · next he =>
    rw [he] at hw
    exact hw

end RecordPart

theorem Chip.entry_store (c : Chip) (a : Nat) (bs : List Byte) : (c.store a bs).entry = c.entry := by
  have hraw : (c.storeRaw a bs).own = c.own := Chip.storeRaw_keeps Chip.own (fun _ _ => rfl) c a bs
  have hdirty (y : Chip) : (y.dirty a bs.length).entry = y.entry := by
    unfold Chip.dirty
    exact ite_keeps rfl ((foldl_keeps Chip.entry _ (fun x _ => Chip.entry_setClean x _ _) _ _).trans (Chip.entry_of_own rfl))
  have hbreak (y : Chip) : (y.breakResv a bs.length).own = y.own := Chip.breakResv_keeps Chip.own (fun _ _ => rfl) y a bs.length
  unfold Chip.store
  exact (Chip.entry_of_own (hbreak _)).trans ((hdirty _).trans (Chip.entry_of_own hraw))

/-- Events leave every entry its owner and its type. -/
theorem recordPart_entry : RecordPart Chip.entry := ⟨Chip.entry_store, fun _ _ _ _ _ _ _ => rfl⟩

/-! ### The entries that a change gives -/

/-- The value of an entry after a change (R453). -/
def OwnChange.next (g : OwnChange) (e : Nat) : Nat :=
  match g.op with
  | 1 => mkOwn (ownOwner e) g.typ (g.flags / 2 * 2 + (if g.typ = 7 then ownFlags e % 2 else 0))
  | 2 => mkOwn g.owner g.typ (g.flags / 2 * 2 + (if g.typ = 7 then ownFlags e % 2 else 0))
  | _ => mkOwn (ownOwner e) (ownType e) (g.flags / 2 * 2 + ownFlags e % 2)

theorem Chip.changeEntry_eq (c : Chip) (g : OwnChange) (i : Nat) : c.changeEntry g i = c.setOwn i (g.next (c.ownAt i)) := by
  rcases g with ⟨_ | _ | _ | op, first, count, new, zero, upTo⟩ <;> rfl

theorem OwnChange.owner_lt (g : OwnChange) : g.owner < 8192 := Nat.mod_lt _ (by decide)

theorem OwnChange.typ_lt (g : OwnChange) : g.typ < 8 := Nat.mod_lt _ (by decide)

theorem OwnChange.flags_lt (g : OwnChange) : g.flags < 256 := Nat.mod_lt _ (by decide)

theorem OwnChange.next_retype {g : OwnChange} (h : g.op = 1) (e : Nat) : ownOwner (g.next e % 2 ^ 32) = ownOwner e ∧ ownType (g.next e % 2 ^ 32) = g.typ := by
  unfold OwnChange.next
  rw [h]
  exact ⟨(ownOwner_mkOwn _ _ _).trans (Nat.mod_eq_of_lt (ownOwner_lt _)), (ownType_mkOwn_mod _ _ _).trans (Nat.mod_eq_of_lt g.typ_lt)⟩

theorem OwnChange.next_reassign {g : OwnChange} (h : g.op = 2) (e : Nat) : ownOwner (g.next e % 2 ^ 32) = g.owner ∧ ownType (g.next e % 2 ^ 32) = g.typ := by
  unfold OwnChange.next
  rw [h]
  exact ⟨(ownOwner_mkOwn _ _ _).trans (Nat.mod_eq_of_lt g.owner_lt), (ownType_mkOwn_mod _ _ _).trans (Nat.mod_eq_of_lt g.typ_lt)⟩

theorem OwnChange.next_flags {g : OwnChange} (h : g.op = 3) (e : Nat) : ownOwner (g.next e % 2 ^ 32) = ownOwner e ∧
    ownType (g.next e % 2 ^ 32) = ownType e ∧ ownFlags (g.next e % 2 ^ 32) / 2 = g.flags / 2 := by
  have hf := g.flags_lt
  unfold OwnChange.next
  rw [h]
  refine ⟨(ownOwner_mkOwn _ _ _).trans (Nat.mod_eq_of_lt (ownOwner_lt _)), (ownType_mkOwn_mod _ _ _).trans (Nat.mod_eq_of_lt (ownType_lt _)), ?_⟩
  exact (congrArg (fun v => v / 2) (ownFlags_mkOwn _ _ _)).trans (by omega)

theorem OwnChange.entries_nodup (g : OwnChange) : g.entries.Nodup := List.Nodup.map (fun _ _ h => Nat.add_left_cancel h) List.nodup_range

/-- Each entry of the list is changed once, and no other. -/
theorem Chip.ownAt_changed (g : OwnChange) (e : Nat) {l : List Nat} (hl : l.Nodup) (c : Chip) :
    (l.foldl (fun c i => c.changeEntry g i) c).ownAt e = if e ∈ l then g.next (c.ownAt e) % 2 ^ 32 else c.ownAt e := by
  induction l generalizing c with
  | nil => rfl
  | cons n l ih =>
    obtain ⟨hn, hl⟩ := List.nodup_cons.1 hl
    rw [List.foldl_cons, ih hl, Chip.changeEntry_eq]
    by_cases h : e = n
    · rw [h, if_neg hn, if_pos List.mem_cons_self, Chip.ownAt_setOwn_same]
    · rw [Chip.ownAt_setOwn_ne _ _ h]
      simp only [List.mem_cons, h, false_or]

/-! ### A change is asked for -/

section
variable {s : State} {g : OwnChange} {h : Half} {op : Nat} {zero : Bool}

/-- The change that the OWN block asks for. -/
def Chip.asked (c : Chip) (op : Nat) : OwnChange := ⟨op, c.q F.OWN_CHG_FIRST_INDEX, c.q F.OWN_CHG_COUNT_INDEX, c.q F.OWN_CHG_NEW_VALUE, false, c.txnNext⟩

/-- It zeroes: a REASSIGN of DRAM that asks for it or changes the world (R453). -/
def Chip.asksZero (c : Chip) (op : Nat) (zero : Bool) : Bool :=
  decide (op = 2) && decide (ownRow (c.asked op).first = 0) && (zero || (c.asked op).entries.any fun e => ownOwner (c.ownAt e) / 4096 != (c.asked op).owner / 4096)

theorem Chip.ownChange_refused {c : Chip} {k : Nat} (hk : c.changeCheck (c.asked op) zero = some k) :
    c.ownChange h op zero = ((c.put F.OWN_CHG_STATUS_RESULT k).inc F.OWN_REFUSED_COUNT).ev h 0x0D01 [op, (c.asked op).first, k] := by
  unfold Chip.ownChange
  unfold Chip.asked at hk
  simp only [hk]
  rfl

/-- The chip with a change noted. -/
def Chip.noteChange (c : Chip) (g : OwnChange) : Chip := { c with ownChg := some g }

/-- The chip with a change under way. -/
def Chip.changing (c : Chip) (g : OwnChange) : Chip := (c.put F.OWN_CHG_STATUS_BUSY 1).noteChange g

theorem Chip.noteChange_keeps {γ : Type} (f : Chip → γ) (hf : ∀ c y, f { c with ownChg := y } = f c) (c : Chip) (g : OwnChange) : f (c.noteChange g) = f c := hf c _
theorem Chip.ownChg_noteChange (c : Chip) (g : OwnChange) : (c.noteChange g).ownChg = some g := rfl

theorem Chip.own_changing (c : Chip) (g : OwnChange) : (c.changing g).own = c.own :=
  (Chip.noteChange_keeps Chip.own (fun _ _ => rfl) _ g).trans (Chip.put_keeps Chip.own (fun _ _ => rfl) _ _ _)

theorem Chip.regs_changing (c : Chip) (g : OwnChange) : (c.changing g).regs = (c.put F.OWN_CHG_STATUS_BUSY 1).regs :=
  Chip.noteChange_keeps Chip.regs (fun _ _ => rfl) _ g

theorem Chip.ownChg_changing (c : Chip) (g : OwnChange) : (c.changing g).ownChg = some g := Chip.ownChg_noteChange _ g

theorem Chip.ownAt_of_own {c d : Chip} (h : d.own = c.own) (e : Nat) : d.ownAt e = c.ownAt e := by
  unfold Chip.ownAt
  rw [h]

theorem Chip.ownChange_begins {c : Chip} (hk : c.changeCheck (c.asked op) zero = none) :
    c.ownChange h op zero = if c.asksZero op zero then c.changing { c.asked op with zero := true }
      else (c.asked op).entries.foldl (fun d i => d.changeEntry { c.asked op with zero := false } i) (c.changing { c.asked op with zero := false }) := by
  unfold Chip.ownChange
  unfold Chip.asked at hk
  simp only [hk]
  have hsame : (if c.asksZero op zero then c.changing { c.asked op with zero := c.asksZero op zero }
      else (c.asked op).entries.foldl (fun d i => d.changeEntry { c.asked op with zero := c.asksZero op zero } i)
        (c.changing { c.asked op with zero := c.asksZero op zero })) = _ := rfl
  refine hsame.symm.trans ?_
  cases c.asksZero op zero <;> rfl

theorem Chip.ownCmd_granted {c : Chip} {i : Initiator} (hi : c.portCause i true Reg.OWN_CHG_CMD = 0) : c.ownCmd i op zero = c.ownChange i.half op zero := by
  unfold Chip.ownCmd
  simp only [hi]

/-- What a change that takes effect at once leaves in the table. -/
theorem Chip.ownAt_asked (c : Chip) (g : OwnChange) (e : Nat) :
    (g.entries.foldl (fun d i => d.changeEntry g i) (c.changing g)).ownAt e = if e ∈ g.entries then g.next (c.ownAt e) % 2 ^ 32 else c.ownAt e := by
  rw [Chip.ownAt_changed g e g.entries_nodup, Chip.ownAt_of_own (c.own_changing g)]

theorem Chip.changeEntries_keeps {γ : Type} (f : Chip → γ) (hf : ∀ c o, f { c with own := o } = f c) (g : OwnChange) (l : List Nat) (c : Chip) :
    f (l.foldl (fun d i => d.changeEntry g i) c) = f c :=
  foldl_keeps f _ (fun x y => by
    rw [Chip.changeEntry_eq]
    exact hf x _) _ _

/-- A change that takes effect at once. -/
theorem Chip.ownChange_atOnce {c : Chip} (hk : c.changeCheck (c.asked op) zero = none) (hz : c.asksZero op zero = false) :
    (c.ownChange h op zero).ownChg = some (c.asked op) ∧ ∀ e, (e ∈ (c.asked op).entries → (c.ownChange h op zero).ownAt e = (c.asked op).next (c.ownAt e) % 2 ^ 32) ∧
      (e ∉ (c.asked op).entries → (c.ownChange h op zero).ownAt e = c.ownAt e) := by
  have hchip := Chip.ownChange_begins (h := h) hk
  rw [hz] at hchip
  have hat := c.ownAt_asked { c.asked op with zero := false }
  rw [hchip]
  refine ⟨(Chip.changeEntries_keeps Chip.ownChg (fun _ _ => rfl) _ _ _).trans (Chip.ownChg_changing _ _), fun e => ⟨fun he => (hat e).trans (if_pos he), fun he => (hat e).trans (if_neg he)⟩⟩

theorem Chip.ownChange_zeroing {c : Chip} (hk : c.changeCheck (c.asked op) zero = none) (hz : c.asksZero op zero = true) :
    (c.ownChange h op zero).own = c.own ∧ (c.ownChange h op zero).ownChg = some { c.asked op with zero := true } := by
  have hchip := Chip.ownChange_begins (h := h) hk
  rw [hz] at hchip
  rw [hchip]
  exact ⟨Chip.own_changing _ _, Chip.ownChg_changing _ _⟩

theorem Chip.ownChange_busy {c : Chip} (hk : c.changeCheck (c.asked op) zero = none) : (c.ownChange h op zero).on F.OWN_CHG_STATUS_BUSY = true := by
  have hput : (c.put F.OWN_CHG_STATUS_BUSY 1).q F.OWN_CHG_STATUS_BUSY = 1 := Chip.q_put_same _ _ _ (by decide)
  have hon (y : Chip) (hy : y.regs = (c.put F.OWN_CHG_STATUS_BUSY 1).regs) : y.on F.OWN_CHG_STATUS_BUSY = true :=
    congrArg (· != 0) ((Chip.q_of_regs hy _).trans hput)
  rw [Chip.ownChange_begins hk]
  refine hon _ ?_
  split
  · exact Chip.regs_changing _ _
  · exact (Chip.changeEntries_keeps Chip.regs (fun _ _ => rfl) _ _ _).trans (Chip.regs_changing _ _)

end

/-! ### A change completes -/

section
variable {c : Chip} {g : OwnChange}

/-- An address of a granule's byte. -/
theorem granule_holds {e k : Nat} (he : e < 1048576) (hk : k < 65536) : holdsByte (granuleAddr e + k) = true := by
  unfold holdsByte inWindow granuleAddr
  simp only [Bool.and_eq_true, Bool.not_eq_true', Bool.or_eq_false_iff, decide_eq_false_iff_not, decide_eq_true_eq]
  omega

/-- The zeroing of a granule leaves what reads zero. -/
theorem Chip.byte_zeroGranule (c : Chip) {e n k : Nat} (he : e < 1048576) (hk : k < 65536) (h : e = n ∨ c.byte (granuleAddr e + k) = 0) :
    (c.zeroGranule n).byte (granuleAddr e + k) = 0 := by
  have hhold := granule_holds he hk
  have hzero (y : Chip) (x : Nat) (i : Nat) (v : Bool) : (y.setClean i v).byte x = y.byte x :=
    Chip.byte_of_mem (y.setClean_mem i v) (y.setClean_garbled i v) (Chip.setClean_keeps Chip.freeCnt (fun _ _ => rfl) y i v) x
  refine (hzero _ _ _ _).trans ?_
  by_cases hn : e = n
  · subst hn
    refine c.byte_zeroRange_granules ?_ (by decide) (Nat.le_add_right _ _) (by omega) hhold
    unfold granuleAddr
    omega
  · refine Eq.trans ?_ (h.resolve_left hn)
    have hmem : Tbl.find? (c.zeroRange (granuleAddr n) 65536).mem (granuleAddr e + k) = Tbl.find? c.mem (granuleAddr e + k) :=
      Tbl.find?_filter c.mem (fun a => decide ¬(granuleAddr n ≤ a ∧ a < granuleAddr n + 65536)) _ (decide_eq_true (by unfold granuleAddr; omega))
    have hgarbled : Tbl.find? (c.zeroRange (granuleAddr n) 65536).garbled ((granuleAddr e + k) / 65536) = Tbl.find? c.garbled ((granuleAddr e + k) / 65536) :=
      Tbl.find?_filter c.garbled (fun a => decide ¬(granuleAddr n ≤ a * 65536 ∧ a * 65536 + 65536 ≤ granuleAddr n + 65536)) _
        (decide_eq_true (by unfold granuleAddr; omega))
    unfold Chip.byte Tbl.look memReset
    rw [hmem, hgarbled]
    rfl

/-- The granules of a change, zeroed with the new entries in place. -/
def Chip.zeroed (c : Chip) (g : OwnChange) (l : List Nat) : Chip := l.foldl (fun c i => (c.zeroGranule i).changeEntry g i) c

theorem Chip.zeroed_bytes {l : List Nat} (c : Chip) {e k : Nat} (he : e < 1048576) (hk : k < 65536) (h : e ∈ l ∨ c.byte (granuleAddr e + k) = 0) :
    (c.zeroed g l).byte (granuleAddr e + k) = 0 := by
  induction l generalizing c with
  | nil => exact h.resolve_left List.not_mem_nil
  | cons n l ih =>
    refine ih ((c.zeroGranule n).changeEntry g n) ?_
    rw [Chip.changeEntry_eq]
    by_cases hn : e ∈ l
    · exact .inl hn
    · refine .inr (Eq.trans (Chip.byte_of_mem (Chip.setOwn_mem _ _ _) (Chip.setOwn_garbled _ _ _) (Chip.setOwn_freeCnt _ _ _) _) (c.byte_zeroGranule he hk ?_))
      exact h.imp (fun hm => (List.mem_cons.1 hm).resolve_right hn) id

theorem Chip.zeroed_entry (hop : g.op = 2) {l : List Nat} (c : Chip) (e : Nat) :
    (e ∈ l ∨ c.entry e = (g.owner, g.typ) → (c.zeroed g l).entry e = (g.owner, g.typ)) ∧ (e ∉ l → (c.zeroed g l).entry e = c.entry e) := by
  induction l generalizing c with
  | nil => exact ⟨fun h => h.resolve_left List.not_mem_nil, fun _ => rfl⟩
  | cons n l ih =>
    obtain ⟨hin, hout⟩ := ih ((c.zeroGranule n).changeEntry g n)
    have hzero : (c.zeroGranule n).entry = c.entry := (Chip.entry_setClean _ _ _).trans (Chip.entry_of_own rfl)
    have hne (h : e ≠ n) : ((c.zeroGranule n).changeEntry g n).entry e = c.entry e := by
      rw [Chip.changeEntry_eq, Chip.entry_setOwn_ne _ _ h, hzero]
    refine ⟨fun h => hin ?_, fun h => (hout fun hm => h (List.mem_cons_of_mem _ hm)).trans (hne fun hn => h (hn ▸ List.mem_cons_self))⟩
    by_cases hn : e = n
    · subst hn
      refine .inr ?_
      obtain ⟨ho, ht⟩ := OwnChange.next_reassign hop ((c.zeroGranule e).ownAt e)
      rw [Chip.changeEntry_eq]
      unfold Chip.entry
      rw [Chip.ownAt_setOwn_same, ho, ht]
    · exact h.imp (fun hm => (List.mem_cons.1 hm).resolve_left hn) fun hc => (hne hn).trans hc

theorem Chip.zeroed_regs {l : List Nat} (c : Chip) : (c.zeroed g l).regs = c.regs :=
  foldl_keeps Chip.regs _ (fun x n => by
    rw [Chip.changeEntry_eq]
    exact (Chip.setOwn_regs _ _ _).trans (Chip.setClean_keeps Chip.regs (fun _ _ => rfl) _ _ _)) _ _

theorem Chip.carriageDid_keeps {γ : Type} (f : Chip → γ) (hf : ∀ c r, f { c with regs := r } = f c) (c : Chip) (k : Half) (n : Nat) : f (c.carriageDid k n) = f c := by
  have hpair (y : Chip) (lo hi v : Nat) : f (y.setPair lo hi v) = f y := (hf _ _).trans (hf y _)
  unfold Chip.carriageDid
  split
  · refine (hpair _ _ _ _).trans ?_
    unfold Chip.carriageWrote
    split
    · exact hpair _ _ _ _
    · rfl
  · rfl

/-- The counters of the Carriages lie from 0x500000 on. -/
theorem Chip.carriageDid_same {g : RF} (hg : g.addr < 0x500000) (c : Chip) (k : Half) (n : Nat) : SameField g c (c.carriageDid k n) := by
  unfold Chip.carriageDid
  split
  · refine SameField.countPair ?_ (by unfold Reg.CARRIAGE_MOVE_CNT_LO; omega) (by unfold Reg.CARRIAGE_MOVE_CNT_HI; omega) _
    unfold Chip.carriageWrote
    split
    · exact (SameField.refl c).countPair (by unfold Reg.CARRIAGE_BYTES_LO; omega) (by unfold Reg.CARRIAGE_BYTES_HI; omega) _
    · exact .refl c
  · exact .refl c

theorem Chip.zeroChange_keeps {γ : Type} (f : Chip → γ) (hf : ∀ c r, f { c with regs := r } = f c) (c : Chip) (g : OwnChange) :
    f (c.zeroChange g) = f (c.zeroed g g.entries) :=
  foldl_keeps f _ (fun x k => ite_keeps rfl (x.carriageDid_keeps f hf k _)) _ _

/-- The chip with no change noted. -/
def Chip.forgetChange (c : Chip) : Chip := { c with ownChg := none }

/-- The chip with its change recorded as complete. -/
def Chip.changeDone (c : Chip) : Chip := (((c.put F.OWN_CHG_STATUS_BUSY 0).put F.OWN_CHG_STATUS_RESULT 0).inc F.OWN_CHG_CNT_COUNT).forgetChange

theorem Chip.forgetChange_keeps {γ : Type} (f : Chip → γ) (hf : ∀ c y, f { c with ownChg := y } = f c) (c : Chip) : f c.forgetChange = f c := hf c _

theorem Chip.ownChg_forgetChange (c : Chip) : c.forgetChange.ownChg = none := rfl

theorem Chip.ownChg_changeDone (c : Chip) : c.changeDone.ownChg = none := Chip.ownChg_forgetChange _

theorem Chip.changeDone_keeps {γ : Type} (f : Chip → γ) (hr : ∀ c r, f { c with regs := r } = f c) (hg : ∀ c y, f { c with ownChg := y } = f c) (c : Chip) :
    f c.changeDone = f c :=
  (Chip.forgetChange_keeps f hg _).trans ((Chip.put_keeps f hr _ _ _).trans ((Chip.put_keeps f hr _ _ _).trans (Chip.put_keeps f hr _ _ _)))

theorem Chip.regs_forgetChange (c : Chip) : c.forgetChange.regs = c.regs := rfl

theorem Chip.status_changeDone (c : Chip) : c.changeDone.q F.OWN_CHG_STATUS_BUSY = 0 ∧ c.changeDone.q F.OWN_CHG_STATUS_RESULT = 0 := by
  have hforget (f : RF) : c.changeDone.q f = (((c.put F.OWN_CHG_STATUS_BUSY 0).put F.OWN_CHG_STATUS_RESULT 0).inc F.OWN_CHG_CNT_COUNT).q f :=
    Chip.q_of_regs (Chip.regs_forgetChange _) f
  have hcnt {f : RF} (hf : f.addr = Reg.OWN_CHG_STATUS) (y : Chip) : (y.inc F.OWN_CHG_CNT_COUNT).q f = y.q f :=
    Chip.q_put_apart _ _ ⟨by decide, .inl (hf ▸ by decide)⟩
  refine ⟨?_, ?_⟩
  · rw [hforget, hcnt rfl, Chip.q_put_apart _ _ (by decide)]
    exact Chip.q_put_same _ _ _ (by decide)
  · rw [hforget, hcnt rfl]
    exact Chip.q_put_same _ _ _ (by decide)

theorem exec_ownershipChangeComplete_ended {s : State} (hchg : s.chip.ownChg = some g) (hold : s.chip.oldAccess g = false) (hzero : s.chip.changeZeroers g = true) :
    ∃ d : Chip, d = (if g.zero then s.chip.zeroChange g else s.chip) ∧ exec .ownershipChangeComplete s = .next (s.withChip
      (if d.changeDone.on F.OWN_CTL_EVT_CHG_EN then d.changeDone.ev d.changeDone.firstUp 0x0D00 [g.op, g.first, g.count] else d.changeDone)) := by
  have hexec : exec .ownershipChangeComplete s = execOwnershipChangeComplete s := rfl
  unfold execOwnershipChangeComplete at hexec
  simp only [hchg] at hexec
  rw [if_neg (by rw [hold, hzero]; decide)] at hexec
  exact ⟨_, rfl, hexec.trans (s.go_eq _)⟩

/-- What the event of a completion leaves. -/
theorem Chip.told_keeps {γ : Type} (f : Chip → γ) {b : Bool} {k : Half} {code : Nat} {l : List Nat} (h : ∀ e, f (c.raise e) = f c) :
    f (if b then c.ev k code l else c) = f c := ite_keeps (h _) rfl

theorem Chip.entry_changeDone (c : Chip) : c.changeDone.entry = c.entry := Chip.entry_of_own (c.changeDone_keeps Chip.own (fun _ _ => rfl) fun _ _ => rfl)

/-- Clause 2: the completion of a change. -/
theorem Chip.change_completes {b : Bool} {k : Half} {code : Nat} {l : List Nat} (d : Chip) (hb : b = d.changeDone.on F.OWN_CTL_EVT_CHG_EN) :
    let t := if b then d.changeDone.ev k code l else d.changeDone
    t.ownChg = none ∧ t.on F.OWN_CHG_STATUS_BUSY = false ∧ t.q F.OWN_CHG_STATUS_RESULT = 0 ∧ t.entry = d.entry ∧
      (d.on F.OWN_CTL_EVT_CHG_EN = false → ∀ x, t.byte x = d.byte x) := by
  intro t
  obtain ⟨hbusy, hres⟩ := d.status_changeDone
  have hq {f : RF} (hf : ¬ eventReg f.addr) : t.q f = d.changeDone.q f := Chip.told_keeps (fun y => y.q f) fun e => Chip.q_raise _ e hf
  have hstatus : ¬ eventReg Reg.OWN_CHG_STATUS := by
    unfold eventReg Reg.OWN_CHG_STATUS Reg.WEAR_LOG_CNT
    omega
  refine ⟨?_, congrArg (· != 0) ((hq hstatus).trans hbusy), (hq hstatus).trans hres, ?_, fun hoff x => ?_⟩
  · exact (Chip.told_keeps Chip.ownChg fun e => EventPart.raise (fun _ _ _ _ _ _ _ _ _ _ _ _ => rfl) _ e).trans d.ownChg_changeDone
  · exact (Chip.told_keeps Chip.entry fun e => recordPart_entry.raise _ e).trans d.entry_changeDone
  · have hctl : d.changeDone.q F.OWN_CTL_EVT_CHG_EN = d.q F.OWN_CTL_EVT_CHG_EN := by
      have hforget : d.changeDone.q F.OWN_CTL_EVT_CHG_EN = (((d.put F.OWN_CHG_STATUS_BUSY 0).put F.OWN_CHG_STATUS_RESULT 0).inc F.OWN_CHG_CNT_COUNT).q F.OWN_CTL_EVT_CHG_EN :=
        Chip.q_of_regs (Chip.regs_forgetChange _) _
      rw [hforget]
      unfold Chip.inc Chip.count
      rw [Chip.q_put_apart _ _ (by decide), Chip.q_put_apart _ _ (by decide), Chip.q_put_apart _ _ (by decide)]
    have hb' : b = false := hb.trans ((congrArg (· != 0) hctl).trans hoff)
    have ht : t = d.changeDone := by
      show (if b then _ else _) = _
      rw [hb']
      rfl
    rw [ht]
    exact Chip.byte_of_mem (d.changeDone_keeps Chip.mem (fun _ _ => rfl) fun _ _ => rfl) (d.changeDone_keeps Chip.garbled (fun _ _ => rfl) fun _ _ => rfl)
      (d.changeDone_keeps Chip.freeCnt (fun _ _ => rfl) fun _ _ => rfl) x

end

/-! ### Application cores -/

section
variable {c : Chip} {k : Nat}

theorem AppCore.scrub_x (x : AppCore) (n : Nat) : Tbl.look 0 x.scrub.x n = if 10 ≤ n ∧ n ≤ 17 then Tbl.look 0 x.x n else 0 := by
  have hkept (h : 10 ≤ n ∧ n ≤ 17) : Tbl.find? x.scrub.x n = Tbl.find? x.x n := Tbl.find?_filter x.x (fun a => decide (10 ≤ a ∧ a ≤ 17)) n (decide_eq_true h)
  have hgone (h : ¬ (10 ≤ n ∧ n ≤ 17)) : Tbl.find? x.scrub.x n = none := Tbl.find?_filter_none x.x (fun a => decide (10 ≤ a ∧ a ≤ 17)) n (decide_eq_false h)
  unfold Tbl.look
  split
  · next h => rw [hkept h]
  · next h => rw [hgone h]; rfl

theorem exec_scrub_armed {k : Fin 16} {s : State} (harm : (s.chip.app k).armed = true) (hrun : s.chip.appRuns k = true) :
    exec (.scrub k) s = .next (s.withChip (s.chip.setApp k (s.chip.app k).scrub)) := by
  have hexec : exec (.scrub k) s = execScrub k s := rfl
  unfold execScrub at hexec
  exact hexec.trans ((if_pos ⟨harm, hrun⟩).trans (s.go_eq _))

theorem exec_worldSwitch_runs {k : Fin 16} {o : Owner} {s : State} (hrun : s.chip.appRuns k = true) (hw : (s.chip.app k).owner.world ≠ o.world) :
    exec (.worldSwitch k o) s = .next (s.withChip (s.chip.setApp k ((s.chip.app k).writeOwner o))) := by
  have hexec : exec (.worldSwitch k o) s = execWorldSwitch k o s := rfl
  unfold execWorldSwitch at hexec
  exact hexec.trans ((if_neg fun h => h.elim hw fun h => h hrun).trans (s.go_eq _))

theorem exec_partitionSwitch_runs {k : Fin 16} {o : Owner} {s : State} (hrun : s.chip.appRuns k = true) (hw : (s.chip.app k).owner.world = o.world) :
    exec (.partitionSwitch k o) s = .next (s.withChip (s.chip.setApp k ((s.chip.app k).writeOwner o))) := by
  have hexec : exec (.partitionSwitch k o) s = execPartitionSwitch k o s := rfl
  unfold execPartitionSwitch at hexec
  exact hexec.trans ((if_neg fun h => h.elim (fun h => h hw) fun h => h hrun).trans (s.go_eq _))

/-- A write to `cgbowner` leaves everything but the core. -/
theorem Chip.ownerWritten (c : Chip) (k : Nat) (o : Owner) :
    let t := c.setApp k ((c.app k).writeOwner o)
    (t.app k).owner = o ∧ (t.app k).x = (c.app k).x ∧ (∀ j, j ≠ k → t.app j = c.app j) ∧ t.regs = c.regs ∧ t.mem = c.mem := by
  intro t
  have happ : t.app k = (c.app k).writeOwner o := c.app_setApp k _
  refine ⟨?_, ?_, fun j hj => c.app_setApp_ne _ hj, rfl, rfl⟩ <;> rw [happ] <;> rfl

section
variable {k : Fin 16} {mmode : Bool} {op : AppAccess} {addr : BitVec 48} {width : Fin 9} {reg : Fin 32} {data : Dword} {o : Seen} {s : State}

/-- The bus side of an access of a core. -/
def Chip.coreBus (c : Chip) (k : Fin 16) (mmode : Bool) : Initiator := ⟨if mmode then 0 else (c.app k).owner, k, appHalf k, .core⟩

theorem exec_applicationCoreAccess_refused {y : Nat} (hrun : s.chip.appRuns k = true) (hwidth : width ≠ 0)
    (hy : ((granuleStarts addr.toNat width).find? fun y => s.chip.appCause (s.chip.coreBus k mmode) mmode op y != 0) = some y) :
    ∃ d : Chip, exec (.applicationCoreAccess k mmode op addr width reg data o) s = .next (s.withChip (d.setApp k { s.chip.app k with fault := some (accessFault op) })) := by
  have hexec : exec (.applicationCoreAccess k mmode op addr width reg data o) s = execApplicationCoreAccess k mmode op addr width reg data s o := rfl
  unfold execApplicationCoreAccess at hexec
  unfold Chip.coreBus at hy
  rw [if_neg fun h => h.elim (fun h => h hrun) fun h => hwidth (Fin.ext h)] at hexec
  simp only [hy] at hexec
  exact ⟨_, hexec.trans (s.go_eq _)⟩

theorem exec_applicationCoreAccess_granted {d : List Byte} {t : Chip} (hrun : s.chip.appRuns k = true) (hwidth : width ≠ 0)
    (hnone : ((granuleStarts addr.toNat width).find? fun y => s.chip.appCause (s.chip.coreBus k mmode) mmode op y != 0) = none) (hdram : inDram addr.toNat = true)
    (hout : s.chip.outAccess (s.chip.coreBus k mmode) false (op == .store) addr.toNat width
      (toLE width (if op = .store then (Tbl.look 0 (s.chip.app k).x reg.val).toNat else data.toNat)) o = (.ok d, t)) :
    exec (.applicationCoreAccess k mmode op addr width reg data o) s = .next (s.withChip (t.setApp k ((s.chip.app k).loaded op reg d))) := by
  have hexec : exec (.applicationCoreAccess k mmode op addr width reg data o) s = execApplicationCoreAccess k mmode op addr width reg data s o := rfl
  have hrange : 0x1000000000 ≤ addr.toNat ∧ addr.toNat < 0x2000000000 := of_decide_eq_true hdram
  have hpeer : isPeer addr.toNat = false := decide_eq_false (by omega)
  have hpcie : isPcie addr.toNat = false := decide_eq_false (by omega)
  have hstore : (if (op == .store) = true then (Tbl.look 0 (s.chip.app k).x reg.val).toNat else data.toNat) =
      if op = .store then (Tbl.look 0 (s.chip.app k).x reg.val).toNat else data.toNat := by
    cases op <;> rfl
  unfold execApplicationCoreAccess at hexec
  unfold Chip.coreBus at hnone hout
  rw [← hstore] at hout
  rw [if_neg fun h => h.elim (fun h => h hrun) fun h => hwidth (Fin.ext h)] at hexec
  simp only [hnone, hpeer, hpcie, Bool.false_eq_true, if_false, hout] at hexec
  exact hexec.trans (s.go_eq _)

end

end

/-! ### The statement -/

/-- A change whose kind zeroes nothing. -/
theorem Chip.asksZero_of_op {c : Chip} {op : Nat} {zero : Bool} (h : op ≠ 2) : c.asksZero op zero = false := by
  unfold Chip.asksZero
  rw [decide_eq_false h]
  rfl

/-- Clause 1: changes asked for through the OWN block. -/
theorem ownershipAsked (i : Initiator) (zero : Bool) (s : State) (hi : s.chip.portCause i true Reg.OWN_CHG_CMD = 0) :
    let c := s.chip
    let g (op : Nat) : OwnChange := ⟨op, c.q F.OWN_CHG_FIRST_INDEX, c.q F.OWN_CHG_COUNT_INDEX, c.q F.OWN_CHG_NEW_VALUE, false, c.txnNext⟩
    let refused (op k : Nat) := Host.Outcome.next (s.withChip (((c.put F.OWN_CHG_STATUS_RESULT k).inc F.OWN_REFUSED_COUNT).ev i.half 0x0D01 [op, (g op).first, k]))
    let world := (g 2).entries.any fun e => ownOwner (c.ownAt e) / 4096 != (g 2).owner / 4096
    (∀ k, c.changeCheck (g 1) false = some k → exec (.retype i) s = refused 1 k) ∧
    (∀ k, c.changeCheck (g 2) zero = some k → exec (.reassign i zero) s = refused 2 k) ∧
    (∀ k, c.changeCheck (g 3) false = some k → exec (.flags i) s = refused 3 k) ∧
    (c.changeCheck (g 1) false = none → ∃ t, exec (.retype i) s = .next (s.withChip t) ∧ t.ownChg = some (g 1) ∧
      ∀ e, (e ∈ (g 1).entries → ownOwner (t.ownAt e) = ownOwner (c.ownAt e) ∧ ownType (t.ownAt e) = (g 1).typ) ∧ (e ∉ (g 1).entries → t.ownAt e = c.ownAt e)) ∧
    (c.changeCheck (g 2) zero = none → ∃ t, exec (.reassign i zero) s = .next (s.withChip t) ∧ t.on F.OWN_CHG_STATUS_BUSY = true ∧
      (ownRow (g 2).first = 0 → zero = true ∨ world = true → t.own = c.own ∧ t.ownChg = some { g 2 with zero := true }) ∧
      (zero = false → world = false → ∀ e, (e ∈ (g 2).entries → ownOwner (t.ownAt e) = (g 2).owner ∧ ownType (t.ownAt e) = (g 2).typ) ∧
        (e ∉ (g 2).entries → t.ownAt e = c.ownAt e))) ∧
    (c.changeCheck (g 3) false = none → ∃ t, exec (.flags i) s = .next (s.withChip t) ∧ t.ownChg = some (g 3) ∧
      ∀ e, (e ∈ (g 3).entries → ownOwner (t.ownAt e) = ownOwner (c.ownAt e) ∧ ownType (t.ownAt e) = ownType (c.ownAt e) ∧
        ownFlags (t.ownAt e) / 2 = (g 3).flags / 2) ∧ (e ∉ (g 3).entries → t.ownAt e = c.ownAt e)) := by
  intro c g refused world
  have hretype : exec (.retype i) s = .next (s.withChip (c.ownChange i.half 1 false)) := (congrArg s.go (Chip.ownCmd_granted hi)).trans (s.go_eq _)
  have hreassign : exec (.reassign i zero) s = .next (s.withChip (c.ownChange i.half 2 zero)) := (congrArg s.go (Chip.ownCmd_granted hi)).trans (s.go_eq _)
  have hflags : exec (.flags i) s = .next (s.withChip (c.ownChange i.half 3 false)) := (congrArg s.go (Chip.ownCmd_granted hi)).trans (s.go_eq _)
  have htold {op : Nat} {zero : Bool} {k : Nat} (hk : c.changeCheck (c.asked op) zero = some k) :
      Host.Outcome.next (s.withChip (c.ownChange i.half op zero)) = refused op k := congrArg (fun d => Host.Outcome.next (s.withChip d)) (Chip.ownChange_refused hk)
  refine ⟨fun k hk => hretype.trans (htold hk), fun k hk => hreassign.trans (htold hk), fun k hk => hflags.trans (htold hk), fun hk => ?_, fun hk => ?_, fun hk => ?_⟩
  · obtain ⟨hchg, hat⟩ := Chip.ownChange_atOnce (h := i.half) hk (Chip.asksZero_of_op (by decide))
    refine ⟨_, hretype, hchg, fun e => ⟨fun he => ?_, (hat e).2⟩⟩
    rw [(hat e).1 he]
    exact OwnChange.next_retype rfl _
  · refine ⟨_, hreassign, Chip.ownChange_busy hk, fun hrow hz => ?_, fun hz hw e => ?_⟩
    · refine Chip.ownChange_zeroing hk ?_
      have hor : (zero || world) = true := Bool.or_eq_true_iff.2 hz
      show (decide (2 = 2) && decide (ownRow (g 2).first = 0) && (zero || world)) = true
      rw [hor, decide_eq_true hrow]
      rfl
    · have hask : c.asksZero 2 zero = false := by
        show (_ && (zero || world)) = false
        rw [hz, hw]
        exact Bool.and_false _
      obtain ⟨-, hat⟩ := Chip.ownChange_atOnce (h := i.half) hk hask
      refine ⟨fun he => ?_, (hat e).2⟩
      rw [(hat e).1 he]
      exact OwnChange.next_reassign rfl _
  · obtain ⟨hchg, hat⟩ := Chip.ownChange_atOnce (h := i.half) hk (Chip.asksZero_of_op (by decide))
    refine ⟨_, hflags, hchg, fun e => ⟨fun he => ?_, (hat e).2⟩⟩
    rw [(hat e).1 he]
    exact OwnChange.next_flags rfl _

/-- Clause 2: the completion of a change. -/
theorem ownershipCompleted (g : OwnChange) (s : State) (hchg : s.chip.ownChg = some g) (hold : s.chip.oldAccess g = false) (hzeroers : s.chip.changeZeroers g = true)
    (hzero : g.zero = true → g.op = 2 ∧ ∀ e ∈ g.entries, e < 1048576) :
    let c := s.chip
    ∃ t, exec .ownershipChangeComplete s = .next (s.withChip t) ∧ t.ownChg = none ∧ t.on F.OWN_CHG_STATUS_BUSY = false ∧ t.q F.OWN_CHG_STATUS_RESULT = 0 ∧
      (g.zero = true → ∀ e ∈ g.entries, ownOwner (t.ownAt e) = g.owner ∧ ownType (t.ownAt e) = g.typ ∧
        (c.on F.OWN_CTL_EVT_CHG_EN = false → ∀ k < 65536, t.byte (granuleAddr e + k) = 0)) ∧
      (∀ e, g.zero = false ∨ e ∉ g.entries → ownOwner (t.ownAt e) = ownOwner (c.ownAt e) ∧ ownType (t.ownAt e) = ownType (c.ownAt e)) := by
  intro c
  obtain ⟨d, hd, hexec⟩ := exec_ownershipChangeComplete_ended hchg hold hzeroers
  obtain ⟨hnone, hbusy, hres, hentry, hbytes⟩ := Chip.change_completes (k := d.changeDone.firstUp) (code := 0x0D00) (l := [g.op, g.first, g.count]) d rfl
  refine ⟨_, hexec, hnone, hbusy, hres, fun hz e he => ?_, fun e he => ?_⟩
  · obtain ⟨hop, hdram⟩ := hzero hz
    have hdz : d = c.zeroChange g := hd.trans (if_pos hz)
    have hpair := (congrFun hentry e).trans ((congrFun (hdz ▸ Chip.zeroChange_keeps Chip.entry (fun _ _ => rfl) c g) e).trans ((Chip.zeroed_entry hop c e).1 (.inl he)))
    obtain ⟨ho, ht⟩ := Prod.ext_iff.1 hpair
    refine ⟨ho, ht, fun hoff k hk => ?_⟩
    have hfold : (c.zeroChange g).q F.OWN_CTL_EVT_CHG_EN = (c.zeroed g g.entries).q F.OWN_CTL_EVT_CHG_EN :=
      foldl_keeps (fun y : Chip => y.q F.OWN_CTL_EVT_CHG_EN) _ (fun x k => ite_keeps (f := fun y : Chip => y.q F.OWN_CTL_EVT_CHG_EN) rfl (x.carriageDid_same (by decide) k _).q) _ _
    have hregs : (c.zeroed g g.entries).regs = c.regs := Chip.zeroed_regs c
    have hctl : d.on F.OWN_CTL_EVT_CHG_EN = false := by
      rw [hdz]
      exact (congrArg (· != 0) (hfold.trans (Chip.q_of_regs hregs _))).trans hoff
    rw [hbytes hctl, hdz, Chip.byte_of_mem (Chip.zeroChange_keeps Chip.mem (fun _ _ => rfl) c g) (Chip.zeroChange_keeps Chip.garbled (fun _ _ => rfl) c g)
      (Chip.zeroChange_keeps Chip.freeCnt (fun _ _ => rfl) c g)]
    exact Chip.zeroed_bytes c (hdram e he) hk (.inl he)
  · have hsame : d.entry e = c.entry e := ?_
    · obtain ⟨ho, ht⟩ := Prod.ext_iff.1 ((congrFun hentry e).trans hsame)
      exact ⟨ho, ht⟩
    by_cases hz : g.zero = true
    · rw [hd, if_pos hz]
      exact (congrFun (Chip.zeroChange_keeps Chip.entry (fun _ _ => rfl) c g) e).trans
        ((Chip.zeroed_entry (hzero hz).1 c e).2 (he.resolve_left fun h => by rw [hz] at h; exact Bool.noConfusion h))
    · rw [hd, if_neg hz]

/-- Settles O56: each entry of a change takes its new value once; zeroing and events leave owners and types. -/
theorem ownershipChanges : Obligations.OwnershipChanges := by
  unfold Obligations.OwnershipChanges
  refine ⟨fun i zero s => ownershipAsked i zero s, fun g s => ownershipCompleted g s, fun k o s => ?_, fun k n s => ?_, fun k mmode op addr width reg data o s => ?_⟩
  · intro x hrun to_
    obtain hto := s.chip.ownerWritten k o
    have happ : (s.chip.setApp k (x.writeOwner o)).app k = x.writeOwner o := s.chip.app_setApp k _
    refine ⟨fun hw => ⟨_, exec_worldSwitch_runs hrun hw, hto, ?_⟩, fun hw => ⟨_, exec_partitionSwitch_runs hrun hw, hto, ?_⟩⟩
    · rw [happ]
      have ho : o.world = !x.owner.world := Bool.eq_not.2 hw.symm
      unfold AppCore.writeOwner
      refine ⟨?_, rfl, ?_⟩
      · rw [ho, Bool.not_not, Bool.and_self]
      · rw [bne_iff_ne.2 hw, Bool.true_or]
        exact Bool.and_false _
    · rw [happ]
      unfold AppCore.writeOwner
      refine ⟨?_, fun hp => ?_⟩
      · rw [hw, Bool.and_not_self, Bool.or_false]
      · rw [bne_iff_ne.2 hp, Bool.or_true]
        exact Bool.and_false _
  · intro harm hrun
    have happ : (s.chip.setApp k (s.chip.app k).scrub).app k = (s.chip.app k).scrub := s.chip.app_setApp k _
    refine ⟨_, exec_scrub_armed harm hrun, ?_⟩
    rw [happ]
    exact ⟨rfl, rfl, AppCore.scrub_x _ n, rfl, rfl, rfl, rfl, rfl⟩
  · intro c x i hrun hwidth
    refine ⟨fun y hy => ?_, fun hnone hdram d t hout => exec_applicationCoreAccess_granted hrun hwidth hnone hdram hout⟩
    obtain ⟨d, hexec⟩ := exec_applicationCoreAccess_refused (reg := reg) (data := data) (o := o) hrun hwidth hy
    refine ⟨_, hexec, ?_⟩
    rw [Chip.app_setApp]
    exact ⟨rfl, rfl⟩

end Machine

end Sys2Proof

/-! PROOF. The time bases: steering, lead and follower, PPS, PTP stamps (R434–R450). -/

namespace Sys2Proof

namespace Machine

/-! ### Numbers of the time bases -/

/-- A value with an error of at most 128 units is that far from it. -/
theorem elapsed_captured (s d : Nat) : elapsed ((s + 2 ^ 64 - 128 + d % 257) % 2 ^ 64) s = ((d % 257 : Nat) : Int) - 128 := by
  unfold elapsed sgn
  split <;> omega

theorem abs_error_le (d : Nat) : |((d % 257 : Nat) : Int) - 128| ≤ 128 := by
  rw [abs_le]
  omega

theorem sgn_eq_toInt {w : Nat} (hw : 0 < w) (v : Nat) : sgn w v = (BitVec.ofNat w v).toInt := by
  have hpow : 2 ^ w = 2 * 2 ^ (w - 1) := (Nat.two_pow_pred_mul_two hw).symm.trans (Nat.mul_comm _ _)
  rw [BitVec.toInt_eq_toNat_cond, BitVec.toNat_ofNat]
  unfold sgn
  by_cases h : v % 2 ^ w < 2 ^ (w - 1)
  · rw [if_pos h, if_pos (by omega)]
  · rw [if_neg h, if_neg (by omega)]

theorem sgn_word (v : Word) : sgn 32 v.toNat = v.toInt := by
  rw [sgn_eq_toInt (by decide), BitVec.ofNat_toNat, BitVec.setWidth_eq]

/-! ### Steering -/

section
variable {c : Chip} {i : Initiator} {h : Half} {n : Nat} {f : Chip → Chip} {a : Nat}

theorem Chip.timeWrite_granted (ha : c.portCause i true a = 0) (hn : n ≠ 0) (hdown : c.down.get h = false) : c.timeWrite i a h n f = f c := by
  unfold Chip.timeWrite
  simp only [ha]
  exact if_neg fun h => h.elim hn (Bool.eq_false_iff.1 hdown)

theorem Chip.timeWrite_fixed (ha : c.portCause i true a = 0) (hn : n = 0) : c.timeWrite i a h n f = c := by
  unfold Chip.timeWrite
  simp only [ha]
  exact if_pos (Or.inl hn)

theorem Chip.writeRate_within {v : Word} (hv : v.toInt ∈ Set.Icc (-256000000) 256000000) : c.writeRate h n v.toNat = c.steer h n 0 v.toNat := by
  obtain ⟨hlo, hhi⟩ := hv
  unfold Chip.writeRate
  rw [sgn_word]
  refine (if_neg fun h => ?_).trans (congrArg _ (Nat.mod_eq_of_lt v.isLt))
  omega

theorem Chip.writeRate_above {v : Word} (hv : 256000000 < v.toInt) : c.writeRate h n v.toNat = (c.ev h 0x0C01 [n, v.toNat]).steer h n 0 256000000 := by
  unfold Chip.writeRate
  rw [sgn_word]
  refine (if_pos (Or.inr hv)).trans ?_
  rw [if_neg (by omega)]
  rfl

theorem Chip.writeRate_below {v : Word} (hv : v.toInt < -256000000) : c.writeRate h n v.toNat = (c.ev h 0x0C01 [n, v.toNat]).steer h n 0 (2 ^ 32 - 256000000) := by
  unfold Chip.writeRate
  rw [sgn_word]
  refine (if_pos (Or.inl hv)).trans ?_
  rw [if_pos (by omega)]
  rfl

theorem Chip.timeOf_ev (c : Chip) (h k : Half) (code : Nat) (l : List Nat) : (c.ev k code l).timeOf h = c.timeOf h :=
  EventPart.ev (f := fun y : Chip => y.timeOf h) (fun _ _ _ _ _ _ _ _ _ _ _ _ => rfl) c k code l

theorem Chip.writeStep_accepted {kind v : Nat} (hs : c.stepRefused h n = none) : c.writeStep h n kind v = c.steer h n kind v := by
  unfold Chip.writeStep
  rw [hs]

theorem Chip.writeStep_refused {kind v k : Nat} (hs : c.stepRefused h n = some k) : c.writeStep h n kind v = c.ev h 0x0C02 [n, k] := by
  unfold Chip.writeStep
  rw [hs]

/-- A held low word changes nothing that the rights or the check of a step read. -/
theorem Chip.stepRefused_hold (v : Nat) : (c.hold i a v).stepRefused h n = c.stepRefused h n := rfl

end

/-! ### A write takes effect -/

section
variable {c : Chip} {w : TimeWrite} {h : Half}

theorem Chip.skipInstants_keeps {γ : Type} (f : Chip → γ) (hr : ∀ c y, f { c with gwRoutes := y } = f c) (hi : ∀ c y, f { c with gwInstant := y } = f c) (c : Chip) :
    f c.skipInstants = f c := by
  unfold Chip.skipInstants
  refine (hr _ _).trans (foldl_keeps f _ (fun x n => ?_) _ _)
  split
  · exact hi _ _
  · rfl

/-- What a moved base leaves aside of the base. -/
theorem Chip.moveBase_keeps {γ : Type} (f : Chip → γ) (hr : ∀ c y, f { c with gwRoutes := y } = f c) (hi : ∀ c y, f { c with gwInstant := y } = f c)
    (c : Chip) (n : Nat) (d : Int) (h : Half) :
    f (c.moveBase n d h) = f ((c.setBase h n { c.base h n with val := unsgn 64 ((c.base h n).val + d) }).inc (F.TB_STEP_CNT_COUNT h.idx n)) :=
  ite_keeps (Chip.skipInstants_keeps f hr hi _) rfl

theorem Chip.base_setBase (c : Chip) (h : Half) {n : Nat} (b : TimeBase) (hn : n < (c.tb.get h).length) : (c.setBase h n b).base h n = b := by
  unfold Chip.base Chip.setBase
  rw [Pair.get_set_same, List.getD_eq_getElem?_getD, List.getElem?_set_self hn]
  rfl

theorem Chip.tb_setBase_other (c : Chip) {h k : Half} (n : Nat) (b : TimeBase) (hk : k ≠ h) : (c.setBase h n b).tb.get k = c.tb.get k := by
  cases h <;> cases k
  · exact absurd rfl hk
  · rfl
  · rfl
  · exact absurd rfl hk

theorem Chip.base_of_tb {c d : Chip} {h : Half} (ht : d.tb.get h = c.tb.get h) (n : Nat) : d.base h n = c.base h n := by
  unfold Chip.base
  rw [ht]

/-- The registers of the bases of a half. -/
def basePage (h : Half) (a : Nat) : Prop := 0xe00100 + h.idx * 0x80000 ≤ a ∧ a < 0xe00300 + h.idx * 0x80000

theorem idx_ne {h k : Half} (hk : k ≠ h) : k.idx ≠ h.idx := by
  cases h <;> cases k
  · exact absurd rfl hk
  · decide
  · decide
  · exact absurd rfl hk

theorem basePage_other {h k : Half} (hk : k ≠ h) {a : Nat} (ha : basePage h a) : ¬ basePage k a := by
  have hne := idx_ne hk
  have hh := idx_le h
  have hk' := idx_le k
  unfold basePage at *
  omega

theorem basePage_quiet {h : Half} {a : Nat} (ha : basePage h a) : ¬ eventReg a := by
  have := idx_le h
  unfold basePage at ha
  unfold eventReg Reg.WEAR_LOG_CNT
  omega

/-- Two chips agree on the bases of a half and their registers. -/
structure SameBases (h : Half) (c d : Chip) : Prop where
  tb : d.tb.get h = c.tb.get h
  down : d.down = c.down
  regs : ∀ a, basePage h a → d.reg a = c.reg a

namespace SameBases

variable {d e : Chip}

theorem refl (c : Chip) : SameBases h c c := ⟨rfl, rfl, fun _ _ => rfl⟩
theorem trans (p : SameBases h c d) (q : SameBases h d e) : SameBases h c e :=
  ⟨q.tb.trans p.tb, q.down.trans p.down, fun a ha => (q.regs a ha).trans (p.regs a ha)⟩

theorem setReg (p : SameBases h c d) {a : Nat} (ha : ¬ basePage h a) (v : Nat) : SameBases h c (d.setReg a v) :=
  p.trans ⟨rfl, rfl, fun _ hb => d.reg_setReg_ne v fun e => ha (e ▸ hb)⟩

theorem raise (p : SameBases h c d) (e : Event) : SameBases h c (d.raise e) :=
  p.trans ⟨congrArg (fun y => y.get h) (EventPart.raise (f := Chip.tb) (fun _ _ _ _ _ _ _ _ _ _ _ _ => rfl) d e), eventPart_down.raise d e,
    fun _ ha => d.reg_raise e (basePage_quiet ha)⟩

theorem setBase (p : SameBases h c d) {k : Half} (hk : k ≠ h) (n : Nat) (b : TimeBase) : SameBases h c (d.setBase k n b) :=
  p.trans ⟨d.tb_setBase_other n b hk.symm, rfl, fun _ _ => rfl⟩

theorem skipInstants (p : SameBases h c d) : SameBases h c d.skipInstants :=
  p.trans ⟨congrArg (fun y => y.get h) (Chip.skipInstants_keeps Chip.tb (fun _ _ => rfl) (fun _ _ => rfl) d), Chip.skipInstants_keeps Chip.down (fun _ _ => rfl) (fun _ _ => rfl) d,
    fun _ _ => Chip.reg_of_regs (Chip.skipInstants_keeps Chip.regs (fun _ _ => rfl) (fun _ _ => rfl) d) _⟩

theorem base (p : SameBases h c d) (n : Nat) : d.base h n = c.base h n := Chip.base_of_tb p.tb n

theorem q (p : SameBases h c d) {f : RF} (hf : basePage h f.addr) : d.q f = c.q f := congrArg (fun v => bits v f.lo f.wid) (p.regs _ hf)

end SameBases

/-- The registers of a base lie on its half's page. -/
theorem basePage_reg (h : Half) {n k : Nat} (hn : n < 8) (hk : k < 0x40) : basePage h (0xe00100 + k + h.idx * 0x80000 + n * 0x40) := by
  unfold basePage
  omega

theorem rate_page (h : Half) {n : Nat} (hn : n < 8) : basePage h (Reg.TB_RATE h.idx n) := basePage_reg h (k := 0xc) hn (by decide)
theorem epochLo_page (h : Half) {n : Nat} (hn : n < 8) : basePage h (Reg.TB_EPOCH_LO h.idx n) := basePage_reg h (k := 0x18) hn (by decide)
theorem epochHi_page (h : Half) {n : Nat} (hn : n < 8) : basePage h (Reg.TB_EPOCH_HI h.idx n) := basePage_reg h (k := 0x1c) hn (by decide)
theorem stepCnt_page (h : Half) {n : Nat} (hn : n < 8) : basePage h (Reg.TB_STEP_CNT h.idx n) := basePage_reg h (k := 0x2c) hn (by decide)

theorem SameBases.epoch {d : Chip} (p : SameBases h c d) {n : Nat} (hn : n < 8) : d.epoch h.idx n = c.epoch h.idx n := by
  unfold Chip.epoch
  rw [p.q (f := F.TB_EPOCH_LO_EPOCH h.idx n) (epochLo_page h hn), p.q (f := F.TB_EPOCH_HI_EPOCH h.idx n) (epochHi_page h hn)]

/-- A base moved on another half. -/
theorem SameBases.moveBase {d : Chip} (p : SameBases h c d) {k : Half} (hk : k ≠ h) {n : Nat} (hn : n < 8) (x : Int) : SameBases h c (d.moveBase n x k) := by
  have hmoved := (p.setBase hk n { d.base k n with val := unsgn 64 ((d.base k n).val + x) }).setReg (a := Reg.TB_STEP_CNT k.idx n)
    (fun hb => basePage_other hk hb (stepCnt_page k hn))
  unfold Chip.moveBase
  extract_lets +onlyGivenNames b d'
  have hd' : SameBases h c d' := hmoved _
  split
  · exact hd'.skipInstants
  · exact hd'

/-- A write leaves the other half's bases. -/
theorem SameBases.steerHalf {d : Chip} (p : SameBases h c d) {k : Half} (hk : k ≠ h) {w : TimeWrite} (hw : w.base < 8) : SameBases h c (d.steerHalf w k) := by
  have hout {a : Nat} (ha : basePage k a) : ¬ basePage h a := fun hb => basePage_other hk hb ha
  unfold Chip.steerHalf
  split
  · exact p
  split
  · exact p.setReg (hout (rate_page k hw)) _
  · exact p.moveBase hk hw _
  · exact ((p.moveBase hk hw _).setReg (hout (epochLo_page k hw)) _).setReg (hout (epochHi_page k hw)) _
  · exact p.setReg (hout (epochLo_page k hw)) _
  · exact p.setReg (hout (epochHi_page k hw)) _

/-- On each half a write acts as on that half alone. -/
theorem Chip.steered (c : Chip) {w : TimeWrite} (hw : w.base < 8) (h : Half) :
    ∃ d, SameBases h c d ∧ SameBases h (d.steerHalf w h) ((c.steerHalf w .H).steerHalf w .T) := by
  cases h with
  | H => exact ⟨c, .refl c, (SameBases.refl _).steerHalf (by decide) hw⟩
  | T => exact ⟨c.steerHalf w .H, (SameBases.refl c).steerHalf (by decide) hw, .refl _⟩


theorem Chip.base_moveBase {n : Nat} (hn : n < (c.tb.get h).length) (x : Int) : ((c.moveBase n x h).base h n).val = unsgn 64 ((c.base h n).val + x) := by
  have hset := c.base_setBase h { c.base h n with val := unsgn 64 ((c.base h n).val + x) } hn
  have htb := (Chip.moveBase_keeps (fun y : Chip => y.tb.get h) (fun _ _ => rfl) (fun _ _ => rfl) c n x h).trans
    (Chip.put_keeps (fun y : Chip => y.tb.get h) (fun _ _ => rfl) _ _ _)
  exact congrArg TimeBase.val ((Chip.base_of_tb htb n).trans hset)

theorem Chip.regs_moveBase (n : Nat) (x : Int) : (c.moveBase n x h).regs = (c.inc (F.TB_STEP_CNT_COUNT h.idx n)).regs :=
  Chip.moveBase_keeps Chip.regs (fun _ _ => rfl) (fun _ _ => rfl) c n x h

theorem Chip.stepCnt_moveBase (n : Nat) (x : Int) : (c.moveBase n x h).q (F.TB_STEP_CNT_COUNT h.idx n) =
    min (c.q (F.TB_STEP_CNT_COUNT h.idx n) + 1) (2 ^ (F.TB_STEP_CNT_COUNT h.idx n).wid - 1) :=
  (Chip.q_of_regs (Chip.regs_moveBase n x) _).trans (Chip.q_inc_same _ _ (by exact Nat.le_of_ble_eq_true rfl))

/-- The epoch that the two words of a base hold. -/
theorem Chip.epoch_written (n : Nat) {e : Nat} (he : e < 2 ^ 48) :
    ((c.setReg (Reg.TB_EPOCH_LO h.idx n) (e % 2 ^ 32)).setReg (Reg.TB_EPOCH_HI h.idx n) (e / 2 ^ 32)).epoch h.idx n = e := by
  have hne : Reg.TB_EPOCH_LO h.idx n ≠ Reg.TB_EPOCH_HI h.idx n := by
    unfold Reg.TB_EPOCH_LO Reg.TB_EPOCH_HI
    omega
  unfold Chip.epoch Chip.q F.TB_EPOCH_LO_EPOCH F.TB_EPOCH_HI_EPOCH
  rw [Chip.reg_setReg_same, Chip.reg_setReg_ne _ _ hne, Chip.reg_setReg_same]
  unfold bits
  dsimp only
  omega

theorem sgn_add_mod (v : Nat) (x : Int) : ((unsgn 64 (v + x) : Nat) : Int) = ((v : Int) + x) % 2 ^ 64 := by
  unfold unsgn
  omega

/-- A rebase keeps the PTP time of a base (R440). -/
theorem ptpTime_rebased {e v k : Nat} (hk : k * 64000000000 ≤ v) (hv : v < 2 ^ 64) :
    ptpTime (e + k) (unsgn 64 (v + -((k * 64000000000 : Nat) : Int))) = ptpTime e v := by
  have hval : unsgn 64 (v + -((k * 64000000000 : Nat) : Int)) = v - k * 64000000000 := by
    unfold unsgn
    omega
  have hsec : e + k + (v - k * 64000000000) / 64000000000 = e + v / 64000000000 := by omega
  have hrest : (v - k * 64000000000) % 64000000000 = v % 64000000000 := by omega
  have hsub : (v - k * 64000000000) % 64 = v % 64 := by omega
  unfold ptpTime
  rw [hval, hsec, hrest, hsub]

/-- A base with a new epoch. -/
def Chip.setEpoch (c : Chip) (h : Half) (n e : Nat) : Chip := (c.setReg (Reg.TB_EPOCH_LO h.idx n) (e % 2 ^ 32)).setReg (Reg.TB_EPOCH_HI h.idx n) (e / 2 ^ 32)

theorem Chip.tb_setEpoch (c : Chip) (k : Half) (n e : Nat) : (c.setEpoch k n e).tb = c.tb :=
  (Chip.setReg_keeps Chip.tb (fun _ _ => rfl) _ _ _).trans (Chip.setReg_keeps Chip.tb (fun _ _ => rfl) _ _ _)

/-- The base moved back by whole seconds. -/
def Chip.movedBack (c : Chip) (h : Half) (n v : Nat) : Chip := c.moveBase n (-((v * 64000000000 : Nat) : Int)) h

theorem Chip.steerHalf_up (hdown : c.down.get h = false) : c.steerHalf w h = (match w.kind with
    | 0 => c.setReg (Reg.TB_RATE h.idx w.base) w.val
    | 1 => c.moveBase w.base (sgn 64 w.val) h
    | 2 => (c.movedBack h w.base w.val).setEpoch h w.base ((c.epoch h.idx w.base + w.val) % 2 ^ 48)
    | 3 => c.setReg (Reg.TB_EPOCH_LO h.idx w.base) w.val
    | _ => c.setReg (Reg.TB_EPOCH_HI h.idx w.base) (w.val % 65536)) := by
  unfold Chip.steerHalf Chip.movedBack Chip.setEpoch
  rw [hdown]
  rfl

section
variable (hdown : c.down.get h = false) (hn : w.base < (c.tb.get h).length)
include hdown

theorem Chip.steerHalf_rate (hk : w.kind = 0) (hv : w.val < 2 ^ 32) : (c.steerHalf w h).reg (Reg.TB_RATE h.idx w.base) = w.val ∧
    (c.steerHalf w h).base h w.base = c.base h w.base := by
  rw [Chip.steerHalf_up hdown, hk]
  exact ⟨(Chip.reg_setReg_same _ _ _).trans (Nat.mod_eq_of_lt hv), Chip.base_of_tb (congrArg (fun y => y.get h) (Chip.setReg_keeps Chip.tb (fun _ _ => rfl) _ _ _)) _⟩

include hn

theorem Chip.steerHalf_step (hk : w.kind = 1) : (((c.steerHalf w h).base h w.base).val : Int) = (((c.base h w.base).val : Int) + (BitVec.ofNat 64 w.val).toInt) % 2 ^ 64 ∧
    (c.steerHalf w h).q (F.TB_STEP_CNT_COUNT h.idx w.base) = min (c.q (F.TB_STEP_CNT_COUNT h.idx w.base) + 1) (2 ^ (F.TB_STEP_CNT_COUNT h.idx w.base).wid - 1) := by
  rw [Chip.steerHalf_up hdown, hk]
  refine ⟨?_, Chip.stepCnt_moveBase _ _⟩
  have hval := (congrArg (fun v : Nat => (v : Int)) (Chip.base_moveBase (c := c) hn (sgn 64 w.val))).trans (sgn_add_mod _ _)
  exact hval.trans (by rw [sgn_eq_toInt (by decide)])

theorem Chip.steerHalf_rebase (hk : w.kind = 2) (hle : w.val * 64000000000 ≤ (c.base h w.base).val) (hlt : (c.base h w.base).val < 2 ^ 64)
    (he : c.epoch h.idx w.base + w.val < 2 ^ 48) :
    ptpTime ((c.steerHalf w h).epoch h.idx w.base) ((c.steerHalf w h).base h w.base).val = ptpTime (c.epoch h.idx w.base) (c.base h w.base).val := by
  have hbase : (((c.movedBack h w.base w.val).setEpoch h w.base ((c.epoch h.idx w.base + w.val) % 2 ^ 48)).base h w.base).val =
      unsgn 64 ((c.base h w.base).val + -((w.val * 64000000000 : Nat) : Int)) :=
    (congrArg TimeBase.val (Chip.base_of_tb (congrArg (fun y => y.get h) (Chip.tb_setEpoch _ h _ _)) _)).trans (Chip.base_moveBase hn _)
  have hepoch : ((c.movedBack h w.base w.val).setEpoch h w.base ((c.epoch h.idx w.base + w.val) % 2 ^ 48)).epoch h.idx w.base = (c.epoch h.idx w.base + w.val) % 2 ^ 48 :=
    Chip.epoch_written _ (Nat.mod_lt _ (by decide))
  rw [Chip.steerHalf_up hdown, hk]
  refine (congrArg₂ ptpTime (hepoch.trans (Nat.mod_eq_of_lt he)) hbase).trans ?_
  exact ptpTime_rebased hle hlt

end

/-- The chip after a write has taken effect, with its event. -/
def Chip.steerTold (c : Chip) (w : TimeWrite) : Chip :=
  match w.kind with
  | 1 => c.ev w.half 0x0C00 [w.base, w.val]
  | 2 => c.ev w.half 0x0C03 [w.base, w.val, c.epoch w.half.idx w.base]
  | _ => c

theorem Chip.steerTold_same (c : Chip) (w : TimeWrite) (h : Half) : SameBases h c (c.steerTold w) := by
  unfold Chip.steerTold
  split
  · exact (SameBases.refl c).raise _
  · exact (SameBases.refl c).raise _
  · exact .refl c

/-- The chip with other writes waiting. -/
def Chip.withWrites (c : Chip) (l : List TimeWrite) : Chip := { c with timeWrites := l }

theorem Chip.withWrites_same (c : Chip) (l : List TimeWrite) (h : Half) : SameBases h c (c.withWrites l) := ⟨rfl, rfl, fun _ _ => rfl⟩

theorem exec_timeWriteApply_due {s : State} {r : List TimeWrite} (hl : s.chip.timeWrites = w :: r) (hdue : w.due ≤ (s.chip.timeOf w.half).cycles) :
    exec .timeWriteApply s = .next (s.withChip ((((s.chip.withWrites r).steerHalf w .H).steerHalf w .T).steerTold w)) := by
  have hexec : exec .timeWriteApply s = execTimeWriteApply s := rfl
  have hfind : (s.chip.timeWrites.find? fun w => decide (w.due ≤ (s.chip.timeOf w.half).cycles)) = some w := by
    rw [hl]
    exact List.find?_cons_of_pos (decide_eq_true hdue)
  have herase : s.chip.timeWrites.erase w = r := by
    rw [hl]
    exact List.erase_cons_head _ _
  unfold execTimeWriteApply at hexec
  simp only [hfind, herase] at hexec
  exact hexec.trans (s.go_eq _)

/-- Waiting writes are kept while one takes effect. -/
theorem Chip.timeWrites_steerHalf (c : Chip) (w : TimeWrite) (h : Half) : (c.steerHalf w h).timeWrites = c.timeWrites := by
  have hreg (y : Chip) (a v : Nat) : (y.setReg a v).timeWrites = y.timeWrites := Chip.setReg_keeps Chip.timeWrites (fun _ _ => rfl) y a v
  have hmove (x : Int) : (c.moveBase w.base x h).timeWrites = c.timeWrites :=
    (Chip.moveBase_keeps Chip.timeWrites (fun _ _ => rfl) (fun _ _ => rfl) c w.base x h).trans (Chip.put_keeps Chip.timeWrites (fun _ _ => rfl) _ _ _)
  unfold Chip.steerHalf
  split
  · rfl
  split
  · exact hreg _ _ _
  · exact hmove _
  · exact (hreg _ _ _).trans ((hreg _ _ _).trans (hmove _))
  · exact hreg _ _ _
  · exact hreg _ _ _

theorem Chip.timeWrites_steerTold (c : Chip) (w : TimeWrite) : (c.steerTold w).timeWrites = c.timeWrites := by
  have hpart : EventPart Chip.timeWrites := fun _ _ _ _ _ _ _ _ _ _ _ _ => rfl
  unfold Chip.steerTold
  split
  · exact hpart.ev _ _ _ _
  · exact hpart.ev _ _ _ _
  · rfl

/-- Clause 2: the oldest due write takes effect on both halves' copies. -/
theorem timeWriteApplied (w : TimeWrite) (r : List TimeWrite) (h : Half) (s : State) (hl : s.chip.timeWrites = w :: r) (hdown : s.chip.down.get h = false)
    (hdue : w.due ≤ (s.chip.timeOf w.half).cycles) (hw : w.base < 8) (hlen : ∀ h, (s.chip.tb.get h).length = 8) (hval : w.val < 2 ^ 32 ∨ w.kind = 1) :
    let c := s.chip
    ∃ t, exec .timeWriteApply s = .next (s.withChip t) ∧ t.timeWrites = r ∧
      (w.kind = 0 → t.reg (Reg.TB_RATE h.idx w.base) = w.val ∧ t.base h w.base = c.base h w.base) ∧
      (w.kind = 1 → ((t.base h w.base).val : Int) = (((c.base h w.base).val : Int) + (BitVec.ofNat 64 w.val).toInt) % 2 ^ 64 ∧
        t.q (F.TB_STEP_CNT_COUNT h.idx w.base) = min (c.q (F.TB_STEP_CNT_COUNT h.idx w.base) + 1) (2 ^ (F.TB_STEP_CNT_COUNT h.idx w.base).wid - 1)) ∧
      (w.kind = 2 → w.val * 64000000000 ≤ (c.base h w.base).val → (c.base h w.base).val < 2 ^ 64 → c.epoch h.idx w.base + w.val < 2 ^ 48 →
        ptpTime (t.epoch h.idx w.base) (t.base h w.base).val = ptpTime (c.epoch h.idx w.base) (c.base h w.base).val) := by
  intro c
  obtain ⟨d, hd, hsteered⟩ := (c.withWrites r).steered hw h
  have hcd : SameBases h c d := (c.withWrites_same r h).trans hd
  have ht := hsteered.trans (Chip.steerTold_same _ w h)
  have hddown : d.down.get h = false := hcd.down ▸ hdown
  have hdn : w.base < (d.tb.get h).length := by
    rw [hcd.tb, hlen]
    exact hw
  refine ⟨_, exec_timeWriteApply_due hl hdue, ?_, fun hk => ?_, fun hk => ?_, fun hk hle hlt he => ?_⟩
  · exact (Chip.timeWrites_steerTold _ _).trans ((Chip.timeWrites_steerHalf _ _ _).trans (Chip.timeWrites_steerHalf _ _ _))
  · obtain ⟨hrate, hbase⟩ := Chip.steerHalf_rate hddown hk (hval.resolve_right (by rw [hk]; decide))
    exact ⟨(ht.regs _ (rate_page h hw)).trans hrate, (ht.base _).trans (hbase.trans (hcd.base _))⟩
  · obtain ⟨hstep, hcnt⟩ := Chip.steerHalf_step hddown hdn hk
    rw [ht.base, hstep, hcd.base]
    refine ⟨rfl, (ht.q (stepCnt_page h hw)).trans (hcnt.trans ?_)⟩
    rw [hcd.q (f := F.TB_STEP_CNT_COUNT h.idx w.base) (stepCnt_page h hw)]
  · rw [← hcd.base] at hle hlt
    rw [← hcd.epoch hw] at he
    rw [ht.epoch hw, ht.base, Chip.steerHalf_rebase hddown hdn hk hle hlt he, hcd.base, hcd.epoch hw]

end

/-! ### Steering by a party with the right -/

section
variable {i : Initiator} {h : Half} {n : Fin 8} {s : State}

theorem exec_tbRate_granted {v : Word} (ha : s.chip.portCause i true (Reg.TB_RATE h.idx n) = 0) (hn : n.val ≠ 0) (hdown : s.chip.down.get h = false) :
    exec (.tbRate i h n v) s = .next (s.withChip (s.chip.writeRate h n v.toNat)) := (congrArg s.go (Chip.timeWrite_granted ha hn hdown)).trans (s.go_eq _)

theorem exec_tbStepLo_granted {v : Word} (ha : s.chip.portCause i true (Reg.TB_STEP_LO h.idx n) = 0) (hn : n.val ≠ 0) (hdown : s.chip.down.get h = false) :
    exec (.tbStepLo i h n v) s = .next (s.withChip (s.chip.hold i (Reg.TB_STEP_LO h.idx n) v.toNat)) :=
  (congrArg s.go (Chip.timeWrite_granted ha hn hdown)).trans (s.go_eq _)

theorem exec_tbStepHi_granted {v : Word} (ha : s.chip.portCause i true (Reg.TB_STEP_HI h.idx n) = 0) (hn : n.val ≠ 0) (hdown : s.chip.down.get h = false) :
    exec (.tbStepHi i h n v) s = .next (s.withChip (s.chip.writeStep h n 1 (s.chip.held i (Reg.TB_STEP_LO h.idx n) + v.toNat * 2 ^ 32))) :=
  (congrArg s.go (Chip.timeWrite_granted ha hn hdown)).trans (s.go_eq _)

theorem exec_tbRebase_granted {v : Word} (ha : s.chip.portCause i true (Reg.TB_REBASE h.idx n) = 0) (hn : n.val ≠ 0) (hdown : s.chip.down.get h = false) :
    exec (.tbRebase i h n v) s = .next (s.withChip (s.chip.writeStep h n 2 v.toNat)) :=
  (congrArg s.go (Chip.timeWrite_granted ha hn hdown)).trans (s.go_eq _)

/-- Clause 1: writes of rates, steps and rebases. -/
theorem timeSteered (i : Initiator) (h : Half) (n : Fin 8) (v w : Word) (s : State)
    (hi : ∀ a ∈ [Reg.TB_RATE h.idx n, Reg.TB_STEP_LO h.idx n, Reg.TB_STEP_HI h.idx n, Reg.TB_REBASE h.idx n], s.chip.portCause i true a = 0)
    (hdown : s.chip.down.get h = false) :
    let c := s.chip
    let due := (c.timeOf h).cycles + 500
    let q (c : Chip) (kind x : Nat) : Chip := { c with timeWrites := c.timeWrites ++ [⟨n, kind, x, h, due⟩] }
    (n ≠ 0 →
      (v.toInt ∈ Set.Icc (-256000000) 256000000 → exec (.tbRate i h n v) s = .next (s.withChip (q c 0 v.toNat))) ∧
      (256000000 < v.toInt → exec (.tbRate i h n v) s = .next (s.withChip (q (c.ev h 0x0C01 [n, v.toNat]) 0 256000000))) ∧
      (v.toInt < -256000000 → exec (.tbRate i h n v) s = .next (s.withChip (q (c.ev h 0x0C01 [n, v.toNat]) 0 (2 ^ 32 - 256000000)))) ∧
      (∃ t : Chip, exec (.tbStepLo i h n v) s = .next (s.withChip t) ∧ t.tb = c.tb ∧ t.timeWrites = c.timeWrites ∧
        (c.stepRefused h n = none → exec (.tbStepHi i h n w) (s.withChip t) = .next (s.withChip (q t 1 (v.toNat + w.toNat * 2 ^ 32)))) ∧
        (∀ k, c.stepRefused h n = some k → exec (.tbStepHi i h n w) (s.withChip t) = .next (s.withChip (t.ev h 0x0C02 [n, k])))) ∧
      (c.stepRefused h n = none → exec (.tbRebase i h n v) s = .next (s.withChip (q c 2 v.toNat))) ∧
      (∀ k, c.stepRefused h n = some k → exec (.tbRebase i h n v) s = .next (s.withChip (c.ev h 0x0C02 [n, k])))) ∧
    (n = 0 → exec (.tbRate i h n v) s = .next s ∧ exec (.tbStepLo i h n v) s = .next s ∧ exec (.tbStepHi i h n v) s = .next s ∧ exec (.tbRebase i h n v) s = .next s) := by
  intro c due q
  simp only [List.mem_cons, List.not_mem_nil, or_false, forall_eq_or_imp, forall_eq] at hi
  obtain ⟨hrate, hlo, hhi, hrebase⟩ := hi
  have hsteer (k x : Nat) : c.steer h n k x = q c k x := rfl
  have hsteerEv (code : Nat) (l : List Nat) (k x : Nat) : (c.ev h code l).steer h n k x = q (c.ev h code l) k x := by
    unfold Chip.steer
    rw [Chip.timeOf_ev]
  refine ⟨fun hn => ?_, fun hn => ?_⟩
  · have hn' : n.val ≠ 0 := fun h => hn (Fin.ext h)
    have rate {d : Chip} (hd : c.writeRate h n v.toNat = d) : exec (.tbRate i h n v) s = .next (s.withChip d) := hd ▸ exec_tbRate_granted hrate hn' hdown
    have rebase {d : Chip} (hd : c.writeStep h n 2 v.toNat = d) : exec (.tbRebase i h n v) s = .next (s.withChip d) :=
      hd ▸ exec_tbRebase_granted hrebase hn' hdown
    refine ⟨fun hv => rate ((Chip.writeRate_within hv).trans (hsteer _ _)), fun hv => rate ((Chip.writeRate_above hv).trans (hsteerEv _ _ _ _)),
      fun hv => rate ((Chip.writeRate_below hv).trans (hsteerEv _ _ _ _)), ⟨c.hold i (Reg.TB_STEP_LO h.idx n) v.toNat, exec_tbStepLo_granted hlo hn' hdown, rfl, rfl, ?_⟩,
      fun hs => rebase ((Chip.writeStep_accepted hs).trans (hsteer _ _)), fun k hs => rebase (Chip.writeStep_refused hs)⟩
    have hheld : (c.hold i (Reg.TB_STEP_LO h.idx n) v.toNat).held i (Reg.TB_STEP_LO h.idx n) = v.toNat := (Chip.held_hold _ _ _ _).trans (Nat.mod_eq_of_lt v.isLt)
    have hstep := exec_tbStepHi_granted (s := s.withChip (c.hold i (Reg.TB_STEP_LO h.idx n) v.toNat)) (v := w) (i := i) (h := h) (n := n)
      ((c.hold_portCause i i _ _ _ true).trans hhi) hn' hdown
    rw [show (s.withChip (c.hold i (Reg.TB_STEP_LO h.idx n) v.toNat)).chip = c.hold i (Reg.TB_STEP_LO h.idx n) v.toNat from rfl, hheld] at hstep
    have htwice (d : Chip) : (s.withChip (c.hold i (Reg.TB_STEP_LO h.idx n) v.toNat)).withChip d = s.withChip d := rfl
    rw [htwice] at hstep
    refine ⟨fun hs => hstep.trans ?_, fun k hs => hstep.trans ?_⟩
    · rw [Chip.writeStep_accepted ((Chip.stepRefused_hold _).trans hs)]
      rfl
    · rw [Chip.writeStep_refused ((Chip.stepRefused_hold _).trans hs)]
  · have hn' : n.val = 0 := congrArg Fin.val hn
    exact ⟨(congrArg s.go (Chip.timeWrite_fixed hrate hn')).trans (s.go_eq _), (congrArg s.go (Chip.timeWrite_fixed hlo hn')).trans (s.go_eq _),
      (congrArg s.go (Chip.timeWrite_fixed hhi hn')).trans (s.go_eq _), (congrArg s.go (Chip.timeWrite_fixed hrebase hn')).trans (s.go_eq _)⟩

end

/-! ### Lead and follower -/

/-- A part of the chip that a cross-check error leaves (R442). -/
structure XchkPart {γ : Type} (f : Chip → γ) : Prop where
  err (c : Chip) (k : Half) (v : Nat) : f (c.put (F.TIME_STATUS_XCHK_ERR k.idx) v) = f c
  cnt (c : Chip) (k : Half) : f (c.inc (F.TIME_XCHK_CNT_VALUE k.idx)) = f c
  ev (c : Chip) (k : Half) (code : Nat) (l : List Nat) : f (c.ev k code l) = f c

theorem EventPart.xchkPart {γ : Type} {f : Chip → γ} (h : EventPart f) : XchkPart f := ⟨fun _ _ _ => h.put _ _ _, fun _ _ => h.inc _ _, h.ev⟩

/-- The status registers of the time base of a half. -/
def timeWords (a : Nat) : Prop := ∃ k : Half, a = Reg.TIME_STATUS k.idx ∨ a = Reg.TIME_XCHK_CNT k.idx

theorem xchkPart_reg {a : Nat} (ha : ¬ timeWords a) (hev : ¬ eventReg a) : XchkPart fun y : Chip => y.reg a where
  err _ k _ := Chip.reg_setReg_ne _ _ fun e => ha ⟨k, .inl e⟩
  cnt _ k := Chip.reg_setReg_ne _ _ fun e => ha ⟨k, .inr e⟩
  ev c _ _ _ := c.reg_raise _ hev

/-- A field of the status beside the error. -/
theorem xchkPart_status (h : Half) {lo wid : Nat} (hf : lo + wid ≤ 30 ∨ 31 ≤ lo) : XchkPart fun y : Chip => y.q ⟨Reg.TIME_STATUS h.idx, lo, wid⟩ where
  err c k v := Chip.q_put_apart _ _ ⟨Nat.le_of_ble_eq_true rfl, .inr (by
    show 31 ≤ lo ∨ lo + wid ≤ 30
    omega)⟩
  cnt c k := Chip.q_setReg_ne _ _ (by
    show Reg.TIME_STATUS h.idx ≠ Reg.TIME_XCHK_CNT k.idx
    have := idx_le h
    unfold Reg.TIME_STATUS Reg.TIME_XCHK_CNT
    omega)
  ev c _ _ _ := c.q_raise _ (by
    show ¬ eventReg (Reg.TIME_STATUS h.idx)
    have := idx_le h
    unfold eventReg Reg.TIME_STATUS Reg.WEAR_LOG_CNT
    omega)

namespace XchkPart

variable {γ : Type} {f : Chip → γ} (h : XchkPart f)
include h

theorem xchkError (c : Chip) (k : Half) (cause off : Nat) : f (c.xchkError k cause off) = f c := by
  unfold Chip.xchkError
  exact ite_keeps rfl (foldl_keeps f _ (fun _ _ => (h.ev _ _ _ _).trans ((h.cnt _ _).trans (h.err _ _ _))) _ _)

theorem xchkClear (c : Chip) : f c.xchkClear = f c :=
  foldl_keeps f _ (fun _ _ => ite_keeps ((h.ev _ _ _ _).trans (h.err _ _ _)) rfl) _ _

end XchkPart

section
variable {c : Chip} {h : Half} {s : State}

theorem Chip.xchkError_on (cause off : Nat) : (c.xchkError h cause off).on (F.TIME_STATUS_XCHK_ERR h.idx) = true := by
  unfold Chip.xchkError
  split
  · next hon => exact hon
  · have hset (y : Chip) (k : Half) (l : List Nat) (hy : k = h ∨ y.on (F.TIME_STATUS_XCHK_ERR h.idx) = true) :
        (((y.put (F.TIME_STATUS_XCHK_ERR k.idx) 1).inc (F.TIME_XCHK_CNT_VALUE k.idx)).ev k 0x0C08 l).on (F.TIME_STATUS_XCHK_ERR h.idx) = true := by
      have hquiet : ¬ eventReg (Reg.TIME_STATUS h.idx) := by
        have := idx_le h
        unfold eventReg Reg.TIME_STATUS Reg.WEAR_LOG_CNT
        omega
      have hcnt : Reg.TIME_STATUS h.idx ≠ Reg.TIME_XCHK_CNT k.idx := by
        have := idx_le h
        unfold Reg.TIME_STATUS Reg.TIME_XCHK_CNT
        omega
      have hsame : (((y.put (F.TIME_STATUS_XCHK_ERR k.idx) 1).inc (F.TIME_XCHK_CNT_VALUE k.idx)).ev k 0x0C08 l).q (F.TIME_STATUS_XCHK_ERR h.idx) =
          (y.put (F.TIME_STATUS_XCHK_ERR k.idx) 1).q (F.TIME_STATUS_XCHK_ERR h.idx) := (Chip.q_raise _ _ hquiet).trans (Chip.q_setReg_ne _ _ hcnt)
      refine (congrArg (· != 0) hsame).trans ?_
      by_cases hk : k = h
      · rw [hk]
        exact congrArg (· != 0) (Chip.q_put_same _ _ _ (Nat.le_of_ble_eq_true rfl))
      · have hne : Reg.TIME_STATUS h.idx ≠ Reg.TIME_STATUS k.idx := by
          have := idx_ne hk
          unfold Reg.TIME_STATUS
          omega
        exact (congrArg (· != 0) (Chip.q_setReg_ne y _ hne)).trans (hy.resolve_left hk)
    exact hset _ _ _ (.inr (hset _ _ _ (.inl rfl)))

/-- The lead's fields in the registers of a half. -/
theorem Chip.takeLead_on (r : TimeRole) : (c.takeLead h r).on (F.TIME_ID_LEAD h.idx) = true := by
  have hne : Reg.TIME_ID h.idx ≠ Reg.TIME_STATUS h.idx := by
    unfold Reg.TIME_ID Reg.TIME_STATUS
    omega
  have hsame : (c.takeLead h r).q (F.TIME_ID_LEAD h.idx) = ((c.setTime h { c.timeOf h with role := r }).put (F.TIME_ID_LEAD h.idx) 1).q (F.TIME_ID_LEAD h.idx) :=
    (Chip.q_setReg_ne _ _ hne).trans (Chip.q_setReg_ne _ _ hne)
  exact (congrArg (· != 0) hsame).trans (congrArg (· != 0) (Chip.q_put_same _ _ _ (Nat.le_of_ble_eq_true rfl)))

theorem Chip.takeLead_keeps {γ : Type} (f : Chip → γ) (hr : ∀ c r, f { c with regs := r } = f c) (r : TimeRole) :
    f (c.takeLead h r) = f (c.setTime h { c.timeOf h with role := r }) :=
  (Chip.put_keeps f hr _ _ _).trans ((Chip.put_keeps f hr _ _ _).trans (Chip.put_keeps f hr _ _ _))

/-- The bases of a half at zero. -/
def Chip.zeroBases (c : Chip) (h : Half) : Chip := { c with tb := c.tb.set h (List.replicate 8 ⟨0, 0⟩) }

theorem exec_listeningWindowExpiry_due (hdown : s.chip.down.get h = false) (hrole : (s.chip.timeOf h).role = .listening)
    (hdue : (if h = .H then 75000 else 500000) ≤ (s.chip.timeOf h).cycles) :
    exec (.listeningWindowExpiry h) s = .next (s.withChip ((s.chip.zeroBases h).takeLead h (.leading (s.chip.timeOf h).cycles))) := by
  have hexec : exec (.listeningWindowExpiry h) s = execListeningWindowExpiry h s := rfl
  unfold execListeningWindowExpiry at hexec
  exact hexec.trans ((if_neg fun hc => hc.elim (fun hc => hc hrole) fun hc => hc.elim (Bool.eq_false_iff.1 hdown) (Nat.not_lt.2 hdue)).trans (s.go_eq _))

theorem exec_leadHoldExpiry_due {k : Nat} (hdown : s.chip.down.get h = false) (hrole : (s.chip.timeOf h).role = .leading k) (hdue : k + 250000 ≤ (s.chip.timeOf h).cycles) :
    exec (.leadHoldExpiry h) s = .next (s.withChip (s.chip.setTime h { s.chip.timeOf h with role := .lead })) := by
  have hexec : exec (.leadHoldExpiry h) s = execLeadHoldExpiry h s := rfl
  unfold execLeadHoldExpiry at hexec
  simp only [hrole] at hexec
  exact hexec.trans ((if_pos ⟨hdue, Bool.eq_false_iff.1 hdown⟩).trans (s.go_eq _))

theorem exec_timePulseSend_due (hdown : s.chip.down.get h = false) (hleads : s.chip.leads h = true) (hdue : (s.chip.timeOf h).sentAt + 25000 ≤ (s.chip.timeOf h).cycles) :
    exec (.timePulseSend h) s = .next (s.withChip (s.chip.setTime h { s.chip.timeOf h with sentAt := (s.chip.timeOf h).cycles, onWay := true })) := by
  have hexec : exec (.timePulseSend h) s = execTimePulseSend h s := rfl
  unfold execTimePulseSend at hexec
  exact hexec.trans ((if_pos ⟨hleads, Bool.eq_false_iff.1 hdown, hdue⟩).trans (s.go_eq _))

/-- Clause 3: the lead. -/
theorem leadTaken (h : Half) (s : State) (hdown : s.chip.down.get h = false) :
    let c := s.chip
    let x := c.timeOf h
    (x.role = .listening → (if h = .H then 75000 else 500000) ≤ x.cycles →
      ∃ t, exec (.listeningWindowExpiry h) s = .next (s.withChip t) ∧ (t.timeOf h).role = .leading x.cycles ∧ t.tb.get h = List.replicate 8 ⟨0, 0⟩ ∧
        t.on (F.TIME_ID_LEAD h.idx) = true ∧ t.tb.get h.other = c.tb.get h.other) ∧
    (∀ k, x.role = .leading k → k + 250000 ≤ x.cycles → exec (.leadHoldExpiry h) s = .next (s.withChip (c.setTime h { x with role := .lead }))) ∧
    (c.leads h = true → x.sentAt + 25000 ≤ x.cycles → exec (.timePulseSend h) s = .next (s.withChip (c.setTime h { x with sentAt := x.cycles, onWay := true }))) := by
  intro c x
  refine ⟨fun hrole hdue => ⟨_, exec_listeningWindowExpiry_due hdown hrole hdue, ?_, ?_, Chip.takeLead_on _, ?_⟩,
    fun k hrole hdue => exec_leadHoldExpiry_due hdown hrole hdue, fun hleads hdue => exec_timePulseSend_due hdown hleads hdue⟩
  · exact congrArg TimeSt.role ((Chip.takeLead_keeps (fun y => y.timeOf h) (fun _ _ => rfl) _).trans (Chip.timeOf_setTime _ _ _))
  · exact (Chip.takeLead_keeps (fun y => y.tb.get h) (fun _ _ => rfl) _).trans (Pair.get_set_same _ _ _)
  · exact (Chip.takeLead_keeps (fun y => y.tb.get h.other) (fun _ _ => rfl) _).trans (Pair.get_set_other _ _ _)

/-! ### Pulses -/

/-- The words of one half copied from the other. -/
def Chip.copyWords (c : Chip) (a : Nat → Nat → Nat) (h : Half) : Chip :=
  (List.range 8).foldl (fun c n => c.setReg (a h.idx n) (c.reg (a h.other.idx n))) c

section
variable {a : Nat → Nat → Nat} (hapart : ∀ n m, n < 8 → m < 8 → a h.idx n ≠ a h.other.idx m) (hinj : ∀ n m, a h.idx n = a h.idx m → n = m)
include hapart hinj

/-- The first words copied hold the other half's, and no other word changes. -/
theorem Chip.reg_copied (c : Chip) {k : Nat} (hk : k ≤ 8) (b : Nat) :
    let d := (List.range k).foldl (fun c n => c.setReg (a h.idx n) (c.reg (a h.other.idx n))) c
    (∀ n < k, b = a h.idx n → d.reg b = c.reg (a h.other.idx n)) ∧ ((∀ n < k, b ≠ a h.idx n) → d.reg b = c.reg b) := by
  induction k generalizing b with
  | zero => exact ⟨fun n hn => absurd hn (Nat.not_lt_zero n), fun _ => rfl⟩
  | succ k ih =>
    have hsource := (ih (by omega) (a h.other.idx k)).2 fun n hn => (hapart n k (by omega) (by omega)).symm
    obtain ⟨hin, hout⟩ := ih (by omega) b
    rw [List.range_succ, List.foldl_append]
    refine ⟨fun n hn hb => ?_, fun hb => ?_⟩
    · by_cases hnk : n = k
      · subst hnk
        rw [hb]
        refine (Chip.reg_setReg_same _ _ _).trans ?_
        exact (Nat.mod_eq_of_lt (Chip.reg_lt _ _)).trans hsource
      · exact (Chip.reg_setReg_ne _ _ fun e => hnk (hinj n k (hb.symm.trans e))).trans (hin n (by omega) hb)
    · exact (Chip.reg_setReg_ne _ _ (hb k (by omega))).trans (hout fun n hn => hb n (by omega))

theorem Chip.reg_copyWords (c : Chip) {n : Nat} (hn : n < 8) : (c.copyWords a h).reg (a h.idx n) = c.reg (a h.other.idx n) :=
  (c.reg_copied hapart hinj (le_refl 8) _).1 n hn rfl

theorem Chip.reg_copyWords_ne (c : Chip) {b : Nat} (hb : ∀ n < 8, b ≠ a h.idx n) : (c.copyWords a h).reg b = c.reg b := (c.reg_copied hapart hinj (le_refl 8) b).2 hb

end

theorem Chip.copyWords_keeps {γ : Type} (f : Chip → γ) (hr : ∀ c r, f { c with regs := r } = f c) (c : Chip) (a : Nat → Nat → Nat) (h : Half) :
    f (c.copyWords a h) = f c := foldl_keeps f _ (fun x _ => Chip.setReg_keeps f hr x _ _) _ _

/-- The bases of the other half, taken with their rates and epochs. -/
def Chip.takeBases (c : Chip) (h : Half) : Chip :=
  ((({ c with tb := c.tb.set h (c.tb.get h.other) } : Chip).copyWords Reg.TB_RATE h).copyWords Reg.TB_EPOCH_LO h).copyWords Reg.TB_EPOCH_HI h

/-- A half as a follower (R441). -/
def Chip.asFollower (c : Chip) (h : Half) : Chip :=
  ((c.setTime h { c.timeOf h with role := .follower, joined := false, trim := 0, heardAt := (c.timeOf h).cycles, far := 0, near := 0 }).put
    (F.TIME_ID_LEAD h.idx) 0).put (F.TIME_STATUS_LOCKED h.idx) 0

theorem half_other_ne (h : Half) : h.other ≠ h := by cases h <;> decide

/-- The words of the bases: of one half apart from those of the other. -/
theorem baseWords (h : Half) {a : Nat → Nat → Nat} {b : Nat} (ha : ∀ i j, a i j = b + i * 0x80000 + j * 0x40) :
    (∀ n m, n < 8 → m < 8 → a h.idx n ≠ a h.other.idx m) ∧ ∀ n m, a h.idx n = a h.idx m → n = m := by
  have hne := idx_ne (half_other_ne h)
  refine ⟨fun n m hn hm => ?_, fun n m e => ?_⟩
  · rw [ha, ha]
    omega
  · rw [ha, ha] at e
    omega

/-- What a follower has taken of the lead. -/
theorem Chip.takeBases_words (c : Chip) (h : Half) {n : Nat} (hn : n < 8) :
    (c.takeBases h).reg (Reg.TB_RATE h.idx n) = c.reg (Reg.TB_RATE h.other.idx n) ∧ (c.takeBases h).reg (Reg.TB_EPOCH_LO h.idx n) = c.reg (Reg.TB_EPOCH_LO h.other.idx n) ∧
      (c.takeBases h).reg (Reg.TB_EPOCH_HI h.idx n) = c.reg (Reg.TB_EPOCH_HI h.other.idx n) := by
  have hne := idx_ne (half_other_ne h)
  obtain ⟨hrate, hrate'⟩ := baseWords h (a := Reg.TB_RATE) fun _ _ => rfl
  obtain ⟨hlo, hlo'⟩ := baseWords h (a := Reg.TB_EPOCH_LO) fun _ _ => rfl
  obtain ⟨hhi, hhi'⟩ := baseWords h (a := Reg.TB_EPOCH_HI) fun _ _ => rfl
  have rateLo (k : Half) : ∀ m < 8, Reg.TB_RATE k.idx n ≠ Reg.TB_EPOCH_LO h.idx m := fun m hm => by unfold Reg.TB_RATE Reg.TB_EPOCH_LO; omega
  have rateHi (k : Half) : ∀ m < 8, Reg.TB_RATE k.idx n ≠ Reg.TB_EPOCH_HI h.idx m := fun m hm => by unfold Reg.TB_RATE Reg.TB_EPOCH_HI; omega
  have loRate (k : Half) : ∀ m < 8, Reg.TB_EPOCH_LO k.idx n ≠ Reg.TB_RATE h.idx m := fun m hm => by unfold Reg.TB_RATE Reg.TB_EPOCH_LO; omega
  have loHi (k : Half) : ∀ m < 8, Reg.TB_EPOCH_LO k.idx n ≠ Reg.TB_EPOCH_HI h.idx m := fun m hm => by unfold Reg.TB_EPOCH_LO Reg.TB_EPOCH_HI; omega
  have hiRate (k : Half) : ∀ m < 8, Reg.TB_EPOCH_HI k.idx n ≠ Reg.TB_RATE h.idx m := fun m hm => by unfold Reg.TB_RATE Reg.TB_EPOCH_HI; omega
  have hiLo (k : Half) : ∀ m < 8, Reg.TB_EPOCH_HI k.idx n ≠ Reg.TB_EPOCH_LO h.idx m := fun m hm => by unfold Reg.TB_EPOCH_LO Reg.TB_EPOCH_HI; omega
  unfold Chip.takeBases
  refine ⟨?_, ?_, ?_⟩
  · rw [Chip.reg_copyWords_ne hhi hhi' _ (rateHi h), Chip.reg_copyWords_ne hlo hlo' _ (rateLo h), Chip.reg_copyWords hrate hrate' _ hn]
    rfl
  · rw [Chip.reg_copyWords_ne hhi hhi' _ (loHi h), Chip.reg_copyWords hlo hlo' _ hn, Chip.reg_copyWords_ne hrate hrate' _ (loRate h.other)]
    rfl
  · rw [Chip.reg_copyWords hhi hhi' _ hn, Chip.reg_copyWords_ne hlo hlo' _ (hiLo h.other), Chip.reg_copyWords_ne hrate hrate' _ (hiRate h.other)]
    rfl

theorem Chip.asFollower_keeps {γ : Type} (f : Chip → γ) (hr : ∀ c r, f { c with regs := r } = f c) (c : Chip) (h : Half) :
    f (c.asFollower h) = f (c.setTime h { c.timeOf h with role := .follower, joined := false, trim := 0, heardAt := (c.timeOf h).cycles, far := 0, near := 0 }) :=
  (Chip.put_keeps f hr _ _ _).trans (Chip.put_keeps f hr _ _ _)

theorem Chip.reg_asFollower (c : Chip) (h : Half) {a : Nat} (hid : a ≠ Reg.TIME_ID h.idx) (hst : a ≠ Reg.TIME_STATUS h.idx) : (c.asFollower h).reg a = c.reg a := by
  unfold Chip.asFollower
  exact (Chip.reg_setReg_ne _ _ hst).trans ((Chip.reg_setReg_ne _ _ hid).trans rfl)

theorem Chip.takeBases_keeps {γ : Type} (f : Chip → γ) (hr : ∀ c r, f { c with regs := r } = f c) (c : Chip) (h : Half) :
    f (c.takeBases h) = f { c with tb := c.tb.set h (c.tb.get h.other) } :=
  (Chip.copyWords_keeps f hr _ _ _).trans ((Chip.copyWords_keeps f hr _ _ _).trans (Chip.copyWords_keeps f hr _ _ _))

theorem Chip.tb_setTime (c : Chip) (h : Half) (x : TimeSt) : (c.setTime h x).tb = c.tb := rfl

/-- A half that follows the other: its bases, rates and epochs are the other's. -/
theorem Chip.followed (c : Chip) (h : Half) {n : Nat} (hn : n < 8) :
    let t := (c.follow h).put (F.TIME_STATUS_PULSE_OK h.idx) 1
    (t.timeOf h.other) = c.timeOf h.other ∧ (t.timeOf h).role = .follower ∧ t.tb.get h = c.tb.get h.other ∧
      t.reg (Reg.TB_RATE h.idx n) = c.reg (Reg.TB_RATE h.other.idx n) ∧ t.epoch h.idx n = c.epoch h.other.idx n := by
  intro t
  obtain ⟨hrate, hlo, hhi⟩ := c.takeBases_words h hn
  have hkeep {γ : Type} (f : Chip → γ) (hr : ∀ c r, f { c with regs := r } = f c) : f t = f ((c.takeBases h).setTime h
      { (c.takeBases h).timeOf h with role := .follower, joined := false, trim := 0, heardAt := ((c.takeBases h).timeOf h).cycles, far := 0, near := 0 }) :=
    (Chip.put_keeps f hr _ _ _).trans (Chip.asFollower_keeps f hr _ h)
  have hreg {a : Nat} (hid : a ≠ Reg.TIME_ID h.idx) (hst : a ≠ Reg.TIME_STATUS h.idx) : t.reg a = (c.takeBases h).reg a :=
    (Chip.reg_setReg_ne _ _ hst).trans ((c.takeBases h).reg_asFollower h hid hst)
  have hh := idx_le h
  have rateId : Reg.TB_RATE h.idx n ≠ Reg.TIME_ID h.idx ∧ Reg.TB_RATE h.idx n ≠ Reg.TIME_STATUS h.idx := by
    unfold Reg.TB_RATE Reg.TIME_ID Reg.TIME_STATUS
    omega
  have loId : Reg.TB_EPOCH_LO h.idx n ≠ Reg.TIME_ID h.idx ∧ Reg.TB_EPOCH_LO h.idx n ≠ Reg.TIME_STATUS h.idx := by
    unfold Reg.TB_EPOCH_LO Reg.TIME_ID Reg.TIME_STATUS
    omega
  have hiId : Reg.TB_EPOCH_HI h.idx n ≠ Reg.TIME_ID h.idx ∧ Reg.TB_EPOCH_HI h.idx n ≠ Reg.TIME_STATUS h.idx := by
    unfold Reg.TB_EPOCH_HI Reg.TIME_ID Reg.TIME_STATUS
    omega
  refine ⟨?_, ?_, ?_, (hreg rateId.1 rateId.2).trans hrate, ?_⟩
  · exact (hkeep (fun y => y.timeOf h.other) fun _ _ => rfl).trans
      ((Chip.timeOf_setTime_other (c.takeBases h) h _).trans (Chip.takeBases_keeps (fun y => y.timeOf h.other) (fun _ _ => rfl) c h))
  · exact congrArg TimeSt.role ((hkeep (fun y => y.timeOf h) fun _ _ => rfl).trans (Chip.timeOf_setTime _ _ _))
  · have htb : t.tb = (c.takeBases h).tb := (hkeep Chip.tb fun _ _ => rfl).trans (Chip.tb_setTime _ _ _)
    exact (congrArg (fun y => y.get h) htb).trans ((Chip.takeBases_keeps (fun y => y.tb.get h) (fun _ _ => rfl) c h).trans (Pair.get_set_same _ _ _))
  · have hq : t.q (F.TB_EPOCH_LO_EPOCH h.idx n) = c.q (F.TB_EPOCH_LO_EPOCH h.other.idx n) := congrArg (fun v => bits v 0 32) ((hreg loId.1 loId.2).trans hlo)
    have hq' : t.q (F.TB_EPOCH_HI_EPOCH h.idx n) = c.q (F.TB_EPOCH_HI_EPOCH h.other.idx n) := congrArg (fun v => bits v 0 16) ((hreg hiId.1 hiId.2).trans hhi)
    unfold Chip.epoch
    rw [hq, hq']

/-- The pulse has arrived. -/
def Chip.pulseTaken (c : Chip) (h : Half) : Chip := c.setTime h.other { c.timeOf h.other with onWay := false }

theorem Chip.timeOf_pulseTaken (c : Chip) (h : Half) : (c.pulseTaken h).timeOf h = c.timeOf h := by
  have := Chip.timeOf_setTime_other c h.other { c.timeOf h.other with onWay := false }
  cases h <;> exact this

section
variable (hdown : s.chip.down.get h = false) (hway : (s.chip.timeOf h.other).onWay = true) (strained : Bool)
include hdown hway

theorem exec_timePulse_joins (hrole : (s.chip.timeOf h).role = .listening ∨ ∃ k, (s.chip.timeOf h).role = .leading k ∧ h = .T ∧ (s.chip.timeOf h).cycles < k + 250000) :
    exec (.timePulse h strained) s = .next (s.withChip (((s.chip.pulseTaken h).follow h).put (F.TIME_STATUS_PULSE_OK h.idx) 1)) := by
  have hexec : exec (.timePulse h strained) s = execTimePulse h strained s := rfl
  have htime := s.chip.timeOf_pulseTaken h
  unfold execTimePulse at hexec
  refine hexec.trans ((if_neg fun hc => hc.elim (fun hn => hn hway) (Bool.eq_false_iff.1 hdown)).trans ?_)
  show (match ((s.chip.pulseTaken h).timeOf h).role with
    | .listening => _
    | .leading t => if h = Half.T ∧ ((s.chip.pulseTaken h).timeOf h).cycles < t + 250000 then _ else _
    | .follower => _
    | .lead => _) = _
  rw [htime]
  rcases hrole with hl | ⟨k, hl, hT, hk⟩
  · rw [hl]
    exact s.go_eq _
  · rw [hl]
    exact (if_pos ⟨hT, hk⟩).trans (s.go_eq _)

theorem exec_timePulse_lead (hjoin : ¬ ((s.chip.timeOf h).role = .listening ∨ ∃ k, (s.chip.timeOf h).role = .leading k ∧ h = .T ∧ (s.chip.timeOf h).cycles < k + 250000))
    (hrole : (s.chip.timeOf h).role ≠ .follower) : exec (.timePulse h strained) s = .next (s.withChip (s.chip.pulseTaken h)) := by
  have hexec : exec (.timePulse h strained) s = execTimePulse h strained s := rfl
  have htime := s.chip.timeOf_pulseTaken h
  unfold execTimePulse at hexec
  refine hexec.trans ((if_neg fun hc => hc.elim (fun hn => hn hway) (Bool.eq_false_iff.1 hdown)).trans ?_)
  show (match ((s.chip.pulseTaken h).timeOf h).role with
    | .listening => _
    | .leading t => if h = Half.T ∧ ((s.chip.pulseTaken h).timeOf h).cycles < t + 250000 then _ else _
    | .follower => _
    | .lead => _) = _
  rw [htime]
  cases hr : (s.chip.timeOf h).role with
  | listening => exact absurd (.inl hr) hjoin
  | leading k => exact (if_neg fun hk => hjoin (.inr ⟨k, hr, hk⟩)).trans (s.go_eq _)
  | follower => exact absurd hr hrole
  | lead => exact s.go_eq _

theorem exec_timePulse_follower (hrole : (s.chip.timeOf h).role = .follower) :
    exec (.timePulse h strained) s = .next (s.withChip ((s.chip.pulseTaken h).measure h strained)) := by
  have hexec : exec (.timePulse h strained) s = execTimePulse h strained s := rfl
  have htime := s.chip.timeOf_pulseTaken h
  unfold execTimePulse at hexec
  refine hexec.trans ((if_neg fun hc => hc.elim (fun hn => hn hway) (Bool.eq_false_iff.1 hdown)).trans ?_)
  show (match ((s.chip.pulseTaken h).timeOf h).role with
    | .listening => _
    | .leading t => if h = Half.T ∧ ((s.chip.pulseTaken h).timeOf h).cycles < t + 250000 then _ else _
    | .follower => _
    | .lead => _) = _
  rw [htime, hrole]
  exact s.go_eq _

end

/-- A measured offset as the registers of a half show it (R441). -/
def Chip.offsetShown (c : Chip) (h : Half) (x : TimeSt) (off : Int) (lock : Bool) : Chip :=
  (((c.setTime h x).setReg (Reg.TIME_OFFSET h.idx) (unsgn 32 off)).put (F.TIME_STATUS_PULSE_OK h.idx) 1).put (F.TIME_STATUS_LOCKED h.idx) (b2n lock)

/-- The cross-check of a measured offset (R442). -/
def Chip.offsetJudged (c : Chip) (h : Half) (strained : Bool) (far near : Nat) (off : Int) : Chip :=
  let c := if strained then c.xchkError h 1 (unsgn 64 off) else if 3 ≤ far then c.xchkError h 0 (unsgn 64 off) else c
  if 10 ≤ near then c.xchkClear else c

/-- The trim that follows an offset (R441). -/
def Chip.trimmed (c : Chip) (h : Half) (off : Int) : Chip :=
  if c.on (F.TIME_STATUS_XCHK_ERR h.idx) then c
  else c.draw.2.setTime h { c.draw.2.timeOf h with trim :=
    if 0 < off then -((c.draw.1 % 51200001 : Nat) : Int) else if off < 0 then ((c.draw.1 % 51200001 : Nat) : Int) else 0 }

theorem Chip.measure_eq (c : Chip) (h : Half) (strained : Bool) : ∃ (x : TimeSt) (off : Int) (lock : Bool), x.heardAt = (c.timeOf h).cycles ∧
    off = elapsed (c.stamp h 0) (c.stamp h.other 0) + ((c.draw.1 % 257 : Nat) : Int) - 128 ∧
    c.measure h strained = ((c.draw.2.offsetShown h x off lock).offsetJudged h strained x.far x.near off).trimmed h off := ⟨_, _, _, rfl, rfl, rfl⟩

theorem XchkPart.offsetJudged {γ : Type} {f : Chip → γ} (hf : XchkPart f) (c : Chip) (strained : Bool) (far near : Nat) (off : Int) :
    f (c.offsetJudged h strained far near off) = f c := by
  unfold Chip.offsetJudged
  extract_lets d
  have hd : f d = f c := ite_keeps (f := f) (hf.xchkError _ _ _ _) (ite_keeps (f := f) (hf.xchkError _ _ _ _) rfl)
  exact ite_keeps (f := f) ((hf.xchkClear d).trans hd) hd

theorem Chip.trimmed_keeps {γ : Type} (f : Chip → γ) (hd : ∀ c n, f { c with freeCnt := n } = f c) (ht : ∀ c n, f (c.setTime h { c.timeOf h with trim := n }) = f c)
    (c : Chip) (off : Int) : f (c.trimmed h off) = f c := ite_keeps rfl ((ht _ _).trans (hd _ _))

/-- What a measurement leaves of a part that neither the cross-check nor the trim touches. -/
theorem Chip.measured_keeps {γ : Type} {f : Chip → γ} (hf : XchkPart f) (hd : ∀ c n, f { c with freeCnt := n } = f c)
    (ht : ∀ c n, f (c.setTime h { c.timeOf h with trim := n }) = f c) (c : Chip) (strained : Bool) (far near : Nat) (off : Int) :
    f ((c.offsetJudged h strained far near off).trimmed h off) = f c := (Chip.trimmed_keeps f hd ht _ _).trans (hf.offsetJudged c strained far near off)

theorem sgn_unsgn {x : Int} (hlo : -2147483648 ≤ x) (hhi : x < 2147483648) : (BitVec.ofNat 32 (unsgn 32 x)).toInt = x := by
  rw [← sgn_eq_toInt (by decide)]
  unfold sgn unsgn
  omega

/-- A measurement leaves the other half's time state. -/
theorem Chip.timeOf_other_measure (c : Chip) (h : Half) (strained : Bool) : (c.measure h strained).timeOf h.other = c.timeOf h.other := by
  obtain ⟨x, m, lock, -, -, heq⟩ := c.measure_eq h strained
  have hpart : XchkPart fun y : Chip => y.timeOf h.other := EventPart.xchkPart fun _ _ _ _ _ _ _ _ _ _ _ _ => rfl
  have htime : (c.draw.2.offsetShown h x m lock).time = c.time.set h x :=
    (Chip.put_keeps Chip.time (fun _ _ => rfl) _ _ _).trans ((Chip.put_keeps Chip.time (fun _ _ => rfl) _ _ _).trans (Chip.setReg_keeps Chip.time (fun _ _ => rfl) _ _ _))
  refine (congrArg (fun y : Chip => y.timeOf h.other) heq).trans ?_
  exact (Chip.measured_keeps hpart (fun _ _ => rfl) (fun c n => Chip.timeOf_setTime_other c h _) _ _ _ _ _).trans
    ((congrArg (fun y => y.get h.other) htime).trans (Pair.get_set_other _ _ _))

/-- Clause 4, a follower: the offset measured (R441). -/
theorem Chip.measured (c : Chip) (h : Half) (strained : Bool) {off : Int} (helapsed : elapsed (c.stamp h 0) (c.stamp h.other 0) = off)
    (hoff : off ∈ Set.Icc (-2000000000) 2000000000) :
    let t := c.measure h strained
    (t.timeOf h).heardAt = (c.timeOf h).cycles ∧ t.on (F.TIME_STATUS_PULSE_OK h.idx) = true ∧ t.tb = c.tb ∧
      |(BitVec.ofNat 32 (t.reg (Reg.TIME_OFFSET h.idx))).toInt - off| ≤ 128 := by
  obtain ⟨x, m, lock, hheard, hm, heq⟩ := c.measure_eq h strained
  obtain ⟨hlo, hhi⟩ := hoff
  have hh := idx_le h
  have herr := abs_error_le c.draw.1
  have hmoff : m - off = ((c.draw.1 % 257 : Nat) : Int) - 128 := by omega
  have hshown : (c.draw.2.offsetShown h x m lock).reg (Reg.TIME_OFFSET h.idx) = unsgn 32 m := by
    have hne : Reg.TIME_OFFSET h.idx ≠ Reg.TIME_STATUS h.idx := by unfold Reg.TIME_OFFSET Reg.TIME_STATUS; omega
    exact (Chip.reg_setReg_ne _ _ hne).trans ((Chip.reg_setReg_ne _ _ hne).trans ((Chip.reg_setReg_same _ _ _).trans (Nat.mod_eq_of_lt (by unfold unsgn; omega))))
  have hpart : XchkPart fun y : Chip => y.reg (Reg.TIME_OFFSET h.idx) := xchkPart_reg
    (fun ⟨k, hk⟩ => by unfold Reg.TIME_OFFSET Reg.TIME_STATUS Reg.TIME_XCHK_CNT at hk; omega) (by unfold eventReg Reg.TIME_OFFSET Reg.WEAR_LOG_CNT; omega)
  have hok : (c.draw.2.offsetShown h x m lock).q (F.TIME_STATUS_PULSE_OK h.idx) = 1 :=
    (Chip.q_put_apart _ _ ⟨Nat.le_of_ble_eq_true rfl, .inr (.inr (Nat.le_of_ble_eq_true rfl))⟩).trans (Chip.q_put_same _ _ _ (Nat.le_of_ble_eq_true rfl))
  have htime : (c.draw.2.offsetShown h x m lock).time = c.time.set h x :=
    (Chip.put_keeps Chip.time (fun _ _ => rfl) _ _ _).trans ((Chip.put_keeps Chip.time (fun _ _ => rfl) _ _ _).trans (Chip.setReg_keeps Chip.time (fun _ _ => rfl) _ _ _))
  have htb : (c.draw.2.offsetShown h x m lock).tb = c.tb :=
    (Chip.put_keeps Chip.tb (fun _ _ => rfl) _ _ _).trans ((Chip.put_keeps Chip.tb (fun _ _ => rfl) _ _ _).trans (Chip.setReg_keeps Chip.tb (fun _ _ => rfl) _ _ _))
  have hreg {γ : Type} {f : Chip → γ} (hf : XchkPart f) (hd : ∀ c n, f { c with freeCnt := n } = f c) (ht : ∀ c n, f (c.setTime h { c.timeOf h with trim := n }) = f c) :
      f (c.measure h strained) = f (c.draw.2.offsetShown h x m lock) := (congrArg f heq).trans (Chip.measured_keeps hf hd ht _ _ _ _ _)
  refine ⟨?_, ?_, ?_, ?_⟩
  · have hpart : XchkPart fun y : Chip => (y.timeOf h).heardAt := EventPart.xchkPart fun _ _ _ _ _ _ _ _ _ _ _ _ => rfl
    exact (hreg hpart (fun _ _ => rfl) fun c n => (congrArg TimeSt.heardAt (Chip.timeOf_setTime c h _)).trans rfl).trans
      ((congrArg (fun y => (y.get h).heardAt) htime).trans ((congrArg TimeSt.heardAt (Pair.get_set_same _ _ _)).trans hheard))
  · exact congrArg (· != 0) ((hreg (xchkPart_status h (.inl (by decide))) (fun _ _ => rfl) fun _ _ => rfl).trans hok)
  · have hpart : XchkPart Chip.tb := EventPart.xchkPart fun _ _ _ _ _ _ _ _ _ _ _ _ => rfl
    exact (hreg hpart (fun _ _ => rfl) fun _ _ => rfl).trans htb
  · have hval : (c.measure h strained).reg (Reg.TIME_OFFSET h.idx) = unsgn 32 m := (hreg hpart (fun _ _ => rfl) fun _ _ => rfl).trans hshown
    rw [hval, sgn_unsgn (by omega) (by omega), hmoff]
    exact herr

/-- Clause 4: a pulse arrives (R441). -/
theorem pulseArrived (h : Half) (strained : Bool) (n : Fin 8) (s : State) (hdown : s.chip.down.get h = false) (hway : (s.chip.timeOf h.other).onWay = true) :
    let c := s.chip
    ∃ t, exec (.timePulse h strained) s = .next (s.withChip t) ∧ (t.timeOf h.other).onWay = false ∧
      ((c.timeOf h).role = .listening ∨ (∃ k, (c.timeOf h).role = .leading k ∧ h = .T ∧ (c.timeOf h).cycles < k + 250000) → (t.timeOf h).role = .follower ∧ t.tb.get h = c.tb.get h.other ∧
        t.reg (Reg.TB_RATE h.idx n) = c.reg (Reg.TB_RATE h.other.idx n) ∧ t.epoch h.idx n = c.epoch h.other.idx n) ∧
      (∀ off : Int, (c.timeOf h).role = .follower → elapsed (c.stamp h 0) (c.stamp h.other 0) = off → off ∈ Set.Icc (-2000000000) 2000000000 →
        (t.timeOf h).heardAt = (c.timeOf h).cycles ∧ t.on (F.TIME_STATUS_PULSE_OK h.idx) = true ∧ t.tb = c.tb ∧
        |(BitVec.ofNat 32 (t.reg (Reg.TIME_OFFSET h.idx))).toInt - off| ≤ 128) := by
  intro c
  have htaken : (c.pulseTaken h).timeOf h = c.timeOf h := c.timeOf_pulseTaken h
  have hsent : ((c.pulseTaken h).timeOf h.other).onWay = false := congrArg TimeSt.onWay (Chip.timeOf_setTime c h.other _)
  by_cases hjoin : (c.timeOf h).role = .listening ∨ ∃ k, (c.timeOf h).role = .leading k ∧ h = .T ∧ (c.timeOf h).cycles < k + 250000
  · obtain ⟨hother, hnew⟩ := (c.pulseTaken h).followed h n.isLt
    refine ⟨_, exec_timePulse_joins hdown hway strained hjoin, (congrArg TimeSt.onWay hother).trans hsent, fun _ => hnew, fun off hrole => ?_⟩
    rcases hjoin with hl | ⟨k, hl, -⟩
    · exact absurd (hl.symm.trans hrole) (by decide)
    · exact TimeRole.noConfusion (hl.symm.trans hrole)
  by_cases hrole : (c.timeOf h).role = .follower
  · have hother := (congrArg TimeSt.onWay ((c.pulseTaken h).timeOf_other_measure h strained)).trans hsent
    refine ⟨_, exec_timePulse_follower hdown hway strained hrole, hother, fun hj => absurd hj hjoin, fun off _ he hoff => ?_⟩
    obtain ⟨hheard, hrest⟩ := (c.pulseTaken h).measured h strained he hoff
    exact ⟨hheard.trans (congrArg TimeSt.cycles htaken), hrest⟩
  · exact ⟨_, exec_timePulse_lead hdown hway strained hjoin hrole, hsent, fun hj => absurd hj hjoin, fun off hr => absurd hr hrole⟩

/-- A follower that has heard no pulse for 300 µs. -/
def Chip.pulseLost (c : Chip) (h : Half) : Chip :=
  ((c.setTime h { c.timeOf h with near := 0 }).put (F.TIME_STATUS_PULSE_OK h.idx) 0).put (F.TIME_STATUS_LOCKED h.idx) 0

theorem exec_pulseLoss_due (hdown : s.chip.down.get h = false) (hrole : (s.chip.timeOf h).role = .follower)
    (hdue : (s.chip.timeOf h).heardAt + 75000 ≤ (s.chip.timeOf h).cycles) : exec (.pulseLoss h) s =
      .next (s.withChip ((s.chip.pulseLost h).xchkError h 2 (unsgn 64 (sgn 32 ((s.chip.pulseLost h).reg (Reg.TIME_OFFSET h.idx)))))) := by
  have hexec : exec (.pulseLoss h) s = execPulseLoss h s := rfl
  unfold execPulseLoss at hexec
  exact hexec.trans ((if_pos ⟨hrole, Bool.eq_false_iff.1 hdown, hdue⟩).trans (s.go_eq _))

/-- Clause 5: no pulse for 300 µs (R442). -/
theorem pulseMissed (h : Half) (s : State) (hdown : s.chip.down.get h = false) (hrole : (s.chip.timeOf h).role = .follower)
    (hdue : (s.chip.timeOf h).heardAt + 75000 ≤ (s.chip.timeOf h).cycles) :
    let c := s.chip
    ∃ t, exec (.pulseLoss h) s = .next (s.withChip t) ∧ t.on (F.TIME_STATUS_LOCKED h.idx) = false ∧ t.on (F.TIME_STATUS_PULSE_OK h.idx) = false ∧
      t.on (F.TIME_STATUS_XCHK_ERR h.idx) = true ∧ t.tb = c.tb := by
  intro c
  have htb : XchkPart Chip.tb := EventPart.xchkPart fun _ _ _ _ _ _ _ _ _ _ _ _ => rfl
  have hlocked : (c.pulseLost h).q (F.TIME_STATUS_LOCKED h.idx) = 0 := Chip.q_put_same _ _ _ (Nat.le_of_ble_eq_true rfl)
  have hok : (c.pulseLost h).q (F.TIME_STATUS_PULSE_OK h.idx) = 0 :=
    (Chip.q_put_apart _ _ ⟨Nat.le_of_ble_eq_true rfl, .inr (.inr (Nat.le_of_ble_eq_true rfl))⟩).trans (Chip.q_put_same _ _ _ (Nat.le_of_ble_eq_true rfl))
  refine ⟨_, exec_pulseLoss_due hdown hrole hdue, ?_, ?_, Chip.xchkError_on _ _, ?_⟩
  · exact congrArg (· != 0) (((xchkPart_status h (.inr (by decide))).xchkError _ h 2 _).trans hlocked)
  · exact congrArg (· != 0) (((xchkPart_status h (.inl (by decide))).xchkError _ h 2 _).trans hok)
  · exact (htb.xchkError _ h 2 _).trans ((Chip.put_keeps Chip.tb (fun _ _ => rfl) _ _ _).trans (Chip.put_keeps Chip.tb (fun _ _ => rfl) _ _ _))

/-! ### The PPS (R444) -/

/-- The bases of a half captured with the errors of a draw. -/
def Chip.ppsTaken (c : Chip) (h : Half) (d k : Nat) : Chip :=
  (List.range k).foldl (fun (c : Chip) n => c.setPair (Reg.TB_PPS_LO h.idx n) (Reg.TB_PPS_HI h.idx n) ((c.stamp h n + 2 ^ 64 - 128 + d % 257) % 2 ^ 64)) c

theorem Chip.ppsTaken_keeps {γ : Type} (f : Chip → γ) (hr : ∀ c r, f { c with regs := r } = f c) (c : Chip) (h : Half) (d k : Nat) : f (c.ppsTaken h d k) = f c :=
  foldl_keeps f _ (fun x _ => (Chip.setReg_keeps f hr _ _ _).trans (Chip.setReg_keeps f hr x _ _)) _ _

/-- Each captured pair holds its base with the error of the draw. -/
theorem Chip.pair_ppsTaken (c : Chip) (h : Half) (d : Nat) {k n : Nat} (hn : n < k) :
    (c.ppsTaken h d k).pair (Reg.TB_PPS_LO h.idx n) (Reg.TB_PPS_HI h.idx n) = (c.stamp h n + 2 ^ 64 - 128 + d % 257) % 2 ^ 64 := by
  induction k with
  | zero => exact absurd hn (Nat.not_lt_zero n)
  | succ k ih =>
    unfold Chip.ppsTaken at ih ⊢
    rw [List.range_succ, List.foldl_append]
    by_cases hnk : n = k
    · subst hnk
      have hne : Reg.TB_PPS_LO h.idx n ≠ Reg.TB_PPS_HI h.idx n := by unfold Reg.TB_PPS_LO Reg.TB_PPS_HI; omega
      refine (Chip.pair_setPair_same _ hne _).trans ((Nat.mod_mod _ _).trans ?_)
      have hstamp : (c.ppsTaken h d n).stamp h n = c.stamp h n := Chip.ppsTaken_keeps (fun y => y.stamp h n) (fun _ _ => rfl) c h d n
      exact congrArg (fun v => (v + 2 ^ 64 - 128 + d % 257) % 2 ^ 64) hstamp
    · have hlo : Reg.TB_PPS_LO h.idx n ≠ Reg.TB_PPS_LO h.idx k ∧ Reg.TB_PPS_LO h.idx n ≠ Reg.TB_PPS_HI h.idx k := by unfold Reg.TB_PPS_LO Reg.TB_PPS_HI; omega
      have hhi : Reg.TB_PPS_HI h.idx n ≠ Reg.TB_PPS_LO h.idx k ∧ Reg.TB_PPS_HI h.idx n ≠ Reg.TB_PPS_HI h.idx k := by unfold Reg.TB_PPS_LO Reg.TB_PPS_HI; omega
      exact (congrArg₂ (fun a b => a + b * 2 ^ 32) (Chip.reg_setPair_ne _ _ hlo.1 hlo.2) (Chip.reg_setPair_ne _ _ hhi.1 hhi.2)).trans (ih (by omega))

/-- The edge noted and counted. -/
def Chip.ppsNoted (c : Chip) (h : Half) : Chip := (c.setTime h { c.timeOf h with pps := some (c.stamp h 0) }).inc (F.TIME_PPS_CNT_COUNT h.idx)

section
variable {pol : Bool} (hen : s.chip.on (F.TIME_PPS_CFG_ENABLE h.idx) = true) (hpol : s.chip.on (F.TIME_PPS_CFG_POL h.idx) = pol) (hdown : s.chip.down.get h = false)
include hen hpol hdown

theorem exec_ppsEdge_first (hready : s.chip.timeReady h = true) (hpps : (s.chip.timeOf h).pps = none) : exec (.ppsEdge h pol) s = .next (s.withChip (s.chip.capturePps h)) := by
  have hexec : exec (.ppsEdge h pol) s = execPpsEdge h pol s := rfl
  unfold execPpsEdge at hexec
  simp only [hen, hpol, hdown, hready, hpps, ne_eq, not_true, Bool.false_eq_true, or_self, if_false] at hexec
  exact hexec.trans (s.go_eq _)

theorem exec_ppsEdge_early {b : Nat} (hready : s.chip.timeReady h = true) (hpps : (s.chip.timeOf h).pps = some b)
    (hearly : elapsed (s.chip.stamp h 0) b < 64000000000 - ((s.chip.q (F.TIME_PPS_CFG_WIN_US h.idx) * usUnits : Nat) : Int)) : exec (.ppsEdge h pol) s =
      .next (s.withChip ((s.chip.inc (F.TIME_PPS_REJ_COUNT h.idx)).ev h 0x0C10 [h.idx, unsgn 64 (elapsed (s.chip.stamp h 0) b)])) := by
  have hexec : exec (.ppsEdge h pol) s = execPpsEdge h pol s := rfl
  unfold execPpsEdge at hexec
  simp only [hen, hpol, hdown, hready, hpps, ne_eq, not_true, Bool.false_eq_true, or_self, if_false] at hexec
  exact hexec.trans ((if_neg fun hw => absurd hw.1 (Int.not_le.2 hearly)).trans (s.go_eq _))

omit hpol in
theorem exec_ppsMissing_due {b : Nat} (hpps : (s.chip.timeOf h).pps = some b)
    (hlate : 64000000000 + ((s.chip.q (F.TIME_PPS_CFG_WIN_US h.idx) * usUnits : Nat) : Int) < elapsed (s.chip.stamp h 0) b) :
    exec (.ppsMissing h) s = .next (s.withChip ((s.chip.setTime h { s.chip.timeOf h with pps := none }).ev h 0x0C11 [h.idx])) := by
  have hexec : exec (.ppsMissing h) s = execPpsMissing h s := rfl
  unfold execPpsMissing at hexec
  simp only [hpps] at hexec
  have hlate' : ((64000000000 + s.chip.q (F.TIME_PPS_CFG_WIN_US h.idx) * usUnits : Nat) : Int) < elapsed (s.chip.stamp h 0) b := by
    rw [Nat.cast_add]
    exact hlate
  exact hexec.trans ((if_pos ⟨hen, Bool.eq_false_iff.1 hdown, hlate'⟩).trans (s.go_eq _))

end

/-- Clause 6: the edges of the PPS. -/
theorem ppsCaptured (h : Half) (pol : Bool) (n : Fin 8) (s : State) (hen : s.chip.on (F.TIME_PPS_CFG_ENABLE h.idx) = true)
    (hpol : s.chip.on (F.TIME_PPS_CFG_POL h.idx) = pol) (hdown : s.chip.down.get h = false) :
    let c := s.chip
    let win : Int := ((c.q (F.TIME_PPS_CFG_WIN_US h.idx) * usUnits : Nat) : Int)
    (c.timeReady h = true → (c.timeOf h).pps = none → ∃ t, exec (.ppsEdge h pol) s = .next (s.withChip t) ∧ (t.timeOf h).pps = some (c.stamp h 0) ∧ t.tb = c.tb ∧
      |elapsed (t.pair (Reg.TB_PPS_LO h.idx n) (Reg.TB_PPS_HI h.idx n)) (c.stamp h n)| ≤ 128) ∧
    (∀ b, c.timeReady h = true → (c.timeOf h).pps = some b → elapsed (c.stamp h 0) b < 64000000000 - win → exec (.ppsEdge h pol) s =
      .next (s.withChip ((c.inc (F.TIME_PPS_REJ_COUNT h.idx)).ev h 0x0C10 [h.idx, unsgn 64 (elapsed (c.stamp h 0) b)]))) ∧
    (∀ b, (c.timeOf h).pps = some b → 64000000000 + win < elapsed (c.stamp h 0) b → exec (.ppsMissing h) s =
      .next (s.withChip ((c.setTime h { c.timeOf h with pps := none }).ev h 0x0C11 [h.idx]))) := by
  intro c win
  refine ⟨fun hready hpps => ⟨_, exec_ppsEdge_first hen hpol hdown hready hpps, ?_, ?_, ?_⟩, fun b hready hpps hearly => exec_ppsEdge_early hen hpol hdown hready hpps hearly,
    fun b hpps hlate => exec_ppsMissing_due hen hdown hpps hlate⟩
  · have hstamp : (c.draw.2.ppsTaken h c.draw.1 8).stamp h 0 = c.stamp h 0 := Chip.ppsTaken_keeps (fun y => y.stamp h 0) (fun _ _ => rfl) c.draw.2 h _ 8
    have htime (d : Chip) : ((d.ppsNoted h).timeOf h).pps = some (d.stamp h 0) :=
      congrArg TimeSt.pps ((Chip.put_keeps (fun y => y.timeOf h) (fun _ _ => rfl) _ _ _).trans (Chip.timeOf_setTime d h _))
    exact (htime _).trans (congrArg some hstamp)
  · have htb (d : Chip) : (d.ppsNoted h).tb = d.tb := Chip.put_keeps Chip.tb (fun _ _ => rfl) _ _ _
    exact (htb _).trans (Chip.ppsTaken_keeps Chip.tb (fun _ _ => rfl) c.draw.2 h _ 8)
  · have hreg (d : Chip) {a : Nat} (ha : a ≠ Reg.TIME_PPS_CNT h.idx) : (d.ppsNoted h).reg a = d.reg a := Chip.reg_setReg_ne _ _ ha
    have hlo : Reg.TB_PPS_LO h.idx n ≠ Reg.TIME_PPS_CNT h.idx := by unfold Reg.TB_PPS_LO Reg.TIME_PPS_CNT; omega
    have hhi : Reg.TB_PPS_HI h.idx n ≠ Reg.TIME_PPS_CNT h.idx := by unfold Reg.TB_PPS_HI Reg.TIME_PPS_CNT; omega
    have hpair : ((c.draw.2.ppsTaken h c.draw.1 8).ppsNoted h).pair (Reg.TB_PPS_LO h.idx n) (Reg.TB_PPS_HI h.idx n) =
        (c.stamp h n + 2 ^ 64 - 128 + c.draw.1 % 257) % 2 ^ 64 :=
      (congrArg₂ (fun a b => a + b * 2 ^ 32) (hreg _ hlo) (hreg _ hhi)).trans (c.draw.2.pair_ppsTaken h c.draw.1 n.isLt)
    have herr : |elapsed (((c.draw.2.ppsTaken h c.draw.1 8).ppsNoted h).pair (Reg.TB_PPS_LO h.idx n) (Reg.TB_PPS_HI h.idx n)) (c.stamp h n)| ≤ 128 := by
      rw [hpair, elapsed_captured]
      exact abs_error_le _
    exact herr

end

/-! ### The PTP stamps (R449) -/

/-- A word held at another key stays. -/
theorem Chip.held_hold_ne (c : Chip) (i : Initiator) {a b : Nat} (v : Nat) (hab : holdKey a ≠ holdKey b) : (c.hold i b v).held i a = c.held i a := by
  have hfirst : (i.owner == i.owner && i.port == i.port && holdKey b == holdKey a) = false := by
    rw [beq_eq_false_iff_ne.2 hab.symm, Bool.and_false]
  have hrest : (fun x : HoldCell => !(x.owner == i.owner && x.port == i.port && x.key == holdKey b) && (x.owner == i.owner && x.port == i.port && x.key == holdKey a)) =
      fun x : HoldCell => x.owner == i.owner && x.port == i.port && x.key == holdKey a := by
    funext x
    by_cases hk : x.key = holdKey a
    · rw [beq_eq_false_iff_ne.2 (hk ▸ hab : x.key ≠ holdKey b)]
      simp only [Bool.and_false, Bool.not_false, Bool.true_and]
    · rw [beq_eq_false_iff_ne.2 hk]
      simp only [Bool.and_false]
  simp only [Chip.held, Chip.held?, Chip.hold, List.find?_cons, hfirst, List.find?_filter, Bool.decide_and, Bool.decide_eq_true, hrest]

theorem holdKey_txts (m : Fin 8) : holdKey (Reg.TIME_TXTS_LO (m / 4) (m % 4)) ≠ holdKey (Reg.TIME_TXTS_HI (m / 4) (m % 4)) := by
  revert m
  decide

theorem holdKey_rxts (m : Fin 8) : holdKey (Reg.TIME_RXTS_LO (m / 4) (m % 4)) ≠ holdKey (Reg.TIME_RXTS_HI (m / 4) (m % 4)) := by
  revert m
  decide

/-- The value that the INFO register gives for a stamp. -/
def ptpInfo (x : PtpStamp) : Nat := 2 ^ 31 + x.msgType % 16 * 2 ^ 24 + x.domain % 256 * 2 ^ 16 + x.seqId % 65536

theorem Chip.ptpPop_cons (c : Chip) (i : Initiator) (a lo hi : Nat) (x : PtpStamp) (r : List PtpStamp) (f : List PtpStamp → Chip → Chip) (hne : holdKey lo ≠ holdKey hi) :
    let t := c.ptpPop i a lo hi (x :: r) f
    t.ptpTx = (f r c).ptpTx ∧ t.ptpRx = (f r c).ptpRx ∧ t.answer.map (·.val) = some (BitVec.ofNat 64 (ptpInfo x)) ∧ t.held i lo = x.stamp % 2 ^ 32 ∧
      t.held i hi = x.stamp / 2 ^ 32 % 2 ^ 32 := by
  refine ⟨rfl, rfl, rfl, ?_, Chip.held_hold _ _ _ _⟩
  exact (Chip.held_hold_ne _ i _ hne).trans ((Chip.held_hold _ _ _ _).trans (Nat.mod_mod _ _))

section
variable {s : State} {i : Initiator} {m : Fin 8} (hdown : s.chip.down.get (Half.ofIdx (m / 4)) = false)
include hdown

theorem exec_txtsInfoRead_granted (hport : s.chip.portCause i false (Reg.TIME_TXTS_INFO (m / 4) (m % 4)) = 0) : exec (.txtsInfoRead i m) s =
    .next (s.withChip (s.chip.ptpPop i (Reg.TIME_TXTS_INFO (m / 4) (m % 4)) (Reg.TIME_TXTS_LO (m / 4) (m % 4)) (Reg.TIME_TXTS_HI (m / 4) (m % 4))
      ((Tbl.find? s.chip.ptpTx m.val).getD []) fun l c => { c with ptpTx := Tbl.ins c.ptpTx m.val l })) := by
  have hexec : exec (.txtsInfoRead i m) s = execTxtsInfoRead i m s := rfl
  unfold execTxtsInfoRead at hexec
  simp only [hport] at hexec
  exact hexec.trans ((congrArg s.go (if_neg (Bool.eq_false_iff.1 hdown))).trans (s.go_eq _))

theorem exec_rxtsInfoRead_granted (hport : s.chip.portCause i false (Reg.TIME_RXTS_INFO (m / 4) (m % 4)) = 0) : exec (.rxtsInfoRead i m) s =
    .next (s.withChip (s.chip.ptpPop i (Reg.TIME_RXTS_INFO (m / 4) (m % 4)) (Reg.TIME_RXTS_LO (m / 4) (m % 4)) (Reg.TIME_RXTS_HI (m / 4) (m % 4))
      ((Tbl.find? s.chip.ptpRx m.val).getD []) fun l c => { c with ptpRx := Tbl.ins c.ptpRx m.val l })) := by
  have hexec : exec (.rxtsInfoRead i m) s = execRxtsInfoRead i m s := rfl
  unfold execRxtsInfoRead at hexec
  simp only [hport] at hexec
  exact hexec.trans ((congrArg s.go (if_neg (Bool.eq_false_iff.1 hdown))).trans (s.go_eq _))

/-- Clause 7: the stamps of a port are read one by one. -/
theorem stampsRead :
    let c := s.chip
    let info (x : PtpStamp) := BitVec.ofNat 64 (2 ^ 31 + x.msgType % 16 * 2 ^ 24 + x.domain % 256 * 2 ^ 16 + x.seqId % 65536)
    (c.portCause i false (Reg.TIME_TXTS_INFO (m / 4) (m % 4)) = 0 → ∃ t, exec (.txtsInfoRead i m) s = .next (s.withChip t) ∧
      (∀ x r, Tbl.find? c.ptpTx m = some (x :: r) → Tbl.find? t.ptpTx m = some r ∧ t.answer.map (·.val) = some (info x) ∧
        t.held i (Reg.TIME_TXTS_LO (m / 4) (m % 4)) = x.stamp % 2 ^ 32 ∧ t.held i (Reg.TIME_TXTS_HI (m / 4) (m % 4)) = x.stamp / 2 ^ 32 % 2 ^ 32) ∧
      (Tbl.find? c.ptpTx m = none → t = c.answering i (Reg.TIME_TXTS_INFO (m / 4) (m % 4)) 0)) ∧
    (c.portCause i false (Reg.TIME_RXTS_INFO (m / 4) (m % 4)) = 0 → ∃ t, exec (.rxtsInfoRead i m) s = .next (s.withChip t) ∧
      (∀ x r, Tbl.find? c.ptpRx m = some (x :: r) → Tbl.find? t.ptpRx m = some r ∧ t.answer.map (·.val) = some (info x) ∧
        t.held i (Reg.TIME_RXTS_LO (m / 4) (m % 4)) = x.stamp % 2 ^ 32 ∧ t.held i (Reg.TIME_RXTS_HI (m / 4) (m % 4)) = x.stamp / 2 ^ 32 % 2 ^ 32) ∧
      (Tbl.find? c.ptpRx m = none → t = c.answering i (Reg.TIME_RXTS_INFO (m / 4) (m % 4)) 0)) := by
  intro c info
  refine ⟨fun hport => ⟨_, exec_txtsInfoRead_granted hdown hport, fun x r hl => ?_, fun hl => ?_⟩,
    fun hport => ⟨_, exec_rxtsInfoRead_granted hdown hport, fun x r hl => ?_, fun hl => ?_⟩⟩
  · rw [hl]
    obtain ⟨htx, -, hrest⟩ := c.ptpPop_cons i (Reg.TIME_TXTS_INFO (m / 4) (m % 4)) _ _ x r (fun l c => { c with ptpTx := Tbl.ins c.ptpTx m.val l }) (holdKey_txts m)
    exact ⟨(congrArg (fun y => Tbl.find? y m.val) htx).trans (Tbl.find?_ins_same _ _ _), hrest⟩
  · rw [hl]
    rfl
  · rw [hl]
    obtain ⟨-, hrx, hrest⟩ := c.ptpPop_cons i (Reg.TIME_RXTS_INFO (m / 4) (m % 4)) _ _ x r (fun l c => { c with ptpRx := Tbl.ins c.ptpRx m.val l }) (holdKey_rxts m)
    exact ⟨(congrArg (fun y => Tbl.find? y m.val) hrx).trans (Tbl.find?_ins_same _ _ _), hrest⟩
  · rw [hl]
    rfl

end

/-- Settles O55: a clause per kind of step. -/
theorem timeKept : Obligations.TimeKept := by
  unfold Obligations.TimeKept
  exact ⟨timeSteered, timeWriteApplied, leadTaken, fun h strained n s => pulseArrived h strained n s, fun h s => pulseMissed h s, fun h pol n s => ppsCaptured h pol n s,
    fun i m s hdown => stampsRead hdown⟩

end Machine

end Sys2Proof

/-! PROOF. Frames at the camera ports, lines of the displays (R409–R422). -/

namespace Sys2Proof

namespace Machine

/-! ### The camera ports -/

/-- A part of the chip that the writes of a camera port leave. -/
structure CamPart {γ : Type} (n : Nat) (f : Chip → γ) : Prop where
  raise (c : Chip) (e : Event) : f (c.raise e) = f c
  store (c : Chip) (a : Nat) (bs : List Byte) : f (c.store a bs) = f c
  pcie (c : Chip) (y : Pair (Option (Nat × Option Nat))) : f { c with pcieOut := y } = f c
  free (c : Chip) (k : Nat) : f { c with freeCnt := k } = f c
  drop (c : Chip) : f (c.camDrop n) = f c
  sat (c : Chip) (x : CamFrame) (hx : (c.cam n).cur = some x) : f (c.setCam n { c.cam n with cur := some { x with saturated := true } }) = f c
  count (c : Chip) (a v : Nat) (ha : a = Reg.INTAKE_ERR n ∨ a = Reg.INTAKE_CLAMP_CNT n) : f (c.setReg a v) = f c

theorem Chip.refusalEvent_keeps {γ : Type} {f : Chip → γ} (hr : ∀ c e, f (c.raise e) = f c) (c : Chip) (k : Half) (m : Option Cmd) (o : Owner) (a cause engine : Nat) :
    f (c.refusalEvent k m o a cause engine) = f c := by
  unfold Chip.refusalEvent
  extract_lets +onlyGivenNames i typ mk
  have hmk (code : Nat) (d : List Nat) : f (mk code d) = f c := by
    cases m with
    | none => exact hr _ _
    | some m => exact hr _ _
  split
  · refine ite_keeps ?_ (hmk _ _)
    split <;> exact hmk _ _
  · exact hmk _ _
  · exact hmk _ _
  · exact hmk _ _
  · rfl

theorem Chip.badEntries_keeps {γ : Type} {f : Chip → γ} (hr : ∀ c e, f (c.raise e) = f c) (c : Chip) (k : Half) (m : Option Cmd) (o : Owner) (a n engine : Nat) :
    f (c.badEntries k m o a n engine) = f c := by
  unfold Chip.badEntries
  refine ite_keeps rfl (foldl_keeps f _ (fun x y => ?_) _ _)
  split
  · exact ite_keeps rfl (Chip.refusalEvent_keeps hr _ _ _ _ _ _ _)
  · rfl

theorem Chip.evBy_keeps {γ : Type} {f : Chip → γ} (hr : ∀ c e, f (c.raise e) = f c) (c : Chip) (k : Half) (code : Nat) (r : Option Nat) (o : Owner) (l : List Nat) :
    f (c.evBy k code r o l) = f c := by
  cases r with
  | none => exact hr _ _
  | some r => exact hr _ _

/-- A write above the control space changes memory alone. -/
theorem Chip.enginePut_keeps {γ : Type} {f : Chip → γ} (hr : ∀ c e, f (c.raise e) = f c) (hs : ∀ c a bs, f (c.store a bs) = f c)
    (hp : ∀ c y, f { c with pcieOut := y } = f c) (c : Chip) (m : Option Cmd) (i : Initiator) {a : Nat} (ha : 0x40000000 ≤ a) (bs : List Byte) (engine : Nat) :
    f (c.enginePut m i a bs engine) = f c := by
  unfold Chip.enginePut
  extract_lets d
  have hsent (x : Chip) : f (x.pcieSent i.owner a) = f x := ite_keeps (hp _ _) rfl
  have hd : f d = f c := (hsent _).trans (Chip.badEntries_keeps hr _ _ _ _ _ _ _)
  rw [if_neg (Nat.not_lt.2 ha)]
  exact (hs _ _ _).trans hd

/-- The number of the frame in progress. -/
def Chip.camNo (c : Chip) (n : Nat) : Nat := match (c.cam n).cur with | some f => f.no | none => 0

theorem Chip.camElemAt_ge (c : Chip) (n no plane y x : Nat) : c.camBuf n no ≤ c.camElemAt n no plane y x := by
  unfold Chip.camElemAt
  omega

/-- The counts of a line's samples (R411). -/
def Chip.camCounted (c : Chip) (n excess sat : Nat) : Chip :=
  let c := (c.count (F.INTAKE_ERR_COUNT n) excess).count (F.INTAKE_CLAMP_CNT_COUNT n) sat
  match (c.cam n).cur with
  | some f => if sat = 0 then c else c.setCam n { c.cam n with cur := some { f with saturated := true } }
  | none => c

theorem Chip.camSamples_eq (c : Chip) (n y : Nat) (l : List (BitVec 16)) :
    ∃ (d : Chip) (no : Nat) (placed : List ((Nat × Nat × Nat) × Nat × Bool)) (excess sat e : Nat), d = { c with freeCnt := c.freeCnt + l.length } ∧ no = c.camNo n ∧
      c.camSamples n y l = (placed.foldl (fun (x : Chip) p => x.camWrite n (x.camElemAt n no p.1.1 p.1.2.1 p.1.2.2) (toLE e p.2.1)) d).camCounted n excess sat := by
  unfold Chip.camSamples
  extract_lets +onlyGivenNames e placed excess sat no d g i
  have hd : d = { c with freeCnt := c.freeCnt + l.length } := rfl
  have hno : no = c.camNo n := rfl
  refine ⟨d, no, placed, excess, sat, e, hd, hno, ?_⟩
  clear_value d no placed excess sat e
  rfl

namespace CamPart

variable {γ : Type} {n : Nat} {f : Chip → γ} (h : CamPart n f)
include h

theorem busRefused (c : Chip) (m : Option Cmd) (i : Initiator) (w : Bool) (a k engine : Nat) : f (c.busRefused m i w a k engine) = f c :=
  ite_keeps (Chip.evBy_keeps h.raise _ _ _ _ _ _) (Chip.refusalEvent_keeps h.raise _ _ _ _ _ _ _)

theorem enginePut (c : Chip) (m : Option Cmd) (i : Initiator) {a : Nat} (ha : 0x40000000 ≤ a) (bs : List Byte) (engine : Nat) : f (c.enginePut m i a bs engine) = f c :=
  Chip.enginePut_keeps h.raise h.store h.pcie c m i ha bs engine

theorem camWrite (c : Chip) {a : Nat} (ha : 0x40000000 ≤ a) (bs : List Byte) : f (c.camWrite n a bs) = f c := by
  unfold Chip.camWrite
  split
  · refine ite_keeps rfl ?_
    split
    · exact h.enginePut _ _ _ ha _ _
    · exact (h.raise _ _).trans ((h.busRefused _ _ _ _ _ _ _).trans (h.drop _))
  · rfl

theorem camStamp (c : Chip) : f (c.camStamp n).2 = f c := h.free _ _

theorem camFill (c : Chip) (ha : 0x40000000 ≤ c.camBuf n (c.camNo n)) (y k : Nat) : f (c.camFill n y k) = f c := by
  unfold Chip.camFill
  refine (foldl_keeps f _ (fun x j => ?_) _ _).trans (h.free _ _)
  split
  · exact h.camWrite _ (ha.trans (c.camElemAt_ge _ _ _ _ _)) _
  · rfl

theorem camCounted (c : Chip) (excess sat : Nat) : f (c.camCounted n excess sat) = f c := by
  have hd : f ((c.count (F.INTAKE_ERR_COUNT n) excess).count (F.INTAKE_CLAMP_CNT_COUNT n) sat) = f c :=
    (h.count (c.count (F.INTAKE_ERR_COUNT n) excess) _ _ (.inr rfl)).trans (h.count c _ _ (.inl rfl))
  unfold Chip.camCounted
  generalize (c.count (F.INTAKE_ERR_COUNT n) excess).count (F.INTAKE_CLAMP_CNT_COUNT n) sat = d at hd
  dsimp only
  split
  · next x hx => exact (ite_keeps rfl (h.sat d x hx)).trans hd
  · exact hd

end CamPart

theorem ioReg.quiet {a : Nat} (ha : ioReg a) : ¬ eventReg a := by
  obtain ⟨hlo, hhi⟩ := ha
  unfold eventReg Reg.WEAR_LOG_CNT
  omega

theorem Chip.regs_store (c : Chip) (a : Nat) (bs : List Byte) : (c.store a bs).regs = c.regs := Chip.store_keeps Chip.regs (fun _ _ _ _ _ _ => rfl) c a bs

/-- The registers of a port but its counters of dropped frames, errors and saturated values. -/
theorem camPart_reg {n a : Nat} (ha : ioReg a) (hdrop : a ≠ Reg.INTAKE_DROPPED n) (herr : a ≠ Reg.INTAKE_ERR n) (hclamp : a ≠ Reg.INTAKE_CLAMP_CNT n) :
    CamPart n fun y : Chip => y.reg a where
  raise c e := c.reg_raise e ha.quiet
  store c b bs := Chip.reg_of_regs (c.regs_store b bs) _
  pcie _ _ := rfl
  free _ _ := rfl
  drop c := by
    unfold Chip.camDrop
    dsimp only
    split
    · exact ite_keeps (f := fun y : Chip => y.reg a) rfl (Chip.reg_setReg_ne _ _ hdrop)
    · rfl
  sat _ _ _ := rfl
  count c b v hb := Chip.reg_setReg_ne _ _ fun e => hb.elim (fun h => herr (e.trans h)) fun h => hclamp (e.trans h)

/-- Where a frame's buffer begins: the same wherever the port's registers are. -/
theorem Chip.camBuf_of_regs {c d : Chip} {n : Nat} (h : ∀ a, 0xc00000 + n * 0x1000 ≤ a → a < 0xc0001c + n * 0x1000 → d.reg a = c.reg a) (no : Nat) : d.camBuf n no = c.camBuf n no := by
  have hq {f : RF} (hlo : 0xc00000 + n * 0x1000 ≤ f.addr) (hhi : f.addr < 0xc0001c + n * 0x1000) : d.q f = c.q f := congrArg (fun v => bits v f.lo f.wid) (h _ hlo hhi)
  unfold Chip.camBuf
  rw [hq (f := F.INTAKE_BUF_LO_BUF n), hq (f := F.INTAKE_BUF_HI_BUF n), hq (f := F.INTAKE_FMT_BUFS_M2 n), hq (f := F.INTAKE_BUF_STRIDE_BUF_STRIDE n)]
  all_goals
    simp only [F.INTAKE_BUF_LO_BUF, F.INTAKE_BUF_HI_BUF, F.INTAKE_FMT_BUFS_M2, F.INTAKE_BUF_STRIDE_BUF_STRIDE, Reg.INTAKE_BUF_LO, Reg.INTAKE_BUF_HI, Reg.INTAKE_FMT, Reg.INTAKE_BUF_STRIDE]
    omega

theorem camPart_buf {n : Nat} (hn : n < 16) (no : Nat) : CamPart n fun y : Chip => y.camBuf n no := by
  have hreg {a : Nat} (hlo : 0xc00000 + n * 0x1000 ≤ a) (hhi : a < 0xc0001c + n * 0x1000) : CamPart n fun y : Chip => y.reg a :=
    camPart_reg ⟨by omega, by omega⟩ (by unfold Reg.INTAKE_DROPPED; omega) (by unfold Reg.INTAKE_ERR; omega) (by unfold Reg.INTAKE_CLAMP_CNT; omega)
  exact {
    raise := fun c e => Chip.camBuf_of_regs (fun a hlo hhi => (hreg hlo hhi).raise c e) no
    store := fun c b bs => Chip.camBuf_of_regs (fun a hlo hhi => (hreg hlo hhi).store c b bs) no
    pcie := fun _ _ => rfl
    free := fun _ _ => rfl
    drop := fun c => Chip.camBuf_of_regs (fun a hlo hhi => (hreg hlo hhi).drop c) no
    sat := fun _ _ _ => rfl
    count := fun c b v hb => Chip.camBuf_of_regs (fun a hlo hhi => (hreg hlo hhi).count c b v hb) no }

namespace CamPart

variable {γ : Type} {n : Nat} {f : Chip → γ} (h : CamPart n f) (hn : n < 16)
include h hn

/-- The elements of a line written one by one. -/
theorem camElems (c : Chip) {no : Nat} (ha : 0x40000000 ≤ c.camBuf n no) (e : Nat) (placed : List ((Nat × Nat × Nat) × Nat × Bool)) :
    f (placed.foldl (fun (x : Chip) p => x.camWrite n (x.camElemAt n no p.1.1 p.1.2.1 p.1.2.2) (toLE e p.2.1)) c) = f c := by
  induction placed generalizing c with
  | nil => rfl
  | cons p l ih =>
    have hat := ha.trans (c.camElemAt_ge n no p.1.1 p.1.2.1 p.1.2.2)
    have hbuf := (camPart_buf hn no).camWrite c hat (toLE e p.2.1)
    exact (ih _ (le_of_le_of_eq ha hbuf.symm)).trans (h.camWrite c hat _)

theorem camSamples (c : Chip) (ha : 0x40000000 ≤ c.camBuf n (c.camNo n)) (y : Nat) (l : List (BitVec 16)) : f (c.camSamples n y l) = f c := by
  obtain ⟨d, no, placed, excess, sat, e, rfl, rfl, heq⟩ := c.camSamples_eq n y l
  rw [heq]
  refine (h.camCounted _ _ _).trans ((h.camElems hn _ ?_ e placed).trans (h.free c _))
  exact ha

end CamPart

/-- What a port holds of the frame in progress but whether it is dropped and saturated. -/
def Chip.camView (c : Chip) (n : Nat) : Nat × Option (Nat × Nat × Bool × Bool) := ((c.cam n).no, (c.cam n).cur.map fun g => (g.no, g.lines, g.crcErr, g.truncated))

theorem camPart_view (n : Nat) : CamPart n fun y : Chip => y.camView n where
  raise c e := EventPart.raise (f := fun y : Chip => y.camView n) (fun _ _ _ _ _ _ _ _ _ _ _ _ => rfl) c e
  store c b bs := EventPart.store (f := fun y : Chip => y.camView n) (fun _ _ _ _ _ _ _ _ _ _ _ _ => rfl) c b bs
  pcie _ _ := rfl
  free _ _ := rfl
  drop c := by
    unfold Chip.camDrop
    dsimp only
    split
    · next x hx =>
        refine ite_keeps (f := fun y : Chip => y.camView n) rfl ((Chip.put_keeps (fun y => y.camView n) (fun _ _ => rfl) _ _ _).trans ?_)
        unfold Chip.camView
        rw [Chip.cam_setCam, hx]
        rfl
    · rfl
  sat c x hx := by
    show Chip.camView _ n = c.camView n
    unfold Chip.camView
    rw [Chip.cam_setCam, hx]
    rfl
  count c b v _ := Chip.setReg_keeps (fun y => y.camView n) (fun _ _ => rfl) c b v

theorem camPart_cmds (n : Nat) : CamPart n Chip.cmds where
  raise c e := EventPart.raise (f := Chip.cmds) (fun _ _ _ _ _ _ _ _ _ _ _ _ => rfl) c e
  store c b bs := EventPart.store (f := Chip.cmds) (fun _ _ _ _ _ _ _ _ _ _ _ _ => rfl) c b bs
  pcie _ _ := rfl
  free _ _ := rfl
  drop c := by
    unfold Chip.camDrop
    dsimp only
    split
    · exact ite_keeps rfl (Chip.put_keeps Chip.cmds (fun _ _ => rfl) _ _ _)
    · rfl
  sat _ _ _ := rfl
  count c b v _ := Chip.setReg_keeps Chip.cmds (fun _ _ => rfl) c b v

theorem Chip.camNo_of_view {c d : Chip} {n : Nat} (h : d.camView n = c.camView n) : d.camNo n = c.camNo n := by
  have hno (x : Chip) : x.camNo n = ((x.camView n).2.map Prod.fst).getD 0 := by
    unfold Chip.camNo Chip.camView
    cases (x.cam n).cur <;> rfl
  rw [hno, hno, h]


section
variable {n vc : Fin 16} {s : State} (hon : s.chip.camOn n = true)
include hon

section
variable (hready : s.chip.timeReady (camHalf n) = true)
include hready

theorem exec_csiFrameStart_foreign (hvc : s.chip.q (F.INTAKE_FMT_VC n) ≠ vc) : exec (.csiFrameStart n vc) s = .next (s.withChip (s.chip.inc (F.INTAKE_ERR_COUNT n))) := by
  have hexec : exec (.csiFrameStart n vc) s = execCsiFrameStart n vc s := rfl
  unfold execCsiFrameStart at hexec
  exact hexec.trans ((if_neg fun hc => hc.elim (fun hx => hx hon) fun hx => hx hready).trans ((if_pos hvc).trans (s.go_eq _)))

omit hon hready in
/-- A port that begins a frame, dropped or not. -/
def Chip.camBegun (c : Chip) (n t : Nat) (drop : Bool) : Chip :=
  let x := c.cam n
  let d := c.setCam n { x with no := x.no + 1, cur := some ⟨x.no + 1, t, 0, drop, false, false, false, c.stamp (camHalf n) 0⟩, dropRun := x.dropRun || drop }
  if drop then if x.dropRun then d.inc (F.INTAKE_DROPPED_COUNT n) else (d.inc (F.INTAKE_DROPPED_COUNT n)).evOf (camHalf n) 0x0B00 ((d.inc (F.INTAKE_DROPPED_COUNT n)).camOwner n) [n, x.no + 1]
  else d

omit hon hready in
theorem State.go_camBegun (s : State) (c : Chip) (n t : Nat) (drop : Bool) :
    (let x := c.cam n
     let d := c.setCam n { x with no := x.no + 1, cur := some ⟨x.no + 1, t, 0, drop, false, false, false, c.stamp (camHalf n) 0⟩, dropRun := x.dropRun || drop }
     if drop then
       let d := d.inc (F.INTAKE_DROPPED_COUNT n)
       s.go (if x.dropRun then d else d.evOf (camHalf n) 0x0B00 (d.camOwner n) [n, x.no + 1])
     else s.go d) = .next (s.withChip (c.camBegun n t drop)) := by
  cases drop
  · exact s.go_eq _
  · exact s.go_eq _

/-- Whether a new frame finds no free buffer (R409). -/
def Chip.camLate (c : Chip) (n : Nat) : Bool :=
  decide (c.dowel (c.q (F.INTAKE_DOWELS_RELEASE_DOWEL n)) + (c.q (F.INTAKE_FMT_BUFS_M2 n) + 2) < (c.cam n).no + 1)

theorem exec_csiFrameStart_begins (hvc : s.chip.q (F.INTAKE_FMT_VC n) = vc) (hcur : (s.chip.cam n).cur = none) :
    exec (.csiFrameStart n vc) s = .next (s.withChip ((s.chip.camStamp n).2.camBegun n (s.chip.camStamp n).1 (s.chip.camLate n))) := by
  have hexec : exec (.csiFrameStart n vc) s = execCsiFrameStart n vc s := rfl
  unfold execCsiFrameStart at hexec
  have hend : s.chip.camEnd n.val true = s.chip := by
    unfold Chip.camEnd
    rw [hcur]
  have hrun := hexec.trans ((if_neg fun hc => hc.elim (fun hx => hx hon) fun hx => hx hready).trans (if_neg (not_not.2 hvc)))
  rw [hend] at hrun
  exact hrun.trans (s.go_camBegun (s.chip.camStamp n).2 n (s.chip.camStamp n).1 (s.chip.camLate n))

end

theorem exec_csiLine_foreign (hvc : s.chip.q (F.INTAKE_FMT_VC n) ≠ vc) (dt : Fin 64) (l : List (BitVec 16)) (ok : Bool) :
    exec (.csiLine n vc dt l true ok) s = .next (s.withChip (s.chip.inc (F.INTAKE_ERR_COUNT n))) := by
  have hexec : exec (.csiLine n vc dt l true ok) s = execCsiLine n vc dt l true ok s := rfl
  unfold execCsiLine at hexec
  exact hexec.trans ((if_neg (not_not.2 hon)).trans ((if_neg (not_not.2 rfl)).trans ((if_pos (.inl hvc)).trans (s.go_eq _))))

theorem exec_csiFrameEnd_foreign (hvc : s.chip.q (F.INTAKE_FMT_VC n) ≠ vc) : exec (.csiFrameEnd n vc) s = .next (s.withChip (s.chip.inc (F.INTAKE_ERR_COUNT n))) := by
  have hexec : exec (.csiFrameEnd n vc) s = execCsiFrameEnd n vc s := rfl
  unfold execCsiFrameEnd at hexec
  exact hexec.trans ((if_neg (not_not.2 hon)).trans ((if_pos hvc).trans (s.go_eq _)))

section
variable (hvc : s.chip.q (F.INTAKE_FMT_VC n) = vc)
include hvc

theorem exec_csiFrameEnd_own : exec (.csiFrameEnd n vc) s = .next (s.withChip (s.chip.camEnd n false)) := by
  have hexec : exec (.csiFrameEnd n vc) s = execCsiFrameEnd n vc s := rfl
  unfold execCsiFrameEnd at hexec
  exact hexec.trans ((if_neg (not_not.2 hon)).trans ((if_neg (not_not.2 hvc)).trans (s.go_eq _)))

theorem exec_csiLine_own {dt : Fin 64} (hdt : s.chip.camType n = dt) (l : List (BitVec 16)) (ok : Bool) :
    exec (.csiLine n vc dt l true ok) s = .next (s.withChip (s.chip.camLine n l ok)) := by
  have hexec : exec (.csiLine n vc dt l true ok) s = execCsiLine n vc dt l true ok s := rfl
  unfold execCsiLine at hexec
  exact hexec.trans ((if_neg (not_not.2 hon)).trans ((if_neg (not_not.2 rfl)).trans ((if_neg fun hc => hc.elim (fun hx => hx hvc) fun hx => hx hdt).trans (s.go_eq _))))

/-- A line without a frame counts as an error, whatever its type. -/
theorem exec_csiLine_idle (hcur : (s.chip.cam n).cur = none) (dt : Fin 64) (l : List (BitVec 16)) (ok : Bool) :
    exec (.csiLine n vc dt l true ok) s = .next (s.withChip (s.chip.inc (F.INTAKE_ERR_COUNT n))) := by
  by_cases hdt : s.chip.camType n = dt
  · have hline : s.chip.camLine n l ok = s.chip.inc (F.INTAKE_ERR_COUNT n) := by
      unfold Chip.camLine
      rw [hcur]
    exact (exec_csiLine_own hon hvc hdt l ok).trans (congrArg (fun k => Host.Outcome.next (s.withChip k)) hline)
  · have hexec : exec (.csiLine n vc dt l true ok) s = execCsiLine n vc dt l true ok s := rfl
    unfold execCsiLine at hexec
    exact hexec.trans ((if_neg (not_not.2 hon)).trans ((if_neg (not_not.2 rfl)).trans ((if_pos (.inr hdt)).trans (s.go_eq _))))

theorem exec_csiFrameEnd_idle (hcur : (s.chip.cam n).cur = none) : exec (.csiFrameEnd n vc) s = .next s := by
  have hend : s.chip.camEnd n false = s.chip := by
    unfold Chip.camEnd
    rw [hcur]
  exact (exec_csiFrameEnd_own hon hvc).trans (congrArg (fun k => Host.Outcome.next (s.withChip k)) hend)

end

theorem exec_frameEndTimeout_due {f : CamFrame} (hcur : (s.chip.cam n).cur = some f)
    (hdue : ((s.chip.q (F.INTAKE_RATE_TIMEOUT_MS n) * 1000 * usUnits : Nat) : Int) ≤ elapsed (s.chip.stamp (camHalf n) 0) f.lastAt) :
    exec (.frameEndTimeout n) s = .next (s.withChip (s.chip.camEnd n true)) := by
  have hexec : exec (.frameEndTimeout n) s = execFrameEndTimeout n s := rfl
  unfold execFrameEndTimeout at hexec
  simp only [hcur] at hexec
  exact hexec.trans ((if_pos ⟨hon, hdue⟩).trans (s.go_eq _))

end

/-- Clause 5: packets that count as errors. -/
theorem packetsForeign (n vc : Fin 16) (dt : Fin 64) (l : List (BitVec 16)) (ok : Bool) (s : State) (hon : s.chip.camOn n = true) :
    let c := s.chip
    let e := Host.Outcome.next (s.withChip (c.inc (F.INTAKE_ERR_COUNT n)))
    (c.q (F.INTAKE_FMT_VC n) ≠ vc → (c.timeReady (camHalf n) = true → exec (.csiFrameStart n vc) s = e) ∧ exec (.csiFrameEnd n vc) s = e ∧ exec (.csiLine n vc dt l true ok) s = e) ∧
    (c.q (F.INTAKE_FMT_VC n) = vc → (c.cam n).cur = none → exec (.csiLine n vc dt l true ok) s = e ∧ exec (.csiFrameEnd n vc) s = .next s) :=
  ⟨fun hvc => ⟨fun hready => exec_csiFrameStart_foreign hon hready hvc, exec_csiFrameEnd_foreign hon hvc, exec_csiLine_foreign hon hvc dt l ok⟩,
    fun hvc hcur => ⟨exec_csiLine_idle hon hvc hcur dt l ok, exec_csiFrameEnd_idle hon hvc hcur⟩⟩

/-- What a port that begins a frame holds, and its count of dropped frames. -/
theorem Chip.camBegun_cam (c : Chip) {n : Nat} (hn : n < 16) (t : Nat) (drop : Bool) :
    (c.camBegun n t drop).cam n = { c.cam n with no := (c.cam n).no + 1, cur := some ⟨(c.cam n).no + 1, t, 0, drop, false, false, false, c.stamp (camHalf n) 0⟩, dropRun := (c.cam n).dropRun || drop } ∧
      (c.camBegun n t drop).q (F.INTAKE_DROPPED_COUNT n) = (if drop then (c.inc (F.INTAKE_DROPPED_COUNT n)).q (F.INTAKE_DROPPED_COUNT n) else c.q (F.INTAKE_DROPPED_COUNT n)) := by
  have hquiet : ¬ eventReg (Reg.INTAKE_DROPPED n) := ioReg.quiet ⟨by unfold Reg.INTAKE_DROPPED; omega, by unfold Reg.INTAKE_DROPPED; omega⟩
  have hcam (d : Chip) (x : CamSt) (l : List Nat) : ((((d.setCam n x).inc (F.INTAKE_DROPPED_COUNT n)).evOf (camHalf n) 0x0B00 (((d.setCam n x).inc (F.INTAKE_DROPPED_COUNT n)).camOwner n) l).cam n) = x :=
    (EventPart.evOf (f := fun y : Chip => y.cam n) (fun _ _ _ _ _ _ _ _ _ _ _ _ => rfl) _ _ _ _ _).trans
      ((Chip.put_keeps (fun y => y.cam n) (fun _ _ => rfl) _ _ _).trans (Chip.cam_setCam _ _ _))
  unfold Chip.camBegun
  cases drop
  · exact ⟨Chip.cam_setCam _ _ _, rfl⟩
  · dsimp only
    rw [if_pos rfl, if_pos rfl]
    split
    · exact ⟨(Chip.put_keeps (fun y => y.cam n) (fun _ _ => rfl) _ _ _).trans (Chip.cam_setCam _ _ _), rfl⟩
    · exact ⟨hcam c _ _, Chip.q_raise _ _ hquiet⟩

/-- Clause 1: a frame begins. -/
theorem frameBegins (n vc : Fin 16) (s : State) :
    let c := s.chip
    let x := c.cam n
    let no := x.no + 1
    let late := decide (c.dowel (c.q (F.INTAKE_DOWELS_RELEASE_DOWEL n)) + (c.q (F.INTAKE_FMT_BUFS_M2 n) + 2) < no)
    c.camOn n = true → c.timeReady (camHalf n) = true → c.q (F.INTAKE_FMT_VC n) = vc → x.cur = none →
    ∃ t, exec (.csiFrameStart n vc) s = .next (s.withChip t) ∧ (t.cam n).no = no ∧
      ∃ f, (t.cam n).cur = some f ∧ f.no = no ∧ f.lines = 0 ∧ f.dropped = late ∧
        t.q (F.INTAKE_DROPPED_COUNT n) = (if late then (c.inc (F.INTAKE_DROPPED_COUNT n)).q (F.INTAKE_DROPPED_COUNT n) else c.q (F.INTAKE_DROPPED_COUNT n)) := by
  intro c x no late hon hready hvc hcur
  obtain ⟨hcam, hq⟩ := (c.camStamp n).2.camBegun_cam n.isLt (c.camStamp n).1 (c.camLate n)
  exact ⟨_, exec_csiFrameStart_begins hon hready hvc hcur, congrArg CamSt.no hcam, _, congrArg CamSt.cur hcam, rfl, rfl, rfl, hq⟩

/-! #### Lines -/

section
variable {c : Chip} {n : Nat} (hn : n < 16)
include hn

/-- The rest of a line filled keeps buffer and frame. -/
theorem Chip.camFill_base (ha : 0x40000000 ≤ c.camBuf n (c.camNo n)) (y k : Nat) :
    (c.camFill n y k).camView n = c.camView n ∧ (c.camFill n y k).camBuf n (c.camNo n) = c.camBuf n (c.camNo n) ∧ (c.camFill n y k).camNo n = c.camNo n :=
  have hview := (camPart_view n).camFill c ha y k
  ⟨hview, (camPart_buf hn _).camFill c ha y k, Chip.camNo_of_view hview⟩

/-- Missing lines of a frame. -/
def Chip.camPadded (c : Chip) (n lines m : Nat) : Chip := (List.range m).foldl (fun c k => c.camFill n (lines + k) 0) c

theorem CamPart.camPadded {γ : Type} {f : Chip → γ} (h : CamPart n f) (ha : 0x40000000 ≤ c.camBuf n (c.camNo n)) (lines m : Nat) :
    f (c.camPadded n lines m) = f c ∧ (c.camPadded n lines m).camNo n = c.camNo n ∧ (c.camPadded n lines m).camBuf n (c.camNo n) = c.camBuf n (c.camNo n) := by
  induction m with
  | zero => exact ⟨rfl, rfl, rfl⟩
  | succ m ih =>
    unfold Chip.camPadded at ih ⊢
    rw [List.range_succ, List.foldl_append]
    obtain ⟨hf, hno, hbuf⟩ := ih
    generalize (List.range m).foldl (fun c k => c.camFill n (lines + k) 0) c = d at hf hno hbuf
    have hd : 0x40000000 ≤ d.camBuf n (d.camNo n) := by
      rw [hno, hbuf]
      exact ha
    obtain ⟨-, hbuf', hno'⟩ := Chip.camFill_base hn hd (lines + m) 0
    exact ⟨(h.camFill d hd _ _).trans hf, hno'.trans hno, by
      rw [hno] at hbuf'
      exact hbuf'.trans hbuf⟩

/-- A line taken into the frame in progress, its bytes written. -/
def Chip.camTaken (c : Chip) (n : Nat) (f : CamFrame) (l : List (BitVec 16)) (ok : Bool) : Chip :=
  let d := c.setCam n { c.cam n with cur := some { f with lines := f.lines + 1, truncated := f.truncated || decide (l.length < c.camWidth n f.lines), crcErr := f.crcErr || !ok, lastAt := c.stamp (camHalf n) 0 } }
  (d.camSamples n f.lines l).camFill n f.lines l.length

omit hn in
theorem Chip.camLine_eq {f : CamFrame} (hcur : (c.cam n).cur = some f) (hlines : f.lines < c.q (F.INTAKE_SIZE_H n)) (l : List (BitVec 16)) (ok : Bool) :
    c.camLine n l ok = if ok then c.camTaken n f l ok
      else ((c.camTaken n f l ok).inc (F.INTAKE_CRC_ERR_COUNT n)).evOf (camHalf n) 0x0B02 ((c.camTaken n f l ok).camOwner n) [n, f.no, f.lines] := by
  unfold Chip.camLine
  rw [hcur]
  show (if c.q (F.INTAKE_SIZE_H n) ≤ f.lines then _ else _) = _
  rw [if_neg (Nat.not_le.2 hlines)]
  rfl

/-- What a line leaves of the parts that the writes of a port leave. -/
theorem Chip.camTaken_keeps {γ : Type} {g : Chip → γ} (h : CamPart n g) {f : CamFrame} (hbuf : 0x40000000 ≤ c.camBuf n f.no) (l : List (BitVec 16)) (ok : Bool) :
    g (c.camTaken n f l ok) = g (c.setCam n { c.cam n with cur := some { f with lines := f.lines + 1, truncated := f.truncated || decide (l.length < c.camWidth n f.lines), crcErr := f.crcErr || !ok, lastAt := c.stamp (camHalf n) 0 } }) := by
  unfold Chip.camTaken
  extract_lets src d
  have hno : d.camNo n = f.no := by
    unfold Chip.camNo d
    rw [Chip.cam_setCam]
  have hd : 0x40000000 ≤ d.camBuf n (d.camNo n) := by
    rw [hno]
    exact hbuf
  have hview := (camPart_view n).camSamples hn d hd f.lines l
  have hbuf' := (camPart_buf hn (d.camNo n)).camSamples hn d hd f.lines l
  have he : 0x40000000 ≤ (d.camSamples n f.lines l).camBuf n ((d.camSamples n f.lines l).camNo n) := by
    rw [Chip.camNo_of_view hview]
    exact le_of_le_of_eq hd hbuf'.symm
  exact (h.camFill _ he _ _).trans (h.camSamples hn d hd f.lines l)

end

/-- The frame in progress by what is told of it. -/
theorem Chip.cur_of_view {d : Chip} {n no lines k : Nat} {e r : Bool} (h : d.camView n = (k, some (no, lines, e, r))) :
    ∃ g, (d.cam n).cur = some g ∧ g.no = no ∧ g.lines = lines ∧ g.crcErr = e ∧ g.truncated = r := by
  obtain ⟨g, hg, heq⟩ := Option.map_eq_some_iff.1 (congrArg Prod.snd h)
  obtain ⟨hno, hlines, he, hr⟩ : g.no = no ∧ g.lines = lines ∧ g.crcErr = e ∧ g.truncated = r := by
    simpa only [Prod.mk.injEq] using heq
  exact ⟨g, hg, hno, hlines, he, hr⟩

/-- Clause 2: a line arrives. -/
theorem lineTaken (n vc : Fin 16) (dt : Fin 64) (l : List (BitVec 16)) (crcOk : Bool) (f : CamFrame) (s : State) :
    let c := s.chip
    c.camOn n = true → c.q (F.INTAKE_FMT_VC n) = vc → c.camType n = dt → (c.cam n).cur = some f → f.lines < c.q (F.INTAKE_SIZE_H n) →
    0x40000000 ≤ c.camBuf n f.no →
    ∃ t g, exec (.csiLine n vc dt l true crcOk) s = .next (s.withChip t) ∧ (t.cam n).cur = some g ∧ g.no = f.no ∧ g.lines = f.lines + 1 ∧
      g.crcErr = (f.crcErr || !crcOk) ∧ g.truncated = (f.truncated || decide (l.length < c.camWidth n f.lines)) ∧ t.cmds = c.cmds := by
  intro c hon hvc hdt hcur hlines hbuf
  have hkeep {γ : Type} {g : Chip → γ} (h : CamPart n.val g) (hinc : ∀ y : Chip, g (y.inc (F.INTAKE_CRC_ERR_COUNT n)) = g y) :
      g (c.camLine n l crcOk) = g (c.camTaken n f l crcOk) := by
    rw [Chip.camLine_eq hcur hlines]
    exact ite_keeps rfl ((h.raise _ _).trans (hinc _))
  have hview : (c.camLine n l crcOk).camView n = ((c.cam n).no, some (f.no, f.lines + 1, f.crcErr || !crcOk, f.truncated || decide (l.length < c.camWidth n f.lines))) := by
    refine (hkeep (camPart_view n) fun y => Chip.put_keeps (fun y => y.camView n) (fun _ _ => rfl) y _ _).trans ((Chip.camTaken_keeps n.isLt (camPart_view n) hbuf l crcOk).trans ?_)
    unfold Chip.camView
    rw [Chip.cam_setCam]
    rfl
  have hcmds : (c.camLine n l crcOk).cmds = c.cmds :=
    (hkeep (camPart_cmds n) fun y => Chip.put_keeps Chip.cmds (fun _ _ => rfl) y _ _).trans (Chip.camTaken_keeps n.isLt (camPart_cmds n) hbuf l crcOk)
  obtain ⟨g, hg, hno, hl, he, hr⟩ := Chip.cur_of_view hview
  exact ⟨_, g, exec_csiLine_own hon hvc hdt l crcOk, hg, hno, hl, he, hr, hcmds⟩

/-! #### The end of a frame -/

/-- The frame is over; a complete one is told of by number, count and dowel. -/
def Chip.camClosed (c : Chip) (n no : Nat) : Chip :=
  let dropped := match (c.cam n).cur with | some g => g.dropped | none => true
  let c := c.setCam n { c.cam n with cur := none }
  if dropped then c
  else
    let c := (c.setReg (Reg.INTAKE_SEQ n) no).inc (F.INTAKE_WRITTEN_COUNT n)
    (c.setCam n { c.cam n with dropRun := false }).signal 0 (c.q (F.INTAKE_DOWELS_FRAME_DOWEL n)) 0 no

/-- A frame that ends too early is told of. -/
def Chip.camCut (c : Chip) (n : Nat) (f : CamFrame) (early : Bool) : Chip :=
  if early then (c.inc (F.INTAKE_TRUNC_COUNT n)).evOf (camHalf n) 0x0B01 (c.camOwner n) [n, f.no, f.lines] else c

/-- The end of a frame: the missing lines, the header, the close (R412). -/
theorem Chip.camEnd_eq {c : Chip} {n : Nat} {f : CamFrame} (hcur : (c.cam n).cur = some f) (early : Bool) : ∃ (e : Chip) (hdr : List Byte), hdr.length = 64 ∧
    e = (((c.camCut n f early).camPadded n f.lines (c.q (F.INTAKE_SIZE_H n) - f.lines)).camStamp n).2 ∧
    c.camEnd n early = (e.camWrite n (e.camBuf n f.no) hdr).camClosed n f.no := by
  unfold Chip.camEnd
  rw [hcur]
  refine ⟨_, _, ?_, rfl, rfl⟩
  simp only [List.length_append, toLE_length, List.length_replicate]

section
variable {c : Chip} {n : Nat}

theorem Chip.camClosed_idle (no : Nat) : ((c.camClosed n no).cam n).cur = none ∧ ((c.camClosed n no).cam n).no = (c.cam n).no := by
  unfold Chip.camClosed
  extract_lets +onlyGivenNames dropped src d e
  have hd : d.cam n = { c.cam n with cur := none } := Chip.cam_setCam _ _ _
  split
  · exact ⟨congrArg CamSt.cur hd, (congrArg CamSt.no hd).trans rfl⟩
  · have he : e.cam n = { c.cam n with cur := none } := (Chip.put_keeps (fun y => y.cam n) (fun _ _ => rfl) _ _ _).trans ((Chip.setReg_keeps (fun y => y.cam n) (fun _ _ => rfl) _ _ _).trans hd)
    clear_value e d
    have hcam := (EventPart.signal (f := fun y : Chip => y.cam n) (fun _ _ _ _ _ _ _ _ _ _ _ _ => rfl) (e.setCam n { e.cam n with dropRun := false }) 0
      (e.q (F.INTAKE_DOWELS_FRAME_DOWEL n)) 0 no none).trans (Chip.cam_setCam _ _ _)
    exact ⟨(congrArg CamSt.cur hcam).trans (congrArg CamSt.cur he), (congrArg CamSt.no hcam).trans ((congrArg CamSt.no he).trans rfl)⟩

/-- A register of a port that the close of a frame leaves. -/
theorem Chip.q_camClosed {g : RF} (hg : ioReg g.addr) (hseq : g.addr ≠ Reg.INTAKE_SEQ n) (hw : g.addr ≠ Reg.INTAKE_WRITTEN n) (no : Nat) : (c.camClosed n no).q g = c.q g := by
  have hlow : g.addr < 0x10000000 := Nat.lt_trans hg.2 (by decide)
  have hlog : g.addr ≠ Reg.WEAR_LOG_CNT := ne_of_lt (Nat.lt_trans hg.2 (by decide))
  unfold Chip.camClosed
  extract_lets +onlyGivenNames dropped src d e
  have he : e.q g = c.q g := (Chip.q_setReg_ne _ _ hw).trans (Chip.q_setReg_ne _ _ hseq)
  clear_value e
  split
  · rfl
  · have hs : SameField g (e.setCam n { e.cam n with dropRun := false }) (e.setCam n { e.cam n with dropRun := false }) := .refl _
    exact ((hs.signal hlow hlog _ _ _ _ _).q).trans he

/-- A complete frame: its number shown, its count one up. -/
theorem Chip.camClosed_written {g : CamFrame} (hn : n < 16) (hcur : (c.cam n).cur = some g) (hdrop : g.dropped = false) (no : Nat) :
    (c.camClosed n no).reg (Reg.INTAKE_SEQ n) = no % 2 ^ 32 ∧
      (c.camClosed n no).q (F.INTAKE_WRITTEN_COUNT n) = min (c.q (F.INTAKE_WRITTEN_COUNT n) + 1) (2 ^ 32 - 1) := by
  have hio (a : Nat) (hlo : 0xc00080 + n * 0x1000 ≤ a) (hhi : a < 0xc00088 + n * 0x1000) : a < 0x10000000 ∧ a ≠ Reg.WEAR_LOG_CNT := by
    unfold Reg.WEAR_LOG_CNT
    omega
  have hne : Reg.INTAKE_SEQ n ≠ Reg.INTAKE_WRITTEN n := by unfold Reg.INTAKE_SEQ Reg.INTAKE_WRITTEN; omega
  have hsignal (e : Chip) (x : CamSt) (d : Nat) (r : RF) (hlo : 0xc00080 + n * 0x1000 ≤ r.addr) (hhi : r.addr < 0xc00088 + n * 0x1000) :
      ((e.setCam n x).signal 0 d 0 no).q r = e.q r :=
    ((SameField.refl (e.setCam n x)).signal (hio _ hlo hhi).1 (hio _ hlo hhi).2 _ _ _ _ _).q
  unfold Chip.camClosed
  rw [hcur]
  dsimp only
  rw [hdrop, if_neg Bool.false_ne_true]
  constructor
  · rw [← Chip.q_word]
    refine (hsignal _ _ _ ⟨Reg.INTAKE_SEQ n, 0, 32⟩ (by show _ ≤ Reg.INTAKE_SEQ n; unfold Reg.INTAKE_SEQ; omega) (by show Reg.INTAKE_SEQ n < _; unfold Reg.INTAKE_SEQ; omega)).trans ?_
    exact (Chip.q_setReg_ne _ _ hne).trans ((Chip.q_word _ _).trans (Chip.reg_setReg_same _ _ _))
  · refine (hsignal _ _ _ (F.INTAKE_WRITTEN_COUNT n) (by show _ ≤ Reg.INTAKE_WRITTEN n; unfold Reg.INTAKE_WRITTEN; omega)
      (by show Reg.INTAKE_WRITTEN n < _; unfold Reg.INTAKE_WRITTEN; omega)).trans ?_
    refine (Chip.q_inc_same _ _ (by exact Nat.le_of_ble_eq_true rfl)).trans ?_
    exact congrArg (fun v => min (v + 1) (2 ^ 32 - 1)) (Chip.q_setReg_ne (c.setCam n _) _ hne.symm)

end

section
variable {c : Chip} {n : Nat} (hn : n < 16) {f : CamFrame} (hcur : (c.cam n).cur = some f) (hbuf : 0x40000000 ≤ c.camBuf n f.no)
include hn hcur hbuf

/-- What the end of a frame leaves before its close. -/
theorem Chip.camEnd_parts (early : Bool) : ∃ (e : Chip) (hdr : List Byte), c.camEnd n early = (e.camWrite n (e.camBuf n f.no) hdr).camClosed n f.no ∧
    0x40000000 ≤ e.camBuf n f.no ∧ e.camView n = c.camView n ∧
    e.q (F.INTAKE_TRUNC_COUNT n) = (if early then (c.inc (F.INTAKE_TRUNC_COUNT n)).q (F.INTAKE_TRUNC_COUNT n) else c.q (F.INTAKE_TRUNC_COUNT n)) := by
  obtain ⟨e, hdr, -, he, heq⟩ := Chip.camEnd_eq hcur early
  have hquiet : ¬ eventReg (Reg.INTAKE_TRUNC n) := ioReg.quiet ⟨by unfold Reg.INTAKE_TRUNC; omega, by unfold Reg.INTAKE_TRUNC; omega⟩
  have hcut {γ : Type} {g : Chip → γ} (h : CamPart n g) (hinc : g (c.inc (F.INTAKE_TRUNC_COUNT n)) = g c) : g (c.camCut n f early) = g c :=
    ite_keeps ((h.raise _ _).trans hinc) rfl
  have hview := hcut (camPart_view n) (Chip.put_keeps (fun y => y.camView n) (fun _ _ => rfl) _ _ _)
  have hno : (c.camCut n f early).camNo n = f.no := by
    rw [Chip.camNo_of_view hview]
    unfold Chip.camNo
    rw [hcur]
  have hbuf' : (c.camCut n f early).camBuf n f.no = c.camBuf n f.no := hcut (camPart_buf hn f.no)
    (Chip.camBuf_of_regs (fun a _ ha => Chip.reg_setReg_ne _ _ (by unfold F.INTAKE_TRUNC_COUNT Reg.INTAKE_TRUNC; dsimp only; omega)) _)
  have htrunc : (c.camCut n f early).q (F.INTAKE_TRUNC_COUNT n) = (if early then (c.inc (F.INTAKE_TRUNC_COUNT n)).q (F.INTAKE_TRUNC_COUNT n) else c.q (F.INTAKE_TRUNC_COUNT n)) := by
    unfold Chip.camCut
    split
    · exact Chip.q_raise _ _ hquiet
    · rfl
  have hbase : 0x40000000 ≤ (c.camCut n f early).camBuf n ((c.camCut n f early).camNo n) := by
    rw [hno, hbuf']
    exact hbuf
  have hkeep {γ : Type} {g : Chip → γ} (h : CamPart n g) : g e = g (c.camCut n f early) := by
    rw [he]
    exact (h.camStamp _).trans (CamPart.camPadded hn h hbase _ _).1
  refine ⟨e, hdr, heq, ?_, (hkeep (camPart_view n)).trans hview, ?_⟩
  · exact le_of_le_of_eq hbuf ((hkeep (camPart_buf hn f.no)).trans hbuf').symm
  · have hreg : CamPart n fun y : Chip => y.reg (Reg.INTAKE_TRUNC n) := camPart_reg ⟨by unfold Reg.INTAKE_TRUNC; omega, by unfold Reg.INTAKE_TRUNC; omega⟩
      (by unfold Reg.INTAKE_TRUNC Reg.INTAKE_DROPPED; omega) (by unfold Reg.INTAKE_TRUNC Reg.INTAKE_ERR; omega) (by unfold Reg.INTAKE_TRUNC Reg.INTAKE_CLAMP_CNT; omega)
    exact (congrArg (fun v => bits v 0 32) (hkeep hreg)).trans htrunc

/-- The end of a frame of a port: none is in progress, and an early end is counted. -/
theorem Chip.camEnd_idle (early : Bool) : ((c.camEnd n early).cam n).cur = none ∧ ((c.camEnd n early).cam n).no = (c.cam n).no ∧
    (c.camEnd n early).q (F.INTAKE_TRUNC_COUNT n) = (if early then (c.inc (F.INTAKE_TRUNC_COUNT n)).q (F.INTAKE_TRUNC_COUNT n) else c.q (F.INTAKE_TRUNC_COUNT n)) := by
  obtain ⟨e, hdr, heq, hbuf, hview, htrunc⟩ := Chip.camEnd_parts hn hcur hbuf early
  have hio : ioReg (Reg.INTAKE_TRUNC n) := ⟨by unfold Reg.INTAKE_TRUNC; omega, by unfold Reg.INTAKE_TRUNC; omega⟩
  have hreg : CamPart n fun y : Chip => y.reg (Reg.INTAKE_TRUNC n) := camPart_reg hio
    (by unfold Reg.INTAKE_TRUNC Reg.INTAKE_DROPPED; omega) (by unfold Reg.INTAKE_TRUNC Reg.INTAKE_ERR; omega) (by unfold Reg.INTAKE_TRUNC Reg.INTAKE_CLAMP_CNT; omega)
  rw [heq]
  obtain ⟨hnone, hno⟩ := Chip.camClosed_idle (c := e.camWrite n (e.camBuf n f.no) hdr) (n := n) f.no
  refine ⟨hnone, hno.trans (congrArg Prod.fst (((camPart_view n).camWrite e hbuf hdr).trans hview)), ?_⟩
  refine (Chip.q_camClosed (g := F.INTAKE_TRUNC_COUNT n) hio (by show Reg.INTAKE_TRUNC n ≠ _; unfold Reg.INTAKE_TRUNC Reg.INTAKE_SEQ; omega)
    (by show Reg.INTAKE_TRUNC n ≠ _; unfold Reg.INTAKE_TRUNC Reg.INTAKE_WRITTEN; omega) f.no).trans ?_
  exact (congrArg (fun v => bits v 0 32) (hreg.camWrite e hbuf hdr)).trans htrunc

end

theorem Chip.engineCause_free (c : Chip) (k : Nat) (i : Initiator) (w : Bool) (a n : Nat) (far : Far) :
    ({ c with freeCnt := k } : Chip).engineCause i w a n far = c.engineCause i w a n far := rfl

/-- Clause 4: a frame end that is missing. -/
theorem frameTimesOut (n : Fin 16) (f : CamFrame) (s : State) :
    let c := s.chip
    c.camOn n = true → (c.cam n).cur = some f → 0x40000000 ≤ c.camBuf n f.no →
    ((c.q (F.INTAKE_RATE_TIMEOUT_MS n) * 1000 * usUnits : Nat) : Int) ≤ elapsed (c.stamp (camHalf n) 0) f.lastAt →
    ∃ t, exec (.frameEndTimeout n) s = .next (s.withChip t) ∧ (t.cam n).cur = none ∧ (t.cam n).no = (c.cam n).no ∧
      t.q (F.INTAKE_TRUNC_COUNT n) = min (c.q (F.INTAKE_TRUNC_COUNT n) + 1) (2 ^ 32 - 1) := by
  intro c hon hcur hbuf hdue
  obtain ⟨hnone, hno, htrunc⟩ := Chip.camEnd_idle n.isLt hcur hbuf true
  exact ⟨_, exec_frameEndTimeout_due hon hcur hdue, hnone, hno, htrunc.trans (Chip.q_inc_same _ _ (Nat.le_of_ble_eq_true rfl))⟩

/-- Clause 3: a frame ends complete. -/
theorem frameEnds (n vc : Fin 16) (f : CamFrame) (s : State) :
    let c := s.chip
    c.camOn n = true → c.q (F.INTAKE_FMT_VC n) = vc → (c.cam n).cur = some f → f.lines = c.q (F.INTAKE_SIZE_H n) → f.dropped = false →
    0x40000000 ≤ c.camBuf n f.no → c.engineCause (c.camBus n) true (c.camBuf n f.no) 64 .answered = none →
    ∃ t, exec (.csiFrameEnd n vc) s = .next (s.withChip t) ∧ (t.cam n).cur = none ∧ (t.cam n).no = (c.cam n).no ∧
      t.reg (Reg.INTAKE_SEQ n) = f.no % 2 ^ 32 ∧
      t.q (F.INTAKE_WRITTEN_COUNT n) = min (c.q (F.INTAKE_WRITTEN_COUNT n) + 1) (2 ^ 32 - 1) := by
  intro c hon hvc hcur hlines hdrop hbuf hcause
  obtain ⟨hnone, hno, -⟩ := Chip.camEnd_idle n.isLt hcur hbuf false
  obtain ⟨e, hdr, hlen, he, heq⟩ := Chip.camEnd_eq hcur false
  have he' : e = (c.camStamp n).2 := by
    rw [he, ← hlines, Nat.sub_self]
    rfl
  have hecam : e.cam n = c.cam n := by rw [he']; rfl
  have hebuf : e.camBuf n f.no = c.camBuf n f.no := by rw [he']; rfl
  have hewritten : e.q (F.INTAKE_WRITTEN_COUNT n) = c.q (F.INTAKE_WRITTEN_COUNT n) := by rw [he']; rfl
  have hecause : e.engineCause (e.camBus n) true (e.camBuf n f.no) 64 .answered = none := by
    rw [he']
    exact (c.engineCause_free _ _ _ _ _ _).trans hcause
  have hput : e.camWrite n (e.camBuf n f.no) hdr = e.enginePut none (e.camBus n) (e.camBuf n f.no) hdr 0x31 := by
    unfold Chip.camWrite
    rw [hecam, hcur]
    dsimp only
    rw [hdrop, if_neg Bool.false_ne_true, hlen, hecause]
  have habove : 0x40000000 ≤ e.camBuf n f.no := by rw [hebuf]; exact hbuf
  have hcam : (e.camWrite n (e.camBuf n f.no) hdr).cam n = c.cam n := by
    rw [hput]
    exact (Chip.enginePut_keeps (f := fun y : Chip => y.cam n) (fun y v => EventPart.raise (f := fun y : Chip => y.cam n) (fun _ _ _ _ _ _ _ _ _ _ _ _ => rfl) y v)
      (fun y a bs => EventPart.store (f := fun y : Chip => y.cam n) (fun _ _ _ _ _ _ _ _ _ _ _ _ => rfl) y a bs) (fun _ _ => rfl) e none _ habove hdr _).trans hecam
  have hreg : CamPart n.val fun y : Chip => y.reg (Reg.INTAKE_WRITTEN n) := camPart_reg ⟨by unfold Reg.INTAKE_WRITTEN; omega, by unfold Reg.INTAKE_WRITTEN; omega⟩
    (by unfold Reg.INTAKE_WRITTEN Reg.INTAKE_DROPPED; omega) (by unfold Reg.INTAKE_WRITTEN Reg.INTAKE_ERR; omega) (by unfold Reg.INTAKE_WRITTEN Reg.INTAKE_CLAMP_CNT; omega)
  have hwritten : (e.camWrite n (e.camBuf n f.no) hdr).q (F.INTAKE_WRITTEN_COUNT n) = c.q (F.INTAKE_WRITTEN_COUNT n) :=
    (congrArg (fun v => bits v 0 32) (hreg.camWrite e habove hdr)).trans hewritten
  obtain ⟨hseq, hcount⟩ := Chip.camClosed_written n.isLt ((congrArg CamSt.cur hcam).trans hcur) hdrop f.no
  rw [heq] at hnone hno
  refine ⟨_, (exec_csiFrameEnd_own hon hvc).trans (congrArg (fun k => Host.Outcome.next (s.withChip k)) heq), hnone, hno, hseq, ?_⟩
  rw [hcount, hwritten]

end Machine

end Sys2Proof

/-! PROOF. The displays: blanking, the safety buffer, active lines (R419–R422). -/

namespace Sys2Proof

namespace Machine

/-! ### What reads leave of the displays -/

/-- A register of the camera, display or bridge blocks that no completion writes. -/
theorem readPart_io {a : Nat} (ha : ioReg a) (hoff : a % 0x80000 ≠ 8) : ReadPart fun y : Chip => y.reg a where
  raise c e := c.reg_raise e ha.quiet
  reg c b v hb := c.reg_setReg_ne v fun e => hb (e ▸ ha)
  complete c m k := by
    rw [← Chip.q_word, ← Chip.q_word]
    obtain ⟨hlo, hhi⟩ := ha
    have hhalf := idx_le m.half
    refine ((SameField.refl (g := ⟨a, 0, 32⟩) c).complete (m := m) ⟨?_, ?_, fun _ => ⟨?_, ?_⟩, fun _ => ?_⟩ k).q
    · exact Nat.lt_trans hhi (by decide)
    · exact ne_of_lt (Nat.lt_trans hhi (by decide))
    · show a ≠ _
      unfold Reg.ATTN_CMD_CNT_LO
      omega
    · show a ≠ _
      unfold Reg.ATTN_CMD_CNT_HI
      omega
    · show a ≠ _
      unfold Reg.PARTING_STATUS
      omega
  state _ _ _ _ _ _ _ _ _ _ _ _ := rfl
  loops _ _ _ := rfl
  work _ _ _ _ _ _ := rfl

theorem readPart_scan (d : Nat) : ReadPart fun y : Chip => y.scan d where
  raise c e := EventPart.raise (f := fun y : Chip => y.scan d) (fun _ _ _ _ _ _ _ _ _ _ _ _ => rfl) c e
  reg c a v _ := Chip.setReg_keeps (fun y => y.scan d) (fun _ _ => rfl) c a v
  complete c m k := Chip.complete_part (f := fun y : Chip => y.scan d) (fun _ _ _ _ _ _ _ _ _ _ _ _ => rfl) (fun _ _ => rfl) c m k
  state _ _ _ _ _ _ _ _ _ _ _ _ := rfl
  loops _ _ _ := rfl
  work _ _ _ _ _ _ := rfl

theorem ReadPart.safeRead {γ : Type} {f : Chip → γ} (h : ReadPart f) (c : Chip) (d : Nat) (o : Seen) : f (c.safeRead d o).2 = f c := by
  have hr := h.engineRead c (scanHalf d) (c.q (F.SCAN_SAFE_CFG_SAFE_SLOT d)) (c.safeBytes d) o
  unfold Chip.safeRead
  dsimp only
  split
  all_goals
    next hread =>
      rw [hread] at hr
      exact hr

/-- A field of a display's registers beside `SCAN_H` and `SCAN_V`. -/
structure ScanField (d : Nat) (g : RF) : Prop where
  lo : 0xc80000 + d * 0x1000 ≤ g.addr
  hi : g.addr < 0xc81000 + d * 0x1000
  off : g.addr ≠ 0xc80008 + d * 0x1000

theorem ScanField.io {d : Nat} (hd : d < 4) {g : RF} (h : ScanField d g) : ioReg g.addr ∧ g.addr % 0x80000 ≠ 8 := by
  obtain ⟨hlo, hhi, hoff⟩ := h
  unfold ioReg
  omega

/-! ### Blanking and the safety buffer -/

theorem Chip.dowel_setReg_ne (c : Chip) {a k : Nat} (v : Nat) (ha : a < 0x20000000) : (c.setReg a v).dowel k = c.dowel k := by
  have hlo : Reg.DOWEL_VAL_LO k ≠ a := by unfold Reg.DOWEL_VAL_LO; omega
  have hhi : Reg.DOWEL_VAL_HI k ≠ a := by unfold Reg.DOWEL_VAL_HI; omega
  unfold Chip.dowel Chip.pair
  rw [Chip.reg_setReg_ne _ _ hlo, Chip.reg_setReg_ne _ _ hhi]

theorem SameField.setScan {g : RF} {c e : Chip} (h : SameField g c e) (d : Nat) (x : ScanSt) : SameField g c (e.setScan d x) := h.trans (.of_regs rfl rfl)

section
variable {s : State} {d : Fin 4}

theorem exec_cameraPhyLockChange_change {n : Fin 16} {b : Bool} (hlost : (s.chip.cam n).phyLost = b) (hdown : s.chip.down.get (camHalf n) = false) :
    exec (.cameraPhyLockChange n b) s =
      .next (s.withChip ((s.chip.setCam n { s.chip.cam n with phyLost := !b }).ev (camHalf n) 0x0B04 [n.val, if b then 2 else 1])) := by
  have hexec : exec (.cameraPhyLockChange n b) s = execCameraPhyLockChange n b s := rfl
  unfold execCameraPhyLockChange at hexec
  exact hexec.trans ((if_neg fun hc => hc.elim (fun hx => (Bool.eq_not_self b).1 (hlost.symm.trans hx)) (Bool.eq_false_iff.1 hdown)).trans (s.go_eq _))

theorem exec_hotPlug_change {b : Bool} (hstop : (s.chip.scan d).stopped = b) (hdown : s.chip.down.get (scanHalf d) = false) :
    exec (.hotPlug d b) s = .next (s.withChip ((s.chip.setScan d { s.chip.scan d with stopped := !b }).ev (scanHalf d) 0x0B10
      [d.val, b2n b, s.chip.q (F.SCAN_LINK_RATE d)])) := by
  have hexec : exec (.hotPlug d b) s = execHotPlug d b s := rfl
  unfold execHotPlug at hexec
  exact hexec.trans ((if_neg fun hc => hc.elim (fun hx => (Bool.eq_not_self b).1 (hstop.symm.trans hx)) (Bool.eq_false_iff.1 hdown)).trans (s.go_eq _))

/-- What a display holds from its vertical blanking on. -/
def ScanSt.blanked (x : ScanSt) (p : Nat) (got : Option (Nat × List Byte)) : ScanSt :=
  { x with next := if x.shown < p then some p else none, blank := p == 0, missed := 0, read := got }

theorem ScanSt.shown_blanked (x : ScanSt) (p : Nat) (got : Option (Nat × List Byte)) : (x.blanked p got).shown = x.shown := rfl

/-- A display at its vertical blanking, the safety slot read or not. -/
def Chip.blanked (c : Chip) (d p : Nat) (got : Option (Nat × List Byte)) : Chip :=
  let e := c.setScan d ((c.scan d).blanked p got)
  if (c.scan d).shown < p then e.signal 0 (e.q (F.SCAN_MAIN_DOWELS_RELEASE d)) 0 (p - 1) else e

theorem exec_vblankStart_on (hon : s.chip.scanOn d = true) (o : Seen) : ∃ (e : Chip) (got : Option (Nat × List Byte)),
    exec (.vblankStart d o) s = .next (s.withChip (e.blanked d (s.chip.dowel (s.chip.q (F.SCAN_MAIN_DOWELS_PRESENT d))) got)) ∧
      ∀ {γ : Type} {f : Chip → γ}, ReadPart f → f e = f (s.chip.inc (F.SCAN_FRAME_COUNT d)) := by
  have hexec : exec (.vblankStart d o) s = execVblankStart d s o := rfl
  unfold execVblankStart at hexec
  have hp : (s.chip.inc (F.SCAN_FRAME_COUNT d)).dowel ((s.chip.inc (F.SCAN_FRAME_COUNT d)).q (F.SCAN_MAIN_DOWELS_PRESENT d)) =
      s.chip.dowel (s.chip.q (F.SCAN_MAIN_DOWELS_PRESENT d)) := by
    have hq : (s.chip.inc (F.SCAN_FRAME_COUNT d)).q (F.SCAN_MAIN_DOWELS_PRESENT d) = s.chip.q (F.SCAN_MAIN_DOWELS_PRESENT d) := Chip.q_setReg_ne _ _ (by
      show Reg.SCAN_MAIN_DOWELS d ≠ Reg.SCAN_FRAME d
      unfold Reg.SCAN_MAIN_DOWELS Reg.SCAN_FRAME
      omega)
    rw [hq]
    exact Chip.dowel_setReg_ne _ _ (by show Reg.SCAN_FRAME d < _; unfold Reg.SCAN_FRAME; omega)
  have hrun := hexec.trans (if_neg (not_not.2 hon))
  dsimp only at hrun
  rw [hp] at hrun
  by_cases hsafe : (s.chip.inc (F.SCAN_FRAME_COUNT d)).on (F.SCAN_SAFE_CFG_ENABLE d) = true
  · rw [if_pos hsafe] at hrun
    exact ⟨_, _, hrun.trans (s.go_eq _), fun h => h.safeRead _ _ _⟩
  · rw [if_neg hsafe] at hrun
    exact ⟨_, _, hrun.trans (s.go_eq _), fun _ => rfl⟩

theorem Chip.blanked_scan (c : Chip) (d p : Nat) (got : Option (Nat × List Byte)) : (c.blanked d p got).scan d = (c.scan d).blanked p got := by
  unfold Chip.blanked
  extract_lets e
  have he : e.scan d = (c.scan d).blanked p got := Chip.scan_setScan _ _ _
  clear_value e
  have hs := (EventPart.signal (f := fun y : Chip => y.scan d) (fun _ _ _ _ _ _ _ _ _ _ _ _ => rfl) e 0 (e.q (F.SCAN_MAIN_DOWELS_RELEASE d)) 0 (p - 1) none).trans he
  split
  · exact hs
  · exact he

theorem Chip.blanked_q {g : RF} (hg : ioReg g.addr) (c : Chip) (d p : Nat) (got : Option (Nat × List Byte)) : (c.blanked d p got).q g = c.q g := by
  have hlow : g.addr < 0x10000000 := Nat.lt_trans hg.2 (by decide)
  have hlog : g.addr ≠ Reg.WEAR_LOG_CNT := ne_of_lt (Nat.lt_trans hg.2 (by decide))
  unfold Chip.blanked
  extract_lets e
  have he : SameField g c e := (SameField.refl (g := g) c).setScan d _
  clear_value e
  split
  · exact (he.signal hlow hlog _ _ _ _ _).q
  · exact he.q

/-- Clause 8: vertical blanking. -/
theorem displayBlanked (d : Fin 4) (o : Seen) (s : State) :
    let c := s.chip
    let p := c.dowel (c.q (F.SCAN_MAIN_DOWELS_PRESENT d))
    c.scanOn d = true →
    ∃ t, exec (.vblankStart d o) s = .next (s.withChip t) ∧ (t.scan d).next = (if (c.scan d).shown < p then some p else none) ∧ (t.scan d).blank = (p == 0) ∧
      (t.scan d).shown = (c.scan d).shown ∧ t.q (F.SCAN_FRAME_COUNT d) = min (c.q (F.SCAN_FRAME_COUNT d) + 1) (2 ^ 32 - 1) := by
  intro c p hon
  obtain ⟨e, got, hexec, hkeep⟩ := exec_vblankStart_on hon o
  have hscan : e.scan d = c.scan d := (hkeep (readPart_scan d)).trans (Chip.put_keeps (fun y => y.scan d) (fun _ _ => rfl) _ _ _)
  have hfield : ScanField d (F.SCAN_FRAME_COUNT d) := by
    constructor <;> (show _ ; unfold F.SCAN_FRAME_COUNT Reg.SCAN_FRAME; dsimp only; omega)
  obtain ⟨hio, hoff⟩ := hfield.io d.isLt
  have hcount : e.q (F.SCAN_FRAME_COUNT d) = (c.inc (F.SCAN_FRAME_COUNT d)).q (F.SCAN_FRAME_COUNT d) := congrArg (fun v => bits v 0 32) (hkeep (readPart_io hio hoff))
  have ht : (e.blanked d p got).scan d = (c.scan d).blanked p got := (e.blanked_scan d p got).trans (by rw [hscan])
  have hframe : (e.blanked d p got).q (F.SCAN_FRAME_COUNT d) = min (c.q (F.SCAN_FRAME_COUNT d) + 1) (2 ^ 32 - 1) :=
    (Chip.blanked_q hio e d p got).trans (hcount.trans (Chip.q_inc_same _ _ (Nat.le_of_ble_eq_true rfl)))
  exact ⟨_, hexec, congrArg ScanSt.next ht, congrArg ScanSt.blank ht, (congrArg ScanSt.shown ht).trans (ScanSt.shown_blanked _ _ _), hframe⟩

/-- The state of a display whose read of the safety slot has failed. -/
def ScanSt.failed (x : ScanSt) (hold : Nat) : ScanSt :=
  { x with read := none, fails := min (x.fails + 1) 15, heldRun := true, failing := x.failing || (decide (hold ≤ min (x.fails + 1) 15) || x.safe.isNone) }

theorem exec_safetyBufferSwap_good {st : Nat} {bs : List Byte} (hread : (s.chip.scan d).read = some (st, bs)) (hgood : st = Status.done.code ∧ s.chip.safeBytes d ≤ bs.length) :
    exec (.safetyBufferSwap d) s =
      .next (s.withChip (s.chip.setScan d { s.chip.scan d with safe := some bs, read := none, fails := 0, heldRun := false, failing := false })) := by
  have hexec : exec (.safetyBufferSwap d) s = execSafetyBufferSwap d s := rfl
  unfold execSafetyBufferSwap at hexec
  simp only [hread] at hexec
  exact hexec.trans ((if_pos hgood).trans (s.go_eq _))

theorem exec_safetyBufferSwap_bad {st : Nat} {bs : List Byte} (hread : (s.chip.scan d).read = some (st, bs)) (hbad : ¬ (st = Status.done.code ∧ s.chip.safeBytes d ≤ bs.length)) :
    ∃ t, exec (.safetyBufferSwap d) s = .next (s.withChip t) ∧ t.scan d = (s.chip.scan d).failed (s.chip.q (F.SCAN_SAFE_CFG_SAFE_HOLD d)) := by
  have hexec : exec (.safetyBufferSwap d) s = execSafetyBufferSwap d s := rfl
  unfold execSafetyBufferSwap at hexec
  simp only [hread] at hexec
  have hev (c : Chip) (k : Half) (code : Nat) (l : List Nat) : (c.ev k code l).scan d = c.scan d :=
    EventPart.ev (f := fun y : Chip => y.scan d) (fun _ _ _ _ _ _ _ _ _ _ _ _ => rfl) c k code l
  refine ⟨_, hexec.trans ((if_neg hbad).trans (s.go_eq _)), ?_⟩
  have hheld (x : ScanSt) : ((s.chip.setScan d x).inc (F.SCAN_SAFE_HELD_COUNT d)).scan d = x :=
    (Chip.put_keeps (fun y => y.scan d) (fun _ _ => rfl) _ _ _).trans (Chip.scan_setScan _ _ _)
  have hite {p q : Prop} [Decidable p] [Decidable q] (e : Chip) (he : e.scan d = (s.chip.scan d).failed (s.chip.q (F.SCAN_SAFE_CFG_SAFE_HOLD d))) (l m : List Nat) :
      (if p then (if q then e else e.ev (scanHalf d) 0x0B12 l).ev (scanHalf d) 0x0B13 m else (if q then e else e.ev (scanHalf d) 0x0B12 l)).scan d =
        (s.chip.scan d).failed (s.chip.q (F.SCAN_SAFE_CFG_SAFE_HOLD d)) := by
    have hin : (if q then e else e.ev (scanHalf d) 0x0B12 l).scan d = (s.chip.scan d).failed (s.chip.q (F.SCAN_SAFE_CFG_SAFE_HOLD d)) := by
      split
      · exact he
      · exact (hev _ _ _ _).trans he
    split
    · exact (hev _ _ _ _).trans hin
    · exact hin
  exact hite _ (hheld _) _ _

/-- Clause 9: the safety buffer. -/
theorem safetySwapped (d : Fin 4) (st : Nat) (bs : List Byte) (s : State) :
    let c := s.chip
    (c.scan d).read = some (st, bs) →
    ∃ t, exec (.safetyBufferSwap d) s = .next (s.withChip t) ∧ (t.scan d).read = none ∧
      (st = Status.done.code → c.safeBytes d ≤ bs.length → (t.scan d).safe = some bs ∧ (t.scan d).failing = false) ∧
      (st ≠ Status.done.code ∨ bs.length < c.safeBytes d → (t.scan d).safe = (c.scan d).safe ∧ (t.scan d).fails = min ((c.scan d).fails + 1) 15 ∧
        (c.q (F.SCAN_SAFE_CFG_SAFE_HOLD d) ≤ (t.scan d).fails → (t.scan d).failing = true)) := by
  intro c hread
  by_cases hgood : st = Status.done.code ∧ c.safeBytes d ≤ bs.length
  · have hscan := c.scan_setScan d { c.scan d with safe := some bs, read := none, fails := 0, heldRun := false, failing := false }
    exact ⟨_, exec_safetyBufferSwap_good hread hgood, congrArg ScanSt.read hscan, fun _ _ => ⟨congrArg ScanSt.safe hscan, congrArg ScanSt.failing hscan⟩,
      fun hbad => absurd hgood fun h => hbad.elim (fun hn => hn h.1) fun hl => Nat.not_le.2 hl h.2⟩
  · obtain ⟨t, hexec, hscan⟩ := exec_safetyBufferSwap_bad hread hgood
    refine ⟨t, hexec, congrArg ScanSt.read hscan, fun hst hlen => absurd ⟨hst, hlen⟩ hgood, fun _ => ⟨(congrArg ScanSt.safe hscan).trans rfl, congrArg ScanSt.fails hscan, fun hhold => ?_⟩⟩
    rw [hscan] at hhold ⊢
    have hdec : decide (c.q (F.SCAN_SAFE_CFG_SAFE_HOLD d) ≤ min ((c.scan d).fails + 1) 15) = true := decide_eq_true hhold
    show ((c.scan d).failing || (decide (c.q (F.SCAN_SAFE_CFG_SAFE_HOLD d) ≤ min ((c.scan d).fails + 1) 15) || (c.scan d).safe.isNone)) = true
    rw [hdec, Bool.true_or, Bool.or_true]

/-! ### Active lines -/

/-- What a display shows from an active line on. -/
def ScanSt.shows (x : ScanSt) : ScanSt := match x.next with | some p => { x with shown := p, next := none } | none => x

/-- A line of a frame that could not be read in time. -/
def Chip.lineMissed (c : Chip) (d : Nat) (x : ScanSt) : Chip :=
  let e := (c.setScan d { x with missed := x.missed + 1 }).inc (F.SCAN_UNDERRUN_COUNT d)
  if x.missed = 0 then e.evOf (scanHalf d) 0x0B11 (BitVec.ofNat 13 (e.q (F.SCAN_MAIN_CFG_OWNER d))) [d, x.shown, x.missed + 1] else e

/-- Whether a line lies in the safety rectangle. -/
def Chip.safeLine (c : Chip) (d y : Nat) : Bool :=
  c.on (F.SCAN_SAFE_CFG_ENABLE d) && decide (c.q (F.SCAN_SAFE_POS_SAFE_Y d) ≤ y ∧ y < c.q (F.SCAN_SAFE_POS_SAFE_Y d) + c.q (F.SCAN_SAFE_SIZE_SAFE_H d))

/-- A pixel of a line: of the main layer, or under the safety layer. -/
def Chip.linePixel (c : Chip) (d y : Nat) (main : List (Nat × Nat × Nat)) (k : Nat) : Nat × Nat × Nat :=
  let m := main.getD k (0, 0, 0)
  if c.safeLine d y ∧ c.q (F.SCAN_SAFE_POS_SAFE_X d) ≤ k ∧ k < c.q (F.SCAN_SAFE_POS_SAFE_X d) + c.q (F.SCAN_SAFE_SIZE_SAFE_W d) then
    let p := c.safePixel d ((y - c.q (F.SCAN_SAFE_POS_SAFE_Y d)) * c.q (F.SCAN_SAFE_SIZE_SAFE_W d) + (k - c.q (F.SCAN_SAFE_POS_SAFE_X d)))
    (blend p.1 p.2.1 m.1, blend p.1 p.2.2.1 m.2.1, blend p.1 p.2.2.2 m.2.2)
  else m

/-- A line composited, and fed to the check-value units where it meets the safety rectangle (R422). -/
def Chip.lineOut (c : Chip) (d y w : Nat) (main : List (Nat × Nat × Nat)) : Chip :=
  let line := (List.range w).map (c.linePixel d y main)
  let e := c.setScan d { c.scan d with out := line }
  if c.safeLine d y then e.feedScanout d y ((line.drop (c.q (F.SCAN_SAFE_POS_SAFE_X d))).take (c.q (F.SCAN_SAFE_SIZE_SAFE_W d))) else e

/-- The line is dark: nothing is to be shown. -/
def ScanSt.dark (x : ScanSt) : Bool := x.blank || x.shown == 0

/-- The read of a line's main layer: the chip after it, the bytes it gave, the pixels. -/
def Chip.lineRead (c : Chip) (d y : Nat) (x : ScanSt) (late : Bool) (o : Seen) : Chip × Option (List Byte) × List (Nat × Nat × Nat) :=
  let w := c.q (F.SCAN_H_ACTIVE d)
  let n := c.mainBytes d
  let own : Owner := BitVec.ofNat 13 (c.q (F.SCAN_MAIN_CFG_OWNER d))
  let a := c.mainLine d x.shown y
  let wanted := !x.dark && !late
  let why := if wanted then c.rangeCause own false a (w * n) else none
  let r := c.sight (if wanted ∧ why.isNone then [(a, w * n)] else []) o
  let got : Option (List Byte) := if wanted ∧ why.isNone ∧ r.1.lost.isNone then some (if r.1.wrong then r.2.freeBytes (w * n) else r.2.load a (w * n)) else none
  let c : Chip := { r.2 with freeCnt := r.2.freeCnt + b2n r.1.wrong }
  let main : List (Nat × Nat × Nat) := match x.dark, got with
    | false, some bs => (List.range w).map fun k => c.mainPixel d (leNat ((bs.drop (n * k)).take n))
    | _, _ => List.replicate w (c.background d)
  (match why with
    | some e => c.refusalEvent (scanHalf d) none own e.1 e.2 0x32
    | none => if wanted then c.touched (scanHalf d) none own a (w * n) 0x32 else c, got, main)

/-- The chip after a line has been read or missed, before it is composited. -/
def Chip.lineShown (c : Chip) (d y : Nat) (x : ScanSt) (late : Bool) (o : Seen) : Chip :=
  let r := c.lineRead d y x late o
  if x.dark = true ∨ r.2.1.isSome then r.1 else r.1.lineMissed d x

theorem exec_activeLine_on (hon : s.chip.scanOn d = true) (y : Fin 65536) (hy : y.val < s.chip.q (F.SCAN_V_ACTIVE d)) (late : Bool) (o : Seen) :
    let x := (s.chip.scan d).shows
    let c := s.chip.setScan d x
    exec (.activeLine d y late o) s = .next (s.withChip ((c.lineShown d y x late o).lineOut d y (s.chip.q (F.SCAN_H_ACTIVE d)) (c.lineRead d y x late o).2.2)) := by
  intro x c
  have hexec : exec (.activeLine d y late o) s = execActiveLine d y late s o := rfl
  unfold execActiveLine at hexec
  have hrun := hexec.trans (if_neg fun hc => hc.elim (fun hx => hx hon) (Nat.not_le.2 hy))
  refine hrun.trans ((Eq.trans ?_ (s.go_eq _)))
  rfl

end

theorem Chip.touched_keeps {γ : Type} {f : Chip → γ} (hr : ∀ c e, f (c.raise e) = f c) (hp : ∀ c y, f { c with pcieOut := y } = f c) (c : Chip) (k : Half) (m : Option Cmd)
    (o : Owner) (a n engine : Nat) : f (c.touched k m o a n engine) = f c := by
  unfold Chip.touched
  extract_lets e
  have he : f e = f c := ite_keeps rfl (ite_keeps (hp _ _) rfl)
  refine (Chip.badEntries_keeps hr _ _ _ _ _ _ _).trans (Eq.trans ?_ he)
  exact ite_keeps rfl (Chip.evBy_keeps hr _ _ _ _ _ _)

section
variable {c : Chip} {d y : Nat} {x : ScanSt} {late : Bool} {o : Seen}

theorem Chip.lineRead_keeps {γ : Type} {f : Chip → γ} (h : ReadPart f) (hp : ∀ c y, f { c with pcieOut := y } = f c) : f (c.lineRead d y x late o).1 = f c := by
  unfold Chip.lineRead
  extract_lets +onlyGivenNames w n own a wanted why r got src e main
  have hr : f r.2 = f c := h.sight _ _ _
  have he : f e = f c := (h.state r.2 _ _ _ _ _ _ _ _ _ _ _).trans hr
  clear_value e why
  dsimp only
  split
  · exact (h.refusalEvent _ _ _ _ _ _ _).trans he
  · exact (ite_keeps (Chip.touched_keeps h.raise hp _ _ _ _ _ _ _) rfl).trans he

theorem Chip.lineRead_late (hlate : late = true) : (c.lineRead d y x late o).2.1 = none := by
  subst hlate
  unfold Chip.lineRead
  dsimp only
  rw [Bool.not_true, Bool.and_false]
  exact if_neg fun h => Bool.false_ne_true h.1

theorem Chip.background_of_regs {e : Chip} (hbg : e.reg (Reg.SCAN_BG d) = c.reg (Reg.SCAN_BG d)) (hlink : e.reg (Reg.SCAN_LINK d) = c.reg (Reg.SCAN_LINK d)) :
    e.background d = c.background d := by
  have hq : e.q (F.SCAN_BG_RGB d) = c.q (F.SCAN_BG_RGB d) := congrArg (fun v => bits v (F.SCAN_BG_RGB d).lo (F.SCAN_BG_RGB d).wid) hbg
  have hb : e.on (F.SCAN_LINK_BPC d) = c.on (F.SCAN_LINK_BPC d) := congrArg (fun v => bits v (F.SCAN_LINK_BPC d).lo (F.SCAN_LINK_BPC d).wid != 0) hlink
  unfold Chip.background Chip.scanBits
  rw [hq, hb]

/-- The registers of a display are as before its read, but for those that a completion may write. -/
theorem readPart_display (hd : d < 4) {a : Nat} (hlo : 0xc80000 + d * 0x1000 ≤ a) (hhi : a < 0xc81000 + d * 0x1000) (hoff : a ≠ 0xc80008 + d * 0x1000) :
    ReadPart fun y : Chip => y.reg a := by
  refine readPart_io ⟨by omega, by omega⟩ ?_
  omega

theorem Chip.lineRead_dark (hd : d < 4) (hdark : x.dark = true) : (c.lineRead d y x late o).2.2 = List.replicate (c.q (F.SCAN_H_ACTIVE d)) (c.background d) := by
  unfold Chip.lineRead
  extract_lets +onlyGivenNames w n own a wanted why r got src e main
  have hbg : e.background d = c.background d := Chip.background_of_regs
    (((readPart_display hd (a := Reg.SCAN_BG d) (by unfold Reg.SCAN_BG; omega) (by unfold Reg.SCAN_BG; omega) (by unfold Reg.SCAN_BG; omega)).sight c _ o))
    (((readPart_display hd (a := Reg.SCAN_LINK d) (by unfold Reg.SCAN_LINK; omega) (by unfold Reg.SCAN_LINK; omega) (by unfold Reg.SCAN_LINK; omega)).sight c _ o))
  clear_value e got
  show main = _
  unfold main
  rw [hdark, hbg]

/-- What a display holds once a line is composited, but for the line. -/
theorem Chip.lineShown_scan (hscan : c.scan d = x) : (c.lineShown d y x late o).scan d =
    if x.dark = true ∨ (c.lineRead d y x late o).2.1.isSome then x else { x with missed := x.missed + 1 } := by
  have hread : (c.lineRead d y x late o).1.scan d = x := (Chip.lineRead_keeps (readPart_scan d) fun _ _ => rfl).trans hscan
  unfold Chip.lineShown
  extract_lets r
  split
  · exact hread
  · unfold Chip.lineMissed
    extract_lets e
    have he : e.scan d = { x with missed := x.missed + 1 } := (Chip.put_keeps (fun y => y.scan d) (fun _ _ => rfl) _ _ _).trans (Chip.scan_setScan _ _ _)
    clear_value e
    exact (ite_keeps (f := fun y : Chip => y.scan d) (EventPart.evOf (f := fun y : Chip => y.scan d) (fun _ _ _ _ _ _ _ _ _ _ _ _ => rfl) e _ _ _ _) rfl).trans he

/-- A register of a display but its count of missed lines. -/
theorem Chip.lineShown_reg (hd : d < 4) {a : Nat} (hlo : 0xc80000 + d * 0x1000 ≤ a) (hhi : a < 0xc81000 + d * 0x1000) (hoff : a ≠ 0xc80008 + d * 0x1000)
    (hunder : a ≠ Reg.SCAN_UNDERRUN d) : (c.lineShown d y x late o).reg a = c.reg a := by
  have hread : (c.lineRead d y x late o).1.reg a = c.reg a := Chip.lineRead_keeps (readPart_display hd hlo hhi hoff) fun _ _ => rfl
  have hquiet : ¬ eventReg a := ioReg.quiet ⟨by omega, by omega⟩
  unfold Chip.lineShown
  extract_lets r
  split
  · exact hread
  · refine Eq.trans ?_ hread
    unfold Chip.lineMissed
    extract_lets e
    have he : e.reg a = r.1.reg a := Chip.reg_setReg_ne _ _ hunder
    clear_value e
    exact (ite_keeps (f := fun y : Chip => y.reg a) (Chip.reg_raise e _ hquiet) rfl).trans he

/-- A line that could not be read in time is counted. -/
theorem Chip.lineShown_missed (hd : d < 4) (hdark : x.dark = false) (hlate : late = true) :
    (c.lineShown d y x late o).q (F.SCAN_UNDERRUN_COUNT d) = min (c.q (F.SCAN_UNDERRUN_COUNT d) + 1) (2 ^ 32 - 1) := by
  have hread : (c.lineRead d y x late o).1.reg (Reg.SCAN_UNDERRUN d) = c.reg (Reg.SCAN_UNDERRUN d) :=
    Chip.lineRead_keeps (readPart_display hd (by unfold Reg.SCAN_UNDERRUN; omega) (by unfold Reg.SCAN_UNDERRUN; omega) (by unfold Reg.SCAN_UNDERRUN; omega)) fun _ _ => rfl
  have hnone := Chip.lineRead_late (c := c) (d := d) (y := y) (x := x) (o := o) hlate
  have hquiet : ¬ eventReg (Reg.SCAN_UNDERRUN d) := ioReg.quiet ⟨by unfold Reg.SCAN_UNDERRUN; omega, by unfold Reg.SCAN_UNDERRUN; omega⟩
  unfold Chip.lineShown
  dsimp only
  rw [if_neg (by rw [hnone, hdark]; decide)]
  generalize (c.lineRead d y x late o).1 = r at hread
  unfold Chip.lineMissed
  extract_lets e
  have he : e.q (F.SCAN_UNDERRUN_COUNT d) = min (c.q (F.SCAN_UNDERRUN_COUNT d) + 1) (2 ^ 32 - 1) :=
    (Chip.q_inc_same _ _ (Nat.le_of_ble_eq_true rfl)).trans (congrArg (fun v => min (bits v 0 32 + 1) (2 ^ 32 - 1)) hread)
  clear_value e
  exact (ite_keeps (f := fun y : Chip => y.q (F.SCAN_UNDERRUN_COUNT d)) (Chip.q_raise e _ hquiet) rfl).trans he

end

/-- What the check-value units of a display leave. -/
theorem Chip.feedScanout_keeps {γ : Type} {f : Chip → γ} (hr : ∀ c e, f (c.raise e) = f c) (hset : ∀ c a v, 0xD00000 ≤ a → f (c.setReg a v) = f c)
    (hrun : ∀ c y, f { c with cvuRun := y } = f c) (c : Chip) (d y : Nat) (px : List (Nat × Nat × Nat)) : f (c.feedScanout d y px) = f c := by
  have hpair (c : Chip) {lo hi : Nat} (v : Nat) (hlo : 0xD00000 ≤ lo) (hhi : 0xD00000 ≤ hi) : f (c.setPair lo hi v) = f c := (hset _ _ _ hhi).trans (hset _ _ _ hlo)
  have hcvu (c : Chip) (n v : Nat) : f (c.cvuSet n v) = f c := by
    have hval : f (c.setPair (Reg.CVU_VAL_LO n) (Reg.CVU_VAL_HI n) v) = f c := hpair c v (by unfold Reg.CVU_VAL_LO; omega) (by unfold Reg.CVU_VAL_HI; omega)
    unfold Chip.cvuSet
    dsimp only
    split
    · exact (hpair _ _ (by unfold Reg.CVU_RESULT_LO; omega) (by unfold Reg.CVU_RESULT_HI; omega)).trans hval
    · exact hval
  have hlatch (c : Chip) (n : Nat) : f (c.cvuLatch n) = f c := by
    unfold Chip.cvuLatch
    extract_lets +onlyGivenNames r e x
    have he : f e = f c := (hset _ _ _ (by show _ ≤ Reg.CVU_FRAMES n; unfold Reg.CVU_FRAMES; omega)).trans
      (hpair c r (by unfold Reg.CVU_LAST_LO; omega) (by unfold Reg.CVU_LAST_HI; omega))
    clear_value e
    have hok (v : Nat) : f (e.put (F.CVU_STATUS_LAST_OK n) v) = f e := hset _ _ _ (by show _ ≤ Reg.CVU_STATUS n; unfold Reg.CVU_STATUS; omega)
    refine (ite_keeps rfl (ite_keeps ((hrun _ _).trans (hok 1)) ?_)).trans he
    have hmiss : f ((e.put (F.CVU_STATUS_LAST_OK n) 0).inc (F.CVU_MISMATCH_COUNT n)) = f e := (hset _ _ _ (by show _ ≤ Reg.CVU_MISMATCH n; unfold Reg.CVU_MISMATCH; omega)).trans (hok 0)
    exact (ite_keeps (hr _ _) rfl).trans ((hrun _ _).trans hmiss)
  refine foldl_keeps f _ (fun c n => ?_) _ _
  extract_lets e g
  have he : f e = f c := by
    unfold e Chip.cvuInit
    split
    · split
      · exact hcvu _ _ _
      · rfl
    · rfl
  have hg : f g = f e := by
    unfold g Chip.cvuFeed
    split
    · exact hcvu _ _ _
    · rfl
  exact (ite_keeps (hlatch _ _) rfl).trans (hg.trans he)

theorem Chip.scan_lineOut (c : Chip) (d y w : Nat) (main : List (Nat × Nat × Nat)) :
    (c.lineOut d y w main).scan d = { c.scan d with out := (List.range w).map (c.linePixel d y main) } := by
  unfold Chip.lineOut
  extract_lets line src e
  have he : e.scan d = { c.scan d with out := line } := Chip.scan_setScan _ _ _
  clear_value e
  exact (ite_keeps (f := fun y : Chip => y.scan d) (Chip.feedScanout_keeps (f := fun y : Chip => y.scan d)
    (EventPart.raise (f := fun y : Chip => y.scan d) fun _ _ _ _ _ _ _ _ _ _ _ _ => rfl) (fun c a v _ => Chip.setReg_keeps (fun y => y.scan d) (fun _ _ => rfl) c a v)
    (fun _ _ => rfl) e d y _) rfl).trans he

theorem Chip.reg_lineOut (c : Chip) (d y w : Nat) (main : List (Nat × Nat × Nat)) {a : Nat} (ha : a < 0xD00000) : (c.lineOut d y w main).reg a = c.reg a := by
  have hquiet : ¬ eventReg a := by unfold eventReg Reg.WEAR_LOG_CNT; omega
  unfold Chip.lineOut
  extract_lets line src e
  have he : e.reg a = c.reg a := rfl
  clear_value e
  exact (ite_keeps (f := fun y : Chip => y.reg a) (Chip.feedScanout_keeps (f := fun y : Chip => y.reg a) (fun c e => c.reg_raise e hquiet)
    (fun c b v hb => c.reg_setReg_ne v (by omega)) (fun _ _ => rfl) e d y _) rfl).trans he

/-- An opaque colour hides the main layer. -/
theorem blend_opaque (v m : Nat) : blend 255 v m = v := by
  unfold blend
  omega

section
variable {c : Chip} {d y : Nat} {main : List (Nat × Nat × Nat)}

theorem Chip.linePixel_main (hoff : c.safeLine d y = false) (k : Nat) : c.linePixel d y main k = main.getD k (0, 0, 0) := by
  unfold Chip.linePixel
  exact if_neg fun h => Bool.false_ne_true (hoff.symm.trans h.1)

theorem Chip.linePixel_failing {k : Nat} (hin : c.safeLine d y = true) (hlo : c.q (F.SCAN_SAFE_POS_SAFE_X d) ≤ k)
    (hhi : k < c.q (F.SCAN_SAFE_POS_SAFE_X d) + c.q (F.SCAN_SAFE_SIZE_SAFE_W d)) (hfail : (c.scan d).failing = true) :
    c.linePixel d y main k = widen (c.scanBits d) 8 8 8 (bits (c.q (F.SCAN_SAFE_FAIL_ARGB d)) 16 8) (bits (c.q (F.SCAN_SAFE_FAIL_ARGB d)) 8 8)
      (bits (c.q (F.SCAN_SAFE_FAIL_ARGB d)) 0 8) := by
  have hpixel (j : Nat) : c.safePixel d j = (255, widen (c.scanBits d) 8 8 8 (bits (c.q (F.SCAN_SAFE_FAIL_ARGB d)) 16 8) (bits (c.q (F.SCAN_SAFE_FAIL_ARGB d)) 8 8)
      (bits (c.q (F.SCAN_SAFE_FAIL_ARGB d)) 0 8)) := by
    unfold Chip.safePixel
    simp only [hfail]
  unfold Chip.linePixel
  dsimp only
  rw [if_pos ⟨hin, hlo, hhi⟩, hpixel, blend_opaque, blend_opaque, blend_opaque]

end

theorem ScanSt.shows_next (x : ScanSt) : x.shows.next = none ∧ (∀ p, x.next = some p → x.shows.shown = p) ∧ x.shows.shown = x.next.getD x.shown ∧ x.shows.blank = x.blank ∧
    x.shows.failing = x.failing ∧ x.shows.missed = x.missed := by
  unfold ScanSt.shows
  cases hn : x.next with
  | none => exact ⟨hn, fun p h => absurd h.symm (Option.some_ne_none p), rfl, rfl, rfl, rfl⟩
  | some p => exact ⟨rfl, fun q h => Option.some.inj h, rfl, rfl, rfl, rfl⟩

/-- Clause 10: an active line. -/
theorem lineComposited (d : Fin 4) (y : Fin 65536) (late : Bool) (o : Seen) (s : State) :
    let c := s.chip
    c.scanOn d = true → y.val < c.q (F.SCAN_V_ACTIVE d) →
    ∃ t, exec (.activeLine d y late o) s = .next (s.withChip t) ∧ (t.scan d).out.length = c.q (F.SCAN_H_ACTIVE d) ∧ (t.scan d).next = none ∧
      (∀ p, (c.scan d).next = some p → (t.scan d).shown = p) ∧
      ((c.scan d).blank = true ∨ (c.scan d).next.getD (c.scan d).shown = 0 → c.on (F.SCAN_SAFE_CFG_ENABLE d) = false →
        (t.scan d).out = List.replicate (c.q (F.SCAN_H_ACTIVE d)) (c.background d)) ∧
      (late = true → (c.scan d).blank = false → (c.scan d).next.getD (c.scan d).shown ≠ 0 → (t.scan d).missed = (c.scan d).missed + 1 ∧
        t.q (F.SCAN_UNDERRUN_COUNT d) = min (c.q (F.SCAN_UNDERRUN_COUNT d) + 1) (2 ^ 32 - 1)) ∧
      (∀ k, c.on (F.SCAN_SAFE_CFG_ENABLE d) = true → (c.scan d).failing = true → k < c.q (F.SCAN_H_ACTIVE d) →
        c.q (F.SCAN_SAFE_POS_SAFE_X d) ≤ k → k < c.q (F.SCAN_SAFE_POS_SAFE_X d) + c.q (F.SCAN_SAFE_SIZE_SAFE_W d) →
        c.q (F.SCAN_SAFE_POS_SAFE_Y d) ≤ y → y < c.q (F.SCAN_SAFE_POS_SAFE_Y d) + c.q (F.SCAN_SAFE_SIZE_SAFE_H d) →
        bits (c.q (F.SCAN_SAFE_FAIL_ARGB d)) 24 8 = 255 →
        (t.scan d).out[k]? = some (widen (c.scanBits d) 8 8 8 (bits (c.q (F.SCAN_SAFE_FAIL_ARGB d)) 16 8) (bits (c.q (F.SCAN_SAFE_FAIL_ARGB d)) 8 8)
          (bits (c.q (F.SCAN_SAFE_FAIL_ARGB d)) 0 8))) := by
  intro c hon hy
  obtain ⟨hnext, hnew, hshown, hblank, hfailing, hmissed⟩ := (c.scan d).shows_next
  have hexec := exec_activeLine_on hon y hy late o
  dsimp only at hexec
  generalize (c.scan d).shows = x at hexec hnext hnew hshown hblank hfailing hmissed
  have hd := d.isLt
  have hset : (c.setScan d x).scan d = x := Chip.scan_setScan _ _ _
  generalize hc' : c.setScan d x = c' at hexec hset
  have hregs (a : Nat) : c'.reg a = c.reg a := by rw [← hc']; rfl
  have hscan := Chip.lineShown_scan (y := y.val) (late := late) (o := o) hset
  have hq {f : RF} (k : Nat) (hk : f.addr = 0xc80000 + k + d * 0x1000) (hoff : k < 0x1000 ∧ k ≠ 8 ∧ k ≠ 0x84) : (c'.lineShown d y x late o).q f = c.q f := by
    have hu : f.addr ≠ Reg.SCAN_UNDERRUN d := by unfold Reg.SCAN_UNDERRUN; omega
    exact congrArg (fun v => bits v f.lo f.wid) ((Chip.lineShown_reg hd (by omega) (by omega) (by omega) hu).trans (hregs _))
  have hdark : x.dark = true ↔ (c.scan d).blank = true ∨ (c.scan d).next.getD (c.scan d).shown = 0 := by
    unfold ScanSt.dark
    rw [hblank, hshown, Bool.or_eq_true, beq_iff_eq]
  have hen : (c'.lineShown d y x late o).on (F.SCAN_SAFE_CFG_ENABLE d) = c.on (F.SCAN_SAFE_CFG_ENABLE d) := congrArg (· != 0) (hq (f := F.SCAN_SAFE_CFG_ENABLE d) 0x48 rfl (by decide))
  have hlen : ∀ e : Chip, ∀ main, ((List.range (c.q (F.SCAN_H_ACTIVE d))).map (e.linePixel d y main)).length = c.q (F.SCAN_H_ACTIVE d) := fun e main => by
    rw [List.length_map, List.length_range]
  have hmain (hx : x.dark = true) : (c'.lineRead d y x late o).2.2 = List.replicate (c.q (F.SCAN_H_ACTIVE d)) (c.background d) := by
    refine (Chip.lineRead_dark hd hx).trans ?_
    rw [← hc']
    rfl
  have hmiss (hx : x.dark = false) (hl : late = true) := (Chip.lineShown_missed (c := c') (y := y.val) (o := o) hd hx hl).trans
    (congrArg (fun v => min (bits v 0 32 + 1) (2 ^ 32 - 1)) (hregs (Reg.SCAN_UNDERRUN d)))
  have hnone (hl : late = true) := Chip.lineRead_late (c := c') (d := d.val) (y := y.val) (x := x) (o := o) hl
  generalize hg : c'.lineShown d y x late o = g at hexec hscan hq hen hmiss
  generalize (c'.lineRead d y x late o).2.1 = got at hscan hnone
  generalize (c'.lineRead d y x late o).2.2 = main at hexec hmain
  have hout := g.scan_lineOut d y (c.q (F.SCAN_H_ACTIVE d)) main
  have hshows {γ : Type} (π : ScanSt → γ) (hπ : ∀ x m, π { x with missed := m } = π x) (hπ' : ∀ x l, π { x with out := l } = π x) :
      π ((g.lineOut d y (c.q (F.SCAN_H_ACTIVE d)) main).scan d) = π x := by
    rw [hout, hπ', hscan]
    split
    · rfl
    · exact hπ _ _
  refine ⟨_, hexec, ?_, ?_, ?_, ?_, ?_, ?_⟩
  · rw [hout]
    exact hlen _ _
  · exact (hshows ScanSt.next (fun _ _ => rfl) fun _ _ => rfl).trans hnext
  · exact fun p hp => (hshows ScanSt.shown (fun _ _ => rfl) fun _ _ => rfl).trans (hnew p hp)
  · intro hx hoff
    have hsafe : g.safeLine d y = false := by
      unfold Chip.safeLine
      rw [hen, hoff, Bool.false_and]
    rw [hout]
    refine List.eq_replicate_iff.2 ⟨hlen _ _, fun v hv => ?_⟩
    obtain ⟨k, hk, rfl⟩ := List.mem_map.1 hv
    rw [Chip.linePixel_main hsafe, hmain (hdark.2 hx), List.getD_eq_getElem?_getD, List.getElem?_replicate, if_pos (List.mem_range.1 hk)]
    rfl
  · intro hl hblank' hshown'
    have hx : x.dark = false := Bool.eq_false_iff.2 fun h => (hdark.1 h).elim (fun h => Bool.false_ne_true (hblank'.symm.trans h)) hshown'
    refine ⟨?_, ?_⟩
    · rw [hout, hscan, hnone hl, hx, if_neg (by decide)]
      exact congrArg (· + 1) hmissed
    · refine (congrArg (fun v => bits v 0 32) (g.reg_lineOut d y _ main ?_)).trans (hmiss hx hl)
      show Reg.SCAN_UNDERRUN d < _
      unfold Reg.SCAN_UNDERRUN
      omega
  · intro k hon' hfail hk hlo hhi hylo hyhi _
    have hposx := hq (f := F.SCAN_SAFE_POS_SAFE_X d) 0x40 rfl (by decide)
    have hposy := hq (f := F.SCAN_SAFE_POS_SAFE_Y d) 0x40 rfl (by decide)
    have hsizew := hq (f := F.SCAN_SAFE_SIZE_SAFE_W d) 0x44 rfl (by decide)
    have hsizeh := hq (f := F.SCAN_SAFE_SIZE_SAFE_H d) 0x44 rfl (by decide)
    have hcolour := hq (f := F.SCAN_SAFE_FAIL_ARGB d) 0x4c rfl (by decide)
    have hbits : g.scanBits d = c.scanBits d := by
      unfold Chip.scanBits Chip.on
      rw [hq (f := F.SCAN_LINK_BPC d) 4 rfl (by decide)]
    have hsafe : g.safeLine d y = true := by
      unfold Chip.safeLine
      rw [hen, hon', hposy, hsizeh, Bool.true_and]
      exact decide_eq_true ⟨hylo, hyhi⟩
    have hfail' : (g.scan d).failing = true := by
      rw [hscan]
      split
      · exact hfailing.trans hfail
      · exact hfailing.trans hfail
    rw [hout]
    show ((List.range (c.q (F.SCAN_H_ACTIVE d))).map (g.linePixel d y main))[k]? = _
    rw [List.getElem?_map, List.getElem?_range hk]
    refine congrArg some ((Chip.linePixel_failing hsafe (by rw [hposx]; exact hlo) (by rw [hposx, hsizew]; exact hhi) hfail').trans ?_)
    rw [hbits, hcolour]

/-- Settles O52: a clause per kind of step. -/
theorem camerasAndDisplays : Obligations.CamerasAndDisplays := by
  unfold Obligations.CamerasAndDisplays
  exact ⟨frameBegins, lineTaken, frameEnds, frameTimesOut, fun n vc dt l ok s => packetsForeign n vc dt l ok s, fun _ _ _ => exec_cameraPhyLockChange_change,
    fun _ _ _ => exec_hotPlug_change, displayBlanked, safetySwapped, lineComposited⟩

end Machine

end Sys2Proof

/-! PROOF. The loss of a half: what a half that goes DOWN leaves (R500, R507). -/

namespace Sys2Proof

namespace Machine

/-! ### Parts that the loss of a half leaves -/

/-- A part of the chip that the work which a lost half takes with it does not reach: neither what its events and its withdrawn commands write,
nor the authority, the links and the debug state of the other half. -/
structure LossPart {γ : Type} (f : Chip → γ) : Prop where
  event : EventPart f
  work (c : Chip) (cmds : List Cmd) (waits : List Wait) (benches : Tbl BenchSt) (bctx : Tbl BenchCtx) (slots : Tbl SlotSt) (pins : List Pin) (txns : Tbl Txn) :
    f { c with cmds := cmds, waits := waits, benches := benches, bctx := bctx, slots := slots, pins := pins, txns := txns } = f c
  bridge (c : Chip) (sends : List GSend) (late : List Owner) (queue : List GQueued) (held : List Nat) (routes : Tbl RouteSt) (pcie : Pair (Option (Nat × Option Nat))) (chans : Tbl ChanSt) :
    f { c with gwSends := sends, gwLate := late, gwQueue := queue, gwHeld := held, gwRoutes := routes, pcieOut := pcie, gwChans := chans } = f c
  kv (c : Chip) (y : Pair (Tbl Frame)) (p : List (CmdId × Nat)) (a b : Pair (List CmdId)) : f { c with kv := y, kvPins := p, pinOps := a, pinWait := b } = f c
  halves (c : Chip) (auth : Pair AuthSt) (gap : Option (Pair Nat)) (driver : Option Half) (env : Pair Envelope) (linkless : Tbl Nat) (free : Nat) (halted : List DebugTarget) :
    f { c with auth := auth, gapFrom := gap, lastDriver := driver, env := env, linkless := linkless, freeCnt := free, halted := halted } = f c

namespace LossPart

variable {γ : Type} {f : Chip → γ} (h : LossPart f)
include h

theorem bridgePart : BridgePart f := ⟨h.event, fun c _ _ => h.bridge c _ _ _ _ _ _ _, fun c _ => h.bridge c _ _ _ _ _ _ _, fun c _ => h.bridge c _ _ _ _ _ _ _, fun c _ => h.work c _ _ _ _ _ _ _⟩
theorem flightPart : FlightPart f := ⟨h.event, fun c _ => h.kv c _ _ _ _, fun c _ _ _ => h.kv c _ _ _ _⟩
theorem syncAuth (c : Chip) : f c.syncAuth = f c := h.event.syncAuth (fun c _ => h.halves c _ _ _ _ _ _ _) (fun c _ => h.halves c _ _ _ _ _ _ _) c
theorem setAuthSt (c : Chip) (k : Half) (x : AuthSt) : f (c.setAuthSt k x) = f c := h.halves c _ _ _ _ _ _ _

theorem recallGated (c : Chip) (k : Half) : f (c.recallGated k) = f c := by
  unfold Chip.recallGated
  refine (foldl_keeps f _ (fun x q => ?_) _ _).trans (h.bridge c _ _ _ _ _ _ _)
  have hd : f (x.syncQueued q.port) = f x := h.event.syncQueued _ _
  generalize x.syncQueued q.port = d at hd
  dsimp only
  split
  · exact (ite_keeps rfl (h.bridge d _ _ _ _ _ _ _)).trans hd
  · exact (h.bridge d _ _ _ _ _ _ _).trans hd
  · exact hd

theorem dropOut (c : Chip) (k : Half) : f (c.dropOut k) = f c :=
  ite_keeps ((h.recallGated _ _).trans ((h.halves (c.put (F.AUTH_STATUS_OUT_EN k.idx) 0) _ _ _ _ _ _ _).trans (h.event.put _ _ _))) rfl

theorem leaveCharge (c : Chip) (k : Half) (state cause : Nat) : f (c.leaveCharge k state cause) = f c := by
  unfold Chip.leaveCharge
  refine ite_keeps rfl ?_
  extract_lets +onlyGivenNames d e
  have hd : f d = f c := (h.dropOut _ _).trans (h.event.put _ _ _)
  exact (h.event.ev _ _ _ _).trans ((h.setAuthSt _ _ _).trans hd)

theorem fitness (c : Chip) (k : Half) (n : Nat) (ok : Bool) : f (c.fitness k n ok) = f c := by
  unfold Chip.fitness
  extract_lets +onlyGivenNames old new x d e g
  have hd : f d = f c := h.event.put _ _ _
  refine (ite_keeps rfl (ite_keeps ((h.event.ev _ _ _ _).trans (h.setAuthSt _ _ _)) ?_)).trans hd
  have hg : f g = f d := (ite_keeps rfl (h.event.ev _ _ _ _)).trans (h.setAuthSt _ _ _)
  exact (ite_keeps rfl (ite_keeps (h.leaveCharge _ _ _ _) rfl)).trans hg

theorem putUp (c : Chip) (g : Nat → RF) (v : Nat) : f (c.putUp g v) = f c := foldl_keeps f _ (fun _ _ => h.event.put _ _ _) _ _
theorem putBoth (c : Chip) (g : Nat → RF) (v : Nat) : f (c.putBoth g v) = f c := foldl_keeps f _ (fun _ _ => h.event.put _ _ _) _ _

theorem syncDebug (c old : Chip) : f (c.syncDebug old) = f c :=
  (h.syncAuth _).trans (foldl_keeps f _ (fun _ _ => ite_keeps rfl (h.fitness _ _ _ _)) _ _)

theorem setDebug (c : Chip) (k : Half) (v scope : Nat) : f (c.setDebug k v scope) = f c := by
  unfold Chip.setDebug
  extract_lets +onlyGivenNames st old d
  have hd : f d = f c := (h.putUp _ _ _).trans (h.putUp _ _ _)
  exact (h.syncDebug _ _).trans ((h.event.ev _ _ _ _).trans ((h.halves d _ _ _ _ _ _ _).trans hd))

theorem draw (c : Chip) : f c.draw.2 = f c := h.halves c _ _ _ _ _ _ _

theorem deviceFound (c : Chip) (k : Half) (n : Nat) : f (c.deviceFound k n) = f c := by
  unfold Chip.deviceFound
  refine ite_keeps rfl ?_
  extract_lets +onlyGivenNames d
  have hd : f d = f c := (h.putBoth _ _ _).trans (h.putBoth _ _ _)
  clear_value d
  split
  · exact (h.event.ev _ _ _ _).trans hd
  · exact (h.event.ev _ _ _ _).trans ((h.draw _).trans ((h.draw _).trans ((h.draw d).trans hd)))

theorem syncLinks (c old : Chip) : f (c.syncLinks old) = f c := by
  unfold Chip.syncLinks
  refine foldl_keeps f _ (fun x n => ?_) _ _
  refine ite_keeps ?_ (ite_keeps rfl (h.halves x _ _ _ _ _ _ _))
  exact (ite_keeps rfl (h.deviceFound _ _ _)).trans (h.halves x _ _ _ _ _ _ _)

theorem complete (c : Chip) (m : Cmd) (d : Nat) : f (c.complete m d) = f c := h.bridgePart.complete c m d

theorem failPort (c : Chip) (p cause : Nat) : f (c.failPort p cause) = f c := by
  unfold Chip.failPort
  refine (foldl_keeps f _ (fun x q => ?_) _ _).trans ((h.event.syncQueued _ _).trans (h.bridge c _ _ _ _ _ _ _))
  unfold Chip.failQueued
  split
  · split
    · exact h.bridgePart.failSend _ _ _ _
    · rfl
  · rfl

theorem failSent (c : Chip) (k : Half) : f (c.failSent k) = f c :=
  foldl_keeps f _ (fun _ _ => ite_keeps (h.bridgePart.failSend _ _ _ _) (h.bridgePart.dropSend _ _)) _ _

theorem setBench (c : Chip) (b : Nat) (y : BenchSt) : f (c.setBench b y) = f c := h.work c _ _ _ _ _ _ _

theorem stopTask (c : Chip) (m : Cmd) : f (c.stopTask m) = f c := by
  have hnote : f (c.noteTask m) = f c := by
    unfold Chip.noteTask
    refine (foldl_keeps f _ (fun y b => ?_) _ _).trans (h.work c _ _ _ _ _ _ _)
    exact (h.event.setPair _ _ _ _).trans (h.setBench _ _ _)
  unfold Chip.stopTask
  refine ite_keeps rfl ?_
  extract_lets +onlyGivenNames d e g i
  have he : f e = f d := foldl_keeps f _ (fun y u => ite_keeps (h.event y y.mem y.own y.filling _ y.poison y.rings y.log y.flash y.ledgerSeq y.irqs y.regs) rfl) _ _
  have hg : f g = f e := h.work e _ _ _ _ _ _ _
  have hi : f i = f g := h.work g _ _ _ _ _ _ _
  refine (foldl_keeps f _ (fun y b => ?_) _ _).trans (hi.trans (hg.trans (he.trans hnote)))
  exact ite_keeps (h.event.freeBench (fun c _ => h.work c _ _ _ _ _ _ _) _ _) rfl

theorem letGo (c : Chip) (m : Cmd) : f (c.letGo m) = f c := by
  unfold Chip.letGo
  extract_lets +onlyGivenNames d e g
  have hd : f d = f c := h.flightPart.kvUnpinAll _ _
  have he : f e = f d := ite_keeps (h.work d _ _ _ _ _ _ _) rfl
  have hg : f g = f e := ite_keeps (h.stopTask _ _) rfl
  clear_value g
  have hout : f (({ ({ ({ g with pins := g.pins.filter fun p => p.id != m.id, waits := g.waits.filter fun w => w.who != .cmd m.id, txns := g.txns.filter fun t => t.2.id != m.id } : Chip) with
      gwSends := g.gwSends.filter fun y => y.id != m.id } : Chip) with
      pinOps := ⟨g.pinOps.h.filter (· != m.id), g.pinOps.t.filter (· != m.id)⟩, pinWait := ⟨g.pinWait.h.filter (· != m.id), g.pinWait.t.filter (· != m.id)⟩ } : Chip)) = f g :=
    (h.kv _ _ _ _ _).trans ((h.bridge _ _ _ _ _ _ _ _).trans (h.work g _ _ _ _ _ _ _))
  exact hout.trans (hg.trans (he.trans hd))

theorem release (c : Chip) (m : Cmd) : f (c.release m) = f c := by
  unfold Chip.release
  split
  · rfl
  · exact h.event.setRingSt _ _ _

theorem dropCmd (c : Chip) (i : CmdId) : f (c.dropCmd i) = f c := h.work c _ _ _ _ _ _ _

theorem leave (c : Chip) (m : Cmd) : f (c.leave m) = f c := by
  have hidle (x : Chip) : f (x.partingIdle m) = f x := ite_keeps ((h.event.put _ _ _).trans ((h.event.put _ _ _).trans (h.event.put _ _ _))) rfl
  unfold Chip.leave
  extract_lets +onlyGivenNames r d
  have hd : f d = f c := (h.event.put _ _ _).trans ((h.dropCmd _ _).trans ((h.release _ _).trans (hidle _)))
  exact (h.event.put _ _ _).trans hd

theorem abandon (c : Chip) (m : Cmd) : f (c.abandon m) = f c := ite_keeps ((h.leave _ _).trans (h.letGo _ _)) ((h.complete _ _ _).trans (h.letGo _ _))

theorem abandonWait (c : Chip) (w : Wait) : f (c.abandonWait w) = f c := by
  unfold Chip.abandonWait
  extract_lets +onlyGivenNames d
  have hd : f d = f c := h.work c _ _ _ _ _ _ _
  clear_value d
  split
  · split
    · exact (h.complete _ _ _).trans hd
    · exact hd
  · refine Eq.trans ?_ hd
    unfold Chip.abandonCore
    split
    · rfl
    · exact (h.complete _ _ _).trans (h.stopTask _ _)
  · exact (h.event.put _ _ _).trans hd

end LossPart

/-! ### The loss of a half, in its stages -/

/-- What a half that goes DOWN takes away before it is wiped: its outputs, the lead, its frames, its commands and those that depend on it, its waits. -/
def Chip.lossStart (c : Chip) (h : Half) : Chip :=
  let c := c.dropOut h
  let c := c.leadLost h
  let c := ((portsOf h).foldl (fun c p => c.failPort p 10) c).failSent h
  let c := (c.cmds.filter fun m => ringHalf m.id.ring.val == h).foldl (fun c m => ((c.letGo m).release m).dropCmd m.id) c
  let c := (c.cmds.filter fun m => c.dependsOn h m).foldl Chip.abandon c
  (c.waits.filter fun w => dowelHalf w.dowel == h).foldl Chip.abandonWait c

/-- The half wiped and DOWN. -/
def Chip.lossOut (c : Chip) (h : Half) (since : Nat) : Chip :=
  let c := (c.wipeHalf h).keepLanes c h
  { c with down := c.down.set h true, downSince := c.downSince.set h (if c.down.get h.other then none else some since) }

/-- What the half that stays up takes note of. -/
def Chip.lossTold (c old : Chip) (h : Half) : Chip :=
  let k := h.other
  let c := if c.q (F.SEC_STATUS_DEBUG k.idx) = 1 then c.setDebug k 0 0 else c
  let c := c.put (F.CALLIPER_STATUS_DEGRADED h.idx) (c.q (F.CALLIPER_STATUS_DEGRADED k.idx))
  ((c.put (F.POWER_STATUS_PEER_STATE k.idx) 15).syncLinks old).syncAuth

theorem Chip.loseHalf_down {c : Chip} {h : Half} (hdown : c.down.get h = true) : c.loseHalf h = c := if_pos hdown

theorem Chip.loseHalf_eq {c : Chip} {h : Half} (hdown : c.down.get h = false) : c.loseHalf h =
    if (((c.loseKeys h).lossStart h).lossOut h (c.stamp h.other 0)).down.get h.other = true then (((c.loseKeys h).lossStart h).lossOut h (c.stamp h.other 0)).deviceReset
    else (((c.loseKeys h).lossStart h).lossOut h (c.stamp h.other 0)).lossTold c h := if_neg (Bool.eq_false_iff.1 hdown)

namespace LossPart

variable {γ : Type} {f : Chip → γ} (h : LossPart f)
include h

theorem lossTold (c old : Chip) (k : Half) : f (c.lossTold old k) = f c := by
  unfold Chip.lossTold
  extract_lets +onlyGivenNames j d e
  have hd : f d = f c := ite_keeps (h.setDebug _ _ _ _) rfl
  have he : f e = f d := h.event.put _ _ _
  exact (h.syncAuth _).trans ((h.syncLinks _ _).trans ((h.event.put _ _ _).trans (he.trans hd)))

/-- Where the lead of the other half is no part of it. -/
theorem lossStart {k : Half} (hlead : ∀ c : Chip, f (c.leadLost k) = f c) (c : Chip) : f (c.lossStart k) = f c := by
  unfold Chip.lossStart
  extract_lets +onlyGivenNames d e g i j
  have he : f e = f c := (hlead d).trans (h.dropOut c k)
  have hg : f g = f e := (h.failSent _ _).trans (foldl_keeps f _ (fun x p => h.failPort x p 10) _ _)
  have hi : f i = f g := foldl_keeps f _ (fun x m => (h.dropCmd _ _).trans ((h.release _ _).trans (h.letGo x m))) _ _
  have hj : f j = f i := foldl_keeps f _ (fun x m => h.abandon x m) _ _
  exact (foldl_keeps f _ (fun x w => h.abandonWait x w) _ _).trans (hj.trans (hi.trans (hg.trans he)))

end LossPart

theorem LossPart.leadLost {γ : Type} {f : Chip → γ} (h : LossPart f) {k : Half} (ht : ∀ (c : Chip) (x : TimeSt), f (c.setTime k.other x) = f c) (c : Chip) :
    f (c.leadLost k) = f c := by
  unfold Chip.leadLost
  refine ite_keeps ((h.event.ev _ _ _ _).trans ?_) rfl
  exact (h.event.put _ _ _).trans ((h.event.put _ _ _).trans ((h.event.put _ _ _).trans (ht _ _)))

theorem Chip.keepLanes_keeps {γ : Type} (f : Chip → γ) (hr : ∀ c r, f { c with regs := r } = f c) (c old : Chip) (h : Half) : f (c.keepLanes old h) = f c := by
  unfold Chip.keepLanes
  exact foldl_keeps f _ (fun x l => ite_keeps rfl (Chip.setReg_keeps f hr x _ _)) _ _

theorem Chip.lossOut_keeps {γ : Type} (f : Chip → γ) (hr : ∀ c r, f { c with regs := r } = f c) (hd : ∀ c d s, f { c with down := d, downSince := s } = f c) (c : Chip) (h : Half) (since : Nat) :
    f (c.lossOut h since) = f (c.wipeHalf h) := (hd _ _ _).trans (Chip.keepLanes_keeps f hr _ _ _)

/-! ### What the stages leave -/

theorem lossPart_down : LossPart Chip.down where
  event _ _ _ _ _ _ _ _ _ _ _ _ := rfl
  work _ _ _ _ _ _ _ _ := rfl
  bridge _ _ _ _ _ _ _ _ := rfl
  kv _ _ _ _ _ := rfl
  halves _ _ _ _ _ _ _ _ := rfl

theorem lossPart_power : LossPart Chip.power where
  event _ _ _ _ _ _ _ _ _ _ _ _ := rfl
  work _ _ _ _ _ _ _ _ := rfl
  bridge _ _ _ _ _ _ _ _ := rfl
  kv _ _ _ _ _ := rfl
  halves _ _ _ _ _ _ _ _ := rfl

theorem lossPart_sec : LossPart Chip.sec where
  event _ _ _ _ _ _ _ _ _ _ _ _ := rfl
  work _ _ _ _ _ _ _ _ := rfl
  bridge _ _ _ _ _ _ _ _ := rfl
  kv _ _ _ _ _ := rfl
  halves _ _ _ _ _ _ _ _ := rfl

theorem lossPart_start : LossPart Chip.start where
  event _ _ _ _ _ _ _ _ _ _ _ _ := rfl
  work _ _ _ _ _ _ _ _ := rfl
  bridge _ _ _ _ _ _ _ _ := rfl
  kv _ _ _ _ _ := rfl
  halves _ _ _ _ _ _ _ _ := rfl

theorem lossPart_time : LossPart Chip.time where
  event _ _ _ _ _ _ _ _ _ _ _ _ := rfl
  work _ _ _ _ _ _ _ _ := rfl
  bridge _ _ _ _ _ _ _ _ := rfl
  kv _ _ _ _ _ := rfl
  halves _ _ _ _ _ _ _ _ := rfl

theorem lossPart_erasing : LossPart Chip.erasing where
  event _ _ _ _ _ _ _ _ _ _ _ _ := rfl
  work _ _ _ _ _ _ _ _ := rfl
  bridge _ _ _ _ _ _ _ _ := rfl
  kv _ _ _ _ _ := rfl
  halves _ _ _ _ _ _ _ _ := rfl

section
variable {c : Chip} {h : Half}

theorem Chip.down_lossOut (c : Chip) (h : Half) (since : Nat) : (c.lossOut h since).down = c.down.set h true := by
  have hwipe : ((c.wipeHalf h).keepLanes c h).down = c.down := Chip.keepLanes_keeps Chip.down (fun _ _ => rfl) _ _ _
  exact congrArg (fun d => d.set h true) hwipe

theorem Chip.down_lossStart (c : Chip) (h : Half) : (c.lossStart h).down = c.down :=
  lossPart_down.lossStart (lossPart_down.leadLost fun _ _ => rfl) c

/-- The half before its keys are lost, wiped. -/
def Chip.lostHalf (c : Chip) (h : Half) : Chip := ((c.loseKeys h).lossStart h).lossOut h (c.stamp h.other 0)

theorem Chip.down_lostHalf (c : Chip) (h : Half) : (c.lostHalf h).down = c.down.set h true :=
  (Chip.down_lossOut _ _ _).trans (congrArg (fun d => d.set h true) (Chip.down_lossStart (c.loseKeys h) h))

theorem Pair.set_get_self {α : Type} (p : Pair α) (h : Half) : p.set h (p.get h) = p := by cases h <;> rfl

/-- The loss of a half while its other half is up, or not. -/
theorem Chip.loseHalf_up (hdown : c.down.get h = false) (hother : c.down.get h.other = false) : c.loseHalf h = (c.lostHalf h).lossTold c h := by
  refine (Chip.loseHalf_eq hdown).trans (if_neg ?_)
  rw [show (((c.loseKeys h).lossStart h).lossOut h (c.stamp h.other 0)).down = c.down.set h true from c.down_lostHalf h, Pair.get_set_other, hother]
  exact Bool.false_ne_true

theorem Chip.loseHalf_both (hdown : c.down.get h = false) (hother : c.down.get h.other = true) : c.loseHalf h = (c.lostHalf h).deviceReset := by
  refine (Chip.loseHalf_eq hdown).trans (if_pos ?_)
  rw [show (((c.loseKeys h).lossStart h).lossOut h (c.stamp h.other 0)).down = c.down.set h true from c.down_lostHalf h, Pair.get_set_other, hother]

theorem Chip.down_deviceReset (c : Chip) : c.deviceReset.down = c.down := rfl

/-- A half that is lost is DOWN; the other half stays as it is. -/
theorem Chip.down_loseHalf (c : Chip) (h : Half) : (c.loseHalf h).down = c.down.set h true := by
  cases hdown : c.down.get h
  · cases hother : c.down.get h.other
    · rw [Chip.loseHalf_up hdown hother, lossPart_down.lossTold]
      exact c.down_lostHalf h
    · rw [Chip.loseHalf_both hdown hother, Chip.down_deviceReset]
      exact c.down_lostHalf h
  · rw [Chip.loseHalf_down hdown, ← hdown, Pair.set_get_self]

/-- A part of a wiped half as the half left it. -/
theorem Chip.lostHalf_keeps {γ : Type} {f : Chip → γ} (hf : LossPart f) (hlead : ∀ c : Chip, f (c.leadLost h) = f c) (hk : f (c.loseKeys h) = f c)
    (hw : ∀ d : Chip, f (d.wipeHalf h) = f d) (hd : ∀ c d s, f { c with down := d, downSince := s } = f c) : f (c.lostHalf h) = f c := by
  have hr : ∀ c r, f { c with regs := r } = f c := fun c r => hf.event c c.mem c.own c.filling c.cores c.poison c.rings c.log c.flash c.ledgerSeq c.irqs r
  exact (Chip.lossOut_keeps f hr hd _ _ _).trans ((hw _).trans ((hf.lossStart hlead _).trans hk))

theorem Chip.erasing_loseHalf (c : Chip) (h : Half) : (c.loseHalf h).erasing = c.erasing := by
  have hlost : (c.lostHalf h).erasing = c.erasing :=
    Chip.lostHalf_keeps lossPart_erasing (lossPart_erasing.leadLost fun _ _ => rfl) rfl (fun _ => rfl) fun _ _ _ => rfl
  have hreset (d : Chip) : d.deviceReset.erasing = d.erasing := rfl
  cases hdown : c.down.get h
  · cases hother : c.down.get h.other
    · rw [Chip.loseHalf_up hdown hother, lossPart_erasing.lossTold, hlost]
    · rw [Chip.loseHalf_both hdown hother, hreset, hlost]
  · rw [Chip.loseHalf_down hdown]

/-- What a wiped half keeps of its power state: whether it is too hot, and what it has to report. -/
def PowerSt.wiped (x : PowerSt) : PowerSt := { PowerSt.zero with critical := x.critical, report := x.report }

/-- What a wiped half keeps of its security state: a rail whose fall erased it. -/
def SecSt.wiped (x : SecSt) : SecSt := { SecSt.zero with erased := x.erased }

theorem Chip.power_wipeHalf (c : Chip) (h : Half) : (c.wipeHalf h).power = c.power.set h (c.powerOf h).wiped := rfl
theorem Chip.sec_wipeHalf (c : Chip) (h : Half) : (c.wipeHalf h).sec = c.sec.set h (c.secOf h).wiped := rfl
theorem Chip.start_wipeHalf (c : Chip) (h : Half) : (c.wipeHalf h).start = c.start.set h StartSt.zero := rfl
theorem Chip.time_wipeHalf (c : Chip) (h : Half) : (c.wipeHalf h).time = c.time.set h TimeSt.zero := rfl

theorem Chip.power_lostHalf (c : Chip) (h : Half) : (c.lostHalf h).power = c.power.set h (c.powerOf h).wiped := by
  have hstart : ((c.loseKeys h).lossStart h).power = c.power := lossPart_power.lossStart (lossPart_power.leadLost fun _ _ => rfl) (c.loseKeys h)
  have hout : (c.lostHalf h).power = (((c.loseKeys h).lossStart h).wipeHalf h).power := Chip.lossOut_keeps Chip.power (fun _ _ => rfl) (fun _ _ _ => rfl) _ _ _
  rw [hout, Chip.power_wipeHalf, Chip.powerOf, hstart]
  rfl

theorem Chip.power_loseHalf (hdown : c.down.get h = false) : (c.loseHalf h).power = c.power.set h (c.powerOf h).wiped := by
  have hreset (d : Chip) : d.deviceReset.power = d.power := rfl
  cases hother : c.down.get h.other
  · rw [Chip.loseHalf_up hdown hother, lossPart_power.lossTold, Chip.power_lostHalf]
  · rw [Chip.loseHalf_both hdown hother, hreset, Chip.power_lostHalf]

theorem Chip.sec_lostHalf (c : Chip) (h : Half) : (c.lostHalf h).sec = c.sec.set h (c.secOf h).wiped := by
  have hstart : ((c.loseKeys h).lossStart h).sec = (c.loseKeys h).sec := lossPart_sec.lossStart (lossPart_sec.leadLost fun _ _ => rfl) (c.loseKeys h)
  have hout : (c.lostHalf h).sec = (((c.loseKeys h).lossStart h).wipeHalf h).sec := Chip.lossOut_keeps Chip.sec (fun _ _ => rfl) (fun _ _ _ => rfl) _ _ _
  have hkeys : (c.loseKeys h).sec = c.sec.set h { c.secOf h with memKeys := false } := rfl
  rw [hout, Chip.sec_wipeHalf, Chip.secOf, hstart, hkeys]
  cases h <;> rfl

/-- The security state of a half that is lost, and of the other half while it is up. -/
theorem Chip.sec_loseHalf (hdown : c.down.get h = false) : (c.loseHalf h).secOf h = (c.secOf h).wiped ∧
    (c.down.get h.other = false → (c.loseHalf h).secOf h.other = c.secOf h.other) ∧
    (c.down.get h.other = true → (c.loseHalf h).secOf h.other = (c.secOf h.other).wiped) := by
  have hreset (d : Chip) (k : Half) : d.deviceReset.secOf k = (d.secOf k).wiped := by cases k <;> rfl
  have hlost := c.sec_lostHalf h
  have hself : (c.lostHalf h).secOf h = (c.secOf h).wiped := (congrArg (fun y => y.get h) hlost).trans (Pair.get_set_same _ _ _)
  have hrest : (c.lostHalf h).secOf h.other = c.secOf h.other := (congrArg (fun y => y.get h.other) hlost).trans (Pair.get_set_other _ _ _)
  cases hother : c.down.get h.other
  · rw [Chip.loseHalf_up hdown hother]
    have htold (k : Half) : ((c.lostHalf h).lossTold c h).secOf k = (c.lostHalf h).secOf k := congrArg (fun y => y.get k) (lossPart_sec.lossTold (c.lostHalf h) c h)
    exact ⟨(htold h).trans hself, fun _ => (htold _).trans hrest, fun hn => absurd hn (by decide)⟩
  · rw [Chip.loseHalf_both hdown hother]
    have hwiped (x : SecSt) : x.wiped.wiped = x.wiped := rfl
    refine ⟨?_, fun hn => absurd hn (by decide), fun _ => ?_⟩
    · rw [hreset, hself, hwiped]
    · rw [hreset, hrest]

theorem Chip.start_loseHalf (hdown : c.down.get h = false) : (c.loseHalf h).startOf h = StartSt.zero := by
  have hout : (c.lostHalf h).start = (((c.loseKeys h).lossStart h).wipeHalf h).start := Chip.lossOut_keeps Chip.start (fun _ _ => rfl) (fun _ _ _ => rfl) _ _ _
  have hlost : (c.lostHalf h).startOf h = StartSt.zero := (congrArg (fun y => y.get h) (hout.trans (Chip.start_wipeHalf _ h))).trans (Pair.get_set_same _ _ _)
  have hreset (d : Chip) : d.deviceReset.startOf h = StartSt.zero := by cases h <;> rfl
  cases hother : c.down.get h.other
  · rw [Chip.loseHalf_up hdown hother]
    exact (congrArg (fun y => y.get h) (lossPart_start.lossTold (c.lostHalf h) c h)).trans hlost
  · rw [Chip.loseHalf_both hdown hother]
    exact hreset _

theorem Chip.time_loseHalf (hdown : c.down.get h = false) : (c.loseHalf h).timeOf h = TimeSt.zero := by
  have hout : (c.lostHalf h).time = (((c.loseKeys h).lossStart h).wipeHalf h).time := Chip.lossOut_keeps Chip.time (fun _ _ => rfl) (fun _ _ _ => rfl) _ _ _
  have hlost : (c.lostHalf h).timeOf h = TimeSt.zero := (congrArg (fun y => y.get h) (hout.trans (Chip.time_wipeHalf _ h))).trans (Pair.get_set_same _ _ _)
  have hreset (d : Chip) : d.deviceReset.timeOf h = TimeSt.zero := by cases h <;> rfl
  cases hother : c.down.get h.other
  · rw [Chip.loseHalf_up hdown hother]
    exact (congrArg (fun y => y.get h) (lossPart_time.lossTold (c.lostHalf h) c h)).trans hlost
  · rw [Chip.loseHalf_both hdown hother]
    exact hreset _

/-- The loss of the second half leaves no command, no wait and no time. -/
theorem Chip.loseHalf_last (hdown : c.down.get h = false) (hother : c.down.get h.other = true) :
    (c.loseHalf h).cmds = [] ∧ (c.loseHalf h).waits = [] ∧ (c.loseHalf h).time = Chip.reset.time := by
  have hreset (d : Chip) : d.deviceReset.cmds = [] ∧ d.deviceReset.waits = [] ∧ d.deviceReset.time = Chip.reset.time := ⟨rfl, rfl, rfl⟩
  rw [Chip.loseHalf_both hdown hother]
  exact hreset _

end

end Machine

end Sys2Proof

/-! PROOF. Power states, limits and temperatures; the wear ledger (R510–R540). -/

namespace Sys2Proof

namespace Machine

/-! ### Power states -/

/-- A register of the power blocks. -/
def powerPage (a : Nat) : Prop := 0x1000000 ≤ a ∧ a < 0x1100000

theorem powerPage.quiet {a : Nat} (ha : powerPage a) : ¬ eventReg a := by
  obtain ⟨hlo, hhi⟩ := ha
  unfold eventReg Reg.WEAR_LOG_CNT
  omega

theorem powerPage_reg (h : Half) {k : Nat} (hk : k < 0x80000) : powerPage (0x1000000 + k + h.idx * 0x80000) := by
  have := idx_le h
  unfold powerPage
  omega

theorem powerPage_status (h : Half) : powerPage (Reg.POWER_STATUS h.idx) := powerPage_reg h (k := 0x18) (by decide)

section
variable {c : Chip} {h : Half}

/-- A field of the power status that the steps do not write. -/
theorem Chip.q_syncSteps {lo wid : Nat} (hf : lo + wid ≤ 25 ∨ 30 ≤ lo) : (c.syncSteps h).q ⟨Reg.POWER_STATUS h.idx, lo, wid⟩ = c.q ⟨Reg.POWER_STATUS h.idx, lo, wid⟩ := by
  have harr : (F.POWER_STATUS_ARR_STEP h.idx).Apart ⟨Reg.POWER_STATUS h.idx, lo, wid⟩ := ⟨Nat.le_of_ble_eq_true rfl, .inr (by
    show 30 ≤ lo ∨ lo + wid ≤ 27
    omega)⟩
  have hgouge : (F.POWER_STATUS_GOUGE_STEP h.idx).Apart ⟨Reg.POWER_STATUS h.idx, lo, wid⟩ := ⟨Nat.le_of_ble_eq_true rfl, .inr (by
    show 27 ≤ lo ∨ lo + wid ≤ 25
    omega)⟩
  exact (Chip.q_put_apart _ _ hgouge).trans (Chip.q_put_apart _ _ harr)

theorem Chip.reg_syncSteps {a : Nat} (ha : a ≠ Reg.POWER_STATUS h.idx) : (c.syncSteps h).reg a = c.reg a :=
  (Chip.reg_setReg_ne _ _ ha).trans (Chip.reg_setReg_ne _ _ ha)

/-- A half in a power state is in it. -/
theorem Chip.state_enterPower {st : Nat} (hst : st < 4) : (c.enterPower h st).q (F.POWER_STATUS_STATE h.idx) = st := by
  unfold Chip.enterPower
  dsimp only
  split
  · assumption
  · have hput : (c.put (F.POWER_STATUS_STATE h.idx) st).q (F.POWER_STATUS_STATE h.idx) = st := (Chip.q_put_same _ _ _ (Nat.le_of_ble_eq_true rfl)).trans (Nat.mod_eq_of_lt hst)
    generalize c.put (F.POWER_STATUS_STATE h.idx) st = d at hput
    have hne : Reg.POWER_STATUS h.idx ≠ Reg.POWER_STATUS h.other.idx := by
      have := idx_ne (half_other_ne h)
      unfold Reg.POWER_STATUS
      omega
    have hpeer : (if d.down.get h.other = true then d else d.put (F.POWER_STATUS_PEER_STATE h.other.idx) st).q (F.POWER_STATUS_STATE h.idx) = st := by
      split
      · exact hput
      · exact (Chip.q_setReg_ne _ _ hne).trans hput
    exact (Chip.q_raise _ _ (powerPage_status h).quiet).trans ((Chip.q_syncSteps (.inr (by decide))).trans hpeer)

/-- The result of a request for a state, and the state it leaves. -/
theorem Chip.stateResult_shows {target res : Nat} (hres : res < 256) : (c.stateResult h target res).q (F.POWER_STATUS_STATE h.idx) = c.q (F.POWER_STATUS_STATE h.idx) ∧
    (c.stateResult h target res).q (F.POWER_STATUS_RESULT h.idx) = res := by
  have hput : (c.put (F.POWER_STATUS_RESULT h.idx) res).q (F.POWER_STATUS_RESULT h.idx) = res := (Chip.q_put_same _ _ _ (Nat.le_of_ble_eq_true rfl)).trans (Nat.mod_eq_of_lt hres)
  have hstate : (c.put (F.POWER_STATUS_RESULT h.idx) res).q (F.POWER_STATUS_STATE h.idx) = c.q (F.POWER_STATUS_STATE h.idx) :=
    Chip.q_put_apart _ _ ⟨Nat.le_of_ble_eq_true rfl, .inr (.inl (Nat.le_of_ble_eq_true rfl))⟩
  unfold Chip.stateResult
  generalize c.put (F.POWER_STATUS_RESULT h.idx) res = d at hput hstate
  dsimp only
  split
  · exact ⟨hstate, hput⟩
  · exact ⟨(Chip.q_raise _ _ (powerPage_status h).quiet).trans hstate, (Chip.q_raise _ _ (powerPage_status h).quiet).trans hput⟩

end

section
variable {s : State} {i : Initiator} {h : Half}

theorem exec_powerStateReq_granted (hport : s.chip.portCause i true (Reg.POWER_STATE_REQ h.idx) = 0) (hdown : s.chip.down.get h = false) (t : Fin 4) :
    exec (.powerStateReq i h t) s = .next (s.withChip (s.chip.powerState i h t)) := by
  have hexec : exec (.powerStateReq i h t) s = execPowerStateReq i h t s := rfl
  unfold execPowerStateReq at hexec
  simp only [hport] at hexec
  exact hexec.trans ((if_neg (Bool.eq_false_iff.1 hdown)).trans (s.go_eq _))

/-- A request for a state that is taken. -/
theorem Chip.powerState_taken {c : Chip} {t : Nat} (hclaim : t = 1 → i.via = .secCore ∨ c.clocksClaimed h = none) (ht : t ≠ 3) (hcharge : t = 2 → c.inCharge h = false) :
    c.powerState i h t = (c.enterPower h t).stateResult h t 0 := by
  have hnone : (if t = 1 ∧ i.via ≠ .secCore then c.clocksClaimed h else none) = none := by
    split
    · next hc => exact (hclaim hc.1).resolve_left hc.2
    · rfl
  unfold Chip.powerState
  rw [hnone]
  exact (if_neg ht).trans (if_neg fun hc => Bool.eq_false_iff.1 (hcharge hc.1) hc.2)

theorem Chip.powerState_reserved {c : Chip} : c.powerState i h 3 = c.stateResult h 3 0x40 := by
  unfold Chip.powerState
  rw [if_neg fun hc => absurd hc.1 (by decide)]
  exact if_pos rfl

theorem Chip.powerState_charge {c : Chip} (hcharge : c.inCharge h = true) : c.powerState i h 2 = c.stateResult h 2 0x41 := by
  unfold Chip.powerState
  rw [if_neg fun hc => absurd hc.1 (by decide)]
  exact (if_neg (by decide)).trans (if_pos ⟨rfl, hcharge⟩)

/-- Clause 1: the power states of a half. -/
theorem powerStates (i : Initiator) (h : Half) (s : State) :
    let c := s.chip
    let st (c : Chip) := c.q (F.POWER_STATUS_STATE h.idx)
    let res (c : Chip) := c.q (F.POWER_STATUS_RESULT h.idx)
    c.portCause i true (Reg.POWER_STATE_REQ h.idx) = 0 → c.down.get h = false →
    (∃ t, exec (.powerStateReq i h 0) s = .next (s.withChip t) ∧ st t = 0 ∧ res t = 0) ∧
    (i.via = .secCore ∨ c.clocksClaimed h = none → ∃ t, exec (.powerStateReq i h 1) s = .next (s.withChip t) ∧ st t = 1 ∧ res t = 0) ∧
    (c.inCharge h = false → ∃ t, exec (.powerStateReq i h 2) s = .next (s.withChip t) ∧ st t = 2 ∧ res t = 0) ∧
    (c.inCharge h = true → ∃ t, exec (.powerStateReq i h 2) s = .next (s.withChip t) ∧ st t = st c ∧ res t = 0x41) ∧
    (∃ t, exec (.powerStateReq i h 3) s = .next (s.withChip t) ∧ st t = st c ∧ res t = 0x40) := by
  intro c st res hport hdown
  have hexec := exec_powerStateReq_granted (i := i) hport hdown
  have htaken (t : Fin 4) (heq : c.powerState i h t = (c.enterPower h t).stateResult h t 0) : st (c.powerState i h t) = t ∧ res (c.powerState i h t) = 0 := by
    rw [heq]
    obtain ⟨hst, hres⟩ := Chip.stateResult_shows (c := c.enterPower h t) (h := h) (target := t) (res := 0) (by decide)
    exact ⟨hst.trans (Chip.state_enterPower t.isLt), hres⟩
  have hrefused (t k : Nat) (hk : k < 256) (heq : c.powerState i h t = c.stateResult h t k) : st (c.powerState i h t) = st c ∧ res (c.powerState i h t) = k := by
    rw [heq]
    exact Chip.stateResult_shows hk
  refine ⟨⟨_, hexec 0, htaken 0 (Chip.powerState_taken (fun h => absurd h (by decide)) (by decide) fun h => absurd h (by decide))⟩,
    fun hclaim => ⟨_, hexec 1, htaken 1 (Chip.powerState_taken (fun _ => hclaim) (by decide) fun h => absurd h (by decide))⟩,
    fun hcharge => ⟨_, hexec 2, htaken 2 (Chip.powerState_taken (fun h => absurd h (by decide)) (by decide) fun _ => hcharge)⟩,
    fun hcharge => ⟨_, hexec 2, hrefused _ _ (by decide) (Chip.powerState_charge hcharge)⟩, ⟨_, hexec 3, hrefused _ _ (by decide) Chip.powerState_reserved⟩⟩

end

/-! ### Units -/

section
variable {c : Chip} {b st : Nat}

/-- The two bits of a unit's state. -/
def unitField (b : Nat) : RF := ⟨Reg.POWER_BLK_STATE (claimHalf b).idx (b / 16), 2 * (b % 16), 2⟩

theorem Chip.unitState_eq (c : Chip) (b : Nat) : c.unitState b = c.q (unitField b) := by
  unfold Chip.unitState
  exact congrArg (fun v => bits v (2 * (b % 16)) 2) (c.q_word _)

theorem unitField_fits (b : Nat) : (unitField b).lo + (unitField b).wid ≤ 32 := by
  show 2 * (b % 16) + 2 ≤ 32
  omega

theorem unitField_page (hb : b < 128) : powerPage (unitField b).addr := by
  have hreg : (unitField b).addr = 0x1000000 + (0x110 + b / 16 * 4) + (claimHalf b).idx * 0x80000 := by
    show 0x1000110 + (claimHalf b).idx * 0x80000 + b / 16 * 4 = _
    omega
  rw [hreg]
  exact powerPage_reg _ (by omega)

theorem unitField_result (h : Half) (hb : b < 128) : (unitField b).addr ≠ Reg.POWER_BLK_RESULT h.idx := by
  have := idx_le h
  have := idx_le (claimHalf b)
  show 0x1000110 + (claimHalf b).idx * 0x80000 + b / 16 * 4 ≠ _
  unfold Reg.POWER_BLK_RESULT
  omega

/-- A unit taken to a state is in it. -/
theorem Chip.unitState_set (hb : b < 128) (hst : st < 4) : (c.setUnitState b st).unitState b = st := by
  have hword := c.q_word (unitField b).addr
  have hpow : 4 ^ (b % 16) = 2 ^ (2 * (b % 16)) := (pow_mul 2 2 (b % 16)).symm
  have hput : (c.put (F.POWER_BLK_STATE_STATE (claimHalf b).idx (b / 16))
      (c.q (F.POWER_BLK_STATE_STATE (claimHalf b).idx (b / 16)) - c.unitState b * 4 ^ (b % 16) + st * 4 ^ (b % 16))).reg (unitField b).addr =
        (c.put (unitField b) st).reg (unitField b).addr := by
    have hfield : (c.put (unitField b) st).reg (unitField b).addr =
        (c.reg (unitField b).addr - c.unitState b * 2 ^ (2 * (b % 16)) + st * 2 ^ (2 * (b % 16))) % 2 ^ 32 := by
      have hreg := c.reg_setReg_same (unitField b).addr (c.reg (unitField b).addr - c.q (unitField b) * 2 ^ (2 * (b % 16)) + st % 2 ^ 2 * 2 ^ (2 * (b % 16)))
      rw [Nat.mod_eq_of_lt (show st < 2 ^ 2 from hst), ← c.unitState_eq] at hreg
      refine Eq.trans ?_ hreg
      unfold Chip.put
      rw [show st % 2 ^ (unitField b).wid = st from Nat.mod_eq_of_lt hst, ← c.unitState_eq]
      rfl
    rw [hfield, hpow]
    refine (Chip.q_word _ _).symm.trans ((Chip.q_put_same c (F.POWER_BLK_STATE_STATE (claimHalf b).idx (b / 16)) _ (Nat.le_of_ble_eq_true rfl)).trans ?_)
    exact congrArg (fun v => (v - c.unitState b * 2 ^ (2 * (b % 16)) + st * 2 ^ (2 * (b % 16))) % 2 ^ 32) hword
  unfold Chip.setUnitState
  dsimp only
  split
  · assumption
  · rw [Chip.unitState_eq]
    refine (Chip.q_raise _ _ (unitField_page hb).quiet).trans ?_
    refine (congrArg (fun v => bits v (2 * (b % 16)) 2) hput).trans ?_
    exact (Chip.q_put_same c (unitField b) st (unitField_fits b)).trans (Nat.mod_eq_of_lt hst)

/-- What a request for a unit shows once it is done. -/
theorem Chip.unitResult_done (h : Half) (hb : b < 128) (k : Nat) : (c.unitResult h k b 0).unitState b = c.unitState b ∧
    (c.unitResult h k b 0).q (F.POWER_BLK_RESULT_UNIT h.idx) = b ∧ (c.unitResult h k b 0).q (F.POWER_BLK_RESULT_RESULT h.idx) = 0 := by
  have hne := unitField_result h hb
  have hother (d : Chip) (f : RF) (v : Nat) (hf : f.addr = Reg.POWER_BLK_RESULT h.idx) : (d.put f v).q (unitField b) = d.q (unitField b) := Chip.q_setReg_ne _ _ (hf ▸ hne)
  have hres : c.unitResult h k b 0 = (c.put (F.POWER_BLK_RESULT_UNIT h.idx) b).put (F.POWER_BLK_RESULT_RESULT h.idx) 0 := by
    unfold Chip.unitResult
    exact if_pos rfl
  rw [hres, Chip.unitState_eq, Chip.unitState_eq]
  refine ⟨(hother _ _ _ rfl).trans (hother _ _ _ rfl), ?_, Chip.q_put_same _ _ _ (Nat.le_of_ble_eq_true rfl)⟩
  refine (Chip.q_put_apart _ _ ⟨Nat.le_of_ble_eq_true rfl, .inr (.inr (Nat.le_of_ble_eq_true rfl))⟩).trans ?_
  exact (Chip.q_put_same _ _ _ (Nat.le_of_ble_eq_true rfl)).trans (Nat.mod_eq_of_lt hb)

end

section
variable {i : Initiator} {h : Half} {b st : Nat} {parked : Bool} {c : Chip}

theorem Chip.unitWrite_granted (hport : c.portCause i true (Reg.POWER_BLK_REQ h.idx) = 0) (hdown : c.down.get h = false) :
    c.unitWrite i h st b parked = c.unitRequest i h st b parked := by
  unfold Chip.unitWrite
  simp only [hport]
  exact if_neg (Bool.eq_false_iff.1 hdown)

variable (hbusy : c.on (F.POWER_BLK_RESULT_BUSY h.idx) = false) (hb : b < 126) (hhalf : claimHalf b = h)
include hbusy hb hhalf

theorem Chip.unitRequest_active : c.unitRequest i h 0 b parked = (c.setUnitState b 0).unitResult h 0 b 0 := by
  unfold Chip.unitRequest
  rw [hbusy, if_neg Bool.false_ne_true, if_neg fun hc => hc.elim (Nat.not_le.2 hb) fun hc => hc.elim (fun hn => hn hhalf) (by decide),
    if_neg fun hc => absurd rfl hc.1, if_neg fun hc => absurd rfl hc.1, if_pos rfl]

theorem Chip.unitRequest_gated (hst0 : st ≠ 0) (hst3 : st < 3) (hclaim : c.claimed h b = false) (hunit : c.unitBusy b parked = false) (hgate : c.gateEngine b = none) :
    c.unitRequest i h st b parked = (c.gateUnit b st).unitResult h st b 0 := by
  unfold Chip.unitRequest
  rw [hbusy, if_neg Bool.false_ne_true, if_neg fun hc => hc.elim (Nat.not_le.2 hb) fun hc => hc.elim (fun hn => hn hhalf) (Nat.not_le.2 hst3),
    if_neg fun hc => Bool.eq_false_iff.1 hclaim hc.2.2, if_neg fun hc => Bool.eq_false_iff.1 hunit hc.2, if_neg hst0, hgate]

end

theorem Chip.unitState_gateUnit {c : Chip} {b st : Nat} (hb : b < 128) (hst : st < 4) : (c.gateUnit b st).unitState b = st := by
  unfold Chip.gateUnit
  exact Chip.unitState_set hb hst

theorem exec_blockActive_granted {i : Initiator} {h : Half} {b : Fin 128} {s : State} (hport : s.chip.portCause i true (Reg.POWER_BLK_REQ h.idx) = 0)
    (hdown : s.chip.down.get h = false) (hbusy : s.chip.on (F.POWER_BLK_RESULT_BUSY h.idx) = false) (hb : b < 126) (hhalf : claimHalf b = h) :
    exec (.blockActive i h b) s = .next (s.withChip ((s.chip.setUnitState b 0).unitResult h 0 b 0)) := by
  have hexec : exec (.blockActive i h b) s = s.go (s.chip.unitWrite i h 0 b.val true) := rfl
  rw [hexec, Chip.unitWrite_granted hport hdown, Chip.unitRequest_active hbusy hb hhalf]
  exact s.go_eq _

/-- Clause 2: a unit that is free takes the state asked for. -/
theorem unitsGated (i : Initiator) (h : Half) (b : Fin 128) (parked : Bool) (s : State) :
    let c := s.chip
    let done (t : Chip) (st : Nat) : Prop := t.unitState b = st ∧ t.q (F.POWER_BLK_RESULT_UNIT h.idx) = b ∧ t.q (F.POWER_BLK_RESULT_RESULT h.idx) = 0
    c.portCause i true (Reg.POWER_BLK_REQ h.idx) = 0 → c.down.get h = false → c.on (F.POWER_BLK_RESULT_BUSY h.idx) = false → b < 126 → claimHalf b = h →
    (∃ t, exec (.blockActive i h b) s = .next (s.withChip t) ∧ done t 0) ∧
    (c.claimed h b = false → c.unitBusy b parked = false → c.gateEngine b = none →
      (∃ t, exec (.clockGated i h b parked) s = .next (s.withChip t) ∧ done t 1) ∧ (∃ t, exec (.powerGated i h b parked) s = .next (s.withChip t) ∧ done t 2)) := by
  intro c done hport hdown hbusy hb hhalf
  have hresult (d : Chip) {st : Nat} (k : Nat) (hd : d.unitState b = st) : done (d.unitResult h k b 0) st := by
    obtain ⟨hst, hunit, hres⟩ := Chip.unitResult_done (c := d) h b.isLt k
    exact ⟨hst.trans hd, hunit, hres⟩
  have hrun {st : Nat} {t : Chip} {x : Instr} (hx : exec x s = s.go (c.unitWrite i h st b parked)) (ht : c.unitRequest i h st b parked = t) : exec x s = .next (s.withChip t) :=
    hx.trans ((s.go_eq _).trans (congrArg (fun y => Host.Outcome.next (s.withChip y)) ((Chip.unitWrite_granted hport hdown).trans ht)))
  refine ⟨⟨_, exec_blockActive_granted hport hdown hbusy hb hhalf, hresult _ 0 (Chip.unitState_set b.isLt (by decide))⟩, fun hclaim hunit hgate => ⟨?_, ?_⟩⟩
  · exact ⟨_, hrun (st := 1) rfl (Chip.unitRequest_gated hbusy hb hhalf (by decide) (by decide) hclaim hunit hgate), hresult _ 1 (Chip.unitState_gateUnit b.isLt (by decide))⟩
  · exact ⟨_, hrun (st := 2) rfl (Chip.unitRequest_gated hbusy hb hhalf (by decide) (by decide) hclaim hunit hgate), hresult _ 2 (Chip.unitState_gateUnit b.isLt (by decide))⟩

/-! ### Limits -/

section
variable {c : Chip} {h : Half}

theorem Chip.reg_setPower (c : Chip) (h : Half) (x : PowerSt) (a : Nat) : (c.setPower h x).reg a = c.reg a := rfl

/-- The readings of the rails leave a register beside theirs, and the power state but for the rails found bad. -/
theorem Chip.reg_readRails {a : Nat} (hpage : powerPage a) (ha : ∀ k < 11, a ≠ Reg.POWER_RAIL h.idx k) (l : List (BitVec 16 × BitVec 16)) : (c.readRails h l).reg a = c.reg a := by
  unfold Chip.readRails
  refine foldl_keeps_mem (fun y : Chip => y.reg a) _ _ (fun d p hp => ?_) _
  have hk : p.2 < 11 := by
    have := (List.mem_zipIdx hp).2.1
    rw [List.length_take] at this
    omega
  extract_lets +onlyGivenNames k mv e
  have hput (y : Chip) (f : RF) (v : Nat) (hf : f.addr = Reg.POWER_RAIL h.idx p.2) : (y.put f v).reg a = y.reg a := Chip.reg_setReg_ne y _ (hf ▸ ha _ hk)
  have he : e.reg a = d.reg a := (hput _ _ _ rfl).trans (hput d _ _ rfl)
  clear_value e mv
  extract_lets +onlyGivenNames x bad was g
  have hg : g.reg a = e.reg a := Chip.reg_setPower e h _ a
  clear_value g
  exact (ite_keeps (f := fun y : Chip => y.reg a) (Chip.reg_raise _ _ hpage.quiet) rfl).trans (hg.trans he)

theorem Chip.power_readRails (l : List (BitVec 16 × BitVec 16)) : ((c.readRails h l).powerOf h).arr = (c.powerOf h).arr := by
  unfold Chip.readRails
  refine foldl_keeps (fun y : Chip => (y.powerOf h).arr) _ (fun d p => ?_) _ _
  extract_lets +onlyGivenNames k mv e
  have he : e.power = d.power := (Chip.put_keeps Chip.power (fun _ _ => rfl) _ _ _).trans (Chip.put_keeps Chip.power (fun _ _ => rfl) _ _ _)
  clear_value e
  extract_lets +onlyGivenNames x bad was g
  have hg : (g.powerOf h).arr = (d.powerOf h).arr := (congrArg PowerSt.arr (Chip.powerOf_setPower e h _)).trans (congrArg (fun y => (y.get h).arr) he)
  clear_value g
  exact (ite_keeps (f := fun y : Chip => (y.powerOf h).arr) (EventPart.ev (f := fun y : Chip => (y.powerOf h).arr) (fun _ _ _ _ _ _ _ _ _ _ _ _ => rfl) _ _ _ _) rfl).trans hg

/-- The steps lowered and counted, and told of. -/
def Chip.stepsLowered (c : Chip) (h : Half) (x : PowerSt) (cause : Nat) : Chip :=
  let d := (((((c.setPower h x).setThrottle h 1 (decide (cause = 0))).setThrottle h 2 (decide (cause = 1))).inc (F.POWER_CAP_CNT_COUNT h.idx)).syncSteps h)
  d.ev h 0x1009 [h.idx, cause, d.q (F.POWER_STATUS_ARR_STEP h.idx), d.q (F.POWER_STATUS_GOUGE_STEP h.idx)]

section
variable {a : Nat} (hpage : powerPage a) (hst : a ≠ Reg.POWER_STATUS h.idx)
include hst

theorem Chip.reg_setThrottle (k : Nat) (v : Bool) : (c.setThrottle h k v).reg a = c.reg a := Chip.reg_setReg_ne _ _ hst

include hpage

theorem Chip.reg_stepsLowered (hcnt : a ≠ Reg.POWER_CAP_CNT h.idx) (x : PowerSt) (cause : Nat) : (c.stepsLowered h x cause).reg a = c.reg a := by
  unfold Chip.stepsLowered
  extract_lets d
  have hd : d.reg a = c.reg a := (Chip.reg_syncSteps hst).trans ((Chip.reg_setReg_ne _ _ hcnt).trans ((Chip.reg_setThrottle hst _ _).trans (Chip.reg_setThrottle (c := c.setPower h x) hst _ _)))
  exact (Chip.reg_raise _ _ hpage.quiet).trans hd

end

theorem Chip.power_put (c : Chip) (f : RF) (v : Nat) : (c.put f v).power = c.power := rfl

theorem Chip.power_stepsLowered (x : PowerSt) (cause : Nat) : (c.stepsLowered h x cause).power = c.power.set h x := by
  unfold Chip.stepsLowered
  extract_lets d
  have hd : d.power = c.power.set h x := (Chip.power_put _ _ _).trans ((Chip.power_put _ _ _).trans ((Chip.power_put _ _ _).trans ((Chip.power_put _ _ _).trans (Chip.power_put _ _ _))))
  exact (EventPart.ev (f := Chip.power) (fun _ _ _ _ _ _ _ _ _ _ _ _ => rfl) d _ _ _).trans hd

/-- The choice of steps (R512). -/
theorem Chip.reg_chooseSteps {a : Nat} (hpage : powerPage a) (hst : a ≠ Reg.POWER_STATUS h.idx) (hcnt : a ≠ Reg.POWER_CAP_CNT h.idx) (now arr : Nat) :
    (c.chooseSteps h now arr).reg a = c.reg a := by
  unfold Chip.chooseSteps
  extract_lets +onlyGivenNames x cur cap limit fits best cause lowered tell
  have hlow (y : PowerSt) : (tell (lowered (c.setPower h y))).reg a = c.reg a := Chip.reg_stepsLowered hpage hst hcnt y cause
  clear_value best
  clear_value tell lowered
  cases best with
  | none => exact ite_keeps (f := fun y : Chip => y.reg a) (hlow _) (ite_keeps (f := fun y : Chip => y.reg a) (hlow _) rfl)
  | some b =>
    refine ite_keeps (f := fun y : Chip => y.reg a) (hlow _) (ite_keeps (f := fun y : Chip => y.reg a) rfl ?_)
    refine ite_keeps (f := fun y : Chip => y.reg a) rfl ?_
    extract_lets +onlyGivenNames z d e
    have he : e.reg a = d.reg a := ite_keeps (f := fun y : Chip => y.reg a) ((Chip.reg_setThrottle hst _ _).trans (Chip.reg_setThrottle hst _ _)) rfl
    exact (Chip.reg_syncSteps hst).trans he

theorem Chip.chooseSteps_none {now arr : Nat} (hfits : ∀ k < 6, predictFits now arr (c.q (F.POWER_STATUS_ARR_STEP h.idx)) k (min 1150 (c.q (F.POWER_CAP_DW h.idx))) = false)
    (harr : (c.powerOf h).arr < 5) : ∃ cause, c.chooseSteps h now arr = c.stepsLowered h { c.powerOf h with arr := 5, fits := 0 } cause := by
  have hnone : (List.range 6).find? (fun k => predictFits now arr (c.q (F.POWER_STATUS_ARR_STEP h.idx)) k (min 1150 (c.q (F.POWER_CAP_DW h.idx)))) = none :=
    List.find?_eq_none.2 fun k hk => Bool.eq_false_iff.1 (hfits k (List.mem_range.1 hk))
  refine ⟨b2n (decide (c.q (F.POWER_CAP_DW h.idx) < 1150)), ?_⟩
  unfold Chip.chooseSteps
  dsimp only
  rw [hnone]
  exact if_pos harr

theorem Chip.arrayStep_ge (c : Chip) (h : Half) : (c.powerOf h).arr ≤ c.arrayStep h ∧ (c.powerOf h).lim ≤ c.arrayStep h :=
  ⟨(Nat.le_max_left _ _).trans (Nat.le_max_left _ _), (Nat.le_max_right _ _).trans (Nat.le_max_left _ _)⟩

end

theorem exec_powerEvaluation_up {h : Half} {s : State} (hdown : s.chip.down.get h = false) (now arr : BitVec 16) (rails : List (BitVec 16 × BitVec 16)) :
    exec (.powerEvaluation h now arr rails) s = .next (s.withChip (((((s.chip.readRails h rails).put (F.POWER_NOW_DW h.idx) now.toNat).put (F.POWER_PEAK_DW h.idx)
      (max ((s.chip.readRails h rails).q (F.POWER_PEAK_DW h.idx)) now.toNat))).chooseSteps h now.toNat arr.toNat)) := by
  have hexec : exec (.powerEvaluation h now arr rails) s = execPowerEvaluation h now arr rails s := rfl
  unfold execPowerEvaluation at hexec
  exact hexec.trans ((if_neg (Bool.eq_false_iff.1 hdown)).trans (s.go_eq _))

/-- Clause 3: a power evaluation. -/
theorem powerEvaluated (h : Half) (now arr : BitVec 16) (rails : List (BitVec 16 × BitVec 16)) (s : State) :
    let c := s.chip
    let cur := c.q (F.POWER_STATUS_ARR_STEP h.idx)
    c.down.get h = false →
    ∃ t, exec (.powerEvaluation h now arr rails) s = .next (s.withChip t) ∧ t.q (F.POWER_NOW_DW h.idx) = now.toNat ∧
      t.q (F.POWER_PEAK_DW h.idx) = max (c.q (F.POWER_PEAK_DW h.idx)) now.toNat ∧
      ((∀ k < 6, predictFits now.toNat arr.toNat cur k (min 1150 (c.q (F.POWER_CAP_DW h.idx))) = false) → (c.powerOf h).arr < 5 →
        (t.powerOf h).arr = 5 ∧ 5 ≤ t.arrayStep h) := by
  intro c cur hdown
  have hrail {k : Nat} (hk : k < 0x40) (a : Nat) (ha : a = 0x1000000 + k + h.idx * 0x80000) : (c.readRails h rails).reg a = c.reg a :=
    Chip.reg_readRails (by rw [ha]; exact powerPage_reg h (by omega)) (fun j _ => by unfold Reg.POWER_RAIL; omega) rails
  refine ⟨_, exec_powerEvaluation_up hdown now arr rails, ?_⟩
  have hpeak : (c.readRails h rails).q (F.POWER_PEAK_DW h.idx) = c.q (F.POWER_PEAK_DW h.idx) := congrArg (fun v => bits v 0 16) (hrail (k := 0x10) (by decide) _ rfl)
  have hcur : (c.readRails h rails).q (F.POWER_STATUS_ARR_STEP h.idx) = cur := congrArg (fun v => bits v 27 3) (hrail (k := 0x18) (by decide) _ rfl)
  have hcap : (c.readRails h rails).q (F.POWER_CAP_DW h.idx) = c.q (F.POWER_CAP_DW h.idx) := congrArg (fun v => bits v 0 16) (hrail (k := 8) (by decide) _ rfl)
  have harr : ((c.readRails h rails).powerOf h).arr = (c.powerOf h).arr := Chip.power_readRails rails
  show ((((c.readRails h rails).put (F.POWER_NOW_DW h.idx) now.toNat).put (F.POWER_PEAK_DW h.idx) (max ((c.readRails h rails).q (F.POWER_PEAK_DW h.idx)) now.toNat)).chooseSteps h now.toNat
    arr.toNat).q (F.POWER_NOW_DW h.idx) = _ ∧ _
  rw [hpeak]
  generalize c.readRails h rails = d at hcur hcap harr
  have hne : Reg.POWER_NOW h.idx ≠ Reg.POWER_PEAK h.idx := by unfold Reg.POWER_NOW Reg.POWER_PEAK; omega
  have hnow : ((d.put (F.POWER_NOW_DW h.idx) now.toNat).put (F.POWER_PEAK_DW h.idx) (max (c.q (F.POWER_PEAK_DW h.idx)) now.toNat)).q (F.POWER_NOW_DW h.idx) = now.toNat :=
    (Chip.q_setReg_ne _ _ hne).trans ((Chip.q_put_same _ _ _ (Nat.le_of_ble_eq_true rfl)).trans (Nat.mod_eq_of_lt now.isLt))
  have hmax : max (c.q (F.POWER_PEAK_DW h.idx)) now.toNat < 2 ^ 16 := max_lt (Nat.mod_lt _ (Nat.two_pow_pos _)) now.isLt
  have hshown : ((d.put (F.POWER_NOW_DW h.idx) now.toNat).put (F.POWER_PEAK_DW h.idx) (max (c.q (F.POWER_PEAK_DW h.idx)) now.toNat)).q (F.POWER_PEAK_DW h.idx) =
      max (c.q (F.POWER_PEAK_DW h.idx)) now.toNat := (Chip.q_put_same _ _ _ (Nat.le_of_ble_eq_true rfl)).trans (Nat.mod_eq_of_lt hmax)
  have hreg {a : Nat} (hn : a ≠ Reg.POWER_NOW h.idx) (hp : a ≠ Reg.POWER_PEAK h.idx) :
      ((d.put (F.POWER_NOW_DW h.idx) now.toNat).put (F.POWER_PEAK_DW h.idx) (max (c.q (F.POWER_PEAK_DW h.idx)) now.toNat)).reg a = d.reg a :=
    (Chip.reg_setReg_ne _ _ hp).trans (Chip.reg_setReg_ne _ _ hn)
  have hpower : ((d.put (F.POWER_NOW_DW h.idx) now.toNat).put (F.POWER_PEAK_DW h.idx) (max (c.q (F.POWER_PEAK_DW h.idx)) now.toNat)).power = d.power :=
    (Chip.power_put _ _ _).trans (Chip.power_put _ _ _)
  generalize (d.put (F.POWER_NOW_DW h.idx) now.toNat).put (F.POWER_PEAK_DW h.idx) (max (c.q (F.POWER_PEAK_DW h.idx)) now.toNat) = e at hnow hshown hreg hpower
  refine ⟨?_, ?_, fun hfits hlow => ?_⟩
  · refine (congrArg (fun v => bits v 0 16) (Chip.reg_chooseSteps (powerPage_reg h (k := 0xc) (by decide)) ?_ ?_ _ _)).trans hnow
    · unfold Reg.POWER_STATUS; omega
    · unfold Reg.POWER_CAP_CNT; omega
  · refine (congrArg (fun v => bits v 0 16) (Chip.reg_chooseSteps (powerPage_reg h (k := 0x10) (by decide)) ?_ ?_ _ _)).trans hshown
    · unfold Reg.POWER_STATUS; omega
    · unfold Reg.POWER_CAP_CNT; omega
  · have hcur' : e.q (F.POWER_STATUS_ARR_STEP h.idx) = cur :=
      (congrArg (fun v => bits v 27 3) (hreg (a := Reg.POWER_STATUS h.idx) (by unfold Reg.POWER_STATUS Reg.POWER_NOW; omega) (by unfold Reg.POWER_STATUS Reg.POWER_PEAK; omega))).trans hcur
    have hcap' : e.q (F.POWER_CAP_DW h.idx) = c.q (F.POWER_CAP_DW h.idx) :=
      (congrArg (fun v => bits v 0 16) (hreg (a := Reg.POWER_CAP h.idx) (by unfold Reg.POWER_CAP Reg.POWER_NOW; omega) (by unfold Reg.POWER_CAP Reg.POWER_PEAK; omega))).trans hcap
    have harr' : (e.powerOf h).arr < 5 := by
      unfold Chip.powerOf
      rw [hpower]
      exact lt_of_eq_of_lt harr hlow
    obtain ⟨cause, heq⟩ := Chip.chooseSteps_none (c := e) (h := h) (now := now.toNat) (arr := arr.toNat) (by rw [hcur', hcap']; exact hfits) harr'
    rw [heq]
    have hlowest : ((e.stepsLowered h { e.powerOf h with arr := 5, fits := 0 } cause).powerOf h).arr = 5 :=
      congrArg PowerSt.arr ((congrArg (fun y => y.get h) (Chip.power_stepsLowered _ cause)).trans (Pair.get_set_same _ _ _))
    exact ⟨hlowest, le_of_eq_of_le hlowest.symm (Chip.arrayStep_ge _ h).1⟩

/-- The limiter of a half at a step, with the bit that tells of it. -/
def Chip.limited (c : Chip) (h : Half) (n : Nat) (v : Bool) : Chip := ((c.setPower h { c.powerOf h with lim := n }).setThrottle h 0 v).syncSteps h

section
variable {c : Chip} {h : Half} {n : Nat} {v : Bool}

theorem Chip.power_limited : (c.limited h n v).powerOf h = { c.powerOf h with lim := n } := by
  have hpower (d : Chip) : ((d.setThrottle h 0 v).syncSteps h).power = d.power := (Chip.power_put _ _ _).trans ((Chip.power_put _ _ _).trans (Chip.power_put _ _ _))
  exact (congrArg (fun y => y.get h) (hpower _)).trans (Chip.powerOf_setPower c h _)

theorem Chip.throttled_limited : (c.limited h n v).throttled h 0 = v := by
  have hput (d : Chip) : (d.setThrottle h 0 v).q (F.POWER_STATUS_THROTTLE h.idx) = setBit (d.q (F.POWER_STATUS_THROTTLE h.idx)) 0 v % 2 ^ 5 :=
    Chip.q_put_same _ _ _ (Nat.le_of_ble_eq_true rfl)
  have hsync (d : Chip) : (d.syncSteps h).q (F.POWER_STATUS_THROTTLE h.idx) = d.q (F.POWER_STATUS_THROTTLE h.idx) := Chip.q_syncSteps (.inl (by decide))
  unfold Chip.throttled Chip.limited
  rw [hsync, hput, bit_eq_testBit, Nat.testBit_mod_two_pow, testBit_setBit, if_pos rfl]
  rfl

theorem Chip.reg_limited {a : Nat} (ha : a ≠ Reg.POWER_STATUS h.idx) : (c.limited h n v).reg a = c.reg a :=
  (Chip.reg_syncSteps ha).trans ((Chip.reg_setThrottle ha _ _).trans (Chip.reg_setPower _ _ _ _))

theorem Chip.own_limited : (c.limited h n v).own = c.own := by
  have hput (d : Chip) (f : RF) (x : Nat) : (d.put f x).own = d.own := rfl
  have hset (d : Chip) (x : PowerSt) : (d.setPower h x).own = d.own := rfl
  exact (hput _ _ _).trans ((hput _ _ _).trans ((hput _ _ _).trans (hset _ _)))

end

section
variable {h : Half} {s : State} (hdown : s.chip.down.get h = false)
include hdown

theorem exec_fastCurrentLimiter_first (hlim : (s.chip.powerOf h).lim = 0) (current : BitVec 16) : exec (.fastCurrentLimiter h current) s =
    .next (s.withChip (((s.chip.limited h 3 true).inc (F.POWER_LIMIT_CNT_COUNT h.idx)).ev h 0x1008 [h.idx, current.toNat])) := by
  have hexec : exec (.fastCurrentLimiter h current) s = execFastCurrentLimiter h current s := rfl
  unfold execFastCurrentLimiter at hexec
  have hrun := hexec.trans ((if_neg (Bool.eq_false_iff.1 hdown)).trans ((if_pos hlim).trans (s.go_eq _)))
  rw [hlim] at hrun
  exact hrun

theorem exec_limiterRelease_held (hlim : 0 < (s.chip.powerOf h).lim) : exec (.limiterRelease h) s =
    .next (s.withChip (s.chip.limited h (if (s.chip.powerOf h).lim - 1 ≤ (s.chip.powerOf h).arr then 0 else (s.chip.powerOf h).lim - 1)
      (decide (0 < (if (s.chip.powerOf h).lim - 1 ≤ (s.chip.powerOf h).arr then 0 else (s.chip.powerOf h).lim - 1))))) := by
  have hexec : exec (.limiterRelease h) s = execLimiterRelease h s := rfl
  unfold execLimiterRelease at hexec
  exact hexec.trans ((if_neg fun hc => hc.elim (Bool.eq_false_iff.1 hdown) (Nat.ne_of_gt hlim)).trans (s.go_eq _))

/-- Clause 4: the fast current limiter. -/
theorem limiterSteps (current : BitVec 16) :
    let c := s.chip
    let x := c.powerOf h
    (x.lim = 0 → ∃ t, exec (.fastCurrentLimiter h current) s = .next (s.withChip t) ∧ (t.powerOf h).lim = 3 ∧ 3 ≤ t.arrayStep h ∧
      t.q (F.POWER_LIMIT_CNT_COUNT h.idx) = (c.inc (F.POWER_LIMIT_CNT_COUNT h.idx)).q (F.POWER_LIMIT_CNT_COUNT h.idx)) ∧
    (0 < x.lim → ∃ t, exec (.limiterRelease h) s = .next (s.withChip t) ∧
      (t.powerOf h).lim = (if x.lim - 1 ≤ x.arr then 0 else x.lim - 1) ∧ t.throttled h 0 = decide (0 < (t.powerOf h).lim) ∧ t.own = c.own) := by
  intro c x
  refine ⟨fun hlim => ⟨_, exec_fastCurrentLimiter_first hdown hlim current, ?_⟩, fun hlim => ⟨_, exec_limiterRelease_held hdown hlim, ?_⟩⟩
  · have hlim3 : ((c.limited h 3 true).powerOf h).lim = 3 := congrArg PowerSt.lim Chip.power_limited
    have hcnt : (c.limited h 3 true).q (F.POWER_LIMIT_CNT_COUNT h.idx) = c.q (F.POWER_LIMIT_CNT_COUNT h.idx) :=
      congrArg (fun v => bits v 0 32) (Chip.reg_limited (by show Reg.POWER_LIMIT_CNT h.idx ≠ _; unfold Reg.POWER_LIMIT_CNT Reg.POWER_STATUS; omega))
    have hquiet : ¬ eventReg (Reg.POWER_LIMIT_CNT h.idx) := (powerPage_reg h (k := 0x180) (by decide)).quiet
    generalize c.limited h 3 true = d at hlim3 hcnt
    have hlim' : (((d.inc (F.POWER_LIMIT_CNT_COUNT h.idx)).ev h 0x1008 [h.idx, current.toNat]).powerOf h).lim = 3 :=
      (EventPart.ev (f := fun y : Chip => (y.powerOf h).lim) (fun _ _ _ _ _ _ _ _ _ _ _ _ => rfl) _ _ _ _).trans
        ((Chip.put_keeps (fun y => (y.powerOf h).lim) (fun _ _ => rfl) _ _ _).trans hlim3)
    refine ⟨hlim', le_of_eq_of_le hlim'.symm (Chip.arrayStep_ge _ h).2, (Chip.q_raise _ _ hquiet).trans ?_⟩
    rw [Chip.q_inc_same _ _ (Nat.le_of_ble_eq_true rfl), Chip.q_inc_same _ _ (Nat.le_of_ble_eq_true rfl), hcnt]
  · have hlow := congrArg PowerSt.lim (Chip.power_limited (c := c) (h := h) (n := if x.lim - 1 ≤ x.arr then 0 else x.lim - 1) (v := decide (0 < (if x.lim - 1 ≤ x.arr then 0 else x.lim - 1))))
    refine ⟨hlow, ?_, Chip.own_limited⟩
    exact Chip.throttled_limited.trans (congrArg (fun k => decide (0 < k)) hlow.symm)

end

/-! ### Temperatures -/

/-- A list of readings written to the registers of the sensors from one on. -/
def Chip.tempsTaken (c : Chip) (h : Half) (l : List (BitVec 16)) (n : Nat) : Chip := (l.zipIdx n).foldl (fun c p => c.put (F.POWER_TEMP_TEMP h.idx p.2) p.1.toNat) c

theorem Chip.tempsTaken_keeps {γ : Type} (f : Chip → γ) (hr : ∀ c r, f { c with regs := r } = f c) (c : Chip) (h : Half) (l : List (BitVec 16)) (n : Nat) :
    f (c.tempsTaken h l n) = f c := foldl_keeps f _ (fun _ _ => Chip.put_keeps f hr _ _ _) _ _

/-- Each sensor's register holds its reading, and the ones before the first are as before. -/
theorem Chip.q_tempsTaken (h : Half) (l : List (BitVec 16)) (n : Nat) (c : Chip) :
    (∀ k < n, (c.tempsTaken h l n).q (F.POWER_TEMP_TEMP h.idx k) = c.q (F.POWER_TEMP_TEMP h.idx k)) ∧
      ∀ k v, l[k]? = some v → (c.tempsTaken h l n).q (F.POWER_TEMP_TEMP h.idx (n + k)) = v.toNat := by
  induction l generalizing n c with
  | nil => exact ⟨fun _ _ => rfl, fun k v hv => absurd hv.symm (Option.some_ne_none v)⟩
  | cons a l ih =>
    have hcons : c.tempsTaken h (a :: l) n = (c.put (F.POWER_TEMP_TEMP h.idx n) a.toNat).tempsTaken h l (n + 1) := rfl
    obtain ⟨hlow, hin⟩ := ih (n + 1) (c.put (F.POWER_TEMP_TEMP h.idx n) a.toNat)
    rw [hcons]
    refine ⟨fun k hk => (hlow k (by omega)).trans (Chip.q_setReg_ne _ _ ?_), fun k v hv => ?_⟩
    · show Reg.POWER_TEMP h.idx k ≠ Reg.POWER_TEMP h.idx n
      unfold Reg.POWER_TEMP
      omega
    · cases k with
      | zero =>
        obtain rfl : a = v := Option.some.inj hv
        exact (hlow n (by omega)).trans ((Chip.q_put_same _ _ _ (Nat.le_of_ble_eq_true rfl)).trans (Nat.mod_eq_of_lt a.isLt))
      | succ k =>
        rw [show n + (k + 1) = n + 1 + k by omega]
        exact hin k v hv

/-- The hottest of some sensors is as hot as each of them, and one of them. -/
theorem hottest_spec (g : Nat → Int) (n : Nat) :
    let r := (List.range n).foldl (fun p k => if p.2 < g k then (k, g k) else p) (0, g 0)
    g 0 ≤ r.2 ∧ (∀ k < n, g k ≤ r.2) ∧ ∃ k, (k = 0 ∨ k < n) ∧ r.2 = g k := by
  induction n with
  | zero => exact ⟨le_refl _, fun k hk => absurd hk (Nat.not_lt_zero k), 0, .inl rfl, rfl⟩
  | succ n ih =>
    obtain ⟨hzero, hall, k, hk, hr⟩ := ih
    rw [List.range_succ, List.foldl_append]
    generalize (List.range n).foldl (fun p k => if p.2 < g k then (k, g k) else p) (0, g 0) = r at hzero hall hr
    show g 0 ≤ (if r.2 < g n then (n, g n) else r).2 ∧ (∀ k < n + 1, g k ≤ (if r.2 < g n then (n, g n) else r).2) ∧ ∃ k, (k = 0 ∨ k < n + 1) ∧ (if r.2 < g n then (n, g n) else r).2 = g k
    split
    · next hlt =>
        refine ⟨(hzero.trans_lt hlt).le, fun k hk => ?_, n, .inr (by omega), rfl⟩
        rcases Nat.lt_succ_iff_lt_or_eq.1 hk with hk | rfl
        · exact ((hall k hk).trans_lt hlt).le
        · exact le_refl _
    · next hge =>
        refine ⟨hzero, fun k hk => ?_, k, by omega, hr⟩
        rcases Nat.lt_succ_iff_lt_or_eq.1 hk with hk | rfl
        · exact hall k hk
        · exact not_lt.1 hge

section
variable {c : Chip} {h : Half}

theorem Chip.hottest_spec (c : Chip) (h : Half) : (∀ k < 14, sgn 16 (c.q (F.POWER_TEMP_TEMP h.idx k)) ≤ (c.hottest h).2) ∧
    ∃ k < 14, (c.hottest h).2 = sgn 16 (c.q (F.POWER_TEMP_TEMP h.idx k)) := by
  obtain ⟨-, hall, k, hk, hr⟩ := Machine.hottest_spec (fun k => sgn 16 (c.q (F.POWER_TEMP_TEMP h.idx k))) 14
  exact ⟨hall, k, by omega, hr⟩

/-- A trip level leaves its bit and its count (R515). -/
theorem Chip.trip_keeps {γ : Type} {f : Chip → γ} (hr : ∀ c e, f (c.raise e) = f c) (hst : ∀ c v, f (c.put (F.POWER_STATUS_THROTTLE h.idx) v) = f c)
    (hcnt : ∀ c, f (c.inc (F.POWER_TRIP_CNT_COUNT h.idx)) = f c) (c : Chip) (n thr code : Nat) : f (c.trip h n thr code) = f c := by
  unfold Chip.trip
  dsimp only
  refine ite_keeps rfl ((hr _ _).trans ((ite_keeps (hcnt _) rfl).trans (hst _ _)))

/-- The levels told of, the trips and the steps, after the sensors are read. -/
def Chip.heatTold (c : Chip) (h : Half) (x : PowerSt) : Chip :=
  let t := (c.hottest h).2
  let warn := levelHolds x.warned t (c.q (F.POWER_THERM_WARN_C h.idx))
  let d := c.setPower h { x with warned := warn }
  let e := if warn = x.warned then d else d.ev h 0x1010 [h.idx, (c.hottest h).1, unsgn 16 t]
  ((e.trip h 3 110 0x1011).trip h 4 115 0x1012).syncSteps h

theorem Chip.heatTold_keeps {γ : Type} {f : Chip → γ} (hr : ∀ c e, f (c.raise e) = f c) (hst : ∀ c lo wid v, f (c.put ⟨Reg.POWER_STATUS h.idx, lo, wid⟩ v) = f c)
    (hcnt : ∀ c, f (c.inc (F.POWER_TRIP_CNT_COUNT h.idx)) = f c) (hp : ∀ c x, f (c.setPower h x) = f c) (c : Chip) (x : PowerSt) : f (c.heatTold h x) = f c := by
  unfold Chip.heatTold
  extract_lets +onlyGivenNames t warn d e
  have hd : f d = f c := hp _ _
  have he : f e = f d := ite_keeps rfl (hr _ _)
  clear_value e
  have htrips : f ((e.trip h 3 110 0x1011).trip h 4 115 0x1012) = f e :=
    (Chip.trip_keeps hr (fun c v => hst c _ _ v) hcnt _ _ _ _).trans (Chip.trip_keeps hr (fun c v => hst c _ _ v) hcnt _ _ _ _)
  exact (hst _ _ _ _).trans ((hst _ _ _ _).trans (htrips.trans (he.trans hd)))

end

theorem exec_temperatureRead_up {h : Half} {s : State} (hdown : s.chip.down.get h = false) (temps : List (BitVec 16)) :
    let d := s.chip.tempsTaken h (temps.take 18) 0
    let e := d.heatTold h (s.chip.powerOf h)
    exec (.temperatureRead h temps) s = .next (s.withChip (if (d.hottest h).2 < 2000 then e
      else (e.setPower h { e.powerOf h with critical := true, report := some ((d.hottest h).1, unsgn 16 (d.hottest h).2) }).loseHalf h)) := by
  intro d e
  have hexec : exec (.temperatureRead h temps) s = execTemperatureRead h temps s := rfl
  unfold execTemperatureRead at hexec
  refine hexec.trans ((if_neg (Bool.eq_false_iff.1 hdown)).trans ?_)
  exact s.go_ite _ _ _

theorem Chip.down_heatTold (c : Chip) (h : Half) (x : PowerSt) : (c.heatTold h x).down = c.down :=
  Chip.heatTold_keeps eventPart_down.raise (fun c _ _ v => eventPart_down.put c _ v) (fun c => eventPart_down.inc c _) (fun _ _ => rfl) c x

theorem Chip.q_heatTold {k : Nat} (hk : k < 18) (c : Chip) (h : Half) (x : PowerSt) : (c.heatTold h x).q (F.POWER_TEMP_TEMP h.idx k) = c.q (F.POWER_TEMP_TEMP h.idx k) := by
  have hpage : powerPage (Reg.POWER_TEMP h.idx k) := by
    rw [show Reg.POWER_TEMP h.idx k = 0x1000000 + (0x80 + k * 4) + h.idx * 0x80000 by unfold Reg.POWER_TEMP; omega]
    exact powerPage_reg h (by omega)
  have hst : Reg.POWER_TEMP h.idx k ≠ Reg.POWER_STATUS h.idx := by unfold Reg.POWER_TEMP Reg.POWER_STATUS; omega
  have hcnt : Reg.POWER_TEMP h.idx k ≠ Reg.POWER_TRIP_CNT h.idx := by unfold Reg.POWER_TEMP Reg.POWER_TRIP_CNT; omega
  exact Chip.heatTold_keeps (f := fun c : Chip => c.q (F.POWER_TEMP_TEMP h.idx k)) (fun c e => c.q_raise e hpage.quiet) (fun _ _ _ _ => Chip.q_setReg_ne _ _ hst)
    (fun _ => Chip.q_setReg_ne _ _ hcnt) (fun c x => congrArg (fun v => bits v 0 16) (c.reg_setPower h x _)) c x

/-- The readings of the 14 sensors of the dies say how hot the hottest is. -/
theorem Chip.hottest_tempsTaken (c : Chip) (h : Half) {temps : List (BitVec 16)} (hlen : 18 ≤ temps.length) :
    ((∀ v ∈ temps.take 14, v.toInt < 2000) → ((c.tempsTaken h (temps.take 18) 0).hottest h).2 < 2000) ∧
    ((∃ v ∈ temps.take 14, 2000 ≤ v.toInt) → ¬ ((c.tempsTaken h (temps.take 18) 0).hottest h).2 < 2000) := by
  have hread (k : Nat) (hk : k < 14) : sgn 16 ((c.tempsTaken h (temps.take 18) 0).q (F.POWER_TEMP_TEMP h.idx k)) = (temps[k]'(by omega)).toInt := by
    have hget : (temps.take 18)[k]? = some (temps[k]'(by omega)) := (List.getElem?_take_of_lt (by omega)).trans (List.getElem?_eq_getElem _)
    have hq := (Chip.q_tempsTaken h (temps.take 18) 0 c).2 k _ hget
    rw [Nat.zero_add] at hq
    rw [hq, sgn_eq_toInt (by decide), BitVec.ofNat_toNat, BitVec.setWidth_eq]
  obtain ⟨hall, k, hk, hmax⟩ := Chip.hottest_spec (c.tempsTaken h (temps.take 18) 0) h
  refine ⟨fun hcold => ?_, fun ⟨v, hv, hhot⟩ => ?_⟩
  · rw [hmax, hread k hk]
    exact hcold _ (List.mem_take_iff_getElem.2 ⟨k, by omega, rfl⟩)
  · obtain ⟨j, hj, rfl⟩ := List.mem_take_iff_getElem.1 hv
    have hj' : j < 14 := by omega
    exact not_lt.2 (hhot.trans (le_of_eq_of_le (hread j hj').symm (hall j hj')))

/-- A half that has read a critical temperature is down, and will not come back until it has cooled. -/
theorem Chip.critical_loseHalf {c : Chip} {h : Half} (hdown : c.down.get h = false) (x : PowerSt) :
    ((c.setPower h x).loseHalf h).down.get h = true ∧ (((c.setPower h x).loseHalf h).powerOf h).critical = x.critical := by
  have hset : (c.setPower h x).powerOf h = x := Chip.powerOf_setPower c h x
  have hup : (c.setPower h x).down.get h = false := (congrArg (fun p => p.get h) (c.setPower_down h x)).trans hdown
  generalize c.setPower h x = d at hset hup
  refine ⟨(congrArg (fun p => p.get h) (Chip.down_loseHalf d h)).trans (Pair.get_set_same _ _ _), ?_⟩
  have hwiped : (d.loseHalf h).powerOf h = (d.powerOf h).wiped := (congrArg (fun p => p.get h) (Chip.power_loseHalf hup)).trans (Pair.get_set_same _ _ _)
  rw [hwiped, hset]
  rfl

/-- Clause 5: the sensors of a half. -/
theorem temperaturesRead (h : Half) (temps : List (BitVec 16)) (k : Nat) (v : BitVec 16) (s : State) :
    s.chip.down.get h = false → 18 ≤ temps.length →
    ∃ t, exec (.temperatureRead h temps) s = .next (s.withChip t) ∧
      ((∀ v ∈ temps.take 14, v.toInt < 2000) → t.down = s.chip.down ∧ (temps[k]? = some v → k < 18 → t.q (F.POWER_TEMP_TEMP h.idx k) = v.toNat)) ∧
      ((∃ v ∈ temps.take 14, 2000 ≤ v.toInt) → t.down.get h = true ∧ (t.powerOf h).critical = true) := by
  intro hdown hlen
  have hexec := exec_temperatureRead_up hdown temps
  obtain ⟨hcold, hhot⟩ := s.chip.hottest_tempsTaken h hlen
  have hq := (Chip.q_tempsTaken h (temps.take 18) 0 s.chip).2 k v
  have hdn : (s.chip.tempsTaken h (temps.take 18) 0).down = s.chip.down := Chip.tempsTaken_keeps Chip.down (fun _ _ => rfl) _ _ _ _
  generalize s.chip.tempsTaken h (temps.take 18) 0 = d at hexec hcold hhot hq hdn
  have hkept := fun hk : k < 18 => d.q_heatTold hk h (s.chip.powerOf h)
  have hdn' := (d.down_heatTold h (s.chip.powerOf h)).trans hdn
  dsimp only at hexec
  generalize d.heatTold h (s.chip.powerOf h) = e at hexec hkept hdn'
  refine ⟨_, hexec, fun hc => ?_, fun hc => ?_⟩
  · rw [if_pos (hcold hc)]
    refine ⟨hdn', fun hv hk => (hkept hk).trans ?_⟩
    have := hq ((List.getElem?_take_of_lt hk).trans hv)
    rwa [Nat.zero_add] at this
  · rw [if_neg (hhot hc)]
    exact Chip.critical_loseHalf ((congrArg (fun p => p.get h) hdn').trans hdown) _

/-! ### The wear ledger -/

/-- What a ledger area holds besides the records still to be compacted. -/
def FlashLedger.core (f : FlashLedger) : Nat × Nat × Bool × List (Nat × Nat) := (f.bank, f.bankSeq, f.valid, f.snap)

section
variable {c : Chip}

theorem Chip.flash_interrupt (c : Chip) (r : Nat) : (c.interrupt r).flash = c.flash := by
  have hirq (k : Half) (p : Bool) (v : Nat) : (c.raiseIrq k p v).flash = c.flash := by
    unfold Chip.raiseIrq
    split <;> rfl
  unfold Chip.interrupt
  split
  · exact hirq _ _ _
  · rfl

theorem Chip.flash_store (c : Chip) (a : Nat) (bs : List Byte) : (c.store a bs).flash = c.flash := Chip.store_keeps Chip.flash (fun _ _ _ _ _ _ => rfl) c a bs

/-- The record of a ring does not touch the ledger's flash. -/
theorem Chip.flash_writeRecord (c : Chip) (r size : Nat) (mk : Nat → Nat → Nat → List Byte) (reserved : Bool) : (c.writeRecord r size mk reserved).2.flash = c.flash := by
  unfold Chip.writeRecord
  split
  · rfl
  split
  · rfl
  split
  · exact Chip.setRingSt_flash _ _ _
  dsimp only
  split
  · exact (Chip.setRingSt_flash _ _ _).trans (Chip.put_flash _ _ _)
  · exact (Chip.flash_interrupt _ _).trans ((Chip.setRingSt_flash _ _ _).trans ((Chip.setReg_flash _ _ _).trans
      ((Chip.setReg_flash _ _ _).trans ((Chip.setReg_flash _ _ _).trans (Chip.flash_store _ _ _)))))

theorem Chip.flash_raiseFw (c : Chip) (e : Event) : (c.raiseFw e).flash = c.flash := by
  unfold Chip.raiseFw
  split
  · rfl
  next r _ =>
    have hw := c.flash_writeRecord r 64 (fun p s l => e.bytes (c.stamp e.half 0) p s l) false
    split
    · next he =>
        rw [he] at hw
        split
        · exact (Chip.setRingSt_flash _ _ _).trans hw
        · exact hw
    · next he =>
        rw [he] at hw
        exact hw

/-- A ledger record leaves the bank in force and its snapshot. -/
theorem Chip.core_ledger (c : Chip) (h k : Half) (kind : Nat) (body : List Byte) (sets : List (Nat × Nat)) :
    ((c.ledger h kind body sets).flash.get k).core = (c.flash.get k).core := by
  unfold Chip.ledger
  dsimp only
  refine (foldl_keeps (fun c : Chip => (c.flash.get k).core) _ (fun d x => ?_) _ _).trans rfl
  refine ite_keeps (f := fun c : Chip => (c.flash.get k).core) rfl ?_
  by_cases hx : x = k
  · subst hx
    refine (congrArg FlashLedger.core (Pair.get_set_same d.flash x _)).trans ?_
    split <;> rfl
  · obtain rfl : k = x.other := by revert hx; cases k <;> cases x <;> decide
    exact congrArg FlashLedger.core (Pair.get_set_other d.flash x _)

theorem Chip.core_logEvent (c : Chip) (e : Event) (k : Half) : ((c.logEvent e).flash.get k).core = (c.flash.get k).core := by
  unfold Chip.logEvent
  exact ite_keeps (f := fun c : Chip => (c.flash.get k).core) rfl ((Chip.core_ledger _ _ _ _ _ _).trans rfl)

theorem Chip.core_ev (c : Chip) (h : Half) (code : Nat) (d : List Nat) (k : Half) : ((c.ev h code d).flash.get k).core = (c.flash.get k).core := by
  have hev : c.ev h code d = (c.logEvent ⟨h, code, none, none, d⟩).raiseFw ⟨h, code, none, none, d⟩ := rfl
  rw [hev, Chip.flash_raiseFw]
  exact Chip.core_logEvent _ _ _

end

/-- The ledger area of a half after its bank has been compacted into the other one. -/
def Chip.compacted (c : Chip) (h : Half) : FlashLedger :=
  let f := c.flash.get h
  { bank := 1 - f.bank, bankSeq := f.bankSeq + 1, valid := true, snap := f.present, snapLog := c.log.take 128
    recs := f.held.drop (f.held.length - 3584), held := f.held.take (f.held.length - 3584)
    snapSeq := ⟨f.lastSeq .H, f.lastSeq .T⟩ }

/-- Clause 6: a full bank is compacted into the other one. -/
theorem bankCompacted (h : Half) (s : State) :
    let c := s.chip
    let f := c.flash.get h
    c.down.get h = false → 3584 ≤ f.recs.length →
    ∃ t, exec (.bankCompaction h false) s = .next (s.withChip t) ∧ (t.flash.get h).bank = 1 - f.bank ∧ (t.flash.get h).bankSeq = f.bankSeq + 1 ∧
      (t.flash.get h).snap = f.present ∧ (t.flash.get h).valid = true := by
  intro c f hdown hfull
  have hexec : exec (.bankCompaction h false) s =
      .next (s.withChip ((((c.setFlash h (c.compacted h)).put F.WEAR_STATUS_BANK (c.compacted h).bank).syncWriteErr).ev h 0x1111 [h.idx, (c.compacted h).bankSeq])) := by
    have hexec : exec (.bankCompaction h false) s = execBankCompaction h false s := rfl
    unfold execBankCompaction at hexec
    exact hexec.trans ((if_neg fun hc => hc.elim (Bool.eq_false_iff.1 hdown) (Nat.not_lt.2 hfull)).trans ((if_neg Bool.false_ne_true).trans (s.go_eq _)))
  have hput (d : Chip) (x : RF) (v : Nat) : (d.put x v).flash = d.flash := rfl
  have hcore : ((((((c.setFlash h (c.compacted h)).put F.WEAR_STATUS_BANK (c.compacted h).bank).syncWriteErr).ev h 0x1111 [h.idx, (c.compacted h).bankSeq])).flash.get h).core = (c.compacted h).core :=
    (Chip.core_ev _ _ _ _ _).trans (congrArg FlashLedger.core ((congrArg (fun p => p.get h) ((hput _ _ _).trans (hput _ _ _))).trans (Pair.get_set_same _ _ _)))
  generalize (((c.setFlash h (c.compacted h)).put F.WEAR_STATUS_BANK (c.compacted h).bank).syncWriteErr).ev h 0x1111 [h.idx, (c.compacted h).bankSeq] = t at hexec hcore
  exact ⟨t, hexec, congrArg Prod.fst hcore, congrArg (fun x => x.2.1) hcore, congrArg (fun x => x.2.2.2) hcore, congrArg (fun x => x.2.2.1) hcore⟩

theorem Chip.regs_ledger (c : Chip) (h : Half) (kind : Nat) (body : List Byte) (sets : List (Nat × Nat)) : (c.ledger h kind body sets).regs = c.regs := by
  unfold Chip.ledger
  refine (foldl_keeps Chip.regs _ (fun d x => ?_) _ _).trans rfl
  split <;> rfl

/-- A counter of a whole register. -/
theorem Chip.reg_inc_word (c : Chip) (a : Nat) : (c.inc ⟨a, 0, 32⟩).reg a = min (c.reg a + 1) (2 ^ 32 - 1) := by
  rw [← Chip.q_word, Chip.q_inc_same _ _ (Nat.le_of_ble_eq_true rfl), Chip.q_word]

/-- A level asked for is the service level, unless that is higher already, and its cause is shown. -/
theorem Chip.wearCause_urgent (c : Chip) (h : Half) : (c.wearCause h 8).q F.WEAR_STATUS_LEVEL = 3 ∧ bit ((c.wearCause h 8).q F.WEAR_STATUS_CAUSE) 8 = true := by
  have hquiet : ¬ eventReg Reg.WEAR_STATUS := by unfold eventReg; decide
  have hcause : ∃ d : Chip, (if bit (c.q F.WEAR_STATUS_CAUSE) 8 then c else c.put F.WEAR_STATUS_CAUSE (c.q F.WEAR_STATUS_CAUSE + 2 ^ 8)) = d ∧ bit (d.q F.WEAR_STATUS_CAUSE) 8 = true := by
    refine ⟨_, rfl, ?_⟩
    split
    · assumption
    · next hbit =>
        rw [Bool.not_eq_true, bit_eq_testBit] at hbit
        rw [Chip.q_put_same _ _ _ (by decide), bit_eq_testBit, Nat.testBit_mod_two_pow, Nat.add_comm, Nat.testBit_two_pow_add_eq, hbit]
        rfl
  obtain ⟨d, hd, hbit⟩ := hcause
  unfold Chip.wearCause
  dsimp only
  rw [hd]
  split
  · next hle =>
      have hlt : d.q F.WEAR_STATUS_LEVEL < 4 := Nat.mod_lt _ (by decide)
      exact ⟨Nat.le_antisymm (Nat.le_of_lt_succ hlt) hle, hbit⟩
  · have hlevel : (d.put F.WEAR_STATUS_LEVEL (causeLevel 8)).q F.WEAR_STATUS_LEVEL = 3 := Chip.q_put_same _ _ _ (by decide)
    have hkept : (d.put F.WEAR_STATUS_LEVEL (causeLevel 8)).q F.WEAR_STATUS_CAUSE = d.q F.WEAR_STATUS_CAUSE := Chip.q_put_apart _ _ ⟨by decide, .inr (.inr (by decide))⟩
    generalize d.put F.WEAR_STATUS_LEVEL (causeLevel 8) = e at hlevel hkept
    have hreg (f : RF) (hf : f.addr = Reg.WEAR_STATUS) (k : Half) (code kind : Nat) (l : List Nat) (body : List Byte) (sets : List (Nat × Nat)) :
        ((e.ev k code l).ledger h kind body sets).q f = e.q f := (Chip.q_of_regs (Chip.regs_ledger _ _ _ _ _) f).trans (Chip.q_raise _ _ (hf ▸ hquiet))
    refine ⟨(hreg _ rfl _ _ _ _ _ _).trans hlevel, ?_⟩
    rw [hreg _ rfl, hkept]
    exact hbit

/-- Clause 9: a half that is down for over a second makes the service level urgent. -/
theorem urgentHalf (h : Half) (b : Nat) (s : State) :
    let c := s.chip
    c.downSince.get h = some b → c.down.get h = true → c.down.get h.other = false → ((1000000 * usUnits : Nat) : Int) < elapsed (c.stamp h.other 0) b →
    ∃ t, exec (.urgentHalfDown h) s = .next (s.withChip t) ∧ t.q F.WEAR_STATUS_LEVEL = 3 ∧ bit (t.q F.WEAR_STATUS_CAUSE) 8 = true := by
  intro c hsince hdown hup hlong
  have hexec : exec (.urgentHalfDown h) s = .next (s.withChip (c.wearCause h.other 8)) := by
    have hexec : exec (.urgentHalfDown h) s = execUrgentHalfDown h s := rfl
    unfold execUrgentHalfDown at hexec
    simp only [show s.chip.downSince.get h = some b from hsince] at hexec
    exact hexec.trans ((if_pos ⟨hdown, Bool.eq_false_iff.1 hup, hlong⟩).trans (s.go_eq _))
  exact ⟨_, hexec, c.wearCause_urgent h.other⟩

/-- The chip after the registers that count by the hour are put back to 0. -/
def Chip.hourCleared (c : Chip) : Chip :=
  (List.range 4).foldl (fun (c : Chip) x => (List.range 6).foldl (fun (c : Chip) d => c.put (F.MEM_DIE_CORR_HOUR x d) 0) c) c

/-- The chip after a record that a half has not got into its flash is held back. -/
def Chip.recordHeld (h : Half) (c : Chip) (x : Half) : Chip :=
  if c.down.get x then c
  else
    let f := c.flash.get x
    match f.recs with
    | r :: l => ((c.setFlash x { f with recs := l, held := r :: f.held }).put F.WEAR_STATUS_WRITE_ERR 1).ev h 0x1110 [x.idx, f.bank]
    | [] => c

section
variable {γ : Type} {f : Chip → γ}

theorem Chip.hourCleared_keeps (hput : ∀ (c : Chip) (x d v : Nat), x < 4 → d < 6 → f (c.put (F.MEM_DIE_CORR_HOUR x d) v) = f c) (c : Chip) : f c.hourCleared = f c :=
  foldl_keeps_mem f _ _ (fun _ _ hx => foldl_keeps_mem f _ _ (fun _ _ hd => hput _ _ _ _ (List.mem_range.1 hx) (List.mem_range.1 hd)) _) _

theorem Chip.recordHeld_keeps (hflash : ∀ c k x, f (Chip.setFlash c k x) = f c) (hput : ∀ c v, f (Chip.put c F.WEAR_STATUS_WRITE_ERR v) = f c)
    (hr : ∀ c e, f (Chip.raise c e) = f c) (h : Half) (c : Chip) (x : Half) : f (c.recordHeld h x) = f c := by
  unfold Chip.recordHeld
  refine ite_keeps rfl ?_
  dsimp only
  split
  · exact (hr _ _).trans ((hput _ _).trans (hflash _ _ _))
  · rfl

end

/-- The chip at the end of an hour of operation, with what is left of the operating time. -/
def Chip.hourPassed (c : Chip) (left : Nat) (h : Half) : Chip :=
  let d := { { c with opTime := left }.inc ⟨Reg.WEAR_HOURS, 0, 32⟩ with storeErrs := [] }.hourCleared
  d.ledger h 5 (List.replicate 44 0) [(Reg.WEAR_HOURS, d.reg Reg.WEAR_HOURS)]

/-- What the hour's record and its registers leave alone. -/
theorem Chip.hourPassed_keeps {γ : Type} {f : Chip → γ} (hput : ∀ (c : Chip) (x d v : Nat), x < 4 → d < 6 → f (c.put (F.MEM_DIE_CORR_HOUR x d) v) = f c)
    (hl : ∀ (c : Chip) k kind body sets, f (c.ledger k kind body sets) = f c) (c : Chip) (left : Nat) (h : Half) :
    f (c.hourPassed left h) = f { { c with opTime := left }.inc ⟨Reg.WEAR_HOURS, 0, 32⟩ with storeErrs := [] } :=
  (hl _ _ _ _ _).trans (Chip.hourCleared_keeps hput _)

theorem Chip.hours_hourPassed (c : Chip) (left : Nat) (h : Half) : (c.hourPassed left h).reg Reg.WEAR_HOURS = min (c.reg Reg.WEAR_HOURS + 1) (2 ^ 32 - 1) := by
  have hput (c : Chip) (x k v : Nat) (hx : x < 4) (hk : k < 6) : (c.put (F.MEM_DIE_CORR_HOUR x k) v).reg Reg.WEAR_HOURS = c.reg Reg.WEAR_HOURS := by
    refine Chip.reg_setReg_ne _ _ ?_
    show Reg.WEAR_HOURS ≠ Reg.MEM_DIE_CORR x k
    unfold Reg.WEAR_HOURS Reg.MEM_DIE_CORR
    omega
  have herrs (d : Chip) (y) (a : Nat) : Chip.reg { d with storeErrs := y } a = d.reg a := rfl
  have htime (d : Chip) (y) (a : Nat) : Chip.reg { d with opTime := y } a = d.reg a := rfl
  refine (Chip.hourPassed_keeps (f := fun c => c.reg Reg.WEAR_HOURS) hput (fun c k kind body sets => Chip.reg_of_regs (c.regs_ledger k kind body sets) _) c left h).trans ?_
  refine (herrs _ _ _).trans ((Chip.reg_inc_word _ _).trans ?_)
  rw [htime]

theorem exec_hourMark_due {fails : List Half} {s : State} (hdue : hourUnits ≤ s.chip.opTime) (hup : s.chip.upHalves ≠ []) :
    exec (.hourMark fails) s = .next (s.withChip (fails.foldl (Chip.recordHeld (if s.chip.down.h then Half.T else Half.H))
      (s.chip.hourPassed (s.chip.opTime - hourUnits) (if s.chip.down.h then Half.T else Half.H)))) := by
  have hexec : exec (.hourMark fails) s = execHourMark fails s := rfl
  unfold execHourMark at hexec
  refine hexec.trans ((if_neg fun hc => hc.elim (Nat.not_lt.2 hdue) hup).trans ?_)
  generalize s.chip.opTime - hourUnits = left
  exact (s.go_eq _).trans rfl

/-- Clause 8: an hour of operation. -/
theorem hourMarked (fails : List Half) (s : State) :
    let c := s.chip
    hourUnits ≤ c.opTime → c.upHalves ≠ [] →
    ∃ t, exec (.hourMark fails) s = .next (s.withChip t) ∧ t.opTime = c.opTime - hourUnits ∧ t.storeErrs = [] ∧
      t.reg Reg.WEAR_HOURS = min (c.reg Reg.WEAR_HOURS + 1) (2 ^ 32 - 1) := by
  intro c hdue hup
  have htime : EventPart Chip.opTime := fun _ _ _ _ _ _ _ _ _ _ _ _ => rfl
  have herrs : EventPart Chip.storeErrs := fun _ _ _ _ _ _ _ _ _ _ _ _ => rfl
  have hheld {γ : Type} {f : Chip → γ} (hf : EventPart f) (h : Half) (d : Chip) : f (fails.foldl (Chip.recordHeld h) d) = f d :=
    foldl_keeps f _ (Chip.recordHeld_keeps (fun c _ _ => hf.flash c _ c.ledgerSeq) (fun c v => hf.put c _ v) hf.raise h) _ _
  have hhours (h : Half) (d : Chip) : (fails.foldl (Chip.recordHeld h) d).reg Reg.WEAR_HOURS = d.reg Reg.WEAR_HOURS :=
    foldl_keeps (fun c : Chip => c.reg Reg.WEAR_HOURS) _ (Chip.recordHeld_keeps (f := fun c => c.reg Reg.WEAR_HOURS) (fun _ _ _ => rfl) (fun _ _ => Chip.reg_setReg_ne _ _ (by decide))
      (fun c e => c.reg_raise e (by unfold eventReg; decide)) h) _ _
  refine ⟨_, exec_hourMark_due hdue hup, (hheld htime _ _).trans ?_, (hheld herrs _ _).trans ?_, (hhours _ _).trans (Chip.hours_hourPassed c _ _)⟩
  · exact Chip.hourPassed_keeps (fun c _ _ v _ _ => htime.put c _ v) htime.ledger c _ _
  · exact Chip.hourPassed_keeps (fun c _ _ v _ _ => herrs.put c _ v) herrs.ledger c _ _

/-! ### The ledger at a start -/

/-- The chip after a half has taken the ledger: the one its peer has in force, or what the two flashes hold. -/
def Chip.ledgerMerged (c : Chip) (h : Half) (own peer : BankRead) : Chip :=
  let k := h.other
  if ¬ (!c.ledgerRead.get k) ∧ ¬ c.down.get k then (c.setFlash h (c.flash.get k)).takeLedger h (c.flash.get k).sets
  else match (c.flash.get h).read own, (c.flash.get k).read peer with
    | .ok a, .ok b =>
      let u := a.union b
      let na := (a.recs.filter fun r => !named b.recs r).length
      let nb := (b.recs.filter fun r => !named a.recs r).length
      let d := (((c.setFlash h { u with held := a.held }).setFlash k { u with bank := b.bank, bankSeq := b.bankSeq, held := b.held }).takeLedger h u.sets)
      if 0 < na + nb then d.ev h 0x1113 (if h = .H then [na, nb] else [nb, na]) else d
    | .ok a, .error _ => (c.setFlash h a).takeLedger h a.sets
    | .error _, .ok b => (c.setFlash h { b with held := (c.flash.get h).held }).takeLedger h b.sets
    | .error e, .error _ => c.freshLedger h e

/-- The chip after the rebuilds that a start interrupted are told of as begun anew. -/
def Chip.rebuildsAnew (c : Chip) (h : Half) : Chip :=
  (List.range 4).foldl (fun (c : Chip) x =>
    if (if x < 2 then Half.H else Half.T) = h ∧ c.on (F.MEM_STATUS_REBUILDING x) then
      (c.put (F.MEM_STATUS_PROGRESS x) 0).ev h 0x0313 [x, c.q (F.MEM_STATUS_MARKED_DIE x)]
    else c) c

/-- The chip after the erase that a rail's fall forced is told of. -/
def Chip.eraseTold (c : Chip) (h : Half) : Chip :=
  match (c.secOf h).erased with
  | some r => (c.setSec h { c.secOf h with erased := none }).ev h 0x0D0A [h.idx, r]
  | none => c

/-- The chip after the critical temperature that took the half down is told of. -/
def Chip.heatReported (c : Chip) (h : Half) : Chip :=
  match (c.powerOf h).report with
  | some (k, t) => ((c.setPower h { c.powerOf h with report := none }).ev h 0x1013 [h.idx, k, t]).wearCause h 7
  | none => c

/-- The chip after a start is counted, when it is the first, and the half is noted as having read the ledger. -/
def Chip.startCounted (c : Chip) (h : Half) (first : Bool) : Chip :=
  { (if first then c.inc ⟨Reg.WEAR_STARTS, 0, 32⟩ else c) with ledgerRead := (if first then c.inc ⟨Reg.WEAR_STARTS, 0, 32⟩ else c).ledgerRead.set h true }

section
variable {γ : Type} {f : Chip → γ}

theorem Chip.rebuildsAnew_keeps (hput : ∀ (c : Chip) x v, f (c.put (F.MEM_STATUS_PROGRESS x) v) = f c) (hr : ∀ c e, f (Chip.raise c e) = f c) (c : Chip) (h : Half) :
    f (c.rebuildsAnew h) = f c := foldl_keeps f _ (fun _ _ => ite_keeps ((hr _ _).trans (hput _ _ _)) rfl) _ _

theorem Chip.eraseTold_keeps (hr : ∀ c e, f (Chip.raise c e) = f c) (hs : ∀ c h x, f (Chip.setSec c h x) = f c) (c : Chip) (h : Half) : f (c.eraseTold h) = f c := by
  unfold Chip.eraseTold
  split
  · exact (hr _ _).trans (hs _ _ _)
  · rfl

theorem Chip.wearCause_keeps (hr : ∀ c e, f (Chip.raise c e) = f c) (hc : ∀ c v, f (Chip.put c F.WEAR_STATUS_CAUSE v) = f c) (hv : ∀ c v, f (Chip.put c F.WEAR_STATUS_LEVEL v) = f c)
    (hl : ∀ (c : Chip) k kind body sets, f (c.ledger k kind body sets) = f c) (c : Chip) (h : Half) (cause : Nat) : f (c.wearCause h cause) = f c := by
  unfold Chip.wearCause
  dsimp only
  exact (ite_keeps rfl ((hl _ _ _ _ _).trans ((hr _ _).trans (hv _ _)))).trans (ite_keeps rfl (hc _ _))

theorem Chip.heatReported_keeps (hr : ∀ c e, f (Chip.raise c e) = f c) (hp : ∀ c h x, f (Chip.setPower c h x) = f c) (hw : ∀ (c : Chip) h n, f (c.wearCause h n) = f c) (c : Chip) (h : Half) :
    f (c.heatReported h) = f c := by
  unfold Chip.heatReported
  split
  · exact (hw _ _ _).trans ((hr _ _).trans (hp _ _ _))
  · rfl

end

theorem Chip.report_heatReported (c : Chip) (h : Half) : ((c.heatReported h).powerOf h).report = none := by
  unfold Chip.heatReported
  split
  · have hpart : EventPart fun y : Chip => (y.powerOf h).report := fun _ _ _ _ _ _ _ _ _ _ _ _ => rfl
    exact (hpart.wearCause _ _ _).trans ((hpart.ev _ _ _ _).trans (congrArg PowerSt.report (Chip.powerOf_setPower c h _)))
  · assumption

theorem Chip.ledgerRead_takeLedger (c : Chip) (h : Half) (l : List (Nat × Nat)) : (c.takeLedger h l).ledgerRead = c.ledgerRead := by
  unfold Chip.takeLedger
  refine (foldl_keeps Chip.ledgerRead _ (fun _ _ => ?_) _ _).trans ((foldl_keeps Chip.ledgerRead _ (fun _ _ => ?_) _ _).trans (foldl_keeps Chip.ledgerRead _ (fun _ _ => ?_) _ _))
  · exact ite_keeps rfl rfl
  · exact ite_keeps rfl rfl
  · exact ite_keeps rfl (ite_keeps rfl rfl)

/-- The chip with an empty ledger in the flash of a half, and in its peer's unless that has one in force. -/
def Chip.flashEmptied (c : Chip) (h : Half) : Chip :=
  let f : FlashLedger := { FlashLedger.blank with bankSeq := 1, valid := true }
  (c.setFlash h f).setFlash h.other (if (c.flash.get h.other).valid && c.ledgerRead.get h.other then c.flash.get h.other else f)

/-- The chip with the registers of the ledger cleared, unless the peer has read it. -/
def Chip.wearCleared (c : Chip) (h : Half) : Chip :=
  if c.ledgerRead.get h.other then c
  else { c with regs := c.regs.filter fun e => !wearWords.contains e.1, log := [], ledgerSeq := ⟨0, 0⟩ }

/-- The chip with no unit of a half's benches retired by the ledger. -/
def Chip.unitsForgotten (c : Chip) (h : Half) : Chip :=
  { c with benches := c.benches.map fun (e : Nat × BenchSt) => if benchHalf e.1 = h then (e.1, { e.2 with retired := [] }) else e, dataRows := c.dataRows.filter fun (e : Nat × Nat) => benchHalf (e.1 / 64) ≠ h }

/-- The chip with an empty ledger, before it is told of. -/
def Chip.ledgerEmptied (c : Chip) (h : Half) : Chip := ((c.flashEmptied h).wearCleared h).unitsForgotten h

section
variable {c : Chip} {h : Half}

theorem Chip.freshLedger_eq (cause : Nat) : c.freshLedger h cause = ((c.ledgerEmptied h).put F.WEAR_STATUS_FRESH 1).ev h 0x1112 [h.idx, cause] := rfl

theorem Chip.ledgerRead_flashEmptied : (c.flashEmptied h).ledgerRead = c.ledgerRead := rfl

theorem Chip.reg_unitsForgotten (a : Nat) : (c.unitsForgotten h).reg a = c.reg a := rfl

theorem Chip.ledgerRead_ledgerEmptied : (c.ledgerEmptied h).ledgerRead = c.ledgerRead := by
  have hunits (d : Chip) : (d.unitsForgotten h).ledgerRead = d.ledgerRead := rfl
  have hcleared (d : Chip) : (d.wearCleared h).ledgerRead = d.ledgerRead := by
    unfold Chip.wearCleared
    split <;> rfl
  exact (hunits _).trans ((hcleared _).trans Chip.ledgerRead_flashEmptied)

/-- A register of the ledger whose peer has not read it. -/
theorem Chip.starts_wearCleared (hread : c.ledgerRead.get h.other = false) : (c.wearCleared h).reg Reg.WEAR_STARTS = 0 := by
  have hregs : (c.wearCleared h).regs = c.regs.filter fun e => !wearWords.contains e.1 := congrArg Chip.regs (if_neg (Bool.eq_false_iff.1 hread))
  unfold Chip.reg Tbl.look
  rw [hregs, Tbl.find?_filter_none c.regs (fun a => !wearWords.contains a) Reg.WEAR_STARTS (by decide)]
  decide

theorem Chip.starts_ledgerEmptied (hread : c.ledgerRead.get h.other = false) : (c.ledgerEmptied h).reg Reg.WEAR_STARTS = 0 :=
  (Chip.reg_unitsForgotten _).trans (Chip.starts_wearCleared hread)

theorem Chip.freshLedger_shows (hread : c.ledgerRead.get h.other = false) (cause : Nat) :
    (c.freshLedger h cause).on F.WEAR_STATUS_FRESH = true ∧ (c.freshLedger h cause).reg Reg.WEAR_STARTS = 0 := by
  have hzero := Chip.starts_ledgerEmptied hread
  rw [Chip.freshLedger_eq]
  generalize c.ledgerEmptied h = d at hzero
  have hfresh : (d.put F.WEAR_STATUS_FRESH 1).q F.WEAR_STATUS_FRESH = 1 := Chip.q_put_same _ _ _ (by decide)
  refine ⟨?_, (Chip.reg_raise _ _ (by unfold eventReg; decide)).trans ((Chip.reg_setReg_ne _ _ (by decide)).trans hzero)⟩
  unfold Chip.on
  rw [Chip.ev, Chip.q_raise _ _ (by unfold eventReg; decide), hfresh]
  decide

theorem Chip.ledgerRead_ledgerMerged (own peer : BankRead) : (c.ledgerMerged h own peer).ledgerRead = c.ledgerRead := by
  have hpart : EventPart Chip.ledgerRead := fun _ _ _ _ _ _ _ _ _ _ _ _ => rfl
  unfold Chip.ledgerMerged
  dsimp only
  refine ite_keeps (Chip.ledgerRead_takeLedger _ _ _) ?_
  split
  · exact (ite_keeps (hpart.ev _ _ _ _) rfl).trans (Chip.ledgerRead_takeLedger _ _ _)
  · exact Chip.ledgerRead_takeLedger _ _ _
  · exact Chip.ledgerRead_takeLedger _ _ _
  · rw [Chip.freshLedger_eq]
    exact (hpart.ev _ _ _ _).trans ((hpart.put _ _ _).trans Chip.ledgerRead_ledgerEmptied)

theorem Chip.ledgerMerged_fresh (hread : c.ledgerRead.get h.other = false) : c.ledgerMerged h .unreadable .unreadable = c.freshLedger h 1 := by
  unfold Chip.ledgerMerged
  exact if_neg fun hc => hc.1 (by rw [hread]; rfl)

end

section
variable (c : Chip) (h : Half)

theorem Chip.fresh_startCounted : (c.startCounted h true).on F.WEAR_STATUS_FRESH = c.on F.WEAR_STATUS_FRESH := by
  have hread (d : Chip) (y) (f : RF) : Chip.on { d with ledgerRead := y } f = d.on f := rfl
  exact (hread (c.inc ⟨Reg.WEAR_STARTS, 0, 32⟩) _ _).trans (congrArg (fun n => n != 0) (Chip.q_setReg_ne c _ (by decide)))

theorem Chip.starts_startCounted : (c.startCounted h true).reg Reg.WEAR_STARTS = min (c.reg Reg.WEAR_STARTS + 1) (2 ^ 32 - 1) := by
  have hread (d : Chip) (y) (a : Nat) : Chip.reg { d with ledgerRead := y } a = d.reg a := rfl
  exact (hread (c.inc ⟨Reg.WEAR_STARTS, 0, 32⟩) _ _).trans (c.reg_inc_word _)

/-- What a start tells of once the ledger is read leaves a field that no event and none of the written fields meets. -/
theorem Chip.ledgerLater_keeps {γ : Type} {f : Chip → γ} (hput : ∀ (c : Chip) x v, f (c.put (F.MEM_STATUS_PROGRESS x) v) = f c) (hr : ∀ c e, f (Chip.raise c e) = f c)
    (hs : ∀ c h x, f (Chip.setSec c h x) = f c) (hp : ∀ c h x, f (Chip.setPower c h x) = f c) (hw : ∀ (c : Chip) h n, f (c.wearCause h n) = f c) :
    f (((c.rebuildsAnew h).eraseTold h).heatReported h) = f c :=
  (Chip.heatReported_keeps hr hp hw _ _).trans ((Chip.eraseTold_keeps hr hs _ _).trans (Chip.rebuildsAnew_keeps hput hr _ _))

theorem Chip.fresh_ledgerLater : (((c.rebuildsAnew h).eraseTold h).heatReported h).on F.WEAR_STATUS_FRESH = c.on F.WEAR_STATUS_FRESH := by
  have hon {d e : Chip} (hq : d.q F.WEAR_STATUS_FRESH = e.q F.WEAR_STATUS_FRESH) : d.on F.WEAR_STATUS_FRESH = e.on F.WEAR_STATUS_FRESH := congrArg (fun n => n != 0) hq
  have hr (c : Chip) (e : Event) : (c.raise e).on F.WEAR_STATUS_FRESH = c.on F.WEAR_STATUS_FRESH := hon (c.q_raise e (by unfold eventReg; decide))
  refine Chip.ledgerLater_keeps (f := fun y : Chip => y.on F.WEAR_STATUS_FRESH) c h (fun c x v => hon (Chip.q_setReg_ne c _ ?_)) hr (fun _ _ _ => rfl) (fun _ _ _ => rfl)
    (Chip.wearCause_keeps (f := fun y : Chip => y.on F.WEAR_STATUS_FRESH) hr (fun c v => hon (Chip.q_put_apart _ _ ⟨by decide, .inr (.inl (by decide))⟩)) (fun c v => hon (Chip.q_put_apart _ _ ⟨by decide, .inr (.inr (by decide))⟩))
      fun c k kind body sets => hon (Chip.q_of_regs (c.regs_ledger k kind body sets) _))
  show Reg.WEAR_STATUS ≠ Reg.MEM_STATUS x
  unfold Reg.WEAR_STATUS Reg.MEM_STATUS
  omega

theorem Chip.starts_ledgerLater : (((c.rebuildsAnew h).eraseTold h).heatReported h).reg Reg.WEAR_STARTS = c.reg Reg.WEAR_STARTS := by
  have hr (c : Chip) (e : Event) : (c.raise e).reg Reg.WEAR_STARTS = c.reg Reg.WEAR_STARTS := c.reg_raise e (by unfold eventReg; decide)
  refine Chip.ledgerLater_keeps (f := fun y : Chip => y.reg Reg.WEAR_STARTS) c h (fun c x v => Chip.reg_setReg_ne c _ ?_) hr (fun _ _ _ => rfl) (fun _ _ _ => rfl)
    (Chip.wearCause_keeps (f := fun y : Chip => y.reg Reg.WEAR_STARTS) hr (fun c v => Chip.reg_setReg_ne _ _ (by decide)) (fun c v => Chip.reg_setReg_ne _ _ (by decide))
      fun c k kind body sets => Chip.reg_of_regs (c.regs_ledger k kind body sets) _)
  show Reg.WEAR_STARTS ≠ Reg.MEM_STATUS x
  unfold Reg.WEAR_STARTS Reg.MEM_STATUS
  omega

end

/-- The chip after a half has read the ledger at its start. -/
def Chip.ledgerLoaded (c : Chip) (h : Half) (own peer : BankRead) : Chip :=
  ((((c.ledgerMerged h own peer).startCounted h (!c.ledgerRead.get h.other)).rebuildsAnew h).eraseTold h).heatReported h

theorem exec_ledgerLoad_first {h : Half} {s : State} (hdown : s.chip.down.get h = false) (hread : s.chip.ledgerRead.get h = false) (own peer : BankRead) :
    exec (.ledgerLoad h own peer) s = .next (s.withChip (s.chip.ledgerLoaded h own peer)) := by
  have hexec : exec (.ledgerLoad h own peer) s = execLedgerLoad h own peer s := rfl
  unfold execLedgerLoad at hexec
  refine hexec.trans ((if_neg fun hc => hc.elim (Bool.eq_false_iff.1 hdown) (Bool.eq_false_iff.1 hread)).trans ?_)
  have hlast (d : Chip) : (match (d.powerOf h).report with
      | some (k, t) => s.go (((d.setPower h { d.powerOf h with report := none }).ev h 0x1013 [h.idx, k, t]).wearCause h 7)
      | none => s.go d) = .next (s.withChip (d.heatReported h)) := by
    unfold Chip.heatReported
    split
    · exact s.go_eq _
    · exact s.go_eq _
  exact hlast _

/-- Clause 7: a half reads the ledger at its start. -/
theorem ledgerLoads (h : Half) (own peer : BankRead) (s : State) :
    let c := s.chip
    c.down.get h = false → c.ledgerRead.get h = false →
    ∃ t, exec (.ledgerLoad h own peer) s = .next (s.withChip t) ∧ t.ledgerRead.get h = true ∧ t.ledgerRead.get h.other = c.ledgerRead.get h.other ∧
      (t.powerOf h).report = none ∧ (c.ledgerRead.get h.other = false → own = .unreadable → peer = .unreadable → t.on F.WEAR_STATUS_FRESH = true ∧ t.reg Reg.WEAR_STARTS = 1) := by
  intro c hdown hread
  have hpart : EventPart Chip.ledgerRead := fun _ _ _ _ _ _ _ _ _ _ _ _ => rfl
  have hcounted : (c.ledgerLoaded h own peer).ledgerRead = c.ledgerRead.set h true := by
    refine (Chip.ledgerLater_keeps _ h (fun c _ v => hpart.put c _ v) hpart.raise (fun _ _ _ => rfl) (fun _ _ _ => rfl) hpart.wearCause).trans (congrArg (fun p => Pair.set p h true) ?_)
    exact (ite_keeps (hpart.inc _ _) rfl).trans (Chip.ledgerRead_ledgerMerged own peer)
  refine ⟨_, exec_ledgerLoad_first hdown hread own peer, ?_, ?_, Chip.report_heatReported _ _, fun hfirst hown hpeer => ?_⟩
  · exact (congrArg (fun p => p.get h) hcounted).trans (Pair.get_set_same _ _ _)
  · exact (congrArg (fun p => p.get h.other) hcounted).trans (Pair.get_set_other _ _ _)
  · subst hown hpeer
    have hmerged := Chip.ledgerMerged_fresh hfirst
    have hfreshKept := Chip.fresh_ledgerLater ((c.ledgerMerged h .unreadable .unreadable).startCounted h (!c.ledgerRead.get h.other)) h
    have hstartsKept := Chip.starts_ledgerLater ((c.ledgerMerged h .unreadable .unreadable).startCounted h (!c.ledgerRead.get h.other)) h
    rw [hmerged, hfirst] at hfreshKept hstartsKept
    obtain ⟨hfresh, hstarts⟩ := Chip.freshLedger_shows hfirst 1
    unfold Chip.ledgerLoaded
    rw [hmerged, hfirst]
    generalize c.freshLedger h 1 = d at hfreshKept hstartsKept hfresh hstarts
    exact ⟨hfreshKept.trans ((d.fresh_startCounted h).trans hfresh), hstartsKept.trans ((d.starts_startCounted h).trans (by rw [hstarts]; decide))⟩

/-- Settles O60, clause by clause. -/
theorem powerAndWear : Obligations.PowerAndWear :=
  ⟨powerStates, unitsGated, powerEvaluated, fun _ current _ hdown => limiterSteps hdown current, temperaturesRead, bankCompacted, ledgerLoads, hourMarked, urgentHalf⟩

end Machine

end Sys2Proof

/-! PROOF. From reset to service, and back (R480–R494, R353, R476). -/

namespace Sys2Proof

namespace Machine

/-! ### The choice of a copy -/

/-- Clause 1: of two accepted copies the later version is taken, the first on a tie. -/
theorem copyChosen (a b f : FlashCopy) (n : Nat) : chooseCopy a b none none = some (f, n) →
    sigVersion a.sig ≤ sigVersion f.sig ∧ sigVersion b.sig ≤ sigVersion f.sig ∧ (sigVersion a.sig = sigVersion b.sig → f = a ∧ n = 0) := by
  intro hchoose
  have hpair : (if sigVersion a.sig < sigVersion b.sig then some (b, 1) else some (a, 0)) = some (f, n) := hchoose
  split at hpair
  · next hlt =>
      obtain ⟨rfl, rfl⟩ := Prod.mk.inj (Option.some.inj hpair)
      exact ⟨hlt.le, le_refl _, fun heq => absurd heq (Nat.ne_of_lt hlt)⟩
  · next hge =>
      obtain ⟨rfl, rfl⟩ := Prod.mk.inj (Option.some.inj hpair)
      exact ⟨le_refl _, Nat.not_lt.1 hge, fun _ => ⟨rfl, rfl⟩⟩

/-- A copy that is chosen is one of the two, accepted. -/
theorem chooseCopy_some {a b f : FlashCopy} {ka kb : Option Nat} {n : Nat} (h : chooseCopy a b ka kb = some (f, n)) :
    (f = a ∧ n = 0 ∧ ka = none) ∨ (f = b ∧ n = 1 ∧ kb = none) := by
  unfold chooseCopy at h
  split at h
  · split at h
    · obtain ⟨rfl, rfl⟩ := Prod.mk.inj (Option.some.inj h)
      exact .inr ⟨rfl, rfl, rfl⟩
    · obtain ⟨rfl, rfl⟩ := Prod.mk.inj (Option.some.inj h)
      exact .inl ⟨rfl, rfl, rfl⟩
  · obtain ⟨rfl, rfl⟩ := Prod.mk.inj (Option.some.inj h)
    exact .inl ⟨rfl, rfl, rfl⟩
  · obtain ⟨rfl, rfl⟩ := Prod.mk.inj (Option.some.inj h)
    exact .inr ⟨rfl, rfl, rfl⟩
  · exact absurd h.symm (Option.some_ne_none _)

/-- An accepted copy has its object. -/
theorem Chip.obj_of_copyFault {c : Chip} {h : Half} {typ : Nat} {f : FlashCopy} (hgood : c.copyFault h typ f = none) : ∃ o, f.obj = some o := by
  unfold Chip.copyFault at hgood
  dsimp only at hgood
  split at hgood
  · exact absurd hgood (Option.some_ne_none _)
  split at hgood
  · exact absurd hgood (Option.some_ne_none _)
  split at hgood
  · exact absurd hgood (Option.some_ne_none _)
  · next o ho => exact ⟨o, ho⟩

/-! ### What the steps of a start keep -/

/-- A part of the chip that the steps of a start do not reach: neither what events and milestones write, nor the security state, the bindings and how long
the copies have delayed the start. -/
structure StartPart {γ : Type} (f : Chip → γ) (h : Half) : Prop where
  event : EventPart f
  sec (c : Chip) (x : SecSt) : f (c.setSec h x) = f c
  bind (c : Chip) (x : Rpmb) (r : Pair (Option Rpmb)) : f { c with bind := x, rpmb := r } = f c
  slack (c : Chip) (n : Nat) : f (c.setStart h { c.startOf h with slackUs := n }) = f c

theorem EventPart.milestone {γ : Type} {f : Chip → γ} (hf : EventPart f) (c : Chip) (h : Half) (n : Nat) : f (c.milestone h n) = f c := by
  unfold Chip.milestone
  dsimp only
  refine ite_keeps rfl ?_
  have htold : f (((c.put (F.SYS_START_PHASE h.idx) n).put (F.SYS_START_MS h.idx) (min ((c.time.get h).cycles / 250000) (2 ^ 20 - 1))).ev h 0x0E10 [h.idx, n, (c.time.get h).cycles / 250000]) = f c :=
    (hf.ev _ _ _ _).trans ((hf.put _ _ _).trans (hf.put _ _ _))
  exact ite_keeps ((hf.ev _ _ _ _).trans htold) htold

theorem EventPart.sigFailed {γ : Type} {f : Chip → γ} (hf : EventPart f) (c : Chip) (h : Half) (typ : Nat) (signer : List Byte) (k : Nat) : f (c.sigFailed h typ signer k) = f c :=
  (hf.ev _ _ _ _).trans (hf.inc _ _)

theorem EventPart.putUp {γ : Type} {f : Chip → γ} (hf : EventPart f) (c : Chip) (g : Nat → RF) (v : Nat) : f (c.putUp g v) = f c :=
  foldl_keeps f _ (fun _ _ => hf.put _ _ _) _ _

theorem EventPart.setBind {γ : Type} {f : Chip → γ} (hf : EventPart f) (hb : ∀ (c : Chip) x r, f { c with bind := x, rpmb := r } = f c) (c : Chip) (b : Rpmb) : f (c.setBind b) = f c :=
  (hf.putUp _ _ _).trans ((foldl_keeps f _ (fun _ _ => hf.putUp _ _ _) _ _).trans (hb c _ _))

theorem EventPart.commit {γ : Type} {f : Chip → γ} (hf : EventPart f) (hb : ∀ (c : Chip) x r, f { c with bind := x, rpmb := r } = f c) (c : Chip) (h : Half) (x : Sig) : f (c.commit h x) = f c := by
  unfold Chip.commit
  exact ite_keeps ((hf.ev _ _ _ _).trans (hf.setBind hb _ _)) rfl

namespace StartPart

variable {γ : Type} {f : Chip → γ} {h : Half} (hf : StartPart f h)
include hf

theorem noteFault (c : Chip) (typ : Nat) (y : FlashCopy) (k : Option Nat) : f (c.noteFault h typ y k) = f c := by
  unfold Chip.noteFault
  split
  · rfl
  dsimp only
  split
  · exact (hf.event.sigFailed _ _ _ _ _).trans (hf.slack _ _)
  · exact (hf.event.sigFailed _ _ _ _ _).trans (hf.slack _ _)
  · exact (hf.event.ev _ _ _ _).trans (hf.slack _ _)
  · exact hf.slack _ _

theorem noteCopy (c : Chip) (no : Nat) (y : FlashCopy) (k : Option Nat) : f (c.noteCopy h no y k) = f c := by
  unfold Chip.noteCopy
  dsimp only
  split
  · exact hf.noteFault _ _ _ _
  · exact (hf.event.ev _ _ _ _).trans ((hf.event.put _ _ _).trans ((hf.event.put _ _ _).trans (hf.noteFault _ _ _ _)))

theorem acceptRough (c : Chip) (a b : FlashCopy) : f (c.acceptRough h a b) = f c := by
  unfold Chip.acceptRough
  extract_lets +onlyGivenNames ka kb d
  have hd : f d = f c := (hf.noteFault _ _ _ _).trans (hf.noteFault _ _ _ _)
  split
  · exact (hf.event.ev _ _ _ _).trans hd
  split
  · exact hd
  · exact (hf.sec _ _).trans ((hf.event.commit hf.bind _ _ _).trans hd)

end StartPart

/-! ### Acceptance -/

section
variable {h : Half}

theorem startPart_own : StartPart (fun c : Chip => (c.startOf h).own) h where
  event _ _ _ _ _ _ _ _ _ _ _ _ := rfl
  sec _ _ := rfl
  bind _ _ _ := rfl
  slack c _ := (congrArg StartSt.own (c.startOf_setStart h _)).trans rfl

theorem startPart_other : StartPart (fun c : Chip => c.startOf h.other) h where
  event _ _ _ _ _ _ _ _ _ _ _ _ := rfl
  sec _ _ := rfl
  bind _ _ _ := rfl
  slack c _ := c.startOf_setStart_other h _

theorem startPart_inService : StartPart (fun c : Chip => c.inService h.other) h where
  event _ _ _ _ _ _ _ _ _ _ _ _ := rfl
  sec _ _ := rfl
  bind _ _ _ := rfl
  slack c _ := congrArg (fun x : StartSt => !c.down.get h.other && x.applied) (c.startOf_setStart_other h _)

end

section
variable {h : Half}

/-- The chip after a half has taken the copy it has chosen. -/
def Chip.copyTaken (c : Chip) (h : Half) (p : FlashCopy × Nat) : Chip :=
  match readSig 2 p.1.sig with
  | none => c
  | some x => ((((c.commit h { x with ctr := 1 }).setStart h { c.startOf h with own := some ⟨p.1.sig, p.1.obj.getD [], p.2⟩ }).put
      (F.SYS_START_IMG_COPY h.idx) p.2).ev h 0x0E01 [h.idx, p.2, x.version, 0]).milestone h 3

/-- The chip after a half has made its own choice of two copies. -/
def Chip.choiceMade (c : Chip) (h : Half) (a b : FlashCopy) : Chip :=
  let ka := c.copyFault h 2 a
  let kb := c.copyFault h 2 b
  let d := (c.noteCopy h 0 a ka).noteCopy h 1 b kb
  let d := d.setStart h { d.startOf h with decided := true }
  match chooseCopy a b ka kb with
  | none => d
  | some p => d.copyTaken h p

theorem exec_imageAccept_due {s : State} (hboot : (s.chip.secOf h).booted = true) (hdown : s.chip.down.get h = false) (hundecided : (s.chip.startOf h).decided = false) (a b ra rb : FlashCopy) :
    exec (.imageAccept h a b ra rb) s = .next (s.withChip (if (s.chip.acceptRough h ra rb).inService h.other
      then (s.chip.acceptRough h ra rb).setStart h { (s.chip.acceptRough h ra rb).startOf h with decided := true } else (s.chip.acceptRough h ra rb).choiceMade h a b)) := by
  have hexec : exec (.imageAccept h a b ra rb) s = execImageAccept h a b ra rb s := rfl
  unfold execImageAccept at hexec
  refine hexec.trans ((if_neg fun hc => hc.elim (fun hn => hn hboot) fun hc => hc.elim (Bool.eq_false_iff.1 hdown) (Bool.eq_false_iff.1 hundecided)).trans ?_)
  dsimp only
  split
  · exact s.go_eq _
  unfold Chip.choiceMade
  dsimp only
  generalize chooseCopy a b _ _ = o
  cases o with
  | none => exact s.go_eq _
  | some p =>
    obtain ⟨f, no⟩ := p
    unfold Chip.copyTaken
    dsimp only
    cases readSig 2 f.sig with
    | none => exact s.go_eq _
    | some x =>
      dsimp only
      exact s.go_eq _

theorem Chip.copyTaken_shows (c : Chip) (p : FlashCopy × Nat) : ((c.copyTaken h p).startOf h).decided = (c.startOf h).decided ∧ (c.copyTaken h p).startOf h.other = c.startOf h.other ∧
    ∀ g, ((c.copyTaken h p).startOf h).own = some g → (c.startOf h).own = some g ∨ g = ⟨p.1.sig, p.1.obj.getD [], p.2⟩ := by
  have hkeep (k : Half) : EventPart fun y : Chip => y.startOf k := fun _ _ _ _ _ _ _ _ _ _ _ _ => rfl
  unfold Chip.copyTaken
  split
  · exact ⟨rfl, rfl, fun g hg => .inl hg⟩
  next x _ =>
    have hcommit (k : Half) : (c.commit h { x with ctr := 1 }).startOf k = c.startOf k := (hkeep k).commit (fun _ _ _ => rfl) _ _ _
    generalize c.commit h { x with ctr := 1 } = d at hcommit
    have hlast (e : Chip) (k : Half) : (((e.put (F.SYS_START_IMG_COPY h.idx) p.2).ev h 0x0E01 [h.idx, p.2, x.version, 0]).milestone h 3).startOf k = e.startOf k :=
      ((hkeep k).milestone _ _ _).trans (((hkeep k).ev _ _ _ _).trans ((hkeep k).put _ _ _))
    rw [hlast, hlast, Chip.startOf_setStart, Chip.startOf_setStart_other, hcommit]
    exact ⟨rfl, rfl, fun g hg => .inr (Option.some.inj hg).symm⟩

theorem Chip.choiceMade_shows {c : Chip} (hown : (c.startOf h).own = none) (a b : FlashCopy) :
    ((c.choiceMade h a b).startOf h).decided = true ∧ (c.choiceMade h a b).startOf h.other = c.startOf h.other ∧
      ∀ g, ((c.choiceMade h a b).startOf h).own = some g → (g.sig = a.sig ∧ a.obj = some g.obj ∧ g.copy = 0) ∨ (g.sig = b.sig ∧ b.obj = some g.obj ∧ g.copy = 1) := by
  unfold Chip.choiceMade
  extract_lets +onlyGivenNames ka kb d src e
  have hka : ka = c.copyFault h 2 a := rfl
  have hkb : kb = c.copyFault h 2 b := rfl
  have hother : d.startOf h.other = c.startOf h.other := (startPart_other.noteCopy _ _ _ _).trans (startPart_other.noteCopy _ _ _ _)
  have hownd : (d.startOf h).own = none := ((startPart_own.noteCopy _ _ _ _).trans (startPart_own.noteCopy _ _ _ _)).trans hown
  clear_value d ka kb
  have hdec : (e.startOf h).decided = true := congrArg StartSt.decided (Chip.startOf_setStart d h { src with decided := true })
  have hothere : e.startOf h.other = c.startOf h.other := (Chip.startOf_setStart_other d h _).trans hother
  have howne : (e.startOf h).own = none := (congrArg StartSt.own (Chip.startOf_setStart d h _)).trans hownd
  clear_value e
  split
  · exact ⟨hdec, hothere, fun g hg => absurd (howne.symm.trans hg).symm (Option.some_ne_none g)⟩
  next p hp =>
    obtain ⟨hkept, hkeptOther, htaken⟩ := e.copyTaken_shows (h := h) p
    refine ⟨hkept.trans hdec, hkeptOther.trans hothere, fun g hg => ?_⟩
    obtain hsame | rfl := htaken g hg
    · exact absurd (howne.symm.trans hsame).symm (Option.some_ne_none g)
    obtain ⟨hf, hn, hgood⟩ | ⟨hf, hn, hgood⟩ := chooseCopy_some (f := p.1) (n := p.2) hp
    · obtain ⟨o, ho⟩ := Chip.obj_of_copyFault (hka.symm.trans hgood)
      rw [hf, hn, ho]
      exact .inl ⟨rfl, rfl, rfl⟩
    · obtain ⟨o, ho⟩ := Chip.obj_of_copyFault (hkb.symm.trans hgood)
      rw [hf, hn, ho]
      exact .inr ⟨rfl, rfl, rfl⟩

/-- Clause 2: a half makes its own choice. -/
theorem imageAccepted (h : Half) (a b ra rb : FlashCopy) (s : State) :
    let c := s.chip
    (c.secOf h).booted = true → c.down.get h = false → (c.startOf h).decided = false → (c.startOf h).own = none →
    ∃ t, exec (.imageAccept h a b ra rb) s = .next (s.withChip t) ∧ (t.startOf h).decided = true ∧ t.startOf h.other = c.startOf h.other ∧
      (c.inService h.other = true → (t.startOf h).own = none) ∧
      (∀ g, (t.startOf h).own = some g → (g.sig = a.sig ∧ a.obj = some g.obj ∧ g.copy = 0) ∨ (g.sig = b.sig ∧ b.obj = some g.obj ∧ g.copy = 1)) := by
  intro c hboot hdown hundecided hown
  have hexec := exec_imageAccept_due hboot hdown hundecided a b ra rb
  have hservice : (c.acceptRough h ra rb).inService h.other = c.inService h.other := startPart_inService.acceptRough c ra rb
  have hother : (c.acceptRough h ra rb).startOf h.other = c.startOf h.other := startPart_other.acceptRough c ra rb
  have hownd : ((c.acceptRough h ra rb).startOf h).own = none := (startPart_own.acceptRough c ra rb).trans hown
  refine ⟨_, hexec, ?_⟩
  show ((if (c.acceptRough h ra rb).inService h.other then (c.acceptRough h ra rb).setStart h { (c.acceptRough h ra rb).startOf h with decided := true }
    else (c.acceptRough h ra rb).choiceMade h a b).startOf h).decided = true ∧ _
  generalize c.acceptRough h ra rb = d at hservice hother hownd
  split
  · have hset := Chip.startOf_setStart d h { d.startOf h with decided := true }
    have hnone : ((d.setStart h { d.startOf h with decided := true }).startOf h).own = none := (congrArg StartSt.own hset).trans hownd
    exact ⟨congrArg StartSt.decided hset, (Chip.startOf_setStart_other d h _).trans hother, fun _ => hnone, fun g hg => absurd (hnone.symm.trans hg).symm (Option.some_ne_none g)⟩
  · next hoff =>
      obtain ⟨hdec, hkept, hone⟩ := Chip.choiceMade_shows hownd a b
      exact ⟨hdec, hkept.trans hother, fun hon => absurd (hservice.trans hon) hoff, hone⟩

end

/-! ### Agreement -/

section
variable {h : Half}

theorem eventPart_start : EventPart Chip.start := fun _ _ _ _ _ _ _ _ _ _ _ _ => rfl

theorem Chip.startOf_milestone (c : Chip) (h k : Half) (n : Nat) : (c.milestone h n).startOf k = c.startOf k :=
  congrArg (fun p => p.get k) (eventPart_start.milestone c h n)

theorem phase_quiet (h : Half) : ¬ eventReg (Reg.SYS_START h.idx) := by
  have := idx_le h
  unfold eventReg Reg.SYS_START Reg.WEAR_LOG_CNT
  omega

theorem Chip.chosen_useImage (c : Chip) (g : Img) : ((c.useImage h g).startOf h).chosen = some g :=
  (congrArg StartSt.chosen (Chip.startOf_milestone _ h h 4)).trans (congrArg StartSt.chosen (Chip.startOf_setStart _ h _))

theorem Chip.provision_shows (c : Chip) : (c.provision h).q (F.SYS_START_PHASE h.idx) = 15 ∧ (c.provision h).startOf h = c.startOf h := by
  have hput : (c.put (F.SYS_START_PHASE h.idx) 15).q (F.SYS_START_PHASE h.idx) = 15 := Chip.q_put_same _ _ _ (Nat.le_of_ble_eq_true rfl)
  exact ⟨(Chip.q_raise _ _ (phase_quiet h)).trans hput, congrArg (fun p => p.get h) ((eventPart_start.ev _ _ _ _).trans (eventPart_start.put _ _ _))⟩

/-- The chip after the halves have agreed on an image, where the peer is not in service. -/
def Chip.agreed (c : Chip) (h : Half) (own peer : Option Img) : Chip :=
  match own, peer with
  | none, none => c.provision h
  | some g, none => c.useImage h g
  | none, some g => c.peerImage h g
  | some g, some k =>
    if (g.sig.drop 24).take 48 = (k.sig.drop 24).take 48 then c.useImage h g
    else
      let mine := decide (sigVersion k.sig < sigVersion g.sig) || (sigVersion g.sig == sigVersion k.sig && h == .H)
      let d := c.ev h 0x0E02 [if h = .H then sigVersion g.sig else sigVersion k.sig, if h = .H then sigVersion k.sig else sigVersion g.sig, if mine then h.idx else h.other.idx]
      if mine then d.useImage h g else d.peerImage h k

theorem exec_imageAgreement_due {s : State} (hdec : (s.chip.startOf h).decided = true) (hdown : s.chip.down.get h = false) (hfresh : (s.chip.startOf h).chosen = none)
    (hphase : s.chip.q (F.SYS_START_PHASE h.idx) ≠ 15) (hservice : s.chip.inService h.other = false) :
    exec (.imageAgreement h) s = .next (s.withChip (s.chip.agreed h (s.chip.startOf h).own (if s.chip.down.get h.other then none else (s.chip.startOf h.other).own))) := by
  have hexec : exec (.imageAgreement h) s = execImageAgreement h s := rfl
  unfold execImageAgreement at hexec
  refine hexec.trans ((if_neg fun hc => ?_).trans ((if_neg (Bool.eq_false_iff.1 hservice)).trans ?_))
  · rcases hc with hn | hn | hn | hn
    · exact hn hdec
    · exact Bool.eq_false_iff.1 hdown hn
    · rw [hfresh] at hn
      exact Bool.false_ne_true hn
    · exact hphase hn
  generalize (if s.chip.down.get h.other then none else (s.chip.startOf h.other).own) = peer
  generalize (s.chip.startOf h).own = own
  unfold Chip.agreed
  cases own with
  | none => cases peer <;> exact s.go_eq _
  | some g =>
    cases peer with
    | none => exact s.go_eq _
    | some k => exact s.go_ite _ _ _

theorem Chip.agreed_newer (c : Chip) {g k : Img} (hnew : sigVersion k.sig < sigVersion g.sig) : ((c.agreed h (some g) (some k)).startOf h).chosen = some g := by
  unfold Chip.agreed
  dsimp only
  rw [decide_eq_true hnew, Bool.true_or]
  simp only [if_true]
  split
  · exact Chip.chosen_useImage c g
  · exact Chip.chosen_useImage _ g

/-- Clause 3: the halves agree on an image. -/
theorem imageAgreed (h : Half) (g k : Img) (s : State) :
    let c := s.chip
    let x := c.startOf h
    let y := c.startOf h.other
    x.decided = true → c.down.get h = false → x.chosen = none → c.q (F.SYS_START_PHASE h.idx) ≠ 15 → c.inService h.other = false →
    ∃ t, exec (.imageAgreement h) s = .next (s.withChip t) ∧
      (x.own = none → y.own = none → t.q (F.SYS_START_PHASE h.idx) = 15 ∧ (t.startOf h).chosen = none) ∧
      (x.own = some g → y.own = none → (t.startOf h).chosen = some g) ∧
      (x.own = some g → y.own = some k → sigVersion k.sig < sigVersion g.sig → (t.startOf h).chosen = some g) := by
  intro c x y hdec hdown hfresh hphase hservice
  have hpeer (hy : y.own = none) : (if c.down.get h.other then none else y.own) = none := by rw [hy, ite_self]
  refine ⟨_, exec_imageAgreement_due hdec hdown hfresh hphase hservice, fun hx hy => ?_, fun hx hy => ?_, fun hx hy hnew => ?_⟩
  · rw [show (s.chip.startOf h).own = none from hx, hpeer hy]
    obtain ⟨hend, hstart⟩ := c.provision_shows (h := h)
    exact ⟨hend, (congrArg StartSt.chosen hstart).trans hfresh⟩
  · rw [show (s.chip.startOf h).own = some g from hx, hpeer hy]
    exact c.chosen_useImage g
  · rw [show (s.chip.startOf h).own = some g from hx, show (s.chip.startOf h.other).own = some k from hy]
    split
    · exact s.chip.chosen_useImage g
    · exact s.chip.agreed_newer hnew

end

/-! ### Application -/

theorem EventPart.startLoops {γ : Type} {f : Chip → γ} (hf : EventPart f) (hl : ∀ (c : Chip) y, f { c with loops := y } = f c) (hh : ∀ (c : Chip) y, f { c with hio := y } = f c)
    (c : Chip) (h : Half) (obj : List Byte) : f (c.startLoops h obj) = f c := by
  have hstate (c : Chip) (s n : Nat) : f (c.setLoopState h s n) = f c := (hf.ev _ _ _ _).trans (hf.put _ _ _)
  have harm (c : Chip) (s : Nat) : f (c.armSlot h s) = f c := (hf.put _ _ _).trans ((hstate _ _ _).trans (hf.setReg _ _ _))
  have hclose (c : Chip) (s : Nat) : f (c.closeSlot h s) = f c := (hstate _ _ _).trans ((hh _ _).trans ((hf.put _ _ _).trans (hl _ _)))
  refine foldl_keeps f _ (fun d s => ?_) _ _
  exact ite_keeps (hf.steadyResult _ _ _ _ _) ((ite_keeps (hf.steadyResult _ _ _ _ _) (hclose _ _)).trans (harm _ _))

theorem Chip.phase_milestone (c : Chip) (h : Half) {n : Nat} (hn : n < 16) : n ≤ (c.milestone h n).q (F.SYS_START_PHASE h.idx) := by
  unfold Chip.milestone
  dsimp only
  split
  · assumption
  · have hput : (c.put (F.SYS_START_PHASE h.idx) n).q (F.SYS_START_PHASE h.idx) = n := (Chip.q_put_same _ _ _ (Nat.le_of_ble_eq_true rfl)).trans (Nat.mod_eq_of_lt hn)
    generalize c.put (F.SYS_START_PHASE h.idx) n = d at hput
    have hms (v : Nat) : (d.put (F.SYS_START_MS h.idx) v).q (F.SYS_START_PHASE h.idx) = n := (Chip.q_put_apart _ _ ⟨Nat.le_of_ble_eq_true rfl, .inr (.inl (Nat.le_of_ble_eq_true rfl))⟩).trans hput
    have hev (e : Chip) (code : Nat) (l : List Nat) : (e.ev h code l).q (F.SYS_START_PHASE h.idx) = e.q (F.SYS_START_PHASE h.idx) := Chip.q_raise _ _ (phase_quiet h)
    have hkept := hms (min ((c.time.get h).cycles / 250000) (2 ^ 20 - 1))
    generalize d.put (F.SYS_START_MS h.idx) (min ((c.time.get h).cycles / 250000) (2 ^ 20 - 1)) = e at hkept
    refine le_of_eq (Eq.symm ?_)
    split
    · exact (hev _ _ _).trans ((hev _ _ _).trans hkept)
    · exact (hev _ _ _).trans hkept

/-- Clause 4: the image in force is applied, and the zeroing of the half's DRAM begins. -/
theorem imageApplied (h : Half) (g : Img) (s : State) :
    let c := s.chip
    (c.startOf h).chosen = some g → (c.startOf h).applied = false → c.down.get h = false →
    ∃ t, exec (.imageApply h) s = .next (s.withChip t) ∧ (t.startOf h).applied = true ∧ (t.startOf h).zeroing = true ∧ (t.startOf h).zeroed = [] ∧
      6 ≤ t.q (F.SYS_START_PHASE h.idx) := by
  intro c hchosen hfresh hdown
  have hexec : exec (.imageApply h) s = .next (s.withChip
      ((((((c.applyImage h g).setStart h { (c.applyImage h g).startOf h with applied := true, zeroing := true, zeroed := [] }).milestone h 5).startLoops h g.obj).put
        (F.AUTH_STATUS_STATE h.idx) 1).syncAuth.milestone h 6)) := by
    have hexec : exec (.imageApply h) s = execImageApply h s := rfl
    unfold execImageApply at hexec
    simp only [show (s.chip.startOf h).chosen = some g from hchosen] at hexec
    refine hexec.trans ((if_neg fun hc => hc.elim (Bool.eq_false_iff.1 hfresh) (Bool.eq_false_iff.1 hdown)).trans ?_)
    exact s.go_eq _
  have hset := Chip.startOf_setStart (c.applyImage h g) h { (c.applyImage h g).startOf h with applied := true, zeroing := true, zeroed := [] }
  refine ⟨_, hexec, ?_⟩
  generalize (c.applyImage h g).setStart h { (c.applyImage h g).startOf h with applied := true, zeroing := true, zeroed := [] } = d at hset
  have hstart : ((((d.milestone h 5).startLoops h g.obj).put (F.AUTH_STATUS_STATE h.idx) 1).syncAuth.milestone h 6).start = d.start :=
    (eventPart_start.milestone _ _ _).trans ((lossPart_start.syncAuth _).trans ((eventPart_start.put _ _ _).trans
      ((eventPart_start.startLoops (fun _ _ => rfl) (fun _ _ => rfl) _ _ _).trans (eventPart_start.milestone _ _ _))))
  have hst := (congrArg (fun p => p.get h) hstart).trans hset
  exact ⟨congrArg StartSt.applied hst, congrArg StartSt.zeroing hst, congrArg StartSt.zeroed hst, Chip.phase_milestone _ h (by decide)⟩

/-! ### Zeroing -/

section
variable {c : Chip}

/-- The chip after a granule that has been zeroed takes its entry of the image, or loses its mark of content. -/
def Chip.entryTaken (c : Chip) (n : Nat) : Chip :=
  match Tbl.find? c.startOwn n with
  | some e => { c with own := Tbl.put (ownReset n) c.own n (BitVec.ofNat 32 e), startOwn := Tbl.del c.startOwn n }
  | none => if ownType (c.ownAt n) = 7 then c else c.setClean n false

theorem Chip.entryTaken_keeps {γ : Type} {f : Chip → γ} (hf : ∀ (c : Chip) o y, f { c with own := o, startOwn := y } = f c) (c : Chip) (n : Nat) : f (c.entryTaken n) = f c := by
  unfold Chip.entryTaken
  split
  · exact hf _ _ _
  · exact ite_keeps rfl (hf c _ c.startOwn)

theorem Chip.own_entryTaken (c : Chip) (n : Nat) : (∀ e, Tbl.find? c.startOwn n = some e → (c.entryTaken n).ownAt n = e % 2 ^ 32) ∧ ∀ j, j ≠ n → (c.entryTaken n).ownAt j = c.ownAt j := by
  unfold Chip.entryTaken
  split
  · next e he =>
      have hown (i : Nat) : Chip.ownAt { c with own := Tbl.put (ownReset n) c.own n (BitVec.ofNat 32 e), startOwn := Tbl.del c.startOwn n } i = (c.setOwn n e).ownAt i := rfl
      refine ⟨fun e' he' => ?_, fun j hj => (hown j).trans (Chip.ownAt_setOwn_ne c e hj)⟩
      obtain rfl : e = e' := Option.some.inj (he.symm.trans he')
      exact (hown n).trans (Chip.ownAt_setOwn_same c n e)
  · next hnone =>
      refine ⟨fun e he => absurd (hnone.symm.trans he).symm (Option.some_ne_none e), fun j hj => ?_⟩
      split
      · rfl
      · exact Chip.ownAt_setOwn_ne c _ hj

theorem Chip.startReady_none (hinst : c.startInst = []) (hrings : c.startRings = []) : c.startReady = c := by
  unfold Chip.startReady
  rw [hinst]
  show (c.startRings.foldl _ c) = c
  rw [hrings]
  rfl

/-- The chip after a granule is zeroed at the start, with its entry of the image. -/
def Chip.granuleStarted (c : Chip) (n : Nat) : Chip :=
  (if (Tbl.find? c.startOwn n).isSome then (c.zeroGranule n).carriageDid (granuleHalf n) 65536 else c.zeroGranule n).entryTaken n

theorem Chip.granuleStarted_keeps {γ : Type} {f : Chip → γ} (hz : ∀ (c : Chip) m g p, f { c with mem := m, garbled := g, poison := p } = f c)
    (ho : ∀ (c : Chip) o y, f { c with own := o, startOwn := y } = f c) (hr : ∀ (c : Chip) r, f { c with regs := r } = f c) (c : Chip) (n : Nat) : f (c.granuleStarted n) = f c := by
  have hzero : f (c.zeroGranule n) = f c := (ho (c.zeroRange (granuleAddr n) 65536) _ c.startOwn).trans (hz c _ _ _)
  exact (Chip.entryTaken_keeps ho _ _).trans ((ite_keeps (Chip.carriageDid_keeps f hr _ _ _) rfl).trans hzero)

theorem Chip.granuleStarted_shows (c : Chip) {n : Nat} (hn : n < 1048576) : (∀ k < 65536, (c.granuleStarted n).byte (granuleAddr n + k) = 0) ∧
    (∀ e, Tbl.find? c.startOwn n = some e → (c.granuleStarted n).ownAt n = e % 2 ^ 32) ∧ ∀ j, j ≠ n → (c.granuleStarted n).ownAt j = c.ownAt j := by
  have hbyte (k : Nat) (hk : k < 65536) : (c.zeroGranule n).byte (granuleAddr n + k) = 0 := Chip.byte_zeroGranule c hn hk (.inl rfl)
  have hstart : (c.zeroGranule n).startOwn = c.startOwn := rfl
  have hown (j : Nat) (hj : j ≠ n) : (c.zeroGranule n).ownAt j = c.ownAt j := Chip.ownAt_setOwn_ne (c.zeroRange (granuleAddr n) 65536) _ hj
  unfold Chip.granuleStarted
  generalize c.zeroGranule n = d at hbyte hstart hown
  have hpaid {γ : Type} (f : Chip → γ) (hr : ∀ (c : Chip) r, f { c with regs := r } = f c) :
      f (if (Tbl.find? c.startOwn n).isSome then d.carriageDid (granuleHalf n) 65536 else d) = f d := ite_keeps (Chip.carriageDid_keeps f hr _ _ _) rfl
  have hbyte' (k : Nat) (hk : k < 65536) := (hpaid (fun y => y.byte (granuleAddr n + k)) fun _ _ => rfl).trans (hbyte k hk)
  have hstart' := (hpaid Chip.startOwn fun _ _ => rfl).trans hstart
  have hown' (j : Nat) (hj : j ≠ n) := (hpaid (fun y => y.ownAt j) fun _ _ => rfl).trans (hown j hj)
  generalize (if (Tbl.find? c.startOwn n).isSome then d.carriageDid (granuleHalf n) 65536 else d) = e at hbyte' hstart' hown'
  obtain ⟨hentry, hrest⟩ := e.own_entryTaken n
  refine ⟨fun k hk => ?_, fun x hx => hentry x (hstart'.symm ▸ hx), fun j hj => (hrest j hj).trans (hown' j hj)⟩
  exact (Chip.entryTaken_keeps (f := fun y : Chip => y.byte (granuleAddr n + k)) (fun _ _ _ => rfl) e n).trans (hbyte' k hk)

theorem Tbl.length_ins_le {α : Type} (t : Tbl α) (k : Nat) (v : α) : (Tbl.ins t k v).length ≤ t.length + 1 := by
  induction t with
  | nil => exact Nat.le_refl 1
  | cons e t ih =>
    unfold Tbl.ins
    split
    · exact Nat.le_succ _
    split
    · exact Nat.le_refl _
    · exact Nat.succ_le_succ ih

/-- Clause 5: a granule zeroed at the start takes its entry of the image. -/
theorem startZeroed (n : Fin 1048576) (s : State) :
    let c := s.chip
    let x := c.startOf (granuleHalf n)
    x.zeroing = true → c.down.get (granuleHalf n) = false → Tbl.find? x.zeroed n = none → x.zeroed.length < 524287 → c.zeroWaits n = false → c.startInst = [] → c.startRings = [] →
    ∃ t, exec (.startZeroingComplete n) s = .next (s.withChip t) ∧ Tbl.find? (t.startOf (granuleHalf n)).zeroed n = some true ∧
      (∀ k < 65536, t.byte (granuleAddr n + k) = 0) ∧ (∀ e, Tbl.find? c.startOwn n = some e → t.ownAt n = e % 2 ^ 32) ∧
      (∀ j, j ≠ n.val → t.ownAt j = c.ownAt j) := by
  intro c x hzeroing hdown hfresh hmany hwaits hinst hrings
  have hall : decide (524288 ≤ (Tbl.ins x.zeroed n.val true).length) = false := by
    have := Tbl.length_ins_le x.zeroed n.val true
    exact decide_eq_false (by omega)
  have hready : ((c.granuleStarted n).setStart (granuleHalf n) { (c.granuleStarted n).startOf (granuleHalf n) with zeroed := Tbl.ins x.zeroed n.val true, zeroing := true }).startReady =
      (c.granuleStarted n).setStart (granuleHalf n) { (c.granuleStarted n).startOf (granuleHalf n) with zeroed := Tbl.ins x.zeroed n.val true, zeroing := true } := by
    refine Chip.startReady_none ?_ ?_
    · exact (Chip.granuleStarted_keeps (f := Chip.startInst) (fun _ _ _ _ => rfl) (fun _ _ _ => rfl) (fun _ _ => rfl) c n).trans hinst
    · exact (Chip.granuleStarted_keeps (f := Chip.startRings) (fun _ _ _ _ => rfl) (fun _ _ _ => rfl) (fun _ _ => rfl) c n).trans hrings
  have hexec : exec (.startZeroingComplete n) s = .next (s.withChip
      ((c.granuleStarted n).setStart (granuleHalf n) { (c.granuleStarted n).startOf (granuleHalf n) with zeroed := Tbl.ins x.zeroed n.val true, zeroing := true })) := by
    have hexec : exec (.startZeroingComplete n) s = execStartZeroingComplete n s := rfl
    unfold execStartZeroingComplete at hexec
    dsimp only at hexec
    rw [hall] at hexec
    refine hexec.trans ((if_neg fun hc => ?_).trans ?_)
    · rcases hc with hn | hn | hn | hn
      · exact hn hzeroing
      · exact Bool.eq_false_iff.1 hdown hn
      · rw [show Tbl.find? (s.chip.startOf (granuleHalf n)).zeroed n = none from hfresh] at hn
        exact Bool.false_ne_true hn
      · exact Bool.eq_false_iff.1 hwaits hn
    · rw [← hready]
      exact s.go_eq _
  obtain ⟨hbyte, hentry, hrest⟩ := c.granuleStarted_shows n.isLt
  generalize c.granuleStarted n = d at hexec hbyte hentry hrest
  refine ⟨_, hexec, ?_, hbyte, hentry, hrest⟩
  rw [Chip.startOf_setStart]
  exact Tbl.find?_ins_same _ _ _

end

/-! ### Recovery -/

section
variable {h : Half}

/-- Firmware that starts runs, with the memory keys drawn. -/
theorem Chip.startFirmware_shows (c : Chip) (x : Sig) (copy : Nat) : ((c.startFirmware h x copy).secOf h).booted = true ∧ ((c.startFirmware h x copy).secOf h).memKeys = true ∧
    (c.startFirmware h x copy).start = c.start := by
  unfold Chip.startFirmware
  extract_lets +onlyGivenNames d e src g
  have hd : d.start = c.start := eventPart_start.commit (fun _ _ _ => rfl) _ _ _
  have he : e.start = d.start := (Chip.put_start _ _ _).trans ((Chip.put_start _ _ _).trans (Chip.put_start _ _ _))
  clear_value e d
  have hg : g.secOf h = { src with booted := true, memKeys := true, measures := [⟨0, h.idx, 0, 0, Config.romDigest h.idx⟩, ⟨1, h.idx, x.ctr, x.version, x.digest⟩] } := Chip.secOf_setSec e h _
  have hstart : g.start = c.start := (e.setSec_start h _).trans (he.trans hd)
  clear_value g
  have hsec : (g.milestone h 2).secOf h = g.secOf h := congrArg (fun p => p.get h) (lossPart_sec.event.milestone g h 2)
  exact ⟨congrArg SecSt.booted (hsec.trans hg), congrArg SecSt.memKeys (hsec.trans hg), (eventPart_start.milestone _ _ _).trans hstart⟩

/-- What a recovery image that is not taken leaves. -/
theorem eventPart_recovery : EventPart fun c : Chip => ((c.secOf h).booted, (c.startOf h).recovery) := fun _ _ _ _ _ _ _ _ _ _ _ _ => rfl

/-- The chip after a recovery image is presented. -/
def Chip.recovered (c : Chip) (h : Half) (record object : List Byte) : Chip :=
  match readSig 1 record with
  | none => c.sigFailed h 1 [] 3
  | some x =>
    match c.sigFault h x (sha384 object) [] with
    | some k => c.sigFailed h 1 x.signer k
    | none =>
      if x.version < c.ctrOf 0 then c.oldVersion h { x with ctr := 0 }
      else ((c.setStart h { c.startOf h with recovery := false }).put (F.SYS_START_PHASE h.idx) 1).startFirmware h { x with ctr := 0 } 0

theorem exec_romRecovery_waiting {s : State} (hrec : (s.chip.startOf h).recovery = true) (hdown : s.chip.down.get h = false) (record object : List Byte) :
    exec (.romRecovery h record object) s = .next (s.withChip (s.chip.recovered h record object)) := by
  have hexec : exec (.romRecovery h record object) s = execRomRecovery h record object s := rfl
  unfold execRomRecovery at hexec
  refine hexec.trans ((if_neg fun hc => hc.elim (fun hn => hn hrec) (Bool.eq_false_iff.1 hdown)).trans ?_)
  unfold Chip.recovered
  cases readSig 1 record with
  | none => exact s.go_eq _
  | some x =>
    dsimp only
    cases s.chip.sigFault h x (sha384 object) [] with
    | some k => exact s.go_eq _
    | none => exact s.go_ite _ _ _

/-- Clause 6: a recovery image. -/
theorem recoveryTaken (h : Half) (record object : List Byte) (s : State) :
    let c := s.chip
    let good : Prop := ∃ x, readSig 1 record = some x ∧ c.sigFault h x (sha384 object) [] = none ∧ c.ctrOf 0 ≤ x.version
    (c.startOf h).recovery = true → c.down.get h = false → (c.secOf h).booted = false →
    ∃ t, exec (.romRecovery h record object) s = .next (s.withChip t) ∧
      (good → (t.secOf h).booted = true ∧ (t.secOf h).memKeys = true ∧ (t.startOf h).recovery = false) ∧
      (¬ good → (t.secOf h).booted = false ∧ (t.startOf h).recovery = true) := by
  intro c good hrec hdown hboot
  have hold {t : Chip} (ht : ((t.secOf h).booted, (t.startOf h).recovery) = ((c.secOf h).booted, (c.startOf h).recovery)) : (t.secOf h).booted = false ∧ (t.startOf h).recovery = true :=
    ⟨(congrArg Prod.fst ht).trans hboot, (congrArg Prod.snd ht).trans hrec⟩
  refine ⟨_, exec_romRecovery_waiting hrec hdown record object, fun ⟨x, hx, hfault, hver⟩ => ?_, fun hbad => ?_⟩
  · have htaken : c.recovered h record object = ((c.setStart h { c.startOf h with recovery := false }).put (F.SYS_START_PHASE h.idx) 1).startFirmware h { x with ctr := 0 } 0 := by
      unfold Chip.recovered
      rw [hx]
      dsimp only
      rw [hfault]
      exact if_neg (Nat.not_lt.2 hver)
    rw [htaken]
    obtain ⟨hrun, hkeys, hstart⟩ := Chip.startFirmware_shows (h := h) ((c.setStart h { c.startOf h with recovery := false }).put (F.SYS_START_PHASE h.idx) 1) { x with ctr := 0 } 0
    have hput : ((c.setStart h { c.startOf h with recovery := false }).put (F.SYS_START_PHASE h.idx) 1).start = (c.setStart h { c.startOf h with recovery := false }).start := Chip.put_start _ _ _
    have hset := congrArg StartSt.recovery (Chip.startOf_setStart c h { c.startOf h with recovery := false })
    exact ⟨hrun, hkeys, (congrArg (fun p => (Pair.get p h).recovery) (hstart.trans hput)).trans hset⟩
  · unfold Chip.recovered
    split
    · exact hold (eventPart_recovery.sigFailed _ _ _ _ _)
    next x hx =>
      split
      · exact hold (eventPart_recovery.sigFailed _ _ _ _ _)
      next hfault =>
        split
        · exact hold (eventPart_recovery.ev _ _ _ _)
        · next hver => exact absurd ⟨x, hx, hfault, Nat.not_lt.1 hver⟩ hbad

end

/-! ### Resets -/

section
variable {c : Chip}

theorem down_eq_both {p : Pair Bool} (hh : p.get .H = true) (ht : p.get .T = true) : p = ⟨true, true⟩ := by
  obtain ⟨a, b⟩ := p
  obtain rfl : a = true := hh
  obtain rfl : b = true := ht
  rfl

theorem Chip.lost_both (c : Chip) : ((c.loseHalf .H).loseHalf .T).down = ⟨true, true⟩ := by
  rw [Chip.down_loseHalf, Chip.down_loseHalf]
  rfl

/-- The loss of both halves, of which one was up, leaves no command, no wait and no time. -/
theorem Chip.lost_last (hup : c.down ≠ ⟨true, true⟩) : ((c.loseHalf .H).loseHalf .T).cmds = [] ∧ ((c.loseHalf .H).loseHalf .T).waits = [] ∧
    ((c.loseHalf .H).loseHalf .T).time = Chip.reset.time := by
  have hdown : (c.loseHalf .H).down = c.down.set .H true := c.down_loseHalf .H
  cases ht : c.down.get .T
  · exact Chip.loseHalf_last (h := .T) ((congrArg (fun p => Pair.get p Half.T) hdown).trans ht) ((congrArg (fun p => Pair.get p Half.H) hdown).trans rfl)
  · have hh : c.down.get .H = false := by
      cases hh : c.down.get .H
      · rfl
      · exact absurd (down_eq_both hh ht) hup
    rw [Chip.loseHalf_down ((congrArg (fun p => Pair.get p Half.T) hdown).trans ht)]
    exact Chip.loseHalf_last (h := .H) hh ht

/-- Clause 7: a reset by register. -/
theorem registerResets (i : Initiator) (key : Byte) (h : Half) (s : State) :
    let c := s.chip
    c.portCause i true Reg.SYS_RESET = 0 →
    (key ≠ 0xA5 → exec (.sysResetDevice i key) s = .next s ∧ exec (.sysResetHalf i key h) s = .next s) ∧
    (key = 0xA5 →
      (∃ t, exec (.sysResetDevice i key) s = .next (s.withChip t) ∧ t.down = ⟨true, true⟩ ∧ (c.down ≠ ⟨true, true⟩ → t.cmds = [] ∧ t.waits = [] ∧ t.time = Chip.reset.time)) ∧
      (∃ t, exec (.sysResetHalf i key h) s = .next (s.withChip t) ∧ t.down.get h = true ∧ t.down.get h.other = c.down.get h.other)) := by
  intro c hport
  have hreset (k : Nat) (l : List Half) : s.chip.sysReset i k l = if k = 0xA5 then l.foldl Chip.loseHalf s.chip else s.chip := by
    unfold Chip.sysReset
    simp only [show s.chip.portCause i true Reg.SYS_RESET = 0 from hport]
  have hdevice : exec (.sysResetDevice i key) s = .next (s.withChip (s.chip.sysReset i key.toNat [.H, .T])) := s.go_eq _
  have hhalf : exec (.sysResetHalf i key h) s = .next (s.withChip (s.chip.sysReset i key.toNat [h])) := s.go_eq _
  rw [hreset] at hdevice hhalf
  refine ⟨fun hkey => ?_, fun hkey => ?_⟩
  · have hne : key.toNat ≠ 0xA5 := fun heq => hkey (BitVec.eq_of_toNat_eq heq)
    rw [if_neg hne] at hdevice hhalf
    exact ⟨hdevice, hhalf⟩
  · subst hkey
    refine ⟨⟨_, hdevice, c.lost_both, fun hup => Chip.lost_last hup⟩, _, hhalf, ?_, ?_⟩
    · exact (congrArg (fun p => p.get h) (c.down_loseHalf h)).trans (Pair.get_set_same _ _ _)
    · exact (congrArg (fun p => p.get h.other) (c.down_loseHalf h)).trans (Pair.get_set_other _ _ _)

/-- A half without memory keys gets none by a loss. -/
theorem Chip.memKeys_loseHalf (h k : Half) (hkeys : (c.secOf k).memKeys = false) : ((c.loseHalf h).secOf k).memKeys = false := by
  have hwiped (x : SecSt) : x.wiped.memKeys = false := rfl
  cases hdown : c.down.get h
  · obtain ⟨hself, hkept, hlost⟩ := Chip.sec_loseHalf (c := c) hdown
    by_cases hk : k = h
    · subst hk
      rw [hself, hwiped]
    · obtain rfl : k = h.other := by revert hk; cases k <;> cases h <;> decide
      cases hother : c.down.get h.other
      · rw [hkept hother, hkeys]
      · rw [hlost hother, hwiped]
  · rw [Chip.loseHalf_down hdown, hkeys]

/-- The chip after the granules and registers that the owner of a returned device has left are erased. -/
def Chip.leftErased (c : Chip) : Chip :=
  (c.own.filter fun e => bit e.2.toNat 12).foldl (fun (c : Chip) e =>
    (if e.1 < 1048576 then c.zeroGranule e.1 else c).setOwn e.1 (mkOwn (ownOwner e.2.toNat) 7 (if e.1 < 1048576 then 1 else 0))) c

/-- The chip at the end of the erase, with no memory keys. -/
def Chip.ownerErased (c : Chip) : Chip :=
  { c.leftErased with sec := ⟨{ c.leftErased.sec.h with memKeys := false }, { c.leftErased.sec.t with memKeys := false }⟩, erasing := false }

/-- Clause 9: the erase of a returned device ends with the loss of both halves. -/
theorem returnErased (s : State) : s.chip.erasing = true → s.chip.down ≠ ⟨true, true⟩ →
    ∃ t, exec .vendorReturnEraseEnd s = .next (s.withChip t) ∧ t.erasing = false ∧ t.down = ⟨true, true⟩ ∧ (t.secOf .H).memKeys = false ∧ (t.secOf .T).memKeys = false := by
  intro herasing hup
  have hexec : exec .vendorReturnEraseEnd s = .next (s.withChip ((s.chip.ownerErased.loseHalf .H).loseHalf .T)) := by
    have hexec : exec .vendorReturnEraseEnd s = execVendorReturnEraseEnd s := rfl
    unfold execVendorReturnEraseEnd at hexec
    exact hexec.trans ((if_neg fun hn => hn herasing).trans (s.go_eq _))
  have hdone : s.chip.ownerErased.erasing = false := rfl
  have hh : (s.chip.ownerErased.secOf .H).memKeys = false := rfl
  have ht : (s.chip.ownerErased.secOf .T).memKeys = false := rfl
  generalize s.chip.ownerErased = d at hexec hdone hh ht
  exact ⟨_, hexec, ((Chip.erasing_loseHalf _ _).trans (d.erasing_loseHalf _)).trans hdone, d.lost_both,
    Chip.memKeys_loseHalf .T .H (Chip.memKeys_loseHalf .H .H hh), Chip.memKeys_loseHalf .T .T (Chip.memKeys_loseHalf .H .T ht)⟩

end

/-! ### A half leaves reset -/

section
variable {c : Chip} {h : Half}

theorem settled_strap (h : Half) : Settled (F.AUTH_ID_ARB_EN h.idx) := by cases h <;> exact ⟨by unfold eventReg; decide, by decide⟩

theorem strap_apart (h : Half) {f : RF} (hw : f.lo + f.wid ≤ 32) (hne : Reg.AUTH_ID h.idx ≠ f.addr) : f.Apart (F.AUTH_ID_ARB_EN h.idx) := ⟨hw, .inl hne⟩

theorem strap_power (h k : Half) : (F.POWER_STATUS_PEER_STATE k.idx).Apart (F.AUTH_ID_ARB_EN h.idx) := by
  refine strap_apart h (Nat.le_of_ble_eq_true rfl) ?_
  show Reg.AUTH_ID h.idx ≠ Reg.POWER_STATUS k.idx
  have := idx_le h
  unfold Reg.AUTH_ID Reg.POWER_STATUS
  omega

theorem strap_auth (h : Half) (f : Nat → RF) (hw : ∀ i, (f i).lo + (f i).wid ≤ 32) (hf : ∀ i, (f i).addr = Reg.AUTH_STATUS i) (i : Nat) : (f i).Apart (F.AUTH_ID_ARB_EN h.idx) := by
  refine strap_apart h (hw i) ?_
  rw [hf]
  unfold Reg.AUTH_ID Reg.AUTH_STATUS
  omega

theorem Chip.syncStraps_same (c : Chip) (h : Half) : SameField (F.AUTH_ID_ARB_EN h.idx) c c.syncStraps := by
  have hput (d : Chip) (k : Half) (v : Nat) : SameField (F.AUTH_ID_ARB_EN h.idx) d (d.put (F.AUTH_STATUS_ARB_PRESENT k.idx) v) :=
    (SameField.refl d).put (strap_auth h F.AUTH_STATUS_ARB_PRESENT (fun _ => Nat.le_of_ble_eq_true rfl) (fun _ => rfl) _) v
  exact ⟨foldl_keeps (fun y : Chip => y.q (F.AUTH_ID_ARB_EN h.idx)) _ (fun d k => (hput d k _).q) _ _, foldl_keeps Chip.down _ (fun d k => (hput d k _).down) _ _⟩

/-- The chip after a half that has left reset tells the other of it. -/
def Chip.leftReset (c : Chip) (h : Half) : Chip :=
  if c.down.get h.other then
    ({ c with downSince := c.downSince.set h.other (some (c.stamp h 0)) }.put (F.POWER_STATUS_PEER_STATE h.idx) 15).syncStraps
  else
    let d := (((c.put (F.AUTH_STATUS_PEER_DOWN h.other.idx) 0).put (F.POWER_STATUS_PEER_STATE h.other.idx) 0).put (F.POWER_STATUS_PEER_STATE h.idx)
      (c.q (F.POWER_STATUS_STATE h.other.idx))).syncStraps
    let l := [d.q (F.AUTH_ID_ARB_EN 0), d.q (F.AUTH_ID_ARB_EN 1)]
    (if l.getD 0 0 = l.getD 1 0 then d else (d.ev h 0x0813 l).ev h.other 0x0813 l).syncAuth

/-- A half that is up, with its strap sampled. -/
def Chip.strapped (c : Chip) (h : Half) (strap : Bool) : Chip :=
  { c with down := c.down.set h false, downSince := c.downSince.set h none }.put (F.AUTH_ID_ARB_EN h.idx) (b2n strap)

theorem Chip.leaveReset_eq (hdown : c.down.get h = true) (hcool : (c.power.get h).critical = false) (strap : Bool) :
    c.leaveReset h strap = (c.strapped h strap).leftReset h :=
  if_neg fun hc => hc.elim (fun hn => hn hdown) (Bool.eq_false_iff.1 hcool)

theorem Chip.strapped_shows (c : Chip) (h : Half) (strap : Bool) : (c.strapped h strap).down = c.down.set h false ∧ (c.strapped h strap).on (F.AUTH_ID_ARB_EN h.idx) = strap := by
  have hq (d : Chip) : (d.put (F.AUTH_ID_ARB_EN h.idx) (b2n strap)).q (F.AUTH_ID_ARB_EN h.idx) = b2n strap % 2 ^ 1 := Chip.q_put_same _ _ _ (Nat.le_of_ble_eq_true rfl)
  refine ⟨rfl, (congrArg (fun n => n != 0) (hq _)).trans ?_⟩
  cases strap <;> rfl

theorem Chip.leftReset_same (c : Chip) (h : Half) : SameField (F.AUTH_ID_ARB_EN h.idx) c (c.leftReset h) := by
  unfold Chip.leftReset
  refine .ite ?_ ?_
  · have hsince (y) : SameField (F.AUTH_ID_ARB_EN h.idx) c { c with downSince := y } := ⟨rfl, rfl⟩
    exact ((hsince _).put (strap_power h h) _).trans (Chip.syncStraps_same _ h)
  · extract_lets +onlyGivenNames d l
    have hd : SameField (F.AUTH_ID_ARB_EN h.idx) c d :=
      ((((SameField.refl c).put (strap_auth h F.AUTH_STATUS_PEER_DOWN (fun _ => Nat.le_of_ble_eq_true rfl) (fun _ => rfl) _) _).put (strap_power h _) _).put (strap_power h _) _).trans (Chip.syncStraps_same _ h)
    have he : SameField (F.AUTH_ID_ARB_EN h.idx) c (if l.getD 0 0 = l.getD 1 0 then d else (d.ev h 0x0813 l).ev h.other 0x0813 l) :=
      .ite hd ((hd.ev (settled_strap h).event _ _ _).ev (settled_strap h).event _ _ _)
    exact he.trans (Chip.syncAuth_same _ (settled_strap h) fun k => .inr (strap_auth h F.AUTH_STATUS_STATE (fun _ => Nat.le_of_ble_eq_true rfl) (fun _ => rfl) _))

theorem Chip.leaveReset_shows (hdown : c.down.get h = true) (hcool : (c.power.get h).critical = false) (strap : Bool) :
    (c.leaveReset h strap).down = c.down.set h false ∧ (c.leaveReset h strap).on (F.AUTH_ID_ARB_EN h.idx) = strap := by
  obtain ⟨hdn, hon⟩ := c.strapped_shows h strap
  obtain ⟨hq, hdown'⟩ := (c.strapped h strap).leftReset_same h
  rw [Chip.leaveReset_eq hdown hcool]
  exact ⟨hdown'.trans hdn, (congrArg (fun n => n != 0) hq).trans hon⟩

/-- Clause 8: a half enters and leaves reset. -/
theorem resetPin (h : Half) (strap : Bool) (s : State) :
    let c := s.chip
    (c.down.get h = false → ∃ t, exec (.resetAssert h) s = .next (s.withChip t) ∧ t.down.get h = true ∧ t.down.get h.other = c.down.get h.other ∧
      (t.secOf h).booted = false ∧ t.startOf h = StartSt.zero ∧ t.timeOf h = TimeSt.zero) ∧
    (c.down.get h = true → (c.power.get h).critical = false →
      ∃ t, exec (.powerGood h strap) s = .next (s.withChip t) ∧ exec (.resetRelease h strap) s = .next (s.withChip t) ∧ t.down.get h = false ∧
        t.down.get h.other = c.down.get h.other ∧ t.on (F.AUTH_ID_ARB_EN h.idx) = strap) := by
  intro c
  refine ⟨fun hdown => ⟨_, s.go_eq _, ?_, ?_, ?_, Chip.start_loseHalf hdown, Chip.time_loseHalf hdown⟩, fun hdown hcool => ⟨_, s.go_eq _, s.go_eq _, ?_⟩⟩
  · exact (congrArg (fun p => p.get h) (c.down_loseHalf h)).trans (Pair.get_set_same _ _ _)
  · exact (congrArg (fun p => p.get h.other) (c.down_loseHalf h)).trans (Pair.get_set_other _ _ _)
  · exact congrArg SecSt.booted (Chip.sec_loseHalf hdown).1
  · obtain ⟨hdn, hstrap⟩ := Chip.leaveReset_shows hdown hcool strap
    exact ⟨(congrArg (fun p => p.get h) hdn).trans (Pair.get_set_same _ _ _), (congrArg (fun p => p.get h.other) hdn).trans (Pair.get_set_other _ _ _), hstrap⟩

end

/-- Settles O58, clause by clause. -/
theorem startAndResets : Obligations.StartAndResets :=
  ⟨copyChosen, imageAccepted, imageAgreed, imageApplied, startZeroed, recoveryTaken, registerResets, resetPin, returnErased⟩

end Machine

end Sys2Proof

/-! PROOF. A debugger's halt and the reservations of gouge cores (R345, R473). -/

namespace Sys2Proof

namespace Machine

/-- A device in Owner-open with partition 1 in scope and every condition of fitness of Headstock held: application core 0 runs a party of partition 1,
firmware's default event ring lies at the start of a bench's data store, and a gouge core of that bench holds a reservation there. -/
def watchedChip : Chip :=
  { Chip.reset with
    rings := [(3, { owner := 0, heldClear := false, deaf := false, resv := 0, lost := 0, lostRun := false, written := 0, deafAt := (0, 0) })]
    cores := [(0, { Core.zero with resv := some (0x60000000, 8) })]
    apps := [(0, { AppCore.zero with owner := 0x100 })]
    regs := [(Reg.SEC_STATUS 0, BitVec.ofNat 32 (2 ^ 30)), (Reg.SEC_DBG_SCOPE 0, 2), (Reg.RING_CFG 3, BitVec.ofNat 32 (2 ^ 30 + 2 ^ 16 + 3)),
      (Reg.RING_BASE_LO 3, 0x60000000), (Reg.AUTH_STATUS 0, 0)] }

/-- The reservations of the cores after a step. -/
def reservations : Host.Outcome State Fault Refusal → List (Option (Nat × Nat))
  | .next s => s.chip.cores.map fun e => e.2.resv
  | _ => []

/-- The halt makes Headstock unfit, and the record of that event ends the reservation. -/
theorem reservations_debuggerHalt : reservations (exec (.debuggerHalt (.app 0) true) ⟨watchedChip, []⟩) = [none] := by decide +kernel

/-- Refutes O57: a halt that makes a half unfit raises event 0x0810, whose record ends the reservation that a gouge core holds on the bytes of the event
ring, so that the cores are not as they were. -/
theorem not_securityCores : ¬ Obligations.SecurityCores := by
  intro h
  obtain ⟨-, -, -, -, -, -, hhalt⟩ := h
  have howner : watchedChip.targetOwner (.app 0) = some 0x100 := rfl
  have hopen : watchedChip.q (F.SEC_STATUS_DEBUG 0) = 1 := by decide +kernel
  have hscope : bit (max (watchedChip.q (F.SEC_DBG_SCOPE_SCOPE 0)) (watchedChip.q (F.SEC_DBG_SCOPE_SCOPE 1))) (0x100 : Owner).part = true := by decide +kernel
  obtain ⟨t, hexec, -, -, hcores, -⟩ := hhalt (.app 0) true 0x100 ⟨watchedChip, []⟩ howner (.inl hopen) (by decide) (by decide) hscope
  have hended := reservations_debuggerHalt
  rw [hexec] at hended
  have hkept : reservations (.next ((⟨watchedChip, []⟩ : State).withChip t)) = [some (0x60000000, 8)] := congrArg (fun y : Tbl Core => y.map fun e : Nat × Core => e.2.resv) hcores
  rw [hkept] at hended
  exact absurd hended (by decide)

end Machine

end Sys2Proof

/-! PROOF. Quanta, marks, slots and pre-emption on the schedulable engines (R271–R282). -/

namespace Sys2Proof

namespace Machine

/-! ### How a switch is decided -/

section
variable {c : Chip} {e : Engine} {r : Nat}

theorem Chip.decideSwitch_level (hsave : (c.switchOf e).saving = none) (hlevel : c.commandLevel e = true) (noWait : Bool) : c.decideSwitch e r noWait = c.beginSave e false := by
  unfold Chip.decideSwitch
  rw [hsave]
  exact (if_neg Bool.false_ne_true).trans (if_pos hlevel)

theorem Chip.decideSwitch_full (hsave : (c.switchOf e).saving = none) (hlevel : c.commandLevel e = false) : c.decideSwitch e r true = c.beginSave e true := by
  unfold Chip.decideSwitch
  rw [hsave]
  exact (if_neg Bool.false_ne_true).trans ((if_neg (Bool.eq_false_iff.1 hlevel)).trans (if_pos rfl))

theorem Chip.decideSwitch_mark (hsave : (c.switchOf e).saving = none) (hlevel : c.commandLevel e = false) (hwant : (c.switchOf e).want = false) :
    c.decideSwitch e r false = if c.markAhead e r then c.setSwitch e { c.switchOf e with want := true, since := c.stamp (engineHalf (c.engineNo e)) 0 } else c.beginSave e true := by
  unfold Chip.decideSwitch
  rw [hsave]
  exact (if_neg Bool.false_ne_true).trans ((if_neg (Bool.eq_false_iff.1 hlevel)).trans ((if_neg Bool.false_ne_true).trans (if_neg (Bool.eq_false_iff.1 hwant))))

end

/-- Clause 3: how a switch begins. -/
theorem switchDecided (e : Engine) (r : Nat) (c : Chip) : (c.switchOf e).saving = none →
    (c.commandLevel e = true → ∀ n, c.decideSwitch e r n = c.beginSave e false) ∧
    (c.commandLevel e = false → (c.switchOf e).want = false → c.markAhead e r = true →
      c.decideSwitch e r false = c.setSwitch e { c.switchOf e with want := true, since := c.stamp (engineHalf (c.engineNo e)) 0 }) ∧
    (c.commandLevel e = false → (c.switchOf e).want = false → c.markAhead e r = false → c.decideSwitch e r false = c.beginSave e true) ∧
    (c.commandLevel e = false → c.decideSwitch e r true = c.beginSave e true) := fun hsave =>
  ⟨fun hlevel n => Chip.decideSwitch_level hsave hlevel n,
    fun hlevel hwant hmark => (Chip.decideSwitch_mark hsave hlevel hwant).trans (if_pos hmark),
    fun hlevel hwant hmark => (Chip.decideSwitch_mark hsave hlevel hwant).trans (if_neg (Bool.eq_false_iff.1 hmark)),
    fun hlevel => Chip.decideSwitch_full hsave hlevel⟩

/-- Clause 1: a boundary mark whose earlier commands have completed. -/
theorem markCompletes (id : CmdId) (m : Cmd) (s : State) :
    s.chip.takeable id (· == 0x03) = some m → s.chip.earlier id = [] →
    exec (.boundaryMark id) s = .next (s.withChip (((s.chip.markDead id.ring.val (bit (m.word 1) 0) (bit (m.word 1) 1)).complete m 0).switchAtMark id.ring.val)) := by
  intro htake hearlier
  have hexec : exec (.boundaryMark id) s = execBoundaryMark id s := rfl
  unfold execBoundaryMark at hexec
  rw [htake, hearlier] at hexec
  exact hexec.trans (s.go_eq _)

/-- Clause 2: the end of a quantum. -/
theorem quantumEnds (e : Engine) (r : Nat) (s : State) :
    let c := (s.chip.applyShares e).noteTurn e
    let w := c.switchOf e
    c.residentOn e = some r → w.saving = none →
    let rival := c.cmds.any fun m => c.wants e m && (c.rankFor e m == c.rankOn e || c.inOwnSlot e m.id.ring.val)
    (c.suspendedOn e = true → exec (.quantumEnd e) s = .next (s.withChip (c.decideSwitch e r false))) ∧
    (c.suspendedOn e = false → c.isRough e r = true → exec (.quantumEnd e) s = .next (s.withChip c)) ∧
    (c.suspendedOn e = false → c.isRough e r = false → (rival = false → exec (.quantumEnd e) s = .next (s.withChip (c.setSwitch e { w with quanta := 0 }))) ∧
    (rival = true → c.commandLevel e = true → exec (.quantumEnd e) s = .next (s.withChip (c.beginSave e false))) ∧
    (rival = true → c.commandLevel e = false → 4 ≤ w.quanta → exec (.quantumEnd e) s = .next (s.withChip (c.beginSave e true))) ∧
    (rival = true → c.commandLevel e = false → w.quanta < 4 →
      exec (.quantumEnd e) s = .next (s.withChip (c.setSwitch e { w with quanta := w.quanta + 1 })))) := by
  intro c w hres hsave rival
  have hexec : exec (.quantumEnd e) s = .next (s.withChip (s.chip.quantumEnd e)) := s.go_eq _
  have hrun : s.chip.quantumEnd e = if c.suspendedOn e then c.decideSwitch e r false else if c.isRough e r then c
      else if rival then if c.commandLevel e then c.beginSave e false else if 4 ≤ w.quanta then c.beginSave e true else c.setSwitch e { w with quanta := w.quanta + 1 }
      else c.setSwitch e { w with quanta := 0 } := by
    unfold Chip.quantumEnd
    dsimp only
    rw [hres]
    exact if_neg (by rw [show (((s.chip.applyShares e).noteTurn e).switchOf e).saving = none from hsave]; exact Bool.false_ne_true)
  rw [hexec, hrun]
  clear_value rival w c
  refine ⟨fun hsus => ?_, fun hsus hrough => ?_, fun hsus hrough => ⟨fun hriv => ?_, fun hriv hlevel => ?_, fun hriv hlevel hlong => ?_, fun hriv hlevel hshort => ?_⟩⟩
  · rw [if_pos hsus]
  · rw [if_neg (Bool.eq_false_iff.1 hsus), if_pos hrough]
  · rw [if_neg (Bool.eq_false_iff.1 hsus), if_neg (Bool.eq_false_iff.1 hrough), if_neg (Bool.eq_false_iff.1 hriv)]
  · rw [if_neg (Bool.eq_false_iff.1 hsus), if_neg (Bool.eq_false_iff.1 hrough), if_pos hriv, if_pos hlevel]
  · rw [if_neg (Bool.eq_false_iff.1 hsus), if_neg (Bool.eq_false_iff.1 hrough), if_pos hriv, if_neg (Bool.eq_false_iff.1 hlevel), if_pos hlong]
  · rw [if_neg (Bool.eq_false_iff.1 hsus), if_neg (Bool.eq_false_iff.1 hrough), if_pos hriv, if_neg (Bool.eq_false_iff.1 hlevel), if_neg (Nat.not_le.2 hshort)]

/-- Clause 4: a mark that was waited for is not reached in time. -/
theorem markWaitExpires (e : Engine) (s : State) : (s.chip.switchOf e).want = true →
    ((s.chip.q F.SCHED_CTL_MARK_WAIT * usUnits : Nat) : Int) ≤ elapsed (s.chip.stamp (engineHalf (s.chip.engineNo e)) 0) (s.chip.switchOf e).since →
    exec (.markWaitExpiry e) s = .next (s.withChip (s.chip.beginSave e (!s.chip.commandLevel e))) := by
  intro hwant hdue
  have hexec : exec (.markWaitExpiry e) s = execMarkWaitExpiry e s := rfl
  unfold execMarkWaitExpiry at hexec
  exact hexec.trans ((if_pos ⟨hwant, hdue⟩).trans (s.go_eq _))

/-- Clause 5: a strict slot is about to begin. -/
theorem slotGuarded (a : Fin 8) (e : SlotEntry) (left r : Nat) (s : State) :
    s.chip.timeReady (arrayHalf a) = true → s.chip.nextEntry a = some (e, left) → (s.chip.arr a).resident = some r →
    e.isOpen = false → left ≤ s.chip.guardTenths → (∀ o, s.chip.ringOwner r = some o → e.heldBy s.chip a o = false) → s.chip.isRough (.array a) r = false →
    exec (.strictSlotGuard a) s = .next (s.withChip (s.chip.decideSwitch (.array a) r (s.chip.roughArray a && s.chip.roughPart == some e.part))) := by
  intro htime hnext hres hstrict hleft hother hrough
  have hexec : exec (.strictSlotGuard a) s = execStrictSlotGuard a s := rfl
  unfold execStrictSlotGuard at hexec
  simp only [hnext, hres] at hexec
  refine hexec.trans ((if_neg fun hn => hn htime).trans ((if_pos ⟨Bool.eq_false_iff.1 hstrict, hleft, ?_, Bool.eq_false_iff.1 hrough⟩).trans (s.go_eq _)))
  cases ho : s.chip.ringOwner r with
  | none => rfl
  | some o => exact hother o ho

/-! ### The slot table -/

/-- The chip after a strict slot that ends with its holder, ready, still awaited is counted and reported. -/
def Chip.slotEnded (c : Chip) (a : Nat) (e : SlotEntry) : Chip :=
  match c.strictSlot a with
  | some x => if (c.strictSlot a).any (fun x => x.idx != e.idx && (c.arr a).awaited && c.holderReady a x)
      then (c.inc F.SCHED_SLOT_LATE_COUNT).ev (arrayHalf a) 0x0500 [a, x.part + 16 * b2n x.world, x.len] else c
  | none => c

/-- The entry of the slot in force is the one that the array notes. -/
theorem Chip.entry_of_strictSlot {c : Chip} {a : Nat} {x : SlotEntry} (h : c.strictSlot a = some x) : (c.arr a).entry = some x.idx := by
  unfold Chip.strictSlot at h
  split at h
  · exact absurd h.symm (Option.some_ne_none x)
  · next k hk =>
      have hx := List.find?_some h
      rw [Bool.and_eq_true, beq_iff_eq] at hx
      rw [hk, hx.1]

/-- The chip after the slot that is noted has ended, as the entry's start finds it. -/
def Chip.slotPast (c : Chip) (a : Nat) (now : Option SlotEntry) : Chip :=
  match (c.arr a).entry with
  | some k => if now.map SlotEntry.idx = some k then c else c.slotMissed a
  | none => c

theorem Chip.slotPast_eq (c : Chip) (a : Nat) (e : SlotEntry) : c.slotPast a (some e) = c.slotEnded a e := by
  unfold Chip.slotPast
  unfold Chip.slotEnded
  cases hx : c.strictSlot a with
  | none =>
    have hmiss : c.slotMissed a = c := by
      unfold Chip.slotMissed
      rw [hx]
    dsimp only
    split
    · rw [hmiss, ite_self]
    · rfl
  | some x =>
    have hmiss : c.slotMissed a = if (c.arr a).awaited ∧ c.holderReady a x then (c.inc F.SCHED_SLOT_LATE_COUNT).ev (arrayHalf a) 0x0500 [a, x.part + 16 * b2n x.world, x.len] else c := by
      unfold Chip.slotMissed
      rw [hx]
    rw [Chip.entry_of_strictSlot hx]
    dsimp only
    rw [hmiss, Option.any_some, Option.map_some]
    by_cases hsame : e.idx = x.idx
    · rw [if_pos (congrArg some hsame), if_neg]
      rw [hsame, bne_self_eq_false, Bool.false_and, Bool.false_and]
      exact Bool.false_ne_true
    · rw [if_neg fun hn => hsame (Option.some.inj hn), show (x.idx != e.idx) = true from bne_iff_ne.2 (Ne.symm hsame), Bool.true_and]
      simp only [Bool.and_eq_true]

/-- The chip after an entry of the slot table begins, the time being what it is. -/
def Chip.slotBegun (c : Chip) (a : Fin 8) (time : Nat) : Option SlotEntry → Chip
  | none => c.setArr a { c.arr a with entry := none, awaited := false }
  | some e =>
    let d := c.setArr a { c.arr a with entry := some e.idx, awaited := false }
    let runs := !(d.arr a).jobs.isEmpty && match (d.arr a).resident.bind d.ringOwner with
      | some o => e.heldBy d a o
      | none => false
    if e.isOpen then d
    else if 2 * usUnits < time - e.start * usUnits then
      (d.inc F.SCHED_SLOT_LATE_COUNT).ev (arrayHalf a) 0x0500 [a.val, e.part + 16 * b2n e.world, (time - e.start * usUnits) / usUnits]
    else d.setArr a { d.arr a with awaited := d.holderReady a e && !runs }

theorem exec_slotTableEntryStart {a : Fin 8} {s : State} (htime : s.chip.timeReady (arrayHalf a) = true) :
    exec (.slotTableEntryStart a) s = .next (s.withChip ((s.chip.slotPast a (s.chip.slotNow a)).slotBegun a (s.chip.slotTime a) (s.chip.slotNow a))) := by
  have hexec : exec (.slotTableEntryStart a) s = execSlotTableEntryStart a s := rfl
  unfold execSlotTableEntryStart at hexec
  refine hexec.trans ((if_neg fun hn => hn htime).trans (Eq.trans ?_ (s.go_eq _)))
  dsimp only
  generalize s.chip.slotNow a = now
  cases now with
  | none => rfl
  | some e =>
    refine (apply_ite s.go _ _ _).trans ?_ |>.symm
    exact congrArg (fun y => if e.isOpen = true then _ else y) (apply_ite s.go _ _ _)

/-- Clause 6: the slot table's entry whose time it is begins. -/
theorem slotEntryStarts (a : Fin 8) (e : SlotEntry) (s : State) :
    s.chip.timeReady (arrayHalf a) = true → s.chip.slotNow a = some e →
    let late := s.chip.slotTime a - e.start * usUnits
    let missed := (s.chip.strictSlot a).any fun x => x.idx != e.idx && (s.chip.arr a).awaited && s.chip.holderReady a x
    let m := match s.chip.strictSlot a with
      | some x => if missed then (s.chip.inc F.SCHED_SLOT_LATE_COUNT).ev (arrayHalf a) 0x0500 [a.val, x.part + 16 * b2n x.world, x.len] else s.chip
      | none => s.chip
    let c := m.setArr a { m.arr a with entry := some e.idx, awaited := false }
    let runs := !(c.arr a).jobs.isEmpty && ((c.arr a).resident.bind c.ringOwner).any fun o => e.heldBy c a o
    (e.isOpen = true → exec (.slotTableEntryStart a) s = .next (s.withChip c)) ∧
    (e.isOpen = false → 2 * usUnits < late → exec (.slotTableEntryStart a) s = .next (s.withChip
      ((c.inc F.SCHED_SLOT_LATE_COUNT).ev (arrayHalf a) 0x0500 [a.val, e.part + 16 * b2n e.world, late / usUnits]))) ∧
    (e.isOpen = false → late ≤ 2 * usUnits → exec (.slotTableEntryStart a) s = .next (s.withChip
      (c.setArr a { c.arr a with awaited := c.holderReady a e && !runs }))) := by
  intro htime hnow late missed m c runs
  have hm : m = s.chip.slotEnded a e := rfl
  have hruns : runs = (!(c.arr a).jobs.isEmpty && match (c.arr a).resident.bind c.ringOwner with | some o => e.heldBy c a o | none => false) := by
    show (!(c.arr a).jobs.isEmpty && ((c.arr a).resident.bind c.ringOwner).any fun o => e.heldBy c a o) = _
    cases (c.arr a).resident.bind c.ringOwner <;> rfl
  have hexec := exec_slotTableEntryStart htime
  rw [hnow, Chip.slotPast_eq, ← hm] at hexec
  have hbegun : m.slotBegun a (s.chip.slotTime a) (some e) = if e.isOpen then c else if 2 * usUnits < late then
      (c.inc F.SCHED_SLOT_LATE_COUNT).ev (arrayHalf a) 0x0500 [a.val, e.part + 16 * b2n e.world, late / usUnits] else c.setArr a { c.arr a with awaited := c.holderReady a e && !runs } := by
    rw [hruns]
    rfl
  rw [hexec, hbegun]
  clear_value c late runs
  refine ⟨fun hopen => ?_, fun hopen hlate => ?_, fun hopen hlate => ?_⟩
  · rw [if_pos hopen]
  · rw [if_neg (Bool.eq_false_iff.1 hopen), if_pos hlate]
  · rw [if_neg (Bool.eq_false_iff.1 hopen), if_neg (Nat.not_lt.2 hlate)]

/-! ### Pre-emption -/

theorem exec_preemption {e : Engine} {by' : Fin 65536} {r : Nat} {s : State} (hres : s.chip.residentOn e = some r) (hmay : s.chip.mayPreempt e by' = true) :
    exec (.preemption e by') s = .next (s.withChip (s.chip.decideSwitch e r (s.chip.inOwnSlot e by'.val || s.chip.isRough e by'.val))) := by
  have hexec : exec (.preemption e by') s = execPreemption e by' s := rfl
  unfold execPreemption at hexec
  simp only [hres] at hexec
  exact hexec.trans ((if_pos hmay).trans (s.go_eq _))

/-- A running attention command that is to give way is stopped. -/
theorem Chip.decideSwitch_attention {c : Chip} {id : CmdId} {m : Cmd} (hm : c.cmd? id = some m) (hrun : m.stage = .running) (r : Nat) (noWait : Bool) :
    c.decideSwitch (.attention id) r noWait = (c.setSwitch (.attention id) ⟨false, 0, some true, 0⟩).setCmd { m with stage := .preempted, unit := 0 } := by
  have hsave : (c.switchOf (.attention id)).saving = none := rfl
  have hlevel : c.commandLevel (.attention id) = false := rfl
  have hahead : c.markAhead (.attention id) r = false := List.any_eq_false.2 fun m _ => by
    rw [show m.covers (.attention id) = false from rfl, Bool.and_false]
    exact Bool.false_ne_true
  have hsame : c.decideSwitch (.attention id) r noWait = c.beginSave (.attention id) true := by
    cases noWait
    · exact (Chip.decideSwitch_mark hsave hlevel rfl).trans (if_neg (Bool.eq_false_iff.1 hahead))
    · exact Chip.decideSwitch_full hsave hlevel
  have hm' : (c.setSwitch (.attention id) ⟨false, 0, some true, 0⟩).cmd? id = some m := hm
  rw [hsame]
  unfold Chip.beginSave
  rw [if_neg (show ¬ c.stopping (.attention id) = true from Bool.false_ne_true)]
  dsimp only
  rw [hm']
  exact if_pos hrun

/-- Clause 8: a running attention command gives way. -/
theorem attentionPreempted (id : CmdId) (by' : Fin 65536) (m : Cmd) (s : State) :
    s.chip.cmd? id = some m → m.stage = .running → s.chip.mayPreempt (.attention id) by' = true →
    exec (.preemption (.attention id) by') s =
      .next (s.withChip ((s.chip.setSwitch (.attention id) ⟨false, 0, some true, 0⟩).setCmd { m with stage := .preempted, unit := 0 })) := by
  intro hm hrun hmay
  rw [exec_preemption (r := id.ring.val) rfl hmay, Chip.decideSwitch_attention hm hrun]

/-- Settles O33, clause by clause. -/
theorem enginesShared : Obligations.EnginesShared :=
  ⟨markCompletes, quantumEnds, switchDecided, markWaitExpires, slotGuarded, slotEntryStarts, fun _ _ _ _ => exec_preemption, attentionPreempted⟩

end Machine

end Sys2Proof

/-! PROOF. Saves, restores and evictions of contexts (R276–R287). -/

namespace Sys2Proof

namespace Machine

/-- What a save or a restore has met: the code of an error in memory, or what the reads of the stores show. -/
def metCode (err : Option Word) (lost : Option Nat) : Option Nat := if err.isSome then err.map BitVec.toNat else lost

theorem metCode_none (lost : Option Nat) : metCode none lost = lost := rfl

section
variable {a : Fin 8} {b : Fin 32} {full : Bool} {n : Nat} {s : State}

/-! ### What the reads of a context show -/

/-- Reads of an array's store without an uncorrectable error leave its context whole. -/
theorem Chip.contextSeen_array_kept (c : Chip) (a : Fin 8) {o : StoreObs n} (base : Nat) (ho : ∀ off row, o ≠ .uncorrectable off row) : (c.contextSeen (.array a) o base).1 = none := by
  cases o with
  | clean => rfl
  | corrected off row => rfl
  | uncorrectable off row => exact absurd rfl (ho off row)

theorem Chip.contextSeen_array_lost (c : Chip) (a : Fin 8) (off : Fin n) (row : BitVec 16) (base : Nat) :
    c.contextSeen (.array a) (.uncorrectable off row : StoreObs n) base =
      (some (c.arrayLost a (base + off) none).draw.1, (c.arrayLost a (base + off) none).draw.2) := rfl

theorem Chip.contextSeen_bench_kept (c : Chip) (b : Fin 32) {o : StoreObs n} (base : Nat) (ho : ∀ off row, o ≠ .uncorrectable off row) : (c.contextSeen (.bench b) o base).1 = none := by
  cases o with
  | clean => rfl
  | corrected off row => rfl
  | uncorrectable off row => exact absurd rfl (ho off row)

/-! ### Saves -/

/-- The end of a save of an array, after the verdicts on its vectors. -/
theorem exec_arraySaved (hsave : (s.chip.switchOf (.array a)).saving = some full) (hchecks : (s.chip.arr a).checks = []) (err : Option Word) (seen : StoreObs 0xC40000) :
    exec (.contextSaveComplete (.array a) err seen) s = .next (s.withChip (match metCode err (s.chip.contextSeen (.array a) seen 0).1 with
      | some k => (((s.chip.contextSeen (.array a) seen 0).2.discardArray a k).finishGating a).retireDue a
      | none => (((s.chip.contextSeen (.array a) seen 0).2.endSave (.array a) full).contextMoved (arrayHalf a)).retireDue a)) := by
  have hready : ((s.chip.switchOf (.array a)).saving.isSome && (s.chip.arr a).checks.isEmpty) = true := by rw [hsave, hchecks]; rfl
  have hexec : exec (.contextSaveComplete (.array a) err seen) s = execContextSaveComplete (.array a) err s seen := rfl
  unfold execContextSaveComplete at hexec
  dsimp only at hexec
  rw [hready] at hexec
  simp only [if_true, hsave] at hexec
  rw [hexec]
  unfold metCode
  generalize (if err.isSome then err.map BitVec.toNat else (s.chip.contextSeen (.array a) seen 0).1) = o
  cases o <;> exact s.go_eq _

/-- Clause 1: the save of an array's context ends. -/
theorem arraySaves (a : Fin 8) (full : Bool) (k : Word) (seen : StoreObs 0xC40000) (s : State) :
    (s.chip.switchOf (.array a)).saving = some full → (s.chip.arr a).checks = [] →
    let c := (s.chip.contextSeen (.array a) seen 0).2
    ((∀ off row, seen ≠ .uncorrectable off row) → exec (.contextSaveComplete (.array a) none seen) s =
      .next (s.withChip (((((c.saveArray a full).finishGating a).savedTo (arrayHalf a) (c.q (F.ARRAY_STATUS_OWNER a))).contextMoved (arrayHalf a)).retireDue a))) ∧
    exec (.contextSaveComplete (.array a) (some k) seen) s = .next (s.withChip (((c.discardArray a k.toNat).finishGating a).retireDue a)) ∧
    (∀ off row, seen = .uncorrectable off row → let d := s.chip.arrayLost a off none
      c = d.draw.2 ∧ exec (.contextSaveComplete (.array a) none seen) s = .next (s.withChip (((c.discardArray a d.draw.1).finishGating a).retireDue a))) := by
  intro hsave hchecks c
  refine ⟨fun hseen => ?_, exec_arraySaved hsave hchecks (some k) seen, fun off row hseen => ?_⟩
  · have hexec := exec_arraySaved hsave hchecks none seen
    rw [metCode_none, Chip.contextSeen_array_kept _ _ _ hseen] at hexec
    exact hexec
  · subst hseen
    have hexec := exec_arraySaved hsave hchecks none (.uncorrectable off row)
    have hlost := s.chip.contextSeen_array_lost a off row 0
    rw [Nat.zero_add] at hlost
    have hc : c = (s.chip.arrayLost a off none).draw.2 := congrArg Prod.snd hlost
    rw [metCode_none, congrArg Prod.fst hlost] at hexec
    exact ⟨hc, hexec⟩

/-- The end of a save of a bench, after its copies but those from a peer device. -/
theorem exec_benchSaved (hsave : (s.chip.switchOf (.bench b)).saving = some full) (hcopies : ∀ y ∈ s.chip.copiesOut b, remoteCopy y = true) (err : Option Word) (seen : StoreObs 0xC40000) :
    exec (.contextSaveComplete (.bench b) err seen) s = .next (s.withChip (match metCode err (s.chip.contextSeen (.bench b) seen 0).1 with
      | some k => (((s.chip.contextSeen (.bench b) seen 0).2.discardBench b k).finishGating (8 + b)).benchDue b
      | none => (((s.chip.contextSeen (.bench b) seen 0).2.endSave (.bench b) full).contextMoved (benchHalf b)).benchDue b)) := by
  have hready : ((s.chip.switchOf (.bench b)).saving.isSome && (s.chip.copiesOut b).all remoteCopy) = true := by rw [hsave, List.all_eq_true.2 hcopies]; rfl
  have hexec : exec (.contextSaveComplete (.bench b) err seen) s = execContextSaveComplete (.bench b) err s seen := rfl
  unfold execContextSaveComplete at hexec
  dsimp only at hexec
  rw [hready] at hexec
  simp only [if_true, hsave] at hexec
  rw [hexec]
  unfold metCode
  generalize (if err.isSome then err.map BitVec.toNat else (s.chip.contextSeen (.bench b) seen 0).1) = o
  cases o <;> exact s.go_eq _

/-- Clause 2: the save of a bench's context ends. -/
theorem benchSaves (b : Fin 32) (full : Bool) (k : Word) (seen : StoreObs 0xC40000) (s : State) :
    (s.chip.switchOf (.bench b)).saving = some full → (∀ y ∈ s.chip.copiesOut b, remoteCopy y = true) →
    let c := (s.chip.contextSeen (.bench b) seen 0).2
    let o := c.q (F.BENCH_STATUS_OWNER b)
    let d := ((c.saveBench b full).finishGating (8 + b)).savedTo (benchHalf b) o
    ((∀ off row, seen ≠ .uncorrectable off row) → exec (.contextSaveComplete (.bench b) none seen) s =
      .next (s.withChip (((match (c.copiesOut b).head? with
        | some y => d.evOf (benchHalf b) 0x0502 (BitVec.ofNat 13 o) [0x100 + b, o, fabricOf (slBase y.src)]
        | none => d).contextMoved (benchHalf b)).benchDue b))) ∧
    exec (.contextSaveComplete (.bench b) (some k) seen) s = .next (s.withChip (((c.discardBench b k.toNat).finishGating (8 + b)).benchDue b)) ∧
    (∀ off row, seen = .uncorrectable off row → let u := savedLogical off
      let d := ((s.chip.inc (F.BENCH_ECC_UNCORR b)).ev (benchHalf b) 0x0211 (s.chip.benchLostAt b u.1 u.2)).benchMend b u.1 u.2 row.toNat
      exec (.contextSaveComplete (.bench b) none seen) s = .next (s.withChip (((d.draw.2.discardBench b d.draw.1).finishGating (8 + b)).benchDue b))) := by
  intro hsave hcopies c o d
  refine ⟨fun hseen => ?_, exec_benchSaved hsave hcopies (some k) seen, fun off row hseen => ?_⟩
  · have hexec := exec_benchSaved hsave hcopies none seen
    rw [metCode_none, Chip.contextSeen_bench_kept _ _ _ hseen] at hexec
    exact hexec
  · subst hseen
    exact exec_benchSaved hsave hcopies none (.uncorrectable off row)

/-- The end of a save of an attention command that gave way. -/
theorem exec_attentionSaved {id : CmdId} {m : Cmd} (hm : s.chip.cmd? id = some m) (hstage : m.stage = .preempted) (hunit : m.unit = 0) (err : Option Word) (seen : StoreObs 0xC40000) :
    exec (.contextSaveComplete (.attention id) err seen) s = .next (s.withChip (match metCode err none with
      | none => ((s.chip.setCmd { m with unit := 1 }).countPair Reg.SCHED_SAVE_FULL_LO Reg.SCHED_SAVE_FULL_HI 1).contextMoved m.half
      | some k => s.chip.discardAttn m k)) := by
  have hsave : (s.chip.switchOf (.attention id)).saving = none := rfl
  have hexec : exec (.contextSaveComplete (.attention id) err seen) s = execContextSaveComplete (.attention id) err s seen := rfl
  unfold execContextSaveComplete at hexec
  simp only [hsave, Option.isSome_none, Bool.false_and, Bool.false_eq_true, if_false, hm] at hexec
  refine (hexec.trans (if_pos ⟨hstage, hunit⟩)).trans ?_
  unfold metCode
  generalize (if err.isSome then err.map BitVec.toNat else none) = o
  cases o <;> exact s.go_eq _

/-- Clause 3: the save of an attention command ends. -/
theorem attentionSaves (id : CmdId) (m : Cmd) (k : Word) (seen : StoreObs 0xC40000) (s : State) :
    s.chip.cmd? id = some m → m.stage = .preempted → m.unit = 0 →
    exec (.contextSaveComplete (.attention id) none seen) s = .next (s.withChip
      (((s.chip.setCmd { m with unit := 1 }).countPair Reg.SCHED_SAVE_FULL_LO Reg.SCHED_SAVE_FULL_HI 1).contextMoved m.half)) ∧
    exec (.contextSaveComplete (.attention id) (some k) seen) s = .next (s.withChip (s.chip.discardAttn m k.toNat)) := fun hm hstage hunit =>
  ⟨exec_attentionSaved hm hstage hunit none seen, exec_attentionSaved hm hstage hunit (some k) seen⟩

/-! ### Restores -/

theorem exec_arrayRestored {r : Fin 65536} {x : ArrCtx} (hctx : Tbl.find? s.chip.actx r = some x) (hplace : s.chip.restorePlace a r x.owner = true) (err : Option Word) (mirror : StoreObs 0x40000) :
    exec (.contextRestoreComplete (.array a) r err mirror) s = .next (s.withChip (match metCode err ((s.chip.restoreArray a r).contextSeen (.array a) mirror 0xC00000).1 with
      | none => if x.st.jobs.isEmpty then (((s.chip.restoreArray a r).contextSeen (.array a) mirror 0xC00000).2.contextMoved (arrayHalf a))
          else (((s.chip.restoreArray a r).contextSeen (.array a) mirror 0xC00000).2.contextMoved (arrayHalf a)).slotServed a x.owner
      | some k => ((s.chip.restoreArray a r).contextSeen (.array a) mirror 0xC00000).2.discardArray a k)) := by
  have hexec : exec (.contextRestoreComplete (.array a) r err mirror) s = execContextRestoreComplete (.array a) r err s mirror := rfl
  unfold execContextRestoreComplete at hexec
  simp only [hctx] at hexec
  refine (hexec.trans (if_neg fun hn => hn hplace)).trans ?_
  unfold metCode
  generalize (if err.isSome then err.map BitVec.toNat else ((s.chip.restoreArray a r).contextSeen (.array a) mirror 0xC00000).1) = o
  cases o <;> exact s.go_eq _

/-- Clause 4: the context of an array is restored. -/
theorem arrayRestores (a : Fin 8) (r : Fin 65536) (x : ArrCtx) (k : Word) (mirror : StoreObs 0x40000) (s : State) :
    Tbl.find? s.chip.actx r = some x → s.chip.restorePlace a r x.owner = true →
    let c := ((s.chip.restoreArray a r).contextSeen (.array a) mirror 0xC00000).2
    let d := c.contextMoved (arrayHalf a)
    ((∀ off row, mirror ≠ .uncorrectable off row) →
      exec (.contextRestoreComplete (.array a) r none mirror) s = .next (s.withChip (if x.st.jobs = [] then d else d.slotServed a x.owner))) ∧
    exec (.contextRestoreComplete (.array a) r (some k) mirror) s = .next (s.withChip (c.discardArray a k.toNat)) ∧
    (∀ off row, mirror = .uncorrectable off row → let d := (s.chip.restoreArray a r).arrayLost a (0xC00000 + off) none
      exec (.contextRestoreComplete (.array a) r none mirror) s = .next (s.withChip (d.draw.2.discardArray a d.draw.1))) := by
  intro hctx hplace c d
  refine ⟨fun hmirror => ?_, exec_arrayRestored hctx hplace (some k) mirror, fun off row hmirror => ?_⟩
  · have hexec := exec_arrayRestored hctx hplace none mirror
    rw [metCode_none, Chip.contextSeen_array_kept _ _ _ hmirror] at hexec
    simp only [List.isEmpty_iff] at hexec
    exact hexec
  · subst hmirror
    exact exec_arrayRestored hctx hplace none (.uncorrectable off row)

/-- Clause 5: the context of a bench is restored. -/
theorem benchRestores (b : Fin 32) (r : Fin 65536) (x : BenchCtx) (k : Word) (mirror : StoreObs 0x40000) (s : State) :
    Tbl.find? s.chip.bctx (32 * r + b) = some x → s.chip.benchRestorable b r x.owner = true →
    exec (.contextRestoreComplete (.bench b) r none mirror) s = .next (s.withChip (((s.chip.restoreBench b r).replayLost b).contextMoved (benchHalf b))) ∧
    exec (.contextRestoreComplete (.bench b) r (some k) mirror) s = .next (s.withChip ((s.chip.restoreBench b r).discardBench b k.toNat)) := by
  intro hctx hplace
  have hexec (err : Option Word) : exec (.contextRestoreComplete (.bench b) r err mirror) s = execContextRestoreComplete (.bench b) r err s mirror := rfl
  unfold execContextRestoreComplete at hexec
  simp only [hctx] at hexec
  exact ⟨(hexec none).trans ((if_neg fun hn => hn hplace).trans (s.go_eq _)), (hexec (some k)).trans ((if_neg fun hn => hn hplace).trans (s.go_eq _))⟩

/-- Clause 6: an attention command runs again. -/
theorem attentionRestores (id : CmdId) (m : Cmd) (r : Fin 65536) (k : Word) (mirror : StoreObs 0x40000) (s : State) :
    s.chip.cmd? id = some m → m.stage = .preempted → m.unit = 1 → (m.opcode = 0x40 ∨ m.opcode = 0x41) →
    s.chip.shareOn (40 + m.half.idx) m.owner ≠ 0 → s.chip.attnOutranked m.half m = false →
    exec (.contextRestoreComplete (.attention id) r none mirror) s = .next (s.withChip ((s.chip.setCmd { m with stage := .running }).contextMoved m.half)) ∧
    exec (.contextRestoreComplete (.attention id) r (some k) mirror) s = .next (s.withChip (s.chip.discardAttn m k.toNat)) := by
  intro hm hstage hunit hop hshare hrank
  have hno : s.chip.engineNo (.attention id) = 40 + m.half.idx := by
    unfold Chip.engineNo
    dsimp only
    rw [hm]
    rfl
  have hexec (err : Option Word) : exec (.contextRestoreComplete (.attention id) r err mirror) s = execContextRestoreComplete (.attention id) r err s mirror := rfl
  unfold execContextRestoreComplete at hexec
  simp only [hm] at hexec
  have hgood : m.stage = .preempted ∧ m.unit = 1 ∧ (m.opcode = 0x40 ∨ m.opcode = 0x41) ∧ s.chip.shareOn (s.chip.engineNo (.attention id)) m.owner ≠ 0 ∧ ¬ s.chip.attnOutranked m.half m = true :=
    ⟨hstage, hunit, hop, hno.symm ▸ hshare, Bool.eq_false_iff.1 hrank⟩
  exact ⟨(hexec none).trans ((if_pos hgood).trans (s.go_eq _)), (hexec (some k)).trans ((if_pos hgood).trans (s.go_eq _))⟩

end

/-! ### Evictions -/

/-- The context on an engine may be evicted for a command of a ring. -/
def Chip.openTo (c : Chip) (by' : Fin 65536) (into : Fin 256) (began : List (Engine × Fin 256)) (m : Cmd) (x : Engine) : Bool :=
  (c.residentOn x).any fun q =>
    c.wants x m && decide (c.ringRank by' ≤ c.rankOn x) && decide (swapTenths x * usUnits < c.blockedFor x into began * 10) && !c.isRough x q && !c.inOwnSlot x q

/-- The owner of the context on an engine, for the order of evictions. -/
def Chip.ownerOn (c : Chip) (x : Engine) : Nat := (((c.residentOn x).bind c.ringOwner).map BitVec.toNat).getD 0

/-- The context on an engine comes before that on another for eviction. -/
def Chip.evictedFirst (c : Chip) (into : Fin 256) (began : List (Engine × Fin 256)) (e x : Engine) : Bool :=
  decide (c.rankOn x < c.rankOn e ∨ (c.rankOn x = c.rankOn e ∧
    (c.blockedFor x into began < c.blockedFor e into began ∨ (c.blockedFor x into began = c.blockedFor e into began ∧ c.ownerOn e ≤ c.ownerOn x))))

/-- The half and the number of an engine, as the event of an eviction names it. -/
def evictedNo : Engine → Half × Nat
  | .array a => (arrayHalf a, a.val)
  | .bench b => (benchHalf b, 0x100 + b.val)
  | .attention i => (ringHalf i.ring, 0x200 + (ringHalf i.ring).idx)

theorem exec_evict_due {e : Engine} {by' : Fin 65536} {into : Fin 256} {began : List (Engine × Fin 256)} {r : Nat} {o : Owner} {m : Cmd} {s : State}
    (hres : s.chip.residentOn e = some r) (ho : s.chip.ringOwner r = some o) (hm : (s.chip.cmds.find? fun m => m.id.ring.val == by'.val && s.chip.wants e m) = some m)
    (hblocked : ∀ x ∈ s.chip.kindOf e m, match s.chip.residentOn x with | some q => s.chip.blocked x q = true | none => s.chip.wants x m = false)
    (hopen : s.chip.openTo by' into began m e = true) (hsave : (s.chip.switchOf e).saving = none)
    (hfirst : ∀ x ∈ s.chip.kindOf e m, s.chip.openTo by' into began m x = true → s.chip.evictedFirst into began e x = true) :
    exec (.evict e by' into began) s = .next (s.withChip (((s.chip.beginSave e (!s.chip.commandLevel e)).inc F.SCHED_EVICT_CNT_COUNT).evOf (evictedNo e).1 0x0501 o
      [(evictedNo e).2, o.toNat, m.owner.toNat, s.chip.blockedFor e into began / usUnits])) := by
  have hexec : exec (.evict e by' into began) s = execEvict e by' into s began := rfl
  unfold execEvict at hexec
  have hcand (x : Engine) : (match s.chip.residentOn x with
      | some q => s.chip.wants x m && decide (s.chip.ringRank by'.val ≤ s.chip.rankOn x) && decide (swapTenths x * usUnits < s.chip.blockedFor x into.val began * 10) &&
          !s.chip.isRough x q && !s.chip.inOwnSlot x q
      | none => false) = s.chip.openTo by' into began m x := by
    unfold Chip.openTo
    cases s.chip.residentOn x <;> rfl
  have hall : ∀ x ∈ s.chip.kindOf e m, (match s.chip.residentOn x with | some q => s.chip.blocked x q | none => !s.chip.wants x m) = true := fun x hx => by
    have hx' := hblocked x hx
    cases hq : s.chip.residentOn x with
    | none =>
      rw [hq] at hx'
      exact congrArg (fun v => !v) hx'
    | some q =>
      rw [hq] at hx'
      exact hx'
  have hbefore : ∀ x ∈ s.chip.kindOf e m, (!s.chip.openTo by' into began m x || s.chip.evictedFirst into began e x) = true := fun x hx => by
    cases hx' : s.chip.openTo by' into began m x
    · rfl
    · exact hfirst x hx hx'
  have hcand' := hopen
  unfold Chip.openTo at hcand'
  rw [hres] at hcand'
  simp only [hres, hm] at hexec
  refine (hexec.trans (if_pos ⟨List.all_eq_true.2 hall, hcand', List.all_eq_true.2 fun x hx => ?_, by rw [hsave]; rfl⟩)).trans ?_
  · rw [ho]
    cases e <;> exact s.go_eq _
  · have hx' := hbefore x hx
    rw [← hcand] at hx'
    unfold Chip.evictedFirst Chip.ownerOn at hx'
    rw [hres] at hx'
    exact hx'

/-- Clause 7: a blocked context is evicted. -/
theorem contextEvicted (e : Engine) (by' : Fin 65536) (into : Fin 256) (began : List (Engine × Fin 256)) (r : Nat) (o : Owner) (m : Cmd) (s : State) :
    let c := s.chip
    let kind := c.kindOf e m
    let since (x : Engine) : Nat := c.blockedFor x into began
    let owner (x : Engine) : Nat := (((c.residentOn x).bind c.ringOwner).map BitVec.toNat).getD 0
    let open' (x : Engine) : Bool := (c.residentOn x).any fun q =>
      c.wants x m && decide (c.ringRank by' ≤ c.rankOn x) && decide (swapTenths x * usUnits < since x * 10) && !c.isRough x q && !c.inOwnSlot x q
    c.residentOn e = some r → c.ringOwner r = some o → (c.cmds.find? fun m => m.id.ring.val == by'.val && c.wants e m) = some m →
    (∀ x ∈ kind, match c.residentOn x with | some q => c.blocked x q = true | none => c.wants x m = false) →
    open' e = true → (c.switchOf e).saving = none →
    (∀ x ∈ kind, open' x = true → c.rankOn x < c.rankOn e ∨ (c.rankOn x = c.rankOn e ∧
      (since x < since e ∨ (since x = since e ∧ owner e ≤ owner x)))) →
    let (h, n) := match e with
      | .array a => (arrayHalf a, a.val)
      | .bench b => (benchHalf b, 0x100 + b.val)
      | .attention i => (ringHalf i.ring, 0x200 + (ringHalf i.ring).idx)
    exec (.evict e by' into began) s = .next (s.withChip (((c.beginSave e (!c.commandLevel e)).inc F.SCHED_EVICT_CNT_COUNT).evOf h 0x0501 o
      [n, o.toNat, m.owner.toNat, since e / usUnits])) := by
  intro c kind since owner open' hres ho hm hblocked hopen hsave hfirst
  have hexec := exec_evict_due hres ho hm hblocked hopen hsave fun x hx hx' => decide_eq_true (hfirst x hx hx')
  cases e <;> exact hexec

/-- Settles O34, clause by clause. -/
theorem contextsMoved : Obligations.ContextsMoved :=
  ⟨arraySaves, benchSaves, attentionSaves, arrayRestores, benchRestores, attentionRestores, contextEvicted⟩

end Machine

end Sys2Proof

/-! PROOF. Comparison, diagnosis and golden blanks (R320–R327). -/

namespace Sys2Proof

namespace Machine

/-- An array's state is no part of what an event writes. -/
theorem eventPart_arr (a : Nat) : EventPart fun c : Chip => c.arr a := fun _ _ _ _ _ _ _ _ _ _ _ _ => rfl

theorem Chip.arr_put (c : Chip) (f : RF) (v a : Nat) : (c.put f v).arr a = c.arr a := rfl
theorem Chip.arr_countPair (c : Chip) (lo hi n a : Nat) : (c.countPair lo hi n).arr a = c.arr a := by
  obtain ⟨x, hx⟩ := c.countPair_regs lo hi n
  rw [hx]
  rfl
theorem Chip.arr_setCmd (c : Chip) (m : Cmd) (a : Nat) : (c.setCmd m).arr a = c.arr a := rfl

/-! ### Comparison -/

section
variable {c : Chip} {a : Nat} {k : Check} {m : Cmd}

theorem Chip.compareNext_compared {rest : List Check} (hx : (c.arr a).checks = k :: rest) (hm : c.cmd? k.id = some m) (hc : c.compared (arrayHalf a) m = true) (err : FV) :
    c.compareNext a err = match k.verdict err with
      | .unchecked => (c.setArr a { c.arr a with checks := rest }).uncheckedVec a k m
      | .passes => (c.setArr a { c.arr a with checks := rest }).countPair (Reg.CALLIPER_CHECKED_LO (arrayHalf a).idx) (Reg.CALLIPER_CHECKED_HI (arrayHalf a).idx) 1
      | .fails => ((c.setArr a { c.arr a with checks := rest }).countPair (Reg.CALLIPER_CHECKED_LO (arrayHalf a).idx) (Reg.CALLIPER_CHECKED_HI (arrayHalf a).idx) 1).mismatch a k m := by
  have hm' : (c.setArr a { c.arr a with checks := rest }).cmd? k.id = some m := hm
  have hc' : (c.setArr a { c.arr a with checks := rest }).compared (arrayHalf a) m = true := hc
  unfold Chip.compareNext
  simp only [hx, hm']
  refine (if_neg fun hn => hn hc').trans ?_
  cases k.verdict err <;> rfl

/-- What a mismatch leaves of the array: the vector is captured if none is and it is the command's first. -/
theorem Chip.arr_mismatch (c : Chip) (a : Nat) (k : Check) (m : Cmd) : (c.mismatch a k m).arr a = { c.arr a with
    jobs := (c.arr a).jobs.map fun j => if j.id = m.id then { j with mism := true } else j
    diag := if (c.arr a).diag.isSome ∨ ((c.arr a).jobs.any fun j => j.id == m.id && j.mism) = true then (c.arr a).diag
      else some ⟨m.id, k.vec, k.inp, m.fmtA, m.fmtB, k.tile, false, none⟩ } := by
  unfold Chip.mismatch
  extract_lets +onlyGivenNames h x d e again y
  have he : y = c.arr a := ((eventPart_arr a).evCmd d h 0x0700 m _).trans ((Chip.arr_setCmd _ _ a).trans (Chip.arr_put c _ _ a))
  clear_value y
  subst he
  exact Chip.arr_setArr _ _ _

end

/-- Clause 1: the oldest check values of an array are compared. -/
theorem checksCompared (a : Fin 8) (err : FV) (k : Check) (rest : List Check) (m : Cmd) (s : State) :
    let x := s.chip.arr a
    let c := s.chip.setArr a { x with checks := rest }
    let counted := c.countPair (Reg.CALLIPER_CHECKED_LO (arrayHalf a).idx) (Reg.CALLIPER_CHECKED_HI (arrayHalf a).idx) 1
    x.checks = k :: rest → s.chip.cmd? k.id = some m → s.chip.compared (arrayHalf a) m = true →
    (k.verdict err = .passes → exec (.calliperComparison a err) s = .next (s.withChip counted)) ∧
    (k.verdict err = .unchecked → exec (.calliperComparison a err) s = .next (s.withChip (c.uncheckedVec a k m))) ∧
    (k.verdict err = .fails → ∃ t, exec (.calliperComparison a err) s = .next (s.withChip t) ∧ t = counted.mismatch a k m ∧
      (t.arr a).diag = (if x.diag.isSome ∨ (∃ j ∈ x.jobs, j.id = m.id ∧ j.mism = true) then x.diag
        else some ⟨m.id, k.vec, k.inp, m.fmtA, m.fmtB, k.tile, false, none⟩) ∧ (t.arr a).checks = rest) := by
  intro x c counted hx hm hc
  have hexec : exec (.calliperComparison a err) s = .next (s.withChip (s.chip.compareNext a err)) := s.go_eq _
  rw [Chip.compareNext_compared hx hm hc] at hexec
  have harr : counted.arr a = { x with checks := rest } := (Chip.arr_countPair _ _ _ _ _).trans (Chip.arr_setArr _ _ _)
  refine ⟨fun hv => ?_, fun hv => ?_, fun hv => ⟨counted.mismatch a k m, ?_, rfl, ?_, ?_⟩⟩
  · rw [hv] at hexec
    exact hexec
  · rw [hv] at hexec
    exact hexec
  · rw [hv] at hexec
    exact hexec
  · rw [Chip.arr_mismatch, harr]
    simp only [List.any_eq_true, Bool.and_eq_true, beq_iff_eq]
  · rw [Chip.arr_mismatch, harr]

/-! ### Diagnosis -/

/-- Clause 2: a captured mismatch is rerun, and its verdict acted on. -/
theorem mismatchDiagnosed (a : Fin 8) (d : Diag) (o : DiagObs) (s : State) :
    (s.chip.arr a).diag = some d →
    (d.running = false → exec (.diagnosis a) s = .next (s.withChip
      ((s.chip.setArr a { s.chip.arr a with diag := some { d with running := true, other := s.chip.diagArray a } }).put
        (F.CALLIPER_STATUS_DIAG_BUSY (arrayHalf a).idx) 1))) ∧
    (d.running = true →
      let c := (s.chip.setArr a { s.chip.arr a with diag := none }).actOn a d.other (verdict d.other.isSome o)
      exec (.diagnosisVerdict a o) s = .next (s.withChip (c.put (F.CALLIPER_STATUS_DIAG_BUSY (arrayHalf a).idx)
        (b2n ((List.range 8).any fun b => arrayHalf b == arrayHalf a && match (c.arr b).diag with | some e => e.running | none => false)))) ∧
      (d.other ≠ none → o.rerun = .passes → o.other = .passes → verdict d.other.isSome o = .transient) ∧
      (∀ j, d.other ≠ none → o.rerun = .fails → o.other = .passes → o.cols = [j] → verdict d.other.isSome o = .lastingCol j) ∧
      (o.rerun = .unchecked → verdict d.other.isSome o = .undecided)) := by
  intro hd
  refine ⟨fun hrun => ?_, fun hrun => ⟨?_, fun hother hrerun hpass => ?_, fun j hother hrerun hpass hcols => ?_, fun hrerun => ?_⟩⟩
  · have hexec : exec (.diagnosis a) s = execDiagnosis a s := rfl
    unfold execDiagnosis at hexec
    simp only [hd] at hexec
    exact hexec.trans ((if_neg (Bool.eq_false_iff.1 hrun)).trans (s.go_eq _))
  · have hexec : exec (.diagnosisVerdict a o) s = execDiagnosisVerdict a o s := rfl
    unfold execDiagnosisVerdict at hexec
    simp only [hd] at hexec
    exact hexec.trans ((if_pos hrun).trans (s.go_eq _))
  · unfold verdict
    rw [Option.isSome_iff_ne_none.2 hother, hrerun, hpass]
    rfl
  · unfold verdict
    rw [Option.isSome_iff_ne_none.2 hother, hrerun, hpass, hcols]
    rfl
  · unfold verdict
    rw [hrerun]
    cases d.other.isSome <;> rfl

/-- Clause 3: a lasting fault with a spare free queues its line. -/
theorem faultPlaced (a : Fin 8) (j : Nat) (c : Chip) : c.lineLeft a false = true →
    ((c.placeFault a false j 1).arr a).remaps = (c.arr a).remaps ++ [⟨false, j, none⟩] ∧ ((c.placeFault a false j 1).arr a).transients = [] := by
  intro hleft
  have harr : (c.placeFault a false j 1).arr a = { c.arr a with remaps := (c.arr a).remaps ++ [⟨false, j, none⟩], transients := [] } := by
    unfold Chip.placeFault
    rw [if_pos hleft]
    exact (Chip.arr_put _ _ _ _).trans (Chip.arr_setArr _ _ _)
  rw [harr]
  exact ⟨rfl, rfl⟩

/-! ### The frame clock -/

section
variable {c d : Chip} {h : Half}

/-- Whether an array is in service is written in its control and status and in the power blocks. -/
theorem Chip.arrayInService_of_reg (a : Nat) (hr : ∀ x, x < 0x800000 ∨ powerPage x → d.reg x = c.reg x) (ha : a < 8) : d.arrayInService a = c.arrayInService a := by
  have hhalf := idx_le (claimHalf a)
  have hctl : d.q (F.ARRAY_CTL_ENABLE a) = c.q (F.ARRAY_CTL_ENABLE a) := congrArg (fun v => bits v _ _) (hr (Reg.ARRAY_CTL a) (.inl (by unfold Reg.ARRAY_CTL; omega)))
  have hret : d.q (F.ARRAY_STATUS_RETIRED a) = c.q (F.ARRAY_STATUS_RETIRED a) := congrArg (fun v => bits v _ _) (hr (Reg.ARRAY_STATUS a) (.inl (by unfold Reg.ARRAY_STATUS; omega)))
  have hunit : d.unitState a = c.unitState a := by
    rw [Chip.unitState_eq, Chip.unitState_eq]
    exact congrArg (fun v => bits v _ _) (hr _ (.inr (unitField_page (by omega))))
  have hawake : d.q (F.POWER_STATUS_STATE (claimHalf a).idx) = c.q (F.POWER_STATUS_STATE (claimHalf a).idx) := congrArg (fun v => bits v _ _) (hr _ (.inr (powerPage_status _)))
  unfold Chip.arrayInService Chip.unitOn Chip.awake Chip.on
  rw [hctl, hret, hunit, hawake]

theorem Chip.inService_raise (c : Chip) (e : Event) {a : Nat} (ha : a < 8) : (c.raise e).arrayInService a = c.arrayInService a :=
  Chip.arrayInService_of_reg a (fun x hx => c.reg_raise e (by
    rcases hx with hx | hx
    · unfold eventReg Reg.WEAR_LOG_CNT
      omega
    · exact hx.quiet)) ha

/-- A field of the Calliper's registers of an array. -/
theorem calliperStat (h : Half) (j : Nat) (hj : j < 4) : ¬ (Reg.CALLIPER_ARR_STAT h.idx j < 0x800000 ∨ powerPage (Reg.CALLIPER_ARR_STAT h.idx j)) := by
  have := idx_le h
  unfold Reg.CALLIPER_ARR_STAT powerPage
  omega

theorem Chip.inService_putStat (c : Chip) (h : Half) {j a : Nat} (hj : j < 4) (lo wid v : Nat) (ha : a < 8) :
    (c.put ⟨Reg.CALLIPER_ARR_STAT h.idx j, lo, wid⟩ v).arrayInService a = c.arrayInService a :=
  Chip.arrayInService_of_reg a (fun x hx => Chip.reg_setReg_ne _ _ fun hn => calliperStat h j hj ((show x = Reg.CALLIPER_ARR_STAT h.idx j from hn) ▸ hx)) ha

/-- What the start of a frame on an array leaves. -/
theorem Chip.frameArray_keeps {γ : Type} {g : Chip → γ} (hr : ∀ (c : Chip) e, g (c.raise e) = g c) (hput : ∀ (c : Chip) j lo wid v, j < 4 → g (c.put ⟨Reg.CALLIPER_ARR_STAT h.idx j, lo, wid⟩ v) = g c)
    {a : Nat} (ha : ∀ (c : Chip) x, g (c.setArr a x) = g c) (c : Chip) (f : Nat) : g (c.frameArray h a f) = g c := by
  have hj : a % 4 < 4 := Nat.mod_lt _ (by decide)
  unfold Chip.frameArray
  dsimp only
  refine ite_keeps (ha _ _) ?_
  exact (hput _ _ _ _ _ hj).trans ((ha _ _).trans ((ite_keeps (hr _ _) rfl).trans (hput _ _ _ _ _ hj)))

theorem Chip.owed_frameArray (c : Chip) (h : Half) (a f : Nat) : ((c.frameArray h a f).arr a).owed = c.arrayInService a := by
  unfold Chip.frameArray
  dsimp only
  split
  · next hoff =>
      rw [Chip.arr_setArr]
      exact (Bool.not_eq_true _ ▸ hoff : c.arrayInService a = false).symm
  · next hon =>
      rw [Chip.arr_put, Chip.arr_setArr]
      exact (not_not.1 hon).symm

/-- The frame begins on each array of a list once. -/
theorem Chip.framesBegun (h : Half) (f : Nat) (l : List Nat) (hl : l.Nodup) (h8 : ∀ a ∈ l, a < 8) (c : Chip) :
    (∀ a ∈ l, ((l.foldl (fun c a => c.frameArray h a f) c).arr a).owed = c.arrayInService a) ∧ ∀ a, a ∉ l → (l.foldl (fun c a => c.frameArray h a f) c).arr a = c.arr a := by
  induction l generalizing c with
  | nil => exact ⟨fun a ha => absurd ha List.not_mem_nil, fun _ _ => rfl⟩
  | cons b l ih =>
    obtain ⟨hb, hl⟩ := List.nodup_cons.1 hl
    obtain ⟨hin, hout⟩ := ih hl (fun a ha => h8 a (List.mem_cons_of_mem _ ha)) (c.frameArray h b f)
    refine ⟨fun a ha => ?_, fun a ha => ?_⟩
    · rcases List.mem_cons.1 ha with rfl | ha
      · exact (congrArg ArrSt.owed (hout a hb)).trans (c.owed_frameArray h a f)
      · refine (hin a ha).trans ?_
        have ha8 := h8 a (List.mem_cons_of_mem _ ha)
        exact Chip.frameArray_keeps (g := fun y : Chip => y.arrayInService a) (fun c e => c.inService_raise e ha8) (fun c j lo wid v hj => c.inService_putStat h hj lo wid v ha8) (fun _ _ => rfl) c f
    · refine (hout a fun hn => ha (List.mem_cons_of_mem _ hn)).trans ?_
      have hne : a ≠ b := fun hn => ha (hn ▸ List.mem_cons_self)
      exact Chip.frameArray_keeps (g := fun y : Chip => y.arr a) (eventPart_arr a).raise (fun c _ _ _ v _ => c.arr_put _ v a) (fun c x => c.arr_setArr_ne x hne) c f

/-- Clause 4: the time of a new frame has come. -/
theorem frameStarts (h : Half) (s : State) :
    let f := s.chip.frameNow h
    s.chip.timeReady h = true → (∀ g, s.chip.frames.get h = some g → g < f) →
    ∃ t, exec (.frameStart h) s = .next (s.withChip t) ∧ t.frames.get h = some f ∧ t.reg (Reg.CALLIPER_FRAME_NO h.idx) = f % 2 ^ 32 ∧
      ∀ a : Fin 8, arrayHalf a = h → (t.arr a).owed = s.chip.arrayInService a := by
  intro f htime hnew
  have hexec : exec (.frameStart h) s = .next (s.withChip (((List.range 8).filter fun a => arrayHalf a == h).foldl (fun c a => c.frameArray h a f)
      (Chip.setReg { s.chip with frames := s.chip.frames.set h (some f) } (Reg.CALLIPER_FRAME_NO h.idx) (f % 2 ^ 32)))) := by
    have hexec : exec (.frameStart h) s = execFrameStart h s := rfl
    unfold execFrameStart at hexec
    refine hexec.trans ((if_neg fun hn => hn htime).trans ((if_neg fun hold => ?_).trans (s.go_eq _)))
    cases hg : s.chip.frames.get h with
    | none =>
      rw [hg] at hold
      exact Bool.false_ne_true hold
    | some g =>
      rw [hg] at hold
      exact absurd (hnew g hg) (Nat.not_lt.2 (of_decide_eq_true hold))
  have hreg := Chip.reg_setReg_same { s.chip with frames := s.chip.frames.set h (some f) } (Reg.CALLIPER_FRAME_NO h.idx) (f % 2 ^ 32)
  have hframes : (Chip.setReg { s.chip with frames := s.chip.frames.set h (some f) } (Reg.CALLIPER_FRAME_NO h.idx) (f % 2 ^ 32)).frames.get h = some f := Pair.get_set_same _ _ _
  have hservice (a : Fin 8) : (Chip.setReg { s.chip with frames := s.chip.frames.set h (some f) } (Reg.CALLIPER_FRAME_NO h.idx) (f % 2 ^ 32)).arrayInService a = s.chip.arrayInService a :=
    Chip.arrayInService_of_reg (c := s.chip) a (fun x hx => (Chip.reg_setReg_ne { s.chip with frames := s.chip.frames.set h (some f) } _ (by
      have := idx_le h
      unfold powerPage at hx
      unfold Reg.CALLIPER_FRAME_NO
      omega)).trans rfl) a.isLt
  generalize Chip.setReg { s.chip with frames := s.chip.frames.set h (some f) } (Reg.CALLIPER_FRAME_NO h.idx) (f % 2 ^ 32) = d at hexec hreg hframes hservice
  have hkept {γ : Type} {g : Chip → γ} (hr : ∀ (c : Chip) e, g (c.raise e) = g c) (hput : ∀ (c : Chip) j lo wid v, j < 4 → g (c.put ⟨Reg.CALLIPER_ARR_STAT h.idx j, lo, wid⟩ v) = g c)
      (ha : ∀ (c : Chip) a x, g (c.setArr a x) = g c) : g (((List.range 8).filter fun a => arrayHalf a == h).foldl (fun c a => c.frameArray h a f) d) = g d :=
    foldl_keeps g _ (fun c a => Chip.frameArray_keeps hr hput (fun c x => ha c a x) c f) _ _
  have hframesPart : EventPart Chip.frames := fun _ _ _ _ _ _ _ _ _ _ _ _ => rfl
  refine ⟨_, hexec, ?_, ?_, fun a ha => ?_⟩
  · exact (congrArg (fun p => p.get h) (hkept hframesPart.raise (fun c _ _ _ v _ => hframesPart.put c _ v) fun _ _ _ => rfl)).trans hframes
  · refine (hkept (g := fun y : Chip => y.reg (Reg.CALLIPER_FRAME_NO h.idx)) (fun c e => c.reg_raise e ?_) (fun c j lo wid v _ => Chip.reg_setReg_ne _ _ ?_) fun _ _ _ => rfl).trans ?_
    · have := idx_le h
      unfold eventReg Reg.CALLIPER_FRAME_NO Reg.WEAR_LOG_CNT
      omega
    · show Reg.CALLIPER_FRAME_NO h.idx ≠ Reg.CALLIPER_ARR_STAT h.idx j
      unfold Reg.CALLIPER_FRAME_NO Reg.CALLIPER_ARR_STAT
      omega
    · rw [hreg, Nat.mod_mod]
  · have hin := (Chip.framesBegun h f ((List.range 8).filter fun a => arrayHalf a == h) ((List.nodup_range).filter _) (fun a ha => List.mem_range.1 (List.mem_filter.1 ha).1) d).1 a
      (List.mem_filter.2 ⟨List.mem_range.2 a.isLt, beq_iff_eq.2 ha⟩)
    exact hin.trans (hservice a)

end

/-! ### Golden blanks -/

/-- A part of the chip that the retirement of an array and the move of a line to a spare do not reach. -/
structure BlankPart {γ : Type} (f : Chip → γ) (a : Nat) : Prop where
  event : EventPart f
  rough (c : Chip) (y : Pair (Option Nat)) : f { c with roughMoved := y } = f c
  retiring (c : Chip) (k : Option Nat) : f (c.setArr a { c.arr a with retiring := k }) = f c
  sw (c : Chip) (w : Switch) : f (c.setArr a { c.arr a with sw := w }) = f c

theorem EventPart.spareTaken {γ : Type} {f : Chip → γ} (h : EventPart f) (c : Chip) (k : Half) (kind unit spare used : Nat) : f (c.spareTaken k kind unit spare used) = f c := by
  unfold Chip.spareTaken
  extract_lets +onlyGivenNames d e g
  have hd : f d = f c := (h.ev _ _ _ _).trans (h.inc _ _)
  have he : f e = f d := h.ledger _ _ _ _ _
  have hg : f g = f e := by
    show f (match usedUpCause kind with | some k' => if perUnit kind ≤ used then e.wearCause k k' else e | none => e) = f e
    split
    · exact ite_keeps (h.wearCause _ _ _) rfl
    · rfl
  exact (ite_keeps (h.wearCause _ _ _) rfl).trans (hg.trans (he.trans hd))

namespace BlankPart

variable {γ : Type} {f : Chip → γ} {a : Nat} (h : BlankPart f a)
include h

theorem retireArray (c : Chip) (cause : Nat) : f (c.retireArray a cause) = f c := by
  unfold Chip.retireArray
  refine ite_keeps rfl ?_
  extract_lets +onlyGivenNames y d e g x
  have hd : f d = f c := h.retiring _ _
  have he : f e = f d := (h.event.ev _ _ _ _).trans ((h.event.put _ _ _).trans (h.event.put _ _ _))
  have hmove (c : Chip) : f (c.moveRough a) = f c := by
    unfold Chip.moveRough
    split
    · exact ite_keeps (h.rough _ _) rfl
    · rfl
  have hg : f g = f e := (hmove _).trans (h.event.unitRetired _ _ _ _ _)
  exact (ite_keeps ((h.event.put _ _ _).trans (h.sw _ _)) rfl).trans (hg.trans (he.trans hd))

theorem retireDue (c : Chip) : f (c.retireDue a) = f c := by
  unfold Chip.retireDue
  split
  · exact ite_keeps (h.retireArray _ _) rfl
  · rfl

theorem calliperRetire (c : Chip) (cause : Nat) : f (c.calliperRetire a cause) = f c := by
  unfold Chip.calliperRetire
  exact ite_keeps rfl ((h.retireDue _).trans ((h.retiring _ _).trans ((h.event.ev _ _ _ _).trans (h.event.put _ _ _))))

theorem remapLine (c : Chip) (isRow : Bool) (line : Nat) : f (c.remapLine a isRow line) = f c := by
  have hdec (c : Chip) (x : RF) : f (c.dec x) = f c := h.event.setReg _ _ _
  unfold Chip.remapLine
  dsimp only
  refine ite_keeps ?_ ?_
  · split
    · exact h.retireArray _ _
    · exact (ite_keeps (h.event.ev _ _ _ _) rfl).trans ((h.event.spareTaken _ _ _ _ _ _).trans ((h.event.ev _ _ _ _).trans ((hdec _ _).trans (h.event.setReg _ _ _))))
  · split
    · exact h.retireArray _ _
    · exact (ite_keeps (h.event.ev _ _ _ _) rfl).trans ((h.event.spareTaken _ _ _ _ _ _).trans ((h.event.ev _ _ _ _).trans ((hdec _ _).trans (h.event.setReg _ _ _))))

theorem blankFailed (c : Chip) (line : Nat) : f (c.blankFailed a line) = f c := (h.event.ev _ _ _ _).trans (h.event.inc _ _)

theorem remapDone (c : Chip) (r : Remap) : f (c.remapDone a r .clean) = f c := by
  have hmoved : f ((c.remapLine a r.isRow r.line).rebuildTiles a .clean) = f c := h.remapLine _ _ _
  unfold Chip.remapDone
  dsimp only
  split
  · exact (h.event.setReg _ _ _).trans ((h.event.inc _ _).trans hmoved)
  · exact (h.calliperRetire _ _).trans ((h.blankFailed _ _).trans ((h.event.inc _ _).trans hmoved))
  · exact hmoved

end BlankPart

theorem blankPart_owed (a : Nat) : BlankPart (fun c : Chip => (c.arr a).owed) a where
  event _ _ _ _ _ _ _ _ _ _ _ _ := rfl
  rough _ _ := rfl
  retiring c k := by
    have hset := c.arr_setArr a { c.arr a with retiring := k }
    exact (congrArg ArrSt.owed hset).trans rfl
  sw c w := by
    have hset := c.arr_setArr a { c.arr a with sw := w }
    exact (congrArg ArrSt.owed hset).trans rfl

section
variable {a : Fin 8} {s : State}

theorem exec_goldenBlank_due (howed : (s.chip.arr a).owed = true) (hin : s.chip.arrayInService a = true) (hdue : (s.chip.arr a).forced = true ∨ s.chip.arrayIdle a = true)
    (o : Blank) (e : StoreObs 0x40000) : exec (.goldenBlank a o e) s = .next (s.withChip ((s.chip.blank a o).rebuildTiles a e)) := by
  have hexec : exec (.goldenBlank a o e) s = execGoldenBlank a o s e := rfl
  unfold execGoldenBlank at hexec
  exact hexec.trans ((if_pos ⟨howed, hin, hdue⟩).trans (s.go_eq _))

/-- The chip after a blank begins on an array. -/
def Chip.blankRun (c : Chip) (a : Fin 8) : Chip :=
  ((c.setArr a { c.arr a with owed := false, forced := false }).put (F.CALLIPER_ARR_STAT_DEFERRED (arrayHalf a).idx (a % 4)) 0).inc (F.CALLIPER_BLANK_RUN_COUNT (arrayHalf a).idx)

/-- The chip after a forced blank is told of, with its delay. -/
def Chip.blankTold (c : Chip) (a : Fin 8) : Chip :=
  let told (p : Nat × Chip) : Chip := (p.2.inc (F.CALLIPER_BLANK_FORCED_COUNT (arrayHalf a).idx)).ev (arrayHalf a) 0x0709 [a.val, p.1]
  if (c.arr a).forced then told (if c.noReady a then (0, c.blankRun a) else (c.blankRun a).draw) else c.blankRun a

theorem Chip.blank_eq (c : Chip) (a : Fin 8) (o : Blank) : c.blank a o = match o with
    | .equal => (c.blankTold a).blankPassed a
    | .line isRow n again line =>
      if ¬ ((c.blankTold a).blankFailed a (n + 2 ^ 16 * b2n isRow)).lineLeft a isRow then ((c.blankTold a).blankFailed a (n + 2 ^ 16 * b2n isRow)).calliperRetire a 3
      else if (c.arr a).jobs.isEmpty then ((c.blankTold a).blankFailed a (n + 2 ^ 16 * b2n isRow)).remapDone a ⟨isRow, n, some (again, line)⟩ .clean
      else ((c.blankTold a).blankFailed a (n + 2 ^ 16 * b2n isRow)).setArr a { ((c.blankTold a).blankFailed a (n + 2 ^ 16 * b2n isRow)).arr a with
        remaps := (((c.blankTold a).blankFailed a (n + 2 ^ 16 * b2n isRow)).arr a).remaps ++ [⟨isRow, n, some (again, line)⟩] }
    | .scattered => ((c.blankTold a).blankFailed a 0xFFFFFFFF).calliperRetire a 3 := by
  cases o <;> rfl

theorem Chip.owed_blankRun (c : Chip) (a : Fin 8) : ((c.blankRun a).arr a).owed = false := by
  have hset := congrArg ArrSt.owed (c.arr_setArr a { c.arr a with owed := false, forced := false })
  exact ((blankPart_owed a).event.inc _ _).trans (((blankPart_owed a).event.put _ _ _).trans hset)

theorem Chip.owed_draw (c : Chip) (a : Fin 8) : (c.draw.2.arr a).owed = (c.arr a).owed := rfl

theorem Chip.owed_blankTold (c : Chip) (a : Fin 8) : ((c.blankTold a).arr a).owed = false := by
  have hrun := c.owed_blankRun a
  unfold Chip.blankTold
  generalize c.blankRun a = d at hrun
  dsimp only
  split
  · refine (((blankPart_owed a).event.ev _ _ _ _).trans ((blankPart_owed a).event.inc _ _)).trans ?_
    split
    · exact hrun
    · exact (d.owed_draw a).trans hrun
  · exact hrun

end

/-- Clause 5: a golden blank. -/
theorem blankRuns (a : Fin 8) (o : Blank) (e : StoreObs 0x40000) (s : State) :
    (s.chip.arr a).owed = true → s.chip.arrayInService a = true → ((s.chip.arr a).forced = true ∨ s.chip.arrayIdle a = true) →
    let x := s.chip.arr a
    let h := arrayHalf a
    let c := ((s.chip.setArr a { x with owed := false, forced := false }).put (F.CALLIPER_ARR_STAT_DEFERRED h.idx (a % 4)) 0).inc (F.CALLIPER_BLANK_RUN_COUNT h.idx)
    let told (p : Nat × Chip) : Chip := (p.2.inc (F.CALLIPER_BLANK_FORCED_COUNT h.idx)).ev h 0x0709 [a.val, p.1]
    let b := if x.forced then told (if s.chip.noReady a then (0, c) else c.draw) else c
    let f := (b.frames.get h).getD 0
    let failed (k : Nat) : Chip := (b.inc (F.CALLIPER_BLANK_FAIL_COUNT h.idx)).ev h 0x070A [a.val, f % 2, k]
    ∃ t, exec (.goldenBlank a o e) s = .next (s.withChip (Chip.rebuildTiles t a e)) ∧ (t.arr a).owed = false ∧ (match o with
      | .equal => t = b.setReg (Reg.CALLIPER_ARR_BLANK h.idx (a % 4)) (f % 2 ^ 32)
      | .scattered => t = (failed 0xFFFFFFFF).calliperRetire a 3
      | .line isRow n again line =>
        let d := failed (n + 2 ^ 16 * b2n isRow)
        (d.lineLeft a isRow = false → t = d.calliperRetire a 3) ∧
        (d.lineLeft a isRow = true → x.jobs = [] → t = d.remapDone a ⟨isRow, n, some (again, line)⟩ .clean) ∧
        (d.lineLeft a isRow = true → x.jobs ≠ [] → (t.arr a).remaps = (d.arr a).remaps ++ [⟨isRow, n, some (again, line)⟩])) := by
  intro howed hin hdue x h c told b f failed
  have hb : b = s.chip.blankTold a := rfl
  have hfailed (k : Nat) : failed k = b.blankFailed a k := rfl
  have hclear : (b.arr a).owed = false := s.chip.owed_blankTold a
  have hexec := exec_goldenBlank_due howed hin hdue o e
  have hblank := s.chip.blank_eq a o
  rw [← hb] at hblank
  have hpassed : b.blankPassed a = b.setReg (Reg.CALLIPER_ARR_BLANK h.idx (a % 4)) (f % 2 ^ 32) := rfl
  clear_value failed f b
  refine ⟨_, hexec, ?_⟩
  rw [hblank]
  have hkeep := blankPart_owed a
  cases o with
  | equal => exact ⟨(hkeep.event.setReg _ _ _).trans hclear, hpassed⟩
  | scattered =>
    rw [hfailed]
    exact ⟨(hkeep.calliperRetire _ _).trans ((hkeep.blankFailed _ _).trans hclear), rfl⟩
  | line isRow n again line =>
    have howed' : ((b.blankFailed a (n + 2 ^ 16 * b2n isRow)).arr a).owed = false := (hkeep.blankFailed _ _).trans hclear
    dsimp only
    rw [hfailed]
    generalize b.blankFailed a (n + 2 ^ 16 * b2n isRow) = d at howed'
    by_cases hleft : d.lineLeft a isRow = true
    · rw [if_neg (not_not_intro hleft)]
      by_cases hjobs : x.jobs = []
      · rw [if_pos (List.isEmpty_iff.2 hjobs)]
        exact ⟨(hkeep.remapDone _ _).trans howed', fun hn => absurd (hleft.symm.trans hn) (by decide), fun _ _ => rfl, fun _ hn => absurd hjobs hn⟩
      · rw [if_neg fun hn => hjobs (List.isEmpty_iff.1 hn)]
        refine ⟨(congrArg ArrSt.owed (Chip.arr_setArr _ _ _)).trans howed', fun hn => absurd (hleft.symm.trans hn) (by decide), fun _ hn => absurd hn hjobs, fun _ _ => ?_⟩
        exact congrArg ArrSt.remaps (Chip.arr_setArr _ _ _)
    · rw [if_pos hleft]
      exact ⟨(hkeep.calliperRetire _ _).trans howed', fun _ => rfl, fun hn => absurd hn hleft, fun hn => absurd hn hleft⟩

/-- Settles O41, clause by clause. -/
theorem calliperWork : Obligations.CalliperWork := ⟨checksCompared, mismatchDiagnosed, faultPlaced, frameStarts, blankRuns⟩

end Machine

end Sys2Proof

/-! PROOF. The end of an access through a peer window and the counts of a Carriage (R231, R507). -/

namespace Sys2Proof

namespace Machine

/-- A gather move of Headstock that still has to read its list, in the peer window of device 1, on a Carriage of number 208, which the part does not have:
the register that would note its tracker entries lies at the address of the count of peer accesses without an answer. -/
def farMove : Cmd :=
  { id := ⟨0, 1, 0⟩, words := [0x51, 0x6000000000, 0, 1, 0, 0, 0, 0], owner := 0, cls := 0, lowered := false, cq := 0, half := .H, unit := 208, stage := .running
    clamped := false, late := false, spare := false, doubt := false, empty := false, ended := none, n := 0, bytes := 0, aux := [] }

/-- A read of device 1 on that Carriage that has left the device at stamp 0. -/
def farRead : Txn := ⟨⟨0, 2, 0⟩, 0, 208, .H, false, 0x6000000000, 64, [], 0, some 0, none, none, 0⟩

/-- Two such reads wait for an answer, under a `TIMEOUT_US` of 0, beside the move. -/
def farWaitingChip : Chip :=
  { Chip.reset with cmds := [farMove], txns := [(0, farRead), (1, farRead)], txnNext := 2, regs := [(Reg.PEER_CTL 0, 0)] }

/-- Headstock's count of peer accesses without an answer after a step. -/
def timeoutsAfter : Host.Outcome State Fault Refusal → Nat
  | .next s => s.chip.q (F.PEER_TIMEOUT_CNT_COUNT 0)
  | _ => 0

/-- The access that has waited is counted; then the move's list read makes two entries of its Carriage, noted in the same register. -/
theorem timeoutsAfter_peerAccessTimeout : timeoutsAfter (exec (.peerAccessTimeout (.txn 0)) ⟨farWaitingChip, []⟩) = 2 := by decide +kernel

theorem timeouts_counted : (farWaitingChip.inc (F.PEER_TIMEOUT_CNT_COUNT 0)).q (F.PEER_TIMEOUT_CNT_COUNT 0) = 1 := by decide +kernel

/-- Refutes O59: no hypothesis bounds the number of the Carriage that runs a move. When a peer access ends without an answer, the moves of its half issue what
they can, and a move on Carriage 208 notes its tracker entries in the register that has just counted the access, which then holds 2 and not 1. -/
theorem not_linksAndPorts : ¬ Obligations.LinksAndPorts := by
  intro h
  obtain ⟨-, -, -, -, -, -, -, htimeout, -, -⟩ := h
  have hwait : farWaitingChip.farWait (.txn 0) = some (.H, 0, 0x6000000000, true, 0) := by decide +kernel
  have hlate : farWaitingChip.q (F.PEER_CTL_TIMEOUT_US 0) ≤ ageUs (farWaitingChip.stamp .H 0) 0 := by decide +kernel
  obtain ⟨hpeer, -⟩ := htimeout 0 .H 0 0x6000000000 true 0 ⟨farWaitingChip, []⟩ hwait rfl (by decide)
  obtain ⟨t, hexec, -, hcount⟩ := hpeer (by decide) hlate
  have hafter := timeoutsAfter_peerAccessTimeout
  rw [hexec] at hafter
  have hone : t.q (F.PEER_TIMEOUT_CNT_COUNT 0) = 1 := hcount.trans timeouts_counted
  exact absurd (hone.symm.trans hafter) (by decide)

end Machine

end Sys2Proof
